-- ==== Sys2Proof/Word.lean ====
section
/-!
DEFINITION. The words of the block: bytes, 32-bit register words, 64-bit words, and the plainest helpers on them.
-/

namespace Sys2Proof

/-- A byte of memory. -/
abbrev Byte := BitVec 8

/-- A 32-bit register or slot word. -/
abbrev Word := BitVec 32

/-- A 64-bit word: a 64-bit register, or the cell of a register. -/
abbrev DWord := BitVec 64

/-- 1 for true, 0 for false: how a flag stands in a register field. -/
def bitOf (b : Bool) : Nat := if b then 1 else 0

end Sys2Proof
end

