-- ==== Sys2Proof/Machine/Regs.lean ====
section
/-!
DEFINITION. The register file of the block as the spec's register tables give it (each table stands in the
chapter its docstring line names by block; addresses by R406): one constant for each named field, the table of
registers with their access codes (R9), and the cells whose reset value is not zero.
Written from the tables of spec/ by a script of the author; no value here comes from elsewhere.
-/

namespace Sys2Proof.Machine

/-- A field of a register: the register's address and the field's bits, as the register tables give them. -/
structure Fld where
  addr : Nat
  hi : Nat
  lo : Nat
  deriving DecidableEq, Repr

/-- The width of a field in bits. -/
def Fld.width (f : Fld) : Nat := f.hi + 1 - f.lo

/-- The whole 32-bit register that a field stands in. -/
def Fld.whole (f : Fld) : Fld := ⟨f.addr, 31, 0⟩

/-- The access codes of R9. -/
inductive Acc where
  | ro | rw | rwf | w1s | w1c | rc | wo
  deriving DecidableEq, Repr

/-- One field of a register table. -/
structure FldDesc where
  hi : Nat
  lo : Nat
  acc : Acc
  deriving DecidableEq, Repr

/-- One register table: its name, the address of its first instance, its indices (first value, count, stride), its width. -/
structure RegDesc where
  name : String
  base : Nat
  dims : List (Nat × Nat × Nat)
  width : Nat
  fields : List FldDesc
  deriving DecidableEq, Repr

/-- SYS.PARTID.PART [15:0] RO. Part number in hexadecimal digits -/
abbrev SYS_PARTID_PART : Fld := ⟨0x40000000, 15, 0⟩
/-- SYS.REVID.STEP_LETTER [7:4] RO. Stepping letter: 0x0 = A, 0x1 = B, and so on -/
abbrev SYS_REVID_STEP_LETTER : Fld := ⟨0x40000004, 7, 4⟩
/-- SYS.REVID.STEP_DIGIT [3:0] RO. Stepping digit -/
abbrev SYS_REVID_STEP_DIGIT : Fld := ⟨0x40000004, 3, 0⟩
/-- SYS.JTAGID.IDCODE [31:0] RO. Copy of the JTAG IDCODE -/
abbrev SYS_JTAGID_IDCODE : Fld := ⟨0x40000008, 31, 0⟩
/-- SYS.UID_LO.UID[31:0] [31:0] RO. Low half of the 64-bit unique identifier, fixed at manufacture -/
abbrev SYS_UID_LO_UID : Fld := ⟨0x40000010, 31, 0⟩
/-- SYS.UID_HI.UID[63:32] [31:0] RO. High half of the 64-bit unique identifier -/
abbrev SYS_UID_HI_UID : Fld := ⟨0x40000014, 31, 0⟩
/-- SYS.ROLE.FIRED [16:16] RO. 1 while a fired Glaze is in force -/
abbrev SYS_ROLE_FIRED : Fld := ⟨0x40000020, 16, 16⟩
/-- SYS.ROLE.WORKER_NO [12:8] RO. Worker number 1–31, assigned at discovery; 0 on a manager or standalone block -/
abbrev SYS_ROLE_WORKER_NO : Fld := ⟨0x40000020, 12, 8⟩
/-- SYS.ROLE.ROLE [1:0] RO. 0b00 standalone, 0b01 manager, 0b10 worker, 0b11 reserved -/
abbrev SYS_ROLE_ROLE : Fld := ⟨0x40000020, 1, 0⟩
/-- SYS.BCAST_STATUS.EMPTY [1:1] W1C. An alias access addressed a group with no members -/
abbrev SYS_BCAST_STATUS_EMPTY : Fld := ⟨0x40000030, 1, 1⟩
/-- SYS.BCAST_STATUS.MIXED [0:0] W1C. An alias read found members that differ -/
abbrev SYS_BCAST_STATUS_MIXED : Fld := ⟨0x40000030, 0, 0⟩
/-- SYS.STATE.PLANT_STOP [11:11] RO. 1 while a block stop caused by a plant stop is latched -/
abbrev SYS_STATE_PLANT_STOP : Fld := ⟨0x40000040, 11, 11⟩
/-- SYS.STATE.BLOCK_STOP [10:10] RO. 1 while the Sitter's block-stop latch is set, for any cause -/
abbrev SYS_STATE_BLOCK_STOP : Fld := ⟨0x40000040, 10, 10⟩
/-- SYS.STATE.ANY_ARMED [9:9] RO. 1 while at least one Setter is armed -/
abbrev SYS_STATE_ANY_ARMED : Fld := ⟨0x40000040, 9, 9⟩
/-- SYS.STATE.TRIP_ACTIVE [8:8] RO. 1 while a cycle trip holds any pair off in the current carrier period -/
abbrev SYS_STATE_TRIP_ACTIVE : Fld := ⟨0x40000040, 8, 8⟩
/-- SYS.STATE.PHASE [3:0] RO. 0x1 NO_GLAZE: HOST running, no Glaze loaded. 0x2 LOADED: Glaze loaded and verified, not fired. 0x3 FIRED: G... -/
abbrev SYS_STATE_PHASE : Fld := ⟨0x40000040, 3, 0⟩
/-- GLZ.CTRL.SRC_SEL [9:9] RW. 0 xSPI flash, 1 system SRAM -/
abbrev GLZ_CTRL_SRC_SEL : Fld := ⟨0x40100000, 9, 9⟩
/-- GLZ.CTRL.VIEW_STAGED [8:8] RW. 1: RWF reads return staged values in phase 0x4 -/
abbrev GLZ_CTRL_VIEW_STAGED : Fld := ⟨0x40100000, 8, 8⟩
/-- GLZ.CTRL.CMD [3:0] WO. 0x1 LOAD, 0x2 FIRE, 0x3 DISCARD, 0x4 ABORT_LOAD; other values ignored -/
abbrev GLZ_CTRL_CMD : Fld := ⟨0x40100000, 3, 0⟩
/-- GLZ.SRC_ADDR.ADDR [31:4] RW. Byte offset of the image, bits [31:4] -/
abbrev GLZ_SRC_ADDR_ADDR : Fld := ⟨0x40100008, 31, 4⟩
/-- GLZ.LEN.LEN [21:0] RW. Bytes to read, including the signature block; at most 0x20_0000 -/
abbrev GLZ_LEN_LEN : Fld := ⟨0x4010000c, 21, 0⟩
/-- GLZ.STATUS.PROGRESS [31:16] RO. Bytes processed by the running load, in KiB -/
abbrev GLZ_STATUS_PROGRESS : Fld := ⟨0x40100010, 31, 16⟩
/-- GLZ.STATUS.RESULT [3:2] RO. Last command: 0b00 none, 0b01 done, 0b10 refused, 0b11 reserved -/
abbrev GLZ_STATUS_RESULT : Fld := ⟨0x40100010, 3, 2⟩
/-- GLZ.STATUS.FIRING [1:1] RO. 1 in phase 0x5 -/
abbrev GLZ_STATUS_FIRING : Fld := ⟨0x40100010, 1, 1⟩
/-- GLZ.STATUS.BUSY [0:0] RO. 1 while a load or a firing runs -/
abbrev GLZ_STATUS_BUSY : Fld := ⟨0x40100010, 0, 0⟩
/-- GLZ.REFUSE.DETAIL [31:16] RO. Instance number at fault, or 0xFFFF if none -/
abbrev GLZ_REFUSE_DETAIL : Fld := ⟨0x40100014, 31, 16⟩
/-- GLZ.REFUSE.SECTION [15:8] RO. TYPE[7:0] of the section at fault, or 0 -/
abbrev GLZ_REFUSE_SECTION : Fld := ⟨0x40100014, 15, 8⟩
/-- GLZ.REFUSE.CODE [7:0] RO. Refusal code of R36; 0x00 after a successful command -/
abbrev GLZ_REFUSE_CODE : Fld := ⟨0x40100014, 7, 0⟩
/-- GLZ.ACTIVE_ID.IMAGE_ID [31:0] RO. IMAGE_ID of the Glaze in force; 0 before the first firing -/
abbrev GLZ_ACTIVE_ID_IMAGE_ID : Fld := ⟨0x40100020, 31, 0⟩
/-- GLZ.ACTIVE_VER.IMAGE_VERSION [31:0] RO. IMAGE_VERSION of the Glaze in force -/
abbrev GLZ_ACTIVE_VER_IMAGE_VERSION : Fld := ⟨0x40100024, 31, 0⟩
/-- GLZ.STAGED_ID.IMAGE_ID [31:0] RO. IMAGE_ID of the staged Glaze; 0 when none is staged -/
abbrev GLZ_STAGED_ID_IMAGE_ID : Fld := ⟨0x40100028, 31, 0⟩
/-- GLZ.STAGED_VER.IMAGE_VERSION [31:0] RO. IMAGE_VERSION of the staged Glaze -/
abbrev GLZ_STAGED_VER_IMAGE_VERSION : Fld := ⟨0x4010002c, 31, 0⟩
/-- GLZ.FIRE_COUNT.COUNT [31:0] RO. Firings completed since reset; saturates at 0xFFFF_FFFF -/
abbrev GLZ_FIRE_COUNT_COUNT : Fld := ⟨0x40100030, 31, 0⟩
/-- GLZ.RWF_REFUSED.COUNT [15:0] RC. Ignored RWF writes under R27; saturates at 0xFFFF -/
abbrev GLZ_RWF_REFUSED_COUNT : Fld := ⟨0x40100034, 15, 0⟩
/-- GLZ.INT.REFUSED [2:2] W1C. A load or firing was refused -/
abbrev GLZ_INT_REFUSED : Fld := ⟨0x40100038, 2, 2⟩
/-- GLZ.INT.FIRE_DONE [1:1] W1C. Phase 0x3 reached after a firing -/
abbrev GLZ_INT_FIRE_DONE : Fld := ⟨0x40100038, 1, 1⟩
/-- GLZ.INT.LOAD_DONE [0:0] W1C. A load completed successfully -/
abbrev GLZ_INT_LOAD_DONE : Fld := ⟨0x40100038, 0, 0⟩
/-- GLZ.INT_EN.EN [2:0] RW. Per-bit enable of the GLZ.INT flags to the HOST interrupt controller -/
abbrev GLZ_INT_EN_EN : Fld := ⟨0x4010003c, 2, 0⟩
/-- RGS.SUPV.LINKLOSS [23:16] RWF. Plant periods without a valid control frame before a worker block-stops (R19); 1–255. Loaded from the LINK ... -/
abbrev RGS_SUPV_LINKLOSS : Fld := ⟨0x41c00000, 23, 16⟩
/-- RGS.SUPV.M_SUBST [15:8] RWF. Maximum samples of estimate substitution; 1–255 -/
abbrev RGS_SUPV_M_SUBST : Fld := ⟨0x41c00000, 15, 8⟩
/-- RGS.SUPV.K_MISS [7:0] RWF. Consecutive misses that raise a block stop (R60); 1–255 -/
abbrev RGS_SUPV_K_MISS : Fld := ⟨0x41c00000, 7, 0⟩
/-- RGS.SLOT_REFUSED.COUNT [15:0] RC. Stores and writes by non-owners (R52); saturates at 0xFFFF -/
abbrev RGS_SLOT_REFUSED_COUNT : Fld := ⟨0x41c00004, 15, 0⟩
/-- RGS.MBOX_LO.VALUE [31:0] RO. Value of the oldest entry; 0 when empty -/
abbrev RGS_MBOX_LO_VALUE : Fld := ⟨0x41c00010, 31, 0⟩
/-- RGS.MBOX_HI.WHEEL [31:26] RO. Posting logical Wheel -/
abbrev RGS_MBOX_HI_WHEEL : Fld := ⟨0x41c00014, 31, 26⟩
/-- RGS.MBOX_HI.RG [25:23] RO. Its rate group -/
abbrev RGS_MBOX_HI_RG : Fld := ⟨0x41c00014, 25, 23⟩
/-- RGS.MBOX_HI.TAG [15:0] RO. Tag. Reading this register removes the entry (R68) -/
abbrev RGS_MBOX_HI_TAG : Fld := ⟨0x41c00014, 15, 0⟩
/-- RGS.MBOX_STAT.THRESH [14:8] RW. Level at or above which a post, or a THRESH write, sets INT.MBOX_LEVEL (R68); 1–64 -/
abbrev RGS_MBOX_STAT_THRESH : Fld := ⟨0x41c00018, 14, 8⟩
/-- RGS.MBOX_STAT.LEVEL [6:0] RO. Entries queued, 0–64 -/
abbrev RGS_MBOX_STAT_LEVEL : Fld := ⟨0x41c00018, 6, 0⟩
/-- RGS.MBOX_LOST.COUNT [15:0] RC. Posts refused because the queue was full; saturates at 0xFFFF -/
abbrev RGS_MBOX_LOST_COUNT : Fld := ⟨0x41c0001c, 15, 0⟩
/-- RGS.INT.TRIGLOSS [3:3] W1C. A group set STATUS.TRIGLOSS -/
abbrev RGS_INT_TRIGLOSS : Fld := ⟨0x41c00020, 3, 3⟩
/-- RGS.INT.MBOX_LOST [2:2] W1C. A post was refused -/
abbrev RGS_INT_MBOX_LOST : Fld := ⟨0x41c00020, 2, 2⟩
/-- RGS.INT.MBOX_LEVEL [1:1] W1C. LEVEL reached THRESH -/
abbrev RGS_INT_MBOX_LEVEL : Fld := ⟨0x41c00020, 1, 1⟩
/-- RGS.INT.MISS [0:0] W1C. A group missed a deadline -/
abbrev RGS_INT_MISS : Fld := ⟨0x41c00020, 0, 0⟩
/-- RGS.INT_EN.EN [3:0] RW. Per-bit enable of the RGS.INT flags to the HOST interrupt controller -/
abbrev RGS_INT_EN_EN : Fld := ⟨0x41c00024, 3, 0⟩
/-- RGS.RGk.CFG.FRESH_TMO [31:22] RWF. Fresh-read bound in cycles, 16–1,023 (R59) -/
abbrev RGS_RG_CFG_FRESH_TMO (k : Nat) : Fld := ⟨0x41c00100 + 0x40 * k, 31, 22⟩
/-- RGS.RGk.CFG.SWAP_SRC [21:20] RWF. Hardware swap source: 0b00 none, 0b01 RTS, 0b10 ISL, 0b11 reserved -/
abbrev RGS_RG_CFG_SWAP_SRC (k : Nat) : Fld := ⟨0x41c00100 + 0x40 * k, 21, 20⟩
/-- RGS.RGk.CFG.SRC_INST [19:16] RWF. Modulator pair for SRC 2; rate group for SRC 3; 0 otherwise -/
abbrev RGS_RG_CFG_SRC_INST (k : Nat) : Fld := ⟨0x41c00100 + 0x40 * k, 19, 16⟩
/-- RGS.RGk.CFG.DIV [15:8] RWF. Trigger divider; every (DIV + 1)th event -/
abbrev RGS_RG_CFG_DIV (k : Nat) : Fld := ⟨0x41c00100 + 0x40 * k, 15, 8⟩
/-- RGS.RGk.CFG.CURLOOP [7:7] RWF. 1 marks a current-loop group for the check of R16 -/
abbrev RGS_RG_CFG_CURLOOP (k : Nat) : Fld := ⟨0x41c00100 + 0x40 * k, 7, 7⟩
/-- RGS.RGk.CFG.SRC [2:0] RWF. Trigger source per R48; 6 and 7 reserved -/
abbrev RGS_RG_CFG_SRC (k : Nat) : Fld := ⟨0x41c00100 + 0x40 * k, 2, 0⟩
/-- RGS.RGk.PERIOD.PERIOD [19:0] RWF. Period or shortest trigger interval in WHEEL cycles (R50); reads 0xF_FFFF when the derived interval is longer -/
abbrev RGS_RG_PERIOD_PERIOD (k : Nat) : Fld := ⟨0x41c00104 + 0x40 * k, 19, 0⟩
/-- RGS.RGk.PHASE.PHASE [19:0] RWF. Cycles from trigger arrival to sample start, less one (R49) -/
abbrev RGS_RG_PHASE_PHASE (k : Nat) : Fld := ⟨0x41c00108 + 0x40 * k, 19, 0⟩
/-- RGS.RGk.DEADLINE.DEADLINE [19:0] RWF. Last cycle of the sample, counted from sample start, in which end-of-sample may fall -/
abbrev RGS_RG_DEADLINE_DEADLINE (k : Nat) : Fld := ⟨0x41c0010c + 0x40 * k, 19, 0⟩
/-- RGS.RGk.TRIG_TMO.TMO [23:0] RWF. Cycles without a trigger before TRIGLOSS (R61) -/
abbrev RGS_RG_TRIG_TMO_TMO (k : Nat) : Fld := ⟨0x41c00110 + 0x40 * k, 23, 0⟩
/-- RGS.RGk.STATUS.CONSEC [31:24] RO. Consecutive misses; saturates at 255 -/
abbrev RGS_RG_STATUS_CONSEC (k : Nat) : Fld := ⟨0x41c00114 + 0x40 * k, 31, 24⟩
/-- RGS.RGk.STATUS.TRIGLOSS [6:6] W1C. Trigger timeout occurred -/
abbrev RGS_RG_STATUS_TRIGLOSS (k : Nat) : Fld := ⟨0x41c00114 + 0x40 * k, 6, 6⟩
/-- RGS.RGk.STATUS.STALE [5:5] W1C. A fresh read timed out -/
abbrev RGS_RG_STATUS_STALE (k : Nat) : Fld := ⟨0x41c00114 + 0x40 * k, 5, 5⟩
/-- RGS.RGk.STATUS.SWAP_PEND [4:4] RO. A swap request is pending -/
abbrev RGS_RG_STATUS_SWAP_PEND (k : Nat) : Fld := ⟨0x41c00114 + 0x40 * k, 4, 4⟩
/-- RGS.RGk.STATUS.ACTIVE_BANK [3:3] RO. 0 bank A, 1 bank B -/
abbrev RGS_RG_STATUS_ACTIVE_BANK (k : Nat) : Fld := ⟨0x41c00114 + 0x40 * k, 3, 3⟩
/-- RGS.RGk.STATUS.RUNNING [2:2] RO. 1 between sample start and end-of-sample or miss -/
abbrev RGS_RG_STATUS_RUNNING (k : Nat) : Fld := ⟨0x41c00114 + 0x40 * k, 2, 2⟩
/-- RGS.RGk.STATUS.MISS [1:1] W1C. A deadline was missed -/
abbrev RGS_RG_STATUS_MISS (k : Nat) : Fld := ⟨0x41c00114 + 0x40 * k, 1, 1⟩
/-- RGS.RGk.MISS_COUNT.COUNT [31:0] RO. Misses since the last firing; saturates at 0xFFFF_FFFF -/
abbrev RGS_RG_MISS_COUNT_COUNT (k : Nat) : Fld := ⟨0x41c00118 + 0x40 * k, 31, 0⟩
/-- RGS.RGk.SAMPLES.COUNT [31:0] RO. Sample starts since the last firing; wraps to 0 -/
abbrev RGS_RG_SAMPLES_COUNT (k : Nat) : Fld := ⟨0x41c0011c + 0x40 * k, 31, 0⟩
/-- RGS.RGk.SWAP.REFUSED [16:16] W1C. A firmware request was refused or replaced (R65) -/
abbrev RGS_RG_SWAP_REFUSED (k : Nat) : Fld := ⟨0x41c00120 + 0x40 * k, 16, 16⟩
/-- RGS.RGk.SWAP.AT_PLANT [9:9] RW. 1: the next request waits for a plant-period boundary (R64) -/
abbrev RGS_RG_SWAP_AT_PLANT (k : Nat) : Fld := ⟨0x41c00120 + 0x40 * k, 9, 9⟩
/-- RGS.RGk.SWAP.GO [8:8] W1S. Write 1 to request a swap to BANK; reads 1 while pending -/
abbrev RGS_RG_SWAP_GO (k : Nat) : Fld := ⟨0x41c00120 + 0x40 * k, 8, 8⟩
/-- RGS.RGk.SWAP.BANK [0:0] RW. Target bank: 0 A, 1 B -/
abbrev RGS_RG_SWAP_BANK (k : Nat) : Fld := ⟨0x41c00120 + 0x40 * k, 0, 0⟩
/-- RGS.SLOTs.VALUE [31:0] RW. Read: last published value (R56). Write: published if the slot is firmware-owned, otherwise ignored and cou... -/
abbrev RGS_SLOT_VALUE (s : Nat) : Fld := ⟨0x41c10000 + 0x4 * s, 31, 0⟩
/-- RGS.OWNERs.KIND [10:8] RO. 0b000 none, 0b001 rate group, 0b010 converter, 0b011 hardware unit, 0b100 WareLink, 0b101 firmware; others ... -/
abbrev RGS_OWNER_KIND (s : Nat) : Fld := ⟨0x41c20000 + 0x4 * s, 10, 8⟩
/-- RGS.OWNERs.INDEX [7:0] RO. Group, core, or unit number (0 GSU, 1 RTS, 2 ISL, 3 DCI) -/
abbrev RGS_OWNER_INDEX (s : Nat) : Fld := ⟨0x41c20000 + 0x4 * s, 7, 0⟩
/-- WHLn.STATUS.PHYS [22:16] RO. Physical cell P0–P67 carrying the Wheel (R47) -/
abbrev WHL_STATUS_PHYS (n : Nat) : Fld := ⟨0x41000000 + 0x10000 * n, 22, 16⟩
/-- WHLn.STATUS.RG [10:8] RO. Rate group of the Wheel -/
abbrev WHL_STATUS_RG (n : Nat) : Fld := ⟨0x41000000 + 0x10000 * n, 10, 8⟩
/-- WHLn.STATUS.MEM_ERR [3:3] W1C. An uncorrectable or parity error stopped the Wheel (R45) -/
abbrev WHL_STATUS_MEM_ERR (n : Nat) : Fld := ⟨0x41000000 + 0x10000 * n, 3, 3⟩
/-- WHLn.STATUS.SAT [2:2] RO. Any integrator state at a limit at the last end-of-sample -/
abbrev WHL_STATUS_SAT (n : Nat) : Fld := ⟨0x41000000 + 0x10000 * n, 2, 2⟩
/-- WHLn.STATUS.MBOX_FULL [1:1] W1C. A post by this Wheel was refused -/
abbrev WHL_STATUS_MBOX_FULL (n : Nat) : Fld := ⟨0x41000000 + 0x10000 * n, 1, 1⟩
/-- WHLn.STATUS.IN_USE [0:0] RO. 1 if the fired Glaze assigns the Wheel to a rate group -/
abbrev WHL_STATUS_IN_USE (n : Nat) : Fld := ⟨0x41000000 + 0x10000 * n, 0, 0⟩
/-- WHLn.COEF_REFUSED.COUNT [15:0] RC. Bank writes refused under R63 or R69; saturates at 0xFFFF -/
abbrev WHL_COEF_REFUSED_COUNT (n : Nat) : Fld := ⟨0x41000010 + 0x10000 * n, 15, 0⟩
/-- WHLn.ISTATEj.STATE [31:0] RW. Integrator state Ij (j = 0–3), float32. Read and preset per R67 -/
abbrev WHL_ISTATE_STATE (n : Nat) (j : Nat) : Fld := ⟨0x41000040 + 0x10000 * n + 0x4 * j, 31, 0⟩
/-- GSUn.CFG.PLL_BW [27:23] RWF. Loop bandwidth in steps of 5 Hz, 1–20; 0 reserved -/
abbrev GSU_CFG_PLL_BW (n : Nat) : Fld := ⟨0x42000000 + 0x1000 * n, 27, 23⟩
/-- GSUn.CFG.ANG_EN [22:22] RWF. 1: publish θ per R102 -/
abbrev GSU_CFG_ANG_EN (n : Nat) : Fld := ⟨0x42000000 + 0x1000 * n, 22, 22⟩
/-- GSUn.CFG.ANG_RG [21:19] RWF. Rate group whose sample starts receive θ -/
abbrev GSU_CFG_ANG_RG (n : Nat) : Fld := ⟨0x42000000 + 0x1000 * n, 21, 19⟩
/-- GSUn.CFG.DIV [18:11] RWF. Update at every (DIV + 1)th sample start of TRIG_RG -/
abbrev GSU_CFG_DIV (n : Nat) : Fld := ⟨0x42000000 + 0x1000 * n, 18, 11⟩
/-- GSUn.CFG.TRIG_RG [10:8] RWF. Rate group that triggers updates -/
abbrev GSU_CFG_TRIG_RG (n : Nat) : Fld := ⟨0x42000000 + 0x1000 * n, 10, 8⟩
/-- GSUn.CFG.PJ_RESEED [6:6] RWF. 1: step θ by a detected phase jump (R105) -/
abbrev GSU_CFG_PJ_RESEED (n : Nat) : Fld := ⟨0x42000000 + 0x1000 * n, 6, 6⟩
/-- GSUn.CFG.WINDOW [5:4] RWF. Magnitude window: 0b00 1/8, 0b01 1/4, 0b10 1/2, 0b11 1 nominal cycle -/
abbrev GSU_CFG_WINDOW (n : Nat) : Fld := ⟨0x42000000 + 0x1000 * n, 5, 4⟩
/-- GSUn.CFG.NEUTRAL_IN [3:3] RWF. 1: read vn at BASE + 3 -/
abbrev GSU_CFG_NEUTRAL_IN (n : Nat) : Fld := ⟨0x42000000 + 0x1000 * n, 3, 3⟩
/-- GSUn.CFG.FNOM [2:2] RWF. 0 50 Hz, 1 60 Hz -/
abbrev GSU_CFG_FNOM (n : Nat) : Fld := ⟨0x42000000 + 0x1000 * n, 2, 2⟩
/-- GSUn.CFG.WIRING [1:1] RWF. 0 four-wire, 1 three-wire (R99) -/
abbrev GSU_CFG_WIRING (n : Nat) : Fld := ⟨0x42000000 + 0x1000 * n, 1, 1⟩
/-- GSUn.CFG.EN [0:0] RWF. 1: instance in use -/
abbrev GSU_CFG_EN (n : Nat) : Fld := ⟨0x42000000 + 0x1000 * n, 0, 0⟩
/-- GSUn.INSLOT.FMT [12:12] RWF. 0 int16 codes, 1 float32 V -/
abbrev GSU_INSLOT_FMT (n : Nat) : Fld := ⟨0x42000004 + 0x1000 * n, 12, 12⟩
/-- GSUn.INSLOT.BASE [11:0] RWF. First of four input slots -/
abbrev GSU_INSLOT_BASE (n : Nat) : Fld := ⟨0x42000004 + 0x1000 * n, 11, 0⟩
/-- GSUn.OUTSLOT.ANGSLOT [27:16] RWF. Slot receiving θ -/
abbrev GSU_OUTSLOT_ANGSLOT (n : Nat) : Fld := ⟨0x42000008 + 0x1000 * n, 27, 16⟩
/-- GSUn.OUTSLOT.BASE [11:0] RWF. First of fifteen output slots (R108) -/
abbrev GSU_OUTSLOT_BASE (n : Nat) : Fld := ⟨0x42000008 + 0x1000 * n, 11, 0⟩
/-- GSUn.SCALEi.SCALE [31:0] RWF. float32, V per code for input i (i = 0–3); unused with FMT = 1 -/
abbrev GSU_SCALE_SCALE (n : Nat) (i : Nat) : Fld := ⟨0x42000010 + 0x1000 * n + 0x4 * i, 31, 0⟩
/-- GSUn.LEAD.LEAD [16:0] RWF. Angle lead in ns, 0–100,000 -/
abbrev GSU_LEAD_LEAD (n : Nat) : Fld := ⟨0x42000020 + 0x1000 * n, 16, 0⟩
/-- GSUn.VRATED.VRATED [31:0] RWF. float32, rated RMS phase-to-neutral voltage in V -/
abbrev GSU_VRATED_VRATED (n : Nat) : Fld := ⟨0x42000024 + 0x1000 * n, 31, 0⟩
/-- GSUn.THR.ROCOF_WIN [31:24] RWF. RoCoF window in steps of 10 ms, 2–50 -/
abbrev GSU_THR_ROCOF_WIN (n : Nat) : Fld := ⟨0x42000028 + 0x1000 * n, 31, 24⟩
/-- GSUn.THR.MN_TIME [23:16] RWF. Missing-neutral time in ms, 1–255 -/
abbrev GSU_THR_MN_TIME (n : Nat) : Fld := ⟨0x42000028 + 0x1000 * n, 23, 16⟩
/-- GSUn.THR.MN_THR [15:8] RWF. Missing-neutral threshold in steps of 0.01 pu, 2–50 -/
abbrev GSU_THR_MN_THR (n : Nat) : Fld := ⟨0x42000028 + 0x1000 * n, 15, 8⟩
/-- GSUn.THR.PJ_THR [6:0] RWF. Phase-jump threshold in degrees, 1–90 -/
abbrev GSU_THR_PJ_THR (n : Nat) : Fld := ⟨0x42000028 + 0x1000 * n, 6, 0⟩
/-- GSUn.STATUS.PJ_COUNT [31:16] RO. Phase jumps since firing; saturates at 0xFFFF -/
abbrev GSU_STATUS_PJ_COUNT (n : Nat) : Fld := ⟨0x42000030 + 0x1000 * n, 31, 16⟩
/-- GSUn.STATUS.MISS_N_EV [7:7] W1C. MISS_N was set -/
abbrev GSU_STATUS_MISS_N_EV (n : Nat) : Fld := ⟨0x42000030 + 0x1000 * n, 7, 7⟩
/-- GSUn.STATUS.WRONG_SEQ_EV [6:6] W1C. WRONG_SEQ was set -/
abbrev GSU_STATUS_WRONG_SEQ_EV (n : Nat) : Fld := ⟨0x42000030 + 0x1000 * n, 6, 6⟩
/-- GSUn.STATUS.LOCK_LOST [5:5] W1C. LOCKED cleared -/
abbrev GSU_STATUS_LOCK_LOST (n : Nat) : Fld := ⟨0x42000030 + 0x1000 * n, 5, 5⟩
/-- GSUn.STATUS.PJUMP [4:4] W1C. A phase jump was detected (R105) -/
abbrev GSU_STATUS_PJUMP (n : Nat) : Fld := ⟨0x42000030 + 0x1000 * n, 4, 4⟩
/-- GSUn.STATUS.MISS_N [3:3] RO. Missing neutral present (R107) -/
abbrev GSU_STATUS_MISS_N (n : Nat) : Fld := ⟨0x42000030 + 0x1000 * n, 3, 3⟩
/-- GSUn.STATUS.WRONG_SEQ [2:2] RO. Wrong phase sequence present -/
abbrev GSU_STATUS_WRONG_SEQ (n : Nat) : Fld := ⟨0x42000030 + 0x1000 * n, 2, 2⟩
/-- GSUn.STATUS.COAST [1:1] RO. Coasting (R106) -/
abbrev GSU_STATUS_COAST (n : Nat) : Fld := ⟨0x42000030 + 0x1000 * n, 1, 1⟩
/-- GSUn.STATUS.LOCKED [0:0] RO. Locked (R106) -/
abbrev GSU_STATUS_LOCKED (n : Nat) : Fld := ⟨0x42000030 + 0x1000 * n, 0, 0⟩
/-- GSUn.INT_EN.EN [3:0] RW. Per-bit enable of STATUS[7:4] to the HOST interrupt controller -/
abbrev GSU_INT_EN_EN (n : Nat) : Fld := ⟨0x42000034 + 0x1000 * n, 3, 0⟩
/-- RTS.CFG.CEASE_PAIRS [28:20] RWF. Pairs MOD0–MOD8 given the cessation hold -/
abbrev RTS_CFG_CEASE_PAIRS : Fld := ⟨0x42100000, 28, 20⟩
/-- RTS.CFG.PERM_CEASE [19:19] RWF. 1: PERM acts as CEASE -/
abbrev RTS_CFG_PERM_CEASE : Fld := ⟨0x42100000, 19, 19⟩
/-- RTS.CFG.BANK_MAP [18:14] RWF. Target bank per region, bit 14 CONT to bit 18 TRIP: 0 A, 1 B -/
abbrev RTS_CFG_BANK_MAP : Fld := ⟨0x42100000, 18, 14⟩
/-- RTS.CFG.EXIT [13:9] RWF. EXIT_TICKS, 1–16 -/
abbrev RTS_CFG_EXIT : Fld := ⟨0x42100000, 13, 9⟩
/-- RTS.CFG.ENTRY [8:4] RWF. ENTRY_TICKS, 1–16 -/
abbrev RTS_CFG_ENTRY : Fld := ⟨0x42100000, 8, 4⟩
/-- RTS.CFG.EN [3:3] RWF. 1: RTS in use -/
abbrev RTS_CFG_EN : Fld := ⟨0x42100000, 3, 3⟩
/-- RTS.CFG.CEASE_GATE [2:2] RWF. 1: apply the cessation hold -/
abbrev RTS_CFG_CEASE_GATE : Fld := ⟨0x42100000, 2, 2⟩
/-- RTS.CFG.GSU [1:0] RWF. Watched GSU instance -/
abbrev RTS_CFG_GSU : Fld := ⟨0x42100000, 1, 0⟩
/-- RTS.SLOTS.BASE [11:0] RWF. First of five output slots (R114) -/
abbrev RTS_SLOTS_BASE : Fld := ⟨0x42100004, 11, 0⟩
/-- RTS.HYST.HYST_F [15:8] RWF. In steps of 0.01 Hz, 0–50 -/
abbrev RTS_HYST_HYST_F : Fld := ⟨0x42100008, 15, 8⟩
/-- RTS.HYST.HYST_V [7:0] RWF. In steps of 0.001 pu, 0–50 -/
abbrev RTS_HYST_HYST_V : Fld := ⟨0x42100008, 7, 0⟩
/-- RTS.RCIp.VALUE [31:0] RWF. float32: p = 0 K1, 1 K2, 2 VDB, 3 IQ_MAX, 4 IMAX, 5 RAMP (R117, R118) -/
abbrev RTS_RCI_VALUE (p : Nat) : Fld := ⟨0x42100010 + 0x4 * p, 31, 0⟩
/-- RTS.NPTS.OF [29:24] RWF. Points in the OF curve, 0–32 -/
abbrev RTS_NPTS_OF : Fld := ⟨0x42100030, 29, 24⟩
/-- RTS.NPTS.UF [21:16] RWF. Points in the UF curve -/
abbrev RTS_NPTS_UF : Fld := ⟨0x42100030, 21, 16⟩
/-- RTS.NPTS.OV [13:8] RWF. Points in the OV curve -/
abbrev RTS_NPTS_OV : Fld := ⟨0x42100030, 13, 8⟩
/-- RTS.NPTS.UV [5:0] RWF. Points in the UV curve -/
abbrev RTS_NPTS_UV : Fld := ⟨0x42100030, 5, 0⟩
/-- RTS.CTRL.CLEAR_TRIP [0:0] WO. Write 1 to clear TRIP_LATCH (R119) -/
abbrev RTS_CTRL_CLEAR_TRIP : Fld := ⟨0x42100040, 0, 0⟩
/-- RTS.STATE.CHANGES [31:16] RO. Region changes since firing; wraps -/
abbrev RTS_STATE_CHANGES : Fld := ⟨0x42100044, 31, 16⟩
/-- RTS.STATE.TRIP_LATCH [9:9] RO. Ride-through trip latched -/
abbrev RTS_STATE_TRIP_LATCH : Fld := ⟨0x42100044, 9, 9⟩
/-- RTS.STATE.HOLD [8:8] RO. Cessation hold requested -/
abbrev RTS_STATE_HOLD : Fld := ⟨0x42100044, 8, 8⟩
/-- RTS.STATE.FHOLD [7:7] RO. Frequency curves on held f (R120) -/
abbrev RTS_STATE_FHOLD : Fld := ⟨0x42100044, 7, 7⟩
/-- RTS.STATE.EXC [6:6] RO. An excursion is in progress -/
abbrev RTS_STATE_EXC : Fld := ⟨0x42100044, 6, 6⟩
/-- RTS.STATE.CURVE [5:3] RO. Curve setting the region: 0 none, 1 UV, 2 OV, 3 UF, 4 OF -/
abbrev RTS_STATE_CURVE : Fld := ⟨0x42100044, 5, 3⟩
/-- RTS.STATE.REGION [2:0] RO. 0 CONT, 1 MAND, 2 PERM, 3 CEASE, 4 TRIP -/
abbrev RTS_STATE_REGION : Fld := ⟨0x42100044, 2, 0⟩
/-- RTS.EXC_TIME.MS [21:0] RO. Time since the earliest running excursion started, in ms; 0 when none; saturates -/
abbrev RTS_EXC_TIME_MS : Fld := ⟨0x42100048, 21, 0⟩
/-- RTS.REFUSED.COUNT [15:0] RC. Refused CLEAR_TRIP writes; saturates at 0xFFFF -/
abbrev RTS_REFUSED_COUNT : Fld := ⟨0x4210004c, 15, 0⟩
/-- RTS.PTc_k.LEVEL.LEVEL [31:0] RWF. float32 Lk of curve c (0 UV, 1 OV, 2 UF, 3 OF), point k = 0–31; pu or Hz -/
abbrev RTS_PT_LEVEL_LEVEL (c : Nat) (k : Nat) : Fld := ⟨0x42100400 + 0x100 * c + 0x8 * k, 31, 0⟩
/-- RTS.PTc_k.TIME.REGION [31:29] RWF. Gk: 1 MAND, 2 PERM, 3 CEASE, 4 TRIP; 0 and 5–7 refused at load -/
abbrev RTS_PT_TIME_REGION (c : Nat) (k : Nat) : Fld := ⟨0x42100404 + 0x100 * c + 0x8 * k, 31, 29⟩
/-- RTS.PTc_k.TIME.TIME [21:0] RWF. Tk in ms; 0x3F_FFFF for no limit -/
abbrev RTS_PT_TIME_TIME (c : Nat) (k : Nat) : Fld := ⟨0x42100404 + 0x100 * c + 0x8 * k, 21, 0⟩
/-- ISL.CFG.DIV [31:24] RWF. Tick at every (DIV + 1)th sample start of TRIG_RG -/
abbrev ISL_CFG_DIV : Fld := ⟨0x42200000, 31, 24⟩
/-- ISL.CFG.INJ_RG [23:21] RWF. Rate group before whose sample starts tone slots are published -/
abbrev ISL_CFG_INJ_RG : Fld := ⟨0x42200000, 23, 21⟩
/-- ISL.CFG.ANG_RG [20:18] RWF. Rate group before whose sample starts slot +5 is published -/
abbrev ISL_CFG_ANG_RG : Fld := ⟨0x42200000, 20, 18⟩
/-- ISL.CFG.TRIG_RG [17:15] RWF. Rate group that triggers ticks -/
abbrev ISL_CFG_TRIG_RG : Fld := ⟨0x42200000, 17, 15⟩
/-- ISL.CFG.RESYNC_GSU [13:12] RWF. GSU on the grid side of the breaker -/
abbrev ISL_CFG_RESYNC_GSU : Fld := ⟨0x42200000, 13, 12⟩
/-- ISL.CFG.GSU [11:10] RWF. Watched GSU -/
abbrev ISL_CFG_GSU : Fld := ⟨0x42200000, 11, 10⟩
/-- ISL.CFG.ACTION [9:8] RWF. 0 REPORT, 1 STOP, 2 FORM, 3 reserved (R131) -/
abbrev ISL_CFG_ACTION : Fld := ⟨0x42200000, 9, 8⟩
/-- ISL.CFG.SLOT_AUTO [7:7] RWF. 1: MYSLOT from WORKER_NO (R134) -/
abbrev ISL_CFG_SLOT_AUTO : Fld := ⟨0x42200000, 7, 7⟩
/-- ISL.CFG.PLANT_DEFER [6:6] RWF. 1: a worker defers to the manager (R132) -/
abbrev ISL_CFG_PLANT_DEFER : Fld := ⟨0x42200000, 6, 6⟩
/-- ISL.CFG.INIT_MODE [5:5] RWF. 0 GFL, 1 GFM at firing -/
abbrev ISL_CFG_INIT_MODE : Fld := ⟨0x42200000, 5, 5⟩
/-- ISL.CFG.GFO_EN [3:3] RWF. Grid-forming oscillator in use -/
abbrev ISL_CFG_GFO_EN : Fld := ⟨0x42200000, 3, 3⟩
/-- ISL.CFG.EST_EN [2:2] RWF. Impedance estimator in use -/
abbrev ISL_CFG_EST_EN : Fld := ⟨0x42200000, 2, 2⟩
/-- ISL.CFG.ACT_EN [1:1] RWF. Active detection in use -/
abbrev ISL_CFG_ACT_EN : Fld := ⟨0x42200000, 1, 1⟩
/-- ISL.CFG.EN [0:0] RWF. ISL in use -/
abbrev ISL_CFG_EN : Fld := ⟨0x42200000, 0, 0⟩
/-- ISL.INSLOT.PQ_BASE [27:16] RWF. P slot; Q at PQ_BASE + 1 -/
abbrev ISL_INSLOT_PQ_BASE : Fld := ⟨0x42200004, 27, 16⟩
/-- ISL.INSLOT.CUR_BASE [11:0] RWF. First of three phase-current slots -/
abbrev ISL_INSLOT_CUR_BASE : Fld := ⟨0x42200004, 11, 0⟩
/-- ISL.OUTSLOT.BASE [11:0] RWF. First of thirteen output slots (R126) -/
abbrev ISL_OUTSLOT_BASE : Fld := ⟨0x42200008, 11, 0⟩
/-- ISL.LEAD.LEAD [16:0] RWF. Angle lead for slot +5 in ns, 0–100,000 -/
abbrev ISL_LEAD_LEAD : Fld := ⟨0x4220000c, 16, 0⟩
/-- ISL.PASSm.ACTION [31:30] RWF. 0 off, 1 ALERT, 2 DETECT, 3 reserved -/
abbrev ISL_PASS_ACTION (m : Nat) : Fld := ⟨0x42200010 + 0x4 * m, 31, 30⟩
/-- ISL.PASSm.TIME [23:16] RWF. Hold time in ms, 0–255 -/
abbrev ISL_PASS_TIME (m : Nat) : Fld := ⟨0x42200010 + 0x4 * m, 23, 16⟩
/-- ISL.PASSm.THR [15:0] RWF. Threshold in the unit of R127 -/
abbrev ISL_PASS_THR (m : Nat) : Fld := ⟨0x42200010 + 0x4 * m, 15, 0⟩
/-- ISL.ACT.PERIOD [31:24] RWF. Pulse period in steps of 10 ms, 2–200 -/
abbrev ISL_ACT_PERIOD : Fld := ⟨0x42200020, 31, 24⟩
/-- ISL.ACT.WIDTH [23:16] RWF. Pulse width in ms, 5–255; must be below PERIOD -/
abbrev ISL_ACT_WIDTH : Fld := ⟨0x42200020, 23, 16⟩
/-- ISL.ACT.CONFIRM [15:12] RWF. Responses that declare islanding, 1–8 -/
abbrev ISL_ACT_CONFIRM : Fld := ⟨0x42200020, 15, 12⟩
/-- ISL.ACT.OFFSET [10:0] RWF. Pulse offset in ms, below PERIOD -/
abbrev ISL_ACT_OFFSET : Fld := ⟨0x42200020, 10, 0⟩
/-- ISL.ACT2.DF_THR [31:24] RWF. In steps of 0.01 Hz, 1–50 -/
abbrev ISL_ACT2_DF_THR : Fld := ⟨0x42200024, 31, 24⟩
/-- ISL.ACT2.DV_THR [23:16] RWF. In steps of 0.001 pu, 1–100 -/
abbrev ISL_ACT2_DV_THR : Fld := ⟨0x42200024, 23, 16⟩
/-- ISL.ACT2.PERT_MAX [15:8] RWF. In steps of 0.001 pu, 0–100 -/
abbrev ISL_ACT2_PERT_MAX : Fld := ⟨0x42200024, 15, 8⟩
/-- ISL.ACT2.PERT_IQ [7:0] RWF. In steps of 0.001 pu, 0–100 -/
abbrev ISL_ACT2_PERT_IQ : Fld := ⟨0x42200024, 7, 0⟩
/-- ISL.TONEk.AMP [31:16] RWF. In steps of 0.0001 pu of rated RMS current, 0–200; 0 tone off -/
abbrev ISL_TONE_AMP (k : Nat) : Fld := ⟨0x42200030 + 0x4 * k, 31, 16⟩
/-- ISL.TONEk.FREQ [10:0] RWF. Tone k (k = 0–3) in Hz, 20–2,000 (R133) -/
abbrev ISL_TONE_FREQ (k : Nat) : Fld := ⟨0x42200030 + 0x4 * k, 10, 0⟩
/-- ISL.EST.NSLOT [31:26] RWF. Windows per rotation, 1–32 -/
abbrev ISL_EST_NSLOT : Fld := ⟨0x42200040, 31, 26⟩
/-- ISL.EST.MYSLOT [25:21] RWF. This block's window, 0–31; ignored with SLOT_AUTO -/
abbrev ISL_EST_MYSLOT : Fld := ⟨0x42200040, 25, 21⟩
/-- ISL.EST.NSCALE [20:15] RWF. Inductance multiplier, 1–32 -/
abbrev ISL_EST_NSCALE : Fld := ⟨0x42200040, 20, 15⟩
/-- ISL.EST.SPREAD [14:8] RWF. Per-tone agreement in percent, 5–100 -/
abbrev ISL_EST_SPREAD : Fld := ⟨0x42200040, 14, 8⟩
/-- ISL.EST.TW [3:0] RWF. Window in steps of 100 ms, 1–10 -/
abbrev ISL_EST_TW : Fld := ⟨0x42200040, 3, 0⟩
/-- ISL.LCLp.VALUE [31:0] RWF. float32: p = 0 L1 (H), 1 L2 (H), 2 Cf (F), 3 NOTCH_R, 4 NOTCH_TS (s), 5 NOTCH_HYST (Hz), 6 FMIN (Hz), 7 FMA... -/
abbrev ISL_LCL_VALUE (p : Nat) : Fld := ⟨0x42200050 + 0x4 * p, 31, 0⟩
/-- ISL.NOTCH.ADDR [31:22] RWF. Bank address of b0, 0–1,019 -/
abbrev ISL_NOTCH_ADDR : Fld := ⟨0x42200074, 31, 22⟩
/-- ISL.NOTCH.COUNT [14:8] RWF. Wheels retuned, 0–64; 0 disables retuning -/
abbrev ISL_NOTCH_COUNT : Fld := ⟨0x42200074, 14, 8⟩
/-- ISL.NOTCH.FIRST [5:0] RWF. First logical Wheel -/
abbrev ISL_NOTCH_FIRST : Fld := ⟨0x42200074, 5, 0⟩
/-- ISL.NOTCH_HZ.HZ [31:0] RO. float32, notch frequency in force (R136) -/
abbrev ISL_NOTCH_HZ_HZ : Fld := ⟨0x42200078, 31, 0⟩
/-- ISL.GFOp.VALUE [31:0] RWF. float32: p = 0 MP (pu/pu), 1 MQ (pu/pu), 2 VSET (pu), 3 SYNC_BW (Hz), 4 TP (s), 5 RESYNC_BW (Hz) -/
abbrev ISL_GFO_VALUE (p : Nat) : Fld := ⟨0x42200080 + 0x4 * p, 31, 0⟩
/-- ISL.PSET.PSET [31:0] RW. float32, active-power setpoint in pu (R137) -/
abbrev ISL_PSET_PSET : Fld := ⟨0x422000a0, 31, 0⟩
/-- ISL.QSET.QSET [31:0] RW. float32, reactive-power setpoint in pu -/
abbrev ISL_QSET_QSET : Fld := ⟨0x422000a4, 31, 0⟩
/-- ISL.XFER.ANG_BOUND [31:24] RWF. Degrees, 1–90 -/
abbrev ISL_XFER_ANG_BOUND : Fld := ⟨0x422000b0, 31, 24⟩
/-- ISL.XFER.MAG_BOUND [23:16] RWF. In steps of 0.01 pu, 1–50 -/
abbrev ISL_XFER_MAG_BOUND : Fld := ⟨0x422000b0, 23, 16⟩
/-- ISL.XFER.DEFER_MAX [15:12] RWF. Plant periods, 1–15 (R132) -/
abbrev ISL_XFER_DEFER_MAX : Fld := ⟨0x422000b0, 15, 12⟩
/-- ISL.XFER.MODE_BANK [9:8] RWF. Bit 8 bank for GFL, bit 9 bank for GFM: 0 A, 1 B -/
abbrev ISL_XFER_MODE_BANK : Fld := ⟨0x422000b0, 9, 8⟩
/-- ISL.XRATE.ANG_RATE [31:16] RWF. °/s, 1–3,600 -/
abbrev ISL_XRATE_ANG_RATE : Fld := ⟨0x422000b4, 31, 16⟩
/-- ISL.XRATE.MAG_RATE [15:0] RWF. In steps of 0.01 pu/s, 1–1,000 -/
abbrev ISL_XRATE_MAG_RATE : Fld := ⟨0x422000b4, 15, 0⟩
/-- ISL.PREe.LIST [31:30] RWF. Preset list 0–3 -/
abbrev ISL_PRE_LIST (e : Nat) : Fld := ⟨0x422000c0 + 0x4 * e, 31, 30⟩
/-- ISL.PREe.EN [29:29] RWF. Entry e (0–15) in use -/
abbrev ISL_PRE_EN (e : Nat) : Fld := ⟨0x422000c0 + 0x4 * e, 29, 29⟩
/-- ISL.PREe.WHEEL [23:18] RWF. Logical Wheel -/
abbrev ISL_PRE_WHEEL (e : Nat) : Fld := ⟨0x422000c0 + 0x4 * e, 23, 18⟩
/-- ISL.PREe.STATE [17:16] RWF. Integrator state I0–I3 -/
abbrev ISL_PRE_STATE (e : Nat) : Fld := ⟨0x422000c0 + 0x4 * e, 17, 16⟩
/-- ISL.PREe.SLOT [11:0] RWF. Source slot, float32 output value -/
abbrev ISL_PRE_SLOT (e : Nat) : Fld := ⟨0x422000c0 + 0x4 * e, 11, 0⟩
/-- ISL.CTRL.AUTO [8:8] RW. 1: a detection with ACTION FORM transfers automatically -/
abbrev ISL_CTRL_AUTO : Fld := ⟨0x42200100, 8, 8⟩
/-- ISL.CTRL.CMD [3:0] WO. 0x1 TO_GFM, 0x2 TO_GFL, 0x3 RESYNC, 0x4 PRESET_L2, 0x5 PRESET_L3, 0x6 CLEAR_DET; others ignored -/
abbrev ISL_CTRL_CMD : Fld := ⟨0x42200100, 3, 0⟩
/-- ISL.MODE.XFERS [31:16] RO. Accepted transfers since firing; wraps -/
abbrev ISL_MODE_XFERS : Fld := ⟨0x42200104, 31, 16⟩
/-- ISL.MODE.SYNC_OK [12:12] RO. Resynchronisation conditions met (R142) -/
abbrev ISL_MODE_SYNC_OK : Fld := ⟨0x42200104, 12, 12⟩
/-- ISL.MODE.ACT_SUSP [11:11] RO. Active detection suspended for PTP validity -/
abbrev ISL_MODE_ACT_SUSP : Fld := ⟨0x42200104, 11, 11⟩
/-- ISL.MODE.RETUNE_BUSY [10:10] RO. Notch retune in progress -/
abbrev ISL_MODE_RETUNE_BUSY : Fld := ⟨0x42200104, 10, 10⟩
/-- ISL.MODE.DET [9:9] RO. Islanding detected, latched -/
abbrev ISL_MODE_DET : Fld := ⟨0x42200104, 9, 9⟩
/-- ISL.MODE.DET_SRC [8:6] RO. 0 none, 1 ROCOF, 2 PJUMP, 3 HARM, 4 ZSTEP, 5 ACTIVE, 6 MANAGER -/
abbrev ISL_MODE_DET_SRC : Fld := ⟨0x42200104, 8, 6⟩
/-- ISL.MODE.STATE [1:0] RO. 0 GFL, 1 GFM_RAMP, 2 GFM, 3 RESYNC -/
abbrev ISL_MODE_STATE : Fld := ⟨0x42200104, 1, 0⟩
/-- ISL.STATUS.EST_INVALID [7:7] W1C. An estimate failed R135 -/
abbrev ISL_STATUS_EST_INVALID : Fld := ⟨0x42200108, 7, 7⟩
/-- ISL.STATUS.RETUNED [6:6] W1C. A retune completed -/
abbrev ISL_STATUS_RETUNED : Fld := ⟨0x42200108, 6, 6⟩
/-- ISL.STATUS.CMD_REFUSED [5:5] W1C. A command was refused without a stop -/
abbrev ISL_STATUS_CMD_REFUSED : Fld := ⟨0x42200108, 5, 5⟩
/-- ISL.STATUS.XFER_REFUSED [4:4] W1C. A transfer exceeded its bounds -/
abbrev ISL_STATUS_XFER_REFUSED : Fld := ⟨0x42200108, 4, 4⟩
/-- ISL.STATUS.XFER_DONE [3:3] W1C. A transfer was accepted -/
abbrev ISL_STATUS_XFER_DONE : Fld := ⟨0x42200108, 3, 3⟩
/-- ISL.STATUS.RESPONSE [2:2] W1C. A pulse response was counted -/
abbrev ISL_STATUS_RESPONSE : Fld := ⟨0x42200108, 2, 2⟩
/-- ISL.STATUS.ALERT [1:1] W1C. A method with ALERT fired -/
abbrev ISL_STATUS_ALERT : Fld := ⟨0x42200108, 1, 1⟩
/-- ISL.STATUS.DETECTED [0:0] W1C. Islanding was declared -/
abbrev ISL_STATUS_DETECTED : Fld := ⟨0x42200108, 0, 0⟩
/-- ISL.INT_EN.EN [7:0] RW. Per-bit enable of ISL.STATUS[7:0] to the HOST interrupt controller -/
abbrev ISL_INT_EN_EN : Fld := ⟨0x4220010c, 7, 0⟩
/-- ISL.REFUSED.COUNT [15:0] RC. Refused commands, transfers and clears; saturates at 0xFFFF -/
abbrev ISL_REFUSED_COUNT : Fld := ⟨0x42200110, 15, 0⟩
/-- RGS.SUPV_CAUSE.VALID [31:31] RO. 1 once a supervision stop has been recorded (R148) -/
abbrev RGS_SUPV_CAUSE_VALID : Fld := ⟨0x41c00028, 31, 31⟩
/-- RGS.SUPV_CAUSE.CAUSE [30:28] RO. 1 MISSED_DEADLINE, 2 PLAUSIBILITY, 3 STEP_LIMIT, 4 link loss; others reserved -/
abbrev RGS_SUPV_CAUSE_CAUSE : Fld := ⟨0x41c00028, 30, 28⟩
/-- RGS.SUPV_CAUSE.WHEEL [21:16] RO. Logical Wheel for PLAUSIBILITY; 0 otherwise -/
abbrev RGS_SUPV_CAUSE_WHEEL : Fld := ⟨0x41c00028, 21, 16⟩
/-- RGS.SUPV_CAUSE.RG [10:8] RO. Rate group; 0 for link loss -/
abbrev RGS_SUPV_CAUSE_RG : Fld := ⟨0x41c00028, 10, 8⟩
/-- RGS.SUPV_CAUSE.INDEX [1:0] RO. Residual channel for PLAUSIBILITY; guard for STEP_LIMIT -/
abbrev RGS_SUPV_CAUSE_INDEX : Fld := ⟨0x41c00028, 1, 0⟩
/-- RGS.SUSPECT.NEW [31:31] W1C. A flag arrived since the last clear -/
abbrev RGS_SUSPECT_NEW : Fld := ⟨0x41c0002c, 31, 31⟩
/-- RGS.SUSPECT.AIN [21:16] RO. Input of the last flagged sensor -/
abbrev RGS_SUSPECT_AIN : Fld := ⟨0x41c0002c, 21, 16⟩
/-- RGS.SUSPECT.ADC [15:12] RO. Logical core of the last flagged sensor -/
abbrev RGS_SUSPECT_ADC : Fld := ⟨0x41c0002c, 15, 12⟩
/-- RGS.SUSPECT.WHEEL [7:2] RO. Flagging Wheel -/
abbrev RGS_SUSPECT_WHEEL : Fld := ⟨0x41c0002c, 7, 2⟩
/-- RGS.SUSPECT.CHAN [1:0] RO. Flagging residual channel -/
abbrev RGS_SUSPECT_CHAN : Fld := ⟨0x41c0002c, 1, 0⟩
/-- RGS.SUSPECT_COUNT.COUNT [15:0] RC. Sensor flags raised (R151); saturates at 0xFFFF -/
abbrev RGS_SUSPECT_COUNT_COUNT : Fld := ⟨0x41c00030, 15, 0⟩
/-- RGS.SUPV_INT.SUPV_STOP [2:2] W1C. SUPV_CAUSE became valid -/
abbrev RGS_SUPV_INT_SUPV_STOP : Fld := ⟨0x41c00034, 2, 2⟩
/-- RGS.SUPV_INT.SUSPECT [1:1] W1C. A sensor was flagged -/
abbrev RGS_SUPV_INT_SUSPECT : Fld := ⟨0x41c00034, 1, 1⟩
/-- RGS.SUPV_INT.CLIP [0:0] W1C. A step guard clipped -/
abbrev RGS_SUPV_INT_CLIP : Fld := ⟨0x41c00034, 0, 0⟩
/-- RGS.SUPV_INT_EN.EN [2:0] RW. Per-bit enable of RGS.SUPV_INT to the HOST interrupt controller -/
abbrev RGS_SUPV_INT_EN_EN : Fld := ⟨0x41c00038, 2, 0⟩
/-- RGS.RGk.CLIPS.COUNT [31:0] RO. Clipped samples of all guards of the group since the last firing; saturates at 0xFFFF_FFFF -/
abbrev RGS_RG_CLIPS_COUNT (k : Nat) : Fld := ⟨0x41c00124 + 0x40 * k, 31, 0⟩
/-- RGS.GRDk_g.CFG.STOP_N [31:24] RWF. Consecutive clipped samples that raise STEP_LIMIT; 0 never (R155) -/
abbrev RGS_GRD_CFG_STOP_N (k : Nat) (g : Nat) : Fld := ⟨0x41c30000 + 0x40 * k + 0x8 * g, 31, 24⟩
/-- RGS.GRDk_g.CFG.MODE [17:16] RWF. 0b00 off, 0b01 CLIP, 0b10 CLIP_RISE, 0b11 COUNT (R154) -/
abbrev RGS_GRD_CFG_MODE (k : Nat) (g : Nat) : Fld := ⟨0x41c30000 + 0x40 * k + 0x8 * g, 17, 16⟩
/-- RGS.GRDk_g.CFG.SLOT [11:0] RWF. Guarded slot, owned by group k -/
abbrev RGS_GRD_CFG_SLOT (k : Nat) (g : Nat) : Fld := ⟨0x41c30000 + 0x40 * k + 0x8 * g, 11, 0⟩
/-- RGS.GRDk_g.STEP.STEP [31:0] RWF. float32 step limit per sample, in the slot's unit; finite and positive when MODE is not off (R156) -/
abbrev RGS_GRD_STEP_STEP (k : Nat) (g : Nat) : Fld := ⟨0x41c30004 + 0x40 * k + 0x8 * g, 31, 0⟩
/-- DCI.CFG.LINK_SLOT [31:20] RWF. DC-link voltage slot, float32 V -/
abbrev DCI_CFG_LINK_SLOT : Fld := ⟨0x42300000, 31, 20⟩
/-- DCI.CFG.TRIG_RG [19:17] RWF. Rate group that triggers updates -/
abbrev DCI_CFG_TRIG_RG : Fld := ⟨0x42300000, 19, 17⟩
/-- DCI.CFG.DIV [16:9] RWF. Update at every (DIV + 1)th sample start -/
abbrev DCI_CFG_DIV : Fld := ⟨0x42300000, 16, 9⟩
/-- DCI.CFG.COMP_LEG [8:6] RWF. BATT leg receiving PCOMP; 7 none -/
abbrev DCI_CFG_COMP_LEG : Fld := ⟨0x42300000, 8, 6⟩
/-- DCI.CFG.NAVG [5:2] RWF. Updates per averaging block, 1–15 -/
abbrev DCI_CFG_NAVG : Fld := ⟨0x42300000, 5, 2⟩
/-- DCI.CFG.EN [0:0] RWF. DCI in use -/
abbrev DCI_CFG_EN : Fld := ⟨0x42300000, 0, 0⟩
/-- DCI.OUTSLOT.BASE [11:0] RWF. First of the 50 output slots (R160) -/
abbrev DCI_OUTSLOT_BASE : Fld := ⟨0x42300004, 11, 0⟩
/-- DCI.LEGl.CFG.WIN_STOP [27:27] RWF. 1: OUT_WIN raises DC_LIMIT (R168) -/
abbrev DCI_LEG_CFG_WIN_STOP (l : Nat) : Fld := ⟨0x42300010 + 0x20 * l, 27, 27⟩
/-- DCI.LEGl.CFG.MODE [26:25] RWF. 0b00 OFF, 0b01 PV, 0b10 BATT, 0b11 reserved -/
abbrev DCI_LEG_CFG_MODE (l : Nat) : Fld := ⟨0x42300010 + 0x20 * l, 26, 25⟩
/-- DCI.LEGl.CFG.ISLOT [23:12] RWF. Current slot, float32 A -/
abbrev DCI_LEG_CFG_ISLOT (l : Nat) : Fld := ⟨0x42300010 + 0x20 * l, 23, 12⟩
/-- DCI.LEGl.CFG.VSLOT [11:0] RWF. Voltage slot, float32 V -/
abbrev DCI_LEG_CFG_VSLOT (l : Nat) : Fld := ⟨0x42300010 + 0x20 * l, 11, 0⟩
/-- DCI.LEGl.PARp.VALUE [31:0] RWF. float32: p = 0 VLO (PV) or VMIN (BATT), V; 1 VHI or VMAX, V; 2 ICH_MAX, A; 3 IDIS_MAX, A; 4 TAPER, V -/
abbrev DCI_LEG_PAR_VALUE (l : Nat) (p : Nat) : Fld := ⟨0x42300014 + 0x20 * l + 0x4 * p, 31, 0⟩
/-- DCI.LEGl.STATUS.SEQ [7:4] RO. Completed sweeps, wrapping (R164) -/
abbrev DCI_LEG_STATUS_SEQ (l : Nat) : Fld := ⟨0x42300400 + 0x10 * l, 7, 4⟩
/-- DCI.LEGl.STATUS.OUT_WIN [3:3] RO. Battery outside its window (R168) -/
abbrev DCI_LEG_STATUS_OUT_WIN (l : Nat) : Fld := ⟨0x42300400 + 0x10 * l, 3, 3⟩
/-- DCI.LEGl.STATUS.PENDING [2:2] RO. A sweep request is pending -/
abbrev DCI_LEG_STATUS_PENDING (l : Nat) : Fld := ⟨0x42300400 + 0x10 * l, 2, 2⟩
/-- DCI.LEGl.STATUS.SWEEP [1:1] RO. The engine holds the reference -/
abbrev DCI_LEG_STATUS_SWEEP (l : Nat) : Fld := ⟨0x42300400 + 0x10 * l, 1, 1⟩
/-- DCI.LEGl.STATUS.DVALID [0:0] RO. The last dP/dV is valid (R159) -/
abbrev DCI_LEG_STATUS_DVALID (l : Nat) : Fld := ⟨0x42300400 + 0x10 * l, 0, 0⟩
/-- DCI.LEGl.RESULT.ABORTED [31:31] RO. Last sweep aborted (R165) -/
abbrev DCI_LEG_RESULT_ABORTED (l : Nat) : Fld := ⟨0x42300404 + 0x10 * l, 31, 31⟩
/-- DCI.LEGl.RESULT.VALID [24:16] RO. Points recorded, 0–256 -/
abbrev DCI_LEG_RESULT_VALID (l : Nat) : Fld := ⟨0x42300404 + 0x10 * l, 24, 16⟩
/-- DCI.LEGl.RESULT.NPEAKS [15:8] RO. Local maxima found -/
abbrev DCI_LEG_RESULT_NPEAKS (l : Nat) : Fld := ⟨0x42300404 + 0x10 * l, 15, 8⟩
/-- DCI.LEGl.RESULT.KMAX [7:0] RO. Index of the global peak -/
abbrev DCI_LEG_RESULT_KMAX (l : Nat) : Fld := ⟨0x42300404 + 0x10 * l, 7, 0⟩
/-- DCI.SWP_CFG.DWELL [31:24] RWF. Updates per point, 2–255 -/
abbrev DCI_SWP_CFG_DWELL : Fld := ⟨0x42300100, 31, 24⟩
/-- DCI.SWP_CFG.TW [23:16] RWF. Window in steps of 100 ms, 1–100 -/
abbrev DCI_SWP_CFG_TW : Fld := ⟨0x42300100, 23, 16⟩
/-- DCI.SWP_CFG.NSLOT [15:11] RWF. Windows per rotation less one, 0–31 -/
abbrev DCI_SWP_CFG_NSLOT : Fld := ⟨0x42300100, 15, 11⟩
/-- DCI.SWP_CFG.SLOT_AUTO [10:10] RWF. MYSLOT from WORKER_NO -/
abbrev DCI_SWP_CFG_SLOT_AUTO : Fld := ⟨0x42300100, 10, 10⟩
/-- DCI.SWP_CFG.MYSLOT [9:5] RWF. This block's window -/
abbrev DCI_SWP_CFG_MYSLOT : Fld := ⟨0x42300100, 9, 5⟩
/-- DCI.SWP_CFG.PEAK_HYST [4:0] RWF. Percent, 0–31 -/
abbrev DCI_SWP_CFG_PEAK_HYST : Fld := ⟨0x42300100, 4, 0⟩
/-- DCI.SWP_PARp.VALUE [31:0] RWF. float32: p = 0 SLEW, V/ms; 1 VDC_DEV, V; 2 DV_MIN, V; 3 DROP, percent, 0 off; 4 SWP_PERIOD, s, 0 off -/
abbrev DCI_SWP_PAR_VALUE (p : Nat) : Fld := ⟨0x42300104 + 0x4 * p, 31, 0⟩
/-- DCI.CTRL.ABORT [8:8] WO. Write 1 to abort the running sweep -/
abbrev DCI_CTRL_ABORT : Fld := ⟨0x42300120, 8, 8⟩
/-- DCI.CTRL.SWEEP [5:0] WO. Write 1 to request a sweep of leg l (bit l) -/
abbrev DCI_CTRL_SWEEP : Fld := ⟨0x42300120, 5, 0⟩
/-- DCI.SWP_STATUS.ABORTS [31:16] RO. Aborted sweeps since firing; saturates at 0xFFFF -/
abbrev DCI_SWP_STATUS_ABORTS : Fld := ⟨0x42300124, 31, 16⟩
/-- DCI.SWP_STATUS.POINT [15:8] RO. Point being visited -/
abbrev DCI_SWP_STATUS_POINT : Fld := ⟨0x42300124, 15, 8⟩
/-- DCI.SWP_STATUS.LEG [7:5] RO. Leg being swept -/
abbrev DCI_SWP_STATUS_LEG : Fld := ⟨0x42300124, 7, 5⟩
/-- DCI.SWP_STATUS.BUSY [4:4] RO. A sweep or return runs -/
abbrev DCI_SWP_STATUS_BUSY : Fld := ⟨0x42300124, 4, 4⟩
/-- DCI.INT.LINK_DEV [2:2] W1C. A sweep aborted on link deviation -/
abbrev DCI_INT_LINK_DEV : Fld := ⟨0x42300128, 2, 2⟩
/-- DCI.INT.ABORTED [1:1] W1C. A sweep aborted -/
abbrev DCI_INT_ABORTED : Fld := ⟨0x42300128, 1, 1⟩
/-- DCI.INT.SWEEP_DONE [0:0] W1C. A sweep completed -/
abbrev DCI_INT_SWEEP_DONE : Fld := ⟨0x42300128, 0, 0⟩
/-- DCI.INT_EN.EN [2:0] RW. Per-bit enable of DCI.INT to the HOST interrupt controller -/
abbrev DCI_INT_EN_EN : Fld := ⟨0x4230012c, 2, 0⟩
/-- DCI.REFUSED.COUNT [15:0] RC. Requests for legs not in PV mode; saturates at 0xFFFF -/
abbrev DCI_REFUSED_COUNT : Fld := ⟨0x42300130, 15, 0⟩
/-- DCI.CURVEl_k.I [63:32] RO. float32 mean current of point k (0–255), A -/
abbrev DCI_CURVE_I (l : Nat) (k : Nat) : Fld := ⟨0x42301000 + 0x800 * l + 0x8 * k, 63, 32⟩
/-- DCI.CURVEl_k.V [31:0] RO. float32 mean voltage of point k, V; point 0 at VLO -/
abbrev DCI_CURVE_V (l : Nat) (k : Nat) : Fld := ⟨0x42301000 + 0x800 * l + 0x8 * k, 31, 0⟩
/-- MODn.CTRL.ALIGN [8:8] RW. 1: align to the epoch (R173) -/
abbrev MOD_CTRL_ALIGN (n : Nat) : Fld := ⟨0x43000000 + 0x100 * n, 8, 8⟩
/-- MODn.CTRL.EN [0:0] RW. 1: outputs follow the compare; 0: both off. Set to 1 at firing for routed pairs -/
abbrev MOD_CTRL_EN (n : Nat) : Fld := ⟨0x43000000 + 0x100 * n, 0, 0⟩
/-- MODn.ROUTE.USED [8:8] RWF. 1: pair routed -/
abbrev MOD_ROUTE_USED (n : Nat) : Fld := ⟨0x43000004 + 0x100 * n, 8, 8⟩
/-- MODn.ROUTE.TILE [3:0] RWF. Setter tile SET0–SET8 (R30) -/
abbrev MOD_ROUTE_TILE (n : Nat) : Fld := ⟨0x43000004 + 0x100 * n, 3, 0⟩
/-- MODn.DEADTIME.DT [11:0] RWF. Dead time in units of 16 edge steps, 0–4,095 -/
abbrev MOD_DEADTIME_DT (n : Nat) : Fld := ⟨0x43000008 + 0x100 * n, 11, 0⟩
/-- MODn.MINPULSE.MODE_B [27:27] RWF. 0 drop, 1 stretch -/
abbrev MOD_MINPULSE_MODE_B (n : Nat) : Fld := ⟨0x4300000c + 0x100 * n, 27, 27⟩
/-- MODn.MINPULSE.MP_B [26:16] RWF. In units of 16 edge steps, 0–1,600 -/
abbrev MOD_MINPULSE_MP_B (n : Nat) : Fld := ⟨0x4300000c + 0x100 * n, 26, 16⟩
/-- MODn.MINPULSE.MODE_A [11:11] RWF. 0 drop, 1 stretch -/
abbrev MOD_MINPULSE_MODE_A (n : Nat) : Fld := ⟨0x4300000c + 0x100 * n, 11, 11⟩
/-- MODn.MINPULSE.MP_A [10:0] RWF. In units of 16 edge steps, 0–1,600 -/
abbrev MOD_MINPULSE_MP_A (n : Nat) : Fld := ⟨0x4300000c + 0x100 * n, 10, 0⟩
/-- MODn.PERIOD.PERIOD [31:0] RW. Period in edge steps, PMIN to 256,000,000 (R172) -/
abbrev MOD_PERIOD_PERIOD (n : Nat) : Fld := ⟨0x43000010 + 0x100 * n, 31, 0⟩
/-- MODn.PHASE.PHASE [31:0] RW. Period start after each epoch, in edge steps; taken modulo PERIOD -/
abbrev MOD_PHASE_PHASE (n : Nat) : Fld := ⟨0x43000014 + 0x100 * n, 31, 0⟩
/-- MODn.FMAX.PMIN [31:0] RWF. Shortest period in edge steps, 51,200–256,000,000 -/
abbrev MOD_FMAX_PMIN (n : Nat) : Fld := ⟨0x43000018 + 0x100 * n, 31, 0⟩
/-- MODn.REFRESH.BOOT [31:31] RWF. 1: channel A in bootstrap mode -/
abbrev MOD_REFRESH_BOOT (n : Nat) : Fld := ⟨0x4300001c + 0x100 * n, 31, 31⟩
/-- MODn.REFRESH.N [21:16] RWF. Window less one, 0–63 -/
abbrev MOD_REFRESH_N (n : Nat) : Fld := ⟨0x4300001c + 0x100 * n, 21, 16⟩
/-- MODn.REFRESH.TR [11:0] RWF. T_R in units of 16 edge steps, 40–3,200 -/
abbrev MOD_REFRESH_TR (n : Nat) : Fld := ⟨0x4300001c + 0x100 * n, 11, 0⟩
/-- MODn.LOADPT.OVR_EN [31:31] RWF. 1: overrides other than FORCE = OFF accepted -/
abbrev MOD_LOADPT_OVR_EN (n : Nat) : Fld := ⟨0x43000020 + 0x100 * n, 31, 31⟩
/-- MODn.LOADPT.CMP_SLOT [27:16] RWF. Compare slot -/
abbrev MOD_LOADPT_CMP_SLOT (n : Nat) : Fld := ⟨0x43000020 + 0x100 * n, 27, 16⟩
/-- MODn.LOADPT.UPD [8:8] RWF. 0 per period, 1 mid-period (R177) -/
abbrev MOD_LOADPT_UPD (n : Nat) : Fld := ⟨0x43000020 + 0x100 * n, 8, 8⟩
/-- MODn.LOADPT.NLP [3:0] RWF. Load points per period less one -/
abbrev MOD_LOADPT_NLP (n : Nat) : Fld := ⟨0x43000020 + 0x100 * n, 3, 0⟩
/-- MODn.OVR.INV_B [6:6] RW. Invert output B -/
abbrev MOD_OVR_INV_B (n : Nat) : Fld := ⟨0x43000024 + 0x100 * n, 6, 6⟩
/-- MODn.OVR.INV_A [5:5] RW. Invert output A -/
abbrev MOD_OVR_INV_A (n : Nat) : Fld := ⟨0x43000024 + 0x100 * n, 5, 5⟩
/-- MODn.OVR.SWAP [4:4] RW. Exchange outputs -/
abbrev MOD_OVR_SWAP (n : Nat) : Fld := ⟨0x43000024 + 0x100 * n, 4, 4⟩
/-- MODn.OVR.FORCE [1:0] RW. 0b00 none, 0b01 OFF, 0b10 A_ON, 0b11 B_ON (R183) -/
abbrev MOD_OVR_FORCE (n : Nat) : Fld := ⟨0x43000024 + 0x100 * n, 1, 0⟩
/-- MODn.STATUS.FORCED [5:5] RO. A force or EN = 0 is in effect -/
abbrev MOD_STATUS_FORCED (n : Nat) : Fld := ⟨0x43000028 + 0x100 * n, 5, 5⟩
/-- MODn.STATUS.REFRESH [4:4] RO. Current period is a refresh period -/
abbrev MOD_STATUS_REFRESH (n : Nat) : Fld := ⟨0x43000028 + 0x100 * n, 4, 4⟩
/-- MODn.STATUS.GATED [3:3] RO. Stage 6 holds the outputs off -/
abbrev MOD_STATUS_GATED (n : Nat) : Fld := ⟨0x43000028 + 0x100 * n, 3, 3⟩
/-- MODn.STATUS.UNALIGNABLE [2:2] RO. ALIGN = 1 and PERIOD does not divide EPOCH -/
abbrev MOD_STATUS_UNALIGNABLE (n : Nat) : Fld := ⟨0x43000028 + 0x100 * n, 2, 2⟩
/-- MODn.STATUS.ALIGNED [1:1] RO. Deviation 0 at the last epoch -/
abbrev MOD_STATUS_ALIGNED (n : Nat) : Fld := ⟨0x43000028 + 0x100 * n, 1, 1⟩
/-- MODn.STATUS.RUN [0:0] RO. Counter running -/
abbrev MOD_STATUS_RUN (n : Nat) : Fld := ⟨0x43000028 + 0x100 * n, 0, 0⟩
/-- MODn.CMP_NOW.CMP [31:0] RO. Compare in force -/
abbrev MOD_CMP_NOW_CMP (n : Nat) : Fld := ⟨0x4300002c + 0x100 * n, 31, 0⟩
/-- MODn.CNT.CNT [31:0] RO. Counter when the read arrives -/
abbrev MOD_CNT_CNT (n : Nat) : Fld := ⟨0x43000030 + 0x100 * n, 31, 0⟩
/-- MODn.DEV.D [31:0] RO. Signed deviation d at the last epoch (R173) -/
abbrev MOD_DEV_D (n : Nat) : Fld := ⟨0x43000034 + 0x100 * n, 31, 0⟩
/-- MODn.DROPS.COUNT [15:0] RC. Dropped pulses; saturates at 0xFFFF -/
abbrev MOD_DROPS_COUNT (n : Nat) : Fld := ⟨0x43000038 + 0x100 * n, 15, 0⟩
/-- MODn.STRETCHES.COUNT [15:0] RC. Stretched pulses; saturates at 0xFFFF -/
abbrev MOD_STRETCHES_COUNT (n : Nat) : Fld := ⟨0x4300003c + 0x100 * n, 15, 0⟩
/-- MODn.REFRESHES.COUNT [15:0] RC. Refresh periods; saturates at 0xFFFF -/
abbrev MOD_REFRESHES_COUNT (n : Nat) : Fld := ⟨0x43000040 + 0x100 * n, 15, 0⟩
/-- MODn.REFUSED.COUNT [15:0] RC. Ignored PERIOD and OVR writes; saturates at 0xFFFF -/
abbrev MOD_REFUSED_COUNT (n : Nat) : Fld := ⟨0x43000044 + 0x100 * n, 15, 0⟩
/-- MOD.EPOCH.EPOCH [31:0] RWF. Epoch in edge steps; equal in every block of a plant -/
abbrev MOD_EPOCH_EPOCH : Fld := ⟨0x43001000, 31, 0⟩
/-- MOD.SLEW.SLEW [11:0] RWF. Edge steps of correction per period; 0 whole -/
abbrev MOD_SLEW_SLEW : Fld := ⟨0x43001004, 11, 0⟩
/-- MOD.HOP_CFG.HOP_PAIRS [24:16] RWF. Pairs whose harmonics are checked -/
abbrev MOD_HOP_CFG_HOP_PAIRS : Fld := ⟨0x43001010, 24, 16⟩
/-- MOD.HOP_CFG.HMAX [15:8] RWF. Highest harmonic order, 1–255 -/
abbrev MOD_HOP_CFG_HMAX : Fld := ⟨0x43001010, 15, 8⟩
/-- MOD.HOP_CFG.MODE [5:4] RWF. 0 off, 1 local, 2 plant, 3 reserved (R186) -/
abbrev MOD_HOP_CFG_MODE : Fld := ⟨0x43001010, 5, 4⟩
/-- MOD.HOP_CFG.HOP_MAX [2:0] RWF. Largest step, 0–4 -/
abbrev MOD_HOP_CFG_HOP_MAX : Fld := ⟨0x43001010, 2, 0⟩
/-- MOD.HOP_STATUS.HOPS [31:16] RO. Step changes since reset; wraps -/
abbrev MOD_HOP_STATUS_HOPS : Fld := ⟨0x43001014, 31, 16⟩
/-- MOD.HOP_STATUS.NO_CLEAR [8:8] RO. No eligible step is clear -/
abbrev MOD_HOP_STATUS_NO_CLEAR : Fld := ⟨0x43001014, 8, 8⟩
/-- MOD.HOP_STATUS.PENDING [4:4] RO. A chosen step awaits its epoch -/
abbrev MOD_HOP_STATUS_PENDING : Fld := ⟨0x43001014, 4, 4⟩
/-- MOD.HOP_STATUS.STEP [3:0] RO. Step in force, two's complement, −4 to +4 -/
abbrev MOD_HOP_STATUS_STEP : Fld := ⟨0x43001014, 3, 0⟩
/-- MOD.HOP_CTRL.EVAL [0:0] WO. Write 1 to evaluate (R185) -/
abbrev MOD_HOP_CTRL_EVAL : Fld := ⟨0x43001018, 0, 0⟩
/-- MOD.QBk.LO.LO [31:0] RW. float32, lower edge of band k (k = 0–7) in Hz; kept across firing -/
abbrev MOD_QB_LO_LO (k : Nat) : Fld := ⟨0x43001020 + 0x8 * k, 31, 0⟩
/-- MOD.QBk.HI.HI [31:0] RW. float32, upper edge in Hz; the band is enabled when LO < HI -/
abbrev MOD_QB_HI_HI (k : Nat) : Fld := ⟨0x43001024 + 0x8 * k, 31, 0⟩
/-- MOD.INT.NO_CLEAR [3:3] W1C. An evaluation found no clear step -/
abbrev MOD_INT_NO_CLEAR : Fld := ⟨0x43001060, 3, 3⟩
/-- MOD.INT.HOP_DONE [2:2] W1C. The step changed -/
abbrev MOD_INT_HOP_DONE : Fld := ⟨0x43001060, 2, 2⟩
/-- MOD.INT.ALIGN_LOST [1:1] W1C. An aligned pair found d ≠ 0 -/
abbrev MOD_INT_ALIGN_LOST : Fld := ⟨0x43001060, 1, 1⟩
/-- MOD.INT.REFUSED [0:0] W1C. A write was refused -/
abbrev MOD_INT_REFUSED : Fld := ⟨0x43001060, 0, 0⟩
/-- MOD.INT_EN.EN [3:0] RW. Per-bit enable of MOD.INT to the HOST interrupt controller -/
abbrev MOD_INT_EN_EN : Fld := ⟨0x43001064, 3, 0⟩
/-- SETn.CTRL.DIAG_ABORT [5:5] W1S. Stop running diagnostics (R202) -/
abbrev SET_CTRL_DIAG_ABORT (n : Nat) : Fld := ⟨0x44000000 + 0x1000 * n, 5, 5⟩
/-- SETn.CTRL.DIAG [4:4] W1S. Start diagnostics; reads 1 while running -/
abbrev SET_CTRL_DIAG (n : Nat) : Fld := ⟨0x44000000 + 0x1000 * n, 4, 4⟩
/-- SETn.CTRL.DISARM [1:1] W1S. Disarm (R193) -/
abbrev SET_CTRL_DISARM (n : Nat) : Fld := ⟨0x44000000 + 0x1000 * n, 1, 1⟩
/-- SETn.CTRL.ARM [0:0] W1S. Arm (R193) -/
abbrev SET_CTRL_ARM (n : Nat) : Fld := ⟨0x44000000 + 0x1000 * n, 0, 0⟩
/-- SETn.STATUS.OT [5:5] RO. Tile at or above 150 °C, until below 135 °C -/
abbrev SET_STATUS_OT (n : Nat) : Fld := ⟨0x44000004 + 0x1000 * n, 5, 5⟩
/-- SETn.STATUS.SUP_OK [4:4] RO. Both channels' supplies regulated -/
abbrev SET_STATUS_SUP_OK (n : Nat) : Fld := ⟨0x44000004 + 0x1000 * n, 4, 4⟩
/-- SETn.STATUS.DIAG_BUSY [3:3] RO. Diagnostics running -/
abbrev SET_STATUS_DIAG_BUSY (n : Nat) : Fld := ⟨0x44000004 + 0x1000 * n, 3, 3⟩
/-- SETn.STATUS.BOOT [2:2] RO. Channel A in bootstrap mode -/
abbrev SET_STATUS_BOOT (n : Nat) : Fld := ⟨0x44000004 + 0x1000 * n, 2, 2⟩
/-- SETn.STATUS.USED [1:1] RO. Tile used by the Glaze in force -/
abbrev SET_STATUS_USED (n : Nat) : Fld := ⟨0x44000004 + 0x1000 * n, 1, 1⟩
/-- SETn.STATUS.ARMED [0:0] RO. Tile armed -/
abbrev SET_STATUS_ARMED (n : Nat) : Fld := ⟨0x44000004 + 0x1000 * n, 0, 0⟩
/-- SETn.RAILS.VNEG_B [25:21] RWF. Channel B negative rail: −0.5 V × code, 0–20 -/
abbrev SET_RAILS_VNEG_B (n : Nat) : Fld := ⟨0x44000008 + 0x1000 * n, 25, 21⟩
/-- SETn.RAILS.VPOS_B [20:16] RWF. Channel B positive rail: 12 V + 0.5 V × code, 0–26 -/
abbrev SET_RAILS_VPOS_B (n : Nat) : Fld := ⟨0x44000008 + 0x1000 * n, 20, 16⟩
/-- SETn.RAILS.VNEG_A [9:5] RWF. As VNEG_B; taken as 0 in bootstrap mode -/
abbrev SET_RAILS_VNEG_A (n : Nat) : Fld := ⟨0x44000008 + 0x1000 * n, 9, 5⟩
/-- SETn.RAILS.VPOS_A [4:0] RWF. As VPOS_B; unused in bootstrap mode -/
abbrev SET_RAILS_VPOS_A (n : Nat) : Fld := ⟨0x44000008 + 0x1000 * n, 4, 0⟩
/-- SETn.DESAT.BLANK_B [29:23] RWF. Blanking in steps of 25 ns, 4–80 -/
abbrev SET_DESAT_BLANK_B (n : Nat) : Fld := ⟨0x4400000c + 0x1000 * n, 29, 23⟩
/-- SETn.DESAT.THR_B [22:16] RWF. Threshold in steps of 0.1 V, 30–120; 0 disables sensing -/
abbrev SET_DESAT_THR_B (n : Nat) : Fld := ⟨0x4400000c + 0x1000 * n, 22, 16⟩
/-- SETn.DESAT.BLANK_A [13:7] RWF. As BLANK_B -/
abbrev SET_DESAT_BLANK_A (n : Nat) : Fld := ⟨0x4400000c + 0x1000 * n, 13, 7⟩
/-- SETn.DESAT.THR_A [6:0] RWF. As THR_B -/
abbrev SET_DESAT_THR_A (n : Nat) : Fld := ⟨0x4400000c + 0x1000 * n, 6, 0⟩
/-- SETn.SOFTOFF.TRIP_SOFT [24:24] RWF. 1: cycle-trip turn-offs use soft turn-off -/
abbrev SET_SOFTOFF_TRIP_SOFT (n : Nat) : Fld := ⟨0x44000010 + 0x1000 * n, 24, 24⟩
/-- SETn.SOFTOFF.ISOFT [18:16] RWF. Step 2 sink in steps of 0.25 A, 1–8 -/
abbrev SET_SOFTOFF_ISOFT (n : Nat) : Fld := ⟨0x44000010 + 0x1000 * n, 18, 16⟩
/-- SETn.SOFTOFF.TSTO [12:8] RWF. Step 1 hold in steps of 100 ns, 2–20 -/
abbrev SET_SOFTOFF_TSTO (n : Nat) : Fld := ⟨0x44000010 + 0x1000 * n, 12, 8⟩
/-- SETn.SOFTOFF.VSTO [4:0] RWF. Plateau in steps of 0.5 V above _COM, 12–24 -/
abbrev SET_SOFTOFF_VSTO (n : Nat) : Fld := ⟨0x44000010 + 0x1000 * n, 4, 0⟩
/-- SETn.BOOT_UV.THR [7:0] RWF. Channel A bootstrap threshold in steps of 0.1 V, 80–200 (R195) -/
abbrev SET_BOOT_UV_THR (n : Nat) : Fld := ⟨0x44000014 + 0x1000 * n, 7, 0⟩
/-- SETn.GATE_DECL.GS_RES_B [30:24] RWF. Declared gate–source resistance in kΩ, 1–100; 0 none -/
abbrev SET_GATE_DECL_GS_RES_B (n : Nat) : Fld := ⟨0x44000018 + 0x1000 * n, 30, 24⟩
/-- SETn.GATE_DECL.CG_B [23:16] RWF. Declared gate capacitance in nF, 1–255 -/
abbrev SET_GATE_DECL_CG_B (n : Nat) : Fld := ⟨0x44000018 + 0x1000 * n, 23, 16⟩
/-- SETn.GATE_DECL.GS_RES_A [14:8] RWF. As GS_RES_B -/
abbrev SET_GATE_DECL_GS_RES_A (n : Nat) : Fld := ⟨0x44000018 + 0x1000 * n, 14, 8⟩
/-- SETn.GATE_DECL.CG_A [7:0] RWF. As CG_B -/
abbrev SET_GATE_DECL_CG_A (n : Nat) : Fld := ⟨0x44000018 + 0x1000 * n, 7, 0⟩
/-- SETn.CHc.STATUS.INTERLOCK [15:8] RO. Turn-ons held by the interlock since firing; saturates at 0xFF -/
abbrev SET_CH_STATUS_INTERLOCK (n : Nat) (c : Nat) : Fld := ⟨0x44000020 + 0x1000 * n + 0x10 * c, 15, 8⟩
/-- SETn.CHc.STATUS.SUP_OK [7:7] RO. This channel's supply regulated -/
abbrev SET_CH_STATUS_SUP_OK (n : Nat) (c : Nat) : Fld := ⟨0x44000020 + 0x1000 * n + 0x10 * c, 7, 7⟩
/-- SETn.CHc.STATUS.CLAMP [6:6] RO. Miller clamp engaged -/
abbrev SET_CH_STATUS_CLAMP (n : Nat) (c : Nat) : Fld := ⟨0x44000020 + 0x1000 * n + 0x10 * c, 6, 6⟩
/-- SETn.CHc.STATUS.ON [5:5] RO. Output on -/
abbrev SET_CH_STATUS_ON (n : Nat) (c : Nat) : Fld := ⟨0x44000020 + 0x1000 * n + 0x10 * c, 5, 5⟩
/-- SETn.CHc.STATUS.SOFTOFF_BUSY [4:4] RO. Soft turn-off in progress -/
abbrev SET_CH_STATUS_SOFTOFF_BUSY (n : Nat) (c : Nat) : Fld := ⟨0x44000020 + 0x1000 * n + 0x10 * c, 4, 4⟩
/-- SETn.CHc.STATUS.BOOT_STOP [3:3] W1C. BOOT_UV escalation latched; clear refused while below threshold + 0.5 V (channel A only) -/
abbrev SET_CH_STATUS_BOOT_STOP (n : Nat) (c : Nat) : Fld := ⟨0x44000020 + 0x1000 * n + 0x10 * c, 3, 3⟩
/-- SETn.CHc.STATUS.BOOT_UV [2:2] W1C. A BOOT_UV event occurred (channel A only) -/
abbrev SET_CH_STATUS_BOOT_UV (n : Nat) (c : Nat) : Fld := ⟨0x44000020 + 0x1000 * n + 0x10 * c, 2, 2⟩
/-- SETn.CHc.STATUS.SUPPLY_UV [1:1] W1C. Supply undervoltage; clear refused while still present -/
abbrev SET_CH_STATUS_SUPPLY_UV (n : Nat) (c : Nat) : Fld := ⟨0x44000020 + 0x1000 * n + 0x10 * c, 1, 1⟩
/-- SETn.CHc.STATUS.DESAT [0:0] W1C. Desaturation latched; clear refused per R199 -/
abbrev SET_CH_STATUS_DESAT (n : Nat) (c : Nat) : Fld := ⟨0x44000020 + 0x1000 * n + 0x10 * c, 0, 0⟩
/-- SETn.CHc.TRIM.TOFF [24:16] RW. Turn-off delay in edge steps, 0–511 -/
abbrev SET_CH_TRIM_TOFF (n : Nat) (c : Nat) : Fld := ⟨0x44000024 + 0x1000 * n + 0x10 * c, 24, 16⟩
/-- SETn.CHc.TRIM.TON [8:0] RW. Turn-on delay in edge steps, 0–511 -/
abbrev SET_CH_TRIM_TON (n : Nat) (c : Nat) : Fld := ⟨0x44000024 + 0x1000 * n + 0x10 * c, 8, 0⟩
/-- SETn.CHc.DELAY.VALID [31:31] RO. 256 edges of each kind measured since the last TRIM write -/
abbrev SET_CH_DELAY_VALID (n : Nat) (c : Nat) : Fld := ⟨0x44000028 + 0x1000 * n + 0x10 * c, 31, 31⟩
/-- SETn.CHc.DELAY.TOFF [27:16] RO. Measured turn-off propagation in edge steps -/
abbrev SET_CH_DELAY_TOFF (n : Nat) (c : Nat) : Fld := ⟨0x44000028 + 0x1000 * n + 0x10 * c, 27, 16⟩
/-- SETn.CHc.DELAY.TON [11:0] RO. Measured turn-on propagation in edge steps -/
abbrev SET_CH_DELAY_TON (n : Nat) (c : Nat) : Fld := ⟨0x44000028 + 0x1000 * n + 0x10 * c, 11, 0⟩
/-- SETn.DIAG_RESULT.STATE [31:30] RO. 0b00 never run, 0b01 running, 0b10 done, 0b11 aborted -/
abbrev SET_DIAG_RESULT_STATE (n : Nat) : Fld := ⟨0x44000040 + 0x1000 * n, 31, 30⟩
/-- SETn.DIAG_RESULT.NODE_B [13:12] RO. 0 not run, 1 BLOCKING, 2 ZERO, 3 INDETERMINATE (R204) -/
abbrev SET_DIAG_RESULT_NODE_B (n : Nat) : Fld := ⟨0x44000040 + 0x1000 * n, 13, 12⟩
/-- SETn.DIAG_RESULT.GATE_B [11:8] RO. 0 not run; otherwise the codes of R203 -/
abbrev SET_DIAG_RESULT_GATE_B (n : Nat) : Fld := ⟨0x44000040 + 0x1000 * n, 11, 8⟩
/-- SETn.DIAG_RESULT.NODE_A [5:4] RO. As NODE_B -/
abbrev SET_DIAG_RESULT_NODE_A (n : Nat) : Fld := ⟨0x44000040 + 0x1000 * n, 5, 4⟩
/-- SETn.DIAG_RESULT.GATE_A [3:0] RO. As GATE_B -/
abbrev SET_DIAG_RESULT_GATE_A (n : Nat) : Fld := ⟨0x44000040 + 0x1000 * n, 3, 0⟩
/-- SETn.SEG.WORN_B [31:24] RO. Channel B segments worn or disconnected (R205) -/
abbrev SET_SEG_WORN_B (n : Nat) : Fld := ⟨0x44000044 + 0x1000 * n, 31, 24⟩
/-- SETn.SEG.WORN_A [23:16] RO. Channel A segments worn or disconnected -/
abbrev SET_SEG_WORN_A (n : Nat) : Fld := ⟨0x44000044 + 0x1000 * n, 23, 16⟩
/-- SETn.SEG.USE_B [15:8] RO. Channel B segments in use -/
abbrev SET_SEG_USE_B (n : Nat) : Fld := ⟨0x44000044 + 0x1000 * n, 15, 8⟩
/-- SETn.SEG.USE_A [7:0] RO. Channel A segments in use -/
abbrev SET_SEG_USE_A (n : Nat) : Fld := ⟨0x44000044 + 0x1000 * n, 7, 0⟩
/-- SETn.BOOT_EVENTS.TOTAL [31:16] RC. BOOT_UV events; saturates at 0xFFFF -/
abbrev SET_BOOT_EVENTS_TOTAL (n : Nat) : Fld := ⟨0x44000048 + 0x1000 * n, 31, 16⟩
/-- SETn.BOOT_EVENTS.WINDOW [1:0] RO. Events in the last 64 periods of the pair, 0–3 -/
abbrev SET_BOOT_EVENTS_WINDOW (n : Nat) : Fld := ⟨0x44000048 + 0x1000 * n, 1, 0⟩
/-- SETn.REFUSED.COUNT [15:0] RC. Refused ARM, DISARM, DIAG and clear writes; saturates at 0xFFFF -/
abbrev SET_REFUSED_COUNT (n : Nat) : Fld := ⟨0x4400004c + 0x1000 * n, 15, 0⟩
/-- SETn.TEMP.TEMP [15:0] RO. Tile temperature, two's complement, in steps of 0.125 °C -/
abbrev SET_TEMP_TEMP (n : Nat) : Fld := ⟨0x44000050 + 0x1000 * n, 15, 0⟩
/-- SETn.INT.REFUSED [6:6] W1C. A write was refused -/
abbrev SET_INT_REFUSED (n : Nat) : Fld := ⟨0x44000054 + 0x1000 * n, 6, 6⟩
/-- SETn.INT.SEG_WORN [5:5] W1C. A segment became worn or was disconnected -/
abbrev SET_INT_SEG_WORN (n : Nat) : Fld := ⟨0x44000054 + 0x1000 * n, 5, 5⟩
/-- SETn.INT.OT [4:4] W1C. Over-temperature -/
abbrev SET_INT_OT (n : Nat) : Fld := ⟨0x44000054 + 0x1000 * n, 4, 4⟩
/-- SETn.INT.DIAG_DONE [3:3] W1C. Diagnostics done or aborted -/
abbrev SET_INT_DIAG_DONE (n : Nat) : Fld := ⟨0x44000054 + 0x1000 * n, 3, 3⟩
/-- SETn.INT.BOOT_UV [2:2] W1C. A BOOT_UV event occurred -/
abbrev SET_INT_BOOT_UV (n : Nat) : Fld := ⟨0x44000054 + 0x1000 * n, 2, 2⟩
/-- SETn.INT.SUPPLY_UV [1:1] W1C. Supply undervoltage -/
abbrev SET_INT_SUPPLY_UV (n : Nat) : Fld := ⟨0x44000054 + 0x1000 * n, 1, 1⟩
/-- SETn.INT.DESAT [0:0] W1C. Desaturation detected -/
abbrev SET_INT_DESAT (n : Nat) : Fld := ⟨0x44000054 + 0x1000 * n, 0, 0⟩
/-- SETn.INT_EN.EN [6:0] RW. Per-bit enable of SETn.INT to the HOST interrupt controller -/
abbrev SET_INT_EN_EN (n : Nat) : Fld := ⟨0x44000058 + 0x1000 * n, 6, 0⟩
/-- SETn.SEG_RDSc_k.INITIAL [31:16] RO. On-resistance of segment k (0–7) at manufacture, in mΩ -/
abbrev SET_SEG_RDS_INITIAL (n : Nat) (c : Nat) (k : Nat) : Fld := ⟨0x44000080 + 0x1000 * n + 0x20 * c + 0x4 * k, 31, 16⟩
/-- SETn.SEG_RDSc_k.RDS [15:0] RO. Last measured on-resistance in mΩ, the higher of source and sink; 0xFFFF if disconnected -/
abbrev SET_SEG_RDS_RDS (n : Nat) (c : Nat) (k : Nat) : Fld := ⟨0x44000080 + 0x1000 * n + 0x20 * c + 0x4 * k, 15, 0⟩
/-- SET.FAULTS.CH [17:0] RO. Bit 2n channel A and bit 2n + 1 channel B of tile n: a DESAT, SUPPLY_UV or BOOT_STOP is latched -/
abbrev SET_FAULTS_CH : Fld := ⟨0x44009000, 17, 0⟩
/-- SET.FAULT_SNAP.COMPLETE [31:31] RO. The safe order completed; collection closed (R201) -/
abbrev SET_FAULT_SNAP_COMPLETE : Fld := ⟨0x44009004, 31, 31⟩
/-- SET.FAULT_SNAP.CH [17:0] RO. Channel faults collected since the Cone of the first block stop, laid out as SET.FAULTS; part of the Cone s... -/
abbrev SET_FAULT_SNAP_CH : Fld := ⟨0x44009004, 17, 0⟩
/-- WINn.CFG.EN [31:31] RWF. Unit in use -/
abbrev WIN_CFG_EN (n : Nat) : Fld := ⟨0x45000000 + 0x40 * n, 31, 31⟩
/-- WINn.CFG.SENSE [30:29] RWF. 0b00 WINDOW, 0b01 HIGH, 0b10 LOW (R208) -/
abbrev WIN_CFG_SENSE (n : Nat) : Fld := ⟨0x45000000 + 0x40 * n, 30, 29⟩
/-- WINn.CFG.FILT [28:28] RWF. 0 blanking, 1 majority filter -/
abbrev WIN_CFG_FILT (n : Nat) : Fld := ⟨0x45000000 + 0x40 * n, 28, 28⟩
/-- WINn.CFG.MAJ_M [27:25] RWF. 3, 5 or 7 (R212) -/
abbrev WIN_CFG_MAJ_M (n : Nat) : Fld := ⟨0x45000000 + 0x40 * n, 27, 25⟩
/-- WINn.CFG.MAJ_N [24:21] RWF. MAJ_M to 15 -/
abbrev WIN_CFG_MAJ_N (n : Nat) : Fld := ⟨0x45000000 + 0x40 * n, 24, 21⟩
/-- WINn.CFG.BLANK_PAIR [20:17] RWF. Pair whose edges blank the unit -/
abbrev WIN_CFG_BLANK_PAIR (n : Nat) : Fld := ⟨0x45000000 + 0x40 * n, 20, 17⟩
/-- WINn.CFG.BLANK_EDGE [16:15] RWF. 0b00 none, 0b01 A turn-on, 0b10 B turn-on, 0b11 either -/
abbrev WIN_CFG_BLANK_EDGE (n : Nat) : Fld := ⟨0x45000000 + 0x40 * n, 16, 15⟩
/-- WINn.CFG.BLANK [14:7] RWF. Blanking in steps of 10 ns -/
abbrev WIN_CFG_BLANK (n : Nat) : Fld := ⟨0x45000000 + 0x40 * n, 14, 7⟩
/-- WINn.CFG.IRQ_WAKE [6:6] RWF. Privileged only: 1 signals the wake logic -/
abbrev WIN_CFG_IRQ_WAKE (n : Nat) : Fld := ⟨0x45000000 + 0x40 * n, 6, 6⟩
/-- WINn.CFG.INPUT [5:0] RWF. AIN0–AIN63 -/
abbrev WIN_CFG_INPUT (n : Nat) : Fld := ⟨0x45000000 + 0x40 * n, 5, 0⟩
/-- WINn.THR.UPPER [27:16] RW. Upper threshold code; at most UPPER_MAX. UPPER, HYST and LOWER are set at firing from the TRIP section (R209) -/
abbrev WIN_THR_UPPER (n : Nat) : Fld := ⟨0x45000004 + 0x40 * n, 27, 16⟩
/-- WINn.THR.HYST [14:12] RW. Hysteresis code (R207) -/
abbrev WIN_THR_HYST (n : Nat) : Fld := ⟨0x45000004 + 0x40 * n, 14, 12⟩
/-- WINn.THR.LOWER [11:0] RW. Lower threshold code; at least LOWER_MIN -/
abbrev WIN_THR_LOWER (n : Nat) : Fld := ⟨0x45000004 + 0x40 * n, 11, 0⟩
/-- WINn.THR_LIM.UPPER_MAX [27:16] RWF. Highest UPPER firmware may write -/
abbrev WIN_THR_LIM_UPPER_MAX (n : Nat) : Fld := ⟨0x45000008 + 0x40 * n, 27, 16⟩
/-- WINn.THR_LIM.LOWER_MIN [11:0] RWF. Lowest LOWER firmware may write -/
abbrev WIN_THR_LIM_LOWER_MIN (n : Nat) : Fld := ⟨0x45000008 + 0x40 * n, 11, 0⟩
/-- WINn.CTRL.IRQ [2:2] RW. Privileged only: 1 sets INT.EDGE at each change of STATE -/
abbrev WIN_CTRL_IRQ (n : Nat) : Fld := ⟨0x4500000c + 0x40 * n, 2, 2⟩
/-- WINn.CTRL.SHADOW [1:1] W1S. Request a shadow spare (R216) -/
abbrev WIN_CTRL_SHADOW (n : Nat) : Fld := ⟨0x4500000c + 0x40 * n, 1, 1⟩
/-- WINn.CTRL.SELFTEST [0:0] W1S. Start a self-test (R215) -/
abbrev WIN_CTRL_SELFTEST (n : Nat) : Fld := ⟨0x4500000c + 0x40 * n, 0, 0⟩
/-- WINn.STATUS.TEST_OFS [31:24] RO. Last self-test offset in codes, two's complement -/
abbrev WIN_STATUS_TEST_OFS (n : Nat) : Fld := ⟨0x45000010 + 0x40 * n, 31, 24⟩
/-- WINn.STATUS.REFUSED_WR [23:16] RC. Refused THR writes and requests; saturates at 0xFF -/
abbrev WIN_STATUS_REFUSED_WR (n : Nat) : Fld := ⟨0x45000010 + 0x40 * n, 23, 16⟩
/-- WINn.STATUS.SPARE [15:12] RO. WX spare serving as the shadow or substitute, 0–3 -/
abbrev WIN_STATUS_SPARE (n : Nat) : Fld := ⟨0x45000010 + 0x40 * n, 15, 12⟩
/-- WINn.STATUS.SUBST [11:11] RO. The unit is carried on a spare by the repair map -/
abbrev WIN_STATUS_SUBST (n : Nat) : Fld := ⟨0x45000010 + 0x40 * n, 11, 11⟩
/-- WINn.STATUS.CAP_OVR [10:10] W1C. A capture overwrote an unread CAP -/
abbrev WIN_STATUS_CAP_OVR (n : Nat) : Fld := ⟨0x45000010 + 0x40 * n, 10, 10⟩
/-- WINn.STATUS.TEST_RESULT [9:8] RO. 0b00 none, 0b01 pass, 0b10 fail, 0b11 refused or aborted -/
abbrev WIN_STATUS_TEST_RESULT (n : Nat) : Fld := ⟨0x45000010 + 0x40 * n, 9, 8⟩
/-- WINn.STATUS.TEST_BUSY [7:7] RO. Self-test running -/
abbrev WIN_STATUS_TEST_BUSY (n : Nat) : Fld := ⟨0x45000010 + 0x40 * n, 7, 7⟩
/-- WINn.STATUS.SHADOW_OK [6:6] RO. Shadow in place -/
abbrev WIN_STATUS_SHADOW_OK (n : Nat) : Fld := ⟨0x45000010 + 0x40 * n, 6, 6⟩
/-- WINn.STATUS.FORCED [5:5] RO. Trip unit forced asserted (R213) -/
abbrev WIN_STATUS_FORCED (n : Nat) : Fld := ⟨0x45000010 + 0x40 * n, 5, 5⟩
/-- WINn.STATUS.ASSERTED [4:4] RO. Output asserted after chatter suppression -/
abbrev WIN_STATUS_ASSERTED (n : Nat) : Fld := ⟨0x45000010 + 0x40 * n, 4, 4⟩
/-- WINn.STATUS.STATE [1:0] RO. 0b00 inside, 0b01 above UPPER, 0b11 below LOWER, 0b10 unresolved -/
abbrev WIN_STATUS_STATE (n : Nat) : Fld := ⟨0x45000010 + 0x40 * n, 1, 0⟩
/-- WINn.CAP.EPOCH_CNT [31:0] RO. Epoch counter at the last change of STATE, in edge steps (R214) -/
abbrev WIN_CAP_EPOCH_CNT (n : Nat) : Fld := ⟨0x45000014 + 0x40 * n, 31, 0⟩
/-- WINn.CAP_COUNT.COUNT [31:0] RO. Changes of STATE since firing; wraps -/
abbrev WIN_CAP_COUNT_COUNT (n : Nat) : Fld := ⟨0x45000018 + 0x40 * n, 31, 0⟩
/-- SIT.CTRL.CLEAR_PLANT [3:3] W1S. End the plant stop (R227) -/
abbrev SIT_CTRL_CLEAR_PLANT : Fld := ⟨0x44800000, 3, 3⟩
/-- SIT.CTRL.PLANT_STOP [2:2] W1S. Raise a plant stop; manager only -/
abbrev SIT_CTRL_PLANT_STOP : Fld := ⟨0x44800000, 2, 2⟩
/-- SIT.CTRL.CLEAR_STOP [1:1] W1S. Clear the block stop (R226) -/
abbrev SIT_CTRL_CLEAR_STOP : Fld := ⟨0x44800000, 1, 1⟩
/-- SIT.CTRL.STOP [0:0] W1S. Block stop with cause FIRMWARE -/
abbrev SIT_CTRL_STOP : Fld := ⟨0x44800000, 0, 0⟩
/-- SIT.STATUS.STAGE [5:4] RO. 0b00 idle, 0b01 stage 1, 0b10 stage 2, 0b11 complete -/
abbrev SIT_STATUS_STAGE : Fld := ⟨0x44800004, 5, 4⟩
/-- SIT.STATUS.PLANT_IN [3:3] RO. Worker: the manager's frames carry the plant stop -/
abbrev SIT_STATUS_PLANT_IN : Fld := ⟨0x44800004, 3, 3⟩
/-- SIT.STATUS.PLANT_OUT [2:2] RO. Manager: plant stop asserted -/
abbrev SIT_STATUS_PLANT_OUT : Fld := ⟨0x44800004, 2, 2⟩
/-- SIT.STATUS.SAFE_DONE [1:1] RO. Every tile disarmed by the safe order (R225) -/
abbrev SIT_STATUS_SAFE_DONE : Fld := ⟨0x44800004, 1, 1⟩
/-- SIT.STATUS.BLOCK_STOP [0:0] RO. Block-stop latch set -/
abbrev SIT_STATUS_BLOCK_STOP : Fld := ⟨0x44800004, 0, 0⟩
/-- SIT.CAUSE.CAUSE [17:0] RO. Latched causes, bits per R223 -/
abbrev SIT_CAUSE_CAUSE : Fld := ⟨0x44800008, 17, 0⟩
/-- SIT.ACTIVE.ACTIVE [17:0] RO. Latched causes still active (R223) -/
abbrev SIT_ACTIVE_ACTIVE : Fld := ⟨0x4480000c, 17, 0⟩
/-- SIT.FIRST.VALID [31:31] RO. A cause is recorded -/
abbrev SIT_FIRST_VALID : Fld := ⟨0x44800010, 31, 31⟩
/-- SIT.FIRST.DETAIL [15:8] RO. Unit, channel or rate group (R224) -/
abbrev SIT_FIRST_DETAIL : Fld := ⟨0x44800010, 15, 8⟩
/-- SIT.FIRST.CODE [4:0] RO. Bit number of the first cause -/
abbrev SIT_FIRST_CODE : Fld := ⟨0x44800010, 4, 0⟩
/-- SIT.ORDER.SKIP_MAX [31:24] RWF. Consecutive skips that raise TRIP_PERSIST; 0 never (R222) -/
abbrev SIT_ORDER_SKIP_MAX : Fld := ⟨0x44800014, 31, 24⟩
/-- SIT.ORDER.STOP_GAP [9:0] RWF. Stage gap in steps of 10 ns, 10–1,000 -/
abbrev SIT_ORDER_STOP_GAP : Fld := ⟨0x44800014, 9, 0⟩
/-- SIT.TRIP.LIVE [24:16] RO. Per pair: trip input active now -/
abbrev SIT_TRIP_LIVE : Fld := ⟨0x44800020, 24, 16⟩
/-- SIT.TRIP.PAIR_STAT [8:0] W1C. Per pair: a cycle trip occurred; clear refused while LIVE (R221) -/
abbrev SIT_TRIP_PAIR_STAT : Fld := ⟨0x44800020, 8, 0⟩
/-- SIT.TRIP_UNITS.LIVE_UNITS [31:0] RO. Bit k: WINk output asserted or forced. Every bit reads 1 from reset until step 6 of the first firing. From ... -/
abbrev SIT_TRIP_UNITS_LIVE_UNITS : Fld := ⟨0x44800024, 31, 0⟩
/-- SIT.SKIPn.CONSEC [31:24] RO. Consecutive skipped periods of pair n; saturates at 255 -/
abbrev SIT_SKIP_CONSEC (n : Nat) : Fld := ⟨0x44800040 + 0x4 * n, 31, 24⟩
/-- SIT.SKIPn.COUNT [15:0] RC. Skipped periods; saturates at 0xFFFF -/
abbrev SIT_SKIP_COUNT (n : Nat) : Fld := ⟨0x44800040 + 0x4 * n, 15, 0⟩
/-- SIT.REFUSED.COUNT [15:0] RC. Refused clears of PAIR_STAT, CLEAR_STOP and CLEAR_PLANT; saturates at 0xFFFF -/
abbrev SIT_REFUSED_COUNT : Fld := ⟨0x44800068, 15, 0⟩
/-- SIT.INT.REFUSED [3:3] W1C. A clear was refused -/
abbrev SIT_INT_REFUSED : Fld := ⟨0x44800070, 3, 3⟩
/-- SIT.INT.SKIP [2:2] W1C. A period was skipped -/
abbrev SIT_INT_SKIP : Fld := ⟨0x44800070, 2, 2⟩
/-- SIT.INT.TRIP [1:1] W1C. A cycle trip occurred -/
abbrev SIT_INT_TRIP : Fld := ⟨0x44800070, 1, 1⟩
/-- SIT.INT.BLOCK_STOP [0:0] W1C. A block stop was latched -/
abbrev SIT_INT_BLOCK_STOP : Fld := ⟨0x44800070, 0, 0⟩
/-- SIT.INT_EN.EN [3:0] RW. Per-bit enable of SIT.INT to the HOST interrupt controller -/
abbrev SIT_INT_EN_EN : Fld := ⟨0x44800074, 3, 0⟩
/-- SIT.ROUTEk.CLASS [31:31] RWF. 0 CYCLE, 1 STOP (R218) -/
abbrev SIT_ROUTE_CLASS (k : Nat) : Fld := ⟨0x44800100 + 0x4 * k, 31, 31⟩
/-- SIT.ROUTEk.PAIRS [8:0] RWF. Pairs guarded by WINk (k = 0–31) -/
abbrev SIT_ROUTE_PAIRS (k : Nat) : Fld := ⟨0x44800100 + 0x4 * k, 8, 0⟩
/-- SIT.PLANT.WORKERS [31:1] RWF. Bit w: worker w's block stop is a plant-stop cause (R227); manager only -/
abbrev SIT_PLANT_WORKERS : Fld := ⟨0x44800200, 31, 1⟩
/-- SIT.PLANT.OWN [0:0] RWF. The manager's own block stop raises a plant stop -/
abbrev SIT_PLANT_OWN : Fld := ⟨0x44800200, 0, 0⟩
/-- ADCn.GROUP.MODE [31:30] RWF. 0b00 OFF, 0b01 GROUP, 0b10 CONT, 0b11 FW (R231) -/
abbrev ADC_GROUP_MODE (n : Nat) : Fld := ⟨0x46000000 + 0x100 * n, 31, 30⟩
/-- ADCn.GROUP.RG [29:27] RWF. Rate group for MODE GROUP -/
abbrev ADC_GROUP_RG (n : Nat) : Fld := ⟨0x46000000 + 0x100 * n, 29, 27⟩
/-- ADCn.GROUP.NENT [26:24] RWF. Entries less one -/
abbrev ADC_GROUP_NENT (n : Nat) : Fld := ⟨0x46000000 + 0x100 * n, 26, 24⟩
/-- ADCn.GROUP.URG_ENTRY [23:21] RWF. Entry converted by urgent requests -/
abbrev ADC_GROUP_URG_ENTRY (n : Nat) : Fld := ⟨0x46000000 + 0x100 * n, 23, 21⟩
/-- ADCn.GROUP.URG_EN [20:20] RWF. 1: privileged unit raises urgent requests -/
abbrev ADC_GROUP_URG_EN (n : Nat) : Fld := ⟨0x46000000 + 0x100 * n, 20, 20⟩
/-- ADCn.GROUP.URG_WIN [19:17] RWF. Privileged unit WIN32–WIN39, less 32 -/
abbrev ADC_GROUP_URG_WIN (n : Nat) : Fld := ⟨0x46000000 + 0x100 * n, 19, 17⟩
/-- ADCn.GROUP.WDOG [15:0] RWF. Watchdog in steps of 100 ns, 10–65,535 for GROUP; 0 otherwise -/
abbrev ADC_GROUP_WDOG (n : Nat) : Fld := ⟨0x46000000 + 0x100 * n, 15, 0⟩
/-- ADCn.CTRL.CAL [2:2] W1S. Calibrate the converter carrying this logical core (R238) -/
abbrev ADC_CTRL_CAL (n : Nat) : Fld := ⟨0x46000004 + 0x100 * n, 2, 2⟩
/-- ADCn.CTRL.START [0:0] W1S. Urgent request (R235) -/
abbrev ADC_CTRL_START (n : Nat) : Fld := ⟨0x46000004 + 0x100 * n, 0, 0⟩
/-- ADCn.STATUS.CAL_STATE [31:28] RO. 0x0 none, 0x1 RUNNING, 0x2 DONE, 0x3 BUSY, 0x4 ABORTED, 0x5 FAIL -/
abbrev ADC_STATUS_CAL_STATE (n : Nat) : Fld := ⟨0x46000008 + 0x100 * n, 31, 28⟩
/-- ADCn.STATUS.CARRIER [25:24] RO. Physical converter carrying the core: 0b00 its own, 0b01 GX0, 0b10 GX1 -/
abbrev ADC_STATUS_CARRIER (n : Nat) : Fld := ⟨0x46000008 + 0x100 * n, 25, 24⟩
/-- ADCn.STATUS.SERVES [20:16] RO. GX0 and GX1 only: logical core carried; 0x1F none -/
abbrev ADC_STATUS_SERVES (n : Nat) : Fld := ⟨0x46000008 + 0x100 * n, 20, 16⟩
/-- ADCn.STATUS.FALLBACK [5:5] RO. Core in fall-back (R236) -/
abbrev ADC_STATUS_FALLBACK (n : Nat) : Fld := ⟨0x46000008 + 0x100 * n, 5, 5⟩
/-- ADCn.STATUS.BUSY [4:4] RO. SAR in bit trials -/
abbrev ADC_STATUS_BUSY (n : Nat) : Fld := ⟨0x46000008 + 0x100 * n, 4, 4⟩
/-- ADCn.STATUS.NEXT [2:0] RO. Next start entry -/
abbrev ADC_STATUS_NEXT (n : Nat) : Fld := ⟨0x46000008 + 0x100 * n, 2, 0⟩
/-- ADCn.EVENTS.FB_ENTRIES [31:24] RC. Entries into fall-back; saturates at 0xFF -/
abbrev ADC_EVENTS_FB_ENTRIES (n : Nat) : Fld := ⟨0x4600000c + 0x100 * n, 31, 24⟩
/-- ADCn.EVENTS.START_LOST [23:16] RC. Start bits ignored (R233); saturates at 0xFF -/
abbrev ADC_EVENTS_START_LOST (n : Nat) : Fld := ⟨0x4600000c + 0x100 * n, 23, 16⟩
/-- ADCn.EVENTS.ABANDONED [15:8] RC. Conversions abandoned; saturates at 0xFF -/
abbrev ADC_EVENTS_ABANDONED (n : Nat) : Fld := ⟨0x4600000c + 0x100 * n, 15, 8⟩
/-- ADCn.EVENTS.CLIPS [7:0] RC. Clipped results; saturates at 0xFF -/
abbrev ADC_EVENTS_CLIPS (n : Nat) : Fld := ⟨0x4600000c + 0x100 * n, 7, 0⟩
/-- ADCn.URG_DROPS.COUNT [15:0] RC. Urgent requests dropped; saturates at 0xFFFF -/
abbrev ADC_URG_DROPS_COUNT (n : Nat) : Fld := ⟨0x46000010 + 0x100 * n, 15, 0⟩
/-- ADCn.URG_RESULT.NEW [31:31] W1C. A result arrived since the last clear -/
abbrev ADC_URG_RESULT_NEW (n : Nat) : Fld := ⟨0x46000014 + 0x100 * n, 31, 31⟩
/-- ADCn.URG_RESULT.ENTRY [18:16] RO. Entry converted -/
abbrev ADC_URG_RESULT_ENTRY (n : Nat) : Fld := ⟨0x46000014 + 0x100 * n, 18, 16⟩
/-- ADCn.URG_RESULT.CODE [15:0] RO. Corrected 16-bit code before formatting -/
abbrev ADC_URG_RESULT_CODE (n : Nat) : Fld := ⟨0x46000014 + 0x100 * n, 15, 0⟩
/-- ADCn.SEQe.FMT [24:24] RWF. 0 bipolar, 1 unipolar (R230) -/
abbrev ADC_SEQ_FMT (n : Nat) (e : Nat) : Fld := ⟨0x46000020 + 0x100 * n + 0x4 * e, 24, 24⟩
/-- ADCn.SEQe.AIN [21:16] RWF. Input of entry e (e = 0–7) -/
abbrev ADC_SEQ_AIN (n : Nat) (e : Nat) : Fld := ⟨0x46000020 + 0x100 * n + 0x4 * e, 21, 16⟩
/-- ADCn.SEQe.SLOT [11:0] RWF. Result slot, owned by the logical core -/
abbrev ADC_SEQ_SLOT (n : Nat) (e : Nat) : Fld := ⟨0x46000020 + 0x100 * n + 0x4 * e, 11, 0⟩
/-- ADCn.CAL_OG.GAIN [31:16] RO. Gain factor, two's complement, in 2⁻²⁰ (R237) -/
abbrev ADC_CAL_OG_GAIN (n : Nat) : Fld := ⟨0x46000040 + 0x100 * n, 31, 16⟩
/-- ADCn.CAL_OG.OFS [15:0] RO. Offset, two's complement, in 1/16 LSB -/
abbrev ADC_CAL_OG_OFS (n : Nat) : Fld := ⟨0x46000040 + 0x100 * n, 15, 0⟩
/-- ADCn.CAL_LINp.LIN_HI [31:16] RO. LIN(2p + 1), two's complement, in 1/64 LSB (p = 0–3) -/
abbrev ADC_CAL_LIN_LIN_HI (n : Nat) (p : Nat) : Fld := ⟨0x46000044 + 0x100 * n + 0x4 * p, 31, 16⟩
/-- ADCn.CAL_LINp.LIN_LO [15:0] RO. LIN(2p) -/
abbrev ADC_CAL_LIN_LIN_LO (n : Nat) (p : Nat) : Fld := ⟨0x46000044 + 0x100 * n + 0x4 * p, 15, 0⟩
/-- ADC.CTRL.CAL_ALL [0:0] W1S. Calibrate all 18 converters; phases 0x1 and 0x2 only (R239) -/
abbrev ADC_CTRL_CAL_ALL : Fld := ⟨0x46002000, 0, 0⟩
/-- ADC.INT.URG_DROP [4:4] W1C. An urgent request was dropped -/
abbrev ADC_INT_URG_DROP : Fld := ⟨0x46002004, 4, 4⟩
/-- ADC.INT.FALLBACK [3:3] W1C. A core entered fall-back -/
abbrev ADC_INT_FALLBACK : Fld := ⟨0x46002004, 3, 3⟩
/-- ADC.INT.URG_DONE [2:2] W1C. An urgent result arrived -/
abbrev ADC_INT_URG_DONE : Fld := ⟨0x46002004, 2, 2⟩
/-- ADC.INT.CAL_REFUSED [1:1] W1C. A calibration command was refused -/
abbrev ADC_INT_CAL_REFUSED : Fld := ⟨0x46002004, 1, 1⟩
/-- ADC.INT.CAL_DONE [0:0] W1C. A calibration completed or failed -/
abbrev ADC_INT_CAL_DONE : Fld := ⟨0x46002004, 0, 0⟩
/-- ADC.INT_EN.EN [4:0] RW. Per-bit enable of ADC.INT to the HOST interrupt controller -/
abbrev ADC_INT_EN_EN : Fld := ⟨0x46002008, 4, 0⟩
/-- MET.CFG.JRNL_GAIN [5:5] RWF. 1: journal gain changes (R253) -/
abbrev MET_CFG_JRNL_GAIN : Fld := ⟨0x47000000, 5, 5⟩
/-- MET.CFG.FNOM [4:4] RWF. 0 50 Hz, 1 60 Hz -/
abbrev MET_CFG_FNOM : Fld := ⟨0x47000000, 4, 4⟩
/-- MET.CFG.ARR [3:2] RWF. Arrangement (R244); 0b11 reserved -/
abbrev MET_CFG_ARR : Fld := ⟨0x47000000, 3, 2⟩
/-- MET.CFG.EN [0:0] RWF. Metering in use -/
abbrev MET_CFG_EN : Fld := ⟨0x47000000, 0, 0⟩
/-- MET.CTRL.JRNL_COMMIT [0:0] W1S. Commit the entry in JRNL_WR0 to JRNL_WR2 (R259) -/
abbrev MET_CTRL_JRNL_COMMIT : Fld := ⟨0x47000004, 0, 0⟩
/-- MET.STATUS.DIR [10:8] RO. Per phase a–c: 1 export (R253) -/
abbrev MET_STATUS_DIR : Fld := ⟨0x47000008, 10, 8⟩
/-- MET.STATUS.SPARE_IN_USE [7:7] RO. MX carries a channel (R243) -/
abbrev MET_STATUS_SPARE_IN_USE : Fld := ⟨0x47000008, 7, 7⟩
/-- MET.STATUS.BOOT_GAP [6:6] RO. GAP written at this boot (R256) -/
abbrev MET_STATUS_BOOT_GAP : Fld := ⟨0x47000008, 6, 6⟩
/-- MET.STATUS.PF_SAVED [5:5] RO. A power-fail save completed since reset -/
abbrev MET_STATUS_PF_SAVED : Fld := ⟨0x47000008, 5, 5⟩
/-- MET.STATUS.SAVING [4:4] RO. A save is in progress -/
abbrev MET_STATUS_SAVING : Fld := ⟨0x47000008, 4, 4⟩
/-- MET.STATUS.TIME_VALID [3:3] RO. PTP time valid -/
abbrev MET_STATUS_TIME_VALID : Fld := ⟨0x47000008, 3, 3⟩
/-- MET.STATUS.MISS_N [2:2] RO. Missing neutral present -/
abbrev MET_STATUS_MISS_N : Fld := ⟨0x47000008, 2, 2⟩
/-- MET.STATUS.WRONG_SEQ [1:1] RO. Wrong sequence present -/
abbrev MET_STATUS_WRONG_SEQ : Fld := ⟨0x47000008, 1, 1⟩
/-- MET.EVENT.JRNL_LOST [7:7] W1C. A journal entry was refused -/
abbrev MET_EVENT_JRNL_LOST : Fld := ⟨0x4700000c, 7, 7⟩
/-- MET.EVENT.PQ [6:6] W1C. A PQ_EVENT was written -/
abbrev MET_EVENT_PQ : Fld := ⟨0x4700000c, 6, 6⟩
/-- MET.EVENT.GAIN [5:5] W1C. A current channel changed gain -/
abbrev MET_EVENT_GAIN : Fld := ⟨0x4700000c, 5, 5⟩
/-- MET.EVENT.REVFLOW [4:2] W1C. Per phase a–c: reverse flow -/
abbrev MET_EVENT_REVFLOW : Fld := ⟨0x4700000c, 4, 2⟩
/-- MET.EVENT.MISS_N [1:1] W1C. MISS_N set -/
abbrev MET_EVENT_MISS_N : Fld := ⟨0x4700000c, 1, 1⟩
/-- MET.EVENT.WRONG_SEQ [0:0] W1C. WRONG_SEQ set -/
abbrev MET_EVENT_WRONG_SEQ : Fld := ⟨0x4700000c, 0, 0⟩
/-- MET.INT_EN.EN [7:0] RW. Per-bit enable of MET.EVENT to the HOST interrupt controller -/
abbrev MET_INT_EN_EN : Fld := ⟨0x47000010, 7, 0⟩
/-- MET.THR.RF_TIME [31:24] RWF. Reverse-flow hold in steps of 0.1 s, 1–255 -/
abbrev MET_THR_RF_TIME : Fld := ⟨0x47000014, 31, 24⟩
/-- MET.THR.RF_MIN [23:16] RWF. In steps of 0.1 % of rated apparent power per phase, 1–100 -/
abbrev MET_THR_RF_MIN : Fld := ⟨0x47000014, 23, 16⟩
/-- MET.THR.MN_THR [15:8] RWF. In steps of 0.01 pu, 2–50 -/
abbrev MET_THR_MN_THR : Fld := ⟨0x47000014, 15, 8⟩
/-- MET.PQ_THR.SWELL [31:24] RWF. Percent of rated, 101–200 -/
abbrev MET_PQ_THR_SWELL : Fld := ⟨0x47000018, 31, 24⟩
/-- MET.PQ_THR.DIP [23:16] RWF. Percent of rated, 50–99 -/
abbrev MET_PQ_THR_DIP : Fld := ⟨0x47000018, 23, 16⟩
/-- MET.PQ_THR.INTR [15:8] RWF. Percent of rated, 1–20 -/
abbrev MET_PQ_THR_INTR : Fld := ⟨0x47000018, 15, 8⟩
/-- MET.PQ_THR.HYST [7:0] RWF. In steps of 0.1 %, 0–100 -/
abbrev MET_PQ_THR_HYST : Fld := ⟨0x47000018, 7, 0⟩
/-- MET.SCALEc.SCALE [31:0] RWF. float32, V or A at full-scale code, gain ×1; c = 0–7: V1, V2, V3, VN, I1, I2, I3, IN -/
abbrev MET_SCALE_SCALE (c : Nat) : Fld := ⟨0x47000020 + 0x4 * c, 31, 0⟩
/-- MET.CHc.CAL.GAIN [31:16] RWF. Sensor gain correction, two's complement, in 2⁻²⁰ -/
abbrev MET_CH_CAL_GAIN (c : Nat) : Fld := ⟨0x47000040 + 0x4 * c, 31, 16⟩
/-- MET.CHc.CAL.DELAY [15:0] RWF. Sensor phase correction as a delay, two's complement, in ns -/
abbrev MET_CH_CAL_DELAY (c : Nat) : Fld := ⟨0x47000040 + 0x4 * c, 15, 0⟩
/-- MET.RATED_V.V [31:0] RWF. float32, rated RMS phase-to-neutral voltage (R8) -/
abbrev MET_RATED_V_V : Fld := ⟨0x47000060, 31, 0⟩
/-- MET.RATED_I.I [31:0] RWF. float32, rated RMS current In -/
abbrev MET_RATED_I_I : Fld := ⟨0x47000064, 31, 0⟩
/-- MET.GAIN.IN [14:12] RO.  -/
abbrev MET_GAIN_IN : Fld := ⟨0x47000068, 14, 12⟩
/-- MET.GAIN.I3 [10:8] RO.  -/
abbrev MET_GAIN_I3 : Fld := ⟨0x47000068, 10, 8⟩
/-- MET.GAIN.I2 [6:4] RO.  -/
abbrev MET_GAIN_I2 : Fld := ⟨0x47000068, 6, 4⟩
/-- MET.GAIN.I1 [2:0] RO.  -/
abbrev MET_GAIN_I1 : Fld := ⟨0x47000068, 2, 0⟩
/-- MET.GAIN_CHANGES.CLIPS [31:16] RC. Clipped current samples (R245); saturates at 0xFFFF -/
abbrev MET_GAIN_CHANGES_CLIPS : Fld := ⟨0x4700006c, 31, 16⟩
/-- MET.GAIN_CHANGES.CHANGES [15:0] RC. Gain changes; saturates at 0xFFFF -/
abbrev MET_GAIN_CHANGES_CHANGES : Fld := ⟨0x4700006c, 15, 0⟩
/-- MET.SAVE_SEQ.SEQ [31:0] RO. SAVE_SEQ of the latest complete save (R254) -/
abbrev MET_SAVE_SEQ_SEQ : Fld := ⟨0x47000070, 31, 0⟩
/-- MET.SAVE_TIME.TIME [63:0] RO. Module time of that save, in ns -/
abbrev MET_SAVE_TIME_TIME : Fld := ⟨0x47000078, 63, 0⟩
/-- MET.JRNL_HEAD.SEQ [31:0] RO. SEQ the next entry will take (R260) -/
abbrev MET_JRNL_HEAD_SEQ : Fld := ⟨0x47000080, 31, 0⟩
/-- MET.JRNL_WRAPS.COUNT [31:0] RO. Reuses of place 0 (R257) -/
abbrev MET_JRNL_WRAPS_COUNT : Fld := ⟨0x47000084, 31, 0⟩
/-- MET.JRNL_LOST.COUNT [15:0] RC. Refused entries (R259); saturates at 0xFFFF -/
abbrev MET_JRNL_LOST_COUNT : Fld := ⟨0x47000088, 15, 0⟩
/-- MET.JRNL_WR0.TYPE [31:24] RW. 0x80–0xFF -/
abbrev MET_JRNL_WR0_TYPE : Fld := ⟨0x47000090, 31, 24⟩
/-- MET.JRNL_WR0.DETAIL [15:0] RW. DETAIL of the entry -/
abbrev MET_JRNL_WR0_DETAIL : Fld := ⟨0x47000090, 15, 0⟩
/-- MET.JRNL_WRw.PAYLOAD [31:0] RW. w = 1 payload bytes 16–19; w = 2 bytes 20–23 -/
abbrev MET_JRNL_WR_PAYLOAD (w : Nat) : Fld := ⟨0x47000090 + 0x4 * w, 31, 0⟩
/-- MET.AGG_STATi.FLAGGED [31:31] RO. Interval flagged (R249) -/
abbrev MET_AGG_STAT_FLAGGED (i : Nat) : Fld := ⟨0x47000100 + 0x4 * i, 31, 31⟩
/-- MET.AGG_STATi.SEQ [15:0] RO. Increments when interval i (0–3) completes; wraps -/
abbrev MET_AGG_STAT_SEQ (i : Nat) : Fld := ⟨0x47000100 + 0x4 * i, 15, 0⟩
/-- MET.HARM_SEQ.SEQ [31:0] RO. Increments when a new harmonic set is readable (R250); wraps -/
abbrev MET_HARM_SEQ_SEQ : Fld := ⟨0x47002000, 31, 0⟩
/-- MET.VALi_q_p.VALUE [31:0] RO. float32 quantity q, index p (R251), of the last complete interval i -/
abbrev MET_VAL_VALUE (i : Nat) (q : Nat) (p : Nat) : Fld := ⟨0x47000400 + 0x200 * i + 0x10 * q + 0x4 * p, 31, 0⟩
/-- MET.ACCf_k_p.ENERGY [63:0] RO. Integer part of accumulator k (R247) for f = 0 total, 1 fundamental; p = 0–2 phases, 3 sum. A 64-bit access... -/
abbrev MET_ACC_ENERGY (f : Nat) (k : Nat) (p : Nat) : Fld := ⟨0x47001000 + 0x100 * f + 0x20 * k + 0x8 * p, 63, 0⟩
/-- MET.HARMc_g_h.RMS [31:0] RO. float32, channel c (order of MET.SCALEc); g = 0 group, 1 subgroup, 2 interharmonic centred subgroup; order ... -/
abbrev MET_HARM_RMS (c : Nat) (g : Nat) (h : Nat) : Fld := ⟨0x47004000 + 0x400 * c + 0x100 * g + 0x4 * h, 31, 0⟩
/-- CLK.REF.VALID [5:5] RO. Reference valid (R264) -/
abbrev CLK_REF_VALID : Fld := ⟨0x48000000, 5, 5⟩
/-- CLK.REF.LOST [4:4] RO. Reference lost -/
abbrev CLK_REF_LOST : Fld := ⟨0x48000000, 4, 4⟩
/-- CLK.REF.SEL [1:0] RO. CLK_SEL1 and CLK_SEL0 at reset (R263) -/
abbrev CLK_REF_SEL : Fld := ⟨0x48000000, 1, 0⟩
/-- CLK.INT.REFUSED [3:3] W1C. A write was refused -/
abbrev CLK_INT_REFUSED : Fld := ⟨0x48000004, 3, 3⟩
/-- CLK.INT.RELOCK [2:2] W1C. A PLL left holdover locked -/
abbrev CLK_INT_RELOCK : Fld := ⟨0x48000004, 2, 2⟩
/-- CLK.INT.HOLDOVER [1:1] W1C. A PLL entered holdover -/
abbrev CLK_INT_HOLDOVER : Fld := ⟨0x48000004, 1, 1⟩
/-- CLK.INT.REF_LOST [0:0] W1C. The reference was lost -/
abbrev CLK_INT_REF_LOST : Fld := ⟨0x48000004, 0, 0⟩
/-- CLK.INT_EN.EN [3:0] RW. Per-bit enable of CLK.INT to the HOST interrupt controller -/
abbrev CLK_INT_EN_EN : Fld := ⟨0x48000008, 3, 0⟩
/-- CLK.REFUSED.COUNT [15:0] RC. Refused EN, DIV, REFMODE and STEP writes; saturates at 0xFFFF -/
abbrev CLK_REFUSED_COUNT : Fld := ⟨0x4800000c, 15, 0⟩
/-- CLK.PLLn.CTRL.STEP [11:8] RW. PLL0 only: N offset from DIV.N, two's complement, −4 to +4 (R270); refused on other PLLs -/
abbrev CLK_PLL_CTRL_STEP (n : Nat) : Fld := ⟨0x48000100 + 0x20 * n, 11, 8⟩
/-- CLK.PLLn.CTRL.REFMODE [5:4] RW. 0b00 direct, 0b01 doubled, 0b10 halved, 0b11 reserved; writable while EN = 0 -/
abbrev CLK_PLL_CTRL_REFMODE (n : Nat) : Fld := ⟨0x48000100 + 0x20 * n, 5, 4⟩
/-- CLK.PLLn.CTRL.EN [0:0] RW. 1: PLL enabled (R266, R269) -/
abbrev CLK_PLL_CTRL_EN (n : Nat) : Fld := ⟨0x48000100 + 0x20 * n, 0, 0⟩
/-- CLK.PLLn.DIV.M [30:24] RW. Pre-divider, 1–127 -/
abbrev CLK_PLL_DIV_M (n : Nat) : Fld := ⟨0x48000104 + 0x20 * n, 30, 24⟩
/-- CLK.PLLn.DIV.P [21:16] RW. Output divider, 1–63 -/
abbrev CLK_PLL_DIV_P (n : Nat) : Fld := ⟨0x48000104 + 0x20 * n, 21, 16⟩
/-- CLK.PLLn.DIV.N [13:0] RW. Feedback divider, 16–16,383; writable while EN = 0 -/
abbrev CLK_PLL_DIV_N (n : Nat) : Fld := ⟨0x48000104 + 0x20 * n, 13, 0⟩
/-- CLK.PLLn.STATUS.N_NOW [29:16] RO. Feedback divider in force, including any step -/
abbrev CLK_PLL_STATUS_N_NOW (n : Nat) : Fld := ⟨0x48000108 + 0x20 * n, 29, 16⟩
/-- CLK.PLLn.STATUS.STEPPING [3:3] RO. A step is in progress (R270) -/
abbrev CLK_PLL_STATUS_STEPPING (n : Nat) : Fld := ⟨0x48000108 + 0x20 * n, 3, 3⟩
/-- CLK.PLLn.STATUS.HOLDOVER [2:2] RO. Coasting (R271) -/
abbrev CLK_PLL_STATUS_HOLDOVER (n : Nat) : Fld := ⟨0x48000108 + 0x20 * n, 2, 2⟩
/-- CLK.PLLn.STATUS.LOCK [1:1] RO. Locked -/
abbrev CLK_PLL_STATUS_LOCK (n : Nat) : Fld := ⟨0x48000108 + 0x20 * n, 1, 1⟩
/-- CLK.PLLn.STATUS.ON [0:0] RO. Enabled and running -/
abbrev CLK_PLL_STATUS_ON (n : Nat) : Fld := ⟨0x48000108 + 0x20 * n, 0, 0⟩
/-- CLK.PLLn.HOLDS.COUNT [15:0] RC. Entries into holdover; saturates at 0xFFFF -/
abbrev CLK_PLL_HOLDS_COUNT (n : Nat) : Fld := ⟨0x4800010c + 0x20 * n, 15, 0⟩
/-- WLKn.ROLE.AUTO_L1 [11:11] RWF. 1: the protocol engine may request L1 (R285) -/
abbrev LANE_ROLE_AUTO_L1 (n : Nat) : Fld := ⟨0x49000000 + 0x1000 * n, 11, 11⟩
/-- WLKn.ROLE.ALLOW_RLB [10:10] RWF. 1: the partner may request far-end loopback (R289) -/
abbrev LANE_ROLE_ALLOW_RLB (n : Nat) : Fld := ⟨0x49000000 + 0x1000 * n, 10, 10⟩
/-- WLKn.ROLE.PRECODE_RQ [9:9] RWF. 1: ask the partner to precode (R280) -/
abbrev LANE_ROLE_PRECODE_RQ (n : Nat) : Fld := ⟨0x49000000 + 0x1000 * n, 9, 9⟩
/-- WLKn.ROLE.FEC [8:8] RWF. v2: 1 FEC on; v3: must be 1; v1: must be 0 (R276) -/
abbrev LANE_ROLE_FEC (n : Nat) : Fld := ⟨0x49000000 + 0x1000 * n, 8, 8⟩
/-- WLKn.ROLE.GEN [5:4] RWF. 0b00 v1, 0b01 v2, 0b10 v3, 0b11 refused -/
abbrev LANE_ROLE_GEN (n : Nat) : Fld := ⟨0x49000000 + 0x1000 * n, 5, 4⟩
/-- WLKn.ROLE.ROLE [2:0] RWF. 0 unused, 1 upstream, 2 downstream, 3 ring, 4 manager chain, 5 Ethernet (LANE4, LANE5 only); others reserved -/
abbrev LANE_ROLE_ROLE (n : Nat) : Fld := ⟨0x49000000 + 0x1000 * n, 2, 0⟩
/-- WLKn.CTRL.RLB_REQ [8:8] RW. Request far-end loopback of the partner (R289) -/
abbrev LANE_CTRL_RLB_REQ (n : Nat) : Fld := ⟨0x49000004 + 0x1000 * n, 8, 8⟩
/-- WLKn.CTRL.LOOP [5:4] RW. 0 none, 1 near-end serial, 2 near-end parallel, 3 far-end (R288) -/
abbrev LANE_CTRL_LOOP (n : Nat) : Fld := ⟨0x49000004 + 0x1000 * n, 5, 4⟩
/-- WLKn.CTRL.CMD [3:0] WO. 0x1 RETRAIN, 0x2 L1, 0x3 L2, 0x4 WAKE, 0x5 TEST_ENTER, 0x6 TEST_EXIT; others ignored -/
abbrev LANE_CTRL_CMD (n : Nat) : Fld := ⟨0x49000004 + 0x1000 * n, 3, 0⟩
/-- WLKn.STATUS.DOWN_COUNT [31:16] RO. Losses of lock (R282); saturates at 0xFFFF -/
abbrev LANE_STATUS_DOWN_COUNT (n : Nat) : Fld := ⟨0x49000008 + 0x1000 * n, 31, 16⟩
/-- WLKn.STATUS.L2_RETRAINS [15:12] RO. L2 exits that needed training; saturates at 0xF -/
abbrev LANE_STATUS_L2_RETRAINS (n : Nat) : Fld := ⟨0x49000008 + 0x1000 * n, 15, 12⟩
/-- WLKn.STATUS.RLB_STATE [11:10] RO. 0 none, 1 pending, 2 accepted, 3 refused -/
abbrev LANE_STATUS_RLB_STATE (n : Nat) : Fld := ⟨0x49000008 + 0x1000 * n, 11, 10⟩
/-- WLKn.STATUS.RLB_ACTIVE [9:9] RO. This lane loops for its partner -/
abbrev LANE_STATUS_RLB_ACTIVE (n : Nat) : Fld := ⟨0x49000008 + 0x1000 * n, 9, 9⟩
/-- WLKn.STATUS.LOOP_TIMED [8:8] RO. Transmitter loop-timed (R277) -/
abbrev LANE_STATUS_LOOP_TIMED (n : Nat) : Fld := ⟨0x49000008 + 0x1000 * n, 8, 8⟩
/-- WLKn.STATUS.PRECODE_RX [7:7] RO. Receiver decodes precoding -/
abbrev LANE_STATUS_PRECODE_RX (n : Nat) : Fld := ⟨0x49000008 + 0x1000 * n, 7, 7⟩
/-- WLKn.STATUS.PRECODE_TX [6:6] RO. Transmitter precodes -/
abbrev LANE_STATUS_PRECODE_TX (n : Nat) : Fld := ⟨0x49000008 + 0x1000 * n, 6, 6⟩
/-- WLKn.STATUS.STATE [3:0] RO. 0 OFF, 1 DOWN, 2 TRAIN, 3 L0, 4 L1, 5 L2, 6 TEST, 7 FAIL -/
abbrev LANE_STATUS_STATE (n : Nat) : Fld := ⟨0x49000008 + 0x1000 * n, 3, 0⟩
/-- WLKn.TXEQ.POST [21:16] RO. Post-cursor magnitude in 1/64, 0–32 -/
abbrev LANE_TXEQ_POST (n : Nat) : Fld := ⟨0x4900000c + 0x1000 * n, 21, 16⟩
/-- WLKn.TXEQ.PRE [12:8] RO. Pre-cursor magnitude in 1/64, 0–16 -/
abbrev LANE_TXEQ_PRE (n : Nat) : Fld := ⟨0x4900000c + 0x1000 * n, 12, 8⟩
/-- WLKn.TXEQ.MAIN [6:0] RO. Main tap in 1/64 -/
abbrev LANE_TXEQ_MAIN (n : Nat) : Fld := ⟨0x4900000c + 0x1000 * n, 6, 0⟩
/-- WLKn.FEC_CORR.COUNT [31:0] RC. Codewords corrected; saturates at 0xFFFF_FFFF -/
abbrev LANE_FEC_CORR_COUNT (n : Nat) : Fld := ⟨0x49000010 + 0x1000 * n, 31, 0⟩
/-- WLKn.FEC_UNCORR.COUNT [31:0] RC. Codewords uncorrectable, or failing parity with FEC off (R281); saturates -/
abbrev LANE_FEC_UNCORR_COUNT (n : Nat) : Fld := ⟨0x49000014 + 0x1000 * n, 31, 0⟩
/-- WLKn.FEC_SYMERR.COUNT [31:0] RC. RS symbols corrected; saturates at 0xFFFF_FFFF -/
abbrev LANE_FEC_SYMERR_COUNT (n : Nat) : Fld := ⟨0x49000018 + 0x1000 * n, 31, 0⟩
/-- WLKn.PAT_CFG.INJECT [24:24] W1S. Inject BURST bit errors (R287); reads 1 while under way -/
abbrev LANE_PAT_CFG_INJECT (n : Nat) : Fld := ⟨0x49000020 + 0x1000 * n, 24, 24⟩
/-- WLKn.PAT_CFG.BURST [23:16] RW. Bits inverted per injection, 1–255 -/
abbrev LANE_PAT_CFG_BURST (n : Nat) : Fld := ⟨0x49000020 + 0x1000 * n, 23, 16⟩
/-- WLKn.PAT_CFG.LOCK [6:6] RO. Checker locked (R286) -/
abbrev LANE_PAT_CFG_LOCK (n : Nat) : Fld := ⟨0x49000020 + 0x1000 * n, 6, 6⟩
/-- WLKn.PAT_CFG.CHK_EN [5:5] RW. Checker on -/
abbrev LANE_PAT_CFG_CHK_EN (n : Nat) : Fld := ⟨0x49000020 + 0x1000 * n, 5, 5⟩
/-- WLKn.PAT_CFG.GEN_EN [4:4] RW. Generator on; subject to R288 -/
abbrev LANE_PAT_CFG_GEN_EN (n : Nat) : Fld := ⟨0x49000020 + 0x1000 * n, 4, 4⟩
/-- WLKn.PAT_CFG.PAT [2:0] RW. Pattern per R286; 0 none -/
abbrev LANE_PAT_CFG_PAT (n : Nat) : Fld := ⟨0x49000020 + 0x1000 * n, 2, 0⟩
/-- WLKn.PAT_ERR.COUNT [31:0] RC. Bits in error since the checker locked; saturates -/
abbrev LANE_PAT_ERR_COUNT (n : Nat) : Fld := ⟨0x49000028 + 0x1000 * n, 31, 0⟩
/-- WLKn.PAT_BITS.COUNT [63:0] RC. Bits checked since lock; a 64-bit access reads coherently -/
abbrev LANE_PAT_BITS_COUNT (n : Nat) : Fld := ⟨0x49000030 + 0x1000 * n, 63, 0⟩
/-- WLKn.MARGIN.EYE [31:30] RO. PAM4 eye reported: 0 lower, 1 middle, 2 upper; 0 in NRZ -/
abbrev LANE_MARGIN_EYE (n : Nat) : Fld := ⟨0x49000038 + 0x1000 * n, 31, 30⟩
/-- WLKn.MARGIN.H [25:16] RO. Horizontal margin in 1/1,000 UI (R290) -/
abbrev LANE_MARGIN_H (n : Nat) : Fld := ⟨0x49000038 + 0x1000 * n, 25, 16⟩
/-- WLKn.MARGIN.V [9:0] RO. Vertical margin in mV -/
abbrev LANE_MARGIN_V (n : Nat) : Fld := ⟨0x49000038 + 0x1000 * n, 9, 0⟩
/-- WLKn.MARGIN_THR.H_MIN [25:16] RW. Horizontal threshold in 1/1,000 UI -/
abbrev LANE_MARGIN_THR_H_MIN (n : Nat) : Fld := ⟨0x4900003c + 0x1000 * n, 25, 16⟩
/-- WLKn.MARGIN_THR.V_MIN [9:0] RW. Vertical threshold in mV -/
abbrev LANE_MARGIN_THR_V_MIN (n : Nat) : Fld := ⟨0x4900003c + 0x1000 * n, 9, 0⟩
/-- WLKn.INT.REFUSED [4:4] W1C. A request was refused -/
abbrev LANE_INT_REFUSED (n : Nat) : Fld := ⟨0x49000040 + 0x1000 * n, 4, 4⟩
/-- WLKn.INT.MARGIN [3:3] W1C. A margin fell below its threshold -/
abbrev LANE_INT_MARGIN (n : Nat) : Fld := ⟨0x49000040 + 0x1000 * n, 3, 3⟩
/-- WLKn.INT.TRAIN_FAIL [2:2] W1C. Three attempts failed (R283) -/
abbrev LANE_INT_TRAIN_FAIL (n : Nat) : Fld := ⟨0x49000040 + 0x1000 * n, 2, 2⟩
/-- WLKn.INT.DOWN [1:1] W1C. Lock lost -/
abbrev LANE_INT_DOWN (n : Nat) : Fld := ⟨0x49000040 + 0x1000 * n, 1, 1⟩
/-- WLKn.INT.UP [0:0] W1C. L0 reached after training -/
abbrev LANE_INT_UP (n : Nat) : Fld := ⟨0x49000040 + 0x1000 * n, 0, 0⟩
/-- WLKn.INT_EN.EN [4:0] RW. Per-bit enable of WLKn.INT to the HOST interrupt controller -/
abbrev LANE_INT_EN_EN (n : Nat) : Fld := ⟨0x49000044 + 0x1000 * n, 4, 0⟩
/-- WLKn.REFUSED.COUNT [15:0] RC. Refused power-state, test, loopback, pattern and injection requests, and lapsed power-state handshakes; sat... -/
abbrev LANE_REFUSED_COUNT (n : Nat) : Fld := ⟨0x49000048 + 0x1000 * n, 15, 0⟩
/-- WLKn.LINKDLY.VALID [31:31] RO. 16 measurements made (R312) -/
abbrev LANE_LINKDLY_VALID (n : Nat) : Fld := ⟨0x49000100 + 0x1000 * n, 31, 31⟩
/-- WLKn.LINKDLY.D [30:0] RO. One-way link delay in ps -/
abbrev LANE_LINKDLY_D (n : Nat) : Fld := ⟨0x49000100 + 0x1000 * n, 30, 0⟩
/-- WLKn.ASYM.ASYM [15:0] RWF. Declared asymmetry in ps, two's complement -/
abbrev LANE_ASYM_ASYM (n : Nat) : Fld := ⟨0x49000104 + 0x1000 * n, 15, 0⟩
/-- WLKn.FRM_ERR.LATE [31:16] RC. CTRL frames late (R303); saturates at 0xFFFF -/
abbrev LANE_FRM_ERR_LATE (n : Nat) : Fld := ⟨0x49000108 + 0x1000 * n, 31, 16⟩
/-- WLKn.FRM_ERR.DISCARD [15:0] RC. Frames discarded (R295); saturates at 0xFFFF -/
abbrev LANE_FRM_ERR_DISCARD (n : Nat) : Fld := ⟨0x49000108 + 0x1000 * n, 15, 0⟩
/-- WLK.PLANT_CFG.LAUNCH [25:16] RWF. Launch offset in µs (R302) -/
abbrev WLK_PLANT_CFG_LAUNCH : Fld := ⟨0x49008000, 25, 16⟩
/-- WLK.PLANT_CFG.PPERIOD [9:0] RWF. Plant period in µs, 10–1,000 (R301) -/
abbrev WLK_PLANT_CFG_PPERIOD : Fld := ⟨0x49008000, 9, 0⟩
/-- WLK.SLOTS.RPT_BASE [31:20] RWF. Worker: first report slot (R304) -/
abbrev WLK_SLOTS_RPT_BASE : Fld := ⟨0x49008004, 31, 20⟩
/-- WLK.SLOTS.REF_BASE [19:8] RWF. Manager: MREF_BASE; worker: WREF_BASE (R302) -/
abbrev WLK_SLOTS_REF_BASE : Fld := ⟨0x49008004, 19, 8⟩
/-- WLK.PLANT_CTRL.RING_RESTORE [1:1] W1S. Restore reversed chains (R318) -/
abbrev WLK_PLANT_CTRL_RING_RESTORE : Fld := ⟨0x49008008, 1, 1⟩
/-- WLK.PLANT_CTRL.DISCOVER [0:0] W1S. Rediscover every chain (R298) -/
abbrev WLK_PLANT_CTRL_DISCOVER : Fld := ⟨0x49008008, 0, 0⟩
/-- WLK.PLANT_STATUS.REPORT_MISS [31:16] RC. Missing reports; saturates at 0xFFFF -/
abbrev WLK_PLANT_STATUS_REPORT_MISS : Fld := ⟨0x4900800c, 31, 16⟩
/-- WLK.PLANT_STATUS.RING [15:12] RO. Per chain: reversed -/
abbrev WLK_PLANT_STATUS_RING : Fld := ⟨0x4900800c, 15, 12⟩
/-- WLK.PLANT_STATUS.DISC_BUSY [11:8] RO. Per chain: discovery running -/
abbrev WLK_PLANT_STATUS_DISC_BUSY : Fld := ⟨0x4900800c, 11, 8⟩
/-- WLK.PLANT_STATUS.LONG_LINK [7:7] RO. A link delay exceeds 150 ns (R316) -/
abbrev WLK_PLANT_STATUS_LONG_LINK : Fld := ⟨0x4900800c, 7, 7⟩
/-- WLK.PLANT_STATUS.WORKERS [4:0] RO. Workers numbered -/
abbrev WLK_PLANT_STATUS_WORKERS : Fld := ⟨0x4900800c, 4, 0⟩
/-- WLK.PENTRYw.EN [31:31] RWF. Entry for worker w (1–31) in use -/
abbrev WLK_PENTRY_EN (w : Nat) : Fld := ⟨0x49008100 + 0x4 * w, 31, 31⟩
/-- WLK.PENTRYw.P4100 [30:30] RWF. Expected part: 0 GWH-7180, 1 GWH-4100 -/
abbrev WLK_PENTRY_P4100 (w : Nat) : Fld := ⟨0x49008100 + 0x4 * w, 30, 30⟩
/-- WLK.PENTRYw.CHAIN [29:28] RWF. Chain 0–3 -/
abbrev WLK_PENTRY_CHAIN (w : Nat) : Fld := ⟨0x49008100 + 0x4 * w, 29, 28⟩
/-- WLK.PENTRYw.POS [27:25] RWF. Position less one -/
abbrev WLK_PENTRY_POS (w : Nat) : Fld := ⟨0x49008100 + 0x4 * w, 27, 25⟩
/-- WLK.PENTRYw.GROUPS [15:0] RWF. Worker groups 0–15 -/
abbrev WLK_PENTRY_GROUPS (w : Nat) : Fld := ⟨0x49008100 + 0x4 * w, 15, 0⟩
/-- WLK.PRESULTw.OUTCOME [31:30] RO. 0 OK, 1 MISSING, 2 EXTRA, 3 MISMATCH (R300) -/
abbrev WLK_PRESULT_OUTCOME (w : Nat) : Fld := ⟨0x49008180 + 0x4 * w, 31, 30⟩
/-- WLK.PRESULTw.CHAIN [29:28] RO. Chain found -/
abbrev WLK_PRESULT_CHAIN (w : Nat) : Fld := ⟨0x49008180 + 0x4 * w, 29, 28⟩
/-- WLK.PRESULTw.POS [27:25] RO. Position found, less one -/
abbrev WLK_PRESULT_POS (w : Nat) : Fld := ⟨0x49008180 + 0x4 * w, 27, 25⟩
/-- WLK.PRESULTw.REVERSED [24:24] RO. Reached by the ring path -/
abbrev WLK_PRESULT_REVERSED (w : Nat) : Fld := ⟨0x49008180 + 0x4 * w, 24, 24⟩
/-- WLK.PRESULTw.PART [15:0] RO. PARTID announced -/
abbrev WLK_PRESULT_PART (w : Nat) : Fld := ⟨0x49008180 + 0x4 * w, 15, 0⟩
/-- WLK.RPTw_j.VALUE [31:0] RO. Manager: report value j (j = 0–3) of worker w (w = 1–31), from its slot RPT_BASE + j (R304) -/
abbrev WLK_RPT_VALUE (w : Nat) (j : Nat) : Fld := ⟨0x49008200 + 0x10 * w + 0x4 * j, 31, 0⟩
/-- WLK.RSTATw.STATUS [35:0] RO. Manager: last status word of worker w (w = 1–31), laid out as R304. A 64-bit access reads it coherently -/
abbrev WLK_RSTAT_STATUS (w : Nat) : Fld := ⟨0x49008600 + 0x8 * w, 35, 0⟩
/-- WLK.REM_TMO.TMO [15:0] RW. Remote timeout in µs, 100–65,535 (R308) -/
abbrev WLK_REM_TMO_TMO : Fld := ⟨0x49008400, 15, 0⟩
/-- WLK.REM_STATUS.LATE [31:24] RC. Responses after timeout; saturates at 0xFF -/
abbrev WLK_REM_STATUS_LATE : Fld := ⟨0x49008404, 31, 24⟩
/-- WLK.REM_STATUS.TIMEOUTS [23:16] RC. Timed-out tags; saturates at 0xFF -/
abbrev WLK_REM_STATUS_TIMEOUTS : Fld := ⟨0x49008404, 23, 16⟩
/-- WLK.REM_STATUS.PARTIAL [8:8] W1C. A broadcast write was not acknowledged by every member -/
abbrev WLK_REM_STATUS_PARTIAL : Fld := ⟨0x49008404, 8, 8⟩
/-- WLK.REM_STATUS.OUTSTANDING [7:0] RO. Tags held, 0–128 -/
abbrev WLK_REM_STATUS_OUTSTANDING : Fld := ⟨0x49008404, 7, 0⟩
/-- WLK.GRP_BASE.BASE [7:0] RW. Worker address bits [31:24] for group windows, 0x40–0x4F (R309) -/
abbrev WLK_GRP_BASE_BASE : Fld := ⟨0x49008408, 7, 0⟩
/-- WLK.BCAST_MISS.WORKERS [31:1] W1C. Bit w: no acknowledgement from worker w -/
abbrev WLK_BCAST_MISS_WORKERS : Fld := ⟨0x4900840c, 31, 1⟩
/-- WLK.CUM_DELAY.PS [31:0] RW. Worker: cumulative delay from the manager in ps (R312) -/
abbrev WLK_CUM_DELAY_PS : Fld := ⟨0x49008410, 31, 0⟩
/-- WLK.ALT_DELAY.PS [31:0] RW. Worker: cumulative delay by the ring path in ps (R317) -/
abbrev WLK_ALT_DELAY_PS : Fld := ⟨0x49008414, 31, 0⟩
/-- WLK.HOPDLY.PS [15:0] RO. Worker: measured hop delay in ps (R297) -/
abbrev WLK_HOPDLY_PS : Fld := ⟨0x49008418, 15, 0⟩
/-- WLK.SYNC_CFG.PTP_FOLLOW [0:0] RWF. Worker: discipline the PTP clock to plant time (R314) -/
abbrev WLK_SYNC_CFG_PTP_FOLLOW : Fld := ⟨0x4900841c, 0, 0⟩
/-- WLK.SYNC_STATUS.LOCKED [31:31] RO. Aligned under R313 -/
abbrev WLK_SYNC_STATUS_LOCKED : Fld := ⟨0x49008420, 31, 31⟩
/-- WLK.SYNC_STATUS.RATE [23:0] RO. Relative frequency in units of 2⁻³² (about 0.23 ppb), two's complement -/
abbrev WLK_SYNC_STATUS_RATE : Fld := ⟨0x49008420, 23, 0⟩
/-- WLK.BULK_WIN.BASE [31:16] RW. Worker: window start as an offset from system SRAM, in 64 KiB -/
abbrev WLK_BULK_WIN_BASE : Fld := ⟨0x49008430, 31, 16⟩
/-- WLK.BULK_WIN.SIZE [15:0] RW. Window size in 64 KiB; 0 closed (R310) -/
abbrev WLK_BULK_WIN_SIZE : Fld := ⟨0x49008430, 15, 0⟩
/-- WLK.BLK_RX_CRC.CRC [31:0] RO. Worker: CRC-32 of the bytes of the last bulk write received -/
abbrev WLK_BLK_RX_CRC_CRC : Fld := ⟨0x49008434, 31, 0⟩
/-- WLK.BLK_LOCAL.ADDR [31:0] RW. Manager: offset from system SRAM; multiple of 8 -/
abbrev WLK_BLK_LOCAL_ADDR : Fld := ⟨0x49008440, 31, 0⟩
/-- WLK.BLK_REMOTE.ADDR [31:0] RW. Manager: offset in the target space; multiple of 8 -/
abbrev WLK_BLK_REMOTE_ADDR : Fld := ⟨0x49008444, 31, 0⟩
/-- WLK.BLK_CTRL.LEN [31:19] RW. Length in 512-byte units, 1–4,096 -/
abbrev WLK_BLK_CTRL_LEN : Fld := ⟨0x49008448, 31, 19⟩
/-- WLK.BLK_CTRL.SPACE [18:16] RW. 0 system SRAM, 1 journal window, 2 capture buffer (reads only for 1 and 2) -/
abbrev WLK_BLK_CTRL_SPACE : Fld := ⟨0x49008448, 18, 16⟩
/-- WLK.BLK_CTRL.SCOPE [15:14] RW. 0 unicast, 1 all workers, 2 group (writes only) -/
abbrev WLK_BLK_CTRL_SCOPE : Fld := ⟨0x49008448, 15, 14⟩
/-- WLK.BLK_CTRL.DST [13:9] RW. Worker or group number -/
abbrev WLK_BLK_CTRL_DST : Fld := ⟨0x49008448, 13, 9⟩
/-- WLK.BLK_CTRL.DIR [1:1] RW. 0 write to workers, 1 read from a worker -/
abbrev WLK_BLK_CTRL_DIR : Fld := ⟨0x49008448, 1, 1⟩
/-- WLK.BLK_CTRL.GO [0:0] W1S. Start; reads 1 while running -/
abbrev WLK_BLK_CTRL_GO : Fld := ⟨0x49008448, 0, 0⟩
/-- WLK.BLK_STATUS.NACKS [31:16] RC. Negatively acknowledged frames; saturates at 0xFFFF -/
abbrev WLK_BLK_STATUS_NACKS : Fld := ⟨0x4900844c, 31, 16⟩
/-- WLK.BLK_STATUS.ERR [1:1] W1C. Transfer ended with lost frames -/
abbrev WLK_BLK_STATUS_ERR : Fld := ⟨0x4900844c, 1, 1⟩
/-- WLK.BLK_STATUS.DONE [0:0] W1C. Transfer ended -/
abbrev WLK_BLK_STATUS_DONE : Fld := ⟨0x4900844c, 0, 0⟩
/-- WLK.BLK_CRC.CRC [31:0] RO. Manager: CRC-32 of the bytes of the last transfer (R310) -/
abbrev WLK_BLK_CRC_CRC : Fld := ⟨0x49008450, 31, 0⟩
/-- WLK.INT.REFUSED [5:5] W1C. A request was refused -/
abbrev WLK_INT_REFUSED : Fld := ⟨0x49008460, 5, 5⟩
/-- WLK.INT.RING [4:4] W1C. A chain reversed -/
abbrev WLK_INT_RING : Fld := ⟨0x49008460, 4, 4⟩
/-- WLK.INT.DISC_DONE [3:3] W1C. A discovery ended -/
abbrev WLK_INT_DISC_DONE : Fld := ⟨0x49008460, 3, 3⟩
/-- WLK.INT.SYNC_LOST [2:2] W1C. LOCKED cleared -/
abbrev WLK_INT_SYNC_LOST : Fld := ⟨0x49008460, 2, 2⟩
/-- WLK.INT.REM_ERR [1:1] W1C. A remote access timed out or partially completed -/
abbrev WLK_INT_REM_ERR : Fld := ⟨0x49008460, 1, 1⟩
/-- WLK.INT.BLK_DONE [0:0] W1C. A bulk transfer ended -/
abbrev WLK_INT_BLK_DONE : Fld := ⟨0x49008460, 0, 0⟩
/-- WLK.INT_EN.EN [5:0] RW. Per-bit enable of WLK.INT to the HOST interrupt controller -/
abbrev WLK_INT_EN_EN : Fld := ⟨0x49008464, 5, 0⟩
/-- WLK.REFUSED.COUNT [15:0] RC. Refused broadcast reads, RING_RESTORE, PTP corrections and bulk starts; saturates at 0xFFFF -/
abbrev WLK_REFUSED_COUNT : Fld := ⟨0x49008468, 15, 0⟩
/-- NET.PTP_CTRL.SET [2:2] W1S. Put the staged PTP_NOW time in force (R326) -/
abbrev NET_PTP_CTRL_SET : Fld := ⟨0x4a000000, 2, 2⟩
/-- NET.PTP_CTRL.CLR_VALID [1:1] W1S. Clear VALID (R327) -/
abbrev NET_PTP_CTRL_CLR_VALID : Fld := ⟨0x4a000000, 1, 1⟩
/-- NET.PTP_CTRL.SET_VALID [0:0] W1S. Set VALID -/
abbrev NET_PTP_CTRL_SET_VALID : Fld := ⟨0x4a000000, 0, 0⟩
/-- NET.PTP_STATUS.REFUSED [31:16] RC. Out-of-range PTP_INC writes; saturates at 0xFFFF -/
abbrev NET_PTP_STATUS_REFUSED : Fld := ⟨0x4a000004, 31, 16⟩
/-- NET.PTP_STATUS.FOLLOW [2:2] RO. Clock disciplined by the WareLink engine (R314) -/
abbrev NET_PTP_STATUS_FOLLOW : Fld := ⟨0x4a000004, 2, 2⟩
/-- NET.PTP_STATUS.STEPPED [1:1] W1C. A step occurred -/
abbrev NET_PTP_STATUS_STEPPED : Fld := ⟨0x4a000004, 1, 1⟩
/-- NET.PTP_STATUS.VALID [0:0] RO. PTP time valid (R327) -/
abbrev NET_PTP_STATUS_VALID : Fld := ⟨0x4a000004, 0, 0⟩
/-- NET.PTP_INC.NS [63:32] RW. Integer ns added per NET cycle; a write to this half, or a 64-bit write, commits -/
abbrev NET_PTP_INC_NS : Fld := ⟨0x4a000008, 63, 32⟩
/-- NET.PTP_INC.FRAC [31:0] RW. Fraction in 2⁻³² ns -/
abbrev NET_PTP_INC_FRAC : Fld := ⟨0x4a000008, 31, 0⟩
/-- NET.PTP_OFS.OFS [31:0] WO. Signed ns step, applied on write -/
abbrev NET_PTP_OFS_OFS : Fld := ⟨0x4a000010, 31, 0⟩
/-- NET.PTP_NOW_NS.NS [29:0] RW. Read: ns of the time, latching PTP_NOW_SEC. Write: staged ns -/
abbrev NET_PTP_NOW_NS_NS : Fld := ⟨0x4a000018, 29, 0⟩
/-- NET.PTP_NOW_SEC.SEC [47:0] RW. Read: seconds latched by the last PTP_NOW_NS read. Write: staged seconds -/
abbrev NET_PTP_NOW_SEC_SEC : Fld := ⟨0x4a000020, 47, 0⟩
/-- NET.PTP_UTC.LI59 [17:17] RW. Last minute of the day has 59 s -/
abbrev NET_PTP_UTC_LI59 : Fld := ⟨0x4a000028, 17, 17⟩
/-- NET.PTP_UTC.LI61 [16:16] RW. Last minute of the day has 61 s -/
abbrev NET_PTP_UTC_LI61 : Fld := ⟨0x4a000028, 16, 16⟩
/-- NET.PTP_UTC.OFFSET [15:0] RW. TAI − UTC in s, two's complement -/
abbrev NET_PTP_UTC_OFFSET : Fld := ⟨0x4a000028, 15, 0⟩
/-- NET.EPOCH_TS.SEC [63:48] RO. Seconds [15:0] of the last MOD epoch (R328) -/
abbrev NET_EPOCH_TS_SEC : Fld := ⟨0x4a000030, 63, 48⟩
/-- NET.EPOCH_TS.NS [45:16] RO. ns -/
abbrev NET_EPOCH_TS_NS : Fld := ⟨0x4a000030, 45, 16⟩
/-- NET.EPOCH_TS.PS [9:0] RO. Sub-ns part in ps, 0–999 -/
abbrev NET_EPOCH_TS_PS : Fld := ⟨0x4a000030, 9, 0⟩
/-- NET.INT.SEC_EXHAUST [5:5] W1C. A transmit SA's PN is exhausted -/
abbrev NET_INT_SEC_EXHAUST : Fld := ⟨0x4a000040, 5, 5⟩
/-- NET.INT.SEC_PN [4:4] W1C. A PN reached PN_THR -/
abbrev NET_INT_SEC_PN : Fld := ⟨0x4a000040, 4, 4⟩
/-- NET.INT.LINK [3:3] W1C. A MAC's link changed -/
abbrev NET_INT_LINK : Fld := ⟨0x4a000040, 3, 3⟩
/-- NET.INT.TSQ_OVF [2:2] W1C. A timestamp was discarded -/
abbrev NET_INT_TSQ_OVF : Fld := ⟨0x4a000040, 2, 2⟩
/-- NET.INT.LQ_FULL [1:1] W1C. An enqueue was refused -/
abbrev NET_INT_LQ_FULL : Fld := ⟨0x4a000040, 1, 1⟩
/-- NET.INT.LQ_LATE [0:0] W1C. A launch was late -/
abbrev NET_INT_LQ_LATE : Fld := ⟨0x4a000040, 0, 0⟩
/-- NET.INT_EN.EN [5:0] RW. Per-bit enable of NET.INT to the HOST interrupt controller -/
abbrev NET_INT_EN_EN : Fld := ⟨0x4a000044, 5, 0⟩
/-- MACm.CFG.EN [31:31] RW. MAC enabled (R322) -/
abbrev MAC_CFG_EN (n : Nat) : Fld := ⟨0x4a001000 + 0x1000 * n, 31, 31⟩
/-- MACm.CFG.MODE [30:28] RW. Interface per R321; 5–7 refused -/
abbrev MAC_CFG_MODE (n : Nat) : Fld := ⟨0x4a001000 + 0x1000 * n, 30, 28⟩
/-- MACm.CFG.SPEED [27:26] RW. MODE 0 and 1 without negotiation: 0 10, 1 100, 2 1000 Mb/s -/
abbrev MAC_CFG_SPEED (n : Nat) : Fld := ⟨0x4a001000 + 0x1000 * n, 27, 26⟩
/-- MACm.CFG.AN [25:25] RW. Auto-negotiation on -/
abbrev MAC_CFG_AN (n : Nat) : Fld := ⟨0x4a001000 + 0x1000 * n, 25, 25⟩
/-- MACm.CFG.PAUSE [24:24] RW. IEEE 802.3x PAUSE honoured and sent -/
abbrev MAC_CFG_PAUSE (n : Nat) : Fld := ⟨0x4a001000 + 0x1000 * n, 24, 24⟩
/-- MACm.CFG.MAXLEN [23:10] RW. Longest frame in bytes, 1,518–9,216; the reset value is 1,518. Other values refused -/
abbrev MAC_CFG_MAXLEN (n : Nat) : Fld := ⟨0x4a001000 + 0x1000 * n, 23, 10⟩
/-- MACm.CFG.KICK [0:0] W1S. Look again at both rings (R323) -/
abbrev MAC_CFG_KICK (n : Nat) : Fld := ⟨0x4a001000 + 0x1000 * n, 0, 0⟩
/-- MACm.STATUS.REFUSED [31:16] RC. Refused CFG writes; saturates at 0xFFFF -/
abbrev MAC_STATUS_REFUSED (n : Nat) : Fld := ⟨0x4a001004 + 0x1000 * n, 31, 16⟩
/-- MACm.STATUS.RATE [2:1] RO. 0 10 Mb/s, 1 100 Mb/s, 2 1 Gb/s, 3 2.5 or 10 Gb/s -/
abbrev MAC_STATUS_RATE (n : Nat) : Fld := ⟨0x4a001004 + 0x1000 * n, 2, 1⟩
/-- MACm.STATUS.LINK [0:0] RO. Link up -/
abbrev MAC_STATUS_LINK (n : Nat) : Fld := ⟨0x4a001004 + 0x1000 * n, 0, 0⟩
/-- MACm.RINGr.BASE [31:16] RW. Ring r (0 transmit, 1 receive) offset from system SRAM in 256-byte units -/
abbrev MAC_RING_BASE (n : Nat) (r : Nat) : Fld := ⟨0x4a001010 + 0x1000 * n + 0x4 * r, 31, 16⟩
/-- MACm.RINGr.COUNT [10:0] RW. Descriptors, 16–1,024; writable while EN = 0 -/
abbrev MAC_RING_COUNT (n : Nat) (r : Nat) : Fld := ⟨0x4a001010 + 0x1000 * n + 0x4 * r, 10, 0⟩
/-- MACm.LQ_ADDR.ADDR [31:0] RW. Frame offset from system SRAM (R330) -/
abbrev MAC_LQ_ADDR_ADDR (n : Nat) : Fld := ⟨0x4a001020 + 0x1000 * n, 31, 0⟩
/-- MACm.LQ_TIME.SEC [63:32] RW. Launch seconds [31:0] -/
abbrev MAC_LQ_TIME_SEC (n : Nat) : Fld := ⟨0x4a001028 + 0x1000 * n, 63, 32⟩
/-- MACm.LQ_TIME.NS [29:0] RW. Launch ns -/
abbrev MAC_LQ_TIME_NS (n : Nat) : Fld := ⟨0x4a001028 + 0x1000 * n, 29, 0⟩
/-- MACm.LQ_CMD.FLUSH [31:31] WO. Discard every entry -/
abbrev MAC_LQ_CMD_FLUSH (n : Nat) : Fld := ⟨0x4a001030 + 0x1000 * n, 31, 31⟩
/-- MACm.LQ_CMD.TS_REQ [30:30] WO. Return a transmit timestamp -/
abbrev MAC_LQ_CMD_TS_REQ (n : Nat) : Fld := ⟨0x4a001030 + 0x1000 * n, 30, 30⟩
/-- MACm.LQ_CMD.LEN [26:16] WO. Frame length, 60–1,522; the write commits the entry -/
abbrev MAC_LQ_CMD_LEN (n : Nat) : Fld := ⟨0x4a001030 + 0x1000 * n, 26, 16⟩
/-- MACm.LQ_CMD.ID [15:0] WO. Timestamp identifier -/
abbrev MAC_LQ_CMD_ID (n : Nat) : Fld := ⟨0x4a001030 + 0x1000 * n, 15, 0⟩
/-- MACm.LQ_STATUS.DROPPED [31:24] RC. Entries discarded with the link down; saturates at 0xFF -/
abbrev MAC_LQ_STATUS_DROPPED (n : Nat) : Fld := ⟨0x4a001034 + 0x1000 * n, 31, 24⟩
/-- MACm.LQ_STATUS.LATE [23:16] RC. Late launches; saturates at 0xFF -/
abbrev MAC_LQ_STATUS_LATE (n : Nat) : Fld := ⟨0x4a001034 + 0x1000 * n, 23, 16⟩
/-- MACm.LQ_STATUS.REFUSED [15:11] RC. Refused commits; saturates at 0x1F -/
abbrev MAC_LQ_STATUS_REFUSED (n : Nat) : Fld := ⟨0x4a001034 + 0x1000 * n, 15, 11⟩
/-- MACm.LQ_STATUS.LEVEL [10:0] RO. Entries queued, 0–1,024 -/
abbrev MAC_LQ_STATUS_LEVEL (n : Nat) : Fld := ⟨0x4a001034 + 0x1000 * n, 10, 0⟩
/-- MACm.TSQ_ENTRY.EMPTY [63:63] RO. Queue was empty -/
abbrev MAC_TSQ_ENTRY_EMPTY (n : Nat) : Fld := ⟨0x4a001040 + 0x1000 * n, 63, 63⟩
/-- MACm.TSQ_ENTRY.ID [47:32] RO. Identifier (R331) -/
abbrev MAC_TSQ_ENTRY_ID (n : Nat) : Fld := ⟨0x4a001040 + 0x1000 * n, 47, 32⟩
/-- MACm.TSQ_ENTRY.NS [29:0] RO. ns; seconds [15:0] in TSQ_STATUS.SEC -/
abbrev MAC_TSQ_ENTRY_NS (n : Nat) : Fld := ⟨0x4a001040 + 0x1000 * n, 29, 0⟩
/-- MACm.TSQ_STATUS.SEC [31:16] RO. Seconds [15:0] of the entry latched by the last TSQ_ENTRY read -/
abbrev MAC_TSQ_STATUS_SEC (n : Nat) : Fld := ⟨0x4a001048 + 0x1000 * n, 31, 16⟩
/-- MACm.TSQ_STATUS.OVF_COUNT [15:8] RC. Discarded timestamps; saturates at 0xFF -/
abbrev MAC_TSQ_STATUS_OVF_COUNT (n : Nat) : Fld := ⟨0x4a001048 + 0x1000 * n, 15, 8⟩
/-- MACm.TSQ_STATUS.OVF [7:7] W1C. A timestamp was discarded -/
abbrev MAC_TSQ_STATUS_OVF (n : Nat) : Fld := ⟨0x4a001048 + 0x1000 * n, 7, 7⟩
/-- MACm.TSQ_STATUS.LEVEL [4:0] RO. Entries queued, 0–16 -/
abbrev MAC_TSQ_STATUS_LEVEL (n : Nat) : Fld := ⟨0x4a001048 + 0x1000 * n, 4, 0⟩
/-- MACm.SEC_CFG.BYPASS_ETYPE [31:16] RW. EtherType passed unprotected; 0 none -/
abbrev MAC_SEC_CFG_BYPASS_ETYPE (n : Nat) : Fld := ⟨0x4a001050 + 0x1000 * n, 31, 16⟩
/-- MACm.SEC_CFG.DROPS [15:8] RC. Frames discarded for PN exhaustion; saturates at 0xFF -/
abbrev MAC_SEC_CFG_DROPS (n : Nat) : Fld := ⟨0x4a001050 + 0x1000 * n, 15, 8⟩
/-- MACm.SEC_CFG.PN_THR [7:5] RW. PN threshold in eighths of the maximum; 0 off -/
abbrev MAC_SEC_CFG_PN_THR (n : Nat) : Fld := ⟨0x4a001050 + 0x1000 * n, 7, 5⟩
/-- MACm.SEC_CFG.VALIDATE [4:3] RW. 0 Disabled, 1 Check, 2 Strict -/
abbrev MAC_SEC_CFG_VALIDATE (n : Nat) : Fld := ⟨0x4a001050 + 0x1000 * n, 4, 3⟩
/-- MACm.SEC_CFG.OFFSET [2:1] RW. 0 none, 1 30 bytes, 2 50 bytes, 3 integrity only -/
abbrev MAC_SEC_CFG_OFFSET (n : Nat) : Fld := ⟨0x4a001050 + 0x1000 * n, 2, 1⟩
/-- MACm.SEC_CFG.XPN [0:0] RW. 0 GCM-AES-256, 1 GCM-AES-XPN-256 -/
abbrev MAC_SEC_CFG_XPN (n : Nat) : Fld := ⟨0x4a001050 + 0x1000 * n, 0, 0⟩
/-- SAG.STATUS.DEBUG [11:10] RO. Open debug scope (R351) -/
abbrev SAG_STATUS_DEBUG : Fld := ⟨0x4b000000, 11, 10⟩
/-- SAG.STATUS.GLZ_SLOT [9:9] RO. Active Glaze slot: 0 A, 1 B -/
abbrev SAG_STATUS_GLZ_SLOT : Fld := ⟨0x4b000000, 9, 9⟩
/-- SAG.STATUS.FW_SLOT [8:8] RO. Slot that booted: 0 A, 1 B -/
abbrev SAG_STATUS_FW_SLOT : Fld := ⟨0x4b000000, 8, 8⟩
/-- SAG.STATUS.LOCKED [7:7] RO. LOCK response in force (R353) -/
abbrev SAG_STATUS_LOCKED : Fld := ⟨0x4b000000, 7, 7⟩
/-- SAG.STATUS.READY [6:6] RO. Attestation tree state ready (R347) -/
abbrev SAG_STATUS_READY : Fld := ⟨0x4b000000, 6, 6⟩
/-- SAG.STATUS.APPROVED [5:5] RO. Approved mode (R336) -/
abbrev SAG_STATUS_APPROVED : Fld := ⟨0x4b000000, 5, 5⟩
/-- SAG.STATUS.SELFTEST_OK [4:4] RO. Self-tests passed -/
abbrev SAG_STATUS_SELFTEST_OK : Fld := ⟨0x4b000000, 4, 4⟩
/-- SAG.STATUS.LIFECYCLE [3:0] RO. 0x1 UNOWNED, 0x2 OWNED, 0x3 ZEROISED, 0x4 ERROR -/
abbrev SAG_STATUS_LIFECYCLE : Fld := ⟨0x4b000000, 3, 0⟩
/-- SAG.CMD.GO [31:31] W1S. Start the service -/
abbrev SAG_CMD_GO : Fld := ⟨0x4b000004, 31, 31⟩
/-- SAG.CMD.LEN [21:8] RW. Request length in bytes, 0–8,192 -/
abbrev SAG_CMD_LEN : Fld := ⟨0x4b000004, 21, 8⟩
/-- SAG.CMD.SERVICE [7:0] RW. Service ID (R349) -/
abbrev SAG_CMD_SERVICE : Fld := ⟨0x4b000004, 7, 0⟩
/-- SAG.RESULT.BUSY [31:31] RO. Service running -/
abbrev SAG_RESULT_BUSY : Fld := ⟨0x4b000008, 31, 31⟩
/-- SAG.RESULT.RSP_LEN [21:8] RO. Response length in bytes -/
abbrev SAG_RESULT_RSP_LEN : Fld := ⟨0x4b000008, 21, 8⟩
/-- SAG.RESULT.CODE [7:0] RO. Result code (R349) -/
abbrev SAG_RESULT_CODE : Fld := ⟨0x4b000008, 7, 0⟩
/-- SAG.INT.ZEROISED [2:2] W1C. Zeroisation under way (R354) -/
abbrev SAG_INT_ZEROISED : Fld := ⟨0x4b00000c, 2, 2⟩
/-- SAG.INT.TAMPER [1:1] W1C. A tamper event occurred -/
abbrev SAG_INT_TAMPER : Fld := ⟨0x4b00000c, 1, 1⟩
/-- SAG.INT.DONE [0:0] W1C. A service ended -/
abbrev SAG_INT_DONE : Fld := ⟨0x4b00000c, 0, 0⟩
/-- SAG.INT_EN.EN [2:0] RW. Per-bit enable of SAG.INT to the HOST interrupt controller -/
abbrev SAG_INT_EN_EN : Fld := ⟨0x4b000010, 2, 0⟩
/-- SAG.REFUSED.COUNT [15:0] RC. Refused GO writes and flash commands; saturates at 0xFFFF -/
abbrev SAG_REFUSED_COUNT : Fld := ⟨0x4b000014, 15, 0⟩
/-- SAG.TAMPER.COUNT [31:16] RO. Tamper events since manufacture; saturates at 0xFFFF -/
abbrev SAG_TAMPER_COUNT : Fld := ⟨0x4b000018, 31, 16⟩
/-- SAG.TAMPER.EVENT [3:0] W1C. Per sensor: [0] mesh, [1] temperature, [2] voltage, [3] clock glitch -/
abbrev SAG_TAMPER_EVENT : Fld := ⟨0x4b000018, 3, 0⟩
/-- SAG.ROLLBACK_FW.VALUE [31:0] RO. FW_ROLLBACK (R345) -/
abbrev SAG_ROLLBACK_FW_VALUE : Fld := ⟨0x4b000020, 31, 0⟩
/-- SAG.ROLLBACK_GLZ.VALUE [31:0] RO. GLZ_ROLLBACK -/
abbrev SAG_ROLLBACK_GLZ_VALUE : Fld := ⟨0x4b000024, 31, 0⟩
/-- SAG.ATTEST_NEXT.EXHAUSTED [31:31] RO. Last index used -/
abbrev SAG_ATTEST_NEXT_EXHAUSTED : Fld := ⟨0x4b000028, 31, 31⟩
/-- SAG.ATTEST_NEXT.NEXT [24:0] RO. Index of the next DEV signature (R348) -/
abbrev SAG_ATTEST_NEXT_NEXT : Fld := ⟨0x4b000028, 24, 0⟩
/-- PUG.CFG.CELL_EN [10:10] RW. VBAT may supply the island (R360) -/
abbrev PUG_CFG_CELL_EN : Fld := ⟨0x4b800000, 10, 10⟩
/-- PUG.CFG.TOPUP_EN [9:9] RW. Top-up from VAUX (R359) -/
abbrev PUG_CFG_TOPUP_EN : Fld := ⟨0x4b800000, 9, 9⟩
/-- PUG.CFG.HARV_EN [8:8] RW. Harvesting enabled (R358) -/
abbrev PUG_CFG_HARV_EN : Fld := ⟨0x4b800000, 8, 8⟩
/-- PUG.CFG.K [6:0] RW. Tracking fraction in 0.01, 40–80; other writes refused -/
abbrev PUG_CFG_K : Fld := ⟨0x4b800000, 6, 0⟩
/-- PUG.THR.TOP [31:24] RW. Top-up level in steps of 0.05 V -/
abbrev PUG_THR_TOP : Fld := ⟨0x4b800004, 31, 24⟩
/-- PUG.THR.XMIT [23:16] RW. In steps of 0.05 V (R362) -/
abbrev PUG_THR_XMIT : Fld := ⟨0x4b800004, 23, 16⟩
/-- PUG.THR.MEAS [15:8] RW. In steps of 0.05 V -/
abbrev PUG_THR_MEAS : Fld := ⟨0x4b800004, 15, 8⟩
/-- PUG.THR.ABORT [7:0] RW. In steps of 0.05 V -/
abbrev PUG_THR_ABORT : Fld := ⟨0x4b800004, 7, 0⟩
/-- PUG.STATUS.REFUSED [23:16] RC. Refused CFG and THR writes; saturates at 0xFF -/
abbrev PUG_STATUS_REFUSED : Fld := ⟨0x4b800008, 23, 16⟩
/-- PUG.STATUS.LG [6:5] RO. 0 idle, 1 pending, 2 sending -/
abbrev PUG_STATUS_LG : Fld := ⟨0x4b800008, 6, 5⟩
/-- PUG.STATUS.VBAT_LOW [4:4] RO. VBAT below 2.2 V -/
abbrev PUG_STATUS_VBAT_LOW : Fld := ⟨0x4b800008, 4, 4⟩
/-- PUG.STATUS.COLD [3:3] RO. Cold-start mode (R357) -/
abbrev PUG_STATUS_COLD : Fld := ⟨0x4b800008, 3, 3⟩
/-- PUG.STATUS.HARVEST [2:2] RO. Harvest present (R358) -/
abbrev PUG_STATUS_HARVEST : Fld := ⟨0x4b800008, 2, 2⟩
/-- PUG.STATUS.SOURCE [1:0] RO. 0 VAUX, 1 store, 2 VBAT -/
abbrev PUG_STATUS_SOURCE : Fld := ⟨0x4b800008, 1, 0⟩
/-- PUG.LEVELS.VOC [31:16] RO. Last open-circuit peak in mV -/
abbrev PUG_LEVELS_VOC : Fld := ⟨0x4b80000c, 31, 16⟩
/-- PUG.LEVELS.STORE [15:0] RO. Store voltage in mV -/
abbrev PUG_LEVELS_STORE : Fld := ⟨0x4b80000c, 15, 0⟩
/-- PUG.LG_CFG.HEARTBEAT [31:24] RW. Hours between heartbeats without VAUX; 0 off -/
abbrev PUG_LG_CFG_HEARTBEAT : Fld := ⟨0x4b800010, 31, 24⟩
/-- PUG.LG_CFG.BAUD [18:16] RW. 0 9,600, 1 19,200, 2 38,400, 3 57,600, 4 115,200 bit/s -/
abbrev PUG_LG_CFG_BAUD : Fld := ⟨0x4b800010, 18, 16⟩
/-- PUG.LG_CFG.WARMUP [15:8] RW. ms, 0–255 -/
abbrev PUG_LG_CFG_WARMUP : Fld := ⟨0x4b800010, 15, 8⟩
/-- PUG.LG_CFG.ON_TAMPER [1:1] RW. Trigger on a LOG or LOCK tamper event -/
abbrev PUG_LG_CFG_ON_TAMPER : Fld := ⟨0x4b800010, 1, 1⟩
/-- PUG.LG_CFG.ON_PF [0:0] RW. Trigger on loss of VAUX -/
abbrev PUG_LG_CFG_ON_PF : Fld := ⟨0x4b800010, 0, 0⟩
/-- PUG.INT.VBAT_LOW [3:3] W1C. VBAT fell below 2.2 V -/
abbrev PUG_INT_VBAT_LOW : Fld := ⟨0x4b800014, 3, 3⟩
/-- PUG.INT.SOURCE [2:2] W1C. The island's source changed -/
abbrev PUG_INT_SOURCE : Fld := ⟨0x4b800014, 2, 2⟩
/-- PUG.INT.LG_INCOMPLETE [1:1] W1C. A burst ended at ABORT -/
abbrev PUG_INT_LG_INCOMPLETE : Fld := ⟨0x4b800014, 1, 1⟩
/-- PUG.INT.LG_DONE [0:0] W1C. A message was sent -/
abbrev PUG_INT_LG_DONE : Fld := ⟨0x4b800014, 0, 0⟩
/-- PUG.INT_EN.EN [3:0] RW. Per-bit enable of PUG.INT to the HOST interrupt controller -/
abbrev PUG_INT_EN_EN : Fld := ⟨0x4b800018, 3, 0⟩
/-- PWR.STATUS.RAIL_GOOD [12:8] RO. Live supervisor state: bits [8] VIO33, [9] VANA, [10] VIO18, [11] VSRAM, [12] VCORE; 0x1F whenever the HOST... -/
abbrev PWR_STATUS_RAIL_GOOD : Fld := ⟨0x4c000000, 12, 8⟩
/-- PWR.STATUS.GP_ON [6:6] RO. Gate-power converter running -/
abbrev PWR_STATUS_GP_ON : Fld := ⟨0x4c000000, 6, 6⟩
/-- PWR.STATUS.VAUX_HIGH [5:5] RO. VAUX above 48 V (R367) -/
abbrev PWR_STATUS_VAUX_HIGH : Fld := ⟨0x4c000000, 5, 5⟩
/-- PWR.STATUS.DERATED [4:4] RO. Gate power limited to 6.6 W -/
abbrev PWR_STATUS_DERATED : Fld := ⟨0x4c000000, 4, 4⟩
/-- PWR.STATUS.PF [3:3] RO. VAUX below PF_WARN (R375) -/
abbrev PWR_STATUS_PF : Fld := ⟨0x4c000000, 3, 3⟩
/-- PWR.STATUS.STANDBY [2:2] RO. HOST cores in standby -/
abbrev PWR_STATUS_STANDBY : Fld := ⟨0x4c000000, 2, 2⟩
/-- PWR.STATUS.VAUX_OK [0:0] RO. VAUX valid (R368) -/
abbrev PWR_STATUS_VAUX_OK : Fld := ⟨0x4c000000, 0, 0⟩
/-- PWR.CTRL.STANDBY [1:1] W1S. Enter standby (R379) -/
abbrev PWR_CTRL_STANDBY : Fld := ⟨0x4c000004, 1, 1⟩
/-- PWR.CTRL.RESET [0:0] W1S. Orderly reset with cause FIRMWARE (R372) -/
abbrev PWR_CTRL_RESET : Fld := ⟨0x4c000004, 0, 0⟩
/-- PWR.PF_WARN.THR [7:0] RW. Threshold in steps of 0.25 V, 20–144 (5.0–36.0 V); others refused -/
abbrev PWR_PF_WARN_THR : Fld := ⟨0x4c000008, 7, 0⟩
/-- PWR.GP_CTRL.EN [0:0] RW. Gate-power converter enabled (R370) -/
abbrev PWR_GP_CTRL_EN : Fld := ⟨0x4c00000c, 0, 0⟩
/-- PWR.GP_LOAD.MW [15:0] RO. Delivered gate power, mW, 1 ms mean -/
abbrev PWR_GP_LOAD_MW : Fld := ⟨0x4c000010, 15, 0⟩
/-- PWR.VAUX.MV [15:0] RO. VAUX in mV, ±1 %, updated every 10 µs -/
abbrev PWR_VAUX_MV : Fld := ⟨0x4c000014, 15, 0⟩
/-- PWR.TEMP.TEMP [15:0] RO. Controller-die temperature, two's complement, in steps of 0.125 °C -/
abbrev PWR_TEMP_TEMP : Fld := ⟨0x4c000018, 15, 0⟩
/-- PWR.RESET_CAUSE.CAUSE [7:0] RO. Code of the last reset (R372) -/
abbrev PWR_RESET_CAUSE_CAUSE : Fld := ⟨0x4c00001c, 7, 0⟩
/-- PWR.BOOT_COUNT.COUNT [31:0] RO. Resets since manufacture; saturates at 0xFFFF_FFFF -/
abbrev PWR_BOOT_COUNT_COUNT : Fld := ⟨0x4c000020, 31, 0⟩
/-- PWR.WDOG_CFG.EN [31:31] W1S. Start the watchdog; reads 1 once started, and is cleared only by reset (R374) -/
abbrev PWR_WDOG_CFG_EN : Fld := ⟨0x4c000024, 31, 31⟩
/-- PWR.WDOG_CFG.TMO [15:0] RW. Interval in ms, 1–65,535; writable while EN = 0 -/
abbrev PWR_WDOG_CFG_TMO : Fld := ⟨0x4c000024, 15, 0⟩
/-- PWR.WDOG_KICK.KEY [31:0] WO. 0x0000_5A5A then 0x0000_A5A5 restarts the interval (R374) -/
abbrev PWR_WDOG_KICK_KEY : Fld := ⟨0x4c000028, 31, 0⟩
/-- PWR.INT.HOT [4:4] W1C. Die at or above 125 °C -/
abbrev PWR_INT_HOT : Fld := ⟨0x4c00002c, 4, 4⟩
/-- PWR.INT.WDOG_HALF [3:3] W1C. Half the watchdog interval passed -/
abbrev PWR_INT_WDOG_HALF : Fld := ⟨0x4c00002c, 3, 3⟩
/-- PWR.INT.DERATED [2:2] W1C. Gate power derated -/
abbrev PWR_INT_DERATED : Fld := ⟨0x4c00002c, 2, 2⟩
/-- PWR.INT.PF_CLEAR [1:1] W1C. VAUX back above PF_WARN + 0.5 V -/
abbrev PWR_INT_PF_CLEAR : Fld := ⟨0x4c00002c, 1, 1⟩
/-- PWR.INT.PF [0:0] W1C. VAUX fell below PF_WARN -/
abbrev PWR_INT_PF : Fld := ⟨0x4c00002c, 0, 0⟩
/-- PWR.INT_EN.EN [4:0] RW. Per-bit enable of PWR.INT to the HOST interrupt controller -/
abbrev PWR_INT_EN_EN : Fld := ⟨0x4c000030, 4, 0⟩
/-- PWR.REFUSED.COUNT [15:0] RC. Refused GP_CTRL, PF_WARN and STANDBY writes; saturates at 0xFFFF -/
abbrev PWR_REFUSED_COUNT : Fld := ⟨0x4c000034, 15, 0⟩
/-- GRG.CFG.LIVE_AUTO [2:2] RW. 1: commit CORE verdicts automatically (R386) -/
abbrev GRG_CFG_LIVE_AUTO : Fld := ⟨0x4d000000, 2, 2⟩
/-- GRG.CFG.DIAG_AUTO [1:1] RW. 1: diagnose every sensor flag -/
abbrev GRG_CFG_DIAG_AUTO : Fld := ⟨0x4d000000, 1, 1⟩
/-- GRG.CFG.AUTO_HARD [0:0] RW. 1: add entries for hard faults (R382) -/
abbrev GRG_CFG_AUTO_HARD : Fld := ⟨0x4d000000, 0, 0⟩
/-- GRG.CMD.GO [31:31] W1S. Start the command -/
abbrev GRG_CMD_GO : Fld := ⟨0x4d000004, 31, 31⟩
/-- GRG.CMD.SUB [23:16] RW. Segment, row or column within the instance; proposal place for COMMIT and DISMISS -/
abbrev GRG_CMD_SUB : Fld := ⟨0x4d000004, 23, 16⟩
/-- GRG.CMD.INSTANCE [15:8] RW. Physical resource, or logical core for DIAGNOSE -/
abbrev GRG_CMD_INSTANCE : Fld := ⟨0x4d000004, 15, 8⟩
/-- GRG.CMD.KIND [7:4] RW. Kind (R381) -/
abbrev GRG_CMD_KIND : Fld := ⟨0x4d000004, 7, 4⟩
/-- GRG.CMD.OP [3:0] RW. 1 COMMIT, 2 DISMISS, 3 RETIRE, 4 DIAGNOSE; others refused -/
abbrev GRG_CMD_OP : Fld := ⟨0x4d000004, 3, 0⟩
/-- GRG.STATUS.PROP_LOST [31:24] RC. Refused proposals (R387); saturates at 0xFF -/
abbrev GRG_STATUS_PROP_LOST : Fld := ⟨0x4d000008, 31, 24⟩
/-- GRG.STATUS.MAP_COUNT [23:15] RO. Map entries, 0–256 -/
abbrev GRG_STATUS_MAP_COUNT : Fld := ⟨0x4d000008, 23, 15⟩
/-- GRG.STATUS.DIAG_STATE [14:12] RO. 0 idle, 1 running, 2 deferred, 3 done, 4 aborted -/
abbrev GRG_STATUS_DIAG_STATE : Fld := ⟨0x4d000008, 14, 12⟩
/-- GRG.STATUS.PROP_LEVEL [11:8] RO. Proposals queued, 0–8 -/
abbrev GRG_STATUS_PROP_LEVEL : Fld := ⟨0x4d000008, 11, 8⟩
/-- GRG.STATUS.RESULT [2:1] RO. Last command: 0b00 none, 0b01 done, 0b10 refused -/
abbrev GRG_STATUS_RESULT : Fld := ⟨0x4d000008, 2, 1⟩
/-- GRG.STATUS.BUSY [0:0] RO. A command is running -/
abbrev GRG_STATUS_BUSY : Fld := ⟨0x4d000008, 0, 0⟩
/-- GRG.SPARES.SEGMENTS [31:14] RO. Bit 14 + 2n + c: spare segment of tile n (0–8), channel c, free -/
abbrev GRG_SPARES_SEGMENTS : Fld := ⟨0x4d00000c, 31, 14⟩
/-- GRG.SPARES.FRAM [13:10] RO. Free ferroelectric sectors, 0–8 -/
abbrev GRG_SPARES_FRAM : Fld := ⟨0x4d00000c, 13, 10⟩
/-- GRG.SPARES.WIN [9:7] RO. Free comparators, 0–4 -/
abbrev GRG_SPARES_WIN : Fld := ⟨0x4d00000c, 9, 7⟩
/-- GRG.SPARES.MET [6:6] RO. MX free -/
abbrev GRG_SPARES_MET : Fld := ⟨0x4d00000c, 6, 6⟩
/-- GRG.SPARES.ADC [5:4] RO. Free SAR converters, 0–2 -/
abbrev GRG_SPARES_ADC : Fld := ⟨0x4d00000c, 5, 4⟩
/-- GRG.SPARES.WHEEL [3:1] RO. Free Wheel cells, 0–4 -/
abbrev GRG_SPARES_WHEEL : Fld := ⟨0x4d00000c, 3, 1⟩
/-- GRG.PROPp.VALID [31:31] RO. Place p (0–7) holds a proposal -/
abbrev GRG_PROP_VALID (p : Nat) : Fld := ⟨0x4d000040 + 0x4 * p, 31, 31⟩
/-- GRG.PROPp.REASON [30:28] RO. 1 worn, 2 diagnosis CORE -/
abbrev GRG_PROP_REASON (p : Nat) : Fld := ⟨0x4d000040 + 0x4 * p, 30, 28⟩
/-- GRG.PROPp.KIND [27:24] RO. Kind -/
abbrev GRG_PROP_KIND (p : Nat) : Fld := ⟨0x4d000040 + 0x4 * p, 27, 24⟩
/-- GRG.PROPp.SUB [23:16] RO. Segment, row or column -/
abbrev GRG_PROP_SUB (p : Nat) : Fld := ⟨0x4d000040 + 0x4 * p, 23, 16⟩
/-- GRG.PROPp.INSTANCE [15:8] RO. Physical resource -/
abbrev GRG_PROP_INSTANCE (p : Nat) : Fld := ⟨0x4d000040 + 0x4 * p, 15, 8⟩
/-- GRG.MONk.WORST [31:0] RO. float32, worst value of monitor k (0–6, in the row order of R385), in its unit -/
abbrev GRG_MON_WORST (k : Nat) : Fld := ⟨0x4d000100 + 0x4 * k, 31, 0⟩
/-- GRG.MAPe.VALID [31:31] RO. Entry e (0–255) in use -/
abbrev GRG_MAP_VALID (e : Nat) : Fld := ⟨0x4d001000 + 0x4 * e, 31, 31⟩
/-- GRG.MAPe.AUTO [30:30] RO. Added for a hard fault -/
abbrev GRG_MAP_AUTO (e : Nat) : Fld := ⟨0x4d001000 + 0x4 * e, 30, 30⟩
/-- GRG.MAPe.KIND [27:24] RO. Kind -/
abbrev GRG_MAP_KIND (e : Nat) : Fld := ⟨0x4d001000 + 0x4 * e, 27, 24⟩
/-- GRG.MAPe.SUB [23:16] RO. Segment, row or column -/
abbrev GRG_MAP_SUB (e : Nat) : Fld := ⟨0x4d001000 + 0x4 * e, 23, 16⟩
/-- GRG.MAPe.RETIRED [15:8] RO. Retired physical resource -/
abbrev GRG_MAP_RETIRED (e : Nat) : Fld := ⟨0x4d001000 + 0x4 * e, 15, 8⟩
/-- GRG.MAPe.REPL [7:0] RO. Replacement; 0xFF none -/
abbrev GRG_MAP_REPL (e : Nat) : Fld := ⟨0x4d001000 + 0x4 * e, 7, 0⟩
/-- GRG.INT.SPARES_LOW [4:4] W1C. A kind has one spare or none left -/
abbrev GRG_INT_SPARES_LOW : Fld := ⟨0x4d000020, 4, 4⟩
/-- GRG.INT.DIAG_DONE [3:3] W1C. A diagnosis ended -/
abbrev GRG_INT_DIAG_DONE : Fld := ⟨0x4d000020, 3, 3⟩
/-- GRG.INT.MAP_ADD [2:2] W1C. A map entry was added -/
abbrev GRG_INT_MAP_ADD : Fld := ⟨0x4d000020, 2, 2⟩
/-- GRG.INT.PROPOSAL [1:1] W1C. A proposal was queued -/
abbrev GRG_INT_PROPOSAL : Fld := ⟨0x4d000020, 1, 1⟩
/-- GRG.INT.WARN [0:0] W1C. A monitor crossed WARN -/
abbrev GRG_INT_WARN : Fld := ⟨0x4d000020, 0, 0⟩
/-- GRG.INT_EN.EN [4:0] RW. Per-bit enable of GRG.INT to the HOST interrupt controller -/
abbrev GRG_INT_EN_EN : Fld := ⟨0x4d000024, 4, 0⟩
/-- GRG.REFUSED.COUNT [15:0] RC. Refused commands (R388); saturates at 0xFFFF -/
abbrev GRG_REFUSED_COUNT : Fld := ⟨0x4d000028, 15, 0⟩
/-- CON.CFG.CAP_STOP [23:16] RW. Sources, as the SOURCE bits of R392, that stop the capture -/
abbrev CON_CFG_CAP_STOP : Fld := ⟨0x4e000000, 23, 16⟩
/-- CON.CFG.OUT_EN [13:13] RW. Drive CONE_OUT (R393) -/
abbrev CON_CFG_OUT_EN : Fld := ⟨0x4e000000, 13, 13⟩
/-- CON.CFG.PIN_EN [12:12] RW. CONE_IN is a source -/
abbrev CON_CFG_PIN_EN : Fld := ⟨0x4e000000, 12, 12⟩
/-- CON.CFG.WHEEL_SLOT [11:0] RW. Watched slot; 0 with WHEEL_EN = 0 -/
abbrev CON_CFG_WHEEL_SLOT : Fld := ⟨0x4e000000, 11, 0⟩
/-- CON.CTRL.WHEEL_EN [7:7] RW. WHEEL source enabled -/
abbrev CON_CTRL_WHEEL_EN : Fld := ⟨0x4e000004, 7, 7⟩
/-- CON.CTRL.ON_TRIP [6:6] RW. CYCLE_TRIP source enabled -/
abbrev CON_CTRL_ON_TRIP : Fld := ⟨0x4e000004, 6, 6⟩
/-- CON.CTRL.CAP_REARM [5:5] W1S. Restart capture (R400) -/
abbrev CON_CTRL_CAP_REARM : Fld := ⟨0x4e000004, 5, 5⟩
/-- CON.CTRL.RELEASE1 [4:4] W1S. Release bank 1 -/
abbrev CON_CTRL_RELEASE1 : Fld := ⟨0x4e000004, 4, 4⟩
/-- CON.CTRL.RELEASE0 [3:3] W1S. Release bank 0 -/
abbrev CON_CTRL_RELEASE0 : Fld := ⟨0x4e000004, 3, 3⟩
/-- CON.CTRL.PLANT_GO [2:2] W1S. Manager: schedule a plant Cone at TMATCH (R396) -/
abbrev CON_CTRL_PLANT_GO : Fld := ⟨0x4e000004, 2, 2⟩
/-- CON.CTRL.TMATCH_ARM [1:1] W1S. Arm the local match (R395) -/
abbrev CON_CTRL_TMATCH_ARM : Fld := ⟨0x4e000004, 1, 1⟩
/-- CON.CTRL.TRIG [0:0] W1S. Firmware trigger -/
abbrev CON_CTRL_TRIG : Fld := ⟨0x4e000004, 0, 0⟩
/-- CON.STATUS.MISSED [31:28] RC. Missed Cones; saturates at 0xF -/
abbrev CON_STATUS_MISSED : Fld := ⟨0x4e000008, 31, 28⟩
/-- CON.STATUS.OVERWRITTEN [27:24] RC. Overwritten banks; saturates at 0xF -/
abbrev CON_STATUS_OVERWRITTEN : Fld := ⟨0x4e000008, 27, 24⟩
/-- CON.STATUS.LATE [23:20] RC. Late CONE frames; saturates at 0xF -/
abbrev CON_STATUS_LATE : Fld := ⟨0x4e000008, 23, 20⟩
/-- CON.STATUS.REPLACED [19:16] RC. Local matches replaced; saturates at 0xF -/
abbrev CON_STATUS_REPLACED : Fld := ⟨0x4e000008, 19, 16⟩
/-- CON.STATUS.REFUSED [15:8] RC. Refused writes; saturates at 0xFF -/
abbrev CON_STATUS_REFUSED : Fld := ⟨0x4e000008, 15, 8⟩
/-- CON.STATUS.MATCH_ARMED [3:3] RO. A time match is pending -/
abbrev CON_STATUS_MATCH_ARMED : Fld := ⟨0x4e000008, 3, 3⟩
/-- CON.STATUS.LAST [2:2] RO. Bank of the latest Cone -/
abbrev CON_STATUS_LAST : Fld := ⟨0x4e000008, 2, 2⟩
/-- CON.STATUS.HELD1 [1:1] RO. Bank 1 held -/
abbrev CON_STATUS_HELD1 : Fld := ⟨0x4e000008, 1, 1⟩
/-- CON.STATUS.HELD0 [0:0] RO. Bank 0 held -/
abbrev CON_STATUS_HELD0 : Fld := ⟨0x4e000008, 0, 0⟩
/-- CON.TMATCH.SEC [63:30] RW. PTP seconds [33:0] -/
abbrev CON_TMATCH_SEC : Fld := ⟨0x4e000010, 63, 30⟩
/-- CON.TMATCH.NS [29:0] RW. ns -/
abbrev CON_TMATCH_NS : Fld := ⟨0x4e000010, 29, 0⟩
/-- CON.CAP_CFG.EN [31:31] RW. Capture enabled (R399) -/
abbrev CON_CAP_CFG_EN : Fld := ⟨0x4e000020, 31, 31⟩
/-- CON.CAP_CFG.RG [30:28] RW. Rate group -/
abbrev CON_CAP_CFG_RG : Fld := ⟨0x4e000020, 30, 28⟩
/-- CON.CAP_CFG.DIV [27:20] RW. Record at every (DIV + 1)th sample start -/
abbrev CON_CAP_CFG_DIV : Fld := ⟨0x4e000020, 27, 20⟩
/-- CON.CAP_CFG.NSLOT [19:14] RW. Slots less one, 0–63 -/
abbrev CON_CAP_CFG_NSLOT : Fld := ⟨0x4e000020, 19, 14⟩
/-- CON.CAP_POST.POST [18:0] RW. Records after the trigger record, below DEPTH -/
abbrev CON_CAP_POST_POST : Fld := ⟨0x4e000024, 18, 0⟩
/-- CON.CAP_STATUS.STATE [31:30] RO. 0 off, 1 filling, 2 post, 3 frozen -/
abbrev CON_CAP_STATUS_STATE : Fld := ⟨0x4e000028, 31, 30⟩
/-- CON.CAP_STATUS.WRAPPED [29:29] RO. DEPTH records taken since filling began -/
abbrev CON_CAP_STATUS_WRAPPED : Fld := ⟨0x4e000028, 29, 29⟩
/-- CON.CAP_STATUS.TRIG_REC [18:0] RO. Place of the trigger record -/
abbrev CON_CAP_STATUS_TRIG_REC : Fld := ⟨0x4e000028, 18, 0⟩
/-- CON.CAP_SLOTi.ODD [27:16] RW. Slot recorded in position 2i + 1 (i = 0–31) -/
abbrev CON_CAP_SLOT_ODD (i : Nat) : Fld := ⟨0x4e000100 + 0x4 * i, 27, 16⟩
/-- CON.CAP_SLOTi.EVEN [11:0] RW. Slot recorded in position 2i -/
abbrev CON_CAP_SLOT_EVEN (i : Nat) : Fld := ⟨0x4e000100 + 0x4 * i, 11, 0⟩
/-- CON.INT.MISSED [2:2] W1C. A Cone was missed or a bank overwritten -/
abbrev CON_INT_MISSED : Fld := ⟨0x4e000030, 2, 2⟩
/-- CON.INT.FROZEN [1:1] W1C. Capture frozen -/
abbrev CON_INT_FROZEN : Fld := ⟨0x4e000030, 1, 1⟩
/-- CON.INT.LATCHED [0:0] W1C. A snapshot was latched -/
abbrev CON_INT_LATCHED : Fld := ⟨0x4e000030, 0, 0⟩
/-- CON.INT_EN.EN [2:0] RW. Per-bit enable of CON.INT to the HOST interrupt controller -/
abbrev CON_INT_EN_EN : Fld := ⟨0x4e000034, 2, 0⟩
/-- SYS.GRPt_k.MEMBERS [63:0] RWF. Members of group Gk (k = 0–7) of block type t: 0 WHL, 1 GSU, 2 MOD, 3 SET, 4 WIN, 5 ADC, 6 WLK -/
abbrev SYS_GRP_MEMBERS (t : Nat) (k : Nat) : Fld := ⟨0x40000100 + 0x40 * t + 0x8 * k, 63, 0⟩
/-- WIN.INT.EDGE [7:0] W1C. Bit u: WIN(32 + u) changed STATE with its CTRL.IRQ = 1 (R214) -/
abbrev WIN_INT_EDGE : Fld := ⟨0x45002000, 7, 0⟩
/-- WIN.INT_EN.EN [7:0] RW. Per-bit enable of WIN.INT to the HOST interrupt controller -/
abbrev WIN_INT_EN_EN : Fld := ⟨0x45002004, 7, 0⟩
/-- MACm.INT [0] TX_DONE (R410). -/
abbrev MAC_INT_TX_DONE (n : Nat) : Fld := ⟨0x4a001060 + 0x1000 * n, 0, 0⟩
/-- MACm.INT [1] RX_DONE (R410). -/
abbrev MAC_INT_RX_DONE (n : Nat) : Fld := ⟨0x4a001060 + 0x1000 * n, 1, 1⟩
/-- MACm.INT [2] RX_NO_DESC (R410). -/
abbrev MAC_INT_RX_NO_DESC (n : Nat) : Fld := ⟨0x4a001060 + 0x1000 * n, 2, 2⟩
/-- XSPI.ADDR: the flash byte address (R410). -/
abbrev XSPI_ADDR_ADDR : Fld := ⟨0x40200008, 31, 0⟩
/-- XSPI.STATUS BUSY (R410, at the place of its bit in the order in which R410 lists them). -/
abbrev XSPI_STATUS_BUSY : Fld := ⟨0x40200010, 0, 0⟩
/-- XSPI.STATUS ERROR (R410, at the place of its bit in the order in which R410 lists them). -/
abbrev XSPI_STATUS_ERROR : Fld := ⟨0x40200010, 1, 1⟩
/-- XSPI.INT DONE (R410, at the place of its bit in the order in which R410 lists them). -/
abbrev XSPI_INT_DONE : Fld := ⟨0x40200014, 0, 0⟩
/-- XSPI.INT ERROR (R410, at the place of its bit in the order in which R410 lists them). -/
abbrev XSPI_INT_ERROR : Fld := ⟨0x40200014, 1, 1⟩
/-- Bit 0 of CANi.INT (R410; PRESUMED, log entry 24). -/
abbrev CAN_INT_TX (n : Nat) : Fld := ⟨0x4a100014 + 0x10000 * n, 0, 0⟩
/-- Bit 1 of UARTi.INT (R410; PRESUMED, log entry 24). -/
abbrev UART_INT_TX (n : Nat) : Fld := ⟨0x4a200010 + 0x1000 * n, 1, 1⟩
/-- CANi.INT, receive bit, second in the order in which R410 lists them. -/
abbrev CAN_INT_RX (n : Nat) : Fld := ⟨0x4a100014 + 0x10000 * n, 1, 1⟩

/-- The register tables of block SYS. -/
def regsSYS : List RegDesc := [
  ⟨"SYS.PARTID", 0x40000000, [], 32, [⟨15, 0, .ro⟩]⟩,
  ⟨"SYS.REVID", 0x40000004, [], 32, [⟨7, 4, .ro⟩, ⟨3, 0, .ro⟩]⟩,
  ⟨"SYS.JTAGID", 0x40000008, [], 32, [⟨31, 0, .ro⟩]⟩,
  ⟨"SYS.UID_LO", 0x40000010, [], 32, [⟨31, 0, .ro⟩]⟩,
  ⟨"SYS.UID_HI", 0x40000014, [], 32, [⟨31, 0, .ro⟩]⟩,
  ⟨"SYS.ROLE", 0x40000020, [], 32, [⟨16, 16, .ro⟩, ⟨12, 8, .ro⟩, ⟨1, 0, .ro⟩]⟩,
  ⟨"SYS.BCAST_STATUS", 0x40000030, [], 32, [⟨1, 1, .w1c⟩, ⟨0, 0, .w1c⟩]⟩,
  ⟨"SYS.STATE", 0x40000040, [], 32, [⟨11, 11, .ro⟩, ⟨10, 10, .ro⟩, ⟨9, 9, .ro⟩, ⟨8, 8, .ro⟩, ⟨3, 0, .ro⟩]⟩,
  ⟨"SYS.GRPt_k", 0x40000100, [(0, 7, 0x40), (0, 8, 0x8)], 64, [⟨63, 0, .rwf⟩]⟩]

/-- The register tables of block GLZ. -/
def regsGLZ : List RegDesc := [
  ⟨"GLZ.CTRL", 0x40100000, [], 32, [⟨9, 9, .rw⟩, ⟨8, 8, .rw⟩, ⟨3, 0, .wo⟩]⟩,
  ⟨"GLZ.SRC_ADDR", 0x40100008, [], 32, [⟨31, 4, .rw⟩]⟩,
  ⟨"GLZ.LEN", 0x4010000c, [], 32, [⟨21, 0, .rw⟩]⟩,
  ⟨"GLZ.STATUS", 0x40100010, [], 32, [⟨31, 16, .ro⟩, ⟨3, 2, .ro⟩, ⟨1, 1, .ro⟩, ⟨0, 0, .ro⟩]⟩,
  ⟨"GLZ.REFUSE", 0x40100014, [], 32, [⟨31, 16, .ro⟩, ⟨15, 8, .ro⟩, ⟨7, 0, .ro⟩]⟩,
  ⟨"GLZ.ACTIVE_ID", 0x40100020, [], 32, [⟨31, 0, .ro⟩]⟩,
  ⟨"GLZ.ACTIVE_VER", 0x40100024, [], 32, [⟨31, 0, .ro⟩]⟩,
  ⟨"GLZ.STAGED_ID", 0x40100028, [], 32, [⟨31, 0, .ro⟩]⟩,
  ⟨"GLZ.STAGED_VER", 0x4010002c, [], 32, [⟨31, 0, .ro⟩]⟩,
  ⟨"GLZ.FIRE_COUNT", 0x40100030, [], 32, [⟨31, 0, .ro⟩]⟩,
  ⟨"GLZ.RWF_REFUSED", 0x40100034, [], 32, [⟨15, 0, .rc⟩]⟩,
  ⟨"GLZ.INT", 0x40100038, [], 32, [⟨2, 2, .w1c⟩, ⟨1, 1, .w1c⟩, ⟨0, 0, .w1c⟩]⟩,
  ⟨"GLZ.INT_EN", 0x4010003c, [], 32, [⟨2, 0, .rw⟩]⟩]

/-- The register tables of block RGS. -/
def regsRGS : List RegDesc := [
  ⟨"RGS.SUPV", 0x41c00000, [], 32, [⟨23, 16, .rwf⟩, ⟨15, 8, .rwf⟩, ⟨7, 0, .rwf⟩]⟩,
  ⟨"RGS.SLOT_REFUSED", 0x41c00004, [], 32, [⟨15, 0, .rc⟩]⟩,
  ⟨"RGS.MBOX_LO", 0x41c00010, [], 32, [⟨31, 0, .ro⟩]⟩,
  ⟨"RGS.MBOX_HI", 0x41c00014, [], 32, [⟨31, 26, .ro⟩, ⟨25, 23, .ro⟩, ⟨15, 0, .ro⟩]⟩,
  ⟨"RGS.MBOX_STAT", 0x41c00018, [], 32, [⟨14, 8, .rw⟩, ⟨6, 0, .ro⟩]⟩,
  ⟨"RGS.MBOX_LOST", 0x41c0001c, [], 32, [⟨15, 0, .rc⟩]⟩,
  ⟨"RGS.INT", 0x41c00020, [], 32, [⟨3, 3, .w1c⟩, ⟨2, 2, .w1c⟩, ⟨1, 1, .w1c⟩, ⟨0, 0, .w1c⟩]⟩,
  ⟨"RGS.INT_EN", 0x41c00024, [], 32, [⟨3, 0, .rw⟩]⟩,
  ⟨"RGS.RGk.CFG", 0x41c00100, [(0, 8, 0x40)], 32, [⟨31, 22, .rwf⟩, ⟨21, 20, .rwf⟩, ⟨19, 16, .rwf⟩, ⟨15, 8, .rwf⟩, ⟨7, 7, .rwf⟩, ⟨2, 0, .rwf⟩]⟩,
  ⟨"RGS.RGk.PERIOD", 0x41c00104, [(0, 8, 0x40)], 32, [⟨19, 0, .rwf⟩]⟩,
  ⟨"RGS.RGk.PHASE", 0x41c00108, [(0, 8, 0x40)], 32, [⟨19, 0, .rwf⟩]⟩,
  ⟨"RGS.RGk.DEADLINE", 0x41c0010c, [(0, 8, 0x40)], 32, [⟨19, 0, .rwf⟩]⟩,
  ⟨"RGS.RGk.TRIG_TMO", 0x41c00110, [(0, 8, 0x40)], 32, [⟨23, 0, .rwf⟩]⟩,
  ⟨"RGS.RGk.STATUS", 0x41c00114, [(0, 8, 0x40)], 32, [⟨31, 24, .ro⟩, ⟨6, 6, .w1c⟩, ⟨5, 5, .w1c⟩, ⟨4, 4, .ro⟩, ⟨3, 3, .ro⟩, ⟨2, 2, .ro⟩, ⟨1, 1, .w1c⟩]⟩,
  ⟨"RGS.RGk.MISS_COUNT", 0x41c00118, [(0, 8, 0x40)], 32, [⟨31, 0, .ro⟩]⟩,
  ⟨"RGS.RGk.SAMPLES", 0x41c0011c, [(0, 8, 0x40)], 32, [⟨31, 0, .ro⟩]⟩,
  ⟨"RGS.RGk.SWAP", 0x41c00120, [(0, 8, 0x40)], 32, [⟨16, 16, .w1c⟩, ⟨9, 9, .rw⟩, ⟨8, 8, .w1s⟩, ⟨0, 0, .rw⟩]⟩,
  ⟨"RGS.SLOTs", 0x41c10000, [(0, 4096, 0x4)], 32, [⟨31, 0, .rw⟩]⟩,
  ⟨"RGS.OWNERs", 0x41c20000, [(0, 4096, 0x4)], 32, [⟨10, 8, .ro⟩, ⟨7, 0, .ro⟩]⟩,
  ⟨"RGS.SUPV_CAUSE", 0x41c00028, [], 32, [⟨31, 31, .ro⟩, ⟨30, 28, .ro⟩, ⟨21, 16, .ro⟩, ⟨10, 8, .ro⟩, ⟨1, 0, .ro⟩]⟩,
  ⟨"RGS.SUSPECT", 0x41c0002c, [], 32, [⟨31, 31, .w1c⟩, ⟨21, 16, .ro⟩, ⟨15, 12, .ro⟩, ⟨7, 2, .ro⟩, ⟨1, 0, .ro⟩]⟩,
  ⟨"RGS.SUSPECT_COUNT", 0x41c00030, [], 32, [⟨15, 0, .rc⟩]⟩,
  ⟨"RGS.SUPV_INT", 0x41c00034, [], 32, [⟨2, 2, .w1c⟩, ⟨1, 1, .w1c⟩, ⟨0, 0, .w1c⟩]⟩,
  ⟨"RGS.SUPV_INT_EN", 0x41c00038, [], 32, [⟨2, 0, .rw⟩]⟩,
  ⟨"RGS.RGk.CLIPS", 0x41c00124, [(0, 8, 0x40)], 32, [⟨31, 0, .ro⟩]⟩,
  ⟨"RGS.GRDk_g.CFG", 0x41c30000, [(0, 8, 0x40), (0, 4, 0x8)], 32, [⟨31, 24, .rwf⟩, ⟨17, 16, .rwf⟩, ⟨11, 0, .rwf⟩]⟩,
  ⟨"RGS.GRDk_g.STEP", 0x41c30004, [(0, 8, 0x40), (0, 4, 0x8)], 32, [⟨31, 0, .rwf⟩]⟩]

/-- The register tables of block WHL. -/
def regsWHL : List RegDesc := [
  ⟨"WHLn.STATUS", 0x41000000, [(0, 64, 0x10000)], 32, [⟨22, 16, .ro⟩, ⟨10, 8, .ro⟩, ⟨3, 3, .w1c⟩, ⟨2, 2, .ro⟩, ⟨1, 1, .w1c⟩, ⟨0, 0, .ro⟩]⟩,
  ⟨"WHLn.COEF_REFUSED", 0x41000010, [(0, 64, 0x10000)], 32, [⟨15, 0, .rc⟩]⟩,
  ⟨"WHLn.ISTATEj", 0x41000040, [(0, 64, 0x10000), (0, 4, 0x4)], 32, [⟨31, 0, .rw⟩]⟩]

/-- The register tables of block GSU. -/
def regsGSU : List RegDesc := [
  ⟨"GSUn.CFG", 0x42000000, [(0, 4, 0x1000)], 32, [⟨27, 23, .rwf⟩, ⟨22, 22, .rwf⟩, ⟨21, 19, .rwf⟩, ⟨18, 11, .rwf⟩, ⟨10, 8, .rwf⟩, ⟨6, 6, .rwf⟩, ⟨5, 4, .rwf⟩, ⟨3, 3, .rwf⟩, ⟨2, 2, .rwf⟩, ⟨1, 1, .rwf⟩, ⟨0, 0, .rwf⟩]⟩,
  ⟨"GSUn.INSLOT", 0x42000004, [(0, 4, 0x1000)], 32, [⟨12, 12, .rwf⟩, ⟨11, 0, .rwf⟩]⟩,
  ⟨"GSUn.OUTSLOT", 0x42000008, [(0, 4, 0x1000)], 32, [⟨27, 16, .rwf⟩, ⟨11, 0, .rwf⟩]⟩,
  ⟨"GSUn.SCALEi", 0x42000010, [(0, 4, 0x1000), (0, 4, 0x4)], 32, [⟨31, 0, .rwf⟩]⟩,
  ⟨"GSUn.LEAD", 0x42000020, [(0, 4, 0x1000)], 32, [⟨16, 0, .rwf⟩]⟩,
  ⟨"GSUn.VRATED", 0x42000024, [(0, 4, 0x1000)], 32, [⟨31, 0, .rwf⟩]⟩,
  ⟨"GSUn.THR", 0x42000028, [(0, 4, 0x1000)], 32, [⟨31, 24, .rwf⟩, ⟨23, 16, .rwf⟩, ⟨15, 8, .rwf⟩, ⟨6, 0, .rwf⟩]⟩,
  ⟨"GSUn.STATUS", 0x42000030, [(0, 4, 0x1000)], 32, [⟨31, 16, .ro⟩, ⟨7, 7, .w1c⟩, ⟨6, 6, .w1c⟩, ⟨5, 5, .w1c⟩, ⟨4, 4, .w1c⟩, ⟨3, 3, .ro⟩, ⟨2, 2, .ro⟩, ⟨1, 1, .ro⟩, ⟨0, 0, .ro⟩]⟩,
  ⟨"GSUn.INT_EN", 0x42000034, [(0, 4, 0x1000)], 32, [⟨3, 0, .rw⟩]⟩]

/-- The register tables of block RTS. -/
def regsRTS : List RegDesc := [
  ⟨"RTS.CFG", 0x42100000, [], 32, [⟨28, 20, .rwf⟩, ⟨19, 19, .rwf⟩, ⟨18, 14, .rwf⟩, ⟨13, 9, .rwf⟩, ⟨8, 4, .rwf⟩, ⟨3, 3, .rwf⟩, ⟨2, 2, .rwf⟩, ⟨1, 0, .rwf⟩]⟩,
  ⟨"RTS.SLOTS", 0x42100004, [], 32, [⟨11, 0, .rwf⟩]⟩,
  ⟨"RTS.HYST", 0x42100008, [], 32, [⟨15, 8, .rwf⟩, ⟨7, 0, .rwf⟩]⟩,
  ⟨"RTS.RCIp", 0x42100010, [(0, 6, 0x4)], 32, [⟨31, 0, .rwf⟩]⟩,
  ⟨"RTS.NPTS", 0x42100030, [], 32, [⟨29, 24, .rwf⟩, ⟨21, 16, .rwf⟩, ⟨13, 8, .rwf⟩, ⟨5, 0, .rwf⟩]⟩,
  ⟨"RTS.CTRL", 0x42100040, [], 32, [⟨0, 0, .wo⟩]⟩,
  ⟨"RTS.STATE", 0x42100044, [], 32, [⟨31, 16, .ro⟩, ⟨9, 9, .ro⟩, ⟨8, 8, .ro⟩, ⟨7, 7, .ro⟩, ⟨6, 6, .ro⟩, ⟨5, 3, .ro⟩, ⟨2, 0, .ro⟩]⟩,
  ⟨"RTS.EXC_TIME", 0x42100048, [], 32, [⟨21, 0, .ro⟩]⟩,
  ⟨"RTS.REFUSED", 0x4210004c, [], 32, [⟨15, 0, .rc⟩]⟩,
  ⟨"RTS.PTc_k.LEVEL", 0x42100400, [(0, 4, 0x100), (0, 32, 0x8)], 32, [⟨31, 0, .rwf⟩]⟩,
  ⟨"RTS.PTc_k.TIME", 0x42100404, [(0, 4, 0x100), (0, 32, 0x8)], 32, [⟨31, 29, .rwf⟩, ⟨21, 0, .rwf⟩]⟩]

/-- The register tables of block ISL. -/
def regsISL : List RegDesc := [
  ⟨"ISL.CFG", 0x42200000, [], 32, [⟨31, 24, .rwf⟩, ⟨23, 21, .rwf⟩, ⟨20, 18, .rwf⟩, ⟨17, 15, .rwf⟩, ⟨13, 12, .rwf⟩, ⟨11, 10, .rwf⟩, ⟨9, 8, .rwf⟩, ⟨7, 7, .rwf⟩, ⟨6, 6, .rwf⟩, ⟨5, 5, .rwf⟩, ⟨3, 3, .rwf⟩, ⟨2, 2, .rwf⟩, ⟨1, 1, .rwf⟩, ⟨0, 0, .rwf⟩]⟩,
  ⟨"ISL.INSLOT", 0x42200004, [], 32, [⟨27, 16, .rwf⟩, ⟨11, 0, .rwf⟩]⟩,
  ⟨"ISL.OUTSLOT", 0x42200008, [], 32, [⟨11, 0, .rwf⟩]⟩,
  ⟨"ISL.LEAD", 0x4220000c, [], 32, [⟨16, 0, .rwf⟩]⟩,
  ⟨"ISL.PASSm", 0x42200010, [(0, 4, 0x4)], 32, [⟨31, 30, .rwf⟩, ⟨23, 16, .rwf⟩, ⟨15, 0, .rwf⟩]⟩,
  ⟨"ISL.ACT", 0x42200020, [], 32, [⟨31, 24, .rwf⟩, ⟨23, 16, .rwf⟩, ⟨15, 12, .rwf⟩, ⟨10, 0, .rwf⟩]⟩,
  ⟨"ISL.ACT2", 0x42200024, [], 32, [⟨31, 24, .rwf⟩, ⟨23, 16, .rwf⟩, ⟨15, 8, .rwf⟩, ⟨7, 0, .rwf⟩]⟩,
  ⟨"ISL.TONEk", 0x42200030, [(0, 4, 0x4)], 32, [⟨31, 16, .rwf⟩, ⟨10, 0, .rwf⟩]⟩,
  ⟨"ISL.EST", 0x42200040, [], 32, [⟨31, 26, .rwf⟩, ⟨25, 21, .rwf⟩, ⟨20, 15, .rwf⟩, ⟨14, 8, .rwf⟩, ⟨3, 0, .rwf⟩]⟩,
  ⟨"ISL.LCLp", 0x42200050, [(0, 9, 0x4)], 32, [⟨31, 0, .rwf⟩]⟩,
  ⟨"ISL.NOTCH", 0x42200074, [], 32, [⟨31, 22, .rwf⟩, ⟨14, 8, .rwf⟩, ⟨5, 0, .rwf⟩]⟩,
  ⟨"ISL.NOTCH_HZ", 0x42200078, [], 32, [⟨31, 0, .ro⟩]⟩,
  ⟨"ISL.GFOp", 0x42200080, [(0, 6, 0x4)], 32, [⟨31, 0, .rwf⟩]⟩,
  ⟨"ISL.PSET", 0x422000a0, [], 32, [⟨31, 0, .rw⟩]⟩,
  ⟨"ISL.QSET", 0x422000a4, [], 32, [⟨31, 0, .rw⟩]⟩,
  ⟨"ISL.XFER", 0x422000b0, [], 32, [⟨31, 24, .rwf⟩, ⟨23, 16, .rwf⟩, ⟨15, 12, .rwf⟩, ⟨9, 8, .rwf⟩]⟩,
  ⟨"ISL.XRATE", 0x422000b4, [], 32, [⟨31, 16, .rwf⟩, ⟨15, 0, .rwf⟩]⟩,
  ⟨"ISL.PREe", 0x422000c0, [(0, 16, 0x4)], 32, [⟨31, 30, .rwf⟩, ⟨29, 29, .rwf⟩, ⟨23, 18, .rwf⟩, ⟨17, 16, .rwf⟩, ⟨11, 0, .rwf⟩]⟩,
  ⟨"ISL.CTRL", 0x42200100, [], 32, [⟨8, 8, .rw⟩, ⟨3, 0, .wo⟩]⟩,
  ⟨"ISL.MODE", 0x42200104, [], 32, [⟨31, 16, .ro⟩, ⟨12, 12, .ro⟩, ⟨11, 11, .ro⟩, ⟨10, 10, .ro⟩, ⟨9, 9, .ro⟩, ⟨8, 6, .ro⟩, ⟨1, 0, .ro⟩]⟩,
  ⟨"ISL.STATUS", 0x42200108, [], 32, [⟨7, 7, .w1c⟩, ⟨6, 6, .w1c⟩, ⟨5, 5, .w1c⟩, ⟨4, 4, .w1c⟩, ⟨3, 3, .w1c⟩, ⟨2, 2, .w1c⟩, ⟨1, 1, .w1c⟩, ⟨0, 0, .w1c⟩]⟩,
  ⟨"ISL.INT_EN", 0x4220010c, [], 32, [⟨7, 0, .rw⟩]⟩,
  ⟨"ISL.REFUSED", 0x42200110, [], 32, [⟨15, 0, .rc⟩]⟩]

/-- The register tables of block DCI. -/
def regsDCI : List RegDesc := [
  ⟨"DCI.CFG", 0x42300000, [], 32, [⟨31, 20, .rwf⟩, ⟨19, 17, .rwf⟩, ⟨16, 9, .rwf⟩, ⟨8, 6, .rwf⟩, ⟨5, 2, .rwf⟩, ⟨0, 0, .rwf⟩]⟩,
  ⟨"DCI.OUTSLOT", 0x42300004, [], 32, [⟨11, 0, .rwf⟩]⟩,
  ⟨"DCI.LEGl.CFG", 0x42300010, [(0, 6, 0x20)], 32, [⟨27, 27, .rwf⟩, ⟨26, 25, .rwf⟩, ⟨23, 12, .rwf⟩, ⟨11, 0, .rwf⟩]⟩,
  ⟨"DCI.LEGl.PARp", 0x42300014, [(0, 6, 0x20), (0, 5, 0x4)], 32, [⟨31, 0, .rwf⟩]⟩,
  ⟨"DCI.LEGl.STATUS", 0x42300400, [(0, 6, 0x10)], 32, [⟨7, 4, .ro⟩, ⟨3, 3, .ro⟩, ⟨2, 2, .ro⟩, ⟨1, 1, .ro⟩, ⟨0, 0, .ro⟩]⟩,
  ⟨"DCI.LEGl.RESULT", 0x42300404, [(0, 6, 0x10)], 32, [⟨31, 31, .ro⟩, ⟨24, 16, .ro⟩, ⟨15, 8, .ro⟩, ⟨7, 0, .ro⟩]⟩,
  ⟨"DCI.SWP_CFG", 0x42300100, [], 32, [⟨31, 24, .rwf⟩, ⟨23, 16, .rwf⟩, ⟨15, 11, .rwf⟩, ⟨10, 10, .rwf⟩, ⟨9, 5, .rwf⟩, ⟨4, 0, .rwf⟩]⟩,
  ⟨"DCI.SWP_PARp", 0x42300104, [(0, 5, 0x4)], 32, [⟨31, 0, .rwf⟩]⟩,
  ⟨"DCI.CTRL", 0x42300120, [], 32, [⟨8, 8, .wo⟩, ⟨5, 0, .wo⟩]⟩,
  ⟨"DCI.SWP_STATUS", 0x42300124, [], 32, [⟨31, 16, .ro⟩, ⟨15, 8, .ro⟩, ⟨7, 5, .ro⟩, ⟨4, 4, .ro⟩]⟩,
  ⟨"DCI.INT", 0x42300128, [], 32, [⟨2, 2, .w1c⟩, ⟨1, 1, .w1c⟩, ⟨0, 0, .w1c⟩]⟩,
  ⟨"DCI.INT_EN", 0x4230012c, [], 32, [⟨2, 0, .rw⟩]⟩,
  ⟨"DCI.REFUSED", 0x42300130, [], 32, [⟨15, 0, .rc⟩]⟩,
  ⟨"DCI.CURVEl_k", 0x42301000, [(0, 6, 0x800), (0, 256, 0x8)], 64, [⟨63, 32, .ro⟩, ⟨31, 0, .ro⟩]⟩]

/-- The register tables of block MOD. -/
def regsMOD : List RegDesc := [
  ⟨"MODn.CTRL", 0x43000000, [(0, 9, 0x100)], 32, [⟨8, 8, .rw⟩, ⟨0, 0, .rw⟩]⟩,
  ⟨"MODn.ROUTE", 0x43000004, [(0, 9, 0x100)], 32, [⟨8, 8, .rwf⟩, ⟨3, 0, .rwf⟩]⟩,
  ⟨"MODn.DEADTIME", 0x43000008, [(0, 9, 0x100)], 32, [⟨11, 0, .rwf⟩]⟩,
  ⟨"MODn.MINPULSE", 0x4300000c, [(0, 9, 0x100)], 32, [⟨27, 27, .rwf⟩, ⟨26, 16, .rwf⟩, ⟨11, 11, .rwf⟩, ⟨10, 0, .rwf⟩]⟩,
  ⟨"MODn.PERIOD", 0x43000010, [(0, 9, 0x100)], 32, [⟨31, 0, .rw⟩]⟩,
  ⟨"MODn.PHASE", 0x43000014, [(0, 9, 0x100)], 32, [⟨31, 0, .rw⟩]⟩,
  ⟨"MODn.FMAX", 0x43000018, [(0, 9, 0x100)], 32, [⟨31, 0, .rwf⟩]⟩,
  ⟨"MODn.REFRESH", 0x4300001c, [(0, 9, 0x100)], 32, [⟨31, 31, .rwf⟩, ⟨21, 16, .rwf⟩, ⟨11, 0, .rwf⟩]⟩,
  ⟨"MODn.LOADPT", 0x43000020, [(0, 9, 0x100)], 32, [⟨31, 31, .rwf⟩, ⟨27, 16, .rwf⟩, ⟨8, 8, .rwf⟩, ⟨3, 0, .rwf⟩]⟩,
  ⟨"MODn.OVR", 0x43000024, [(0, 9, 0x100)], 32, [⟨6, 6, .rw⟩, ⟨5, 5, .rw⟩, ⟨4, 4, .rw⟩, ⟨1, 0, .rw⟩]⟩,
  ⟨"MODn.STATUS", 0x43000028, [(0, 9, 0x100)], 32, [⟨5, 5, .ro⟩, ⟨4, 4, .ro⟩, ⟨3, 3, .ro⟩, ⟨2, 2, .ro⟩, ⟨1, 1, .ro⟩, ⟨0, 0, .ro⟩]⟩,
  ⟨"MODn.CMP_NOW", 0x4300002c, [(0, 9, 0x100)], 32, [⟨31, 0, .ro⟩]⟩,
  ⟨"MODn.CNT", 0x43000030, [(0, 9, 0x100)], 32, [⟨31, 0, .ro⟩]⟩,
  ⟨"MODn.DEV", 0x43000034, [(0, 9, 0x100)], 32, [⟨31, 0, .ro⟩]⟩,
  ⟨"MODn.DROPS", 0x43000038, [(0, 9, 0x100)], 32, [⟨15, 0, .rc⟩]⟩,
  ⟨"MODn.STRETCHES", 0x4300003c, [(0, 9, 0x100)], 32, [⟨15, 0, .rc⟩]⟩,
  ⟨"MODn.REFRESHES", 0x43000040, [(0, 9, 0x100)], 32, [⟨15, 0, .rc⟩]⟩,
  ⟨"MODn.REFUSED", 0x43000044, [(0, 9, 0x100)], 32, [⟨15, 0, .rc⟩]⟩,
  ⟨"MOD.EPOCH", 0x43001000, [], 32, [⟨31, 0, .rwf⟩]⟩,
  ⟨"MOD.SLEW", 0x43001004, [], 32, [⟨11, 0, .rwf⟩]⟩,
  ⟨"MOD.HOP_CFG", 0x43001010, [], 32, [⟨24, 16, .rwf⟩, ⟨15, 8, .rwf⟩, ⟨5, 4, .rwf⟩, ⟨2, 0, .rwf⟩]⟩,
  ⟨"MOD.HOP_STATUS", 0x43001014, [], 32, [⟨31, 16, .ro⟩, ⟨8, 8, .ro⟩, ⟨4, 4, .ro⟩, ⟨3, 0, .ro⟩]⟩,
  ⟨"MOD.HOP_CTRL", 0x43001018, [], 32, [⟨0, 0, .wo⟩]⟩,
  ⟨"MOD.QBk.LO", 0x43001020, [(0, 8, 0x8)], 32, [⟨31, 0, .rw⟩]⟩,
  ⟨"MOD.QBk.HI", 0x43001024, [(0, 8, 0x8)], 32, [⟨31, 0, .rw⟩]⟩,
  ⟨"MOD.INT", 0x43001060, [], 32, [⟨3, 3, .w1c⟩, ⟨2, 2, .w1c⟩, ⟨1, 1, .w1c⟩, ⟨0, 0, .w1c⟩]⟩,
  ⟨"MOD.INT_EN", 0x43001064, [], 32, [⟨3, 0, .rw⟩]⟩]

/-- The register tables of block SET. -/
def regsSET : List RegDesc := [
  ⟨"SETn.CTRL", 0x44000000, [(0, 9, 0x1000)], 32, [⟨5, 5, .w1s⟩, ⟨4, 4, .w1s⟩, ⟨1, 1, .w1s⟩, ⟨0, 0, .w1s⟩]⟩,
  ⟨"SETn.STATUS", 0x44000004, [(0, 9, 0x1000)], 32, [⟨5, 5, .ro⟩, ⟨4, 4, .ro⟩, ⟨3, 3, .ro⟩, ⟨2, 2, .ro⟩, ⟨1, 1, .ro⟩, ⟨0, 0, .ro⟩]⟩,
  ⟨"SETn.RAILS", 0x44000008, [(0, 9, 0x1000)], 32, [⟨25, 21, .rwf⟩, ⟨20, 16, .rwf⟩, ⟨9, 5, .rwf⟩, ⟨4, 0, .rwf⟩]⟩,
  ⟨"SETn.DESAT", 0x4400000c, [(0, 9, 0x1000)], 32, [⟨29, 23, .rwf⟩, ⟨22, 16, .rwf⟩, ⟨13, 7, .rwf⟩, ⟨6, 0, .rwf⟩]⟩,
  ⟨"SETn.SOFTOFF", 0x44000010, [(0, 9, 0x1000)], 32, [⟨24, 24, .rwf⟩, ⟨18, 16, .rwf⟩, ⟨12, 8, .rwf⟩, ⟨4, 0, .rwf⟩]⟩,
  ⟨"SETn.BOOT_UV", 0x44000014, [(0, 9, 0x1000)], 32, [⟨7, 0, .rwf⟩]⟩,
  ⟨"SETn.GATE_DECL", 0x44000018, [(0, 9, 0x1000)], 32, [⟨30, 24, .rwf⟩, ⟨23, 16, .rwf⟩, ⟨14, 8, .rwf⟩, ⟨7, 0, .rwf⟩]⟩,
  ⟨"SETn.CHc.STATUS", 0x44000020, [(0, 9, 0x1000), (0, 2, 0x10)], 32, [⟨15, 8, .ro⟩, ⟨7, 7, .ro⟩, ⟨6, 6, .ro⟩, ⟨5, 5, .ro⟩, ⟨4, 4, .ro⟩, ⟨3, 3, .w1c⟩, ⟨2, 2, .w1c⟩, ⟨1, 1, .w1c⟩, ⟨0, 0, .w1c⟩]⟩,
  ⟨"SETn.CHc.TRIM", 0x44000024, [(0, 9, 0x1000), (0, 2, 0x10)], 32, [⟨24, 16, .rw⟩, ⟨8, 0, .rw⟩]⟩,
  ⟨"SETn.CHc.DELAY", 0x44000028, [(0, 9, 0x1000), (0, 2, 0x10)], 32, [⟨31, 31, .ro⟩, ⟨27, 16, .ro⟩, ⟨11, 0, .ro⟩]⟩,
  ⟨"SETn.DIAG_RESULT", 0x44000040, [(0, 9, 0x1000)], 32, [⟨31, 30, .ro⟩, ⟨13, 12, .ro⟩, ⟨11, 8, .ro⟩, ⟨5, 4, .ro⟩, ⟨3, 0, .ro⟩]⟩,
  ⟨"SETn.SEG", 0x44000044, [(0, 9, 0x1000)], 32, [⟨31, 24, .ro⟩, ⟨23, 16, .ro⟩, ⟨15, 8, .ro⟩, ⟨7, 0, .ro⟩]⟩,
  ⟨"SETn.BOOT_EVENTS", 0x44000048, [(0, 9, 0x1000)], 32, [⟨31, 16, .rc⟩, ⟨1, 0, .ro⟩]⟩,
  ⟨"SETn.REFUSED", 0x4400004c, [(0, 9, 0x1000)], 32, [⟨15, 0, .rc⟩]⟩,
  ⟨"SETn.TEMP", 0x44000050, [(0, 9, 0x1000)], 32, [⟨15, 0, .ro⟩]⟩,
  ⟨"SETn.INT", 0x44000054, [(0, 9, 0x1000)], 32, [⟨6, 6, .w1c⟩, ⟨5, 5, .w1c⟩, ⟨4, 4, .w1c⟩, ⟨3, 3, .w1c⟩, ⟨2, 2, .w1c⟩, ⟨1, 1, .w1c⟩, ⟨0, 0, .w1c⟩]⟩,
  ⟨"SETn.INT_EN", 0x44000058, [(0, 9, 0x1000)], 32, [⟨6, 0, .rw⟩]⟩,
  ⟨"SETn.SEG_RDSc_k", 0x44000080, [(0, 9, 0x1000), (0, 2, 0x20), (0, 8, 0x4)], 32, [⟨31, 16, .ro⟩, ⟨15, 0, .ro⟩]⟩,
  ⟨"SET.FAULTS", 0x44009000, [], 32, [⟨17, 0, .ro⟩]⟩,
  ⟨"SET.FAULT_SNAP", 0x44009004, [], 32, [⟨31, 31, .ro⟩, ⟨17, 0, .ro⟩]⟩]

/-- The register tables of block WIN. -/
def regsWIN : List RegDesc := [
  ⟨"WINn.CFG", 0x45000000, [(0, 44, 0x40)], 32, [⟨31, 31, .rwf⟩, ⟨30, 29, .rwf⟩, ⟨28, 28, .rwf⟩, ⟨27, 25, .rwf⟩, ⟨24, 21, .rwf⟩, ⟨20, 17, .rwf⟩, ⟨16, 15, .rwf⟩, ⟨14, 7, .rwf⟩, ⟨6, 6, .rwf⟩, ⟨5, 0, .rwf⟩]⟩,
  ⟨"WINn.THR", 0x45000004, [(0, 44, 0x40)], 32, [⟨27, 16, .rw⟩, ⟨14, 12, .rw⟩, ⟨11, 0, .rw⟩]⟩,
  ⟨"WINn.THR_LIM", 0x45000008, [(0, 44, 0x40)], 32, [⟨27, 16, .rwf⟩, ⟨11, 0, .rwf⟩]⟩,
  ⟨"WINn.CTRL", 0x4500000c, [(0, 44, 0x40)], 32, [⟨2, 2, .rw⟩, ⟨1, 1, .w1s⟩, ⟨0, 0, .w1s⟩]⟩,
  ⟨"WINn.STATUS", 0x45000010, [(0, 44, 0x40)], 32, [⟨31, 24, .ro⟩, ⟨23, 16, .rc⟩, ⟨15, 12, .ro⟩, ⟨11, 11, .ro⟩, ⟨10, 10, .w1c⟩, ⟨9, 8, .ro⟩, ⟨7, 7, .ro⟩, ⟨6, 6, .ro⟩, ⟨5, 5, .ro⟩, ⟨4, 4, .ro⟩, ⟨1, 0, .ro⟩]⟩,
  ⟨"WINn.CAP", 0x45000014, [(0, 44, 0x40)], 32, [⟨31, 0, .ro⟩]⟩,
  ⟨"WINn.CAP_COUNT", 0x45000018, [(0, 44, 0x40)], 32, [⟨31, 0, .ro⟩]⟩,
  ⟨"WIN.INT", 0x45002000, [], 32, [⟨7, 0, .w1c⟩]⟩,
  ⟨"WIN.INT_EN", 0x45002004, [], 32, [⟨7, 0, .rw⟩]⟩]

/-- The register tables of block SIT. -/
def regsSIT : List RegDesc := [
  ⟨"SIT.CTRL", 0x44800000, [], 32, [⟨3, 3, .w1s⟩, ⟨2, 2, .w1s⟩, ⟨1, 1, .w1s⟩, ⟨0, 0, .w1s⟩]⟩,
  ⟨"SIT.STATUS", 0x44800004, [], 32, [⟨5, 4, .ro⟩, ⟨3, 3, .ro⟩, ⟨2, 2, .ro⟩, ⟨1, 1, .ro⟩, ⟨0, 0, .ro⟩]⟩,
  ⟨"SIT.CAUSE", 0x44800008, [], 32, [⟨17, 0, .ro⟩]⟩,
  ⟨"SIT.ACTIVE", 0x4480000c, [], 32, [⟨17, 0, .ro⟩]⟩,
  ⟨"SIT.FIRST", 0x44800010, [], 32, [⟨31, 31, .ro⟩, ⟨15, 8, .ro⟩, ⟨4, 0, .ro⟩]⟩,
  ⟨"SIT.ORDER", 0x44800014, [], 32, [⟨31, 24, .rwf⟩, ⟨9, 0, .rwf⟩]⟩,
  ⟨"SIT.TRIP", 0x44800020, [], 32, [⟨24, 16, .ro⟩, ⟨8, 0, .w1c⟩]⟩,
  ⟨"SIT.TRIP_UNITS", 0x44800024, [], 32, [⟨31, 0, .ro⟩]⟩,
  ⟨"SIT.SKIPn", 0x44800040, [(0, 9, 0x4)], 32, [⟨31, 24, .ro⟩, ⟨15, 0, .rc⟩]⟩,
  ⟨"SIT.REFUSED", 0x44800068, [], 32, [⟨15, 0, .rc⟩]⟩,
  ⟨"SIT.INT", 0x44800070, [], 32, [⟨3, 3, .w1c⟩, ⟨2, 2, .w1c⟩, ⟨1, 1, .w1c⟩, ⟨0, 0, .w1c⟩]⟩,
  ⟨"SIT.INT_EN", 0x44800074, [], 32, [⟨3, 0, .rw⟩]⟩,
  ⟨"SIT.ROUTEk", 0x44800100, [(0, 32, 0x4)], 32, [⟨31, 31, .rwf⟩, ⟨8, 0, .rwf⟩]⟩,
  ⟨"SIT.PLANT", 0x44800200, [], 32, [⟨31, 1, .rwf⟩, ⟨0, 0, .rwf⟩]⟩]

/-- The register tables of block ADC. -/
def regsADC : List RegDesc := [
  ⟨"ADCn.GROUP", 0x46000000, [(0, 16, 0x100)], 32, [⟨31, 30, .rwf⟩, ⟨29, 27, .rwf⟩, ⟨26, 24, .rwf⟩, ⟨23, 21, .rwf⟩, ⟨20, 20, .rwf⟩, ⟨19, 17, .rwf⟩, ⟨15, 0, .rwf⟩]⟩,
  ⟨"ADCn.GROUP of GX0 and GX1 (R240)", 0x46001000, [(0, 2, 0x100)], 32, []⟩,
  ⟨"ADCn.CTRL", 0x46000004, [(0, 18, 0x100)], 32, [⟨2, 2, .w1s⟩, ⟨0, 0, .w1s⟩]⟩,
  ⟨"ADCn.STATUS", 0x46000008, [(0, 18, 0x100)], 32, [⟨31, 28, .ro⟩, ⟨25, 24, .ro⟩, ⟨20, 16, .ro⟩, ⟨5, 5, .ro⟩, ⟨4, 4, .ro⟩, ⟨2, 0, .ro⟩]⟩,
  ⟨"ADCn.EVENTS", 0x4600000c, [(0, 18, 0x100)], 32, [⟨31, 24, .rc⟩, ⟨23, 16, .rc⟩, ⟨15, 8, .rc⟩, ⟨7, 0, .rc⟩]⟩,
  ⟨"ADCn.URG_DROPS", 0x46000010, [(0, 18, 0x100)], 32, [⟨15, 0, .rc⟩]⟩,
  ⟨"ADCn.URG_RESULT", 0x46000014, [(0, 18, 0x100)], 32, [⟨31, 31, .w1c⟩, ⟨18, 16, .ro⟩, ⟨15, 0, .ro⟩]⟩,
  ⟨"ADCn.SEQe", 0x46000020, [(0, 16, 0x100), (0, 8, 0x4)], 32, [⟨24, 24, .rwf⟩, ⟨21, 16, .rwf⟩, ⟨11, 0, .rwf⟩]⟩,
  ⟨"ADCn.SEQe of GX0 and GX1 (R240)", 0x46001020, [(0, 2, 0x100), (0, 8, 0x4)], 32, []⟩,
  ⟨"ADCn.CAL_OG", 0x46000040, [(0, 18, 0x100)], 32, [⟨31, 16, .ro⟩, ⟨15, 0, .ro⟩]⟩,
  ⟨"ADCn.CAL_LINp", 0x46000044, [(0, 18, 0x100), (0, 4, 0x4)], 32, [⟨31, 16, .ro⟩, ⟨15, 0, .ro⟩]⟩,
  ⟨"ADC.CTRL", 0x46002000, [], 32, [⟨0, 0, .w1s⟩]⟩,
  ⟨"ADC.INT", 0x46002004, [], 32, [⟨4, 4, .w1c⟩, ⟨3, 3, .w1c⟩, ⟨2, 2, .w1c⟩, ⟨1, 1, .w1c⟩, ⟨0, 0, .w1c⟩]⟩,
  ⟨"ADC.INT_EN", 0x46002008, [], 32, [⟨4, 0, .rw⟩]⟩]

/-- The register tables of block MET. -/
def regsMET : List RegDesc := [
  ⟨"MET.CFG", 0x47000000, [], 32, [⟨5, 5, .rwf⟩, ⟨4, 4, .rwf⟩, ⟨3, 2, .rwf⟩, ⟨0, 0, .rwf⟩]⟩,
  ⟨"MET.CTRL", 0x47000004, [], 32, [⟨0, 0, .w1s⟩]⟩,
  ⟨"MET.STATUS", 0x47000008, [], 32, [⟨10, 8, .ro⟩, ⟨7, 7, .ro⟩, ⟨6, 6, .ro⟩, ⟨5, 5, .ro⟩, ⟨4, 4, .ro⟩, ⟨3, 3, .ro⟩, ⟨2, 2, .ro⟩, ⟨1, 1, .ro⟩]⟩,
  ⟨"MET.EVENT", 0x4700000c, [], 32, [⟨7, 7, .w1c⟩, ⟨6, 6, .w1c⟩, ⟨5, 5, .w1c⟩, ⟨4, 2, .w1c⟩, ⟨1, 1, .w1c⟩, ⟨0, 0, .w1c⟩]⟩,
  ⟨"MET.INT_EN", 0x47000010, [], 32, [⟨7, 0, .rw⟩]⟩,
  ⟨"MET.THR", 0x47000014, [], 32, [⟨31, 24, .rwf⟩, ⟨23, 16, .rwf⟩, ⟨15, 8, .rwf⟩]⟩,
  ⟨"MET.PQ_THR", 0x47000018, [], 32, [⟨31, 24, .rwf⟩, ⟨23, 16, .rwf⟩, ⟨15, 8, .rwf⟩, ⟨7, 0, .rwf⟩]⟩,
  ⟨"MET.SCALEc", 0x47000020, [(0, 8, 0x4)], 32, [⟨31, 0, .rwf⟩]⟩,
  ⟨"MET.CHc.CAL", 0x47000040, [(0, 8, 0x4)], 32, [⟨31, 16, .rwf⟩, ⟨15, 0, .rwf⟩]⟩,
  ⟨"MET.RATED_V", 0x47000060, [], 32, [⟨31, 0, .rwf⟩]⟩,
  ⟨"MET.RATED_I", 0x47000064, [], 32, [⟨31, 0, .rwf⟩]⟩,
  ⟨"MET.GAIN", 0x47000068, [], 32, [⟨14, 12, .ro⟩, ⟨10, 8, .ro⟩, ⟨6, 4, .ro⟩, ⟨2, 0, .ro⟩]⟩,
  ⟨"MET.GAIN_CHANGES", 0x4700006c, [], 32, [⟨31, 16, .rc⟩, ⟨15, 0, .rc⟩]⟩,
  ⟨"MET.SAVE_SEQ", 0x47000070, [], 32, [⟨31, 0, .ro⟩]⟩,
  ⟨"MET.SAVE_TIME", 0x47000078, [], 64, [⟨63, 0, .ro⟩]⟩,
  ⟨"MET.JRNL_HEAD", 0x47000080, [], 32, [⟨31, 0, .ro⟩]⟩,
  ⟨"MET.JRNL_WRAPS", 0x47000084, [], 32, [⟨31, 0, .ro⟩]⟩,
  ⟨"MET.JRNL_LOST", 0x47000088, [], 32, [⟨15, 0, .rc⟩]⟩,
  ⟨"MET.JRNL_WR0", 0x47000090, [], 32, [⟨31, 24, .rw⟩, ⟨15, 0, .rw⟩]⟩,
  ⟨"MET.JRNL_WRw", 0x47000090, [(1, 2, 0x4)], 32, [⟨31, 0, .rw⟩]⟩,
  ⟨"MET.AGG_STATi", 0x47000100, [(0, 4, 0x4)], 32, [⟨31, 31, .ro⟩, ⟨15, 0, .ro⟩]⟩,
  ⟨"MET.HARM_SEQ", 0x47002000, [], 32, [⟨31, 0, .ro⟩]⟩,
  ⟨"MET.VALi_q_p", 0x47000400, [(0, 4, 0x200), (0, 18, 0x10), (0, 4, 0x4)], 32, [⟨31, 0, .ro⟩]⟩,
  ⟨"MET.ACCf_k_p", 0x47001000, [(0, 2, 0x100), (0, 8, 0x20), (0, 4, 0x8)], 64, [⟨63, 0, .ro⟩]⟩,
  ⟨"MET.HARMc_g_h", 0x47004000, [(0, 8, 0x400), (0, 3, 0x100), (0, 64, 0x4)], 32, [⟨31, 0, .ro⟩]⟩]

/-- The register tables of block CLK. -/
def regsCLK : List RegDesc := [
  ⟨"CLK.REF", 0x48000000, [], 32, [⟨5, 5, .ro⟩, ⟨4, 4, .ro⟩, ⟨1, 0, .ro⟩]⟩,
  ⟨"CLK.INT", 0x48000004, [], 32, [⟨3, 3, .w1c⟩, ⟨2, 2, .w1c⟩, ⟨1, 1, .w1c⟩, ⟨0, 0, .w1c⟩]⟩,
  ⟨"CLK.INT_EN", 0x48000008, [], 32, [⟨3, 0, .rw⟩]⟩,
  ⟨"CLK.REFUSED", 0x4800000c, [], 32, [⟨15, 0, .rc⟩]⟩,
  ⟨"CLK.PLLn.CTRL", 0x48000100, [(0, 7, 0x20)], 32, [⟨11, 8, .rw⟩, ⟨5, 4, .rw⟩, ⟨0, 0, .rw⟩]⟩,
  ⟨"CLK.PLLn.DIV", 0x48000104, [(0, 7, 0x20)], 32, [⟨30, 24, .rw⟩, ⟨21, 16, .rw⟩, ⟨13, 0, .rw⟩]⟩,
  ⟨"CLK.PLLn.STATUS", 0x48000108, [(0, 7, 0x20)], 32, [⟨29, 16, .ro⟩, ⟨3, 3, .ro⟩, ⟨2, 2, .ro⟩, ⟨1, 1, .ro⟩, ⟨0, 0, .ro⟩]⟩,
  ⟨"CLK.PLLn.HOLDS", 0x4800010c, [(0, 7, 0x20)], 32, [⟨15, 0, .rc⟩]⟩]

/-- The register tables of block LANE. -/
def regsLANE : List RegDesc := [
  ⟨"WLKn.ROLE", 0x49000000, [(0, 6, 0x1000)], 32, [⟨11, 11, .rwf⟩, ⟨10, 10, .rwf⟩, ⟨9, 9, .rwf⟩, ⟨8, 8, .rwf⟩, ⟨5, 4, .rwf⟩, ⟨2, 0, .rwf⟩]⟩,
  ⟨"WLKn.CTRL", 0x49000004, [(0, 6, 0x1000)], 32, [⟨8, 8, .rw⟩, ⟨5, 4, .rw⟩, ⟨3, 0, .wo⟩]⟩,
  ⟨"WLKn.STATUS", 0x49000008, [(0, 6, 0x1000)], 32, [⟨31, 16, .ro⟩, ⟨15, 12, .ro⟩, ⟨11, 10, .ro⟩, ⟨9, 9, .ro⟩, ⟨8, 8, .ro⟩, ⟨7, 7, .ro⟩, ⟨6, 6, .ro⟩, ⟨3, 0, .ro⟩]⟩,
  ⟨"WLKn.TXEQ", 0x4900000c, [(0, 6, 0x1000)], 32, [⟨21, 16, .ro⟩, ⟨12, 8, .ro⟩, ⟨6, 0, .ro⟩]⟩,
  ⟨"WLKn.FEC_CORR", 0x49000010, [(0, 6, 0x1000)], 32, [⟨31, 0, .rc⟩]⟩,
  ⟨"WLKn.FEC_UNCORR", 0x49000014, [(0, 6, 0x1000)], 32, [⟨31, 0, .rc⟩]⟩,
  ⟨"WLKn.FEC_SYMERR", 0x49000018, [(0, 6, 0x1000)], 32, [⟨31, 0, .rc⟩]⟩,
  ⟨"WLKn.PAT_CFG", 0x49000020, [(0, 6, 0x1000)], 32, [⟨24, 24, .w1s⟩, ⟨23, 16, .rw⟩, ⟨6, 6, .ro⟩, ⟨5, 5, .rw⟩, ⟨4, 4, .rw⟩, ⟨2, 0, .rw⟩]⟩,
  ⟨"WLKn.PAT_ERR", 0x49000028, [(0, 6, 0x1000)], 32, [⟨31, 0, .rc⟩]⟩,
  ⟨"WLKn.PAT_BITS", 0x49000030, [(0, 6, 0x1000)], 64, [⟨63, 0, .rc⟩]⟩,
  ⟨"WLKn.MARGIN", 0x49000038, [(0, 6, 0x1000)], 32, [⟨31, 30, .ro⟩, ⟨25, 16, .ro⟩, ⟨9, 0, .ro⟩]⟩,
  ⟨"WLKn.MARGIN_THR", 0x4900003c, [(0, 6, 0x1000)], 32, [⟨25, 16, .rw⟩, ⟨9, 0, .rw⟩]⟩,
  ⟨"WLKn.INT", 0x49000040, [(0, 6, 0x1000)], 32, [⟨4, 4, .w1c⟩, ⟨3, 3, .w1c⟩, ⟨2, 2, .w1c⟩, ⟨1, 1, .w1c⟩, ⟨0, 0, .w1c⟩]⟩,
  ⟨"WLKn.INT_EN", 0x49000044, [(0, 6, 0x1000)], 32, [⟨4, 0, .rw⟩]⟩,
  ⟨"WLKn.REFUSED", 0x49000048, [(0, 6, 0x1000)], 32, [⟨15, 0, .rc⟩]⟩,
  ⟨"WLKn.LINKDLY", 0x49000100, [(0, 6, 0x1000)], 32, [⟨31, 31, .ro⟩, ⟨30, 0, .ro⟩]⟩,
  ⟨"WLKn.ASYM", 0x49000104, [(0, 6, 0x1000)], 32, [⟨15, 0, .rwf⟩]⟩,
  ⟨"WLKn.FRM_ERR", 0x49000108, [(0, 6, 0x1000)], 32, [⟨31, 16, .rc⟩, ⟨15, 0, .rc⟩]⟩]

/-- The register tables of block WLK. -/
def regsWLK : List RegDesc := [
  ⟨"WLK.PLANT_CFG", 0x49008000, [], 32, [⟨25, 16, .rwf⟩, ⟨9, 0, .rwf⟩]⟩,
  ⟨"WLK.SLOTS", 0x49008004, [], 32, [⟨31, 20, .rwf⟩, ⟨19, 8, .rwf⟩]⟩,
  ⟨"WLK.PLANT_CTRL", 0x49008008, [], 32, [⟨1, 1, .w1s⟩, ⟨0, 0, .w1s⟩]⟩,
  ⟨"WLK.PLANT_STATUS", 0x4900800c, [], 32, [⟨31, 16, .rc⟩, ⟨15, 12, .ro⟩, ⟨11, 8, .ro⟩, ⟨7, 7, .ro⟩, ⟨4, 0, .ro⟩]⟩,
  ⟨"WLK.PENTRYw", 0x49008100, [(1, 31, 0x4)], 32, [⟨31, 31, .rwf⟩, ⟨30, 30, .rwf⟩, ⟨29, 28, .rwf⟩, ⟨27, 25, .rwf⟩, ⟨15, 0, .rwf⟩]⟩,
  ⟨"WLK.PRESULTw", 0x49008180, [(1, 31, 0x4)], 32, [⟨31, 30, .ro⟩, ⟨29, 28, .ro⟩, ⟨27, 25, .ro⟩, ⟨24, 24, .ro⟩, ⟨15, 0, .ro⟩]⟩,
  ⟨"WLK.RPTw_j", 0x49008200, [(1, 31, 0x10), (0, 4, 0x4)], 32, [⟨31, 0, .ro⟩]⟩,
  ⟨"WLK.RSTATw", 0x49008600, [(1, 31, 0x8)], 64, [⟨35, 0, .ro⟩]⟩,
  ⟨"WLK.REM_TMO", 0x49008400, [], 32, [⟨15, 0, .rw⟩]⟩,
  ⟨"WLK.REM_STATUS", 0x49008404, [], 32, [⟨31, 24, .rc⟩, ⟨23, 16, .rc⟩, ⟨8, 8, .w1c⟩, ⟨7, 0, .ro⟩]⟩,
  ⟨"WLK.GRP_BASE", 0x49008408, [], 32, [⟨7, 0, .rw⟩]⟩,
  ⟨"WLK.BCAST_MISS", 0x4900840c, [], 32, [⟨31, 1, .w1c⟩]⟩,
  ⟨"WLK.CUM_DELAY", 0x49008410, [], 32, [⟨31, 0, .rw⟩]⟩,
  ⟨"WLK.ALT_DELAY", 0x49008414, [], 32, [⟨31, 0, .rw⟩]⟩,
  ⟨"WLK.HOPDLY", 0x49008418, [], 32, [⟨15, 0, .ro⟩]⟩,
  ⟨"WLK.SYNC_CFG", 0x4900841c, [], 32, [⟨0, 0, .rwf⟩]⟩,
  ⟨"WLK.SYNC_STATUS", 0x49008420, [], 32, [⟨31, 31, .ro⟩, ⟨23, 0, .ro⟩]⟩,
  ⟨"WLK.BULK_WIN", 0x49008430, [], 32, [⟨31, 16, .rw⟩, ⟨15, 0, .rw⟩]⟩,
  ⟨"WLK.BLK_RX_CRC", 0x49008434, [], 32, [⟨31, 0, .ro⟩]⟩,
  ⟨"WLK.BLK_LOCAL", 0x49008440, [], 32, [⟨31, 0, .rw⟩]⟩,
  ⟨"WLK.BLK_REMOTE", 0x49008444, [], 32, [⟨31, 0, .rw⟩]⟩,
  ⟨"WLK.BLK_CTRL", 0x49008448, [], 32, [⟨31, 19, .rw⟩, ⟨18, 16, .rw⟩, ⟨15, 14, .rw⟩, ⟨13, 9, .rw⟩, ⟨1, 1, .rw⟩, ⟨0, 0, .w1s⟩]⟩,
  ⟨"WLK.BLK_STATUS", 0x4900844c, [], 32, [⟨31, 16, .rc⟩, ⟨1, 1, .w1c⟩, ⟨0, 0, .w1c⟩]⟩,
  ⟨"WLK.BLK_CRC", 0x49008450, [], 32, [⟨31, 0, .ro⟩]⟩,
  ⟨"WLK.INT", 0x49008460, [], 32, [⟨5, 5, .w1c⟩, ⟨4, 4, .w1c⟩, ⟨3, 3, .w1c⟩, ⟨2, 2, .w1c⟩, ⟨1, 1, .w1c⟩, ⟨0, 0, .w1c⟩]⟩,
  ⟨"WLK.INT_EN", 0x49008464, [], 32, [⟨5, 0, .rw⟩]⟩,
  ⟨"WLK.REFUSED", 0x49008468, [], 32, [⟨15, 0, .rc⟩]⟩]

/-- The register tables of block NET. -/
def regsNET : List RegDesc := [
  ⟨"NET.PTP_CTRL", 0x4a000000, [], 32, [⟨2, 2, .w1s⟩, ⟨1, 1, .w1s⟩, ⟨0, 0, .w1s⟩]⟩,
  ⟨"NET.PTP_STATUS", 0x4a000004, [], 32, [⟨31, 16, .rc⟩, ⟨2, 2, .ro⟩, ⟨1, 1, .w1c⟩, ⟨0, 0, .ro⟩]⟩,
  ⟨"NET.PTP_INC", 0x4a000008, [], 64, [⟨63, 32, .rw⟩, ⟨31, 0, .rw⟩]⟩,
  ⟨"NET.PTP_OFS", 0x4a000010, [], 32, [⟨31, 0, .wo⟩]⟩,
  ⟨"NET.PTP_NOW_NS", 0x4a000018, [], 32, [⟨29, 0, .rw⟩]⟩,
  ⟨"NET.PTP_NOW_SEC", 0x4a000020, [], 64, [⟨47, 0, .rw⟩]⟩,
  ⟨"NET.PTP_UTC", 0x4a000028, [], 32, [⟨17, 17, .rw⟩, ⟨16, 16, .rw⟩, ⟨15, 0, .rw⟩]⟩,
  ⟨"NET.EPOCH_TS", 0x4a000030, [], 64, [⟨63, 48, .ro⟩, ⟨45, 16, .ro⟩, ⟨9, 0, .ro⟩]⟩,
  ⟨"NET.INT", 0x4a000040, [], 32, [⟨5, 5, .w1c⟩, ⟨4, 4, .w1c⟩, ⟨3, 3, .w1c⟩, ⟨2, 2, .w1c⟩, ⟨1, 1, .w1c⟩, ⟨0, 0, .w1c⟩]⟩,
  ⟨"NET.INT_EN", 0x4a000044, [], 32, [⟨5, 0, .rw⟩]⟩]

/-- The register tables of block MAC. -/
def regsMAC : List RegDesc := [
  ⟨"MACm.CFG", 0x4a001000, [(0, 2, 0x1000)], 32, [⟨31, 31, .rw⟩, ⟨30, 28, .rw⟩, ⟨27, 26, .rw⟩, ⟨25, 25, .rw⟩, ⟨24, 24, .rw⟩, ⟨23, 10, .rw⟩, ⟨0, 0, .w1s⟩]⟩,
  ⟨"MACm.STATUS", 0x4a001004, [(0, 2, 0x1000)], 32, [⟨31, 16, .rc⟩, ⟨2, 1, .ro⟩, ⟨0, 0, .ro⟩]⟩,
  ⟨"MACm.RINGr", 0x4a001010, [(0, 2, 0x1000), (0, 2, 0x4)], 32, [⟨31, 16, .rw⟩, ⟨10, 0, .rw⟩]⟩,
  ⟨"MACm.LQ_ADDR", 0x4a001020, [(0, 2, 0x1000)], 32, [⟨31, 0, .rw⟩]⟩,
  ⟨"MACm.LQ_TIME", 0x4a001028, [(0, 2, 0x1000)], 64, [⟨63, 32, .rw⟩, ⟨29, 0, .rw⟩]⟩,
  ⟨"MACm.LQ_CMD", 0x4a001030, [(0, 2, 0x1000)], 32, [⟨31, 31, .wo⟩, ⟨30, 30, .wo⟩, ⟨26, 16, .wo⟩, ⟨15, 0, .wo⟩]⟩,
  ⟨"MACm.LQ_STATUS", 0x4a001034, [(0, 2, 0x1000)], 32, [⟨31, 24, .rc⟩, ⟨23, 16, .rc⟩, ⟨15, 11, .rc⟩, ⟨10, 0, .ro⟩]⟩,
  ⟨"MACm.TSQ_ENTRY", 0x4a001040, [(0, 2, 0x1000)], 64, [⟨63, 63, .ro⟩, ⟨47, 32, .ro⟩, ⟨29, 0, .ro⟩]⟩,
  ⟨"MACm.TSQ_STATUS", 0x4a001048, [(0, 2, 0x1000)], 32, [⟨31, 16, .ro⟩, ⟨15, 8, .rc⟩, ⟨7, 7, .w1c⟩, ⟨4, 0, .ro⟩]⟩,
  ⟨"MACm.SEC_CFG", 0x4a001050, [(0, 2, 0x1000)], 32, [⟨31, 16, .rw⟩, ⟨15, 8, .rc⟩, ⟨7, 5, .rw⟩, ⟨4, 3, .rw⟩, ⟨2, 1, .rw⟩, ⟨0, 0, .rw⟩]⟩]

/-- The register tables of block SAG. -/
def regsSAG : List RegDesc := [
  ⟨"SAG.STATUS", 0x4b000000, [], 32, [⟨11, 10, .ro⟩, ⟨9, 9, .ro⟩, ⟨8, 8, .ro⟩, ⟨7, 7, .ro⟩, ⟨6, 6, .ro⟩, ⟨5, 5, .ro⟩, ⟨4, 4, .ro⟩, ⟨3, 0, .ro⟩]⟩,
  ⟨"SAG.CMD", 0x4b000004, [], 32, [⟨31, 31, .w1s⟩, ⟨21, 8, .rw⟩, ⟨7, 0, .rw⟩]⟩,
  ⟨"SAG.RESULT", 0x4b000008, [], 32, [⟨31, 31, .ro⟩, ⟨21, 8, .ro⟩, ⟨7, 0, .ro⟩]⟩,
  ⟨"SAG.INT", 0x4b00000c, [], 32, [⟨2, 2, .w1c⟩, ⟨1, 1, .w1c⟩, ⟨0, 0, .w1c⟩]⟩,
  ⟨"SAG.INT_EN", 0x4b000010, [], 32, [⟨2, 0, .rw⟩]⟩,
  ⟨"SAG.REFUSED", 0x4b000014, [], 32, [⟨15, 0, .rc⟩]⟩,
  ⟨"SAG.TAMPER", 0x4b000018, [], 32, [⟨31, 16, .ro⟩, ⟨3, 0, .w1c⟩]⟩,
  ⟨"SAG.ROLLBACK_FW", 0x4b000020, [], 32, [⟨31, 0, .ro⟩]⟩,
  ⟨"SAG.ROLLBACK_GLZ", 0x4b000024, [], 32, [⟨31, 0, .ro⟩]⟩,
  ⟨"SAG.ATTEST_NEXT", 0x4b000028, [], 32, [⟨31, 31, .ro⟩, ⟨24, 0, .ro⟩]⟩]

/-- The register tables of block PUG. -/
def regsPUG : List RegDesc := [
  ⟨"PUG.CFG", 0x4b800000, [], 32, [⟨10, 10, .rw⟩, ⟨9, 9, .rw⟩, ⟨8, 8, .rw⟩, ⟨6, 0, .rw⟩]⟩,
  ⟨"PUG.THR", 0x4b800004, [], 32, [⟨31, 24, .rw⟩, ⟨23, 16, .rw⟩, ⟨15, 8, .rw⟩, ⟨7, 0, .rw⟩]⟩,
  ⟨"PUG.STATUS", 0x4b800008, [], 32, [⟨23, 16, .rc⟩, ⟨6, 5, .ro⟩, ⟨4, 4, .ro⟩, ⟨3, 3, .ro⟩, ⟨2, 2, .ro⟩, ⟨1, 0, .ro⟩]⟩,
  ⟨"PUG.LEVELS", 0x4b80000c, [], 32, [⟨31, 16, .ro⟩, ⟨15, 0, .ro⟩]⟩,
  ⟨"PUG.LG_CFG", 0x4b800010, [], 32, [⟨31, 24, .rw⟩, ⟨18, 16, .rw⟩, ⟨15, 8, .rw⟩, ⟨1, 1, .rw⟩, ⟨0, 0, .rw⟩]⟩,
  ⟨"PUG.INT", 0x4b800014, [], 32, [⟨3, 3, .w1c⟩, ⟨2, 2, .w1c⟩, ⟨1, 1, .w1c⟩, ⟨0, 0, .w1c⟩]⟩,
  ⟨"PUG.INT_EN", 0x4b800018, [], 32, [⟨3, 0, .rw⟩]⟩]

/-- The register tables of block PWR. -/
def regsPWR : List RegDesc := [
  ⟨"PWR.STATUS", 0x4c000000, [], 32, [⟨12, 8, .ro⟩, ⟨6, 6, .ro⟩, ⟨5, 5, .ro⟩, ⟨4, 4, .ro⟩, ⟨3, 3, .ro⟩, ⟨2, 2, .ro⟩, ⟨0, 0, .ro⟩]⟩,
  ⟨"PWR.CTRL", 0x4c000004, [], 32, [⟨1, 1, .w1s⟩, ⟨0, 0, .w1s⟩]⟩,
  ⟨"PWR.PF_WARN", 0x4c000008, [], 32, [⟨7, 0, .rw⟩]⟩,
  ⟨"PWR.GP_CTRL", 0x4c00000c, [], 32, [⟨0, 0, .rw⟩]⟩,
  ⟨"PWR.GP_LOAD", 0x4c000010, [], 32, [⟨15, 0, .ro⟩]⟩,
  ⟨"PWR.VAUX", 0x4c000014, [], 32, [⟨15, 0, .ro⟩]⟩,
  ⟨"PWR.TEMP", 0x4c000018, [], 32, [⟨15, 0, .ro⟩]⟩,
  ⟨"PWR.RESET_CAUSE", 0x4c00001c, [], 32, [⟨7, 0, .ro⟩]⟩,
  ⟨"PWR.BOOT_COUNT", 0x4c000020, [], 32, [⟨31, 0, .ro⟩]⟩,
  ⟨"PWR.WDOG_CFG", 0x4c000024, [], 32, [⟨31, 31, .w1s⟩, ⟨15, 0, .rw⟩]⟩,
  ⟨"PWR.WDOG_KICK", 0x4c000028, [], 32, [⟨31, 0, .wo⟩]⟩,
  ⟨"PWR.INT", 0x4c00002c, [], 32, [⟨4, 4, .w1c⟩, ⟨3, 3, .w1c⟩, ⟨2, 2, .w1c⟩, ⟨1, 1, .w1c⟩, ⟨0, 0, .w1c⟩]⟩,
  ⟨"PWR.INT_EN", 0x4c000030, [], 32, [⟨4, 0, .rw⟩]⟩,
  ⟨"PWR.REFUSED", 0x4c000034, [], 32, [⟨15, 0, .rc⟩]⟩]

/-- The register tables of block GRG. -/
def regsGRG : List RegDesc := [
  ⟨"GRG.CFG", 0x4d000000, [], 32, [⟨2, 2, .rw⟩, ⟨1, 1, .rw⟩, ⟨0, 0, .rw⟩]⟩,
  ⟨"GRG.CMD", 0x4d000004, [], 32, [⟨31, 31, .w1s⟩, ⟨23, 16, .rw⟩, ⟨15, 8, .rw⟩, ⟨7, 4, .rw⟩, ⟨3, 0, .rw⟩]⟩,
  ⟨"GRG.STATUS", 0x4d000008, [], 32, [⟨31, 24, .rc⟩, ⟨23, 15, .ro⟩, ⟨14, 12, .ro⟩, ⟨11, 8, .ro⟩, ⟨2, 1, .ro⟩, ⟨0, 0, .ro⟩]⟩,
  ⟨"GRG.SPARES", 0x4d00000c, [], 32, [⟨31, 14, .ro⟩, ⟨13, 10, .ro⟩, ⟨9, 7, .ro⟩, ⟨6, 6, .ro⟩, ⟨5, 4, .ro⟩, ⟨3, 1, .ro⟩]⟩,
  ⟨"GRG.PROPp", 0x4d000040, [(0, 8, 0x4)], 32, [⟨31, 31, .ro⟩, ⟨30, 28, .ro⟩, ⟨27, 24, .ro⟩, ⟨23, 16, .ro⟩, ⟨15, 8, .ro⟩]⟩,
  ⟨"GRG.MONk", 0x4d000100, [(0, 7, 0x4)], 32, [⟨31, 0, .ro⟩]⟩,
  ⟨"GRG.MAPe", 0x4d001000, [(0, 256, 0x4)], 32, [⟨31, 31, .ro⟩, ⟨30, 30, .ro⟩, ⟨27, 24, .ro⟩, ⟨23, 16, .ro⟩, ⟨15, 8, .ro⟩, ⟨7, 0, .ro⟩]⟩,
  ⟨"GRG.INT", 0x4d000020, [], 32, [⟨4, 4, .w1c⟩, ⟨3, 3, .w1c⟩, ⟨2, 2, .w1c⟩, ⟨1, 1, .w1c⟩, ⟨0, 0, .w1c⟩]⟩,
  ⟨"GRG.INT_EN", 0x4d000024, [], 32, [⟨4, 0, .rw⟩]⟩,
  ⟨"GRG.REFUSED", 0x4d000028, [], 32, [⟨15, 0, .rc⟩]⟩]

/-- The register tables of block CON. -/
def regsCON : List RegDesc := [
  ⟨"CON.CFG", 0x4e000000, [], 32, [⟨23, 16, .rw⟩, ⟨13, 13, .rw⟩, ⟨12, 12, .rw⟩, ⟨11, 0, .rw⟩]⟩,
  ⟨"CON.CTRL", 0x4e000004, [], 32, [⟨7, 7, .rw⟩, ⟨6, 6, .rw⟩, ⟨5, 5, .w1s⟩, ⟨4, 4, .w1s⟩, ⟨3, 3, .w1s⟩, ⟨2, 2, .w1s⟩, ⟨1, 1, .w1s⟩, ⟨0, 0, .w1s⟩]⟩,
  ⟨"CON.STATUS", 0x4e000008, [], 32, [⟨31, 28, .rc⟩, ⟨27, 24, .rc⟩, ⟨23, 20, .rc⟩, ⟨19, 16, .rc⟩, ⟨15, 8, .rc⟩, ⟨3, 3, .ro⟩, ⟨2, 2, .ro⟩, ⟨1, 1, .ro⟩, ⟨0, 0, .ro⟩]⟩,
  ⟨"CON.TMATCH", 0x4e000010, [], 64, [⟨63, 30, .rw⟩, ⟨29, 0, .rw⟩]⟩,
  ⟨"CON.CAP_CFG", 0x4e000020, [], 32, [⟨31, 31, .rw⟩, ⟨30, 28, .rw⟩, ⟨27, 20, .rw⟩, ⟨19, 14, .rw⟩]⟩,
  ⟨"CON.CAP_POST", 0x4e000024, [], 32, [⟨18, 0, .rw⟩]⟩,
  ⟨"CON.CAP_STATUS", 0x4e000028, [], 32, [⟨31, 30, .ro⟩, ⟨29, 29, .ro⟩, ⟨18, 0, .ro⟩]⟩,
  ⟨"CON.CAP_SLOTi", 0x4e000100, [(0, 32, 0x4)], 32, [⟨27, 16, .rw⟩, ⟨11, 0, .rw⟩]⟩,
  ⟨"CON.INT", 0x4e000030, [], 32, [⟨2, 2, .w1c⟩, ⟨1, 1, .w1c⟩, ⟨0, 0, .w1c⟩]⟩,
  ⟨"CON.INT_EN", 0x4e000034, [], 32, [⟨2, 0, .rw⟩]⟩]

/-- The register tables of block PORT. -/
def regsPORT : List RegDesc := [
  ⟨"XSPI.CTRL", 0x40200000, [], 32, [⟨31, 0, .rw⟩]⟩,
  ⟨"XSPI.CMD", 0x40200004, [], 32, [⟨31, 0, .rw⟩]⟩,
  ⟨"XSPI.ADDR", 0x40200008, [], 32, [⟨31, 0, .rw⟩]⟩,
  ⟨"XSPI.STATUS", 0x40200010, [], 32, [⟨1, 0, .ro⟩]⟩,
  ⟨"XSPI.INT", 0x40200014, [], 32, [⟨1, 0, .w1c⟩]⟩,
  ⟨"XSPI.INT_EN", 0x40200018, [], 32, [⟨1, 0, .rw⟩]⟩,
  ⟨"XSPI.BUF", 0x40201000, [(0, 64, 0x4)], 32, [⟨31, 0, .rw⟩]⟩,
  ⟨"MACm.INT", 0x4a001060, [(0, 2, 0x1000)], 32, [⟨2, 0, .w1c⟩]⟩,
  ⟨"MACm.INT_EN", 0x4a001064, [(0, 2, 0x1000)], 32, [⟨2, 0, .rw⟩]⟩,
  ⟨"MDIO.CMD", 0x4a000800, [], 32, [⟨31, 0, .rw⟩]⟩,
  ⟨"MDIO.DATA", 0x4a000804, [], 32, [⟨31, 0, .rw⟩]⟩,
  ⟨"MDIO.STATUS", 0x4a000808, [], 32, [⟨31, 0, .ro⟩]⟩,
  ⟨"CANi.CTRL", 0x4a100000, [(0, 2, 0x10000)], 32, [⟨31, 0, .rw⟩]⟩,
  ⟨"CANi.NBT", 0x4a100004, [(0, 2, 0x10000)], 32, [⟨31, 0, .rw⟩]⟩,
  ⟨"CANi.DBT", 0x4a100008, [(0, 2, 0x10000)], 32, [⟨31, 0, .rw⟩]⟩,
  ⟨"CANi.TDC", 0x4a10000c, [(0, 2, 0x10000)], 32, [⟨31, 0, .rw⟩]⟩,
  ⟨"CANi.STATUS", 0x4a100010, [(0, 2, 0x10000)], 32, [⟨31, 0, .ro⟩]⟩,
  ⟨"CANi.INT", 0x4a100014, [(0, 2, 0x10000)], 32, [⟨3, 0, .w1c⟩]⟩,
  ⟨"CANi.INT_EN", 0x4a100018, [(0, 2, 0x10000)], 32, [⟨3, 0, .rw⟩]⟩,
  ⟨"CANi.FILTk", 0x4a100100, [(0, 2, 0x10000), (0, 32, 0x8), (0, 2, 0x4)], 32, [⟨31, 0, .rw⟩]⟩,
  ⟨"CANi.TXBb", 0x4a101000, [(0, 2, 0x10000), (0, 32, 0x50), (0, 20, 0x4)], 32, [⟨31, 0, .rw⟩]⟩,
  ⟨"CANi.RXBb", 0x4a102000, [(0, 2, 0x10000), (0, 64, 0x50), (0, 20, 0x4)], 32, [⟨31, 0, .ro⟩]⟩,
  ⟨"UARTi.CFG", 0x4a200000, [(0, 4, 0x1000)], 32, [⟨31, 0, .rw⟩]⟩,
  ⟨"UARTi.BAUD", 0x4a200004, [(0, 4, 0x1000)], 32, [⟨31, 0, .rw⟩]⟩,
  ⟨"UARTi.DATA", 0x4a200008, [(0, 4, 0x1000)], 32, [⟨31, 0, .rw⟩]⟩,
  ⟨"UARTi.STATUS", 0x4a20000c, [(0, 4, 0x1000)], 32, [⟨31, 0, .ro⟩]⟩,
  ⟨"UARTi.INT", 0x4a200010, [(0, 4, 0x1000)], 32, [⟨2, 0, .w1c⟩]⟩,
  ⟨"UARTi.INT_EN", 0x4a200014, [(0, 4, 0x1000)], 32, [⟨2, 0, .rw⟩]⟩,
  ⟨"SPIi.CFG", 0x4a300000, [(0, 3, 0x1000)], 32, [⟨31, 0, .rw⟩]⟩,
  ⟨"SPIi.CS", 0x4a300004, [(0, 3, 0x1000)], 32, [⟨31, 0, .rw⟩]⟩,
  ⟨"SPIi.DATA", 0x4a300008, [(0, 3, 0x1000)], 32, [⟨31, 0, .rw⟩]⟩,
  ⟨"SPIi.STATUS", 0x4a30000c, [(0, 3, 0x1000)], 32, [⟨31, 0, .ro⟩]⟩,
  ⟨"SPIi.INT", 0x4a300010, [(0, 3, 0x1000)], 32, [⟨31, 0, .w1c⟩]⟩,
  ⟨"SPIi.INT_EN", 0x4a300014, [(0, 3, 0x1000)], 32, [⟨31, 0, .rw⟩]⟩,
  ⟨"I2Ci.CFG", 0x4a400000, [(0, 2, 0x1000)], 32, [⟨31, 0, .rw⟩]⟩,
  ⟨"I2Ci.OWN", 0x4a400004, [(0, 2, 0x1000)], 32, [⟨31, 0, .rw⟩]⟩,
  ⟨"I2Ci.CMD", 0x4a400008, [(0, 2, 0x1000)], 32, [⟨31, 0, .rw⟩]⟩,
  ⟨"I2Ci.DATA", 0x4a40000c, [(0, 2, 0x1000)], 32, [⟨31, 0, .rw⟩]⟩,
  ⟨"I2Ci.STATUS", 0x4a400010, [(0, 2, 0x1000)], 32, [⟨31, 0, .ro⟩]⟩,
  ⟨"I2Ci.INT", 0x4a400014, [(0, 2, 0x1000)], 32, [⟨31, 0, .w1c⟩]⟩,
  ⟨"I2Ci.INT_EN", 0x4a400018, [(0, 2, 0x1000)], 32, [⟨31, 0, .rw⟩]⟩]

/-- Every register table of the spec. -/
def regTable : List RegDesc :=
  regsSYS ++ regsGLZ ++ regsRGS ++ regsWHL ++ regsGSU ++ regsRTS ++ regsISL ++ regsDCI ++ regsMOD ++ regsSET ++ regsWIN ++ regsSIT ++ regsADC ++ regsMET ++ regsCLK ++ regsLANE ++ regsWLK ++ regsNET ++ regsMAC ++ regsSAG ++ regsPUG ++ regsPWR ++ regsGRG ++ regsCON ++ regsPORT

/-- Registers with a reset value other than zero, part 0. -/
def resetCells0 : List (Nat × BitVec 64) := [
  (0x40000000, 0x7180),
  (0x40000004, 0x1),
  (0x40000008, 0x17180a6b),
  (0x40000040, 0x1),
  (0x40200000, 0x4),
  (0x41c00000, 0x41004),
  (0x41c00018, 0x100),
  (0x42000000, 0x3000010),
  (0x42000028, 0xa140a0a),
  (0x42001000, 0x3000010),
  (0x42001028, 0xa140a0a),
  (0x42002000, 0x3000010),
  (0x42002028, 0xa140a0a),
  (0x42003000, 0x3000010),
  (0x42003028, 0xa140a0a),
  (0x42100000, 0x420),
  (0x42100008, 0x514),
  (0x42200010, 0x40140032),
  (0x42200014, 0x4000000a),
  (0x42200018, 0x28000a),
  (0x4220001c, 0x32),
  (0x42200020, 0xa142000),
  (0x42200024, 0x5145014),
  (0x42200040, 0x4009902),
  (0x422000b0, 0x1e144200),
  (0x422000b4, 0x320064),
  (0x42300000, 0x1c4),
  (0x42300100, 0x180a0405),
  (0x43000018, 0xc800),
  (0x4300001c, 0x70190),
  (0x43000118, 0xc800),
  (0x4300011c, 0x70190),
  (0x43000218, 0xc800),
  (0x4300021c, 0x70190),
  (0x43000318, 0xc800),
  (0x4300031c, 0x70190),
  (0x43000418, 0xc800),
  (0x4300041c, 0x70190),
  (0x43000518, 0xc800),
  (0x4300051c, 0x70190),
  (0x43000618, 0xc800),
  (0x4300061c, 0x70190),
  (0x43000718, 0xc800),
  (0x4300071c, 0x70190),
  (0x43000818, 0xc800),
  (0x4300081c, 0x70190),
  (0x43001010, 0x1400),
  (0x44000010, 0x40512),
  (0x44000014, 0x69),
  (0x44000024, 0x1000100),
  (0x44000034, 0x1000100),
  (0x44000044, 0x7f7f),
  (0x44001010, 0x40512),
  (0x44001014, 0x69),
  (0x44001024, 0x1000100),
  (0x44001034, 0x1000100),
  (0x44001044, 0x7f7f),
  (0x44002010, 0x40512),
  (0x44002014, 0x69),
  (0x44002024, 0x1000100)]

/-- Registers with a reset value other than zero, part 1. -/
def resetCells1 : List (Nat × BitVec 64) := [
  (0x44002034, 0x1000100),
  (0x44002044, 0x7f7f),
  (0x44003010, 0x40512),
  (0x44003014, 0x69),
  (0x44003024, 0x1000100),
  (0x44003034, 0x1000100),
  (0x44003044, 0x7f7f),
  (0x44004010, 0x40512),
  (0x44004014, 0x69),
  (0x44004024, 0x1000100),
  (0x44004034, 0x1000100),
  (0x44004044, 0x7f7f),
  (0x44005010, 0x40512),
  (0x44005014, 0x69),
  (0x44005024, 0x1000100),
  (0x44005034, 0x1000100),
  (0x44005044, 0x7f7f),
  (0x44006010, 0x40512),
  (0x44006014, 0x69),
  (0x44006024, 0x1000100),
  (0x44006034, 0x1000100),
  (0x44006044, 0x7f7f),
  (0x44007010, 0x40512),
  (0x44007014, 0x69),
  (0x44007024, 0x1000100),
  (0x44007034, 0x1000100),
  (0x44007044, 0x7f7f),
  (0x44008010, 0x40512),
  (0x44008014, 0x69),
  (0x44008024, 0x1000100),
  (0x44008034, 0x1000100),
  (0x44008044, 0x7f7f),
  (0x44800014, 0x64),
  (0x44800024, 0xffffffff),
  (0x45000004, 0xfff0000),
  (0x45000008, 0xfff0000),
  (0x45000010, 0x2),
  (0x45000044, 0xfff0000),
  (0x45000048, 0xfff0000),
  (0x45000050, 0x2),
  (0x45000084, 0xfff0000),
  (0x45000088, 0xfff0000),
  (0x45000090, 0x2),
  (0x450000c4, 0xfff0000),
  (0x450000c8, 0xfff0000),
  (0x450000d0, 0x2),
  (0x45000104, 0xfff0000),
  (0x45000108, 0xfff0000),
  (0x45000110, 0x2),
  (0x45000144, 0xfff0000),
  (0x45000148, 0xfff0000),
  (0x45000150, 0x2),
  (0x45000184, 0xfff0000),
  (0x45000188, 0xfff0000),
  (0x45000190, 0x2),
  (0x450001c4, 0xfff0000),
  (0x450001c8, 0xfff0000),
  (0x450001d0, 0x2),
  (0x45000204, 0xfff0000),
  (0x45000208, 0xfff0000)]

/-- Registers with a reset value other than zero, part 2. -/
def resetCells2 : List (Nat × BitVec 64) := [
  (0x45000210, 0x2),
  (0x45000244, 0xfff0000),
  (0x45000248, 0xfff0000),
  (0x45000250, 0x2),
  (0x45000284, 0xfff0000),
  (0x45000288, 0xfff0000),
  (0x45000290, 0x2),
  (0x450002c4, 0xfff0000),
  (0x450002c8, 0xfff0000),
  (0x450002d0, 0x2),
  (0x45000304, 0xfff0000),
  (0x45000308, 0xfff0000),
  (0x45000310, 0x2),
  (0x45000344, 0xfff0000),
  (0x45000348, 0xfff0000),
  (0x45000350, 0x2),
  (0x45000384, 0xfff0000),
  (0x45000388, 0xfff0000),
  (0x45000390, 0x2),
  (0x450003c4, 0xfff0000),
  (0x450003c8, 0xfff0000),
  (0x450003d0, 0x2),
  (0x45000404, 0xfff0000),
  (0x45000408, 0xfff0000),
  (0x45000410, 0x2),
  (0x45000444, 0xfff0000),
  (0x45000448, 0xfff0000),
  (0x45000450, 0x2),
  (0x45000484, 0xfff0000),
  (0x45000488, 0xfff0000),
  (0x45000490, 0x2),
  (0x450004c4, 0xfff0000),
  (0x450004c8, 0xfff0000),
  (0x450004d0, 0x2),
  (0x45000504, 0xfff0000),
  (0x45000508, 0xfff0000),
  (0x45000510, 0x2),
  (0x45000544, 0xfff0000),
  (0x45000548, 0xfff0000),
  (0x45000550, 0x2),
  (0x45000584, 0xfff0000),
  (0x45000588, 0xfff0000),
  (0x45000590, 0x2),
  (0x450005c4, 0xfff0000),
  (0x450005c8, 0xfff0000),
  (0x450005d0, 0x2),
  (0x45000604, 0xfff0000),
  (0x45000608, 0xfff0000),
  (0x45000610, 0x2),
  (0x45000644, 0xfff0000),
  (0x45000648, 0xfff0000),
  (0x45000650, 0x2),
  (0x45000684, 0xfff0000),
  (0x45000688, 0xfff0000),
  (0x45000690, 0x2),
  (0x450006c4, 0xfff0000),
  (0x450006c8, 0xfff0000),
  (0x450006d0, 0x2),
  (0x45000704, 0xfff0000),
  (0x45000708, 0xfff0000)]

/-- Registers with a reset value other than zero, part 3. -/
def resetCells3 : List (Nat × BitVec 64) := [
  (0x45000710, 0x2),
  (0x45000744, 0xfff0000),
  (0x45000748, 0xfff0000),
  (0x45000750, 0x2),
  (0x45000784, 0xfff0000),
  (0x45000788, 0xfff0000),
  (0x45000790, 0x2),
  (0x450007c4, 0xfff0000),
  (0x450007c8, 0xfff0000),
  (0x450007d0, 0x2),
  (0x45000804, 0xfff0000),
  (0x45000808, 0xfff0000),
  (0x45000810, 0x2),
  (0x45000844, 0xfff0000),
  (0x45000848, 0xfff0000),
  (0x45000850, 0x2),
  (0x45000884, 0xfff0000),
  (0x45000888, 0xfff0000),
  (0x45000890, 0x2),
  (0x450008c4, 0xfff0000),
  (0x450008c8, 0xfff0000),
  (0x450008d0, 0x2),
  (0x45000904, 0xfff0000),
  (0x45000908, 0xfff0000),
  (0x45000910, 0x2),
  (0x45000944, 0xfff0000),
  (0x45000948, 0xfff0000),
  (0x45000950, 0x2),
  (0x45000984, 0xfff0000),
  (0x45000988, 0xfff0000),
  (0x45000990, 0x2),
  (0x450009c4, 0xfff0000),
  (0x450009c8, 0xfff0000),
  (0x450009d0, 0x2),
  (0x45000a04, 0xfff0000),
  (0x45000a08, 0xfff0000),
  (0x45000a10, 0x2),
  (0x45000a44, 0xfff0000),
  (0x45000a48, 0xfff0000),
  (0x45000a50, 0x2),
  (0x45000a84, 0xfff0000),
  (0x45000a88, 0xfff0000),
  (0x45000a90, 0x2),
  (0x45000ac4, 0xfff0000),
  (0x45000ac8, 0xfff0000),
  (0x45000ad0, 0x2),
  (0x46000008, 0x1f0000),
  (0x46000108, 0x1f0000),
  (0x46000208, 0x1f0000),
  (0x46000308, 0x1f0000),
  (0x46000408, 0x1f0000),
  (0x46000508, 0x1f0000),
  (0x46000608, 0x1f0000),
  (0x46000708, 0x1f0000),
  (0x46000808, 0x1f0000),
  (0x46000908, 0x1f0000),
  (0x46000a08, 0x1f0000),
  (0x46000b08, 0x1f0000),
  (0x46000c08, 0x1f0000),
  (0x46000d08, 0x1f0000)]

/-- Registers with a reset value other than zero, part 4. -/
def resetCells4 : List (Nat × BitVec 64) := [
  (0x46000e08, 0x1f0000),
  (0x46000f08, 0x1f0000),
  (0x46001008, 0x1f0000),
  (0x46001108, 0x1f0000),
  (0x47000014, 0xa050a00),
  (0x47000018, 0x6e5a0514),
  (0x48000104, 0x1020060),
  (0x48000124, 0x1040080),
  (0x48000144, 0x2080100),
  (0x48000164, 0x10a0064),
  (0x48000184, 0x7d323000),
  (0x480001a4, 0x41401f4),
  (0x480001c4, 0x41401f4),
  (0x49000020, 0x10000),
  (0x4900003c, 0x640014),
  (0x49001020, 0x10000),
  (0x4900103c, 0x640014),
  (0x49002020, 0x10000),
  (0x4900203c, 0x640014),
  (0x49003020, 0x10000),
  (0x4900303c, 0x640014),
  (0x49004020, 0x10000),
  (0x4900403c, 0x640014),
  (0x49005020, 0x10000),
  (0x4900503c, 0x640014),
  (0x49008000, 0x190032),
  (0x49008400, 0x1388),
  (0x49008408, 0x40),
  (0x4a000008, 0x400000000),
  (0x4a000028, 0x25),
  (0x4a001000, 0x417b800),
  (0x4a002000, 0x417b800),
  (0x4a100004, 0xf07),
  (0x4a100008, 0xf07),
  (0x4a110004, 0xf07),
  (0x4a110008, 0xf07),
  (0x4a200004, 0x87a),
  (0x4a201004, 0x87a),
  (0x4a202004, 0x87a),
  (0x4a203004, 0x87a),
  (0x4b800000, 0x732),
  (0x4b800004, 0x5c523c34),
  (0x4b800010, 0x43201),
  (0x4c000000, 0x1f01),
  (0x4c000008, 0x20),
  (0x4c00001c, 0x1),
  (0x4c000024, 0x3e8),
  (0x4d000000, 0x3),
  (0x4e000000, 0xff0000)]

/-- Registers with a reset value other than zero, by rising address. -/
def resetCells : List (Nat × BitVec 64) :=
  resetCells0 ++ resetCells1 ++ resetCells2 ++ resetCells3 ++ resetCells4

end Sys2Proof.Machine
end

