-- ==== Sys2Proof/Types.lean ====
section
/-!
DEFINITION. The types of the commands' operands and of the block's outputs: sides of a comparator, edges, measurements,
images, frames. Plain data.
-/

namespace Sys2Proof

open Machine (Fld)

/-- The islands of the block (R12). -/
inductive Isl where
  | host | wheel | mod | sense | net | lane | meter | saggar | tile
  | serial (l : Fin 6) -- the part of the LANE island that lane `l` clocks
  deriving DecidableEq, Repr

/-- What the last bus access answered: its value and whether it ended in a bus error (R402 to R404). -/
structure Resp where
  value : DWord := 0
  err : Bool := false
  deriving DecidableEq, Repr

/-- A time on the PTP clock: seconds, nanoseconds, and the fraction of a nanosecond in 2^-32 (R325, R328). -/
structure Ptp where
  sec : Nat := 0
  ns : Nat := 0
  frac : Nat := 0
  deriving DecidableEq, Repr

/-- The side of its thresholds on which a comparator's input lies (R208). -/
inductive WinSide where
  | inside | above | below
  deriving DecidableEq, Repr

/-- The STATE code of a side (R214). -/
def WinSide.code : WinSide → Nat
  | .inside => 0
  | .above => 1
  | .below => 3

/-- The edges a pair issues, and the end of a wait that the guard of R183 imposes. -/
inductive EdgeKind where
  | aOn | aOff | bOn | bOff | guard | forceOff | forceOn
  deriving DecidableEq, Repr

/-- An event of pair `pair`, `cycle` MOD cycles ahead of the state's count. -/
structure PairAt where
  pair : Fin 9
  cycle : Nat := 0
  deriving DecidableEq, Repr

/-- A publication of group `group` (or, with none, of another owner), `cycle` MOD cycles ahead of the state's count. -/
structure ArrivalAt where
  group : Option (Fin 8)
  cycle : Nat := 0
  deriving DecidableEq, Repr

/-- A period start of pair `pair`, with the gates of its tile that are found at or above VNEG + 2.0 V: bit 0 of A, bit 1 of B (R194). -/
structure PairGates where
  pair : Fin 9
  high : BitVec 2 := 0
  deriving DecidableEq, Repr

/-- An edge, with the gates of the tile that are found at or above VNEG + 2.0 V: bit 0 of A, bit 1 of B (R194). -/
structure EdgeAt where
  kind : EdgeKind
  high : BitVec 2 := 0
  deriving DecidableEq, Repr

/-- What a comparator sees: the side of its input, its last fifteen samples, newest in bit 0 (R212), and the ADC cores
whose converter is found past its bit trials (R235). -/
structure WinSight where
  side : WinSide
  seen : BitVec 15 := 0x7FFF
  idle : BitVec 16 := 0
  deriving DecidableEq, Repr

/-- Comparator `unit` with its last fifteen samples, newest in bit 0 (R212). -/
structure WinSeen where
  unit : Fin 44
  seen : BitVec 15 := 0x7FFF
  deriving DecidableEq, Repr

/-- Comparator `unit` with the ADC cores whose converter is found past its bit trials (R235). -/
structure WinIdle where
  unit : Fin 44
  idle : BitVec 16 := 0
  deriving DecidableEq, Repr

/-- What one diagnostic interval measured (R202 to R204). -/
structure DiagObs where
  gateMv : Int := 0       -- D0: gate against _COM at the end, in mV
  reachNs : Nat := 0      -- D1: time at which the source reached compliance, in ns; a large number if it did not
  capPf : Nat := 0        -- D1: capacitance found from the first 20 µs, in pF
  held : Bool := false    -- D1: the source held compliance
  settledMv : Nat := 0    -- D1: settled voltage below compliance, in mV
  heldUa : Nat := 0       -- D1: current at compliance, in µA
  clampMv : Nat := 0      -- D2: _CLAMP at the end, in mV
  desatMv : Nat := 0      -- D3: _DESAT reached, in mV
  deriving DecidableEq, Repr

/-- One field of a register table that a section of a Glaze sets (R27, R33). -/
structure FieldSet where
  fld : Fld          -- the field
  section_ : Nat     -- TYPE of the section that sets it
  value : Nat        -- its value
  lo : Nat           -- least value firmware may trim it to, in a trimmable section
  hi : Nat           -- largest such value
  deriving DecidableEq, Repr

/-- One entry of the section table (R32). -/
structure SectionEntry where
  typ : Nat
  flags : Nat
  offset : Nat
  length : Nat
  zero : Nat := 0   -- its last four bytes, which must be zero
  deriving DecidableEq, Repr

/-- Gate charge declared for a channel in the GATE section, in nC (R37). -/
structure GateCharge where
  tile : Nat
  chan : Nat
  nC : Nat
  deriving DecidableEq, Repr

/-- What the WPROG section declares for one integrator state: the bank words of its gain, upper and lower limit, and its
preset at firing (R42, R89). -/
structure IntegDecl where
  k : Nat := 0
  hi : Nat := 0
  lo : Nat := 0
  preset : Word := 0
  deriving DecidableEq, Repr

/-- The action of a residual channel; a code that names neither is refused (R94). -/
inductive ResidAct where
  | subst | stop | neither
  deriving DecidableEq, Repr

/-- What the WPROG section declares for one residual channel: threshold word, count, action, sensor (R94). -/
structure ResidDecl where
  thr : Nat := 0
  n : Nat := 0
  action : ResidAct := .subst
  adc : Nat := 0
  ain : Nat := 0
  deriving DecidableEq, Repr

/-- The action is STOP (R94). -/
def ResidDecl.stop (d : ResidDecl) : Bool := d.action == .stop

/-- A Wheel as the WPROG section declares it: its group, entry address, program, integrator states and residual channels
(R33, R42, R46, R89, R94). -/
structure WheelDecl where
  wheel : Nat := 0
  group : Option Nat := none
  entry : Nat := 0
  program : List DWord := []
  integ : List IntegDecl := []
  resid : List (Nat × ResidDecl) := []
  deriving DecidableEq, Repr

/-- A signed message: its bytes, among them one of the Saggar's nonces where it has one, named by the serial number of its draw (R344). -/
structure Signed where
  head : List Byte := []
  nonce : Option Nat := none
  tail : List Byte := []
  deriving DecidableEq, Repr

/-- An HSS signature as verification reads it: the public key to whose private half it belongs, the LMS and LM-OTS types of its levels from
the top on (RFC 8554), and the message it signs (R338). (DESIGN CHOICE, log entry 130.) -/
structure HssSig where
  key : BitVec 480 := 0
  types : List (Nat × Nat) := []
  covers : Signed := {}
  deriving DecidableEq, Repr

/-- A wrapped key as unwrapping reads it: the key it is wrapped under, its additional data, and what it holds (R343, R352). (DESIGN CHOICE,
log entry 130.) -/
structure Wrapped where
  key : Nat := 0
  aad : List Byte := []
  plain : BitVec 256 := 0
  deriving DecidableEq, Repr

/-- What a LOAD finds at its source: the image's bytes in the xSPI flash (with SRC_SEL = 1 the bytes in system SRAM take their place,
R35); what the sections hold, since the spec gives their contents but not their bytes; whether the source could be read; and the HSS
signature that the signature block spells. (DESIGN CHOICE, log entry 88.) -/
structure GlazeFile where
  bytes : List Byte := []
  fourthLeg : Bool := false
  dcLegs : Nat := 0
  fields : List FieldSet := []
  wheels : List WheelDecl := []
  coefs : List (Nat × Nat × Nat × Word) := []    -- Wheel, bank, index, word
  slots : List (Nat × Word) := []
  owners : List (Nat × Nat × Nat) := []          -- slot, KIND, INDEX of its owner
  gate : List GateCharge := []
  ringOf : List (Nat × Nat) := []                 -- manager: ring lanes, each with the chain whose far end it receives (R293)
  expectId : List (Nat × Nat) := []               -- manager: IMAGE_ID expected of a worker, where not 0 (R300)
  readOk : Bool := true
  sig : HssSig := {}
  deriving DecidableEq, Repr

/-- A Glaze image as the loader has read it: the header of R31 and the section table of R32, decoded from the image's bytes; `zeroTail`
says that the header's last 64 bytes are zero, `shaOk` that CONTENT_DIGEST is the SHA-256 of the content, `totalLen` how many bytes
there are, `sigLen` the length that the signature block gives, `signed` the bytes that its signature covers. -/
structure GlazeImage extends GlazeFile where
  magic : Nat := 0x375A4C47
  format : Nat := 1
  hdrLen : Nat := 0x80
  imageLen : Nat := 0x80
  part : Nat := 0x7180
  minStep : Nat := 1
  cls : Nat := 0
  role : Nat := 0
  sectionCount : Nat := 0
  imageId : Nat := 0
  version : Nat := 0
  toolVersion : Nat := 0
  digest : Nat := 0
  zeroTail : Bool := true
  totalLen : Nat := 0x80
  sigLen : Nat := 0
  signed : List Byte := []
  sections : List SectionEntry := []
  shaOk : Bool := true
  deriving DecidableEq, Repr

/-- A refusal of a load or a firing: code, section and instance at fault (R36). -/
structure Refuse where
  code : Nat
  section_ : Nat := 0
  detail : Nat := 0xFFFF
  deriving DecidableEq, Repr

/-- Placement of logical resources on physical ones, computed at load: physical cell of each logical Wheel (R35, R47). -/
structure Placement where
  wheels : List (Nat × Nat) := []
  deriving DecidableEq, Repr

/-- What a frame that arrives says, and whether its CRC holds (R295). -/
structure Framed (α : Type) where
  crcOk : Bool
  body : α
  deriving DecidableEq, Repr

/-- How a remote request arrives: whether its CRC holds, whether it is addressed to this worker, its tag (R295, R307). -/
structure ReqHead where
  crcOk : Bool
  mine : Bool
  tag : BitVec 7
  deriving DecidableEq, Repr

/-- A frame header (R294). -/
structure FrameHeader where
  cls : Nat
  scope : Nat := 0
  dst : Nat := 0
  src : Nat := 0
  grp : Nat := 0
  pos : Nat := 0
  tag : Nat := 0
  op : Nat := 0
  len : Nat := 0
  deriving DecidableEq, Repr

/-- The ordered units (R294). -/
inductive UnitKind where
  | delayReq | delayRsp | flow | ring | sync | stop
  deriving DecidableEq, Repr

/-- Units the block hands to its outputs: lanes, pins, Ethernet. They leave with the next tick. -/
inductive OutUnit where
  | unit (kind : UnitKind) (lane content : Nat)      -- an ordered unit on a lane; of RING: 0 keep-alive, 1 REVERSE, 2 restored (R294, R317)
  | frame (lane : Nat) (head : FrameHeader) (payload : List Nat) -- a frame on a lane (R294)
  | pass (lane : Nat)                                -- the unit received passes unchanged to a lane (R297)
  | loopAnswer (lane : Nat) (accepted : Bool)        -- the answer to the partner's request for a far-end loopback (R289)
  | loopRequest (lane : Nat) (on : Bool)             -- that request, or its end (R289)
  | eth (mac : Nat) (bytes : List Byte) (prot : Option (Nat × Nat × Nat)) -- an Ethernet frame, and SA, PN and confidentiality offset
                                                     -- that protect it (R323, R324, R329)
  | pause (mac quanta : Nat)                         -- a PAUSE frame (R321)
  | port (addr value : Nat)                          -- a value that a port register hands to its port (R332, R410)
  | gasp (words : List Nat)                          -- a last-gasp message on PUG_TXD (R365)
  deriving DecidableEq, Repr

/-- What a received frame's SecTAG says: secure channel, association number, packet number (R324). -/
structure SecTag where
  sc : Fin 8
  an : Fin 4
  pn : DWord
  deriving DecidableEq, Repr

/-- Operand B of an operation that has an immediate form: a register or the immediate (R76). -/
inductive Opnd where
  | reg (r : Fin 64)
  | imm (v : Word)
  deriving DecidableEq, Repr

/-- An address of form S or K: the field and, with IX = 1, the index register (R75). -/
structure Ixd (n : Nat) where
  base : BitVec n
  ix : Option (Fin 64) := none
  deriving DecidableEq, Repr

/-- The compare conditions of R79. -/
inductive Cond where
  | eq | ne | lt | le | gt | ge | un
  deriving DecidableEq, Repr

/-- The predicate functions of PSET (R79). -/
inductive PFun where
  | and | or | xor | andNot | not | one | zero | copy
  deriving DecidableEq, Repr

/-- What stands in a slot of the flash: its bytes, whether they can be read, and the HSS signature that its signature block spells (R337,
R339, R340). -/
structure FwFile where
  bytes : List Byte := []
  readOk : Bool := true
  sig : HssSig := {}
  deriving DecidableEq, Repr

/-- An image in a slot as the Saggar has read it (R337, R339): whether it can be read, is well formed, and its signature and digest
verify; its version, digest and entry point; and the bytes it loads. -/
structure FwSlot where
  readOk : Bool := true
  formatOk : Bool := true
  signatureOk : Bool := true
  version : Nat := 0
  digest : Nat := 0
  entry : Nat := 0
  content : List Byte := []
  deriving DecidableEq, Repr

/-- A copy of the boot table: whether its CRC-32 holds, its sequence number, the active firmware and Glaze slots, and the flash offsets of
slots A and B of both kinds (R337). (DESIGN CHOICE, log entry 132.) -/
structure BootCopy where
  crcOk : Bool := true
  seq : Nat := 0
  fwSlot : Nat := 0
  glzSlot : Nat := 0
  fw : Nat × Nat := (0x10000, 0x420000)
  glz : Nat × Nat := (0x830000, 0xA40000)
  deriving DecidableEq, Repr

/-- What boot finds: both firmware slots and the active Glaze slot (R339). -/
structure BootFacts where
  slotA : FwFile := {}
  slotB : FwFile := {}
  glaze : FwFile := {}
  deriving DecidableEq, Repr

/-- The four key slots of ROTATE (R342, R343). -/
inductive KeySlot where
  | fw | glz | svc | okek
  deriving DecidableEq, Repr

/-- A response to a tamper event (R353). -/
inductive Tamper where
  | log | lock | zeroise
  deriving DecidableEq, Repr

/-- A request with what the Saggar finds of it: the services of R349 with the operands of their rows. -/
inductive SvcReq where
  | getInfo
  | getNonce
  | attest (nonce : Vector Word 8) (verifies : Bool)
  | getCert
  | enroll (fw glz svc : BitVec 480) (okek : BitVec 256) (sig : HssSig)
  | rotate (k : KeySlot) (v : BitVec 480) (wrap : Wrapped) (sig : HssSig)
  | release (sig : HssSig)
  | fwConfirm
  | setBoot (glz : Bool) (slot : Fin 2) (img : FwFile)
  | counterInc (k : Fin 8)
  | counterRead (k : Fin 8)
  | debugUnlock (two : Bool) (sig : HssSig)
  | debugLock
  | totalsReset (sig : HssSig)
  | tamperCfg (temp volt clk : Tamper) (hi : Fin 41) (sig : HssSig)
  | zeroise (sig : HssSig)
  | cakInstall (m : Fin 2) (slot : Fin 4) (ckn : List Byte) (wrap : Wrapped)
  | sakGen (m : Fin 2) (a : Fin 36) (slot : Fin 4)
  | sakLoad (m : Fin 2) (a : Fin 36) (slot : Fin 4) (wrap : Wrapped)
  | mkaIcv (m : Fin 2) (slot : Fin 4) (pdu : List Byte)
  | random (n : BitVec 14)
  deriving DecidableEq, Repr

/-- What an access finds outside the registers it names: the image that a LOAD would read and whether the staged content is intact
(R35, R36), whether the ring's links are up (R318), how many bytes a flash command programs or erases (R340), the partner's answer
to a far-end loopback (R289), whether an urgent request falls in a tracking gap (R235), what the Saggar finds of the bytes in SAG.REQ and in
the flash: a signature, a wrapped key, a slot's image, whether the signature it makes verifies (R349), and, set by the block alone, whether the access was
held in phase 0x5 (R41). -/
structure BusFacts where
  image : Option GlazeFile := none
  intact : Bool := true
  linksUp : Bool := true
  span : Nat := 0
  rlb : Option Bool := none
  gap : Bool := false
  sig : HssSig := {}
  wrap : Wrapped := {}
  flash : FwFile := {}
  verifies : Bool := true
  late : Bool := false
  deriving DecidableEq, Repr

/-- The factors a calibration finds, as numbers before they are fitted into their fields (R237): offset in 1/16 LSB, gain in
2^-20, LIN0 to LIN7 in 1/64 LSB. -/
structure CalFactors where
  ofs : Int := 0
  gain : Int := 0
  lin : Vector Int 8 := Vector.replicate 8 0
  deriving DecidableEq, Repr

/-- What the metering channels give at one sample boundary (R243, R245, R252): 24-bit results, two's complement, of V1, V2, V3, VN and of the main
paths of I1, I2, I3, IN; results of the second paths; modulator overload of the main paths; and, where a half cycle ends here, the
number of samples of the cycle that ends with it. -/
structure MeterObs where
  main : Vector (BitVec 24) 8 := Vector.replicate 8 0
  second : Vector (BitVec 24) 4 := Vector.replicate 4 0
  ovf : Vector Bool 4 := Vector.replicate 4 false
  half : Option Nat := none
  deriving DecidableEq, Repr

/-- What an ANNOUNCE frame carries (R299): UID, PARTID, REVID, GLZ.ACTIVE_ID, role, lane generation. -/
structure Announce where
  uid : DWord := 0
  part : BitVec 16 := 0x7180
  rev : BitVec 16 := 0
  imageId : Word := 0
  role : Fin 3 := 2
  gen : BitVec 2 := 0
  deriving DecidableEq, Repr

/-- What a BULK frame asks (R310): data written from an address on, whether it is the first of its transfer; or, at a worker, the
start of a read of `units` times 512 bytes of a space. At the manager a frame can acknowledge negatively; at a worker it can be for
another block, and only passes (R297). -/
inductive BulkFrame where
  | data (first : Bool) (addr : Word) (words : List DWord)
  | fetch (space : Fin 3) (addr : Word) (units : Nat)
  | nack (w : BitVec 5)
  | other
  deriving DecidableEq, Repr

/-- A CTRL frame as the worker it reaches sees it (R302): the plant period it names, this worker's record of eight reference
words if it carries one, PLANT_STOP, the ISL command and the hop step. -/
structure CtrlFrame where
  period : Word := 0
  refs : Option (Vector Word 8) := none
  plantStop : Bool := false
  isl : BitVec 3 := 0
  hop : Option (BitVec 4) := none
  deriving DecidableEq, Repr
/-- An access to a block of R41 that waits for the end of phase 0x5: the same accesses as the commands of these names. -/
inductive Held where
  | registerWrite (a : Nat) (v : DWord) (n : Nat)
  | registerReadClear (a : Nat) (n : Nat)
  | aliasWrite (a : Nat) (v : DWord) (n : Nat)
  | aliasRead (a : Nat) (n : Nat)
  | rwfWrite (a : Nat) (v : DWord)
  | slotWrite (k : BitVec 12) (v : Word)
  | coefBankWrite (w : Fin 64) (b : Fin 2) (i : BitVec 10) (v : Word)
  | swapRequest (k : Fin 8) (bank : Fin 2) (atPlant : Bool)
  | istateWrite (w : Fin 64) (j : Fin 4) (v : Word)
  | mboxRead
  | mboxThreshWrite (v : BitVec 7)
  | clearTrip
  | islCmd (c : Nat)
  | dciSweepRequest (l : Fin 6)
  | dciAbort
  | periodWrite (p : Fin 9) (v : Word)
  | ovrWrite (p : Fin 9) (v : Word)
  | hopEval
  | quietBandWrite (k : Fin 8) (hi : Bool) (v : Word)
  | trimWrite (n : Fin 9) (c : Fin 2) (v : Word)
  | arm (n : Fin 9)
  | disarm (n : Fin 9)
  | desatClear (n : Fin 9) (c : Fin 2)
  | bootStopClear (n : Fin 9)
  | supplyUvClear (n : Fin 9) (c : Fin 2)
  | diag (n : Fin 9)
  | diagAbort (n : Fin 9)
  | winThrWrite (n : Fin 44) (v : Word)
  | selftest (n : Fin 44)
  | shadow (n : Fin 44)
  | pairStatClear (mask : BitVec 9)
  | stop (alsoClear : Bool)
  | clearStop
  | plantStop
  | clearPlant
  | adcStart (n : Fin 18) (gap : Bool)
  | cal (n : Fin 18)
  | calAll
  deriving DecidableEq, Repr

/-- What the estimator correlated for one tone: the complex voltage and current in the positive-sequence frame (R135). -/
structure ToneMeas where
  vr : Word := 0
  vi : Word := 0
  ir : Word := 0
  ii : Word := 0
  deriving DecidableEq, Repr


end Sys2Proof
end

