-- ==== Sys2Proof/Machine/Program.lean ====
section
/-!
DEFINITION. The loader's check of Wheel programs: the words of R74 to R76 and R83, and the rules R77, R80 and R81.
-/

namespace Sys2Proof.Machine

open Sys2Proof

/-- Bits `hi` down to `lo`. -/
def bits (hi lo : Nat) : Nat := (2 ^ (hi + 1 - lo) - 1) * 2 ^ lo

/-- Bits `hi` down to `lo` of `v` as a number. -/
def takeBits (v hi lo : Nat) : Nat := v / 2 ^ lo % 2 ^ (hi + 1 - lo)

/-- The fields of R74 that an operation uses, and whether it has an immediate form (R83). -/
structure OpUse where
  u : Bool := false
  d : Bool := false
  a : Bool := false
  b : Bool := false
  c : Bool := false
  ext : Nat := 0
  imm : Bool := false
  cycles : Nat := 1
  deriving DecidableEq, Repr

/-- The operations of R83 by their code. -/
def opUse (op : Nat) : Option OpUse :=
  let dab : OpUse := { d := true, a := true, b := true }
  let da : OpUse := { d := true, a := true }
  let cmp : OpUse := { u := true, d := true, a := true, b := true, imm := true }
  let slot : Nat := bits 23 23 ||| bits 11 0
  match op with
  | 0x00 | 0x01 => some {}
  | 0x02 => some { da with imm := true }
  | 0x03 | 0x04 => some { d := true }
  | 0x05 => some { u := true, d := true, a := true, b := true }
  | 0x08 | 0x09 => some { d := true, b := true, ext := slot }
  | 0x0A => some { a := true, b := true, ext := slot }
  | 0x0B => some { d := true, b := true, ext := bits 23 23 ||| bits 9 0 }
  | 0x0C => some { ext := bits 15 0 }
  | 0x0D => some { a := true, ext := bits 15 0 }
  | 0x10 => some { a := true, ext := bits 23 23 ||| bits 19 12 ||| bits 8 0 }
  | 0x11 => some { ext := bits 8 0 }
  | 0x20 | 0x21 | 0x22 | 0x25 | 0x26 => some { dab with imm := true }
  | 0x23 | 0x24 | 0x27 => some { dab with c := true }
  | 0x28 | 0x29 => some da
  | 0x2A => some { dab with cycles := 8 }
  | 0x2B => some { da with cycles := 8 }
  | 0x2C => some cmp
  | 0x30 | 0x31 | 0x32 | 0x33 | 0x34 => some da
  | 0x38 | 0x39 | 0x3A => some { dab with imm := true }
  | 0x3B => some { dab with c := true }
  | 0x3C => some da
  | 0x3D => some cmp
  | 0x40 | 0x41 | 0x42 | 0x43 | 0x44 | 0x45 | 0x46 | 0x47 => some { dab with imm := true }
  | 0x48 | 0x49 => some cmp
  | 0x50 | 0x52 => some { dab with cycles := 12 }
  | 0x51 => some { dab with c := true, cycles := 12 }
  | 0x58 | 0x68 => some { dab with u := true }
  | 0x59 | 0x69 => some { u := true, d := true }
  | 0x5A => some { u := true, a := true }
  | 0x5B => some { u := true, a := true, b := true }
  | 0x60 => some { u := true, d := true, a := true, ext := bits 9 0 }
  | 0x61 => some { u := true }
  | _ => none

/-- Operation code of a word. -/
def opOf (v : Nat) : Nat := takeBits v 62 56

/-- Condition PRED of a word. -/
def predOf (v : Nat) : Nat := takeBits v 55 52

/-- The bits that may be one in a word of operation `op` (R74 to R76). -/
def allowedBits (op : Nat) (o : OpUse) (v : Nat) : Nat :=
  let opt := fun (c : Bool) (m : Nat) => if c then m else 0
  let head := bits 62 52 ||| opt o.u (bits 49 48)
  let compare := op == 0x2C || op == 0x3D || op == 0x48 || op == 0x49 || op == 0x05
  let d := opt o.d (if compare then bits 44 42 else bits 47 42)
  if v.testBit 63 then head ||| bits 63 63 ||| d ||| opt (o.a && op != 0x02) (bits 41 36) ||| bits 31 0
  else if op == 0x05 then
    let f := takeBits v 44 42
    head ||| d ||| opt (f != 5 && f != 6) (bits 37 36) ||| opt (f < 4) (bits 31 30)
  else
    let indexed := op == 0x08 || op == 0x09 || op == 0x0A || op == 0x0B
    head ||| d ||| opt (o.a && (op != 0x10 || v.testBit 23)) (bits 41 36) |||
      opt (o.b && (!indexed || v.testBit 23)) (bits 35 30) ||| opt o.c (bits 29 24) ||| o.ext

/-- One word meets the rules of R77 that concern it alone. -/
def wordOk (v : Nat) : Bool :=
  let op := opOf v
  match opUse op with
  | none => false
  | some o =>
    (!v.testBit 63 || o.imm) && (v ||| allowedBits op o v) == allowedBits op o v &&
    (!(op == 0x2C || op == 0x3D || op == 0x48 || op == 0x49) || takeBits v 44 42 != 7) &&
    (!(op == 0x50 || op == 0x51 || op == 0x52) || takeBits v 42 42 == 0) &&
    (op != 0x60 || takeBits v 9 0 ≤ 1019) && (op != 0x10 || takeBits v 19 12 != 0)

/-- The loops of a program: address of the LOOP and its LEND (R80). -/
def loopsOf (p : List Nat) : List (Nat × Nat) :=
  (List.range p.length).filterMap fun i => let v := p.getD i 0; if opOf v == 0x10 then some (i, takeBits v 8 0) else none

/-- The loops whose body holds address `i`. -/
def loopsAt (l : List (Nat × Nat)) (i : Nat) : List (Nat × Nat) := l.filter fun (e : Nat × Nat) => e.1 < i && i ≤ e.2

/-- The innermost loop whose body holds address `i`: the one that starts last. -/
def innermost (l : List (Nat × Nat)) (i : Nat) : Option (Nat × Nat) := (loopsAt l i).getLast?

/-- The loops keep R80: a body of at least one word within the program, at most two deep, an inner LEND not beyond its outer. -/
def loopsOk (l : List (Nat × Nat)) (n entry : Nat) : Bool :=
  (l.all fun (e : Nat × Nat) => e.1 < e.2 && e.2 < n && (loopsAt l e.1).length ≤ 1 && (loopsAt l e.1).all fun (o : Nat × Nat) => e.2 ≤ o.2) &&
    (loopsAt l entry).isEmpty

/-- Where execution can go from address `i`, loop returns apart (R78, R80 to R82). -/
def nextOf (p : List Nat) (i : Nat) : List Nat :=
  let v := p.getD i 0
  let sure := predOf v == 0
  match opOf v with
  | 0x01 => if sure then [] else [i + 1]
  | 0x11 => if sure then [takeBits v 8 0] else [i + 1, takeBits v 8 0]
  | 0x10 => if sure && !v.testBit 23 then [i + 1] else [i + 1, takeBits v 8 0 + 1]
  | _ => [i + 1]

/-- The earliest cycle at address `j` of a path that leaves address `i` for it in cycle `at'` of a loop's first trip: a loop that is left
on the way, and that always takes MAX trips, has taken them all (R80). `t` holds the earliest cycles of the loops. -/
def pastLoops (p : List Nat) (t : List (Option Nat)) (i j at' : Nat) : Nat :=
  (loopsAt (loopsOf p) i).reverse.foldl (fun a e =>
    let v := p.getD e.1 0
    let b := (t.getD e.1 none).getD 0 + 1
    if e.2 < j && predOf v == 0 && !v.testBit 23 then b + takeBits v 19 12 * (a - b) else a) at'

/-- The earliest sample cycle in which each address can issue, from the entry on; none where it is not reached. -/
def earliest (p : List Nat) (entry : Nat) : List (Option Nat) :=
  (List.range p.length).foldl (fun t i =>
    match t.getD i none with
    | none => t
    | some c =>
      let at' := c + ((opUse (opOf (p.getD i 0))).map (·.cycles)).getD 1
      (nextOf p i).foldl (fun t j =>
        let c := pastLoops p t i j at'
        t.set j (some (match t.getD j none with | some d => min d c | none => c))) t)
    ((List.replicate p.length none).set entry (some 0))

/-- A program keeps R77. -/
def programOk (d : WheelDecl) : Bool :=
  let p := d.program.map (·.toNat)
  let l := loopsOf p
  let t := earliest p d.entry
  (p.isEmpty && d.group.isNone) ||
  (decide (d.entry < p.length) && p.all wordOk && loopsOk l p.length d.entry &&
    ((List.range p.length).all fun i =>
      let v := p.getD i 0
      (opOf v != 0x11 || (i < takeBits v 8 0 && takeBits v 8 0 < p.length && innermost l i == innermost l (takeBits v 8 0))) &&
      (!(opOf v == 0x68 || opOf v == 0x69) || d.resid.any fun e => e.1 == takeBits v 49 48) &&
      (match t.getD i none with
       | none => true
       | some c => (nextOf p i).all (· < p.length) && (!(0x58 ≤ opOf v && opOf v ≤ 0x5B) || 10 ≤ c))))

/-- The residual channels' declarations keep R94. -/
def residOk (d : WheelDecl) : Bool :=
  d.resid.all fun (e : Nat × ResidDecl) => e.1 < 4 && 1 ≤ e.2.n && e.2.n ≤ 255 && e.2.action != .neither && e.2.adc ≤ 15 && e.2.ain ≤ 63 && e.2.thr < 1024

end Sys2Proof.Machine
end

