-- ==== Sys2Proof/Syntax.lean ====
section
/-!
DEFINITION. The commands of the block: one constructor per row of spec/opcode_table.json, in the table's order, with the
row's operands. Each docstring names the row, its rule and its operands.
-/

namespace Sys2Proof

/-- A command to the block: a register access of its own, an event, or a tick (spec/opcode_table.json). -/
inductive Instr where
  /-- REGISTER_WRITE (R9): address, value, bytes, what the access finds. -/
  | registerWrite (a : Word) (v : DWord) (n : Fin 9) (x : BusFacts)
  /-- REGISTER_READ_CLEAR (R9): address, bytes. -/
  | registerReadClear (a : Word) (n : Fin 9)
  /-- ALIAS_WRITE (R10): alias address, value, bytes. -/
  | aliasWrite (a : Word) (v : DWord) (n : Fin 9)
  /-- ALIAS_READ (R11): alias address, bytes. -/
  | aliasRead (a : Word) (n : Fin 9)
  /-- BUS_ERROR_ACCESS (R404): write or read, address, value, bytes. -/
  | busErrorAccess (write : Bool) (a : BitVec 40) (v : DWord) (n : Fin 9)
  /-- JTAG_IDCODE (R5). -/
  | jtagIdcode
  /-- RWF_WRITE (R27): register address, value. -/
  | rwfWrite (a : Word) (v : DWord)
  /-- LOAD (R35): the image found at GLZ.SRC_ADDR. -/
  | load (g : GlazeFile)
  /-- LOAD_COMPLETE (R38). -/
  | loadComplete
  /-- FIRE (R39): whether the staged content still matches its verified digest. -/
  | fire (intact : Bool)
  /-- FIRING_ENTER (R39). -/
  | firingEnter
  /-- FIRE_COMPLETE (R39). -/
  | fireComplete
  /-- DISCARD (R38). -/
  | discard
  /-- ABORT_LOAD (R38). -/
  | abortLoad
  /-- TIMER_TRIGGER (R48): rate group. -/
  | timerTrigger (k : Fin 8)
  /-- PTP_TRIGGER (R48): rate group. -/
  | ptpTrigger (k : Fin 8)
  /-- SAMPLE_START (R49): rate group. -/
  | sampleStart (k : Fin 8)
  /-- END_OF_SAMPLE (R53): rate group. -/
  | endOfSample (k : Fin 8)
  /-- DEADLINE_MISS (R60): rate group. -/
  | deadlineMiss (k : Fin 8)
  /-- TRIGGER_TIMEOUT (R61): rate group. -/
  | triggerTimeout (k : Fin 8)
  /-- MEMORY_ERROR (R45): Wheel. -/
  | memoryError (w : Fin 64)
  /-- CORRECTED_ERROR (R45): Wheel. -/
  | correctedError (w : Fin 64)
  /-- SLOT_WRITE (R56): slot, value written. -/
  | slotWrite (k : BitVec 12) (v : Word)
  /-- COEF_BANK_WRITE (R63): Wheel, bank, word, value written. -/
  | coefBankWrite (w : Fin 64) (b : Fin 2) (i : BitVec 10) (v : Word)
  /-- SWAP_REQUEST (R64): rate group, BANK and AT_PLANT written with GO. -/
  | swapRequest (k : Fin 8) (bank : Fin 2) (atPlant : Bool)
  /-- ISTATE_WRITE (R67): Wheel, state, value written. -/
  | istateWrite (w : Fin 64) (j : Fin 4) (v : Word)
  /-- MBOX_READ (R68). -/
  | mboxRead
  /-- MBOX_THRESH_WRITE (R68): THRESH written. -/
  | mboxThreshWrite (v : BitVec 7)
  /-- NOP (R83): Wheel, PRED. -/
  | nop (w : Fin 64) (p : Fin 16)
  /-- END (R82): Wheel, PRED. -/
  | endP (w : Fin 64) (p : Fin 16)
  /-- MOV (R76): Wheel, PRED, D, A or immediate. -/
  | mov (w : Fin 64) (p : Fin 16) (d : Fin 64) (a : Opnd)
  /-- GETF (R71): Wheel, PRED, D. -/
  | getf (w : Fin 64) (p : Fin 16) (d : Fin 64)
  /-- CYC (R83): Wheel, PRED, D. -/
  | cyc (w : Fin 64) (p : Fin 16) (d : Fin 64)
  /-- PSET (R79): Wheel, PRED, target predicate, function, Pa, Pb. -/
  | pset (w : Fin 64) (p : Fin 16) (u : Fin 4) (f : PFun) (a b : Fin 4)
  /-- LDS (R54): Wheel, PRED, D, slot. -/
  | lds (w : Fin 64) (p : Fin 16) (d : Fin 64) (e : Ixd 12)
  /-- LDF (R59): Wheel, PRED, D, slot. -/
  | ldf (w : Fin 64) (p : Fin 16) (d : Fin 64) (e : Ixd 12)
  /-- FRESH_READ_RETURN (R59): Wheel, sample cycle in which the read returns. -/
  | freshReadReturn (w : Fin 64) (c : Nat)
  /-- FRESH_READ_TIMEOUT (R59): Wheel. -/
  | freshReadTimeout (w : Fin 64)
  /-- STS (R53): Wheel, PRED, A, slot. -/
  | sts (w : Fin 64) (p : Fin 16) (a : Fin 64) (e : Ixd 12)
  /-- LDC (R83): Wheel, PRED, D, bank word. -/
  | ldc (w : Fin 64) (p : Fin 16) (d : Fin 64) (e : Ixd 10)
  /-- ADCS (R58): Wheel, PRED, MASK. -/
  | adcs (w : Fin 64) (p : Fin 16) (m : BitVec 16)
  /-- POST (R68): Wheel, PRED, A, TAG. -/
  | post (w : Fin 64) (p : Fin 16) (a : Fin 64) (tag : BitVec 16)
  /-- LOOP (R80): Wheel, PRED, count register with CSRC = 1, MAX, LEND. -/
  | loop (w : Fin 64) (p : Fin 16) (a : Option (Fin 64)) (max : BitVec 8) (lend : BitVec 9)
  /-- BRF (R81): Wheel, PRED, TARGET. -/
  | brf (w : Fin 64) (p : Fin 16) (t : BitVec 9)
  /-- FADD (R84): Wheel, PRED, D, A, B. -/
  | fadd (w : Fin 64) (p : Fin 16) (d a : Fin 64) (b : Opnd)
  /-- FSUB (R84): Wheel, PRED, D, A, B. -/
  | fsub (w : Fin 64) (p : Fin 16) (d a : Fin 64) (b : Opnd)
  /-- FMUL (R84): Wheel, PRED, D, A, B. -/
  | fmul (w : Fin 64) (p : Fin 16) (d a : Fin 64) (b : Opnd)
  /-- FMA (R84): Wheel, PRED, D, A, B, C. -/
  | fma (w : Fin 64) (p : Fin 16) (d a b c : Fin 64)
  /-- FMS (R84): Wheel, PRED, D, A, B, C. -/
  | fms (w : Fin 64) (p : Fin 16) (d a b c : Fin 64)
  /-- FMIN (R84): Wheel, PRED, D, A, B. -/
  | fmin (w : Fin 64) (p : Fin 16) (d a : Fin 64) (b : Opnd)
  /-- FMAX (R84): Wheel, PRED, D, A, B. -/
  | fmax (w : Fin 64) (p : Fin 16) (d a : Fin 64) (b : Opnd)
  /-- FCLAMP (R84): Wheel, PRED, D, A, B, C. -/
  | fclamp (w : Fin 64) (p : Fin 16) (d a b c : Fin 64)
  /-- FABS (R84): Wheel, PRED, D, A. -/
  | fabs (w : Fin 64) (p : Fin 16) (d a : Fin 64)
  /-- FNEG (R84): Wheel, PRED, D, A. -/
  | fneg (w : Fin 64) (p : Fin 16) (d a : Fin 64)
  /-- FDIV (R84): Wheel, PRED, D, A, B. -/
  | fdiv (w : Fin 64) (p : Fin 16) (d a b : Fin 64)
  /-- FSQRT (R84): Wheel, PRED, D, A. -/
  | fsqrt (w : Fin 64) (p : Fin 16) (d a : Fin 64)
  /-- FCMP (R79): Wheel, PRED, target predicate, condition, A, B. -/
  | fcmp (w : Fin 64) (p : Fin 16) (u : Fin 4) (q : Cond) (a : Fin 64) (b : Opnd)
  /-- F2Q (R86): Wheel, PRED, D, A. -/
  | f2q (w : Fin 64) (p : Fin 16) (d a : Fin 64)
  /-- Q2F (R86): Wheel, PRED, D, A. -/
  | q2f (w : Fin 64) (p : Fin 16) (d a : Fin 64)
  /-- F2I (R86): Wheel, PRED, D, A. -/
  | f2i (w : Fin 64) (p : Fin 16) (d a : Fin 64)
  /-- I2F (R86): Wheel, PRED, D, A. -/
  | i2f (w : Fin 64) (p : Fin 16) (d a : Fin 64)
  /-- F2U (R86): Wheel, PRED, D, A. -/
  | f2u (w : Fin 64) (p : Fin 16) (d a : Fin 64)
  /-- QADD (R85): Wheel, PRED, D, A, B. -/
  | qadd (w : Fin 64) (p : Fin 16) (d a : Fin 64) (b : Opnd)
  /-- QSUB (R85): Wheel, PRED, D, A, B. -/
  | qsub (w : Fin 64) (p : Fin 16) (d a : Fin 64) (b : Opnd)
  /-- QMUL (R85): Wheel, PRED, D, A, B. -/
  | qmul (w : Fin 64) (p : Fin 16) (d a : Fin 64) (b : Opnd)
  /-- QMAC (R85): Wheel, PRED, D, A, B, C. -/
  | qmac (w : Fin 64) (p : Fin 16) (d a b c : Fin 64)
  /-- QABS (R85): Wheel, PRED, D, A. -/
  | qabs (w : Fin 64) (p : Fin 16) (d a : Fin 64)
  /-- QCMP (R79): Wheel, PRED, target predicate, condition, A, B. -/
  | qcmp (w : Fin 64) (p : Fin 16) (u : Fin 4) (q : Cond) (a : Fin 64) (b : Opnd)
  /-- IADD (R87): Wheel, PRED, D, A, B. -/
  | iadd (w : Fin 64) (p : Fin 16) (d a : Fin 64) (b : Opnd)
  /-- ISUB (R87): Wheel, PRED, D, A, B. -/
  | isub (w : Fin 64) (p : Fin 16) (d a : Fin 64) (b : Opnd)
  /-- AND (R83): Wheel, PRED, D, A, B. -/
  | and (w : Fin 64) (p : Fin 16) (d a : Fin 64) (b : Opnd)
  /-- OR (R83): Wheel, PRED, D, A, B. -/
  | or (w : Fin 64) (p : Fin 16) (d a : Fin 64) (b : Opnd)
  /-- XOR (R83): Wheel, PRED, D, A, B. -/
  | xor (w : Fin 64) (p : Fin 16) (d a : Fin 64) (b : Opnd)
  /-- SHL (R83): Wheel, PRED, D, A, B. -/
  | shl (w : Fin 64) (p : Fin 16) (d a : Fin 64) (b : Opnd)
  /-- SHR (R83): Wheel, PRED, D, A, B. -/
  | shr (w : Fin 64) (p : Fin 16) (d a : Fin 64) (b : Opnd)
  /-- SAR (R83): Wheel, PRED, D, A, B. -/
  | sar (w : Fin 64) (p : Fin 16) (d a : Fin 64) (b : Opnd)
  /-- ICMP (R79): Wheel, PRED, target predicate, condition, A, B. -/
  | icmp (w : Fin 64) (p : Fin 16) (u : Fin 4) (q : Cond) (a : Fin 64) (b : Opnd)
  /-- UCMP (R79): Wheel, PRED, target predicate, condition, A, B. -/
  | ucmp (w : Fin 64) (p : Fin 16) (u : Fin 4) (q : Cond) (a : Fin 64) (b : Opnd)
  /-- CROT (R88): Wheel, PRED, D, A angle, B magnitude. -/
  | crot (w : Fin 64) (p : Fin 16) (d a b : Fin 64)
  /-- CROTV (R88): Wheel, PRED, D, A angle, B x, C y. -/
  | crotv (w : Fin 64) (p : Fin 16) (d a b c : Fin 64)
  /-- CVEC (R88): Wheel, PRED, D, A x, B y. -/
  | cvec (w : Fin 64) (p : Fin 16) (d a b : Fin 64)
  /-- IACC (R90): Wheel, PRED, D, state, A, B. -/
  | iacc (w : Fin 64) (p : Fin 16) (d : Fin 64) (u : Fin 4) (a b : Fin 64)
  /-- IRD (R90): Wheel, PRED, D, state. -/
  | ird (w : Fin 64) (p : Fin 16) (d : Fin 64) (u : Fin 4)
  /-- IPRE (R90): Wheel, PRED, state, A. -/
  | ipre (w : Fin 64) (p : Fin 16) (u : Fin 4) (a : Fin 64)
  /-- ILIM (R90): Wheel, PRED, state, A upper, B lower. -/
  | ilim (w : Fin 64) (p : Fin 16) (u : Fin 4) (a b : Fin 64)
  /-- BQ (R93): Wheel, PRED, D, slot, A, CADDR. -/
  | bq (w : Fin 64) (p : Fin 16) (d : Fin 64) (u : Fin 4) (a : Fin 64) (c : BitVec 10)
  /-- BQCLR (R93): Wheel, PRED, slot. -/
  | bqclr (w : Fin 64) (p : Fin 16) (u : Fin 4)
  /-- RES (R95): Wheel, PRED, D, channel, A measurement, B estimate. -/
  | res (w : Fin 64) (p : Fin 16) (d : Fin 64) (u : Fin 4) (a b : Fin 64)
  /-- RESR (R96): Wheel, PRED, D, channel. -/
  | resr (w : Fin 64) (p : Fin 16) (d : Fin 64) (u : Fin 4)
  /-- GSU_PUBLISH (R108): GSU. -/
  | gsuPublish (i : Fin 4)
  /-- GSU_ANGLE_PUBLISH (R102): GSU. -/
  | gsuAnglePublish (i : Fin 4)
  /-- GSU_LOCK (R106): GSU. -/
  | gsuLock (i : Fin 4)
  /-- WRONG_SEQ (R107): GSU. -/
  | wrongSeq (i : Fin 4)
  /-- MISS_N (R107): GSU. -/
  | missN (i : Fin 4)
  /-- RTS_TICK (R111). -/
  | rtsTick
  /-- RTS_BAND_CHANGE (R113): curve: 0 UV, 1 OV, 2 UF, 3 OF. -/
  | rtsBandChange (c : Fin 4)
  /-- RTS_TIME_LIMIT (R113): curve. -/
  | rtsTimeLimit (c : Fin 4)
  /-- CLEAR_TRIP (R119). -/
  | clearTrip
  /-- ISL_TICK_PUBLISH (R126). -/
  | islTickPublish
  /-- ISL_PASSIVE_FIRE (R127): passive method: 0 ROCOF, 1 PJUMP, 2 HARM, 3 ZSTEP. -/
  | islPassiveFire (m : Fin 4)
  /-- ISL_PULSE_START (R129). -/
  | islPulseStart
  /-- ISL_PULSE_END (R129). -/
  | islPulseEnd
  /-- ISL_TONE_PUBLISH (R133). -/
  | islTonePublish
  /-- ISL_ANGLE_PUBLISH (R126). -/
  | islAnglePublish
  /-- ISL_EST_WINDOW_END (R135): number of the window that ends (R134). -/
  | islEstWindowEnd (j : Nat)
  /-- ISL_NOTCH_WRITE (R136). -/
  | islNotchWrite
  /-- ISL_NOTCH_MIRROR (R136). -/
  | islNotchMirror
  /-- TO_GFM (R138). -/
  | toGfm
  /-- TO_GFL (R138). -/
  | toGfl
  /-- RESYNC (R142). -/
  | resync
  /-- PRESET_L2 (R143). -/
  | presetL2
  /-- PRESET_L3 (R143). -/
  | presetL3
  /-- CLEAR_DET (R131). -/
  | clearDet
  /-- ISL_TRANSFER_DECIDE (R139). -/
  | islTransferDecide
  /-- ISL_SYNC_OK (R142). -/
  | islSyncOk
  /-- ISL_DEFER_EXPIRY (R132). -/
  | islDeferExpiry
  /-- DCI_PUBLISH (R160). -/
  | dciPublish
  /-- DCI_SWEEP_REQUEST (R162): leg. -/
  | dciSweepRequest (l : Fin 6)
  /-- DCI_SWEEP_TIMER (R162): leg. -/
  | dciSweepTimer (l : Fin 6)
  /-- DCI_SWEEP_WINDOW_START (R163). -/
  | dciSweepWindowStart
  /-- DCI_SWEEP_POINT (R164). -/
  | dciSweepPoint
  /-- DCI_SWEEP_DONE (R164). -/
  | dciSweepDone
  /-- DCI_SWEEP_ABORT (R165). -/
  | dciSweepAbort
  /-- DCI_ABORT (R165). -/
  | dciAbort
  /-- DCI_RETURN_DONE (R165). -/
  | dciReturnDone
  /-- DCI_OUT_WIN (R168): leg. -/
  | dciOutWin (l : Fin 6)
  /-- LOAD_POINT (R174): pair, MOD cycles since the last event whose cycle is told. -/
  | loadPoint (x : PairAt)
  /-- COMPARE_ARRIVAL (R175): rate group whose publication arrives, or none for another owner's; MOD cycles since the last event whose
  cycle is told. -/
  | compareArrival (x : ArrivalAt)
  /-- PERIOD_START (R171): pair; the gates (bit 0 of channel A, bit 1 of B) found at or above VNEG + 2.0 V though their channel is off
  (R194). -/
  | periodStart (x : PairGates)
  /-- EDGE_DUE (R178): pair, edge; the gates as PERIOD_START has them. -/
  | edgeDue (p : Fin 9) (e : EdgeAt)
  /-- EPOCH (R173). -/
  | epoch
  /-- PERIOD_WRITE (R172): pair, value written. -/
  | periodWrite (p : Fin 9) (v : Word)
  /-- OVR_WRITE (R183): pair, value written. -/
  | ovrWrite (p : Fin 9) (v : Word)
  /-- HOP_EVAL (R185). -/
  | hopEval
  /-- QUIET_BAND_WRITE (R185): band, HI or LO register, value written. -/
  | quietBandWrite (k : Fin 8) (hi : Bool) (v : Word)
  /-- TRIM_WRITE (R191): tile, channel, value written. -/
  | trimWrite (n : Fin 9) (c : Fin 2) (v : Word)
  /-- DELAY_MEASURED (R191): tile, channel, averages in edge steps. -/
  | delayMeasured (n : Fin 9) (c : Fin 2) (ton toff : Nat)
  /-- SUP_OK (R192): tile, channel. -/
  | supOk (n : Fin 9) (c : Fin 2)
  /-- SUPPLY_UV (R192): tile, channel. -/
  | supplyUv (n : Fin 9) (c : Fin 2)
  /-- ARM (R193): tile. -/
  | arm (n : Fin 9)
  /-- DISARM (R193): tile. -/
  | disarm (n : Fin 9)
  /-- INTERLOCK_RELEASE (R194): tile, waiting channel. -/
  | interlockRelease (n : Fin 9) (c : Fin 2)
  /-- BOOT_UV_EVENT (R196): tile. -/
  | bootUvEvent (n : Fin 9)
  /-- BOOT_UV_RECOVER (R196): tile. -/
  | bootUvRecover (n : Fin 9)
  /-- BLANKING_END (R197): tile, channel. -/
  | blankingEnd (n : Fin 9) (c : Fin 2)
  /-- DESAT_DETECT (R199): tile, channel. -/
  | desatDetect (n : Fin 9) (c : Fin 2)
  /-- SOFT_OFF_STEP2 (R198): tile, channel. -/
  | softOffStep2 (n : Fin 9) (c : Fin 2)
  /-- SOFT_OFF_FULL_SINK (R198): tile, channel. -/
  | softOffFullSink (n : Fin 9) (c : Fin 2)
  /-- DESAT_CLEAR (R199): tile, channel. -/
  | desatClear (n : Fin 9) (c : Fin 2)
  /-- BOOT_STOP_CLEAR (R196): tile. -/
  | bootStopClear (n : Fin 9)
  /-- SUPPLY_UV_CLEAR (R192): tile, channel. -/
  | supplyUvClear (n : Fin 9) (c : Fin 2)
  /-- DIAG (R202): tile. -/
  | diag (n : Fin 9)
  /-- DIAG_ABORT (R202): tile. -/
  | diagAbort (n : Fin 9)
  /-- DIAG_TEST_STEP (R202): tile, what the interval measured. -/
  | diagTestStep (n : Fin 9) (o : DiagObs)
  /-- DIAG_DONE (R203): tile. -/
  | diagDone (n : Fin 9)
  /-- SEGMENT_MEASURE (R205): tile, channel, segment, on-resistance in mΩ, found open or shorted. -/
  | segmentMeasure (n : Fin 9) (c : Fin 2) (k : Fin 8) (rds : Nat) (broken : Bool)
  /-- TILE_OVER_TEMP (R206): tile. -/
  | tileOverTemp (n : Fin 9)
  /-- TILE_OT_CLEAR (R206): tile. -/
  | tileOtClear (n : Fin 9)
  /-- TILE_CONTROL_LOSS (R373): tile. -/
  | tileControlLoss (n : Fin 9)
  /-- TILE_FALLBACK_STAGE2 (R373): tile. -/
  | tileFallbackStage2 (n : Fin 9)
  /-- WIN_ASSERT (R208): comparator, side reached; the samples of its comparator that show the new state, newest in bit 0 (R212); the cores
  whose converter is found past its bit trials (R235). -/
  | winAssert (n : Fin 44) (x : WinSight)
  /-- WIN_DEASSERT (R208): comparator; samples as in WIN_ASSERT. -/
  | winDeassert (x : WinSeen)
  /-- WIN_BLANK_END (R211): comparator; cores as in WIN_ASSERT. -/
  | winBlankEnd (x : WinIdle)
  /-- WIN_THR_WRITE (R208): comparator, value written. -/
  | winThrWrite (n : Fin 44) (v : Word)
  /-- WIN_RELEASE (R213): comparator, side on which the input lies. -/
  | winRelease (n : Fin 44) (side : WinSide)
  /-- WIN_STATE_CHANGE (R214): privileged unit, new side; samples and cores as in WIN_ASSERT. -/
  | winStateChange (n : Fin 44) (x : WinSight)
  /-- SELFTEST (R215): comparator. -/
  | selftest (n : Fin 44)
  /-- SELFTEST_DONE (R215): comparator, codes at which it asserted and deasserted. -/
  | selftestDone (n : Fin 44) (up down : Nat)
  /-- SHADOW (R216): comparator. -/
  | shadow (n : Fin 44)
  /-- SHADOW_READY (R216): comparator. -/
  | shadowReady (n : Fin 44)
  /-- PAIR_STAT_CLEAR (R221): bits written 1. -/
  | pairStatClear (mask : BitVec 9)
  /-- SAFE_ORDER_STAGE2 (R225). -/
  | safeOrderStage2
  /-- SAFE_ORDER_TILE_DONE (R225): tile. -/
  | safeOrderTileDone (n : Fin 9)
  /-- STOP (R223): whether the same write sets CLEAR_STOP. -/
  | stop (alsoClear : Bool)
  /-- CLEAR_STOP (R226). -/
  | clearStop
  /-- PLANT_STOP (R227). -/
  | plantStop
  /-- CLEAR_PLANT (R227). -/
  | clearPlant
  /-- CONVERSION_DONE (R232): logical core, raw SAR code, whether the input lay outside 0 to 3 V. -/
  | conversionDone (n : Fin 16) (raw : BitVec 16) (ovf : Bool)
  /-- ADC_START (R235): core or spare, whether the request meets a fall-back's tracking gap. -/
  | adcStart (n : Fin 18) (gap : Bool)
  /-- ADC_WATCHDOG (R236): logical core. -/
  | adcWatchdog (n : Fin 16)
  /-- CAL (R238): core or spare. -/
  | cal (n : Fin 18)
  /-- CAL_TAKEOVER (R238): logical core. -/
  | calTakeover (n : Fin 16)
  /-- CAL_COMPLETE (R237): core or spare, factors found. -/
  | calComplete (n : Fin 18) (f : CalFactors)
  /-- CAL_RETURN (R238): logical core. -/
  | calReturn (n : Fin 16)
  /-- CAL_ALL (R239). -/
  | calAll
  /-- METER_SAMPLE (R243): what the channels give. -/
  | meterSample (o : MeterObs)
  /-- GAIN_SETTLED (R245): current channel: 0 I1, 1 I2, 2 I3, 3 IN. -/
  | gainSettled (c : Fin 4)
  /-- PQ_INTERVAL_END (R249). -/
  | pqIntervalEnd
  /-- METER_WRONG_SEQ (R253): set or cleared. -/
  | meterWrongSeq (on : Bool)
  /-- METER_MISS_N (R253): set or cleared, zero-sequence voltage in 0.001 pu. -/
  | meterMissN (on : Bool) (v0 : Nat)
  /-- REVERSE_FLOW (R253): phase, its fundamental power in W. -/
  | reverseFlow (p : Fin 3) (v : Word)
  /-- PERIODIC_SAVE (R254). -/
  | periodicSave
  /-- SAVE_COMPLETE (R254). -/
  | saveComplete
  /-- METER_RESUME (R256). -/
  | meterResume
  /-- JOURNAL_ENTRY (R259). -/
  | journalEntry
  /-- JRNL_COMMIT (R259). -/
  | jrnlCommit
  /-- REF_LOST (R264). -/
  | refLost
  /-- REF_VALID (R264). -/
  | refValid
  /-- PLL_EN_WRITE (R266): PLL, EN written. -/
  | pllEnWrite (n : Fin 7) (en : Bool)
  /-- PLL_CONFIG_WRITE (R266): PLL, whether DIV is written rather than REFMODE, value written. -/
  | pllConfigWrite (n : Fin 7) (div : Bool) (v : Word)
  /-- PLL_LOCK (R267): PLL. -/
  | pllLock (n : Fin 7)
  /-- PLL_LOCK_LOSS (R271): PLL. -/
  | pllLockLoss (n : Fin 7)
  /-- HOLDOVER_EXIT (R272): PLL. -/
  | holdoverExit (n : Fin 7)
  /-- PLL_RELOCK (R272): PLL. -/
  | pllRelock (n : Fin 7)
  /-- PLL_STEP (R270): PLL, STEP written. -/
  | pllStep (n : Fin 7) (v : BitVec 4)
  /-- PLL_STEP_UNIT (R270): PLL. -/
  | pllStepUnit (n : Fin 7)
  /-- PLL_STEP_SETTLED (R270): PLL. -/
  | pllStepSettled (n : Fin 7)
  /-- TRAIN_START (R283): lane. -/
  | trainStart (l : Fin 6)
  /-- TRAIN_COMPLETE (R283): lane, the partner asked to precode, coefficients reached in 1/64. -/
  | trainComplete (l : Fin 6) (precodeTx : Bool) (pre : Fin 17) (post : Fin 33)
  /-- TRAIN_ATTEMPT_FAIL (R283): lane. -/
  | trainAttemptFail (l : Fin 6)
  /-- TRAIN_RETRY (R283): lane. -/
  | trainRetry (l : Fin 6)
  /-- LANE_DOWN (R282): lane, whether its chain has a ring. -/
  | laneDown (l : Fin 6) (ring : Bool)
  /-- CODEWORD_UNCORRECTABLE (R281): lane. -/
  | codewordUncorrectable (l : Fin 6)
  /-- RETRAIN (R283): lane. -/
  | retrain (l : Fin 6)
  /-- L1 (R285): lane. -/
  | l1 (l : Fin 6)
  /-- L2 (R285): lane. -/
  | l2 (l : Fin 6)
  /-- WAKE (R284): lane. -/
  | wake (l : Fin 6)
  /-- TEST_ENTER (R288): lane. -/
  | testEnter (l : Fin 6)
  /-- TEST_EXIT (R288): lane. -/
  | testExit (l : Fin 6)
  /-- AUTO_L1_REQUEST (R285): lane. -/
  | autoL1Request (l : Fin 6)
  /-- POWER_STATE_ENTER (R284): lane, a partner's request is for L2. -/
  | powerStateEnter (l : Fin 6) (l2 : Bool)
  /-- POWER_STATE_LAPSE (R284): lane. -/
  | powerStateLapse (l : Fin 6)
  /-- POWER_STATE_EXIT (R284): lane. -/
  | powerStateExit (l : Fin 6)
  /-- L2_EXIT_RETRAIN (R284): lane. -/
  | l2ExitRetrain (l : Fin 6)
  /-- PAT_CFG_WRITE (R286): lane, value written. -/
  | patCfgWrite (l : Fin 6) (v : Word)
  /-- PAT_LOCK (R286): lane. -/
  | patLock (l : Fin 6)
  /-- PAT_LOCK_LOST (R286): lane, bits and errors counted since the checker locked. -/
  | patLockLost (l : Fin 6) (bits : DWord) (errs : Word)
  /-- INJECT (R287): lane. -/
  | inject (l : Fin 6)
  /-- LOOP_WRITE (R288): lane, value of LOOP. -/
  | loopWrite (l : Fin 6) (v : BitVec 2)
  /-- RLB_REQ (R289): lane, value of RLB_REQ, the partner's answer if it has given one. -/
  | rlbReq (l : Fin 6) (req : Bool) (answer : Option Bool)
  /-- RLB_REQUEST_RECEIVED (R289): lane, the partner's request or its end. -/
  | rlbRequestReceived (l : Fin 6) (req : Bool)
  /-- EYE_MEASURE (R290): lane, smallest eye, margins in 1/1,000 UI and mV. -/
  | eyeMeasure (l : Fin 6) (eye : Fin 3) (h v : BitVec 10)
  /-- PLANT_PERIOD_BOUNDARY (R301): number of the plant period that begins. -/
  | plantPeriodBoundary (n : Word)
  /-- LINK_LOSS (R19). -/
  | linkLoss
  /-- CTRL_LAUNCH (R302). -/
  | ctrlLaunch
  /-- CTRL_FRAME (R303): whether its CRC holds, the frame. -/
  | ctrlFrame (crcOk : Bool) (f : CtrlFrame)
  /-- REPORT_FRAME (R304): lane, whether its CRC holds, worker, status word, report values. -/
  | reportFrame (l : Fin 6) (crcOk : Bool) (w : BitVec 5) (status : BitVec 36) (v : Vector Word 4)
  /-- TIME_FRAME (R313): whether its CRC holds, the manager's time at the epoch, its validity. -/
  | timeFrame (crcOk : Bool) (sec : BitVec 48) (ns frac : Word) (valid : Bool)
  /-- SYNC_UNIT (R313): departure offset in edge steps. -/
  | syncUnit (offset : BitVec 24)
  /-- STOP_UNIT (R316). -/
  | stopUnit
  /-- PLANT_STOP_REPEAT (R316). -/
  | plantStopRepeat
  /-- DELAY_REQ (R312): lane. -/
  | delayReq (l : Fin 6)
  /-- DELAY_REQ_RECEIVED (R312): lane. -/
  | delayReqReceived (l : Fin 6)
  /-- DELAY_RSP (R312): lane, the partner's timestamps. -/
  | delayRsp (l : Fin 6) (t2 t3 : BitVec 24)
  /-- FLOW (R296): lane, worker whose credits come back, how many of requests and of bulk frames. -/
  | flow (l : Fin 6) (w : BitVec 5) (back : BitVec 6 × BitVec 6)
  /-- RING_REVERSE (R317): lane, at a manager the first position below the break; none where the unit restores the chain (R318). -/
  | ringReverse (l : Fin 6) (pos : Option (Fin 8))
  /-- DISCOVER (R298). -/
  | discover
  /-- POSITION (R299): position less one. -/
  | position (f : Framed (Fin 8))
  /-- ANNOUNCE (R299): chain, the frame's content. -/
  | announce (c : Fin 4) (f : Framed Announce)
  /-- POSITION_TIMEOUT (R299): chain. -/
  | positionTimeout (c : Fin 4)
  /-- NUMBER (R300): position less one, worker number. -/
  | number (f : Framed (Fin 8)) (w : BitVec 5)
  /-- DISCOVERY_DONE (R300): chain, link and hop delays by position, ring link delay. -/
  | discoveryDone (c : Fin 4) (hops : List (Word × BitVec 16)) (ring : Option Word)
  /-- RING_RESTORE (R318): whether the links of the original path are in L0. -/
  | ringRestore (linksUp : Bool)
  /-- REMOTE_ACCESS (R305): write or read, address, size in bytes, value. -/
  | remoteAccess (write : Bool) (addr : BitVec 40) (size : Fin 9) (v : DWord)
  /-- REM_REQ (R307): how it arrives, write or read, address, 64 bits, value, what the access finds. -/
  | remReq (h : ReqHead) (write : Bool) (a : Word) (wide : Bool) (v : DWord) (x : BusFacts)
  /-- REM_RSP (R308): lane, tag, worker, status DECERR and value. -/
  | remRsp (l : Fin 6) (f : Framed (BitVec 7)) (w : BitVec 5) (a : Bool × DWord)
  /-- REMOTE_TIMEOUT (R308): tag. -/
  | remoteTimeout (t : BitVec 7)
  /-- PLANT_BROADCAST_WRITE (R309): worker group or all, offset, 64 bits, value. -/
  | plantBroadcastWrite (g : Option (Fin 16)) (o : BitVec 28) (wide : Bool) (v : DWord)
  /-- PLANT_BROADCAST_READ (R309). -/
  | plantBroadcastRead
  /-- BLK_GO (R310): value written to BLK_CTRL. -/
  | blkGo (v : Word)
  /-- BULK_FRAME (R310): lane, whether its CRC holds, the frame. -/
  | bulkFrame (l : Fin 6) (crcOk : Bool) (f : BulkFrame)
  /-- BULK_DONE (R310): frames were lost, negative acknowledgements that arrive with the end. -/
  | bulkDone (lost : Bool) (nacks : BitVec 16)
  /-- MAC_EN_WRITE (R322): MAC, value written to CFG. -/
  | macEnWrite (m : Fin 2) (v : Word)
  /-- KICK (R323): MAC. -/
  | kick (m : Fin 2)
  /-- MAC_FRAME_TX (R323): MAC, current transmit SA. -/
  | macFrameTx (m : Fin 2) (a : Fin 4)
  /-- MAC_FRAME_RX (R323): MAC, the frame, whether its CRC holds, the SecTAG it carries, whether its integrity check value verifies under the
  SAK held. -/
  | macFrameRx (m : Fin 2) (bytes : List Byte) (crcOk : Bool) (tag : Option SecTag) (icvOk : Bool)
  /-- MAC_LINK_CHANGE (R321): MAC, link state, RATE. -/
  | macLinkChange (m : Fin 2) (up : Bool) (rate : BitVec 2)
  /-- PTP_INC_WRITE (R325): half written, value. -/
  | ptpIncWrite (half : Option Bool) (v : DWord)
  /-- PTP_OFS_WRITE (R326): value written. -/
  | ptpOfsWrite (v : Word)
  /-- SET (R326). -/
  | ptpSet
  /-- SET_VALID (R327). -/
  | setValid
  /-- CLR_VALID (R327). -/
  | clrValid
  /-- PTP_NOW_READ (R326). -/
  | ptpNowRead
  /-- LQ_COMMIT (R330): MAC, value written to LQ_CMD. -/
  | lqCommit (m : Fin 2) (v : Word)
  /-- FLUSH (R330): MAC. -/
  | flush (m : Fin 2)
  /-- LAUNCH_DUE (R330): MAC, current transmit SA. -/
  | launchDue (m : Fin 2) (a : Fin 4)
  /-- TSQ_READ (R331): MAC, half read. -/
  | tsqRead (m : Fin 2) (half : Option Bool)
  /-- RESET (R372): cause code of R372. -/
  | resetModule (cause : Fin 9)
  /-- RAILS_GOOD (R369): rail in the order of R369, whether the Saggar's self-tests pass. -/
  | railsGood (rail : Fin 5) (selfTest : Bool)
  /-- HOST_RELEASE (R339): what boot verification finds. -/
  | hostRelease (f : BootFacts)
  /-- SAGGAR_ENTRY_FLUSH (R355). -/
  | saggarEntryFlush
  /-- GET_INFO (R349). -/
  | getInfo
  /-- GET_NONCE (R344). -/
  | getNonce
  /-- ATTEST (R346): caller nonce, whether the signature made verifies. -/
  | attest (nonce : Vector Word 8) (verifies : Bool)
  /-- GET_CERT (R349). -/
  | getCert
  /-- ENROLL (R343): the keys, the request's signature. -/
  | enroll (fw glz svc : BitVec 480) (okek : BitVec 256) (sig : HssSig)
  /-- ROTATE (R343): slot, new value (of OKEK: IV, ciphertext and tag), what those hold, the request's signature. -/
  | rotate (k : KeySlot) (v : BitVec 480) (wrap : Wrapped) (sig : HssSig)
  /-- RELEASE (R343): the request's signature. -/
  | releaseOwner (sig : HssSig)
  /-- FW_CONFIRM (R340). -/
  | fwConfirm
  /-- SET_BOOT (R340): kind, slot, what verification finds in it. -/
  | setBoot (glz : Bool) (slot : Fin 2) (img : FwFile)
  /-- COUNTER_INC (R345): counter. -/
  | counterInc (k : Fin 8)
  /-- COUNTER_READ (R345): counter. -/
  | counterRead (k : Fin 8)
  /-- DEBUG_UNLOCK (R351): scope 2 rather than 1, the request's signature. -/
  | debugUnlock (two : Bool) (sig : HssSig)
  /-- DEBUG_LOCK (R351). -/
  | debugLock
  /-- TOTALS_RESET (R350): the request's signature. -/
  | totalsReset (sig : HssSig)
  /-- TAMPER_CFG (R353): responses, TEMP_HI less 110, the request's signature. -/
  | tamperCfg (temp volt clk : Tamper) (hi : Fin 41) (sig : HssSig)
  /-- ZEROISE (R354): the request's signature. -/
  | zeroise (sig : HssSig)
  /-- CAK_INSTALL (R352): MAC, slot, CKN of 1 to 32 bytes, the wrapped CAK. -/
  | cakInstall (m : Fin 2) (slot : Fin 4) (ckn : List Byte) (wrap : Wrapped)
  /-- SAK_GEN (R352): MAC, SA, CAK slot. -/
  | sakGen (m : Fin 2) (a : Fin 36) (slot : Fin 4)
  /-- SAK_LOAD (R352): MAC, SA, CAK slot, the wrapped SAK. -/
  | sakLoad (m : Fin 2) (a : Fin 36) (slot : Fin 4) (wrap : Wrapped)
  /-- MKA_ICV (R352): MAC and CAK slot, the MKPDU. -/
  | mkaIcv (cak : Fin 2 × Fin 4) (pdu : List Byte)
  /-- RANDOM (R349): bytes asked for. -/
  | random (n : BitVec 14)
  /-- SERVICE_COMPLETE (R349). -/
  | serviceComplete
  /-- TREE_BUILD_DONE (R347). -/
  | treeBuildDone
  /-- NONCE_EXPIRY (R344). -/
  | nonceExpiry
  /-- TAMPER_EVENT (R353): sensor, measured value. -/
  | tamperEvent (sensor : Fin 4) (v : Word)
  /-- XSPI_CMD (R340): value written to XSPI.CMD, whether it programs or erases, how many bytes from XSPI.ADDR on. -/
  | xspiCmd (v : Word) (programs : Bool) (span : Nat)
  /-- PUG_MODE_CHANGE (R357): whether the panel enters ACTIVE, the STANDBY seconds that ended. -/
  | pugModeChange (active : Bool) (secs : Word)
  /-- PUG_VOC_MEASURE (R358): open circuit voltage and store in mV, whether the panel can still harvest. -/
  | pugVocMeasure (voc store : BitVec 16) (harvest : Bool)
  /-- PUG_SOURCE_CHANGE (R360): store and VBAT in mV. -/
  | pugSourceChange (store vbat : BitVec 16)
  /-- VBAT_LOW (R360): VBAT in mV. -/
  | vbatLow (mv : BitVec 16)
  /-- PUG_THR_WRITE (R362): value. -/
  | pugThrWrite (v : Word)
  /-- LAST_GASP_TRIGGER (R364): whether a tamper event triggers it, its detail. -/
  | lastGaspTrigger (tamper : Bool) (detail : Word)
  /-- HEARTBEAT (R364): store in mV. -/
  | heartbeat (store : BitVec 16)
  /-- LAST_GASP_SEND (R365). -/
  | lastGaspSend
  /-- LAST_GASP_WARMUP_END (R365). -/
  | lastGaspWarmupEnd
  /-- LAST_GASP_SENT (R365). -/
  | lastGaspSent
  /-- LAST_GASP_ABORT (R365). -/
  | lastGaspAbort
  /-- VAUX_VALID (R368). -/
  | vauxValid
  /-- VAUX_INVALID (R378). -/
  | vauxInvalid
  /-- VAUX_HIGH (R367): above 60 V or longer than 100 ms. -/
  | vauxHigh (outside : Bool)
  /-- DERATED_SET (R367). -/
  | deratedSet
  /-- DERATED_CLEAR (R367). -/
  | deratedClear
  /-- PF_WARN_FALL (R375). -/
  | pfWarnFall
  /-- PF_WARN_RISE (R375). -/
  | pfWarnRise
  /-- PF_WARN_WRITE (R375): value. -/
  | pfWarnWrite (v : BitVec 8)
  /-- GP_EN_WRITE (R370): value of EN. -/
  | gpEnWrite (en : Bool)
  /-- BROWN_OUT (R372). -/
  | brownOut
  /-- RESET_PIN (R372). -/
  | resetPin
  /-- FIRMWARE_RESET (R372). -/
  | firmwareReset
  /-- RESET_ASSERT (R372): whether 1 ms has passed. -/
  | resetAssert (late : Bool)
  /-- STANDBY (R379). -/
  | standby
  /-- STANDBY_WAKE (R379). -/
  | standbyWake
  /-- WDOG_START (R374): value written to WDOG_CFG. -/
  | wdogStart (v : Word)
  /-- WDOG_KICK (R374): value. -/
  | wdogKick (v : Word)
  /-- WDOG_HALF (R374). -/
  | wdogHalf
  /-- WATCHDOG_EXPIRY (R374). -/
  | watchdogExpiry
  /-- DIE_HOT (R380). -/
  | dieHot
  /-- THERMAL (R372). -/
  | thermal
  /-- COMMIT (R387): proposal place. -/
  | commit (p : Fin 8)
  /-- DISMISS (R387): proposal place. -/
  | dismiss (p : Fin 8)
  /-- RETIRE (R388): kind, physical resource, segment, row or column. -/
  | retire (kind : Fin 16) (inst : BitVec 8) (sub : BitVec 8)
  /-- DIAGNOSE (R386): logical core. -/
  | diagnose (n : Fin 16)
  /-- MAP_ADD (R382). -/
  | mapAdd
  /-- DIAG_TWIN_PLACE (R386). -/
  | diagTwinPlace
  /-- DIAG_VERDICT (R386): mean difference in LSB, 16 consecutive differences above 256 LSB. -/
  | diagVerdict (mean : Nat) (burst : Bool)
  /-- DIAG_RETRY (R386). -/
  | diagRetry
  /-- WEAR_MONITOR_SAMPLE (R385): monitor, kind, instance, sub-resource, value in the monitor's unit. -/
  | wearMonitorSample (m : Fin 7) (kind : Fin 10) (inst : BitVec 8) (sub : BitVec 8) (v : Word)
  /-- WEAR_SAMPLE (R389). -/
  | wearSample
  /-- TRIG (R392). -/
  | trig
  /-- CONE_PIN (R392). -/
  | conePin
  /-- TMATCH_ARM (R395). -/
  | tmatchArm
  /-- TIME_MATCH (R395). -/
  | timeMatch
  /-- PLANT_GO (R396). -/
  | plantGo
  /-- CONE_FRAME (R396): whether its CRC holds, the time it carries in seconds and ns. -/
  | coneFrame (crcOk : Bool) (time : Nat × Nat)
  /-- CONE_REPEAT (R396). -/
  | coneRepeat
  /-- RELEASE0 (R397). -/
  | release0
  /-- RELEASE1 (R397). -/
  | release1
  /-- CAP_REARM (R400). -/
  | capRearm
  /-- CAP_EN_WRITE (R399): value written to CON.CAP_CFG. -/
  | capEnWrite (v : Word)
  /-- CAPTURE_FROZEN (R400). -/
  | captureFrozen
  /-- LOADER_GATE_CHECK_DONE (R370). -/
  | loaderGateCheckDone
  /-- SOFT_TURN_OFF_COMPLETE (R198): tile, channel. -/
  | softTurnOffComplete (n : Fin 9) (c : Fin 2)
  /-- SRAM_ERROR (R382): column or row, bank, its number, uncorrectable. -/
  | sramError (col : Bool) (bank : Fin 32) (i : BitVec 8) (hard : Bool)
  /-- RESET_N_RELEASE (R372). -/
  | resetNRelease
  /-- ALWAYS_ON_SUPPLY_LOSS (R360). -/
  | alwaysOnSupplyLoss
  /-- XSPI_COMMAND_DONE (R410): whether it failed. -/
  | xspiCommandDone (err : Bool)
  /-- CAN_FRAME_RECEIVED (R332): port, receive buffer, identifier, control, data. -/
  | canFrameReceived (i : Fin 2) (b : Fin 64) (id ctl : Word) (data : Vector Word 16)
  deriving DecidableEq, Repr

end Sys2Proof
end

