-- ==== Sys2Proof/WellFormed.lean ====
section
/-!
DEFINITION. Well-formed commands: what a command's operands must meet beyond their types to name something that the spec describes.
-/

namespace Sys2Proof

/-- The widths of an access by a core: 1, 2, 4 or 8 bytes (R403). -/
def accessWidth (n : Fin 9) : Bool := n == 1 || n == 2 || n == 4 || n == 8

/-- An address in one of the alias ranges of R406: its base and the nine strides of the broadcast and group aliases. -/
def aliasAddress (a : Word) : Bool :=
  ([(0x41400000, 0x10000), (0x42008000, 0x1000), (0x43002000, 0x100), (0x44010000, 0x1000), (0x45001000, 0x40), (0x46003000, 0x100),
    (0x49010000, 0x1000)] : List (Nat × Nat)).any fun e => decide (e.1 ≤ a.toNat) && decide (a.toNat < e.1 + 9 * e.2)

/-- A command is well formed: access widths (R403), alias addresses (R406), even destinations of the two-result CORDIC operations, the
last biquad word and a LOOP count of at least one (R77), codes and measurements within their fields (R191, R205, R215), times below one
second in ns (R294, R396), and a reset cause of R372. -/
def Instr.wf (i : Instr) : Bool :=
  match i with
  | .registerWrite _ _ n _ => accessWidth n
  | .registerReadClear _ n => accessWidth n
  | .aliasWrite a _ n => accessWidth n && aliasAddress a
  | .aliasRead a n => accessWidth n && aliasAddress a
  | .busErrorAccess _ _ _ n => accessWidth n
  | .crot _ _ d _ _ => d.val % 2 == 0
  | .crotv _ _ d _ _ _ => d.val % 2 == 0
  | .cvec _ _ d _ _ => d.val % 2 == 0
  | .bq _ _ _ _ _ c => decide (c.toNat ≤ 1019)
  | .loop _ _ _ max _ => max != 0
  | .selftestDone _ up down => decide (up < 4096) && decide (down < 4096)
  | .coneFrame _ time => decide (time.1 < 2 ^ 34) && decide (time.2 < 1000000000)
  | .timeFrame _ _ ns _ _ => decide (ns.toNat < 1000000000)
  | .delayMeasured _ _ ton toff => decide (ton < 4096) && decide (toff < 4096)
  | .segmentMeasure _ _ _ rds _ => decide (rds < 65536)
  | .resetModule cause => cause != 0
  | .rwfWrite a _ => a.toNat % 4 == 0
  | .jtagIdcode .. | .load .. | .loadComplete .. | .fire .. | .firingEnter .. | .fireComplete .. | .discard ..
  | .abortLoad .. | .timerTrigger .. | .ptpTrigger .. | .sampleStart .. | .endOfSample .. | .deadlineMiss ..
  | .triggerTimeout .. | .memoryError .. | .correctedError .. | .slotWrite .. | .coefBankWrite .. | .swapRequest ..
  | .istateWrite .. | .mboxRead .. | .mboxThreshWrite .. | .nop .. | .endP .. | .mov .. | .getf .. | .cyc .. | .pset ..
  | .lds .. | .ldf .. | .freshReadReturn .. | .freshReadTimeout .. | .sts .. | .ldc .. | .adcs .. | .post .. | .brf ..
  | .fadd .. | .fsub .. | .fmul .. | .fma .. | .fms .. | .fmin .. | .fmax .. | .fclamp .. | .fabs .. | .fneg .. | .fdiv ..
  | .fsqrt .. | .fcmp .. | .f2q .. | .q2f .. | .f2i .. | .i2f .. | .f2u .. | .qadd .. | .qsub .. | .qmul .. | .qmac ..
  | .qabs .. | .qcmp .. | .iadd .. | .isub .. | .and .. | .or .. | .xor .. | .shl .. | .shr .. | .sar .. | .icmp ..
  | .ucmp .. | .iacc .. | .ird .. | .ipre .. | .ilim .. | .bqclr .. | .res .. | .resr .. | .gsuPublish ..
  | .gsuAnglePublish .. | .gsuLock .. | .wrongSeq .. | .missN .. | .rtsTick .. | .rtsBandChange .. | .rtsTimeLimit ..
  | .clearTrip .. | .islTickPublish .. | .islPassiveFire .. | .islPulseStart .. | .islPulseEnd .. | .islTonePublish ..
  | .islAnglePublish .. | .islEstWindowEnd .. | .islNotchWrite .. | .islNotchMirror .. | .toGfm .. | .toGfl .. | .resync ..
  | .presetL2 .. | .presetL3 .. | .clearDet .. | .islTransferDecide .. | .islSyncOk .. | .islDeferExpiry .. | .dciPublish ..
  | .dciSweepRequest .. | .dciSweepTimer .. | .dciSweepWindowStart .. | .dciSweepPoint .. | .dciSweepDone ..
  | .dciSweepAbort .. | .dciAbort .. | .dciReturnDone .. | .dciOutWin .. | .loadPoint .. | .compareArrival ..
  | .periodStart .. | .edgeDue .. | .epoch .. | .periodWrite .. | .ovrWrite .. | .hopEval .. | .quietBandWrite ..
  | .trimWrite .. | .supOk .. | .supplyUv .. | .arm .. | .disarm .. | .interlockRelease .. | .bootUvEvent ..
  | .bootUvRecover .. | .blankingEnd .. | .desatDetect .. | .softOffStep2 .. | .softOffFullSink .. | .desatClear ..
  | .bootStopClear .. | .supplyUvClear .. | .diag .. | .diagAbort .. | .diagTestStep .. | .diagDone .. | .tileOverTemp ..
  | .tileOtClear .. | .tileControlLoss .. | .tileFallbackStage2 .. | .winAssert .. | .winDeassert .. | .winBlankEnd ..
  | .winThrWrite .. | .winRelease .. | .winStateChange .. | .selftest .. | .shadow .. | .shadowReady .. | .pairStatClear ..
  | .safeOrderStage2 .. | .safeOrderTileDone .. | .stop .. | .clearStop .. | .plantStop .. | .clearPlant ..
  | .conversionDone .. | .adcStart .. | .adcWatchdog .. | .cal .. | .calTakeover .. | .calComplete .. | .calReturn ..
  | .calAll .. | .meterSample .. | .gainSettled .. | .pqIntervalEnd .. | .meterWrongSeq .. | .meterMissN ..
  | .reverseFlow .. | .periodicSave .. | .saveComplete .. | .meterResume .. | .journalEntry .. | .jrnlCommit ..
  | .refLost .. | .refValid .. | .pllEnWrite .. | .pllConfigWrite .. | .pllLock .. | .pllLockLoss .. | .holdoverExit ..
  | .pllRelock .. | .pllStep .. | .pllStepUnit .. | .pllStepSettled .. | .trainStart .. | .trainComplete ..
  | .trainAttemptFail .. | .trainRetry .. | .laneDown .. | .codewordUncorrectable .. | .retrain .. | .l1 .. | .l2 ..
  | .wake .. | .testEnter .. | .testExit .. | .autoL1Request .. | .powerStateEnter .. | .powerStateLapse ..
  | .powerStateExit .. | .l2ExitRetrain .. | .patCfgWrite .. | .patLock .. | .patLockLost .. | .inject .. | .loopWrite ..
  | .rlbReq .. | .rlbRequestReceived .. | .eyeMeasure .. | .plantPeriodBoundary .. | .linkLoss .. | .ctrlLaunch ..
  | .ctrlFrame .. | .reportFrame .. | .syncUnit .. | .stopUnit .. | .plantStopRepeat .. | .delayReq ..
  | .delayReqReceived .. | .delayRsp .. | .flow .. | .ringReverse .. | .discover .. | .position .. | .announce ..
  | .positionTimeout .. | .number .. | .discoveryDone .. | .ringRestore .. | .remoteAccess .. | .remReq .. | .remRsp ..
  | .remoteTimeout .. | .plantBroadcastWrite .. | .plantBroadcastRead .. | .blkGo .. | .bulkFrame .. | .bulkDone ..
  | .macEnWrite .. | .kick .. | .macFrameTx .. | .macFrameRx .. | .macLinkChange .. | .ptpIncWrite .. | .ptpOfsWrite ..
  | .ptpSet .. | .setValid .. | .clrValid .. | .ptpNowRead .. | .lqCommit .. | .flush .. | .launchDue .. | .tsqRead ..
  | .railsGood .. | .hostRelease .. | .saggarEntryFlush .. | .getInfo .. | .getNonce .. | .attest .. | .getCert ..
  | .enroll .. | .rotate .. | .releaseOwner .. | .fwConfirm .. | .setBoot .. | .counterInc .. | .counterRead ..
  | .debugUnlock .. | .debugLock .. | .totalsReset .. | .tamperCfg .. | .zeroise .. | .cakInstall .. | .sakGen ..
  | .sakLoad .. | .mkaIcv .. | .random .. | .serviceComplete .. | .treeBuildDone .. | .nonceExpiry .. | .tamperEvent ..
  | .xspiCmd .. | .pugModeChange .. | .pugVocMeasure .. | .pugSourceChange .. | .vbatLow .. | .pugThrWrite ..
  | .lastGaspTrigger .. | .heartbeat .. | .lastGaspSend .. | .lastGaspWarmupEnd .. | .lastGaspSent .. | .lastGaspAbort ..
  | .vauxValid .. | .vauxInvalid .. | .vauxHigh .. | .deratedSet .. | .deratedClear .. | .pfWarnFall .. | .pfWarnRise ..
  | .pfWarnWrite .. | .gpEnWrite .. | .brownOut .. | .resetPin .. | .firmwareReset .. | .resetAssert .. | .standby ..
  | .standbyWake .. | .wdogStart .. | .wdogKick .. | .wdogHalf .. | .watchdogExpiry .. | .dieHot .. | .thermal ..
  | .commit .. | .dismiss .. | .retire .. | .diagnose .. | .mapAdd .. | .diagTwinPlace .. | .diagVerdict .. | .diagRetry ..
  | .wearMonitorSample .. | .wearSample .. | .trig .. | .conePin .. | .tmatchArm .. | .timeMatch .. | .plantGo ..
  | .coneRepeat .. | .release0 .. | .release1 .. | .capRearm .. | .capEnWrite .. | .captureFrozen ..
  | .loaderGateCheckDone .. | .softTurnOffComplete .. | .sramError .. | .resetNRelease .. | .alwaysOnSupplyLoss ..
  | .xspiCommandDone .. | .canFrameReceived .. => true

end Sys2Proof
end

