-- ==== Sys2Proof/Decode.lean ====
section
/-!
DEFINITION. The words of commands. The rows of spec/opcode_table.json give no bits, so no word of the table spells a command; the
64-bit words of the Wheels' instructions, whose encoding R74 to R83 give, have a decoder of their own.
-/

namespace Sys2Proof

open Machine (takeBits opOf predOf wordOk)

/-- The command that a word spells by the table's bits: none, since the table gives its rows no bits. (DESIGN CHOICE, log entry 8.) -/
def decodeTableWord (nbits w : Nat) : Option Instr :=
  match nbits, w with
  | _, _ => none

/-- The condition of a compare, D[2:0] (R79). -/
def condOf (n : Nat) : Cond :=
  match n with
  | 0 => .eq | 1 => .ne | 2 => .lt | 3 => .le | 4 => .gt | 5 => .ge | _ => .un

/-- The function of PSET, D[2:0] (R79). -/
def pfunOf (n : Nat) : PFun :=
  match n with
  | 0 => .and | 1 => .or | 2 => .xor | 3 => .andNot | 4 => .not | 5 => .one | 6 => .zero | _ => .copy

/-- The fields of a 64-bit instruction word (R74). -/
structure WheelWord where
  p : Fin 16      -- PRED
  u : Fin 4       -- U
  d : Fin 64      -- D
  a : Fin 64      -- A
  b : Fin 64      -- B
  c : Fin 64      -- C
  opnd : Opnd     -- operand B: register B, or the immediate with IMM = 1 (R76)
  cond : Cond     -- condition of a compare, D[2:0] (R79)
  pfun : PFun     -- function of PSET, D[2:0] (R79)
  pa : Fin 4      -- A[1:0] of PSET (R79)
  pb : Fin 4      -- B[1:0] of PSET (R79)
  slot : Ixd 12   -- form S (R75)
  word : Ixd 10   -- form K (R75)
  caddr : BitVec 10 -- form Q (R75)
  csrc : Option (Fin 64) -- form L: the count register with CSRC = 1 (R75)
  max : BitVec 8  -- form L: MAX (R75)
  lend : BitVec 9 -- form L: LEND; form J: TARGET (R75)
  mask : BitVec 16 -- form M: MASK; form P: TAG (R75)

/-- The fields of word `v` (R74 to R76). -/
def wheelWord (v : Nat) : WheelWord :=
  let b : Fin 64 := Fin.ofNat 64 (takeBits v 35 30)
  let ix : Option (Fin 64) := if v.testBit 23 then some b else none
  { p := Fin.ofNat 16 (predOf v), u := Fin.ofNat 4 (takeBits v 49 48), d := Fin.ofNat 64 (takeBits v 47 42),
    a := Fin.ofNat 64 (takeBits v 41 36), b := b, c := Fin.ofNat 64 (takeBits v 29 24),
    opnd := if v.testBit 63 then .imm (BitVec.ofNat 32 (takeBits v 31 0)) else .reg b,
    cond := condOf (takeBits v 44 42), pfun := pfunOf (takeBits v 44 42),
    pa := Fin.ofNat 4 (takeBits v 37 36), pb := Fin.ofNat 4 (takeBits v 31 30),
    slot := ⟨BitVec.ofNat 12 (takeBits v 11 0), ix⟩, word := ⟨BitVec.ofNat 10 (takeBits v 9 0), ix⟩,
    caddr := BitVec.ofNat 10 (takeBits v 9 0),
    csrc := if v.testBit 23 then some (Fin.ofNat 64 (takeBits v 41 36)) else none,
    max := BitVec.ofNat 8 (takeBits v 19 12), lend := BitVec.ofNat 9 (takeBits v 8 0), mask := BitVec.ofNat 16 (takeBits v 15 0) }

/-- The instruction of Wheel `w` with operation code `op` and the fields `f` (R83). -/
def wheelInstr (w : Fin 64) (op : Nat) (f : WheelWord) : Option Instr :=
  match op with
  | 0x00 => some (.nop w f.p)
  | 0x01 => some (.endP w f.p)
  | 0x02 => some (.mov w f.p f.d (match f.opnd with | .imm v => .imm v | .reg _ => .reg f.a))
  | 0x03 => some (.getf w f.p f.d)
  | 0x04 => some (.cyc w f.p f.d)
  | 0x05 => some (.pset w f.p f.u f.pfun f.pa f.pb)
  | 0x08 => some (.lds w f.p f.d f.slot)
  | 0x09 => some (.ldf w f.p f.d f.slot)
  | 0x0A => some (.sts w f.p f.a f.slot)
  | 0x0B => some (.ldc w f.p f.d f.word)
  | 0x0C => some (.adcs w f.p f.mask)
  | 0x0D => some (.post w f.p f.a f.mask)
  | 0x10 => some (.loop w f.p f.csrc f.max f.lend)
  | 0x11 => some (.brf w f.p f.lend)
  | 0x20 => some (.fadd w f.p f.d f.a f.opnd)
  | 0x21 => some (.fsub w f.p f.d f.a f.opnd)
  | 0x22 => some (.fmul w f.p f.d f.a f.opnd)
  | 0x23 => some (.fma w f.p f.d f.a f.b f.c)
  | 0x24 => some (.fms w f.p f.d f.a f.b f.c)
  | 0x25 => some (.fmin w f.p f.d f.a f.opnd)
  | 0x26 => some (.fmax w f.p f.d f.a f.opnd)
  | 0x27 => some (.fclamp w f.p f.d f.a f.b f.c)
  | 0x28 => some (.fabs w f.p f.d f.a)
  | 0x29 => some (.fneg w f.p f.d f.a)
  | 0x2A => some (.fdiv w f.p f.d f.a f.b)
  | 0x2B => some (.fsqrt w f.p f.d f.a)
  | 0x2C => some (.fcmp w f.p f.u f.cond f.a f.opnd)
  | 0x30 => some (.f2q w f.p f.d f.a)
  | 0x31 => some (.q2f w f.p f.d f.a)
  | 0x32 => some (.f2i w f.p f.d f.a)
  | 0x33 => some (.i2f w f.p f.d f.a)
  | 0x34 => some (.f2u w f.p f.d f.a)
  | 0x38 => some (.qadd w f.p f.d f.a f.opnd)
  | 0x39 => some (.qsub w f.p f.d f.a f.opnd)
  | 0x3A => some (.qmul w f.p f.d f.a f.opnd)
  | 0x3B => some (.qmac w f.p f.d f.a f.b f.c)
  | 0x3C => some (.qabs w f.p f.d f.a)
  | 0x3D => some (.qcmp w f.p f.u f.cond f.a f.opnd)
  | 0x40 => some (.iadd w f.p f.d f.a f.opnd)
  | 0x41 => some (.isub w f.p f.d f.a f.opnd)
  | 0x42 => some (.and w f.p f.d f.a f.opnd)
  | 0x43 => some (.or w f.p f.d f.a f.opnd)
  | 0x44 => some (.xor w f.p f.d f.a f.opnd)
  | 0x45 => some (.shl w f.p f.d f.a f.opnd)
  | 0x46 => some (.shr w f.p f.d f.a f.opnd)
  | 0x47 => some (.sar w f.p f.d f.a f.opnd)
  | 0x48 => some (.icmp w f.p f.u f.cond f.a f.opnd)
  | 0x49 => some (.ucmp w f.p f.u f.cond f.a f.opnd)
  | 0x50 => some (.crot w f.p f.d f.a f.b)
  | 0x51 => some (.crotv w f.p f.d f.a f.b f.c)
  | 0x52 => some (.cvec w f.p f.d f.a f.b)
  | 0x58 => some (.iacc w f.p f.d f.u f.a f.b)
  | 0x59 => some (.ird w f.p f.d f.u)
  | 0x5A => some (.ipre w f.p f.u f.a)
  | 0x5B => some (.ilim w f.p f.u f.a f.b)
  | 0x60 => some (.bq w f.p f.d f.u f.a f.caddr)
  | 0x61 => some (.bqclr w f.p f.u)
  | 0x68 => some (.res w f.p f.d f.u f.a f.b)
  | 0x69 => some (.resr w f.p f.d f.u)
  | _ => none

/-- The instruction that a 64-bit word is for Wheel `w`; none where the word breaks a rule of R77 that concerns it alone (R74 to R83). -/
def decodeWheel (w : Fin 64) (v : DWord) : Option Instr :=
  if wordOk v.toNat then wheelInstr w (opOf v.toNat) (wheelWord v.toNat) else none

end Sys2Proof
end

