-- ==== Sys2Proof/Machine/Sha256.lean ====
section
/-!
DEFINITION. SHA-256 over bytes (FIPS 180-4), which the spec names for CONTENT_DIGEST (R31), the firing digest (R341) and the digest of the
repair map (R346); and little-endian fields of byte sequences (R31).
-/

namespace Sys2Proof.Machine

open Sys2Proof

/-- The round constants. -/
def shaK : List Word :=
  [0x428A2F98, 0x71374491, 0xB5C0FBCF, 0xE9B5DBA5, 0x3956C25B, 0x59F111F1, 0x923F82A4, 0xAB1C5ED5] ++
  [0xD807AA98, 0x12835B01, 0x243185BE, 0x550C7DC3, 0x72BE5D74, 0x80DEB1FE, 0x9BDC06A7, 0xC19BF174] ++
  [0xE49B69C1, 0xEFBE4786, 0x0FC19DC6, 0x240CA1CC, 0x2DE92C6F, 0x4A7484AA, 0x5CB0A9DC, 0x76F988DA] ++
  [0x983E5152, 0xA831C66D, 0xB00327C8, 0xBF597FC7, 0xC6E00BF3, 0xD5A79147, 0x06CA6351, 0x14292967] ++
  [0x27B70A85, 0x2E1B2138, 0x4D2C6DFC, 0x53380D13, 0x650A7354, 0x766A0ABB, 0x81C2C92E, 0x92722C85] ++
  [0xA2BFE8A1, 0xA81A664B, 0xC24B8B70, 0xC76C51A3, 0xD192E819, 0xD6990624, 0xF40E3585, 0x106AA070] ++
  [0x19A4C116, 0x1E376C08, 0x2748774C, 0x34B0BCB5, 0x391C0CB3, 0x4ED8AA4A, 0x5B9CCA4F, 0x682E6FF3] ++
  [0x748F82EE, 0x78A5636F, 0x84C87814, 0x8CC70208, 0x90BEFFFA, 0xA4506CEB, 0xBEF9A3F7, 0xC67178F2]

/-- The initial hash value. -/
def shaInit : List Word :=
  [0x6A09E667, 0xBB67AE85, 0x3C6EF372, 0xA54FF53A, 0x510E527F, 0x9B05688C, 0x1F83D9AB, 0x5BE0CD19]

/-- `n` further words of the message schedule; `l` holds the last sixteen, newest first. -/
def shaSchedule (n : Nat) (l : List Word) : List Word :=
  match n with
  | 0 => []
  | m + 1 =>
    let a := l.getD 14 0
    let b := l.getD 1 0
    let s0 := a.rotateRight 7 ^^^ a.rotateRight 18 ^^^ (a >>> 3)
    let s1 := b.rotateRight 17 ^^^ b.rotateRight 19 ^^^ (b >>> 10)
    let w := l.getD 15 0 + s0 + l.getD 6 0 + s1
    w :: shaSchedule m (w :: l.take 15)

/-- The rounds: `h` holds a to h, `l` the round constants with the schedule words. -/
def shaRounds (l : List (Word × Word)) (h : List Word) : List Word :=
  match l with
  | [] => h
  | (k, w) :: t =>
    match h with
    | [a, b, c, d, e, f, g, x] =>
      let s1 := e.rotateRight 6 ^^^ e.rotateRight 11 ^^^ e.rotateRight 25
      let t1 := x + s1 + ((e &&& f) ^^^ (~~~e &&& g)) + k + w
      let s0 := a.rotateRight 2 ^^^ a.rotateRight 13 ^^^ a.rotateRight 22
      let t2 := s0 + ((a &&& b) ^^^ (a &&& c) ^^^ (b &&& c))
      shaRounds t [t1 + t2, a, b, c, d + t1, e, f, g]
    | _ => h

/-- The hash value after a block of sixteen words. -/
def shaBlock (h b : List Word) : List Word :=
  List.zipWith (· + ·) h (shaRounds (shaK.zip (b ++ shaSchedule 48 b.reverse)) h)

/-- Four bytes, first most significant, as a word. -/
def beWord (l : List Nat) : Word := BitVec.ofNat 32 (l.foldl (fun n b => 256 * n + b) 0)

/-- The first `n` blocks of a padded message. -/
def shaBlocks (n : Nat) (l : List Nat) (h : List Word) : List Word :=
  match n with
  | 0 => h
  | m + 1 => shaBlocks m (l.drop 64) (shaBlock h ((List.range 16).map fun i => beWord ((l.drop (4 * i)).take 4)))

/-- `v` as `n` bytes, most significant first. -/
def beBytes (n v : Nat) : List Nat := (List.range n).map fun i => v / 256 ^ (n - 1 - i) % 256

/-- `v` as `n` bytes, least significant first (R31). -/
def leBytes (n v : Nat) : List Nat := (List.range n).map fun i => v / 256 ^ i % 256

/-- The SHA-256 of a sequence of bytes, as a 256-bit number whose most significant byte is the first of the digest. -/
def sha256 (l : List Nat) : Nat :=
  let n := l.length
  let blocks := (n + 72) / 64
  (shaBlocks blocks (l ++ 0x80 :: List.replicate (64 * blocks - n - 9) 0 ++ beBytes 8 (8 * n)) shaInit).foldl
    (fun a w => 2 ^ 32 * a + w.toNat) 0

/-- The little-endian number of `n` bytes at offset `o` (R31). -/
def leAt (l : List Nat) (o n : Nat) : Nat := ((l.drop o).take n).reverse.foldl (fun a b => 256 * a + b) 0

/-- Part `i` of a digest in pieces of `n` bytes, its first byte the least significant (R258, R346). -/
def digestPart (d n i : Nat) : Nat := leAt (beBytes 32 d) (n * i) n

/-- The number of `n` bytes at offset `o`, first most significant. -/
def beAt (l : List Nat) (o n : Nat) : Nat := ((l.drop o).take n).foldl (fun a b => 256 * a + b) 0

end Sys2Proof.Machine
end

