-- ==== Sys2Proof/Config.lean ====
section
/-!
DEFINITION. What the spec leaves open and the machine nevertheless yields: free values. Each is an opaque constant, so that
nothing can be proved of its value; the assumption log names each.
-/

namespace Sys2Proof

/-- A fresh free 32-bit value: the model's counter `State.free` says which one. (DESIGN CHOICE, log entry 6.) -/
opaque Config.freeWord : Nat → Word

/-- Byte `i` of the staging region as the load with free value `n` left it: the spec does not lay out what it writes (R35). (DESIGN CHOICE,
log entry 119.) -/
opaque Config.stagedByte : Nat → Nat → BitVec 8

/-- What a register that shows a live quantity or a device reads, by the free-value counter and the register's address (R410). (DESIGN CHOICE, log entry 11.) -/
opaque Config.live : Nat → Nat → Word

/-- What the CORDIC unit yields within the bounds of R88: kind of result and three operands. (DESIGN CHOICE, log entry 38.) -/
opaque Config.cordic : Nat → Word → Word → Word → Word

/-- What the generalised integrator of R101 yields, whose discretisation the spec names and does not give: which of its outputs, its two
states, its input one update earlier and now, ω̂ and Tu. (DESIGN CHOICE, log entry 41.) -/
opaque Config.sogi : Nat → Word → Word → Word → Word → Word → Word → Word

/-- The phase φ_k of tone `k` that Pebaber sets for the Glaze of content digest `d`, in units of 2^-64 of a turn (R133). (DESIGN CHOICE, log
entry 101.) -/
opaque Config.tonePhase : Nat → Nat → Nat

/-- Resampled point `i` of `n` points of an interval with the samples given, in 2^-197 V or A: the interpolation of R250 is not given. (DESIGN
CHOICE, log entry 54.) -/
opaque Config.resample : List Int → Nat → Nat → Int

/-- OP of a frame header, by class and by what the frame does: the spec gives the field and no codes (R294). (DESIGN CHOICE, log entry
112.) -/
opaque Config.frameOp : Nat → Nat → Nat

/-- The 8-bit type of an ordered unit, by its place in the list of R294: the spec gives no codes. (DESIGN CHOICE, log entry 112.) -/
opaque Config.unitType : Nat → Nat

/-- The CRC-8 of an ordered unit's type and content: the spec gives no polynomial (R294). (DESIGN CHOICE, log entry 112.) -/
opaque Config.crc8 : Nat → Nat

/-- Bit `i` of the alignment marker, which the spec does not lay out (R281). (DESIGN CHOICE, log entry
112.) -/
opaque Config.alignMarker : Nat → Bool

/-- Replay window of MACsec on MAC `m`'s receive channel `c`: the spec gives its range and no register (R324). (DESIGN CHOICE, log entry
137.) -/
opaque Config.replayWindow : Nat → Nat → Nat

/-- Bits of one UART character under a CFG: the spec does not place CFG's fields (R332, R410). (DESIGN CHOICE, log entry 138.) -/
opaque Config.uartBits : Nat → Nat

/-- Word `i` of the DEV signature with index `q` (R346). -/
opaque Config.devSignature : Nat → Nat → Word

/-- Word `i` of a DEV signature, where it depends on bottom tree `t` alone: the top tree's signature of it and its public key (R347). (DESIGN
CHOICE, log entry 131.) -/
opaque Config.treeWord : Nat → Nat → Word

/-- Word `i` of GET_INFO's response in a lifecycle state, with whether a zeroisation without VAUX is reported (R349, R354). (DESIGN CHOICE,
log entry 73.) -/
opaque Config.infoWord : Nat → Bool → Nat → Word

/-- Word `i` of the device certificate (R335, R342). (DESIGN CHOICE, log entry 73.) -/
opaque Config.certWord : Nat → Word

/-- The device-unique secret (R335). (DESIGN CHOICE, log entry 131.) -/
opaque Config.deviceSecret : Nat

/-- The SAK that the DRBG yields at the draw with serial number `n` (R352). (DESIGN CHOICE, log entry 139.) -/
opaque Config.drawnSak : Nat → Nat

/-- The KEK that the KDF derives of a CAK and its CKN (R352). (DESIGN CHOICE, log entry 139.) -/
opaque Config.kek : Nat → List Byte → Nat

/-- The ICK that the KDF derives of a CAK and its CKN (R352). (DESIGN CHOICE, log entry 139.) -/
opaque Config.ick : Nat → List Byte → Nat

/-- Word `i` of the ICV of an MKPDU under an ICK (R352). (DESIGN CHOICE, log entry 139.) -/
opaque Config.icvWord : Nat → List Byte → Nat → Word

/-- Word `i` of the response with serial number `n`, where the spec leaves the response's content open or random (R349). -/
opaque Config.responseWord : Nat → Nat → Word

/-- The Saggar firmware's version, 16 bits (R346). -/
opaque Config.saggarVersion : Nat

/-- Length in bytes of a response whose layout the spec does not give: GET_INFO, GET_CERT. (DESIGN CHOICE, log entry 73.) -/
opaque Config.responseLen : Nat → Nat

end Sys2Proof
end

