-- ==== Sys2Proof/Machine/Units.lean ====
section
/-!
DEFINITION. The state of each unit of the block that no register shows: plain data, one structure per unit, each
field's line saying what it holds and which rule of spec/ gives it. The defaults are the values at reset.
-/

namespace Sys2Proof.Machine

open Sys2Proof

/-- The system SRAM. A load writes its result into the staging region, whose bytes the spec does not lay out: until something writes them
again they are free values (R35). -/
structure Ram where
  cells : List Host.Cell := [] -- bytes by offset, canonical (R402); reset: 5
  left : Option Nat := none -- a load has written the staging region: the free value that its bytes are; reset: 119
  redone : List (Nat × BitVec 1) := [] -- bytes of that region written since, canonical; reset: 119
  deriving DecidableEq, Repr

/-- A load under way (R35). -/
structure Load where
  image : GlazeImage -- the image being read (R35)
  gateChecked : Bool := false -- the GATE section and gate-power limits have been checked (R370)
  deriving DecidableEq, Repr

/-- A Glaze that is staged or in force: what the loader keeps of the image beside the register planes. -/
structure Glaze where
  image : GlazeImage -- the image (R31, R33)
  placement : Placement -- logical resources on physical ones, computed at load (R35, R47)
  mapVersion : Nat -- the repair map's version the placement was computed against (R36 code 0x12)
  digest : Nat -- CONTENT_DIGEST as the Saggar verified it (R35, R36 code 0x11)
  deriving DecidableEq, Repr

/-- The loader and firing state of the GLZ block. -/
structure GlzState where
  load : Option Load := none -- load under way; reset: none (R35)
  staged : Option Glaze := none -- the staged Glaze; reset: none (R38)
  active : Option Glaze := none -- the Glaze in force; reset: none (R39)
  outgoing : Option Glaze := none -- during a firing, the Glaze that was in force before (R39, R258)
  outgoingDigest : Nat := 0 -- firing digest of the outgoing Glaze (R39)
  firingDigest : Nat := 0 -- firing digest of the Glaze in force (R27, R341)
  fireWait : Bool := false -- FIRE accepted, safe order or phase 0x5 entry awaited (R39)
  firedOnce : Bool := false -- a Glaze has been fired since reset (R268)
  firePlantCause : Bool := false -- the manager's firing is a plant-stop cause (R43, R227)
  islandsEnabled : Bool := false -- PLL1 to PLL6 enabled by the first successful load (R269)
  verified : List Nat := [] -- content digests the Saggar verified since reset (R35, R339)
  plane : List (Nat × DWord) := [] -- the staged register planes: RWF fields by register address, as differences are kept whole (R35)
  deriving DecidableEq, Repr
/-- One integrator state of a Wheel (R89 to R92). -/
structure Integ where
  st : Word := 0 -- the state s (R89)
  y : Word := 0 -- the output after the last clamp (R90)
  kinv : Word := 0 -- 1 ÷ K of the active bank, 0 where K is 0, infinite or NaN (R89)
  hi : Word := 0 -- HI′ of this sample (R90)
  lo : Word := 0 -- LO′ of this sample (R90)
  sat : Bool := false -- SAT (R92)
  deriving DecidableEq, Repr

/-- One biquad slot (R93). -/
structure Biq where
  w1 : Word := 0 -- w1 (R93)
  w2 : Word := 0 -- w2 (R93)
  deriving DecidableEq, Repr

/-- One residual channel (R94 to R96, R152). -/
structure Resid where
  breached : Bool := false -- the breached flag (R94)
  cnt : Nat := 0 -- consecutive exceedances (R94)
  ok : Nat := 0 -- consecutive passes (R94)
  sub : Nat := 0 -- substituted samples, saturating at 255 (R94, R152)
  r : Word := 0 -- the residual last computed (R96)
  entered : Bool := false -- entered the breach in this sample (R151)
  ovf : Bool := false -- sub came to exceed M in this sample (R96)
  seen : Bool := false -- a RES on the channel has run in this sample (R95)
  deriving DecidableEq, Repr

/-- The states of a Wheel's units that instructions change in a working copy (R72). -/
structure WUnits where
  integ : Vector Integ 4 := Vector.replicate 4 {} -- I0 to I3 (R89)
  biq : Vector Biq 4 := Vector.replicate 4 {} -- B0 to B3 (R93)
  resid : Vector Resid 4 := Vector.replicate 4 {} -- C0 to C3 (R94)
  deriving DecidableEq, Repr

/-- A running loop of a Wheel program (R80). -/
structure LoopRun where
  start : Nat -- first address of the body (R80)
  lend : Nat -- LEND (R80)
  left : Nat -- trips not yet begun (R80)
  deriving DecidableEq, Repr

/-- A fresh read that waits for its result (R59, R234). -/
structure Fresh where
  d : Fin 64 -- destination register (R59)
  slot : Nat -- slot read (R59)
  core : Nat -- converter core that owns the slot (R59)
  cyc : Nat -- sample cycle in which it issued (R59)
  deriving DecidableEq, Repr

/-- One logical Wheel W0 to W63 beside its memories (R45, R70 to R73). -/
structure Wheel where
  decl : WheelDecl := {} -- its declaration in the Glaze in force (R33, R89, R94)
  x : List (Nat × Word) := [] -- registers X0 to X63, those not zero (R70)
  preds : BitVec 4 := 0 -- predicates P0 to P3 (R71)
  flags : Nat := 0 -- sticky flags, bits 0 to 8 of GETF's layout (R71)
  units : WUnits := {} -- unit states last committed (R72)
  work : WUnits := {} -- their working copy (R72)
  pc : Nat := 0 -- address of the instruction that issues next (R73)
  loops : List LoopRun := [] -- running loops, innermost first (R80)
  cyc : Nat := 0 -- sample cycle in which it issues (R73)
  live : Bool := false -- the Wheel issues instructions of a sample (R73, R45)
  ended : Bool := false -- END executed in this sample (R82)
  wait : Option Fresh := none -- a fresh read under way (R59)
  stopNext : Bool := false -- a memory error outside a sample: nothing issues in the next one (R45)
  preset : List (Nat × Word) := [] -- ISTATE writes awaiting the next sample start (R67)
  deriving DecidableEq, Repr

/-- A swap request that is pending (R64, R65). -/
structure SwapReq where
  bank : Nat -- target bank (R64)
  hw : Bool -- from the RTS or the ISL (R65)
  atPlant : Bool -- waits for a plant-period boundary that has not come yet (R64)
  deriving DecidableEq, Repr

/-- What has become of a start instruction of a core in a sample (R58, R59, R233, R234). -/
structure StartRec where
  core : Nat -- core named (R58)
  slot : Option Nat -- slot of the entry it converts; none where the core ignored it (R233, R234)
  cyc : Nat -- sample cycle of issue, from which FRESH_TMO counts (R59)
  arrived : Bool -- its result has arrived (R59)
  deriving DecidableEq, Repr

/-- One rate group beside its registers (R46 to R67, R149, R154). -/
structure Group where
  trig : Nat := 0 -- triggers that have arrived and whose sample has not started (R49)
  divCnt : Nat := 0 -- events since the last that triggered (R48)
  ptpIdx : Nat := 0 -- source 4: number of the multiple of PERIOD × 1.25 ns that PTP time reached last (R48, R326)
  plane : List (Nat × Word) := [] -- the signal plane as it stood at the sample start (R54)
  stores : List (Nat × Word) := [] -- values stored in this sample, by slot (R53)
  starts : List StartRec := [] -- start instructions of this sample, oldest first (R59)
  swap : Option SwapReq := none -- the pending swap request (R64)
  runLen : Nat := 0 -- misses of the present run (R149)
  runFirst : Nat := 0 -- SAMPLES at the first miss of the run (R149)
  runTrig : Bool := false -- TRIGLOSS contributed (R149)
  runMem : Bool := false -- MEM_ERR contributed (R149)
  unguarded : Bool := true -- the next end-of-sample is the first after firing (R154)
  grd : Vector Nat 4 := Vector.replicate 4 0 -- consecutive clipped samples of each guard (R155)
  deriving DecidableEq, Repr

/-- The fabric's block-wide state. -/
structure Fabric where
  mbox : List (Word × Nat × Nat × Nat) := [] -- mailbox entries, oldest first: value, tag, Wheel, group (R68)
  deriving DecidableEq, Repr

/-- One grid synchronisation unit beside its registers (R98 to R108). -/
structure Gsu where
  acc : Nat := 0 -- the 64-bit phase accumulator: 2^64 is one turn (R102)
  x : Word := 0 -- loop integral x, rad/s (R102)
  w : Word := 0 -- ω̂, rad/s (R102)
  seeded : Bool := false -- θ has been seeded since firing (R121)
  sogiA : Word × Word × Word := (0, 0, 0) -- the α integrator: in-phase, quadrature, its last input (R101)
  sogiB : Word × Word × Word := (0, 0, 0) -- the β integrator (R101)
  divCnt : Nat := 0 -- sample starts of TRIG_RG since the last update (R100)
  vin : List Word := [] -- va, vb, vc (or vab, vbc, vca) after scaling at the last update (R108)
  vprev : List Word := [] -- the same one update earlier, for the central difference (R104)
  mags : List (List Word) := [[], [], []] -- instantaneous magnitudes of the window, newest first, per phase (R104)
  fHist : List Word := [] -- ω̂ ÷ 2π of the updates of one nominal cycle, newest first (R103)
  fPub : List Word := [] -- f of the updates of one ROCOF_WIN, newest first (R103)
  v0Hist : List Word := [] -- v0 of the updates of one nominal cycle (R101)
  vnHist : List Word := [] -- vn of the updates of one nominal cycle, newest first (R107)
  lastF : Word := 0 -- f last computed (R106)
  out : List Word := [] -- the estimates of the last update, 15 words (R108)
  due : Bool := false -- they await their publication cycle (R100)
  jump : Bool := false -- the last update reported a phase jump that is not published yet (R105)
  errOk : Bool := false -- |e| < 0.02 and f within 10 Hz of nominal at the last update (R106)
  errRun : Nat := 0 -- consecutive updates with |e| at or above 0.1 (R106, R109)
  lockedF : Word := 0 -- f last published with LOCKED = 1 (R120)
  deriving DecidableEq, Repr

/-- One ride-through curve (R112, R113). -/
structure Curve where
  band : Nat := 0 -- band: 0 continuous, k + 1 for point k (R112)
  entry : List Nat := [] -- bands seen at the last ticks, newest first, at most 16 (R113)
  exit : List Nat := [] -- bands seen with the hysteresis of an exit, newest first (R113)
  excTicks : Nat := 0 -- ticks since the excursion began (R113)
  running : Bool := false -- an excursion lasts (R113)
  tripped : Bool := false -- moved to region TRIP by a time limit or a TRIP band (R113, R119)
  deriving DecidableEq, Repr

/-- The ride-through sequencer beside its registers (R111 to R121). -/
structure Rts where
  curves : Vector Curve 4 := Vector.replicate 4 {} -- UV, OV, UF, OF (R112)
  recovery : Word := 0x3F800000 -- RECOVERY, float32 (R118)
  deriving DecidableEq, Repr


/-- A perturbation pulse under way (R129). -/
structure Pulse where
  pos : Bool -- its sign is +1 (R129)
  amp : Nat -- its amplitude in 0.001 pu (R129)
  f0 : Word -- f at its first tick (R129)
  v0 : Word -- |V+| at its first tick (R129)
  deriving DecidableEq, Repr

/-- A notch retune under way (R136). -/
structure Retune where
  words : List Word -- b0, b1, b2, a1, a2 (R136 step 1)
  hz : Word -- the resonance they are for (R136 step 5)
  stage : Nat -- 1 waits for no swap pending, 2 written and its notch swap requested, 3 swapped and to be mirrored (R136)
  deriving DecidableEq, Repr

/-- Sums of a tone's correlation over a window: products of the voltage and the current space vectors with the tone, in 2^-245 (R135). -/
structure ToneSum where
  vr : Int := 0
  vi : Int := 0
  ir : Int := 0
  ii : Int := 0
  deriving DecidableEq, Repr

/-- The islanding unit beside its registers (R125 to R144). -/
structure IslUnit where
  divCnt : Nat := 0 -- sample starts of TRIG_RG since the last tick (R125)
  due : Bool := false -- a tick awaits its publication instant (R125)
  p : Word := 0 -- P as the tick's sample start saw it (R125)
  q : Word := 0 -- Q as the tick's sample start saw it (R125)
  cur : Word × Word × Word := (0, 0, 0) -- the three phase currents as the tick's sample start saw them (R125)
  jumped : Bool := false -- the watched GSU has reported a phase jump since the last tick (R127)
  harm : List (Word × Word) := [] -- vα − pα and vβ − pβ of the ticks of one nominal cycle, newest first (R127)
  dHist : List Word := [] -- d of the ticks of 1 s, newest first (R127)
  corr : Vector ToneSum 4 := Vector.replicate 4 {} -- correlation sums of the running window (R135)
  corrN : Nat := 0 -- ticks they hold (R135)
  corrBad : Bool := false -- one of them saw a number that is not finite (R135)
  alert : Bool := false -- the next scheduled pulse is amplified (R127)
  pulse : Option Pulse := none -- the pulse under way (R129)
  amp : Nat := 0 -- amplitude of the next pulse in 0.001 pu (R129)
  count : Nat := 0 -- consecutive responses with one signature (R129)
  sig : Bool := false -- that signature is positive (R129)
  acts : Bool := false -- a detection is to be acted on at the next publication (R131)
  deferCnt : Option Nat := none -- a deferring worker's plant periods without a mode command (R132)
  spoilt : Bool := false -- the running estimator window overlaps a disturbance (R134)
  lgs : List Word := [] -- the last valid L_g estimates, newest first, at most five (R127)
  est : Word × Word × Word := (0, 0, 0) -- L_g, R_g and f_res last published (R126, R135)
  retune : Option Retune := none -- notch retune under way (R136)
  retunes : Nat := 0 -- retune count (R136)
  acc : Nat := 0 -- θF: 2^64 is one turn (R137)
  w : Word := 0 -- ωF, rad/s (R137)
  seeded : Bool := false -- θF and ωF hold (R144)
  pf : Word := 0 -- filtered power (R137)
  vf : Word := 0 -- VF (R137)
  ofsAng : Word := 0 -- OFS_ANG in degrees (R140, R141)
  ofsMag : Word := 0 -- OFS_MAG in pu (R140, R141)
  cmd : Option Bool := none -- transfer awaiting its deciding tick: to grid-forming or not (R139)
  armed : List Nat := [] -- armed preset entries (R140, R143)
  deriving DecidableEq, Repr

/-- One DC leg beside its registers (R158 to R160). -/
structure DciLeg where
  v : Word := 0 -- voltage at the last update (R158)
  i : Word := 0 -- current at the last update (R158)
  block : List (Word × Word) := [] -- voltage and current of the updates of the running block (R159)
  vk : Word := 0 -- v_k (R159)
  ik : Word := 0 -- i_k (R159)
  pk : Word := 0 -- p_k (R159)
  dpdv : Word := 0 -- dP/dV (R159)
  known : Bool := false -- a block has ended since firing (R159)
  recent : List Word := [] -- p_k of the blocks of the last 1 s, newest first (R162)
  outCnt : Nat := 0 -- consecutive updates on the side of the window that OUT_WIN does not tell (R168)
  vref : Option Word := none -- VREF_SWEEP held for one update after a completed sweep (R164)
  deriving DecidableEq, Repr

/-- What a sweep does (R164, R165). -/
inductive SweepPhase where
  | ramp | dwell | home | back
  deriving DecidableEq, Repr

/-- The sweep under way (R164). -/
structure Sweep where
  leg : Fin 6 -- leg swept
  win : Nat -- number of its window on PTP time (R163, R165)
  vs : Word -- Vs (R164)
  phold : Word -- PHOLD (R164)
  link : Word -- DC-link voltage at step 1 (R165)
  down : Bool -- it starts at VHI and moves down (R164)
  ref : Word -- VREF_SWEEP (R164)
  ph : SweepPhase := .ramp -- what it does (R164, R165)
  done : Nat := 0 -- points recorded (R164)
  meas : List (Word × Word) := [] -- voltage and current of the updates of the running dwell, newest first (R164)
  kmax : Nat := 0 -- k_max once the last point is recorded (R164)
  npeaks : Nat := 0 -- NPEAKS (R164)
  deriving DecidableEq, Repr

/-- The DC input unit beside its registers. -/
structure Dci where
  divCnt : Nat := 0 -- sample starts of TRIG_RG since the last update (R158)
  due : Bool := false -- an update awaits its publication instant (R158)
  legs : Vector DciLeg 6 := Vector.replicate 6 {} -- DC0 to DC5 (R158)
  sweep : Option Sweep := none -- the sweep engine (R163)
  deriving DecidableEq, Repr

/-- Edges of one period as stage 1 to 4 place them: counts of edge steps, none where no edge is due (R176 to R182). -/
structure Edges where
  aOn : Option Nat := none -- A's turn-on position in the period (R178)
  aOff : Option Nat := none -- A's turn-off position (R178)
  bOn : Option Nat := none -- B's turn-on position (R178)
  bOff : Option Nat := none -- B's turn-off position within the period (R178)
  deriving DecidableEq, Repr

/-- What stages 1 to 4 decide for a period (R176 to R182). -/
structure Plan where
  edges : Edges := {} -- its edges
  aTurn : Nat := 0 -- A's turn-on position, whether or not A has a pulse (R177)
  drops : Nat := 0 -- pulses dropped (R178)
  stretches : Nat := 0 -- pulses stretched (R178)
  deriving DecidableEq, Repr

/-- One modulator pair MODn beside its registers. -/
structure Pair where
  len : Nat := 0 -- actual length L of the current period in edge steps; 0 before the first (R173, R174)
  lp : Nat := 0 -- number of the next load point of the period (R174)
  latched : Nat := 0 -- compare latched last by a load point (R176, R177)
  arrived : Nat := 0 -- compare publication arrived in the MOD island and awaiting a load point (R55, R175)
  incoming : Option (Nat × Nat) := none -- the latest one, with its MOD cycle, which load points of later cycles latch (R175)
  plan : Plan := {} -- edges still due in the current period, and its counts (R178)
  carA : Bool := false -- A was on when the period began (R178)
  carB : Bool := false -- B was on when the period began (R178)
  waveA : Bool := false -- stage-4 level of output A (R178, R182)
  waveB : Bool := false -- stage-4 level of output B (R178, R182)
  outA : Bool := false -- stage-5 output at channel A's input before gating (R183)
  outB : Bool := false -- stage-5 output at channel B's input before gating (R183)
  offAtA : Int := -4294967296 -- position, counted in this period, at which output A last turned off (R183)
  offAtB : Int := -4294967296 -- the same for output B (R183)
  ovrNow : Nat := 0 -- SWAP and the inversions in force since the last period start, laid out as OVR (R183)
  periodNow : Nat := 0 -- PERIOD in force (R172)
  periodNext : Option Nat := none -- accepted PERIOD write awaiting the period start (R172)
  bOnSince : Option Nat := none -- position at which channel B's gated output turned on in this period (R182)
  bSeen : Bool := false -- this period holds a B on-interval of at least T_R (R182)
  bHist : List Bool := [] -- the same for the last complete periods, newest first, at most 64 (R182)
  refreshNext : Bool := false -- the next period is a refresh period whatever the history (R182, R196)
  slew : Int := 0 -- deviation that the next period absorbs (R173)
  adjust : Int := 0 -- single edge steps of the relative frequency, awaiting the next period (R313)
  cycleTrip : Bool := false -- held off by a cycle trip (R220)
  holdWanted : Bool := false -- a cessation hold is commanded (R116)
  hold : Bool := false -- cessation hold in force since a period start (R116, R217)
  stopHold : Bool := true -- held by a disarmed tile, phase 0x5 or a block stop until the first period start after arming (R217, R184)
  tripFirst : Bool := true -- no cycle trip since the last restart (R392 source 2)
  deriving DecidableEq, Repr

/-- Block-wide modulator state. -/
structure ModState where
  cyc : Nat := 0 -- number of the MOD cycle: 100 ns hold 40 at step 0, and events tell of more (R171, R175, R224)
  sub : Nat := 0 -- edge steps of that cycle that a tick has passed, 0 to 63 (R171)
  epochCnt : Nat := 0 -- the epoch counter (R173)
  hopDue : Option Int := none -- a chosen step that awaits its epoch, or the lock of PLL2 (R186, R272)
  hopWait : Bool := false -- its epoch has passed and it waits for PLL2 to lock (R272)
  hopPlant : Option Int := none -- manager: step chosen for the next control frame (R186)
  hopFrame : Option Int := none -- step in a control frame, awaiting the boundary at which that frame applies (R186)
  pairs : Vector Pair 9 := Vector.replicate 9 {} -- MOD0 to MOD8
  deriving DecidableEq, Repr

/-- Progress of a soft turn-off (R198). -/
inductive SoftStep where
  | idle | step1 | step2 | fullSink
  deriving DecidableEq, Repr

/-- One channel of a Setter tile beside its registers. -/
structure Chan where
  req : Bool := false -- the channel's input requests on (R194, R197)
  wait : Bool := false -- a turn-on held by the interlock (R194)
  cut : Bool := false -- the safe order turned it off while it sensed desaturation (R197, R201)
  bootWait : Bool := false -- channel A: turn-on waits for the bootstrap voltage (R196)
  bootSkip : Bool := false -- channel A: an on-edge fell due while it waited and is not issued (R196)
  bootLow : Bool := false -- channel A: capacitor below BOOT_UV + 0.5 V (R196)
  blanking : Bool := false -- desaturation blanking under way (R197)
  soft : SoftStep := .idle -- progress of soft turn-off (R198)
  uvNow : Bool := false -- supply in undervoltage now (R192)
  stage : Nat := 1 -- stage of the safe order recorded at arming (R373)
  stopDue : Bool := false -- turn-off due at stage 2 of a running safe order (R225)
  trimOn : Nat := 256 -- turn-on delay in force (R191)
  trimOff : Nat := 256 -- turn-off delay in force (R191)
  openSeg : Nat := 0 -- segments disconnected, one bit each (R205)
  deriving DecidableEq, Repr

/-- Test of the off-state diagnostics (R202). -/
inductive DiagStep where
  | d0 | d1 | d2 | d3 | back
  deriving DecidableEq, Repr

/-- One Setter tile beside its registers. -/
structure Tile where
  ch : Vector Chan 2 := Vector.replicate 2 {} -- channels A and B
  powered : Bool := false -- the gate-power converter serves the tile (R370)
  bootTrip : Bool := false -- BOOT_UV trip request to the Sitter (R196, R218)
  bootThis : Bool := false -- a BOOT_UV event occurred in the current period (R196)
  bootHist : List Bool := [] -- BOOT_UV events of the last 64 periods, newest first (R196)
  diag : Option (Nat × DiagStep) := none -- channel under test and its test (R202)
  diagDecl : (Nat × Nat × Nat) × (Nat × Nat × Nat) := ((0, 0, 0), (0, 0, 0)) -- declarations for A and B of the Glaze they run under (R202)
  diagGate : Nat × Nat := (0, 0) -- gate findings of A and B, not yet across (R203)
  diagNode : Nat × Nat := (0, 0) -- D3 classes of A and B, not yet across (R204)
  fallback : Nat := 0 -- control-side loss: 0 none, 1 stage 1 done, 2 stage 2 done (R373)
  deriving DecidableEq, Repr

/-- One window comparator beside its registers (WIN0 to WIN39, WX0 to WX3 as 40 to 43). -/
structure WinUnit where
  enabled : Bool := false -- enabled under R213
  raw : Nat := 0 -- side on which the input lies: 0 inside, 1 above UPPER, 3 below LOWER (R208)
  blank : Bool := false -- the blanking line is high (R211)
  blankHeld : Option Nat := none -- a crossing seen during blanking, as the side then reached (R211)
  testing : Bool := false -- disconnected by a running self-test (R215)
  capUnread : Bool := false -- a capture that firmware has not read (R214)
  shadow : Option Nat := none -- spare WX serving as the shadow (R216)
  shadowOf : Option Nat := none -- spare: the unit it shadows or carries (R216)
  deriving DecidableEq, Repr

/-- The Sitter beside its registers. -/
structure SitState where
  trippedOnce : Bool := false -- step 6 of the first firing has passed: LIVE_UNITS follows the units (SIT.TRIP_UNITS)
  orderTiles : List Nat := [] -- tiles of a running safe order not yet done (R225)
  plantFw : Bool := false -- SIT.CTRL.PLANT_STOP written and not yet cleared (R227)
  plantIsl : Bool := false -- the ISL has raised a plant stop (R132, R227)
  plantOnlyFiring : Bool := false -- the plant stop was raised by the manager's firing alone (R43, R227)
  firstAt : Nat := 0 -- MOD cycle in which the block stop was latched (R224)
  plausSources : List (Nat × Nat) := [] -- residual channels (Wheel, channel) that raised PLAUSIBILITY (R223)
  deriving DecidableEq, Repr
/-- A conversion whose result has not been written yet (R232, R233, R235). -/
structure Conv where
  entry : Nat -- entry converted (R233)
  capS : Bool -- on capacitor S: started by a start bit (R229)
  urgent : Bool -- an urgent request (R235)
  since : Option Nat -- cycle of the running sample of the core's group in which it began; none before that sample (R232)
  old : Nat := 0 -- cycles for which it had been under way when that sample began (R232)
  deriving DecidableEq, Repr

/-- What a spare converter GX0 or GX1 does (R381, R384). -/
inductive GxUse where
  | free
  | cal (core : Nat)
  | twin (core : Nat)
  | map (core : Nat)
  deriving DecidableEq, Repr

/-- One converter core ADC0 to ADC17 beside its registers. -/
structure AdcCore where
  conv : List Conv := [] -- conversions whose result is due, oldest first; STATUS.BUSY says that the last is in its bit trials (R232)
  fbPtr : Nat := 0 -- entry of the next fall-back or continuous conversion (R236)
  taking : Option Nat := none -- spare that takes the core over at the next sample boundary (R238)
  retire : Bool := false -- that takeover has no return: a map entry (R383)
  calLive : Bool := false -- calibrating by live substitution (R238)
  calEnded : Bool := false -- its calibration has ended and the return is awaited (R238)
  calFail : Bool := false -- it ended with a factor outside its field (R237)
  home : Nat := 0 -- CARRIER before the live substitution (R238)
  facOfs : Int := 0 -- factory OFS (R385)
  facGain : Int := 0 -- factory GAIN (R385)
  deriving DecidableEq, Repr


/-- A journal record before it has a SEQ: what its source sends through the crossing (R257 to R259). -/
structure JRec where
  typ : Nat -- TYPE (R258)
  detail : Nat -- DETAIL (R258)
  payload : Nat -- PAYLOAD, 64 bits (R258)
  cont : List Nat -- payloads of the CONT entries that follow (R258)
  time : Nat -- module time of the event in ns (R257)
  timeValid : Bool -- PTP time was valid (R257)
  loss : Bool := false -- entries were refused while the Saggar held eight, just before this one (R257, R362)
  deriving DecidableEq, Repr

/-- A save copy in the ferroelectric die (R254). -/
structure SaveCopy where
  accs : List Nat := [] -- the 96-bit accumulators in the order of their index
  seq : Nat := 0 -- SAVE_SEQ
  time : Nat := 0 -- module time of the sample boundary saved
  pf : Bool := false -- PF flag
  crcOk : Bool := false -- the CRC-32 over the record holds
  deriving DecidableEq, Repr

/-- A save under way (R254, R255). -/
structure SaveRun where
  pf : Bool -- a power-fail save
  accs : List Nat -- accumulators taken
  time : Nat -- module time of the boundary
  totalsReset : Bool := false -- the save records a totals reset (R350)
  deriving DecidableEq, Repr

/-- A current channel's gain paths (R245). -/
structure GainPath where
  main : Nat := 0 -- main-path gain code
  second : Nat := 1 -- second-path gain code
  settle : Nat := 0 -- 0 settled, else one more than the samples still to settle
  upAt : Bool := false -- an up-change is under way: the second path becomes the main path once settled
  downDue : Bool := false -- a down-change is due at the next sample boundary, or once settling ends
  deriving DecidableEq, Repr

/-- A power-quality event under way (R252). -/
structure PqRun where
  phases : Nat -- phases it touched, one bit each
  extreme : Nat -- residual or extreme Urms(1/2) in 0.01 % of rated
  samples : Nat := 0 -- metering samples since it began
  deriving DecidableEq, Repr

/-- The powers of an element or of their sum: active, reactive, apparent, in 2^-394 W (R246). -/
abbrev Power := Int × Int × Nat

/-- A metering sample as a basic interval keeps it (R246, R250). -/
structure MetRow where
  vals : List Int -- the row of the history
  total : List Power -- powers of a, b, c and their sum
  fund : List Power -- their fundamentals
  deriving DecidableEq, Repr

/-- What an interval of power quality has gathered (R249, R251). -/
structure MetSum where
  n : Nat := 0 -- samples
  sq : List Nat := List.replicate 16 0 -- sums of squares: the eight channels, then their fundamentals
  pw : List Int := List.replicate 24 0 -- sums of p, q and s of a, b, c and their sum: total, then fundamental
  k : Nat := 0 -- basic intervals
  ratio : List Nat := List.replicate 10 0 -- sums over the basic intervals of squares times 2^64: THDG of the eight channels, u2, u0
  dev : List Nat := List.replicate 6 0 -- sums over the basic intervals of squares of V RMS: capped above at rated, then below
  deriving DecidableEq, Repr

/-- A rapid voltage change under way and the half-cycle values before it (R252). -/
structure RapidRun where
  values : List (Vector Nat 3) := [] -- the last 100 or 120 values of Urms(1/2), newest first
  run : Option PqRun := none -- the change under way
  deriving DecidableEq, Repr

/-- Cycles of V1's fundamental counted over the running 10 s interval, in metering samples (R249). -/
structure CycleCount where
  tenth : Option Nat := none -- the interval, counted on the aggregation time
  samples : Nat := 0 -- its samples so far
  first : Option Nat := none -- sample of its first upward zero crossing
  last : Nat := 0 -- sample of its last one
  cycles : Nat := 0 -- cycles between the two
  prev : Int := 0 -- the sample before
  deriving DecidableEq, Repr

/-- The METER island beside its registers. -/
structure MetState where
  accs : List Nat := List.replicate 64 0 -- accumulators, 96 bits each, index 32 f + 4 k + p (R247, R248)
  copies : SaveCopy × SaveCopy := ({}, {}) -- the two save copies (R254)
  saving : Option SaveRun := none -- save under way (R254)
  gains : Vector GainPath 4 := Vector.replicate 4 {} -- I1, I2, I3, IN (R245)
  dirKnown : Bool := false -- phase directions taken from a first sample since firing (R253)
  pq : Vector (Option PqRun) 3 := Vector.replicate 3 none -- dip, swell and interruption running (R252)
  rapid : RapidRun := {} -- rapid voltage changes (R252)
  aggFlag : List Bool := [false, false, false, false] -- intervals that overlapped an event (R249)
  aggAt : Option (Nat × Nat × Nat) := none -- the running 10 min, 2 h and 10 s intervals, counted on their time (R249)
  aggBase : Option (Bool × Nat) := none -- PTP time valid, and whole seconds of the aggregation time, at the last basic interval's end (R249, R262)
  freq : Option Word := none -- the frequency of the last 10 s interval (R249)
  count : CycleCount := {} -- what the running 10 s interval has counted (R249)
  frame : List MetRow := [] -- the samples of the running basic interval, newest first, with their powers (R249 to R251)
  aggs : Vector MetSum 3 := Vector.replicate 3 {} -- what the running 150/180-cycle, 10 min and 2 h intervals have gathered (R249, R251)
  aggCount : Nat := 0 -- basic intervals since the last 150/180-cycle boundary (R249)
  newScale : Bool := false -- a new METR section waits for the next sample boundary (R42)
  scale : List (Word × Nat) := [] -- scaling in force per channel: MET.SCALE and MET.CH.CAL (R42)
  hist : List (List Int) := [] -- the samples of the last two nominal cycles, newest first: eight primary values, four peaks, eight fundamentals (R245, R246)
  boundary : Nat := 0 -- module time of the last sample boundary (R254)
  resetDue : Bool := false -- an authorised totals reset waits for the next sample boundary (R350)
  overNow : Nat := 0 -- channels past the overload level at the last sample, one bit each in the order of MET.SCALE (R243)
  last : List Int := [] -- last 24-bit sample of each of the eight channels (R398)
  saved : List (Nat × Nat) := [] -- whole seconds at which a periodic save was made, first and last of each run, newest first (R254)
  jq : List JRec := [] -- crossing into the METER island: records not yet arrived (R259)
  jbuf : List (Nat × Nat × Nat × Nat) := [] -- write buffer: SEQ with the three 64-bit words of an entry, oldest first (R259)
  lossDue : Bool := false -- the next entry committed carries LOSS (R259)
  gap : Option JRec := none -- the GAP record, until it stands right behind BOOT (R256)
  ring : List (Nat × DWord) := [] -- the journal ring: word i of place j at 4 j + i (R257, R260)
  entriesOpen : Bool := false -- the METER island accepts entries (R355, R376)
  deriving DecidableEq, Repr

/-- One PLL beside its registers. -/
structure Pll where
  everLocked : Bool := false -- locked since reset: its islands are released (R267)
  target : Nat := 0 -- N towards which a step moves (R270)
  stepLeft : Bool := false -- units of a step remain (R270)
  refHold : Bool := false -- in holdover because the reference was lost (R271)
  reacq : Bool := false -- it has left holdover and re-acquires (R272)
  deriving DecidableEq, Repr
/-- One lane beside its registers (R275 to R290). -/
structure LaneUnit where
  attempts : Nat := 0 -- failed attempts of the training under way (R283)
  fresh : Bool := false -- the training under way followed DOWN or a firing (R298)
  req : Option Nat := none -- power-state request not yet acknowledged: 4 L1, 5 L2 (R284)
  waking : Bool := false -- exit to L0 called (R284)
  gen : List Bool := [] -- the last 31 bits that the pattern generator sent, newest first (R286)
  inv : Nat := 0 -- bits of an injection under way (R287)
  quarter : Nat := 0 -- quarter bits that the checker's count carries over (R286)
  looped : List OutUnit := [] -- units that a local loopback has brought back to the lane's own receiver in the last 100 ns (R288)
  t1 : Nat := 0 -- departure of the last DELAY_REQ in edge steps (R312)
  delays : List Int := [] -- the last measurements of the link delay in ps, newest first, at most 16 (R312)
  deriving DecidableEq, Repr
/-- A held tag of the remote-access engine (R306 to R309). -/
structure RemTag where
  tag : Nat -- the tag, 0 to 127
  group : Option (Option Nat) := none -- broadcast: to all workers or to a group
  await : List Nat -- workers whose acknowledgement is awaited
  write : Bool -- a write
  addr : Nat -- address at the worker
  wide : Bool -- 64 bits
  value : DWord -- value written
  sent : Bool -- its frame has left: a credit was there (R296)
  own : Bool := false -- a write of the manager's engine, which no core issued (R299)
  deriving DecidableEq, Repr

/-- A remote request at a worker that has not been carried out yet (R307, R41). -/
structure RemReq where
  tag : Nat -- its tag
  write : Bool -- a write
  addr : Nat -- address
  wide : Bool -- 64 bits
  value : DWord -- value written
  facts : BusFacts := {} -- what the access finds outside the registers
  deriving DecidableEq, Repr

/-- Discovery of one chain (R298, R299). -/
structure Disc where
  asked : Option Nat := none -- position less one whose answer is awaited
  found : List (Nat × Announce) := [] -- answers by position less one
  known : List (Nat × Announce) := [] -- the answers of the last discovery that ended
  ended : Bool := false -- a discovery has ended since the block became manager
  cums : List (Nat × Option Nat) := [] -- CUM_DELAY and ALT_DELAY by position, as the last discovery that ended found them (R312, R317)
  deriving DecidableEq, Repr

/-- A bulk transfer under way (R310). -/
structure Bulk where
  sent : Nat := 0 -- frames sent or, for a read, 256-byte pieces received
  asked : Bool := false -- the start of a read has left: a credit was there (R296)
  lost : Bool := false -- a chain lane went DOWN during it (R320)
  bytes : List Nat := [] -- bytes sent or received so far
  deriving DecidableEq, Repr

/-- The plant protocol engine beside its registers. -/
structure Wlk where
  period : Nat := 0 -- number of the running plant period (R301, R302)
  stopped : List Nat := [] -- manager: workers whose last report names a stop with a cause other than PLANT_STOP and FIRING (R227)
  armed : List Nat := [] -- manager: workers whose last report says ANY_ARMED (R43, R304)
  islCmd : Nat := 0 -- manager: ISL command placed in the next control frame (R132, R302)
  islFrame : Nat := 0 -- manager: ISL command in a control frame, awaiting the boundary at which that frame applies (R132)
  detected : List Nat := [] -- manager: workers whose last report says MODE.DET (R132, R304)
  numbered : List (Nat × Nat × Nat) := [] -- manager: numbered workers with chain and position less one (R300)
  awaitRpt : List Nat := [] -- manager: workers whose report of this period has not arrived (R295)
  credits : List (Nat × Nat × Nat) := [] -- manager: request and bulk credits left per worker (R296)
  disc : Vector Disc 4 := Vector.replicate 4 {} -- manager: discovery of each chain (R299)
  restore : Bool := false -- manager: RING_RESTORE accepted, applied at the next boundary (R318)
  tags : List RemTag := [] -- manager: held tags, oldest first (R306)
  stalled : List RemTag := [] -- manager: accesses that wait for a tag, in their order (R306)
  bulk : Option Bulk := none -- manager: the transfer under way (R310)
  linkMiss : Nat := 0 -- worker: consecutive plant periods without a valid control frame (R19)
  position : Option Nat := none -- worker: its position less one (R299)
  reversed : Bool := false -- worker: LANE1 is its upstream lane (R317)
  frame : Option CtrlFrame := none -- worker: the valid control frame for the next boundary (R303)
  lockCnt : Nat := 0 -- worker: consecutive syncs within one edge step (R313)
  rateAcc : Int := 0 -- worker: accumulated relative frequency in 2^-32 edge steps (R313)
  timeValid : Bool := false -- worker: the last TIME frame marked the manager's time as valid (R327)
  reqs : List RemReq := [] -- worker: requests not yet carried out, in their order (R307)
  freed : Nat × Nat := (0, 0) -- worker: request and bulk credits freed and not yet returned (R296)
  rx : List Nat := [] -- worker: bytes of the last bulk write received (R310)
  up : Option (Nat × Nat × Nat) := none -- worker: bulk read under way: space, next address, 256-byte pieces left (R310)
  upCredits : Nat := 32 -- worker: bulk credits for frames to the manager (R296)
  nacks : Nat := 0 -- worker: negative acknowledgements that wait for such a credit (R296, R310)
  upFreed : List (Nat × Nat) := [] -- manager: such credits freed and not yet returned, per worker (R296)
  deriving DecidableEq, Repr

/-- An entry of a launch queue (R330). -/
structure LaunchEntry where
  addr : Nat -- the frame's offset in system SRAM
  sec : Nat -- launch seconds [31:0]
  ns : Nat -- launch ns
  len : Nat -- length in bytes
  tsReq : Bool -- TS_REQ
  id : Nat -- timestamp identifier
  deriving DecidableEq, Repr

/-- An entry of a transmit timestamp queue (R331). -/
structure TsEntry where
  id : Nat -- identifier
  sec : Nat -- seconds [15:0]
  ns : Nat -- ns
  deriving DecidableEq, Repr

/-- One MAC beside its registers (R321 to R331). -/
structure Mac where
  txPos : Nat := 0 -- next descriptor of ring 0 (R323)
  rxPos : Nat := 0 -- next descriptor of ring 1 (R323)
  txStop : Bool := false -- ring 0 stopped at a descriptor not owned (R323)
  rxStop : Bool := false -- ring 1 stopped at a descriptor not owned (R323)
  lq : List LaunchEntry := [] -- the launch queue, oldest first (R330)
  lqLast : Nat := 0 -- launch time in ns of the entry that last left the queue (R330)
  tsq : List TsEntry := [] -- the transmit timestamp queue, oldest first (R331)
  pn : Vector Nat 4 := Vector.replicate 4 1 -- next packet number of each transmit SA (R324)
  rxPn : Vector Nat 32 := Vector.replicate 32 1 -- next packet number of each receive SA: four of each of the eight receive SCs (R324)
  paused : Nat := 0 -- ns for which a received PAUSE still stops transmission (R321)
  pauseSent : Bool := false -- the partner has been paused (R321)
  deriving DecidableEq, Repr

/-- The NET island beside its registers. -/
structure Net where
  ptp : Ptp := {} -- the PTP clock (R325); reset: 3
  incLo : Option Nat := none -- fraction of PTP_INC written and not committed (NET.PTP_INC)
  setNs : Nat := 0 -- staged ns (R326)
  setSec : Nat := 0 -- staged seconds (R326)
  macs : Vector Mac 2 := Vector.replicate 2 {} -- MAC0 and MAC1
  uarts : Vector (List Word × Nat) 4 := Vector.replicate 4 ([], 0) -- UART transmit FIFOs, oldest first, and ns until the next character (R332)
  deriving DecidableEq, Repr
/-- A service under way: its ID, result code and response (R349). -/
structure SvcRun where
  id : Nat -- service ID
  code : Nat -- result code it ends with
  len : Nat -- response length in bytes
  rsp : List (Nat × Word) := [] -- response words by byte offset
  sig : Option Nat := none -- index of the DEV signature that follows the report (R346)
  free : Option Nat := none -- serial number of a response whose words are free values
  info : Option (Nat × Bool) := none -- GET_INFO's response: lifecycle state, whether it reports a zeroisation (R349, R354)
  cert : Bool := false -- the response is the device certificate (R349)
  deriving DecidableEq, Repr

/-- The Saggar beside its registers: its store, its SRAM and its pins. -/
structure SagState where
  lifecycle : Nat := 1 -- lifecycle fuses: 1 UNOWNED, 2 OWNED, 3 ZEROISED (R336); reset: 3
  error : Bool := false -- ERROR until the next reset (R336)
  keyFw : Option (BitVec 480) := none -- FW public key (R342)
  keyGlz : Option (BitVec 480) := none -- GLZ public key (R342)
  keySvc : Option (BitVec 480) := none -- SVC public key (R342)
  okek : Option Nat := none -- OKEK (R342)
  gens : Nat × Nat × Nat × Nat := (0, 0, 0, 0) -- generations of FW, GLZ, SVC, OKEK (R343)
  caks : List (Nat × Nat × List Byte × Nat) := [] -- CAKs installed: MAC, CAK slot, CKN, value (R342, R352)
  derived : List (Nat × Nat × Nat × Nat) := [] -- in SRAM, of each CAK: MAC, CAK slot, KEK, ICK (R352, R354)
  saks : List (Nat × Nat) := [] -- MACsec SAs that hold a SAK: MAC, SA (R352)
  sakVals : List (Nat × Nat × Nat) := [] -- the MACsec key slots: MAC, SA, the SAK (R334, R352)
  drbg : Option Nat := none -- DRBG state, by the serial number of its seed (R334, R354)
  secret : Option Nat := some Config.deviceSecret -- the device-unique secret; none once every bit of it is programmed (R335, R354); reset: 131
  gp : List Nat := [0, 0, 0, 0, 0, 0, 0, 0] -- counters GP0 to GP7 (R345)
  released : Option Nat := none -- RELEASED: index of the last released DEV signature (R348)
  nonce : Option Nat := none -- nonce outstanding, by the free value it was drawn from (R344)
  svc : Option SvcRun := none -- service under way (R349)
  rsp : List (Nat × Word) := [] -- SAG.RSP: words of the last response (R349)
  rspSig : Option Nat := none -- index of the signature it ends with (R346)
  rspFree : Option Nat := none -- the response's words are free values, of this serial number (R349)
  rspInfo : Option (Nat × Bool) := none -- the response is GET_INFO's (R349)
  rspCert : Bool := false -- the response is the device certificate (R349)
  treeKept : Bool := false -- state of the current attestation tree held in the always-on SRAM (R347)
  nextTree : Bool := false -- the next bottom tree has been built (R347)
  trees : List Nat := [0] -- bottom trees whose public key and top-level signature the store keeps (R347); reset: 131
  devKey : Bool := true -- the DEV key has not been destroyed (R354)
  zeroUnseen : Bool := false -- a zeroisation made without VAUX, which GET_INFO reports (R354)
  held : List JRec := [] -- journal entries held until the METER island accepts them (R355, R376)
  heldLoss : Bool := false -- an entry found the eight places taken (R362)
  tamperResp : Tamper × Tamper × Tamper := (.log, .lock, .lock) -- responses of temperature, voltage, clock (R353)
  tempHi : Nat := 140 -- TEMP_HI in °C (R353)
  fwVersion : Nat := 0 -- FW_VERSION of the running image (R340)
  fwDigest : Nat := 0 -- its digest (R346)
  bootFail : Option (Nat × Nat) := none -- cause and slot of a boot that released no HOST (R339)
  failCount : Nat := 0 -- failed boots since the last success (R355)
  bootTable : BootCopy × BootCopy := ({ seq := 1 }, {}) -- the two copies of the boot table (R337, R340); reset: 3
  bootNow : BootCopy := {} -- the boot table as it was in force at boot: the slots that are active until the next reset (R337, R340)
  octal : Bool := false -- the xSPI port has switched to 8D-8D-8D (R339)
  glzDigest : Nat := 0 -- digest of the active Glaze image as boot computed it (R339)
  mapDigest : Nat := 0 -- digest of the repair map applied at the last firing (R346)
  fault : Bool := false -- SAG_FAULT driven low (R336, R339)
  flashCmd : Option Nat := none -- xSPI command under way: its opcode (R410)
  deriving DecidableEq, Repr

/-- A last-gasp message that is pending (R364, R365). -/
structure GaspMsg where
  trigger : Nat -- 1 power loss, 2 tamper, 3 heartbeat (R364)
  detail : Nat -- tamper sensor, or store voltage in mV (R364)
  time : Nat -- module time of the trigger (R364)
  index : Option Nat := none -- index of its signature once signed (R365)
  deriving DecidableEq, Repr

/-- The Pug and the always-on island beside their registers. -/
structure PugState where
  aonNs : Nat := 0 -- always-on clock in ns (R257, R336); reset: 3
  supplied : Bool := true -- the always-on island has a supply (R360)
  msg : Option GaspMsg := none -- pending last-gasp message (R364)
  load : Bool := false -- PUG_LOAD closed (R365)
  warm : Bool := false -- WARMUP has expired and the message is being sent on PUG_TXD (R365)
  vocDue : Bool := false -- an open-circuit sample was deferred by a burst (R366)
  order : Nat := 1 -- place of the island's source in the list of R360; 0 none
  vbat : Nat := 0 -- VBAT in mV as last told (R360)
  harvestAt : Option Nat := none -- always-on clock when harvest was last present (R360)
  charger : Bool := false -- the charger tops the store up from VAUX (R359)
  deferred : List (Nat × Nat) := [] -- tamper events whose sweep waits for MEAS: sensor, value (R362, R366)
  deriving DecidableEq, Repr

/-- Power, resets and the watchdog beside their registers. -/
structure PwrState where
  rails : Nat := 0 -- rails that are good, in their order, since reset (R369)
  hostUp : Bool := false -- the HOST has been released (R339)
  saggarUp : Bool := false -- the Saggar has left reset (R369)
  wakeDue : Bool := false -- a wake unit has changed STATE (R214, R379)
  orderly : Option Nat := none -- cause of an orderly reset sequence under way (R372)
  resetPin : Bool := false -- RESET_N is low: the module is held in reset (R372)
  straps : BitVec 2 := 0 -- the levels of the strap pins CLK_SEL1 and CLK_SEL0 (R263); reset: 4
  highNs : Nat := 0 -- ns left in which VAUX can be above 48 V (R367)
  kick : Bool := false -- the first key of a watchdog kick has been written (R374)
  pfOut : Bool := false -- PF_OUT_N driven low (R375)
  firstLoad : Bool := false -- GP_CTRL.EN was accepted while the first load ran (R370)
  entry : Nat := 0 -- address at which the HOST was released (R339)
  deriving DecidableEq, Repr

/-- One entry of the repair map (R382). -/
structure MapEntry where
  kind : Nat -- kind of R381
  sub : Nat -- segment, row or column
  retired : Nat -- retired physical resource
  repl : Option Nat -- replacement, none where no spare was free
  auto : Bool -- added for a hard fault
  byFw : Bool -- committed by a firmware command
  deriving DecidableEq, Repr

/-- A proposal to retire a resource (R387). -/
structure Proposal where
  kind : Nat -- kind of R381
  sub : Nat -- segment, row or column
  inst : Nat -- physical resource
  reason : Nat -- 1 worn, 2 diagnosis CORE
  mon : Nat -- the monitor that raised it, or the one that watches its kind (R387)
  deriving DecidableEq, Repr

/-- A diagnosis of a suspect core and input (R386). -/
structure Diagnosis where
  core : Nat -- logical core
  ain : Nat -- input
  gx : Option Nat := none -- spare used as twin; none while deferred
  placed : Bool := false -- the twin samples alongside the core
  deriving DecidableEq, Repr

/-- Grog beside its registers. -/
structure Grog where
  map : List MapEntry := [] -- the repair map, oldest first, kept in the Saggar store (R382); reset: 3
  mapVersion : Nat := 0 -- number of map changes, by which a firing knows that the map changed (R36)
  pend : List MapEntry := [] -- entries the Saggar has not yet committed (R382)
  props : Vector (Option Proposal) 8 := Vector.replicate 8 none -- GRG.PROP0 to PROP7 (R387)
  dismissed : List (Nat × Nat × Nat × Nat) := [] -- resources dismissed: monitor, kind, instance, sub (R387)
  warned : List (Nat × Nat × Nat × Nat) := [] -- warning bits set: monitor (8 the symbol error ratio), kind, instance, sub (R385)
  errs : List ((Nat × Nat × Nat) × Nat × Nat) := [] -- corrected errors per resource: the 24 h window and the count in it (R385)
  diag : Option Diagnosis := none -- diagnosis running or deferred (R386)
  flags : List (Nat × Nat) := [] -- sensor flags that wait for a diagnosis: core, input (R386)
  runs : Nat := 0 -- OP of the command under way; 0 none (R388)
  eyeWorst : List (Nat × Nat × Word) := [] -- worst horizontal margin (7) and symbol error ratio (8) of a lane: which, lane, value (R385)
  worstOf : List (Nat × Nat) := [] -- monitor and instance that holds its worst value (R389)
  records : Nat := 0 -- WEAR_SAMPLE records written (R390)
  deriving DecidableEq, Repr


/-- One snapshot bank: its header's facts and its words by offset (R397, R398). -/
structure SnapBank where
  source : Nat := 0 -- SOURCE (R392)
  age : Nat := 0 -- SEQ of the Cone that latched it (R397)
  mem : List (Nat × Word) := [] -- words of the bank by byte offset (R398)
  deriving DecidableEq, Repr

/-- The Cone block beside its registers. -/
structure ConState where
  bank0 : SnapBank := {} -- bank 0 (R397)
  bank1 : SnapBank := {} -- bank 1 (R397)
  seq : Nat := 0 -- Cones since reset (R398)
  matchAt : Option (Nat × Nat) := none -- armed time match: seconds, ns (R395)
  matchPlant : Bool := false -- the armed match came from the manager's schedule or a CONE frame (R396)
  repeatAt : Option (Nat × Nat) := none -- manager: a CONE frame to be sent again (R396)
  faultBank : Nat := 0 -- bank to which SET.FAULT_SNAP belongs (R397)
  out : Bool := false -- CONE_OUT driven high (R393)
  records : Nat := 0 -- records taken since filling began (R399)
  skip : Nat := 0 -- sample starts until the next record (R399)
  trigWait : Bool := false -- a trigger waits for its trigger record (R400)
  postLeft : Nat := 0 -- records still to take after the trigger record (R400)
  capture : List (Nat × Word) := [] -- the capture buffer by word index (R399)
  deriving DecidableEq, Repr

/-- The HOST island's machine timer and interrupt controller beside their registers. -/
structure HostPorts where
  mtime : Nat := 0 -- MTIME: 10 MHz counts (R402); reset: 3
  claimed : List Nat := [] -- interrupt sources claimed and not completed (R409)
  deriving DecidableEq, Repr

end Sys2Proof.Machine
end

