-- ==== Sys2Proof/Machine/Hss.lean ====
section
/-!
DEFINITION. HSS signatures and public keys (RFC 8554, R338), and the regions of the flash that the boot table names (R337, R340).
-/

namespace Sys2Proof.Machine

open Sys2Proof

/-- `n` bytes of `v`, the most significant first. -/
def byteList (n v : Nat) : List Byte := (beBytes n v).map (BitVec.ofNat 8 ·)

/-- Height of the tree of an LMS type: LMS_SHA256_M32_H5 to H25. (PRESUMED, log entry 136.) -/
def lmsHeight (t : Nat) : Option Nat :=
  match t with
  | 5 => some 5 | 6 => some 10 | 7 => some 15 | 8 => some 20 | 9 => some 25
  | _ => none

/-- Number of 32-byte strings in a signature of an LM-OTS type: LMOTS_SHA256_N32_W1, W2 and W4. (PRESUMED, log entry 136.) -/
def otsStrings (t : Nat) : Option Nat :=
  match t with
  | 1 => some 265 | 2 => some 133 | 3 => some 67
  | _ => none

/-- LMS type and LM-OTS type are accepted (R338). -/
def typesAccepted (t : Nat × Nat) : Bool := (lmsHeight t.1).isSome && (otsStrings t.2).isSome

/-- Levels L that a public key names (R338). -/
def keyLevels (k : BitVec 480) : Nat := k.toNat / 2 ^ 448

/-- LMS and LM-OTS type of the top tree that a public key names (R338, RFC 8554). -/
def keyTypes (k : BitVec 480) : Nat × Nat := (k.toNat / 2 ^ 416 % 2 ^ 32, k.toNat / 2 ^ 384 % 2 ^ 32)

/-- A public key is of an accepted type: L of 1 or 2, and accepted types (R338). -/
def keyOk (k : BitVec 480) : Bool := (keyLevels k == 1 || keyLevels k == 2) && typesAccepted (keyTypes k)

/-- Length in bytes of one level of a signature: leaf number, LM-OTS signature, LMS type, path (RFC 8554). -/
def levelLen (t : Nat × Nat) : Nat := 4 + (4 + 32 + 32 * (otsStrings t.2).getD 0) + 4 + 32 * (lmsHeight t.1).getD 0

/-- Length in bytes of a signature: Nspk, its levels, and the public key of each level below the top (R346, RFC 8554). -/
def hssLen (g : HssSig) : Nat := 4 + (g.types.foldl (fun n t => n + levelLen t) 0) + 56 * (g.types.length - 1)

/-- A signature verifies for a message under a public key: key and signature are of accepted types and belong together, and it signs that
message (R338). (DESIGN CHOICE, log entry 130.) -/
def hssOk (k : BitVec 480) (m : Signed) (g : HssSig) : Bool :=
  keyOk k && g.types.length == keyLevels k && g.types.head? == some (keyTypes k) && g.types.all typesAccepted && g.key == k && g.covers == m

/-- The words of the DEV signature with index `q`: Nspk, the top tree's signature of the bottom tree, that tree's public key, and its
signature, each number most significant byte first (R342, R346, R347, RFC 8554). (DESIGN CHOICE, log entry 131.) -/
def signatureWord (q i : Nat) : Word :=
  let be := fun (n : Nat) => BitVec.ofNat 32 (leAt (beBytes 4 n) 0 4)
  if i = 0 then be 1
  else if i = 1 then be (q / 32768)
  else if i = 2 ∨ i = 629 ∨ i = 643 then be 3
  else if i = 547 then be 6
  else if i = 628 ∨ i = 1188 then be 7
  else if i = 642 then be (q % 32768)
  else if i < 642 then Config.treeWord (q / 32768) i
  else Config.devSignature q i

/-! ### The flash (R337, R340) -/

/-- Flash offsets of the four slots. -/
def slotOffsets (c : BootCopy) : List Nat := [c.fw.1, c.fw.2, c.glz.1, c.glz.2]

/-- A slot reaches from its offset to the next higher one, and at most `size` bytes. (DESIGN CHOICE, log entry 132.) -/
def slotRegion (c : BootCopy) (o size : Nat) : Nat × Nat :=
  (o, (slotOffsets c).foldl (fun e x => if o < x then min e x else e) (o + size))

/-- What firmware may not program: the boot table, the active firmware slot and the active Glaze slot (R340). -/
def barredRegions (c : BootCopy) : List (Nat × Nat) :=
  [(0, 0x2000), slotRegion c (if c.fwSlot = 0 then c.fw.1 else c.fw.2) 0x410000,
    slotRegion c (if c.glzSlot = 0 then c.glz.1 else c.glz.2) 0x210000]

/-- A command that programs or erases `n` bytes from `a` on addresses the boot table or an active slot (R340). -/
def flashBarred (c : BootCopy) (a n : Nat) : Bool :=
  (barredRegions c).any fun r => decide (0 < n) && decide (a < r.2) && decide (r.1 < a + n)

/-- Copy 0 of the boot table is the one in force: it has a valid CRC-32 and the higher sequence number, or the other is not valid (R337). -/
def firstInForce (t : BootCopy × BootCopy) : Bool := t.1.crcOk && (!t.2.crcOk || decide (t.2.seq ≤ t.1.seq))

/-- The copy of the boot table in force (R337). -/
def bootInForce (t : BootCopy × BootCopy) : BootCopy := if firstInForce t then t.1 else t.2

/-- The boot table with a new copy written over the older one (R340). -/
def bootWrite (t : BootCopy × BootCopy) (c : BootCopy) : BootCopy × BootCopy := if firstInForce t then (t.1, c) else (c, t.2)

end Sys2Proof.Machine
end

