-- ==== Sys2Proof/Float.lean ====
section
/-!
DEFINITION. The numbers of the Wheels: binary32 with round-to-nearest-even and flush to zero, Q31, and conversions
(04_wheel_instruction_set.md R84 to R87). Every result is computed exactly on integers and rounded once.
-/

namespace Sys2Proof

/-- A float32 as a number: NaN, an infinity, or a sign and a multiple of 2^-149. A subnormal is read as zero (R84). -/
inductive F32 where
  | nan
  | inf (neg : Bool)
  | fin (neg : Bool) (v : Nat)
  deriving DecidableEq, Repr

/-- The number a word spells as float32 (R84). -/
def F32.of (w : Word) : F32 :=
  let n := w.toNat
  let neg := n.testBit 31
  let e := n / 2 ^ 23 % 256
  let m := n % 2 ^ 23
  if e = 255 then (if m = 0 then .inf neg else .nan)
  else if e = 0 then .fin neg 0
  else .fin neg ((2 ^ 23 + m) * 2 ^ (e - 1))

/-- The quiet NaN of every NaN result (R84). -/
def qnan : Word := 0x7FC00000

/-- An infinity. -/
def finf (neg : Bool) : Word := if neg then 0xFF800000 else 0x7F800000

/-- A zero. -/
def fzero (neg : Bool) : Word := if neg then 0x80000000 else 0

/-- `num` divided by `den`, rounded to the nearest integer, halves to even. -/
def roundDiv (num den : Nat) : Nat :=
  let q := num / den
  let r := num % den
  if 2 * r > den ∨ (2 * r = den ∧ q % 2 = 1) then q + 1 else q

/-- The float32 nearest to num/den × 2^-149, halves to even; a result below the least normal number is zero (R84). -/
def froundRatio (neg : Bool) (num den : Nat) : Word :=
  let q := num / den
  let e := if q < 2 ^ 24 then 0 else q.log2 - 23
  let m := roundDiv num (den * 2 ^ e)
  let m' := if m = 2 ^ 24 then 2 ^ 23 else m
  let e' := if m = 2 ^ 24 then e + 1 else e
  if m' < 2 ^ 23 then fzero neg
  else if 254 ≤ e' then finf neg
  else BitVec.ofNat 32 (bitOf neg * 2 ^ 31 + (e' + 1) * 2 ^ 23 + (m' - 2 ^ 23))

/-- The sticky flags of R71 as bits of GETF's word. -/
def flagFV : Nat := 1
def flagFO : Nat := 2
def flagDZ : Nat := 4
def flagQS : Nat := 8
def flagISAT : Nat := 16
def flagBQF : Nat := 32
def flagMBF : Nat := 64
def flagSTALE : Nat := 128
def flagBREACH : Nat := 256

/-- A result with its flags: FV where it is NaN (R71). -/
def fres (w : Word) : Word × Nat := (w, if F32.of w = .nan then flagFV else 0)

/-- A rounded result of finite inputs with its flags: FO where it is infinite (R71). -/
def fresO (w : Word) : Word × Nat :=
  (w, match F32.of w with | .nan => flagFV | .inf _ => flagFO | .fin _ _ => 0)

/-- A signed integer as sign and magnitude; a zero is positive. -/
def fsumRound (num : Int) (den : Nat) (zneg : Bool) : Word :=
  if num = 0 then fzero zneg else froundRatio (decide (num < 0)) num.natAbs den

/-- A signed magnitude as an integer. -/
def sgnInt (neg : Bool) (v : Nat) : Int := if neg then -(v : Int) else v

/-- A + B (R84). -/
def fadd (a b : Word) : Word × Nat :=
  match F32.of a, F32.of b with
  | .nan, _ => fres qnan
  | _, .nan => fres qnan
  | .inf x, .inf y => if x = y then fres (finf x) else fres qnan
  | .inf x, .fin _ _ => fres (finf x)
  | .fin _ _, .inf y => fres (finf y)
  | .fin x v, .fin y u => fresO (fsumRound (sgnInt x v + sgnInt y u) 1 (x && y))

/-- The sign bit inverted. -/
def fneg (a : Word) : Word := a ^^^ 0x80000000

/-- The sign bit cleared. -/
def fabs (a : Word) : Word := a &&& 0x7FFFFFFF

/-- A − B (R84). -/
def fsub (a b : Word) : Word × Nat :=
  if F32.of b = .nan then fres qnan else fadd a (fneg b)

/-- A × B (R84). -/
def fmul (a b : Word) : Word × Nat :=
  match F32.of a, F32.of b with
  | .nan, _ => fres qnan
  | _, .nan => fres qnan
  | .inf x, .inf y => fres (finf (x != y))
  | .inf x, .fin y u => if u = 0 then fres qnan else fres (finf (x != y))
  | .fin x v, .inf y => if v = 0 then fres qnan else fres (finf (x != y))
  | .fin x v, .fin y u => if v * u = 0 then fres (fzero (x != y)) else fresO (froundRatio (x != y) (v * u) (2 ^ 149))

/-- A × B + C with one rounding (R84). -/
def ffma (a b c : Word) : Word × Nat :=
  match F32.of a, F32.of b, F32.of c with
  | .fin x v, .fin y u, .fin z t =>
    fresO (fsumRound (sgnInt (x != y) (v * u) + sgnInt z (t * 2 ^ 149)) (2 ^ 149) ((x != y) && z))
  | .fin _ _, .fin _ _, .inf z => fres (finf z)
  | .nan, _, _ => fres qnan
  | _, .nan, _ => fres qnan
  | _, _, .nan => fres qnan
  | _, _, .inf z =>
    match F32.of (fmul a b).1 with
    | .inf p => if p = z then fres (finf z) else fres qnan
    | _ => fres qnan
  | _, _, .fin _ _ => fres (fmul a b).1

/-- C − A × B with one rounding (R83, R84). -/
def ffms (a b c : Word) : Word × Nat :=
  if F32.of a = .nan then fres qnan else ffma (fneg a) b c

/-- A ÷ B (R84). -/
def fdiv (a b : Word) : Word × Nat :=
  match F32.of a, F32.of b with
  | .nan, _ => fres qnan
  | _, .nan => fres qnan
  | .inf _, .inf _ => fres qnan
  | .inf x, .fin y _ => fres (finf (x != y))
  | .fin x _, .inf y => fres (fzero (x != y))
  | .fin x v, .fin y u =>
    if u = 0 then (if v = 0 then fres qnan else (finf (x != y), flagDZ))
    else if v = 0 then fres (fzero (x != y)) else fresO (froundRatio (x != y) (v * 2 ^ 149) u)

/-- The integer square root of `n`, found bit by bit from bit `k` down, on top of the root `r` so far. -/
def isqrtFrom (n : Nat) (k : Nat) (r : Nat) : Nat :=
  match k with
  | 0 => r
  | j + 1 => isqrtFrom n j (if (r + 2 ^ j) * (r + 2 ^ j) ≤ n then r + 2 ^ j else r)

/-- The integer square root. -/
def isqrt (n : Nat) : Nat := isqrtFrom n (n.log2 / 2 + 1) 0

/-- √A (R84). -/
def fsqrt (a : Word) : Word × Nat :=
  match F32.of a with
  | .nan => fres qnan
  | .inf x => if x then fres qnan else fres (finf false)
  | .fin x v =>
    if v = 0 then fres (fzero x)
    else if x then fres qnan
    else
      let n := v * 2 ^ 149
      let r := isqrt n
      fres (froundRatio false (2 * r + (if r * r = n then 0 else 1)) 2)

/-- A total key of a number that is no NaN: −0 below +0. -/
def fkey (f : F32) : Int :=
  match f with
  | .nan => 0
  | .inf neg => if neg then -(2 ^ 300 : Int) else 2 ^ 300
  | .fin neg v => if neg then -(2 * (v : Int)) - 1 else 2 * (v : Int)

/-- A word with a subnormal value flushed to zero (R84). -/
def fflush (a : Word) : Word :=
  match F32.of a with
  | .nan => qnan
  | .inf x => finf x
  | .fin x v => if v = 0 then fzero x else a

/-- The smaller of A and B (R84). -/
def fmin (a b : Word) : Word × Nat :=
  match F32.of a, F32.of b with
  | .nan, .nan => fres qnan
  | .nan, _ => fres (fflush b)
  | _, .nan => fres (fflush a)
  | f, g => fres (if fkey f ≤ fkey g then fflush a else fflush b)

/-- The larger of A and B (R84). -/
def fmax (a b : Word) : Word × Nat :=
  match F32.of a, F32.of b with
  | .nan, .nan => fres qnan
  | .nan, _ => fres (fflush b)
  | _, .nan => fres (fflush a)
  | f, g => fres (if fkey f ≤ fkey g then fflush b else fflush a)


/-- A number is finite. -/
def F32.isFin : F32 → Bool
  | .fin _ _ => true
  | _ => false

/-- The order of two floats, −0 equal to +0; none where one is NaN (R79). -/
def fcmp (a b : Word) : Option Ordering :=
  let key := fun f : F32 => match f with
    | .nan => (0 : Int)
    | .inf neg => if neg then -(2 ^ 300 : Int) else 2 ^ 300
    | .fin neg v => sgnInt neg v
  match F32.of a, F32.of b with
  | .nan, _ => none
  | _, .nan => none
  | f, g => some (compare (key f) (key g))

/-- A is less than B as floats. -/
def flt (a b : Word) : Bool := fcmp a b == some .lt

/-- min(max(A, B), C); NaN in A returns B with FV (R84). With NaN in A and B greater than C the rule names both B and C: the model
returns C. (DESIGN CHOICE, log entry 86.) -/
def fclamp (a b c : Word) : Word × Nat :=
  if F32.of a = .nan then (fflush (if flt c b then c else b), flagFV)
  else fres (fmin (fmax a b).1 c).1

/-- An integer ratio rounded to the nearest integer, halves to even. -/
def roundInt (neg : Bool) (num den : Nat) : Int := sgnInt neg (roundDiv num den)

/-- An integer clipped to an interval, with the flag QS where it was clipped. -/
def clipQ (i lo hi : Int) : Int × Nat := if i < lo then (lo, flagQS) else if hi < i then (hi, flagQS) else (i, 0)

/-- A float times 2^k rounded to an integer and clipped: the conversions of R86. -/
def ftoInt (a : Word) (k : Nat) (lo hi : Int) : Word × Nat :=
  let out := fun (p : Int × Nat) => (BitVec.ofInt 32 p.1, p.2)
  match F32.of a with
  | .nan => (0, flagFV)
  | .inf neg => out (if neg then lo else hi, flagQS)
  | .fin neg v => out (clipQ (roundInt neg (v * 2 ^ k) (2 ^ 149)) lo hi)

/-- An integer over 2^k as float32 (R86). -/
def fofInt (i : Int) (k : Nat) : Word := fsumRound (i * 2 ^ 149) (2 ^ k) false

/-- Bounds of the integer formats. -/
def qMin : Int := -2147483648
def qMax : Int := 2147483647

/-- A Q31 or integer result clipped to its format (R85). -/
def qres (i : Int) : Word × Nat := let p := clipQ i qMin qMax; (BitVec.ofInt 32 p.1, p.2)

/-- sat(A + B) (R85). -/
def qadd (a b : Word) : Word × Nat := qres (a.toInt + b.toInt)

/-- sat(A − B) (R85). -/
def qsub (a b : Word) : Word × Nat := qres (a.toInt - b.toInt)

/-- The Q31 product, rounded with halves up (R85). -/
def qmul (a b : Word) : Word × Nat := qres ((a.toInt * b.toInt + 2 ^ 30) / 2 ^ 31)

/-- C + A × B with one rounding (R85). -/
def qmac (a b c : Word) : Word × Nat := qres ((c.toInt * 2 ^ 31 + a.toInt * b.toInt + 2 ^ 30) / 2 ^ 31)

/-- sat(|A|) (R85). -/
def qabs (a : Word) : Word × Nat := qres (a.toInt.natAbs : Int)

/-- Float as a decimal ratio: num / den rounded to float32. -/
def fratio (num : Int) (den : Nat) : Word := fsumRound (num * 2 ^ 149) den false

/-- The value of a finite float as an integer multiple of 2^-149; 0 for NaN and infinities. -/
def fval (a : Word) : Int :=
  match F32.of a with
  | .fin neg v => sgnInt neg v
  | _ => 0

/-- A multiple of 2^-149 rounded to float32. -/
def fofVal (i : Int) : Word := fsumRound i 1 false

end Sys2Proof
end

