-- ==== Sys2Proof/Machine/Cells.lean ====
section
/-!
DEFINITION. Sparse maps from an address to a word, in one canonical form: addresses strictly rising, no entry equal
to zero, and an unlisted address reads as zero. The register file and the system SRAM are such maps.
-/

namespace Sys2Proof.Machine

/-- The word at address `a`; an unlisted address reads as zero. (DESIGN CHOICE, log entry 5.) -/
def cellGet {w : Nat} (m : List (Nat × BitVec w)) (a : Nat) : BitVec w :=
  match m with
  | [] => 0
  | (b, v) :: t => if b = a then v else cellGet t a

/-- `m` without an entry at address `a`. -/
def cellErase {w : Nat} (m : List (Nat × BitVec w)) (a : Nat) : List (Nat × BitVec w) :=
  match m with
  | [] => []
  | (b, u) :: t => if b = a then cellErase t a else (b, u) :: cellErase t a

/-- `m` with an entry for `a` before the first one at a higher address. -/
def cellInsert {w : Nat} (m : List (Nat × BitVec w)) (a : Nat) (v : BitVec w) : List (Nat × BitVec w) :=
  match m with
  | [] => [(a, v)]
  | (b, u) :: t => if a < b then (a, v) :: (b, u) :: t else (b, u) :: cellInsert t a v

/-- `m` with `v` at `a`; writing zero removes the entry, so equal maps are equal lists. -/
def cellPut {w : Nat} (m : List (Nat × BitVec w)) (a : Nat) (v : BitVec w) : List (Nat × BitVec w) :=
  if v = 0 then cellErase m a else cellInsert (cellErase m a) a v

/-- Every address of `m` lies above `a`. -/
def cellsAbove {w : Nat} (a : Nat) (m : List (Nat × BitVec w)) : Bool :=
  match m with
  | [] => true
  | (b, _) :: _ => decide (a < b)

/-- The canonical form: addresses strictly rising and no entry zero. -/
def cellsWf {w : Nat} (m : List (Nat × BitVec w)) : Bool :=
  match m with
  | [] => true
  | (b, v) :: t => decide (v ≠ 0) && cellsAbove b t && cellsWf t

/-- `m` without the entries at addresses from `lo` up to but not at `hi`. -/
def cellClear {w : Nat} (m : List (Nat × BitVec w)) (lo hi : Nat) : List (Nat × BitVec w) :=
  match m with
  | [] => []
  | (b, v) :: t => if lo ≤ b ∧ b < hi then cellClear t lo hi else (b, v) :: cellClear t lo hi

end Sys2Proof.Machine
end

