-- ==== Sys2Proof/Machine/State.lean ====
section
/-!
DEFINITION. The state of the block as plain data, the faults and refusals, and the state right after reset.
-/

namespace Sys2Proof.Machine

open Sys2Proof

/-- The state of the block. -/
structure State where
  pending : List Instr := [] -- the commands that are waiting, first in first out (the model's queue)
  regs : List (Nat × DWord) := [] -- the registers: contents by address, unlisted is 0 (R1, R9, R406)
  slots : List (Nat × Word) := [] -- the signal plane S0 to S4095 as last published (R52)
  coef : List (Nat × Word) := [] -- coefficient banks: word i of bank b of Wheel w at (2 w + b) 1024 + i (R45)
  prog : List (Nat × DWord) := [] -- program stores: word i of Wheel w at 512 w + i (R45)
  sram : Ram := {} -- system SRAM (R402)
  held : List Held := [] -- accesses held during phase 0x5, in their order (R41)
  resp : Resp := {} -- what the last bus access answered (R402 to R404)
  free : Nat := 0 -- the model's own count of free values taken; reset: 6
  outbox : List OutUnit := [] -- units handed to lanes and pins since the last tick (R294)
  glz : GlzState := {} -- loader and firing
  fab : Fabric := {} -- mailbox of the Wheel fabric
  wheels : Vector Wheel 64 := Vector.replicate 64 {} -- W0 to W63
  groups : Vector Group 8 := Vector.replicate 8 {} -- RG0 to RG7
  gsus : Vector Gsu 4 := Vector.replicate 4 {} -- GSU0 to GSU3
  rts : Rts := {} -- the ride-through sequencer
  isl : IslUnit := {} -- the islanding unit
  dci : Dci := {} -- the DC input unit
  mod : ModState := {} -- modulators
  tiles : Vector Tile 9 := Vector.replicate 9 {} -- SET0 to SET8
  wins : Vector WinUnit 44 := Vector.replicate 44 {} -- WIN0 to WIN39, WX0 to WX3
  sit : SitState := {} -- the Sitter
  adcs : Vector AdcCore 18 := Vector.replicate 18 {} -- ADC0 to ADC15, GX0, GX1
  gx : Vector GxUse 2 := Vector.replicate 2 .free -- what GX0 and GX1 do (R381)
  met : MetState := {} -- the METER island
  clk : Vector Pll 7 := Vector.replicate 7 {} -- PLL0 to PLL6
  lanes : Vector LaneUnit 6 := Vector.replicate 6 {} -- LANE0 to LANE5
  wlk : Wlk := {} -- the plant protocol engine
  net : Net := {} -- the NET island
  sag : SagState := {} -- the Saggar
  pug : PugState := {} -- the Pug and the always-on island
  pwr : PwrState := {} -- power and resets
  grg : Grog := {} -- Grog
  con : ConState := {} -- the Cone
  ports : HostPorts := {} -- machine timer and interrupt controller
  deriving DecidableEq, Repr

/-- What stops the block without a rule for what follows. -/
inductive Fault where
  /-- VAUX outside the ratings of R367: "no behaviour is guaranteed". Raised by VAUX_HIGH above 60 V or longer than 100 ms.
  Safe: the model stops where the hardware may do anything. -/
  | outsideRatings
  deriving DecidableEq, Repr

/-- What the model does not answer. -/
inductive Refusal where
  /-- A command whose meaning is not written: raised by an arm of `exec` only. Safe: the model stops. -/
  | notModelled (mnemonic : String)
  deriving DecidableEq, Repr

/-- The block right after reset: every register at its reset value (R9 and the register tables), the islands held in reset
(R267), nothing loaded, nothing armed. (DESIGN CHOICE, log entries 3, 4.) -/
def State.reset : State := { regs := resetCells }

end Sys2Proof.Machine
end

