-- ==== Sys2Proof/Machine/Ops.lean ====
section
/-!
DEFINITION. The named operations every meaning is written over: register fields, saturating counters, free values,
islands, module time, the journal crossing, the Cone line, trip inputs, the block stop with its safe order, and the
plant stop.
-/

namespace Sys2Proof.Machine

open Sys2Proof

/-! ### One field of the state replaced -/

/-- The state with `regs` replaced. -/
def State.withRegs (s : State) (x : List (Nat × DWord)) : State := { s with regs := x }

/-- The state with `slots` replaced. -/
def State.withSlots (s : State) (x : List (Nat × Word)) : State := { s with slots := x }

/-- The state with `coef` replaced. -/
def State.withCoef (s : State) (x : List (Nat × Word)) : State := { s with coef := x }

/-- The state with `sram` replaced. -/
def State.withSram (s : State) (x : Ram) : State := { s with sram := x }

/-- The state with `held` replaced. -/
def State.withHeld (s : State) (x : List Held) : State := { s with held := x }

/-- The state with `resp` replaced. -/
def State.withResp (s : State) (x : Resp) : State := { s with resp := x }

/-- The state with `free` replaced. -/
def State.withFree (s : State) (x : Nat) : State := { s with free := x }

/-- The state with `outbox` replaced. -/
def State.withOutbox (s : State) (x : List OutUnit) : State := { s with outbox := x }

/-- The state with `glz` replaced. -/
def State.withGlz (s : State) (x : GlzState) : State := { s with glz := x }

/-- The state with `fab` replaced. -/
def State.withFab (s : State) (x : Fabric) : State := { s with fab := x }

/-- The state with `wheels` replaced. -/
def State.withWheels (s : State) (x : Vector Wheel 64) : State := { s with wheels := x }

/-- The state with `groups` replaced. -/
def State.withGroups (s : State) (x : Vector Group 8) : State := { s with groups := x }

/-- The state with `gsus` replaced. -/
def State.withGsus (s : State) (x : Vector Gsu 4) : State := { s with gsus := x }

/-- The state with `rts` replaced. -/
def State.withRts (s : State) (x : Rts) : State := { s with rts := x }

/-- The state with `isl` replaced. -/
def State.withIsl (s : State) (x : IslUnit) : State := { s with isl := x }

/-- The state with `dci` replaced. -/
def State.withDci (s : State) (x : Dci) : State := { s with dci := x }

/-- The state with `mod` replaced. -/
def State.withMod (s : State) (x : ModState) : State := { s with mod := x }

/-- The state with `tiles` replaced. -/
def State.withTiles (s : State) (x : Vector Tile 9) : State := { s with tiles := x }

/-- The state with `wins` replaced. -/
def State.withWins (s : State) (x : Vector WinUnit 44) : State := { s with wins := x }

/-- The state with `sit` replaced. -/
def State.withSit (s : State) (x : SitState) : State := { s with sit := x }

/-- The state with `adcs` replaced. -/
def State.withAdcs (s : State) (x : Vector AdcCore 18) : State := { s with adcs := x }

/-- The state with `gx` replaced. -/
def State.withGx (s : State) (x : Vector GxUse 2) : State := { s with gx := x }

/-- The state with `met` replaced. -/
def State.withMet (s : State) (x : MetState) : State := { s with met := x }

/-- The state with `clk` replaced. -/
def State.withClk (s : State) (x : Vector Pll 7) : State := { s with clk := x }

/-- The state with `lanes` replaced. -/
def State.withLanes (s : State) (x : Vector LaneUnit 6) : State := { s with lanes := x }

/-- The state with `wlk` replaced. -/
def State.withWlk (s : State) (x : Wlk) : State := { s with wlk := x }

/-- The state with `net` replaced. -/
def State.withNet (s : State) (x : Net) : State := { s with net := x }

/-- The state with `sag` replaced. -/
def State.withSag (s : State) (x : SagState) : State := { s with sag := x }

/-- The state with `pug` replaced. -/
def State.withPug (s : State) (x : PugState) : State := { s with pug := x }

/-- The state with `pwr` replaced. -/
def State.withPwr (s : State) (x : PwrState) : State := { s with pwr := x }

/-- The state with `grg` replaced. -/
def State.withGrg (s : State) (x : Grog) : State := { s with grg := x }

/-- The state with `con` replaced. -/
def State.withCon (s : State) (x : ConState) : State := { s with con := x }

/-- The state with `ports` replaced. -/
def State.withPorts (s : State) (x : HostPorts) : State := { s with ports := x }

/-! ### Register fields -/

/-- The field `f` of a 64-bit cell as a number. -/
def fieldGet (c : DWord) (f : Fld) : Nat := (c >>> f.lo).toNat % 2 ^ f.width

/-- A cell with the field `f` replaced by the low bits of `v`. -/
def fieldPut (c : DWord) (f : Fld) (v : Nat) : DWord :=
  (c &&& ~~~(BitVec.ofNat 64 ((2 ^ f.width - 1) * 2 ^ f.lo))) ||| BitVec.ofNat 64 ((v % 2 ^ f.width) * 2 ^ f.lo)

/-- The value a register field holds. -/
def State.get (s : State) (f : Fld) : Nat := fieldGet (cellGet s.regs f.addr) f

/-- The state with register field `f` holding `v` (cut to the field's width). -/
def State.put (s : State) (f : Fld) (v : Nat) : State :=
  { s with regs := cellPut s.regs f.addr (fieldPut (cellGet s.regs f.addr) f v) }

/-- A one-bit field, or a field that is not zero. -/
def State.bit (s : State) (f : Fld) : Bool := s.get f != 0

/-- A one-bit field set to `b`. -/
def State.putB (s : State) (f : Fld) (b : Bool) : State := s.put f (bitOf b)

/-- A counter field advanced by one that saturates at its largest value. (DEDUCED, log entry 82.) -/
def State.inc (s : State) (f : Fld) : State := if s.get f + 1 < 2 ^ f.width then s.put f (s.get f + 1) else s

/-- A counter field advanced by `n` that saturates at its largest value. -/
def State.addSat (s : State) (f : Fld) (n : Nat) : State := s.put f (min (s.get f + n) (2 ^ f.width - 1))

/-- A counter field advanced by one that wraps. -/
def State.incWrap (s : State) (f : Fld) : State := s.put f (s.get f + 1)

/-- The bits of `m` set in field `f`. -/
def State.orBits (s : State) (f : Fld) (m : Nat) : State := s.put f (s.get f ||| m)

/-- Bit `i` of a field. -/
def State.bitAt (s : State) (f : Fld) (i : Nat) : Bool := (s.get f).testBit i

/-- Bit `i` of field `f` set to `b`. -/
def State.putBit (s : State) (f : Fld) (i : Nat) (b : Bool) : State :=
  s.put f (if b then s.get f ||| 2 ^ i else (s.get f ||| 2 ^ i) - 2 ^ i)

/-- The float32 or 32-bit pattern a field holds. -/
def State.word (s : State) (f : Fld) : Word := BitVec.ofNat 32 (s.get f)

/-- The two's complement number of `w` bits that `v` spells. -/
def signed (w v : Nat) : Int := if v < 2 ^ (w - 1) then v else (v : Int) - 2 ^ w

/-- The `w`-bit two's complement pattern of `i`. -/
def unsigned (w : Nat) (i : Int) : Nat := (i % (2 ^ w : Int)).toNat

/-- The signed number a field holds. -/
def State.getI (s : State) (f : Fld) : Int := signed f.width (s.get f)

/-- A field set to a signed number. -/
def State.putI (s : State) (f : Fld) (i : Int) : State := s.put f (unsigned f.width i)

/-- `f` applied to the state for each element in turn. -/
def State.each {α : Type} (s : State) (l : List α) (f : α → State → State) : State := l.foldl (fun s a => f a s) s

/-- `f` applied if the condition holds, else the state as it is. -/
def State.when (s : State) (b : Bool) (f : State → State) : State := if b then f s else s

/-! ### The signal plane and free values -/

/-- The value published in slot `k` (R52). -/
def State.slot (s : State) (k : Nat) : Word := cellGet s.slots k

/-- The state with `v` published in slot `k` (R52). -/
def State.publish (s : State) (k : Nat) (v : Word) : State := s.withSlots (cellPut s.slots (k % 4096) v)

/-- Slot `k` takes `v` from a writer of owner kind `kind` and number `index` if that owns the slot; else the write is ignored and counted
(R52). No number is asked of WareLink. -/
def State.publishBy (s : State) (kind : Nat) (index : Option Nat) (k : Nat) (v : Word) : State :=
  if s.get (RGS_OWNER_KIND (k % 4096)) == kind && index.all (· == s.get (RGS_OWNER_INDEX (k % 4096))) then s.publish k v
  else s.inc RGS_SLOT_REFUSED_COUNT

/-- A free 32-bit value: nothing constrains it (the spec leaves it open). -/
def State.freeWord (s : State) : Word := Config.freeWord s.free

/-- The state after a free value has been taken, so that the next one is another. -/
def State.tookFree (s : State) : State := s.withFree (s.free + 1)

/-! ### System SRAM -/

/-- A byte offset in the staging region: the top 1 MiB of system SRAM (R35). -/
def inStaging (a : Nat) : Bool := decide (0x700000 ≤ a) && decide (a < 0x800000)

/-- The byte at offset `a`: in the staging region what a load left there, unless it has been written since (R35). -/
def Ram.get (m : Ram) (a : Nat) : Byte :=
  match m.left with
  | some n => if inStaging a && cellGet m.redone a == 0 then Config.stagedByte n (a - 0x700000) else cellGet m.cells a
  | none => cellGet m.cells a

/-- The SRAM with a byte written at offset `a`. -/
def Ram.put (m : Ram) (a : Nat) (v : Byte) : Ram :=
  { m with cells := cellPut m.cells a v, redone := if m.left.isSome && inStaging a then cellPut m.redone a 1 else m.redone }

/-- The canonical form of the SRAM: both of its maps have it. -/
def Ram.wf (m : Ram) : Bool := cellsWf m.cells && cellsWf m.redone

/-- `n` bytes from offset `a` as one little-endian number (R402). -/
def Ram.read (m : Ram) (a : Nat) (n : Nat) : Nat :=
  match n with
  | 0 => 0
  | k + 1 => (m.get a).toNat + 256 * m.read (a + 1) k

/-- The SRAM with the low `n` bytes of `v` stored little-endian from offset `a` (R402). -/
def Ram.write (m : Ram) (a : Nat) (n : Nat) (v : Nat) : Ram :=
  match n with
  | 0 => m
  | k + 1 => (m.put a (BitVec.ofNat 8 v)).write (a + 1) k (v / 256)

/-- The SRAM with bytes stored from offset `a`. -/
def Ram.store (m : Ram) (a : Nat) (bytes : List Byte) : Ram :=
  match bytes with
  | [] => m
  | b :: t => (m.put a b).store (a + 1) t

/-- The SRAM after a load has written the staging region: its bytes are the free value `n` (R35). -/
def Ram.staged (m : Ram) (n : Nat) : Ram := { cells := cellClear m.cells 0x700000 0x800000, left := some n, redone := [] }

/-! ### Responses, islands, phases -/

/-- The state after an access that answers `v`. -/
def State.respond (s : State) (v : Nat) : State := s.withResp (⟨BitVec.ofNat 64 v, false⟩)

/-- The state after an access that ends in a bus error (R402 to R404). -/
def State.busError (s : State) : State := s.withResp (⟨0, true⟩)

/-- An island out of reset (R267, R369, R339). The tiles' control sides run from their own oscillators. Each lane of the LANE island has
the clock of its own PLL (R12); the protocol engine and the plant registers, which the lanes share, are out of reset once either of
those two PLLs has locked. (DESIGN CHOICE, log entry 97.) -/
def State.up (s : State) (i : Isl) : Bool :=
  match i with
  | .host => s.pwr.hostUp
  | .wheel | .sense => s.clk[1].everLocked
  | .mod => s.clk[2].everLocked
  | .net => s.clk[3].everLocked
  | .meter => s.clk[4].everLocked
  | .lane => s.clk[5].everLocked || s.clk[6].everLocked
  | .serial l => if l.val < 3 then s.clk[5].everLocked else s.clk[6].everLocked
  | .saggar => s.pwr.saggarUp
  | .tile => true

/-- The HOST cores run: the HOST is released and not in standby (R339, R379). -/
def State.coresRun (s : State) : Bool := s.up .host && !s.bit PWR_STATUS_STANDBY

/-- The NET island runs: out of reset, with PLL3 on. Disabling PLL3 stops it (R269). Its registers still answer. (DESIGN CHOICE, log entry
124.) -/
def State.netRuns (s : State) : Bool := s.up .net && s.bit (CLK_PLL_STATUS_ON 3)

/-- SYS.STATE.PHASE. -/
def State.phase (s : State) : Nat := s.get SYS_STATE_PHASE

/-- A Glaze is in force and no firing runs: phase 0x3 or 0x4 (R21). -/
def State.fired (s : State) : Bool := s.phase == 3 || s.phase == 4

/-- Roles of SYS.ROLE (R18). -/
def State.isManager (s : State) : Bool := s.get SYS_ROLE_ROLE == 1

/-- Roles of SYS.ROLE (R18). -/
def State.isWorker (s : State) : Bool := s.get SYS_ROLE_ROLE == 2

/-- Topology class of the Glaze in force (R29, R31): 0 T3, 1 N3, 2 B2, 3 I2, 4 S2. -/
def State.topClass (s : State) : Nat :=
  match s.glz.active with
  | some g => g.image.cls
  | none => 0

/-! ### Accesses by firmware -/

/-- An access by the block's own firmware to a register of island `i` (R267, R268, R41): with the HOST in reset or its cores in standby no
firmware runs and nothing happens; an access to an island held in reset ends in a bus error; an access of a block that R41
names (`h` says which) waits in `held` during phase 0x5; otherwise it takes effect and completes. -/
def State.access (s : State) (i : Isl) (h : Option Held) (f : State → State) : State :=
  if !s.coresRun then s
  else if !s.up i then s.busError
  else
    match h with
    | none => (f s).respond 0
    | some x => if s.phase == 5 then (s.withHeld (s.held ++ [x])) else (f s).respond 0

/-- The same for an access that answers a value. -/
def State.accessV (s : State) (i : Isl) (h : Option Held) (f : State → State × Nat) : State :=
  if !s.coresRun then s
  else if !s.up i then s.busError
  else
    match h with
    | none => (f s).1.respond (f s).2
    | some x => if s.phase == 5 then (s.withHeld (s.held ++ [x])) else (f s).1.respond (f s).2

/-! ### Time and the journal -/

/-- The number of the multiple of PERIOD × 1.25 ns that the PTP time `ns` has reached last (R48). -/
def State.ptpMultiple (s : State) (k : Fin 8) (ns : Nat) : Nat := 4 * ns / (5 * s.get (RGS_RG_PERIOD_PERIOD k))

/-- PTP time is valid (R327). -/
def State.ptpValid (s : State) : Bool := s.bit NET_PTP_STATUS_VALID

/-- Module time in ns: PTP time when valid, otherwise the always-on clock (R257). -/
def State.moduleTime (s : State) : Nat :=
  if s.ptpValid then s.net.ptp.sec * 1000000000 + s.net.ptp.ns else s.pug.aonNs

/-- Entries that wait in the crossing into the METER island (R273). -/
def State.crossing (s : State) : Nat := s.met.jq.foldl (fun n r => n + 1 + r.cont.length) 0

/-- An entry is refused: JRNL_LOST counts it, and the next one committed carries LOSS (R259). -/
def State.journalLost (s : State) : State :=
  ((s.withMet { s.met with lossDue := true }).inc MET_JRNL_LOST_COUNT).put MET_EVENT_JRNL_LOST 1

/-- The crossing of the METER island does not hold a further record with `n` CONT entries in its 64 places (R259, R273). -/
def State.jrnlFull (s : State) (n : Nat) : Bool := s.met.entriesOpen && decide (64 < s.crossing + 1 + n)

/-- A journal record sent into the crossing of the METER island, which refuses it where its 64 places do not hold it (R258, R259, R273);
until that island accepts entries the Saggar holds up to eight, and a further one is refused: the next one to enter the crossing carries LOSS
(R355, R362, R376). (DESIGN CHOICE, log entry 83.) -/
def State.journalC (s : State) (typ detail payload : Nat) (cont : List Nat) : State :=
  let r : JRec := ⟨typ, detail, payload, cont, s.moduleTime, s.ptpValid, s.met.entriesOpen && s.sag.heldLoss⟩
  if s.jrnlFull cont.length then s.journalLost
  else if s.met.entriesOpen then (s.withMet { s.met with jq := s.met.jq ++ [r] }).withSag { s.sag with heldLoss := false }
  else if s.sag.held.length < 8 then s.withSag { s.sag with held := s.sag.held ++ [r] }
  else s.withSag { s.sag with heldLoss := true }

/-- A journal record without CONT entries (R258). -/
def State.journal (s : State) (typ detail payload : Nat) : State := s.journalC typ detail payload []

/-- Two 32-bit items of a PAYLOAD: the first in bytes 16 to 19, the second in bytes 20 to 23 (R258). -/
def payload2 (a b : Nat) : Nat := a % 2 ^ 32 + (b % 2 ^ 32) * 2 ^ 32

/-- A unit handed to the lanes or another output of the block; it leaves with the next tick. (DESIGN CHOICE, log entry 79.) -/
def State.send (s : State) (u : OutUnit) : State := s.withOutbox (s.outbox ++ [u])

/-- A frame for a lane: SRC is a worker's number or 0, OP the code of what the frame does, LEN counts its payload words (R294). -/
def State.frameOf (s : State) (lane : Nat) (h : FrameHeader) (does : Nat) (payload : List Nat) : OutUnit :=
  .frame lane { h with src := if s.isWorker then s.get SYS_ROLE_WORKER_NO else 0, op := Config.frameOp h.cls does, len := payload.length }
    payload

/-- A frame handed to a lane (R294). -/
def State.sendFrame (s : State) (lane : Nat) (h : FrameHeader) (does : Nat) (payload : List Nat) : State :=
  s.send (s.frameOf lane h does payload)

/-- A worker's upstream lane: LANE0; once reversed LANE1, or the ring lane of a tail, whose LANE1 is unused (R293, R317). -/
def State.upLane (s : State) : Fin 6 :=
  if !s.wlk.reversed then 0
  else if s.get (LANE_ROLE_ROLE 1) != 0 then 1
  else if s.get (LANE_ROLE_ROLE 2) == 3 then 2
  else if s.get (LANE_ROLE_ROLE 3) == 3 then 3
  else 1

/-- A worker's downstream lane. -/
def State.downLane (s : State) : Fin 6 := if s.wlk.reversed then 0 else 1

/-- A unit received downstream passes on unchanged (R297). -/
def State.passDown (s : State) : State := s.send (.pass s.downLane)

/-- A unit received from a worker below passes to the upstream lane (R297). -/
def State.passUp (s : State) : State := s.send (.pass s.upLane)

/-- A unit that a worker received on lane `l` passes on: down from its upstream lane, up from the other (R297). -/
def State.passFrom (s : State) (l : Fin 6) : State := if l == s.upLane then s.passDown else s.passUp

/-- The ring lanes of the Glaze in force, each with the chain whose far end it receives (R293). -/
def State.ringOf (s : State) : List (Nat × Nat) :=
  match s.glz.active with
  | some g => g.image.ringOf
  | none => []

/-- The lane by which the manager reaches a numbered worker, given with its chain and position: its chain's, or once the chain has reversed
above it the ring lane that the LINK section names (R293, R317). -/
def State.laneTo (s : State) (e : Nat × Nat × Nat) : Nat :=
  if s.bit (WLK_PRESULT_REVERSED (e.1 % 32)) then
    match s.ringOf.find? fun (r : Nat × Nat) => r.2 == e.2.1 with
    | some r => r.1
    | none => e.2.1
  else e.2.1

/-- The lanes by which a manager reaches workers: its chain lanes, and the ring lane of each reversed chain (R293, R317). -/
def State.plantLanes (s : State) : List Nat :=
  (List.range 6).filter fun l => s.get (LANE_ROLE_ROLE l) == 4 ||
    s.ringOf.any fun (r : Nat × Nat) => r.1 == l && decide (s.get WLK_PLANT_STATUS_RING / 2 ^ r.2 % 2 = 1)

/-- An ordered unit on every lane by which a manager reaches workers (R313, R316, R317). -/
def State.sendPlant (s : State) (k : UnitKind) (content : Nat) : State := s.each s.plantLanes fun l s => s.send (.unit k l content)

/-- An event falls `d` MOD cycles after the last one whose cycle is told; commands between which no time is told to pass fall in one MOD
cycle. (DESIGN CHOICE, log entry 103.) -/
def State.modLater (s : State) (d : Nat) : State :=
  s.withMod { s.mod with cyc := s.mod.cyc + d, sub := if d = 0 then s.mod.sub else 0 }

/-! ### Pairs, tiles and channels -/

/-- The pair `p` updated. -/
def State.onPair (s : State) (p : Fin 9) (f : Pair → Pair) : State :=
  s.withMod { s.mod with pairs := s.mod.pairs.set p (f s.mod.pairs[p]) }

/-- The tile `n` updated. -/
def State.onTile (s : State) (n : Fin 9) (f : Tile → Tile) : State :=
  s.withTiles (s.tiles.set n (f s.tiles[n]))

/-- Channel `c` of tile `n` updated. -/
def State.onChan (s : State) (n : Fin 9) (c : Fin 2) (f : Chan → Chan) : State :=
  s.onTile n fun t => { t with ch := t.ch.set c (f t.ch[c]) }

/-- Channel `c` of tile `n`. -/
def State.chan (s : State) (n : Fin 9) (c : Fin 2) : Chan := s.tiles[n].ch[c]

/-- Window comparator `n` updated. -/
def State.onWin (s : State) (n : Fin 44) (f : WinUnit → WinUnit) : State :=
  s.withWins (s.wins.set n (f s.wins[n]))

/-- The nine pairs or tiles. -/
def nine : List (Fin 9) := [0, 1, 2, 3, 4, 5, 6, 7, 8]

/-- The 18 channels as tile and channel. -/
def channels : List (Fin 9 × Fin 2) := nine.flatMap fun n => [(n, 0), (n, 1)]

/-- The tile that pair `p` is routed to (R30). -/
def State.tileOf (s : State) (p : Fin 9) : Option (Fin 9) :=
  if s.bit (MOD_ROUTE_USED p) then (if h : s.get (MOD_ROUTE_TILE p) < 9 then some ⟨s.get (MOD_ROUTE_TILE p), h⟩ else none)
  else none

/-- The pair routed to tile `n` (R30). -/
def State.pairOf (s : State) (n : Fin 9) : Option (Fin 9) := nine.find? fun p => s.tileOf p == some n

/-- The channel turns off through its normal sink; the clamp engages (R189). -/
def State.chanOff (s : State) (n : Fin 9) (c : Fin 2) : State :=
  ((s.put (SET_CH_STATUS_ON n c) 0).put (SET_CH_STATUS_CLAMP n c) 1).onChan n c
    fun x => { x with blanking := false, stopDue := false, wait := false }

/-- Soft turn-off starts (R198). -/
def State.chanSoftBegin (s : State) (n : Fin 9) (c : Fin 2) : State :=
  ((s.put (SET_CH_STATUS_ON n c) 0).put (SET_CH_STATUS_SOFTOFF_BUSY n c) 1).onChan n c
    fun x => { x with soft := .step1, blanking := false, stopDue := false }

/-- Soft turn-off starts if the channel is on and none runs (R198). -/
def State.chanSoftOff (s : State) (n : Fin 9) (c : Fin 2) : State :=
  if s.bit (SET_CH_STATUS_ON n c) && (s.chan n c).soft == .idle then s.chanSoftBegin n c else s

/-- No request of the channel stands any more: its pair is held off (R217). -/
def State.chanHush (s : State) (n : Fin 9) (c : Fin 2) : State :=
  s.onChan n c fun x => { x with req := false, wait := false, bootSkip := false }

/-- A channel turned off by a cycle trip: the normal sink, or soft turn-off with TRIP_SOFT = 1 (R198, R219). -/
def State.chanTrip (s : State) (n : Fin 9) (c : Fin 2) : State :=
  if s.bit (SET_CH_STATUS_ON n c) then
    if s.bit (SET_SOFTOFF_TRIP_SOFT n) then s.chanSoftOff n c else s.chanOff n c
  else s

/-- SET.FAULTS: bit 2n + c while channel c of tile n holds DESAT, SUPPLY_UV or BOOT_STOP. -/
def State.faults (s : State) : Nat :=
  channels.foldl (fun m (n, c) =>
    m + (if s.bit (SET_CH_STATUS_DESAT n c) || s.bit (SET_CH_STATUS_SUPPLY_UV n c) || s.bit (SET_CH_STATUS_BOOT_STOP n c)
      then 2 ^ (2 * n.val + c.val) else 0)) 0

/-- Some Setter is armed (SYS.STATE.ANY_ARMED). -/
def State.anyArmed (s : State) : Bool := nine.any fun n => s.bit (SET_STATUS_ARMED n)

/-- Channel B's gated output turns off at position `pos`: an on-interval of at least `tr` is noted (R182). -/
def Pair.endB (x : Pair) (pos tr : Nat) : Pair :=
  match x.bOnSince with
  | some q => { x with bOnSince := none, bSeen := x.bSeen || decide (q + tr ≤ pos) }
  | none => x

/-- T_R of pair `p` in edge steps (R182). -/
def State.refreshTime (s : State) (p : Fin 9) : Nat := 16 * s.get (MOD_REFRESH_TR p)

/-- Pair `p` is held off from now, with `f` saying by what: channel B's gated output ends (R182, R217). -/
def State.gatePair (s : State) (p : Fin 9) (f : Pair → Pair) : State :=
  s.onPair p fun x => f (x.endB (s.get (MOD_CNT_CNT p)) (s.refreshTime p))

/-- A tile disarmed: its channels hold the gate at VNEG with the clamp engaged and its pair is held (R25, R193). -/
def State.disarm (s : State) (n : Fin 9) : State :=
  let s1 := (s.put (SET_STATUS_ARMED n) 0).each [(0 : Fin 2), 1] fun c s =>
    ((s.when (s.bit (SET_CH_STATUS_ON n c)) (·.chanOff n c)).when
      (s.bit (SET_CH_STATUS_SUP_OK n c) && (s.chan n c).soft == .idle) (·.put (SET_CH_STATUS_CLAMP n c) 1)).chanHush n c
  match s1.pairOf n with
  | some p => s1.gatePair p fun x => { x with stopHold := true }
  | none => s1

/-! ### Trip inputs (R218, R220) -/

/-- The output of comparator `k` as the Sitter sees it: asserted or forced, unless a self-test disconnects it (R213, R215). -/
def State.winOut (s : State) (k : Fin 44) : Bool :=
  !s.wins[k].testing && (s.bit (WIN_STATUS_ASSERTED k) || s.bit (WIN_STATUS_FORCED k))

/-- The four spares WX0 to WX3. -/
def spares : List (Fin 44) := [40, 41, 42, 43]

/-- The Sitter line of trip unit `k`: its own output ORed with that of a spare that shadows or carries it (R216). -/
def State.unitLive (s : State) (k : Nat) : Bool :=
  if h : k < 44 then
    s.winOut ⟨k, h⟩ || spares.any fun x => s.wins[x].shadowOf == some k && s.winOut x
  else false

/-- The trip input of pair `p`: the OR of the units routed to it and the BOOT_UV trip request of its tile (R218). -/
def State.tripInput (s : State) (p : Fin 9) : Bool :=
  ((List.range 32).any fun k => s.bitAt (SIT_ROUTE_PAIRS k) p && s.unitLive k) ||
  (match s.tileOf p with
   | some n => s.tiles[n].bootTrip
   | none => false)

/-! ### Updates of the Wheels, groups and other units -/

/-- Wheel `w` updated. -/
def State.onWheel (s : State) (w : Fin 64) (f : Wheel → Wheel) : State :=
  s.withWheels (s.wheels.set w (f s.wheels[w]))

/-- Rate group `k` updated. -/
def State.onGroup (s : State) (k : Fin 8) (f : Group → Group) : State :=
  s.withGroups (s.groups.set k (f s.groups[k]))

/-- GSU `i` updated. -/
def State.onGsu (s : State) (i : Fin 4) (f : Gsu → Gsu) : State :=
  s.withGsus (s.gsus.set i (f s.gsus[i]))

/-- Converter core `n` updated. -/
def State.onAdc (s : State) (n : Fin 18) (f : AdcCore → AdcCore) : State :=
  s.withAdcs (s.adcs.set n (f s.adcs[n]))

/-- PLL `n` updated. -/
def State.onPll (s : State) (n : Fin 7) (f : Pll → Pll) : State :=
  s.withClk (s.clk.set n (f s.clk[n]))

/-- The eight rate groups. -/
def eight : List (Fin 8) := [0, 1, 2, 3, 4, 5, 6, 7]

/-- The 64 Wheels. -/
def sixtyFour : List (Fin 64) := List.finRange 64

/-- The Wheels of rate group `k` (R46). -/
def State.members (s : State) (k : Fin 8) : List (Fin 64) :=
  sixtyFour.filter fun w => s.wheels[w].decl.group == some k.val

/-- A group is enabled: it holds a Wheel and its source is not 0 (R50). -/
def State.enabled (s : State) (k : Fin 8) : Bool :=
  s.get (RGS_RG_CFG_SRC k) != 0 && sixtyFour.any fun w => s.wheels[w].decl.group == some k.val

/-- A step is eligible: no routed pair would run faster than its FMAX (R185). -/
def State.hopEligible (s : State) (st : Int) : Bool :=
  nine.all fun p => !s.bit (MOD_ROUTE_USED p) ||
    decide (s.get (MOD_FMAX_PMIN p) * (256 + st).toNat ≤ s.get (MOD_PERIOD_PERIOD p) * 256)

/-- The interval between triggers of group `k` as it runs, in 1/128 ns, as a fraction: PERIOD for sources 1 and 4; the pair's load points
at the step of `scale` − 256 (R185) for source 2, with `len` the pairs' periods; the group's that triggers it for source 3; the plant
period for source 5 (R48, R174). -/
def State.groupSpanOf (s : State) (len : Nat → Nat) (scale k fuel : Nat) : Nat × Nat :=
  let div := s.get (RGS_RG_CFG_DIV k) + 1
  let i := s.get (RGS_RG_CFG_SRC_INST k)
  match fuel with
  | 0 => (0, 1)
  | n + 1 =>
    match s.get (RGS_RG_CFG_SRC k) with
    | 2 => (1280 * len i * div, scale * (s.get (MOD_LOADPT_NLP i) + 1))
    | 3 => let e := s.groupSpanOf len scale i n; (e.1 * div, e.2)
    | 5 => (128000 * s.get WLK_PLANT_CFG_PPERIOD * div, 1)
    | _ => (160 * s.get (RGS_RG_PERIOD_PERIOD k), 1)

/-- The interval between triggers of group `k` now. -/
def State.groupSpan (s : State) (k : Nat) : Nat × Nat :=
  s.groupSpanOf (fun i => if h : i < 9 then s.mod.pairs[(⟨i, h⟩ : Fin 9)].periodNow else 0) (256 + s.getI MOD_HOP_STATUS_STEP).toNat k 9

/-- The interval of a unit that group `k` triggers every `div`th time, in 1/128 ns, as a fraction. -/
def State.unitSpan (s : State) (k div : Nat) : Nat × Nat := let e := s.groupSpan k; (div * e.1, e.2)

/-- Such an interval in seconds. -/
def spanSec (e : Nat × Nat) : Word := fratio (e.1 : Nat) (e.2 * 128000000000)

/-- How often such an interval goes into `ns` nanoseconds, to the nearest, at least once. -/
def spanCount (e : Nat × Nat) (ns : Nat) : Nat := max 1 (roundDiv (128 * ns * e.2) (max 1 e.1))

/-! ### Latched causes still active (R223) -/

/-- The causes of R223 whose condition holds now, as a mask of their bits. -/
def State.activeMask (s : State) : Nat :=
  let b := fun (i : Nat) (c : Bool) => if c then 2 ^ i else 0
  b 1 ((List.range 32).any fun k => s.bit (SIT_ROUTE_CLASS k) && s.unitLive k) +
  b 2 (nine.any fun p => s.tripInput p) +
  b 3 (channels.any fun (n, c) => s.bit (SET_CH_STATUS_DESAT n c)) +
  b 4 (channels.any fun (n, c) => s.bit (SET_CH_STATUS_SUPPLY_UV n c)) +
  b 5 (nine.any fun n => s.bit (SET_CH_STATUS_BOOT_STOP n 0)) +
  b 6 (nine.any fun n => s.bit (SET_STATUS_OT n)) +
  b 7 (eight.any fun k => s.get RGS_SUPV_K_MISS ≤ s.get (RGS_RG_STATUS_CONSEC k)) +
  b 8 (s.sit.plausSources.any fun (w, c) => sixtyFour.any fun v => v.val == w &&
    ([0, 1, 2, 3] : List (Fin 4)).any fun j => j.val == c && s.wheels[v].units.resid[j].breached) +
  b 9 (eight.any fun k => ([0, 1, 2, 3] : List (Fin 4)).any fun g =>
    s.get (RGS_GRD_CFG_STOP_N k g) != 0 && s.get (RGS_GRD_CFG_STOP_N k g) ≤ s.groups[k].grd[g]) +
  b 10 (s.isWorker && s.get RGS_SUPV_LINKLOSS ≤ s.wlk.linkMiss) +
  b 11 (s.bit RTS_STATE_TRIP_LATCH) +
  b 12 (s.bit ISL_MODE_DET) +
  b 14 ((List.range 6).any fun l => s.bit (DCI_LEG_CFG_WIN_STOP l) && s.bit (DCI_LEG_STATUS_OUT_WIN l)) +
  b 15 (s.bit PWR_STATUS_PF) +
  b 16 (s.glz.fireWait || s.phase == 5) +
  b 17 (s.bit SIT_STATUS_PLANT_IN)

/-- SIT.ACTIVE: latched causes still active (R223). -/
def State.activeCauses (s : State) : Nat := s.get SIT_CAUSE_CAUSE &&& s.activeMask

end Sys2Proof.Machine
end

