-- ==== Sys2Proof/Machine/View.lean ====
section
/-!
DEFINITION. What a register reads: the cell of the register file, or, for the registers whose contents are a view of other
state, that view. Also the windows onto memories (R45, R56, R67, R68, R398, R399, R403 to R406).
-/

namespace Sys2Proof.Machine

open Sys2Proof

/-! ### Spares (R381, R384) -/

/-- Spare `r` of a kind has been given to a resource by the repair map, or is retired itself; `first` is the physical number of the
kind's first spare (R381, R382). -/
def State.spareUsed (s : State) (kind first r : Nat) : Bool :=
  (s.grg.map ++ s.grg.pend).any fun e => e.kind == kind && (e.repl == some r || e.retired == first + r)

/-- A spare converter that is neither reserved nor placed. -/
def State.gxFree (s : State) (i : Fin 2) : Bool := s.gx[i] == .free && !s.spareUsed 1 16 i.val

/-- A spare comparator that is neither reserved nor placed. -/
def State.wxFree (s : State) (x : Nat) : Bool := !s.spareUsed 3 40 x

/-- A spare comparator that carries nothing and is not reserved (R216). -/
def State.grogSpareWin (s : State) (x : Fin 44) : Bool := s.wxFree (x.val - 40)

/-- How many replacements of a kind the map has placed or reserved. -/
def State.placed (s : State) (kind : Nat) : Nat :=
  ((s.grg.map ++ s.grg.pend).filter fun e => e.kind == kind && e.repl.isSome).length

/-- The spare segment of channel `c` of tile `n` is free. -/
def State.segFree (s : State) (n c : Nat) : Bool :=
  !(s.grg.map ++ s.grg.pend).any fun e => e.kind == 4 && e.retired == 2 * n + c && (e.repl.isSome || e.sub == 7)

/-- Free spares of a kind (R381): those neither reserved nor placed (R384). SRAM rows and columns are counted over the
module. -/
def State.sparesOf (s : State) (kind : Nat) : Nat :=
  match kind with
  | 0 => (List.range 4).countP fun r => !s.spareUsed 0 0 (64 + r)
  | 1 => ([0, 1] : List (Fin 2)).countP fun i => s.gxFree i
  | 2 => bitOf (!s.spareUsed 2 8 0)
  | 3 => spares.countP fun x => s.wxFree (x.val - 40) && s.wins[x].shadowOf.isNone
  | 4 => channels.countP fun (n, c) => s.segFree n c
  | 5 => 128 - s.placed 5
  | 6 => 64 - s.placed 6
  | 7 => 8 - s.placed 7
  | _ => 0

/-- GRG.SPARES (R384). -/
def State.sparesWord (s : State) : Nat :=
  let seg := channels.foldl (fun m (n, c) => m + (if s.segFree n c then 2 ^ (14 + 2 * n.val + c.val) else 0)) 0
  2 * s.sparesOf 0 + 2 ^ 4 * s.sparesOf 1 + 2 ^ 6 * s.sparesOf 2 + 2 ^ 7 * s.sparesOf 3 + 2 ^ 10 * s.sparesOf 7 + seg

/-! ### Gating as MODn.STATUS reads it -/

/-- A pair reads GATED in MODn.STATUS: stage 6 holds its outputs off (R217). -/
def State.pairGated (s : State) (p : Fin 9) : Bool :=
  let x := s.mod.pairs[p]
  x.stopHold || x.cycleTrip || x.hold

/-- A pair reads FORCED in MODn.STATUS: a force or EN = 0 is in effect (R183). -/
def State.pairForced (s : State) (p : Fin 9) : Bool := s.get (MOD_OVR_FORCE p) != 0 || !s.bit (MOD_CTRL_EN p)

/-! ### Phases that an arrangement does not have (R244) -/

/-- The arrangement has no phase `p`. -/
def phaseAbsent (arr p : Nat) : Bool := (arr == 1 && p == 1) || (arr == 2 && p == 2)

/-- A quantity of MET.VAL reads 0 under the arrangement, or is not measured over interval `i` (R244, R251). -/
def valZero (arr i q p : Nat) : Bool :=
  (phaseAbsent arr p && q != 14) || (q == 11 && p != 0) || (q == 14 && decide (2 ≤ p)) ||
    (q == 15 && (decide (i < 2) || p == 3)) || ((q == 16 || q == 17) && p == 3)

/-! ### The SAR (R232) -/

/-- The cycle that the running sample of core `n`'s group has reached, or the last one has: the latest in which one of its Wheels issues
next. (DESIGN CHOICE, log entry 109.) -/
def State.sampleNow (s : State) (n : Fin 18) : Nat :=
  (s.members (Fin.ofNat 8 (s.get (ADC_GROUP_RG n)))).foldl (fun m w => max m s.wheels[w].cyc) 0

/-- The SAR of core `n` is in its 12 SENSE cycles of bit trials at cycle `now` of the running sample: 75 ns, 60 WHEEL cycles (R232). -/
def State.sarBusy (s : State) (n : Fin 18) (now : Nat) : Bool :=
  s.bit (ADC_STATUS_BUSY n) && (s.adcs[n].conv.getLast?).any fun v => decide (now + v.old < v.since.getD 0 + 60)

/-! ### Derived registers -/

/-- Bits `p` for which `f` holds. -/
def maskOf {α : Type} (l : List α) (i : α → Nat) (f : α → Bool) : Nat :=
  l.foldl (fun m a => m + (if f a then 2 ^ i a else 0)) 0

/-- A cell with field `f` holding `v`, as a number. -/
def withField (c : DWord) (f : Fld) (v : Nat) : DWord := fieldPut c f v

/-- SYS.STATE (R21): the phase and its flags. -/
def State.sysState (s : State) : Nat :=
  s.phase + 2 ^ 8 * bitOf (nine.any fun p => s.mod.pairs[p].cycleTrip) + 2 ^ 9 * bitOf s.anyArmed +
    2 ^ 10 * s.get SIT_STATUS_BLOCK_STOP + 2 ^ 11 * bitOf (s.bitAt SIT_CAUSE_CAUSE 17)

/-- One word of the mailbox registers (R68). -/
def State.mboxWord (s : State) (hi : Bool) : Nat :=
  match s.fab.mbox with
  | [] => 0
  | (v, tag, w, rg) :: _ => if hi then tag + 2 ^ 23 * rg + 2 ^ 26 * w else v.toNat

/-- GRG.MAPe. -/
def State.mapWord (s : State) (e : Nat) : Nat :=
  match s.grg.map[e]? with
  | none => 0
  | some m => 2 ^ 31 + 2 ^ 30 * bitOf m.auto + 2 ^ 24 * m.kind + 2 ^ 16 * m.sub + 2 ^ 8 * m.retired +
      (match m.repl with | some r => r | none => 0xFF)

/-- GRG.PROPp. -/
def State.propWord (s : State) (p : Fin 8) : Nat :=
  match s.grg.props[p] with
  | none => 0
  | some m => 2 ^ 31 + 2 ^ 28 * m.reason + 2 ^ 24 * m.kind + 2 ^ 16 * m.sub + 2 ^ 8 * m.inst

/-- Proposals queued. -/
def State.propLevel (s : State) : Nat := eight.countP fun p => s.grg.props[p].isSome

/-- The pair whose register block holds address `a`, of the blocks at `base` with stride `stride`. -/
def instOf (a base stride : Nat) (h : 0 < 9) : Fin 9 := ⟨(a - base) / stride % 9, Nat.mod_lt _ h⟩

/-- A register of the RGS, WHL and other WHEEL blocks that is a view of other state. -/
def State.viewFabric (s : State) (a : Nat) (c : DWord) : DWord :=
  if a = 0x41C00010 then BitVec.ofNat 64 (s.mboxWord false)
  else if a = 0x41C00014 then BitVec.ofNat 64 (s.mboxWord true)
  else if a = 0x41C00018 then withField c RGS_MBOX_STAT_LEVEL s.fab.mbox.length
  else if 0x41C10000 ≤ a ∧ a < 0x41C14000 then BitVec.ofNat 64 (s.slot ((a - 0x41C10000) / 4)).toNat
  else if 0x41000000 ≤ a ∧ a < 0x41400000 then
    let w : Fin 64 := ⟨(a - 0x41000000) / 0x10000 % 64, Nat.mod_lt _ (by decide)⟩
    let o := (a - 0x41000000) % 0x10000
    if 0x40 ≤ o ∧ o < 0x50 then
      BitVec.ofNat 64 (s.wheels[w].units.integ[(⟨(o - 0x40) / 4 % 4, Nat.mod_lt _ (by decide)⟩ : Fin 4)]).st.toNat
    else if 0x4000 ≤ o ∧ o < 0x5000 then
      BitVec.ofNat 64 ((cellGet s.prog (512 * w.val + (o - 0x4000) / 8)).toNat / 2 ^ (32 * (o % 8 / 4)))
    else if 0x8000 ≤ o ∧ o < 0x9000 then BitVec.ofNat 64 (cellGet s.coef (2048 * w.val + (o - 0x8000) / 4)).toNat
    else if 0xC000 ≤ o ∧ o < 0xD000 then BitVec.ofNat 64 (cellGet s.coef (2048 * w.val + 1024 + (o - 0xC000) / 4)).toNat
    else c
  else c

/-- Source, flag register, its first flag bit, and enable register of each PLIC source (R409). -/
def plicSources : List (Nat × Nat × Nat × Nat) :=
  [(1, 0x40100038, 0, 0x4010003C), (2, 0x41C00020, 0, 0x41C00024), (3, 0x41C00034, 0, 0x41C00038)] ++
  ((List.range 4).map fun i => (4 + i, 0x42000030 + 0x1000 * i, 4, 0x42000034 + 0x1000 * i)) ++
  [(8, 0x42200108, 0, 0x4220010C), (9, 0x42300128, 0, 0x4230012C), (10, 0x43001060, 0, 0x43001064)] ++
  ((List.range 9).map fun i => (11 + i, 0x44000054 + 0x1000 * i, 0, 0x44000058 + 0x1000 * i)) ++
  [(20, 0x44800070, 0, 0x44800074), (21, 0x45002000, 0, 0x45002004), (22, 0x46002004, 0, 0x46002008), (23, 0x4700000C, 0, 0x47000010),
   (24, 0x48000004, 0, 0x48000008)] ++
  ((List.range 6).map fun i => (25 + i, 0x49000040 + 0x1000 * i, 0, 0x49000044 + 0x1000 * i)) ++
  [(31, 0x49008460, 0, 0x49008464), (32, 0x4A000040, 0, 0x4A000044), (33, 0x4A001060, 0, 0x4A001064), (34, 0x4A002060, 0, 0x4A002064),
   (35, 0x4B00000C, 0, 0x4B000010), (36, 0x4B800014, 0, 0x4B800018), (37, 0x4C00002C, 0, 0x4C000030), (38, 0x4D000020, 0, 0x4D000024),
   (39, 0x4E000030, 0, 0x4E000034), (40, 0x4A100014, 0, 0x4A100018), (41, 0x4A110014, 0, 0x4A110018)] ++
  ((List.range 4).map fun i => (42 + i, 0x4A200010 + 0x1000 * i, 0, 0x4A200014 + 0x1000 * i)) ++
  ((List.range 3).map fun i => (46 + i, 0x4A300010 + 0x1000 * i, 0, 0x4A300014 + 0x1000 * i)) ++
  ((List.range 2).map fun i => (49 + i, 0x4A400014 + 0x1000 * i, 0, 0x4A400018 + 0x1000 * i)) ++
  [(51, 0x40200014, 0, 0x40200018)]

/-- PLIC source `k` is asserted: an enabled flag of its block is set (R409). -/
def State.plicAsserted (s : State) (k : Nat) : Bool :=
  plicSources.any fun (e : Nat × Nat × Nat × Nat) => e.1 == k && (((cellGet s.regs e.2.1 >>> e.2.2.1) &&& cellGet s.regs e.2.2.2) != 0)

/-- Word `i` of SAG.RSP: a word the last response holds, a word of the signature it ends with, of GET_INFO's response or of the certificate, or
a free value (R346, R349). -/
def State.rspWord (s : State) (i : Nat) : Word :=
  match s.sag.rspFree with
  | some n => Config.responseWord n i
  | none =>
    match s.sag.rspInfo, s.sag.rspSig with
    | some (life, seen), _ => Config.infoWord life seen i
    | none, some q => if 49 ≤ i ∧ i < 1358 then signatureWord q (i - 49) else cellGet s.sag.rsp (4 * i)
    | none, none => if s.sag.rspCert then Config.certWord i else cellGet s.sag.rsp (4 * i)

/-- What the register at address `a` reads: its cell, or the view of other state that it is. -/
def State.view (s : State) (a : Nat) : DWord :=
  let c := cellGet s.regs a
  if a = 0x40000040 then BitVec.ofNat 64 s.sysState
  else if a = 0x40000020 then withField c SYS_ROLE_FIRED (bitOf s.fired)
  else if 0x41000000 ≤ a ∧ a < 0x42000000 then s.viewFabric a c
  else if 0x43000000 ≤ a ∧ a < 0x43000900 ∧ a % 0x100 = 0x28 then
    let p := instOf a 0x43000000 0x100 (by decide)
    let free := s.bit (MOD_CTRL_ALIGN p) && (s.get MOD_EPOCH_EPOCH == 0 || s.get (MOD_PERIOD_PERIOD p) == 0 ||
      s.get MOD_EPOCH_EPOCH % s.get (MOD_PERIOD_PERIOD p) != 0)
    withField (withField (withField c (MOD_STATUS_GATED p) (bitOf (s.pairGated p))) (MOD_STATUS_FORCED p) (bitOf (s.pairForced p)))
      (MOD_STATUS_UNALIGNABLE p) (bitOf free)
  else if 0x46000000 ≤ a ∧ a < 0x46001200 ∧ a = (ADC_STATUS_BUSY ((a - 0x46000000) / 0x100)).addr then
    let n : Fin 18 := Fin.ofNat 18 ((a - 0x46000000) / 0x100)
    withField c (ADC_STATUS_BUSY n) (bitOf (s.sarBusy n (s.sampleNow n)))
  else if a = 0x44009000 then BitVec.ofNat 64 s.faults
  else if a = 0x4480000C then BitVec.ofNat 64 s.activeCauses
  else if a = 0x44800020 then withField c ⟨0x44800020, 24, 16⟩ (maskOf nine (·.val) fun p => s.tripInput p)
  else if a = 0x44800024 then
    (if s.sit.trippedOnce then BitVec.ofNat 64 (maskOf (List.range 32) id fun k => s.unitLive k) else 0xFFFFFFFF)
  else if a = 0x4D000008 then
    withField (withField c GRG_STATUS_MAP_COUNT s.grg.map.length) GRG_STATUS_PROP_LEVEL s.propLevel
  else if a = 0x4D00000C then BitVec.ofNat 64 s.sparesWord
  else if 0x4D000040 ≤ a ∧ a < 0x4D000060 then
    BitVec.ofNat 64 (s.propWord ⟨(a - 0x4D000040) / 4 % 8, Nat.mod_lt _ (by decide)⟩)
  else if 0x4D001000 ≤ a ∧ a < 0x4D001400 then BitVec.ofNat 64 (s.mapWord ((a - 0x4D001000) / 4))
  else if 0x47000400 ≤ a ∧ a < 0x47000C00 then
    let o := a - 0x47000400
    (if valZero (s.get MET_CFG_ARR) (o / 0x200) (o % 0x200 / 0x10) (o % 0x10 / 4) then 0 else c)
  else if 0x47001000 ≤ a ∧ a < 0x47001200 then
    if phaseAbsent (s.get MET_CFG_ARR) ((a - 0x47001000) / 8 % 4) then 0
    else BitVec.ofNat 64 (s.met.accs.getD ((a - 0x47001000) / 8) 0 / 2 ^ 32)
  else if a = 0x47000008 then withField c MET_STATUS_TIME_VALID (bitOf s.ptpValid)
  else if a = 0x4A000004 then withField c NET_PTP_STATUS_FOLLOW (bitOf (s.isWorker && s.bit WLK_SYNC_CFG_PTP_FOLLOW))
  else if a = 0x4A000018 then BitVec.ofNat 64 s.net.ptp.ns
  else if 0x4E010000 ≤ a ∧ a < 0x4E020000 then BitVec.ofNat 64 (cellGet s.con.bank0.mem ((a - 0x4E010000) / 4 * 4)).toNat
  else if 0x4E020000 ≤ a ∧ a < 0x4E030000 then BitVec.ofNat 64 (cellGet s.con.bank1.mem ((a - 0x4E020000) / 4 * 4)).toNat
  else if 0x4E100000 ≤ a ∧ a < 0x4E300000 then BitVec.ofNat 64 (cellGet s.con.capture ((a - 0x4E100000) / 4)).toNat
  else if 0x4B003000 ≤ a ∧ a < 0x4B005000 then BitVec.ofNat 64 (s.rspWord ((a - 0x4B003000) / 4)).toNat
  else c

end Sys2Proof.Machine
end

