-- ==== Sys2Proof/Machine/Stop.lean ====
section
/-!
DEFINITION. The Cone line and its snapshots, the block stop with its safe order, and the plant stop, as every meaning
raises them (R223 to R227, R392 to R398).
-/

namespace Sys2Proof.Machine

open Sys2Proof

/-! ### The Cone (R392 to R400) -/

/-- The register words a snapshot holds: offset in the bank and register address (R398). -/
def snapMap : List (Nat × Nat) :=
  let run := fun (off : Nat) (as : List Nat) => (List.range as.length).zipWith (fun i a => (off + 4 * i, a)) as
  run 0x100 ([0x40000040, 0x40000020, 0x40100020, 0x44800008, 0x4480000C, 0x44800010, 0x44800020] ++
    (List.range 9).map fun n => 0x44800040 + 4 * n) ++
  run 0x400 (((List.range 8).flatMap fun k => [0x41C00114 + 0x40 * k, 0x41C00118 + 0x40 * k, 0x41C0011C + 0x40 * k, 0x41C00124 + 0x40 * k])
    ++ [0x41C00028]) ++
  run 0x800 (((List.range 9).flatMap fun n => [0x43000030 + 0x100 * n, 0x4300002C + 0x100 * n, 0x43000028 + 0x100 * n, 0x43000034 + 0x100 * n])
    ++ [0x43001014]) ++
  run 0x1000 (((List.range 9).flatMap fun n => [0x44000020 + 0x1000 * n, 0x44000030 + 0x1000 * n]) ++ [0x44009000, 0x44009004]) ++
  run 0x1400 (((List.range 44).map fun n => 0x45000010 + 0x40 * n) ++ (List.range 18).map fun n => 0x46000008 + 0x100 * n) ++
  run 0x1800 [0x42000030, 0x42001030, 0x42002030, 0x42003030] ++
  run 0x1830 [0x42100044, 0x42200104, 0x42200108, 0x42300124] ++
  run 0x1C00 [0x47000008, 0x47000068] ++
  run 0x2000 (((List.range 6).map fun n => 0x49000008 + 0x1000 * n) ++ [0x49008420, 0x4A000004] ++
    (List.range 7).map fun n => 0x48000108 + 0x20 * n)

/-- The words of a snapshot latched now with the given header words (R398). -/
def State.snapshot (s : State) (seq source detail : Nat) : List (Nat × Word) :=
  let put := fun (m : List (Nat × Word)) (e : Nat × Nat) => cellPut m e.1 (BitVec.ofNat 32 e.2)
  let header : List (Nat × Nat) := [(0, seq), (4, source), (8, detail), (0x10, s.net.ptp.sec), (0x14, s.net.ptp.sec / 2 ^ 32),
    (0x18, s.net.ptp.ns), (0x1C, s.net.ptp.frac * 1000 / 2 ^ 32), (0x20, s.mod.epochCnt)]
  let regs := snapMap.map fun (o, a) => (o, (s.view a).toNat)
  let gsu := [0, 1, 2, 3].flatMap fun (i : Fin 4) =>
    [(0x1810 + 8 * i.val, s.gsus[i].acc % 2 ^ 32), (0x1814 + 8 * i.val, s.gsus[i].acc / 2 ^ 32)]
  let met := (List.range 8).map fun c => (0x1C08 + 4 * c, unsigned 32 (s.met.last.getD c 0))
  let four : List (Fin 4) := [0, 1, 2, 3]
  let wheels := (List.finRange 64).flatMap fun w =>
    (four.map fun j => (0x4000 + 16 * w.val + 4 * j.val, s.wheels[w].units.integ[j].st.toNat)) ++
    (four.flatMap fun j => [(0x4400 + 32 * w.val + 8 * j.val, s.wheels[w].units.biq[j].w1.toNat),
      (0x4404 + 32 * w.val + 8 * j.val, s.wheels[w].units.biq[j].w2.toNat)])
  let plane := s.slots.map fun (k, v) => (0x8000 + 4 * k, v.toNat)
  (header ++ regs ++ gsu ++ met ++ wheels ++ plane).foldl put []

/-- The bank a Cone with the given sources takes: none where it is missed (R397). -/
def State.coneBank (s : State) (source : Nat) : Option Nat :=
  let stops := 0x82  -- BLOCK_STOP and FIRING
  if !s.bit CON_STATUS_HELD0 then some 0
  else if !s.bit CON_STATUS_HELD1 then some 1
  else if source &&& stops = 0 then none
  else
    let free0 := s.con.bank0.source &&& stops = 0
    let free1 := s.con.bank1.source &&& stops = 0
    if free0 && !free1 then some 0
    else if free1 && !free0 then some 1
    else if s.con.bank0.age ≤ s.con.bank1.age then some 0 else some 1

/-- The number of sources in a SOURCE mask. -/
def popCount (m : Nat) : Nat := (List.range 32).foldl (fun n i => n + (if m.testBit i then 1 else 0)) 0

/-- The Cone line is driven by the sources of mask `source` at one instant (R392 to R394, R397); `flags` holds the
header flags UNALIGNED and LATE_MATCH at their places. Two sources of one instant merge. -/
def State.cone (s : State) (source detail flags : Nat) : State :=
  match s.coneBank source with
  | none => (s.inc CON_STATUS_MISSED).put CON_INT_MISSED 1
  | some b =>
    let ovf := s.bit CON_STATUS_HELD0 && s.bit CON_STATUS_HELD1
    let seq := s.con.seq + 1
    let bank : SnapBank :=
      { source := source, age := seq,
        mem := s.snapshot seq (source + flags + (if popCount source > 1 then 0x100 else 0)) detail }
    let s1 := s.withCon { s.con with
      seq := seq, out := s.con.out || s.bit CON_CFG_OUT_EN,
      bank0 := if b = 0 then bank else s.con.bank0, bank1 := if b = 0 then s.con.bank1 else bank,
      faultBank := if source.testBit 1 then b else s.con.faultBank,
      trigWait := s.con.trigWait || (s.get CON_CAP_STATUS_STATE == 1 && (source &&& s.get CON_CFG_CAP_STOP) != 0) }
    let s2 := ((s1.put (if b = 0 then CON_STATUS_HELD0 else CON_STATUS_HELD1) 1).put CON_STATUS_LAST b).put CON_INT_LATCHED 1
    let s3 := s2.when (s.get CON_CAP_STATUS_STATE == 1 && (source &&& s.get CON_CFG_CAP_STOP) != 0) (·.put CON_CAP_STATUS_STATE 2)
    s3.when ovf fun s => (s.inc CON_STATUS_OVERWRITTEN).put CON_INT_MISSED 1

/-! ### Block stop and safe order (R223 to R225) -/

/-- The causes of a block stop by their bit in SIT.CAUSE (R223). -/
inductive Cause where
  | firmware | trip | tripPersist | desat | setterUv | bootUv | setterOt | missedDeadline | plausibility
  | stepLimit | linkLoss | rideThrough | islanding | modeTransfer | dcLimit | powerFail | firing | plantStop
  deriving DecidableEq, Repr

/-- The bit number of a cause (R223). -/
def Cause.bitNo : Cause → Nat
  | .firmware => 0 | .trip => 1 | .tripPersist => 2 | .desat => 3 | .setterUv => 4 | .bootUv => 5 | .setterOt => 6
  | .missedDeadline => 7 | .plausibility => 8 | .stepLimit => 9 | .linkLoss => 10 | .rideThrough => 11
  | .islanding => 12 | .modeTransfer => 13 | .dcLimit => 14 | .powerFail => 15 | .firing => 16 | .plantStop => 17

/-- The stage of the safe order in which channel `c` of pair `p` turns off in topology class `cls` (R225). -/
def stopStage (cls : Nat) (p : Fin 9) (c : Fin 2) : Nat :=
  if cls ≤ 1 ∧ p.val < 6 then (if (p.val + c.val) % 2 = 0 then 1 else 2)
  else (if c.val = 0 then 1 else 2)

/-- The pairs of the leg of pair `p` (R225): two pairs for a T3 or N3 phase, else the pair itself. -/
def legPairs (cls : Nat) (p : Fin 9) : List (Fin 9) :=
  if cls ≤ 1 ∧ p.val < 6 then nine.filter fun q => decide (q.val / 2 = p.val / 2) else [p]

/-- The leg of pair `p` is faulted: a channel of it holds DESAT or is in soft turn-off (R225). -/
def State.legFaulted (s : State) (p : Fin 9) : Bool :=
  (legPairs s.topClass p).any fun q =>
    match s.tileOf q with
    | some n => [(0 : Fin 2), 1].any fun c => s.bit (SET_CH_STATUS_DESAT n c) || (s.chan n c).soft != .idle
    | none => false

/-- Stage 1 of the safe order on channel `c` of pair `p` on tile `n`; a channel that is off stays off. One that sensed desaturation may
have found it before the order reached it (R197, R201, R225). -/
def State.stage1 (s : State) (faulted : Bool) (p n : Fin 9) (c : Fin 2) : State :=
  let off := fun (t : State) => t.onChan n c fun x => { x with cut := (s.chan n c).req && !(s.chan n c).blanking }
  if !s.bit (SET_CH_STATUS_ON n c) then s.chanHush n c
  else if faulted then off (s.chanSoftOff n c)
  else if stopStage s.topClass p c = 1 then off (s.chanOff n c)
  else s.onChan n c fun x => { x with stopDue := true }

/-- SET.FAULT_SNAP as it stands, in the snapshot of the block stop to which it belongs, while its bank still holds that (R201, R397). -/
def State.snapBank (s : State) : State :=
  let put := fun (b : SnapBank) =>
    if b.source.testBit 1 then { b with mem := cellPut b.mem 0x104C (BitVec.ofNat 32 (s.view 0x44009004).toNat) } else b
  if s.con.faultBank = 0 then s.withCon { s.con with bank0 := put s.con.bank0 } else s.withCon { s.con with bank1 := put s.con.bank1 }

/-- The safe order ends: every tile is disarmed (R225, R201). -/
def State.orderDone (s : State) : State :=
  ((s.put SIT_STATUS_SAFE_DONE 1).put SIT_STATUS_STAGE 3).put SET_FAULT_SNAP_COMPLETE 1

/-- The same, after the stop's snapshot has been latched. -/
def State.safeDone (s : State) : State := s.orderDone.snapBank

/-- Every pair gated and stage 1 of the safe order commanded (R225). -/
def State.safeOrder (s : State) : State :=
  let armed : List (Fin 9) := nine.filter fun (n : Fin 9) => s.bit (SET_STATUS_ARMED n)
  let s1 := s.each nine fun p s =>
    let s := s.gatePair p fun x => { x with stopHold := true }
    match s.tileOf p with
    | some n =>
      if armed.contains n then s.each [(0 : Fin 2), 1] fun c t => t.stage1 (s.legFaulted p) p n c
      else (s.chanHush n 0).chanHush n 1
    | none => s
  let s2 := s1.withSit { s1.sit with orderTiles := armed.map fun (n : Fin 9) => n.val }
  let s3 := (s2.put SIT_STATUS_STAGE 1).put SET_FAULT_SNAP_CH s.faults |>.put SET_FAULT_SNAP_COMPLETE 0
  if armed.isEmpty then s3.orderDone else s3

/-- A plant-stop cause other than the manager's own firing is active (R227); the MODE.DET of an islanding that a worker reported is that
worker's. (DEDUCED, log entry 44.) -/
def State.plantCause (s : State) : Bool :=
  s.sit.plantFw || (s.sit.plantIsl && (s.bit ISL_MODE_DET || !s.wlk.detected.isEmpty)) || (s.bit SIT_PLANT_OWN && s.bit SIT_STATUS_BLOCK_STOP) ||
  (List.range 32).any fun w => w != 0 && s.bitAt SIT_PLANT_WORKERS (w - 1) && s.wlk.stopped.contains w

/-- The manager asserts the plant stop if a cause is active and it is not yet asserted: PLANT_OUT sets and STOP goes
down every chain (R227, R316). -/
def State.plantRefresh (s : State) : State :=
  if !s.isManager then s
  else
    let other := s.plantCause
    if (other || s.glz.firePlantCause) && !s.bit SIT_STATUS_PLANT_OUT then
      ((s.withSit { s.sit with plantOnlyFiring := !other }).put SIT_STATUS_PLANT_OUT 1).sendPlant .stop 0
    else s

/-- The last record of a list replaced if it is a BLOCK_STOP entry. -/
def amendStop (f : JRec → JRec) (l : List JRec) : List JRec :=
  match l.reverse with
  | r :: t => if r.typ = 0x09 then (f r :: t).reverse else l
  | [] => l

/-- A further cause of the MOD cycle in which the stop was latched, of a lower bit than FIRST's: FIRST takes it, and with it the stop's
snapshot header and its journal entry that has not arrived yet (R224). -/
def State.firstLower (s : State) (c : Cause) (detail : Nat) : State :=
  let s1 := (s.put SIT_FIRST_DETAIL detail).put SIT_FIRST_CODE c.bitNo
  let word := (s1.view 0x44800010).toNat
  let fix := fun (r : JRec) => { r with
    detail := word % 2 ^ 16, payload := payload2 (s1.get SIT_CAUSE_CAUSE) (r.payload / 2 ^ 32) }
  let bank := fun (b : SnapBank) => if b.age = s.con.seq then { b with mem := cellPut b.mem 8 (BitVec.ofNat 32 word) } else b
  let s2 := s1.withCon { s1.con with bank0 := bank s1.con.bank0, bank1 := bank s1.con.bank1 }
  (s2.withMet { s2.met with jq := amendStop fix s2.met.jq }).withSag { s2.sag with held := amendStop fix s2.sag.held }

/-- A block-stop cause is latched (R223 to R225). With BLOCK_STOP 0 it is the first: FIRST records it, every pair is
gated, stage 1 of the safe order is commanded, the Cone is triggered with the further sources of mask `also`, and the
BLOCK_STOP entry is written (R258). With BLOCK_STOP 1 it is only added; one of the
same MOD cycle and a lower bit becomes FIRST (R224, R228). While the MOD island is held in reset nothing is
latched (R376). -/
def State.raiseStopAlso (s : State) (c : Cause) (detail also : Nat) : State :=
  if !s.up .mod then s
  else
    let s1 := s.orBits SIT_CAUSE_CAUSE (2 ^ c.bitNo)
    if s.bit SIT_STATUS_BLOCK_STOP then
      (s1.when (s.sit.firstAt == s.mod.cyc && decide (c.bitNo < s.get SIT_FIRST_CODE)) (·.firstLower c detail)).when (also != 0)
        (·.cone also 0 0)
    else
      let s2 := (((s1.put SIT_STATUS_BLOCK_STOP 1).put SIT_FIRST_VALID 1).put SIT_FIRST_DETAIL detail).put SIT_FIRST_CODE c.bitNo
      let s3 := (((s2.put SIT_INT_BLOCK_STOP 1).put SIT_STATUS_SAFE_DONE 0).withSit { s.sit with firstAt := s.mod.cyc }).safeOrder
      let s4 := s3.cone (2 ||| also) ((s3.view 0x44800010).toNat) 0
      let s5 := s4.journal 0x09 ((s4.view 0x44800010).toNat % 2 ^ 16) (payload2 (s4.get SIT_CAUSE_CAUSE) (s4.view 0x40000040).toNat)
      s5.plantRefresh

/-- A block-stop cause latched with no other Cone source at that instant (R223 to R225). (DEDUCED, log entries 51, 52.) -/
def State.raiseStop (s : State) (c : Cause) (detail : Nat) : State := s.raiseStopAlso c detail 0

/-- A channel fault joins SET.FAULT_SNAP while it collects (R201). -/
def State.snapFault (s : State) (n : Fin 9) (c : Fin 2) : State :=
  s.when (s.bit SIT_STATUS_BLOCK_STOP && !s.bit SET_FAULT_SNAP_COMPLETE)
    fun s => (s.orBits SET_FAULT_SNAP_CH (2 ^ (2 * n.val + c.val))).snapBank

/-- The pair `p` is cycle-tripped: its channels turn off, PAIR_STAT and INT.TRIP set (R220, R221). -/
def State.cutPair (s : State) (p : Fin 9) : State :=
  let s1 := ((s.putBit SIT_TRIP_PAIR_STAT p true).put SIT_INT_TRIP 1).gatePair p
    fun x => { x with cycleTrip := true, tripFirst := false }
  match s1.tileOf p with
  | some n => s1.each [(0 : Fin 2), 1] fun c s => (s.chanTrip n c).chanHush n c
  | none => s1

/-- The given pairs are cycle-tripped; the first trip of a pair since its restart triggers a Cone with ON_TRIP (R392). The
answer's second part is the Cone source mask that is due. -/
def State.cutPairs (s : State) (ps : List (Fin 9)) : State × Nat :=
  let first := ps.any fun p => s.mod.pairs[p].tripFirst
  (s.each ps fun p s => s.cutPair p, if first && s.bit CON_CTRL_ON_TRIP then 4 else 0)

/-- A Cone with the given source mask if it is not empty. -/
def State.coneIf (s : State) (source detail : Nat) : State := s.when (source != 0) (·.cone source detail 0)

end Sys2Proof.Machine
end

