-- ==== Sys2Proof/Machine/Cone.lean ====
section
/-!
DEFINITION. The Cone: triggers, time matches, plant-wide Cones, snapshot banks and waveform capture
(22_cone_snapshots_and_capture.md).
-/

namespace Sys2Proof.Machine

open Sys2Proof

/-- A PTP time in ns. -/
def nsOf (sec ns : Nat) : Nat := sec * 1000000000 + ns

/-- PTP time now in ns. -/
def State.ptpNs (s : State) : Nat := nsOf s.net.ptp.sec s.net.ptp.ns

/-- The SOURCE bits of R392. -/
def srcFirmware : Nat := 1
def srcTrip : Nat := 4
def srcWheel : Nat := 8
def srcPin : Nat := 16
def srcTime : Nat := 32
def srcPlant : Nat := 64
def srcFiring : Nat := 128

/-- Header flags of R398. -/
def flagUnaligned : Nat := 0x200
def flagLate : Nat := 0x400

/-- TRIG: CON.CTRL.TRIG triggers a Cone with source FIRMWARE (R392). -/
def execTrig (s : State) : Host.Outcome State Fault Refusal :=
  .next (s.access .host none fun s => s.cone srcFirmware 0 0)

/-- CONE_PIN: a rising edge at CONE_IN that stayed high for 20 ns triggers a Cone if PIN_EN is set (R392). -/
def execConePin (s : State) : Host.Outcome State Fault Refusal :=
  .next (s.when (s.bit CON_CFG_PIN_EN) (·.cone srcPin 0 0))

/-- No match is armed any more. -/
def State.disarmMatch (s : State) : State :=
  (s.withCon { s.con with matchAt := none, matchPlant := false }).put CON_STATUS_MATCH_ARMED 0

/-- A match armed at the given time. -/
def State.armMatch (s : State) (sec ns : Nat) (plant : Bool) : State :=
  (s.withCon { s.con with matchAt := some (sec, ns), matchPlant := plant }).put CON_STATUS_MATCH_ARMED 1

/-- TMATCH_ARM once it has reached its island. -/
def tmatchArmOp (s : State) : State :=
  let sec := s.get CON_TMATCH_SEC
  let ns := s.get CON_TMATCH_NS
  if nsOf sec ns ≤ s.ptpNs then s.disarmMatch.cone srcTime 0 flagLate else s.armMatch sec ns false

/-- TMATCH_ARM: arms the local match of CON.TMATCH, replacing an armed one; a time already past fires at once with
LATE_MATCH (R395). -/
def execTmatchArm (s : State) : Host.Outcome State Fault Refusal := .next (s.access .host none tmatchArmOp)

/-- TIME_MATCH: PTP time reaches the armed match; the Cone fires and the match disarms (R395, R396). A worker that is
not locked to the plant time base sets UNALIGNED. -/
def execTimeMatch (s : State) : Host.Outcome State Fault Refusal :=
  .next (match s.con.matchAt with
    | none => s
    | some _ =>
      let src := if s.con.matchPlant then srcPlant else srcTime
      let fl := if s.con.matchPlant && s.isWorker && !s.bit WLK_SYNC_STATUS_LOCKED then flagUnaligned else 0
      s.disarmMatch.cone src 0 fl)

/-- A CONE frame on every lane by which workers are reached (R396, R297, R317). -/
def State.sendCone (s : State) (sec ns : Nat) : State :=
  s.each s.plantLanes fun l s => s.sendFrame l { cls := 8, scope := 1 } 0 [sec, ns]

/-- PLANT_GO once it has reached its island. -/
def plantGoOp (s : State) : State :=
  let sec := s.get CON_TMATCH_SEC
  let ns := s.get CON_TMATCH_NS
  if s.isManager && s.ptpNs + 100000 ≤ nsOf sec ns then
    let s1 := (s.armMatch sec ns false).sendCone sec ns
    s1.withCon { s1.con with repeatAt := some (sec, ns) }
  else s.inc CON_STATUS_REFUSED

/-- PLANT_GO: a manager schedules a plant Cone at CON.TMATCH, at least 100 µs ahead, sends the CONE frame and arms its own
match; a closer time, or a block that is no manager, is refused and counted (R396). -/
def execPlantGo (s : State) : Host.Outcome State Fault Refusal := .next (s.access .host none plantGoOp)

/-- CONE_REPEAT: 50 µs before the scheduled time the manager sends the CONE frame again (R396). -/
def execConeRepeat (s : State) : Host.Outcome State Fault Refusal :=
  .next (match s.con.repeatAt with
    | none => s
    | some (sec, ns) => (s.withCon { s.con with repeatAt := none }).sendCone sec ns)

/-- CONE_FRAME: the frame passes on downstream (R18, R297); a numbered worker arms its match with the carried time; a copy of an armed time is ignored, a local
match is replaced and counted, a time already past is discarded and counted (R396). -/
def execConeFrame (crcOk : Bool) (time : Nat × Nat) (s : State) : Host.Outcome State Fault Refusal :=
  .next (
    if !s.up .lane || !s.isWorker then s
    else if !crcOk then s.passDown.inc (LANE_FRM_ERR_DISCARD s.upLane)
    else
      let s1 := s.passDown
      if s.get SYS_ROLE_WORKER_NO == 0 || s.con.matchAt == some time then s1
      else if nsOf time.1 time.2 < s.ptpNs then s1.inc CON_STATUS_LATE
      else (s1.when (s.con.matchAt.isSome && !s.con.matchPlant) (·.inc CON_STATUS_REPLACED)).armMatch time.1 time.2 true)

/-- FAULT_SNAP of bank `b` is still collecting (R397, R401). -/
def State.collecting (s : State) (b : Nat) : Bool :=
  s.con.faultBank == b && s.bit SIT_STATUS_BLOCK_STOP && !s.bit SET_FAULT_SNAP_COMPLETE

/-- A bank freed by firmware, or refused while its FAULT_SNAP still collects (R397, R401). -/
def State.releaseBank (s : State) (b : Nat) (held : Fld) : State :=
  if s.bit held && s.collecting b then s.inc CON_STATUS_REFUSED else s.put held 0

/-- RELEASE0 (R397). -/
def execRelease0 (s : State) : Host.Outcome State Fault Refusal :=
  .next (s.access .host none fun s => s.releaseBank 0 CON_STATUS_HELD0)

/-- RELEASE1 (R397). -/
def execRelease1 (s : State) : Host.Outcome State Fault Refusal :=
  .next (s.access .host none fun s => s.releaseBank 1 CON_STATUS_HELD1)

/-- Filling begins (R400). -/
def State.capFill (s : State) : State :=
  ((s.withCon { s.con with records := 0, skip := 0, trigWait := false, postLeft := 0 }).put CON_CAP_STATUS_STATE 1).put
    CON_CAP_STATUS_WRAPPED 0

/-- CAP_REARM once it has reached its island. -/
def capRearmOp (s : State) : State :=
  s.when (s.bit CON_CAP_CFG_EN) (·.capFill)

/-- CAP_REARM: capture restarts in the filling state while it is enabled (R400). -/
def execCapRearm (s : State) : Host.Outcome State Fault Refusal := .next (s.access .host none capRearmOp)

/-- CAP_EN_WRITE once it has reached its island. -/
def capEnWriteOp (v : Word) (s : State) : State :=
  let en := v.toNat.testBit 31
  let rg := (v.toNat / 2 ^ 28) % 8
  let dv := (v.toNat / 2 ^ 20) % 256
  let nslot := (v.toNat / 2 ^ 14) % 64
  if s.bit CON_CAP_CFG_EN then
    if en then s else (s.put CON_CAP_CFG_EN 0).put CON_CAP_STATUS_STATE 0
  else if en && (dv + 1) * s.get (RGS_RG_PERIOD_PERIOD rg) < 200 then s.inc CON_STATUS_REFUSED
  else
    let s1 := ((s.put CON_CAP_CFG_RG rg).put CON_CAP_CFG_DIV dv).put CON_CAP_CFG_NSLOT nslot
    if en then (s1.put CON_CAP_CFG_EN 1).capFill else s1

/-- CAP_EN_WRITE: a write of CON.CAP_CFG. Its fields take a value only while EN is 0; EN = 1 starts the capture unless
records would come more often than every 200 WHEEL cycles, which is refused and counted; EN = 0 stops it (R399). -/
def execCapEnWrite (v : Word) (s : State) : Host.Outcome State Fault Refusal := .next (s.access .host none (capEnWriteOp v))

/-- Words of one record: SAMPLES and the slots (R399). -/
def State.recordWords (s : State) : Nat := s.get CON_CAP_CFG_NSLOT + 2

/-- Records the buffer holds (R399). -/
def State.captureDepth (s : State) : Nat := 524288 / s.recordWords

/-- The slot in position `i` of a record (CON.CAP_SLOT). -/
def State.captureSlot (s : State) (i : Nat) : Nat :=
  if i % 2 = 0 then s.get (CON_CAP_SLOT_EVEN (i / 2)) else s.get (CON_CAP_SLOT_ODD (i / 2))

/-- The capture takes a record now: SAMPLES and the slots as this sample sees them (R399, R400). -/
def State.takeRecord (s : State) (k : Nat) : State :=
  let place := s.con.records % s.captureDepth
  let base := place * s.recordWords
  let m0 := cellPut s.con.capture base (s.word (RGS_RG_SAMPLES_COUNT k))
  let m := (List.range (s.recordWords - 1)).foldl (fun m i => cellPut m (base + 1 + i) (s.slot (s.captureSlot i))) m0
  let trig := s.con.trigWait
  let s1 := s.withCon { s.con with
    capture := m, records := s.con.records + 1, skip := s.get CON_CAP_CFG_DIV, trigWait := false,
    postLeft := if trig then s.get CON_CAP_POST_POST else s.con.postLeft - 1 }
  let s2 := s1.when trig (·.put CON_CAP_STATUS_TRIG_REC place)
  s2.when (s.con.records + 1 == s.captureDepth) (·.put CON_CAP_STATUS_WRAPPED 1)

/-- A capture in the post state has taken its POST records (R400). -/
def State.captureDone (s : State) : Bool :=
  s.get CON_CAP_STATUS_STATE == 2 && !s.con.trigWait && s.con.postLeft == 0

/-- A sample start of group `k` reaches the capture: every (DIV + 1)th one takes a record (R399). -/
def State.captureStart (s : State) (k : Nat) : State :=
  if s.bit CON_CAP_CFG_EN && s.fired && s.get CON_CAP_CFG_RG == k &&
      (s.get CON_CAP_STATUS_STATE == 1 || s.get CON_CAP_STATUS_STATE == 2) && !s.captureDone then
    if s.con.skip = 0 then s.takeRecord k else s.withCon { s.con with skip := s.con.skip - 1 }
  else s

/-- The capture freezes (R400). -/
def State.captureFreeze (s : State) : State := (s.put CON_CAP_STATUS_STATE 3).put CON_INT_FROZEN 1

/-- CAPTURE_FROZEN: the trigger record and POST more records have been taken (R400). -/
def execCaptureFrozen (s : State) : Host.Outcome State Fault Refusal :=
  .next (s.when s.captureDone (·.captureFreeze))

/-- The capture as phase 0x5 is entered: a running one freezes at once (R400). -/
def State.captureFiring (s : State) : State :=
  s.when (s.get CON_CAP_STATUS_STATE == 1 || s.get CON_CAP_STATUS_STATE == 2) (·.captureFreeze)

end Sys2Proof.Machine
end

