-- ==== Sys2Proof/Cordic.lean ====
section
/-!
DEFINITION. The CORDIC unit (04_wheel_instruction_set.md R88). The rule bounds the error of each result and fixes no value within
the bound, so a result is the free value that Config.cordic gives where it lies within the bound, else the value nearest to
the exact result.
-/

namespace Sys2Proof

/-- π times 2^96, to the nearest integer below. -/
def piQ96 : Int := 248902613312231085230521944622

/-- The series of the sine or cosine on fixed-point numbers of scale 2^96: `n` more terms after the term `t` of order `k`, with
x² = `xx`. -/
def seriesFrom (xx : Int) (n : Nat) (k : Int) (t : Int) : Int :=
  match n with
  | 0 => t
  | m + 1 => t + seriesFrom xx m (k + 2) (-(t * xx / 2 ^ 96) / ((k + 1) * (k + 2)))

/-- Cosine and sine of `q` π ÷ 2^31, each times 2^96, for |q| at most 2^29. -/
def cosSin0 (q : Int) : Int × Int :=
  let x := q * piQ96 / 2 ^ 31
  let xx := x * x / 2 ^ 96
  (seriesFrom xx 16 0 (2 ^ 96), seriesFrom xx 16 1 x)

/-- Cosine and sine of the Q31 angle `a` in fractions of π, each times 2^96 (R88). -/
def cosSin (a : Word) : Int × Int :=
  let t := a.toInt
  let quarter := (t + 2 ^ 29) / 2 ^ 30
  let p := cosSin0 (t - quarter * 2 ^ 30)
  match (quarter % 4).toNat with
  | 0 => p
  | 1 => (-p.2, p.1)
  | 2 => (-p.1, -p.2)
  | _ => (p.2, -p.1)

/-- A component of value n ÷ 2^96 in units of 2^-149, with error bound 2^-22 of a magnitude whose square is `mm`: the candidate
where it is finite and within the bound, else the nearest float. -/
def component (cand : Word) (n : Int) (mm : Int) : Word × Nat :=
  let near := fsumRound n (2 ^ 96) false
  let err := fval cand * 2 ^ 96 - n
  if (F32.of cand).isFin && (F32.of near).isFin && decide (err * err * 2 ^ 44 ≤ mm * 2 ^ 192) then (fflush cand, 0) else fresO near

/-- A float operand of the unit is infinite or NaN (R88). -/
def badOperand (a : Word) : Bool := !(F32.of a).isFin

/-- The two results of a rotation of (x, y) by the angle `a` with the flags (R88); `kind` tells the candidate of the
instruction. -/
def rotate (kind : Nat) (a x y : Word) : (Word × Word) × Nat :=
  if badOperand x || badOperand y then ((0, 0), flagFV)
  else
    let (c, s) := cosSin a
    let mm := fval x * fval x + fval y * fval y
    let r1 := component (Config.cordic kind a x y) (fval x * c - fval y * s) mm
    let r2 := component (Config.cordic (kind + 1) a x y) (fval x * s + fval y * c) mm
    ((r1.1, r2.1), r1.2 ||| r2.2)

/-- The largest Q31 angle up to 2^30 whose tangent does not exceed v ÷ u, found bit by bit from bit `k` down, on top of `a`. -/
def atanFrom (u v : Int) (k : Nat) (a : Nat) : Nat :=
  match k with
  | 0 => a
  | j + 1 =>
    let (c, s) := cosSin (BitVec.ofNat 32 (a + 2 ^ j))
    atanFrom u v j (if a + 2 ^ j ≤ 2 ^ 30 ∧ u * s ≤ v * c then a + 2 ^ j else a)

/-- atan2(y, x) as Q31 of π, to within one unit. -/
def atan2Q31 (x y : Int) : Word :=
  let a : Int := atanFrom x.natAbs y.natAbs 31 0
  let b := if x < 0 then 2 ^ 31 - a else a
  BitVec.ofInt 32 (if y < 0 then -b else b)

/-- The Q31 angle `a` lies within 1 µrad of the direction of (x, y): the sine of the difference is at most that of 1 µrad. -/
def angleNear (a : Word) (x y : Int) : Bool :=
  let (c, s) := cosSin a
  let cross := y * c - x * s
  decide (0 ≤ x * c + y * s) &&
    decide (cross * cross * 1000000000000000000 ^ 2 ≤ 999999999999 ^ 2 * (x * x + y * y) * 2 ^ 192)

/-- CVEC: magnitude and angle of (x, y) with the flags (R88). -/
def vectoring (x y : Word) : (Word × Word) × Nat :=
  if badOperand x || badOperand y then ((0, 0), flagFV)
  else
    let n := (fval x * fval x + fval y * fval y).toNat
    if n = 0 then ((0, 0), 0)
    else
      let r := isqrt (n * 2 ^ 64)
      let near := froundRatio false (2 * r + 1) (2 ^ 33)
      let c := Config.cordic 4 0 x y
      let cc := (fval c * fval c).toNat * 2 ^ 44
      let ok := (F32.of c).isFin && decide (0 ≤ fval c) && (F32.of near).isFin &&
        decide (n * (2 ^ 22 - 1) ^ 2 ≤ cc) && decide (cc ≤ n * (2 ^ 22 + 1) ^ 2)
      let m := if ok then (fflush c, 0) else fresO near
      let a := Config.cordic 5 0 x y
      ((m.1, if angleNear a (fval x) (fval y) then a else atan2Q31 (fval x) (fval y)), m.2)

end Sys2Proof
end

