-- ==== Sys2Proof/Machine/Grog.lean ====
section
/-!
DEFINITION. Grog: wear monitors, proposals, the repair map and diagnosis (21_grog_spares_and_wear.md).
-/

namespace Sys2Proof.Machine

open Sys2Proof

/-! ### Operations -/

/-- DETAIL of an entry that names a kind and an instance (R390). -/
def grogDetail (kind inst : Nat) : Nat := kind % 16 + 2 ^ 8 * (inst % 256)

/-- The resource is retired, or its retirement awaits the Saggar's commit (R382). -/
def State.retired (s : State) (kind inst sub : Nat) : Bool :=
  (s.grg.map ++ s.grg.pend).any fun e => e.kind == kind && e.retired == inst && e.sub == sub

/-- The proposal place that holds a resource (R387). -/
def State.proposedAt (s : State) (kind inst sub : Nat) : Option (Fin 8) :=
  eight.find? fun p => s.grg.props[p].any fun q => q.kind == kind && q.inst == inst && q.sub == sub

/-- The monitor that watches a kind for wear (R385). -/
def monOf (kind : Nat) : Nat := match kind with | 0 => 0 | 1 => 1 | 2 => 2 | 3 => 3 | 4 => 5 | _ => 6

/-- SUB as it names a resource of a kind: only segments, rows and columns have one (R381). -/
def subOf (kind sub : Nat) : Nat := if kind = 4 ∨ kind = 5 ∨ kind = 6 then sub else 0

/-- A resource is proposed for retirement (R387): once, and not again while dismissed; with all eight places full the
proposal is refused and PROP_LOST increments. -/
def State.propose (s : State) (mon kind inst sub reason : Nat) : State :=
  if kind ≥ 8 || s.retired kind inst sub || (s.grg.dismissed.any fun (e : Nat × Nat × Nat × Nat) => e.2 == (kind, inst, sub)) ||
      (s.proposedAt kind inst sub).isSome then s
  else
    match eight.find? fun p => s.grg.props[p].isNone with
    | none => (s.inc GRG_STATUS_PROP_LOST).journal 0x31 (grogDetail kind inst) 0xFF
    | some p =>
      let s1 := s.withGrg { s.grg with props := s.grg.props.set p (some ⟨kind, sub, inst, reason, mon⟩) }
      (s1.put GRG_INT_PROPOSAL 1).journal 0x31 (grogDetail kind inst) reason

/-- The physical converter that carries logical core `n`: its own, or GX0 or GX1 as 16 or 17 (R229). -/
def State.physAdc (s : State) (n : Nat) : Nat := if s.get (ADC_STATUS_CARRIER n) = 0 then n else 15 + s.get (ADC_STATUS_CARRIER n)

/-- The physical converter that is logical core `n`'s own apart from a live substitution for calibration (R238). -/
def State.homeAdc (s : State) (n : Fin 16) : Nat :=
  let x := s.adcs[n.castLE (by decide : 16 ≤ 18)]
  if x.calLive then (if x.home = 0 then n.val else 15 + x.home) else s.physAdc n

/-- The logical core whose conversions physical converter `ph` makes, apart from a live substitution (R238). -/
def State.coreOfPhys (s : State) (ph : Nat) : Option (Fin 16) := (List.finRange 16).find? fun n => s.homeAdc n == ph

/-- The spare that stands in for physical converter `ph` during its calibration (R238, R391). -/
def State.calSpare (s : State) (ph : Nat) : Option Nat :=
  match s.coreOfPhys ph with
  | some n => if s.gx[(0 : Fin 2)] == .cal n.val then some 0 else if s.gx[(1 : Fin 2)] == .cal n.val then some 1 else none
  | none => none

/-- The replacement that a new map entry takes: the free spare of its kind with the lowest number; where none is free, one that serves a
shadow, a calibration or a twin is reserved (R381, R384). A spare is no replacement for itself. (DEDUCED, log entry 114.) -/
def State.spareFor (s : State) (kind inst sub : Nat) : Option Nat :=
  let inBank := ((s.grg.map ++ s.grg.pend).filter fun e => e.kind == kind && e.retired == inst && e.repl.isSome).length
  match kind with
  | 0 => ([64, 65, 66, 67] : List Nat).find? fun r => !s.spareUsed 0 0 r && r != inst
  | 1 =>
    match (s.calSpare inst).filter fun r => !s.spareUsed 1 16 r with
    | some r => some r
    | none =>
      let two := ([0, 1] : List (Fin 2)).filter fun r => !s.spareUsed 1 16 r.val && 16 + r.val != inst
      ((two.find? fun r => s.gxFree r).or two.head?).map (·.val)
  | 2 => if s.spareUsed 2 8 0 || inst == 8 then none else some 0
  | 3 =>
    let four := spares.filter fun x => s.wxFree (x.val - 40) && x.val != inst
    ((four.find? fun x => s.wins[x].shadowOf.isNone).or four.head?).map fun x => x.val - 40
  | 4 => if s.segFree (inst / 2) (inst % 2) && sub != 7 then some 7 else none
  | 5 => if inBank < 4 then some inBank else none
  | 6 => if inBank < 2 then some inBank else none
  | 7 => if s.placed 7 < 8 then some (s.placed 7) else none
  | _ => none

/-- A map entry is handed to the Saggar, which commits it later (R382). -/
def State.mapRequest (s : State) (kind inst sub : Nat) (hard byFw : Bool) : State :=
  if s.retired kind inst sub then s
  else
    let e : MapEntry := ⟨kind, sub, inst, s.spareFor kind inst sub, hard, byFw⟩
    s.withGrg { s.grg with pend := s.grg.pend ++ [e] }

/-- A hard fault: with AUTO_HARD the map entry is added, else the resource is proposed (R382, R391). -/
def State.grogHard (s : State) (kind inst sub : Nat) : State :=
  if s.bit GRG_CFG_AUTO_HARD && s.grg.map.length + s.grg.pend.length < 256 then s.mapRequest kind inst sub true false
  else s.propose (monOf kind) kind inst sub 1

/-- A ferroelectric sector fails its write verification: a hard fault. The write is repeated in the spare sector that the map names for it;
it is lost where there is none (R335, R382, R383, R391). (DESIGN CHOICE, log entry 135.) -/
def State.sectorFails (s : State) (bad : Option (BitVec 8)) : State :=
  match bad with
  | some i => s.grogHard 7 i.toNat 0
  | none => s

/-- The write that met sector `bad` stands: the sector was good, or a spare has taken its place. -/
def State.sectorKept (s : State) (bad : Option (BitVec 8)) : Bool :=
  match bad with
  | none => true
  | some i => (s.grogHard 7 i.toNat 0).grg.pend.any fun e => e.kind == 7 && e.retired == i.toNat && e.repl.isSome

/-- The worst value of monitor `m` takes `v` if it is worse: smaller for the lane eye's margins, larger elsewhere (R385,
R389). -/
def State.grogWorst (s : State) (m : Fin 7) (inst : Nat) (v : Word) : State :=
  let old := s.word (GRG_MON_WORST m)
  let known := s.grg.worstOf.any fun e => e.1 == m.val
  let worse := if m = 4 then flt v old else flt (fabs old) (fabs v)
  if !known || worse then
    let s1 := s.put (GRG_MON_WORST m) v.toNat
    s1.withGrg { s1.grg with worstOf := (s1.grg.worstOf.filter fun e => e.1 != m.val) ++ [(m.val, inst)] }
  else s

/-- What a value of a monitor does to a resource: WARN once per crossing, a proposal at WORN, and below WARN the warning and a dismissal that
the same monitor's proposal met end; `key` tells the symbol error ratio from the margins (R385, R387). -/
def State.grogWarn (s : State) (m : Fin 7) (key kind inst sub : Nat) (v : Word) (warn worn : Bool) : State :=
  let r := (key, kind, inst, sub)
  if warn || worn then
    let s2 := if s.grg.warned.contains r then s else
      ((s.withGrg { s.grg with warned := s.grg.warned ++ [r] }).put GRG_INT_WARN 1).journal 0x30
        (kind % 16 + 2 ^ 4 * m.val + 2 ^ 8 * (inst % 256)) (payload2 v.toNat sub)
    s2.when worn (·.propose m.val kind inst sub 1)
  else
    s.withGrg { s.grg with
      warned := s.grg.warned.filter (· != r), dismissed := s.grg.dismissed.filter (· != r) }

/-- A monitor reports `v` for a resource (R385, R387). -/
def State.grogReport (s : State) (m : Fin 7) (kind inst sub : Nat) (v : Word) (warn worn : Bool) : State :=
  (s.grogWorst m inst v).grogWarn m m.val kind inst sub v warn worn

/-- The worst horizontal margin (`key` 7, smaller is worse) or symbol error ratio (8) takes a lane's value if it is worse (R385). -/
def State.grogEye (s : State) (key lane : Nat) (v : Word) : State :=
  let old := s.grg.eyeWorst.find? fun (e : Nat × Nat × Word) => e.1 == key
  if old.all fun e => if key = 7 then flt v e.2.2 else flt e.2.2 v then
    s.withGrg { s.grg with eyeWorst := (s.grg.eyeWorst.filter fun (e : Nat × Nat × Word) => e.1 != key) ++ [(key, lane, v)] }
  else s

/-- A corrected error of a memory resource: counted in windows of 24 h, WARN at 4 and WORN at 16 (R385). -/
def State.grogErr (s : State) (kind inst sub : Nat) : State :=
  let r := (kind, inst, sub)
  let win := s.moduleTime / 86400000000000
  let n := match s.grg.errs.find? fun e => e.1 == r with
    | some (_, w, n) => if w = win then n + 1 else 1
    | none => 1
  let s1 := s.withGrg { s.grg with errs := (s.grg.errs.filter fun (e : (Nat × Nat × Nat) × Nat × Nat) => !(e.1 == r)) ++ [(r, win, n)] }
  s1.grogReport 6 kind inst sub (fofInt n 0) (4 ≤ n) (16 ≤ n)

/-- A float is at least num/den. -/
def fge (v : Word) (num den : Nat) : Bool :=
  match F32.of v with
  | .nan => false
  | .inf neg => !neg
  | .fin neg x => !neg && decide (num * 2 ^ 149 ≤ x * den) || (num == 0 && x == 0)

/-- A segment of channel `c` of tile `n` measured: ratio of its on-resistance to the value at manufacture (R205, R385); one
found open or shorted is a hard fault. -/
def State.grogSegment (s : State) (n : Fin 9) (c : Fin 2) (k : Fin 8) (rds initial : Nat) (broken : Bool) : State :=
  if broken then s.grogHard 4 (2 * n.val + c.val) k.val
  else s.grogReport 5 4 (2 * n.val + c.val) k.val (fratio rds (max initial 1)) (13 * initial ≤ 10 * rds) (15 * initial ≤ 10 * rds)

/-- The offset a comparator's self-test found (R215, R385). -/
def State.grogWinDrift (s : State) (n : Fin 44) (ofs : Int) (pass : Bool) : State :=
  s.grogReport 3 3 n.val 0 (fofInt ofs 0) (decide (4 < ofs.natAbs)) (!pass)

/-- Logical core `n` is in use (R238). -/
def State.adcInUse (s : State) (n : Nat) : Bool :=
  s.fired && (s.get (ADC_GROUP_MODE n) == 2 ||
    (s.get (ADC_GROUP_MODE n) == 1 && s.get (RGS_RG_CFG_SRC (s.get (ADC_GROUP_RG n))) != 0))

/-- A spare converter that can serve now: it carries nothing, is not reserved and is not calibrating, GX0 first (R238, R240,
R384). -/
def State.takeGx (s : State) : Option (Fin 2) :=
  ([0, 1] : List (Fin 2)).find? fun i => s.gxFree i && s.get (ADC_STATUS_CAL_STATE (16 + i.val)) != 1

/-- A spare converter set to a use. -/
def State.setGx (s : State) (i : Fin 2) (u : GxUse) : State := s.withGx (s.gx.set i u)

/-- A diagnosis of a core and input starts, or is deferred where no spare is free (R386). -/
def State.diagBegin (s : State) (core ain : Nat) : State :=
  match s.takeGx with
  | some i =>
    ((s.setGx i (.twin core)).withGrg { s.grg with diag := some { core := core, ain := ain, gx := some i.val } }).put
      GRG_STATUS_DIAG_STATE 1
  | none => (s.withGrg { s.grg with diag := some { core := core, ain := ain } }).put GRG_STATUS_DIAG_STATE 2

/-- A diagnosis is wanted: it starts, or waits for the one under way to end (R386). (DEDUCED, log entry 114.) -/
def State.diagWanted (s : State) (core ain : Nat) : State :=
  if s.grg.diag.isNone then s.diagBegin core ain
  else if s.grg.flags.contains (core, ain) then s
  else s.withGrg { s.grg with flags := s.grg.flags ++ [(core, ain)] }

/-- The diagnosis that has waited longest starts. -/
def State.diagNext (s : State) : State :=
  match s.grg.flags with
  | (c, a) :: rest => (s.withGrg { s.grg with flags := rest }).diagBegin c a
  | [] => s

/-- A sensor flag passed on by the residual unit (R151, R386). -/
def State.grogFlag (s : State) (core ain : Nat) : State :=
  s.when (s.bit GRG_CFG_DIAG_AUTO) (·.diagWanted core ain)

/-! ### Commands of firmware (R388) -/

/-- A command refused (R388). -/
def State.grogRefuse (s : State) : State := (s.put GRG_STATUS_RESULT 2).inc GRG_REFUSED_COUNT

/-- The fields of GRG.CMD as the write leaves them. -/
def State.grogCmd (s : State) (op kind inst sub : Nat) : State :=
  (((s.put GRG_CMD_OP op).put GRG_CMD_KIND kind).put GRG_CMD_INSTANCE inst).put GRG_CMD_SUB sub

/-- The map holds or awaits 256 entries. -/
def State.mapFull (s : State) : Bool := 256 ≤ s.grg.map.length + s.grg.pend.length

/-- A command is refused whatever it asks: one runs, or the map holds 256 entries (R388). -/
def State.grogBars (s : State) : Bool := s.bit GRG_STATUS_BUSY || s.mapFull

/-- A command that runs on: BUSY until it ends (R388). -/
def State.grogRuns (s : State) (op : Nat) : State := (s.put GRG_STATUS_BUSY 1).withGrg { s.grg with runs := op }

/-- The command under way ends as done (R388). -/
def State.grogEnds (s : State) : State := ((s.put GRG_STATUS_BUSY 0).put GRG_STATUS_RESULT 1).withGrg { s.grg with runs := 0 }

/-- COMMIT once it has reached its island. -/
def commitOp (p : Fin 8) (s : State) : State :=
  let s0 := s.grogCmd 1 0 0 p.val
  match s.grg.props[p] with
  | none => s0.grogRefuse
  | some q =>
    if s.grogBars then s0.grogRefuse
    else
      let s1 := s0.withGrg { s0.grg with props := s0.grg.props.set p none }
      if s.retired q.kind q.inst q.sub then s1.put GRG_STATUS_RESULT 1
      else (s1.mapRequest q.kind q.inst q.sub false true).grogRuns 1

/-- COMMIT: a proposal becomes a map entry; one whose resource was retired meanwhile only leaves its place (R387, R388). (DEDUCED, log
entry 114.) -/
def execCommit (p : Fin 8) (s : State) : Host.Outcome State Fault Refusal := .next (s.access .host none (commitOp p))

/-- DISMISS once it has reached its island. -/
def dismissOp (p : Fin 8) (s : State) : State :=
  let s0 := s.grogCmd 2 0 0 p.val
  match s.grg.props[p] with
  | none => s0.grogRefuse
  | some q =>
    if s.grogBars then s0.grogRefuse
    else
      (s0.withGrg { s0.grg with
        props := s0.grg.props.set p none, dismissed := s0.grg.dismissed ++ [(q.mon, q.kind, q.inst, q.sub)] }).put GRG_STATUS_RESULT 1

/-- DISMISS: a proposal is removed; the resource is proposed again only after its monitor has fallen below WARN (R387, R388). -/
def execDismiss (p : Fin 8) (s : State) : Host.Outcome State Fault Refusal := .next (s.access .host none (dismissOp p))

/-- RETIRE once it has reached its island. -/
def retireOp (kind : Fin 16) (inst sub : BitVec 8) (s : State) : State :=
  let s0 := s.grogCmd 3 kind.val inst.toNat sub.toNat
  let u := subOf kind.val sub.toNat
  if 8 ≤ kind.val || s.retired kind.val inst.toNat u || s.grogBars then s0.grogRefuse
  else (s0.mapRequest kind.val inst.toNat u false true).grogRuns 3

/-- RETIRE: a map entry for a named resource, or a refusal (R388). -/
def execRetire (kind : Fin 16) (inst sub : BitVec 8) (s : State) : Host.Outcome State Fault Refusal := .next (s.access .host none (retireOp kind inst sub))

/-- DIAGNOSE once it has reached its island. -/
def diagnoseOp (n : Fin 16) (s : State) : State :=
  let s0 := s.grogCmd 4 0 n.val 0
  if !s.adcInUse n || s.grogBars then s0.grogRefuse
  else
    let s1 := s0.diagWanted n.val (s0.get RGS_SUSPECT_AIN)
    if s.grg.diag.isNone && s1.grg.diag.any (fun d => d.gx.isSome) then s1.grogRuns 4 else s1.put GRG_STATUS_RESULT 1

/-- DIAGNOSE: a diagnosis of a core in use with the input of the last flag; BUSY until the twin is placed or the diagnosis deferred, as it is
while another runs (R386, R388). (DEDUCED, log entry 114.) -/
def execDiagnose (n : Fin 16) (s : State) : Host.Outcome State Fault Refusal := .next (s.access .host none (diagnoseOp n))

/-! ### Events -/

/-- A map entry takes effect as its kind does live: a converter is taken over at the next sample boundary; the other kinds
wait for a firing or a reset (R383). -/
def State.mapEffect (s : State) (e : MapEntry) : State :=
  if e.kind = 1 then
    match s.coreOfPhys e.retired, e.repl with
    | some n, some r => s.onAdc (n.castLE (by decide)) fun x =>
        if x.calLive then { x with retire := true } else { x with taking := some r, retire := true }
    | _, _ => s
  else s

/-- A kind with one free spare or none left is reported (R390). -/
def State.sparesLow (s : State) (kind : Nat) : State :=
  if s.sparesOf kind ≤ 1 then (s.put GRG_INT_SPARES_LOW 1).journal 0x34 kind (s.sparesOf kind) else s

/-- MAP_ADD: the Saggar commits the oldest entry handed to it; the map changes and the entry takes effect as its kind does
(R382, R383, R390). -/
def execMapAdd (s : State) : Host.Outcome State Fault Refusal :=
  .next (
    match s.grg.pend with
    | [] => s
    | e :: rest =>
      let s1 := s.withGrg { s.grg with
        map := s.grg.map ++ [e], pend := rest, mapVersion := s.grg.mapVersion + 1 }
      let s2 := (s1.put GRG_INT_MAP_ADD 1).journal 0x32 (grogDetail e.kind e.retired)
        (payload2 (match e.repl with | some r => r | none => 0xFFFF) (bitOf (!e.byFw)))
      let s3 := (s2.mapEffect e).sparesLow e.kind
      s3.when e.byFw (·.grogEnds))

/-- DIAG_TWIN_PLACE: at the group's sample boundary the twin starts to sample alongside the core (R386). -/
def execDiagTwinPlace (s : State) : Host.Outcome State Fault Refusal :=
  .next (
    match s.grg.diag with
    | some d =>
      if d.gx.isSome && !d.placed then
        let s1 := s.withGrg { s.grg with diag := some { d with placed := true } }
        s1.when (s.grg.runs == 4) (·.grogEnds)
      else s
    | none => s)

/-- The spare that served as the twin is released. -/
def State.releaseTwin (s : State) (d : Diagnosis) : State :=
  match d.gx with
  | some g => s.when (s.gx[Fin.ofNat 2 g] == .twin d.core) (·.setGx (Fin.ofNat 2 g) .free)
  | none => s

/-- A CORE verdict: converter `ph` is proposed; with LIVE_AUTO Grog commits the proposal itself (R386). -/
def State.coreVerdict (s : State) (ph : Nat) : State :=
  let s1 := s.propose 1 1 ph 0 2
  if !(s.bit GRG_CFG_LIVE_AUTO) || s.mapFull then s1
  else
    match s1.proposedAt 1 ph 0 with
    | some p => (s1.withGrg { s1.grg with props := s1.grg.props.set p none }).mapRequest 1 ph 0 false false
    | none => s1

/-- DIAG_VERDICT: after 256 twin conversions, CORE if the mean difference exceeds 24 LSB or 16 consecutive differences
exceed 256 LSB, else SENSOR; a CORE verdict proposes the converter, and with LIVE_AUTO commits that proposal (R386). -/
def execDiagVerdict (mean : Nat) (burst : Bool) (s : State) : Host.Outcome State Fault Refusal :=
  .next (
    match s.grg.diag with
    | some d =>
      if d.placed then
        let core := burst || decide (24 < mean)
        let s1 := (s.releaseTwin d).withGrg { s.grg with diag := none }
        let s2 := ((s1.put GRG_STATUS_DIAG_STATE 3).put GRG_INT_DIAG_DONE 1).journal 0x33 (2 ^ 8 * d.core + d.ain)
          (payload2 (if core then 2 else 1) mean)
        (s2.when core (·.coreVerdict (s.physAdc d.core))).diagNext
      else s
    | none => s)

/-- DIAG_RETRY: a deferred diagnosis tries again for a free spare (R386). -/
def execDiagRetry (s : State) : Host.Outcome State Fault Refusal :=
  .next (
    match s.grg.diag with
    | some d => if d.gx.isNone then s.diagBegin d.core d.ain else s
    | none => s)

/-- WARN of the monitors whose values come as samples: frequency loss 3.0 %, gain 0.02 %, eye and error ratio, 1.3 ×, 4
errors (R385). -/
def monWarn (m : Fin 7) (v : Word) : Bool :=
  match m.val with
  | 0 => fge v 3 1 | 1 => fge (fabs v) 8 1 | 2 => fge (fabs v) 2 100 | 3 => fge (fabs v) 5 1 | 4 => false | 5 => fge v 13 10 | _ => fge v 4 1

/-- WORN of the same monitors (R385): a symbol error ratio must lie above 10^-5. -/
def monWorn (m : Fin 7) (v : Word) : Bool :=
  match m.val with
  | 0 => fge v 5 1 | 1 => fge (fabs v) 16 1 | 2 => fge (fabs v) 5 100 | 3 => fge (fabs v) 9 1
  | 4 => fge v 1 100000 | 5 => fge v 15 10 | _ => fge v 16 1

/-- WEAR_MONITOR_SAMPLE: a monitor takes its periodic sample; of a lane's eye this is the pre-FEC symbol error ratio over 1 h, its margins come
with EYE_MEASURE (R290, R385). -/
def execWearMonitorSample (m : Fin 7) (kind : Fin 10) (inst sub : BitVec 8) (v : Word) (s : State) :
    Host.Outcome State Fault Refusal :=
  .next (
    let u := subOf kind.val sub.toNat
    if m = 4 then (s.grogEye 8 inst.toNat v).grogWarn 4 8 kind.val inst.toNat u v (monWarn m v) (monWorn m v)
    else s.grogReport m kind.val inst.toNat u v (monWarn m v) (monWorn m v))

/-- A WEAR_SAMPLE record: GRG.SPARES, then a CONT entry per monitor with its worst value and the resource that holds it
(R389, R390). -/
def State.wearRecord (s : State) : State :=
  let cont := (List.range 7).map fun m =>
    payload2 (s.get (GRG_MON_WORST m)) (match s.grg.worstOf.find? fun e => e.1 == m with | some (_, i) => i | none => 0)
  (s.journalC 0x35 (s.grg.records % 2 ^ 16) s.sparesWord cont).withGrg { s.grg with records := s.grg.records + 1 }

/-- WEAR_SAMPLE: every 30 days of module time (R389). -/
def execWearSample (s : State) : Host.Outcome State Fault Refusal := .next s.wearRecord

/-- SRAM_ERROR: a corrected error of a system SRAM row or column is counted; an uncorrectable one is a hard fault (R382,
R385). -/
def execSramError (col : Bool) (bank : Fin 32) (i : BitVec 8) (hard : Bool) (s : State) : Host.Outcome State Fault Refusal :=
  .next (
    let kind := if col then 6 else 5
    if hard then s.grogHard kind bank.val i.toNat else s.grogErr kind bank.val i.toNat)

/-- The spare comparator that the repair map names for unit `n`, followed once more for a retired spare (R382, R383). -/
def State.placeWin (s : State) (n : Nat) : Option Nat :=
  let next := fun (ph : Nat) => (s.grg.map.find? fun e => e.kind == 3 && e.retired == ph).bind (·.repl)
  (next n).map fun r => (next (40 + r)).getD r

/-- The comparators and the metering channels that the repair map carries on spares, put in force by a firing: WINn.STATUS.SUBST and SPARE,
MET.STATUS.SPARE_IN_USE (R243, R383). WINn names the unit, whichever comparator carries it. (DEDUCED, log entry 114.) -/
def State.substitute (s : State) : State :=
  let s1 := s.each (List.finRange 40) fun n s =>
    match s.placeWin n with
    | some x => (s.put (WIN_STATUS_SUBST n) 1).put (WIN_STATUS_SPARE n) x
    | none => s.put (WIN_STATUS_SUBST n) 0
  s1.putB MET_STATUS_SPARE_IN_USE (s.grg.map.any fun e => e.kind == 2 && e.repl.isSome)

/-- A diagnosis that a firing meets is aborted: its twin is released, and a DIAGNOSE that still awaits the twin ends (R388, R391). (DEDUCED,
log entry 114.) -/
def State.diagAbort (s : State) : State :=
  match s.grg.diag with
  | some d =>
    let s1 := ((s.releaseTwin d).withGrg { s.grg with diag := none, flags := [] }).put GRG_STATUS_DIAG_STATE 4
    s1.when (s.grg.runs == 4) (·.grogEnds)
  | none => s

/-- Segment `k` of a channel, two to a tile, is open or shorted: found so, or retired for it (R205, R383). -/
def State.segBroken (s : State) (ch k : Nat) : Bool :=
  (s.chan (Fin.ofNat 9 (ch / 2)) (Fin.ofNat 2 (ch % 2))).openSeg.testBit k ||
    s.grg.map.any fun e => e.kind == 4 && e.retired == ch && e.sub == k && e.auto

/-- Grog as a firing puts a new Glaze in force: a running diagnosis is aborted; comparators, metering channels and worn segments with a
spare are replaced; the record of R389 is written (R383, R389, R391). -/
def State.grogFiring (s : State) : State :=
  let s1 := s.diagAbort.substitute
  let s2 := s1.each s1.grg.map fun e s =>
    if e.kind = 4 ∧ e.repl.isSome ∧ e.retired < 18 then
      let f := if e.retired % 2 = 0 then SET_SEG_USE_A (e.retired / 2) else SET_SEG_USE_B (e.retired / 2)
      (s.putBit f e.sub false).putBit f 7 (!s.segBroken e.retired 7)
    else s
  s2.wearRecord

end Sys2Proof.Machine
end

