-- ==== Sys2Proof/Machine/Adc.lean ====
section
/-!
DEFINITION. The control converters: start bits, urgent requests, fall-back, results, calibration (12_control_adcs.md).
-/

namespace Sys2Proof.Machine

open Sys2Proof

/-- A logical core as an index of the 18 register blocks. -/
def core18 (n : Fin 16) : Fin 18 := n.castLE (by decide)

/-- The modes of ADCn.GROUP.MODE (R231): 0 OFF, 1 GROUP, 2 CONT, 3 FW. -/
def State.adcMode (s : State) (n : Nat) : Nat := s.get (ADC_GROUP_MODE n)

/-- Core `n` begins conversion `v` at cycle `now`; one in its bit trials is given up (R232, R233). -/
def State.adcBegin (s : State) (n : Fin 18) (now : Nat) (v : Conv) : State :=
  let kept := if s.sarBusy n now then s.adcs[n].conv.dropLast else s.adcs[n].conv
  (s.onAdc n fun x => { x with conv := kept ++ [v] }).put (ADC_STATUS_BUSY n) 1

/-- A start bit in cycle `now` of its group's sample reaches core `n`: the conversion of the next start entry on capacitor S, abandoning
one on U that is busy and ending a fall-back; or the bit is lost because S is busy (R233, R236). The answer's second part is the slot of
the entry converted, none where the bit is ignored. -/
def State.startBit (s : State) (n : Fin 16) (now : Nat) : State × Option Nat :=
  let c := core18 n
  let busy := s.sarBusy c now
  if busy && (s.adcs[c].conv.getLast?).any (·.capS) then (s.inc (ADC_EVENTS_START_LOST n), none)
  else
    let e := s.get (ADC_STATUS_NEXT n)
    let s1 := (s.adcBegin c now ⟨e, true, false, some now, 0⟩).when busy (·.inc (ADC_EVENTS_ABANDONED n))
    let s2 := (s1.put (ADC_STATUS_FALLBACK n) 0).put (ADC_STATUS_NEXT n) ((e + 1) % (s.get (ADC_GROUP_NENT n) + 1))
    (s2, some (s.get (ADC_SEQ_SLOT n e)))

/-- A core listens to start bits of group `k`: mode GROUP with RG = k, in phase 0x3 or 0x4 (R58, R231). -/
def State.adcListens (s : State) (n : Fin 16) (k : Fin 8) : Bool :=
  s.fired && s.adcMode n == 1 && s.get (ADC_GROUP_RG n) == k.val

/-- An urgent request is dropped and counted (R235, R237, R240). -/
def State.urgDrop (s : State) (n : Fin 18) : State := (s.inc (ADC_URG_DROPS_COUNT n)).put ADC_INT_URG_DROP 1

/-- The converter of core `n` is disconnected from its inputs by a direct calibration (R237, R238). -/
def State.calDirect (s : State) (n : Fin 18) : Bool := s.get (ADC_STATUS_CAL_STATE n) == 1 && !s.adcs[n].calLive

/-- Core `n` is past its firing and not calibrating on its own converter, and converts back-to-back: it begins the conversion of the entry
then due (R231, R236, R237). With nothing to convert it is not busy. -/
def State.adcNext (s : State) (n : Fin 18) : State :=
  if s.fired && (s.bit (ADC_STATUS_FALLBACK n) || s.adcMode n == 2) && !s.calDirect n && n.val < 16 then
    let e := s.adcs[n].fbPtr % 8
    (s.onAdc n fun x => { x with fbPtr := (e + 1) % (s.get (ADC_GROUP_NENT n) + 1) }).adcBegin n (s.sampleNow n)
      ⟨e, false, false, some (s.sampleNow n), 0⟩
  else s.put (ADC_STATUS_BUSY n) 0

/-- An urgent request meets core `n`: it converts URG_ENTRY on capacitor U, or is dropped. `gap` says that it finds the SAR past its bit
trials, as in the tracking gap of back-to-back conversions (R235, R236). -/
def State.urgent (s : State) (n : Fin 18) (gap : Bool) : State :=
  let now := s.sampleNow n
  let s0 := s.when gap (·.put (ADC_STATUS_BUSY n) 0)
  if 16 ≤ n.val || !s.fired || s.adcMode n == 0 || s.calDirect n || s0.sarBusy n now then s0.urgDrop n
  else s0.adcBegin n now ⟨s.get (ADC_GROUP_URG_ENTRY n), false, true, some now, 0⟩

/-- ADC_START: ADCn.CTRL.START (R235). -/
def adcStartOp (n : Fin 18) (gap : Bool) (s : State) : State := s.urgent n gap

/-- ADC_START: firmware requests an urgent conversion (R235, R240). -/
def execAdcStart (n : Fin 18) (gap : Bool) (s : State) : Host.Outcome State Fault Refusal :=
  .next (s.access .sense (some (.adcStart n gap)) (adcStartOp n gap))

/-- The 16 logical cores. -/
def sixteen : List (Fin 16) := List.finRange 16

/-- Urgent requests that privileged unit `n` raises as its STATE changes to 0b01 or 0b11; `idle` names the cores that it finds past their
bit trials (R235, R236). -/
def State.adcUrgentFrom (s : State) (n : Fin 44) (idle : BitVec 16) : State :=
  let st := s.get (WIN_STATUS_STATE n)
  if st == 1 || st == 3 then
    s.each sixteen fun c s =>
      s.when (s.bit (ADC_GROUP_URG_EN c) && s.get (ADC_GROUP_URG_WIN c) + 32 == n.val) (·.urgent (core18 c) (idle.toNat.testBit c.val))
  else s

/-- num / den rounded to the nearest integer, halves to even. -/
def roundRat (num : Int) (den : Nat) : Int := roundInt (decide (num < 0)) num.natAbs den

/-- The corrected code of R237 before clipping, with the factors of physical converter `ph`. (DEDUCED, log entry 40.) -/
def State.adcCorrect (s : State) (ph raw : Nat) : Int :=
  let lin := fun (j : Nat) => s.getI (if j % 2 = 0 then ADC_CAL_LIN_LIN_LO ph (j / 2) else ADC_CAL_LIN_LIN_HI ph (j / 2))
  let sum := (List.range 8).foldl (fun (a : Int) j => a + (if raw.testBit (15 - j) then lin j else 0)) 0
  roundRat ((64 * (raw : Int) + sum - 4 * s.getI (ADC_CAL_OG_OFS ph)) * (2 ^ 20 + s.getI (ADC_CAL_OG_GAIN ph))) (2 ^ 26)

/-- A code in the format of an entry: bipolar sign-extended, unipolar zero-extended (R230). -/
def adcFormat (unipolar : Bool) (code : Nat) : Word :=
  if unipolar then BitVec.ofNat 32 code else BitVec.ofInt 32 ((code : Int) - 32768)

/-- The result that entry `e` of core `n` yields for a raw code: published in the entry's slot, clips counted, the fresh reads
that wait for it told (R52, R59, R230, R237). -/
def State.adcResult (s : State) (n : Fin 16) (e : Nat) (urgent : Bool) (raw : Nat) (ovf : Bool) : State :=
  let i := s.adcCorrect (s.physAdc n) raw
  let code := if i < 0 then 0 else min i.toNat 65535
  let clip := ovf || decide (i < 0) || decide (65535 < i)
  let s1 := (s.when clip (·.inc (ADC_EVENTS_CLIPS n))).publish (s.get (ADC_SEQ_SLOT n e)) (adcFormat (s.bit (ADC_SEQ_FMT n e)) code)
  s1.when urgent fun s => ((((s.put (ADC_URG_RESULT_NEW n) 1).put (ADC_URG_RESULT_ENTRY n) e).put
    (ADC_URG_RESULT_CODE n) code).put ADC_INT_URG_DONE 1)

/-- The start instruction of core `n` in cycle `cyc` of the running sample has its result (R59). -/
def State.startArrived (s : State) (n : Fin 16) (cyc : Nat) : State :=
  s.onGroup (Fin.ofNat 8 (s.get (ADC_GROUP_RG n))) fun g => { g with
    starts := g.starts.map fun r => if r.core = n.val ∧ r.slot.isSome ∧ r.cyc = cyc then { r with arrived := true } else r }

/-- CONVERSION_DONE: 100 ns after its sampling instant the result of core `n`'s oldest conversion is written: one started by a
start bit or an urgent request, or one of a fall-back or of CONT mode; back-to-back the next one then begins (R232 to R236). -/
def execConversionDone (n : Fin 16) (raw : BitVec 16) (ovf : Bool) (s : State) : Host.Outcome State Fault Refusal :=
  .next (
    let c := core18 n
    match s.adcs[c].conv with
    | v :: rest =>
      let s1 := (s.onAdc c fun x => { x with conv := rest }).adcResult n v.entry v.urgent raw.toNat ovf
      let s2 := match v.since with
        | some cyc => s1.when v.capS (·.startArrived n cyc)
        | none => s1
      if rest.isEmpty then s2.adcNext c else s2
    | [] => s)

/-- ADC_WATCHDOG: WDOG × 100 ns have passed since the core's last accepted start bit; it falls back, beginning with the entry
that the start pointer names (R236). -/
def execAdcWatchdog (n : Fin 16) (s : State) : Host.Outcome State Fault Refusal :=
  .next (
    if s.fired && s.up .sense && s.adcMode n == 1 && !s.bit (ADC_STATUS_FALLBACK n) then
      let s1 := s.onAdc (core18 n) fun x => { x with fbPtr := s.get (ADC_STATUS_NEXT n) }
      let s2 := ((s1.put (ADC_STATUS_FALLBACK n) 1).inc (ADC_EVENTS_FB_ENTRIES n)).put ADC_INT_FALLBACK 1
      if s.adcs[core18 n].conv.isEmpty then s2.adcNext (core18 n) else s2
    else s)

/-! ### Calibration (R237 to R240) -/

/-- A calibration is refused: CAL_STATE BUSY and INT.CAL_REFUSED (R238, R240). -/
def State.calRefuse (s : State) (n : Fin 18) : State := (s.put (ADC_STATUS_CAL_STATE n) 3).put ADC_INT_CAL_REFUSED 1

/-- A calibration runs on the converter itself, which leaves its inputs: a conversion in its bit trials ends without a result (R237, R238,
R240). -/
def State.calRun (s : State) (n : Fin 18) : State :=
  let kept := if s.bit (ADC_STATUS_BUSY n) then s.adcs[n].conv.dropLast else s.adcs[n].conv
  ((s.put (ADC_STATUS_CAL_STATE n) 1).put (ADC_STATUS_BUSY n) 0).onAdc n fun x =>
    { x with conv := kept, calLive := false, calEnded := false, calFail := false }

/-- CAL (R238 to R240). -/
def calOp (n : Fin 18) (s : State) : State :=
  if s.get (ADC_STATUS_CAL_STATE n) == 1 then s
  else if h : 16 ≤ n.val then
    (if s.gxFree ⟨n.val - 16, by omega⟩ then s.calRun n else s.calRefuse n)
  else if !s.adcInUse n then s.calRun n
  else
    match s.takeGx with
    | none => s.calRefuse n
    | some i =>
      ((s.put (ADC_STATUS_CAL_STATE n) 1).setGx i (.cal n.val)).onAdc n fun x =>
        { x with calLive := true, calEnded := false, calFail := false, home := s.get (ADC_STATUS_CARRIER n), taking := some i.val }

/-- CAL: ADCn.CTRL.CAL calibrates the converter that carries a core, directly or by live substitution, or a free spare
(R238, R240). -/
def execCal (n : Fin 18) (s : State) : Host.Outcome State Fault Refusal :=
  .next (s.access .sense (some (.cal n)) (calOp n))

/-- Core `n` is carried by converter `carrier` of STATUS.CARRIER from now on; a spare that carried it is released. -/
def State.carry (s : State) (n : Fin 16) (carrier : Fin 4) (free : Bool) : State :=
  let old := Fin.ofNat 4 (s.get (ADC_STATUS_CARRIER n))
  let s1 := s.when (old != 0) (·.put (ADC_STATUS_SERVES (15 + old.val)) 0x1F)
  let s2 := s1.when (old != 0 && free) fun s => if old = 1 then s.setGx 0 .free else s.setGx 1 .free
  (s2.put (ADC_STATUS_CARRIER n) carrier.val).when (carrier != 0) (·.put (ADC_STATUS_SERVES (15 + carrier.val)) n.val)

/-- CAL_TAKEOVER: at the group's sample boundary, or at once in fall-back or CONT mode, the chosen spare carries the core
(R238 steps 2 and 3, R383); a map entry whose spare serves a calibration or a twin, or is itself being calibrated, waits for
its end (R384). -/
def execCalTakeover (n : Fin 16) (s : State) : Host.Outcome State Fault Refusal :=
  .next (
    let c := core18 n
    match s.adcs[c].taking with
    | none => s
    | some g =>
      let live := s.adcs[c].calLive
      if !live && (s.gx[Fin.ofNat 2 g] != .free || s.get (ADC_STATUS_CAL_STATE (16 + g)) == 1) then s
      else
      let s1 := (s.onAdc c fun x => { x with taking := none, retire := x.retire && x.calLive }).carry n (Fin.ofNat 4 (g + 1)) (!live)
      s1.when (!live) fun s => if g = 0 then s.setGx 0 (.map n.val) else s.setGx 1 (.map n.val))

/-- A factor lies inside its 16-bit two's complement field. -/
def fits16 (i : Int) : Bool := decide (-32768 ≤ i) && decide (i ≤ 32767)

/-- Every factor of a calibration lies inside its field (R237). -/
def factorsOk (f : CalFactors) : Bool := fits16 f.ofs && fits16 f.gain && f.lin.toList.all fits16

/-- The factors written to physical converter `ph` (R237). -/
def State.putFactors (s : State) (ph : Fin 18) (f : CalFactors) : State :=
  ((s.putI (ADC_CAL_OG_OFS ph) f.ofs).putI (ADC_CAL_OG_GAIN ph) f.gain).each (List.finRange 8) fun j s =>
    s.putI (if j.val % 2 = 0 then ADC_CAL_LIN_LIN_LO ph (j.val / 2) else ADC_CAL_LIN_LIN_HI ph (j.val / 2)) f.lin[j]

/-- Converter drift passed to Grog: change of OFS and GAIN from the factory factors, WARN at 8 LSB or 0.05 %, WORN at 16 LSB,
0.10 % or a failed calibration (R237, R385). -/
def State.grogAdc (s : State) (ph : Fin 18) (f : CalFactors) (fail : Bool) : State :=
  let o := (f.ofs - s.adcs[ph].facOfs).natAbs
  let g := (f.gain - s.adcs[ph].facGain).natAbs
  s.grogReport 1 1 ph.val 0 (fratio o 16) (decide (128 ≤ o) || decide (2 ^ 20 ≤ 2000 * g)) (fail || decide (256 ≤ o) || decide (2 ^ 20 ≤ 1000 * g))

/-- The physical converter that core or spare `n` calibrates (R238, R240). -/
def State.calTarget (s : State) (n : Fin 18) : Fin 18 :=
  if h : n.val < 16 then Fin.ofNat 18 (s.homeAdc ⟨n.val, h⟩) else n

/-- CAL_COMPLETE: after 1.6 ms the factors are written if all fit, else the previous ones stay; a direct calibration reads DONE
or FAIL, a live one awaits its return (R237, R238, R240). -/
def execCalComplete (n : Fin 18) (f : CalFactors) (s : State) : Host.Outcome State Fault Refusal :=
  .next (
    if s.get (ADC_STATUS_CAL_STATE n) != 1 || s.adcs[n].calEnded || s.adcs[n].taking.isSome then s
    else
      let ph := s.calTarget n
      let s1 := (s.when (factorsOk f) (·.putFactors ph f)).grogAdc ph f (!factorsOk f)
      if s.adcs[n].calLive then s1.onAdc n fun x => { x with calEnded := true, calFail := !factorsOk f }
      else
        let s2 := (s1.put (ADC_STATUS_CAL_STATE n) (if (factorsOk f) then 2 else 5)).put ADC_INT_CAL_DONE 1
        if s.adcs[n].conv.isEmpty then s2.adcNext n else s2)

/-- CAL_RETURN: at the first sample boundary after its calibration the core's own converter takes it back and the spare is
released; with a retirement of that converter meanwhile the spare keeps the core (R238 step 5, R391). -/
def execCalReturn (n : Fin 16) (s : State) : Host.Outcome State Fault Refusal :=
  .next (
    let c := core18 n
    let x := s.adcs[c]
    if x.calLive && x.calEnded then
      let s1 := (s.onAdc c fun x => { x with calLive := false, calEnded := false, retire := false })
      let s2 := if x.retire then
          (if s.get (ADC_STATUS_CARRIER n) = 1 then s1.setGx 0 (.map n.val) else s1.setGx 1 (.map n.val))
        else s1.carry n (Fin.ofNat 4 x.home) true
      (s2.put (ADC_STATUS_CAL_STATE n) (if x.calFail then 5 else 2)).put ADC_INT_CAL_DONE 1
    else s)

/-- CAL_ALL (R239). -/
def calAllOp (s : State) : State :=
  if s.phase == 1 || s.phase == 2 then s.each (List.finRange 18) fun n s => s.calRun n else s.put ADC_INT_CAL_REFUSED 1

/-- CAL_ALL: ADC.CTRL.CAL_ALL calibrates all 18 converters, in phases 0x1 and 0x2 only (R239). -/
def execCalAll (s : State) : Host.Outcome State Fault Refusal := .next (s.access .sense (some .calAll) calAllOp)

/-! ### Firing -/

/-- The physical converter that a placement gives logical core `n`: its own, or the spare that the repair map names for it,
followed once more for a retired spare (R42, R382). -/
def State.placeAdc (s : State) (n : Nat) : Nat :=
  let next := fun (ph : Nat) => match s.grg.map.find? fun e => e.kind == 1 && e.retired == ph with
    | some e => (match e.repl with | some r => 16 + r | none => ph)
    | none => ph
  next (next n)

/-- A calibration as a firing meets it: aborted with its factors kept, or, with its new factors written and only the return awaited,
done (R42, R242). (DEDUCED, log entry 110.) -/
def State.calFiring (s : State) (n : Fin 18) : State :=
  if s.get (ADC_STATUS_CAL_STATE n) != 1 then s
  else if s.adcs[n].calEnded then (s.put (ADC_STATUS_CAL_STATE n) (if s.adcs[n].calFail then 5 else 2)).put ADC_INT_CAL_DONE 1
  else s.put (ADC_STATUS_CAL_STATE n) 4

/-- The converters as a firing puts a new Glaze in force: calibrations aborted with their factors kept, spares released,
pointers at entry 0, cores placed by the repair map (R42, R231, R239, R242). -/
def State.adcFiring (s : State) : State :=
  let s1 := s.each (List.finRange 18) fun n s =>
    (((((s.calFiring n).onAdc n fun x =>
      { x with conv := [], fbPtr := 0, taking := none, retire := false, calLive := false, calEnded := false }).put
      (ADC_STATUS_NEXT n) 0).put (ADC_STATUS_FALLBACK n) 0).put (ADC_STATUS_BUSY n) 0).put (ADC_STATUS_CARRIER n) 0
  let s2 := (((s1.setGx 0 .free).setGx 1 .free).put (ADC_STATUS_SERVES 16) 0x1F).put (ADC_STATUS_SERVES 17) 0x1F
  s2.each sixteen fun n s =>
    let ph := s.placeAdc n
    if 16 ≤ ph then (s.carry n (Fin.ofNat 4 (ph - 15)) false).setGx (Fin.ofNat 2 (ph - 16)) (.map n.val) else s

/-- Conversions of CONT cores begin as phase 0x3 begins (R231). -/
def State.adcRun (s : State) : State := s.each (List.finRange 18) fun n s => s.adcNext n

/-- A new sample of group `k` begins: what its cores convert began before it, by the cycles that the sample before has come to since (R232).
(DESIGN CHOICE, log entry 109.) -/
def State.adcSample (s : State) (k : Fin 8) : State :=
  s.each sixteen fun n s =>
    s.when (s.get (ADC_GROUP_RG n) == k.val) (·.onAdc (core18 n) fun x =>
      { x with conv := x.conv.map fun v => { v with since := none, old := v.old + (s.sampleNow (core18 n) - v.since.getD 0) } })

end Sys2Proof.Machine
end

