-- ==== Sys2Proof/Machine/Setter.lean ====
section
/-!
DEFINITION. The Setter tiles: arming, supplies, interlock, bootstrap supervision, desaturation, soft turn-off, off-state
diagnostics, segments and the fallback on control-side loss (10_setters_gate_drive.md, R373).
-/

namespace Sys2Proof.Machine

open Sys2Proof

/-- The pair that uses the tile runs its channel A in bootstrap mode (R195). -/
def State.bootPair (s : State) (n : Fin 9) : Bool :=
  match s.pairOf n with
  | some p => s.bit (MOD_REFRESH_BOOT p)
  | none => false

/-- A refusal of the tile: counted, with INT.REFUSED (R193). -/
def State.setRefuse (s : State) (n : Fin 9) : State := (s.inc (SET_REFUSED_COUNT n)).put (SET_INT_REFUSED n) 1

/-- STATUS.SUP_OK of a tile: both channels regulated. -/
def State.supRefresh (s : State) (n : Fin 9) : State :=
  s.putB (SET_STATUS_SUP_OK n) (s.bit (SET_CH_STATUS_SUP_OK n 0) && s.bit (SET_CH_STATUS_SUP_OK n 1))

/-- TRIM_WRITE: TRIM takes the value, the measured delays are no longer valid; the delay line follows at the first edge
100 ns later (R191). -/
def execTrimWrite (n : Fin 9) (c : Fin 2) (v : Word) (s : State) : Host.Outcome State Fault Refusal :=
  .next (s.access .tile (some (.trimWrite n c v)) fun s =>
    ((s.put (SET_CH_TRIM_TON n c) (v.toNat % 512)).put (SET_CH_TRIM_TOFF n c) (v.toNat / 2 ^ 16 % 512)).put (SET_CH_DELAY_VALID n c) 0)

/-- DELAY_MEASURED: a channel has averaged 256 edges of each kind (R191). -/
def execDelayMeasured (n : Fin 9) (c : Fin 2) (ton toff : Nat) (s : State) : Host.Outcome State Fault Refusal :=
  .next (((s.put (SET_CH_DELAY_TON n c) ton).put (SET_CH_DELAY_TOFF n c) toff).put (SET_CH_DELAY_VALID n c) 1)

/-- A channel's supply reports regulation; a disarmed channel of a used tile then holds its gate at VNEG with the clamp
engaged (R25, R192). -/
def State.chanSupOk (s : State) (n : Fin 9) (c : Fin 2) : State :=
  (((s.put (SET_CH_STATUS_SUP_OK n c) 1).when (!s.bit (SET_CH_STATUS_ON n c)) (·.put (SET_CH_STATUS_CLAMP n c) 1)).onChan n c
    fun x => { x with uvNow := false }).supRefresh n

/-- SUP_OK: the rails of a powered tile's channel have held for 100 µs. In bootstrap mode channel A reads SUP_OK exactly
when B does (R192, R195). -/
def execSupOk (n : Fin 9) (c : Fin 2) (s : State) : Host.Outcome State Fault Refusal :=
  .next (
    if !s.tiles[n].powered then s
    else if s.bootPair n then (if c = 1 then (s.chanSupOk n 1).chanSupOk n 0 else s)
    else s.chanSupOk n c)

/-- Diagnostics of the tile stop and read aborted; the gates return to VNEG (R202). -/
def State.diagStop (s : State) (n : Fin 9) : State :=
  if s.tiles[n].diag.isSome then
    ((((((s.onTile n fun t => { t with diag := none }).put (SET_DIAG_RESULT_STATE n) 3).put (SET_STATUS_DIAG_BUSY n) 0).put
      (SET_CTRL_DIAG n) 0).put (SET_INT_DIAG_DONE n) 1).put (SET_CH_STATUS_CLAMP n 0) 1).put (SET_CH_STATUS_CLAMP n 1) 1
  else s

/-- An undervoltage of one channel's supply latches (R192). -/
def State.chanUv (s : State) (n : Fin 9) (c : Fin 2) : State :=
  let s1 := ((((s.put (SET_CH_STATUS_SUPPLY_UV n c) 1).put (SET_CH_STATUS_SUP_OK n c) 0).put (SET_INT_SUPPLY_UV n) 1).onChan n c
    fun x => { x with uvNow := true }).supRefresh n
  (s1.when (s.bit (SET_STATUS_ARMED n)) fun s => s.when (s.bit (SET_CH_STATUS_ON n c)) (·.chanOff n c)).snapFault n c

/-- SUPPLY_UV: undervoltage latches; on an armed tile the channel turns off and a block stop with cause SETTER_UV is
raised; in bootstrap mode B's undervoltage latches in both channels (R192, R195). Running diagnostics stop (R202). -/
def execSupplyUv (n : Fin 9) (c : Fin 2) (s : State) : Host.Outcome State Fault Refusal :=
  .next (
    if s.bootPair n && c = 0 then s
    else
      let s1 := (s.chanUv n c).when (s.bootPair n) (·.chanUv n 0)
      (s1.when (s.bit (SET_STATUS_ARMED n)) (·.raiseStop .setterUv (2 * n.val + c.val))).diagStop n)

/-- A condition of R193 refuses arming tile `n`. -/
def State.armRefused (s : State) (n : Fin 9) : Bool :=
  !s.fired || s.bit SIT_STATUS_BLOCK_STOP || (s.pairOf n).isNone ||
  !s.bit (SET_CH_STATUS_SUP_OK n 0) || !s.bit (SET_CH_STATUS_SUP_OK n 1) || s.tiles[n].diag.isSome ||
  ([(0 : Fin 2), 1].any fun c =>
    s.bit (SET_CH_STATUS_DESAT n c) || s.bit (SET_CH_STATUS_SUPPLY_UV n c) || s.bit (SET_CH_STATUS_BOOT_STOP n c)) ||
  s.bit (SET_STATUS_OT n)

/-- The tile armed: each channel's stage of the safe order is recorded, stage 1 in a faulted leg (R373), and the first period of a
bootstrap pair is a refresh period (R182). A tile that had fallen back acts on its lines again. (DESIGN CHOICE, log entry 118.) -/
def State.armTile (s : State) (n p : Fin 9) : State :=
  let s1 := (s.put (SET_STATUS_ARMED n) 1).each [(0 : Fin 2), 1] fun c s =>
    s.onChan n c fun x => { x with stage := if s.legFaulted p then 1 else stopStage s.topClass p c }
  (s1.onTile n fun t => { t with fallback := 0 }).onPair p fun x => { x with refreshNext := x.refreshNext || s.bit (MOD_REFRESH_BOOT p) }

/-- ARM (R193). -/
def armOp (n : Fin 9) (s : State) : State :=
  if s.armRefused n then s.setRefuse n
  else
    match s.pairOf n with
    | some p => s.armTile n p
    | none => s.setRefuse n

/-- ARM: SETn.CTRL.ARM arms the tile or is refused and counted (R193). -/
def execArm (n : Fin 9) (s : State) : Host.Outcome State Fault Refusal := .next (s.access .tile (some (.arm n)) (armOp n))

/-- DISARM (R193). -/
def disarmOp (n : Fin 9) (s : State) : State :=
  match s.pairOf n with
  | some p => if s.pairGated p || s.pairForced p then s.disarm n else s.setRefuse n
  | none => s.setRefuse n

/-- DISARM: accepted only while the tile's pair reads GATED or FORCED (R193). -/
def execDisarm (n : Fin 9) (s : State) : Host.Outcome State Fault Refusal :=
  .next (s.access .tile (some (.disarm n)) (disarmOp n))

/-- The other channel of a tile. -/
def otherChan (c : Fin 2) : Fin 2 := 1 - c

/-- The gate of a channel is below VNEG + 2.0 V: off with its clamp engaged (R189, R194). -/
def State.gateLow (s : State) (n : Fin 9) (c : Fin 2) : Bool :=
  !s.bit (SET_CH_STATUS_ON n c) && s.bit (SET_CH_STATUS_CLAMP n c)

/-- The desaturation threshold code of a channel (R197). -/
def State.desatThr (s : State) (n : Fin 9) (c : Fin 2) : Nat :=
  if c = 0 then s.get (SET_DESAT_THR_A n) else s.get (SET_DESAT_THR_B n)

/-- A channel's output turns on: the clamp releases and desaturation blanking starts where sensing is enabled (R189,
R197). -/
def State.chanOn (s : State) (n : Fin 9) (c : Fin 2) : State :=
  ((s.put (SET_CH_STATUS_ON n c) 1).put (SET_CH_STATUS_CLAMP n c) 0).onChan n c
    fun x => { x with blanking := s.desatThr n c != 0, wait := false, cut := false }

/-- The channel may act on its input: its tile is armed and has not fallen back, and it holds no DESAT and no soft turn-off (R193, R199,
R373). -/
def State.chanFree (s : State) (n : Fin 9) (c : Fin 2) : Bool :=
  s.bit (SET_STATUS_ARMED n) && s.tiles[n].fallback == 0 && !s.bit (SET_CH_STATUS_DESAT n c) && (s.chan n c).soft == .idle

/-- An on-request reaches a channel: the interlock holds it while the other gate is not low, and channel A waits while
its bootstrap voltage is low (R194, R196; BOOT_UV_EVENT tells whether that is an event). -/
def State.chanReqOn (s : State) (n : Fin 9) (c : Fin 2) : State :=
  let s1 := s.onChan n c fun x => { x with req := true }
  if !s.chanFree n c || s.bit (SET_CH_STATUS_ON n c) then s1
  else if !s.gateLow n (otherChan c) || (s.chan n (otherChan c)).req then
    (s1.inc (SET_CH_STATUS_INTERLOCK n c)).onChan n c fun x => { x with wait := true }
  else if (s.chan n c).bootWait || (s.chan n c).bootLow then s1
  else s1.chanOn n c

/-- The channel's input stops requesting on: the normal turn-off runs unless a soft turn-off does (R197, R198). -/
def State.chanReqOff (s : State) (n : Fin 9) (c : Fin 2) : State :=
  let s1 := s.onChan n c fun x => { x with req := false, wait := false, bootSkip := false }
  s1.when (s.bit (SET_CH_STATUS_ON n c)) (·.chanOff n c)

/-- Some pair uses the tile and nothing holds its outputs off (R217). -/
def State.tileLive (s : State) (n : Fin 9) : Bool := (s.pairOf n).any fun p => !s.pairGated p

/-- The off channel `c` of an armed tile is found at or above VNEG + 2.0 V, or below it, where its clamp is engaged (R189, R194). -/
def State.gateTold (s : State) (n : Fin 9) (c : Fin 2) (high : Bool) : State :=
  s.when (s.bit (SET_STATUS_ARMED n) && !s.bit (SET_CH_STATUS_ON n c) && (s.chan n c).soft == .idle)
    (·.putB (SET_CH_STATUS_CLAMP n c) (!high))

/-- INTERLOCK_RELEASE: the other gate has fallen below VNEG + 2 V and a held turn-on proceeds, unless the pair is held off (R194, R217). -/
def execInterlockRelease (n : Fin 9) (c : Fin 2) (s : State) : Host.Outcome State Fault Refusal :=
  .next (
    let s1 := s.gateTold n (otherChan c) false
    if (s.chan n c).wait && (s.chan n c).req && s.chanFree n c && s1.gateLow n (otherChan c) && !(s.chan n (otherChan c)).req
      && !(s.chan n c).bootWait && !(s.chan n c).bootLow && s.tileLive n then s1.chanOn n c
    else s1)

/-- Events of BOOT_UV in the last 64 periods, 0 to 3 (SETn.BOOT_EVENTS.WINDOW). -/
def bootWindow (t : Tile) : Nat := min 3 ((t.bootHist.filter id).length + (if t.bootThis then 1 else 0))

/-- BOOT_UV_EVENT: A turns off or stays off, the pair is cycle-tripped, its next period is a refresh period, and the third
event within 64 periods latches BOOT_STOP with a block stop of cause BOOT_UV (R196). At most one event per period. A capacitor found low
beside an event keeps BOOT_STOP from being cleared. -/
def execBootUvEvent (n : Fin 9) (s : State) : Host.Outcome State Fault Refusal :=
  .next (
    if !s.bootPair n then s
    else if s.tiles[n].bootThis || !(s.bit (SET_CH_STATUS_ON n 0) || (s.chan n 0).req) then
      s.onChan n 0 fun x => { x with bootLow := true }
    else
      let s1 := (s.when (s.bit (SET_CH_STATUS_ON n 0)) (·.chanOff n 0)).onTile n
        fun t => { t with bootThis := true, bootTrip := true }
      let s2 := s1.onChan n 0 fun x => { x with bootLow := true, bootWait := true }
      let s3 := ((s2.put (SET_CH_STATUS_BOOT_UV n 0) 1).put (SET_INT_BOOT_UV n) 1).inc (SET_BOOT_EVENTS_TOTAL n)
      let w := bootWindow s3.tiles[n]
      let s4 := s3.put (SET_BOOT_EVENTS_WINDOW n) w
      let r := s4.cutPairs (s4.pairOf n).toList
      let s5 := r.1.each (s4.pairOf n).toList fun p s => s.onPair p fun x => { x with refreshNext := true }
      if 3 ≤ w then
        ((s5.put (SET_CH_STATUS_BOOT_STOP n 0) 1).snapFault n 0).raiseStopAlso .bootUv (2 * n.val) r.2
      else s5.coneIf r.2 ((s4.pairOf n).getD 0).val)

/-- BOOT_UV_RECOVER: the capacitor is above BOOT_UV + 0.5 V again and a waiting turn-on of A proceeds, subject to the interlock, unless
the pair is held off (R194, R196, R217). -/
def execBootUvRecover (n : Fin 9) (s : State) : Host.Outcome State Fault Refusal :=
  .next (
    let s1 := s.onChan n 0 fun x => { x with bootLow := false, bootWait := false }
    if (s.chan n 0).req && !(s.chan n 0).wait && s.tileLive n then s1.chanReqOn n 0 else s1)

/-- BLANKING_END: desaturation sensing begins (R197). -/
def execBlankingEnd (n : Fin 9) (c : Fin 2) (s : State) : Host.Outcome State Fault Refusal :=
  .next (s.onChan n c fun x => { x with blanking := false })

/-- A channel that senses desaturation: on, past blanking, and its input requests on (R197). -/
def State.desatOpen (s : State) (n : Fin 9) (c : Fin 2) : Bool :=
  s.bit (SET_CH_STATUS_ON n c) && (s.chan n c).req && !(s.chan n c).blanking

/-- A channel that the safe order has just turned off while it sensed desaturation: within 40 ns, 16 MOD cycles, of the latch, in which
the command reaches it (R197, R201, R225). (DEDUCED, log entry 105.) -/
def State.desatCut (s : State) (n : Fin 9) (c : Fin 2) : Bool :=
  (s.chan n c).cut && s.bit SIT_STATUS_BLOCK_STOP && decide (s.mod.cyc ≤ s.sit.firstAt + 16)

/-- The channel's own soft turn-off: that of a channel that is on, or in place of the turn-off the safe order has just commanded (R197,
R198). -/
def State.desatOff (s : State) (n : Fin 9) (c : Fin 2) : State :=
  let s1 := if s.bit (SET_CH_STATUS_ON n c) then s.chanSoftOff n c
    else s.when ((s.chan n c).soft == .idle) fun s => (s.chanSoftBegin n c).put (SET_CH_STATUS_CLAMP n c) 0
  s1.onChan n c fun x => { x with cut := false }

/-- DESAT_DETECT: a committed detection on a channel that is on, past blanking and still requested latches DESAT, starts
soft turn-off and raises a block stop with cause DESAT (R197 to R199, R201). -/
def execDesatDetect (n : Fin 9) (c : Fin 2) (s : State) : Host.Outcome State Fault Refusal :=
  .next (
    if (s.desatOpen n c || s.desatCut n c) && s.desatThr n c != 0 then
      (((((s.put (SET_CH_STATUS_DESAT n c) 1).put (SET_INT_DESAT n) 1).desatOff n c).snapFault n c).raiseStop .desat
        (2 * n.val + c.val))
    else s)

/-- SOFT_OFF_STEP2: TSTO has passed and the gate is discharged towards VNEG at ISOFT (R198). -/
def execSoftOffStep2 (n : Fin 9) (c : Fin 2) (s : State) : Host.Outcome State Fault Refusal :=
  .next (s.when ((s.chan n c).soft == .step1) (·.onChan n c fun x => { x with soft := .step2 }))

/-- SOFT_OFF_FULL_SINK: 5 µs after step 2 without the clamp the full sink engages (R198). -/
def execSoftOffFullSink (n : Fin 9) (c : Fin 2) (s : State) : Host.Outcome State Fault Refusal :=
  .next (s.when ((s.chan n c).soft == .step2) (·.onChan n c fun x => { x with soft := .fullSink }))

/-- SOFT_TURN_OFF_COMPLETE: in step 2 the gate passes VNEG + 2.0 V, the clamp engages and SOFTOFF_BUSY clears (R198). -/
def execSoftTurnOffComplete (n : Fin 9) (c : Fin 2) (s : State) : Host.Outcome State Fault Refusal :=
  .next (s.when ((s.chan n c).soft == .step2 || (s.chan n c).soft == .fullSink) fun s =>
    ((s.put (SET_CH_STATUS_SOFTOFF_BUSY n c) 0).put (SET_CH_STATUS_CLAMP n c) 1).onChan n c fun x => { x with soft := .idle })

/-- A W1C write of a latched channel flag, refused and counted while `active` (R23). -/
def State.clearFlag (s : State) (n : Fin 9) (active : Bool) (f : Fld) : State :=
  if active then s.setRefuse n else s.put f 0

/-- DESAT_CLEAR: refused during soft turn-off and while armed (R199). -/
def desatClearOp (n : Fin 9) (c : Fin 2) (s : State) : State :=
  s.clearFlag n (s.bit (SET_CH_STATUS_SOFTOFF_BUSY n c) || s.bit (SET_STATUS_ARMED n)) (SET_CH_STATUS_DESAT n c)

/-- DESAT_CLEAR (R199). -/
def execDesatClear (n : Fin 9) (c : Fin 2) (s : State) : Host.Outcome State Fault Refusal :=
  .next (s.access .tile (some (.desatClear n c)) (desatClearOp n c))

/-- BOOT_STOP_CLEAR: refused while the capacitor is below BOOT_UV + 0.5 V (R196). -/
def bootStopClearOp (n : Fin 9) (s : State) : State := s.clearFlag n (s.chan n 0).bootLow (SET_CH_STATUS_BOOT_STOP n 0)

/-- BOOT_STOP_CLEAR (R196). -/
def execBootStopClear (n : Fin 9) (s : State) : Host.Outcome State Fault Refusal :=
  .next (s.access .tile (some (.bootStopClear n)) (bootStopClearOp n))

/-- SUPPLY_UV_CLEAR: refused while the undervoltage persists (R192). -/
def supplyUvClearOp (n : Fin 9) (c : Fin 2) (s : State) : State :=
  s.clearFlag n (s.chan n c).uvNow (SET_CH_STATUS_SUPPLY_UV n c)

/-- SUPPLY_UV_CLEAR (R192). -/
def execSupplyUvClear (n : Fin 9) (c : Fin 2) (s : State) : Host.Outcome State Fault Refusal :=
  .next (s.access .tile (some (.supplyUvClear n c)) (supplyUvClearOp n c))

/-- A field of the Glaze whose declarations diagnostics use: the staged one in phase 0x2, else the one in force (R202). -/
def State.planned (s : State) (f : Fld) : Nat := if s.phase == 2 then fieldGet (cellGet s.glz.plane f.addr) f else s.get f

/-- The pair routed to tile `n` in that Glaze (R30, R202). -/
def State.plannedPair (s : State) (n : Fin 9) : Option (Fin 9) :=
  nine.find? fun p => s.planned (MOD_ROUTE_USED p) == 1 && s.planned (MOD_ROUTE_TILE p) == n.val

/-- The tile is used in the Glaze that is staged in phase 0x2, or else in the one in force (R202). -/
def State.tileUsed (s : State) (n : Fin 9) : Bool := (s.plannedPair n).isSome

/-- VNEG code, declared gate–source resistance in kΩ and declared gate capacitance in nF of a channel; the negative rail of A in bootstrap
mode is 0 V (R195, R202). -/
def State.gateDecl (s : State) (n : Fin 9) (c : Fin 2) : Nat × Nat × Nat :=
  let boot := (s.plannedPair n).any fun p => s.planned (MOD_REFRESH_BOOT p) == 1
  if c = 0 then
    (if boot then 0 else s.planned (SET_RAILS_VNEG_A n), s.planned (SET_GATE_DECL_GS_RES_A n), s.planned (SET_GATE_DECL_CG_A n))
  else (s.planned (SET_RAILS_VNEG_B n), s.planned (SET_GATE_DECL_GS_RES_B n), s.planned (SET_GATE_DECL_CG_B n))

/-- DIAG (R202). -/
def diagOp (n : Fin 9) (s : State) : State :=
  if !s.bit (SET_STATUS_ARMED n) && s.bit (SET_CH_STATUS_SUP_OK n 0) && s.bit (SET_CH_STATUS_SUP_OK n 1) &&
      (s.phase == 2 || s.fired) && s.tileUsed n && s.tiles[n].diag.isNone then
    (((((s.onTile n fun t =>
      { t with diag := some (0, .d0), diagDecl := (s.gateDecl n 0, s.gateDecl n 1), diagGate := (0, 0), diagNode := (0, 0) }).put
      (SET_DIAG_RESULT_STATE n) 1).put (SET_STATUS_DIAG_BUSY n) 1).put (SET_CTRL_DIAG n) 1).put (SET_CH_STATUS_CLAMP n 0) 0)
  else s.setRefuse n

/-- DIAG: SETn.CTRL.DIAG starts the off-state diagnostics or is refused and counted (R202). -/
def execDiag (n : Fin 9) (s : State) : Host.Outcome State Fault Refusal := .next (s.access .tile (some (.diag n)) (diagOp n))

/-- DIAG_ABORT: running diagnostics stop (R202). -/
def execDiagAbort (n : Fin 9) (s : State) : Host.Outcome State Fault Refusal :=
  .next (s.access .tile (some (.diagAbort n)) fun s => s.diagStop n)

/-- The order of R203's findings: an earlier line of its table outranks a later one. -/
def diagRank (f : Nat) : Nat := if f = 3 then 5 else if f = 2 then 4 else if f = 4 then 3 else if f = 5 then 2 else if f = 1 then 1 else 0

/-- The gate finding kept of two findings of one channel (R203). -/
def diagFind (old new : Nat) : Nat := if diagRank new ≤ diagRank old then old else new

/-- The finding of one test for a channel: 3 after D0, 4 or 5 after D1, 2 after D2, 1 where the test finds nothing (R203). -/
def diagJudge (d : Nat × Nat × Nat) (t : DiagStep) (o : DiagObs) : Nat :=
  match t with
  | .d0 => if 4 ≤ d.1 ∧ o.gateMv * 2 < -(500 * d.1 : Int) then 3 else 1
  | .d1 =>
    let ohm := if o.held then 1000000 / o.heldUa else o.settledMv * 20
    if o.reachNs ≤ 20000 ∨ o.capPf * 4 < d.2.2 * 1000 then 4
    else if d.2.1 ≠ 0 ∧ (ohm * 100 < d.2.1 * 1000 * 70 ∨ d.2.1 * 1000 * 130 < ohm * 100) then 5 else 1
  | .d2 => if o.clampMv < 100 then 2 else 1
  | _ => 1

/-- D3's class: 1 BLOCKING, 2 ZERO, 3 INDETERMINATE (R204). -/
def diagNodeClass (mv : Nat) : Nat := if 9000 ≤ mv then 1 else if mv ≤ 2000 then 2 else 3

/-- The test that follows: D1 and D2 are skipped after SHORT_VNEG; channel B follows channel A (R202, R203). -/
def diagNext (c : Nat) (t : DiagStep) (found3 : Bool) : Nat × DiagStep :=
  match t with
  | .d0 => (c, if found3 then .d3 else .d1)
  | .d1 => (c, .d2)
  | .d2 => (c, .d3)
  | .d3 => (c, .back)
  | .back => (c + 1, .d0)

/-- DIAG_TEST_STEP: the running test's interval ends with the given measurement; its finding is kept and the next test
begins (R202 to R204). -/
def execDiagTestStep (n : Fin 9) (o : DiagObs) (s : State) : Host.Outcome State Fault Refusal :=
  .next (
    match s.tiles[n].diag with
    | none => s
    | some (c, t) =>
      if c ≥ 2 then s
      else
        let ch : Fin 2 := if c = 0 then 0 else 1
        let j := diagJudge (if c = 0 then s.tiles[n].diagDecl.1 else s.tiles[n].diagDecl.2) t o
        let s1 := s.onTile n fun x => { x with
          diag := some (diagNext c t (j == 3)),
          diagGate := if t = .d3 ∨ t = .back then x.diagGate
            else if c = 0 then (diagFind x.diagGate.1 j, x.diagGate.2) else (x.diagGate.1, diagFind x.diagGate.2 j),
          diagNode := if t ≠ .d3 then x.diagNode
            else if c = 0 then (diagNodeClass o.desatMv, x.diagNode.2) else (x.diagNode.1, diagNodeClass o.desatMv) }
        if t = .back then (s1.put (SET_CH_STATUS_CLAMP n ch) 1).when (c == 0) (·.put (SET_CH_STATUS_CLAMP n 1) 0) else s1)

/-- DIAG_DONE: the tests have ended; the findings cross to the control side (R203). -/
def execDiagDone (n : Fin 9) (s : State) : Host.Outcome State Fault Refusal :=
  .next (
    match s.tiles[n].diag with
    | some (2, _) =>
      let t := s.tiles[n]
      ((((((((s.onTile n fun x => { x with diag := none }).put (SET_DIAG_RESULT_STATE n) 2).put (SET_DIAG_RESULT_GATE_A n) t.diagGate.1).put
        (SET_DIAG_RESULT_GATE_B n) t.diagGate.2).put (SET_DIAG_RESULT_NODE_A n) t.diagNode.1).put
        (SET_DIAG_RESULT_NODE_B n) t.diagNode.2).put (SET_STATUS_DIAG_BUSY n) 0).put (SET_CTRL_DIAG n) 0).put (SET_INT_DIAG_DONE n) 1
    | _ => s)

/-- A segment is marked worn or disconnected (R205). -/
def State.segWorn (s : State) (n : Fin 9) (c : Fin 2) (k : Fin 8) : State :=
  (s.putBit (if c = 0 then SET_SEG_WORN_A n else SET_SEG_WORN_B n) k true).put (SET_INT_SEG_WORN n) 1

/-- SEGMENT_MEASURE: the on-resistance of a segment in use; above 1.5 times its value at manufacture it is worn, and
one found open or shorted is disconnected at once (R205). Grog keeps the worst wear (R385). -/
def execSegmentMeasure (n : Fin 9) (c : Fin 2) (k : Fin 8) (rds : Nat) (broken : Bool) (s : State) :
    Host.Outcome State Fault Refusal :=
  .next (
    let use := if c = 0 then SET_SEG_USE_A n else SET_SEG_USE_B n
    if !s.bitAt use k then s
    else if broken then
      ((((s.putBit use k false).put (SET_SEG_RDS_RDS n c k) 0xFFFF).segWorn n c k).onChan n c
        fun x => { x with openSeg := x.openSeg ||| 2 ^ k.val }).grogSegment n c k 0 1 true
    else
      let s1 := s.put (SET_SEG_RDS_RDS n c k) rds
      let s2 := s1.when (3 * s.get (SET_SEG_RDS_INITIAL n c k) < 2 * rds) (·.segWorn n c k)
      s2.grogSegment n c k rds (s.get (SET_SEG_RDS_INITIAL n c k)) false)

/-- TILE_OVER_TEMP: OT sets; an armed tile raises SETTER_OT (R206). -/
def execTileOverTemp (n : Fin 9) (s : State) : Host.Outcome State Fault Refusal :=
  .next (((s.put (SET_STATUS_OT n) 1).put (SET_INT_OT n) 1).when (s.bit (SET_STATUS_ARMED n)) (·.raiseStop .setterOt (2 * n.val)))

/-- TILE_OT_CLEAR: the tile has fallen below 135 °C (R206). -/
def execTileOtClear (n : Fin 9) (s : State) : Host.Outcome State Fault Refusal := .next (s.put (SET_STATUS_OT n) 0)

/-- Channels recorded for stage `g` turn off; one in soft turn-off completes it (R373). -/
def State.fallbackStage (s : State) (n : Fin 9) (g : Nat) : State :=
  s.each [(0 : Fin 2), 1] fun c s => s.when ((s.chan n c).stage == g && s.bit (SET_CH_STATUS_ON n c)) (·.chanOff n c)

/-- TILE_CONTROL_LOSS: a tile that loses its control-side signal turns its stage-1 channels off at once (R373). -/
def State.controlLoss (s : State) (n : Fin 9) : State :=
  (s.fallbackStage n 1).onTile n fun t => { t with fallback := 1 }

/-- TILE_CONTROL_LOSS (R373). -/
def execTileControlLoss (n : Fin 9) (s : State) : Host.Outcome State Fault Refusal := .next (s.controlLoss n)

/-- TILE_FALLBACK_STAGE2: STOP_GAP later the stage-2 channels turn off (R373). -/
def execTileFallbackStage2 (n : Fin 9) (s : State) : Host.Outcome State Fault Refusal :=
  .next (s.when (s.tiles[n].fallback == 1) fun s => (s.fallbackStage n 2).onTile n fun t => { t with fallback := 2 })

/-- A tile as phase 0x5 is entered and the new Glaze is put in force: disarmed, diagnostics aborted (R21, R202). -/
def State.tileFiring (s : State) (n : Fin 9) : State := (s.disarm n).diagStop n

end Sys2Proof.Machine
end

