-- ==== Sys2Proof/Machine/Swap.lean ====
section
/-!
DEFINITION. Swap requests and the stops that loop supervision raises, as every meaning raises them (R64, R65, R148).
-/

namespace Sys2Proof.Machine

open Sys2Proof

/-- The pending request of group `k` set or taken away; SWAP.GO and STATUS.SWAP_PEND follow it (R64). -/
def State.setSwap (s : State) (k : Fin 8) (r : Option SwapReq) : State :=
  ((s.onGroup k fun g => { g with swap := r }).putB (RGS_RG_SWAP_GO k) r.isSome).putB (RGS_RG_STATUS_SWAP_PEND k) r.isSome

/-- A request that is accepted: it completes at once where its target is already active (R64). -/
def State.takeSwap (s : State) (k : Fin 8) (r : SwapReq) : State :=
  if s.get (RGS_RG_STATUS_ACTIVE_BANK k) == r.bank then s.setSwap k none else s.setSwap k (some r)

/-- A swap request meets group `k`: a hardware request replaces whatever is pending; a firmware request is refused while a
hardware request is pending and replaces another firmware request; SWAP.REFUSED tells of each firmware request refused or
replaced (R65). -/
def State.swapRequest (s : State) (k : Fin 8) (r : SwapReq) : State :=
  match s.groups[k].swap with
  | none => s.takeSwap k r
  | some old =>
    if r.hw then (s.when (!old.hw) (·.put (RGS_RG_SWAP_REFUSED k) 1)).takeSwap k r
    else if old.hw then s.put (RGS_RG_SWAP_REFUSED k) 1
    else (s.put (RGS_RG_SWAP_REFUSED k) 1).takeSwap k r

/-- Word `i` of bank `b` of Wheel `w` (R45). -/
def State.bankGet (s : State) (w b i : Nat) : Word := cellGet s.coef ((2 * w + b) * 1024 + i % 1024)

/-- Word `i` of bank `b` of Wheel `w` written (R45). -/
def State.bankPut (s : State) (w b i : Nat) (v : Word) : State :=
  s.withCoef (cellPut s.coef ((2 * w + b) * 1024 + i % 1024) v)

/-- The active bank of the group of Wheel `w`: 0 A, 1 B (R63). -/
def State.activeBank (s : State) (w : Fin 64) : Nat :=
  match s.wheels[w].decl.group with
  | some k => s.get (RGS_RG_STATUS_ACTIVE_BANK k)
  | none => 0

/-- Loop supervision raises a block stop: RGS.SUPV_CAUSE records it, with INT.SUPV_STOP, if no block stop is latched (R148). -/
def State.supvStop (s : State) (c : Cause) (code wheel rg index detail : Nat) : State :=
  let lower := c == .plausibility && s.sit.firstAt == s.mod.cyc && s.get SIT_FIRST_CODE == Cause.plausibility.bitNo &&
    decide (rg < s.get RGS_SUPV_CAUSE_RG)
  let s1 := if s.bit SIT_STATUS_BLOCK_STOP && !lower then s else
    (((((s.put RGS_SUPV_CAUSE_VALID 1).put RGS_SUPV_CAUSE_CAUSE code).put RGS_SUPV_CAUSE_WHEEL wheel).put RGS_SUPV_CAUSE_RG rg).put
      RGS_SUPV_CAUSE_INDEX index).put RGS_SUPV_INT_SUPV_STOP 1
  s1.raiseStop c detail

end Sys2Proof.Machine
end

