-- ==== Sys2Proof/Machine/Gsu.lean ====
section
/-!
DEFINITION. The grid synchronisation units (05_grid_synchronisation_and_ride_through.md R98 to R109, R121).
-/

namespace Sys2Proof.Machine

open Sys2Proof

/-- π times 10^40, to the nearest integer below: the constant of the phase accumulators. -/
def piE40 : Nat := 31415926535897932384626433832795028841971

/-- Accumulator units, 2^64 to a turn, that ω̂ covers in `ps` picoseconds, to the nearest unit (R102). -/
def turnUnits (w : Word) (ps : Nat) : Int := roundRat (fval w * (ps * 2 ^ 64 * 10 ^ 28 : Nat)) (2 ^ 149 * 2 * piE40)

/-- A phase accumulator advanced by a signed number of units. -/
def turnAdd (acc : Nat) (d : Int) : Nat := (((acc : Int) + d) % (2 ^ 64 : Int)).toNat

/-- An accumulator value as a Q31 fraction of π, rounded to the nearest (R102). -/
def turnQ31 (acc : Nat) : Word := BitVec.ofNat 32 ((acc + 2 ^ 31) / 2 ^ 32)

/-- Constants of R101 and R102 as float32: 2π, √2, √3. -/
def fTwoPi : Word := 0x40C90FDB
def fSqrt2 : Word := 0x3FB504F3
def fSqrt3 : Word := 0x3FDDB3D7

/-- Nominal frequency of a GSU in Hz (GSUn.CFG.FNOM). -/
def State.gsuNom (s : State) (i : Fin 4) : Nat := if s.bit (GSU_CFG_FNOM i) then 60 else 50

/-- The update interval Tu of a GSU in 1/128 ns, as a fraction (R100). -/
def State.gsuTu (s : State) (i : Fin 4) : Nat × Nat := s.unitSpan (s.get (GSU_CFG_TRIG_RG i)) (s.get (GSU_CFG_DIV i) + 1)

/-- Updates in `ns` nanoseconds, to the nearest, at least one. (DEDUCED, log entry 42.) -/
def State.gsuUpdates (s : State) (i : Fin 4) (ns : Nat) : Nat := spanCount (s.gsuTu i) ns

/-- One nominal cycle in ns. -/
def State.gsuCycle (s : State) (i : Fin 4) : Nat := 1000000000 / s.gsuNom i

/-- Every number of the list is finite. -/
def allFin (l : List Word) : Bool := l.all fun w => (F32.of w).isFin

/-- The mean of floats: computed exactly and rounded once where all are finite, else what R84 gives for their sum. -/
def fmean (l : List Word) : Word :=
  if allFin l then fsumRound ((l.map fval).foldl (· + ·) 0) (max 1 l.length) false else l.foldl (fun a w => (fadd a w).1) 0

/-- The root of the mean of squares of floats. -/
def frms (l : List Word) : Word :=
  if allFin l then (fsqrt (fsumRound ((l.map fun w => fval w * fval w).foldl (· + ·) 0) (2 ^ 149 * max 1 l.length) false)).1
  else l.foldl (fun a w => (fadd a (fmul w w).1).1) 0

/-- The magnitude of a vector. -/
def fmag (x y : Word) : Word := (fsqrt (fadd (fmul x x).1 (fmul y y).1).1).1

/-- A free word for each of `n` quantities the spec leaves open, and the state after. -/
def State.frees (s : State) (n : Nat) : List Word × State :=
  ((List.range n).map fun j => Config.freeWord (s.free + j), (s.withFree (s.free + n)))

/-- Input `j` of a GSU as a sample start sees it, in volts: converter codes scaled, or float32 (R99). -/
def State.gsuInput (s : State) (i : Fin 4) (j : Nat) : Word :=
  let v := s.slot ((s.get (GSU_INSLOT_BASE i) + j) % 4096)
  if s.bit (GSU_INSLOT_FMT i) then v
  else (fmul (fofInt (signed 16 (v.toNat % 65536)) 0) (s.word (GSU_SCALE_SCALE i j))).1

/-- The three inputs of the outputs +6 to +8: phase voltages, or the three phase-to-phase voltages (R99, R108). -/
def State.gsuVectors (s : State) (i : Fin 4) : List Word :=
  let a := s.gsuInput i 0
  let b := s.gsuInput i 1
  if s.bit (GSU_CFG_WIRING i) then [a, b, fneg (fadd a b).1] else [a, b, s.gsuInput i 2]

/-- The instantaneous magnitude √(v² + (v′ ÷ ω̂)²) of R104, v′ by central difference over 2 Tu. -/
def gsuInst (v next prev w tu : Word) : Word :=
  let d := (fdiv (fsub next prev).1 (fmul 0x40000000 tu).1).1
  fmag v (fdiv d w).1

/-- Base voltage of a per-unit magnitude (R99): rated phase-to-neutral, times √3 for three-wire. -/
def State.gsuBase (s : State) (i : Fin 4) : Word :=
  let v := s.word (GSU_VRATED_VRATED i)
  if s.bit (GSU_CFG_WIRING i) then (fmul fSqrt3 v).1 else v

/-- A peak value as RMS in pu of `base`. -/
def fpu (peak base : Word) : Word := (fdiv peak (fmul fSqrt2 base).1).1

/-- The first `n` of a value put in front of a history. -/
def hist {α : Type} (n : Nat) (a : α) (l : List α) : List α := (a :: l).take n

/-- A float within [lo, hi], given as rational bounds; false for NaN. -/
def fwithin (v : Word) (lo hi : Int) (den : Nat) : Bool :=
  match F32.of v with
  | .fin neg x => decide (lo * 2 ^ 149 ≤ sgnInt neg x * den) && decide (sgnInt neg x * den ≤ hi * 2 ^ 149)
  | _ => false

/-- The published estimate at offset `j` of a GSU's last update. -/
def gsuOut (g : Gsu) (j : Nat) : Word := g.out.getD j 0

/-- Cosine and sine of an accumulator value, each times 2^96. -/
def turnCosSinQ (acc : Nat) : Int × Int :=
  let quarter : Nat := (acc + 2 ^ 61) / 2 ^ 62
  let x := ((acc : Int) - (quarter : Int) * 2 ^ 62) * piQ96 / 2 ^ 63
  let xx := x * x / 2 ^ 96
  let c := seriesFrom xx 16 0 (2 ^ 96)
  let s := seriesFrom xx 16 1 x
  match quarter % 4 with
  | 0 => (c, s)
  | 1 => (-s, c)
  | 2 => (-c, -s)
  | _ => (s, -c)

/-- A number times 2^96 rounded to float32. -/
def fofQ96 (v : Int) : Word := fsumRound (v * 2 ^ 149) (2 ^ 96) false

/-- Cosine and sine of an accumulator value, as float32 to the nearest (R102). -/
def turnCosSin (acc : Nat) : Word × Word := let r := turnCosSinQ acc; (fofQ96 r.1, fofQ96 r.2)

/-- The angle of (x, y) as Q31 of π; none where one is not finite (R101, R105). -/
def fangle (x y : Word) : Option Word :=
  if (F32.of x).isFin && (F32.of y).isFin then some (atan2Q31 (fval x) (fval y)) else none

/-- A Q31 angle in degrees. -/
def degrees (a : Word) : Word := fratio (a.toInt * 180) (2 ^ 31)

/-- The axes of R101: α, β and the zero sequence of the inputs, phase voltages in four-wire mode, phase-to-phase ones in three-wire mode. -/
def clarke (threeWire : Bool) (vin : List Word) : Word × Word × Word :=
  let in0 := vin.getD 0 0
  let in1 := vin.getD 1 0
  let third := fun (w : Word) => (fdiv w 0x40400000).1
  let va := if threeWire then third (fadd (fadd in0 in0).1 in1).1 else in0
  let vb := if threeWire then third (fsub in1 in0).1 else in1
  let vc := if threeWire then third (fneg (fadd in0 (fadd in1 in1).1).1) else vin.getD 2 0
  (third (fsub (fsub (fadd va va).1 vb).1 vc).1, (fdiv (fsub vb vc).1 fSqrt3).1,
    if threeWire then 0 else third (fadd (fadd va vb).1 vc).1)

/-- One update of a second-order generalised integrator with k = 1.414 tuned to `w`, on the states `p` and `q` and the input `v`. The
discretisation is open: an output is the free value of Config.sogi where that lies within a third-order term of the trapezoidal step of
the integrator's equations, so that the bounds of R109 hold, else that step rounded to float32; not finite operands give NaN (R101, R109).
(DESIGN CHOICE, log entry 41.) -/
def sogiStep (w : Word) (tu : Nat × Nat) (x : Word × Word × Word) (v : Word) : Word × Word × Word :=
  let fin := fun (a : Word) => (F32.of a).isFin
  if !(fin x.1 && fin x.2.1 && fin x.2.2 && fin v && fin w) then (qnan, qnan, v)
  else
    let n : Int := fval w * tu.1
    let d : Int := 2 ^ 149 * 2 * max 1 tu.2 * 128000000000
    let p := fval x.1
    let q := fval x.2.1
    let den := 1000 * (d * d + n * n) + 1414 * n * d
    let p1 := p * (1000 * (d * d - n * n) - 1414 * n * d) - 2000 * n * d * q + 1414 * n * d * (fval v + fval x.2.2)
    let q1 := q * den * d + n * (p * den + p1)
    let slack := 8 * n * n * n * ((p.natAbs : Int) + q.natAbs + (fval v).natAbs + (fval x.2.2).natAbs)
    let pick := fun (j : Nat) (num dd : Int) =>
      let c := Config.sogi j x.1 x.2.1 x.2.2 v w (spanSec tu)
      if fin c && decide ((fval c * dd - num).natAbs * (d * d * d) ≤ slack * dd) then fflush c else fsumRound num dd.toNat false
    (pick 0 p1 den, pick 1 q1 (den * d), v)

/-- The loop of R102: error, integral and ω̂, from the quantities at the last update and the sine and cosine of θ. -/
def State.gsuLoop (s : State) (i : Fin 4) (vpa vpb vpos : Word) (g : Gsu) : Gsu × Word :=
  let cs := turnCosSin g.acc
  let tu := spanSec (s.gsuTu i)
  let wn := (fmul fTwoPi (fofInt (5 * s.get (GSU_CFG_PLL_BW i) : Nat) 0)).1
  let kp := (fmul (fmul 0x40000000 (fratio 707 1000)).1 wn).1
  let ki := (fmul wn wn).1
  let num := (fadd (fneg (fmul vpa cs.2).1) (fmul vpb cs.1).1).1
  let den := (fmax vpos (fmul (fmul (fratio 1 10) (s.word (GSU_VRATED_VRATED i))).1 fSqrt2).1).1
  let e := (fdiv num den).1
  let x := (fadd g.x (fmul (fmul ki tu).1 e).1).1
  let nom := (fmul fTwoPi (fofInt (s.gsuNom i) 0)).1
  let w := (fclamp (fadd (fadd nom (fmul kp e).1).1 x).1 (fmul fTwoPi (fofInt 40 0)).1 (fmul fTwoPi (fofInt 70 0)).1).1
  ({ g with x := x, w := w }, e)

/-- The status word of a GSU. -/
def State.gsuStatus (s : State) (i : Fin 4) : Word := (s.view (GSU_STATUS_LOCKED i).addr).truncate 32

/-- The sequence components of R101 as vectors and magnitudes. -/
structure Seq where
  vpa : Word
  vpb : Word
  vna : Word
  vnb : Word
  vpos : Word
  vneg : Word
  deriving DecidableEq, Repr

/-- The sequence separation of R101. -/
def gsuSeq (pa qa pb qb : Word) : Seq :=
  let half := fun (a : Word) => (fmul a 0x3F000000).1
  let vpa := half (fsub pa qb).1
  let vpb := half (fadd qa pb).1
  let vna := half (fadd pa qb).1
  let vnb := half (fsub pb qa).1
  ⟨vpa, vpb, vna, vnb, fmag vpa vpb, fmag vna vnb⟩

/-- The phase jump of R105: its events, and with PJ_RESEED the step of the accumulator. -/
def State.gsuJump (s : State) (i : Fin 4) (d : Word) : State :=
  let s0 := s.when (s.get ISL_CFG_GSU == i.val) fun s => s.withIsl { s.isl with spoilt := true }
  let s1 := (s0.put (GSU_STATUS_PJUMP i) 1).inc (GSU_STATUS_PJ_COUNT i)
  s1.when (s.bit (GSU_CFG_PJ_RESEED i)) (·.onGsu i fun g =>
    { g with acc := turnAdd g.acc (roundRat (fval d * 2 ^ 64) (360 * 2 ^ 149)) })

/-- R109 keeps the lock through a phase jump: the inputs are sampled every 10 µs or faster, PLL_BW is 30 Hz or more, the positive sequence
lies within 60° of θ, and |e| has been 0.1 or more for no longer than the loop takes to settle, 100 ms; R106's clearing of LOCKED yields to
it. A larger error that lasts, as of a ramp that the loop cannot follow, clears LOCKED. (DESIGN CHOICE, log entry 100.) -/
def State.gsuHolds (s : State) (i : Fin 4) (d : Word) : Bool :=
  let tu := s.gsuTu i
  decide (tu.1 ≤ 1280000 * tu.2) && decide (6 ≤ s.get (GSU_CFG_PLL_BW i)) && fwithin d (-60) 60 1 &&
    decide (s.gsus[i].errRun < s.gsuUpdates i 100000000)

/-- A GSU's update at a sample start: R101 to R107, R109. Before a full ROCOF_WIN of f exists RoCoF takes f now for the missing earlier
value. (DESIGN CHOICE, log entry 99.) The inputs before the first update count as 0, a mean or RMS runs over the updates there are until its
window is full, vn's RMS runs over one nominal cycle, a loop that PJ_RESEED steps forms e on the new θ, and the angle of V− is 0 where it has
none. (DESIGN CHOICE, log entry 121.) At a step of amplitude the formula of R104 stands against its last sentence. (DESIGN CHOICE, log entry
122.) -/
def State.gsuUpdate (s : State) (i : Fin 4) : State :=
  let g := s.gsus[i]
  let tu := s.gsuTu i
  let wire := s.bit (GSU_CFG_WIRING i)
  let vin := s.gsuVectors i
  let cyc := s.gsuUpdates i (s.gsuCycle i)
  let win := s.gsuUpdates i (s.gsuCycle i / (8 / 2 ^ s.get (GSU_CFG_WINDOW i)))
  let axes := clarke wire vin
  let sa := sogiStep g.w tu g.sogiA axes.1
  let sb := sogiStep g.w tu g.sogiB axes.2.1
  let q := gsuSeq sa.1 sa.2.1 sb.1 sb.2.1
  let base := s.word (GSU_VRATED_VRATED i)
  let vposPu := fpu q.vpos base
  let low := !fge vposPu 1 10
  -- |V0| and the RMS of vn over one nominal cycle
  let v0Hist := hist cyc axes.2.2 g.v0Hist
  let vnHist := if s.bit (GSU_CFG_NEUTRAL_IN i) && !wire then hist cyc (s.gsuInput i 3) g.vnHist else []
  -- per-phase magnitudes, of the update before this one (central difference)
  let inst := ([0, 1, 2] : List Nat).map fun j => gsuInst (g.vin.getD j 0) (vin.getD j 0) (g.vprev.getD j 0) g.w (spanSec tu)
  let mags := ([0, 1, 2] : List Nat).map fun j => hist win (inst.getD j 0) (g.mags.getD j [])
  -- seed, phase jump and loop
  let plus := fangle q.vpa q.vpb
  let g1 := if g.seeded then g else { g with seeded := true, acc := (plus.getD 0).toNat * 2 ^ 32 }
  let s1 := s.onGsu i fun _ => g1
  let d := match plus with
    | some a => degrees (a - turnQ31 g1.acc)
    | none => qnan
  let jump := fge vposPu 2 10 && !flt (fabs d) (fofInt (s.get (GSU_THR_PJ_THR i)) 0) && F32.of d != .nan
  let s2 := s1.when jump (·.gsuJump i d)
  let (g2, e) := s2.gsuLoop i q.vpa q.vpb q.vpos s2.gsus[i]
  let g3 := if low then s2.gsus[i] else g2
  let wHz := (fdiv g3.w fTwoPi).1
  let fHist := hist cyc wHz g.fHist
  let fNow := if low then g.lastF else fmean fHist
  let winR := 10 * s.get (GSU_THR_ROCOF_WIN i)
  let nR := s.gsuUpdates i (winR * 1000000)
  let fPub := hist (nR + 1) fNow g.fPub
  let rocof := if low then gsuOut g 1 else (fdiv (fsub fNow (fPub.getD nR fNow)).1 (fratio winR 1000)).1
  let mag := fun (j : Nat) => fpu (fmean (mags.getD j [])) (s.gsuBase i)
  let v0pu := (fdiv (frms v0Hist) base).1
  let minus := match fangle q.vna q.vnb with
    | some a => a - turnQ31 s2.gsus[i].acc
    | none => 0
  let out := [fNow, rocof, vposPu, fpu q.vneg base, v0pu, minus, vin.getD 0 0, vin.getD 1 0, vin.getD 2 0,
    mag 0, mag 1, mag 2, 0, (if jump then d else gsuOut g 13), g3.w]
  let wide := !low && !flt (fabs e) (fratio 1 10)
  let unlock := wide && !s.gsuHolds i d && s.bit (GSU_STATUS_LOCKED i)
  let s3 := s2.onGsu i fun _ => { g3 with
    sogiA := sa, sogiB := sb,
    vin := vin, vprev := g.vin, mags := mags, fHist := fHist, fPub := fPub, v0Hist := v0Hist,
    errRun := if low then g.errRun else if wide then g.errRun + 1 else 0,
    vnHist := vnHist, lastF := fNow, jump := jump, out := out, due := true, divCnt := 0,
    errOk := !low && flt (fabs e) (fratio 2 100) && fwithin fNow (s.gsuNom i - 10) (s.gsuNom i + 10) 1 }
  let s4 := s3.putB (GSU_STATUS_COAST i) low
  s4.when unlock fun s => (s.put (GSU_STATUS_LOCKED i) 0).put (GSU_STATUS_LOCK_LOST i) 1

/-- A sample start of group `k` reaches the GSUs: each whose TRIG_RG it is updates at every (DIV + 1)th (R100). -/
def State.gsuStart (s : State) (k : Fin 8) : State :=
  s.each [(0 : Fin 4), 1, 2, 3] fun i s =>
    if s.fired && s.bit (GSU_CFG_EN i) && s.get (GSU_CFG_TRIG_RG i) == k.val then
      if s.get (GSU_CFG_DIV i) ≤ s.gsus[i].divCnt then s.gsuUpdate i else s.onGsu i fun g => { g with divCnt := g.divCnt + 1 }
    else s

/-- GSU_PUBLISH: in the 96th WHEEL cycle after the triggering sample start the fifteen output slots take the estimates (R100,
R108). -/
def execGsuPublish (i : Fin 4) (s : State) : Host.Outcome State Fault Refusal :=
  .next (
    let g := s.gsus[i]
    if !g.due then s
    else
      let s1 := s.each (List.range 15) fun j s =>
        s.publishBy 3 (some 0) (s.get (GSU_OUTSLOT_BASE i) + j) (if j = 12 then s.gsuStatus i else gsuOut g j)
      let s2 := s1.when (g.jump && s.get ISL_CFG_GSU == i.val) fun s => s.withIsl { s.isl with jumped := true }
      s2.onGsu i fun g => { g with due := false, jump := false, lockedF := if s.bit (GSU_STATUS_LOCKED i) then gsuOut g 0 else g.lockedF })

/-- GSU_ANGLE_PUBLISH: in the cycle before each sample start of ANG_RG, θ + ω̂ × LEAD goes to ANGSLOT (R102). -/
def execGsuAnglePublish (i : Fin 4) (s : State) : Host.Outcome State Fault Refusal :=
  .next (
    if s.fired && s.up .wheel && s.bit (GSU_CFG_EN i) && s.bit (GSU_CFG_ANG_EN i) then
      let g := s.gsus[i]
      s.publishBy 3 (some 0) (s.get (GSU_OUTSLOT_ANGSLOT i)) (turnQ31 (turnAdd g.acc (turnUnits g.w (1000 * s.get (GSU_LEAD_LEAD i)))))
    else s)

/-- GSU_LOCK: the lock conditions have held for 20 ms; LOCKED sets (R106). -/
def execGsuLock (i : Fin 4) (s : State) : Host.Outcome State Fault Refusal :=
  .next (s.when (s.gsus[i].errOk && !s.bit (GSU_STATUS_COAST i)) (·.put (GSU_STATUS_LOCKED i) 1))

/-- WRONG_SEQ: the condition that sets the indication, or the one that clears it, has held for 40 ms (R107). -/
def execWrongSeq (i : Fin 4) (s : State) : Host.Outcome State Fault Refusal :=
  .next (
    let p := gsuOut s.gsus[i] 2
    let n := gsuOut s.gsus[i] 3
    if s.bit (GSU_STATUS_WRONG_SEQ i) then s.when (flt n p) (·.put (GSU_STATUS_WRONG_SEQ i) 0)
    else s.when (flt p n && fge n 1 2) fun s => (s.put (GSU_STATUS_WRONG_SEQ i) 1).put (GSU_STATUS_WRONG_SEQ_EV i) 1)

/-- The missing-neutral condition of R107 at the last update. -/
def State.missN (s : State) (i : Fin 4) : Bool :=
  let g := s.gsus[i]
  let thr := s.get (GSU_THR_MN_THR i)
  let vn := (fdiv (frms g.vnHist) (s.word (GSU_VRATED_VRATED i))).1
  !s.bit (GSU_CFG_WIRING i) && fge (gsuOut g 2) 1 2 && (fge (gsuOut g 4) thr 100 || (s.bit (GSU_CFG_NEUTRAL_IN i) && fge vn thr 100))

/-- MISS_N: the condition, or its absence, has held for MN_TIME (R107). -/
def execMissN (i : Fin 4) (s : State) : Host.Outcome State Fault Refusal :=
  .next (
    if s.bit (GSU_STATUS_MISS_N i) then s.when (!s.missN i) (·.put (GSU_STATUS_MISS_N i) 0)
    else s.when (s.missN i) fun s => (s.put (GSU_STATUS_MISS_N i) 1).put (GSU_STATUS_MISS_N_EV i) 1)

/-- Every GSU starts again at a firing: x 0, ω̂ nominal, not locked, θ to be seeded at the first update; the counts and event
bits of the Glaze before are gone (R121, GSUn.STATUS). Until an f has been published with LOCKED = 1, UF and OF evaluate the nominal
frequency (R120). (DESIGN CHOICE, log entry 98.) -/
def State.gsuFiring (s : State) : State :=
  s.each [(0 : Fin 4), 1, 2, 3] fun i s =>
    let nom := fofInt (s.gsuNom i) 0
    (((((s.onGsu i fun _ => { w := (fmul fTwoPi nom).1, lastF := nom, lockedF := nom }).put (GSU_STATUS_LOCKED i) 0).put
      (GSU_STATUS_COAST i) 0).put (GSU_STATUS_PJ_COUNT i) 0).put (GSU_STATUS_WRONG_SEQ i) 0).put (GSU_STATUS_MISS_N i) 0

/-- The phase accumulators advanced by `cycles` WHEEL cycles (R102). -/
def State.gsuAdvance (s : State) (cycles : Nat) : State :=
  if !s.fired then s else
  s.each [(0 : Fin 4), 1, 2, 3] fun i s =>
    s.when (s.bit (GSU_CFG_EN i) && s.gsus[i].seeded) (·.onGsu i fun g =>
      { g with acc := turnAdd g.acc (cycles * turnUnits g.w 1250) })

end Sys2Proof.Machine
end

