-- ==== Sys2Proof/Machine/Rts.lean ====
section
/-!
DEFINITION. The ride-through sequencer (05_grid_synchronisation_and_ride_through.md R111 to R121).
-/

namespace Sys2Proof.Machine

open Sys2Proof

/-- The four curves: 0 UV, 1 OV, 2 UF, 3 OF (R112). -/
def four : List (Fin 4) := [0, 1, 2, 3]

/-- The watched GSU (RTS.CFG.GSU). -/
def State.rtsGsu (s : State) : Fin 4 := Fin.ofNat 4 (s.get RTS_CFG_GSU)

/-- The estimate last published at offset `j` of the watched GSU (R111). -/
def State.rtsIn (s : State) (j : Nat) : Word := s.slot ((s.get (GSU_OUTSLOT_BASE s.rtsGsu) + j) % 4096)

/-- The frequency the UF and OF curves evaluate: the held one while the GSU is not locked (R120). -/
def State.rtsFreq (s : State) : Word :=
  if s.bit (GSU_STATUS_LOCKED s.rtsGsu) then s.rtsIn 0 else s.gsus[s.rtsGsu].lockedF

/-- The quantity of curve `c`: V_low, V_high or f (R111, R112). -/
def State.rtsQuantity (s : State) (c : Fin 4) : Word :=
  let lo := (fmin (fmin (s.rtsIn 9) (s.rtsIn 10)).1 (s.rtsIn 11)).1
  let hi := (fmax (fmax (s.rtsIn 9) (s.rtsIn 10)).1 (s.rtsIn 11)).1
  if c = 0 then lo else if c = 1 then hi else s.rtsFreq

/-- Points of curve `c` (RTS.NPTS). -/
def State.rtsPoints (s : State) (c : Fin 4) : Nat :=
  if c = 0 then s.get RTS_NPTS_UV else if c = 1 then s.get RTS_NPTS_OV else if c = 2 then s.get RTS_NPTS_UF else s.get RTS_NPTS_OF

/-- Hysteresis of curve `c` as float32 in the curve's unit (RTS.HYST). -/
def State.rtsHyst (s : State) (c : Fin 4) : Word :=
  if c.val < 2 then fratio (s.get RTS_HYST_HYST_V : Nat) 1000 else fratio (s.get RTS_HYST_HYST_F : Nat) 100

/-- The quantity is beyond a level: below for UV and UF, above for OV and OF (R112). -/
def beyond (c : Fin 4) (q l : Word) : Bool := if c.val % 2 = 0 then flt q l else flt l q

/-- The band of curve `c` now; with `exit` each level is shifted to the less severe side by the hysteresis (R112, R113). -/
def State.rtsBand (s : State) (c : Fin 4) (exit : Bool) : Nat :=
  (List.range (s.rtsPoints c)).foldl (fun b k =>
    let l := s.word (RTS_PT_LEVEL_LEVEL c k)
    let l' := if !exit then l else if c.val % 2 = 0 then (fadd l (s.rtsHyst c)).1 else (fsub l (s.rtsHyst c)).1
    if beyond c (s.rtsQuantity c) l' then k + 1 else b) 0

/-- The region of curve `c` (R112, R113): 0 CONT, 1 MAND, 2 PERM, 3 CEASE, 4 TRIP. -/
def State.rtsCurveRegion (s : State) (c : Fin 4) : Nat :=
  let x := s.rts.curves[c]
  if x.tripped then 4 else if x.band = 0 then 0 else s.get (RTS_PT_TIME_REGION c (x.band - 1))

/-- The block's region and the curve that sets it, 0 for none (R114). -/
def State.rtsRegion (s : State) : Nat × Nat :=
  four.foldl (fun m c => if m.1 < s.rtsCurveRegion c then (s.rtsCurveRegion c, c.val + 1) else m) (0, 0)

/-- The region ceases: CEASE, or PERM with PERM_CEASE = 1 (R116). -/
def State.ceasing (s : State) (r : Nat) : Bool := r == 3 || (r == 2 && s.bit RTS_CFG_PERM_CEASE)

/-- IQ1, IQ2 and ID_LIM outside the ceasing regions and TRIP (R117). -/
def State.rtsSupport (s : State) : Word × Word × Word :=
  let k := fun (j : Nat) => s.word (RTS_RCI_VALUE j)
  let vpos := s.rtsIn 2
  let iq1 := if flt vpos (k 2) then (fmul (k 0) (fsub (k 2) vpos).1).1 else 0
  let iq2 := (fmul (k 1) (s.rtsIn 3)).1
  let sum := (fadd iq1 iq2).1
  let sc := (fdiv (k 3) sum).1
  let p := if flt (k 3) sum then ((fmul iq1 sc).1, (fmul iq2 sc).1) else (iq1, iq2)
  let t := (fadd p.1 p.2).1
  let room := (fsqrt (fmax (fsub (fmul (k 4) (k 4)).1 (fmul t t).1).1 0).1).1
  (p.1, p.2, (fmin room (fmul s.rts.recovery (k 4)).1).1)

/-- The region as the curves have it now is put in force and published (R114 to R118). -/
def State.rtsApply (s : State) : State :=
  let (r, c) := s.rtsRegion
  let old := s.get RTS_STATE_REGION
  let stops := s.ceasing r || r == 4
  let hold := s.ceasing r && s.bit RTS_CFG_CEASE_GATE
  let s1 := s.when stops fun s => s.withRts { s.rts with recovery := 0 }
  let exc := four.any fun c => s1.rts.curves[c].running
  let ms := four.foldl (fun m c => if s1.rts.curves[c].running then max m (s1.rts.curves[c].excTicks / 20) else m) 0
  let s2 := (((((s1.put RTS_STATE_REGION r).put RTS_STATE_CURVE c).putB RTS_STATE_EXC exc).putB RTS_STATE_FHOLD
    (!s1.bit (GSU_STATUS_LOCKED s1.rtsGsu))).putB RTS_STATE_HOLD hold).put RTS_EXC_TIME_MS (min ms (2 ^ 22 - 1))
  let s3 := s2.each nine fun p s => s.onPair p fun x => { x with holdWanted := hold && s.bitAt RTS_CFG_CEASE_PAIRS p }
  let s4 := if r = old then s3 else
    ((s3.incWrap RTS_STATE_CHANGES).withIsl { s3.isl with spoilt := true }).each eight fun k s =>
      s.when (s.get (RGS_RG_CFG_SWAP_SRC k) == 1) (·.swapRequest k { bank := bitOf (s.bitAt RTS_CFG_BANK_MAP r), hw := true, atPlant := false })
  let s5 := s4.when (r == 4) (·.put RTS_STATE_TRIP_LATCH 1)
  let sup := if stops then (0, 0, 0) else s5.rtsSupport
  let words : List Word := [(s5.view (RTS_STATE_REGION).addr).truncate 32, sup.1, sup.2.1, sup.2.2, s5.rts.recovery]
  let s6 := s5.each (List.range 5) fun j s => s.publishBy 3 (some 1) (s.get RTS_SLOTS_BASE + j) (words.getD j 0)
  s6.when (r == 4 && old != 4) (·.raiseStop .rideThrough 0)

/-- RECOVERY after one more tick in a region that operates (R118). -/
def State.rtsRamp (s : State) : State :=
  let step := (fmul (s.word (RTS_RCI_VALUE 5)) (fratio 5 100000)).1
  s.withRts { s.rts with recovery := (fmin (fadd s.rts.recovery step).1 0x3F800000).1 }

/-- The RTS runs: in use, in phase 0x3 or 0x4, its island out of reset (R111, R267). -/
def State.rtsOn (s : State) : Bool := s.fired && s.up .wheel && s.bit RTS_CFG_EN

/-- RTS_TICK: every 50 µs each curve observes its quantity, excursion timers advance, RECOVERY ramps, and the five slots are
published (R111, R113, R114, R118). -/
def execRtsTick (s : State) : Host.Outcome State Fault Refusal :=
  .next (
    if !s.rtsOn then s
    else
      let s1 := s.each four fun c t =>
        let x := t.rts.curves[c]
        let x' := { x with
          entry := hist 16 (s.rtsBand c false) x.entry, exit := hist 16 (s.rtsBand c true) x.exit,
          excTicks := if x.running then x.excTicks + 1 else 0 }
        t.withRts { t.rts with curves := t.rts.curves.set c x' }
      let r := s1.rtsRegion.1
      (s1.when (!(s1.ceasing r || r == 4)) (·.rtsRamp)).rtsApply)

/-- The band that the last ENTRY_TICKS or EXIT_TICKS ticks move a curve to (R113). (DEDUCED, log entry 43.) -/
def State.rtsMove (s : State) (c : Fin 4) : Nat :=
  let x := s.rts.curves[c]
  let en := max 1 (s.get RTS_CFG_ENTRY)
  let ex := max 1 (s.get RTS_CFG_EXIT)
  let up := if x.entry.length < en then 0 else (x.entry.take en).foldl min 32
  let down := if x.exit.length < ex then 32 else (x.exit.take ex).foldl max 0
  if x.band < up then up else if down < x.band then down else x.band

/-- A curve moves to band `b`: leaving the continuous band starts its excursion at the first of the ticks that took it out,
re-entering ends it (R113). A curve that a time limit has moved to TRIP stays there in a less severe band. (DESIGN CHOICE, log entry 145.) -/
def State.rtsTake (s : State) (c : Fin 4) (b : Nat) : State :=
  let x := s.rts.curves[c]
  let x' := if b = 0 then { x with band := 0, running := false, tripped := false, excTicks := 0 }
    else if x.running then { x with band := b }
    else { x with band := b, running := true, excTicks := s.get RTS_CFG_ENTRY - 1 }
  s.withRts { s.rts with curves := s.rts.curves.set c x' }

/-- RTS_BAND_CHANGE: curve `c` moves to the band that its last ticks show; the region follows and is published (R113 to
R116). -/
def execRtsBandChange (c : Fin 4) (s : State) : Host.Outcome State Fault Refusal :=
  .next (
    let b := s.rtsMove c
    if !s.rtsOn || b = s.rts.curves[c].band then s else (s.rtsTake c b).rtsApply)

/-- RTS_TIME_LIMIT: curve `c`'s excursion has reached the time limit of its band; it moves to region TRIP (R113). -/
def execRtsTimeLimit (c : Fin 4) (s : State) : Host.Outcome State Fault Refusal :=
  .next (
    let x := s.rts.curves[c]
    let t := s.get (RTS_PT_TIME_TIME c (x.band - 1))
    if s.rtsOn && x.running && x.band != 0 && !x.tripped && t != 0x3FFFFF && decide (20 * t ≤ x.excTicks) then
      (s.withRts { s.rts with curves := s.rts.curves.set c { x with tripped := true } }).rtsApply
    else s)

/-- CLEAR_TRIP (R119). -/
def clearTripOp (s : State) : State :=
  if four.any fun c => s.rtsBand c false != 0 then s.inc RTS_REFUSED_COUNT
  else (s.put RTS_STATE_TRIP_LATCH 0).withRts { s.rts with curves := Vector.replicate 4 {} }

/-- CLEAR_TRIP: clears TRIP_LATCH and returns every curve to the continuous band, or is refused and counted (R119). -/
def execClearTrip (s : State) : Host.Outcome State Fault Refusal :=
  .next (s.access .wheel (some .clearTrip) clearTripOp)

/-- The RTS at a firing: CONT, every excursion ended, RECOVERY 1, TRIP_LATCH kept (R121). -/
def State.rtsFiring (s : State) : State :=
  let s1 := s.withRts {}
  let s2 := (((((s1.put RTS_STATE_REGION 0).put RTS_STATE_CURVE 0).put RTS_STATE_EXC 0).put RTS_STATE_FHOLD 0).put
    RTS_STATE_HOLD 0).put RTS_STATE_CHANGES 0
  (s2.put RTS_EXC_TIME_MS 0).each nine fun p s => s.onPair p fun x => { x with holdWanted := false }

end Sys2Proof.Machine
end

