-- ==== Sys2Proof/Machine/Isl.lean ====
section
/-!
DEFINITION. The islanding unit: passive and active detection, impedance estimation, notch retuning, the grid-forming
oscillator and mode transfer (06_islanding_and_mode_transfer.md).
-/

namespace Sys2Proof.Machine

open Sys2Proof

/-- The islanding unit updated. -/
def State.onIsl (s : State) (f : IslUnit → IslUnit) : State := s.withIsl (f s.isl)

/-- The ISL runs: in use, in phase 0x3 or 0x4, its island out of reset (R125, R267). -/
def State.islOn (s : State) : Bool := s.fired && s.up .wheel && s.bit ISL_CFG_EN

/-- The GSU the ISL watches, and the one on the grid side of the breaker (ISL.CFG). -/
def State.islGsu (s : State) : Fin 4 := Fin.ofNat 4 (s.get ISL_CFG_GSU)
def State.resyncGsu (s : State) : Fin 4 := Fin.ofNat 4 (s.get ISL_CFG_RESYNC_GSU)

/-- The estimate last published at offset `j` by GSU `i`. -/
def State.gsuSlot (s : State) (i : Fin 4) (j : Nat) : Word := s.slot ((s.get (GSU_OUTSLOT_BASE i) + j) % 4096)

/-- A GSU's angle θ in accumulator units. -/
def State.gsuAngle (s : State) (i : Fin 4) : Nat := s.gsus[i].acc

/-- ISL.MODE.STATE: 0 GFL, 1 GFM_RAMP, 2 GFM, 3 RESYNC (R138). -/
def State.islMode (s : State) : Nat := s.get ISL_MODE_STATE

/-- The block is a manager or a worker and PTP time is not valid (R130). -/
def State.actSuspPtp (s : State) : Bool := (s.isManager || s.isWorker) && !s.ptpValid

/-- Active detection is suspended (R130). -/
def State.actSusp (s : State) : Bool :=
  s.islMode != 0 || s.bit RTS_STATE_EXC || s.bit SIT_STATUS_BLOCK_STOP || s.actSuspPtp

/-- Slot `j` of the thirteen of R126 published. -/
def State.islPut (s : State) (j : Nat) (v : Word) : State := s.publishBy 3 (some 2) (s.get ISL_OUTSLOT_BASE + j) v

/-- The difference of two angles in accumulator units, wrapped to half a turn either way. -/
def angDiff (a b : Nat) : Int := signed 64 (unsigned 64 ((a : Int) - b))

/-- An angle difference in degrees and in radians as float32. -/
def angDeg (d : Int) : Word := fratio (d * 360) (2 ^ 64)
def angRad (d : Int) : Word := fratio (d * (2 * piE40 : Nat)) (2 ^ 64 * 10 ^ 40)

/-- Degrees as accumulator units, to the nearest. -/
def degUnits (w : Word) : Int := roundRat (fval w * 2 ^ 64) (360 * 2 ^ 149)

/-- θout = θF + OFS_ANG (R137). -/
def State.thetaOut (s : State) : Nat := turnAdd s.isl.acc (degUnits s.isl.ofsAng)

/-- The outputs of a tick: slots +0, +1 and +6 to +12 (R126); slot +1 is 0 under a block stop and while active detection is suspended
(R130). Slots +1 to +4 keep their values after a block stop until they are published next. (DESIGN CHOICE, log entry 144.) -/
def State.islPublish (s : State) : State :=
  let x := s.isl
  let stop := s.bit SIT_STATUS_BLOCK_STOP
  let pert := match x.pulse with
    | some p => if stop || s.actSusp then 0 else fratio (if p.pos then (p.amp : Int) else -(p.amp : Int)) 1000
    | none => 0
  let words : List (Nat × Word) := [(0, (s.view 0x42200104).truncate 32), (1, pert),
    (6, (fadd x.vf x.ofsMag).1), (7, (fdiv x.w fTwoPi).1), (8, x.ofsAng), (9, x.est.1), (10, x.est.2.1), (11, x.est.2.2),
    (12, (s.view 0x42200108).truncate 32)]
  s.each words fun e s => s.islPut e.1 e.2

/-! ### Detection (R127 to R132) -/

/-- Islanding is declared by source `src` of MODE.DET_SRC; what follows is done at the tick's publication (R131). -/
def State.islDeclare (s : State) (src : Nat) : State :=
  let s1 := s.put ISL_STATUS_DETECTED 1
  if s.bit ISL_MODE_DET then s1
  else ((s1.put ISL_MODE_DET 1).put ISL_MODE_DET_SRC src).onIsl fun x => { x with acts := true }

/-- Presets of an earlier transfer are still to be applied (R138). -/
def State.presetsWait (s : State) : Bool := s.isl.armed.any fun e => s.get (ISL_PRE_LIST e) < 2

/-- A command refused without a stop (R138). -/
def State.islCmdRefuse (s : State) : State := (s.put ISL_STATUS_CMD_REFUSED 1).inc ISL_REFUSED_COUNT

/-- A transfer command: 1 TO_GFM, 2 TO_GFL, 3 RESYNC (R138, R142). Transfers are decided at the deciding tick. -/
def State.islTransfer (s : State) (c : Nat) : State :=
  let m := s.islMode
  if !s.fired then s
  else if s.presetsWait then s.islCmdRefuse
  else
    let zero := fun (x : IslUnit) => { x with ofsAng := 0, ofsMag := 0 }
    match c with
    | 1 =>
      if m = 0 then s.onIsl fun x => { x with cmd := some true }
      else if m = 3 then ((s.put ISL_MODE_STATE 2).put ISL_MODE_SYNC_OK 0).onIsl zero
      else s
    | 2 => if m = 0 then s else s.onIsl fun x => { x with cmd := some false }
    | 3 => if m = 1 || m = 2 then (s.put ISL_MODE_STATE 3).onIsl zero else s
    | _ => s

/-- A detection acted on by the block itself (R131). -/
def State.islLocal (s : State) : State :=
  match s.get ISL_CFG_ACTION with
  | 1 => s.raiseStop .islanding 0
  | 2 => s.when (s.bit ISL_CTRL_AUTO) (·.islTransfer 1)
  | _ => s

/-- A detection acted on by a manager: a plant stop, or TO_GFM in the next control frame (R132). -/
def State.islManager (s : State) : State :=
  match s.get ISL_CFG_ACTION with
  | 1 => (s.withSit { s.sit with plantIsl := true }).plantRefresh
  | 2 => s.when (s.bit ISL_CTRL_AUTO) fun s => s.withWlk { s.wlk with islCmd := 1 }
  | _ => s

/-- What a detection leads to (R131, R132). -/
def State.islAct (s : State) : State :=
  if s.isManager then s.islManager
  else if s.isWorker && s.bit ISL_CFG_PLANT_DEFER then s.onIsl fun x => { x with deferCnt := some 0 }
  else s.islLocal

/-- A worker reports a detection: the manager acts on it unless its mode is GFM or GFM_RAMP already (R132). -/
def State.islReport (s : State) : State :=
  if !s.islOn || s.islMode == 1 || s.islMode == 2 then s else s.islManager

/-- |RoCoF| is at the ROCOF threshold (R127). -/
def State.rocofAbove (s : State) : Bool := fge (fabs (s.gsuSlot s.islGsu 1)) (s.get (ISL_PASS_THR 0)) 100

/-- The latest valid L_g differs from the mean of the four before it by at least THR percent (R127). -/
def State.zstepAbove (s : State) : Bool :=
  match s.isl.lgs with
  | [a, b, c, d, e] =>
    let m := fmean [b, c, d, e]
    !flt (fabs (fsub a m).1) (fmul (fratio (s.get (ISL_PASS_THR 3) : Nat) 100) (fabs m)).1
  | _ => false

/-- The watched GSU reports a phase jump of at least THR since the last tick (R127). -/
def State.pjumpAbove (s : State) : Bool :=
  s.isl.jumped && fge (fabs (s.gsuSlot s.islGsu 13)) (max (s.get (ISL_PASS_THR 1)) (s.get (GSU_THR_PJ_THR s.islGsu))) 1

/-- The interval between ISL ticks in 1/128 ns, as a fraction (R125). -/
def State.islTu (s : State) : Nat × Nat := s.unitSpan (s.get ISL_CFG_TRIG_RG) (s.get ISL_CFG_DIV + 1)

/-- d of R127 in pu: the RMS of vα − pα and vβ − pβ over the ticks of one nominal cycle. (DEDUCED, log entry 44.) -/
def State.harmD (s : State) : Word :=
  (fdiv (frms (s.isl.harm.flatMap fun e => [e.1, e.2])) (s.word (GSU_VRATED_VRATED s.islGsu))).1

/-- d less its mean over the preceding 1 s reaches THR; before a full cycle or second of ticks both run over those there are (R127). (DESIGN
CHOICE, log entry 144.) -/
def State.harmAbove (s : State) : Bool :=
  match s.isl.dHist with
  | d :: before => !before.isEmpty && fge (fsub d (fmean before)).1 (s.get (ISL_PASS_THR 2)) 1000
  | [] => false

/-- Method `m`'s condition (R127). -/
def State.passAbove (s : State) (m : Fin 4) : Bool :=
  if m = 0 then s.rocofAbove
  else if m = 1 then s.pjumpAbove
  else if m = 2 then s.harmAbove
  else s.zstepAbove

/-- The HARM quantities of a tick recorded (R127). -/
def State.harmStep (s : State) : State :=
  let g := s.gsus[s.islGsu]
  let a := (fsub g.sogiA.2.2 g.sogiA.1).1
  let b := (fsub g.sogiB.2.2 g.sogiB.1).1
  let s1 := s.onIsl fun x => { x with harm := hist (spanCount s.islTu (s.gsuCycle s.islGsu)) (a, b) x.harm }
  s1.onIsl fun x => { x with dHist := hist (spanCount s.islTu 1000000000 + 1) s1.harmD x.dHist }

/-- ISL_PASSIVE_FIRE: a passive method fires: an alert, or islanding declared; DETECT acts as ALERT during a ride-through
excursion (R127, R128, R131). -/
def execIslPassiveFire (m : Fin 4) (s : State) : Host.Outcome State Fault Refusal :=
  .next (
    let a := s.get (ISL_PASS_ACTION m)
    if !s.islOn || !s.passAbove m || a == 0 || a == 3 then s
    else if a == 1 || s.bit RTS_STATE_EXC then (s.put ISL_STATUS_ALERT 1).onIsl fun x => { x with alert := true }
    else s.islDeclare (m.val + 1))

/-- Pulse period in ns. -/
def State.pulsePeriod (s : State) : Nat := max 1 (10000000 * s.get ISL_ACT_PERIOD)

/-- PTP time in ns. -/
def State.ptpNanos (s : State) : Nat := s.net.ptp.sec * 1000000000 + s.net.ptp.ns

/-- ISL_PULSE_START: at the first tick at or after a scheduled time t_k the pulse starts with the sign of ⌊t_k ÷ PERIOD⌋ and the
present amplitude; after an alert at least with twice PERT_IQ (R127, R129, R130). (DESIGN CHOICE, log entry 144.) -/
def execIslPulseStart (s : State) : Host.Outcome State Fault Refusal :=
  .next (
    if !s.islOn || !s.bit ISL_CFG_ACT_EN || s.actSusp || s.isl.pulse.isSome then s
    else
      let tk := s.ptpNanos - (s.ptpNanos + s.pulsePeriod - 1000000 * s.get ISL_ACT_OFFSET) % s.pulsePeriod
      let a := if s.isl.alert then max s.isl.amp (min (2 * s.get ISL_ACT2_PERT_IQ) (s.get ISL_ACT2_PERT_MAX)) else s.isl.amp
      let pu : Pulse := ⟨tk / s.pulsePeriod % 2 == 0, a, s.gsuSlot s.islGsu 0, s.gsuSlot s.islGsu 2⟩
      (s.onIsl fun x => { x with pulse := some pu, amp := a, alert := false, spoilt := true }).islPublish)

/-- The signature of a response: by Δf if it reaches DF_THR, else by ΔV if that reaches DV_THR (R129). -/
def State.pulseSig (s : State) (p : Pulse) : Option Bool :=
  let df := (fsub (s.gsuSlot s.islGsu 0) p.f0).1
  let dv := (fsub (s.gsuSlot s.islGsu 2) p.v0).1
  if fge (fabs df) (s.get ISL_ACT2_DF_THR) 100 then some (p.pos == flt 0 df)
  else if fge (fabs dv) (s.get ISL_ACT2_DV_THR) 1000 then some (p.pos == flt 0 dv)
  else none

/-- ISL_PULSE_END: the response is measured and counted; CONFIRM responses of one signature declare islanding (R129). A pulse that a
suspension has cut is not measured (R130). -/
def execIslPulseEnd (s : State) : Host.Outcome State Fault Refusal :=
  .next (
    match s.isl.pulse with
    | none => s
    | some p =>
      let s1 := s.onIsl fun x => { x with pulse := none }
      if s.actSusp then s1.islPublish
      else
        match s.pulseSig p with
        | none => (s1.onIsl fun x => { x with count := 0, amp := s.get ISL_ACT2_PERT_IQ }).islPublish
        | some g =>
          let n := if s.isl.count != 0 && s.isl.sig == g then s.isl.count + 1 else 1
          let s2 := (s1.put ISL_STATUS_RESPONSE 1).onIsl fun x => { x with
            count := n, sig := g, amp := min (2 * p.amp) (s.get ISL_ACT2_PERT_MAX) }
          (s2.when (decide (s.get ISL_ACT_CONFIRM ≤ n)) (·.islDeclare 5)).islPublish)

/-! ### Impedance estimation and notch retuning (R133 to R136) -/

/-- Estimator window length in ns. -/
def State.estTw (s : State) : Nat := max 1 (100000000 * s.get ISL_EST_TW)

/-- MYSLOT (R134). -/
def State.estSlot (s : State) : Nat :=
  if s.bit ISL_CFG_SLOT_AUTO then s.get SYS_ROLE_WORKER_NO % max 1 (s.get ISL_EST_NSLOT) else s.get ISL_EST_MYSLOT

/-- PTP time `t` lies in a window of this block (R134). -/
def State.estMine (s : State) (t : Nat) : Bool := t / s.estTw % max 1 (s.get ISL_EST_NSLOT) == s.estSlot

/-- A pulse of active detection is scheduled in the window of PTP time `t`, or in a way that reaches into it (R129, R134). -/
def State.estPulse (s : State) (t : Nat) : Bool :=
  let w0 : Int := (t / s.estTw * s.estTw : Nat)
  let last : Int := w0 + s.estTw - 1
  let tk := last - (last - 1000000 * s.get ISL_ACT_OFFSET) % s.pulsePeriod
  s.bit ISL_CFG_ACT_EN && decide (w0 < tk + 1000000 * s.get ISL_ACT_WIDTH)

/-- The estimator injects now (R134). -/
def State.estInjects (s : State) : Bool :=
  s.islOn && s.bit ISL_CFG_EST_EN && !s.actSusp && s.isl.pulse.isNone && !s.isl.spoilt && s.estMine s.ptpNanos &&
    !s.estPulse s.ptpNanos

/-- The injected amplitude I_k = AMP × √2 × rated RMS current (R133, MET.RATED). -/
def State.toneAmp (s : State) (k : Fin 4) : Word :=
  (fmul (fmul (fratio (s.get (ISL_TONE_AMP k) : Nat) 10000) fSqrt2).1 (s.word MET_RATED_I_I)).1

/-- 2π f_k t in accumulator units, t the PTP time on which the windows lie (R133, R134). (DEDUCED, log entry 44.) -/
def State.toneTurn (s : State) (k : Fin 4) : Nat := s.get (ISL_TONE_FREQ k) * s.ptpNanos * 2 ^ 64 / 1000000000

/-- φ_k (R133). -/
def State.tonePhase (s : State) (k : Fin 4) : Nat := Config.tonePhase (match s.glz.active with | some g => g.digest | none => 0) k

/-- Tones in use. -/
def State.tones (s : State) : List (Fin 4) := four.filter fun k => s.get (ISL_TONE_AMP k) != 0

/-- The tone current of phase `n`: Σ I_k cos(2π f_k t + φ_k − n × 120°), the tones added in their order (R133). -/
def State.toneSum (s : State) (n : Nat) : Word :=
  s.tones.foldl (fun a k =>
    let c := (turnCosSin ((s.toneTurn k + s.tonePhase k + (3 - n) * 2 ^ 64 / 3) % 2 ^ 64)).1
    (fadd a (fmul (s.toneAmp k) c).1).1) 0

/-- ISL_TONE_PUBLISH: in the cycle before each sample start of INJ_RG the tone currents of the three phases are published, or 0 (R126,
R133, R134). -/
def execIslTonePublish (s : State) : Host.Outcome State Fault Refusal :=
  .next (s.when s.islOn fun s0 =>
    let on := s0.estInjects && !s0.bit SIT_STATUS_BLOCK_STOP
    s0.each [0, 1, 2] fun n t => t.islPut (2 + n) (if on then s0.toneSum n else 0))

/-- ISL_ANGLE_PUBLISH: in the cycle before each sample start of ANG_RG slot +5 takes θout + ωF × LEAD (R126, R102). -/
def execIslAnglePublish (s : State) : Host.Outcome State Fault Refusal :=
  .next (s.when s.islOn fun s =>
    s.islPut 5 (turnQ31 (turnAdd s.thetaOut (turnUnits s.isl.w (1000 * s.get ISL_LEAD_LEAD)))))

/-- What a tick adds to a tone's sums: the positive-sequence space vectors of voltage and current turned back by the tone's angle (R135). -/
def toneAdd (c s : Int) (v i : Word × Word × Word) (x : ToneSum) : ToneSum :=
  { vr := x.vr + fval v.1 * c + fval v.2.1 * s, vi := x.vi + fval v.2.1 * c - fval v.1 * s,
    ir := x.ir + fval i.1 * c + fval i.2.1 * s, ii := x.ii + fval i.2.1 * c - fval i.1 * s }

/-- A tick's voltages (the watched GSU's +6 to +8) and currents correlated at each active tone (R135). -/
def State.corrStep (s : State) : State :=
  let g := s.islGsu
  let v := clarke (s.bit (GSU_CFG_WIRING g)) [s.gsuSlot g 6, s.gsuSlot g 7, s.gsuSlot g 8]
  let i := clarke false [s.isl.cur.1, s.isl.cur.2.1, s.isl.cur.2.2]
  let bad := !allFin [v.1, v.2.1, i.1, i.2.1]
  let sums := s.tones.foldl (fun (a : Vector ToneSum 4) k =>
    let r := turnCosSinQ (s.toneTurn k % 2 ^ 64)
    a.set k (toneAdd r.1 r.2 v i a[k])) s.isl.corr
  s.onIsl fun x => { x with corr := sums, corrN := x.corrN + 1, corrBad := x.corrBad || bad }

/-- v(f_k) and i(f_k) of the window: the means of the sums; NaN where the window saw no tick or a number that is not finite (R135). -/
def State.toneMeas (s : State) (k : Fin 4) : ToneMeas :=
  let x := s.isl
  let m := fun (v : Int) => if x.corrN = 0 || x.corrBad then qnan else fsumRound v (2 ^ 96 * x.corrN) false
  ⟨m x.corr[k].vr, m x.corr[k].vi, m x.corr[k].ir, m x.corr[k].ii⟩

/-- L_g and R_g of tone `k` (R135): v ÷ i as a complex quotient. -/
def State.toneZ (s : State) (k : Fin 4) (m : ToneMeas) : Word × Word :=
  let den := (fadd (fmul m.ir m.ir).1 (fmul m.ii m.ii).1).1
  let re := (fdiv (fadd (fmul m.vr m.ir).1 (fmul m.vi m.ii).1).1 den).1
  let im := (fdiv (fsub (fmul m.vi m.ir).1 (fmul m.vr m.ii).1).1 den).1
  ((fdiv im (fmul fTwoPi (fofInt (s.get (ISL_TONE_FREQ k)) 0)).1).1, re)

/-- The resonance estimate f_res of R135 for an effective inductance. -/
def State.estRes (s : State) (lge : Word) : Word :=
  let l1 := s.word (ISL_LCL_VALUE 0)
  let l2 := (fadd (s.word (ISL_LCL_VALUE 1)) lge).1
  (fdiv (fsqrt (fdiv (fadd l1 l2).1 (fmul (fmul l1 l2).1 (s.word (ISL_LCL_VALUE 2))).1).1).1 fTwoPi).1

/-- num ÷ den rounded to float32, with the results of R84 where den is 0. -/
def fquot (num den : Int) : Word :=
  if den = 0 then (if num = 0 then qnan else finf (decide (num < 0)))
  else fsumRound (num * sgnInt (decide (den < 0)) (2 ^ 149)) den.natAbs false

/-- The notch words of R136 step 1 for the resonance `fres`, with r = NOTCH_R and Ts = NOTCH_TS: each computed exactly from the cosine and
rounded once; NaN where an operand is not finite. (DEDUCED, log entry 44.) -/
def State.notchWords (s : State) (fres : Word) : List Word :=
  let rw := s.word (ISL_LCL_VALUE 3)
  let ts := s.word (ISL_LCL_VALUE 4)
  if !allFin [rw, ts, fres] then [qnan, qnan, qnan, qnan, qnan]
  else
    let c := (turnCosSinQ (roundRat (fval fres * fval ts) (2 ^ 234) % (2 ^ 64 : Int)).toNat).1
    let r := fval rw
    let gn := 2 ^ 394 - 2 ^ 150 * r * c + 2 ^ 96 * r * r
    let gd := 2 ^ 298 * (2 ^ 97 - 2 * c)
    [fquot gn gd, fquot (-2 * c * gn) (2 ^ 96 * gd), fquot gn gd, fquot (-2 * r * c) (2 ^ 245), fquot (r * r) (2 ^ 298)]

/-- A retune starts if the estimate calls for one and none runs (R136). -/
def State.retuneStart (s : State) (fres : Word) : State :=
  let v := fun (p : Nat) => s.word (ISL_LCL_VALUE p)
  if s.get ISL_NOTCH_COUNT != 0 && s.isl.retune.isNone && !flt fres (v 6) && !flt (v 7) fres && F32.of fres != .nan &&
      !flt (fabs (fsub fres (s.word ISL_NOTCH_HZ_HZ)).1) (v 5) then
    s.onIsl fun x => { x with retune := some ⟨s.notchWords fres, fres, 1⟩ }
  else s

/-- The PTP time at which window `j` begins (R134). -/
def State.estStart (s : State) (j : Nat) : Nat := j * s.estTw

/-- ISL_EST_WINDOW_END: at the end of window `j`, one of this block's, the tones are correlated; a valid result updates the estimates and
may start a retune, an invalid one sets EST_INVALID; a window that overlapped a disturbance yields nothing (R134 to R136). -/
def execIslEstWindowEnd (j : Nat) (s : State) : Host.Outcome State Fault Refusal :=
  .next (
    let s0 := s.onIsl fun x => { x with spoilt := x.pulse.isSome, corr := Vector.replicate 4 {}, corrN := 0, corrBad := false }
    if !s.islOn || !s.bit ISL_CFG_EST_EN || !s.estMine (s.estStart j) || s.tones.isEmpty then s0
    else if s.isl.spoilt || s.actSusp || s.estPulse (s.estStart j) then s0
    else
      let zs := s.tones.map fun k => s.toneZ k (s.toneMeas k)
      let lg := fmean (zs.map (·.1))
      let rg := fmean (zs.map (·.2))
      let half := s.tones.all fun k => !flt (fmag (s.toneMeas k).ir (s.toneMeas k).ii) (fmul 0x3F000000 (s.toneAmp k)).1
      let near := zs.all fun z => !flt (fmul (fratio (s.get ISL_EST_SPREAD : Nat) 100) lg).1 (fabs (fsub z.1 lg).1)
      let finite := zs.all fun z => F32.of z.1 != .nan && F32.of z.2 != .nan
      if half && near && finite && flt 0 lg then
        let fres := s.estRes (fmul (fofInt (s.get ISL_EST_NSCALE) 0) lg).1
        ((s0.onIsl fun x => { x with lgs := hist 5 lg x.lgs, est := (lg, rg, fres) }).retuneStart fres).islPublish
      else (s0.put ISL_STATUS_EST_INVALID 1).islPublish)

/-- The Wheels of ISL.NOTCH. -/
def State.notchWheels (s : State) : List (Fin 64) :=
  sixtyFour.filter fun w => decide (s.get ISL_NOTCH_FIRST ≤ w.val) && decide (w.val < s.get ISL_NOTCH_FIRST + s.get ISL_NOTCH_COUNT)

/-- The notch words written to the inactive bank of every named Wheel (R136). -/
def State.notchStore (s : State) (ws : List Word) : State :=
  s.each s.notchWheels fun w s => s.each (List.range 5) fun i s =>
    s.bankPut w (1 - s.activeBank w) (s.get ISL_NOTCH_ADDR + i) (ws.getD i 0)

/-- The rate group of the notch's Wheels. -/
def State.notchGroup (s : State) : Option Nat := s.wheels[(Fin.ofNat 64 (s.get ISL_NOTCH_FIRST))].decl.group

/-- A notch write may begin: the group has no swap pending (R136 step 2). -/
def State.notchFree (s : State) : Bool :=
  match s.notchGroup with
  | some k => eight.all fun j => j.val != k || s.groups[j].swap.isNone
  | none => true

/-- ISL_NOTCH_WRITE: with no swap pending the new words go to the inactive banks, and the notch swap is requested (R136). -/
def execIslNotchWrite (s : State) : Host.Outcome State Fault Refusal :=
  .next (
    match s.isl.retune with
    | some r =>
      if r.stage = 1 && s.notchFree then
        ((s.notchStore r.words).put ISL_MODE_RETUNE_BUSY 1).onIsl fun x => { x with retune := some { r with stage := 2 } }
      else s
    | none => s)

/-- The notch swap at a sample start of group `k`: the five words exchanged between the banks of every named Wheel, omitted where
a full swap is carried out at the same sample start (R136 step 4). -/
def State.notchSwap (s : State) (k : Fin 8) (full : Bool) : State :=
  match s.isl.retune with
  | some r =>
    if r.stage = 2 && s.notchGroup == some k.val then
      let s1 := s.onIsl fun x => { x with retune := some { r with stage := 3 } }
      if full then s1
      else s1.each s1.notchWheels fun w t => t.each (List.range 5) fun i t =>
        let a := s.get ISL_NOTCH_ADDR + i
        (t.bankPut w 0 a (s.bankGet w 1 a)).bankPut w 1 a (s.bankGet w 0 a)
    else s
  | none => s

/-- ISL_NOTCH_MIRROR: after the notch swap the words go into the inactive bank too; NOTCH_HZ and RETUNED tell of it (R136 step
5). -/
def execIslNotchMirror (s : State) : Host.Outcome State Fault Refusal :=
  .next (
    match s.isl.retune with
    | some r =>
      if r.stage = 3 then
        ((((s.notchStore r.words).put ISL_NOTCH_HZ_HZ r.hz.toNat).put ISL_STATUS_RETUNED 1).put ISL_MODE_RETUNE_BUSY 0).onIsl
          fun x => { x with retune := none, retunes := x.retunes + 1 }
      else s
    | none => s)

/-! ### Commands (R131, R138, R142, R143) -/

/-- Preset list `l` armed (R140, R143). -/
def State.armList (s : State) (l : Nat) : State :=
  let new := (List.range 16).filter fun e => s.bit (ISL_PRE_EN e) && s.get (ISL_PRE_LIST e) == l && !s.isl.armed.contains e
  s.onIsl fun x => { x with armed := x.armed ++ new }

/-- A passive method with ACTION 2 is above its threshold now (R131). -/
def State.detectAbove (s : State) : Bool := four.any fun m => s.get (ISL_PASS_ACTION m) == 2 && s.passAbove m

/-- CLEAR_DET (R131). -/
def State.clearDetOp (s : State) : State :=
  if s.detectAbove then s.inc ISL_REFUSED_COUNT
  else (((s.put ISL_MODE_DET 0).put ISL_MODE_DET_SRC 0).withSit { s.sit with plantIsl := false }).onIsl
    fun x => { x with acts := false, deferCnt := none }

/-- ISL.CTRL.CMD (R131, R138, R143): 1 TO_GFM, 2 TO_GFL, 3 RESYNC, 4 PRESET_L2, 5 PRESET_L3, 6 CLEAR_DET; others ignored. (DEDUCED, log entry 44.) -/
def islCmdOp (c : Nat) (s : State) : State :=
  match c with
  | 1 => s.islTransfer 1
  | 2 => s.islTransfer 2
  | 3 => s.islTransfer 3
  | 4 => s.armList 2
  | 5 => s.armList 3
  | 6 => s.clearDetOp
  | _ => s

/-- A write of ISL.CTRL.CMD (R138). -/
def State.islCmdWrite (s : State) (c : Nat) : State := s.access .wheel (some (.islCmd c)) (islCmdOp c)

/-- TO_GFM (R138, R139). -/
def execToGfm (s : State) : Host.Outcome State Fault Refusal := .next (s.islCmdWrite 1)

/-- TO_GFL (R138, R139). -/
def execToGfl (s : State) : Host.Outcome State Fault Refusal := .next (s.islCmdWrite 2)

/-- RESYNC (R138, R142). -/
def execResync (s : State) : Host.Outcome State Fault Refusal := .next (s.islCmdWrite 3)

/-- PRESET_L2 (R143). -/
def execPresetL2 (s : State) : Host.Outcome State Fault Refusal := .next (s.islCmdWrite 4)

/-- PRESET_L3 (R143). -/
def execPresetL3 (s : State) : Host.Outcome State Fault Refusal := .next (s.islCmdWrite 5)

/-- CLEAR_DET (R131). -/
def execClearDet (s : State) : Host.Outcome State Fault Refusal := .next (s.islCmdWrite 6)

/-! ### The oscillator and transfers (R137 to R144) -/

/-- A value moved towards 0 by `d` without overshoot (R141). -/
def towardZero (v d : Word) : Word := if !flt d (fabs v) then 0 else if flt 0 v then (fsub v d).1 else (fadd v d).1

/-- The grid-forming oscillator's step at a tick (R137, R144). -/
def State.gfoStep (s : State) : State :=
  if !s.bit ISL_CFG_GFO_EN then s
  else
    let g := fun (p : Nat) => s.word (ISL_GFO_VALUE p)
    let tu := spanSec s.islTu
    let m := s.islMode
    let x := s.isl
    let i := s.islGsu
    let seed := m = 0 && !x.seeded && s.bit (GSU_STATUS_LOCKED i)
    let acc := if seed then s.gsuAngle i else x.acc
    let pf := if flt 0 (g 4) then (fadd x.pf (fmul (fdiv tu (g 4)).1 (fsub x.p x.pf).1).1).1 else x.p
    let nom := (fmul fTwoPi (fofInt (s.gsuNom i) 0)).1
    let w0 := (fmul nom (fsub 0x3F800000 (fmul (g 0) (fsub pf (s.word ISL_PSET_PSET)).1).1).1).1
    let w1 := if m = 0 then (fadd w0 (fmul (fmul fTwoPi (g 3)).1 (angRad (angDiff (s.gsuAngle i) acc))).1).1 else w0
    let w2 := if m = 3 then (fadd w1 (fmul (fmul fTwoPi (g 5)).1 (angRad (angDiff (s.gsuAngle s.resyncGsu) acc))).1).1 else w1
    let w3 := (fclamp w2 (fmul fTwoPi (fofInt 40 0)).1 (fmul fTwoPi (fofInt 70 0)).1).1
    let vf := if m = 3 then (fadd x.vf (fmul (fmul (fmul (fsub (s.gsuSlot s.resyncGsu 2) x.vf).1 tu).1 fTwoPi).1 (g 5)).1).1
      else (fsub (g 2) (fmul (g 1) (fsub x.q (s.word ISL_QSET_QSET)).1).1).1
    s.onIsl fun x => { x with
      acc := acc, seeded := x.seeded || seed, pf := pf, vf := vf, w := if seed then s.gsus[i].w else w3 }

/-- The offsets' ramp in GFM_RAMP, which ends in GFM (R141). -/
def State.islRamp (s : State) : State :=
  if s.islMode != 1 then s
  else
    let tu := spanSec s.islTu
    let a := towardZero s.isl.ofsAng (fmul (fofInt (s.get ISL_XRATE_ANG_RATE) 0) tu).1
    let b := towardZero s.isl.ofsMag (fmul (fratio (s.get ISL_XRATE_MAG_RATE : Nat) 100) tu).1
    let s1 := s.onIsl fun x => { x with ofsAng := a, ofsMag := b }
    s1.when (a == 0 && b == 0) (·.put ISL_MODE_STATE 2)

/-- The conditions of resynchronisation (R142). -/
def State.syncConds (s : State) : Bool :=
  let d := angDiff (s.gsuAngle s.resyncGsu) s.thetaOut
  s.islMode == 3 && decide (d.natAbs * 360 < 2 * 2 ^ 64) &&
    flt (fabs (fsub (s.gsuSlot s.resyncGsu 2) s.isl.vf).1) (fratio 2 100) &&
    flt (fabs (fsub (s.gsuSlot s.resyncGsu 0) (fdiv s.isl.w fTwoPi).1).1) (fratio 5 100)

/-- ISL_TICK_PUBLISH: at the tick's publication instant the oscillator and the ramp take their step, the mode word and the
outputs are published, and detections are acted on (R125, R126, R131, R137, R141). -/
def execIslTickPublish (s : State) : Host.Outcome State Fault Refusal :=
  .next (
    if !s.islOn || !s.isl.due then s
    else
      let s1 := (((s.onIsl fun x => { x with due := false, jumped := false }).harmStep.corrStep.gfoStep).islRamp).putB ISL_MODE_ACT_SUSP s.actSuspPtp
      let s2 := s1.when (!s1.syncConds) (·.put ISL_MODE_SYNC_OK 0)
      let s3 := s2.when s2.actSusp (·.onIsl fun x => { x with spoilt := true, pulse := none })
      let s4 := s3.when s3.isl.acts fun s => (s.onIsl fun x => { x with acts := false }).islAct
      s4.islPublish)

/-- A sample start of group `k` reaches the ISL: its tick at every (DIV + 1)th of TRIG_RG (R125). -/
def State.islStart (s : State) (k : Fin 8) : State :=
  if s.islOn && s.get ISL_CFG_TRIG_RG == k.val then
    if s.get ISL_CFG_DIV ≤ s.isl.divCnt then
      let b := s.get ISL_INSLOT_PQ_BASE
      let c := fun (j : Nat) => s.slot ((s.get ISL_INSLOT_CUR_BASE + j) % 4096)
      s.onIsl fun x => { x with
        divCnt := 0, due := true, p := s.slot b, q := s.slot ((b + 1) % 4096), cur := (c 0, c 1, c 2) }
    else s.onIsl fun x => { x with divCnt := x.divCnt + 1 }
  else s

/-- A transfer accepted (R140). -/
def State.islAccept (s : State) (gfm : Bool) (dAng : Int) (dMag : Word) : State :=
  let s1 := (((s.put ISL_MODE_STATE (bitOf gfm)).incWrap ISL_MODE_XFERS).put ISL_STATUS_XFER_DONE 1).put ISL_MODE_SYNC_OK 0
  let s2 := s1.onIsl fun x => { x with ofsAng := if gfm then angDeg dAng else 0, ofsMag := if gfm then dMag else 0 }
  let bank := bitOf (s.bitAt ISL_XFER_MODE_BANK (bitOf gfm))
  let s3 := s2.each eight fun k s =>
    s.when (s.get (RGS_RG_CFG_SWAP_SRC k) == 2) (·.swapRequest k { bank := bank, hw := true, atPlant := false })
  (s3.armList (if gfm then 0 else 1)).islPublish

/-- ISL_TRANSFER_DECIDE: at the deciding tick the outgoing and incoming phasors are compared; within the bounds the transfer is
accepted, else it is refused with a block stop of cause MODE_TRANSFER (R139, R140). -/
def execIslTransferDecide (s : State) : Host.Outcome State Fault Refusal :=
  .next (
    match s.isl.cmd with
    | none => s
    | some gfm =>
      let s1 := s.onIsl fun x => { x with cmd := none }
      let i := s.islGsu
      let dAng := if gfm then angDiff (s.gsuAngle i) s.isl.acc else angDiff s.thetaOut (s.gsuAngle i)
      let v := s.gsuSlot i 2
      let dMag := if gfm then (fsub v s.isl.vf).1 else (fsub (fadd s.isl.vf s.isl.ofsMag).1 v).1
      let ovf := decide (s.get ISL_XFER_ANG_BOUND * 2 ^ 64 < dAng.natAbs * 360) ||
        flt (fratio (s.get ISL_XFER_MAG_BOUND : Nat) 100) (fabs dMag)
      if !s.islOn then s1
      else if ovf then ((s1.put ISL_STATUS_XFER_REFUSED 1).inc ISL_REFUSED_COUNT).raiseStop .modeTransfer 0
      else s1.islAccept gfm dAng dMag)

/-- ISL_SYNC_OK: the conditions of resynchronisation have held together for 100 ms (R142). -/
def execIslSyncOk (s : State) : Host.Outcome State Fault Refusal :=
  .next (s.when (s.islOn && s.syncConds) (·.put ISL_MODE_SYNC_OK 1))

/-- ISL_DEFER_EXPIRY: a deferring worker has seen DEFER_MAX plant periods pass without a mode command (R132). -/
def execIslDeferExpiry (s : State) : Host.Outcome State Fault Refusal :=
  .next (
    match s.isl.deferCnt with
    | some n =>
      if s.islOn && decide (s.get ISL_XFER_DEFER_MAX ≤ n) then (s.onIsl fun x => { x with deferCnt := none }).islLocal else s
    | none => s)

/-- A mode command of the manager's control frame taken at the boundary (R132, R138): a worker shows DET_SRC MANAGER if it had
not detected the island itself. -/
def State.islFromManager (s : State) (c : Nat) : State :=
  if c = 0 ∨ !s.islOn then s
  else
    let s1 := s.onIsl fun x => { x with deferCnt := none }
    let s2 := s1.when (c == 1 && s.isWorker && !s.bit ISL_MODE_DET) (·.put ISL_MODE_DET_SRC 6)
    s2.islTransfer c

/-- The ISL at a firing (R144). -/
def State.islFiring (s : State) : State :=
  let init := s.bit ISL_CFG_INIT_MODE
  let nom := (fmul fTwoPi (fofInt (s.gsuNom s.islGsu) 0)).1
  let s1 := s.onIsl fun _ => { amp := s.get ISL_ACT2_PERT_IQ, seeded := init, w := nom, spoilt := true }
  (((((((s1.withSit { s1.sit with plantIsl := false }).put ISL_MODE_STATE (if init then 2 else 0)).put ISL_MODE_DET 0).put
    ISL_MODE_DET_SRC 0).put ISL_MODE_XFERS 0).put ISL_MODE_RETUNE_BUSY 0).put ISL_MODE_SYNC_OK 0).put ISL_NOTCH_HZ_HZ
    (s.get (ISL_LCL_VALUE 8))

/-- θF advanced by `cycles` WHEEL cycles (R137). -/
def State.islAdvance (s : State) (cycles : Nat) : State :=
  s.when (s.islOn && s.bit ISL_CFG_GFO_EN) (·.onIsl fun x =>
    { x with acc := turnAdd x.acc (cycles * turnUnits x.w 1250) })

end Sys2Proof.Machine
end

