-- ==== Sys2Proof/Machine/Dci.lean ====
section
/-!
DEFINITION. The DC input unit: averages and dP/dV, the I-V sweep engine, battery limits (08_dc_inputs_and_mppt.md).
-/

namespace Sys2Proof.Machine

open Sys2Proof

/-- The six legs. -/
def six : List (Fin 6) := [0, 1, 2, 3, 4, 5]

/-- Leg `l` updated. -/
def State.onLeg (s : State) (l : Fin 6) (f : DciLeg → DciLeg) : State :=
  s.withDci { s.dci with legs := s.dci.legs.set l (f s.dci.legs[l]) }

/-- The sweep engine set. -/
def State.setSweep (s : State) (w : Option Sweep) : State := s.withDci { s.dci with sweep := w }

/-- Modes of a leg: 0 OFF, 1 PV, 2 BATT (R158). -/
def State.legMode (s : State) (l : Fin 6) : Nat := s.get (DCI_LEG_CFG_MODE l)

/-- The pair that carries leg `l`: DC legs are numbered upwards from the first pair after the AC legs (R29). -/
def State.legPair (s : State) (l : Fin 6) : Option (Fin 9) :=
  let base := match s.topClass with
    | 2 => if s.glz.active.any fun g => g.image.fourthLeg then 4 else 3
    | 4 => 3
    | _ => 6
  if h : base + l.val < 9 then some ⟨base + l.val, h⟩ else none

/-- The leg's Setter tile is armed (R163). -/
def State.legArmed (s : State) (l : Fin 6) : Bool :=
  match s.legPair l with
  | some p => (s.tileOf p).any fun n => s.bit (SET_STATUS_ARMED n)
  | none => false

/-- The DCI runs. -/
def State.dciOn (s : State) : Bool := s.fired && s.up .wheel && s.bit DCI_CFG_EN

/-- Interval between updates in 1/128 ns, as a fraction (R158). -/
def State.dciTu (s : State) : Nat × Nat := s.unitSpan (s.get DCI_CFG_TRIG_RG) (s.get DCI_CFG_DIV + 1)

/-- Parameter `p` of leg `l` (DCI.LEGl.PARp). -/
def State.legPar (s : State) (l : Fin 6) (p : Nat) : Word := s.word (DCI_LEG_PAR_VALUE l p)

/-- A sample start of group `k` reaches the DCI: an update at every (DIV + 1)th of TRIG_RG, with the leg slots as that sample
start sees them (R158). -/
def State.dciStart (s : State) (k : Fin 8) : State :=
  if s.dciOn && s.get DCI_CFG_TRIG_RG == k.val then
    if s.get DCI_CFG_DIV ≤ s.dci.divCnt then
      (s.withDci { s.dci with divCnt := 0, due := true }).each six fun l t =>
        t.when (t.legMode l == 1 || t.legMode l == 2) (·.onLeg l fun x =>
          { x with v := s.slot (s.get (DCI_LEG_CFG_VSLOT l)), i := s.slot (s.get (DCI_LEG_CFG_ISLOT l)) })
    else s.withDci { s.dci with divCnt := s.dci.divCnt + 1 }
  else s

/-! ### Requests (R162) -/

/-- A sweep request for leg `l`: merged into a pending one or a running sweep, ignored and counted for a leg not in PV mode. -/
def State.sweepRequest (s : State) (l : Fin 6) : State :=
  if s.legMode l != 1 then s.inc DCI_REFUSED_COUNT
  else if s.dci.sweep.any fun w => w.leg == l then s
  else s.put (DCI_LEG_STATUS_PENDING l) 1

/-- DCI_SWEEP_REQUEST: DCI.CTRL.SWEEP (R162). -/
def dciSweepRequestOp (l : Fin 6) (s : State) : State := s.sweepRequest l

/-- DCI_SWEEP_REQUEST (R162). -/
def execDciSweepRequest (l : Fin 6) (s : State) : Host.Outcome State Fault Refusal :=
  .next (s.access .wheel (some (.dciSweepRequest l)) (dciSweepRequestOp l))

/-- DCI_SWEEP_TIMER: a PV leg's timer of SWP_PERIOD seconds expires (R162). -/
def execDciSweepTimer (l : Fin 6) (s : State) : Host.Outcome State Fault Refusal :=
  .next (s.when (s.dciOn && s.legMode l == 1 && flt 0 (s.word (DCI_SWP_PAR_VALUE 4))) (·.sweepRequest l))

/-! ### The update (R159, R160, R167, R168) -/

/-- The end of an averaging block (R159), and a power-drop request (R162). -/
def State.legBlock (s : State) (l : Fin 6) (b : List (Word × Word)) : State :=
  let x := s.dci.legs[l]
  let vk := fmean (b.map (·.1))
  let ik := fmean (b.map (·.2))
  let pk := (fmul vk ik).1
  let dv := (fsub vk x.vk).1
  let dp := (fsub pk x.pk).1
  let least := s.word (DCI_SWP_PAR_VALUE 2)
  let valid := x.known && !flt (fabs dv) least && F32.of dv != .nan && F32.of least != .nan
  let n := spanCount (s.dciTu.1 * max 1 (s.get DCI_CFG_NAVG), s.dciTu.2) 1000000000
  let recent := hist n pk x.recent
  let top := recent.foldl (fun m p => (fmax m p).1) pk
  let drop := s.word (DCI_SWP_PAR_VALUE 3)
  let fell := s.legMode l == 1 && flt 0 drop && flt pk top && !flt (fsub top pk).1 (fmul top (fdiv drop (fofInt 100 0)).1).1
  let s1 := (s.onLeg l fun x => { x with
    block := [], vk := vk, ik := ik, pk := pk, known := true, recent := recent,
    dpdv := if valid then (fdiv dp dv).1 else x.dpdv }).putB (DCI_LEG_STATUS_DVALID l) valid
  s1.when fell (·.sweepRequest l)

/-- A leg's averages after one more update (R159). -/
def State.legAverage (s : State) (l : Fin 6) : State :=
  let x := s.dci.legs[l]
  let b := x.block ++ [(x.v, x.i)]
  if s.get DCI_CFG_NAVG ≤ b.length then s.legBlock l b else s.onLeg l fun x => { x with block := b }

/-- The battery leg lies outside VMIN to VMAX, by the last block's voltage (R168). -/
def State.outNow (s : State) (l : Fin 6) : Bool :=
  s.dci.legs[l].known && (flt s.dci.legs[l].vk (s.legPar l 0) || flt (s.legPar l 1) s.dci.legs[l].vk)

/-- Consecutive updates on the side of the window other than the one OUT_WIN tells (R168). -/
def State.legWindow (s : State) (l : Fin 6) : State :=
  s.when (s.legMode l == 2) fun s =>
    let other := s.outNow l != s.bit (DCI_LEG_STATUS_OUT_WIN l)
    s.onLeg l fun x => { x with outCnt := if other then x.outCnt + 1 else 0 }

/-- Current limits of a battery leg: charge and discharge (R168). -/
def State.battLimits (s : State) (l : Fin 6) : Word × Word :=
  let v := s.dci.legs[l].vk
  let one : Word := 0x3F800000
  ((fmul (s.legPar l 2) (fclamp (fdiv (fsub (s.legPar l 1) v).1 (s.legPar l 4)).1 0 one).1).1,
   (fmul (s.legPar l 3) (fclamp (fdiv (fsub v (s.legPar l 0)).1 (s.legPar l 4)).1 0 one).1).1)

/-- Voltage of sweep point `k` (R164). -/
def State.sweepV (s : State) (l : Fin 6) (k : Nat) : Word :=
  let lo := s.legPar l 0
  let hi := s.legPar l 1
  if k = 255 then hi else (fadd lo (fmul (fofInt k 0) (fdiv (fsub hi lo).1 (fofInt 255 0)).1).1).1

/-- The point a sweep visits: 255 down to 0, or 0 up to 255 (R164). -/
def Sweep.point (w : Sweep) : Nat := (if w.down then 255 - w.done else w.done) % 256

/-- Where the reference of a sweep moves to. -/
def State.sweepTarget (s : State) (w : Sweep) : Word :=
  match w.ph with
  | .ramp | .dwell => s.sweepV w.leg w.point
  | .home => s.sweepV w.leg w.kmax
  | .back => w.vs

/-- The reference one update further at SLEW (R164). -/
def State.slewed (s : State) (v target : Word) : Word :=
  let step := (fmul (s.word (DCI_SWP_PAR_VALUE 0)) (fratio (s.dciTu.1 : Nat) (s.dciTu.2 * 128000000))).1
  let d := (fsub target v).1
  if !flt step (fabs d) then target else if flt 0 d then (fadd v step).1 else (fsub v step).1

/-- The engine stops and clears SWEEP and BUSY. -/
def State.sweepEnd (s : State) (l : Fin 6) : State :=
  ((s.setSweep none).put (DCI_LEG_STATUS_SWEEP l) 0).put DCI_SWP_STATUS_BUSY 0

/-- An abort is recorded: RESULT.ABORTED with the points recorded, the count, the interrupt; the request is dropped (R165). -/
def State.sweepAborted (s : State) (w : Sweep) : State :=
  ((((s.put (DCI_LEG_RESULT_ABORTED w.leg) 1).put (DCI_LEG_RESULT_VALID w.leg) w.done).inc DCI_SWP_STATUS_ABORTS).put
    DCI_INT_ABORTED 1).put (DCI_LEG_STATUS_PENDING w.leg) 0

/-- The engine's part of an update: a block stop or a disarmed tile ends it without a ramp; else the reference moves, or the
dwell goes on (R164, R165). -/
def State.sweepUpdate (s : State) : State :=
  match s.dci.sweep with
  | none => s
  | some w =>
    if s.bit SIT_STATUS_BLOCK_STOP || !s.legArmed w.leg then
      (if w.ph == .back then s else s.sweepAborted w).sweepEnd w.leg
    else if w.ph == .dwell then
      s.setSweep (some { w with meas := (s.dci.legs[w.leg].v, s.dci.legs[w.leg].i) :: w.meas })
    else
      let ref := s.slewed w.ref (s.sweepTarget w)
      let at_ := ref == s.sweepTarget w
      s.setSweep (some { w with ref := ref, ph := if at_ && w.ph == .ramp then .dwell else w.ph, meas := [] })

/-- Slot `j` of the DCI's outputs published. -/
def State.dciPut (s : State) (j : Nat) (v : Word) : State := s.publishBy 3 (some 3) (s.get DCI_OUTSLOT_BASE + j) v

/-- A leg's slots published (R160): +0 to +3 where a block has ended with this update, +4 and +5 once a first block has, +6 always.
(DEDUCED, log entry 45.) -/
def State.legPublish (s : State) (l : Fin 6) : State :=
  let x := s.dci.legs[l]
  let batt := s.legMode l == 2
  let sw := s.dci.sweep.filter fun w => w.leg == l
  let vref := match sw with | some w => w.ref | none => x.vref.getD x.vk
  let phold := match sw with | some w => w.phold | none => x.pk
  let lim := s.battLimits l
  let words : List Word := [x.vk, x.ik, x.pk, (if batt then 0 else x.dpdv), (if batt then lim.1 else vref),
    (if batt then lim.2 else phold), (s.view (DCI_LEG_STATUS_SEQ l).addr).truncate 32]
  let due := (if x.block.isEmpty then [0, 1, 2, 3] else []) ++ (if x.known then [4, 5] else []) ++ [6]
  let s1 := s.each due fun j s => s.dciPut (8 * l.val + j) (words.getD j 0)
  s1.onLeg l fun x => { x with vref := none }

/-- PCOMP: PHOLD − p_k of the leg swept or returning, else 0 (R167). -/
def State.pcomp (s : State) : Word :=
  match s.dci.sweep with
  | some w => (fsub w.phold s.dci.legs[w.leg].pk).1
  | none => 0

/-- The common slots published (R160). -/
def State.dciCommon (s : State) : State :=
  (s.dciPut 48 s.pcomp).dciPut 49 ((s.view DCI_SWP_STATUS_BUSY.addr).truncate 32)

/-- DCI_PUBLISH: in the 160th cycle after its sample start an update is completed and published (R158 to R160, R162 to R168). -/
def execDciPublish (s : State) : Host.Outcome State Fault Refusal :=
  .next (
    if !s.dciOn || !s.dci.due then s
    else
      let used := six.filter fun l => s.legMode l == 1 || s.legMode l == 2
      let s1 := (s.withDci { s.dci with due := false }).each used fun l s => (s.legAverage l).legWindow l
      ((s1.sweepUpdate).each used fun l s => s.legPublish l).dciCommon)

/-! ### Sweeps (R163 to R165) -/

/-- Sweep window length in ns. -/
def State.sweepTw (s : State) : Nat := max 1 (100000000 * s.get DCI_SWP_CFG_TW)

/-- MYSLOT of the sweep windows (R163). -/
def State.sweepSlot (s : State) : Nat :=
  if s.bit DCI_SWP_CFG_SLOT_AUTO then s.get SYS_ROLE_WORKER_NO % (s.get DCI_SWP_CFG_NSLOT + 1) else s.get DCI_SWP_CFG_MYSLOT

/-- The number of the window on PTP time (R163). -/
def State.sweepWin (s : State) : Nat := s.ptpNanos / s.sweepTw

/-- PTP time lies in a sweep window of this block (R163). -/
def State.sweepMine (s : State) : Bool := s.sweepWin % (s.get DCI_SWP_CFG_NSLOT + 1) == s.sweepSlot

/-- The conditions of R163 hold for leg `l`. -/
def State.sweepAllowed (s : State) (l : Fin 6) : Bool :=
  s.fired && !s.bit SIT_STATUS_BLOCK_STOP && s.legArmed l && !s.bit RTS_STATE_EXC &&
    (s.get ISL_MODE_STATE == 0 || !s.bit ISL_CFG_EN)

/-- DCI_SWEEP_WINDOW_START: the engine takes the lowest-numbered pending leg that may be swept and latches Vs, PHOLD and the
DC-link voltage; the reference sets out for the nearer of VLO and VHI (R163, R164). -/
def execDciSweepWindowStart (s : State) : Host.Outcome State Fault Refusal :=
  .next (
    if !s.dciOn || s.dci.sweep.isSome || !s.sweepMine then s
    else
      match six.find? fun (l : Fin 6) => s.bit (DCI_LEG_STATUS_PENDING l) && s.sweepAllowed l with
      | none => s
      | some l =>
        let x := s.dci.legs[l]
        let dLo := fabs (fsub x.vk (s.legPar l 0)).1
        let dHi := fabs (fsub (s.legPar l 1) x.vk).1
        let w : Sweep :=
          { leg := l, win := s.sweepWin, vs := x.vk, phold := x.pk, link := s.slot (s.get DCI_CFG_LINK_SLOT), down := !flt dLo dHi, ref := x.vk }
        ((((s.setSweep (some w)).put (DCI_LEG_STATUS_PENDING l) 0).put (DCI_LEG_STATUS_SWEEP l) 1).put DCI_SWP_STATUS_BUSY 1).put
          DCI_SWP_STATUS_LEG l |>.put DCI_SWP_STATUS_POINT w.point)

/-- Power of recorded point `k` (R164). -/
def State.sweepP (s : State) (l : Fin 6) (k : Nat) : Word := (fmul (s.word (DCI_CURVE_V l k)) (s.word (DCI_CURVE_I l k))).1

/-- The point of highest power, the lower number on a tie (R164). -/
def State.sweepKmax (s : State) (l : Fin 6) : Nat :=
  (List.range 256).foldl (fun m k => if flt (s.sweepP l m) (s.sweepP l k) then k else m) 0

/-- Points whose power exceeds both neighbours' by at least PEAK_HYST percent (R164). -/
def State.sweepPeaks (s : State) (l : Fin 6) : Nat :=
  let h := fratio (100 + s.get DCI_SWP_CFG_PEAK_HYST : Nat) 100
  let above := fun (k j : Nat) => flt (s.sweepP l j) (s.sweepP l k) && !flt (s.sweepP l k) (fmul (s.sweepP l j) h).1
  (List.range 256).countP fun k => (k == 0 || above k (k - 1)) && (k == 255 || above k (k + 1))

/-- DCI_SWEEP_POINT: a dwell of DWELL updates has ended; the means of its last half are recorded and the engine moves on, after
the last point towards VMPP (R164). -/
def execDciSweepPoint (s : State) : Host.Outcome State Fault Refusal :=
  .next (
    match s.dci.sweep with
    | none => s
    | some w =>
      if w.ph == .dwell && decide (s.get DCI_SWP_CFG_DWELL ≤ w.meas.length) then
        let half := w.meas.take (s.get DCI_SWP_CFG_DWELL / 2)
        let k := w.point
        let s1 := (s.put (DCI_CURVE_V w.leg k) (fmean (half.map (·.1))).toNat).put (DCI_CURVE_I w.leg k) (fmean (half.map (·.2))).toNat
        let w1 := { w with done := w.done + 1, ph := .ramp, meas := [] }
        if w1.done < 256 then (s1.setSweep (some w1)).put DCI_SWP_STATUS_POINT w1.point
        else s1.setSweep (some { w1 with ph := .home, kmax := s1.sweepKmax w.leg, npeaks := s1.sweepPeaks w.leg })
      else s)

/-- DCI_SWEEP_DONE: the reference has arrived at VMPP; SWEEP clears, SEQ increments, RESULT and SWEEP_DONE are set (R164). -/
def execDciSweepDone (s : State) : Host.Outcome State Fault Refusal :=
  .next (
    match s.dci.sweep with
    | none => s
    | some w =>
      if w.ph == .home && w.ref == s.sweepTarget w then
        let s1 := ((s.sweepEnd w.leg).incWrap (DCI_LEG_STATUS_SEQ w.leg)).put DCI_INT_SWEEP_DONE 1
        let s2 := (((s1.put (DCI_LEG_RESULT_ABORTED w.leg) 0).put (DCI_LEG_RESULT_VALID w.leg) 256).put
          (DCI_LEG_RESULT_NPEAKS w.leg) w.npeaks).put (DCI_LEG_RESULT_KMAX w.leg) w.kmax
        s2.onLeg w.leg fun x => { x with vref := some w.ref }
      else s)

/-- The engine turns back towards Vs (R165). -/
def State.sweepBack (s : State) (w : Sweep) : State := (s.sweepAborted w).setSweep (some { w with ph := .back, meas := [] })

/-- The DC link has departed from its value at step 1 by more than VDC_DEV (R165). -/
def State.linkDev (s : State) (w : Sweep) : Bool :=
  flt (s.word (DCI_SWP_PAR_VALUE 1)) (fabs (fsub (s.slot (s.get DCI_CFG_LINK_SLOT)) w.link).1)

/-- DCI_SWEEP_ABORT: a condition of R163 has become false, the DC link has departed or the window has ended; the reference ramps
back (R165). Under a block stop or with the tile disarmed the next update ends the sweep instead. -/
def execDciSweepAbort (s : State) : Host.Outcome State Fault Refusal :=
  .next (
    match s.dci.sweep with
    | none => s
    | some w =>
      if w.ph == .back || s.bit SIT_STATUS_BLOCK_STOP || !s.legArmed w.leg then s
      else if s.linkDev w then (s.put DCI_INT_LINK_DEV 1).sweepBack w
      else if !s.sweepAllowed w.leg || s.sweepWin != w.win then s.sweepBack w
      else s)

/-- DCI_ABORT (R165). -/
def dciAbortOp (s : State) : State :=
  match s.dci.sweep with
  | some w => if w.ph == .back then s else s.sweepBack w
  | none => s

/-- DCI_ABORT: DCI.CTRL.ABORT aborts the running sweep (R165). -/
def execDciAbort (s : State) : Host.Outcome State Fault Refusal := .next (s.access .wheel (some .dciAbort) dciAbortOp)

/-- DCI_RETURN_DONE: the ramp back has arrived at Vs; SWEEP clears, SEQ stays (R165). -/
def execDciReturnDone (s : State) : Host.Outcome State Fault Refusal :=
  .next (
    match s.dci.sweep with
    | some w => if w.ph == .back && w.ref == w.vs then s.sweepEnd w.leg else s
    | none => s)

/-- DCI_OUT_WIN: ten consecutive updates outside, or back inside, the window; OUT_WIN changes, and its setting may raise a block
stop with cause DC_LIMIT (R168). -/
def execDciOutWin (l : Fin 6) (s : State) : Host.Outcome State Fault Refusal :=
  .next (
    if s.dciOn && s.legMode l == 2 && decide (10 ≤ s.dci.legs[l].outCnt) then
      let was := s.bit (DCI_LEG_STATUS_OUT_WIN l)
      let s1 := (s.putB (DCI_LEG_STATUS_OUT_WIN l) (!was)).onLeg l fun x => { x with outCnt := 0 }
      s1.when (!was && s.bit (DCI_LEG_CFG_WIN_STOP l)) (·.raiseStop .dcLimit l.val)
    else s)

/-- The DCI at a firing: curve tables, results, requests and sweeps are cleared (R166). (DEDUCED, log entry 45.) -/
def State.dciFiring (s : State) : State :=
  let s1 := (s.withDci {}).withRegs (cellClear s.regs 0x42301000 0x42304000)
  (s1.each six fun l s =>
    ((((((((s.put (DCI_LEG_RESULT_ABORTED l) 0).put (DCI_LEG_RESULT_VALID l) 0).put (DCI_LEG_RESULT_NPEAKS l) 0).put
      (DCI_LEG_RESULT_KMAX l) 0).put (DCI_LEG_STATUS_PENDING l) 0).put (DCI_LEG_STATUS_SWEEP l) 0).put
      (DCI_LEG_STATUS_DVALID l) 0).put (DCI_LEG_STATUS_OUT_WIN l) 0)) |>.put DCI_SWP_STATUS_ABORTS 0 |>.put DCI_SWP_STATUS_BUSY 0

end Sys2Proof.Machine
end

