-- ==== Sys2Proof/Machine/WUnit.lean ====
section
/-!
DEFINITION. The integrator, biquad and residual units of a Wheel (04_wheel_instruction_set.md R89 to R96).
-/

namespace Sys2Proof.Machine

open Sys2Proof

/-! ### Integrator unit (R89 to R92) -/

/-- K_inv: 1 ÷ K, 0 where K is 0, infinite or NaN (R89). -/
def kinvOf (k : Word) : Word :=
  match F32.of k with
  | .fin _ v => if v = 0 then 0 else (fdiv 0x3F800000 k).1
  | _ => 0

/-- A gain is 0 or not finite (R90, R91). -/
def badGain (k : Word) : Bool :=
  match F32.of k with
  | .fin _ v => v == 0
  | _ => true

/-- The clamp of R90 under gain K. SAT is set by a clamp and cleared where y lies strictly between the limits (R92). The second
part of the answer holds the flags ISAT and, where LO′ exceeds HI′, FV. (DEDUCED, log entry 36.) -/
def clampOut (k : Word) (i : Integ) : Integ × Nat :=
  let y := (fmul k i.st).1
  let cross := flt i.hi i.lo
  let lo := if cross then i.hi else i.lo
  let fv := if cross then flagFV else 0
  let zero := match F32.of i.kinv with | .fin _ v => v == 0 | _ => false
  let move := fun (l : Word) => if zero then i.st else (fmul l i.kinv).1
  if flt i.hi y then ({ i with lo := lo, y := i.hi, st := move i.hi, sat := true }, fv ||| flagISAT)
  else if flt y lo then ({ i with lo := lo, y := lo, st := move lo, sat := true }, fv ||| flagISAT)
  else ({ i with lo := lo, y := y, sat := if flt lo y && flt y i.hi then false else i.sat }, fv)

/-- IACC: s := s + a × b with one rounding, kept where the result is NaN; then the clamp (R90). Where no limit holds it, the result
K × s gives its own flags FV and FO (R71). (DEDUCED, log entry 87.) -/
def iaccOp (k a b : Word) (i : Integ) : Integ × Nat :=
  let r := ffma a b i.st
  let i1 := if F32.of r.1 = .nan then i else { i with st := r.1 }
  let c := clampOut k i1
  (c.1, r.2 ||| c.2 ||| (if c.2 &&& flagISAT = 0 then (fmul k i1.st).2 else 0))

/-- IPRE: s := a × K_inv, 0 with DZ where K is 0; then the clamp (R90). DZ is also set by a gain that is not finite (R71). -/
def ipreOp (k a : Word) (i : Integ) : Integ × Nat :=
  let zero := match F32.of k with | .fin _ v => v == 0 | _ => false
  let c := clampOut k { i with st := if zero then 0 else (fmul a i.kinv).1 }
  (c.1, c.2 ||| (if badGain k then flagDZ else 0))

/-- ILIM: the limits of this sample narrowed; then the clamp (R90). -/
def ilimOp (k a b : Word) (i : Integ) : Integ × Nat := clampOut k { i with hi := (fmin i.hi a).1, lo := (fmax i.lo b).1 }

/-- The swap rescale: s × (K_old ÷ K_new), kept with DZ where a gain is 0 or not finite; the new K_inv; the clamp against the new
limits (R91 steps 1 to 3). (DEDUCED, log entry 81.) -/
def rescale (kOld kNew hi lo : Word) (i : Integ) : Integ × Nat :=
  let bad := badGain kOld || badGain kNew
  let st := if bad then i.st else (fmul i.st (fdiv kOld kNew).1).1
  let c := clampOut kNew { i with st := st, kinv := kinvOf kNew, hi := hi, lo := lo }
  (c.1, c.2 ||| (if bad then flagDZ else 0))

/-! ### Biquad unit (R93) -/

/-- p × x − q × y + w with one rounding; NaN where an operand is not finite. -/
def fsum3 (p x q y w : Word) : Word :=
  match F32.of p, F32.of x, F32.of q, F32.of y, F32.of w with
  | .fin sp vp, .fin sx vx, .fin sq vq, .fin sy vy, .fin sw vw =>
    fsumRound (sgnInt (sp != sx) (vp * vx) - sgnInt (sq != sy) (vq * vy) + sgnInt sw (vw * 2 ^ 149)) (2 ^ 149)
      ((sp != sx) && !(sq != sy) && sw)
  | _, _, _, _, _ => qnan

/-- p × x − q × y with one rounding; NaN where an operand is not finite. -/
def fdiff2 (p x q y : Word) : Word :=
  match F32.of p, F32.of x, F32.of q, F32.of y with
  | .fin sp vp, .fin sx vx, .fin sq vq, .fin sy vy =>
    fsumRound (sgnInt (sp != sx) (vp * vx) - sgnInt (sq != sy) (vq * vy)) (2 ^ 149) ((sp != sx) && !(sq != sy))
  | _, _, _, _ => qnan

/-- A step of a biquad slot: the new states, y and the flags (R93). `c` are b0, b1, b2, a1, a2. -/
def bqStep (b0 b1 b2 a1 a2 x : Word) (q : Biq) : Biq × Word × Nat :=
  let y := (ffma b0 x q.w1).1
  let w1 := fsum3 b1 x a1 y q.w2
  let w2 := fdiff2 b2 x a2 y
  if (F32.of y).isFin && (F32.of w1).isFin && (F32.of w2).isFin then (⟨w1, w2⟩, y, 0)
  else ({}, 0, flagBQF ||| flagFV)

/-! ### Residual unit (R94 to R96) -/

/-- What a RES leaves in its channel: the residual; on the first RES of the sample the counters (R95, R96). `m` is M_SUBST. -/
def resStep (t : Word) (d : ResidDecl) (m : Nat) (a b : Word) (c : Resid) : Resid :=
  let r := (fsub a b).1
  let exceed := !(F32.of r).isFin || flt t (fabs r)
  if c.seen then { c with r := r }
  else
    let c1 := if c.breached then
        let ok := if exceed then 0 else c.ok + 1
        if ok = d.n then { c with breached := false, ok := ok, cnt := 0, sub := 0 } else { c with ok := ok }
      else
        let cnt := if exceed then c.cnt + 1 else 0
        if cnt = d.n then { c with breached := true, cnt := cnt, ok := 0, sub := 0, entered := true } else { c with cnt := cnt }
    let c2 := if c1.breached && !d.stop then { c1 with sub := min 255 (c1.sub + 1), ovf := decide (c1.sub = m) && decide (m < 255) }
      else c1
    { c2 with r := r, seen := true }

end Sys2Proof.Machine
end

