-- ==== Sys2Proof/Machine/Wheel.lean ====
section
/-!
DEFINITION. How a Wheel issues instructions: registers, predicates, sticky flags, the sample cycle, loops and branches
(04_wheel_instruction_set.md R70 to R82).
-/

namespace Sys2Proof.Machine

open Sys2Proof

/-- Register X`r` (R70). -/
def Wheel.xr (x : Wheel) (r : Fin 64) : Word := cellGet x.x r

/-- Register X`r` written (R70). -/
def Wheel.setX (x : Wheel) (r : Fin 64) (v : Word) : Wheel := { x with x := cellPut x.x r v }

/-- Flags set; a sticky flag stays set (R71). -/
def Wheel.setFlags (x : Wheel) (m : Nat) : Wheel := { x with flags := x.flags ||| m }

/-- Operand B: a register or the immediate (R76). -/
def Wheel.opnd (x : Wheel) (b : Opnd) : Word :=
  match b with
  | .reg r => x.xr r
  | .imm v => v

/-- The effective address of form S or K: (field + index) modulo its range (R75). -/
def Wheel.eff {n : Nat} (x : Wheel) (e : Ixd n) : Nat :=
  match e.ix with
  | none => e.base.toNat
  | some r => (e.base.toNat + (x.xr r).toNat) % 2 ^ n

/-- Predicate `u`. -/
def Wheel.pred (x : Wheel) (u : Fin 4) : Bool := x.preds.toNat.testBit u

/-- Predicate `u` written. -/
def Wheel.setPred (x : Wheel) (u : Fin 4) (b : Bool) : Wheel :=
  { x with preds := if b then x.preds ||| BitVec.ofNat 4 (2 ^ u.val) else x.preds &&& ~~~(BitVec.ofNat 4 (2 ^ u.val)) }

/-- A flag is set. -/
def Wheel.flag (x : Wheel) (f : Nat) : Bool := (x.flags &&& f) != 0

/-- The condition PRED (R78). -/
def Wheel.cond (x : Wheel) (p : Fin 16) : Bool :=
  match p.val with
  | 0 => true
  | 1 => x.pred 0 | 2 => x.pred 1 | 3 => x.pred 2 | 4 => x.pred 3
  | 5 => !x.pred 0 | 6 => !x.pred 1 | 7 => !x.pred 2 | 8 => !x.pred 3
  | 9 => x.flag flagSTALE | 10 => !x.flag flagSTALE
  | 11 => x.flag flagBREACH | 12 => !x.flag flagBREACH
  | 13 => x.flag flagISAT | 14 => !x.flag flagISAT
  | _ => x.flag flagMBF

/-- Where execution goes from address `pc` with the running loops `l`: to the next address, or at an LEND back to the start of a
body with trips left (R80). -/
def nextPc (pc : Nat) (l : List LoopRun) : Nat × List LoopRun :=
  match l with
  | [] => (pc + 1, [])
  | r :: rest =>
    if pc ≠ r.lend then (pc + 1, r :: rest)
    else if r.left ≠ 0 then (r.start, { r with left := r.left - 1 } :: rest)
    else nextPc pc rest

/-- The instruction at `pc` has completed after `cycles`. -/
def Wheel.advance (x : Wheel) (cycles : Nat) : Wheel :=
  let n := nextPc x.pc x.loops
  { x with cyc := x.cyc + cycles, pc := n.1, loops := n.2 }

/-- The Wheel issues: it runs in a sample, has not executed END and waits for no fresh read (R73). -/
def Wheel.issues (x : Wheel) : Bool := x.live && !x.ended && x.wait.isNone

/-- An instruction of Wheel `w` under PRED `p` that occupies `cycles`: with a true predicate its effect `f`; with a false one
nothing but the cycles (R73). A Wheel that does not issue does nothing. -/
def State.issue (s : State) (w : Fin 64) (p : Fin 16) (cycles : Nat) (f : State → State) : State :=
  if !s.wheels[w].issues then s
  else ((if s.wheels[w].cond p then f s else s).onWheel w fun x => x.advance cycles)

/-- An instruction that writes `D` from the Wheel's own state, with the sticky flags it sets (R83). -/
def State.issueVal (s : State) (w : Fin 64) (p : Fin 16) (cycles : Nat) (d : Fin 64) (f : Wheel → Word × Nat) : State :=
  s.issue w p cycles fun s => s.onWheel w fun x => (x.setX d (f x).1).setFlags (f x).2

/-- A compare: it writes predicate `u` (R79). -/
def State.issuePred (s : State) (w : Fin 64) (p : Fin 16) (u : Fin 4) (f : Wheel → Bool) : State :=
  s.issue w p 1 fun s => s.onWheel w fun x => x.setPred u (f x)

/-- A condition of an order; none is unordered (R79). -/
def condHolds (c : Cond) (o : Option Ordering) : Bool :=
  match c, o with
  | .un, o => o.isNone
  | .ne, o => o != some .eq
  | _, none => false
  | .eq, some o => o == .eq
  | .lt, some o => o == .lt
  | .le, some o => o != .gt
  | .gt, some o => o == .gt
  | .ge, some o => o != .lt

/-- A predicate function of PSET (R79). -/
def pfunVal (f : PFun) (a b : Bool) : Bool :=
  match f with
  | .and => a && b | .or => a || b | .xor => a != b | .andNot => a && !b
  | .not => !a | .one => true | .zero => false | .copy => a

/-- The rate group of a Wheel. -/
def State.groupOf (s : State) (w : Fin 64) : Fin 8 := Fin.ofNat 8 (s.wheels[w].decl.group.getD 0)

/-- The word of the active bank that Wheel `w` reads. -/
def State.activeWord (s : State) (w : Fin 64) (i : Nat) : Word := s.bankGet w (s.activeBank w) i

/-- An instruction on integrator state `u` of the working copy, under the gain of the active bank (R72, R90). `mask` holds the
flags that R83 lists for it, and FV for crossed limits. -/
def State.issueInteg (s : State) (w : Fin 64) (p : Fin 16) (u : Fin 4) (d : Option (Fin 64)) (mask : Nat)
    (f : Wheel → Word → Integ → Integ × Nat) : State :=
  s.issue w p 1 fun s =>
    let k := s.activeWord w (s.wheels[w].decl.integ.getD u {}).k
    s.onWheel w fun x =>
      let r := f x k x.work.integ[u]
      let x1 := { x with work := { x.work with integ := x.work.integ.set u r.1 } }.setFlags (r.2 &&& mask)
      match d with
      | some d => x1.setX d r.1.y
      | none => x1

end Sys2Proof.Machine
end

