-- ==== Sys2Proof/Machine/WheelIsa.lean ====
section
/-!
DEFINITION. The Wheel instruction set: one meaning per instruction of R83 (04_wheel_instruction_set.md R79 to R96), and how a
waiting fresh read ends (R59).
-/

namespace Sys2Proof.Machine

open Sys2Proof

/-! ### Control, moves and predicates -/

/-- NOP: occupies its cycle (R83). -/
def execNop (w : Fin 64) (p : Fin 16) (s : State) : Host.Outcome State Fault Refusal := .next (s.issue w p 1 id)

/-- END: ends the Wheel's part of the sample; with a false predicate it does nothing and execution continues (R82). -/
def execEndP (w : Fin 64) (p : Fin 16) (s : State) : Host.Outcome State Fault Refusal :=
  .next (s.issue w p 1 fun s => s.onWheel w fun x => { x with ended := true })

/-- MOV: D := A, or the immediate (R76). -/
def execMov (w : Fin 64) (p : Fin 16) (d : Fin 64) (a : Opnd) (s : State) : Host.Outcome State Fault Refusal :=
  .next (s.issueVal w p 1 d fun x => (x.opnd a, 0))

/-- The flag word of R71: sticky flags, and P0 to P3 from bit 12. -/
def Wheel.flagWord (x : Wheel) : Word := BitVec.ofNat 32 (x.flags % 512 + x.preds.toNat * 2 ^ 12)

/-- GETF: D := flag word (R71). -/
def execGetf (w : Fin 64) (p : Fin 16) (d : Fin 64) (s : State) : Host.Outcome State Fault Refusal :=
  .next (s.issueVal w p 1 d fun x => (x.flagWord, 0))

/-- CYC: D := sample cycle of this instruction (R83). -/
def execCyc (w : Fin 64) (p : Fin 16) (d : Fin 64) (s : State) : Host.Outcome State Fault Refusal :=
  .next (s.issueVal w p 1 d fun x => (BitVec.ofNat 32 x.cyc, 0))

/-- PSET: predicate `u` from a function of two predicates (R79). -/
def execPset (w : Fin 64) (p : Fin 16) (u : Fin 4) (f : PFun) (a b : Fin 4) (s : State) : Host.Outcome State Fault Refusal :=
  .next (s.issuePred w p u fun x => pfunVal f (x.pred a) (x.pred b))

/-! ### The signal plane, banks and the mailbox -/

/-- A plain read of slot `k` by Wheel `w`: the plane as it stood at the sample start (R54). -/
def State.plainRead (s : State) (w : Fin 64) (k : Nat) : Word := cellGet s.groups[s.groupOf w].plane k

/-- LDS: plain read of a slot (R54). -/
def execLds (w : Fin 64) (p : Fin 16) (d : Fin 64) (e : Ixd 12) (s : State) : Host.Outcome State Fault Refusal :=
  .next (s.issueVal w p 1 d fun x => (s.plainRead w (x.eff e), 0))

/-- The latest start instruction naming core `n`, of those issued in or before cycle `c` (R59). -/
def latestStart (l : List StartRec) (n c : Nat) : Option StartRec :=
  (l.filter fun r => r.core == n && decide (r.cyc ≤ c)).foldl (fun m r =>
    match m with
    | some q => if q.cyc ≤ r.cyc then some r else some q
    | none => some r) none

/-- The start instruction that governs a fresh read of slot `k` by Wheel `w` that issues now: the latest in this sample, in or before
this cycle, for the converter that owns the slot, unless it converts another entry (R59, R234). (DEDUCED, log entry 35.) -/
def State.governing (s : State) (w : Fin 64) (k : Nat) : Option StartRec :=
  if s.get (RGS_OWNER_KIND k) == 2 then
    match latestStart s.groups[s.groupOf w].starts (s.get (RGS_OWNER_INDEX k)) s.wheels[w].cyc with
    | some r => if r.slot.isNone || r.slot == some k then some r else none
    | none => none
  else none

/-- LDF: fresh read of a slot: at once as a plain read where no start instruction governs it, at once with the result where that
has arrived, else the Wheel waits (R59, R234). A false predicate occupies one cycle (R73). -/
def execLdf (w : Fin 64) (p : Fin 16) (d : Fin 64) (e : Ixd 12) (s : State) : Host.Outcome State Fault Refusal :=
  .next (
    let k := s.wheels[w].eff e
    let done := fun (v : Word) => s.issueVal w p 1 d fun _ => (v, 0)
    match s.governing w k with
    | none => done (s.plainRead w k)
    | some r =>
      if r.arrived then done (s.slot k)
      else if s.wheels[w].issues && s.wheels[w].cond p then s.onWheel w fun x => { x with wait := some ⟨d, k, r.core, x.cyc⟩ }
      else done 0)

/-- A waiting fresh read ends in sample cycle `c` with the value `v` (R59). -/
def Wheel.freshDone (x : Wheel) (d : Fin 64) (c : Nat) (v : Word) : Wheel :=
  { (x.setX d v) with wait := none, cyc := max x.cyc c }.advance 1

/-- The start instruction a waiting Wheel waits on: the latest of those issued in or before the fresh read's own cycle; a later one does
not govern it (R59). -/
def State.waitRec (s : State) (w : Fin 64) (f : Fresh) : Option StartRec := latestStart s.groups[s.groupOf w].starts f.core f.cyc

/-- FRESH_READ_RETURN: the awaited result has arrived; the fresh read returns it in sample cycle `c` (R59). -/
def execFreshReadReturn (w : Fin 64) (c : Nat) (s : State) : Host.Outcome State Fault Refusal :=
  .next (
    match s.wheels[w].wait with
    | none => s
    | some f => s.when ((s.waitRec w f).any (·.arrived)) (·.onWheel w fun x => x.freshDone f.d c (s.slot f.slot)))

/-- FRESH_READ_TIMEOUT: FRESH_TMO cycles after the governing start instruction the fresh read returns the previous result and
sets the stale flag and STATUS.STALE (R59). -/
def execFreshReadTimeout (w : Fin 64) (s : State) : Host.Outcome State Fault Refusal :=
  .next (
    match s.wheels[w].wait with
    | none => s
    | some f =>
      match s.waitRec w f with
      | some r =>
        if r.arrived then s
        else
          let k := s.groupOf w
          (s.put (RGS_RG_STATUS_STALE k) 1).onWheel w fun x =>
            (x.setFlags flagSTALE).freshDone f.d (r.cyc + s.get (RGS_RG_CFG_FRESH_TMO k)) (s.slot f.slot)
      | none => s)

/-- A value put under a key in a list of pairs, replacing an earlier one. -/
def assocPut {α : Type} (l : List (Nat × α)) (k : Nat) (v : α) : List (Nat × α) := (l.filter fun e => e.1 != k) ++ [(k, v)]

/-- STS: the slot takes A at the end-of-sample; a store by a group that does not own the slot is ignored and counted (R52, R53). -/
def execSts (w : Fin 64) (p : Fin 16) (a : Fin 64) (e : Ixd 12) (s : State) : Host.Outcome State Fault Refusal :=
  .next (s.issue w p 1 fun s =>
    let x := s.wheels[w]
    let k := x.eff e
    let g := s.groupOf w
    if s.get (RGS_OWNER_KIND k) == 1 && s.get (RGS_OWNER_INDEX k) == g.val then
      s.onGroup g fun r => { r with stores := assocPut r.stores k (x.xr a) }
    else s.inc RGS_SLOT_REFUSED_COUNT)

/-- LDC: D := word of the active bank (R83). -/
def execLdc (w : Fin 64) (p : Fin 16) (d : Fin 64) (e : Ixd 10) (s : State) : Host.Outcome State Fault Refusal :=
  .next (s.issueVal w p 1 d fun x => (s.activeWord w (x.eff e), 0))

/-- A start instruction sets the start bit of core `n` in sample cycle `cyc`; start bits for one core in one cycle make one
conversion (R58, R233). -/
def State.startCore (s : State) (g : Fin 8) (cyc : Nat) (n : Fin 16) : State :=
  if !s.adcListens n g then s
  else if s.groups[g].starts.any fun r => r.core == n.val && r.cyc == cyc then s
  else
    let r := s.startBit n cyc
    r.1.onGroup g fun x => { x with starts := x.starts ++ [⟨n.val, r.2, cyc, false⟩] }

/-- ADCS: start bits of the cores in the mask; a core not assigned to the Wheel's group is ignored (R58). -/
def execAdcs (w : Fin 64) (p : Fin 16) (m : BitVec 16) (s : State) : Host.Outcome State Fault Refusal :=
  .next (s.issue w p 1 fun s =>
    s.each (sixteen.filter fun n => m.toNat.testBit n.val) fun n s => s.startCore (s.groupOf w) s.wheels[w].cyc n)

/-- POST: an entry of the mailbox, or a refusal when it is full (R68). A refused post leaves RGS.INT.MBOX_LEVEL as it is. (DESIGN CHOICE,
log entry 94.) -/
def execPost (w : Fin 64) (p : Fin 16) (a : Fin 64) (tag : BitVec 16) (s : State) : Host.Outcome State Fault Refusal :=
  .next (s.issue w p 1 fun s =>
    if s.fab.mbox.length < 64 then
      let m := s.fab.mbox ++ [(s.wheels[w].xr a, tag.toNat, w.val, (s.groupOf w).val)]
      let s1 := s.withFab { s.fab with mbox := m }
      s1.when (decide (s.get RGS_MBOX_STAT_THRESH ≤ m.length)) (·.put RGS_INT_MBOX_LEVEL 1)
    else
      (((s.inc RGS_MBOX_LOST_COUNT).put RGS_INT_MBOX_LOST 1).put (WHL_STATUS_MBOX_FULL w) 1).onWheel w fun x => x.setFlags flagMBF)

/-! ### Loops and branches -/

/-- LOOP: repeats the body up to LEND n times; with n = 0 or a false predicate the body is skipped (R80). -/
def execLoop (w : Fin 64) (p : Fin 16) (a : Option (Fin 64)) (max : BitVec 8) (lend : BitVec 9) (s : State) :
    Host.Outcome State Fault Refusal :=
  .next (
    if !s.wheels[w].issues then s
    else s.onWheel w fun x =>
      let n := match a with
        | none => max.toNat
        | some r => min max.toNat (x.xr r).toNat
      if x.cond p && n != 0 then
        { x with cyc := x.cyc + 1, pc := x.pc + 1, loops := ⟨x.pc + 1, lend.toNat, n - 1⟩ :: x.loops }
      else { x with pc := lend.toNat }.advance 1)

/-- BRF: forward to TARGET when its predicate is true, else on; one cycle either way (R81). -/
def execBrf (w : Fin 64) (p : Fin 16) (t : BitVec 9) (s : State) : Host.Outcome State Fault Refusal :=
  .next (
    if !s.wheels[w].issues then s
    else s.onWheel w fun x => if x.cond p then { x with cyc := x.cyc + 1, pc := t.toNat } else x.advance 1)

/-! ### Float operations (R84) -/

/-- FADD: D := A + B (R84). -/
def execFadd (w : Fin 64) (p : Fin 16) (d a : Fin 64) (b : Opnd) (s : State) : Host.Outcome State Fault Refusal :=
  .next (s.issueVal w p 1 d fun x => fadd (x.xr a) (x.opnd b))

/-- FSUB: D := A − B (R84). -/
def execFsub (w : Fin 64) (p : Fin 16) (d a : Fin 64) (b : Opnd) (s : State) : Host.Outcome State Fault Refusal :=
  .next (s.issueVal w p 1 d fun x => fsub (x.xr a) (x.opnd b))

/-- FMUL: D := A × B (R84). -/
def execFmul (w : Fin 64) (p : Fin 16) (d a : Fin 64) (b : Opnd) (s : State) : Host.Outcome State Fault Refusal :=
  .next (s.issueVal w p 1 d fun x => fmul (x.xr a) (x.opnd b))

/-- FMA: D := A × B + C with one rounding (R84). -/
def execFma (w : Fin 64) (p : Fin 16) (d a b c : Fin 64) (s : State) : Host.Outcome State Fault Refusal :=
  .next (s.issueVal w p 1 d fun x => ffma (x.xr a) (x.xr b) (x.xr c))

/-- FMS: D := C − A × B with one rounding (R83, R84). -/
def execFms (w : Fin 64) (p : Fin 16) (d a b c : Fin 64) (s : State) : Host.Outcome State Fault Refusal :=
  .next (s.issueVal w p 1 d fun x => ffms (x.xr a) (x.xr b) (x.xr c))

/-- FMIN: D := the smaller of A and B (R84). -/
def execFmin (w : Fin 64) (p : Fin 16) (d a : Fin 64) (b : Opnd) (s : State) : Host.Outcome State Fault Refusal :=
  .next (s.issueVal w p 1 d fun x => fmin (x.xr a) (x.opnd b))

/-- FMAX: D := the larger of A and B (R84). -/
def execFmax (w : Fin 64) (p : Fin 16) (d a : Fin 64) (b : Opnd) (s : State) : Host.Outcome State Fault Refusal :=
  .next (s.issueVal w p 1 d fun x => fmax (x.xr a) (x.opnd b))

/-- FCLAMP: D := min(max(A, B), C) (R84). -/
def execFclamp (w : Fin 64) (p : Fin 16) (d a b c : Fin 64) (s : State) : Host.Outcome State Fault Refusal :=
  .next (s.issueVal w p 1 d fun x => fclamp (x.xr a) (x.xr b) (x.xr c))

/-- FABS: D := A with the sign bit cleared (R84). -/
def execFabs (w : Fin 64) (p : Fin 16) (d a : Fin 64) (s : State) : Host.Outcome State Fault Refusal :=
  .next (s.issueVal w p 1 d fun x => (fabs (x.xr a), 0))

/-- FNEG: D := A with the sign bit inverted (R84). -/
def execFneg (w : Fin 64) (p : Fin 16) (d a : Fin 64) (s : State) : Host.Outcome State Fault Refusal :=
  .next (s.issueVal w p 1 d fun x => (fneg (x.xr a), 0))

/-- FDIV: D := A ÷ B in 8 cycles (R83, R84). -/
def execFdiv (w : Fin 64) (p : Fin 16) (d a b : Fin 64) (s : State) : Host.Outcome State Fault Refusal :=
  .next (s.issueVal w p 8 d fun x => fdiv (x.xr a) (x.xr b))

/-- FSQRT: D := √A in 8 cycles (R83, R84). -/
def execFsqrt (w : Fin 64) (p : Fin 16) (d a : Fin 64) (s : State) : Host.Outcome State Fault Refusal :=
  .next (s.issueVal w p 8 d fun x => fsqrt (x.xr a))

/-- FCMP: float compare into predicate `u` (R79). -/
def execFcmp (w : Fin 64) (p : Fin 16) (u : Fin 4) (q : Cond) (a : Fin 64) (b : Opnd) (s : State) :
    Host.Outcome State Fault Refusal :=
  .next (s.issuePred w p u fun x => condHolds q (fcmp (x.xr a) (x.opnd b)))

/-! ### Conversions (R86) -/

/-- F2Q: A × 2^31 to nearest even, saturated (R86). -/
def execF2q (w : Fin 64) (p : Fin 16) (d a : Fin 64) (s : State) : Host.Outcome State Fault Refusal :=
  .next (s.issueVal w p 1 d fun x => ftoInt (x.xr a) 31 qMin qMax)

/-- Q2F: A ÷ 2^31 as float32 (R85, R86). -/
def execQ2f (w : Fin 64) (p : Fin 16) (d a : Fin 64) (s : State) : Host.Outcome State Fault Refusal :=
  .next (s.issueVal w p 1 d fun x => (fofInt (x.xr a).toInt 31, 0))

/-- F2I: A to nearest even, saturated to int32 (R86). -/
def execF2i (w : Fin 64) (p : Fin 16) (d a : Fin 64) (s : State) : Host.Outcome State Fault Refusal :=
  .next (s.issueVal w p 1 d fun x => ftoInt (x.xr a) 0 qMin qMax)

/-- I2F: the int32 A as float32 (R86). -/
def execI2f (w : Fin 64) (p : Fin 16) (d a : Fin 64) (s : State) : Host.Outcome State Fault Refusal :=
  .next (s.issueVal w p 1 d fun x => (fofInt (x.xr a).toInt 0, 0))

/-- F2U: A to nearest even, saturated to uint32 (R86). -/
def execF2u (w : Fin 64) (p : Fin 16) (d a : Fin 64) (s : State) : Host.Outcome State Fault Refusal :=
  .next (s.issueVal w p 1 d fun x => ftoInt (x.xr a) 0 0 (2 ^ 32 - 1))

/-! ### Q31 operations (R85) -/

/-- QADD: D := sat(A + B) (R85). -/
def execQadd (w : Fin 64) (p : Fin 16) (d a : Fin 64) (b : Opnd) (s : State) : Host.Outcome State Fault Refusal :=
  .next (s.issueVal w p 1 d fun x => qadd (x.xr a) (x.opnd b))

/-- QSUB: D := sat(A − B) (R85). -/
def execQsub (w : Fin 64) (p : Fin 16) (d a : Fin 64) (b : Opnd) (s : State) : Host.Outcome State Fault Refusal :=
  .next (s.issueVal w p 1 d fun x => qsub (x.xr a) (x.opnd b))

/-- QMUL: D := Q31 product (R85). -/
def execQmul (w : Fin 64) (p : Fin 16) (d a : Fin 64) (b : Opnd) (s : State) : Host.Outcome State Fault Refusal :=
  .next (s.issueVal w p 1 d fun x => qmul (x.xr a) (x.opnd b))

/-- QMAC: D := C + A × B with one rounding (R85). -/
def execQmac (w : Fin 64) (p : Fin 16) (d a b c : Fin 64) (s : State) : Host.Outcome State Fault Refusal :=
  .next (s.issueVal w p 1 d fun x => qmac (x.xr a) (x.xr b) (x.xr c))

/-- QABS: D := sat(|A|) (R85). -/
def execQabs (w : Fin 64) (p : Fin 16) (d a : Fin 64) (s : State) : Host.Outcome State Fault Refusal :=
  .next (s.issueVal w p 1 d fun x => qabs (x.xr a))

/-- QCMP: Q31 compare; UN is false (R79). -/
def execQcmp (w : Fin 64) (p : Fin 16) (u : Fin 4) (q : Cond) (a : Fin 64) (b : Opnd) (s : State) :
    Host.Outcome State Fault Refusal :=
  .next (s.issuePred w p u fun x => condHolds q (some (compare (x.xr a).toInt (x.opnd b).toInt)))

/-! ### Integer operations (R83, R87) -/

/-- IADD: D := A + B, wrapping (R87). -/
def execIadd (w : Fin 64) (p : Fin 16) (d a : Fin 64) (b : Opnd) (s : State) : Host.Outcome State Fault Refusal :=
  .next (s.issueVal w p 1 d fun x => (x.xr a + x.opnd b, 0))

/-- ISUB: D := A − B, wrapping (R87). -/
def execIsub (w : Fin 64) (p : Fin 16) (d a : Fin 64) (b : Opnd) (s : State) : Host.Outcome State Fault Refusal :=
  .next (s.issueVal w p 1 d fun x => (x.xr a - x.opnd b, 0))

/-- AND: bitwise AND (R83). -/
def execAnd (w : Fin 64) (p : Fin 16) (d a : Fin 64) (b : Opnd) (s : State) : Host.Outcome State Fault Refusal :=
  .next (s.issueVal w p 1 d fun x => (x.xr a &&& x.opnd b, 0))

/-- OR: bitwise OR (R83). -/
def execOr (w : Fin 64) (p : Fin 16) (d a : Fin 64) (b : Opnd) (s : State) : Host.Outcome State Fault Refusal :=
  .next (s.issueVal w p 1 d fun x => (x.xr a ||| x.opnd b, 0))

/-- XOR: bitwise XOR (R83). -/
def execXor (w : Fin 64) (p : Fin 16) (d a : Fin 64) (b : Opnd) (s : State) : Host.Outcome State Fault Refusal :=
  .next (s.issueVal w p 1 d fun x => (x.xr a ^^^ x.opnd b, 0))

/-- SHL: D := A shifted left by B[4:0] (R83). -/
def execShl (w : Fin 64) (p : Fin 16) (d a : Fin 64) (b : Opnd) (s : State) : Host.Outcome State Fault Refusal :=
  .next (s.issueVal w p 1 d fun x => (x.xr a <<< ((x.opnd b).toNat % 32), 0))

/-- SHR: logical right shift by B[4:0] (R83). -/
def execShr (w : Fin 64) (p : Fin 16) (d a : Fin 64) (b : Opnd) (s : State) : Host.Outcome State Fault Refusal :=
  .next (s.issueVal w p 1 d fun x => (x.xr a >>> ((x.opnd b).toNat % 32), 0))

/-- SAR: arithmetic right shift by B[4:0] (R83). -/
def execSar (w : Fin 64) (p : Fin 16) (d a : Fin 64) (b : Opnd) (s : State) : Host.Outcome State Fault Refusal :=
  .next (s.issueVal w p 1 d fun x => ((x.xr a).sshiftRight ((x.opnd b).toNat % 32), 0))

/-- ICMP: signed integer compare; UN is false (R79). -/
def execIcmp (w : Fin 64) (p : Fin 16) (u : Fin 4) (q : Cond) (a : Fin 64) (b : Opnd) (s : State) :
    Host.Outcome State Fault Refusal :=
  .next (s.issuePred w p u fun x => condHolds q (some (compare (x.xr a).toInt (x.opnd b).toInt)))

/-- UCMP: unsigned integer compare; UN is false (R79). -/
def execUcmp (w : Fin 64) (p : Fin 16) (u : Fin 4) (q : Cond) (a : Fin 64) (b : Opnd) (s : State) :
    Host.Outcome State Fault Refusal :=
  .next (s.issuePred w p u fun x => condHolds q (some (compare (x.xr a).toNat (x.opnd b).toNat)))

/-! ### CORDIC (R88) -/

/-- A two-result instruction: D and D + 1 (R88). -/
def State.issuePair (s : State) (w : Fin 64) (p : Fin 16) (d : Fin 64) (f : Wheel → (Word × Word) × Nat) : State :=
  s.issue w p 12 fun s => s.onWheel w fun x =>
    (((x.setX d (f x).1.1).setX (d + 1) (f x).1.2).setFlags (f x).2)

/-- CROT: m cos θ and m sin θ (R88). -/
def execCrot (w : Fin 64) (p : Fin 16) (d a b : Fin 64) (s : State) : Host.Outcome State Fault Refusal :=
  .next (s.issuePair w p d fun x => rotate 0 (x.xr a) (x.xr b) 0)

/-- CROTV: (x, y) rotated by θ (R88). -/
def execCrotv (w : Fin 64) (p : Fin 16) (d a b c : Fin 64) (s : State) : Host.Outcome State Fault Refusal :=
  .next (s.issuePair w p d fun x => rotate 2 (x.xr a) (x.xr b) (x.xr c))

/-- CVEC: magnitude and angle of (x, y) (R88). -/
def execCvec (w : Fin 64) (p : Fin 16) (d a b : Fin 64) (s : State) : Host.Outcome State Fault Refusal :=
  .next (s.issuePair w p d fun x => vectoring (x.xr a) (x.xr b))

/-! ### Integrator, biquad and residual units -/

/-- IACC: integrate and clamp; D := y (R90). -/
def execIacc (w : Fin 64) (p : Fin 16) (d : Fin 64) (u : Fin 4) (a b : Fin 64) (s : State) : Host.Outcome State Fault Refusal :=
  .next (s.issueInteg w p u (some d) (flagISAT ||| flagFV ||| flagFO) fun x k i => iaccOp k (x.xr a) (x.xr b) i)

/-- IRD: D := y after the last clamp (R90). -/
def execIrd (w : Fin 64) (p : Fin 16) (d : Fin 64) (u : Fin 4) (s : State) : Host.Outcome State Fault Refusal :=
  .next (s.issueInteg w p u (some d) 0 fun _ _ i => (i, 0))

/-- IPRE: preset to the output value A (R90). -/
def execIpre (w : Fin 64) (p : Fin 16) (u : Fin 4) (a : Fin 64) (s : State) : Host.Outcome State Fault Refusal :=
  .next (s.issueInteg w p u none (flagISAT ||| flagDZ ||| flagFV) fun x k i => ipreOp k (x.xr a) i)

/-- ILIM: the limits of this sample narrowed to A and B (R90). -/
def execIlim (w : Fin 64) (p : Fin 16) (u : Fin 4) (a b : Fin 64) (s : State) : Host.Outcome State Fault Refusal :=
  .next (s.issueInteg w p u none (flagISAT ||| flagFV) fun x k i => ilimOp k (x.xr a) (x.xr b) i)

/-- BQ: one step of biquad slot `u` on A with the five words at CADDR of the active bank (R93). -/
def execBq (w : Fin 64) (p : Fin 16) (d : Fin 64) (u : Fin 4) (a : Fin 64) (c : BitVec 10) (s : State) :
    Host.Outcome State Fault Refusal :=
  .next (s.issue w p 1 fun s =>
    let v := fun (j : Nat) => s.activeWord w (c.toNat + j)
    s.onWheel w fun x =>
      let r := bqStep (v 0) (v 1) (v 2) (v 3) (v 4) (x.xr a) x.work.biq[u]
      (({ x with work := { x.work with biq := x.work.biq.set u r.1 } }.setX d r.2.1).setFlags r.2.2))

/-- BQCLR: both states of slot `u` cleared (R93). -/
def execBqclr (w : Fin 64) (p : Fin 16) (u : Fin 4) (s : State) : Host.Outcome State Fault Refusal :=
  .next (s.issue w p 1 fun s => s.onWheel w fun x => { x with work := { x.work with biq := x.work.biq.set u {} } })

/-- The declaration of residual channel `u` of a Wheel (R94). -/
def Wheel.residDecl (x : Wheel) (u : Fin 4) : ResidDecl :=
  match x.decl.resid.find? fun e => e.1 == u.val with
  | some e => e.2
  | none => {}

/-- RES: residual check of A against B; D is A, or B while the channel is left breached with action SUBST (R95, R96). -/
def execRes (w : Fin 64) (p : Fin 16) (d : Fin 64) (u : Fin 4) (a b : Fin 64) (s : State) : Host.Outcome State Fault Refusal :=
  .next (s.issue w p 1 fun s =>
    let q := s.wheels[w].residDecl u
    let t := s.activeWord w q.thr
    s.onWheel w fun x =>
      let c := resStep t q (s.get RGS_SUPV_M_SUBST) (x.xr a) (x.xr b) x.work.resid[u]
      let v := if c.breached && !q.stop then x.xr b else x.xr a
      ({ x with work := { x.work with resid := x.work.resid.set u c } }.setX d v).setFlags (if c.breached then flagBREACH else 0))

/-- RESR: D := residual of the last RES on the channel (R96). -/
def execResr (w : Fin 64) (p : Fin 16) (d : Fin 64) (u : Fin 4) (s : State) : Host.Outcome State Fault Refusal :=
  .next (s.issueVal w p 1 d fun x => (x.work.resid[u].r, 0))

end Sys2Proof.Machine
end

