-- ==== Sys2Proof/Machine/Fabric.lean ====
section
/-!
DEFINITION. Rate groups: triggers, sample starts, end-of-sample, misses, swaps and presets, the signal plane, banks, mailbox and
memory errors, loop supervision (03_wheel_fabric.md, 07_loop_supervision.md).
-/

namespace Sys2Proof.Machine

open Sys2Proof

/-! ### Triggers (R48 to R51) -/

/-- Group k runs: the configuration is fired, the group is enabled and its island is out of reset
(R49, R51, R267). -/
def State.groupOn (s : State) (k : Fin 8) : Bool := s.fired && s.up .wheel && s.enabled k

/-- A trigger arrives for group `k`, if it is enabled and the phase is 0x3 or 0x4 (R49, R51). One that comes in phase 0x5, after step 6
of R39 has started the group, is dropped. (DESIGN CHOICE, log entry 92.) -/
def State.trigger (s : State) (k : Fin 8) : State :=
  s.when (s.groupOn k) (·.onGroup k fun g => { g with trig := g.trig + 1 })

/-- An event of a divided source reaches group `k`: every (DIV + 1)th triggers (R48). -/
def State.groupEvent (s : State) (k : Fin 8) : State :=
  if s.get (RGS_RG_CFG_DIV k) ≤ s.groups[k].divCnt then (s.onGroup k fun g => { g with divCnt := 0 }).trigger k
  else s.onGroup k fun g => { g with divCnt := g.divCnt + 1 }

/-- An event of source `src` and instance `inst` reaches every group that names it (R48). -/
def State.sourceEvent (s : State) (src inst : Nat) : State :=
  s.each eight fun k s =>
    s.when (s.groupOn k && s.get (RGS_RG_CFG_SRC k) == src && (src == 5 || s.get (RGS_RG_CFG_SRC_INST k) == inst))
      (·.groupEvent k)

/-- TIMER_TRIGGER: the WHEEL-island counter of a source-1 group reaches PERIOD (R48). -/
def execTimerTrigger (k : Fin 8) (s : State) : Host.Outcome State Fault Refusal :=
  .next (s.when (s.get (RGS_RG_CFG_SRC k) == 1) (·.trigger k))

/-- A multiple of PERIOD × 1.25 ns comes within the running 100 ns, or has come, that has given group `k` no trigger yet (R48, R326). -/
def State.ptpDue (s : State) (k : Fin 8) : Bool :=
  s.netRuns && decide (s.groups[k].ptpIdx < s.ptpMultiple k (s.net.ptp.sec * 1000000000 + s.net.ptp.ns + 99))

/-- PTP_TRIGGER: PTP time reaches a multiple of PERIOD × 1.25 ns for a source-4 group (R48); each multiple triggers once, but for one that a
step of the time brings again (R326). -/
def execPtpTrigger (k : Fin 8) (s : State) : Host.Outcome State Fault Refusal :=
  .next (s.when (s.get (RGS_RG_CFG_SRC k) == 4 && s.ptpDue k) fun s =>
    (s.onGroup k fun g => { g with ptpIdx := g.ptpIdx + 1 }).trigger k)

/-! ### Misses (R60, R61, R149) -/

/-- A miss is counted: MISS, MISS_COUNT, CONSEC and the run; at CONSEC = K the MISS_RUN entry and a block stop with cause
MISSED_DEADLINE (R60 steps 3 and 4, R149). RGS.INT.MISS is set also where a trigger timeout counts the miss (R61). (DESIGN CHOICE, log
entry 93.) -/
def State.countMiss (s : State) (k : Fin 8) (trigLoss : Bool) : State :=
  let g := s.groups[k]
  let s1 := (((s.put (RGS_RG_STATUS_MISS k) 1).inc (RGS_RG_MISS_COUNT_COUNT k)).inc (RGS_RG_STATUS_CONSEC k)).put RGS_INT_MISS 1
  let first := if g.runLen = 0 then s.get (RGS_RG_SAMPLES_COUNT k) else g.runFirst
  let s2 := s1.onGroup k fun g => { g with runLen := g.runLen + 1, runFirst := first, runTrig := g.runTrig || trigLoss }
  if s.get (RGS_RG_STATUS_CONSEC k) + 1 = s.get RGS_SUPV_K_MISS then
    let r := s2.groups[k]
    let s3 := s2.journal 0x0A (k.val + 2 ^ 3 * bitOf r.runTrig + 2 ^ 4 * bitOf r.runMem) (payload2 first r.runLen)
    s3.supvStop .missedDeadline 1 0 k 0 k
  else s2

/-- A sample of group `k` ends as a miss: its members stop issuing, nothing stored is published and the units' working copies
are discarded (R60, R72). -/
def State.missSample (s : State) (k : Fin 8) : State :=
  let s1 := s.each (s.members k) fun w s => s.onWheel w fun x => { x with live := false, wait := none, work := x.units }
  let s2 := (s1.onGroup k fun g => { g with stores := [], starts := [] }).put (RGS_RG_STATUS_RUNNING k) 0
  s2.countMiss k false

/-- DEADLINE_MISS: the deadline cycle passes without end-of-sample (R60). -/
def execDeadlineMiss (k : Fin 8) (s : State) : Host.Outcome State Fault Refusal :=
  .next (s.when (s.bit (RGS_RG_STATUS_RUNNING k)) (·.missSample k))

/-- TRIGGER_TIMEOUT: no trigger for TRIG_TMO cycles: TRIGLOSS, and a miss is counted (R61). -/
def execTriggerTimeout (k : Fin 8) (s : State) : Host.Outcome State Fault Refusal :=
  .next (
    if s.groupOn k && s.groups[k].trig == 0 then
      ((s.put (RGS_RG_STATUS_TRIGLOSS k) 1).put RGS_INT_TRIGLOSS 1).countMiss k true
    else s)

/-! ### Sample start (R49, R54, R66, R67, R91) -/

/-- An operation of the integrator unit in sample cycles 0 to 9 on state `j` of Wheel `w`: committed at once (R91, R150). -/
def State.onInteg (s : State) (w : Fin 64) (j : Fin 4) (f : Integ → Integ × Nat) : State :=
  s.onWheel w fun x =>
    let r := f x.units.integ[j]
    let u := { x.units with integ := x.units.integ.set j r.1 }
    { x with units := u, work := { x.work with integ := x.work.integ.set j r.1 } }.setFlags (r.2 &&& (flagDZ ||| flagISAT ||| flagFV))

/-- The declaration of integrator state `j` of Wheel `w` (R89). A state for which the image names no words has word 0 of the bank as K,
HI and LO. (DESIGN CHOICE, log entry 96.) -/
def State.integDecl (s : State) (w : Fin 64) (j : Fin 4) : IntegDecl := s.wheels[w].decl.integ.getD j {}

/-- The swap rescale of every member, from bank `old` to the other (R66, R91 steps 1 to 3). -/
def State.swapRescale (s : State) (k : Fin 8) (old : Nat) : State :=
  s.each (s.members k) fun w s => s.each four fun j s =>
    let d := s.integDecl w j
    s.onInteg w j (rescale (s.bankGet w old d.k) (s.bankGet w (1 - old) d.k) (s.bankGet w (1 - old) d.hi) (s.bankGet w (1 - old) d.lo))

/-- Firmware presets of a Wheel: each sets its state and clamps it (R67, R91 step 4). -/
def State.firmwarePresets (s : State) (w : Fin 64) : State :=
  let s1 := s.each s.wheels[w].preset fun e s =>
    let j : Fin 4 := Fin.ofNat 4 e.1
    s.onInteg w j fun i => clampOut (s.activeWord w (s.integDecl w j).k) { i with st := e.2 }
  s1.onWheel w fun x => { x with preset := [] }

/-- Armed ISL presets of group `k`: each sets its state's output to the slot's value as visible now (R140, R91 step 4). -/
def State.islPresets (s : State) (k : Fin 8) : State :=
  let mine := s.isl.armed.filter fun e => (s.members k).any fun w => w.val == s.get (ISL_PRE_WHEEL e)
  let s1 := s.each mine fun e s =>
    let w : Fin 64 := Fin.ofNat 64 (s.get (ISL_PRE_WHEEL e))
    let j : Fin 4 := Fin.ofNat 4 (s.get (ISL_PRE_STATE e))
    s.onInteg w j (ipreOp (s.activeWord w (s.integDecl w j).k) (s.slot (s.get (ISL_PRE_SLOT e))))
  s1.onIsl fun x => { x with armed := x.armed.filter fun e => !mine.contains e }

/-- The pending swap of group `k`, if its time has come: the bank changes for all members, their integrators rescale (R64, R66);
an ISL notch swap is carried out beside it (R136). -/
def State.carrySwap (s : State) (k : Fin 8) : State :=
  match s.groups[k].swap with
  | some r =>
    if r.atPlant then s.notchSwap k false
    else
      let old := s.get (RGS_RG_STATUS_ACTIVE_BANK k)
      let s1 := ((s.setSwap k none).put (RGS_RG_STATUS_ACTIVE_BANK k) r.bank).notchSwap k true
      if r.bank = old then s1 else s1.swapRescale k old
  | none => s.notchSwap k false

/-- A member as its sample begins: predicates and flags clear, at its entry address, the units' working copies taken, limits at
the bank limits; nothing issues after an error found outside a sample (R45, R46, R71, R72, R90). -/
def State.memberStart (s : State) (k : Fin 8) (w : Fin 64) : State :=
  let lim := fun (j : Fin 4) (i : Integ) =>
    { i with hi := s.activeWord w (s.integDecl w j).hi, lo := s.activeWord w (s.integDecl w j).lo }
  let fresh := fun (u : WUnits) =>
    { u with integ := Vector.ofFn fun j => lim j u.integ[j],
             resid := u.resid.map fun c => { c with entered := false, ovf := false, seen := false } }
  let s1 := s.when s.wheels[w].stopNext (·.onGroup k fun g => { g with runMem := true })
  s1.onWheel w fun x =>
    { x with preds := 0, flags := 0, pc := x.decl.entry, loops := [], cyc := 0, live := !x.stopNext, ended := false, wait := none,
             stopNext := false, units := fresh x.units, work := fresh x.units }

/-- SAMPLE_START: a triggered group starts its sample; one still running ends as a miss first (R61). The members begin, the
pending swap, firmware presets and ISL presets are carried out, the signal plane is taken as it stands, and the units that this
group triggers take their updates (R49, R54, R66, R67, R91, R100, R125, R140, R158, R399). (DEDUCED, log entry 37.) -/
def execSampleStart (k : Fin 8) (s : State) : Host.Outcome State Fault Refusal :=
  .next (
    if !s.groupOn k || s.groups[k].trig == 0 then s
    else
      let s1 := s.when (s.bit (RGS_RG_STATUS_RUNNING k)) (·.missSample k)
      let s2 := (s1.incWrap (RGS_RG_SAMPLES_COUNT k)).put (RGS_RG_STATUS_RUNNING k) 1
      let s3 := s2.onGroup k fun g => { g with trig := g.trig - 1, plane := s.slots, stores := [], starts := [] }
      let s4 := (s3.adcSample k).each (s.members k) fun w s => s.memberStart k w
      let s5 := (s4.carrySwap k).each (s.members k) fun w s => s.firmwarePresets w
      let s6 := (s5.islPresets k).sourceEvent 3 k
      (((s6.gsuStart k).islStart k).dciStart k).captureStart k)

/-! ### End-of-sample (R53, R72, R151 to R155) -/

/-- What a guard publishes for the value `v` stored, with `p` published before, and whether it clips (R154). -/
def guardOut (mode : Nat) (p v step : Word) : Word × Bool :=
  let fin := fun (x : Word) => (F32.of x).isFin
  let d := (fsub v p).1
  let ovf := !fin d || flt step (fabs d)
  if !fin p then (v, false)
  else if mode = 3 then (v, !fin v || ovf)
  else if !fin v then (p, true)
  else if ovf && (mode = 1 || flt (fabs p) (fabs v)) then ((fadd p (if flt d 0 then fneg step else step)).1, true)
  else (v, false)

/-- Guard `g` of group `k` at an end-of-sample: it limits the stored value of its slot and counts (R154, R155). The second part of
the answer says whether its count reaches STOP_N now. -/
def State.guardStep (s : State) (k : Fin 8) (g : Fin 4) : State × Bool :=
  let mode := s.get (RGS_GRD_CFG_MODE k g)
  let slot := s.get (RGS_GRD_CFG_SLOT k g)
  match (s.groups[k].stores.find? fun e => e.1 == slot) with
  | none => (s, false)
  | some e =>
    if mode = 0 then (s, false)
    else
      let r := guardOut mode (s.slot slot) e.2 (s.word (RGS_GRD_STEP_STEP k g))
      let n := if r.2 then s.groups[k].grd[g] + 1 else 0
      let s1 := s.onGroup k fun x => { x with stores := assocPut x.stores slot r.1, grd := x.grd.set g n }
      let s2 := s1.when r.2 fun s => (s.inc (RGS_RG_CLIPS_COUNT k)).put RGS_SUPV_INT_CLIP 1
      (s2, r.2 && s.get (RGS_GRD_CFG_STOP_N k g) == n && n != 0)

/-- The guards of group `k` in ascending order, none at the first end-of-sample after a firing (R154). -/
def State.guards (s : State) (k : Fin 8) : State × List (Fin 4) :=
  if s.groups[k].unguarded then (s.onGroup k fun g => { g with unguarded := false }, [])
  else four.foldl (fun (a : State × List (Fin 4)) g =>
    let r := a.1.guardStep k g
    (r.1, if r.2 then a.2 ++ [g] else a.2)) (s, [])

/-- The flag of a channel that has entered a breach: SUSPECT, its count and interrupt, the journal entry, and Grog (R151). -/
def State.suspect (s : State) (w : Fin 64) (c : Fin 4) : State :=
  let d := s.wheels[w].residDecl c
  let s1 := ((((s.put RGS_SUSPECT_NEW 1).put RGS_SUSPECT_AIN d.ain).put RGS_SUSPECT_ADC d.adc).put RGS_SUSPECT_WHEEL w).put
    RGS_SUSPECT_CHAN c
  let s2 := ((s1.inc RGS_SUSPECT_COUNT_COUNT).put RGS_SUPV_INT_SUSPECT 1).journal 0x0B (2 ^ 8 * d.adc + d.ain) (payload2 w c)
  s2.grogFlag d.adc d.ain

/-- A PLAUSIBILITY stop of channel `c` of Wheel `w` (R96, R152). -/
def State.plausStop (s : State) (k : Fin 8) (w : Fin 64) (c : Fin 4) : State :=
  let s1 := s.withSit { s.sit with plausSources := s.sit.plausSources ++ [(w.val, c.val)] }
  s1.supvStop .plausibility 2 w k c k

/-- The residual channels of the members at an end-of-sample: flags of new breaches, then stops (R96, R151). -/
def State.residuals (s : State) (k : Fin 8) : State :=
  let all := (s.members k).flatMap fun w => four.map fun c => (w, c)
  let s1 := s.each (all.filter fun e => s.wheels[e.1].units.resid[e.2].entered) fun e s => s.suspect e.1 e.2
  let stops := all.filter fun e =>
    let r := s.wheels[e.1].units.resid[e.2]
    r.ovf || (r.entered && (s.wheels[e.1].residDecl e.2).stop)
  s1.each stops fun e s => s.plausStop k e.1 e.2

/-- A member's unit states are committed; WHLn.STATUS.SAT follows (R72, R92). -/
def State.commitWheel (s : State) (w : Fin 64) : State :=
  (s.onWheel w fun x => { x with units := x.work, live := false }).putB (WHL_STATUS_SAT w)
    (four.any fun j => s.wheels[w].work.integ[j].sat)

/-- A run of misses has ended with a met deadline: its entry is written unless it had reached K (R149). -/
def State.endRun (s : State) (k : Fin 8) : State :=
  let g := s.groups[k]
  let s1 := s.when (g.runLen != 0 && decide (g.runLen < s.get RGS_SUPV_K_MISS)) (·.journal 0x0A
    (k.val + 2 ^ 3 * bitOf g.runTrig + 2 ^ 4 * bitOf g.runMem) (payload2 g.runFirst g.runLen))
  s1.onGroup k fun g => { g with runLen := 0, runTrig := false, runMem := false }

/-- END_OF_SAMPLE: the cycle after the last member's END: the guards act, every stored slot is published at once, the unit states
are committed, CONSEC resets, and flags and stops of the sample are raised (R53, R60, R72, R96, R149, R151, R154, R155). (DEDUCED, log entry 39.) -/
def execEndOfSample (k : Fin 8) (s : State) : Host.Outcome State Fault Refusal :=
  .next (
    if !s.bit (RGS_RG_STATUS_RUNNING k) || !((s.members k).all fun w => s.wheels[w].ended) then s
    else
      let (s1, stops) := s.guards k
      let s2 := s1.each s1.groups[k].stores fun e s => s.publish e.1 e.2
      let s3 := (s2.onGroup k fun g => { g with stores := [], starts := [] }).each (s.members k) fun w s => s.commitWheel w
      let s4 := ((s3.put (RGS_RG_STATUS_RUNNING k) 0).endRun k).put (RGS_RG_STATUS_CONSEC k) 0
      (s4.residuals k).each stops fun g s => s.supvStop .stepLimit 3 0 k g k)

/-! ### Memory errors (R45) -/

/-- The physical cell of Wheel `w` (R47). -/
def State.cellOf (s : State) (w : Fin 64) : Nat := s.get (WHL_STATUS_PHYS w)

/-- MEMORY_ERROR: an uncorrectable or parity error: the Wheel stops issuing for this sample, or, found outside one, for the next;
the flag, the journal entry and the report to Grog follow (R45, R146, R382). A further error in a Wheel that has already stopped in its
running sample stops the next one too. (DESIGN CHOICE, log entry 95.) -/
def execMemoryError (w : Fin 64) (s : State) : Host.Outcome State Fault Refusal :=
  .next (
    let x := s.wheels[w]
    let k := s.groupOf w
    let s1 :=
      if x.decl.group.isNone then s
      else if x.live && !x.ended && s.bit (RGS_RG_STATUS_RUNNING k) then
        (s.onWheel w fun x => { x with live := false, wait := none }).onGroup k fun g => { g with runMem := true }
      else s.onWheel w fun x => { x with stopNext := true }
    ((s1.put (WHL_STATUS_MEM_ERR w) 1).journal 0x0C w (s.cellOf w)).grogHard 0 (s.cellOf w) 0)

/-- CORRECTED_ERROR: a single-bit error corrected in a program store or bank, counted in Grog (R45, R385). -/
def execCorrectedError (w : Fin 64) (s : State) : Host.Outcome State Fault Refusal := .next (s.grogErr 0 (s.cellOf w) 0)

/-! ### Firmware accesses (R56, R63 to R68) -/

/-- SLOT_WRITE (R52, R56). -/
def slotWriteOp (k : BitVec 12) (v : Word) (s : State) : State :=
  if s.get (RGS_OWNER_KIND k.toNat) == 5 then s.publish k.toNat v else s.inc RGS_SLOT_REFUSED_COUNT

/-- SLOT_WRITE: a firmware-owned slot is published on arrival; a write to another is ignored and counted (R52, R56). -/
def execSlotWrite (k : BitVec 12) (v : Word) (s : State) : Host.Outcome State Fault Refusal :=
  .next (s.access .wheel (some (.slotWrite k v)) (slotWriteOp k v))

/-- A write to word `i` of bank `b` of Wheel `w` is refused: the bank is active or a swap is pending, or the word belongs to a
notch retune in progress (R63, R136). -/
def State.coefRefused (s : State) (w : Fin 64) (b i : Nat) : Bool :=
  match s.wheels[w].decl.group with
  | none => false
  | some k =>
    s.get (RGS_RG_STATUS_ACTIVE_BANK k) == b || s.groups[(Fin.ofNat 8 k)].swap.isSome ||
    (s.bit ISL_MODE_RETUNE_BUSY && s.notchWheels.contains w && decide (s.get ISL_NOTCH_ADDR ≤ i) && decide (i < s.get ISL_NOTCH_ADDR + 5))

/-- COEF_BANK_WRITE (R63). -/
def coefWriteOp (w : Fin 64) (b : Fin 2) (i : BitVec 10) (v : Word) (s : State) : State :=
  if s.coefRefused w b i.toNat then s.inc (WHL_COEF_REFUSED_COUNT w) else s.bankPut w b i.toNat v

/-- COEF_BANK_WRITE: lands in the inactive bank, or is refused and counted (R63). -/
def execCoefBankWrite (w : Fin 64) (b : Fin 2) (i : BitVec 10) (v : Word) (s : State) : Host.Outcome State Fault Refusal :=
  .next (s.access .wheel (some (.coefBankWrite w b i v)) (coefWriteOp w b i v))

/-- SWAP_REQUEST (R64, R65). -/
def swapRequestOp (k : Fin 8) (bank : Fin 2) (atPlant : Bool) (s : State) : State :=
  ((s.put (RGS_RG_SWAP_BANK k) bank).putB (RGS_RG_SWAP_AT_PLANT k) atPlant).swapRequest k { bank := bank, hw := false, atPlant := atPlant }

/-- SWAP_REQUEST: a write of RGS.RGk.SWAP with GO (R64, R65). -/
def execSwapRequest (k : Fin 8) (bank : Fin 2) (atPlant : Bool) (s : State) : Host.Outcome State Fault Refusal :=
  .next (s.access .wheel (some (.swapRequest k bank atPlant)) (swapRequestOp k bank atPlant))

/-- ISTATE_WRITE (R67). -/
def istateWriteOp (w : Fin 64) (j : Fin 4) (v : Word) (s : State) : State :=
  s.when s.fired (·.onWheel w fun x => { x with preset := assocPut x.preset j v })

/-- ISTATE_WRITE: presets the integrator state at the group's next sample start; ignored while no Glaze is in force (R67). -/
def execIstateWrite (w : Fin 64) (j : Fin 4) (v : Word) (s : State) : Host.Outcome State Fault Refusal :=
  .next (s.access .wheel (some (.istateWrite w j v)) (istateWriteOp w j v))

/-- MBOX_READ: the read of RGS.MBOX_HI and the entry removed (R68). -/
def mboxReadOp (s : State) : State × Nat :=
  ((s.withFab { s.fab with mbox := s.fab.mbox.tail }), s.mboxWord true)

/-- MBOX_READ: a read of RGS.MBOX_HI returns the oldest entry's tag, Wheel and group, and removes it (R68). -/
def execMboxRead (s : State) : Host.Outcome State Fault Refusal := .next (s.accessV .wheel (some .mboxRead) mboxReadOp)

/-- MBOX_THRESH_WRITE (R68). -/
def mboxThreshOp (v : BitVec 7) (s : State) : State :=
  (s.put RGS_MBOX_STAT_THRESH v.toNat).when (decide (v.toNat ≤ s.fab.mbox.length)) (·.put RGS_INT_MBOX_LEVEL 1)

/-- MBOX_THRESH_WRITE: sets the threshold, and INT.MBOX_LEVEL where LEVEL is at or above it (R68). -/
def execMboxThreshWrite (v : BitVec 7) (s : State) : Host.Outcome State Fault Refusal :=
  .next (s.access .wheel (some (.mboxThreshWrite v)) (mboxThreshOp v))

/-! ### Firing (R42) -/

/-- The fabric as a firing puts image `g` in force: programs, banks, slots, owners, placement; registers cleared, integrators at
their presets and clamped to bank A; groups at bank A with their counters at 0 (R42, R62, R70, R89, R94, R157). The sticky flags of RGk.STATUS
and WHLn.STATUS are of the Glaze before and clear with them. (DESIGN CHOICE, log entry 123.) -/
def State.fabricFiring (s : State) (g : GlazeImage) (place : Placement) : State :=
  let prog := g.wheels.foldl (fun m d =>
    (List.range d.program.length).foldl (fun m i => cellPut m (512 * d.wheel + i) (d.program.getD i 0)) m) []
  let coef := g.coefs.foldl (fun m e => cellPut m ((2 * e.1 + e.2.1) * 1024 + e.2.2.1) e.2.2.2) []
  let slots := g.slots.foldl (fun m e => cellPut m e.1 e.2) []
  let s1 := { s with
    prog := prog, coef := coef, slots := slots, fab := {},
    groups := Vector.replicate 8 {}, wheels := Vector.replicate 64 {}, regs := cellClear s.regs 0x41C20000 0x41C24000 }
  let s2 := s1.each g.owners fun e s => (s.put (RGS_OWNER_KIND e.1) e.2.1).put (RGS_OWNER_INDEX e.1) e.2.2
  let s3 := s2.each eight fun k s =>
    ((((s.put (RGS_RG_STATUS_CONSEC k).whole 0).put (RGS_RG_MISS_COUNT_COUNT k) 0).put (RGS_RG_SAMPLES_COUNT k) 0).put
      (RGS_RG_SWAP_GO k) 0).put (RGS_RG_CLIPS_COUNT k) 0
  let s4 := s3.each sixtyFour fun w s => (s.put (WHL_STATUS_PHYS w).whole 0).put (WHL_STATUS_PHYS w)
    (match place.wheels.find? fun e => e.1 == w.val with
     | some e => e.2
     | none => 0)
  s4.each g.wheels fun d s =>
    if h : d.wheel < 64 then
      let w : Fin 64 := ⟨d.wheel, h⟩
      let bank := fun (i : Nat) => cellGet coef (2 * d.wheel * 1024 + i % 1024)
      let init := fun (j : Fin 4) =>
        let e := d.integ.getD j {}
        (clampOut (bank e.k) { st := e.preset, kinv := kinvOf (bank e.k), hi := bank e.hi, lo := bank e.lo }).1
      let u : WUnits := { integ := Vector.ofFn init }
      let s1 := s.onWheel w fun _ => { decl := d, units := u, work := u }
      (((s1.put (WHL_STATUS_RG w) (d.group.getD 0)).putB (WHL_STATUS_IN_USE w) d.group.isSome).putB
        (WHL_STATUS_SAT w) (four.any fun j => u.integ[j].sat))
    else s

end Sys2Proof.Machine
end

