-- ==== Sys2Proof/Machine/Modulator.lean ====
section
/-!
DEFINITION. The modulators: carrier, load points, compare, dead time, minimum pulse, bootstrap refresh, overrides, gating
and restart, epoch and carrier hop (09_modulators.md, R211, R220, R222).
-/

namespace Sys2Proof.Machine

open Sys2Proof

/-! ### Stages 1 to 4: the plan of a period (R176 to R182) -/

/-- The fixed times of a pair in edge steps, with its stretch modes (R178, R182). -/
def State.dtOf (s : State) (p : Fin 9) : Nat := 16 * s.get (MOD_DEADTIME_DT p)
def State.mpA (s : State) (p : Fin 9) : Nat := 16 * s.get (MOD_MINPULSE_MP_A p)
def State.mpB (s : State) (p : Fin 9) : Nat := 16 * s.get (MOD_MINPULSE_MP_B p)

/-- W_R, the refresh width (R182). -/
def State.wRef (s : State) (p : Fin 9) : Nat := max (s.refreshTime p) (s.mpB p)

/-- A width is below the minimum, 0 or less included (R178). -/
def tooShort (on off mp : Nat) : Bool := decide (off < on + mp) || decide (off ≤ on)

/-- The plan of a period of length `l` for compare `cmp`: dead time first, then minimum pulses; an output that stays on through
the boundary has no edge there, one that follows the other waits `dt` (R176, R178). `carA` and `carB`: on when it begins. -/
def shape (l dt mpa mpb : Nat) (stA stB : Bool) (cmp : Nat) (carA carB : Bool) : Plan :=
  let aS := if carB then dt else 0
  let bS := if carA then dt else 0
  let allB := fun (d : Nat) => ({ aTurn := aS, drops := d,
                                    edges := { aOff := if carA then some 0 else none, bOn := if carB then none else some bS } } : Plan)
  let allA := fun (d st : Nat) => ({ aTurn := aS, drops := d, stretches := st,
                                       edges := { bOff := if carB then some 0 else none, aOn := if carA then none else some aS } } : Plan)
  let both := fun (off on st : Nat) => ({ aTurn := aS, stretches := st,
                                            edges := { bOff := if carB then some 0 else none, aOn := if carA then none else some aS,
                                                       aOff := some off, bOn := some on } } : Plan)
  let judgeB := fun (off on st : Nat) =>
    if tooShort on l mpb then (if stB && mpb != 0 then both (l - mpb - dt) (l - mpb) (st + 1) else allA 1 st) else both off on st
  if cmp = 0 then allB 0
  else if l ≤ cmp then allA 0 0
  else if tooShort dt cmp mpa then
    (if stA && mpa != 0 then judgeB (dt + mpa) (dt + mpa + dt) 1 else allB 1)
  else judgeB cmp (cmp + dt) 0

/-- The refresh applied to edges still due: B on for the last `wr` edge steps, A off `dt` before it, an earlier edge of A kept
(R182). `aLive` says that A is on or has a turn-on due. -/
def refreshEdges (l dt wr : Nat) (aLive : Bool) (e : Edges) : Edges :=
  if aLive then
    let off := min (e.aOff.getD l) (l - wr - dt)
    let on := min (e.bOn.getD l) (l - wr)
    match e.aOn with
    | some a => if off ≤ a then { e with aOn := none, aOff := none, bOn := some on } else { e with aOff := some off, bOn := some on }
    | none => { e with aOff := some off, bOn := some on }
  else { e with bOn := e.bOn.map fun b => min b (l - wr) }

/-- A has a pulse under edges `e`, on or due. -/
def aLive (e : Edges) (onNow : Bool) : Bool := e.aOn.isSome || (onNow && e.aOff != some 0)

/-- The plan of pair `p` for a period of length `l`, with the refresh if `ref` (R178, R182). (DEDUCED, log entry 46.) -/
def State.planOf (s : State) (p : Fin 9) (l cmp : Nat) (carA carB ref : Bool) : Plan :=
  let pl := shape l (s.dtOf p) (s.mpA p) (s.mpB p) (s.bit (MOD_MINPULSE_MODE_A p)) (s.bit (MOD_MINPULSE_MODE_B p)) cmp carA carB
  if ref then { pl with edges := refreshEdges l (s.dtOf p) (s.wRef p) (aLive pl.edges carA) pl.edges } else pl

/-! ### Mid-period update (R175, R177) -/

/-- A value latched at `pos` while A is on: A's turn-off is the latest of the compare, turn-on + MP_A and `pos` + 128; B follows,
stretched where that moves A no earlier, else dropped, A then staying on (R177, R178). -/
def midOn (l dt mpa mpb : Nat) (stB : Bool) (cmp pos aTurn : Nat) (carA : Bool) : Plan :=
  let eff := pos + 128
  let least := if carA then 0 else aTurn + mpa
  let off := max (max (min cmp l) least) eff
  let st := if least = off ∧ cmp < off then 1 else 0
  if l ≤ off then { aTurn := aTurn, stretches := st }
  else if tooShort (off + dt) l mpb then
    (if stB && mpb != 0 && decide (max eff least + dt + mpb ≤ l) then
      { edges := { aOff := some (l - mpb - dt), bOn := some (l - mpb) }, aTurn := aTurn, stretches := st + 1 }
    else { aTurn := aTurn, drops := 1, stretches := st })
  else { edges := { aOff := some off, bOn := some (off + dt) }, aTurn := aTurn, stretches := st }

/-- A value latched at `pos` before A's turn-on position: the plan `pl` computed afresh, an edge that it would place before
`pos` + 128 placed there (R175, R177). `bOn` says that B is on now. -/
def midBefore (dt pos : Nat) (bOn : Bool) (pl : Plan) : Plan :=
  let eff := pos + 128
  match pl.edges.aOn with
  | none => { pl with edges := { bOn := if bOn then none else some eff } }
  | some a =>
    let on := max (max a eff) (if bOn then eff + dt else 0)
    let off := pl.edges.aOff.map (max · eff)
    match off with
    | some o =>
      if o ≤ on then { pl with edges := { bOn := if bOn then none else some eff } }
      else { pl with edges := { bOff := if bOn then some eff else none, aOn := some on, aOff := some o, bOn := pl.edges.bOn }, aTurn := on }
    | none => { pl with edges := { bOff := if bOn then some eff else none, aOn := some on }, aTurn := on }

/-- Pair `p` with the value `cmp` latched at `pos` under UPD 1; none where it waits for the next period (R177). (DEDUCED, log entry 49.) -/
def State.midUpdate (s : State) (p : Fin 9) (pos cmp : Nat) : Option Plan :=
  let x := s.mod.pairs[p]
  let ref := s.bit (MOD_STATUS_REFRESH p)
  let stB := s.bit (MOD_MINPULSE_MODE_B p)
  let fix := fun (onNow : Bool) (pl : Plan) =>
    if ref then { pl with edges := refreshEdges x.len (s.dtOf p) (s.wRef p) (aLive pl.edges onNow) pl.edges } else pl
  if x.waveA then some (fix true (midOn x.len (s.dtOf p) (s.mpA p) (s.mpB p) stB cmp pos x.plan.aTurn x.carA))
  else if pos < x.plan.aTurn then
    let pl := shape x.len (s.dtOf p) (s.mpA p) (s.mpB p) (s.bit (MOD_MINPULSE_MODE_A p)) stB cmp x.carA x.carB
    some (fix false (midBefore (s.dtOf p) pos x.waveB pl))
  else none

/-! ### Stages 5 and 6: overrides, guard, gating (R183, R184) -/

/-- What channel A's and channel B's inputs are asked for by stage 5 at position `pos`, before the guard (R183). -/
def State.wanted (s : State) (p : Fin 9) (pos : Nat) : Bool × Bool :=
  let x := s.mod.pairs[p]
  let w := if x.ovrNow.testBit 4 then (x.waveB, x.waveA) else (x.waveA, x.waveB)
  let w := (w.1 != x.ovrNow.testBit 5, w.2 != x.ovrNow.testBit 6)
  if !s.bit (MOD_CTRL_EN p) || !s.bit (MOD_STATUS_RUN p) then (false, false)
  else match s.get (MOD_OVR_FORCE p) with
    | 0 => w
    | 1 => (false, false)
    | 2 => if s.bit (MOD_STATUS_REFRESH p) then
        (decide (pos + s.wRef p + s.dtOf p < x.len), decide (x.len ≤ pos + s.wRef p)) else (true, false)
    | _ => (false, true)

/-- The guard of R183 at position `pos`: the outputs that result from the requests `wa` and `wb`, and when each turned off. -/
def guardStage (x : Pair) (dt pos : Nat) (wa wb : Bool) : Pair :=
  let keepA := x.outA && wa
  let keepB := x.outB && wb
  let offA : Int := if x.outA && !wa then pos else x.offAtA
  let offB : Int := if x.outB && !wb then pos else x.offAtB
  let readyA := wa && !keepA && !keepB && decide (offB + dt ≤ pos)
  let readyB := wb && !keepB && !keepA && decide (offA + dt ≤ pos)
  { x with outA := keepA || (readyA && !readyB), outB := keepB || (readyB && !readyA), offAtA := offA, offAtB := offB }

/-- The blanking lines raised by a turn-on edge that pair `p` issues: of A if `a`, else of B (R211). -/
def State.blankFrom (s : State) (p : Fin 9) (a : Bool) : State :=
  s.each (List.finRange 44) fun n s =>
    let e := s.get (WIN_CFG_BLANK_EDGE n)
    if s.wins[n].enabled && !s.bit (WIN_CFG_FILT n) && s.get (WIN_CFG_BLANK_PAIR n) == p.val && s.get (WIN_CFG_BLANK n) != 0 &&
        (e == 3 || e == (if a then 1 else 2)) then s.onWin n fun w => { w with blank := true } else s

/-- A channel's input after stage 6 goes to the tile: an edge only where it differs from the request standing there. While the tile's
safe order runs no edge reaches it (R225), and a turn-on of A that falls due while A waits for its bootstrap voltage is not issued
(R196). -/
def State.toChannel (s : State) (p n : Fin 9) (c : Fin 2) (on : Bool) : State :=
  let x := s.chan n c
  if s.sit.orderTiles.contains n.val then s
  else if on then
    if x.req || x.bootSkip then s
    else if x.bootWait then s.onChan n c fun x => { x with bootSkip := true }
    else (s.chanReqOn n c).blankFrom p (c = 0)
  else s.when (x.req || x.bootSkip) (·.chanReqOff n c)

/-- Pair `p` drives its tile at position `pos`: stage 5 with its guard, then stage 6; turn-offs before turn-ons; channel B's
gated on-intervals are noted for R182 (R183, R184, R217). -/
def State.drive (s : State) (p : Fin 9) (pos : Nat) : State :=
  let w := s.wanted p pos
  let s1 := s.onPair p fun x => guardStage x (s.dtOf p) pos w.1 w.2
  let x := s1.mod.pairs[p]
  let free := !s1.pairGated p
  let bNow := x.outB && free
  let s2 := s1.onPair p fun x => if bNow then { x with bOnSince := some (x.bOnSince.getD pos) } else x.endB pos (s.refreshTime p)
  match s2.tileOf p with
  | none => s2
  | some n =>
    let off := (s2.when (!(x.outA && free)) (·.toChannel p n 0 false)).when (!bNow) (·.toChannel p n 1 false)
    (off.when (x.outA && free) (·.toChannel p n 0 true)).when bNow (·.toChannel p n 1 true)

/-! ### Edges and load points (R174 to R178) -/

/-- The position at which an event of kind `k` falls due in the current period of pair `p`: a planned edge, the end of a guard's
wait, or an end of the refresh window under FORCE = A_ON. -/
def State.edgeAt (s : State) (p : Fin 9) (k : EdgeKind) : Option Nat :=
  let x := s.mod.pairs[p]
  let w := s.wanted p (s.get (MOD_CNT_CNT p))
  let forced := s.get (MOD_OVR_FORCE p) == 2 && s.bit (MOD_STATUS_REFRESH p)
  match k with
  | .aOn => x.plan.edges.aOn
  | .aOff => x.plan.edges.aOff
  | .bOn => x.plan.edges.bOn
  | .bOff => x.plan.edges.bOff
  | .guard => if w.1 && !x.outA && !x.outB then some (x.offAtB + s.dtOf p).toNat
      else if w.2 && !x.outB && !x.outA then some (x.offAtA + s.dtOf p).toNat else none
  | .forceOff => if forced then some (x.len - s.wRef p - s.dtOf p) else none
  | .forceOn => if forced then some (x.len - s.wRef p) else none

/-- The stage-4 levels and the edges still due after the edge of kind `k`. -/
def takeEdge (x : Pair) (k : EdgeKind) : Pair :=
  let e := x.plan.edges
  match k with
  | .aOn => { x with waveA := true, plan := { x.plan with edges := { e with aOn := none } } }
  | .aOff => { x with waveA := false, plan := { x.plan with edges := { e with aOff := none } } }
  | .bOn => { x with waveB := true, plan := { x.plan with edges := { e with bOn := none } } }
  | .bOff => { x with waveB := false, plan := { x.plan with edges := { e with bOff := none } } }
  | _ => x

/-- The edges that fall due at position 0, the period boundary, taken. -/
def boundaryEdges (x : Pair) : Pair :=
  let step := fun (x : Pair) (k : EdgeKind) (at_ : Option Nat) => if at_ = some 0 then takeEdge x k else x
  let x1 := step x .aOff x.plan.edges.aOff
  let x2 := step x1 .bOff x1.plan.edges.bOff
  let x3 := step x2 .aOn x2.plan.edges.aOn
  step x3 .bOn x3.plan.edges.bOn

/-- The gates of the pair's tile as they are found: bit 0 of channel A, bit 1 of B, at or above VNEG + 2.0 V though the channel is off
(R194). -/
def State.gatesTold (s : State) (p : Fin 9) (high : BitVec 2) : State :=
  match s.tileOf p with
  | some n => (s.gateTold n 0 (high.toNat.testBit 0)).gateTold n 1 (high.toNat.testBit 1)
  | none => s

/-- EDGE_DUE: the pair's counter reaches an edge's position: the wave changes, and the edge is issued after overrides, guard and
gating (R178, R183, R184). An edge that is not due in this period does nothing. -/
def execEdgeDue (p : Fin 9) (a : EdgeAt) (s : State) : Host.Outcome State Fault Refusal :=
  .next (
    match s.edgeAt p a.kind with
    | none => s
    | some pos =>
      if s.up .mod && decide (pos < s.mod.pairs[p].len) then
        (((s.gatesTold p a.high).put (MOD_CNT_CNT p) pos).onPair p fun x => takeEdge x a.kind).drive p pos
      else s)

/-- Pair `x` in MOD cycle `m`: a publication that arrived in an earlier cycle is the one that load points latch (R175). -/
def Pair.settle (x : Pair) (m : Nat) : Pair :=
  match x.incoming with
  | some (a, v) => if a < m then { x with arrived := v, incoming := none } else x
  | none => x

/-- A publication arrives at pair `x` in MOD cycle `m`: load points of later cycles latch it (R175). -/
def Pair.arrive (x : Pair) (m v : Nat) : Pair := { x.settle m with incoming := some (m, v) }

/-- COMPARE_ARRIVAL: the publication of group `k` (or, with none, of another owner) arrives in the MOD island in one transfer:
every pair whose compare slot it holds takes the value for its next load point of a later MOD cycle (R55, R175). (DEDUCED, log entry
50.) -/
def execCompareArrival (x : ArrivalAt) (s : State) : Host.Outcome State Fault Refusal :=
  .next (
    if !s.up .mod then s
    else (s.modLater x.cycle).each nine fun p t =>
      let slot := s.get (MOD_LOADPT_CMP_SLOT p)
      let mine := match x.group with
        | some g => s.get (RGS_OWNER_KIND slot) == 1 && s.get (RGS_OWNER_INDEX slot) == g.val
        | none => s.get (RGS_OWNER_KIND slot) != 1
      t.when mine (·.onPair p fun q => q.arrive (s.mod.cyc + x.cycle) (s.slot slot).toNat))

/-- LOAD_POINT: at ⌊k·L/NLP⌋ the pair latches the compare that arrived in an earlier MOD cycle and signals the event to rate groups; with
UPD 1 the value acts on the current period (R174, R175, R177). -/
def execLoadPoint (a : PairAt) (s : State) : Host.Outcome State Fault Refusal :=
  .next (
    let p := a.pair
    let x := s.mod.pairs[p].settle (s.mod.cyc + a.cycle)
    let nlp := s.get (MOD_LOADPT_NLP p) + 1
    if !s.up .mod || decide (x.len = 0) || decide (nlp ≤ x.lp) then s
    else
      let pos := x.lp * x.len / nlp
      let s1 := ((s.modLater a.cycle).put (MOD_CNT_CNT p) pos).onPair p fun _ => { x with lp := x.lp + 1, latched := x.arrived }
      let s2 :=
        if s.bit (MOD_LOADPT_UPD p) && x.arrived != s.get (MOD_CMP_NOW_CMP p) then
          match s.midUpdate p pos x.arrived with
          | some pl => (s1.put (MOD_CMP_NOW_CMP p) x.arrived).onPair p fun x => { x with plan := pl }
          | none => s1
        else s1
      s2.sourceEvent 2 p)

/-! ### Period start (R172, R173, R182, R184, R220, R222) -/

/-- The hop step in force (R185). -/
def State.hopStep (s : State) : Int := s.getI MOD_HOP_STATUS_STEP

/-- The shortest period of pair `p` in edge steps at the hop step in force (R173). -/
def State.periodFloor (s : State) (p : Fin 9) : Nat :=
  let pm := s.get (MOD_FMAX_PMIN p)
  max pm ((pm * (256 + s.hopStep).toNat + 255) / 256)

/-- The length of the next period: PERIOD with the deviation and the single steps that it absorbs, never below the floor (R173, R174,
R313). (DEDUCED, log entry 104.) -/
def State.nextLen (s : State) (p : Fin 9) (period : Nat) (slew adjust : Int) : Nat :=
  let lim := s.get MOD_SLEW_SLEW
  let part := fun (d : Nat) => if lim = 0 then d else min d lim
  let l : Int := if 0 < slew then period + part slew.natAbs else if slew < 0 then period - part slew.natAbs else period
  max (l + adjust).toNat (s.periodFloor p)

/-- The period that ends is closed: counts of its pulses, channel B's on-interval, and the times at which the outputs turned
off, from now on counted in the next period (R178, R182). -/
def State.closePeriod (s : State) (p : Fin 9) : State :=
  let x := s.mod.pairs[p]
  if x.len = 0 then s
  else
    let add := fun (f : Fld) (n : Nat) (s : State) => s.put f (min 0xFFFF (s.get f + n))
    let seen := (x.endB x.len (s.refreshTime p)).bSeen
    let s1 := add (MOD_STRETCHES_COUNT p) x.plan.stretches (add (MOD_DROPS_COUNT p) x.plan.drops s)
    s1.onPair p fun x => { x with
      bHist := (seen :: x.bHist).take 64, bSeen := false, bOnSince := x.bOnSince.map fun _ => 0,
      offAtA := x.offAtA - x.len, offAtB := x.offAtB - x.len }

/-- The tile's BOOT_UV window moves on by one period, and its trip request is withdrawn (R196). -/
def State.closeBoot (s : State) (p : Fin 9) : State :=
  match s.tileOf p with
  | none => s
  | some n =>
    let s1 := s.onTile n fun t => { t with bootHist := (t.bootThis :: t.bootHist).take 63, bootThis := false, bootTrip := false }
    s1.put (SET_BOOT_EVENTS_WINDOW n) (bootWindow s1.tiles[n])

/-- The Sitter's test of a pair's trip input at its period start: skipped, or released (R220, R222). -/
def State.tripTest (s : State) (p : Fin 9) : State :=
  if s.tripInput p && !(s.phase == 5) then
    let r := if s.mod.pairs[p].cycleTrip then (s, 0) else s.cutPairs [p]
    let s1 := ((r.1.inc (SIT_SKIP_COUNT p)).inc (SIT_SKIP_CONSEC p)).put SIT_INT_SKIP 1
    if s.get (SIT_SKIP_CONSEC p) + 1 == s.get SIT_ORDER_SKIP_MAX then s1.raiseStopAlso .tripPersist p r.2 else s1.coneIf r.2 p
  else s.onPair p fun x => { x with cycleTrip := false }

/-- The other holds of a pair at its period start: a cessation hold is applied or withdrawn; the hold of a disarmed tile, phase
0x5 or a block stop ends once the tile is armed (R116, R184, R217). -/
def State.holdTest (s : State) (p : Fin 9) : State :=
  let armed := match s.tileOf p with
    | some n => s.bit (SET_STATUS_ARMED n) && !s.bit SIT_STATUS_BLOCK_STOP && !s.sit.orderTiles.contains n.val && s.fired
    | none => false
  s.onPair p fun x => { x with hold := x.holdWanted, stopHold := x.stopHold && !armed }

/-- A period start at which nothing holds the pair: it restarts or runs on, its skips end, and a later cycle trip is the first since
(R220, R392). -/
def State.restartTest (s : State) (p : Fin 9) : State :=
  if s.pairGated p then s else (s.put (SIT_SKIP_CONSEC p) 0).onPair p fun x => { x with tripFirst := true }

/-- The new period is a refresh period (R182). (DEDUCED, log entry 47.) -/
def State.refreshDue (s : State) (p : Fin 9) : Bool :=
  let x := s.mod.pairs[p]
  s.bit (MOD_REFRESH_BOOT p) && (x.refreshNext || !(x.bHist.take (s.get (MOD_REFRESH_N p) + 1)).any id)

/-- Both channels' requests of a gated pair end, so that a release takes up the outputs anew (R184). -/
def State.dropRequests (s : State) (p : Fin 9) : State :=
  match s.tileOf p with
  | some n => if s.pairGated p then (s.toChannel p n 0 false).toChannel p n 1 false else s
  | none => s

/-- PERIOD_START: the counter starts a new period at 0: PERIOD, overrides and compare are taken, the holds and the trip input are
tested, refresh is decided, and the period's edges are planned (R171 to R173, R176, R178, R182 to R184, R217, R220). -/
def execPeriodStart (a : PairGates) (s : State) : Host.Outcome State Fault Refusal :=
  .next (
    let p := a.pair
    if !s.up .mod || !s.bit (MOD_STATUS_RUN p) then s
    else
      let s1 := (((s.gatesTold p a.high).dropRequests p).closePeriod p).closeBoot p
      let x1 := s1.mod.pairs[p]
      let period := x1.periodNext.getD x1.periodNow
      let l := s1.nextLen p period x1.slew x1.adjust
      let s2 := (((s1.tripTest p).holdTest p).restartTest p).put (MOD_CNT_CNT p) 0
      let ref := s2.refreshDue p
      let cmp := x1.latched
      let s3 := ((s2.putB (MOD_STATUS_REFRESH p) ref).when ref (·.inc (MOD_REFRESHES_COUNT p))).put (MOD_CMP_NOW_CMP p) cmp
      let pl := s3.planOf p l cmp x1.waveA x1.waveB ref
      let s4 := s3.onPair p fun x => boundaryEdges { x with
        len := l, lp := 0, periodNow := period, periodNext := none, slew := 0, adjust := 0, refreshNext := false,
        ovrNow := s.get (MOD_OVR_FORCE p).whole, plan := pl, carA := x1.waveA, carB := x1.waveB }
      s4.drive p 0)

/-! ### Carrier hop (R185, R186) -/

/-- `num`/`den` Hz lies in the band from the float32 `lo` to the float32 `hi`, an enabled one (R185). -/
def inBand (num den : Nat) (lo hi : Word) : Bool :=
  let least := match F32.of lo with
    | .nan => false | .inf neg => neg | .fin true _ => true | .fin false v => decide (v * den ≤ num * 2 ^ 149)
  let most := match F32.of hi with
    | .nan => false | .inf neg => !neg | .fin true _ => false | .fin false v => decide (num * 2 ^ 149 ≤ v * den)
  flt lo hi && least && most

/-- Harmonics of the pairs in HOP_PAIRS that lie in enabled quiet bands at step `st` (R185). -/
def State.hopHits (s : State) (st : Int) : Nat :=
  (nine.filter fun (p : Fin 9) => s.bitAt MOD_HOP_CFG_HOP_PAIRS p).foldl (fun (m : Nat) (p : Fin 9) =>
    m + ((List.range (s.get MOD_HOP_CFG_HMAX)).countP fun (h : Nat) =>
      eight.any fun (k : Fin 8) => inBand ((h + 1) * 100000000 * (256 + st).toNat) (s.get (MOD_PERIOD_PERIOD p))
        (s.word (MOD_QB_LO_LO k)) (s.word (MOD_QB_HI_HI k)))) 0

/-- The steps in the order of preference of equals: smallest magnitude first, the negative one of a pair first (R185). -/
def hopOrder (m : Nat) : List Int := 0 :: (List.range m).flatMap fun (i : Nat) => [-((i : Int) + 1), (i : Int) + 1]

/-- The step the controller chooses, and how many harmonics lie in bands there (R185). (DEDUCED, log entry 48.) -/
def State.hopChoice (s : State) : Int × Nat :=
  let l := ((hopOrder (s.get MOD_HOP_CFG_HOP_MAX)).filter s.hopEligible).map fun st => (st, s.hopHits st)
  match l with
  | [] => (0, 0)
  | h :: t => t.foldl (fun best e => if e.2 < best.2 then e else best) h

/-- A hop step awaits its frame, its epoch or the lock of PLL2 (R186, R272). -/
def State.hopPending (s : State) : Bool := s.mod.hopPlant.isSome || s.mod.hopFrame.isSome || s.mod.hopDue.isSome

/-- No step awaits its epoch any more; one may still await its frame (R186). -/
def State.hopTaken (s : State) : State :=
  let s1 := s.withMod { s.mod with hopDue := none, hopWait := false }
  s1.putB MOD_HOP_STATUS_PENDING s1.hopPending

/-- The step in force changes, or waits for PLL2 to lock, PENDING; PLL2 follows it unit by unit (R186, R270, R272). -/
def State.hopApply (s : State) (st : Int) : State :=
  if !s.bit (CLK_PLL_STATUS_LOCK 2) then (s.withMod { s.mod with hopDue := some st, hopWait := true }).put MOD_HOP_STATUS_PENDING 1
  else
    let s1 := s.hopTaken
    if st = s.hopStep then s1
    else
      let s2 := ((s1.putI MOD_HOP_STATUS_STEP st).incWrap MOD_HOP_STATUS_HOPS).put MOD_INT_HOP_DONE 1
      s2.onPll 2 fun x => { x with target := (256 + st).toNat, stepLeft := (256 + st).toNat != s.get (CLK_PLL_STATUS_N_NOW 2) }

/-- A step awaits its epoch; without an epoch it applies at once (R173, R186). -/
def State.hopAwait (s : State) (st : Int) : State :=
  if s.get MOD_EPOCH_EPOCH = 0 then s.hopApply st
  else (s.withMod { s.mod with hopDue := some st }).put MOD_HOP_STATUS_PENDING 1

/-- The step that a manager's control frames have brought about or will: the one in a frame sent, else the one awaiting its epoch, else
the one in force (R186). -/
def State.hopAhead (s : State) : Int := s.mod.hopFrame.getD (s.mod.hopDue.getD s.hopStep)

/-- An evaluation of the hop controller: the choice, NO_CLEAR, and its application by MODE; the choice takes the place of an earlier one
that has not been applied or sent (R185, R186). -/
def State.hopEval (s : State) : State :=
  let c := s.hopChoice
  let s1 := (s.putB MOD_HOP_STATUS_NO_CLEAR (c.2 != 0)).when (c.2 != 0) (·.put MOD_INT_NO_CLEAR 1)
  match s.get MOD_HOP_CFG_MODE with
  | 0 => if s.hopStep = 0 then s1.hopTaken else s1.hopAwait 0
  | 1 => if c.1 = s.hopStep then s1.hopTaken else s1.hopAwait c.1
  | 2 =>
    if !s.isManager then s1
    else if c.1 = s.hopAhead then
      (s1.withMod { s1.mod with hopPlant := none }).putB MOD_HOP_STATUS_PENDING (s.mod.hopFrame.isSome || s.mod.hopDue.isSome)
    else (s1.withMod { s1.mod with hopPlant := some c.1 }).put MOD_HOP_STATUS_PENDING 1
  | _ => s1

/-- HOP_EVAL: MOD.HOP_CTRL.EVAL (R185). -/
def execHopEval (s : State) : Host.Outcome State Fault Refusal := .next (s.access .mod (some .hopEval) State.hopEval)

/-- QUIET_BAND_WRITE (R185). -/
def quietBandOp (k : Fin 8) (hi : Bool) (v : Word) (s : State) : State :=
  (s.put (if hi then MOD_QB_HI_HI k else MOD_QB_LO_LO k) v.toNat).hopEval

/-- QUIET_BAND_WRITE: a QB register takes the value and the controller evaluates (R185). -/
def execQuietBandWrite (k : Fin 8) (hi : Bool) (v : Word) (s : State) : Host.Outcome State Fault Refusal :=
  .next (s.access .mod (some (.quietBandWrite k hi v)) (quietBandOp k hi v))

/-! ### Epoch (R173, R313, R328) -/

/-- Pair `p` is aligned: it asks for it and its PERIOD divides EPOCH (R173). -/
def State.pairAligned (s : State) (p : Fin 9) : Bool :=
  let per := s.mod.pairs[p].periodNow
  s.bit (MOD_CTRL_ALIGN p) && s.bit (MOD_STATUS_RUN p) && s.get MOD_EPOCH_EPOCH != 0 && per != 0 && s.get MOD_EPOCH_EPOCH % per == 0

/-- The deviation of a counter at an epoch, wrapped to half a period either way (R173). -/
def deviation (cnt epoch phase period : Nat) : Int :=
  let d := ((cnt : Int) - ((epoch : Int) - phase) % period) % period
  if period / 2 < d then d - period else d

/-- Pair `p` at an epoch: its deviation is recorded and the next period absorbs it (R173). -/
def State.epochPair (s : State) (p : Fin 9) : State :=
  if !s.pairAligned p then s.put (MOD_STATUS_ALIGNED p) 0
  else
    let x := s.mod.pairs[p]
    let d := deviation (s.get (MOD_CNT_CNT p)) (s.get MOD_EPOCH_EPOCH) (s.get (MOD_PHASE_PHASE p)) x.periodNow
    let s1 := ((s.putI (MOD_DEV_D p) d).putB (MOD_STATUS_ALIGNED p) (d == 0)).when (d != 0) (·.put MOD_INT_ALIGN_LOST 1)
    s1.onPair p fun x => { x with slew := d }

/-- The NET island captures PTP time at an epoch; the MOD island's interpolation within the NET cycle of the capture is a free value (R328).
(DESIGN CHOICE, log entry 129.) -/
def State.epochStamp (s : State) : State :=
  if s.netRuns then
    ((s.tookFree.put NET_EPOCH_TS_SEC (s.net.ptp.sec % 65536)).put NET_EPOCH_TS_NS s.net.ptp.ns).put NET_EPOCH_TS_PS (s.freeWord.toNat % 1000)
  else s

/-- A manager sends SYNC and a TIME frame on every chain lane, and on a ring lane that reaches workers: the departure offset from the epoch,
which is a free value, then its PTP time at the epoch and whether that time is valid (R18, R313, R317, R327). (DESIGN CHOICE, log entry 66.) -/
def State.sendSync (s : State) : State :=
  s.when s.isManager fun s =>
    (s.tookFree.sendPlant .sync (s.freeWord.toNat % 2 ^ 24)).each s.plantLanes fun l t =>
      t.sendFrame l { cls := 3, scope := 1 } 0 [s.net.ptp.sec, s.net.ptp.ns, s.net.ptp.frac, bitOf s.ptpValid]

/-- A hop step at its epoch: applied; one that a PERIOD written since makes ineligible is not, and the controller evaluates anew (R186,
R187). (DEDUCED, log entry 48.) -/
def State.hopEpoch (s : State) (st : Int) : State :=
  if !s.hopEligible st then s.hopTaken.hopEval else s.hopApply st

/-- EPOCH: the epoch counter starts anew; aligned pairs find their deviation, a hop step that awaits the epoch applies, EPOCH_TS is
captured and a manager sends SYNC and TIME (R173, R186, R313, R328). With EPOCH 0 there is no epoch. -/
def execEpoch (s : State) : Host.Outcome State Fault Refusal :=
  .next (
    if !s.up .mod || s.get MOD_EPOCH_EPOCH == 0 then s
    else
      let s1 := s.withMod { s.mod with epochCnt := 0 }
      let s2 := s1.each nine fun p s => s.epochPair p
      let s3 := match s.mod.hopDue with
        | some st => s2.hopEpoch st
        | none => s2
      s3.epochStamp.sendSync)

/-! ### Firmware writes (R172, R183) -/

/-- A modulator write is refused. -/
def State.modRefuse (s : State) (p : Fin 9) : State := (s.inc (MOD_REFUSED_COUNT p)).put MOD_INT_REFUSED 1

/-- PERIOD_WRITE (R172). -/
def periodWriteOp (p : Fin 9) (v : Word) (s : State) : State :=
  if s.bit (MOD_STATUS_RUN p) && decide (s.get (MOD_FMAX_PMIN p) ≤ v.toNat) && decide (v.toNat ≤ 256000000) then
    ((s.put (MOD_PERIOD_PERIOD p) v.toNat).onPair p fun x => { x with periodNext := some v.toNat }).when
      (s.bitAt MOD_HOP_CFG_HOP_PAIRS p) State.hopEval
  else s.modRefuse p

/-- PERIOD_WRITE: taken at the next period start, or ignored and counted outside PMIN to 256,000,000 and on a stopped pair (R172). -/
def execPeriodWrite (p : Fin 9) (v : Word) (s : State) : Host.Outcome State Fault Refusal :=
  .next (s.access .mod (some (.periodWrite p v)) (periodWriteOp p v))

/-- A write of OVR is accepted (R183). -/
def State.ovrAccepted (s : State) (p : Fin 9) (v : Nat) : Bool :=
  let others := v / 16 % 8
  if others = 0 ∧ v % 4 < 2 then true
  else s.bit (MOD_LOADPT_OVR_EN p) && !(v.testBit 4 && s.bit (MOD_REFRESH_BOOT p))

/-- OVR_WRITE (R183). -/
def ovrWriteOp (p : Fin 9) (v : Word) (s : State) : State :=
  if s.ovrAccepted p v.toNat then
    let s1 := (((s.put (MOD_OVR_INV_B p) (v.toNat / 64)).put (MOD_OVR_INV_A p) (v.toNat / 32)).put (MOD_OVR_SWAP p) (v.toNat / 16)).put
      (MOD_OVR_FORCE p) v.toNat
    s1.drive p (s.get (MOD_CNT_CNT p))
  else s.modRefuse p

/-- OVR_WRITE: FORCE acts at once, SWAP and the inversions at the next period start; a refused write leaves OVR unchanged and is
counted (R183). -/
def execOvrWrite (p : Fin 9) (v : Word) (s : State) : Host.Outcome State Fault Refusal :=
  .next (s.access .mod (some (.ovrWrite p v)) (ovrWriteOp p v))

/-! ### Firing (R42, R172, R173, R187) -/

/-- Pair `p` as a firing puts a new Glaze in force: OVR cleared, EN set if routed, its compare in force from its slot; it runs if
its PERIOD lies in range (R42, R172, R187). -/
def State.pairFiring (s : State) (p : Fin 9) : State :=
  let per := s.get (MOD_PERIOD_PERIOD p)
  let run := decide (s.get (MOD_FMAX_PMIN p) ≤ per) && decide (per ≤ 256000000)
  let v := (s.slot (s.get (MOD_LOADPT_CMP_SLOT p))).toNat
  let s1 := (((s.put (MOD_OVR_FORCE p).whole 0).putB (MOD_CTRL_EN p) (s.bit (MOD_ROUTE_USED p))).put (MOD_CMP_NOW_CMP p) v).put
    (MOD_CNT_CNT p) 0
  let s2 := ((s1.putB (MOD_STATUS_RUN p) run).put (MOD_STATUS_REFRESH p) 0).put (MOD_STATUS_ALIGNED p) 0
  s2.onPair p fun x =>
    { latched := v, arrived := v, periodNow := per, cycleTrip := x.cycleTrip, holdWanted := x.holdWanted, tripFirst := x.tripFirst }

/-- The modulators as a firing puts a new Glaze in force: the epoch counter starts from 0, the hop step is kept and evaluated
again (R173, R185, R187). The slots hold the new values already. -/
def State.modFiring (s : State) : State :=
  let s1 := s.withMod { s.mod with epochCnt := 0, hopDue := none, hopWait := false, hopPlant := none }
  ((s1.each nine fun p s => s.pairFiring p).put MOD_HOP_STATUS_PENDING 0).hopEval

end Sys2Proof.Machine
end

