-- ==== Sys2Proof/Machine/Clock.lean ====
section
/-!
DEFINITION. The reference and the PLLs: enabling, configuration, lock, steps and holdover (14_clock_islands_and_plls.md).
-/

namespace Sys2Proof.Machine

open Sys2Proof

/-- The seven PLLs. -/
def seven : List (Fin 7) := [0, 1, 2, 3, 4, 5, 6]

/-- The reference in kHz, by the straps (R263). -/
def State.refKhz (s : State) : Nat := [25000, 25000, 50000, 100000].getD (s.get CLK_REF_SEL) 25000

/-- The nominal output of a PLL in kHz (R12, R265). -/
def nominalKhz (n : Fin 7) : Nat := [1200000, 800000, 400000, 250000, 49152, 156250, 156250].getD n 0

/-- The reference mode in halves: direct, doubled, halved; 0 for the reserved code. -/
def refModeHalves (c : Nat) : Nat := [2, 4, 1, 0].getD c 0

/-- A configuration meets R265, and for PLL2 the further check of R266: detector frequency from 0.1 to 50 MHz, VCO from 2.0 to
4.0 GHz, exactly the nominal output. -/
def pllConfigOk (n : Fin 7) (refKhz mode m p nDiv : Nat) : Bool :=
  let num := refKhz * refModeHalves mode   -- twice the reference after its mode stage
  decide (1 ≤ m) && decide (1 ≤ p) && decide (16 ≤ nDiv) &&
    decide (100 * 2 * m ≤ num) && decide (num ≤ 50000 * 2 * m) &&
    decide (2000000 * 2 * m ≤ num * nDiv) && decide (num * nDiv ≤ 4000000 * 2 * m) &&
    decide (num * nDiv = nominalKhz n * 2 * m * p) &&
    (n != 2 || (nDiv == 256 && num == 12500 * 2 * m))

/-- The reset configuration of PLL `n` under strap `sel`: REFMODE, M and N (R263, R265). -/
def strapConfig (sel : Nat) (n : Fin 7) : Nat × Nat × Nat :=
  let m := [1, 1, 2, 1, 125, 4, 4].getD n 1
  let d := [96, 128, 256, 100, 12288, 500, 500].getD n 16
  if sel = 2 then (2, m, d) else if sel = 3 then (2, if n = 4 then m else 2 * m, if n = 4 then 6144 else d) else (0, m, d)

/-- Every PLL configured as strap `sel` has it at reset (R263, R265). -/
def State.strap (s : State) (sel : Nat) : State :=
  s.each seven fun n s =>
    let c := strapConfig sel n
    ((s.put (CLK_PLL_CTRL_REFMODE n) c.1).put (CLK_PLL_DIV_M n) c.2.1).put (CLK_PLL_DIV_N n) c.2.2

/-- A write of the CLK block is refused. -/
def State.clkRefuse (s : State) : State := (s.inc CLK_REFUSED_COUNT).put CLK_INT_REFUSED 1

/-- A PLL enters holdover: it coasts, LOCK clears and HOLDS counts; `ref` says that the reference was lost (R271). A hop step that it
stops halfway is PENDING again until the PLL re-acquires (R274). (DEDUCED, log entry 56.) -/
def State.enterHoldover (s : State) (n : Fin 7) (ref : Bool) : State :=
  if s.bit (CLK_PLL_STATUS_HOLDOVER n) then s.onPll n fun x => { x with refHold := x.refHold || ref }
  else
    let s1 := ((s.put (CLK_PLL_STATUS_LOCK n) 0).put (CLK_PLL_STATUS_HOLDOVER n) 1).inc (CLK_PLL_HOLDS_COUNT n)
    let s2 := (s1.put CLK_INT_HOLDOVER 1).onPll n fun x => { x with refHold := ref, reacq := false }
    s2.when (n == 2 && s.clk[n].stepLeft) (·.put MOD_HOP_STATUS_PENDING 1)

/-- REF_LOST: the monitor declares the reference lost and every running PLL enters holdover (R264, R271). -/
def execRefLost (s : State) : Host.Outcome State Fault Refusal :=
  .next (
    if s.bit CLK_REF_LOST then s
    else
      let s1 := ((s.put CLK_REF_LOST 1).put CLK_REF_VALID 0).put CLK_INT_REF_LOST 1
      s1.each seven fun n s => s.when (s.bit (CLK_PLL_STATUS_ON n)) (·.enterHoldover n true))

/-- REF_VALID: neither condition of R264 has held for 1 ms. -/
def execRefValid (s : State) : Host.Outcome State Fault Refusal := .next ((s.put CLK_REF_LOST 0).put CLK_REF_VALID 1)

/-- A PLL enabled with the configuration held; with the reference lost it enters holdover at once (R266, R274). -/
def State.pllEnable (s : State) (n : Fin 7) : State :=
  let s1 := ((s.put (CLK_PLL_CTRL_EN n) 1).put (CLK_PLL_STATUS_ON n) 1).put (CLK_PLL_STATUS_N_NOW n) (s.get (CLK_PLL_DIV_N n))
  let s2 := s1.onPll n fun x => { x with target := s.get (CLK_PLL_DIV_N n), stepLeft := false, reacq := false }
  s2.when (s.bit CLK_REF_LOST) (·.enterHoldover n true)

/-- The configuration held by PLL `n` passes its checks (R266). -/
def State.pllOk (s : State) (n : Fin 7) : Bool :=
  pllConfigOk n s.refKhz (s.get (CLK_PLL_CTRL_REFMODE n)) (s.get (CLK_PLL_DIV_M n)) (s.get (CLK_PLL_DIV_P n)) (s.get (CLK_PLL_DIV_N n))

/-- A PLL disabled: its clock stops; with PLL3 PTP time is no longer valid (R269, R327). -/
def State.pllDisable (s : State) (n : Fin 7) : State :=
  let s1 := (((s.put (CLK_PLL_CTRL_EN n) 0).put (CLK_PLL_STATUS_ON n).whole 0).put (CLK_PLL_CTRL_STEP n) 0).onPll n fun x =>
    { x with stepLeft := false, refHold := false, reacq := false }
  s1.when (n == 3) (·.put NET_PTP_STATUS_VALID 0)

/-- The lanes that PLL `n` serves: LANE0 to LANE2 by PLL5, LANE3 to LANE5 by PLL6 (R12). -/
def lanesOf (n : Fin 7) : List Nat := if n = 5 then [0, 1, 2] else if n = 6 then [3, 4, 5] else []

/-- A write of EN = 0 is refused (R269). -/
def State.pllKept (s : State) (n : Fin 7) : Bool :=
  match n.val with
  | 0 => true
  | 1 | 2 => s.phase == 3 || s.phase == 4 || s.phase == 5
  | 3 => false
  | 4 => s.bit MET_CFG_EN && s.glz.active.isSome
  | _ => (lanesOf n).any fun l => s.get (LANE_STATUS_STATE l) == 3 || s.get (LANE_STATUS_STATE l) == 4

/-- PLL_EN_WRITE once it has reached its island. -/
def pllEnWriteOp (n : Fin 7) (en : Bool) (s : State) : State :=
  if en then (if s.bit (CLK_PLL_CTRL_EN n) then s else if s.pllOk n then s.pllEnable n else s.clkRefuse)
  else if s.pllKept n then s.clkRefuse
  else if s.bit (CLK_PLL_CTRL_EN n) then s.pllDisable n else s

/-- PLL_EN_WRITE: CTRL.EN = 1 checks the configuration and enables, EN = 0 disables, or the write is refused and counted
(R266, R269). -/
def execPllEnWrite (n : Fin 7) (en : Bool) (s : State) : Host.Outcome State Fault Refusal := .next (s.access .host none (pllEnWriteOp n en))

/-- PLL_CONFIG_WRITE once it has reached its island. -/
def pllConfigWriteOp (n : Fin 7) (div : Bool) (v : Word) (s : State) : State :=
  if s.bit (CLK_PLL_CTRL_EN n) || (!div && v.toNat / 2 ^ 4 % 4 == 3) then s.clkRefuse
  else if div then
    ((s.put (CLK_PLL_DIV_M n) (v.toNat / 2 ^ 24)).put (CLK_PLL_DIV_P n) (v.toNat / 2 ^ 16)).put (CLK_PLL_DIV_N n) v.toNat
  else s.put (CLK_PLL_CTRL_REFMODE n) (v.toNat / 2 ^ 4)

/-- PLL_CONFIG_WRITE: REFMODE or DIV takes the value while the PLL is disabled, else the write is refused and counted; so is the
reserved REFMODE (R266, R405). -/
def execPllConfigWrite (n : Fin 7) (div : Bool) (v : Word) (s : State) : Host.Outcome State Fault Refusal := .next (s.access .host none (pllConfigWriteOp n div v))

/-- PLL_LOCK: an enabled PLL that does not coast locks, while the reference is valid; its first lock releases its islands from reset (R267). -/
def execPllLock (n : Fin 7) (s : State) : Host.Outcome State Fault Refusal :=
  .next (
    if s.bit (CLK_PLL_STATUS_ON n) && !s.bit (CLK_PLL_STATUS_HOLDOVER n) && s.bit CLK_REF_VALID then
      (s.put (CLK_PLL_STATUS_LOCK n) 1).onPll n fun x => { x with everLocked := true }
    else s)

/-- PLL_LOCK_LOSS: the lock detector finds the phase error of R271 and that PLL enters holdover. -/
def execPllLockLoss (n : Fin 7) (s : State) : Host.Outcome State Fault Refusal :=
  .next (s.when (s.bit (CLK_PLL_STATUS_LOCK n)) (·.enterHoldover n false))

/-- HOLDOVER_EXIT: the PLL leaves holdover and starts to re-acquire; one that lost its reference only once that is valid (R272). -/
def execHoldoverExit (n : Fin 7) (s : State) : Host.Outcome State Fault Refusal :=
  .next (
    if s.bit (CLK_PLL_STATUS_HOLDOVER n) && s.bit CLK_REF_VALID then
      let s1 := (s.put (CLK_PLL_STATUS_HOLDOVER n) 0).onPll n fun x => { x with refHold := false, reacq := true }
      s1.when (n == 2 && s1.clk[n].stepLeft) fun s => s.putB MOD_HOP_STATUS_PENDING s.hopPending
    else s)

/-- PLL_RELOCK: a re-acquiring PLL sets LOCK and INT.RELOCK; a hop step held for PLL2 applies (R272). -/
def execPllRelock (n : Fin 7) (s : State) : Host.Outcome State Fault Refusal :=
  .next (
    if s.clk[n].reacq then
      let s1 := ((s.put (CLK_PLL_STATUS_LOCK n) 1).put CLK_INT_RELOCK 1).onPll n fun x => { x with reacq := false, everLocked := true }
      match s1.mod.hopDue with
      | some st => if n == 2 && s1.mod.hopWait then s1.hopApply st else s1
      | none => s1
    else s)

/-- PLL_STEP once it has reached its island. (DEDUCED, log entry 56.) -/
def pllStepOp (n : Fin 7) (v : BitVec 4) (s : State) : State :=
  if n == 0 && s.bit (CLK_PLL_STATUS_ON 0) && !s.bit (CLK_PLL_STATUS_HOLDOVER 0) && decide (-4 ≤ v.toInt) && decide (v.toInt ≤ 4) then
    let t := (s.get (CLK_PLL_DIV_N 0) + v.toInt).toNat
    (s.put (CLK_PLL_CTRL_STEP 0) v.toNat).onPll 0 fun x => { x with target := t, stepLeft := t != s.get (CLK_PLL_STATUS_N_NOW 0) }
  else s.clkRefuse

/-- PLL_STEP: CTRL.STEP of PLL0 starts a divider step of −4 to +4 from DIV.N; refused on other PLLs, out of range, on a PLL that is
not enabled and in holdover (R270, R272). -/
def execPllStep (n : Fin 7) (v : BitVec 4) (s : State) : Host.Outcome State Fault Refusal := .next (s.access .host none (pllStepOp n v))

/-- PLL_STEP_UNIT: every 2 µs a stepping PLL moves N by one unit towards its target; in holdover it stays (R270, R272). -/
def execPllStepUnit (n : Fin 7) (s : State) : Host.Outcome State Fault Refusal :=
  .next (
    let x := s.clk[n]
    if x.stepLeft && !s.bit (CLK_PLL_STATUS_HOLDOVER n) then
      let now := s.get (CLK_PLL_STATUS_N_NOW n)
      let next := if now < x.target then now + 1 else now - 1
      ((s.put (CLK_PLL_STATUS_N_NOW n) next).put (CLK_PLL_STATUS_STEPPING n) 1).onPll n fun x => { x with stepLeft := next != x.target }
    else s)

/-- PLL_STEP_SETTLED: the output has settled after the last unit (R270). -/
def execPllStepSettled (n : Fin 7) (s : State) : Host.Outcome State Fault Refusal :=
  .next (s.when (!s.clk[n].stepLeft) (·.put (CLK_PLL_STATUS_STEPPING n) 0))

end Sys2Proof.Machine
end

