-- ==== Sys2Proof/Machine/Meter.lean ====
section
/-!
DEFINITION. The METER island: samples, gain ranging, energy, power quality, saves and the journal (13_metering.md). The
filters of R246, the resampling of R250 and the flickermeter of R251 are named by the spec and not given: what they yield is free.
-/

namespace Sys2Proof.Machine

open Sys2Proof

/-! ### Gains (R245) -/

/-- The gain register field of a current channel. -/
def gainFld (c : Fin 4) : Fld :=
  match c with
  | 0 => MET_GAIN_I1
  | 1 => MET_GAIN_I2
  | 2 => MET_GAIN_I3
  | 3 => MET_GAIN_IN

/-- Gain paths of current channel `c` updated. -/
def State.onGain (s : State) (c : Fin 4) (f : GainPath → GainPath) : State :=
  s.withMet { s.met with gains := s.met.gains.set c (f s.met.gains[c]) }

/-- A path reprogrammed needs 16 samples: one more than those still to settle. -/
def settleStart : Nat := 17

/-- The second path's gain below main gain code `g`: half of it, or ×2 with ×1 (R245). -/
def secondOf (g : Nat) : Nat := if g = 0 then 1 else g - 1

/-- The main path of channel `c` changes to gain code `g`: counted, EVENT.GAIN, journalled where asked (R245, R253). -/
def State.gainChange (s : State) (c : Fin 4) (g : Nat) : State :=
  (((s.put (gainFld c) g).inc MET_GAIN_CHANGES_CHANGES).put MET_EVENT_GAIN 1).when (s.bit MET_CFG_JRNL_GAIN)
    (·.journal 0x13 (4 + c.val + 2 ^ 4 * g) 0)

/-- Peak of a current over the last two nominal cycles, in 1/32 of a code at gain ×1. -/
def State.peakOf (s : State) (c : Fin 4) : Nat :=
  (s.met.hist.take (if s.bit MET_CFG_FNOM then 533 else 640)).foldl (fun m r => max m (r.getD (8 + c.val) 0).natAbs) 0

/-- The up-change of R245 may begin: below ×32, nothing settling or due, two nominal cycles seen, and the peak below 40 % of the
full scale at twice the gain. -/
def State.upWanted (s : State) (c : Fin 4) : Bool :=
  let g := s.met.gains[c]
  decide (g.main < 5) && g.settle == 0 && !g.downDue && !g.upAt &&
    decide ((if s.bit MET_CFG_FNOM then 533 else 640) ≤ s.met.hist.length) &&
    decide (s.peakOf c * 10 < 4 * (2 ^ 23 * 2 ^ 5 / 2 ^ (g.main + 1)))

/-- The gain change that is due at this sample boundary: down to the second path, or up to it (R245). -/
def State.gainAtBoundary (s : State) (c : Fin 4) : State :=
  let g := s.met.gains[c]
  if g.settle ≠ 0 then s.onGain c fun g => { g with settle := max 1 (g.settle - 1) }
  else if g.downDue && decide (0 < g.main) then
    (s.onGain c fun g => { g with main := g.main - 1, second := secondOf (g.main - 1), settle := settleStart, downDue := false }).gainChange
      c (g.main - 1)
  else if g.upAt then
    (s.onGain c fun g => { g with main := g.main + 1, second := g.main, upAt := false }).gainChange c (g.main + 1)
  else s

/-- What the sample of channel `c` asks of its gain: an overload of the main path makes a down-change due and cancels an up-change;
while one waits, a clipped sample is counted; else an up-change may begin (R245). -/
def State.gainWatch (s : State) (c : Fin 4) (code : Int) (ovf : Bool) : State :=
  let g := s.met.gains[c]
  if ovf || decide (7549748 ≤ code.natAbs) then
    let s1 := s.when (g.downDue && g.settle != 0) (·.inc MET_GAIN_CHANGES_CLIPS)
    s1.onGain c fun g =>
      if g.upAt then { g with upAt := false, downDue := decide (0 < g.main), second := secondOf g.main, settle := settleStart }
      else { g with downDue := decide (0 < g.main) }
  else if s.upWanted c then
    s.onGain c fun g => if g.second = g.main + 1 then { g with upAt := true } else { g with upAt := true, second := g.main + 1, settle := settleStart }
  else s

/-- GAIN_SETTLED: a reprogrammed path has settled for 16 samples; a waiting change proceeds at the next boundary (R245). -/
def execGainSettled (c : Fin 4) (s : State) : Host.Outcome State Fault Refusal :=
  .next (s.when (s.met.gains[c].settle == 1) (·.onGain c fun g => { g with settle := 0 }))

/-! ### Energy (R246 to R248) -/

/-- The elements of an arrangement (R244). -/
def elements (arr : Nat) : List (Fin 3) := if arr = 1 then [0, 2] else if arr = 2 then [0, 1] else [0, 1, 2]

/-- A signed 24-bit code of a free word. -/
def freeCode (i : Nat) : Int := signed 24 ((Config.freeWord i).toNat % 2 ^ 24)

/-- The primary value of a code at gain code `g` with scale `sc` and gain correction `cal`, in units of 2^-197 V or A (R243, R246). -/
def primary (sc : Word) (cal : Int) (g : Nat) (code : Int) : Int :=
  match F32.of sc with
  | .fin neg v => sgnInt neg v * code * (2 ^ 20 + cal) * 2 ^ (5 - g)
  | _ => 0

/-- Energy of a power of `n` × 2^-394 W over one sample, in 2^-32 µWh; an inexact value is rounded up or down, which is free
(R247, R248). -/
def energyOf (n : Nat) (up : Bool) : Nat :=
  n * 25 / (1440 * 2 ^ 362) + (if n * 25 % (1440 * 2 ^ 362) ≠ 0 ∧ up then 1 else 0)

/-- The accumulator kinds that one sample's active, reactive and apparent energy enter (R247). -/
def energyKinds (p q : Int) : Nat × Nat × Nat :=
  (if 0 ≤ p then 0 else 1, if 0 ≤ q then (if 0 ≤ p then 2 else 3) else (if 0 ≤ p then 5 else 4), if 0 ≤ p then 6 else 7)

/-- Accumulators with the energies of one sample added at set and phase `base` (`32 f + p`); `i` numbers the free values used. -/
def addEnergy (accs : List Nat) (base : Nat) (p q : Int) (sApp : Nat) (i : Nat) : List Nat :=
  let up := fun (j : Nat) => (Config.freeWord (i + j)).toNat.testBit 0
  let k := energyKinds p q
  let add := fun (l : List Nat) (k n : Nat) => l.set (base + 4 * k) ((l.getD (base + 4 * k) 0 + n) % 2 ^ 96)
  add (add (add accs k.1 (energyOf p.natAbs (up 0))) k.2.1 (energyOf q.natAbs (up 1))) k.2.2 (energyOf sApp (up 2))

/-- The sum of the squares of column `c` of rows. -/
def sumSq (h : List (List Int)) (c : Nat) : Nat := h.foldl (fun m r => m + (r.getD c 0).natAbs ^ 2) 0

/-- RMS product of two columns over the nominal cycle that ends with the newest row: 320 samples at 50 Hz; at 60 Hz 266⅔, the oldest
counted for two thirds (R246). (DESIGN CHOICE, log entry 54.) -/
def rmsProduct (h : List (List Int)) (sixty : Bool) (v i : Nat) : Nat :=
  let sq := fun (c : Nat) =>
    if sixty then 3 * sumSq (h.take 266) c + 2 * sumSq ((h.drop 266).take 1) c else sumSq (h.take 320) c
  Nat.sqrt (sq v * sq i) / (if sixty then 800 else 320)

/-- The powers of the three phases and their sum, from the newest row of the history: in the total set v′, the Hilbert filter's output, is
free; the fundamental set is formed in the same way from the row's fundamentals; `b` is the first free value (R246). -/
def State.powers (s : State) (arr : Nat) (sixty : Bool) (b : Nat) : List Power × List Power :=
  let els := elements arr
  let vals := s.met.hist.headD []
  let val := fun (c : Nat) (code : Int) =>
    let e := s.met.scale.getD c (0, 0)
    primary e.1 (signed 16 (e.2 / 2 ^ 16)) 0 code
  let total := fun (x : Fin 3) =>
    let i := vals.getD (4 + x.val) 0
    ((vals.getD x 0 * i, val x (freeCode (b + x)) * i, rmsProduct s.met.hist sixty x (4 + x)) : Power)
  let fund := fun (x : Fin 3) =>
    let i := vals.getD (16 + x.val) 0
    ((vals.getD (12 + x.val) 0 * i, val x (freeCode (b + 3 + x)) * i, rmsProduct s.met.hist sixty (12 + x) (16 + x)) : Power)
  let rows := fun (f : Fin 3 → Power) =>
    let l := ([0, 1, 2] : List (Fin 3)).map fun x => if els.contains x then f x else (0, 0, 0)
    l ++ [l.foldl (fun a e => (a.1 + e.1, a.2.1 + e.2.1, a.2.2 + e.2.2)) (0, 0, 0)]
  (rows total, rows fund)

/-- Every accumulator after one sample (R247). A phase that the arrangement does not have adds nothing. (DESIGN CHOICE, log entry 54.) -/
def State.accumulate (s : State) (t f : List Power) (b : Nat) : List Nat :=
  let step := fun (set : Nat) (l : List Power) (accs : List Nat) =>
    (List.range 4).foldl (fun a p =>
      let e := l.getD p (0, 0, 0)
      addEnergy a (32 * set + p) e.1 e.2.1 e.2.2 (b + 32 + 3 * (4 * set + p))) accs
  step 1 f (step 0 t s.met.accs)

/-! ### Power-quality events (R252) -/

/-- A PQ_EVENT entry. -/
def State.pqEvent (s : State) (kind phases ms u : Nat) : State :=
  (s.put MET_EVENT_PQ 1).journal 0x14 (kind + 2 ^ 4 * phases) (payload2 ms u)

/-- One of dip, swell or interruption at the end of a half cycle: it begins, goes on or ends. `now`: the phases past its threshold;
`ovf`: it has ended; `u`: the worst value now. (DEDUCED, log entry 55.) -/
def State.pqStep (s : State) (kind : Fin 3) (now u : Nat) (starts ovf : Bool) : State :=
  let set := fun (r : Option PqRun) (s : State) => s.withMet { s.met with pq := s.met.pq.set kind r }
  let worse := fun (a b : Nat) => if kind.val = 1 then max a b else min a b
  match s.met.pq[kind] with
  | none => if starts then set (some { phases := now, extreme := u }) s else s
  | some r =>
    if ovf then (set none s).pqEvent kind r.phases (r.samples / 16) r.extreme
    else set (some { r with phases := r.phases ||| now, extreme := worse r.extreme u }) s

/-- *U*rms(1/2) of phase `x` over the last `n` samples in 0.01 % of MET.RATED_V, rounded down; `free` where the rated value is not a
positive number (R252). (DESIGN CHOICE, log entry 143.) -/
def State.urms (s : State) (n : Nat) (free : Nat) (x : Fin 3) : Nat :=
  let r := (fval (s.word MET_RATED_V_V)).toNat * 2 ^ 48
  if r = 0 then free else Nat.sqrt (10 ^ 8 * sumSq (s.met.hist.take n) x / (max 1 n * r ^ 2))

/-- The values of phase `x` all lie within 5 % of rated of their mean. -/
def steady (l : List (Vector Nat 3)) (x : Fin 3) : Bool :=
  let sum := l.foldl (fun m v => m + v[x]) 0
  l.all fun v => decide (l.length * v[x] < sum + 500 * l.length) && decide (sum < l.length * v[x] + 500 * l.length)

/-- A rapid voltage change begins at a half cycle's end, goes on, is given up or ends: it begins where a phase leaves by 5 % of rated the mean
of a steady second, is given up where a value passes the dip or the swell threshold, and ends once a second has been steady again; what it
lasts is counted to the first value of that second (R252, after IEC 61000-4-30). (PRESUMED, log entry 142.) -/
def State.rapidStep (s : State) (els : List (Fin 3)) (u : Vector Nat 3) (inside : Bool) (least : Nat) : State :=
  let n := if s.bit MET_CFG_FNOM then 120 else 100
  let old := s.met.rapid.values
  let all := (u :: old).take n
  let away := if els.all (steady old) && old.length == n then
      els.foldl (fun m x =>
        let sum := old.foldl (fun m v => m + v[x]) 0
        m + (if n * u[x] + 500 * n ≤ sum ∨ sum + 500 * n ≤ n * u[x] then 2 ^ x.val else 0)) 0
    else 0
  let set := fun (r : RapidRun) (s : State) => s.withMet { s.met with rapid := r }
  match s.met.rapid.run with
  | none => set (if inside && away != 0 then ⟨[u], some { phases := away, extreme := least }⟩ else ⟨all, none⟩) s
  | some r =>
    if !inside then set ⟨all, none⟩ s
    else if all.length == n && els.all (steady all) then
      (set ⟨all, none⟩ s).pqEvent 3 r.phases ((r.samples - 16000) / 16) r.extreme
    else set ⟨all, some { r with extreme := min r.extreme least }⟩ s

/-- A half cycle ends with the given values: dips, swells, interruptions and rapid changes (R252). -/
def State.pqHalf (s : State) (u : Vector Nat 3) : State :=
  let els := elements (s.get MET_CFG_ARR)
  let dip := 100 * s.get MET_PQ_THR_DIP
  let swell := 100 * s.get MET_PQ_THR_SWELL
  let intr := 100 * s.get MET_PQ_THR_INTR
  let hyst := 10 * s.get MET_PQ_THR_HYST
  let mask := fun (f : Nat → Bool) => els.foldl (fun m x => m + (if f u[x] then 2 ^ x.val else 0)) 0
  let least := els.foldl (fun m x => min m u[x]) 1000000
  let most := els.foldl (fun m x => max m u[x]) 0
  let s1 := s.pqStep 0 (mask (decide <| · < dip)) least (els.any fun x => decide (u[x] < dip)) (els.all fun x => decide (dip + hyst < u[x]))
  let s2 := s1.pqStep 1 (mask (decide <| swell < ·)) most (els.any fun x => decide (swell < u[x]))
    (els.all fun x => decide (u[x] + hyst < swell))
  let s3 := s2.pqStep 2 (mask (decide <| · < intr)) least (els.all fun x => decide (u[x] < intr)) (els.any fun x => decide (intr ≤ u[x]))
  let s4 := s3.rapidStep els u (decide (dip ≤ least) && decide (most ≤ swell)) least
  let flagged := ([0, 1, 2] : List (Fin 3)).any fun k => s4.met.pq[k].isSome || s.met.pq[k].isSome
  s4.withMet { s4.met with
    aggFlag := if flagged then [true, true, true, true] else s4.met.aggFlag }

/-! ### The sample (R243, R245 to R248, R252) -/

/-- The METR section in force from this boundary (R42). -/
def State.takeScale (s : State) : State :=
  s.when s.met.newScale fun s => s.withMet { s.met with
    newScale := false,
    scale := (List.range 8).map fun c => (s.word (MET_SCALE_SCALE c), s.get (MET_CH_CAL_GAIN c).whole) }

/-- A save begins: the record to be written into the older copy (R254). -/
def State.beginSave (s : State) (r : SaveRun) : State :=
  (s.withMet { s.met with saving := some r }).put MET_STATUS_SAVING 1

/-- A power-fail save runs (R255). -/
def State.pfSaving (s : State) : Bool := s.met.saving.any (·.pf)

/-- The totals reset of R350, where one waits: every accumulator is zeroed at this boundary and a save of them begins; not while a power-fail
save runs, which a reset may wait for (R255). (DEDUCED, log entry 111.) -/
def State.takeReset (s : State) : State :=
  s.when (s.met.resetDue && !s.pfSaving) fun s =>
    (s.withMet { s.met with resetDue := false, accs := List.replicate 64 0 }).beginSave
      { pf := false, accs := List.replicate 64 0, time := s.moduleTime, totalsReset := true }

/-- The row of this sample: the primary values in the order of MET.SCALE, a channel with a delay correction yielding a free value; the peaks of
the currents in 1/32 code at ×1; and the fundamentals of the eight channels, the tracking filter's outputs, free values (R246). (DESIGN
CHOICE, log entry 54.) -/
def State.sampleRow (s : State) (o : MeterObs) (b : Nat) : List Int :=
  let val := fun (c : Nat) (g : Nat) (code : Int) =>
    let e := s.met.scale.getD c (0, 0)
    if e.2 % 2 ^ 16 = 0 then primary e.1 (signed 16 (e.2 / 2 ^ 16)) g code
    else primary e.1 (signed 16 (e.2 / 2 ^ 16)) g (freeCode (b + 24 + c))
  let four : List (Fin 4) := [0, 1, 2, 3]
  (four.map fun (c : Fin 4) => val c 0 o.main[c.val].toInt) ++
    (four.map fun (c : Fin 4) => val (4 + c) s.met.gains[c].main o.main[4 + c.val].toInt) ++
    (four.map fun (c : Fin 4) => o.main[4 + c.val].toInt * 2 ^ (5 - s.met.gains[c].main)) ++
    (List.range 8).map fun c => let e := s.met.scale.getD c (0, 0); primary e.1 (signed 16 (e.2 / 2 ^ 16)) 0 (freeCode (b + 6 + c))

/-- Whole seconds on the aggregation time: UTC from PTP time and its offset, or module time while PTP time is not valid (R249). -/
def State.aggSeconds (s : State) : Nat :=
  if s.ptpValid then ((s.net.ptp.sec : Int) - s.getI NET_PTP_UTC_OFFSET).toNat else s.moduleTime / 1000000000

/-- A sample of V1's fundamental is counted; a 10 s interval that has ended gives the frequency: its whole cycles over the time they took, to
one sample; none where it held no whole cycle or the time was stepped (R249, R262). (PRESUMED, log entry 142.) -/
def State.freqSample (s : State) (v : Int) : State :=
  let t := s.aggSeconds / 10
  let c := s.met.count
  let ended := c.tenth != some t
  let f := if ended && c.tenth.any (· + 1 == t) && c.cycles != 0 then some (fratio (16000 * c.cycles : Nat) (c.last - c.first.getD 0))
    else if ended && c.tenth.isSome then none else s.met.freq
  let d : CycleCount := if ended then { tenth := some t, prev := c.prev } else c
  let up := decide (d.prev < 0) && decide (0 ≤ v)
  let e : CycleCount := { d with
    samples := d.samples + 1, prev := v, first := if up && d.first.isNone then some d.samples else d.first,
    last := if up then d.samples else d.last, cycles := if up && d.first.isSome then d.cycles + 1 else d.cycles }
  s.withMet { s.met with freq := f, count := e }

/-- METER_SAMPLE: at a sample boundary new scaling and gain changes take effect, all channels sample, energy goes to the
accumulators by sign and quadrant, and a half cycle that ends is judged (R42, R243, R245 to R248, R252, R253, R350). `o.main` and
`o.second` are what the two paths give before a change; the sample of a changed path comes from the new one. -/
def execMeterSample (o : MeterObs) (s : State) : Host.Outcome State Fault Refusal :=
  .next (
    if !s.up .meter || !s.bit MET_CFG_EN then s
    else
      let four : List (Fin 4) := [0, 1, 2, 3]
      let s1 := s.takeScale.each four fun c s => s.gainAtBoundary c
      let code := fun (c : Fin 4) => if s.met.gains[c].main == s1.met.gains[c].main then o.main[4 + c.val] else o.second[c]
      let o1 : MeterObs := { o with main := Vector.ofFn fun i : Fin 8 => if h : i.val < 4 then o.main[i] else code ⟨i.val - 4, by omega⟩ }
      let b := s.free
      let row := s1.sampleRow o1 b
      let s2 := (s1.withFree (b + 64)).withMet { s1.met with
        hist := (row :: s1.met.hist).take 640, last := o1.main.toList.map (·.toInt), boundary := s1.moduleTime,
        overNow := maskOf (List.range 8) id fun c => decide (7549748 ≤ (o1.main.toList.getD c 0).toInt.natAbs) }
      let pw := s2.powers (s.get MET_CFG_ARR) (s.bit MET_CFG_FNOM) b
      let s3 := s2.withMet { s2.met with
        accs := s2.accumulate pw.1 pw.2 b, frame := ⟨row, pw.1, pw.2⟩ :: s2.met.frame,
        rapid := { s2.met.rapid with run := s2.met.rapid.run.map fun r => { r with samples := r.samples + 1 } },
        pq := s2.met.pq.map (Option.map fun (r : PqRun) => { r with samples := r.samples + 1 }) }
      let s4 := s3.when (!s3.met.dirKnown) fun s =>
        (s.withMet { s.met with dirKnown := true }).put MET_STATUS_DIR
          ((List.range 3).foldl (fun m x => m + (if (pw.2.getD x (0, 0, 0)).1 < 0 then 2 ^ x else 0)) 0)
      let s5 := (s4.freqSample (row.getD 12 0)).each four fun c s => s.gainWatch c o1.main[4 + c.val].toInt o.ovf[c]
      (match o.half with
       | some n => s5.pqHalf (Vector.ofFn fun x => s5.urms n (Config.freeWord (b + 56 + x)).toNat x)
       | none => s5).takeReset)

/-! ### Intervals (R249 to R251) -/

/-- Bins of a DFT with 5 Hz spacing over `pts`: real and imaginary part of bin `k`, times 2^96 times the number of points (R250). -/
def dftBin (pts : List Int) (k : Nat) : Int × Int :=
  pts.zipIdx.foldl (fun a e =>
    let r := turnCosSinQ (k * e.2 * 2 ^ 64 / pts.length % 2 ^ 64)
    (a.1 + e.1 * r.1, a.2 - e.1 * r.2)) (0, 0)

/-- The square of the RMS value of bin `k`, in 2^-394. -/
def binSq (pts : List Int) (k : Nat) : Nat :=
  let x := dftBin pts k
  (if k = 0 then 1 else 2) * (x.1.natAbs ^ 2 + x.2.natAbs ^ 2) / (max 1 pts.length ^ 2 * 2 ^ 192)

/-- The square of the group (`g` = 0), the subgroup (1) or the interharmonic centred subgroup (2) of order `h`, of bin squares `c` with `n` bins
to the fundamental (R250, after IEC 61000-4-7). A bin below 0 counts nothing. (PRESUMED, log entry 142.) -/
def groupSq (c : Nat → Nat) (n g h : Nat) : Nat :=
  let at_ := fun (k : Int) => if 0 ≤ k then c k.toNat else 0
  let mid : Int := n * h
  match g with
  | 0 => (at_ (mid - (n / 2 : Nat)) + at_ (mid + (n / 2 : Nat))) / 2 +
      (List.range (n - 1)).foldl (fun m k => m + at_ (mid - (n / 2 : Nat) + 1 + (k : Nat))) 0
  | 1 => at_ (mid - 1) + at_ mid + at_ (mid + 1)
  | _ => (List.range (n - 3)).foldl (fun m k => m + at_ (mid + 2 + (k : Nat))) 0

/-- An RMS value, given its square in 2^-394, as float32. -/
def rmsWord (sq : Nat) : Word := froundRatio false (Nat.sqrt sq) (2 ^ 48)

/-- Cycles of a basic interval, which are also the bins to the fundamental (R249, R250). -/
def State.basicCycles (s : State) : Nat := if s.bit MET_CFG_FNOM then 12 else 10

/-- The resampled points of channel `c` over the basic interval that ends: 256 to a measured cycle (R250). -/
def State.harmPoints (s : State) (c : Nat) : List Int :=
  let n := 256 * s.basicCycles
  (List.range n).map (Config.resample (s.met.frame.map fun r => r.vals.getD c 0) n)

/-- The square of THDG of channel `c` times 2^64, up to order 40; `free` where the fundamental's group is 0, of which the spec states no result
(R250). -/
def State.thdSq (s : State) (free c : Nat) : Nat :=
  let g := groupSq (binSq (s.harmPoints c)) s.basicCycles 0
  if g 1 = 0 then free else (List.range 39).foldl (fun m k => m + g (2 + k)) 0 * 2 ^ 64 / g 1

/-- The squares of the unbalances u2 and u0 times 2^64, from the fundamental phasors of V1 to V3 (R251): the negative and the zero sequence over
the positive one. Two voltages that are referred to V2 give the first, since a voltage common to all three phases has no negative and no
positive sequence. `free` where the spec states none: no positive sequence, u0 of such voltages, a split-phase arrangement. (PRESUMED, log
entry 142.) -/
def State.unbalanceSq (s : State) (free : Nat) : Nat × Nat :=
  let arr := s.get MET_CFG_ARR
  let x := ([0, 1, 2] : List Nat).map fun c => if phaseAbsent arr c then (0, 0) else dftBin (s.harmPoints c) s.basicCycles
  let seq := fun (m : Nat) =>
    let v := x.zipIdx.foldl (fun (a : Int × Int) e =>
      let r := turnCosSinQ (m * e.2 * 2 ^ 64 / 3 % 2 ^ 64)
      (a.1 + e.1.1 * r.1 - e.1.2 * r.2, a.2 + e.1.1 * r.2 + e.1.2 * r.1)) (0, 0)
    v.1.natAbs ^ 2 + v.2.natAbs ^ 2
  if seq 1 = 0 ∨ 2 ≤ arr then (free, free) else (seq 2 * 2 ^ 64 / seq 1, if arr = 0 then seq 0 * 2 ^ 64 / seq 1 else free)

/-- MET.RATED_V in 2^-197 V. -/
def State.ratedV (s : State) : Nat := (fval (s.word MET_RATED_V_V)).toNat * 2 ^ 48

/-- What the basic interval that ends has gathered; `b` is the first free value (R249 to R251). -/
def State.basicSum (s : State) (b : Nat) : MetSum :=
  let f := s.met.frame
  let rows := f.map (·.vals)
  let sum := fun (l : List Power) (m : List Int) => m.zipWith (· + ·) (l.map (·.1) ++ l.map (·.2.1) ++ l.map fun e => (e.2.2 : Int))
  let both := f.foldl (fun (m : List Int × List Int) r => (sum r.total m.1, sum r.fund m.2)) (List.replicate 12 0, List.replicate 12 0)
  let free := fun (k : Nat) => (Config.freeWord (b + k)).toNat
  let un := s.unbalanceSq (free 8)
  let mean := fun (x : Nat) => sumSq rows x / max 1 f.length
  let d := s.ratedV ^ 2
  { n := f.length
    sq := ([0, 1, 2, 3, 4, 5, 6, 7, 12, 13, 14, 15, 16, 17, 18, 19] : List Nat).map (sumSq rows)
    pw := both.1 ++ both.2
    k := 1
    ratio := ((List.range 8).map fun c => s.thdSq (free c) c) ++ [un.1, un.2]
    dev := ([0, 1, 2] : List Nat).map (fun x => min (mean x) d) ++ ([0, 1, 2] : List Nat).map fun x => max (mean x) d }

/-- Two stretches of an interval together. -/
def MetSum.add (a c : MetSum) : MetSum :=
  { n := a.n + c.n, sq := a.sq.zipWith (· + ·) c.sq, pw := a.pw.zipWith (· + ·) c.pw, k := a.k + c.k,
    ratio := a.ratio.zipWith (· + ·) c.ratio, dev := a.dev.zipWith (· + ·) c.dev }

/-- The RMS value of `sq` over `n` samples; none where there are none. -/
def rmsOver (n sq : Nat) : Option Word := if n = 0 then none else some (rmsWord (sq / n))

/-- A root of a mean of squares times 2^64, in percent. -/
def percentOver (k sq : Nat) : Option Word := if k = 0 then none else some (fratio (100 * (Nat.sqrt (sq * 2 ^ 64 / k) : Nat)) (2 ^ 64))

/-- A quantity of R251 over an interval; none where the model leaves its value free: the flicker severities, and a value that the spec does
not state (no sample, S = 0, no rated voltage, no 10 s value yet). (DESIGN CHOICE, log entry 54.) -/
def State.quantity (s : State) (m : MetSum) (q p : Nat) : Option Word :=
  let power := fun (j : Nat) =>
    let v := m.pw.getD j 0
    if m.n = 0 then none else some (fsumRound v (m.n * 2 ^ 245) false)
  let dev := fun (j : Nat) => Nat.sqrt (m.dev.getD j 0 / max 1 m.k)
  let d := s.ratedV
  match q with
  | 0 => rmsOver m.n (m.sq.getD p 0)
  | 1 => rmsOver m.n (m.sq.getD (4 + p) 0)
  | 2 => rmsOver m.n (m.sq.getD (8 + p) 0)
  | 3 => rmsOver m.n (m.sq.getD (12 + p) 0)
  | 4 => power p
  | 5 => power (12 + p)
  | 6 => power (4 + p)
  | 7 => power (16 + p)
  | 8 => power (8 + p)
  | 9 => power (20 + p)
  | 10 =>
    let app := (m.pw.getD (8 + p) 0).toNat
    if app = 0 then none else some (fratio (m.pw.getD p 0) app)
  | 11 => s.met.freq
  | 12 => percentOver m.k (m.ratio.getD p 0)
  | 13 => percentOver m.k (m.ratio.getD (4 + p) 0)
  | 14 => percentOver m.k (m.ratio.getD (8 + p) 0)
  | 16 => if d = 0 then none else some (fratio (100 * ((d : Int) - dev p)) d)
  | 17 => if d = 0 then none else some (fratio (100 * ((dev (3 + p) : Int) - d)) d)
  | _ => none

/-- A register takes a value, or a free one where there is none. -/
def State.putOrFree (s : State) (f : Fld) (v : Option Word) : State :=
  match v with
  | some w => s.put f w.toNat
  | none => (s.put f s.freeWord.toNat).tookFree

/-- Interval `i` completes with what it has gathered: its quantities, its flag and its count (R249, R251). -/
def State.aggregate (s : State) (i : Fin 4) (m : MetSum) : State :=
  let all : List (Fin 18 × Fin 4) := (List.finRange 18).flatMap fun q => (List.finRange 4).map fun p => (q, p)
  let arr := s.get MET_CFG_ARR
  let s1 := s.each (all.filter fun e => !valZero arr i e.1 e.2) fun e t => t.putOrFree (MET_VAL_VALUE i e.1 e.2) (s.quantity m e.1 e.2)
  let s2 := s1.each (all.filter fun e => valZero arr i e.1 e.2) fun e s => s.put (MET_VAL_VALUE i e.1 e.2) 0
  let s3 := (s2.putB (MET_AGG_STAT_FLAGGED i) (s.met.aggFlag.getD i.val false)).incWrap (MET_AGG_STAT_SEQ i)
  s3.withMet { s3.met with aggFlag := s3.met.aggFlag.set i (([0, 1, 2] : List (Fin 3)).any fun k => s.met.pq[k].isSome) }

/-- A longer interval takes in the basic interval `m` and, where its boundary has passed, completes (R249). -/
def State.gather (s : State) (i : Fin 3) (m : MetSum) (done : Bool) : State :=
  let t := s.met.aggs[i].add m
  (s.withMet { s.met with aggs := s.met.aggs.set i (if done then {} else t) }).when done (·.aggregate i.succ t)

/-- The aggregation time has changed its base or been stepped since the last basic interval ended: it went back, or on by more than 1 s. The
running intervals then end at the new time's next boundary (R249, R262). (DEDUCED, log entry 55.) -/
def State.aggStepped (s : State) : Bool :=
  s.met.aggBase.any fun a => a.1 != s.ptpValid || decide (s.aggSeconds < a.2) || decide (a.2 + 1 < s.aggSeconds)

/-- The harmonic set of the basic interval that ends: groups, subgroups and interharmonic subgroups of every channel (R250). -/
def State.harmonics (s : State) : State :=
  let set := (List.range 8).flatMap fun c => (List.range 3).flatMap fun g => (List.range (if g = 2 then 63 else 64)).map fun h => (c, g, h)
  (s.each set fun e t =>
    t.put (MET_HARM_RMS e.1 e.2.1 e.2.2) (rmsWord (groupSq (binSq (s.harmPoints e.1)) s.basicCycles e.2.1 e.2.2)).toNat).incWrap MET_HARM_SEQ_SEQ

/-- PQ_INTERVAL_END: a basic interval ends: a new harmonic set, its values, and every aggregation boundary passed since the last
(R249 to R251). -/
def execPqIntervalEnd (s : State) : Host.Outcome State Fault Refusal :=
  .next (
    if !s.up .meter || !s.bit MET_CFG_EN then s
    else
      let m := s.basicSum s.free
      let sec := s.aggSeconds
      let t := (sec / 600, sec / 7200, sec / 10)
      let passed := fun (f : Nat × Nat × Nat → Nat) => !s.aggStepped && s.met.aggAt.any fun a => f a != f t
      let n := s.met.aggCount + 1
      let s1 := (s.withFree (s.free + 9)).harmonics.aggregate 0 m
      let s2 := ((s1.gather 0 m (decide (15 ≤ n))).gather 1 m (passed (·.1))).gather 2 m (passed (·.2.1))
      s2.withMet { s2.met with
        aggCount := if 15 ≤ n then 0 else n, aggAt := some t, aggBase := some (s.ptpValid, sec), frame := [] })

/-! ### Events (R253) -/

/-- METER_WRONG_SEQ: the condition, or its reverse, has held for 1 s (R253). -/
def execMeterWrongSeq (on : Bool) (s : State) : Host.Outcome State Fault Refusal :=
  .next (
    if s.up .meter && s.bit MET_CFG_EN && s.bit MET_STATUS_WRONG_SEQ != on then
      ((s.putB MET_STATUS_WRONG_SEQ on).when on (·.put MET_EVENT_WRONG_SEQ 1)).journal 0x10 (bitOf on) 0
    else s)

/-- METER_MISS_N: the condition has held, or been false, for 1 s; not with three-wire metering (R253). -/
def execMeterMissN (on : Bool) (v0 : Nat) (s : State) : Host.Outcome State Fault Refusal :=
  .next (
    if s.up .meter && s.bit MET_CFG_EN && s.get MET_CFG_ARR != 1 && s.bit MET_STATUS_MISS_N != on then
      ((s.putB MET_STATUS_MISS_N on).when on (·.put MET_EVENT_MISS_N 1)).journal 0x11 (bitOf on) v0
    else s)

/-- RF_MIN of the rated apparent power of a phase, in W (R253). -/
def State.reverseLimit (s : State) : Word :=
  (fmul (fmul (s.word MET_RATED_V_V) (s.word MET_RATED_I_I)).1
    (froundRatio false (s.get MET_THR_RF_MIN * 2 ^ 149) 1000)).1

/-- REVERSE_FLOW: a phase's fundamental power has stayed on the other side of ±RF_MIN for RF_TIME: its direction changes (R253). -/
def execReverseFlow (p : Fin 3) (v : Word) (s : State) : Host.Outcome State Fault Refusal :=
  .next (
    let export_ := flt v (fneg s.reverseLimit)
    let import_ := flt s.reverseLimit v
    let was := s.bitAt MET_STATUS_DIR p
    if s.up .meter && s.bit MET_CFG_EN && ((export_ && !was) || (import_ && was)) then
      (((s.putBit MET_STATUS_DIR p export_).putBit MET_EVENT_REVFLOW p true).journal 0x12 (p.val + 2 ^ 8 * bitOf export_) v.toNat)
    else s)

/-! ### Saves (R254 to R256) -/

/-- Second `n` counted among those at which a save was made. -/
def addSecond (n : Nat) (l : List (Nat × Nat)) : List (Nat × Nat) :=
  match l with
  | (a, b) :: rest => if n = b + 1 then (a, n) :: rest else (n, n) :: (a, b) :: rest
  | [] => [(n, n)]

/-- PERIODIC_SAVE: at a whole second of module time that no save has taken, the accumulators of the last sample boundary are saved;
a step backwards repeats none (R254). -/
def execPeriodicSave (s : State) : Host.Outcome State Fault Refusal :=
  .next (
    let sec := s.moduleTime / 1000000000
    if s.up .meter && s.met.saving.isNone && !(s.met.saved.any fun r => decide (r.1 ≤ sec) && decide (sec ≤ r.2)) then
      (s.withMet { s.met with saved := addSecond sec s.met.saved }).beginSave { pf := false, accs := s.met.accs, time := s.met.boundary }
    else s)

/-- The power-fail save: a save in progress is abandoned and one with PF = 1 begins; it records the totals reset that an abandoned save was to
record (R255, R350). (DEDUCED, log entry 111.) -/
def State.pfSave (s : State) : State :=
  s.beginSave { pf := true, accs := s.met.accs, time := s.met.boundary, totalsReset := s.met.saving.any (·.totalsReset) }

/-- The older of the two copies is the first: an invalid one is older than a valid one (R254). -/
def olderFirst (c : SaveCopy × SaveCopy) : Bool :=
  !c.1.crcOk || (c.2.crcOk && decide (c.1.seq < c.2.seq))

/-- The ferroelectric sector that a free word names as failing its write verification, if any (R382). (DESIGN CHOICE, log entry 135.) -/
def badSector (w : Word) : Option (BitVec 8) := if w.getLsbD 8 then some (w.setWidth 8) else none

/-- SAVE_COMPLETE: the record and its CRC are committed into the older copy with the next SAVE_SEQ; a power-fail save and a totals
reset write their entries. A sector that fails its write verification is a hard fault, and the save is repeated in the spare sector; whether
one fails, and which, is a free value (R254, R255, R350, R382, R391). (DESIGN CHOICE, log entry 135.) -/
def execSaveComplete (s : State) : Host.Outcome State Fault Refusal :=
  .next (
    match s.met.saving with
    | none => s
    | some r =>
      let seq := s.get MET_SAVE_SEQ_SEQ + 1
      let bad := badSector s.freeWord
      let c : SaveCopy := { accs := r.accs, seq := seq, time := r.time, pf := r.pf, crcOk := s.sectorKept bad }
      let copies := if olderFirst s.met.copies then (c, s.met.copies.2) else (s.met.copies.1, c)
      let s1 := s.withMet { s.met with saving := none, copies := copies }
      let s2 := ((s1.put MET_STATUS_SAVING 0).put MET_SAVE_SEQ_SEQ seq).put MET_SAVE_TIME_TIME r.time
      let s3 := s2.when r.pf fun s => (s.put MET_STATUS_PF_SAVED 1).journal 0x03 1 seq
      ((s3.when r.totalsReset (·.journal 0x04 0 seq)).sectorFails bad).tookFree)

/-- The latest complete save (R254). -/
def latestSave (c : SaveCopy × SaveCopy) : Option SaveCopy :=
  let d := if olderFirst c then c.2 else c.1
  if d.crcOk then some d else none

/-- A record put right behind the last BOOT of a list, or first where BOOT is not in it. -/
def afterBoot (r : JRec) (l : List JRec) : List JRec :=
  match l.reverse.span (·.typ != 1) with
  | (_, []) => r :: l
  | (later, before) => before.reverse ++ r :: later.reverse

/-- A record of the METER's own put right behind BOOT among those that wait to be written; until that island accepts entries it keeps the
record (R256). -/
def State.journalFirst (s : State) (typ detail payload : Nat) : State :=
  let r : JRec := ⟨typ, detail, payload, [], s.moduleTime, s.ptpValid, false⟩
  if s.met.entriesOpen then s.withMet { s.met with jq := afterBoot r s.met.jq } else s.withMet { s.met with gap := some r }

/-- METER_RESUME: the totals resume from the latest complete save; one without PF leaves a GAP entry and BOOT_GAP (R256). -/
def execMeterResume (s : State) : Host.Outcome State Fault Refusal :=
  .next (
    if !s.up .meter then s
    else match latestSave s.met.copies with
      | none => s
      | some c =>
        let s1 := s.withMet { s.met with accs := c.accs }
        s1.when (!c.pf) fun s => (s.put MET_STATUS_BOOT_GAP 1).journalFirst 0x02 (c.seq % 2 ^ 16) c.time)

/-! ### The journal (R257 to R260) -/

/-- The three words of an entry (R257). -/
def entryWords (time seq typ flags detail payload : Nat) : Nat × Nat × Nat × Nat :=
  (seq, time % 2 ^ 64, seq % 2 ^ 32 + 2 ^ 32 * (typ % 2 ^ 8) + 2 ^ 40 * flags + 2 ^ 48 * (detail % 2 ^ 16), payload % 2 ^ 64)

/-- The entries of a record from sequence number `seq` on: its own, then its CONT entries (R257, R258). -/
def recordEntries (r : JRec) (seq : Nat) (loss : Bool) : List (Nat × Nat × Nat × Nat) :=
  let n := r.cont.length
  entryWords r.time seq r.typ (bitOf r.timeValid + 2 * bitOf (n != 0) + 4 * bitOf loss) r.detail r.payload ::
    (List.range n).map fun i =>
      entryWords r.time (seq + i + 1) 0x3F (bitOf r.timeValid + 2 * bitOf (i + 1 != n)) (i + 1) (r.cont.getD i 0)

/-- JOURNAL_ENTRY: the oldest record in the crossing takes the next SEQ, or is refused whole where the write buffer has no room;
four places are kept for BOOT, GAP and POWER_FAIL (R257 to R259). -/
def execJournalEntry (s : State) : Host.Outcome State Fault Refusal :=
  .next (
    match s.met.jq with
    | [] => s
    | r :: rest =>
      let s1 := s.withMet { s.met with jq := rest }
      let room := if 1 ≤ r.typ ∧ r.typ ≤ 3 then 64 else 60
      let n := 1 + r.cont.length
      if room < s.met.jbuf.length + n then s1.journalLost
      else
        let seq := s.get MET_JRNL_HEAD_SEQ
        (s1.withMet { s1.met with jbuf := s1.met.jbuf ++ recordEntries r seq (r.loss || s.met.lossDue), lossDue := false }).put
          MET_JRNL_HEAD_SEQ (seq + n))

/-- One entry leaves the write buffer for its place in the ring; a reuse of place 0 is counted (R257, R259). -/
def State.drainJournal (s : State) : State :=
  match s.met.jbuf with
  | [] => s
  | e :: rest =>
    let j := e.1 % 32768
    let put := fun (m : List (Nat × DWord)) (i v : Nat) => cellPut m (4 * j + i) (BitVec.ofNat 64 v)
    let ring := put (put (put s.met.ring 0 e.2.1) 1 e.2.2.1) 2 e.2.2.2
    (s.withMet { s.met with jbuf := rest, ring := ring }).when (j == 0 && decide (32768 ≤ e.1)) (·.incWrap MET_JRNL_WRAPS_COUNT)

/-- JRNL_COMMIT once it has reached its island. -/
def jrnlCommitOp (s : State) : State :=
  if s.get MET_JRNL_WR0_TYPE < 0x80 then (s.inc MET_JRNL_LOST_COUNT).put MET_EVENT_JRNL_LOST 1
  else s.journal (s.get MET_JRNL_WR0_TYPE) (s.get MET_JRNL_WR0_DETAIL)
    (payload2 (s.get (MET_JRNL_WR_PAYLOAD 1)) (s.get (MET_JRNL_WR_PAYLOAD 2)))

/-- JRNL_COMMIT: the entry of JRNL_WR0 to WR2 enters the crossing; a type below 0x80 is refused and counted (R259). -/
def execJrnlCommit (s : State) : Host.Outcome State Fault Refusal := .next (s.access .meter none jrnlCommitOp)

/-- The METER island as a firing puts a new Glaze in force: its METR section waits for the next sample boundary, the directions
are taken anew; totals and journal are kept (R42, R253). -/
def State.meterFiring (s : State) : State := s.withMet { s.met with newScale := true, dirKnown := false }

end Sys2Proof.Machine
end

