-- ==== Sys2Proof/Machine/Wire.lean ====
section
/-!
DEFINITION. What stands on a link: the symbols of PAM4 and their precoding (R279, R280), the scrambler (R281), the test patterns (R286), and
the words of a frame with their CRC-32 (R294, R310).
-/

namespace Sys2Proof.Machine

open Sys2Proof

/-! ### Symbols (R279, R280) -/

/-- The level index G of a pair of bits, the first the more significant: Gray-mapped (R279). -/
def grayIndex (hi lo : Bool) : Nat := if hi then (if lo then 2 else 3) else (if lo then 1 else 0)

/-- Level of index `g`, relative to the peak swing, in thirds (R279). -/
def pam4Level (g : Nat) : Int := 2 * g - 3

/-- Bits taken in pairs in transmission order (R279). A bit without its pair waits for the next one. -/
def grayIndices (bits : List Bool) : List Nat :=
  match bits with
  | hi :: lo :: rest => grayIndex hi lo :: grayIndices rest
  | _ => []

/-- What a precoding transmitter sends in place of the indices, after symbol `p` (R280). -/
def precode (p : Nat) (g : List Nat) : List Nat :=
  match g with
  | [] => []
  | a :: rest => let q := (a + 4 - p % 4) % 4; q :: precode q rest

/-- What the matching receiver recovers, after symbol `p` (R280). -/
def unprecode (p : Nat) (l : List Nat) : List Nat :=
  match l with
  | [] => []
  | a :: rest => (a + p) % 4 :: unprecode a rest

/-! ### The scrambler 1 + x^39 + x^58 (R281) -/

/-- Bit `n` (from 1) before now of a history, newest first. -/
def ago (h : List Bool) (n : Nat) : Bool := h.getD (n - 1) false

/-- The bits sent for payload bits, after the bits `h` sent before, newest first. -/
def scramble (h : List Bool) (bits : List Bool) : List Bool :=
  match bits with
  | [] => []
  | b :: rest => let q := b ^^ (ago h 39 ^^ ago h 58); q :: scramble ((q :: h).take 58) rest

/-- The payload bits recovered from the bits received, after those received before, newest first. -/
def descramble (h : List Bool) (bits : List Bool) : List Bool :=
  match bits with
  | [] => []
  | q :: rest => (q ^^ (ago h 39 ^^ ago h 58)) :: descramble ((q :: h).take 58) rest

/-! ### Test patterns (R286) -/

/-- The exponents of pattern `p`'s polynomial, without 1. -/
def patTaps (p : Nat) : List Nat := [[], [6, 7], [5, 9], [14, 15], [18, 23], [28, 31], [1, 2, 12, 13]].getD p []

/-- The next `n` bits of pattern `p`, after the bits `h`, newest first. -/
def patBits (p : Nat) (h : List Bool) (n : Nat) : List Bool :=
  match n with
  | 0 => []
  | m + 1 => let b := (patTaps p).foldl (fun a k => a ^^ ago h k) false; b :: patBits p ((b :: h).take 31) m

/-- The bits sent where `burst` of them are inverted from bit `start` on (R287). -/
def injectBits (start burst : Nat) (bits : List Bool) : List Bool :=
  bits.zipIdx.map fun e => e.1 ^^ (decide (start ≤ e.2) && decide (e.2 < start + burst))

/-! ### CRC-32 (R294, R310) -/

/-- One bit of the reflected IEEE 802.3 polynomial. -/
def crcBit (c : Word) : Word := if c.getLsbD 0 then (c >>> 1) ^^^ 0xEDB88320 else c >>> 1

/-- One byte. -/
def crcByte (c : Word) (b : Nat) : Word :=
  (List.range 8).foldl (fun c _ => crcBit c) (c ^^^ BitVec.ofNat 32 (b % 256))

/-- The CRC-32 of bytes, with the IEEE 802.3 polynomial and that standard's bit order, initial and final inversion (R294, R310). (PRESUMED,
log entry 68.) -/
def crc32 (bytes : List Nat) : Nat := (~~~(bytes.foldl crcByte 0xFFFFFFFF)).toNat

/-! ### Blocks and codewords (R281)

The layouts that R281 names and does not give are those of IEEE 802.3: the sync headers, the transcoding, the field of the code and the order of
bits in a symbol. (PRESUMED, log entry 140.) -/

/-- The bits of a 64-bit payload in the order of transmission, least significant first. -/
def payloadBits (w : Nat) : List Bool := (List.range 64).map w.testBit

/-- A 66-bit block: the sync header, 01 of data and 10 of control, and the scrambled payload. -/
def block66 (e : Bool × List Bool) : List Bool := e.1 :: (!e.1) :: e.2

/-- Payloads scrambled one after the other, after the bits `h` (R281). -/
def scrambleAll (h : List Bool) (us : List (Bool × Nat)) : List (Bool × List Bool) :=
  match us with
  | [] => []
  | u :: rest => let q := scramble h (payloadBits u.2); (u.1, q) :: scrambleAll ((q.reverse ++ h).take 58) rest

/-- The payloads of blocks, without the second four bits of the first control block. -/
def packPayloads (l : List (Bool × List Bool)) : List Bool :=
  match l with
  | [] => []
  | (true, p) :: rest => p.take 4 ++ p.drop 8 ++ rest.flatMap (·.2)
  | (false, p) :: rest => p ++ packPayloads rest

/-- Four blocks transcoded into 257 bits. -/
def transcode (l : List (Bool × List Bool)) : List Bool :=
  if l.all (!·.1) then true :: l.flatMap (·.2) else false :: (l.map (!·.1) ++ packPayloads l)

/-- A list cut into pieces of `n`. -/
def piecesOf {α : Type} (n fuel : Nat) (l : List α) : List (List α) :=
  match fuel with
  | 0 => []
  | k + 1 => if l.isEmpty then [] else l.take n :: piecesOf n k (l.drop n)

/-- An element of GF(2^10) times x. -/
def gfTimesX (a : Nat) : Nat := if 512 ≤ a then (2 * a) ^^^ 0x409 else 2 * a

/-- The product with the low `n` bits of `b`. -/
def gfMulLow (n a b : Nat) : Nat :=
  match n with
  | 0 => 0
  | k + 1 => (if b % 2 = 1 then a else 0) ^^^ gfMulLow k (gfTimesX a) (b / 2)

/-- The product in GF(2^10). -/
def gfMul (a b : Nat) : Nat := gfMulLow 10 a b

/-- The generator polynomial with `n` roots from `r`, each x times the one before, leading coefficient first. -/
def rsGen (n r : Nat) : List Nat :=
  match n with
  | 0 => [1]
  | k + 1 => let g := rsGen k (gfTimesX r); (g ++ [0]).zipWith (· ^^^ ·) (0 :: g.map (gfMul r))

/-- The 15 parity symbols of a message of 257. -/
def rsParity (msg : List Nat) : List Nat :=
  let g := (rsGen 15 1).tail
  msg.foldl (fun r m => let b := m ^^^ r.headD 0; (r.tail ++ [0]).zipWith (· ^^^ ·) (g.map (gfMul b))) (List.replicate 15 0)

/-- A codeword of RS(272,257). -/
def rsValid (c : List Nat) : Bool := c.length == 272 && rsParity (c.take 257) == c.drop 257

/-- Symbols in which two words differ. -/
def symbolErrors (a b : List Nat) : Nat := (a.zip b).countP fun e => e.1 != e.2

/-- What correction makes of a received word: the codeword that differs from it in at most 7 symbols (R281). -/
def rsCorrects (received c : List Nat) : Bool := received.length == 272 && rsValid c && decide (symbolErrors received c ≤ 7)

/-- The symbol that ten bits spell. -/
def symbolOf (b : List Bool) : Nat := (b.zipIdx.map fun e => bitOf e.1 * 2 ^ e.2).sum

/-- The bits of codeword number `n` for its 257-bit blocks; every 4,096th carries the alignment marker first (R281). -/
def codeword (n : Nat) (blocks : List (List Bool)) : List Bool :=
  let bits := (if n % 4096 = 0 then (List.range 257).map Config.alignMarker :: blocks.tail else blocks).flatten
  bits ++ (rsParity ((piecesOf 10 257 bits).map symbolOf)).flatMap fun y => (List.range 10).map y.testBit

/-- The coded bits of units under generation `gen`, after the scrambled bits `h`: 66-bit blocks in v1, else codewords numbered from `n`
(R275, R281). -/
def codedBits (gen n : Nat) (h : List Bool) (us : List (Bool × Nat)) : List Bool :=
  let bs := scrambleAll h us
  if gen = 0 then bs.flatMap block66
  else
    let words := piecesOf 10 us.length ((piecesOf 4 us.length bs).map transcode)
    words.zipIdx.flatMap fun e => codeword (n + e.2) e.1

/-! ### Frames and ordered units (R294, R295) -/

/-- The header word (R294). -/
def headWord (h : FrameHeader) : Nat :=
  h.cls % 16 * 2 ^ 60 + h.scope % 4 * 2 ^ 58 + h.dst % 32 * 2 ^ 53 + h.src % 32 * 2 ^ 48 + h.grp % 16 * 2 ^ 44 + h.pos % 8 * 2 ^ 41 +
    h.tag % 128 * 2 ^ 34 + h.op % 16 * 2 ^ 30 + h.len % 64 * 2 ^ 24

/-- The bytes of 64-bit words, least significant first. -/
def bytesOf (ws : List Nat) : List Nat := ws.flatMap fun w => (List.range 8).map fun i => w / 256 ^ i % 256

/-- A frame: header, payload and trailer with the CRC-32 over both (R294). -/
def frameWords (h : FrameHeader) (payload : List Nat) : List Nat :=
  let l := headWord { h with len := payload.length } :: payload
  l ++ [crc32 (bytesOf l)]

/-- An ordered unit's place in the list of R294. -/
def unitPlace (k : UnitKind) : Nat :=
  match k with
  | .sync => 0
  | .stop => 1
  | .delayReq => 2
  | .delayRsp => 3
  | .flow => 4
  | .ring => 5

/-- The 64-bit word of an ordered unit: its 8-bit type, 48 bits of content and the CRC-8 (R294). (DESIGN CHOICE, log entry 112.) -/
def orderedWord (k : UnitKind) (content : Nat) : Nat :=
  let body := Config.unitType (unitPlace k) % 2 ^ 8 * 2 ^ 48 + content % 2 ^ 48
  body * 2 ^ 8 + Config.crc8 body % 2 ^ 8

/-- The 64-bit payloads that a unit puts on its link, with those that are control-typed marked (R294). -/
def outWire (u : OutUnit) : List (Bool × Nat) :=
  match u with
  | .unit k _ content => [(true, orderedWord k content)]
  | .frame _ h ws => (frameWords h ws).map fun w => (false, w)
  | _ => []

/-- The lane a unit is for. -/
def outLane (u : OutUnit) : Option Nat :=
  match u with
  | .unit _ l _ | .frame l _ _ | .pass l => some l
  | _ => none

/-- Insertion priority of a traffic class (R295). -/
def classPriority (cls : Nat) : Nat := [0, 2, 2, 1, 3, 3, 4, 3, 1].getD cls 0

/-- Insertion priority of a unit: a passing unit is never delayed, ordered units have priority 0 (R295, R297). -/
def outPriority (u : OutUnit) : Nat :=
  match u with
  | .frame _ h _ => classPriority h.cls
  | _ => 0

end Sys2Proof.Machine
end

