-- ==== Sys2Proof/Machine/Lanes.lean ====
section
/-!
DEFINITION. The lanes below the frame: training, power states, test patterns, loopbacks, eye margins
(15_warelink_physical_layer.md).
-/

namespace Sys2Proof.Machine

open Sys2Proof

/-! ### Lane states (R282 to R284) -/

/-- Lane `l` updated. -/
def State.onLane (s : State) (l : Fin 6) (f : LaneUnit → LaneUnit) : State :=
  s.withLanes (s.lanes.set l (f s.lanes[l]))

/-- STATUS.STATE of lane `l`: 0 OFF, 1 DOWN, 2 TRAIN, 3 L0, 4 L1, 5 L2, 6 TEST, 7 FAIL. -/
def State.laneState (s : State) (l : Nat) : Nat := s.get (LANE_STATUS_STATE l)

/-- The lane serves Ethernet: its PCS replaces the rules up to R285 (R291). -/
def State.laneEth (s : State) (l : Nat) : Bool := s.get (LANE_ROLE_ROLE l) == 5

/-- STATUS.LOOP_TIMED of a worker's LANE0 and LANE1: loop timing while LANE0 is in L0 and the chain is not reversed (R277, R317). -/
def State.laneTiming (s : State) : State :=
  let b := s.isWorker && s.laneState 0 == 3 && !s.wlk.reversed
  (s.putB (LANE_STATUS_LOOP_TIMED 0) b).putB (LANE_STATUS_LOOP_TIMED 1) b

/-- Lane `l` enters a state; a power-state request under way ends. -/
def State.laneGo (s : State) (l : Fin 6) (st : Nat) : State :=
  ((s.put (LANE_STATUS_STATE l) st).onLane l fun x => { x with req := none, waking := false }).laneTiming

/-- Lane `l` starts training (R283). -/
def State.laneTrain (s : State) (l : Fin 6) : State := (s.laneGo l 2).onLane l fun x => { x with attempts := 0 }

/-- A request on lane `l` is refused (R285 to R288). -/
def State.laneRefuse (s : State) (l : Fin 6) : State := (s.inc (LANE_REFUSED_COUNT l)).put (LANE_INT_REFUSED l) 1

/-- TEST, the generator and the loopbacks are allowed: the role is unused or no tile is armed (R288). -/
def State.laneTestOk (s : State) (l : Fin 6) : Bool := s.get (LANE_ROLE_ROLE l) == 0 || !s.anyArmed

/-- The manager asks for position `p` of chain `c`, less one (R299). -/
def State.askPosition (s : State) (c : Fin 4) (p : Nat) : State := s.sendFrame c { cls := 7, scope := 3, pos := p } 0 []

/-- Discovery of chain `c` starts: the manager asks for position 1 (R298, R299). -/
def State.discoverStart (s : State) (c : Fin 4) : State :=
  let s1 := s.withWlk { s.wlk with disc := s.wlk.disc.set c { s.wlk.disc[c] with asked := some 0, found := [] } }
  (s1.putBit WLK_PLANT_STATUS_DISC_BUSY c true).askPosition c 0

/-- A firmware access to a register of lane `l`. -/
def State.laneAccess (s : State) (l : Fin 6) (f : State → State) : State := s.access (.serial l) none f

/-- A worker whose LANE0 and LANE1 have both come to L0 measures its hop delay, which then stays; a free value of at most 60 ns (R297,
R312). (DESIGN CHOICE, log entry 126.) -/
def State.hopMeasure (s : State) : State :=
  if s.isWorker && s.laneState 0 == 3 && s.laneState 1 == 3 then
    s.tookFree.put WLK_HOPDLY_PS (s.freeWord.toNat % 60001)
  else s

/-- The units that leave lane `l`, in their order: a lane in L0 sends what the engine handed it in the order of R295; in a loopback its pins
are idle or carry the partner's data (R288, R289, R295). -/
def State.leaving (s : State) (l : Nat) : List OutUnit :=
  if s.laneState l == 3 && s.get (LANE_CTRL_LOOP l) == 0 && !s.bit (LANE_STATUS_RLB_ACTIVE l) then
    [0, 1, 2, 3, 4].flatMap fun p => s.outbox.filter fun (u : OutUnit) => outLane u == some l && outPriority u == p
  else []

/-- A local loopback of lane `l` is in force (R288). -/
def State.laneLocal (s : State) (l : Nat) : Bool := s.get (LANE_CTRL_LOOP l) == 1 || s.get (LANE_CTRL_LOOP l) == 2

/-! ### Symbols (R279, R280) -/

/-- The symbols lane `l` sends for bits that follow training: single bits in NRZ; in PAM4 the Gray indices, precoded as training left it
(R275, R279, R280, R286). -/
def State.laneSymbols (s : State) (l : Nat) (bits : List Bool) : List Nat :=
  if s.get (LANE_ROLE_GEN l) == 0 then bits.map bitOf
  else if s.bit (LANE_STATUS_PRECODE_TX l) then precode 0 (grayIndices bits)
  else grayIndices bits

/-! ### Training and loss of lock -/

/-- TRAIN_START: a DOWN lane that has seen signal for 10 µs starts training (R282). -/
def execTrainStart (l : Fin 6) (s : State) : Host.Outcome State Fault Refusal :=
  .next (s.when (s.up (.serial l) && s.laneState l == 1) (·.laneTrain l))

/-- TRAIN_COMPLETE: both ends enter L0 at one boundary. The ends have exchanged their precoding requests, which count in PAM4
only, and TXEQ holds the coefficients reached, the main tap taking the remainder of 64. A manager's chain lane that was DOWN
starts discovery; a worker measures its hop delay (R280, R283, R298, R312). -/
def execTrainComplete (l : Fin 6) (precodeTx : Bool) (pre : Fin 17) (post : Fin 33) (s : State) : Host.Outcome State Fault Refusal :=
  .next (
    if !s.up (.serial l) || s.laneState l != 2 then s
    else
      let pam := s.get (LANE_ROLE_GEN l) != 0
      let s1 := ((s.putB (LANE_STATUS_PRECODE_TX l) (pam && precodeTx)).putB (LANE_STATUS_PRECODE_RX l)
        (pam && s.bit (LANE_ROLE_PRECODE_RQ l)))
      let s2 := ((s1.put (LANE_TXEQ_PRE l) pre).put (LANE_TXEQ_POST l) post).put (LANE_TXEQ_MAIN l) (64 - pre.val - post.val)
      let s3 := ((s2.put (LANE_INT_UP l) 1).laneGo l 3).onLane l fun x => { x with attempts := 0, fresh := false }
      if h : l.val < 4 then
        s3.hopMeasure.when (s.lanes[l].fresh && s.isManager && s.get (LANE_ROLE_ROLE l) == 4) (·.discoverStart ⟨l.val, h⟩)
      else s3)

/-- TRAIN_ATTEMPT_FAIL: an attempt exceeds 100 ms; after three STATE reads FAIL and INT.TRAIN_FAIL sets (R283). -/
def execTrainAttemptFail (l : Fin 6) (s : State) : Host.Outcome State Fault Refusal :=
  .next (
    if !s.up (.serial l) || s.laneState l != 2 then s
    else
      let n := s.lanes[l].attempts + 1
      let s1 := s.onLane l fun x => { x with attempts := n }
      if 3 ≤ n then (s1.put (LANE_INT_TRAIN_FAIL l) 1).put (LANE_STATUS_STATE l) 7 else s1)

/-- TRAIN_RETRY: a failed lane tries again, until the Glaze makes it unused (R283). -/
def execTrainRetry (l : Fin 6) (s : State) : Host.Outcome State Fault Refusal :=
  .next (s.when (s.up (.serial l) && s.laneState l == 7 && s.get (LANE_ROLE_ROLE l) != 0) (·.put (LANE_STATUS_STATE l) 2))

/-- RING REVERSE passes on: to the next worker, or from the tail to its ring lane (R317). -/
def State.passReverse (s : State) : State :=
  if s.get (LANE_ROLE_ROLE 1) != 0 then s.send (.unit .ring 1 1)
  else if s.get (LANE_ROLE_ROLE 2) == 3 then s.send (.unit .ring 2 1)
  else if s.get (LANE_ROLE_ROLE 3) == 3 then s.send (.unit .ring 3 1)
  else s

/-- A worker reverses: LANE1 becomes its upstream lane, ALT_DELAY its delay, its transmitters run on local timing, and REVERSE
passes on (R317). -/
def State.reverse (s : State) : State :=
  if s.wlk.reversed then s
  else (s.withWlk { s.wlk with reversed := true }).laneTiming.passReverse

/-- LANE_DOWN: a lane in L0 loses lock and goes to DOWN. A worker whose LANE0 goes DOWN falls back to local timing and, where its
chain has a ring (`ring`), reverses; a manager's running bulk transfer loses frames (R277, R282, R317, R320). (DEDUCED, log entry 58.) -/
def execLaneDown (l : Fin 6) (ring : Bool) (s : State) : Host.Outcome State Fault Refusal :=
  .next (
    if s.laneState l != 3 || s.laneEth l then s
    else
      let s1 := (((s.inc (LANE_STATUS_DOWN_COUNT l)).put (LANE_INT_DOWN l) 1).laneGo l 1).onLane l fun x => { x with fresh := true }
      let s2 := s1.when (s.isWorker && l == 0 && ring) (·.reverse)
      if s.get (LANE_ROLE_ROLE l) == 4 then
        s2.withWlk { s2.wlk with bulk := s2.wlk.bulk.map fun (b : Bulk) => { b with lost := true } }
      else s2)

/-- CODEWORD_UNCORRECTABLE: a codeword of v2 or v3 fails correction, or parity with FEC off; it is delivered flagged and counted
(R281). -/
def execCodewordUncorrectable (l : Fin 6) (s : State) : Host.Outcome State Fault Refusal :=
  .next (s.when (s.laneState l == 3 && !s.laneEth l && s.get (LANE_ROLE_GEN l) != 0) (·.inc (LANE_FEC_UNCORR_COUNT l)))

/-- RETRAIN once it has reached its island. -/
def retrainOp (l : Fin 6) (s : State) : State :=
  s.when (!s.laneEth l) (·.laneTrain l)

/-- RETRAIN: CTRL.CMD = 0x1 starts training (R283). -/
def execRetrain (l : Fin 6) (s : State) : Host.Outcome State Fault Refusal := .next (s.laneAccess l (retrainOp l))

/-! ### Power states (R284, R285) -/

/-- A power-state request leaves lane `l` if it is in L0 and none is under way. -/
def State.laneRequest (s : State) (l : Fin 6) (target : Nat) : State :=
  s.when (s.laneState l == 3 && s.lanes[l].req.isNone && !s.laneEth l) (·.onLane l fun x => { x with req := some target })

/-- Firmware's L1 and L2 are refused on plant-role lanes while a Glaze is in force (R285). -/
def State.lanePower (s : State) (l : Fin 6) (target : Nat) : State :=
  if s.glz.active.isSome && [1, 2, 4].contains (s.get (LANE_ROLE_ROLE l)) then s.laneRefuse l else s.laneRequest l target

/-- L1: CTRL.CMD = 0x2 requests L1 or is refused (R285). -/
def execL1 (l : Fin 6) (s : State) : Host.Outcome State Fault Refusal := .next (s.laneAccess l (·.lanePower l 4))

/-- L2: CTRL.CMD = 0x3 requests L2 or is refused (R285). -/
def execL2 (l : Fin 6) (s : State) : Host.Outcome State Fault Refusal := .next (s.laneAccess l (·.lanePower l 5))

/-- WAKE once it has reached its island. -/
def wakeOp (l : Fin 6) (s : State) : State :=
  s.when (s.laneState l == 4 || s.laneState l == 5) (·.onLane l fun x => { x with waking := true })

/-- WAKE: CTRL.CMD = 0x4 calls the exit from L1 or L2 (R284). -/
def execWake (l : Fin 6) (s : State) : Host.Outcome State Fault Refusal := .next (s.laneAccess l (wakeOp l))

/-- AUTO_L1_REQUEST: with AUTO_L1 the protocol engine requests L1 (R285). -/
def execAutoL1Request (l : Fin 6) (s : State) : Host.Outcome State Fault Refusal :=
  .next (s.when (s.bit (LANE_ROLE_AUTO_L1 l)) (·.laneRequest l 4))

/-- POWER_STATE_ENTER: a request is acknowledged, this end's own or the partner's for L1 or L2, and both ends enter (R284). -/
def execPowerStateEnter (l : Fin 6) (l2 : Bool) (s : State) : Host.Outcome State Fault Refusal :=
  .next (
    if s.laneState l != 3 || s.laneEth l then s
    else s.laneGo l (s.lanes[l].req.getD (if l2 then 5 else 4)))

/-- POWER_STATE_LAPSE: the request lacks its acknowledgement for 1 µs; it lapses and is counted (R284). -/
def execPowerStateLapse (l : Fin 6) (s : State) : Host.Outcome State Fault Refusal :=
  .next (s.when s.lanes[l].req.isSome fun s => (s.inc (LANE_REFUSED_COUNT l)).onLane l fun x => { x with req := none })

/-- POWER_STATE_EXIT: a wake burst or beacon of either end brings the lane back to L0 (R284). -/
def execPowerStateExit (l : Fin 6) (s : State) : Host.Outcome State Fault Refusal :=
  .next (s.when (s.laneState l == 4 || s.laneState l == 5) fun s => (s.laneGo l 3).hopMeasure)

/-- L2_EXIT_RETRAIN: the kept coefficients do not restore lock within 180 µs: full training, counted (R284). -/
def execL2ExitRetrain (l : Fin 6) (s : State) : Host.Outcome State Fault Refusal :=
  .next (s.when (s.laneState l == 5) fun s => (s.inc (LANE_STATUS_L2_RETRAINS l)).laneTrain l)

/-! ### Tests (R286 to R289) -/

/-- TEST_ENTER once it has reached its island. -/
def testEnterOp (l : Fin 6) (s : State) : State :=
  if s.laneEth l then s else if s.laneTestOk l then s.laneGo l 6 else s.laneRefuse l

/-- TEST_ENTER: CTRL.CMD = 0x5 puts the lane in TEST, or is refused (R288). -/
def execTestEnter (l : Fin 6) (s : State) : Host.Outcome State Fault Refusal := .next (s.laneAccess l (testEnterOp l))

/-- TEST_EXIT once it has reached its island. -/
def testExitOp (l : Fin 6) (s : State) : State :=
  s.when (s.laneState l == 6) (·.laneTrain l)

/-- TEST_EXIT: CTRL.CMD = 0x6 starts training (R288). -/
def execTestExit (l : Fin 6) (s : State) : Host.Outcome State Fault Refusal := .next (s.laneAccess l (testExitOp l))

/-- A pattern is allowed on lane `l` (R286, R291). -/
def State.patAllowed (s : State) (l : Fin 6) (p : Nat) : Bool :=
  if s.laneEth l then [0, 1, 2, 5].contains p
  else p ≤ 5 || (p == 6 && s.get (LANE_ROLE_GEN l) != 0)

/-- PAT_CFG_WRITE once it has reached its island. -/
def patCfgWriteOp (l : Fin 6) (v : Word) (s : State) : State :=
  let p := v.toNat % 8
  let gen := v.toNat.testBit 4
  let chk := v.toNat.testBit 5
  if !s.patAllowed l p || (gen && !s.laneTestOk l) then s.laneRefuse l
  else
    let keep := chk && s.bit (LANE_PAT_CFG_CHK_EN l) && s.get (LANE_PAT_CFG_PAT l) == p
    let runs := gen && s.bit (LANE_PAT_CFG_GEN_EN l) && s.get (LANE_PAT_CFG_PAT l) == p
    let s1 := ((s.put (LANE_PAT_CFG_PAT l) p).putB (LANE_PAT_CFG_GEN_EN l) gen).putB (LANE_PAT_CFG_CHK_EN l) chk
    let s2 := (s1.put (LANE_PAT_CFG_BURST l) (v.toNat / 2 ^ 16)).when (!keep) (·.put (LANE_PAT_CFG_LOCK l) 0)
    if gen && !runs then
      s2.tookFree.onLane l fun x => { x with gen := true :: (List.range 30).map fun i => s2.freeWord.getLsbD i }
    else s2

/-- PAT_CFG_WRITE: pattern, generator, checker and burst length take the value; refused for a pattern that is not allowed and for
a generator that R288 forbids. A checker that starts, stops or changes its pattern holds no lock; a generator that starts does so within its
sequence, where is a free value (R286; DESIGN CHOICE, log entry 126). -/
def execPatCfgWrite (l : Fin 6) (v : Word) (s : State) : Host.Outcome State Fault Refusal := .next (s.laneAccess l (patCfgWriteOp l v))

/-- PAT_LOCK: 64 error-free bits: the checker locks and counts from here (R286). -/
def execPatLock (l : Fin 6) (s : State) : Host.Outcome State Fault Refusal :=
  .next (s.when (s.bit (LANE_PAT_CFG_CHK_EN l) && !s.bit (LANE_PAT_CFG_LOCK l)) fun s =>
    ((s.put (LANE_PAT_CFG_LOCK l) 1).put (LANE_PAT_ERR_COUNT l) 0).put (LANE_PAT_BITS_COUNT l) 0)

/-- PAT_LOCK_LOST: more than 1 bit in 8 errs over 1,024 bits: the checker drops lock. `bits` and `errs` are what it counted since the
last 100 ns ended, or since it locked (R286). -/
def execPatLockLost (l : Fin 6) (bits : DWord) (errs : Word) (s : State) : Host.Outcome State Fault Refusal :=
  .next (s.when (s.bit (LANE_PAT_CFG_LOCK l)) fun s =>
    ((s.put (LANE_PAT_CFG_LOCK l) 0).addSat (LANE_PAT_BITS_COUNT l) bits.toNat).addSat (LANE_PAT_ERR_COUNT l) errs.toNat)

/-- INJECT once it has reached its island. -/
def injectOp (l : Fin 6) (s : State) : State :=
  if s.bit (LANE_PAT_CFG_INJECT l) then s.laneRefuse l
  else (s.put (LANE_PAT_CFG_INJECT l) 1).onLane l fun x => { x with inv := s.get (LANE_PAT_CFG_BURST l) }

/-- INJECT: BURST bits are inverted; INJECT reads 1 while it is under way, and a further one then is refused (R287). -/
def execInject (l : Fin 6) (s : State) : Host.Outcome State Fault Refusal := .next (s.laneAccess l (injectOp l))

/-- LOOP_WRITE once it has reached its island. -/
def loopWriteOp (l : Fin 6) (v : BitVec 2) (s : State) : State :=
  if v != 0 && (!s.laneTestOk l || (s.laneEth l && v == 3)) then s.laneRefuse l
  else s.put (LANE_CTRL_LOOP l) v.toNat

/-- LOOP_WRITE: CTRL.LOOP sets or ends a loopback, or is refused (R288, R291). -/
def execLoopWrite (l : Fin 6) (v : BitVec 2) (s : State) : Host.Outcome State Fault Refusal := .next (s.laneAccess l (loopWriteOp l v))

/-- RLB_REQ once it has reached its island: the request, or its end, goes to the partner. (DESIGN CHOICE, log entry 57.) -/
def rlbReqOp (l : Fin 6) (req : Bool) (answer : Option Bool) (s : State) : State :=
  if s.laneEth l then s
  else if req then
    if s.laneState l == 3 || s.laneState l == 6 then
      ((s.put (LANE_CTRL_RLB_REQ l) 1).put (LANE_STATUS_RLB_STATE l)
        (match answer with | none => 1 | some true => 2 | some false => 3)).send (.loopRequest l true)
    else s.laneRefuse l
  else
    let loop := s.get (LANE_STATUS_RLB_STATE l) == 2
    (((s.put (LANE_CTRL_RLB_REQ l) 0).put (LANE_STATUS_RLB_STATE l) 0).send (.loopRequest l false)).when loop (·.laneTrain l)

/-- RLB_REQ: in L0 or TEST the partner is asked for far-end loopback, and RLB_STATE shows its answer, if it has given one; clearing
the request ends the loop, and the lane trains (R289). -/
def execRlbReq (l : Fin 6) (req : Bool) (answer : Option Bool) (s : State) : Host.Outcome State Fault Refusal := .next (s.laneAccess l (rlbReqOp l req answer))

/-- RLB_REQUEST_RECEIVED: the partner's request is accepted with ALLOW_RLB where R288 holds, else refused, and answered; its end ends the
loop and the lane trains (R289). -/
def execRlbRequestReceived (l : Fin 6) (req : Bool) (s : State) : Host.Outcome State Fault Refusal :=
  .next (
    if s.laneEth l then s
    else if req then
      let ok := s.bit (LANE_ROLE_ALLOW_RLB l) && s.laneTestOk l
      (s.when ok (·.put (LANE_STATUS_RLB_ACTIVE l) 1)).send (.loopAnswer l ok)
    else s.when (s.bit (LANE_STATUS_RLB_ACTIVE l)) fun s => (s.put (LANE_STATUS_RLB_ACTIVE l) 0).laneTrain l)

/-! ### 100 ns on a lane (R275, R281, R286, R287) -/

/-- Quarter bits that lane `l` carries in 100 ns: by its generation, or of an Ethernet lane by its MAC's mode (R275, R321). -/
def State.laneQuarters (s : State) (l : Nat) : Nat :=
  if s.laneEth l then [500, 500, 500, 1250, 4125].getD (s.get (MAC_CFG_MODE (l - 4))) 500
  else [4125, 10625, 21250].getD (s.get (LANE_ROLE_GEN l)) 4125

/-- The codewords that correction mended in 100 ns and the symbols it mended, which are free values; on a local loopback only those that an
injection hits (R281, R287, R288). (DESIGN CHOICE, log entry 126.) -/
def State.fecTick (s : State) (l : Fin 6) : State :=
  let gen := s.get (LANE_ROLE_GEN l)
  if s.laneState l != 3 || s.laneEth l || gen == 0 || !s.bit (LANE_ROLE_FEC l) || s.bit (LANE_PAT_CFG_CHK_EN l) then s
  else if s.laneLocal l then
    let n := s.lanes[l].inv
    let y := (n + s.freeWord.toNat % 10 + 9) / 10
    s.when (n != 0) fun s =>
      if y ≤ 7 then (s.tookFree.inc (LANE_FEC_CORR_COUNT l)).addSat (LANE_FEC_SYMERR_COUNT l) y else s.tookFree.inc (LANE_FEC_UNCORR_COUNT l)
  else
    let c := s.freeWord.toNat % (gen + 1)
    let y := c + s.tookFree.freeWord.toNat % (6 * c + 1)
    (s.tookFree.tookFree.addSat (LANE_FEC_CORR_COUNT l) c).addSat (LANE_FEC_SYMERR_COUNT l) y

/-- The pattern that the generator sends in 100 ns, with the injection under way in its first bits (R286, R287). -/
def State.patSent (s : State) (l : Fin 6) (n : Nat) : List Bool :=
  injectBits 0 s.lanes[l].inv (patBits (s.get (LANE_PAT_CFG_PAT l)) s.lanes[l].gen n)

/-- 100 ns of the generator and the checker: a locked checker counts the bits, and those in error: those injected where its own generator
comes back to it, else a free number (R286, R287). (DESIGN CHOICE, log entry 126.) -/
def State.patTick (s : State) (l : Fin 6) : State :=
  let x := s.lanes[l]
  let q := x.quarter + s.laneQuarters l
  let n := q / 4
  let sends := s.bit (LANE_PAT_CFG_GEN_EN l)
  let known := s.laneLocal l && sends
  let errs := if known then (((s.patSent l n).zip (patBits (s.get (LANE_PAT_CFG_PAT l)) x.gen n)).countP fun e => e.1 != e.2)
    else s.freeWord.toNat % (n + 1)
  let s1 := if s.bit (LANE_PAT_CFG_LOCK l) then
      ((s.when (!known) (·.tookFree)).addSat (LANE_PAT_BITS_COUNT l) n).addSat (LANE_PAT_ERR_COUNT l) errs else s
  let s2 := s1.onLane l fun y => { y with inv := 0, quarter := if sends || s.bit (LANE_PAT_CFG_LOCK l) then q % 4 else 0 }
  (s2.when sends (·.onLane l fun y =>
    { y with gen := ((patBits (s.get (LANE_PAT_CFG_PAT l)) x.gen n).reverse ++ x.gen).take 31 })).put (LANE_PAT_CFG_INJECT l) 0

/-- 100 ns on lane `l`: the counters run, the injection ends, and what the engine sent in a local loopback has come back to the lane's own
receiver (R281, R286 to R288). -/
def State.tickLane (s : State) (l : Fin 6) : State :=
  ((s.fecTick l).patTick l).onLane l fun x =>
    { x with looped := if s.laneLocal l then s.outbox.filter fun (u : OutUnit) => outLane u == some l.val else [] }

/-! ### Eye margin (R290) -/

/-- EYE_MEASURE: the margins found in L0, the PAM4 eye named, INT.MARGIN below a threshold, and the report to Grog, which takes the
vertical margin in mV and the horizontal one in 1/1,000 UI (R290, R385). (DEDUCED, log entry 59.) -/
def execEyeMeasure (l : Fin 6) (eye : Fin 3) (h v : BitVec 10) (s : State) : Host.Outcome State Fault Refusal :=
  .next (
    if s.laneState l != 3 && !s.laneEth l then s
    else
      let nrz := s.laneEth l || s.get (LANE_ROLE_GEN l) == 0
      let s1 := ((s.put (LANE_MARGIN_EYE l) (if nrz then 0 else eye.val)).put (LANE_MARGIN_H l) h.toNat).put (LANE_MARGIN_V l) v.toNat
      let low := decide (v.toNat < s.get (LANE_MARGIN_THR_V_MIN l)) || decide (h.toNat < s.get (LANE_MARGIN_THR_H_MIN l))
      ((s1.when low (·.put (LANE_INT_MARGIN l) 1)).grogReport 4 8 l 0 (fofInt v.toNat 0) low false).grogEye 7 l (fofInt h.toNat 0))

/-! ### Firing (R42) -/

/-- Lane `l` at a firing: one whose role or generation changed retrains; one made unused turns off (R42, R283, R292). -/
def State.laneFiring (s : State) (l : Fin 6) (oldRole oldGen : Nat) : State :=
  let role := s.get (LANE_ROLE_ROLE l)
  if role == oldRole && s.get (LANE_ROLE_GEN l) == oldGen then s
  else if role == 0 || role == 5 then s.laneGo l 0
  else (s.laneTrain l).onLane l fun x => { x with fresh := true }

end Sys2Proof.Machine
end

