-- ==== Sys2Proof/Machine/Ptp.lean ====
section
/-!
DEFINITION. PTP messages within Ethernet frames: where they stand, what kind they are, and what one-step transmission writes into them
(R329). The message layouts are those of IEEE 1588-2019, the headers below them those of Ethernet, IPv4, IPv6 and UDP. (PRESUMED, log entry
61.)
-/

namespace Sys2Proof.Machine

open Sys2Proof

/-- `n` bytes from offset `o`, the first the most significant. -/
def netAt (b : List Byte) (o n : Nat) : Nat := ((b.drop o).take n).foldl (fun a x => 256 * a + x.toNat) 0

/-- The `n` bytes of `v`, the most significant first. -/
def netBytes (n v : Nat) : List Byte := (List.range n).map fun i => BitVec.ofNat 8 (v / 256 ^ (n - 1 - i))

/-- A frame with the bytes from offset `o` replaced by `x`. -/
def splice (b : List Byte) (o : Nat) (x : List Byte) : List Byte := b.take o ++ x ++ b.drop (o + x.length)

/-- Where a PTP message stands in a frame: its offset, and over UDP the offset of the checksum and whether the packet is IPv6. -/
structure PtpPlace where
  start : Nat
  udp : Option (Nat × Bool) := none
  deriving DecidableEq, Repr

/-- The PTP message in a frame: EtherType 0x88F7, or UDP to port 319 or 320 over IPv4 or IPv6; a VLAN tag may stand before (R329). -/
def ptpPlace (b : List Byte) : Option PtpPlace :=
  let e := if netAt b 12 2 = 0x8100 then 16 else 12
  let p := e + 2
  let port := fun (u : Nat) => netAt b (u + 2) 2 == 319 || netAt b (u + 2) 2 == 320
  if netAt b e 2 = 0x88F7 then some { start := p }
  else if netAt b e 2 = 0x0800 then
    let u := p + 4 * (netAt b p 1 % 16)
    if netAt b (p + 9) 1 == 17 && port u then some { start := u + 8, udp := some (u + 6, false) } else none
  else if netAt b e 2 = 0x86DD then
    let u := p + 40
    if netAt b (p + 6) 1 == 17 && port u then some { start := u + 8, udp := some (u + 6, true) } else none
  else none

/-- The frame carries an event message: Sync, Delay_Req, Pdelay_Req or Pdelay_Resp (R329). -/
def ptpEvent (b : List Byte) : Bool :=
  match ptpPlace b with
  | some p => decide (netAt b p.start 1 % 16 ≤ 3)
  | none => false

/-- The sum of the 16-bit words of some bytes. -/
def words16 (x : List Byte) : Nat := (List.range (x.length / 2)).foldl (fun a i => a + netAt x (2 * i) 2) 0

/-- A checksum in one's complement as it follows from `c` when bytes `old` become `new`. -/
def checksumOf (c : Nat) (old new : List Byte) : Nat :=
  65535 - (65535 - c + words16 new + (65535 - words16 old % 65535)) % 65535

/-- What one-step transmission at the given time makes of a frame: Sync takes the time as its originTimestamp; Pdelay_Resp has the time
since the receive timestamp that stands in the frame added to its correctionField, in 2^-16 ns. Over IPv4 the UDP checksum becomes zero,
over IPv6 it is updated (R329). -/
def oneStepFrame (b : List Byte) (sec ns : Nat) : List Byte :=
  match ptpPlace b with
  | none => b
  | some p =>
    let o := p.start
    let kind := netAt b o 1 % 16
    let turn : Nat := 65536 * (sec * 1000000000 + ns) + 2 ^ 64 - 65536 * (netAt b (o + 34) 6 * 1000000000 + netAt b (o + 40) 4) % 2 ^ 64
    let edit : Option (Nat × List Byte) :=
      if kind = 0 then some (o + 34, netBytes 6 sec ++ netBytes 4 ns)
      else if kind = 3 then some (o + 8, netBytes 8 (netAt b (o + 8) 8 + turn))
      else none
    match edit with
    | none => b
    | some (at_, x) =>
      let b1 := splice b at_ x
      match p.udp with
      | none => b1
      | some (u, six) =>
        splice b1 u (if six then netBytes 2 (checksumOf (netAt b u 2) ((b.drop at_).take x.length) x) else [0, 0])

end Sys2Proof.Machine
end

