-- ==== Sys2Proof/Machine/Net.lean ====
section
/-!
DEFINITION. The NET island: the PTP clock, the MACs with their rings, launch queues and timestamp queues
(17_network_and_time.md).
-/

namespace Sys2Proof.Machine

open Sys2Proof

/-- MAC `m` updated. -/
def State.onMac (s : State) (m : Fin 2) (f : Mac → Mac) : State :=
  s.withNet { s.net with macs := s.net.macs.set m (f s.net.macs[m]) }

/-- A firmware access to the NET island. -/
def State.netAccess (s : State) (f : State → State) : State := s.access .net none f

/-! ### The PTP clock (R325 to R328) -/

/-- The clock is disciplined by the protocol engine: a worker with PTP_FOLLOW (R314, R326). -/
def State.ptpFollows (s : State) : Bool := s.isWorker && s.bit WLK_SYNC_CFG_PTP_FOLLOW

/-- A correction of a clock that follows the plant is refused and counted in WLK.REFUSED (R326). -/
def State.ptpRefused (s : State) : State := (s.inc WLK_REFUSED_COUNT).put WLK_INT_REFUSED 1

/-- A clock that holds `total` ns and the fraction `frac`. -/
def ptpOf (total : Int) (frac : Nat) : Ptp :=
  let t := (total % (2 ^ 48 * 1000000000 : Int)).toNat
  { sec := t / 1000000000, ns := t % 1000000000, frac := frac }

/-- The clock's time in ns. -/
def ptpTotal (p : Ptp) : Nat := p.sec * 1000000000 + p.ns

/-- The clock advanced by `n` NET cycles (R325). -/
def State.ptpAdvance (s : State) (n : Nat) : State :=
  let inc := s.get NET_PTP_INC_NS * 2 ^ 32 + s.get NET_PTP_INC_FRAC
  let f := s.net.ptp.frac + n * inc
  s.withNet { s.net with ptp := ptpOf ((s.net.ptp.sec * 1000000000 + s.net.ptp.ns + f / 2 ^ 32 : Nat) : Int) (f % 2 ^ 32) }

/-- The time takes a step to `p`: STEPPED sets. Source-4 triggers follow the new time: instants stepped over are not issued, instants that
come again are; after a step back no launch counts as following a later one (R48, R326, R330). -/
def State.ptpStep (s : State) (p : Ptp) : State :=
  let back := decide (ptpTotal p < ptpTotal s.net.ptp)
  let s1 := s.each eight fun k s => s.onGroup k fun g => { g with ptpIdx := s.ptpMultiple k (ptpTotal p) }
  (s1.withNet { s1.net with
    ptp := p, macs := s1.net.macs.map fun (x : Mac) => { x with lqLast := if back then 0 else x.lqLast } }).put NET_PTP_STATUS_STEPPED 1

/-- An increment from 3.8 to 4.2 ns in 32.32 (R325). -/
def ptpIncOk (v : Nat) : Bool := decide (16320875725 ≤ v) && decide (v ≤ 18038862643)

/-- PTP_INC takes the value `n`; nothing that was written to one half waits any more (R325). -/
def State.ptpIncTake (s : State) (n : Nat) : State :=
  ((s.put NET_PTP_INC_NS (n / 2 ^ 32)).put NET_PTP_INC_FRAC n).withNet { s.net with incLo := none }

/-- PTP_INC_WRITE once it has reached its island. -/
def ptpIncWriteOp (half : Option Bool) (v : DWord) (s : State) : State :=
  if s.ptpFollows then s.ptpRefused
  else
    let commit := fun (n : Nat) => if ptpIncOk n then s.ptpIncTake n else s.inc NET_PTP_STATUS_REFUSED
    match half with
    | none => commit v.toNat
    | some true => commit (v.toNat % 2 ^ 32 * 2 ^ 32 + s.net.incLo.getD (s.get NET_PTP_INC_FRAC))
    | some false => s.withNet { s.net with incLo := some (v.toNat % 2 ^ 32) }

/-- PTP_INC_WRITE: a 64-bit write, or one of the high half with the fraction written before it, commits; out of range it is refused
and counted, and so is any write where the engine disciplines the clock. `half` is the half written: false low, true high (R325,
R326). -/
def execPtpIncWrite (half : Option Bool) (v : DWord) (s : State) : Host.Outcome State Fault Refusal := .next (s.netAccess (ptpIncWriteOp half v))

/-- PTP_OFS_WRITE once it has reached its island. (DEDUCED, log entry 60.) -/
def ptpOfsWriteOp (v : Word) (s : State) : State :=
  if s.ptpFollows then s.ptpRefused
  else if v = 0x80000000 then s.inc NET_PTP_STATUS_REFUSED
  else s.ptpStep (ptpOf ((ptpTotal s.net.ptp : Int) + v.toInt) s.net.ptp.frac)

/-- PTP_OFS_WRITE: the time steps by the signed value, or the write is refused (R326). -/
def execPtpOfsWrite (v : Word) (s : State) : Host.Outcome State Fault Refusal := .next (s.netAccess (ptpOfsWriteOp v))

/-- SET once it has reached its island. -/
def ptpSetOp (s : State) : State :=
  if s.ptpFollows then s.ptpRefused
  else s.ptpStep (ptpOf ((s.net.setSec * 1000000000 + s.net.setNs : Nat) : Int) 0)

/-- SET: the staged time is put in force as a step (R326). -/
def execPtpSet (s : State) : Host.Outcome State Fault Refusal := .next (s.netAccess ptpSetOp)

/-- VALID takes a value, 1 only while the clock runs; metering intervals under way overlap the change (R327, R269, R262). -/
def State.ptpSetValid (s : State) (b : Bool) : State :=
  let v := b && s.netRuns
  if s.ptpValid == v then s
  else
    let s1 := s.putB NET_PTP_STATUS_VALID v
    s1.when v fun s => s.withMet { s.met with aggFlag := s.met.aggFlag.map fun _ => true }

/-- VALID of a worker whose clock follows the plant (R327). -/
def State.followValid (s : State) : State :=
  if s.ptpFollows then s.ptpSetValid (s.bit WLK_SYNC_STATUS_LOCKED && s.wlk.timeValid) else s

/-- SET_VALID: PTP time is marked valid; refused where the engine disciplines the clock (R327). -/
def execSetValid (s : State) : Host.Outcome State Fault Refusal :=
  .next (s.netAccess fun s => if s.ptpFollows then s else s.ptpSetValid true)

/-- CLR_VALID: PTP time is marked not valid; refused where the engine disciplines the clock (R327). -/
def execClrValid (s : State) : Host.Outcome State Fault Refusal :=
  .next (s.netAccess fun s => if s.ptpFollows then s else s.ptpSetValid false)

/-- PTP_NOW_READ once it has reached its island. -/
def ptpNowReadOp (s : State) : State × Nat :=
  (s.put NET_PTP_NOW_SEC_SEC s.net.ptp.sec, s.net.ptp.ns)

/-- PTP_NOW_READ: answers the ns and latches the seconds (R326). -/
def execPtpNowRead (s : State) : Host.Outcome State Fault Refusal := .next (s.accessV .net none ptpNowReadOp)

/-! ### MACs (R321 to R323) -/

/-- A write of CFG is refused. -/
def State.macRefuse (s : State) (m : Fin 2) : State := s.inc (MAC_STATUS_REFUSED m)

/-- The other MAC. -/
def otherMac (m : Fin 2) : Fin 2 := if m = 0 then 1 else 0

/-- MODE and MAXLEN as a write of CFG leaves them: they take a value only while EN is 0 (R322). -/
def State.macNext (s : State) (m : Fin 2) (v : Word) : Nat × Nat :=
  if s.bit (MAC_CFG_EN m) then (s.get (MAC_CFG_MODE m), s.get (MAC_CFG_MAXLEN m))
  else (v.toNat / 2 ^ 28 % 8, v.toNat / 2 ^ 10 % 2 ^ 14)

/-- A write of CFG is refused: a MODE or MAXLEN outside its range, a lane that the Glaze in force does not give to Ethernet, or the RGMII
port in use by the other MAC (R321, R322, R405). -/
def State.macCfgBad (s : State) (m : Fin 2) (v : Word) : Bool :=
  let mode := (s.macNext m v).1
  let maxlen := (s.macNext m v).2
  let o := otherMac m
  let taken := mode == 0 && s.bit (MAC_CFG_EN o) && s.get (MAC_CFG_MODE o) == 0
  decide (5 ≤ v.toNat / 2 ^ 28 % 8) || decide (maxlen < 1518) || decide (9216 < maxlen) ||
    (v.toNat.testBit 31 && ((mode != 0 && s.get (LANE_ROLE_ROLE (4 + m.val)) != 5) || taken))

/-- MAC_EN_WRITE once it has reached its island. -/
def macEnWriteOp (m : Fin 2) (v : Word) (s : State) : State :=
  let n := v.toNat
  let en := n.testBit 31
  let was := s.bit (MAC_CFG_EN m)
  let mode := (s.macNext m v).1
  let maxlen := (s.macNext m v).2
  if s.macCfgBad m v then s.macRefuse m
  else
    let s1 := ((s.put (MAC_CFG_MODE m) mode).put (MAC_CFG_MAXLEN m) maxlen).put (MAC_CFG_SPEED m)
      (if was then s.get (MAC_CFG_SPEED m) else n / 2 ^ 26)
    let s2 := ((s1.put (MAC_CFG_AN m) (n / 2 ^ 25)).put (MAC_CFG_PAUSE m) (n / 2 ^ 24)).putB (MAC_CFG_EN m) en
    if en && !was then s2.onMac m fun x => { x with txPos := 0, rxPos := 0, txStop := false, rxStop := false, paused := 0, pauseSent := false }
    else s2

/-- MAC_EN_WRITE: a write of CFG. MODE, SPEED and MAXLEN take a value only while EN is 0; a MODE or MAXLEN outside its range, a
lane that the Glaze in force does not give to Ethernet, and the RGMII port in use by the other MAC refuse the write (R321, R322,
R405). -/
def execMacEnWrite (m : Fin 2) (v : Word) (s : State) : Host.Outcome State Fault Refusal := .next (s.netAccess (macEnWriteOp m v))

/-- A PAUSE frame leaves: one that stops the partner, or one that lets it go on (R321). -/
def State.sendPause (s : State) (m : Fin 2) (stop : Bool) : State :=
  (s.onMac m fun x => { x with pauseSent := stop }).send (.pause m.val (if stop then 0xFFFF else 0))

/-- KICK once it has reached its island. -/
def kickOp (m : Fin 2) (s : State) : State :=
  (s.onMac m fun x => { x with txStop := false, rxStop := false }).when s.net.macs[m].pauseSent (·.sendPause m false)

/-- KICK: the MAC looks again at both rings; a partner that it had paused may send again (R321, R323; DESIGN CHOICE, log entry 125). -/
def execKick (m : Fin 2) (s : State) : Host.Outcome State Fault Refusal := .next (s.netAccess (kickOp m))

/-- MAC_LINK_CHANGE: the link goes up or down (R321). -/
def execMacLinkChange (m : Fin 2) (up : Bool) (rate : BitVec 2) (s : State) : Host.Outcome State Fault Refusal :=
  .next (s.when s.netRuns fun s => ((s.putB (MAC_STATUS_LINK m) up).put (MAC_STATUS_RATE m) rate.toNat).put NET_INT_LINK 1)

/-- Address of descriptor `i` of ring `r` in system SRAM (R323). -/
def State.descAddr (s : State) (m : Fin 2) (r i : Nat) : Nat := 256 * s.get (MAC_RING_BASE m r) + 16 * i

/-- The place after `i` in ring `r`. -/
def State.ringNext (s : State) (m : Fin 2) (r i : Nat) : Nat := if i + 1 < s.get (MAC_RING_COUNT m r) then i + 1 else 0

/-- The transmit timestamp of a frame sent with TS_REQ joins the queue, or is discarded where 16 wait (R331). -/
def State.tsPush (s : State) (m : Fin 2) (e : TsEntry) : State :=
  if s.net.macs[m].tsq.length < 16 then
    let s1 := s.onMac m fun x => { x with tsq := x.tsq ++ [e] }
    s1.put (MAC_TSQ_STATUS_LEVEL m) s1.net.macs[m].tsq.length
  else ((s.put (MAC_TSQ_STATUS_OVF m) 1).inc (MAC_TSQ_STATUS_OVF_COUNT m)).put NET_INT_TSQ_OVF 1

/-- The largest packet number of the suite in use (R324). -/
def State.pnMax (s : State) (m : Fin 2) : Nat := if s.bit (MAC_SEC_CFG_XPN m) then 2 ^ 64 - 1 else 2 ^ 32 - 1

/-- The frame to be sent under SA `a` takes a packet number; none is left once it is exhausted. The answer's second part says whether
the frame is discarded, its third the SA, the PN and the confidentiality offset that protect it. An SA without a SAK protects nothing
(R324). -/
def State.secTake (s : State) (m : Fin 2) (a : Fin 4) (bypass : Bool) : State × Bool × Option (Nat × Nat × Nat) :=
  if bypass || !s.sag.saks.contains (m.val, a.val) then (s, false, none)
  else
    let pn := s.net.macs[m].pn[a]
    if s.pnMax m < pn then
      ((s.inc (MAC_SEC_CFG_DROPS m)).put NET_INT_SEC_EXHAUST 1, true, none)
    else
      let s1 := s.onMac m fun x => { x with pn := x.pn.set a (pn + 1) }
      let thr := s.get (MAC_SEC_CFG_PN_THR m)
      let s2 := s1.when (thr != 0 && decide (thr * s.pnMax m ≤ 8 * pn)) (·.put NET_INT_SEC_PN 1)
      (s2.when (pn == s.pnMax m) (·.put NET_INT_SEC_EXHAUST 1), false, some (a.val, pn, s.get (MAC_SEC_CFG_OFFSET m)))

/-- Tenths of a ns that one bit lasts at the link's rate (R321). -/
def State.bitTenths (s : State) (m : Fin 2) : Nat :=
  match s.get (MAC_STATUS_RATE m) with
  | 0 => 1000
  | 1 => 100
  | 2 => 10
  | _ => if s.get (MAC_CFG_MODE m) = 4 then 1 else 4

/-- ns that a frame of `len` bytes keeps the wire, with the 20 bytes that go before and after it. (PRESUMED, log entry 61.) -/
def State.wireNs (s : State) (m : Fin 2) (len : Nat) : Nat := (len + 20) * 8 * s.bitTenths m / 10

/-- PTP time in ns as launch times count it (R330). -/
def State.launchNow (s : State) : Nat := (s.net.ptp.sec % 2 ^ 32) * 1000000000 + s.net.ptp.ns

/-- Launch time of an entry in ns. -/
def LaunchEntry.at_ (e : LaunchEntry) : Nat := e.sec * 1000000000 + e.ns

/-- A ring frame of `len` bytes sent now would be on the wire at the launch that the head of the queue waits for (R330). -/
def State.launchNear (s : State) (m : Fin 2) (len : Nat) : Bool :=
  match s.net.macs[m].lq with
  | [] => false
  | e :: _ => decide (e.at_ ≤ s.launchNow + s.wireNs m len)

/-- A frame whose EtherType is `ety` passes unprotected (R324). -/
def State.secBypass (s : State) (m : Fin 2) (ety : Nat) : Bool :=
  s.get (MAC_SEC_CFG_BYPASS_ETYPE m) != 0 && s.get (MAC_SEC_CFG_BYPASS_ETYPE m) == ety

/-- The bytes of a frame in system SRAM. -/
def State.frameBytes (s : State) (a len : Nat) : List Byte := (List.range len).map fun i => s.sram.get (a + i)

/-- A length that a frame may have (R321). -/
def State.frameLenOk (s : State) (m : Fin 2) (len : Nat) : Bool := decide (64 ≤ len) && decide (len ≤ s.get (MAC_CFG_MAXLEN m))

/-- MAC_FRAME_TX: the MAC takes the next transmit descriptor. One that it does not own stops the ring. A frame that would be on the wire at
a launch, or that a PAUSE holds back, waits. Else the frame leaves, or is discarded with its packet number exhausted or a length that no
frame may have; the descriptor is written back and the ring moves on. `a` is the transmit SA that firmware has made current (R321, R323,
R324, R329, R330, R331; DESIGN CHOICE, log entry 125). -/
def execMacFrameTx (m : Fin 2) (a : Fin 4) (s : State) : Host.Outcome State Fault Refusal :=
  .next (
    let x := s.net.macs[m]
    if !s.netRuns || !s.bit (MAC_CFG_EN m) || x.txStop then s
    else
      let d := s.descAddr m 0 x.txPos
      let fl := s.sram.read (d + 8) 1
      let len := s.sram.read (d + 4) 2
      if !fl.testBit 0 then s.onMac m fun x => { x with txStop := true }
      else if x.paused != 0 || s.launchNear m len then s
      else
        let bytes := s.frameBytes (s.sram.read d 4) len
        let id := s.sram.read (d + 6) 2
        let now := s.net.ptp
        let (s1, full, prot) := if s.frameLenOk m len then s.secTake m a (fl.testBit 3 || s.secBypass m (netAt bytes 12 2)) else (s, true, none)
        let out := if fl.testBit 2 then oneStepFrame bytes now.sec now.ns else bytes
        let s2 := if full then s1 else (s1.send (.eth m.val out prot)).when (fl.testBit 1) (·.tsPush m ⟨id, now.sec % 65536, now.ns⟩)
        let s3 := s2.withSram (s2.sram.write (d + 8) 2 (fl - 1 + 256 * bitOf full))
        (s3.onMac m fun x => { x with txPos := s.ringNext m 0 x.txPos }).put (MAC_INT_TX_DONE m) 1)

/-- What MACsec makes of a received frame: the state, whether the frame goes on, and its verified and failed bits. Strict discards what does
not verify, Check marks it, Disabled does not look; a frame below the replay window is discarded by the two that look. A verified frame
moves its SA's next packet number on. A frame under an SA without a SAK does not verify (R324). (PRESUMED, log entry 61.) -/
def State.secCheck (s : State) (m : Fin 2) (tag : Option SecTag) (icvOk : Bool) (bypass : Bool) : State × Bool × Nat :=
  let mode := s.get (MAC_SEC_CFG_VALIDATE m)
  if bypass || (mode != 1 && mode != 2) then (s, true, 0)
  else
    match tag with
    | none => (s, mode != 2, 0)
    | some t =>
      let sa : Fin 32 := Fin.ofNat 32 (4 * t.sc.val + t.an.val)
      let next := s.net.macs[m].rxPn[sa]
      if !s.sag.saks.contains (m.val, 4 + sa.val) then (s, mode != 2, 8)
      else if t.pn.toNat + Config.replayWindow m t.sc % 2 ^ 32 < next then (s, false, 0)
      else if icvOk then (s.onMac m fun x => { x with rxPn := x.rxPn.set sa (max next (t.pn.toNat + 1)) }, true, 4)
      else (s, mode != 2, 8)

/-- A PAUSE frame: its quanta of 512 bit times, with PAUSE = 1 (R321). -/
def State.pauseQuanta (s : State) (m : Fin 2) (bytes : List Byte) (crcOk : Bool) : Option Nat :=
  if s.bit (MAC_CFG_PAUSE m) && crcOk && netAt bytes 12 2 == 0x8808 && netAt bytes 14 2 == 1 then some (netAt bytes 16 2) else none

/-- A received frame is stored through receive descriptor `d`, its status bits `st`, with its timestamp, and the ring moves on (R323,
R329). -/
def State.storeFrame (s : State) (m : Fin 2) (d : Nat) (bytes : List Byte) (st : Nat) : State :=
  let now := s.net.ptp
  let ram := s.sram.store (s.sram.read d 4) (bytes.take (s.sram.read (d + 4) 2))
  let ram1 := (ram.write (d + 4) 2 bytes.length).write (d + 6) 2 st
  let ram2 := (ram1.write (d + 8) 4 (65536 * (now.sec % 65536))).write (d + 12) 4 now.ns
  ((s.withSram ram2).onMac m fun x => { x with rxPos := s.ringNext m 1 x.rxPos }).put (MAC_INT_RX_DONE m) 1

/-- MAC_FRAME_RX: a frame arrives: its bytes as MACsec gives them, whether its CRC holds, and its SecTAG if it carries one. A PAUSE frame
stops transmission for its time and goes no further. A length outside 64 to MAXLEN, and a frame that MACsec does not let pass, is
discarded. The frame goes into the next receive descriptor with its timestamp; without one, INT.RX_NO_DESC sets, the ring stops, and with
PAUSE = 1 the partner is paused (R321, R323, R324, R329). (PRESUMED, log entry 61; DESIGN CHOICE, log entry 125.) -/
def execMacFrameRx (m : Fin 2) (bytes : List Byte) (crcOk : Bool) (tag : Option SecTag) (icvOk : Bool) (s : State) :
    Host.Outcome State Fault Refusal :=
  .next (
    if !s.netRuns || !s.bit (MAC_CFG_EN m) || !s.frameLenOk m bytes.length then s
    else
      match s.pauseQuanta m bytes crcOk with
      | some q => s.onMac m fun x => { x with paused := 512 * q * s.bitTenths m / 10 }
      | none =>
        let (s1, pass, sec) := s.secCheck m tag icvOk (s.secBypass m (netAt bytes 12 2))
        if !pass then s1
        else
          let d := s.descAddr m 1 s.net.macs[m].rxPos
          if s.net.macs[m].rxStop || !(s.sram.read (d + 6) 2).testBit 0 then
            ((s1.onMac m fun x => { x with rxStop := true }).put (MAC_INT_RX_NO_DESC m) 1).when
              (s.bit (MAC_CFG_PAUSE m) && !s.net.macs[m].pauseSent) (·.sendPause m true)
          else s1.storeFrame m d bytes (2 * bitOf (!crcOk) + sec + 16 * bitOf (ptpEvent bytes)))

/-! ### The fieldbus ports (R332, R410) -/

/-- UART `i` updated: its transmit FIFO and the ns until its next character. -/
def State.onUart (s : State) (i : Fin 4) (x : List Word × Nat) : State := s.withNet { s.net with uarts := s.net.uarts.set i x }

/-- ns that one character of UART `i` lasts: BAUD NET cycles per bit (R332, R410). -/
def State.charNs (s : State) (i : Fin 4) : Nat :=
  4 * (cellGet s.regs (0x4A200004 + 0x1000 * i.val)).toNat * Config.uartBits (cellGet s.regs (0x4A200000 + 0x1000 * i.val)).toNat

/-- A character joins the 64 places of UART `i`'s transmit FIFO; one that finds them taken is dropped (R332). (DESIGN CHOICE, log entry
138.) -/
def uartDataOp (i : Fin 4) (v : Word) (s : State) : State :=
  let e := s.net.uarts[i]
  if 64 ≤ e.1.length then s else s.onUart i (e.1 ++ [v], if e.1.isEmpty then s.charNs i else e.2)

/-- 100 ns of UART `i`: a character that is out leaves the FIFO; INT tells when the FIFO is empty (R410). -/
def State.tickUart (s : State) (i : Fin 4) : State :=
  match s.net.uarts[i] with
  | ([], _) => s
  | (c :: t, n) =>
    if 100 < n then s.onUart i (c :: t, n - 100)
    else ((s.send (.port (0x4A200008 + 0x1000 * i.val) c.toNat)).onUart i (t, s.charNs i - (100 - n))).when t.isEmpty
      (·.put (UART_INT_TX i) 1)

/-- A CAN message buffer handed to its bus: its 20 words. -/
def canSendOp (base : Nat) (s : State) : State :=
  s.each (List.range 20) fun j s => s.send (.port (base + 4 * j) (cellGet s.regs (base + 4 * j)).toNat)

/-- A transmit buffer of CAN `i` has left with the units of the last 100 ns: INT tells so (R410). (DESIGN CHOICE, log entry 138.) -/
def State.canSent (s : State) (i : Fin 2) : Bool :=
  s.outbox.any fun u =>
    match u with
    | .port a _ => decide (0x4A101000 + 0x10000 * i.val ≤ a) && decide (a < 0x4A101A00 + 0x10000 * i.val)
    | _ => false

/-- 100 ns of the MACs and the CAN ports: what a PAUSE still holds back, and the CAN buffers that have left (R321, R332). -/
def State.tickMacs (s : State) : State :=
  let s1 := s.withNet { s.net with macs := s.net.macs.map fun (x : Mac) => { x with paused := x.paused - 100 } }
  s1.each [(0 : Fin 2), 1] fun i s => s.when (s.canSent i) (·.put (CAN_INT_TX i) 1)

/-- 100 ns of the UARTs (R332). -/
def State.tickUarts (s : State) : State := s.when s.netRuns fun s => s.each [(0 : Fin 4), 1, 2, 3] fun i s => s.tickUart i

/-! ### Launch queue (R330) and transmit timestamps (R331) -/

/-- LQ_STATUS.LEVEL follows the queue. -/
def State.lqLevel (s : State) (m : Fin 2) : State := s.put (MAC_LQ_STATUS_LEVEL m) s.net.macs[m].lq.length

/-- LQ_COMMIT once it has reached its island. -/
def lqCommitOp (m : Fin 2) (v : Word) (s : State) : State :=
  let len := v.toNat / 2 ^ 16 % 2 ^ 11
  if len < 60 || 1522 < len then s.inc (MAC_LQ_STATUS_REFUSED m)
  else if 1024 ≤ s.net.macs[m].lq.length then (s.inc (MAC_LQ_STATUS_REFUSED m)).put NET_INT_LQ_FULL 1
  else
    let e : LaunchEntry := ⟨s.get (MAC_LQ_ADDR_ADDR m), s.get (MAC_LQ_TIME_SEC m), s.get (MAC_LQ_TIME_NS m), len,
      v.toNat.testBit 30, v.toNat % 2 ^ 16⟩
    (s.onMac m fun x => { x with lq := x.lq ++ [e] }).lqLevel m

/-- LQ_COMMIT: a write of LQ_CMD commits an entry; refused to a full queue and with a length outside 60 to 1,522 (R330, R405). -/
def execLqCommit (m : Fin 2) (v : Word) (s : State) : Host.Outcome State Fault Refusal := .next (s.netAccess (lqCommitOp m v))

/-- FLUSH once it has reached its island. -/
def flushOp (m : Fin 2) (s : State) : State :=
  (s.onMac m fun x => { x with lq := [] }).lqLevel m

/-- FLUSH: every entry of the launch queue is discarded (R330). -/
def execFlush (m : Fin 2) (s : State) : Host.Outcome State Fault Refusal := .next (s.netAccess (flushOp m))

/-- LAUNCH_DUE: the head entry's time arrives within the running 100 ns, has passed already, or the entry follows one with a later
time. With the link down it is discarded and counted; a PAUSE holds it back; else its frame leaves, late ones at once and counted, and its
timestamp point lies 0 to 8 ns after the launch time, or of a late one after now (R321, R330, R331). (DESIGN CHOICE, log entry 62.) -/
def execLaunchDue (m : Fin 2) (a : Fin 4) (s : State) : Host.Outcome State Fault Refusal :=
  .next (
    let x := s.net.macs[m]
    match x.lq with
    | [] => s
    | e :: rest =>
      let now := s.launchNow
      let t := e.at_
      let late := decide (t < now) || decide (t < x.lqLast)
      let link := s.bit (MAC_STATUS_LINK m)
      if !s.netRuns || !s.bit (MAC_CFG_EN m) || (!late && decide (now + 100 ≤ t)) || (link && x.paused != 0) then s
      else
        let s1 := (s.onMac m fun x => { x with lq := rest, lqLast := t }).lqLevel m
        if !link then s1.inc (MAC_LQ_STATUS_DROPPED m)
        else
          let s2 := s1.when late fun s => (s.inc (MAC_LQ_STATUS_LATE m)).put NET_INT_LQ_LATE 1
          let bytes := s.frameBytes e.addr e.len
          let (s3, drop, prot) := s2.secTake m a (s.secBypass m (netAt bytes 12 2))
          if drop then s3
          else
            let q := ptpOf (((if late then now else t) + s3.freeWord.toNat % 9 : Nat) : Int) 0
            (s3.tookFree.send (.eth m.val bytes prot)).when e.tsReq (·.tsPush m ⟨e.id, q.sec % 65536, q.ns⟩))

/-- TSQ_READ once it has reached its island. -/
def tsqReadOp (m : Fin 2) (half : Option Bool) (s : State) : State × Nat :=
  let hi := fun (v : Nat) => v / 2 ^ 32
  match s.net.macs[m].tsq with
  | [] => (s, match half with | none => 2 ^ 63 | some true => 2 ^ 31 | some false => 0)
  | e :: rest =>
    let v := e.id * 2 ^ 32 + e.ns
    let s1 := s.put (MAC_TSQ_STATUS_SEC m) e.sec
    let s2 := (s1.onMac m fun x => { x with tsq := rest }).put (MAC_TSQ_STATUS_LEVEL m) rest.length
    match half with
    | none => (s2, v)
    | some false => (s1, v % 2 ^ 32)
    | some true => (s2, hi v)

/-- TSQ_READ: a 64-bit read of TSQ_ENTRY answers and removes the oldest entry, a read of the low half latches it, one of the high half
removes it; an empty queue answers EMPTY. `half` is the half read: false low, true high (R331). -/
def execTsqRead (m : Fin 2) (half : Option Bool) (s : State) : Host.Outcome State Fault Refusal := .next (s.accessV .net none (tsqReadOp m half))

end Sys2Proof.Machine
end

