-- ==== Sys2Proof/Machine/Plant.lean ====
section
/-!
DEFINITION. The protocol engine: plant periods, control frames and reports, stops, delays, carrier and time alignment, discovery and
rings (16_warelink_plant_hierarchy.md).
-/

namespace Sys2Proof.Machine

open Sys2Proof

/-! ### Lanes and passing on (R293, R297, R317) -/

/-- A request to the protocol engine is refused. -/
def State.wlkRefuse (s : State) : State := (s.inc WLK_REFUSED_COUNT).put WLK_INT_REFUSED 1

/-- A frame that a receiver discards for its CRC or a flagged codeword (R295). -/
def State.frameDiscard (s : State) (lane : Fin 6) : State := s.inc (LANE_FRM_ERR_DISCARD lane)

/-- The state of the protocol engine updated. -/
def State.onWlk (s : State) (f : Wlk → Wlk) : State := s.withWlk (f s.wlk)

/-- The worker is numbered. -/
def State.numberedWorker (s : State) : Bool := s.isWorker && s.get SYS_ROLE_WORKER_NO != 0

/-- The numbered workers that lane `c` reaches, in the order of their positions. -/
def State.chainWorkers (s : State) (c : Nat) : List (Nat × Nat × Nat) :=
  (List.range 8).flatMap fun p => s.wlk.numbered.filter fun (e : Nat × Nat × Nat) => s.laneTo e == c && e.2.2 == p

/-- The four chains. -/
def chains : List (Fin 4) := [0, 1, 2, 3]

/-- A worker is not addressed by a frame it receives from above: it passes it on; one whose CRC fails it discards as well (R295, R297). -/
def State.passDiscard (s : State) : State := s.passDown.frameDiscard s.upLane

/-! ### Isochronous exchange (R301 to R304, R19) -/

/-- CTRL_LAUNCH: at boundary plus LAUNCH the manager samples its reference slots and sends a CTRL frame down each chain that has
numbered workers. The frame names the next plant period; the ISL command and the hop step it carries are spent (R302). -/
def execCtrlLaunch (s : State) : Host.Outcome State Fault Refusal :=
  .next (
    if !s.up .lane || !s.isManager then s
    else
      let hop := match s.mod.hopPlant with
        | some st => 2 ^ 40 + 2 ^ 36 * unsigned 4 st
        | none => 0
      let w0 := (s.wlk.period + 1) % 2 ^ 32 + 2 ^ 32 * s.get SIT_STATUS_PLANT_OUT + 2 ^ 33 * s.wlk.islCmd + hop
      let ref := fun (w j : Nat) => (s.slot ((s.get WLK_SLOTS_REF_BASE + 8 * (w - 1) + j) % 4096)).toNat
      let record := fun (e : Nat × Nat × Nat) =>
        (2 ^ 59 * e.1) :: (List.range 4).map fun j => ref e.1 (2 * j) + 2 ^ 32 * ref e.1 (2 * j + 1)
      let s1 := s.each (List.range 6) fun l s =>
        let ws := s.chainWorkers l
        s.when (!ws.isEmpty) (·.sendFrame l { cls := 1, scope := 1 } 0 (w0 :: ws.flatMap record))
      let s2 := s1.onWlk fun x => { x with islCmd := 0, islFrame := x.islCmd }
      (s2.withMod { s2.mod with hopPlant := none, hopFrame := s.mod.hopPlant }))

/-- CTRL_FRAME: a worker discards a frame whose CRC fails and one that arrives after the boundary it names, and keeps a valid one for
the next boundary. The plant stop a valid frame carries is latched, or ends, at once (R303, R316, R223). (DEDUCED, log entry 64.) -/
def execCtrlFrame (crcOk : Bool) (f : CtrlFrame) (s : State) : Host.Outcome State Fault Refusal :=
  .next (
    if !s.up .lane || !s.isWorker then s
    else if !crcOk then s.passDiscard
    else
      let s1 := s.passDown
      let n := f.period.toNat
      if n = (s.wlk.period + 1) % 2 ^ 32 && f.refs.isSome && s.get SYS_ROLE_WORKER_NO != 0 then
        let s2 := s1.onWlk fun x => { x with frame := some f }
        if f.plantStop then (s2.put SIT_STATUS_PLANT_IN 1).raiseStop .plantStop 0 else s2.put SIT_STATUS_PLANT_IN 0
      else s1.when (decide ((s.wlk.period + 2 ^ 32 - n) % 2 ^ 32 < 2 ^ 31)) (·.inc (LANE_FRM_ERR_LATE s.upLane)))

/-- The status word of a report (R304); its credits are those freed and not yet returned (R296). -/
def State.reportStatus (s : State) : Nat :=
  s.get SIT_CAUSE_CAUSE + 2 ^ 18 * s.get SIT_STATUS_BLOCK_STOP + 2 ^ 19 * s.get ISL_MODE_DET + 2 ^ 20 * s.get ISL_MODE_STATE +
    2 ^ 22 * s.get RTS_STATE_TRIP_LATCH + 2 ^ 23 * bitOf s.anyArmed + 2 ^ 24 * (s.wlk.freed.1 % 64) + 2 ^ 30 * (s.wlk.freed.2 % 64)

/-- A worker at a plant-period boundary: a valid control frame's references and commands take effect, or the period counts as one
without a frame; a hop step within HOP_MAX is taken in MODE 2, in place of an earlier one that has not applied; a numbered worker reports
(R19, R186, R270, R302, R303, R304). -/
def State.workerBoundary (s : State) : State :=
  let s1 := match s.wlk.frame with
    | none => s.onWlk fun x => { x with linkMiss := x.linkMiss + 1 }
    | some f =>
      let s1 := s.onWlk fun x => { x with linkMiss := 0, frame := none }
      let s2 := match f.refs with
        | none => s1
        | some r => s1.each (List.finRange 8) fun j s => s.publishBy 4 none (s.get WLK_SLOTS_REF_BASE + j.val) r[j]
      let s3 := s2.islFromManager f.isl.toNat
      match f.hop with
      | none => s3
      | some st =>
        if s3.get MOD_HOP_CFG_MODE != 2 || s3.get MOD_HOP_CFG_HOP_MAX < st.toInt.natAbs then s3
        else if st.toInt = s3.hopStep then s3.hopTaken
        else s3.hopAwait st.toInt
  if s1.numberedWorker then
    let v := fun (j : Nat) => (s1.slot ((s1.get WLK_SLOTS_RPT_BASE + j) % 4096)).toNat
    (s1.sendFrame s1.upLane { cls := 2 } 0 [s1.reportStatus, v 0 + 2 ^ 32 * v 1, v 2 + 2 ^ 32 * v 3]).onWlk fun x => { x with freed := (0, 0) }
  else s1

/-- A manager at a plant-period boundary: reports that did not come are counted, an accepted RING_RESTORE applies, and the ISL command and
the hop step in the control frame apply, this in MODE 2 (R132, R186, R295, R318). -/
def State.managerBoundary (s : State) : State :=
  let s1 := s.each s.wlk.awaitRpt fun _ s => s.inc WLK_PLANT_STATUS_REPORT_MISS
  let s2 := s1.onWlk fun x => { x with awaitRpt := x.numbered.map fun (e : Nat × Nat × Nat) => e.1 }
  let s3 := if s2.wlk.restore then
      (((s2.onWlk fun x => { x with restore := false }).each (chains.filter fun (c : Fin 4) => s2.bitAt WLK_PLANT_STATUS_RING c) fun (c : Fin 4) s =>
        s.send (.unit .ring c.val 2)).put WLK_PLANT_STATUS_RING 0).each (List.finRange 31) fun w s =>
          s.put (WLK_PRESULT_REVERSED (w.val + 1)) 0
    else s2
  let s4 := (s3.islFromManager s3.wlk.islFrame).onWlk fun x => { x with islFrame := 0 }
  match s4.mod.hopFrame with
  | none => s4
  | some st =>
    let s5 := s4.withMod { s4.mod with hopFrame := none }
    if s5.get MOD_HOP_CFG_MODE == 2 then s5.hopAwait st else s5

/-- The ring lanes in L0 that carry no traffic send a keep-alive unit at each plant-period boundary (R317). (DESIGN CHOICE, log entry 127.) -/
def State.ringKeepAlive (s : State) : State :=
  s.each ((List.range 6).filter fun l => s.get (LANE_ROLE_ROLE l) == 3 && s.laneState l == 3 &&
      !(if s.isWorker then s.wlk.reversed else s.plantLanes.contains l)) fun l s => s.send (.unit .ring l 0)

/-- PLANT_PERIOD_BOUNDARY: plant period `n` begins. Swap requests that waited for it may apply, a deferring ISL counts it, control
frames and reports are exchanged, ring lanes are kept alive, and source-5 groups trigger (R48, R64, R132, R301, R317). (DESIGN CHOICE, log entry 63.) -/
def execPlantPeriodBoundary (n : Word) (s : State) : Host.Outcome State Fault Refusal :=
  .next (
    if !s.up .lane then s
    else
      let s1 := s.onWlk fun x => { x with period := n.toNat }
      let s2 := s1.each eight fun k s => s.onGroup k fun g =>
        { g with swap := g.swap.map fun (r : SwapReq) => { r with atPlant := false } }
      let s3 := s2.onIsl fun x => { x with deferCnt := x.deferCnt.map (· + 1) }
      let s4 := if s3.isWorker then s3.workerBoundary else if s3.isManager then s3.managerBoundary else s3
      s4.ringKeepAlive.sourceEvent 5 0)

/-- LINK_LOSS: LINKLOSS plant periods have passed without a valid control frame: block stop with cause link loss (R19, R148). -/
def execLinkLoss (s : State) : Host.Outcome State Fault Refusal :=
  .next (s.when (s.up .lane && s.isWorker && s.get RGS_SUPV_LINKLOSS != 0 && decide (s.get RGS_SUPV_LINKLOSS ≤ s.wlk.linkMiss)) 
    (·.supvStop .linkLoss 4 0 0 0 0))

/-! ### Credits and bulk frames (R296, R310) -/

/-- Request and bulk credits of worker `w`. -/
def State.creditsOf (s : State) (w : Nat) : Nat × Nat :=
  match s.wlk.credits.find? fun (e : Nat × Nat × Nat) => e.1 == w with
  | some e => e.2
  | none => (0, 0)

/-- A GWH-4100 worker: it takes no part in credits and bulk transfers (R319). -/
def State.is4100 (s : State) (w : Nat) : Bool := s.get (WLK_PRESULT_PART (w % 32)) == 0x4100

/-- Credits of worker `w` set, at most 32 of each kind. -/
def State.setCredits (s : State) (w req bulk : Nat) : State :=
  s.onWlk fun x =>
    { x with credits := (x.credits.filter fun (e : Nat × Nat × Nat) => e.1 != w) ++ [(w, min req 32, min bulk 32)] }

/-- The lane that reaches a numbered worker. -/
def State.chainOf (s : State) (w : Nat) : Nat :=
  match s.wlk.numbered.find? fun (e : Nat × Nat × Nat) => e.1 == w with
  | some e => s.laneTo e
  | none => 0

/-- The lanes that reach members (R309, R317). -/
def State.chainsOf (s : State) (ws : List Nat) : List Nat := (List.range 6).filter fun c => ws.any fun w => s.chainOf w == c

/-- Requests that have a credit of each of their workers leave, in order; one without holds those behind it to the same workers (R296,
R309). -/
def State.pumpReq (s : State) : State :=
  let go := fun (acc : State × List Nat) (t : RemTag) =>
    let (s, blocked) := acc
    if t.sent then (s.onWlk fun x => { x with tags := x.tags ++ [t] }, blocked)
    else if (t.await.all fun w => s.is4100 w || 0 < (s.creditsOf w).1) && !(t.await.any fun w => blocked.contains w) then
      let s1 := s.each (t.await.filter fun w => !s.is4100 w) fun w s => s.setCredits w ((s.creditsOf w).1 - 1) (s.creditsOf w).2
      let head : FrameHeader := match t.group with
        | none => { cls := 4, dst := t.await.headD 0, tag := t.tag }
        | some none => { cls := 4, scope := 1, tag := t.tag }
        | some (some g) => { cls := 4, scope := 2, grp := g, tag := t.tag }
      let s2 := s1.each (s.chainsOf t.await) fun l s =>
        s.sendFrame l head (bitOf t.write + 2 * bitOf t.wide) (t.addr :: if t.write then [t.value.toNat] else [])
      (s2.onWlk fun x => { x with tags := x.tags ++ [{ t with sent := true }] }, blocked)
    else (s.onWlk fun x => { x with tags := x.tags ++ [t] }, blocked ++ t.await)
  (s.wlk.tags.foldl go (s.onWlk fun x => { x with tags := [] }, [])).1

/-- The workers a bulk transfer goes to (R310, R319). -/
def State.bulkTargets (s : State) : List Nat :=
  let all := (s.wlk.numbered.map fun (e : Nat × Nat × Nat) => e.1).filter fun w => !s.is4100 w
  let d := s.get WLK_BLK_CTRL_DST
  match s.get WLK_BLK_CTRL_SCOPE with
  | 0 => all.filter (· == d)
  | 1 => all
  | _ => all.filter fun w => s.bit (WLK_PENTRY_EN w) && s.bitAt (WLK_PENTRY_GROUPS w) d

/-- Frames of a running bulk write that still have to leave: two of 256 bytes for each 512. -/
def State.bulkLeft (s : State) : Nat :=
  match s.wlk.bulk with
  | some b => 2 * s.get WLK_BLK_CTRL_LEN - b.sent
  | none => 0

/-- The header of a bulk frame to the targets of the running transfer (R294, R310). -/
def State.bulkHead (s : State) : FrameHeader :=
  let d := s.get WLK_BLK_CTRL_DST
  match s.get WLK_BLK_CTRL_SCOPE with
  | 0 => { cls := 6, dst := d }
  | 1 => { cls := 6, scope := 1 }
  | _ => { cls := 6, scope := 2, grp := d }

/-- A bulk credit of each target is taken (R296). -/
def State.takeBulk (s : State) (ws : List Nat) : State :=
  s.each ws fun w s => s.setCredits w (s.creditsOf w).1 ((s.creditsOf w).2 - 1)

/-- The frames of a running bulk write, and the one that starts a read, leave while every target has a credit (R296, R310). -/
def State.pumpBulk (s : State) (fuel : Nat) : State :=
  match fuel with
  | 0 => s
  | n + 1 =>
    match s.wlk.bulk with
    | none => s
    | some b =>
      let ws := s.bulkTargets
      if (s.bit WLK_BLK_CTRL_DIR && b.asked) || s.bulkLeft = 0 || ws.any fun w => (s.creditsOf w).2 = 0 then s
      else if s.bit WLK_BLK_CTRL_DIR then
        let s1 := (s.takeBulk ws).each (s.chainsOf ws) fun l s =>
          s.sendFrame l s.bulkHead 1 [s.get WLK_BLK_REMOTE_ADDR, s.get WLK_BLK_CTRL_SPACE, s.get WLK_BLK_CTRL_LEN]
        s1.onWlk fun x => { x with bulk := some { b with asked := true } }
      else
        let from_ := s.get WLK_BLK_LOCAL_ADDR + 256 * b.sent
        let words := (List.range 32).map fun i => s.sram.read (from_ + 8 * i) 8
        let bytes := (List.range 256).map fun i => s.sram.read (from_ + i) 1
        let s2 := (s.takeBulk ws).each (s.chainsOf ws) fun l s => s.sendFrame l s.bulkHead 0 ((s.get WLK_BLK_REMOTE_ADDR + 256 * b.sent) :: words)
        (s2.onWlk fun x => { x with bulk := some { b with sent := b.sent + 1, bytes := b.bytes ++ bytes } }).pumpBulk n

/-- A 64-bit word of a space that bulk reads reach: system SRAM, journal window, capture buffer (R310). -/
def State.spaceWord (s : State) (space a : Nat) : Nat :=
  match space with
  | 0 => s.sram.read a 8
  | 1 => (cellGet s.met.ring (a / 8)).toNat
  | _ => (cellGet s.con.capture (a / 4)).toNat + 2 ^ 32 * (cellGet s.con.capture (a / 4 + 1)).toNat

/-- The bulk frames of a worker, negative acknowledgements first, leave while it has credits (R296, R310). -/
def State.pumpUp (s : State) (fuel : Nat) : State :=
  match fuel with
  | 0 => s
  | n + 1 =>
    if s.wlk.nacks != 0 && s.wlk.upCredits != 0 then
      ((s.sendFrame s.upLane { cls := 6 } 2 []).onWlk fun x => { x with nacks := x.nacks - 1, upCredits := x.upCredits - 1 }).pumpUp n
    else match s.wlk.up with
    | none => s
    | some (space, a, left) =>
      if left = 0 then s.onWlk fun x => { x with up := none }
      else if s.wlk.upCredits = 0 then s
      else
        let words := (List.range 32).map fun i => s.spaceWord space (a + 8 * i)
        ((s.sendFrame s.upLane { cls := 6 } 0 (a :: words)).onWlk fun x =>
          { x with up := some (space, a + 256, left - 1), upCredits := x.upCredits - 1 }).pumpUp n

/-- The content of a FLOW unit: the worker whose credits come back, and how many of each kind (R296). (DESIGN CHOICE, log entry 112.) -/
def flowContent (w req bulk : Nat) : Nat := w + 2 ^ 5 * req + 2 ^ 11 * bulk

/-- FLOW: credits come back, of worker `w` at the manager or to worker `w` from it, and waiting frames leave; at a worker the unit also passes
on (R296, R297). -/
def execFlow (l : Fin 6) (w : BitVec 5) (back : BitVec 6 × BitVec 6) (s : State) : Host.Outcome State Fault Refusal :=
  .next (
    if !s.up .lane then s
    else if s.isManager then
      let c := s.creditsOf w.toNat
      ((s.setCredits w.toNat (c.1 + back.1.toNat) (c.2 + back.2.toNat)).pumpReq).pumpBulk 32
    else if s.isWorker then
      (s.passFrom l).when (l == s.upLane && s.get SYS_ROLE_WORKER_NO == w.toNat && s.numberedWorker) fun s =>
        (s.onWlk fun x => { x with upCredits := min (x.upCredits + back.2.toNat) 32 }).pumpUp 33
    else s)

/-- A worker frees a credit of one kind; FLOW returns them once eight are free (R296). -/
def State.freeCredit (s : State) (bulk : Bool) : State :=
  let f := if bulk then (s.wlk.freed.1, s.wlk.freed.2 + 1) else (s.wlk.freed.1 + 1, s.wlk.freed.2)
  if 8 ≤ f.1 || 8 ≤ f.2 then
    (s.send (.unit .flow s.upLane (flowContent (s.get SYS_ROLE_WORKER_NO) f.1 f.2))).onWlk fun x => { x with freed := (0, 0) }
  else s.onWlk fun x => { x with freed := f }

/-- The manager's receive buffer frees a bulk credit of worker `w`; FLOW returns them to it once eight are free (R296). -/
def State.freeUp (s : State) (w : Nat) : State :=
  let n := 1 + match s.wlk.upFreed.find? fun (e : Nat × Nat) => e.1 == w with | some e => e.2 | none => 0
  let rest := s.wlk.upFreed.filter fun (e : Nat × Nat) => e.1 != w
  if 8 ≤ n then (s.onWlk fun x => { x with upFreed := rest }).send (.unit .flow (s.chainOf w) (flowContent w 0 n))
  else s.onWlk fun x => { x with upFreed := rest ++ [(w, n)] }

/-! ### Reports (R304, R227, R43) -/

/-- REPORT_FRAME: the manager records the report values and the status word of worker `w`, takes the causes under R227 and the
credits it returns, and acts on an islanding detection that it newly reports (R132); a frame whose CRC fails is discarded. A worker passes it on (R295, R296, R297,
R304). -/
def execReportFrame (l : Fin 6) (crcOk : Bool) (w : BitVec 5) (status : BitVec 36) (v : Vector Word 4) (s : State) :
    Host.Outcome State Fault Refusal :=
  .next (
    if !s.up .lane then s
    else if s.isWorker then s.passFrom l
    else if !s.isManager then s
    else if !crcOk then s.frameDiscard l
    else
      let n := w.toNat
      let st := status.toNat
      let named := st.testBit 18 && st % 2 ^ 18 &&& (2 ^ 18 - 1 - 2 ^ 17 - 2 ^ 16) != 0
      let s1 := (s.each (List.finRange 4) fun j s => s.put (WLK_RPT_VALUE n j) v[j].toNat).put (WLK_RSTAT_STATUS n) st
      let s2 := s1.onWlk fun x => { x with
        awaitRpt := x.awaitRpt.filter (· != n)
        stopped := (x.stopped.filter (· != n)) ++ (if named then [n] else [])
        armed := (x.armed.filter (· != n)) ++ (if st.testBit 23 then [n] else [])
        detected := (x.detected.filter (· != n)) ++ (if st.testBit 19 then [n] else []) }
      let c := s2.creditsOf n
      let s3 := if s2.wlk.credits.any (fun (e : Nat × Nat × Nat) => e.1 == n) then
          s2.setCredits n (c.1 + st / 2 ^ 24 % 64) (c.2 + st / 2 ^ 30 % 64) else s2
      let s4 := s3.when (st.testBit 19 && !s.wlk.detected.contains n) (·.islReport)
      (s4.plantRefresh.pumpReq).pumpBulk 32)

/-! ### Plant stop (R316) -/

/-- STOP_UNIT: a worker latches a block stop with cause PLANT_STOP; the unit passes on (R297, R316). -/
def execStopUnit (s : State) : Host.Outcome State Fault Refusal :=
  .next (s.when (s.up .lane && s.isWorker) fun s => (s.passDown.put SIT_STATUS_PLANT_IN 1).raiseStop .plantStop 0)

/-- PLANT_STOP_REPEAT: while a plant stop lasts the manager sends STOP again every 10 µs (R316). -/
def execPlantStopRepeat (s : State) : Host.Outcome State Fault Refusal :=
  .next (s.when (s.up .lane && s.isManager && s.bit SIT_STATUS_PLANT_OUT) (·.sendPlant .stop 0))

/-! ### Delays and alignment (R312 to R314) -/

/-- N of PLL2 by which an edge step lasts 10,000 ÷ N ps: 256 at the nominal clock (R265, R270). -/
def State.stepN (s : State) : Nat := if s.get (CLK_PLL_STATUS_N_NOW 2) = 0 then 256 else s.get (CLK_PLL_STATUS_N_NOW 2)

/-- Edge steps in ps. -/
def State.stepsToPs (s : State) (n : Int) : Int := n * 10000 / s.stepN

/-- ps in edge steps, to the nearest. -/
def State.psToSteps (s : State) (ps : Nat) : Nat := (2 * ps * s.stepN + 10000) / 20000

/-- A difference of two epoch counts, wrapped by EPOCH, or by 2^32 where EPOCH is 0. -/
def State.epochDiff (s : State) (a b : Int) : Int :=
  let m : Int := if s.get MOD_EPOCH_EPOCH = 0 then 2 ^ 32 else s.get MOD_EPOCH_EPOCH
  (a - b) % m

/-- DELAY_REQ: the upstream end of a link in L0 notes the departure and sends DELAY_REQ (R312). -/
def execDelayReq (l : Fin 6) (s : State) : Host.Outcome State Fault Refusal :=
  .next (s.when (s.laneState l == 3 && [2, 4].contains (s.get (LANE_ROLE_ROLE l))) fun s =>
    (s.onLane l fun x => { x with t1 := s.mod.epochCnt }).send (.unit .delayReq l 0))

/-- DELAY_REQ_RECEIVED: the downstream end notes the arrival and returns DELAY_RSP with its two timestamps (R312). -/
def execDelayReqReceived (l : Fin 6) (s : State) : Host.Outcome State Fault Refusal :=
  .next (s.when (s.laneState l == 3) fun s =>
    s.send (.unit .delayRsp l (s.mod.epochCnt % 2 ^ 24 + 2 ^ 24 * (s.mod.epochCnt % 2 ^ 24))))

/-- DELAY_RSP: the upstream end finds the link delay from the four timestamps and averages the last 16 (R312). A manager that finds a
link longer than 150 ns sets LONG_LINK (R316). -/
def execDelayRsp (l : Fin 6) (t2 t3 : BitVec 24) (s : State) : Host.Outcome State Fault Refusal :=
  .next (
    if s.laneState l != 3 then s
    else
      let turn := ((t3 - t2).toNat : Int)
      let steps := s.epochDiff s.mod.epochCnt s.lanes[l].t1 - turn
      let d := s.stepsToPs steps / 2 + s.getI (LANE_ASYM_ASYM l)
      let ds := (d :: s.lanes[l].delays).take 16
      let avg : Int := (ds.foldl (· + ·) 0).tdiv ds.length
      let s1 := (s.onLane l fun x => { x with delays := ds }).put (LANE_LINKDLY_D l) avg.toNat
      (s1.putB (LANE_LINKDLY_VALID l) (ds.length == 16)).when (s.isManager && decide (150000 < avg)) (·.put WLK_PLANT_STATUS_LONG_LINK 1))

/-- SYNC_UNIT: the worker locates the manager's epoch at arrival − delay − offset and its MOD island takes the difference; 16 syncs in
a row within one edge step set LOCKED. The relative frequency found from successive syncs is a free value, and each whole edge step
that it accumulates lengthens or shortens the epoch count and the aligned pairs' periods (R313). (DESIGN CHOICE, log entry 66.) -/
def execSyncUnit (offset : BitVec 24) (s : State) : Host.Outcome State Fault Refusal :=
  .next (
    let e := s.get MOD_EPOCH_EPOCH
    if !s.up .lane || !s.isWorker then s
    else if e = 0 then s.passDown
    else
      let cum := s.psToSteps (s.get (if s.wlk.reversed then WLK_ALT_DELAY_PS else WLK_CUM_DELAY_PS))
      let m := ((s.mod.epochCnt : Int) - cum - offset.toNat) % (e : Int)
      let d := if (e : Int) < 2 * m then m - e else m
      let ok := decide (-1 ≤ d) && decide (d ≤ 1)
      let n := if ok then min (s.wlk.lockCnt + 1) 16 else 0
      let rate := s.freeWord.toNat % 2 ^ 24
      let acc := s.wlk.rateAcc + signed 24 rate * e
      let k := acc.tdiv (2 ^ 32)
      let s1 := s.tookFree.passDown.onWlk fun x => { x with lockCnt := n, rateAcc := acc - k * 2 ^ 32 }
      let s2 := s1.withMod { s1.mod with epochCnt := (((s.mod.epochCnt : Int) - d - k) % (e : Int)).toNat }
      let s3 := s2.each nine fun p s => s.when (s.pairAligned p) (·.onPair p fun x => { x with adjust := x.adjust + k })
      let lost := s.bit WLK_SYNC_STATUS_LOCKED && !ok
      let s4 := (s3.put WLK_SYNC_STATUS_RATE rate).putB WLK_SYNC_STATUS_LOCKED (ok && (n == 16 || s.bit WLK_SYNC_STATUS_LOCKED))
      (s4.when lost (·.put WLK_INT_SYNC_LOST 1)).followValid)

/-- TIME_FRAME: a worker with PTP_FOLLOW sets its clock to the manager's time at the epoch plus the time since, and its increment, which
is a free value within the limits of R325; the frame says whether the manager's time is valid (R313, R314, R327). -/
def execTimeFrame (crcOk : Bool) (sec : BitVec 48) (ns frac : Word) (valid : Bool) (s : State) : Host.Outcome State Fault Refusal :=
  .next (
    if !s.up .lane || !s.isWorker then s
    else if !crcOk then s.passDiscard
    else
      let s1 := s.passDown.onWlk fun x => { x with timeValid := valid }
      if !s.ptpFollows || !s.netRuns then s1
      else
        let f := frac.toNat + s.mod.epochCnt * 10000 * 2 ^ 32 / (s.stepN * 1000)
        let p := ptpOf ((sec.toNat * 1000000000 + ns.toNat + f / 2 ^ 32 : Nat) : Int) (f % 2 ^ 32)
        ((s1.tookFree.ptpStep p).ptpIncTake (16320875725 + s.freeWord.toNat % 1717986919)).followValid)

/-! ### Rings (R317, R318) -/

/-- A worker of a chain that RING_RESTORE restores: LANE0 is its upstream lane again, and the unit passes on (R318). (DESIGN CHOICE, log entry
113.) -/
def State.unreverse (s : State) : State :=
  ((s.withWlk { s.wlk with reversed := false }).laneTiming).send (.unit .ring 1 2)

/-- RING_REVERSE: a RING unit that says reverse, or without a position that the chain is restored. A worker reverses, or its reversal ends; one
that is not reversed passes a restoring unit on (R317, R318). On a manager the unit arrives on a ring lane: the chain whose far end that lane
receives reads reversed, and the workers from position `pos` on are reached by the ring path (R317). (DEDUCED, log entry 67.) -/
def execRingReverse (l : Fin 6) (pos : Option (Fin 8)) (s : State) : Host.Outcome State Fault Refusal :=
  .next (
    if !s.up .lane then s
    else if s.isWorker then
      (if pos.isSome then s.reverse else if s.wlk.reversed then s.unreverse else s.send (.unit .ring 1 2))
    else if !s.isManager || pos.isNone then s
    else
      match s.ringOf.find? (fun (e : Nat × Nat) => e.1 == l.val) with
      | none => s
      | some (_, c) =>
        let s1 := (s.putBit WLK_PLANT_STATUS_RING c true).put WLK_INT_RING 1
        s1.each s1.wlk.numbered fun e s => s.when (e.2.1 == c && pos.any fun p => decide (p.val ≤ e.2.2)) (·.put (WLK_PRESULT_REVERSED (e.1 % 32)) 1))

/-- RING_RESTORE once it has reached its island. -/
def ringRestoreOp (linksUp : Bool) (s : State) : State :=
  let ok := chains.all fun c => !s.bitAt WLK_PLANT_STATUS_RING c || s.laneState c == 3
  if s.isManager && s.get WLK_PLANT_STATUS_RING != 0 && linksUp && ok then s.onWlk fun x => { x with restore := true }
  else s.wlkRefuse

/-- RING_RESTORE: accepted where a chain is reversed and every link of its original path is in L0 (`linksUp` speaks for the links the
manager does not end itself); applied at the next boundary. Else refused and counted (R318). -/
def execRingRestore (linksUp : Bool) (s : State) : Host.Outcome State Fault Refusal := .next (s.access .lane none (ringRestoreOp linksUp))

/-! ### Discovery and numbering (R298 to R300) -/

/-- Discovery of every chain starts (R298). -/
def State.discoverAll (s : State) : State :=
  s.each chains fun c s => s.when (s.isManager && s.get (LANE_ROLE_ROLE c) == 4) (·.discoverStart c)

/-- DISCOVER: PLANT_CTRL.DISCOVER rediscovers every chain (R298). -/
def execDiscover (s : State) : Host.Outcome State Fault Refusal := .next (s.access .lane none State.discoverAll)

/-- POSITION: a worker without a position takes it, and the frame ends there; it answers with ANNOUNCE. A worker that holds this
position keeps it and answers; one that holds another passes the frame on (R299). (DEDUCED, log entry 65.) -/
def execPosition (f : Framed (Fin 8)) (s : State) : Host.Outcome State Fault Refusal :=
  .next (
    if !s.up .lane || !s.isWorker then s
    else if !f.crcOk then s.passDiscard
    else if s.wlk.position.isSome && s.wlk.position != some f.body.val then s.passDown
    else
      let uid := s.get SYS_UID_LO_UID + 2 ^ 32 * s.get SYS_UID_HI_UID
      (s.onWlk fun x => { x with position := some f.body.val }).sendFrame s.upLane { cls := 7, pos := f.body.val } 1
        [uid, s.get SYS_PARTID_PART, s.get SYS_REVID_STEP_LETTER * 16 + s.get SYS_REVID_STEP_DIGIT,
          s.get GLZ_ACTIVE_ID_IMAGE_ID, s.get SYS_ROLE_ROLE, s.get (LANE_ROLE_GEN 0)])

/-- ANNOUNCE: the manager records the worker at the position asked for and asks for the next one; after one whose CRC fails it asks again.
A worker passes it on (R295, R297, R299). (DEDUCED, log entry 65.) -/
def execAnnounce (c : Fin 4) (f : Framed Announce) (s : State) : Host.Outcome State Fault Refusal :=
  .next (
    if !s.up .lane then s
    else if s.isWorker then s.passUp
    else
      match s.wlk.disc[c].asked with
      | none => s.when (!f.crcOk) (·.frameDiscard (c.castLE (by decide)))
      | some p =>
        if !f.crcOk then (s.frameDiscard (c.castLE (by decide))).askPosition c p
        else
          let d : Disc := { s.wlk.disc[c] with asked := if p < 7 then some (p + 1) else none, found := s.wlk.disc[c].found ++ [(p, f.body)] }
          (s.onWlk fun x => { x with disc := x.disc.set c d }).when (p < 7) (·.askPosition c (p + 1)))

/-- POSITION_TIMEOUT: no answer within 100 µs: the chain ends there (R299). -/
def execPositionTimeout (c : Fin 4) (s : State) : Host.Outcome State Fault Refusal :=
  .next (s.onWlk fun x => { x with disc := x.disc.set c { x.disc[c] with asked := none } })

/-- NUMBER: a worker at the position addressed takes its number; 0 takes it back (R300). (DESIGN CHOICE, log entry 128.) -/
def execNumber (f : Framed (Fin 8)) (w : BitVec 5) (s : State) : Host.Outcome State Fault Refusal :=
  .next (
    if !s.up .lane || !s.isWorker then s
    else if !f.crcOk then s.passDiscard
    else s.passDown.when (s.wlk.position == some f.body.val) (·.put SYS_ROLE_WORKER_NO w.toNat))

/-- The workers found at the last discovery of each chain that has ended, by chain and position. -/
def State.foundWorkers (s : State) : List (Nat × Nat × Announce) :=
  chains.flatMap fun (c : Fin 4) =>
    s.wlk.disc[c].known.map fun (e : Nat × Announce) => (c.val, e.1, e.2)

/-- IMAGE_ID that the LINK section expects of worker `w`; 0 accepts any (R300). -/
def State.expectedId (s : State) (w : Nat) : Nat :=
  match s.glz.active with
  | none => 0
  | some g => match g.image.expectId.find? fun (e : Nat × Nat) => e.1 == w with | some e => e.2 | none => 0

/-- The outcomes of R300: worker number, outcome, chain, position, part. Without entries the workers are numbered in order. Workers
without an entry are reported at the numbers that have none, from the lowest. An entry reports nothing until a discovery of its chain has
ended. -/
def State.outcomes (s : State) : List (Nat × Nat × Nat × Nat × Nat) :=
  let found := s.foundWorkers
  let ws := (List.range 31).map (· + 1)
  let used := ws.filter fun w => s.bit (WLK_PENTRY_EN w)
  if used.isEmpty then (found.zip ws).map fun (e : (Nat × Nat × Announce) × Nat) => (e.2, 0, e.1.1, e.1.2.1, e.1.2.2.part.toNat)
  else
    let at_ := fun (w : Nat) => found.find? fun (e : Nat × Nat × Announce) =>
      e.1 == s.get (WLK_PENTRY_CHAIN w) && e.2.1 == s.get (WLK_PENTRY_POS w)
    let entry := fun (w : Nat) =>
      match at_ w with
      | none => (w, 1, s.get (WLK_PENTRY_CHAIN w), s.get (WLK_PENTRY_POS w), 0)
      | some (c, p, a) =>
        let ok := a.part.toNat == (if s.bit (WLK_PENTRY_P4100 w) then 0x4100 else 0x7180) &&
          (s.expectedId w == 0 || a.imageId.toNat == s.expectedId w) && a.role == 2 && a.gen.toNat == s.get (LANE_ROLE_GEN c)
        (w, if ok then 0 else 3, c, p, a.part.toNat)
    let extra := found.filter fun (e : Nat × Nat × Announce) =>
      !used.any fun w => s.get (WLK_PENTRY_CHAIN w) == e.1 && s.get (WLK_PENTRY_POS w) == e.2.1
    let freeW := ws.filter fun w => !used.contains w
    (used.filter fun w => s.wlk.disc[(Fin.ofNat 4 (s.get (WLK_PENTRY_CHAIN w)))].ended).map entry ++ (extra.zip freeW).map fun (e : (Nat × Nat × Announce) × Nat) => (e.2, 2, e.1.1, e.1.2.1, e.1.2.2.part.toNat)

/-- The lowest tag that is free. -/
def State.freeTag (s : State) : Nat :=
  match (List.range 128).find? fun t => !s.wlk.tags.any fun (x : RemTag) => x.tag == t with
  | some t => t
  | none => 0

/-- REM_STATUS.OUTSTANDING follows the held tags. -/
def State.tagCount (s : State) : State := s.put WLK_REM_STATUS_OUTSTANDING s.wlk.tags.length

/-- An access takes a tag, or stalls its core while all 128 are held; a write completes at the core once it has a tag (R306). -/
def State.takeTag (s : State) (r : RemTag) : State :=
  if 128 ≤ s.wlk.tags.length then s.onWlk fun x => { x with stalled := x.stalled ++ [r] }
  else
    let s1 := (s.onWlk fun x => { x with tags := x.tags ++ [{ r with tag := s.freeTag }] }).tagCount.pumpReq
    if r.write && !r.own then s1.respond 0 else s1

/-- A write of the manager's engine to register `a` of worker `w`. -/
def State.engineWrite (s : State) (w a v : Nat) : State :=
  s.takeTag { tag := 0, await := [w], write := true, addr := a, wide := false, value := BitVec.ofNat 64 v, sent := false, own := true }

/-- CUM_DELAY and ALT_DELAY of the workers of a chain by position: Σ of the links' delays and of the hop delays between; `hops` holds the
delay of the link into each worker and its hop delay in ps, `ring` the delay of the ring link (R312, R317). -/
def delaySums (n : Nat) (hops : List (Word × BitVec 16)) (ring : Option Word) : List (Nat × Option Nat) :=
  let d := fun (i : Nat) => (hops.getD i (0, 0)).1.toNat
  let h := fun (i : Nat) => (hops.getD i (0, 0)).2.toNat
  let sum := fun (l : List Nat) (f : Nat → Nat) => l.foldl (fun a i => a + f i) 0
  (List.range n).map fun p =>
    let below := (List.range n).filter fun i => p < i
    (sum (List.range (p + 1)) d + sum (List.range p) h, ring.map fun r => r.toNat + sum below d + sum below h)

/-- A worker, given with its chain and position, takes its number: NUMBER, its credits, and its delays (R296, R299, R300). -/
def State.giveNumber (s : State) (e : Nat × Nat × Nat) : State :=
  let s1 := (s.sendFrame (s.laneTo e) { cls := 7, scope := 3, pos := e.2.2 } 2 [e.1]).setCredits e.1 32 32
  match s.wlk.disc[(Fin.ofNat 4 e.2.1)].cums[e.2.2]? with
  | none => s1
  | some (cum, alt) =>
    let s2 := s1.engineWrite e.1 WLK_CUM_DELAY_PS.addr cum
    match alt with
    | some a => s2.engineWrite e.1 WLK_ALT_DELAY_PS.addr a
    | none => s2

/-- DISCOVERY_DONE: discovery of chain `c` ends. Workers are numbered and PRESULT reports, REVERSED as it was. The workers of the chain, and
those of other chains whose number changes, get their numbers, delays and credits; one that held a number and has none now has it taken back
with NUMBER 0. `hops` and `ring` hold the delays measured (R299, R300, R312, R317, R318). (DESIGN CHOICE, log entry 128.) -/
def execDiscoveryDone (c : Fin 4) (hops : List (Word × BitVec 16)) (ring : Option Word) (s : State) : Host.Outcome State Fault Refusal :=
  .next (
    let x := s.wlk.disc[c]
    if !s.bitAt WLK_PLANT_STATUS_DISC_BUSY c || x.asked.isSome then s
    else
      let done : Disc := { x with known := x.found, ended := true, cums := delaySums x.found.length hops ring }
      let s0 := s.onWlk fun y => { y with disc := y.disc.set c done }
      let s1 := (s0.putBit WLK_PLANT_STATUS_DISC_BUSY c false).put WLK_INT_DISC_DONE 1
      let out := s1.outcomes
      let s2 := s1.each (List.finRange 31) fun i s => s.put (WLK_PRESULT_OUTCOME (i.val + 1)).whole 0
      let was := s.wlk.numbered
      let s3 := s2.each out fun (e : Nat × Nat × Nat × Nat × Nat) t =>
        let w := e.1 % 32
        ((((t.put (WLK_PRESULT_OUTCOME w) e.2.1).put (WLK_PRESULT_CHAIN w) e.2.2.1).put (WLK_PRESULT_POS w) e.2.2.2.1).put
          (WLK_PRESULT_PART w) e.2.2.2.2).putB (WLK_PRESULT_REVERSED w)
          (was.any fun (o : Nat × Nat × Nat) => o.2 == (e.2.2.1, e.2.2.2.1) && s.bit (WLK_PRESULT_REVERSED (o.1 % 32)))
      let ok := (out.filter fun (e : Nat × Nat × Nat × Nat × Nat) => e.2.1 == 0).map fun (e : Nat × Nat × Nat × Nat × Nat) =>
        (e.1, e.2.2.1, e.2.2.2.1)
      let s4 := (s3.put WLK_PLANT_STATUS_WORKERS ok.length).onWlk fun y => { y with numbered := ok }
      let gone := was.filter fun (o : Nat × Nat × Nat) => !(ok.any fun (e : Nat × Nat × Nat) => e.2 == o.2) &&
        s4.foundWorkers.any fun (f : Nat × Nat × Announce) => (f.1, f.2.1) == o.2
      let s5 := s4.each gone fun (o : Nat × Nat × Nat) t => t.sendFrame (s.laneTo o) { cls := 7, scope := 3, pos := o.2.2 } 2 [0]
      let s6 := s5.each (ok.filter fun (e : Nat × Nat × Nat) => e.2.1 == c.val || !was.contains e) fun e t => t.giveNumber e
      s6.when (hops.any fun e => decide (150000 < e.1.toNat)) (·.put WLK_PLANT_STATUS_LONG_LINK 1))

/-! ### Bulk transfer (R310) -/

/-- BLK_GO once it has reached its island. -/
def blkGoOp (v : Word) (s : State) : State :=
  let n := v.toNat
  let len := n / 2 ^ 19
  let space := n / 2 ^ 16 % 8
  let scope := n / 2 ^ 14 % 4
  let rd := n.testBit 1
  let bad := !s.isManager || s.bit WLK_BLK_CTRL_GO || len = 0 || 4096 < len || 2 < space || scope = 3 ||
    (!rd && space != 0) || (rd && scope != 0) || s.get WLK_BLK_LOCAL_ADDR % 8 != 0 || s.get WLK_BLK_REMOTE_ADDR % 8 != 0
  let s1 := (((((s.put WLK_BLK_CTRL_LEN len).put WLK_BLK_CTRL_SPACE space).put WLK_BLK_CTRL_SCOPE scope).put WLK_BLK_CTRL_DST
    (n / 2 ^ 9)).putB WLK_BLK_CTRL_DIR rd).put WLK_BLK_CTRL_GO 1
  if bad || s1.bulkTargets.isEmpty then s.wlkRefuse
  else
    (s1.onWlk fun x => { x with bulk := some {} }).pumpBulk 32

/-- BLK_GO: a write of BLK_CTRL with GO starts a transfer. Refused on a block that is no manager, while one runs, and with a length,
space, scope, target or address the registers do not allow (R310). -/
def execBlkGo (v : Word) (s : State) : Host.Outcome State Fault Refusal := .next (s.access .lane none (blkGoOp v))

/-- The bytes of 64-bit words, little-endian. -/
def wordBytes (ws : List DWord) : List Nat := ws.flatMap fun w => (List.range 8).map fun i => w.toNat / 256 ^ i % 256

/-- Words stored from byte address `a` of system SRAM. -/
def State.sramWords (s : State) (a : Nat) (ws : List DWord) : State :=
  s.withSram (s.sram.store a ((wordBytes ws).map (BitVec.ofNat 8)))

/-- A bulk write of `n` bytes at `a` lies inside BULK_WIN and outside the staging region (R310, R35). -/
def State.bulkAccepts (s : State) (a n : Nat) : Bool :=
  let lo := 65536 * s.get WLK_BULK_WIN_BASE
  decide (lo ≤ a) && decide (a + n ≤ lo + 65536 * s.get WLK_BULK_WIN_SIZE) && decide (a + n ≤ 0x700000)

/-- A bulk frame from above that is addressed to this worker: data inside BULK_WIN is stored, other data acknowledged negatively, the start
of a read answered with the space's data; each frees a credit (R296, R310). -/
def State.bulkTake (s : State) (f : BulkFrame) : State :=
  match f with
  | .fetch space addr units => ((s.onWlk fun x => { x with up := some (space.val, addr.toNat, 2 * units) }).freeCredit true).pumpUp 33
  | .data first addr words =>
    let bytes := wordBytes words
    if s.bulkAccepts addr.toNat bytes.length then
      let rx := (if first then [] else s.wlk.rx) ++ bytes
      (((s.sramWords addr.toNat words).onWlk fun x => { x with rx := rx }).put WLK_BLK_RX_CRC_CRC (crc32 rx)).freeCredit true
    else (((s.onWlk fun x => { x with nacks := x.nacks + 1 }).pumpUp 33).freeCredit true)
  | _ => s

/-- A bulk frame of worker `w` at the manager: the data of the running read, or a negative acknowledgement, which is counted; each frees a
credit of that worker (R296, R310). -/
def State.bulkGiven (s : State) (f : BulkFrame) : State :=
  match f with
  | .nack w => (s.inc WLK_BLK_STATUS_NACKS).freeUp w.toNat
  | .data _ addr words =>
    match s.wlk.bulk with
    | none => s
    | some b =>
      if s.bit WLK_BLK_CTRL_DIR then
        let to_ := s.get WLK_BLK_LOCAL_ADDR + (addr.toNat - s.get WLK_BLK_REMOTE_ADDR)
        ((s.sramWords to_ words).onWlk fun x =>
          { x with bulk := some { b with sent := b.sent + 1, bytes := b.bytes ++ wordBytes words } }).freeUp (s.get WLK_BLK_CTRL_DST)
      else s
  | _ => s

/-- BULK_FRAME: a worker passes the frame on, and takes one from above that is addressed to it; a manager takes what a worker sent; a frame
whose CRC fails is discarded where it would be taken (R295, R297, R310). -/
def execBulkFrame (l : Fin 6) (crcOk : Bool) (f : BulkFrame) (s : State) : Host.Outcome State Fault Refusal :=
  .next (
    if !s.up .lane then s
    else if s.isWorker then
      let s1 := s.passFrom l
      if l != s.upLane then s1 else if !crcOk then s1.frameDiscard l else s1.bulkTake f
    else if !crcOk then s.frameDiscard l
    else s.when s.isManager (·.bulkGiven f))

/-- BULK_DONE: a transfer ends, all frames sent and answered or some lost: DONE, ERR and CRC; NACKS counts the negative acknowledgements
that arrive with its end (R310, R320). -/
def execBulkDone (lost : Bool) (nacks : BitVec 16) (s : State) : Host.Outcome State Fault Refusal :=
  .next (
    match s.wlk.bulk with
    | none => s
    | some b =>
      let l := lost || b.lost
      if !l && s.bulkLeft != 0 then s
      else
        let s1 := ((s.put WLK_BLK_CTRL_GO 0).put WLK_BLK_STATUS_DONE 1).addSat WLK_BLK_STATUS_NACKS nacks.toNat
        let s2 := (s1.when l (·.put WLK_BLK_STATUS_ERR 1)).put WLK_BLK_CRC_CRC (crc32 b.bytes)
        (s2.put WLK_INT_BLK_DONE 1).onWlk fun x => { x with bulk := none })

/-! ### Remote access (R305 to R309) -/

/-- A manager's core accesses worker space: held in reset the LANE island ends it in a bus error; no firmware runs with the HOST in
reset or its cores in standby. -/
def State.remoteAccess (s : State) (f : State → State) : State :=
  if !s.coresRun then s else if !s.up .lane then s.busError else f s

/-- Tag `t` is freed and the access that has waited longest for one takes it (R306). -/
def State.freeTagOf (s : State) (t : Nat) : State :=
  let s1 := (s.onWlk fun x => { x with tags := x.tags.filter fun (y : RemTag) => y.tag != t }).tagCount
  match s1.wlk.stalled with
  | [] => s1
  | r :: rest => (s1.onWlk fun x => { x with stalled := rest }).takeTag r

/-- REMOTE_ACCESS: a manager's access to a worker window. One that is not aligned or not of 32 or 64 bits, one to a worker that is not
numbered and one on another block end in a bus error without a frame (R305, R306). -/
def execRemoteAccess (write : Bool) (addr : BitVec 40) (size : Fin 9) (v : DWord) (s : State) : Host.Outcome State Fault Refusal :=
  .next (s.remoteAccess fun s =>
    let a := addr.toNat
    let w := (a - 0x8000000000) / 0x10000000
    let aligned := (size == 4 && a % 4 == 0) || (size == 8 && a % 8 == 0)
    if s.isManager && aligned && decide (0x8010000000 ≤ a) && decide (a < 0x8200000000) &&
        s.wlk.numbered.any (fun (e : Nat × Nat × Nat) => e.1 == w) then
      s.takeTag { tag := 0, await := [w], write := write, addr := 0x40000000 + a % 0x10000000, wide := size == 8, value := v, sent := false }
    else s.busError)

/-- REM_RSP: worker `w` answers tag `t`: the access completes, with a bus error where no register is at the target, and the tag frees;
a broadcast's once every member has answered. A response to a tag that is free counts as LATE. A worker passes the frame on; one whose CRC
fails is discarded (R295, R297, R308, R309). -/
def execRemRsp (l : Fin 6) (f : Framed (BitVec 7)) (w : BitVec 5) (a : Bool × DWord) (s : State) :
    Host.Outcome State Fault Refusal :=
  .next (
    if !s.up .lane then s
    else if s.isWorker then s.passFrom l
    else if !f.crcOk then s.frameDiscard l
    else
      match s.wlk.tags.find? fun (x : RemTag) => x.tag == f.body.toNat && x.sent && x.await.contains w.toNat with
      | none => s.inc WLK_REM_STATUS_LATE
      | some r =>
        let rest := r.await.filter (· != w.toNat)
        let s1 := if r.own then s else if a.1 then s.busError else if r.write then s else s.respond a.2.toNat
        if rest.isEmpty then s1.freeTagOf f.body.toNat
        else s1.onWlk fun x => { x with tags := x.tags.map fun (y : RemTag) => if y.tag = f.body.toNat then { y with await := rest } else y })

/-- REMOTE_TIMEOUT: a tag is held past REM_TMO: a read returns 0xFFFF_FFFF with a bus error, a write is recorded; a broadcast names the
members that did not acknowledge. The tag frees (R308, R309). -/
def execRemoteTimeout (t : BitVec 7) (s : State) : Host.Outcome State Fault Refusal :=
  .next (
    match s.wlk.tags.find? fun (x : RemTag) => x.tag == t.toNat with
    | none => s
    | some r =>
      let s1 := (s.inc WLK_REM_STATUS_TIMEOUTS).put WLK_INT_REM_ERR 1
      let s2 := if r.write then s1 else s1.withResp (⟨0xFFFFFFFF, true⟩)
      let s3 := if r.group.isSome then
          (s2.put WLK_REM_STATUS_PARTIAL 1).orBits WLK_BCAST_MISS_WORKERS (r.await.foldl (fun m w => m ||| 2 ^ (w - 1)) 0)
        else s2
      s3.freeTagOf t.toNat)

/-- PLANT_BROADCAST_WRITE: a manager's write to every numbered worker, or to the members of a worker group: one tag, one credit of each
member, one frame per chain with members. A write to no member completes at once and sets EMPTY (R309). -/
def execPlantBroadcastWrite (g : Option (Fin 16)) (o : BitVec 28) (wide : Bool) (v : DWord) (s : State) : Host.Outcome State Fault Refusal :=
  .next (s.remoteAccess fun s =>
    let a := o.toNat
    let ok := a % (if wide then 8 else 4) == 0 && (g.isNone || decide (a < 0x1000000))
    if !s.isManager || !ok then s.busError
    else
      let all := s.wlk.numbered.map fun (e : Nat × Nat × Nat) => e.1
      let ws := match g with
        | none => all
        | some k => all.filter fun w => s.bit (WLK_PENTRY_EN w) && s.bitAt (WLK_PENTRY_GROUPS w) k
      let to_ := match g with
        | none => 0x40000000 + a
        | some _ => s.get WLK_GRP_BASE_BASE * 0x1000000 + a
      if ws.isEmpty then (s.put SYS_BCAST_STATUS_EMPTY 1).respond 0
      else s.takeTag { tag := 0, group := some (g.map (·.val)), await := ws, write := true, addr := to_, wide := wide, value := v, sent := false })

/-- PLANT_BROADCAST_READ: ends in a bus error and is counted (R309); on a block that is no manager it ends in a bus error (R305). -/
def execPlantBroadcastRead (s : State) : Host.Outcome State Fault Refusal :=
  .next (s.remoteAccess fun s => (s.when s.isManager (·.wlkRefuse)).busError)

/-! ### Firing (R42, R298) -/

/-- The protocol engine at a firing that gave role `old` before: a block whose role changes starts anew, and one that is given the
manager role discovers its chains; VALID follows the plant where the clock now does (R42, R298, R327). -/
def State.wlkFiring (s : State) (old : Nat) : State :=
  let s1 := if s.get SYS_ROLE_ROLE == old then s else (s.withWlk { period := s.wlk.period }).put SYS_ROLE_WORKER_NO 0
  s1.discoverAll.followValid

end Sys2Proof.Machine
end

