-- ==== Sys2Proof/Machine/Saggar.lean ====
section
/-!
DEFINITION. The Saggar: services, keys, attestation, counters, tamper and zeroisation, and the orderly sequence that leads to a reset
(18_saggar_security.md, R372).
-/

namespace Sys2Proof.Machine

open Sys2Proof

/-- The Saggar's own state updated. -/
def State.onSag (s : State) (f : SagState → SagState) : State := s.withSag (f s.sag)

/-- A staged Glaze is dropped and PHASE goes back to 0x1 or 0x3, also at the start of the load that discards it (R38, R343). (DESIGN
CHOICE, log entry 89.) -/
def State.discardStaged (s : State) : State :=
  if s.phase == 2 || s.phase == 4 then
    (((s.withGlz { s.glz with staged := none, plane := [] }).put SYS_STATE_PHASE (s.phase - 1)).put GLZ_STAGED_ID_IMAGE_ID 0).put
      GLZ_STAGED_VER_IMAGE_VERSION 0
  else s

/-! ### Orderly sequence (R372) -/

/-- The orderly sequence starts with the given reset cause: a block stop with cause FIRMWARE and a power-fail save, unless one runs
already. A sequence under way goes on (R372, R380). -/
def State.orderlyBegin (s : State) (cause : Nat) : State :=
  if s.pwr.orderly.isSome then s
  else
    let s1 := s.raiseStop .firmware 0
    let running := match s1.met.saving with | some r => r.pf | none => false
    let s2 := if s1.up .meter && !running then s1.pfSave else s1
    s2.withPwr { s2.pwr with orderly := some cause }

/-! ### DEV signatures (R345 to R348) -/

/-- The last index has been used (R345). -/
def attestLast : Nat := 2 ^ 25 - 1

/-- Index `q` is committed as used, with the tree it leaves: at the end of a bottom tree the next one takes over if it is built (R347,
R348 step 2). -/
def State.attestCommit (s : State) (q : Nat) : State :=
  let s1 := if q = attestLast then s.put SAG_ATTEST_NEXT_EXHAUSTED 1 else s.put SAG_ATTEST_NEXT_NEXT (q + 1)
  if q % 32768 = 32767 then
    (s1.putB SAG_STATUS_READY s.sag.nextTree).onSag fun x => { x with treeKept := x.nextTree, nextTree := false }
  else s1

/-- The store keeps the public key and the top-level signature of bottom tree `t` (R347). -/
def State.keepTree (s : State) (t : Nat) : State :=
  s.onSag fun x => { x with trees := if x.trees.contains t then x.trees else x.trees ++ [t] }

/-- TREE_BUILD_DONE: the tree being built is complete: the current one after a loss of power or at an end of tree; else the next one, which is
built once the current one is half used. Without the DEV key nothing is built (R347, R354). -/
def execTreeBuildDone (s : State) : Host.Outcome State Fault Refusal :=
  .next (
    let q := s.get SAG_ATTEST_NEXT_NEXT
    if !s.sag.devKey then s
    else if !s.sag.treeKept then ((s.put SAG_STATUS_READY 1).onSag fun x => { x with treeKept := true }).keepTree (q / 32768)
    else if 16384 ≤ q % 32768 then (s.onSag fun x => { x with nextTree := true }).keepTree (q / 32768 + 1)
    else s)

/-- The index that was committed last, if any. -/
def State.attestPrev (s : State) : Option Nat :=
  if s.bit SAG_ATTEST_NEXT_EXHAUSTED then some attestLast
  else if s.get SAG_ATTEST_NEXT_NEXT = 0 then none else some (s.get SAG_ATTEST_NEXT_NEXT - 1)

/-- At boot an index that was committed and not released is reported as wasted (R348). -/
def State.attestWasted (s : State) : State :=
  match s.attestPrev with
  | none => s
  | some q => if s.sag.released == some q then s else (s.onSag fun x => { x with released := some q }).journal 0x22 1 q

/-! ### Zeroisation and tamper (R353, R354) -/

/-- Debug closed. -/
def State.debugClose (s : State) : State := s.put SAG_STATUS_DEBUG 0

/-- Zeroisation by trigger `t`: secrets and MACsec keys are cleared, OKEK and the CAKs destroyed, the device secret and the lifecycle
fuse programmed; a last-gasp message is dropped, signed or not; with VAUX valid the entry is written and the orderly reset with cause TAMPER
starts, without VAUX GET_INFO reports it (R336, R354, R364). -/
def State.zeroise (s : State) (t : Nat) : State :=
  let s1 := s.onSag fun x => { x with
    nonce := none, drbg := none, derived := [], treeKept := false, nextTree := false, saks := [], sakVals := [], okek := none, caks := [],
    secret := none, devKey := false, lifecycle := 3, zeroUnseen := x.zeroUnseen || !s.bit PWR_STATUS_VAUX_OK }
  let s2 := ((s1.put SAG_STATUS_READY 0).put SAG_STATUS_LIFECYCLE 3).put SAG_STATUS_APPROVED 0
  let s3 := (s2.withPug { s2.pug with msg := none, load := false, warm := false }).put PUG_STATUS_LG 0
  if s.bit PWR_STATUS_VAUX_OK then ((s3.journal 0x25 t 0).put SAG_INT_ZEROISED 1).orderlyBegin 7 else s3

/-- The service ends with a result code and no response. -/
def svcCode (id code : Nat) : SvcRun := { id := id, code := code, len := 0 }

/-- LOCK: every service other than GET_INFO ends with LOCKED and debug closes, until reset (R353, R356). -/
def State.lockSag (s : State) : State :=
  ((s.put SAG_STATUS_LOCKED 1).debugClose).onSag fun x => { x with
    svc := x.svc.map fun (r : SvcRun) => if r.id = 1 then r else svcCode r.id 9 }

/-- The code of a response in a TAMPER entry. -/
def tamperCode (r : Tamper) : Nat := match r with | .log => 0 | .lock => 1 | .zeroise => 2

/-- A trigger makes a last-gasp message pending, is journalled where one already is, and does nothing once the DEV key is destroyed (R364).
(DEDUCED, log entry 74.) -/
def State.gaspTrigger (s : State) (trigger detail : Nat) : State :=
  if !s.sag.devKey then s
  else
    match s.pug.msg with
    | some m => s.journal 0x29 3 (payload2 (m.index.getD 0) trigger)
    | none =>
      (s.withPug { s.pug with msg := some { trigger := trigger, detail := detail, time := s.moduleTime } }).put PUG_STATUS_LG 1

/-- The response to an event of a sensor: the mesh always zeroises (R353). -/
def State.tamperResponse (s : State) (sensor : Nat) : Tamper :=
  let r := s.sag.tamperResp
  match sensor with | 0 => .zeroise | 1 => r.1 | 2 => r.2.1 | _ => r.2.2

/-- A sensor's event is counted and recorded, and its response follows; one answered with LOG or LOCK triggers a last-gasp message where
LG_CFG enables it (R353, R364). -/
def State.tamperAct (s : State) (sensor v : Nat) : State :=
  let s1 := ((s.orBits SAG_TAMPER_EVENT (2 ^ sensor)).inc SAG_TAMPER_COUNT).put SAG_INT_TAMPER 1
  let s2 := s1.journal 0x24 (sensor + 2 ^ 8 * tamperCode (s.tamperResponse sensor)) v
  let gasp := fun (s : State) => s.when (s.bit PUG_LG_CFG_ON_TAMPER) (·.gaspTrigger 2 sensor)
  match s.tamperResponse sensor with
  | .log => gasp s2
  | .lock => gasp s2.lockSag
  | .zeroise => s2.zeroise sensor

/-- The supply permits the sweep of a sensor and the response: VAUX, or the store at MEAS, and of the mesh also VBAT (R354, R362, R366).
(DEDUCED, log entry 133.) -/
def State.tamperPermitted (s : State) (sensor : Nat) : Bool :=
  s.bit PWR_STATUS_VAUX_OK || decide (50 * s.get PUG_THR_MEAS ≤ s.get PUG_LEVELS_STORE) || (sensor == 0 && s.get PUG_STATUS_SOURCE == 2)

/-- The events whose sweep was deferred, as far as the supply now permits it (R366). -/
def State.tamperDue (s : State) : State :=
  let due := s.pug.deferred.filter fun e => s.tamperPermitted e.1
  (s.withPug { s.pug with deferred := s.pug.deferred.filter fun e => !s.tamperPermitted e.1 }).each due fun e s => s.tamperAct e.1 e.2

/-- TAMPER_EVENT: a sensor (0 mesh, 1 temperature, 2 voltage, 3 clock glitch) detects an event, or would in the sweep that waits for MEAS
(R353, R366). -/
def execTamperEvent (sensor : Fin 4) (v : Word) (s : State) : Host.Outcome State Fault Refusal :=
  .next (
    if s.tamperPermitted sensor.val then s.tamperAct sensor.val v.toNat
    else if s.pug.deferred.any fun e => e.1 == sensor.val then s
    else s.withPug { s.pug with deferred := s.pug.deferred ++ [(sensor.val, v.toNat)] })

/-! ### The mailbox (R349) -/

/-- The lifecycle state that services see: ERROR until reset after a failed test (R336). -/
def State.sagLife (s : State) : Nat := if s.sag.error then 4 else s.sag.lifecycle

/-- A service is available in the lifecycle state (R336). -/
def svcAllowed (life id : Nat) : Bool :=
  match life with
  | 1 => [0x01, 0x02, 0x03, 0x04, 0x10, 0x30, 0x21].contains id
  | 2 => id != 0x10
  | 3 => id == 0x01
  | _ => false

/-- The service ends with OK and a response whose words are free values. -/
def State.svcFree (s : State) (id len : Nat) : State × SvcRun :=
  (s.tookFree, { id := id, code := 0, len := len, free := some s.free })

/-- The services of R349. -/
def knownServices : List Nat :=
  [0x01, 0x02, 0x03, 0x04, 0x10, 0x11, 0x12, 0x13, 0x14, 0x18, 0x19, 0x20, 0x21, 0x22, 0x23, 0x24, 0x28, 0x29, 0x2A, 0x2B, 0x30]

/-- SAG.CMD written with GO: refused while a service runs; else the service runs, unless it is none, the Saggar is locked, the lifecycle
state excludes it, or the request is longer than SAG.REQ; its result awaits SERVICE_COMPLETE (R336, R349, R353). -/
def State.svcStart (s : State) (id len : Nat) (f : State → State × SvcRun) : State :=
  if s.bit SAG_RESULT_BUSY then s.inc SAG_REFUSED_COUNT
  else
    let s1 := (((s.put SAG_CMD_SERVICE id).put SAG_CMD_LEN len).put SAG_RESULT_BUSY 1).onSag fun x =>
      { x with rsp := [], rspSig := none, rspFree := none, rspInfo := none, rspCert := false }
    let r := if !knownServices.contains id then (s1, svcCode id 2)
      else if s.bit SAG_STATUS_LOCKED && id != 1 then (s1, svcCode id 9)
      else if !svcAllowed s.sagLife id then (s1, svcCode id 6)
      else if 8192 < len then (s1, svcCode id 3)
      else f s1
    r.1.onSag fun x => { x with svc := some r.2 }

/-- The same by firmware, through the SAGGAR island's crossing. (DESIGN CHOICE, log entry 69.) -/
def State.svcGo (s : State) (id len : Nat) (f : State → State × SvcRun) : State :=
  s.access .saggar none fun s => s.svcStart id len f

/-- The message that an authorised request with arguments `args` signs: UID, SERVICE, three zero bytes, the nonce drawn with serial number
`n`, ARGS (R344). -/
def State.authMessage (s : State) (id n : Nat) (args : List Byte) : Signed :=
  { head := (leBytes 4 (s.get SYS_UID_LO_UID) ++ leBytes 4 (s.get SYS_UID_HI_UID) ++ [id % 256, 0, 0, 0]).map (BitVec.ofNat 8 ·)
    nonce := some n, tail := args }

/-- A request's signature verifies under key `k` over the message with nonce `n` (R338, R344). -/
def State.signedBy (s : State) (k : Option (BitVec 480)) (id n : Nat) (args : List Byte) (g : HssSig) : Bool :=
  k.any fun k => hssOk k (s.authMessage id n args) g

/-- An authorised request: its nonce serves it, whether it succeeds or fails; a missing nonce, or a signature or key that does not verify, ends
it and writes SVC_REFUSED; `sigOk` judges the request under the nonce (R344). (DEDUCED, log entry 70.) -/
def State.authorised (s : State) (id : Nat) (sigOk : Nat → Bool) (f : State → State × SvcRun) : State × SvcRun :=
  match s.sag.nonce with
  | none => (s.journal 0x26 (id + 2 ^ 8 * 5) 0, svcCode id 5)
  | some n =>
    let s1 := s.onSag fun x => { x with nonce := none }
    if sigOk n then f s1 else (s1.journal 0x26 (id + 2 ^ 8 * 4) 0, svcCode id 4)

/-- SERVICE_COMPLETE: the running service ends: RESULT, the response, INT.DONE; an attestation that was not locked out is released (R348
steps 4 and 5, R349). -/
def execServiceComplete (s : State) : Host.Outcome State Fault Refusal :=
  .next (
    match s.sag.svc with
    | none => s
    | some r =>
      let s1 := s.onSag fun x => { x with svc := none, rsp := r.rsp, rspSig := r.sig, rspFree := r.free, rspInfo := r.info, rspCert := r.cert }
      let s2 := (((s1.put SAG_RESULT_BUSY 0).put SAG_RESULT_CODE r.code).put SAG_RESULT_RSP_LEN r.len).put SAG_INT_DONE 1
      match r.sig with
      | some q => (s2.onSag fun x => { x with released := some q }).journal 0x22 0 q
      | none => s2)

/-- NONCE_EXPIRY: 600 s after it was given the nonce expires (R344). -/
def execNonceExpiry (s : State) : Host.Outcome State Fault Refusal := .next (s.onSag fun x => { x with nonce := none })

/-! ### Services -/

/-- What the service GetInfo does. -/
def svcGetInfo (s : State) : State × SvcRun :=
  (s.onSag fun x => { x with zeroUnseen := false },
   { id := 0x01, code := 0, len := Config.responseLen 0x01, info := some (s.sagLife, s.sag.zeroUnseen) })

/-- GET_INFO: identity and lifecycle, and a zeroisation made without VAUX; the spec gives no layout (R349, R354). (DESIGN CHOICE, log entry
73.) -/
def execGetInfo (s : State) : Host.Outcome State Fault Refusal := .next (s.svcGo 0x01 0 svcGetInfo)

/-- What the service GetNonce does. -/
def svcGetNonce (s : State) : State × SvcRun :=
    let r := s.svcFree 0x02 32
    (r.1.onSag fun x => { x with nonce := some s.free }, r.2)

/-- GET_NONCE: a fresh nonce of 32 bytes for one authorised request (R344). -/
def execGetNonce (s : State) : Host.Outcome State Fault Refusal := .next (s.svcGo 0x02 0 svcGetNonce)

/-- The words of a digest, its first byte first (R346). -/
def digestWords (d : Nat) : List Nat := (List.range 8).map (digestPart d 4)

/-- The 48 words of an attestation report with index `q` and the caller's nonce (R346). -/
def State.attestReport (s : State) (q : Nat) (nonce : Vector Word 8) : List Nat :=
  let g := s.sag.gens
  let glz := match s.glz.active with
    | some _ => [s.get GLZ_ACTIVE_ID_IMAGE_ID, s.get GLZ_ACTIVE_VER_IMAGE_VERSION, s.get SAG_ROLLBACK_GLZ_VALUE]
    | none => [0, 0, 0]
  [0x41545347, 1, s.get SYS_UID_LO_UID, s.get SYS_UID_HI_UID,
    s.get SYS_PARTID_PART + 2 ^ 16 * (s.get SYS_REVID_STEP_LETTER * 16 + s.get SYS_REVID_STEP_DIGIT),
    s.sagLife + 2 ^ 8 * bitOf (s.get SAG_STATUS_DEBUG != 0) + 2 ^ 9 * bitOf s.glz.staged.isSome + 2 ^ 16 * (Config.saggarVersion % 2 ^ 16),
    q, s.get SAG_TAMPER_COUNT] ++ nonce.toList.map (·.toNat) ++ digestWords s.sag.fwDigest ++
  [s.sag.fwVersion, s.get SAG_ROLLBACK_FW_VALUE] ++ glz ++ [g.1 + 2 ^ 8 * g.2.1 + 2 ^ 16 * g.2.2.1 + 2 ^ 24 * g.2.2.2] ++
  [s.moduleTime % 2 ^ 32, s.moduleTime / 2 ^ 32 % 2 ^ 32] ++ digestWords s.glz.firingDigest ++ digestWords s.sag.mapDigest

/-- The Saggar enters ERROR: no service runs until reset and SAG_FAULT is driven low (R336). -/
def State.sagError (s : State) : State :=
  ((s.put SAG_STATUS_LIFECYCLE 4).put SAG_STATUS_APPROVED 0).onSag fun x => { x with error := true, fault := true }

/-- What the service Attest does. -/
def svcAttest (nonce : Vector Word 8) (verifies : Bool) (s : State) : State × SvcRun :=
    if s.bit SAG_ATTEST_NEXT_EXHAUSTED then (s, svcCode 0x03 8)
    else if !s.bit SAG_STATUS_READY then (s, svcCode 0x03 7)
    else
      let q := s.get SAG_ATTEST_NEXT_NEXT
      let report := s.attestReport q nonce ++ [0x1474]
      let s1 := s.attestCommit q
      if verifies then
        (s1, { id := 0x03, code := 0, len := 5432, sig := some q,
               rsp := (List.range report.length).foldl (fun m i => cellPut m (4 * i) (BitVec.ofNat 32 (report.getD i 0))) [] })
      else (s1.sagError, svcCode 0x03 6)

/-- ATTEST: commits the next index and signs a report; not ready without its tree, exhausted after the last index; a signature that
does not verify enters ERROR (R346 to R348). -/
def execAttest (nonce : Vector Word 8) (verifies : Bool) (s : State) : Host.Outcome State Fault Refusal := .next (s.svcGo 0x03 32 (svcAttest nonce verifies))

/-- What the service GetCert does. -/
def svcGetCert (s : State) : State × SvcRun :=
  (s, { id := 0x04, code := 0, len := Config.responseLen 0x04, cert := true })

/-- GET_CERT: the device certificate of the store, whose bytes the spec does not give (R335, R349). (DESIGN CHOICE, log entry 73.) -/
def execGetCert (s : State) : Host.Outcome State Fault Refusal := .next (s.svcGo 0x04 0 svcGetCert)

/-- The arguments of ENROLL (R343). -/
def enrollArgs (fw glz svc : BitVec 480) (okek : BitVec 256) : List Byte :=
  byteList 60 fw.toNat ++ byteList 60 glz.toNat ++ byteList 60 svc.toNat ++ byteList 32 okek.toNat

/-- What the service Enroll does. -/
def svcEnroll (fw glz svc : BitVec 480) (okek : BitVec 256) (sig : HssSig) (s : State) : State × SvcRun :=
    s.authorised 0x10 (fun n => keyOk fw && keyOk glz && s.signedBy (some svc) 0x10 n (enrollArgs fw glz svc okek) sig) fun s =>
    let s1 := s.onSag fun x => { x with
      lifecycle := 2, keyFw := some fw, keyGlz := some glz, keySvc := some svc, okek := some okek.toNat }
    (((s1.put SAG_STATUS_LIFECYCLE 2).put SAG_STATUS_APPROVED 1).journal 0x21 1 s.sag.gens.1, svcCode 0x10 0)

/-- ENROLL: UNOWNED becomes OWNED with the owner's keys; signed by the SVC key it enrols; a key of another type fails verification (R338,
R343). (DEDUCED, log entries 70 and 71.) -/
def execEnroll (fw glz svc : BitVec 480) (okek : BitVec 256) (sig : HssSig) (s : State) : Host.Outcome State Fault Refusal :=
  .next (s.svcGo 0x10 (212 + hssLen sig) (svcEnroll fw glz svc okek sig))

/-- Generation of a key slot. -/
def keyGen (g : Nat × Nat × Nat × Nat) (k : KeySlot) : Nat :=
  match k with | .fw => g.1 | .glz => g.2.1 | .svc => g.2.2.1 | .okek => g.2.2.2

/-- Number of a key slot, in the order of R342. -/
def keyNo (k : KeySlot) : Nat := match k with | .fw => 1 | .glz => 2 | .svc => 3 | .okek => 4

/-- The value that ROTATE brings suits its slot: a public key of an accepted type, or a new OKEK encrypted under the old one (R338, R343). -/
def State.rotateOk (s : State) (k : KeySlot) (v : BitVec 480) (wrap : Wrapped) : Bool :=
  match k with
  | .okek => s.sag.okek == some wrap.key && wrap.aad.isEmpty
  | _ => keyOk v

/-- A staged Glaze is discarded, as DISCARD does: not once a firing of it has been accepted (R38, R343). (DEDUCED, log entry 141.) -/
def State.dropStaged (s : State) : State := s.when (!s.glz.fireWait) (·.discardStaged)

/-- What the service Rotate does. -/
def svcRotate (k : KeySlot) (v : BitVec 480) (wrap : Wrapped) (sig : HssSig) (s : State) : State × SvcRun :=
    s.authorised 0x11 (fun n => s.signedBy s.sag.keySvc 0x11 n (byteList 1 (keyNo k) ++ byteList 60 v.toNat) sig && s.rotateOk k v wrap) fun s =>
    let g := s.sag.gens
    if 255 ≤ keyGen g k then (s, svcCode 0x11 0x0B)
    else
      let s1 := s.onSag fun x => match k with
        | .fw => { x with keyFw := some v, gens := (g.1 + 1, g.2) }
        | .glz => { x with keyGlz := some v, gens := (g.1, g.2.1 + 1, g.2.2) }
        | .svc => { x with keySvc := some v, gens := (g.1, g.2.1, g.2.2.1 + 1, g.2.2.2) }
        | .okek => { x with okek := some wrap.plain.toNat, gens := (g.1, g.2.1, g.2.2.1, g.2.2.2 + 1) }
      ((s1.journal 0x21 (2 + 2 ^ 8 * keyNo k) (keyGen g k + 1)).when (k == .glz) (·.dropStaged), svcCode 0x11 0)

/-- ROTATE: one key slot takes a new value and its generation advances; refused at generation 255. OKEK comes encrypted under the old one:
`v` is its IV, ciphertext and tag, and `wrap` what they hold. A rotation of GLZ discards a staged Glaze (R343). -/
def execRotate (k : KeySlot) (v : BitVec 480) (wrap : Wrapped) (sig : HssSig) (s : State) : Host.Outcome State Fault Refusal :=
  .next (s.svcGo 0x11 (61 + hssLen sig) (svcRotate k v wrap sig))

/-- What the service ReleaseOwner does. -/
def svcReleaseOwner (sig : HssSig) (s : State) : State × SvcRun :=
    s.authorised 0x12 (fun n => s.signedBy s.sag.keySvc 0x12 n [] sig) fun s =>
    let s1 := s.onSag fun x => { x with
      lifecycle := 1, keyFw := none, keyGlz := none, keySvc := none, okek := none, caks := [], derived := [] }
    ((((s1.put SAG_STATUS_LIFECYCLE 1).put SAG_STATUS_APPROVED 0).journal 0x21 3 0).dropStaged, svcCode 0x12 0)

/-- RELEASE: the owner's keys and CAKs are erased, a staged Glaze is discarded, and the Saggar returns to UNOWNED (R343). -/
def execReleaseOwner (sig : HssSig) (s : State) : Host.Outcome State Fault Refusal := .next (s.svcGo 0x12 (hssLen sig) (svcReleaseOwner sig))

/-- What the service FwConfirm does. -/
def svcFwConfirm (s : State) : State × SvcRun :=
    let v := max (s.get SAG_ROLLBACK_FW_VALUE) s.sag.fwVersion
    ((s.put SAG_ROLLBACK_FW_VALUE v).journal 0x27 2 v, svcCode 0x13 0)

/-- FW_CONFIRM: FW_ROLLBACK advances to the running image's version (R340, R345). -/
def execFwConfirm (s : State) : Host.Outcome State Fault Refusal := .next (s.svcGo 0x13 0 svcFwConfirm)

/-- The image that slot contents `f` hold, verified under key `k`: a firmware image has the layout of a Glaze image but for its MAGIC, LOAD_LEN, ENTRY, FW_VERSION and
CONTENT_DIGEST, and a single section of LOAD_LEN bytes, at most 4 MiB, follows its header (R31, R337). The digest is the one computed of
the bytes; it is part of what verifies, as is the signature block's length. (DEDUCED, log entry 76.) -/
def readSlot (glz : Bool) (k : Option (BitVec 480)) (f : FwFile) : FwSlot :=
  let b := f.bytes.map (·.toNat)
  let len := leAt b 0x08 4
  let content := (f.bytes.drop 0x80).take (len - 0x80)
  let d := sha256 (content.map (·.toNat))
  { readOk := f.readOk
    formatOk := decide (0x80 ≤ len) && decide (len ≤ b.length) && leAt b 0x00 4 == (if glz then 0x375A4C47 else 0x57464753) &&
      leAt b 0x04 2 == 1 && leAt b 0x06 2 == 0x80 && leAt b 0x0C 4 == 0x7180 && leAt b 0x40 64 == 0 &&
      (glz || (decide (leAt b 0x10 4 ≤ 0x400000) && len == 0x80 + leAt b 0x10 4))
    signatureOk := (k.any fun k => hssOk k { head := f.bytes.take len } f.sig) && leAt b len 4 == hssLen f.sig && d == beAt b 0x20 32
    version := leAt b 0x18 4, digest := d, entry := leAt b 0x14 4, content := content }

/-- What the service SetBoot does. -/
def svcSetBoot (glz : Bool) (slot : Fin 2) (f : FwFile) (s : State) : State × SvcRun :=
    let img := readSlot glz (if glz then s.sag.keyGlz else s.sag.keyFw) f
    let roll := if glz then s.get SAG_ROLLBACK_GLZ_VALUE else s.get SAG_ROLLBACK_FW_VALUE
    if !(img.readOk && img.formatOk && img.signatureOk) then (s, svcCode 0x14 4)
    else if img.version < roll then (s, svcCode 0x14 0x0A)
    else
      let s1 := s.onSag fun x => { x with
        bootTable :=
          let old := bootInForce x.bootTable
          let c := if glz then { old with glzSlot := slot.val } else { old with fwSlot := slot.val }
          bootWrite x.bootTable { c with crcOk := true, seq := old.seq + 1 } }
      let s2 := s1.when (glz && !s1.glz.verified.contains img.digest) fun s =>
        s.withGlz { s.glz with verified := img.digest :: s.glz.verified }
      (s2.journal 0x27 1 slot, svcCode 0x14 0)

/-- SET_BOOT: a firmware or Glaze slot whose image passes verification and its rollback counter becomes active from the next reset. A Glaze
image so verified need not be verified again by a load (R35, R340). -/
def execSetBoot (glz : Bool) (slot : Fin 2) (img : FwFile) (s : State) : Host.Outcome State Fault Refusal := .next (s.svcGo 0x14 2 (svcSetBoot glz slot img))

/-- General-purpose counter `k`. -/
def State.gpCounter (s : State) (k : Fin 8) : Nat := s.sag.gp.getD k 0

/-- What the service CounterInc does. -/
def svcCounterInc (k : Fin 8) (s : State) : State × SvcRun :=
    (s.onSag fun x => { x with gp := x.gp.set k (min (x.gp.getD k 0 + 1) (2 ^ 32 - 1)) }, svcCode 0x18 0)

/-- COUNTER_INC: a general-purpose counter advances by one and saturates (R345). -/
def execCounterInc (k : Fin 8) (s : State) : Host.Outcome State Fault Refusal := .next (s.svcGo 0x18 1 (svcCounterInc k))

/-- What the service CounterRead does. -/
def svcCounterRead (k : Fin 8) (s : State) : State × SvcRun :=
    (s, { id := 0x19, code := 0, len := 4, rsp := cellPut [] 0 (BitVec.ofNat 32 (s.gpCounter k)) })

/-- COUNTER_READ: answers a counter's value (R345). -/
def execCounterRead (k : Fin 8) (s : State) : Host.Outcome State Fault Refusal := .next (s.svcGo 0x19 1 (svcCounterRead k))

/-- What the service DebugUnlock does. -/
def svcDebugUnlock (two : Bool) (sig : HssSig) (s : State) : State × SvcRun :=
    let scope := if two then 2 else 1
    s.authorised 0x20 (fun n => s.signedBy s.sag.keySvc 0x20 n (byteList 1 scope) sig) fun s =>
    if two && s.phase != 1 && s.phase != 2 then (s, svcCode 0x20 6)
    else ((s.put SAG_STATUS_DEBUG scope).journal 0x23 scope 0, svcCode 0x20 0)

/-- DEBUG_UNLOCK: opens a scope until reset or DEBUG_LOCK; scope 2 only in phases 0x1 and 0x2 (R351). -/
def execDebugUnlock (two : Bool) (sig : HssSig) (s : State) : Host.Outcome State Fault Refusal :=
  .next (s.svcGo 0x20 (1 + hssLen sig) (svcDebugUnlock two sig))

/-- What the service DebugLock does. -/
def svcDebugLock (s : State) : State × SvcRun :=
    (s.debugClose, svcCode 0x21 0)

/-- DEBUG_LOCK: closes debug (R351). -/
def execDebugLock (s : State) : Host.Outcome State Fault Refusal := .next (s.svcGo 0x21 0 svcDebugLock)

/-- What the service TotalsReset does. -/
def svcTotalsReset (sig : HssSig) (s : State) : State × SvcRun :=
    s.authorised 0x22 (fun n => s.signedBy s.sag.keySvc 0x22 n [] sig) fun s =>
    ((s.withMet { s.met with resetDue := true }), svcCode 0x22 0)

/-- TOTALS_RESET: the accumulators are zeroed at the next metering sample boundary (R350). -/
def execTotalsReset (sig : HssSig) (s : State) : Host.Outcome State Fault Refusal := .next (s.svcGo 0x22 (hssLen sig) (svcTotalsReset sig))

/-- The arguments of TAMPER_CFG: the three responses and TEMP_HI in °C. (DESIGN CHOICE, log entry 13.) -/
def tamperArgs (temp volt clk : Tamper) (hi : Fin 41) : List Byte :=
  ([tamperCode temp, tamperCode volt, tamperCode clk, 110 + hi.val]).map (BitVec.ofNat 8 ·)

/-- What the service TamperCfg does. -/
def svcTamperCfg (temp volt clk : Tamper) (hi : Fin 41) (sig : HssSig) (s : State) : State × SvcRun :=
    s.authorised 0x23 (fun n => s.signedBy s.sag.keySvc 0x23 n (tamperArgs temp volt clk hi) sig) fun s =>
    (s.onSag fun x => { x with tamperResp := (temp, volt, clk), tempHi := 110 + hi.val }, svcCode 0x23 0)

/-- TAMPER_CFG: the responses to temperature, voltage and clock events, and TEMP_HI, 110 to 150 °C (R353). -/
def execTamperCfg (temp volt clk : Tamper) (hi : Fin 41) (sig : HssSig) (s : State) : Host.Outcome State Fault Refusal :=
  .next (s.svcGo 0x23 (4 + hssLen sig) (svcTamperCfg temp volt clk hi sig))

/-- What the service Zeroise does. -/
def svcZeroise (sig : HssSig) (s : State) : State × SvcRun :=
    s.authorised 0x24 (fun n => s.signedBy s.sag.keySvc 0x24 n [] sig) fun s => (s.zeroise 0xF, svcCode 0x24 0)

/-- ZEROISE: the service (R354). -/
def execZeroise (sig : HssSig) (s : State) : Host.Outcome State Fault Refusal := .next (s.svcGo 0x24 (hssLen sig) (svcZeroise sig))

/-- The derived keys of the CAK installed for a MAC and slot: its KEK and ICK. -/
def State.cakOf (s : State) (m slot : Nat) : Option (Nat × Nat) :=
  (s.sag.derived.find? fun (e : Nat × Nat × Nat × Nat) => e.1 == m && e.2.1 == slot).map (·.2.2)

/-- KEK and ICK of an installed CAK (R352). -/
def deriveCak (e : Nat × Nat × List Byte × Nat) : Nat × Nat × Nat × Nat := (e.1, e.2.1, Config.kek e.2.2.2 e.2.2.1, Config.ick e.2.2.2 e.2.2.1)

/-- What the service CakInstall does. -/
def svcCakInstall (m : Fin 2) (slot : Fin 4) (ckn : List Byte) (wrap : Wrapped) (s : State) : State × SvcRun :=
    if ckn.isEmpty || 32 < ckn.length then (s, svcCode 0x28 3)
    else if s.sag.okek != some wrap.key || wrap.aad != ckn then (s, svcCode 0x28 4)
    else
      (s.onSag fun x =>
        let caks := (x.caks.filter fun (e : Nat × Nat × List Byte × Nat) => !(e.1 == m.val && e.2.1 == slot.val)) ++
          [(m.val, slot.val, ckn, wrap.plain.toNat)]
        { x with caks := caks, derived := caks.map deriveCak },
       svcCode 0x28 0)

/-- CAK_INSTALL: a CAK with its CKN of 1 to 32 bytes is unwrapped under OKEK into a slot, with the CKN as additional data, and its KEK and
ICK are derived; or the request ends with AUTH (R352). -/
def execCakInstall (m : Fin 2) (slot : Fin 4) (ckn : List Byte) (wrap : Wrapped) (s : State) : Host.Outcome State Fault Refusal :=
  .next (s.svcGo 0x28 (63 + ckn.length) (svcCakInstall m slot ckn wrap))

/-- A SAK enters SA `a` of MAC `m`: 0 to 3 transmit, 4 to 35 receive; a transmit SA's packet numbers start anew (R324, R352). -/
def State.loadSak (s : State) (m : Fin 2) (a : Fin 36) (v : Nat) : State :=
  let s1 := s.onSag fun x => { x with
    saks := (x.saks.filter (· != (m.val, a.val))) ++ [(m.val, a.val)]
    sakVals := (x.sakVals.filter fun (e : Nat × Nat × Nat) => !(e.1 == m.val && e.2.1 == a.val)) ++ [(m.val, a.val, v)] }
  if h : a.val < 4 then s1.onMac m fun x => { x with pn := x.pn.set (⟨a.val, h⟩ : Fin 4) 1 } else s1

/-- What the service SakGen does. -/
def svcSakGen (m : Fin 2) (a : Fin 36) (slot : Fin 4) (s : State) : State × SvcRun :=
    if (s.cakOf m slot).isSome then (s.loadSak m a (Config.drawnSak s.free)).svcFree 0x29 40 else (s, svcCode 0x29 0x0B)

/-- SAK_GEN: a SAK is drawn into an SA and returned wrapped under the KEK of a CAK; without that CAK it ends with RESOURCE (R352). (DEDUCED, log entry 72.) -/
def execSakGen (m : Fin 2) (a : Fin 36) (slot : Fin 4) (s : State) : Host.Outcome State Fault Refusal := .next (s.svcGo 0x29 3 (svcSakGen m a slot))

/-- What the service SakLoad does. -/
def svcSakLoad (m : Fin 2) (a : Fin 36) (slot : Fin 4) (wrap : Wrapped) (s : State) : State × SvcRun :=
    match s.cakOf m slot with
    | none => (s, svcCode 0x2A 0x0B)
    | some k => if k.1 == wrap.key then (s.loadSak m a wrap.plain.toNat, svcCode 0x2A 0) else (s, svcCode 0x2A 4)

/-- SAK_LOAD: a distributed SAK is unwrapped under the KEK of a CAK into an SA, or the request ends with AUTH (R352). (DEDUCED, log entry
72.) -/
def execSakLoad (m : Fin 2) (a : Fin 36) (slot : Fin 4) (wrap : Wrapped) (s : State) : Host.Outcome State Fault Refusal :=
  .next (s.svcGo 0x2A 43 (svcSakLoad m a slot wrap))

/-- What the service MkaIcv does. -/
def svcMkaIcv (m : Fin 2) (slot : Fin 4) (pdu : List Byte) (s : State) : State × SvcRun :=
    match s.cakOf m slot with
    | none => (s, svcCode 0x2B 0x0B)
    | some k =>
      (s, { id := 0x2B, code := 0, len := 16, rsp := (List.range 4).foldl (fun c i => cellPut c (4 * i) (Config.icvWord k.2 pdu i)) [] })

/-- MKA_ICV: the ICV of an MKPDU under a CAK's ICK: 16 bytes (R352). (DEDUCED, log entry 72.) -/
def execMkaIcv (cak : Fin 2 × Fin 4) (pdu : List Byte) (s : State) : Host.Outcome State Fault Refusal :=
  .next (s.svcGo 0x2B (2 + pdu.length) (svcMkaIcv cak.1 cak.2 pdu))

/-- What the service Random does. -/
def svcRandom (n : BitVec 14) (s : State) : State × SvcRun :=
    if 1 ≤ n.toNat && n.toNat ≤ 4096 then s.svcFree 0x30 n.toNat else (s, svcCode 0x30 3)

/-- RANDOM: 1 to 4,096 random bytes; another number ends with BAD_LEN (R349). -/
def execRandom (n : BitVec 14) (s : State) : Host.Outcome State Fault Refusal := .next (s.svcGo 0x30 2 (svcRandom n))

/-- Number of the service of a request (R349). -/
def svcId (r : SvcReq) : Nat :=
  match r with
  | .getInfo => 0x01
  | .getNonce => 0x02
  | .attest .. => 0x03
  | .getCert => 0x04
  | .enroll .. => 0x10
  | .rotate .. => 0x11
  | .release .. => 0x12
  | .fwConfirm => 0x13
  | .setBoot .. => 0x14
  | .counterInc .. => 0x18
  | .counterRead .. => 0x19
  | .debugUnlock .. => 0x20
  | .debugLock => 0x21
  | .totalsReset .. => 0x22
  | .tamperCfg .. => 0x23
  | .zeroise .. => 0x24
  | .cakInstall .. => 0x28
  | .sakGen .. => 0x29
  | .sakLoad .. => 0x2A
  | .mkaIcv .. => 0x2B
  | .random .. => 0x30

/-- Bytes of a request: its arguments, and where the owner must sign it the signature (R343, R344, R349). (DESIGN CHOICE, log entry 13.) -/
def svcLen (r : SvcReq) : Nat :=
  match r with
  | .attest .. => 32
  | .enroll _ _ _ _ sig => 212 + hssLen sig
  | .rotate _ _ _ sig => 61 + hssLen sig
  | .release sig | .totalsReset sig | .zeroise sig => hssLen sig
  | .setBoot .. | .random .. => 2
  | .counterInc .. | .counterRead .. => 1
  | .debugUnlock _ sig => 1 + hssLen sig
  | .tamperCfg _ _ _ _ sig => 4 + hssLen sig
  | .cakInstall _ _ ckn _ => 63 + ckn.length
  | .sakGen .. => 3
  | .sakLoad .. => 43
  | .mkaIcv _ _ pdu => 2 + pdu.length
  | .getInfo | .getNonce | .getCert | .fwConfirm | .debugLock => 0

/-- What a request does (R349). -/
def svcBody (r : SvcReq) (s : State) : State × SvcRun :=
  match r with
  | .getInfo => svcGetInfo s
  | .getNonce => svcGetNonce s
  | .attest nonce verifies => svcAttest nonce verifies s
  | .getCert => svcGetCert s
  | .enroll fw glz svc okek sig => svcEnroll fw glz svc okek sig s
  | .rotate k v wrap sig => svcRotate k v wrap sig s
  | .release sig => svcReleaseOwner sig s
  | .fwConfirm => svcFwConfirm s
  | .setBoot glz slot img => svcSetBoot glz slot img s
  | .counterInc k => svcCounterInc k s
  | .counterRead k => svcCounterRead k s
  | .debugUnlock two sig => svcDebugUnlock two sig s
  | .debugLock => svcDebugLock s
  | .totalsReset sig => svcTotalsReset sig s
  | .tamperCfg temp volt clk hi sig => svcTamperCfg temp volt clk hi sig s
  | .zeroise sig => svcZeroise sig s
  | .cakInstall m slot ckn wrap => svcCakInstall m slot ckn wrap s
  | .sakGen m a slot => svcSakGen m a slot s
  | .sakLoad m a slot wrap => svcSakLoad m a slot wrap s
  | .mkaIcv m slot pdu => svcMkaIcv m slot pdu s
  | .random n => svcRandom n s

/-- The first `n` bytes of SAG.REQ (R349). -/
def State.reqBytes (s : State) (n : Nat) : List Byte :=
  (List.range n).map fun i => BitVec.ofNat 8 ((cellGet s.regs (0x4B001000 + 4 * (i / 4))).toNat / 2 ^ (8 * (i % 4)))

/-- The key slot with a number (R342). -/
def keySlotOf (n : Nat) : Option KeySlot := match n with | 1 => some .fw | 2 => some .glz | 3 => some .svc | 4 => some .okek | _ => none

/-- The response with a code. -/
def tamperOf (n : Nat) : Option Tamper := match n with | 0 => some .log | 1 => some .lock | 2 => some .zeroise | _ => none

/-- The request of service `id` that the bytes `r` spell, its arguments in the order in which the rules name them, with what the Saggar finds of
the signature, wrapped key and slot that go with them (R343 to R353). (DESIGN CHOICE, log entry 13.) -/
def parseSvc (id : Nat) (r : List Byte) (x : BusFacts) : Option SvcReq :=
  let b := r.map (·.toNat)
  let n := fun (o : Nat) => b.getD o 0
  let key := fun (o : Nat) => BitVec.ofNat 480 (beAt b o 60)
  let port := decide (n 0 < 2) && decide (n 1 < 4)
  match id with
  | 0x01 => some .getInfo
  | 0x02 => some .getNonce
  | 0x03 => some (.attest (Vector.ofFn fun i => BitVec.ofNat 32 (leAt b (4 * i.val) 4)) x.verifies)
  | 0x04 => some .getCert
  | 0x10 => some (.enroll (key 0) (key 60) (key 120) (BitVec.ofNat 256 (beAt b 180 32)) x.sig)
  | 0x11 => (keySlotOf (n 0)).map fun k => .rotate k (key 1) x.wrap x.sig
  | 0x12 => some (.release x.sig)
  | 0x13 => some .fwConfirm
  | 0x14 => if n 0 < 2 && n 1 < 2 then some (.setBoot (n 0 == 1) (Fin.ofNat 2 (n 1)) x.flash) else none
  | 0x18 => if n 0 < 8 then some (.counterInc (Fin.ofNat 8 (n 0))) else none
  | 0x19 => if n 0 < 8 then some (.counterRead (Fin.ofNat 8 (n 0))) else none
  | 0x20 => if n 0 == 1 || n 0 == 2 then some (.debugUnlock (n 0 == 2) x.sig) else none
  | 0x21 => some .debugLock
  | 0x22 => some (.totalsReset x.sig)
  | 0x23 =>
    match tamperOf (n 0), tamperOf (n 1), tamperOf (n 2) with
    | some t, some v, some c => if 110 ≤ n 3 && n 3 ≤ 150 then some (.tamperCfg t v c (Fin.ofNat 41 (n 3 - 110)) x.sig) else none
    | _, _, _ => none
  | 0x24 => some (.zeroise x.sig)
  | 0x28 => if port then some (.cakInstall (Fin.ofNat 2 (n 0)) (Fin.ofNat 4 (n 1)) ((r.drop 3).take (n 2)) x.wrap) else none
  | 0x29 => if n 0 < 2 && n 1 < 36 && n 2 < 4 then some (.sakGen (Fin.ofNat 2 (n 0)) (Fin.ofNat 36 (n 1)) (Fin.ofNat 4 (n 2))) else none
  | 0x2A => if n 0 < 2 && n 1 < 36 && n 2 < 4 then some (.sakLoad (Fin.ofNat 2 (n 0)) (Fin.ofNat 36 (n 1)) (Fin.ofNat 4 (n 2)) x.wrap) else none
  | 0x2B => if port then some (.mkaIcv (Fin.ofNat 2 (n 0)) (Fin.ofNat 4 (n 1)) (r.drop 2)) else none
  | 0x30 => some (.random (BitVec.ofNat 14 (leAt b 0 2)))
  | _ => none

/-- GO of service `id` with `len` bytes of SAG.REQ: bytes that spell no request of the service, or not one of that length, end with BAD_LEN
(R349). (DESIGN CHOICE, log entry 13.) -/
def svcRequest (id len : Nat) (x : BusFacts) (s : State) : State × SvcRun :=
  match (parseSvc id (s.reqBytes len) x).filter fun r => svcLen r == len with
  | some r => svcBody r s
  | none => (s, svcCode id 3)

/-- SAGGAR_ENTRY_FLUSH: the METER island accepts entries and the Saggar sends those it holds, in order; the METER's GAP goes right behind
BOOT (R256, R355, R362, R376). -/
def execSaggarEntryFlush (s : State) : Host.Outcome State Fault Refusal :=
  .next (
    if s.up .meter && !s.met.entriesOpen then
      let all := s.met.jq ++ s.sag.held
      let jq := match s.met.gap with | some r => afterBoot r all | none => all
      let s1 := s.withMet { s.met with entriesOpen := true, gap := none, jq := jq }
      s1.onSag fun x => { x with held := [] }
    else s)

/-! ### The flash (R340, R410) -/

/-- A write of XSPI.CMD that programs or erases `span` bytes from XSPI.ADDR on: one that addresses the boot table or an active slot ends in a
bus error and is counted; one while a command runs has no effect (R340, R410). (DESIGN CHOICE, log entry 132.) -/
def xspiCmdOp (v : Word) (span : Nat) (s : State) : State :=
  if flashBarred s.sag.bootNow (s.get XSPI_ADDR_ADDR) span then (s.inc SAG_REFUSED_COUNT).busError
  else if s.bit XSPI_STATUS_BUSY then s.respond 0
  else (((s.put ⟨0x40200004, 31, 0⟩ v.toNat).put XSPI_STATUS_BUSY 1).onSag fun x => { x with flashCmd := some v.toNat }).respond 0

/-- XSPI_CMD: a flash command is issued (R340). -/
def execXspiCmd (v : Word) (programs : Bool) (span : Nat) (s : State) : Host.Outcome State Fault Refusal :=
  .next (s.when s.coresRun (xspiCmdOp v (if programs then span else 0)))

/-- XSPI_COMMAND_DONE: the flash command ends: BUSY clears and DONE or ERROR sets (R410). -/
def execXspiCommandDone (err : Bool) (s : State) : Host.Outcome State Fault Refusal :=
  .next (s.when s.sag.flashCmd.isSome fun s =>
    let s1 := ((s.put XSPI_STATUS_BUSY 0).putB XSPI_STATUS_ERROR err).onSag fun x => { x with flashCmd := none }
    s1.put (if err then XSPI_INT_ERROR else XSPI_INT_DONE) 1)

end Sys2Proof.Machine
end

