-- ==== Sys2Proof/Machine/Pug.lean ====
section
/-!
DEFINITION. The Pug: the always-on supply and the last-gasp message (19_pug_always_on_supply.md).
-/

namespace Sys2Proof.Machine

open Sys2Proof

/-- The Pug's own state updated. -/
def State.onPug (s : State) (f : PugState → PugState) : State := s.withPug (f s.pug)

/-- The charger works while VAUX is valid, CFG.TOPUP_EN = 1 and the store is below TOP (R359). -/
def State.chargerSet (s : State) : State :=
  s.onPug fun x => { x with
    charger := s.bit PWR_STATUS_VAUX_OK && s.bit PUG_CFG_TOPUP_EN && decide (s.get PUG_LEVELS_STORE < 50 * s.get PUG_THR_TOP) }

/-- The store's voltage in mV as it is told, clamped at 5.0 V (R359). -/
def State.storeTold (s : State) (mv : Nat) : State := (s.put PUG_LEVELS_STORE (min mv 5000)).chargerSet

/-- Harvest has been present within the last 10 min (R360). -/
def State.harvestRecent (s : State) : Bool :=
  s.bit PUG_STATUS_HARVEST || s.pug.harvestAt.any fun t => decide (s.pug.aonNs < t + 600000000000)

/-- Place in the list of R360 of the first source that qualifies, with VBAT at `vbat` mV: 1 VAUX, 2 the store with harvest, 3 VBAT, 4 the
store, 0 none (R360). -/
def State.pugOrder (s : State) (vbat : Nat) : Nat :=
  let store := s.get PUG_LEVELS_STORE
  if s.bit PWR_STATUS_VAUX_OK then 1
  else if s.harvestRecent && (decide (50 * s.get PUG_THR_MEAS ≤ store) ||
      (s.pug.order == 2 && decide (50 * s.get PUG_THR_ABORT ≤ store))) then 2
  else if decide (2000 ≤ vbat) && s.bit PUG_CFG_CELL_EN then 3
  else if 2000 ≤ store then 4
  else 0

/-- SOURCE of a place in the list: 0 VAUX, 1 store, 2 VBAT (R360). -/
def sourceOf (order : Nat) : Nat := if order = 1 then 0 else if order = 3 then 2 else 1

/-- The always-on island loses its supply: the Saggar's SRAM state, its pending entries, the module time and the Pug's values are lost, and
the next boot is COLD. A message that was signed and not yet sent leaves a wasted index (R257, R360, R365, R372). -/
def State.supplyLoss (s : State) : State :=
  let pugRegs := [0x4B800000, 0x4B800004, 0x4B800008, 0x4B80000C, 0x4B800010, 0x4B800014, 0x4B800018]
  let s1 := (s.withRegs (pugRegs.foldl (fun m a => cellPut m a (cellGet resetCells a)) s.regs)).withPug { supplied := false, order := 0 }
  let lost := s.pug.msg.bind (·.index)
  let s2 := s1.onSag fun x => { x with
    held := [], heldLoss := false, treeKept := false, nextTree := false, derived := [], drbg := none
    released := if lost.isSome && x.released == lost then none else x.released }
  (s2.put SAG_STATUS_READY 0).put PWR_RESET_CAUSE_CAUSE 1

/-- The always-on island takes the source that qualifies, with the store at `store` and VBAT at `vbat` mV; another source than before writes
its entry; where none qualifies the island loses its supply. VBAT_LOW ends with VBAT back at 2.2 V (R360). (DEDUCED, log entry 134.) -/
def State.pugSelect (s : State) (store vbat : Nat) : State :=
  let s1 := ((s.storeTold store).onPug fun x => { x with vbat := vbat }).when (decide (2200 ≤ vbat)) (·.put PUG_STATUS_VBAT_LOW 0)
  let o := s1.pugOrder vbat
  if o = 0 then s1.supplyLoss
  else
    let s2 := s1.onPug fun x => { x with order := o, supplied := true }
    if s.get PUG_STATUS_SOURCE == sourceOf o && s.pug.supplied then s2
    else ((s2.put PUG_STATUS_SOURCE (sourceOf o)).put PUG_INT_SOURCE 1).journal 0x28 (sourceOf o) (min store 5000)

/-- PUG_MODE_CHANGE: the store crosses 1.8 V rising or 1.7 V falling: active mode, with the entry that carries the duration of the cold
start in s, or cold start; with HARV_EN = 0 there is no cold start (R357, R358). -/
def execPugModeChange (active : Bool) (secs : Word) (s : State) : Host.Outcome State Fault Refusal :=
  .next (
    if active || !s.bit PUG_CFG_HARV_EN then
      (s.put PUG_STATUS_COLD 0).when (s.bit PUG_STATUS_COLD && s.bit PUG_CFG_HARV_EN) (·.journal 0x2A 0 secs.toNat)
    else s.put PUG_STATUS_COLD 1)

/-- PUG_VOC_MEASURE: every 16 s the open-circuit voltage and the store are measured and HARVEST is judged; in cold start there is no
measurement, with HARV_EN = 0 no harvest, and a burst defers it (R358, R366). -/
def execPugVocMeasure (voc store : BitVec 16) (harvest : Bool) (s : State) : Host.Outcome State Fault Refusal :=
  .next (
    if s.bit PUG_STATUS_COLD then s
    else if s.pug.load then s.onPug fun x => { x with vocDue := true }
    else
      let s1 := if s.bit PUG_CFG_HARV_EN then
          ((s.put PUG_LEVELS_VOC voc.toNat).putB PUG_STATUS_HARVEST harvest).onPug fun x =>
            { x with harvestAt := if harvest then some x.aonNs else x.harvestAt }
        else s.put PUG_STATUS_HARVEST 0
      ((s1.storeTold store.toNat).onPug fun x => { x with vocDue := false }).tamperDue)

/-- PUG_SOURCE_CHANGE: with the store and VBAT in mV as they are now, another source qualifies for the always-on island, or none does
(R360, R366). -/
def execPugSourceChange (store vbat : BitVec 16) (s : State) : Host.Outcome State Fault Refusal :=
  .next (s.pugSelect store.toNat vbat.toNat).tamperDue

/-- VBAT_LOW: VBAT falls below 2.2 V (R360). -/
def execVbatLow (mv : BitVec 16) (s : State) : Host.Outcome State Fault Refusal :=
  .next ((((s.put PUG_STATUS_VBAT_LOW 1).put PUG_INT_VBAT_LOW 1).onPug fun x => { x with vbat := mv.toNat }).journal 0x2B 0 mv.toNat)

/-- PUG_THR_WRITE once it has reached its island. -/
def pugThrWriteOp (v : Word) (s : State) : State :=
  let n := v.toNat
  let ab := n % 256
  let me := n / 2 ^ 8 % 256
  let xm := n / 2 ^ 16 % 256
  let top := n / 2 ^ 24
  if 44 ≤ ab && ab < me && me < xm && xm < top && top ≤ 100 then
    ((((s.put PUG_THR_ABORT ab).put PUG_THR_MEAS me).put PUG_THR_XMIT xm).put PUG_THR_TOP top).chargerSet
  else s.inc PUG_STATUS_REFUSED

/-- PUG_THR_WRITE: the thresholds take the value, or the write is refused unless 2.2 V ≤ ABORT < MEAS < XMIT < TOP ≤ 5.0 V (R362). -/
def execPugThrWrite (v : Word) (s : State) : Host.Outcome State Fault Refusal := .next (s.access .saggar none (pugThrWriteOp v))

/-- LAST_GASP_TRIGGER: a trigger apart from the event it follows, as LG_CFG enables it: VAUX has ceased to be valid (`detail` the store in mV),
or a tamper event was answered with LOG or LOCK (`detail` the sensor). VAUX_INVALID and TAMPER_EVENT trigger of themselves (R364). -/
def execLastGaspTrigger (tamper : Bool) (detail : Word) (s : State) : Host.Outcome State Fault Refusal :=
  .next (
    if tamper then s.when (s.bit PUG_LG_CFG_ON_TAMPER) (·.gaspTrigger 2 detail.toNat)
    else s.when (s.bit PUG_LG_CFG_ON_PF && !s.bit PWR_STATUS_VAUX_OK) (·.gaspTrigger 1 detail.toNat))

/-- HEARTBEAT: HEARTBEAT hours have passed without VAUX (R364). -/
def execHeartbeat (store : BitVec 16) (s : State) : Host.Outcome State Fault Refusal :=
  .next (
    if !s.bit PWR_STATUS_VAUX_OK && s.get PUG_LG_CFG_HEARTBEAT != 0 then s.gaspTrigger 3 store.toNat else s)

/-- A pending message is abandoned: no index of its own is released (R365). -/
def State.gaspAbandon (s : State) (m : GaspMsg) (q : Nat) : State :=
  ((s.onPug fun x => { x with msg := none }).put PUG_STATUS_LG 0).journal 0x29 2 (payload2 q m.trigger)

/-- The signature that the Saggar makes of a last-gasp message does not verify: a free value, since only a hardware fault brings it about
(R348). (DESIGN CHOICE, log entry 146.) -/
def State.signatureFails (s : State) : Bool := s.freeWord.getLsbD 0

/-- LAST_GASP_SEND: the store has reached XMIT with a message pending: it is signed, unless it was before, PUG_LOAD closes and its index is
released; without the tree's state, an index or the DEV key it is abandoned, and so it is where the signature does not verify, which enters
ERROR (R348, R365). (DEDUCED, log entry 74; DESIGN CHOICE, log entry 146.) -/
def execLastGaspSend (s : State) : Host.Outcome State Fault Refusal :=
  .next (
    match s.pug.msg with
    | none => s
    | some m =>
      if s.pug.load then s
      else
        let close := fun (s : State) (q : Nat) =>
          ((s.onPug fun x => { x with load := true, warm := false, msg := some { m with index := some q } }).onSag fun x =>
            { x with released := some q }).put PUG_STATUS_LG 2
        match m.index with
        | some q => (s.onPug fun x => { x with load := true, warm := false }).put PUG_STATUS_LG 2
        | none =>
          let q := s.get SAG_ATTEST_NEXT_NEXT
          if s.bit SAG_ATTEST_NEXT_EXHAUSTED || !s.sag.treeKept || !s.sag.devKey then s.gaspAbandon m 0
          else if s.signatureFails then ((s.attestCommit q).sagError.gaspAbandon m q).tookFree
          else (close (s.attestCommit q) q).tookFree)

/-- The words of a last-gasp message (R364). -/
def State.gaspWords (s : State) (m : GaspMsg) (q : Nat) : List Nat :=
  [0x474C5747, 1 + 2 ^ 16 * m.trigger, s.get SYS_UID_LO_UID, s.get SYS_UID_HI_UID, m.time % 2 ^ 32, m.time / 2 ^ 32 % 2 ^ 32, q, m.detail,
    0x1474] ++ (List.range 1309).map fun i => (signatureWord q i).toNat

/-- LAST_GASP_WARMUP_END: the message is sent on PUG_TXD (R365). -/
def execLastGaspWarmupEnd (s : State) : Host.Outcome State Fault Refusal :=
  .next (
    match s.pug.msg with
    | some m =>
      if s.pug.load && !s.pug.warm then
        (s.onPug fun x => { x with warm := true }).send (.gasp (s.gaspWords m (m.index.getD 0)))
      else s
    | none => s)

/-- PUG_LOAD opens. -/
def State.openLoad (s : State) : State := s.onPug fun x => { x with load := false, warm := false }

/-- LAST_GASP_SENT: PUG_LOAD opens and the entry is written (R365). -/
def execLastGaspSent (s : State) : Host.Outcome State Fault Refusal :=
  .next (
    match s.pug.msg with
    | some m =>
      if s.pug.load && s.pug.warm then
        (((s.openLoad.onPug fun x => { x with msg := none }).put PUG_STATUS_LG 0).put PUG_INT_LG_DONE 1).journal 0x29 0
          (payload2 (m.index.getD 0) m.trigger)
      else s
    | none => s)

/-- LAST_GASP_ABORT: the store falls to ABORT: PUG_LOAD opens, and the signed message waits to be sent again (R365). -/
def execLastGaspAbort (s : State) : Host.Outcome State Fault Refusal :=
  .next (
    match s.pug.msg with
    | some m =>
      if s.pug.load then
        ((s.openLoad.put PUG_STATUS_LG 1).put PUG_INT_LG_INCOMPLETE 1).journal 0x29 1 (payload2 (m.index.getD 0) m.trigger)
      else s
    | none => s)

end Sys2Proof.Machine
end

