-- ==== Sys2Proof/Machine/Power.lean ====
section
/-!
DEFINITION. Power: supply events, rails, gate power, resets and boot, the watchdog, standby (20_power_startup_and_holdup.md, R339).
-/

namespace Sys2Proof.Machine

open Sys2Proof

/-- The power state updated. -/
def State.onPwr (s : State) (f : PwrState → PwrState) : State := s.withPwr (f s.pwr)

/-! ### Gate power (R370) -/

/-- The last value an image's sections give field `f`; 0 where none sets it. -/
def imageField (g : GlazeImage) (f : Fld) : Nat := g.fields.foldl (fun v (e : FieldSet) => if e.fld == f then e.value else v) 0

/-- The image uses tile `n`: a pair in use is routed to it (R30). -/
def imageUsesTile (g : GlazeImage) (n : Fin 9) : Bool :=
  nine.any fun p => imageField g (MOD_ROUTE_USED p) == 1 && imageField g (MOD_ROUTE_TILE p) == n.val

/-- The converter powers exactly the tiles the image uses; a tile no longer served loses its supplies, and then holds nothing (R25, R370). -/
def State.serve (s : State) (g : GlazeImage) : State :=
  s.each nine fun n s =>
    if imageUsesTile g n then s.onTile n fun t => { t with powered := true }
    else
      let s1 := ((s.diagStop n).onTile n fun t => { t with powered := false }).each [(0 : Fin 2), 1] fun c s =>
        (s.put (SET_CH_STATUS_SUP_OK n c) 0).put (SET_CH_STATUS_CLAMP n c) 0
      s1.supRefresh n

/-- The converter stops: EN and GP_ON read 0 and every tile loses its supplies (R370). -/
def State.gpStop (s : State) : State :=
  (((s.put PWR_GP_CTRL_EN 0).put PWR_STATUS_GP_ON 0).onPwr fun x => { x with firstLoad := false }).serve {}

/-- A refused write of the PWR block. -/
def State.pwrRefuse (s : State) : State := s.inc PWR_REFUSED_COUNT

/-- GP_EN_WRITE as R370 has it. -/
def gpEnOp (en : Bool) (s : State) : State :=
  if en then
    if !s.bit PWR_STATUS_VAUX_OK then s.pwrRefuse
    else
      let on := (s.put PWR_GP_CTRL_EN 1).put PWR_STATUS_GP_ON 1
      match s.glz.active, s.glz.staged, s.glz.load with
      | some g, _, _ => on.serve g.image
      | none, some g, _ => on.serve g.image
      | none, none, some l =>
        let s1 := on.onPwr fun x => { x with firstLoad := true }
        if l.gateChecked then s1.serve l.image else s1
      | none, none, none => s.pwrRefuse
  else if s.anyArmed then s.pwrRefuse
  else s.gpStop

/-- GP_EN_WRITE: enables the converter, unless the rails are unknown or VAUX is not valid; disables it, unless a tile is armed (R370). -/
def execGpEnWrite (en : Bool) (s : State) : Host.Outcome State Fault Refusal := .next (s.access .host none (gpEnOp en))

/-! ### Reset (R372, R373) -/

/-- Registers whose contents a reset keeps: identity, the ferroelectric counters, the Saggar's counters, the Pug, the boot count. -/
def keptRegs : List Nat :=
  [0x40000004, 0x40000010, 0x40000014, 0x47000070, 0x47000078, 0x47000080, 0x47000084, 0x4B000020, 0x4B000024, 0x4B000028,
    0x4B800000, 0x4B800004, 0x4B800008, 0x4B80000C, 0x4B800010, 0x4B800014, 0x4B800018, 0x4C000020]

/-- Fields kept beside other fields of their register: straps, supply supervision, the tamper count. -/
def keptFields : List Fld := [CLK_REF_SEL, PWR_STATUS_VAUX_OK, PWR_STATUS_DERATED, PWR_STATUS_VAUX_HIGH, SAG_TAMPER_COUNT]

/-- The factory resistances of the segments. -/
def factoryFields : List Fld :=
  channels.flatMap fun (n, c) => (List.range 8).map fun k => SET_SEG_RDS_INITIAL n c k

/-- What a tile's secondary goes on with while its control side is in reset: the fallback under way, a channel's stage, and soft
turn-off (R373, R198). -/
def keptTile (t : Tile) : Tile :=
  { fallback := t.fallback, ch := t.ch.map fun (x : Chan) => { soft := x.soft, stage := x.stage } }

/-- The registers after a reset. -/
def State.resetRegs (s : State) (cause : Nat) : State :=
  let r : State := s.withRegs (keptRegs.foldl (fun m a => cellPut m a (cellGet s.regs a)) resetCells)
  let r1 := r.each (keptFields ++ factoryFields) fun f r => r.put f (s.get f)
  let r2 := r1.each channels fun (n, c) r =>
    (r.put (SET_CH_STATUS_ON n c) (s.get (SET_CH_STATUS_ON n c))).put (SET_CH_STATUS_SOFTOFF_BUSY n c)
      (s.get (SET_CH_STATUS_SOFTOFF_BUSY n c))
  let r3 := r2.each (List.finRange 18) fun n r =>
    (r.putI (ADC_CAL_OG_OFS n) s.adcs[n].facOfs).putI (ADC_CAL_OG_GAIN n) s.adcs[n].facGain
  ((r3.strap (s.get CLK_REF_SEL)).put PWR_RESET_CAUSE_CAUSE cause).inc PWR_BOOT_COUNT_COUNT

/-- Save copies after a reset: the copy a save was being written into is left invalid (R256). -/
def MetState.copiesAfter (m : MetState) : SaveCopy × SaveCopy :=
  if m.saving.isNone then m.copies
  else if olderFirst m.copies then ({ m.copies.1 with crcOk := false }, m.copies.2)
  else (m.copies.1, { m.copies.2 with crcOk := false })

/-- Every entry of the write buffer in its place of the ring. -/
def State.drainAll (s : State) : State := s.each s.met.jbuf fun _ s => s.drainJournal

/-- What the Saggar keeps over a reset: its store, and the state the always-on island holds (R335, R347, R355). -/
def SagState.afterReset (x : SagState) : SagState :=
  { x with error := false, saks := [], sakVals := [], derived := [], drbg := none, nonce := none, svc := none, rsp := [],
           rspSig := none, rspFree := none, rspInfo := none, rspCert := false, fault := false, flashCmd := none, octal := false,
           mapDigest := 0, fwVersion := 0, fwDigest := 0, glzDigest := 0 }

/-- What a reset with cause COLD loses besides: the always-on island's SRAM, RTC and module time; the Pug's settings stay (R372). -/
def State.coldLoss (s : State) : State :=
  let s1 := s.withPug { s.pug with aonNs := 0, msg := none, load := false, warm := false, vocDue := false, harvestAt := none, deferred := [] }
  (s1.onSag fun x => { x with held := [], heldLoss := false, treeKept := false, nextTree := false }).put PUG_STATUS_LG 0

/-- The module resets with the given cause: the tiles lose their control sides and fall back, every island and the PLLs return to
their reset state; kept are the ferroelectric die, the Saggar store, the Pug and the always-on island, and the commands that
wait (R372, R373). An orderly sequence leaves the rails running; `rails` says so. (DESIGN CHOICE, log entry 7.) -/
def State.moduleReset (s : State) (cause : Nat) (rails : Bool) : State :=
  let s1 := (s.each nine fun n s => s.when (s.tiles[n].fallback != 1) (·.controlLoss n)).drainAll
  let regs := (s1.resetRegs cause).regs
  { State.reset with
    regs := regs, pending := s1.pending, free := s1.free, outbox := s1.outbox,
    met := { copies := s1.met.copiesAfter, ring := s1.met.ring },
    sag := s1.sag.afterReset, pug := s1.pug,
    grg := { map := s1.grg.map, mapVersion := s1.grg.mapVersion, pend := s1.grg.pend.filter fun e => e.kind == 7 && !e.byFw },
    tiles := s1.tiles.map keptTile,
    adcs := s1.adcs.map fun (x : AdcCore) => { facOfs := x.facOfs, facGain := x.facGain },
    pwr := { rails := if rails then 4 else 0, resetPin := s1.pwr.resetPin, straps := s1.pwr.straps } }

/-- RESET: the module resets with the given cause of R372; 0 is no cause. -/
def execResetModule (cause : Fin 9) (s : State) : Host.Outcome State Fault Refusal :=
  .next (
    if cause.val = 0 then s
    else (s.moduleReset cause.val (decide (4 ≤ cause.val))).when (cause == 1) (·.coldLoss))

/-- BROWN_OUT: a rail leaves its window: an immediate reset with no save (R369, R372). -/
def execBrownOut (s : State) : Host.Outcome State Fault Refusal :=
  .next (if s.pwr.rails = 0 then s else s.moduleReset 3 false)

/-- RESET_PIN: RESET_N low starts the orderly sequence and holds the reset (R372). -/
def execResetPin (s : State) : Host.Outcome State Fault Refusal :=
  .next ((s.orderlyBegin 4).onPwr fun x => { x with resetPin := true })

/-- RESET_N_RELEASE: RESET_N returns high (R372). -/
def execResetNRelease (s : State) : Host.Outcome State Fault Refusal := .next (s.onPwr fun x => { x with resetPin := false })

/-- FIRMWARE_RESET: PWR.CTRL.RESET; during a sequence it is ignored (R372, R380). -/
def execFirmwareReset (s : State) : Host.Outcome State Fault Refusal := .next (s.access .host none fun s => s.orderlyBegin 5)

/-- The orderly sequence may assert the reset: the save has completed and the safe order has finished, or `late`, 1 ms has passed. -/
def State.orderlyDone (s : State) (late : Bool) : Bool :=
  s.met.saving.isNone && (late || !s.up .mod || s.bit SIT_STATUS_SAFE_DONE)

/-- RESET_ASSERT: the orderly sequence asserts the reset (R372). -/
def execResetAssert (late : Bool) (s : State) : Host.Outcome State Fault Refusal :=
  .next (
    match s.pwr.orderly with
    | some c => if s.orderlyDone late then s.moduleReset c true else s
    | none => s)

/-! ### Start-up (R369, R339) -/

/-- The Saggar leaves reset: its self-tests, the entry BOOT, an index wasted, the DRBG seeded, KEKs and ICKs
derived; PLL0 is enabled (R336, R339, R348, R352). -/
def State.saggarStart (s : State) (selfTest : Bool) : State :=
  let s1 := s.onPwr fun x => { x with saggarUp := true, rails := 5 }
  let s2 := s1.journal 0x01 (s.get PWR_RESET_CAUSE_CAUSE) (s.get PWR_BOOT_COUNT_COUNT)
  if !selfTest then s2.sagError
  else
    let life := s.sag.lifecycle
    let s3 := ((s2.put SAG_STATUS_SELFTEST_OK 1).put SAG_STATUS_LIFECYCLE life).putB SAG_STATUS_APPROVED (life == 2)
    let s4 := (s3.put SAG_STATUS_DEBUG (bitOf (life == 1))).putB SAG_STATUS_READY s.sag.treeKept
    let s5 := (s4.onSag fun x => { x with drbg := some s4.free, derived := x.caks.map deriveCak }).tookFree
    s5.attestWasted.pllEnable 0

/-- RAILS_GOOD: the next rail in the order of R369 is good; with the last the Saggar leaves reset, unless RESET_N is low. -/
def execRailsGood (rail : Fin 5) (selfTest : Bool) (s : State) : Host.Outcome State Fault Refusal :=
  .next (
    if !s.bit PWR_STATUS_VAUX_OK || s.pwr.resetPin || s.pwr.rails != rail.val then s
    else if rail.val < 4 then s.onPwr fun x => { x with rails := rail.val + 1 }
    else s.saggarStart selfTest)

/-- What ails a firmware image: 4 read error, 3 format, and where images are verified 1 signature, 2 rollback; 0 nothing (R339, R355). (DEDUCED, log entry 76.) -/
def fwFault (owned : Bool) (rollback : Nat) (f : FwSlot) : Nat :=
  if !f.readOk then 4
  else if !f.formatOk then 3
  else if owned && !f.signatureOk then 1
  else if owned && decide (f.version < rollback) then 2
  else 0

/-- The HOST is released from the given slot: its image has been copied to system SRAM from its base on, and the active Glaze image has been
hashed, and in OWNED verified (R339). -/
def State.hostStart (s : State) (f : BootFacts) (slot : Nat) (img : FwSlot) : State :=
  let owned := s.sag.lifecycle == 2
  let g := readSlot true (if owned then s.sag.keyGlz else none) f.glaze
  let s0 := s.withSram (s.sram.store 0 img.content)
  let s1 := s0.onPwr fun x => { x with hostUp := true, entry := img.entry }
  let s2 := (s1.put SAG_STATUS_FW_SLOT slot).put SAG_STATUS_GLZ_SLOT (bootInForce s.sag.bootTable).glzSlot
  let s3 := match s.sag.bootFail with
    | some (c, n) => s2.journal 0x20 (c + 2 ^ 8 * n) s.sag.failCount
    | none => s2
  let s4 := s3.onSag fun x => { x with
    fwVersion := img.version, fwDigest := img.digest, glzDigest := g.digest, bootFail := none, failCount := 0 }
  if owned && g.readOk && g.formatOk && g.signatureOk then (s4.withGlz { s4.glz with verified := [g.digest] }) else s4

/-- HOST_RELEASE: the boot table is read and the xSPI port switches to 8D-8D-8D; the active firmware slot is tried, then the other; the HOST is released at ENTRY, or with both failed it stays in
reset, SAG_FAULT is driven low and the cause is kept (R339). -/
def execHostRelease (f : BootFacts) (s : State) : Host.Outcome State Fault Refusal :=
  .next (
    if s.pwr.hostUp || !s.pwr.saggarUp || s.sag.error || s.pwr.resetPin || !s.clk[0].everLocked then s
    else
      let owned := s.sag.lifecycle == 2
      let roll := s.get SAG_ROLLBACK_FW_VALUE
      let slot := (bootInForce s.sag.bootTable).fwSlot
      let s1 := s.onSag fun x => { x with bootNow := bootInForce x.bootTable, octal := true }
      let first := readSlot false s.sag.keyFw (if slot = 0 then f.slotA else f.slotB)
      let other := readSlot false s.sag.keyFw (if slot = 0 then f.slotB else f.slotA)
      if fwFault owned roll first = 0 then s1.hostStart f slot first
      else if fwFault owned roll other = 0 then s1.hostStart f (1 - slot) other
      else s1.onSag fun x => { x with
        fault := true, bootFail := some (fwFault owned roll first, slot), failCount := x.failCount + 1 })

/-! ### VAUX (R367, R368, R375 to R378) -/

/-- VAUX_VALID: VAUX has stayed at or above 4.5 V for 500 µs; where it becomes valid, the strap pins CLK_SEL1 and CLK_SEL0 are sampled and set the
reference and the PLLs' reset configurations; the always-on island takes VAUX (R263, R265, R360, R368). -/
def execVauxValid (s : State) : Host.Outcome State Fault Refusal :=
  .next (
    s.when (!s.bit PWR_STATUS_VAUX_OK) fun s =>
      let s1 := ((s.put PWR_STATUS_VAUX_OK 1).put CLK_REF_SEL s.pwr.straps.toNat).strap s.pwr.straps.toNat
      (s1.pugSelect (s.get PUG_LEVELS_STORE) s.pug.vbat).tamperDue)

/-- VAUX_INVALID: the rails stop and the reset of the next boot takes effect; with the store and VBAT as they were last told, the always-on
island moves to its next source, and ON_PF triggers a last-gasp message (R360, R364, R368, R378). (DEDUCED, log entry 134.) -/
def execVauxInvalid (s : State) : Host.Outcome State Fault Refusal :=
  .next (
    if s.bit PWR_STATUS_VAUX_OK then
      let s1 := (s.moduleReset 2 false).put PWR_STATUS_VAUX_OK 0 |>.put PWR_STATUS_DERATED 0 |>.put PWR_STATUS_VAUX_HIGH 0
      let store := s.get PUG_LEVELS_STORE
      let s2 := s1.pugSelect store s.pug.vbat
      s2.when (s2.pug.supplied && s2.bit PUG_LG_CFG_ON_PF) (·.gaspTrigger 1 (min store 5000))
    else s)

/-- VAUX_HIGH reads 0 again: VAUX is found at or below 48 V. -/
def State.vauxLow (s : State) : State := (s.put PWR_STATUS_VAUX_HIGH 0).onPwr fun x => { x with highNs := 0 }

/-- VAUX_HIGH: VAUX above 48 V, for at most 100 ms and at most 60 V; outside that no behaviour is guaranteed. It
has ended 100 ms later at the latest (R367). (DESIGN CHOICE, log entry 78.) -/
def execVauxHigh (outside : Bool) (s : State) : Host.Outcome State Fault Refusal :=
  if outside then .fault .outsideRatings else .next ((s.put PWR_STATUS_VAUX_HIGH 1).onPwr fun x => { x with highNs := 100000000 })

/-- DERATED_SET: VAUX has been below 12.0 V for 10 µs (R367). -/
def execDeratedSet (s : State) : Host.Outcome State Fault Refusal := .next ((s.vauxLow.put PWR_STATUS_DERATED 1).put PWR_INT_DERATED 1)

/-- DERATED_CLEAR: VAUX has been above 12.3 V for 1 ms (R367). -/
def execDeratedClear (s : State) : Host.Outcome State Fault Refusal := .next (s.put PWR_STATUS_DERATED 0)

/-- The save of a power failure, or with the METER island in reset only its entry (R375, R376). -/
def State.pfRecord (s : State) : State :=
  if s.up .meter then
    (match s.met.saving with
     | some r => if r.pf then s else s.pfSave
     | none => s.pfSave)
  else s.journal 0x03 0 (s.get MET_SAVE_SEQ_SEQ)

/-- PF_WARN_FALL: PF and its interrupt set, PF_OUT_N is driven low, the block stops with cause POWER_FAIL and the power-fail save
begins (R375, R376). -/
def execPfWarnFall (s : State) : Host.Outcome State Fault Refusal :=
  .next (
    if s.bit PWR_STATUS_PF then s
    else
      let s1 := ((s.vauxLow.put PWR_STATUS_PF 1).put PWR_INT_PF 1).onPwr fun x => { x with pfOut := true }
      (s1.raiseStop .powerFail 0).pfRecord)

/-- PF_WARN_RISE: PF clears and PF_OUT_N is released (R375). -/
def execPfWarnRise (s : State) : Host.Outcome State Fault Refusal :=
  .next (
    if s.bit PWR_STATUS_PF then
      ((s.put PWR_STATUS_PF 0).put PWR_INT_PF_CLEAR 1).onPwr fun x => { x with pfOut := false }
    else s)

/-- PF_WARN_WRITE as R375 has it. (DEDUCED, log entry 77.) -/
def pfWarnOp (v : Nat) (s : State) : State := if 20 ≤ v && v ≤ 144 then s.put PWR_PF_WARN_THR v else s.pwrRefuse

/-- PF_WARN_WRITE: a threshold of 20 to 144 steps of 0.25 V is taken, another refused and counted (R375). -/
def execPfWarnWrite (v : BitVec 8) (s : State) : Host.Outcome State Fault Refusal := .next (s.access .host none (pfWarnOp v.toNat))

/-- ALWAYS_ON_SUPPLY_LOSS: no source qualifies; with VAUX valid one does (R360). -/
def execAlwaysOnSupplyLoss (s : State) : Host.Outcome State Fault Refusal :=
  .next (if s.bit PWR_STATUS_VAUX_OK then s else s.supplyLoss)

/-! ### Standby, watchdog, temperature (R374, R379, R380) -/

/-- STANDBY as R379 has it. -/
def standbyOp (s : State) : State :=
  if s.glz.load.isSome || s.glz.fireWait || s.phase == 5 then s.pwrRefuse else (s.put PWR_STATUS_STANDBY 1).onPwr fun x => { x with wakeDue := false }

/-- STANDBY: the HOST cores stop, or the write is refused and counted while a load or a firing runs (R379). -/
def execStandby (s : State) : Host.Outcome State Fault Refusal := .next (s.access .host none standbyOp)

/-- Something resumes the cores: an enabled interrupt to the HOST interrupt controller, a wake unit, or PF (R379). -/
def State.wakes (s : State) : Bool :=
  s.pwr.wakeDue || s.bit PWR_STATUS_PF || (List.range 64).any s.plicAsserted

/-- STANDBY_WAKE: the cores resume; without a cause for it they do not (R379). -/
def execStandbyWake (s : State) : Host.Outcome State Fault Refusal :=
  .next (s.when (s.bit PWR_STATUS_STANDBY && s.wakes) fun s => (s.put PWR_STATUS_STANDBY 0).onPwr fun x => { x with wakeDue := false })

/-- WDOG_START as R374 has it. (DEDUCED, log entry 75.) -/
def wdogCfgOp (v : Nat) (s : State) : State :=
  if s.bit PWR_WDOG_CFG_EN then s
  else (s.when (v % 2 ^ 16 != 0) (·.put PWR_WDOG_CFG_TMO v)).putB PWR_WDOG_CFG_EN (v.testBit 31)

/-- WDOG_START: a write of WDOG_CFG: the interval is taken while EN is 0; EN = 1 starts the watchdog and stays (R374). -/
def execWdogStart (v : Word) (s : State) : Host.Outcome State Fault Refusal := .next (s.access .host none (wdogCfgOp v.toNat))

/-- WDOG_KICK as R374 has it. -/
def wdogKickOp (v : Nat) (s : State) : State :=
  if !s.bit PWR_WDOG_CFG_EN then s
  else if !s.pwr.kick && v == 0x5A5A then s.onPwr fun x => { x with kick := true }
  else if s.pwr.kick && v == 0xA5A5 then s.onPwr fun x => { x with kick := false }
  else (s.onPwr fun x => { x with kick := false }).orderlyBegin 6

/-- WDOG_KICK: the two keys in order restart the interval; anything else starts the orderly sequence with cause WATCHDOG (R374). -/
def execWdogKick (v : Word) (s : State) : Host.Outcome State Fault Refusal := .next (s.access .host none (wdogKickOp v.toNat))

/-- WDOG_HALF: half the interval has passed (R374). -/
def execWdogHalf (s : State) : Host.Outcome State Fault Refusal := .next (s.when (s.bit PWR_WDOG_CFG_EN) (·.put PWR_INT_WDOG_HALF 1))

/-- WATCHDOG_EXPIRY: the interval has expired (R372, R374). -/
def execWatchdogExpiry (s : State) : Host.Outcome State Fault Refusal := .next (s.when (s.bit PWR_WDOG_CFG_EN) (·.orderlyBegin 6))

/-- DIE_HOT: the die has reached 125 °C (R380). -/
def execDieHot (s : State) : Host.Outcome State Fault Refusal := .next (s.put PWR_INT_HOT 1)

/-- THERMAL: the die has been at or above 145 °C for 10 ms (R372). -/
def execThermal (s : State) : Host.Outcome State Fault Refusal := .next (s.orderlyBegin 8)

end Sys2Proof.Machine
end

