-- ==== Sys2Proof/Machine/Worst.lean ====
section
/-!
DEFINITION. The loader's worst case: the cycles of Wheel programs, with every loop at MAX and every fresh read at the bound of R59
(R50, R80), and the sample-to-edge latency of the current loops (R16, R175, R177).
-/

namespace Sys2Proof.Machine

open Sys2Proof

/-! ### The timeline of a program (R50, R59, R80 to R82) -/

/-- Where the longest paths to an address stand: the latest sample cycle in which it can issue, and the earliest cycle after the return of
a path's last fresh read; none while no path has made one (R16, R50). -/
structure Front where
  cyc : Nat
  ret : Option Nat
  deriving DecidableEq, Repr

/-- The earlier of two returns. -/
def earlier (a b : Option Nat) : Option Nat :=
  match a, b with
  | some x, some y => some (min x y)
  | none, y => y
  | x, none => x

/-- The later issue and the earlier return of two fronts. -/
def Front.join (a b : Front) : Front := ⟨max a.cyc b.cyc, earlier a.ret b.ret⟩

/-- The issue cycle advanced. -/
def Front.add (a : Front) (n : Nat) : Front := ⟨a.cyc + n, a.ret⟩

/-- The compute segment at an END that publishes in the front's cycle: from the fresh read's return, or from the sample start without
one (R16). -/
def Front.seg (a : Front) : Nat := a.cyc + 1 - a.ret.getD 0

/-- What the loader knows of a converter core that the group starts: the earliest and the latest cycle of a start instruction that names
it, by any member, and of FRESH_TMO and the slots (R59). -/
structure CoreStart where
  core : Nat
  first : Nat
  latest : Nat
  deriving DecidableEq, Repr

/-- What the walk over a program needs: its words, the group's cores with their starts, the cores that own the slots, and FRESH_TMO. -/
structure WalkEnv where
  words : List Nat
  cores : List CoreStart
  owners : List (Nat × Nat × Nat)
  tmo : Nat
  deriving DecidableEq, Repr

/-- What the walk finds: the latest start instruction of each core, and the latest END. -/
structure Found where
  starts : List (Nat × Nat) := []
  fin : Option Front := none
  deriving DecidableEq, Repr

/-- A front at an address, joined with what is already there. -/
def putFront (t : List (Nat × Front)) (a : Nat) (f : Front) : List (Nat × Front) :=
  match t with
  | [] => [(a, f)]
  | e :: r => if e.1 = a then (a, e.2.join f) :: r else e :: putFront r a f

/-- The cores of which a fresh read can await a result: the owner of its slot, or with an index any (R59, R75). -/
def WalkEnv.awaits (x : WalkEnv) (v : Nat) : List CoreStart :=
  x.cores.filter fun c => v.testBit 23 || x.owners.any fun o => o == (takeBits v 11 0, 2, c.core)

/-- The cycle in which a fresh read that issues in cycle `c` returns: FRESH_TMO after it, or after the latest start instruction of its
core where that is earlier; at once where no start instruction can precede it (R59). -/
def WalkEnv.returnsAt (x : WalkEnv) (v c : Nat) : Nat :=
  (x.awaits v).foldl (fun r s => if s.first ≤ c then max r (min c s.latest + x.tmo) else r) c

/-- `n` times the function `f` on a front and what has been found; none once no path goes on. -/
def trips (f : Front → Found → Option Front × Found) (n : Nat) (s : Front) (d : Found) : Option Front × Found :=
  match n with
  | 0 => (some s, d)
  | m + 1 =>
    match f s d with
    | (some t, e) => trips f m t e
    | (none, e) => (none, e)

/-- A start instruction in cycle `c` naming the cores of `mask`. -/
def Found.start (d : Found) (cores : List CoreStart) (mask c : Nat) : Found :=
  (cores.filter fun k => mask.testBit k.core).foldl (fun d k =>
    let old := match d.starts.find? fun e => e.1 == k.core with
      | some e => e.2
      | none => 0
    { d with starts := (d.starts.filter fun e => e.1 != k.core) ++ [(k.core, max old c)] }) d

/-- An END in the given front. -/
def Found.ends (d : Found) (f : Front) : Found :=
  { d with fin := some (match d.fin with | some g => g.join f | none => f) }

/-- The instruction at address `a`, where paths stand at `f`: what it passes on, as addresses with fronts, and what it adds to the
findings. `body` walks the body of a loop. -/
def walkAt (x : WalkEnv) (body : Nat → Nat → Front → Found → Option Front × Found) (a : Nat) (f : Front) (d : Found) :
    List (Nat × Front) × Found :=
  let v := x.words.getD a 0
  let unsure := predOf v != 0
  let also := fun (b : Bool) (j : Nat) (g : Front) => if b then [(j, g)] else []
  match opOf v with
  | 0x01 => (also unsure (a + 1) (f.add 1), d.ends f)
  | 0x11 => ((takeBits v 8 0, f.add 1) :: also unsure (a + 1) (f.add 1), d)
  | 0x10 =>
    let e := takeBits v 8 0
    let r := trips (body (a + 1) e) (takeBits v 19 12) (f.add 1) d
    ((match r.1 with | some g => [(e + 1, g)] | none => []) ++ also (unsure || v.testBit 23) (e + 1) (f.add 1), r.2)
  | 0x09 => ((a + 1, ⟨x.returnsAt v f.cyc + 1, some (x.returnsAt v f.cyc + 1)⟩) :: also unsure (a + 1) (f.add 1), d)
  | 0x0C => ([(a + 1, f.add 1)], d.start x.cores (takeBits v 15 0) f.cyc)
  | op => ([(a + 1, f.add (((opUse op).map (·.cycles)).getD 1))], d)

/-- The walk over the addresses `lo` to `hi`, loops nested up to `depth` deep: where paths stand that leave it, and what was found. -/
def walk (x : WalkEnv) (depth lo hi : Nat) (s : Front) (d : Found) : Option Front × Found :=
  match depth with
  | 0 => (none, d)
  | n + 1 =>
    let r := (List.range (hi + 1 - lo)).foldl (fun (t : List (Nat × Front) × Found) (k : Nat) =>
      match t.1.find? fun e => e.1 == lo + k with
      | none => t
      | some e =>
        let o := walkAt x (walk x n) (lo + k) e.2 t.2
        (o.1.foldl (fun t g => putFront t (min g.1 (hi + 1)) g.2) t.1, o.2)) ([(lo, s)], d)
    ((r.1.find? fun e => e.1 == hi + 1).map (·.2), r.2)

/-- The words of a Wheel's program as numbers. -/
def declWords (d : WheelDecl) : List Nat := d.program.map (·.toNat)

/-- The walk over a whole program from its entry address. -/
def declWalk (d : WheelDecl) (cores : List CoreStart) (owners : List (Nat × Nat × Nat)) (tmo : Nat) : Found :=
  (walk ⟨(declWords d), cores, owners, tmo⟩ 3 d.entry ((declWords d).length - 1) ⟨0, none⟩ {}).2

/-- The earliest start instruction of core `n` in a program; none where no path meets one. -/
def firstStart (d : WheelDecl) (n : Nat) : Option Nat :=
  let p := (declWords d)
  let t := earliest p d.entry
  (List.range p.length).foldl (fun m i =>
    let v := p.getD i 0
    match t.getD i none with
    | some c => if opOf v == 0x0C && v.testBit n then some (match m with | some k => min k c | none => c) else m
    | none => m) none

/-- The latest start instructions and the waits for them, on the timelines of all members, found by turns from the starts `cores`. -/
def settleStarts (ds : List WheelDecl) (owners : List (Nat × Nat × Nat)) (tmo fuel : Nat) (cores : List CoreStart) : List CoreStart :=
  match fuel with
  | 0 => cores
  | n + 1 =>
    let found := ds.map fun d => declWalk d cores owners tmo
    let next := cores.map fun c => { c with latest := found.foldl (fun m f =>
      (f.starts.filter fun e => e.1 == c.core).foldl (fun m e => max m e.2) m) c.first }
    if next = cores then cores else settleStarts ds owners tmo n next

/-- The members of group `k` in an image. -/
def imgMembers (g : GlazeImage) (k : Nat) : List WheelDecl := g.wheels.filter fun d => d.group == some k

/-- The worst case of group `k`: the latest END of its members, which publishes (R53), and their earliest last return (R16, R50, R59). `cores` are those the CONV section
gives to the group. (DEDUCED, log entry 30.) -/
def groupWorst (g : GlazeImage) (k tmo : Nat) (cores : List Nat) : Option Front :=
  let ds := imgMembers g k
  let named := cores.filterMap fun n =>
    (ds.filterMap fun d => firstStart d n).foldl (fun m c => some (match m with | some b => min b c | none => c)) (none : Option Nat) |>.map
      fun c => (⟨n, c, c⟩ : CoreStart)
  let settled := settleStarts ds g.owners tmo 4096 named
  (ds.filterMap fun d => (declWalk d settled g.owners tmo).fin).foldl
    (fun m f => some (match m with | some e => e.join f | none => f)) none

/-- The converter cores that the image gives to group `k` (R58, R231). -/
def State.groupCores (p : State) (k : Nat) : List Nat :=
  (List.range 16).filter fun n => p.get (ADC_GROUP_MODE n) == 1 && p.get (ADC_GROUP_RG n) == k

/-- The worst case of group `k` under the image's settings. -/
def State.worstOf (p : State) (g : GlazeImage) (k : Nat) : Option Front := groupWorst g k (p.get (RGS_RG_CFG_FRESH_TMO k)) (p.groupCores k)

/-- The worst-case cycles of group `k`: the cycle of its end-of-sample (R50, R53). -/
def State.worstCycles (p : State) (g : GlazeImage) (k : Nat) : Nat :=
  match p.worstOf g k with
  | some f => f.cyc + 1
  | none => 0

/-! ### The latency (R16). Times in 1/128 ns, in which an edge step at hop step 0 is 5 and a WHEEL cycle 160 -/

/-- The pair can be aligned: its PERIOD divides EPOCH (R173). CTRL.ALIGN is firmware's and no image sets it: the loader takes it as set.
(DEDUCED, log entry 30.) -/
def State.declAligned (p : State) (n : Nat) : Bool :=
  p.get MOD_EPOCH_EPOCH != 0 && p.get (MOD_PERIOD_PERIOD n) != 0 &&
    p.get MOD_EPOCH_EPOCH % p.get (MOD_PERIOD_PERIOD n) == 0

/-- Pairs `m` and `n` have load points at the same positions: the same pair, or the same PERIOD, PHASE and NLP and both aligned (R16). -/
def State.samePoints (p : State) (m n : Nat) : Bool :=
  m == n || (p.get (MOD_PERIOD_PERIOD m) == p.get (MOD_PERIOD_PERIOD n) && p.get (MOD_PHASE_PHASE m) == p.get (MOD_PHASE_PHASE n) &&
    p.get (MOD_LOADPT_NLP m) == p.get (MOD_LOADPT_NLP n) && p.declAligned m && p.declAligned n)

/-- From a load point that triggers, directly or over groups of source 3, to the sample start of group `k`: 5.75 ns into the WHEEL
island, then PHASE + 1 cycles of each group (R48, R49); none where load points of pair `n` stand in no fixed relation to it (R16). -/
def State.startOffset (p : State) (k n fuel : Nat) : Option Nat :=
  match fuel with
  | 0 => none
  | m + 1 =>
    let here := 160 * (p.get (RGS_RG_PHASE_PHASE k) + 1)
    let i := p.get (RGS_RG_CFG_SRC_INST k)
    match p.get (RGS_RG_CFG_SRC k) with
    | 2 => if i < 9 && p.samePoints i n then some (736 + here) else none
    | 3 => if i < 8 then (p.startOffset i n m).map (· + here) else none
    | _ => none

/-- Of how many load points the trigger of group `k` takes one, over groups of source 3 (R48). -/
def State.triggerEvery (p : State) (k fuel : Nat) : Nat :=
  match fuel with
  | 0 => 1
  | m + 1 =>
    let here := p.get (RGS_RG_CFG_DIV k) + 1
    if p.get (RGS_RG_CFG_SRC k) = 3 then here * p.triggerEvery (p.get (RGS_RG_CFG_SRC_INST k)) m else here

/-- Load point `i` of a period with `nlp` can trigger a group that triggers at every `d`th, counted from the firing, at which the period
begins (R48, R51, R173). -/
def canTrigger (d nlp i : Nat) : Bool := i % Nat.gcd d nlp == Nat.gcd d nlp - 1

/-- Position of load point `i` of a period of `len` edge steps with `nlp` load points (R174). -/
def loadPos (len nlp i : Nat) : Nat := i * len / nlp

/-- The wait, times 256 + `st`, of a publication that arrives `arr` after load point `i` of pair `n` at hop step `st`, up to the load
point that latches it and, with UPD 0, on to the next period start (R16, R175, R177, R185). -/
def State.waitFrom (p : State) (n : Nat) (st : Int) (arr i : Nat) : Nat :=
  let len := p.get (MOD_PERIOD_PERIOD n)
  let nlp := p.get (MOD_LOADPT_NLP n) + 1
  let scaled := arr * (256 + st).toNat
  let from_ := loadPos len nlp i
  let due := from_ + (scaled + 1279) / 1280
  let inside := ((List.range nlp).map (loadPos len nlp)).find? fun q => due % max 1 len ≤ q
  let point := due / max 1 len * len + inside.getD len
  let until_ := if p.bit (MOD_LOADPT_UPD n) then point else (point / max 1 len + 1) * len
  (until_ - from_) * 1280 - scaled

/-- The longest wait, times 256 + `st`, of group `k`'s publication for pair `n` at hop step `st` (R16). -/
def State.waitAt (p : State) (k n cycles : Nat) (st : Int) : Nat :=
  let len := p.get (MOD_PERIOD_PERIOD n)
  let nlp := p.get (MOD_LOADPT_NLP n) + 1
  match p.startOffset k n 9 with
  | some off => ((List.range nlp).filter (canTrigger (p.triggerEvery k 9) nlp)).foldl (fun m i => max m (p.waitFrom n st (off + 160 * cycles + 1280) i)) 0
  | none => 1280 * (if p.bit (MOD_LOADPT_UPD n) then (len + nlp - 1) / nlp else len)

/-- The hop steps from −HOP_MAX to +HOP_MAX that are eligible (R185). -/
def State.eligibleSteps (p : State) : List Int :=
  let m := p.get MOD_HOP_CFG_HOP_MAX
  ((List.range (2 * m + 1)).map fun (i : Nat) => (i : Int) - m).filter p.hopEligible

/-- The worst-case sample-to-edge latency of group `k` is at most 1 µs, for every pair whose compare slot the group owns and every
eligible hop step (R16). -/
def State.latencyOk (p : State) (g : GlazeImage) (k : Nat) : Bool :=
  match p.worstOf g k with
  | none => true
  | some f =>
    let base := 44800 + 160 * (f.seg - 140)
    decide (base ≤ 128000) &&
      (nine.filter fun (n : Fin 9) => p.bit (MOD_ROUTE_USED n) && g.owners.any fun o => o == (p.get (MOD_LOADPT_CMP_SLOT n), 1, k)).all fun n =>
        p.eligibleSteps.all fun st => decide (base * (256 + st).toNat + p.waitAt k n (f.cyc + 1) st ≤ 128000 * (256 + st).toNat)

end Sys2Proof.Machine
end

