-- ==== Sys2Proof/Machine/Loader.lean ====
section
/-!
DEFINITION. The loader: the registers that an image loads, the plane it builds of them, and the checks it makes of an image
before it stages it, in an order of the model's (R26 to R37, R47, R50, R77 and the load rules of the units' chapters).
-/

namespace Sys2Proof.Machine

open Sys2Proof

/-! ### The bytes of an image (R31, R32, R35) -/

/-- The sections that may set a field of the register at address `a`: those that R33 and the chapters' register lists name for its block
(R26, R33, R172, R209, R218, R231, R407). (DEDUCED, log entry 120.) -/
def sectionsOf (a : Nat) : List Nat :=
  if a < 0x40100000 then [0xD]
  else if a < 0x42000000 then [7]
  else if a < 0x43000000 then [0xA]
  else if a < 0x43000900 ∧ a % 0x100 = (MOD_ROUTE_USED 0).addr % 0x100 then [1, 2]
  else if a < 0x44000000 then [2]
  else if a < 0x44800000 then (if a % 0x1000 = (SET_RAILS_VPOS_A 0).addr % 0x1000 ∨ a % 0x1000 = (SET_GATE_DECL_CG_A 0).addr % 0x1000 then [3] else [4])
  else if a < 0x46000000 then [5]
  else if a < 0x47000000 then [6]
  else if a < 0x48000000 then [0xB]
  else [0xC]

/-- The section that sets field `e` may do so. In RGS.SUPV the LINK section sets LINKLOSS, the WPROG section the others (R36). -/
def FieldSet.placed (e : FieldSet) : Bool :=
  if e.fld.addr = RGS_SUPV_K_MISS.addr then e.section_ == (if e.fld == RGS_SUPV_LINKLOSS then 0xC else 7)
  else (sectionsOf e.fld.addr).contains e.section_

/-- Entry `i` of the section table: 16 bytes at 0x080 + 16 i (R32). -/
def sectionAt (b : List Nat) (i : Nat) : SectionEntry :=
  let o := 0x80 + 16 * i
  { typ := leAt b o 2, flags := leAt b (o + 2) 2, offset := leAt b (o + 4) 4, length := leAt b (o + 8) 4, zero := leAt b (o + 12) 4 }

/-- The image read from the bytes `b`, with the contents of its sections as `f` gives them, each field from a section that may set it (R31
to R33). -/
def readImage (f : GlazeFile) (b : List Nat) : GlazeImage :=
  let len := leAt b 0x08 4
  { f with
    fields := f.fields.filter FieldSet.placed,
    magic := leAt b 0x00 4, format := leAt b 0x04 2, hdrLen := leAt b 0x06 2, imageLen := len, part := leAt b 0x0C 4,
    minStep := leAt b 0x10 1, cls := leAt b 0x11 1, role := leAt b 0x12 1, sectionCount := leAt b 0x13 1, imageId := leAt b 0x14 4,
    version := leAt b 0x18 4, toolVersion := leAt b 0x1C 4, digest := beAt b 0x20 32,
    zeroTail := decide (0x80 ≤ b.length) && leAt b 0x40 64 == 0, totalLen := b.length, sigLen := leAt b len 4,
    signed := (b.take len).map (BitVec.ofNat 8 ·),
    sections := (List.range (leAt b 0x13 1)).map (sectionAt b),
    shaOk := sha256 ((b.drop 0x80).take (len - 0x80)) == beAt b 0x20 32 }

/-- The bytes that the loader reads: LEN bytes of the file in the flash, or with SRC_SEL = 1 of system SRAM from SRC_ADDR on (R35). -/
def State.sourceBytes (s : State) (f : GlazeFile) : List Nat :=
  let len := s.get GLZ_LEN_LEN
  if s.bit GLZ_CTRL_SRC_SEL then (List.range len).map fun i => (s.sram.get (16 * s.get GLZ_SRC_ADDR_ADDR + i)).toNat
  else (f.bytes.take len).map (·.toNat)

/-- The source can be read: it is, and in system SRAM it lies within the 8 MiB (R35, R36 code 0x10, R402). -/
def State.sourceReads (s : State) (f : GlazeFile) : Bool :=
  f.readOk && (!s.bit GLZ_CTRL_SRC_SEL || decide (16 * s.get GLZ_SRC_ADDR_ADDR + s.get GLZ_LEN_LEN ≤ 0x800000))

/-- The image that a LOAD of `f` reads (R35). -/
def State.imageFrom (s : State) (f : GlazeFile) : GlazeImage :=
  { readImage f (s.sourceBytes f) with readOk := s.sourceReads f }

/-! ### The register table -/

/-- Offset `off` is that of an instance under the indices `dims`, outermost first; an inner index never reaches the next outer
instance. -/
def onDims (dims : List (Nat × Nat × Nat)) (off : Nat) : Bool :=
  match dims with
  | [] => off == 0
  | (_, n, st) :: t => decide (off / st < n) && onDims t (off % st)

/-- The offsets of the instances under the indices `dims`. -/
def dimOffsets (dims : List (Nat × Nat × Nat)) : List Nat :=
  match dims with
  | [] => [0]
  | (_, n, st) :: t => (List.range n).flatMap fun (i : Nat) => (dimOffsets t).map fun o => i * st + o

/-- The register that stands at address `a` (R404, R406). -/
def regAt (a : Nat) : Option RegDesc :=
  regTable.find? fun r => decide (r.base ≤ a) && decide (a ≤ r.base + r.dims.foldl (fun n d => n + (d.2.1 - 1) * d.2.2) 0) && onDims r.dims (a - r.base)

/-- The bits of field `f` in its register. -/
def FldDesc.mask (f : FldDesc) : Nat := (2 ^ (f.hi + 1 - f.lo) - 1) * 2 ^ f.lo

/-- The bits of a register's fields with access code `c`. -/
def RegDesc.maskOf (r : RegDesc) (c : Acc) : Nat := r.fields.foldl (fun m f => if f.acc == c then m ||| f.mask else m) 0

/-- Registers that an image loads although they are no RWF registers: MODn.PERIOD and MODn.PHASE (R172), WINn.THR (R209). -/
def loadsDirect (r : RegDesc) : Bool := r.name == "MODn.PERIOD" || r.name == "MODn.PHASE" || r.name == "WINn.THR"

/-- The bits of a register that an image loads (R26, R27, R172, R209). -/
def RegDesc.loadMask (r : RegDesc) : Nat := if loadsDirect r then 2 ^ 32 - 1 else r.maskOf .rwf

/-- Every register that an image loads, with the bits it loads. -/
def loadRegs : List (Nat × Nat) :=
  regTable.flatMap fun r => if r.loadMask == 0 then [] else (dimOffsets r.dims).map fun o => (r.base + o, r.loadMask)

/-- An image may set field `f`: its bits are those of a field that images load. -/
def loadable (f : Fld) : Bool :=
  (regAt f.addr).any fun r => (r.fields.any fun d => d.hi == f.hi && d.lo == f.lo && (d.acc == .rwf || loadsDirect r)) ||
    (loadsDirect r && f.hi == 31 && f.lo == 0)

/-! ### The plane -/

/-- The image holds a section of this type. -/
def imgHas (g : GlazeImage) (typ : Nat) : Bool := g.sections.any fun e => e.typ == typ

/-- The section that supplies field `f`, or `dflt` where none does (R36). -/
def imgSection (g : GlazeImage) (f : Fld) (dflt : Nat) : Nat :=
  match g.fields.find? fun e => e.fld == f with
  | some e => e.section_
  | none => dflt

/-- The interval between a group's triggers in WHEEL cycles: PERIOD for sources 1 and 4; for sources 2, 3 and 5 the shortest that
the image allows (R50). -/
def interval (p : State) (k fuel : Nat) : Nat :=
  match fuel with
  | 0 => 0
  | n + 1 =>
    let div := p.get (RGS_RG_CFG_DIV k) + 1
    let i := p.get (RGS_RG_CFG_SRC_INST k)
    match p.get (RGS_RG_CFG_SRC k) with
    | 2 => p.get (MOD_FMAX_PMIN i) * div / (32 * (p.get (MOD_LOADPT_NLP i) + 1))
    | 3 => interval p i n * div
    | 5 => p.get WLK_PLANT_CFG_PPERIOD * 800 * div
    | _ => p.get (RGS_RG_PERIOD_PERIOD k)

/-- The interval of group `k`. -/
def State.interval (p : State) (k : Nat) : Nat := Machine.interval p k 9

/-- The registers as the image sets them, at their reset values where it sets none, and its Wheels: the state in which the
loader makes its checks (R27). A unit not in use has its THR at the reset value (R209); the PERIOD of a group with source 2, 3 or 5
is derived (R50). -/
def imagePlan (g : GlazeImage) : State :=
  let base : State := { regs := resetCells }
  let p := base.each (g.fields.filter fun e => loadable e.fld && imgHas g e.section_) fun e s => s.put e.fld e.value
  let p1 := p.each (List.finRange 44) fun n s => if s.bit (WIN_CFG_EN n) then s else s.put (WIN_THR_UPPER n).whole 0x0FFF0000
  let p2 := p1.each g.wheels fun d s => if h : d.wheel < 64 then s.onWheel ⟨d.wheel, h⟩ fun x => { x with decl := d } else s
  p2.each eight fun k s =>
    let src := s.get (RGS_RG_CFG_SRC k)
    if src == 2 || src == 3 || src == 5 then s.put (RGS_RG_PERIOD_PERIOD k) (min 0xFFFFF (p2.interval k)) else s

/-- The staged plane of the state `p`: the loaded bits of each register that has any, where not zero. -/
def planeOf (p : State) : List (Nat × DWord) :=
  loadRegs.foldl (fun m (e : Nat × Nat) => cellPut m e.1 (cellGet p.regs e.1 &&& BitVec.ofNat 64 e.2)) []

/-! ### Checks: each answers the first refusal it finds -/

/-- The first refusal among the given ones, each with the condition that must hold. -/
def firstOf (l : List (Bool × Refuse)) : Option Refuse := (l.find? fun e => !e.1).map (·.2)

/-- Section types that are always sealed (R33). -/
def alwaysSealed : List Nat := [1, 2, 3, 5, 6, 7, 8, 9, 0xC, 0xD]

/-- Section types every image must hold (R33). -/
def requiredSections : List Nat := [1, 2, 3, 4, 5, 6, 7, 8, 0xB, 0xC]

/-- Two sections do not overlap. -/
def disjoint (a b : SectionEntry) : Bool := decide (a.offset + a.length ≤ b.offset) || decide (b.offset + b.length ≤ a.offset)

/-- A list of sections of which no two overlap and no two have one type (R32). -/
def sectionsApart (l : List SectionEntry) : Bool :=
  match l with
  | [] => true
  | e :: t => (t.all fun f => disjoint e f && e.typ != f.typ) && sectionsApart t

/-- Header and section table (R31 to R33, R36 code 0x04). (DEDUCED, log entry 27.) -/
def formatCheck (g : GlazeImage) (len : Nat) : Option Refuse :=
  let bad : Refuse := ⟨4, 0, 0xFFFF⟩
  let head := g.magic == 0x375A4C47 && g.format == 1 && g.hdrLen == 0x80 && g.zeroTail && decide (g.cls ≤ 4) && decide (g.role ≤ 2) &&
    decide (1 ≤ g.sectionCount) && decide (g.sectionCount ≤ 32) && g.sectionCount == g.sections.length && g.shaOk &&
    decide (g.totalLen ≤ 0x200000) && decide (g.totalLen ≤ len) && decide (g.imageLen + 4 + g.sigLen ≤ g.totalLen) && sectionsApart g.sections
  firstOf (
    [(head, bad)] ++
    g.sections.map (fun e => (decide (1 ≤ e.typ) && decide (e.typ ≤ 0xD) && e.offset % 16 == 0 && decide (e.flags ≤ 1) && e.zero == 0 &&
      decide (0x80 + 16 * g.sectionCount ≤ e.offset) && decide (e.offset + e.length ≤ g.imageLen) &&
      (!alwaysSealed.contains e.typ || e.flags == 1), ⟨4, e.typ % 256, 0xFFFF⟩)) ++
    requiredSections.map fun t => (imgHas g t, ⟨4, t, 0xFFFF⟩))

/-- Wheel programs (R77, R94). -/
def programCheck (g : GlazeImage) : Option Refuse :=
  firstOf (g.wheels.map (fun d => (programOk d, ⟨4, 7, d.wheel⟩)) ++ g.wheels.map fun d => (residOk d, ⟨7, 7, d.wheel⟩))

/-- DC legs a class allows (R29). -/
def dcLimit (cls : Nat) : Nat := if cls = 4 then 6 else if cls = 2 then 5 else 3

/-- Class limits (R29, R30, R36 code 0x05, R158). -/
def classCheck (g : GlazeImage) (p : State) : Option Refuse :=
  firstOf ([
    (!g.fourthLeg || g.cls == 2, ⟨5, 1, 0xFFFF⟩),
    (decide (g.dcLegs ≤ dcLimit g.cls), ⟨5, 1, 0xFFFF⟩),
    (!(g.cls == 2 && !g.fourthLeg && p.bit (MOD_ROUTE_USED 8)), ⟨5, 1, 8⟩)] ++
    (List.range 6).map fun (l : Nat) => (p.get (DCI_LEG_CFG_MODE l) == 0 || decide (l < dcLimit g.cls), ⟨5, 0xA, l⟩))

/-- Routing (R30, R210, R36 code 0x06). -/
def routeCheck (g : GlazeImage) (p : State) : Option Refuse :=
  firstOf (
    nine.map (fun (n : Fin 9) =>
      (!p.bit (MOD_ROUTE_USED n) || (decide (p.get (MOD_ROUTE_TILE n) < 9) &&
        nine.all fun (m : Fin 9) => m == n || !p.bit (MOD_ROUTE_USED m) || p.get (MOD_ROUTE_TILE m) != p.get (MOD_ROUTE_TILE n)), ⟨6, 1, n⟩)) ++
    nine.map (fun (n : Fin 9) => (!p.bit (MOD_REFRESH_BOOT n) || p.bit (MOD_ROUTE_USED n), ⟨6, 2, n⟩)) ++
    (List.range 8).map fun (u : Nat) => (!(g.fields.any fun e => e.fld.addr == (SIT_ROUTE_PAIRS (32 + u)).addr && e.value != 0), ⟨6, 5, 32 + u⟩))

/-! #### Ranges (R36 code 0x07) -/

/-- One range: a field, its least and largest values, the section that supplies it by default, and the instance for DETAIL. -/
structure Range where
  fld : Fld
  lo : Nat
  hi : Nat
  sec : Nat
  detail : Nat := 0xFFFF
  deriving DecidableEq, Repr

/-- A range that applies only if a condition holds. -/
def rangeIf (c : Bool) (l : List Range) : List Range := if c then l else []

/-- Pair `m` runs: MODT gives it a PERIOD in its range (R172). -/
def State.pairRuns (p : State) (m : Nat) : Bool :=
  decide (p.get (MOD_FMAX_PMIN m) ≤ p.get (MOD_PERIOD_PERIOD m)) && decide (p.get (MOD_PERIOD_PERIOD m) ≤ 256000000)

/-- Ranges of WPROG and LINK counts and of the rate groups enabled (R50, R59, R61, R62). -/
def groupRanges (p : State) : List Range :=
  [⟨RGS_SUPV_K_MISS, 1, 255, 7, 0xFFFF⟩, ⟨RGS_SUPV_M_SUBST, 1, 255, 7, 0xFFFF⟩, ⟨RGS_SUPV_LINKLOSS, 1, 255, 0xC, 0xFFFF⟩] ++
  eight.flatMap fun (k : Fin 8) => rangeIf (p.enabled k) ([
    ⟨RGS_RG_CFG_SRC k, 1, 5, 7, k⟩, ⟨RGS_RG_CFG_FRESH_TMO k, 16, 1023, 7, k⟩, ⟨RGS_RG_CFG_SWAP_SRC k, 0, 2, 7, k⟩,
    ⟨RGS_RG_PHASE_PHASE k, 0, p.interval k - 1, 7, k⟩, ⟨RGS_RG_DEADLINE_DEADLINE k, 16, p.interval k, 7, k⟩,
    ⟨RGS_RG_TRIG_TMO_TMO k, p.interval k, 2 ^ 24 - 1, 7, k⟩] ++
    rangeIf (p.get (RGS_RG_CFG_SRC k) == 1 || p.get (RGS_RG_CFG_SRC k) == 4) [⟨RGS_RG_PERIOD_PERIOD k, 200, 800000, 7, k⟩])

/-- Ranges of the pairs routed, of the maximum frequency of those that run without a tile, and of the block's hop settings (R26, R172,
R182, R185). -/
def modRanges (p : State) : List Range :=
  (nine.flatMap fun (n : Fin 9) => rangeIf (!p.bit (MOD_ROUTE_USED n) && p.pairRuns n) [⟨MOD_FMAX_PMIN n, 51200, 256000000, 2, n⟩] ++
   rangeIf (p.bit (MOD_ROUTE_USED n)) [
    ⟨MOD_FMAX_PMIN n, 51200, 256000000, 2, n⟩, ⟨MOD_PERIOD_PERIOD n, p.get (MOD_FMAX_PMIN n), 256000000, 2, n⟩,
    ⟨MOD_MINPULSE_MP_A n, 0, 1600, 2, n⟩, ⟨MOD_MINPULSE_MP_B n, 0, 1600, 2, n⟩, ⟨MOD_REFRESH_TR n, 40, 3200, 2, n⟩]) ++
  [⟨MOD_HOP_CFG_HOP_MAX, 0, 4, 2, 0xFFFF⟩, ⟨MOD_HOP_CFG_MODE, 0, 2, 2, 0xFFFF⟩] ++
  rangeIf (p.get MOD_HOP_CFG_MODE != 0) [⟨MOD_HOP_CFG_HMAX, 1, 255, 2, 0xFFFF⟩]

/-- Ranges of the tiles in use (R26, R195, R197, R198). -/
def tileRanges (p : State) : List Range :=
  nine.flatMap fun (m : Fin 9) => rangeIf (p.bit (MOD_ROUTE_USED m)) (
    let n := p.get (MOD_ROUTE_TILE m)
    [⟨SET_RAILS_VPOS_B n, 0, 26, 3, n⟩, ⟨SET_RAILS_VNEG_B n, 0, 20, 3, n⟩, ⟨SET_GATE_DECL_GS_RES_A n, 0, 100, 3, n⟩,
      ⟨SET_GATE_DECL_GS_RES_B n, 0, 100, 3, n⟩, ⟨SET_GATE_DECL_CG_A n, 1, 255, 3, n⟩, ⟨SET_GATE_DECL_CG_B n, 1, 255, 3, n⟩,
      ⟨SET_SOFTOFF_TSTO n, 2, 20, 4, n⟩, ⟨SET_SOFTOFF_VSTO n, 12, 24, 4, n⟩] ++
    [⟨SET_SOFTOFF_ISOFT n, 1, 8, 4, n⟩] ++
    rangeIf (!p.bit (MOD_REFRESH_BOOT m)) [⟨SET_RAILS_VPOS_A n, 0, 26, 3, n⟩, ⟨SET_RAILS_VNEG_A n, 0, 20, 3, n⟩] ++
    rangeIf (p.get (SET_DESAT_THR_A n) != 0) [⟨SET_DESAT_THR_A n, 30, 120, 4, n⟩, ⟨SET_DESAT_BLANK_A n, 4, 80, 4, n⟩] ++
    rangeIf (p.get (SET_DESAT_THR_B n) != 0) [⟨SET_DESAT_THR_B n, 30, 120, 4, n⟩, ⟨SET_DESAT_BLANK_B n, 4, 80, 4, n⟩] ++
    rangeIf (p.bit (MOD_REFRESH_BOOT m)) [⟨SET_BOOT_UV_THR n, 80, min 200 (110 + 5 * p.get (SET_RAILS_VPOS_B n)), 4, n⟩])

/-- Ranges of comparators, converters and metering in use (R212, R225, R231, R244, R250 to R253). -/
def measureRanges (p : State) : List Range :=
  ((List.finRange 44).flatMap fun (n : Fin 44) => rangeIf (p.bit (WIN_CFG_EN n)) (
    [⟨WIN_CFG_SENSE n, 0, 2, 5, n⟩, ⟨WIN_THR_UPPER n, 0, p.get (WIN_THR_LIM_UPPER_MAX n), 5, n⟩,
      ⟨WIN_THR_LOWER n, p.get (WIN_THR_LIM_LOWER_MIN n), 0xFFF, 5, n⟩] ++
    rangeIf (p.bit (WIN_CFG_FILT n)) [⟨WIN_CFG_MAJ_M n, 3, 7, 5, n⟩, ⟨WIN_CFG_MAJ_N n, p.get (WIN_CFG_MAJ_M n), 15, 5, n⟩])) ++
  [⟨SIT_ORDER_STOP_GAP, 10, 1000, 5, 0xFFFF⟩] ++
  ((List.range 16).flatMap fun (n : Nat) =>
    [⟨ADC_GROUP_URG_ENTRY n, 0, p.get (ADC_GROUP_NENT n), 6, n⟩,
      if p.get (ADC_GROUP_MODE n) == 1 then ⟨ADC_GROUP_WDOG n, 10, 65535, 6, n⟩ else ⟨ADC_GROUP_WDOG n, 0, 0, 6, n⟩]) ++
  rangeIf (p.bit MET_CFG_EN) [⟨MET_CFG_ARR, 0, 2, 0xB, 0xFFFF⟩, ⟨MET_THR_RF_TIME, 1, 255, 0xB, 0xFFFF⟩, ⟨MET_THR_RF_MIN, 1, 100, 0xB, 0xFFFF⟩,
    ⟨MET_THR_MN_THR, 2, 50, 0xB, 0xFFFF⟩, ⟨MET_PQ_THR_SWELL, 101, 200, 0xB, 0xFFFF⟩, ⟨MET_PQ_THR_DIP, 50, 99, 0xB, 0xFFFF⟩,
    ⟨MET_PQ_THR_INTR, 1, 20, 0xB, 0xFFFF⟩, ⟨MET_PQ_THR_HYST, 0, 100, 0xB, 0xFFFF⟩]

/-- Ranges of the grid units in use (R100 to R107, R113, R125 to R143, R158, R164). -/
def gridRanges (p : State) : List Range :=
  (four.flatMap fun (i : Fin 4) => rangeIf (p.bit (GSU_CFG_EN i)) [
    ⟨GSU_CFG_PLL_BW i, 1, 20, 0xA, i⟩, ⟨GSU_LEAD_LEAD i, 0, 100000, 0xA, i⟩, ⟨GSU_THR_ROCOF_WIN i, 2, 50, 0xA, i⟩,
    ⟨GSU_THR_MN_TIME i, 1, 255, 0xA, i⟩, ⟨GSU_THR_MN_THR i, 2, 50, 0xA, i⟩, ⟨GSU_THR_PJ_THR i, 1, 90, 0xA, i⟩]) ++
  rangeIf (p.bit RTS_CFG_EN) [⟨RTS_CFG_ENTRY, 1, 16, 0xA, 0xFFFF⟩, ⟨RTS_CFG_EXIT, 1, 16, 0xA, 0xFFFF⟩, ⟨RTS_HYST_HYST_F, 0, 50, 0xA, 0xFFFF⟩,
    ⟨RTS_HYST_HYST_V, 0, 50, 0xA, 0xFFFF⟩, ⟨RTS_NPTS_UV, 0, 32, 0xA, 0⟩, ⟨RTS_NPTS_OV, 0, 32, 0xA, 1⟩, ⟨RTS_NPTS_UF, 0, 32, 0xA, 2⟩,
    ⟨RTS_NPTS_OF, 0, 32, 0xA, 3⟩] ++
  rangeIf (p.bit ISL_CFG_EN) (
    [⟨ISL_CFG_ACTION, 0, 2, 0xA, 4⟩, ⟨ISL_LEAD_LEAD, 0, 100000, 0xA, 4⟩, ⟨ISL_XFER_ANG_BOUND, 1, 90, 0xA, 4⟩, ⟨ISL_XFER_MAG_BOUND, 1, 50, 0xA, 4⟩,
      ⟨ISL_XFER_DEFER_MAX, 1, 15, 0xA, 4⟩, ⟨ISL_XRATE_ANG_RATE, 1, 3600, 0xA, 4⟩, ⟨ISL_XRATE_MAG_RATE, 1, 1000, 0xA, 4⟩] ++
    four.map (fun (m : Fin 4) => (⟨ISL_PASS_ACTION m, 0, 2, 0xA, 4⟩ : Range)) ++
    four.flatMap (fun (m : Fin 4) => rangeIf (p.get (ISL_PASS_ACTION m) != 0)
      [⟨ISL_PASS_THR m, [10, 1, 1, 10].getD m 0, [500, 90, 100, 400].getD m 0, 0xA, 4⟩]) ++
    rangeIf (p.bit ISL_CFG_ACT_EN) [⟨ISL_ACT_PERIOD, 2, 200, 0xA, 4⟩, ⟨ISL_ACT_WIDTH, 5, min 255 (10 * p.get ISL_ACT_PERIOD - 1), 0xA, 4⟩,
      ⟨ISL_ACT_CONFIRM, 1, 8, 0xA, 4⟩, ⟨ISL_ACT_OFFSET, 0, 10 * p.get ISL_ACT_PERIOD - 1, 0xA, 4⟩, ⟨ISL_ACT2_DF_THR, 1, 50, 0xA, 4⟩,
      ⟨ISL_ACT2_DV_THR, 1, 100, 0xA, 4⟩, ⟨ISL_ACT2_PERT_MAX, 0, 100, 0xA, 4⟩, ⟨ISL_ACT2_PERT_IQ, 0, 100, 0xA, 4⟩] ++
    rangeIf (p.bit ISL_CFG_EST_EN) ([⟨ISL_EST_NSLOT, 1, 32, 0xA, 4⟩, ⟨ISL_EST_NSCALE, 1, 32, 0xA, 4⟩, ⟨ISL_EST_SPREAD, 5, 100, 0xA, 4⟩,
      ⟨ISL_EST_TW, 1, 10, 0xA, 4⟩, ⟨ISL_NOTCH_COUNT, 0, 64 - p.get ISL_NOTCH_FIRST, 0xA, 4⟩] ++
      four.flatMap (fun (k : Fin 4) => rangeIf (p.get (ISL_TONE_AMP k) != 0) [⟨ISL_TONE_AMP k, 0, 200, 0xA, 4⟩, ⟨ISL_TONE_FREQ k, 20, 2000, 0xA, 4⟩]) ++
      rangeIf (p.get ISL_NOTCH_COUNT != 0) [⟨ISL_NOTCH_ADDR, 0, 1019, 0xA, 4⟩])) ++
  rangeIf (p.bit DCI_CFG_EN) (
    [⟨DCI_CFG_NAVG, 1, 15, 0xA, 5⟩, ⟨DCI_CFG_COMP_LEG, 0, if p.get DCI_CFG_COMP_LEG == 7 then 7 else 5, 0xA, 5⟩,
      ⟨DCI_SWP_CFG_TW, 1, 100, 0xA, 5⟩, ⟨DCI_SWP_CFG_DWELL, 2, 255, 0xA, 5⟩] ++
    (List.range 6).map fun (l : Nat) => ⟨DCI_LEG_CFG_MODE l, 0, 2, 0xA, 5⟩)

/-- Ranges of the plant period (R301, R302). -/
def linkRanges (p : State) : List Range :=
  [⟨WLK_PLANT_CFG_PPERIOD, 10, 1000, 0xC, 0xFFFF⟩, ⟨WLK_PLANT_CFG_LAUNCH, 0, p.get WLK_PLANT_CFG_PPERIOD - 1, 0xC, 0xFFFF⟩]

/-- One range of a float32 field: bounds as integers over `den`. -/
structure FRange where
  fld : Fld
  lo : Int
  hi : Int
  den : Nat
  sec : Nat
  detail : Nat := 0xFFFF
  deriving DecidableEq, Repr

/-- Ranges of float32 settings of the units in use (R117, R118). -/
def floatRanges (p : State) : List FRange :=
  if p.bit RTS_CFG_EN then [⟨RTS_RCI_VALUE 0, 0, 10, 1, 0xA, 0xFFFF⟩, ⟨RTS_RCI_VALUE 1, 0, 10, 1, 0xA, 0xFFFF⟩, ⟨RTS_RCI_VALUE 2, 5, 10, 10, 0xA, 0xFFFF⟩,
    ⟨RTS_RCI_VALUE 3, 0, 15, 10, 0xA, 0xFFFF⟩, ⟨RTS_RCI_VALUE 4, 1, 15, 10, 0xA, 0xFFFF⟩, ⟨RTS_RCI_VALUE 5, 1, 10000, 100, 0xA, 0xFFFF⟩]
  else []

/-- The float ranges as checks; the bounds are the float32 nearest to the rule's decimal numbers (R36). -/
def floatChecks (g : GlazeImage) (p : State) (l : List FRange) : List (Bool × Refuse) :=
  l.map fun r =>
    let v := p.word r.fld
    ((F32.of v).isFin && !flt v (fratio r.lo r.den) && !flt (fratio r.hi r.den) v, ⟨7, imgSection g r.fld r.sec, r.detail⟩)

/-- The ranges as checks: SECTION names the section that supplies the field (R36). -/
def rangeChecks (g : GlazeImage) (p : State) (l : List Range) : List (Bool × Refuse) :=
  l.map fun r => (decide (r.lo ≤ p.get r.fld) && decide (p.get r.fld ≤ r.hi), ⟨7, imgSection g r.fld r.sec, r.detail⟩)

/-! #### Rules of the units (R36 code 0x07) -/

/-- Group `k` is triggered, over groups of source 3, by one that is not; with the fuel used up it stands in a loop. -/
def sourceEnds (p : State) (k fuel : Nat) : Bool :=
  match fuel with
  | 0 => false
  | n + 1 => if p.get (RGS_RG_CFG_SRC k) == 3 then sourceEnds p (p.get (RGS_RG_CFG_SRC_INST k)) n else true

/-- A group's trigger source is one that R50 allows. -/
def State.sourceOk (p : State) (k : Fin 8) : Bool :=
  let i := p.get (RGS_RG_CFG_SRC_INST k)
  match p.get (RGS_RG_CFG_SRC k) with
  | 2 => decide (i < 9) && p.pairRuns i
  | 3 => decide (i < 8) && i != k.val && (eight.any fun (m : Fin 8) => m.val == i && p.enabled m) && sourceEnds p k 9
  | _ => true

/-- A slot has the given owner. -/
def ownedBy (g : GlazeImage) (slot kind index : Nat) : Bool := g.owners.any fun e => e == (slot, kind, index)

/-- A step guard meets R156. -/
def State.guardOk (p : State) (g : GlazeImage) (k : Fin 8) (i : Fin 4) : Bool :=
  let step := p.word (RGS_GRD_STEP_STEP k i)
  p.get (RGS_GRD_CFG_MODE k i) == 0 ||
    (ownedBy g (p.get (RGS_GRD_CFG_SLOT k i)) 1 k && (F32.of step).isFin && flt 0 step)

/-- The intervals of a unit triggered by group `k` every `div`th time lie in a range, if that group is enabled. -/
def State.unitInterval (p : State) (k div lo hi : Nat) : Bool :=
  !(eight.any fun (m : Fin 8) => m.val == k && p.enabled m) || (decide (lo ≤ p.interval k * div) && decide (p.interval k * div ≤ hi))

/-- A ride-through curve meets R112 and R122: its levels run strictly beyond one another and lie in 0 to 1.500 pu or 40 to 70 Hz, each
region is MAND, PERM, CEASE or TRIP. -/
def State.curveOk (p : State) (c : Fin 4) : Bool :=
  let n := p.rtsPoints c
  let lev := fun (k : Nat) => p.word (RTS_PT_LEVEL_LEVEL c k)
  let lo := if c.val < 2 then fratio 0 1 else fratio 40 1
  let hi := if c.val < 2 then fratio 3 2 else fratio 70 1
  (List.range n).all fun (k : Nat) =>
    (F32.of (lev k)).isFin && !flt (lev k) lo && !flt hi (lev k) &&
    decide (1 ≤ p.get (RTS_PT_TIME_REGION c k)) && decide (p.get (RTS_PT_TIME_REGION c k) ≤ 4) && (k == 0 || beyond c (lev k) (lev (k - 1)))

/-- Tone `k` of the estimator meets R133: a multiple of 1 ÷ TW and none of the nominal frequency. -/
def State.toneOk (p : State) (k : Fin 4) : Bool :=
  let f := p.get (ISL_TONE_FREQ k)
  let nom := if p.bit (GSU_CFG_FNOM (p.get ISL_CFG_GSU)) then 60 else 50
  p.get (ISL_TONE_AMP k) == 0 || (f * p.get ISL_EST_TW % 10 == 0 && f % nom != 0)

/-- Leg `l`'s sweep meets R164: VLO below VHI, and its worst case not above TW, at the PERIOD declared for the pair where a pair
triggers it. The sum is taken exactly, in ms: with an infinite SLEW the ramps take none, with infinite voltages they have no end; a number
that is NaN and a SLEW not above 0 are refused. (DEDUCED, log entry 102.) -/
def State.sweepOk (p : State) (l : Fin 6) : Bool :=
  let lo := p.legPar l 0
  let hi := p.legPar l 1
  let sl := p.word (DCI_SWP_PAR_VALUE 0)
  let e := p.groupSpanOf (fun i => p.get (MOD_PERIOD_PERIOD i)) 256 (p.get DCI_CFG_TRIG_RG) 9
  let span : Int := 256 * p.get DCI_SWP_CFG_DWELL * (p.get DCI_CFG_DIV + 1) * e.1
  let unit : Int := 128000000 * e.2
  let tw : Int := 100 * p.get DCI_SWP_CFG_TW
  p.get (DCI_LEG_CFG_MODE l) != 1 ||
    (flt lo hi && flt 0 sl && allFin [lo, hi] &&
      (if allFin [sl] then decide (3 * (fval hi - fval lo) * unit + span * fval sl ≤ tw * unit * fval sl) else decide (span ≤ tw * unit)))

/-- The rules of the units whose breach is refused with code 0x07. -/
def unitRules (g : GlazeImage) (p : State) : List (Bool × Refuse) :=
  eight.map (fun (k : Fin 8) => (!p.enabled k || p.sourceOk k, ⟨7, 7, k⟩)) ++
  eight.flatMap (fun (k : Fin 8) => four.map fun (i : Fin 4) => (p.guardOk g k i, ⟨7, 7, 4 * k + i⟩)) ++
  nine.map (fun (n : Fin 9) => (decide (2 * p.dtOf n + p.mpA n + p.mpB n ≤ p.get (MOD_FMAX_PMIN n)), ⟨7, 2, n⟩)) ++
  [(g.role == 0 || p.get MOD_EPOCH_EPOCH != 0, ⟨7, 2, 0xFFFF⟩)] ++
  (List.finRange 44).map (fun (n : Fin 44) => (!p.bit (WIN_CFG_EN n) || !p.bit (WIN_CFG_FILT n) || p.get (WIN_CFG_MAJ_M n) % 2 == 1, ⟨7, 5, n⟩)) ++
  (List.range 16).map (fun (n : Nat) => (p.get (ADC_GROUP_MODE n) == 0 ||
    ((List.range (p.get (ADC_GROUP_NENT n) + 1)).all fun e => ownedBy g (p.get (ADC_SEQ_SLOT n e)) 2 n) &&
    (p.get (ADC_GROUP_MODE n) != 1 ||
      decide (5 * p.interval (p.get (ADC_GROUP_RG n)) + 4000 ≤ 400 * p.get (ADC_GROUP_WDOG n))), ⟨7, 6, n⟩)) ++
  four.map (fun (i : Fin 4) => (!p.bit (GSU_CFG_EN i) ||
    p.unitInterval (p.get (GSU_CFG_TRIG_RG i)) (p.get (GSU_CFG_DIV i) + 1) 4000 (2 ^ 64), ⟨7, 0xA, i⟩)) ++
  four.map (fun (c : Fin 4) => (!p.bit RTS_CFG_EN || p.curveOk c, ⟨7, 0xA, c⟩)) ++
  [(!p.bit ISL_CFG_EN || p.unitInterval (p.get ISL_CFG_TRIG_RG) (p.get ISL_CFG_DIV + 1) 4000 80000, ⟨7, 0xA, 4⟩)] ++
  four.map (fun (k : Fin 4) => (!p.bit ISL_CFG_EN || !p.bit ISL_CFG_EST_EN || p.toneOk k, ⟨7, 0xA, 4⟩)) ++
  [(!p.bit DCI_CFG_EN || p.unitInterval (p.get DCI_CFG_TRIG_RG) (p.get DCI_CFG_DIV + 1) 4000 800000, ⟨7, 0xA, 5⟩)] ++
  six.map fun (l : Fin 6) => (!p.bit DCI_CFG_EN || p.sweepOk l, ⟨7, 0xA, 5⟩)

/-- Every value and rule whose breach has code 0x07. (DEDUCED, log entry 30.) -/
def timingCheck (g : GlazeImage) (p : State) : Option Refuse :=
  firstOf (rangeChecks g p (groupRanges p ++ modRanges p ++ tileRanges p ++ measureRanges p ++ gridRanges p ++ linkRanges p) ++ floatChecks g p (floatRanges p) ++ unitRules g p)

/-! #### Latency, gate power, Wheels, spares, lanes -/

/-- Latency of the current loops (R16, R36 code 0x08). -/
def latencyCheck (g : GlazeImage) (p : State) : Option Refuse :=
  firstOf (eight.map fun (k : Fin 8) => (!(p.enabled k && p.bit (RGS_RG_CFG_CURLOOP k)) || p.latencyOk g k, ⟨8, 7, k⟩))

/-- Gate charge declared for channel `c` of tile `n`, in nC (R37). -/
def imgCharge (g : GlazeImage) (n c : Nat) : Nat :=
  match g.gate.find? fun e => e.tile == n && e.chan == c with
  | some e => e.nC
  | none => 0

/-- Gate power of channel `c` of the tile of pair `m`, times PMIN, in 1/10 W: charge × span × maximum carrier frequency (R37, R195). -/
def State.gateNum (p : State) (g : GlazeImage) (m : Fin 9) (c : Nat) : Nat :=
  let n := p.get (MOD_ROUTE_TILE m)
  let bSpan := 24 + p.get (SET_RAILS_VPOS_B n)
  let span :=
    if c = 1 then bSpan + p.get (SET_RAILS_VNEG_B n)
    else if p.bit (MOD_REFRESH_BOOT m) then bSpan
    else 24 + p.get (SET_RAILS_VPOS_A n) + p.get (SET_RAILS_VNEG_A n)
  128 * imgCharge g n c * span

/-- The module's gate power in 1/10 W as a fraction: the sum over the channels in use (R37). -/
def State.gateTotal (p : State) (g : GlazeImage) : Nat × Nat :=
  (nine.filter fun (m : Fin 9) => p.bit (MOD_ROUTE_USED m)).foldl (fun (a : Nat × Nat) (m : Fin 9) =>
    let d := max 1 (p.get (MOD_FMAX_PMIN m))
    (a.1 * d + (p.gateNum g m 0 + p.gateNum g m 1) * a.2, a.2 * d)) (0, 1)

/-- The gate power of a Glaze lies above `tenths` tenths of a watt. -/
def State.gateAbove (p : State) (g : GlazeImage) (tenths : Nat) : Bool :=
  let t := p.gateTotal g
  decide (tenths * t.2 < t.1)

/-- Gate power: 2.0 W for each channel, with a bootstrap channel A counted against B, and 24 W for the module (R36 code 0x09, R37,
R195). -/
def gateCheck (g : GlazeImage) (p : State) : Option Refuse :=
  firstOf (
    nine.map (fun (m : Fin 9) =>
      let most := 20 * p.get (MOD_FMAX_PMIN m)
      let a := p.gateNum g m 0
      let b := p.gateNum g m 1
      (!p.bit (MOD_ROUTE_USED m) ||
        (if p.bit (MOD_REFRESH_BOOT m) then decide (a + b ≤ most) else decide (a ≤ most) && decide (b ≤ most)),
        ⟨9, 3, p.get (MOD_ROUTE_TILE m)⟩)) ++
    [(!p.gateAbove g 240, ⟨9, 3, 0xFFFF⟩)])

/-- Wheel resources (R36 code 0x0A, R50, R73). -/
def wheelCheck (g : GlazeImage) (p : State) : Option Refuse :=
  firstOf (
    g.wheels.map (fun d => (decide (d.wheel < 64) && decide (d.program.length ≤ 512), ⟨0xA, 7, d.wheel⟩)) ++
    eight.map fun (k : Fin 8) => (!p.enabled k || decide (p.worstCycles g k ≤ p.interval k), ⟨0xA, 7, k⟩))

/-- The Wheels in use. -/
def imgUsed (g : GlazeImage) : List Nat := (List.range 64).filter fun w => g.wheels.any fun d => d.wheel == w && d.group.isSome

/-- The physical cells that the repair map leaves (R47). -/
def State.serviceable (s : State) : List Nat := (List.range 68).filter fun c => !s.grg.map.any fun e => e.kind == 0 && e.retired == c

/-- The map retires a resource and names no replacement (R382). -/
def State.lost (s : State) (kind inst : Nat) : Bool := s.grg.map.any fun e => e.kind == kind && e.retired == inst && e.repl.isNone

/-- Segments of channel `c` of tile `n` that can serve: seven and the spare, less those open or shorted (R205, R383). -/
def State.goodSegments (s : State) (n : Fin 9) (c : Fin 2) : Nat :=
  (List.range 8).countP fun i => !s.segBroken (2 * n.val + c.val) i

/-- Physical resources that the repair map leaves (R36 code 0x0B, R47, R205, R382). -/
def spareCheck (g : GlazeImage) (p s : State) : Option Refuse :=
  firstOf (
    [(decide ((imgUsed g).length ≤ s.serviceable.length), ⟨0xB, 7, 0xFFFF⟩)] ++
    (List.range 16).map (fun (n : Nat) => (p.get (ADC_GROUP_MODE n) == 0 || !s.lost 1 (s.placeAdc n), ⟨0xB, 6, n⟩)) ++
    (List.range 40).map (fun (n : Nat) => (!p.bit (WIN_CFG_EN n) || !s.lost 3 (((s.placeWin n).map (40 + ·)).getD n), ⟨0xB, 5, n⟩)) ++
    [(!p.bit MET_CFG_EN || (List.range 8).all fun (c : Nat) => !s.lost 2 c && !((s.grg.map.any fun e => e.kind == 2 && e.retired == c) && s.lost 2 8),
      ⟨0xB, 0xB, 0xFFFF⟩)] ++
    nine.flatMap fun (m : Fin 9) => ([0, 1] : List (Fin 2)).map fun c =>
      (!p.bit (MOD_ROUTE_USED m) || 7 ≤ s.goodSegments (Fin.ofNat 9 (p.get (MOD_ROUTE_TILE m))) c, ⟨0xB, 3, p.get (MOD_ROUTE_TILE m)⟩))

/-- Payload rate of a generation in Gb/s (R275). -/
def payloadRate (gen : Nat) : Nat := if gen = 0 then 10 else if gen = 1 then 25 else 50

/-- CTRL and REPORT traffic of chain `c` lies within 25 % of PPERIOD: every frame with its header and trailer word (R294, R302, R304). (DESIGN CHOICE, log entry 28.) -/
def State.chainTraffic (p : State) (c : Nat) : Bool :=
  let n := (List.range 32).countP fun w => w != 0 && p.bit (WLK_PENTRY_EN w) && p.get (WLK_PENTRY_CHAIN w) == c
  let words := if n = 0 then 0 else 3 + 5 * n + 5 * n
  decide (64 * words * 4 ≤ p.get WLK_PLANT_CFG_PPERIOD * 1000 * payloadRate (p.get (LANE_ROLE_GEN c)))

/-- Lane `l` meets the roles that exist and R276, which an Ethernet lane is not held to (R291). -/
def State.laneOk (p : State) (g : GlazeImage) (l : Nat) : Bool :=
  let role := p.get (LANE_ROLE_ROLE l)
  let gen := p.get (LANE_ROLE_GEN l)
  decide (role ≤ 5) &&
    (if role = 5 then decide (4 ≤ l) else gen != 3 && (gen != 2 || p.bit (LANE_ROLE_FEC l)) && (gen != 0 || !p.bit (LANE_ROLE_FEC l))) && (role != 4 || (decide (l < 4) && g.role == 1))

/-- Lane roles (R36 code 0x0C, R276, R302, R319). -/
def laneCheck (g : GlazeImage) (p : State) : Option Refuse :=
  let same := p.get (LANE_ROLE_GEN 0) == p.get (LANE_ROLE_GEN 1) && p.get (LANE_ROLE_FEC 0) == p.get (LANE_ROLE_FEC 1)
  firstOf (
    (List.range 6).map (fun (l : Nat) => (p.laneOk g l, ⟨0xC, 0xC, l⟩)) ++
    [(g.role != 2 || p.get (LANE_ROLE_ROLE 0) == 1, ⟨0xC, 0xC, 0⟩),
      (g.role != 2 || p.get (LANE_ROLE_ROLE 0) == 0 || p.get (LANE_ROLE_ROLE 1) == 0 || same, ⟨0xC, 0xC, 1⟩)] ++
    g.ringOf.map (fun e => (!(List.range 32).any fun (w : Nat) => w != 0 && p.bit (WLK_PENTRY_EN w) && p.bit (WLK_PENTRY_P4100 w) &&
      p.get (WLK_PENTRY_CHAIN w) == e.2, ⟨0xC, 0xC, e.1⟩)) ++
    (List.range 4).map fun (c : Nat) => (g.role != 1 || p.chainTraffic c, ⟨0xC, 0xC, 0xFFFF⟩))

/-! ### The load -/

/-- The stepping of this device, as SYS.REVID[7:0] gives it (R3, R31). -/
def stepping : Nat := 0x01

/-- The Saggar's part of the check: signature, unless the digest is known, and rollback (R34, R35, R36 codes 0x01 and 0x02). A digest
stays known through a rotation of the Glaze key and a release of the owner, until the next reset. (DESIGN CHOICE, log entry 90.) -/
def State.sealCheck (s : State) (g : GlazeImage) : Option Refuse :=
  firstOf [
    (s.glz.verified.contains g.digest || (s.sag.lifecycle == 2 && !s.sag.error &&
      (s.sag.keyGlz.any fun k => hssOk k { head := g.signed } g.sig && g.sigLen == hssLen g.sig)), ⟨1, 0, 0xFFFF⟩),
    (decide (s.get SAG_ROLLBACK_GLZ_VALUE ≤ g.version), ⟨2, 0, 0xFFFF⟩),
    (g.part == 0x7180 && decide (g.minStep ≤ stepping), ⟨3, 0, 0xFFFF⟩)]

/-- What the loader finds of image `g`, whose plan is `p`: the first refusal, or none (R35, R36). (DESIGN CHOICE, log entry 26.) -/
def State.loadCheck (s : State) (g : GlazeImage) (p : State) : Option Refuse :=
  (if g.readOk then none else some ⟨0x10, 0, 0xFFFF⟩).or <|
  (formatCheck g (s.get GLZ_LEN_LEN)).or <| (s.sealCheck g).or <| (programCheck g).or <| (classCheck g p).or <| (routeCheck g p).or <|
  (timingCheck g p).or <| (latencyCheck g p).or <| (gateCheck g p).or <| (wheelCheck g p).or <| (spareCheck g p s).or <| laneCheck g p

/-- One step of the placement: a Wheel on the cell of its own number, else on the replacement that the map names for that cell, else
on the first free cell (R47). -/
def State.placeWheel (s : State) (homes : List Nat) (m : List (Nat × Nat)) (w : Nat) : List (Nat × Nat) :=
  if s.serviceable.contains w && !m.any fun e => e.2 == w then m ++ [(w, w)]
  else
    let free := s.serviceable.filter fun c => !homes.contains c && !m.any fun e => e.2 == c
    let named := match s.grg.map.find? fun e => e.kind == 0 && e.retired == w with
      | some e => (match e.repl with | some r => free.filter (· == r) | none => [])
      | none => []
    match named ++ free with
    | c :: _ => m ++ [(w, c)]
    | [] => m

/-- The placement that the loader computes of logical Wheels on physical cells: those in use first, then the others as far as cells
remain (R35, R47). (DESIGN CHOICE, log entry 29.) -/
def State.placementOf (s : State) (g : GlazeImage) : Placement :=
  let others := (List.range 64).filter fun w => !(imgUsed g).contains w
  { wheels := (imgUsed g ++ others).foldl (s.placeWheel ((imgUsed g).filter fun w => s.serviceable.contains w)) [] }

end Sys2Proof.Machine
end

