-- ==== Sys2Proof/Machine/Sitter.lean ====
section
/-!
DEFINITION. The window comparators and the Sitter: trip units, privileged units, self-tests, cycle trips, block stops
and plant stops (11_sitter_and_window_comparators.md).
-/

namespace Sys2Proof.Machine

open Sys2Proof

/-- A trip unit, or a spare standing for one (R210). -/
def isTripUnit (n : Fin 44) : Bool := n.val < 32

/-- A privileged unit (R210). -/
def isPrivUnit (n : Fin 44) : Bool := 32 ≤ n.val && n.val < 40

/-- The unit whose Sitter line a comparator drives: its own, or that of the unit a spare shadows or carries (R216). -/
def State.lineOf (s : State) (n : Fin 44) : Option Nat :=
  if n.val < 32 then some n.val
  else if 40 ≤ n.val then (match s.wins[n].shadowOf with | some k => if k < 32 then some k else none | none => none)
  else none

/-- The pairs guarded by trip unit `k` (R218). -/
def State.guarded (s : State) (k : Nat) : List (Fin 9) := nine.filter fun p => s.bitAt (SIT_ROUTE_PAIRS k) p

/-- An assertion on the line of unit `k` reaches the Sitter: the guarded pairs are cut; a STOP-class unit also latches a
block stop with cause TRIP (R218, R220). Nothing is gated anew before the first firing or in phase 0x5 (R44). -/
def State.tripLine (s : State) (k : Nat) (latches : Bool) : State :=
  if !s.fired then s
  else
    let r := s.cutPairs (s.guarded k)
    if s.bit (SIT_ROUTE_CLASS k) && latches then r.1.raiseStopAlso .trip k r.2
    else r.1.coneIf r.2 (((s.guarded k).head?).getD 0).val

/-- A privileged unit changes STATE: capture of the epoch counter, CAP_COUNT, the interrupt, the wake signal and the
urgent request, as configured (R214, R235). -/
def State.winChange (s : State) (n : Fin 44) (side : WinSide) (idle : BitVec 16) : State :=
  if !isPrivUnit n || s.get (WIN_STATUS_STATE n) == 2 || s.get (WIN_STATUS_STATE n) == side.code then s
  else
    let s1 := s.when s.wins[n].capUnread (·.put (WIN_STATUS_CAP_OVR n) 1)
    let s2 := ((s1.put (WIN_STATUS_STATE n) side.code).put (WIN_CAP_EPOCH_CNT n) s.mod.epochCnt).incWrap (WIN_CAP_COUNT_COUNT n)
    let s3 := s2.onWin n fun w => { w with capUnread := true }
    let s4 := s3.when (s.bit (WIN_CTRL_IRQ n)) (·.putBit WIN_INT_EDGE (n.val - 32) true)
    let s5 := s4.when (s.bit (WIN_CFG_IRQ_WAKE n)) fun s => s.withPwr { s.pwr with wakeDue := true }
    s5.adcUrgentFrom n idle

/-- The side of its thresholds on which a unit sees its input at `side`: sense HIGH has no lower threshold, sense LOW no upper one (R208). -/
def State.sensed (s : State) (n : Fin 44) (side : WinSide) : WinSide :=
  match s.get (WIN_CFG_SENSE n), side with
  | 1, .below => .inside
  | 2, .above => .inside
  | _, x => x

/-- The majority filter of a unit with FILT = 1 lets a change through: at least MAJ_M of the last MAJ_N samples of the comparator, newest in
bit 0 of `seen`, show the new state (R212). A unit with FILT = 0 has none. -/
def State.majority (s : State) (n : Fin 44) (seen : BitVec 15) : Bool :=
  !s.bit (WIN_CFG_FILT n) ||
    decide (s.get (WIN_CFG_MAJ_M n) ≤ (List.range (s.get (WIN_CFG_MAJ_N n))).countP fun i => seen.toNat.testBit i)

/-- A comparator's output asserts or deasserts after chatter suppression (R208, R211, R213). -/
def State.winSet (s : State) (n : Fin 44) (side : WinSide) (idle : BitVec 16) : State :=
  let w := s.wins[n]
  let s0 := s.onWin n fun w => { w with raw := side.code }
  if !w.enabled then s0
  else if w.blank then s0.onWin n fun w => { w with blankHeld := some side.code }
  else if s.bit (WIN_STATUS_FORCED n) || w.testing then s0
  else if isPrivUnit n then (s0.winChange n side idle).putB (WIN_STATUS_ASSERTED n) (side != .inside)
  else
    let s1 := (s0.put (WIN_STATUS_STATE n) side.code).putB (WIN_STATUS_ASSERTED n) (side != .inside)
    if side == .inside then s1
    else
      match s.lineOf n with
      | some k => s1.tripLine k true
      | none => s1

/-- WIN_ASSERT: a comparator output asserts on the given side, if its sense watches that side and its filter lets the change through
(R208, R212, R218, R220). -/
def execWinAssert (n : Fin 44) (x : WinSight) (s : State) : Host.Outcome State Fault Refusal :=
  .next (if s.sensed n x.side == .inside || !s.majority n x.seen then s else s.winSet n x.side x.idle)

/-- WIN_DEASSERT: the input has returned beyond the hysteresis band (R208, R212). -/
def execWinDeassert (x : WinSeen) (s : State) : Host.Outcome State Fault Refusal :=
  .next (if s.majority x.unit x.seen then s.winSet x.unit .inside 0 else s)

/-- The side of a STATE code. -/
def sideOf (c : Nat) : WinSide := if c = 1 then .above else if c = 3 then .below else .inside

/-- WIN_BLANK_END: the blanking line falls; a crossing that persists takes effect at that instant (R211). -/
def execWinBlankEnd (x : WinIdle) (s : State) : Host.Outcome State Fault Refusal :=
  .next (
    let s1 := s.onWin x.unit fun w => { w with blank := false, blankHeld := none }
    match s.wins[x.unit].blankHeld with
    | some c => s1.winSet x.unit (sideOf c) x.idle
    | none => s1)

/-- WIN_THR_WRITE: taken only within THR_LIM, else ignored as a whole and counted; a shadow in place takes it too (R208,
R216). -/
def winThrOp (n : Fin 44) (v : Word) (s : State) : State :=
  let upper := v.toNat / 2 ^ 16 % 4096
  let lower := v.toNat % 4096
  if upper ≤ s.get (WIN_THR_LIM_UPPER_MAX n) ∧ s.get (WIN_THR_LIM_LOWER_MIN n) ≤ lower then
    let put := fun (s : State) (k : Fin 44) =>
      ((s.put (WIN_THR_UPPER k) upper).put (WIN_THR_LOWER k) lower).put (WIN_THR_HYST k) (v.toNat / 2 ^ 12 % 8)
    match s.wins[n].shadow with
    | some x => if h : x < 44 then put (put s n) ⟨x, h⟩ else put s n
    | none => put s n
  else s.inc (WIN_STATUS_REFUSED_WR n)

/-- WIN_THR_WRITE (R208). -/
def execWinThrWrite (n : Fin 44) (v : Word) (s : State) : Host.Outcome State Fault Refusal :=
  .next (s.access .sense (some (.winThrWrite n v)) (winThrOp n v))

/-- A unit is enabled: a trip unit or a spare is forced asserted, a privileged unit reads unresolved (R213). -/
def State.winEnable (s : State) (n : Fin 44) : State :=
  let s1 := s.onWin n fun w => { w with enabled := true, blank := false, blankHeld := none }
  if isPrivUnit n then ((s1.put (WIN_STATUS_STATE n) 2).put (WIN_STATUS_ASSERTED n) 0).onWin n fun w => { w with testing := false }
  else (s1.put (WIN_STATUS_FORCED n) 1).put (WIN_STATUS_ASSERTED n) 0

/-- The shadow of unit `n` is withdrawn (R216). -/
def State.shadowDrop (s : State) (n : Fin 44) : State :=
  match s.wins[n].shadow with
  | none => s
  | some x =>
    let s1 := (s.onWin n fun w => { w with shadow := none }).put (WIN_STATUS_SHADOW_OK n) 0
    if h : x < 44 then
      (((s1.onWin ⟨x, h⟩ fun w => { w with shadowOf := none, enabled := false }).put (WIN_STATUS_FORCED x) 0).put (WIN_STATUS_ASSERTED x) 0)
    else s1

/-- WIN_RELEASE: the input has stayed on one side, outside every hysteresis band, for the release interval. A forced trip unit whose
input lies on the safe side is released and, after a self-test, reconnected and its shadow withdrawn; a privileged unit resolves to the
side on which its input lies, without capture or interrupt. While a self-test runs the unit has another input, and nothing comes of it
(R213, R215, R216). -/
def execWinRelease (n : Fin 44) (side : WinSide) (s : State) : Host.Outcome State Fault Refusal :=
  .next (
    let side := s.sensed n side
    if !s.wins[n].enabled || s.bit (WIN_STATUS_TEST_BUSY n) then s
    else if isPrivUnit n then s.when (s.get (WIN_STATUS_STATE n) == 2) fun s =>
      (s.put (WIN_STATUS_STATE n) side.code).putB (WIN_STATUS_ASSERTED n) (side != .inside)
    else if s.bit (WIN_STATUS_FORCED n) && side == .inside then
      let s1 := ((s.put (WIN_STATUS_FORCED n) 0).put (WIN_STATUS_ASSERTED n) 0).put (WIN_STATUS_STATE n) side.code
      if s.wins[n].testing then (s1.onWin n fun w => { w with testing := false }).shadowDrop n else s1
    else s)

/-- WIN_STATE_CHANGE: the input of a privileged unit comes to another side; once resolved the unit changes STATE, after its blanking line
has fallen (R211, R212, R214). -/
def execWinStateChange (n : Fin 44) (x : WinSight) (s : State) : Host.Outcome State Fault Refusal :=
  .next (
    if isPrivUnit n && s.majority n x.seen then s.winSet n (s.sensed n x.side) x.idle else s)

/-- A self-test request is refused (R215). -/
def State.selftestRefused (s : State) (n : Fin 44) : Bool :=
  s.bit (WIN_STATUS_TEST_BUSY n) || s.phase == 5 ||
  (isTripUnit n && !s.bit (WIN_STATUS_SHADOW_OK n) &&
    (s.guarded n.val).any fun p => (s.tileOf p).any fun t => s.bit (SET_STATUS_ARMED t))

/-- A refused self-test (R215). -/
def State.selftestRefuse (s : State) (n : Fin 44) : State := (s.put (WIN_STATUS_TEST_RESULT n) 3).inc (WIN_STATUS_REFUSED_WR n)

/-- SELFTEST (R215). -/
def selftestOp (n : Fin 44) (s : State) : State :=
  if s.selftestRefused n then s.selftestRefuse n
  else (s.put (WIN_STATUS_TEST_BUSY n) 1).onWin n fun w => { w with testing := true }

/-- SELFTEST: starts a comparator's self-test or is refused (R215). -/
def execSelftest (n : Fin 44) (s : State) : Host.Outcome State Fault Refusal :=
  .next (s.access .sense (some (.selftest n)) (selftestOp n))

/-- Hysteresis of a HYST code in mV (R207). -/
def hystMv (c : Nat) : Nat := [0, 5, 10, 15, 20, 30, 40, 50].getD c 0

/-- TEST_OFS of a self-test: the mean of the two codes minus 2,048 (R215). -/
def testOfs (up down : Nat) : Int := ((up + down) / 2 : Nat) - 2048

/-- The self-test passes: |TEST_OFS| at most 8 and the measured hysteresis within 4 codes of HYST (R215). -/
def testPass (hyst up down : Nat) : Bool :=
  decide ((testOfs up down).natAbs ≤ 8) &&
    decide ((((up : Int) - down) * 3000 - (hystMv hyst * 4096 : Nat)).natAbs ≤ 4 * 3000)

/-- SELFTEST_DONE: the test ends, its offset and result are recorded, and the unit is enabled again under R213 (R215); a privileged unit is
reconnected at once, and its shadow withdrawn (R216). The offset goes to Grog as comparator drift (R385). -/
def execSelftestDone (n : Fin 44) (up down : Nat) (s : State) : Host.Outcome State Fault Refusal :=
  .next (
    if !s.bit (WIN_STATUS_TEST_BUSY n) then s
    else
      let s1 := ((s.put (WIN_STATUS_TEST_BUSY n) 0).putI (WIN_STATUS_TEST_OFS n) (testOfs up down)).put (WIN_STATUS_TEST_RESULT n)
        (if testPass (s.get (WIN_THR_HYST n)) up down then 1 else 2)
      ((s1.winEnable n).when (isPrivUnit n) (·.shadowDrop n)).grogWinDrift n (testOfs up down)
        (testPass (s.get (WIN_THR_HYST n)) up down))

/-- SHADOW: Grog lends a free spare to guard the unit, with its input, thresholds and settings; its forced assertion at enabling cuts the
pairs the unit guards (R218); with none free the request is refused and counted (R216). (DEDUCED, log entry 53.) -/
def shadowOp (n : Fin 44) (s : State) : State :=
  match spares.find? fun x => s.wins[x].shadowOf.isNone && s.grogSpareWin x with
  | some x =>
    if s.wins[n].shadow.isSome || 40 ≤ n.val then s.inc (WIN_STATUS_REFUSED_WR n)
    else
      let s1 := s.withRegs (cellPut s.regs (WIN_CFG_EN x).addr (cellGet s.regs (WIN_CFG_EN n).addr))
      let s2 := s1.withRegs (cellPut s1.regs (WIN_THR_UPPER x).addr (cellGet s1.regs (WIN_THR_UPPER n).addr))
      let s3 := (s2.onWin n fun w => { w with shadow := some x.val }).onWin x fun w => { w with shadowOf := some n.val }
      let s4 := (s3.put (WIN_STATUS_SPARE n) (x.val - 40)).winEnable x
      if isTripUnit n then s4.tripLine n.val false else s4
  | none => s.inc (WIN_STATUS_REFUSED_WR n)

/-- SHADOW (R216). -/
def execShadow (n : Fin 44) (s : State) : Host.Outcome State Fault Refusal :=
  .next (s.access .sense (some (.shadow n)) (shadowOp n))

/-- SHADOW_READY: the spare's thresholds have settled and it has been released; SHADOW_OK sets (R216). -/
def execShadowReady (n : Fin 44) (s : State) : Host.Outcome State Fault Refusal :=
  .next (
    match s.wins[n].shadow with
    | some x => if s.bit (WIN_STATUS_FORCED x) then s else s.put (WIN_STATUS_SHADOW_OK n) 1
    | none => s)

/-- PAIR_STAT_CLEAR: each written bit clears, or is refused and counted while that pair's trip input is active (R221). -/
def pairStatOp (mask : BitVec 9) (s : State) : State :=
  s.each nine fun p s =>
    if !mask.toNat.testBit p.val then s
    else if s.tripInput p then (s.inc SIT_REFUSED_COUNT).put SIT_INT_REFUSED 1
    else s.putBit SIT_TRIP_PAIR_STAT p false

/-- PAIR_STAT_CLEAR (R221). -/
def execPairStatClear (mask : BitVec 9) (s : State) : Host.Outcome State Fault Refusal :=
  .next (s.access .mod (some (.pairStatClear mask)) (pairStatOp mask))

/-- SAFE_ORDER_STAGE2: STOP_GAP after the latch the stage-2 channels turn off (R225). -/
def execSafeOrderStage2 (s : State) : Host.Outcome State Fault Refusal :=
  .next (
    if s.get SIT_STATUS_STAGE == 1 then
      (s.each channels fun (n, c) s => s.when ((s.chan n c).stopDue && s.bit (SET_CH_STATUS_ON n c)) (·.chanOff n c)).put
        SIT_STATUS_STAGE 2
    else s)

/-- A tile's channels are all off and no soft turn-off runs (R225). -/
def State.tileOff (s : State) (n : Fin 9) : Bool :=
  [(0 : Fin 2), 1].all fun c => !s.bit (SET_CH_STATUS_ON n c) && (s.chan n c).soft == .idle

/-- SAFE_ORDER_TILE_DONE: the tile's channels are off or done with soft turn-off; the Sitter disarms it and completes the
order after the last tile (R225). -/
def execSafeOrderTileDone (n : Fin 9) (s : State) : Host.Outcome State Fault Refusal :=
  .next (
    if s.sit.orderTiles.contains n.val && s.tileOff n then
      let s1 := s.disarm n
      let rest := s1.sit.orderTiles.filter (· != n.val)
      let s2 := s1.withSit { s1.sit with orderTiles := rest }
      if rest.isEmpty then s2.safeDone else s2
    else s)

/-- A refused clear of the Sitter (SIT.REFUSED). -/
def State.sitRefuse (s : State) : State := (s.inc SIT_REFUSED_COUNT).put SIT_INT_REFUSED 1

/-- STOP (R223, R226). -/
def stopOp (alsoClear : Bool) (s : State) : State := (s.raiseStop .firmware 0).when alsoClear (·.sitRefuse)

/-- STOP: SIT.CTRL.STOP raises a block stop with cause FIRMWARE; a write that sets CLEAR_STOP too has that part refused
and counted (R223, R226). -/
def execStop (alsoClear : Bool) (s : State) : Host.Outcome State Fault Refusal :=
  .next (s.access .mod (some (.stop alsoClear)) (stopOp alsoClear))

/-- CLEAR_STOP; a safe order under way goes on to its end (R148, R225, R226). -/
def clearStopOp (s : State) : State :=
  if s.activeCauses != 0 then s.sitRefuse
  else
    let s1 := (((s.put SIT_CAUSE_CAUSE 0).put SIT_FIRST_VALID 0).put SIT_FIRST_DETAIL 0).put SIT_FIRST_CODE 0
    let s2 := ((s1.put SIT_STATUS_BLOCK_STOP 0).put SIT_STATUS_SAFE_DONE 0).when s.sit.orderTiles.isEmpty (·.put SIT_STATUS_STAGE 0)
    s2.withSit { s2.sit with plausSources := [] }

/-- CLEAR_STOP: clears the block stop, or is refused as a whole while a latched cause is active (R226). -/
def execClearStop (s : State) : Host.Outcome State Fault Refusal := .next (s.access .mod (some .clearStop) clearStopOp)

/-- PLANT_STOP: SIT.CTRL.PLANT_STOP raises a plant stop on a manager (R227). -/
def plantStopOp (s : State) : State :=
  if s.isManager then (s.withSit { s.sit with plantFw := true }).plantRefresh else s

/-- PLANT_STOP (R227). -/
def execPlantStop (s : State) : Host.Outcome State Fault Refusal := .next (s.access .mod (some .plantStop) plantStopOp)

/-- CLEAR_PLANT: ends the plant stop, or is refused and counted while a cause other than the firmware's own is active
(R227). -/
def clearPlantOp (s : State) : State :=
  let s1 := s.withSit { s.sit with plantFw := false }
  if !s.isManager then s
  else if s1.plantCause || s.glz.firePlantCause then s.sitRefuse
  else s1.put SIT_STATUS_PLANT_OUT 0

/-- CLEAR_PLANT (R227). -/
def execClearPlant (s : State) : Host.Outcome State Fault Refusal := .next (s.access .mod (some .clearPlant) clearPlantOp)

/-- The comparators and the Sitter as a firing puts a new Glaze in force: tests aborted, shadows withdrawn, the units of
the new Glaze enabled and forced; THR takes its initial value from the TRIP section, or the reset value (R209, R213, R228). -/
def State.winFiring (s : State) (n : Fin 44) : State :=
  let s1 := (s.shadowDrop n).when (s.bit (WIN_STATUS_TEST_BUSY n)) fun s =>
    (s.put (WIN_STATUS_TEST_BUSY n) 0).put (WIN_STATUS_TEST_RESULT n) 3
  let s2 := (s1.onWin n fun w => { w with testing := false, enabled := false, capUnread := false }).put (WIN_CAP_COUNT_COUNT n) 0
  if s2.bit (WIN_CFG_EN n) then s2.winEnable n
  else (s2.put (WIN_STATUS_FORCED n) 0).put (WIN_STATUS_ASSERTED n) 0

end Sys2Proof.Machine
end

