-- ==== Sys2Proof/Machine/Firing.lean ====
section
/-!
DEFINITION. Loading and firing a Glaze: the commands of GLZ.CTRL, the end of a load, and a firing up to the point at which the new
Glaze is in force (02_glaze_structure_and_firing.md).
-/

namespace Sys2Proof.Machine

open Sys2Proof

/-- The loader's state updated. -/
def State.onGlz (s : State) (f : GlzState → GlzState) : State := s.withGlz (f s.glz)

/-- GLZ.STATUS.RESULT, GLZ.REFUSE and INT.REFUSED as a refusal leaves them (R36). -/
def State.glzRefuse (s : State) (r : Refuse) : State :=
  ((((s.put GLZ_STATUS_RESULT 2).put GLZ_REFUSE_CODE r.code).put GLZ_REFUSE_SECTION r.section_).put GLZ_REFUSE_DETAIL r.detail).put
    GLZ_INT_REFUSED 1

/-- A command has ended successfully: RESULT DONE, REFUSE 0 (R36, R39). -/
def State.glzDone (s : State) : State := ((s.put GLZ_STATUS_RESULT 1).put GLZ_REFUSE_CODE.whole 0).put GLZ_STATUS_BUSY 0

/-! ### Loading (R35 to R38, R44) -/

/-- LOAD written: refused while a load or a firing runs; else an earlier staged image is discarded and the load starts (R38, R44). -/
def loadOp (g : GlazeFile) (s : State) : State :=
  if s.glz.load.isSome || s.glz.fireWait || s.phase == 5 then s.glzRefuse ⟨0xD, 0, 0xFFFF⟩
  else ((s.discardStaged.put GLZ_STATUS_BUSY 1).put GLZ_STATUS_PROGRESS 0).onGlz fun x => { x with load := some { image := s.imageFrom g } }

/-- LOAD: GLZ.CTRL.CMD = 1; `g` is what stands at GLZ.SRC_ADDR (R35). -/
def execLoad (g : GlazeFile) (s : State) : Host.Outcome State Fault Refusal := .next (s.access .host none (loadOp g))

/-- The running load ends in a refusal: a converter enabled during the first load stops again (R38, R370). -/
def State.loadRefused (s : State) (r : Refuse) : State :=
  let s1 := ((s.glzRefuse r).put GLZ_STATUS_BUSY 0).onGlz fun x => { x with load := none }
  s1.when s1.pwr.firstLoad (·.gpStop)

/-- The Saggar has verified the image's content and signature (R35). -/
def State.sealed (s : State) (g : GlazeImage) : Bool :=
  g.readOk && (formatCheck g (s.get GLZ_LEN_LEN)).isNone && ((s.sealCheck g).all fun r => r.code != 1)

/-- The first successful load enables each of PLL1 to PLL6 that is not enabled and whose configuration allows it (R269). -/
def State.enableIslands (s : State) : State :=
  if s.glz.islandsEnabled then s
  else
    (s.each ([1, 2, 3, 4, 5, 6] : List (Fin 7)) fun n s => s.when (!s.bit (CLK_PLL_CTRL_EN n) && s.pllOk n) (·.pllEnable n)).onGlz
      fun x => { x with islandsEnabled := true }

/-- The image is staged: staging region, placement, planes, phase, identity (R35, R38). -/
def State.stage (s : State) (g : GlazeImage) (p : State) : State :=
  let staged : Glaze := { image := g, placement := s.placementOf g, mapVersion := s.grg.mapVersion, digest := g.digest }
  let s0 := (s.withSram (s.sram.staged s.free)).tookFree
  let s1 := s0.onGlz fun x => { x with load := none, staged := some staged, plane := planeOf p }
  let s2 := ((s1.put SYS_STATE_PHASE (if s.phase == 1 then 2 else 4)).put GLZ_STAGED_ID_IMAGE_ID g.imageId).put
    GLZ_STAGED_VER_IMAGE_VERSION g.version
  let s3 := (s2.glzDone.put GLZ_INT_LOAD_DONE 1).onPwr fun x => { x with firstLoad := false }
  s3.enableIslands.when (s.glz.active.isNone && s.bit PWR_GP_CTRL_EN) (·.serve g)

/-- LOAD_COMPLETE: the running load ends: refused with the first cause the loader finds, or staged (R35, R36, R38). (DEDUCED, log entry 31.) -/
def execLoadComplete (s : State) : Host.Outcome State Fault Refusal :=
  .next (
    match s.glz.load with
    | none => s
    | some l =>
      let g := l.image
      let p := imagePlan g
      let s1 := (s.when (s.sealed g && !s.glz.verified.contains g.digest) (·.onGlz fun x => { x with verified := g.digest :: x.verified })).put
        GLZ_STATUS_PROGRESS (g.totalLen / 1024)
      match s.loadCheck g p with
      | some r => s1.loadRefused r
      | none => s1.stage g p)

/-- LOADER_GATE_CHECK_DONE: the running load's GATE section and gate power have been checked; the converter enabled during the first
load then powers the tiles the image uses (R370). -/
def execLoaderGateCheckDone (s : State) : Host.Outcome State Fault Refusal :=
  .next (
    match s.glz.load with
    | none => s
    | some l =>
      let p := imagePlan l.image
      let ok := s.sealed l.image && (s.sealCheck l.image).isNone && (gateCheck l.image p).isNone &&
        (firstOf (rangeChecks l.image p ((tileRanges p).filter fun (r : Range) => r.sec == 3))).isNone
      if ok then
        (s.onGlz fun x => { x with load := some { l with gateChecked := true } }).when (s.pwr.firstLoad && s.glz.active.isNone)
          (·.serve l.image)
      else s)

/-- ABORT_LOAD written (R38). -/
def abortLoadOp (s : State) : State := s.when s.glz.load.isSome (·.loadRefused ⟨4, 0, 0xFFFF⟩)

/-- ABORT_LOAD: GLZ.CTRL.CMD = 4: a running load ends as a refusal with code 0x04 (R38). -/
def execAbortLoad (s : State) : Host.Outcome State Fault Refusal := .next (s.access .host none abortLoadOp)

/-- DISCARD written: a staged image is dropped, unless its firing has been accepted (R38). -/
def discardOp (s : State) : State := s.when (!s.glz.fireWait) (·.discardStaged)

/-- DISCARD: GLZ.CTRL.CMD = 3: drops a staged image; in another phase it has no effect (R38). -/
def execDiscard (s : State) : Host.Outcome State Fault Refusal := .next (s.access .host none discardOp)

/-! ### Firing (R39 to R44) -/

/-- The refusal of a FIRE, if any: busy, nothing staged, supply derated with gate power above 6 W, content changed, map changed (R36). -/
def State.fireRefusal (s : State) (intact : Bool) : Option Refuse :=
  if s.glz.load.isSome || s.glz.fireWait || s.phase == 5 then some ⟨0xD, 0, 0xFFFF⟩
  else
    match s.glz.staged with
    | none => some ⟨0xE, 0, 0xFFFF⟩
    | some g =>
      if s.bit PWR_STATUS_DERATED && (imagePlan g.image).gateAbove g.image 60 then some ⟨0xF, 0, 0xFFFF⟩
      else if !intact then some ⟨0x11, 0, 0xFFFF⟩
      else if g.mapVersion != s.grg.mapVersion then some ⟨0x12, 0, 0xFFFF⟩
      else none

/-- Some block of the plant is armed, as the manager knows it (R43). -/
def State.plantArmed (s : State) : Bool := s.isManager && (s.anyArmed || !s.wlk.armed.isEmpty)

/-- FIRE written: refused, or accepted: a manager's plant stop, the block stop of armed Setters, the Cone (R39 steps 1 to 3, R43, R392). (DEDUCED, log entry 34.) -/
def fireOp (intact : Bool) (s : State) : State :=
  match s.fireRefusal intact with
  | some r => s.glzRefuse r
  | none =>
    let s1 := (s.put GLZ_STATUS_BUSY 1).onGlz fun x => { x with fireWait := true, firePlantCause := s.plantArmed }
    let s2 := s1.when s.plantArmed (·.plantRefresh)
    if !s.anyArmed then s2.cone srcFiring 0 0
    else if s.bit SIT_STATUS_BLOCK_STOP then (s2.raiseStop .firing 0).cone srcFiring 0 0
    else s2.raiseStop .firing 0

/-- FIRE: GLZ.CTRL.CMD = 2; `intact` says that the staged content still matches the digest the Saggar verified (R39). -/
def execFire (intact : Bool) (s : State) : Host.Outcome State Fault Refusal := .next (s.access .host none (fireOp intact))

/-- The staged planes in force: in each register that images load, the loaded bits (R39 step 5). -/
def State.planesInForce (s : State) : State :=
  s.withRegs (loadRegs.foldl (fun m (e : Nat × Nat) =>
      let mask := BitVec.ofNat 64 e.2
      cellPut m e.1 ((cellGet m e.1 &&& ~~~mask) ||| (cellGet s.glz.plane e.1 &&& mask))) s.regs)

/-- A field's place in the order of the firing digest. -/
def fieldPlace (e : FieldSet) : Nat := 64 * e.fld.addr + e.fld.lo

/-- `e` inserted into a list in the order of the firing digest. -/
def fieldInsert (e : FieldSet) (l : List FieldSet) : List FieldSet :=
  match l with
  | [] => [e]
  | f :: t => if fieldPlace e ≤ fieldPlace f then e :: f :: t else f :: fieldInsert e t

/-- The bytes of which the firing digest is the SHA-256: CONTENT_DIGEST, then the values in force of the fields of every trimmable
section as 32-bit little-endian words, sections in table order, fields in ascending register address (R341). (DESIGN CHOICE, log entry 32.) -/
def State.firingDigestOver (s : State) (g : GlazeImage) : List Nat :=
  let sections := g.sections.filter fun (e : SectionEntry) => e.flags % 2 == 0
  beBytes 32 g.digest ++ sections.flatMap fun (e : SectionEntry) =>
    ((g.fields.filter fun (f : FieldSet) => f.section_ == e.typ && loadable f.fld).foldr fieldInsert []).flatMap fun (f : FieldSet) => leBytes 4 (s.get f.fld)

/-- Tile `n` under the new Glaze: USED, BOOT, INTERLOCK 0; a channel whose rails change reads SUP_OK only once its supply regulates
again, and A in bootstrap mode reads what B reads and its clamp is engaged with that supply (R25, R40, R195). `old` is the state before. (DEDUCED, log entry 107.) -/
def State.tileInForce (s old : State) (n : Fin 9) : State :=
  let pair := s.pairOf n
  let boot := pair.any fun p => s.bit (MOD_REFRESH_BOOT p)
  let s1 := (s.putB (SET_STATUS_USED n) pair.isSome).putB (SET_STATUS_BOOT n) boot
  let s2 := s1.each [(0 : Fin 2), 1] fun c s => s.put (SET_CH_STATUS_INTERLOCK n c) 0
  let moved := fun (f g : Fld) => s.get f != old.get f || s.get g != old.get g
  let a := moved (SET_RAILS_VPOS_A n) (SET_RAILS_VNEG_A n) || old.bit (SET_STATUS_BOOT n)
  let b := moved (SET_RAILS_VPOS_B n) (SET_RAILS_VNEG_B n)
  let s3 := s2.when b (·.put (SET_CH_STATUS_SUP_OK n 1) 0)
  let s4 := if boot then
      let ok := s3.bit (SET_CH_STATUS_SUP_OK n 1)
      ((s3.putB (SET_CH_STATUS_SUP_OK n 0) ok).when ok (·.put (SET_CH_STATUS_CLAMP n 0) 1)).onChan n 0
        fun x => { x with uvNow := (s3.chan n 1).uvNow }
    else s3.when a (·.put (SET_CH_STATUS_SUP_OK n 0) 0)
  s4.supRefresh n

/-- Identity and role of the Glaze put in force (R39 step 5, R42). -/
def State.identity (s : State) (g : GlazeImage) : State :=
  ((s.put GLZ_ACTIVE_ID_IMAGE_ID g.imageId).put GLZ_ACTIVE_VER_IMAGE_VERSION g.version).put SYS_ROLE_ROLE g.role

/-- Every unit as step 5 and 6 of R39 leave it under Glaze `g`; `old` is the state before (R42). -/
def State.unitsInForce (s old : State) (g : Glaze) : State :=
  let s1 := (s.fabricFiring g.image g.placement).modFiring
  let s2 := s1.each (List.finRange 44) fun n s => s.winFiring n
  let s3 := ((((s2.adcFiring.gsuFiring).rtsFiring).islFiring).dciFiring).meterFiring
  let s4 := s3.each nine fun n s => s.tileInForce old n
  let s5 := s4.grogFiring.each six fun l s => s.laneFiring l (old.get (LANE_ROLE_ROLE l)) (old.get (LANE_ROLE_GEN l))
  let s6 := (s5.laneTiming.wlkFiring (old.get SYS_ROLE_ROLE)).each eight fun k s =>
    s.onGroup k fun x => { x with ptpIdx := s.ptpMultiple k (ptpTotal s.net.ptp) }
  s6.when (s.bit PWR_GP_CTRL_EN) (·.serve g.image)

/-- Phase 0x5 begins: every Setter disarmed, every output gated off, the capture stopped; then the staged Glaze is put in force
(R39 steps 4 to 6, R40, R42). -/
def State.firingEnter (s : State) (g : Glaze) : State :=
  let s1 := ((s.put SYS_STATE_PHASE 5).put GLZ_STATUS_FIRING 1).onGlz fun x =>
    { x with fireWait := false, outgoing := x.active, outgoingDigest := x.firingDigest }
  let s2 := (s1.each nine fun n s => s.tileFiring n).captureFiring
  let s3 := s2.planesInForce.identity g.image
  let s4 := (s3.onGlz fun x => { x with active := some g, staged := none, plane := [], firedOnce := true }).unitsInForce s g
  let s5 := s4.onSag fun x => { x with mapDigest := sha256 ((List.range s4.grg.map.length).flatMap fun e => leBytes 4 (s4.mapWord e)) }
  s5.onGlz fun x => { x with firingDigest := sha256 (s5.firingDigestOver g.image) }

/-- FIRING_ENTER: an accepted firing enters phase 0x5 once the safe order is complete (R39 steps 4 to 6). -/
def execFiringEnter (s : State) : Host.Outcome State Fault Refusal :=
  .next (
    match s.glz.staged with
    | some g => if s.glz.fireWait && s.sit.orderTiles.isEmpty then s.firingEnter g else s
    | none => s)

end Sys2Proof.Machine
end

