-- ==== Sys2Proof/Machine/Access.lean ====
section
/-!
DEFINITION. One access to an address: what stands there, what a write and a read of it do, in the registers, the memory windows,
the aliases and the HOST island's own ports (23_register_addressing.md, R9 to R11, R27, R28, R268).
-/

namespace Sys2Proof.Machine

open Sys2Proof

/-! ### Where an address lies (R402 to R406) -/

/-- The island whose registers stand at address `a` (R406). -/
def islandAt (a : Nat) : Isl :=
  if a < 0x41000000 then .host
  else if a < 0x43000000 then .wheel
  else if a < 0x44000000 then .mod
  else if a < 0x44800000 then (if a / 0x1000 = 0x44009 then .mod else .tile)
  else if a < 0x45000000 then .mod
  else if a < 0x47000000 then .sense
  else if a < 0x48000000 then .meter
  else if a < 0x49000000 then .host
  else if a < 0x49006000 then .serial (Fin.ofNat 6 ((a - 0x49000000) / 0x1000))
  else if a < 0x4A000000 then .lane
  else if a < 0x4B000000 then .net
  else if a < 0x4C000000 then .saggar
  else .host

/-- The blocks whose accesses wait during phase 0x5: WHL, RGS, GSU, RTS, ISL, DCI, MOD, SIT, SET, WIN and ADC (R41). -/
def heldAt (a : Nat) : Bool := decide (0x41000000 ≤ a) && decide (a < 0x47000000)

/-- Windows onto memories that stand among the registers: program stores, coefficient banks, the Saggar's request and response, the
snapshot banks and the capture buffer (R45, R349, R398, R399). -/
def isWindow (a : Nat) : Bool :=
  let o := a % 0x10000
  (decide (0x41000000 ≤ a) && decide (a < 0x41400000) &&
    (decide (0x4000 ≤ o) && decide (o < 0x5000) || decide (0x8000 ≤ o) && decide (o < 0x9000) || decide (0xC000 ≤ o) && decide (o < 0xD000))) ||
  (decide (0x4B001000 ≤ a) && decide (a < 0x4B005000)) ||
  (decide (0x4E010000 ≤ a) && decide (a < 0x4E030000)) ||
  (decide (0x4E100000 ≤ a) && decide (a < 0x4E300000))

/-- The register that an access of `n` bytes at `a` reaches: its table, its address, the first bit of the access in it and the bits
it takes. An access of another width or alignment reaches none (R403). -/
def regPart (a n : Nat) : Option (RegDesc × Nat × Nat × Nat) :=
  if n = 4 ∧ a % 4 = 0 then
    match regAt a with
    | some d => some (d, a, 0, 32)
    | none =>
      match regAt (a - 4) with
      | some d => if d.width = 64 then some (d, a - 4, 32, 32) else none
      | none => none
  else if n = 8 ∧ a % 8 = 0 then
    match regAt a with
    | some d => if d.width = 64 then some (d, a, 0, 64) else none
    | none => none
  else none

/-- An aliased block: its alias base, its first instance, the stride, the instances an alias reaches and the block type (R406, R407). -/
structure AliasBlock where
  base : Nat
  inst : Nat
  stride : Nat
  count : Nat
  typ : Nat
  deriving DecidableEq, Repr

/-- The aliased blocks of R406, without the spares. -/
def aliasBlocks : List AliasBlock := [
  ⟨0x41400000, 0x41000000, 0x10000, 64, 0⟩, ⟨0x42008000, 0x42000000, 0x1000, 4, 1⟩, ⟨0x43002000, 0x43000000, 0x100, 9, 2⟩,
  ⟨0x44010000, 0x44000000, 0x1000, 9, 3⟩, ⟨0x45001000, 0x45000000, 0x40, 40, 4⟩, ⟨0x46003000, 0x46000000, 0x100, 16, 5⟩,
  ⟨0x49010000, 0x49000000, 0x1000, 6, 6⟩]

/-- The alias at address `a`. -/
def aliasAt (a : Nat) : Option AliasBlock := aliasBlocks.find? fun b => decide (b.base ≤ a) && decide (a < b.base + 9 * b.stride)

/-- The instances that address `a` of alias `b` reaches: all, or those of its group (R10, R407). -/
def State.aliasMembers (s : State) (b : AliasBlock) (a : Nat) : List Nat :=
  let i := (a - b.base) / b.stride
  (List.range b.count).filter fun m => i == 0 || s.bitAt (SYS_GRP_MEMBERS b.typ (i - 1)) m

/-- The address of an alias access in instance `m`. -/
def AliasBlock.at (b : AliasBlock) (a m : Nat) : Nat := b.inst + b.stride * m + (a - b.base) % b.stride

/-! ### RWF fields (R27, R28, R268) -/

/-- Reads show the staged plane: before the first firing, and in phase 0x4 with VIEW_STAGED (R28, R268). (DEDUCED, log entry 16.) -/
def State.planeShown (s : State) : Bool := !s.glz.firedOnce || (s.phase == 4 && s.bit GLZ_CTRL_VIEW_STAGED)

/-- What the staged plane holds of the register at `r`: its reset value with nothing staged (R268). -/
def State.planeCell (s : State) (r : Nat) : DWord := if s.glz.staged.isSome then cellGet s.glz.plane r else cellGet resetCells r

/-- The value `v` written to RWF field `f` by firmware: the state with it staged, or none where the write is ignored. A field of a
trimmable section takes a value within its limits; a sealed one none; one that no section sets is not written (R27, R28). -/
def State.rwfField (s : State) (f : Fld) (v : Nat) : Option State :=
  if s.phase != 2 && s.phase != 4 then none
  else
    match s.glz.staged with
    | none => none
    | some g =>
      let cell := cellGet s.glz.plane f.addr
      match g.image.fields.find? fun e => e.fld == f with
      | none => if fieldGet cell f == v then some s else none
      | some e =>
        let sealed_ := g.image.sections.any fun x => x.typ == e.section_ && x.flags % 2 == 1
        if !sealed_ && decide (e.lo ≤ v) && decide (v ≤ e.hi) then
          some (s.onGlz fun x => { x with plane := cellPut x.plane f.addr (fieldPut cell f v) })
        else none

/-- The RWF fields of a register under a write of `bits` bits from bit `sh`, `x` holding the written value in its place: each field
takes its part or ignores it, and a write that some field ignored is counted once (R27). (DEDUCED, log entry 14.) -/
def State.rwfWrite (s : State) (d : RegDesc) (r sh bits : Nat) (x : Nat) : State :=
  let fs := d.fields.filter fun (f : FldDesc) => f.acc == .rwf && decide (sh ≤ f.hi) && decide (f.lo < sh + bits)
  let part := BitVec.ofNat 64 ((2 ^ bits - 1) * 2 ^ sh)
  let new := (s.planeCell r &&& ~~~part) ||| (BitVec.ofNat 64 x &&& part)
  let step := fun (p : State × Bool) (f : FldDesc) =>
    match p.1.rwfField ⟨r, f.hi, f.lo⟩ (fieldGet new ⟨r, f.hi, f.lo⟩) with
    | some t => (t, p.2)
    | none => (p.1, true)
  let e := fs.foldl step (s, false)
  e.1.when e.2 (·.inc GLZ_RWF_REFUSED_COUNT)

/-! ### Writes that do more than store (the units' chapters) -/

/-- Bit `i` of a written word. -/
def bitOn (v : Word) (i : Nat) : Bool := v.toNat.testBit i

/-- The bits of a written word from `lo`, `w` of them. -/
def bitsAt (v : Word) (lo w : Nat) : Nat := v.toNat / 2 ^ lo % 2 ^ w

/-- GLZ.CTRL (R35, R38, R39). -/
def glzCtrlOp (v : Word) (x : BusFacts) (s : State) : State :=
  let s1 := (s.putB GLZ_CTRL_SRC_SEL (bitOn v 9)).putB GLZ_CTRL_VIEW_STAGED (bitOn v 8)
  match bitsAt v 0 4 with
  | 1 => loadOp (x.image.getD { readOk := false }) s1
  | 2 => fireOp x.intact s1
  | 3 => discardOp s1
  | 4 => abortLoadOp s1
  | _ => s1

/-- RGS.RGk.SWAP (R64, R65). -/
def rgSwapOp (k : Fin 8) (v : Word) (s : State) : State :=
  let s1 := s.when (bitOn v 16) (·.put (RGS_RG_SWAP_REFUSED k) 0)
  if bitOn v 8 then swapRequestOp k (Fin.ofNat 2 (bitsAt v 0 1)) (bitOn v 9) s1
  else (s1.put (RGS_RG_SWAP_BANK k) v.toNat).putB (RGS_RG_SWAP_AT_PLANT k) (bitOn v 9)

/-- ISL.CTRL (R131, R138). -/
def islCtrlOp (v : Word) (s : State) : State := islCmdOp (bitsAt v 0 4) (s.putB ISL_CTRL_AUTO (bitOn v 8))

/-- DCI.CTRL: an abort of the running sweep, then the requests, ascending (R163, R165). (DESIGN CHOICE, log entry 18.) -/
def dciCtrlOp (v : Word) (s : State) : State :=
  (s.when (bitOn v 8) dciAbortOp).each (List.finRange 6) fun l s => s.when (bitOn v l) (dciSweepRequestOp l)

/-- MODn.CTRL: EN acts at once (R183); that of a pair that is not routed stays 0 (R172). -/
def modCtrlOp (p : Fin 9) (v : Word) (s : State) : State :=
  let s1 := (s.putB (MOD_CTRL_ALIGN p) (bitOn v 8)).putB (MOD_CTRL_EN p) (bitOn v 0 && s.bit (MOD_ROUTE_USED p))
  s1.drive p (s.get (MOD_CNT_CNT p))

/-- SETn.CTRL: in one write an abort, a disarming, diagnostics and an arming, in that order (R193, R202). -/
def setCtrlOp (n : Fin 9) (v : Word) (s : State) : State :=
  (((s.when (bitOn v 5) (·.diagStop n)).when (bitOn v 1) (disarmOp n)).when (bitOn v 4) (diagOp n)).when (bitOn v 0) (armOp n)

/-- SETn.CHc.STATUS: each latched flag clears or refuses (R192, R196, R199). -/
def chStatusOp (n : Fin 9) (c : Fin 2) (v : Word) (s : State) : State :=
  let s1 := (s.when (bitOn v 0) (desatClearOp n c)).when (bitOn v 1) (supplyUvClearOp n c)
  (s1.when (bitOn v 2) (·.put (SET_CH_STATUS_BOOT_UV n c) 0)).when (bitOn v 3 && c == 0) (bootStopClearOp n)

/-- SETn.CHc.TRIM (R191). -/
def trimOp (n : Fin 9) (c : Fin 2) (v : Word) (s : State) : State :=
  ((s.put (SET_CH_TRIM_TON n c) v.toNat).put (SET_CH_TRIM_TOFF n c) (v.toNat / 2 ^ 16)).put (SET_CH_DELAY_VALID n c) 0

/-- WINn.CTRL (R214 to R216); `late`: the write was held in phase 0x5, in which a self-test is refused (R41, R215). (DEDUCED, log entries
19, 106.) -/
def winCtrlOp (n : Fin 44) (v : Word) (late : Bool) (s : State) : State :=
  ((s.putB (WIN_CTRL_IRQ n) (bitOn v 2 && isPrivUnit n)).when (bitOn v 1) (shadowOp n)).when (bitOn v 0)
    (if late then (·.selftestRefuse n) else selftestOp n)

/-- SIT.CTRL: the stop first, the clear of the same write refused (R226, R227). -/
def sitCtrlOp (v : Word) (s : State) : State :=
  let s1 := if bitOn v 0 then stopOp (bitOn v 1) s else if bitOn v 1 then clearStopOp s else s
  (s1.when (bitOn v 2) plantStopOp).when (bitOn v 3) clearPlantOp

/-- ADCn.CTRL (R235, R238). -/
def adcCtrlOp (n : Fin 18) (v : Word) (gap : Bool) (s : State) : State :=
  (s.when (bitOn v 0) (adcStartOp n gap)).when (bitOn v 2) (calOp n)

/-- CLK.PLLn.CTRL: the fields that the write changes act in the order REFMODE, STEP, EN; the reserved REFMODE refuses the write (R266,
R269, R270, R405). -/
def pllCtrlOp (n : Fin 7) (v : Word) (s : State) : State :=
  if bitsAt v 4 2 = 3 then s.clkRefuse
  else
    let s1 := s.when (bitsAt v 4 2 != s.get (CLK_PLL_CTRL_REFMODE n)) (pllConfigWriteOp n false v)
    let s2 := s1.when (bitsAt v 8 4 != s.get (CLK_PLL_CTRL_STEP n)) (pllStepOp n (BitVec.ofNat 4 (bitsAt v 8 4)))
    s2.when (bitOn v 0 != s.bit (CLK_PLL_CTRL_EN n)) (pllEnWriteOp n (bitOn v 0))

/-- WLKn.CTRL: loopbacks that the write changes, then the command (R283 to R289). -/
def laneCtrlOp (l : Fin 6) (v : Word) (x : BusFacts) (s : State) : State :=
  let s1 := s.when (bitsAt v 4 2 != s.get (LANE_CTRL_LOOP l)) (loopWriteOp l (BitVec.ofNat 2 (bitsAt v 4 2)))
  let s2 := s1.when (bitOn v 8 != s.bit (LANE_CTRL_RLB_REQ l)) (rlbReqOp l (bitOn v 8) x.rlb)
  match bitsAt v 0 4 with
  | 1 => retrainOp l s2
  | 2 => s2.lanePower l 4
  | 3 => s2.lanePower l 5
  | 4 => wakeOp l s2
  | 5 => testEnterOp l s2
  | 6 => testExitOp l s2
  | _ => s2

/-- WLKn.PAT_CFG (R286, R287). -/
def patOp (l : Fin 6) (v : Word) (s : State) : State := (patCfgWriteOp l v s).when (bitOn v 24) (injectOp l)

/-- WLK.PLANT_CTRL (R298, R318). -/
def plantCtrlOp (v : Word) (x : BusFacts) (s : State) : State :=
  (s.when (bitOn v 0) State.discoverAll).when (bitOn v 1) (ringRestoreOp x.linksUp)

/-- WLK.BLK_CTRL (R310). -/
def blkCtrlOp (v : Word) (s : State) : State :=
  if bitOn v 0 then blkGoOp v s
  else
    let s1 := (s.put WLK_BLK_CTRL_LEN (bitsAt v 19 13)).put WLK_BLK_CTRL_SPACE (bitsAt v 16 3)
    ((s1.put WLK_BLK_CTRL_SCOPE (bitsAt v 14 2)).put WLK_BLK_CTRL_DST (bitsAt v 9 5)).putB WLK_BLK_CTRL_DIR (bitOn v 1)

/-- NET.PTP_CTRL (R326, R327). -/
def ptpCtrlOp (v : Word) (s : State) : State :=
  let s1 := s.when (bitOn v 2) ptpSetOp
  let s2 := s1.when (bitOn v 1 && !s.ptpFollows) (·.ptpSetValid false)
  s2.when (bitOn v 0 && !s.ptpFollows) (·.ptpSetValid true)

/-- MACm.CFG: a refused write does nothing (R321 to R323, R405). -/
def macCfgOp (m : Fin 2) (v : Word) (s : State) : State :=
  (macEnWriteOp m v s).when (bitOn v 0 && !s.macCfgBad m v) (kickOp m)

/-- MACm.RINGr: COUNT is taken while EN = 0. A COUNT outside 16 to 1,024 then refuses the write. (R323; DESIGN CHOICE, log entry 125.) -/
def macRingOp (m r : Fin 2) (v : Word) (s : State) : State :=
  let n := bitsAt v 0 11
  if s.bit (MAC_CFG_EN m) then s.put (MAC_RING_BASE m r) (bitsAt v 16 16)
  else if n < 16 || 1024 < n then s
  else (s.put (MAC_RING_BASE m r) (bitsAt v 16 16)).put (MAC_RING_COUNT m r) n

/-- MACm.LQ_CMD (R330). -/
def lqCmdOp (m : Fin 2) (v : Word) (s : State) : State := if bitOn v 31 then flushOp m s else lqCommitOp m v s

/-- PUG.CFG: a tracking fraction outside 0.40 to 0.80 refuses the write; with HARV_EN = 0 a cold start ends
(R358, R359, R405). -/
def pugCfgOp (v : Word) (s : State) : State :=
  if bitsAt v 0 7 < 40 || 80 < bitsAt v 0 7 then s.inc PUG_STATUS_REFUSED
  else
    let s1 := (((s.put PUG_CFG_K v.toNat).putB PUG_CFG_HARV_EN (bitOn v 8)).putB PUG_CFG_TOPUP_EN (bitOn v 9)).putB PUG_CFG_CELL_EN (bitOn v 10)
    (s1.when (!bitOn v 8) (·.put PUG_STATUS_COLD 0)).chargerSet

/-- PWR.CTRL (R372, R379). -/
def pwrCtrlOp (v : Word) (s : State) : State := (s.when (bitOn v 0) (·.orderlyBegin 5)).when (bitOn v 1) standbyOp

/-- GRG.CMD (R388). -/
def grgCmdOp (v : Word) (s : State) : State :=
  let op := bitsAt v 0 4
  let kind := bitsAt v 4 4
  let inst := bitsAt v 8 8
  let sub := bitsAt v 16 8
  if !bitOn v 31 then s.grogCmd op kind inst sub
  else
    match op with
    | 1 => if h : sub < 8 then commitOp ⟨sub, h⟩ s else s.grogRefuse
    | 2 => if h : sub < 8 then dismissOp ⟨sub, h⟩ s else s.grogRefuse
    | 3 => retireOp (Fin.ofNat 16 kind) (BitVec.ofNat 8 inst) (BitVec.ofNat 8 sub) s
    | 4 => if h : inst < 16 then diagnoseOp ⟨inst, h⟩ s else s.grogRefuse
    | _ => s.grogRefuse

/-- CON.CTRL (R392 to R400). -/
def conCtrlOp (v : Word) (s : State) : State :=
  let s1 := (s.putB CON_CTRL_WHEEL_EN (bitOn v 7)).putB CON_CTRL_ON_TRIP (bitOn v 6)
  let s2 := ((s1.when (bitOn v 3) (·.releaseBank 0 CON_STATUS_HELD0)).when (bitOn v 4) (·.releaseBank 1 CON_STATUS_HELD1)).when
    (bitOn v 5) capRearmOp
  ((s2.when (bitOn v 1) tmatchArmOp).when (bitOn v 2) plantGoOp).when (bitOn v 0) (·.cone srcFirmware 0 0)

/-- SAG.CMD: GO starts the service with the request that SAG.REQ spells, or is refused while one runs (R349). -/
def sagCmdOp (v : Word) (x : BusFacts) (s : State) : State :=
  let id := bitsAt v 0 8
  let len := bitsAt v 8 14
  if bitOn v 31 then s.svcStart id len (svcRequest id len x)
  else (s.put SAG_CMD_SERVICE id).put SAG_CMD_LEN len

/-- A write to a 32-bit register of the WHEEL island that does more than store. -/
def wheelSpecial (a : Nat) (v : Word) : Option (State → State) :=
  if a = 0x41C00018 then some (mboxThreshOp (BitVec.ofNat 7 (bitsAt v 8 7)))
  else if 0x41C00100 ≤ a ∧ a < 0x41C00300 ∧ a % 0x40 = 0x20 then some (rgSwapOp (Fin.ofNat 8 ((a - 0x41C00100) / 0x40)) v)
  else if 0x41C10000 ≤ a ∧ a < 0x41C14000 then some (slotWriteOp (BitVec.ofNat 12 ((a - 0x41C10000) / 4)) v)
  else if 0x41000000 ≤ a ∧ a < 0x41400000 ∧ 0x40 ≤ a % 0x10000 ∧ a % 0x10000 < 0x50 then
    some (istateWriteOp (Fin.ofNat 64 ((a - 0x41000000) / 0x10000)) (Fin.ofNat 4 (a % 0x10000 / 4)) v)
  else if a = 0x42100040 then some fun s => s.when (bitOn v 0) clearTripOp
  else if a = 0x42200100 then some (islCtrlOp v)
  else if a = 0x42300120 then some (dciCtrlOp v)
  else none

/-- The same for the MOD island, the tiles and the SENSE island. -/
def powerSpecial (a : Nat) (v : Word) (x : BusFacts) : Option (State → State) :=
  let o := a % 0x100
  if 0x43000000 ≤ a ∧ a < 0x43000900 then
    let p : Fin 9 := Fin.ofNat 9 ((a - 0x43000000) / 0x100)
    (if o = 0 then some (modCtrlOp p v) else if o = 0x10 then some (periodWriteOp p v) else if o = 0x24 then some (ovrWriteOp p v) else none)
  else if a = 0x43001018 then some fun s => s.when (bitOn v 0) State.hopEval
  else if 0x43001020 ≤ a ∧ a < 0x43001060 then some (quietBandOp (Fin.ofNat 8 ((a - 0x43001020) / 8)) (a % 8 == 4) v)
  else if 0x44000000 ≤ a ∧ a < 0x44009000 then
    let n : Fin 9 := Fin.ofNat 9 ((a - 0x44000000) / 0x1000)
    let q := a % 0x1000
    let c : Fin 2 := Fin.ofNat 2 ((q - 0x20) / 0x10)
    (if q = 0 then some (setCtrlOp n v) else if q = 0x20 ∨ q = 0x30 then some (chStatusOp n c v)
     else if q = 0x24 ∨ q = 0x34 then some (trimOp n c v) else none)
  else if a = 0x44800000 then some (sitCtrlOp v)
  else if a = 0x44800020 then some (pairStatOp (BitVec.ofNat 9 (bitsAt v 0 9)))
  else if 0x45000000 ≤ a ∧ a < 0x45000B00 then
    let n : Fin 44 := Fin.ofNat 44 ((a - 0x45000000) / 0x40)
    (if a % 0x40 = 4 then some (winThrOp n v) else if a % 0x40 = 0xC then some (winCtrlOp n v x.late) else none)
  else if 0x46000000 ≤ a ∧ a < 0x46001200 ∧ o = 4 then some (adcCtrlOp (Fin.ofNat 18 ((a - 0x46000000) / 0x100)) v x.gap)
  else if a = 0x46002000 then some fun s => s.when (bitOn v 0) calAllOp
  else none

/-- A write to a register that hands a value to a port: a UART's character, a CAN buffer's control word, the commands and data of MDIO, SPI
and I2C, which are stored and leave (R332, R410). (DESIGN CHOICE, log entry 138.) -/
def portOp (a : Nat) (v : Word) : Option (State → State) :=
  let o := a % 0x1000
  let store := fun (s : State) => s.withRegs (cellPut s.regs a (v.setWidth 64))
  if 0x4A200000 ≤ a ∧ a < 0x4A204000 ∧ o = 8 then some (uartDataOp (Fin.ofNat 4 ((a - 0x4A200000) / 0x1000)) v)
  else if 0x4A101000 ≤ a ∧ a < 0x4A112000 ∧ 0x1000 ≤ a % 0x10000 ∧ a % 0x10000 < 0x1A00 ∧ o % 0x50 = 4 then
    some fun s => canSendOp (a - 4) (store s)
  else if a = 0x4A000800 ∨ (0x4A300000 ≤ a ∧ a < 0x4A303000 ∧ o = 8) ∨ (0x4A400000 ≤ a ∧ a < 0x4A402000 ∧ (o = 8 ∨ o = 0xC)) then
    some fun s => (store s).send (.port a v.toNat)
  else none

/-- The same for the METER, LANE and NET islands. -/
def linkSpecial (a : Nat) (v : Word) (x : BusFacts) : Option (State → State) :=
  let m : Fin 2 := Fin.ofNat 2 ((a - 0x4A001000) / 0x1000)
  let o := a % 0x1000
  if a = 0x47000004 then some fun s => s.when (bitOn v 0) jrnlCommitOp
  else if 0x49000000 ≤ a ∧ a < 0x49006000 ∧ o = 4 then some (laneCtrlOp (Fin.ofNat 6 ((a - 0x49000000) / 0x1000)) v x)
  else if 0x49000000 ≤ a ∧ a < 0x49006000 ∧ o = 0x20 then some (patOp (Fin.ofNat 6 ((a - 0x49000000) / 0x1000)) v)
  else if a = 0x49008008 then some (plantCtrlOp v x)
  else if a = 0x49008448 then some (blkCtrlOp v)
  else if a = 0x4A000000 then some (ptpCtrlOp v)
  else if a = 0x4A000010 then some (ptpOfsWriteOp v)
  else if a = 0x4A000018 then some fun s => s.withNet { s.net with setNs := bitsAt v 0 30 }
  else if 0x4A001000 ≤ a ∧ a < 0x4A003000 then
    (if o = 0 then some (macCfgOp m v) else if o = 0x10 ∨ o = 0x14 then some (macRingOp m (Fin.ofNat 2 ((o - 0x10) / 4)) v)
     else if o = 0x30 then some (lqCmdOp m v) else none)
  else portOp a v

/-- The same for the HOST and SAGGAR islands. -/
def hostSpecial (a : Nat) (v : Word) (x : BusFacts) : Option (State → State) :=
  if a = 0x40100000 then some (glzCtrlOp v x)
  else if a = 0x40200004 then some (xspiCmdOp v x.span)
  else if 0x48000100 ≤ a ∧ a < 0x480001E0 ∧ a % 0x20 = 0 then some (pllCtrlOp (Fin.ofNat 7 ((a - 0x48000100) / 0x20)) v)
  else if 0x48000100 ≤ a ∧ a < 0x480001E0 ∧ a % 0x20 = 4 then some (pllConfigWriteOp (Fin.ofNat 7 ((a - 0x48000100) / 0x20)) true v)
  else if a = 0x4B000004 then some (sagCmdOp v x)
  else if a = 0x4B800000 then some (pugCfgOp v)
  else if a = 0x4B800004 then some (pugThrWriteOp v)
  else if a = 0x4C000004 then some (pwrCtrlOp v)
  else if a = 0x4C000008 then some (pfWarnOp (bitsAt v 0 8))
  else if a = 0x4C00000C then some (gpEnOp (bitOn v 0))
  else if a = 0x4C000024 then some (wdogCfgOp v.toNat)
  else if a = 0x4C000028 then some (wdogKickOp v.toNat)
  else if a = 0x4D000004 then some (grgCmdOp v)
  else if a = 0x4E000004 then some (conCtrlOp v)
  else if a = 0x4E000020 then some (capEnWriteOp v)
  else if a = 0x4E000024 ∨ (0x4E000100 ≤ a ∧ a < 0x4E000180) then
    some fun s => if s.bit CON_CAP_CFG_EN then s
      else if a = 0x4E000024 then s.put CON_CAP_POST_POST v.toNat
      else (s.put (CON_CAP_SLOT_ODD ((a - 0x4E000100) / 4)) (bitsAt v 16 12)).put (CON_CAP_SLOT_EVEN ((a - 0x4E000100) / 4)) (bitsAt v 0 12)
  else none

/-- What a write of a 32-bit register that does more than store does. -/
def special (a : Nat) (v : Word) (x : BusFacts) : Option (State → State) :=
  if 0x41000000 ≤ a ∧ a < 0x43000000 then wheelSpecial a v
  else if 0x43000000 ≤ a ∧ a < 0x47000000 then powerSpecial a v x
  else if 0x47000000 ≤ a ∧ a < 0x48000000 ∨ 0x49000000 ≤ a ∧ a < 0x4B000000 then linkSpecial a v x
  else hostSpecial a v x

/-! ### One register -/

/-- A mask of a 64-bit cell. -/
def cellMask (n : Nat) : DWord := BitVec.ofNat 64 n

/-- The plain effect of a write by the access codes: RW bits take the value, W1C bits written 1 clear, the others stay (R9, R405). (DEDUCED, log entry 20.) -/
def plainWrite (d : RegDesc) (r sh bits x : Nat) (s : State) : State :=
  let part := (2 ^ bits - 1) * 2 ^ sh
  let rw := cellMask (d.maskOf .rw &&& part)
  let c := cellGet s.regs r
  let c1 := (c &&& ~~~rw) ||| (cellMask x &&& rw)
  s.withRegs (cellPut s.regs r (c1 &&& ~~~(cellMask (d.maskOf .w1c &&& part &&& x))))

/-- A write to the register of table `d` at `r`: `bits` bits from bit `sh`. Held in reset, its island takes only RWF fields, in the
staged plane, and any other register ends in a bus error (R268). -/
def State.regWrite (s : State) (d : RegDesc) (r sh bits : Nat) (v : DWord) (x : BusFacts) : State :=
  let val := v.toNat % 2 ^ bits * 2 ^ sh
  let rwf := d.maskOf .rwf != 0
  if !s.up (islandAt r) then (if rwf then (s.rwfWrite d r sh bits val).respond 0 else s.busError)
  else
    let s0 := (s.when rwf (·.rwfWrite d r sh bits val)).respond 0
    if d.width = 64 then
      (if r = 0x4A000008 then ptpIncWriteOp (if bits = 64 then none else some (sh == 32)) v s0
       else if r = 0x4A000020 then
         (let low := if sh = 0 then v.toNat % 2 ^ 32 else s.net.setSec % 2 ^ 32
          let high := if bits = 64 then v.toNat / 2 ^ 32 % 2 ^ 16 else if sh = 32 then v.toNat % 2 ^ 16 else s.net.setSec / 2 ^ 32
          (s0.withNet { s0.net with setSec := high * 2 ^ 32 + low }))
       else plainWrite d r sh bits val s0)
    else
      match special r (BitVec.ofNat 32 v.toNat) x with
      | some f => f s0
      | none => plainWrite d r sh bits val s0

/-- Registers that show a quantity as it is measured now, or a device that no command of the block describes: temperatures, VAUX, the
gate load, and status and data of MDIO, CAN, UART, SPI and I2C (R370, R380, R206, R332, R410). -/
def isLive (a : Nat) : Bool :=
  [0x4C000010, 0x4C000014, 0x4C000018, 0x4A000804, 0x4A000808, 0x4A100010, 0x4A110010].contains a ||
  (decide (0x44000000 ≤ a) && decide (a < 0x44009000) && a % 0x1000 == 0x50) ||
  (decide (0x4A200000 ≤ a) && decide (a < 0x4A304000) && (a % 0x1000 == 8 || a % 0x1000 == 0xC)) ||
  (decide (0x4A400000 ≤ a) && decide (a < 0x4A402000) && (a % 0x1000 == 0xC || a % 0x1000 == 0x10))

/-- What such a register reads: PWR.GP_LOAD 0 while the gate-power converter is off, and no more than its limit of 26.4 W, or 6.6 W while
derated (R367, R370). (DESIGN CHOICE, log entry 11.) -/
def State.liveWord (s : State) (a : Nat) : Word :=
  let w := Config.live s.free a
  if a = 0x4C000010 then
    (if s.bit PWR_STATUS_GP_ON then BitVec.ofNat 32 (min w.toNat (if s.bit PWR_STATUS_DERATED then 6600 else 26400)) else 0)
  else w

/-- The bits of a register that any field covers; the others read 0 (R405). -/
def RegDesc.usedMask (d : RegDesc) : Nat := d.fields.foldl (fun m f => m ||| f.mask) 0

/-- What the register of table `d` at `r` reads, whole: the view of the block, RWF fields from the staged plane where that is shown,
write-only fields 0 (R9, R28, R268). An island held in reset shows only RWF fields, from that plane, after a firing too. -/
def State.regValue (s : State) (d : RegDesc) (r : Nat) : DWord :=
  let rwf := cellMask (d.maskOf .rwf)
  let full := if !s.up (islandAt r) then 0 else if isLive r then (s.liveWord r).setWidth 64 else s.view r
  let v := if s.planeShown || !s.up (islandAt r) then (full &&& ~~~rwf) ||| (s.planeCell r &&& rwf) else full
  v &&& cellMask d.usedMask &&& ~~~(cellMask (d.maskOf .wo))

/-- A read of `bits` bits from bit `sh` of the register of table `d` at `r` is possible: its island is out of reset, or it has RWF
fields (R268). -/
def State.readable (s : State) (d : RegDesc) (r : Nat) : Bool := s.up (islandAt r) || d.maskOf .rwf != 0

/-- What a direct read does beside answering: RC fields clear, the mailbox loses an entry, PTP_NOW and TSQ_ENTRY latch, a capture has
been read, a kick sequence is broken (R9, R68, R214, R326, R331, R374). -/
def State.readEffect (s : State) (d : RegDesc) (r sh bits : Nat) : State :=
  let part := (2 ^ bits - 1) * 2 ^ sh
  if r = 0x41C00014 then (mboxReadOp s).1
  else if r = 0x4A000018 then (ptpNowReadOp s).1
  else if 0x4A001000 ≤ r ∧ r < 0x4A003000 ∧ r % 0x1000 = 0x40 then
    (tsqReadOp (Fin.ofNat 2 ((r - 0x4A001000) / 0x1000)) (if bits = 64 then none else some (sh == 32)) s).1
  else if 0x45000000 ≤ r ∧ r < 0x45000B00 ∧ r % 0x40 = 0x14 then
    s.onWin (Fin.ofNat 44 ((r - 0x45000000) / 0x40)) fun w => { w with capUnread := false }
  else if r = 0x4C000028 then s.onPwr fun x => { x with kick := false }
  else if isLive r then s.tookFree
  else if d.maskOf .rc = 0 then s
  else s.withRegs (cellPut s.regs r (cellGet s.regs r &&& ~~~(cellMask (d.maskOf .rc &&& part))))

/-- TSQ_ENTRY answers the queue's oldest entry; other registers their value (R331). -/
def State.readValue (s : State) (d : RegDesc) (r sh bits : Nat) : Nat :=
  if 0x4A001000 ≤ r ∧ r < 0x4A003000 ∧ r % 0x1000 = 0x40 then
    (tsqReadOp (Fin.ofNat 2 ((r - 0x4A001000) / 0x1000)) (if bits = 64 then none else some (sh == 32)) s).2
  else (s.regValue d r).toNat / 2 ^ sh % 2 ^ bits

/-! ### Registers and windows of one instance -/

/-- A write of `n` bytes at `a` in the register space, not through an alias (R403, R404). -/
def State.directWrite (s : State) (a n : Nat) (v : DWord) (x : BusFacts) : State :=
  match regPart a n with
  | some (d, r, sh, bits) => s.regWrite d r sh bits v x
  | none =>
    if isWindow a && n == 4 && a % 4 == 0 then
      if !s.up (islandAt a) then s.busError
      else
        let o := a % 0x10000
        let s0 := s.respond 0
        if a < 0x41400000 ∧ 0x8000 ≤ o then
          coefWriteOp (Fin.ofNat 64 ((a - 0x41000000) / 0x10000)) (if o < 0xC000 then 0 else 1) (BitVec.ofNat 10 (o / 4))
            (BitVec.ofNat 32 v.toNat) s0
        else if 0x4B001000 ≤ a ∧ a < 0x4B003000 then
          s0.withRegs (cellPut s0.regs a (BitVec.ofNat 64 (v.toNat % 2 ^ 32)))
        else s0
    else s.busError

/-- The value that a read of `n` bytes at `a` in the register space answers, not through an alias; none where it ends in a bus error. -/
def State.directValue (s : State) (a n : Nat) : Option Nat :=
  match regPart a n with
  | some (d, r, sh, bits) => if s.readable d r then some (s.readValue d r sh bits) else none
  | none =>
    if isWindow a && n == 4 && a % 4 == 0 && s.up (islandAt a) then
      some (if 0x4B001000 ≤ a ∧ a < 0x4B003000 then 0 else (s.view a).toNat % 2 ^ 32)
    else none

/-- A read of `n` bytes at `a` in the register space, not through an alias. -/
def State.directRead (s : State) (a n : Nat) : State :=
  match s.directValue a n with
  | none => s.busError
  | some v =>
    match regPart a n with
    | some (d, r, sh, bits) => (if s.up (islandAt r) then s.readEffect d r sh bits else s).respond v
    | none => s.respond v

/-! ### Aliases (R10, R11, R408) -/

/-- An access of `n` bytes at `a` in the register space, not through an alias, reaches a register or a window (R404). -/
def assigned (a n : Nat) : Bool := (regPart a n).isSome || (isWindow a && n == 4 && a % 4 == 0)

/-- An access of each of the members at `addrs` takes place: none of their islands is held in reset, but for RWF fields (R268). -/
def State.allReached (s : State) (addrs : List Nat) (n : Nat) : Bool := addrs.all fun a => (s.directValue a n).isSome

/-- A write through alias `b`: every member applies it under its own rules; a group without members sets EMPTY; an offset that no
register occupies ends in a bus error (R10, R404, R408; DEDUCED, log entry 21). With members in reset the others take the write, and it
ends in a bus error. (DESIGN CHOICE, log entry 117.) -/
def State.aliasWriteOp (s : State) (b : AliasBlock) (a n : Nat) (v : DWord) (x : BusFacts) : State :=
  let ms := (s.aliasMembers b a).map (b.at a)
  if !assigned (b.at a 0) n then s.busError
  else if ms.isEmpty then (s.put SYS_BCAST_STATUS_EMPTY 1).respond 0
  else
    let t := s.each ms fun m s => s.directWrite m n v x
    if s.allReached ms n then t.respond 0 else t.busError

/-- A read through alias `b`: the lowest member's value; MIXED where members differ; 0 and EMPTY for a group without members; no side
effect in a member (R11, R408). With a member in reset it ends in a bus error and sets no flag. (DESIGN CHOICE, log entry 117.) -/
def State.aliasReadOp (s : State) (b : AliasBlock) (a n : Nat) : State :=
  let ms := (s.aliasMembers b a).map (b.at a)
  if !assigned (b.at a 0) n then s.busError
  else
    match ms.map fun m => (s.directValue m n).getD 0 with
    | [] => (s.put SYS_BCAST_STATUS_EMPTY 1).respond 0
    | v :: t =>
      if s.allReached ms n then
        ((s.when (t.any fun w => w != v) (·.put SYS_BCAST_STATUS_MIXED 1)).when (isLive (b.at a 0)) (·.tookFree)).respond v
      else s.busError

/-! ### The HOST island's own ports (R402, R409) -/

/-- Source `k` is pending: asserted and not claimed. -/
def State.plicPending (s : State) (k : Nat) : Bool := s.plicAsserted k && !s.ports.claimed.contains k

/-- Source `k` is enabled in context `c`. -/
def State.plicEnabled (s : State) (c k : Nat) : Bool := (cellGet s.regs (0xC002000 + 0x80 * c + 4 * (k / 32))).toNat.testBit (k % 32)

/-- Priority of source `k`. -/
def State.plicPriority (s : State) (k : Nat) : Nat := (cellGet s.regs (0xC000000 + 4 * k)).toNat % 8

/-- What a claim in context `c` finds: the pending enabled source of the highest priority above 0, the lowest among equals, or 0. -/
def State.plicClaim (s : State) (c : Nat) : Nat :=
  (List.range 64).foldl (fun b k =>
    if s.plicPending k && s.plicEnabled c k && decide (s.plicPriority k > (if b = 0 then 0 else s.plicPriority b)) then k else b) 0

/-- A PLIC register that firmware writes, with the bits it holds: priorities of sources 1 to 63, enables and thresholds of the eight
contexts. -/
def plicMask (o : Nat) : Nat :=
  if o < 0x100 then (if o = 0 then 0 else 7)
  else if 0x2000 ≤ o ∧ o < 0x2400 then (if o % 0x80 = 0 then 0xFFFFFFFE else if o % 0x80 = 4 then 0xFFFFFFFF else 0)
  else if 0x200000 ≤ o ∧ o < 0x208000 ∧ o % 0x1000 = 0 then 7
  else 0

/-- A write of the PLIC: a completion, or a register; other words take nothing. -/
def State.plicWrite (s : State) (a : Nat) (v : Nat) : State :=
  let o := a - 0xC000000
  if 0x200000 ≤ o ∧ o < 0x208000 ∧ o % 0x1000 = 4 then
    if s.plicEnabled ((o - 0x200000) / 0x1000) v then
      s.withPorts { s.ports with claimed := s.ports.claimed.filter fun k => k != v }
    else s
  else if plicMask o = 0 then s
  else s.withRegs (cellPut s.regs a (BitVec.ofNat 64 (v &&& plicMask o)))

/-- A read of the PLIC: a claim, the pending bits, or a register. -/
def State.plicRead (s : State) (a : Nat) : State :=
  let o := a - 0xC000000
  if 0x200000 ≤ o ∧ o < 0x208000 ∧ o % 0x1000 = 4 then
    let k := s.plicClaim ((o - 0x200000) / 0x1000)
    (s.withPorts { s.ports with claimed := if k = 0 then s.ports.claimed else k :: s.ports.claimed }).respond k
  else if o = 0x1000 ∨ o = 0x1004 then
    s.respond ((List.range 32).foldl (fun m i => m + (if s.plicPending (8 * (o - 0x1000) + i) then 2 ^ i else 0)) 0)
  else s.respond ((cellGet s.regs a).toNat &&& plicMask o)

/-- The bytes of the machine timer and software interrupts at offset `o`: MSIP and MTIMECMP of the four cores, MTIME. -/
def aclintReg (o n : Nat) : Bool :=
  (n == 4 && o % 4 == 0 && (decide (o < 0x10) || (decide (0x4000 ≤ o) && decide (o < 0x4020)) || o == 0xBFF8 || o == 0xBFFC)) ||
  (n == 8 && o % 8 == 0 && ((decide (0x4000 ≤ o) && decide (o < 0x4020)) || o == 0xBFF8))

/-- `old` with its half at offset `o`, or all of it for 8 bytes, replaced by `v`. (DEDUCED, log entry 15.) -/
def halfPut (old o n v : Nat) : Nat :=
  if n = 8 then v % 2 ^ 64 else if o % 8 = 4 then old % 2 ^ 32 + v % 2 ^ 32 * 2 ^ 32 else old / 2 ^ 32 * 2 ^ 32 + v % 2 ^ 32

/-- A write of the machine timer and software interrupts. -/
def State.aclintWrite (s : State) (a n v : Nat) : State :=
  let o := a - 0x2000000
  if !aclintReg o n then s.busError
  else if o < 0x10 then (s.withRegs (cellPut s.regs a (BitVec.ofNat 64 (v % 2)))).respond 0
  else if o < 0x8000 then
    (s.withRegs (cellPut s.regs (a / 8 * 8) (BitVec.ofNat 64 (halfPut (cellGet s.regs (a / 8 * 8)).toNat o n v)))).respond 0
  else (s.withPorts { s.ports with mtime := halfPut s.ports.mtime o n v }).respond 0

/-- A read of the machine timer and software interrupts. (PRESUMED, log entry 10.) -/
def State.aclintRead (s : State) (a n : Nat) : State :=
  let o := a - 0x2000000
  let half := fun (v : Nat) => if n = 8 then v else if o % 8 = 4 then v / 2 ^ 32 else v % 2 ^ 32
  if !aclintReg o n then s.busError
  else if o < 0x10 then s.respond (cellGet s.regs a).toNat
  else if o < 0x8000 then s.respond (half (cellGet s.regs (a / 8 * 8)).toNat)
  else s.respond (half s.ports.mtime)

/-! ### The whole address space (R402) -/

/-- An access of `n` bytes that memory takes: 1, 2, 4 or 8. (DESIGN CHOICE, log entry 17.) -/
def memWidth (n : Nat) : Bool := n == 1 || n == 2 || n == 4 || n == 8

/-- An access to system SRAM that ends in a bus error: past its end, or in the staging region while a Glaze is staged (R35, R402). -/
def State.sramBad (s : State) (a n : Nat) : Bool :=
  !memWidth n || decide (0x20800000 < a + n) || (s.glz.staged.isSome && decide (0x20700000 < a + n))

/-- A write of `n` bytes at `a`, once it reaches what stands there (R402 to R408). (DESIGN CHOICE, log entry 12.) -/
def State.busWrite (s : State) (a n : Nat) (v : DWord) (x : BusFacts) : State :=
  if 0x40000000 ≤ a ∧ a < 0x50000000 then
    match aliasAt a with
    | some b => s.aliasWriteOp b a n v x
    | none => s.directWrite a n v x
  else if 0x20000000 ≤ a ∧ a < 0x20800000 then
    (if s.sramBad a n then s.busError else (s.withSram (s.sram.write (a - 0x20000000) n v.toNat)).respond 0)
  else if 0x30000000 ≤ a ∧ a + n ≤ 0x30100000 then (if memWidth n && s.up .meter then s.respond 0 else s.busError)
  else if 0x2000000 ≤ a ∧ a < 0x2010000 then s.aclintWrite a n v.toNat
  else if 0xC000000 ≤ a ∧ a < 0xC400000 then (if n = 4 ∧ a % 4 = 0 then (s.plicWrite a (v.toNat % 2 ^ 32)).respond 0 else s.busError)
  else s.busError

/-- A read of `n` bytes at `a`, once it reaches what stands there (R402 to R408). -/
def State.busRead (s : State) (a n : Nat) : State :=
  if 0x40000000 ≤ a ∧ a < 0x50000000 then
    match aliasAt a with
    | some b => s.aliasReadOp b a n
    | none => s.directRead a n
  else if 0x20000000 ≤ a ∧ a < 0x20800000 then
    (if s.sramBad a n then s.busError else s.respond (s.sram.read (a - 0x20000000) n))
  else if 0x30000000 ≤ a ∧ a + n ≤ 0x30100000 then
    (if memWidth n && s.up .meter then
      s.respond ((cellGet s.met.ring ((a - 0x30000000) / 8)).toNat / 2 ^ (8 * (a % 8)) % 2 ^ (8 * n))
     else s.busError)
  else if 0x2000000 ≤ a ∧ a < 0x2010000 then s.aclintRead a n
  else if 0xC000000 ≤ a ∧ a < 0xC400000 then (if n = 4 ∧ a % 4 = 0 then s.plicRead a else s.busError)
  else if 0x60000000 ≤ a ∧ a + n ≤ 0x70000000 then (if memWidth n then (s.tookFree).respond (s.freeWord.toNat % 2 ^ (8 * n)) else s.busError)
  else s.busError

/-- An access by the block's own firmware: with the HOST in reset or its cores in standby there is none; in phase 0x5 one to a block of R41 waits (R41). -/
def State.cpuAccess (s : State) (a : Nat) (h : Held) (f : State → State) : State :=
  if !s.coresRun then s
  else if heldAt a && s.phase == 5 && s.up (islandAt a) then s.withHeld (s.held ++ [h])
  else f s

/-! ### The commands -/

/-- REGISTER_WRITE: a write of `n` bytes, under the register's access codes and rules (R9, R403 to R405). -/
def execRegisterWrite (a : Word) (v : DWord) (n : Fin 9) (x : BusFacts) (s : State) : Host.Outcome State Fault Refusal :=
  .next (s.cpuAccess a.toNat (.registerWrite a.toNat v n.val) fun s => s.busWrite a.toNat n.val v { x with late := false })

/-- REGISTER_READ_CLEAR: a direct read of `n` bytes; RC fields read clear (R9). -/
def execRegisterReadClear (a : Word) (n : Fin 9) (s : State) : Host.Outcome State Fault Refusal :=
  .next (s.cpuAccess a.toNat (.registerReadClear a.toNat n.val) fun s => s.busRead a.toNat n.val)

/-- ALIAS_WRITE: a write through a broadcast or group alias (R10, R408). -/
def execAliasWrite (a : Word) (v : DWord) (n : Fin 9) (s : State) : Host.Outcome State Fault Refusal :=
  .next (s.cpuAccess a.toNat (.aliasWrite a.toNat v n.val) fun s =>
    match aliasAt a.toNat with
    | some b => s.aliasWriteOp b a.toNat n.val v {}
    | none => s.busWrite a.toNat n.val v {})

/-- ALIAS_READ: a read through a broadcast or group alias (R11, R408). -/
def execAliasRead (a : Word) (n : Fin 9) (s : State) : Host.Outcome State Fault Refusal :=
  .next (s.cpuAccess a.toNat (.aliasRead a.toNat n.val) fun s =>
    match aliasAt a.toNat with
    | some b => s.aliasReadOp b a.toNat n.val
    | none => s.busRead a.toNat n.val)

/-- BUS_ERROR_ACCESS: an access of any address and width as the bus takes it; one to an unassigned offset or range or of a wrong width
ends in a bus error and has no effect (R402 to R404). Above 4 GiB a manager's worker windows have commands of their own; the rest is
unassigned. (DEDUCED, log entry 22.) -/
def execBusErrorAccess (write : Bool) (a : BitVec 40) (v : DWord) (n : Fin 9) (s : State) : Host.Outcome State Fault Refusal :=
  .next (
    let e := a.toNat
    if 0x100000000 ≤ e then
      (if !s.coresRun || (s.isManager && (decide (0x8010000000 ≤ e) && decide (e < 0x8200000000) || decide (0xFF00000000 ≤ e) &&
        decide (e < 0xFF20000000))) then s else s.busError)
    else if write then s.cpuAccess e (.registerWrite e v n.val) fun s => s.busWrite e n.val v {}
    else s.cpuAccess e (.registerReadClear e n.val) fun s => s.busRead e n.val)

/-- A firmware write of the whole register at `a`. -/
def State.wholeWrite (s : State) (a : Nat) (v : DWord) : State :=
  match regAt a with
  | some d => s.busWrite a (d.width / 8) v {}
  | none => s.busError

/-- RWF_WRITE: a write of the register at `a` that holds RWF fields: staged within their limits before firing, else ignored and
counted (R27, R28). -/
def execRwfWrite (a : Word) (v : DWord) (s : State) : Host.Outcome State Fault Refusal :=
  .next (s.cpuAccess a.toNat (.rwfWrite a.toNat v) fun s => s.wholeWrite a.toNat v)

/-- JTAG_IDCODE: the IDCODE instruction answers whether or not debug is locked (R5). (DESIGN CHOICE, log entry 25.) -/
def execJtagIdcode (s : State) : Host.Outcome State Fault Refusal := .next (s.respond 0x17180A6B)

/-- CAN_FRAME_RECEIVED: a frame that passed the acceptance filters of CAN `i` is stored in receive buffer `b`: identifier, control, PTP
receive time and data; its interrupt flag sets (R332, R410). (PRESUMED, log entry 24.) -/
def execCanFrameReceived (i : Fin 2) (b : Fin 64) (id ctl : Word) (data : Vector Word 16) (s : State) : Host.Outcome State Fault Refusal :=
  .next (s.when s.netRuns fun s =>
    let base := 0x4A102000 + 0x10000 * i.val + 0x50 * b.val
    let ws := [id, ctl, BitVec.ofNat 32 s.net.ptp.sec, BitVec.ofNat 32 s.net.ptp.ns] ++ data.toList
    let regs := (List.range 20).foldl (fun m j => cellPut m (base + 4 * j) ((ws.getD j 0).setWidth 64)) s.regs
    (s.withRegs regs).put (CAN_INT_RX i) 1)

end Sys2Proof.Machine
end

