-- ==== Sys2Proof/Machine/Replay.lean ====
section
/-!
DEFINITION. Accesses that wait for phase 0x3 and take effect then, remote requests at a worker, and the end of a firing (R39 to R41,
R307).
-/

namespace Sys2Proof.Machine

open Sys2Proof

/-- A held access of the block's own firmware takes effect: as its command does outside phase 0x5; a self-test that was asked for in it is
refused (R41, R215). (DEDUCED, log entries 84, 106.) -/
def State.runHeld (s : State) (h : Held) : State :=
  let act := fun (a : Nat) (f : State → State) => if s.up (islandAt a) then (f s).respond 0 else s.busError
  match h with
  | .registerWrite a v n => s.busWrite a n v { late := true }
  | .registerReadClear a n => s.busRead a n
  | .aliasWrite a v n => s.busWrite a n v { late := true }
  | .aliasRead a n => s.busRead a n
  | .rwfWrite a v => s.wholeWrite a v
  | .slotWrite k v => act 0x41C10000 (slotWriteOp k v)
  | .coefBankWrite w b i v => act 0x41000000 (coefWriteOp w b i v)
  | .swapRequest k bank atPlant => act 0x41C00000 (swapRequestOp k bank atPlant)
  | .istateWrite w j v => act 0x41000000 (istateWriteOp w j v)
  | .mboxRead => if s.up .wheel then (mboxReadOp s).1.respond (mboxReadOp s).2 else s.busError
  | .mboxThreshWrite v => act 0x41C00000 (mboxThreshOp v)
  | .clearTrip => act 0x42100000 clearTripOp
  | .islCmd c => act 0x42200000 (islCmdOp c)
  | .dciSweepRequest l => act 0x42300000 (dciSweepRequestOp l)
  | .dciAbort => act 0x42300000 dciAbortOp
  | .periodWrite p v => act 0x43000000 (periodWriteOp p v)
  | .ovrWrite p v => act 0x43000000 (ovrWriteOp p v)
  | .hopEval => act 0x43000000 State.hopEval
  | .quietBandWrite k hi v => act 0x43000000 (quietBandOp k hi v)
  | .trimWrite n c v => act 0x44000000 (trimOp n c v)
  | .arm n => act 0x44000000 (armOp n)
  | .disarm n => act 0x44000000 (disarmOp n)
  | .desatClear n c => act 0x44000000 (desatClearOp n c)
  | .bootStopClear n => act 0x44000000 (bootStopClearOp n)
  | .supplyUvClear n c => act 0x44000000 (supplyUvClearOp n c)
  | .diag n => act 0x44000000 (diagOp n)
  | .diagAbort n => act 0x44000000 (·.diagStop n)
  | .winThrWrite n v => act 0x45000000 (winThrOp n v)
  | .selftest n => act 0x45000000 (·.selftestRefuse n)
  | .shadow n => act 0x45000000 (shadowOp n)
  | .pairStatClear mask => act 0x44800000 (pairStatOp mask)
  | .stop alsoClear => act 0x44800000 (stopOp alsoClear)
  | .clearStop => act 0x44800000 clearStopOp
  | .plantStop => act 0x44800000 plantStopOp
  | .clearPlant => act 0x44800000 clearPlantOp
  | .adcStart n gap => act 0x46000000 (adcStartOp n gap)
  | .cal n => act 0x46000000 (calOp n)
  | .calAll => act 0x46000000 calAllOp

/-- The accesses held during phase 0x5 complete in their order (R41). -/
def State.releaseHeld (s : State) : State := (s.withHeld []).each s.held fun h s => s.runHeld h

/-! ### Remote requests (R305 to R308) -/

/-- A remote request carried out: the access, then the response with status DECERR where it ended in a bus error. What the last access of
the block's own firmware answered stays (R307, R308). (DEDUCED, log entry 23.) -/
def State.runReq (s : State) (r : RemReq) : State :=
  let n := if r.wide then 8 else 4
  let t := if r.addr < 0x40000000 ∨ 0x50000000 ≤ r.addr then s.busError
    else if r.write then s.busWrite r.addr n r.value r.facts else s.busRead r.addr n
  ((t.withResp s.resp).sendFrame s.upLane { cls := 5, tag := r.tag } (bitOf t.resp.err)
    (if r.write then [] else [t.resp.value.toNat])).freeCredit false

/-- A request waits: its block is one of R41 and a firing is in phase 0x5. -/
def State.reqWaits (s : State) (r : RemReq) : Bool := heldAt r.addr && s.phase == 5 && s.up (islandAt r.addr)

/-- The given requests carried out in their order, up to the first that waits (R307, R41). -/
def State.drainReqs (s : State) (l : List RemReq) : State :=
  match l with
  | [] => s.onWlk fun x => { x with reqs := [] }
  | r :: rest =>
    if s.reqWaits r then s.onWlk fun x => { x with reqs := (r :: rest).map fun q => { q with facts := { q.facts with late := true } } }
    else (s.runReq r).drainReqs rest

/-- REM_REQ: a request reaches this worker; the frame passes on downstream, and one that is addressed to it (`mine`: by its number, to all, or to
a group it belongs to) is carried out after those before it. One whose CRC fails is discarded (R295, R297, R307). -/
def execRemReq (h : ReqHead) (write : Bool) (a : Word) (wide : Bool) (v : DWord) (x : BusFacts) (s : State) :
    Host.Outcome State Fault Refusal :=
  .next (
    if !s.up .lane || !s.isWorker then s
    else if !h.crcOk then s.passDiscard
    else if h.mine && s.numberedWorker then
      s.passDown.drainReqs (s.wlk.reqs ++ [{ tag := h.tag.toNat, write := write, addr := a.toNat, wide := wide, value := v, facts := { x with late := false } }])
    else s.passDown)

/-! ### The end of a firing (R39 steps 7 and 8, R40, R42 to R44) -/

/-- The GLAZE_FIRED record: the incoming identity, then five CONT entries: the outgoing identity and the firing digest (R39, R258). -/
def State.firedRecord (s : State) : State :=
  let g := s.glz.outgoing
  let old := match g with
    | some o => payload2 o.image.imageId o.image.version
    | none => 0
  let d := s.glz.firingDigest
  s.journalC 0x08 0 (payload2 (s.get GLZ_ACTIVE_ID_IMAGE_ID) (s.get GLZ_ACTIVE_VER_IMAGE_VERSION))
    (old :: (List.range 4).map (digestPart d 8))

/-- The rollback counter advances to the version of the Glaze in force where that is higher (R34). -/
def State.rollbackAdvance (s : State) : State :=
  if s.get SAG_ROLLBACK_GLZ_VALUE < s.get GLZ_ACTIVE_VER_IMAGE_VERSION then
    s.put SAG_ROLLBACK_GLZ_VALUE (s.get GLZ_ACTIVE_VER_IMAGE_VERSION)
  else s

/-- A plant stop that the manager's firing alone raised ends with it, if no other cause is then active (R43, R227). (DEDUCED, log entry 108.) -/
def State.plantFiringEnd (s : State) : State :=
  let s1 := (s.onGlz fun x => { x with firePlantCause := false }).withSit { s.sit with plantOnlyFiring := false }
  if s.sit.plantOnlyFiring && !s1.plantCause then s1.put SIT_STATUS_PLANT_OUT 0 else s1

/-- The output of trip unit `k`, or of a spare on its line, asserts because its input crossed a threshold, and is not only forced (R218). -/
def State.unitCrossed (s : State) (k : Nat) : Bool :=
  let out := fun (n : Fin 44) => !s.wins[n].testing && s.bit (WIN_STATUS_ASSERTED n)
  if h : k < 44 then out ⟨k, h⟩ || spares.any fun x => s.wins[x].shadowOf == some k && out x else false

/-- Phase 0x3 reached: results, a block stop whose only cause is FIRING cleared, trip units that still assert latched under the new
routing (R39 step 8, R40, R44, R218). GLZ.STAGED_ID and STAGED_VER name the Glaze until here. (DESIGN CHOICE, log entry 91.) -/
def State.phaseFired (s : State) : State :=
  let s1 := ((s.put SYS_STATE_PHASE 3).put GLZ_STATUS_FIRING 0).glzDone
  let s2 := ((s1.put GLZ_INT_FIRE_DONE 1).inc GLZ_FIRE_COUNT_COUNT).put GLZ_STAGED_ID_IMAGE_ID 0 |>.put GLZ_STAGED_VER_IMAGE_VERSION 0
  let s3 := (s2.withSit { s2.sit with trippedOnce := true }).onGlz fun x => { x with outgoing := none, outgoingDigest := 0 }
  let s4 := s3.when (s3.get SIT_CAUSE_CAUSE == 2 ^ 16) clearStopOp
  (s4.plantFiringEnd.each (List.range 32) fun k s => s.when (s.unitLive k) fun s => s.tripLine k (s.unitCrossed k)).adcRun

/-- FIRE_COMPLETE: steps 7 and 8 of a firing; the accesses held in phase 0x5 and the remote requests that waited then complete (R39,
R41). (DEDUCED, log entry 33.) -/
def execFireComplete (s : State) : Host.Outcome State Fault Refusal :=
  .next (
    if s.phase == 5 then
      let s1 := s.rollbackAdvance.firedRecord.phaseFired.releaseHeld
      s1.drainReqs s1.wlk.reqs
    else s)

end Sys2Proof.Machine
end

