-- ==== Sys2Proof/Machine/Dispatch.lean ====
section
/-! DEFINITION. One arm per command: the call of its meaning. -/

namespace Sys2Proof.Machine

open Sys2Proof

/-- The effect of a command on everything but the queue. -/
def exec (i : Instr) (s : State) : Host.Outcome State Fault Refusal :=
  match i with
  | .registerWrite a v n x => Sys2Proof.Machine.execRegisterWrite a v n x s
  | .registerReadClear a n => Sys2Proof.Machine.execRegisterReadClear a n s
  | .aliasWrite a v n => Sys2Proof.Machine.execAliasWrite a v n s
  | .aliasRead a n => Sys2Proof.Machine.execAliasRead a n s
  | .busErrorAccess write a v n => Sys2Proof.Machine.execBusErrorAccess write a v n s
  | .jtagIdcode => Sys2Proof.Machine.execJtagIdcode s
  | .rwfWrite a v => Sys2Proof.Machine.execRwfWrite a v s
  | .load g => Sys2Proof.Machine.execLoad g s
  | .loadComplete => Sys2Proof.Machine.execLoadComplete s
  | .fire intact => Sys2Proof.Machine.execFire intact s
  | .firingEnter => Sys2Proof.Machine.execFiringEnter s
  | .fireComplete => Sys2Proof.Machine.execFireComplete s
  | .discard => Sys2Proof.Machine.execDiscard s
  | .abortLoad => Sys2Proof.Machine.execAbortLoad s
  | .timerTrigger k => Sys2Proof.Machine.execTimerTrigger k s
  | .ptpTrigger k => Sys2Proof.Machine.execPtpTrigger k s
  | .sampleStart k => Sys2Proof.Machine.execSampleStart k s
  | .endOfSample k => Sys2Proof.Machine.execEndOfSample k s
  | .deadlineMiss k => Sys2Proof.Machine.execDeadlineMiss k s
  | .triggerTimeout k => Sys2Proof.Machine.execTriggerTimeout k s
  | .memoryError w => Sys2Proof.Machine.execMemoryError w s
  | .correctedError w => Sys2Proof.Machine.execCorrectedError w s
  | .slotWrite k v => Sys2Proof.Machine.execSlotWrite k v s
  | .coefBankWrite w b j v => Sys2Proof.Machine.execCoefBankWrite w b j v s
  | .swapRequest k bank atPlant => Sys2Proof.Machine.execSwapRequest k bank atPlant s
  | .istateWrite w j v => Sys2Proof.Machine.execIstateWrite w j v s
  | .mboxRead => Sys2Proof.Machine.execMboxRead s
  | .mboxThreshWrite v => Sys2Proof.Machine.execMboxThreshWrite v s
  | .nop w p => Sys2Proof.Machine.execNop w p s
  | .endP w p => Sys2Proof.Machine.execEndP w p s
  | .mov w p d a => Sys2Proof.Machine.execMov w p d a s
  | .getf w p d => Sys2Proof.Machine.execGetf w p d s
  | .cyc w p d => Sys2Proof.Machine.execCyc w p d s
  | .pset w p u f a b => Sys2Proof.Machine.execPset w p u f a b s
  | .lds w p d e => Sys2Proof.Machine.execLds w p d e s
  | .ldf w p d e => Sys2Proof.Machine.execLdf w p d e s
  | .freshReadReturn w c => Sys2Proof.Machine.execFreshReadReturn w c s
  | .freshReadTimeout w => Sys2Proof.Machine.execFreshReadTimeout w s
  | .sts w p a e => Sys2Proof.Machine.execSts w p a e s
  | .ldc w p d e => Sys2Proof.Machine.execLdc w p d e s
  | .adcs w p m => Sys2Proof.Machine.execAdcs w p m s
  | .post w p a tag => Sys2Proof.Machine.execPost w p a tag s
  | .loop w p a max lend => Sys2Proof.Machine.execLoop w p a max lend s
  | .brf w p t => Sys2Proof.Machine.execBrf w p t s
  | .fadd w p d a b => Sys2Proof.Machine.execFadd w p d a b s
  | .fsub w p d a b => Sys2Proof.Machine.execFsub w p d a b s
  | .fmul w p d a b => Sys2Proof.Machine.execFmul w p d a b s
  | .fma w p d a b c => Sys2Proof.Machine.execFma w p d a b c s
  | .fms w p d a b c => Sys2Proof.Machine.execFms w p d a b c s
  | .fmin w p d a b => Sys2Proof.Machine.execFmin w p d a b s
  | .fmax w p d a b => Sys2Proof.Machine.execFmax w p d a b s
  | .fclamp w p d a b c => Sys2Proof.Machine.execFclamp w p d a b c s
  | .fabs w p d a => Sys2Proof.Machine.execFabs w p d a s
  | .fneg w p d a => Sys2Proof.Machine.execFneg w p d a s
  | .fdiv w p d a b => Sys2Proof.Machine.execFdiv w p d a b s
  | .fsqrt w p d a => Sys2Proof.Machine.execFsqrt w p d a s
  | .fcmp w p u q a b => Sys2Proof.Machine.execFcmp w p u q a b s
  | .f2q w p d a => Sys2Proof.Machine.execF2q w p d a s
  | .q2f w p d a => Sys2Proof.Machine.execQ2f w p d a s
  | .f2i w p d a => Sys2Proof.Machine.execF2i w p d a s
  | .i2f w p d a => Sys2Proof.Machine.execI2f w p d a s
  | .f2u w p d a => Sys2Proof.Machine.execF2u w p d a s
  | .qadd w p d a b => Sys2Proof.Machine.execQadd w p d a b s
  | .qsub w p d a b => Sys2Proof.Machine.execQsub w p d a b s
  | .qmul w p d a b => Sys2Proof.Machine.execQmul w p d a b s
  | .qmac w p d a b c => Sys2Proof.Machine.execQmac w p d a b c s
  | .qabs w p d a => Sys2Proof.Machine.execQabs w p d a s
  | .qcmp w p u q a b => Sys2Proof.Machine.execQcmp w p u q a b s
  | .iadd w p d a b => Sys2Proof.Machine.execIadd w p d a b s
  | .isub w p d a b => Sys2Proof.Machine.execIsub w p d a b s
  | .and w p d a b => Sys2Proof.Machine.execAnd w p d a b s
  | .or w p d a b => Sys2Proof.Machine.execOr w p d a b s
  | .xor w p d a b => Sys2Proof.Machine.execXor w p d a b s
  | .shl w p d a b => Sys2Proof.Machine.execShl w p d a b s
  | .shr w p d a b => Sys2Proof.Machine.execShr w p d a b s
  | .sar w p d a b => Sys2Proof.Machine.execSar w p d a b s
  | .icmp w p u q a b => Sys2Proof.Machine.execIcmp w p u q a b s
  | .ucmp w p u q a b => Sys2Proof.Machine.execUcmp w p u q a b s
  | .crot w p d a b => Sys2Proof.Machine.execCrot w p d a b s
  | .crotv w p d a b c => Sys2Proof.Machine.execCrotv w p d a b c s
  | .cvec w p d a b => Sys2Proof.Machine.execCvec w p d a b s
  | .iacc w p d u a b => Sys2Proof.Machine.execIacc w p d u a b s
  | .ird w p d u => Sys2Proof.Machine.execIrd w p d u s
  | .ipre w p u a => Sys2Proof.Machine.execIpre w p u a s
  | .ilim w p u a b => Sys2Proof.Machine.execIlim w p u a b s
  | .bq w p d u a c => Sys2Proof.Machine.execBq w p d u a c s
  | .bqclr w p u => Sys2Proof.Machine.execBqclr w p u s
  | .res w p d u a b => Sys2Proof.Machine.execRes w p d u a b s
  | .resr w p d u => Sys2Proof.Machine.execResr w p d u s
  | .gsuPublish j => Sys2Proof.Machine.execGsuPublish j s
  | .gsuAnglePublish j => Sys2Proof.Machine.execGsuAnglePublish j s
  | .gsuLock j => Sys2Proof.Machine.execGsuLock j s
  | .wrongSeq j => Sys2Proof.Machine.execWrongSeq j s
  | .missN j => Sys2Proof.Machine.execMissN j s
  | .rtsTick => Sys2Proof.Machine.execRtsTick s
  | .rtsBandChange c => Sys2Proof.Machine.execRtsBandChange c s
  | .rtsTimeLimit c => Sys2Proof.Machine.execRtsTimeLimit c s
  | .clearTrip => Sys2Proof.Machine.execClearTrip s
  | .islTickPublish => Sys2Proof.Machine.execIslTickPublish s
  | .islPassiveFire m => Sys2Proof.Machine.execIslPassiveFire m s
  | .islPulseStart => Sys2Proof.Machine.execIslPulseStart s
  | .islPulseEnd => Sys2Proof.Machine.execIslPulseEnd s
  | .islTonePublish => Sys2Proof.Machine.execIslTonePublish s
  | .islAnglePublish => Sys2Proof.Machine.execIslAnglePublish s
  | .islEstWindowEnd j => Sys2Proof.Machine.execIslEstWindowEnd j s
  | .islNotchWrite => Sys2Proof.Machine.execIslNotchWrite s
  | .islNotchMirror => Sys2Proof.Machine.execIslNotchMirror s
  | .toGfm => Sys2Proof.Machine.execToGfm s
  | .toGfl => Sys2Proof.Machine.execToGfl s
  | .resync => Sys2Proof.Machine.execResync s
  | .presetL2 => Sys2Proof.Machine.execPresetL2 s
  | .presetL3 => Sys2Proof.Machine.execPresetL3 s
  | .clearDet => Sys2Proof.Machine.execClearDet s
  | .islTransferDecide => Sys2Proof.Machine.execIslTransferDecide s
  | .islSyncOk => Sys2Proof.Machine.execIslSyncOk s
  | .islDeferExpiry => Sys2Proof.Machine.execIslDeferExpiry s
  | .dciPublish => Sys2Proof.Machine.execDciPublish s
  | .dciSweepRequest l => Sys2Proof.Machine.execDciSweepRequest l s
  | .dciSweepTimer l => Sys2Proof.Machine.execDciSweepTimer l s
  | .dciSweepWindowStart => Sys2Proof.Machine.execDciSweepWindowStart s
  | .dciSweepPoint => Sys2Proof.Machine.execDciSweepPoint s
  | .dciSweepDone => Sys2Proof.Machine.execDciSweepDone s
  | .dciSweepAbort => Sys2Proof.Machine.execDciSweepAbort s
  | .dciAbort => Sys2Proof.Machine.execDciAbort s
  | .dciReturnDone => Sys2Proof.Machine.execDciReturnDone s
  | .dciOutWin l => Sys2Proof.Machine.execDciOutWin l s
  | .loadPoint x => Sys2Proof.Machine.execLoadPoint x s
  | .compareArrival x => Sys2Proof.Machine.execCompareArrival x s
  | .periodStart x => Sys2Proof.Machine.execPeriodStart x s
  | .edgeDue p e => Sys2Proof.Machine.execEdgeDue p e s
  | .epoch => Sys2Proof.Machine.execEpoch s
  | .periodWrite p v => Sys2Proof.Machine.execPeriodWrite p v s
  | .ovrWrite p v => Sys2Proof.Machine.execOvrWrite p v s
  | .hopEval => Sys2Proof.Machine.execHopEval s
  | .quietBandWrite k hi v => Sys2Proof.Machine.execQuietBandWrite k hi v s
  | .trimWrite n c v => Sys2Proof.Machine.execTrimWrite n c v s
  | .delayMeasured n c ton toff => Sys2Proof.Machine.execDelayMeasured n c ton toff s
  | .supOk n c => Sys2Proof.Machine.execSupOk n c s
  | .supplyUv n c => Sys2Proof.Machine.execSupplyUv n c s
  | .arm n => Sys2Proof.Machine.execArm n s
  | .disarm n => Sys2Proof.Machine.execDisarm n s
  | .interlockRelease n c => Sys2Proof.Machine.execInterlockRelease n c s
  | .bootUvEvent n => Sys2Proof.Machine.execBootUvEvent n s
  | .bootUvRecover n => Sys2Proof.Machine.execBootUvRecover n s
  | .blankingEnd n c => Sys2Proof.Machine.execBlankingEnd n c s
  | .desatDetect n c => Sys2Proof.Machine.execDesatDetect n c s
  | .softOffStep2 n c => Sys2Proof.Machine.execSoftOffStep2 n c s
  | .softOffFullSink n c => Sys2Proof.Machine.execSoftOffFullSink n c s
  | .desatClear n c => Sys2Proof.Machine.execDesatClear n c s
  | .bootStopClear n => Sys2Proof.Machine.execBootStopClear n s
  | .supplyUvClear n c => Sys2Proof.Machine.execSupplyUvClear n c s
  | .diag n => Sys2Proof.Machine.execDiag n s
  | .diagAbort n => Sys2Proof.Machine.execDiagAbort n s
  | .diagTestStep n o => Sys2Proof.Machine.execDiagTestStep n o s
  | .diagDone n => Sys2Proof.Machine.execDiagDone n s
  | .segmentMeasure n c k rds broken => Sys2Proof.Machine.execSegmentMeasure n c k rds broken s
  | .tileOverTemp n => Sys2Proof.Machine.execTileOverTemp n s
  | .tileOtClear n => Sys2Proof.Machine.execTileOtClear n s
  | .tileControlLoss n => Sys2Proof.Machine.execTileControlLoss n s
  | .tileFallbackStage2 n => Sys2Proof.Machine.execTileFallbackStage2 n s
  | .winAssert n x => Sys2Proof.Machine.execWinAssert n x s
  | .winDeassert x => Sys2Proof.Machine.execWinDeassert x s
  | .winBlankEnd x => Sys2Proof.Machine.execWinBlankEnd x s
  | .winThrWrite n v => Sys2Proof.Machine.execWinThrWrite n v s
  | .winRelease n side => Sys2Proof.Machine.execWinRelease n side s
  | .winStateChange n x => Sys2Proof.Machine.execWinStateChange n x s
  | .selftest n => Sys2Proof.Machine.execSelftest n s
  | .selftestDone n up down => Sys2Proof.Machine.execSelftestDone n up down s
  | .shadow n => Sys2Proof.Machine.execShadow n s
  | .shadowReady n => Sys2Proof.Machine.execShadowReady n s
  | .pairStatClear mask => Sys2Proof.Machine.execPairStatClear mask s
  | .safeOrderStage2 => Sys2Proof.Machine.execSafeOrderStage2 s
  | .safeOrderTileDone n => Sys2Proof.Machine.execSafeOrderTileDone n s
  | .stop alsoClear => Sys2Proof.Machine.execStop alsoClear s
  | .clearStop => Sys2Proof.Machine.execClearStop s
  | .plantStop => Sys2Proof.Machine.execPlantStop s
  | .clearPlant => Sys2Proof.Machine.execClearPlant s
  | .conversionDone n raw ovf => Sys2Proof.Machine.execConversionDone n raw ovf s
  | .adcStart n gap => Sys2Proof.Machine.execAdcStart n gap s
  | .adcWatchdog n => Sys2Proof.Machine.execAdcWatchdog n s
  | .cal n => Sys2Proof.Machine.execCal n s
  | .calTakeover n => Sys2Proof.Machine.execCalTakeover n s
  | .calComplete n f => Sys2Proof.Machine.execCalComplete n f s
  | .calReturn n => Sys2Proof.Machine.execCalReturn n s
  | .calAll => Sys2Proof.Machine.execCalAll s
  | .meterSample o => Sys2Proof.Machine.execMeterSample o s
  | .gainSettled c => Sys2Proof.Machine.execGainSettled c s
  | .pqIntervalEnd => Sys2Proof.Machine.execPqIntervalEnd s
  | .meterWrongSeq on => Sys2Proof.Machine.execMeterWrongSeq on s
  | .meterMissN on v0 => Sys2Proof.Machine.execMeterMissN on v0 s
  | .reverseFlow p v => Sys2Proof.Machine.execReverseFlow p v s
  | .periodicSave => Sys2Proof.Machine.execPeriodicSave s
  | .saveComplete => Sys2Proof.Machine.execSaveComplete s
  | .meterResume => Sys2Proof.Machine.execMeterResume s
  | .journalEntry => Sys2Proof.Machine.execJournalEntry s
  | .jrnlCommit => Sys2Proof.Machine.execJrnlCommit s
  | .refLost => Sys2Proof.Machine.execRefLost s
  | .refValid => Sys2Proof.Machine.execRefValid s
  | .pllEnWrite n en => Sys2Proof.Machine.execPllEnWrite n en s
  | .pllConfigWrite n div v => Sys2Proof.Machine.execPllConfigWrite n div v s
  | .pllLock n => Sys2Proof.Machine.execPllLock n s
  | .pllLockLoss n => Sys2Proof.Machine.execPllLockLoss n s
  | .holdoverExit n => Sys2Proof.Machine.execHoldoverExit n s
  | .pllRelock n => Sys2Proof.Machine.execPllRelock n s
  | .pllStep n v => Sys2Proof.Machine.execPllStep n v s
  | .pllStepUnit n => Sys2Proof.Machine.execPllStepUnit n s
  | .pllStepSettled n => Sys2Proof.Machine.execPllStepSettled n s
  | .trainStart l => Sys2Proof.Machine.execTrainStart l s
  | .trainComplete l precodeTx pre post => Sys2Proof.Machine.execTrainComplete l precodeTx pre post s
  | .trainAttemptFail l => Sys2Proof.Machine.execTrainAttemptFail l s
  | .trainRetry l => Sys2Proof.Machine.execTrainRetry l s
  | .laneDown l ring => Sys2Proof.Machine.execLaneDown l ring s
  | .codewordUncorrectable l => Sys2Proof.Machine.execCodewordUncorrectable l s
  | .retrain l => Sys2Proof.Machine.execRetrain l s
  | .l1 l => Sys2Proof.Machine.execL1 l s
  | .l2 l => Sys2Proof.Machine.execL2 l s
  | .wake l => Sys2Proof.Machine.execWake l s
  | .testEnter l => Sys2Proof.Machine.execTestEnter l s
  | .testExit l => Sys2Proof.Machine.execTestExit l s
  | .autoL1Request l => Sys2Proof.Machine.execAutoL1Request l s
  | .powerStateEnter l l2 => Sys2Proof.Machine.execPowerStateEnter l l2 s
  | .powerStateLapse l => Sys2Proof.Machine.execPowerStateLapse l s
  | .powerStateExit l => Sys2Proof.Machine.execPowerStateExit l s
  | .l2ExitRetrain l => Sys2Proof.Machine.execL2ExitRetrain l s
  | .patCfgWrite l v => Sys2Proof.Machine.execPatCfgWrite l v s
  | .patLock l => Sys2Proof.Machine.execPatLock l s
  | .patLockLost l bits errs => Sys2Proof.Machine.execPatLockLost l bits errs s
  | .inject l => Sys2Proof.Machine.execInject l s
  | .loopWrite l v => Sys2Proof.Machine.execLoopWrite l v s
  | .rlbReq l req answer => Sys2Proof.Machine.execRlbReq l req answer s
  | .rlbRequestReceived l req => Sys2Proof.Machine.execRlbRequestReceived l req s
  | .eyeMeasure l eye h v => Sys2Proof.Machine.execEyeMeasure l eye h v s
  | .plantPeriodBoundary n => Sys2Proof.Machine.execPlantPeriodBoundary n s
  | .linkLoss => Sys2Proof.Machine.execLinkLoss s
  | .ctrlLaunch => Sys2Proof.Machine.execCtrlLaunch s
  | .ctrlFrame crcOk f => Sys2Proof.Machine.execCtrlFrame crcOk f s
  | .reportFrame l crcOk w status v => Sys2Proof.Machine.execReportFrame l crcOk w status v s
  | .timeFrame crcOk sec ns frac valid => Sys2Proof.Machine.execTimeFrame crcOk sec ns frac valid s
  | .syncUnit offset => Sys2Proof.Machine.execSyncUnit offset s
  | .stopUnit => Sys2Proof.Machine.execStopUnit s
  | .plantStopRepeat => Sys2Proof.Machine.execPlantStopRepeat s
  | .delayReq l => Sys2Proof.Machine.execDelayReq l s
  | .delayReqReceived l => Sys2Proof.Machine.execDelayReqReceived l s
  | .delayRsp l t2 t3 => Sys2Proof.Machine.execDelayRsp l t2 t3 s
  | .flow l w back => Sys2Proof.Machine.execFlow l w back s
  | .ringReverse l pos => Sys2Proof.Machine.execRingReverse l pos s
  | .discover => Sys2Proof.Machine.execDiscover s
  | .position f => Sys2Proof.Machine.execPosition f s
  | .announce c f => Sys2Proof.Machine.execAnnounce c f s
  | .positionTimeout c => Sys2Proof.Machine.execPositionTimeout c s
  | .number f w => Sys2Proof.Machine.execNumber f w s
  | .discoveryDone c hops ring => Sys2Proof.Machine.execDiscoveryDone c hops ring s
  | .ringRestore linksUp => Sys2Proof.Machine.execRingRestore linksUp s
  | .remoteAccess write addr size v => Sys2Proof.Machine.execRemoteAccess write addr size v s
  | .remReq h write a wide v x => Sys2Proof.Machine.execRemReq h write a wide v x s
  | .remRsp l f w a => Sys2Proof.Machine.execRemRsp l f w a s
  | .remoteTimeout t => Sys2Proof.Machine.execRemoteTimeout t s
  | .plantBroadcastWrite g o wide v => Sys2Proof.Machine.execPlantBroadcastWrite g o wide v s
  | .plantBroadcastRead => Sys2Proof.Machine.execPlantBroadcastRead s
  | .blkGo v => Sys2Proof.Machine.execBlkGo v s
  | .bulkFrame l crcOk f => Sys2Proof.Machine.execBulkFrame l crcOk f s
  | .bulkDone lost nacks => Sys2Proof.Machine.execBulkDone lost nacks s
  | .macEnWrite m v => Sys2Proof.Machine.execMacEnWrite m v s
  | .kick m => Sys2Proof.Machine.execKick m s
  | .macFrameTx m a => Sys2Proof.Machine.execMacFrameTx m a s
  | .macFrameRx m bytes crcOk tag icvOk => Sys2Proof.Machine.execMacFrameRx m bytes crcOk tag icvOk s
  | .macLinkChange m up rate => Sys2Proof.Machine.execMacLinkChange m up rate s
  | .ptpIncWrite half v => Sys2Proof.Machine.execPtpIncWrite half v s
  | .ptpOfsWrite v => Sys2Proof.Machine.execPtpOfsWrite v s
  | .ptpSet => Sys2Proof.Machine.execPtpSet s
  | .setValid => Sys2Proof.Machine.execSetValid s
  | .clrValid => Sys2Proof.Machine.execClrValid s
  | .ptpNowRead => Sys2Proof.Machine.execPtpNowRead s
  | .lqCommit m v => Sys2Proof.Machine.execLqCommit m v s
  | .flush m => Sys2Proof.Machine.execFlush m s
  | .launchDue m a => Sys2Proof.Machine.execLaunchDue m a s
  | .tsqRead m half => Sys2Proof.Machine.execTsqRead m half s
  | .resetModule cause => Sys2Proof.Machine.execResetModule cause s
  | .railsGood rail selfTest => Sys2Proof.Machine.execRailsGood rail selfTest s
  | .hostRelease f => Sys2Proof.Machine.execHostRelease f s
  | .saggarEntryFlush => Sys2Proof.Machine.execSaggarEntryFlush s
  | .getInfo => Sys2Proof.Machine.execGetInfo s
  | .getNonce => Sys2Proof.Machine.execGetNonce s
  | .attest nonce verifies => Sys2Proof.Machine.execAttest nonce verifies s
  | .getCert => Sys2Proof.Machine.execGetCert s
  | .enroll fw glz svc okek sig => Sys2Proof.Machine.execEnroll fw glz svc okek sig s
  | .rotate k v wrap sig => Sys2Proof.Machine.execRotate k v wrap sig s
  | .releaseOwner sig => Sys2Proof.Machine.execReleaseOwner sig s
  | .fwConfirm => Sys2Proof.Machine.execFwConfirm s
  | .setBoot glz slot img => Sys2Proof.Machine.execSetBoot glz slot img s
  | .counterInc k => Sys2Proof.Machine.execCounterInc k s
  | .counterRead k => Sys2Proof.Machine.execCounterRead k s
  | .debugUnlock two sig => Sys2Proof.Machine.execDebugUnlock two sig s
  | .debugLock => Sys2Proof.Machine.execDebugLock s
  | .totalsReset sig => Sys2Proof.Machine.execTotalsReset sig s
  | .tamperCfg temp volt clk hi sig => Sys2Proof.Machine.execTamperCfg temp volt clk hi sig s
  | .zeroise sig => Sys2Proof.Machine.execZeroise sig s
  | .cakInstall m slot ckn wrap => Sys2Proof.Machine.execCakInstall m slot ckn wrap s
  | .sakGen m a slot => Sys2Proof.Machine.execSakGen m a slot s
  | .sakLoad m a slot wrap => Sys2Proof.Machine.execSakLoad m a slot wrap s
  | .mkaIcv cak pdu => Sys2Proof.Machine.execMkaIcv cak pdu s
  | .random n => Sys2Proof.Machine.execRandom n s
  | .serviceComplete => Sys2Proof.Machine.execServiceComplete s
  | .treeBuildDone => Sys2Proof.Machine.execTreeBuildDone s
  | .nonceExpiry => Sys2Proof.Machine.execNonceExpiry s
  | .tamperEvent sensor v => Sys2Proof.Machine.execTamperEvent sensor v s
  | .xspiCmd v programs span => Sys2Proof.Machine.execXspiCmd v programs span s
  | .pugModeChange active secs => Sys2Proof.Machine.execPugModeChange active secs s
  | .pugVocMeasure voc store harvest => Sys2Proof.Machine.execPugVocMeasure voc store harvest s
  | .pugSourceChange store vbat => Sys2Proof.Machine.execPugSourceChange store vbat s
  | .vbatLow mv => Sys2Proof.Machine.execVbatLow mv s
  | .pugThrWrite v => Sys2Proof.Machine.execPugThrWrite v s
  | .lastGaspTrigger tamper detail => Sys2Proof.Machine.execLastGaspTrigger tamper detail s
  | .heartbeat store => Sys2Proof.Machine.execHeartbeat store s
  | .lastGaspSend => Sys2Proof.Machine.execLastGaspSend s
  | .lastGaspWarmupEnd => Sys2Proof.Machine.execLastGaspWarmupEnd s
  | .lastGaspSent => Sys2Proof.Machine.execLastGaspSent s
  | .lastGaspAbort => Sys2Proof.Machine.execLastGaspAbort s
  | .vauxValid => Sys2Proof.Machine.execVauxValid s
  | .vauxInvalid => Sys2Proof.Machine.execVauxInvalid s
  | .vauxHigh outside => Sys2Proof.Machine.execVauxHigh outside s
  | .deratedSet => Sys2Proof.Machine.execDeratedSet s
  | .deratedClear => Sys2Proof.Machine.execDeratedClear s
  | .pfWarnFall => Sys2Proof.Machine.execPfWarnFall s
  | .pfWarnRise => Sys2Proof.Machine.execPfWarnRise s
  | .pfWarnWrite v => Sys2Proof.Machine.execPfWarnWrite v s
  | .gpEnWrite en => Sys2Proof.Machine.execGpEnWrite en s
  | .brownOut => Sys2Proof.Machine.execBrownOut s
  | .resetPin => Sys2Proof.Machine.execResetPin s
  | .firmwareReset => Sys2Proof.Machine.execFirmwareReset s
  | .resetAssert late => Sys2Proof.Machine.execResetAssert late s
  | .standby => Sys2Proof.Machine.execStandby s
  | .standbyWake => Sys2Proof.Machine.execStandbyWake s
  | .wdogStart v => Sys2Proof.Machine.execWdogStart v s
  | .wdogKick v => Sys2Proof.Machine.execWdogKick v s
  | .wdogHalf => Sys2Proof.Machine.execWdogHalf s
  | .watchdogExpiry => Sys2Proof.Machine.execWatchdogExpiry s
  | .dieHot => Sys2Proof.Machine.execDieHot s
  | .thermal => Sys2Proof.Machine.execThermal s
  | .commit p => Sys2Proof.Machine.execCommit p s
  | .dismiss p => Sys2Proof.Machine.execDismiss p s
  | .retire kind inst sub => Sys2Proof.Machine.execRetire kind inst sub s
  | .diagnose n => Sys2Proof.Machine.execDiagnose n s
  | .mapAdd => Sys2Proof.Machine.execMapAdd s
  | .diagTwinPlace => Sys2Proof.Machine.execDiagTwinPlace s
  | .diagVerdict mean burst => Sys2Proof.Machine.execDiagVerdict mean burst s
  | .diagRetry => Sys2Proof.Machine.execDiagRetry s
  | .wearMonitorSample m kind inst sub v => Sys2Proof.Machine.execWearMonitorSample m kind inst sub v s
  | .wearSample => Sys2Proof.Machine.execWearSample s
  | .trig => Sys2Proof.Machine.execTrig s
  | .conePin => Sys2Proof.Machine.execConePin s
  | .tmatchArm => Sys2Proof.Machine.execTmatchArm s
  | .timeMatch => Sys2Proof.Machine.execTimeMatch s
  | .plantGo => Sys2Proof.Machine.execPlantGo s
  | .coneFrame crcOk time => Sys2Proof.Machine.execConeFrame crcOk time s
  | .coneRepeat => Sys2Proof.Machine.execConeRepeat s
  | .release0 => Sys2Proof.Machine.execRelease0 s
  | .release1 => Sys2Proof.Machine.execRelease1 s
  | .capRearm => Sys2Proof.Machine.execCapRearm s
  | .capEnWrite v => Sys2Proof.Machine.execCapEnWrite v s
  | .captureFrozen => Sys2Proof.Machine.execCaptureFrozen s
  | .loaderGateCheckDone => Sys2Proof.Machine.execLoaderGateCheckDone s
  | .softTurnOffComplete n c => Sys2Proof.Machine.execSoftTurnOffComplete n c s
  | .sramError col bank j hard => Sys2Proof.Machine.execSramError col bank j hard s
  | .resetNRelease => Sys2Proof.Machine.execResetNRelease s
  | .alwaysOnSupplyLoss => Sys2Proof.Machine.execAlwaysOnSupplyLoss s
  | .xspiCommandDone err => Sys2Proof.Machine.execXspiCommandDone err s
  | .canFrameReceived j b id ctl data => Sys2Proof.Machine.execCanFrameReceived j b id ctl data s

end Sys2Proof.Machine
end

