-- ==== Sys2Proof/Machine/Tick.lean ====
section
/-!
DEFINITION. The passing of 100 ns in which no command arrives: clocks count, phase accumulators turn, the journal's write buffer drains
by one entry, and what the block sent leaves.
-/

namespace Sys2Proof.Machine

open Sys2Proof

/-- The HOST island's machine timer: 10 MHz (R402). -/
def State.tickHost (s : State) : State :=
  s.when (s.up .host) fun s => s.withPorts { s.ports with mtime := (s.ports.mtime + 1) % 2 ^ 64 }

/-- The modulators' counters: 2,560 edge steps at hop step 0, 10 more per step of the divider (R171, R185). A period's counter stays at its last step until the period starts anew (R173, R174). -/
def State.tickMod (s : State) : State :=
  s.when (s.up .mod && s.bit (CLK_PLL_STATUS_ON 2)) fun s =>
    let e := if s.get MOD_EPOCH_EPOCH = 0 then 2 ^ 32 else s.get MOD_EPOCH_EPOCH
    let n := (2560 + 10 * s.hopStep).toNat
    let s1 := s.withMod { s.mod with
      epochCnt := (s.mod.epochCnt + n) % e, cyc := s.mod.cyc + (s.mod.sub + n) / 64, sub := (s.mod.sub + n) % 64 }
    s1.each nine fun p s =>
      let len := s.mod.pairs[p].len
      s.when (s.bit (MOD_STATUS_RUN p) && len != 0) (·.put (MOD_CNT_CNT p) (min (s.get (MOD_CNT_CNT p) + n) (len - 1)))

/-- The synchronisation units' and the islanding unit's angles: 80 WHEEL cycles (R102, R137). -/
def State.tickWheel (s : State) : State :=
  s.when (s.up .wheel && s.bit (CLK_PLL_STATUS_ON 1)) fun s => (s.gsuAdvance 80).islAdvance 80

/-- The NET island: 25 cycles of the PTP clock, its MACs and CAN ports (R325, R332). -/
def State.tickNet (s : State) : State := s.when s.netRuns fun s => (s.ptpAdvance 25).tickMacs

/-- The control converters: every conversion that has begun is past its 75 ns of bit trials (R232). -/
def State.tickAdc (s : State) : State :=
  s.when (s.up .sense && s.bit (CLK_PLL_STATUS_ON 1)) fun s => s.each (List.finRange 18) fun n s => s.put (ADC_STATUS_BUSY n) 0

/-- VAUX_HIGH ends when VAUX can no longer be above 48 V (R367). (DESIGN CHOICE, log entry 78.) -/
def State.tickVaux (s : State) : State :=
  s.when (s.pwr.highNs != 0) fun s =>
    (s.withPwr { s.pwr with highNs := s.pwr.highNs - 100 }).when (decide (s.pwr.highNs ≤ 100)) (·.put PWR_STATUS_VAUX_HIGH 0)

/-- The delay lines follow TRIM at the latest 100 ns after the write (R191). -/
def State.tickTrim (s : State) : State :=
  s.each channels fun (n, c) s =>
    s.onChan n c fun x => { x with trimOn := s.get (SET_CH_TRIM_TON n c), trimOff := s.get (SET_CH_TRIM_TOFF n c) }

/-- The always-on clock; the journal's write buffer; the lanes; CONE_OUT low again; the units that were sent have left (R257,
R259, R287, R393). -/
def State.tickRest (s : State) : State :=
  let s1 := s.drainJournal.each (List.finRange 6) fun l s => s.tickLane l
  ((s1.withOutbox []).withCon { s1.con with out := false }).withPug (if s1.pug.supplied then { s1.pug with aonNs := s1.pug.aonNs + 100 } else s1.pug)

/-- 100 ns pass in which no command arrives. What the UARTs send in them leaves with the next. -/
def State.tick (s : State) : State := s.tickHost.tickMod.tickWheel.tickNet.tickAdc.tickVaux.tickTrim.tickRest.tickUarts

end Sys2Proof.Machine
end

