-- ==== Sys2Proof/Machine/Step.lean ====
section
/-!
DEFINITION. One step of the block: the command at the front of its queue, or 100 ns without one.
-/

namespace Sys2Proof.Machine

open Sys2Proof

/-- The command at the front of the queue takes effect on the state with the queue's rest; on an empty queue 100 ns pass. (DESIGN CHOICE, log entries 1, 2, 85.) -/
def step (s : State) : Host.Outcome State Fault Refusal :=
  match s.pending with
  | [] => .next s.tick
  | i :: rest => exec i { s with pending := rest }

/-- The state with a command put at the front of its queue. -/
def State.enqueueFirst (s : State) (i : Instr) : State := { s with pending := i :: s.pending }

/-- The state with the command that a word spells at the front of its queue; no word spells one. -/
def State.withFetchWord (s : State) (nbits w : Nat) : State :=
  match decodeTableWord nbits w with
  | some i => s.enqueueFirst i
  | none => s

end Sys2Proof.Machine
end

