-- ==== Sys2Proof/Safety.lean ====
section
/-!
DEFINITION. What the claims speak of: the canonical form of the block's memories, a command that completes, what a command leaves as it
was, and the condition under which an access of firmware reaches a block.
-/

namespace Sys2Proof.Machine

open Sys2Proof

/-- The sparse memories of the block are in their canonical form: addresses strictly rising and no entry equal to what an unlisted
address reads as. They are the registers, the slots, the coefficient banks, the programs, the SRAM and its marks, the staged plane, the
journal's ring, the two snapshot banks and the capture buffer. -/
def State.canon (s : State) : Bool :=
  cellsWf s.regs && cellsWf s.slots && cellsWf s.coef && cellsWf s.prog && s.sram.wf && cellsWf s.glz.plane &&
    cellsWf s.met.ring && cellsWf s.con.bank0.mem && cellsWf s.con.bank1.mem && cellsWf s.con.capture

/-- The command completes: `exec` answers a next state, and that state meets `P`. -/
def Completes (i : Instr) (s : State) (P : State → Prop) : Prop := ∃ t, exec i s = .next t ∧ P t

/-- Two fields share no bit: they stand in different registers, or at different places of one. -/
def Fld.apart (f g : Fld) : Prop := f.addr ≠ g.addr ∨ f.hi < g.lo ∨ g.hi < f.lo

/-- Every register field that shares no bit with one of `fs` reads in `t` as in `s`. -/
def OnlyRegs (fs : List Fld) (s t : State) : Prop := ∀ g : Fld, g.hi < 64 → (∀ f ∈ fs, f.apart g) → t.get g = s.get g

/-- Every byte of the system SRAM, every slot of the signal plane, every word of the coefficient banks and of the program stores, and
every word of the journal's ring reads in `t` as in `s`. -/
def SameMemory (s t : State) : Prop :=
  (∀ a, t.sram.get a = s.sram.get a) ∧ (∀ k, t.slot k = s.slot k) ∧ (∀ a, cellGet t.coef a = cellGet s.coef a) ∧
    (∀ a, cellGet t.prog a = cellGet s.prog a) ∧ ∀ a, cellGet t.met.ring a = cellGet s.met.ring a

/-- Each register field of the list holds its value, and every field that shares no bit with one of them is as it was. -/
def Sets (l : List (Fld × Nat)) (s t : State) : Prop := (∀ e ∈ l, t.get e.1 = e.2) ∧ OnlyRegs (l.map (·.1)) s t

/-- Unit `index` of the signal plane owns slot `k`, taken modulo 4,096 (R52): 0 the GSUs, 1 the RTS, 2 the ISL, 3 the DCI. -/
def State.owns (s : State) (index k : Nat) : Bool :=
  s.get (RGS_OWNER_KIND (k % 4096)) == 3 && s.get (RGS_OWNER_INDEX (k % 4096)) == index

/-- Of a write of `v` to slot `k` by unit `index`: the slot holds `v` if the unit owns it, and what it held if not (R52). -/
def Puts (index k : Nat) (v : Word) (s t : State) : Prop := t.slot (k % 4096) = if s.owns index k then v else s.slot (k % 4096)

/-- Each register field of the list holds its value, and every field that shares no bit with one of them is as it was, but for the count of
refused slot writes, which stays where unit `index` owns the `n` slots from `base` on (R52). -/
def SetsPut (index base n : Nat) (l : List (Fld × Nat)) (s t : State) : Prop :=
  (∀ e ∈ l, t.get e.1 = e.2) ∧ OnlyRegs (RGS_SLOT_REFUSED_COUNT :: l.map (·.1)) s t ∧
    ((∀ j, j < n → s.owns index (base + j) = true) → OnlyRegs (l.map (·.1)) s t)

/-- A counter advanced by one; it stays at its largest value. -/
def State.counted (s : State) (f : Fld) : Nat := min (s.get f + 1) (2 ^ f.width - 1)

/-- What a journal record with `n` CONT entries leaves in the registers: JRNL_LOST counts one that the crossing does not hold (R259,
R273). -/
def State.jrnlLoss (s : State) (n : Nat) : List (Fld × Nat) :=
  if s.jrnlFull n then [(MET_JRNL_LOST_COUNT, s.counted MET_JRNL_LOST_COUNT), (MET_EVENT_JRNL_LOST, 1)] else []

/-- A journal record of this type goes into the crossing where a place is free, with LOSS if the Saggar refused one before it, or to the
Saggar while the METER island takes none and a place is free; a refused one is told to the next (R258, R259, R355, R362). -/
def Journals (typ detail payload : Nat) (s t : State) : Prop :=
  (s.met.entriesOpen = true → s.crossing < 64 →
      t.met.jq = s.met.jq ++ [⟨typ, detail, payload, [], s.moduleTime, s.ptpValid, s.sag.heldLoss⟩] ∧ t.sag.heldLoss = false) ∧
    (s.met.entriesOpen = true → 64 ≤ s.crossing → t.met.jq = s.met.jq ∧ t.met.lossDue = true) ∧
    (s.met.entriesOpen = false → 8 ≤ s.sag.held.length → t.sag.held = s.sag.held ∧ t.sag.heldLoss = true) ∧
    (s.met.entriesOpen = false → s.sag.held.length < 8 →
      t.sag.held = s.sag.held ++ [⟨typ, detail, payload, [], s.moduleTime, s.ptpValid, false⟩])

/-- A Cone with the source mask `source` was triggered: it fills the bank it takes, whose header carries the sequence number, the source
with the header flags `flags`, and `detail`; or it is missed and counted (R397, R398). -/
def Cones (source detail flags : Nat) (s t : State) : Prop :=
  match s.coneBank source with
  | none => t.get CON_STATUS_MISSED = s.counted CON_STATUS_MISSED ∧ t.get CON_INT_MISSED = 1
  | some b =>
    let k := if b = 0 then t.con.bank0 else t.con.bank1
    t.get (if b = 0 then CON_STATUS_HELD0 else CON_STATUS_HELD1) = 1 ∧ t.get CON_STATUS_LAST = b ∧ t.get CON_INT_LATCHED = 1 ∧
      t.con.seq = s.con.seq + 1 ∧ k.source = source ∧ cellGet k.mem 0 = BitVec.ofNat 32 (s.con.seq + 1) ∧
      cellGet k.mem 4 = BitVec.ofNat 32 (source + flags + if popCount source > 1 then 0x100 else 0) ∧
      cellGet k.mem 8 = BitVec.ofNat 32 detail

/-- The block is stopped and the cause is latched; where it was not stopped before, the cause is the first and the interrupt is set
(R223). -/
def Stops (c : Cause) (s t : State) : Prop :=
  t.bitAt SIT_CAUSE_CAUSE c.bitNo = true ∧ t.get SIT_STATUS_BLOCK_STOP = 1 ∧
    (s.bit SIT_STATUS_BLOCK_STOP = false →
      t.get SIT_FIRST_VALID = 1 ∧ t.get SIT_FIRST_CODE = c.bitNo ∧ t.get SIT_INT_BLOCK_STOP = 1)

/-- The resource stands in no place of the proposal table. -/
def Unproposed (s : State) (kind inst sub : Nat) : Prop :=
  ∀ (p : Fin 8) (q : Proposal), s.grg.props[p] = some q → ¬(q.kind = kind ∧ q.inst = inst ∧ q.sub = sub)

/-! ### What a command may change -/

/-- The parts of the state: the registers whose addresses share all but the low 20 bits, and each other field of `State`. -/
inductive Part where
  | regs (block : Nat)
  | pending | slots | coef | prog | sram | held | resp | free | outbox | glz | fab | wheels | groups | gsus | rts | isl | dci
  | mod | tiles | wins | sit | adcs | gx | met | clk | lanes | wlk | net | sag | pug | pwr | grg | con | ports
  deriving DecidableEq, Repr

/-- The part is the same in both states. -/
def Part.same (p : Part) (s t : State) : Prop :=
  match p with
  | .regs b => ∀ a, a / 0x100000 = b → cellGet t.regs a = cellGet s.regs a
  | .pending => t.pending = s.pending
  | .slots => t.slots = s.slots
  | .coef => t.coef = s.coef
  | .prog => t.prog = s.prog
  | .sram => t.sram = s.sram
  | .held => t.held = s.held
  | .resp => t.resp = s.resp
  | .free => t.free = s.free
  | .outbox => t.outbox = s.outbox
  | .glz => t.glz = s.glz
  | .fab => t.fab = s.fab
  | .wheels => t.wheels = s.wheels
  | .groups => t.groups = s.groups
  | .gsus => t.gsus = s.gsus
  | .rts => t.rts = s.rts
  | .isl => t.isl = s.isl
  | .dci => t.dci = s.dci
  | .mod => t.mod = s.mod
  | .tiles => t.tiles = s.tiles
  | .wins => t.wins = s.wins
  | .sit => t.sit = s.sit
  | .adcs => t.adcs = s.adcs
  | .gx => t.gx = s.gx
  | .met => t.met = s.met
  | .clk => t.clk = s.clk
  | .lanes => t.lanes = s.lanes
  | .wlk => t.wlk = s.wlk
  | .net => t.net = s.net
  | .sag => t.sag = s.sag
  | .pug => t.pug = s.pug
  | .pwr => t.pwr = s.pwr
  | .grg => t.grg = s.grg
  | .con => t.con = s.con
  | .ports => t.ports = s.ports

/-- Outside the parts of `l` the two states are the same. -/
def Within (l : List Part) (s t : State) : Prop := ∀ p, p ∉ l → p.same s t

/-- The parts a command may change; `none` for an access through the bus, a firing and a reset of the module, which may change any. -/
def footprint (i : Instr) : Option (List Part) :=
  match i with
  | .nop .. | .endP .. | .mov .. | .getf .. | .cyc .. | .pset .. | .lds .. | .ldf .. | .freshReadReturn .. | .ldc ..
  | .loop .. | .brf .. | .fadd .. | .fsub .. | .fmul .. | .fma .. | .fms .. | .fmin .. | .fmax .. | .fclamp .. | .fabs ..
  | .fneg .. | .fdiv .. | .fsqrt .. | .fcmp .. | .f2q .. | .q2f .. | .f2i .. | .i2f .. | .f2u .. | .qadd .. | .qsub ..
  | .qmul .. | .qmac .. | .qabs .. | .qcmp .. | .iadd .. | .isub .. | .and .. | .or .. | .xor .. | .shl .. | .shr ..
  | .sar .. | .icmp .. | .ucmp .. | .crot .. | .crotv .. | .cvec .. | .iacc .. | .ird .. | .ipre .. | .ilim .. | .bq ..
  | .bqclr .. | .res .. | .resr .. => some [.wheels]
  | .registerWrite .. | .registerReadClear .. | .aliasWrite .. | .aliasRead .. | .busErrorAccess .. | .rwfWrite ..
  | .firingEnter | .fireComplete | .resetModule .. | .vauxInvalid .. | .brownOut | .resetAssert .. => none
  | .supOk .. | .interlockRelease .. | .bootUvRecover .. | .diagTestStep .. | .diagDone .. | .tileControlLoss ..
  | .tileFallbackStage2 .. | .softTurnOffComplete .. => some [.regs 0x440, .tiles]
  | .getInfo | .attest .. | .getCert | .counterInc .. | .counterRead .. | .debugLock | .cakInstall .. | .mkaIcv .. =>
    some [.regs 0x4b0, .held, .resp, .sag]
  | .toGfm | .toGfl | .resync | .presetL2 | .presetL3 | .clearDet => some [.regs 0x422, .held, .resp, .isl, .sit]
  | .trainStart .. | .trainAttemptFail .. | .powerStateEnter .. | .powerStateLapse .. | .l2ExitRetrain .. | .delayRsp .. =>
    some [.regs 0x490, .lanes]
  | .retrain .. | .l1 .. | .l2 .. | .testEnter .. | .testExit .. | .inject .. => some [.regs 0x490, .held, .resp, .lanes]
  | .dciSweepWindowStart | .dciSweepPoint | .dciSweepDone | .dciSweepAbort | .dciReturnDone => some [.regs 0x423, .dci]
  | .supplyUv .. | .bootUvEvent .. | .desatDetect .. | .tileOverTemp .. | .stopUnit =>
    some [.regs 0x440, .regs 0x448, .regs 0x470, .regs 0x4e0, .outbox, .mod, .tiles, .sit, .met, .sag, .con]
  | .enroll .. | .fwConfirm | .debugUnlock .. | .totalsReset .. | .tamperCfg .. =>
    some [.regs 0x470, .regs 0x4b0, .held, .resp, .met, .sag]
  | .vbatLow .. | .lastGaspTrigger .. | .heartbeat .. | .lastGaspSent | .lastGaspAbort =>
    some [.regs 0x470, .regs 0x4b8, .met, .sag, .pug]
  | .correctedError .. | .wearMonitorSample .. | .sramError .. =>
    some [.regs 0x470, .regs 0x4d0, .met, .sag, .grg]
  | .saveComplete => some [.regs 0x470, .regs 0x4d0, .met, .sag, .grg, .free]
  | .trimWrite .. | .desatClear .. | .bootStopClear .. | .supplyUvClear .. => some [.regs 0x440, .held, .resp]
  | .winAssert .. | .winDeassert .. | .winBlankEnd .. | .winStateChange .. =>
    some [.regs 0x440, .regs 0x448, .regs 0x450, .regs 0x460, .regs 0x470, .regs 0x4e0, .outbox, .mod, .tiles, .wins, .sit, .adcs,
      .met, .sag, .pwr, .con]
  | .trainRetry .. | .codewordUncorrectable .. | .patLock .. | .patLockLost .. => some [.regs 0x490]
  | .discoveryDone .. | .remoteAccess .. | .remRsp .. | .remoteTimeout .. => some [.regs 0x490, .resp, .outbox, .wlk]
  | .macEnWrite .. | .lqCommit .. | .flush .. | .tsqRead .. => some [.regs 0x4a0, .held, .resp, .net]
  | .vauxHigh .. | .deratedSet | .pfWarnRise | .standbyWake => some [.regs 0x4c0, .pwr]
  | .trig | .tmatchArm | .capRearm | .capEnWrite .. => some [.regs 0x4e0, .held, .resp, .con]
  | .gsuAnglePublish .. | .islTonePublish | .islAnglePublish => some [.regs 0x41c, .slots]
  | .gsuLock .. | .wrongSeq .. | .missN .. => some [.regs 0x420]
  | .rtsTick | .rtsBandChange .. | .rtsTimeLimit .. =>
    some [.regs 0x41c, .regs 0x421, .regs 0x440, .regs 0x448, .regs 0x470, .regs 0x4e0, .slots, .outbox, .groups, .rts, .isl,
      .mod, .tiles, .sit, .met, .sag, .con]
  | .periodWrite .. | .hopEval | .quietBandWrite .. => some [.regs 0x430, .held, .resp, .mod, .clk]
  | .blankingEnd .. | .softOffStep2 .. | .softOffFullSink .. => some [.tiles]
  | .meterWrongSeq .. | .meterMissN .. | .reverseFlow .. => some [.regs 0x470, .met, .sag]
  | .periodicSave | .meterResume | .journalEntry => some [.regs 0x470, .met]
  | .refLost | .pllLockLoss .. | .holdoverExit .. => some [.regs 0x430, .regs 0x480, .clk]
  | .ringReverse .. | .position .. | .announce .. => some [.regs 0x490, .outbox, .wlk]
  | .deratedClear | .wdogHalf | .dieHot => some [.regs 0x4c0]
  | .resetPin | .watchdogExpiry | .thermal =>
    some [.regs 0x440, .regs 0x448, .regs 0x470, .regs 0x4e0, .outbox, .mod, .tiles, .sit, .met, .sag, .pwr, .con]
  | .commit .. | .dismiss .. | .retire .. => some [.regs 0x4d0, .held, .resp, .grg]
  | .load .. | .discard => some [.regs 0x400, .regs 0x401, .held, .resp, .glz]
  | .timerTrigger .. | .ptpTrigger .. => some [.groups]
  | .islPulseEnd | .islEstWindowEnd .. => some [.regs 0x41c, .regs 0x422, .slots, .isl]
  | .islNotchWrite | .islNotchMirror => some [.regs 0x422, .coef, .isl]
  | .delayMeasured .. | .tileOtClear .. => some [.regs 0x440]
  | .arm .. | .disarm .. => some [.regs 0x440, .held, .resp, .mod, .tiles]
  | .diag .. | .diagAbort .. => some [.regs 0x440, .held, .resp, .tiles]
  | .clearStop | .clearPlant => some [.regs 0x448, .held, .resp, .sit]
  | .adcStart .. | .calAll => some [.regs 0x460, .held, .resp, .adcs]
  | .calTakeover .. | .calReturn .. => some [.regs 0x460, .adcs, .gx]
  | .refValid | .pllStepSettled .. => some [.regs 0x480]
  | .pllLock .. | .pllStepUnit .. => some [.regs 0x480, .clk]
  | .plantStopRepeat | .delayReqReceived .. => some [.outbox]
  | .discover | .blkGo .. => some [.regs 0x490, .held, .resp, .outbox, .wlk]
  | .macFrameTx .. | .macFrameRx .. => some [.regs 0x4a0, .sram, .outbox, .net]
  | .ptpOfsWrite .. | .ptpSet => some [.regs 0x490, .regs 0x4a0, .held, .resp, .groups, .net]
  | .setValid | .clrValid => some [.regs 0x4a0, .held, .resp, .met]
  | .getNonce | .random .. => some [.regs 0x4b0, .held, .resp, .free, .sag]
  | .rotate .. | .releaseOwner .. => some [.regs 0x400, .regs 0x401, .regs 0x470, .regs 0x4b0, .held, .resp, .glz, .met, .sag]
  | .tamperEvent .. | .pugVocMeasure .. =>
    some [.regs 0x440, .regs 0x448, .regs 0x470, .regs 0x4b0, .regs 0x4b8, .regs 0x4e0, .outbox, .mod, .tiles, .sit, .met, .sag,
      .pug, .pwr, .con]
  | .pfWarnWrite .. | .wdogStart .. => some [.regs 0x4c0, .held, .resp]
  | .firmwareReset | .wdogKick .. =>
    some [.regs 0x440, .regs 0x448, .regs 0x470, .regs 0x4e0, .held, .resp, .outbox, .mod, .tiles, .sit, .met, .sag, .pwr, .con]
  | .conePin | .timeMatch => some [.regs 0x4e0, .con]
  | .release0 | .release1 => some [.regs 0x4e0, .held, .resp]
  | .jtagIdcode => some [.resp]
  | .loadComplete =>
    some [.regs 0x400, .regs 0x401, .regs 0x430, .regs 0x440, .regs 0x480, .regs 0x4c0, .sram, .free, .glz, .tiles, .clk, .pwr]
  | .fire .. =>
    some [.regs 0x401, .regs 0x440, .regs 0x448, .regs 0x470, .regs 0x4e0, .held, .resp, .outbox, .glz, .mod, .tiles, .sit, .met,
      .sag, .con]
  | .abortLoad => some [.regs 0x401, .regs 0x440, .regs 0x4c0, .held, .resp, .glz, .tiles, .pwr]
  | .sampleStart .. =>
    some [.regs 0x41c, .regs 0x420, .regs 0x440, .regs 0x448, .regs 0x470, .regs 0x4e0, .coef, .outbox, .wheels, .groups, .gsus,
      .isl, .dci, .mod, .tiles, .sit, .adcs, .met, .sag, .con]
  | .endOfSample .. =>
    some [.regs 0x410, .regs 0x411, .regs 0x412, .regs 0x413, .regs 0x41c, .regs 0x440, .regs 0x448, .regs 0x470, .regs 0x4d0,
      .regs 0x4e0, .slots, .outbox, .wheels, .groups, .mod, .tiles, .sit, .gx, .met, .sag, .grg, .con]
  | .deadlineMiss .. =>
    some [.regs 0x41c, .regs 0x440, .regs 0x448, .regs 0x470, .regs 0x4e0, .outbox, .wheels, .groups, .mod, .tiles, .sit, .met,
      .sag, .con]
  | .triggerTimeout .. =>
    some [.regs 0x41c, .regs 0x440, .regs 0x448, .regs 0x470, .regs 0x4e0, .outbox, .groups, .mod, .tiles, .sit, .met, .sag, .con]
  | .memoryError .. =>
    some [.regs 0x410, .regs 0x411, .regs 0x412, .regs 0x413, .regs 0x470, .regs 0x4d0, .wheels, .groups, .met, .sag, .grg]
  | .slotWrite .. => some [.regs 0x41c, .slots, .held, .resp]
  | .coefBankWrite .. => some [.regs 0x410, .regs 0x411, .regs 0x412, .regs 0x413, .coef, .held, .resp]
  | .swapRequest .. => some [.regs 0x41c, .held, .resp, .groups]
  | .istateWrite .. => some [.held, .resp, .wheels]
  | .mboxRead => some [.held, .resp, .fab]
  | .mboxThreshWrite .. => some [.regs 0x41c, .held, .resp]
  | .freshReadTimeout .. => some [.regs 0x41c, .wheels]
  | .sts .. => some [.regs 0x41c, .wheels, .groups]
  | .adcs .. => some [.regs 0x460, .wheels, .groups, .adcs]
  | .post .. => some [.regs 0x410, .regs 0x411, .regs 0x412, .regs 0x413, .regs 0x41c, .fab, .wheels]
  | .gsuPublish .. => some [.regs 0x41c, .slots, .gsus, .isl]
  | .clearTrip => some [.regs 0x421, .held, .resp, .rts]
  | .islTickPublish =>
    some [.regs 0x41c, .regs 0x422, .regs 0x440, .regs 0x448, .regs 0x470, .regs 0x4e0, .slots, .outbox, .isl, .mod, .tiles, .sit,
      .met, .wlk, .sag, .con]
  | .islPassiveFire .. => some [.regs 0x422, .isl]
  | .islPulseStart => some [.regs 0x41c, .slots, .isl]
  | .islTransferDecide =>
    some [.regs 0x41c, .regs 0x422, .regs 0x440, .regs 0x448, .regs 0x470, .regs 0x4e0, .slots, .outbox, .groups, .isl, .mod,
      .tiles, .sit, .met, .sag, .con]
  | .islSyncOk => some [.regs 0x422]
  | .islDeferExpiry =>
    some [.regs 0x422, .regs 0x440, .regs 0x448, .regs 0x470, .regs 0x4e0, .outbox, .isl, .mod, .tiles, .sit, .met, .sag, .con]
  | .dciPublish => some [.regs 0x41c, .regs 0x423, .slots, .dci]
  | .dciSweepRequest .. => some [.regs 0x423, .held, .resp]
  | .dciSweepTimer .. => some [.regs 0x423]
  | .dciAbort => some [.regs 0x423, .held, .resp, .dci]
  | .dciOutWin .. =>
    some [.regs 0x423, .regs 0x440, .regs 0x448, .regs 0x470, .regs 0x4e0, .outbox, .dci, .mod, .tiles, .sit, .met, .sag, .con]
  | .loadPoint .. => some [.regs 0x430, .groups, .mod]
  | .compareArrival .. => some [.mod]
  | .periodStart .. =>
    some [.regs 0x430, .regs 0x440, .regs 0x448, .regs 0x470, .regs 0x4e0, .outbox, .mod, .tiles, .wins, .sit, .met, .sag, .con]
  | .edgeDue .. => some [.regs 0x430, .regs 0x440, .mod, .tiles, .wins]
  | .epoch => some [.regs 0x430, .regs 0x4a0, .free, .outbox, .mod, .clk]
  | .ovrWrite .. => some [.regs 0x430, .regs 0x440, .held, .resp, .mod, .tiles, .wins]
  | .segmentMeasure .. => some [.regs 0x440, .regs 0x470, .regs 0x4d0, .tiles, .met, .sag, .grg]
  | .winThrWrite .. => some [.regs 0x450, .held, .resp]
  | .winRelease .. => some [.regs 0x450, .wins]
  | .selftest .. => some [.regs 0x450, .held, .resp, .wins]
  | .selftestDone .. => some [.regs 0x450, .regs 0x470, .regs 0x4d0, .wins, .met, .sag, .grg]
  | .shadow .. =>
    some [.regs 0x440, .regs 0x448, .regs 0x450, .regs 0x470, .regs 0x4e0, .held, .resp, .outbox, .mod, .tiles, .wins, .sit, .met,
      .sag, .con]
  | .shadowReady .. => some [.regs 0x450]
  | .pairStatClear .. => some [.regs 0x448, .held, .resp]
  | .safeOrderStage2 => some [.regs 0x440, .regs 0x448, .tiles]
  | .safeOrderTileDone .. => some [.regs 0x440, .regs 0x448, .mod, .tiles, .sit, .con]
  | .stop .. =>
    some [.regs 0x440, .regs 0x448, .regs 0x470, .regs 0x4e0, .held, .resp, .outbox, .mod, .tiles, .sit, .met, .sag, .con]
  | .plantStop => some [.regs 0x448, .held, .resp, .outbox, .sit]
  | .conversionDone .. => some [.regs 0x460, .slots, .groups, .adcs]
  | .adcWatchdog .. => some [.regs 0x460, .adcs]
  | .cal .. => some [.regs 0x460, .held, .resp, .adcs, .gx]
  | .calComplete .. => some [.regs 0x460, .regs 0x470, .regs 0x4d0, .adcs, .met, .sag, .grg]
  | .meterSample .. => some [.regs 0x470, .free, .met, .sag]
  | .gainSettled .. => some [.met]
  | .pqIntervalEnd => some [.regs 0x470, .free, .met]
  | .jrnlCommit => some [.regs 0x470, .held, .resp, .met, .sag]
  | .pllEnWrite .. => some [.regs 0x430, .regs 0x480, .regs 0x4a0, .held, .resp, .clk]
  | .pllConfigWrite .. => some [.regs 0x480, .held, .resp]
  | .pllRelock .. => some [.regs 0x430, .regs 0x480, .mod, .clk]
  | .pllStep .. => some [.regs 0x480, .held, .resp, .clk]
  | .trainComplete .. => some [.regs 0x490, .free, .outbox, .lanes, .wlk]
  | .laneDown .. => some [.regs 0x490, .outbox, .lanes, .wlk]
  | .wake .. => some [.held, .resp, .lanes]
  | .autoL1Request .. => some [.lanes]
  | .powerStateExit .. => some [.regs 0x490, .free, .lanes]
  | .patCfgWrite .. => some [.regs 0x490, .held, .resp, .free, .lanes]
  | .loopWrite .. => some [.regs 0x490, .held, .resp]
  | .rlbReq .. => some [.regs 0x490, .held, .resp, .outbox, .lanes]
  | .rlbRequestReceived .. => some [.regs 0x490, .outbox, .lanes]
  | .eyeMeasure .. => some [.regs 0x470, .regs 0x490, .regs 0x4d0, .met, .sag, .grg]
  | .plantPeriodBoundary .. =>
    some [.regs 0x41c, .regs 0x422, .regs 0x430, .regs 0x490, .slots, .outbox, .groups, .isl, .mod, .clk, .wlk]
  | .linkLoss =>
    some [.regs 0x41c, .regs 0x440, .regs 0x448, .regs 0x470, .regs 0x4e0, .outbox, .mod, .tiles, .sit, .met, .sag, .con]
  | .ctrlLaunch => some [.outbox, .mod, .wlk]
  | .ctrlFrame .. =>
    some [.regs 0x440, .regs 0x448, .regs 0x470, .regs 0x490, .regs 0x4e0, .outbox, .mod, .tiles, .sit, .met, .wlk, .sag, .con]
  | .reportFrame .. => some [.regs 0x448, .regs 0x490, .outbox, .sit, .wlk]
  | .timeFrame .. => some [.regs 0x490, .regs 0x4a0, .free, .outbox, .groups, .met, .wlk, .net]
  | .syncUnit .. => some [.regs 0x490, .regs 0x4a0, .free, .outbox, .mod, .met, .wlk]
  | .delayReq .. => some [.outbox, .lanes]
  | .flow .. => some [.outbox, .wlk]
  | .positionTimeout .. => some [.wlk]
  | .number .. => some [.regs 0x400, .regs 0x490, .outbox]
  | .ringRestore .. => some [.regs 0x490, .held, .resp, .wlk]
  | .remReq .. => some [.regs 0x490, .outbox]
  | .plantBroadcastWrite .. => some [.regs 0x400, .regs 0x490, .resp, .outbox, .wlk]
  | .plantBroadcastRead => some [.regs 0x490, .resp]
  | .bulkFrame .. => some [.regs 0x490, .sram, .outbox, .wlk]
  | .bulkDone .. => some [.regs 0x490, .wlk]
  | .kick .. => some [.held, .resp, .outbox, .net]
  | .macLinkChange .. => some [.regs 0x4a0]
  | .ptpIncWrite .. => some [.regs 0x490, .regs 0x4a0, .held, .resp, .net]
  | .ptpNowRead => some [.regs 0x4a0, .held, .resp]
  | .launchDue .. => some [.regs 0x4a0, .free, .outbox, .net]
  | .railsGood .. => some [.regs 0x430, .regs 0x470, .regs 0x480, .regs 0x4b0, .free, .met, .clk, .sag, .pwr]
  | .hostRelease .. => some [.regs 0x470, .regs 0x4b0, .sram, .glz, .met, .sag, .pwr]
  | .saggarEntryFlush => some [.met, .sag]
  | .setBoot .. => some [.regs 0x470, .regs 0x4b0, .held, .resp, .glz, .met, .sag]
  | .zeroise .. =>
    some [.regs 0x440, .regs 0x448, .regs 0x470, .regs 0x4b0, .regs 0x4b8, .regs 0x4e0, .held, .resp, .outbox, .mod, .tiles, .sit,
      .met, .sag, .pug, .pwr, .con]
  | .sakGen .. => some [.regs 0x4b0, .held, .resp, .free, .net, .sag]
  | .sakLoad .. => some [.regs 0x4b0, .held, .resp, .net, .sag]
  | .serviceComplete => some [.regs 0x470, .regs 0x4b0, .met, .sag]
  | .treeBuildDone => some [.regs 0x4b0, .sag]
  | .nonceExpiry => some [.sag]
  | .xspiCmd .. => some [.regs 0x402, .regs 0x4b0, .resp, .sag]
  | .pugModeChange .. => some [.regs 0x470, .regs 0x4b8, .met, .sag]
  | .pugSourceChange .. =>
    some [.regs 0x440, .regs 0x448, .regs 0x470, .regs 0x4b0, .regs 0x4b8, .regs 0x4c0, .regs 0x4e0, .outbox, .mod, .tiles, .sit,
      .met, .sag, .pug, .pwr, .con]
  | .pugThrWrite .. => some [.regs 0x4b8, .held, .resp, .pug]
  | .lastGaspSend => some [.regs 0x470, .regs 0x4b0, .regs 0x4b8, .met, .sag, .pug, .free]
  | .lastGaspWarmupEnd => some [.outbox, .pug]
  | .vauxValid =>
    some [.regs 0x440, .regs 0x448, .regs 0x470, .regs 0x480, .regs 0x4b0, .regs 0x4b8, .regs 0x4c0, .regs 0x4e0, .outbox, .mod,
      .tiles, .sit, .met, .sag, .pug, .pwr, .con]
  | .pfWarnFall =>
    some [.regs 0x440, .regs 0x448, .regs 0x470, .regs 0x4c0, .regs 0x4e0, .outbox, .mod, .tiles, .sit, .met, .sag, .pwr, .con]
  | .gpEnWrite .. => some [.regs 0x440, .regs 0x4c0, .held, .resp, .tiles, .pwr]
  | .standby => some [.regs 0x4c0, .held, .resp, .pwr]
  | .diagnose .. => some [.regs 0x4d0, .held, .resp, .gx, .grg]
  | .mapAdd => some [.regs 0x470, .regs 0x4d0, .adcs, .met, .sag, .grg]
  | .diagTwinPlace => some [.regs 0x4d0, .grg]
  | .diagVerdict .. => some [.regs 0x470, .regs 0x4d0, .gx, .met, .sag, .grg]
  | .diagRetry => some [.regs 0x4d0, .gx, .grg]
  | .wearSample => some [.regs 0x470, .met, .sag, .grg]
  | .plantGo => some [.regs 0x4e0, .held, .resp, .outbox, .con]
  | .coneFrame .. => some [.regs 0x490, .regs 0x4e0, .outbox, .con]
  | .coneRepeat => some [.outbox, .con]
  | .captureFrozen => some [.regs 0x4e0]
  | .loaderGateCheckDone => some [.regs 0x440, .glz, .tiles]
  | .resetNRelease => some [.pwr]
  | .alwaysOnSupplyLoss => some [.regs 0x4b0, .regs 0x4b8, .regs 0x4c0, .sag, .pug]
  | .xspiCommandDone .. => some [.regs 0x402, .sag]
  | .canFrameReceived .. => some [.regs 0x4a1]

/-- The island that an access of the block's own firmware addresses with this command, and the access that waits where a firing holds
the block (R41, R267); `none` for a command that is no such access or that spells its address out. -/
def accessOf (i : Instr) : Option (Isl × Option Held) :=
  match i with
  | .trig | .tmatchArm | .plantGo | .release0 | .release1 | .capRearm | .capEnWrite .. | .commit .. | .dismiss ..
  | .retire .. | .diagnose .. | .pllEnWrite .. | .pllConfigWrite .. | .pllStep .. | .gpEnWrite .. | .firmwareReset
  | .pfWarnWrite .. | .standby | .wdogStart .. | .wdogKick .. | .load .. | .abortLoad | .discard | .fire .. => some (.host, none)
  | .adcStart n gap => some (.sense, some (.adcStart n gap))
  | .cal n => some (.sense, some (.cal n))
  | .calAll => some (.sense, some .calAll)
  | .trimWrite n c v => some (.tile, some (.trimWrite n c v))
  | .arm n => some (.tile, some (.arm n))
  | .disarm n => some (.tile, some (.disarm n))
  | .desatClear n c => some (.tile, some (.desatClear n c))
  | .bootStopClear n => some (.tile, some (.bootStopClear n))
  | .supplyUvClear n c => some (.tile, some (.supplyUvClear n c))
  | .diag n => some (.tile, some (.diag n))
  | .diagAbort n => some (.tile, some (.diagAbort n))
  | .clearTrip => some (.wheel, some .clearTrip)
  | .toGfm => some (.wheel, some (.islCmd 1))
  | .toGfl => some (.wheel, some (.islCmd 2))
  | .resync => some (.wheel, some (.islCmd 3))
  | .presetL2 => some (.wheel, some (.islCmd 4))
  | .presetL3 => some (.wheel, some (.islCmd 5))
  | .clearDet => some (.wheel, some (.islCmd 6))
  | .dciSweepRequest l => some (.wheel, some (.dciSweepRequest l))
  | .dciAbort => some (.wheel, some .dciAbort)
  | .slotWrite k v => some (.wheel, some (.slotWrite k v))
  | .coefBankWrite w b i v => some (.wheel, some (.coefBankWrite w b i v))
  | .swapRequest k bank atPlant => some (.wheel, some (.swapRequest k bank atPlant))
  | .istateWrite w j v => some (.wheel, some (.istateWrite w j v))
  | .mboxRead => some (.wheel, some .mboxRead)
  | .mboxThreshWrite v => some (.wheel, some (.mboxThreshWrite v))
  | .hopEval => some (.mod, some .hopEval)
  | .quietBandWrite k hi v => some (.mod, some (.quietBandWrite k hi v))
  | .periodWrite p v => some (.mod, some (.periodWrite p v))
  | .ovrWrite p v => some (.mod, some (.ovrWrite p v))
  | .retrain .. | .l1 .. | .l2 .. | .wake .. | .testEnter .. | .testExit .. | .patCfgWrite .. | .inject ..
  | .loopWrite .. | .rlbReq .. | .ringRestore .. | .discover | .blkGo .. => some (.lane, none)
  | .ptpIncWrite .. | .ptpOfsWrite .. | .ptpSet | .setValid | .clrValid | .ptpNowRead | .macEnWrite .. | .kick ..
  | .lqCommit .. | .flush .. | .tsqRead .. => some (.net, none)
  | .jrnlCommit => some (.meter, none)
  | .getInfo | .getNonce | .attest .. | .getCert | .enroll .. | .rotate .. | .releaseOwner .. | .fwConfirm
  | .setBoot .. | .counterInc .. | .counterRead .. | .debugUnlock .. | .debugLock | .totalsReset .. | .tamperCfg ..
  | .zeroise .. | .cakInstall .. | .sakGen .. | .sakLoad .. | .mkaIcv .. | .random .. | .pugThrWrite .. => some (.saggar, none)
  | .winThrWrite n v => some (.sense, some (.winThrWrite n v))
  | .selftest n => some (.sense, some (.selftest n))
  | .shadow n => some (.sense, some (.shadow n))
  | .pairStatClear mask => some (.mod, some (.pairStatClear mask))
  | .stop alsoClear => some (.mod, some (.stop alsoClear))
  | .clearStop => some (.mod, some .clearStop)
  | .plantStop => some (.mod, some .plantStop)
  | .clearPlant => some (.mod, some .clearPlant)
  | _ => none

/-- An access of firmware takes effect: the HOST and the island are out of reset, the cores are not in standby, and no firing holds it (R41,
R267, R379). A command that is no access needs nothing. -/
def State.takes (s : State) (i : Instr) : Prop :=
  match accessOf i with
  | none => True
  | some (x, h) => s.up .host = true ∧ s.get PWR_STATUS_STANDBY = 0 ∧ s.up x = true ∧ (h.isSome = true → s.phase ≠ 5)

/-! ### Wheels -/

/-- The Wheel issues, and the predicate of the instruction is true (R73, R78). -/
def Wheel.runs (x : Wheel) (p : Fin 16) : Bool := x.issues && x.cond p

/-- Of the state, Wheel `w` alone may differ: the other Wheels, every register and every memory are as they were. -/
def OnlyWheel (w : Fin 64) (s t : State) : Prop := (∀ u, u ≠ w → t.wheels[u] = s.wheels[u]) ∧ OnlyRegs [] s t ∧ SameMemory s t

/-- In Wheel `w` register X`d` holds `v` and the sticky flags `m` have joined; its other registers, its predicates and its unit states
are as they were, and so is everything outside the Wheel. -/
def WritesX (w d : Fin 64) (v : Word) (m : Nat) (s t : State) : Prop :=
  t.wheels[w].xr d = v ∧ t.wheels[w].flags = s.wheels[w].flags ||| m ∧ (∀ r, r ≠ d → t.wheels[w].xr r = s.wheels[w].xr r) ∧
    t.wheels[w].preds = s.wheels[w].preds ∧ t.wheels[w].work = s.wheels[w].work ∧ OnlyWheel w s t

/-- In Wheel `w` predicate P`u` is `b`; its other predicates, its registers, its flags and its unit states are as they were, and so is
everything outside the Wheel. -/
def WritesP (w : Fin 64) (u : Fin 4) (b : Bool) (s t : State) : Prop :=
  t.wheels[w].pred u = b ∧ (∀ q, q ≠ u → t.wheels[w].pred q = s.wheels[w].pred q) ∧ (∀ r, t.wheels[w].xr r = s.wheels[w].xr r) ∧
    t.wheels[w].flags = s.wheels[w].flags ∧ t.wheels[w].work = s.wheels[w].work ∧ OnlyWheel w s t

/-- The registers, predicates, flags and unit states of Wheel `w` are as they were. -/
def SameWheelData (w : Fin 64) (s t : State) : Prop :=
  (∀ r, t.wheels[w].xr r = s.wheels[w].xr r) ∧ t.wheels[w].preds = s.wheels[w].preds ∧ t.wheels[w].flags = s.wheels[w].flags ∧
    t.wheels[w].work = s.wheels[w].work

/-- An integer saturated to the range of Q31 (R85). -/
def sat31 (i : Int) : Int := max (-2147483648) (min 2147483647 i)

/-- A saturating result: X`d` holds `i` saturated, and QS joins where it was (R71, R85). -/
def WritesQ (w d : Fin 64) (i : Int) (s t : State) : Prop :=
  ∃ v : Word, v.toInt = sat31 i ∧ WritesX w d v (if sat31 i = i then 0 else flagQS) s t

/-- The Wheel, the predicate and the cycles of an instruction whose false predicate leaves nothing but cycles (R73, R83): every Wheel
instruction but LOOP and BRF. -/
def wheelIssue (i : Instr) : Option (Fin 64 × Fin 16 × Nat) :=
  match i with
  | .nop w p | .endP w p | .mov w p _ _ | .getf w p _ | .cyc w p _ | .pset w p _ _ _ _ | .lds w p _ _ | .ldf w p _ _ | .sts w p _ _
  | .ldc w p _ _ | .adcs w p _ | .post w p _ _ | .fadd w p _ _ _ | .fsub w p _ _ _ | .fmul w p _ _ _ | .fma w p _ _ _ _
  | .fms w p _ _ _ _ | .fmin w p _ _ _ | .fmax w p _ _ _ | .fclamp w p _ _ _ _ | .fabs w p _ _ | .fneg w p _ _ | .fcmp w p _ _ _ _
  | .f2q w p _ _ | .q2f w p _ _ | .f2i w p _ _ | .i2f w p _ _ | .f2u w p _ _ | .qadd w p _ _ _ | .qsub w p _ _ _ | .qmul w p _ _ _
  | .qmac w p _ _ _ _ | .qabs w p _ _ | .qcmp w p _ _ _ _ | .iadd w p _ _ _ | .isub w p _ _ _ | .and w p _ _ _ | .or w p _ _ _
  | .xor w p _ _ _ | .shl w p _ _ _ | .shr w p _ _ _ | .sar w p _ _ _ | .icmp w p _ _ _ _ | .ucmp w p _ _ _ _ | .iacc w p _ _ _ _
  | .ird w p _ _ | .ipre w p _ _ | .ilim w p _ _ _ | .bq w p _ _ _ _ | .bqclr w p _ | .res w p _ _ _ _ | .resr w p _ _ => some (w, p, 1)
  | .fdiv w p _ _ _ | .fsqrt w p _ _ => some (w, p, 8)
  | .crot w p _ _ _ | .crotv w p _ _ _ _ | .cvec w p _ _ _ => some (w, p, 12)
  | _ => none

/-- In Wheel `w` X`d` and X`d + 1` hold the two results and the sticky flags have joined; all else is as it was (R88). -/
def WritesPair (w d : Fin 64) (r : (Word × Word) × Nat) (s t : State) : Prop :=
  t.wheels[w].xr d = r.1.1 ∧ t.wheels[w].xr (d + 1) = r.1.2 ∧ t.wheels[w].flags = s.wheels[w].flags ||| r.2 ∧
    (∀ q, q ≠ d → q ≠ d + 1 → t.wheels[w].xr q = s.wheels[w].xr q) ∧ t.wheels[w].preds = s.wheels[w].preds ∧
    t.wheels[w].work = s.wheels[w].work ∧ OnlyWheel w s t

/-- In Wheel `w` integrator state `u` is `i` and the sticky flags `m` have joined; the other unit states and the predicates are as they
were, and so is everything outside the Wheel (R90). -/
def WritesInteg (w : Fin 64) (u : Fin 4) (i : Integ) (m : Nat) (s t : State) : Prop :=
  t.wheels[w].work.integ[u] = i ∧ (∀ j, j ≠ u → t.wheels[w].work.integ[j] = s.wheels[w].work.integ[j]) ∧
    t.wheels[w].work.biq = s.wheels[w].work.biq ∧ t.wheels[w].work.resid = s.wheels[w].work.resid ∧
    t.wheels[w].flags = s.wheels[w].flags ||| m ∧ t.wheels[w].preds = s.wheels[w].preds ∧ OnlyWheel w s t

/-- The registers of Wheel `w` but X`d` are as they were. -/
def OtherXs (w d : Fin 64) (s t : State) : Prop := ∀ r, r ≠ d → t.wheels[w].xr r = s.wheels[w].xr r

/-! ### Services of the Saggar -/

/-- The service request that a command makes (R349). -/
def serviceOf (i : Instr) : Option SvcReq :=
  match i with
  | .getInfo => some .getInfo
  | .getNonce => some .getNonce
  | .attest nonce verifies => some (.attest nonce verifies)
  | .getCert => some .getCert
  | .enroll fw glz svc okek sig => some (.enroll fw glz svc okek sig)
  | .rotate k v wrap sig => some (.rotate k v wrap sig)
  | .releaseOwner sig => some (.release sig)
  | .fwConfirm => some .fwConfirm
  | .setBoot glz slot img => some (.setBoot glz slot img)
  | .counterInc k => some (.counterInc k)
  | .counterRead k => some (.counterRead k)
  | .debugUnlock two sig => some (.debugUnlock two sig)
  | .debugLock => some .debugLock
  | .totalsReset sig => some (.totalsReset sig)
  | .tamperCfg temp volt clk hi sig => some (.tamperCfg temp volt clk hi sig)
  | .zeroise sig => some (.zeroise sig)
  | .cakInstall m slot ckn wrap => some (.cakInstall m slot ckn wrap)
  | .sakGen m a slot => some (.sakGen m a slot)
  | .sakLoad m a slot wrap => some (.sakLoad m a slot wrap)
  | .mkaIcv cak pdu => some (.mkaIcv cak.1 cak.2 pdu)
  | .random n => some (.random n)
  | _ => none

/-- A nonce is outstanding, and under key `k` the signature verifies over UID, SERVICE, three zero bytes, that nonce and the arguments (R338,
R344). -/
def State.ownerSigns (s : State) (k : Option (BitVec 480)) (id : Nat) (args : List Byte) (g : HssSig) : Prop :=
  ∃ n key, s.sag.nonce = some n ∧ k = some key ∧ hssOk key (s.authMessage id n args) g = true

/-- The services that need the owner's signature under a nonce (R344). -/
def ownerServices : List Nat := [0x10, 0x11, 0x12, 0x20, 0x22, 0x23, 0x24]

/-- The request has the owner's authority, where its service needs it: signed under the SVC key, ENROLL under the one it enrols, and with keys
of accepted types (R338, R343, R344). -/
def State.authority (s : State) (r : SvcReq) : Prop :=
  match r with
  | .enroll fw glz svc okek g => keyOk fw = true ∧ keyOk glz = true ∧ s.ownerSigns (some svc) 0x10 (enrollArgs fw glz svc okek) g
  | .rotate k v wrap g => s.rotateOk k v wrap = true ∧ s.ownerSigns s.sag.keySvc 0x11 (byteList 1 (keyNo k) ++ byteList 60 v.toNat) g
  | .release g => s.ownerSigns s.sag.keySvc 0x12 [] g
  | .debugUnlock two g => s.ownerSigns s.sag.keySvc 0x20 (byteList 1 (if two then 2 else 1)) g
  | .totalsReset g => s.ownerSigns s.sag.keySvc 0x22 [] g
  | .tamperCfg temp volt clk hi g => s.ownerSigns s.sag.keySvc 0x23 (tamperArgs temp volt clk hi) g
  | .zeroise g => s.ownerSigns s.sag.keySvc 0x24 [] g
  | _ => True

/-- The lifecycle state lets service `id` run: none in ERROR, GET_INFO alone once zeroised, all but ENROLL with an owner, seven without
(R336). -/
def State.lifeAllows (s : State) (id : Nat) : Prop :=
  s.sag.error = false ∧
    (s.sag.lifecycle = 1 ∧ id ∈ [0x01, 0x02, 0x03, 0x04, 0x10, 0x30, 0x21] ∨ s.sag.lifecycle = 2 ∧ id ≠ 0x10 ∨
      s.sag.lifecycle = 3 ∧ id = 0x01)

/-- A service that a command asks for is not turned away: the mailbox is not busy, the Saggar not locked, the lifecycle state lets it, and the
request fits SAG.REQ (R336, R349, R353). -/
def State.admits (s : State) (i : Instr) : Prop :=
  match serviceOf i with
  | none => False
  | some r => s.takes i ∧ s.get SAG_RESULT_BUSY = 0 ∧ (s.get SAG_STATUS_LOCKED = 0 ∨ svcId r = 1) ∧ s.lifeAllows (svcId r) ∧ svcLen r ≤ 8192

/-- A service that a command asks for runs: it is not turned away, and has the owner's authority where it needs it (R336, R344, R349,
R353). -/
def State.serves (s : State) (i : Instr) : Prop := s.admits i ∧ ∀ r, serviceOf i = some r → s.authority r

/-- The service ends, once it completes, with the code and no response; the mailbox is busy. -/
def State.SvcEnds (s : State) (id len code : Nat) (more : List (Fld × Nat)) (t : State) : Prop :=
  Sets ([(SAG_CMD_SERVICE, id), (SAG_CMD_LEN, len % 2 ^ 14), (SAG_RESULT_BUSY, 1)] ++ more) s t ∧
    t.sag.svc = some (svcCode id code) ∧ t.sag.rsp = []

/-- The service ends, once it completes, with what `r` says; the mailbox is busy. -/
def State.SvcRuns (s : State) (len : Nat) (r : SvcRun) (t : State) : Prop :=
  Sets [(SAG_CMD_SERVICE, r.id), (SAG_CMD_LEN, len), (SAG_RESULT_BUSY, 1)] s t ∧ t.sag.svc = some r

/-- The service ends, once it completes, with OK and a response of `n` bytes whose words are free values; the mailbox is busy. -/
def State.SvcAnswers (s : State) (id len n : Nat) (t : State) : Prop :=
  Sets [(SAG_CMD_SERVICE, id), (SAG_CMD_LEN, len), (SAG_RESULT_BUSY, 1)] s t ∧
    t.sag.svc = some { id := id, code := 0, len := n, free := some s.free } ∧ t.free = s.free + 1

end Sys2Proof.Machine
end

