-- ==== Sys2Proof/Certificates/Slice0/Obligations.lean ====
section
/-!
DEFINITION. The statements for the provers. The rule numbers at the head of a docstring are the rules its clauses rest on; a statement
need not state each of them whole (OBLIGATIONS.json says which it does).
-/

open Sys2Proof Sys2Proof.Machine
/-! ### The machine as a whole -/

/-- A step takes the command at the front of the queue: it is `exec` of that command on the state with the queue's rest. -/
def Obligations.StepRunsTheFirstCommand : Prop :=
  (∀ (s : State) (i : Instr), step (s.enqueueFirst i) = exec i s) ∧
  ∀ (s : State) (i : Instr) (rest : List Instr), s.pending = i :: rest → step s = exec i { s with pending := rest }

/-- The queue is first in, first out: a step removes the command it runs, and no command touches those that wait (log entry 2: on an
empty queue 100 ns pass, and the queue stays empty). -/
def Obligations.CommandsLeaveTheQueue : Prop :=
  (∀ (s t : State) (i : Instr), exec i s = .next t → t.pending = s.pending) ∧
  ∀ s t : State, step s = .next t → t.pending = s.pending.tail

/-- From every state whose memories are in canonical form a step leads to such a state. -/
def Obligations.StepsKeepMemoriesCanonical : Prop :=
  ∀ s t : State, s.canon = true → step s = .next t → t.canon = true

/-- The state after reset meets both invariants: its memories are in canonical form and no pair's outputs are on together. No command
waits in it. -/
def Obligations.ResetMeetsTheInvariants : Prop :=
  State.reset.canon = true ∧ (∀ p : Fin 9, ¬(State.reset.mod.pairs[p].outA = true ∧ State.reset.mod.pairs[p].outB = true)) ∧
  State.reset.pending = []

/-- R6, R9 and the register tables: registers after reset read what the spec gives, and those it gives 0 read 0. -/
def Obligations.ResetValuesOfRegisters : Prop :=
  State.reset.get SYS_PARTID_PART = 0x7180 ∧ State.reset.get SYS_STATE_PHASE = 1 ∧ State.reset.get SYS_ROLE_ROLE = 0 ∧
  State.reset.get SIT_CAUSE_CAUSE = 0 ∧ State.reset.get SIT_STATUS_BLOCK_STOP = 0 ∧ State.reset.get GLZ_FIRE_COUNT_COUNT = 0 ∧
  (∀ n : Fin 9, State.reset.get (SET_STATUS_ARMED n) = 0 ∧ State.reset.get (MOD_STATUS_RUN n) = 0 ∧
    State.reset.get (SET_SEG_USE_A n) = 0x7F ∧ State.reset.get (SET_SEG_USE_B n) = 0x7F) ∧
  ∀ n : Fin 44, State.reset.get (WIN_STATUS_STATE n) = 2 ∧ State.reset.get (WIN_CFG_EN n) = 0

/-- A command changes only the parts of the state that it names: registers of the blocks it acts on, and the units it acts on. Accesses
through the bus, a firing and a reset of the module name none and are not bound. Every command, in every state, completes within its parts,
but for VAUX_HIGH outside the ratings of R367. -/
def Obligations.CommandsChangeOnlyTheirParts : Prop :=
  (∀ (s t : State) (i : Instr) (l : List Part), footprint i = some l → exec i s = .next t → Within l s t) ∧
  (∀ (s : State) (i : Instr) (l : List Part), footprint i = some l → i ≠ .vauxHigh true → Completes i s (Within l s)) ∧
  ∀ (s : State) (i : Instr), footprint i = none → Completes i s fun t => t.pending = s.pending

/-- R41, R267, R268, R379: firmware reaches a register block only while the HOST and the block's island are out of reset and the cores are not
in standby; an access of an island in reset ends in a bus error, and an access that R41 names waits while a firing runs. -/
def Obligations.FirmwareAccessNeedsItsIsland : Prop :=
  ∀ (s : State) (i : Instr) (x : Isl) (h : Option Held), accessOf i = some (x, h) →
    (s.up .host = false ∨ s.get PWR_STATUS_STANDBY = 1 → exec i s = .next s) ∧
    (s.up .host = true → s.get PWR_STATUS_STANDBY = 0 → s.up x = false → exec i s = .next { s with resp := ⟨0, true⟩ }) ∧
    (∀ d, s.up .host = true → s.get PWR_STATUS_STANDBY = 0 → s.up x = true → h = some d → s.phase = 5 → exec i s = .next { s with held := s.held ++ [d] })

/-- Log entry 2 (the model's choice): on an empty queue 100 ns pass: the module's clock advances by 100 ns while the always-on island has a
supply, the units sent have left (those there are now are characters that the UARTs sent in this time), CONE_OUT is low again, and of the
parts only those that count time change. -/
def Obligations.EmptyQueueLetsTimePass : Prop :=
  ∀ s : State, s.pending = [] → ∃ t, step s = .next t ∧ t.con.out = false ∧
    (∀ u ∈ t.outbox, ∃ (i : Fin 4) (v : Nat), u = .port (0x4A200008 + 0x1000 * i.val) v) ∧
    t.pug.aonNs = (if s.pug.supplied then s.pug.aonNs + 100 else s.pug.aonNs) ∧
    Within [.regs 0x430, .regs 0x460, .regs 0x470, .regs 0x490, .regs 0x4a1, .regs 0x4a2, .regs 0x4c0, .free, .outbox, .gsus, .isl, .mod,
      .tiles, .met, .lanes, .net, .pug, .pwr, .con, .ports] s t

/-! ### Rate groups, the signal plane, banks and the mailbox -/

/-- R48, R49, R51 to R54, R60, R61, R64, R72, R149, R326: triggers, a group's sample from its start to its end-of-sample, and its misses. -/
def Obligations.SamplesOfARateGroup : Prop :=
  ∀ (s : State) (k : Fin 8),
  let on := s.fired = true ∧ s.up .wheel = true ∧ s.enabled k = true
  let runs := s.get (RGS_RG_STATUS_RUNNING k) = 1
  let missed := fun (t : State) => t.get (RGS_RG_STATUS_MISS k) = 1 ∧ t.get RGS_INT_MISS = 1 ∧
    t.get (RGS_RG_MISS_COUNT_COUNT k) = s.counted (RGS_RG_MISS_COUNT_COUNT k) ∧
    t.get (RGS_RG_STATUS_CONSEC k) = s.counted (RGS_RG_STATUS_CONSEC k) ∧
    (s.get (RGS_RG_STATUS_CONSEC k) + 1 = s.get RGS_SUPV_K_MISS → s.up .mod = true → Stops .missedDeadline s t)
  (on → s.get (RGS_RG_CFG_SRC k) = 1 → Completes (.timerTrigger k) s fun t => t.groups[k].trig = s.groups[k].trig + 1 ∧ Sets [] s t) ∧
  (¬on ∨ s.get (RGS_RG_CFG_SRC k) ≠ 1 → exec (.timerTrigger k) s = .next s) ∧
  (s.get (RGS_RG_CFG_SRC k) = 4 → s.ptpDue k = true → Completes (.ptpTrigger k) s fun t =>
    t.groups[k].ptpIdx = s.groups[k].ptpIdx + 1 ∧ Sets [] s t ∧ (on → t.groups[k].trig = s.groups[k].trig + 1) ∧
    (¬on → t.groups[k].trig = s.groups[k].trig)) ∧
  (s.get (RGS_RG_CFG_SRC k) ≠ 4 ∨ s.ptpDue k = false → exec (.ptpTrigger k) s = .next s) ∧
  (¬on ∨ s.groups[k].trig = 0 → exec (.sampleStart k) s = .next s) ∧
  (on → s.groups[k].trig ≠ 0 → Completes (.sampleStart k) s fun t =>
    t.get (RGS_RG_STATUS_RUNNING k) = 1 ∧ t.get (RGS_RG_SAMPLES_COUNT k) = (s.get (RGS_RG_SAMPLES_COUNT k) + 1) % 2 ^ 32 ∧
    t.groups[k].plane = s.slots ∧ t.groups[k].stores = [] ∧ t.slots = s.slots ∧
    (s.get (RGS_RG_CFG_SRC k) ≠ 3 → t.groups[k].trig = s.groups[k].trig - 1) ∧ (runs → missed t) ∧
    (∀ r, s.groups[k].swap = some r → r.atPlant = false → r.bank < 2 →
      t.get (RGS_RG_STATUS_ACTIVE_BANK k) = r.bank ∧ t.groups[k].swap = none) ∧
    ∀ w ∈ s.members k, t.wheels[w].live = !s.wheels[w].stopNext ∧ t.wheels[w].pc = s.wheels[w].decl.entry ∧ t.wheels[w].preds = 0) ∧
  (¬runs → exec (.deadlineMiss k) s = .next s) ∧
  (runs → Completes (.deadlineMiss k) s fun t =>
    missed t ∧ t.get (RGS_RG_STATUS_RUNNING k) = 0 ∧ t.slots = s.slots ∧ t.groups[k].stores = [] ∧
    ∀ w ∈ s.members k, t.wheels[w].live = false ∧ t.wheels[w].work = s.wheels[w].units ∧ t.wheels[w].units = s.wheels[w].units) ∧
  (¬on ∨ s.groups[k].trig ≠ 0 → exec (.triggerTimeout k) s = .next s) ∧
  (on → s.groups[k].trig = 0 → Completes (.triggerTimeout k) s fun t =>
    missed t ∧ t.get (RGS_RG_STATUS_TRIGLOSS k) = 1 ∧ t.get RGS_INT_TRIGLOSS = 1 ∧ t.slots = s.slots ∧ t.wheels = s.wheels) ∧
  (¬runs ∨ (∃ w ∈ s.members k, s.wheels[w].ended = false) → exec (.endOfSample k) s = .next s) ∧
  (runs → (∀ w ∈ s.members k, s.wheels[w].ended = true) → Completes (.endOfSample k) s fun t =>
    t.get (RGS_RG_STATUS_RUNNING k) = 0 ∧ t.get (RGS_RG_STATUS_CONSEC k) = 0 ∧ t.groups[k].stores = [] ∧ t.groups[k].runLen = 0 ∧
    (∀ w ∈ s.members k, t.wheels[w].units = s.wheels[w].work ∧ t.wheels[w].live = false) ∧
    ((s.groups[k].unguarded = true ∨ ∀ g : Fin 4, s.get (RGS_GRD_CFG_MODE k g) = 0) → (∀ e ∈ s.groups[k].stores, e.1 < 4096) →
      ∀ j, t.slot j = (((s.groups[k].stores.filter fun e => e.1 == j).getLast?).map (·.2)).getD (s.slot j)))

/-- R45, R52, R56, R63 to R65, R67, R68, R146, R382, R385: writes of a slot, of a coefficient bank, of a swap request and of an integrator
state, the mailbox, and memory errors: an uncorrectable one stops its Wheel for this sample, or for the next one, is flagged and
journalled; a corrected one is counted. -/
def Obligations.FabricAccessesAndMemoryErrors : Prop :=
  ∀ s : State,
  (∀ (k : BitVec 12) (v : Word), s.takes (.slotWrite k v) →
    (s.get (RGS_OWNER_KIND k.toNat) = 5 → Completes (.slotWrite k v) s fun t =>
      t.slot k.toNat = v ∧ (∀ j, j ≠ k.toNat → t.slot j = s.slot j) ∧ Sets [] s t) ∧
    (s.get (RGS_OWNER_KIND k.toNat) ≠ 5 → Completes (.slotWrite k v) s fun t =>
      Sets [(RGS_SLOT_REFUSED_COUNT, s.counted RGS_SLOT_REFUSED_COUNT)] s t ∧ SameMemory s t)) ∧
  (∀ (w : Fin 64) (b : Fin 2) (i : BitVec 10) (v : Word), s.takes (.coefBankWrite w b i v) →
    (s.coefRefused w b i.toNat = true → Completes (.coefBankWrite w b i v) s fun t =>
      Sets [(WHL_COEF_REFUSED_COUNT w, s.counted (WHL_COEF_REFUSED_COUNT w))] s t ∧ SameMemory s t) ∧
    (s.coefRefused w b i.toNat = false → Completes (.coefBankWrite w b i v) s fun t =>
      Sets [] s t ∧ t.bankGet w b i.toNat = v ∧
      ∀ (x : Fin 64) (c : Fin 2) (j : Nat), j < 1024 → (x ≠ w ∨ c ≠ b ∨ j ≠ i.toNat) → t.bankGet x c j = s.bankGet x c j)) ∧
  (∀ (k : Fin 8) (bank : Fin 2) (plant : Bool), s.takes (.swapRequest k bank plant) →
    let asked := [(RGS_RG_SWAP_BANK k, bank.val), (RGS_RG_SWAP_AT_PLANT k, plant.toNat)]
    let pends := if s.get (RGS_RG_STATUS_ACTIVE_BANK k) = bank then 0 else 1
    let takes := fun (t : State) => t.groups[k].swap =
      if s.get (RGS_RG_STATUS_ACTIVE_BANK k) = bank then none else some { bank := bank, hw := false, atPlant := plant }
    (s.groups[k].swap = none → Completes (.swapRequest k bank plant) s fun t =>
      Sets (asked ++ [(RGS_RG_SWAP_GO k, pends), (RGS_RG_STATUS_SWAP_PEND k, pends)]) s t ∧ takes t) ∧
    (∀ r, s.groups[k].swap = some r → r.hw = false → Completes (.swapRequest k bank plant) s fun t =>
      Sets (asked ++ [(RGS_RG_SWAP_REFUSED k, 1), (RGS_RG_SWAP_GO k, pends), (RGS_RG_STATUS_SWAP_PEND k, pends)]) s t ∧ takes t) ∧
    (∀ r, s.groups[k].swap = some r → r.hw = true → Completes (.swapRequest k bank plant) s fun t =>
      Sets (asked ++ [(RGS_RG_SWAP_REFUSED k, 1)]) s t ∧ t.groups = s.groups)) ∧
  (∀ (w : Fin 64) (j : Fin 4) (v : Word), s.takes (.istateWrite w j v) →
    (s.fired = true → Completes (.istateWrite w j v) s fun t =>
      t.wheels[w].preset = assocPut s.wheels[w].preset j.val v ∧ t.wheels[w].units = s.wheels[w].units ∧ Sets [] s t) ∧
    (s.fired = false → Completes (.istateWrite w j v) s fun t => t.wheels = s.wheels ∧ Sets [] s t)) ∧
  (s.takes .mboxRead → Completes .mboxRead s fun t =>
    t.fab.mbox = s.fab.mbox.tail ∧ t.resp = ⟨BitVec.ofNat 64 (s.mboxWord true), false⟩ ∧ Sets [] s t ∧ SameMemory s t) ∧
  (∀ v : BitVec 7, s.takes (.mboxThreshWrite v) → Completes (.mboxThreshWrite v) s
    (Sets [(RGS_MBOX_STAT_THRESH, v.toNat), (RGS_INT_MBOX_LEVEL, if v.toNat ≤ s.fab.mbox.length then 1 else s.get RGS_INT_MBOX_LEVEL)] s)) ∧
  ∀ w : Fin 64,
  (Completes (.memoryError w) s fun t =>
    t.get (WHL_STATUS_MEM_ERR w) = 1 ∧
    (s.met.entriesOpen = true → s.crossing < 64 →
      ∃ more, t.met.jq = s.met.jq ++ ⟨0x0C, w, s.get (WHL_STATUS_PHYS w), [], s.moduleTime, s.ptpValid, s.sag.heldLoss⟩ :: more) ∧
    (s.wheels[w].decl.group = none → t.wheels = s.wheels) ∧
    ∀ k : Fin 8, s.wheels[w].decl.group = some k.val →
      (s.wheels[w].live = true → s.wheels[w].ended = false → s.get (RGS_RG_STATUS_RUNNING k) = 1 →
        t.wheels[w].live = false ∧ t.groups[k].runMem = true) ∧
      (s.wheels[w].live = false ∨ s.wheels[w].ended = true ∨ s.get (RGS_RG_STATUS_RUNNING k) = 0 →
        t.wheels[w].stopNext = true ∧ t.wheels[w].live = s.wheels[w].live)) ∧
  (s.grg.errs = [] → Completes (.correctedError w) s fun t => OnlyRegs [GRG_MON_WORST 6] s t ∧
    t.grg.errs = [((0, s.get (WHL_STATUS_PHYS w), 0), s.moduleTime / 86400000000000, 1)] ∧ t.wheels = s.wheels)

/-! ### The Wheel instruction set -/

/-- R73: a Wheel instruction whose predicate is false changes nothing and sets no flag; it still occupies its cycles, and a false LDF
occupies one; a false BRF goes on; a false LOOP goes on behind its body (R80, R81). A Wheel that issues nothing does nothing. -/
def Obligations.FalsePredicateOnlyTakesTime : Prop :=
  (∀ (s : State) (i : Instr) (w : Fin 64) (p : Fin 16) (n : Nat), wheelIssue i = some (w, p, n) → s.wheels[w].issues = true →
    s.wheels[w].cond p = false → exec i s = .next (s.onWheel w fun x => x.advance n)) ∧
  (∀ (s : State) (w : Fin 64) (p : Fin 16) (r : Option (Fin 64)) (mx : BitVec 8) (l tgt : BitVec 9), s.wheels[w].issues = true →
    s.wheels[w].cond p = false →
    exec (.brf w p tgt) s = .next (s.onWheel w fun x => x.advance 1) ∧
    exec (.loop w p r mx l) s = .next (s.onWheel w fun x => { x with pc := l.toNat }.advance 1)) ∧
  ∀ (s : State) (i : Instr) (w : Fin 64) (p : Fin 16) (n : Nat), wheelIssue i = some (w, p, n) → s.wheels[w].issues = false →
    exec i s = .next s

/-- R53, R70 to R72, R74 to R83: an instruction of one Wheel leaves every other Wheel, the published slots, the banks, the programs and the
SRAM; and so does whatever instruction a word of a Wheel's program store spells. -/
def Obligations.WheelInstructionStaysInItsWheel : Prop :=
  (∀ (s t : State) (i : Instr) (w : Fin 64) (p : Fin 16) (n : Nat), wheelIssue i = some (w, p, n) → exec i s = .next t →
    (∀ u, u ≠ w → t.wheels[u] = s.wheels[u]) ∧ SameMemory s t) ∧
  ∀ (s t : State) (i : Instr) (w : Fin 64) (v : DWord), decodeWheel w v = some i → exec i s = .next t →
    (∀ u, u ≠ w → t.wheels[u] = s.wheels[u]) ∧ SameMemory s t

/-- R83, R85, R87: the integer, logic, shift and Q31 instructions. -/
def Obligations.IntegerInstructionResults : Prop :=
  ∀ (s : State) (w : Fin 64) (p : Fin 16) (d a c e : Fin 64) (b : Opnd), s.wheels[w].runs p = true →
    let A := s.wheels[w].xr a
    let B := s.wheels[w].opnd b
    let C := s.wheels[w].xr c
    let E := s.wheels[w].xr e
    Completes (.iadd w p d a b) s (WritesX w d (A + B) 0 s) ∧
    Completes (.isub w p d a b) s (WritesX w d (A - B) 0 s) ∧
    Completes (.and w p d a b) s (WritesX w d (A &&& B) 0 s) ∧
    Completes (.or w p d a b) s (WritesX w d (A ||| B) 0 s) ∧
    Completes (.xor w p d a b) s (WritesX w d (A ^^^ B) 0 s) ∧
    Completes (.shl w p d a b) s (WritesX w d (A <<< (B.toNat % 32)) 0 s) ∧
    Completes (.shr w p d a b) s (WritesX w d (A >>> (B.toNat % 32)) 0 s) ∧
    Completes (.sar w p d a b) s (WritesX w d (A.sshiftRight (B.toNat % 32)) 0 s) ∧
    Completes (.qadd w p d a b) s (WritesQ w d (A.toInt + B.toInt) s) ∧
    Completes (.qsub w p d a b) s (WritesQ w d (A.toInt - B.toInt) s) ∧
    Completes (.qmul w p d a b) s (WritesQ w d ((A.toInt * B.toInt + 2 ^ 30) / 2 ^ 31) s) ∧
    Completes (.qmac w p d a c e) s (WritesQ w d ((E.toInt * 2 ^ 31 + A.toInt * C.toInt + 2 ^ 30) / 2 ^ 31) s) ∧
    Completes (.qabs w p d a) s (WritesQ w d (Int.natAbs A.toInt) s)

/-- R83, R84, R86: the float instructions and the conversions write what the number format's operations give. -/
def Obligations.FloatInstructionResults : Prop :=
  ∀ (s : State) (w : Fin 64) (p : Fin 16) (d a c e : Fin 64) (b : Opnd), s.wheels[w].runs p = true →
    let A := s.wheels[w].xr a
    let B := s.wheels[w].opnd b
    let C := s.wheels[w].xr c
    let E := s.wheels[w].xr e
    Completes (.fadd w p d a b) s (WritesX w d (fadd A B).1 (fadd A B).2 s) ∧
    Completes (.fsub w p d a b) s (WritesX w d (fsub A B).1 (fsub A B).2 s) ∧
    Completes (.fmul w p d a b) s (WritesX w d (fmul A B).1 (fmul A B).2 s) ∧
    Completes (.fma w p d a c e) s (WritesX w d (ffma A C E).1 (ffma A C E).2 s) ∧
    Completes (.fms w p d a c e) s (WritesX w d (ffms A C E).1 (ffms A C E).2 s) ∧
    Completes (.fmin w p d a b) s (WritesX w d (fmin A B).1 (fmin A B).2 s) ∧
    Completes (.fmax w p d a b) s (WritesX w d (fmax A B).1 (fmax A B).2 s) ∧
    Completes (.fclamp w p d a c e) s (WritesX w d (fclamp A C E).1 (fclamp A C E).2 s) ∧
    Completes (.fabs w p d a) s (WritesX w d (A &&& 0x7FFFFFFF) 0 s) ∧
    Completes (.fneg w p d a) s (WritesX w d (A ^^^ 0x80000000) 0 s) ∧
    Completes (.fdiv w p d a c) s (WritesX w d (fdiv A C).1 (fdiv A C).2 s) ∧
    Completes (.fsqrt w p d a) s (WritesX w d (fsqrt A).1 (fsqrt A).2 s) ∧
    Completes (.f2q w p d a) s (WritesX w d (ftoInt A 31 (-2147483648) 2147483647).1 (ftoInt A 31 (-2147483648) 2147483647).2 s) ∧
    Completes (.q2f w p d a) s (WritesX w d (fofInt A.toInt 31) 0 s) ∧
    Completes (.f2i w p d a) s (WritesX w d (ftoInt A 0 (-2147483648) 2147483647).1 (ftoInt A 0 (-2147483648) 2147483647).2 s) ∧
    Completes (.i2f w p d a) s (WritesX w d (fofInt A.toInt 0) 0 s) ∧
    Completes (.f2u w p d a) s (WritesX w d (ftoInt A 0 0 4294967295).1 (ftoInt A 0 0 4294967295).2 s)

/-- R84: every NaN result of an arithmetic operation is 0x7FC0_0000; no result is subnormal; a finite value other than zero divided by
zero is an infinity of the correct sign with DZ alone, and 0 ÷ 0 is NaN; FMIN and FMAX return the other operand (subnormal as zero)
when exactly one is NaN and take −0 as less than +0. -/
def Obligations.FloatFormatRules : Prop :=
  (∀ a b c : Word, ∀ r ∈ [(fadd a b).1, (fsub a b).1, (fmul a b).1, (fdiv a b).1, (ffma a b c).1, (ffms a b c).1, (fsqrt a).1],
    (F32.of r = .nan → r = 0x7FC00000) ∧ (r.toNat / 2 ^ 23 % 256 = 0 → r.toNat % 2 ^ 23 = 0)) ∧
  (∀ (a b : Word) (x y : Bool) (v : Nat), v ≠ 0 → F32.of a = .fin x v → F32.of b = .fin y 0 →
    fdiv a b = (if x = y then 0x7F800000 else 0xFF800000, flagDZ)) ∧
  (∀ (a b : Word) (x y : Bool), F32.of a = .fin x 0 → F32.of b = .fin y 0 → fdiv a b = (0x7FC00000, flagFV)) ∧
  (∀ a b : Word, F32.of a = .nan → F32.of b ≠ .nan →
    fmin a b = (fflush b, 0) ∧ fmin b a = (fflush b, 0) ∧ fmax a b = (fflush b, 0) ∧ fmax b a = (fflush b, 0)) ∧
  fmin 0x80000000 0 = (0x80000000, 0) ∧ fmin 0 0x80000000 = (0x80000000, 0) ∧ fmax 0x80000000 0 = (0, 0) ∧ fmax 0 0x80000000 = (0, 0)

/-- R79: the compares and PSET write their predicate: an order of floats with −0 equal to +0 and unordered where one is NaN, an order of
signed numbers, and an order of unsigned numbers. -/
def Obligations.CompareInstructionResults : Prop :=
  ∀ (s : State) (w : Fin 64) (p : Fin 16) (u q r : Fin 4) (k : Cond) (f : PFun) (a : Fin 64) (b : Opnd), s.wheels[w].runs p = true →
    let A := s.wheels[w].xr a
    let B := s.wheels[w].opnd b
    Completes (.fcmp w p u k a b) s (WritesP w u (condHolds k (fcmp A B)) s) ∧
    Completes (.qcmp w p u k a b) s (WritesP w u (condHolds k (some (compare A.toInt B.toInt))) s) ∧
    Completes (.icmp w p u k a b) s (WritesP w u (condHolds k (some (compare A.toInt B.toInt))) s) ∧
    Completes (.ucmp w p u k a b) s (WritesP w u (condHolds k (some (compare A.toNat B.toNat))) s) ∧
    Completes (.pset w p u f q r) s (WritesP w u (pfunVal f (s.wheels[w].pred q) (s.wheels[w].pred r)) s)

/-- R54, R71, R76, R83: the moves and the plain loads write D; NOP leaves the Wheel's data and moves on. -/
def Obligations.MoveAndLoadResults : Prop :=
  ∀ (s : State) (w : Fin 64) (p : Fin 16) (d : Fin 64) (b : Opnd) (e : Ixd 12) (k : Ixd 10), s.wheels[w].runs p = true →
    Completes (.nop w p) s (fun t => SameWheelData w s t ∧ t.wheels[w].cyc = s.wheels[w].cyc + 1 ∧ OnlyWheel w s t) ∧
    Completes (.mov w p d b) s (WritesX w d (s.wheels[w].opnd b) 0 s) ∧
    Completes (.getf w p d) s (WritesX w d
      (BitVec.ofNat 32 (s.wheels[w].flags % 512 + s.wheels[w].preds.toNat * 4096)) 0 s) ∧
    Completes (.cyc w p d) s (WritesX w d (BitVec.ofNat 32 s.wheels[w].cyc) 0 s) ∧
    Completes (.lds w p d e) s (WritesX w d (cellGet s.groups[s.groupOf w].plane (s.wheels[w].eff e)) 0 s) ∧
    Completes (.ldc w p d k) s (WritesX w d (s.bankGet w (s.activeBank w) (s.wheels[w].eff k)) 0 s)

/-- R59, R234: a fresh read that no start instruction governs reads as LDS does; one whose result has arrived yields the slot; another
waits. Its return ends the wait with the slot's value; its timeout ends it with the previous result, the stale flag and STATUS.STALE. -/
def Obligations.FreshReadResults : Prop :=
  ∀ (s : State) (w : Fin 64) (p : Fin 16) (d : Fin 64) (e : Ixd 12),
    let k := s.wheels[w].eff e
    (s.wheels[w].runs p = true → s.governing w k = none →
      Completes (.ldf w p d e) s (WritesX w d (cellGet s.groups[s.groupOf w].plane k) 0 s)) ∧
    (∀ r, s.wheels[w].runs p = true → s.governing w k = some r → r.arrived = true →
      Completes (.ldf w p d e) s (WritesX w d (s.slot k) 0 s)) ∧
    (∀ r, s.wheels[w].runs p = true → s.governing w k = some r → r.arrived = false →
      Completes (.ldf w p d e) s fun t => t.wheels[w].wait = some ⟨d, k, r.core, s.wheels[w].cyc⟩ ∧ SameWheelData w s t ∧ OnlyWheel w s t) ∧
    (∀ (f : Fresh) (r : StartRec) (c : Nat), s.wheels[w].wait = some f → s.waitRec w f = some r → r.arrived = true →
      Completes (.freshReadReturn w c) s fun t => t.wheels[w].wait = none ∧ WritesX w f.d (s.slot f.slot) 0 s t) ∧
    (∀ (f : Fresh) (r : StartRec), s.wheels[w].wait = some f → s.waitRec w f = some r → r.arrived = false →
      Completes (.freshReadTimeout w) s fun t => t.wheels[w].wait = none ∧ t.wheels[w].xr f.d = s.slot f.slot ∧
        t.wheels[w].flags = s.wheels[w].flags ||| flagSTALE ∧ t.get (RGS_RG_STATUS_STALE (s.groupOf w)) = 1 ∧
        OnlyRegs [RGS_RG_STATUS_STALE (s.groupOf w)] s t ∧ SameMemory s t)

/-- R53, R58, R68, R80 to R82: STS stores for the end of the sample where the group owns the slot and is counted where it does not; POST
appends to a mailbox that has room; ADCS starts the cores of the mask that listen to the Wheel's group; END ends the Wheel's sample; LOOP
enters its body or goes on after it; BRF goes to its target. -/
def Obligations.StoreAndControlResults : Prop :=
  ∀ (s : State) (w : Fin 64) (p : Fin 16) (a : Fin 64) (e : Ixd 12) (tag m : BitVec 16) (r : Option (Fin 64)) (mx : BitVec 8)
    (l tgt : BitVec 9), s.wheels[w].runs p = true →
    let k := s.wheels[w].eff e
    let g := s.groupOf w
    let n := match r with | none => mx.toNat | some r => min mx.toNat (s.wheels[w].xr r).toNat
    (s.get (RGS_OWNER_KIND k) = 1 → s.get (RGS_OWNER_INDEX k) = g.val →
      Completes (.sts w p a e) s fun t => (t.groups[g].stores.find? fun x => x.1 == k) = some (k, s.wheels[w].xr a) ∧
        SameWheelData w s t ∧ OnlyWheel w s t) ∧
    ((s.get (RGS_OWNER_KIND k) ≠ 1 ∨ s.get (RGS_OWNER_INDEX k) ≠ g.val) →
      Completes (.sts w p a e) s fun t => t.groups = s.groups ∧ SameWheelData w s t ∧
        t.get RGS_SLOT_REFUSED_COUNT = min (2 ^ RGS_SLOT_REFUSED_COUNT.width - 1) (s.get RGS_SLOT_REFUSED_COUNT + 1) ∧
        OnlyRegs [RGS_SLOT_REFUSED_COUNT] s t ∧ SameMemory s t) ∧
    (s.fab.mbox.length < 64 →
      Completes (.post w p a tag) s fun t => t.fab.mbox = s.fab.mbox ++ [(s.wheels[w].xr a, tag.toNat, w.val, g.val)] ∧
        SameWheelData w s t ∧ OnlyRegs [RGS_INT_MBOX_LEVEL] s t ∧ SameMemory s t) ∧
    (64 ≤ s.fab.mbox.length →
      Completes (.post w p a tag) s fun t => t.fab.mbox = s.fab.mbox ∧ t.get RGS_INT_MBOX_LOST = 1 ∧ t.get (WHL_STATUS_MBOX_FULL w) = 1 ∧
        t.wheels[w].flags = s.wheels[w].flags ||| flagMBF ∧ (∀ r, t.wheels[w].xr r = s.wheels[w].xr r) ∧
        OnlyRegs [RGS_MBOX_LOST_COUNT, RGS_INT_MBOX_LOST, WHL_STATUS_MBOX_FULL w] s t ∧ SameMemory s t) ∧
    Completes (.adcs w p m) s (fun t => SameWheelData w s t ∧ SameMemory s t ∧
      ∀ c : Fin 16, m.toNat.testBit c.val = true → s.adcListens c g = true →
        ∃ x ∈ t.groups[g].starts, x.core = c.val ∧ x.cyc = s.wheels[w].cyc) ∧
    Completes (.endP w p) s (fun t => t.wheels[w].ended = true ∧ SameWheelData w s t ∧ OnlyWheel w s t) ∧
    (n ≠ 0 → Completes (.loop w p r mx l) s fun t => t.wheels[w].pc = s.wheels[w].pc + 1 ∧
      t.wheels[w].loops = ⟨s.wheels[w].pc + 1, l.toNat, n - 1⟩ :: s.wheels[w].loops ∧ SameWheelData w s t ∧ OnlyWheel w s t) ∧
    (n = 0 → Completes (.loop w p r mx l) s fun t => t.wheels[w].pc = (nextPc l.toNat s.wheels[w].loops).1 ∧
      SameWheelData w s t ∧ OnlyWheel w s t) ∧
    Completes (.brf w p tgt) s (fun t => t.wheels[w].pc = tgt.toNat ∧ SameWheelData w s t ∧ OnlyWheel w s t)

/-- R88, R90, R93, R95, R96: the CORDIC, integrator, biquad and residual instructions. The gain and the coefficients are the active
bank's; RES delivers B while its channel is left breached with action SUBST, else A. -/
def Obligations.UnitInstructionResults : Prop :=
  ∀ (s : State) (w : Fin 64) (p : Fin 16) (d a b c : Fin 64) (u : Fin 4) (k : BitVec 10), s.wheels[w].runs p = true →
    let X := s.wheels[w]
    let A := X.xr a
    let B := X.xr b
    let C := X.xr c
    let I := X.work.integ[u]
    let K := s.activeWord w (X.decl.integ.getD u {}).k
    let word := fun (j : Nat) => s.activeWord w (k.toNat + j)
    let bq := bqStep (word 0) (word 1) (word 2) (word 3) (word 4) A X.work.biq[u]
    let q := X.residDecl u
    let R := resStep (s.activeWord w q.thr) q (s.get RGS_SUPV_M_SUBST) A B X.work.resid[u]
    Completes (.crot w p d a b) s (WritesPair w d (rotate 0 A B 0) s) ∧
    Completes (.crotv w p d a b c) s (WritesPair w d (rotate 2 A B C) s) ∧
    Completes (.cvec w p d a b) s (WritesPair w d (vectoring A B) s) ∧
    Completes (.iacc w p d u a b) s (fun t => WritesInteg w u (iaccOp K A B I).1 ((iaccOp K A B I).2 &&& (flagISAT ||| flagFV ||| flagFO)) s t ∧
      t.wheels[w].xr d = (iaccOp K A B I).1.y ∧ OtherXs w d s t) ∧
    Completes (.ird w p d u) s (WritesX w d I.y 0 s) ∧
    Completes (.ipre w p u a) s (fun t => WritesInteg w u (ipreOp K A I).1 ((ipreOp K A I).2 &&& (flagISAT ||| flagDZ ||| flagFV)) s t ∧
      ∀ r, t.wheels[w].xr r = X.xr r) ∧
    Completes (.ilim w p u a b) s (fun t => WritesInteg w u (ilimOp K A B I).1 ((ilimOp K A B I).2 &&& (flagISAT ||| flagFV)) s t ∧
      ∀ r, t.wheels[w].xr r = X.xr r) ∧
    Completes (.bq w p d u a k) s (fun t => t.wheels[w].work.biq[u] = bq.1 ∧ t.wheels[w].xr d = bq.2.1 ∧
      t.wheels[w].flags = X.flags ||| bq.2.2 ∧ t.wheels[w].work.integ = X.work.integ ∧ t.wheels[w].work.resid = X.work.resid ∧
      (∀ j, j ≠ u → t.wheels[w].work.biq[j] = X.work.biq[j]) ∧ OtherXs w d s t ∧ t.wheels[w].preds = X.preds ∧ OnlyWheel w s t) ∧
    Completes (.bqclr w p u) s (fun t => t.wheels[w].work.biq[u] = {} ∧ t.wheels[w].work.integ = X.work.integ ∧
      t.wheels[w].work.resid = X.work.resid ∧ (∀ j, j ≠ u → t.wheels[w].work.biq[j] = X.work.biq[j]) ∧
      (∀ r, t.wheels[w].xr r = X.xr r) ∧ t.wheels[w].flags = X.flags ∧ t.wheels[w].preds = X.preds ∧ OnlyWheel w s t) ∧
    Completes (.res w p d u a b) s (fun t => t.wheels[w].work.resid[u] = R ∧
      t.wheels[w].xr d = (if R.breached && !q.stop then B else A) ∧
      t.wheels[w].flags = X.flags ||| (if R.breached then flagBREACH else 0) ∧ t.wheels[w].work.integ = X.work.integ ∧
      t.wheels[w].work.biq = X.work.biq ∧ (∀ j, j ≠ u → t.wheels[w].work.resid[j] = X.work.resid[j]) ∧ OtherXs w d s t ∧
      t.wheels[w].preds = X.preds ∧ OnlyWheel w s t) ∧
    Completes (.resr w p d u) s (WritesX w d X.work.resid[u].r 0 s)

/-- R90, R92: after IACC, IPRE and ILIM the output of the integrator state lies neither above HI′ nor below LO′, and an output that a
clamp moved is marked SAT. -/
def Obligations.IntegratorStaysWithinLimits : Prop :=
  ∀ (s t : State) (w : Fin 64) (p : Fin 16) (d a b : Fin 64) (u : Fin 4), s.wheels[w].runs p = true →
    (exec (.iacc w p d u a b) s = .next t ∨ exec (.ipre w p u a) s = .next t ∨ exec (.ilim w p u a b) s = .next t) →
    let i := t.wheels[w].work.integ[u]
    flt i.hi i.y = false ∧ flt i.y i.lo = false ∧
      (i.y ≠ (fmul (s.activeWord w (s.wheels[w].decl.integ.getD u {}).k) i.st).1 → i.sat = true)
/-! ### The control converters -/

/-- R233 to R237, R240: an urgent request converts its entry on capacitor U or is dropped and counted; a conversion's corrected and
clipped code goes to the slot of its entry; the watchdog of a group's core puts it into fall-back. -/
def Obligations.ConverterConversions : Prop :=
  ∀ s : State,
  (∀ (n : Fin 18) (gap : Bool), s.takes (.adcStart n gap) →
    let direct := s.get (ADC_STATUS_CAL_STATE n) = 1 ∧ s.adcs[n].calLive = false
    let able := n.val < 16 ∧ s.fired = true ∧ s.get (ADC_GROUP_MODE n) ≠ 0 ∧ ¬direct ∧ (gap = true ∨ s.sarBusy n (s.sampleNow n) = false)
    let drop := [(ADC_URG_DROPS_COUNT n, s.counted (ADC_URG_DROPS_COUNT n)), (ADC_INT_URG_DROP, 1)]
    (able → Completes (.adcStart n gap) s fun t => Sets [(ADC_STATUS_BUSY n, 1)] s t ∧
      t.adcs[n].conv = s.adcs[n].conv ++ [⟨s.get (ADC_GROUP_URG_ENTRY n), false, true, some (s.sampleNow n), 0⟩]) ∧
    (¬able → Completes (.adcStart n gap) s fun t =>
      Sets (if gap then drop ++ [(ADC_STATUS_BUSY n, 0)] else drop) s t ∧ t.adcs = s.adcs)) ∧
  (∀ (n : Fin 16) (raw : BitVec 16) (ovf : Bool),
    let i := s.adcCorrect (s.physAdc n) raw.toNat
    let code := if i < 0 then 0 else min i.toNat 65535
    let clips := if ovf = true ∨ i < 0 ∨ 65535 < i then s.counted (ADC_EVENTS_CLIPS n) else s.get (ADC_EVENTS_CLIPS n)
    let word := fun (e : Nat) => adcFormat (s.get (ADC_SEQ_FMT n e) != 0) code
    let goes := fun (e : Nat) (t : State) => t.slot (s.get (ADC_SEQ_SLOT n e)) = word e ∧
      (∀ k, k ≠ s.get (ADC_SEQ_SLOT n e) → t.slot k = s.slot k) ∧ t.get (ADC_EVENTS_CLIPS n) = clips
    let direct := s.get (ADC_STATUS_CAL_STATE n) = 1 ∧ s.adcs[core18 n].calLive = false
    let runs := s.fired = true ∧ (s.get (ADC_STATUS_FALLBACK n) = 1 ∨ s.get (ADC_GROUP_MODE n) = 2) ∧ ¬direct
    let e := s.adcs[core18 n].fbPtr % 8
    (∀ v rest, s.adcs[core18 n].conv = v :: rest → Completes (.conversionDone n raw ovf) s fun t =>
      goes v.entry t ∧ (rest ≠ [] → t.adcs[core18 n].conv = rest) ∧
      (rest = [] → runs → t.adcs[core18 n].conv = [⟨e, false, false, some (s.sampleNow (core18 n)), 0⟩] ∧ t.get (ADC_STATUS_BUSY n) = 1 ∧
        t.adcs[core18 n].fbPtr = (e + 1) % (s.get (ADC_GROUP_NENT n) + 1)) ∧
      (rest = [] → ¬runs → t.adcs[core18 n].conv = [] ∧ t.get (ADC_STATUS_BUSY n) = 0) ∧
      (∀ cyc, v.capS = true → v.since = some cyc → ∀ r ∈ t.groups[Fin.ofNat 8 (s.get (ADC_GROUP_RG n))].starts,
        r.core = n.val → r.slot.isSome = true → r.cyc = cyc → r.arrived = true) ∧
      (v.urgent = true → t.get (ADC_URG_RESULT_NEW n) = 1 ∧ t.get (ADC_URG_RESULT_ENTRY n) = v.entry % 8 ∧
        t.get (ADC_URG_RESULT_CODE n) = code ∧ t.get ADC_INT_URG_DONE = 1) ∧
      (v.urgent = false → OnlyRegs [ADC_EVENTS_CLIPS n, ADC_STATUS_BUSY n] s t)) ∧
    (s.adcs[core18 n].conv = [] → exec (.conversionDone n raw ovf) s = .next s)) ∧
  ∀ n : Fin 16,
    let late := s.fired = true ∧ s.up .sense = true ∧ s.get (ADC_GROUP_MODE n) = 1 ∧ s.get (ADC_STATUS_FALLBACK n) = 0
    let direct := s.get (ADC_STATUS_CAL_STATE n) = 1 ∧ s.adcs[core18 n].calLive = false
    let falls := [(ADC_STATUS_FALLBACK n, 1), (ADC_EVENTS_FB_ENTRIES n, s.counted (ADC_EVENTS_FB_ENTRIES n)), (ADC_INT_FALLBACK, 1)]
    let e := s.get (ADC_STATUS_NEXT n)
    (late → s.adcs[core18 n].conv ≠ [] → Completes (.adcWatchdog n) s fun t =>
      Sets falls s t ∧ t.adcs[core18 n] = { s.adcs[core18 n] with fbPtr := e }) ∧
    (late → s.adcs[core18 n].conv = [] → ¬direct → Completes (.adcWatchdog n) s fun t =>
      Sets (falls ++ [(ADC_STATUS_BUSY n, 1)]) s t ∧ t.adcs[core18 n].conv = [⟨e, false, false, some (s.sampleNow (core18 n)), 0⟩] ∧
        t.adcs[core18 n].fbPtr = (e + 1) % (s.get (ADC_GROUP_NENT n) + 1)) ∧
    (late → s.adcs[core18 n].conv = [] → direct → Completes (.adcWatchdog n) s fun t =>
      Sets (falls ++ [(ADC_STATUS_BUSY n, 0)]) s t ∧ t.adcs[core18 n].fbPtr = e) ∧
    (¬late → exec (.adcWatchdog n) s = .next s)

/-- R237 to R240: CAL runs on the converter itself, or by live substitution of a free spare where the core is in use, or is refused; the
factors are written only if all fit; a live calibration hands the core back; CAL_ALL runs in phases 0x1 and 0x2 alone. -/
def Obligations.ConverterCalibration : Prop :=
  ∀ s : State,
  (∀ n : Fin 18, s.takes (.cal n) →
    let refused := Completes (.cal n) s (Sets [(ADC_STATUS_CAL_STATE n, 3), (ADC_INT_CAL_REFUSED, 1)] s)
    let direct := Completes (.cal n) s fun t =>
      Sets [(ADC_STATUS_CAL_STATE n, 1), (ADC_STATUS_BUSY n, 0)] s t ∧ t.adcs[n].calLive = false ∧ t.gx = s.gx
    (s.get (ADC_STATUS_CAL_STATE n) = 1 → Completes (.cal n) s (Sets [] s)) ∧
    (s.get (ADC_STATUS_CAL_STATE n) ≠ 1 →
      (n.val < 16 → s.adcInUse n = false → direct) ∧
      (n.val < 16 → s.adcInUse n = true → s.takeGx = none → refused) ∧
      (∀ i, n.val < 16 → s.adcInUse n = true → s.takeGx = some i → Completes (.cal n) s fun t =>
        Sets [(ADC_STATUS_CAL_STATE n, 1)] s t ∧ t.gx[i] = .cal n.val ∧ t.adcs[n].calLive = true ∧ t.adcs[n].taking = some i.val) ∧
      ∀ i : Fin 2, n.val = 16 + i.val → (s.gxFree i = true → direct) ∧ (s.gxFree i = false → refused))) ∧
  (∀ n : Fin 16,
    (s.adcs[core18 n].taking = none → exec (.calTakeover n) s = .next s) ∧
    ∀ i : Fin 2, s.adcs[core18 n].taking = some i.val →
     (s.adcs[core18 n].calLive = false → s.gx[i] ≠ .free ∨ s.get (ADC_STATUS_CAL_STATE (16 + i.val)) = 1 → exec (.calTakeover n) s = .next s) ∧
     (s.adcs[core18 n].calLive = true ∨ s.gx[i] = .free ∧ s.get (ADC_STATUS_CAL_STATE (16 + i.val)) ≠ 1 → Completes (.calTakeover n) s fun t =>
      t.get (ADC_STATUS_CARRIER n) = i.val + 1 ∧ t.get (ADC_STATUS_SERVES (16 + i.val)) = n.val ∧ t.adcs[core18 n].taking = none ∧
      (s.adcs[core18 n].calLive = false → t.gx[i] = .map n.val))) ∧
  (∀ (n : Fin 18) (f : CalFactors),
    let runs := s.get (ADC_STATUS_CAL_STATE n) = 1 ∧ s.adcs[n].calEnded = false ∧ s.adcs[n].taking = none
    let ph := s.calTarget n
    (¬runs → exec (.calComplete n f) s = .next s) ∧
    (runs → Completes (.calComplete n f) s fun t =>
      (factorsOk f = true → t.getI (ADC_CAL_OG_OFS ph) = f.ofs ∧ t.getI (ADC_CAL_OG_GAIN ph) = f.gain ∧
        ∀ j : Fin 8, t.getI (if j.val % 2 = 0 then ADC_CAL_LIN_LIN_LO ph (j.val / 2) else ADC_CAL_LIN_LIN_HI ph (j.val / 2)) = f.lin[j]) ∧
      (factorsOk f = false → ∀ g : Fld, 0x46000040 + 0x100 * ph.val ≤ g.addr → g.addr < 0x46000054 + 0x100 * ph.val → g.hi < 64 →
        t.get g = s.get g) ∧
      (s.adcs[n].calLive = true → t.get (ADC_STATUS_CAL_STATE n) = 1 ∧ t.adcs[n].calEnded = true) ∧
      (s.adcs[n].calLive = false → t.get (ADC_STATUS_CAL_STATE n) = (if factorsOk f then 2 else 5) ∧ t.get ADC_INT_CAL_DONE = 1))) ∧
  (∀ n : Fin 16,
    let x := s.adcs[core18 n]
    (x.calLive = false ∨ x.calEnded = false → exec (.calReturn n) s = .next s) ∧
    (x.calLive = true → x.calEnded = true → Completes (.calReturn n) s fun t =>
      t.get (ADC_STATUS_CAL_STATE n) = (if x.calFail then 5 else 2) ∧ t.get ADC_INT_CAL_DONE = 1 ∧
      t.adcs[core18 n].calLive = false ∧ t.get (ADC_STATUS_CARRIER n) = (if x.retire then s.get (ADC_STATUS_CARRIER n) else x.home % 4))) ∧
  (s.takes .calAll →
    (s.phase = 1 ∨ s.phase = 2 → Completes .calAll s fun t =>
      ∀ n : Fin 18, t.get (ADC_STATUS_CAL_STATE n) = 1 ∧ t.adcs[n].calLive = false) ∧
    (s.phase ≠ 1 → s.phase ≠ 2 → Completes .calAll s (Sets [(ADC_INT_CAL_REFUSED, 1)] s)))

/-! ### Grid synchronisation and ride-through -/

/-- R100, R102, R106, R107, R108: the fifteen slots a GSU publishes, its angle slot, and the events of its lock, of a wrong sequence and
of a missing neutral. -/
def Obligations.GridSynchronisation : Prop :=
  ∀ (s : State) (i : Fin 4),
  let g := s.gsus[i]
  (g.due = false → exec (.gsuPublish i) s = .next s) ∧
  (g.due = true → Completes (.gsuPublish i) s fun t =>
    let base := s.get (GSU_OUTSLOT_BASE i)
    (∀ j, j < 15 → Puts 0 (base + j) (if j = 12 then s.gsuStatus i else gsuOut g j) s t) ∧
    (∀ k, (∀ j, j < 15 → k ≠ (base + j) % 4096) → t.slot k = s.slot k) ∧ t.gsus[i].due = false ∧ SetsPut 0 base 15 [] s t) ∧
  (s.fired = true ∧ s.up .wheel = true ∧ s.get (GSU_CFG_EN i) = 1 ∧ s.get (GSU_CFG_ANG_EN i) = 1 → Completes (.gsuAnglePublish i) s fun t =>
    Puts 0 (s.get (GSU_OUTSLOT_ANGSLOT i)) (turnQ31 (turnAdd g.acc (turnUnits g.w (1000 * s.get (GSU_LEAD_LEAD i))))) s t ∧
    (∀ k, k ≠ s.get (GSU_OUTSLOT_ANGSLOT i) → t.slot k = s.slot k) ∧ SetsPut 0 (s.get (GSU_OUTSLOT_ANGSLOT i)) 1 [] s t) ∧
  (¬(s.fired = true ∧ s.up .wheel = true ∧ s.get (GSU_CFG_EN i) = 1 ∧ s.get (GSU_CFG_ANG_EN i) = 1) →
    exec (.gsuAnglePublish i) s = .next s) ∧
  (g.errOk = true → s.get (GSU_STATUS_COAST i) = 0 → Completes (.gsuLock i) s (Sets [(GSU_STATUS_LOCKED i, 1)] s)) ∧
  (g.errOk = false ∨ s.get (GSU_STATUS_COAST i) = 1 → exec (.gsuLock i) s = .next s) ∧
  (s.get (GSU_STATUS_WRONG_SEQ i) = 0 →
    (flt (gsuOut g 2) (gsuOut g 3) = true → fge (gsuOut g 3) 1 2 = true → Completes (.wrongSeq i) s
      (Sets [(GSU_STATUS_WRONG_SEQ i, 1), (GSU_STATUS_WRONG_SEQ_EV i, 1)] s)) ∧
    (flt (gsuOut g 2) (gsuOut g 3) = false ∨ fge (gsuOut g 3) 1 2 = false → exec (.wrongSeq i) s = .next s)) ∧
  (s.get (GSU_STATUS_WRONG_SEQ i) = 1 →
    (flt (gsuOut g 3) (gsuOut g 2) = true → Completes (.wrongSeq i) s (Sets [(GSU_STATUS_WRONG_SEQ i, 0)] s)) ∧
    (flt (gsuOut g 3) (gsuOut g 2) = false → exec (.wrongSeq i) s = .next s)) ∧
  (s.get (GSU_STATUS_MISS_N i) = 0 → (s.missN i = true → Completes (.missN i) s
      (Sets [(GSU_STATUS_MISS_N i, 1), (GSU_STATUS_MISS_N_EV i, 1)] s)) ∧ (s.missN i = false → exec (.missN i) s = .next s)) ∧
  (s.get (GSU_STATUS_MISS_N i) = 1 → (s.missN i = false → Completes (.missN i) s (Sets [(GSU_STATUS_MISS_N i, 0)] s)) ∧
    (s.missN i = true → exec (.missN i) s = .next s))

/-- R111, R113, R114, R116 to R119: a tick of the sequencer, a curve that changes band or reaches its time limit, and CLEAR_TRIP. -/
def Obligations.RideThrough : Prop :=
  ∀ s : State,
  let on := s.fired = true ∧ s.up .wheel = true ∧ s.get RTS_CFG_EN = 1
  let base := s.get RTS_SLOTS_BASE
  let r := s.rtsRegion.1
  let stops := s.ceasing r = true ∨ r = 4
  (¬on → exec .rtsTick s = .next s) ∧
  (on → Completes .rtsTick s fun t =>
    (∀ c : Fin 4, t.rts.curves[c].band = s.rts.curves[c].band ∧ t.rts.curves[c].running = s.rts.curves[c].running ∧
      t.rts.curves[c].entry = hist 16 (s.rtsBand c false) s.rts.curves[c].entry ∧
      t.rts.curves[c].exit = hist 16 (s.rtsBand c true) s.rts.curves[c].exit ∧
      t.rts.curves[c].excTicks = if s.rts.curves[c].running then s.rts.curves[c].excTicks + 1 else 0) ∧
    t.get RTS_STATE_REGION = r ∧ t.get RTS_STATE_CURVE = s.rtsRegion.2 ∧
    t.get RTS_STATE_EXC = bitOf (four.any fun c => s.rts.curves[c].running) ∧
    (stops → t.rts.recovery = 0 ∧ Puts 1 (base + 1) 0 s t ∧ Puts 1 (base + 2) 0 s t ∧ Puts 1 (base + 3) 0 s t) ∧
    (¬stops → t.rts.recovery = s.rtsRamp.rts.recovery ∧ Puts 1 (base + 1) s.rtsSupport.1 s t ∧
      Puts 1 (base + 2) s.rtsSupport.2.1 s t ∧ Puts 1 (base + 3) s.rtsRamp.rtsSupport.2.2 s t) ∧
    Puts 1 (base + 4) t.rts.recovery s t ∧
    ∀ k, (∀ j, j < 5 → k ≠ (base + j) % 4096) → t.slot k = s.slot k) ∧
  (∀ c : Fin 4,
    (¬on ∨ s.rtsMove c = s.rts.curves[c].band → exec (.rtsBandChange c) s = .next s) ∧
    (on → s.rtsMove c ≠ s.rts.curves[c].band → Completes (.rtsBandChange c) s fun t =>
      t.rts.curves[c].band = s.rtsMove c ∧ t.rts.curves[c].running = decide (s.rtsMove c ≠ 0) ∧
      t.get RTS_STATE_REGION = (s.rtsTake c (s.rtsMove c)).rtsRegion.1)) ∧
  (∀ c : Fin 4,
    let x := s.rts.curves[c]
    let limit := s.get (RTS_PT_TIME_TIME c (x.band - 1))
    let ends := x.running = true ∧ x.band ≠ 0 ∧ x.tripped = false ∧ limit ≠ 0x3FFFFF ∧ 20 * limit ≤ x.excTicks
    (¬on ∨ ¬ends → exec (.rtsTimeLimit c) s = .next s) ∧
    (on → ends → (∀ d : Fin 4, s.get (RTS_PT_TIME_REGION d (s.rts.curves[d].band - 1)) ≤ 4) → Completes (.rtsTimeLimit c) s fun t =>
      t.rts.curves[c].tripped = true ∧ t.get RTS_STATE_REGION = 4 ∧ t.get RTS_STATE_TRIP_LATCH = 1 ∧ t.rts.recovery = 0 ∧
      (s.get RTS_STATE_REGION ≠ 4 → s.up .mod = true → Stops .rideThrough s t))) ∧
  (s.takes .clearTrip →
    ((∀ c : Fin 4, s.rtsBand c false = 0) → Completes .clearTrip s fun t =>
      Sets [(RTS_STATE_TRIP_LATCH, 0)] s t ∧ t.rts.curves = Vector.replicate 4 {}) ∧
    ((∃ c : Fin 4, s.rtsBand c false ≠ 0) → Completes .clearTrip s fun t =>
      Sets [(RTS_REFUSED_COUNT, s.counted RTS_REFUSED_COUNT)] s t ∧ t.rts = s.rts))
/-! ### Islanding and mode transfer -/

/-- R127 to R136, R132: the passive and active methods, the tones, the impedance estimate and the notch retune that follows it. -/
def Obligations.IslandingDetection : Prop :=
  ∀ s : State,
  let on := s.islOn = true
  let base := s.get ISL_OUTSLOT_BASE
  let put := fun (j : Nat) (v : Word) (t : State) => Puts 2 (base + j) v s t
  let sets := fun (l : List (Fld × Nat)) (t : State) => SetsPut 2 base 13 l s t
  let free := on ∧ s.get ISL_CFG_ACT_EN = 1 ∧ s.actSusp = false
  (∀ m : Fin 4,
    let a := s.get (ISL_PASS_ACTION m)
    let fires := on ∧ s.passAbove m = true ∧ (a = 1 ∨ a = 2)
    (¬fires → exec (.islPassiveFire m) s = .next s) ∧
    (fires → a = 1 ∨ s.get RTS_STATE_EXC = 1 → Completes (.islPassiveFire m) s fun t => Sets [(ISL_STATUS_ALERT, 1)] s t ∧ t.isl.alert = true) ∧
    (fires → a = 2 → s.get RTS_STATE_EXC = 0 → s.get ISL_MODE_DET = 0 → Completes (.islPassiveFire m) s fun t =>
      Sets [(ISL_STATUS_DETECTED, 1), (ISL_MODE_DET, 1), (ISL_MODE_DET_SRC, m.val + 1)] s t ∧ t.isl.acts = true) ∧
    (fires → a = 2 → s.get RTS_STATE_EXC = 0 → s.get ISL_MODE_DET = 1 → Completes (.islPassiveFire m) s
      (Sets [(ISL_STATUS_DETECTED, 1)] s))) ∧
  (¬free ∨ s.isl.pulse.isSome = true → exec .islPulseStart s = .next s) ∧
  (free → s.isl.pulse = none → Completes .islPulseStart s fun t =>
    let at_ := s.ptpNanos - (s.ptpNanos + s.pulsePeriod - 1000000 * s.get ISL_ACT_OFFSET) % s.pulsePeriod
    let pos := at_ / s.pulsePeriod % 2 == 0
    let amp := if s.isl.alert then max s.isl.amp (min (2 * s.get ISL_ACT2_PERT_IQ) (s.get ISL_ACT2_PERT_MAX)) else s.isl.amp
    t.isl.pulse = some ⟨pos, amp, s.gsuSlot s.islGsu 0, s.gsuSlot s.islGsu 2⟩ ∧ t.isl.amp = amp ∧ t.isl.spoilt = true ∧
    put 1 (fratio (if pos then (amp : Int) else -(amp : Int)) 1000) t ∧ sets [] t) ∧
  (s.isl.pulse = none → exec .islPulseEnd s = .next s) ∧
  (∀ p, s.isl.pulse = some p →
    (s.actSusp = true → Completes .islPulseEnd s fun t => t.isl.pulse = none ∧ t.isl.count = s.isl.count ∧ put 1 0 t ∧ sets [] t) ∧
    (s.actSusp = false → s.pulseSig p = none → Completes .islPulseEnd s fun t =>
      t.isl.pulse = none ∧ t.isl.count = 0 ∧ t.isl.amp = s.get ISL_ACT2_PERT_IQ ∧ put 1 0 t ∧ sets [] t) ∧
    (∀ g, s.actSusp = false → s.pulseSig p = some g → Completes .islPulseEnd s fun t =>
      let n := if s.isl.count ≠ 0 ∧ s.isl.sig = g then s.isl.count + 1 else 1
      t.isl.pulse = none ∧ t.isl.count = n ∧ t.isl.sig = g ∧ t.isl.amp = min (2 * p.amp) (s.get ISL_ACT2_PERT_MAX) ∧
      put 1 0 t ∧ t.get ISL_STATUS_RESPONSE = 1 ∧
      (s.get ISL_ACT_CONFIRM ≤ n → t.get ISL_STATUS_DETECTED = 1 ∧ t.get ISL_MODE_DET = 1 ∧
        (s.get ISL_MODE_DET = 0 → t.get ISL_MODE_DET_SRC = 5 ∧ t.isl.acts = true)) ∧
      (n < s.get ISL_ACT_CONFIRM → sets [(ISL_STATUS_RESPONSE, 1)] t))) ∧
  (¬on → exec .islTonePublish s = .next s) ∧
  (let injects := s.estInjects = true ∧ s.get SIT_STATUS_BLOCK_STOP = 0 ∧ ∃ k, k < 4 ∧ s.get (ISL_TONE_AMP k) ≠ 0
   let tone := fun (n : Nat) => s.tones.foldl (fun a k => (fadd a (fmul (s.toneAmp k)
     (turnCosSin ((s.toneTurn k + s.tonePhase k + (3 - n) * 2 ^ 64 / 3) % 2 ^ 64)).1).1).1) 0
   (on → injects → Completes .islTonePublish s fun t => sets [] t ∧ ∀ n, n < 3 → put (2 + n) (tone n) t) ∧
   (on → ¬injects → Completes .islTonePublish s fun t => sets [] t ∧ ∀ n, n < 3 → put (2 + n) 0 t)) ∧
  (¬on → exec .islAnglePublish s = .next s) ∧
  (on → Completes .islAnglePublish s fun t => sets [] t ∧
    put 5 (turnQ31 (turnAdd s.thetaOut (turnUnits s.isl.w (1000 * s.get ISL_LEAD_LEAD)))) t ∧
    ∀ k, k ≠ (base + 5) % 4096 → t.slot k = s.slot k) ∧
  (∀ j : Nat,
    let idle := ¬on ∨ s.get ISL_CFG_EST_EN = 0 ∨ s.estMine (j * s.estTw) = false ∨ s.tones = [] ∨ s.isl.spoilt = true ∨ s.actSusp = true ∨
      s.estPulse (j * s.estTw) = true
    let zs := s.tones.map fun k => s.toneZ k (s.toneMeas k)
    let lg := fmean (zs.map (·.1))
    let rg := fmean (zs.map (·.2))
    let half := ∀ k ∈ s.tones, flt (fmag (s.toneMeas k).ir (s.toneMeas k).ii) (fmul 0x3F000000 (s.toneAmp k)).1 = false
    let near := ∀ z ∈ zs, flt (fmul (fratio (s.get ISL_EST_SPREAD : Nat) 100) lg).1 (fabs (fsub z.1 lg).1) = false
    let finite := ∀ z ∈ zs, F32.of z.1 ≠ .nan ∧ F32.of z.2 ≠ .nan
    let valid := half ∧ near ∧ finite ∧ flt 0 lg = true
    (idle → Completes (.islEstWindowEnd j) s fun t => Sets [] s t ∧ t.isl.est = s.isl.est ∧ t.isl.spoilt = s.isl.pulse.isSome ∧
      t.isl.corrN = 0) ∧
    (¬idle → ¬valid → Completes (.islEstWindowEnd j) s fun t => sets [(ISL_STATUS_EST_INVALID, 1)] t ∧ t.isl.est = s.isl.est ∧
      t.isl.corrN = 0) ∧
    (¬idle → valid → Completes (.islEstWindowEnd j) s fun t =>
      let fres := s.estRes (fmul (fofInt (s.get ISL_EST_NSCALE) 0) lg).1
      sets [] t ∧ t.isl.est = (lg, rg, fres) ∧ t.isl.lgs = hist 5 lg s.isl.lgs ∧ put 9 lg t ∧ put 10 rg t ∧ put 11 fres t)) ∧
  (∀ r, s.isl.retune = some r →
    let words := fun (t : State) => ∀ w ∈ s.notchWheels, ∀ i, i < 5 →
      t.bankGet w (1 - s.activeBank w) (s.get ISL_NOTCH_ADDR + i) = r.words.getD i 0
    (r.stage = 1 → s.notchFree = true → Completes .islNotchWrite s fun t =>
      Sets [(ISL_MODE_RETUNE_BUSY, 1)] s t ∧ words t ∧ t.isl.retune = some { r with stage := 2 }) ∧
    (r.stage ≠ 1 ∨ s.notchFree = false → exec .islNotchWrite s = .next s) ∧
    (r.stage = 3 → Completes .islNotchMirror s fun t =>
      Sets [(ISL_NOTCH_HZ_HZ, r.hz.toNat), (ISL_STATUS_RETUNED, 1), (ISL_MODE_RETUNE_BUSY, 0)] s t ∧ words t ∧ t.isl.retune = none) ∧
    (r.stage ≠ 3 → exec .islNotchMirror s = .next s)) ∧
  (s.isl.retune = none → exec .islNotchWrite s = .next s ∧ exec .islNotchMirror s = .next s) ∧
  (s.isl.deferCnt = none → exec .islDeferExpiry s = .next s) ∧
  ∀ n, s.isl.deferCnt = some n →
    (¬on ∨ n < s.get ISL_XFER_DEFER_MAX → exec .islDeferExpiry s = .next s) ∧
    (on → s.get ISL_XFER_DEFER_MAX ≤ n → Completes .islDeferExpiry s fun t => t.isl.deferCnt = none ∧
      (s.get ISL_CFG_ACTION = 1 → s.up .mod = true → Stops .islanding s t) ∧
      (s.get ISL_CFG_ACTION = 2 → s.get ISL_CTRL_AUTO = 1 → s.islMode = 0 → s.presetsWait = false → t.isl.cmd = some true) ∧
      (s.get ISL_CFG_ACTION = 0 → Sets [] s t))

/-- R125, R126, R131, R137 to R143: the commands of ISL.CTRL, the decision of a mode transfer, resynchronisation, and what a tick
publishes. -/
def Obligations.ModeTransfer : Prop :=
  ∀ s : State,
  let m := s.islMode
  let put := fun (j : Nat) (v : Word) (t : State) => Puts 2 (s.get ISL_OUTSLOT_BASE + j) v s t
  let same := fun (t : State) => Sets [] s t ∧ t.isl = s.isl
  let waits := s.fired = true ∧ s.presetsWait = true
  let free := s.fired = true ∧ s.presetsWait = false
  let zero := fun (t : State) => t.isl = { s.isl with ofsAng := 0, ofsMag := 0 }
  (∀ c : Instr, (c = .toGfm ∨ c = .toGfl ∨ c = .resync) → s.takes c →
    (s.fired = false → Completes c s same) ∧
    (waits → Completes c s fun t =>
      Sets [(ISL_STATUS_CMD_REFUSED, 1), (ISL_REFUSED_COUNT, s.counted ISL_REFUSED_COUNT)] s t ∧ t.isl = s.isl)) ∧
  (s.takes .toGfm → free →
    (m = 0 → Completes .toGfm s fun t => Sets [] s t ∧ t.isl = { s.isl with cmd := some true }) ∧
    (m = 3 → Completes .toGfm s fun t => Sets [(ISL_MODE_STATE, 2), (ISL_MODE_SYNC_OK, 0)] s t ∧ zero t) ∧
    (m = 1 ∨ m = 2 → Completes .toGfm s same)) ∧
  (s.takes .toGfl → free →
    (m = 0 → Completes .toGfl s same) ∧ (m ≠ 0 → Completes .toGfl s fun t => Sets [] s t ∧ t.isl = { s.isl with cmd := some false })) ∧
  (s.takes .resync → free →
    (m = 1 ∨ m = 2 → Completes .resync s fun t => Sets [(ISL_MODE_STATE, 3)] s t ∧ zero t) ∧ (m = 0 ∨ m = 3 → Completes .resync s same)) ∧
  (∀ l3 : Bool, let c : Instr := if l3 then .presetL3 else .presetL2
    let new := (List.range 16).filter fun e =>
      s.get (ISL_PRE_EN e) != 0 && s.get (ISL_PRE_LIST e) == (if l3 then 3 else 2) && !s.isl.armed.contains e
    s.takes c → Completes c s fun t => Sets [] s t ∧ t.isl = { s.isl with armed := s.isl.armed ++ new }) ∧
  (s.takes .clearDet →
    (s.detectAbove = true → Completes .clearDet s fun t => Sets [(ISL_REFUSED_COUNT, s.counted ISL_REFUSED_COUNT)] s t ∧ t.isl = s.isl) ∧
    (s.detectAbove = false → Completes .clearDet s fun t => Sets [(ISL_MODE_DET, 0), (ISL_MODE_DET_SRC, 0)] s t ∧
      t.sit.plantIsl = false ∧ t.isl = { s.isl with acts := false, deferCnt := none })) ∧
  (s.isl.cmd = none → exec .islTransferDecide s = .next s) ∧
  (∀ gfm, s.isl.cmd = some gfm →
    let dAng := if gfm then angDiff (s.gsuAngle s.islGsu) s.isl.acc else angDiff s.thetaOut (s.gsuAngle s.islGsu)
    let v := s.gsuSlot s.islGsu 2
    let dMag := if gfm then (fsub v s.isl.vf).1 else (fsub (fadd s.isl.vf s.isl.ofsMag).1 v).1
    let beyondBounds := s.get ISL_XFER_ANG_BOUND * 2 ^ 64 < dAng.natAbs * 360 ∨ flt (fratio (s.get ISL_XFER_MAG_BOUND : Nat) 100) (fabs dMag) = true
    (s.islOn = false → Completes .islTransferDecide s fun t => Sets [] s t ∧ t.isl = { s.isl with cmd := none }) ∧
    (s.islOn = true → beyondBounds → Completes .islTransferDecide s fun t => t.isl = { s.isl with cmd := none } ∧
      t.get ISL_STATUS_XFER_REFUSED = 1 ∧ t.get ISL_REFUSED_COUNT = s.counted ISL_REFUSED_COUNT ∧ t.get ISL_MODE_STATE = m ∧
      (s.up .mod = true → Stops .modeTransfer s t)) ∧
    (s.islOn = true → ¬beyondBounds → Completes .islTransferDecide s fun t => t.isl.cmd = none ∧
      t.get ISL_MODE_STATE = gfm.toNat ∧ t.get ISL_MODE_XFERS = (s.get ISL_MODE_XFERS + 1) % 2 ^ 16 ∧ t.get ISL_STATUS_XFER_DONE = 1 ∧
      t.get ISL_MODE_SYNC_OK = 0 ∧ t.isl.ofsAng = (if gfm then angDeg dAng else 0) ∧ t.isl.ofsMag = (if gfm then dMag else 0) ∧
      put 8 t.isl.ofsAng t)) ∧
  (s.islOn = true → s.syncConds = true → Completes .islSyncOk s (Sets [(ISL_MODE_SYNC_OK, 1)] s)) ∧
  (s.islOn = false ∨ s.syncConds = false → exec .islSyncOk s = .next s) ∧
  (s.islOn = false ∨ s.isl.due = false → exec .islTickPublish s = .next s) ∧
  (s.islOn = true → s.isl.due = true → Completes .islTickPublish s fun t =>
    t.isl.due = false ∧ t.isl.acts = false ∧ t.get ISL_MODE_ACT_SUSP = s.actSuspPtp.toNat ∧
    t.isl.w = s.gfoStep.isl.w ∧ t.isl.vf = s.gfoStep.isl.vf ∧ t.isl.acc = s.gfoStep.isl.acc ∧
    put 6 (fadd t.isl.vf t.isl.ofsMag).1 t ∧ put 7 (fdiv t.isl.w fTwoPi).1 t ∧ put 8 t.isl.ofsAng t ∧ t.isl.jumped = false ∧
    (s.isl.acts = false → s.actSusp = true → t.isl.pulse = none ∧ put 1 0 t) ∧
    (s.isl.acts = false → t.isl.ofsAng = s.islRamp.isl.ofsAng ∧ t.isl.ofsMag = s.islRamp.isl.ofsMag ∧
      t.get ISL_MODE_STATE = s.islRamp.get ISL_MODE_STATE))
/-! ### The DC inputs -/

/-- R158 to R168: requests, the sweep engine from its window to its end or its abort, what an update publishes, and the battery
window. -/
def Obligations.DcInputSweeps : Prop :=
  ∀ s : State,
  let put := fun (j : Nat) (v : Word) (t : State) => Puts 3 (s.get DCI_OUTSLOT_BASE + j) v s t
  let on := s.dciOn = true
  let aborted := fun (w : Sweep) => [(DCI_LEG_RESULT_ABORTED w.leg, 1), (DCI_LEG_RESULT_VALID w.leg, w.done % 512),
    (DCI_SWP_STATUS_ABORTS, s.counted DCI_SWP_STATUS_ABORTS), (DCI_INT_ABORTED, 1), (DCI_LEG_STATUS_PENDING w.leg, 0)]
  let turns := fun (w : Sweep) (t : State) => t.dci.sweep = some { w with ph := .back, meas := [] }
  let asks := fun (l : Fin 6) (c : Instr) =>
    (s.get (DCI_LEG_CFG_MODE l) ≠ 1 → Completes c s fun t => Sets [(DCI_REFUSED_COUNT, s.counted DCI_REFUSED_COUNT)] s t ∧ t.dci = s.dci) ∧
    (s.get (DCI_LEG_CFG_MODE l) = 1 → (∃ w, s.dci.sweep = some w ∧ w.leg = l) → Completes c s fun t => Sets [] s t ∧ t.dci = s.dci) ∧
    (s.get (DCI_LEG_CFG_MODE l) = 1 → (∀ w, s.dci.sweep = some w → w.leg ≠ l) → Completes c s fun t =>
      Sets [(DCI_LEG_STATUS_PENDING l, 1)] s t ∧ t.dci = s.dci)
  (∀ l : Fin 6, s.takes (.dciSweepRequest l) → asks l (.dciSweepRequest l)) ∧
  (∀ l : Fin 6,
    let timed := on ∧ s.get (DCI_LEG_CFG_MODE l) = 1 ∧ flt 0 (s.word (DCI_SWP_PAR_VALUE 4)) = true
    (timed → asks l (.dciSweepTimer l)) ∧ (¬timed → exec (.dciSweepTimer l) s = .next s)) ∧
  (let wanted := fun (l : Fin 6) => s.get (DCI_LEG_STATUS_PENDING l) = 1 ∧ s.sweepAllowed l = true
   (¬on ∨ s.dci.sweep.isSome = true ∨ s.sweepMine = false ∨ (∀ l, ¬wanted l) → exec .dciSweepWindowStart s = .next s) ∧
   ∀ l : Fin 6, on → s.dci.sweep = none → s.sweepMine = true → wanted l → (∀ j, j < l → ¬wanted j) →
    Completes .dciSweepWindowStart s fun t =>
      let x := s.dci.legs[l]
      let down := !flt (fabs (fsub x.vk (s.legPar l 0)).1) (fabs (fsub (s.legPar l 1) x.vk).1)
      Sets [(DCI_LEG_STATUS_PENDING l, 0), (DCI_LEG_STATUS_SWEEP l, 1), (DCI_SWP_STATUS_BUSY, 1), (DCI_SWP_STATUS_LEG, l.val),
        (DCI_SWP_STATUS_POINT, if down then 255 else 0)] s t ∧
      t.dci.sweep = some { leg := l, win := s.sweepWin, vs := x.vk, phold := x.pk, link := s.slot (s.get DCI_CFG_LINK_SLOT), down := down, ref := x.vk }) ∧
  (s.dci.sweep = none → exec .dciSweepPoint s = .next s ∧ exec .dciSweepDone s = .next s ∧ exec .dciSweepAbort s = .next s ∧
    exec .dciReturnDone s = .next s ∧ (s.takes .dciAbort → Completes .dciAbort s fun t => Sets [] s t ∧ t.dci = s.dci)) ∧
  (∀ w, s.dci.sweep = some w →
    let half := w.meas.take (s.get DCI_SWP_CFG_DWELL / 2)
    let curve := [(DCI_CURVE_V w.leg w.point, (fmean (half.map (·.1))).toNat), (DCI_CURVE_I w.leg w.point, (fmean (half.map (·.2))).toNat)]
    let dwelt := w.ph = .dwell ∧ s.get DCI_SWP_CFG_DWELL ≤ w.meas.length
    let next : Sweep := { w with done := w.done + 1, ph := .ramp, meas := [] }
    let cut := s.get SIT_STATUS_BLOCK_STOP = 1 ∨ s.legArmed w.leg = false
    (¬dwelt → exec .dciSweepPoint s = .next s) ∧
    (dwelt → w.done < 255 → Completes .dciSweepPoint s fun t =>
      Sets (curve ++ [(DCI_SWP_STATUS_POINT, next.point)]) s t ∧ t.dci.sweep = some next) ∧
    (dwelt → 255 ≤ w.done → Completes .dciSweepPoint s fun t => Sets curve s t ∧
      t.dci.sweep = some { next with ph := .home, kmax := t.sweepKmax w.leg, npeaks := t.sweepPeaks w.leg }) ∧
    (w.ph = .home → w.ref = s.sweepTarget w → Completes .dciSweepDone s fun t => t.dci.sweep = none ∧
      t.dci.legs[w.leg].vref = some w.ref ∧
      Sets [(DCI_LEG_STATUS_SWEEP w.leg, 0), (DCI_SWP_STATUS_BUSY, 0), (DCI_LEG_STATUS_SEQ w.leg, (s.get (DCI_LEG_STATUS_SEQ w.leg) + 1) % 16),
        (DCI_INT_SWEEP_DONE, 1), (DCI_LEG_RESULT_ABORTED w.leg, 0), (DCI_LEG_RESULT_VALID w.leg, 256),
        (DCI_LEG_RESULT_NPEAKS w.leg, w.npeaks % 256), (DCI_LEG_RESULT_KMAX w.leg, w.kmax % 256)] s t) ∧
    (w.ph ≠ .home ∨ w.ref ≠ s.sweepTarget w → exec .dciSweepDone s = .next s) ∧
    (w.ph = .back ∨ cut → exec .dciSweepAbort s = .next s) ∧
    (w.ph ≠ .back → ¬cut → s.linkDev w = true → Completes .dciSweepAbort s fun t =>
      Sets (aborted w ++ [(DCI_INT_LINK_DEV, 1)]) s t ∧ turns w t) ∧
    (w.ph ≠ .back → ¬cut → s.linkDev w = false → s.sweepAllowed w.leg = false ∨ s.sweepWin ≠ w.win →
      Completes .dciSweepAbort s fun t => Sets (aborted w) s t ∧ turns w t) ∧
    (w.ph ≠ .back → s.linkDev w = false → s.sweepAllowed w.leg = true → s.sweepWin = w.win → exec .dciSweepAbort s = .next s) ∧
    (s.takes .dciAbort → (w.ph = .back → Completes .dciAbort s fun t => Sets [] s t ∧ t.dci = s.dci) ∧
      (w.ph ≠ .back → Completes .dciAbort s fun t => Sets (aborted w) s t ∧ turns w t)) ∧
    (w.ph = .back → w.ref = w.vs → Completes .dciReturnDone s fun t => t.dci.sweep = none ∧
      Sets [(DCI_LEG_STATUS_SWEEP w.leg, 0), (DCI_SWP_STATUS_BUSY, 0)] s t) ∧
    (w.ph ≠ .back ∨ w.ref ≠ w.vs → exec .dciReturnDone s = .next s)) ∧
  (∀ l : Fin 6,
    let out := s.get (DCI_LEG_STATUS_OUT_WIN l)
    let ten := on ∧ s.get (DCI_LEG_CFG_MODE l) = 2 ∧ 10 ≤ s.dci.legs[l].outCnt
    (¬ten → exec (.dciOutWin l) s = .next s) ∧
    (ten → out = 1 ∨ s.get (DCI_LEG_CFG_WIN_STOP l) = 0 → Completes (.dciOutWin l) s fun t =>
      Sets [(DCI_LEG_STATUS_OUT_WIN l, 1 - out)] s t ∧ t.dci.legs[l].outCnt = 0) ∧
    (ten → out = 0 → s.get (DCI_LEG_CFG_WIN_STOP l) = 1 → s.up .mod = true → Completes (.dciOutWin l) s fun t =>
      t.get (DCI_LEG_STATUS_OUT_WIN l) = 1 ∧ t.dci.legs[l].outCnt = 0 ∧ Stops .dcLimit s t)) ∧
  (¬on ∨ s.dci.due = false → exec .dciPublish s = .next s) ∧
  (on → s.dci.due = true → Completes .dciPublish s fun t => t.dci.due = false ∧ put 48 t.pcomp t ∧
    ∀ l : Fin 6, s.get (DCI_LEG_CFG_MODE l) = 1 ∨ s.get (DCI_LEG_CFG_MODE l) = 2 →
      let x := s.dci.legs[l]
      let y := t.dci.legs[l]
      let b := x.block ++ [(x.v, x.i)]
      (b.length < s.get DCI_CFG_NAVG → y.vk = x.vk ∧ y.ik = x.ik ∧ y.pk = x.pk ∧ y.block = b) ∧
      (s.get DCI_CFG_NAVG ≤ b.length → y.vk = fmean (b.map (·.1)) ∧ y.ik = fmean (b.map (·.2)) ∧ y.pk = (fmul y.vk y.ik).1 ∧ y.block = [] ∧
        put (8 * l.val) y.vk t ∧ put (8 * l.val + 1) y.ik t ∧ put (8 * l.val + 2) y.pk t ∧
        put (8 * l.val + 3) (if s.get (DCI_LEG_CFG_MODE l) = 2 then 0 else y.dpdv) t) ∧
      (b.length < s.get DCI_CFG_NAVG → ∀ j, j < 4 →
        t.slot ((s.get DCI_OUTSLOT_BASE + 8 * l.val + j) % 4096) = s.slot ((s.get DCI_OUTSLOT_BASE + 8 * l.val + j) % 4096)) ∧
      (y.known = true → s.get (DCI_LEG_CFG_MODE l) = 2 → put (8 * l.val + 4) (t.battLimits l).1 t ∧ put (8 * l.val + 5) (t.battLimits l).2 t))
/-! ### The modulators -/

/-- R55, R172, R174 to R178, R182 to R184, R220, R222: the arrival of compares, load points, edges and period starts of a pair, and the
writes of PERIOD and OVR. A load point latches the publication that arrived in an earlier MOD cycle; skips end at the first period start
at which nothing holds the pair. -/
def Obligations.ModulatorPeriods : Prop :=
  ∀ (s : State) (p : Fin 9),
  let x := s.mod.pairs[p]
  let refused := [(MOD_REFUSED_COUNT p, s.counted (MOD_REFUSED_COUNT p)), (MOD_INT_REFUSED, 1)]
  (∀ a : ArrivalAt,
    (s.up .mod = false → exec (.compareArrival a) s = .next s) ∧
    (s.up .mod = true → Completes (.compareArrival a) s fun t =>
      let slot := s.get (MOD_LOADPT_CMP_SLOT p)
      let mine := match a.group with
        | some g => s.get (RGS_OWNER_KIND slot) = 1 ∧ s.get (RGS_OWNER_INDEX slot) = g.val
        | none => s.get (RGS_OWNER_KIND slot) ≠ 1
      Sets [] s t ∧ t.mod.cyc = s.mod.cyc + a.cycle ∧
      (mine → t.mod.pairs[p] = x.arrive (s.mod.cyc + a.cycle) (s.slot slot).toNat) ∧ (¬mine → t.mod.pairs[p] = x))) ∧
  (∀ d : Nat,
   let nlp := s.get (MOD_LOADPT_NLP p) + 1
   let pos := x.lp * x.len / nlp
   let seen := (x.settle (s.mod.cyc + d)).arrived
   (s.up .mod = false ∨ x.len = 0 ∨ nlp ≤ x.lp → exec (.loadPoint ⟨p, d⟩) s = .next s) ∧
   (∀ m v, x.incoming = some (m, v) → seen = if m < s.mod.cyc + d then v else x.arrived) ∧ (x.incoming = none → seen = x.arrived) ∧
   (s.up .mod = true → x.len ≠ 0 → x.lp < nlp → Completes (.loadPoint ⟨p, d⟩) s fun t =>
     t.get (MOD_CNT_CNT p) = pos % 2 ^ 32 ∧ t.mod.pairs[p].lp = x.lp + 1 ∧ t.mod.pairs[p].latched = seen ∧ t.mod.cyc = s.mod.cyc + d ∧
     OnlyRegs [ MOD_CNT_CNT p, MOD_CMP_NOW_CMP p] s t ∧
     (s.get (MOD_LOADPT_UPD p) = 0 ∨ s.midUpdate p pos seen = none →
       t.mod.pairs[p].plan = x.plan ∧ t.get (MOD_CMP_NOW_CMP p) = s.get (MOD_CMP_NOW_CMP p)) ∧
     ∀ pl, s.get (MOD_LOADPT_UPD p) = 1 → seen ≠ s.get (MOD_CMP_NOW_CMP p) → s.midUpdate p pos seen = some pl →
       t.mod.pairs[p].plan = pl ∧ t.get (MOD_CMP_NOW_CMP p) = seen % 2 ^ 32)) ∧
  (∀ (k : EdgeKind) (g : BitVec 2),
    (∀ pos, s.up .mod = true → s.edgeAt p k = some pos → pos < x.len → Completes (.edgeDue p ⟨k, g⟩) s fun t =>
      let y := t.mod.pairs[p]
      t.get (MOD_CNT_CNT p) = pos % 2 ^ 32 ∧ y.waveA = (takeEdge x k).waveA ∧ y.waveB = (takeEdge x k).waveB ∧
      y.plan = (takeEdge x k).plan ∧ (¬(x.outA = true ∧ x.outB = true) → ¬(y.outA = true ∧ y.outB = true))) ∧
    (s.up .mod = false ∨ (∀ pos, s.edgeAt p k = some pos → x.len ≤ pos) → exec (.edgeDue p ⟨k, g⟩) s = .next s)) ∧
  (∀ g : BitVec 2, (s.up .mod = false ∨ s.get (MOD_STATUS_RUN p) = 0 → exec (.periodStart ⟨p, g⟩) s = .next s) ∧
  (s.up .mod = true → s.get (MOD_STATUS_RUN p) = 1 → Completes (.periodStart ⟨p, g⟩) s fun t =>
    let y := t.mod.pairs[p]
    let period := x.periodNext.getD x.periodNow
    let begun := (((s.gatesTold p g).dropRequests p).closePeriod p).closeBoot p
    let tripped := begun.tripInput p = true ∧ s.phase ≠ 5
    let held := ((begun.tripTest p).holdTest p).pairGated p
    t.get (MOD_CNT_CNT p) = 0 ∧ t.get (MOD_CMP_NOW_CMP p) = x.latched % 2 ^ 32 ∧ y.len = s.nextLen p period x.slew x.adjust ∧
    y.lp = 0 ∧ y.periodNow = period ∧ y.periodNext = none ∧ y.slew = 0 ∧ y.ovrNow = s.get (MOD_OVR_FORCE p).whole ∧
    (tripped → y.cycleTrip = true ∧ t.get (SIT_SKIP_COUNT p) = s.counted (SIT_SKIP_COUNT p) ∧
      t.get (SIT_SKIP_CONSEC p) = s.counted (SIT_SKIP_CONSEC p) ∧ t.get SIT_INT_SKIP = 1) ∧
    (¬tripped → y.cycleTrip = false ∧ t.get (SIT_SKIP_COUNT p) = s.get (SIT_SKIP_COUNT p) ∧
      t.get (SIT_SKIP_CONSEC p) = if held then s.get (SIT_SKIP_CONSEC p) else 0))) ∧
  (∀ v : Word,
    (s.takes (.periodWrite p v) →
      let fine := s.get (MOD_STATUS_RUN p) = 1 ∧ s.get (MOD_FMAX_PMIN p) ≤ v.toNat ∧ v.toNat ≤ 256000000
      (¬fine → Completes (.periodWrite p v) s fun t => Sets refused s t ∧ t.mod = s.mod) ∧
      (fine → Completes (.periodWrite p v) s fun t => t.get (MOD_PERIOD_PERIOD p) = v.toNat ∧ t.mod.pairs[p].periodNext = some v.toNat ∧
        (s.bitAt MOD_HOP_CFG_HOP_PAIRS p = false → Sets [(MOD_PERIOD_PERIOD p, v.toNat)] s t))) ∧
    (s.takes (.ovrWrite p v) →
      (s.ovrAccepted p v.toNat = false → Completes (.ovrWrite p v) s fun t => Sets refused s t ∧ t.mod = s.mod) ∧
      (s.ovrAccepted p v.toNat = true → Completes (.ovrWrite p v) s fun t =>
        t.get (MOD_OVR_FORCE p) = v.toNat % 4 ∧ t.get (MOD_OVR_SWAP p) = v.toNat / 16 % 2 ∧ t.get (MOD_OVR_INV_A p) = v.toNat / 32 % 2 ∧
        t.get (MOD_OVR_INV_B p) = v.toNat / 64 % 2 ∧ t.mod.pairs[p].ovrNow = x.ovrNow ∧
        (v.toNat % 4 = 1 → t.mod.pairs[p].outA = false ∧ t.mod.pairs[p].outB = false))))

/-- R18, R173, R185 to R187, R313, R328: the hop controller's evaluation by MODE, and what an epoch does to aligned pairs, to a waiting step
and on a manager's chains: a step that has become ineligible is not taken, and SYNC with a TIME frame goes out on every lane that reaches
workers. -/
def Obligations.EpochAndCarrierHop : Prop :=
  ∀ s : State,
  let judged := fun (u t : State) =>
    t.get MOD_HOP_STATUS_NO_CLEAR = bitOf (u.hopChoice.2 != 0) ∧ (u.hopChoice.2 ≠ 0 → t.get MOD_INT_NO_CLEAR = 1) ∧
    (u.get MOD_HOP_CFG_MODE = 1 → u.hopChoice.1 ≠ u.hopStep → u.get MOD_EPOCH_EPOCH ≠ 0 →
      t.mod.hopDue = some u.hopChoice.1 ∧ t.get MOD_HOP_STATUS_PENDING = 1) ∧
    (u.get MOD_HOP_CFG_MODE = 0 → u.hopStep ≠ 0 → u.get MOD_EPOCH_EPOCH ≠ 0 →
      t.mod.hopDue = some 0 ∧ t.get MOD_HOP_STATUS_PENDING = 1) ∧
    ((u.get MOD_HOP_CFG_MODE = 1 ∧ u.hopChoice.1 = u.hopStep) ∨ (u.get MOD_HOP_CFG_MODE = 0 ∧ u.hopStep = 0) →
      t.mod = { u.mod with hopDue := none, hopWait := false } ∧
      t.get MOD_HOP_STATUS_PENDING = bitOf (u.mod.hopPlant.isSome || u.mod.hopFrame.isSome) ∧
      OnlyRegs [ MOD_HOP_STATUS_NO_CLEAR, MOD_INT_NO_CLEAR, MOD_HOP_STATUS_PENDING] u t) ∧
    (u.get MOD_HOP_CFG_MODE = 2 → u.isManager = true → u.hopChoice.1 ≠ u.hopAhead →
      t.mod.hopPlant = some u.hopChoice.1 ∧ t.get MOD_HOP_STATUS_PENDING = 1) ∧
    (u.get MOD_HOP_CFG_MODE = 2 → u.isManager = true → u.hopChoice.1 = u.hopAhead → t.mod.hopPlant = none ∧
      t.get MOD_HOP_STATUS_PENDING = bitOf (u.mod.hopFrame.isSome || u.mod.hopDue.isSome))
  (s.takes .hopEval → Completes .hopEval s (judged s)) ∧
  (∀ (k : Fin 8) (hi : Bool) (v : Word), s.takes (.quietBandWrite k hi v) →
    let f := if hi then MOD_QB_HI_HI k else MOD_QB_LO_LO k
    Completes (.quietBandWrite k hi v) s fun t => t.get f = v.toNat ∧ judged (s.put f v.toNat) t) ∧
  (s.up .mod = false ∨ s.get MOD_EPOCH_EPOCH = 0 → exec .epoch s = .next s) ∧
  (s.up .mod = true → s.get MOD_EPOCH_EPOCH ≠ 0 → Completes .epoch s fun t =>
    t.mod.epochCnt = 0 ∧
    (s.netRuns = true → t.get NET_EPOCH_TS_SEC = s.net.ptp.sec % 2 ^ 16 ∧ t.get NET_EPOCH_TS_NS = s.net.ptp.ns % 2 ^ 30 ∧
      t.get NET_EPOCH_TS_PS < 1000) ∧
    (∃ ofs, ofs < 2 ^ 24 ∧ t.outbox = if s.isManager then
       s.outbox ++ s.plantLanes.map (fun l => .unit .sync l ofs) ++ s.plantLanes.map fun l =>
         s.frameOf l { cls := 3, scope := 1 } 0 [s.net.ptp.sec, s.net.ptp.ns, s.net.ptp.frac, bitOf s.ptpValid]
       else s.outbox) ∧
    (∀ st, s.mod.hopDue = some st →
      let stands := s.hopEligible st = true
      (stands → s.get (CLK_PLL_STATUS_LOCK 2) = 1 → st ≠ s.hopStep → -8 ≤ st → st < 8 →
        t.getI MOD_HOP_STATUS_STEP = st ∧ t.mod.hopDue = none ∧ t.get MOD_INT_HOP_DONE = 1 ∧
        t.get MOD_HOP_STATUS_PENDING = bitOf (s.mod.hopPlant.isSome || s.mod.hopFrame.isSome)) ∧
      (¬stands → t.hopStep = s.hopStep ∧ t.mod.hopDue =
        (if s.get MOD_HOP_CFG_MODE = 1 then (if s.hopChoice.1 = s.hopStep then none else some s.hopChoice.1)
         else if s.get MOD_HOP_CFG_MODE = 0 ∧ s.hopStep ≠ 0 then some 0 else none))) ∧
    ∀ p : Fin 9,
      let x := s.mod.pairs[p]
      let d := deviation (s.get (MOD_CNT_CNT p)) (s.get MOD_EPOCH_EPOCH) (s.get (MOD_PHASE_PHASE p)) x.periodNow
      (s.pairAligned p = false → t.get (MOD_STATUS_ALIGNED p) = 0 ∧ t.mod.pairs[p] = x) ∧
      (s.pairAligned p = true → t.get (MOD_DEV_D p) = unsigned 32 d ∧ t.get (MOD_STATUS_ALIGNED p) = bitOf (d == 0) ∧
        t.mod.pairs[p] = { x with slew := d }))

/-- R183, the guard: the outputs of a pair before gating are never asked for both at once; every step of the block keeps this, whatever
the waves, the overrides and the dead time are. -/
def Obligations.OutputsOfAPairExcludeEachOther : Prop :=
  ∀ s t : State, (∀ p : Fin 9, ¬(s.mod.pairs[p].outA = true ∧ s.mod.pairs[p].outB = true)) → step s = .next t →
    ∀ p : Fin 9, ¬(t.mod.pairs[p].outA = true ∧ t.mod.pairs[p].outB = true)
/-! ### The Cone -/

/-- R18, R295, R392, R393, R395 to R397: TRIG and a pulse at CONE_IN trigger a Cone, which takes a free bank, the lower-numbered first; with
both held it is missed and counted. RELEASE0 and RELEASE1 free a bank, unless its fault snapshot still collects (R401). A match is armed for
a time ahead, and a time already past fires at once with LATE_MATCH; a match that comes due fires and disarms. A manager schedules a plant
Cone at least 100 µs ahead and repeats its frame on every lane that reaches workers; a worker passes the frame on downstream and discards
one whose CRC is bad, and a numbered one arms a match from it, which takes the place of a local one, counted. -/
def Obligations.ConeTriggersAndMatches : Prop :=
  (∀ s : State, (s.takes .trig →
    Completes .trig s (Cones 1 0 0 s) ∧
    (s.get CON_STATUS_HELD0 = 0 → Completes .trig s fun t => t.get CON_STATUS_HELD0 = 1 ∧ t.get CON_STATUS_LAST = 0 ∧
      t.con.bank1.mem = s.con.bank1.mem) ∧
    (s.get CON_STATUS_HELD0 ≠ 0 → s.get CON_STATUS_HELD1 = 0 → Completes .trig s fun t => t.get CON_STATUS_HELD1 = 1 ∧
      t.get CON_STATUS_LAST = 1 ∧ t.con.bank0.mem = s.con.bank0.mem) ∧
    (s.get CON_STATUS_HELD0 ≠ 0 → s.get CON_STATUS_HELD1 ≠ 0 → Completes .trig s fun t =>
      Sets [(CON_STATUS_MISSED, s.counted CON_STATUS_MISSED), (CON_INT_MISSED, 1)] s t ∧ t.con = s.con)) ∧
  (s.get CON_CFG_PIN_EN = 1 → Completes .conePin s (Cones 16 0 0 s)) ∧ (s.get CON_CFG_PIN_EN = 0 → exec .conePin s = .next s) ∧
  (s.takes .release0 →
    (s.get CON_STATUS_HELD0 = 0 ∨ s.collecting 0 = false → Completes .release0 s (Sets [(CON_STATUS_HELD0, 0)] s)) ∧
    (s.get CON_STATUS_HELD0 = 1 → s.collecting 0 = true →
      Completes .release0 s (Sets [(CON_STATUS_REFUSED, s.counted CON_STATUS_REFUSED)] s))) ∧
  (s.takes .release1 →
    (s.get CON_STATUS_HELD1 = 0 ∨ s.collecting 1 = false → Completes .release1 s (Sets [(CON_STATUS_HELD1, 0)] s)) ∧
    (s.get CON_STATUS_HELD1 = 1 → s.collecting 1 = true →
      Completes .release1 s (Sets [(CON_STATUS_REFUSED, s.counted CON_STATUS_REFUSED)] s)))) ∧
  ∀ s : State,
  let sec := s.get CON_TMATCH_SEC
  let ns := s.get CON_TMATCH_NS
  (s.takes .tmatchArm →
    (s.ptpNs < nsOf sec ns → Completes .tmatchArm s fun t =>
      t.con.matchAt = some (sec, ns) ∧ t.con.matchPlant = false ∧ Sets [(CON_STATUS_MATCH_ARMED, 1)] s t) ∧
    (nsOf sec ns ≤ s.ptpNs → Completes .tmatchArm s fun t =>
      t.con.matchAt = none ∧ t.get CON_STATUS_MATCH_ARMED = 0 ∧ Cones 32 0 0x400 s t)) ∧
  (s.con.matchAt = none → exec .timeMatch s = .next s) ∧
  (s.con.matchAt.isSome = true → Completes .timeMatch s fun t =>
    t.con.matchAt = none ∧ t.get CON_STATUS_MATCH_ARMED = 0 ∧
    Cones (if s.con.matchPlant then 64 else 32) 0
      (if s.con.matchPlant && s.isWorker && !s.bit WLK_SYNC_STATUS_LOCKED then 0x200 else 0) s t) ∧
  (s.takes .plantGo →
    (s.isManager = true → s.ptpNs + 100000 ≤ nsOf sec ns → Completes .plantGo s fun t =>
      t.con.matchAt = some (sec, ns) ∧ t.con.repeatAt = some (sec, ns) ∧
      t.outbox = s.outbox ++ s.plantLanes.map (fun l => s.frameOf l { cls := 8, scope := 1 } 0 [sec, ns]) ∧
      Sets [(CON_STATUS_MATCH_ARMED, 1)] s t) ∧
    (s.isManager = false ∨ nsOf sec ns < s.ptpNs + 100000 → Completes .plantGo s fun t =>
      Sets [(CON_STATUS_REFUSED, s.counted CON_STATUS_REFUSED)] s t ∧ t.con = s.con ∧ t.outbox = s.outbox)) ∧
  (∀ a b, s.con.repeatAt = some (a, b) → Completes .coneRepeat s fun t =>
    t.con.repeatAt = none ∧ t.outbox = s.outbox ++ s.plantLanes.map (fun l => s.frameOf l { cls := 8, scope := 1 } 0 [a, b]) ∧
    Sets [] s t) ∧
  (s.con.repeatAt = none → exec .coneRepeat s = .next s) ∧
  ∀ a b : Nat,
    let known := s.up .lane = true ∧ s.isWorker = true
    let numbered := s.get SYS_ROLE_WORKER_NO ≠ 0
    let passed := fun (t : State) => t.outbox = s.outbox ++ [.pass s.downLane]
    (¬known → ∀ crcOk, exec (.coneFrame crcOk (a, b)) s = .next s) ∧
    (known → Completes (.coneFrame false (a, b)) s fun t => passed t ∧
      Sets [(LANE_FRM_ERR_DISCARD s.upLane, s.counted (LANE_FRM_ERR_DISCARD s.upLane))] s t ∧ t.con = s.con) ∧
    (known → ¬numbered ∨ s.con.matchAt = some (a, b) → Completes (.coneFrame true (a, b)) s fun t =>
      passed t ∧ Sets [] s t ∧ t.con = s.con) ∧
    (known → numbered → s.con.matchAt ≠ some (a, b) → nsOf a b < s.ptpNs → Completes (.coneFrame true (a, b)) s fun t =>
      passed t ∧ Sets [(CON_STATUS_LATE, s.counted CON_STATUS_LATE)] s t ∧ t.con = s.con) ∧
    (known → numbered → s.con.matchAt ≠ some (a, b) → s.con.matchAt = none ∨ s.con.matchPlant = true → s.ptpNs ≤ nsOf a b →
      Completes (.coneFrame true (a, b)) s fun t => passed t ∧ t.con.matchAt = some (a, b) ∧ t.con.matchPlant = true ∧
        Sets [(CON_STATUS_MATCH_ARMED, 1)] s t) ∧
    (known → numbered → s.con.matchAt.isSome = true → s.con.matchPlant = false → s.con.matchAt ≠ some (a, b) → s.ptpNs ≤ nsOf a b →
      Completes (.coneFrame true (a, b)) s fun t => passed t ∧ t.con.matchAt = some (a, b) ∧ t.con.matchPlant = true ∧
        Sets [(CON_STATUS_REPLACED, s.counted CON_STATUS_REPLACED), (CON_STATUS_MATCH_ARMED, 1)] s t)

/-- R399, R400: CAP_CFG takes a value only while EN is 0; EN starts the capture unless records would come more often than every 200
cycles; EN = 0 stops it; REARM fills again; the capture freezes once the records after the trigger are taken. -/
def Obligations.CaptureRunsAndFreezes : Prop :=
  ∀ (s : State) (v : Word),
  let rg := v.toNat / 2 ^ 28 % 8
  let dv := v.toNat / 2 ^ 20 % 256
  let nslot := v.toNat / 2 ^ 14 % 64
  (s.takes (.capEnWrite v) →
    (s.get CON_CAP_CFG_EN = 0 → v.getLsbD 31 = false → Completes (.capEnWrite v) s
      (Sets [(CON_CAP_CFG_RG, rg), (CON_CAP_CFG_DIV, dv), (CON_CAP_CFG_NSLOT, nslot)] s)) ∧
    (s.get CON_CAP_CFG_EN = 0 → v.getLsbD 31 = true → 200 ≤ (dv + 1) * s.get (RGS_RG_PERIOD_PERIOD rg) → Completes (.capEnWrite v) s
      fun t => Sets [(CON_CAP_CFG_RG, rg), (CON_CAP_CFG_DIV, dv), (CON_CAP_CFG_NSLOT, nslot), (CON_CAP_CFG_EN, 1),
        (CON_CAP_STATUS_STATE, 1), (CON_CAP_STATUS_WRAPPED, 0)] s t ∧ t.con.records = 0) ∧
    (s.get CON_CAP_CFG_EN = 0 → v.getLsbD 31 = true → (dv + 1) * s.get (RGS_RG_PERIOD_PERIOD rg) < 200 →
      Completes (.capEnWrite v) s (Sets [(CON_STATUS_REFUSED, s.counted CON_STATUS_REFUSED)] s)) ∧
    (s.get CON_CAP_CFG_EN = 1 → v.getLsbD 31 = true → Completes (.capEnWrite v) s (Sets [] s)) ∧
    (s.get CON_CAP_CFG_EN = 1 → v.getLsbD 31 = false → Completes (.capEnWrite v) s
      (Sets [(CON_CAP_CFG_EN, 0), (CON_CAP_STATUS_STATE, 0)] s))) ∧
  (s.takes .capRearm → (s.get CON_CAP_CFG_EN = 1 → Completes .capRearm s fun t =>
      Sets [(CON_CAP_STATUS_STATE, 1), (CON_CAP_STATUS_WRAPPED, 0)] s t ∧ t.con.records = 0) ∧
    (s.get CON_CAP_CFG_EN = 0 → Completes .capRearm s (Sets [] s))) ∧
  (s.get CON_CAP_STATUS_STATE = 2 → s.con.trigWait = false → s.con.postLeft = 0 →
    Completes .captureFrozen s (Sets [(CON_CAP_STATUS_STATE, 3), (CON_INT_FROZEN, 1)] s)) ∧
  (s.get CON_CAP_STATUS_STATE ≠ 2 ∨ s.con.trigWait = true ∨ s.con.postLeft ≠ 0 → exec .captureFrozen s = .next s)

/-! ### The Pug -/

/-- R357 to R360, R362, R366: the Pug's modes, its measurements, the source of the always-on island and the thresholds. A source change
finds the first source of R360's list that qualifies (with harvest within the last 10 min a store at MEAS, or at ABORT where the store with
harvest was the source before; a cell of 2.0 V; a store of 2.0 V), and where none does the island has no supply. The tamper
events whose sweep the supply then permits are answered with it (`State.tamperDue`, which SaggarMailboxAndEvents states; entry 133 of the
log). -/
def Obligations.PugSupplyEvents : Prop :=
  ∀ (s : State) (secs : Word) (voc store mv : BitVec 16) (hv : Bool) (v : Word),
  let st := min store.toNat 5000
  let harvest := s.harvestRecent = true ∧
    (50 * s.get PUG_THR_MEAS ≤ st ∨ (s.pug.order = 2 ∧ 50 * s.get PUG_THR_ABORT ≤ st))
  let cell := 2000 ≤ mv.toNat ∧ s.get PUG_CFG_CELL_EN = 1
  let vaux := s.get PWR_STATUS_VAUX_OK = 1
  let low := if 2200 ≤ mv.toNat then [(PUG_STATUS_VBAT_LOW, 0)] else []
  let charges := fun (t : State) =>
    t.pug.charger = decide (s.get PWR_STATUS_VAUX_OK = 1 ∧ s.get PUG_CFG_TOPUP_EN = 1 ∧ st < 50 * s.get PUG_THR_TOP)
  let takes := fun (src : Nat) => Completes (.pugSourceChange store mv) s fun t => ∃ u, t = u.tamperDue ∧ u.pug.supplied = true ∧ charges u ∧
    (s.get PUG_STATUS_SOURCE = src → s.pug.supplied = true → Sets ([(PUG_LEVELS_STORE, st)] ++ low) s u) ∧
    (s.get PUG_STATUS_SOURCE ≠ src ∨ s.pug.supplied = false →
      Sets ([(PUG_LEVELS_STORE, st)] ++ low ++ [(PUG_STATUS_SOURCE, src), (PUG_INT_SOURCE, 1)] ++ s.jrnlLoss 0) s u ∧
      Journals 0x28 src st s u)
  (s.get PUG_STATUS_COLD = 1 → s.get PUG_CFG_HARV_EN = 1 → Completes (.pugModeChange true secs) s fun t =>
    Sets ([(PUG_STATUS_COLD, 0)] ++ s.jrnlLoss 0) s t ∧ Journals 0x2A 0 secs.toNat s t) ∧
  (s.get PUG_STATUS_COLD = 0 → Completes (.pugModeChange true secs) s (Sets [(PUG_STATUS_COLD, 0)] s)) ∧
  (s.get PUG_CFG_HARV_EN = 1 → Completes (.pugModeChange false secs) s (Sets [(PUG_STATUS_COLD, 1)] s)) ∧
  (∀ b, s.get PUG_CFG_HARV_EN = 0 → Completes (.pugModeChange b secs) s (Sets [(PUG_STATUS_COLD, 0)] s)) ∧
  (s.get PUG_STATUS_COLD = 0 → s.get PUG_CFG_HARV_EN = 1 → s.pug.load = false →
    Completes (.pugVocMeasure voc store hv) s fun t => ∃ u, t = u.tamperDue ∧ charges u ∧
      Sets [(PUG_LEVELS_VOC, voc.toNat), (PUG_LEVELS_STORE, st), (PUG_STATUS_HARVEST, hv.toNat)] s u) ∧
  (s.get PUG_STATUS_COLD = 0 → s.get PUG_CFG_HARV_EN = 0 → s.pug.load = false →
    Completes (.pugVocMeasure voc store hv) s fun t => ∃ u, t = u.tamperDue ∧ Sets [(PUG_LEVELS_STORE, st), (PUG_STATUS_HARVEST, 0)] s u) ∧
  (s.get PUG_STATUS_COLD = 0 → s.pug.load = true → Completes (.pugVocMeasure voc store hv) s fun t =>
    Sets [] s t ∧ t.pug = { s.pug with vocDue := true }) ∧
  (s.get PUG_STATUS_COLD = 1 → exec (.pugVocMeasure voc store hv) s = .next s) ∧
  (vaux → takes 0) ∧ (¬vaux → harvest → takes 1) ∧ (¬vaux → ¬harvest → cell → takes 2) ∧
  (¬vaux → ¬harvest → ¬cell → 2000 ≤ st → takes 1) ∧
  (¬vaux → ¬harvest → ¬cell → st < 2000 → Completes (.pugSourceChange store mv) s fun t =>
    t.pug = { supplied := false, order := 0 } ∧ t.sag.held = [] ∧ t.sag.treeKept = false ∧ t.get PWR_RESET_CAUSE_CAUSE = 1) ∧
  Completes (.vbatLow mv) s (fun t => Sets ([(PUG_STATUS_VBAT_LOW, 1), (PUG_INT_VBAT_LOW, 1)] ++ s.jrnlLoss 0) s t ∧
    Journals 0x2B 0 mv.toNat s t) ∧
  (s.takes (.pugThrWrite v) →
    let ab := v.toNat % 256
    let me := v.toNat / 2 ^ 8 % 256
    let xm := v.toNat / 2 ^ 16 % 256
    let top := v.toNat / 2 ^ 24
    (44 ≤ ab ∧ ab < me ∧ me < xm ∧ xm < top ∧ top ≤ 100 → Completes (.pugThrWrite v) s
      (Sets [(PUG_THR_ABORT, ab), (PUG_THR_MEAS, me), (PUG_THR_XMIT, xm), (PUG_THR_TOP, top)] s)) ∧
    (¬(44 ≤ ab ∧ ab < me ∧ me < xm ∧ xm < top ∧ top ≤ 100) → Completes (.pugThrWrite v) s
      (Sets [(PUG_STATUS_REFUSED, s.counted PUG_STATUS_REFUSED)] s)))

/-- R348, R364, R365: what makes a last-gasp message pending, and how it is signed, sent, abandoned and abandoned half way; a signature that
does not verify enters ERROR, releases nothing, and its index is spent; whether it verifies is a free value (log entry 146). -/
def Obligations.PugLastGaspMessages : Prop :=
  ∀ (s : State) (d : Word) (store : BitVec 16) (m : GaspMsg) (q : Nat),
  (∀ tamper : Bool, s.bit (if tamper then PUG_LG_CFG_ON_TAMPER else PUG_LG_CFG_ON_PF) = true →
    tamper = true ∨ s.get PWR_STATUS_VAUX_OK = 0 → s.sag.devKey = true → s.pug.msg = none →
    Completes (.lastGaspTrigger tamper d) s fun t => Sets [(PUG_STATUS_LG, 1)] s t ∧
      t.pug.msg = some { trigger := if tamper then 2 else 1, detail := d.toNat, time := s.moduleTime }) ∧
  (s.get PWR_STATUS_VAUX_OK = 0 → s.get PUG_LG_CFG_HEARTBEAT ≠ 0 → s.sag.devKey = true → s.pug.msg = none →
    Completes (.heartbeat store) s fun t => Sets [(PUG_STATUS_LG, 1)] s t ∧
      t.pug.msg = some { trigger := 3, detail := store.toNat, time := s.moduleTime }) ∧
  (s.pug.msg = some m → s.pug.load = false → m.index = none → s.get SAG_ATTEST_NEXT_EXHAUSTED = 0 → s.sag.treeKept = true →
    s.sag.devKey = true → Completes .lastGaspSend s fun t =>
      (s.get SAG_ATTEST_NEXT_NEXT ≠ attestLast → t.get SAG_ATTEST_NEXT_NEXT = s.get SAG_ATTEST_NEXT_NEXT + 1) ∧
      (s.signatureFails = false → t.get PUG_STATUS_LG = 2 ∧ t.pug.load = true ∧
        t.pug.msg = some { m with index := some (s.get SAG_ATTEST_NEXT_NEXT) } ∧ t.sag.released = some (s.get SAG_ATTEST_NEXT_NEXT)) ∧
      (s.signatureFails = true → t.get PUG_STATUS_LG = 0 ∧ t.pug.msg = none ∧ t.pug.load = false ∧
        t.get SAG_STATUS_LIFECYCLE = 4 ∧ t.sag.error = true ∧ t.sag.released = s.sag.released ∧
        Journals 0x29 2 (payload2 (s.get SAG_ATTEST_NEXT_NEXT) m.trigger) s t)) ∧
  (s.pug.msg = some m → s.pug.load = false → m.index = none →
    s.get SAG_ATTEST_NEXT_EXHAUSTED = 1 ∨ s.sag.treeKept = false ∨ s.sag.devKey = false →
    Completes .lastGaspSend s fun t => Sets ([(PUG_STATUS_LG, 0)] ++ s.jrnlLoss 0) s t ∧ t.pug.msg = none ∧
      Journals 0x29 2 (payload2 0 m.trigger) s t) ∧
  (s.pug.msg = some { m with index := some q } → s.pug.load = false → Completes .lastGaspSend s fun t =>
    Sets [(PUG_STATUS_LG, 2)] s t ∧ t.pug.load = true ∧ t.sag = s.sag) ∧
  (s.pug.msg = some { m with index := some q } → s.pug.load = true → s.pug.warm = false → Completes .lastGaspWarmupEnd s fun t =>
    t.pug.warm = true ∧ t.outbox = s.outbox ++ [.gasp (s.gaspWords { m with index := some q } q)] ∧ Sets [] s t) ∧
  (s.pug.msg = some { m with index := some q } → s.pug.load = true → s.pug.warm = true → Completes .lastGaspSent s fun t =>
    Sets ([(PUG_STATUS_LG, 0), (PUG_INT_LG_DONE, 1)] ++ s.jrnlLoss 0) s t ∧ t.pug.msg = none ∧ t.pug.load = false ∧
      Journals 0x29 0 (payload2 q m.trigger) s t) ∧
  (s.pug.msg = some { m with index := some q } → s.pug.load = true → Completes .lastGaspAbort s fun t =>
    Sets ([(PUG_STATUS_LG, 1), (PUG_INT_LG_INCOMPLETE, 1)] ++ s.jrnlLoss 0) s t ∧ t.pug.msg = some { m with index := some q } ∧ t.pug.load = false ∧
      Journals 0x29 1 (payload2 q m.trigger) s t)

/-! ### The Setter tiles -/

/-- R25, R191 to R193, R195, R196, R199, R206, R373: trims and delays, supplies, arming and disarming, temperature, and the clearing of
latched flags. A disarmed channel with a regulated supply holds its gate with the clamp engaged; log entry 118: arming ends a fallback. -/
def Obligations.SetterArming : Prop :=
  ∀ (s : State) (n : Fin 9) (c : Fin 2),
  let refused := [(SET_REFUSED_COUNT n, s.counted (SET_REFUSED_COUNT n)), (SET_INT_REFUSED n, 1)]
  let boots := s.bootPair n = true
  let armed := s.get (SET_STATUS_ARMED n) = 1
  (∀ v : Word, s.takes (.trimWrite n c v) → Completes (.trimWrite n c v) s
    (Sets [(SET_CH_TRIM_TON n c, v.toNat % 512), (SET_CH_TRIM_TOFF n c, v.toNat / 2 ^ 16 % 512), (SET_CH_DELAY_VALID n c, 0)] s)) ∧
  (∀ ton toff : Nat, Completes (.delayMeasured n c ton toff) s
    (Sets [(SET_CH_DELAY_TON n c, ton % 4096), (SET_CH_DELAY_TOFF n c, toff % 4096), (SET_CH_DELAY_VALID n c, 1)] s)) ∧
  (s.tiles[n].powered = false ∨ (boots ∧ c = 0) → exec (.supOk n c) s = .next s) ∧
  (s.tiles[n].powered = true → ¬boots → Completes (.supOk n c) s fun t =>
    Sets [(SET_CH_STATUS_SUP_OK n c, 1), (SET_STATUS_SUP_OK n, s.get (SET_CH_STATUS_SUP_OK n (1 - c))),
      (SET_CH_STATUS_CLAMP n c, if s.get (SET_CH_STATUS_ON n c) = 0 then 1 else s.get (SET_CH_STATUS_CLAMP n c))] s t ∧
    (t.chan n c).uvNow = false) ∧
  (s.tiles[n].powered = true → boots → c = 1 → Completes (.supOk n c) s fun t =>
    t.get (SET_CH_STATUS_SUP_OK n 0) = 1 ∧ t.get (SET_CH_STATUS_SUP_OK n 1) = 1 ∧ t.get (SET_STATUS_SUP_OK n) = 1) ∧
  (boots → c = 0 → exec (.supplyUv n c) s = .next s) ∧
  (¬boots ∨ c = 1 → Completes (.supplyUv n c) s fun t =>
    t.get (SET_CH_STATUS_SUPPLY_UV n c) = 1 ∧ t.get (SET_CH_STATUS_SUP_OK n c) = 0 ∧ t.get (SET_STATUS_SUP_OK n) = 0 ∧
    t.get (SET_INT_SUPPLY_UV n) = 1 ∧ (t.chan n c).uvNow = true ∧ t.tiles[n].diag = none ∧
    (boots → t.get (SET_CH_STATUS_SUPPLY_UV n 0) = 1) ∧ (armed → t.get (SET_CH_STATUS_ON n c) = 0) ∧
    (armed → s.up .mod = true → Stops .setterUv s t) ∧
    (¬armed → t.get SIT_STATUS_BLOCK_STOP = s.get SIT_STATUS_BLOCK_STOP ∧ t.get SIT_CAUSE_CAUSE = s.get SIT_CAUSE_CAUSE)) ∧
  (s.takes (.arm n) →
    (s.armRefused n = true → Completes (.arm n) s fun t => Sets refused s t ∧ t.tiles = s.tiles) ∧
    ∀ p, s.armRefused n = false → s.pairOf n = some p → Completes (.arm n) s fun t => Sets [(SET_STATUS_ARMED n, 1)] s t ∧
      (∀ d : Fin 2, (t.chan n d).stage = if s.legFaulted p = true then 1 else stopStage s.topClass p d) ∧ t.tiles[n].fallback = 0 ∧
      (boots → t.mod.pairs[p].refreshNext = true)) ∧
  (s.takes (.disarm n) →
    let clamp := fun (d : Fin 2) =>
      if s.get (SET_CH_STATUS_ON n d) = 1 ∨ (s.get (SET_CH_STATUS_SUP_OK n d) = 1 ∧ (s.chan n d).soft = .idle) then 1
      else s.get (SET_CH_STATUS_CLAMP n d)
    let off := [(SET_STATUS_ARMED n, 0), (SET_CH_STATUS_ON n 0, 0), (SET_CH_STATUS_ON n 1, 0), (SET_CH_STATUS_CLAMP n 0, clamp 0),
      (SET_CH_STATUS_CLAMP n 1, clamp 1)]
    (s.pairOf n = none → Completes (.disarm n) s fun t => Sets refused s t ∧ t.mod = s.mod) ∧
    ∀ p, s.pairOf n = some p →
      (s.pairGated p = true ∨ s.pairForced p = true → Completes (.disarm n) s fun t => Sets off s t ∧ t.mod.pairs[p].stopHold = true ∧
        ∀ d : Fin 2, (t.chan n d).req = false ∧ (t.chan n d).wait = false) ∧
      (s.pairGated p = false → s.pairForced p = false → Completes (.disarm n) s fun t => Sets refused s t ∧ t.mod = s.mod)) ∧
  (¬armed → Completes (.tileOverTemp n) s (Sets [(SET_STATUS_OT n, 1), (SET_INT_OT n, 1)] s)) ∧
  (armed → s.up .mod = true → Completes (.tileOverTemp n) s fun t =>
    t.get (SET_STATUS_OT n) = 1 ∧ t.get (SET_INT_OT n) = 1 ∧ Stops .setterOt s t) ∧
  Completes (.tileOtClear n) s (Sets [(SET_STATUS_OT n, 0)] s) ∧
  (s.takes (.desatClear n c) →
    (s.get (SET_CH_STATUS_SOFTOFF_BUSY n c) = 1 ∨ armed → Completes (.desatClear n c) s (Sets refused s)) ∧
    (s.get (SET_CH_STATUS_SOFTOFF_BUSY n c) = 0 → ¬armed → Completes (.desatClear n c) s (Sets [(SET_CH_STATUS_DESAT n c, 0)] s))) ∧
  (s.takes (.bootStopClear n) →
    ((s.chan n 0).bootLow = true → Completes (.bootStopClear n) s (Sets refused s)) ∧
    ((s.chan n 0).bootLow = false → Completes (.bootStopClear n) s (Sets [(SET_CH_STATUS_BOOT_STOP n 0, 0)] s))) ∧
  (s.takes (.supplyUvClear n c) →
    ((s.chan n c).uvNow = true → Completes (.supplyUvClear n c) s (Sets refused s)) ∧
    ((s.chan n c).uvNow = false → Completes (.supplyUvClear n c) s (Sets [(SET_CH_STATUS_SUPPLY_UV n c, 0)] s)))

/-- R194, R196 to R199, R373: the interlock, bootstrap supervision, desaturation, the steps of a soft turn-off, and the fallback of a
tile that loses its control side. -/
def Obligations.SetterProtection : Prop :=
  ∀ (s : State) (n : Fin 9) (c : Fin 2),
  let on := fun (d : Fin 2) => s.get (SET_CH_STATUS_ON n d) = 1
  let soft := (s.chan n c).soft
  let low := s.get (SET_STATUS_ARMED n) = 1 ∧ ¬on (1 - c) ∧ (s.chan n (1 - c)).soft = .idle
  let clamped := if low then 1 else s.get (SET_CH_STATUS_CLAMP n (1 - c))
  let may := (s.chan n c).wait = true ∧ (s.chan n c).req = true ∧ s.chanFree n c = true ∧ ¬on (1 - c) ∧ clamped = 1 ∧
    (s.chan n (1 - c)).req = false ∧ (s.chan n c).bootWait = false ∧ (s.chan n c).bootLow = false ∧ s.tileLive n = true
  let senses := ((on c ∧ (s.chan n c).req = true ∧ (s.chan n c).blanking = false) ∨ s.desatCut n c = true) ∧ s.desatThr n c ≠ 0
  let event := s.tiles[n].bootThis = false ∧ (on 0 ∨ (s.chan n 0).req = true) ∧ s.bootPair n = true
  let asks := (s.chan n 0).req = true ∧ (s.chan n 0).wait = false ∧ ¬on 0 ∧ s.chanFree n 0 = true ∧
    ∃ p, s.pairOf n = some p ∧ s.pairGated p = false
  let locked := s.gateLow n 1 = false ∨ (s.chan n 1).req = true
  let falls := fun (g : Nat) => [(0 : Fin 2), 1].flatMap fun d =>
    let drops := (s.chan n d).stage = g ∧ on d
    [(SET_CH_STATUS_ON n d, if drops then 0 else s.get (SET_CH_STATUS_ON n d)),
      (SET_CH_STATUS_CLAMP n d, if drops then 1 else s.get (SET_CH_STATUS_CLAMP n d))]
  (may → Completes (.interlockRelease n c) s fun t =>
    Sets [(SET_CH_STATUS_ON n c, 1), (SET_CH_STATUS_CLAMP n c, 0), (SET_CH_STATUS_CLAMP n (1 - c), 1)] s t ∧
    (t.chan n c).wait = false ∧ (t.chan n c).blanking = (s.desatThr n c != 0)) ∧
  (¬may → Completes (.interlockRelease n c) s fun t => Sets [(SET_CH_STATUS_CLAMP n (1 - c), clamped)] s t ∧ t.tiles = s.tiles) ∧
  (s.bootPair n = false → exec (.bootUvEvent n) s = .next s) ∧
  (s.bootPair n = true → ¬event → Completes (.bootUvEvent n) s fun t => Sets [] s t ∧ (t.chan n 0).bootLow = true) ∧
  (event → Completes (.bootUvEvent n) s fun t =>
    let w := min 3 ((s.tiles[n].bootHist.filter id).length + 1)
    t.get (SET_CH_STATUS_BOOT_UV n 0) = 1 ∧ t.get (SET_INT_BOOT_UV n) = 1 ∧ t.get (SET_CH_STATUS_ON n 0) = 0 ∧
    t.get (SET_BOOT_EVENTS_TOTAL n) = s.counted (SET_BOOT_EVENTS_TOTAL n) ∧ t.get (SET_BOOT_EVENTS_WINDOW n) = w ∧
    (∀ p, s.pairOf n = some p → t.mod.pairs[p].cycleTrip = true ∧ t.mod.pairs[p].refreshNext = true ∧
      t.bitAt SIT_TRIP_PAIR_STAT p = true) ∧
    (w = 3 → t.get (SET_CH_STATUS_BOOT_STOP n 0) = 1 ∧ (s.up .mod = true → Stops .bootUv s t)) ∧
    (w < 3 → t.get SIT_CAUSE_CAUSE = s.get SIT_CAUSE_CAUSE)) ∧
  (Completes (.bootUvRecover n) s fun t => (t.chan n 0).bootLow = false ∧ (t.chan n 0).bootWait = false ∧
    (asks → ¬locked → Sets [(SET_CH_STATUS_ON n 0, 1), (SET_CH_STATUS_CLAMP n 0, 0)] s t) ∧
    (asks → locked → Sets [(SET_CH_STATUS_INTERLOCK n 0, s.counted (SET_CH_STATUS_INTERLOCK n 0))] s t ∧ (t.chan n 0).wait = true) ∧
    (¬asks → Sets [] s t)) ∧
  (Completes (.blankingEnd n c) s fun t => Sets [] s t ∧ (t.chan n c).blanking = false) ∧
  (¬senses → exec (.desatDetect n c) s = .next s) ∧
  (senses → soft = .idle → Completes (.desatDetect n c) s fun t =>
    t.get (SET_CH_STATUS_DESAT n c) = 1 ∧ t.get (SET_INT_DESAT n) = 1 ∧ t.get (SET_CH_STATUS_ON n c) = 0 ∧
    t.get (SET_CH_STATUS_SOFTOFF_BUSY n c) = 1 ∧ (t.chan n c).soft = .step1 ∧ (s.up .mod = true → Stops .desat s t) ∧
    (s.get SIT_STATUS_BLOCK_STOP = 1 → s.get SET_FAULT_SNAP_COMPLETE = 0 → t.bitAt SET_FAULT_SNAP_CH (2 * n.val + c.val) = true)) ∧
  (soft = .step1 → Completes (.softOffStep2 n c) s fun t => Sets [] s t ∧ (t.chan n c).soft = .step2) ∧
  (soft ≠ .step1 → exec (.softOffStep2 n c) s = .next s) ∧
  (soft = .step2 → Completes (.softOffFullSink n c) s fun t => Sets [] s t ∧ (t.chan n c).soft = .fullSink) ∧
  (soft ≠ .step2 → exec (.softOffFullSink n c) s = .next s) ∧
  (soft = .step2 ∨ soft = .fullSink → Completes (.softTurnOffComplete n c) s fun t =>
    Sets [(SET_CH_STATUS_SOFTOFF_BUSY n c, 0), (SET_CH_STATUS_CLAMP n c, 1)] s t ∧ (t.chan n c).soft = .idle) ∧
  (soft = .idle ∨ soft = .step1 → exec (.softTurnOffComplete n c) s = .next s) ∧
  (Completes (.tileControlLoss n) s fun t => Sets (falls 1) s t ∧ t.tiles[n].fallback = 1) ∧
  (s.tiles[n].fallback = 1 → Completes (.tileFallbackStage2 n) s fun t => Sets (falls 2) s t ∧ t.tiles[n].fallback = 2) ∧
  (s.tiles[n].fallback ≠ 1 → exec (.tileFallbackStage2 n) s = .next s)

/-- R202 to R205: off-state diagnostics from their start through their tests to their end or their abort, and the measurement of a
segment. -/
def Obligations.SetterDiagnostics : Prop :=
  ∀ (s : State) (n : Fin 9) (c : Fin 2),
  let able := s.get (SET_STATUS_ARMED n) = 0 ∧ s.get (SET_CH_STATUS_SUP_OK n 0) = 1 ∧ s.get (SET_CH_STATUS_SUP_OK n 1) = 1 ∧
    (s.phase = 2 ∨ s.fired = true) ∧ s.tileUsed n = true ∧ s.tiles[n].diag = none
  let x := s.tiles[n]
  (s.takes (.diag n) →
    (able → Completes (.diag n) s fun t => t.tiles[n].diag = some (0, .d0) ∧ t.tiles[n].diagDecl = (s.gateDecl n 0, s.gateDecl n 1) ∧
      Sets [(SET_DIAG_RESULT_STATE n, 1), (SET_STATUS_DIAG_BUSY n, 1), (SET_CTRL_DIAG n, 1), (SET_CH_STATUS_CLAMP n 0, 0)] s t) ∧
    (¬able → Completes (.diag n) s fun t => t.tiles = s.tiles ∧
      Sets [(SET_REFUSED_COUNT n, s.counted (SET_REFUSED_COUNT n)), (SET_INT_REFUSED n, 1)] s t)) ∧
  (s.takes (.diagAbort n) →
    (x.diag = none → Completes (.diagAbort n) s (Sets [] s)) ∧
    (x.diag.isSome = true → Completes (.diagAbort n) s fun t => t.tiles[n].diag = none ∧
      Sets [(SET_DIAG_RESULT_STATE n, 3), (SET_STATUS_DIAG_BUSY n, 0), (SET_CTRL_DIAG n, 0), (SET_INT_DIAG_DONE n, 1),
        (SET_CH_STATUS_CLAMP n 0, 1), (SET_CH_STATUS_CLAMP n 1, 1)] s t)) ∧
  (∀ o : DiagObs,
    (x.diag = none → exec (.diagTestStep n o) s = .next s ∧ exec (.diagDone n) s = .next s) ∧
    (∀ k, x.diag = some (2, k) → exec (.diagTestStep n o) s = .next s) ∧
    ∀ k, x.diag = some (c.val, k) → exec (.diagDone n) s = .next s ∧ Completes (.diagTestStep n o) s fun t =>
      let y := t.tiles[n]
      let j := diagJudge (if c = 0 then x.diagDecl.1 else x.diagDecl.2) k o
      y.diag = some (diagNext c.val k (j == 3)) ∧
      (k = .back → y.diagGate = x.diagGate ∧ y.diagNode = x.diagNode ∧ t.get (SET_CH_STATUS_CLAMP n c) = 1 ∧
        (c = 0 → t.get (SET_CH_STATUS_CLAMP n 1) = 0)) ∧
      (k = .d3 → y.diagGate = x.diagGate ∧
        y.diagNode = (if c = 0 then (diagNodeClass o.desatMv, x.diagNode.2) else (x.diagNode.1, diagNodeClass o.desatMv)) ∧ Sets [] s t) ∧
      (k = .d0 ∨ k = .d1 ∨ k = .d2 → y.diagNode = x.diagNode ∧
        y.diagGate = (if c = 0 then (diagFind x.diagGate.1 j, x.diagGate.2) else (x.diagGate.1, diagFind x.diagGate.2 j)) ∧ Sets [] s t)) ∧
  (∀ k, x.diag = some (2, k) → Completes (.diagDone n) s fun t => t.tiles[n].diag = none ∧
    Sets [(SET_DIAG_RESULT_STATE n, 2), (SET_DIAG_RESULT_GATE_A n, x.diagGate.1 % 16), (SET_DIAG_RESULT_GATE_B n, x.diagGate.2 % 16),
      (SET_DIAG_RESULT_NODE_A n, x.diagNode.1 % 4), (SET_DIAG_RESULT_NODE_B n, x.diagNode.2 % 4), (SET_STATUS_DIAG_BUSY n, 0),
      (SET_CTRL_DIAG n, 0), (SET_INT_DIAG_DONE n, 1)] s t) ∧
  ∀ (k : Fin 8) (rds : Nat) (broken : Bool),
    let use := if c = 0 then SET_SEG_USE_A n else SET_SEG_USE_B n
    let worn := if c = 0 then SET_SEG_WORN_A n else SET_SEG_WORN_B n
    (s.bitAt use k = false → exec (.segmentMeasure n c k rds broken) s = .next s) ∧
    (s.bitAt use k = true → broken = true → Completes (.segmentMeasure n c k rds broken) s fun t =>
      t.bitAt use k = false ∧ t.get (SET_SEG_RDS_RDS n c k) = 0xFFFF ∧ t.bitAt worn k = true ∧ t.get (SET_INT_SEG_WORN n) = 1 ∧
      (t.chan n c).openSeg = (s.chan n c).openSeg ||| 2 ^ k.val) ∧
    (s.bitAt use k = true → broken = false → Completes (.segmentMeasure n c k rds broken) s fun t =>
      t.bitAt use k = true ∧ t.get (SET_SEG_RDS_RDS n c k) = rds % 65536 ∧ t.tiles = s.tiles ∧
      (3 * s.get (SET_SEG_RDS_INITIAL n c k) < 2 * rds → t.bitAt worn k = true ∧ t.get (SET_INT_SEG_WORN n) = 1) ∧
      (2 * rds ≤ 3 * s.get (SET_SEG_RDS_INITIAL n c k) → t.get worn = s.get worn ∧ t.get (SET_INT_SEG_WORN n) = s.get (SET_INT_SEG_WORN n)))
/-! ### Grog -/

/-- R387, R388: COMMIT turns a proposal into a map entry handed to the Saggar, DISMISS removes it, RETIRE names a resource of its own;
each is refused without a proposal, while Grog is busy, or with a full map; GRG.CMD reads what was written. -/
def Obligations.GrogCommands : Prop :=
  ∀ (s : State) (p : Fin 8) (q : Proposal) (k : Fin 16) (inst sub : BitVec 8),
  let cmd (op kind i u : Nat) := [(GRG_CMD_OP, op), (GRG_CMD_KIND, kind), (GRG_CMD_INSTANCE, i), (GRG_CMD_SUB, u)]
  let refused := [(GRG_STATUS_RESULT, 2), (GRG_REFUSED_COUNT, s.counted GRG_REFUSED_COUNT)]
  let entry (kind i u : Nat) : MapEntry := ⟨kind, u, i, s.spareFor kind i u, false, true⟩
  let u := subOf k.val sub.toNat
  (s.takes (.commit p) →
    (s.grg.props[p] = none ∨ s.get GRG_STATUS_BUSY = 1 ∨ s.mapFull = true → Completes (.commit p) s fun t =>
      Sets (cmd 1 0 0 p.val ++ refused) s t ∧ t.grg = s.grg) ∧
    (s.grg.props[p] = some q → s.get GRG_STATUS_BUSY = 0 → s.mapFull = false → s.retired q.kind q.inst q.sub = false →
      Completes (.commit p) s fun t => Sets (cmd 1 0 0 p.val ++ [(GRG_STATUS_BUSY, 1)]) s t ∧ t.grg.props[p] = none ∧
        (∀ r, r ≠ p → t.grg.props[r] = s.grg.props[r]) ∧ t.grg.pend = s.grg.pend ++ [entry q.kind q.inst q.sub] ∧
        t.grg.map = s.grg.map) ∧
    (s.grg.props[p] = some q → s.get GRG_STATUS_BUSY = 0 → s.mapFull = false → s.retired q.kind q.inst q.sub = true →
      Completes (.commit p) s fun t => Sets (cmd 1 0 0 p.val ++ [(GRG_STATUS_RESULT, 1)]) s t ∧ t.grg.props[p] = none ∧
        (∀ r, r ≠ p → t.grg.props[r] = s.grg.props[r]) ∧ t.grg.pend = s.grg.pend ∧ t.grg.map = s.grg.map)) ∧
  (s.takes (.dismiss p) →
    (s.grg.props[p] = none ∨ s.get GRG_STATUS_BUSY = 1 ∨ s.mapFull = true → Completes (.dismiss p) s fun t =>
      Sets (cmd 2 0 0 p.val ++ refused) s t ∧ t.grg = s.grg) ∧
    (s.grg.props[p] = some q → s.get GRG_STATUS_BUSY = 0 → s.mapFull = false → Completes (.dismiss p) s fun t =>
      Sets (cmd 2 0 0 p.val ++ [(GRG_STATUS_RESULT, 1)]) s t ∧ t.grg.props[p] = none ∧
        (∀ r, r ≠ p → t.grg.props[r] = s.grg.props[r]) ∧ t.grg.dismissed = s.grg.dismissed ++ [(q.mon, q.kind, q.inst, q.sub)])) ∧
  (s.takes (.retire k inst sub) →
    (8 ≤ k.val ∨ s.retired k.val inst.toNat u = true ∨ s.get GRG_STATUS_BUSY = 1 ∨ s.mapFull = true →
      Completes (.retire k inst sub) s fun t => Sets (cmd 3 k.val inst.toNat sub.toNat ++ refused) s t ∧ t.grg = s.grg) ∧
    (k.val < 8 → s.retired k.val inst.toNat u = false → s.get GRG_STATUS_BUSY = 0 → s.mapFull = false →
      Completes (.retire k inst sub) s fun t => Sets (cmd 3 k.val inst.toNat sub.toNat ++ [(GRG_STATUS_BUSY, 1)]) s t ∧
        t.grg.pend = s.grg.pend ++ [entry k.val inst.toNat u] ∧ t.grg.props = s.grg.props))

/-- R386, R388: a diagnosis takes a free spare converter as the core's twin or is deferred; the twin is placed; the verdict releases it, is
written, and proposes the converter where the core is at fault, a proposal that LIVE_AUTO commits. Log entry 114: a diagnosis wanted while
another runs waits for its end. -/
def Obligations.GrogDiagnosis : Prop :=
  ∀ (s : State) (n : Fin 16) (d : Diagnosis) (g : Fin 2) (mean : Nat) (burst : Bool),
  (s.takes (.diagnose n) →
    (s.adcInUse n.val = false ∨ s.get GRG_STATUS_BUSY = 1 ∨ s.mapFull = true → Completes (.diagnose n) s fun t =>
      t.get GRG_STATUS_RESULT = 2 ∧ t.get GRG_REFUSED_COUNT = s.counted GRG_REFUSED_COUNT ∧ t.grg = s.grg) ∧
    (s.adcInUse n.val = true → s.get GRG_STATUS_BUSY = 0 → s.mapFull = false → s.grg.diag = some d → Completes (.diagnose n) s fun t =>
      t.get GRG_STATUS_RESULT = 1 ∧ t.gx = s.gx ∧ t.grg.diag = some d ∧ (s.grg.flags.contains (n.val, s.get RGS_SUSPECT_AIN) = false →
        t.grg.flags = s.grg.flags ++ [(n.val, s.get RGS_SUSPECT_AIN)])) ∧
    (s.adcInUse n.val = true → s.get GRG_STATUS_BUSY = 0 → s.mapFull = false → s.grg.diag = none → s.takeGx = some g → Completes (.diagnose n) s fun t =>
      t.get GRG_STATUS_DIAG_STATE = 1 ∧ t.get GRG_STATUS_BUSY = 1 ∧ t.gx[g] = .twin n.val ∧
        t.grg.diag = some { core := n.val, ain := s.get RGS_SUSPECT_AIN, gx := some g.val }) ∧
    (s.adcInUse n.val = true → s.get GRG_STATUS_BUSY = 0 → s.mapFull = false → s.grg.diag = none → s.takeGx = none → Completes (.diagnose n) s fun t =>
      t.get GRG_STATUS_DIAG_STATE = 2 ∧ t.get GRG_STATUS_RESULT = 1 ∧ t.gx = s.gx ∧
        t.grg.diag = some { core := n.val, ain := s.get RGS_SUSPECT_AIN })) ∧
  (s.grg.diag = some d → d.gx = some g.val → d.placed = false → Completes .diagTwinPlace s fun t =>
    t.grg.diag = some { d with placed := true } ∧ t.gx = s.gx ∧
      (s.grg.runs = 4 → t.get GRG_STATUS_BUSY = 0 ∧ t.get GRG_STATUS_RESULT = 1)) ∧
  (s.grg.diag = some d → d.gx = some g.val → d.placed = true → Completes (.diagVerdict mean burst) s fun t =>
    t.get GRG_INT_DIAG_DONE = 1 ∧
      (s.grg.flags = [] → t.get GRG_STATUS_DIAG_STATE = 3 ∧ t.grg.diag = none ∧
        t.gx[g] = (if s.gx[g] = .twin d.core then .free else s.gx[g]) ∧ ∀ r, r ≠ g → t.gx[r] = s.gx[r]) ∧
      (∀ a b more, s.grg.flags = (a, b) :: more → t.grg.flags = more ∧ ∃ x, t.grg.diag = some x ∧ x.core = a ∧ x.ain = b) ∧
      (burst = false → mean ≤ 24 →
        Journals 0x33 (2 ^ 8 * d.core + d.ain) (payload2 1 mean) s t ∧ t.grg.props = s.grg.props ∧ t.grg.pend = s.grg.pend) ∧
      (burst = true ∨ 24 < mean → s.retired 1 (s.physAdc d.core) 0 = false → Unproposed s 1 (s.physAdc d.core) 0 →
        (∀ e ∈ s.grg.dismissed, e.2 ≠ (1, s.physAdc d.core, 0)) → (∃ p : Fin 8, s.grg.props[p] = none) →
        (s.get GRG_CFG_LIVE_AUTO = 0 → ∃ p : Fin 8, s.grg.props[p] = none ∧ t.grg.props[p] = some ⟨1, 0, s.physAdc d.core, 2, 1⟩ ∧
          ∀ r, r ≠ p → t.grg.props[r] = s.grg.props[r]) ∧
        (s.get GRG_CFG_LIVE_AUTO = 1 → s.mapFull = false → t.get GRG_INT_PROPOSAL = 1 ∧ t.grg.props = s.grg.props ∧
          ∃ r, t.grg.pend = s.grg.pend ++ [⟨1, 0, s.physAdc d.core, r, false, false⟩]))) ∧
  (s.grg.diag = some d → d.gx = none → s.takeGx = some g → Completes .diagRetry s fun t =>
    t.get GRG_STATUS_DIAG_STATE = 1 ∧ t.gx[g] = .twin d.core ∧ t.grg.diag = some { core := d.core, ain := d.ain, gx := some g.val }) ∧
  (s.grg.diag = none → exec .diagTwinPlace s = .next s ∧ exec (.diagVerdict mean burst) s = .next s ∧ exec .diagRetry s = .next s)

/-- R382, R383, R385, R387, R389, R390: the Saggar's commit of a map entry, wear samples and SRAM errors, and the 30-day record. -/
def Obligations.GrogWearAndMap : Prop :=
  ∀ (s : State) (e : MapEntry) (rest : List MapEntry) (m : Fin 7) (kind : Fin 10) (inst sub : BitVec 8) (v : Word) (bank : Fin 32)
    (col : Bool),
  let u := subOf kind.val sub.toNat
  let key := (if m = 4 then 8 else m.val, kind.val, inst.toNat, u)
  (s.grg.pend = [] → exec .mapAdd s = .next s) ∧
  (s.grg.pend = e :: rest → Completes .mapAdd s fun t =>
    t.grg.map = s.grg.map ++ [e] ∧ t.grg.pend = rest ∧ t.grg.mapVersion = s.grg.mapVersion + 1 ∧ t.get GRG_INT_MAP_ADD = 1 ∧
      (e.byFw = true → t.get GRG_STATUS_BUSY = 0 ∧ t.get GRG_STATUS_RESULT = 1)) ∧
  (monWarn m v = false → monWorn m v = false → Completes (.wearMonitorSample m kind inst sub v) s fun t =>
    t.grg.warned = s.grg.warned.filter (· != key) ∧ t.grg.dismissed = s.grg.dismissed.filter (· != key) ∧ t.grg.props = s.grg.props ∧
    OnlyRegs [GRG_MON_WORST m.val] s t) ∧
  (monWarn m v = true → monWorn m v = false → s.grg.warned.contains key = false →
    Completes (.wearMonitorSample m kind inst sub v) s fun t => t.get GRG_INT_WARN = 1 ∧
      t.grg.warned = s.grg.warned ++ [key] ∧ t.grg.props = s.grg.props ∧
      Journals 0x30 (kind.val + 2 ^ 4 * m.val + 2 ^ 8 * inst.toNat) (payload2 v.toNat u) s t) ∧
  (monWorn m v = true → kind.val < 8 → s.retired kind.val inst.toNat u = false →
    (∀ e ∈ s.grg.dismissed, e.2 ≠ (kind.val, inst.toNat, u)) → Unproposed s kind.val inst.toNat u →
    (∃ p : Fin 8, s.grg.props[p] = none) → Completes (.wearMonitorSample m kind inst sub v) s fun t =>
      t.get GRG_INT_PROPOSAL = 1 ∧ ∃ p : Fin 8, s.grg.props[p] = none ∧
        t.grg.props[p] = some ⟨kind.val, u, inst.toNat, 1, m.val⟩ ∧ ∀ r, r ≠ p → t.grg.props[r] = s.grg.props[r]) ∧
  (s.get GRG_CFG_AUTO_HARD = 1 → s.mapFull = false → s.retired (if col then 6 else 5) bank.val inst.toNat = false →
    Completes (.sramError col bank inst true) s fun t => Sets [] s t ∧ t.grg.pend = s.grg.pend ++
      [⟨if col then 6 else 5, inst.toNat, bank.val, s.spareFor (if col then 6 else 5) bank.val inst.toNat, true, false⟩]) ∧
  (s.grg.errs = [] → Completes (.sramError col bank inst false) s fun t =>
    OnlyRegs [GRG_MON_WORST 6] s t ∧ t.grg.pend = s.grg.pend ∧ t.grg.props = s.grg.props ∧
      t.grg.errs = [((if col then 6 else 5, bank.val, inst.toNat), s.moduleTime / 86400000000000, 1)]) ∧
  Completes .wearSample s fun t => Sets (s.jrnlLoss 7) s t ∧ t.grg.records = s.grg.records + 1 ∧
    (s.met.entriesOpen = true → s.crossing + 8 ≤ 64 → ∃ r : JRec, t.met.jq = s.met.jq ++ [r] ∧ r.typ = 0x35 ∧ r.cont.length = 7)

/-! ### Window comparators and the Sitter -/

/-- R208, R210 to R214, R218, R220: a comparator's output asserts or returns, on a side that its sense watches and where its majority
filter lets the change through: it is recorded only, held by blanking, captured by a privileged unit, or it cuts the pairs its unit guards
and, with CLASS 1, stops the block. -/
def Obligations.WindowComparatorOutputs : Prop :=
  ∀ (s : State) (n : Fin 44) (side : WinSide) (seen : BitVec 15) (idle : BitVec 16),
  let w := s.wins[n]
  let watched := ¬(s.get (WIN_CFG_SENSE n) = 1 ∧ side = .below) ∧ ¬(s.get (WIN_CFG_SENSE n) = 2 ∧ side = .above)
  let felt := if watched then side else .inside
  let fits := s.get (WIN_CFG_FILT n) = 0 ∨
    s.get (WIN_CFG_MAJ_M n) ≤ (List.range (s.get (WIN_CFG_MAJ_N n))).countP fun i => seen.toNat.testBit i
  let crosses := felt ≠ .inside ∧ fits
  let up := Instr.winAssert n ⟨side, seen, idle⟩
  let back := Instr.winDeassert ⟨n, seen⟩
  let priv := isPrivUnit n = true
  let acts := w.enabled = true ∧ w.blank = false ∧ s.get (WIN_STATUS_FORCED n) = 0 ∧ w.testing = false
  let state := s.get (WIN_STATUS_STATE n)
  let level := bitOf (side != .inside)
  let changes := fun (side : WinSide) (t : State) => t.get (WIN_STATUS_STATE n) = side.code ∧ t.get (WIN_CAP_EPOCH_CNT n) = s.mod.epochCnt % 2 ^ 32 ∧
    t.get (WIN_CAP_COUNT_COUNT n) = (s.get (WIN_CAP_COUNT_COUNT n) + 1) % 2 ^ 32 ∧ t.wins[n].capUnread = true ∧
    (w.capUnread = true → t.get (WIN_STATUS_CAP_OVR n) = 1) ∧ (w.capUnread = false → t.get (WIN_STATUS_CAP_OVR n) = s.get (WIN_STATUS_CAP_OVR n)) ∧
    (s.get (WIN_CTRL_IRQ n) = 1 → t.bitAt WIN_INT_EDGE (n.val - 32) = true) ∧ (s.get (WIN_CFG_IRQ_WAKE n) = 1 → t.pwr.wakeDue = true)
  let runs := fun (c : Instr) => Completes c s fun t => t.wins[n].raw = side.code ∧
    (w.enabled = false → Sets [] s t) ∧
    (w.enabled = true → w.blank = true → Sets [] s t ∧ t.wins[n].blankHeld = some side.code) ∧
    (w.enabled = true → w.blank = false → s.get (WIN_STATUS_FORCED n) = 1 ∨ w.testing = true → Sets [] s t) ∧
    (acts → t.get (WIN_STATUS_ASSERTED n) = level) ∧
    (acts → ¬priv → t.get (WIN_STATUS_STATE n) = side.code) ∧
    (acts → priv → state = 2 ∨ state = side.code → Sets [(WIN_STATUS_ASSERTED n, level)] s t)
  (crosses → runs up) ∧ (¬crosses → exec up s = .next s) ∧
  (side = .inside → fits → runs back) ∧ (¬fits → exec back s = .next s) ∧
  (crosses → acts → priv → state ≠ 2 → state ≠ side.code → Completes up s (changes side)) ∧
  (side = .inside → fits → acts → priv → state ≠ 2 → state ≠ 0 → Completes back s (changes side)) ∧
  (side = .inside → fits → acts → ¬priv → Completes back s (Sets [(WIN_STATUS_STATE n, 0), (WIN_STATUS_ASSERTED n, 0)] s)) ∧
  (∀ k, crosses → acts → ¬priv → s.fired = true → s.lineOf n = some k → Completes up s fun t =>
    (∀ p ∈ s.guarded k, t.mod.pairs[p].cycleTrip = true ∧ t.bitAt SIT_TRIP_PAIR_STAT p = true ∧ t.get SIT_INT_TRIP = 1) ∧
    (s.get (SIT_ROUTE_CLASS k) = 1 → s.up .mod = true → Stops .trip s t) ∧
    (s.get (SIT_ROUTE_CLASS k) = 0 → t.get SIT_CAUSE_CAUSE = s.get SIT_CAUSE_CAUSE)) ∧
  (crosses → acts → ¬priv → s.fired = false ∨ s.lineOf n = none → Completes up s
    (Sets [(WIN_STATUS_STATE n, side.code), (WIN_STATUS_ASSERTED n, 1)] s)) ∧
  (w.blankHeld = none → Completes (.winBlankEnd ⟨n, idle⟩) s fun t => Sets [] s t ∧ t.wins[n] = { w with blank := false }) ∧
  (w.blankHeld = some side.code →
    let u := s.onWin n fun w => { w with blank := false, blankHeld := none }
    Completes (.winBlankEnd ⟨n, idle⟩) s (fun t => t.wins[n].raw = side.code ∧ t.wins[n].blank = false ∧ t.wins[n].blankHeld = none) ∧
    (crosses → exec (.winBlankEnd ⟨n, idle⟩) s = exec up u) ∧
    (side = .inside → fits → idle = 0 → exec (.winBlankEnd ⟨n, idle⟩) s = exec back u)) ∧
  let moved := Instr.winStateChange n ⟨side, seen, idle⟩
  let felt01 := bitOf (felt != .inside)
  (¬priv ∨ ¬fits → exec moved s = .next s) ∧
  (priv → fits → Completes moved s fun t => t.wins[n].raw = felt.code ∧
    (w.enabled = false → Sets [] s t) ∧
    (w.enabled = true → w.blank = true → Sets [] s t ∧ t.wins[n].blankHeld = some felt.code) ∧
    (w.enabled = true → w.blank = false → s.get (WIN_STATUS_FORCED n) = 1 ∨ w.testing = true → Sets [] s t) ∧
    (acts → state = 2 ∨ state = felt.code → Sets [(WIN_STATUS_ASSERTED n, felt01)] s t) ∧
    (acts → state ≠ 2 → state ≠ felt.code → changes felt t ∧ t.get (WIN_STATUS_ASSERTED n) = felt01))

/-- R208, R213, R215, R216, R218: writes of THR, releases, self-tests and shadows of a comparator; a forced unit is released on the safe
side only and not during its test; a privileged unit is reconnected and its shadow withdrawn when its test ends, and a shadow enabled over a
trip unit cuts the pairs that unit guards. -/
def Obligations.WindowComparatorCare : Prop :=
  ∀ (s : State) (n : Fin 44),
  let w := s.wins[n]
  let priv := isPrivUnit n = true
  let refusal := (WIN_STATUS_REFUSED_WR n, s.counted (WIN_STATUS_REFUSED_WR n))
  (∀ v : Word, s.takes (.winThrWrite n v) →
    let upper := v.toNat / 2 ^ 16 % 4096
    let lower := v.toNat % 4096
    let fine := upper ≤ s.get (WIN_THR_LIM_UPPER_MAX n) ∧ s.get (WIN_THR_LIM_LOWER_MIN n) ≤ lower
    let thr := fun (k : Nat) => [(WIN_THR_UPPER k, upper), (WIN_THR_LOWER k, lower), (WIN_THR_HYST k, v.toNat / 2 ^ 12 % 8)]
    (¬fine → Completes (.winThrWrite n v) s (Sets [refusal] s)) ∧
    (fine → w.shadow = none → Completes (.winThrWrite n v) s (Sets (thr n) s)) ∧
    ∀ x : Fin 44, fine → w.shadow = some x.val → Completes (.winThrWrite n v) s (Sets (thr n ++ thr x) s)) ∧
  (∀ side : WinSide,
    let felt := s.sensed n side
    (w.enabled = false ∨ s.get (WIN_STATUS_TEST_BUSY n) = 1 → exec (.winRelease n side) s = .next s) ∧
    (w.enabled = true → s.get (WIN_STATUS_TEST_BUSY n) = 0 → priv → s.get (WIN_STATUS_STATE n) = 2 → Completes (.winRelease n side) s
      (Sets [(WIN_STATUS_STATE n, felt.code), (WIN_STATUS_ASSERTED n, bitOf (felt != .inside))] s)) ∧
    (priv → s.get (WIN_STATUS_STATE n) ≠ 2 → exec (.winRelease n side) s = .next s) ∧
    (¬priv → s.get (WIN_STATUS_FORCED n) = 0 ∨ felt ≠ .inside → exec (.winRelease n side) s = .next s) ∧
    (w.enabled = true → s.get (WIN_STATUS_TEST_BUSY n) = 0 → ¬priv → s.get (WIN_STATUS_FORCED n) = 1 → felt = .inside → w.testing = false → Completes (.winRelease n side) s
      (Sets [(WIN_STATUS_FORCED n, 0), (WIN_STATUS_ASSERTED n, 0), (WIN_STATUS_STATE n, felt.code)] s)) ∧
    (∀ x : Fin 44, w.enabled = true → s.get (WIN_STATUS_TEST_BUSY n) = 0 → ¬priv → s.get (WIN_STATUS_FORCED n) = 1 → felt = .inside →
      w.testing = true → w.shadow = some x.val → x ≠ n →
      Completes (.winRelease n side) s fun t =>
        Sets [(WIN_STATUS_FORCED n, 0), (WIN_STATUS_ASSERTED n, 0), (WIN_STATUS_STATE n, felt.code), (WIN_STATUS_SHADOW_OK n, 0),
          (WIN_STATUS_FORCED x, 0), (WIN_STATUS_ASSERTED x, 0)] s t ∧
        t.wins[n] = { w with testing := false, shadow := none } ∧ t.wins[x] = { s.wins[x] with shadowOf := none, enabled := false })) ∧
  (s.takes (.selftest n) →
    (s.selftestRefused n = true → Completes (.selftest n) s fun t => Sets [(WIN_STATUS_TEST_RESULT n, 3), refusal] s t ∧ t.wins = s.wins) ∧
    (s.selftestRefused n = false → Completes (.selftest n) s fun t =>
      Sets [(WIN_STATUS_TEST_BUSY n, 1)] s t ∧ t.wins[n] = { w with testing := true })) ∧
  (∀ up down : Nat,
    (s.get (WIN_STATUS_TEST_BUSY n) = 0 → exec (.selftestDone n up down) s = .next s) ∧
    (s.get (WIN_STATUS_TEST_BUSY n) = 1 → Completes (.selftestDone n up down) s fun t =>
      t.get (WIN_STATUS_TEST_BUSY n) = 0 ∧ t.get (WIN_STATUS_TEST_OFS n) = unsigned 8 (testOfs up down) ∧
      t.get (WIN_STATUS_TEST_RESULT n) = (if testPass (s.get (WIN_THR_HYST n)) up down then 1 else 2) ∧
      t.get (WIN_STATUS_ASSERTED n) = 0 ∧ (¬priv → t.get (WIN_STATUS_FORCED n) = 1) ∧
      (¬priv ∨ w.shadow ≠ some n.val → t.wins[n].enabled = true) ∧ (¬priv → t.wins[n].shadow = w.shadow) ∧
      (priv → t.get (WIN_STATUS_STATE n) = 2 ∧ t.wins[n].testing = false ∧ t.wins[n].shadow = none ∧
        ∀ x : Fin 44, w.shadow = some x.val → t.wins[x].shadowOf = none ∧ t.wins[x].enabled = false ∧ t.get (WIN_STATUS_FORCED x) = 0))) ∧
  (s.takes (.shadow n) →
    let lent := spares.find? fun x => s.wins[x].shadowOf.isNone && s.grogSpareWin x
    (lent = none ∨ w.shadow.isSome = true ∨ 40 ≤ n.val → Completes (.shadow n) s fun t => Sets [refusal] s t ∧ t.wins = s.wins) ∧
    ∀ x, lent = some x → w.shadow = none → n.val < 40 → Completes (.shadow n) s fun t =>
      t.wins[n].shadow = some x.val ∧ t.wins[x].shadowOf = some n.val ∧ t.wins[x].enabled = true ∧
      t.get (WIN_CFG_EN x).whole = s.get (WIN_CFG_EN n).whole ∧ t.get (WIN_THR_UPPER x).whole = s.get (WIN_THR_UPPER n).whole ∧
      t.get (WIN_STATUS_SPARE n) = x.val - 40 ∧ t.get (WIN_STATUS_FORCED x) = 1 ∧
      (isTripUnit n = true → s.fired = true → ∀ p ∈ s.guarded n.val, t.mod.pairs[p].cycleTrip = true)) ∧
  (w.shadow = none → exec (.shadowReady n) s = .next s) ∧
  (∀ x, w.shadow = some x → (s.get (WIN_STATUS_FORCED x) = 1 → exec (.shadowReady n) s = .next s) ∧
    (s.get (WIN_STATUS_FORCED x) = 0 → Completes (.shadowReady n) s (Sets [(WIN_STATUS_SHADOW_OK n, 1)] s)))

/-- R226: CLEAR_STOP is refused whole and counted while a latched cause is active, and otherwise clears the causes and the stop, while a
safe order under way keeps its stage; one write that sets both STOP and CLEAR_STOP raises the stop and counts the refused clear. Nothing else changes, the channels' flags and the
pairs' trip statuses among it. -/
def Obligations.ClearStopFollowsTheCauses : Prop :=
  ∀ s : State,
  (s.takes .clearStop →
    (s.activeCauses ≠ 0 → Completes .clearStop s fun t => t.sit = s.sit ∧ SameMemory s t ∧
      Sets [(SIT_REFUSED_COUNT, s.counted SIT_REFUSED_COUNT), (SIT_INT_REFUSED, 1)] s t) ∧
    (s.activeCauses = 0 → Completes .clearStop s fun t => SameMemory s t ∧
      Sets [(SIT_CAUSE_CAUSE, 0), (SIT_FIRST_VALID, 0), (SIT_FIRST_DETAIL, 0), (SIT_FIRST_CODE, 0), (SIT_STATUS_BLOCK_STOP, 0),
        (SIT_STATUS_SAFE_DONE, 0), (SIT_STATUS_STAGE, if s.sit.orderTiles = [] then 0 else s.get SIT_STATUS_STAGE)] s t)) ∧
  (s.takes (.stop true) → Completes (.stop true) s fun t =>
    t.get SIT_STATUS_BLOCK_STOP = 1 ∧ t.get SIT_REFUSED_COUNT = s.counted SIT_REFUSED_COUNT)

/-- R148, R221, R223, R225, R227: STOP and the safe order it starts, the plant stop, and the clearing of PAIR_STAT. -/
def Obligations.StopsAndTheSafeOrder : Prop :=
  ∀ s : State,
  let refused := [(SIT_REFUSED_COUNT, s.counted SIT_REFUSED_COUNT), (SIT_INT_REFUSED, 1)]
  (∀ both : Bool, s.takes (.stop both) → Completes (.stop both) s fun t => Stops .firmware s t ∧
    (both = true → t.get SIT_REFUSED_COUNT = s.counted SIT_REFUSED_COUNT ∧ t.get SIT_INT_REFUSED = 1) ∧
    (both = false → t.get SIT_REFUSED_COUNT = s.get SIT_REFUSED_COUNT) ∧
    (s.get SIT_STATUS_BLOCK_STOP = 0 → (∀ p : Fin 9, t.mod.pairs[p].stopHold = true) ∧
      (∀ n : Fin 9, n.val ∈ t.sit.orderTiles ↔ s.get (SET_STATUS_ARMED n) = 1) ∧
      (t.sit.orderTiles = [] → t.get SIT_STATUS_SAFE_DONE = 1) ∧ (t.sit.orderTiles ≠ [] → t.get SIT_STATUS_STAGE = 1))) ∧
  (s.get SIT_STATUS_STAGE ≠ 1 → exec .safeOrderStage2 s = .next s) ∧
  (s.get SIT_STATUS_STAGE = 1 → Completes .safeOrderStage2 s fun t => t.get SIT_STATUS_STAGE = 2 ∧
    ∀ (n : Fin 9) (c : Fin 2),
      let turnsOff := (s.chan n c).stopDue = true ∧ s.get (SET_CH_STATUS_ON n c) = 1
      (turnsOff → t.get (SET_CH_STATUS_ON n c) = 0 ∧ t.get (SET_CH_STATUS_CLAMP n c) = 1) ∧
      (¬turnsOff → t.get (SET_CH_STATUS_ON n c) = s.get (SET_CH_STATUS_ON n c) ∧ t.chan n c = s.chan n c)) ∧
  (∀ n : Fin 9,
    let due := n.val ∈ s.sit.orderTiles ∧ s.tileOff n = true
    let rest := s.sit.orderTiles.filter (· != n.val)
    (¬due → exec (.safeOrderTileDone n) s = .next s) ∧
    (due → Completes (.safeOrderTileDone n) s fun t => t.sit.orderTiles = rest ∧ t.get (SET_STATUS_ARMED n) = 0 ∧
      (rest = [] → t.get SIT_STATUS_SAFE_DONE = 1 ∧ t.get SIT_STATUS_STAGE = 3 ∧ t.get SET_FAULT_SNAP_COMPLETE = 1) ∧
      (rest ≠ [] → t.get SIT_STATUS_SAFE_DONE = s.get SIT_STATUS_SAFE_DONE ∧ t.get SIT_STATUS_STAGE = s.get SIT_STATUS_STAGE))) ∧
  (s.takes .plantStop →
    (s.isManager = false → Completes .plantStop s fun t => Sets [] s t ∧ t.sit = s.sit ∧ t.outbox = s.outbox) ∧
    (s.isManager = true → Completes .plantStop s fun t => t.sit.plantFw = true ∧ Sets [(SIT_STATUS_PLANT_OUT, 1)] s t ∧
      t.outbox = if s.get SIT_STATUS_PLANT_OUT = 0 then s.outbox ++ s.plantLanes.map (fun l => .unit .stop l 0) else s.outbox)) ∧
  (s.takes .clearPlant →
    let others := (s.withSit { s.sit with plantFw := false }).plantCause = true ∨ s.glz.firePlantCause = true
    (s.isManager = false → Completes .clearPlant s fun t => Sets [] s t ∧ t.sit = s.sit) ∧
    (s.isManager = true → others → Completes .clearPlant s fun t => Sets refused s t ∧ t.sit = s.sit) ∧
    (s.isManager = true → ¬others → Completes .clearPlant s fun t => Sets [(SIT_STATUS_PLANT_OUT, 0)] s t ∧ t.sit.plantFw = false)) ∧
  ∀ mask : BitVec 9, s.takes (.pairStatClear mask) → Completes (.pairStatClear mask) s fun t =>
    OnlyRegs [SIT_TRIP_PAIR_STAT, SIT_REFUSED_COUNT, SIT_INT_REFUSED] s t ∧
    (∀ p : Fin 9, t.bitAt SIT_TRIP_PAIR_STAT p =
      if mask.toNat.testBit p && !s.tripInput p then false else s.bitAt SIT_TRIP_PAIR_STAT p) ∧
    ((∃ p : Fin 9, mask.toNat.testBit p = true ∧ s.tripInput p = true) → t.get SIT_INT_REFUSED = 1) ∧
    ((∀ p : Fin 9, mask.toNat.testBit p = true → s.tripInput p = false) → t.get SIT_REFUSED_COUNT = s.get SIT_REFUSED_COUNT)
/-! ### The meter and the journal -/

/-- R243 to R245, R249 to R251, R253: gain changes at a sample boundary, the totals reset that waits for one, the end of a basic interval
with its quantities and the intervals whose boundary has passed, and the events of the METER island. -/
def Obligations.MeterSamplesAndEvents : Prop :=
  ∀ s : State,
  let on := s.up .meter = true ∧ s.get MET_CFG_EN = 1
  (∀ o : MeterObs,
    (¬on → exec (.meterSample o) s = .next s) ∧
    (on → Completes (.meterSample o) s fun t => t.met.boundary = s.moduleTime ∧ t.met.dirKnown = true ∧ t.met.newScale = false ∧
      (∀ c : Fin 4,
        let g := s.met.gains[c]
        let m := if g.settle ≠ 0 then g.main else if g.downDue = true ∧ 0 < g.main then g.main - 1 else if g.upAt then g.main + 1 else g.main
        t.met.gains[c].main = m ∧ t.met.last.getD c.val 0 = o.main[c.val].toInt ∧
        t.met.last.getD (4 + c.val) 0 = if m = g.main then o.main[4 + c.val].toInt else o.second[c].toInt) ∧
      (s.met.resetDue = true → s.pfSaving = false → t.met.accs = List.replicate 64 0 ∧ t.met.resetDue = false ∧
        t.get MET_STATUS_SAVING = 1 ∧
        t.met.saving = some { pf := false, accs := List.replicate 64 0, time := s.moduleTime, totalsReset := true }) ∧
      (s.met.resetDue = false ∨ s.pfSaving = true → t.met.saving = s.met.saving ∧ t.met.resetDue = s.met.resetDue))) ∧
  (∀ c : Fin 4,
    (s.met.gains[c].settle = 1 → Completes (.gainSettled c) s fun t => Sets [] s t ∧ t.met.gains[c] = { s.met.gains[c] with settle := 0 }) ∧
    (s.met.gains[c].settle ≠ 1 → exec (.gainSettled c) s = .next s)) ∧
  (¬on → exec .pqIntervalEnd s = .next s) ∧
  (on → Completes .pqIntervalEnd s fun t =>
    let seq := fun (i : Nat) => (s.get (MET_AGG_STAT_SEQ i) + 1) % 2 ^ 16
    t.get MET_HARM_SEQ_SEQ = (s.get MET_HARM_SEQ_SEQ + 1) % 2 ^ 32 ∧ t.get (MET_AGG_STAT_SEQ 0) = seq 0 ∧
    t.get (MET_AGG_STAT_FLAGGED 0) = bitOf (s.met.aggFlag.getD 0 false) ∧
    (14 ≤ s.met.aggCount → t.get (MET_AGG_STAT_SEQ 1) = seq 1 ∧ t.met.aggCount = 0) ∧
    (s.met.aggCount < 14 → t.get (MET_AGG_STAT_SEQ 1) = s.get (MET_AGG_STAT_SEQ 1) ∧ t.met.aggCount = s.met.aggCount + 1) ∧
    t.met.aggAt = some (s.aggSeconds / 600, s.aggSeconds / 7200, s.aggSeconds / 10) ∧ t.met.frame = [] ∧
    t.met.aggBase = some (s.ptpValid, s.aggSeconds) ∧
    (∀ a, s.met.aggAt = some a → s.aggStepped = false →
      t.get (MET_AGG_STAT_SEQ 2) = (if a.1 = s.aggSeconds / 600 then s.get (MET_AGG_STAT_SEQ 2) else seq 2) ∧
      t.get (MET_AGG_STAT_SEQ 3) = (if a.2.1 = s.aggSeconds / 7200 then s.get (MET_AGG_STAT_SEQ 3) else seq 3)) ∧
    (s.met.aggAt = none ∨ s.aggStepped = true → t.get (MET_AGG_STAT_SEQ 2) = s.get (MET_AGG_STAT_SEQ 2) ∧
      t.get (MET_AGG_STAT_SEQ 3) = s.get (MET_AGG_STAT_SEQ 3)) ∧ t.met.freq = s.met.freq ∧
    ∀ (q : Fin 18) (p : Fin 4), (valZero (s.get MET_CFG_ARR) 0 q p = true → t.get (MET_VAL_VALUE 0 q p) = 0) ∧
      ∀ v, valZero (s.get MET_CFG_ARR) 0 q p = false → s.quantity (s.basicSum s.free) q p = some v →
        t.get (MET_VAL_VALUE 0 q p) = v.toNat) ∧
  (∀ b : Bool,
    let was := fun (f : Fld) => s.get f = b.toNat
    (¬on ∨ was MET_STATUS_WRONG_SEQ → exec (.meterWrongSeq b) s = .next s) ∧
    (on → ¬was MET_STATUS_WRONG_SEQ → Completes (.meterWrongSeq b) s fun t => Journals 0x10 b.toNat 0 s t ∧
      Sets ([(MET_STATUS_WRONG_SEQ, b.toNat), (MET_EVENT_WRONG_SEQ, if b then 1 else s.get MET_EVENT_WRONG_SEQ)] ++ s.jrnlLoss 0) s t) ∧
    ∀ v0 : Nat,
      (¬on ∨ s.get MET_CFG_ARR = 1 ∨ was MET_STATUS_MISS_N → exec (.meterMissN b v0) s = .next s) ∧
      (on → s.get MET_CFG_ARR ≠ 1 → ¬was MET_STATUS_MISS_N → Completes (.meterMissN b v0) s fun t => Journals 0x11 b.toNat v0 s t ∧
        Sets ([(MET_STATUS_MISS_N, b.toNat), (MET_EVENT_MISS_N, if b then 1 else s.get MET_EVENT_MISS_N)] ++ s.jrnlLoss 0) s t)) ∧
  ∀ (p : Fin 3) (v : Word),
    let exports := flt v (fneg s.reverseLimit) = true
    let turns := (exports ∧ s.bitAt MET_STATUS_DIR p = false) ∨ (flt s.reverseLimit v = true ∧ s.bitAt MET_STATUS_DIR p = true)
    (¬on ∨ ¬turns → exec (.reverseFlow p v) s = .next s) ∧
    (on → turns → Completes (.reverseFlow p v) s fun t => OnlyRegs ([MET_STATUS_DIR, MET_EVENT_REVFLOW] ++ (s.jrnlLoss 0).map (·.1)) s t ∧
      (t.bitAt MET_STATUS_DIR p = true ↔ exports) ∧ t.bitAt MET_EVENT_REVFLOW p = true ∧
      (∀ j : Fin 3, j ≠ p → t.bitAt MET_STATUS_DIR j = s.bitAt MET_STATUS_DIR j) ∧
      Journals 0x12 (p.val + 2 ^ 8 * (if exports then 1 else 0)) v.toNat s t)

/-- R254 to R259, R273, R382: the saves of the totals and their resumption, and the way of a record from the crossing into the journal. A
save that meets a bad ferroelectric sector stands if a spare takes its place (log entry 135). -/
def Obligations.SavesAndTheJournal : Prop :=
  ∀ s : State,
  let second := s.moduleTime / 1000000000
  let saves := s.up .meter = true ∧ s.met.saving = none ∧ ∀ r ∈ s.met.saved, ¬(r.1 ≤ second ∧ second ≤ r.2)
  (saves → Completes .periodicSave s fun t => Sets [(MET_STATUS_SAVING, 1)] s t ∧ t.met.saved = addSecond second s.met.saved ∧
    t.met.saving = some { pf := false, accs := s.met.accs, time := s.met.boundary }) ∧
  (¬saves → exec .periodicSave s = .next s) ∧
  (s.met.saving = none → exec .saveComplete s = .next s) ∧
  (∀ r, s.met.saving = some r →
    let seq := s.get MET_SAVE_SEQ_SEQ + 1
    let bad := badSector s.freeWord
    let c : SaveCopy := { accs := r.accs, seq := seq, time := r.time, pf := r.pf, crcOk := s.sectorKept bad }
    let done := Instr.saveComplete
    let saved := [(MET_STATUS_SAVING, 0), (MET_SAVE_SEQ_SEQ, seq % 2 ^ 32), (MET_SAVE_TIME_TIME, r.time % 2 ^ 64)]
    let stored := fun (t : State) => t.met.saving = none ∧ t.met.accs = s.met.accs ∧
      t.met.copies = if olderFirst s.met.copies then (c, s.met.copies.2) else (s.met.copies.1, c)
    (Completes done s fun t => stored t ∧ t.get MET_STATUS_SAVING = 0 ∧ t.get MET_SAVE_SEQ_SEQ = seq % 2 ^ 32 ∧
      (r.pf = true → t.get MET_STATUS_PF_SAVED = 1) ∧
      (∀ i : BitVec 8, bad = some i → s.get GRG_CFG_AUTO_HARD = 1 → s.mapFull = false → s.retired 7 i.toNat 0 = false →
        t.grg.pend = s.grg.pend ++ [⟨7, 0, i.toNat, s.spareFor 7 i.toNat 0, true, false⟩])) ∧
    (r.pf = false → r.totalsReset = false → Completes done s fun t => bad = none → Sets saved s t ∧ t.met.jq = s.met.jq) ∧
    (r.pf = true → r.totalsReset = false → Completes done s fun t => bad = none →
      Sets (saved ++ [(MET_STATUS_PF_SAVED, 1)] ++ s.jrnlLoss 0) s t ∧ Journals 0x03 1 seq s t) ∧
    (r.pf = false → r.totalsReset = true → Completes done s fun t => bad = none →
      Sets (saved ++ s.jrnlLoss 0) s t ∧ Journals 0x04 0 seq s t) ∧
    (r.pf = true → r.totalsReset = true → s.met.entriesOpen = true → s.crossing ≤ 62 → Completes done s fun t => bad = none →
      Sets (saved ++ [(MET_STATUS_PF_SAVED, 1)]) s t ∧ t.met.jq = s.met.jq ++
        [⟨0x03, 1, seq, [], s.moduleTime, s.ptpValid, s.sag.heldLoss⟩, ⟨0x04, 0, seq, [], s.moduleTime, s.ptpValid, false⟩])) ∧
  (s.up .meter = false ∨ latestSave s.met.copies = none → exec .meterResume s = .next s) ∧
  (∀ c, s.up .meter = true → latestSave s.met.copies = some c →
    (c.pf = true → Completes .meterResume s fun t => Sets [] s t ∧ t.met = { s.met with accs := c.accs }) ∧
    (c.pf = false → Completes .meterResume s fun t => Sets [(MET_STATUS_BOOT_GAP, 1)] s t ∧ t.met.accs = c.accs ∧
      let gap : JRec := ⟨0x02, c.seq % 2 ^ 16, c.time, [], s.moduleTime, s.ptpValid, false⟩
      let placed := fun (l m : List JRec) => ((∀ r ∈ l, r.typ ≠ 1) → m = gap :: l) ∧
        ∀ before boot after, l = before ++ boot :: after → boot.typ = 1 → (∀ r ∈ after, r.typ ≠ 1) → m = before ++ boot :: gap :: after
      (s.met.entriesOpen = true → placed s.met.jq t.met.jq) ∧
      (s.met.entriesOpen = false → t.met.gap = some gap))) ∧
  (s.met.jq = [] → exec .journalEntry s = .next s) ∧
  (∀ r rest, s.met.jq = r :: rest →
    let n := 1 + r.cont.length
    let room := if 1 ≤ r.typ ∧ r.typ ≤ 3 then 64 else 60
    let seq := s.get MET_JRNL_HEAD_SEQ
    (room < s.met.jbuf.length + n → Completes .journalEntry s fun t =>
      Sets [(MET_JRNL_LOST_COUNT, s.counted MET_JRNL_LOST_COUNT), (MET_EVENT_JRNL_LOST, 1)] s t ∧
      t.met = { s.met with jq := rest, lossDue := true }) ∧
    (s.met.jbuf.length + n ≤ room → Completes .journalEntry s fun t => Sets [(MET_JRNL_HEAD_SEQ, (seq + n) % 2 ^ 32)] s t ∧
      t.met.jq = rest ∧ t.met.lossDue = false ∧ t.met.jbuf.length = s.met.jbuf.length + n ∧
      (∀ i, i < s.met.jbuf.length → t.met.jbuf[i]? = s.met.jbuf[i]?) ∧
      t.met.jbuf[s.met.jbuf.length]? =
        some (entryWords r.time seq r.typ (bitOf r.timeValid + 2 * bitOf (r.cont.length != 0) + 4 * bitOf (r.loss || s.met.lossDue)) r.detail r.payload))) ∧
  (s.takes .jrnlCommit →
    let typ := s.get MET_JRNL_WR0_TYPE
    (typ < 0x80 → Completes .jrnlCommit s fun t => t.met = s.met ∧
      Sets [(MET_JRNL_LOST_COUNT, s.counted MET_JRNL_LOST_COUNT), (MET_EVENT_JRNL_LOST, 1)] s t) ∧
    (0x80 ≤ typ → Completes .jrnlCommit s fun t => Sets (s.jrnlLoss 0) s t ∧
      Journals typ (s.get MET_JRNL_WR0_DETAIL) (payload2 (s.get (MET_JRNL_WR_PAYLOAD 1)) (s.get (MET_JRNL_WR_PAYLOAD 2))) s t))
/-! ### The clock islands -/

/-- R264, R266, R267, R269 to R274: the reference, enabling and configuring a PLL, lock and holdover, and the steps of a divider; a hop step
that holdover stops halfway reads PENDING. -/
def Obligations.ClocksAndPlls : Prop :=
  ∀ (s : State) (n : Fin 7),
  let refused := [(CLK_REFUSED_COUNT, s.counted CLK_REFUSED_COUNT), (CLK_INT_REFUSED, 1)]
  let held := fun (k : Fin 7) (t : State) => t.get (CLK_PLL_STATUS_LOCK k) = 0 ∧ t.get (CLK_PLL_STATUS_HOLDOVER k) = 1 ∧
    t.get (CLK_PLL_HOLDS_COUNT k) = s.counted (CLK_PLL_HOLDS_COUNT k) ∧ t.clk[k].refHold = true ∧ t.get CLK_INT_HOLDOVER = 1
  let hold := s.get (CLK_PLL_STATUS_HOLDOVER n)
  let x := s.clk[n]
  (s.get CLK_REF_LOST = 1 → exec .refLost s = .next s) ∧
  (s.get CLK_REF_LOST = 0 → Completes .refLost s fun t =>
    t.get CLK_REF_LOST = 1 ∧ t.get CLK_REF_VALID = 0 ∧ t.get CLK_INT_REF_LOST = 1 ∧
    ∀ k : Fin 7, (s.get (CLK_PLL_STATUS_ON k) = 1 → s.get (CLK_PLL_STATUS_HOLDOVER k) = 0 → held k t) ∧
      (s.get (CLK_PLL_STATUS_ON k) = 0 → t.get (CLK_PLL_STATUS_ON k).whole = s.get (CLK_PLL_STATUS_ON k).whole ∧ t.clk[k] = s.clk[k])) ∧
  Completes .refValid s (Sets [(CLK_REF_LOST, 0), (CLK_REF_VALID, 1)] s) ∧
  (s.takes (.pllEnWrite n true) →
    (s.get (CLK_PLL_CTRL_EN n) = 1 → Completes (.pllEnWrite n true) s (Sets [] s)) ∧
    (s.get (CLK_PLL_CTRL_EN n) = 0 → s.pllOk n = false → Completes (.pllEnWrite n true) s fun t => Sets refused s t ∧ t.clk = s.clk) ∧
    (s.get (CLK_PLL_CTRL_EN n) = 0 → s.pllOk n = true →
      (s.get CLK_REF_LOST = 0 → Completes (.pllEnWrite n true) s
        (Sets [(CLK_PLL_CTRL_EN n, 1), (CLK_PLL_STATUS_ON n, 1), (CLK_PLL_STATUS_N_NOW n, s.get (CLK_PLL_DIV_N n))] s)) ∧
      (s.get CLK_REF_LOST = 1 → hold = 0 → Completes (.pllEnWrite n true) s fun t =>
        t.get (CLK_PLL_CTRL_EN n) = 1 ∧ t.get (CLK_PLL_STATUS_ON n) = 1 ∧ held n t))) ∧
  (s.takes (.pllEnWrite n false) →
    (s.pllKept n = true → Completes (.pllEnWrite n false) s fun t => Sets refused s t ∧ t.clk = s.clk) ∧
    (s.pllKept n = false → s.get (CLK_PLL_CTRL_EN n) = 0 → Completes (.pllEnWrite n false) s (Sets [] s)) ∧
    (s.pllKept n = false → s.get (CLK_PLL_CTRL_EN n) = 1 → Completes (.pllEnWrite n false) s
      (Sets ([(CLK_PLL_CTRL_EN n, 0), ((CLK_PLL_STATUS_ON n).whole, 0), (CLK_PLL_CTRL_STEP n, 0)] ++
        if n = 3 then [(NET_PTP_STATUS_VALID, 0)] else []) s))) ∧
  (∀ (div : Bool) (v : Word), s.takes (.pllConfigWrite n div v) →
    let barred := s.get (CLK_PLL_CTRL_EN n) = 1 ∨ (div = false ∧ v.toNat / 2 ^ 4 % 4 = 3)
    (barred → Completes (.pllConfigWrite n div v) s (Sets refused s)) ∧
    (¬barred → Completes (.pllConfigWrite n div v) s (Sets (if div then [(CLK_PLL_DIV_M n, v.toNat / 2 ^ 24 % 128),
      (CLK_PLL_DIV_P n, v.toNat / 2 ^ 16 % 64), (CLK_PLL_DIV_N n, v.toNat % 2 ^ 14)] else [(CLK_PLL_CTRL_REFMODE n, v.toNat / 2 ^ 4 % 4)]) s))) ∧
  (let locks := s.get (CLK_PLL_STATUS_ON n) = 1 ∧ hold = 0 ∧ s.get CLK_REF_VALID = 1
   (locks → Completes (.pllLock n) s fun t => Sets [(CLK_PLL_STATUS_LOCK n, 1)] s t ∧ t.clk[n] = { x with everLocked := true }) ∧
   (¬locks → exec (.pllLock n) s = .next s)) ∧
  (s.get (CLK_PLL_STATUS_LOCK n) = 0 → exec (.pllLockLoss n) s = .next s) ∧
  (s.get (CLK_PLL_STATUS_LOCK n) = 1 → hold = 0 → Completes (.pllLockLoss n) s (Sets ([(CLK_PLL_STATUS_LOCK n, 0),
    (CLK_PLL_STATUS_HOLDOVER n, 1), (CLK_PLL_HOLDS_COUNT n, s.counted (CLK_PLL_HOLDS_COUNT n)), (CLK_INT_HOLDOVER, 1)] ++
    if n = 2 ∧ x.stepLeft = true then [(MOD_HOP_STATUS_PENDING, 1)] else []) s)) ∧
  (hold = 1 → s.get CLK_REF_VALID = 1 → Completes (.holdoverExit n) s fun t => Sets ([(CLK_PLL_STATUS_HOLDOVER n, 0)] ++
      if n = 2 ∧ x.stepLeft = true then [(MOD_HOP_STATUS_PENDING, bitOf s.hopPending)] else []) s t ∧
    t.clk[n] = { x with refHold := false, reacq := true }) ∧
  (hold = 0 ∨ s.get CLK_REF_VALID = 0 → exec (.holdoverExit n) s = .next s) ∧
  (x.reacq = false → exec (.pllRelock n) s = .next s) ∧
  (x.reacq = true →
    (n ≠ 2 ∨ s.mod.hopWait = false ∨ s.mod.hopDue = none → Completes (.pllRelock n) s fun t =>
      Sets [(CLK_PLL_STATUS_LOCK n, 1), (CLK_INT_RELOCK, 1)] s t ∧ t.clk[n] = { x with reacq := false, everLocked := true }) ∧
    ∀ st, n = 2 → s.mod.hopWait = true → s.mod.hopDue = some st → st ≠ s.hopStep → -8 ≤ st → st < 8 → Completes (.pllRelock n) s fun t =>
      t.get (CLK_PLL_STATUS_LOCK n) = 1 ∧ t.getI MOD_HOP_STATUS_STEP = st ∧ t.clk[n].target = (256 + st).toNat) ∧
  (∀ v : BitVec 4, s.takes (.pllStep n v) →
    let able := n = 0 ∧ s.get (CLK_PLL_STATUS_ON 0) = 1 ∧ s.get (CLK_PLL_STATUS_HOLDOVER 0) = 0 ∧ -4 ≤ v.toInt ∧ v.toInt ≤ 4
    (able → Completes (.pllStep n v) s fun t => Sets [(CLK_PLL_CTRL_STEP 0, v.toNat)] s t ∧
      t.clk[0].target = (s.get (CLK_PLL_DIV_N 0) + v.toInt).toNat ∧ (t.clk[0].stepLeft = true ↔ t.clk[0].target ≠ s.get (CLK_PLL_STATUS_N_NOW 0))) ∧
    (¬able → Completes (.pllStep n v) s fun t => Sets refused s t ∧ t.clk = s.clk)) ∧
  (let now := s.get (CLK_PLL_STATUS_N_NOW n)
   let next := if now < x.target then now + 1 else now - 1
   (x.stepLeft = true → hold = 0 → Completes (.pllStepUnit n) s fun t =>
     Sets [(CLK_PLL_STATUS_N_NOW n, next % 2 ^ 14), (CLK_PLL_STATUS_STEPPING n, 1)] s t ∧ t.clk[n] = { x with stepLeft := next != x.target }) ∧
   (x.stepLeft = false ∨ hold = 1 → exec (.pllStepUnit n) s = .next s)) ∧
  (x.stepLeft = false → Completes (.pllStepSettled n) s (Sets [(CLK_PLL_STATUS_STEPPING n, 0)] s)) ∧
  (x.stepLeft = true → exec (.pllStepSettled n) s = .next s)
/-! ### The lanes -/

/-- R277, R280 to R285, R298, R317, R320: training, loss of lock and the power states of a lane. -/
def Obligations.LaneTrainingAndPowerStates : Prop :=
  ∀ (s : State) (l : Fin 6),
  let x := s.lanes[l]
  let st := s.laneState l
  let eth := s.laneEth l = true
  let timing := [LANE_STATUS_LOOP_TIMED 0, LANE_STATUS_LOOP_TIMED 1]
  let goes := fun (g : Nat) (more : List Fld) (t : State) => t.get (LANE_STATUS_STATE l) = g ∧ t.lanes[l].req = none ∧
    t.lanes[l].waking = false ∧ OnlyRegs (LANE_STATUS_STATE l :: timing ++ more) s t ∧
    t.get (LANE_STATUS_LOOP_TIMED 0) = bitOf (t.isWorker && t.laneState 0 == 3 && !t.wlk.reversed)
  let trains := fun (more : List Fld) (t : State) => goes 2 more t ∧ t.lanes[l].attempts = 0
  let refused := [(LANE_REFUSED_COUNT l, s.counted (LANE_REFUSED_COUNT l)), (LANE_INT_REFUSED l, 1)]
  let same := fun (t : State) => Sets [] s t ∧ t.lanes = s.lanes
  (st = 1 → s.up (.serial l) = true → Completes (.trainStart l) s (trains [])) ∧
  (st ≠ 1 ∨ s.up (.serial l) = false → exec (.trainStart l) s = .next s) ∧
  (∀ (want : Bool) (pre : Fin 17) (post : Fin 33),
    (st ≠ 2 ∨ s.up (.serial l) = false → exec (.trainComplete l want pre post) s = .next s) ∧
    (st = 2 → s.up (.serial l) = true → Completes (.trainComplete l want pre post) s fun t =>
      let pam := s.get (LANE_ROLE_GEN l) ≠ 0
      t.get (LANE_STATUS_STATE l) = 3 ∧ t.get (LANE_INT_UP l) = 1 ∧ t.get (LANE_TXEQ_PRE l) = pre.val ∧ t.get (LANE_TXEQ_POST l) = post.val ∧
      t.get (LANE_TXEQ_MAIN l) = 64 - pre.val - post.val ∧ t.lanes[l].attempts = 0 ∧ t.lanes[l].fresh = false ∧
      (t.get (LANE_STATUS_PRECODE_TX l) = 1 ↔ pam ∧ want = true) ∧ (t.get (LANE_STATUS_PRECODE_RX l) = 1 ↔ pam ∧ s.get (LANE_ROLE_PRECODE_RQ l) = 1) ∧
      (∀ c : Fin 4, l.val = c.val → x.fresh = true → s.isManager = true → s.get (LANE_ROLE_ROLE l) = 4 →
        t.bitAt WLK_PLANT_STATUS_DISC_BUSY c = true ∧ t.wlk.disc[c] = { s.wlk.disc[c] with asked := some 0, found := [] } ∧
        t.outbox = s.outbox ++ [s.frameOf c { cls := 7, scope := 3, pos := 0 } 0 []]) ∧
      (x.fresh = false ∨ s.isManager = false ∨ s.get (LANE_ROLE_ROLE l) ≠ 4 → t.outbox = s.outbox))) ∧
  (st ≠ 2 ∨ s.up (.serial l) = false → exec (.trainAttemptFail l) s = .next s) ∧
  (st = 2 → s.up (.serial l) = true → x.attempts < 2 → Completes (.trainAttemptFail l) s fun t => Sets [] s t ∧ t.lanes[l] = { x with attempts := x.attempts + 1 }) ∧
  (st = 2 → s.up (.serial l) = true → 2 ≤ x.attempts → Completes (.trainAttemptFail l) s (Sets [(LANE_STATUS_STATE l, 7), (LANE_INT_TRAIN_FAIL l, 1)] s)) ∧
  (st = 7 → s.up (.serial l) = true → s.get (LANE_ROLE_ROLE l) ≠ 0 → Completes (.trainRetry l) s (Sets [(LANE_STATUS_STATE l, 2)] s)) ∧
  (st ≠ 7 ∨ s.up (.serial l) = false ∨ s.get (LANE_ROLE_ROLE l) = 0 → exec (.trainRetry l) s = .next s) ∧
  (∀ ring : Bool,
    (st ≠ 3 ∨ eth → exec (.laneDown l ring) s = .next s) ∧
    (st = 3 → ¬eth → Completes (.laneDown l ring) s fun t =>
      goes 1 [LANE_STATUS_DOWN_COUNT l, LANE_INT_DOWN l] t ∧ t.get (LANE_STATUS_DOWN_COUNT l) = s.counted (LANE_STATUS_DOWN_COUNT l) ∧
      t.get (LANE_INT_DOWN l) = 1 ∧ t.lanes[l].fresh = true ∧
      t.wlk.reversed = (s.wlk.reversed || (s.isWorker && l == 0 && ring)) ∧
      (∀ b, s.get (LANE_ROLE_ROLE l) = 4 → s.wlk.bulk = some b → t.wlk.bulk = some { b with lost := true }))) ∧
  (st = 3 → ¬eth → s.get (LANE_ROLE_GEN l) ≠ 0 → Completes (.codewordUncorrectable l) s
    (Sets [(LANE_FEC_UNCORR_COUNT l, s.counted (LANE_FEC_UNCORR_COUNT l))] s)) ∧
  (st ≠ 3 ∨ eth ∨ s.get (LANE_ROLE_GEN l) = 0 → exec (.codewordUncorrectable l) s = .next s) ∧
  (s.takes (.retrain l) → (eth → Completes (.retrain l) s same) ∧ (¬eth → Completes (.retrain l) s (trains []))) ∧
  (∀ l2 : Bool, let c : Instr := if l2 then .l2 l else .l1 l
    let barred := s.glz.active.isSome = true ∧ s.get (LANE_ROLE_ROLE l) ∈ [1, 2, 4]
    let asks := st = 3 ∧ x.req = none ∧ ¬eth
    s.takes c →
      (barred → Completes c s fun t => Sets refused s t ∧ t.lanes = s.lanes) ∧
      (¬barred → asks → Completes c s fun t => Sets [] s t ∧ t.lanes[l] = { x with req := some (if l2 then 5 else 4) }) ∧
      (¬barred → ¬asks → Completes c s same)) ∧
  (s.takes (.wake l) → (st = 4 ∨ st = 5 → Completes (.wake l) s fun t => Sets [] s t ∧ t.lanes[l] = { x with waking := true }) ∧
    (st ≠ 4 → st ≠ 5 → Completes (.wake l) s same)) ∧
  (let asks := s.get (LANE_ROLE_AUTO_L1 l) = 1 ∧ st = 3 ∧ x.req = none ∧ ¬eth
   (asks → Completes (.autoL1Request l) s fun t => Sets [] s t ∧ t.lanes[l] = { x with req := some 4 }) ∧
   (¬asks → exec (.autoL1Request l) s = .next s)) ∧
  (∀ l2 : Bool,
    (st ≠ 3 ∨ eth → exec (.powerStateEnter l l2) s = .next s) ∧
    (∀ r, st = 3 → ¬eth → x.req = some r → r < 16 → Completes (.powerStateEnter l l2) s (goes r [])) ∧
    (st = 3 → ¬eth → x.req = none → Completes (.powerStateEnter l l2) s (goes (if l2 then 5 else 4) []))) ∧
  (x.req.isSome = true → Completes (.powerStateLapse l) s fun t =>
    Sets [(LANE_REFUSED_COUNT l, s.counted (LANE_REFUSED_COUNT l))] s t ∧ t.lanes[l] = { x with req := none }) ∧
  (x.req = none → exec (.powerStateLapse l) s = .next s) ∧
  (st = 4 ∨ st = 5 → Completes (.powerStateExit l) s (goes 3 [WLK_HOPDLY_PS])) ∧ (st ≠ 4 → st ≠ 5 → exec (.powerStateExit l) s = .next s) ∧
  (st = 5 → Completes (.l2ExitRetrain l) s fun t =>
    trains [LANE_STATUS_L2_RETRAINS l] t ∧ t.get (LANE_STATUS_L2_RETRAINS l) = s.counted (LANE_STATUS_L2_RETRAINS l)) ∧
  (st ≠ 5 → exec (.l2ExitRetrain l) s = .next s)

/-- R279 to R281, R286 to R291: TEST, patterns and their checker, error injection into the units that a lane sends, loopbacks at both ends,
which keep the lane's own pins idle, and the eye margins; what a precoding or scrambling transmitter sends, the receiver recovers, and two
bits make one symbol. -/
def Obligations.LaneTests : Prop :=
  (∀ (g : List Nat) (p : Nat), (∀ a ∈ g, a < 4) → unprecode p (precode p g) = g ∧ ∀ a ∈ precode p g, a < 4) ∧
  (∀ (bits h : List Bool), descramble h (scramble h bits) = bits ∧ (scramble h bits).length = bits.length) ∧
  (∀ (hi lo : Bool) (bits : List Bool), grayIndices (hi :: lo :: bits) = grayIndex hi lo :: grayIndices bits ∧ grayIndex hi lo < 4) ∧
  ∀ (s : State) (l : Fin 6),
  let st := s.laneState l
  let eth := s.laneEth l = true
  let fits := s.laneTestOk l = true
  let refused := [(LANE_REFUSED_COUNT l, s.counted (LANE_REFUSED_COUNT l)), (LANE_INT_REFUSED l, 1)]
  let goes := fun (g : Nat) (t : State) => t.get (LANE_STATUS_STATE l) = g ∧ t.lanes[l].req = none
  (s.takes (.testEnter l) → (eth → Completes (.testEnter l) s (Sets [] s)) ∧ (¬eth → fits → Completes (.testEnter l) s (goes 6)) ∧
    (¬eth → ¬fits → Completes (.testEnter l) s (Sets refused s))) ∧
  (s.takes (.testExit l) → (st = 6 → Completes (.testExit l) s (goes 2)) ∧ (st ≠ 6 → Completes (.testExit l) s (Sets [] s))) ∧
  (∀ v : Word, s.takes (.patCfgWrite l v) →
    let p := v.toNat % 8
    let gen := v.toNat.testBit 4
    let chk := v.toNat.testBit 5
    let barred := s.patAllowed l p = false ∨ (gen = true ∧ ¬fits)
    let keep := chk = true ∧ s.get (LANE_PAT_CFG_CHK_EN l) = 1 ∧ s.get (LANE_PAT_CFG_PAT l) = p
    (barred → Completes (.patCfgWrite l v) s (Sets refused s)) ∧
    (¬barred → Completes (.patCfgWrite l v) s (Sets [(LANE_PAT_CFG_PAT l, p), (LANE_PAT_CFG_GEN_EN l, gen.toNat),
      (LANE_PAT_CFG_CHK_EN l, chk.toNat), (LANE_PAT_CFG_BURST l, v.toNat / 2 ^ 16 % 256),
      (LANE_PAT_CFG_LOCK l, if keep then s.get (LANE_PAT_CFG_LOCK l) else 0)] s))) ∧
  (let ready := s.get (LANE_PAT_CFG_CHK_EN l) = 1 ∧ s.get (LANE_PAT_CFG_LOCK l) = 0
   (ready → Completes (.patLock l) s (Sets [(LANE_PAT_CFG_LOCK l, 1), (LANE_PAT_ERR_COUNT l, 0), (LANE_PAT_BITS_COUNT l, 0)] s)) ∧
   (¬ready → exec (.patLock l) s = .next s)) ∧
  (∀ (bits : DWord) (errs : Word),
    (s.get (LANE_PAT_CFG_LOCK l) = 1 → Completes (.patLockLost l bits errs) s (Sets [(LANE_PAT_CFG_LOCK l, 0),
      (LANE_PAT_BITS_COUNT l, min (s.get (LANE_PAT_BITS_COUNT l) + bits.toNat) (2 ^ 64 - 1)),
      (LANE_PAT_ERR_COUNT l, min (s.get (LANE_PAT_ERR_COUNT l) + errs.toNat) (2 ^ 32 - 1))] s)) ∧
    (s.get (LANE_PAT_CFG_LOCK l) = 0 → exec (.patLockLost l bits errs) s = .next s)) ∧
  (s.takes (.inject l) → (s.get (LANE_PAT_CFG_INJECT l) = 0 → Completes (.inject l) s fun t =>
      Sets [(LANE_PAT_CFG_INJECT l, 1)] s t ∧ t.lanes[l].inv = s.get (LANE_PAT_CFG_BURST l)) ∧
    (s.get (LANE_PAT_CFG_INJECT l) = 1 → Completes (.inject l) s (Sets refused s))) ∧
  (∀ v : BitVec 2, s.takes (.loopWrite l v) →
    let barred := v ≠ 0 ∧ (¬fits ∨ (eth ∧ v = 3))
    (barred → Completes (.loopWrite l v) s (Sets refused s)) ∧
    (¬barred → Completes (.loopWrite l v) s (Sets [(LANE_CTRL_LOOP l, v.toNat)] s))) ∧
  (∀ answer : Option Bool,
    (s.takes (.rlbReq l true answer) → (eth → Completes (.rlbReq l true answer) s (Sets [] s)) ∧
      (¬eth → st = 3 ∨ st = 6 → Completes (.rlbReq l true answer) s fun t => Sets [(LANE_CTRL_RLB_REQ l, 1),
        (LANE_STATUS_RLB_STATE l, match answer with | none => 1 | some true => 2 | some false => 3)] s t ∧
        t.outbox = s.outbox ++ [.loopRequest l true]) ∧
      (¬eth → st ≠ 3 → st ≠ 6 → Completes (.rlbReq l true answer) s (Sets refused s))) ∧
    (s.takes (.rlbReq l false answer) → (eth → Completes (.rlbReq l false answer) s (Sets [] s)) ∧
      (¬eth → s.get (LANE_STATUS_RLB_STATE l) = 2 → Completes (.rlbReq l false answer) s fun t =>
        goes 2 t ∧ t.get (LANE_CTRL_RLB_REQ l) = 0 ∧ t.get (LANE_STATUS_RLB_STATE l) = 0 ∧
        t.outbox = s.outbox ++ [.loopRequest l false]) ∧
      (¬eth → s.get (LANE_STATUS_RLB_STATE l) ≠ 2 → Completes (.rlbReq l false answer) s fun t =>
        Sets [(LANE_CTRL_RLB_REQ l, 0), (LANE_STATUS_RLB_STATE l, 0)] s t ∧ t.outbox = s.outbox ++ [.loopRequest l false]))) ∧
  (let allows := s.get (LANE_ROLE_ALLOW_RLB l) = 1 ∧ fits
   let loops := s.get (LANE_STATUS_RLB_ACTIVE l) = 1
   (¬eth → allows → Completes (.rlbRequestReceived l true) s fun t =>
     Sets [(LANE_STATUS_RLB_ACTIVE l, 1)] s t ∧ t.outbox = s.outbox ++ [.loopAnswer l true]) ∧
   (¬eth → ¬allows → Completes (.rlbRequestReceived l true) s fun t => Sets [] s t ∧ t.outbox = s.outbox ++ [.loopAnswer l false]) ∧
   (eth → exec (.rlbRequestReceived l true) s = .next s) ∧
   (¬eth → loops → Completes (.rlbRequestReceived l false) s fun t => goes 2 t ∧ t.get (LANE_STATUS_RLB_ACTIVE l) = 0) ∧
   (eth ∨ ¬loops → exec (.rlbRequestReceived l false) s = .next s)) ∧
  ∀ (eye : Fin 3) (h v : BitVec 10),
    let nrz := eth ∨ s.get (LANE_ROLE_GEN l) = 0
    let low := v.toNat < s.get (LANE_MARGIN_THR_V_MIN l) ∨ h.toNat < s.get (LANE_MARGIN_THR_H_MIN l)
    (st ≠ 3 → ¬eth → exec (.eyeMeasure l eye h v) s = .next s) ∧
    (st = 3 ∨ eth → Completes (.eyeMeasure l eye h v) s fun t =>
      t.get (LANE_MARGIN_EYE l) = (if nrz then 0 else eye.val) ∧ t.get (LANE_MARGIN_H l) = h.toNat ∧ t.get (LANE_MARGIN_V l) = v.toNat ∧
      (low → t.get (LANE_INT_MARGIN l) = 1) ∧ (¬low → t.get (LANE_INT_MARGIN l) = s.get (LANE_INT_MARGIN l)))
/-! ### The plant -/

/-- R19, R48, R64, R132, R148, R223, R294 to R297, R301 to R304, R316, R318, R319: the isochronous exchange of a plant, what goes down and
what comes back up a chain, frames with a bad CRC, credits, and the plant stop. -/
def Obligations.PlantExchange : Prop :=
  ∀ s : State,
  let w := s.wlk
  let lane := s.up .lane = true
  let manager := s.isManager = true
  let worker := s.isWorker = true
  let passed := s.outbox ++ [.pass s.downLane]
  let on := fun (l : Fin 6) => s.outbox ++ [.pass (if l = s.upLane then s.downLane else s.upLane)]
  (∀ n : Word,
    (¬lane → exec (.plantPeriodBoundary n) s = .next s) ∧
    (lane → Completes (.plantPeriodBoundary n) s fun t => t.wlk.period = n.toNat ∧
      (worker → w.frame = none → t.wlk.linkMiss = w.linkMiss + 1) ∧
      (worker → w.frame.isSome = true → t.wlk.linkMiss = 0 ∧ t.wlk.frame = none) ∧
      (worker → s.get SYS_ROLE_WORKER_NO ≠ 0 → w.frame = none →
        let v := fun (j : Nat) => (s.slot ((s.get WLK_SLOTS_RPT_BASE + j) % 4096)).toNat
        t.wlk.freed = (0, 0) ∧ s.frameOf s.upLane { cls := 2 } 0 [s.reportStatus, v 0 + 2 ^ 32 * v 1, v 2 + 2 ^ 32 * v 3] ∈ t.outbox) ∧
      (manager → t.get WLK_PLANT_STATUS_REPORT_MISS = min (s.get WLK_PLANT_STATUS_REPORT_MISS + w.awaitRpt.length) 0xFFFF ∧
        t.wlk.awaitRpt = w.numbered.map (·.1) ∧ t.wlk.restore = false ∧ t.wlk.islFrame = 0 ∧
       (w.restore = true → ∀ c : Fin 4, s.bitAt WLK_PLANT_STATUS_RING c = true → .unit .ring c.val 2 ∈ t.outbox) ∧
        t.get WLK_PLANT_STATUS_RING = if w.restore then 0 else s.get WLK_PLANT_STATUS_RING))) ∧
  (¬lane ∨ ¬manager → exec .ctrlLaunch s = .next s) ∧
  (lane → manager → Completes .ctrlLaunch s fun t =>
    let hop := match s.mod.hopPlant with | some st => 2 ^ 40 + 2 ^ 36 * unsigned 4 st | none => 0
    let ref := fun (n j : Nat) => (s.slot ((s.get WLK_SLOTS_REF_BASE + 8 * (n - 1) + j) % 4096)).toNat
    Sets [] s t ∧ t.wlk = { w with islCmd := 0, islFrame := w.islCmd } ∧ t.mod.hopPlant = none ∧ t.mod.hopFrame = s.mod.hopPlant ∧
    (w.numbered = [] → t.outbox = s.outbox) ∧
    ∀ n c p : Nat, w.numbered = [(n, c, p)] → s.laneTo (n, c, p) < 6 → p < 8 →
      t.outbox = s.outbox ++ [s.frameOf (s.laneTo (n, c, p)) { cls := 1, scope := 1 } 0 [(w.period + 1) % 2 ^ 32 + 2 ^ 32 * s.get SIT_STATUS_PLANT_OUT + 2 ^ 33 * w.islCmd + hop,
        2 ^ 59 * n, ref n 0 + 2 ^ 32 * ref n 1, ref n 2 + 2 ^ 32 * ref n 3, ref n 4 + 2 ^ 32 * ref n 5, ref n 6 + 2 ^ 32 * ref n 7]]) ∧
  (∀ (crc : Bool) (f : CtrlFrame),
    let n := f.period.toNat
    let kept := n = (w.period + 1) % 2 ^ 32 ∧ f.refs.isSome = true ∧ s.get SYS_ROLE_WORKER_NO ≠ 0
    let late := (w.period + 2 ^ 32 - n) % 2 ^ 32 < 2 ^ 31
    (¬lane ∨ ¬worker → exec (.ctrlFrame crc f) s = .next s) ∧
    (lane → worker → crc = false → Completes (.ctrlFrame crc f) s fun t =>
      Sets [(LANE_FRM_ERR_DISCARD s.upLane, s.counted (LANE_FRM_ERR_DISCARD s.upLane))] s t ∧ t.wlk = w ∧ t.outbox = passed) ∧
    (lane → worker → crc = true → kept → Completes (.ctrlFrame crc f) s fun t =>
      t.wlk.frame = some f ∧ t.get SIT_STATUS_PLANT_IN = f.plantStop.toNat ∧ .pass s.downLane ∈ t.outbox ∧
      (f.plantStop = true → s.up .mod = true → Stops .plantStop s t) ∧
      (f.plantStop = false → Sets [(SIT_STATUS_PLANT_IN, 0)] s t ∧ t.outbox = passed)) ∧
    (lane → worker → crc = true → ¬kept → Completes (.ctrlFrame crc f) s fun t => t.wlk = w ∧ t.outbox = passed ∧
      (late → Sets [(LANE_FRM_ERR_LATE s.upLane, s.counted (LANE_FRM_ERR_LATE s.upLane))] s t) ∧ (¬late → Sets [] s t))) ∧
  (∀ (l : Fin 6) (crc : Bool) (n : BitVec 5) (st : BitVec 36) (v : Vector Word 4),
    let c := s.creditsOf n.toNat
    let x := st.toNat
    (¬lane ∨ (¬manager ∧ ¬worker) → exec (.reportFrame l crc n st v) s = .next s) ∧
    (lane → worker → Completes (.reportFrame l crc n st v) s fun t => Sets [] s t ∧ t.wlk = w ∧ t.outbox = on l) ∧
    (lane → manager → crc = false → Completes (.reportFrame l crc n st v) s fun t =>
      Sets [(LANE_FRM_ERR_DISCARD l, s.counted (LANE_FRM_ERR_DISCARD l))] s t ∧ t.wlk = w) ∧
    (lane → manager → crc = true → Completes (.reportFrame l crc n st v) s fun t =>
      t.get (WLK_RSTAT_STATUS n.toNat) = x ∧ (∀ j : Fin 4, t.get (WLK_RPT_VALUE n.toNat j) = v[j].toNat) ∧
      t.wlk.awaitRpt = w.awaitRpt.filter (· != n.toNat) ∧ (n.toNat ∈ t.wlk.armed ↔ x.testBit 23 = true) ∧
      (n.toNat ∈ t.wlk.detected ↔ x.testBit 19 = true) ∧
      (n.toNat ∈ t.wlk.stopped ↔ x.testBit 18 = true ∧ ∃ i < 16, x.testBit i = true) ∧
      (w.tags = [] → w.bulk = none → (w.credits.any (·.1 == n.toNat)) = true →
        t.creditsOf n.toNat = (min (c.1 + x / 2 ^ 24 % 64) 32, min (c.2 + x / 2 ^ 30 % 64) 32)))) ∧
  (∀ (l : Fin 6) (n : BitVec 5) (req bulk : BitVec 6),
    let c := s.creditsOf n.toNat
    let flow := Instr.flow l n (req, bulk)
    let mine := l = s.upLane ∧ s.get SYS_ROLE_WORKER_NO = n.toNat ∧ n ≠ 0
    (¬lane ∨ (¬manager ∧ ¬worker) → exec flow s = .next s) ∧
    (lane → worker → ¬mine → Completes flow s fun t => Sets [] s t ∧ t.wlk = w ∧ t.outbox = on l) ∧
    (lane → worker → mine → w.up = none → w.nacks = 0 → Completes flow s fun t =>
      Sets [] s t ∧ t.wlk = { w with upCredits := min (w.upCredits + bulk.toNat) 32 } ∧ t.outbox = passed) ∧
    (lane → manager → w.bulk = none → w.tags = [] → Completes flow s fun t =>
      Sets [] s t ∧ t.creditsOf n.toNat = (min (c.1 + req.toNat) 32, min (c.2 + bulk.toNat) 32) ∧ t.outbox = s.outbox) ∧
    ∀ r : RemTag, lane → manager → w.bulk = none → w.tags = [r] → r.sent = false → r.group = none → r.await = [n.toNat] →
      s.chainOf n.toNat < 6 → s.is4100 n.toNat = true ∨ 1 ≤ c.1 + req.toNat → Completes flow s fun t =>
        t.wlk.tags = [{ r with sent := true }] ∧
        t.creditsOf n.toNat = (min (c.1 + req.toNat) 32 - (if s.is4100 n.toNat then 0 else 1), min (c.2 + bulk.toNat) 32) ∧
        t.outbox = s.outbox ++ [s.frameOf (s.chainOf n.toNat) { cls := 4, dst := n.toNat, tag := r.tag }
          (bitOf r.write + 2 * bitOf r.wide) (r.addr :: if r.write then [r.value.toNat] else [])]) ∧
  (let due := lane ∧ worker ∧ s.get RGS_SUPV_LINKLOSS ≠ 0 ∧ s.get RGS_SUPV_LINKLOSS ≤ w.linkMiss
   (due → Completes .linkLoss s fun t => (s.up .mod = true → Stops .linkLoss s t) ∧ (s.get SIT_STATUS_BLOCK_STOP = 0 →
     t.get RGS_SUPV_CAUSE_VALID = 1 ∧ t.get RGS_SUPV_CAUSE_CAUSE = 4 ∧ t.get RGS_SUPV_CAUSE_RG = 0 ∧ t.get RGS_SUPV_INT_SUPV_STOP = 1)) ∧
   (¬due → exec .linkLoss s = .next s)) ∧
  (¬lane ∨ ¬worker → exec .stopUnit s = .next s) ∧
  (lane → worker → Completes .stopUnit s fun t =>
    t.get SIT_STATUS_PLANT_IN = 1 ∧ .pass s.downLane ∈ t.outbox ∧ (s.up .mod = true → Stops .plantStop s t)) ∧
  (lane → manager → s.get SIT_STATUS_PLANT_OUT = 1 → Completes .plantStopRepeat s fun t => Sets [] s t ∧
    t.outbox = s.outbox ++ s.plantLanes.map (fun l => .unit .stop l 0)) ∧
  (¬lane ∨ ¬manager ∨ s.get SIT_STATUS_PLANT_OUT = 0 → exec .plantStopRepeat s = .next s)

/-- R297 to R300, R312 to R314, R317, R318, R327: link delays, alignment to the manager's epoch and time, discovery, numbering, and
rings. -/
def Obligations.PlantTimeAndDiscovery : Prop :=
  ∀ s : State,
  let w := s.wlk
  let lane := s.up .lane = true
  let manager := s.isManager = true
  let worker := s.isWorker = true
  let cnt := s.mod.epochCnt
  let busy := fun (c : Fin 4) => s.bitAt WLK_PLANT_STATUS_DISC_BUSY c = true
  (∀ l : Fin 6,
    let up := s.laneState l = 3
    let upstream := up ∧ (s.get (LANE_ROLE_ROLE l) = 2 ∨ s.get (LANE_ROLE_ROLE l) = 4)
    (upstream → Completes (.delayReq l) s fun t => Sets [] s t ∧ t.lanes[l].t1 = cnt ∧ t.outbox = s.outbox ++ [.unit .delayReq l 0]) ∧
    (¬upstream → exec (.delayReq l) s = .next s) ∧
    (up → Completes (.delayReqReceived l) s fun t =>
      Sets [] s t ∧ t.outbox = s.outbox ++ [.unit .delayRsp l (cnt % 2 ^ 24 + 2 ^ 24 * (cnt % 2 ^ 24))]) ∧
    (¬up → exec (.delayReqReceived l) s = .next s) ∧
    ∀ t2 t3 : BitVec 24,
      let steps := s.epochDiff cnt s.lanes[l].t1 - (t3 - t2).toNat
      let d := s.stepsToPs steps / 2 + s.getI (LANE_ASYM_ASYM l)
      (up → Completes (.delayRsp l t2 t3) s fun t => OnlyRegs [LANE_LINKDLY_D l, LANE_LINKDLY_VALID l, WLK_PLANT_STATUS_LONG_LINK] s t ∧
        t.lanes[l].delays = (d :: s.lanes[l].delays).take 16 ∧ (t.get (LANE_LINKDLY_VALID l) = 1 ↔ 15 ≤ s.lanes[l].delays.length) ∧
        (s.lanes[l].delays = [] → t.get (LANE_LINKDLY_D l) = d.toNat % 2 ^ 31) ∧
        (s.lanes[l].delays = [] → manager → 150000 < d → t.get WLK_PLANT_STATUS_LONG_LINK = 1)) ∧
      (¬up → exec (.delayRsp l t2 t3) s = .next s)) ∧
  (∀ o : BitVec 24,
    let e : Int := s.get MOD_EPOCH_EPOCH
    let cum := s.psToSteps (s.get (if w.reversed then WLK_ALT_DELAY_PS else WLK_CUM_DELAY_PS))
    let m := ((cnt : Int) - cum - o.toNat) % e
    let d := if e < 2 * m then m - e else m
    let near := -1 ≤ d ∧ d ≤ 1
    (¬lane ∨ ¬worker → exec (.syncUnit o) s = .next s) ∧
    (lane → worker → e = 0 → Completes (.syncUnit o) s fun t => Sets [] s t ∧ t.wlk = w ∧ t.outbox = s.outbox ++ [.pass s.downLane]) ∧
    (lane → worker → e ≠ 0 → Completes (.syncUnit o) s fun t =>
      let k := (w.rateAcc + t.getI WLK_SYNC_STATUS_RATE * e).tdiv (2 ^ 32)
      t.mod.epochCnt = ((cnt - d - k) % e).toNat ∧ t.outbox = s.outbox ++ [.pass s.downLane] ∧
      t.wlk.rateAcc = w.rateAcc + t.getI WLK_SYNC_STATUS_RATE * e - k * 2 ^ 32 ∧
      (t.get WLK_SYNC_STATUS_LOCKED = 1 ↔ near ∧ (15 ≤ w.lockCnt ∨ s.get WLK_SYNC_STATUS_LOCKED = 1)) ∧
      (near → t.wlk.lockCnt = min (w.lockCnt + 1) 16) ∧
      (¬near → t.wlk.lockCnt = 0 ∧ (s.get WLK_SYNC_STATUS_LOCKED = 1 → t.get WLK_INT_SYNC_LOST = 1)))) ∧
  (∀ (crc : Bool) (sec : BitVec 48) (ns frac : Word) (valid : Bool),
    let f := frac.toNat + cnt * 10000 * 2 ^ 32 / (s.stepN * 1000)
    let follows := s.get WLK_SYNC_CFG_PTP_FOLLOW = 1 ∧ s.netRuns = true
    (¬lane ∨ ¬worker → exec (.timeFrame crc sec ns frac valid) s = .next s) ∧
    (lane → worker → crc = false → Completes (.timeFrame crc sec ns frac valid) s fun t =>
      Sets [(LANE_FRM_ERR_DISCARD s.upLane, s.counted (LANE_FRM_ERR_DISCARD s.upLane))] s t ∧ t.wlk = w ∧ t.net = s.net) ∧
    (lane → worker → crc = true → ¬follows → Completes (.timeFrame crc sec ns frac valid) s fun t =>
      Sets [] s t ∧ t.wlk = { w with timeValid := valid } ∧ t.net = s.net) ∧
    (lane → worker → crc = true → follows → Completes (.timeFrame crc sec ns frac valid) s fun t =>
      t.wlk = { w with timeValid := valid } ∧ t.net.ptp = ptpOf ((sec.toNat * 1000000000 + ns.toNat + f / 2 ^ 32 : Nat) : Int) (f % 2 ^ 32) ∧
      t.get NET_PTP_STATUS_STEPPED = 1 ∧ ptpIncOk (t.get NET_PTP_INC_NS * 2 ^ 32 + t.get NET_PTP_INC_FRAC) = true ∧
      (t.get NET_PTP_STATUS_VALID = 1 ↔ s.get WLK_SYNC_STATUS_LOCKED = 1 ∧ valid = true))) ∧
  (∀ (l : Fin 6) (p : Fin 8),
    (¬lane → ∀ u, exec (.ringReverse l u) s = .next s) ∧
    (lane → worker → w.reversed = true → exec (.ringReverse l (some p)) s = .next s) ∧
    (lane → worker → w.reversed = true → Completes (.ringReverse l none) s fun t => t.wlk = { w with reversed := false } ∧
      Sets [(LANE_STATUS_LOOP_TIMED 0, bitOf (s.laneState 0 == 3)), (LANE_STATUS_LOOP_TIMED 1, bitOf (s.laneState 0 == 3))] s t ∧
      t.outbox = s.outbox ++ [.unit .ring 1 2]) ∧
    (lane → worker → w.reversed = false → Completes (.ringReverse l none) s fun t => Sets [] s t ∧ t.wlk = w ∧
      t.outbox = s.outbox ++ [.unit .ring 1 2]) ∧
    (lane → worker → w.reversed = false → Completes (.ringReverse l (some p)) s fun t => t.wlk = { w with reversed := true } ∧
      Sets [(LANE_STATUS_LOOP_TIMED 0, 0), (LANE_STATUS_LOOP_TIMED 1, 0)] s t ∧
      (s.get (LANE_ROLE_ROLE 1) ≠ 0 → t.outbox = s.outbox ++ [.unit .ring 1 1])) ∧
    (∀ u, ¬worker → ¬manager ∨ u = none → exec (.ringReverse l u) s = .next s) ∧
    (manager → s.ringOf.find? (·.1 == l.val) = none → exec (.ringReverse l (some p)) s = .next s) ∧
    ∀ (c : Fin 4), lane → manager → s.ringOf.find? (·.1 == l.val) = some (l.val, c.val) →
      Completes (.ringReverse l (some p)) s fun t => t.bitAt WLK_PLANT_STATUS_RING c = true ∧ t.get WLK_INT_RING = 1 ∧
        ∀ e ∈ w.numbered, e.2.1 = c.val → p.val ≤ e.2.2 → e.1 < 32 → t.get (WLK_PRESULT_REVERSED e.1) = 1) ∧
  (∀ links : Bool, s.takes (.ringRestore links) →
    let able := manager ∧ links = true ∧ s.get WLK_PLANT_STATUS_RING ≠ 0 ∧
      ∀ c : Fin 4, s.bitAt WLK_PLANT_STATUS_RING c = true → s.laneState c = 3
    (able → Completes (.ringRestore links) s fun t => Sets [] s t ∧ t.wlk = { w with restore := true }) ∧
    (¬able → Completes (.ringRestore links) s fun t =>
      Sets [(WLK_REFUSED_COUNT, s.counted WLK_REFUSED_COUNT), (WLK_INT_REFUSED, 1)] s t ∧ t.wlk = w)) ∧
  (s.takes .discover → Completes .discover s fun t => ∀ c : Fin 4,
    let chain := manager ∧ s.get (LANE_ROLE_ROLE c) = 4
    (chain → t.wlk.disc[c] = { w.disc[c] with asked := some 0, found := [] } ∧ t.bitAt WLK_PLANT_STATUS_DISC_BUSY c = true ∧
      s.frameOf c { cls := 7, scope := 3, pos := 0 } 0 [] ∈ t.outbox) ∧
    (¬chain → t.wlk.disc[c] = w.disc[c])) ∧
  (∀ p : Fin 8,
    let mine := w.position = none ∨ w.position = some p.val
    let discards := fun (t : State) => t.wlk = w ∧ t.outbox = s.outbox ++ [.pass s.downLane] ∧
      Sets [(LANE_FRM_ERR_DISCARD s.upLane, s.counted (LANE_FRM_ERR_DISCARD s.upLane))] s t
    (∀ crc, ¬lane ∨ ¬worker → exec (.position ⟨crc, p⟩) s = .next s) ∧
    (lane → worker → Completes (.position ⟨false, p⟩) s discards) ∧
    (lane → worker → mine → Completes (.position ⟨true, p⟩) s fun t => Sets [] s t ∧ t.wlk = { w with position := some p.val } ∧
      t.outbox = s.outbox ++ [s.frameOf s.upLane { cls := 7, pos := p.val } 1
        [s.get SYS_UID_LO_UID + 2 ^ 32 * s.get SYS_UID_HI_UID, s.get SYS_PARTID_PART, s.get SYS_REVID_STEP_LETTER * 16 + s.get SYS_REVID_STEP_DIGIT, s.get GLZ_ACTIVE_ID_IMAGE_ID, s.get SYS_ROLE_ROLE,
        s.get (LANE_ROLE_GEN 0)]]) ∧
    (lane → worker → ¬mine → Completes (.position ⟨true, p⟩) s fun t => Sets [] s t ∧ t.wlk = w ∧ t.outbox = s.outbox ++ [.pass s.downLane]) ∧
    ∀ n : BitVec 5,
      (∀ crc, ¬lane ∨ ¬worker → exec (.number ⟨crc, p⟩ n) s = .next s) ∧
      (lane → worker → Completes (.number ⟨false, p⟩ n) s discards) ∧
      (lane → worker → Completes (.number ⟨true, p⟩ n) s fun t => t.wlk = w ∧ t.outbox = s.outbox ++ [.pass s.downLane] ∧
        Sets (if w.position = some p.val then [(SYS_ROLE_WORKER_NO, n.toNat)] else []) s t)) ∧
  (∀ c : Fin 4,
    let asked := w.disc[c].asked
    (∀ a : Announce,
      let asks := fun (q : Nat) => s.outbox ++ [s.frameOf c { cls := 7, scope := 3, pos := q } 0 []]
      let bad := [(LANE_FRM_ERR_DISCARD c, s.counted (LANE_FRM_ERR_DISCARD c))]
      (∀ crc, ¬lane ∨ (¬worker ∧ asked = none ∧ crc = true) → exec (.announce c ⟨crc, a⟩) s = .next s) ∧
      (∀ crc, lane → worker → Completes (.announce c ⟨crc, a⟩) s fun t => Sets [] s t ∧ t.wlk = w ∧ t.outbox = s.outbox ++ [.pass s.upLane]) ∧
      (lane → ¬worker → asked = none → Completes (.announce c ⟨false, a⟩) s fun t => Sets bad s t ∧ t.wlk = w ∧ t.outbox = s.outbox) ∧
      (∀ q, lane → ¬worker → asked = some q → Completes (.announce c ⟨false, a⟩) s fun t => Sets bad s t ∧ t.wlk = w ∧ t.outbox = asks q) ∧
      ∀ q, lane → ¬worker → asked = some q → Completes (.announce c ⟨true, a⟩) s fun t => Sets [] s t ∧
        t.wlk.disc[c].found = w.disc[c].found ++ [(q, a)] ∧ t.wlk.disc[c].asked = (if q < 7 then some (q + 1) else none) ∧
        t.outbox = if q < 7 then asks (q + 1) else s.outbox) ∧
    Completes (.positionTimeout c) s (fun t => Sets [] s t ∧ t.wlk.disc[c] = { w.disc[c] with asked := none } ∧ t.outbox = s.outbox) ∧
    ∀ (hops : List (Word × BitVec 16)) (ring : Option Word),
      (¬busy c ∨ asked ≠ none → exec (.discoveryDone c hops ring) s = .next s) ∧
      (busy c → asked = none → Completes (.discoveryDone c hops ring) s fun t =>
        let u := s.onWlk fun x => { x with disc := x.disc.set c { x.disc[c] with
          known := x.disc[c].found, ended := true, cums := delaySums x.disc[c].found.length hops ring } }
        let out := ((u.putBit WLK_PLANT_STATUS_DISC_BUSY c false).put WLK_INT_DISC_DONE 1).outcomes
        t.wlk.disc = u.wlk.disc ∧ t.bitAt WLK_PLANT_STATUS_DISC_BUSY c = false ∧ t.get WLK_INT_DISC_DONE = 1 ∧
        t.wlk.numbered = (out.filter (·.2.1 == 0)).map (fun e => (e.1, e.2.2.1, e.2.2.2.1)) ∧
        t.get WLK_PLANT_STATUS_WORKERS = t.wlk.numbered.length % 32 ∧
        (∀ e ∈ out, t.get (WLK_PRESULT_OUTCOME e.1) = e.2.1 % 4 ∧ t.get (WLK_PRESULT_PART e.1) = e.2.2.2.2 % 2 ^ 16 ∧
          t.get (WLK_PRESULT_REVERSED e.1) =
            bitOf (w.numbered.any fun o => o.2 == (e.2.2.1, e.2.2.2.1) && s.bit (WLK_PRESULT_REVERSED (o.1 % 32)))) ∧
        (∀ e ∈ t.wlk.numbered, e.2.1 = c.val ∨ e ∉ w.numbered → (t.creditsOf e.1).2 = 32 ∧
          s.frameOf (t.laneTo e) { cls := 7, scope := 3, pos := e.2.2 } 2 [e.1] ∈ t.outbox) ∧
        ∀ o ∈ w.numbered, (∀ e ∈ t.wlk.numbered, e.2 ≠ o.2) → (∃ f ∈ t.foundWorkers, (f.1, f.2.1) = o.2) →
          s.frameOf (s.laneTo o) { cls := 7, scope := 3, pos := o.2.2 } 2 [0] ∈ t.outbox))
/-- R41, R278, R295 to R297, R305 to R310, R320: a manager's accesses to its workers, single and broadcast, their tags, credits and answers,
requests at a worker and what it passes on, and bulk transfers with their window, credits and negative acknowledgements. -/
def Obligations.RemoteAccessAndBulk : Prop :=
  ∀ s : State,
  let w := s.wlk
  let lane := s.up .lane = true
  let manager := s.isManager = true
  let worker := s.isWorker = true
  let all := w.numbered.map (·.1)
  let ready := fun (n : Nat) => s.is4100 n = true ∨ 0 < (s.creditsOf n).1
  let bulks := all.filter fun n => !s.is4100 n
  let errs := fun (t : State) => Sets [] s t ∧ t.resp = ⟨0, true⟩ ∧ t.wlk = w ∧ t.outbox = s.outbox
  let runs := s.up .host = true ∧ s.get PWR_STATUS_STANDBY = 0
  let on := fun (l : Fin 6) => s.outbox ++ [.pass (if l = s.upLane then s.downLane else s.upLane)]
  let tagged := fun (r : RemTag) (head : FrameHeader) (t : State) =>
    (w.tags.length < 128 → t.wlk.tags.map (·.tag) = w.tags.map (·.tag) ++ [s.freeTag] ∧ t.wlk.stalled = w.stalled ∧
      Sets [(WLK_REM_STATUS_OUTSTANDING, w.tags.length + 1)] s t ∧ t.resp = if r.write then ⟨0, false⟩ else s.resp) ∧
    (128 ≤ w.tags.length → Sets [] s t ∧ t.wlk = { w with stalled := w.stalled ++ [r] } ∧ t.outbox = s.outbox) ∧
    (w.tags = [] → (∀ a ∈ r.await, ready a) → t.wlk.tags = [{ r with sent := true }] ∧
      ∀ c ∈ s.chainsOf r.await,
        s.frameOf c head (bitOf r.write + 2 * bitOf r.wide) (r.addr :: if r.write then [r.value.toNat] else []) ∈ t.outbox) ∧
    (w.tags = [] → (∃ a ∈ r.await, ¬ready a) → t.wlk.tags = [r] ∧ t.outbox = s.outbox)
  (∀ (wr : Bool) (addr : BitVec 40) (size : Fin 9) (v : DWord) (g : Option (Fin 16)) (o : BitVec 28) (wide : Bool) (c : Instr),
    c = .remoteAccess wr addr size v ∨ c = .plantBroadcastWrite g o wide v ∨ c = .plantBroadcastRead →
    (¬runs → exec c s = .next s) ∧ (runs → ¬lane → Completes c s errs)) ∧
  (runs → lane →
    (∀ (wr : Bool) (addr : BitVec 40) (size : Fin 9) (v : DWord),
      let a := addr.toNat
      let n := (a - 0x8000000000) / 0x10000000
      let able := manager ∧ (size = 4 ∧ a % 4 = 0 ∨ size = 8 ∧ a % 8 = 0) ∧ 0x8010000000 ≤ a ∧ a < 0x8200000000 ∧ n ∈ all
      let r : RemTag := ⟨0, none, [n], wr, 0x40000000 + a % 0x10000000, decide (size = 8), v, false, false⟩
      (able → Completes (.remoteAccess wr addr size v) s (tagged r { cls := 4, dst := n })) ∧
      (¬able → Completes (.remoteAccess wr addr size v) s errs)) ∧
    (∀ (g : Option (Fin 16)) (o : BitVec 28) (wide : Bool) (v : DWord),
      let a := o.toNat
      let able := manager ∧ a % (if wide then 8 else 4) = 0 ∧ (g = none ∨ a < 0x1000000)
      let ws := match g with
        | none => all
        | some k => all.filter fun n => s.bit (WLK_PENTRY_EN n) && s.bitAt (WLK_PENTRY_GROUPS n) k
      let addr := match g with | none => 0x40000000 + a | some _ => s.get WLK_GRP_BASE_BASE * 0x1000000 + a
      (¬able → Completes (.plantBroadcastWrite g o wide v) s errs) ∧
      (able → ws = [] → Completes (.plantBroadcastWrite g o wide v) s fun t =>
        Sets [(SYS_BCAST_STATUS_EMPTY, 1)] s t ∧ t.resp = ⟨0, false⟩ ∧ t.wlk = w ∧ t.outbox = s.outbox) ∧
      let r : RemTag := ⟨0, some (g.map (·.val)), ws, true, addr, wide, v, false, false⟩
      let head : FrameHeader := match g with | none => { cls := 4, scope := 1 } | some k => { cls := 4, scope := 2, grp := k.val }
      (able → ws ≠ [] → Completes (.plantBroadcastWrite g o wide v) s (tagged r head))) ∧
    (manager → Completes .plantBroadcastRead s fun t =>
      Sets [(WLK_REFUSED_COUNT, s.counted WLK_REFUSED_COUNT), (WLK_INT_REFUSED, 1)] s t ∧ t.resp = ⟨0, true⟩) ∧
    (¬manager → Completes .plantBroadcastRead s errs)) ∧
  (∀ (l : Fin 6) (k : BitVec 7) (n : BitVec 5) (decErr : Bool) (v : DWord),
    let answered := Instr.remRsp l ⟨true, k⟩ n (decErr, v)
    let found := w.tags.find? fun x => x.tag == k.toNat && x.sent && x.await.contains n.toNat
    let left := w.tags.filter fun x => x.tag != k.toNat
    (∀ crc,
      (¬lane → exec (.remRsp l ⟨crc, k⟩ n (decErr, v)) s = .next s) ∧
      (lane → worker → Completes (.remRsp l ⟨crc, k⟩ n (decErr, v)) s fun t => Sets [] s t ∧ t.wlk = w ∧ t.outbox = on l)) ∧
    (lane → ¬worker → Completes (.remRsp l ⟨false, k⟩ n (decErr, v)) s fun t =>
      Sets [(LANE_FRM_ERR_DISCARD l, s.counted (LANE_FRM_ERR_DISCARD l))] s t ∧ t.wlk = w ∧ t.resp = s.resp) ∧
    (lane → ¬worker → found = none → Completes answered s fun t =>
      Sets [(WLK_REM_STATUS_LATE, s.counted WLK_REM_STATUS_LATE)] s t ∧ t.wlk = w ∧ t.resp = s.resp) ∧
    ∀ r, lane → ¬worker → found = some r →
      let rest := r.await.filter (· != n.toNat)
      let answer : Resp := if r.own then s.resp else if decErr then ⟨0, true⟩ else if r.write then s.resp else ⟨v, false⟩
      (rest ≠ [] → Completes answered s fun t => Sets [] s t ∧ t.resp = answer ∧
        t.wlk.tags = w.tags.map fun x => if x.tag = k.toNat then { x with await := rest } else x) ∧
      (rest = [] → w.stalled = [] → Completes answered s fun t =>
        Sets [(WLK_REM_STATUS_OUTSTANDING, left.length % 256)] s t ∧ t.resp = answer ∧ t.wlk = { w with tags := left }) ∧
      ∀ x more, rest = [] → w.stalled = x :: more → left.length < 128 → Completes answered s fun t =>
        t.wlk.stalled = more ∧ t.wlk.tags.length = left.length + 1 ∧ t.get WLK_REM_STATUS_OUTSTANDING = left.length + 1) ∧
  (∀ k : BitVec 7,
    let found := w.tags.find? fun x => x.tag == k.toNat
    let left := w.tags.filter fun x => x.tag != k.toNat
    (found = none → exec (.remoteTimeout k) s = .next s) ∧
    ∀ r, found = some r → w.stalled = [] → Completes (.remoteTimeout k) s fun t =>
      t.get WLK_REM_STATUS_TIMEOUTS = s.counted WLK_REM_STATUS_TIMEOUTS ∧ t.get WLK_INT_REM_ERR = 1 ∧ t.wlk = { w with tags := left } ∧
      t.get WLK_REM_STATUS_OUTSTANDING = left.length % 256 ∧ (t.resp = if r.write then s.resp else ⟨0xFFFFFFFF, true⟩) ∧
      (r.group.isSome = true → t.get WLK_REM_STATUS_PARTIAL = 1 ∧
        ∀ n ∈ r.await, 1 ≤ n → n ≤ 31 → t.bitAt WLK_BCAST_MISS_WORKERS (n - 1) = true) ∧
      (r.group = none → OnlyRegs [WLK_REM_STATUS_TIMEOUTS, WLK_INT_REM_ERR, WLK_REM_STATUS_OUTSTANDING] s t)) ∧
  (∀ (k : BitVec 7) (wr : Bool) (a : Word) (wide : Bool) (v : DWord) (x : BusFacts),
    let r : RemReq := { tag := k.toNat, write := wr, addr := a.toNat, wide := wide, value := v, facts := x }
    let n := if wide then 8 else 4
    let takes := lane ∧ worker
    let serves := takes ∧ s.get SYS_ROLE_WORKER_NO ≠ 0
    let c := fun (crc mine : Bool) => Instr.remReq ⟨crc, mine, k⟩ wr a wide v x
    let waits := s.phase = 5 ∧ 0x41000000 ≤ a.toNat ∧ a.toNat < 0x47000000 ∧ s.up (islandAt a.toNat) = true
    let p := s.passDown
    let u := if a.toNat < 0x40000000 ∨ 0x50000000 ≤ a.toNat then p.busError
      else if wr then p.busWrite a.toNat n v { x with late := false } else p.busRead a.toNat n
    (∀ crc mine, ¬takes → exec (c crc mine) s = .next s) ∧
    (∀ mine, takes → Completes (c false mine) s fun t => t.wlk = w ∧ t.outbox = s.outbox ++ [.pass s.downLane] ∧
      Sets [(LANE_FRM_ERR_DISCARD s.upLane, s.counted (LANE_FRM_ERR_DISCARD s.upLane))] s t) ∧
    (∀ mine, takes → mine = false ∨ s.get SYS_ROLE_WORKER_NO = 0 → Completes (c true mine) s fun t =>
      Sets [] s t ∧ t.wlk = w ∧ t.outbox = s.outbox ++ [.pass s.downLane]) ∧
    (serves → w.reqs = [] → waits → Completes (c true true) s fun t =>
      Sets [] s t ∧ t.wlk = { w with reqs := [{ r with facts := { x with late := true } }] } ∧
      t.outbox = s.outbox ++ [.pass s.downLane]) ∧
    (serves → w.reqs = [] → ¬waits → Completes (c true true) s fun t => t.resp = s.resp ∧ t.wlk.reqs = [] ∧
      u.frameOf s.upLane { cls := 5, tag := k.toNat } (bitOf u.resp.err) (if wr then [] else [u.resp.value.toNat]) ∈ t.outbox)) ∧
  (∀ v : Word, s.takes (.blkGo v) →
    let len := v.toNat / 2 ^ 19
    let space := v.toNat / 2 ^ 16 % 8
    let scope := v.toNat / 2 ^ 14 % 4
    let dst := v.toNat / 2 ^ 9 % 32
    let reads := v.toNat.testBit 1 = true
    let targets := if scope = 0 then bulks.filter (· == dst) else if scope = 1 then bulks
      else bulks.filter fun n => s.bit (WLK_PENTRY_EN n) && s.bitAt (WLK_PENTRY_GROUPS n) dst
    let able := manager ∧ s.get WLK_BLK_CTRL_GO = 0 ∧ 1 ≤ len ∧ len ≤ 4096 ∧ (reads → space ≤ 2 ∧ scope = 0) ∧
      (¬reads → space = 0 ∧ scope ≤ 2) ∧ s.get WLK_BLK_LOCAL_ADDR % 8 = 0 ∧ s.get WLK_BLK_REMOTE_ADDR % 8 = 0 ∧ targets ≠ []
    let started := Sets [(WLK_BLK_CTRL_LEN, len), (WLK_BLK_CTRL_SPACE, space), (WLK_BLK_CTRL_SCOPE, scope), (WLK_BLK_CTRL_DST, dst),
      (WLK_BLK_CTRL_DIR, (v.toNat.testBit 1).toNat), (WLK_BLK_CTRL_GO, 1)] s
    (¬able → Completes (.blkGo v) s fun t =>
      Sets [(WLK_REFUSED_COUNT, s.counted WLK_REFUSED_COUNT), (WLK_INT_REFUSED, 1)] s t ∧ t.wlk = w) ∧
    (able → reads → Completes (.blkGo v) s fun t => started t ∧
      ((s.creditsOf dst).2 = 0 → t.wlk = { w with bulk := some {} } ∧ t.outbox = s.outbox) ∧
      ((s.creditsOf dst).2 ≠ 0 → s.chainOf dst < 6 → t.wlk.bulk = some { asked := true } ∧
        t.outbox = s.outbox ++ [s.frameOf (s.chainOf dst) { cls := 6, dst := dst } 1 [s.get WLK_BLK_REMOTE_ADDR, space, len]])) ∧
    (able → ¬reads → Completes (.blkGo v) s fun t => started t ∧ t.wlk.bulk.isSome = true ∧
      ((∃ n ∈ targets, (s.creditsOf n).2 = 0) → t.wlk = { w with bulk := some {} } ∧ t.outbox = s.outbox))) ∧
  (∀ (l : Fin 6) (crc : Bool) (f : BulkFrame),
    (¬lane → exec (.bulkFrame l crc f) s = .next s) ∧
    (lane → worker → l ≠ s.upLane → Completes (.bulkFrame l crc f) s fun t => Sets [] s t ∧ t.sram = s.sram ∧ t.wlk = w ∧ t.outbox = on l) ∧
    (lane → ¬worker ∨ l = s.upLane → crc = false → Completes (.bulkFrame l crc f) s fun t =>
      Sets [(LANE_FRM_ERR_DISCARD l, s.counted (LANE_FRM_ERR_DISCARD l))] s t ∧ t.sram = s.sram ∧ t.wlk = w ∧
      (worker → t.outbox = s.outbox ++ [.pass s.downLane]) ∧ (¬worker → t.outbox = s.outbox)) ∧
    ∀ n : BitVec 5, lane → manager → Completes (.bulkFrame l true (.nack n)) s fun t =>
      Sets [(WLK_BLK_STATUS_NACKS, s.counted WLK_BLK_STATUS_NACKS)] s t ∧ t.wlk.bulk = w.bulk ∧ t.sram = s.sram) ∧
  (∀ (l : Fin 6) (first : Bool) (addr : Word) (ds : List DWord), lane →
    let c : Instr := .bulkFrame l true (.data first addr ds)
    let a := addr.toNat
    let lo := 65536 * s.get WLK_BULK_WIN_BASE
    let fits := lo ≤ a ∧ a + 8 * ds.length ≤ lo + 65536 * s.get WLK_BULK_WIN_SIZE ∧ a + 8 * ds.length ≤ 0x700000
    let rx := (if first then [] else w.rx) ++ wordBytes ds
    let addr := s.get WLK_BLK_LOCAL_ADDR + (a - s.get WLK_BLK_REMOTE_ADDR)
    let stores := fun (b : Nat) (t : State) =>
      (∀ i d, ds[i]? = some d → t.sram.read (b + 8 * i) 8 = d.toNat) ∧
      ∀ x, x < b ∨ b + 8 * ds.length ≤ x → t.sram.get x = s.sram.get x
    (worker → l = s.upLane → fits → Completes c s fun t => stores a t ∧ t.wlk.rx = rx ∧
      Sets [(WLK_BLK_RX_CRC_CRC, crc32 rx % 2 ^ 32)] s t) ∧
    (worker → l = s.upLane → ¬fits → Completes c s fun t => Sets [] s t ∧ t.sram = s.sram ∧ t.wlk.rx = w.rx ∧
      (w.upCredits = 0 → t.wlk.nacks = w.nacks + 1) ∧ (0 < w.upCredits → s.frameOf s.upLane { cls := 6 } 2 [] ∈ t.outbox)) ∧
    (∀ b, manager → s.get WLK_BLK_CTRL_DIR = 1 → w.bulk = some b → Completes c s fun t => Sets [] s t ∧ stores addr t ∧
      t.wlk.bulk = some { b with sent := b.sent + 1, bytes := b.bytes ++ wordBytes ds }) ∧
    (¬worker → (¬manager ∨ s.get WLK_BLK_CTRL_DIR = 0 ∨ w.bulk = none) → exec c s = .next s)) ∧
  (∀ (l : Fin 6) (space : Fin 3) (addr : Word) (units : Nat), lane →
    let c : Instr := .bulkFrame l true (.fetch space addr units)
    (¬worker → exec c s = .next s) ∧
    (worker → l = s.upLane → 0 < units → w.upCredits = 0 → Completes c s fun t => Sets [] s t ∧ .pass s.downLane ∈ t.outbox ∧
      t.wlk.up = some (space.val, addr.toNat, 2 * units)) ∧
    (worker → l = s.upLane → 0 < units → 0 < w.upCredits → w.nacks = 0 → Completes c s fun t => Sets [] s t ∧
      s.frameOf s.upLane { cls := 6 } 0 (addr.toNat :: (List.range 32).map fun i => s.spaceWord space (addr.toNat + 8 * i)) ∈ t.outbox)) ∧
  ∀ (lost : Bool) (nacks : BitVec 16),
    (w.bulk = none → exec (.bulkDone lost nacks) s = .next s) ∧
    ∀ b, w.bulk = some b →
      let l := lost = true ∨ b.lost = true
      (¬l → b.sent < 2 * s.get WLK_BLK_CTRL_LEN → exec (.bulkDone lost nacks) s = .next s) ∧
      (l ∨ 2 * s.get WLK_BLK_CTRL_LEN ≤ b.sent → Completes (.bulkDone lost nacks) s fun t => t.wlk = { w with bulk := none } ∧
        OnlyRegs [WLK_BLK_CTRL_GO, WLK_BLK_STATUS_DONE, WLK_BLK_STATUS_ERR, WLK_BLK_STATUS_NACKS, WLK_BLK_CRC_CRC, WLK_INT_BLK_DONE] s t ∧
        t.get WLK_BLK_STATUS_NACKS = min (s.get WLK_BLK_STATUS_NACKS + nacks.toNat) 0xFFFF ∧
        t.get WLK_BLK_CTRL_GO = 0 ∧ t.get WLK_BLK_STATUS_DONE = 1 ∧ t.get WLK_INT_BLK_DONE = 1 ∧
        t.get WLK_BLK_CRC_CRC = crc32 b.bytes % 2 ^ 32 ∧ (l → t.get WLK_BLK_STATUS_ERR = 1))
/-! ### The network and the PTP clock -/

/-- R48, R321 to R331: the MACs with their rings, PAUSE, MACsec numbering and checking, launch and timestamp queues, and the PTP clock under
firmware. -/
def Obligations.NetworkAndTime : Prop :=
  ∀ s : State,
  let p := s.net.ptp
  let follows := s.isWorker = true ∧ s.get WLK_SYNC_CFG_PTP_FOLLOW = 1
  let total := p.sec * 1000000000 + p.ns
  let barred := fun (t : State) => Sets [(WLK_REFUSED_COUNT, s.counted WLK_REFUSED_COUNT), (WLK_INT_REFUSED, 1)] s t ∧ t.net = s.net
  let ignored := fun (t : State) => Sets [(NET_PTP_STATUS_REFUSED, s.counted NET_PTP_STATUS_REFUSED)] s t ∧ t.net = s.net
  let steps := fun (q : Ptp) (t : State) => Sets [(NET_PTP_STATUS_STEPPED, 1)] s t ∧
    t.net = { s.net with ptp := q, macs := s.net.macs.map fun y => { y with lqLast := if ptpTotal q < total then 0 else y.lqLast } } ∧
    ∀ k : Fin 8, t.groups[k] = { s.groups[k] with ptpIdx := s.ptpMultiple k (ptpTotal q) }
  let stored := fun (n : Nat) (t : State) =>
    (16320875725 ≤ n ∧ n ≤ 18038862643 → Sets [(NET_PTP_INC_NS, n / 2 ^ 32), (NET_PTP_INC_FRAC, n % 2 ^ 32)] s t ∧
      t.net = { s.net with incLo := none }) ∧
    (n < 16320875725 ∨ 18038862643 < n → ignored t)
  (∀ (half : Option Bool) (v : DWord), s.takes (.ptpIncWrite half v) →
    (follows → Completes (.ptpIncWrite half v) s barred) ∧
    (¬follows → half = none → Completes (.ptpIncWrite half v) s (stored v.toNat)) ∧
    (¬follows → half = some true → Completes (.ptpIncWrite half v) s (stored (v.toNat % 2 ^ 32 * 2 ^ 32 + s.net.incLo.getD (s.get NET_PTP_INC_FRAC)))) ∧
    (¬follows → half = some false → Completes (.ptpIncWrite half v) s fun t =>
      Sets [] s t ∧ t.net = { s.net with incLo := some (v.toNat % 2 ^ 32) })) ∧
  (∀ v : Word, s.takes (.ptpOfsWrite v) →
    (follows → Completes (.ptpOfsWrite v) s barred) ∧
    (¬follows → v = 0x80000000 → Completes (.ptpOfsWrite v) s ignored) ∧
    (¬follows → v ≠ 0x80000000 → 0 ≤ total + v.toInt → total + v.toInt < 2 ^ 48 * 1000000000 → Completes (.ptpOfsWrite v) s fun t =>
      ∃ q : Ptp, steps q t ∧ q.sec * 1000000000 + q.ns = total + v.toInt ∧ q.ns < 1000000000 ∧ q.frac = p.frac)) ∧
  (s.takes .ptpSet → (follows → Completes .ptpSet s barred) ∧
    (¬follows → s.net.setNs < 1000000000 → s.net.setSec < 2 ^ 48 → Completes .ptpSet s (steps ⟨s.net.setSec, s.net.setNs, 0⟩))) ∧
  (∀ b : Bool, let c : Instr := if b then .setValid else .clrValid
    s.takes c → (follows → Completes c s (Sets [] s)) ∧
      (¬follows → Completes c s fun t => Sets [(NET_PTP_STATUS_VALID, bitOf (b && s.netRuns))] s t ∧
        (b = true → s.netRuns = true → s.get NET_PTP_STATUS_VALID = 0 → t.met.aggFlag = s.met.aggFlag.map fun _ => true))) ∧
  (s.takes .ptpNowRead → Completes .ptpNowRead s fun t => Sets [(NET_PTP_NOW_SEC_SEC, p.sec % 2 ^ 48)] s t ∧
    t.resp = ⟨BitVec.ofNat 64 p.ns, false⟩ ∧ t.net = s.net) ∧
  ∀ m : Fin 2,
  let x := s.net.macs[m]
  let enabled := s.get (MAC_CFG_EN m) = 1
  let runs := s.netRuns = true ∧ enabled
  let mac := fun (y : Mac) (t : State) => t.net = { s.net with macs := s.net.macs.set m y }
  (∀ v : Word, s.takes (.macEnWrite m v) →
    let n := v.toNat
    let en := n.testBit 31
    let o := otherMac m
    let mode := if enabled then s.get (MAC_CFG_MODE m) else n / 2 ^ 28 % 8
    let maxlen := if enabled then s.get (MAC_CFG_MAXLEN m) else n / 2 ^ 10 % 2 ^ 14
    let refuses := 5 ≤ n / 2 ^ 28 % 8 ∨ maxlen < 1518 ∨ 9216 < maxlen ∨ (en = true ∧ mode ≠ 0 ∧ s.get (LANE_ROLE_ROLE (4 + m.val)) ≠ 5) ∨
      (en = true ∧ mode = 0 ∧ s.get (MAC_CFG_EN o) = 1 ∧ s.get (MAC_CFG_MODE o) = 0)
    (refuses → Completes (.macEnWrite m v) s fun t => Sets [(MAC_STATUS_REFUSED m, s.counted (MAC_STATUS_REFUSED m))] s t ∧ t.net = s.net) ∧
    (¬refuses → Completes (.macEnWrite m v) s fun t =>
      Sets [(MAC_CFG_MODE m, mode), (MAC_CFG_MAXLEN m, maxlen), (MAC_CFG_SPEED m, if enabled then s.get (MAC_CFG_SPEED m) else n / 2 ^ 26 % 4),
        (MAC_CFG_AN m, n / 2 ^ 25 % 2), (MAC_CFG_PAUSE m, n / 2 ^ 24 % 2), (MAC_CFG_EN m, en.toNat)] s t ∧
      (en = true → ¬enabled →
        mac { x with txPos := 0, rxPos := 0, txStop := false, rxStop := false, paused := 0, pauseSent := false } t) ∧
      (en = false ∨ enabled → t.net = s.net))) ∧
  (s.takes (.kick m) → Completes (.kick m) s fun t => Sets [] s t ∧
    mac { x with txStop := false, rxStop := false, pauseSent := false } t ∧
    t.outbox = if x.pauseSent then s.outbox ++ [.pause m 0] else s.outbox) ∧
  (∀ (b : Bool) (rate : BitVec 2),
    (s.netRuns = true → Completes (.macLinkChange m b rate) s
      (Sets [(MAC_STATUS_LINK m, b.toNat), (MAC_STATUS_RATE m, rate.toNat), (NET_INT_LINK, 1)] s)) ∧
    (s.netRuns = false → exec (.macLinkChange m b rate) s = .next s)) ∧
  (∀ a : Fin 4,
    let d := 256 * s.get (MAC_RING_BASE m 0) + 16 * x.txPos
    let fl := s.sram.read (d + 8) 1
    let len := s.sram.read (d + 4) 2
    let bytes := s.frameBytes (s.sram.read d 4) len
    let ety := netAt bytes 12 2
    let fits := 64 ≤ len ∧ len ≤ s.get (MAC_CFG_MAXLEN m)
    let held := x.paused ≠ 0 ∨ s.launchNear m len = true
    let clear := fl.testBit 3 = true ∨ (s.get (MAC_SEC_CFG_BYPASS_ETYPE m) ≠ 0 ∧ s.get (MAC_SEC_CFG_BYPASS_ETYPE m) = ety) ∨
      (m.val, a.val) ∉ s.sag.saks
    let after := if x.txPos + 1 < s.get (MAC_RING_COUNT m 0) then x.txPos + 1 else 0
    let owned := runs ∧ x.txStop = false ∧ fl.testBit 0 = true ∧ ¬held
    let written := fun (status : Nat) (t : State) => t.sram.read (d + 8) 2 = status ∧
      (∀ y, y ≠ d + 8 → y ≠ d + 9 → t.sram.get y = s.sram.get y) ∧ t.net.macs[m].txPos = after ∧ t.get (MAC_INT_TX_DONE m) = 1
    let frame := fun (prot : Option (Nat × Nat × Nat)) => OutUnit.eth m (if fl.testBit 2 then oneStepFrame bytes p.sec p.ns else bytes) prot
    (¬runs ∨ x.txStop = true → exec (.macFrameTx m a) s = .next s) ∧
    (runs → x.txStop = false → fl.testBit 0 = false → Completes (.macFrameTx m a) s fun t =>
      Sets [] s t ∧ mac { x with txStop := true } t ∧ t.sram = s.sram ∧ t.outbox = s.outbox) ∧
    (runs → x.txStop = false → fl.testBit 0 = true → held → exec (.macFrameTx m a) s = .next s) ∧
    (owned → ¬fits → Completes (.macFrameTx m a) s fun t => written (fl - 1 + 256) t ∧ t.outbox = s.outbox ∧
      Sets [(MAC_INT_TX_DONE m, 1)] s t ∧ t.net.macs[m].pn = x.pn) ∧
    (owned → fits → clear → Completes (.macFrameTx m a) s fun t =>
      written (fl - 1) t ∧ t.outbox = s.outbox ++ [frame none] ∧ t.net.macs[m].pn = x.pn ∧
      (fl.testBit 1 = true → x.tsq.length < 16 →
        t.net.macs[m].tsq = x.tsq ++ [⟨s.sram.read (d + 6) 2, p.sec % 65536, p.ns⟩] ∧ t.get (MAC_TSQ_STATUS_LEVEL m) = x.tsq.length + 1) ∧
      (fl.testBit 1 = true → 16 ≤ x.tsq.length → t.net.macs[m].tsq = x.tsq ∧ t.get (MAC_TSQ_STATUS_OVF m) = 1 ∧
        t.get (MAC_TSQ_STATUS_OVF_COUNT m) = s.counted (MAC_TSQ_STATUS_OVF_COUNT m) ∧ t.get NET_INT_TSQ_OVF = 1) ∧
      (fl.testBit 1 = false → Sets [(MAC_INT_TX_DONE m, 1)] s t)) ∧
    (owned → fits → ¬clear → x.pn[a] ≤ s.pnMax m → Completes (.macFrameTx m a) s fun t =>
      written (fl - 1) t ∧ t.outbox = s.outbox ++ [frame (some (a.val, x.pn[a], s.get (MAC_SEC_CFG_OFFSET m)))] ∧ t.net.macs[m].pn = x.pn.set a (x.pn[a] + 1) ∧
      (x.pn[a] = s.pnMax m → t.get NET_INT_SEC_EXHAUST = 1) ∧
      (s.get (MAC_SEC_CFG_PN_THR m) ≠ 0 → s.get (MAC_SEC_CFG_PN_THR m) * s.pnMax m ≤ 8 * x.pn[a] → t.get NET_INT_SEC_PN = 1)) ∧
    (owned → fits → ¬clear → s.pnMax m < x.pn[a] → Completes (.macFrameTx m a) s fun t =>
      written (fl - 1 + 256) t ∧ t.outbox = s.outbox ∧ t.get NET_INT_SEC_EXHAUST = 1 ∧
      t.get (MAC_SEC_CFG_DROPS m) = s.counted (MAC_SEC_CFG_DROPS m)) ∧
    ∀ (e : LaunchEntry) (rest : List LaunchEntry), x.lq = e :: rest →
      let now := (p.sec % 2 ^ 32) * 1000000000 + p.ns
      let at_ := e.sec * 1000000000 + e.ns
      let late := at_ < now ∨ at_ < x.lqLast
      let takenOff := fun (t : State) => t.net.macs[m].lq = rest ∧ t.net.macs[m].lqLast = at_ ∧
        t.get (MAC_LQ_STATUS_LEVEL m) = rest.length % 2 ^ 11
      let plain := (m.val, a.val) ∉ s.sag.saks
      (¬runs ∨ (¬late ∧ now + 100 ≤ at_) ∨ (s.get (MAC_STATUS_LINK m) = 1 ∧ x.paused ≠ 0) → exec (.launchDue m a) s = .next s) ∧
      (runs → late ∨ at_ < now + 100 → s.get (MAC_STATUS_LINK m) = 0 → Completes (.launchDue m a) s fun t => takenOff t ∧
        t.get (MAC_LQ_STATUS_DROPPED m) = s.counted (MAC_LQ_STATUS_DROPPED m) ∧ t.outbox = s.outbox) ∧
      (runs → late ∨ at_ < now + 100 → s.get (MAC_STATUS_LINK m) = 1 → x.paused = 0 → plain → Completes (.launchDue m a) s fun t => takenOff t ∧
        t.outbox = s.outbox ++ [.eth m (s.frameBytes e.addr e.len) none] ∧
        (late → t.get (MAC_LQ_STATUS_LATE m) = s.counted (MAC_LQ_STATUS_LATE m) ∧ t.get NET_INT_LQ_LATE = 1) ∧
        (e.tsReq = true → x.tsq.length < 16 → ∃ ns sec, t.net.macs[m].tsq = x.tsq ++ [⟨e.id, sec, ns⟩] ∧
          (e.ns < 999999992 → ¬late → e.ns ≤ ns ∧ ns ≤ e.ns + 8)))) ∧
  (∀ a : Fin 4, x.lq = [] → exec (.launchDue m a) s = .next s) ∧
  (∀ (bytes : List Byte) (crc : Bool) (tag : Option SecTag) (icv : Bool),
    let c : Instr := .macFrameRx m bytes crc tag icv
    let d := 256 * s.get (MAC_RING_BASE m 1) + 16 * x.rxPos
    let ety := netAt bytes 12 2
    let passes := s.get (MAC_SEC_CFG_BYPASS_ETYPE m) ≠ 0 ∧ s.get (MAC_SEC_CFG_BYPASS_ETYPE m) = ety
    let strict := s.get (MAC_SEC_CFG_VALIDATE m) = 2
    let looks := (strict ∨ s.get (MAC_SEC_CFG_VALIDATE m) = 1) ∧ ¬passes
    let sa := fun (t : SecTag) => Fin.ofNat 32 (4 * t.sc.val + t.an.val)
    let marked : Option Nat := if strict then none else some 8
    let verdict : Option Nat := if ¬looks then some 0 else match tag with
      | none => if strict then none else some 0
      | some t => if (m.val, 4 + (sa t).val) ∉ s.sag.saks then marked
        else if t.pn.toNat + Config.replayWindow m t.sc % 2 ^ 32 < x.rxPn[sa t] then none
        else if icv then some 4 else marked
    let rxPn := match tag with
      | some t => if verdict = some 4 then x.rxPn.set (sa t) (max x.rxPn[sa t] (t.pn.toNat + 1)) else x.rxPn
      | none => x.rxPn
    let fits := runs ∧ 64 ≤ bytes.length ∧ bytes.length ≤ s.get (MAC_CFG_MAXLEN m)
    let pause := s.get (MAC_CFG_PAUSE m) = 1 ∧ crc = true ∧ ety = 0x8808 ∧ netAt bytes 14 2 = 1
    let taken := fits ∧ ¬pause ∧ verdict ≠ none
    let asks := s.get (MAC_CFG_PAUSE m) = 1 ∧ x.pauseSent = false
    let room := x.rxStop = false ∧ (s.sram.read (d + 6) 2).testBit 0 = true
    let buf := s.sram.read d 4
    let size := s.sram.read (d + 4) 2
    (¬fits ∨ (¬pause ∧ verdict = none) → exec c s = .next s) ∧
    (fits → pause → Completes c s fun t => Sets [] s t ∧ t.sram = s.sram ∧
      mac { x with paused := 512 * netAt bytes 16 2 * s.bitTenths m / 10 } t) ∧
    (taken → ¬room → Completes c s fun t => Sets [(MAC_INT_RX_NO_DESC m, 1)] s t ∧ t.sram = s.sram ∧
      (asks → mac { x with rxPn := rxPn, rxStop := true, pauseSent := true } t ∧ t.outbox = s.outbox ++ [.pause m 0xFFFF]) ∧
      (¬asks → mac { x with rxPn := rxPn, rxStop := true } t ∧ t.outbox = s.outbox)) ∧
    (taken → room → buf + size ≤ d ∨ d + 16 ≤ buf → bytes.length < 2 ^ 16 → p.ns < 2 ^ 32 → Completes c s fun t =>
      Sets [(MAC_INT_RX_DONE m, 1)] s t ∧
      (∀ i b, i < size → bytes[i]? = some b → t.sram.get (buf + i) = b) ∧ t.sram.read (d + 4) 2 = bytes.length ∧
      t.sram.read (d + 6) 2 = 2 * bitOf (!crc) + verdict.getD 0 + 16 * bitOf (ptpEvent bytes) ∧
      t.sram.read (d + 8) 4 = 65536 * (p.sec % 65536) ∧ t.sram.read (d + 12) 4 = p.ns ∧
      mac { x with rxPn := rxPn, rxPos := if x.rxPos + 1 < s.get (MAC_RING_COUNT m 1) then x.rxPos + 1 else 0 } t)) ∧
  (∀ v : Word, s.takes (.lqCommit m v) →
    let len := v.toNat / 2 ^ 16 % 2 ^ 11
    let bad := len < 60 ∨ 1522 < len
    (bad → Completes (.lqCommit m v) s fun t => Sets [(MAC_LQ_STATUS_REFUSED m, s.counted (MAC_LQ_STATUS_REFUSED m))] s t ∧ t.net = s.net) ∧
    (¬bad → 1024 ≤ x.lq.length → Completes (.lqCommit m v) s fun t =>
      Sets [(MAC_LQ_STATUS_REFUSED m, s.counted (MAC_LQ_STATUS_REFUSED m)), (NET_INT_LQ_FULL, 1)] s t ∧ t.net = s.net) ∧
    (¬bad → x.lq.length < 1024 → Completes (.lqCommit m v) s fun t => Sets [(MAC_LQ_STATUS_LEVEL m, x.lq.length + 1)] s t ∧
      mac { x with lq := x.lq ++ [⟨s.get (MAC_LQ_ADDR_ADDR m), s.get (MAC_LQ_TIME_SEC m), s.get (MAC_LQ_TIME_NS m), len,
        v.toNat.testBit 30, v.toNat % 2 ^ 16⟩] } t)) ∧
  (s.takes (.flush m) → Completes (.flush m) s fun t => Sets [(MAC_LQ_STATUS_LEVEL m, 0)] s t ∧ mac { x with lq := [] } t) ∧
  ∀ half : Option Bool, s.takes (.tsqRead m half) →
    (x.tsq = [] → Completes (.tsqRead m half) s fun t => Sets [] s t ∧ t.net = s.net ∧
      t.resp = ⟨match half with | none => 2 ^ 63 | some true => 2 ^ 31 | some false => 0, false⟩) ∧
    ∀ e rest, x.tsq = e :: rest → e.sec < 2 ^ 16 → rest.length < 32 →
      (half ≠ some false → Completes (.tsqRead m half) s fun t => mac { x with tsq := rest } t ∧
        Sets [(MAC_TSQ_STATUS_SEC m, e.sec), (MAC_TSQ_STATUS_LEVEL m, rest.length)] s t ∧
        t.resp = ⟨BitVec.ofNat 64 (if half = none then e.id * 2 ^ 32 + e.ns else (e.id * 2 ^ 32 + e.ns) / 2 ^ 32), false⟩) ∧
      (half = some false → Completes (.tsqRead m half) s fun t => t.net = s.net ∧ Sets [(MAC_TSQ_STATUS_SEC m, e.sec)] s t ∧
        t.resp = ⟨BitVec.ofNat 64 ((e.id * 2 ^ 32 + e.ns) % 2 ^ 32), false⟩)
/-! ### The Saggar -/

/-- R336, R338, R340, R344, R347 to R349, R353 to R355, R362, R364, R366, R410: when a service does not run, the end of a service, held journal
entries, the attestation trees, tamper events, and the flash. It says where SERVICE_COMPLETE, TREE_BUILD_DONE, NONCE_EXPIRY, TAMPER_EVENT,
SAGGAR_ENTRY_FLUSH, XSPI_CMD and XSPI_COMMAND_DONE complete. That a sweep waits for the supply is entry 133 of the log, the regions of the
slots are entry 132. -/
def Obligations.SaggarMailboxAndEvents : Prop :=
  ∀ s : State,
  let x := s.sag
  let loss := s.jrnlLoss 0
  let cleared : SagState := { x with rsp := [], rspSig := none, rspFree := none, rspInfo := none, rspCert := false }
  (∀ (c : Instr) (r : SvcReq), serviceOf c = some r → s.takes c →
    let id := svcId r
    let open_ := s.get SAG_RESULT_BUSY = 0 ∧ (s.get SAG_STATUS_LOCKED = 0 ∨ id = 1)
    let turned := fun (code : Nat) (t : State) => s.SvcEnds id (svcLen r) code [] t ∧ t.sag = { cleared with svc := some (svcCode id code) }
    (s.get SAG_RESULT_BUSY = 1 → Completes c s fun t => Sets [(SAG_REFUSED_COUNT, s.counted SAG_REFUSED_COUNT)] s t ∧ t.sag = x) ∧
    (s.get SAG_RESULT_BUSY = 0 → s.get SAG_STATUS_LOCKED = 1 → id ≠ 1 → Completes c s (turned 9)) ∧
    (open_ → ¬s.lifeAllows id → Completes c s (turned 6)) ∧
    (open_ → s.lifeAllows id → 8192 < svcLen r → Completes c s (turned 3)) ∧
    (s.admits c → id ∈ ownerServices → x.nonce = none → Completes c s fun t => s.SvcEnds id (svcLen r) 5 loss t ∧
      Journals 0x26 (id + 2 ^ 8 * 5) 0 s t) ∧
    (s.admits c → ¬s.authority r → x.nonce.isSome = true → Completes c s fun t => s.SvcEnds id (svcLen r) 4 loss t ∧
      t.sag.nonce = none ∧ Journals 0x26 (id + 2 ^ 8 * 4) 0 s t)) ∧
  (x.svc = none → exec .serviceComplete s = .next s) ∧
  (∀ r, x.svc = some r →
    let done := [(SAG_RESULT_BUSY, 0), (SAG_RESULT_CODE, r.code % 2 ^ 8), (SAG_RESULT_RSP_LEN, r.len % 2 ^ 14), (SAG_INT_DONE, 1)]
    let y : SagState := { x with svc := none, rsp := r.rsp, rspSig := r.sig, rspFree := r.free, rspInfo := r.info, rspCert := r.cert }
    (r.sig = none → Completes .serviceComplete s fun t => Sets done s t ∧ t.sag = y) ∧
    ∀ q, r.sig = some q → Completes .serviceComplete s fun t => Sets (done ++ loss) s t ∧ t.sag.released = some q ∧ t.sag.svc = none ∧
      t.sag.rsp = r.rsp ∧ t.sag.rspSig = some q ∧ Journals 0x22 0 q s t) ∧
  Completes .nonceExpiry s (fun t => Sets [] s t ∧ t.sag = { x with nonce := none }) ∧
  (let q := s.get SAG_ATTEST_NEXT_NEXT
   let keeps := fun (n : Nat) => if n ∈ x.trees then x.trees else x.trees ++ [n]
   let half := 16384 ≤ q % 32768
   (x.devKey = true → x.treeKept = false → Completes .treeBuildDone s fun t => Sets [(SAG_STATUS_READY, 1)] s t ∧
     t.sag = { x with treeKept := true, trees := keeps (q / 32768) }) ∧
   (x.devKey = true → x.treeKept = true → half → Completes .treeBuildDone s fun t => Sets [] s t ∧
     t.sag = { x with nextTree := true, trees := keeps (q / 32768 + 1) }) ∧
   (x.devKey = false ∨ (x.treeKept = true ∧ ¬half) → exec .treeBuildDone s = .next s)) ∧
  (s.up .meter = true → s.met.entriesOpen = false → Completes .saggarEntryFlush s fun t => Sets [] s t ∧ t.sag = { x with held := [] } ∧
    t.met = { s.met with entriesOpen := true, gap := none, jq := match s.met.gap with
      | some g => afterBoot g (s.met.jq ++ x.held) | none => s.met.jq ++ x.held }) ∧
  (s.up .meter = false ∨ s.met.entriesOpen = true → exec .saggarEntryFlush s = .next s) ∧
  (∀ (sensor : Fin 4) (v : Word),
    let c : Instr := .tamperEvent sensor v
    let r := x.tamperResp
    let does := match sensor.val with | 0 => Tamper.zeroise | 1 => r.1 | 2 => r.2.1 | _ => r.2.2
    let permits := s.get PWR_STATUS_VAUX_OK = 1 ∨ 50 * s.get PUG_THR_MEAS ≤ s.get PUG_LEVELS_STORE ∨
      (sensor = 0 ∧ s.get PUG_STATUS_SOURCE = 2)
    let counted := [(SAG_TAMPER_EVENT, s.get SAG_TAMPER_EVENT ||| 2 ^ sensor.val), (SAG_TAMPER_COUNT, s.counted SAG_TAMPER_COUNT),
      (SAG_INT_TAMPER, 1)]
    let regs := counted ++ if does = .lock then [(SAG_STATUS_LOCKED, 1), (SAG_STATUS_DEBUG, 0)] else []
    let detail := sensor.val + 2 ^ 8 * tamperCode does
    let gasps := s.get PUG_LG_CFG_ON_TAMPER = 1 ∧ x.devKey = true
    let locks := fun (t : State) => does = .lock → ∀ q, x.svc = some q → q.id ≠ 1 → t.sag.svc = some (svcCode q.id 9)
    (permits → does ≠ .zeroise → ¬gasps → Completes c s fun t => Sets (regs ++ loss) s t ∧ t.pug = s.pug ∧ locks t ∧
      Journals 0x24 detail v.toNat s t) ∧
    (permits → does ≠ .zeroise → gasps → s.pug.msg = none → Completes c s fun t => Sets (regs ++ loss ++ [(PUG_STATUS_LG, 1)]) s t ∧
      t.pug.msg = some { trigger := 2, detail := sensor.val, time := s.moduleTime } ∧ locks t ∧ Journals 0x24 detail v.toNat s t) ∧
    (∀ m, permits → does ≠ .zeroise → gasps → s.pug.msg = some m → Completes c s fun t => t.pug = s.pug ∧ locks t ∧
      (∀ e ∈ regs, t.get e.1 = e.2) ∧
      (s.met.entriesOpen = true → s.crossing + 2 ≤ 64 → Sets regs s t ∧ t.met.jq = s.met.jq ++
        [⟨0x24, detail, v.toNat, [], s.moduleTime, s.ptpValid, x.heldLoss⟩,
         ⟨0x29, 3, payload2 (m.index.getD 0) 2, [], s.moduleTime, s.ptpValid, false⟩])) ∧
    (permits → does = .zeroise → Completes c s fun t => (∀ e ∈ counted, t.get e.1 = e.2) ∧ t.get SAG_STATUS_LIFECYCLE = 3 ∧
      t.sag.lifecycle = 3 ∧ t.sag.okek = none ∧ t.sag.caks = [] ∧ t.sag.derived = [] ∧ t.sag.saks = [] ∧ t.sag.sakVals = [] ∧
      t.sag.nonce = none ∧ t.sag.drbg = none ∧ t.sag.secret = none ∧ t.sag.devKey = false ∧ t.pug.msg = none ∧ t.pug.load = false ∧
      t.get PUG_STATUS_LG = 0 ∧
      (s.met.entriesOpen = true → s.crossing < 64 → ∃ more, t.met.jq = s.met.jq ++
        ⟨0x24, detail, v.toNat, [], s.moduleTime, s.ptpValid, x.heldLoss⟩ :: more) ∧
      (s.get PWR_STATUS_VAUX_OK = 1 → t.get SAG_INT_ZEROISED = 1 ∧ t.pwr.orderly = some (s.pwr.orderly.getD 7)) ∧
      (s.get PWR_STATUS_VAUX_OK = 0 → t.pwr = s.pwr ∧ t.get SAG_INT_ZEROISED = s.get SAG_INT_ZEROISED ∧ t.sag.zeroUnseen = true)) ∧
    (¬permits → (∀ e ∈ s.pug.deferred, e.1 ≠ sensor.val) → Completes c s fun t => Sets [] s t ∧ t.sag = x ∧
      t.pug = { s.pug with deferred := s.pug.deferred ++ [(sensor.val, v.toNat)] }) ∧
    (¬permits → (∃ e ∈ s.pug.deferred, e.1 = sensor.val) → exec c s = .next s) ∧
    (permits → s.pug.deferred = [(sensor.val, v.toNat)] → exec c (s.withPug { s.pug with deferred := [] }) = .next s.tamperDue)) ∧
  ((∀ e ∈ s.pug.deferred, s.tamperPermitted e.1 = false) → s.tamperDue = s) ∧
  (∀ (v : Word) (programs : Bool) (span : Nat),
    let c : Instr := .xspiCmd v programs span
    let runs := s.up .host = true ∧ s.get PWR_STATUS_STANDBY = 0
    let a := s.get XSPI_ADDR_ADDR
    let barred := programs = true ∧ ∃ e ∈ barredRegions x.bootNow, 0 < span ∧ a < e.2 ∧ e.1 < a + span
    (¬runs → exec c s = .next s) ∧
    (runs → barred → Completes c s fun t =>
      Sets [(SAG_REFUSED_COUNT, s.counted SAG_REFUSED_COUNT)] s t ∧ t.resp = ⟨0, true⟩ ∧ t.sag = x) ∧
    (runs → ¬barred → s.get XSPI_STATUS_BUSY = 1 → Completes c s fun t => Sets [] s t ∧ t.resp = ⟨0, false⟩ ∧ t.sag = x) ∧
    (runs → ¬barred → s.get XSPI_STATUS_BUSY = 0 → Completes c s fun t =>
      Sets [(⟨0x40200004, 31, 0⟩, v.toNat), (XSPI_STATUS_BUSY, 1)] s t ∧ t.resp = ⟨0, false⟩ ∧
      t.sag = { x with flashCmd := some v.toNat })) ∧
  ∀ err : Bool,
    (x.flashCmd = none → exec (.xspiCommandDone err) s = .next s) ∧
    (x.flashCmd.isSome = true → Completes (.xspiCommandDone err) s fun t => t.sag = { x with flashCmd := none } ∧
      Sets [(XSPI_STATUS_BUSY, 0), (XSPI_STATUS_ERROR, err.toNat), (if err then XSPI_INT_ERROR else XSPI_INT_DONE, 1)] s t)

/-- R336 to R354: what each service of the Saggar does once it runs. A request runs (`State.serves`) where firmware's access takes effect, the
mailbox is not busy, the Saggar is not locked, the lifecycle state lets the service, its bytes fit SAG.REQ, and where the owner must sign it
the signature verifies under the nonce; all of it is said of the state and the operands alone. So it says where GET_INFO, GET_NONCE, ATTEST,
GET_CERT, ENROLL, ROTATE, RELEASE, FW_CONFIRM, SET_BOOT, COUNTER_INC, COUNTER_READ, DEBUG_UNLOCK, DEBUG_LOCK, TOTALS_RESET, TAMPER_CFG,
ZEROISE, CAK_INSTALL, SAK_GEN, SAK_LOAD, MKA_ICV and RANDOM complete. The lengths of the responses that the spec does not give, and what
verifies and unwraps, are entries 73 and 130 of the log. -/
def Obligations.SaggarServices : Prop :=
  ∀ s : State,
  let x := s.sag
  let g := x.gens
  let loss := s.jrnlLoss 0
  (s.serves .getInfo → Completes .getInfo s fun t => t.sag.zeroUnseen = false ∧
    s.SvcRuns 0 { id := 0x01, code := 0, len := Config.responseLen 0x01, info := some (x.lifecycle, x.zeroUnseen) } t) ∧
  (s.serves .getCert → Completes .getCert s (s.SvcRuns 0 { id := 0x04, code := 0, len := Config.responseLen 0x04, cert := true })) ∧
  (s.serves .getNonce → Completes .getNonce s fun t => s.SvcAnswers 0x02 0 32 t ∧ t.sag.nonce = some s.free) ∧
  (∀ (nonce : Vector Word 8) (ok : Bool), s.serves (.attest nonce ok) →
    let q := s.get SAG_ATTEST_NEXT_NEXT
    let next := [if q = 2 ^ 25 - 1 then (SAG_ATTEST_NEXT_EXHAUSTED, 1) else (SAG_ATTEST_NEXT_NEXT, q + 1)]
    let ready := s.get SAG_STATUS_READY = 1
    let spent := s.get SAG_ATTEST_NEXT_EXHAUSTED = 1
    (spent → Completes (.attest nonce ok) s (s.SvcEnds 0x03 32 8 [])) ∧
    (¬spent → ¬ready → Completes (.attest nonce ok) s (s.SvcEnds 0x03 32 7 [])) ∧
    (¬spent → ready → ok = false → Completes (.attest nonce ok) s fun t => t.sag.error = true ∧ t.sag.fault = true ∧
      t.get SAG_STATUS_LIFECYCLE = 4 ∧ t.get SAG_STATUS_APPROVED = 0 ∧ ∀ e ∈ next, t.get e.1 = e.2) ∧
    (¬spent → ready → ok = true → q % 32768 ≠ 32767 → Completes (.attest nonce ok) s fun t =>
      Sets ([(SAG_CMD_SERVICE, 0x03), (SAG_CMD_LEN, 32), (SAG_RESULT_BUSY, 1)] ++ next) s t ∧
      ∃ r, t.sag.svc = some r ∧ r.code = 0 ∧ r.len = 5432 ∧ r.sig = some q ∧ cellGet r.rsp 0 = 0x41545347 ∧
        cellGet r.rsp 24 = BitVec.ofNat 32 q ∧ (∀ j : Fin 8, cellGet r.rsp (32 + 4 * j.val) = nonce[j]) ∧
        ∀ j : Fin 8, cellGet r.rsp (64 + 4 * j.val) = BitVec.ofNat 32 (digestPart x.fwDigest 4 j.val)) ∧
    (¬spent → ready → ok = true → q % 32768 = 32767 → Completes (.attest nonce ok) s fun t =>
      t.get SAG_STATUS_READY = bitOf x.nextTree ∧ t.sag.treeKept = x.nextTree ∧ t.sag.nextTree = false)) ∧
  (∀ (fw glz svc : BitVec 480) (okek : BitVec 256) (sig : HssSig), s.serves (.enroll fw glz svc okek sig) →
    Completes (.enroll fw glz svc okek sig) s fun t =>
      s.SvcEnds 0x10 (212 + hssLen sig) 0 ([(SAG_STATUS_LIFECYCLE, 2), (SAG_STATUS_APPROVED, 1)] ++ loss) t ∧ t.sag.lifecycle = 2 ∧
      t.sag.nonce = none ∧ t.sag.keyFw = some fw ∧ t.sag.keyGlz = some glz ∧ t.sag.keySvc = some svc ∧ t.sag.okek = some okek.toNat ∧
      t.sag.gens = g ∧ Journals 0x21 1 g.1 s t) ∧
  (∀ (k : KeySlot) (v : BitVec 480) (wrap : Wrapped) (sig : HssSig), s.serves (.rotate k v wrap sig) →
    let gen := match k with | .fw => g.1 | .glz => g.2.1 | .svc => g.2.2.1 | .okek => g.2.2.2
    let c : Instr := .rotate k v wrap sig
    let ends := s.SvcEnds 0x11 (61 + hssLen sig)
    (255 ≤ gen → Completes c s fun t => ends 0x0B [] t ∧ t.sag.gens = g ∧ t.sag.nonce = none) ∧
    (gen < 255 → k = .fw → Completes c s fun t => ends 0 loss t ∧ t.sag.keyFw = some v ∧ t.sag.gens = (g.1 + 1, g.2) ∧
      Journals 0x21 (2 + 2 ^ 8) (gen + 1) s t) ∧
    (gen < 255 → k = .svc → Completes c s fun t => ends 0 loss t ∧ t.sag.keySvc = some v ∧
      t.sag.gens = (g.1, g.2.1, g.2.2.1 + 1, g.2.2.2) ∧ Journals 0x21 (2 + 2 ^ 8 * 3) (gen + 1) s t) ∧
    (gen < 255 → k = .okek → Completes c s fun t => ends 0 loss t ∧ x.okek = some wrap.key ∧
      t.sag.okek = some wrap.plain.toNat ∧ t.sag.gens = (g.1, g.2.1, g.2.2.1, g.2.2.2 + 1) ∧
      Journals 0x21 (2 + 2 ^ 8 * 4) (gen + 1) s t) ∧
    (gen < 255 → k = .glz → Completes c s fun t => t.sag.keyGlz = some v ∧ t.sag.gens = (g.1, g.2.1 + 1, g.2.2) ∧
      Journals 0x21 (2 + 2 ^ 8 * 2) (gen + 1) s t ∧
      (s.glz.fireWait = false → s.phase = 2 ∨ s.phase = 4 → t.glz.staged = none ∧ t.phase = s.phase - 1 ∧
        t.get GLZ_STAGED_ID_IMAGE_ID = 0) ∧
      (s.glz.fireWait = true ∨ (s.phase ≠ 2 ∧ s.phase ≠ 4) → ends 0 loss t ∧ t.glz = s.glz))) ∧
  (∀ sig : HssSig, s.serves (.releaseOwner sig) → Completes (.releaseOwner sig) s fun t => t.sag.lifecycle = 1 ∧
    t.get SAG_STATUS_LIFECYCLE = 1 ∧ t.get SAG_STATUS_APPROVED = 0 ∧ t.sag.keyFw = none ∧ t.sag.keyGlz = none ∧ t.sag.keySvc = none ∧
    t.sag.okek = none ∧ t.sag.caks = [] ∧ t.sag.derived = [] ∧ t.sag.gens = g ∧ Journals 0x21 3 0 s t ∧
    (s.glz.fireWait = false → s.phase = 2 ∨ s.phase = 4 → t.glz.staged = none) ∧ (s.glz.fireWait = true → t.glz = s.glz)) ∧
  (s.serves .fwConfirm → x.fwVersion < 2 ^ 32 →
    let v := max (s.get SAG_ROLLBACK_FW_VALUE) x.fwVersion
    Completes .fwConfirm s fun t => s.SvcEnds 0x13 0 0 ([(SAG_ROLLBACK_FW_VALUE, v)] ++ loss) t ∧ Journals 0x27 2 v s t) ∧
  (∀ (glz : Bool) (slot : Fin 2) (f : FwFile), s.serves (.setBoot glz slot f) →
    let i := readSlot glz (if glz then x.keyGlz else x.keyFw) f
    let old := bootInForce x.bootTable
    let good := i.readOk = true ∧ i.formatOk = true ∧ i.signatureOk = true
    let least := s.get (if glz then SAG_ROLLBACK_GLZ_VALUE else SAG_ROLLBACK_FW_VALUE)
    let c : Instr := .setBoot glz slot f
    (¬good → Completes c s fun t => s.SvcEnds 0x14 2 4 [] t ∧ t.sag.bootTable = x.bootTable) ∧
    (good → i.version < least → Completes c s fun t => s.SvcEnds 0x14 2 0x0A [] t ∧ t.sag.bootTable = x.bootTable) ∧
    (good → least ≤ i.version → Completes c s fun t => s.SvcEnds 0x14 2 0 loss t ∧ Journals 0x27 1 slot s t ∧
      bootInForce t.sag.bootTable = { old with crcOk := true, seq := old.seq + 1, fwSlot := if glz then old.fwSlot else slot.val,
                                               glzSlot := if glz then slot.val else old.glzSlot } ∧
      (t.sag.bootTable.1 = old ∨ t.sag.bootTable.2 = old) ∧ t.sag.bootNow = x.bootNow ∧ (glz = true → i.digest ∈ t.glz.verified))) ∧
  (∀ k : Fin 8, x.gp.length = 8 →
    (s.serves (.counterInc k) → Completes (.counterInc k) s fun t => s.SvcEnds 0x18 1 0 [] t ∧
      t.sag.gp.getD k.val 0 = min (x.gp.getD k.val 0 + 1) (2 ^ 32 - 1) ∧
      ∀ j : Fin 8, j ≠ k → t.sag.gp.getD j.val 0 = x.gp.getD j.val 0) ∧
    (s.serves (.counterRead k) → Completes (.counterRead k) s fun t => t.sag.gp = x.gp ∧
      ∃ r, t.sag.svc = some r ∧ r.code = 0 ∧ r.len = 4 ∧ cellGet r.rsp 0 = BitVec.ofNat 32 (x.gp.getD k.val 0))) ∧
  (∀ (two : Bool) (sig : HssSig), s.serves (.debugUnlock two sig) →
    let scope := if two then 2 else 1
    let ends := s.SvcEnds 0x20 (1 + hssLen sig)
    (two = true → s.phase ≠ 1 → s.phase ≠ 2 → Completes (.debugUnlock two sig) s (ends 6 [])) ∧
    (two = false ∨ s.phase = 1 ∨ s.phase = 2 → Completes (.debugUnlock two sig) s fun t =>
      ends 0 ([(SAG_STATUS_DEBUG, scope)] ++ loss) t ∧ Journals 0x23 scope 0 s t)) ∧
  (s.serves .debugLock → Completes .debugLock s (s.SvcEnds 0x21 0 0 [(SAG_STATUS_DEBUG, 0)])) ∧
  (∀ sig : HssSig, s.serves (.totalsReset sig) → Completes (.totalsReset sig) s fun t => s.SvcEnds 0x22 (hssLen sig) 0 [] t ∧
    t.met = { s.met with resetDue := true } ∧ t.sag.nonce = none) ∧
  (∀ (temp volt clk : Tamper) (hi : Fin 41) (sig : HssSig), s.serves (.tamperCfg temp volt clk hi sig) →
    Completes (.tamperCfg temp volt clk hi sig) s fun t => s.SvcEnds 0x23 (4 + hssLen sig) 0 [] t ∧ t.sag.tamperResp = (temp, volt, clk) ∧
      t.sag.tempHi = 110 + hi.val ∧ t.sag.nonce = none) ∧
  (∀ sig : HssSig, s.serves (.zeroise sig) → Completes (.zeroise sig) s fun t => t.get SAG_STATUS_LIFECYCLE = 3 ∧ t.sag.lifecycle = 3 ∧
    t.sag.okek = none ∧ t.sag.caks = [] ∧ t.sag.saks = [] ∧ t.sag.devKey = false ∧ t.sag.secret = none ∧ t.get SAG_STATUS_READY = 0 ∧
    t.pug.msg = none ∧ t.sag.svc = some (svcCode 0x24 0) ∧
    (s.get PWR_STATUS_VAUX_OK = 1 → t.get SAG_INT_ZEROISED = 1 ∧ t.pwr.orderly = some (s.pwr.orderly.getD 7))) ∧
  ∀ (m : Fin 2) (slot : Fin 4),
    let key := s.cakOf m.val slot.val
    (∀ (ckn : List Byte) (wrap : Wrapped), s.serves (.cakInstall m slot ckn wrap) →
      let c : Instr := .cakInstall m slot ckn wrap
      let ends := s.SvcEnds 0x28 (63 + ckn.length)
      let fits := 1 ≤ ckn.length ∧ ckn.length ≤ 32
      let opens := x.okek = some wrap.key ∧ wrap.aad = ckn
      (¬fits → Completes c s fun t => ends 3 [] t ∧ t.sag.caks = x.caks) ∧
      (fits → ¬opens → Completes c s fun t => ends 4 [] t ∧ t.sag.caks = x.caks) ∧
      (fits → opens → Completes c s fun t => ends 0 [] t ∧ (m.val, slot.val, ckn, wrap.plain.toNat) ∈ t.sag.caks ∧
        (∀ e : Nat × Nat × List Byte × Nat, ¬(e.1 = m.val ∧ e.2.1 = slot.val) → (e ∈ t.sag.caks ↔ e ∈ x.caks)) ∧
        t.cakOf m.val slot.val = some (Config.kek wrap.plain.toNat ckn, Config.ick wrap.plain.toNat ckn))) ∧
    (∀ a : Fin 36,
      let loaded := fun (v : Nat) (t : State) => (m.val, a.val) ∈ t.sag.saks ∧ (∀ e, e ≠ (m.val, a.val) → (e ∈ t.sag.saks ↔ e ∈ x.saks)) ∧
        (m.val, a.val, v) ∈ t.sag.sakVals ∧ ∀ i : Fin 4, i.val = a.val → t.net.macs[m].pn[i] = 1
      (s.serves (.sakGen m a slot) →
        (key.isSome = true → Completes (.sakGen m a slot) s fun t => s.SvcAnswers 0x29 3 40 t ∧ loaded (Config.drawnSak s.free) t) ∧
        (key = none → Completes (.sakGen m a slot) s fun t => s.SvcEnds 0x29 3 0x0B [] t ∧ t.sag.saks = x.saks)) ∧
      ∀ wrap : Wrapped, s.serves (.sakLoad m a slot wrap) →
        let c : Instr := .sakLoad m a slot wrap
        (∀ k, key = some k → k.1 = wrap.key → Completes c s fun t => s.SvcEnds 0x2A 43 0 [] t ∧ loaded wrap.plain.toNat t) ∧
        (∀ k, key = some k → k.1 ≠ wrap.key → Completes c s fun t => s.SvcEnds 0x2A 43 4 [] t ∧ t.sag.saks = x.saks) ∧
        (key = none → Completes c s fun t => s.SvcEnds 0x2A 43 0x0B [] t ∧ t.sag.saks = x.saks)) ∧
    (∀ pdu : List Byte, s.serves (.mkaIcv (m, slot) pdu) →
      (∀ k, key = some k → Completes (.mkaIcv (m, slot) pdu) s fun t => ∃ r, s.SvcRuns (2 + pdu.length) r t ∧ r.id = 0x2B ∧ r.code = 0 ∧
        r.len = 16 ∧ ∀ i : Fin 4, cellGet r.rsp (4 * i.val) = Config.icvWord k.2 pdu i.val) ∧
      (key = none → Completes (.mkaIcv (m, slot) pdu) s (s.SvcEnds 0x2B (2 + pdu.length) 0x0B []))) ∧
    ∀ n : BitVec 14, s.serves (.random n) →
      (1 ≤ n.toNat → n.toNat ≤ 4096 → Completes (.random n) s (s.SvcAnswers 0x30 2 n.toNat)) ∧
      (n.toNat = 0 ∨ 4096 < n.toNat → Completes (.random n) s (s.SvcEnds 0x30 2 3 []))
/-! ### Power, start-up and reset -/

/-- R25, R263, R265, R360, R364, R367, R368, R370, R374 to R376, R378 to R380: supply events with the strap pins sampled where VAUX becomes
valid and the source that takes the always-on island where it is lost, the power-fail warning, gate power, the watchdog, standby with what
wakes it, and die temperature. -/
def Obligations.PowerSupplyEvents : Prop :=
  ∀ s : State,
  let x := s.pwr
  let ok := s.get PWR_STATUS_VAUX_OK = 1
  let refused := [(PWR_REFUSED_COUNT, s.counted PWR_REFUSED_COUNT)]
  let dog := s.get PWR_WDOG_CFG_EN = 1
  (let pll := fun (n : Fin 7) => [(CLK_PLL_CTRL_REFMODE n, (strapConfig x.straps.toNat n).1), (CLK_PLL_DIV_M n, (strapConfig x.straps.toNat n).2.1),
    (CLK_PLL_DIV_N n, (strapConfig x.straps.toNat n).2.2)]
   let st := min (s.get PUG_LEVELS_STORE) 5000
   let same := s.get PUG_STATUS_SOURCE = 0 ∧ s.pug.supplied = true
   (ok → exec .vauxValid s = .next s) ∧
   (¬ok → Completes .vauxValid s fun t => ∃ u, t = u.tamperDue ∧ u.pug.supplied = true ∧ u.pug.order = 1 ∧
    Sets ([(PWR_STATUS_VAUX_OK, 1), (CLK_REF_SEL, x.straps.toNat)] ++ (List.finRange 7).flatMap pll ++ [(PUG_LEVELS_STORE, st)] ++
      (if 2200 ≤ s.pug.vbat then [(PUG_STATUS_VBAT_LOW, 0)] else []) ++
      (if same then [] else [(PUG_STATUS_SOURCE, 0), (PUG_INT_SOURCE, 1)] ++ s.jrnlLoss 0)) s u ∧
    (¬same → Journals 0x28 0 st s u))) ∧
  (let mv := s.pug.vbat
    let st := min (s.get PUG_LEVELS_STORE) 5000
    let harvest := s.harvestRecent = true ∧
      (50 * s.get PUG_THR_MEAS ≤ st ∨ (s.pug.order = 2 ∧ 50 * s.get PUG_THR_ABORT ≤ st))
    let cell := 2000 ≤ mv ∧ s.get PUG_CFG_CELL_EN = 1
    let c : Instr := .vauxInvalid
    let off := fun (t : State) => t.get PWR_STATUS_VAUX_OK = 0 ∧ t.get PWR_STATUS_DERATED = 0 ∧ t.get PWR_STATUS_VAUX_HIGH = 0 ∧
      t.pwr.rails = 0 ∧ t.pwr.hostUp = false ∧ t.pwr.saggarUp = false
    let takes := fun (src : Nat) => Completes c s fun t => off t ∧ t.get PWR_RESET_CAUSE_CAUSE = 2 ∧ t.get PUG_STATUS_SOURCE = src ∧
      t.pug.supplied = true ∧
      (s.get PUG_LG_CFG_ON_PF = 1 → s.sag.devKey = true → s.pug.msg = none →
        t.pug.msg = some { trigger := 1, detail := st, time := s.pug.aonNs } ∧ t.get PUG_STATUS_LG = 1) ∧
      (s.get PUG_LG_CFG_ON_PF = 0 ∨ s.sag.devKey = false → t.pug.msg = s.pug.msg)
    (¬ok → exec c s = .next s) ∧
    (ok → harvest → takes 1) ∧ (ok → ¬harvest → cell → takes 2) ∧ (ok → ¬harvest → ¬cell → 2000 ≤ st → takes 1) ∧
    (ok → ¬harvest → ¬cell → st < 2000 → Completes c s fun t => off t ∧ t.get PWR_RESET_CAUSE_CAUSE = 1 ∧
      t.pug = { supplied := false, order := 0 } ∧ t.sag.held = [] ∧ t.sag.treeKept = false)) ∧
  exec (.vauxHigh true) s = .fault .outsideRatings ∧
  Completes (.vauxHigh false) s (fun t => Sets [(PWR_STATUS_VAUX_HIGH, 1)] s t ∧ t.pwr = { x with highNs := 100000000 }) ∧
  Completes .deratedSet s (fun t => Sets [(PWR_STATUS_DERATED, 1), (PWR_INT_DERATED, 1), (PWR_STATUS_VAUX_HIGH, 0)] s t ∧
    t.pwr = { x with highNs := 0 }) ∧
  Completes .deratedClear s (Sets [(PWR_STATUS_DERATED, 0)] s) ∧
  (s.get PWR_STATUS_PF = 1 → exec .pfWarnFall s = .next s) ∧
  (s.get PWR_STATUS_PF = 0 → Completes .pfWarnFall s fun t => t.get PWR_STATUS_PF = 1 ∧ t.get PWR_INT_PF = 1 ∧
    t.get PWR_STATUS_VAUX_HIGH = 0 ∧ t.pwr = { x with pfOut := true, highNs := 0 } ∧
    (s.up .mod = true → Stops .powerFail s t) ∧
    (s.up .meter = true → (∀ r, s.met.saving = some r → r.pf = false) → t.get MET_STATUS_SAVING = 1 ∧
      t.met.saving = some { pf := true, accs := s.met.accs, time := s.met.boundary, totalsReset := s.met.saving.any (·.totalsReset) }) ∧
    (∀ r, s.up .meter = true → s.met.saving = some r → r.pf = true → t.met.saving = some r) ∧
    (s.up .meter = false → s.up .mod = false → Journals 0x03 0 (s.get MET_SAVE_SEQ_SEQ) s t)) ∧
  (s.get PWR_STATUS_PF = 0 → exec .pfWarnRise s = .next s) ∧
  (s.get PWR_STATUS_PF = 1 → Completes .pfWarnRise s fun t => Sets [(PWR_STATUS_PF, 0), (PWR_INT_PF_CLEAR, 1)] s t ∧
    t.pwr = { x with pfOut := false }) ∧
  (∀ v : BitVec 8, s.takes (.pfWarnWrite v) →
    (20 ≤ v.toNat ∧ v.toNat ≤ 144 → Completes (.pfWarnWrite v) s (Sets [(PWR_PF_WARN_THR, v.toNat)] s)) ∧
    (v.toNat < 20 ∨ 144 < v.toNat → Completes (.pfWarnWrite v) s (Sets refused s))) ∧
  (s.takes (.gpEnWrite true) →
    let rails := match s.glz.active, s.glz.staged with | some g, _ => some g.image | none, some g => some g.image | none, none => none
    let on := fun (t : State) => t.get PWR_GP_CTRL_EN = 1 ∧ t.get PWR_STATUS_GP_ON = 1
    (¬ok → Completes (.gpEnWrite true) s (Sets refused s)) ∧
    (∀ g, ok → rails = some g → Completes (.gpEnWrite true) s fun t => on t ∧ ∀ n : Fin 9,
      t.tiles[n].powered = imageUsesTile g n ∧
      (imageUsesTile g n = false → t.get (SET_STATUS_SUP_OK n) = 0 ∧ t.get (SET_CH_STATUS_SUP_OK n 0) = 0 ∧ t.get (SET_CH_STATUS_SUP_OK n 1) = 0 ∧
        t.get (SET_CH_STATUS_CLAMP n 0) = 0 ∧ t.get (SET_CH_STATUS_CLAMP n 1) = 0)) ∧
    (∀ l, ok → rails = none → s.glz.load = some l → Completes (.gpEnWrite true) s fun t => on t ∧ t.pwr = { x with firstLoad := true } ∧
      (l.gateChecked = true → ∀ n : Fin 9, t.tiles[n].powered = imageUsesTile l.image n) ∧ (l.gateChecked = false → t.tiles = s.tiles)) ∧
    (ok → rails = none → s.glz.load = none → Completes (.gpEnWrite true) s (Sets refused s))) ∧
  (s.takes (.gpEnWrite false) →
    ((∃ n : Fin 9, s.get (SET_STATUS_ARMED n) = 1) → Completes (.gpEnWrite false) s (Sets refused s)) ∧
    ((∀ n : Fin 9, s.get (SET_STATUS_ARMED n) = 0) → Completes (.gpEnWrite false) s fun t => t.get PWR_GP_CTRL_EN = 0 ∧
      t.get PWR_STATUS_GP_ON = 0 ∧ t.pwr = { x with firstLoad := false } ∧
      ∀ n : Fin 9, t.tiles[n].powered = false ∧ t.get (SET_STATUS_SUP_OK n) = 0 ∧ t.get (SET_CH_STATUS_CLAMP n 0) = 0 ∧
        t.get (SET_CH_STATUS_CLAMP n 1) = 0)) ∧
  (s.takes .standby →
    let busy := s.glz.load.isSome = true ∨ s.glz.fireWait = true ∨ s.phase = 5
    (busy → Completes .standby s (Sets refused s)) ∧ (¬busy → Completes .standby s fun t => Sets [(PWR_STATUS_STANDBY, 1)] s t ∧
      t.pwr = { x with wakeDue := false })) ∧
  (let wakes := x.wakeDue = true ∨ s.get PWR_STATUS_PF = 1 ∨ ∃ k : Fin 64, s.plicAsserted k.val = true
   (s.get PWR_STATUS_STANDBY = 1 → wakes → Completes .standbyWake s fun t => Sets [(PWR_STATUS_STANDBY, 0)] s t ∧
     t.pwr = { x with wakeDue := false }) ∧
   (s.get PWR_STATUS_STANDBY = 0 ∨ ¬wakes → exec .standbyWake s = .next s)) ∧
  (∀ v : Word, s.takes (.wdogStart v) →
    let n := v.toNat % 2 ^ 16
    (dog → Completes (.wdogStart v) s (Sets [] s)) ∧
    (¬dog → Completes (.wdogStart v) s
      (Sets [(PWR_WDOG_CFG_TMO, if n = 0 then s.get PWR_WDOG_CFG_TMO else n), (PWR_WDOG_CFG_EN, (v.toNat.testBit 31).toNat)] s))) ∧
  (∀ v : Word, s.takes (.wdogKick v) →
    let first := x.kick = false ∧ v = 0x5A5A
    let second := x.kick = true ∧ v = 0xA5A5
    (¬dog → Completes (.wdogKick v) s fun t => Sets [] s t ∧ t.pwr = x) ∧
    (dog → first → Completes (.wdogKick v) s fun t => Sets [] s t ∧ t.pwr = { x with kick := true }) ∧
    (dog → second → Completes (.wdogKick v) s fun t => Sets [] s t ∧ t.pwr = { x with kick := false }) ∧
    (dog → ¬first → ¬second → Completes (.wdogKick v) s fun t => t.pwr = { x with kick := false, orderly := some (x.orderly.getD 6) } ∧
      (x.orderly = none → s.up .mod = true → Stops .firmware s t))) ∧
  (dog → Completes .wdogHalf s (Sets [(PWR_INT_WDOG_HALF, 1)] s)) ∧ (¬dog → exec .wdogHalf s = .next s) ∧
  Completes .dieHot s (Sets [(PWR_INT_HOT, 1)] s) ∧
  (ok → exec .alwaysOnSupplyLoss s = .next s) ∧
  (¬ok → Completes .alwaysOnSupplyLoss s fun t => t.get PWR_RESET_CAUSE_CAUSE = 1 ∧ t.get SAG_STATUS_READY = 0 ∧ 
    t.pug = { supplied := false, order := 0 } ∧ t.sag = { s.sag with
      held := [], heldLoss := false, treeKept := false, nextTree := false,
      derived := [], drbg := none,
      released := match s.pug.msg.bind (·.index) with
        | some q => if s.sag.released = some q then none else s.sag.released
        | none => s.sag.released } ∧
    ∀ f : Fld, f.addr / 0x100000 ≠ 0x4B8 → f.hi < 64 → PWR_RESET_CAUSE_CAUSE.apart f → SAG_STATUS_READY.apart f → t.get f = s.get f)

/-- R256, R263, R265, R267, R336 to R339, R348, R369, R372, R373: the rails, the release of the Saggar and of the HOST, and every way to a
reset of the module. Entry 7 of the log names what the model chose of a reset. -/
def Obligations.ResetsAndBoot : Prop :=
  ∀ s : State,
  let x := s.pwr
  let after := fun (cause rails : Nat) (cold : Bool) (t : State) =>
    t.get PWR_RESET_CAUSE_CAUSE = cause ∧ t.get PWR_BOOT_COUNT_COUNT = s.counted PWR_BOOT_COUNT_COUNT ∧ t.phase = 1 ∧
    t.get SIT_CAUSE_CAUSE = 0 ∧ t.get SIT_STATUS_BLOCK_STOP = 0 ∧ t.pwr = { rails := rails, resetPin := x.resetPin, straps := x.straps } ∧
    (∀ n : Fin 7, let c := strapConfig (s.get CLK_REF_SEL) n
      t.get (CLK_PLL_CTRL_REFMODE n) = c.1 ∧ t.get (CLK_PLL_DIV_M n) = c.2.1 ∧ t.get (CLK_PLL_DIV_N n) = c.2.2) ∧
    (∀ f ∈ [PWR_STATUS_VAUX_OK, SAG_ROLLBACK_FW_VALUE, SAG_ROLLBACK_GLZ_VALUE, SAG_ATTEST_NEXT_NEXT, SAG_ATTEST_NEXT_EXHAUSTED,
      SAG_TAMPER_COUNT, MET_SAVE_SEQ_SEQ], t.get f = s.get f) ∧
    t.sram = {} ∧ t.slots = [] ∧ t.prog = [] ∧ t.coef = [] ∧ t.held = [] ∧ t.glz = State.reset.glz ∧ t.wheels = State.reset.wheels ∧
    t.clk = State.reset.clk ∧ t.grg.map = s.grg.map ∧ t.pending = s.pending ∧
    (let kept : SagState := { s.sag with
      error := false, saks := [], sakVals := [], derived := [], drbg := none, nonce := none,
      svc := none, rsp := [], rspSig := none, rspFree := none, rspInfo := none, rspCert := false, fault := false, flashCmd := none,
      octal := false, mapDigest := 0, fwVersion := 0, fwDigest := 0, glzDigest := 0 }
     (cold = false → t.pug = s.pug ∧ t.sag = kept) ∧
     (cold = true → t.pug = { s.pug with aonNs := 0, msg := none, load := false, warm := false, vocDue := false, harvestAt := none, deferred := [] } ∧
       t.sag = { kept with held := [], heldLoss := false, treeKept := false, nextTree := false })) ∧
    (s.met.jbuf = [] → t.met.ring = s.met.ring) ∧ (s.met.saving = none → t.met.copies = s.met.copies)
  let begins := fun (cause : Nat) (t : State) =>
    t.pwr.orderly = some (x.orderly.getD cause) ∧
    (x.orderly = none → s.up .mod = true → Stops .firmware s t) ∧
    (x.orderly = none → s.up .meter = true → (∀ r, s.met.saving = some r → r.pf = false) →
      t.met.saving = some { pf := true, accs := s.met.accs, time := s.met.boundary, totalsReset := s.met.saving.any (·.totalsReset) }) ∧
    (x.orderly.isSome = true → Sets [] s t ∧ t.met = s.met)
  (∀ cause : Fin 9,
    (cause = 0 → exec (.resetModule cause) s = .next s) ∧
    (cause ≠ 0 → Completes (.resetModule cause) s (after cause (if 4 ≤ cause.val then 4 else 0) (decide (cause = 1))))) ∧
  (x.rails = 0 → exec .brownOut s = .next s) ∧ (x.rails ≠ 0 → Completes .brownOut s (after 3 0 false)) ∧
  Completes .resetPin s (fun t => begins 4 t ∧ t.pwr.resetPin = true) ∧
  Completes .resetNRelease s (fun t => Sets [] s t ∧ t.pwr = { x with resetPin := false }) ∧
  (s.takes .firmwareReset → Completes .firmwareReset s (begins 5)) ∧
  (s.get PWR_WDOG_CFG_EN = 1 → Completes .watchdogExpiry s (begins 6)) ∧
  (s.get PWR_WDOG_CFG_EN = 0 → exec .watchdogExpiry s = .next s) ∧
  Completes .thermal s (begins 8) ∧
  (∀ late : Bool,
    let done := s.met.saving = none ∧ (late = true ∨ s.up .mod = false ∨ s.get SIT_STATUS_SAFE_DONE = 1)
    (x.orderly = none ∨ ¬done → exec (.resetAssert late) s = .next s) ∧
    ∀ c, x.orderly = some c → done → c < 256 → Completes (.resetAssert late) s (after c 4 false)) ∧
  (∀ (rail : Fin 5) (test : Bool),
    let rises := s.get PWR_STATUS_VAUX_OK = 1 ∧ x.resetPin = false ∧ x.rails = rail.val
    (¬rises → exec (.railsGood rail test) s = .next s) ∧
    (rises → rail.val < 4 → Completes (.railsGood rail test) s fun t => Sets [] s t ∧ t.pwr = { x with rails := rail.val + 1 }) ∧
    (rises → rail.val = 4 → test = false → Completes (.railsGood rail test) s fun t => t.pwr = { x with saggarUp := true, rails := 5 } ∧
      Sets ([(SAG_STATUS_LIFECYCLE, 4), (SAG_STATUS_APPROVED, 0)] ++ s.jrnlLoss 0) s t ∧ t.sag.error = true ∧ t.sag.fault = true ∧
      Journals 0x01 (s.get PWR_RESET_CAUSE_CAUSE) (s.get PWR_BOOT_COUNT_COUNT) s t) ∧
    (rises → rail.val = 4 → test = true → Completes (.railsGood rail test) s fun t => t.pwr = { x with saggarUp := true, rails := 5 } ∧
      t.get SAG_STATUS_SELFTEST_OK = 1 ∧ t.get SAG_STATUS_LIFECYCLE = s.sag.lifecycle % 16 ∧
      t.get SAG_STATUS_APPROVED = (if s.sag.lifecycle = 2 then 1 else 0) ∧ t.get SAG_STATUS_DEBUG = (if s.sag.lifecycle = 1 then 1 else 0) ∧
      t.get SAG_STATUS_READY = bitOf s.sag.treeKept ∧ t.get (CLK_PLL_CTRL_EN 0) = 1 ∧ t.get (CLK_PLL_STATUS_ON 0) = 1 ∧
      t.sag.drbg = some s.free ∧ t.sag.derived = s.sag.caks.map deriveCak ∧
      (∀ q, s.get SAG_ATTEST_NEXT_EXHAUSTED = 0 → s.get SAG_ATTEST_NEXT_NEXT = q + 1 → t.sag.released = some q) ∧
      (s.get SAG_ATTEST_NEXT_EXHAUSTED = 0 → s.get SAG_ATTEST_NEXT_NEXT = 0 →
        Journals 0x01 (s.get PWR_RESET_CAUSE_CAUSE) (s.get PWR_BOOT_COUNT_COUNT) s t))) ∧
  ∀ f : BootFacts,
    let tries := x.hostUp = false ∧ x.saggarUp = true ∧ s.sag.error = false ∧ x.resetPin = false ∧ s.clk[0].everLocked = true
    let owned := s.sag.lifecycle = 2
    let good := fun (i : FwSlot) => i.readOk = true ∧ i.formatOk = true ∧
      (owned → i.signatureOk = true ∧ s.get SAG_ROLLBACK_FW_VALUE ≤ i.version)
    let slot := (bootInForce s.sag.bootTable).fwSlot
    let first := readSlot false s.sag.keyFw (if slot = 0 then f.slotA else f.slotB)
    let other := readSlot false s.sag.keyFw (if slot = 0 then f.slotB else f.slotA)
    let glz := readSlot true (if s.sag.lifecycle = 2 then s.sag.keyGlz else none) f.glaze
    let starts := fun (slot : Nat) (i : FwSlot) (t : State) => t.pwr = { x with hostUp := true, entry := i.entry } ∧
      Sets ([(SAG_STATUS_FW_SLOT, slot % 2), (SAG_STATUS_GLZ_SLOT, (bootInForce s.sag.bootTable).glzSlot % 2)] ++
        (if s.sag.bootFail.isSome then s.jrnlLoss 0 else [])) s t ∧
      (∀ j b, i.content[j]? = some b → t.sram.get j = b) ∧ (∀ y, i.content.length ≤ y → t.sram.get y = s.sram.get y) ∧
      t.sag.bootTable = s.sag.bootTable ∧ t.sag.bootNow = bootInForce s.sag.bootTable ∧ t.sag.octal = true ∧
      t.sag.fwVersion = i.version ∧ t.sag.fwDigest = i.digest ∧ t.sag.glzDigest = glz.digest ∧ t.sag.bootFail = none ∧ t.sag.failCount = 0 ∧
      (owned → glz.readOk = true → glz.formatOk = true → glz.signatureOk = true → t.glz.verified = [glz.digest]) ∧
      ∀ c n, s.sag.bootFail = some (c, n) → Journals 0x20 (c + 2 ^ 8 * n) s.sag.failCount s t
    (¬tries → exec (.hostRelease f) s = .next s) ∧
    (tries → good first → Completes (.hostRelease f) s (starts slot first)) ∧
    (tries → ¬good first → good other → Completes (.hostRelease f) s (starts (1 - slot) other)) ∧
    (tries → ¬good first → ¬good other → Completes (.hostRelease f) s fun t => Sets [] s t ∧ t.pwr = x ∧ t.sag.fault = true ∧
      t.sag.bootNow = bootInForce s.sag.bootTable ∧ t.sag.failCount = s.sag.failCount + 1 ∧ ∃ c, t.sag.bootFail = some (c, slot) ∧ 1 ≤ c ∧ c ≤ 4)
/-! ### Accesses, loading and firing -/

/-- R5, R9 to R11, R27, R41, R268, R332, R402 to R408: accesses of firmware to memory and registers by their access codes, to aliases, to
RWF fields and to addresses where nothing stands; JTAG; a CAN frame. What an access through an alias does while a member is in reset is
entry 117 of the log. -/
def Obligations.AccessesOfFirmware : Prop :=
  ∀ s : State,
  let host := s.up .host = true ∧ s.get PWR_STATUS_STANDBY = 0
  let errs := fun (t : State) => Sets [] s t ∧ t.resp = ⟨0, true⟩ ∧ t.sram = s.sram
  let done := fun (v : Nat) (t : State) => t.resp = ⟨BitVec.ofNat 64 v, false⟩
  (∀ (a : Word) (v : DWord) (n : Fin 9) (x : BusFacts),
    let held := 0x41000000 ≤ a.toNat ∧ a.toNat < 0x47000000 ∧ s.phase = 5 ∧ s.up (islandAt a.toNat) = true
    let waits := fun (h : Held) (t : State) => t = { s with held := s.held ++ [h] }
    (¬host → exec (.registerWrite a v n x) s = .next s ∧ exec (.registerReadClear a n) s = .next s ∧
      exec (.aliasWrite a v n) s = .next s ∧ exec (.aliasRead a n) s = .next s ∧ exec (.rwfWrite a v) s = .next s) ∧
    (host → held → Completes (.registerWrite a v n x) s (waits (.registerWrite a.toNat v n.val)) ∧
      Completes (.registerReadClear a n) s (waits (.registerReadClear a.toNat n.val)) ∧
      Completes (.aliasWrite a v n) s (waits (.aliasWrite a.toNat v n.val)) ∧
      Completes (.aliasRead a n) s (waits (.aliasRead a.toNat n.val)) ∧ Completes (.rwfWrite a v) s (waits (.rwfWrite a.toNat v)))) ∧
  (host → ∀ (a : Word) (v : DWord) (n : Fin 9) (x : BusFacts),
    let e := a.toNat
    let o := e - 0x20000000
    let ram := 0x20000000 ≤ e ∧ e < 0x20800000
    let fits := n.val ∈ [1, 2, 4, 8] ∧ e + n.val ≤ 0x20800000 ∧ (s.glz.staged.isSome = true → e + n.val ≤ 0x20700000)
    (ram → fits → Completes (.registerWrite a v n x) s fun t => Sets [] s t ∧ done 0 t ∧
      t.sram.read o n.val = v.toNat % 2 ^ (8 * n.val) ∧ ∀ y, y < o ∨ o + n.val ≤ y → t.sram.get y = s.sram.get y) ∧
    (ram → fits → Completes (.registerReadClear a n) s fun t => Sets [] s t ∧ t.sram = s.sram ∧ done (s.sram.read o n.val) t) ∧
    (ram → ¬fits → Completes (.registerWrite a v n x) s errs ∧ Completes (.registerReadClear a n) s errs) ∧
    (e < 0x2000000 ∨ (0x2010000 ≤ e ∧ e < 0xC000000) ∨ (0xC400000 ≤ e ∧ e < 0x20000000) ∨ (0x20800000 ≤ e ∧ e < 0x30000000) ∨
      (0x30100000 ≤ e ∧ e < 0x40000000) ∨ (0x50000000 ≤ e ∧ e < 0x60000000) ∨ 0x70000000 ≤ e →
      Completes (.registerWrite a v n x) s errs ∧ Completes (.registerReadClear a n) s errs) ∧
    (0x40000000 ≤ e → e < 0x41000000 ∨ (0x47000000 ≤ e ∧ e < 0x50000000) → aliasAt e = none → regPart e n.val = none → isWindow e = false →
      Completes (.registerWrite a v n x) s errs ∧ Completes (.registerReadClear a n) s errs)) ∧
  (host → ∀ (v : DWord) (x : BusFacts),
    Completes (.registerWrite 0x40100008 v 4 x) s (fun t => Sets [(GLZ_SRC_ADDR_ADDR, v.toNat / 2 ^ 4 % 2 ^ 28)] s t ∧ done 0 t) ∧
    Completes (.registerWrite 0x40000000 v 4 x) s (fun t => Sets [] s t ∧ done 0 t) ∧
    Completes (.registerWrite 0x40000030 v 4 x) s (fun t => done 0 t ∧
      Sets [(SYS_BCAST_STATUS_EMPTY, if v.toNat.testBit 1 then 0 else s.get SYS_BCAST_STATUS_EMPTY),
        (SYS_BCAST_STATUS_MIXED, if v.toNat.testBit 0 then 0 else s.get SYS_BCAST_STATUS_MIXED)] s t) ∧
    Completes (.registerReadClear 0x40100034 4) s (fun t =>
      Sets [(GLZ_RWF_REFUSED_COUNT, 0)] s t ∧ done (s.get GLZ_RWF_REFUSED_COUNT) t) ∧
    Completes (.registerReadClear 0x40000000 4) s (fun t => Sets [] s t ∧ done (s.get SYS_PARTID_PART) t)) ∧
  (host → ∀ (a : Word) (v : DWord) (n : Fin 9) (b : AliasBlock), s.phase ≠ 5 → aliasAt a.toNat = some b →
    let ms := s.aliasMembers b a.toNat
    let stands := assigned (b.at a.toNat 0) n.val = true
    let value := fun (m : Nat) => (s.directValue (b.at a.toNat m) n.val).getD 0
    let reached := ∀ m ∈ ms, (s.directValue (b.at a.toNat m) n.val).isSome = true
    let written := ms.foldl (fun u m => u.directWrite (b.at a.toNat m) n.val v {}) s
    (¬stands → Completes (.aliasWrite a v n) s errs ∧ Completes (.aliasRead a n) s errs) ∧
    (stands → ms = [] → Completes (.aliasWrite a v n) s (fun t => Sets [(SYS_BCAST_STATUS_EMPTY, 1)] s t ∧ done 0 t) ∧
      Completes (.aliasRead a n) s fun t => Sets [(SYS_BCAST_STATUS_EMPTY, 1)] s t ∧ done 0 t) ∧
    (stands → ms ≠ [] → reached → Completes (.aliasWrite a v n) s fun t => t = { written with resp := ⟨0, false⟩ }) ∧
    (stands → ¬reached → Completes (.aliasWrite a v n) s (fun t => t = { written with resp := ⟨0, true⟩ }) ∧
      Completes (.aliasRead a n) s errs) ∧
    ∀ m rest, stands → reached → ms = m :: rest → Completes (.aliasRead a n) s fun t => done (value m) t ∧
      Sets (if ∃ k ∈ rest, value k ≠ value m then [(SYS_BCAST_STATUS_MIXED, 1)] else []) s t) ∧
  (host → ∀ v : DWord,
    let f := WLK_SYNC_CFG_PTP_FOLLOW
    let c : Instr := .rwfWrite 0x4900841C v
    let counted := [(GLZ_RWF_REFUSED_COUNT, s.counted GLZ_RWF_REFUSED_COUNT)]
    (s.glz.staged = none ∨ (s.phase ≠ 2 ∧ s.phase ≠ 4) → Completes c s fun t => Sets counted s t ∧ t.glz = s.glz ∧ done 0 t) ∧
    ∀ (g : Glaze) (e : FieldSet), s.phase = 2 ∨ s.phase = 4 → s.glz.staged = some g → g.image.fields.find? (·.fld == f) = some e →
      let sealed_ := ∃ y ∈ g.image.sections, y.typ = e.section_ ∧ y.flags % 2 = 1
      let within := e.lo ≤ v.toNat % 2 ∧ v.toNat % 2 ≤ e.hi
      (¬sealed_ → within → Completes c s fun t => Sets [] s t ∧ done 0 t ∧
        fieldGet (cellGet t.glz.plane 0x4900841C) f = v.toNat % 2 ∧
        ∀ y, y ≠ 0x4900841C → cellGet t.glz.plane y = cellGet s.glz.plane y) ∧
      (sealed_ ∨ ¬within → Completes c s fun t => Sets counted s t ∧ t.glz = s.glz ∧ done 0 t)) ∧
  (∀ (wr : Bool) (a : BitVec 40) (v : DWord) (n : Fin 9),
    let e := a.toNat
    let windows := s.isManager = true ∧ ((0x8010000000 ≤ e ∧ e < 0x8200000000) ∨ (0xFF00000000 ≤ e ∧ e < 0xFF20000000))
    (¬host → exec (.busErrorAccess wr a v n) s = .next s) ∧
    (host → 0x100000000 ≤ e → ¬windows → Completes (.busErrorAccess wr a v n) s errs) ∧
    (host → e < 0x100000000 → exec (.busErrorAccess wr a v n) s =
      exec (if wr then .registerWrite (BitVec.ofNat 32 e) v n {} else .registerReadClear (BitVec.ofNat 32 e) n) s)) ∧
  Completes .jtagIdcode s (fun t => Sets [] s t ∧ done 0x17180A6B t) ∧
  ∀ (i : Fin 2) (b : Fin 64) (id ctl : Word) (data : Vector Word 16),
    let base := 0x4A102000 + 0x10000 * i.val + 0x50 * b.val
    let runs := s.up .net = true ∧ s.get (CLK_PLL_STATUS_ON 3) = 1
    (¬runs → exec (.canFrameReceived i b id ctl data) s = .next s) ∧
    (runs → Completes (.canFrameReceived i b id ctl data) s fun t => t.get (CAN_INT_RX i) = 1 ∧
      cellGet t.regs base = id.setWidth 64 ∧ cellGet t.regs (base + 4) = ctl.setWidth 64 ∧
      (cellGet t.regs (base + 8)).toNat = s.net.ptp.sec % 2 ^ 32 ∧ (cellGet t.regs (base + 12)).toNat = s.net.ptp.ns % 2 ^ 32 ∧
      (∀ j : Fin 16, cellGet t.regs (base + 16 + 4 * j.val) = data[j].setWidth 64) ∧
      ∀ y, y < base ∨ base + 80 ≤ y → y ≠ (CAN_INT_RX i).addr → cellGet t.regs y = cellGet s.regs y)

/-- R34 to R44, R269, R370: loading a Glaze, its refusals, aborting and discarding it, and the steps of a firing. -/
def Obligations.LoadingAndFiring : Prop :=
  ∀ s : State,
  let z := s.glz
  let busy := z.load.isSome = true ∨ z.fireWait = true ∨ s.phase = 5
  let staging := s.phase = 2 ∨ s.phase = 4
  let refuses := fun (r : Refuse) => [(GLZ_STATUS_RESULT, 2), (GLZ_REFUSE_CODE, r.code % 2 ^ 8), (GLZ_REFUSE_SECTION, r.section_ % 2 ^ 8),
    (GLZ_REFUSE_DETAIL, r.detail % 2 ^ 16), (GLZ_INT_REFUSED, 1)]
  (∀ f : GlazeFile, s.takes (.load f) →
    let g := s.imageFrom f
    (busy → Completes (.load f) s fun t => Sets (refuses ⟨0xD, 0, 0xFFFF⟩) s t ∧ t.glz = z) ∧
    (¬busy → ¬staging → Completes (.load f) s fun t => Sets [(GLZ_STATUS_BUSY, 1), (GLZ_STATUS_PROGRESS, 0)] s t ∧
      t.glz = { z with load := some { image := g } }) ∧
    (¬busy → staging → Completes (.load f) s fun t => t.glz = { z with load := some { image := g }, staged := none, plane := [] } ∧
      Sets [(GLZ_STATUS_BUSY, 1), (GLZ_STATUS_PROGRESS, 0), (SYS_STATE_PHASE, s.phase - 1), (GLZ_STAGED_ID_IMAGE_ID, 0),
        (GLZ_STAGED_VER_IMAGE_VERSION, 0)] s t)) ∧
  (s.takes .discard →
    (z.fireWait = false → staging → Completes .discard s fun t => t.glz = { z with staged := none, plane := [] } ∧
      Sets [(SYS_STATE_PHASE, s.phase - 1), (GLZ_STAGED_ID_IMAGE_ID, 0), (GLZ_STAGED_VER_IMAGE_VERSION, 0)] s t) ∧
    (z.fireWait = true ∨ ¬staging → Completes .discard s fun t => Sets [] s t ∧ t.glz = z)) ∧
  (s.takes .abortLoad →
    (z.load = none → Completes .abortLoad s fun t => Sets [] s t ∧ t.glz = z) ∧
    (z.load.isSome = true → s.pwr.firstLoad = false → Completes .abortLoad s fun t => t.glz = { z with load := none } ∧
      Sets (refuses ⟨4, 0, 0xFFFF⟩ ++ [(GLZ_STATUS_BUSY, 0)]) s t) ∧
    (z.load.isSome = true → s.pwr.firstLoad = true → Completes .abortLoad s fun t => t.glz = { z with load := none } ∧
      t.get PWR_GP_CTRL_EN = 0 ∧ t.get PWR_STATUS_GP_ON = 0 ∧ t.get GLZ_STATUS_RESULT = 2)) ∧
  (z.load = none → exec .loadComplete s = .next s ∧ exec .loaderGateCheckDone s = .next s) ∧
  (∀ l, z.load = some l →
    let g := l.image
    let found := s.loadCheck g (imagePlan g)
    (g.readOk = false → found = some ⟨0x10, 0, 0xFFFF⟩) ∧
    (g.readOk = true → g.magic ≠ 0x375A4C47 ∨ g.format ≠ 1 ∨ g.shaOk = false → found = some ⟨4, 0, 0xFFFF⟩) ∧
    (∀ r, found = some r → s.pwr.firstLoad = false → Completes .loadComplete s fun t => t.glz.load = none ∧ t.glz.staged = z.staged ∧
      Sets (refuses r ++ [(GLZ_STATUS_BUSY, 0), (GLZ_STATUS_PROGRESS, g.totalLen / 1024 % 2 ^ 16)]) s t) ∧
    (∀ r, found = some r → s.pwr.firstLoad = true → Completes .loadComplete s fun t => t.glz.load = none ∧ t.glz.staged = z.staged ∧
      t.get GLZ_STATUS_RESULT = 2 ∧ t.get GLZ_STATUS_BUSY = 0 ∧ t.get PWR_GP_CTRL_EN = 0) ∧
    (found = none → Completes .loadComplete s fun t => t.glz.load = none ∧ t.glz.active = z.active ∧ t.phase = (if s.phase = 1 then 2 else 4) ∧
      (∀ y, y < 0x700000 → t.sram.get y = s.sram.get y) ∧ (∃ y, t.glz.staged = some y ∧ y.image = g ∧ y.mapVersion = s.grg.mapVersion ∧ y.digest = g.digest) ∧
      t.get GLZ_STAGED_ID_IMAGE_ID = g.imageId % 2 ^ 32 ∧ t.get GLZ_STAGED_VER_IMAGE_VERSION = g.version % 2 ^ 32 ∧
      t.get GLZ_STATUS_RESULT = 1 ∧ t.get GLZ_STATUS_BUSY = 0 ∧ t.get GLZ_REFUSE_CODE = 0 ∧ t.get GLZ_INT_LOAD_DONE = 1 ∧
      ∀ n : Fin 7, n ≠ 0 → z.islandsEnabled = false → s.pllOk n = true → t.get (CLK_PLL_CTRL_EN n) = 1) ∧
    (Completes .loaderGateCheckDone s fun t => ∃ b : Bool, t.glz = { z with load := some { l with gateChecked := b } } ∧
      (b = true → l.gateChecked = true ∨ s.sealed g = true) ∧
      (s.pwr.firstLoad = false ∨ z.active.isSome = true → t.tiles = s.tiles))) ∧
  (∀ intact : Bool, s.takes (.fire intact) →
    let refusal : Option Nat := if busy then some 0xD else match z.staged with
      | none => some 0xE
      | some g => if s.get PWR_STATUS_DERATED = 1 ∧ (imagePlan g.image).gateAbove g.image 60 = true then some 0xF
        else if intact = false then some 0x11 else if g.mapVersion ≠ s.grg.mapVersion then some 0x12 else none
    let armed := ∃ n : Fin 9, s.get (SET_STATUS_ARMED n) = 1
    (∀ c, refusal = some c → Completes (.fire intact) s fun t => Sets (refuses ⟨c, 0, 0xFFFF⟩) s t ∧ t.glz = z) ∧
    (refusal = none → armed → s.up .mod = true → Completes (.fire intact) s fun t => t.get GLZ_STATUS_BUSY = 1 ∧ t.glz.fireWait = true ∧
      t.glz.staged = z.staged ∧ Stops .firing s t) ∧
    (refusal = none → ¬armed → s.isManager = false → Completes (.fire intact) s fun t => t.get GLZ_STATUS_BUSY = 1 ∧
      t.glz = { z with fireWait := true, firePlantCause := false } ∧ Cones 128 0 0 s t ∧
      t.get SIT_STATUS_BLOCK_STOP = s.get SIT_STATUS_BLOCK_STOP)) ∧
  (z.staged = none ∨ z.fireWait = false ∨ s.sit.orderTiles ≠ [] → exec .firingEnter s = .next s) ∧
  (∀ g, z.staged = some g → z.fireWait = true → s.sit.orderTiles = [] → Completes .firingEnter s fun t =>
    t.phase = 5 ∧ t.get GLZ_STATUS_FIRING = 1 ∧ t.glz.active = some g ∧ t.glz.staged = none ∧ t.glz.fireWait = false ∧
    t.glz.outgoing = z.active ∧ t.get GLZ_ACTIVE_ID_IMAGE_ID = g.image.imageId % 2 ^ 32 ∧
    t.get GLZ_ACTIVE_VER_IMAGE_VERSION = g.image.version % 2 ^ 32 ∧ t.get SYS_ROLE_ROLE = g.image.role % 4 ∧
    ∀ n : Fin 9, t.get (SET_STATUS_ARMED n) = 0) ∧
  (s.phase ≠ 5 → exec .fireComplete s = .next s) ∧
  (s.phase = 5 → s.held = [] → s.wlk.reqs = [] → Completes .fireComplete s fun t => t.phase = 3 ∧ t.get GLZ_STATUS_FIRING = 0 ∧
    t.get GLZ_STATUS_BUSY = 0 ∧ t.get GLZ_STATUS_RESULT = 1 ∧ t.get GLZ_REFUSE_CODE = 0 ∧ t.get GLZ_INT_FIRE_DONE = 1 ∧
    t.get GLZ_FIRE_COUNT_COUNT = s.counted GLZ_FIRE_COUNT_COUNT ∧ t.get GLZ_STAGED_ID_IMAGE_ID = 0 ∧
    t.get SAG_ROLLBACK_GLZ_VALUE = max (s.get SAG_ROLLBACK_GLZ_VALUE) (s.get GLZ_ACTIVE_VER_IMAGE_VERSION) ∧
    t.glz.outgoing = none ∧ (∀ n : Fin 9, t.get (SET_STATUS_ARMED n) ≤ s.get (SET_STATUS_ARMED n)))
end

