-- ==== Sys2Proof/Laws/Cells.lean ====
section
/-! SUPPORT. Laws of the sparse maps: a read after a write, and the canonical form. -/

namespace Sys2Proof.Machine

variable {w : Nat}

@[simp] theorem cellGet_nil (a : Nat) : cellGet ([] : List (Nat × BitVec w)) a = 0 := rfl

theorem cellGet_cons (b : Nat) (v : BitVec w) (t : List (Nat × BitVec w)) (a : Nat) :
    cellGet ((b, v) :: t) a = if b = a then v else cellGet t a := rfl

/-- A read after an entry is removed. -/
theorem cellGet_erase (m : List (Nat × BitVec w)) (a b : Nat) :
    cellGet (cellErase m a) b = if a = b then 0 else cellGet m b := by
  induction m with
  | nil => simp [cellErase]
  | cons e t ih =>
    obtain ⟨c, u⟩ := e
    by_cases h : c = a <;> by_cases g : a = b <;> simp_all [cellErase, cellGet_cons]

/-- A read after an entry is inserted where there was none. -/
theorem cellGet_insert (m : List (Nat × BitVec w)) (a b : Nat) (v : BitVec w) :
    cellGet (cellInsert (cellErase m a) a v) b = if a = b then v else cellGet m b := by
  induction m with
  | nil => simp [cellErase, cellInsert, cellGet_cons]
  | cons e t ih =>
    obtain ⟨c, u⟩ := e
    by_cases h : c = a
    · by_cases g : a = b <;> simp_all [cellErase, cellGet_cons]
    · by_cases k : a < c
      · by_cases g : a = b <;> simp_all [cellErase, cellInsert, cellGet_cons, cellGet_erase]
      · rw [cellErase, if_neg h, cellInsert, if_neg k, cellGet_cons, cellGet_cons, ih]
        by_cases g : a = b <;> by_cases l : c = b <;> simp_all

/-- A read after a write: the value written at that address, any other address as before. -/
theorem cellGet_put (m : List (Nat × BitVec w)) (a b : Nat) (v : BitVec w) :
    cellGet (cellPut m a v) b = if a = b then v else cellGet m b := by
  unfold cellPut
  split
  · next h => simp [cellGet_erase, h]
  · exact cellGet_insert m a b v

@[simp] theorem cellGet_put_same (m : List (Nat × BitVec w)) (a : Nat) (v : BitVec w) : cellGet (cellPut m a v) a = v := by
  simp [cellGet_put]

theorem cellGet_put_ne (m : List (Nat × BitVec w)) (a b : Nat) (v : BitVec w) (h : a ≠ b) :
    cellGet (cellPut m a v) b = cellGet m b := by
  simp [cellGet_put, h]

/-- A read after a range is cleared. -/
theorem cellGet_clear (m : List (Nat × BitVec w)) (lo hi a : Nat) :
    cellGet (cellClear m lo hi) a = if lo ≤ a ∧ a < hi then 0 else cellGet m a := by
  induction m with
  | nil => simp [cellClear]
  | cons e t ih =>
    obtain ⟨c, u⟩ := e
    by_cases h : lo ≤ c ∧ c < hi
    · rw [cellClear, if_pos h, ih, cellGet_cons]
      by_cases g : c = a <;> simp_all
    · rw [cellClear, if_neg h, cellGet_cons, cellGet_cons, ih]
      by_cases g : c = a
      · subst g; simp [h]
      · simp [g]

/-! ### The canonical form -/

theorem cellsAbove_mono {a b : Nat} {m : List (Nat × BitVec w)} (h : a ≤ b) (k : cellsAbove b m = true) : cellsAbove a m = true := by
  cases m with
  | nil => rfl
  | cons e t => simp [cellsAbove] at k ⊢; omega

theorem cellsAbove_erase {a b : Nat} {m : List (Nat × BitVec w)} (h : cellsWf m = true) (k : cellsAbove b m = true) :
    cellsAbove b (cellErase m a) = true := by
  induction m with
  | nil => rfl
  | cons e t ih =>
    obtain ⟨c, u⟩ := e
    simp only [cellsWf, cellsAbove, Bool.and_eq_true, decide_eq_true_eq] at h k
    by_cases g : c = a
    · simp only [cellErase, g, if_true]
      exact ih h.2 (cellsAbove_mono (by omega) h.1.2)
    · simp [cellErase, g, cellsAbove, k]

theorem cellsWf_erase {a : Nat} {m : List (Nat × BitVec w)} (h : cellsWf m = true) : cellsWf (cellErase m a) = true := by
  induction m with
  | nil => rfl
  | cons e t ih =>
    obtain ⟨c, u⟩ := e
    simp only [cellsWf, Bool.and_eq_true, decide_eq_true_eq] at h
    by_cases g : c = a
    · simpa [cellErase, g] using ih h.2
    · simp only [cellErase, g, if_false, cellsWf, ih h.2, cellsAbove_erase h.2 h.1.2, Bool.and_true, decide_eq_true_eq]
      exact h.1.1

theorem cellsAbove_insert {a b : Nat} {v : BitVec w} {m : List (Nat × BitVec w)} (h : b < a) (k : cellsAbove b m = true) :
    cellsAbove b (cellInsert m a v) = true := by
  cases m with
  | nil => simp [cellInsert, cellsAbove, h]
  | cons e t =>
    obtain ⟨c, u⟩ := e
    simp only [cellsAbove, decide_eq_true_eq] at k
    by_cases g : a < c <;> simp [cellInsert, g, cellsAbove, h, k]

theorem cellsWf_insert {a : Nat} {v : BitVec w} {m : List (Nat × BitVec w)} (h : cellsWf m = true) (hv : v ≠ 0) (ha : ∀ e ∈ m, e.1 ≠ a) :
    cellsWf (cellInsert m a v) = true := by
  induction m with
  | nil => simp only [cellInsert, cellsWf, cellsAbove, Bool.and_true, decide_eq_true_eq]; exact hv
  | cons e t ih =>
    obtain ⟨c, u⟩ := e
    simp only [cellsWf, Bool.and_eq_true, decide_eq_true_eq] at h
    by_cases g : a < c
    · simp only [cellInsert, g, if_true, cellsWf, cellsAbove, Bool.and_eq_true, decide_eq_true_eq]
      exact ⟨⟨hv, trivial⟩, h⟩
    · have hc : c ≠ a := ha (c, u) (by simp)
      have ht := ih h.2 fun e he => ha e (by simp [he])
      simp only [cellInsert, g, if_false, cellsWf, ht, cellsAbove_insert (by omega : c < a) h.1.2, Bool.and_true, decide_eq_true_eq]
      exact h.1.1

theorem cellErase_ne (m : List (Nat × BitVec w)) (a : Nat) : ∀ e ∈ cellErase m a, e.1 ≠ a := by
  induction m with
  | nil => simp [cellErase]
  | cons e t ih =>
    obtain ⟨c, u⟩ := e
    by_cases g : c = a
    · simpa [cellErase, g] using ih
    · simp only [cellErase, g, if_false, List.mem_cons]
      rintro e (rfl | h)
      · exact g
      · exact ih e h

/-- A write keeps the canonical form. -/
@[simp] theorem cellsWf_put {a : Nat} {v : BitVec w} {m : List (Nat × BitVec w)} (h : cellsWf m = true) : cellsWf (cellPut m a v) = true := by
  unfold cellPut
  split
  · exact cellsWf_erase h
  · next hv => exact cellsWf_insert (cellsWf_erase h) hv (cellErase_ne m a)

theorem cellsAbove_clear {b lo hi : Nat} {m : List (Nat × BitVec w)} (h : cellsWf m = true) (k : cellsAbove b m = true) :
    cellsAbove b (cellClear m lo hi) = true := by
  induction m with
  | nil => rfl
  | cons e t ih =>
    obtain ⟨c, u⟩ := e
    simp only [cellsWf, cellsAbove, Bool.and_eq_true, decide_eq_true_eq] at h k
    by_cases g : lo ≤ c ∧ c < hi
    · simp only [cellClear, g]
      exact ih h.2 (cellsAbove_mono (by omega) h.1.2)
    · simp [cellClear, g, cellsAbove, k]

/-- Clearing a range keeps the canonical form. -/
@[simp] theorem cellsWf_clear {lo hi : Nat} {m : List (Nat × BitVec w)} (h : cellsWf m = true) : cellsWf (cellClear m lo hi) = true := by
  induction m with
  | nil => rfl
  | cons e t ih =>
    obtain ⟨c, u⟩ := e
    simp only [cellsWf, Bool.and_eq_true, decide_eq_true_eq] at h
    by_cases g : lo ≤ c ∧ c < hi
    · simpa [cellClear, g] using ih h.2
    · simp only [cellClear, g, if_false, cellsWf, ih h.2, cellsAbove_clear h.2 h.1.2, Bool.and_true, decide_eq_true_eq]
      exact h.1.1

/-- A fold of writes keeps the canonical form. -/
theorem cellsWf_foldl {α : Type} {l : List α} {f : List (Nat × BitVec w) → α → List (Nat × BitVec w)} {m : List (Nat × BitVec w)}
    (h : cellsWf m = true) (hf : ∀ m a, cellsWf m = true → cellsWf (f m a) = true) : cellsWf (l.foldl f m) = true := by
  induction l generalizing m with
  | nil => exact h
  | cons a t ih => exact ih (hf m a h)

end Sys2Proof.Machine
end

