-- ==== Sys2Proof/Laws/Fields.lean ====
section
/-!
SUPPORT. Laws of register fields: what a field reads after a field was written.
-/

namespace Sys2Proof.Machine

open Sys2Proof

/-- A field stands within its 64-bit cell. -/
def Fld.fits (f : Fld) : Prop := f.lo ≤ f.hi ∧ f.hi < 64

/-- A bit of what a field reads. -/
theorem testBit_fieldGet (c : DWord) (f : Fld) (i : Nat) :
    (fieldGet c f).testBit i = (decide (i < f.width) && c.getLsbD (f.lo + i)) := by
  simp [fieldGet, Nat.testBit_mod_two_pow, BitVec.getLsbD]

/-- A bit of a cell after field `f` was written. -/
theorem getLsbD_fieldPut (c : DWord) (f : Fld) (v j : Nat) (hj : j < 64) :
    (fieldPut c f v).getLsbD j = if f.lo ≤ j ∧ j < f.lo + f.width then v.testBit (j - f.lo) else c.getLsbD j := by
  simp only [fieldPut, BitVec.getLsbD_or, BitVec.getLsbD_and, BitVec.getLsbD_not, BitVec.getLsbD_ofNat, hj, decide_true, Bool.true_and]
  rw [Nat.testBit_mul_two_pow, Nat.testBit_mul_two_pow, Nat.testBit_two_pow_sub_one, Nat.testBit_mod_two_pow]
  by_cases h1 : f.lo ≤ j
  · by_cases h2 : j < f.lo + f.width
    · have : j - f.lo < f.width := by omega
      simp [h1, h2, this]
    · have : ¬ j - f.lo < f.width := by omega
      simp [h1, h2, this]
  · simp [h1]

/-- A field reads back what was written to it, cut to its width. -/
theorem fieldGet_put (c : DWord) (f : Fld) (v : Nat) (h : f.fits) : fieldGet (fieldPut c f v) f = v % 2 ^ f.width := by
  obtain ⟨h1, h2⟩ := h
  apply Nat.eq_of_testBit_eq
  intro i
  rw [testBit_fieldGet, Nat.testBit_mod_two_pow]
  by_cases hi : i < f.width
  · have hw : f.lo + i < 64 := by
      simp only [Fld.width] at hi
      omega
    rw [getLsbD_fieldPut _ _ _ _ hw]
    simp [hi]
  · simp [hi]

/-- A write to one field leaves a field at other places of the cell. -/
theorem fieldGet_put_apart (c : DWord) (f g : Fld) (v : Nat) (hg : g.hi < 64) (h : f.hi < g.lo ∨ g.hi < f.lo) :
    fieldGet (fieldPut c f v) g = fieldGet c g := by
  apply Nat.eq_of_testBit_eq
  intro i
  rw [testBit_fieldGet, testBit_fieldGet]
  by_cases hi : i < g.width
  · simp only [Fld.width] at hi
    have hw : g.lo + i < 64 := by omega
    rw [getLsbD_fieldPut _ _ _ _ hw, if_neg]
    simp only [Fld.width]
    omega
  · simp [hi]

/-- A field reads back what was put into it, cut to its width. -/
theorem State.get_put_same (s : State) (f : Fld) (v : Nat) (h : f.fits) : (s.put f v).get f = v % 2 ^ f.width := by
  simp only [State.get, State.put, cellGet_put, if_true]
  exact fieldGet_put _ _ _ h

/-- A field reads below two to the power of its width. -/
theorem State.get_lt (s : State) (f : Fld) : s.get f < 2 ^ f.width := Nat.mod_lt _ (Nat.two_pow_pos _)

/-- A put leaves every field that shares no bit with the one put into. -/
theorem State.get_put_apart (s : State) (f g : Fld) (v : Nat) (hg : g.hi < 64) (h : f.apart g) : (s.put f v).get g = s.get g := by
  simp only [State.get, State.put, cellGet_put]
  split
  · next e =>
    rw [e]
    exact fieldGet_put_apart _ _ _ _ hg (h.resolve_left fun k => k e)
  · rfl

/-- A put leaves every cell at another address. -/
theorem State.cell_put_ne (s : State) (f : Fld) (v a : Nat) (h : f.addr ≠ a) : cellGet (s.put f v).regs a = cellGet s.regs a :=
  cellGet_put_ne _ _ _ _ h

end Sys2Proof.Machine
end

