-- ==== Sys2Proof/Laws/Ram.lean ====
section
/-! SUPPORT. Laws of the system SRAM: a read after a write, and the canonical form. -/

namespace Sys2Proof.Machine

/-- A read after a write: the byte written at that offset, any other byte as before. -/
theorem Ram.get_put (m : Ram) (a b : Nat) (v : Byte) : (m.put a v).get b = if a = b then v else m.get b := by
  unfold Ram.get Ram.put
  cases m.left with
  | none => exact cellGet_put ..
  | some n =>
    by_cases h : a = b
    · subst h
      cases k : inStaging a <;> simp
    · cases k : inStaging a <;> simp [cellGet_put, h]

theorem Ram.get_put_ne (m : Ram) (a b : Nat) (v : Byte) (h : a ≠ b) : (m.put a v).get b = m.get b := by
  simp [Ram.get_put, h]

/-- Storing a number leaves every byte outside its bytes as it was. -/
theorem Ram.get_write_out {a n v b : Nat} {m : Ram} (h : b < a ∨ a + n ≤ b) : (m.write a n v).get b = m.get b := by
  induction n generalizing m a v with
  | zero => rfl
  | succ k ih => rw [Ram.write, ih (by omega), Ram.get_put_ne _ _ _ _ (by omega)]

/-- A number reads back as stored. -/
theorem Ram.read_write {a n v : Nat} {m : Ram} : (m.write a n v).read a n = v % 256 ^ n := by
  induction n generalizing m a v with
  | zero => simp [Ram.read, Nat.mod_one]
  | succ k ih =>
    rw [Ram.read, Ram.write, ih, Ram.get_write_out (by omega), Ram.get_put, if_pos rfl]
    have h1 : v / 256 % 256 ^ k = v % 256 ^ (k + 1) / 256 := by
      rw [Nat.pow_succ, Nat.mul_comm, Nat.mod_mul_right_div_self]
    have h2 : v % 256 ^ (k + 1) % 256 = v % 256 := by
      rw [Nat.pow_succ]; exact Nat.mod_mul_left_mod _ _ _
    simp only [BitVec.toNat_ofNat]
    omega

/-- Storing bytes leaves every byte outside them as it was. -/
theorem Ram.get_store_out {a b : Nat} {l : List Byte} {m : Ram} (h : b < a ∨ a + l.length ≤ b) : (m.store a l).get b = m.get b := by
  induction l generalizing m a with
  | nil => rfl
  | cons c t ih =>
    simp only [List.length_cons] at h
    rw [Ram.store, ih (by omega), Ram.get_put_ne _ _ _ _ (by omega)]

/-! ### The canonical form -/

/-- A write keeps the canonical form. -/
@[simp] theorem Ram.wf_put {a : Nat} {v : Byte} {m : Ram} (h : m.wf = true) : (m.put a v).wf = true := by
  simp only [Ram.wf, Bool.and_eq_true] at h
  simp only [Ram.wf, Ram.put, cellsWf_put h.1, Bool.true_and]
  split
  · exact cellsWf_put h.2
  · exact h.2

/-- Storing a number keeps the canonical form. -/
@[simp] theorem Ram.wf_write {a n v : Nat} {m : Ram} (h : m.wf = true) : (m.write a n v).wf = true := by
  induction n generalizing m a v with
  | zero => exact h
  | succ k ih => exact ih (Ram.wf_put h)

/-- Storing bytes keeps the canonical form. -/
@[simp] theorem Ram.wf_store {a : Nat} {l : List Byte} {m : Ram} (h : m.wf = true) : (m.store a l).wf = true := by
  induction l generalizing m a with
  | nil => exact h
  | cons b t ih => exact ih (Ram.wf_put h)

/-- A load's writing of the staging region keeps the canonical form. -/
@[simp] theorem Ram.wf_staged {n : Nat} {m : Ram} (h : m.wf = true) : (m.staged n).wf = true := by
  simp only [Ram.wf, Bool.and_eq_true] at h
  simp only [Ram.wf, Ram.staged, cellsWf_clear h.1, Bool.true_and]
  rfl

/-- A fold of writes keeps the canonical form. -/
theorem Ram.wf_foldl {α : Type} {l : List α} {f : Ram → α → Ram} {m : Ram} (h : m.wf = true)
    (hf : ∀ m a, m.wf = true → (f m a).wf = true) : (l.foldl f m).wf = true := by
  induction l generalizing m with
  | nil => exact h
  | cons a t ih => exact ih (hf m a h)

end Sys2Proof.Machine
end

