-- ==== Sys2Proof/Laws/Keeps.lean ====
section
/-!
SUPPORT. What every operation of the block keeps: the queue of waiting commands, and the canonical form of the memories. One lemma for
each way in which an operation is built; the lemmas of the operations themselves stand in the files beside this one.
-/

namespace Sys2Proof.Machine

open Sys2Proof

/-- `t` has the queue of `s`, and memories in canonical form if `s` has. -/
structure Keeps (s t : State) : Prop where
  pending : t.pending = s.pending
  canon : s.canon = true → t.canon = true

theorem Keeps.refl (s : State) : Keeps s s := ⟨rfl, id⟩

theorem Keeps.trans {r s t : State} (h : Keeps r s) (k : Keeps s t) : Keeps r t := ⟨k.pending.trans h.pending, k.canon ∘ h.canon⟩

theorem Keeps.ite {r s t : State} {c : Prop} [Decidable c] (h : Keeps r s) (k : Keeps r t) : Keeps r (if c then s else t) := by
  split
  · exact h
  · exact k

theorem Keeps.each {r s : State} {α : Type} {l : List α} {f : α → State → State} (h : Keeps r s)
    (hf : ∀ a u, Keeps r u → Keeps r (f a u)) : Keeps r (s.each l f) := by
  unfold State.each
  induction l generalizing s with
  | nil => exact h
  | cons a t ih => exact ih (hf a s h)

theorem Keeps.foldl {r s : State} {α : Type} {l : List α} {f : State → α → State} (h : Keeps r s)
    (hf : ∀ u a, Keeps r u → Keeps r (f u a)) : Keeps r (l.foldl f s) := by
  induction l generalizing s with
  | nil => exact h
  | cons a t ih => exact ih (hf s a h)

theorem Keeps.when {r s : State} {b : Bool} {f : State → State} (h : Keeps r s) (hf : ∀ u, Keeps r u → Keeps r (f u)) :
    Keeps r (s.when b f) := by
  unfold State.when
  split
  · exact hf s h
  · exact h

/-- The conjuncts of the canonical form. -/
theorem State.canon_iff {s : State} : s.canon = true ↔
    cellsWf s.regs = true ∧ cellsWf s.slots = true ∧ cellsWf s.coef = true ∧ cellsWf s.prog = true ∧ s.sram.wf = true ∧
      cellsWf s.glz.plane = true ∧ cellsWf s.met.ring = true ∧ cellsWf s.con.bank0.mem = true ∧ cellsWf s.con.bank1.mem = true ∧
      cellsWf s.con.capture = true := by
  simp only [State.canon, Bool.and_eq_true, and_assoc]

/-- An update of any fields that hold no memory of the block. -/
theorem Keeps.upd {r s : State} {held : List Held} {resp : Resp} {free : Nat} {outbox : List OutUnit} {glz : GlzState}
    {fab : Fabric} {wheels : Vector Wheel 64} {groups : Vector Group 8} {gsus : Vector Gsu 4} {rts : Rts} {isl : IslUnit}
    {dci : Dci} {mod : ModState} {tiles : Vector Tile 9} {wins : Vector WinUnit 44} {sit : SitState} {adcs : Vector AdcCore 18}
    {gx : Vector GxUse 2} {met : MetState} {clk : Vector Pll 7} {lanes : Vector LaneUnit 6} {wlk : Wlk} {net : Net}
    {sag : SagState} {pug : PugState} {pwr : PwrState} {grg : Grog} {con : ConState} {ports : HostPorts}
    (h : Keeps r s) (hg : glz.plane = s.glz.plane) (hm : met.ring = s.met.ring) (h0 : con.bank0.mem = s.con.bank0.mem)
    (h1 : con.bank1.mem = s.con.bank1.mem) (hc : con.capture = s.con.capture) :
    Keeps r { s with
      held := held, resp := resp, free := free, outbox := outbox, glz := glz, fab := fab, wheels := wheels,
      groups := groups, gsus := gsus, rts := rts, isl := isl, dci := dci, mod := mod, tiles := tiles, wins := wins, sit := sit,
      adcs := adcs, gx := gx, met := met, clk := clk, lanes := lanes, wlk := wlk, net := net, sag := sag, pug := pug, pwr := pwr,
      grg := grg, con := con, ports := ports } := by
  refine ⟨h.pending, fun k => ?_⟩
  have := h.canon k
  simp only [State.canon, hg, hm, h0, h1, hc] at this ⊢
  exact this

/-- An update that changes neither. -/
theorem Keeps.same {r s t : State} (h : Keeps r s) (hp : t.pending = s.pending) (hc : t.canon = s.canon) : Keeps r t :=
  ⟨hp.trans h.pending, fun k => hc.trans (h.canon k)⟩

theorem Keeps.regs {r s : State} {m : List (Nat × DWord)} (h : Keeps r s) (hm : cellsWf s.regs = true → cellsWf m = true) :
    Keeps r { s with regs := m } := by
  refine ⟨h.pending, fun k => ?_⟩
  obtain ⟨a, b, c, d, e, g, m, b0, b1, cp⟩ := State.canon_iff.mp (h.canon k)
  exact State.canon_iff.mpr ⟨hm a, b, c, d, e, g, m, b0, b1, cp⟩

theorem Keeps.slots {r s : State} {m : List (Nat × Word)} (h : Keeps r s) (hm : cellsWf s.slots = true → cellsWf m = true) :
    Keeps r { s with slots := m } := by
  refine ⟨h.pending, fun k => ?_⟩
  obtain ⟨a, b, c, d, e, g, m, b0, b1, cp⟩ := State.canon_iff.mp (h.canon k)
  exact State.canon_iff.mpr ⟨a, hm b, c, d, e, g, m, b0, b1, cp⟩

theorem Keeps.coef {r s : State} {m : List (Nat × Word)} (h : Keeps r s) (hm : cellsWf s.coef = true → cellsWf m = true) :
    Keeps r { s with coef := m } := by
  refine ⟨h.pending, fun k => ?_⟩
  obtain ⟨a, b, c, d, e, g, m, b0, b1, cp⟩ := State.canon_iff.mp (h.canon k)
  exact State.canon_iff.mpr ⟨a, b, hm c, d, e, g, m, b0, b1, cp⟩

theorem Keeps.prog {r s : State} {m : List (Nat × DWord)} (h : Keeps r s) (hm : cellsWf s.prog = true → cellsWf m = true) :
    Keeps r { s with prog := m } := by
  refine ⟨h.pending, fun k => ?_⟩
  obtain ⟨a, b, c, d, e, g, m, b0, b1, cp⟩ := State.canon_iff.mp (h.canon k)
  exact State.canon_iff.mpr ⟨a, b, c, hm d, e, g, m, b0, b1, cp⟩

theorem Keeps.sram {r s : State} {m : Ram} (h : Keeps r s) (hm : s.sram.wf = true → m.wf = true) :
    Keeps r { s with sram := m } := by
  refine ⟨h.pending, fun k => ?_⟩
  obtain ⟨a, b, c, d, e, g, m, b0, b1, cp⟩ := State.canon_iff.mp (h.canon k)
  exact State.canon_iff.mpr ⟨a, b, c, d, hm e, g, m, b0, b1, cp⟩

theorem Keeps.glz {r s : State} {x : GlzState} (h : Keeps r s) (hm : cellsWf s.glz.plane = true → cellsWf x.plane = true) :
    Keeps r { s with glz := x } := by
  refine ⟨h.pending, fun k => ?_⟩
  obtain ⟨a, b, c, d, e, g, m, b0, b1, cp⟩ := State.canon_iff.mp (h.canon k)
  exact State.canon_iff.mpr ⟨a, b, c, d, e, hm g, m, b0, b1, cp⟩

theorem Keeps.met {r s : State} {x : MetState} (h : Keeps r s) (hm : cellsWf s.met.ring = true → cellsWf x.ring = true) :
    Keeps r { s with met := x } := by
  refine ⟨h.pending, fun k => ?_⟩
  obtain ⟨a, b, c, d, e, g, m, b0, b1, cp⟩ := State.canon_iff.mp (h.canon k)
  exact State.canon_iff.mpr ⟨a, b, c, d, e, g, hm m, b0, b1, cp⟩

theorem Keeps.con {r s : State} {x : ConState} (h : Keeps r s) (h0 : cellsWf s.con.bank0.mem = true → cellsWf x.bank0.mem = true)
    (h1 : cellsWf s.con.bank1.mem = true → cellsWf x.bank1.mem = true)
    (hm : cellsWf s.con.capture = true → cellsWf x.capture = true) : Keeps r { s with con := x } := by
  refine ⟨h.pending, fun k => ?_⟩
  obtain ⟨a, b, c, d, e, g, m, b0, b1, cp⟩ := State.canon_iff.mp (h.canon k)
  exact State.canon_iff.mpr ⟨a, b, c, d, e, g, m, h0 b0, h1 b1, hm cp⟩

theorem State.put_keeps {r s : State} (h : Keeps r s) (f : Fld) (v : Nat) : Keeps r (s.put f v) := h.regs fun k => cellsWf_put k

theorem State.publish_keeps {r s : State} (h : Keeps r s) (k : Nat) (v : Word) : Keeps r (s.publish k v) := h.slots fun k => cellsWf_put k

theorem State.withRegs_keeps {r s : State} (h : Keeps r s) (x : List (Nat × DWord)) (hm : cellsWf s.regs = true → cellsWf x = true) : Keeps r (s.withRegs x) :=
  h.regs hm

theorem State.withSlots_keeps {r s : State} (h : Keeps r s) (x : List (Nat × Word)) (hm : cellsWf s.slots = true → cellsWf x = true) : Keeps r (s.withSlots x) :=
  h.slots hm

theorem State.withCoef_keeps {r s : State} (h : Keeps r s) (x : List (Nat × Word)) (hm : cellsWf s.coef = true → cellsWf x = true) : Keeps r (s.withCoef x) :=
  h.coef hm

theorem State.withSram_keeps {r s : State} (h : Keeps r s) (x : Ram) (hm : s.sram.wf = true → x.wf = true) : Keeps r (s.withSram x) :=
  h.sram hm

theorem State.withHeld_keeps {r s : State} (h : Keeps r s) (x : List Held) : Keeps r (s.withHeld x) :=
  Keeps.upd h rfl rfl rfl rfl rfl

theorem State.withResp_keeps {r s : State} (h : Keeps r s) (x : Resp) : Keeps r (s.withResp x) :=
  Keeps.upd h rfl rfl rfl rfl rfl

theorem State.withFree_keeps {r s : State} (h : Keeps r s) (x : Nat) : Keeps r (s.withFree x) :=
  Keeps.upd h rfl rfl rfl rfl rfl

theorem State.withOutbox_keeps {r s : State} (h : Keeps r s) (x : List OutUnit) : Keeps r (s.withOutbox x) :=
  Keeps.upd h rfl rfl rfl rfl rfl

theorem State.withGlz_keeps {r s : State} (h : Keeps r s) (x : GlzState) (hm : x.plane = s.glz.plane) : Keeps r (s.withGlz x) :=
  h.glz fun k => hm ▸ k

theorem State.withFab_keeps {r s : State} (h : Keeps r s) (x : Fabric) : Keeps r (s.withFab x) :=
  Keeps.upd h rfl rfl rfl rfl rfl

theorem State.withWheels_keeps {r s : State} (h : Keeps r s) (x : Vector Wheel 64) : Keeps r (s.withWheels x) :=
  Keeps.upd h rfl rfl rfl rfl rfl

theorem State.withGroups_keeps {r s : State} (h : Keeps r s) (x : Vector Group 8) : Keeps r (s.withGroups x) :=
  Keeps.upd h rfl rfl rfl rfl rfl

theorem State.withGsus_keeps {r s : State} (h : Keeps r s) (x : Vector Gsu 4) : Keeps r (s.withGsus x) :=
  Keeps.upd h rfl rfl rfl rfl rfl

theorem State.withRts_keeps {r s : State} (h : Keeps r s) (x : Rts) : Keeps r (s.withRts x) :=
  Keeps.upd h rfl rfl rfl rfl rfl

theorem State.withIsl_keeps {r s : State} (h : Keeps r s) (x : IslUnit) : Keeps r (s.withIsl x) :=
  Keeps.upd h rfl rfl rfl rfl rfl

theorem State.withDci_keeps {r s : State} (h : Keeps r s) (x : Dci) : Keeps r (s.withDci x) :=
  Keeps.upd h rfl rfl rfl rfl rfl

theorem State.withMod_keeps {r s : State} (h : Keeps r s) (x : ModState) : Keeps r (s.withMod x) :=
  Keeps.upd h rfl rfl rfl rfl rfl

theorem State.withTiles_keeps {r s : State} (h : Keeps r s) (x : Vector Tile 9) : Keeps r (s.withTiles x) :=
  Keeps.upd h rfl rfl rfl rfl rfl

theorem State.withWins_keeps {r s : State} (h : Keeps r s) (x : Vector WinUnit 44) : Keeps r (s.withWins x) :=
  Keeps.upd h rfl rfl rfl rfl rfl

theorem State.withSit_keeps {r s : State} (h : Keeps r s) (x : SitState) : Keeps r (s.withSit x) :=
  Keeps.upd h rfl rfl rfl rfl rfl

theorem State.withAdcs_keeps {r s : State} (h : Keeps r s) (x : Vector AdcCore 18) : Keeps r (s.withAdcs x) :=
  Keeps.upd h rfl rfl rfl rfl rfl

theorem State.withGx_keeps {r s : State} (h : Keeps r s) (x : Vector GxUse 2) : Keeps r (s.withGx x) :=
  Keeps.upd h rfl rfl rfl rfl rfl

theorem State.withMet_keeps {r s : State} (h : Keeps r s) (x : MetState) (hm : x.ring = s.met.ring) : Keeps r (s.withMet x) :=
  h.met fun k => hm ▸ k

theorem State.withClk_keeps {r s : State} (h : Keeps r s) (x : Vector Pll 7) : Keeps r (s.withClk x) :=
  Keeps.upd h rfl rfl rfl rfl rfl

theorem State.withLanes_keeps {r s : State} (h : Keeps r s) (x : Vector LaneUnit 6) : Keeps r (s.withLanes x) :=
  Keeps.upd h rfl rfl rfl rfl rfl

theorem State.withWlk_keeps {r s : State} (h : Keeps r s) (x : Wlk) : Keeps r (s.withWlk x) :=
  Keeps.upd h rfl rfl rfl rfl rfl

theorem State.withNet_keeps {r s : State} (h : Keeps r s) (x : Net) : Keeps r (s.withNet x) :=
  Keeps.upd h rfl rfl rfl rfl rfl

theorem State.withSag_keeps {r s : State} (h : Keeps r s) (x : SagState) : Keeps r (s.withSag x) :=
  Keeps.upd h rfl rfl rfl rfl rfl

theorem State.withPug_keeps {r s : State} (h : Keeps r s) (x : PugState) : Keeps r (s.withPug x) :=
  Keeps.upd h rfl rfl rfl rfl rfl

theorem State.withPwr_keeps {r s : State} (h : Keeps r s) (x : PwrState) : Keeps r (s.withPwr x) :=
  Keeps.upd h rfl rfl rfl rfl rfl

theorem State.withGrg_keeps {r s : State} (h : Keeps r s) (x : Grog) : Keeps r (s.withGrg x) :=
  Keeps.upd h rfl rfl rfl rfl rfl

theorem State.withCon_keeps {r s : State} (h : Keeps r s) (x : ConState) (h0 : x.bank0.mem = s.con.bank0.mem) (h1 : x.bank1.mem = s.con.bank1.mem) (hm : x.capture = s.con.capture) : Keeps r (s.withCon x) :=
  h.con (fun k => h0 ▸ k) (fun k => h1 ▸ k) fun k => hm ▸ k

theorem State.withPorts_keeps {r s : State} (h : Keeps r s) (x : HostPorts) : Keeps r (s.withPorts x) :=
  Keeps.upd h rfl rfl rfl rfl rfl

theorem State.withGlz_canon {r s : State} (h : Keeps r s) (x : GlzState) (hm : cellsWf s.glz.plane = true → cellsWf x.plane = true) :
    Keeps r (s.withGlz x) := h.glz hm

theorem State.withMet_canon {r s : State} (h : Keeps r s) (x : MetState) (hm : cellsWf s.met.ring = true → cellsWf x.ring = true) :
    Keeps r (s.withMet x) := h.met hm

theorem State.withCon_canon {r s : State} (h : Keeps r s) (x : ConState) (h0 : cellsWf s.con.bank0.mem = true → cellsWf x.bank0.mem = true)
    (h1 : cellsWf s.con.bank1.mem = true → cellsWf x.bank1.mem = true)
    (hm : cellsWf s.con.capture = true → cellsWf x.capture = true) : Keeps r (s.withCon x) := h.con h0 h1 hm

end Sys2Proof.Machine
end

