-- ==== Sys2Proof/Laws/KeepsOps.lean ====
section
/-!
SUPPORT. Each operation of Machine/Ops.lean keeps the queue of waiting commands and the canonical form of the memories.
-/

namespace Sys2Proof.Machine

open Sys2Proof

set_option linter.all false

theorem State.putB_keeps {root s : State} (h : Keeps root s) (f : Fld) (b : Bool) : Keeps root (State.putB s f b) := by
  unfold State.putB
  repeat' first
    | with_reducible assumption
    | with_reducible apply State.put_keeps
    | dsimp only
    | intro _

theorem State.inc_keeps {root s : State} (h : Keeps root s) (f : Fld) : Keeps root (State.inc s f) := by
  unfold State.inc
  repeat' first
    | with_reducible assumption
    | with_reducible apply State.put_keeps
    | with_reducible apply Keeps.ite
    | split
    | dsimp only
    | intro _

theorem State.addSat_keeps {root s : State} (h : Keeps root s) (f : Fld) (n : Nat) : Keeps root (State.addSat s f n) := by
  unfold State.addSat
  repeat' first
    | with_reducible assumption
    | with_reducible apply State.put_keeps
    | dsimp only
    | intro _

theorem State.incWrap_keeps {root s : State} (h : Keeps root s) (f : Fld) : Keeps root (State.incWrap s f) := by
  unfold State.incWrap
  repeat' first
    | with_reducible assumption
    | with_reducible apply State.put_keeps
    | dsimp only
    | intro _

theorem State.orBits_keeps {root s : State} (h : Keeps root s) (f : Fld) (m : Nat) : Keeps root (State.orBits s f m) := by
  unfold State.orBits
  repeat' first
    | with_reducible assumption
    | with_reducible apply State.put_keeps
    | dsimp only
    | intro _

theorem State.putBit_keeps {root s : State} (h : Keeps root s) (f : Fld) (i : Nat) (b : Bool) : Keeps root (State.putBit s f i b) :=
    by
  unfold State.putBit
  repeat' first
    | with_reducible assumption
    | with_reducible apply State.put_keeps
    | with_reducible apply Keeps.ite
    | split
    | dsimp only
    | intro _

theorem State.putI_keeps {root s : State} (h : Keeps root s) (f : Fld) (i : Int) : Keeps root (State.putI s f i) := by
  unfold State.putI
  repeat' first
    | with_reducible assumption
    | with_reducible apply State.put_keeps
    | dsimp only
    | intro _

theorem State.publishBy_keeps {root s : State} (h : Keeps root s) (kind : Nat) (index : Option Nat) (k : Nat) (v : Word) : Keeps
    root (State.publishBy s kind index k v) := by
  unfold State.publishBy
  repeat' first
    | with_reducible assumption
    | with_reducible apply State.publish_keeps
    | with_reducible apply State.inc_keeps
    | with_reducible apply Keeps.ite
    | split
    | dsimp only
    | intro _

theorem State.tookFree_keeps {root s : State} (h : Keeps root s) : Keeps root (State.tookFree s) := by
  unfold State.tookFree
  repeat' first
    | with_reducible assumption
    | with_reducible apply State.withFree_keeps
    | dsimp only
    | intro _

theorem State.respond_keeps {root s : State} (h : Keeps root s) (v : Nat) : Keeps root (State.respond s v) := by
  unfold State.respond
  repeat' first
    | with_reducible assumption
    | with_reducible apply State.withResp_keeps
    | dsimp only
    | intro _

theorem State.busError_keeps {root s : State} (h : Keeps root s) : Keeps root (State.busError s) := by
  unfold State.busError
  repeat' first
    | with_reducible assumption
    | with_reducible apply State.withResp_keeps
    | dsimp only
    | intro _

theorem State.access_keeps {root s : State} (h : Keeps root s) (i : Isl) (h : Option Held) (f : State → State) (hf : ∀ u0, Keeps
    root u0 → Keeps root (f u0)) : Keeps root (State.access s i h f) := by
  unfold State.access
  repeat' first
    | with_reducible assumption
    | with_reducible apply hf
    | with_reducible apply State.busError_keeps
    | with_reducible apply State.respond_keeps
    | with_reducible apply State.withHeld_keeps
    | with_reducible apply Keeps.ite
    | split
    | dsimp only
    | intro _

theorem State.accessV_keeps {root s : State} (h : Keeps root s) (i : Isl) (h : Option Held) (f : State → State × Nat) (hf : ∀ u0,
    Keeps root u0 → Keeps root (f u0).1) : Keeps root (State.accessV s i h f) := by
  unfold State.accessV
  repeat' first
    | with_reducible assumption
    | with_reducible apply hf
    | with_reducible apply State.busError_keeps
    | with_reducible apply State.respond_keeps
    | with_reducible apply State.withHeld_keeps
    | with_reducible apply Keeps.ite
    | split
    | dsimp only
    | intro _

theorem State.journalLost_keeps {root s : State} (h : Keeps root s) : Keeps root (State.journalLost s) := by
  unfold State.journalLost
  repeat' first
    | with_reducible assumption
    | with_reducible apply State.inc_keeps
    | with_reducible apply State.put_keeps
    | with_reducible refine State.withMet_keeps ?_ _ rfl
    | refine Keeps.upd ?_ rfl rfl rfl rfl rfl
    | dsimp only
    | intro _

theorem State.journalC_keeps {root s : State} (h : Keeps root s) (typ detail payload : Nat) (cont : List Nat) : Keeps root
    (State.journalC s typ detail payload cont) := by
  unfold State.journalC
  repeat' first
    | with_reducible assumption
    | with_reducible apply State.journalLost_keeps
    | with_reducible apply State.withSag_keeps
    | with_reducible refine State.withMet_keeps ?_ _ rfl
    | with_reducible apply Keeps.ite
    | split
    | refine Keeps.upd ?_ rfl rfl rfl rfl rfl
    | dsimp only
    | intro _

theorem State.journal_keeps {root s : State} (h : Keeps root s) (typ detail payload : Nat) : Keeps root (State.journal s typ detail
    payload) := by
  unfold State.journal
  repeat' first
    | with_reducible assumption
    | with_reducible apply State.journalC_keeps
    | dsimp only
    | intro _

theorem State.send_keeps {root s : State} (h : Keeps root s) (u : OutUnit) : Keeps root (State.send s u) := by
  unfold State.send
  repeat' first
    | with_reducible assumption
    | with_reducible apply State.withOutbox_keeps
    | dsimp only
    | intro _

theorem State.sendFrame_keeps {root s : State} (h : Keeps root s) (lane : Nat) (h : FrameHeader) (does : Nat) (payload : List Nat) :
    Keeps root (State.sendFrame s lane h does payload) := by
  unfold State.sendFrame
  repeat' first
    | with_reducible assumption
    | with_reducible apply State.send_keeps
    | dsimp only
    | intro _

theorem State.passDown_keeps {root s : State} (h : Keeps root s) : Keeps root (State.passDown s) := by
  unfold State.passDown
  repeat' first
    | with_reducible assumption
    | with_reducible apply State.send_keeps
    | dsimp only
    | intro _

theorem State.passUp_keeps {root s : State} (h : Keeps root s) : Keeps root (State.passUp s) := by
  unfold State.passUp
  repeat' first
    | with_reducible assumption
    | with_reducible apply State.send_keeps
    | dsimp only
    | intro _

theorem State.passFrom_keeps {root s : State} (h : Keeps root s) (l : Fin 6) : Keeps root (State.passFrom s l) := by
  unfold State.passFrom
  repeat' first
    | with_reducible assumption
    | with_reducible apply State.passUp_keeps
    | with_reducible apply State.passDown_keeps
    | with_reducible apply Keeps.ite
    | split
    | dsimp only
    | intro _

theorem State.sendPlant_keeps {root s : State} (h : Keeps root s) (k : UnitKind) (content : Nat) : Keeps root (State.sendPlant s k
    content) := by
  unfold State.sendPlant
  repeat' first
    | with_reducible assumption
    | with_reducible apply State.send_keeps
    | refine Keeps.each ?_ fun _ _ _ => ?_
    | dsimp only
    | intro _

theorem State.modLater_keeps {root s : State} (h : Keeps root s) (d : Nat) : Keeps root (State.modLater s d) := by
  unfold State.modLater
  repeat' first
    | with_reducible assumption
    | with_reducible apply State.withMod_keeps
    | with_reducible apply Keeps.ite
    | split
    | refine Keeps.upd ?_ rfl rfl rfl rfl rfl
    | dsimp only
    | intro _

theorem State.onPair_keeps {root s : State} (h : Keeps root s) (p : Fin 9) (f : Pair → Pair) : Keeps root (State.onPair s p f) := by
  unfold State.onPair
  repeat' first
    | with_reducible assumption
    | with_reducible apply State.withMod_keeps
    | refine Keeps.upd ?_ rfl rfl rfl rfl rfl
    | dsimp only
    | intro _

theorem State.onTile_keeps {root s : State} (h : Keeps root s) (n : Fin 9) (f : Tile → Tile) : Keeps root (State.onTile s n f) := by
  unfold State.onTile
  repeat' first
    | with_reducible assumption
    | with_reducible apply State.withTiles_keeps
    | dsimp only
    | intro _

theorem State.onChan_keeps {root s : State} (h : Keeps root s) (n : Fin 9) (c : Fin 2) (f : Chan → Chan) : Keeps root (State.onChan
    s n c f) := by
  unfold State.onChan
  repeat' first
    | with_reducible assumption
    | with_reducible apply State.onTile_keeps
    | refine Keeps.upd ?_ rfl rfl rfl rfl rfl
    | dsimp only
    | intro _

theorem State.onWin_keeps {root s : State} (h : Keeps root s) (n : Fin 44) (f : WinUnit → WinUnit) : Keeps root (State.onWin s n f)
    := by
  unfold State.onWin
  repeat' first
    | with_reducible assumption
    | with_reducible apply State.withWins_keeps
    | dsimp only
    | intro _

theorem State.chanOff_keeps {root s : State} (h : Keeps root s) (n : Fin 9) (c : Fin 2) : Keeps root (State.chanOff s n c) := by
  unfold State.chanOff
  repeat' first
    | with_reducible assumption
    | with_reducible apply State.onChan_keeps
    | with_reducible apply State.put_keeps
    | refine Keeps.upd ?_ rfl rfl rfl rfl rfl
    | dsimp only
    | intro _

theorem State.chanSoftBegin_keeps {root s : State} (h : Keeps root s) (n : Fin 9) (c : Fin 2) : Keeps root (State.chanSoftBegin s n
    c) := by
  unfold State.chanSoftBegin
  repeat' first
    | with_reducible assumption
    | with_reducible apply State.onChan_keeps
    | with_reducible apply State.put_keeps
    | refine Keeps.upd ?_ rfl rfl rfl rfl rfl
    | dsimp only
    | intro _

theorem State.chanSoftOff_keeps {root s : State} (h : Keeps root s) (n : Fin 9) (c : Fin 2) : Keeps root (State.chanSoftOff s n c)
    := by
  unfold State.chanSoftOff
  repeat' first
    | with_reducible assumption
    | with_reducible apply State.chanSoftBegin_keeps
    | with_reducible apply Keeps.ite
    | split
    | dsimp only
    | intro _

theorem State.chanHush_keeps {root s : State} (h : Keeps root s) (n : Fin 9) (c : Fin 2) : Keeps root (State.chanHush s n c) := by
  unfold State.chanHush
  repeat' first
    | with_reducible assumption
    | with_reducible apply State.onChan_keeps
    | refine Keeps.upd ?_ rfl rfl rfl rfl rfl
    | dsimp only
    | intro _

theorem State.chanTrip_keeps {root s : State} (h : Keeps root s) (n : Fin 9) (c : Fin 2) : Keeps root (State.chanTrip s n c) := by
  unfold State.chanTrip
  repeat' first
    | with_reducible assumption
    | with_reducible apply State.chanSoftOff_keeps
    | with_reducible apply State.chanOff_keeps
    | with_reducible apply Keeps.ite
    | split
    | dsimp only
    | intro _

theorem State.gatePair_keeps {root s : State} (h : Keeps root s) (p : Fin 9) (f : Pair → Pair) : Keeps root (State.gatePair s p f)
    := by
  unfold State.gatePair
  repeat' first
    | with_reducible assumption
    | with_reducible apply State.onPair_keeps
    | dsimp only
    | intro _

theorem State.disarm_keeps {root s : State} (h : Keeps root s) (n : Fin 9) : Keeps root (State.disarm s n) := by
  unfold State.disarm
  repeat' first
    | with_reducible assumption
    | with_reducible apply State.gatePair_keeps
    | with_reducible apply State.chanHush_keeps
    | with_reducible apply State.chanOff_keeps
    | with_reducible apply State.put_keeps
    | refine Keeps.each ?_ fun _ _ _ => ?_
    | refine Keeps.when ?_ fun _ _ => ?_
    | split
    | refine Keeps.upd ?_ rfl rfl rfl rfl rfl
    | dsimp only
    | intro _

theorem State.onWheel_keeps {root s : State} (h : Keeps root s) (w : Fin 64) (f : Wheel → Wheel) : Keeps root (State.onWheel s w f)
    := by
  unfold State.onWheel
  repeat' first
    | with_reducible assumption
    | with_reducible apply State.withWheels_keeps
    | dsimp only
    | intro _

theorem State.onGroup_keeps {root s : State} (h : Keeps root s) (k : Fin 8) (f : Group → Group) : Keeps root (State.onGroup s k f)
    := by
  unfold State.onGroup
  repeat' first
    | with_reducible assumption
    | with_reducible apply State.withGroups_keeps
    | dsimp only
    | intro _

theorem State.onGsu_keeps {root s : State} (h : Keeps root s) (i : Fin 4) (f : Gsu → Gsu) : Keeps root (State.onGsu s i f) := by
  unfold State.onGsu
  repeat' first
    | with_reducible assumption
    | with_reducible apply State.withGsus_keeps
    | dsimp only
    | intro _

theorem State.onAdc_keeps {root s : State} (h : Keeps root s) (n : Fin 18) (f : AdcCore → AdcCore) : Keeps root (State.onAdc s n f)
    := by
  unfold State.onAdc
  repeat' first
    | with_reducible assumption
    | with_reducible apply State.withAdcs_keeps
    | dsimp only
    | intro _

theorem State.onPll_keeps {root s : State} (h : Keeps root s) (n : Fin 7) (f : Pll → Pll) : Keeps root (State.onPll s n f) := by
  unfold State.onPll
  repeat' first
    | with_reducible assumption
    | with_reducible apply State.withClk_keeps
    | dsimp only
    | intro _

end Sys2Proof.Machine
end

