-- ==== Sys2Proof/Laws/KeepsStop.lean ====
section
/-!
SUPPORT. Each operation of Machine/Stop.lean keeps the queue of waiting commands and the canonical form of the memories.
-/

namespace Sys2Proof.Machine

open Sys2Proof

set_option linter.all false

theorem State.snapshot_wf (s : State) (seq source detail : Nat) : cellsWf (s.snapshot seq source detail) = true := by
  unfold State.snapshot
  exact cellsWf_foldl rfl fun _ _ k => cellsWf_put k

theorem State.cone_keeps {r s : State} (h : Keeps r s) (source detail flags : Nat) : Keeps r (State.cone s source detail flags) := by
  unfold State.cone
  split
  · exact State.put_keeps (State.inc_keeps h _) _ _
  · next b _ =>
    dsimp only
    have ha : ∀ q m : Nat, cellsWf s.con.bank0.mem = true →
        cellsWf (if b = 0 then { source := source, age := q, mem := s.snapshot q m detail : SnapBank } else s.con.bank0).mem = true :=
      fun q m k => by
        split
        · dsimp only; exact State.snapshot_wf s q m detail
        · exact k
    have hb : ∀ q m : Nat, cellsWf s.con.bank1.mem = true →
        cellsWf (if b = 0 then s.con.bank1 else { source := source, age := q, mem := s.snapshot q m detail : SnapBank }).mem = true :=
      fun q m k => by
        split
        · exact k
        · dsimp only; exact State.snapshot_wf s q m detail
    repeat' first
      | with_reducible assumption
      | with_reducible apply State.inc_keeps
      | with_reducible apply State.put_keeps
      | refine Keeps.when ?_ fun _ _ => ?_
      | with_reducible apply State.withCon_canon
      | exact ha _ _
      | exact hb _ _
      | exact id

theorem State.stage1_keeps {root s : State} (h : Keeps root s) (faulted : Bool) (p n : Fin 9) (c : Fin 2) : Keeps root (State.stage1
    s faulted p n c) := by
  unfold State.stage1
  repeat' first
    | with_reducible assumption
    | with_reducible apply State.chanHush_keeps
    | with_reducible apply State.chanSoftOff_keeps
    | with_reducible apply State.chanOff_keeps
    | with_reducible apply State.onChan_keeps
    | with_reducible apply Keeps.ite
    | split
    | refine Keeps.upd ?_ rfl rfl rfl rfl rfl
    | dsimp only
    | intro _

theorem SnapBank.wf_ite {b : SnapBank} {c : Prop} [Decidable c] {a : Nat} {v : Word} (h : cellsWf b.mem = true) :
    cellsWf (if c then { b with mem := cellPut b.mem a v } else b).mem = true := by
  split
  · exact cellsWf_put h
  · exact h

theorem State.snapBank_keeps {root s : State} (h : Keeps root s) : Keeps root (State.snapBank s) := by
  unfold State.snapBank
  dsimp only
  split
  · exact State.withCon_canon h _ SnapBank.wf_ite id id
  · exact State.withCon_canon h _ id SnapBank.wf_ite id

theorem State.orderDone_keeps {root s : State} (h : Keeps root s) : Keeps root (State.orderDone s) := by
  unfold State.orderDone
  repeat' first
    | with_reducible assumption
    | with_reducible apply State.put_keeps
    | dsimp only
    | intro _

theorem State.safeDone_keeps {root s : State} (h : Keeps root s) : Keeps root (State.safeDone s) := by
  unfold State.safeDone
  repeat' first
    | with_reducible assumption
    | with_reducible apply State.orderDone_keeps
    | with_reducible apply State.snapBank_keeps
    | dsimp only
    | intro _

theorem State.safeOrder_keeps {root s : State} (h : Keeps root s) : Keeps root (State.safeOrder s) := by
  unfold State.safeOrder
  repeat' first
    | with_reducible assumption
    | with_reducible apply State.orderDone_keeps
    | with_reducible apply State.stage1_keeps
    | with_reducible apply State.gatePair_keeps
    | with_reducible apply State.chanHush_keeps
    | with_reducible apply State.put_keeps
    | with_reducible apply State.withSit_keeps
    | refine Keeps.each ?_ fun _ _ _ => ?_
    | with_reducible apply Keeps.ite
    | split
    | refine Keeps.upd ?_ rfl rfl rfl rfl rfl
    | dsimp only
    | intro _

theorem State.plantRefresh_keeps {root s : State} (h : Keeps root s) : Keeps root (State.plantRefresh s) := by
  unfold State.plantRefresh
  repeat' first
    | with_reducible assumption
    | with_reducible apply State.sendPlant_keeps
    | with_reducible apply State.put_keeps
    | with_reducible apply State.withSit_keeps
    | with_reducible apply Keeps.ite
    | split
    | refine Keeps.upd ?_ rfl rfl rfl rfl rfl
    | dsimp only
    | intro _

theorem State.firstLower_keeps {root s : State} (h : Keeps root s) (c : Cause) (detail : Nat) : Keeps root (State.firstLower s c
    detail) := by
  unfold State.firstLower
  refine State.withSag_keeps (State.withMet_keeps (State.withCon_canon ?_ _ ?_ ?_ ?_) _ ?_) _
  · exact State.put_keeps (State.put_keeps h _ _) _ _
  · exact SnapBank.wf_ite
  · exact SnapBank.wf_ite
  · exact id
  · rfl

theorem State.raiseStopAlso_keeps {root s : State} (h : Keeps root s) (c : Cause) (detail also : Nat) : Keeps root
    (State.raiseStopAlso s c detail also) := by
  unfold State.raiseStopAlso
  repeat' first
    | with_reducible assumption
    | with_reducible apply State.firstLower_keeps
    | with_reducible apply State.plantRefresh_keeps
    | with_reducible apply State.safeOrder_keeps
    | with_reducible apply State.cone_keeps
    | with_reducible apply State.journal_keeps
    | with_reducible apply State.orBits_keeps
    | with_reducible apply State.put_keeps
    | with_reducible apply State.withSit_keeps
    | refine Keeps.when ?_ fun _ _ => ?_
    | with_reducible apply Keeps.ite
    | split
    | refine Keeps.upd ?_ rfl rfl rfl rfl rfl
    | dsimp only
    | intro _

theorem State.raiseStop_keeps {root s : State} (h : Keeps root s) (c : Cause) (detail : Nat) : Keeps root (State.raiseStop s c
    detail) := by
  unfold State.raiseStop
  repeat' first
    | with_reducible assumption
    | with_reducible apply State.raiseStopAlso_keeps
    | dsimp only
    | intro _

theorem State.snapFault_keeps {root s : State} (h : Keeps root s) (n : Fin 9) (c : Fin 2) : Keeps root (State.snapFault s n c) := by
  unfold State.snapFault
  repeat' first
    | with_reducible assumption
    | with_reducible apply State.snapBank_keeps
    | with_reducible apply State.orBits_keeps
    | refine Keeps.when ?_ fun _ _ => ?_
    | dsimp only
    | intro _

theorem State.cutPair_keeps {root s : State} (h : Keeps root s) (p : Fin 9) : Keeps root (State.cutPair s p) := by
  unfold State.cutPair
  repeat' first
    | with_reducible assumption
    | with_reducible apply State.gatePair_keeps
    | with_reducible apply State.chanTrip_keeps
    | with_reducible apply State.chanHush_keeps
    | with_reducible apply State.putBit_keeps
    | with_reducible apply State.put_keeps
    | refine Keeps.each ?_ fun _ _ _ => ?_
    | split
    | refine Keeps.upd ?_ rfl rfl rfl rfl rfl
    | dsimp only
    | intro _

theorem State.cutPairs_keeps {root s : State} (h : Keeps root s) (ps : List (Fin 9)) : Keeps root (State.cutPairs s ps).1 := by
  unfold State.cutPairs
  try dsimp only
  repeat' first
    | with_reducible assumption
    | split
    | with_reducible apply State.cutPair_keeps
    | refine Keeps.each ?_ fun _ _ _ => ?_
    | with_reducible apply Keeps.ite
    | dsimp only
    | intro _

theorem State.coneIf_keeps {root s : State} (h : Keeps root s) (source detail : Nat) : Keeps root (State.coneIf s source detail) :=
    by
  unfold State.coneIf
  repeat' first
    | with_reducible assumption
    | with_reducible apply State.cone_keeps
    | refine Keeps.when ?_ fun _ _ => ?_
    | dsimp only
    | intro _

end Sys2Proof.Machine
end

