-- ==== Sys2Proof/Laws/KeepsCone.lean ====
section
/-!
SUPPORT. Each operation of Machine/Cone.lean keeps the queue of waiting commands and the canonical form of the memories.
-/

namespace Sys2Proof.Machine

open Sys2Proof

set_option linter.all false

theorem execTrig_keeps {s out : State} (e : execTrig s = .next out) : Keeps s out := by
  cases e
  repeat' first
    | with_reducible exact Keeps.refl _
    | with_reducible assumption
    | with_reducible apply State.cone_keeps
    | with_reducible apply State.access_keeps
    | dsimp only
    | intro _

theorem execConePin_keeps {s out : State} (e : execConePin s = .next out) : Keeps s out := by
  cases e
  repeat' first
    | with_reducible exact Keeps.refl _
    | with_reducible assumption
    | with_reducible apply State.cone_keeps
    | refine Keeps.when ?_ fun _ _ => ?_
    | dsimp only
    | intro _

theorem State.disarmMatch_keeps {root s : State} (h : Keeps root s) : Keeps root (State.disarmMatch s) := by
  unfold State.disarmMatch
  repeat' first
    | with_reducible assumption
    | with_reducible apply State.put_keeps
    | with_reducible refine State.withCon_keeps ?_ _ rfl rfl rfl
    | refine Keeps.upd ?_ rfl rfl rfl rfl rfl
    | dsimp only
    | intro _

theorem State.armMatch_keeps {root s : State} (h : Keeps root s) (sec ns : Nat) (plant : Bool) : Keeps root (State.armMatch s sec ns
    plant) := by
  unfold State.armMatch
  repeat' first
    | with_reducible assumption
    | with_reducible apply State.put_keeps
    | with_reducible refine State.withCon_keeps ?_ _ rfl rfl rfl
    | refine Keeps.upd ?_ rfl rfl rfl rfl rfl
    | dsimp only
    | intro _

theorem tmatchArmOp_keeps {root s : State} (h : Keeps root s) : Keeps root (tmatchArmOp s) := by
  unfold tmatchArmOp
  repeat' first
    | with_reducible assumption
    | with_reducible apply State.armMatch_keeps
    | with_reducible apply State.disarmMatch_keeps
    | with_reducible apply State.cone_keeps
    | with_reducible apply Keeps.ite
    | split
    | dsimp only
    | intro _

theorem execTmatchArm_keeps {s out : State} (e : execTmatchArm s = .next out) : Keeps s out := by
  cases e
  repeat' first
    | with_reducible exact Keeps.refl _
    | with_reducible assumption
    | with_reducible apply tmatchArmOp_keeps
    | with_reducible apply State.access_keeps
    | dsimp only
    | intro _

theorem execTimeMatch_keeps {s out : State} (e : execTimeMatch s = .next out) : Keeps s out := by
  cases e
  repeat' first
    | with_reducible exact Keeps.refl _
    | with_reducible assumption
    | with_reducible apply State.disarmMatch_keeps
    | with_reducible apply State.cone_keeps
    | with_reducible apply Keeps.ite
    | split
    | dsimp only
    | intro _

theorem State.sendCone_keeps {root s : State} (h : Keeps root s) (sec ns : Nat) : Keeps root (State.sendCone s sec ns) := by
  unfold State.sendCone
  repeat' first
    | with_reducible assumption
    | with_reducible apply State.sendFrame_keeps
    | refine Keeps.each ?_ fun _ _ _ => ?_
    | refine Keeps.upd ?_ rfl rfl rfl rfl rfl
    | dsimp only
    | intro _

theorem plantGoOp_keeps {root s : State} (h : Keeps root s) : Keeps root (plantGoOp s) := by
  unfold plantGoOp
  repeat' first
    | with_reducible assumption
    | with_reducible apply State.sendCone_keeps
    | with_reducible apply State.armMatch_keeps
    | with_reducible apply State.inc_keeps
    | with_reducible refine State.withCon_keeps ?_ _ rfl rfl rfl
    | with_reducible apply Keeps.ite
    | split
    | refine Keeps.upd ?_ rfl rfl rfl rfl rfl
    | dsimp only
    | intro _

theorem execPlantGo_keeps {s out : State} (e : execPlantGo s = .next out) : Keeps s out := by
  cases e
  repeat' first
    | with_reducible exact Keeps.refl _
    | with_reducible assumption
    | with_reducible apply plantGoOp_keeps
    | with_reducible apply State.access_keeps
    | dsimp only
    | intro _

theorem execConeRepeat_keeps {s out : State} (e : execConeRepeat s = .next out) : Keeps s out := by
  cases e
  repeat' first
    | with_reducible exact Keeps.refl _
    | with_reducible assumption
    | with_reducible apply State.sendCone_keeps
    | with_reducible refine State.withCon_keeps ?_ _ rfl rfl rfl
    | split
    | refine Keeps.upd ?_ rfl rfl rfl rfl rfl
    | dsimp only
    | intro _

theorem execConeFrame_keeps {s out : State} (crcOk : Bool) (time : Nat × Nat) (e : execConeFrame crcOk time s = .next out) :
    Keeps s out := by
  cases e
  repeat' first
    | with_reducible exact Keeps.refl _
    | with_reducible assumption
    | with_reducible apply State.armMatch_keeps
    | with_reducible apply State.passDown_keeps
    | with_reducible apply State.inc_keeps
    | refine Keeps.when ?_ fun _ _ => ?_
    | with_reducible apply Keeps.ite
    | split
    | dsimp only
    | intro _

theorem State.releaseBank_keeps {root s : State} (h : Keeps root s) (b : Nat) (held : Fld) : Keeps root (State.releaseBank s b held)
    := by
  unfold State.releaseBank
  repeat' first
    | with_reducible assumption
    | with_reducible apply State.inc_keeps
    | with_reducible apply State.put_keeps
    | with_reducible apply Keeps.ite
    | split
    | dsimp only
    | intro _

theorem execRelease0_keeps {s out : State} (e : execRelease0 s = .next out) : Keeps s out := by
  cases e
  repeat' first
    | with_reducible exact Keeps.refl _
    | with_reducible assumption
    | with_reducible apply State.releaseBank_keeps
    | with_reducible apply State.access_keeps
    | dsimp only
    | intro _

theorem execRelease1_keeps {s out : State} (e : execRelease1 s = .next out) : Keeps s out := by
  cases e
  repeat' first
    | with_reducible exact Keeps.refl _
    | with_reducible assumption
    | with_reducible apply State.releaseBank_keeps
    | with_reducible apply State.access_keeps
    | dsimp only
    | intro _

theorem State.capFill_keeps {root s : State} (h : Keeps root s) : Keeps root (State.capFill s) := by
  unfold State.capFill
  repeat' first
    | with_reducible assumption
    | with_reducible apply State.put_keeps
    | with_reducible refine State.withCon_keeps ?_ _ rfl rfl rfl
    | refine Keeps.upd ?_ rfl rfl rfl rfl rfl
    | dsimp only
    | intro _

theorem capRearmOp_keeps {root s : State} (h : Keeps root s) : Keeps root (capRearmOp s) := by
  unfold capRearmOp
  repeat' first
    | with_reducible assumption
    | with_reducible apply State.capFill_keeps
    | refine Keeps.when ?_ fun _ _ => ?_
    | dsimp only
    | intro _

theorem execCapRearm_keeps {s out : State} (e : execCapRearm s = .next out) : Keeps s out := by
  cases e
  repeat' first
    | with_reducible exact Keeps.refl _
    | with_reducible assumption
    | with_reducible apply capRearmOp_keeps
    | with_reducible apply State.access_keeps
    | dsimp only
    | intro _

theorem capEnWriteOp_keeps {root s : State} (h : Keeps root s) (v : Word) : Keeps root (capEnWriteOp v s) := by
  unfold capEnWriteOp
  repeat' first
    | with_reducible assumption
    | with_reducible apply State.capFill_keeps
    | with_reducible apply State.inc_keeps
    | with_reducible apply State.put_keeps
    | with_reducible apply Keeps.ite
    | split
    | dsimp only
    | intro _

theorem execCapEnWrite_keeps {s out : State} (v : Word) (e : execCapEnWrite v s = .next out) : Keeps s out := by
  cases e
  repeat' first
    | with_reducible exact Keeps.refl _
    | with_reducible assumption
    | with_reducible apply capEnWriteOp_keeps
    | with_reducible apply State.access_keeps
    | dsimp only
    | intro _

theorem State.takeRecord_keeps {r s : State} (h : Keeps r s) (k : Nat) : Keeps r (State.takeRecord s k) := by
  unfold State.takeRecord
  refine Keeps.when (Keeps.when (Keeps.con h ?_ ?_ ?_) fun _ k => ?_) fun _ k => ?_
  · with_reducible exact id
  · with_reducible exact id
  · intro g
    with_reducible exact cellsWf_foldl (cellsWf_put g) fun _ _ g => cellsWf_put g
  · exact State.put_keeps k _ _
  · exact State.put_keeps k _ _

theorem State.captureStart_keeps {root s : State} (h : Keeps root s) (k : Nat) : Keeps root (State.captureStart s k) := by
  unfold State.captureStart
  repeat' first
    | with_reducible assumption
    | with_reducible apply State.takeRecord_keeps
    | with_reducible refine State.withCon_keeps ?_ _ rfl rfl rfl
    | with_reducible apply Keeps.ite
    | split
    | refine Keeps.upd ?_ rfl rfl rfl rfl rfl
    | dsimp only
    | intro _

theorem State.captureFreeze_keeps {root s : State} (h : Keeps root s) : Keeps root (State.captureFreeze s) := by
  unfold State.captureFreeze
  repeat' first
    | with_reducible assumption
    | with_reducible apply State.put_keeps
    | dsimp only
    | intro _

theorem execCaptureFrozen_keeps {s out : State} (e : execCaptureFrozen s = .next out) : Keeps s out := by
  cases e
  repeat' first
    | with_reducible exact Keeps.refl _
    | with_reducible assumption
    | with_reducible apply State.captureFreeze_keeps
    | refine Keeps.when ?_ fun _ _ => ?_
    | dsimp only
    | intro _

theorem State.captureFiring_keeps {root s : State} (h : Keeps root s) : Keeps root (State.captureFiring s) := by
  unfold State.captureFiring
  repeat' first
    | with_reducible assumption
    | with_reducible apply State.captureFreeze_keeps
    | refine Keeps.when ?_ fun _ _ => ?_
    | dsimp only
    | intro _

end Sys2Proof.Machine
end

