-- ==== Sys2Proof/Laws/KeepsGrog.lean ====
section
/-!
SUPPORT. Each operation of Machine/Grog.lean keeps the queue of waiting commands and the canonical form of the memories.
-/

namespace Sys2Proof.Machine

open Sys2Proof

set_option linter.all false

theorem State.propose_keeps {root s : State} (h : Keeps root s) (mon kind inst sub reason : Nat) : Keeps root (State.propose s mon
    kind inst sub reason) := by
  unfold State.propose
  repeat' first
    | with_reducible assumption
    | with_reducible apply State.journal_keeps
    | with_reducible apply State.inc_keeps
    | with_reducible apply State.put_keeps
    | with_reducible apply State.withGrg_keeps
    | with_reducible apply Keeps.ite
    | split
    | refine Keeps.upd ?_ rfl rfl rfl rfl rfl
    | dsimp only
    | intro _

theorem State.mapRequest_keeps {root s : State} (h : Keeps root s) (kind inst sub : Nat) (hard byFw : Bool) : Keeps root
    (State.mapRequest s kind inst sub hard byFw) := by
  unfold State.mapRequest
  repeat' first
    | with_reducible assumption
    | with_reducible apply State.withGrg_keeps
    | with_reducible apply Keeps.ite
    | split
    | refine Keeps.upd ?_ rfl rfl rfl rfl rfl
    | dsimp only
    | intro _

theorem State.grogHard_keeps {root s : State} (h : Keeps root s) (kind inst sub : Nat) : Keeps root (State.grogHard s kind inst sub)
    := by
  unfold State.grogHard
  repeat' first
    | with_reducible assumption
    | with_reducible apply State.mapRequest_keeps
    | with_reducible apply State.propose_keeps
    | with_reducible apply Keeps.ite
    | split
    | dsimp only
    | intro _

theorem State.sectorFails_keeps {root s : State} (h : Keeps root s) (bad : Option (BitVec 8)) : Keeps root (State.sectorFails s bad)
    := by
  unfold State.sectorFails
  repeat' first
    | with_reducible assumption
    | with_reducible apply State.grogHard_keeps
    | split
    | dsimp only
    | intro _

theorem State.grogWorst_keeps {root s : State} (h : Keeps root s) (m : Fin 7) (inst : Nat) (v : Word) : Keeps root (State.grogWorst
    s m inst v) := by
  unfold State.grogWorst
  repeat' first
    | with_reducible assumption
    | with_reducible apply State.put_keeps
    | with_reducible apply State.withGrg_keeps
    | with_reducible apply Keeps.ite
    | split
    | refine Keeps.upd ?_ rfl rfl rfl rfl rfl
    | dsimp only
    | intro _

theorem State.grogWarn_keeps {root s : State} (h : Keeps root s) (m : Fin 7) (key kind inst sub : Nat) (v : Word) (warn worn : Bool)
    : Keeps root (State.grogWarn s m key kind inst sub v warn worn) := by
  unfold State.grogWarn
  repeat' first
    | with_reducible assumption
    | with_reducible apply State.propose_keeps
    | with_reducible apply State.journal_keeps
    | with_reducible apply State.put_keeps
    | with_reducible apply State.withGrg_keeps
    | refine Keeps.when ?_ fun _ _ => ?_
    | with_reducible apply Keeps.ite
    | split
    | refine Keeps.upd ?_ rfl rfl rfl rfl rfl
    | dsimp only
    | intro _

theorem State.grogReport_keeps {root s : State} (h : Keeps root s) (m : Fin 7) (kind inst sub : Nat) (v : Word) (warn worn : Bool) :
    Keeps root (State.grogReport s m kind inst sub v warn worn) := by
  unfold State.grogReport
  repeat' first
    | with_reducible assumption
    | with_reducible apply State.grogWarn_keeps
    | with_reducible apply State.grogWorst_keeps
    | dsimp only
    | intro _

theorem State.grogEye_keeps {root s : State} (h : Keeps root s) (key lane : Nat) (v : Word) : Keeps root (State.grogEye s key lane
    v) := by
  unfold State.grogEye
  repeat' first
    | with_reducible assumption
    | with_reducible apply State.withGrg_keeps
    | with_reducible apply Keeps.ite
    | split
    | refine Keeps.upd ?_ rfl rfl rfl rfl rfl
    | dsimp only
    | intro _

theorem State.grogErr_keeps {root s : State} (h : Keeps root s) (kind inst sub : Nat) : Keeps root (State.grogErr s kind inst sub)
    := by
  unfold State.grogErr
  repeat' first
    | with_reducible assumption
    | with_reducible apply State.grogReport_keeps
    | with_reducible apply State.withGrg_keeps
    | with_reducible apply Keeps.ite
    | split
    | refine Keeps.upd ?_ rfl rfl rfl rfl rfl
    | dsimp only
    | intro _

theorem State.grogSegment_keeps {root s : State} (h : Keeps root s) (n : Fin 9) (c : Fin 2) (k : Fin 8) (rds initial : Nat) (broken
    : Bool) : Keeps root (State.grogSegment s n c k rds initial broken) := by
  unfold State.grogSegment
  repeat' first
    | with_reducible assumption
    | with_reducible apply State.grogReport_keeps
    | with_reducible apply State.grogHard_keeps
    | with_reducible apply Keeps.ite
    | split
    | dsimp only
    | intro _

theorem State.grogWinDrift_keeps {root s : State} (h : Keeps root s) (n : Fin 44) (ofs : Int) (pass : Bool) : Keeps root
    (State.grogWinDrift s n ofs pass) := by
  unfold State.grogWinDrift
  repeat' first
    | with_reducible assumption
    | with_reducible apply State.grogReport_keeps
    | dsimp only
    | intro _

theorem State.setGx_keeps {root s : State} (h : Keeps root s) (i : Fin 2) (u : GxUse) : Keeps root (State.setGx s i u) := by
  unfold State.setGx
  repeat' first
    | with_reducible assumption
    | with_reducible apply State.withGx_keeps
    | dsimp only
    | intro _

theorem State.diagBegin_keeps {root s : State} (h : Keeps root s) (core ain : Nat) : Keeps root (State.diagBegin s core ain) := by
  unfold State.diagBegin
  repeat' first
    | with_reducible assumption
    | with_reducible apply State.setGx_keeps
    | with_reducible apply State.put_keeps
    | with_reducible apply State.withGrg_keeps
    | split
    | refine Keeps.upd ?_ rfl rfl rfl rfl rfl
    | dsimp only
    | intro _

theorem State.diagWanted_keeps {root s : State} (h : Keeps root s) (core ain : Nat) : Keeps root (State.diagWanted s core ain) := by
  unfold State.diagWanted
  repeat' first
    | with_reducible assumption
    | with_reducible apply State.diagBegin_keeps
    | with_reducible apply State.withGrg_keeps
    | with_reducible apply Keeps.ite
    | split
    | refine Keeps.upd ?_ rfl rfl rfl rfl rfl
    | dsimp only
    | intro _

theorem State.diagNext_keeps {root s : State} (h : Keeps root s) : Keeps root (State.diagNext s) := by
  unfold State.diagNext
  repeat' first
    | with_reducible assumption
    | with_reducible apply State.diagBegin_keeps
    | with_reducible apply State.withGrg_keeps
    | split
    | refine Keeps.upd ?_ rfl rfl rfl rfl rfl
    | dsimp only
    | intro _

theorem State.grogFlag_keeps {root s : State} (h : Keeps root s) (core ain : Nat) : Keeps root (State.grogFlag s core ain) := by
  unfold State.grogFlag
  repeat' first
    | with_reducible assumption
    | with_reducible apply State.diagWanted_keeps
    | refine Keeps.when ?_ fun _ _ => ?_
    | dsimp only
    | intro _

theorem State.grogRefuse_keeps {root s : State} (h : Keeps root s) : Keeps root (State.grogRefuse s) := by
  unfold State.grogRefuse
  repeat' first
    | with_reducible assumption
    | with_reducible apply State.inc_keeps
    | with_reducible apply State.put_keeps
    | dsimp only
    | intro _

theorem State.grogCmd_keeps {root s : State} (h : Keeps root s) (op kind inst sub : Nat) : Keeps root (State.grogCmd s op kind inst
    sub) := by
  unfold State.grogCmd
  repeat' first
    | with_reducible assumption
    | with_reducible apply State.put_keeps
    | dsimp only
    | intro _

theorem State.grogRuns_keeps {root s : State} (h : Keeps root s) (op : Nat) : Keeps root (State.grogRuns s op) := by
  unfold State.grogRuns
  repeat' first
    | with_reducible assumption
    | with_reducible apply State.put_keeps
    | with_reducible apply State.withGrg_keeps
    | refine Keeps.upd ?_ rfl rfl rfl rfl rfl
    | dsimp only
    | intro _

theorem State.grogEnds_keeps {root s : State} (h : Keeps root s) : Keeps root (State.grogEnds s) := by
  unfold State.grogEnds
  repeat' first
    | with_reducible assumption
    | with_reducible apply State.put_keeps
    | with_reducible apply State.withGrg_keeps
    | refine Keeps.upd ?_ rfl rfl rfl rfl rfl
    | dsimp only
    | intro _

theorem commitOp_keeps {root s : State} (h : Keeps root s) (p : Fin 8) : Keeps root (commitOp p s) := by
  unfold commitOp
  repeat' first
    | with_reducible assumption
    | with_reducible apply State.grogRuns_keeps
    | with_reducible apply State.grogCmd_keeps
    | with_reducible apply State.grogRefuse_keeps
    | with_reducible apply State.mapRequest_keeps
    | with_reducible apply State.put_keeps
    | with_reducible apply State.withGrg_keeps
    | with_reducible apply Keeps.ite
    | split
    | refine Keeps.upd ?_ rfl rfl rfl rfl rfl
    | dsimp only
    | intro _

theorem execCommit_keeps {s out : State} (p : Fin 8) (e : execCommit p s = .next out) : Keeps s out := by
  cases e
  repeat' first
    | with_reducible exact Keeps.refl _
    | with_reducible assumption
    | with_reducible apply commitOp_keeps
    | with_reducible apply State.access_keeps
    | dsimp only
    | intro _

theorem dismissOp_keeps {root s : State} (h : Keeps root s) (p : Fin 8) : Keeps root (dismissOp p s) := by
  unfold dismissOp
  repeat' first
    | with_reducible assumption
    | with_reducible apply State.grogCmd_keeps
    | with_reducible apply State.grogRefuse_keeps
    | with_reducible apply State.put_keeps
    | with_reducible apply State.withGrg_keeps
    | with_reducible apply Keeps.ite
    | split
    | refine Keeps.upd ?_ rfl rfl rfl rfl rfl
    | dsimp only
    | intro _

theorem execDismiss_keeps {s out : State} (p : Fin 8) (e : execDismiss p s = .next out) : Keeps s out := by
  cases e
  repeat' first
    | with_reducible exact Keeps.refl _
    | with_reducible assumption
    | with_reducible apply dismissOp_keeps
    | with_reducible apply State.access_keeps
    | dsimp only
    | intro _

theorem retireOp_keeps {root s : State} (h : Keeps root s) (kind : Fin 16) (inst sub : BitVec 8) : Keeps root (retireOp kind inst
    sub s) := by
  unfold retireOp
  repeat' first
    | with_reducible assumption
    | with_reducible apply State.grogRuns_keeps
    | with_reducible apply State.grogCmd_keeps
    | with_reducible apply State.grogRefuse_keeps
    | with_reducible apply State.mapRequest_keeps
    | with_reducible apply Keeps.ite
    | split
    | dsimp only
    | intro _

theorem execRetire_keeps {s out : State} (kind : Fin 16) (inst sub : BitVec 8) (e : execRetire kind inst sub s = .next out) : Keeps
    s out := by
  cases e
  repeat' first
    | with_reducible exact Keeps.refl _
    | with_reducible assumption
    | with_reducible apply retireOp_keeps
    | with_reducible apply State.access_keeps
    | dsimp only
    | intro _

theorem diagnoseOp_keeps {root s : State} (h : Keeps root s) (n : Fin 16) : Keeps root (diagnoseOp n s) := by
  unfold diagnoseOp
  repeat' first
    | with_reducible assumption
    | with_reducible apply State.grogRuns_keeps
    | with_reducible apply State.grogCmd_keeps
    | with_reducible apply State.grogRefuse_keeps
    | with_reducible apply State.diagWanted_keeps
    | with_reducible apply State.put_keeps
    | with_reducible apply Keeps.ite
    | split
    | dsimp only
    | intro _

theorem execDiagnose_keeps {s out : State} (n : Fin 16) (e : execDiagnose n s = .next out) : Keeps s out := by
  cases e
  repeat' first
    | with_reducible exact Keeps.refl _
    | with_reducible assumption
    | with_reducible apply diagnoseOp_keeps
    | with_reducible apply State.access_keeps
    | dsimp only
    | intro _

theorem State.mapEffect_keeps {root s : State} (h : Keeps root s) (e : MapEntry) : Keeps root (State.mapEffect s e) := by
  unfold State.mapEffect
  repeat' first
    | with_reducible assumption
    | with_reducible apply State.onAdc_keeps
    | with_reducible apply Keeps.ite
    | split
    | refine Keeps.upd ?_ rfl rfl rfl rfl rfl
    | dsimp only
    | intro _

theorem State.sparesLow_keeps {root s : State} (h : Keeps root s) (kind : Nat) : Keeps root (State.sparesLow s kind) := by
  unfold State.sparesLow
  repeat' first
    | with_reducible assumption
    | with_reducible apply State.journal_keeps
    | with_reducible apply State.put_keeps
    | with_reducible apply Keeps.ite
    | split
    | dsimp only
    | intro _

theorem execMapAdd_keeps {s out : State} (e : execMapAdd s = .next out) : Keeps s out := by
  cases e
  repeat' first
    | with_reducible exact Keeps.refl _
    | with_reducible assumption
    | with_reducible apply State.sparesLow_keeps
    | with_reducible apply State.mapEffect_keeps
    | with_reducible apply State.grogEnds_keeps
    | with_reducible apply State.journal_keeps
    | with_reducible apply State.put_keeps
    | with_reducible apply State.withGrg_keeps
    | refine Keeps.when ?_ fun _ _ => ?_
    | split
    | refine Keeps.upd ?_ rfl rfl rfl rfl rfl
    | dsimp only
    | intro _

theorem execDiagTwinPlace_keeps {s out : State} (e : execDiagTwinPlace s = .next out) : Keeps s out := by
  cases e
  repeat' first
    | with_reducible exact Keeps.refl _
    | with_reducible assumption
    | with_reducible apply State.grogEnds_keeps
    | with_reducible apply State.withGrg_keeps
    | refine Keeps.when ?_ fun _ _ => ?_
    | with_reducible apply Keeps.ite
    | split
    | refine Keeps.upd ?_ rfl rfl rfl rfl rfl
    | dsimp only
    | intro _

theorem State.releaseTwin_keeps {root s : State} (h : Keeps root s) (d : Diagnosis) : Keeps root (State.releaseTwin s d) := by
  unfold State.releaseTwin
  repeat' first
    | with_reducible assumption
    | with_reducible apply State.setGx_keeps
    | refine Keeps.when ?_ fun _ _ => ?_
    | split
    | dsimp only
    | intro _

theorem State.coreVerdict_keeps {root s : State} (h : Keeps root s) (ph : Nat) : Keeps root (State.coreVerdict s ph) := by
  unfold State.coreVerdict
  repeat' first
    | with_reducible assumption
    | with_reducible apply State.mapRequest_keeps
    | with_reducible apply State.propose_keeps
    | with_reducible apply State.withGrg_keeps
    | with_reducible apply Keeps.ite
    | split
    | refine Keeps.upd ?_ rfl rfl rfl rfl rfl
    | dsimp only
    | intro _

theorem execDiagVerdict_keeps {s out : State} (mean : Nat) (burst : Bool) (e : execDiagVerdict mean burst s = .next out) : Keeps s
    out := by
  cases e
  repeat' first
    | with_reducible exact Keeps.refl _
    | with_reducible assumption
    | with_reducible apply State.coreVerdict_keeps
    | with_reducible apply State.releaseTwin_keeps
    | with_reducible apply State.diagNext_keeps
    | with_reducible apply State.journal_keeps
    | with_reducible apply State.put_keeps
    | with_reducible apply State.withGrg_keeps
    | refine Keeps.when ?_ fun _ _ => ?_
    | with_reducible apply Keeps.ite
    | split
    | refine Keeps.upd ?_ rfl rfl rfl rfl rfl
    | dsimp only
    | intro _

theorem execDiagRetry_keeps {s out : State} (e : execDiagRetry s = .next out) : Keeps s out := by
  cases e
  repeat' first
    | with_reducible exact Keeps.refl _
    | with_reducible assumption
    | with_reducible apply State.diagBegin_keeps
    | with_reducible apply Keeps.ite
    | split
    | dsimp only
    | intro _

theorem execWearMonitorSample_keeps {s out : State} (m : Fin 7) (kind : Fin 10) (inst sub : BitVec 8) (v : Word) (e :
    execWearMonitorSample m kind inst sub v s = .next out) : Keeps s out := by
  cases e
  repeat' first
    | with_reducible exact Keeps.refl _
    | with_reducible assumption
    | with_reducible apply State.grogEye_keeps
    | with_reducible apply State.grogReport_keeps
    | with_reducible apply State.grogWarn_keeps
    | with_reducible apply Keeps.ite
    | split
    | dsimp only
    | intro _

theorem State.wearRecord_keeps {root s : State} (h : Keeps root s) : Keeps root (State.wearRecord s) := by
  unfold State.wearRecord
  repeat' first
    | with_reducible assumption
    | with_reducible apply State.journalC_keeps
    | with_reducible apply State.withGrg_keeps
    | split
    | refine Keeps.upd ?_ rfl rfl rfl rfl rfl
    | dsimp only
    | intro _

theorem execWearSample_keeps {s out : State} (e : execWearSample s = .next out) : Keeps s out := by
  cases e
  repeat' first
    | with_reducible exact Keeps.refl _
    | with_reducible assumption
    | with_reducible apply State.wearRecord_keeps
    | dsimp only
    | intro _

theorem execSramError_keeps {s out : State} (col : Bool) (bank : Fin 32) (i : BitVec 8) (hard : Bool) (e : execSramError col bank i
    hard s = .next out) : Keeps s out := by
  cases e
  repeat' first
    | with_reducible exact Keeps.refl _
    | with_reducible assumption
    | with_reducible apply State.grogErr_keeps
    | with_reducible apply State.grogHard_keeps
    | with_reducible apply Keeps.ite
    | split
    | dsimp only
    | intro _

theorem State.substitute_keeps {root s : State} (h : Keeps root s) : Keeps root (State.substitute s) := by
  unfold State.substitute
  repeat' first
    | with_reducible assumption
    | with_reducible apply State.putB_keeps
    | with_reducible apply State.put_keeps
    | refine Keeps.each ?_ fun _ _ _ => ?_
    | split
    | dsimp only
    | intro _

theorem State.diagAbort_keeps {root s : State} (h : Keeps root s) : Keeps root (State.diagAbort s) := by
  unfold State.diagAbort
  repeat' first
    | with_reducible assumption
    | with_reducible apply State.releaseTwin_keeps
    | with_reducible apply State.grogEnds_keeps
    | with_reducible apply State.put_keeps
    | with_reducible apply State.withGrg_keeps
    | refine Keeps.when ?_ fun _ _ => ?_
    | split
    | refine Keeps.upd ?_ rfl rfl rfl rfl rfl
    | dsimp only
    | intro _

theorem State.grogFiring_keeps {root s : State} (h : Keeps root s) : Keeps root (State.grogFiring s) := by
  unfold State.grogFiring
  repeat' first
    | with_reducible assumption
    | with_reducible apply State.diagAbort_keeps
    | with_reducible apply State.substitute_keeps
    | with_reducible apply State.wearRecord_keeps
    | with_reducible apply State.putBit_keeps
    | refine Keeps.each ?_ fun _ _ _ => ?_
    | with_reducible apply Keeps.ite
    | split
    | dsimp only
    | intro _

end Sys2Proof.Machine
end

