-- ==== Sys2Proof/Laws/KeepsAdc.lean ====
section
/-!
SUPPORT. Each operation of Machine/Adc.lean keeps the queue of waiting commands and the canonical form of the memories.
-/

namespace Sys2Proof.Machine

open Sys2Proof

set_option linter.all false

theorem State.adcBegin_keeps {root s : State} (h : Keeps root s) (n : Fin 18) (now : Nat) (v : Conv) : Keeps root (State.adcBegin s
    n now v) := by
  unfold State.adcBegin
  repeat' first
    | with_reducible assumption
    | with_reducible apply State.onAdc_keeps
    | with_reducible apply State.put_keeps
    | with_reducible apply Keeps.ite
    | split
    | refine Keeps.upd ?_ rfl rfl rfl rfl rfl
    | dsimp only
    | intro _

theorem State.startBit_keeps {root s : State} (h : Keeps root s) (n : Fin 16) (now : Nat) : Keeps root (State.startBit s n now).1 :=
    by
  unfold State.startBit
  try dsimp only
  repeat' first
    | with_reducible assumption
    | split
    | with_reducible apply State.adcBegin_keeps
    | with_reducible apply State.inc_keeps
    | with_reducible apply State.put_keeps
    | refine Keeps.when ?_ fun _ _ => ?_
    | with_reducible apply Keeps.ite
    | dsimp only
    | intro _

theorem State.urgDrop_keeps {root s : State} (h : Keeps root s) (n : Fin 18) : Keeps root (State.urgDrop s n) := by
  unfold State.urgDrop
  repeat' first
    | with_reducible assumption
    | with_reducible apply State.inc_keeps
    | with_reducible apply State.put_keeps
    | dsimp only
    | intro _

theorem State.adcNext_keeps {root s : State} (h : Keeps root s) (n : Fin 18) : Keeps root (State.adcNext s n) := by
  unfold State.adcNext
  repeat' first
    | with_reducible assumption
    | with_reducible apply State.adcBegin_keeps
    | with_reducible apply State.onAdc_keeps
    | with_reducible apply State.put_keeps
    | with_reducible apply Keeps.ite
    | split
    | refine Keeps.upd ?_ rfl rfl rfl rfl rfl
    | dsimp only
    | intro _

theorem State.urgent_keeps {root s : State} (h : Keeps root s) (n : Fin 18) (gap : Bool) : Keeps root (State.urgent s n gap) := by
  unfold State.urgent
  repeat' first
    | with_reducible assumption
    | with_reducible apply State.urgDrop_keeps
    | with_reducible apply State.adcBegin_keeps
    | with_reducible apply State.put_keeps
    | refine Keeps.when ?_ fun _ _ => ?_
    | with_reducible apply Keeps.ite
    | split
    | dsimp only
    | intro _

theorem adcStartOp_keeps {root s : State} (h : Keeps root s) (n : Fin 18) (gap : Bool) : Keeps root (adcStartOp n gap s) := by
  unfold adcStartOp
  repeat' first
    | with_reducible assumption
    | with_reducible apply State.urgent_keeps
    | dsimp only
    | intro _

theorem execAdcStart_keeps {s out : State} (n : Fin 18) (gap : Bool) (e : execAdcStart n gap s = .next out) : Keeps s out := by
  cases e
  repeat' first
    | with_reducible exact Keeps.refl _
    | with_reducible assumption
    | with_reducible apply adcStartOp_keeps
    | with_reducible apply State.access_keeps
    | dsimp only
    | intro _

theorem State.adcUrgentFrom_keeps {root s : State} (h : Keeps root s) (n : Fin 44) (idle : BitVec 16) : Keeps root
    (State.adcUrgentFrom s n idle) := by
  unfold State.adcUrgentFrom
  repeat' first
    | with_reducible assumption
    | with_reducible apply State.urgent_keeps
    | refine Keeps.each ?_ fun _ _ _ => ?_
    | refine Keeps.when ?_ fun _ _ => ?_
    | with_reducible apply Keeps.ite
    | split
    | dsimp only
    | intro _

theorem State.adcResult_keeps {root s : State} (h : Keeps root s) (n : Fin 16) (e : Nat) (urgent : Bool) (raw : Nat) (ovf : Bool) :
    Keeps root (State.adcResult s n e urgent raw ovf) := by
  unfold State.adcResult
  repeat' first
    | with_reducible assumption
    | with_reducible apply State.publish_keeps
    | with_reducible apply State.inc_keeps
    | with_reducible apply State.put_keeps
    | refine Keeps.when ?_ fun _ _ => ?_
    | with_reducible apply Keeps.ite
    | split
    | dsimp only
    | intro _

theorem State.startArrived_keeps {root s : State} (h : Keeps root s) (n : Fin 16) (cyc : Nat) : Keeps root (State.startArrived s n
    cyc) := by
  unfold State.startArrived
  repeat' first
    | with_reducible assumption
    | with_reducible apply State.onGroup_keeps
    | with_reducible apply Keeps.ite
    | split
    | refine Keeps.upd ?_ rfl rfl rfl rfl rfl
    | dsimp only
    | intro _

theorem execConversionDone_keeps {s out : State} (n : Fin 16) (raw : BitVec 16) (ovf : Bool) (e : execConversionDone n raw ovf s =
    .next out) : Keeps s out := by
  cases e
  repeat' first
    | with_reducible exact Keeps.refl _
    | with_reducible assumption
    | with_reducible apply State.startArrived_keeps
    | with_reducible apply State.adcResult_keeps
    | with_reducible apply State.adcNext_keeps
    | with_reducible apply State.onAdc_keeps
    | refine Keeps.when ?_ fun _ _ => ?_
    | with_reducible apply Keeps.ite
    | split
    | refine Keeps.upd ?_ rfl rfl rfl rfl rfl
    | dsimp only
    | intro _

theorem execAdcWatchdog_keeps {s out : State} (n : Fin 16) (e : execAdcWatchdog n s = .next out) : Keeps s out := by
  cases e
  repeat' first
    | with_reducible exact Keeps.refl _
    | with_reducible assumption
    | with_reducible apply State.adcNext_keeps
    | with_reducible apply State.onAdc_keeps
    | with_reducible apply State.inc_keeps
    | with_reducible apply State.put_keeps
    | with_reducible apply Keeps.ite
    | split
    | refine Keeps.upd ?_ rfl rfl rfl rfl rfl
    | dsimp only
    | intro _

theorem State.calRefuse_keeps {root s : State} (h : Keeps root s) (n : Fin 18) : Keeps root (State.calRefuse s n) := by
  unfold State.calRefuse
  repeat' first
    | with_reducible assumption
    | with_reducible apply State.put_keeps
    | dsimp only
    | intro _

theorem State.calRun_keeps {root s : State} (h : Keeps root s) (n : Fin 18) : Keeps root (State.calRun s n) := by
  unfold State.calRun
  repeat' first
    | with_reducible assumption
    | with_reducible apply State.onAdc_keeps
    | with_reducible apply State.put_keeps
    | with_reducible apply Keeps.ite
    | split
    | refine Keeps.upd ?_ rfl rfl rfl rfl rfl
    | dsimp only
    | intro _

theorem calOp_keeps {root s : State} (h : Keeps root s) (n : Fin 18) : Keeps root (calOp n s) := by
  unfold calOp
  repeat' first
    | with_reducible assumption
    | with_reducible apply State.calRun_keeps
    | with_reducible apply State.calRefuse_keeps
    | with_reducible apply State.setGx_keeps
    | with_reducible apply State.onAdc_keeps
    | with_reducible apply State.put_keeps
    | with_reducible apply Keeps.ite
    | split
    | refine Keeps.upd ?_ rfl rfl rfl rfl rfl
    | dsimp only
    | intro _

theorem execCal_keeps {s out : State} (n : Fin 18) (e : execCal n s = .next out) : Keeps s out := by
  cases e
  repeat' first
    | with_reducible exact Keeps.refl _
    | with_reducible assumption
    | with_reducible apply calOp_keeps
    | with_reducible apply State.access_keeps
    | dsimp only
    | intro _

theorem State.carry_keeps {root s : State} (h : Keeps root s) (n : Fin 16) (carrier : Fin 4) (free : Bool) : Keeps root (State.carry
    s n carrier free) := by
  unfold State.carry
  repeat' first
    | with_reducible assumption
    | with_reducible apply State.setGx_keeps
    | with_reducible apply State.put_keeps
    | refine Keeps.when ?_ fun _ _ => ?_
    | with_reducible apply Keeps.ite
    | split
    | dsimp only
    | intro _

theorem execCalTakeover_keeps {s out : State} (n : Fin 16) (e : execCalTakeover n s = .next out) : Keeps s out := by
  cases e
  repeat' first
    | with_reducible exact Keeps.refl _
    | with_reducible assumption
    | with_reducible apply State.carry_keeps
    | with_reducible apply State.setGx_keeps
    | with_reducible apply State.onAdc_keeps
    | refine Keeps.when ?_ fun _ _ => ?_
    | with_reducible apply Keeps.ite
    | split
    | refine Keeps.upd ?_ rfl rfl rfl rfl rfl
    | dsimp only
    | intro _

theorem State.putFactors_keeps {root s : State} (h : Keeps root s) (ph : Fin 18) (f : CalFactors) : Keeps root (State.putFactors s
    ph f) := by
  unfold State.putFactors
  repeat' first
    | with_reducible assumption
    | with_reducible apply State.putI_keeps
    | refine Keeps.each ?_ fun _ _ _ => ?_
    | with_reducible apply Keeps.ite
    | split
    | dsimp only
    | intro _

theorem State.grogAdc_keeps {root s : State} (h : Keeps root s) (ph : Fin 18) (f : CalFactors) (fail : Bool) : Keeps root
    (State.grogAdc s ph f fail) := by
  unfold State.grogAdc
  repeat' first
    | with_reducible assumption
    | with_reducible apply State.grogReport_keeps
    | dsimp only
    | intro _

theorem execCalComplete_keeps {s out : State} (n : Fin 18) (f : CalFactors) (e : execCalComplete n f s = .next out) : Keeps s out :=
    by
  cases e
  repeat' first
    | with_reducible exact Keeps.refl _
    | with_reducible assumption
    | with_reducible apply State.grogAdc_keeps
    | with_reducible apply State.putFactors_keeps
    | with_reducible apply State.adcNext_keeps
    | with_reducible apply State.onAdc_keeps
    | with_reducible apply State.put_keeps
    | refine Keeps.when ?_ fun _ _ => ?_
    | with_reducible apply Keeps.ite
    | split
    | refine Keeps.upd ?_ rfl rfl rfl rfl rfl
    | dsimp only
    | intro _

theorem execCalReturn_keeps {s out : State} (n : Fin 16) (e : execCalReturn n s = .next out) : Keeps s out := by
  cases e
  repeat' first
    | with_reducible exact Keeps.refl _
    | with_reducible assumption
    | with_reducible apply State.carry_keeps
    | with_reducible apply State.setGx_keeps
    | with_reducible apply State.onAdc_keeps
    | with_reducible apply State.put_keeps
    | with_reducible apply Keeps.ite
    | split
    | refine Keeps.upd ?_ rfl rfl rfl rfl rfl
    | dsimp only
    | intro _

theorem calAllOp_keeps {root s : State} (h : Keeps root s) : Keeps root (calAllOp s) := by
  unfold calAllOp
  repeat' first
    | with_reducible assumption
    | with_reducible apply State.calRun_keeps
    | with_reducible apply State.put_keeps
    | refine Keeps.each ?_ fun _ _ _ => ?_
    | with_reducible apply Keeps.ite
    | split
    | dsimp only
    | intro _

theorem execCalAll_keeps {s out : State} (e : execCalAll s = .next out) : Keeps s out := by
  cases e
  repeat' first
    | with_reducible exact Keeps.refl _
    | with_reducible assumption
    | with_reducible apply calAllOp_keeps
    | with_reducible apply State.access_keeps
    | dsimp only
    | intro _

theorem State.calFiring_keeps {root s : State} (h : Keeps root s) (n : Fin 18) : Keeps root (State.calFiring s n) := by
  unfold State.calFiring
  repeat' first
    | with_reducible assumption
    | with_reducible apply State.put_keeps
    | with_reducible apply Keeps.ite
    | split
    | dsimp only
    | intro _

theorem State.adcFiring_keeps {root s : State} (h : Keeps root s) : Keeps root (State.adcFiring s) := by
  unfold State.adcFiring
  repeat' first
    | with_reducible assumption
    | with_reducible apply State.calFiring_keeps
    | with_reducible apply State.carry_keeps
    | with_reducible apply State.setGx_keeps
    | with_reducible apply State.onAdc_keeps
    | with_reducible apply State.put_keeps
    | refine Keeps.each ?_ fun _ _ _ => ?_
    | with_reducible apply Keeps.ite
    | split
    | refine Keeps.upd ?_ rfl rfl rfl rfl rfl
    | dsimp only
    | intro _

theorem State.adcRun_keeps {root s : State} (h : Keeps root s) : Keeps root (State.adcRun s) := by
  unfold State.adcRun
  repeat' first
    | with_reducible assumption
    | with_reducible apply State.adcNext_keeps
    | refine Keeps.each ?_ fun _ _ _ => ?_
    | dsimp only
    | intro _

theorem State.adcSample_keeps {root s : State} (h : Keeps root s) (k : Fin 8) : Keeps root (State.adcSample s k) := by
  unfold State.adcSample
  repeat' first
    | with_reducible assumption
    | with_reducible apply State.onAdc_keeps
    | refine Keeps.each ?_ fun _ _ _ => ?_
    | refine Keeps.when ?_ fun _ _ => ?_
    | refine Keeps.upd ?_ rfl rfl rfl rfl rfl
    | dsimp only
    | intro _

end Sys2Proof.Machine
end

