-- ==== Sys2Proof/Laws/KeepsSetter.lean ====
section
/-!
SUPPORT. Each operation of Machine/Setter.lean keeps the queue of waiting commands and the canonical form of the memories.
-/

namespace Sys2Proof.Machine

open Sys2Proof

set_option linter.all false

theorem State.setRefuse_keeps {root s : State} (h : Keeps root s) (n : Fin 9) : Keeps root (State.setRefuse s n) := by
  unfold State.setRefuse
  repeat' first
    | with_reducible assumption
    | with_reducible apply State.inc_keeps
    | with_reducible apply State.put_keeps
    | dsimp only
    | intro _

theorem State.supRefresh_keeps {root s : State} (h : Keeps root s) (n : Fin 9) : Keeps root (State.supRefresh s n) := by
  unfold State.supRefresh
  repeat' first
    | with_reducible assumption
    | with_reducible apply State.putB_keeps
    | dsimp only
    | intro _

theorem execTrimWrite_keeps {s out : State} (n : Fin 9) (c : Fin 2) (v : Word) (e : execTrimWrite n c v s = .next out) : Keeps s out
    := by
  cases e
  repeat' first
    | with_reducible exact Keeps.refl _
    | with_reducible assumption
    | with_reducible apply State.access_keeps
    | with_reducible apply State.put_keeps
    | dsimp only
    | intro _

theorem execDelayMeasured_keeps {s out : State} (n : Fin 9) (c : Fin 2) (ton toff : Nat) (e : execDelayMeasured n c ton toff s =
    .next out) : Keeps s out := by
  cases e
  repeat' first
    | with_reducible exact Keeps.refl _
    | with_reducible assumption
    | with_reducible apply State.put_keeps
    | dsimp only
    | intro _

theorem State.chanSupOk_keeps {root s : State} (h : Keeps root s) (n : Fin 9) (c : Fin 2) : Keeps root (State.chanSupOk s n c) := by
  unfold State.chanSupOk
  repeat' first
    | with_reducible assumption
    | with_reducible apply State.supRefresh_keeps
    | with_reducible apply State.onChan_keeps
    | with_reducible apply State.put_keeps
    | refine Keeps.when ?_ fun _ _ => ?_
    | refine Keeps.upd ?_ rfl rfl rfl rfl rfl
    | dsimp only
    | intro _

theorem execSupOk_keeps {s out : State} (n : Fin 9) (c : Fin 2) (e : execSupOk n c s = .next out) : Keeps s out := by
  cases e
  repeat' first
    | with_reducible exact Keeps.refl _
    | with_reducible assumption
    | with_reducible apply State.chanSupOk_keeps
    | with_reducible apply Keeps.ite
    | split
    | dsimp only
    | intro _

theorem State.diagStop_keeps {root s : State} (h : Keeps root s) (n : Fin 9) : Keeps root (State.diagStop s n) := by
  unfold State.diagStop
  repeat' first
    | with_reducible assumption
    | with_reducible apply State.onTile_keeps
    | with_reducible apply State.put_keeps
    | with_reducible apply Keeps.ite
    | split
    | refine Keeps.upd ?_ rfl rfl rfl rfl rfl
    | dsimp only
    | intro _

theorem State.chanUv_keeps {root s : State} (h : Keeps root s) (n : Fin 9) (c : Fin 2) : Keeps root (State.chanUv s n c) := by
  unfold State.chanUv
  repeat' first
    | with_reducible assumption
    | with_reducible apply State.supRefresh_keeps
    | with_reducible apply State.snapFault_keeps
    | with_reducible apply State.chanOff_keeps
    | with_reducible apply State.onChan_keeps
    | with_reducible apply State.put_keeps
    | refine Keeps.when ?_ fun _ _ => ?_
    | refine Keeps.upd ?_ rfl rfl rfl rfl rfl
    | dsimp only
    | intro _

theorem execSupplyUv_keeps {s out : State} (n : Fin 9) (c : Fin 2) (e : execSupplyUv n c s = .next out) : Keeps s out := by
  cases e
  repeat' first
    | with_reducible exact Keeps.refl _
    | with_reducible assumption
    | with_reducible apply State.chanUv_keeps
    | with_reducible apply State.diagStop_keeps
    | with_reducible apply State.raiseStop_keeps
    | refine Keeps.when ?_ fun _ _ => ?_
    | with_reducible apply Keeps.ite
    | split
    | dsimp only
    | intro _

theorem State.armTile_keeps {root s : State} (h : Keeps root s) (n p : Fin 9) : Keeps root (State.armTile s n p) := by
  unfold State.armTile
  repeat' first
    | with_reducible assumption
    | with_reducible apply State.onChan_keeps
    | with_reducible apply State.onTile_keeps
    | with_reducible apply State.onPair_keeps
    | with_reducible apply State.put_keeps
    | refine Keeps.each ?_ fun _ _ _ => ?_
    | with_reducible apply Keeps.ite
    | split
    | refine Keeps.upd ?_ rfl rfl rfl rfl rfl
    | dsimp only
    | intro _

theorem armOp_keeps {root s : State} (h : Keeps root s) (n : Fin 9) : Keeps root (armOp n s) := by
  unfold armOp
  repeat' first
    | with_reducible assumption
    | with_reducible apply State.armTile_keeps
    | with_reducible apply State.setRefuse_keeps
    | with_reducible apply Keeps.ite
    | split
    | dsimp only
    | intro _

theorem execArm_keeps {s out : State} (n : Fin 9) (e : execArm n s = .next out) : Keeps s out := by
  cases e
  repeat' first
    | with_reducible exact Keeps.refl _
    | with_reducible assumption
    | with_reducible apply armOp_keeps
    | with_reducible apply State.access_keeps
    | dsimp only
    | intro _

theorem disarmOp_keeps {root s : State} (h : Keeps root s) (n : Fin 9) : Keeps root (disarmOp n s) := by
  unfold disarmOp
  repeat' first
    | with_reducible assumption
    | with_reducible apply State.setRefuse_keeps
    | with_reducible apply State.disarm_keeps
    | with_reducible apply Keeps.ite
    | split
    | dsimp only
    | intro _

theorem execDisarm_keeps {s out : State} (n : Fin 9) (e : execDisarm n s = .next out) : Keeps s out := by
  cases e
  repeat' first
    | with_reducible exact Keeps.refl _
    | with_reducible assumption
    | with_reducible apply disarmOp_keeps
    | with_reducible apply State.access_keeps
    | dsimp only
    | intro _

theorem State.chanOn_keeps {root s : State} (h : Keeps root s) (n : Fin 9) (c : Fin 2) : Keeps root (State.chanOn s n c) := by
  unfold State.chanOn
  repeat' first
    | with_reducible assumption
    | with_reducible apply State.onChan_keeps
    | with_reducible apply State.put_keeps
    | refine Keeps.upd ?_ rfl rfl rfl rfl rfl
    | dsimp only
    | intro _

theorem State.chanReqOn_keeps {root s : State} (h : Keeps root s) (n : Fin 9) (c : Fin 2) : Keeps root (State.chanReqOn s n c) := by
  unfold State.chanReqOn
  repeat' first
    | with_reducible assumption
    | with_reducible apply State.chanOn_keeps
    | with_reducible apply State.onChan_keeps
    | with_reducible apply State.inc_keeps
    | with_reducible apply Keeps.ite
    | split
    | refine Keeps.upd ?_ rfl rfl rfl rfl rfl
    | dsimp only
    | intro _

theorem State.chanReqOff_keeps {root s : State} (h : Keeps root s) (n : Fin 9) (c : Fin 2) : Keeps root (State.chanReqOff s n c) :=
    by
  unfold State.chanReqOff
  repeat' first
    | with_reducible assumption
    | with_reducible apply State.chanOff_keeps
    | with_reducible apply State.onChan_keeps
    | refine Keeps.when ?_ fun _ _ => ?_
    | refine Keeps.upd ?_ rfl rfl rfl rfl rfl
    | dsimp only
    | intro _

theorem State.gateTold_keeps {root s : State} (h : Keeps root s) (n : Fin 9) (c : Fin 2) (high : Bool) : Keeps root (State.gateTold
    s n c high) := by
  unfold State.gateTold
  repeat' first
    | with_reducible assumption
    | with_reducible apply State.putB_keeps
    | refine Keeps.when ?_ fun _ _ => ?_
    | dsimp only
    | intro _

theorem execInterlockRelease_keeps {s out : State} (n : Fin 9) (c : Fin 2) (e : execInterlockRelease n c s = .next out) : Keeps s
    out := by
  cases e
  repeat' first
    | with_reducible exact Keeps.refl _
    | with_reducible assumption
    | with_reducible apply State.gateTold_keeps
    | with_reducible apply State.chanOn_keeps
    | with_reducible apply Keeps.ite
    | split
    | dsimp only
    | intro _

theorem execBootUvEvent_keeps {s out : State} (n : Fin 9) (e : execBootUvEvent n s = .next out) : Keeps s out := by
  cases e
  have k : ∀ u, Keeps s u → Keeps s (u.when (s.bit (SET_CH_STATUS_ON n 0)) (·.chanOff n 0)) :=
    fun u h => Keeps.when h fun _ h => State.chanOff_keeps h _ _
  refine Keeps.ite (Keeps.refl _) (Keeps.ite (State.onChan_keeps (Keeps.refl _) _ _ _) ?_)
  have h5 := fun (u : State) (h : Keeps s u) (l : List (Fin 9)) => Keeps.each (l := l) h
    fun p _ h => State.onPair_keeps h p fun x => { x with refreshNext := true }
  refine Keeps.ite (State.raiseStopAlso_keeps (State.snapFault_keeps (State.put_keeps (h5 _ ?_ _) _ _) _ _) _ _ _)
    (State.coneIf_keeps (h5 _ ?_ _) _ _)
  all_goals
    refine State.cutPairs_keeps (State.put_keeps (State.inc_keeps (State.put_keeps (State.put_keeps (State.onChan_keeps
      (State.onTile_keeps (k _ (Keeps.refl _)) _ _) _ _ _) _ _) _ _) _) _ _) _

theorem execBootUvRecover_keeps {s out : State} (n : Fin 9) (e : execBootUvRecover n s = .next out) : Keeps s out := by
  cases e
  repeat' first
    | with_reducible exact Keeps.refl _
    | with_reducible assumption
    | with_reducible apply State.chanReqOn_keeps
    | with_reducible apply State.onChan_keeps
    | with_reducible apply Keeps.ite
    | split
    | refine Keeps.upd ?_ rfl rfl rfl rfl rfl
    | dsimp only
    | intro _

theorem execBlankingEnd_keeps {s out : State} (n : Fin 9) (c : Fin 2) (e : execBlankingEnd n c s = .next out) : Keeps s out := by
  cases e
  repeat' first
    | with_reducible exact Keeps.refl _
    | with_reducible assumption
    | with_reducible apply State.onChan_keeps
    | refine Keeps.upd ?_ rfl rfl rfl rfl rfl
    | dsimp only
    | intro _

theorem State.desatOff_keeps {root s : State} (h : Keeps root s) (n : Fin 9) (c : Fin 2) : Keeps root (State.desatOff s n c) := by
  unfold State.desatOff
  repeat' first
    | with_reducible assumption
    | with_reducible apply State.chanSoftOff_keeps
    | with_reducible apply State.chanSoftBegin_keeps
    | with_reducible apply State.onChan_keeps
    | with_reducible apply State.put_keeps
    | refine Keeps.when ?_ fun _ _ => ?_
    | with_reducible apply Keeps.ite
    | split
    | refine Keeps.upd ?_ rfl rfl rfl rfl rfl
    | dsimp only
    | intro _

theorem execDesatDetect_keeps {s out : State} (n : Fin 9) (c : Fin 2) (e : execDesatDetect n c s = .next out) : Keeps s out := by
  cases e
  repeat' first
    | with_reducible exact Keeps.refl _
    | with_reducible assumption
    | with_reducible apply State.desatOff_keeps
    | with_reducible apply State.snapFault_keeps
    | with_reducible apply State.raiseStop_keeps
    | with_reducible apply State.put_keeps
    | with_reducible apply Keeps.ite
    | split
    | dsimp only
    | intro _

theorem execSoftOffStep2_keeps {s out : State} (n : Fin 9) (c : Fin 2) (e : execSoftOffStep2 n c s = .next out) : Keeps s out := by
  cases e
  repeat' first
    | with_reducible exact Keeps.refl _
    | with_reducible assumption
    | with_reducible apply State.onChan_keeps
    | refine Keeps.when ?_ fun _ _ => ?_
    | refine Keeps.upd ?_ rfl rfl rfl rfl rfl
    | dsimp only
    | intro _

theorem execSoftOffFullSink_keeps {s out : State} (n : Fin 9) (c : Fin 2) (e : execSoftOffFullSink n c s = .next out) : Keeps s out
    := by
  cases e
  repeat' first
    | with_reducible exact Keeps.refl _
    | with_reducible assumption
    | with_reducible apply State.onChan_keeps
    | refine Keeps.when ?_ fun _ _ => ?_
    | refine Keeps.upd ?_ rfl rfl rfl rfl rfl
    | dsimp only
    | intro _

theorem execSoftTurnOffComplete_keeps {s out : State} (n : Fin 9) (c : Fin 2) (e : execSoftTurnOffComplete n c s = .next out) :
    Keeps s out := by
  cases e
  repeat' first
    | with_reducible exact Keeps.refl _
    | with_reducible assumption
    | with_reducible apply State.onChan_keeps
    | with_reducible apply State.put_keeps
    | refine Keeps.when ?_ fun _ _ => ?_
    | refine Keeps.upd ?_ rfl rfl rfl rfl rfl
    | dsimp only
    | intro _

theorem State.clearFlag_keeps {root s : State} (h : Keeps root s) (n : Fin 9) (active : Bool) (f : Fld) : Keeps root
    (State.clearFlag s n active f) := by
  unfold State.clearFlag
  repeat' first
    | with_reducible assumption
    | with_reducible apply State.setRefuse_keeps
    | with_reducible apply State.put_keeps
    | with_reducible apply Keeps.ite
    | split
    | dsimp only
    | intro _

theorem desatClearOp_keeps {root s : State} (h : Keeps root s) (n : Fin 9) (c : Fin 2) : Keeps root (desatClearOp n c s) := by
  unfold desatClearOp
  repeat' first
    | with_reducible assumption
    | with_reducible apply State.clearFlag_keeps
    | dsimp only
    | intro _

theorem execDesatClear_keeps {s out : State} (n : Fin 9) (c : Fin 2) (e : execDesatClear n c s = .next out) : Keeps s out := by
  cases e
  repeat' first
    | with_reducible exact Keeps.refl _
    | with_reducible assumption
    | with_reducible apply desatClearOp_keeps
    | with_reducible apply State.access_keeps
    | dsimp only
    | intro _

theorem bootStopClearOp_keeps {root s : State} (h : Keeps root s) (n : Fin 9) : Keeps root (bootStopClearOp n s) := by
  unfold bootStopClearOp
  repeat' first
    | with_reducible assumption
    | with_reducible apply State.clearFlag_keeps
    | dsimp only
    | intro _

theorem execBootStopClear_keeps {s out : State} (n : Fin 9) (e : execBootStopClear n s = .next out) : Keeps s out := by
  cases e
  repeat' first
    | with_reducible exact Keeps.refl _
    | with_reducible assumption
    | with_reducible apply bootStopClearOp_keeps
    | with_reducible apply State.access_keeps
    | dsimp only
    | intro _

theorem supplyUvClearOp_keeps {root s : State} (h : Keeps root s) (n : Fin 9) (c : Fin 2) : Keeps root (supplyUvClearOp n c s) := by
  unfold supplyUvClearOp
  repeat' first
    | with_reducible assumption
    | with_reducible apply State.clearFlag_keeps
    | dsimp only
    | intro _

theorem execSupplyUvClear_keeps {s out : State} (n : Fin 9) (c : Fin 2) (e : execSupplyUvClear n c s = .next out) : Keeps s out :=
    by
  cases e
  repeat' first
    | with_reducible exact Keeps.refl _
    | with_reducible assumption
    | with_reducible apply supplyUvClearOp_keeps
    | with_reducible apply State.access_keeps
    | dsimp only
    | intro _

theorem diagOp_keeps {root s : State} (h : Keeps root s) (n : Fin 9) : Keeps root (diagOp n s) := by
  unfold diagOp
  repeat' first
    | with_reducible assumption
    | with_reducible apply State.setRefuse_keeps
    | with_reducible apply State.onTile_keeps
    | with_reducible apply State.put_keeps
    | with_reducible apply Keeps.ite
    | split
    | refine Keeps.upd ?_ rfl rfl rfl rfl rfl
    | dsimp only
    | intro _

theorem execDiag_keeps {s out : State} (n : Fin 9) (e : execDiag n s = .next out) : Keeps s out := by
  cases e
  repeat' first
    | with_reducible exact Keeps.refl _
    | with_reducible assumption
    | with_reducible apply diagOp_keeps
    | with_reducible apply State.access_keeps
    | dsimp only
    | intro _

theorem execDiagAbort_keeps {s out : State} (n : Fin 9) (e : execDiagAbort n s = .next out) : Keeps s out := by
  cases e
  repeat' first
    | with_reducible exact Keeps.refl _
    | with_reducible assumption
    | with_reducible apply State.diagStop_keeps
    | with_reducible apply State.access_keeps
    | dsimp only
    | intro _

theorem execDiagTestStep_keeps {s out : State} (n : Fin 9) (o : DiagObs) (e : execDiagTestStep n o s = .next out) : Keeps s out :=
    by
  cases e
  repeat' first
    | with_reducible exact Keeps.refl _
    | with_reducible assumption
    | with_reducible apply State.onTile_keeps
    | with_reducible apply State.put_keeps
    | refine Keeps.when ?_ fun _ _ => ?_
    | with_reducible apply Keeps.ite
    | split
    | refine Keeps.upd ?_ rfl rfl rfl rfl rfl
    | dsimp only
    | intro _

theorem execDiagDone_keeps {s out : State} (n : Fin 9) (e : execDiagDone n s = .next out) : Keeps s out := by
  cases e
  repeat' first
    | with_reducible exact Keeps.refl _
    | with_reducible assumption
    | with_reducible apply State.onTile_keeps
    | with_reducible apply State.put_keeps
    | split
    | refine Keeps.upd ?_ rfl rfl rfl rfl rfl
    | dsimp only
    | intro _

theorem State.segWorn_keeps {root s : State} (h : Keeps root s) (n : Fin 9) (c : Fin 2) (k : Fin 8) : Keeps root (State.segWorn s n
    c k) := by
  unfold State.segWorn
  repeat' first
    | with_reducible assumption
    | with_reducible apply State.putBit_keeps
    | with_reducible apply State.put_keeps
    | with_reducible apply Keeps.ite
    | split
    | dsimp only
    | intro _

theorem execSegmentMeasure_keeps {s out : State} (n : Fin 9) (c : Fin 2) (k : Fin 8) (rds : Nat) (broken : Bool) (e :
    execSegmentMeasure n c k rds broken s = .next out) : Keeps s out := by
  cases e
  repeat' first
    | with_reducible exact Keeps.refl _
    | with_reducible assumption
    | with_reducible apply State.segWorn_keeps
    | with_reducible apply State.grogSegment_keeps
    | with_reducible apply State.onChan_keeps
    | with_reducible apply State.putBit_keeps
    | with_reducible apply State.put_keeps
    | refine Keeps.when ?_ fun _ _ => ?_
    | with_reducible apply Keeps.ite
    | split
    | refine Keeps.upd ?_ rfl rfl rfl rfl rfl
    | dsimp only
    | intro _

theorem execTileOverTemp_keeps {s out : State} (n : Fin 9) (e : execTileOverTemp n s = .next out) : Keeps s out := by
  cases e
  repeat' first
    | with_reducible exact Keeps.refl _
    | with_reducible assumption
    | with_reducible apply State.raiseStop_keeps
    | with_reducible apply State.put_keeps
    | refine Keeps.when ?_ fun _ _ => ?_
    | dsimp only
    | intro _

theorem execTileOtClear_keeps {s out : State} (n : Fin 9) (e : execTileOtClear n s = .next out) : Keeps s out := by
  cases e
  repeat' first
    | with_reducible exact Keeps.refl _
    | with_reducible assumption
    | with_reducible apply State.put_keeps
    | dsimp only
    | intro _

theorem State.fallbackStage_keeps {root s : State} (h : Keeps root s) (n : Fin 9) (g : Nat) : Keeps root (State.fallbackStage s n g)
    := by
  unfold State.fallbackStage
  repeat' first
    | with_reducible assumption
    | with_reducible apply State.chanOff_keeps
    | refine Keeps.each ?_ fun _ _ _ => ?_
    | refine Keeps.when ?_ fun _ _ => ?_
    | dsimp only
    | intro _

theorem State.controlLoss_keeps {root s : State} (h : Keeps root s) (n : Fin 9) : Keeps root (State.controlLoss s n) := by
  unfold State.controlLoss
  repeat' first
    | with_reducible assumption
    | with_reducible apply State.fallbackStage_keeps
    | with_reducible apply State.onTile_keeps
    | refine Keeps.upd ?_ rfl rfl rfl rfl rfl
    | dsimp only
    | intro _

theorem execTileControlLoss_keeps {s out : State} (n : Fin 9) (e : execTileControlLoss n s = .next out) : Keeps s out := by
  cases e
  repeat' first
    | with_reducible exact Keeps.refl _
    | with_reducible assumption
    | with_reducible apply State.controlLoss_keeps
    | dsimp only
    | intro _

theorem execTileFallbackStage2_keeps {s out : State} (n : Fin 9) (e : execTileFallbackStage2 n s = .next out) : Keeps s out := by
  cases e
  repeat' first
    | with_reducible exact Keeps.refl _
    | with_reducible assumption
    | with_reducible apply State.fallbackStage_keeps
    | with_reducible apply State.onTile_keeps
    | refine Keeps.when ?_ fun _ _ => ?_
    | refine Keeps.upd ?_ rfl rfl rfl rfl rfl
    | dsimp only
    | intro _

theorem State.tileFiring_keeps {root s : State} (h : Keeps root s) (n : Fin 9) : Keeps root (State.tileFiring s n) := by
  unfold State.tileFiring
  repeat' first
    | with_reducible assumption
    | with_reducible apply State.diagStop_keeps
    | with_reducible apply State.disarm_keeps
    | dsimp only
    | intro _

end Sys2Proof.Machine
end

