-- ==== Sys2Proof/Laws/KeepsSwap.lean ====
section
/-!
SUPPORT. Each operation of Machine/Swap.lean keeps the queue of waiting commands and the canonical form of the memories.
-/

namespace Sys2Proof.Machine

open Sys2Proof

set_option linter.all false

theorem State.setSwap_keeps {root s : State} (h : Keeps root s) (k : Fin 8) (r : Option SwapReq) : Keeps root (State.setSwap s k r)
    := by
  unfold State.setSwap
  repeat' first
    | with_reducible assumption
    | with_reducible apply State.onGroup_keeps
    | with_reducible apply State.putB_keeps
    | refine Keeps.upd ?_ rfl rfl rfl rfl rfl
    | dsimp only
    | intro _

theorem State.takeSwap_keeps {root s : State} (h : Keeps root s) (k : Fin 8) (r : SwapReq) : Keeps root (State.takeSwap s k r) := by
  unfold State.takeSwap
  repeat' first
    | with_reducible assumption
    | with_reducible apply State.setSwap_keeps
    | with_reducible apply Keeps.ite
    | split
    | dsimp only
    | intro _

theorem State.swapRequest_keeps {root s : State} (h : Keeps root s) (k : Fin 8) (r : SwapReq) : Keeps root (State.swapRequest s k r)
    := by
  unfold State.swapRequest
  repeat' first
    | with_reducible assumption
    | with_reducible apply State.takeSwap_keeps
    | with_reducible apply State.put_keeps
    | refine Keeps.when ?_ fun _ _ => ?_
    | with_reducible apply Keeps.ite
    | split
    | dsimp only
    | intro _

theorem State.bankPut_keeps {root s : State} (h : Keeps root s) (w b i : Nat) (v : Word) : Keeps root (State.bankPut s w b i v) :=
  h.coef fun g => cellsWf_put g

theorem State.supvStop_keeps {root s : State} (h : Keeps root s) (c : Cause) (code wheel rg index detail : Nat) : Keeps root
    (State.supvStop s c code wheel rg index detail) := by
  unfold State.supvStop
  repeat' first
    | with_reducible assumption
    | with_reducible apply State.raiseStop_keeps
    | with_reducible apply State.put_keeps
    | with_reducible apply Keeps.ite
    | split
    | dsimp only
    | intro _

end Sys2Proof.Machine
end

