-- ==== Sys2Proof/Laws/KeepsGsu.lean ====
section
/-!
SUPPORT. Each operation of Machine/Gsu.lean keeps the queue of waiting commands and the canonical form of the memories.
-/

namespace Sys2Proof.Machine

open Sys2Proof

set_option linter.all false

theorem State.frees_keeps {root s : State} (h : Keeps root s) (n : Nat) : Keeps root (s.frees n).2 := by
  unfold State.frees
  exact Keeps.upd h rfl rfl rfl rfl rfl

theorem State.gsuJump_keeps {root s : State} (h : Keeps root s) (i : Fin 4) (d : Word) : Keeps root (State.gsuJump s i d) := by
  unfold State.gsuJump
  repeat' first
    | with_reducible assumption
    | with_reducible apply State.onGsu_keeps
    | with_reducible apply State.inc_keeps
    | with_reducible apply State.put_keeps
    | with_reducible apply State.withIsl_keeps
    | refine Keeps.when ?_ fun _ _ => ?_
    | refine Keeps.upd ?_ rfl rfl rfl rfl rfl
    | dsimp only
    | intro _

theorem State.gsuUpdate_keeps {root s : State} (h : Keeps root s) (i : Fin 4) : Keeps root (State.gsuUpdate s i) := by
  unfold State.gsuUpdate
  repeat' first
    | with_reducible assumption
    | with_reducible apply State.gsuJump_keeps
    | with_reducible apply State.onGsu_keeps
    | with_reducible apply State.putB_keeps
    | with_reducible apply State.put_keeps
    | refine Keeps.when ?_ fun _ _ => ?_
    | with_reducible apply Keeps.ite
    | split
    | refine Keeps.upd ?_ rfl rfl rfl rfl rfl
    | dsimp only
    | intro _

theorem State.gsuStart_keeps {root s : State} (h : Keeps root s) (k : Fin 8) : Keeps root (State.gsuStart s k) := by
  unfold State.gsuStart
  repeat' first
    | with_reducible assumption
    | with_reducible apply State.gsuUpdate_keeps
    | with_reducible apply State.onGsu_keeps
    | refine Keeps.each ?_ fun _ _ _ => ?_
    | with_reducible apply Keeps.ite
    | split
    | refine Keeps.upd ?_ rfl rfl rfl rfl rfl
    | dsimp only
    | intro _

theorem execGsuPublish_keeps {s out : State} (i : Fin 4) (e : execGsuPublish i s = .next out) : Keeps s out := by
  cases e
  repeat' first
    | with_reducible exact Keeps.refl _
    | with_reducible assumption
    | with_reducible apply State.onGsu_keeps
    | with_reducible apply State.publishBy_keeps
    | with_reducible apply State.withIsl_keeps
    | refine Keeps.each ?_ fun _ _ _ => ?_
    | refine Keeps.when ?_ fun _ _ => ?_
    | with_reducible apply Keeps.ite
    | split
    | refine Keeps.upd ?_ rfl rfl rfl rfl rfl
    | dsimp only
    | intro _

theorem execGsuAnglePublish_keeps {s out : State} (i : Fin 4) (e : execGsuAnglePublish i s = .next out) : Keeps s out := by
  cases e
  repeat' first
    | with_reducible exact Keeps.refl _
    | with_reducible assumption
    | with_reducible apply State.publishBy_keeps
    | with_reducible apply Keeps.ite
    | split
    | dsimp only
    | intro _

theorem execGsuLock_keeps {s out : State} (i : Fin 4) (e : execGsuLock i s = .next out) : Keeps s out := by
  cases e
  repeat' first
    | with_reducible exact Keeps.refl _
    | with_reducible assumption
    | with_reducible apply State.put_keeps
    | refine Keeps.when ?_ fun _ _ => ?_
    | dsimp only
    | intro _

theorem execWrongSeq_keeps {s out : State} (i : Fin 4) (e : execWrongSeq i s = .next out) : Keeps s out := by
  cases e
  repeat' first
    | with_reducible exact Keeps.refl _
    | with_reducible assumption
    | with_reducible apply State.put_keeps
    | refine Keeps.when ?_ fun _ _ => ?_
    | with_reducible apply Keeps.ite
    | split
    | dsimp only
    | intro _

theorem execMissN_keeps {s out : State} (i : Fin 4) (e : execMissN i s = .next out) : Keeps s out := by
  cases e
  repeat' first
    | with_reducible exact Keeps.refl _
    | with_reducible assumption
    | with_reducible apply State.put_keeps
    | refine Keeps.when ?_ fun _ _ => ?_
    | with_reducible apply Keeps.ite
    | split
    | dsimp only
    | intro _

theorem State.gsuFiring_keeps {root s : State} (h : Keeps root s) : Keeps root (State.gsuFiring s) := by
  unfold State.gsuFiring
  repeat' first
    | with_reducible assumption
    | with_reducible apply State.onGsu_keeps
    | with_reducible apply State.put_keeps
    | refine Keeps.each ?_ fun _ _ _ => ?_
    | refine Keeps.upd ?_ rfl rfl rfl rfl rfl
    | dsimp only
    | intro _

theorem State.gsuAdvance_keeps {root s : State} (h : Keeps root s) (cycles : Nat) : Keeps root (State.gsuAdvance s cycles) := by
  unfold State.gsuAdvance
  repeat' first
    | with_reducible assumption
    | with_reducible apply State.onGsu_keeps
    | refine Keeps.each ?_ fun _ _ _ => ?_
    | refine Keeps.when ?_ fun _ _ => ?_
    | with_reducible apply Keeps.ite
    | split
    | refine Keeps.upd ?_ rfl rfl rfl rfl rfl
    | dsimp only
    | intro _

end Sys2Proof.Machine
end

