-- ==== Sys2Proof/Laws/KeepsRts.lean ====
section
/-!
SUPPORT. Each operation of Machine/Rts.lean keeps the queue of waiting commands and the canonical form of the memories.
-/

namespace Sys2Proof.Machine

open Sys2Proof

set_option linter.all false

theorem State.rtsApply_keeps {root s : State} (h : Keeps root s) : Keeps root (State.rtsApply s) := by
  unfold State.rtsApply
  split
  extract_lets -underBinder old stops hold s1 exc ms s2 s3 _ s4 s5 sup words s6
  have k1 : Keeps root s1 := Keeps.when h fun _ k => Keeps.upd k rfl rfl rfl rfl rfl
  clear_value s1 stops hold exc ms
  have k2 : Keeps root s2 := by
    repeat' first
      | with_reducible assumption
      | with_reducible apply State.putB_keeps
      | with_reducible apply State.put_keeps
  clear_value s2
  have k3 : Keeps root s3 := Keeps.each k2 fun _ _ k => State.onPair_keeps k _ _
  clear_value s3
  have k4 : Keeps root s4 := by
    refine Keeps.ite k3 (Keeps.each ?_ fun _ _ k => Keeps.when k fun _ k => State.swapRequest_keeps k _ _)
    exact Keeps.upd (State.incWrap_keeps k3 _) rfl rfl rfl rfl rfl
  clear_value s4
  have k5 : Keeps root s5 := Keeps.when k4 fun _ k => State.put_keeps k _ _
  clear_value s5
  exact Keeps.when (Keeps.each k5 fun _ _ k => State.publishBy_keeps k _ _ _ _) fun _ k => State.raiseStop_keeps k _ _

theorem State.rtsRamp_keeps {root s : State} (h : Keeps root s) : Keeps root (State.rtsRamp s) := by
  unfold State.rtsRamp
  repeat' first
    | with_reducible assumption
    | with_reducible apply State.withRts_keeps
    | refine Keeps.upd ?_ rfl rfl rfl rfl rfl
    | dsimp only
    | intro _

theorem execRtsTick_keeps {s out : State} (e : execRtsTick s = .next out) : Keeps s out := by
  cases e
  repeat' first
    | with_reducible exact Keeps.refl _
    | with_reducible assumption
    | with_reducible apply State.rtsRamp_keeps
    | with_reducible apply State.rtsApply_keeps
    | with_reducible apply State.withRts_keeps
    | refine Keeps.each ?_ fun _ _ _ => ?_
    | refine Keeps.when ?_ fun _ _ => ?_
    | with_reducible apply Keeps.ite
    | split
    | refine Keeps.upd ?_ rfl rfl rfl rfl rfl
    | dsimp only
    | intro _

theorem State.rtsTake_keeps {root s : State} (h : Keeps root s) (c : Fin 4) (b : Nat) : Keeps root (State.rtsTake s c b) := by
  unfold State.rtsTake
  repeat' first
    | with_reducible assumption
    | with_reducible apply State.withRts_keeps
    | with_reducible apply Keeps.ite
    | split
    | refine Keeps.upd ?_ rfl rfl rfl rfl rfl
    | dsimp only
    | intro _

theorem execRtsBandChange_keeps {s out : State} (c : Fin 4) (e : execRtsBandChange c s = .next out) : Keeps s out := by
  cases e
  repeat' first
    | with_reducible exact Keeps.refl _
    | with_reducible assumption
    | with_reducible apply State.rtsTake_keeps
    | with_reducible apply State.rtsApply_keeps
    | with_reducible apply Keeps.ite
    | split
    | dsimp only
    | intro _

theorem execRtsTimeLimit_keeps {s out : State} (c : Fin 4) (e : execRtsTimeLimit c s = .next out) : Keeps s out := by
  cases e
  repeat' first
    | with_reducible exact Keeps.refl _
    | with_reducible assumption
    | with_reducible apply State.rtsApply_keeps
    | with_reducible apply State.withRts_keeps
    | with_reducible apply Keeps.ite
    | split
    | refine Keeps.upd ?_ rfl rfl rfl rfl rfl
    | dsimp only
    | intro _

theorem clearTripOp_keeps {root s : State} (h : Keeps root s) : Keeps root (clearTripOp s) := by
  unfold clearTripOp
  repeat' first
    | with_reducible assumption
    | with_reducible apply State.inc_keeps
    | with_reducible apply State.put_keeps
    | with_reducible apply State.withRts_keeps
    | with_reducible apply Keeps.ite
    | split
    | refine Keeps.upd ?_ rfl rfl rfl rfl rfl
    | dsimp only
    | intro _

theorem execClearTrip_keeps {s out : State} (e : execClearTrip s = .next out) : Keeps s out := by
  cases e
  repeat' first
    | with_reducible exact Keeps.refl _
    | with_reducible assumption
    | with_reducible apply clearTripOp_keeps
    | with_reducible apply State.access_keeps
    | dsimp only
    | intro _

theorem State.rtsFiring_keeps {root s : State} (h : Keeps root s) : Keeps root (State.rtsFiring s) := by
  unfold State.rtsFiring
  repeat' first
    | with_reducible assumption
    | with_reducible apply State.onPair_keeps
    | with_reducible apply State.put_keeps
    | with_reducible apply State.withRts_keeps
    | refine Keeps.each ?_ fun _ _ _ => ?_
    | refine Keeps.upd ?_ rfl rfl rfl rfl rfl
    | dsimp only
    | intro _

end Sys2Proof.Machine
end

