-- ==== Sys2Proof/Laws/KeepsIsl.lean ====
section
/-!
SUPPORT. Each operation of Machine/Isl.lean keeps the queue of waiting commands and the canonical form of the memories.
-/

namespace Sys2Proof.Machine

open Sys2Proof

set_option linter.all false

theorem State.onIsl_keeps {root s : State} (h : Keeps root s) (f : IslUnit → IslUnit) : Keeps root (State.onIsl s f) := by
  unfold State.onIsl
  repeat' first
    | with_reducible assumption
    | with_reducible apply State.withIsl_keeps
    | dsimp only
    | intro _

theorem State.islPut_keeps {root s : State} (h : Keeps root s) (j : Nat) (v : Word) : Keeps root (State.islPut s j v) := by
  unfold State.islPut
  repeat' first
    | with_reducible assumption
    | with_reducible apply State.publishBy_keeps
    | dsimp only
    | intro _

theorem State.islPublish_keeps {root s : State} (h : Keeps root s) : Keeps root (State.islPublish s) := by
  unfold State.islPublish
  repeat' first
    | with_reducible assumption
    | with_reducible apply State.islPut_keeps
    | refine Keeps.each ?_ fun _ _ _ => ?_
    | with_reducible apply Keeps.ite
    | split
    | dsimp only
    | intro _

theorem State.islDeclare_keeps {root s : State} (h : Keeps root s) (src : Nat) : Keeps root (State.islDeclare s src) := by
  unfold State.islDeclare
  repeat' first
    | with_reducible assumption
    | with_reducible apply State.onIsl_keeps
    | with_reducible apply State.put_keeps
    | with_reducible apply Keeps.ite
    | split
    | refine Keeps.upd ?_ rfl rfl rfl rfl rfl
    | dsimp only
    | intro _

theorem State.islCmdRefuse_keeps {root s : State} (h : Keeps root s) : Keeps root (State.islCmdRefuse s) := by
  unfold State.islCmdRefuse
  repeat' first
    | with_reducible assumption
    | with_reducible apply State.inc_keeps
    | with_reducible apply State.put_keeps
    | dsimp only
    | intro _

theorem State.islTransfer_keeps {root s : State} (h : Keeps root s) (c : Nat) : Keeps root (State.islTransfer s c) := by
  unfold State.islTransfer
  repeat' first
    | with_reducible assumption
    | with_reducible apply State.islCmdRefuse_keeps
    | with_reducible apply State.onIsl_keeps
    | with_reducible apply State.put_keeps
    | with_reducible apply Keeps.ite
    | split
    | refine Keeps.upd ?_ rfl rfl rfl rfl rfl
    | dsimp only
    | intro _

theorem State.islLocal_keeps {root s : State} (h : Keeps root s) : Keeps root (State.islLocal s) := by
  unfold State.islLocal
  repeat' first
    | with_reducible assumption
    | with_reducible apply State.islTransfer_keeps
    | with_reducible apply State.raiseStop_keeps
    | refine Keeps.when ?_ fun _ _ => ?_
    | split
    | dsimp only
    | intro _

theorem State.islManager_keeps {root s : State} (h : Keeps root s) : Keeps root (State.islManager s) := by
  unfold State.islManager
  repeat' first
    | with_reducible assumption
    | with_reducible apply State.plantRefresh_keeps
    | with_reducible apply State.withWlk_keeps
    | with_reducible apply State.withSit_keeps
    | refine Keeps.when ?_ fun _ _ => ?_
    | split
    | refine Keeps.upd ?_ rfl rfl rfl rfl rfl
    | dsimp only
    | intro _

theorem State.islAct_keeps {root s : State} (h : Keeps root s) : Keeps root (State.islAct s) := by
  unfold State.islAct
  repeat' first
    | with_reducible assumption
    | with_reducible apply State.islManager_keeps
    | with_reducible apply State.islLocal_keeps
    | with_reducible apply State.onIsl_keeps
    | with_reducible apply Keeps.ite
    | split
    | refine Keeps.upd ?_ rfl rfl rfl rfl rfl
    | dsimp only
    | intro _

theorem State.islReport_keeps {root s : State} (h : Keeps root s) : Keeps root (State.islReport s) := by
  unfold State.islReport
  repeat' first
    | with_reducible assumption
    | with_reducible apply State.islManager_keeps
    | with_reducible apply Keeps.ite
    | split
    | dsimp only
    | intro _

theorem State.harmStep_keeps {root s : State} (h : Keeps root s) : Keeps root (State.harmStep s) := by
  unfold State.harmStep
  repeat' first
    | with_reducible assumption
    | with_reducible apply State.onIsl_keeps
    | refine Keeps.upd ?_ rfl rfl rfl rfl rfl
    | dsimp only
    | intro _

theorem execIslPassiveFire_keeps {s out : State} (m : Fin 4) (e : execIslPassiveFire m s = .next out) : Keeps s out := by
  cases e
  repeat' first
    | with_reducible exact Keeps.refl _
    | with_reducible assumption
    | with_reducible apply State.islDeclare_keeps
    | with_reducible apply State.onIsl_keeps
    | with_reducible apply State.put_keeps
    | with_reducible apply Keeps.ite
    | split
    | refine Keeps.upd ?_ rfl rfl rfl rfl rfl
    | dsimp only
    | intro _

theorem execIslPulseStart_keeps {s out : State} (e : execIslPulseStart s = .next out) : Keeps s out := by
  cases e
  repeat' first
    | with_reducible exact Keeps.refl _
    | with_reducible assumption
    | with_reducible apply State.islPublish_keeps
    | with_reducible apply State.onIsl_keeps
    | with_reducible apply Keeps.ite
    | split
    | refine Keeps.upd ?_ rfl rfl rfl rfl rfl
    | dsimp only
    | intro _

theorem execIslPulseEnd_keeps {s out : State} (e : execIslPulseEnd s = .next out) : Keeps s out := by
  cases e
  repeat' first
    | with_reducible exact Keeps.refl _
    | with_reducible assumption
    | with_reducible apply State.islDeclare_keeps
    | with_reducible apply State.islPublish_keeps
    | with_reducible apply State.onIsl_keeps
    | with_reducible apply State.put_keeps
    | refine Keeps.when ?_ fun _ _ => ?_
    | with_reducible apply Keeps.ite
    | split
    | refine Keeps.upd ?_ rfl rfl rfl rfl rfl
    | dsimp only
    | intro _

theorem execIslTonePublish_keeps {s out : State} (e : execIslTonePublish s = .next out) : Keeps s out := by
  cases e
  repeat' first
    | with_reducible exact Keeps.refl _
    | with_reducible assumption
    | with_reducible apply State.islPut_keeps
    | refine Keeps.each ?_ fun _ _ _ => ?_
    | refine Keeps.when ?_ fun _ _ => ?_
    | with_reducible apply Keeps.ite
    | split
    | dsimp only
    | intro _

theorem execIslAnglePublish_keeps {s out : State} (e : execIslAnglePublish s = .next out) : Keeps s out := by
  cases e
  repeat' first
    | with_reducible exact Keeps.refl _
    | with_reducible assumption
    | with_reducible apply State.islPut_keeps
    | refine Keeps.when ?_ fun _ _ => ?_
    | dsimp only
    | intro _

theorem State.corrStep_keeps {root s : State} (h : Keeps root s) : Keeps root (State.corrStep s) := by
  unfold State.corrStep
  repeat' first
    | with_reducible assumption
    | with_reducible apply State.onIsl_keeps
    | with_reducible refine Keeps.foldl ?_ fun _ _ _ => ?_
    | refine Keeps.upd ?_ rfl rfl rfl rfl rfl
    | dsimp only
    | intro _

theorem State.retuneStart_keeps {root s : State} (h : Keeps root s) (fres : Word) : Keeps root (State.retuneStart s fres) := by
  unfold State.retuneStart
  repeat' first
    | with_reducible assumption
    | with_reducible apply State.onIsl_keeps
    | with_reducible apply Keeps.ite
    | split
    | refine Keeps.upd ?_ rfl rfl rfl rfl rfl
    | dsimp only
    | intro _

theorem execIslEstWindowEnd_keeps {s out : State} (j : Nat) (e : execIslEstWindowEnd j s = .next out) : Keeps s out := by
  cases e
  repeat' first
    | with_reducible exact Keeps.refl _
    | with_reducible assumption
    | with_reducible apply State.retuneStart_keeps
    | with_reducible apply State.islPublish_keeps
    | with_reducible apply State.onIsl_keeps
    | with_reducible apply State.put_keeps
    | with_reducible apply Keeps.ite
    | split
    | refine Keeps.upd ?_ rfl rfl rfl rfl rfl
    | dsimp only
    | intro _

theorem State.notchStore_keeps {root s : State} (h : Keeps root s) (ws : List Word) : Keeps root (State.notchStore s ws) := by
  unfold State.notchStore
  repeat' first
    | with_reducible assumption
    | with_reducible apply State.bankPut_keeps
    | refine Keeps.each ?_ fun _ _ _ => ?_
    | dsimp only
    | intro _

theorem execIslNotchWrite_keeps {s out : State} (e : execIslNotchWrite s = .next out) : Keeps s out := by
  cases e
  repeat' first
    | with_reducible exact Keeps.refl _
    | with_reducible assumption
    | with_reducible apply State.notchStore_keeps
    | with_reducible apply State.onIsl_keeps
    | with_reducible apply State.put_keeps
    | with_reducible apply Keeps.ite
    | split
    | refine Keeps.upd ?_ rfl rfl rfl rfl rfl
    | dsimp only
    | intro _

theorem State.notchSwap_keeps {root s : State} (h : Keeps root s) (k : Fin 8) (full : Bool) : Keeps root (State.notchSwap s k full)
    := by
  unfold State.notchSwap
  repeat' first
    | with_reducible assumption
    | with_reducible apply State.onIsl_keeps
    | with_reducible apply State.bankPut_keeps
    | refine Keeps.each ?_ fun _ _ _ => ?_
    | with_reducible apply Keeps.ite
    | split
    | refine Keeps.upd ?_ rfl rfl rfl rfl rfl
    | dsimp only
    | intro _

theorem execIslNotchMirror_keeps {s out : State} (e : execIslNotchMirror s = .next out) : Keeps s out := by
  cases e
  repeat' first
    | with_reducible exact Keeps.refl _
    | with_reducible assumption
    | with_reducible apply State.notchStore_keeps
    | with_reducible apply State.onIsl_keeps
    | with_reducible apply State.put_keeps
    | with_reducible apply Keeps.ite
    | split
    | refine Keeps.upd ?_ rfl rfl rfl rfl rfl
    | dsimp only
    | intro _

theorem State.armList_keeps {root s : State} (h : Keeps root s) (l : Nat) : Keeps root (State.armList s l) := by
  unfold State.armList
  repeat' first
    | with_reducible assumption
    | with_reducible apply State.onIsl_keeps
    | refine Keeps.upd ?_ rfl rfl rfl rfl rfl
    | dsimp only
    | intro _

theorem State.clearDetOp_keeps {root s : State} (h : Keeps root s) : Keeps root (State.clearDetOp s) := by
  unfold State.clearDetOp
  repeat' first
    | with_reducible assumption
    | with_reducible apply State.onIsl_keeps
    | with_reducible apply State.inc_keeps
    | with_reducible apply State.put_keeps
    | with_reducible apply State.withSit_keeps
    | with_reducible apply Keeps.ite
    | split
    | refine Keeps.upd ?_ rfl rfl rfl rfl rfl
    | dsimp only
    | intro _

theorem islCmdOp_keeps {root s : State} (h : Keeps root s) (c : Nat) : Keeps root (islCmdOp c s) := by
  unfold islCmdOp
  repeat' first
    | with_reducible assumption
    | with_reducible apply State.clearDetOp_keeps
    | with_reducible apply State.armList_keeps
    | with_reducible apply State.islTransfer_keeps
    | split
    | dsimp only
    | intro _

theorem State.islCmdWrite_keeps {root s : State} (h : Keeps root s) (c : Nat) : Keeps root (State.islCmdWrite s c) := by
  unfold State.islCmdWrite
  repeat' first
    | with_reducible assumption
    | with_reducible apply islCmdOp_keeps
    | with_reducible apply State.access_keeps
    | dsimp only
    | intro _

theorem execToGfm_keeps {s out : State} (e : execToGfm s = .next out) : Keeps s out := by
  cases e
  repeat' first
    | with_reducible exact Keeps.refl _
    | with_reducible assumption
    | with_reducible apply State.islCmdWrite_keeps
    | dsimp only
    | intro _

theorem execToGfl_keeps {s out : State} (e : execToGfl s = .next out) : Keeps s out := by
  cases e
  repeat' first
    | with_reducible exact Keeps.refl _
    | with_reducible assumption
    | with_reducible apply State.islCmdWrite_keeps
    | dsimp only
    | intro _

theorem execResync_keeps {s out : State} (e : execResync s = .next out) : Keeps s out := by
  cases e
  repeat' first
    | with_reducible exact Keeps.refl _
    | with_reducible assumption
    | with_reducible apply State.islCmdWrite_keeps
    | dsimp only
    | intro _

theorem execPresetL2_keeps {s out : State} (e : execPresetL2 s = .next out) : Keeps s out := by
  cases e
  repeat' first
    | with_reducible exact Keeps.refl _
    | with_reducible assumption
    | with_reducible apply State.islCmdWrite_keeps
    | dsimp only
    | intro _

theorem execPresetL3_keeps {s out : State} (e : execPresetL3 s = .next out) : Keeps s out := by
  cases e
  repeat' first
    | with_reducible exact Keeps.refl _
    | with_reducible assumption
    | with_reducible apply State.islCmdWrite_keeps
    | dsimp only
    | intro _

theorem execClearDet_keeps {s out : State} (e : execClearDet s = .next out) : Keeps s out := by
  cases e
  repeat' first
    | with_reducible exact Keeps.refl _
    | with_reducible assumption
    | with_reducible apply State.islCmdWrite_keeps
    | dsimp only
    | intro _

theorem State.gfoStep_keeps {root s : State} (h : Keeps root s) : Keeps root (State.gfoStep s) := by
  unfold State.gfoStep
  repeat' first
    | with_reducible assumption
    | with_reducible apply State.onIsl_keeps
    | with_reducible apply Keeps.ite
    | split
    | refine Keeps.upd ?_ rfl rfl rfl rfl rfl
    | dsimp only
    | intro _

theorem State.islRamp_keeps {root s : State} (h : Keeps root s) : Keeps root (State.islRamp s) := by
  unfold State.islRamp
  repeat' first
    | with_reducible assumption
    | with_reducible apply State.onIsl_keeps
    | with_reducible apply State.put_keeps
    | refine Keeps.when ?_ fun _ _ => ?_
    | with_reducible apply Keeps.ite
    | split
    | refine Keeps.upd ?_ rfl rfl rfl rfl rfl
    | dsimp only
    | intro _

theorem execIslTickPublish_keeps {s out : State} (e : execIslTickPublish s = .next out) : Keeps s out := by
  cases e
  repeat' first
    | with_reducible exact Keeps.refl _
    | with_reducible assumption
    | with_reducible apply State.islRamp_keeps
    | with_reducible apply State.gfoStep_keeps
    | with_reducible apply State.corrStep_keeps
    | with_reducible apply State.harmStep_keeps
    | with_reducible apply State.islAct_keeps
    | with_reducible apply State.islPublish_keeps
    | with_reducible apply State.onIsl_keeps
    | with_reducible apply State.putB_keeps
    | with_reducible apply State.put_keeps
    | refine Keeps.when ?_ fun _ _ => ?_
    | with_reducible apply Keeps.ite
    | split
    | refine Keeps.upd ?_ rfl rfl rfl rfl rfl
    | dsimp only
    | intro _

theorem State.islStart_keeps {root s : State} (h : Keeps root s) (k : Fin 8) : Keeps root (State.islStart s k) := by
  unfold State.islStart
  repeat' first
    | with_reducible assumption
    | with_reducible apply State.onIsl_keeps
    | with_reducible apply Keeps.ite
    | split
    | refine Keeps.upd ?_ rfl rfl rfl rfl rfl
    | dsimp only
    | intro _

theorem State.islAccept_keeps {root s : State} (h : Keeps root s) (gfm : Bool) (dAng : Int) (dMag : Word) : Keeps root
    (State.islAccept s gfm dAng dMag) := by
  unfold State.islAccept
  repeat' first
    | with_reducible assumption
    | with_reducible apply State.armList_keeps
    | with_reducible apply State.islPublish_keeps
    | with_reducible apply State.onIsl_keeps
    | with_reducible apply State.swapRequest_keeps
    | with_reducible apply State.incWrap_keeps
    | with_reducible apply State.put_keeps
    | refine Keeps.each ?_ fun _ _ _ => ?_
    | refine Keeps.when ?_ fun _ _ => ?_
    | with_reducible apply Keeps.ite
    | split
    | refine Keeps.upd ?_ rfl rfl rfl rfl rfl
    | dsimp only
    | intro _

theorem execIslTransferDecide_keeps {s out : State} (e : execIslTransferDecide s = .next out) : Keeps s out := by
  cases e
  repeat' first
    | with_reducible exact Keeps.refl _
    | with_reducible assumption
    | with_reducible apply State.islAccept_keeps
    | with_reducible apply State.onIsl_keeps
    | with_reducible apply State.raiseStop_keeps
    | with_reducible apply State.inc_keeps
    | with_reducible apply State.put_keeps
    | with_reducible apply Keeps.ite
    | split
    | refine Keeps.upd ?_ rfl rfl rfl rfl rfl
    | dsimp only
    | intro _

theorem execIslSyncOk_keeps {s out : State} (e : execIslSyncOk s = .next out) : Keeps s out := by
  cases e
  repeat' first
    | with_reducible exact Keeps.refl _
    | with_reducible assumption
    | with_reducible apply State.put_keeps
    | refine Keeps.when ?_ fun _ _ => ?_
    | dsimp only
    | intro _

theorem execIslDeferExpiry_keeps {s out : State} (e : execIslDeferExpiry s = .next out) : Keeps s out := by
  cases e
  repeat' first
    | with_reducible exact Keeps.refl _
    | with_reducible assumption
    | with_reducible apply State.islLocal_keeps
    | with_reducible apply State.onIsl_keeps
    | with_reducible apply Keeps.ite
    | split
    | refine Keeps.upd ?_ rfl rfl rfl rfl rfl
    | dsimp only
    | intro _

theorem State.islFromManager_keeps {root s : State} (h : Keeps root s) (c : Nat) : Keeps root (State.islFromManager s c) := by
  unfold State.islFromManager
  repeat' first
    | with_reducible assumption
    | with_reducible apply State.islTransfer_keeps
    | with_reducible apply State.onIsl_keeps
    | with_reducible apply State.put_keeps
    | refine Keeps.when ?_ fun _ _ => ?_
    | with_reducible apply Keeps.ite
    | split
    | refine Keeps.upd ?_ rfl rfl rfl rfl rfl
    | dsimp only
    | intro _

theorem State.islFiring_keeps {root s : State} (h : Keeps root s) : Keeps root (State.islFiring s) := by
  unfold State.islFiring
  repeat' first
    | with_reducible assumption
    | with_reducible apply State.onIsl_keeps
    | with_reducible apply State.put_keeps
    | with_reducible apply State.withSit_keeps
    | with_reducible apply Keeps.ite
    | split
    | refine Keeps.upd ?_ rfl rfl rfl rfl rfl
    | dsimp only
    | intro _

theorem State.islAdvance_keeps {root s : State} (h : Keeps root s) (cycles : Nat) : Keeps root (State.islAdvance s cycles) := by
  unfold State.islAdvance
  repeat' first
    | with_reducible assumption
    | with_reducible apply State.onIsl_keeps
    | refine Keeps.when ?_ fun _ _ => ?_
    | refine Keeps.upd ?_ rfl rfl rfl rfl rfl
    | dsimp only
    | intro _

end Sys2Proof.Machine
end

