-- ==== Sys2Proof/Laws/KeepsDci.lean ====
section
/-!
SUPPORT. Each operation of Machine/Dci.lean keeps the queue of waiting commands and the canonical form of the memories.
-/

namespace Sys2Proof.Machine

open Sys2Proof

set_option linter.all false

theorem State.onLeg_keeps {root s : State} (h : Keeps root s) (l : Fin 6) (f : DciLeg → DciLeg) : Keeps root (State.onLeg s l f) :=
    by
  unfold State.onLeg
  repeat' first
    | with_reducible assumption
    | with_reducible apply State.withDci_keeps
    | refine Keeps.upd ?_ rfl rfl rfl rfl rfl
    | dsimp only
    | intro _

theorem State.setSweep_keeps {root s : State} (h : Keeps root s) (w : Option Sweep) : Keeps root (State.setSweep s w) := by
  unfold State.setSweep
  repeat' first
    | with_reducible assumption
    | with_reducible apply State.withDci_keeps
    | refine Keeps.upd ?_ rfl rfl rfl rfl rfl
    | dsimp only
    | intro _

theorem State.dciStart_keeps {root s : State} (h : Keeps root s) (k : Fin 8) : Keeps root (State.dciStart s k) := by
  unfold State.dciStart
  repeat' first
    | with_reducible assumption
    | with_reducible apply State.onLeg_keeps
    | with_reducible apply State.withDci_keeps
    | refine Keeps.each ?_ fun _ _ _ => ?_
    | refine Keeps.when ?_ fun _ _ => ?_
    | with_reducible apply Keeps.ite
    | split
    | refine Keeps.upd ?_ rfl rfl rfl rfl rfl
    | dsimp only
    | intro _

theorem State.sweepRequest_keeps {root s : State} (h : Keeps root s) (l : Fin 6) : Keeps root (State.sweepRequest s l) := by
  unfold State.sweepRequest
  repeat' first
    | with_reducible assumption
    | with_reducible apply State.inc_keeps
    | with_reducible apply State.put_keeps
    | with_reducible apply Keeps.ite
    | split
    | dsimp only
    | intro _

theorem dciSweepRequestOp_keeps {root s : State} (h : Keeps root s) (l : Fin 6) : Keeps root (dciSweepRequestOp l s) := by
  unfold dciSweepRequestOp
  repeat' first
    | with_reducible assumption
    | with_reducible apply State.sweepRequest_keeps
    | dsimp only
    | intro _

theorem execDciSweepRequest_keeps {s out : State} (l : Fin 6) (e : execDciSweepRequest l s = .next out) : Keeps s out := by
  cases e
  repeat' first
    | with_reducible exact Keeps.refl _
    | with_reducible assumption
    | with_reducible apply dciSweepRequestOp_keeps
    | with_reducible apply State.access_keeps
    | dsimp only
    | intro _

theorem execDciSweepTimer_keeps {s out : State} (l : Fin 6) (e : execDciSweepTimer l s = .next out) : Keeps s out := by
  cases e
  repeat' first
    | with_reducible exact Keeps.refl _
    | with_reducible assumption
    | with_reducible apply State.sweepRequest_keeps
    | refine Keeps.when ?_ fun _ _ => ?_
    | dsimp only
    | intro _

theorem State.legBlock_keeps {root s : State} (h : Keeps root s) (l : Fin 6) (b : List (Word × Word)) : Keeps root (State.legBlock s
    l b) := by
  unfold State.legBlock
  repeat' first
    | with_reducible assumption
    | with_reducible apply State.sweepRequest_keeps
    | with_reducible apply State.onLeg_keeps
    | with_reducible apply State.putB_keeps
    | refine Keeps.when ?_ fun _ _ => ?_
    | with_reducible refine Keeps.foldl ?_ fun _ _ _ => ?_
    | with_reducible apply Keeps.ite
    | split
    | refine Keeps.upd ?_ rfl rfl rfl rfl rfl
    | dsimp only
    | intro _

theorem State.legAverage_keeps {root s : State} (h : Keeps root s) (l : Fin 6) : Keeps root (State.legAverage s l) := by
  unfold State.legAverage
  repeat' first
    | with_reducible assumption
    | with_reducible apply State.legBlock_keeps
    | with_reducible apply State.onLeg_keeps
    | with_reducible apply Keeps.ite
    | split
    | refine Keeps.upd ?_ rfl rfl rfl rfl rfl
    | dsimp only
    | intro _

theorem State.legWindow_keeps {root s : State} (h : Keeps root s) (l : Fin 6) : Keeps root (State.legWindow s l) := by
  unfold State.legWindow
  repeat' first
    | with_reducible assumption
    | with_reducible apply State.onLeg_keeps
    | refine Keeps.when ?_ fun _ _ => ?_
    | with_reducible apply Keeps.ite
    | split
    | refine Keeps.upd ?_ rfl rfl rfl rfl rfl
    | dsimp only
    | intro _

theorem State.sweepEnd_keeps {root s : State} (h : Keeps root s) (l : Fin 6) : Keeps root (State.sweepEnd s l) := by
  unfold State.sweepEnd
  repeat' first
    | with_reducible assumption
    | with_reducible apply State.setSweep_keeps
    | with_reducible apply State.put_keeps
    | dsimp only
    | intro _

theorem State.sweepAborted_keeps {root s : State} (h : Keeps root s) (w : Sweep) : Keeps root (State.sweepAborted s w) := by
  unfold State.sweepAborted
  repeat' first
    | with_reducible assumption
    | with_reducible apply State.inc_keeps
    | with_reducible apply State.put_keeps
    | dsimp only
    | intro _

theorem State.sweepUpdate_keeps {root s : State} (h : Keeps root s) : Keeps root (State.sweepUpdate s) := by
  unfold State.sweepUpdate
  repeat' first
    | with_reducible assumption
    | with_reducible apply State.sweepAborted_keeps
    | with_reducible apply State.sweepEnd_keeps
    | with_reducible apply State.setSweep_keeps
    | with_reducible apply Keeps.ite
    | split
    | refine Keeps.upd ?_ rfl rfl rfl rfl rfl
    | dsimp only
    | intro _

theorem State.dciPut_keeps {root s : State} (h : Keeps root s) (j : Nat) (v : Word) : Keeps root (State.dciPut s j v) := by
  unfold State.dciPut
  repeat' first
    | with_reducible assumption
    | with_reducible apply State.publishBy_keeps
    | dsimp only
    | intro _

theorem State.legPublish_keeps {root s : State} (h : Keeps root s) (l : Fin 6) : Keeps root (State.legPublish s l) := by
  unfold State.legPublish
  repeat' first
    | with_reducible assumption
    | with_reducible apply State.dciPut_keeps
    | with_reducible apply State.onLeg_keeps
    | refine Keeps.each ?_ fun _ _ _ => ?_
    | with_reducible apply Keeps.ite
    | split
    | refine Keeps.upd ?_ rfl rfl rfl rfl rfl
    | dsimp only
    | intro _

theorem State.dciCommon_keeps {root s : State} (h : Keeps root s) : Keeps root (State.dciCommon s) := by
  unfold State.dciCommon
  repeat' first
    | with_reducible assumption
    | with_reducible apply State.dciPut_keeps
    | dsimp only
    | intro _

theorem execDciPublish_keeps {s out : State} (e : execDciPublish s = .next out) : Keeps s out := by
  cases e
  repeat' first
    | with_reducible exact Keeps.refl _
    | with_reducible assumption
    | with_reducible apply State.dciCommon_keeps
    | with_reducible apply State.legPublish_keeps
    | with_reducible apply State.sweepUpdate_keeps
    | with_reducible apply State.legWindow_keeps
    | with_reducible apply State.legAverage_keeps
    | with_reducible apply State.withDci_keeps
    | refine Keeps.each ?_ fun _ _ _ => ?_
    | with_reducible apply Keeps.ite
    | split
    | refine Keeps.upd ?_ rfl rfl rfl rfl rfl
    | dsimp only
    | intro _

theorem execDciSweepWindowStart_keeps {s out : State} (e : execDciSweepWindowStart s = .next out) : Keeps s out := by
  cases e
  repeat' first
    | with_reducible exact Keeps.refl _
    | with_reducible assumption
    | with_reducible apply State.setSweep_keeps
    | with_reducible apply State.put_keeps
    | with_reducible apply Keeps.ite
    | split
    | refine Keeps.upd ?_ rfl rfl rfl rfl rfl
    | dsimp only
    | intro _

theorem execDciSweepPoint_keeps {s out : State} (e : execDciSweepPoint s = .next out) : Keeps s out := by
  cases e
  repeat' first
    | with_reducible exact Keeps.refl _
    | with_reducible assumption
    | with_reducible apply State.setSweep_keeps
    | with_reducible apply State.put_keeps
    | with_reducible apply Keeps.ite
    | split
    | refine Keeps.upd ?_ rfl rfl rfl rfl rfl
    | dsimp only
    | intro _

theorem execDciSweepDone_keeps {s out : State} (e : execDciSweepDone s = .next out) : Keeps s out := by
  cases e
  repeat' first
    | with_reducible exact Keeps.refl _
    | with_reducible assumption
    | with_reducible apply State.sweepEnd_keeps
    | with_reducible apply State.onLeg_keeps
    | with_reducible apply State.incWrap_keeps
    | with_reducible apply State.put_keeps
    | with_reducible apply Keeps.ite
    | split
    | refine Keeps.upd ?_ rfl rfl rfl rfl rfl
    | dsimp only
    | intro _

theorem State.sweepBack_keeps {root s : State} (h : Keeps root s) (w : Sweep) : Keeps root (State.sweepBack s w) := by
  unfold State.sweepBack
  repeat' first
    | with_reducible assumption
    | with_reducible apply State.sweepAborted_keeps
    | with_reducible apply State.setSweep_keeps
    | refine Keeps.upd ?_ rfl rfl rfl rfl rfl
    | dsimp only
    | intro _

theorem execDciSweepAbort_keeps {s out : State} (e : execDciSweepAbort s = .next out) : Keeps s out := by
  cases e
  repeat' first
    | with_reducible exact Keeps.refl _
    | with_reducible assumption
    | with_reducible apply State.sweepBack_keeps
    | with_reducible apply State.put_keeps
    | with_reducible apply Keeps.ite
    | split
    | dsimp only
    | intro _

theorem dciAbortOp_keeps {root s : State} (h : Keeps root s) : Keeps root (dciAbortOp s) := by
  unfold dciAbortOp
  repeat' first
    | with_reducible assumption
    | with_reducible apply State.sweepBack_keeps
    | with_reducible apply Keeps.ite
    | split
    | dsimp only
    | intro _

theorem execDciAbort_keeps {s out : State} (e : execDciAbort s = .next out) : Keeps s out := by
  cases e
  repeat' first
    | with_reducible exact Keeps.refl _
    | with_reducible assumption
    | with_reducible apply dciAbortOp_keeps
    | with_reducible apply State.access_keeps
    | dsimp only
    | intro _

theorem execDciReturnDone_keeps {s out : State} (e : execDciReturnDone s = .next out) : Keeps s out := by
  cases e
  repeat' first
    | with_reducible exact Keeps.refl _
    | with_reducible assumption
    | with_reducible apply State.sweepEnd_keeps
    | with_reducible apply Keeps.ite
    | split
    | dsimp only
    | intro _

theorem execDciOutWin_keeps {s out : State} (l : Fin 6) (e : execDciOutWin l s = .next out) : Keeps s out := by
  cases e
  repeat' first
    | with_reducible exact Keeps.refl _
    | with_reducible assumption
    | with_reducible apply State.onLeg_keeps
    | with_reducible apply State.raiseStop_keeps
    | with_reducible apply State.putB_keeps
    | refine Keeps.when ?_ fun _ _ => ?_
    | with_reducible apply Keeps.ite
    | split
    | refine Keeps.upd ?_ rfl rfl rfl rfl rfl
    | dsimp only
    | intro _

theorem State.dciFiring_keeps {root s : State} (h : Keeps root s) : Keeps root (State.dciFiring s) := by
  unfold State.dciFiring
  have k : Keeps root { s with dci := {}, regs := cellClear s.regs 0x42301000 0x42304000 } :=
    Keeps.upd (h.regs fun g => cellsWf_clear g) rfl rfl rfl rfl rfl
  refine State.put_keeps (State.put_keeps (Keeps.each k fun _ _ k => ?_) _ _) _ _
  repeat' first
    | with_reducible assumption
    | with_reducible apply State.put_keeps

end Sys2Proof.Machine
end

