-- ==== Sys2Proof/Laws/KeepsWheel.lean ====
section
/-!
SUPPORT. Each operation of Machine/Wheel.lean keeps the queue of waiting commands and the canonical form of the memories.
-/

namespace Sys2Proof.Machine

open Sys2Proof

set_option linter.all false

theorem State.issue_keeps {root s : State} (h : Keeps root s) (w : Fin 64) (p : Fin 16) (cycles : Nat) (f : State → State) (hf : ∀
    u0, Keeps root u0 → Keeps root (f u0)) : Keeps root (State.issue s w p cycles f) := by
  unfold State.issue
  repeat' first
    | with_reducible assumption
    | with_reducible apply hf
    | with_reducible apply State.onWheel_keeps
    | with_reducible apply Keeps.ite
    | split
    | dsimp only
    | intro _

theorem State.issueVal_keeps {root s : State} (h : Keeps root s) (w : Fin 64) (p : Fin 16) (cycles : Nat) (d : Fin 64) (f : Wheel →
    Word × Nat) : Keeps root (State.issueVal s w p cycles d f) := by
  unfold State.issueVal
  repeat' first
    | with_reducible assumption
    | with_reducible apply State.issue_keeps
    | with_reducible apply State.onWheel_keeps
    | dsimp only
    | intro _

theorem State.issuePred_keeps {root s : State} (h : Keeps root s) (w : Fin 64) (p : Fin 16) (u : Fin 4) (f : Wheel → Bool) : Keeps
    root (State.issuePred s w p u f) := by
  unfold State.issuePred
  repeat' first
    | with_reducible assumption
    | with_reducible apply State.issue_keeps
    | with_reducible apply State.onWheel_keeps
    | dsimp only
    | intro _

theorem State.issueInteg_keeps {root s : State} (h : Keeps root s) (w : Fin 64) (p : Fin 16) (u : Fin 4) (d : Option (Fin 64)) (mask
    : Nat) (f : Wheel → Word → Integ → Integ × Nat) : Keeps root (State.issueInteg s w p u d mask f) := by
  unfold State.issueInteg
  repeat' first
    | with_reducible assumption
    | with_reducible apply State.issue_keeps
    | with_reducible apply State.onWheel_keeps
    | split
    | refine Keeps.upd ?_ rfl rfl rfl rfl rfl
    | dsimp only
    | intro _

end Sys2Proof.Machine
end

