-- ==== Sys2Proof/Laws/KeepsWheelIsa.lean ====
section
/-!
SUPPORT. Each operation of Machine/WheelIsa.lean keeps the queue of waiting commands and the canonical form of the memories.
-/

namespace Sys2Proof.Machine

open Sys2Proof

set_option linter.all false

theorem execNop_keeps {s out : State} (w : Fin 64) (p : Fin 16) (e : execNop w p s = .next out) : Keeps s out := by
  cases e
  exact State.issue_keeps (Keeps.refl _) _ _ _ _ fun _ k => k

theorem execEndP_keeps {s out : State} (w : Fin 64) (p : Fin 16) (e : execEndP w p s = .next out) : Keeps s out := by
  cases e
  repeat' first
    | with_reducible exact Keeps.refl _
    | with_reducible assumption
    | with_reducible apply State.issue_keeps
    | with_reducible apply State.onWheel_keeps
    | refine Keeps.upd ?_ rfl rfl rfl rfl rfl
    | dsimp only
    | intro _

theorem execMov_keeps {s out : State} (w : Fin 64) (p : Fin 16) (d : Fin 64) (a : Opnd) (e : execMov w p d a s = .next out) : Keeps
    s out := by
  cases e
  repeat' first
    | with_reducible exact Keeps.refl _
    | with_reducible assumption
    | with_reducible apply State.issueVal_keeps
    | dsimp only
    | intro _

theorem execGetf_keeps {s out : State} (w : Fin 64) (p : Fin 16) (d : Fin 64) (e : execGetf w p d s = .next out) : Keeps s out := by
  cases e
  repeat' first
    | with_reducible exact Keeps.refl _
    | with_reducible assumption
    | with_reducible apply State.issueVal_keeps
    | dsimp only
    | intro _

theorem execCyc_keeps {s out : State} (w : Fin 64) (p : Fin 16) (d : Fin 64) (e : execCyc w p d s = .next out) : Keeps s out := by
  cases e
  repeat' first
    | with_reducible exact Keeps.refl _
    | with_reducible assumption
    | with_reducible apply State.issueVal_keeps
    | dsimp only
    | intro _

theorem execPset_keeps {s out : State} (w : Fin 64) (p : Fin 16) (u : Fin 4) (f : PFun) (a b : Fin 4) (e : execPset w p u f a b s =
    .next out) : Keeps s out := by
  cases e
  repeat' first
    | with_reducible exact Keeps.refl _
    | with_reducible assumption
    | with_reducible apply State.issuePred_keeps
    | dsimp only
    | intro _

theorem execLds_keeps {s out : State} (w : Fin 64) (p : Fin 16) (d : Fin 64) (e : Ixd 12) (e : execLds w p d e s = .next out) :
    Keeps s out := by
  cases e
  repeat' first
    | with_reducible exact Keeps.refl _
    | with_reducible assumption
    | with_reducible apply State.issueVal_keeps
    | dsimp only
    | intro _

theorem execLdf_keeps {s out : State} (w : Fin 64) (p : Fin 16) (d : Fin 64) (e : Ixd 12) (e : execLdf w p d e s = .next out) :
    Keeps s out := by
  cases e
  repeat' first
    | with_reducible exact Keeps.refl _
    | with_reducible assumption
    | with_reducible apply State.issueVal_keeps
    | with_reducible apply State.onWheel_keeps
    | with_reducible apply Keeps.ite
    | split
    | refine Keeps.upd ?_ rfl rfl rfl rfl rfl
    | dsimp only
    | intro _

theorem execFreshReadReturn_keeps {s out : State} (w : Fin 64) (c : Nat) (e : execFreshReadReturn w c s = .next out) : Keeps s out
    := by
  cases e
  repeat' first
    | with_reducible exact Keeps.refl _
    | with_reducible assumption
    | with_reducible apply State.onWheel_keeps
    | refine Keeps.when ?_ fun _ _ => ?_
    | split
    | dsimp only
    | intro _

theorem execFreshReadTimeout_keeps {s out : State} (w : Fin 64) (e : execFreshReadTimeout w s = .next out) : Keeps s out := by
  cases e
  repeat' first
    | with_reducible exact Keeps.refl _
    | with_reducible assumption
    | with_reducible apply State.onWheel_keeps
    | with_reducible apply State.put_keeps
    | with_reducible apply Keeps.ite
    | split
    | dsimp only
    | intro _

theorem execSts_keeps {s out : State} (w : Fin 64) (p : Fin 16) (a : Fin 64) (e : Ixd 12) (e : execSts w p a e s = .next out) :
    Keeps s out := by
  cases e
  repeat' first
    | with_reducible exact Keeps.refl _
    | with_reducible assumption
    | with_reducible apply State.issue_keeps
    | with_reducible apply State.onGroup_keeps
    | with_reducible apply State.inc_keeps
    | with_reducible apply Keeps.ite
    | split
    | refine Keeps.upd ?_ rfl rfl rfl rfl rfl
    | dsimp only
    | intro _

theorem execLdc_keeps {s out : State} (w : Fin 64) (p : Fin 16) (d : Fin 64) (e : Ixd 10) (e : execLdc w p d e s = .next out) :
    Keeps s out := by
  cases e
  repeat' first
    | with_reducible exact Keeps.refl _
    | with_reducible assumption
    | with_reducible apply State.issueVal_keeps
    | dsimp only
    | intro _

theorem State.startCore_keeps {root s : State} (h : Keeps root s) (g : Fin 8) (cyc : Nat) (n : Fin 16) : Keeps root (State.startCore
    s g cyc n) := by
  unfold State.startCore
  repeat' first
    | with_reducible assumption
    | with_reducible apply State.startBit_keeps
    | with_reducible apply State.onGroup_keeps
    | with_reducible apply Keeps.ite
    | split
    | refine Keeps.upd ?_ rfl rfl rfl rfl rfl
    | dsimp only
    | intro _

theorem execAdcs_keeps {s out : State} (w : Fin 64) (p : Fin 16) (m : BitVec 16) (e : execAdcs w p m s = .next out) : Keeps s out :=
    by
  cases e
  repeat' first
    | with_reducible exact Keeps.refl _
    | with_reducible assumption
    | with_reducible apply State.startCore_keeps
    | with_reducible apply State.issue_keeps
    | refine Keeps.each ?_ fun _ _ _ => ?_
    | dsimp only
    | intro _

theorem execPost_keeps {s out : State} (w : Fin 64) (p : Fin 16) (a : Fin 64) (tag : BitVec 16) (e : execPost w p a tag s = .next
    out) : Keeps s out := by
  cases e
  repeat' first
    | with_reducible exact Keeps.refl _
    | with_reducible assumption
    | with_reducible apply State.issue_keeps
    | with_reducible apply State.onWheel_keeps
    | with_reducible apply State.inc_keeps
    | with_reducible apply State.put_keeps
    | with_reducible apply State.withFab_keeps
    | refine Keeps.when ?_ fun _ _ => ?_
    | with_reducible apply Keeps.ite
    | split
    | refine Keeps.upd ?_ rfl rfl rfl rfl rfl
    | dsimp only
    | intro _

theorem execLoop_keeps {s out : State} (w : Fin 64) (p : Fin 16) (a : Option (Fin 64)) (max : BitVec 8) (lend : BitVec 9) (e :
    execLoop w p a max lend s = .next out) : Keeps s out := by
  cases e
  repeat' first
    | with_reducible exact Keeps.refl _
    | with_reducible assumption
    | with_reducible apply State.onWheel_keeps
    | with_reducible apply Keeps.ite
    | split
    | refine Keeps.upd ?_ rfl rfl rfl rfl rfl
    | dsimp only
    | intro _

theorem execBrf_keeps {s out : State} (w : Fin 64) (p : Fin 16) (t : BitVec 9) (e : execBrf w p t s = .next out) : Keeps s out := by
  cases e
  repeat' first
    | with_reducible exact Keeps.refl _
    | with_reducible assumption
    | with_reducible apply State.onWheel_keeps
    | with_reducible apply Keeps.ite
    | split
    | refine Keeps.upd ?_ rfl rfl rfl rfl rfl
    | dsimp only
    | intro _

theorem execFadd_keeps {s out : State} (w : Fin 64) (p : Fin 16) (d a : Fin 64) (b : Opnd) (e : execFadd w p d a b s = .next out) :
    Keeps s out := by
  cases e
  repeat' first
    | with_reducible exact Keeps.refl _
    | with_reducible assumption
    | with_reducible apply State.issueVal_keeps
    | dsimp only
    | intro _

theorem execFsub_keeps {s out : State} (w : Fin 64) (p : Fin 16) (d a : Fin 64) (b : Opnd) (e : execFsub w p d a b s = .next out) :
    Keeps s out := by
  cases e
  repeat' first
    | with_reducible exact Keeps.refl _
    | with_reducible assumption
    | with_reducible apply State.issueVal_keeps
    | dsimp only
    | intro _

theorem execFmul_keeps {s out : State} (w : Fin 64) (p : Fin 16) (d a : Fin 64) (b : Opnd) (e : execFmul w p d a b s = .next out) :
    Keeps s out := by
  cases e
  repeat' first
    | with_reducible exact Keeps.refl _
    | with_reducible assumption
    | with_reducible apply State.issueVal_keeps
    | dsimp only
    | intro _

theorem execFma_keeps {s out : State} (w : Fin 64) (p : Fin 16) (d a b c : Fin 64) (e : execFma w p d a b c s = .next out) : Keeps s
    out := by
  cases e
  repeat' first
    | with_reducible exact Keeps.refl _
    | with_reducible assumption
    | with_reducible apply State.issueVal_keeps
    | dsimp only
    | intro _

theorem execFms_keeps {s out : State} (w : Fin 64) (p : Fin 16) (d a b c : Fin 64) (e : execFms w p d a b c s = .next out) : Keeps s
    out := by
  cases e
  repeat' first
    | with_reducible exact Keeps.refl _
    | with_reducible assumption
    | with_reducible apply State.issueVal_keeps
    | dsimp only
    | intro _

theorem execFmin_keeps {s out : State} (w : Fin 64) (p : Fin 16) (d a : Fin 64) (b : Opnd) (e : execFmin w p d a b s = .next out) :
    Keeps s out := by
  cases e
  repeat' first
    | with_reducible exact Keeps.refl _
    | with_reducible assumption
    | with_reducible apply State.issueVal_keeps
    | dsimp only
    | intro _

theorem execFmax_keeps {s out : State} (w : Fin 64) (p : Fin 16) (d a : Fin 64) (b : Opnd) (e : execFmax w p d a b s = .next out) :
    Keeps s out := by
  cases e
  repeat' first
    | with_reducible exact Keeps.refl _
    | with_reducible assumption
    | with_reducible apply State.issueVal_keeps
    | dsimp only
    | intro _

theorem execFclamp_keeps {s out : State} (w : Fin 64) (p : Fin 16) (d a b c : Fin 64) (e : execFclamp w p d a b c s = .next out) :
    Keeps s out := by
  cases e
  repeat' first
    | with_reducible exact Keeps.refl _
    | with_reducible assumption
    | with_reducible apply State.issueVal_keeps
    | dsimp only
    | intro _

theorem execFabs_keeps {s out : State} (w : Fin 64) (p : Fin 16) (d a : Fin 64) (e : execFabs w p d a s = .next out) : Keeps s out
    := by
  cases e
  repeat' first
    | with_reducible exact Keeps.refl _
    | with_reducible assumption
    | with_reducible apply State.issueVal_keeps
    | dsimp only
    | intro _

theorem execFneg_keeps {s out : State} (w : Fin 64) (p : Fin 16) (d a : Fin 64) (e : execFneg w p d a s = .next out) : Keeps s out
    := by
  cases e
  repeat' first
    | with_reducible exact Keeps.refl _
    | with_reducible assumption
    | with_reducible apply State.issueVal_keeps
    | dsimp only
    | intro _

theorem execFdiv_keeps {s out : State} (w : Fin 64) (p : Fin 16) (d a b : Fin 64) (e : execFdiv w p d a b s = .next out) : Keeps s
    out := by
  cases e
  repeat' first
    | with_reducible exact Keeps.refl _
    | with_reducible assumption
    | with_reducible apply State.issueVal_keeps
    | dsimp only
    | intro _

theorem execFsqrt_keeps {s out : State} (w : Fin 64) (p : Fin 16) (d a : Fin 64) (e : execFsqrt w p d a s = .next out) : Keeps s out
    := by
  cases e
  repeat' first
    | with_reducible exact Keeps.refl _
    | with_reducible assumption
    | with_reducible apply State.issueVal_keeps
    | dsimp only
    | intro _

theorem execFcmp_keeps {s out : State} (w : Fin 64) (p : Fin 16) (u : Fin 4) (q : Cond) (a : Fin 64) (b : Opnd) (e : execFcmp w p u
    q a b s = .next out) : Keeps s out := by
  cases e
  repeat' first
    | with_reducible exact Keeps.refl _
    | with_reducible assumption
    | with_reducible apply State.issuePred_keeps
    | dsimp only
    | intro _

theorem execF2q_keeps {s out : State} (w : Fin 64) (p : Fin 16) (d a : Fin 64) (e : execF2q w p d a s = .next out) : Keeps s out :=
    by
  cases e
  repeat' first
    | with_reducible exact Keeps.refl _
    | with_reducible assumption
    | with_reducible apply State.issueVal_keeps
    | dsimp only
    | intro _

theorem execQ2f_keeps {s out : State} (w : Fin 64) (p : Fin 16) (d a : Fin 64) (e : execQ2f w p d a s = .next out) : Keeps s out :=
    by
  cases e
  repeat' first
    | with_reducible exact Keeps.refl _
    | with_reducible assumption
    | with_reducible apply State.issueVal_keeps
    | dsimp only
    | intro _

theorem execF2i_keeps {s out : State} (w : Fin 64) (p : Fin 16) (d a : Fin 64) (e : execF2i w p d a s = .next out) : Keeps s out :=
    by
  cases e
  repeat' first
    | with_reducible exact Keeps.refl _
    | with_reducible assumption
    | with_reducible apply State.issueVal_keeps
    | dsimp only
    | intro _

theorem execI2f_keeps {s out : State} (w : Fin 64) (p : Fin 16) (d a : Fin 64) (e : execI2f w p d a s = .next out) : Keeps s out :=
    by
  cases e
  repeat' first
    | with_reducible exact Keeps.refl _
    | with_reducible assumption
    | with_reducible apply State.issueVal_keeps
    | dsimp only
    | intro _

theorem execF2u_keeps {s out : State} (w : Fin 64) (p : Fin 16) (d a : Fin 64) (e : execF2u w p d a s = .next out) : Keeps s out :=
    by
  cases e
  repeat' first
    | with_reducible exact Keeps.refl _
    | with_reducible assumption
    | with_reducible apply State.issueVal_keeps
    | dsimp only
    | intro _

theorem execQadd_keeps {s out : State} (w : Fin 64) (p : Fin 16) (d a : Fin 64) (b : Opnd) (e : execQadd w p d a b s = .next out) :
    Keeps s out := by
  cases e
  repeat' first
    | with_reducible exact Keeps.refl _
    | with_reducible assumption
    | with_reducible apply State.issueVal_keeps
    | dsimp only
    | intro _

theorem execQsub_keeps {s out : State} (w : Fin 64) (p : Fin 16) (d a : Fin 64) (b : Opnd) (e : execQsub w p d a b s = .next out) :
    Keeps s out := by
  cases e
  repeat' first
    | with_reducible exact Keeps.refl _
    | with_reducible assumption
    | with_reducible apply State.issueVal_keeps
    | dsimp only
    | intro _

theorem execQmul_keeps {s out : State} (w : Fin 64) (p : Fin 16) (d a : Fin 64) (b : Opnd) (e : execQmul w p d a b s = .next out) :
    Keeps s out := by
  cases e
  repeat' first
    | with_reducible exact Keeps.refl _
    | with_reducible assumption
    | with_reducible apply State.issueVal_keeps
    | dsimp only
    | intro _

theorem execQmac_keeps {s out : State} (w : Fin 64) (p : Fin 16) (d a b c : Fin 64) (e : execQmac w p d a b c s = .next out) : Keeps
    s out := by
  cases e
  repeat' first
    | with_reducible exact Keeps.refl _
    | with_reducible assumption
    | with_reducible apply State.issueVal_keeps
    | dsimp only
    | intro _

theorem execQabs_keeps {s out : State} (w : Fin 64) (p : Fin 16) (d a : Fin 64) (e : execQabs w p d a s = .next out) : Keeps s out
    := by
  cases e
  repeat' first
    | with_reducible exact Keeps.refl _
    | with_reducible assumption
    | with_reducible apply State.issueVal_keeps
    | dsimp only
    | intro _

theorem execQcmp_keeps {s out : State} (w : Fin 64) (p : Fin 16) (u : Fin 4) (q : Cond) (a : Fin 64) (b : Opnd) (e : execQcmp w p u
    q a b s = .next out) : Keeps s out := by
  cases e
  repeat' first
    | with_reducible exact Keeps.refl _
    | with_reducible assumption
    | with_reducible apply State.issuePred_keeps
    | dsimp only
    | intro _

theorem execIadd_keeps {s out : State} (w : Fin 64) (p : Fin 16) (d a : Fin 64) (b : Opnd) (e : execIadd w p d a b s = .next out) :
    Keeps s out := by
  cases e
  repeat' first
    | with_reducible exact Keeps.refl _
    | with_reducible assumption
    | with_reducible apply State.issueVal_keeps
    | dsimp only
    | intro _

theorem execIsub_keeps {s out : State} (w : Fin 64) (p : Fin 16) (d a : Fin 64) (b : Opnd) (e : execIsub w p d a b s = .next out) :
    Keeps s out := by
  cases e
  repeat' first
    | with_reducible exact Keeps.refl _
    | with_reducible assumption
    | with_reducible apply State.issueVal_keeps
    | dsimp only
    | intro _

theorem execAnd_keeps {s out : State} (w : Fin 64) (p : Fin 16) (d a : Fin 64) (b : Opnd) (e : execAnd w p d a b s = .next out) :
    Keeps s out := by
  cases e
  repeat' first
    | with_reducible exact Keeps.refl _
    | with_reducible assumption
    | with_reducible apply State.issueVal_keeps
    | dsimp only
    | intro _

theorem execOr_keeps {s out : State} (w : Fin 64) (p : Fin 16) (d a : Fin 64) (b : Opnd) (e : execOr w p d a b s = .next out) :
    Keeps s out := by
  cases e
  repeat' first
    | with_reducible exact Keeps.refl _
    | with_reducible assumption
    | with_reducible apply State.issueVal_keeps
    | dsimp only
    | intro _

theorem execXor_keeps {s out : State} (w : Fin 64) (p : Fin 16) (d a : Fin 64) (b : Opnd) (e : execXor w p d a b s = .next out) :
    Keeps s out := by
  cases e
  repeat' first
    | with_reducible exact Keeps.refl _
    | with_reducible assumption
    | with_reducible apply State.issueVal_keeps
    | dsimp only
    | intro _

theorem execShl_keeps {s out : State} (w : Fin 64) (p : Fin 16) (d a : Fin 64) (b : Opnd) (e : execShl w p d a b s = .next out) :
    Keeps s out := by
  cases e
  repeat' first
    | with_reducible exact Keeps.refl _
    | with_reducible assumption
    | with_reducible apply State.issueVal_keeps
    | dsimp only
    | intro _

theorem execShr_keeps {s out : State} (w : Fin 64) (p : Fin 16) (d a : Fin 64) (b : Opnd) (e : execShr w p d a b s = .next out) :
    Keeps s out := by
  cases e
  repeat' first
    | with_reducible exact Keeps.refl _
    | with_reducible assumption
    | with_reducible apply State.issueVal_keeps
    | dsimp only
    | intro _

theorem execSar_keeps {s out : State} (w : Fin 64) (p : Fin 16) (d a : Fin 64) (b : Opnd) (e : execSar w p d a b s = .next out) :
    Keeps s out := by
  cases e
  repeat' first
    | with_reducible exact Keeps.refl _
    | with_reducible assumption
    | with_reducible apply State.issueVal_keeps
    | dsimp only
    | intro _

theorem execIcmp_keeps {s out : State} (w : Fin 64) (p : Fin 16) (u : Fin 4) (q : Cond) (a : Fin 64) (b : Opnd) (e : execIcmp w p u
    q a b s = .next out) : Keeps s out := by
  cases e
  repeat' first
    | with_reducible exact Keeps.refl _
    | with_reducible assumption
    | with_reducible apply State.issuePred_keeps
    | dsimp only
    | intro _

theorem execUcmp_keeps {s out : State} (w : Fin 64) (p : Fin 16) (u : Fin 4) (q : Cond) (a : Fin 64) (b : Opnd) (e : execUcmp w p u
    q a b s = .next out) : Keeps s out := by
  cases e
  repeat' first
    | with_reducible exact Keeps.refl _
    | with_reducible assumption
    | with_reducible apply State.issuePred_keeps
    | dsimp only
    | intro _

theorem State.issuePair_keeps {root s : State} (h : Keeps root s) (w : Fin 64) (p : Fin 16) (d : Fin 64) (f : Wheel → (Word × Word)
    × Nat) : Keeps root (State.issuePair s w p d f) := by
  unfold State.issuePair
  repeat' first
    | with_reducible assumption
    | with_reducible apply State.issue_keeps
    | with_reducible apply State.onWheel_keeps
    | dsimp only
    | intro _

theorem execCrot_keeps {s out : State} (w : Fin 64) (p : Fin 16) (d a b : Fin 64) (e : execCrot w p d a b s = .next out) : Keeps s
    out := by
  cases e
  repeat' first
    | with_reducible exact Keeps.refl _
    | with_reducible assumption
    | with_reducible apply State.issuePair_keeps
    | dsimp only
    | intro _

theorem execCrotv_keeps {s out : State} (w : Fin 64) (p : Fin 16) (d a b c : Fin 64) (e : execCrotv w p d a b c s = .next out) :
    Keeps s out := by
  cases e
  repeat' first
    | with_reducible exact Keeps.refl _
    | with_reducible assumption
    | with_reducible apply State.issuePair_keeps
    | dsimp only
    | intro _

theorem execCvec_keeps {s out : State} (w : Fin 64) (p : Fin 16) (d a b : Fin 64) (e : execCvec w p d a b s = .next out) : Keeps s
    out := by
  cases e
  repeat' first
    | with_reducible exact Keeps.refl _
    | with_reducible assumption
    | with_reducible apply State.issuePair_keeps
    | dsimp only
    | intro _

theorem execIacc_keeps {s out : State} (w : Fin 64) (p : Fin 16) (d : Fin 64) (u : Fin 4) (a b : Fin 64) (e : execIacc w p d u a b s
    = .next out) : Keeps s out := by
  cases e
  repeat' first
    | with_reducible exact Keeps.refl _
    | with_reducible assumption
    | with_reducible apply State.issueInteg_keeps
    | dsimp only
    | intro _

theorem execIrd_keeps {s out : State} (w : Fin 64) (p : Fin 16) (d : Fin 64) (u : Fin 4) (e : execIrd w p d u s = .next out) : Keeps
    s out := by
  cases e
  repeat' first
    | with_reducible exact Keeps.refl _
    | with_reducible assumption
    | with_reducible apply State.issueInteg_keeps
    | dsimp only
    | intro _

theorem execIpre_keeps {s out : State} (w : Fin 64) (p : Fin 16) (u : Fin 4) (a : Fin 64) (e : execIpre w p u a s = .next out) :
    Keeps s out := by
  cases e
  repeat' first
    | with_reducible exact Keeps.refl _
    | with_reducible assumption
    | with_reducible apply State.issueInteg_keeps
    | dsimp only
    | intro _

theorem execIlim_keeps {s out : State} (w : Fin 64) (p : Fin 16) (u : Fin 4) (a b : Fin 64) (e : execIlim w p u a b s = .next out) :
    Keeps s out := by
  cases e
  repeat' first
    | with_reducible exact Keeps.refl _
    | with_reducible assumption
    | with_reducible apply State.issueInteg_keeps
    | dsimp only
    | intro _

theorem execBq_keeps {s out : State} (w : Fin 64) (p : Fin 16) (d : Fin 64) (u : Fin 4) (a : Fin 64) (c : BitVec 10) (e : execBq w p
    d u a c s = .next out) : Keeps s out := by
  cases e
  repeat' first
    | with_reducible exact Keeps.refl _
    | with_reducible assumption
    | with_reducible apply State.issue_keeps
    | with_reducible apply State.onWheel_keeps
    | refine Keeps.upd ?_ rfl rfl rfl rfl rfl
    | dsimp only
    | intro _

theorem execBqclr_keeps {s out : State} (w : Fin 64) (p : Fin 16) (u : Fin 4) (e : execBqclr w p u s = .next out) : Keeps s out :=
    by
  cases e
  repeat' first
    | with_reducible exact Keeps.refl _
    | with_reducible assumption
    | with_reducible apply State.issue_keeps
    | with_reducible apply State.onWheel_keeps
    | refine Keeps.upd ?_ rfl rfl rfl rfl rfl
    | dsimp only
    | intro _

theorem execRes_keeps {s out : State} (w : Fin 64) (p : Fin 16) (d : Fin 64) (u : Fin 4) (a b : Fin 64) (e : execRes w p d u a b s =
    .next out) : Keeps s out := by
  cases e
  repeat' first
    | with_reducible exact Keeps.refl _
    | with_reducible assumption
    | with_reducible apply State.issue_keeps
    | with_reducible apply State.onWheel_keeps
    | with_reducible apply Keeps.ite
    | split
    | refine Keeps.upd ?_ rfl rfl rfl rfl rfl
    | dsimp only
    | intro _

theorem execResr_keeps {s out : State} (w : Fin 64) (p : Fin 16) (d : Fin 64) (u : Fin 4) (e : execResr w p d u s = .next out) :
    Keeps s out := by
  cases e
  repeat' first
    | with_reducible exact Keeps.refl _
    | with_reducible assumption
    | with_reducible apply State.issueVal_keeps
    | dsimp only
    | intro _

end Sys2Proof.Machine
end

