-- ==== Sys2Proof/Laws/KeepsFabric.lean ====
section
/-!
SUPPORT. Each operation of Machine/Fabric.lean keeps the queue of waiting commands and the canonical form of the memories.
-/

namespace Sys2Proof.Machine

open Sys2Proof

set_option linter.all false

theorem State.trigger_keeps {root s : State} (h : Keeps root s) (k : Fin 8) : Keeps root (State.trigger s k) := by
  unfold State.trigger
  repeat' first
    | with_reducible assumption
    | with_reducible apply State.onGroup_keeps
    | refine Keeps.when ?_ fun _ _ => ?_
    | refine Keeps.upd ?_ rfl rfl rfl rfl rfl
    | dsimp only
    | intro _

theorem State.groupEvent_keeps {root s : State} (h : Keeps root s) (k : Fin 8) : Keeps root (State.groupEvent s k) := by
  unfold State.groupEvent
  repeat' first
    | with_reducible assumption
    | with_reducible apply State.trigger_keeps
    | with_reducible apply State.onGroup_keeps
    | with_reducible apply Keeps.ite
    | split
    | refine Keeps.upd ?_ rfl rfl rfl rfl rfl
    | dsimp only
    | intro _

theorem State.sourceEvent_keeps {root s : State} (h : Keeps root s) (src inst : Nat) : Keeps root (State.sourceEvent s src inst) :=
    by
  unfold State.sourceEvent
  repeat' first
    | with_reducible assumption
    | with_reducible apply State.groupEvent_keeps
    | refine Keeps.each ?_ fun _ _ _ => ?_
    | refine Keeps.when ?_ fun _ _ => ?_
    | dsimp only
    | intro _

theorem execTimerTrigger_keeps {s out : State} (k : Fin 8) (e : execTimerTrigger k s = .next out) : Keeps s out := by
  cases e
  repeat' first
    | with_reducible exact Keeps.refl _
    | with_reducible assumption
    | with_reducible apply State.trigger_keeps
    | refine Keeps.when ?_ fun _ _ => ?_
    | dsimp only
    | intro _

theorem execPtpTrigger_keeps {s out : State} (k : Fin 8) (e : execPtpTrigger k s = .next out) : Keeps s out := by
  cases e
  repeat' first
    | with_reducible exact Keeps.refl _
    | with_reducible assumption
    | with_reducible apply State.trigger_keeps
    | with_reducible apply State.onGroup_keeps
    | refine Keeps.when ?_ fun _ _ => ?_
    | refine Keeps.upd ?_ rfl rfl rfl rfl rfl
    | dsimp only
    | intro _

theorem State.countMiss_keeps {root s : State} (h : Keeps root s) (k : Fin 8) (trigLoss : Bool) : Keeps root (State.countMiss s k
    trigLoss) := by
  unfold State.countMiss
  repeat' first
    | with_reducible assumption
    | with_reducible apply State.supvStop_keeps
    | with_reducible apply State.onGroup_keeps
    | with_reducible apply State.journal_keeps
    | with_reducible apply State.inc_keeps
    | with_reducible apply State.put_keeps
    | with_reducible apply Keeps.ite
    | split
    | refine Keeps.upd ?_ rfl rfl rfl rfl rfl
    | dsimp only
    | intro _

theorem State.missSample_keeps {root s : State} (h : Keeps root s) (k : Fin 8) : Keeps root (State.missSample s k) := by
  unfold State.missSample
  repeat' first
    | with_reducible assumption
    | with_reducible apply State.countMiss_keeps
    | with_reducible apply State.onGroup_keeps
    | with_reducible apply State.onWheel_keeps
    | with_reducible apply State.put_keeps
    | refine Keeps.each ?_ fun _ _ _ => ?_
    | refine Keeps.upd ?_ rfl rfl rfl rfl rfl
    | dsimp only
    | intro _

theorem execDeadlineMiss_keeps {s out : State} (k : Fin 8) (e : execDeadlineMiss k s = .next out) : Keeps s out := by
  cases e
  repeat' first
    | with_reducible exact Keeps.refl _
    | with_reducible assumption
    | with_reducible apply State.missSample_keeps
    | refine Keeps.when ?_ fun _ _ => ?_
    | dsimp only
    | intro _

theorem execTriggerTimeout_keeps {s out : State} (k : Fin 8) (e : execTriggerTimeout k s = .next out) : Keeps s out := by
  cases e
  repeat' first
    | with_reducible exact Keeps.refl _
    | with_reducible assumption
    | with_reducible apply State.countMiss_keeps
    | with_reducible apply State.put_keeps
    | with_reducible apply Keeps.ite
    | split
    | dsimp only
    | intro _

theorem State.onInteg_keeps {root s : State} (h : Keeps root s) (w : Fin 64) (j : Fin 4) (f : Integ → Integ × Nat) : Keeps root
    (State.onInteg s w j f) := by
  unfold State.onInteg
  repeat' first
    | with_reducible assumption
    | with_reducible apply State.onWheel_keeps
    | refine Keeps.upd ?_ rfl rfl rfl rfl rfl
    | dsimp only
    | intro _

theorem State.swapRescale_keeps {root s : State} (h : Keeps root s) (k : Fin 8) (old : Nat) : Keeps root (State.swapRescale s k old)
    := by
  unfold State.swapRescale
  repeat' first
    | with_reducible assumption
    | with_reducible apply State.onInteg_keeps
    | refine Keeps.each ?_ fun _ _ _ => ?_
    | dsimp only
    | intro _

theorem State.firmwarePresets_keeps {root s : State} (h : Keeps root s) (w : Fin 64) : Keeps root (State.firmwarePresets s w) := by
  unfold State.firmwarePresets
  repeat' first
    | with_reducible assumption
    | with_reducible apply State.onInteg_keeps
    | with_reducible apply State.onWheel_keeps
    | refine Keeps.each ?_ fun _ _ _ => ?_
    | refine Keeps.upd ?_ rfl rfl rfl rfl rfl
    | dsimp only
    | intro _

theorem State.islPresets_keeps {root s : State} (h : Keeps root s) (k : Fin 8) : Keeps root (State.islPresets s k) := by
  unfold State.islPresets
  repeat' first
    | with_reducible assumption
    | with_reducible apply State.onInteg_keeps
    | with_reducible apply State.onIsl_keeps
    | refine Keeps.each ?_ fun _ _ _ => ?_
    | refine Keeps.upd ?_ rfl rfl rfl rfl rfl
    | dsimp only
    | intro _

theorem State.carrySwap_keeps {root s : State} (h : Keeps root s) (k : Fin 8) : Keeps root (State.carrySwap s k) := by
  unfold State.carrySwap
  repeat' first
    | with_reducible assumption
    | with_reducible apply State.swapRescale_keeps
    | with_reducible apply State.notchSwap_keeps
    | with_reducible apply State.setSwap_keeps
    | with_reducible apply State.put_keeps
    | with_reducible apply Keeps.ite
    | split
    | dsimp only
    | intro _

theorem State.memberStart_keeps {root s : State} (h : Keeps root s) (k : Fin 8) (w : Fin 64) : Keeps root (State.memberStart s k w)
    := by
  unfold State.memberStart
  repeat' first
    | with_reducible assumption
    | with_reducible apply State.onGroup_keeps
    | with_reducible apply State.onWheel_keeps
    | refine Keeps.when ?_ fun _ _ => ?_
    | refine Keeps.upd ?_ rfl rfl rfl rfl rfl
    | dsimp only
    | intro _

theorem execSampleStart_keeps {s out : State} (k : Fin 8) (e : execSampleStart k s = .next out) : Keeps s out := by
  cases e
  repeat' first
    | with_reducible exact Keeps.refl _
    | with_reducible assumption
    | with_reducible apply State.memberStart_keeps
    | with_reducible apply State.carrySwap_keeps
    | with_reducible apply State.islPresets_keeps
    | with_reducible apply State.firmwarePresets_keeps
    | with_reducible apply State.missSample_keeps
    | with_reducible apply State.sourceEvent_keeps
    | with_reducible apply State.dciStart_keeps
    | with_reducible apply State.islStart_keeps
    | with_reducible apply State.gsuStart_keeps
    | with_reducible apply State.adcSample_keeps
    | with_reducible apply State.captureStart_keeps
    | with_reducible apply State.onGroup_keeps
    | with_reducible apply State.incWrap_keeps
    | with_reducible apply State.put_keeps
    | refine Keeps.each ?_ fun _ _ _ => ?_
    | refine Keeps.when ?_ fun _ _ => ?_
    | with_reducible apply Keeps.ite
    | split
    | refine Keeps.upd ?_ rfl rfl rfl rfl rfl
    | dsimp only
    | intro _

theorem State.guardStep_keeps {root s : State} (h : Keeps root s) (k : Fin 8) (g : Fin 4) : Keeps root (State.guardStep s k g).1 := by
  unfold State.guardStep
  dsimp only
  split
  · exact h
  · split
    · exact h
    · exact Keeps.when (State.onGroup_keeps h _ _) fun _ k => State.put_keeps (State.inc_keeps k _) _ _

theorem State.guards_keeps {root s : State} (h : Keeps root s) (k : Fin 8) : Keeps root (s.guards k).1 := by
  unfold State.guards
  split
  · dsimp only
    exact State.onGroup_keeps h _ _
  have hp : Keeps root (s, ([] : List (Fin 4))).1 := h
  revert hp
  generalize (s, ([] : List (Fin 4))) = p
  intro hp
  generalize four = l
  induction l generalizing p with
  | nil => exact hp
  | cons g l ih => exact ih _ (State.guardStep_keeps hp k g)

theorem State.suspect_keeps {root s : State} (h : Keeps root s) (w : Fin 64) (c : Fin 4) : Keeps root (State.suspect s w c) := by
  unfold State.suspect
  repeat' first
    | with_reducible assumption
    | with_reducible apply State.grogFlag_keeps
    | with_reducible apply State.journal_keeps
    | with_reducible apply State.inc_keeps
    | with_reducible apply State.put_keeps
    | dsimp only
    | intro _

theorem State.plausStop_keeps {root s : State} (h : Keeps root s) (k : Fin 8) (w : Fin 64) (c : Fin 4) : Keeps root (State.plausStop
    s k w c) := by
  unfold State.plausStop
  repeat' first
    | with_reducible assumption
    | with_reducible apply State.supvStop_keeps
    | with_reducible apply State.withSit_keeps
    | refine Keeps.upd ?_ rfl rfl rfl rfl rfl
    | dsimp only
    | intro _

theorem State.residuals_keeps {root s : State} (h : Keeps root s) (k : Fin 8) : Keeps root (State.residuals s k) := by
  unfold State.residuals
  repeat' first
    | with_reducible assumption
    | with_reducible apply State.plausStop_keeps
    | with_reducible apply State.suspect_keeps
    | refine Keeps.each ?_ fun _ _ _ => ?_
    | dsimp only
    | intro _

theorem State.commitWheel_keeps {root s : State} (h : Keeps root s) (w : Fin 64) : Keeps root (State.commitWheel s w) := by
  unfold State.commitWheel
  repeat' first
    | with_reducible assumption
    | with_reducible apply State.onWheel_keeps
    | with_reducible apply State.putB_keeps
    | refine Keeps.upd ?_ rfl rfl rfl rfl rfl
    | dsimp only
    | intro _

theorem State.endRun_keeps {root s : State} (h : Keeps root s) (k : Fin 8) : Keeps root (State.endRun s k) := by
  unfold State.endRun
  repeat' first
    | with_reducible assumption
    | with_reducible apply State.onGroup_keeps
    | with_reducible apply State.journal_keeps
    | refine Keeps.when ?_ fun _ _ => ?_
    | refine Keeps.upd ?_ rfl rfl rfl rfl rfl
    | dsimp only
    | intro _

theorem execEndOfSample_keeps {s out : State} (k : Fin 8) (e : execEndOfSample k s = .next out) : Keeps s out := by
  cases e
  refine Keeps.ite (Keeps.refl _) ?_
  dsimp only
  refine Keeps.each (State.residuals_keeps (State.put_keeps (State.endRun_keeps (State.put_keeps ?_ _ _) _) _ _) _) fun _ _ k =>
    State.supvStop_keeps k _ _ _ _ _ _
  refine Keeps.each (State.onGroup_keeps (Keeps.each (State.guards_keeps (Keeps.refl _) _) fun _ _ k => ?_) _ _) fun _ _ k => ?_
  · exact State.publish_keeps k _ _
  · exact State.commitWheel_keeps k _

theorem execMemoryError_keeps {s out : State} (w : Fin 64) (e : execMemoryError w s = .next out) : Keeps s out := by
  cases e
  repeat' first
    | with_reducible exact Keeps.refl _
    | with_reducible assumption
    | with_reducible apply State.grogHard_keeps
    | with_reducible apply State.onGroup_keeps
    | with_reducible apply State.onWheel_keeps
    | with_reducible apply State.journal_keeps
    | with_reducible apply State.put_keeps
    | with_reducible apply Keeps.ite
    | split
    | refine Keeps.upd ?_ rfl rfl rfl rfl rfl
    | dsimp only
    | intro _

theorem execCorrectedError_keeps {s out : State} (w : Fin 64) (e : execCorrectedError w s = .next out) : Keeps s out := by
  cases e
  repeat' first
    | with_reducible exact Keeps.refl _
    | with_reducible assumption
    | with_reducible apply State.grogErr_keeps
    | dsimp only
    | intro _

theorem slotWriteOp_keeps {root s : State} (h : Keeps root s) (k : BitVec 12) (v : Word) : Keeps root (slotWriteOp k v s) := by
  unfold slotWriteOp
  repeat' first
    | with_reducible assumption
    | with_reducible apply State.publish_keeps
    | with_reducible apply State.inc_keeps
    | with_reducible apply Keeps.ite
    | split
    | dsimp only
    | intro _

theorem execSlotWrite_keeps {s out : State} (k : BitVec 12) (v : Word) (e : execSlotWrite k v s = .next out) : Keeps s out := by
  cases e
  repeat' first
    | with_reducible exact Keeps.refl _
    | with_reducible assumption
    | with_reducible apply slotWriteOp_keeps
    | with_reducible apply State.access_keeps
    | dsimp only
    | intro _

theorem coefWriteOp_keeps {root s : State} (h : Keeps root s) (w : Fin 64) (b : Fin 2) (i : BitVec 10) (v : Word) : Keeps root
    (coefWriteOp w b i v s) := by
  unfold coefWriteOp
  repeat' first
    | with_reducible assumption
    | with_reducible apply State.bankPut_keeps
    | with_reducible apply State.inc_keeps
    | with_reducible apply Keeps.ite
    | split
    | dsimp only
    | intro _

theorem execCoefBankWrite_keeps {s out : State} (w : Fin 64) (b : Fin 2) (i : BitVec 10) (v : Word) (e : execCoefBankWrite w b i v s
    = .next out) : Keeps s out := by
  cases e
  repeat' first
    | with_reducible exact Keeps.refl _
    | with_reducible assumption
    | with_reducible apply coefWriteOp_keeps
    | with_reducible apply State.access_keeps
    | dsimp only
    | intro _

theorem swapRequestOp_keeps {root s : State} (h : Keeps root s) (k : Fin 8) (bank : Fin 2) (atPlant : Bool) : Keeps root
    (swapRequestOp k bank atPlant s) := by
  unfold swapRequestOp
  repeat' first
    | with_reducible assumption
    | with_reducible apply State.swapRequest_keeps
    | with_reducible apply State.putB_keeps
    | with_reducible apply State.put_keeps
    | refine Keeps.upd ?_ rfl rfl rfl rfl rfl
    | dsimp only
    | intro _

theorem execSwapRequest_keeps {s out : State} (k : Fin 8) (bank : Fin 2) (atPlant : Bool) (e : execSwapRequest k bank atPlant s =
    .next out) : Keeps s out := by
  cases e
  repeat' first
    | with_reducible exact Keeps.refl _
    | with_reducible assumption
    | with_reducible apply swapRequestOp_keeps
    | with_reducible apply State.access_keeps
    | dsimp only
    | intro _

theorem istateWriteOp_keeps {root s : State} (h : Keeps root s) (w : Fin 64) (j : Fin 4) (v : Word) : Keeps root (istateWriteOp w j
    v s) := by
  unfold istateWriteOp
  repeat' first
    | with_reducible assumption
    | with_reducible apply State.onWheel_keeps
    | refine Keeps.when ?_ fun _ _ => ?_
    | refine Keeps.upd ?_ rfl rfl rfl rfl rfl
    | dsimp only
    | intro _

theorem execIstateWrite_keeps {s out : State} (w : Fin 64) (j : Fin 4) (v : Word) (e : execIstateWrite w j v s = .next out) : Keeps
    s out := by
  cases e
  repeat' first
    | with_reducible exact Keeps.refl _
    | with_reducible assumption
    | with_reducible apply istateWriteOp_keeps
    | with_reducible apply State.access_keeps
    | dsimp only
    | intro _

theorem mboxReadOp_keeps {root s : State} (h : Keeps root s) : Keeps root (mboxReadOp s).1 := by
  unfold mboxReadOp
  try dsimp only
  repeat' first
    | with_reducible assumption
    | split
    | with_reducible apply State.withFab_keeps
    | refine Keeps.upd ?_ rfl rfl rfl rfl rfl
    | dsimp only
    | intro _

theorem execMboxRead_keeps {s out : State} (e : execMboxRead s = .next out) : Keeps s out := by
  cases e
  repeat' first
    | with_reducible exact Keeps.refl _
    | with_reducible assumption
    | with_reducible apply mboxReadOp_keeps
    | with_reducible apply State.accessV_keeps
    | dsimp only
    | intro _

theorem mboxThreshOp_keeps {root s : State} (h : Keeps root s) (v : BitVec 7) : Keeps root (mboxThreshOp v s) := by
  unfold mboxThreshOp
  repeat' first
    | with_reducible assumption
    | with_reducible apply State.put_keeps
    | refine Keeps.when ?_ fun _ _ => ?_
    | dsimp only
    | intro _

theorem execMboxThreshWrite_keeps {s out : State} (v : BitVec 7) (e : execMboxThreshWrite v s = .next out) : Keeps s out := by
  cases e
  repeat' first
    | with_reducible exact Keeps.refl _
    | with_reducible assumption
    | with_reducible apply mboxThreshOp_keeps
    | with_reducible apply State.access_keeps
    | dsimp only
    | intro _

theorem State.fabricFiring_keeps {root s : State} (h : Keeps root s) (g : GlazeImage) (place : Placement) :
    Keeps root (State.fabricFiring s g place) := by
  unfold State.fabricFiring
  extract_lets -underBinder prog coef slots s1 s2 s3 s4
  have k1 : Keeps root s1 := by
    refine Keeps.upd (Keeps.slots (Keeps.coef (Keeps.prog (Keeps.regs h fun g => cellsWf_clear g) fun _ => ?_) fun _ => ?_) fun _ => ?_)
      rfl rfl rfl rfl rfl
    · exact cellsWf_foldl rfl fun _ _ g => cellsWf_foldl g fun _ _ g => cellsWf_put g
    · exact cellsWf_foldl rfl fun _ _ g => cellsWf_put g
    · exact cellsWf_foldl rfl fun _ _ g => cellsWf_put g
  clear_value s1
  have k2 : Keeps root s2 := Keeps.each k1 fun _ _ k => State.put_keeps (State.put_keeps k _ _) _ _
  clear_value s2
  have k3 : Keeps root s3 := by
    refine Keeps.each k2 fun _ _ k => ?_
    repeat' first
      | with_reducible assumption
      | with_reducible apply State.put_keeps
  clear_value s3
  refine Keeps.each (Keeps.each k3 fun _ _ k => State.put_keeps (State.put_keeps k _ _) _ _) fun _ _ k => ?_
  split
  · repeat' first
      | with_reducible assumption
      | with_reducible apply State.put_keeps
      | with_reducible apply State.putB_keeps
      | with_reducible apply State.onWheel_keeps
  · exact k

end Sys2Proof.Machine
end

