-- ==== Sys2Proof/Laws/KeepsModulator.lean ====
section
/-!
SUPPORT. Each operation of Machine/Modulator.lean keeps the queue of waiting commands and the canonical form of the memories.
-/

namespace Sys2Proof.Machine

open Sys2Proof

set_option linter.all false

theorem State.blankFrom_keeps {root s : State} (h : Keeps root s) (p : Fin 9) (a : Bool) : Keeps root (State.blankFrom s p a) := by
  unfold State.blankFrom
  repeat' first
    | with_reducible assumption
    | with_reducible apply State.onWin_keeps
    | refine Keeps.each ?_ fun _ _ _ => ?_
    | with_reducible apply Keeps.ite
    | split
    | refine Keeps.upd ?_ rfl rfl rfl rfl rfl
    | dsimp only
    | intro _

theorem State.toChannel_keeps {root s : State} (h : Keeps root s) (p n : Fin 9) (c : Fin 2) (on : Bool) :
    Keeps root (State.toChannel s p n c on) := by
  unfold State.toChannel
  refine Keeps.ite h (Keeps.ite (Keeps.ite h (Keeps.ite (State.onChan_keeps h _ _ _) ?_)) (Keeps.when h fun _ k => State.chanReqOff_keeps k _ _))
  exact State.blankFrom_keeps (State.chanReqOn_keeps h _ _) _ _

theorem State.drive_keeps {root s : State} (h : Keeps root s) (p : Fin 9) (pos : Nat) : Keeps root (State.drive s p pos) := by
  unfold State.drive
  repeat' first
    | with_reducible assumption
    | with_reducible apply State.toChannel_keeps
    | with_reducible apply State.onPair_keeps
    | refine Keeps.when ?_ fun _ _ => ?_
    | with_reducible apply Keeps.ite
    | split
    | refine Keeps.upd ?_ rfl rfl rfl rfl rfl
    | dsimp only
    | intro _

theorem State.gatesTold_keeps {root s : State} (h : Keeps root s) (p : Fin 9) (high : BitVec 2) : Keeps root (State.gatesTold s p
    high) := by
  unfold State.gatesTold
  repeat' first
    | with_reducible assumption
    | with_reducible apply State.gateTold_keeps
    | split
    | dsimp only
    | intro _

theorem execEdgeDue_keeps {s out : State} (p : Fin 9) (a : EdgeAt) (e : execEdgeDue p a s = .next out) : Keeps s out := by
  cases e
  repeat' first
    | with_reducible exact Keeps.refl _
    | with_reducible assumption
    | with_reducible apply State.gatesTold_keeps
    | with_reducible apply State.drive_keeps
    | with_reducible apply State.onPair_keeps
    | with_reducible apply State.put_keeps
    | with_reducible apply Keeps.ite
    | split
    | dsimp only
    | intro _

theorem execCompareArrival_keeps {s out : State} (x : ArrivalAt) (e : execCompareArrival x s = .next out) : Keeps s out := by
  cases e
  repeat' first
    | with_reducible exact Keeps.refl _
    | with_reducible assumption
    | with_reducible apply State.onPair_keeps
    | with_reducible apply State.modLater_keeps
    | refine Keeps.each ?_ fun _ _ _ => ?_
    | refine Keeps.when ?_ fun _ _ => ?_
    | with_reducible apply Keeps.ite
    | split
    | dsimp only
    | intro _

theorem execLoadPoint_keeps {s out : State} (a : PairAt) (e : execLoadPoint a s = .next out) : Keeps s out := by
  cases e
  repeat' first
    | with_reducible exact Keeps.refl _
    | with_reducible assumption
    | with_reducible apply State.sourceEvent_keeps
    | with_reducible apply State.onPair_keeps
    | with_reducible apply State.modLater_keeps
    | with_reducible apply State.put_keeps
    | with_reducible apply Keeps.ite
    | split
    | refine Keeps.upd ?_ rfl rfl rfl rfl rfl
    | dsimp only
    | intro _

theorem State.closePeriod_keeps {root s : State} (h : Keeps root s) (p : Fin 9) : Keeps root (State.closePeriod s p) := by
  unfold State.closePeriod
  repeat' first
    | with_reducible assumption
    | with_reducible apply State.onPair_keeps
    | with_reducible apply State.put_keeps
    | with_reducible apply Keeps.ite
    | split
    | refine Keeps.upd ?_ rfl rfl rfl rfl rfl
    | dsimp only
    | intro _

theorem State.closeBoot_keeps {root s : State} (h : Keeps root s) (p : Fin 9) : Keeps root (State.closeBoot s p) := by
  unfold State.closeBoot
  repeat' first
    | with_reducible assumption
    | with_reducible apply State.onTile_keeps
    | with_reducible apply State.put_keeps
    | split
    | refine Keeps.upd ?_ rfl rfl rfl rfl rfl
    | dsimp only
    | intro _

theorem State.tripTest_keeps {root s : State} (h : Keeps root s) (p : Fin 9) : Keeps root (State.tripTest s p) := by
  unfold State.tripTest
  repeat' first
    | with_reducible assumption
    | with_reducible apply State.coneIf_keeps
    | with_reducible apply State.cutPairs_keeps
    | with_reducible apply State.raiseStopAlso_keeps
    | with_reducible apply State.onPair_keeps
    | with_reducible apply State.inc_keeps
    | with_reducible apply State.put_keeps
    | with_reducible apply Keeps.ite
    | split
    | refine Keeps.upd ?_ rfl rfl rfl rfl rfl
    | dsimp only
    | intro _

theorem State.holdTest_keeps {root s : State} (h : Keeps root s) (p : Fin 9) : Keeps root (State.holdTest s p) := by
  unfold State.holdTest
  repeat' first
    | with_reducible assumption
    | with_reducible apply State.onPair_keeps
    | split
    | refine Keeps.upd ?_ rfl rfl rfl rfl rfl
    | dsimp only
    | intro _

theorem State.restartTest_keeps {root s : State} (h : Keeps root s) (p : Fin 9) : Keeps root (State.restartTest s p) := by
  unfold State.restartTest
  repeat' first
    | with_reducible assumption
    | with_reducible apply State.onPair_keeps
    | with_reducible apply State.put_keeps
    | with_reducible apply Keeps.ite
    | split
    | refine Keeps.upd ?_ rfl rfl rfl rfl rfl
    | dsimp only
    | intro _

theorem State.dropRequests_keeps {root s : State} (h : Keeps root s) (p : Fin 9) : Keeps root (State.dropRequests s p) := by
  unfold State.dropRequests
  repeat' first
    | with_reducible assumption
    | with_reducible apply State.toChannel_keeps
    | with_reducible apply Keeps.ite
    | split
    | dsimp only
    | intro _

theorem execPeriodStart_keeps {s out : State} (a : PairGates) (e : execPeriodStart a s = .next out) : Keeps s out := by
  cases e
  repeat' first
    | with_reducible exact Keeps.refl _
    | with_reducible assumption
    | with_reducible apply State.dropRequests_keeps
    | with_reducible apply State.restartTest_keeps
    | with_reducible apply State.holdTest_keeps
    | with_reducible apply State.tripTest_keeps
    | with_reducible apply State.closeBoot_keeps
    | with_reducible apply State.closePeriod_keeps
    | with_reducible apply State.gatesTold_keeps
    | with_reducible apply State.drive_keeps
    | with_reducible apply State.onPair_keeps
    | with_reducible apply State.inc_keeps
    | with_reducible apply State.putB_keeps
    | with_reducible apply State.put_keeps
    | refine Keeps.when ?_ fun _ _ => ?_
    | with_reducible apply Keeps.ite
    | split
    | refine Keeps.upd ?_ rfl rfl rfl rfl rfl
    | dsimp only
    | intro _

theorem State.hopTaken_keeps {root s : State} (h : Keeps root s) : Keeps root (State.hopTaken s) := by
  unfold State.hopTaken
  repeat' first
    | with_reducible assumption
    | with_reducible apply State.putB_keeps
    | with_reducible apply State.withMod_keeps
    | refine Keeps.upd ?_ rfl rfl rfl rfl rfl
    | dsimp only
    | intro _

theorem State.hopApply_keeps {root s : State} (h : Keeps root s) (st : Int) : Keeps root (State.hopApply s st) := by
  unfold State.hopApply
  repeat' first
    | with_reducible assumption
    | with_reducible apply State.hopTaken_keeps
    | with_reducible apply State.onPll_keeps
    | with_reducible apply State.putI_keeps
    | with_reducible apply State.incWrap_keeps
    | with_reducible apply State.put_keeps
    | with_reducible apply State.withMod_keeps
    | with_reducible apply Keeps.ite
    | split
    | refine Keeps.upd ?_ rfl rfl rfl rfl rfl
    | dsimp only
    | intro _

theorem State.hopAwait_keeps {root s : State} (h : Keeps root s) (st : Int) : Keeps root (State.hopAwait s st) := by
  unfold State.hopAwait
  repeat' first
    | with_reducible assumption
    | with_reducible apply State.hopApply_keeps
    | with_reducible apply State.put_keeps
    | with_reducible apply State.withMod_keeps
    | with_reducible apply Keeps.ite
    | split
    | refine Keeps.upd ?_ rfl rfl rfl rfl rfl
    | dsimp only
    | intro _

theorem State.hopEval_keeps {root s : State} (h : Keeps root s) : Keeps root (State.hopEval s) := by
  unfold State.hopEval
  repeat' first
    | with_reducible assumption
    | with_reducible apply State.hopAwait_keeps
    | with_reducible apply State.hopTaken_keeps
    | with_reducible apply State.putB_keeps
    | with_reducible apply State.put_keeps
    | with_reducible apply State.withMod_keeps
    | refine Keeps.when ?_ fun _ _ => ?_
    | with_reducible apply Keeps.ite
    | split
    | refine Keeps.upd ?_ rfl rfl rfl rfl rfl
    | dsimp only
    | intro _

theorem execHopEval_keeps {s out : State} (e : execHopEval s = .next out) : Keeps s out := by
  cases e
  repeat' first
    | with_reducible exact Keeps.refl _
    | with_reducible assumption
    | with_reducible apply State.hopEval_keeps
    | with_reducible apply State.access_keeps
    | dsimp only
    | intro _

theorem quietBandOp_keeps {root s : State} (h : Keeps root s) (k : Fin 8) (hi : Bool) (v : Word) : Keeps root (quietBandOp k hi v s)
    := by
  unfold quietBandOp
  repeat' first
    | with_reducible assumption
    | with_reducible apply State.hopEval_keeps
    | with_reducible apply State.put_keeps
    | with_reducible apply Keeps.ite
    | split
    | dsimp only
    | intro _

theorem execQuietBandWrite_keeps {s out : State} (k : Fin 8) (hi : Bool) (v : Word) (e : execQuietBandWrite k hi v s = .next out) :
    Keeps s out := by
  cases e
  repeat' first
    | with_reducible exact Keeps.refl _
    | with_reducible assumption
    | with_reducible apply quietBandOp_keeps
    | with_reducible apply State.access_keeps
    | dsimp only
    | intro _

theorem State.epochPair_keeps {root s : State} (h : Keeps root s) (p : Fin 9) : Keeps root (State.epochPair s p) := by
  unfold State.epochPair
  repeat' first
    | with_reducible assumption
    | with_reducible apply State.onPair_keeps
    | with_reducible apply State.putI_keeps
    | with_reducible apply State.putB_keeps
    | with_reducible apply State.put_keeps
    | refine Keeps.when ?_ fun _ _ => ?_
    | with_reducible apply Keeps.ite
    | split
    | refine Keeps.upd ?_ rfl rfl rfl rfl rfl
    | dsimp only
    | intro _

theorem State.epochStamp_keeps {root s : State} (h : Keeps root s) : Keeps root (State.epochStamp s) := by
  unfold State.epochStamp
  repeat' first
    | with_reducible assumption
    | with_reducible apply State.tookFree_keeps
    | with_reducible apply State.put_keeps
    | with_reducible apply Keeps.ite
    | split
    | dsimp only
    | intro _

theorem State.sendSync_keeps {root s : State} (h : Keeps root s) : Keeps root (State.sendSync s) := by
  unfold State.sendSync
  repeat' first
    | with_reducible assumption
    | with_reducible apply State.sendPlant_keeps
    | with_reducible apply State.sendFrame_keeps
    | with_reducible apply State.tookFree_keeps
    | refine Keeps.each ?_ fun _ _ _ => ?_
    | refine Keeps.when ?_ fun _ _ => ?_
    | refine Keeps.upd ?_ rfl rfl rfl rfl rfl
    | dsimp only
    | intro _

theorem State.hopEpoch_keeps {root s : State} (h : Keeps root s) (st : Int) : Keeps root (State.hopEpoch s st) := by
  unfold State.hopEpoch
  repeat' first
    | with_reducible assumption
    | with_reducible apply State.hopEval_keeps
    | with_reducible apply State.hopApply_keeps
    | with_reducible apply State.hopTaken_keeps
    | with_reducible apply Keeps.ite
    | split
    | dsimp only
    | intro _

theorem execEpoch_keeps {s out : State} (e : execEpoch s = .next out) : Keeps s out := by
  cases e
  repeat' first
    | with_reducible exact Keeps.refl _
    | with_reducible assumption
    | with_reducible apply State.hopEpoch_keeps
    | with_reducible apply State.sendSync_keeps
    | with_reducible apply State.epochStamp_keeps
    | with_reducible apply State.epochPair_keeps
    | with_reducible apply State.withMod_keeps
    | refine Keeps.each ?_ fun _ _ _ => ?_
    | with_reducible apply Keeps.ite
    | split
    | refine Keeps.upd ?_ rfl rfl rfl rfl rfl
    | dsimp only
    | intro _

theorem State.modRefuse_keeps {root s : State} (h : Keeps root s) (p : Fin 9) : Keeps root (State.modRefuse s p) := by
  unfold State.modRefuse
  repeat' first
    | with_reducible assumption
    | with_reducible apply State.inc_keeps
    | with_reducible apply State.put_keeps
    | dsimp only
    | intro _

theorem periodWriteOp_keeps {root s : State} (h : Keeps root s) (p : Fin 9) (v : Word) : Keeps root (periodWriteOp p v s) := by
  unfold periodWriteOp
  repeat' first
    | with_reducible assumption
    | with_reducible apply State.modRefuse_keeps
    | with_reducible apply State.hopEval_keeps
    | with_reducible apply State.onPair_keeps
    | with_reducible apply State.put_keeps
    | refine Keeps.when ?_ fun _ _ => ?_
    | with_reducible apply Keeps.ite
    | split
    | refine Keeps.upd ?_ rfl rfl rfl rfl rfl
    | dsimp only
    | intro _

theorem execPeriodWrite_keeps {s out : State} (p : Fin 9) (v : Word) (e : execPeriodWrite p v s = .next out) : Keeps s out := by
  cases e
  repeat' first
    | with_reducible exact Keeps.refl _
    | with_reducible assumption
    | with_reducible apply periodWriteOp_keeps
    | with_reducible apply State.access_keeps
    | dsimp only
    | intro _

theorem ovrWriteOp_keeps {root s : State} (h : Keeps root s) (p : Fin 9) (v : Word) : Keeps root (ovrWriteOp p v s) := by
  unfold ovrWriteOp
  repeat' first
    | with_reducible assumption
    | with_reducible apply State.modRefuse_keeps
    | with_reducible apply State.drive_keeps
    | with_reducible apply State.put_keeps
    | with_reducible apply Keeps.ite
    | split
    | dsimp only
    | intro _

theorem execOvrWrite_keeps {s out : State} (p : Fin 9) (v : Word) (e : execOvrWrite p v s = .next out) : Keeps s out := by
  cases e
  repeat' first
    | with_reducible exact Keeps.refl _
    | with_reducible assumption
    | with_reducible apply ovrWriteOp_keeps
    | with_reducible apply State.access_keeps
    | dsimp only
    | intro _

theorem State.pairFiring_keeps {root s : State} (h : Keeps root s) (p : Fin 9) : Keeps root (State.pairFiring s p) := by
  unfold State.pairFiring
  repeat' first
    | with_reducible assumption
    | with_reducible apply State.onPair_keeps
    | with_reducible apply State.putB_keeps
    | with_reducible apply State.put_keeps
    | refine Keeps.upd ?_ rfl rfl rfl rfl rfl
    | dsimp only
    | intro _

theorem State.modFiring_keeps {root s : State} (h : Keeps root s) : Keeps root (State.modFiring s) := by
  unfold State.modFiring
  repeat' first
    | with_reducible assumption
    | with_reducible apply State.pairFiring_keeps
    | with_reducible apply State.hopEval_keeps
    | with_reducible apply State.put_keeps
    | with_reducible apply State.withMod_keeps
    | refine Keeps.each ?_ fun _ _ _ => ?_
    | refine Keeps.upd ?_ rfl rfl rfl rfl rfl
    | dsimp only
    | intro _

end Sys2Proof.Machine
end

