-- ==== Sys2Proof/Laws/KeepsClock.lean ====
section
/-!
SUPPORT. Each operation of Machine/Clock.lean keeps the queue of waiting commands and the canonical form of the memories.
-/

namespace Sys2Proof.Machine

open Sys2Proof

set_option linter.all false

theorem State.strap_keeps {root s : State} (h : Keeps root s) (sel : Nat) : Keeps root (State.strap s sel) := by
  unfold State.strap
  repeat' first
    | with_reducible assumption
    | with_reducible apply State.put_keeps
    | refine Keeps.each ?_ fun _ _ _ => ?_
    | dsimp only
    | intro _

theorem State.clkRefuse_keeps {root s : State} (h : Keeps root s) : Keeps root (State.clkRefuse s) := by
  unfold State.clkRefuse
  repeat' first
    | with_reducible assumption
    | with_reducible apply State.inc_keeps
    | with_reducible apply State.put_keeps
    | dsimp only
    | intro _

theorem State.enterHoldover_keeps {root s : State} (h : Keeps root s) (n : Fin 7) (ref : Bool) : Keeps root (State.enterHoldover s n
    ref) := by
  unfold State.enterHoldover
  repeat' first
    | with_reducible assumption
    | with_reducible apply State.onPll_keeps
    | with_reducible apply State.inc_keeps
    | with_reducible apply State.put_keeps
    | refine Keeps.when ?_ fun _ _ => ?_
    | with_reducible apply Keeps.ite
    | split
    | refine Keeps.upd ?_ rfl rfl rfl rfl rfl
    | dsimp only
    | intro _

theorem execRefLost_keeps {s out : State} (e : execRefLost s = .next out) : Keeps s out := by
  cases e
  repeat' first
    | with_reducible exact Keeps.refl _
    | with_reducible assumption
    | with_reducible apply State.enterHoldover_keeps
    | with_reducible apply State.put_keeps
    | refine Keeps.each ?_ fun _ _ _ => ?_
    | refine Keeps.when ?_ fun _ _ => ?_
    | with_reducible apply Keeps.ite
    | split
    | dsimp only
    | intro _

theorem execRefValid_keeps {s out : State} (e : execRefValid s = .next out) : Keeps s out := by
  cases e
  repeat' first
    | with_reducible exact Keeps.refl _
    | with_reducible assumption
    | with_reducible apply State.put_keeps
    | dsimp only
    | intro _

theorem State.pllEnable_keeps {root s : State} (h : Keeps root s) (n : Fin 7) : Keeps root (State.pllEnable s n) := by
  unfold State.pllEnable
  repeat' first
    | with_reducible assumption
    | with_reducible apply State.enterHoldover_keeps
    | with_reducible apply State.onPll_keeps
    | with_reducible apply State.put_keeps
    | refine Keeps.when ?_ fun _ _ => ?_
    | refine Keeps.upd ?_ rfl rfl rfl rfl rfl
    | dsimp only
    | intro _

theorem State.pllDisable_keeps {root s : State} (h : Keeps root s) (n : Fin 7) : Keeps root (State.pllDisable s n) := by
  unfold State.pllDisable
  repeat' first
    | with_reducible assumption
    | with_reducible apply State.onPll_keeps
    | with_reducible apply State.put_keeps
    | refine Keeps.when ?_ fun _ _ => ?_
    | refine Keeps.upd ?_ rfl rfl rfl rfl rfl
    | dsimp only
    | intro _

theorem pllEnWriteOp_keeps {root s : State} (h : Keeps root s) (n : Fin 7) (en : Bool) : Keeps root (pllEnWriteOp n en s) := by
  unfold pllEnWriteOp
  repeat' first
    | with_reducible assumption
    | with_reducible apply State.pllDisable_keeps
    | with_reducible apply State.pllEnable_keeps
    | with_reducible apply State.clkRefuse_keeps
    | with_reducible apply Keeps.ite
    | split
    | dsimp only
    | intro _

theorem execPllEnWrite_keeps {s out : State} (n : Fin 7) (en : Bool) (e : execPllEnWrite n en s = .next out) : Keeps s out := by
  cases e
  repeat' first
    | with_reducible exact Keeps.refl _
    | with_reducible assumption
    | with_reducible apply pllEnWriteOp_keeps
    | with_reducible apply State.access_keeps
    | dsimp only
    | intro _

theorem pllConfigWriteOp_keeps {root s : State} (h : Keeps root s) (n : Fin 7) (div : Bool) (v : Word) : Keeps root
    (pllConfigWriteOp n div v s) := by
  unfold pllConfigWriteOp
  repeat' first
    | with_reducible assumption
    | with_reducible apply State.clkRefuse_keeps
    | with_reducible apply State.put_keeps
    | with_reducible apply Keeps.ite
    | split
    | dsimp only
    | intro _

theorem execPllConfigWrite_keeps {s out : State} (n : Fin 7) (div : Bool) (v : Word) (e : execPllConfigWrite n div v s = .next out)
    : Keeps s out := by
  cases e
  repeat' first
    | with_reducible exact Keeps.refl _
    | with_reducible assumption
    | with_reducible apply pllConfigWriteOp_keeps
    | with_reducible apply State.access_keeps
    | dsimp only
    | intro _

theorem execPllLock_keeps {s out : State} (n : Fin 7) (e : execPllLock n s = .next out) : Keeps s out := by
  cases e
  repeat' first
    | with_reducible exact Keeps.refl _
    | with_reducible assumption
    | with_reducible apply State.onPll_keeps
    | with_reducible apply State.put_keeps
    | with_reducible apply Keeps.ite
    | split
    | refine Keeps.upd ?_ rfl rfl rfl rfl rfl
    | dsimp only
    | intro _

theorem execPllLockLoss_keeps {s out : State} (n : Fin 7) (e : execPllLockLoss n s = .next out) : Keeps s out := by
  cases e
  repeat' first
    | with_reducible exact Keeps.refl _
    | with_reducible assumption
    | with_reducible apply State.enterHoldover_keeps
    | refine Keeps.when ?_ fun _ _ => ?_
    | dsimp only
    | intro _

theorem execHoldoverExit_keeps {s out : State} (n : Fin 7) (e : execHoldoverExit n s = .next out) : Keeps s out := by
  cases e
  repeat' first
    | with_reducible exact Keeps.refl _
    | with_reducible assumption
    | with_reducible apply State.onPll_keeps
    | with_reducible apply State.putB_keeps
    | with_reducible apply State.put_keeps
    | refine Keeps.when ?_ fun _ _ => ?_
    | with_reducible apply Keeps.ite
    | split
    | refine Keeps.upd ?_ rfl rfl rfl rfl rfl
    | dsimp only
    | intro _

theorem execPllRelock_keeps {s out : State} (n : Fin 7) (e : execPllRelock n s = .next out) : Keeps s out := by
  cases e
  repeat' first
    | with_reducible exact Keeps.refl _
    | with_reducible assumption
    | with_reducible apply State.hopApply_keeps
    | with_reducible apply State.onPll_keeps
    | with_reducible apply State.put_keeps
    | with_reducible apply Keeps.ite
    | split
    | refine Keeps.upd ?_ rfl rfl rfl rfl rfl
    | dsimp only
    | intro _

theorem pllStepOp_keeps {root s : State} (h : Keeps root s) (n : Fin 7) (v : BitVec 4) : Keeps root (pllStepOp n v s) := by
  unfold pllStepOp
  repeat' first
    | with_reducible assumption
    | with_reducible apply State.clkRefuse_keeps
    | with_reducible apply State.onPll_keeps
    | with_reducible apply State.put_keeps
    | with_reducible apply Keeps.ite
    | split
    | refine Keeps.upd ?_ rfl rfl rfl rfl rfl
    | dsimp only
    | intro _

theorem execPllStep_keeps {s out : State} (n : Fin 7) (v : BitVec 4) (e : execPllStep n v s = .next out) : Keeps s out := by
  cases e
  repeat' first
    | with_reducible exact Keeps.refl _
    | with_reducible assumption
    | with_reducible apply pllStepOp_keeps
    | with_reducible apply State.access_keeps
    | dsimp only
    | intro _

theorem execPllStepUnit_keeps {s out : State} (n : Fin 7) (e : execPllStepUnit n s = .next out) : Keeps s out := by
  cases e
  repeat' first
    | with_reducible exact Keeps.refl _
    | with_reducible assumption
    | with_reducible apply State.onPll_keeps
    | with_reducible apply State.put_keeps
    | with_reducible apply Keeps.ite
    | split
    | refine Keeps.upd ?_ rfl rfl rfl rfl rfl
    | dsimp only
    | intro _

theorem execPllStepSettled_keeps {s out : State} (n : Fin 7) (e : execPllStepSettled n s = .next out) : Keeps s out := by
  cases e
  repeat' first
    | with_reducible exact Keeps.refl _
    | with_reducible assumption
    | with_reducible apply State.put_keeps
    | refine Keeps.when ?_ fun _ _ => ?_
    | dsimp only
    | intro _

end Sys2Proof.Machine
end

