-- ==== Sys2Proof/Laws/KeepsLanes.lean ====
section
/-!
SUPPORT. Each operation of Machine/Lanes.lean keeps the queue of waiting commands and the canonical form of the memories.
-/

namespace Sys2Proof.Machine

open Sys2Proof

set_option linter.all false

theorem State.onLane_keeps {root s : State} (h : Keeps root s) (l : Fin 6) (f : LaneUnit → LaneUnit) : Keeps root (State.onLane s l
    f) := by
  unfold State.onLane
  repeat' first
    | with_reducible assumption
    | with_reducible apply State.withLanes_keeps
    | dsimp only
    | intro _

theorem State.laneTiming_keeps {root s : State} (h : Keeps root s) : Keeps root (State.laneTiming s) := by
  unfold State.laneTiming
  repeat' first
    | with_reducible assumption
    | with_reducible apply State.putB_keeps
    | dsimp only
    | intro _

theorem State.laneGo_keeps {root s : State} (h : Keeps root s) (l : Fin 6) (st : Nat) : Keeps root (State.laneGo s l st) := by
  unfold State.laneGo
  repeat' first
    | with_reducible assumption
    | with_reducible apply State.laneTiming_keeps
    | with_reducible apply State.onLane_keeps
    | with_reducible apply State.put_keeps
    | refine Keeps.upd ?_ rfl rfl rfl rfl rfl
    | dsimp only
    | intro _

theorem State.laneTrain_keeps {root s : State} (h : Keeps root s) (l : Fin 6) : Keeps root (State.laneTrain s l) := by
  unfold State.laneTrain
  repeat' first
    | with_reducible assumption
    | with_reducible apply State.laneGo_keeps
    | with_reducible apply State.onLane_keeps
    | refine Keeps.upd ?_ rfl rfl rfl rfl rfl
    | dsimp only
    | intro _

theorem State.laneRefuse_keeps {root s : State} (h : Keeps root s) (l : Fin 6) : Keeps root (State.laneRefuse s l) := by
  unfold State.laneRefuse
  repeat' first
    | with_reducible assumption
    | with_reducible apply State.inc_keeps
    | with_reducible apply State.put_keeps
    | dsimp only
    | intro _

theorem State.askPosition_keeps {root s : State} (h : Keeps root s) (c : Fin 4) (p : Nat) : Keeps root (State.askPosition s c p) :=
    by
  unfold State.askPosition
  repeat' first
    | with_reducible assumption
    | with_reducible apply State.sendFrame_keeps
    | refine Keeps.upd ?_ rfl rfl rfl rfl rfl
    | dsimp only
    | intro _

theorem State.discoverStart_keeps {root s : State} (h : Keeps root s) (c : Fin 4) : Keeps root (State.discoverStart s c) := by
  unfold State.discoverStart
  repeat' first
    | with_reducible assumption
    | with_reducible apply State.askPosition_keeps
    | with_reducible apply State.putBit_keeps
    | with_reducible apply State.withWlk_keeps
    | refine Keeps.upd ?_ rfl rfl rfl rfl rfl
    | dsimp only
    | intro _

theorem State.laneAccess_keeps {root s : State} (h : Keeps root s) (l : Fin 6) (f : State → State) (hf : ∀ u0, Keeps root u0 → Keeps
    root (f u0)) : Keeps root (State.laneAccess s l f) := by
  unfold State.laneAccess
  repeat' first
    | with_reducible assumption
    | with_reducible apply hf
    | with_reducible apply State.access_keeps
    | dsimp only
    | intro _

theorem State.hopMeasure_keeps {root s : State} (h : Keeps root s) : Keeps root (State.hopMeasure s) := by
  unfold State.hopMeasure
  repeat' first
    | with_reducible assumption
    | with_reducible apply State.tookFree_keeps
    | with_reducible apply State.put_keeps
    | with_reducible apply Keeps.ite
    | split
    | dsimp only
    | intro _

theorem execTrainStart_keeps {s out : State} (l : Fin 6) (e : execTrainStart l s = .next out) : Keeps s out := by
  cases e
  repeat' first
    | with_reducible exact Keeps.refl _
    | with_reducible assumption
    | with_reducible apply State.laneTrain_keeps
    | refine Keeps.when ?_ fun _ _ => ?_
    | dsimp only
    | intro _

theorem execTrainComplete_keeps {s out : State} (l : Fin 6) (precodeTx : Bool) (pre : Fin 17) (post : Fin 33) (e : execTrainComplete
    l precodeTx pre post s = .next out) : Keeps s out := by
  cases e
  repeat' first
    | with_reducible exact Keeps.refl _
    | with_reducible assumption
    | with_reducible apply State.hopMeasure_keeps
    | with_reducible apply State.discoverStart_keeps
    | with_reducible apply State.laneGo_keeps
    | with_reducible apply State.onLane_keeps
    | with_reducible apply State.putB_keeps
    | with_reducible apply State.put_keeps
    | refine Keeps.when ?_ fun _ _ => ?_
    | with_reducible apply Keeps.ite
    | split
    | refine Keeps.upd ?_ rfl rfl rfl rfl rfl
    | dsimp only
    | intro _

theorem execTrainAttemptFail_keeps {s out : State} (l : Fin 6) (e : execTrainAttemptFail l s = .next out) : Keeps s out := by
  cases e
  repeat' first
    | with_reducible exact Keeps.refl _
    | with_reducible assumption
    | with_reducible apply State.onLane_keeps
    | with_reducible apply State.put_keeps
    | with_reducible apply Keeps.ite
    | split
    | refine Keeps.upd ?_ rfl rfl rfl rfl rfl
    | dsimp only
    | intro _

theorem execTrainRetry_keeps {s out : State} (l : Fin 6) (e : execTrainRetry l s = .next out) : Keeps s out := by
  cases e
  repeat' first
    | with_reducible exact Keeps.refl _
    | with_reducible assumption
    | with_reducible apply State.put_keeps
    | refine Keeps.when ?_ fun _ _ => ?_
    | dsimp only
    | intro _

theorem State.passReverse_keeps {root s : State} (h : Keeps root s) : Keeps root (State.passReverse s) := by
  unfold State.passReverse
  repeat' first
    | with_reducible assumption
    | with_reducible apply State.send_keeps
    | with_reducible apply Keeps.ite
    | split
    | dsimp only
    | intro _

theorem State.reverse_keeps {root s : State} (h : Keeps root s) : Keeps root (State.reverse s) := by
  unfold State.reverse
  repeat' first
    | with_reducible assumption
    | with_reducible apply State.passReverse_keeps
    | with_reducible apply State.laneTiming_keeps
    | with_reducible apply State.withWlk_keeps
    | with_reducible apply Keeps.ite
    | split
    | refine Keeps.upd ?_ rfl rfl rfl rfl rfl
    | dsimp only
    | intro _

theorem execLaneDown_keeps {s out : State} (l : Fin 6) (ring : Bool) (e : execLaneDown l ring s = .next out) : Keeps s out := by
  cases e
  repeat' first
    | with_reducible exact Keeps.refl _
    | with_reducible assumption
    | with_reducible apply State.reverse_keeps
    | with_reducible apply State.laneGo_keeps
    | with_reducible apply State.onLane_keeps
    | with_reducible apply State.inc_keeps
    | with_reducible apply State.put_keeps
    | with_reducible apply State.withWlk_keeps
    | refine Keeps.when ?_ fun _ _ => ?_
    | with_reducible apply Keeps.ite
    | split
    | refine Keeps.upd ?_ rfl rfl rfl rfl rfl
    | dsimp only
    | intro _

theorem execCodewordUncorrectable_keeps {s out : State} (l : Fin 6) (e : execCodewordUncorrectable l s = .next out) : Keeps s out :=
    by
  cases e
  repeat' first
    | with_reducible exact Keeps.refl _
    | with_reducible assumption
    | with_reducible apply State.inc_keeps
    | refine Keeps.when ?_ fun _ _ => ?_
    | dsimp only
    | intro _

theorem retrainOp_keeps {root s : State} (h : Keeps root s) (l : Fin 6) : Keeps root (retrainOp l s) := by
  unfold retrainOp
  repeat' first
    | with_reducible assumption
    | with_reducible apply State.laneTrain_keeps
    | refine Keeps.when ?_ fun _ _ => ?_
    | dsimp only
    | intro _

theorem execRetrain_keeps {s out : State} (l : Fin 6) (e : execRetrain l s = .next out) : Keeps s out := by
  cases e
  repeat' first
    | with_reducible exact Keeps.refl _
    | with_reducible assumption
    | with_reducible apply retrainOp_keeps
    | with_reducible apply State.laneAccess_keeps
    | dsimp only
    | intro _

theorem State.laneRequest_keeps {root s : State} (h : Keeps root s) (l : Fin 6) (target : Nat) : Keeps root (State.laneRequest s l
    target) := by
  unfold State.laneRequest
  repeat' first
    | with_reducible assumption
    | with_reducible apply State.onLane_keeps
    | refine Keeps.when ?_ fun _ _ => ?_
    | refine Keeps.upd ?_ rfl rfl rfl rfl rfl
    | dsimp only
    | intro _

theorem State.lanePower_keeps {root s : State} (h : Keeps root s) (l : Fin 6) (target : Nat) : Keeps root (State.lanePower s l
    target) := by
  unfold State.lanePower
  repeat' first
    | with_reducible assumption
    | with_reducible apply State.laneRequest_keeps
    | with_reducible apply State.laneRefuse_keeps
    | with_reducible apply Keeps.ite
    | split
    | dsimp only
    | intro _

theorem execL1_keeps {s out : State} (l : Fin 6) (e : execL1 l s = .next out) : Keeps s out := by
  cases e
  repeat' first
    | with_reducible exact Keeps.refl _
    | with_reducible assumption
    | with_reducible apply State.lanePower_keeps
    | with_reducible apply State.laneAccess_keeps
    | dsimp only
    | intro _

theorem execL2_keeps {s out : State} (l : Fin 6) (e : execL2 l s = .next out) : Keeps s out := by
  cases e
  repeat' first
    | with_reducible exact Keeps.refl _
    | with_reducible assumption
    | with_reducible apply State.lanePower_keeps
    | with_reducible apply State.laneAccess_keeps
    | dsimp only
    | intro _

theorem wakeOp_keeps {root s : State} (h : Keeps root s) (l : Fin 6) : Keeps root (wakeOp l s) := by
  unfold wakeOp
  repeat' first
    | with_reducible assumption
    | with_reducible apply State.onLane_keeps
    | refine Keeps.when ?_ fun _ _ => ?_
    | refine Keeps.upd ?_ rfl rfl rfl rfl rfl
    | dsimp only
    | intro _

theorem execWake_keeps {s out : State} (l : Fin 6) (e : execWake l s = .next out) : Keeps s out := by
  cases e
  repeat' first
    | with_reducible exact Keeps.refl _
    | with_reducible assumption
    | with_reducible apply wakeOp_keeps
    | with_reducible apply State.laneAccess_keeps
    | dsimp only
    | intro _

theorem execAutoL1Request_keeps {s out : State} (l : Fin 6) (e : execAutoL1Request l s = .next out) : Keeps s out := by
  cases e
  repeat' first
    | with_reducible exact Keeps.refl _
    | with_reducible assumption
    | with_reducible apply State.laneRequest_keeps
    | refine Keeps.when ?_ fun _ _ => ?_
    | dsimp only
    | intro _

theorem execPowerStateEnter_keeps {s out : State} (l : Fin 6) (l2 : Bool) (e : execPowerStateEnter l l2 s = .next out) : Keeps s out
    := by
  cases e
  repeat' first
    | with_reducible exact Keeps.refl _
    | with_reducible assumption
    | with_reducible apply State.laneGo_keeps
    | with_reducible apply Keeps.ite
    | split
    | dsimp only
    | intro _

theorem execPowerStateLapse_keeps {s out : State} (l : Fin 6) (e : execPowerStateLapse l s = .next out) : Keeps s out := by
  cases e
  repeat' first
    | with_reducible exact Keeps.refl _
    | with_reducible assumption
    | with_reducible apply State.onLane_keeps
    | with_reducible apply State.inc_keeps
    | refine Keeps.when ?_ fun _ _ => ?_
    | refine Keeps.upd ?_ rfl rfl rfl rfl rfl
    | dsimp only
    | intro _

theorem execPowerStateExit_keeps {s out : State} (l : Fin 6) (e : execPowerStateExit l s = .next out) : Keeps s out := by
  cases e
  repeat' first
    | with_reducible exact Keeps.refl _
    | with_reducible assumption
    | with_reducible apply State.hopMeasure_keeps
    | with_reducible apply State.laneGo_keeps
    | refine Keeps.when ?_ fun _ _ => ?_
    | dsimp only
    | intro _

theorem execL2ExitRetrain_keeps {s out : State} (l : Fin 6) (e : execL2ExitRetrain l s = .next out) : Keeps s out := by
  cases e
  repeat' first
    | with_reducible exact Keeps.refl _
    | with_reducible assumption
    | with_reducible apply State.laneTrain_keeps
    | with_reducible apply State.inc_keeps
    | refine Keeps.when ?_ fun _ _ => ?_
    | dsimp only
    | intro _

theorem testEnterOp_keeps {root s : State} (h : Keeps root s) (l : Fin 6) : Keeps root (testEnterOp l s) := by
  unfold testEnterOp
  repeat' first
    | with_reducible assumption
    | with_reducible apply State.laneRefuse_keeps
    | with_reducible apply State.laneGo_keeps
    | with_reducible apply Keeps.ite
    | split
    | dsimp only
    | intro _

theorem execTestEnter_keeps {s out : State} (l : Fin 6) (e : execTestEnter l s = .next out) : Keeps s out := by
  cases e
  repeat' first
    | with_reducible exact Keeps.refl _
    | with_reducible assumption
    | with_reducible apply testEnterOp_keeps
    | with_reducible apply State.laneAccess_keeps
    | dsimp only
    | intro _

theorem testExitOp_keeps {root s : State} (h : Keeps root s) (l : Fin 6) : Keeps root (testExitOp l s) := by
  unfold testExitOp
  repeat' first
    | with_reducible assumption
    | with_reducible apply State.laneTrain_keeps
    | refine Keeps.when ?_ fun _ _ => ?_
    | dsimp only
    | intro _

theorem execTestExit_keeps {s out : State} (l : Fin 6) (e : execTestExit l s = .next out) : Keeps s out := by
  cases e
  repeat' first
    | with_reducible exact Keeps.refl _
    | with_reducible assumption
    | with_reducible apply testExitOp_keeps
    | with_reducible apply State.laneAccess_keeps
    | dsimp only
    | intro _

theorem patCfgWriteOp_keeps {root s : State} (h : Keeps root s) (l : Fin 6) (v : Word) : Keeps root (patCfgWriteOp l v s) := by
  unfold patCfgWriteOp
  repeat' first
    | with_reducible assumption
    | with_reducible apply State.laneRefuse_keeps
    | with_reducible apply State.onLane_keeps
    | with_reducible apply State.tookFree_keeps
    | with_reducible apply State.putB_keeps
    | with_reducible apply State.put_keeps
    | refine Keeps.when ?_ fun _ _ => ?_
    | with_reducible apply Keeps.ite
    | split
    | refine Keeps.upd ?_ rfl rfl rfl rfl rfl
    | dsimp only
    | intro _

theorem execPatCfgWrite_keeps {s out : State} (l : Fin 6) (v : Word) (e : execPatCfgWrite l v s = .next out) : Keeps s out := by
  cases e
  repeat' first
    | with_reducible exact Keeps.refl _
    | with_reducible assumption
    | with_reducible apply patCfgWriteOp_keeps
    | with_reducible apply State.laneAccess_keeps
    | dsimp only
    | intro _

theorem execPatLock_keeps {s out : State} (l : Fin 6) (e : execPatLock l s = .next out) : Keeps s out := by
  cases e
  repeat' first
    | with_reducible exact Keeps.refl _
    | with_reducible assumption
    | with_reducible apply State.put_keeps
    | refine Keeps.when ?_ fun _ _ => ?_
    | dsimp only
    | intro _

theorem execPatLockLost_keeps {s out : State} (l : Fin 6) (bits : DWord) (errs : Word) (e : execPatLockLost l bits errs s = .next
    out) : Keeps s out := by
  cases e
  repeat' first
    | with_reducible exact Keeps.refl _
    | with_reducible assumption
    | with_reducible apply State.addSat_keeps
    | with_reducible apply State.put_keeps
    | refine Keeps.when ?_ fun _ _ => ?_
    | dsimp only
    | intro _

theorem injectOp_keeps {root s : State} (h : Keeps root s) (l : Fin 6) : Keeps root (injectOp l s) := by
  unfold injectOp
  repeat' first
    | with_reducible assumption
    | with_reducible apply State.laneRefuse_keeps
    | with_reducible apply State.onLane_keeps
    | with_reducible apply State.put_keeps
    | with_reducible apply Keeps.ite
    | split
    | refine Keeps.upd ?_ rfl rfl rfl rfl rfl
    | dsimp only
    | intro _

theorem execInject_keeps {s out : State} (l : Fin 6) (e : execInject l s = .next out) : Keeps s out := by
  cases e
  repeat' first
    | with_reducible exact Keeps.refl _
    | with_reducible assumption
    | with_reducible apply injectOp_keeps
    | with_reducible apply State.laneAccess_keeps
    | dsimp only
    | intro _

theorem loopWriteOp_keeps {root s : State} (h : Keeps root s) (l : Fin 6) (v : BitVec 2) : Keeps root (loopWriteOp l v s) := by
  unfold loopWriteOp
  repeat' first
    | with_reducible assumption
    | with_reducible apply State.laneRefuse_keeps
    | with_reducible apply State.put_keeps
    | with_reducible apply Keeps.ite
    | split
    | dsimp only
    | intro _

theorem execLoopWrite_keeps {s out : State} (l : Fin 6) (v : BitVec 2) (e : execLoopWrite l v s = .next out) : Keeps s out := by
  cases e
  repeat' first
    | with_reducible exact Keeps.refl _
    | with_reducible assumption
    | with_reducible apply loopWriteOp_keeps
    | with_reducible apply State.laneAccess_keeps
    | dsimp only
    | intro _

theorem rlbReqOp_keeps {root s : State} (h : Keeps root s) (l : Fin 6) (req : Bool) (answer : Option Bool) : Keeps root (rlbReqOp l
    req answer s) := by
  unfold rlbReqOp
  repeat' first
    | with_reducible assumption
    | with_reducible apply State.laneRefuse_keeps
    | with_reducible apply State.laneTrain_keeps
    | with_reducible apply State.send_keeps
    | with_reducible apply State.put_keeps
    | refine Keeps.when ?_ fun _ _ => ?_
    | with_reducible apply Keeps.ite
    | split
    | dsimp only
    | intro _

theorem execRlbReq_keeps {s out : State} (l : Fin 6) (req : Bool) (answer : Option Bool) (e : execRlbReq l req answer s = .next out)
    : Keeps s out := by
  cases e
  repeat' first
    | with_reducible exact Keeps.refl _
    | with_reducible assumption
    | with_reducible apply rlbReqOp_keeps
    | with_reducible apply State.laneAccess_keeps
    | dsimp only
    | intro _

theorem execRlbRequestReceived_keeps {s out : State} (l : Fin 6) (req : Bool) (e : execRlbRequestReceived l req s = .next out) :
    Keeps s out := by
  cases e
  repeat' first
    | with_reducible exact Keeps.refl _
    | with_reducible assumption
    | with_reducible apply State.laneTrain_keeps
    | with_reducible apply State.send_keeps
    | with_reducible apply State.put_keeps
    | refine Keeps.when ?_ fun _ _ => ?_
    | with_reducible apply Keeps.ite
    | split
    | dsimp only
    | intro _

theorem State.fecTick_keeps {root s : State} (h : Keeps root s) (l : Fin 6) : Keeps root (State.fecTick s l) := by
  unfold State.fecTick
  repeat' first
    | with_reducible assumption
    | with_reducible apply State.tookFree_keeps
    | with_reducible apply State.addSat_keeps
    | with_reducible apply State.inc_keeps
    | refine Keeps.when ?_ fun _ _ => ?_
    | with_reducible apply Keeps.ite
    | split
    | dsimp only
    | intro _

theorem State.patTick_keeps {root s : State} (h : Keeps root s) (l : Fin 6) : Keeps root (State.patTick s l) := by
  unfold State.patTick
  repeat' first
    | with_reducible assumption
    | with_reducible apply State.onLane_keeps
    | with_reducible apply State.tookFree_keeps
    | with_reducible apply State.addSat_keeps
    | with_reducible apply State.put_keeps
    | refine Keeps.when ?_ fun _ _ => ?_
    | with_reducible apply Keeps.ite
    | split
    | refine Keeps.upd ?_ rfl rfl rfl rfl rfl
    | dsimp only
    | intro _

theorem State.tickLane_keeps {root s : State} (h : Keeps root s) (l : Fin 6) : Keeps root (State.tickLane s l) := by
  unfold State.tickLane
  repeat' first
    | with_reducible assumption
    | with_reducible apply State.patTick_keeps
    | with_reducible apply State.fecTick_keeps
    | with_reducible apply State.onLane_keeps
    | with_reducible apply Keeps.ite
    | split
    | refine Keeps.upd ?_ rfl rfl rfl rfl rfl
    | dsimp only
    | intro _

theorem execEyeMeasure_keeps {s out : State} (l : Fin 6) (eye : Fin 3) (h v : BitVec 10) (e : execEyeMeasure l eye h v s = .next
    out) : Keeps s out := by
  cases e
  repeat' first
    | with_reducible exact Keeps.refl _
    | with_reducible assumption
    | with_reducible apply State.grogEye_keeps
    | with_reducible apply State.grogReport_keeps
    | with_reducible apply State.put_keeps
    | refine Keeps.when ?_ fun _ _ => ?_
    | with_reducible apply Keeps.ite
    | split
    | dsimp only
    | intro _

theorem State.laneFiring_keeps {root s : State} (h : Keeps root s) (l : Fin 6) (oldRole oldGen : Nat) : Keeps root (State.laneFiring
    s l oldRole oldGen) := by
  unfold State.laneFiring
  repeat' first
    | with_reducible assumption
    | with_reducible apply State.laneTrain_keeps
    | with_reducible apply State.laneGo_keeps
    | with_reducible apply State.onLane_keeps
    | with_reducible apply Keeps.ite
    | split
    | refine Keeps.upd ?_ rfl rfl rfl rfl rfl
    | dsimp only
    | intro _

end Sys2Proof.Machine
end

