-- ==== Sys2Proof/Laws/KeepsNet.lean ====
section
/-!
SUPPORT. Each operation of Machine/Net.lean keeps the queue of waiting commands and the canonical form of the memories.
-/

namespace Sys2Proof.Machine

open Sys2Proof

set_option linter.all false

theorem State.onMac_keeps {root s : State} (h : Keeps root s) (m : Fin 2) (f : Mac → Mac) : Keeps root (State.onMac s m f) := by
  unfold State.onMac
  repeat' first
    | with_reducible assumption
    | with_reducible apply State.withNet_keeps
    | refine Keeps.upd ?_ rfl rfl rfl rfl rfl
    | dsimp only
    | intro _

theorem State.netAccess_keeps {root s : State} (h : Keeps root s) (f : State → State) (hf : ∀ u0, Keeps root u0 → Keeps root (f u0))
    : Keeps root (State.netAccess s f) := by
  unfold State.netAccess
  repeat' first
    | with_reducible assumption
    | with_reducible apply hf
    | with_reducible apply State.access_keeps
    | dsimp only
    | intro _

theorem State.ptpRefused_keeps {root s : State} (h : Keeps root s) : Keeps root (State.ptpRefused s) := by
  unfold State.ptpRefused
  repeat' first
    | with_reducible assumption
    | with_reducible apply State.inc_keeps
    | with_reducible apply State.put_keeps
    | dsimp only
    | intro _

theorem State.ptpAdvance_keeps {root s : State} (h : Keeps root s) (n : Nat) : Keeps root (State.ptpAdvance s n) := by
  unfold State.ptpAdvance
  repeat' first
    | with_reducible assumption
    | with_reducible apply State.withNet_keeps
    | refine Keeps.upd ?_ rfl rfl rfl rfl rfl
    | dsimp only
    | intro _

theorem State.ptpStep_keeps {root s : State} (h : Keeps root s) (p : Ptp) : Keeps root (State.ptpStep s p) := by
  unfold State.ptpStep
  repeat' first
    | with_reducible assumption
    | with_reducible apply State.onGroup_keeps
    | with_reducible apply State.put_keeps
    | with_reducible apply State.withNet_keeps
    | refine Keeps.each ?_ fun _ _ _ => ?_
    | with_reducible apply Keeps.ite
    | split
    | refine Keeps.upd ?_ rfl rfl rfl rfl rfl
    | dsimp only
    | intro _

theorem State.ptpIncTake_keeps {root s : State} (h : Keeps root s) (n : Nat) : Keeps root (State.ptpIncTake s n) := by
  unfold State.ptpIncTake
  repeat' first
    | with_reducible assumption
    | with_reducible apply State.put_keeps
    | with_reducible apply State.withNet_keeps
    | refine Keeps.upd ?_ rfl rfl rfl rfl rfl
    | dsimp only
    | intro _

theorem ptpIncWriteOp_keeps {root s : State} (h : Keeps root s) (half : Option Bool) (v : DWord) : Keeps root (ptpIncWriteOp half v
    s) := by
  unfold ptpIncWriteOp
  repeat' first
    | with_reducible assumption
    | with_reducible apply State.ptpIncTake_keeps
    | with_reducible apply State.ptpRefused_keeps
    | with_reducible apply State.inc_keeps
    | with_reducible apply State.withNet_keeps
    | with_reducible apply Keeps.ite
    | split
    | refine Keeps.upd ?_ rfl rfl rfl rfl rfl
    | dsimp only
    | intro _

theorem execPtpIncWrite_keeps {s out : State} (half : Option Bool) (v : DWord) (e : execPtpIncWrite half v s = .next out) : Keeps s
    out := by
  cases e
  repeat' first
    | with_reducible exact Keeps.refl _
    | with_reducible assumption
    | with_reducible apply ptpIncWriteOp_keeps
    | with_reducible apply State.netAccess_keeps
    | dsimp only
    | intro _

theorem ptpOfsWriteOp_keeps {root s : State} (h : Keeps root s) (v : Word) : Keeps root (ptpOfsWriteOp v s) := by
  unfold ptpOfsWriteOp
  repeat' first
    | with_reducible assumption
    | with_reducible apply State.ptpStep_keeps
    | with_reducible apply State.ptpRefused_keeps
    | with_reducible apply State.inc_keeps
    | with_reducible apply Keeps.ite
    | split
    | dsimp only
    | intro _

theorem execPtpOfsWrite_keeps {s out : State} (v : Word) (e : execPtpOfsWrite v s = .next out) : Keeps s out := by
  cases e
  repeat' first
    | with_reducible exact Keeps.refl _
    | with_reducible assumption
    | with_reducible apply ptpOfsWriteOp_keeps
    | with_reducible apply State.netAccess_keeps
    | dsimp only
    | intro _

theorem ptpSetOp_keeps {root s : State} (h : Keeps root s) : Keeps root (ptpSetOp s) := by
  unfold ptpSetOp
  repeat' first
    | with_reducible assumption
    | with_reducible apply State.ptpStep_keeps
    | with_reducible apply State.ptpRefused_keeps
    | with_reducible apply Keeps.ite
    | split
    | dsimp only
    | intro _

theorem execPtpSet_keeps {s out : State} (e : execPtpSet s = .next out) : Keeps s out := by
  cases e
  repeat' first
    | with_reducible exact Keeps.refl _
    | with_reducible assumption
    | with_reducible apply ptpSetOp_keeps
    | with_reducible apply State.netAccess_keeps
    | dsimp only
    | intro _

theorem State.ptpSetValid_keeps {root s : State} (h : Keeps root s) (b : Bool) : Keeps root (State.ptpSetValid s b) := by
  unfold State.ptpSetValid
  repeat' first
    | with_reducible assumption
    | with_reducible apply State.putB_keeps
    | with_reducible refine State.withMet_keeps ?_ _ rfl
    | refine Keeps.when ?_ fun _ _ => ?_
    | with_reducible apply Keeps.ite
    | split
    | refine Keeps.upd ?_ rfl rfl rfl rfl rfl
    | dsimp only
    | intro _

theorem State.followValid_keeps {root s : State} (h : Keeps root s) : Keeps root (State.followValid s) := by
  unfold State.followValid
  repeat' first
    | with_reducible assumption
    | with_reducible apply State.ptpSetValid_keeps
    | with_reducible apply Keeps.ite
    | split
    | dsimp only
    | intro _

theorem execSetValid_keeps {s out : State} (e : execSetValid s = .next out) : Keeps s out := by
  cases e
  repeat' first
    | with_reducible exact Keeps.refl _
    | with_reducible assumption
    | with_reducible apply State.ptpSetValid_keeps
    | with_reducible apply State.netAccess_keeps
    | with_reducible apply Keeps.ite
    | split
    | dsimp only
    | intro _

theorem execClrValid_keeps {s out : State} (e : execClrValid s = .next out) : Keeps s out := by
  cases e
  repeat' first
    | with_reducible exact Keeps.refl _
    | with_reducible assumption
    | with_reducible apply State.ptpSetValid_keeps
    | with_reducible apply State.netAccess_keeps
    | with_reducible apply Keeps.ite
    | split
    | dsimp only
    | intro _

theorem ptpNowReadOp_keeps {root s : State} (h : Keeps root s) : Keeps root (ptpNowReadOp s).1 := by
  unfold ptpNowReadOp
  try dsimp only
  repeat' first
    | with_reducible assumption
    | split
    | with_reducible apply State.put_keeps
    | dsimp only
    | intro _

theorem execPtpNowRead_keeps {s out : State} (e : execPtpNowRead s = .next out) : Keeps s out := by
  cases e
  repeat' first
    | with_reducible exact Keeps.refl _
    | with_reducible assumption
    | with_reducible apply ptpNowReadOp_keeps
    | with_reducible apply State.accessV_keeps
    | dsimp only
    | intro _

theorem State.macRefuse_keeps {root s : State} (h : Keeps root s) (m : Fin 2) : Keeps root (State.macRefuse s m) := by
  unfold State.macRefuse
  repeat' first
    | with_reducible assumption
    | with_reducible apply State.inc_keeps
    | dsimp only
    | intro _

theorem macEnWriteOp_keeps {root s : State} (h : Keeps root s) (m : Fin 2) (v : Word) : Keeps root (macEnWriteOp m v s) := by
  unfold macEnWriteOp
  repeat' first
    | with_reducible assumption
    | with_reducible apply State.macRefuse_keeps
    | with_reducible apply State.onMac_keeps
    | with_reducible apply State.putB_keeps
    | with_reducible apply State.put_keeps
    | with_reducible apply Keeps.ite
    | split
    | refine Keeps.upd ?_ rfl rfl rfl rfl rfl
    | dsimp only
    | intro _

theorem execMacEnWrite_keeps {s out : State} (m : Fin 2) (v : Word) (e : execMacEnWrite m v s = .next out) : Keeps s out := by
  cases e
  repeat' first
    | with_reducible exact Keeps.refl _
    | with_reducible assumption
    | with_reducible apply macEnWriteOp_keeps
    | with_reducible apply State.netAccess_keeps
    | dsimp only
    | intro _

theorem State.sendPause_keeps {root s : State} (h : Keeps root s) (m : Fin 2) (stop : Bool) : Keeps root (State.sendPause s m stop)
    := by
  unfold State.sendPause
  repeat' first
    | with_reducible assumption
    | with_reducible apply State.onMac_keeps
    | with_reducible apply State.send_keeps
    | with_reducible apply Keeps.ite
    | split
    | refine Keeps.upd ?_ rfl rfl rfl rfl rfl
    | dsimp only
    | intro _

theorem kickOp_keeps {root s : State} (h : Keeps root s) (m : Fin 2) : Keeps root (kickOp m s) := by
  unfold kickOp
  repeat' first
    | with_reducible assumption
    | with_reducible apply State.sendPause_keeps
    | with_reducible apply State.onMac_keeps
    | refine Keeps.when ?_ fun _ _ => ?_
    | refine Keeps.upd ?_ rfl rfl rfl rfl rfl
    | dsimp only
    | intro _

theorem execKick_keeps {s out : State} (m : Fin 2) (e : execKick m s = .next out) : Keeps s out := by
  cases e
  repeat' first
    | with_reducible exact Keeps.refl _
    | with_reducible assumption
    | with_reducible apply kickOp_keeps
    | with_reducible apply State.netAccess_keeps
    | dsimp only
    | intro _

theorem execMacLinkChange_keeps {s out : State} (m : Fin 2) (up : Bool) (rate : BitVec 2) (e : execMacLinkChange m up rate s = .next
    out) : Keeps s out := by
  cases e
  repeat' first
    | with_reducible exact Keeps.refl _
    | with_reducible assumption
    | with_reducible apply State.putB_keeps
    | with_reducible apply State.put_keeps
    | refine Keeps.when ?_ fun _ _ => ?_
    | dsimp only
    | intro _

theorem State.tsPush_keeps {root s : State} (h : Keeps root s) (m : Fin 2) (e : TsEntry) : Keeps root (State.tsPush s m e) := by
  unfold State.tsPush
  repeat' first
    | with_reducible assumption
    | with_reducible apply State.onMac_keeps
    | with_reducible apply State.inc_keeps
    | with_reducible apply State.put_keeps
    | with_reducible apply Keeps.ite
    | split
    | refine Keeps.upd ?_ rfl rfl rfl rfl rfl
    | dsimp only
    | intro _

theorem State.secTake_keeps {root s : State} (h : Keeps root s) (m : Fin 2) (a : Fin 4) (bypass : Bool) :
    Keeps root (State.secTake s m a bypass).1 := by
  unfold State.secTake
  dsimp only
  split
  · exact h
  · split
    · dsimp only
      exact State.put_keeps (State.inc_keeps h _) _ _
    · dsimp only
      exact Keeps.when (Keeps.when (State.onMac_keeps h _ _) fun _ k => State.put_keeps k _ _) fun _ k => State.put_keeps k _ _

theorem execMacFrameTx_keeps {s out : State} (m : Fin 2) (a : Fin 4) (e : execMacFrameTx m a s = .next out) : Keeps s out := by
  cases e
  repeat' first
    | with_reducible exact Keeps.refl _
    | with_reducible assumption
    | with_reducible apply State.secTake_keeps
    | with_reducible apply State.tsPush_keeps
    | with_reducible apply State.onMac_keeps
    | with_reducible apply State.send_keeps
    | with_reducible apply State.put_keeps
    | with_reducible apply State.withSram_keeps
    | refine Keeps.when ?_ fun _ _ => ?_
    | with_reducible apply Keeps.ite
    | split
    | refine Keeps.upd ?_ rfl rfl rfl rfl rfl
    | exact cellsWf_put (by assumption)
    | exact cellsWf_foldl (by assumption) fun _ _ g => cellsWf_put g
    | with_reducible apply Ram.wf_write
    | with_reducible apply Ram.wf_store
    | with_reducible apply Ram.wf_staged
    | dsimp only
    | intro _

theorem State.secCheck_keeps {root s : State} (h : Keeps root s) (m : Fin 2) (tag : Option SecTag) (icvOk : Bool) (bypass :
    Bool) : Keeps root (State.secCheck s m tag icvOk bypass).1 := by
  unfold State.secCheck
  try dsimp only
  repeat' first
    | with_reducible assumption
    | split
    | with_reducible apply State.onMac_keeps
    | with_reducible apply Keeps.ite
    | refine Keeps.upd ?_ rfl rfl rfl rfl rfl
    | dsimp only
    | intro _

theorem State.storeFrame_keeps {root s : State} (h : Keeps root s) (m : Fin 2) (d : Nat) (bytes : List Byte) (st : Nat) : Keeps root
    (State.storeFrame s m d bytes st) := by
  unfold State.storeFrame
  repeat' first
    | with_reducible assumption
    | with_reducible apply State.onMac_keeps
    | with_reducible apply State.put_keeps
    | with_reducible apply State.withSram_keeps
    | refine Keeps.upd ?_ rfl rfl rfl rfl rfl
    | exact cellsWf_put (by assumption)
    | exact cellsWf_foldl (by assumption) fun _ _ g => cellsWf_put g
    | with_reducible apply Ram.wf_write
    | with_reducible apply Ram.wf_store
    | with_reducible apply Ram.wf_staged
    | dsimp only
    | intro _

theorem execMacFrameRx_keeps {s out : State} (m : Fin 2) (bytes : List Byte) (crcOk : Bool) (tag : Option SecTag) (icvOk : Bool)
    (e : execMacFrameRx m bytes crcOk tag icvOk s = .next out) : Keeps s out := by
  cases e
  repeat' first
    | with_reducible exact Keeps.refl _
    | with_reducible assumption
    | with_reducible apply State.storeFrame_keeps
    | with_reducible apply State.secCheck_keeps
    | with_reducible apply State.sendPause_keeps
    | with_reducible apply State.onMac_keeps
    | with_reducible apply State.put_keeps
    | refine Keeps.when ?_ fun _ _ => ?_
    | with_reducible apply Keeps.ite
    | split
    | refine Keeps.upd ?_ rfl rfl rfl rfl rfl
    | dsimp only
    | intro _

theorem State.onUart_keeps {root s : State} (h : Keeps root s) (i : Fin 4) (x : List Word × Nat) : Keeps root (State.onUart s i x)
    := by
  unfold State.onUart
  repeat' first
    | with_reducible assumption
    | with_reducible apply State.withNet_keeps
    | refine Keeps.upd ?_ rfl rfl rfl rfl rfl
    | dsimp only
    | intro _

theorem uartDataOp_keeps {root s : State} (h : Keeps root s) (i : Fin 4) (v : Word) : Keeps root (uartDataOp i v s) := by
  unfold uartDataOp
  repeat' first
    | with_reducible assumption
    | with_reducible apply State.onUart_keeps
    | with_reducible apply Keeps.ite
    | split
    | dsimp only
    | intro _

theorem State.tickUart_keeps {root s : State} (h : Keeps root s) (i : Fin 4) : Keeps root (State.tickUart s i) := by
  unfold State.tickUart
  repeat' first
    | with_reducible assumption
    | with_reducible apply State.onUart_keeps
    | with_reducible apply State.send_keeps
    | with_reducible apply State.put_keeps
    | refine Keeps.when ?_ fun _ _ => ?_
    | with_reducible apply Keeps.ite
    | split
    | dsimp only
    | intro _

theorem canSendOp_keeps {root s : State} (h : Keeps root s) (base : Nat) : Keeps root (canSendOp base s) := by
  unfold canSendOp
  repeat' first
    | with_reducible assumption
    | with_reducible apply State.send_keeps
    | refine Keeps.each ?_ fun _ _ _ => ?_
    | dsimp only
    | intro _

theorem State.tickMacs_keeps {root s : State} (h : Keeps root s) : Keeps root (State.tickMacs s) := by
  unfold State.tickMacs
  repeat' first
    | with_reducible assumption
    | with_reducible apply State.put_keeps
    | with_reducible apply State.withNet_keeps
    | refine Keeps.each ?_ fun _ _ _ => ?_
    | refine Keeps.when ?_ fun _ _ => ?_
    | refine Keeps.upd ?_ rfl rfl rfl rfl rfl
    | dsimp only
    | intro _

theorem State.tickUarts_keeps {root s : State} (h : Keeps root s) : Keeps root (State.tickUarts s) := by
  unfold State.tickUarts
  repeat' first
    | with_reducible assumption
    | with_reducible apply State.tickUart_keeps
    | refine Keeps.each ?_ fun _ _ _ => ?_
    | refine Keeps.when ?_ fun _ _ => ?_
    | dsimp only
    | intro _

theorem State.lqLevel_keeps {root s : State} (h : Keeps root s) (m : Fin 2) : Keeps root (State.lqLevel s m) := by
  unfold State.lqLevel
  repeat' first
    | with_reducible assumption
    | with_reducible apply State.put_keeps
    | dsimp only
    | intro _

theorem lqCommitOp_keeps {root s : State} (h : Keeps root s) (m : Fin 2) (v : Word) : Keeps root (lqCommitOp m v s) := by
  unfold lqCommitOp
  repeat' first
    | with_reducible assumption
    | with_reducible apply State.lqLevel_keeps
    | with_reducible apply State.onMac_keeps
    | with_reducible apply State.inc_keeps
    | with_reducible apply State.put_keeps
    | with_reducible apply Keeps.ite
    | split
    | refine Keeps.upd ?_ rfl rfl rfl rfl rfl
    | dsimp only
    | intro _

theorem execLqCommit_keeps {s out : State} (m : Fin 2) (v : Word) (e : execLqCommit m v s = .next out) : Keeps s out := by
  cases e
  repeat' first
    | with_reducible exact Keeps.refl _
    | with_reducible assumption
    | with_reducible apply lqCommitOp_keeps
    | with_reducible apply State.netAccess_keeps
    | dsimp only
    | intro _

theorem flushOp_keeps {root s : State} (h : Keeps root s) (m : Fin 2) : Keeps root (flushOp m s) := by
  unfold flushOp
  repeat' first
    | with_reducible assumption
    | with_reducible apply State.lqLevel_keeps
    | with_reducible apply State.onMac_keeps
    | refine Keeps.upd ?_ rfl rfl rfl rfl rfl
    | dsimp only
    | intro _

theorem execFlush_keeps {s out : State} (m : Fin 2) (e : execFlush m s = .next out) : Keeps s out := by
  cases e
  repeat' first
    | with_reducible exact Keeps.refl _
    | with_reducible assumption
    | with_reducible apply flushOp_keeps
    | with_reducible apply State.netAccess_keeps
    | dsimp only
    | intro _

theorem execLaunchDue_keeps {s out : State} (m : Fin 2) (a : Fin 4) (e : execLaunchDue m a s = .next out) : Keeps s out := by
  cases e
  repeat' first
    | with_reducible exact Keeps.refl _
    | with_reducible assumption
    | with_reducible apply State.lqLevel_keeps
    | with_reducible apply State.secTake_keeps
    | with_reducible apply State.tsPush_keeps
    | with_reducible apply State.onMac_keeps
    | with_reducible apply State.send_keeps
    | with_reducible apply State.tookFree_keeps
    | with_reducible apply State.inc_keeps
    | with_reducible apply State.put_keeps
    | refine Keeps.when ?_ fun _ _ => ?_
    | with_reducible apply Keeps.ite
    | split
    | refine Keeps.upd ?_ rfl rfl rfl rfl rfl
    | dsimp only
    | intro _

theorem tsqReadOp_keeps {root s : State} (h : Keeps root s) (m : Fin 2) (half : Option Bool) : Keeps root (tsqReadOp m half s).1 :=
    by
  unfold tsqReadOp
  try dsimp only
  repeat' first
    | with_reducible assumption
    | split
    | with_reducible apply State.onMac_keeps
    | with_reducible apply State.put_keeps
    | refine Keeps.upd ?_ rfl rfl rfl rfl rfl
    | dsimp only
    | intro _

theorem execTsqRead_keeps {s out : State} (m : Fin 2) (half : Option Bool) (e : execTsqRead m half s = .next out) : Keeps s out :=
    by
  cases e
  repeat' first
    | with_reducible exact Keeps.refl _
    | with_reducible assumption
    | with_reducible apply tsqReadOp_keeps
    | with_reducible apply State.accessV_keeps
    | dsimp only
    | intro _

end Sys2Proof.Machine
end

