-- ==== Sys2Proof/Laws/KeepsPlant.lean ====
section
/-!
SUPPORT. Each operation of Machine/Plant.lean keeps the queue of waiting commands and the canonical form of the memories.
-/

namespace Sys2Proof.Machine

open Sys2Proof

set_option linter.all false

theorem State.wlkRefuse_keeps {root s : State} (h : Keeps root s) : Keeps root (State.wlkRefuse s) := by
  unfold State.wlkRefuse
  repeat' first
    | with_reducible assumption
    | with_reducible apply State.inc_keeps
    | with_reducible apply State.put_keeps
    | dsimp only
    | intro _

theorem State.frameDiscard_keeps {root s : State} (h : Keeps root s) (lane : Fin 6) : Keeps root (State.frameDiscard s lane) := by
  unfold State.frameDiscard
  repeat' first
    | with_reducible assumption
    | with_reducible apply State.inc_keeps
    | dsimp only
    | intro _

theorem State.onWlk_keeps {root s : State} (h : Keeps root s) (f : Wlk → Wlk) : Keeps root (State.onWlk s f) := by
  unfold State.onWlk
  repeat' first
    | with_reducible assumption
    | with_reducible apply State.withWlk_keeps
    | dsimp only
    | intro _

theorem State.passDiscard_keeps {root s : State} (h : Keeps root s) : Keeps root (State.passDiscard s) := by
  unfold State.passDiscard
  repeat' first
    | with_reducible assumption
    | with_reducible apply State.frameDiscard_keeps
    | with_reducible apply State.passDown_keeps
    | dsimp only
    | intro _

theorem execCtrlLaunch_keeps {s out : State} (e : execCtrlLaunch s = .next out) : Keeps s out := by
  cases e
  refine Keeps.ite (Keeps.refl _) (Keeps.upd (State.onWlk_keeps (Keeps.each (Keeps.refl _) fun _ _ k => ?_) _) rfl rfl rfl rfl rfl)
  exact Keeps.when k fun _ k => State.send_keeps k _

theorem execCtrlFrame_keeps {s out : State} (crcOk : Bool) (f : CtrlFrame) (e : execCtrlFrame crcOk f s = .next out) : Keeps s out
    := by
  cases e
  repeat' first
    | with_reducible exact Keeps.refl _
    | with_reducible assumption
    | with_reducible apply State.passDiscard_keeps
    | with_reducible apply State.onWlk_keeps
    | with_reducible apply State.raiseStop_keeps
    | with_reducible apply State.passDown_keeps
    | with_reducible apply State.inc_keeps
    | with_reducible apply State.put_keeps
    | refine Keeps.when ?_ fun _ _ => ?_
    | with_reducible apply Keeps.ite
    | split
    | refine Keeps.upd ?_ rfl rfl rfl rfl rfl
    | dsimp only
    | intro _

theorem State.workerBoundary_keeps {root s : State} (h : Keeps root s) : Keeps root (State.workerBoundary s) := by
  unfold State.workerBoundary
  repeat' first
    | with_reducible assumption
    | with_reducible apply State.onWlk_keeps
    | with_reducible apply State.hopAwait_keeps
    | with_reducible apply State.hopTaken_keeps
    | with_reducible apply State.islFromManager_keeps
    | with_reducible apply State.sendFrame_keeps
    | with_reducible apply State.publishBy_keeps
    | refine Keeps.each ?_ fun _ _ _ => ?_
    | with_reducible apply Keeps.ite
    | split
    | refine Keeps.upd ?_ rfl rfl rfl rfl rfl
    | dsimp only
    | intro _

theorem State.managerBoundary_keeps {root s : State} (h : Keeps root s) : Keeps root (State.managerBoundary s) := by
  unfold State.managerBoundary
  repeat' first
    | with_reducible assumption
    | with_reducible apply State.onWlk_keeps
    | with_reducible apply State.hopAwait_keeps
    | with_reducible apply State.islFromManager_keeps
    | with_reducible apply State.send_keeps
    | with_reducible apply State.inc_keeps
    | with_reducible apply State.put_keeps
    | with_reducible apply State.withMod_keeps
    | refine Keeps.each ?_ fun _ _ _ => ?_
    | with_reducible apply Keeps.ite
    | split
    | refine Keeps.upd ?_ rfl rfl rfl rfl rfl
    | dsimp only
    | intro _

theorem State.ringKeepAlive_keeps {root s : State} (h : Keeps root s) : Keeps root (State.ringKeepAlive s) := by
  unfold State.ringKeepAlive
  repeat' first
    | with_reducible assumption
    | with_reducible apply State.send_keeps
    | refine Keeps.each ?_ fun _ _ _ => ?_
    | with_reducible apply Keeps.ite
    | split
    | dsimp only
    | intro _

theorem execPlantPeriodBoundary_keeps {s out : State} (n : Word) (e : execPlantPeriodBoundary n s = .next out) : Keeps s out := by
  cases e
  repeat' first
    | with_reducible exact Keeps.refl _
    | with_reducible assumption
    | with_reducible apply State.ringKeepAlive_keeps
    | with_reducible apply State.managerBoundary_keeps
    | with_reducible apply State.workerBoundary_keeps
    | with_reducible apply State.onWlk_keeps
    | with_reducible apply State.sourceEvent_keeps
    | with_reducible apply State.onIsl_keeps
    | with_reducible apply State.onGroup_keeps
    | refine Keeps.each ?_ fun _ _ _ => ?_
    | with_reducible apply Keeps.ite
    | split
    | refine Keeps.upd ?_ rfl rfl rfl rfl rfl
    | dsimp only
    | intro _

theorem execLinkLoss_keeps {s out : State} (e : execLinkLoss s = .next out) : Keeps s out := by
  cases e
  repeat' first
    | with_reducible exact Keeps.refl _
    | with_reducible assumption
    | with_reducible apply State.supvStop_keeps
    | refine Keeps.when ?_ fun _ _ => ?_
    | dsimp only
    | intro _

theorem State.setCredits_keeps {root s : State} (h : Keeps root s) (w req bulk : Nat) : Keeps root (State.setCredits s w req bulk)
    := by
  unfold State.setCredits
  repeat' first
    | with_reducible assumption
    | with_reducible apply State.onWlk_keeps
    | refine Keeps.upd ?_ rfl rfl rfl rfl rfl
    | dsimp only
    | intro _

theorem State.pumpReq_keeps {root s : State} (h : Keeps root s) : Keeps root (State.pumpReq s) := by
  unfold State.pumpReq
  generalize s.wlk.tags = l
  have k : Keeps root (s.onWlk fun x => { x with tags := [] }, ([] : List Nat)).1 := by
    dsimp only
    exact State.onWlk_keeps h _
  revert k
  generalize (s.onWlk fun x => { x with tags := [] }, ([] : List Nat)) = p
  intro k
  dsimp only
  induction l generalizing p with
  | nil => exact k
  | cons t l ih =>
    refine ih _ ?_
    dsimp only
    split
    · dsimp only
      exact State.onWlk_keeps k _
    · split
      · dsimp only
        refine State.onWlk_keeps (Keeps.each (Keeps.each k fun _ _ k => ?_) fun _ _ k => ?_) _
        · exact State.setCredits_keeps k _ _ _
        · exact State.send_keeps k _
      · dsimp only
        exact State.onWlk_keeps k _

theorem State.takeBulk_keeps {root s : State} (h : Keeps root s) (ws : List Nat) : Keeps root (State.takeBulk s ws) := by
  unfold State.takeBulk
  repeat' first
    | with_reducible assumption
    | with_reducible apply State.setCredits_keeps
    | refine Keeps.each ?_ fun _ _ _ => ?_
    | dsimp only
    | intro _

theorem State.pumpBulk_keeps {root s : State} (h : Keeps root s) (fuel : Nat) : Keeps root (State.pumpBulk s fuel) := by
  induction fuel generalizing s with
  | zero => exact h
  | succ n ih =>
    unfold State.pumpBulk
    split
    · exact h
    · refine Keeps.ite h (Keeps.ite (State.onWlk_keeps (Keeps.each (State.takeBulk_keeps h _) fun _ _ k => ?_) _)
        (ih (State.onWlk_keeps (Keeps.each (State.takeBulk_keeps h _) fun _ _ k => ?_) _)))
      all_goals exact State.sendFrame_keeps k _ _ _ _

theorem State.pumpUp_keeps {root s : State} (h : Keeps root s) (fuel : Nat) : Keeps root (State.pumpUp s fuel) := by
  induction fuel generalizing s with
  | zero => exact h
  | succ n ih =>
    unfold State.pumpUp
    refine Keeps.ite (ih (State.onWlk_keeps (State.sendFrame_keeps h _ _ _ _) _)) ?_
    split
    · exact h
    · exact Keeps.ite (State.onWlk_keeps h _) (Keeps.ite h (ih (State.onWlk_keeps (State.sendFrame_keeps h _ _ _ _) _)))

theorem execFlow_keeps {s out : State} (l : Fin 6) (w : BitVec 5) (back : BitVec 6 × BitVec 6) (e : execFlow l w back s = .next
    out) : Keeps s out := by
  cases e
  repeat' first
    | with_reducible exact Keeps.refl _
    | with_reducible assumption
    | with_reducible apply State.pumpUp_keeps
    | with_reducible apply State.pumpBulk_keeps
    | with_reducible apply State.pumpReq_keeps
    | with_reducible apply State.setCredits_keeps
    | with_reducible apply State.onWlk_keeps
    | with_reducible apply State.passFrom_keeps
    | refine Keeps.when ?_ fun _ _ => ?_
    | with_reducible apply Keeps.ite
    | split
    | refine Keeps.upd ?_ rfl rfl rfl rfl rfl
    | dsimp only
    | intro _

theorem State.freeCredit_keeps {root s : State} (h : Keeps root s) (bulk : Bool) : Keeps root (State.freeCredit s bulk) := by
  unfold State.freeCredit
  repeat' first
    | with_reducible assumption
    | with_reducible apply State.onWlk_keeps
    | with_reducible apply State.send_keeps
    | with_reducible apply Keeps.ite
    | split
    | refine Keeps.upd ?_ rfl rfl rfl rfl rfl
    | dsimp only
    | intro _

theorem State.freeUp_keeps {root s : State} (h : Keeps root s) (w : Nat) : Keeps root (State.freeUp s w) := by
  unfold State.freeUp
  repeat' first
    | with_reducible assumption
    | with_reducible apply State.onWlk_keeps
    | with_reducible apply State.send_keeps
    | with_reducible apply Keeps.ite
    | split
    | refine Keeps.upd ?_ rfl rfl rfl rfl rfl
    | dsimp only
    | intro _

theorem execReportFrame_keeps {s out : State} (l : Fin 6) (crcOk : Bool) (w : BitVec 5) (status : BitVec 36) (v : Vector Word 4) (e
    : execReportFrame l crcOk w status v s = .next out) : Keeps s out := by
  cases e
  repeat' first
    | with_reducible exact Keeps.refl _
    | with_reducible assumption
    | with_reducible apply State.pumpBulk_keeps
    | with_reducible apply State.pumpReq_keeps
    | with_reducible apply State.setCredits_keeps
    | with_reducible apply State.onWlk_keeps
    | with_reducible apply State.frameDiscard_keeps
    | with_reducible apply State.islReport_keeps
    | with_reducible apply State.plantRefresh_keeps
    | with_reducible apply State.passFrom_keeps
    | with_reducible apply State.put_keeps
    | refine Keeps.each ?_ fun _ _ _ => ?_
    | refine Keeps.when ?_ fun _ _ => ?_
    | with_reducible apply Keeps.ite
    | split
    | refine Keeps.upd ?_ rfl rfl rfl rfl rfl
    | dsimp only
    | intro _

theorem execStopUnit_keeps {s out : State} (e : execStopUnit s = .next out) : Keeps s out := by
  cases e
  repeat' first
    | with_reducible exact Keeps.refl _
    | with_reducible assumption
    | with_reducible apply State.raiseStop_keeps
    | with_reducible apply State.passDown_keeps
    | with_reducible apply State.put_keeps
    | refine Keeps.when ?_ fun _ _ => ?_
    | dsimp only
    | intro _

theorem execPlantStopRepeat_keeps {s out : State} (e : execPlantStopRepeat s = .next out) : Keeps s out := by
  cases e
  repeat' first
    | with_reducible exact Keeps.refl _
    | with_reducible assumption
    | with_reducible apply State.sendPlant_keeps
    | refine Keeps.when ?_ fun _ _ => ?_
    | dsimp only
    | intro _

theorem execDelayReq_keeps {s out : State} (l : Fin 6) (e : execDelayReq l s = .next out) : Keeps s out := by
  cases e
  repeat' first
    | with_reducible exact Keeps.refl _
    | with_reducible assumption
    | with_reducible apply State.onLane_keeps
    | with_reducible apply State.send_keeps
    | refine Keeps.when ?_ fun _ _ => ?_
    | refine Keeps.upd ?_ rfl rfl rfl rfl rfl
    | dsimp only
    | intro _

theorem execDelayReqReceived_keeps {s out : State} (l : Fin 6) (e : execDelayReqReceived l s = .next out) : Keeps s out := by
  cases e
  repeat' first
    | with_reducible exact Keeps.refl _
    | with_reducible assumption
    | with_reducible apply State.send_keeps
    | refine Keeps.when ?_ fun _ _ => ?_
    | dsimp only
    | intro _

theorem execDelayRsp_keeps {s out : State} (l : Fin 6) (t2 t3 : BitVec 24) (e : execDelayRsp l t2 t3 s = .next out) : Keeps s out :=
    by
  cases e
  repeat' first
    | with_reducible exact Keeps.refl _
    | with_reducible assumption
    | with_reducible apply State.onLane_keeps
    | with_reducible apply State.putB_keeps
    | with_reducible apply State.put_keeps
    | refine Keeps.when ?_ fun _ _ => ?_
    | with_reducible refine Keeps.foldl ?_ fun _ _ _ => ?_
    | with_reducible apply Keeps.ite
    | split
    | refine Keeps.upd ?_ rfl rfl rfl rfl rfl
    | dsimp only
    | intro _

theorem execSyncUnit_keeps {s out : State} (offset : BitVec 24) (e : execSyncUnit offset s = .next out) : Keeps s out := by
  cases e
  repeat' first
    | with_reducible exact Keeps.refl _
    | with_reducible assumption
    | with_reducible apply State.onWlk_keeps
    | with_reducible apply State.followValid_keeps
    | with_reducible apply State.onPair_keeps
    | with_reducible apply State.passDown_keeps
    | with_reducible apply State.tookFree_keeps
    | with_reducible apply State.putB_keeps
    | with_reducible apply State.put_keeps
    | with_reducible apply State.withMod_keeps
    | refine Keeps.each ?_ fun _ _ _ => ?_
    | refine Keeps.when ?_ fun _ _ => ?_
    | with_reducible apply Keeps.ite
    | split
    | refine Keeps.upd ?_ rfl rfl rfl rfl rfl
    | dsimp only
    | intro _

theorem execTimeFrame_keeps {s out : State} (crcOk : Bool) (sec : BitVec 48) (ns frac : Word) (valid : Bool) (e : execTimeFrame
    crcOk sec ns frac valid s = .next out) : Keeps s out := by
  cases e
  repeat' first
    | with_reducible exact Keeps.refl _
    | with_reducible assumption
    | with_reducible apply State.passDiscard_keeps
    | with_reducible apply State.onWlk_keeps
    | with_reducible apply State.followValid_keeps
    | with_reducible apply State.ptpIncTake_keeps
    | with_reducible apply State.ptpStep_keeps
    | with_reducible apply State.passDown_keeps
    | with_reducible apply State.tookFree_keeps
    | with_reducible apply Keeps.ite
    | split
    | refine Keeps.upd ?_ rfl rfl rfl rfl rfl
    | dsimp only
    | intro _

theorem State.unreverse_keeps {root s : State} (h : Keeps root s) : Keeps root (State.unreverse s) := by
  unfold State.unreverse
  repeat' first
    | with_reducible assumption
    | with_reducible apply State.laneTiming_keeps
    | with_reducible apply State.send_keeps
    | with_reducible apply State.withWlk_keeps
    | refine Keeps.upd ?_ rfl rfl rfl rfl rfl
    | dsimp only
    | intro _

theorem execRingReverse_keeps {s out : State} (l : Fin 6) (pos : Option (Fin 8)) (e : execRingReverse l pos s = .next out) :
    Keeps s out := by
  cases e
  repeat' first
    | with_reducible exact Keeps.refl _
    | with_reducible assumption
    | with_reducible apply State.unreverse_keeps
    | with_reducible apply State.reverse_keeps
    | with_reducible apply State.send_keeps
    | with_reducible apply State.putBit_keeps
    | with_reducible apply State.put_keeps
    | refine Keeps.each ?_ fun _ _ _ => ?_
    | refine Keeps.when ?_ fun _ _ => ?_
    | with_reducible apply Keeps.ite
    | split
    | dsimp only
    | intro _

theorem ringRestoreOp_keeps {root s : State} (h : Keeps root s) (linksUp : Bool) : Keeps root (ringRestoreOp linksUp s) := by
  unfold ringRestoreOp
  repeat' first
    | with_reducible assumption
    | with_reducible apply State.onWlk_keeps
    | with_reducible apply State.wlkRefuse_keeps
    | with_reducible apply Keeps.ite
    | split
    | refine Keeps.upd ?_ rfl rfl rfl rfl rfl
    | dsimp only
    | intro _

theorem execRingRestore_keeps {s out : State} (linksUp : Bool) (e : execRingRestore linksUp s = .next out) : Keeps s out := by
  cases e
  repeat' first
    | with_reducible exact Keeps.refl _
    | with_reducible assumption
    | with_reducible apply ringRestoreOp_keeps
    | with_reducible apply State.access_keeps
    | dsimp only
    | intro _

theorem State.discoverAll_keeps {root s : State} (h : Keeps root s) : Keeps root (State.discoverAll s) := by
  unfold State.discoverAll
  repeat' first
    | with_reducible assumption
    | with_reducible apply State.discoverStart_keeps
    | refine Keeps.each ?_ fun _ _ _ => ?_
    | refine Keeps.when ?_ fun _ _ => ?_
    | dsimp only
    | intro _

theorem execDiscover_keeps {s out : State} (e : execDiscover s = .next out) : Keeps s out := by
  cases e
  repeat' first
    | with_reducible exact Keeps.refl _
    | with_reducible assumption
    | with_reducible apply State.discoverAll_keeps
    | with_reducible apply State.access_keeps
    | dsimp only
    | intro _

theorem execPosition_keeps {s out : State} (f : Framed (Fin 8)) (e : execPosition f s = .next out) : Keeps s out := by
  cases e
  repeat' first
    | with_reducible exact Keeps.refl _
    | with_reducible assumption
    | with_reducible apply State.passDiscard_keeps
    | with_reducible apply State.onWlk_keeps
    | with_reducible apply State.passDown_keeps
    | with_reducible apply State.sendFrame_keeps
    | with_reducible apply Keeps.ite
    | split
    | refine Keeps.upd ?_ rfl rfl rfl rfl rfl
    | dsimp only
    | intro _

theorem execAnnounce_keeps {s out : State} (c : Fin 4) (f : Framed Announce) (e : execAnnounce c f s = .next out) : Keeps s out
    := by
  cases e
  repeat' first
    | with_reducible exact Keeps.refl _
    | with_reducible assumption
    | with_reducible apply State.onWlk_keeps
    | with_reducible apply State.frameDiscard_keeps
    | with_reducible apply State.askPosition_keeps
    | with_reducible apply State.passUp_keeps
    | refine Keeps.when ?_ fun _ _ => ?_
    | with_reducible apply Keeps.ite
    | split
    | refine Keeps.upd ?_ rfl rfl rfl rfl rfl
    | dsimp only
    | intro _

theorem execPositionTimeout_keeps {s out : State} (c : Fin 4) (e : execPositionTimeout c s = .next out) : Keeps s out := by
  cases e
  repeat' first
    | with_reducible exact Keeps.refl _
    | with_reducible assumption
    | with_reducible apply State.onWlk_keeps
    | refine Keeps.upd ?_ rfl rfl rfl rfl rfl
    | dsimp only
    | intro _

theorem execNumber_keeps {s out : State} (f : Framed (Fin 8)) (w : BitVec 5) (e : execNumber f w s = .next out) : Keeps s out :=
    by
  cases e
  repeat' first
    | with_reducible exact Keeps.refl _
    | with_reducible assumption
    | with_reducible apply State.passDiscard_keeps
    | with_reducible apply State.passDown_keeps
    | with_reducible apply State.put_keeps
    | refine Keeps.when ?_ fun _ _ => ?_
    | with_reducible apply Keeps.ite
    | split
    | dsimp only
    | intro _

theorem State.tagCount_keeps {root s : State} (h : Keeps root s) : Keeps root (State.tagCount s) := by
  unfold State.tagCount
  repeat' first
    | with_reducible assumption
    | with_reducible apply State.put_keeps
    | dsimp only
    | intro _

theorem State.takeTag_keeps {root s : State} (h : Keeps root s) (r : RemTag) : Keeps root (State.takeTag s r) := by
  unfold State.takeTag
  repeat' first
    | with_reducible assumption
    | with_reducible apply State.tagCount_keeps
    | with_reducible apply State.pumpReq_keeps
    | with_reducible apply State.onWlk_keeps
    | with_reducible apply State.respond_keeps
    | with_reducible apply Keeps.ite
    | split
    | refine Keeps.upd ?_ rfl rfl rfl rfl rfl
    | dsimp only
    | intro _

theorem State.engineWrite_keeps {root s : State} (h : Keeps root s) (w a v : Nat) : Keeps root (State.engineWrite s w a v) := by
  unfold State.engineWrite
  repeat' first
    | with_reducible assumption
    | with_reducible apply State.takeTag_keeps
    | refine Keeps.upd ?_ rfl rfl rfl rfl rfl
    | dsimp only
    | intro _

theorem State.giveNumber_keeps {root s : State} (h : Keeps root s) (e : Nat × Nat × Nat) : Keeps root (State.giveNumber s e) := by
  unfold State.giveNumber
  repeat' first
    | with_reducible assumption
    | with_reducible apply State.engineWrite_keeps
    | with_reducible apply State.setCredits_keeps
    | with_reducible apply State.sendFrame_keeps
    | split
    | refine Keeps.upd ?_ rfl rfl rfl rfl rfl
    | dsimp only
    | intro _

theorem execDiscoveryDone_keeps {s out : State} (c : Fin 4) (hops : List (Word × BitVec 16)) (ring : Option Word) (e :
    execDiscoveryDone c hops ring s = .next out) : Keeps s out := by
  cases e
  repeat' first
    | with_reducible exact Keeps.refl _
    | with_reducible assumption
    | with_reducible apply State.giveNumber_keeps
    | with_reducible apply State.onWlk_keeps
    | with_reducible apply State.sendFrame_keeps
    | with_reducible apply State.putBit_keeps
    | with_reducible apply State.putB_keeps
    | with_reducible apply State.put_keeps
    | refine Keeps.each ?_ fun _ _ _ => ?_
    | refine Keeps.when ?_ fun _ _ => ?_
    | with_reducible apply Keeps.ite
    | split
    | refine Keeps.upd ?_ rfl rfl rfl rfl rfl
    | dsimp only
    | intro _

theorem blkGoOp_keeps {root s : State} (h : Keeps root s) (v : Word) : Keeps root (blkGoOp v s) := by
  unfold blkGoOp
  repeat' first
    | with_reducible assumption
    | with_reducible apply State.pumpBulk_keeps
    | with_reducible apply State.onWlk_keeps
    | with_reducible apply State.wlkRefuse_keeps
    | with_reducible apply State.putB_keeps
    | with_reducible apply State.put_keeps
    | with_reducible apply Keeps.ite
    | split
    | refine Keeps.upd ?_ rfl rfl rfl rfl rfl
    | dsimp only
    | intro _

theorem execBlkGo_keeps {s out : State} (v : Word) (e : execBlkGo v s = .next out) : Keeps s out := by
  cases e
  repeat' first
    | with_reducible exact Keeps.refl _
    | with_reducible assumption
    | with_reducible apply blkGoOp_keeps
    | with_reducible apply State.access_keeps
    | dsimp only
    | intro _

theorem State.sramWords_keeps {root s : State} (h : Keeps root s) (a : Nat) (ws : List DWord) : Keeps root (State.sramWords s a ws)
    := by
  unfold State.sramWords
  repeat' first
    | with_reducible assumption
    | with_reducible apply State.withSram_keeps
    | exact cellsWf_put (by assumption)
    | exact cellsWf_foldl (by assumption) fun _ _ g => cellsWf_put g
    | with_reducible apply Ram.wf_write
    | with_reducible apply Ram.wf_store
    | with_reducible apply Ram.wf_staged
    | dsimp only
    | intro _

theorem State.bulkTake_keeps {root s : State} (h : Keeps root s) (f : BulkFrame) : Keeps root (State.bulkTake s f) := by
  unfold State.bulkTake
  repeat' first
    | with_reducible assumption
    | with_reducible apply State.sramWords_keeps
    | with_reducible apply State.freeCredit_keeps
    | with_reducible apply State.pumpUp_keeps
    | with_reducible apply State.onWlk_keeps
    | with_reducible apply State.put_keeps
    | with_reducible apply Keeps.ite
    | split
    | refine Keeps.upd ?_ rfl rfl rfl rfl rfl
    | dsimp only
    | intro _

theorem State.bulkGiven_keeps {root s : State} (h : Keeps root s) (f : BulkFrame) : Keeps root (State.bulkGiven s f) := by
  unfold State.bulkGiven
  repeat' first
    | with_reducible assumption
    | with_reducible apply State.sramWords_keeps
    | with_reducible apply State.freeUp_keeps
    | with_reducible apply State.onWlk_keeps
    | with_reducible apply State.inc_keeps
    | with_reducible apply Keeps.ite
    | split
    | refine Keeps.upd ?_ rfl rfl rfl rfl rfl
    | dsimp only
    | intro _

theorem execBulkFrame_keeps {s out : State} (l : Fin 6) (crcOk : Bool) (f : BulkFrame) (e : execBulkFrame l crcOk f s = .next out) :
    Keeps s out := by
  cases e
  repeat' first
    | with_reducible exact Keeps.refl _
    | with_reducible assumption
    | with_reducible apply State.bulkGiven_keeps
    | with_reducible apply State.bulkTake_keeps
    | with_reducible apply State.frameDiscard_keeps
    | with_reducible apply State.passFrom_keeps
    | refine Keeps.when ?_ fun _ _ => ?_
    | with_reducible apply Keeps.ite
    | split
    | dsimp only
    | intro _

theorem execBulkDone_keeps {s out : State} (lost : Bool) (nacks : BitVec 16) (e : execBulkDone lost nacks s = .next out) : Keeps
    s out := by
  cases e
  repeat' first
    | with_reducible exact Keeps.refl _
    | with_reducible assumption
    | with_reducible apply State.addSat_keeps
    | with_reducible apply State.onWlk_keeps
    | with_reducible apply State.put_keeps
    | refine Keeps.when ?_ fun _ _ => ?_
    | with_reducible apply Keeps.ite
    | split
    | refine Keeps.upd ?_ rfl rfl rfl rfl rfl
    | dsimp only
    | intro _

theorem State.remoteAccess_keeps {root s : State} (h : Keeps root s) (f : State → State) (hf : ∀ u0, Keeps root u0 → Keeps root (f
    u0)) : Keeps root (State.remoteAccess s f) := by
  unfold State.remoteAccess
  repeat' first
    | with_reducible assumption
    | with_reducible apply hf
    | with_reducible apply State.busError_keeps
    | with_reducible apply Keeps.ite
    | split
    | dsimp only
    | intro _

theorem State.freeTagOf_keeps {root s : State} (h : Keeps root s) (t : Nat) : Keeps root (State.freeTagOf s t) := by
  unfold State.freeTagOf
  repeat' first
    | with_reducible assumption
    | with_reducible apply State.takeTag_keeps
    | with_reducible apply State.tagCount_keeps
    | with_reducible apply State.onWlk_keeps
    | split
    | refine Keeps.upd ?_ rfl rfl rfl rfl rfl
    | dsimp only
    | intro _

theorem execRemoteAccess_keeps {s out : State} (write : Bool) (addr : BitVec 40) (size : Fin 9) (v : DWord) (e : execRemoteAccess
    write addr size v s = .next out) : Keeps s out := by
  cases e
  repeat' first
    | with_reducible exact Keeps.refl _
    | with_reducible assumption
    | with_reducible apply State.remoteAccess_keeps
    | with_reducible apply State.takeTag_keeps
    | with_reducible apply State.busError_keeps
    | with_reducible apply Keeps.ite
    | split
    | refine Keeps.upd ?_ rfl rfl rfl rfl rfl
    | dsimp only
    | intro _

theorem execRemRsp_keeps {s out : State} (l : Fin 6) (f : Framed (BitVec 7)) (w : BitVec 5) (a : Bool × DWord) (e : execRemRsp l
    f w a s = .next out) : Keeps s out := by
  cases e
  repeat' first
    | with_reducible exact Keeps.refl _
    | with_reducible assumption
    | with_reducible apply State.freeTagOf_keeps
    | with_reducible apply State.onWlk_keeps
    | with_reducible apply State.frameDiscard_keeps
    | with_reducible apply State.passFrom_keeps
    | with_reducible apply State.busError_keeps
    | with_reducible apply State.respond_keeps
    | with_reducible apply State.inc_keeps
    | with_reducible apply Keeps.ite
    | split
    | refine Keeps.upd ?_ rfl rfl rfl rfl rfl
    | dsimp only
    | intro _

theorem execRemoteTimeout_keeps {s out : State} (t : BitVec 7) (e : execRemoteTimeout t s = .next out) : Keeps s out := by
  cases e
  repeat' first
    | with_reducible exact Keeps.refl _
    | with_reducible assumption
    | with_reducible apply State.freeTagOf_keeps
    | with_reducible apply State.orBits_keeps
    | with_reducible apply State.inc_keeps
    | with_reducible apply State.put_keeps
    | with_reducible apply State.withResp_keeps
    | with_reducible refine Keeps.foldl ?_ fun _ _ _ => ?_
    | with_reducible apply Keeps.ite
    | split
    | dsimp only
    | intro _

theorem execPlantBroadcastWrite_keeps {s out : State} (g : Option (Fin 16)) (o : BitVec 28) (wide : Bool) (v : DWord) (e :
    execPlantBroadcastWrite g o wide v s = .next out) : Keeps s out := by
  cases e
  repeat' first
    | with_reducible exact Keeps.refl _
    | with_reducible assumption
    | with_reducible apply State.remoteAccess_keeps
    | with_reducible apply State.takeTag_keeps
    | with_reducible apply State.busError_keeps
    | with_reducible apply State.respond_keeps
    | with_reducible apply State.put_keeps
    | with_reducible apply Keeps.ite
    | split
    | refine Keeps.upd ?_ rfl rfl rfl rfl rfl
    | dsimp only
    | intro _

theorem execPlantBroadcastRead_keeps {s out : State} (e : execPlantBroadcastRead s = .next out) : Keeps s out := by
  cases e
  repeat' first
    | with_reducible exact Keeps.refl _
    | with_reducible assumption
    | with_reducible apply State.remoteAccess_keeps
    | with_reducible apply State.wlkRefuse_keeps
    | with_reducible apply State.busError_keeps
    | refine Keeps.when ?_ fun _ _ => ?_
    | dsimp only
    | intro _

theorem State.wlkFiring_keeps {root s : State} (h : Keeps root s) (old : Nat) : Keeps root (State.wlkFiring s old) := by
  unfold State.wlkFiring
  repeat' first
    | with_reducible assumption
    | with_reducible apply State.discoverAll_keeps
    | with_reducible apply State.followValid_keeps
    | with_reducible apply State.put_keeps
    | with_reducible apply State.withWlk_keeps
    | with_reducible apply Keeps.ite
    | split
    | refine Keeps.upd ?_ rfl rfl rfl rfl rfl
    | dsimp only
    | intro _

end Sys2Proof.Machine
end

