-- ==== Sys2Proof/Laws/KeepsMeter.lean ====
section
/-!
SUPPORT. Each operation of Machine/Meter.lean keeps the queue of waiting commands and the canonical form of the memories.
-/

namespace Sys2Proof.Machine

open Sys2Proof

set_option linter.all false

theorem State.onGain_keeps {root s : State} (h : Keeps root s) (c : Fin 4) (f : GainPath → GainPath) : Keeps root (State.onGain s c
    f) := by
  unfold State.onGain
  repeat' first
    | with_reducible assumption
    | with_reducible refine State.withMet_keeps ?_ _ rfl
    | refine Keeps.upd ?_ rfl rfl rfl rfl rfl
    | dsimp only
    | intro _

theorem State.gainChange_keeps {root s : State} (h : Keeps root s) (c : Fin 4) (g : Nat) : Keeps root (State.gainChange s c g) := by
  unfold State.gainChange
  repeat' first
    | with_reducible assumption
    | with_reducible apply State.journal_keeps
    | with_reducible apply State.inc_keeps
    | with_reducible apply State.put_keeps
    | refine Keeps.when ?_ fun _ _ => ?_
    | dsimp only
    | intro _

theorem State.gainAtBoundary_keeps {root s : State} (h : Keeps root s) (c : Fin 4) : Keeps root (State.gainAtBoundary s c) := by
  unfold State.gainAtBoundary
  repeat' first
    | with_reducible assumption
    | with_reducible apply State.gainChange_keeps
    | with_reducible apply State.onGain_keeps
    | with_reducible apply Keeps.ite
    | split
    | refine Keeps.upd ?_ rfl rfl rfl rfl rfl
    | dsimp only
    | intro _

theorem State.gainWatch_keeps {root s : State} (h : Keeps root s) (c : Fin 4) (code : Int) (ovf : Bool) : Keeps root
    (State.gainWatch s c code ovf) := by
  unfold State.gainWatch
  repeat' first
    | with_reducible assumption
    | with_reducible apply State.onGain_keeps
    | with_reducible apply State.inc_keeps
    | refine Keeps.when ?_ fun _ _ => ?_
    | with_reducible apply Keeps.ite
    | split
    | refine Keeps.upd ?_ rfl rfl rfl rfl rfl
    | dsimp only
    | intro _

theorem execGainSettled_keeps {s out : State} (c : Fin 4) (e : execGainSettled c s = .next out) : Keeps s out := by
  cases e
  repeat' first
    | with_reducible exact Keeps.refl _
    | with_reducible assumption
    | with_reducible apply State.onGain_keeps
    | refine Keeps.when ?_ fun _ _ => ?_
    | refine Keeps.upd ?_ rfl rfl rfl rfl rfl
    | dsimp only
    | intro _

theorem State.pqEvent_keeps {root s : State} (h : Keeps root s) (kind phases ms u : Nat) : Keeps root (State.pqEvent s kind phases
    ms u) := by
  unfold State.pqEvent
  repeat' first
    | with_reducible assumption
    | with_reducible apply State.journal_keeps
    | with_reducible apply State.put_keeps
    | dsimp only
    | intro _

theorem State.pqStep_keeps {root s : State} (h : Keeps root s) (kind : Fin 3) (now u : Nat) (starts ovf : Bool) : Keeps root
    (State.pqStep s kind now u starts ovf) := by
  unfold State.pqStep
  repeat' first
    | with_reducible assumption
    | with_reducible apply State.pqEvent_keeps
    | with_reducible refine State.withMet_keeps ?_ _ rfl
    | with_reducible apply Keeps.ite
    | split
    | refine Keeps.upd ?_ rfl rfl rfl rfl rfl
    | dsimp only
    | intro _

theorem State.rapidStep_keeps {root s : State} (h : Keeps root s) (els : List (Fin 3)) (u : Vector Nat 3) (inside : Bool) (least :
    Nat) : Keeps root (State.rapidStep s els u inside least) := by
  unfold State.rapidStep
  repeat' first
    | with_reducible assumption
    | with_reducible apply State.pqEvent_keeps
    | with_reducible refine State.withMet_keeps ?_ _ rfl
    | with_reducible refine Keeps.foldl ?_ fun _ _ _ => ?_
    | with_reducible apply Keeps.ite
    | split
    | refine Keeps.upd ?_ rfl rfl rfl rfl rfl
    | dsimp only
    | intro _

theorem State.pqHalf_keeps {root s : State} (h : Keeps root s) (u : Vector Nat 3) : Keeps root (State.pqHalf s u) := by
  unfold State.pqHalf
  repeat' first
    | with_reducible assumption
    | with_reducible apply State.rapidStep_keeps
    | with_reducible apply State.pqStep_keeps
    | with_reducible refine State.withMet_keeps ?_ _ rfl
    | with_reducible refine Keeps.foldl ?_ fun _ _ _ => ?_
    | with_reducible apply Keeps.ite
    | split
    | refine Keeps.upd ?_ rfl rfl rfl rfl rfl
    | dsimp only
    | intro _

theorem State.takeScale_keeps {root s : State} (h : Keeps root s) : Keeps root (State.takeScale s) := by
  unfold State.takeScale
  repeat' first
    | with_reducible assumption
    | with_reducible refine State.withMet_keeps ?_ _ rfl
    | refine Keeps.when ?_ fun _ _ => ?_
    | refine Keeps.upd ?_ rfl rfl rfl rfl rfl
    | dsimp only
    | intro _

theorem State.beginSave_keeps {root s : State} (h : Keeps root s) (r : SaveRun) : Keeps root (State.beginSave s r) := by
  unfold State.beginSave
  repeat' first
    | with_reducible assumption
    | with_reducible apply State.put_keeps
    | with_reducible refine State.withMet_keeps ?_ _ rfl
    | refine Keeps.upd ?_ rfl rfl rfl rfl rfl
    | dsimp only
    | intro _

theorem State.takeReset_keeps {root s : State} (h : Keeps root s) : Keeps root (State.takeReset s) := by
  unfold State.takeReset
  repeat' first
    | with_reducible assumption
    | with_reducible apply State.beginSave_keeps
    | with_reducible refine State.withMet_keeps ?_ _ rfl
    | refine Keeps.when ?_ fun _ _ => ?_
    | refine Keeps.upd ?_ rfl rfl rfl rfl rfl
    | dsimp only
    | intro _

theorem State.freqSample_keeps {root s : State} (h : Keeps root s) (v : Int) : Keeps root (State.freqSample s v) := by
  unfold State.freqSample
  repeat' first
    | with_reducible assumption
    | with_reducible refine State.withMet_keeps ?_ _ rfl
    | with_reducible apply Keeps.ite
    | split
    | refine Keeps.upd ?_ rfl rfl rfl rfl rfl
    | dsimp only
    | intro _

theorem execMeterSample_keeps {s out : State} (o : MeterObs) (e : execMeterSample o s = .next out) : Keeps s out := by
  cases e
  refine Keeps.ite (Keeps.refl _) ?_
  extract_lets -underBinder four s1 code o1 b row _ s2 pw _ _ s3 s4 s5
  have k1 : Keeps s s1 := Keeps.each (State.takeScale_keeps (Keeps.refl _)) fun _ _ k => State.gainAtBoundary_keeps k _
  clear_value s1 o1 code row
  have k2 : Keeps s s2 := by
    repeat' first
      | with_reducible assumption
      | with_reducible apply State.withFree_keeps
      | with_reducible refine State.withMet_keeps ?_ _ rfl
      | with_reducible apply Keeps.ite
  clear_value s2 pw
  have k3 : Keeps s s3 := by
    repeat' first
      | with_reducible assumption
      | with_reducible apply State.withFree_keeps
      | with_reducible refine State.withMet_keeps ?_ _ rfl
      | with_reducible apply Keeps.ite
  clear_value s3
  have k4 : Keeps s s4 := Keeps.when k3 fun _ k => by
    refine State.put_keeps ?_ _ _
    exact Keeps.upd k rfl rfl rfl rfl rfl
  clear_value s4
  have k5 : Keeps s s5 := Keeps.each (State.freqSample_keeps k4 _) fun _ _ k => State.gainWatch_keeps k _ _ _
  clear_value s5
  refine State.takeReset_keeps ?_
  split
  · exact State.pqHalf_keeps k5 _
  · exact k5

theorem State.putOrFree_keeps {root s : State} (h : Keeps root s) (f : Fld) (v : Option Word) : Keeps root (State.putOrFree s f v)
    := by
  unfold State.putOrFree
  repeat' first
    | with_reducible assumption
    | with_reducible apply State.tookFree_keeps
    | with_reducible apply State.put_keeps
    | split
    | dsimp only
    | intro _

theorem State.aggregate_keeps {root s : State} (h : Keeps root s) (i : Fin 4) (m : MetSum) : Keeps root (State.aggregate s i m) :=
    by
  unfold State.aggregate
  repeat' first
    | with_reducible assumption
    | with_reducible apply State.putOrFree_keeps
    | with_reducible apply State.incWrap_keeps
    | with_reducible apply State.putB_keeps
    | with_reducible apply State.put_keeps
    | with_reducible refine State.withMet_keeps ?_ _ rfl
    | refine Keeps.each ?_ fun _ _ _ => ?_
    | refine Keeps.upd ?_ rfl rfl rfl rfl rfl
    | dsimp only
    | intro _

theorem State.gather_keeps {root s : State} (h : Keeps root s) (i : Fin 3) (m : MetSum) (done : Bool) : Keeps root (State.gather s i
    m done) := by
  unfold State.gather
  repeat' first
    | with_reducible assumption
    | with_reducible apply State.aggregate_keeps
    | with_reducible refine State.withMet_keeps ?_ _ rfl
    | refine Keeps.when ?_ fun _ _ => ?_
    | with_reducible apply Keeps.ite
    | split
    | refine Keeps.upd ?_ rfl rfl rfl rfl rfl
    | dsimp only
    | intro _

theorem State.harmonics_keeps {root s : State} (h : Keeps root s) : Keeps root (State.harmonics s) := by
  unfold State.harmonics
  repeat' first
    | with_reducible assumption
    | with_reducible apply State.incWrap_keeps
    | with_reducible apply State.put_keeps
    | refine Keeps.each ?_ fun _ _ _ => ?_
    | with_reducible apply Keeps.ite
    | split
    | dsimp only
    | intro _

theorem execPqIntervalEnd_keeps {s out : State} (e : execPqIntervalEnd s = .next out) : Keeps s out := by
  cases e
  repeat' first
    | with_reducible exact Keeps.refl _
    | with_reducible assumption
    | with_reducible apply State.harmonics_keeps
    | with_reducible apply State.gather_keeps
    | with_reducible apply State.aggregate_keeps
    | with_reducible refine State.withMet_keeps ?_ _ rfl
    | with_reducible apply State.withFree_keeps
    | with_reducible apply Keeps.ite
    | split
    | refine Keeps.upd ?_ rfl rfl rfl rfl rfl
    | dsimp only
    | intro _

theorem execMeterWrongSeq_keeps {s out : State} (on : Bool) (e : execMeterWrongSeq on s = .next out) : Keeps s out := by
  cases e
  repeat' first
    | with_reducible exact Keeps.refl _
    | with_reducible assumption
    | with_reducible apply State.journal_keeps
    | with_reducible apply State.putB_keeps
    | with_reducible apply State.put_keeps
    | refine Keeps.when ?_ fun _ _ => ?_
    | with_reducible apply Keeps.ite
    | split
    | dsimp only
    | intro _

theorem execMeterMissN_keeps {s out : State} (on : Bool) (v0 : Nat) (e : execMeterMissN on v0 s = .next out) : Keeps s out := by
  cases e
  repeat' first
    | with_reducible exact Keeps.refl _
    | with_reducible assumption
    | with_reducible apply State.journal_keeps
    | with_reducible apply State.putB_keeps
    | with_reducible apply State.put_keeps
    | refine Keeps.when ?_ fun _ _ => ?_
    | with_reducible apply Keeps.ite
    | split
    | dsimp only
    | intro _

theorem execReverseFlow_keeps {s out : State} (p : Fin 3) (v : Word) (e : execReverseFlow p v s = .next out) : Keeps s out := by
  cases e
  repeat' first
    | with_reducible exact Keeps.refl _
    | with_reducible assumption
    | with_reducible apply State.journal_keeps
    | with_reducible apply State.putBit_keeps
    | with_reducible apply Keeps.ite
    | split
    | dsimp only
    | intro _

theorem execPeriodicSave_keeps {s out : State} (e : execPeriodicSave s = .next out) : Keeps s out := by
  cases e
  repeat' first
    | with_reducible exact Keeps.refl _
    | with_reducible assumption
    | with_reducible apply State.beginSave_keeps
    | with_reducible refine State.withMet_keeps ?_ _ rfl
    | with_reducible apply Keeps.ite
    | split
    | refine Keeps.upd ?_ rfl rfl rfl rfl rfl
    | dsimp only
    | intro _

theorem State.pfSave_keeps {root s : State} (h : Keeps root s) : Keeps root (State.pfSave s) := by
  unfold State.pfSave
  repeat' first
    | with_reducible assumption
    | with_reducible apply State.beginSave_keeps
    | refine Keeps.upd ?_ rfl rfl rfl rfl rfl
    | dsimp only
    | intro _

theorem execSaveComplete_keeps {s out : State} (e : execSaveComplete s = .next out) : Keeps s out := by
  cases e
  repeat' first
    | with_reducible exact Keeps.refl _
    | with_reducible assumption
    | with_reducible apply State.tookFree_keeps
    | with_reducible apply State.sectorFails_keeps
    | with_reducible apply State.journal_keeps
    | with_reducible apply State.put_keeps
    | with_reducible refine State.withMet_keeps ?_ _ rfl
    | refine Keeps.when ?_ fun _ _ => ?_
    | with_reducible apply Keeps.ite
    | split
    | refine Keeps.upd ?_ rfl rfl rfl rfl rfl
    | dsimp only
    | intro _

theorem State.journalFirst_keeps {root s : State} (h : Keeps root s) (typ detail payload : Nat) : Keeps root (State.journalFirst s
    typ detail payload) := by
  unfold State.journalFirst
  repeat' first
    | with_reducible assumption
    | with_reducible refine State.withMet_keeps ?_ _ rfl
    | with_reducible apply Keeps.ite
    | split
    | refine Keeps.upd ?_ rfl rfl rfl rfl rfl
    | dsimp only
    | intro _

theorem execMeterResume_keeps {s out : State} (e : execMeterResume s = .next out) : Keeps s out := by
  cases e
  repeat' first
    | with_reducible exact Keeps.refl _
    | with_reducible assumption
    | with_reducible apply State.journalFirst_keeps
    | with_reducible apply State.put_keeps
    | with_reducible refine State.withMet_keeps ?_ _ rfl
    | refine Keeps.when ?_ fun _ _ => ?_
    | with_reducible apply Keeps.ite
    | split
    | refine Keeps.upd ?_ rfl rfl rfl rfl rfl
    | dsimp only
    | intro _

theorem execJournalEntry_keeps {s out : State} (e : execJournalEntry s = .next out) : Keeps s out := by
  cases e
  repeat' first
    | with_reducible exact Keeps.refl _
    | with_reducible assumption
    | with_reducible apply State.journalLost_keeps
    | with_reducible apply State.put_keeps
    | with_reducible refine State.withMet_keeps ?_ _ rfl
    | with_reducible apply Keeps.ite
    | split
    | refine Keeps.upd ?_ rfl rfl rfl rfl rfl
    | dsimp only
    | intro _

theorem State.drainJournal_keeps {root s : State} (h : Keeps root s) : Keeps root (State.drainJournal s) := by
  unfold State.drainJournal
  split
  · exact h
  · exact Keeps.when (Keeps.met h fun g => cellsWf_put (cellsWf_put (cellsWf_put g))) fun _ k => State.incWrap_keeps k _

theorem jrnlCommitOp_keeps {root s : State} (h : Keeps root s) : Keeps root (jrnlCommitOp s) := by
  unfold jrnlCommitOp
  repeat' first
    | with_reducible assumption
    | with_reducible apply State.journal_keeps
    | with_reducible apply State.inc_keeps
    | with_reducible apply State.put_keeps
    | with_reducible apply Keeps.ite
    | split
    | dsimp only
    | intro _

theorem execJrnlCommit_keeps {s out : State} (e : execJrnlCommit s = .next out) : Keeps s out := by
  cases e
  repeat' first
    | with_reducible exact Keeps.refl _
    | with_reducible assumption
    | with_reducible apply jrnlCommitOp_keeps
    | with_reducible apply State.access_keeps
    | dsimp only
    | intro _

theorem State.meterFiring_keeps {root s : State} (h : Keeps root s) : Keeps root (State.meterFiring s) := by
  unfold State.meterFiring
  repeat' first
    | with_reducible assumption
    | with_reducible refine State.withMet_keeps ?_ _ rfl
    | refine Keeps.upd ?_ rfl rfl rfl rfl rfl
    | dsimp only
    | intro _

end Sys2Proof.Machine
end

