-- ==== Sys2Proof/Laws/KeepsSaggar.lean ====
section
/-!
SUPPORT. Each operation of Machine/Saggar.lean keeps the queue of waiting commands and the canonical form of the memories.
-/

namespace Sys2Proof.Machine

open Sys2Proof

set_option linter.all false

theorem State.onSag_keeps {root s : State} (h : Keeps root s) (f : SagState → SagState) : Keeps root (State.onSag s f) := by
  unfold State.onSag
  repeat' first
    | with_reducible assumption
    | with_reducible apply State.withSag_keeps
    | dsimp only
    | intro _

theorem State.discardStaged_keeps {root s : State} (h : Keeps root s) : Keeps root (State.discardStaged s) := by
  unfold State.discardStaged
  refine Keeps.ite (State.put_keeps (State.put_keeps (State.put_keeps (Keeps.glz h fun _ => rfl) _ _) _ _) _ _) h

theorem State.orderlyBegin_keeps {root s : State} (h : Keeps root s) (cause : Nat) : Keeps root (State.orderlyBegin s cause) := by
  unfold State.orderlyBegin
  repeat' first
    | with_reducible assumption
    | with_reducible apply State.pfSave_keeps
    | with_reducible apply State.raiseStop_keeps
    | with_reducible apply State.withPwr_keeps
    | with_reducible apply Keeps.ite
    | split
    | refine Keeps.upd ?_ rfl rfl rfl rfl rfl
    | dsimp only
    | intro _

theorem State.attestCommit_keeps {root s : State} (h : Keeps root s) (q : Nat) : Keeps root (State.attestCommit s q) := by
  unfold State.attestCommit
  repeat' first
    | with_reducible assumption
    | with_reducible apply State.onSag_keeps
    | with_reducible apply State.putB_keeps
    | with_reducible apply State.put_keeps
    | with_reducible apply Keeps.ite
    | split
    | refine Keeps.upd ?_ rfl rfl rfl rfl rfl
    | dsimp only
    | intro _

theorem State.keepTree_keeps {root s : State} (h : Keeps root s) (t : Nat) : Keeps root (State.keepTree s t) := by
  unfold State.keepTree
  repeat' first
    | with_reducible assumption
    | with_reducible apply State.onSag_keeps
    | with_reducible apply Keeps.ite
    | split
    | refine Keeps.upd ?_ rfl rfl rfl rfl rfl
    | dsimp only
    | intro _

theorem execTreeBuildDone_keeps {s out : State} (e : execTreeBuildDone s = .next out) : Keeps s out := by
  cases e
  repeat' first
    | with_reducible exact Keeps.refl _
    | with_reducible assumption
    | with_reducible apply State.keepTree_keeps
    | with_reducible apply State.onSag_keeps
    | with_reducible apply State.put_keeps
    | with_reducible apply Keeps.ite
    | split
    | refine Keeps.upd ?_ rfl rfl rfl rfl rfl
    | dsimp only
    | intro _

theorem State.attestWasted_keeps {root s : State} (h : Keeps root s) : Keeps root (State.attestWasted s) := by
  unfold State.attestWasted
  repeat' first
    | with_reducible assumption
    | with_reducible apply State.onSag_keeps
    | with_reducible apply State.journal_keeps
    | with_reducible apply Keeps.ite
    | split
    | refine Keeps.upd ?_ rfl rfl rfl rfl rfl
    | dsimp only
    | intro _

theorem State.debugClose_keeps {root s : State} (h : Keeps root s) : Keeps root (State.debugClose s) := by
  unfold State.debugClose
  repeat' first
    | with_reducible assumption
    | with_reducible apply State.put_keeps
    | dsimp only
    | intro _

theorem State.zeroise_keeps {root s : State} (h : Keeps root s) (t : Nat) : Keeps root (State.zeroise s t) := by
  unfold State.zeroise
  repeat' first
    | with_reducible assumption
    | with_reducible apply State.orderlyBegin_keeps
    | with_reducible apply State.onSag_keeps
    | with_reducible apply State.journal_keeps
    | with_reducible apply State.put_keeps
    | with_reducible apply State.withPug_keeps
    | with_reducible apply Keeps.ite
    | split
    | refine Keeps.upd ?_ rfl rfl rfl rfl rfl
    | dsimp only
    | intro _

theorem State.lockSag_keeps {root s : State} (h : Keeps root s) : Keeps root (State.lockSag s) := by
  unfold State.lockSag
  repeat' first
    | with_reducible assumption
    | with_reducible apply State.debugClose_keeps
    | with_reducible apply State.onSag_keeps
    | with_reducible apply State.put_keeps
    | with_reducible apply Keeps.ite
    | split
    | refine Keeps.upd ?_ rfl rfl rfl rfl rfl
    | dsimp only
    | intro _

theorem State.gaspTrigger_keeps {root s : State} (h : Keeps root s) (trigger detail : Nat) : Keeps root (State.gaspTrigger s trigger
    detail) := by
  unfold State.gaspTrigger
  repeat' first
    | with_reducible assumption
    | with_reducible apply State.journal_keeps
    | with_reducible apply State.put_keeps
    | with_reducible apply State.withPug_keeps
    | with_reducible apply Keeps.ite
    | split
    | refine Keeps.upd ?_ rfl rfl rfl rfl rfl
    | dsimp only
    | intro _

theorem State.tamperAct_keeps {root s : State} (h : Keeps root s) (sensor v : Nat) : Keeps root (State.tamperAct s sensor v) := by
  unfold State.tamperAct
  repeat' first
    | with_reducible assumption
    | with_reducible apply State.gaspTrigger_keeps
    | with_reducible apply State.lockSag_keeps
    | with_reducible apply State.zeroise_keeps
    | with_reducible apply State.journal_keeps
    | with_reducible apply State.orBits_keeps
    | with_reducible apply State.inc_keeps
    | with_reducible apply State.put_keeps
    | refine Keeps.when ?_ fun _ _ => ?_
    | split
    | dsimp only
    | intro _

theorem State.tamperDue_keeps {root s : State} (h : Keeps root s) : Keeps root (State.tamperDue s) := by
  unfold State.tamperDue
  repeat' first
    | with_reducible assumption
    | with_reducible apply State.tamperAct_keeps
    | with_reducible apply State.withPug_keeps
    | refine Keeps.each ?_ fun _ _ _ => ?_
    | refine Keeps.upd ?_ rfl rfl rfl rfl rfl
    | dsimp only
    | intro _

theorem execTamperEvent_keeps {s out : State} (sensor : Fin 4) (v : Word) (e : execTamperEvent sensor v s = .next out) : Keeps s out
    := by
  cases e
  repeat' first
    | with_reducible exact Keeps.refl _
    | with_reducible assumption
    | with_reducible apply State.tamperAct_keeps
    | with_reducible apply State.withPug_keeps
    | with_reducible apply Keeps.ite
    | split
    | refine Keeps.upd ?_ rfl rfl rfl rfl rfl
    | dsimp only
    | intro _

theorem State.svcFree_keeps {root s : State} (h : Keeps root s) (id len : Nat) : Keeps root (State.svcFree s id len).1 := by
  unfold State.svcFree
  try dsimp only
  repeat' first
    | with_reducible assumption
    | split
    | with_reducible apply State.tookFree_keeps
    | refine Keeps.upd ?_ rfl rfl rfl rfl rfl
    | dsimp only
    | intro _

theorem State.svcStart_keeps {root s : State} (h : Keeps root s) (id len : Nat) (f : State → State × SvcRun) (hf : ∀ u0, Keeps root
    u0 → Keeps root (f u0).1) : Keeps root (State.svcStart s id len f) := by
  unfold State.svcStart
  repeat' first
    | with_reducible assumption
    | with_reducible apply hf
    | with_reducible apply State.onSag_keeps
    | with_reducible apply State.inc_keeps
    | with_reducible apply State.put_keeps
    | with_reducible apply Keeps.ite
    | split
    | refine Keeps.upd ?_ rfl rfl rfl rfl rfl
    | dsimp only
    | intro _

theorem State.svcGo_keeps {root s : State} (h : Keeps root s) (id len : Nat) (f : State → State × SvcRun) (hf : ∀ u0, Keeps root u0
    → Keeps root (f u0).1) : Keeps root (State.svcGo s id len f) := by
  unfold State.svcGo
  repeat' first
    | with_reducible assumption
    | with_reducible apply hf
    | with_reducible apply State.svcStart_keeps
    | with_reducible apply State.access_keeps
    | dsimp only
    | intro _

theorem State.authorised_keeps {root s : State} (h : Keeps root s) (id : Nat) (sigOk : Nat → Bool) (f : State → State × SvcRun) (hf
    : ∀ u0, Keeps root u0 → Keeps root (f u0).1) : Keeps root (State.authorised s id sigOk f).1 := by
  unfold State.authorised
  try dsimp only
  repeat' first
    | with_reducible assumption
    | split
    | with_reducible apply hf
    | with_reducible apply State.onSag_keeps
    | with_reducible apply State.journal_keeps
    | with_reducible apply Keeps.ite
    | refine Keeps.upd ?_ rfl rfl rfl rfl rfl
    | dsimp only
    | intro _

theorem execServiceComplete_keeps {s out : State} (e : execServiceComplete s = .next out) : Keeps s out := by
  cases e
  repeat' first
    | with_reducible exact Keeps.refl _
    | with_reducible assumption
    | with_reducible apply State.onSag_keeps
    | with_reducible apply State.journal_keeps
    | with_reducible apply State.put_keeps
    | split
    | refine Keeps.upd ?_ rfl rfl rfl rfl rfl
    | dsimp only
    | intro _

theorem execNonceExpiry_keeps {s out : State} (e : execNonceExpiry s = .next out) : Keeps s out := by
  cases e
  repeat' first
    | with_reducible exact Keeps.refl _
    | with_reducible assumption
    | with_reducible apply State.onSag_keeps
    | refine Keeps.upd ?_ rfl rfl rfl rfl rfl
    | dsimp only
    | intro _

theorem svcGetInfo_keeps {root s : State} (h : Keeps root s) : Keeps root (svcGetInfo s).1 := by
  unfold svcGetInfo
  try dsimp only
  repeat' first
    | with_reducible assumption
    | split
    | with_reducible apply State.onSag_keeps
    | refine Keeps.upd ?_ rfl rfl rfl rfl rfl
    | dsimp only
    | intro _

theorem execGetInfo_keeps {s out : State} (e : execGetInfo s = .next out) : Keeps s out := by
  cases e
  repeat' first
    | with_reducible exact Keeps.refl _
    | with_reducible assumption
    | with_reducible apply svcGetInfo_keeps
    | with_reducible apply State.svcGo_keeps
    | dsimp only
    | intro _

theorem svcGetNonce_keeps {root s : State} (h : Keeps root s) : Keeps root (svcGetNonce s).1 := by
  unfold svcGetNonce
  try dsimp only
  repeat' first
    | with_reducible assumption
    | split
    | with_reducible apply State.svcFree_keeps
    | with_reducible apply State.onSag_keeps
    | refine Keeps.upd ?_ rfl rfl rfl rfl rfl
    | dsimp only
    | intro _

theorem execGetNonce_keeps {s out : State} (e : execGetNonce s = .next out) : Keeps s out := by
  cases e
  repeat' first
    | with_reducible exact Keeps.refl _
    | with_reducible assumption
    | with_reducible apply svcGetNonce_keeps
    | with_reducible apply State.svcGo_keeps
    | dsimp only
    | intro _

theorem State.sagError_keeps {root s : State} (h : Keeps root s) : Keeps root (State.sagError s) := by
  unfold State.sagError
  repeat' first
    | with_reducible assumption
    | with_reducible apply State.onSag_keeps
    | with_reducible apply State.put_keeps
    | refine Keeps.upd ?_ rfl rfl rfl rfl rfl
    | dsimp only
    | intro _

theorem svcAttest_keeps {root s : State} (h : Keeps root s) (nonce : Vector Word 8) (verifies : Bool) : Keeps root (svcAttest nonce
    verifies s).1 := by
  unfold svcAttest
  try dsimp only
  repeat' first
    | with_reducible assumption
    | split
    | with_reducible apply State.sagError_keeps
    | with_reducible apply State.attestCommit_keeps
    | with_reducible refine Keeps.foldl ?_ fun _ _ _ => ?_
    | with_reducible apply Keeps.ite
    | refine Keeps.upd ?_ rfl rfl rfl rfl rfl
    | dsimp only
    | intro _

theorem execAttest_keeps {s out : State} (nonce : Vector Word 8) (verifies : Bool) (e : execAttest nonce verifies s = .next out) :
    Keeps s out := by
  cases e
  repeat' first
    | with_reducible exact Keeps.refl _
    | with_reducible assumption
    | with_reducible apply svcAttest_keeps
    | with_reducible apply State.svcGo_keeps
    | dsimp only
    | intro _

theorem svcGetCert_keeps {root s : State} (h : Keeps root s) : Keeps root (svcGetCert s).1 := by
  unfold svcGetCert
  try dsimp only
  repeat' first
    | with_reducible assumption
    | split
    | refine Keeps.upd ?_ rfl rfl rfl rfl rfl
    | dsimp only
    | intro _

theorem execGetCert_keeps {s out : State} (e : execGetCert s = .next out) : Keeps s out := by
  cases e
  repeat' first
    | with_reducible exact Keeps.refl _
    | with_reducible assumption
    | with_reducible apply svcGetCert_keeps
    | with_reducible apply State.svcGo_keeps
    | dsimp only
    | intro _

theorem svcEnroll_keeps {root s : State} (h : Keeps root s) (fw glz svc : BitVec 480) (okek : BitVec 256) (sig : HssSig) : Keeps
    root (svcEnroll fw glz svc okek sig s).1 := by
  unfold svcEnroll
  try dsimp only
  repeat' first
    | with_reducible assumption
    | split
    | with_reducible apply State.authorised_keeps
    | with_reducible apply State.onSag_keeps
    | with_reducible apply State.journal_keeps
    | with_reducible apply State.put_keeps
    | refine Keeps.upd ?_ rfl rfl rfl rfl rfl
    | dsimp only
    | intro _

theorem execEnroll_keeps {s out : State} (fw glz svc : BitVec 480) (okek : BitVec 256) (sig : HssSig) (e : execEnroll fw glz svc
    okek sig s = .next out) : Keeps s out := by
  cases e
  repeat' first
    | with_reducible exact Keeps.refl _
    | with_reducible assumption
    | with_reducible apply svcEnroll_keeps
    | with_reducible apply State.svcGo_keeps
    | dsimp only
    | intro _

theorem State.dropStaged_keeps {root s : State} (h : Keeps root s) : Keeps root (State.dropStaged s) := by
  unfold State.dropStaged
  repeat' first
    | with_reducible assumption
    | with_reducible apply State.discardStaged_keeps
    | refine Keeps.when ?_ fun _ _ => ?_
    | dsimp only
    | intro _

theorem svcRotate_keeps {root s : State} (h : Keeps root s) (k : KeySlot) (v : BitVec 480) (wrap : Wrapped) (sig : HssSig) : Keeps
    root (svcRotate k v wrap sig s).1 := by
  unfold svcRotate
  try dsimp only
  repeat' first
    | with_reducible assumption
    | split
    | with_reducible apply State.dropStaged_keeps
    | with_reducible apply State.authorised_keeps
    | with_reducible apply State.onSag_keeps
    | with_reducible apply State.journal_keeps
    | refine Keeps.when ?_ fun _ _ => ?_
    | with_reducible apply Keeps.ite
    | refine Keeps.upd ?_ rfl rfl rfl rfl rfl
    | dsimp only
    | intro _

theorem execRotate_keeps {s out : State} (k : KeySlot) (v : BitVec 480) (wrap : Wrapped) (sig : HssSig) (e : execRotate k v wrap sig
    s = .next out) : Keeps s out := by
  cases e
  repeat' first
    | with_reducible exact Keeps.refl _
    | with_reducible assumption
    | with_reducible apply svcRotate_keeps
    | with_reducible apply State.svcGo_keeps
    | dsimp only
    | intro _

theorem svcReleaseOwner_keeps {root s : State} (h : Keeps root s) (sig : HssSig) : Keeps root (svcReleaseOwner sig s).1 := by
  unfold svcReleaseOwner
  try dsimp only
  repeat' first
    | with_reducible assumption
    | split
    | with_reducible apply State.dropStaged_keeps
    | with_reducible apply State.authorised_keeps
    | with_reducible apply State.onSag_keeps
    | with_reducible apply State.journal_keeps
    | with_reducible apply State.put_keeps
    | refine Keeps.upd ?_ rfl rfl rfl rfl rfl
    | dsimp only
    | intro _

theorem execReleaseOwner_keeps {s out : State} (sig : HssSig) (e : execReleaseOwner sig s = .next out) : Keeps s out := by
  cases e
  repeat' first
    | with_reducible exact Keeps.refl _
    | with_reducible assumption
    | with_reducible apply svcReleaseOwner_keeps
    | with_reducible apply State.svcGo_keeps
    | dsimp only
    | intro _

theorem svcFwConfirm_keeps {root s : State} (h : Keeps root s) : Keeps root (svcFwConfirm s).1 := by
  unfold svcFwConfirm
  try dsimp only
  repeat' first
    | with_reducible assumption
    | split
    | with_reducible apply State.journal_keeps
    | with_reducible apply State.put_keeps
    | dsimp only
    | intro _

theorem execFwConfirm_keeps {s out : State} (e : execFwConfirm s = .next out) : Keeps s out := by
  cases e
  repeat' first
    | with_reducible exact Keeps.refl _
    | with_reducible assumption
    | with_reducible apply svcFwConfirm_keeps
    | with_reducible apply State.svcGo_keeps
    | dsimp only
    | intro _

theorem svcSetBoot_keeps {root s : State} (h : Keeps root s) (glz : Bool) (slot : Fin 2) (f : FwFile) : Keeps root (svcSetBoot glz
    slot f s).1 := by
  unfold svcSetBoot
  try dsimp only
  repeat' first
    | with_reducible assumption
    | split
    | with_reducible apply State.onSag_keeps
    | with_reducible apply State.journal_keeps
    | with_reducible refine State.withGlz_keeps ?_ _ rfl
    | refine Keeps.when ?_ fun _ _ => ?_
    | with_reducible apply Keeps.ite
    | refine Keeps.upd ?_ rfl rfl rfl rfl rfl
    | dsimp only
    | intro _

theorem execSetBoot_keeps {s out : State} (glz : Bool) (slot : Fin 2) (img : FwFile) (e : execSetBoot glz slot img s = .next out) :
    Keeps s out := by
  cases e
  repeat' first
    | with_reducible exact Keeps.refl _
    | with_reducible assumption
    | with_reducible apply svcSetBoot_keeps
    | with_reducible apply State.svcGo_keeps
    | dsimp only
    | intro _

theorem svcCounterInc_keeps {root s : State} (h : Keeps root s) (k : Fin 8) : Keeps root (svcCounterInc k s).1 := by
  unfold svcCounterInc
  try dsimp only
  repeat' first
    | with_reducible assumption
    | split
    | with_reducible apply State.onSag_keeps
    | refine Keeps.upd ?_ rfl rfl rfl rfl rfl
    | dsimp only
    | intro _

theorem execCounterInc_keeps {s out : State} (k : Fin 8) (e : execCounterInc k s = .next out) : Keeps s out := by
  cases e
  repeat' first
    | with_reducible exact Keeps.refl _
    | with_reducible assumption
    | with_reducible apply svcCounterInc_keeps
    | with_reducible apply State.svcGo_keeps
    | dsimp only
    | intro _

theorem svcCounterRead_keeps {root s : State} (h : Keeps root s) (k : Fin 8) : Keeps root (svcCounterRead k s).1 := by
  unfold svcCounterRead
  try dsimp only
  repeat' first
    | with_reducible assumption
    | split
    | refine Keeps.upd ?_ rfl rfl rfl rfl rfl
    | dsimp only
    | intro _

theorem execCounterRead_keeps {s out : State} (k : Fin 8) (e : execCounterRead k s = .next out) : Keeps s out := by
  cases e
  repeat' first
    | with_reducible exact Keeps.refl _
    | with_reducible assumption
    | with_reducible apply svcCounterRead_keeps
    | with_reducible apply State.svcGo_keeps
    | dsimp only
    | intro _

theorem svcDebugUnlock_keeps {root s : State} (h : Keeps root s) (two : Bool) (sig : HssSig) : Keeps root (svcDebugUnlock two sig
    s).1 := by
  unfold svcDebugUnlock
  try dsimp only
  repeat' first
    | with_reducible assumption
    | split
    | with_reducible apply State.authorised_keeps
    | with_reducible apply State.journal_keeps
    | with_reducible apply State.put_keeps
    | with_reducible apply Keeps.ite
    | dsimp only
    | intro _

theorem execDebugUnlock_keeps {s out : State} (two : Bool) (sig : HssSig) (e : execDebugUnlock two sig s = .next out) : Keeps s out
    := by
  cases e
  repeat' first
    | with_reducible exact Keeps.refl _
    | with_reducible assumption
    | with_reducible apply svcDebugUnlock_keeps
    | with_reducible apply State.svcGo_keeps
    | dsimp only
    | intro _

theorem svcDebugLock_keeps {root s : State} (h : Keeps root s) : Keeps root (svcDebugLock s).1 := by
  unfold svcDebugLock
  try dsimp only
  repeat' first
    | with_reducible assumption
    | split
    | with_reducible apply State.debugClose_keeps
    | dsimp only
    | intro _

theorem execDebugLock_keeps {s out : State} (e : execDebugLock s = .next out) : Keeps s out := by
  cases e
  repeat' first
    | with_reducible exact Keeps.refl _
    | with_reducible assumption
    | with_reducible apply svcDebugLock_keeps
    | with_reducible apply State.svcGo_keeps
    | dsimp only
    | intro _

theorem svcTotalsReset_keeps {root s : State} (h : Keeps root s) (sig : HssSig) : Keeps root (svcTotalsReset sig s).1 := by
  unfold svcTotalsReset
  try dsimp only
  repeat' first
    | with_reducible assumption
    | split
    | with_reducible apply State.authorised_keeps
    | with_reducible refine State.withMet_keeps ?_ _ rfl
    | refine Keeps.upd ?_ rfl rfl rfl rfl rfl
    | dsimp only
    | intro _

theorem execTotalsReset_keeps {s out : State} (sig : HssSig) (e : execTotalsReset sig s = .next out) : Keeps s out := by
  cases e
  repeat' first
    | with_reducible exact Keeps.refl _
    | with_reducible assumption
    | with_reducible apply svcTotalsReset_keeps
    | with_reducible apply State.svcGo_keeps
    | dsimp only
    | intro _

theorem svcTamperCfg_keeps {root s : State} (h : Keeps root s) (temp volt clk : Tamper) (hi : Fin 41) (sig : HssSig) : Keeps root
    (svcTamperCfg temp volt clk hi sig s).1 := by
  unfold svcTamperCfg
  try dsimp only
  repeat' first
    | with_reducible assumption
    | split
    | with_reducible apply State.authorised_keeps
    | with_reducible apply State.onSag_keeps
    | refine Keeps.upd ?_ rfl rfl rfl rfl rfl
    | dsimp only
    | intro _

theorem execTamperCfg_keeps {s out : State} (temp volt clk : Tamper) (hi : Fin 41) (sig : HssSig) (e : execTamperCfg temp volt clk
    hi sig s = .next out) : Keeps s out := by
  cases e
  repeat' first
    | with_reducible exact Keeps.refl _
    | with_reducible assumption
    | with_reducible apply svcTamperCfg_keeps
    | with_reducible apply State.svcGo_keeps
    | dsimp only
    | intro _

theorem svcZeroise_keeps {root s : State} (h : Keeps root s) (sig : HssSig) : Keeps root (svcZeroise sig s).1 := by
  unfold svcZeroise
  try dsimp only
  repeat' first
    | with_reducible assumption
    | split
    | with_reducible apply State.authorised_keeps
    | with_reducible apply State.zeroise_keeps
    | dsimp only
    | intro _

theorem execZeroise_keeps {s out : State} (sig : HssSig) (e : execZeroise sig s = .next out) : Keeps s out := by
  cases e
  repeat' first
    | with_reducible exact Keeps.refl _
    | with_reducible assumption
    | with_reducible apply svcZeroise_keeps
    | with_reducible apply State.svcGo_keeps
    | dsimp only
    | intro _

theorem svcCakInstall_keeps {root s : State} (h : Keeps root s) (m : Fin 2) (slot : Fin 4) (ckn : List Byte) (wrap : Wrapped) :
    Keeps root (svcCakInstall m slot ckn wrap s).1 := by
  unfold svcCakInstall
  try dsimp only
  repeat' first
    | with_reducible assumption
    | split
    | with_reducible apply State.onSag_keeps
    | with_reducible apply Keeps.ite
    | refine Keeps.upd ?_ rfl rfl rfl rfl rfl
    | dsimp only
    | intro _

theorem execCakInstall_keeps {s out : State} (m : Fin 2) (slot : Fin 4) (ckn : List Byte) (wrap : Wrapped) (e : execCakInstall m
    slot ckn wrap s = .next out) : Keeps s out := by
  cases e
  repeat' first
    | with_reducible exact Keeps.refl _
    | with_reducible assumption
    | with_reducible apply svcCakInstall_keeps
    | with_reducible apply State.svcGo_keeps
    | dsimp only
    | intro _

theorem State.loadSak_keeps {root s : State} (h : Keeps root s) (m : Fin 2) (a : Fin 36) (v : Nat) : Keeps root (State.loadSak s m a
    v) := by
  unfold State.loadSak
  repeat' first
    | with_reducible assumption
    | with_reducible apply State.onSag_keeps
    | with_reducible apply State.onMac_keeps
    | with_reducible apply Keeps.ite
    | split
    | refine Keeps.upd ?_ rfl rfl rfl rfl rfl
    | dsimp only
    | intro _

theorem svcSakGen_keeps {root s : State} (h : Keeps root s) (m : Fin 2) (a : Fin 36) (slot : Fin 4) : Keeps root (svcSakGen m a slot
    s).1 := by
  unfold svcSakGen
  try dsimp only
  repeat' first
    | with_reducible assumption
    | split
    | with_reducible apply State.loadSak_keeps
    | with_reducible apply State.svcFree_keeps
    | with_reducible apply Keeps.ite
    | dsimp only
    | intro _

theorem execSakGen_keeps {s out : State} (m : Fin 2) (a : Fin 36) (slot : Fin 4) (e : execSakGen m a slot s = .next out) : Keeps s
    out := by
  cases e
  repeat' first
    | with_reducible exact Keeps.refl _
    | with_reducible assumption
    | with_reducible apply svcSakGen_keeps
    | with_reducible apply State.svcGo_keeps
    | dsimp only
    | intro _

theorem svcSakLoad_keeps {root s : State} (h : Keeps root s) (m : Fin 2) (a : Fin 36) (slot : Fin 4) (wrap : Wrapped) : Keeps root
    (svcSakLoad m a slot wrap s).1 := by
  unfold svcSakLoad
  try dsimp only
  repeat' first
    | with_reducible assumption
    | split
    | with_reducible apply State.loadSak_keeps
    | with_reducible apply Keeps.ite
    | dsimp only
    | intro _

theorem execSakLoad_keeps {s out : State} (m : Fin 2) (a : Fin 36) (slot : Fin 4) (wrap : Wrapped) (e : execSakLoad m a slot wrap s
    = .next out) : Keeps s out := by
  cases e
  repeat' first
    | with_reducible exact Keeps.refl _
    | with_reducible assumption
    | with_reducible apply svcSakLoad_keeps
    | with_reducible apply State.svcGo_keeps
    | dsimp only
    | intro _

theorem svcMkaIcv_keeps {root s : State} (h : Keeps root s) (m : Fin 2) (slot : Fin 4) (pdu : List Byte) : Keeps root (svcMkaIcv m
    slot pdu s).1 := by
  unfold svcMkaIcv
  try dsimp only
  repeat' first
    | with_reducible assumption
    | split
    | with_reducible refine Keeps.foldl ?_ fun _ _ _ => ?_
    | refine Keeps.upd ?_ rfl rfl rfl rfl rfl
    | dsimp only
    | intro _

theorem execMkaIcv_keeps {s out : State} (cak : Fin 2 × Fin 4) (pdu : List Byte) (e : execMkaIcv cak pdu s = .next out) : Keeps
    s out := by
  cases e
  repeat' first
    | with_reducible exact Keeps.refl _
    | with_reducible assumption
    | with_reducible apply svcMkaIcv_keeps
    | with_reducible apply State.svcGo_keeps
    | dsimp only
    | intro _

theorem svcRandom_keeps {root s : State} (h : Keeps root s) (n : BitVec 14) : Keeps root (svcRandom n s).1 := by
  unfold svcRandom
  try dsimp only
  repeat' first
    | with_reducible assumption
    | split
    | with_reducible apply State.svcFree_keeps
    | with_reducible apply Keeps.ite
    | dsimp only
    | intro _

theorem execRandom_keeps {s out : State} (n : BitVec 14) (e : execRandom n s = .next out) : Keeps s out := by
  cases e
  repeat' first
    | with_reducible exact Keeps.refl _
    | with_reducible assumption
    | with_reducible apply svcRandom_keeps
    | with_reducible apply State.svcGo_keeps
    | dsimp only
    | intro _

theorem svcBody_keeps {root s : State} (h : Keeps root s) (r : SvcReq) : Keeps root (svcBody r s).1 := by
  unfold svcBody
  try dsimp only
  repeat' first
    | with_reducible assumption
    | split
    | with_reducible apply svcRandom_keeps
    | with_reducible apply svcMkaIcv_keeps
    | with_reducible apply svcSakLoad_keeps
    | with_reducible apply svcSakGen_keeps
    | with_reducible apply svcCakInstall_keeps
    | with_reducible apply svcZeroise_keeps
    | with_reducible apply svcTamperCfg_keeps
    | with_reducible apply svcTotalsReset_keeps
    | with_reducible apply svcDebugLock_keeps
    | with_reducible apply svcDebugUnlock_keeps
    | with_reducible apply svcCounterRead_keeps
    | with_reducible apply svcCounterInc_keeps
    | with_reducible apply svcSetBoot_keeps
    | with_reducible apply svcFwConfirm_keeps
    | with_reducible apply svcReleaseOwner_keeps
    | with_reducible apply svcRotate_keeps
    | with_reducible apply svcEnroll_keeps
    | with_reducible apply svcGetCert_keeps
    | with_reducible apply svcAttest_keeps
    | with_reducible apply svcGetNonce_keeps
    | with_reducible apply svcGetInfo_keeps
    | dsimp only
    | intro _

theorem svcRequest_keeps {root s : State} (h : Keeps root s) (id len : Nat) (x : BusFacts) : Keeps root (svcRequest id len x s).1 :=
    by
  unfold svcRequest
  try dsimp only
  repeat' first
    | with_reducible assumption
    | split
    | with_reducible apply svcBody_keeps
    | dsimp only
    | intro _

theorem execSaggarEntryFlush_keeps {s out : State} (e : execSaggarEntryFlush s = .next out) : Keeps s out := by
  cases e
  repeat' first
    | with_reducible exact Keeps.refl _
    | with_reducible assumption
    | with_reducible apply State.onSag_keeps
    | with_reducible refine State.withMet_keeps ?_ _ rfl
    | with_reducible apply Keeps.ite
    | split
    | refine Keeps.upd ?_ rfl rfl rfl rfl rfl
    | dsimp only
    | intro _

theorem xspiCmdOp_keeps {root s : State} (h : Keeps root s) (v : Word) (span : Nat) : Keeps root (xspiCmdOp v span s) := by
  unfold xspiCmdOp
  repeat' first
    | with_reducible assumption
    | with_reducible apply State.onSag_keeps
    | with_reducible apply State.busError_keeps
    | with_reducible apply State.respond_keeps
    | with_reducible apply State.inc_keeps
    | with_reducible apply State.put_keeps
    | with_reducible apply Keeps.ite
    | split
    | refine Keeps.upd ?_ rfl rfl rfl rfl rfl
    | dsimp only
    | intro _

theorem execXspiCmd_keeps {s out : State} (v : Word) (programs : Bool) (span : Nat) (e : execXspiCmd v programs span s = .next
    out) : Keeps s out := by
  cases e
  repeat' first
    | with_reducible exact Keeps.refl _
    | with_reducible assumption
    | with_reducible apply xspiCmdOp_keeps
    | refine Keeps.when ?_ fun _ _ => ?_
    | dsimp only
    | intro _

theorem execXspiCommandDone_keeps {s out : State} (err : Bool) (e : execXspiCommandDone err s = .next out) : Keeps s out := by
  cases e
  repeat' first
    | with_reducible exact Keeps.refl _
    | with_reducible assumption
    | with_reducible apply State.onSag_keeps
    | with_reducible apply State.putB_keeps
    | with_reducible apply State.put_keeps
    | refine Keeps.when ?_ fun _ _ => ?_
    | with_reducible apply Keeps.ite
    | split
    | refine Keeps.upd ?_ rfl rfl rfl rfl rfl
    | dsimp only
    | intro _

end Sys2Proof.Machine
end

