-- ==== Sys2Proof/Laws/KeepsPug.lean ====
section
/-!
SUPPORT. Each operation of Machine/Pug.lean keeps the queue of waiting commands and the canonical form of the memories.
-/

namespace Sys2Proof.Machine

open Sys2Proof

set_option linter.all false

theorem State.onPug_keeps {root s : State} (h : Keeps root s) (f : PugState → PugState) : Keeps root (State.onPug s f) := by
  unfold State.onPug
  repeat' first
    | with_reducible assumption
    | with_reducible apply State.withPug_keeps
    | dsimp only
    | intro _

theorem State.chargerSet_keeps {root s : State} (h : Keeps root s) : Keeps root (State.chargerSet s) := by
  unfold State.chargerSet
  repeat' first
    | with_reducible assumption
    | with_reducible apply State.onPug_keeps
    | refine Keeps.upd ?_ rfl rfl rfl rfl rfl
    | dsimp only
    | intro _

theorem State.storeTold_keeps {root s : State} (h : Keeps root s) (mv : Nat) : Keeps root (State.storeTold s mv) := by
  unfold State.storeTold
  repeat' first
    | with_reducible assumption
    | with_reducible apply State.chargerSet_keeps
    | with_reducible apply State.put_keeps
    | dsimp only
    | intro _

theorem State.supplyLoss_keeps {root s : State} (h : Keeps root s) : Keeps root (State.supplyLoss s) := by
  unfold State.supplyLoss
  refine State.put_keeps (State.put_keeps (State.onSag_keeps (State.withPug_keeps (State.withRegs_keeps h _ fun k => ?_) _) _) _ _) _ _
  exact cellsWf_foldl k fun _ _ g => cellsWf_put g

theorem State.pugSelect_keeps {root s : State} (h : Keeps root s) (store vbat : Nat) : Keeps root (State.pugSelect s store vbat) :=
    by
  unfold State.pugSelect
  repeat' first
    | with_reducible assumption
    | with_reducible apply State.supplyLoss_keeps
    | with_reducible apply State.storeTold_keeps
    | with_reducible apply State.onPug_keeps
    | with_reducible apply State.journal_keeps
    | with_reducible apply State.put_keeps
    | refine Keeps.when ?_ fun _ _ => ?_
    | with_reducible apply Keeps.ite
    | split
    | refine Keeps.upd ?_ rfl rfl rfl rfl rfl
    | dsimp only
    | intro _

theorem execPugModeChange_keeps {s out : State} (active : Bool) (secs : Word) (e : execPugModeChange active secs s = .next out) :
    Keeps s out := by
  cases e
  repeat' first
    | with_reducible exact Keeps.refl _
    | with_reducible assumption
    | with_reducible apply State.journal_keeps
    | with_reducible apply State.put_keeps
    | refine Keeps.when ?_ fun _ _ => ?_
    | with_reducible apply Keeps.ite
    | split
    | dsimp only
    | intro _

theorem execPugVocMeasure_keeps {s out : State} (voc store : BitVec 16) (harvest : Bool) (e : execPugVocMeasure voc store harvest s
    = .next out) : Keeps s out := by
  cases e
  repeat' first
    | with_reducible exact Keeps.refl _
    | with_reducible assumption
    | with_reducible apply State.storeTold_keeps
    | with_reducible apply State.onPug_keeps
    | with_reducible apply State.tamperDue_keeps
    | with_reducible apply State.putB_keeps
    | with_reducible apply State.put_keeps
    | with_reducible apply Keeps.ite
    | split
    | refine Keeps.upd ?_ rfl rfl rfl rfl rfl
    | dsimp only
    | intro _

theorem execPugSourceChange_keeps {s out : State} (store vbat : BitVec 16) (e : execPugSourceChange store vbat s = .next out) :
    Keeps s out := by
  cases e
  repeat' first
    | with_reducible exact Keeps.refl _
    | with_reducible assumption
    | with_reducible apply State.pugSelect_keeps
    | with_reducible apply State.tamperDue_keeps
    | dsimp only
    | intro _

theorem execVbatLow_keeps {s out : State} (mv : BitVec 16) (e : execVbatLow mv s = .next out) : Keeps s out := by
  cases e
  repeat' first
    | with_reducible exact Keeps.refl _
    | with_reducible assumption
    | with_reducible apply State.onPug_keeps
    | with_reducible apply State.journal_keeps
    | with_reducible apply State.put_keeps
    | refine Keeps.upd ?_ rfl rfl rfl rfl rfl
    | dsimp only
    | intro _

theorem pugThrWriteOp_keeps {root s : State} (h : Keeps root s) (v : Word) : Keeps root (pugThrWriteOp v s) := by
  unfold pugThrWriteOp
  repeat' first
    | with_reducible assumption
    | with_reducible apply State.chargerSet_keeps
    | with_reducible apply State.inc_keeps
    | with_reducible apply State.put_keeps
    | with_reducible apply Keeps.ite
    | split
    | dsimp only
    | intro _

theorem execPugThrWrite_keeps {s out : State} (v : Word) (e : execPugThrWrite v s = .next out) : Keeps s out := by
  cases e
  repeat' first
    | with_reducible exact Keeps.refl _
    | with_reducible assumption
    | with_reducible apply pugThrWriteOp_keeps
    | with_reducible apply State.access_keeps
    | dsimp only
    | intro _

theorem execLastGaspTrigger_keeps {s out : State} (tamper : Bool) (detail : Word) (e : execLastGaspTrigger tamper detail s = .next
    out) : Keeps s out := by
  cases e
  repeat' first
    | with_reducible exact Keeps.refl _
    | with_reducible assumption
    | with_reducible apply State.gaspTrigger_keeps
    | refine Keeps.when ?_ fun _ _ => ?_
    | with_reducible apply Keeps.ite
    | split
    | dsimp only
    | intro _

theorem execHeartbeat_keeps {s out : State} (store : BitVec 16) (e : execHeartbeat store s = .next out) : Keeps s out := by
  cases e
  repeat' first
    | with_reducible exact Keeps.refl _
    | with_reducible assumption
    | with_reducible apply State.gaspTrigger_keeps
    | with_reducible apply Keeps.ite
    | split
    | dsimp only
    | intro _

theorem State.gaspAbandon_keeps {root s : State} (h : Keeps root s) (m : GaspMsg) (q : Nat) : Keeps root (State.gaspAbandon s m q)
    := by
  unfold State.gaspAbandon
  repeat' first
    | with_reducible assumption
    | with_reducible apply State.onPug_keeps
    | with_reducible apply State.journal_keeps
    | with_reducible apply State.put_keeps
    | refine Keeps.upd ?_ rfl rfl rfl rfl rfl
    | dsimp only
    | intro _

theorem execLastGaspSend_keeps {s out : State} (e : execLastGaspSend s = .next out) : Keeps s out := by
  cases e
  repeat' first
    | with_reducible exact Keeps.refl _
    | with_reducible assumption
    | with_reducible apply State.tookFree_keeps
    | with_reducible apply State.gaspAbandon_keeps
    | with_reducible apply State.onPug_keeps
    | with_reducible apply State.sagError_keeps
    | with_reducible apply State.attestCommit_keeps
    | with_reducible apply State.onSag_keeps
    | with_reducible apply State.put_keeps
    | with_reducible apply Keeps.ite
    | split
    | refine Keeps.upd ?_ rfl rfl rfl rfl rfl
    | dsimp only
    | intro _

theorem execLastGaspWarmupEnd_keeps {s out : State} (e : execLastGaspWarmupEnd s = .next out) : Keeps s out := by
  cases e
  repeat' first
    | with_reducible exact Keeps.refl _
    | with_reducible assumption
    | with_reducible apply State.onPug_keeps
    | with_reducible apply State.send_keeps
    | with_reducible apply Keeps.ite
    | split
    | refine Keeps.upd ?_ rfl rfl rfl rfl rfl
    | dsimp only
    | intro _

theorem State.openLoad_keeps {root s : State} (h : Keeps root s) : Keeps root (State.openLoad s) := by
  unfold State.openLoad
  repeat' first
    | with_reducible assumption
    | with_reducible apply State.onPug_keeps
    | refine Keeps.upd ?_ rfl rfl rfl rfl rfl
    | dsimp only
    | intro _

theorem execLastGaspSent_keeps {s out : State} (e : execLastGaspSent s = .next out) : Keeps s out := by
  cases e
  repeat' first
    | with_reducible exact Keeps.refl _
    | with_reducible assumption
    | with_reducible apply State.openLoad_keeps
    | with_reducible apply State.onPug_keeps
    | with_reducible apply State.journal_keeps
    | with_reducible apply State.put_keeps
    | with_reducible apply Keeps.ite
    | split
    | refine Keeps.upd ?_ rfl rfl rfl rfl rfl
    | dsimp only
    | intro _

theorem execLastGaspAbort_keeps {s out : State} (e : execLastGaspAbort s = .next out) : Keeps s out := by
  cases e
  repeat' first
    | with_reducible exact Keeps.refl _
    | with_reducible assumption
    | with_reducible apply State.openLoad_keeps
    | with_reducible apply State.journal_keeps
    | with_reducible apply State.put_keeps
    | with_reducible apply Keeps.ite
    | split
    | dsimp only
    | intro _

end Sys2Proof.Machine
end

