-- ==== Sys2Proof/Laws/KeepsPower.lean ====
section
/-!
SUPPORT. Each operation of Machine/Power.lean keeps the queue of waiting commands and the canonical form of the memories.
-/

namespace Sys2Proof.Machine

open Sys2Proof

set_option linter.all false

theorem State.onPwr_keeps {root s : State} (h : Keeps root s) (f : PwrState → PwrState) : Keeps root (State.onPwr s f) := by
  unfold State.onPwr
  repeat' first
    | with_reducible assumption
    | with_reducible apply State.withPwr_keeps
    | dsimp only
    | intro _

theorem State.serve_keeps {root s : State} (h : Keeps root s) (g : GlazeImage) : Keeps root (State.serve s g) := by
  unfold State.serve
  repeat' first
    | with_reducible assumption
    | with_reducible apply State.diagStop_keeps
    | with_reducible apply State.supRefresh_keeps
    | with_reducible apply State.onTile_keeps
    | with_reducible apply State.put_keeps
    | refine Keeps.each ?_ fun _ _ _ => ?_
    | with_reducible apply Keeps.ite
    | split
    | refine Keeps.upd ?_ rfl rfl rfl rfl rfl
    | dsimp only
    | intro _

theorem State.gpStop_keeps {root s : State} (h : Keeps root s) : Keeps root (State.gpStop s) := by
  unfold State.gpStop
  repeat' first
    | with_reducible assumption
    | with_reducible apply State.serve_keeps
    | with_reducible apply State.onPwr_keeps
    | with_reducible apply State.put_keeps
    | refine Keeps.upd ?_ rfl rfl rfl rfl rfl
    | dsimp only
    | intro _

theorem State.pwrRefuse_keeps {root s : State} (h : Keeps root s) : Keeps root (State.pwrRefuse s) := by
  unfold State.pwrRefuse
  repeat' first
    | with_reducible assumption
    | with_reducible apply State.inc_keeps
    | dsimp only
    | intro _

theorem gpEnOp_keeps {root s : State} (h : Keeps root s) (en : Bool) : Keeps root (gpEnOp en s) := by
  unfold gpEnOp
  repeat' first
    | with_reducible assumption
    | with_reducible apply State.pwrRefuse_keeps
    | with_reducible apply State.gpStop_keeps
    | with_reducible apply State.serve_keeps
    | with_reducible apply State.onPwr_keeps
    | with_reducible apply State.put_keeps
    | with_reducible apply Keeps.ite
    | split
    | refine Keeps.upd ?_ rfl rfl rfl rfl rfl
    | dsimp only
    | intro _

theorem execGpEnWrite_keeps {s out : State} (en : Bool) (e : execGpEnWrite en s = .next out) : Keeps s out := by
  cases e
  repeat' first
    | with_reducible exact Keeps.refl _
    | with_reducible assumption
    | with_reducible apply gpEnOp_keeps
    | with_reducible apply State.access_keeps
    | dsimp only
    | intro _

set_option maxRecDepth 8000 in
/-- The cells at reset are in canonical form. -/
theorem resetCells_wf : cellsWf resetCells = true := by decide

theorem State.resetRegs_keeps {root s : State} (h : Keeps root s) (cause : Nat) : Keeps root (State.resetRegs s cause) := by
  unfold State.resetRegs
  dsimp only
  refine State.inc_keeps (State.put_keeps (State.strap_keeps (Keeps.each (Keeps.each (Keeps.each ?_ fun _ _ k => ?_) fun _ _ k => ?_)
    fun _ _ k => ?_) _) _ _) _
  · exact h.regs fun _ => cellsWf_foldl resetCells_wf fun _ _ g => cellsWf_put g
  · exact State.put_keeps k _ _
  · exact State.put_keeps (State.put_keeps k _ _) _ _
  · exact State.putI_keeps (State.putI_keeps k _ _) _ _

theorem State.drainAll_keeps {root s : State} (h : Keeps root s) : Keeps root (State.drainAll s) := by
  unfold State.drainAll
  repeat' first
    | with_reducible assumption
    | with_reducible apply State.drainJournal_keeps
    | refine Keeps.each ?_ fun _ _ _ => ?_
    | dsimp only
    | intro _

theorem State.coldLoss_keeps {root s : State} (h : Keeps root s) : Keeps root (State.coldLoss s) := by
  unfold State.coldLoss
  repeat' first
    | with_reducible assumption
    | with_reducible apply State.onSag_keeps
    | with_reducible apply State.put_keeps
    | with_reducible apply State.withPug_keeps
    | refine Keeps.upd ?_ rfl rfl rfl rfl rfl
    | dsimp only
    | intro _

theorem State.moduleReset_keeps {root s : State} (h : Keeps root s) (cause : Nat) (rails : Bool) :
    Keeps root (State.moduleReset s cause rails) := by
  unfold State.moduleReset
  extract_lets s1 regs
  have k1 : Keeps root s1 := State.drainAll_keeps (Keeps.each h fun _ _ k => Keeps.when k fun _ k => State.controlLoss_keeps k _)
  have k2 : Keeps root (s1.resetRegs cause) := State.resetRegs_keeps k1 cause
  clear_value s1
  refine ⟨k1.pending, fun k => ?_⟩
  obtain ⟨_, _, _, _, _, _, m, _⟩ := State.canon_iff.mp (k1.canon k)
  obtain ⟨a, _⟩ := State.canon_iff.mp (k2.canon k)
  exact State.canon_iff.mpr ⟨a, rfl, rfl, rfl, rfl, rfl, m, rfl, rfl, rfl⟩

theorem execResetModule_keeps {s out : State} (cause : Fin 9) (e : execResetModule cause s = .next out) : Keeps s out := by
  cases e
  repeat' first
    | with_reducible exact Keeps.refl _
    | with_reducible assumption
    | with_reducible apply State.moduleReset_keeps
    | with_reducible apply State.coldLoss_keeps
    | refine Keeps.when ?_ fun _ _ => ?_
    | with_reducible apply Keeps.ite
    | split
    | dsimp only
    | intro _

theorem execBrownOut_keeps {s out : State} (e : execBrownOut s = .next out) : Keeps s out := by
  cases e
  repeat' first
    | with_reducible exact Keeps.refl _
    | with_reducible assumption
    | with_reducible apply State.moduleReset_keeps
    | with_reducible apply Keeps.ite
    | split
    | dsimp only
    | intro _

theorem execResetPin_keeps {s out : State} (e : execResetPin s = .next out) : Keeps s out := by
  cases e
  repeat' first
    | with_reducible exact Keeps.refl _
    | with_reducible assumption
    | with_reducible apply State.onPwr_keeps
    | with_reducible apply State.orderlyBegin_keeps
    | refine Keeps.upd ?_ rfl rfl rfl rfl rfl
    | dsimp only
    | intro _

theorem execResetNRelease_keeps {s out : State} (e : execResetNRelease s = .next out) : Keeps s out := by
  cases e
  repeat' first
    | with_reducible exact Keeps.refl _
    | with_reducible assumption
    | with_reducible apply State.onPwr_keeps
    | refine Keeps.upd ?_ rfl rfl rfl rfl rfl
    | dsimp only
    | intro _

theorem execFirmwareReset_keeps {s out : State} (e : execFirmwareReset s = .next out) : Keeps s out := by
  cases e
  repeat' first
    | with_reducible exact Keeps.refl _
    | with_reducible assumption
    | with_reducible apply State.orderlyBegin_keeps
    | with_reducible apply State.access_keeps
    | dsimp only
    | intro _

theorem execResetAssert_keeps {s out : State} (late : Bool) (e : execResetAssert late s = .next out) : Keeps s out := by
  cases e
  repeat' first
    | with_reducible exact Keeps.refl _
    | with_reducible assumption
    | with_reducible apply State.moduleReset_keeps
    | with_reducible apply Keeps.ite
    | split
    | dsimp only
    | intro _

theorem State.saggarStart_keeps {root s : State} (h : Keeps root s) (selfTest : Bool) : Keeps root (State.saggarStart s selfTest) :=
    by
  unfold State.saggarStart
  repeat' first
    | with_reducible assumption
    | with_reducible apply State.onPwr_keeps
    | with_reducible apply State.sagError_keeps
    | with_reducible apply State.attestWasted_keeps
    | with_reducible apply State.pllEnable_keeps
    | with_reducible apply State.journal_keeps
    | with_reducible apply State.putB_keeps
    | with_reducible apply State.put_keeps
    | with_reducible apply Keeps.ite
    | split
    | refine Keeps.upd ?_ rfl rfl rfl rfl rfl
    | dsimp only
    | intro _

theorem execRailsGood_keeps {s out : State} (rail : Fin 5) (selfTest : Bool) (e : execRailsGood rail selfTest s = .next out) : Keeps
    s out := by
  cases e
  repeat' first
    | with_reducible exact Keeps.refl _
    | with_reducible assumption
    | with_reducible apply State.saggarStart_keeps
    | with_reducible apply State.onPwr_keeps
    | with_reducible apply Keeps.ite
    | split
    | refine Keeps.upd ?_ rfl rfl rfl rfl rfl
    | dsimp only
    | intro _

theorem State.hostStart_keeps {root s : State} (h : Keeps root s) (f : BootFacts) (slot : Nat) (img : FwSlot) : Keeps root
    (State.hostStart s f slot img) := by
  unfold State.hostStart
  repeat' first
    | with_reducible assumption
    | with_reducible apply State.onPwr_keeps
    | with_reducible apply State.onSag_keeps
    | with_reducible apply State.journal_keeps
    | with_reducible apply State.put_keeps
    | with_reducible refine State.withGlz_keeps ?_ _ rfl
    | with_reducible apply State.withSram_keeps
    | with_reducible apply Keeps.ite
    | split
    | refine Keeps.upd ?_ rfl rfl rfl rfl rfl
    | exact cellsWf_put (by assumption)
    | exact cellsWf_foldl (by assumption) fun _ _ g => cellsWf_put g
    | with_reducible apply Ram.wf_write
    | with_reducible apply Ram.wf_store
    | with_reducible apply Ram.wf_staged
    | dsimp only
    | intro _

theorem execHostRelease_keeps {s out : State} (f : BootFacts) (e : execHostRelease f s = .next out) : Keeps s out := by
  cases e
  repeat' first
    | with_reducible exact Keeps.refl _
    | with_reducible assumption
    | with_reducible apply State.hostStart_keeps
    | with_reducible apply State.onSag_keeps
    | with_reducible apply Keeps.ite
    | split
    | refine Keeps.upd ?_ rfl rfl rfl rfl rfl
    | dsimp only
    | intro _

theorem execVauxValid_keeps {s out : State} (e : execVauxValid s = .next out) : Keeps s out := by
  cases e
  repeat' first
    | with_reducible exact Keeps.refl _
    | with_reducible assumption
    | with_reducible apply State.pugSelect_keeps
    | with_reducible apply State.tamperDue_keeps
    | with_reducible apply State.strap_keeps
    | with_reducible apply State.put_keeps
    | refine Keeps.when ?_ fun _ _ => ?_
    | dsimp only
    | intro _

theorem execVauxInvalid_keeps {s out : State} (e : execVauxInvalid s = .next out) : Keeps s out := by
  cases e
  repeat' first
    | with_reducible exact Keeps.refl _
    | with_reducible assumption
    | with_reducible apply State.moduleReset_keeps
    | with_reducible apply State.pugSelect_keeps
    | with_reducible apply State.gaspTrigger_keeps
    | with_reducible apply State.put_keeps
    | refine Keeps.when ?_ fun _ _ => ?_
    | with_reducible apply Keeps.ite
    | split
    | dsimp only
    | intro _

theorem State.vauxLow_keeps {root s : State} (h : Keeps root s) : Keeps root (State.vauxLow s) := by
  unfold State.vauxLow
  repeat' first
    | with_reducible assumption
    | with_reducible apply State.onPwr_keeps
    | with_reducible apply State.put_keeps
    | refine Keeps.upd ?_ rfl rfl rfl rfl rfl
    | dsimp only
    | intro _

theorem execVauxHigh_keeps {s out : State} (outside : Bool) (e : execVauxHigh outside s = .next out) : Keeps s out := by
  unfold execVauxHigh at e
  repeat' split at e
  all_goals cases e
  all_goals repeat' first
    | with_reducible exact Keeps.refl _
    | with_reducible assumption
    | with_reducible apply State.onPwr_keeps
    | with_reducible apply State.put_keeps
    | with_reducible apply Keeps.ite
    | split

theorem execDeratedSet_keeps {s out : State} (e : execDeratedSet s = .next out) : Keeps s out := by
  cases e
  repeat' first
    | with_reducible exact Keeps.refl _
    | with_reducible assumption
    | with_reducible apply State.vauxLow_keeps
    | with_reducible apply State.put_keeps
    | dsimp only
    | intro _

theorem execDeratedClear_keeps {s out : State} (e : execDeratedClear s = .next out) : Keeps s out := by
  cases e
  repeat' first
    | with_reducible exact Keeps.refl _
    | with_reducible assumption
    | with_reducible apply State.put_keeps
    | dsimp only
    | intro _

theorem State.pfRecord_keeps {root s : State} (h : Keeps root s) : Keeps root (State.pfRecord s) := by
  unfold State.pfRecord
  repeat' first
    | with_reducible assumption
    | with_reducible apply State.pfSave_keeps
    | with_reducible apply State.journal_keeps
    | with_reducible apply Keeps.ite
    | split
    | dsimp only
    | intro _

theorem execPfWarnFall_keeps {s out : State} (e : execPfWarnFall s = .next out) : Keeps s out := by
  cases e
  repeat' first
    | with_reducible exact Keeps.refl _
    | with_reducible assumption
    | with_reducible apply State.pfRecord_keeps
    | with_reducible apply State.vauxLow_keeps
    | with_reducible apply State.onPwr_keeps
    | with_reducible apply State.raiseStop_keeps
    | with_reducible apply State.put_keeps
    | with_reducible apply Keeps.ite
    | split
    | refine Keeps.upd ?_ rfl rfl rfl rfl rfl
    | dsimp only
    | intro _

theorem execPfWarnRise_keeps {s out : State} (e : execPfWarnRise s = .next out) : Keeps s out := by
  cases e
  repeat' first
    | with_reducible exact Keeps.refl _
    | with_reducible assumption
    | with_reducible apply State.onPwr_keeps
    | with_reducible apply State.put_keeps
    | with_reducible apply Keeps.ite
    | split
    | refine Keeps.upd ?_ rfl rfl rfl rfl rfl
    | dsimp only
    | intro _

theorem pfWarnOp_keeps {root s : State} (h : Keeps root s) (v : Nat) : Keeps root (pfWarnOp v s) := by
  unfold pfWarnOp
  repeat' first
    | with_reducible assumption
    | with_reducible apply State.pwrRefuse_keeps
    | with_reducible apply State.put_keeps
    | with_reducible apply Keeps.ite
    | split
    | dsimp only
    | intro _

theorem execPfWarnWrite_keeps {s out : State} (v : BitVec 8) (e : execPfWarnWrite v s = .next out) : Keeps s out := by
  cases e
  repeat' first
    | with_reducible exact Keeps.refl _
    | with_reducible assumption
    | with_reducible apply pfWarnOp_keeps
    | with_reducible apply State.access_keeps
    | dsimp only
    | intro _

theorem execAlwaysOnSupplyLoss_keeps {s out : State} (e : execAlwaysOnSupplyLoss s = .next out) : Keeps s out := by
  cases e
  repeat' first
    | with_reducible exact Keeps.refl _
    | with_reducible assumption
    | with_reducible apply State.supplyLoss_keeps
    | with_reducible apply Keeps.ite
    | split
    | dsimp only
    | intro _

theorem standbyOp_keeps {root s : State} (h : Keeps root s) : Keeps root (standbyOp s) := by
  unfold standbyOp
  repeat' first
    | with_reducible assumption
    | with_reducible apply State.pwrRefuse_keeps
    | with_reducible apply State.onPwr_keeps
    | with_reducible apply State.put_keeps
    | with_reducible apply Keeps.ite
    | split
    | refine Keeps.upd ?_ rfl rfl rfl rfl rfl
    | dsimp only
    | intro _

theorem execStandby_keeps {s out : State} (e : execStandby s = .next out) : Keeps s out := by
  cases e
  repeat' first
    | with_reducible exact Keeps.refl _
    | with_reducible assumption
    | with_reducible apply standbyOp_keeps
    | with_reducible apply State.access_keeps
    | dsimp only
    | intro _

theorem execStandbyWake_keeps {s out : State} (e : execStandbyWake s = .next out) : Keeps s out := by
  cases e
  repeat' first
    | with_reducible exact Keeps.refl _
    | with_reducible assumption
    | with_reducible apply State.onPwr_keeps
    | with_reducible apply State.put_keeps
    | refine Keeps.when ?_ fun _ _ => ?_
    | refine Keeps.upd ?_ rfl rfl rfl rfl rfl
    | dsimp only
    | intro _

theorem wdogCfgOp_keeps {root s : State} (h : Keeps root s) (v : Nat) : Keeps root (wdogCfgOp v s) := by
  unfold wdogCfgOp
  repeat' first
    | with_reducible assumption
    | with_reducible apply State.putB_keeps
    | with_reducible apply State.put_keeps
    | refine Keeps.when ?_ fun _ _ => ?_
    | with_reducible apply Keeps.ite
    | split
    | dsimp only
    | intro _

theorem execWdogStart_keeps {s out : State} (v : Word) (e : execWdogStart v s = .next out) : Keeps s out := by
  cases e
  repeat' first
    | with_reducible exact Keeps.refl _
    | with_reducible assumption
    | with_reducible apply wdogCfgOp_keeps
    | with_reducible apply State.access_keeps
    | dsimp only
    | intro _

theorem wdogKickOp_keeps {root s : State} (h : Keeps root s) (v : Nat) : Keeps root (wdogKickOp v s) := by
  unfold wdogKickOp
  repeat' first
    | with_reducible assumption
    | with_reducible apply State.onPwr_keeps
    | with_reducible apply State.orderlyBegin_keeps
    | with_reducible apply Keeps.ite
    | split
    | refine Keeps.upd ?_ rfl rfl rfl rfl rfl
    | dsimp only
    | intro _

theorem execWdogKick_keeps {s out : State} (v : Word) (e : execWdogKick v s = .next out) : Keeps s out := by
  cases e
  repeat' first
    | with_reducible exact Keeps.refl _
    | with_reducible assumption
    | with_reducible apply wdogKickOp_keeps
    | with_reducible apply State.access_keeps
    | dsimp only
    | intro _

theorem execWdogHalf_keeps {s out : State} (e : execWdogHalf s = .next out) : Keeps s out := by
  cases e
  repeat' first
    | with_reducible exact Keeps.refl _
    | with_reducible assumption
    | with_reducible apply State.put_keeps
    | refine Keeps.when ?_ fun _ _ => ?_
    | dsimp only
    | intro _

theorem execWatchdogExpiry_keeps {s out : State} (e : execWatchdogExpiry s = .next out) : Keeps s out := by
  cases e
  repeat' first
    | with_reducible exact Keeps.refl _
    | with_reducible assumption
    | with_reducible apply State.orderlyBegin_keeps
    | refine Keeps.when ?_ fun _ _ => ?_
    | dsimp only
    | intro _

theorem execDieHot_keeps {s out : State} (e : execDieHot s = .next out) : Keeps s out := by
  cases e
  repeat' first
    | with_reducible exact Keeps.refl _
    | with_reducible assumption
    | with_reducible apply State.put_keeps
    | dsimp only
    | intro _

theorem execThermal_keeps {s out : State} (e : execThermal s = .next out) : Keeps s out := by
  cases e
  repeat' first
    | with_reducible exact Keeps.refl _
    | with_reducible assumption
    | with_reducible apply State.orderlyBegin_keeps
    | dsimp only
    | intro _

end Sys2Proof.Machine
end

