-- ==== Sys2Proof/Laws/KeepsSitter.lean ====
section
/-!
SUPPORT. Each operation of Machine/Sitter.lean keeps the queue of waiting commands and the canonical form of the memories.
-/

namespace Sys2Proof.Machine

open Sys2Proof

set_option linter.all false

theorem State.tripLine_keeps {root s : State} (h : Keeps root s) (k : Nat) (latches : Bool) : Keeps root (State.tripLine s k
    latches) := by
  unfold State.tripLine
  repeat' first
    | with_reducible assumption
    | with_reducible apply State.coneIf_keeps
    | with_reducible apply State.cutPairs_keeps
    | with_reducible apply State.raiseStopAlso_keeps
    | with_reducible apply Keeps.ite
    | split
    | dsimp only
    | intro _

theorem State.winChange_keeps {root s : State} (h : Keeps root s) (n : Fin 44) (side : WinSide) (idle : BitVec 16) : Keeps root
    (State.winChange s n side idle) := by
  unfold State.winChange
  repeat' first
    | with_reducible assumption
    | with_reducible apply State.adcUrgentFrom_keeps
    | with_reducible apply State.onWin_keeps
    | with_reducible apply State.putBit_keeps
    | with_reducible apply State.incWrap_keeps
    | with_reducible apply State.put_keeps
    | with_reducible apply State.withPwr_keeps
    | refine Keeps.when ?_ fun _ _ => ?_
    | with_reducible apply Keeps.ite
    | split
    | refine Keeps.upd ?_ rfl rfl rfl rfl rfl
    | dsimp only
    | intro _

theorem State.winSet_keeps {root s : State} (h : Keeps root s) (n : Fin 44) (side : WinSide) (idle : BitVec 16) : Keeps root
    (State.winSet s n side idle) := by
  unfold State.winSet
  repeat' first
    | with_reducible assumption
    | with_reducible apply State.winChange_keeps
    | with_reducible apply State.tripLine_keeps
    | with_reducible apply State.onWin_keeps
    | with_reducible apply State.putB_keeps
    | with_reducible apply State.put_keeps
    | with_reducible apply Keeps.ite
    | split
    | refine Keeps.upd ?_ rfl rfl rfl rfl rfl
    | dsimp only
    | intro _

theorem execWinAssert_keeps {s out : State} (n : Fin 44) (x : WinSight) (e : execWinAssert n x s = .next out) : Keeps s out := by
  cases e
  repeat' first
    | with_reducible exact Keeps.refl _
    | with_reducible assumption
    | with_reducible apply State.winSet_keeps
    | with_reducible apply Keeps.ite
    | split
    | dsimp only
    | intro _

theorem execWinDeassert_keeps {s out : State} (x : WinSeen) (e : execWinDeassert x s = .next out) : Keeps s out := by
  cases e
  repeat' first
    | with_reducible exact Keeps.refl _
    | with_reducible assumption
    | with_reducible apply State.winSet_keeps
    | with_reducible apply Keeps.ite
    | split
    | dsimp only
    | intro _

theorem execWinBlankEnd_keeps {s out : State} (x : WinIdle) (e : execWinBlankEnd x s = .next out) : Keeps s out := by
  cases e
  repeat' first
    | with_reducible exact Keeps.refl _
    | with_reducible assumption
    | with_reducible apply State.winSet_keeps
    | with_reducible apply State.onWin_keeps
    | split
    | refine Keeps.upd ?_ rfl rfl rfl rfl rfl
    | dsimp only
    | intro _

theorem winThrOp_keeps {root s : State} (h : Keeps root s) (n : Fin 44) (v : Word) : Keeps root (winThrOp n v s) := by
  unfold winThrOp
  repeat' first
    | with_reducible assumption
    | with_reducible apply State.inc_keeps
    | with_reducible apply State.put_keeps
    | with_reducible apply Keeps.ite
    | split
    | dsimp only
    | intro _

theorem execWinThrWrite_keeps {s out : State} (n : Fin 44) (v : Word) (e : execWinThrWrite n v s = .next out) : Keeps s out := by
  cases e
  repeat' first
    | with_reducible exact Keeps.refl _
    | with_reducible assumption
    | with_reducible apply winThrOp_keeps
    | with_reducible apply State.access_keeps
    | dsimp only
    | intro _

theorem State.winEnable_keeps {root s : State} (h : Keeps root s) (n : Fin 44) : Keeps root (State.winEnable s n) := by
  unfold State.winEnable
  repeat' first
    | with_reducible assumption
    | with_reducible apply State.onWin_keeps
    | with_reducible apply State.put_keeps
    | with_reducible apply Keeps.ite
    | split
    | refine Keeps.upd ?_ rfl rfl rfl rfl rfl
    | dsimp only
    | intro _

theorem State.shadowDrop_keeps {root s : State} (h : Keeps root s) (n : Fin 44) : Keeps root (State.shadowDrop s n) := by
  unfold State.shadowDrop
  repeat' first
    | with_reducible assumption
    | with_reducible apply State.onWin_keeps
    | with_reducible apply State.put_keeps
    | with_reducible apply Keeps.ite
    | split
    | refine Keeps.upd ?_ rfl rfl rfl rfl rfl
    | dsimp only
    | intro _

theorem execWinRelease_keeps {s out : State} (n : Fin 44) (side : WinSide) (e : execWinRelease n side s = .next out) : Keeps s out
    := by
  cases e
  repeat' first
    | with_reducible exact Keeps.refl _
    | with_reducible assumption
    | with_reducible apply State.shadowDrop_keeps
    | with_reducible apply State.onWin_keeps
    | with_reducible apply State.putB_keeps
    | with_reducible apply State.put_keeps
    | refine Keeps.when ?_ fun _ _ => ?_
    | with_reducible apply Keeps.ite
    | split
    | refine Keeps.upd ?_ rfl rfl rfl rfl rfl
    | dsimp only
    | intro _

theorem execWinStateChange_keeps {s out : State} (n : Fin 44) (x : WinSight) (e : execWinStateChange n x s = .next out) : Keeps s
    out := by
  cases e
  repeat' first
    | with_reducible exact Keeps.refl _
    | with_reducible assumption
    | with_reducible apply State.winSet_keeps
    | with_reducible apply Keeps.ite
    | split
    | dsimp only
    | intro _

theorem State.selftestRefuse_keeps {root s : State} (h : Keeps root s) (n : Fin 44) : Keeps root (State.selftestRefuse s n) := by
  unfold State.selftestRefuse
  repeat' first
    | with_reducible assumption
    | with_reducible apply State.inc_keeps
    | with_reducible apply State.put_keeps
    | dsimp only
    | intro _

theorem selftestOp_keeps {root s : State} (h : Keeps root s) (n : Fin 44) : Keeps root (selftestOp n s) := by
  unfold selftestOp
  repeat' first
    | with_reducible assumption
    | with_reducible apply State.selftestRefuse_keeps
    | with_reducible apply State.onWin_keeps
    | with_reducible apply State.put_keeps
    | with_reducible apply Keeps.ite
    | split
    | refine Keeps.upd ?_ rfl rfl rfl rfl rfl
    | dsimp only
    | intro _

theorem execSelftest_keeps {s out : State} (n : Fin 44) (e : execSelftest n s = .next out) : Keeps s out := by
  cases e
  repeat' first
    | with_reducible exact Keeps.refl _
    | with_reducible assumption
    | with_reducible apply selftestOp_keeps
    | with_reducible apply State.access_keeps
    | dsimp only
    | intro _

theorem execSelftestDone_keeps {s out : State} (n : Fin 44) (up down : Nat) (e : execSelftestDone n up down s = .next out) : Keeps s
    out := by
  cases e
  repeat' first
    | with_reducible exact Keeps.refl _
    | with_reducible assumption
    | with_reducible apply State.shadowDrop_keeps
    | with_reducible apply State.winEnable_keeps
    | with_reducible apply State.grogWinDrift_keeps
    | with_reducible apply State.putI_keeps
    | with_reducible apply State.put_keeps
    | refine Keeps.when ?_ fun _ _ => ?_
    | with_reducible apply Keeps.ite
    | split
    | dsimp only
    | intro _

theorem shadowOp_keeps {root s : State} (h : Keeps root s) (n : Fin 44) : Keeps root (shadowOp n s) := by
  unfold shadowOp
  repeat' first
    | with_reducible assumption
    | with_reducible apply State.winEnable_keeps
    | with_reducible apply State.tripLine_keeps
    | with_reducible apply State.onWin_keeps
    | with_reducible apply State.inc_keeps
    | with_reducible apply State.put_keeps
    | with_reducible refine State.withRegs_keeps ?_ _ fun k => ?_
    | with_reducible apply Keeps.ite
    | split
    | refine Keeps.upd ?_ rfl rfl rfl rfl rfl
    | exact fun _ g => g
    | exact cellsWf_put (by assumption)
    | exact cellsWf_foldl (by assumption) fun _ _ g => cellsWf_put g
    | dsimp only
    | intro _

theorem execShadow_keeps {s out : State} (n : Fin 44) (e : execShadow n s = .next out) : Keeps s out := by
  cases e
  repeat' first
    | with_reducible exact Keeps.refl _
    | with_reducible assumption
    | with_reducible apply shadowOp_keeps
    | with_reducible apply State.access_keeps
    | dsimp only
    | intro _

theorem execShadowReady_keeps {s out : State} (n : Fin 44) (e : execShadowReady n s = .next out) : Keeps s out := by
  cases e
  repeat' first
    | with_reducible exact Keeps.refl _
    | with_reducible assumption
    | with_reducible apply State.put_keeps
    | with_reducible apply Keeps.ite
    | split
    | dsimp only
    | intro _

theorem pairStatOp_keeps {root s : State} (h : Keeps root s) (mask : BitVec 9) : Keeps root (pairStatOp mask s) := by
  unfold pairStatOp
  repeat' first
    | with_reducible assumption
    | with_reducible apply State.putBit_keeps
    | with_reducible apply State.inc_keeps
    | with_reducible apply State.put_keeps
    | refine Keeps.each ?_ fun _ _ _ => ?_
    | with_reducible apply Keeps.ite
    | split
    | dsimp only
    | intro _

theorem execPairStatClear_keeps {s out : State} (mask : BitVec 9) (e : execPairStatClear mask s = .next out) : Keeps s out := by
  cases e
  repeat' first
    | with_reducible exact Keeps.refl _
    | with_reducible assumption
    | with_reducible apply pairStatOp_keeps
    | with_reducible apply State.access_keeps
    | dsimp only
    | intro _

theorem execSafeOrderStage2_keeps {s out : State} (e : execSafeOrderStage2 s = .next out) : Keeps s out := by
  cases e
  refine Keeps.ite (State.put_keeps (Keeps.each (Keeps.refl _) fun _ _ k => ?_) _ _) (Keeps.refl _)
  exact Keeps.when k fun _ k => State.chanOff_keeps k _ _

theorem execSafeOrderTileDone_keeps {s out : State} (n : Fin 9) (e : execSafeOrderTileDone n s = .next out) : Keeps s out := by
  cases e
  repeat' first
    | with_reducible exact Keeps.refl _
    | with_reducible assumption
    | with_reducible apply State.safeDone_keeps
    | with_reducible apply State.disarm_keeps
    | with_reducible apply State.withSit_keeps
    | with_reducible apply Keeps.ite
    | split
    | refine Keeps.upd ?_ rfl rfl rfl rfl rfl
    | dsimp only
    | intro _

theorem State.sitRefuse_keeps {root s : State} (h : Keeps root s) : Keeps root (State.sitRefuse s) := by
  unfold State.sitRefuse
  repeat' first
    | with_reducible assumption
    | with_reducible apply State.inc_keeps
    | with_reducible apply State.put_keeps
    | dsimp only
    | intro _

theorem stopOp_keeps {root s : State} (h : Keeps root s) (alsoClear : Bool) : Keeps root (stopOp alsoClear s) := by
  unfold stopOp
  repeat' first
    | with_reducible assumption
    | with_reducible apply State.sitRefuse_keeps
    | with_reducible apply State.raiseStop_keeps
    | refine Keeps.when ?_ fun _ _ => ?_
    | dsimp only
    | intro _

theorem execStop_keeps {s out : State} (alsoClear : Bool) (e : execStop alsoClear s = .next out) : Keeps s out := by
  cases e
  repeat' first
    | with_reducible exact Keeps.refl _
    | with_reducible assumption
    | with_reducible apply stopOp_keeps
    | with_reducible apply State.access_keeps
    | dsimp only
    | intro _

theorem clearStopOp_keeps {root s : State} (h : Keeps root s) : Keeps root (clearStopOp s) := by
  unfold clearStopOp
  repeat' first
    | with_reducible assumption
    | with_reducible apply State.sitRefuse_keeps
    | with_reducible apply State.put_keeps
    | with_reducible apply State.withSit_keeps
    | refine Keeps.when ?_ fun _ _ => ?_
    | with_reducible apply Keeps.ite
    | split
    | refine Keeps.upd ?_ rfl rfl rfl rfl rfl
    | dsimp only
    | intro _

theorem execClearStop_keeps {s out : State} (e : execClearStop s = .next out) : Keeps s out := by
  cases e
  repeat' first
    | with_reducible exact Keeps.refl _
    | with_reducible assumption
    | with_reducible apply clearStopOp_keeps
    | with_reducible apply State.access_keeps
    | dsimp only
    | intro _

theorem plantStopOp_keeps {root s : State} (h : Keeps root s) : Keeps root (plantStopOp s) := by
  unfold plantStopOp
  repeat' first
    | with_reducible assumption
    | with_reducible apply State.plantRefresh_keeps
    | with_reducible apply State.withSit_keeps
    | with_reducible apply Keeps.ite
    | split
    | refine Keeps.upd ?_ rfl rfl rfl rfl rfl
    | dsimp only
    | intro _

theorem execPlantStop_keeps {s out : State} (e : execPlantStop s = .next out) : Keeps s out := by
  cases e
  repeat' first
    | with_reducible exact Keeps.refl _
    | with_reducible assumption
    | with_reducible apply plantStopOp_keeps
    | with_reducible apply State.access_keeps
    | dsimp only
    | intro _

theorem clearPlantOp_keeps {root s : State} (h : Keeps root s) : Keeps root (clearPlantOp s) := by
  unfold clearPlantOp
  repeat' first
    | with_reducible assumption
    | with_reducible apply State.sitRefuse_keeps
    | with_reducible apply State.put_keeps
    | with_reducible apply State.withSit_keeps
    | with_reducible apply Keeps.ite
    | split
    | refine Keeps.upd ?_ rfl rfl rfl rfl rfl
    | dsimp only
    | intro _

theorem execClearPlant_keeps {s out : State} (e : execClearPlant s = .next out) : Keeps s out := by
  cases e
  repeat' first
    | with_reducible exact Keeps.refl _
    | with_reducible assumption
    | with_reducible apply clearPlantOp_keeps
    | with_reducible apply State.access_keeps
    | dsimp only
    | intro _

theorem State.winFiring_keeps {root s : State} (h : Keeps root s) (n : Fin 44) : Keeps root (State.winFiring s n) := by
  unfold State.winFiring
  repeat' first
    | with_reducible assumption
    | with_reducible apply State.shadowDrop_keeps
    | with_reducible apply State.winEnable_keeps
    | with_reducible apply State.onWin_keeps
    | with_reducible apply State.put_keeps
    | refine Keeps.when ?_ fun _ _ => ?_
    | with_reducible apply Keeps.ite
    | split
    | refine Keeps.upd ?_ rfl rfl rfl rfl rfl
    | dsimp only
    | intro _

end Sys2Proof.Machine
end

