-- ==== Sys2Proof/Laws/KeepsFiring.lean ====
section
/-!
SUPPORT. Each operation of Machine/Firing.lean keeps the queue of waiting commands and the canonical form of the memories.
-/

namespace Sys2Proof.Machine

open Sys2Proof

set_option linter.all false

theorem State.onGlz_keeps {root s : State} (h : Keeps root s) (f : GlzState → GlzState)
    (hf : ∀ x, cellsWf x.plane = true → cellsWf (f x).plane = true) : Keeps root (State.onGlz s f) := h.glz (hf _)

theorem State.glzRefuse_keeps {root s : State} (h : Keeps root s) (r : Refuse) : Keeps root (State.glzRefuse s r) := by
  unfold State.glzRefuse
  repeat' first
    | with_reducible assumption
    | with_reducible apply State.put_keeps
    | dsimp only
    | intro _

theorem State.glzDone_keeps {root s : State} (h : Keeps root s) : Keeps root (State.glzDone s) := by
  unfold State.glzDone
  repeat' first
    | with_reducible assumption
    | with_reducible apply State.put_keeps
    | dsimp only
    | intro _

theorem loadOp_keeps {root s : State} (h : Keeps root s) (g : GlazeFile) : Keeps root (loadOp g s) := by
  unfold loadOp
  repeat' first
    | with_reducible assumption
    | with_reducible apply State.glzRefuse_keeps
    | with_reducible apply State.onGlz_keeps
    | with_reducible apply State.discardStaged_keeps
    | with_reducible apply State.put_keeps
    | with_reducible apply Keeps.ite
    | split
    | refine Keeps.upd ?_ rfl rfl rfl rfl rfl
    | exact fun _ g => g
    | dsimp only
    | intro _

theorem execLoad_keeps {s out : State} (g : GlazeFile) (e : execLoad g s = .next out) : Keeps s out := by
  cases e
  repeat' first
    | with_reducible exact Keeps.refl _
    | with_reducible assumption
    | with_reducible apply loadOp_keeps
    | with_reducible apply State.access_keeps
    | dsimp only
    | intro _

theorem State.loadRefused_keeps {root s : State} (h : Keeps root s) (r : Refuse) : Keeps root (State.loadRefused s r) := by
  unfold State.loadRefused
  repeat' first
    | with_reducible assumption
    | with_reducible apply State.glzRefuse_keeps
    | with_reducible apply State.onGlz_keeps
    | with_reducible apply State.gpStop_keeps
    | with_reducible apply State.put_keeps
    | refine Keeps.when ?_ fun _ _ => ?_
    | refine Keeps.upd ?_ rfl rfl rfl rfl rfl
    | exact fun _ g => g
    | dsimp only
    | intro _

theorem State.enableIslands_keeps {root s : State} (h : Keeps root s) : Keeps root (State.enableIslands s) := by
  unfold State.enableIslands
  refine Keeps.ite h (State.onGlz_keeps (Keeps.each h fun _ _ k => ?_) _ fun _ g => g)
  exact Keeps.when k fun _ k => State.pllEnable_keeps k _

theorem planeOf_wf (p : State) : cellsWf (planeOf p) = true := cellsWf_foldl rfl fun _ _ g => cellsWf_put g

theorem State.stage_keeps {root s : State} (h : Keeps root s) (g : GlazeImage) (p : State) : Keeps root (State.stage s g p) := by
  have k := State.tookFree_keeps (State.withSram_keeps h (s.sram.staged s.free) Ram.wf_staged)
  unfold State.stage
  generalize (s.withSram (s.sram.staged s.free)).tookFree = u at k
  refine Keeps.when (State.enableIslands_keeps (State.onPwr_keeps (State.put_keeps (State.glzDone_keeps (State.put_keeps (State.put_keeps
    (State.put_keeps (State.onGlz_keeps k _ ?_) _ _) _ _) _ _)) _ _) _)) fun _ k => State.serve_keeps k _
  intro _ _
  dsimp only
  exact planeOf_wf p

theorem execLoadComplete_keeps {s out : State} (e : execLoadComplete s = .next out) : Keeps s out := by
  cases e
  repeat' first
    | with_reducible exact Keeps.refl _
    | with_reducible assumption
    | with_reducible apply State.stage_keeps
    | with_reducible apply State.loadRefused_keeps
    | with_reducible apply State.onGlz_keeps
    | with_reducible apply State.put_keeps
    | refine Keeps.when ?_ fun _ _ => ?_
    | split
    | refine Keeps.upd ?_ rfl rfl rfl rfl rfl
    | exact fun _ g => g
    | dsimp only
    | intro _

theorem execLoaderGateCheckDone_keeps {s out : State} (e : execLoaderGateCheckDone s = .next out) : Keeps s out := by
  cases e
  repeat' first
    | with_reducible exact Keeps.refl _
    | with_reducible assumption
    | with_reducible apply State.onGlz_keeps
    | with_reducible apply State.serve_keeps
    | refine Keeps.when ?_ fun _ _ => ?_
    | with_reducible apply Keeps.ite
    | split
    | refine Keeps.upd ?_ rfl rfl rfl rfl rfl
    | exact fun _ g => g
    | dsimp only
    | intro _

theorem abortLoadOp_keeps {root s : State} (h : Keeps root s) : Keeps root (abortLoadOp s) := by
  unfold abortLoadOp
  repeat' first
    | with_reducible assumption
    | with_reducible apply State.loadRefused_keeps
    | refine Keeps.when ?_ fun _ _ => ?_
    | dsimp only
    | intro _

theorem execAbortLoad_keeps {s out : State} (e : execAbortLoad s = .next out) : Keeps s out := by
  cases e
  repeat' first
    | with_reducible exact Keeps.refl _
    | with_reducible assumption
    | with_reducible apply abortLoadOp_keeps
    | with_reducible apply State.access_keeps
    | dsimp only
    | intro _

theorem discardOp_keeps {root s : State} (h : Keeps root s) : Keeps root (discardOp s) := by
  unfold discardOp
  repeat' first
    | with_reducible assumption
    | with_reducible apply State.discardStaged_keeps
    | refine Keeps.when ?_ fun _ _ => ?_
    | dsimp only
    | intro _

theorem execDiscard_keeps {s out : State} (e : execDiscard s = .next out) : Keeps s out := by
  cases e
  repeat' first
    | with_reducible exact Keeps.refl _
    | with_reducible assumption
    | with_reducible apply discardOp_keeps
    | with_reducible apply State.access_keeps
    | dsimp only
    | intro _

theorem fireOp_keeps {root s : State} (h : Keeps root s) (intact : Bool) : Keeps root (fireOp intact s) := by
  unfold fireOp
  repeat' first
    | with_reducible assumption
    | with_reducible apply State.glzRefuse_keeps
    | with_reducible apply State.onGlz_keeps
    | with_reducible apply State.raiseStop_keeps
    | with_reducible apply State.plantRefresh_keeps
    | with_reducible apply State.cone_keeps
    | with_reducible apply State.put_keeps
    | refine Keeps.when ?_ fun _ _ => ?_
    | with_reducible apply Keeps.ite
    | split
    | refine Keeps.upd ?_ rfl rfl rfl rfl rfl
    | exact fun _ g => g
    | dsimp only
    | intro _

theorem execFire_keeps {s out : State} (intact : Bool) (e : execFire intact s = .next out) : Keeps s out := by
  cases e
  repeat' first
    | with_reducible exact Keeps.refl _
    | with_reducible assumption
    | with_reducible apply fireOp_keeps
    | with_reducible apply State.access_keeps
    | dsimp only
    | intro _

theorem State.planesInForce_keeps {root s : State} (h : Keeps root s) : Keeps root (State.planesInForce s) :=
  h.regs fun g => cellsWf_foldl g fun _ _ g => cellsWf_put g

theorem State.tileInForce_keeps {root s : State} (h : Keeps root s) (old : State) (n : Fin 9) : Keeps root (State.tileInForce s old
    n) := by
  unfold State.tileInForce
  repeat' first
    | with_reducible assumption
    | with_reducible apply State.supRefresh_keeps
    | with_reducible apply State.onChan_keeps
    | with_reducible apply State.putB_keeps
    | with_reducible apply State.put_keeps
    | refine Keeps.each ?_ fun _ _ _ => ?_
    | refine Keeps.when ?_ fun _ _ => ?_
    | with_reducible apply Keeps.ite
    | split
    | refine Keeps.upd ?_ rfl rfl rfl rfl rfl
    | dsimp only
    | intro _

theorem State.identity_keeps {root s : State} (h : Keeps root s) (g : GlazeImage) : Keeps root (State.identity s g) := by
  unfold State.identity
  repeat' first
    | with_reducible assumption
    | with_reducible apply State.put_keeps
    | dsimp only
    | intro _

theorem State.unitsInForce_keeps {root s : State} (h : Keeps root s) (old : State) (g : Glaze) : Keeps root (State.unitsInForce s
    old g) := by
  unfold State.unitsInForce
  repeat' first
    | with_reducible assumption
    | with_reducible apply State.tileInForce_keeps
    | with_reducible apply State.winFiring_keeps
    | with_reducible apply State.serve_keeps
    | with_reducible apply State.meterFiring_keeps
    | with_reducible apply State.wlkFiring_keeps
    | with_reducible apply State.laneFiring_keeps
    | with_reducible apply State.laneTiming_keeps
    | with_reducible apply State.modFiring_keeps
    | with_reducible apply State.fabricFiring_keeps
    | with_reducible apply State.dciFiring_keeps
    | with_reducible apply State.islFiring_keeps
    | with_reducible apply State.rtsFiring_keeps
    | with_reducible apply State.gsuFiring_keeps
    | with_reducible apply State.adcFiring_keeps
    | with_reducible apply State.grogFiring_keeps
    | with_reducible apply State.onGroup_keeps
    | refine Keeps.each ?_ fun _ _ _ => ?_
    | refine Keeps.when ?_ fun _ _ => ?_
    | refine Keeps.upd ?_ rfl rfl rfl rfl rfl
    | dsimp only
    | intro _

theorem State.firingEnter_keeps {root s : State} (h : Keeps root s) (g : Glaze) : Keeps root (State.firingEnter s g) := by
  unfold State.firingEnter
  extract_lets -underBinder s1 s2 s3 s4 s5
  have k1 : Keeps root s1 := State.onGlz_keeps (State.put_keeps (State.put_keeps h _ _) _ _) _ fun _ g => g
  have k2 : Keeps root s2 := State.captureFiring_keeps (Keeps.each k1 fun _ _ k => State.tileFiring_keeps k _)
  have k3 : Keeps root s3 := State.identity_keeps (State.planesInForce_keeps k2) _
  clear_value s3
  have k4 : Keeps root s4 := by
    refine State.unitsInForce_keeps (State.onGlz_keeps k3 _ ?_) _ _
    exact fun _ _ => rfl
  clear_value s4
  exact State.onGlz_keeps (State.onSag_keeps k4 _) _ fun _ g => g

theorem execFiringEnter_keeps {s out : State} (e : execFiringEnter s = .next out) : Keeps s out := by
  cases e
  repeat' first
    | with_reducible exact Keeps.refl _
    | with_reducible assumption
    | with_reducible apply State.firingEnter_keeps
    | with_reducible apply Keeps.ite
    | split
    | dsimp only
    | intro _

end Sys2Proof.Machine
end

