-- ==== Sys2Proof/Laws/KeepsAccess.lean ====
section
/-!
SUPPORT. Each operation of Machine/Access.lean keeps the queue of waiting commands and the canonical form of the memories.
-/

namespace Sys2Proof.Machine

open Sys2Proof

set_option linter.all false

/-- What holds of the answer of `o`, if there is one. -/
def Answers {α : Type} (P : α → Prop) (o : Option α) : Prop := ∀ a, o = some a → P a

theorem Answers.none {α : Type} {P : α → Prop} : Answers P none := by
  intro a e
  cases e

theorem Answers.some {α : Type} {P : α → Prop} {a : α} (h : P a) : Answers P (some a) := by
  intro b e
  cases e
  exact h

theorem Answers.ite {α : Type} {P : α → Prop} {c : Prop} [Decidable c] {a b : Option α} (ha : Answers P a) (hb : Answers P b) :
    Answers P (if c then a else b) := by
  split
  · exact ha
  · exact hb

theorem State.rwfField_keeps {root s : State} (h : Keeps root s) (f : Fld) (v : Nat) : Answers (Keeps root) (s.rwfField f v) := by
  unfold State.rwfField
  refine Answers.ite Answers.none ?_
  split
  · exact Answers.none
  · dsimp only
    split
    · exact Answers.ite (Answers.some h) Answers.none
    · exact Answers.ite (Answers.some (State.onGlz_keeps h _ fun _ g => cellsWf_put g)) Answers.none

theorem State.rwfWrite_keeps {root s : State} (h : Keeps root s) (d : RegDesc) (r sh bits x : Nat) :
    Keeps root (State.rwfWrite s d r sh bits x) := by
  unfold State.rwfWrite
  extract_lets fs part new step e
  suffices k : Keeps root e.1 from Keeps.when k fun _ k => State.inc_keeps k _
  have go : ∀ (l : List FldDesc) (p : State × Bool), Keeps root p.1 → Keeps root (l.foldl step p).1 := by
    intro l
    induction l with
    | nil => exact fun _ k => k
    | cons f l ih =>
      refine fun p k => ih _ ?_
      dsimp only [step]
      split
      · next t e => exact State.rwfField_keeps k _ _ t e
      · exact k
  exact go fs (s, false) h

theorem glzCtrlOp_keeps {root s : State} (h : Keeps root s) (v : Word) (x : BusFacts) : Keeps root (glzCtrlOp v x s) := by
  unfold glzCtrlOp
  repeat' first
    | with_reducible assumption
    | with_reducible apply fireOp_keeps
    | with_reducible apply discardOp_keeps
    | with_reducible apply abortLoadOp_keeps
    | with_reducible apply loadOp_keeps
    | with_reducible apply State.putB_keeps
    | split
    | refine Keeps.upd ?_ rfl rfl rfl rfl rfl
    | dsimp only
    | intro _

theorem rgSwapOp_keeps {root s : State} (h : Keeps root s) (k : Fin 8) (v : Word) : Keeps root (rgSwapOp k v s) := by
  unfold rgSwapOp
  repeat' first
    | with_reducible assumption
    | with_reducible apply swapRequestOp_keeps
    | with_reducible apply State.putB_keeps
    | with_reducible apply State.put_keeps
    | refine Keeps.when ?_ fun _ _ => ?_
    | with_reducible apply Keeps.ite
    | split
    | dsimp only
    | intro _

theorem islCtrlOp_keeps {root s : State} (h : Keeps root s) (v : Word) : Keeps root (islCtrlOp v s) := by
  unfold islCtrlOp
  repeat' first
    | with_reducible assumption
    | with_reducible apply islCmdOp_keeps
    | with_reducible apply State.putB_keeps
    | dsimp only
    | intro _

theorem dciCtrlOp_keeps {root s : State} (h : Keeps root s) (v : Word) : Keeps root (dciCtrlOp v s) := by
  unfold dciCtrlOp
  repeat' first
    | with_reducible assumption
    | with_reducible apply dciAbortOp_keeps
    | with_reducible apply dciSweepRequestOp_keeps
    | refine Keeps.each ?_ fun _ _ _ => ?_
    | refine Keeps.when ?_ fun _ _ => ?_
    | dsimp only
    | intro _

theorem modCtrlOp_keeps {root s : State} (h : Keeps root s) (p : Fin 9) (v : Word) : Keeps root (modCtrlOp p v s) := by
  unfold modCtrlOp
  repeat' first
    | with_reducible assumption
    | with_reducible apply State.drive_keeps
    | with_reducible apply State.putB_keeps
    | dsimp only
    | intro _

theorem setCtrlOp_keeps {root s : State} (h : Keeps root s) (n : Fin 9) (v : Word) : Keeps root (setCtrlOp n v s) := by
  unfold setCtrlOp
  repeat' first
    | with_reducible assumption
    | with_reducible apply diagOp_keeps
    | with_reducible apply disarmOp_keeps
    | with_reducible apply armOp_keeps
    | with_reducible apply State.diagStop_keeps
    | refine Keeps.when ?_ fun _ _ => ?_
    | dsimp only
    | intro _

theorem chStatusOp_keeps {root s : State} (h : Keeps root s) (n : Fin 9) (c : Fin 2) (v : Word) : Keeps root (chStatusOp n c v s) :=
    by
  unfold chStatusOp
  repeat' first
    | with_reducible assumption
    | with_reducible apply supplyUvClearOp_keeps
    | with_reducible apply bootStopClearOp_keeps
    | with_reducible apply desatClearOp_keeps
    | with_reducible apply State.put_keeps
    | refine Keeps.when ?_ fun _ _ => ?_
    | dsimp only
    | intro _

theorem trimOp_keeps {root s : State} (h : Keeps root s) (n : Fin 9) (c : Fin 2) (v : Word) : Keeps root (trimOp n c v s) := by
  unfold trimOp
  repeat' first
    | with_reducible assumption
    | with_reducible apply State.put_keeps
    | dsimp only
    | intro _

theorem winCtrlOp_keeps {root s : State} (h : Keeps root s) (n : Fin 44) (v : Word) (late : Bool) : Keeps root (winCtrlOp n v late
    s) := by
  unfold winCtrlOp
  repeat' first
    | with_reducible assumption
    | with_reducible apply shadowOp_keeps
    | with_reducible apply selftestOp_keeps
    | with_reducible apply State.selftestRefuse_keeps
    | with_reducible apply State.putB_keeps
    | refine Keeps.when ?_ fun _ _ => ?_
    | with_reducible apply Keeps.ite
    | split
    | dsimp only
    | intro _

theorem sitCtrlOp_keeps {root s : State} (h : Keeps root s) (v : Word) : Keeps root (sitCtrlOp v s) := by
  unfold sitCtrlOp
  repeat' first
    | with_reducible assumption
    | with_reducible apply clearPlantOp_keeps
    | with_reducible apply plantStopOp_keeps
    | with_reducible apply clearStopOp_keeps
    | with_reducible apply stopOp_keeps
    | refine Keeps.when ?_ fun _ _ => ?_
    | with_reducible apply Keeps.ite
    | split
    | dsimp only
    | intro _

theorem adcCtrlOp_keeps {root s : State} (h : Keeps root s) (n : Fin 18) (v : Word) (gap : Bool) : Keeps root (adcCtrlOp n v gap s)
    := by
  unfold adcCtrlOp
  repeat' first
    | with_reducible assumption
    | with_reducible apply calOp_keeps
    | with_reducible apply adcStartOp_keeps
    | refine Keeps.when ?_ fun _ _ => ?_
    | dsimp only
    | intro _

theorem pllCtrlOp_keeps {root s : State} (h : Keeps root s) (n : Fin 7) (v : Word) : Keeps root (pllCtrlOp n v s) := by
  unfold pllCtrlOp
  repeat' first
    | with_reducible assumption
    | with_reducible apply pllStepOp_keeps
    | with_reducible apply pllConfigWriteOp_keeps
    | with_reducible apply pllEnWriteOp_keeps
    | with_reducible apply State.clkRefuse_keeps
    | refine Keeps.when ?_ fun _ _ => ?_
    | with_reducible apply Keeps.ite
    | split
    | dsimp only
    | intro _

theorem laneCtrlOp_keeps {root s : State} (h : Keeps root s) (l : Fin 6) (v : Word) (x : BusFacts) : Keeps root (laneCtrlOp l v x s)
    := by
  unfold laneCtrlOp
  repeat' first
    | with_reducible assumption
    | with_reducible apply rlbReqOp_keeps
    | with_reducible apply loopWriteOp_keeps
    | with_reducible apply testExitOp_keeps
    | with_reducible apply testEnterOp_keeps
    | with_reducible apply wakeOp_keeps
    | with_reducible apply State.lanePower_keeps
    | with_reducible apply retrainOp_keeps
    | refine Keeps.when ?_ fun _ _ => ?_
    | split
    | dsimp only
    | intro _

theorem patOp_keeps {root s : State} (h : Keeps root s) (l : Fin 6) (v : Word) : Keeps root (patOp l v s) := by
  unfold patOp
  repeat' first
    | with_reducible assumption
    | with_reducible apply injectOp_keeps
    | with_reducible apply patCfgWriteOp_keeps
    | refine Keeps.when ?_ fun _ _ => ?_
    | dsimp only
    | intro _

theorem plantCtrlOp_keeps {root s : State} (h : Keeps root s) (v : Word) (x : BusFacts) : Keeps root (plantCtrlOp v x s) := by
  unfold plantCtrlOp
  repeat' first
    | with_reducible assumption
    | with_reducible apply State.discoverAll_keeps
    | with_reducible apply ringRestoreOp_keeps
    | refine Keeps.when ?_ fun _ _ => ?_
    | dsimp only
    | intro _

theorem blkCtrlOp_keeps {root s : State} (h : Keeps root s) (v : Word) : Keeps root (blkCtrlOp v s) := by
  unfold blkCtrlOp
  repeat' first
    | with_reducible assumption
    | with_reducible apply blkGoOp_keeps
    | with_reducible apply State.putB_keeps
    | with_reducible apply State.put_keeps
    | with_reducible apply Keeps.ite
    | split
    | dsimp only
    | intro _

theorem ptpCtrlOp_keeps {root s : State} (h : Keeps root s) (v : Word) : Keeps root (ptpCtrlOp v s) := by
  unfold ptpCtrlOp
  repeat' first
    | with_reducible assumption
    | with_reducible apply State.ptpSetValid_keeps
    | with_reducible apply ptpSetOp_keeps
    | refine Keeps.when ?_ fun _ _ => ?_
    | dsimp only
    | intro _

theorem macCfgOp_keeps {root s : State} (h : Keeps root s) (m : Fin 2) (v : Word) : Keeps root (macCfgOp m v s) := by
  unfold macCfgOp
  repeat' first
    | with_reducible assumption
    | with_reducible apply kickOp_keeps
    | with_reducible apply macEnWriteOp_keeps
    | refine Keeps.when ?_ fun _ _ => ?_
    | dsimp only
    | intro _

theorem macRingOp_keeps {root s : State} (h : Keeps root s) (m r : Fin 2) (v : Word) : Keeps root (macRingOp m r v s) := by
  unfold macRingOp
  repeat' first
    | with_reducible assumption
    | with_reducible apply State.put_keeps
    | with_reducible apply Keeps.ite
    | split
    | dsimp only
    | intro _

theorem lqCmdOp_keeps {root s : State} (h : Keeps root s) (m : Fin 2) (v : Word) : Keeps root (lqCmdOp m v s) := by
  unfold lqCmdOp
  repeat' first
    | with_reducible assumption
    | with_reducible apply flushOp_keeps
    | with_reducible apply lqCommitOp_keeps
    | with_reducible apply Keeps.ite
    | split
    | dsimp only
    | intro _

theorem pugCfgOp_keeps {root s : State} (h : Keeps root s) (v : Word) : Keeps root (pugCfgOp v s) := by
  unfold pugCfgOp
  repeat' first
    | with_reducible assumption
    | with_reducible apply State.chargerSet_keeps
    | with_reducible apply State.inc_keeps
    | with_reducible apply State.putB_keeps
    | with_reducible apply State.put_keeps
    | refine Keeps.when ?_ fun _ _ => ?_
    | with_reducible apply Keeps.ite
    | split
    | dsimp only
    | intro _

theorem pwrCtrlOp_keeps {root s : State} (h : Keeps root s) (v : Word) : Keeps root (pwrCtrlOp v s) := by
  unfold pwrCtrlOp
  repeat' first
    | with_reducible assumption
    | with_reducible apply standbyOp_keeps
    | with_reducible apply State.orderlyBegin_keeps
    | refine Keeps.when ?_ fun _ _ => ?_
    | dsimp only
    | intro _

theorem grgCmdOp_keeps {root s : State} (h : Keeps root s) (v : Word) : Keeps root (grgCmdOp v s) := by
  unfold grgCmdOp
  repeat' first
    | with_reducible assumption
    | with_reducible apply diagnoseOp_keeps
    | with_reducible apply retireOp_keeps
    | with_reducible apply dismissOp_keeps
    | with_reducible apply commitOp_keeps
    | with_reducible apply State.grogCmd_keeps
    | with_reducible apply State.grogRefuse_keeps
    | with_reducible apply Keeps.ite
    | split
    | dsimp only
    | intro _

theorem conCtrlOp_keeps {root s : State} (h : Keeps root s) (v : Word) : Keeps root (conCtrlOp v s) := by
  unfold conCtrlOp
  repeat' first
    | with_reducible assumption
    | with_reducible apply capRearmOp_keeps
    | with_reducible apply State.releaseBank_keeps
    | with_reducible apply plantGoOp_keeps
    | with_reducible apply tmatchArmOp_keeps
    | with_reducible apply State.cone_keeps
    | with_reducible apply State.putB_keeps
    | refine Keeps.when ?_ fun _ _ => ?_
    | dsimp only
    | intro _

theorem sagCmdOp_keeps {root s : State} (h : Keeps root s) (v : Word) (x : BusFacts) : Keeps root (sagCmdOp v x s) := by
  unfold sagCmdOp
  repeat' first
    | with_reducible assumption
    | with_reducible apply svcRequest_keeps
    | with_reducible apply State.svcStart_keeps
    | with_reducible apply State.put_keeps
    | with_reducible apply Keeps.ite
    | split
    | dsimp only
    | intro _

theorem plainWrite_keeps {root s : State} (h : Keeps root s) (d : RegDesc) (r sh bits x : Nat) : Keeps root (plainWrite d r sh bits x s) :=
  h.regs fun g => cellsWf_put g

/-- A special write keeps the queue and the canonical form of every state. -/
def KeepsEach (f : State → State) : Prop := ∀ root s, Keeps root s → Keeps root (f s)

theorem wheelSpecial_keeps (a : Nat) (v : Word) : Answers KeepsEach (wheelSpecial a v) := by
  unfold wheelSpecial
  refine .ite (.some ?_) (.ite (.some ?_) (.ite (.some ?_) (.ite (.some ?_) (.ite (.some ?_) (.ite (.some ?_) (.ite (.some ?_) .none))))))
  · exact fun _ _ h => mboxThreshOp_keeps h _
  · exact fun _ _ h => rgSwapOp_keeps h _ _
  · exact fun _ _ h => slotWriteOp_keeps h _ _
  · exact fun _ _ h => istateWriteOp_keeps h _ _ _
  · exact fun _ _ h => Keeps.when h fun _ k => clearTripOp_keeps k
  · exact fun _ _ h => islCtrlOp_keeps h _
  · exact fun _ _ h => dciCtrlOp_keeps h _

theorem powerSpecial_keeps (a : Nat) (v : Word) (x : BusFacts) : Answers KeepsEach (powerSpecial a v x) := by
  unfold powerSpecial
  refine .ite (.ite (.some ?_) (.ite (.some ?_) (.ite (.some ?_) .none))) (.ite (.some ?_) (.ite (.some ?_)
    (.ite (.ite (.some ?_) (.ite (.some ?_) (.ite (.some ?_) .none))) (.ite (.some ?_) (.ite (.some ?_)
      (.ite (.ite (.some ?_) (.ite (.some ?_) .none)) (.ite (.some ?_) (.ite (.some ?_) .none))))))))
  · exact fun _ _ h => modCtrlOp_keeps h _ _
  · exact fun _ _ h => periodWriteOp_keeps h _ _
  · exact fun _ _ h => ovrWriteOp_keeps h _ _
  · exact fun _ _ h => Keeps.when h fun _ k => State.hopEval_keeps k
  · exact fun _ _ h => quietBandOp_keeps h _ _ _
  · exact fun _ _ h => setCtrlOp_keeps h _ _
  · exact fun _ _ h => chStatusOp_keeps h _ _ _
  · exact fun _ _ h => trimOp_keeps h _ _ _
  · exact fun _ _ h => sitCtrlOp_keeps h _
  · exact fun _ _ h => pairStatOp_keeps h _
  · exact fun _ _ h => winThrOp_keeps h _ _
  · exact fun _ _ h => winCtrlOp_keeps h _ _ _
  · exact fun _ _ h => adcCtrlOp_keeps h _ _ _
  · exact fun _ _ h => Keeps.when h fun _ k => calAllOp_keeps k

theorem portOp_keeps (a : Nat) (v : Word) : Answers KeepsEach (portOp a v) := by
  unfold portOp
  have k : ∀ {r s : State}, Keeps r s → Keeps r (s.withRegs (cellPut s.regs a (v.setWidth 64))) :=
    fun h => State.withRegs_keeps h _ fun g => cellsWf_put g
  refine .ite (.some ?_) (.ite (.some ?_) (.ite (.some ?_) .none))
  · exact fun _ _ h => uartDataOp_keeps h _ _
  · exact fun _ _ h => canSendOp_keeps (k h) _
  · exact fun _ _ h => State.send_keeps (k h) _

theorem linkSpecial_keeps (a : Nat) (v : Word) (x : BusFacts) : Answers KeepsEach (linkSpecial a v x) := by
  unfold linkSpecial
  refine .ite (.some ?_) (.ite (.some ?_) (.ite (.some ?_) (.ite (.some ?_) (.ite (.some ?_) (.ite (.some ?_) (.ite (.some ?_)
    (.ite (.some ?_) (.ite (.ite (.some ?_) (.ite (.some ?_) (.ite (.some ?_) .none))) (portOp_keeps a v)))))))))
  · exact fun _ _ h => Keeps.when h fun _ k => jrnlCommitOp_keeps k
  · exact fun _ _ h => laneCtrlOp_keeps h _ _ _
  · exact fun _ _ h => patOp_keeps h _ _
  · exact fun _ _ h => plantCtrlOp_keeps h _ _
  · exact fun _ _ h => blkCtrlOp_keeps h _
  · exact fun _ _ h => ptpCtrlOp_keeps h _
  · exact fun _ _ h => ptpOfsWriteOp_keeps h _
  · exact fun _ _ h => Keeps.upd h rfl rfl rfl rfl rfl
  · exact fun _ _ h => macCfgOp_keeps h _ _
  · exact fun _ _ h => macRingOp_keeps h _ _ _
  · exact fun _ _ h => lqCmdOp_keeps h _ _

theorem hostSpecial_keeps (a : Nat) (v : Word) (x : BusFacts) : Answers KeepsEach (hostSpecial a v x) := by
  unfold hostSpecial
  refine .ite (.some ?_) (.ite (.some ?_) (.ite (.some ?_) (.ite (.some ?_) (.ite (.some ?_) (.ite (.some ?_) (.ite (.some ?_)
    (.ite (.some ?_) (.ite (.some ?_) (.ite (.some ?_) (.ite (.some ?_) (.ite (.some ?_) (.ite (.some ?_) (.ite (.some ?_)
      (.ite (.some ?_) (.ite (.some ?_) .none)))))))))))))))
  · exact fun _ _ h => glzCtrlOp_keeps h _ _
  · exact fun _ _ h => xspiCmdOp_keeps h _ _
  · exact fun _ _ h => pllCtrlOp_keeps h _ _
  · exact fun _ _ h => pllConfigWriteOp_keeps h _ _ _
  · exact fun _ _ h => sagCmdOp_keeps h _ _
  · exact fun _ _ h => pugCfgOp_keeps h _
  · exact fun _ _ h => pugThrWriteOp_keeps h _
  · exact fun _ _ h => pwrCtrlOp_keeps h _
  · exact fun _ _ h => pfWarnOp_keeps h _
  · exact fun _ _ h => gpEnOp_keeps h _
  · exact fun _ _ h => wdogCfgOp_keeps h _
  · exact fun _ _ h => wdogKickOp_keeps h _
  · exact fun _ _ h => grgCmdOp_keeps h _
  · exact fun _ _ h => conCtrlOp_keeps h _
  · exact fun _ _ h => capEnWriteOp_keeps h _
  · exact fun _ _ h => Keeps.ite h (Keeps.ite (State.put_keeps h _ _) (State.put_keeps (State.put_keeps h _ _) _ _))

theorem special_keeps (a : Nat) (v : Word) (x : BusFacts) : Answers KeepsEach (special a v x) :=
  .ite (wheelSpecial_keeps a v) (.ite (powerSpecial_keeps a v x) (.ite (linkSpecial_keeps a v x) (hostSpecial_keeps a v x)))

theorem State.regWrite_keeps {root s : State} (h : Keeps root s) (d : RegDesc) (r sh bits : Nat) (v : DWord) (x : BusFacts) :
    Keeps root (State.regWrite s d r sh bits v x) := by
  unfold State.regWrite
  have k0 : Keeps root ((s.when (d.maskOf .rwf != 0) (·.rwfWrite d r sh bits (v.toNat % 2 ^ bits * 2 ^ sh))).respond 0) :=
    State.respond_keeps (Keeps.when h fun _ k => State.rwfWrite_keeps k _ _ _ _ _) _
  refine Keeps.ite (Keeps.ite (State.respond_keeps (State.rwfWrite_keeps h _ _ _ _ _) _) (State.busError_keeps h)) (Keeps.ite ?_ ?_)
  · refine Keeps.ite (ptpIncWriteOp_keeps k0 _ _) (Keeps.ite ?_ (plainWrite_keeps k0 _ _ _ _ _))
    exact Keeps.upd k0 rfl rfl rfl rfl rfl
  · split
    · next f e => exact special_keeps _ _ _ f e _ _ k0
    · exact plainWrite_keeps k0 _ _ _ _ _

theorem State.readEffect_keeps {root s : State} (h : Keeps root s) (d : RegDesc) (r sh bits : Nat) :
    Keeps root (State.readEffect s d r sh bits) := by
  unfold State.readEffect
  refine Keeps.ite (mboxReadOp_keeps h) (Keeps.ite (ptpNowReadOp_keeps h) (Keeps.ite (tsqReadOp_keeps h _ _) (Keeps.ite ?_ (Keeps.ite ?_
    (Keeps.ite (State.tookFree_keeps h) (Keeps.ite h ?_))))))
  · exact State.onWin_keeps h _ _
  · exact State.onPwr_keeps h _
  · exact h.regs fun g => cellsWf_put g

theorem State.directWrite_keeps {root s : State} (h : Keeps root s) (a n : Nat) (v : DWord) (x : BusFacts) :
    Keeps root (State.directWrite s a n v x) := by
  unfold State.directWrite
  split
  · exact State.regWrite_keeps h _ _ _ _ _ _
  · refine Keeps.ite (Keeps.ite (State.busError_keeps h) (Keeps.ite ?_ (Keeps.ite ?_ (State.respond_keeps h _)))) (State.busError_keeps h)
    · exact coefWriteOp_keeps (State.respond_keeps h _) _ _ _ _
    · exact (State.respond_keeps h _).regs fun g => cellsWf_put g

theorem State.directRead_keeps {root s : State} (h : Keeps root s) (a n : Nat) : Keeps root (State.directRead s a n) := by
  unfold State.directRead
  repeat' first
    | with_reducible assumption
    | with_reducible apply State.readEffect_keeps
    | with_reducible apply State.busError_keeps
    | with_reducible apply State.respond_keeps
    | with_reducible apply Keeps.ite
    | split
    | dsimp only
    | intro _

theorem State.aliasWriteOp_keeps {root s : State} (h : Keeps root s) (b : AliasBlock) (a n : Nat) (v : DWord) (x : BusFacts) : Keeps
    root (State.aliasWriteOp s b a n v x) := by
  unfold State.aliasWriteOp
  repeat' first
    | with_reducible assumption
    | with_reducible apply State.directWrite_keeps
    | with_reducible apply State.busError_keeps
    | with_reducible apply State.respond_keeps
    | with_reducible apply State.put_keeps
    | refine Keeps.each ?_ fun _ _ _ => ?_
    | with_reducible apply Keeps.ite
    | split
    | dsimp only
    | intro _

theorem State.aliasReadOp_keeps {root s : State} (h : Keeps root s) (b : AliasBlock) (a n : Nat) : Keeps root (State.aliasReadOp s b
    a n) := by
  unfold State.aliasReadOp
  repeat' first
    | with_reducible assumption
    | with_reducible apply State.busError_keeps
    | with_reducible apply State.respond_keeps
    | with_reducible apply State.tookFree_keeps
    | with_reducible apply State.put_keeps
    | refine Keeps.when ?_ fun _ _ => ?_
    | with_reducible apply Keeps.ite
    | split
    | dsimp only
    | intro _

theorem State.plicWrite_keeps {root s : State} (h : Keeps root s) (a v : Nat) : Keeps root (State.plicWrite s a v) := by
  unfold State.plicWrite
  refine Keeps.ite (Keeps.ite (Keeps.upd h rfl rfl rfl rfl rfl) h) (Keeps.ite h (h.regs fun g => cellsWf_put g))

theorem State.plicRead_keeps {root s : State} (h : Keeps root s) (a : Nat) : Keeps root (State.plicRead s a) := by
  unfold State.plicRead
  repeat' first
    | with_reducible assumption
    | with_reducible apply State.respond_keeps
    | with_reducible apply State.withPorts_keeps
    | with_reducible refine Keeps.foldl ?_ fun _ _ _ => ?_
    | with_reducible apply Keeps.ite
    | split
    | refine Keeps.upd ?_ rfl rfl rfl rfl rfl
    | dsimp only
    | intro _

theorem State.aclintWrite_keeps {root s : State} (h : Keeps root s) (a n v : Nat) : Keeps root (State.aclintWrite s a n v) := by
  unfold State.aclintWrite
  refine Keeps.ite (State.busError_keeps h) (Keeps.ite ?_ (Keeps.ite ?_ ?_))
  · exact State.respond_keeps (h.regs fun g => cellsWf_put g) _
  · exact State.respond_keeps (h.regs fun g => cellsWf_put g) _
  · exact State.respond_keeps (Keeps.upd h rfl rfl rfl rfl rfl) _

theorem State.aclintRead_keeps {root s : State} (h : Keeps root s) (a n : Nat) : Keeps root (State.aclintRead s a n) := by
  unfold State.aclintRead
  repeat' first
    | with_reducible assumption
    | with_reducible apply State.busError_keeps
    | with_reducible apply State.respond_keeps
    | with_reducible apply Keeps.ite
    | split
    | dsimp only
    | intro _

theorem State.busWrite_keeps {root s : State} (h : Keeps root s) (a n : Nat) (v : DWord) (x : BusFacts) :
    Keeps root (State.busWrite s a n v x) := by
  unfold State.busWrite
  refine Keeps.ite ?_ (Keeps.ite (Keeps.ite (State.busError_keeps h) (State.respond_keeps (State.withSram_keeps h _ fun g => Ram.wf_write g) _))
    (Keeps.ite (Keeps.ite (State.respond_keeps h _) (State.busError_keeps h)) (Keeps.ite (State.aclintWrite_keeps h _ _ _)
      (Keeps.ite (Keeps.ite (State.respond_keeps (State.plicWrite_keeps h _ _) _) (State.busError_keeps h)) (State.busError_keeps h)))))
  split
  · exact State.aliasWriteOp_keeps h _ _ _ _ _
  · exact State.directWrite_keeps h _ _ _ _

theorem State.busRead_keeps {root s : State} (h : Keeps root s) (a n : Nat) : Keeps root (State.busRead s a n) := by
  unfold State.busRead
  repeat' first
    | with_reducible assumption
    | with_reducible apply State.aclintRead_keeps
    | with_reducible apply State.plicRead_keeps
    | with_reducible apply State.aliasReadOp_keeps
    | with_reducible apply State.directRead_keeps
    | with_reducible apply State.busError_keeps
    | with_reducible apply State.respond_keeps
    | with_reducible apply State.tookFree_keeps
    | with_reducible apply Keeps.ite
    | split
    | dsimp only
    | intro _

theorem State.cpuAccess_keeps {root s : State} (h : Keeps root s) (a : Nat) (h : Held) (f : State → State) (hf : ∀ u0, Keeps root u0
    → Keeps root (f u0)) : Keeps root (State.cpuAccess s a h f) := by
  unfold State.cpuAccess
  repeat' first
    | with_reducible assumption
    | with_reducible apply hf
    | with_reducible apply State.withHeld_keeps
    | with_reducible apply Keeps.ite
    | split
    | dsimp only
    | intro _

theorem execRegisterWrite_keeps {s out : State} (a : Word) (v : DWord) (n : Fin 9) (x : BusFacts) (e : execRegisterWrite a v n x s =
    .next out) : Keeps s out := by
  cases e
  repeat' first
    | with_reducible exact Keeps.refl _
    | with_reducible assumption
    | with_reducible apply State.cpuAccess_keeps
    | with_reducible apply State.busWrite_keeps
    | refine Keeps.upd ?_ rfl rfl rfl rfl rfl
    | dsimp only
    | intro _

theorem execRegisterReadClear_keeps {s out : State} (a : Word) (n : Fin 9) (e : execRegisterReadClear a n s = .next out) : Keeps s
    out := by
  cases e
  repeat' first
    | with_reducible exact Keeps.refl _
    | with_reducible assumption
    | with_reducible apply State.cpuAccess_keeps
    | with_reducible apply State.busRead_keeps
    | dsimp only
    | intro _

theorem execAliasWrite_keeps {s out : State} (a : Word) (v : DWord) (n : Fin 9) (e : execAliasWrite a v n s = .next out) : Keeps s
    out := by
  cases e
  repeat' first
    | with_reducible exact Keeps.refl _
    | with_reducible assumption
    | with_reducible apply State.cpuAccess_keeps
    | with_reducible apply State.busWrite_keeps
    | with_reducible apply State.aliasWriteOp_keeps
    | split
    | dsimp only
    | intro _

theorem execAliasRead_keeps {s out : State} (a : Word) (n : Fin 9) (e : execAliasRead a n s = .next out) : Keeps s out := by
  cases e
  repeat' first
    | with_reducible exact Keeps.refl _
    | with_reducible assumption
    | with_reducible apply State.cpuAccess_keeps
    | with_reducible apply State.busRead_keeps
    | with_reducible apply State.aliasReadOp_keeps
    | split
    | dsimp only
    | intro _

theorem execBusErrorAccess_keeps {s out : State} (write : Bool) (a : BitVec 40) (v : DWord) (n : Fin 9) (e : execBusErrorAccess
    write a v n s = .next out) : Keeps s out := by
  cases e
  repeat' first
    | with_reducible exact Keeps.refl _
    | with_reducible assumption
    | with_reducible apply State.cpuAccess_keeps
    | with_reducible apply State.busRead_keeps
    | with_reducible apply State.busWrite_keeps
    | with_reducible apply State.busError_keeps
    | with_reducible apply Keeps.ite
    | split
    | dsimp only
    | intro _

theorem State.wholeWrite_keeps {root s : State} (h : Keeps root s) (a : Nat) (v : DWord) : Keeps root (State.wholeWrite s a v) := by
  unfold State.wholeWrite
  repeat' first
    | with_reducible assumption
    | with_reducible apply State.busWrite_keeps
    | with_reducible apply State.busError_keeps
    | split
    | dsimp only
    | intro _

theorem execRwfWrite_keeps {s out : State} (a : Word) (v : DWord) (e : execRwfWrite a v s = .next out) : Keeps s out := by
  cases e
  repeat' first
    | with_reducible exact Keeps.refl _
    | with_reducible assumption
    | with_reducible apply State.wholeWrite_keeps
    | with_reducible apply State.cpuAccess_keeps
    | dsimp only
    | intro _

theorem execJtagIdcode_keeps {s out : State} (e : execJtagIdcode s = .next out) : Keeps s out := by
  cases e
  repeat' first
    | with_reducible exact Keeps.refl _
    | with_reducible assumption
    | with_reducible apply State.respond_keeps
    | dsimp only
    | intro _

theorem execCanFrameReceived_keeps {s out : State} (i : Fin 2) (b : Fin 64) (id ctl : Word) (data : Vector Word 16)
    (e : execCanFrameReceived i b id ctl data s = .next out) : Keeps s out := by
  cases e
  refine Keeps.when (Keeps.refl _) fun _ k => State.put_keeps ?_ _ _
  exact k.regs fun g => cellsWf_foldl g fun _ _ g => cellsWf_put g

end Sys2Proof.Machine
end

