-- ==== Sys2Proof/Laws/KeepsReplay.lean ====
section
/-!
SUPPORT. Each operation of Machine/Replay.lean keeps the queue of waiting commands and the canonical form of the memories.
-/

namespace Sys2Proof.Machine

open Sys2Proof

set_option linter.all false

theorem State.runHeld_keeps {root s : State} (h : Keeps root s) (h : Held) : Keeps root (State.runHeld s h) := by
  unfold State.runHeld
  repeat' first
    | with_reducible assumption
    | with_reducible apply State.wholeWrite_keeps
    | with_reducible apply State.busRead_keeps
    | with_reducible apply State.busWrite_keeps
    | with_reducible apply trimOp_keeps
    | with_reducible apply clearPlantOp_keeps
    | with_reducible apply plantStopOp_keeps
    | with_reducible apply clearStopOp_keeps
    | with_reducible apply stopOp_keeps
    | with_reducible apply pairStatOp_keeps
    | with_reducible apply shadowOp_keeps
    | with_reducible apply State.selftestRefuse_keeps
    | with_reducible apply winThrOp_keeps
    | with_reducible apply ovrWriteOp_keeps
    | with_reducible apply periodWriteOp_keeps
    | with_reducible apply quietBandOp_keeps
    | with_reducible apply State.hopEval_keeps
    | with_reducible apply mboxThreshOp_keeps
    | with_reducible apply mboxReadOp_keeps
    | with_reducible apply istateWriteOp_keeps
    | with_reducible apply swapRequestOp_keeps
    | with_reducible apply coefWriteOp_keeps
    | with_reducible apply slotWriteOp_keeps
    | with_reducible apply dciAbortOp_keeps
    | with_reducible apply dciSweepRequestOp_keeps
    | with_reducible apply islCmdOp_keeps
    | with_reducible apply clearTripOp_keeps
    | with_reducible apply diagOp_keeps
    | with_reducible apply supplyUvClearOp_keeps
    | with_reducible apply bootStopClearOp_keeps
    | with_reducible apply desatClearOp_keeps
    | with_reducible apply disarmOp_keeps
    | with_reducible apply armOp_keeps
    | with_reducible apply State.diagStop_keeps
    | with_reducible apply calAllOp_keeps
    | with_reducible apply calOp_keeps
    | with_reducible apply adcStartOp_keeps
    | with_reducible apply State.busError_keeps
    | with_reducible apply State.respond_keeps
    | with_reducible apply Keeps.ite
    | split
    | refine Keeps.upd ?_ rfl rfl rfl rfl rfl
    | dsimp only
    | intro _

theorem State.releaseHeld_keeps {root s : State} (h : Keeps root s) : Keeps root (State.releaseHeld s) := by
  unfold State.releaseHeld
  repeat' first
    | with_reducible assumption
    | with_reducible apply State.runHeld_keeps
    | with_reducible apply State.withHeld_keeps
    | refine Keeps.each ?_ fun _ _ _ => ?_
    | dsimp only
    | intro _

theorem State.runReq_keeps {root s : State} (h : Keeps root s) (r : RemReq) : Keeps root (State.runReq s r) := by
  unfold State.runReq
  repeat' first
    | with_reducible assumption
    | with_reducible apply State.busRead_keeps
    | with_reducible apply State.busWrite_keeps
    | with_reducible apply State.freeCredit_keeps
    | with_reducible apply State.sendFrame_keeps
    | with_reducible apply State.busError_keeps
    | with_reducible apply State.withResp_keeps
    | with_reducible apply Keeps.ite
    | split
    | refine Keeps.upd ?_ rfl rfl rfl rfl rfl
    | dsimp only
    | intro _

theorem State.drainReqs_keeps {root s : State} (h : Keeps root s) (l : List RemReq) : Keeps root (State.drainReqs s l) := by
  induction l generalizing s with
  | nil => exact State.onWlk_keeps h _
  | cons r l ih =>
    unfold State.drainReqs
    exact Keeps.ite (State.onWlk_keeps h _) (ih (State.runReq_keeps h _))

theorem execRemReq_keeps {s out : State} (h : ReqHead) (write : Bool) (a : Word) (wide : Bool) (v : DWord) (x : BusFacts) (e :
    execRemReq h write a wide v x s = .next out) : Keeps s out := by
  cases e
  repeat' first
    | with_reducible exact Keeps.refl _
    | with_reducible assumption
    | with_reducible apply State.drainReqs_keeps
    | with_reducible apply State.passDiscard_keeps
    | with_reducible apply State.passDown_keeps
    | with_reducible apply Keeps.ite
    | split
    | refine Keeps.upd ?_ rfl rfl rfl rfl rfl
    | dsimp only
    | intro _

theorem State.firedRecord_keeps {root s : State} (h : Keeps root s) : Keeps root (State.firedRecord s) := by
  unfold State.firedRecord
  repeat' first
    | with_reducible assumption
    | with_reducible apply State.journalC_keeps
    | split
    | dsimp only
    | intro _

theorem State.rollbackAdvance_keeps {root s : State} (h : Keeps root s) : Keeps root (State.rollbackAdvance s) := by
  unfold State.rollbackAdvance
  repeat' first
    | with_reducible assumption
    | with_reducible apply State.put_keeps
    | with_reducible apply Keeps.ite
    | split
    | dsimp only
    | intro _

theorem State.plantFiringEnd_keeps {root s : State} (h : Keeps root s) : Keeps root (State.plantFiringEnd s) := by
  unfold State.plantFiringEnd
  repeat' first
    | with_reducible assumption
    | with_reducible apply State.onGlz_keeps
    | with_reducible apply State.put_keeps
    | with_reducible apply State.withSit_keeps
    | with_reducible apply Keeps.ite
    | split
    | refine Keeps.upd ?_ rfl rfl rfl rfl rfl
    | exact fun _ g => g
    | dsimp only
    | intro _

theorem State.phaseFired_keeps {root s : State} (h : Keeps root s) : Keeps root (State.phaseFired s) := by
  unfold State.phaseFired
  repeat' first
    | with_reducible assumption
    | with_reducible apply State.plantFiringEnd_keeps
    | with_reducible apply State.glzDone_keeps
    | with_reducible apply State.onGlz_keeps
    | with_reducible apply clearStopOp_keeps
    | with_reducible apply State.tripLine_keeps
    | with_reducible apply State.adcRun_keeps
    | with_reducible apply State.inc_keeps
    | with_reducible apply State.put_keeps
    | with_reducible apply State.withSit_keeps
    | refine Keeps.each ?_ fun _ _ _ => ?_
    | refine Keeps.when ?_ fun _ _ => ?_
    | refine Keeps.upd ?_ rfl rfl rfl rfl rfl
    | exact fun _ g => g
    | dsimp only
    | intro _

theorem execFireComplete_keeps {s out : State} (e : execFireComplete s = .next out) : Keeps s out := by
  cases e
  repeat' first
    | with_reducible exact Keeps.refl _
    | with_reducible assumption
    | with_reducible apply State.phaseFired_keeps
    | with_reducible apply State.rollbackAdvance_keeps
    | with_reducible apply State.firedRecord_keeps
    | with_reducible apply State.drainReqs_keeps
    | with_reducible apply State.releaseHeld_keeps
    | with_reducible apply Keeps.ite
    | split
    | dsimp only
    | intro _

end Sys2Proof.Machine
end

