-- ==== Sys2Proof/Laws/KeepsTick.lean ====
section
/-!
SUPPORT. Each operation of Machine/Tick.lean keeps the queue of waiting commands and the canonical form of the memories.
-/

namespace Sys2Proof.Machine

open Sys2Proof

set_option linter.all false

theorem State.tickHost_keeps {root s : State} (h : Keeps root s) : Keeps root (State.tickHost s) := by
  unfold State.tickHost
  repeat' first
    | with_reducible assumption
    | with_reducible apply State.withPorts_keeps
    | refine Keeps.when ?_ fun _ _ => ?_
    | refine Keeps.upd ?_ rfl rfl rfl rfl rfl
    | dsimp only
    | intro _

theorem State.tickMod_keeps {root s : State} (h : Keeps root s) : Keeps root (State.tickMod s) := by
  unfold State.tickMod
  repeat' first
    | with_reducible assumption
    | with_reducible apply State.put_keeps
    | with_reducible apply State.withMod_keeps
    | refine Keeps.each ?_ fun _ _ _ => ?_
    | refine Keeps.when ?_ fun _ _ => ?_
    | with_reducible apply Keeps.ite
    | split
    | refine Keeps.upd ?_ rfl rfl rfl rfl rfl
    | dsimp only
    | intro _

theorem State.tickWheel_keeps {root s : State} (h : Keeps root s) : Keeps root (State.tickWheel s) := by
  unfold State.tickWheel
  repeat' first
    | with_reducible assumption
    | with_reducible apply State.islAdvance_keeps
    | with_reducible apply State.gsuAdvance_keeps
    | refine Keeps.when ?_ fun _ _ => ?_
    | dsimp only
    | intro _

theorem State.tickNet_keeps {root s : State} (h : Keeps root s) : Keeps root (State.tickNet s) := by
  unfold State.tickNet
  repeat' first
    | with_reducible assumption
    | with_reducible apply State.tickMacs_keeps
    | with_reducible apply State.ptpAdvance_keeps
    | refine Keeps.when ?_ fun _ _ => ?_
    | dsimp only
    | intro _

theorem State.tickAdc_keeps {root s : State} (h : Keeps root s) : Keeps root (State.tickAdc s) := by
  unfold State.tickAdc
  repeat' first
    | with_reducible assumption
    | with_reducible apply State.put_keeps
    | refine Keeps.each ?_ fun _ _ _ => ?_
    | refine Keeps.when ?_ fun _ _ => ?_
    | dsimp only
    | intro _

theorem State.tickVaux_keeps {root s : State} (h : Keeps root s) : Keeps root (State.tickVaux s) := by
  unfold State.tickVaux
  repeat' first
    | with_reducible assumption
    | with_reducible apply State.put_keeps
    | with_reducible apply State.withPwr_keeps
    | refine Keeps.when ?_ fun _ _ => ?_
    | refine Keeps.upd ?_ rfl rfl rfl rfl rfl
    | dsimp only
    | intro _

theorem State.tickTrim_keeps {root s : State} (h : Keeps root s) : Keeps root (State.tickTrim s) := by
  unfold State.tickTrim
  repeat' first
    | with_reducible assumption
    | with_reducible apply State.onChan_keeps
    | refine Keeps.each ?_ fun _ _ _ => ?_
    | refine Keeps.upd ?_ rfl rfl rfl rfl rfl
    | dsimp only
    | intro _

theorem State.tickRest_keeps {root s : State} (h : Keeps root s) : Keeps root (State.tickRest s) := by
  unfold State.tickRest
  repeat' first
    | with_reducible assumption
    | with_reducible apply State.drainJournal_keeps
    | with_reducible apply State.tickLane_keeps
    | with_reducible refine State.withCon_keeps ?_ _ rfl rfl rfl
    | with_reducible apply State.withPug_keeps
    | with_reducible apply State.withOutbox_keeps
    | refine Keeps.each ?_ fun _ _ _ => ?_
    | with_reducible apply Keeps.ite
    | split
    | refine Keeps.upd ?_ rfl rfl rfl rfl rfl
    | dsimp only
    | intro _

theorem State.tick_keeps {root s : State} (h : Keeps root s) : Keeps root (State.tick s) := by
  unfold State.tick
  repeat' first
    | with_reducible assumption
    | with_reducible apply State.tickRest_keeps
    | with_reducible apply State.tickTrim_keeps
    | with_reducible apply State.tickVaux_keeps
    | with_reducible apply State.tickAdc_keeps
    | with_reducible apply State.tickNet_keeps
    | with_reducible apply State.tickWheel_keeps
    | with_reducible apply State.tickMod_keeps
    | with_reducible apply State.tickHost_keeps
    | with_reducible apply State.tickUarts_keeps
    | dsimp only
    | intro _

end Sys2Proof.Machine
end

