-- ==== Sys2Proof/Laws/State.lean ====
section
/-!
SUPPORT. Each update of the state leaves each field that it does not name: one lemma per field and update.
-/

namespace Sys2Proof.Machine

open Sys2Proof

@[simp] theorem State.put_pending (s : State) (f : Fld) (v : Nat) : (s.put f v).pending = s.pending := rfl
@[simp] theorem State.put_slots (s : State) (f : Fld) (v : Nat) : (s.put f v).slots = s.slots := rfl
@[simp] theorem State.put_coef (s : State) (f : Fld) (v : Nat) : (s.put f v).coef = s.coef := rfl
@[simp] theorem State.put_prog (s : State) (f : Fld) (v : Nat) : (s.put f v).prog = s.prog := rfl
@[simp] theorem State.put_sram (s : State) (f : Fld) (v : Nat) : (s.put f v).sram = s.sram := rfl
@[simp] theorem State.put_held (s : State) (f : Fld) (v : Nat) : (s.put f v).held = s.held := rfl
@[simp] theorem State.put_resp (s : State) (f : Fld) (v : Nat) : (s.put f v).resp = s.resp := rfl
@[simp] theorem State.put_free (s : State) (f : Fld) (v : Nat) : (s.put f v).free = s.free := rfl
@[simp] theorem State.put_outbox (s : State) (f : Fld) (v : Nat) : (s.put f v).outbox = s.outbox := rfl
@[simp] theorem State.put_glz (s : State) (f : Fld) (v : Nat) : (s.put f v).glz = s.glz := rfl
@[simp] theorem State.put_fab (s : State) (f : Fld) (v : Nat) : (s.put f v).fab = s.fab := rfl
@[simp] theorem State.put_wheels (s : State) (f : Fld) (v : Nat) : (s.put f v).wheels = s.wheels := rfl
@[simp] theorem State.put_groups (s : State) (f : Fld) (v : Nat) : (s.put f v).groups = s.groups := rfl
@[simp] theorem State.put_gsus (s : State) (f : Fld) (v : Nat) : (s.put f v).gsus = s.gsus := rfl
@[simp] theorem State.put_rts (s : State) (f : Fld) (v : Nat) : (s.put f v).rts = s.rts := rfl
@[simp] theorem State.put_isl (s : State) (f : Fld) (v : Nat) : (s.put f v).isl = s.isl := rfl
@[simp] theorem State.put_dci (s : State) (f : Fld) (v : Nat) : (s.put f v).dci = s.dci := rfl
@[simp] theorem State.put_mod (s : State) (f : Fld) (v : Nat) : (s.put f v).mod = s.mod := rfl
@[simp] theorem State.put_tiles (s : State) (f : Fld) (v : Nat) : (s.put f v).tiles = s.tiles := rfl
@[simp] theorem State.put_wins (s : State) (f : Fld) (v : Nat) : (s.put f v).wins = s.wins := rfl
@[simp] theorem State.put_sit (s : State) (f : Fld) (v : Nat) : (s.put f v).sit = s.sit := rfl
@[simp] theorem State.put_adcs (s : State) (f : Fld) (v : Nat) : (s.put f v).adcs = s.adcs := rfl
@[simp] theorem State.put_gx (s : State) (f : Fld) (v : Nat) : (s.put f v).gx = s.gx := rfl
@[simp] theorem State.put_met (s : State) (f : Fld) (v : Nat) : (s.put f v).met = s.met := rfl
@[simp] theorem State.put_clk (s : State) (f : Fld) (v : Nat) : (s.put f v).clk = s.clk := rfl
@[simp] theorem State.put_lanes (s : State) (f : Fld) (v : Nat) : (s.put f v).lanes = s.lanes := rfl
@[simp] theorem State.put_wlk (s : State) (f : Fld) (v : Nat) : (s.put f v).wlk = s.wlk := rfl
@[simp] theorem State.put_net (s : State) (f : Fld) (v : Nat) : (s.put f v).net = s.net := rfl
@[simp] theorem State.put_sag (s : State) (f : Fld) (v : Nat) : (s.put f v).sag = s.sag := rfl
@[simp] theorem State.put_pug (s : State) (f : Fld) (v : Nat) : (s.put f v).pug = s.pug := rfl
@[simp] theorem State.put_pwr (s : State) (f : Fld) (v : Nat) : (s.put f v).pwr = s.pwr := rfl
@[simp] theorem State.put_grg (s : State) (f : Fld) (v : Nat) : (s.put f v).grg = s.grg := rfl
@[simp] theorem State.put_con (s : State) (f : Fld) (v : Nat) : (s.put f v).con = s.con := rfl
@[simp] theorem State.put_ports (s : State) (f : Fld) (v : Nat) : (s.put f v).ports = s.ports := rfl

@[simp] theorem State.publish_pending (s : State) (k : Nat) (v : Word) : (s.publish k v).pending = s.pending := rfl
@[simp] theorem State.publish_regs (s : State) (k : Nat) (v : Word) : (s.publish k v).regs = s.regs := rfl
@[simp] theorem State.publish_coef (s : State) (k : Nat) (v : Word) : (s.publish k v).coef = s.coef := rfl
@[simp] theorem State.publish_prog (s : State) (k : Nat) (v : Word) : (s.publish k v).prog = s.prog := rfl
@[simp] theorem State.publish_sram (s : State) (k : Nat) (v : Word) : (s.publish k v).sram = s.sram := rfl
@[simp] theorem State.publish_held (s : State) (k : Nat) (v : Word) : (s.publish k v).held = s.held := rfl
@[simp] theorem State.publish_resp (s : State) (k : Nat) (v : Word) : (s.publish k v).resp = s.resp := rfl
@[simp] theorem State.publish_free (s : State) (k : Nat) (v : Word) : (s.publish k v).free = s.free := rfl
@[simp] theorem State.publish_outbox (s : State) (k : Nat) (v : Word) : (s.publish k v).outbox = s.outbox := rfl
@[simp] theorem State.publish_glz (s : State) (k : Nat) (v : Word) : (s.publish k v).glz = s.glz := rfl
@[simp] theorem State.publish_fab (s : State) (k : Nat) (v : Word) : (s.publish k v).fab = s.fab := rfl
@[simp] theorem State.publish_wheels (s : State) (k : Nat) (v : Word) : (s.publish k v).wheels = s.wheels := rfl
@[simp] theorem State.publish_groups (s : State) (k : Nat) (v : Word) : (s.publish k v).groups = s.groups := rfl
@[simp] theorem State.publish_gsus (s : State) (k : Nat) (v : Word) : (s.publish k v).gsus = s.gsus := rfl
@[simp] theorem State.publish_rts (s : State) (k : Nat) (v : Word) : (s.publish k v).rts = s.rts := rfl
@[simp] theorem State.publish_isl (s : State) (k : Nat) (v : Word) : (s.publish k v).isl = s.isl := rfl
@[simp] theorem State.publish_dci (s : State) (k : Nat) (v : Word) : (s.publish k v).dci = s.dci := rfl
@[simp] theorem State.publish_mod (s : State) (k : Nat) (v : Word) : (s.publish k v).mod = s.mod := rfl
@[simp] theorem State.publish_tiles (s : State) (k : Nat) (v : Word) : (s.publish k v).tiles = s.tiles := rfl
@[simp] theorem State.publish_wins (s : State) (k : Nat) (v : Word) : (s.publish k v).wins = s.wins := rfl
@[simp] theorem State.publish_sit (s : State) (k : Nat) (v : Word) : (s.publish k v).sit = s.sit := rfl
@[simp] theorem State.publish_adcs (s : State) (k : Nat) (v : Word) : (s.publish k v).adcs = s.adcs := rfl
@[simp] theorem State.publish_gx (s : State) (k : Nat) (v : Word) : (s.publish k v).gx = s.gx := rfl
@[simp] theorem State.publish_met (s : State) (k : Nat) (v : Word) : (s.publish k v).met = s.met := rfl
@[simp] theorem State.publish_clk (s : State) (k : Nat) (v : Word) : (s.publish k v).clk = s.clk := rfl
@[simp] theorem State.publish_lanes (s : State) (k : Nat) (v : Word) : (s.publish k v).lanes = s.lanes := rfl
@[simp] theorem State.publish_wlk (s : State) (k : Nat) (v : Word) : (s.publish k v).wlk = s.wlk := rfl
@[simp] theorem State.publish_net (s : State) (k : Nat) (v : Word) : (s.publish k v).net = s.net := rfl
@[simp] theorem State.publish_sag (s : State) (k : Nat) (v : Word) : (s.publish k v).sag = s.sag := rfl
@[simp] theorem State.publish_pug (s : State) (k : Nat) (v : Word) : (s.publish k v).pug = s.pug := rfl
@[simp] theorem State.publish_pwr (s : State) (k : Nat) (v : Word) : (s.publish k v).pwr = s.pwr := rfl
@[simp] theorem State.publish_grg (s : State) (k : Nat) (v : Word) : (s.publish k v).grg = s.grg := rfl
@[simp] theorem State.publish_con (s : State) (k : Nat) (v : Word) : (s.publish k v).con = s.con := rfl
@[simp] theorem State.publish_ports (s : State) (k : Nat) (v : Word) : (s.publish k v).ports = s.ports := rfl
@[simp] theorem State.publish_get (s : State) (k : Nat) (v : Word) (g : Fld) : (s.publish k v).get g = s.get g := rfl

@[simp] theorem State.tookFree_pending (s : State) : (s.tookFree).pending = s.pending := rfl
@[simp] theorem State.tookFree_regs (s : State) : (s.tookFree).regs = s.regs := rfl
@[simp] theorem State.tookFree_slots (s : State) : (s.tookFree).slots = s.slots := rfl
@[simp] theorem State.tookFree_coef (s : State) : (s.tookFree).coef = s.coef := rfl
@[simp] theorem State.tookFree_prog (s : State) : (s.tookFree).prog = s.prog := rfl
@[simp] theorem State.tookFree_sram (s : State) : (s.tookFree).sram = s.sram := rfl
@[simp] theorem State.tookFree_held (s : State) : (s.tookFree).held = s.held := rfl
@[simp] theorem State.tookFree_resp (s : State) : (s.tookFree).resp = s.resp := rfl
@[simp] theorem State.tookFree_outbox (s : State) : (s.tookFree).outbox = s.outbox := rfl
@[simp] theorem State.tookFree_glz (s : State) : (s.tookFree).glz = s.glz := rfl
@[simp] theorem State.tookFree_fab (s : State) : (s.tookFree).fab = s.fab := rfl
@[simp] theorem State.tookFree_wheels (s : State) : (s.tookFree).wheels = s.wheels := rfl
@[simp] theorem State.tookFree_groups (s : State) : (s.tookFree).groups = s.groups := rfl
@[simp] theorem State.tookFree_gsus (s : State) : (s.tookFree).gsus = s.gsus := rfl
@[simp] theorem State.tookFree_rts (s : State) : (s.tookFree).rts = s.rts := rfl
@[simp] theorem State.tookFree_isl (s : State) : (s.tookFree).isl = s.isl := rfl
@[simp] theorem State.tookFree_dci (s : State) : (s.tookFree).dci = s.dci := rfl
@[simp] theorem State.tookFree_mod (s : State) : (s.tookFree).mod = s.mod := rfl
@[simp] theorem State.tookFree_tiles (s : State) : (s.tookFree).tiles = s.tiles := rfl
@[simp] theorem State.tookFree_wins (s : State) : (s.tookFree).wins = s.wins := rfl
@[simp] theorem State.tookFree_sit (s : State) : (s.tookFree).sit = s.sit := rfl
@[simp] theorem State.tookFree_adcs (s : State) : (s.tookFree).adcs = s.adcs := rfl
@[simp] theorem State.tookFree_gx (s : State) : (s.tookFree).gx = s.gx := rfl
@[simp] theorem State.tookFree_met (s : State) : (s.tookFree).met = s.met := rfl
@[simp] theorem State.tookFree_clk (s : State) : (s.tookFree).clk = s.clk := rfl
@[simp] theorem State.tookFree_lanes (s : State) : (s.tookFree).lanes = s.lanes := rfl
@[simp] theorem State.tookFree_wlk (s : State) : (s.tookFree).wlk = s.wlk := rfl
@[simp] theorem State.tookFree_net (s : State) : (s.tookFree).net = s.net := rfl
@[simp] theorem State.tookFree_sag (s : State) : (s.tookFree).sag = s.sag := rfl
@[simp] theorem State.tookFree_pug (s : State) : (s.tookFree).pug = s.pug := rfl
@[simp] theorem State.tookFree_pwr (s : State) : (s.tookFree).pwr = s.pwr := rfl
@[simp] theorem State.tookFree_grg (s : State) : (s.tookFree).grg = s.grg := rfl
@[simp] theorem State.tookFree_con (s : State) : (s.tookFree).con = s.con := rfl
@[simp] theorem State.tookFree_ports (s : State) : (s.tookFree).ports = s.ports := rfl
@[simp] theorem State.tookFree_get (s : State) (g : Fld) : (s.tookFree).get g = s.get g := rfl

@[simp] theorem State.respond_pending (s : State) (v : Nat) : (s.respond v).pending = s.pending := rfl
@[simp] theorem State.respond_regs (s : State) (v : Nat) : (s.respond v).regs = s.regs := rfl
@[simp] theorem State.respond_slots (s : State) (v : Nat) : (s.respond v).slots = s.slots := rfl
@[simp] theorem State.respond_coef (s : State) (v : Nat) : (s.respond v).coef = s.coef := rfl
@[simp] theorem State.respond_prog (s : State) (v : Nat) : (s.respond v).prog = s.prog := rfl
@[simp] theorem State.respond_sram (s : State) (v : Nat) : (s.respond v).sram = s.sram := rfl
@[simp] theorem State.respond_held (s : State) (v : Nat) : (s.respond v).held = s.held := rfl
@[simp] theorem State.respond_free (s : State) (v : Nat) : (s.respond v).free = s.free := rfl
@[simp] theorem State.respond_outbox (s : State) (v : Nat) : (s.respond v).outbox = s.outbox := rfl
@[simp] theorem State.respond_glz (s : State) (v : Nat) : (s.respond v).glz = s.glz := rfl
@[simp] theorem State.respond_fab (s : State) (v : Nat) : (s.respond v).fab = s.fab := rfl
@[simp] theorem State.respond_wheels (s : State) (v : Nat) : (s.respond v).wheels = s.wheels := rfl
@[simp] theorem State.respond_groups (s : State) (v : Nat) : (s.respond v).groups = s.groups := rfl
@[simp] theorem State.respond_gsus (s : State) (v : Nat) : (s.respond v).gsus = s.gsus := rfl
@[simp] theorem State.respond_rts (s : State) (v : Nat) : (s.respond v).rts = s.rts := rfl
@[simp] theorem State.respond_isl (s : State) (v : Nat) : (s.respond v).isl = s.isl := rfl
@[simp] theorem State.respond_dci (s : State) (v : Nat) : (s.respond v).dci = s.dci := rfl
@[simp] theorem State.respond_mod (s : State) (v : Nat) : (s.respond v).mod = s.mod := rfl
@[simp] theorem State.respond_tiles (s : State) (v : Nat) : (s.respond v).tiles = s.tiles := rfl
@[simp] theorem State.respond_wins (s : State) (v : Nat) : (s.respond v).wins = s.wins := rfl
@[simp] theorem State.respond_sit (s : State) (v : Nat) : (s.respond v).sit = s.sit := rfl
@[simp] theorem State.respond_adcs (s : State) (v : Nat) : (s.respond v).adcs = s.adcs := rfl
@[simp] theorem State.respond_gx (s : State) (v : Nat) : (s.respond v).gx = s.gx := rfl
@[simp] theorem State.respond_met (s : State) (v : Nat) : (s.respond v).met = s.met := rfl
@[simp] theorem State.respond_clk (s : State) (v : Nat) : (s.respond v).clk = s.clk := rfl
@[simp] theorem State.respond_lanes (s : State) (v : Nat) : (s.respond v).lanes = s.lanes := rfl
@[simp] theorem State.respond_wlk (s : State) (v : Nat) : (s.respond v).wlk = s.wlk := rfl
@[simp] theorem State.respond_net (s : State) (v : Nat) : (s.respond v).net = s.net := rfl
@[simp] theorem State.respond_sag (s : State) (v : Nat) : (s.respond v).sag = s.sag := rfl
@[simp] theorem State.respond_pug (s : State) (v : Nat) : (s.respond v).pug = s.pug := rfl
@[simp] theorem State.respond_pwr (s : State) (v : Nat) : (s.respond v).pwr = s.pwr := rfl
@[simp] theorem State.respond_grg (s : State) (v : Nat) : (s.respond v).grg = s.grg := rfl
@[simp] theorem State.respond_con (s : State) (v : Nat) : (s.respond v).con = s.con := rfl
@[simp] theorem State.respond_ports (s : State) (v : Nat) : (s.respond v).ports = s.ports := rfl
@[simp] theorem State.respond_get (s : State) (v : Nat) (g : Fld) : (s.respond v).get g = s.get g := rfl

@[simp] theorem State.busError_pending (s : State) : (s.busError).pending = s.pending := rfl
@[simp] theorem State.busError_regs (s : State) : (s.busError).regs = s.regs := rfl
@[simp] theorem State.busError_slots (s : State) : (s.busError).slots = s.slots := rfl
@[simp] theorem State.busError_coef (s : State) : (s.busError).coef = s.coef := rfl
@[simp] theorem State.busError_prog (s : State) : (s.busError).prog = s.prog := rfl
@[simp] theorem State.busError_sram (s : State) : (s.busError).sram = s.sram := rfl
@[simp] theorem State.busError_held (s : State) : (s.busError).held = s.held := rfl
@[simp] theorem State.busError_free (s : State) : (s.busError).free = s.free := rfl
@[simp] theorem State.busError_outbox (s : State) : (s.busError).outbox = s.outbox := rfl
@[simp] theorem State.busError_glz (s : State) : (s.busError).glz = s.glz := rfl
@[simp] theorem State.busError_fab (s : State) : (s.busError).fab = s.fab := rfl
@[simp] theorem State.busError_wheels (s : State) : (s.busError).wheels = s.wheels := rfl
@[simp] theorem State.busError_groups (s : State) : (s.busError).groups = s.groups := rfl
@[simp] theorem State.busError_gsus (s : State) : (s.busError).gsus = s.gsus := rfl
@[simp] theorem State.busError_rts (s : State) : (s.busError).rts = s.rts := rfl
@[simp] theorem State.busError_isl (s : State) : (s.busError).isl = s.isl := rfl
@[simp] theorem State.busError_dci (s : State) : (s.busError).dci = s.dci := rfl
@[simp] theorem State.busError_mod (s : State) : (s.busError).mod = s.mod := rfl
@[simp] theorem State.busError_tiles (s : State) : (s.busError).tiles = s.tiles := rfl
@[simp] theorem State.busError_wins (s : State) : (s.busError).wins = s.wins := rfl
@[simp] theorem State.busError_sit (s : State) : (s.busError).sit = s.sit := rfl
@[simp] theorem State.busError_adcs (s : State) : (s.busError).adcs = s.adcs := rfl
@[simp] theorem State.busError_gx (s : State) : (s.busError).gx = s.gx := rfl
@[simp] theorem State.busError_met (s : State) : (s.busError).met = s.met := rfl
@[simp] theorem State.busError_clk (s : State) : (s.busError).clk = s.clk := rfl
@[simp] theorem State.busError_lanes (s : State) : (s.busError).lanes = s.lanes := rfl
@[simp] theorem State.busError_wlk (s : State) : (s.busError).wlk = s.wlk := rfl
@[simp] theorem State.busError_net (s : State) : (s.busError).net = s.net := rfl
@[simp] theorem State.busError_sag (s : State) : (s.busError).sag = s.sag := rfl
@[simp] theorem State.busError_pug (s : State) : (s.busError).pug = s.pug := rfl
@[simp] theorem State.busError_pwr (s : State) : (s.busError).pwr = s.pwr := rfl
@[simp] theorem State.busError_grg (s : State) : (s.busError).grg = s.grg := rfl
@[simp] theorem State.busError_con (s : State) : (s.busError).con = s.con := rfl
@[simp] theorem State.busError_ports (s : State) : (s.busError).ports = s.ports := rfl
@[simp] theorem State.busError_get (s : State) (g : Fld) : (s.busError).get g = s.get g := rfl

@[simp] theorem State.send_pending (s : State) (u : OutUnit) : (s.send u).pending = s.pending := rfl
@[simp] theorem State.send_regs (s : State) (u : OutUnit) : (s.send u).regs = s.regs := rfl
@[simp] theorem State.send_slots (s : State) (u : OutUnit) : (s.send u).slots = s.slots := rfl
@[simp] theorem State.send_coef (s : State) (u : OutUnit) : (s.send u).coef = s.coef := rfl
@[simp] theorem State.send_prog (s : State) (u : OutUnit) : (s.send u).prog = s.prog := rfl
@[simp] theorem State.send_sram (s : State) (u : OutUnit) : (s.send u).sram = s.sram := rfl
@[simp] theorem State.send_held (s : State) (u : OutUnit) : (s.send u).held = s.held := rfl
@[simp] theorem State.send_resp (s : State) (u : OutUnit) : (s.send u).resp = s.resp := rfl
@[simp] theorem State.send_free (s : State) (u : OutUnit) : (s.send u).free = s.free := rfl
@[simp] theorem State.send_glz (s : State) (u : OutUnit) : (s.send u).glz = s.glz := rfl
@[simp] theorem State.send_fab (s : State) (u : OutUnit) : (s.send u).fab = s.fab := rfl
@[simp] theorem State.send_wheels (s : State) (u : OutUnit) : (s.send u).wheels = s.wheels := rfl
@[simp] theorem State.send_groups (s : State) (u : OutUnit) : (s.send u).groups = s.groups := rfl
@[simp] theorem State.send_gsus (s : State) (u : OutUnit) : (s.send u).gsus = s.gsus := rfl
@[simp] theorem State.send_rts (s : State) (u : OutUnit) : (s.send u).rts = s.rts := rfl
@[simp] theorem State.send_isl (s : State) (u : OutUnit) : (s.send u).isl = s.isl := rfl
@[simp] theorem State.send_dci (s : State) (u : OutUnit) : (s.send u).dci = s.dci := rfl
@[simp] theorem State.send_mod (s : State) (u : OutUnit) : (s.send u).mod = s.mod := rfl
@[simp] theorem State.send_tiles (s : State) (u : OutUnit) : (s.send u).tiles = s.tiles := rfl
@[simp] theorem State.send_wins (s : State) (u : OutUnit) : (s.send u).wins = s.wins := rfl
@[simp] theorem State.send_sit (s : State) (u : OutUnit) : (s.send u).sit = s.sit := rfl
@[simp] theorem State.send_adcs (s : State) (u : OutUnit) : (s.send u).adcs = s.adcs := rfl
@[simp] theorem State.send_gx (s : State) (u : OutUnit) : (s.send u).gx = s.gx := rfl
@[simp] theorem State.send_met (s : State) (u : OutUnit) : (s.send u).met = s.met := rfl
@[simp] theorem State.send_clk (s : State) (u : OutUnit) : (s.send u).clk = s.clk := rfl
@[simp] theorem State.send_lanes (s : State) (u : OutUnit) : (s.send u).lanes = s.lanes := rfl
@[simp] theorem State.send_wlk (s : State) (u : OutUnit) : (s.send u).wlk = s.wlk := rfl
@[simp] theorem State.send_net (s : State) (u : OutUnit) : (s.send u).net = s.net := rfl
@[simp] theorem State.send_sag (s : State) (u : OutUnit) : (s.send u).sag = s.sag := rfl
@[simp] theorem State.send_pug (s : State) (u : OutUnit) : (s.send u).pug = s.pug := rfl
@[simp] theorem State.send_pwr (s : State) (u : OutUnit) : (s.send u).pwr = s.pwr := rfl
@[simp] theorem State.send_grg (s : State) (u : OutUnit) : (s.send u).grg = s.grg := rfl
@[simp] theorem State.send_con (s : State) (u : OutUnit) : (s.send u).con = s.con := rfl
@[simp] theorem State.send_ports (s : State) (u : OutUnit) : (s.send u).ports = s.ports := rfl
@[simp] theorem State.send_get (s : State) (u : OutUnit) (g : Fld) : (s.send u).get g = s.get g := rfl

@[simp] theorem State.onPair_pending (s : State) (p : Fin 9) (f : Pair → Pair) : (s.onPair p f).pending = s.pending := rfl
@[simp] theorem State.onPair_regs (s : State) (p : Fin 9) (f : Pair → Pair) : (s.onPair p f).regs = s.regs := rfl
@[simp] theorem State.onPair_slots (s : State) (p : Fin 9) (f : Pair → Pair) : (s.onPair p f).slots = s.slots := rfl
@[simp] theorem State.onPair_coef (s : State) (p : Fin 9) (f : Pair → Pair) : (s.onPair p f).coef = s.coef := rfl
@[simp] theorem State.onPair_prog (s : State) (p : Fin 9) (f : Pair → Pair) : (s.onPair p f).prog = s.prog := rfl
@[simp] theorem State.onPair_sram (s : State) (p : Fin 9) (f : Pair → Pair) : (s.onPair p f).sram = s.sram := rfl
@[simp] theorem State.onPair_held (s : State) (p : Fin 9) (f : Pair → Pair) : (s.onPair p f).held = s.held := rfl
@[simp] theorem State.onPair_resp (s : State) (p : Fin 9) (f : Pair → Pair) : (s.onPair p f).resp = s.resp := rfl
@[simp] theorem State.onPair_free (s : State) (p : Fin 9) (f : Pair → Pair) : (s.onPair p f).free = s.free := rfl
@[simp] theorem State.onPair_outbox (s : State) (p : Fin 9) (f : Pair → Pair) : (s.onPair p f).outbox = s.outbox := rfl
@[simp] theorem State.onPair_glz (s : State) (p : Fin 9) (f : Pair → Pair) : (s.onPair p f).glz = s.glz := rfl
@[simp] theorem State.onPair_fab (s : State) (p : Fin 9) (f : Pair → Pair) : (s.onPair p f).fab = s.fab := rfl
@[simp] theorem State.onPair_wheels (s : State) (p : Fin 9) (f : Pair → Pair) : (s.onPair p f).wheels = s.wheels := rfl
@[simp] theorem State.onPair_groups (s : State) (p : Fin 9) (f : Pair → Pair) : (s.onPair p f).groups = s.groups := rfl
@[simp] theorem State.onPair_gsus (s : State) (p : Fin 9) (f : Pair → Pair) : (s.onPair p f).gsus = s.gsus := rfl
@[simp] theorem State.onPair_rts (s : State) (p : Fin 9) (f : Pair → Pair) : (s.onPair p f).rts = s.rts := rfl
@[simp] theorem State.onPair_isl (s : State) (p : Fin 9) (f : Pair → Pair) : (s.onPair p f).isl = s.isl := rfl
@[simp] theorem State.onPair_dci (s : State) (p : Fin 9) (f : Pair → Pair) : (s.onPair p f).dci = s.dci := rfl
@[simp] theorem State.onPair_tiles (s : State) (p : Fin 9) (f : Pair → Pair) : (s.onPair p f).tiles = s.tiles := rfl
@[simp] theorem State.onPair_wins (s : State) (p : Fin 9) (f : Pair → Pair) : (s.onPair p f).wins = s.wins := rfl
@[simp] theorem State.onPair_sit (s : State) (p : Fin 9) (f : Pair → Pair) : (s.onPair p f).sit = s.sit := rfl
@[simp] theorem State.onPair_adcs (s : State) (p : Fin 9) (f : Pair → Pair) : (s.onPair p f).adcs = s.adcs := rfl
@[simp] theorem State.onPair_gx (s : State) (p : Fin 9) (f : Pair → Pair) : (s.onPair p f).gx = s.gx := rfl
@[simp] theorem State.onPair_met (s : State) (p : Fin 9) (f : Pair → Pair) : (s.onPair p f).met = s.met := rfl
@[simp] theorem State.onPair_clk (s : State) (p : Fin 9) (f : Pair → Pair) : (s.onPair p f).clk = s.clk := rfl
@[simp] theorem State.onPair_lanes (s : State) (p : Fin 9) (f : Pair → Pair) : (s.onPair p f).lanes = s.lanes := rfl
@[simp] theorem State.onPair_wlk (s : State) (p : Fin 9) (f : Pair → Pair) : (s.onPair p f).wlk = s.wlk := rfl
@[simp] theorem State.onPair_net (s : State) (p : Fin 9) (f : Pair → Pair) : (s.onPair p f).net = s.net := rfl
@[simp] theorem State.onPair_sag (s : State) (p : Fin 9) (f : Pair → Pair) : (s.onPair p f).sag = s.sag := rfl
@[simp] theorem State.onPair_pug (s : State) (p : Fin 9) (f : Pair → Pair) : (s.onPair p f).pug = s.pug := rfl
@[simp] theorem State.onPair_pwr (s : State) (p : Fin 9) (f : Pair → Pair) : (s.onPair p f).pwr = s.pwr := rfl
@[simp] theorem State.onPair_grg (s : State) (p : Fin 9) (f : Pair → Pair) : (s.onPair p f).grg = s.grg := rfl
@[simp] theorem State.onPair_con (s : State) (p : Fin 9) (f : Pair → Pair) : (s.onPair p f).con = s.con := rfl
@[simp] theorem State.onPair_ports (s : State) (p : Fin 9) (f : Pair → Pair) : (s.onPair p f).ports = s.ports := rfl
@[simp] theorem State.onPair_get (s : State) (p : Fin 9) (f : Pair → Pair) (g : Fld) : (s.onPair p f).get g = s.get g := rfl

@[simp] theorem State.onTile_pending (s : State) (n : Fin 9) (f : Tile → Tile) : (s.onTile n f).pending = s.pending := rfl
@[simp] theorem State.onTile_regs (s : State) (n : Fin 9) (f : Tile → Tile) : (s.onTile n f).regs = s.regs := rfl
@[simp] theorem State.onTile_slots (s : State) (n : Fin 9) (f : Tile → Tile) : (s.onTile n f).slots = s.slots := rfl
@[simp] theorem State.onTile_coef (s : State) (n : Fin 9) (f : Tile → Tile) : (s.onTile n f).coef = s.coef := rfl
@[simp] theorem State.onTile_prog (s : State) (n : Fin 9) (f : Tile → Tile) : (s.onTile n f).prog = s.prog := rfl
@[simp] theorem State.onTile_sram (s : State) (n : Fin 9) (f : Tile → Tile) : (s.onTile n f).sram = s.sram := rfl
@[simp] theorem State.onTile_held (s : State) (n : Fin 9) (f : Tile → Tile) : (s.onTile n f).held = s.held := rfl
@[simp] theorem State.onTile_resp (s : State) (n : Fin 9) (f : Tile → Tile) : (s.onTile n f).resp = s.resp := rfl
@[simp] theorem State.onTile_free (s : State) (n : Fin 9) (f : Tile → Tile) : (s.onTile n f).free = s.free := rfl
@[simp] theorem State.onTile_outbox (s : State) (n : Fin 9) (f : Tile → Tile) : (s.onTile n f).outbox = s.outbox := rfl
@[simp] theorem State.onTile_glz (s : State) (n : Fin 9) (f : Tile → Tile) : (s.onTile n f).glz = s.glz := rfl
@[simp] theorem State.onTile_fab (s : State) (n : Fin 9) (f : Tile → Tile) : (s.onTile n f).fab = s.fab := rfl
@[simp] theorem State.onTile_wheels (s : State) (n : Fin 9) (f : Tile → Tile) : (s.onTile n f).wheels = s.wheels := rfl
@[simp] theorem State.onTile_groups (s : State) (n : Fin 9) (f : Tile → Tile) : (s.onTile n f).groups = s.groups := rfl
@[simp] theorem State.onTile_gsus (s : State) (n : Fin 9) (f : Tile → Tile) : (s.onTile n f).gsus = s.gsus := rfl
@[simp] theorem State.onTile_rts (s : State) (n : Fin 9) (f : Tile → Tile) : (s.onTile n f).rts = s.rts := rfl
@[simp] theorem State.onTile_isl (s : State) (n : Fin 9) (f : Tile → Tile) : (s.onTile n f).isl = s.isl := rfl
@[simp] theorem State.onTile_dci (s : State) (n : Fin 9) (f : Tile → Tile) : (s.onTile n f).dci = s.dci := rfl
@[simp] theorem State.onTile_mod (s : State) (n : Fin 9) (f : Tile → Tile) : (s.onTile n f).mod = s.mod := rfl
@[simp] theorem State.onTile_wins (s : State) (n : Fin 9) (f : Tile → Tile) : (s.onTile n f).wins = s.wins := rfl
@[simp] theorem State.onTile_sit (s : State) (n : Fin 9) (f : Tile → Tile) : (s.onTile n f).sit = s.sit := rfl
@[simp] theorem State.onTile_adcs (s : State) (n : Fin 9) (f : Tile → Tile) : (s.onTile n f).adcs = s.adcs := rfl
@[simp] theorem State.onTile_gx (s : State) (n : Fin 9) (f : Tile → Tile) : (s.onTile n f).gx = s.gx := rfl
@[simp] theorem State.onTile_met (s : State) (n : Fin 9) (f : Tile → Tile) : (s.onTile n f).met = s.met := rfl
@[simp] theorem State.onTile_clk (s : State) (n : Fin 9) (f : Tile → Tile) : (s.onTile n f).clk = s.clk := rfl
@[simp] theorem State.onTile_lanes (s : State) (n : Fin 9) (f : Tile → Tile) : (s.onTile n f).lanes = s.lanes := rfl
@[simp] theorem State.onTile_wlk (s : State) (n : Fin 9) (f : Tile → Tile) : (s.onTile n f).wlk = s.wlk := rfl
@[simp] theorem State.onTile_net (s : State) (n : Fin 9) (f : Tile → Tile) : (s.onTile n f).net = s.net := rfl
@[simp] theorem State.onTile_sag (s : State) (n : Fin 9) (f : Tile → Tile) : (s.onTile n f).sag = s.sag := rfl
@[simp] theorem State.onTile_pug (s : State) (n : Fin 9) (f : Tile → Tile) : (s.onTile n f).pug = s.pug := rfl
@[simp] theorem State.onTile_pwr (s : State) (n : Fin 9) (f : Tile → Tile) : (s.onTile n f).pwr = s.pwr := rfl
@[simp] theorem State.onTile_grg (s : State) (n : Fin 9) (f : Tile → Tile) : (s.onTile n f).grg = s.grg := rfl
@[simp] theorem State.onTile_con (s : State) (n : Fin 9) (f : Tile → Tile) : (s.onTile n f).con = s.con := rfl
@[simp] theorem State.onTile_ports (s : State) (n : Fin 9) (f : Tile → Tile) : (s.onTile n f).ports = s.ports := rfl
@[simp] theorem State.onTile_get (s : State) (n : Fin 9) (f : Tile → Tile) (g : Fld) : (s.onTile n f).get g = s.get g := rfl

@[simp] theorem State.onChan_pending (s : State) (n : Fin 9) (c : Fin 2) (f : Chan → Chan) : (s.onChan n c f).pending = s.pending := rfl
@[simp] theorem State.onChan_regs (s : State) (n : Fin 9) (c : Fin 2) (f : Chan → Chan) : (s.onChan n c f).regs = s.regs := rfl
@[simp] theorem State.onChan_slots (s : State) (n : Fin 9) (c : Fin 2) (f : Chan → Chan) : (s.onChan n c f).slots = s.slots := rfl
@[simp] theorem State.onChan_coef (s : State) (n : Fin 9) (c : Fin 2) (f : Chan → Chan) : (s.onChan n c f).coef = s.coef := rfl
@[simp] theorem State.onChan_prog (s : State) (n : Fin 9) (c : Fin 2) (f : Chan → Chan) : (s.onChan n c f).prog = s.prog := rfl
@[simp] theorem State.onChan_sram (s : State) (n : Fin 9) (c : Fin 2) (f : Chan → Chan) : (s.onChan n c f).sram = s.sram := rfl
@[simp] theorem State.onChan_held (s : State) (n : Fin 9) (c : Fin 2) (f : Chan → Chan) : (s.onChan n c f).held = s.held := rfl
@[simp] theorem State.onChan_resp (s : State) (n : Fin 9) (c : Fin 2) (f : Chan → Chan) : (s.onChan n c f).resp = s.resp := rfl
@[simp] theorem State.onChan_free (s : State) (n : Fin 9) (c : Fin 2) (f : Chan → Chan) : (s.onChan n c f).free = s.free := rfl
@[simp] theorem State.onChan_outbox (s : State) (n : Fin 9) (c : Fin 2) (f : Chan → Chan) : (s.onChan n c f).outbox = s.outbox := rfl
@[simp] theorem State.onChan_glz (s : State) (n : Fin 9) (c : Fin 2) (f : Chan → Chan) : (s.onChan n c f).glz = s.glz := rfl
@[simp] theorem State.onChan_fab (s : State) (n : Fin 9) (c : Fin 2) (f : Chan → Chan) : (s.onChan n c f).fab = s.fab := rfl
@[simp] theorem State.onChan_wheels (s : State) (n : Fin 9) (c : Fin 2) (f : Chan → Chan) : (s.onChan n c f).wheels = s.wheels := rfl
@[simp] theorem State.onChan_groups (s : State) (n : Fin 9) (c : Fin 2) (f : Chan → Chan) : (s.onChan n c f).groups = s.groups := rfl
@[simp] theorem State.onChan_gsus (s : State) (n : Fin 9) (c : Fin 2) (f : Chan → Chan) : (s.onChan n c f).gsus = s.gsus := rfl
@[simp] theorem State.onChan_rts (s : State) (n : Fin 9) (c : Fin 2) (f : Chan → Chan) : (s.onChan n c f).rts = s.rts := rfl
@[simp] theorem State.onChan_isl (s : State) (n : Fin 9) (c : Fin 2) (f : Chan → Chan) : (s.onChan n c f).isl = s.isl := rfl
@[simp] theorem State.onChan_dci (s : State) (n : Fin 9) (c : Fin 2) (f : Chan → Chan) : (s.onChan n c f).dci = s.dci := rfl
@[simp] theorem State.onChan_mod (s : State) (n : Fin 9) (c : Fin 2) (f : Chan → Chan) : (s.onChan n c f).mod = s.mod := rfl
@[simp] theorem State.onChan_wins (s : State) (n : Fin 9) (c : Fin 2) (f : Chan → Chan) : (s.onChan n c f).wins = s.wins := rfl
@[simp] theorem State.onChan_sit (s : State) (n : Fin 9) (c : Fin 2) (f : Chan → Chan) : (s.onChan n c f).sit = s.sit := rfl
@[simp] theorem State.onChan_adcs (s : State) (n : Fin 9) (c : Fin 2) (f : Chan → Chan) : (s.onChan n c f).adcs = s.adcs := rfl
@[simp] theorem State.onChan_gx (s : State) (n : Fin 9) (c : Fin 2) (f : Chan → Chan) : (s.onChan n c f).gx = s.gx := rfl
@[simp] theorem State.onChan_met (s : State) (n : Fin 9) (c : Fin 2) (f : Chan → Chan) : (s.onChan n c f).met = s.met := rfl
@[simp] theorem State.onChan_clk (s : State) (n : Fin 9) (c : Fin 2) (f : Chan → Chan) : (s.onChan n c f).clk = s.clk := rfl
@[simp] theorem State.onChan_lanes (s : State) (n : Fin 9) (c : Fin 2) (f : Chan → Chan) : (s.onChan n c f).lanes = s.lanes := rfl
@[simp] theorem State.onChan_wlk (s : State) (n : Fin 9) (c : Fin 2) (f : Chan → Chan) : (s.onChan n c f).wlk = s.wlk := rfl
@[simp] theorem State.onChan_net (s : State) (n : Fin 9) (c : Fin 2) (f : Chan → Chan) : (s.onChan n c f).net = s.net := rfl
@[simp] theorem State.onChan_sag (s : State) (n : Fin 9) (c : Fin 2) (f : Chan → Chan) : (s.onChan n c f).sag = s.sag := rfl
@[simp] theorem State.onChan_pug (s : State) (n : Fin 9) (c : Fin 2) (f : Chan → Chan) : (s.onChan n c f).pug = s.pug := rfl
@[simp] theorem State.onChan_pwr (s : State) (n : Fin 9) (c : Fin 2) (f : Chan → Chan) : (s.onChan n c f).pwr = s.pwr := rfl
@[simp] theorem State.onChan_grg (s : State) (n : Fin 9) (c : Fin 2) (f : Chan → Chan) : (s.onChan n c f).grg = s.grg := rfl
@[simp] theorem State.onChan_con (s : State) (n : Fin 9) (c : Fin 2) (f : Chan → Chan) : (s.onChan n c f).con = s.con := rfl
@[simp] theorem State.onChan_ports (s : State) (n : Fin 9) (c : Fin 2) (f : Chan → Chan) : (s.onChan n c f).ports = s.ports := rfl
@[simp] theorem State.onChan_get (s : State) (n : Fin 9) (c : Fin 2) (f : Chan → Chan) (g : Fld) : (s.onChan n c f).get g = s.get g := rfl

@[simp] theorem State.onWin_pending (s : State) (n : Fin 44) (f : WinUnit → WinUnit) : (s.onWin n f).pending = s.pending := rfl
@[simp] theorem State.onWin_regs (s : State) (n : Fin 44) (f : WinUnit → WinUnit) : (s.onWin n f).regs = s.regs := rfl
@[simp] theorem State.onWin_slots (s : State) (n : Fin 44) (f : WinUnit → WinUnit) : (s.onWin n f).slots = s.slots := rfl
@[simp] theorem State.onWin_coef (s : State) (n : Fin 44) (f : WinUnit → WinUnit) : (s.onWin n f).coef = s.coef := rfl
@[simp] theorem State.onWin_prog (s : State) (n : Fin 44) (f : WinUnit → WinUnit) : (s.onWin n f).prog = s.prog := rfl
@[simp] theorem State.onWin_sram (s : State) (n : Fin 44) (f : WinUnit → WinUnit) : (s.onWin n f).sram = s.sram := rfl
@[simp] theorem State.onWin_held (s : State) (n : Fin 44) (f : WinUnit → WinUnit) : (s.onWin n f).held = s.held := rfl
@[simp] theorem State.onWin_resp (s : State) (n : Fin 44) (f : WinUnit → WinUnit) : (s.onWin n f).resp = s.resp := rfl
@[simp] theorem State.onWin_free (s : State) (n : Fin 44) (f : WinUnit → WinUnit) : (s.onWin n f).free = s.free := rfl
@[simp] theorem State.onWin_outbox (s : State) (n : Fin 44) (f : WinUnit → WinUnit) : (s.onWin n f).outbox = s.outbox := rfl
@[simp] theorem State.onWin_glz (s : State) (n : Fin 44) (f : WinUnit → WinUnit) : (s.onWin n f).glz = s.glz := rfl
@[simp] theorem State.onWin_fab (s : State) (n : Fin 44) (f : WinUnit → WinUnit) : (s.onWin n f).fab = s.fab := rfl
@[simp] theorem State.onWin_wheels (s : State) (n : Fin 44) (f : WinUnit → WinUnit) : (s.onWin n f).wheels = s.wheels := rfl
@[simp] theorem State.onWin_groups (s : State) (n : Fin 44) (f : WinUnit → WinUnit) : (s.onWin n f).groups = s.groups := rfl
@[simp] theorem State.onWin_gsus (s : State) (n : Fin 44) (f : WinUnit → WinUnit) : (s.onWin n f).gsus = s.gsus := rfl
@[simp] theorem State.onWin_rts (s : State) (n : Fin 44) (f : WinUnit → WinUnit) : (s.onWin n f).rts = s.rts := rfl
@[simp] theorem State.onWin_isl (s : State) (n : Fin 44) (f : WinUnit → WinUnit) : (s.onWin n f).isl = s.isl := rfl
@[simp] theorem State.onWin_dci (s : State) (n : Fin 44) (f : WinUnit → WinUnit) : (s.onWin n f).dci = s.dci := rfl
@[simp] theorem State.onWin_mod (s : State) (n : Fin 44) (f : WinUnit → WinUnit) : (s.onWin n f).mod = s.mod := rfl
@[simp] theorem State.onWin_tiles (s : State) (n : Fin 44) (f : WinUnit → WinUnit) : (s.onWin n f).tiles = s.tiles := rfl
@[simp] theorem State.onWin_sit (s : State) (n : Fin 44) (f : WinUnit → WinUnit) : (s.onWin n f).sit = s.sit := rfl
@[simp] theorem State.onWin_adcs (s : State) (n : Fin 44) (f : WinUnit → WinUnit) : (s.onWin n f).adcs = s.adcs := rfl
@[simp] theorem State.onWin_gx (s : State) (n : Fin 44) (f : WinUnit → WinUnit) : (s.onWin n f).gx = s.gx := rfl
@[simp] theorem State.onWin_met (s : State) (n : Fin 44) (f : WinUnit → WinUnit) : (s.onWin n f).met = s.met := rfl
@[simp] theorem State.onWin_clk (s : State) (n : Fin 44) (f : WinUnit → WinUnit) : (s.onWin n f).clk = s.clk := rfl
@[simp] theorem State.onWin_lanes (s : State) (n : Fin 44) (f : WinUnit → WinUnit) : (s.onWin n f).lanes = s.lanes := rfl
@[simp] theorem State.onWin_wlk (s : State) (n : Fin 44) (f : WinUnit → WinUnit) : (s.onWin n f).wlk = s.wlk := rfl
@[simp] theorem State.onWin_net (s : State) (n : Fin 44) (f : WinUnit → WinUnit) : (s.onWin n f).net = s.net := rfl
@[simp] theorem State.onWin_sag (s : State) (n : Fin 44) (f : WinUnit → WinUnit) : (s.onWin n f).sag = s.sag := rfl
@[simp] theorem State.onWin_pug (s : State) (n : Fin 44) (f : WinUnit → WinUnit) : (s.onWin n f).pug = s.pug := rfl
@[simp] theorem State.onWin_pwr (s : State) (n : Fin 44) (f : WinUnit → WinUnit) : (s.onWin n f).pwr = s.pwr := rfl
@[simp] theorem State.onWin_grg (s : State) (n : Fin 44) (f : WinUnit → WinUnit) : (s.onWin n f).grg = s.grg := rfl
@[simp] theorem State.onWin_con (s : State) (n : Fin 44) (f : WinUnit → WinUnit) : (s.onWin n f).con = s.con := rfl
@[simp] theorem State.onWin_ports (s : State) (n : Fin 44) (f : WinUnit → WinUnit) : (s.onWin n f).ports = s.ports := rfl
@[simp] theorem State.onWin_get (s : State) (n : Fin 44) (f : WinUnit → WinUnit) (g : Fld) : (s.onWin n f).get g = s.get g := rfl

@[simp] theorem State.onWheel_pending (s : State) (w : Fin 64) (f : Wheel → Wheel) : (s.onWheel w f).pending = s.pending := rfl
@[simp] theorem State.onWheel_regs (s : State) (w : Fin 64) (f : Wheel → Wheel) : (s.onWheel w f).regs = s.regs := rfl
@[simp] theorem State.onWheel_slots (s : State) (w : Fin 64) (f : Wheel → Wheel) : (s.onWheel w f).slots = s.slots := rfl
@[simp] theorem State.onWheel_coef (s : State) (w : Fin 64) (f : Wheel → Wheel) : (s.onWheel w f).coef = s.coef := rfl
@[simp] theorem State.onWheel_prog (s : State) (w : Fin 64) (f : Wheel → Wheel) : (s.onWheel w f).prog = s.prog := rfl
@[simp] theorem State.onWheel_sram (s : State) (w : Fin 64) (f : Wheel → Wheel) : (s.onWheel w f).sram = s.sram := rfl
@[simp] theorem State.onWheel_held (s : State) (w : Fin 64) (f : Wheel → Wheel) : (s.onWheel w f).held = s.held := rfl
@[simp] theorem State.onWheel_resp (s : State) (w : Fin 64) (f : Wheel → Wheel) : (s.onWheel w f).resp = s.resp := rfl
@[simp] theorem State.onWheel_free (s : State) (w : Fin 64) (f : Wheel → Wheel) : (s.onWheel w f).free = s.free := rfl
@[simp] theorem State.onWheel_outbox (s : State) (w : Fin 64) (f : Wheel → Wheel) : (s.onWheel w f).outbox = s.outbox := rfl
@[simp] theorem State.onWheel_glz (s : State) (w : Fin 64) (f : Wheel → Wheel) : (s.onWheel w f).glz = s.glz := rfl
@[simp] theorem State.onWheel_fab (s : State) (w : Fin 64) (f : Wheel → Wheel) : (s.onWheel w f).fab = s.fab := rfl
@[simp] theorem State.onWheel_groups (s : State) (w : Fin 64) (f : Wheel → Wheel) : (s.onWheel w f).groups = s.groups := rfl
@[simp] theorem State.onWheel_gsus (s : State) (w : Fin 64) (f : Wheel → Wheel) : (s.onWheel w f).gsus = s.gsus := rfl
@[simp] theorem State.onWheel_rts (s : State) (w : Fin 64) (f : Wheel → Wheel) : (s.onWheel w f).rts = s.rts := rfl
@[simp] theorem State.onWheel_isl (s : State) (w : Fin 64) (f : Wheel → Wheel) : (s.onWheel w f).isl = s.isl := rfl
@[simp] theorem State.onWheel_dci (s : State) (w : Fin 64) (f : Wheel → Wheel) : (s.onWheel w f).dci = s.dci := rfl
@[simp] theorem State.onWheel_mod (s : State) (w : Fin 64) (f : Wheel → Wheel) : (s.onWheel w f).mod = s.mod := rfl
@[simp] theorem State.onWheel_tiles (s : State) (w : Fin 64) (f : Wheel → Wheel) : (s.onWheel w f).tiles = s.tiles := rfl
@[simp] theorem State.onWheel_wins (s : State) (w : Fin 64) (f : Wheel → Wheel) : (s.onWheel w f).wins = s.wins := rfl
@[simp] theorem State.onWheel_sit (s : State) (w : Fin 64) (f : Wheel → Wheel) : (s.onWheel w f).sit = s.sit := rfl
@[simp] theorem State.onWheel_adcs (s : State) (w : Fin 64) (f : Wheel → Wheel) : (s.onWheel w f).adcs = s.adcs := rfl
@[simp] theorem State.onWheel_gx (s : State) (w : Fin 64) (f : Wheel → Wheel) : (s.onWheel w f).gx = s.gx := rfl
@[simp] theorem State.onWheel_met (s : State) (w : Fin 64) (f : Wheel → Wheel) : (s.onWheel w f).met = s.met := rfl
@[simp] theorem State.onWheel_clk (s : State) (w : Fin 64) (f : Wheel → Wheel) : (s.onWheel w f).clk = s.clk := rfl
@[simp] theorem State.onWheel_lanes (s : State) (w : Fin 64) (f : Wheel → Wheel) : (s.onWheel w f).lanes = s.lanes := rfl
@[simp] theorem State.onWheel_wlk (s : State) (w : Fin 64) (f : Wheel → Wheel) : (s.onWheel w f).wlk = s.wlk := rfl
@[simp] theorem State.onWheel_net (s : State) (w : Fin 64) (f : Wheel → Wheel) : (s.onWheel w f).net = s.net := rfl
@[simp] theorem State.onWheel_sag (s : State) (w : Fin 64) (f : Wheel → Wheel) : (s.onWheel w f).sag = s.sag := rfl
@[simp] theorem State.onWheel_pug (s : State) (w : Fin 64) (f : Wheel → Wheel) : (s.onWheel w f).pug = s.pug := rfl
@[simp] theorem State.onWheel_pwr (s : State) (w : Fin 64) (f : Wheel → Wheel) : (s.onWheel w f).pwr = s.pwr := rfl
@[simp] theorem State.onWheel_grg (s : State) (w : Fin 64) (f : Wheel → Wheel) : (s.onWheel w f).grg = s.grg := rfl
@[simp] theorem State.onWheel_con (s : State) (w : Fin 64) (f : Wheel → Wheel) : (s.onWheel w f).con = s.con := rfl
@[simp] theorem State.onWheel_ports (s : State) (w : Fin 64) (f : Wheel → Wheel) : (s.onWheel w f).ports = s.ports := rfl
@[simp] theorem State.onWheel_get (s : State) (w : Fin 64) (f : Wheel → Wheel) (g : Fld) : (s.onWheel w f).get g = s.get g := rfl

@[simp] theorem State.onGroup_pending (s : State) (k : Fin 8) (f : Group → Group) : (s.onGroup k f).pending = s.pending := rfl
@[simp] theorem State.onGroup_regs (s : State) (k : Fin 8) (f : Group → Group) : (s.onGroup k f).regs = s.regs := rfl
@[simp] theorem State.onGroup_slots (s : State) (k : Fin 8) (f : Group → Group) : (s.onGroup k f).slots = s.slots := rfl
@[simp] theorem State.onGroup_coef (s : State) (k : Fin 8) (f : Group → Group) : (s.onGroup k f).coef = s.coef := rfl
@[simp] theorem State.onGroup_prog (s : State) (k : Fin 8) (f : Group → Group) : (s.onGroup k f).prog = s.prog := rfl
@[simp] theorem State.onGroup_sram (s : State) (k : Fin 8) (f : Group → Group) : (s.onGroup k f).sram = s.sram := rfl
@[simp] theorem State.onGroup_held (s : State) (k : Fin 8) (f : Group → Group) : (s.onGroup k f).held = s.held := rfl
@[simp] theorem State.onGroup_resp (s : State) (k : Fin 8) (f : Group → Group) : (s.onGroup k f).resp = s.resp := rfl
@[simp] theorem State.onGroup_free (s : State) (k : Fin 8) (f : Group → Group) : (s.onGroup k f).free = s.free := rfl
@[simp] theorem State.onGroup_outbox (s : State) (k : Fin 8) (f : Group → Group) : (s.onGroup k f).outbox = s.outbox := rfl
@[simp] theorem State.onGroup_glz (s : State) (k : Fin 8) (f : Group → Group) : (s.onGroup k f).glz = s.glz := rfl
@[simp] theorem State.onGroup_fab (s : State) (k : Fin 8) (f : Group → Group) : (s.onGroup k f).fab = s.fab := rfl
@[simp] theorem State.onGroup_wheels (s : State) (k : Fin 8) (f : Group → Group) : (s.onGroup k f).wheels = s.wheels := rfl
@[simp] theorem State.onGroup_gsus (s : State) (k : Fin 8) (f : Group → Group) : (s.onGroup k f).gsus = s.gsus := rfl
@[simp] theorem State.onGroup_rts (s : State) (k : Fin 8) (f : Group → Group) : (s.onGroup k f).rts = s.rts := rfl
@[simp] theorem State.onGroup_isl (s : State) (k : Fin 8) (f : Group → Group) : (s.onGroup k f).isl = s.isl := rfl
@[simp] theorem State.onGroup_dci (s : State) (k : Fin 8) (f : Group → Group) : (s.onGroup k f).dci = s.dci := rfl
@[simp] theorem State.onGroup_mod (s : State) (k : Fin 8) (f : Group → Group) : (s.onGroup k f).mod = s.mod := rfl
@[simp] theorem State.onGroup_tiles (s : State) (k : Fin 8) (f : Group → Group) : (s.onGroup k f).tiles = s.tiles := rfl
@[simp] theorem State.onGroup_wins (s : State) (k : Fin 8) (f : Group → Group) : (s.onGroup k f).wins = s.wins := rfl
@[simp] theorem State.onGroup_sit (s : State) (k : Fin 8) (f : Group → Group) : (s.onGroup k f).sit = s.sit := rfl
@[simp] theorem State.onGroup_adcs (s : State) (k : Fin 8) (f : Group → Group) : (s.onGroup k f).adcs = s.adcs := rfl
@[simp] theorem State.onGroup_gx (s : State) (k : Fin 8) (f : Group → Group) : (s.onGroup k f).gx = s.gx := rfl
@[simp] theorem State.onGroup_met (s : State) (k : Fin 8) (f : Group → Group) : (s.onGroup k f).met = s.met := rfl
@[simp] theorem State.onGroup_clk (s : State) (k : Fin 8) (f : Group → Group) : (s.onGroup k f).clk = s.clk := rfl
@[simp] theorem State.onGroup_lanes (s : State) (k : Fin 8) (f : Group → Group) : (s.onGroup k f).lanes = s.lanes := rfl
@[simp] theorem State.onGroup_wlk (s : State) (k : Fin 8) (f : Group → Group) : (s.onGroup k f).wlk = s.wlk := rfl
@[simp] theorem State.onGroup_net (s : State) (k : Fin 8) (f : Group → Group) : (s.onGroup k f).net = s.net := rfl
@[simp] theorem State.onGroup_sag (s : State) (k : Fin 8) (f : Group → Group) : (s.onGroup k f).sag = s.sag := rfl
@[simp] theorem State.onGroup_pug (s : State) (k : Fin 8) (f : Group → Group) : (s.onGroup k f).pug = s.pug := rfl
@[simp] theorem State.onGroup_pwr (s : State) (k : Fin 8) (f : Group → Group) : (s.onGroup k f).pwr = s.pwr := rfl
@[simp] theorem State.onGroup_grg (s : State) (k : Fin 8) (f : Group → Group) : (s.onGroup k f).grg = s.grg := rfl
@[simp] theorem State.onGroup_con (s : State) (k : Fin 8) (f : Group → Group) : (s.onGroup k f).con = s.con := rfl
@[simp] theorem State.onGroup_ports (s : State) (k : Fin 8) (f : Group → Group) : (s.onGroup k f).ports = s.ports := rfl
@[simp] theorem State.onGroup_get (s : State) (k : Fin 8) (f : Group → Group) (g : Fld) : (s.onGroup k f).get g = s.get g := rfl

@[simp] theorem State.onGsu_pending (s : State) (i : Fin 4) (f : Gsu → Gsu) : (s.onGsu i f).pending = s.pending := rfl
@[simp] theorem State.onGsu_regs (s : State) (i : Fin 4) (f : Gsu → Gsu) : (s.onGsu i f).regs = s.regs := rfl
@[simp] theorem State.onGsu_slots (s : State) (i : Fin 4) (f : Gsu → Gsu) : (s.onGsu i f).slots = s.slots := rfl
@[simp] theorem State.onGsu_coef (s : State) (i : Fin 4) (f : Gsu → Gsu) : (s.onGsu i f).coef = s.coef := rfl
@[simp] theorem State.onGsu_prog (s : State) (i : Fin 4) (f : Gsu → Gsu) : (s.onGsu i f).prog = s.prog := rfl
@[simp] theorem State.onGsu_sram (s : State) (i : Fin 4) (f : Gsu → Gsu) : (s.onGsu i f).sram = s.sram := rfl
@[simp] theorem State.onGsu_held (s : State) (i : Fin 4) (f : Gsu → Gsu) : (s.onGsu i f).held = s.held := rfl
@[simp] theorem State.onGsu_resp (s : State) (i : Fin 4) (f : Gsu → Gsu) : (s.onGsu i f).resp = s.resp := rfl
@[simp] theorem State.onGsu_free (s : State) (i : Fin 4) (f : Gsu → Gsu) : (s.onGsu i f).free = s.free := rfl
@[simp] theorem State.onGsu_outbox (s : State) (i : Fin 4) (f : Gsu → Gsu) : (s.onGsu i f).outbox = s.outbox := rfl
@[simp] theorem State.onGsu_glz (s : State) (i : Fin 4) (f : Gsu → Gsu) : (s.onGsu i f).glz = s.glz := rfl
@[simp] theorem State.onGsu_fab (s : State) (i : Fin 4) (f : Gsu → Gsu) : (s.onGsu i f).fab = s.fab := rfl
@[simp] theorem State.onGsu_wheels (s : State) (i : Fin 4) (f : Gsu → Gsu) : (s.onGsu i f).wheels = s.wheels := rfl
@[simp] theorem State.onGsu_groups (s : State) (i : Fin 4) (f : Gsu → Gsu) : (s.onGsu i f).groups = s.groups := rfl
@[simp] theorem State.onGsu_rts (s : State) (i : Fin 4) (f : Gsu → Gsu) : (s.onGsu i f).rts = s.rts := rfl
@[simp] theorem State.onGsu_isl (s : State) (i : Fin 4) (f : Gsu → Gsu) : (s.onGsu i f).isl = s.isl := rfl
@[simp] theorem State.onGsu_dci (s : State) (i : Fin 4) (f : Gsu → Gsu) : (s.onGsu i f).dci = s.dci := rfl
@[simp] theorem State.onGsu_mod (s : State) (i : Fin 4) (f : Gsu → Gsu) : (s.onGsu i f).mod = s.mod := rfl
@[simp] theorem State.onGsu_tiles (s : State) (i : Fin 4) (f : Gsu → Gsu) : (s.onGsu i f).tiles = s.tiles := rfl
@[simp] theorem State.onGsu_wins (s : State) (i : Fin 4) (f : Gsu → Gsu) : (s.onGsu i f).wins = s.wins := rfl
@[simp] theorem State.onGsu_sit (s : State) (i : Fin 4) (f : Gsu → Gsu) : (s.onGsu i f).sit = s.sit := rfl
@[simp] theorem State.onGsu_adcs (s : State) (i : Fin 4) (f : Gsu → Gsu) : (s.onGsu i f).adcs = s.adcs := rfl
@[simp] theorem State.onGsu_gx (s : State) (i : Fin 4) (f : Gsu → Gsu) : (s.onGsu i f).gx = s.gx := rfl
@[simp] theorem State.onGsu_met (s : State) (i : Fin 4) (f : Gsu → Gsu) : (s.onGsu i f).met = s.met := rfl
@[simp] theorem State.onGsu_clk (s : State) (i : Fin 4) (f : Gsu → Gsu) : (s.onGsu i f).clk = s.clk := rfl
@[simp] theorem State.onGsu_lanes (s : State) (i : Fin 4) (f : Gsu → Gsu) : (s.onGsu i f).lanes = s.lanes := rfl
@[simp] theorem State.onGsu_wlk (s : State) (i : Fin 4) (f : Gsu → Gsu) : (s.onGsu i f).wlk = s.wlk := rfl
@[simp] theorem State.onGsu_net (s : State) (i : Fin 4) (f : Gsu → Gsu) : (s.onGsu i f).net = s.net := rfl
@[simp] theorem State.onGsu_sag (s : State) (i : Fin 4) (f : Gsu → Gsu) : (s.onGsu i f).sag = s.sag := rfl
@[simp] theorem State.onGsu_pug (s : State) (i : Fin 4) (f : Gsu → Gsu) : (s.onGsu i f).pug = s.pug := rfl
@[simp] theorem State.onGsu_pwr (s : State) (i : Fin 4) (f : Gsu → Gsu) : (s.onGsu i f).pwr = s.pwr := rfl
@[simp] theorem State.onGsu_grg (s : State) (i : Fin 4) (f : Gsu → Gsu) : (s.onGsu i f).grg = s.grg := rfl
@[simp] theorem State.onGsu_con (s : State) (i : Fin 4) (f : Gsu → Gsu) : (s.onGsu i f).con = s.con := rfl
@[simp] theorem State.onGsu_ports (s : State) (i : Fin 4) (f : Gsu → Gsu) : (s.onGsu i f).ports = s.ports := rfl
@[simp] theorem State.onGsu_get (s : State) (i : Fin 4) (f : Gsu → Gsu) (g : Fld) : (s.onGsu i f).get g = s.get g := rfl

@[simp] theorem State.onAdc_pending (s : State) (n : Fin 18) (f : AdcCore → AdcCore) : (s.onAdc n f).pending = s.pending := rfl
@[simp] theorem State.onAdc_regs (s : State) (n : Fin 18) (f : AdcCore → AdcCore) : (s.onAdc n f).regs = s.regs := rfl
@[simp] theorem State.onAdc_slots (s : State) (n : Fin 18) (f : AdcCore → AdcCore) : (s.onAdc n f).slots = s.slots := rfl
@[simp] theorem State.onAdc_coef (s : State) (n : Fin 18) (f : AdcCore → AdcCore) : (s.onAdc n f).coef = s.coef := rfl
@[simp] theorem State.onAdc_prog (s : State) (n : Fin 18) (f : AdcCore → AdcCore) : (s.onAdc n f).prog = s.prog := rfl
@[simp] theorem State.onAdc_sram (s : State) (n : Fin 18) (f : AdcCore → AdcCore) : (s.onAdc n f).sram = s.sram := rfl
@[simp] theorem State.onAdc_held (s : State) (n : Fin 18) (f : AdcCore → AdcCore) : (s.onAdc n f).held = s.held := rfl
@[simp] theorem State.onAdc_resp (s : State) (n : Fin 18) (f : AdcCore → AdcCore) : (s.onAdc n f).resp = s.resp := rfl
@[simp] theorem State.onAdc_free (s : State) (n : Fin 18) (f : AdcCore → AdcCore) : (s.onAdc n f).free = s.free := rfl
@[simp] theorem State.onAdc_outbox (s : State) (n : Fin 18) (f : AdcCore → AdcCore) : (s.onAdc n f).outbox = s.outbox := rfl
@[simp] theorem State.onAdc_glz (s : State) (n : Fin 18) (f : AdcCore → AdcCore) : (s.onAdc n f).glz = s.glz := rfl
@[simp] theorem State.onAdc_fab (s : State) (n : Fin 18) (f : AdcCore → AdcCore) : (s.onAdc n f).fab = s.fab := rfl
@[simp] theorem State.onAdc_wheels (s : State) (n : Fin 18) (f : AdcCore → AdcCore) : (s.onAdc n f).wheels = s.wheels := rfl
@[simp] theorem State.onAdc_groups (s : State) (n : Fin 18) (f : AdcCore → AdcCore) : (s.onAdc n f).groups = s.groups := rfl
@[simp] theorem State.onAdc_gsus (s : State) (n : Fin 18) (f : AdcCore → AdcCore) : (s.onAdc n f).gsus = s.gsus := rfl
@[simp] theorem State.onAdc_rts (s : State) (n : Fin 18) (f : AdcCore → AdcCore) : (s.onAdc n f).rts = s.rts := rfl
@[simp] theorem State.onAdc_isl (s : State) (n : Fin 18) (f : AdcCore → AdcCore) : (s.onAdc n f).isl = s.isl := rfl
@[simp] theorem State.onAdc_dci (s : State) (n : Fin 18) (f : AdcCore → AdcCore) : (s.onAdc n f).dci = s.dci := rfl
@[simp] theorem State.onAdc_mod (s : State) (n : Fin 18) (f : AdcCore → AdcCore) : (s.onAdc n f).mod = s.mod := rfl
@[simp] theorem State.onAdc_tiles (s : State) (n : Fin 18) (f : AdcCore → AdcCore) : (s.onAdc n f).tiles = s.tiles := rfl
@[simp] theorem State.onAdc_wins (s : State) (n : Fin 18) (f : AdcCore → AdcCore) : (s.onAdc n f).wins = s.wins := rfl
@[simp] theorem State.onAdc_sit (s : State) (n : Fin 18) (f : AdcCore → AdcCore) : (s.onAdc n f).sit = s.sit := rfl
@[simp] theorem State.onAdc_gx (s : State) (n : Fin 18) (f : AdcCore → AdcCore) : (s.onAdc n f).gx = s.gx := rfl
@[simp] theorem State.onAdc_met (s : State) (n : Fin 18) (f : AdcCore → AdcCore) : (s.onAdc n f).met = s.met := rfl
@[simp] theorem State.onAdc_clk (s : State) (n : Fin 18) (f : AdcCore → AdcCore) : (s.onAdc n f).clk = s.clk := rfl
@[simp] theorem State.onAdc_lanes (s : State) (n : Fin 18) (f : AdcCore → AdcCore) : (s.onAdc n f).lanes = s.lanes := rfl
@[simp] theorem State.onAdc_wlk (s : State) (n : Fin 18) (f : AdcCore → AdcCore) : (s.onAdc n f).wlk = s.wlk := rfl
@[simp] theorem State.onAdc_net (s : State) (n : Fin 18) (f : AdcCore → AdcCore) : (s.onAdc n f).net = s.net := rfl
@[simp] theorem State.onAdc_sag (s : State) (n : Fin 18) (f : AdcCore → AdcCore) : (s.onAdc n f).sag = s.sag := rfl
@[simp] theorem State.onAdc_pug (s : State) (n : Fin 18) (f : AdcCore → AdcCore) : (s.onAdc n f).pug = s.pug := rfl
@[simp] theorem State.onAdc_pwr (s : State) (n : Fin 18) (f : AdcCore → AdcCore) : (s.onAdc n f).pwr = s.pwr := rfl
@[simp] theorem State.onAdc_grg (s : State) (n : Fin 18) (f : AdcCore → AdcCore) : (s.onAdc n f).grg = s.grg := rfl
@[simp] theorem State.onAdc_con (s : State) (n : Fin 18) (f : AdcCore → AdcCore) : (s.onAdc n f).con = s.con := rfl
@[simp] theorem State.onAdc_ports (s : State) (n : Fin 18) (f : AdcCore → AdcCore) : (s.onAdc n f).ports = s.ports := rfl
@[simp] theorem State.onAdc_get (s : State) (n : Fin 18) (f : AdcCore → AdcCore) (g : Fld) : (s.onAdc n f).get g = s.get g := rfl

@[simp] theorem State.onPll_pending (s : State) (n : Fin 7) (f : Pll → Pll) : (s.onPll n f).pending = s.pending := rfl
@[simp] theorem State.onPll_regs (s : State) (n : Fin 7) (f : Pll → Pll) : (s.onPll n f).regs = s.regs := rfl
@[simp] theorem State.onPll_slots (s : State) (n : Fin 7) (f : Pll → Pll) : (s.onPll n f).slots = s.slots := rfl
@[simp] theorem State.onPll_coef (s : State) (n : Fin 7) (f : Pll → Pll) : (s.onPll n f).coef = s.coef := rfl
@[simp] theorem State.onPll_prog (s : State) (n : Fin 7) (f : Pll → Pll) : (s.onPll n f).prog = s.prog := rfl
@[simp] theorem State.onPll_sram (s : State) (n : Fin 7) (f : Pll → Pll) : (s.onPll n f).sram = s.sram := rfl
@[simp] theorem State.onPll_held (s : State) (n : Fin 7) (f : Pll → Pll) : (s.onPll n f).held = s.held := rfl
@[simp] theorem State.onPll_resp (s : State) (n : Fin 7) (f : Pll → Pll) : (s.onPll n f).resp = s.resp := rfl
@[simp] theorem State.onPll_free (s : State) (n : Fin 7) (f : Pll → Pll) : (s.onPll n f).free = s.free := rfl
@[simp] theorem State.onPll_outbox (s : State) (n : Fin 7) (f : Pll → Pll) : (s.onPll n f).outbox = s.outbox := rfl
@[simp] theorem State.onPll_glz (s : State) (n : Fin 7) (f : Pll → Pll) : (s.onPll n f).glz = s.glz := rfl
@[simp] theorem State.onPll_fab (s : State) (n : Fin 7) (f : Pll → Pll) : (s.onPll n f).fab = s.fab := rfl
@[simp] theorem State.onPll_wheels (s : State) (n : Fin 7) (f : Pll → Pll) : (s.onPll n f).wheels = s.wheels := rfl
@[simp] theorem State.onPll_groups (s : State) (n : Fin 7) (f : Pll → Pll) : (s.onPll n f).groups = s.groups := rfl
@[simp] theorem State.onPll_gsus (s : State) (n : Fin 7) (f : Pll → Pll) : (s.onPll n f).gsus = s.gsus := rfl
@[simp] theorem State.onPll_rts (s : State) (n : Fin 7) (f : Pll → Pll) : (s.onPll n f).rts = s.rts := rfl
@[simp] theorem State.onPll_isl (s : State) (n : Fin 7) (f : Pll → Pll) : (s.onPll n f).isl = s.isl := rfl
@[simp] theorem State.onPll_dci (s : State) (n : Fin 7) (f : Pll → Pll) : (s.onPll n f).dci = s.dci := rfl
@[simp] theorem State.onPll_mod (s : State) (n : Fin 7) (f : Pll → Pll) : (s.onPll n f).mod = s.mod := rfl
@[simp] theorem State.onPll_tiles (s : State) (n : Fin 7) (f : Pll → Pll) : (s.onPll n f).tiles = s.tiles := rfl
@[simp] theorem State.onPll_wins (s : State) (n : Fin 7) (f : Pll → Pll) : (s.onPll n f).wins = s.wins := rfl
@[simp] theorem State.onPll_sit (s : State) (n : Fin 7) (f : Pll → Pll) : (s.onPll n f).sit = s.sit := rfl
@[simp] theorem State.onPll_adcs (s : State) (n : Fin 7) (f : Pll → Pll) : (s.onPll n f).adcs = s.adcs := rfl
@[simp] theorem State.onPll_gx (s : State) (n : Fin 7) (f : Pll → Pll) : (s.onPll n f).gx = s.gx := rfl
@[simp] theorem State.onPll_met (s : State) (n : Fin 7) (f : Pll → Pll) : (s.onPll n f).met = s.met := rfl
@[simp] theorem State.onPll_lanes (s : State) (n : Fin 7) (f : Pll → Pll) : (s.onPll n f).lanes = s.lanes := rfl
@[simp] theorem State.onPll_wlk (s : State) (n : Fin 7) (f : Pll → Pll) : (s.onPll n f).wlk = s.wlk := rfl
@[simp] theorem State.onPll_net (s : State) (n : Fin 7) (f : Pll → Pll) : (s.onPll n f).net = s.net := rfl
@[simp] theorem State.onPll_sag (s : State) (n : Fin 7) (f : Pll → Pll) : (s.onPll n f).sag = s.sag := rfl
@[simp] theorem State.onPll_pug (s : State) (n : Fin 7) (f : Pll → Pll) : (s.onPll n f).pug = s.pug := rfl
@[simp] theorem State.onPll_pwr (s : State) (n : Fin 7) (f : Pll → Pll) : (s.onPll n f).pwr = s.pwr := rfl
@[simp] theorem State.onPll_grg (s : State) (n : Fin 7) (f : Pll → Pll) : (s.onPll n f).grg = s.grg := rfl
@[simp] theorem State.onPll_con (s : State) (n : Fin 7) (f : Pll → Pll) : (s.onPll n f).con = s.con := rfl
@[simp] theorem State.onPll_ports (s : State) (n : Fin 7) (f : Pll → Pll) : (s.onPll n f).ports = s.ports := rfl
@[simp] theorem State.onPll_get (s : State) (n : Fin 7) (f : Pll → Pll) (g : Fld) : (s.onPll n f).get g = s.get g := rfl

@[simp] theorem State.onIsl_pending (s : State) (f : IslUnit → IslUnit) : (s.onIsl f).pending = s.pending := rfl
@[simp] theorem State.onIsl_regs (s : State) (f : IslUnit → IslUnit) : (s.onIsl f).regs = s.regs := rfl
@[simp] theorem State.onIsl_slots (s : State) (f : IslUnit → IslUnit) : (s.onIsl f).slots = s.slots := rfl
@[simp] theorem State.onIsl_coef (s : State) (f : IslUnit → IslUnit) : (s.onIsl f).coef = s.coef := rfl
@[simp] theorem State.onIsl_prog (s : State) (f : IslUnit → IslUnit) : (s.onIsl f).prog = s.prog := rfl
@[simp] theorem State.onIsl_sram (s : State) (f : IslUnit → IslUnit) : (s.onIsl f).sram = s.sram := rfl
@[simp] theorem State.onIsl_held (s : State) (f : IslUnit → IslUnit) : (s.onIsl f).held = s.held := rfl
@[simp] theorem State.onIsl_resp (s : State) (f : IslUnit → IslUnit) : (s.onIsl f).resp = s.resp := rfl
@[simp] theorem State.onIsl_free (s : State) (f : IslUnit → IslUnit) : (s.onIsl f).free = s.free := rfl
@[simp] theorem State.onIsl_outbox (s : State) (f : IslUnit → IslUnit) : (s.onIsl f).outbox = s.outbox := rfl
@[simp] theorem State.onIsl_glz (s : State) (f : IslUnit → IslUnit) : (s.onIsl f).glz = s.glz := rfl
@[simp] theorem State.onIsl_fab (s : State) (f : IslUnit → IslUnit) : (s.onIsl f).fab = s.fab := rfl
@[simp] theorem State.onIsl_wheels (s : State) (f : IslUnit → IslUnit) : (s.onIsl f).wheels = s.wheels := rfl
@[simp] theorem State.onIsl_groups (s : State) (f : IslUnit → IslUnit) : (s.onIsl f).groups = s.groups := rfl
@[simp] theorem State.onIsl_gsus (s : State) (f : IslUnit → IslUnit) : (s.onIsl f).gsus = s.gsus := rfl
@[simp] theorem State.onIsl_rts (s : State) (f : IslUnit → IslUnit) : (s.onIsl f).rts = s.rts := rfl
@[simp] theorem State.onIsl_dci (s : State) (f : IslUnit → IslUnit) : (s.onIsl f).dci = s.dci := rfl
@[simp] theorem State.onIsl_mod (s : State) (f : IslUnit → IslUnit) : (s.onIsl f).mod = s.mod := rfl
@[simp] theorem State.onIsl_tiles (s : State) (f : IslUnit → IslUnit) : (s.onIsl f).tiles = s.tiles := rfl
@[simp] theorem State.onIsl_wins (s : State) (f : IslUnit → IslUnit) : (s.onIsl f).wins = s.wins := rfl
@[simp] theorem State.onIsl_sit (s : State) (f : IslUnit → IslUnit) : (s.onIsl f).sit = s.sit := rfl
@[simp] theorem State.onIsl_adcs (s : State) (f : IslUnit → IslUnit) : (s.onIsl f).adcs = s.adcs := rfl
@[simp] theorem State.onIsl_gx (s : State) (f : IslUnit → IslUnit) : (s.onIsl f).gx = s.gx := rfl
@[simp] theorem State.onIsl_met (s : State) (f : IslUnit → IslUnit) : (s.onIsl f).met = s.met := rfl
@[simp] theorem State.onIsl_clk (s : State) (f : IslUnit → IslUnit) : (s.onIsl f).clk = s.clk := rfl
@[simp] theorem State.onIsl_lanes (s : State) (f : IslUnit → IslUnit) : (s.onIsl f).lanes = s.lanes := rfl
@[simp] theorem State.onIsl_wlk (s : State) (f : IslUnit → IslUnit) : (s.onIsl f).wlk = s.wlk := rfl
@[simp] theorem State.onIsl_net (s : State) (f : IslUnit → IslUnit) : (s.onIsl f).net = s.net := rfl
@[simp] theorem State.onIsl_sag (s : State) (f : IslUnit → IslUnit) : (s.onIsl f).sag = s.sag := rfl
@[simp] theorem State.onIsl_pug (s : State) (f : IslUnit → IslUnit) : (s.onIsl f).pug = s.pug := rfl
@[simp] theorem State.onIsl_pwr (s : State) (f : IslUnit → IslUnit) : (s.onIsl f).pwr = s.pwr := rfl
@[simp] theorem State.onIsl_grg (s : State) (f : IslUnit → IslUnit) : (s.onIsl f).grg = s.grg := rfl
@[simp] theorem State.onIsl_con (s : State) (f : IslUnit → IslUnit) : (s.onIsl f).con = s.con := rfl
@[simp] theorem State.onIsl_ports (s : State) (f : IslUnit → IslUnit) : (s.onIsl f).ports = s.ports := rfl
@[simp] theorem State.onIsl_get (s : State) (f : IslUnit → IslUnit) (g : Fld) : (s.onIsl f).get g = s.get g := rfl

@[simp] theorem State.onLeg_pending (s : State) (l : Fin 6) (f : DciLeg → DciLeg) : (s.onLeg l f).pending = s.pending := rfl
@[simp] theorem State.onLeg_regs (s : State) (l : Fin 6) (f : DciLeg → DciLeg) : (s.onLeg l f).regs = s.regs := rfl
@[simp] theorem State.onLeg_slots (s : State) (l : Fin 6) (f : DciLeg → DciLeg) : (s.onLeg l f).slots = s.slots := rfl
@[simp] theorem State.onLeg_coef (s : State) (l : Fin 6) (f : DciLeg → DciLeg) : (s.onLeg l f).coef = s.coef := rfl
@[simp] theorem State.onLeg_prog (s : State) (l : Fin 6) (f : DciLeg → DciLeg) : (s.onLeg l f).prog = s.prog := rfl
@[simp] theorem State.onLeg_sram (s : State) (l : Fin 6) (f : DciLeg → DciLeg) : (s.onLeg l f).sram = s.sram := rfl
@[simp] theorem State.onLeg_held (s : State) (l : Fin 6) (f : DciLeg → DciLeg) : (s.onLeg l f).held = s.held := rfl
@[simp] theorem State.onLeg_resp (s : State) (l : Fin 6) (f : DciLeg → DciLeg) : (s.onLeg l f).resp = s.resp := rfl
@[simp] theorem State.onLeg_free (s : State) (l : Fin 6) (f : DciLeg → DciLeg) : (s.onLeg l f).free = s.free := rfl
@[simp] theorem State.onLeg_outbox (s : State) (l : Fin 6) (f : DciLeg → DciLeg) : (s.onLeg l f).outbox = s.outbox := rfl
@[simp] theorem State.onLeg_glz (s : State) (l : Fin 6) (f : DciLeg → DciLeg) : (s.onLeg l f).glz = s.glz := rfl
@[simp] theorem State.onLeg_fab (s : State) (l : Fin 6) (f : DciLeg → DciLeg) : (s.onLeg l f).fab = s.fab := rfl
@[simp] theorem State.onLeg_wheels (s : State) (l : Fin 6) (f : DciLeg → DciLeg) : (s.onLeg l f).wheels = s.wheels := rfl
@[simp] theorem State.onLeg_groups (s : State) (l : Fin 6) (f : DciLeg → DciLeg) : (s.onLeg l f).groups = s.groups := rfl
@[simp] theorem State.onLeg_gsus (s : State) (l : Fin 6) (f : DciLeg → DciLeg) : (s.onLeg l f).gsus = s.gsus := rfl
@[simp] theorem State.onLeg_rts (s : State) (l : Fin 6) (f : DciLeg → DciLeg) : (s.onLeg l f).rts = s.rts := rfl
@[simp] theorem State.onLeg_isl (s : State) (l : Fin 6) (f : DciLeg → DciLeg) : (s.onLeg l f).isl = s.isl := rfl
@[simp] theorem State.onLeg_mod (s : State) (l : Fin 6) (f : DciLeg → DciLeg) : (s.onLeg l f).mod = s.mod := rfl
@[simp] theorem State.onLeg_tiles (s : State) (l : Fin 6) (f : DciLeg → DciLeg) : (s.onLeg l f).tiles = s.tiles := rfl
@[simp] theorem State.onLeg_wins (s : State) (l : Fin 6) (f : DciLeg → DciLeg) : (s.onLeg l f).wins = s.wins := rfl
@[simp] theorem State.onLeg_sit (s : State) (l : Fin 6) (f : DciLeg → DciLeg) : (s.onLeg l f).sit = s.sit := rfl
@[simp] theorem State.onLeg_adcs (s : State) (l : Fin 6) (f : DciLeg → DciLeg) : (s.onLeg l f).adcs = s.adcs := rfl
@[simp] theorem State.onLeg_gx (s : State) (l : Fin 6) (f : DciLeg → DciLeg) : (s.onLeg l f).gx = s.gx := rfl
@[simp] theorem State.onLeg_met (s : State) (l : Fin 6) (f : DciLeg → DciLeg) : (s.onLeg l f).met = s.met := rfl
@[simp] theorem State.onLeg_clk (s : State) (l : Fin 6) (f : DciLeg → DciLeg) : (s.onLeg l f).clk = s.clk := rfl
@[simp] theorem State.onLeg_lanes (s : State) (l : Fin 6) (f : DciLeg → DciLeg) : (s.onLeg l f).lanes = s.lanes := rfl
@[simp] theorem State.onLeg_wlk (s : State) (l : Fin 6) (f : DciLeg → DciLeg) : (s.onLeg l f).wlk = s.wlk := rfl
@[simp] theorem State.onLeg_net (s : State) (l : Fin 6) (f : DciLeg → DciLeg) : (s.onLeg l f).net = s.net := rfl
@[simp] theorem State.onLeg_sag (s : State) (l : Fin 6) (f : DciLeg → DciLeg) : (s.onLeg l f).sag = s.sag := rfl
@[simp] theorem State.onLeg_pug (s : State) (l : Fin 6) (f : DciLeg → DciLeg) : (s.onLeg l f).pug = s.pug := rfl
@[simp] theorem State.onLeg_pwr (s : State) (l : Fin 6) (f : DciLeg → DciLeg) : (s.onLeg l f).pwr = s.pwr := rfl
@[simp] theorem State.onLeg_grg (s : State) (l : Fin 6) (f : DciLeg → DciLeg) : (s.onLeg l f).grg = s.grg := rfl
@[simp] theorem State.onLeg_con (s : State) (l : Fin 6) (f : DciLeg → DciLeg) : (s.onLeg l f).con = s.con := rfl
@[simp] theorem State.onLeg_ports (s : State) (l : Fin 6) (f : DciLeg → DciLeg) : (s.onLeg l f).ports = s.ports := rfl
@[simp] theorem State.onLeg_get (s : State) (l : Fin 6) (f : DciLeg → DciLeg) (g : Fld) : (s.onLeg l f).get g = s.get g := rfl

@[simp] theorem State.onLane_pending (s : State) (l : Fin 6) (f : LaneUnit → LaneUnit) : (s.onLane l f).pending = s.pending := rfl
@[simp] theorem State.onLane_regs (s : State) (l : Fin 6) (f : LaneUnit → LaneUnit) : (s.onLane l f).regs = s.regs := rfl
@[simp] theorem State.onLane_slots (s : State) (l : Fin 6) (f : LaneUnit → LaneUnit) : (s.onLane l f).slots = s.slots := rfl
@[simp] theorem State.onLane_coef (s : State) (l : Fin 6) (f : LaneUnit → LaneUnit) : (s.onLane l f).coef = s.coef := rfl
@[simp] theorem State.onLane_prog (s : State) (l : Fin 6) (f : LaneUnit → LaneUnit) : (s.onLane l f).prog = s.prog := rfl
@[simp] theorem State.onLane_sram (s : State) (l : Fin 6) (f : LaneUnit → LaneUnit) : (s.onLane l f).sram = s.sram := rfl
@[simp] theorem State.onLane_held (s : State) (l : Fin 6) (f : LaneUnit → LaneUnit) : (s.onLane l f).held = s.held := rfl
@[simp] theorem State.onLane_resp (s : State) (l : Fin 6) (f : LaneUnit → LaneUnit) : (s.onLane l f).resp = s.resp := rfl
@[simp] theorem State.onLane_free (s : State) (l : Fin 6) (f : LaneUnit → LaneUnit) : (s.onLane l f).free = s.free := rfl
@[simp] theorem State.onLane_outbox (s : State) (l : Fin 6) (f : LaneUnit → LaneUnit) : (s.onLane l f).outbox = s.outbox := rfl
@[simp] theorem State.onLane_glz (s : State) (l : Fin 6) (f : LaneUnit → LaneUnit) : (s.onLane l f).glz = s.glz := rfl
@[simp] theorem State.onLane_fab (s : State) (l : Fin 6) (f : LaneUnit → LaneUnit) : (s.onLane l f).fab = s.fab := rfl
@[simp] theorem State.onLane_wheels (s : State) (l : Fin 6) (f : LaneUnit → LaneUnit) : (s.onLane l f).wheels = s.wheels := rfl
@[simp] theorem State.onLane_groups (s : State) (l : Fin 6) (f : LaneUnit → LaneUnit) : (s.onLane l f).groups = s.groups := rfl
@[simp] theorem State.onLane_gsus (s : State) (l : Fin 6) (f : LaneUnit → LaneUnit) : (s.onLane l f).gsus = s.gsus := rfl
@[simp] theorem State.onLane_rts (s : State) (l : Fin 6) (f : LaneUnit → LaneUnit) : (s.onLane l f).rts = s.rts := rfl
@[simp] theorem State.onLane_isl (s : State) (l : Fin 6) (f : LaneUnit → LaneUnit) : (s.onLane l f).isl = s.isl := rfl
@[simp] theorem State.onLane_dci (s : State) (l : Fin 6) (f : LaneUnit → LaneUnit) : (s.onLane l f).dci = s.dci := rfl
@[simp] theorem State.onLane_mod (s : State) (l : Fin 6) (f : LaneUnit → LaneUnit) : (s.onLane l f).mod = s.mod := rfl
@[simp] theorem State.onLane_tiles (s : State) (l : Fin 6) (f : LaneUnit → LaneUnit) : (s.onLane l f).tiles = s.tiles := rfl
@[simp] theorem State.onLane_wins (s : State) (l : Fin 6) (f : LaneUnit → LaneUnit) : (s.onLane l f).wins = s.wins := rfl
@[simp] theorem State.onLane_sit (s : State) (l : Fin 6) (f : LaneUnit → LaneUnit) : (s.onLane l f).sit = s.sit := rfl
@[simp] theorem State.onLane_adcs (s : State) (l : Fin 6) (f : LaneUnit → LaneUnit) : (s.onLane l f).adcs = s.adcs := rfl
@[simp] theorem State.onLane_gx (s : State) (l : Fin 6) (f : LaneUnit → LaneUnit) : (s.onLane l f).gx = s.gx := rfl
@[simp] theorem State.onLane_met (s : State) (l : Fin 6) (f : LaneUnit → LaneUnit) : (s.onLane l f).met = s.met := rfl
@[simp] theorem State.onLane_clk (s : State) (l : Fin 6) (f : LaneUnit → LaneUnit) : (s.onLane l f).clk = s.clk := rfl
@[simp] theorem State.onLane_wlk (s : State) (l : Fin 6) (f : LaneUnit → LaneUnit) : (s.onLane l f).wlk = s.wlk := rfl
@[simp] theorem State.onLane_net (s : State) (l : Fin 6) (f : LaneUnit → LaneUnit) : (s.onLane l f).net = s.net := rfl
@[simp] theorem State.onLane_sag (s : State) (l : Fin 6) (f : LaneUnit → LaneUnit) : (s.onLane l f).sag = s.sag := rfl
@[simp] theorem State.onLane_pug (s : State) (l : Fin 6) (f : LaneUnit → LaneUnit) : (s.onLane l f).pug = s.pug := rfl
@[simp] theorem State.onLane_pwr (s : State) (l : Fin 6) (f : LaneUnit → LaneUnit) : (s.onLane l f).pwr = s.pwr := rfl
@[simp] theorem State.onLane_grg (s : State) (l : Fin 6) (f : LaneUnit → LaneUnit) : (s.onLane l f).grg = s.grg := rfl
@[simp] theorem State.onLane_con (s : State) (l : Fin 6) (f : LaneUnit → LaneUnit) : (s.onLane l f).con = s.con := rfl
@[simp] theorem State.onLane_ports (s : State) (l : Fin 6) (f : LaneUnit → LaneUnit) : (s.onLane l f).ports = s.ports := rfl
@[simp] theorem State.onLane_get (s : State) (l : Fin 6) (f : LaneUnit → LaneUnit) (g : Fld) : (s.onLane l f).get g = s.get g := rfl

@[simp] theorem State.onMac_pending (s : State) (m : Fin 2) (f : Mac → Mac) : (s.onMac m f).pending = s.pending := rfl
@[simp] theorem State.onMac_regs (s : State) (m : Fin 2) (f : Mac → Mac) : (s.onMac m f).regs = s.regs := rfl
@[simp] theorem State.onMac_slots (s : State) (m : Fin 2) (f : Mac → Mac) : (s.onMac m f).slots = s.slots := rfl
@[simp] theorem State.onMac_coef (s : State) (m : Fin 2) (f : Mac → Mac) : (s.onMac m f).coef = s.coef := rfl
@[simp] theorem State.onMac_prog (s : State) (m : Fin 2) (f : Mac → Mac) : (s.onMac m f).prog = s.prog := rfl
@[simp] theorem State.onMac_sram (s : State) (m : Fin 2) (f : Mac → Mac) : (s.onMac m f).sram = s.sram := rfl
@[simp] theorem State.onMac_held (s : State) (m : Fin 2) (f : Mac → Mac) : (s.onMac m f).held = s.held := rfl
@[simp] theorem State.onMac_resp (s : State) (m : Fin 2) (f : Mac → Mac) : (s.onMac m f).resp = s.resp := rfl
@[simp] theorem State.onMac_free (s : State) (m : Fin 2) (f : Mac → Mac) : (s.onMac m f).free = s.free := rfl
@[simp] theorem State.onMac_outbox (s : State) (m : Fin 2) (f : Mac → Mac) : (s.onMac m f).outbox = s.outbox := rfl
@[simp] theorem State.onMac_glz (s : State) (m : Fin 2) (f : Mac → Mac) : (s.onMac m f).glz = s.glz := rfl
@[simp] theorem State.onMac_fab (s : State) (m : Fin 2) (f : Mac → Mac) : (s.onMac m f).fab = s.fab := rfl
@[simp] theorem State.onMac_wheels (s : State) (m : Fin 2) (f : Mac → Mac) : (s.onMac m f).wheels = s.wheels := rfl
@[simp] theorem State.onMac_groups (s : State) (m : Fin 2) (f : Mac → Mac) : (s.onMac m f).groups = s.groups := rfl
@[simp] theorem State.onMac_gsus (s : State) (m : Fin 2) (f : Mac → Mac) : (s.onMac m f).gsus = s.gsus := rfl
@[simp] theorem State.onMac_rts (s : State) (m : Fin 2) (f : Mac → Mac) : (s.onMac m f).rts = s.rts := rfl
@[simp] theorem State.onMac_isl (s : State) (m : Fin 2) (f : Mac → Mac) : (s.onMac m f).isl = s.isl := rfl
@[simp] theorem State.onMac_dci (s : State) (m : Fin 2) (f : Mac → Mac) : (s.onMac m f).dci = s.dci := rfl
@[simp] theorem State.onMac_mod (s : State) (m : Fin 2) (f : Mac → Mac) : (s.onMac m f).mod = s.mod := rfl
@[simp] theorem State.onMac_tiles (s : State) (m : Fin 2) (f : Mac → Mac) : (s.onMac m f).tiles = s.tiles := rfl
@[simp] theorem State.onMac_wins (s : State) (m : Fin 2) (f : Mac → Mac) : (s.onMac m f).wins = s.wins := rfl
@[simp] theorem State.onMac_sit (s : State) (m : Fin 2) (f : Mac → Mac) : (s.onMac m f).sit = s.sit := rfl
@[simp] theorem State.onMac_adcs (s : State) (m : Fin 2) (f : Mac → Mac) : (s.onMac m f).adcs = s.adcs := rfl
@[simp] theorem State.onMac_gx (s : State) (m : Fin 2) (f : Mac → Mac) : (s.onMac m f).gx = s.gx := rfl
@[simp] theorem State.onMac_met (s : State) (m : Fin 2) (f : Mac → Mac) : (s.onMac m f).met = s.met := rfl
@[simp] theorem State.onMac_clk (s : State) (m : Fin 2) (f : Mac → Mac) : (s.onMac m f).clk = s.clk := rfl
@[simp] theorem State.onMac_lanes (s : State) (m : Fin 2) (f : Mac → Mac) : (s.onMac m f).lanes = s.lanes := rfl
@[simp] theorem State.onMac_wlk (s : State) (m : Fin 2) (f : Mac → Mac) : (s.onMac m f).wlk = s.wlk := rfl
@[simp] theorem State.onMac_sag (s : State) (m : Fin 2) (f : Mac → Mac) : (s.onMac m f).sag = s.sag := rfl
@[simp] theorem State.onMac_pug (s : State) (m : Fin 2) (f : Mac → Mac) : (s.onMac m f).pug = s.pug := rfl
@[simp] theorem State.onMac_pwr (s : State) (m : Fin 2) (f : Mac → Mac) : (s.onMac m f).pwr = s.pwr := rfl
@[simp] theorem State.onMac_grg (s : State) (m : Fin 2) (f : Mac → Mac) : (s.onMac m f).grg = s.grg := rfl
@[simp] theorem State.onMac_con (s : State) (m : Fin 2) (f : Mac → Mac) : (s.onMac m f).con = s.con := rfl
@[simp] theorem State.onMac_ports (s : State) (m : Fin 2) (f : Mac → Mac) : (s.onMac m f).ports = s.ports := rfl
@[simp] theorem State.onMac_get (s : State) (m : Fin 2) (f : Mac → Mac) (g : Fld) : (s.onMac m f).get g = s.get g := rfl

@[simp] theorem State.onWlk_pending (s : State) (f : Wlk → Wlk) : (s.onWlk f).pending = s.pending := rfl
@[simp] theorem State.onWlk_regs (s : State) (f : Wlk → Wlk) : (s.onWlk f).regs = s.regs := rfl
@[simp] theorem State.onWlk_slots (s : State) (f : Wlk → Wlk) : (s.onWlk f).slots = s.slots := rfl
@[simp] theorem State.onWlk_coef (s : State) (f : Wlk → Wlk) : (s.onWlk f).coef = s.coef := rfl
@[simp] theorem State.onWlk_prog (s : State) (f : Wlk → Wlk) : (s.onWlk f).prog = s.prog := rfl
@[simp] theorem State.onWlk_sram (s : State) (f : Wlk → Wlk) : (s.onWlk f).sram = s.sram := rfl
@[simp] theorem State.onWlk_held (s : State) (f : Wlk → Wlk) : (s.onWlk f).held = s.held := rfl
@[simp] theorem State.onWlk_resp (s : State) (f : Wlk → Wlk) : (s.onWlk f).resp = s.resp := rfl
@[simp] theorem State.onWlk_free (s : State) (f : Wlk → Wlk) : (s.onWlk f).free = s.free := rfl
@[simp] theorem State.onWlk_outbox (s : State) (f : Wlk → Wlk) : (s.onWlk f).outbox = s.outbox := rfl
@[simp] theorem State.onWlk_glz (s : State) (f : Wlk → Wlk) : (s.onWlk f).glz = s.glz := rfl
@[simp] theorem State.onWlk_fab (s : State) (f : Wlk → Wlk) : (s.onWlk f).fab = s.fab := rfl
@[simp] theorem State.onWlk_wheels (s : State) (f : Wlk → Wlk) : (s.onWlk f).wheels = s.wheels := rfl
@[simp] theorem State.onWlk_groups (s : State) (f : Wlk → Wlk) : (s.onWlk f).groups = s.groups := rfl
@[simp] theorem State.onWlk_gsus (s : State) (f : Wlk → Wlk) : (s.onWlk f).gsus = s.gsus := rfl
@[simp] theorem State.onWlk_rts (s : State) (f : Wlk → Wlk) : (s.onWlk f).rts = s.rts := rfl
@[simp] theorem State.onWlk_isl (s : State) (f : Wlk → Wlk) : (s.onWlk f).isl = s.isl := rfl
@[simp] theorem State.onWlk_dci (s : State) (f : Wlk → Wlk) : (s.onWlk f).dci = s.dci := rfl
@[simp] theorem State.onWlk_mod (s : State) (f : Wlk → Wlk) : (s.onWlk f).mod = s.mod := rfl
@[simp] theorem State.onWlk_tiles (s : State) (f : Wlk → Wlk) : (s.onWlk f).tiles = s.tiles := rfl
@[simp] theorem State.onWlk_wins (s : State) (f : Wlk → Wlk) : (s.onWlk f).wins = s.wins := rfl
@[simp] theorem State.onWlk_sit (s : State) (f : Wlk → Wlk) : (s.onWlk f).sit = s.sit := rfl
@[simp] theorem State.onWlk_adcs (s : State) (f : Wlk → Wlk) : (s.onWlk f).adcs = s.adcs := rfl
@[simp] theorem State.onWlk_gx (s : State) (f : Wlk → Wlk) : (s.onWlk f).gx = s.gx := rfl
@[simp] theorem State.onWlk_met (s : State) (f : Wlk → Wlk) : (s.onWlk f).met = s.met := rfl
@[simp] theorem State.onWlk_clk (s : State) (f : Wlk → Wlk) : (s.onWlk f).clk = s.clk := rfl
@[simp] theorem State.onWlk_lanes (s : State) (f : Wlk → Wlk) : (s.onWlk f).lanes = s.lanes := rfl
@[simp] theorem State.onWlk_net (s : State) (f : Wlk → Wlk) : (s.onWlk f).net = s.net := rfl
@[simp] theorem State.onWlk_sag (s : State) (f : Wlk → Wlk) : (s.onWlk f).sag = s.sag := rfl
@[simp] theorem State.onWlk_pug (s : State) (f : Wlk → Wlk) : (s.onWlk f).pug = s.pug := rfl
@[simp] theorem State.onWlk_pwr (s : State) (f : Wlk → Wlk) : (s.onWlk f).pwr = s.pwr := rfl
@[simp] theorem State.onWlk_grg (s : State) (f : Wlk → Wlk) : (s.onWlk f).grg = s.grg := rfl
@[simp] theorem State.onWlk_con (s : State) (f : Wlk → Wlk) : (s.onWlk f).con = s.con := rfl
@[simp] theorem State.onWlk_ports (s : State) (f : Wlk → Wlk) : (s.onWlk f).ports = s.ports := rfl
@[simp] theorem State.onWlk_get (s : State) (f : Wlk → Wlk) (g : Fld) : (s.onWlk f).get g = s.get g := rfl

@[simp] theorem State.onGain_pending (s : State) (c : Fin 4) (f : GainPath → GainPath) : (s.onGain c f).pending = s.pending := rfl
@[simp] theorem State.onGain_regs (s : State) (c : Fin 4) (f : GainPath → GainPath) : (s.onGain c f).regs = s.regs := rfl
@[simp] theorem State.onGain_slots (s : State) (c : Fin 4) (f : GainPath → GainPath) : (s.onGain c f).slots = s.slots := rfl
@[simp] theorem State.onGain_coef (s : State) (c : Fin 4) (f : GainPath → GainPath) : (s.onGain c f).coef = s.coef := rfl
@[simp] theorem State.onGain_prog (s : State) (c : Fin 4) (f : GainPath → GainPath) : (s.onGain c f).prog = s.prog := rfl
@[simp] theorem State.onGain_sram (s : State) (c : Fin 4) (f : GainPath → GainPath) : (s.onGain c f).sram = s.sram := rfl
@[simp] theorem State.onGain_held (s : State) (c : Fin 4) (f : GainPath → GainPath) : (s.onGain c f).held = s.held := rfl
@[simp] theorem State.onGain_resp (s : State) (c : Fin 4) (f : GainPath → GainPath) : (s.onGain c f).resp = s.resp := rfl
@[simp] theorem State.onGain_free (s : State) (c : Fin 4) (f : GainPath → GainPath) : (s.onGain c f).free = s.free := rfl
@[simp] theorem State.onGain_outbox (s : State) (c : Fin 4) (f : GainPath → GainPath) : (s.onGain c f).outbox = s.outbox := rfl
@[simp] theorem State.onGain_glz (s : State) (c : Fin 4) (f : GainPath → GainPath) : (s.onGain c f).glz = s.glz := rfl
@[simp] theorem State.onGain_fab (s : State) (c : Fin 4) (f : GainPath → GainPath) : (s.onGain c f).fab = s.fab := rfl
@[simp] theorem State.onGain_wheels (s : State) (c : Fin 4) (f : GainPath → GainPath) : (s.onGain c f).wheels = s.wheels := rfl
@[simp] theorem State.onGain_groups (s : State) (c : Fin 4) (f : GainPath → GainPath) : (s.onGain c f).groups = s.groups := rfl
@[simp] theorem State.onGain_gsus (s : State) (c : Fin 4) (f : GainPath → GainPath) : (s.onGain c f).gsus = s.gsus := rfl
@[simp] theorem State.onGain_rts (s : State) (c : Fin 4) (f : GainPath → GainPath) : (s.onGain c f).rts = s.rts := rfl
@[simp] theorem State.onGain_isl (s : State) (c : Fin 4) (f : GainPath → GainPath) : (s.onGain c f).isl = s.isl := rfl
@[simp] theorem State.onGain_dci (s : State) (c : Fin 4) (f : GainPath → GainPath) : (s.onGain c f).dci = s.dci := rfl
@[simp] theorem State.onGain_mod (s : State) (c : Fin 4) (f : GainPath → GainPath) : (s.onGain c f).mod = s.mod := rfl
@[simp] theorem State.onGain_tiles (s : State) (c : Fin 4) (f : GainPath → GainPath) : (s.onGain c f).tiles = s.tiles := rfl
@[simp] theorem State.onGain_wins (s : State) (c : Fin 4) (f : GainPath → GainPath) : (s.onGain c f).wins = s.wins := rfl
@[simp] theorem State.onGain_sit (s : State) (c : Fin 4) (f : GainPath → GainPath) : (s.onGain c f).sit = s.sit := rfl
@[simp] theorem State.onGain_adcs (s : State) (c : Fin 4) (f : GainPath → GainPath) : (s.onGain c f).adcs = s.adcs := rfl
@[simp] theorem State.onGain_gx (s : State) (c : Fin 4) (f : GainPath → GainPath) : (s.onGain c f).gx = s.gx := rfl
@[simp] theorem State.onGain_clk (s : State) (c : Fin 4) (f : GainPath → GainPath) : (s.onGain c f).clk = s.clk := rfl
@[simp] theorem State.onGain_lanes (s : State) (c : Fin 4) (f : GainPath → GainPath) : (s.onGain c f).lanes = s.lanes := rfl
@[simp] theorem State.onGain_wlk (s : State) (c : Fin 4) (f : GainPath → GainPath) : (s.onGain c f).wlk = s.wlk := rfl
@[simp] theorem State.onGain_net (s : State) (c : Fin 4) (f : GainPath → GainPath) : (s.onGain c f).net = s.net := rfl
@[simp] theorem State.onGain_sag (s : State) (c : Fin 4) (f : GainPath → GainPath) : (s.onGain c f).sag = s.sag := rfl
@[simp] theorem State.onGain_pug (s : State) (c : Fin 4) (f : GainPath → GainPath) : (s.onGain c f).pug = s.pug := rfl
@[simp] theorem State.onGain_pwr (s : State) (c : Fin 4) (f : GainPath → GainPath) : (s.onGain c f).pwr = s.pwr := rfl
@[simp] theorem State.onGain_grg (s : State) (c : Fin 4) (f : GainPath → GainPath) : (s.onGain c f).grg = s.grg := rfl
@[simp] theorem State.onGain_con (s : State) (c : Fin 4) (f : GainPath → GainPath) : (s.onGain c f).con = s.con := rfl
@[simp] theorem State.onGain_ports (s : State) (c : Fin 4) (f : GainPath → GainPath) : (s.onGain c f).ports = s.ports := rfl
@[simp] theorem State.onGain_get (s : State) (c : Fin 4) (f : GainPath → GainPath) (g : Fld) : (s.onGain c f).get g = s.get g := rfl

@[simp] theorem State.onSag_pending (s : State) (f : SagState → SagState) : (s.onSag f).pending = s.pending := rfl
@[simp] theorem State.onSag_regs (s : State) (f : SagState → SagState) : (s.onSag f).regs = s.regs := rfl
@[simp] theorem State.onSag_slots (s : State) (f : SagState → SagState) : (s.onSag f).slots = s.slots := rfl
@[simp] theorem State.onSag_coef (s : State) (f : SagState → SagState) : (s.onSag f).coef = s.coef := rfl
@[simp] theorem State.onSag_prog (s : State) (f : SagState → SagState) : (s.onSag f).prog = s.prog := rfl
@[simp] theorem State.onSag_sram (s : State) (f : SagState → SagState) : (s.onSag f).sram = s.sram := rfl
@[simp] theorem State.onSag_held (s : State) (f : SagState → SagState) : (s.onSag f).held = s.held := rfl
@[simp] theorem State.onSag_resp (s : State) (f : SagState → SagState) : (s.onSag f).resp = s.resp := rfl
@[simp] theorem State.onSag_free (s : State) (f : SagState → SagState) : (s.onSag f).free = s.free := rfl
@[simp] theorem State.onSag_outbox (s : State) (f : SagState → SagState) : (s.onSag f).outbox = s.outbox := rfl
@[simp] theorem State.onSag_glz (s : State) (f : SagState → SagState) : (s.onSag f).glz = s.glz := rfl
@[simp] theorem State.onSag_fab (s : State) (f : SagState → SagState) : (s.onSag f).fab = s.fab := rfl
@[simp] theorem State.onSag_wheels (s : State) (f : SagState → SagState) : (s.onSag f).wheels = s.wheels := rfl
@[simp] theorem State.onSag_groups (s : State) (f : SagState → SagState) : (s.onSag f).groups = s.groups := rfl
@[simp] theorem State.onSag_gsus (s : State) (f : SagState → SagState) : (s.onSag f).gsus = s.gsus := rfl
@[simp] theorem State.onSag_rts (s : State) (f : SagState → SagState) : (s.onSag f).rts = s.rts := rfl
@[simp] theorem State.onSag_isl (s : State) (f : SagState → SagState) : (s.onSag f).isl = s.isl := rfl
@[simp] theorem State.onSag_dci (s : State) (f : SagState → SagState) : (s.onSag f).dci = s.dci := rfl
@[simp] theorem State.onSag_mod (s : State) (f : SagState → SagState) : (s.onSag f).mod = s.mod := rfl
@[simp] theorem State.onSag_tiles (s : State) (f : SagState → SagState) : (s.onSag f).tiles = s.tiles := rfl
@[simp] theorem State.onSag_wins (s : State) (f : SagState → SagState) : (s.onSag f).wins = s.wins := rfl
@[simp] theorem State.onSag_sit (s : State) (f : SagState → SagState) : (s.onSag f).sit = s.sit := rfl
@[simp] theorem State.onSag_adcs (s : State) (f : SagState → SagState) : (s.onSag f).adcs = s.adcs := rfl
@[simp] theorem State.onSag_gx (s : State) (f : SagState → SagState) : (s.onSag f).gx = s.gx := rfl
@[simp] theorem State.onSag_met (s : State) (f : SagState → SagState) : (s.onSag f).met = s.met := rfl
@[simp] theorem State.onSag_clk (s : State) (f : SagState → SagState) : (s.onSag f).clk = s.clk := rfl
@[simp] theorem State.onSag_lanes (s : State) (f : SagState → SagState) : (s.onSag f).lanes = s.lanes := rfl
@[simp] theorem State.onSag_wlk (s : State) (f : SagState → SagState) : (s.onSag f).wlk = s.wlk := rfl
@[simp] theorem State.onSag_net (s : State) (f : SagState → SagState) : (s.onSag f).net = s.net := rfl
@[simp] theorem State.onSag_pug (s : State) (f : SagState → SagState) : (s.onSag f).pug = s.pug := rfl
@[simp] theorem State.onSag_pwr (s : State) (f : SagState → SagState) : (s.onSag f).pwr = s.pwr := rfl
@[simp] theorem State.onSag_grg (s : State) (f : SagState → SagState) : (s.onSag f).grg = s.grg := rfl
@[simp] theorem State.onSag_con (s : State) (f : SagState → SagState) : (s.onSag f).con = s.con := rfl
@[simp] theorem State.onSag_ports (s : State) (f : SagState → SagState) : (s.onSag f).ports = s.ports := rfl
@[simp] theorem State.onSag_get (s : State) (f : SagState → SagState) (g : Fld) : (s.onSag f).get g = s.get g := rfl

@[simp] theorem State.onPug_pending (s : State) (f : PugState → PugState) : (s.onPug f).pending = s.pending := rfl
@[simp] theorem State.onPug_regs (s : State) (f : PugState → PugState) : (s.onPug f).regs = s.regs := rfl
@[simp] theorem State.onPug_slots (s : State) (f : PugState → PugState) : (s.onPug f).slots = s.slots := rfl
@[simp] theorem State.onPug_coef (s : State) (f : PugState → PugState) : (s.onPug f).coef = s.coef := rfl
@[simp] theorem State.onPug_prog (s : State) (f : PugState → PugState) : (s.onPug f).prog = s.prog := rfl
@[simp] theorem State.onPug_sram (s : State) (f : PugState → PugState) : (s.onPug f).sram = s.sram := rfl
@[simp] theorem State.onPug_held (s : State) (f : PugState → PugState) : (s.onPug f).held = s.held := rfl
@[simp] theorem State.onPug_resp (s : State) (f : PugState → PugState) : (s.onPug f).resp = s.resp := rfl
@[simp] theorem State.onPug_free (s : State) (f : PugState → PugState) : (s.onPug f).free = s.free := rfl
@[simp] theorem State.onPug_outbox (s : State) (f : PugState → PugState) : (s.onPug f).outbox = s.outbox := rfl
@[simp] theorem State.onPug_glz (s : State) (f : PugState → PugState) : (s.onPug f).glz = s.glz := rfl
@[simp] theorem State.onPug_fab (s : State) (f : PugState → PugState) : (s.onPug f).fab = s.fab := rfl
@[simp] theorem State.onPug_wheels (s : State) (f : PugState → PugState) : (s.onPug f).wheels = s.wheels := rfl
@[simp] theorem State.onPug_groups (s : State) (f : PugState → PugState) : (s.onPug f).groups = s.groups := rfl
@[simp] theorem State.onPug_gsus (s : State) (f : PugState → PugState) : (s.onPug f).gsus = s.gsus := rfl
@[simp] theorem State.onPug_rts (s : State) (f : PugState → PugState) : (s.onPug f).rts = s.rts := rfl
@[simp] theorem State.onPug_isl (s : State) (f : PugState → PugState) : (s.onPug f).isl = s.isl := rfl
@[simp] theorem State.onPug_dci (s : State) (f : PugState → PugState) : (s.onPug f).dci = s.dci := rfl
@[simp] theorem State.onPug_mod (s : State) (f : PugState → PugState) : (s.onPug f).mod = s.mod := rfl
@[simp] theorem State.onPug_tiles (s : State) (f : PugState → PugState) : (s.onPug f).tiles = s.tiles := rfl
@[simp] theorem State.onPug_wins (s : State) (f : PugState → PugState) : (s.onPug f).wins = s.wins := rfl
@[simp] theorem State.onPug_sit (s : State) (f : PugState → PugState) : (s.onPug f).sit = s.sit := rfl
@[simp] theorem State.onPug_adcs (s : State) (f : PugState → PugState) : (s.onPug f).adcs = s.adcs := rfl
@[simp] theorem State.onPug_gx (s : State) (f : PugState → PugState) : (s.onPug f).gx = s.gx := rfl
@[simp] theorem State.onPug_met (s : State) (f : PugState → PugState) : (s.onPug f).met = s.met := rfl
@[simp] theorem State.onPug_clk (s : State) (f : PugState → PugState) : (s.onPug f).clk = s.clk := rfl
@[simp] theorem State.onPug_lanes (s : State) (f : PugState → PugState) : (s.onPug f).lanes = s.lanes := rfl
@[simp] theorem State.onPug_wlk (s : State) (f : PugState → PugState) : (s.onPug f).wlk = s.wlk := rfl
@[simp] theorem State.onPug_net (s : State) (f : PugState → PugState) : (s.onPug f).net = s.net := rfl
@[simp] theorem State.onPug_sag (s : State) (f : PugState → PugState) : (s.onPug f).sag = s.sag := rfl
@[simp] theorem State.onPug_pwr (s : State) (f : PugState → PugState) : (s.onPug f).pwr = s.pwr := rfl
@[simp] theorem State.onPug_grg (s : State) (f : PugState → PugState) : (s.onPug f).grg = s.grg := rfl
@[simp] theorem State.onPug_con (s : State) (f : PugState → PugState) : (s.onPug f).con = s.con := rfl
@[simp] theorem State.onPug_ports (s : State) (f : PugState → PugState) : (s.onPug f).ports = s.ports := rfl
@[simp] theorem State.onPug_get (s : State) (f : PugState → PugState) (g : Fld) : (s.onPug f).get g = s.get g := rfl

@[simp] theorem State.onPwr_pending (s : State) (f : PwrState → PwrState) : (s.onPwr f).pending = s.pending := rfl
@[simp] theorem State.onPwr_regs (s : State) (f : PwrState → PwrState) : (s.onPwr f).regs = s.regs := rfl
@[simp] theorem State.onPwr_slots (s : State) (f : PwrState → PwrState) : (s.onPwr f).slots = s.slots := rfl
@[simp] theorem State.onPwr_coef (s : State) (f : PwrState → PwrState) : (s.onPwr f).coef = s.coef := rfl
@[simp] theorem State.onPwr_prog (s : State) (f : PwrState → PwrState) : (s.onPwr f).prog = s.prog := rfl
@[simp] theorem State.onPwr_sram (s : State) (f : PwrState → PwrState) : (s.onPwr f).sram = s.sram := rfl
@[simp] theorem State.onPwr_held (s : State) (f : PwrState → PwrState) : (s.onPwr f).held = s.held := rfl
@[simp] theorem State.onPwr_resp (s : State) (f : PwrState → PwrState) : (s.onPwr f).resp = s.resp := rfl
@[simp] theorem State.onPwr_free (s : State) (f : PwrState → PwrState) : (s.onPwr f).free = s.free := rfl
@[simp] theorem State.onPwr_outbox (s : State) (f : PwrState → PwrState) : (s.onPwr f).outbox = s.outbox := rfl
@[simp] theorem State.onPwr_glz (s : State) (f : PwrState → PwrState) : (s.onPwr f).glz = s.glz := rfl
@[simp] theorem State.onPwr_fab (s : State) (f : PwrState → PwrState) : (s.onPwr f).fab = s.fab := rfl
@[simp] theorem State.onPwr_wheels (s : State) (f : PwrState → PwrState) : (s.onPwr f).wheels = s.wheels := rfl
@[simp] theorem State.onPwr_groups (s : State) (f : PwrState → PwrState) : (s.onPwr f).groups = s.groups := rfl
@[simp] theorem State.onPwr_gsus (s : State) (f : PwrState → PwrState) : (s.onPwr f).gsus = s.gsus := rfl
@[simp] theorem State.onPwr_rts (s : State) (f : PwrState → PwrState) : (s.onPwr f).rts = s.rts := rfl
@[simp] theorem State.onPwr_isl (s : State) (f : PwrState → PwrState) : (s.onPwr f).isl = s.isl := rfl
@[simp] theorem State.onPwr_dci (s : State) (f : PwrState → PwrState) : (s.onPwr f).dci = s.dci := rfl
@[simp] theorem State.onPwr_mod (s : State) (f : PwrState → PwrState) : (s.onPwr f).mod = s.mod := rfl
@[simp] theorem State.onPwr_tiles (s : State) (f : PwrState → PwrState) : (s.onPwr f).tiles = s.tiles := rfl
@[simp] theorem State.onPwr_wins (s : State) (f : PwrState → PwrState) : (s.onPwr f).wins = s.wins := rfl
@[simp] theorem State.onPwr_sit (s : State) (f : PwrState → PwrState) : (s.onPwr f).sit = s.sit := rfl
@[simp] theorem State.onPwr_adcs (s : State) (f : PwrState → PwrState) : (s.onPwr f).adcs = s.adcs := rfl
@[simp] theorem State.onPwr_gx (s : State) (f : PwrState → PwrState) : (s.onPwr f).gx = s.gx := rfl
@[simp] theorem State.onPwr_met (s : State) (f : PwrState → PwrState) : (s.onPwr f).met = s.met := rfl
@[simp] theorem State.onPwr_clk (s : State) (f : PwrState → PwrState) : (s.onPwr f).clk = s.clk := rfl
@[simp] theorem State.onPwr_lanes (s : State) (f : PwrState → PwrState) : (s.onPwr f).lanes = s.lanes := rfl
@[simp] theorem State.onPwr_wlk (s : State) (f : PwrState → PwrState) : (s.onPwr f).wlk = s.wlk := rfl
@[simp] theorem State.onPwr_net (s : State) (f : PwrState → PwrState) : (s.onPwr f).net = s.net := rfl
@[simp] theorem State.onPwr_sag (s : State) (f : PwrState → PwrState) : (s.onPwr f).sag = s.sag := rfl
@[simp] theorem State.onPwr_pug (s : State) (f : PwrState → PwrState) : (s.onPwr f).pug = s.pug := rfl
@[simp] theorem State.onPwr_grg (s : State) (f : PwrState → PwrState) : (s.onPwr f).grg = s.grg := rfl
@[simp] theorem State.onPwr_con (s : State) (f : PwrState → PwrState) : (s.onPwr f).con = s.con := rfl
@[simp] theorem State.onPwr_ports (s : State) (f : PwrState → PwrState) : (s.onPwr f).ports = s.ports := rfl
@[simp] theorem State.onPwr_get (s : State) (f : PwrState → PwrState) (g : Fld) : (s.onPwr f).get g = s.get g := rfl

@[simp] theorem State.onGlz_pending (s : State) (f : GlzState → GlzState) : (s.onGlz f).pending = s.pending := rfl
@[simp] theorem State.onGlz_regs (s : State) (f : GlzState → GlzState) : (s.onGlz f).regs = s.regs := rfl
@[simp] theorem State.onGlz_slots (s : State) (f : GlzState → GlzState) : (s.onGlz f).slots = s.slots := rfl
@[simp] theorem State.onGlz_coef (s : State) (f : GlzState → GlzState) : (s.onGlz f).coef = s.coef := rfl
@[simp] theorem State.onGlz_prog (s : State) (f : GlzState → GlzState) : (s.onGlz f).prog = s.prog := rfl
@[simp] theorem State.onGlz_sram (s : State) (f : GlzState → GlzState) : (s.onGlz f).sram = s.sram := rfl
@[simp] theorem State.onGlz_held (s : State) (f : GlzState → GlzState) : (s.onGlz f).held = s.held := rfl
@[simp] theorem State.onGlz_resp (s : State) (f : GlzState → GlzState) : (s.onGlz f).resp = s.resp := rfl
@[simp] theorem State.onGlz_free (s : State) (f : GlzState → GlzState) : (s.onGlz f).free = s.free := rfl
@[simp] theorem State.onGlz_outbox (s : State) (f : GlzState → GlzState) : (s.onGlz f).outbox = s.outbox := rfl
@[simp] theorem State.onGlz_fab (s : State) (f : GlzState → GlzState) : (s.onGlz f).fab = s.fab := rfl
@[simp] theorem State.onGlz_wheels (s : State) (f : GlzState → GlzState) : (s.onGlz f).wheels = s.wheels := rfl
@[simp] theorem State.onGlz_groups (s : State) (f : GlzState → GlzState) : (s.onGlz f).groups = s.groups := rfl
@[simp] theorem State.onGlz_gsus (s : State) (f : GlzState → GlzState) : (s.onGlz f).gsus = s.gsus := rfl
@[simp] theorem State.onGlz_rts (s : State) (f : GlzState → GlzState) : (s.onGlz f).rts = s.rts := rfl
@[simp] theorem State.onGlz_isl (s : State) (f : GlzState → GlzState) : (s.onGlz f).isl = s.isl := rfl
@[simp] theorem State.onGlz_dci (s : State) (f : GlzState → GlzState) : (s.onGlz f).dci = s.dci := rfl
@[simp] theorem State.onGlz_mod (s : State) (f : GlzState → GlzState) : (s.onGlz f).mod = s.mod := rfl
@[simp] theorem State.onGlz_tiles (s : State) (f : GlzState → GlzState) : (s.onGlz f).tiles = s.tiles := rfl
@[simp] theorem State.onGlz_wins (s : State) (f : GlzState → GlzState) : (s.onGlz f).wins = s.wins := rfl
@[simp] theorem State.onGlz_sit (s : State) (f : GlzState → GlzState) : (s.onGlz f).sit = s.sit := rfl
@[simp] theorem State.onGlz_adcs (s : State) (f : GlzState → GlzState) : (s.onGlz f).adcs = s.adcs := rfl
@[simp] theorem State.onGlz_gx (s : State) (f : GlzState → GlzState) : (s.onGlz f).gx = s.gx := rfl
@[simp] theorem State.onGlz_met (s : State) (f : GlzState → GlzState) : (s.onGlz f).met = s.met := rfl
@[simp] theorem State.onGlz_clk (s : State) (f : GlzState → GlzState) : (s.onGlz f).clk = s.clk := rfl
@[simp] theorem State.onGlz_lanes (s : State) (f : GlzState → GlzState) : (s.onGlz f).lanes = s.lanes := rfl
@[simp] theorem State.onGlz_wlk (s : State) (f : GlzState → GlzState) : (s.onGlz f).wlk = s.wlk := rfl
@[simp] theorem State.onGlz_net (s : State) (f : GlzState → GlzState) : (s.onGlz f).net = s.net := rfl
@[simp] theorem State.onGlz_sag (s : State) (f : GlzState → GlzState) : (s.onGlz f).sag = s.sag := rfl
@[simp] theorem State.onGlz_pug (s : State) (f : GlzState → GlzState) : (s.onGlz f).pug = s.pug := rfl
@[simp] theorem State.onGlz_pwr (s : State) (f : GlzState → GlzState) : (s.onGlz f).pwr = s.pwr := rfl
@[simp] theorem State.onGlz_grg (s : State) (f : GlzState → GlzState) : (s.onGlz f).grg = s.grg := rfl
@[simp] theorem State.onGlz_con (s : State) (f : GlzState → GlzState) : (s.onGlz f).con = s.con := rfl
@[simp] theorem State.onGlz_ports (s : State) (f : GlzState → GlzState) : (s.onGlz f).ports = s.ports := rfl
@[simp] theorem State.onGlz_get (s : State) (f : GlzState → GlzState) (g : Fld) : (s.onGlz f).get g = s.get g := rfl

/-! A field replaced. -/

theorem State.withRegs_eq (s : State) (x : List (Nat × DWord)) : s.withRegs x = { s with regs := x } := rfl
@[simp] theorem State.withRegs_pending (s : State) (x : List (Nat × DWord)) : (s.withRegs x).pending = s.pending := rfl
@[simp] theorem State.withRegs_regs (s : State) (x : List (Nat × DWord)) : (s.withRegs x).regs = x := rfl
@[simp] theorem State.withRegs_slots (s : State) (x : List (Nat × DWord)) : (s.withRegs x).slots = s.slots := rfl
@[simp] theorem State.withRegs_coef (s : State) (x : List (Nat × DWord)) : (s.withRegs x).coef = s.coef := rfl
@[simp] theorem State.withRegs_prog (s : State) (x : List (Nat × DWord)) : (s.withRegs x).prog = s.prog := rfl
@[simp] theorem State.withRegs_sram (s : State) (x : List (Nat × DWord)) : (s.withRegs x).sram = s.sram := rfl
@[simp] theorem State.withRegs_held (s : State) (x : List (Nat × DWord)) : (s.withRegs x).held = s.held := rfl
@[simp] theorem State.withRegs_resp (s : State) (x : List (Nat × DWord)) : (s.withRegs x).resp = s.resp := rfl
@[simp] theorem State.withRegs_free (s : State) (x : List (Nat × DWord)) : (s.withRegs x).free = s.free := rfl
@[simp] theorem State.withRegs_outbox (s : State) (x : List (Nat × DWord)) : (s.withRegs x).outbox = s.outbox := rfl
@[simp] theorem State.withRegs_glz (s : State) (x : List (Nat × DWord)) : (s.withRegs x).glz = s.glz := rfl
@[simp] theorem State.withRegs_fab (s : State) (x : List (Nat × DWord)) : (s.withRegs x).fab = s.fab := rfl
@[simp] theorem State.withRegs_wheels (s : State) (x : List (Nat × DWord)) : (s.withRegs x).wheels = s.wheels := rfl
@[simp] theorem State.withRegs_groups (s : State) (x : List (Nat × DWord)) : (s.withRegs x).groups = s.groups := rfl
@[simp] theorem State.withRegs_gsus (s : State) (x : List (Nat × DWord)) : (s.withRegs x).gsus = s.gsus := rfl
@[simp] theorem State.withRegs_rts (s : State) (x : List (Nat × DWord)) : (s.withRegs x).rts = s.rts := rfl
@[simp] theorem State.withRegs_isl (s : State) (x : List (Nat × DWord)) : (s.withRegs x).isl = s.isl := rfl
@[simp] theorem State.withRegs_dci (s : State) (x : List (Nat × DWord)) : (s.withRegs x).dci = s.dci := rfl
@[simp] theorem State.withRegs_mod (s : State) (x : List (Nat × DWord)) : (s.withRegs x).mod = s.mod := rfl
@[simp] theorem State.withRegs_tiles (s : State) (x : List (Nat × DWord)) : (s.withRegs x).tiles = s.tiles := rfl
@[simp] theorem State.withRegs_wins (s : State) (x : List (Nat × DWord)) : (s.withRegs x).wins = s.wins := rfl
@[simp] theorem State.withRegs_sit (s : State) (x : List (Nat × DWord)) : (s.withRegs x).sit = s.sit := rfl
@[simp] theorem State.withRegs_adcs (s : State) (x : List (Nat × DWord)) : (s.withRegs x).adcs = s.adcs := rfl
@[simp] theorem State.withRegs_gx (s : State) (x : List (Nat × DWord)) : (s.withRegs x).gx = s.gx := rfl
@[simp] theorem State.withRegs_met (s : State) (x : List (Nat × DWord)) : (s.withRegs x).met = s.met := rfl
@[simp] theorem State.withRegs_clk (s : State) (x : List (Nat × DWord)) : (s.withRegs x).clk = s.clk := rfl
@[simp] theorem State.withRegs_lanes (s : State) (x : List (Nat × DWord)) : (s.withRegs x).lanes = s.lanes := rfl
@[simp] theorem State.withRegs_wlk (s : State) (x : List (Nat × DWord)) : (s.withRegs x).wlk = s.wlk := rfl
@[simp] theorem State.withRegs_net (s : State) (x : List (Nat × DWord)) : (s.withRegs x).net = s.net := rfl
@[simp] theorem State.withRegs_sag (s : State) (x : List (Nat × DWord)) : (s.withRegs x).sag = s.sag := rfl
@[simp] theorem State.withRegs_pug (s : State) (x : List (Nat × DWord)) : (s.withRegs x).pug = s.pug := rfl
@[simp] theorem State.withRegs_pwr (s : State) (x : List (Nat × DWord)) : (s.withRegs x).pwr = s.pwr := rfl
@[simp] theorem State.withRegs_grg (s : State) (x : List (Nat × DWord)) : (s.withRegs x).grg = s.grg := rfl
@[simp] theorem State.withRegs_con (s : State) (x : List (Nat × DWord)) : (s.withRegs x).con = s.con := rfl
@[simp] theorem State.withRegs_ports (s : State) (x : List (Nat × DWord)) : (s.withRegs x).ports = s.ports := rfl
theorem State.withSlots_eq (s : State) (x : List (Nat × Word)) : s.withSlots x = { s with slots := x } := rfl
@[simp] theorem State.withSlots_get (s : State) (x : List (Nat × Word)) (f : Fld) : (s.withSlots x).get f = s.get f := rfl
@[simp] theorem State.withSlots_pending (s : State) (x : List (Nat × Word)) : (s.withSlots x).pending = s.pending := rfl
@[simp] theorem State.withSlots_regs (s : State) (x : List (Nat × Word)) : (s.withSlots x).regs = s.regs := rfl
@[simp] theorem State.withSlots_slots (s : State) (x : List (Nat × Word)) : (s.withSlots x).slots = x := rfl
@[simp] theorem State.withSlots_coef (s : State) (x : List (Nat × Word)) : (s.withSlots x).coef = s.coef := rfl
@[simp] theorem State.withSlots_prog (s : State) (x : List (Nat × Word)) : (s.withSlots x).prog = s.prog := rfl
@[simp] theorem State.withSlots_sram (s : State) (x : List (Nat × Word)) : (s.withSlots x).sram = s.sram := rfl
@[simp] theorem State.withSlots_held (s : State) (x : List (Nat × Word)) : (s.withSlots x).held = s.held := rfl
@[simp] theorem State.withSlots_resp (s : State) (x : List (Nat × Word)) : (s.withSlots x).resp = s.resp := rfl
@[simp] theorem State.withSlots_free (s : State) (x : List (Nat × Word)) : (s.withSlots x).free = s.free := rfl
@[simp] theorem State.withSlots_outbox (s : State) (x : List (Nat × Word)) : (s.withSlots x).outbox = s.outbox := rfl
@[simp] theorem State.withSlots_glz (s : State) (x : List (Nat × Word)) : (s.withSlots x).glz = s.glz := rfl
@[simp] theorem State.withSlots_fab (s : State) (x : List (Nat × Word)) : (s.withSlots x).fab = s.fab := rfl
@[simp] theorem State.withSlots_wheels (s : State) (x : List (Nat × Word)) : (s.withSlots x).wheels = s.wheels := rfl
@[simp] theorem State.withSlots_groups (s : State) (x : List (Nat × Word)) : (s.withSlots x).groups = s.groups := rfl
@[simp] theorem State.withSlots_gsus (s : State) (x : List (Nat × Word)) : (s.withSlots x).gsus = s.gsus := rfl
@[simp] theorem State.withSlots_rts (s : State) (x : List (Nat × Word)) : (s.withSlots x).rts = s.rts := rfl
@[simp] theorem State.withSlots_isl (s : State) (x : List (Nat × Word)) : (s.withSlots x).isl = s.isl := rfl
@[simp] theorem State.withSlots_dci (s : State) (x : List (Nat × Word)) : (s.withSlots x).dci = s.dci := rfl
@[simp] theorem State.withSlots_mod (s : State) (x : List (Nat × Word)) : (s.withSlots x).mod = s.mod := rfl
@[simp] theorem State.withSlots_tiles (s : State) (x : List (Nat × Word)) : (s.withSlots x).tiles = s.tiles := rfl
@[simp] theorem State.withSlots_wins (s : State) (x : List (Nat × Word)) : (s.withSlots x).wins = s.wins := rfl
@[simp] theorem State.withSlots_sit (s : State) (x : List (Nat × Word)) : (s.withSlots x).sit = s.sit := rfl
@[simp] theorem State.withSlots_adcs (s : State) (x : List (Nat × Word)) : (s.withSlots x).adcs = s.adcs := rfl
@[simp] theorem State.withSlots_gx (s : State) (x : List (Nat × Word)) : (s.withSlots x).gx = s.gx := rfl
@[simp] theorem State.withSlots_met (s : State) (x : List (Nat × Word)) : (s.withSlots x).met = s.met := rfl
@[simp] theorem State.withSlots_clk (s : State) (x : List (Nat × Word)) : (s.withSlots x).clk = s.clk := rfl
@[simp] theorem State.withSlots_lanes (s : State) (x : List (Nat × Word)) : (s.withSlots x).lanes = s.lanes := rfl
@[simp] theorem State.withSlots_wlk (s : State) (x : List (Nat × Word)) : (s.withSlots x).wlk = s.wlk := rfl
@[simp] theorem State.withSlots_net (s : State) (x : List (Nat × Word)) : (s.withSlots x).net = s.net := rfl
@[simp] theorem State.withSlots_sag (s : State) (x : List (Nat × Word)) : (s.withSlots x).sag = s.sag := rfl
@[simp] theorem State.withSlots_pug (s : State) (x : List (Nat × Word)) : (s.withSlots x).pug = s.pug := rfl
@[simp] theorem State.withSlots_pwr (s : State) (x : List (Nat × Word)) : (s.withSlots x).pwr = s.pwr := rfl
@[simp] theorem State.withSlots_grg (s : State) (x : List (Nat × Word)) : (s.withSlots x).grg = s.grg := rfl
@[simp] theorem State.withSlots_con (s : State) (x : List (Nat × Word)) : (s.withSlots x).con = s.con := rfl
@[simp] theorem State.withSlots_ports (s : State) (x : List (Nat × Word)) : (s.withSlots x).ports = s.ports := rfl
theorem State.withCoef_eq (s : State) (x : List (Nat × Word)) : s.withCoef x = { s with coef := x } := rfl
@[simp] theorem State.withCoef_get (s : State) (x : List (Nat × Word)) (f : Fld) : (s.withCoef x).get f = s.get f := rfl
@[simp] theorem State.withCoef_pending (s : State) (x : List (Nat × Word)) : (s.withCoef x).pending = s.pending := rfl
@[simp] theorem State.withCoef_regs (s : State) (x : List (Nat × Word)) : (s.withCoef x).regs = s.regs := rfl
@[simp] theorem State.withCoef_slots (s : State) (x : List (Nat × Word)) : (s.withCoef x).slots = s.slots := rfl
@[simp] theorem State.withCoef_coef (s : State) (x : List (Nat × Word)) : (s.withCoef x).coef = x := rfl
@[simp] theorem State.withCoef_prog (s : State) (x : List (Nat × Word)) : (s.withCoef x).prog = s.prog := rfl
@[simp] theorem State.withCoef_sram (s : State) (x : List (Nat × Word)) : (s.withCoef x).sram = s.sram := rfl
@[simp] theorem State.withCoef_held (s : State) (x : List (Nat × Word)) : (s.withCoef x).held = s.held := rfl
@[simp] theorem State.withCoef_resp (s : State) (x : List (Nat × Word)) : (s.withCoef x).resp = s.resp := rfl
@[simp] theorem State.withCoef_free (s : State) (x : List (Nat × Word)) : (s.withCoef x).free = s.free := rfl
@[simp] theorem State.withCoef_outbox (s : State) (x : List (Nat × Word)) : (s.withCoef x).outbox = s.outbox := rfl
@[simp] theorem State.withCoef_glz (s : State) (x : List (Nat × Word)) : (s.withCoef x).glz = s.glz := rfl
@[simp] theorem State.withCoef_fab (s : State) (x : List (Nat × Word)) : (s.withCoef x).fab = s.fab := rfl
@[simp] theorem State.withCoef_wheels (s : State) (x : List (Nat × Word)) : (s.withCoef x).wheels = s.wheels := rfl
@[simp] theorem State.withCoef_groups (s : State) (x : List (Nat × Word)) : (s.withCoef x).groups = s.groups := rfl
@[simp] theorem State.withCoef_gsus (s : State) (x : List (Nat × Word)) : (s.withCoef x).gsus = s.gsus := rfl
@[simp] theorem State.withCoef_rts (s : State) (x : List (Nat × Word)) : (s.withCoef x).rts = s.rts := rfl
@[simp] theorem State.withCoef_isl (s : State) (x : List (Nat × Word)) : (s.withCoef x).isl = s.isl := rfl
@[simp] theorem State.withCoef_dci (s : State) (x : List (Nat × Word)) : (s.withCoef x).dci = s.dci := rfl
@[simp] theorem State.withCoef_mod (s : State) (x : List (Nat × Word)) : (s.withCoef x).mod = s.mod := rfl
@[simp] theorem State.withCoef_tiles (s : State) (x : List (Nat × Word)) : (s.withCoef x).tiles = s.tiles := rfl
@[simp] theorem State.withCoef_wins (s : State) (x : List (Nat × Word)) : (s.withCoef x).wins = s.wins := rfl
@[simp] theorem State.withCoef_sit (s : State) (x : List (Nat × Word)) : (s.withCoef x).sit = s.sit := rfl
@[simp] theorem State.withCoef_adcs (s : State) (x : List (Nat × Word)) : (s.withCoef x).adcs = s.adcs := rfl
@[simp] theorem State.withCoef_gx (s : State) (x : List (Nat × Word)) : (s.withCoef x).gx = s.gx := rfl
@[simp] theorem State.withCoef_met (s : State) (x : List (Nat × Word)) : (s.withCoef x).met = s.met := rfl
@[simp] theorem State.withCoef_clk (s : State) (x : List (Nat × Word)) : (s.withCoef x).clk = s.clk := rfl
@[simp] theorem State.withCoef_lanes (s : State) (x : List (Nat × Word)) : (s.withCoef x).lanes = s.lanes := rfl
@[simp] theorem State.withCoef_wlk (s : State) (x : List (Nat × Word)) : (s.withCoef x).wlk = s.wlk := rfl
@[simp] theorem State.withCoef_net (s : State) (x : List (Nat × Word)) : (s.withCoef x).net = s.net := rfl
@[simp] theorem State.withCoef_sag (s : State) (x : List (Nat × Word)) : (s.withCoef x).sag = s.sag := rfl
@[simp] theorem State.withCoef_pug (s : State) (x : List (Nat × Word)) : (s.withCoef x).pug = s.pug := rfl
@[simp] theorem State.withCoef_pwr (s : State) (x : List (Nat × Word)) : (s.withCoef x).pwr = s.pwr := rfl
@[simp] theorem State.withCoef_grg (s : State) (x : List (Nat × Word)) : (s.withCoef x).grg = s.grg := rfl
@[simp] theorem State.withCoef_con (s : State) (x : List (Nat × Word)) : (s.withCoef x).con = s.con := rfl
@[simp] theorem State.withCoef_ports (s : State) (x : List (Nat × Word)) : (s.withCoef x).ports = s.ports := rfl
theorem State.withSram_eq (s : State) (x : Ram) : s.withSram x = { s with sram := x } := rfl
@[simp] theorem State.withSram_get (s : State) (x : Ram) (f : Fld) : (s.withSram x).get f = s.get f := rfl
@[simp] theorem State.withSram_pending (s : State) (x : Ram) : (s.withSram x).pending = s.pending := rfl
@[simp] theorem State.withSram_regs (s : State) (x : Ram) : (s.withSram x).regs = s.regs := rfl
@[simp] theorem State.withSram_slots (s : State) (x : Ram) : (s.withSram x).slots = s.slots := rfl
@[simp] theorem State.withSram_coef (s : State) (x : Ram) : (s.withSram x).coef = s.coef := rfl
@[simp] theorem State.withSram_prog (s : State) (x : Ram) : (s.withSram x).prog = s.prog := rfl
@[simp] theorem State.withSram_sram (s : State) (x : Ram) : (s.withSram x).sram = x := rfl
@[simp] theorem State.withSram_held (s : State) (x : Ram) : (s.withSram x).held = s.held := rfl
@[simp] theorem State.withSram_resp (s : State) (x : Ram) : (s.withSram x).resp = s.resp := rfl
@[simp] theorem State.withSram_free (s : State) (x : Ram) : (s.withSram x).free = s.free := rfl
@[simp] theorem State.withSram_outbox (s : State) (x : Ram) : (s.withSram x).outbox = s.outbox := rfl
@[simp] theorem State.withSram_glz (s : State) (x : Ram) : (s.withSram x).glz = s.glz := rfl
@[simp] theorem State.withSram_fab (s : State) (x : Ram) : (s.withSram x).fab = s.fab := rfl
@[simp] theorem State.withSram_wheels (s : State) (x : Ram) : (s.withSram x).wheels = s.wheels := rfl
@[simp] theorem State.withSram_groups (s : State) (x : Ram) : (s.withSram x).groups = s.groups := rfl
@[simp] theorem State.withSram_gsus (s : State) (x : Ram) : (s.withSram x).gsus = s.gsus := rfl
@[simp] theorem State.withSram_rts (s : State) (x : Ram) : (s.withSram x).rts = s.rts := rfl
@[simp] theorem State.withSram_isl (s : State) (x : Ram) : (s.withSram x).isl = s.isl := rfl
@[simp] theorem State.withSram_dci (s : State) (x : Ram) : (s.withSram x).dci = s.dci := rfl
@[simp] theorem State.withSram_mod (s : State) (x : Ram) : (s.withSram x).mod = s.mod := rfl
@[simp] theorem State.withSram_tiles (s : State) (x : Ram) : (s.withSram x).tiles = s.tiles := rfl
@[simp] theorem State.withSram_wins (s : State) (x : Ram) : (s.withSram x).wins = s.wins := rfl
@[simp] theorem State.withSram_sit (s : State) (x : Ram) : (s.withSram x).sit = s.sit := rfl
@[simp] theorem State.withSram_adcs (s : State) (x : Ram) : (s.withSram x).adcs = s.adcs := rfl
@[simp] theorem State.withSram_gx (s : State) (x : Ram) : (s.withSram x).gx = s.gx := rfl
@[simp] theorem State.withSram_met (s : State) (x : Ram) : (s.withSram x).met = s.met := rfl
@[simp] theorem State.withSram_clk (s : State) (x : Ram) : (s.withSram x).clk = s.clk := rfl
@[simp] theorem State.withSram_lanes (s : State) (x : Ram) : (s.withSram x).lanes = s.lanes := rfl
@[simp] theorem State.withSram_wlk (s : State) (x : Ram) : (s.withSram x).wlk = s.wlk := rfl
@[simp] theorem State.withSram_net (s : State) (x : Ram) : (s.withSram x).net = s.net := rfl
@[simp] theorem State.withSram_sag (s : State) (x : Ram) : (s.withSram x).sag = s.sag := rfl
@[simp] theorem State.withSram_pug (s : State) (x : Ram) : (s.withSram x).pug = s.pug := rfl
@[simp] theorem State.withSram_pwr (s : State) (x : Ram) : (s.withSram x).pwr = s.pwr := rfl
@[simp] theorem State.withSram_grg (s : State) (x : Ram) : (s.withSram x).grg = s.grg := rfl
@[simp] theorem State.withSram_con (s : State) (x : Ram) : (s.withSram x).con = s.con := rfl
@[simp] theorem State.withSram_ports (s : State) (x : Ram) : (s.withSram x).ports = s.ports := rfl
theorem State.withHeld_eq (s : State) (x : List Held) : s.withHeld x = { s with held := x } := rfl
@[simp] theorem State.withHeld_get (s : State) (x : List Held) (f : Fld) : (s.withHeld x).get f = s.get f := rfl
@[simp] theorem State.withHeld_pending (s : State) (x : List Held) : (s.withHeld x).pending = s.pending := rfl
@[simp] theorem State.withHeld_regs (s : State) (x : List Held) : (s.withHeld x).regs = s.regs := rfl
@[simp] theorem State.withHeld_slots (s : State) (x : List Held) : (s.withHeld x).slots = s.slots := rfl
@[simp] theorem State.withHeld_coef (s : State) (x : List Held) : (s.withHeld x).coef = s.coef := rfl
@[simp] theorem State.withHeld_prog (s : State) (x : List Held) : (s.withHeld x).prog = s.prog := rfl
@[simp] theorem State.withHeld_sram (s : State) (x : List Held) : (s.withHeld x).sram = s.sram := rfl
@[simp] theorem State.withHeld_held (s : State) (x : List Held) : (s.withHeld x).held = x := rfl
@[simp] theorem State.withHeld_resp (s : State) (x : List Held) : (s.withHeld x).resp = s.resp := rfl
@[simp] theorem State.withHeld_free (s : State) (x : List Held) : (s.withHeld x).free = s.free := rfl
@[simp] theorem State.withHeld_outbox (s : State) (x : List Held) : (s.withHeld x).outbox = s.outbox := rfl
@[simp] theorem State.withHeld_glz (s : State) (x : List Held) : (s.withHeld x).glz = s.glz := rfl
@[simp] theorem State.withHeld_fab (s : State) (x : List Held) : (s.withHeld x).fab = s.fab := rfl
@[simp] theorem State.withHeld_wheels (s : State) (x : List Held) : (s.withHeld x).wheels = s.wheels := rfl
@[simp] theorem State.withHeld_groups (s : State) (x : List Held) : (s.withHeld x).groups = s.groups := rfl
@[simp] theorem State.withHeld_gsus (s : State) (x : List Held) : (s.withHeld x).gsus = s.gsus := rfl
@[simp] theorem State.withHeld_rts (s : State) (x : List Held) : (s.withHeld x).rts = s.rts := rfl
@[simp] theorem State.withHeld_isl (s : State) (x : List Held) : (s.withHeld x).isl = s.isl := rfl
@[simp] theorem State.withHeld_dci (s : State) (x : List Held) : (s.withHeld x).dci = s.dci := rfl
@[simp] theorem State.withHeld_mod (s : State) (x : List Held) : (s.withHeld x).mod = s.mod := rfl
@[simp] theorem State.withHeld_tiles (s : State) (x : List Held) : (s.withHeld x).tiles = s.tiles := rfl
@[simp] theorem State.withHeld_wins (s : State) (x : List Held) : (s.withHeld x).wins = s.wins := rfl
@[simp] theorem State.withHeld_sit (s : State) (x : List Held) : (s.withHeld x).sit = s.sit := rfl
@[simp] theorem State.withHeld_adcs (s : State) (x : List Held) : (s.withHeld x).adcs = s.adcs := rfl
@[simp] theorem State.withHeld_gx (s : State) (x : List Held) : (s.withHeld x).gx = s.gx := rfl
@[simp] theorem State.withHeld_met (s : State) (x : List Held) : (s.withHeld x).met = s.met := rfl
@[simp] theorem State.withHeld_clk (s : State) (x : List Held) : (s.withHeld x).clk = s.clk := rfl
@[simp] theorem State.withHeld_lanes (s : State) (x : List Held) : (s.withHeld x).lanes = s.lanes := rfl
@[simp] theorem State.withHeld_wlk (s : State) (x : List Held) : (s.withHeld x).wlk = s.wlk := rfl
@[simp] theorem State.withHeld_net (s : State) (x : List Held) : (s.withHeld x).net = s.net := rfl
@[simp] theorem State.withHeld_sag (s : State) (x : List Held) : (s.withHeld x).sag = s.sag := rfl
@[simp] theorem State.withHeld_pug (s : State) (x : List Held) : (s.withHeld x).pug = s.pug := rfl
@[simp] theorem State.withHeld_pwr (s : State) (x : List Held) : (s.withHeld x).pwr = s.pwr := rfl
@[simp] theorem State.withHeld_grg (s : State) (x : List Held) : (s.withHeld x).grg = s.grg := rfl
@[simp] theorem State.withHeld_con (s : State) (x : List Held) : (s.withHeld x).con = s.con := rfl
@[simp] theorem State.withHeld_ports (s : State) (x : List Held) : (s.withHeld x).ports = s.ports := rfl
theorem State.withResp_eq (s : State) (x : Resp) : s.withResp x = { s with resp := x } := rfl
@[simp] theorem State.withResp_get (s : State) (x : Resp) (f : Fld) : (s.withResp x).get f = s.get f := rfl
@[simp] theorem State.withResp_pending (s : State) (x : Resp) : (s.withResp x).pending = s.pending := rfl
@[simp] theorem State.withResp_regs (s : State) (x : Resp) : (s.withResp x).regs = s.regs := rfl
@[simp] theorem State.withResp_slots (s : State) (x : Resp) : (s.withResp x).slots = s.slots := rfl
@[simp] theorem State.withResp_coef (s : State) (x : Resp) : (s.withResp x).coef = s.coef := rfl
@[simp] theorem State.withResp_prog (s : State) (x : Resp) : (s.withResp x).prog = s.prog := rfl
@[simp] theorem State.withResp_sram (s : State) (x : Resp) : (s.withResp x).sram = s.sram := rfl
@[simp] theorem State.withResp_held (s : State) (x : Resp) : (s.withResp x).held = s.held := rfl
@[simp] theorem State.withResp_resp (s : State) (x : Resp) : (s.withResp x).resp = x := rfl
@[simp] theorem State.withResp_free (s : State) (x : Resp) : (s.withResp x).free = s.free := rfl
@[simp] theorem State.withResp_outbox (s : State) (x : Resp) : (s.withResp x).outbox = s.outbox := rfl
@[simp] theorem State.withResp_glz (s : State) (x : Resp) : (s.withResp x).glz = s.glz := rfl
@[simp] theorem State.withResp_fab (s : State) (x : Resp) : (s.withResp x).fab = s.fab := rfl
@[simp] theorem State.withResp_wheels (s : State) (x : Resp) : (s.withResp x).wheels = s.wheels := rfl
@[simp] theorem State.withResp_groups (s : State) (x : Resp) : (s.withResp x).groups = s.groups := rfl
@[simp] theorem State.withResp_gsus (s : State) (x : Resp) : (s.withResp x).gsus = s.gsus := rfl
@[simp] theorem State.withResp_rts (s : State) (x : Resp) : (s.withResp x).rts = s.rts := rfl
@[simp] theorem State.withResp_isl (s : State) (x : Resp) : (s.withResp x).isl = s.isl := rfl
@[simp] theorem State.withResp_dci (s : State) (x : Resp) : (s.withResp x).dci = s.dci := rfl
@[simp] theorem State.withResp_mod (s : State) (x : Resp) : (s.withResp x).mod = s.mod := rfl
@[simp] theorem State.withResp_tiles (s : State) (x : Resp) : (s.withResp x).tiles = s.tiles := rfl
@[simp] theorem State.withResp_wins (s : State) (x : Resp) : (s.withResp x).wins = s.wins := rfl
@[simp] theorem State.withResp_sit (s : State) (x : Resp) : (s.withResp x).sit = s.sit := rfl
@[simp] theorem State.withResp_adcs (s : State) (x : Resp) : (s.withResp x).adcs = s.adcs := rfl
@[simp] theorem State.withResp_gx (s : State) (x : Resp) : (s.withResp x).gx = s.gx := rfl
@[simp] theorem State.withResp_met (s : State) (x : Resp) : (s.withResp x).met = s.met := rfl
@[simp] theorem State.withResp_clk (s : State) (x : Resp) : (s.withResp x).clk = s.clk := rfl
@[simp] theorem State.withResp_lanes (s : State) (x : Resp) : (s.withResp x).lanes = s.lanes := rfl
@[simp] theorem State.withResp_wlk (s : State) (x : Resp) : (s.withResp x).wlk = s.wlk := rfl
@[simp] theorem State.withResp_net (s : State) (x : Resp) : (s.withResp x).net = s.net := rfl
@[simp] theorem State.withResp_sag (s : State) (x : Resp) : (s.withResp x).sag = s.sag := rfl
@[simp] theorem State.withResp_pug (s : State) (x : Resp) : (s.withResp x).pug = s.pug := rfl
@[simp] theorem State.withResp_pwr (s : State) (x : Resp) : (s.withResp x).pwr = s.pwr := rfl
@[simp] theorem State.withResp_grg (s : State) (x : Resp) : (s.withResp x).grg = s.grg := rfl
@[simp] theorem State.withResp_con (s : State) (x : Resp) : (s.withResp x).con = s.con := rfl
@[simp] theorem State.withResp_ports (s : State) (x : Resp) : (s.withResp x).ports = s.ports := rfl
theorem State.withFree_eq (s : State) (x : Nat) : s.withFree x = { s with free := x } := rfl
@[simp] theorem State.withFree_get (s : State) (x : Nat) (f : Fld) : (s.withFree x).get f = s.get f := rfl
@[simp] theorem State.withFree_pending (s : State) (x : Nat) : (s.withFree x).pending = s.pending := rfl
@[simp] theorem State.withFree_regs (s : State) (x : Nat) : (s.withFree x).regs = s.regs := rfl
@[simp] theorem State.withFree_slots (s : State) (x : Nat) : (s.withFree x).slots = s.slots := rfl
@[simp] theorem State.withFree_coef (s : State) (x : Nat) : (s.withFree x).coef = s.coef := rfl
@[simp] theorem State.withFree_prog (s : State) (x : Nat) : (s.withFree x).prog = s.prog := rfl
@[simp] theorem State.withFree_sram (s : State) (x : Nat) : (s.withFree x).sram = s.sram := rfl
@[simp] theorem State.withFree_held (s : State) (x : Nat) : (s.withFree x).held = s.held := rfl
@[simp] theorem State.withFree_resp (s : State) (x : Nat) : (s.withFree x).resp = s.resp := rfl
@[simp] theorem State.withFree_free (s : State) (x : Nat) : (s.withFree x).free = x := rfl
@[simp] theorem State.withFree_outbox (s : State) (x : Nat) : (s.withFree x).outbox = s.outbox := rfl
@[simp] theorem State.withFree_glz (s : State) (x : Nat) : (s.withFree x).glz = s.glz := rfl
@[simp] theorem State.withFree_fab (s : State) (x : Nat) : (s.withFree x).fab = s.fab := rfl
@[simp] theorem State.withFree_wheels (s : State) (x : Nat) : (s.withFree x).wheels = s.wheels := rfl
@[simp] theorem State.withFree_groups (s : State) (x : Nat) : (s.withFree x).groups = s.groups := rfl
@[simp] theorem State.withFree_gsus (s : State) (x : Nat) : (s.withFree x).gsus = s.gsus := rfl
@[simp] theorem State.withFree_rts (s : State) (x : Nat) : (s.withFree x).rts = s.rts := rfl
@[simp] theorem State.withFree_isl (s : State) (x : Nat) : (s.withFree x).isl = s.isl := rfl
@[simp] theorem State.withFree_dci (s : State) (x : Nat) : (s.withFree x).dci = s.dci := rfl
@[simp] theorem State.withFree_mod (s : State) (x : Nat) : (s.withFree x).mod = s.mod := rfl
@[simp] theorem State.withFree_tiles (s : State) (x : Nat) : (s.withFree x).tiles = s.tiles := rfl
@[simp] theorem State.withFree_wins (s : State) (x : Nat) : (s.withFree x).wins = s.wins := rfl
@[simp] theorem State.withFree_sit (s : State) (x : Nat) : (s.withFree x).sit = s.sit := rfl
@[simp] theorem State.withFree_adcs (s : State) (x : Nat) : (s.withFree x).adcs = s.adcs := rfl
@[simp] theorem State.withFree_gx (s : State) (x : Nat) : (s.withFree x).gx = s.gx := rfl
@[simp] theorem State.withFree_met (s : State) (x : Nat) : (s.withFree x).met = s.met := rfl
@[simp] theorem State.withFree_clk (s : State) (x : Nat) : (s.withFree x).clk = s.clk := rfl
@[simp] theorem State.withFree_lanes (s : State) (x : Nat) : (s.withFree x).lanes = s.lanes := rfl
@[simp] theorem State.withFree_wlk (s : State) (x : Nat) : (s.withFree x).wlk = s.wlk := rfl
@[simp] theorem State.withFree_net (s : State) (x : Nat) : (s.withFree x).net = s.net := rfl
@[simp] theorem State.withFree_sag (s : State) (x : Nat) : (s.withFree x).sag = s.sag := rfl
@[simp] theorem State.withFree_pug (s : State) (x : Nat) : (s.withFree x).pug = s.pug := rfl
@[simp] theorem State.withFree_pwr (s : State) (x : Nat) : (s.withFree x).pwr = s.pwr := rfl
@[simp] theorem State.withFree_grg (s : State) (x : Nat) : (s.withFree x).grg = s.grg := rfl
@[simp] theorem State.withFree_con (s : State) (x : Nat) : (s.withFree x).con = s.con := rfl
@[simp] theorem State.withFree_ports (s : State) (x : Nat) : (s.withFree x).ports = s.ports := rfl
theorem State.withOutbox_eq (s : State) (x : List OutUnit) : s.withOutbox x = { s with outbox := x } := rfl
@[simp] theorem State.withOutbox_get (s : State) (x : List OutUnit) (f : Fld) : (s.withOutbox x).get f = s.get f := rfl
@[simp] theorem State.withOutbox_pending (s : State) (x : List OutUnit) : (s.withOutbox x).pending = s.pending := rfl
@[simp] theorem State.withOutbox_regs (s : State) (x : List OutUnit) : (s.withOutbox x).regs = s.regs := rfl
@[simp] theorem State.withOutbox_slots (s : State) (x : List OutUnit) : (s.withOutbox x).slots = s.slots := rfl
@[simp] theorem State.withOutbox_coef (s : State) (x : List OutUnit) : (s.withOutbox x).coef = s.coef := rfl
@[simp] theorem State.withOutbox_prog (s : State) (x : List OutUnit) : (s.withOutbox x).prog = s.prog := rfl
@[simp] theorem State.withOutbox_sram (s : State) (x : List OutUnit) : (s.withOutbox x).sram = s.sram := rfl
@[simp] theorem State.withOutbox_held (s : State) (x : List OutUnit) : (s.withOutbox x).held = s.held := rfl
@[simp] theorem State.withOutbox_resp (s : State) (x : List OutUnit) : (s.withOutbox x).resp = s.resp := rfl
@[simp] theorem State.withOutbox_free (s : State) (x : List OutUnit) : (s.withOutbox x).free = s.free := rfl
@[simp] theorem State.withOutbox_outbox (s : State) (x : List OutUnit) : (s.withOutbox x).outbox = x := rfl
@[simp] theorem State.withOutbox_glz (s : State) (x : List OutUnit) : (s.withOutbox x).glz = s.glz := rfl
@[simp] theorem State.withOutbox_fab (s : State) (x : List OutUnit) : (s.withOutbox x).fab = s.fab := rfl
@[simp] theorem State.withOutbox_wheels (s : State) (x : List OutUnit) : (s.withOutbox x).wheels = s.wheels := rfl
@[simp] theorem State.withOutbox_groups (s : State) (x : List OutUnit) : (s.withOutbox x).groups = s.groups := rfl
@[simp] theorem State.withOutbox_gsus (s : State) (x : List OutUnit) : (s.withOutbox x).gsus = s.gsus := rfl
@[simp] theorem State.withOutbox_rts (s : State) (x : List OutUnit) : (s.withOutbox x).rts = s.rts := rfl
@[simp] theorem State.withOutbox_isl (s : State) (x : List OutUnit) : (s.withOutbox x).isl = s.isl := rfl
@[simp] theorem State.withOutbox_dci (s : State) (x : List OutUnit) : (s.withOutbox x).dci = s.dci := rfl
@[simp] theorem State.withOutbox_mod (s : State) (x : List OutUnit) : (s.withOutbox x).mod = s.mod := rfl
@[simp] theorem State.withOutbox_tiles (s : State) (x : List OutUnit) : (s.withOutbox x).tiles = s.tiles := rfl
@[simp] theorem State.withOutbox_wins (s : State) (x : List OutUnit) : (s.withOutbox x).wins = s.wins := rfl
@[simp] theorem State.withOutbox_sit (s : State) (x : List OutUnit) : (s.withOutbox x).sit = s.sit := rfl
@[simp] theorem State.withOutbox_adcs (s : State) (x : List OutUnit) : (s.withOutbox x).adcs = s.adcs := rfl
@[simp] theorem State.withOutbox_gx (s : State) (x : List OutUnit) : (s.withOutbox x).gx = s.gx := rfl
@[simp] theorem State.withOutbox_met (s : State) (x : List OutUnit) : (s.withOutbox x).met = s.met := rfl
@[simp] theorem State.withOutbox_clk (s : State) (x : List OutUnit) : (s.withOutbox x).clk = s.clk := rfl
@[simp] theorem State.withOutbox_lanes (s : State) (x : List OutUnit) : (s.withOutbox x).lanes = s.lanes := rfl
@[simp] theorem State.withOutbox_wlk (s : State) (x : List OutUnit) : (s.withOutbox x).wlk = s.wlk := rfl
@[simp] theorem State.withOutbox_net (s : State) (x : List OutUnit) : (s.withOutbox x).net = s.net := rfl
@[simp] theorem State.withOutbox_sag (s : State) (x : List OutUnit) : (s.withOutbox x).sag = s.sag := rfl
@[simp] theorem State.withOutbox_pug (s : State) (x : List OutUnit) : (s.withOutbox x).pug = s.pug := rfl
@[simp] theorem State.withOutbox_pwr (s : State) (x : List OutUnit) : (s.withOutbox x).pwr = s.pwr := rfl
@[simp] theorem State.withOutbox_grg (s : State) (x : List OutUnit) : (s.withOutbox x).grg = s.grg := rfl
@[simp] theorem State.withOutbox_con (s : State) (x : List OutUnit) : (s.withOutbox x).con = s.con := rfl
@[simp] theorem State.withOutbox_ports (s : State) (x : List OutUnit) : (s.withOutbox x).ports = s.ports := rfl
theorem State.withGlz_eq (s : State) (x : GlzState) : s.withGlz x = { s with glz := x } := rfl
@[simp] theorem State.withGlz_get (s : State) (x : GlzState) (f : Fld) : (s.withGlz x).get f = s.get f := rfl
@[simp] theorem State.withGlz_pending (s : State) (x : GlzState) : (s.withGlz x).pending = s.pending := rfl
@[simp] theorem State.withGlz_regs (s : State) (x : GlzState) : (s.withGlz x).regs = s.regs := rfl
@[simp] theorem State.withGlz_slots (s : State) (x : GlzState) : (s.withGlz x).slots = s.slots := rfl
@[simp] theorem State.withGlz_coef (s : State) (x : GlzState) : (s.withGlz x).coef = s.coef := rfl
@[simp] theorem State.withGlz_prog (s : State) (x : GlzState) : (s.withGlz x).prog = s.prog := rfl
@[simp] theorem State.withGlz_sram (s : State) (x : GlzState) : (s.withGlz x).sram = s.sram := rfl
@[simp] theorem State.withGlz_held (s : State) (x : GlzState) : (s.withGlz x).held = s.held := rfl
@[simp] theorem State.withGlz_resp (s : State) (x : GlzState) : (s.withGlz x).resp = s.resp := rfl
@[simp] theorem State.withGlz_free (s : State) (x : GlzState) : (s.withGlz x).free = s.free := rfl
@[simp] theorem State.withGlz_outbox (s : State) (x : GlzState) : (s.withGlz x).outbox = s.outbox := rfl
@[simp] theorem State.withGlz_glz (s : State) (x : GlzState) : (s.withGlz x).glz = x := rfl
@[simp] theorem State.withGlz_fab (s : State) (x : GlzState) : (s.withGlz x).fab = s.fab := rfl
@[simp] theorem State.withGlz_wheels (s : State) (x : GlzState) : (s.withGlz x).wheels = s.wheels := rfl
@[simp] theorem State.withGlz_groups (s : State) (x : GlzState) : (s.withGlz x).groups = s.groups := rfl
@[simp] theorem State.withGlz_gsus (s : State) (x : GlzState) : (s.withGlz x).gsus = s.gsus := rfl
@[simp] theorem State.withGlz_rts (s : State) (x : GlzState) : (s.withGlz x).rts = s.rts := rfl
@[simp] theorem State.withGlz_isl (s : State) (x : GlzState) : (s.withGlz x).isl = s.isl := rfl
@[simp] theorem State.withGlz_dci (s : State) (x : GlzState) : (s.withGlz x).dci = s.dci := rfl
@[simp] theorem State.withGlz_mod (s : State) (x : GlzState) : (s.withGlz x).mod = s.mod := rfl
@[simp] theorem State.withGlz_tiles (s : State) (x : GlzState) : (s.withGlz x).tiles = s.tiles := rfl
@[simp] theorem State.withGlz_wins (s : State) (x : GlzState) : (s.withGlz x).wins = s.wins := rfl
@[simp] theorem State.withGlz_sit (s : State) (x : GlzState) : (s.withGlz x).sit = s.sit := rfl
@[simp] theorem State.withGlz_adcs (s : State) (x : GlzState) : (s.withGlz x).adcs = s.adcs := rfl
@[simp] theorem State.withGlz_gx (s : State) (x : GlzState) : (s.withGlz x).gx = s.gx := rfl
@[simp] theorem State.withGlz_met (s : State) (x : GlzState) : (s.withGlz x).met = s.met := rfl
@[simp] theorem State.withGlz_clk (s : State) (x : GlzState) : (s.withGlz x).clk = s.clk := rfl
@[simp] theorem State.withGlz_lanes (s : State) (x : GlzState) : (s.withGlz x).lanes = s.lanes := rfl
@[simp] theorem State.withGlz_wlk (s : State) (x : GlzState) : (s.withGlz x).wlk = s.wlk := rfl
@[simp] theorem State.withGlz_net (s : State) (x : GlzState) : (s.withGlz x).net = s.net := rfl
@[simp] theorem State.withGlz_sag (s : State) (x : GlzState) : (s.withGlz x).sag = s.sag := rfl
@[simp] theorem State.withGlz_pug (s : State) (x : GlzState) : (s.withGlz x).pug = s.pug := rfl
@[simp] theorem State.withGlz_pwr (s : State) (x : GlzState) : (s.withGlz x).pwr = s.pwr := rfl
@[simp] theorem State.withGlz_grg (s : State) (x : GlzState) : (s.withGlz x).grg = s.grg := rfl
@[simp] theorem State.withGlz_con (s : State) (x : GlzState) : (s.withGlz x).con = s.con := rfl
@[simp] theorem State.withGlz_ports (s : State) (x : GlzState) : (s.withGlz x).ports = s.ports := rfl
theorem State.withFab_eq (s : State) (x : Fabric) : s.withFab x = { s with fab := x } := rfl
@[simp] theorem State.withFab_get (s : State) (x : Fabric) (f : Fld) : (s.withFab x).get f = s.get f := rfl
@[simp] theorem State.withFab_pending (s : State) (x : Fabric) : (s.withFab x).pending = s.pending := rfl
@[simp] theorem State.withFab_regs (s : State) (x : Fabric) : (s.withFab x).regs = s.regs := rfl
@[simp] theorem State.withFab_slots (s : State) (x : Fabric) : (s.withFab x).slots = s.slots := rfl
@[simp] theorem State.withFab_coef (s : State) (x : Fabric) : (s.withFab x).coef = s.coef := rfl
@[simp] theorem State.withFab_prog (s : State) (x : Fabric) : (s.withFab x).prog = s.prog := rfl
@[simp] theorem State.withFab_sram (s : State) (x : Fabric) : (s.withFab x).sram = s.sram := rfl
@[simp] theorem State.withFab_held (s : State) (x : Fabric) : (s.withFab x).held = s.held := rfl
@[simp] theorem State.withFab_resp (s : State) (x : Fabric) : (s.withFab x).resp = s.resp := rfl
@[simp] theorem State.withFab_free (s : State) (x : Fabric) : (s.withFab x).free = s.free := rfl
@[simp] theorem State.withFab_outbox (s : State) (x : Fabric) : (s.withFab x).outbox = s.outbox := rfl
@[simp] theorem State.withFab_glz (s : State) (x : Fabric) : (s.withFab x).glz = s.glz := rfl
@[simp] theorem State.withFab_fab (s : State) (x : Fabric) : (s.withFab x).fab = x := rfl
@[simp] theorem State.withFab_wheels (s : State) (x : Fabric) : (s.withFab x).wheels = s.wheels := rfl
@[simp] theorem State.withFab_groups (s : State) (x : Fabric) : (s.withFab x).groups = s.groups := rfl
@[simp] theorem State.withFab_gsus (s : State) (x : Fabric) : (s.withFab x).gsus = s.gsus := rfl
@[simp] theorem State.withFab_rts (s : State) (x : Fabric) : (s.withFab x).rts = s.rts := rfl
@[simp] theorem State.withFab_isl (s : State) (x : Fabric) : (s.withFab x).isl = s.isl := rfl
@[simp] theorem State.withFab_dci (s : State) (x : Fabric) : (s.withFab x).dci = s.dci := rfl
@[simp] theorem State.withFab_mod (s : State) (x : Fabric) : (s.withFab x).mod = s.mod := rfl
@[simp] theorem State.withFab_tiles (s : State) (x : Fabric) : (s.withFab x).tiles = s.tiles := rfl
@[simp] theorem State.withFab_wins (s : State) (x : Fabric) : (s.withFab x).wins = s.wins := rfl
@[simp] theorem State.withFab_sit (s : State) (x : Fabric) : (s.withFab x).sit = s.sit := rfl
@[simp] theorem State.withFab_adcs (s : State) (x : Fabric) : (s.withFab x).adcs = s.adcs := rfl
@[simp] theorem State.withFab_gx (s : State) (x : Fabric) : (s.withFab x).gx = s.gx := rfl
@[simp] theorem State.withFab_met (s : State) (x : Fabric) : (s.withFab x).met = s.met := rfl
@[simp] theorem State.withFab_clk (s : State) (x : Fabric) : (s.withFab x).clk = s.clk := rfl
@[simp] theorem State.withFab_lanes (s : State) (x : Fabric) : (s.withFab x).lanes = s.lanes := rfl
@[simp] theorem State.withFab_wlk (s : State) (x : Fabric) : (s.withFab x).wlk = s.wlk := rfl
@[simp] theorem State.withFab_net (s : State) (x : Fabric) : (s.withFab x).net = s.net := rfl
@[simp] theorem State.withFab_sag (s : State) (x : Fabric) : (s.withFab x).sag = s.sag := rfl
@[simp] theorem State.withFab_pug (s : State) (x : Fabric) : (s.withFab x).pug = s.pug := rfl
@[simp] theorem State.withFab_pwr (s : State) (x : Fabric) : (s.withFab x).pwr = s.pwr := rfl
@[simp] theorem State.withFab_grg (s : State) (x : Fabric) : (s.withFab x).grg = s.grg := rfl
@[simp] theorem State.withFab_con (s : State) (x : Fabric) : (s.withFab x).con = s.con := rfl
@[simp] theorem State.withFab_ports (s : State) (x : Fabric) : (s.withFab x).ports = s.ports := rfl
theorem State.withWheels_eq (s : State) (x : Vector Wheel 64) : s.withWheels x = { s with wheels := x } := rfl
@[simp] theorem State.withWheels_get (s : State) (x : Vector Wheel 64) (f : Fld) : (s.withWheels x).get f = s.get f := rfl
@[simp] theorem State.withWheels_pending (s : State) (x : Vector Wheel 64) : (s.withWheels x).pending = s.pending := rfl
@[simp] theorem State.withWheels_regs (s : State) (x : Vector Wheel 64) : (s.withWheels x).regs = s.regs := rfl
@[simp] theorem State.withWheels_slots (s : State) (x : Vector Wheel 64) : (s.withWheels x).slots = s.slots := rfl
@[simp] theorem State.withWheels_coef (s : State) (x : Vector Wheel 64) : (s.withWheels x).coef = s.coef := rfl
@[simp] theorem State.withWheels_prog (s : State) (x : Vector Wheel 64) : (s.withWheels x).prog = s.prog := rfl
@[simp] theorem State.withWheels_sram (s : State) (x : Vector Wheel 64) : (s.withWheels x).sram = s.sram := rfl
@[simp] theorem State.withWheels_held (s : State) (x : Vector Wheel 64) : (s.withWheels x).held = s.held := rfl
@[simp] theorem State.withWheels_resp (s : State) (x : Vector Wheel 64) : (s.withWheels x).resp = s.resp := rfl
@[simp] theorem State.withWheels_free (s : State) (x : Vector Wheel 64) : (s.withWheels x).free = s.free := rfl
@[simp] theorem State.withWheels_outbox (s : State) (x : Vector Wheel 64) : (s.withWheels x).outbox = s.outbox := rfl
@[simp] theorem State.withWheels_glz (s : State) (x : Vector Wheel 64) : (s.withWheels x).glz = s.glz := rfl
@[simp] theorem State.withWheels_fab (s : State) (x : Vector Wheel 64) : (s.withWheels x).fab = s.fab := rfl
@[simp] theorem State.withWheels_wheels (s : State) (x : Vector Wheel 64) : (s.withWheels x).wheels = x := rfl
@[simp] theorem State.withWheels_groups (s : State) (x : Vector Wheel 64) : (s.withWheels x).groups = s.groups := rfl
@[simp] theorem State.withWheels_gsus (s : State) (x : Vector Wheel 64) : (s.withWheels x).gsus = s.gsus := rfl
@[simp] theorem State.withWheels_rts (s : State) (x : Vector Wheel 64) : (s.withWheels x).rts = s.rts := rfl
@[simp] theorem State.withWheels_isl (s : State) (x : Vector Wheel 64) : (s.withWheels x).isl = s.isl := rfl
@[simp] theorem State.withWheels_dci (s : State) (x : Vector Wheel 64) : (s.withWheels x).dci = s.dci := rfl
@[simp] theorem State.withWheels_mod (s : State) (x : Vector Wheel 64) : (s.withWheels x).mod = s.mod := rfl
@[simp] theorem State.withWheels_tiles (s : State) (x : Vector Wheel 64) : (s.withWheels x).tiles = s.tiles := rfl
@[simp] theorem State.withWheels_wins (s : State) (x : Vector Wheel 64) : (s.withWheels x).wins = s.wins := rfl
@[simp] theorem State.withWheels_sit (s : State) (x : Vector Wheel 64) : (s.withWheels x).sit = s.sit := rfl
@[simp] theorem State.withWheels_adcs (s : State) (x : Vector Wheel 64) : (s.withWheels x).adcs = s.adcs := rfl
@[simp] theorem State.withWheels_gx (s : State) (x : Vector Wheel 64) : (s.withWheels x).gx = s.gx := rfl
@[simp] theorem State.withWheels_met (s : State) (x : Vector Wheel 64) : (s.withWheels x).met = s.met := rfl
@[simp] theorem State.withWheels_clk (s : State) (x : Vector Wheel 64) : (s.withWheels x).clk = s.clk := rfl
@[simp] theorem State.withWheels_lanes (s : State) (x : Vector Wheel 64) : (s.withWheels x).lanes = s.lanes := rfl
@[simp] theorem State.withWheels_wlk (s : State) (x : Vector Wheel 64) : (s.withWheels x).wlk = s.wlk := rfl
@[simp] theorem State.withWheels_net (s : State) (x : Vector Wheel 64) : (s.withWheels x).net = s.net := rfl
@[simp] theorem State.withWheels_sag (s : State) (x : Vector Wheel 64) : (s.withWheels x).sag = s.sag := rfl
@[simp] theorem State.withWheels_pug (s : State) (x : Vector Wheel 64) : (s.withWheels x).pug = s.pug := rfl
@[simp] theorem State.withWheels_pwr (s : State) (x : Vector Wheel 64) : (s.withWheels x).pwr = s.pwr := rfl
@[simp] theorem State.withWheels_grg (s : State) (x : Vector Wheel 64) : (s.withWheels x).grg = s.grg := rfl
@[simp] theorem State.withWheels_con (s : State) (x : Vector Wheel 64) : (s.withWheels x).con = s.con := rfl
@[simp] theorem State.withWheels_ports (s : State) (x : Vector Wheel 64) : (s.withWheels x).ports = s.ports := rfl
theorem State.withGroups_eq (s : State) (x : Vector Group 8) : s.withGroups x = { s with groups := x } := rfl
@[simp] theorem State.withGroups_get (s : State) (x : Vector Group 8) (f : Fld) : (s.withGroups x).get f = s.get f := rfl
@[simp] theorem State.withGroups_pending (s : State) (x : Vector Group 8) : (s.withGroups x).pending = s.pending := rfl
@[simp] theorem State.withGroups_regs (s : State) (x : Vector Group 8) : (s.withGroups x).regs = s.regs := rfl
@[simp] theorem State.withGroups_slots (s : State) (x : Vector Group 8) : (s.withGroups x).slots = s.slots := rfl
@[simp] theorem State.withGroups_coef (s : State) (x : Vector Group 8) : (s.withGroups x).coef = s.coef := rfl
@[simp] theorem State.withGroups_prog (s : State) (x : Vector Group 8) : (s.withGroups x).prog = s.prog := rfl
@[simp] theorem State.withGroups_sram (s : State) (x : Vector Group 8) : (s.withGroups x).sram = s.sram := rfl
@[simp] theorem State.withGroups_held (s : State) (x : Vector Group 8) : (s.withGroups x).held = s.held := rfl
@[simp] theorem State.withGroups_resp (s : State) (x : Vector Group 8) : (s.withGroups x).resp = s.resp := rfl
@[simp] theorem State.withGroups_free (s : State) (x : Vector Group 8) : (s.withGroups x).free = s.free := rfl
@[simp] theorem State.withGroups_outbox (s : State) (x : Vector Group 8) : (s.withGroups x).outbox = s.outbox := rfl
@[simp] theorem State.withGroups_glz (s : State) (x : Vector Group 8) : (s.withGroups x).glz = s.glz := rfl
@[simp] theorem State.withGroups_fab (s : State) (x : Vector Group 8) : (s.withGroups x).fab = s.fab := rfl
@[simp] theorem State.withGroups_wheels (s : State) (x : Vector Group 8) : (s.withGroups x).wheels = s.wheels := rfl
@[simp] theorem State.withGroups_groups (s : State) (x : Vector Group 8) : (s.withGroups x).groups = x := rfl
@[simp] theorem State.withGroups_gsus (s : State) (x : Vector Group 8) : (s.withGroups x).gsus = s.gsus := rfl
@[simp] theorem State.withGroups_rts (s : State) (x : Vector Group 8) : (s.withGroups x).rts = s.rts := rfl
@[simp] theorem State.withGroups_isl (s : State) (x : Vector Group 8) : (s.withGroups x).isl = s.isl := rfl
@[simp] theorem State.withGroups_dci (s : State) (x : Vector Group 8) : (s.withGroups x).dci = s.dci := rfl
@[simp] theorem State.withGroups_mod (s : State) (x : Vector Group 8) : (s.withGroups x).mod = s.mod := rfl
@[simp] theorem State.withGroups_tiles (s : State) (x : Vector Group 8) : (s.withGroups x).tiles = s.tiles := rfl
@[simp] theorem State.withGroups_wins (s : State) (x : Vector Group 8) : (s.withGroups x).wins = s.wins := rfl
@[simp] theorem State.withGroups_sit (s : State) (x : Vector Group 8) : (s.withGroups x).sit = s.sit := rfl
@[simp] theorem State.withGroups_adcs (s : State) (x : Vector Group 8) : (s.withGroups x).adcs = s.adcs := rfl
@[simp] theorem State.withGroups_gx (s : State) (x : Vector Group 8) : (s.withGroups x).gx = s.gx := rfl
@[simp] theorem State.withGroups_met (s : State) (x : Vector Group 8) : (s.withGroups x).met = s.met := rfl
@[simp] theorem State.withGroups_clk (s : State) (x : Vector Group 8) : (s.withGroups x).clk = s.clk := rfl
@[simp] theorem State.withGroups_lanes (s : State) (x : Vector Group 8) : (s.withGroups x).lanes = s.lanes := rfl
@[simp] theorem State.withGroups_wlk (s : State) (x : Vector Group 8) : (s.withGroups x).wlk = s.wlk := rfl
@[simp] theorem State.withGroups_net (s : State) (x : Vector Group 8) : (s.withGroups x).net = s.net := rfl
@[simp] theorem State.withGroups_sag (s : State) (x : Vector Group 8) : (s.withGroups x).sag = s.sag := rfl
@[simp] theorem State.withGroups_pug (s : State) (x : Vector Group 8) : (s.withGroups x).pug = s.pug := rfl
@[simp] theorem State.withGroups_pwr (s : State) (x : Vector Group 8) : (s.withGroups x).pwr = s.pwr := rfl
@[simp] theorem State.withGroups_grg (s : State) (x : Vector Group 8) : (s.withGroups x).grg = s.grg := rfl
@[simp] theorem State.withGroups_con (s : State) (x : Vector Group 8) : (s.withGroups x).con = s.con := rfl
@[simp] theorem State.withGroups_ports (s : State) (x : Vector Group 8) : (s.withGroups x).ports = s.ports := rfl
theorem State.withGsus_eq (s : State) (x : Vector Gsu 4) : s.withGsus x = { s with gsus := x } := rfl
@[simp] theorem State.withGsus_get (s : State) (x : Vector Gsu 4) (f : Fld) : (s.withGsus x).get f = s.get f := rfl
@[simp] theorem State.withGsus_pending (s : State) (x : Vector Gsu 4) : (s.withGsus x).pending = s.pending := rfl
@[simp] theorem State.withGsus_regs (s : State) (x : Vector Gsu 4) : (s.withGsus x).regs = s.regs := rfl
@[simp] theorem State.withGsus_slots (s : State) (x : Vector Gsu 4) : (s.withGsus x).slots = s.slots := rfl
@[simp] theorem State.withGsus_coef (s : State) (x : Vector Gsu 4) : (s.withGsus x).coef = s.coef := rfl
@[simp] theorem State.withGsus_prog (s : State) (x : Vector Gsu 4) : (s.withGsus x).prog = s.prog := rfl
@[simp] theorem State.withGsus_sram (s : State) (x : Vector Gsu 4) : (s.withGsus x).sram = s.sram := rfl
@[simp] theorem State.withGsus_held (s : State) (x : Vector Gsu 4) : (s.withGsus x).held = s.held := rfl
@[simp] theorem State.withGsus_resp (s : State) (x : Vector Gsu 4) : (s.withGsus x).resp = s.resp := rfl
@[simp] theorem State.withGsus_free (s : State) (x : Vector Gsu 4) : (s.withGsus x).free = s.free := rfl
@[simp] theorem State.withGsus_outbox (s : State) (x : Vector Gsu 4) : (s.withGsus x).outbox = s.outbox := rfl
@[simp] theorem State.withGsus_glz (s : State) (x : Vector Gsu 4) : (s.withGsus x).glz = s.glz := rfl
@[simp] theorem State.withGsus_fab (s : State) (x : Vector Gsu 4) : (s.withGsus x).fab = s.fab := rfl
@[simp] theorem State.withGsus_wheels (s : State) (x : Vector Gsu 4) : (s.withGsus x).wheels = s.wheels := rfl
@[simp] theorem State.withGsus_groups (s : State) (x : Vector Gsu 4) : (s.withGsus x).groups = s.groups := rfl
@[simp] theorem State.withGsus_gsus (s : State) (x : Vector Gsu 4) : (s.withGsus x).gsus = x := rfl
@[simp] theorem State.withGsus_rts (s : State) (x : Vector Gsu 4) : (s.withGsus x).rts = s.rts := rfl
@[simp] theorem State.withGsus_isl (s : State) (x : Vector Gsu 4) : (s.withGsus x).isl = s.isl := rfl
@[simp] theorem State.withGsus_dci (s : State) (x : Vector Gsu 4) : (s.withGsus x).dci = s.dci := rfl
@[simp] theorem State.withGsus_mod (s : State) (x : Vector Gsu 4) : (s.withGsus x).mod = s.mod := rfl
@[simp] theorem State.withGsus_tiles (s : State) (x : Vector Gsu 4) : (s.withGsus x).tiles = s.tiles := rfl
@[simp] theorem State.withGsus_wins (s : State) (x : Vector Gsu 4) : (s.withGsus x).wins = s.wins := rfl
@[simp] theorem State.withGsus_sit (s : State) (x : Vector Gsu 4) : (s.withGsus x).sit = s.sit := rfl
@[simp] theorem State.withGsus_adcs (s : State) (x : Vector Gsu 4) : (s.withGsus x).adcs = s.adcs := rfl
@[simp] theorem State.withGsus_gx (s : State) (x : Vector Gsu 4) : (s.withGsus x).gx = s.gx := rfl
@[simp] theorem State.withGsus_met (s : State) (x : Vector Gsu 4) : (s.withGsus x).met = s.met := rfl
@[simp] theorem State.withGsus_clk (s : State) (x : Vector Gsu 4) : (s.withGsus x).clk = s.clk := rfl
@[simp] theorem State.withGsus_lanes (s : State) (x : Vector Gsu 4) : (s.withGsus x).lanes = s.lanes := rfl
@[simp] theorem State.withGsus_wlk (s : State) (x : Vector Gsu 4) : (s.withGsus x).wlk = s.wlk := rfl
@[simp] theorem State.withGsus_net (s : State) (x : Vector Gsu 4) : (s.withGsus x).net = s.net := rfl
@[simp] theorem State.withGsus_sag (s : State) (x : Vector Gsu 4) : (s.withGsus x).sag = s.sag := rfl
@[simp] theorem State.withGsus_pug (s : State) (x : Vector Gsu 4) : (s.withGsus x).pug = s.pug := rfl
@[simp] theorem State.withGsus_pwr (s : State) (x : Vector Gsu 4) : (s.withGsus x).pwr = s.pwr := rfl
@[simp] theorem State.withGsus_grg (s : State) (x : Vector Gsu 4) : (s.withGsus x).grg = s.grg := rfl
@[simp] theorem State.withGsus_con (s : State) (x : Vector Gsu 4) : (s.withGsus x).con = s.con := rfl
@[simp] theorem State.withGsus_ports (s : State) (x : Vector Gsu 4) : (s.withGsus x).ports = s.ports := rfl
theorem State.withRts_eq (s : State) (x : Rts) : s.withRts x = { s with rts := x } := rfl
@[simp] theorem State.withRts_get (s : State) (x : Rts) (f : Fld) : (s.withRts x).get f = s.get f := rfl
@[simp] theorem State.withRts_pending (s : State) (x : Rts) : (s.withRts x).pending = s.pending := rfl
@[simp] theorem State.withRts_regs (s : State) (x : Rts) : (s.withRts x).regs = s.regs := rfl
@[simp] theorem State.withRts_slots (s : State) (x : Rts) : (s.withRts x).slots = s.slots := rfl
@[simp] theorem State.withRts_coef (s : State) (x : Rts) : (s.withRts x).coef = s.coef := rfl
@[simp] theorem State.withRts_prog (s : State) (x : Rts) : (s.withRts x).prog = s.prog := rfl
@[simp] theorem State.withRts_sram (s : State) (x : Rts) : (s.withRts x).sram = s.sram := rfl
@[simp] theorem State.withRts_held (s : State) (x : Rts) : (s.withRts x).held = s.held := rfl
@[simp] theorem State.withRts_resp (s : State) (x : Rts) : (s.withRts x).resp = s.resp := rfl
@[simp] theorem State.withRts_free (s : State) (x : Rts) : (s.withRts x).free = s.free := rfl
@[simp] theorem State.withRts_outbox (s : State) (x : Rts) : (s.withRts x).outbox = s.outbox := rfl
@[simp] theorem State.withRts_glz (s : State) (x : Rts) : (s.withRts x).glz = s.glz := rfl
@[simp] theorem State.withRts_fab (s : State) (x : Rts) : (s.withRts x).fab = s.fab := rfl
@[simp] theorem State.withRts_wheels (s : State) (x : Rts) : (s.withRts x).wheels = s.wheels := rfl
@[simp] theorem State.withRts_groups (s : State) (x : Rts) : (s.withRts x).groups = s.groups := rfl
@[simp] theorem State.withRts_gsus (s : State) (x : Rts) : (s.withRts x).gsus = s.gsus := rfl
@[simp] theorem State.withRts_rts (s : State) (x : Rts) : (s.withRts x).rts = x := rfl
@[simp] theorem State.withRts_isl (s : State) (x : Rts) : (s.withRts x).isl = s.isl := rfl
@[simp] theorem State.withRts_dci (s : State) (x : Rts) : (s.withRts x).dci = s.dci := rfl
@[simp] theorem State.withRts_mod (s : State) (x : Rts) : (s.withRts x).mod = s.mod := rfl
@[simp] theorem State.withRts_tiles (s : State) (x : Rts) : (s.withRts x).tiles = s.tiles := rfl
@[simp] theorem State.withRts_wins (s : State) (x : Rts) : (s.withRts x).wins = s.wins := rfl
@[simp] theorem State.withRts_sit (s : State) (x : Rts) : (s.withRts x).sit = s.sit := rfl
@[simp] theorem State.withRts_adcs (s : State) (x : Rts) : (s.withRts x).adcs = s.adcs := rfl
@[simp] theorem State.withRts_gx (s : State) (x : Rts) : (s.withRts x).gx = s.gx := rfl
@[simp] theorem State.withRts_met (s : State) (x : Rts) : (s.withRts x).met = s.met := rfl
@[simp] theorem State.withRts_clk (s : State) (x : Rts) : (s.withRts x).clk = s.clk := rfl
@[simp] theorem State.withRts_lanes (s : State) (x : Rts) : (s.withRts x).lanes = s.lanes := rfl
@[simp] theorem State.withRts_wlk (s : State) (x : Rts) : (s.withRts x).wlk = s.wlk := rfl
@[simp] theorem State.withRts_net (s : State) (x : Rts) : (s.withRts x).net = s.net := rfl
@[simp] theorem State.withRts_sag (s : State) (x : Rts) : (s.withRts x).sag = s.sag := rfl
@[simp] theorem State.withRts_pug (s : State) (x : Rts) : (s.withRts x).pug = s.pug := rfl
@[simp] theorem State.withRts_pwr (s : State) (x : Rts) : (s.withRts x).pwr = s.pwr := rfl
@[simp] theorem State.withRts_grg (s : State) (x : Rts) : (s.withRts x).grg = s.grg := rfl
@[simp] theorem State.withRts_con (s : State) (x : Rts) : (s.withRts x).con = s.con := rfl
@[simp] theorem State.withRts_ports (s : State) (x : Rts) : (s.withRts x).ports = s.ports := rfl
theorem State.withIsl_eq (s : State) (x : IslUnit) : s.withIsl x = { s with isl := x } := rfl
@[simp] theorem State.withIsl_get (s : State) (x : IslUnit) (f : Fld) : (s.withIsl x).get f = s.get f := rfl
@[simp] theorem State.withIsl_pending (s : State) (x : IslUnit) : (s.withIsl x).pending = s.pending := rfl
@[simp] theorem State.withIsl_regs (s : State) (x : IslUnit) : (s.withIsl x).regs = s.regs := rfl
@[simp] theorem State.withIsl_slots (s : State) (x : IslUnit) : (s.withIsl x).slots = s.slots := rfl
@[simp] theorem State.withIsl_coef (s : State) (x : IslUnit) : (s.withIsl x).coef = s.coef := rfl
@[simp] theorem State.withIsl_prog (s : State) (x : IslUnit) : (s.withIsl x).prog = s.prog := rfl
@[simp] theorem State.withIsl_sram (s : State) (x : IslUnit) : (s.withIsl x).sram = s.sram := rfl
@[simp] theorem State.withIsl_held (s : State) (x : IslUnit) : (s.withIsl x).held = s.held := rfl
@[simp] theorem State.withIsl_resp (s : State) (x : IslUnit) : (s.withIsl x).resp = s.resp := rfl
@[simp] theorem State.withIsl_free (s : State) (x : IslUnit) : (s.withIsl x).free = s.free := rfl
@[simp] theorem State.withIsl_outbox (s : State) (x : IslUnit) : (s.withIsl x).outbox = s.outbox := rfl
@[simp] theorem State.withIsl_glz (s : State) (x : IslUnit) : (s.withIsl x).glz = s.glz := rfl
@[simp] theorem State.withIsl_fab (s : State) (x : IslUnit) : (s.withIsl x).fab = s.fab := rfl
@[simp] theorem State.withIsl_wheels (s : State) (x : IslUnit) : (s.withIsl x).wheels = s.wheels := rfl
@[simp] theorem State.withIsl_groups (s : State) (x : IslUnit) : (s.withIsl x).groups = s.groups := rfl
@[simp] theorem State.withIsl_gsus (s : State) (x : IslUnit) : (s.withIsl x).gsus = s.gsus := rfl
@[simp] theorem State.withIsl_rts (s : State) (x : IslUnit) : (s.withIsl x).rts = s.rts := rfl
@[simp] theorem State.withIsl_isl (s : State) (x : IslUnit) : (s.withIsl x).isl = x := rfl
@[simp] theorem State.withIsl_dci (s : State) (x : IslUnit) : (s.withIsl x).dci = s.dci := rfl
@[simp] theorem State.withIsl_mod (s : State) (x : IslUnit) : (s.withIsl x).mod = s.mod := rfl
@[simp] theorem State.withIsl_tiles (s : State) (x : IslUnit) : (s.withIsl x).tiles = s.tiles := rfl
@[simp] theorem State.withIsl_wins (s : State) (x : IslUnit) : (s.withIsl x).wins = s.wins := rfl
@[simp] theorem State.withIsl_sit (s : State) (x : IslUnit) : (s.withIsl x).sit = s.sit := rfl
@[simp] theorem State.withIsl_adcs (s : State) (x : IslUnit) : (s.withIsl x).adcs = s.adcs := rfl
@[simp] theorem State.withIsl_gx (s : State) (x : IslUnit) : (s.withIsl x).gx = s.gx := rfl
@[simp] theorem State.withIsl_met (s : State) (x : IslUnit) : (s.withIsl x).met = s.met := rfl
@[simp] theorem State.withIsl_clk (s : State) (x : IslUnit) : (s.withIsl x).clk = s.clk := rfl
@[simp] theorem State.withIsl_lanes (s : State) (x : IslUnit) : (s.withIsl x).lanes = s.lanes := rfl
@[simp] theorem State.withIsl_wlk (s : State) (x : IslUnit) : (s.withIsl x).wlk = s.wlk := rfl
@[simp] theorem State.withIsl_net (s : State) (x : IslUnit) : (s.withIsl x).net = s.net := rfl
@[simp] theorem State.withIsl_sag (s : State) (x : IslUnit) : (s.withIsl x).sag = s.sag := rfl
@[simp] theorem State.withIsl_pug (s : State) (x : IslUnit) : (s.withIsl x).pug = s.pug := rfl
@[simp] theorem State.withIsl_pwr (s : State) (x : IslUnit) : (s.withIsl x).pwr = s.pwr := rfl
@[simp] theorem State.withIsl_grg (s : State) (x : IslUnit) : (s.withIsl x).grg = s.grg := rfl
@[simp] theorem State.withIsl_con (s : State) (x : IslUnit) : (s.withIsl x).con = s.con := rfl
@[simp] theorem State.withIsl_ports (s : State) (x : IslUnit) : (s.withIsl x).ports = s.ports := rfl
theorem State.withDci_eq (s : State) (x : Dci) : s.withDci x = { s with dci := x } := rfl
@[simp] theorem State.withDci_get (s : State) (x : Dci) (f : Fld) : (s.withDci x).get f = s.get f := rfl
@[simp] theorem State.withDci_pending (s : State) (x : Dci) : (s.withDci x).pending = s.pending := rfl
@[simp] theorem State.withDci_regs (s : State) (x : Dci) : (s.withDci x).regs = s.regs := rfl
@[simp] theorem State.withDci_slots (s : State) (x : Dci) : (s.withDci x).slots = s.slots := rfl
@[simp] theorem State.withDci_coef (s : State) (x : Dci) : (s.withDci x).coef = s.coef := rfl
@[simp] theorem State.withDci_prog (s : State) (x : Dci) : (s.withDci x).prog = s.prog := rfl
@[simp] theorem State.withDci_sram (s : State) (x : Dci) : (s.withDci x).sram = s.sram := rfl
@[simp] theorem State.withDci_held (s : State) (x : Dci) : (s.withDci x).held = s.held := rfl
@[simp] theorem State.withDci_resp (s : State) (x : Dci) : (s.withDci x).resp = s.resp := rfl
@[simp] theorem State.withDci_free (s : State) (x : Dci) : (s.withDci x).free = s.free := rfl
@[simp] theorem State.withDci_outbox (s : State) (x : Dci) : (s.withDci x).outbox = s.outbox := rfl
@[simp] theorem State.withDci_glz (s : State) (x : Dci) : (s.withDci x).glz = s.glz := rfl
@[simp] theorem State.withDci_fab (s : State) (x : Dci) : (s.withDci x).fab = s.fab := rfl
@[simp] theorem State.withDci_wheels (s : State) (x : Dci) : (s.withDci x).wheels = s.wheels := rfl
@[simp] theorem State.withDci_groups (s : State) (x : Dci) : (s.withDci x).groups = s.groups := rfl
@[simp] theorem State.withDci_gsus (s : State) (x : Dci) : (s.withDci x).gsus = s.gsus := rfl
@[simp] theorem State.withDci_rts (s : State) (x : Dci) : (s.withDci x).rts = s.rts := rfl
@[simp] theorem State.withDci_isl (s : State) (x : Dci) : (s.withDci x).isl = s.isl := rfl
@[simp] theorem State.withDci_dci (s : State) (x : Dci) : (s.withDci x).dci = x := rfl
@[simp] theorem State.withDci_mod (s : State) (x : Dci) : (s.withDci x).mod = s.mod := rfl
@[simp] theorem State.withDci_tiles (s : State) (x : Dci) : (s.withDci x).tiles = s.tiles := rfl
@[simp] theorem State.withDci_wins (s : State) (x : Dci) : (s.withDci x).wins = s.wins := rfl
@[simp] theorem State.withDci_sit (s : State) (x : Dci) : (s.withDci x).sit = s.sit := rfl
@[simp] theorem State.withDci_adcs (s : State) (x : Dci) : (s.withDci x).adcs = s.adcs := rfl
@[simp] theorem State.withDci_gx (s : State) (x : Dci) : (s.withDci x).gx = s.gx := rfl
@[simp] theorem State.withDci_met (s : State) (x : Dci) : (s.withDci x).met = s.met := rfl
@[simp] theorem State.withDci_clk (s : State) (x : Dci) : (s.withDci x).clk = s.clk := rfl
@[simp] theorem State.withDci_lanes (s : State) (x : Dci) : (s.withDci x).lanes = s.lanes := rfl
@[simp] theorem State.withDci_wlk (s : State) (x : Dci) : (s.withDci x).wlk = s.wlk := rfl
@[simp] theorem State.withDci_net (s : State) (x : Dci) : (s.withDci x).net = s.net := rfl
@[simp] theorem State.withDci_sag (s : State) (x : Dci) : (s.withDci x).sag = s.sag := rfl
@[simp] theorem State.withDci_pug (s : State) (x : Dci) : (s.withDci x).pug = s.pug := rfl
@[simp] theorem State.withDci_pwr (s : State) (x : Dci) : (s.withDci x).pwr = s.pwr := rfl
@[simp] theorem State.withDci_grg (s : State) (x : Dci) : (s.withDci x).grg = s.grg := rfl
@[simp] theorem State.withDci_con (s : State) (x : Dci) : (s.withDci x).con = s.con := rfl
@[simp] theorem State.withDci_ports (s : State) (x : Dci) : (s.withDci x).ports = s.ports := rfl
theorem State.withMod_eq (s : State) (x : ModState) : s.withMod x = { s with mod := x } := rfl
@[simp] theorem State.withMod_get (s : State) (x : ModState) (f : Fld) : (s.withMod x).get f = s.get f := rfl
@[simp] theorem State.withMod_pending (s : State) (x : ModState) : (s.withMod x).pending = s.pending := rfl
@[simp] theorem State.withMod_regs (s : State) (x : ModState) : (s.withMod x).regs = s.regs := rfl
@[simp] theorem State.withMod_slots (s : State) (x : ModState) : (s.withMod x).slots = s.slots := rfl
@[simp] theorem State.withMod_coef (s : State) (x : ModState) : (s.withMod x).coef = s.coef := rfl
@[simp] theorem State.withMod_prog (s : State) (x : ModState) : (s.withMod x).prog = s.prog := rfl
@[simp] theorem State.withMod_sram (s : State) (x : ModState) : (s.withMod x).sram = s.sram := rfl
@[simp] theorem State.withMod_held (s : State) (x : ModState) : (s.withMod x).held = s.held := rfl
@[simp] theorem State.withMod_resp (s : State) (x : ModState) : (s.withMod x).resp = s.resp := rfl
@[simp] theorem State.withMod_free (s : State) (x : ModState) : (s.withMod x).free = s.free := rfl
@[simp] theorem State.withMod_outbox (s : State) (x : ModState) : (s.withMod x).outbox = s.outbox := rfl
@[simp] theorem State.withMod_glz (s : State) (x : ModState) : (s.withMod x).glz = s.glz := rfl
@[simp] theorem State.withMod_fab (s : State) (x : ModState) : (s.withMod x).fab = s.fab := rfl
@[simp] theorem State.withMod_wheels (s : State) (x : ModState) : (s.withMod x).wheels = s.wheels := rfl
@[simp] theorem State.withMod_groups (s : State) (x : ModState) : (s.withMod x).groups = s.groups := rfl
@[simp] theorem State.withMod_gsus (s : State) (x : ModState) : (s.withMod x).gsus = s.gsus := rfl
@[simp] theorem State.withMod_rts (s : State) (x : ModState) : (s.withMod x).rts = s.rts := rfl
@[simp] theorem State.withMod_isl (s : State) (x : ModState) : (s.withMod x).isl = s.isl := rfl
@[simp] theorem State.withMod_dci (s : State) (x : ModState) : (s.withMod x).dci = s.dci := rfl
@[simp] theorem State.withMod_mod (s : State) (x : ModState) : (s.withMod x).mod = x := rfl
@[simp] theorem State.withMod_tiles (s : State) (x : ModState) : (s.withMod x).tiles = s.tiles := rfl
@[simp] theorem State.withMod_wins (s : State) (x : ModState) : (s.withMod x).wins = s.wins := rfl
@[simp] theorem State.withMod_sit (s : State) (x : ModState) : (s.withMod x).sit = s.sit := rfl
@[simp] theorem State.withMod_adcs (s : State) (x : ModState) : (s.withMod x).adcs = s.adcs := rfl
@[simp] theorem State.withMod_gx (s : State) (x : ModState) : (s.withMod x).gx = s.gx := rfl
@[simp] theorem State.withMod_met (s : State) (x : ModState) : (s.withMod x).met = s.met := rfl
@[simp] theorem State.withMod_clk (s : State) (x : ModState) : (s.withMod x).clk = s.clk := rfl
@[simp] theorem State.withMod_lanes (s : State) (x : ModState) : (s.withMod x).lanes = s.lanes := rfl
@[simp] theorem State.withMod_wlk (s : State) (x : ModState) : (s.withMod x).wlk = s.wlk := rfl
@[simp] theorem State.withMod_net (s : State) (x : ModState) : (s.withMod x).net = s.net := rfl
@[simp] theorem State.withMod_sag (s : State) (x : ModState) : (s.withMod x).sag = s.sag := rfl
@[simp] theorem State.withMod_pug (s : State) (x : ModState) : (s.withMod x).pug = s.pug := rfl
@[simp] theorem State.withMod_pwr (s : State) (x : ModState) : (s.withMod x).pwr = s.pwr := rfl
@[simp] theorem State.withMod_grg (s : State) (x : ModState) : (s.withMod x).grg = s.grg := rfl
@[simp] theorem State.withMod_con (s : State) (x : ModState) : (s.withMod x).con = s.con := rfl
@[simp] theorem State.withMod_ports (s : State) (x : ModState) : (s.withMod x).ports = s.ports := rfl
theorem State.withTiles_eq (s : State) (x : Vector Tile 9) : s.withTiles x = { s with tiles := x } := rfl
@[simp] theorem State.withTiles_get (s : State) (x : Vector Tile 9) (f : Fld) : (s.withTiles x).get f = s.get f := rfl
@[simp] theorem State.withTiles_pending (s : State) (x : Vector Tile 9) : (s.withTiles x).pending = s.pending := rfl
@[simp] theorem State.withTiles_regs (s : State) (x : Vector Tile 9) : (s.withTiles x).regs = s.regs := rfl
@[simp] theorem State.withTiles_slots (s : State) (x : Vector Tile 9) : (s.withTiles x).slots = s.slots := rfl
@[simp] theorem State.withTiles_coef (s : State) (x : Vector Tile 9) : (s.withTiles x).coef = s.coef := rfl
@[simp] theorem State.withTiles_prog (s : State) (x : Vector Tile 9) : (s.withTiles x).prog = s.prog := rfl
@[simp] theorem State.withTiles_sram (s : State) (x : Vector Tile 9) : (s.withTiles x).sram = s.sram := rfl
@[simp] theorem State.withTiles_held (s : State) (x : Vector Tile 9) : (s.withTiles x).held = s.held := rfl
@[simp] theorem State.withTiles_resp (s : State) (x : Vector Tile 9) : (s.withTiles x).resp = s.resp := rfl
@[simp] theorem State.withTiles_free (s : State) (x : Vector Tile 9) : (s.withTiles x).free = s.free := rfl
@[simp] theorem State.withTiles_outbox (s : State) (x : Vector Tile 9) : (s.withTiles x).outbox = s.outbox := rfl
@[simp] theorem State.withTiles_glz (s : State) (x : Vector Tile 9) : (s.withTiles x).glz = s.glz := rfl
@[simp] theorem State.withTiles_fab (s : State) (x : Vector Tile 9) : (s.withTiles x).fab = s.fab := rfl
@[simp] theorem State.withTiles_wheels (s : State) (x : Vector Tile 9) : (s.withTiles x).wheels = s.wheels := rfl
@[simp] theorem State.withTiles_groups (s : State) (x : Vector Tile 9) : (s.withTiles x).groups = s.groups := rfl
@[simp] theorem State.withTiles_gsus (s : State) (x : Vector Tile 9) : (s.withTiles x).gsus = s.gsus := rfl
@[simp] theorem State.withTiles_rts (s : State) (x : Vector Tile 9) : (s.withTiles x).rts = s.rts := rfl
@[simp] theorem State.withTiles_isl (s : State) (x : Vector Tile 9) : (s.withTiles x).isl = s.isl := rfl
@[simp] theorem State.withTiles_dci (s : State) (x : Vector Tile 9) : (s.withTiles x).dci = s.dci := rfl
@[simp] theorem State.withTiles_mod (s : State) (x : Vector Tile 9) : (s.withTiles x).mod = s.mod := rfl
@[simp] theorem State.withTiles_tiles (s : State) (x : Vector Tile 9) : (s.withTiles x).tiles = x := rfl
@[simp] theorem State.withTiles_wins (s : State) (x : Vector Tile 9) : (s.withTiles x).wins = s.wins := rfl
@[simp] theorem State.withTiles_sit (s : State) (x : Vector Tile 9) : (s.withTiles x).sit = s.sit := rfl
@[simp] theorem State.withTiles_adcs (s : State) (x : Vector Tile 9) : (s.withTiles x).adcs = s.adcs := rfl
@[simp] theorem State.withTiles_gx (s : State) (x : Vector Tile 9) : (s.withTiles x).gx = s.gx := rfl
@[simp] theorem State.withTiles_met (s : State) (x : Vector Tile 9) : (s.withTiles x).met = s.met := rfl
@[simp] theorem State.withTiles_clk (s : State) (x : Vector Tile 9) : (s.withTiles x).clk = s.clk := rfl
@[simp] theorem State.withTiles_lanes (s : State) (x : Vector Tile 9) : (s.withTiles x).lanes = s.lanes := rfl
@[simp] theorem State.withTiles_wlk (s : State) (x : Vector Tile 9) : (s.withTiles x).wlk = s.wlk := rfl
@[simp] theorem State.withTiles_net (s : State) (x : Vector Tile 9) : (s.withTiles x).net = s.net := rfl
@[simp] theorem State.withTiles_sag (s : State) (x : Vector Tile 9) : (s.withTiles x).sag = s.sag := rfl
@[simp] theorem State.withTiles_pug (s : State) (x : Vector Tile 9) : (s.withTiles x).pug = s.pug := rfl
@[simp] theorem State.withTiles_pwr (s : State) (x : Vector Tile 9) : (s.withTiles x).pwr = s.pwr := rfl
@[simp] theorem State.withTiles_grg (s : State) (x : Vector Tile 9) : (s.withTiles x).grg = s.grg := rfl
@[simp] theorem State.withTiles_con (s : State) (x : Vector Tile 9) : (s.withTiles x).con = s.con := rfl
@[simp] theorem State.withTiles_ports (s : State) (x : Vector Tile 9) : (s.withTiles x).ports = s.ports := rfl
theorem State.withWins_eq (s : State) (x : Vector WinUnit 44) : s.withWins x = { s with wins := x } := rfl
@[simp] theorem State.withWins_get (s : State) (x : Vector WinUnit 44) (f : Fld) : (s.withWins x).get f = s.get f := rfl
@[simp] theorem State.withWins_pending (s : State) (x : Vector WinUnit 44) : (s.withWins x).pending = s.pending := rfl
@[simp] theorem State.withWins_regs (s : State) (x : Vector WinUnit 44) : (s.withWins x).regs = s.regs := rfl
@[simp] theorem State.withWins_slots (s : State) (x : Vector WinUnit 44) : (s.withWins x).slots = s.slots := rfl
@[simp] theorem State.withWins_coef (s : State) (x : Vector WinUnit 44) : (s.withWins x).coef = s.coef := rfl
@[simp] theorem State.withWins_prog (s : State) (x : Vector WinUnit 44) : (s.withWins x).prog = s.prog := rfl
@[simp] theorem State.withWins_sram (s : State) (x : Vector WinUnit 44) : (s.withWins x).sram = s.sram := rfl
@[simp] theorem State.withWins_held (s : State) (x : Vector WinUnit 44) : (s.withWins x).held = s.held := rfl
@[simp] theorem State.withWins_resp (s : State) (x : Vector WinUnit 44) : (s.withWins x).resp = s.resp := rfl
@[simp] theorem State.withWins_free (s : State) (x : Vector WinUnit 44) : (s.withWins x).free = s.free := rfl
@[simp] theorem State.withWins_outbox (s : State) (x : Vector WinUnit 44) : (s.withWins x).outbox = s.outbox := rfl
@[simp] theorem State.withWins_glz (s : State) (x : Vector WinUnit 44) : (s.withWins x).glz = s.glz := rfl
@[simp] theorem State.withWins_fab (s : State) (x : Vector WinUnit 44) : (s.withWins x).fab = s.fab := rfl
@[simp] theorem State.withWins_wheels (s : State) (x : Vector WinUnit 44) : (s.withWins x).wheels = s.wheels := rfl
@[simp] theorem State.withWins_groups (s : State) (x : Vector WinUnit 44) : (s.withWins x).groups = s.groups := rfl
@[simp] theorem State.withWins_gsus (s : State) (x : Vector WinUnit 44) : (s.withWins x).gsus = s.gsus := rfl
@[simp] theorem State.withWins_rts (s : State) (x : Vector WinUnit 44) : (s.withWins x).rts = s.rts := rfl
@[simp] theorem State.withWins_isl (s : State) (x : Vector WinUnit 44) : (s.withWins x).isl = s.isl := rfl
@[simp] theorem State.withWins_dci (s : State) (x : Vector WinUnit 44) : (s.withWins x).dci = s.dci := rfl
@[simp] theorem State.withWins_mod (s : State) (x : Vector WinUnit 44) : (s.withWins x).mod = s.mod := rfl
@[simp] theorem State.withWins_tiles (s : State) (x : Vector WinUnit 44) : (s.withWins x).tiles = s.tiles := rfl
@[simp] theorem State.withWins_wins (s : State) (x : Vector WinUnit 44) : (s.withWins x).wins = x := rfl
@[simp] theorem State.withWins_sit (s : State) (x : Vector WinUnit 44) : (s.withWins x).sit = s.sit := rfl
@[simp] theorem State.withWins_adcs (s : State) (x : Vector WinUnit 44) : (s.withWins x).adcs = s.adcs := rfl
@[simp] theorem State.withWins_gx (s : State) (x : Vector WinUnit 44) : (s.withWins x).gx = s.gx := rfl
@[simp] theorem State.withWins_met (s : State) (x : Vector WinUnit 44) : (s.withWins x).met = s.met := rfl
@[simp] theorem State.withWins_clk (s : State) (x : Vector WinUnit 44) : (s.withWins x).clk = s.clk := rfl
@[simp] theorem State.withWins_lanes (s : State) (x : Vector WinUnit 44) : (s.withWins x).lanes = s.lanes := rfl
@[simp] theorem State.withWins_wlk (s : State) (x : Vector WinUnit 44) : (s.withWins x).wlk = s.wlk := rfl
@[simp] theorem State.withWins_net (s : State) (x : Vector WinUnit 44) : (s.withWins x).net = s.net := rfl
@[simp] theorem State.withWins_sag (s : State) (x : Vector WinUnit 44) : (s.withWins x).sag = s.sag := rfl
@[simp] theorem State.withWins_pug (s : State) (x : Vector WinUnit 44) : (s.withWins x).pug = s.pug := rfl
@[simp] theorem State.withWins_pwr (s : State) (x : Vector WinUnit 44) : (s.withWins x).pwr = s.pwr := rfl
@[simp] theorem State.withWins_grg (s : State) (x : Vector WinUnit 44) : (s.withWins x).grg = s.grg := rfl
@[simp] theorem State.withWins_con (s : State) (x : Vector WinUnit 44) : (s.withWins x).con = s.con := rfl
@[simp] theorem State.withWins_ports (s : State) (x : Vector WinUnit 44) : (s.withWins x).ports = s.ports := rfl
theorem State.withSit_eq (s : State) (x : SitState) : s.withSit x = { s with sit := x } := rfl
@[simp] theorem State.withSit_get (s : State) (x : SitState) (f : Fld) : (s.withSit x).get f = s.get f := rfl
@[simp] theorem State.withSit_pending (s : State) (x : SitState) : (s.withSit x).pending = s.pending := rfl
@[simp] theorem State.withSit_regs (s : State) (x : SitState) : (s.withSit x).regs = s.regs := rfl
@[simp] theorem State.withSit_slots (s : State) (x : SitState) : (s.withSit x).slots = s.slots := rfl
@[simp] theorem State.withSit_coef (s : State) (x : SitState) : (s.withSit x).coef = s.coef := rfl
@[simp] theorem State.withSit_prog (s : State) (x : SitState) : (s.withSit x).prog = s.prog := rfl
@[simp] theorem State.withSit_sram (s : State) (x : SitState) : (s.withSit x).sram = s.sram := rfl
@[simp] theorem State.withSit_held (s : State) (x : SitState) : (s.withSit x).held = s.held := rfl
@[simp] theorem State.withSit_resp (s : State) (x : SitState) : (s.withSit x).resp = s.resp := rfl
@[simp] theorem State.withSit_free (s : State) (x : SitState) : (s.withSit x).free = s.free := rfl
@[simp] theorem State.withSit_outbox (s : State) (x : SitState) : (s.withSit x).outbox = s.outbox := rfl
@[simp] theorem State.withSit_glz (s : State) (x : SitState) : (s.withSit x).glz = s.glz := rfl
@[simp] theorem State.withSit_fab (s : State) (x : SitState) : (s.withSit x).fab = s.fab := rfl
@[simp] theorem State.withSit_wheels (s : State) (x : SitState) : (s.withSit x).wheels = s.wheels := rfl
@[simp] theorem State.withSit_groups (s : State) (x : SitState) : (s.withSit x).groups = s.groups := rfl
@[simp] theorem State.withSit_gsus (s : State) (x : SitState) : (s.withSit x).gsus = s.gsus := rfl
@[simp] theorem State.withSit_rts (s : State) (x : SitState) : (s.withSit x).rts = s.rts := rfl
@[simp] theorem State.withSit_isl (s : State) (x : SitState) : (s.withSit x).isl = s.isl := rfl
@[simp] theorem State.withSit_dci (s : State) (x : SitState) : (s.withSit x).dci = s.dci := rfl
@[simp] theorem State.withSit_mod (s : State) (x : SitState) : (s.withSit x).mod = s.mod := rfl
@[simp] theorem State.withSit_tiles (s : State) (x : SitState) : (s.withSit x).tiles = s.tiles := rfl
@[simp] theorem State.withSit_wins (s : State) (x : SitState) : (s.withSit x).wins = s.wins := rfl
@[simp] theorem State.withSit_sit (s : State) (x : SitState) : (s.withSit x).sit = x := rfl
@[simp] theorem State.withSit_adcs (s : State) (x : SitState) : (s.withSit x).adcs = s.adcs := rfl
@[simp] theorem State.withSit_gx (s : State) (x : SitState) : (s.withSit x).gx = s.gx := rfl
@[simp] theorem State.withSit_met (s : State) (x : SitState) : (s.withSit x).met = s.met := rfl
@[simp] theorem State.withSit_clk (s : State) (x : SitState) : (s.withSit x).clk = s.clk := rfl
@[simp] theorem State.withSit_lanes (s : State) (x : SitState) : (s.withSit x).lanes = s.lanes := rfl
@[simp] theorem State.withSit_wlk (s : State) (x : SitState) : (s.withSit x).wlk = s.wlk := rfl
@[simp] theorem State.withSit_net (s : State) (x : SitState) : (s.withSit x).net = s.net := rfl
@[simp] theorem State.withSit_sag (s : State) (x : SitState) : (s.withSit x).sag = s.sag := rfl
@[simp] theorem State.withSit_pug (s : State) (x : SitState) : (s.withSit x).pug = s.pug := rfl
@[simp] theorem State.withSit_pwr (s : State) (x : SitState) : (s.withSit x).pwr = s.pwr := rfl
@[simp] theorem State.withSit_grg (s : State) (x : SitState) : (s.withSit x).grg = s.grg := rfl
@[simp] theorem State.withSit_con (s : State) (x : SitState) : (s.withSit x).con = s.con := rfl
@[simp] theorem State.withSit_ports (s : State) (x : SitState) : (s.withSit x).ports = s.ports := rfl
theorem State.withAdcs_eq (s : State) (x : Vector AdcCore 18) : s.withAdcs x = { s with adcs := x } := rfl
@[simp] theorem State.withAdcs_get (s : State) (x : Vector AdcCore 18) (f : Fld) : (s.withAdcs x).get f = s.get f := rfl
@[simp] theorem State.withAdcs_pending (s : State) (x : Vector AdcCore 18) : (s.withAdcs x).pending = s.pending := rfl
@[simp] theorem State.withAdcs_regs (s : State) (x : Vector AdcCore 18) : (s.withAdcs x).regs = s.regs := rfl
@[simp] theorem State.withAdcs_slots (s : State) (x : Vector AdcCore 18) : (s.withAdcs x).slots = s.slots := rfl
@[simp] theorem State.withAdcs_coef (s : State) (x : Vector AdcCore 18) : (s.withAdcs x).coef = s.coef := rfl
@[simp] theorem State.withAdcs_prog (s : State) (x : Vector AdcCore 18) : (s.withAdcs x).prog = s.prog := rfl
@[simp] theorem State.withAdcs_sram (s : State) (x : Vector AdcCore 18) : (s.withAdcs x).sram = s.sram := rfl
@[simp] theorem State.withAdcs_held (s : State) (x : Vector AdcCore 18) : (s.withAdcs x).held = s.held := rfl
@[simp] theorem State.withAdcs_resp (s : State) (x : Vector AdcCore 18) : (s.withAdcs x).resp = s.resp := rfl
@[simp] theorem State.withAdcs_free (s : State) (x : Vector AdcCore 18) : (s.withAdcs x).free = s.free := rfl
@[simp] theorem State.withAdcs_outbox (s : State) (x : Vector AdcCore 18) : (s.withAdcs x).outbox = s.outbox := rfl
@[simp] theorem State.withAdcs_glz (s : State) (x : Vector AdcCore 18) : (s.withAdcs x).glz = s.glz := rfl
@[simp] theorem State.withAdcs_fab (s : State) (x : Vector AdcCore 18) : (s.withAdcs x).fab = s.fab := rfl
@[simp] theorem State.withAdcs_wheels (s : State) (x : Vector AdcCore 18) : (s.withAdcs x).wheels = s.wheels := rfl
@[simp] theorem State.withAdcs_groups (s : State) (x : Vector AdcCore 18) : (s.withAdcs x).groups = s.groups := rfl
@[simp] theorem State.withAdcs_gsus (s : State) (x : Vector AdcCore 18) : (s.withAdcs x).gsus = s.gsus := rfl
@[simp] theorem State.withAdcs_rts (s : State) (x : Vector AdcCore 18) : (s.withAdcs x).rts = s.rts := rfl
@[simp] theorem State.withAdcs_isl (s : State) (x : Vector AdcCore 18) : (s.withAdcs x).isl = s.isl := rfl
@[simp] theorem State.withAdcs_dci (s : State) (x : Vector AdcCore 18) : (s.withAdcs x).dci = s.dci := rfl
@[simp] theorem State.withAdcs_mod (s : State) (x : Vector AdcCore 18) : (s.withAdcs x).mod = s.mod := rfl
@[simp] theorem State.withAdcs_tiles (s : State) (x : Vector AdcCore 18) : (s.withAdcs x).tiles = s.tiles := rfl
@[simp] theorem State.withAdcs_wins (s : State) (x : Vector AdcCore 18) : (s.withAdcs x).wins = s.wins := rfl
@[simp] theorem State.withAdcs_sit (s : State) (x : Vector AdcCore 18) : (s.withAdcs x).sit = s.sit := rfl
@[simp] theorem State.withAdcs_adcs (s : State) (x : Vector AdcCore 18) : (s.withAdcs x).adcs = x := rfl
@[simp] theorem State.withAdcs_gx (s : State) (x : Vector AdcCore 18) : (s.withAdcs x).gx = s.gx := rfl
@[simp] theorem State.withAdcs_met (s : State) (x : Vector AdcCore 18) : (s.withAdcs x).met = s.met := rfl
@[simp] theorem State.withAdcs_clk (s : State) (x : Vector AdcCore 18) : (s.withAdcs x).clk = s.clk := rfl
@[simp] theorem State.withAdcs_lanes (s : State) (x : Vector AdcCore 18) : (s.withAdcs x).lanes = s.lanes := rfl
@[simp] theorem State.withAdcs_wlk (s : State) (x : Vector AdcCore 18) : (s.withAdcs x).wlk = s.wlk := rfl
@[simp] theorem State.withAdcs_net (s : State) (x : Vector AdcCore 18) : (s.withAdcs x).net = s.net := rfl
@[simp] theorem State.withAdcs_sag (s : State) (x : Vector AdcCore 18) : (s.withAdcs x).sag = s.sag := rfl
@[simp] theorem State.withAdcs_pug (s : State) (x : Vector AdcCore 18) : (s.withAdcs x).pug = s.pug := rfl
@[simp] theorem State.withAdcs_pwr (s : State) (x : Vector AdcCore 18) : (s.withAdcs x).pwr = s.pwr := rfl
@[simp] theorem State.withAdcs_grg (s : State) (x : Vector AdcCore 18) : (s.withAdcs x).grg = s.grg := rfl
@[simp] theorem State.withAdcs_con (s : State) (x : Vector AdcCore 18) : (s.withAdcs x).con = s.con := rfl
@[simp] theorem State.withAdcs_ports (s : State) (x : Vector AdcCore 18) : (s.withAdcs x).ports = s.ports := rfl
theorem State.withGx_eq (s : State) (x : Vector GxUse 2) : s.withGx x = { s with gx := x } := rfl
@[simp] theorem State.withGx_get (s : State) (x : Vector GxUse 2) (f : Fld) : (s.withGx x).get f = s.get f := rfl
@[simp] theorem State.withGx_pending (s : State) (x : Vector GxUse 2) : (s.withGx x).pending = s.pending := rfl
@[simp] theorem State.withGx_regs (s : State) (x : Vector GxUse 2) : (s.withGx x).regs = s.regs := rfl
@[simp] theorem State.withGx_slots (s : State) (x : Vector GxUse 2) : (s.withGx x).slots = s.slots := rfl
@[simp] theorem State.withGx_coef (s : State) (x : Vector GxUse 2) : (s.withGx x).coef = s.coef := rfl
@[simp] theorem State.withGx_prog (s : State) (x : Vector GxUse 2) : (s.withGx x).prog = s.prog := rfl
@[simp] theorem State.withGx_sram (s : State) (x : Vector GxUse 2) : (s.withGx x).sram = s.sram := rfl
@[simp] theorem State.withGx_held (s : State) (x : Vector GxUse 2) : (s.withGx x).held = s.held := rfl
@[simp] theorem State.withGx_resp (s : State) (x : Vector GxUse 2) : (s.withGx x).resp = s.resp := rfl
@[simp] theorem State.withGx_free (s : State) (x : Vector GxUse 2) : (s.withGx x).free = s.free := rfl
@[simp] theorem State.withGx_outbox (s : State) (x : Vector GxUse 2) : (s.withGx x).outbox = s.outbox := rfl
@[simp] theorem State.withGx_glz (s : State) (x : Vector GxUse 2) : (s.withGx x).glz = s.glz := rfl
@[simp] theorem State.withGx_fab (s : State) (x : Vector GxUse 2) : (s.withGx x).fab = s.fab := rfl
@[simp] theorem State.withGx_wheels (s : State) (x : Vector GxUse 2) : (s.withGx x).wheels = s.wheels := rfl
@[simp] theorem State.withGx_groups (s : State) (x : Vector GxUse 2) : (s.withGx x).groups = s.groups := rfl
@[simp] theorem State.withGx_gsus (s : State) (x : Vector GxUse 2) : (s.withGx x).gsus = s.gsus := rfl
@[simp] theorem State.withGx_rts (s : State) (x : Vector GxUse 2) : (s.withGx x).rts = s.rts := rfl
@[simp] theorem State.withGx_isl (s : State) (x : Vector GxUse 2) : (s.withGx x).isl = s.isl := rfl
@[simp] theorem State.withGx_dci (s : State) (x : Vector GxUse 2) : (s.withGx x).dci = s.dci := rfl
@[simp] theorem State.withGx_mod (s : State) (x : Vector GxUse 2) : (s.withGx x).mod = s.mod := rfl
@[simp] theorem State.withGx_tiles (s : State) (x : Vector GxUse 2) : (s.withGx x).tiles = s.tiles := rfl
@[simp] theorem State.withGx_wins (s : State) (x : Vector GxUse 2) : (s.withGx x).wins = s.wins := rfl
@[simp] theorem State.withGx_sit (s : State) (x : Vector GxUse 2) : (s.withGx x).sit = s.sit := rfl
@[simp] theorem State.withGx_adcs (s : State) (x : Vector GxUse 2) : (s.withGx x).adcs = s.adcs := rfl
@[simp] theorem State.withGx_gx (s : State) (x : Vector GxUse 2) : (s.withGx x).gx = x := rfl
@[simp] theorem State.withGx_met (s : State) (x : Vector GxUse 2) : (s.withGx x).met = s.met := rfl
@[simp] theorem State.withGx_clk (s : State) (x : Vector GxUse 2) : (s.withGx x).clk = s.clk := rfl
@[simp] theorem State.withGx_lanes (s : State) (x : Vector GxUse 2) : (s.withGx x).lanes = s.lanes := rfl
@[simp] theorem State.withGx_wlk (s : State) (x : Vector GxUse 2) : (s.withGx x).wlk = s.wlk := rfl
@[simp] theorem State.withGx_net (s : State) (x : Vector GxUse 2) : (s.withGx x).net = s.net := rfl
@[simp] theorem State.withGx_sag (s : State) (x : Vector GxUse 2) : (s.withGx x).sag = s.sag := rfl
@[simp] theorem State.withGx_pug (s : State) (x : Vector GxUse 2) : (s.withGx x).pug = s.pug := rfl
@[simp] theorem State.withGx_pwr (s : State) (x : Vector GxUse 2) : (s.withGx x).pwr = s.pwr := rfl
@[simp] theorem State.withGx_grg (s : State) (x : Vector GxUse 2) : (s.withGx x).grg = s.grg := rfl
@[simp] theorem State.withGx_con (s : State) (x : Vector GxUse 2) : (s.withGx x).con = s.con := rfl
@[simp] theorem State.withGx_ports (s : State) (x : Vector GxUse 2) : (s.withGx x).ports = s.ports := rfl
theorem State.withMet_eq (s : State) (x : MetState) : s.withMet x = { s with met := x } := rfl
@[simp] theorem State.withMet_get (s : State) (x : MetState) (f : Fld) : (s.withMet x).get f = s.get f := rfl
@[simp] theorem State.withMet_pending (s : State) (x : MetState) : (s.withMet x).pending = s.pending := rfl
@[simp] theorem State.withMet_regs (s : State) (x : MetState) : (s.withMet x).regs = s.regs := rfl
@[simp] theorem State.withMet_slots (s : State) (x : MetState) : (s.withMet x).slots = s.slots := rfl
@[simp] theorem State.withMet_coef (s : State) (x : MetState) : (s.withMet x).coef = s.coef := rfl
@[simp] theorem State.withMet_prog (s : State) (x : MetState) : (s.withMet x).prog = s.prog := rfl
@[simp] theorem State.withMet_sram (s : State) (x : MetState) : (s.withMet x).sram = s.sram := rfl
@[simp] theorem State.withMet_held (s : State) (x : MetState) : (s.withMet x).held = s.held := rfl
@[simp] theorem State.withMet_resp (s : State) (x : MetState) : (s.withMet x).resp = s.resp := rfl
@[simp] theorem State.withMet_free (s : State) (x : MetState) : (s.withMet x).free = s.free := rfl
@[simp] theorem State.withMet_outbox (s : State) (x : MetState) : (s.withMet x).outbox = s.outbox := rfl
@[simp] theorem State.withMet_glz (s : State) (x : MetState) : (s.withMet x).glz = s.glz := rfl
@[simp] theorem State.withMet_fab (s : State) (x : MetState) : (s.withMet x).fab = s.fab := rfl
@[simp] theorem State.withMet_wheels (s : State) (x : MetState) : (s.withMet x).wheels = s.wheels := rfl
@[simp] theorem State.withMet_groups (s : State) (x : MetState) : (s.withMet x).groups = s.groups := rfl
@[simp] theorem State.withMet_gsus (s : State) (x : MetState) : (s.withMet x).gsus = s.gsus := rfl
@[simp] theorem State.withMet_rts (s : State) (x : MetState) : (s.withMet x).rts = s.rts := rfl
@[simp] theorem State.withMet_isl (s : State) (x : MetState) : (s.withMet x).isl = s.isl := rfl
@[simp] theorem State.withMet_dci (s : State) (x : MetState) : (s.withMet x).dci = s.dci := rfl
@[simp] theorem State.withMet_mod (s : State) (x : MetState) : (s.withMet x).mod = s.mod := rfl
@[simp] theorem State.withMet_tiles (s : State) (x : MetState) : (s.withMet x).tiles = s.tiles := rfl
@[simp] theorem State.withMet_wins (s : State) (x : MetState) : (s.withMet x).wins = s.wins := rfl
@[simp] theorem State.withMet_sit (s : State) (x : MetState) : (s.withMet x).sit = s.sit := rfl
@[simp] theorem State.withMet_adcs (s : State) (x : MetState) : (s.withMet x).adcs = s.adcs := rfl
@[simp] theorem State.withMet_gx (s : State) (x : MetState) : (s.withMet x).gx = s.gx := rfl
@[simp] theorem State.withMet_met (s : State) (x : MetState) : (s.withMet x).met = x := rfl
@[simp] theorem State.withMet_clk (s : State) (x : MetState) : (s.withMet x).clk = s.clk := rfl
@[simp] theorem State.withMet_lanes (s : State) (x : MetState) : (s.withMet x).lanes = s.lanes := rfl
@[simp] theorem State.withMet_wlk (s : State) (x : MetState) : (s.withMet x).wlk = s.wlk := rfl
@[simp] theorem State.withMet_net (s : State) (x : MetState) : (s.withMet x).net = s.net := rfl
@[simp] theorem State.withMet_sag (s : State) (x : MetState) : (s.withMet x).sag = s.sag := rfl
@[simp] theorem State.withMet_pug (s : State) (x : MetState) : (s.withMet x).pug = s.pug := rfl
@[simp] theorem State.withMet_pwr (s : State) (x : MetState) : (s.withMet x).pwr = s.pwr := rfl
@[simp] theorem State.withMet_grg (s : State) (x : MetState) : (s.withMet x).grg = s.grg := rfl
@[simp] theorem State.withMet_con (s : State) (x : MetState) : (s.withMet x).con = s.con := rfl
@[simp] theorem State.withMet_ports (s : State) (x : MetState) : (s.withMet x).ports = s.ports := rfl
theorem State.withClk_eq (s : State) (x : Vector Pll 7) : s.withClk x = { s with clk := x } := rfl
@[simp] theorem State.withClk_get (s : State) (x : Vector Pll 7) (f : Fld) : (s.withClk x).get f = s.get f := rfl
@[simp] theorem State.withClk_pending (s : State) (x : Vector Pll 7) : (s.withClk x).pending = s.pending := rfl
@[simp] theorem State.withClk_regs (s : State) (x : Vector Pll 7) : (s.withClk x).regs = s.regs := rfl
@[simp] theorem State.withClk_slots (s : State) (x : Vector Pll 7) : (s.withClk x).slots = s.slots := rfl
@[simp] theorem State.withClk_coef (s : State) (x : Vector Pll 7) : (s.withClk x).coef = s.coef := rfl
@[simp] theorem State.withClk_prog (s : State) (x : Vector Pll 7) : (s.withClk x).prog = s.prog := rfl
@[simp] theorem State.withClk_sram (s : State) (x : Vector Pll 7) : (s.withClk x).sram = s.sram := rfl
@[simp] theorem State.withClk_held (s : State) (x : Vector Pll 7) : (s.withClk x).held = s.held := rfl
@[simp] theorem State.withClk_resp (s : State) (x : Vector Pll 7) : (s.withClk x).resp = s.resp := rfl
@[simp] theorem State.withClk_free (s : State) (x : Vector Pll 7) : (s.withClk x).free = s.free := rfl
@[simp] theorem State.withClk_outbox (s : State) (x : Vector Pll 7) : (s.withClk x).outbox = s.outbox := rfl
@[simp] theorem State.withClk_glz (s : State) (x : Vector Pll 7) : (s.withClk x).glz = s.glz := rfl
@[simp] theorem State.withClk_fab (s : State) (x : Vector Pll 7) : (s.withClk x).fab = s.fab := rfl
@[simp] theorem State.withClk_wheels (s : State) (x : Vector Pll 7) : (s.withClk x).wheels = s.wheels := rfl
@[simp] theorem State.withClk_groups (s : State) (x : Vector Pll 7) : (s.withClk x).groups = s.groups := rfl
@[simp] theorem State.withClk_gsus (s : State) (x : Vector Pll 7) : (s.withClk x).gsus = s.gsus := rfl
@[simp] theorem State.withClk_rts (s : State) (x : Vector Pll 7) : (s.withClk x).rts = s.rts := rfl
@[simp] theorem State.withClk_isl (s : State) (x : Vector Pll 7) : (s.withClk x).isl = s.isl := rfl
@[simp] theorem State.withClk_dci (s : State) (x : Vector Pll 7) : (s.withClk x).dci = s.dci := rfl
@[simp] theorem State.withClk_mod (s : State) (x : Vector Pll 7) : (s.withClk x).mod = s.mod := rfl
@[simp] theorem State.withClk_tiles (s : State) (x : Vector Pll 7) : (s.withClk x).tiles = s.tiles := rfl
@[simp] theorem State.withClk_wins (s : State) (x : Vector Pll 7) : (s.withClk x).wins = s.wins := rfl
@[simp] theorem State.withClk_sit (s : State) (x : Vector Pll 7) : (s.withClk x).sit = s.sit := rfl
@[simp] theorem State.withClk_adcs (s : State) (x : Vector Pll 7) : (s.withClk x).adcs = s.adcs := rfl
@[simp] theorem State.withClk_gx (s : State) (x : Vector Pll 7) : (s.withClk x).gx = s.gx := rfl
@[simp] theorem State.withClk_met (s : State) (x : Vector Pll 7) : (s.withClk x).met = s.met := rfl
@[simp] theorem State.withClk_clk (s : State) (x : Vector Pll 7) : (s.withClk x).clk = x := rfl
@[simp] theorem State.withClk_lanes (s : State) (x : Vector Pll 7) : (s.withClk x).lanes = s.lanes := rfl
@[simp] theorem State.withClk_wlk (s : State) (x : Vector Pll 7) : (s.withClk x).wlk = s.wlk := rfl
@[simp] theorem State.withClk_net (s : State) (x : Vector Pll 7) : (s.withClk x).net = s.net := rfl
@[simp] theorem State.withClk_sag (s : State) (x : Vector Pll 7) : (s.withClk x).sag = s.sag := rfl
@[simp] theorem State.withClk_pug (s : State) (x : Vector Pll 7) : (s.withClk x).pug = s.pug := rfl
@[simp] theorem State.withClk_pwr (s : State) (x : Vector Pll 7) : (s.withClk x).pwr = s.pwr := rfl
@[simp] theorem State.withClk_grg (s : State) (x : Vector Pll 7) : (s.withClk x).grg = s.grg := rfl
@[simp] theorem State.withClk_con (s : State) (x : Vector Pll 7) : (s.withClk x).con = s.con := rfl
@[simp] theorem State.withClk_ports (s : State) (x : Vector Pll 7) : (s.withClk x).ports = s.ports := rfl
theorem State.withLanes_eq (s : State) (x : Vector LaneUnit 6) : s.withLanes x = { s with lanes := x } := rfl
@[simp] theorem State.withLanes_get (s : State) (x : Vector LaneUnit 6) (f : Fld) : (s.withLanes x).get f = s.get f := rfl
@[simp] theorem State.withLanes_pending (s : State) (x : Vector LaneUnit 6) : (s.withLanes x).pending = s.pending := rfl
@[simp] theorem State.withLanes_regs (s : State) (x : Vector LaneUnit 6) : (s.withLanes x).regs = s.regs := rfl
@[simp] theorem State.withLanes_slots (s : State) (x : Vector LaneUnit 6) : (s.withLanes x).slots = s.slots := rfl
@[simp] theorem State.withLanes_coef (s : State) (x : Vector LaneUnit 6) : (s.withLanes x).coef = s.coef := rfl
@[simp] theorem State.withLanes_prog (s : State) (x : Vector LaneUnit 6) : (s.withLanes x).prog = s.prog := rfl
@[simp] theorem State.withLanes_sram (s : State) (x : Vector LaneUnit 6) : (s.withLanes x).sram = s.sram := rfl
@[simp] theorem State.withLanes_held (s : State) (x : Vector LaneUnit 6) : (s.withLanes x).held = s.held := rfl
@[simp] theorem State.withLanes_resp (s : State) (x : Vector LaneUnit 6) : (s.withLanes x).resp = s.resp := rfl
@[simp] theorem State.withLanes_free (s : State) (x : Vector LaneUnit 6) : (s.withLanes x).free = s.free := rfl
@[simp] theorem State.withLanes_outbox (s : State) (x : Vector LaneUnit 6) : (s.withLanes x).outbox = s.outbox := rfl
@[simp] theorem State.withLanes_glz (s : State) (x : Vector LaneUnit 6) : (s.withLanes x).glz = s.glz := rfl
@[simp] theorem State.withLanes_fab (s : State) (x : Vector LaneUnit 6) : (s.withLanes x).fab = s.fab := rfl
@[simp] theorem State.withLanes_wheels (s : State) (x : Vector LaneUnit 6) : (s.withLanes x).wheels = s.wheels := rfl
@[simp] theorem State.withLanes_groups (s : State) (x : Vector LaneUnit 6) : (s.withLanes x).groups = s.groups := rfl
@[simp] theorem State.withLanes_gsus (s : State) (x : Vector LaneUnit 6) : (s.withLanes x).gsus = s.gsus := rfl
@[simp] theorem State.withLanes_rts (s : State) (x : Vector LaneUnit 6) : (s.withLanes x).rts = s.rts := rfl
@[simp] theorem State.withLanes_isl (s : State) (x : Vector LaneUnit 6) : (s.withLanes x).isl = s.isl := rfl
@[simp] theorem State.withLanes_dci (s : State) (x : Vector LaneUnit 6) : (s.withLanes x).dci = s.dci := rfl
@[simp] theorem State.withLanes_mod (s : State) (x : Vector LaneUnit 6) : (s.withLanes x).mod = s.mod := rfl
@[simp] theorem State.withLanes_tiles (s : State) (x : Vector LaneUnit 6) : (s.withLanes x).tiles = s.tiles := rfl
@[simp] theorem State.withLanes_wins (s : State) (x : Vector LaneUnit 6) : (s.withLanes x).wins = s.wins := rfl
@[simp] theorem State.withLanes_sit (s : State) (x : Vector LaneUnit 6) : (s.withLanes x).sit = s.sit := rfl
@[simp] theorem State.withLanes_adcs (s : State) (x : Vector LaneUnit 6) : (s.withLanes x).adcs = s.adcs := rfl
@[simp] theorem State.withLanes_gx (s : State) (x : Vector LaneUnit 6) : (s.withLanes x).gx = s.gx := rfl
@[simp] theorem State.withLanes_met (s : State) (x : Vector LaneUnit 6) : (s.withLanes x).met = s.met := rfl
@[simp] theorem State.withLanes_clk (s : State) (x : Vector LaneUnit 6) : (s.withLanes x).clk = s.clk := rfl
@[simp] theorem State.withLanes_lanes (s : State) (x : Vector LaneUnit 6) : (s.withLanes x).lanes = x := rfl
@[simp] theorem State.withLanes_wlk (s : State) (x : Vector LaneUnit 6) : (s.withLanes x).wlk = s.wlk := rfl
@[simp] theorem State.withLanes_net (s : State) (x : Vector LaneUnit 6) : (s.withLanes x).net = s.net := rfl
@[simp] theorem State.withLanes_sag (s : State) (x : Vector LaneUnit 6) : (s.withLanes x).sag = s.sag := rfl
@[simp] theorem State.withLanes_pug (s : State) (x : Vector LaneUnit 6) : (s.withLanes x).pug = s.pug := rfl
@[simp] theorem State.withLanes_pwr (s : State) (x : Vector LaneUnit 6) : (s.withLanes x).pwr = s.pwr := rfl
@[simp] theorem State.withLanes_grg (s : State) (x : Vector LaneUnit 6) : (s.withLanes x).grg = s.grg := rfl
@[simp] theorem State.withLanes_con (s : State) (x : Vector LaneUnit 6) : (s.withLanes x).con = s.con := rfl
@[simp] theorem State.withLanes_ports (s : State) (x : Vector LaneUnit 6) : (s.withLanes x).ports = s.ports := rfl
theorem State.withWlk_eq (s : State) (x : Wlk) : s.withWlk x = { s with wlk := x } := rfl
@[simp] theorem State.withWlk_get (s : State) (x : Wlk) (f : Fld) : (s.withWlk x).get f = s.get f := rfl
@[simp] theorem State.withWlk_pending (s : State) (x : Wlk) : (s.withWlk x).pending = s.pending := rfl
@[simp] theorem State.withWlk_regs (s : State) (x : Wlk) : (s.withWlk x).regs = s.regs := rfl
@[simp] theorem State.withWlk_slots (s : State) (x : Wlk) : (s.withWlk x).slots = s.slots := rfl
@[simp] theorem State.withWlk_coef (s : State) (x : Wlk) : (s.withWlk x).coef = s.coef := rfl
@[simp] theorem State.withWlk_prog (s : State) (x : Wlk) : (s.withWlk x).prog = s.prog := rfl
@[simp] theorem State.withWlk_sram (s : State) (x : Wlk) : (s.withWlk x).sram = s.sram := rfl
@[simp] theorem State.withWlk_held (s : State) (x : Wlk) : (s.withWlk x).held = s.held := rfl
@[simp] theorem State.withWlk_resp (s : State) (x : Wlk) : (s.withWlk x).resp = s.resp := rfl
@[simp] theorem State.withWlk_free (s : State) (x : Wlk) : (s.withWlk x).free = s.free := rfl
@[simp] theorem State.withWlk_outbox (s : State) (x : Wlk) : (s.withWlk x).outbox = s.outbox := rfl
@[simp] theorem State.withWlk_glz (s : State) (x : Wlk) : (s.withWlk x).glz = s.glz := rfl
@[simp] theorem State.withWlk_fab (s : State) (x : Wlk) : (s.withWlk x).fab = s.fab := rfl
@[simp] theorem State.withWlk_wheels (s : State) (x : Wlk) : (s.withWlk x).wheels = s.wheels := rfl
@[simp] theorem State.withWlk_groups (s : State) (x : Wlk) : (s.withWlk x).groups = s.groups := rfl
@[simp] theorem State.withWlk_gsus (s : State) (x : Wlk) : (s.withWlk x).gsus = s.gsus := rfl
@[simp] theorem State.withWlk_rts (s : State) (x : Wlk) : (s.withWlk x).rts = s.rts := rfl
@[simp] theorem State.withWlk_isl (s : State) (x : Wlk) : (s.withWlk x).isl = s.isl := rfl
@[simp] theorem State.withWlk_dci (s : State) (x : Wlk) : (s.withWlk x).dci = s.dci := rfl
@[simp] theorem State.withWlk_mod (s : State) (x : Wlk) : (s.withWlk x).mod = s.mod := rfl
@[simp] theorem State.withWlk_tiles (s : State) (x : Wlk) : (s.withWlk x).tiles = s.tiles := rfl
@[simp] theorem State.withWlk_wins (s : State) (x : Wlk) : (s.withWlk x).wins = s.wins := rfl
@[simp] theorem State.withWlk_sit (s : State) (x : Wlk) : (s.withWlk x).sit = s.sit := rfl
@[simp] theorem State.withWlk_adcs (s : State) (x : Wlk) : (s.withWlk x).adcs = s.adcs := rfl
@[simp] theorem State.withWlk_gx (s : State) (x : Wlk) : (s.withWlk x).gx = s.gx := rfl
@[simp] theorem State.withWlk_met (s : State) (x : Wlk) : (s.withWlk x).met = s.met := rfl
@[simp] theorem State.withWlk_clk (s : State) (x : Wlk) : (s.withWlk x).clk = s.clk := rfl
@[simp] theorem State.withWlk_lanes (s : State) (x : Wlk) : (s.withWlk x).lanes = s.lanes := rfl
@[simp] theorem State.withWlk_wlk (s : State) (x : Wlk) : (s.withWlk x).wlk = x := rfl
@[simp] theorem State.withWlk_net (s : State) (x : Wlk) : (s.withWlk x).net = s.net := rfl
@[simp] theorem State.withWlk_sag (s : State) (x : Wlk) : (s.withWlk x).sag = s.sag := rfl
@[simp] theorem State.withWlk_pug (s : State) (x : Wlk) : (s.withWlk x).pug = s.pug := rfl
@[simp] theorem State.withWlk_pwr (s : State) (x : Wlk) : (s.withWlk x).pwr = s.pwr := rfl
@[simp] theorem State.withWlk_grg (s : State) (x : Wlk) : (s.withWlk x).grg = s.grg := rfl
@[simp] theorem State.withWlk_con (s : State) (x : Wlk) : (s.withWlk x).con = s.con := rfl
@[simp] theorem State.withWlk_ports (s : State) (x : Wlk) : (s.withWlk x).ports = s.ports := rfl
theorem State.withNet_eq (s : State) (x : Net) : s.withNet x = { s with net := x } := rfl
@[simp] theorem State.withNet_get (s : State) (x : Net) (f : Fld) : (s.withNet x).get f = s.get f := rfl
@[simp] theorem State.withNet_pending (s : State) (x : Net) : (s.withNet x).pending = s.pending := rfl
@[simp] theorem State.withNet_regs (s : State) (x : Net) : (s.withNet x).regs = s.regs := rfl
@[simp] theorem State.withNet_slots (s : State) (x : Net) : (s.withNet x).slots = s.slots := rfl
@[simp] theorem State.withNet_coef (s : State) (x : Net) : (s.withNet x).coef = s.coef := rfl
@[simp] theorem State.withNet_prog (s : State) (x : Net) : (s.withNet x).prog = s.prog := rfl
@[simp] theorem State.withNet_sram (s : State) (x : Net) : (s.withNet x).sram = s.sram := rfl
@[simp] theorem State.withNet_held (s : State) (x : Net) : (s.withNet x).held = s.held := rfl
@[simp] theorem State.withNet_resp (s : State) (x : Net) : (s.withNet x).resp = s.resp := rfl
@[simp] theorem State.withNet_free (s : State) (x : Net) : (s.withNet x).free = s.free := rfl
@[simp] theorem State.withNet_outbox (s : State) (x : Net) : (s.withNet x).outbox = s.outbox := rfl
@[simp] theorem State.withNet_glz (s : State) (x : Net) : (s.withNet x).glz = s.glz := rfl
@[simp] theorem State.withNet_fab (s : State) (x : Net) : (s.withNet x).fab = s.fab := rfl
@[simp] theorem State.withNet_wheels (s : State) (x : Net) : (s.withNet x).wheels = s.wheels := rfl
@[simp] theorem State.withNet_groups (s : State) (x : Net) : (s.withNet x).groups = s.groups := rfl
@[simp] theorem State.withNet_gsus (s : State) (x : Net) : (s.withNet x).gsus = s.gsus := rfl
@[simp] theorem State.withNet_rts (s : State) (x : Net) : (s.withNet x).rts = s.rts := rfl
@[simp] theorem State.withNet_isl (s : State) (x : Net) : (s.withNet x).isl = s.isl := rfl
@[simp] theorem State.withNet_dci (s : State) (x : Net) : (s.withNet x).dci = s.dci := rfl
@[simp] theorem State.withNet_mod (s : State) (x : Net) : (s.withNet x).mod = s.mod := rfl
@[simp] theorem State.withNet_tiles (s : State) (x : Net) : (s.withNet x).tiles = s.tiles := rfl
@[simp] theorem State.withNet_wins (s : State) (x : Net) : (s.withNet x).wins = s.wins := rfl
@[simp] theorem State.withNet_sit (s : State) (x : Net) : (s.withNet x).sit = s.sit := rfl
@[simp] theorem State.withNet_adcs (s : State) (x : Net) : (s.withNet x).adcs = s.adcs := rfl
@[simp] theorem State.withNet_gx (s : State) (x : Net) : (s.withNet x).gx = s.gx := rfl
@[simp] theorem State.withNet_met (s : State) (x : Net) : (s.withNet x).met = s.met := rfl
@[simp] theorem State.withNet_clk (s : State) (x : Net) : (s.withNet x).clk = s.clk := rfl
@[simp] theorem State.withNet_lanes (s : State) (x : Net) : (s.withNet x).lanes = s.lanes := rfl
@[simp] theorem State.withNet_wlk (s : State) (x : Net) : (s.withNet x).wlk = s.wlk := rfl
@[simp] theorem State.withNet_net (s : State) (x : Net) : (s.withNet x).net = x := rfl
@[simp] theorem State.withNet_sag (s : State) (x : Net) : (s.withNet x).sag = s.sag := rfl
@[simp] theorem State.withNet_pug (s : State) (x : Net) : (s.withNet x).pug = s.pug := rfl
@[simp] theorem State.withNet_pwr (s : State) (x : Net) : (s.withNet x).pwr = s.pwr := rfl
@[simp] theorem State.withNet_grg (s : State) (x : Net) : (s.withNet x).grg = s.grg := rfl
@[simp] theorem State.withNet_con (s : State) (x : Net) : (s.withNet x).con = s.con := rfl
@[simp] theorem State.withNet_ports (s : State) (x : Net) : (s.withNet x).ports = s.ports := rfl
theorem State.withSag_eq (s : State) (x : SagState) : s.withSag x = { s with sag := x } := rfl
@[simp] theorem State.withSag_get (s : State) (x : SagState) (f : Fld) : (s.withSag x).get f = s.get f := rfl
@[simp] theorem State.withSag_pending (s : State) (x : SagState) : (s.withSag x).pending = s.pending := rfl
@[simp] theorem State.withSag_regs (s : State) (x : SagState) : (s.withSag x).regs = s.regs := rfl
@[simp] theorem State.withSag_slots (s : State) (x : SagState) : (s.withSag x).slots = s.slots := rfl
@[simp] theorem State.withSag_coef (s : State) (x : SagState) : (s.withSag x).coef = s.coef := rfl
@[simp] theorem State.withSag_prog (s : State) (x : SagState) : (s.withSag x).prog = s.prog := rfl
@[simp] theorem State.withSag_sram (s : State) (x : SagState) : (s.withSag x).sram = s.sram := rfl
@[simp] theorem State.withSag_held (s : State) (x : SagState) : (s.withSag x).held = s.held := rfl
@[simp] theorem State.withSag_resp (s : State) (x : SagState) : (s.withSag x).resp = s.resp := rfl
@[simp] theorem State.withSag_free (s : State) (x : SagState) : (s.withSag x).free = s.free := rfl
@[simp] theorem State.withSag_outbox (s : State) (x : SagState) : (s.withSag x).outbox = s.outbox := rfl
@[simp] theorem State.withSag_glz (s : State) (x : SagState) : (s.withSag x).glz = s.glz := rfl
@[simp] theorem State.withSag_fab (s : State) (x : SagState) : (s.withSag x).fab = s.fab := rfl
@[simp] theorem State.withSag_wheels (s : State) (x : SagState) : (s.withSag x).wheels = s.wheels := rfl
@[simp] theorem State.withSag_groups (s : State) (x : SagState) : (s.withSag x).groups = s.groups := rfl
@[simp] theorem State.withSag_gsus (s : State) (x : SagState) : (s.withSag x).gsus = s.gsus := rfl
@[simp] theorem State.withSag_rts (s : State) (x : SagState) : (s.withSag x).rts = s.rts := rfl
@[simp] theorem State.withSag_isl (s : State) (x : SagState) : (s.withSag x).isl = s.isl := rfl
@[simp] theorem State.withSag_dci (s : State) (x : SagState) : (s.withSag x).dci = s.dci := rfl
@[simp] theorem State.withSag_mod (s : State) (x : SagState) : (s.withSag x).mod = s.mod := rfl
@[simp] theorem State.withSag_tiles (s : State) (x : SagState) : (s.withSag x).tiles = s.tiles := rfl
@[simp] theorem State.withSag_wins (s : State) (x : SagState) : (s.withSag x).wins = s.wins := rfl
@[simp] theorem State.withSag_sit (s : State) (x : SagState) : (s.withSag x).sit = s.sit := rfl
@[simp] theorem State.withSag_adcs (s : State) (x : SagState) : (s.withSag x).adcs = s.adcs := rfl
@[simp] theorem State.withSag_gx (s : State) (x : SagState) : (s.withSag x).gx = s.gx := rfl
@[simp] theorem State.withSag_met (s : State) (x : SagState) : (s.withSag x).met = s.met := rfl
@[simp] theorem State.withSag_clk (s : State) (x : SagState) : (s.withSag x).clk = s.clk := rfl
@[simp] theorem State.withSag_lanes (s : State) (x : SagState) : (s.withSag x).lanes = s.lanes := rfl
@[simp] theorem State.withSag_wlk (s : State) (x : SagState) : (s.withSag x).wlk = s.wlk := rfl
@[simp] theorem State.withSag_net (s : State) (x : SagState) : (s.withSag x).net = s.net := rfl
@[simp] theorem State.withSag_sag (s : State) (x : SagState) : (s.withSag x).sag = x := rfl
@[simp] theorem State.withSag_pug (s : State) (x : SagState) : (s.withSag x).pug = s.pug := rfl
@[simp] theorem State.withSag_pwr (s : State) (x : SagState) : (s.withSag x).pwr = s.pwr := rfl
@[simp] theorem State.withSag_grg (s : State) (x : SagState) : (s.withSag x).grg = s.grg := rfl
@[simp] theorem State.withSag_con (s : State) (x : SagState) : (s.withSag x).con = s.con := rfl
@[simp] theorem State.withSag_ports (s : State) (x : SagState) : (s.withSag x).ports = s.ports := rfl
theorem State.withPug_eq (s : State) (x : PugState) : s.withPug x = { s with pug := x } := rfl
@[simp] theorem State.withPug_get (s : State) (x : PugState) (f : Fld) : (s.withPug x).get f = s.get f := rfl
@[simp] theorem State.withPug_pending (s : State) (x : PugState) : (s.withPug x).pending = s.pending := rfl
@[simp] theorem State.withPug_regs (s : State) (x : PugState) : (s.withPug x).regs = s.regs := rfl
@[simp] theorem State.withPug_slots (s : State) (x : PugState) : (s.withPug x).slots = s.slots := rfl
@[simp] theorem State.withPug_coef (s : State) (x : PugState) : (s.withPug x).coef = s.coef := rfl
@[simp] theorem State.withPug_prog (s : State) (x : PugState) : (s.withPug x).prog = s.prog := rfl
@[simp] theorem State.withPug_sram (s : State) (x : PugState) : (s.withPug x).sram = s.sram := rfl
@[simp] theorem State.withPug_held (s : State) (x : PugState) : (s.withPug x).held = s.held := rfl
@[simp] theorem State.withPug_resp (s : State) (x : PugState) : (s.withPug x).resp = s.resp := rfl
@[simp] theorem State.withPug_free (s : State) (x : PugState) : (s.withPug x).free = s.free := rfl
@[simp] theorem State.withPug_outbox (s : State) (x : PugState) : (s.withPug x).outbox = s.outbox := rfl
@[simp] theorem State.withPug_glz (s : State) (x : PugState) : (s.withPug x).glz = s.glz := rfl
@[simp] theorem State.withPug_fab (s : State) (x : PugState) : (s.withPug x).fab = s.fab := rfl
@[simp] theorem State.withPug_wheels (s : State) (x : PugState) : (s.withPug x).wheels = s.wheels := rfl
@[simp] theorem State.withPug_groups (s : State) (x : PugState) : (s.withPug x).groups = s.groups := rfl
@[simp] theorem State.withPug_gsus (s : State) (x : PugState) : (s.withPug x).gsus = s.gsus := rfl
@[simp] theorem State.withPug_rts (s : State) (x : PugState) : (s.withPug x).rts = s.rts := rfl
@[simp] theorem State.withPug_isl (s : State) (x : PugState) : (s.withPug x).isl = s.isl := rfl
@[simp] theorem State.withPug_dci (s : State) (x : PugState) : (s.withPug x).dci = s.dci := rfl
@[simp] theorem State.withPug_mod (s : State) (x : PugState) : (s.withPug x).mod = s.mod := rfl
@[simp] theorem State.withPug_tiles (s : State) (x : PugState) : (s.withPug x).tiles = s.tiles := rfl
@[simp] theorem State.withPug_wins (s : State) (x : PugState) : (s.withPug x).wins = s.wins := rfl
@[simp] theorem State.withPug_sit (s : State) (x : PugState) : (s.withPug x).sit = s.sit := rfl
@[simp] theorem State.withPug_adcs (s : State) (x : PugState) : (s.withPug x).adcs = s.adcs := rfl
@[simp] theorem State.withPug_gx (s : State) (x : PugState) : (s.withPug x).gx = s.gx := rfl
@[simp] theorem State.withPug_met (s : State) (x : PugState) : (s.withPug x).met = s.met := rfl
@[simp] theorem State.withPug_clk (s : State) (x : PugState) : (s.withPug x).clk = s.clk := rfl
@[simp] theorem State.withPug_lanes (s : State) (x : PugState) : (s.withPug x).lanes = s.lanes := rfl
@[simp] theorem State.withPug_wlk (s : State) (x : PugState) : (s.withPug x).wlk = s.wlk := rfl
@[simp] theorem State.withPug_net (s : State) (x : PugState) : (s.withPug x).net = s.net := rfl
@[simp] theorem State.withPug_sag (s : State) (x : PugState) : (s.withPug x).sag = s.sag := rfl
@[simp] theorem State.withPug_pug (s : State) (x : PugState) : (s.withPug x).pug = x := rfl
@[simp] theorem State.withPug_pwr (s : State) (x : PugState) : (s.withPug x).pwr = s.pwr := rfl
@[simp] theorem State.withPug_grg (s : State) (x : PugState) : (s.withPug x).grg = s.grg := rfl
@[simp] theorem State.withPug_con (s : State) (x : PugState) : (s.withPug x).con = s.con := rfl
@[simp] theorem State.withPug_ports (s : State) (x : PugState) : (s.withPug x).ports = s.ports := rfl
theorem State.withPwr_eq (s : State) (x : PwrState) : s.withPwr x = { s with pwr := x } := rfl
@[simp] theorem State.withPwr_get (s : State) (x : PwrState) (f : Fld) : (s.withPwr x).get f = s.get f := rfl
@[simp] theorem State.withPwr_pending (s : State) (x : PwrState) : (s.withPwr x).pending = s.pending := rfl
@[simp] theorem State.withPwr_regs (s : State) (x : PwrState) : (s.withPwr x).regs = s.regs := rfl
@[simp] theorem State.withPwr_slots (s : State) (x : PwrState) : (s.withPwr x).slots = s.slots := rfl
@[simp] theorem State.withPwr_coef (s : State) (x : PwrState) : (s.withPwr x).coef = s.coef := rfl
@[simp] theorem State.withPwr_prog (s : State) (x : PwrState) : (s.withPwr x).prog = s.prog := rfl
@[simp] theorem State.withPwr_sram (s : State) (x : PwrState) : (s.withPwr x).sram = s.sram := rfl
@[simp] theorem State.withPwr_held (s : State) (x : PwrState) : (s.withPwr x).held = s.held := rfl
@[simp] theorem State.withPwr_resp (s : State) (x : PwrState) : (s.withPwr x).resp = s.resp := rfl
@[simp] theorem State.withPwr_free (s : State) (x : PwrState) : (s.withPwr x).free = s.free := rfl
@[simp] theorem State.withPwr_outbox (s : State) (x : PwrState) : (s.withPwr x).outbox = s.outbox := rfl
@[simp] theorem State.withPwr_glz (s : State) (x : PwrState) : (s.withPwr x).glz = s.glz := rfl
@[simp] theorem State.withPwr_fab (s : State) (x : PwrState) : (s.withPwr x).fab = s.fab := rfl
@[simp] theorem State.withPwr_wheels (s : State) (x : PwrState) : (s.withPwr x).wheels = s.wheels := rfl
@[simp] theorem State.withPwr_groups (s : State) (x : PwrState) : (s.withPwr x).groups = s.groups := rfl
@[simp] theorem State.withPwr_gsus (s : State) (x : PwrState) : (s.withPwr x).gsus = s.gsus := rfl
@[simp] theorem State.withPwr_rts (s : State) (x : PwrState) : (s.withPwr x).rts = s.rts := rfl
@[simp] theorem State.withPwr_isl (s : State) (x : PwrState) : (s.withPwr x).isl = s.isl := rfl
@[simp] theorem State.withPwr_dci (s : State) (x : PwrState) : (s.withPwr x).dci = s.dci := rfl
@[simp] theorem State.withPwr_mod (s : State) (x : PwrState) : (s.withPwr x).mod = s.mod := rfl
@[simp] theorem State.withPwr_tiles (s : State) (x : PwrState) : (s.withPwr x).tiles = s.tiles := rfl
@[simp] theorem State.withPwr_wins (s : State) (x : PwrState) : (s.withPwr x).wins = s.wins := rfl
@[simp] theorem State.withPwr_sit (s : State) (x : PwrState) : (s.withPwr x).sit = s.sit := rfl
@[simp] theorem State.withPwr_adcs (s : State) (x : PwrState) : (s.withPwr x).adcs = s.adcs := rfl
@[simp] theorem State.withPwr_gx (s : State) (x : PwrState) : (s.withPwr x).gx = s.gx := rfl
@[simp] theorem State.withPwr_met (s : State) (x : PwrState) : (s.withPwr x).met = s.met := rfl
@[simp] theorem State.withPwr_clk (s : State) (x : PwrState) : (s.withPwr x).clk = s.clk := rfl
@[simp] theorem State.withPwr_lanes (s : State) (x : PwrState) : (s.withPwr x).lanes = s.lanes := rfl
@[simp] theorem State.withPwr_wlk (s : State) (x : PwrState) : (s.withPwr x).wlk = s.wlk := rfl
@[simp] theorem State.withPwr_net (s : State) (x : PwrState) : (s.withPwr x).net = s.net := rfl
@[simp] theorem State.withPwr_sag (s : State) (x : PwrState) : (s.withPwr x).sag = s.sag := rfl
@[simp] theorem State.withPwr_pug (s : State) (x : PwrState) : (s.withPwr x).pug = s.pug := rfl
@[simp] theorem State.withPwr_pwr (s : State) (x : PwrState) : (s.withPwr x).pwr = x := rfl
@[simp] theorem State.withPwr_grg (s : State) (x : PwrState) : (s.withPwr x).grg = s.grg := rfl
@[simp] theorem State.withPwr_con (s : State) (x : PwrState) : (s.withPwr x).con = s.con := rfl
@[simp] theorem State.withPwr_ports (s : State) (x : PwrState) : (s.withPwr x).ports = s.ports := rfl
theorem State.withGrg_eq (s : State) (x : Grog) : s.withGrg x = { s with grg := x } := rfl
@[simp] theorem State.withGrg_get (s : State) (x : Grog) (f : Fld) : (s.withGrg x).get f = s.get f := rfl
@[simp] theorem State.withGrg_pending (s : State) (x : Grog) : (s.withGrg x).pending = s.pending := rfl
@[simp] theorem State.withGrg_regs (s : State) (x : Grog) : (s.withGrg x).regs = s.regs := rfl
@[simp] theorem State.withGrg_slots (s : State) (x : Grog) : (s.withGrg x).slots = s.slots := rfl
@[simp] theorem State.withGrg_coef (s : State) (x : Grog) : (s.withGrg x).coef = s.coef := rfl
@[simp] theorem State.withGrg_prog (s : State) (x : Grog) : (s.withGrg x).prog = s.prog := rfl
@[simp] theorem State.withGrg_sram (s : State) (x : Grog) : (s.withGrg x).sram = s.sram := rfl
@[simp] theorem State.withGrg_held (s : State) (x : Grog) : (s.withGrg x).held = s.held := rfl
@[simp] theorem State.withGrg_resp (s : State) (x : Grog) : (s.withGrg x).resp = s.resp := rfl
@[simp] theorem State.withGrg_free (s : State) (x : Grog) : (s.withGrg x).free = s.free := rfl
@[simp] theorem State.withGrg_outbox (s : State) (x : Grog) : (s.withGrg x).outbox = s.outbox := rfl
@[simp] theorem State.withGrg_glz (s : State) (x : Grog) : (s.withGrg x).glz = s.glz := rfl
@[simp] theorem State.withGrg_fab (s : State) (x : Grog) : (s.withGrg x).fab = s.fab := rfl
@[simp] theorem State.withGrg_wheels (s : State) (x : Grog) : (s.withGrg x).wheels = s.wheels := rfl
@[simp] theorem State.withGrg_groups (s : State) (x : Grog) : (s.withGrg x).groups = s.groups := rfl
@[simp] theorem State.withGrg_gsus (s : State) (x : Grog) : (s.withGrg x).gsus = s.gsus := rfl
@[simp] theorem State.withGrg_rts (s : State) (x : Grog) : (s.withGrg x).rts = s.rts := rfl
@[simp] theorem State.withGrg_isl (s : State) (x : Grog) : (s.withGrg x).isl = s.isl := rfl
@[simp] theorem State.withGrg_dci (s : State) (x : Grog) : (s.withGrg x).dci = s.dci := rfl
@[simp] theorem State.withGrg_mod (s : State) (x : Grog) : (s.withGrg x).mod = s.mod := rfl
@[simp] theorem State.withGrg_tiles (s : State) (x : Grog) : (s.withGrg x).tiles = s.tiles := rfl
@[simp] theorem State.withGrg_wins (s : State) (x : Grog) : (s.withGrg x).wins = s.wins := rfl
@[simp] theorem State.withGrg_sit (s : State) (x : Grog) : (s.withGrg x).sit = s.sit := rfl
@[simp] theorem State.withGrg_adcs (s : State) (x : Grog) : (s.withGrg x).adcs = s.adcs := rfl
@[simp] theorem State.withGrg_gx (s : State) (x : Grog) : (s.withGrg x).gx = s.gx := rfl
@[simp] theorem State.withGrg_met (s : State) (x : Grog) : (s.withGrg x).met = s.met := rfl
@[simp] theorem State.withGrg_clk (s : State) (x : Grog) : (s.withGrg x).clk = s.clk := rfl
@[simp] theorem State.withGrg_lanes (s : State) (x : Grog) : (s.withGrg x).lanes = s.lanes := rfl
@[simp] theorem State.withGrg_wlk (s : State) (x : Grog) : (s.withGrg x).wlk = s.wlk := rfl
@[simp] theorem State.withGrg_net (s : State) (x : Grog) : (s.withGrg x).net = s.net := rfl
@[simp] theorem State.withGrg_sag (s : State) (x : Grog) : (s.withGrg x).sag = s.sag := rfl
@[simp] theorem State.withGrg_pug (s : State) (x : Grog) : (s.withGrg x).pug = s.pug := rfl
@[simp] theorem State.withGrg_pwr (s : State) (x : Grog) : (s.withGrg x).pwr = s.pwr := rfl
@[simp] theorem State.withGrg_grg (s : State) (x : Grog) : (s.withGrg x).grg = x := rfl
@[simp] theorem State.withGrg_con (s : State) (x : Grog) : (s.withGrg x).con = s.con := rfl
@[simp] theorem State.withGrg_ports (s : State) (x : Grog) : (s.withGrg x).ports = s.ports := rfl
theorem State.withCon_eq (s : State) (x : ConState) : s.withCon x = { s with con := x } := rfl
@[simp] theorem State.withCon_get (s : State) (x : ConState) (f : Fld) : (s.withCon x).get f = s.get f := rfl
@[simp] theorem State.withCon_pending (s : State) (x : ConState) : (s.withCon x).pending = s.pending := rfl
@[simp] theorem State.withCon_regs (s : State) (x : ConState) : (s.withCon x).regs = s.regs := rfl
@[simp] theorem State.withCon_slots (s : State) (x : ConState) : (s.withCon x).slots = s.slots := rfl
@[simp] theorem State.withCon_coef (s : State) (x : ConState) : (s.withCon x).coef = s.coef := rfl
@[simp] theorem State.withCon_prog (s : State) (x : ConState) : (s.withCon x).prog = s.prog := rfl
@[simp] theorem State.withCon_sram (s : State) (x : ConState) : (s.withCon x).sram = s.sram := rfl
@[simp] theorem State.withCon_held (s : State) (x : ConState) : (s.withCon x).held = s.held := rfl
@[simp] theorem State.withCon_resp (s : State) (x : ConState) : (s.withCon x).resp = s.resp := rfl
@[simp] theorem State.withCon_free (s : State) (x : ConState) : (s.withCon x).free = s.free := rfl
@[simp] theorem State.withCon_outbox (s : State) (x : ConState) : (s.withCon x).outbox = s.outbox := rfl
@[simp] theorem State.withCon_glz (s : State) (x : ConState) : (s.withCon x).glz = s.glz := rfl
@[simp] theorem State.withCon_fab (s : State) (x : ConState) : (s.withCon x).fab = s.fab := rfl
@[simp] theorem State.withCon_wheels (s : State) (x : ConState) : (s.withCon x).wheels = s.wheels := rfl
@[simp] theorem State.withCon_groups (s : State) (x : ConState) : (s.withCon x).groups = s.groups := rfl
@[simp] theorem State.withCon_gsus (s : State) (x : ConState) : (s.withCon x).gsus = s.gsus := rfl
@[simp] theorem State.withCon_rts (s : State) (x : ConState) : (s.withCon x).rts = s.rts := rfl
@[simp] theorem State.withCon_isl (s : State) (x : ConState) : (s.withCon x).isl = s.isl := rfl
@[simp] theorem State.withCon_dci (s : State) (x : ConState) : (s.withCon x).dci = s.dci := rfl
@[simp] theorem State.withCon_mod (s : State) (x : ConState) : (s.withCon x).mod = s.mod := rfl
@[simp] theorem State.withCon_tiles (s : State) (x : ConState) : (s.withCon x).tiles = s.tiles := rfl
@[simp] theorem State.withCon_wins (s : State) (x : ConState) : (s.withCon x).wins = s.wins := rfl
@[simp] theorem State.withCon_sit (s : State) (x : ConState) : (s.withCon x).sit = s.sit := rfl
@[simp] theorem State.withCon_adcs (s : State) (x : ConState) : (s.withCon x).adcs = s.adcs := rfl
@[simp] theorem State.withCon_gx (s : State) (x : ConState) : (s.withCon x).gx = s.gx := rfl
@[simp] theorem State.withCon_met (s : State) (x : ConState) : (s.withCon x).met = s.met := rfl
@[simp] theorem State.withCon_clk (s : State) (x : ConState) : (s.withCon x).clk = s.clk := rfl
@[simp] theorem State.withCon_lanes (s : State) (x : ConState) : (s.withCon x).lanes = s.lanes := rfl
@[simp] theorem State.withCon_wlk (s : State) (x : ConState) : (s.withCon x).wlk = s.wlk := rfl
@[simp] theorem State.withCon_net (s : State) (x : ConState) : (s.withCon x).net = s.net := rfl
@[simp] theorem State.withCon_sag (s : State) (x : ConState) : (s.withCon x).sag = s.sag := rfl
@[simp] theorem State.withCon_pug (s : State) (x : ConState) : (s.withCon x).pug = s.pug := rfl
@[simp] theorem State.withCon_pwr (s : State) (x : ConState) : (s.withCon x).pwr = s.pwr := rfl
@[simp] theorem State.withCon_grg (s : State) (x : ConState) : (s.withCon x).grg = s.grg := rfl
@[simp] theorem State.withCon_con (s : State) (x : ConState) : (s.withCon x).con = x := rfl
@[simp] theorem State.withCon_ports (s : State) (x : ConState) : (s.withCon x).ports = s.ports := rfl
theorem State.withPorts_eq (s : State) (x : HostPorts) : s.withPorts x = { s with ports := x } := rfl
@[simp] theorem State.withPorts_get (s : State) (x : HostPorts) (f : Fld) : (s.withPorts x).get f = s.get f := rfl
@[simp] theorem State.withPorts_pending (s : State) (x : HostPorts) : (s.withPorts x).pending = s.pending := rfl
@[simp] theorem State.withPorts_regs (s : State) (x : HostPorts) : (s.withPorts x).regs = s.regs := rfl
@[simp] theorem State.withPorts_slots (s : State) (x : HostPorts) : (s.withPorts x).slots = s.slots := rfl
@[simp] theorem State.withPorts_coef (s : State) (x : HostPorts) : (s.withPorts x).coef = s.coef := rfl
@[simp] theorem State.withPorts_prog (s : State) (x : HostPorts) : (s.withPorts x).prog = s.prog := rfl
@[simp] theorem State.withPorts_sram (s : State) (x : HostPorts) : (s.withPorts x).sram = s.sram := rfl
@[simp] theorem State.withPorts_held (s : State) (x : HostPorts) : (s.withPorts x).held = s.held := rfl
@[simp] theorem State.withPorts_resp (s : State) (x : HostPorts) : (s.withPorts x).resp = s.resp := rfl
@[simp] theorem State.withPorts_free (s : State) (x : HostPorts) : (s.withPorts x).free = s.free := rfl
@[simp] theorem State.withPorts_outbox (s : State) (x : HostPorts) : (s.withPorts x).outbox = s.outbox := rfl
@[simp] theorem State.withPorts_glz (s : State) (x : HostPorts) : (s.withPorts x).glz = s.glz := rfl
@[simp] theorem State.withPorts_fab (s : State) (x : HostPorts) : (s.withPorts x).fab = s.fab := rfl
@[simp] theorem State.withPorts_wheels (s : State) (x : HostPorts) : (s.withPorts x).wheels = s.wheels := rfl
@[simp] theorem State.withPorts_groups (s : State) (x : HostPorts) : (s.withPorts x).groups = s.groups := rfl
@[simp] theorem State.withPorts_gsus (s : State) (x : HostPorts) : (s.withPorts x).gsus = s.gsus := rfl
@[simp] theorem State.withPorts_rts (s : State) (x : HostPorts) : (s.withPorts x).rts = s.rts := rfl
@[simp] theorem State.withPorts_isl (s : State) (x : HostPorts) : (s.withPorts x).isl = s.isl := rfl
@[simp] theorem State.withPorts_dci (s : State) (x : HostPorts) : (s.withPorts x).dci = s.dci := rfl
@[simp] theorem State.withPorts_mod (s : State) (x : HostPorts) : (s.withPorts x).mod = s.mod := rfl
@[simp] theorem State.withPorts_tiles (s : State) (x : HostPorts) : (s.withPorts x).tiles = s.tiles := rfl
@[simp] theorem State.withPorts_wins (s : State) (x : HostPorts) : (s.withPorts x).wins = s.wins := rfl
@[simp] theorem State.withPorts_sit (s : State) (x : HostPorts) : (s.withPorts x).sit = s.sit := rfl
@[simp] theorem State.withPorts_adcs (s : State) (x : HostPorts) : (s.withPorts x).adcs = s.adcs := rfl
@[simp] theorem State.withPorts_gx (s : State) (x : HostPorts) : (s.withPorts x).gx = s.gx := rfl
@[simp] theorem State.withPorts_met (s : State) (x : HostPorts) : (s.withPorts x).met = s.met := rfl
@[simp] theorem State.withPorts_clk (s : State) (x : HostPorts) : (s.withPorts x).clk = s.clk := rfl
@[simp] theorem State.withPorts_lanes (s : State) (x : HostPorts) : (s.withPorts x).lanes = s.lanes := rfl
@[simp] theorem State.withPorts_wlk (s : State) (x : HostPorts) : (s.withPorts x).wlk = s.wlk := rfl
@[simp] theorem State.withPorts_net (s : State) (x : HostPorts) : (s.withPorts x).net = s.net := rfl
@[simp] theorem State.withPorts_sag (s : State) (x : HostPorts) : (s.withPorts x).sag = s.sag := rfl
@[simp] theorem State.withPorts_pug (s : State) (x : HostPorts) : (s.withPorts x).pug = s.pug := rfl
@[simp] theorem State.withPorts_pwr (s : State) (x : HostPorts) : (s.withPorts x).pwr = s.pwr := rfl
@[simp] theorem State.withPorts_grg (s : State) (x : HostPorts) : (s.withPorts x).grg = s.grg := rfl
@[simp] theorem State.withPorts_con (s : State) (x : HostPorts) : (s.withPorts x).con = s.con := rfl
@[simp] theorem State.withPorts_ports (s : State) (x : HostPorts) : (s.withPorts x).ports = x := rfl

/-! The field that an update names. -/

@[simp] theorem State.onIsl_isl (s : State) (g : IslUnit → IslUnit) : (s.onIsl g).isl = g s.isl := rfl
@[simp] theorem State.onPug_pug (s : State) (g : PugState → PugState) : (s.onPug g).pug = g s.pug := rfl
@[simp] theorem State.onWlk_wlk (s : State) (g : Wlk → Wlk) : (s.onWlk g).wlk = g s.wlk := rfl
@[simp] theorem State.onSag_sag (s : State) (g : SagState → SagState) : (s.onSag g).sag = g s.sag := rfl
@[simp] theorem State.onPwr_pwr (s : State) (g : PwrState → PwrState) : (s.onPwr g).pwr = g s.pwr := rfl
@[simp] theorem State.onGlz_glz (s : State) (g : GlzState → GlzState) : (s.onGlz g).glz = g s.glz := rfl

end Sys2Proof.Machine
end

