-- ==== Sys2Proof/Laws/Only.lean ====
section
/-!
SUPPORT. Laws of the frame of register fields: an operation on a field of the list leaves every other field.
-/

namespace Sys2Proof.Machine

open Sys2Proof

theorem OnlyRegs.refl (fs : List Fld) (s : State) : OnlyRegs fs s s := fun _ _ _ => rfl

theorem OnlyRegs.trans {fs : List Fld} {r s t : State} (h : OnlyRegs fs r s) (k : OnlyRegs fs s t) : OnlyRegs fs r t := fun g hg hf =>
  (k g hg hf).trans (h g hg hf)

theorem OnlyRegs.mono {fs gs : List Fld} {s t : State} (h : OnlyRegs fs s t) (k : ∀ f ∈ fs, f ∈ gs) : OnlyRegs gs s t := fun g hg hf =>
  h g hg fun f m => hf f (k f m)

theorem OnlyRegs.regs {fs : List Fld} {r s t : State} (h : OnlyRegs fs r s) (e : t.regs = s.regs) : OnlyRegs fs r t := fun g hg hf => by
  simp only [State.get, e]
  exact h g hg hf

theorem OnlyRegs.put {fs : List Fld} {r s : State} (h : OnlyRegs fs r s) (f : Fld) (v : Nat) (m : f ∈ fs) : OnlyRegs fs r (s.put f v) :=
  fun g hg hf => (State.get_put_apart s f g v hg (hf f m)).trans (h g hg hf)

theorem OnlyRegs.putB {fs : List Fld} {r s : State} (h : OnlyRegs fs r s) (f : Fld) (b : Bool) (m : f ∈ fs) :
    OnlyRegs fs r (s.putB f b) := h.put f _ m

theorem OnlyRegs.putI {fs : List Fld} {r s : State} (h : OnlyRegs fs r s) (f : Fld) (i : Int) (m : f ∈ fs) :
    OnlyRegs fs r (s.putI f i) := h.put f _ m

theorem OnlyRegs.putBit {fs : List Fld} {r s : State} (h : OnlyRegs fs r s) (f : Fld) (i : Nat) (b : Bool) (m : f ∈ fs) :
    OnlyRegs fs r (s.putBit f i b) := h.put f _ m

theorem OnlyRegs.orBits {fs : List Fld} {r s : State} (h : OnlyRegs fs r s) (f : Fld) (n : Nat) (m : f ∈ fs) :
    OnlyRegs fs r (s.orBits f n) := h.put f _ m

theorem OnlyRegs.incWrap {fs : List Fld} {r s : State} (h : OnlyRegs fs r s) (f : Fld) (m : f ∈ fs) :
    OnlyRegs fs r (s.incWrap f) := h.put f _ m

theorem OnlyRegs.inc {fs : List Fld} {r s : State} (h : OnlyRegs fs r s) (f : Fld) (m : f ∈ fs) : OnlyRegs fs r (s.inc f) := by
  unfold State.inc
  split
  · exact h.put f _ m
  · exact h

theorem OnlyRegs.ite {fs : List Fld} {r s t : State} {c : Prop} [Decidable c] (h : OnlyRegs fs r s) (k : OnlyRegs fs r t) :
    OnlyRegs fs r (if c then s else t) := by
  split
  · exact h
  · exact k

theorem OnlyRegs.when {fs : List Fld} {r s : State} {b : Bool} {f : State → State} (h : OnlyRegs fs r s)
    (k : ∀ u, OnlyRegs fs r u → OnlyRegs fs r (f u)) : OnlyRegs fs r (s.when b f) := by
  unfold State.when
  split
  · exact k s h
  · exact h

theorem OnlyRegs.each {fs : List Fld} {r s : State} {α : Type} {xs : List α} {f : α → State → State} (h : OnlyRegs fs r s)
    (k : ∀ a u, OnlyRegs fs r u → OnlyRegs fs r (f a u)) : OnlyRegs fs r (s.each xs f) := by
  unfold State.each
  induction xs generalizing s with
  | nil => exact h
  | cons a t ih => exact ih (k a s h)

/-! Operations that leave every register. -/

@[simp] theorem OnlyRegs.publish_iff {fs : List Fld} {r : State} (s : State) (k : Nat) (v : Word) :
    OnlyRegs fs r (s.publish k v) ↔ OnlyRegs fs r s := Iff.rfl
@[simp] theorem OnlyRegs.tookFree_iff {fs : List Fld} {r : State} (s : State) :
    OnlyRegs fs r (s.tookFree) ↔ OnlyRegs fs r s := Iff.rfl
@[simp] theorem OnlyRegs.respond_iff {fs : List Fld} {r : State} (s : State) (v : Nat) :
    OnlyRegs fs r (s.respond v) ↔ OnlyRegs fs r s := Iff.rfl
@[simp] theorem OnlyRegs.busError_iff {fs : List Fld} {r : State} (s : State) :
    OnlyRegs fs r (s.busError) ↔ OnlyRegs fs r s := Iff.rfl
@[simp] theorem OnlyRegs.send_iff {fs : List Fld} {r : State} (s : State) (u : OutUnit) :
    OnlyRegs fs r (s.send u) ↔ OnlyRegs fs r s := Iff.rfl
@[simp] theorem OnlyRegs.onPair_iff {fs : List Fld} {r : State} (s : State) (p : Fin 9) (f : Pair → Pair) :
    OnlyRegs fs r (s.onPair p f) ↔ OnlyRegs fs r s := Iff.rfl
@[simp] theorem OnlyRegs.onTile_iff {fs : List Fld} {r : State} (s : State) (n : Fin 9) (f : Tile → Tile) :
    OnlyRegs fs r (s.onTile n f) ↔ OnlyRegs fs r s := Iff.rfl
@[simp] theorem OnlyRegs.onChan_iff {fs : List Fld} {r : State} (s : State) (n : Fin 9) (c : Fin 2) (f : Chan → Chan) :
    OnlyRegs fs r (s.onChan n c f) ↔ OnlyRegs fs r s := Iff.rfl
@[simp] theorem OnlyRegs.onWin_iff {fs : List Fld} {r : State} (s : State) (n : Fin 44) (f : WinUnit → WinUnit) :
    OnlyRegs fs r (s.onWin n f) ↔ OnlyRegs fs r s := Iff.rfl
@[simp] theorem OnlyRegs.onWheel_iff {fs : List Fld} {r : State} (s : State) (w : Fin 64) (f : Wheel → Wheel) :
    OnlyRegs fs r (s.onWheel w f) ↔ OnlyRegs fs r s := Iff.rfl
@[simp] theorem OnlyRegs.onGroup_iff {fs : List Fld} {r : State} (s : State) (k : Fin 8) (f : Group → Group) :
    OnlyRegs fs r (s.onGroup k f) ↔ OnlyRegs fs r s := Iff.rfl
@[simp] theorem OnlyRegs.onGsu_iff {fs : List Fld} {r : State} (s : State) (i : Fin 4) (f : Gsu → Gsu) :
    OnlyRegs fs r (s.onGsu i f) ↔ OnlyRegs fs r s := Iff.rfl
@[simp] theorem OnlyRegs.onAdc_iff {fs : List Fld} {r : State} (s : State) (n : Fin 18) (f : AdcCore → AdcCore) :
    OnlyRegs fs r (s.onAdc n f) ↔ OnlyRegs fs r s := Iff.rfl
@[simp] theorem OnlyRegs.onPll_iff {fs : List Fld} {r : State} (s : State) (n : Fin 7) (f : Pll → Pll) :
    OnlyRegs fs r (s.onPll n f) ↔ OnlyRegs fs r s := Iff.rfl
@[simp] theorem OnlyRegs.onIsl_iff {fs : List Fld} {r : State} (s : State) (f : IslUnit → IslUnit) :
    OnlyRegs fs r (s.onIsl f) ↔ OnlyRegs fs r s := Iff.rfl
@[simp] theorem OnlyRegs.onLeg_iff {fs : List Fld} {r : State} (s : State) (l : Fin 6) (f : DciLeg → DciLeg) :
    OnlyRegs fs r (s.onLeg l f) ↔ OnlyRegs fs r s := Iff.rfl
@[simp] theorem OnlyRegs.onLane_iff {fs : List Fld} {r : State} (s : State) (l : Fin 6) (f : LaneUnit → LaneUnit) :
    OnlyRegs fs r (s.onLane l f) ↔ OnlyRegs fs r s := Iff.rfl
@[simp] theorem OnlyRegs.onMac_iff {fs : List Fld} {r : State} (s : State) (m : Fin 2) (f : Mac → Mac) :
    OnlyRegs fs r (s.onMac m f) ↔ OnlyRegs fs r s := Iff.rfl
@[simp] theorem OnlyRegs.onWlk_iff {fs : List Fld} {r : State} (s : State) (f : Wlk → Wlk) :
    OnlyRegs fs r (s.onWlk f) ↔ OnlyRegs fs r s := Iff.rfl
@[simp] theorem OnlyRegs.onGain_iff {fs : List Fld} {r : State} (s : State) (c : Fin 4) (f : GainPath → GainPath) :
    OnlyRegs fs r (s.onGain c f) ↔ OnlyRegs fs r s := Iff.rfl
@[simp] theorem OnlyRegs.onSag_iff {fs : List Fld} {r : State} (s : State) (f : SagState → SagState) :
    OnlyRegs fs r (s.onSag f) ↔ OnlyRegs fs r s := Iff.rfl
@[simp] theorem OnlyRegs.onPug_iff {fs : List Fld} {r : State} (s : State) (f : PugState → PugState) :
    OnlyRegs fs r (s.onPug f) ↔ OnlyRegs fs r s := Iff.rfl
@[simp] theorem OnlyRegs.onPwr_iff {fs : List Fld} {r : State} (s : State) (f : PwrState → PwrState) :
    OnlyRegs fs r (s.onPwr f) ↔ OnlyRegs fs r s := Iff.rfl
@[simp] theorem OnlyRegs.onGlz_iff {fs : List Fld} {r : State} (s : State) (f : GlzState → GlzState) :
    OnlyRegs fs r (s.onGlz f) ↔ OnlyRegs fs r s := Iff.rfl
@[simp] theorem OnlyRegs.withSlots_iff {fs : List Fld} {r : State} (s : State) (x : List (Nat × Word)) :
    OnlyRegs fs r (s.withSlots x) ↔ OnlyRegs fs r s := Iff.rfl
@[simp] theorem OnlyRegs.withCoef_iff {fs : List Fld} {r : State} (s : State) (x : List (Nat × Word)) :
    OnlyRegs fs r (s.withCoef x) ↔ OnlyRegs fs r s := Iff.rfl
@[simp] theorem OnlyRegs.withSram_iff {fs : List Fld} {r : State} (s : State) (x : Ram) :
    OnlyRegs fs r (s.withSram x) ↔ OnlyRegs fs r s := Iff.rfl
@[simp] theorem OnlyRegs.withHeld_iff {fs : List Fld} {r : State} (s : State) (x : List Held) :
    OnlyRegs fs r (s.withHeld x) ↔ OnlyRegs fs r s := Iff.rfl
@[simp] theorem OnlyRegs.withResp_iff {fs : List Fld} {r : State} (s : State) (x : Resp) :
    OnlyRegs fs r (s.withResp x) ↔ OnlyRegs fs r s := Iff.rfl
@[simp] theorem OnlyRegs.withFree_iff {fs : List Fld} {r : State} (s : State) (x : Nat) :
    OnlyRegs fs r (s.withFree x) ↔ OnlyRegs fs r s := Iff.rfl
@[simp] theorem OnlyRegs.withOutbox_iff {fs : List Fld} {r : State} (s : State) (x : List OutUnit) :
    OnlyRegs fs r (s.withOutbox x) ↔ OnlyRegs fs r s := Iff.rfl
@[simp] theorem OnlyRegs.withGlz_iff {fs : List Fld} {r : State} (s : State) (x : GlzState) :
    OnlyRegs fs r (s.withGlz x) ↔ OnlyRegs fs r s := Iff.rfl
@[simp] theorem OnlyRegs.withFab_iff {fs : List Fld} {r : State} (s : State) (x : Fabric) :
    OnlyRegs fs r (s.withFab x) ↔ OnlyRegs fs r s := Iff.rfl
@[simp] theorem OnlyRegs.withWheels_iff {fs : List Fld} {r : State} (s : State) (x : Vector Wheel 64) :
    OnlyRegs fs r (s.withWheels x) ↔ OnlyRegs fs r s := Iff.rfl
@[simp] theorem OnlyRegs.withGroups_iff {fs : List Fld} {r : State} (s : State) (x : Vector Group 8) :
    OnlyRegs fs r (s.withGroups x) ↔ OnlyRegs fs r s := Iff.rfl
@[simp] theorem OnlyRegs.withGsus_iff {fs : List Fld} {r : State} (s : State) (x : Vector Gsu 4) :
    OnlyRegs fs r (s.withGsus x) ↔ OnlyRegs fs r s := Iff.rfl
@[simp] theorem OnlyRegs.withRts_iff {fs : List Fld} {r : State} (s : State) (x : Rts) :
    OnlyRegs fs r (s.withRts x) ↔ OnlyRegs fs r s := Iff.rfl
@[simp] theorem OnlyRegs.withIsl_iff {fs : List Fld} {r : State} (s : State) (x : IslUnit) :
    OnlyRegs fs r (s.withIsl x) ↔ OnlyRegs fs r s := Iff.rfl
@[simp] theorem OnlyRegs.withDci_iff {fs : List Fld} {r : State} (s : State) (x : Dci) :
    OnlyRegs fs r (s.withDci x) ↔ OnlyRegs fs r s := Iff.rfl
@[simp] theorem OnlyRegs.withMod_iff {fs : List Fld} {r : State} (s : State) (x : ModState) :
    OnlyRegs fs r (s.withMod x) ↔ OnlyRegs fs r s := Iff.rfl
@[simp] theorem OnlyRegs.withTiles_iff {fs : List Fld} {r : State} (s : State) (x : Vector Tile 9) :
    OnlyRegs fs r (s.withTiles x) ↔ OnlyRegs fs r s := Iff.rfl
@[simp] theorem OnlyRegs.withWins_iff {fs : List Fld} {r : State} (s : State) (x : Vector WinUnit 44) :
    OnlyRegs fs r (s.withWins x) ↔ OnlyRegs fs r s := Iff.rfl
@[simp] theorem OnlyRegs.withSit_iff {fs : List Fld} {r : State} (s : State) (x : SitState) :
    OnlyRegs fs r (s.withSit x) ↔ OnlyRegs fs r s := Iff.rfl
@[simp] theorem OnlyRegs.withAdcs_iff {fs : List Fld} {r : State} (s : State) (x : Vector AdcCore 18) :
    OnlyRegs fs r (s.withAdcs x) ↔ OnlyRegs fs r s := Iff.rfl
@[simp] theorem OnlyRegs.withGx_iff {fs : List Fld} {r : State} (s : State) (x : Vector GxUse 2) :
    OnlyRegs fs r (s.withGx x) ↔ OnlyRegs fs r s := Iff.rfl
@[simp] theorem OnlyRegs.withMet_iff {fs : List Fld} {r : State} (s : State) (x : MetState) :
    OnlyRegs fs r (s.withMet x) ↔ OnlyRegs fs r s := Iff.rfl
@[simp] theorem OnlyRegs.withClk_iff {fs : List Fld} {r : State} (s : State) (x : Vector Pll 7) :
    OnlyRegs fs r (s.withClk x) ↔ OnlyRegs fs r s := Iff.rfl
@[simp] theorem OnlyRegs.withLanes_iff {fs : List Fld} {r : State} (s : State) (x : Vector LaneUnit 6) :
    OnlyRegs fs r (s.withLanes x) ↔ OnlyRegs fs r s := Iff.rfl
@[simp] theorem OnlyRegs.withWlk_iff {fs : List Fld} {r : State} (s : State) (x : Wlk) :
    OnlyRegs fs r (s.withWlk x) ↔ OnlyRegs fs r s := Iff.rfl
@[simp] theorem OnlyRegs.withNet_iff {fs : List Fld} {r : State} (s : State) (x : Net) :
    OnlyRegs fs r (s.withNet x) ↔ OnlyRegs fs r s := Iff.rfl
@[simp] theorem OnlyRegs.withSag_iff {fs : List Fld} {r : State} (s : State) (x : SagState) :
    OnlyRegs fs r (s.withSag x) ↔ OnlyRegs fs r s := Iff.rfl
@[simp] theorem OnlyRegs.withPug_iff {fs : List Fld} {r : State} (s : State) (x : PugState) :
    OnlyRegs fs r (s.withPug x) ↔ OnlyRegs fs r s := Iff.rfl
@[simp] theorem OnlyRegs.withPwr_iff {fs : List Fld} {r : State} (s : State) (x : PwrState) :
    OnlyRegs fs r (s.withPwr x) ↔ OnlyRegs fs r s := Iff.rfl
@[simp] theorem OnlyRegs.withGrg_iff {fs : List Fld} {r : State} (s : State) (x : Grog) :
    OnlyRegs fs r (s.withGrg x) ↔ OnlyRegs fs r s := Iff.rfl
@[simp] theorem OnlyRegs.withCon_iff {fs : List Fld} {r : State} (s : State) (x : ConState) :
    OnlyRegs fs r (s.withCon x) ↔ OnlyRegs fs r s := Iff.rfl
@[simp] theorem OnlyRegs.withPorts_iff {fs : List Fld} {r : State} (s : State) (x : HostPorts) :
    OnlyRegs fs r (s.withPorts x) ↔ OnlyRegs fs r s := Iff.rfl

/-- A counter reads one more, or its largest value. -/
theorem State.get_inc_same (s : State) (f : Fld) (h : f.fits) : (s.inc f).get f = s.counted f := by
  have := State.get_lt s f
  unfold State.inc State.counted
  split
  · rw [State.get_put_same _ _ _ h, Nat.mod_eq_of_lt ‹_›]
    omega
  · omega

/-- A counter leaves every field that shares no bit with it. -/
theorem State.get_inc_apart (s : State) (f g : Fld) (hg : g.hi < 64) (h : f.apart g) : (s.inc f).get g = s.get g := by
  unfold State.inc
  split
  · exact State.get_put_apart _ _ _ _ hg h
  · rfl

/-- A journal record counts in JRNL_LOST where the crossing does not hold it, and leaves every other field. -/
theorem State.journalC_sets (s : State) (a b c : Nat) (l : List Nat) : Sets (s.jrnlLoss l.length) s (s.journalC a b c l) := by
  have hc : MET_JRNL_LOST_COUNT.fits := ⟨by decide, by decide⟩
  have he : MET_EVENT_JRNL_LOST.fits := ⟨by decide, by decide⟩
  have ha : MET_EVENT_JRNL_LOST.apart MET_JRNL_LOST_COUNT := .inl (by decide)
  unfold State.journalC State.jrnlLoss
  dsimp only
  split
  · have hr := (OnlyRegs.refl [MET_JRNL_LOST_COUNT, MET_EVENT_JRNL_LOST] s).regs
      (t := s.withMet { s.met with lossDue := true }) rfl
    refine ⟨?_, (hr.inc _ (by simp)).put _ _ (by simp)⟩
    simp only [List.mem_cons, List.not_mem_nil, or_false, forall_eq_or_imp, forall_eq]
    exact ⟨(State.get_put_apart _ _ _ _ hc.2 ha).trans (State.get_inc_same _ _ hc), State.get_put_same _ _ _ he⟩
  · refine ⟨fun e he => absurd he List.not_mem_nil, ?_⟩
    split
    · exact (OnlyRegs.refl _ s).regs rfl
    · split <;> exact (OnlyRegs.refl _ s).regs rfl

theorem State.journal_sets (s : State) (a b c : Nat) : Sets (s.jrnlLoss 0) s (s.journal a b c) :=
  State.journalC_sets s a b c []

/-- A journal record that is not refused leaves the registers. -/
theorem State.journalC_regs {s : State} {a b c : Nat} {l : List Nat} (h : s.jrnlFull l.length = false) :
    (s.journalC a b c l).regs = s.regs := by
  unfold State.journalC
  simp only [h, Bool.false_eq_true, if_false]
  split
  · rfl
  · split <;> rfl

@[simp] theorem State.journalC_pending (s : State) (a b c : Nat) (l : List Nat) : (s.journalC a b c l).pending = s.pending := by
  unfold State.journalC State.journalLost State.inc
  repeat' first | rfl | split
@[simp] theorem State.journal_pending (s : State) (a b c : Nat) : (s.journal a b c).pending = s.pending := State.journalC_pending ..
@[simp] theorem State.journalC_slots (s : State) (a b c : Nat) (l : List Nat) : (s.journalC a b c l).slots = s.slots := by
  unfold State.journalC State.journalLost State.inc
  repeat' first | rfl | split
@[simp] theorem State.journal_slots (s : State) (a b c : Nat) : (s.journal a b c).slots = s.slots := State.journalC_slots ..
@[simp] theorem State.journalC_coef (s : State) (a b c : Nat) (l : List Nat) : (s.journalC a b c l).coef = s.coef := by
  unfold State.journalC State.journalLost State.inc
  repeat' first | rfl | split
@[simp] theorem State.journal_coef (s : State) (a b c : Nat) : (s.journal a b c).coef = s.coef := State.journalC_coef ..
@[simp] theorem State.journalC_prog (s : State) (a b c : Nat) (l : List Nat) : (s.journalC a b c l).prog = s.prog := by
  unfold State.journalC State.journalLost State.inc
  repeat' first | rfl | split
@[simp] theorem State.journal_prog (s : State) (a b c : Nat) : (s.journal a b c).prog = s.prog := State.journalC_prog ..
@[simp] theorem State.journalC_sram (s : State) (a b c : Nat) (l : List Nat) : (s.journalC a b c l).sram = s.sram := by
  unfold State.journalC State.journalLost State.inc
  repeat' first | rfl | split
@[simp] theorem State.journal_sram (s : State) (a b c : Nat) : (s.journal a b c).sram = s.sram := State.journalC_sram ..
@[simp] theorem State.journalC_held (s : State) (a b c : Nat) (l : List Nat) : (s.journalC a b c l).held = s.held := by
  unfold State.journalC State.journalLost State.inc
  repeat' first | rfl | split
@[simp] theorem State.journal_held (s : State) (a b c : Nat) : (s.journal a b c).held = s.held := State.journalC_held ..
@[simp] theorem State.journalC_resp (s : State) (a b c : Nat) (l : List Nat) : (s.journalC a b c l).resp = s.resp := by
  unfold State.journalC State.journalLost State.inc
  repeat' first | rfl | split
@[simp] theorem State.journal_resp (s : State) (a b c : Nat) : (s.journal a b c).resp = s.resp := State.journalC_resp ..
@[simp] theorem State.journalC_free (s : State) (a b c : Nat) (l : List Nat) : (s.journalC a b c l).free = s.free := by
  unfold State.journalC State.journalLost State.inc
  repeat' first | rfl | split
@[simp] theorem State.journal_free (s : State) (a b c : Nat) : (s.journal a b c).free = s.free := State.journalC_free ..
@[simp] theorem State.journalC_outbox (s : State) (a b c : Nat) (l : List Nat) : (s.journalC a b c l).outbox = s.outbox := by
  unfold State.journalC State.journalLost State.inc
  repeat' first | rfl | split
@[simp] theorem State.journal_outbox (s : State) (a b c : Nat) : (s.journal a b c).outbox = s.outbox := State.journalC_outbox ..
@[simp] theorem State.journalC_glz (s : State) (a b c : Nat) (l : List Nat) : (s.journalC a b c l).glz = s.glz := by
  unfold State.journalC State.journalLost State.inc
  repeat' first | rfl | split
@[simp] theorem State.journal_glz (s : State) (a b c : Nat) : (s.journal a b c).glz = s.glz := State.journalC_glz ..
@[simp] theorem State.journalC_fab (s : State) (a b c : Nat) (l : List Nat) : (s.journalC a b c l).fab = s.fab := by
  unfold State.journalC State.journalLost State.inc
  repeat' first | rfl | split
@[simp] theorem State.journal_fab (s : State) (a b c : Nat) : (s.journal a b c).fab = s.fab := State.journalC_fab ..
@[simp] theorem State.journalC_wheels (s : State) (a b c : Nat) (l : List Nat) : (s.journalC a b c l).wheels = s.wheels := by
  unfold State.journalC State.journalLost State.inc
  repeat' first | rfl | split
@[simp] theorem State.journal_wheels (s : State) (a b c : Nat) : (s.journal a b c).wheels = s.wheels := State.journalC_wheels ..
@[simp] theorem State.journalC_groups (s : State) (a b c : Nat) (l : List Nat) : (s.journalC a b c l).groups = s.groups := by
  unfold State.journalC State.journalLost State.inc
  repeat' first | rfl | split
@[simp] theorem State.journal_groups (s : State) (a b c : Nat) : (s.journal a b c).groups = s.groups := State.journalC_groups ..
@[simp] theorem State.journalC_gsus (s : State) (a b c : Nat) (l : List Nat) : (s.journalC a b c l).gsus = s.gsus := by
  unfold State.journalC State.journalLost State.inc
  repeat' first | rfl | split
@[simp] theorem State.journal_gsus (s : State) (a b c : Nat) : (s.journal a b c).gsus = s.gsus := State.journalC_gsus ..
@[simp] theorem State.journalC_rts (s : State) (a b c : Nat) (l : List Nat) : (s.journalC a b c l).rts = s.rts := by
  unfold State.journalC State.journalLost State.inc
  repeat' first | rfl | split
@[simp] theorem State.journal_rts (s : State) (a b c : Nat) : (s.journal a b c).rts = s.rts := State.journalC_rts ..
@[simp] theorem State.journalC_isl (s : State) (a b c : Nat) (l : List Nat) : (s.journalC a b c l).isl = s.isl := by
  unfold State.journalC State.journalLost State.inc
  repeat' first | rfl | split
@[simp] theorem State.journal_isl (s : State) (a b c : Nat) : (s.journal a b c).isl = s.isl := State.journalC_isl ..
@[simp] theorem State.journalC_dci (s : State) (a b c : Nat) (l : List Nat) : (s.journalC a b c l).dci = s.dci := by
  unfold State.journalC State.journalLost State.inc
  repeat' first | rfl | split
@[simp] theorem State.journal_dci (s : State) (a b c : Nat) : (s.journal a b c).dci = s.dci := State.journalC_dci ..
@[simp] theorem State.journalC_mod (s : State) (a b c : Nat) (l : List Nat) : (s.journalC a b c l).mod = s.mod := by
  unfold State.journalC State.journalLost State.inc
  repeat' first | rfl | split
@[simp] theorem State.journal_mod (s : State) (a b c : Nat) : (s.journal a b c).mod = s.mod := State.journalC_mod ..
@[simp] theorem State.journalC_tiles (s : State) (a b c : Nat) (l : List Nat) : (s.journalC a b c l).tiles = s.tiles := by
  unfold State.journalC State.journalLost State.inc
  repeat' first | rfl | split
@[simp] theorem State.journal_tiles (s : State) (a b c : Nat) : (s.journal a b c).tiles = s.tiles := State.journalC_tiles ..
@[simp] theorem State.journalC_wins (s : State) (a b c : Nat) (l : List Nat) : (s.journalC a b c l).wins = s.wins := by
  unfold State.journalC State.journalLost State.inc
  repeat' first | rfl | split
@[simp] theorem State.journal_wins (s : State) (a b c : Nat) : (s.journal a b c).wins = s.wins := State.journalC_wins ..
@[simp] theorem State.journalC_sit (s : State) (a b c : Nat) (l : List Nat) : (s.journalC a b c l).sit = s.sit := by
  unfold State.journalC State.journalLost State.inc
  repeat' first | rfl | split
@[simp] theorem State.journal_sit (s : State) (a b c : Nat) : (s.journal a b c).sit = s.sit := State.journalC_sit ..
@[simp] theorem State.journalC_adcs (s : State) (a b c : Nat) (l : List Nat) : (s.journalC a b c l).adcs = s.adcs := by
  unfold State.journalC State.journalLost State.inc
  repeat' first | rfl | split
@[simp] theorem State.journal_adcs (s : State) (a b c : Nat) : (s.journal a b c).adcs = s.adcs := State.journalC_adcs ..
@[simp] theorem State.journalC_gx (s : State) (a b c : Nat) (l : List Nat) : (s.journalC a b c l).gx = s.gx := by
  unfold State.journalC State.journalLost State.inc
  repeat' first | rfl | split
@[simp] theorem State.journal_gx (s : State) (a b c : Nat) : (s.journal a b c).gx = s.gx := State.journalC_gx ..
@[simp] theorem State.journalC_clk (s : State) (a b c : Nat) (l : List Nat) : (s.journalC a b c l).clk = s.clk := by
  unfold State.journalC State.journalLost State.inc
  repeat' first | rfl | split
@[simp] theorem State.journal_clk (s : State) (a b c : Nat) : (s.journal a b c).clk = s.clk := State.journalC_clk ..
@[simp] theorem State.journalC_lanes (s : State) (a b c : Nat) (l : List Nat) : (s.journalC a b c l).lanes = s.lanes := by
  unfold State.journalC State.journalLost State.inc
  repeat' first | rfl | split
@[simp] theorem State.journal_lanes (s : State) (a b c : Nat) : (s.journal a b c).lanes = s.lanes := State.journalC_lanes ..
@[simp] theorem State.journalC_wlk (s : State) (a b c : Nat) (l : List Nat) : (s.journalC a b c l).wlk = s.wlk := by
  unfold State.journalC State.journalLost State.inc
  repeat' first | rfl | split
@[simp] theorem State.journal_wlk (s : State) (a b c : Nat) : (s.journal a b c).wlk = s.wlk := State.journalC_wlk ..
@[simp] theorem State.journalC_net (s : State) (a b c : Nat) (l : List Nat) : (s.journalC a b c l).net = s.net := by
  unfold State.journalC State.journalLost State.inc
  repeat' first | rfl | split
@[simp] theorem State.journal_net (s : State) (a b c : Nat) : (s.journal a b c).net = s.net := State.journalC_net ..
@[simp] theorem State.journalC_pug (s : State) (a b c : Nat) (l : List Nat) : (s.journalC a b c l).pug = s.pug := by
  unfold State.journalC State.journalLost State.inc
  repeat' first | rfl | split
@[simp] theorem State.journal_pug (s : State) (a b c : Nat) : (s.journal a b c).pug = s.pug := State.journalC_pug ..
@[simp] theorem State.journalC_pwr (s : State) (a b c : Nat) (l : List Nat) : (s.journalC a b c l).pwr = s.pwr := by
  unfold State.journalC State.journalLost State.inc
  repeat' first | rfl | split
@[simp] theorem State.journal_pwr (s : State) (a b c : Nat) : (s.journal a b c).pwr = s.pwr := State.journalC_pwr ..
@[simp] theorem State.journalC_grg (s : State) (a b c : Nat) (l : List Nat) : (s.journalC a b c l).grg = s.grg := by
  unfold State.journalC State.journalLost State.inc
  repeat' first | rfl | split
@[simp] theorem State.journal_grg (s : State) (a b c : Nat) : (s.journal a b c).grg = s.grg := State.journalC_grg ..
@[simp] theorem State.journalC_con (s : State) (a b c : Nat) (l : List Nat) : (s.journalC a b c l).con = s.con := by
  unfold State.journalC State.journalLost State.inc
  repeat' first | rfl | split
@[simp] theorem State.journal_con (s : State) (a b c : Nat) : (s.journal a b c).con = s.con := State.journalC_con ..
@[simp] theorem State.journalC_ports (s : State) (a b c : Nat) (l : List Nat) : (s.journalC a b c l).ports = s.ports := by
  unfold State.journalC State.journalLost State.inc
  repeat' first | rfl | split
@[simp] theorem State.journal_ports (s : State) (a b c : Nat) : (s.journal a b c).ports = s.ports := State.journalC_ports ..

@[simp] theorem State.inc_met (s : State) (f : Fld) : (s.inc f).met = s.met := by
  unfold State.inc
  split <;> rfl

/-- What a journal record does. -/
theorem State.journal_journals (s : State) (a b c : Nat) : Journals a b c s (s.journal a b c) := by
  refine ⟨fun h k => ?_, fun h k => ?_, fun h k => ?_, fun h k => ?_⟩
  · have hf : s.jrnlFull 0 = false := by simp [State.jrnlFull, h]; omega
    simp [State.journal, State.journalC, hf, h]
  · have hf : s.jrnlFull 0 = true := by simp [State.jrnlFull, h]; omega
    simp only [State.journal, State.journalC, List.length_nil, hf, if_true, State.journalLost, State.put_met, State.inc_met]
    exact ⟨rfl, rfl⟩
  · have hf : s.jrnlFull 0 = false := by simp [State.jrnlFull, h]
    have hk : ¬ s.sag.held.length < 8 := by omega
    simp [State.journal, State.journalC, hf, h, hk]
  · have hf : s.jrnlFull 0 = false := by simp [State.jrnlFull, h]
    simp [State.journal, State.journalC, hf, h, k]

end Sys2Proof.Machine
end

