-- ==== Sys2Proof/Laws/Wheels.lean ====
section
/-!
SUPPORT. Laws of the Wheels: what an issued instruction leaves in the Wheel and around it.
-/

namespace Sys2Proof.Machine

open Sys2Proof

theorem State.onWheel_same (s : State) (w : Fin 64) (f : Wheel → Wheel) : (s.onWheel w f).wheels[w] = f s.wheels[w] := by
  simp [State.onWheel]

theorem State.onWheel_ne (s : State) (w u : Fin 64) (f : Wheel → Wheel) (h : u ≠ w) : (s.onWheel w f).wheels[u] = s.wheels[u] := by
  simp only [State.onWheel, State.withWheels_wheels, Fin.getElem_fin]
  exact Vector.getElem_set_ne _ _ fun e => h (Fin.ext e.symm)

/-- Two updates of one Wheel are one. -/
theorem State.onWheel_onWheel (s : State) (w : Fin 64) (f g : Wheel → Wheel) :
    (s.onWheel w f).onWheel w g = s.onWheel w fun x => g (f x) := by
  simp [State.onWheel, State.withWheels]

@[simp] theorem Wheel.xr_setX_same (x : Wheel) (r : Fin 64) (v : Word) : (x.setX r v).xr r = v := by
  simp [Wheel.xr, Wheel.setX]

theorem Wheel.xr_setX_ne (x : Wheel) (r q : Fin 64) (v : Word) (h : q ≠ r) : (x.setX r v).xr q = x.xr q :=
  cellGet_put_ne _ _ _ _ fun e => h (Fin.ext e.symm)

@[simp] theorem Wheel.xr_setFlags (x : Wheel) (m : Nat) (r : Fin 64) : (x.setFlags m).xr r = x.xr r := rfl
@[simp] theorem Wheel.xr_advance (x : Wheel) (n : Nat) (r : Fin 64) : (x.advance n).xr r = x.xr r := rfl
@[simp] theorem Wheel.xr_setPred (x : Wheel) (u : Fin 4) (b : Bool) (r : Fin 64) : (x.setPred u b).xr r = x.xr r := rfl
@[simp] theorem Wheel.flags_setX (x : Wheel) (r : Fin 64) (v : Word) : (x.setX r v).flags = x.flags := rfl
@[simp] theorem Wheel.flags_setFlags (x : Wheel) (m : Nat) : (x.setFlags m).flags = x.flags ||| m := rfl
@[simp] theorem Wheel.flags_advance (x : Wheel) (n : Nat) : (x.advance n).flags = x.flags := rfl
@[simp] theorem Wheel.flags_setPred (x : Wheel) (u : Fin 4) (b : Bool) : (x.setPred u b).flags = x.flags := rfl
@[simp] theorem Wheel.preds_setX (x : Wheel) (r : Fin 64) (v : Word) : (x.setX r v).preds = x.preds := rfl
@[simp] theorem Wheel.preds_setFlags (x : Wheel) (m : Nat) : (x.setFlags m).preds = x.preds := rfl
@[simp] theorem Wheel.preds_advance (x : Wheel) (n : Nat) : (x.advance n).preds = x.preds := rfl
@[simp] theorem Wheel.work_setX (x : Wheel) (r : Fin 64) (v : Word) : (x.setX r v).work = x.work := rfl
@[simp] theorem Wheel.work_setFlags (x : Wheel) (m : Nat) : (x.setFlags m).work = x.work := rfl
@[simp] theorem Wheel.work_advance (x : Wheel) (n : Nat) : (x.advance n).work = x.work := rfl
@[simp] theorem Wheel.work_setPred (x : Wheel) (u : Fin 4) (b : Bool) : (x.setPred u b).work = x.work := rfl

/-- A predicate after a predicate was written. -/
theorem Wheel.pred_setPred (x : Wheel) (u q : Fin 4) (b : Bool) : (x.setPred u b).pred q = if q = u then b else x.pred q := by
  obtain ⟨_, _, ps, _⟩ := x
  simp only [Wheel.setPred, Wheel.pred]
  revert ps u q b
  decide

/-- A Wheel that does not issue does nothing. -/
theorem State.issue_idle (s : State) (w : Fin 64) (p : Fin 16) (n : Nat) (f : State → State) (h : s.wheels[w].issues = false) :
    s.issue w p n f = s := by
  simp only [State.issue, h, Bool.not_false, if_true]

/-- Under a false predicate only the cycles pass. -/
theorem State.issue_false (s : State) (w : Fin 64) (p : Fin 16) (n : Nat) (f : State → State) (h : s.wheels[w].issues = true)
    (c : s.wheels[w].cond p = false) : s.issue w p n f = s.onWheel w fun x => x.advance n := by
  simp only [State.issue, h, c, Bool.not_true, Bool.false_eq_true, if_false]

/-- Under a true predicate the effect happens, then the cycles pass. -/
theorem State.issue_true (s : State) (w : Fin 64) (p : Fin 16) (n : Nat) (f : State → State) (h : s.wheels[w].issues = true)
    (c : s.wheels[w].cond p = true) : s.issue w p n f = (f s).onWheel w fun x => x.advance n := by
  simp only [State.issue, h, c, Bool.not_true, Bool.false_eq_true, if_false, if_true]

end Sys2Proof.Machine
end

