-- ==== Sys2Proof/Laws/Within.lean ====
section
/-!
SUPPORT. Which parts of the state an operation may change: one lemma for each way in which an operation is built; the lemmas of the
operations themselves stand in the files beside this one.
-/

namespace Sys2Proof.Machine

open Sys2Proof

theorem Part.same_refl (p : Part) (s : State) : p.same s s := by
  cases p <;> first | rfl | exact fun _ _ => rfl

theorem Part.same_trans {p : Part} {r s t : State} (h : p.same r s) (k : p.same s t) : p.same r t := by
  cases p <;> first | exact fun a e => (k a e).trans (h a e) | exact Eq.trans k h

theorem Within.refl (l : List Part) (s : State) : Within l s s := fun p _ => p.same_refl s

theorem Within.trans {l : List Part} {r s t : State} (h : Within l r s) (k : Within l s t) : Within l r t := fun p hp =>
  Part.same_trans (h p hp) (k p hp)

theorem Within.mono {l m : List Part} {s t : State} (h : Within l s t) (hm : ∀ p ∈ l, p ∈ m) : Within m s t := fun p hp =>
  h p fun k => hp (hm p k)

theorem parts_trans {a b c : List Part} (h : ∀ p ∈ a, p ∈ b) (k : ∀ p ∈ b, p ∈ c) : ∀ p ∈ a, p ∈ c := fun p hp => k p (h p hp)

/-- An update that keeps every part outside the list. -/
theorem Within.upd {l : List Part} {r s t : State} (h : Within l r s) (k : ∀ p, p ∉ l → p.same s t) : Within l r t := fun p hp =>
  Part.same_trans (h p hp) (k p hp)

/-- An update of fields that are no registers and no memory. -/
theorem Within.set {l : List Part} {r s : State} {held : List Held} {resp : Resp} {free : Nat} {outbox : List OutUnit} {glz : GlzState}
    {fab : Fabric} {wheels : Vector Wheel 64} {groups : Vector Group 8} {gsus : Vector Gsu 4} {rts : Rts} {isl : IslUnit}
    {dci : Dci} {mod : ModState} {tiles : Vector Tile 9} {wins : Vector WinUnit 44} {sit : SitState} {adcs : Vector AdcCore 18}
    {gx : Vector GxUse 2} {met : MetState} {clk : Vector Pll 7} {lanes : Vector LaneUnit 6} {wlk : Wlk} {net : Net}
    {sag : SagState} {pug : PugState} {pwr : PwrState} {grg : Grog} {con : ConState} {ports : HostPorts}
    (h : Within l r s) (k : ∀ p, p ∉ l → p.same s { s with
      held := held, resp := resp, free := free, outbox := outbox, glz := glz, fab := fab, wheels := wheels,
      groups := groups, gsus := gsus, rts := rts, isl := isl, dci := dci, mod := mod, tiles := tiles, wins := wins, sit := sit,
      adcs := adcs, gx := gx, met := met, clk := clk, lanes := lanes, wlk := wlk, net := net, sag := sag, pug := pug, pwr := pwr,
      grg := grg, con := con, ports := ports }) :
    Within l r { s with
      held := held, resp := resp, free := free, outbox := outbox, glz := glz, fab := fab, wheels := wheels,
      groups := groups, gsus := gsus, rts := rts, isl := isl, dci := dci, mod := mod, tiles := tiles, wins := wins, sit := sit,
      adcs := adcs, gx := gx, met := met, clk := clk, lanes := lanes, wlk := wlk, net := net, sag := sag, pug := pug, pwr := pwr,
      grg := grg, con := con, ports := ports } :=
  h.upd k

theorem Within.setPending {l : List Part} {r s : State} {v : List Instr} (h : Within l r s) (k : Part.pending ∈ l) : Within l r { s with pending := v } :=
  h.upd fun p hp => by cases p <;> first | rfl | exact fun _ _ => rfl | exact absurd k hp

theorem Within.setSlots {l : List Part} {r s : State} {v : List (Nat × Word)} (h : Within l r s) (k : Part.slots ∈ l) : Within l r { s with slots := v } :=
  h.upd fun p hp => by cases p <;> first | rfl | exact fun _ _ => rfl | exact absurd k hp

theorem Within.setCoef {l : List Part} {r s : State} {v : List (Nat × Word)} (h : Within l r s) (k : Part.coef ∈ l) : Within l r { s with coef := v } :=
  h.upd fun p hp => by cases p <;> first | rfl | exact fun _ _ => rfl | exact absurd k hp

theorem Within.setProg {l : List Part} {r s : State} {v : List (Nat × DWord)} (h : Within l r s) (k : Part.prog ∈ l) : Within l r { s with prog := v } :=
  h.upd fun p hp => by cases p <;> first | rfl | exact fun _ _ => rfl | exact absurd k hp

theorem Within.setSram {l : List Part} {r s : State} {v : Ram} (h : Within l r s) (k : Part.sram ∈ l) : Within l r { s with sram := v } :=
  h.upd fun p hp => by cases p <;> first | rfl | exact fun _ _ => rfl | exact absurd k hp

theorem Within.setHeld {l : List Part} {r s : State} {v : List Held} (h : Within l r s) (k : Part.held ∈ l) : Within l r { s with held := v } :=
  h.upd fun p hp => by cases p <;> first | rfl | exact fun _ _ => rfl | exact absurd k hp

theorem Within.setResp {l : List Part} {r s : State} {v : Resp} (h : Within l r s) (k : Part.resp ∈ l) : Within l r { s with resp := v } :=
  h.upd fun p hp => by cases p <;> first | rfl | exact fun _ _ => rfl | exact absurd k hp

theorem Within.setFree {l : List Part} {r s : State} {v : Nat} (h : Within l r s) (k : Part.free ∈ l) : Within l r { s with free := v } :=
  h.upd fun p hp => by cases p <;> first | rfl | exact fun _ _ => rfl | exact absurd k hp

theorem Within.setOutbox {l : List Part} {r s : State} {v : List OutUnit} (h : Within l r s) (k : Part.outbox ∈ l) : Within l r { s with outbox := v } :=
  h.upd fun p hp => by cases p <;> first | rfl | exact fun _ _ => rfl | exact absurd k hp

theorem Within.setGlz {l : List Part} {r s : State} {v : GlzState} (h : Within l r s) (k : Part.glz ∈ l) : Within l r { s with glz := v } :=
  h.upd fun p hp => by cases p <;> first | rfl | exact fun _ _ => rfl | exact absurd k hp

theorem Within.setFab {l : List Part} {r s : State} {v : Fabric} (h : Within l r s) (k : Part.fab ∈ l) : Within l r { s with fab := v } :=
  h.upd fun p hp => by cases p <;> first | rfl | exact fun _ _ => rfl | exact absurd k hp

theorem Within.setWheels {l : List Part} {r s : State} {v : Vector Wheel 64} (h : Within l r s) (k : Part.wheels ∈ l) : Within l r { s with wheels := v } :=
  h.upd fun p hp => by cases p <;> first | rfl | exact fun _ _ => rfl | exact absurd k hp

theorem Within.setGroups {l : List Part} {r s : State} {v : Vector Group 8} (h : Within l r s) (k : Part.groups ∈ l) : Within l r { s with groups := v } :=
  h.upd fun p hp => by cases p <;> first | rfl | exact fun _ _ => rfl | exact absurd k hp

theorem Within.setGsus {l : List Part} {r s : State} {v : Vector Gsu 4} (h : Within l r s) (k : Part.gsus ∈ l) : Within l r { s with gsus := v } :=
  h.upd fun p hp => by cases p <;> first | rfl | exact fun _ _ => rfl | exact absurd k hp

theorem Within.setRts {l : List Part} {r s : State} {v : Rts} (h : Within l r s) (k : Part.rts ∈ l) : Within l r { s with rts := v } :=
  h.upd fun p hp => by cases p <;> first | rfl | exact fun _ _ => rfl | exact absurd k hp

theorem Within.setIsl {l : List Part} {r s : State} {v : IslUnit} (h : Within l r s) (k : Part.isl ∈ l) : Within l r { s with isl := v } :=
  h.upd fun p hp => by cases p <;> first | rfl | exact fun _ _ => rfl | exact absurd k hp

theorem Within.setDci {l : List Part} {r s : State} {v : Dci} (h : Within l r s) (k : Part.dci ∈ l) : Within l r { s with dci := v } :=
  h.upd fun p hp => by cases p <;> first | rfl | exact fun _ _ => rfl | exact absurd k hp

theorem Within.setMod {l : List Part} {r s : State} {v : ModState} (h : Within l r s) (k : Part.mod ∈ l) : Within l r { s with mod := v } :=
  h.upd fun p hp => by cases p <;> first | rfl | exact fun _ _ => rfl | exact absurd k hp

theorem Within.setTiles {l : List Part} {r s : State} {v : Vector Tile 9} (h : Within l r s) (k : Part.tiles ∈ l) : Within l r { s with tiles := v } :=
  h.upd fun p hp => by cases p <;> first | rfl | exact fun _ _ => rfl | exact absurd k hp

theorem Within.setWins {l : List Part} {r s : State} {v : Vector WinUnit 44} (h : Within l r s) (k : Part.wins ∈ l) : Within l r { s with wins := v } :=
  h.upd fun p hp => by cases p <;> first | rfl | exact fun _ _ => rfl | exact absurd k hp

theorem Within.setSit {l : List Part} {r s : State} {v : SitState} (h : Within l r s) (k : Part.sit ∈ l) : Within l r { s with sit := v } :=
  h.upd fun p hp => by cases p <;> first | rfl | exact fun _ _ => rfl | exact absurd k hp

theorem Within.setAdcs {l : List Part} {r s : State} {v : Vector AdcCore 18} (h : Within l r s) (k : Part.adcs ∈ l) : Within l r { s with adcs := v } :=
  h.upd fun p hp => by cases p <;> first | rfl | exact fun _ _ => rfl | exact absurd k hp

theorem Within.setGx {l : List Part} {r s : State} {v : Vector GxUse 2} (h : Within l r s) (k : Part.gx ∈ l) : Within l r { s with gx := v } :=
  h.upd fun p hp => by cases p <;> first | rfl | exact fun _ _ => rfl | exact absurd k hp

theorem Within.setMet {l : List Part} {r s : State} {v : MetState} (h : Within l r s) (k : Part.met ∈ l) : Within l r { s with met := v } :=
  h.upd fun p hp => by cases p <;> first | rfl | exact fun _ _ => rfl | exact absurd k hp

theorem Within.setClk {l : List Part} {r s : State} {v : Vector Pll 7} (h : Within l r s) (k : Part.clk ∈ l) : Within l r { s with clk := v } :=
  h.upd fun p hp => by cases p <;> first | rfl | exact fun _ _ => rfl | exact absurd k hp

theorem Within.setLanes {l : List Part} {r s : State} {v : Vector LaneUnit 6} (h : Within l r s) (k : Part.lanes ∈ l) : Within l r { s with lanes := v } :=
  h.upd fun p hp => by cases p <;> first | rfl | exact fun _ _ => rfl | exact absurd k hp

theorem Within.setWlk {l : List Part} {r s : State} {v : Wlk} (h : Within l r s) (k : Part.wlk ∈ l) : Within l r { s with wlk := v } :=
  h.upd fun p hp => by cases p <;> first | rfl | exact fun _ _ => rfl | exact absurd k hp

theorem Within.setNet {l : List Part} {r s : State} {v : Net} (h : Within l r s) (k : Part.net ∈ l) : Within l r { s with net := v } :=
  h.upd fun p hp => by cases p <;> first | rfl | exact fun _ _ => rfl | exact absurd k hp

theorem Within.setSag {l : List Part} {r s : State} {v : SagState} (h : Within l r s) (k : Part.sag ∈ l) : Within l r { s with sag := v } :=
  h.upd fun p hp => by cases p <;> first | rfl | exact fun _ _ => rfl | exact absurd k hp

theorem Within.setPug {l : List Part} {r s : State} {v : PugState} (h : Within l r s) (k : Part.pug ∈ l) : Within l r { s with pug := v } :=
  h.upd fun p hp => by cases p <;> first | rfl | exact fun _ _ => rfl | exact absurd k hp

theorem Within.setPwr {l : List Part} {r s : State} {v : PwrState} (h : Within l r s) (k : Part.pwr ∈ l) : Within l r { s with pwr := v } :=
  h.upd fun p hp => by cases p <;> first | rfl | exact fun _ _ => rfl | exact absurd k hp

theorem Within.setGrg {l : List Part} {r s : State} {v : Grog} (h : Within l r s) (k : Part.grg ∈ l) : Within l r { s with grg := v } :=
  h.upd fun p hp => by cases p <;> first | rfl | exact fun _ _ => rfl | exact absurd k hp

theorem Within.setCon {l : List Part} {r s : State} {v : ConState} (h : Within l r s) (k : Part.con ∈ l) : Within l r { s with con := v } :=
  h.upd fun p hp => by cases p <;> first | rfl | exact fun _ _ => rfl | exact absurd k hp

theorem Within.setPorts {l : List Part} {r s : State} {v : HostPorts} (h : Within l r s) (k : Part.ports ∈ l) : Within l r { s with ports := v } :=
  h.upd fun p hp => by cases p <;> first | rfl | exact fun _ _ => rfl | exact absurd k hp

theorem Within.ite {l : List Part} {r s t : State} {c : Prop} [Decidable c] (h : Within l r s) (k : Within l r t) :
    Within l r (if c then s else t) := by
  split
  · exact h
  · exact k

theorem Within.each {l : List Part} {r s : State} {α : Type} {xs : List α} {f : α → State → State} (h : Within l r s)
    (hf : ∀ a u, Within l r u → Within l r (f a u)) : Within l r (s.each xs f) := by
  unfold State.each
  induction xs generalizing s with
  | nil => exact h
  | cons a t ih => exact ih (hf a s h)

/-- The same where the operation stays within the list for the members only. -/
theorem Within.each_mem {l : List Part} {r s : State} {α : Type} {xs : List α} {f : α → State → State} (h : Within l r s)
    (hf : ∀ a, a ∈ xs → ∀ u, Within l r u → Within l r (f a u)) : Within l r (s.each xs f) := by
  unfold State.each
  induction xs generalizing s with
  | nil => exact h
  | cons a t ih => exact ih (hf a (List.mem_cons_self ..) s h) fun b m => hf b (List.mem_cons_of_mem _ m)

theorem Within.foldl {l : List Part} {r s : State} {α : Type} {xs : List α} {f : State → α → State} (h : Within l r s)
    (hf : ∀ u a, Within l r u → Within l r (f u a)) : Within l r (xs.foldl f s) := by
  induction xs generalizing s with
  | nil => exact h
  | cons a t ih => exact ih (hf s a h)

theorem Within.when {l : List Part} {r s : State} {b : Bool} {f : State → State} (h : Within l r s)
    (hf : ∀ u, Within l r u → Within l r (f u)) : Within l r (s.when b f) := by
  unfold State.when
  split
  · exact hf s h
  · exact h

/-- A write of the cell at `a`. -/
theorem Within.cell {l : List Part} {r s : State} {a b : Nat} {v : DWord} (h : Within l r s) (ha : a / 0x100000 = b) (hb : .regs b ∈ l) :
    Within l r { s with regs := cellPut s.regs a v } := by
  refine h.upd fun p hp => ?_
  cases p
  case regs c =>
    intro d hd
    refine cellGet_put_ne _ _ _ _ fun e => hp ?_
    rw [← hd, ← e, ha]
    exact hb
  all_goals rfl

/-- Registers replaced, each address of one of the parts `b`. -/
theorem State.withRegs_within {l : List Part} {r s : State} (h : Within l r s) (x : List (Nat × DWord)) (b : Nat) (hb : .regs b ∈ l)
    (hx : ∀ a, a / 0x100000 ≠ b → cellGet x a = cellGet s.regs a) : Within l r (s.withRegs x) := by
  refine h.upd fun p hp => ?_
  cases p
  case regs c => exact fun a ha => hx a fun e => hp (ha ▸ e ▸ hb)
  all_goals rfl

theorem State.put_within {l : List Part} {r s : State} {f : Fld} {v : Nat} (b : Nat) (h : Within l r s) (hf : f.addr / 0x100000 = b)
    (hb : .regs b ∈ l) : Within l r (s.put f v) := h.cell hf hb

/-- A register of a Wheel stands in one of four parts. -/
theorem Part.whl {l : List Part} (hl : ∀ p ∈ [Part.regs 0x410, .regs 0x411, .regs 0x412, .regs 0x413], p ∈ l) {b : Nat}
    (hb : 0x410 ≤ b ∧ b ≤ 0x413) : Part.regs b ∈ l := by
  obtain rfl | rfl | rfl | rfl : b = 0x410 ∨ b = 0x411 ∨ b = 0x412 ∨ b = 0x413 := by omega
  all_goals exact hl _ (by decide)

theorem State.publish_within {l : List Part} {r s : State} (h : Within l r s) (k : Nat) (v : Word) (hl : ∀ p ∈ [Part.slots], p ∈ l) :
    Within l r (s.publish k v) :=
  h.upd fun p hp => by cases p <;> first | rfl | exact fun _ _ => rfl | exact absurd (hl _ (by decide)) hp

theorem State.frees_within {l : List Part} {r s : State} (h : Within l r s) (n : Nat) (hm : .free ∈ l) : Within l r (s.frees n).2 :=
  Within.setFree h hm

end Sys2Proof.Machine
end

