-- ==== Sys2Proof/Laws/WithinOps.lean ====
section
/-!
SUPPORT. The parts of the state that each operation of Machine/Ops.lean may change.
-/

namespace Sys2Proof.Machine

open Sys2Proof

set_option linter.all false

theorem State.withSlots_within {lp : List Part} {root s : State} (h : Within lp root s) (x : List (Nat × Word)) (hl : ∀ p ∈
    ([.slots] : List Part), p ∈ lp) : Within lp root (State.withSlots s x) := by
  unfold State.withSlots
  repeat' first
    | with_reducible assumption
    | with_reducible refine Within.setSlots ?_ (hl _ (by decide))
    | dsimp only
    | with_reducible intro _

theorem State.withCoef_within {lp : List Part} {root s : State} (h : Within lp root s) (x : List (Nat × Word)) (hl : ∀ p ∈ ([.coef]
    : List Part), p ∈ lp) : Within lp root (State.withCoef s x) := by
  unfold State.withCoef
  repeat' first
    | with_reducible assumption
    | with_reducible refine Within.setCoef ?_ (hl _ (by decide))
    | dsimp only
    | with_reducible intro _

theorem State.withSram_within {lp : List Part} {root s : State} (h : Within lp root s) (x : Ram) (hl : ∀ p ∈ ([.sram] : List Part),
    p ∈ lp) : Within lp root (State.withSram s x) := by
  unfold State.withSram
  repeat' first
    | with_reducible assumption
    | with_reducible refine Within.setSram ?_ (hl _ (by decide))
    | dsimp only
    | with_reducible intro _

theorem State.withHeld_within {lp : List Part} {root s : State} (h : Within lp root s) (x : List Held) (hl : ∀ p ∈ ([.held] : List
    Part), p ∈ lp) : Within lp root (State.withHeld s x) := by
  unfold State.withHeld
  repeat' first
    | with_reducible assumption
    | with_reducible refine Within.setHeld ?_ (hl _ (by decide))
    | dsimp only
    | with_reducible intro _

theorem State.withResp_within {lp : List Part} {root s : State} (h : Within lp root s) (x : Resp) (hl : ∀ p ∈ ([.resp] : List Part),
    p ∈ lp) : Within lp root (State.withResp s x) := by
  unfold State.withResp
  repeat' first
    | with_reducible assumption
    | with_reducible refine Within.setResp ?_ (hl _ (by decide))
    | dsimp only
    | with_reducible intro _

theorem State.withFree_within {lp : List Part} {root s : State} (h : Within lp root s) (x : Nat) (hl : ∀ p ∈ ([.free] : List Part),
    p ∈ lp) : Within lp root (State.withFree s x) := by
  unfold State.withFree
  repeat' first
    | with_reducible assumption
    | with_reducible refine Within.setFree ?_ (hl _ (by decide))
    | dsimp only
    | with_reducible intro _

theorem State.withOutbox_within {lp : List Part} {root s : State} (h : Within lp root s) (x : List OutUnit) (hl : ∀ p ∈ ([.outbox] :
    List Part), p ∈ lp) : Within lp root (State.withOutbox s x) := by
  unfold State.withOutbox
  repeat' first
    | with_reducible assumption
    | with_reducible refine Within.setOutbox ?_ (hl _ (by decide))
    | dsimp only
    | with_reducible intro _

theorem State.withGlz_within {lp : List Part} {root s : State} (h : Within lp root s) (x : GlzState) (hl : ∀ p ∈ ([.glz] : List
    Part), p ∈ lp) : Within lp root (State.withGlz s x) := by
  unfold State.withGlz
  repeat' first
    | with_reducible assumption
    | with_reducible refine Within.setGlz ?_ (hl _ (by decide))
    | dsimp only
    | with_reducible intro _

theorem State.withFab_within {lp : List Part} {root s : State} (h : Within lp root s) (x : Fabric) (hl : ∀ p ∈ ([.fab] : List Part),
    p ∈ lp) : Within lp root (State.withFab s x) := by
  unfold State.withFab
  repeat' first
    | with_reducible assumption
    | with_reducible refine Within.setFab ?_ (hl _ (by decide))
    | dsimp only
    | with_reducible intro _

theorem State.withWheels_within {lp : List Part} {root s : State} (h : Within lp root s) (x : Vector Wheel 64) (hl : ∀ p ∈
    ([.wheels] : List Part), p ∈ lp) : Within lp root (State.withWheels s x) := by
  unfold State.withWheels
  repeat' first
    | with_reducible assumption
    | with_reducible refine Within.setWheels ?_ (hl _ (by decide))
    | dsimp only
    | with_reducible intro _

theorem State.withGroups_within {lp : List Part} {root s : State} (h : Within lp root s) (x : Vector Group 8) (hl : ∀ p ∈ ([.groups]
    : List Part), p ∈ lp) : Within lp root (State.withGroups s x) := by
  unfold State.withGroups
  repeat' first
    | with_reducible assumption
    | with_reducible refine Within.setGroups ?_ (hl _ (by decide))
    | dsimp only
    | with_reducible intro _

theorem State.withGsus_within {lp : List Part} {root s : State} (h : Within lp root s) (x : Vector Gsu 4) (hl : ∀ p ∈ ([.gsus] :
    List Part), p ∈ lp) : Within lp root (State.withGsus s x) := by
  unfold State.withGsus
  repeat' first
    | with_reducible assumption
    | with_reducible refine Within.setGsus ?_ (hl _ (by decide))
    | dsimp only
    | with_reducible intro _

theorem State.withRts_within {lp : List Part} {root s : State} (h : Within lp root s) (x : Rts) (hl : ∀ p ∈ ([.rts] : List Part), p
    ∈ lp) : Within lp root (State.withRts s x) := by
  unfold State.withRts
  repeat' first
    | with_reducible assumption
    | with_reducible refine Within.setRts ?_ (hl _ (by decide))
    | dsimp only
    | with_reducible intro _

theorem State.withIsl_within {lp : List Part} {root s : State} (h : Within lp root s) (x : IslUnit) (hl : ∀ p ∈ ([.isl] : List
    Part), p ∈ lp) : Within lp root (State.withIsl s x) := by
  unfold State.withIsl
  repeat' first
    | with_reducible assumption
    | with_reducible refine Within.setIsl ?_ (hl _ (by decide))
    | dsimp only
    | with_reducible intro _

theorem State.withDci_within {lp : List Part} {root s : State} (h : Within lp root s) (x : Dci) (hl : ∀ p ∈ ([.dci] : List Part), p
    ∈ lp) : Within lp root (State.withDci s x) := by
  unfold State.withDci
  repeat' first
    | with_reducible assumption
    | with_reducible refine Within.setDci ?_ (hl _ (by decide))
    | dsimp only
    | with_reducible intro _

theorem State.withMod_within {lp : List Part} {root s : State} (h : Within lp root s) (x : ModState) (hl : ∀ p ∈ ([.mod] : List
    Part), p ∈ lp) : Within lp root (State.withMod s x) := by
  unfold State.withMod
  repeat' first
    | with_reducible assumption
    | with_reducible refine Within.setMod ?_ (hl _ (by decide))
    | dsimp only
    | with_reducible intro _

theorem State.withTiles_within {lp : List Part} {root s : State} (h : Within lp root s) (x : Vector Tile 9) (hl : ∀ p ∈ ([.tiles] :
    List Part), p ∈ lp) : Within lp root (State.withTiles s x) := by
  unfold State.withTiles
  repeat' first
    | with_reducible assumption
    | with_reducible refine Within.setTiles ?_ (hl _ (by decide))
    | dsimp only
    | with_reducible intro _

theorem State.withWins_within {lp : List Part} {root s : State} (h : Within lp root s) (x : Vector WinUnit 44) (hl : ∀ p ∈ ([.wins]
    : List Part), p ∈ lp) : Within lp root (State.withWins s x) := by
  unfold State.withWins
  repeat' first
    | with_reducible assumption
    | with_reducible refine Within.setWins ?_ (hl _ (by decide))
    | dsimp only
    | with_reducible intro _

theorem State.withSit_within {lp : List Part} {root s : State} (h : Within lp root s) (x : SitState) (hl : ∀ p ∈ ([.sit] : List
    Part), p ∈ lp) : Within lp root (State.withSit s x) := by
  unfold State.withSit
  repeat' first
    | with_reducible assumption
    | with_reducible refine Within.setSit ?_ (hl _ (by decide))
    | dsimp only
    | with_reducible intro _

theorem State.withAdcs_within {lp : List Part} {root s : State} (h : Within lp root s) (x : Vector AdcCore 18) (hl : ∀ p ∈ ([.adcs]
    : List Part), p ∈ lp) : Within lp root (State.withAdcs s x) := by
  unfold State.withAdcs
  repeat' first
    | with_reducible assumption
    | with_reducible refine Within.setAdcs ?_ (hl _ (by decide))
    | dsimp only
    | with_reducible intro _

theorem State.withGx_within {lp : List Part} {root s : State} (h : Within lp root s) (x : Vector GxUse 2) (hl : ∀ p ∈ ([.gx] : List
    Part), p ∈ lp) : Within lp root (State.withGx s x) := by
  unfold State.withGx
  repeat' first
    | with_reducible assumption
    | with_reducible refine Within.setGx ?_ (hl _ (by decide))
    | dsimp only
    | with_reducible intro _

theorem State.withMet_within {lp : List Part} {root s : State} (h : Within lp root s) (x : MetState) (hl : ∀ p ∈ ([.met] : List
    Part), p ∈ lp) : Within lp root (State.withMet s x) := by
  unfold State.withMet
  repeat' first
    | with_reducible assumption
    | with_reducible refine Within.setMet ?_ (hl _ (by decide))
    | dsimp only
    | with_reducible intro _

theorem State.withClk_within {lp : List Part} {root s : State} (h : Within lp root s) (x : Vector Pll 7) (hl : ∀ p ∈ ([.clk] : List
    Part), p ∈ lp) : Within lp root (State.withClk s x) := by
  unfold State.withClk
  repeat' first
    | with_reducible assumption
    | with_reducible refine Within.setClk ?_ (hl _ (by decide))
    | dsimp only
    | with_reducible intro _

theorem State.withLanes_within {lp : List Part} {root s : State} (h : Within lp root s) (x : Vector LaneUnit 6) (hl : ∀ p ∈
    ([.lanes] : List Part), p ∈ lp) : Within lp root (State.withLanes s x) := by
  unfold State.withLanes
  repeat' first
    | with_reducible assumption
    | with_reducible refine Within.setLanes ?_ (hl _ (by decide))
    | dsimp only
    | with_reducible intro _

theorem State.withWlk_within {lp : List Part} {root s : State} (h : Within lp root s) (x : Wlk) (hl : ∀ p ∈ ([.wlk] : List Part), p
    ∈ lp) : Within lp root (State.withWlk s x) := by
  unfold State.withWlk
  repeat' first
    | with_reducible assumption
    | with_reducible refine Within.setWlk ?_ (hl _ (by decide))
    | dsimp only
    | with_reducible intro _

theorem State.withNet_within {lp : List Part} {root s : State} (h : Within lp root s) (x : Net) (hl : ∀ p ∈ ([.net] : List Part), p
    ∈ lp) : Within lp root (State.withNet s x) := by
  unfold State.withNet
  repeat' first
    | with_reducible assumption
    | with_reducible refine Within.setNet ?_ (hl _ (by decide))
    | dsimp only
    | with_reducible intro _

theorem State.withSag_within {lp : List Part} {root s : State} (h : Within lp root s) (x : SagState) (hl : ∀ p ∈ ([.sag] : List
    Part), p ∈ lp) : Within lp root (State.withSag s x) := by
  unfold State.withSag
  repeat' first
    | with_reducible assumption
    | with_reducible refine Within.setSag ?_ (hl _ (by decide))
    | dsimp only
    | with_reducible intro _

theorem State.withPug_within {lp : List Part} {root s : State} (h : Within lp root s) (x : PugState) (hl : ∀ p ∈ ([.pug] : List
    Part), p ∈ lp) : Within lp root (State.withPug s x) := by
  unfold State.withPug
  repeat' first
    | with_reducible assumption
    | with_reducible refine Within.setPug ?_ (hl _ (by decide))
    | dsimp only
    | with_reducible intro _

theorem State.withPwr_within {lp : List Part} {root s : State} (h : Within lp root s) (x : PwrState) (hl : ∀ p ∈ ([.pwr] : List
    Part), p ∈ lp) : Within lp root (State.withPwr s x) := by
  unfold State.withPwr
  repeat' first
    | with_reducible assumption
    | with_reducible refine Within.setPwr ?_ (hl _ (by decide))
    | dsimp only
    | with_reducible intro _

theorem State.withGrg_within {lp : List Part} {root s : State} (h : Within lp root s) (x : Grog) (hl : ∀ p ∈ ([.grg] : List Part), p
    ∈ lp) : Within lp root (State.withGrg s x) := by
  unfold State.withGrg
  repeat' first
    | with_reducible assumption
    | with_reducible refine Within.setGrg ?_ (hl _ (by decide))
    | dsimp only
    | with_reducible intro _

theorem State.withCon_within {lp : List Part} {root s : State} (h : Within lp root s) (x : ConState) (hl : ∀ p ∈ ([.con] : List
    Part), p ∈ lp) : Within lp root (State.withCon s x) := by
  unfold State.withCon
  repeat' first
    | with_reducible assumption
    | with_reducible refine Within.setCon ?_ (hl _ (by decide))
    | dsimp only
    | with_reducible intro _

theorem State.withPorts_within {lp : List Part} {root s : State} (h : Within lp root s) (x : HostPorts) (hl : ∀ p ∈ ([.ports] : List
    Part), p ∈ lp) : Within lp root (State.withPorts s x) := by
  unfold State.withPorts
  repeat' first
    | with_reducible assumption
    | with_reducible refine Within.setPorts ?_ (hl _ (by decide))
    | dsimp only
    | with_reducible intro _

theorem State.putB_within {lp : List Part} {root s : State} (h : Within lp root s) (f : Fld) (b : Bool) {bf : Nat} (hf : f.addr /
    0x100000 = bf) (mf : .regs bf ∈ lp) : Within lp root (State.putB s f b) := by
  unfold State.putB
  repeat' first
    | with_reducible assumption
    | with_reducible refine State.put_within _ ?_ hf mf
    | dsimp only
    | with_reducible intro _

theorem State.inc_within {lp : List Part} {root s : State} (h : Within lp root s) (f : Fld) {bf : Nat} (hf : f.addr / 0x100000 = bf)
    (mf : .regs bf ∈ lp) : Within lp root (State.inc s f) := by
  unfold State.inc
  repeat' first
    | with_reducible assumption
    | with_reducible refine State.put_within _ ?_ hf mf
    | with_reducible apply Within.ite
    | split
    | dsimp only
    | with_reducible intro _

theorem State.addSat_within {lp : List Part} {root s : State} (h : Within lp root s) (f : Fld) (n : Nat) {bf : Nat} (hf : f.addr /
    0x100000 = bf) (mf : .regs bf ∈ lp) : Within lp root (State.addSat s f n) := by
  unfold State.addSat
  repeat' first
    | with_reducible assumption
    | with_reducible refine State.put_within _ ?_ hf mf
    | dsimp only
    | with_reducible intro _

theorem State.incWrap_within {lp : List Part} {root s : State} (h : Within lp root s) (f : Fld) {bf : Nat} (hf : f.addr / 0x100000 =
    bf) (mf : .regs bf ∈ lp) : Within lp root (State.incWrap s f) := by
  unfold State.incWrap
  repeat' first
    | with_reducible assumption
    | with_reducible refine State.put_within _ ?_ hf mf
    | dsimp only
    | with_reducible intro _

theorem State.orBits_within {lp : List Part} {root s : State} (h : Within lp root s) (f : Fld) (m : Nat) {bf : Nat} (hf : f.addr /
    0x100000 = bf) (mf : .regs bf ∈ lp) : Within lp root (State.orBits s f m) := by
  unfold State.orBits
  repeat' first
    | with_reducible assumption
    | with_reducible refine State.put_within _ ?_ hf mf
    | dsimp only
    | with_reducible intro _

theorem State.putBit_within {lp : List Part} {root s : State} (h : Within lp root s) (f : Fld) (i : Nat) (b : Bool) {bf : Nat} (hf :
    f.addr / 0x100000 = bf) (mf : .regs bf ∈ lp) : Within lp root (State.putBit s f i b) := by
  unfold State.putBit
  repeat' first
    | with_reducible assumption
    | with_reducible refine State.put_within _ ?_ hf mf
    | with_reducible apply Within.ite
    | split
    | dsimp only
    | with_reducible intro _

theorem State.putI_within {lp : List Part} {root s : State} (h : Within lp root s) (f : Fld) (i : Int) {bf : Nat} (hf : f.addr /
    0x100000 = bf) (mf : .regs bf ∈ lp) : Within lp root (State.putI s f i) := by
  unfold State.putI
  repeat' first
    | with_reducible assumption
    | with_reducible refine State.put_within _ ?_ hf mf
    | dsimp only
    | with_reducible intro _

theorem State.publishBy_within {lp : List Part} {root s : State} (h : Within lp root s) (kind : Nat) (index : Option Nat) (k : Nat)
    (v : Word) (hl : ∀ p ∈ ([.regs 0x41c, .slots] : List Part), p ∈ lp) : Within lp root (State.publishBy s kind index k v) := by
  unfold State.publishBy
  repeat' first
    | with_reducible assumption
    | with_reducible refine State.publish_within ?_ _ _ (parts_trans (by decide) hl)
    | ((with_reducible apply State.inc_within (bf := 0x41c) (mf := (hl _ (by decide)))) <;> first | (rfl; done) | (dsimp only; omega) | (dsimp only [Fld.whole]; omega) | (split <;> first | (rfl; done) | (dsimp only; omega)) | show Within _ _ _)
    | with_reducible apply Within.ite
    | split
    | dsimp only
    | with_reducible intro _

theorem State.tookFree_within {lp : List Part} {root s : State} (h : Within lp root s) (hl : ∀ p ∈ ([.free] : List Part), p ∈ lp) :
    Within lp root (State.tookFree s) := by
  unfold State.tookFree
  repeat' first
    | with_reducible assumption
    | with_reducible apply State.withFree_within (hl := (parts_trans (by decide) hl))
    | dsimp only
    | with_reducible intro _

theorem State.respond_within {lp : List Part} {root s : State} (h : Within lp root s) (v : Nat) (hl : ∀ p ∈ ([.resp] : List Part), p
    ∈ lp) : Within lp root (State.respond s v) := by
  unfold State.respond
  repeat' first
    | with_reducible assumption
    | with_reducible apply State.withResp_within (hl := (parts_trans (by decide) hl))
    | dsimp only
    | with_reducible intro _

theorem State.busError_within {lp : List Part} {root s : State} (h : Within lp root s) (hl : ∀ p ∈ ([.resp] : List Part), p ∈ lp) :
    Within lp root (State.busError s) := by
  unfold State.busError
  repeat' first
    | with_reducible assumption
    | with_reducible apply State.withResp_within (hl := (parts_trans (by decide) hl))
    | dsimp only
    | with_reducible intro _

theorem State.access_within {lp : List Part} {root s : State} (h : Within lp root s) (i : Isl) (h : Option Held) (f : State → State)
    (hf : ∀ u0, Within lp root u0 → Within lp root (f u0)) (hl : ∀ p ∈ ([.held, .resp] : List Part), p ∈ lp) : Within lp root
    (State.access s i h f) := by
  unfold State.access
  repeat' first
    | with_reducible assumption
    | with_reducible apply hf
    | with_reducible apply State.busError_within (hl := (parts_trans (by decide) hl))
    | with_reducible apply State.respond_within (hl := (parts_trans (by decide) hl))
    | with_reducible apply State.withHeld_within (hl := (parts_trans (by decide) hl))
    | with_reducible apply Within.ite
    | split
    | dsimp only
    | with_reducible intro _

theorem State.accessV_within {lp : List Part} {root s : State} (h : Within lp root s) (i : Isl) (h : Option Held) (f : State → State
    × Nat) (hf : ∀ u0, Within lp root u0 → Within lp root (f u0).1) (hl : ∀ p ∈ ([.held, .resp] : List Part), p ∈ lp) : Within lp
    root (State.accessV s i h f) := by
  unfold State.accessV
  repeat' first
    | with_reducible assumption
    | with_reducible apply hf
    | with_reducible apply State.busError_within (hl := (parts_trans (by decide) hl))
    | with_reducible apply State.respond_within (hl := (parts_trans (by decide) hl))
    | with_reducible apply State.withHeld_within (hl := (parts_trans (by decide) hl))
    | with_reducible apply Within.ite
    | split
    | dsimp only
    | with_reducible intro _

theorem State.journalLost_within {lp : List Part} {root s : State} (h : Within lp root s) (hl : ∀ p ∈ ([.regs 0x470, .met] : List
    Part), p ∈ lp) : Within lp root (State.journalLost s) := by
  unfold State.journalLost
  repeat' first
    | with_reducible assumption
    | ((with_reducible apply State.inc_within (bf := 0x470) (mf := (hl _ (by decide)))) <;> first | (rfl; done) | (dsimp only; omega) | (dsimp only [Fld.whole]; omega) | (split <;> first | (rfl; done) | (dsimp only; omega)) | show Within _ _ _)
    | ((with_reducible apply State.put_within 0x470 (hb := (hl _ (by decide)))) <;> first | (rfl; done) | (dsimp only; omega) | (dsimp only [Fld.whole]; omega) | (split <;> first | (rfl; done) | (dsimp only; omega)) | show Within _ _ _)
    | with_reducible apply State.withMet_within (hl := (parts_trans (by decide) hl))
    | dsimp only
    | with_reducible intro _

theorem State.journalC_within {lp : List Part} {root s : State} (h : Within lp root s) (typ detail payload : Nat) (cont : List Nat)
    (hl : ∀ p ∈ ([.regs 0x470, .met, .sag] : List Part), p ∈ lp) : Within lp root (State.journalC s typ detail payload cont) := by
  unfold State.journalC
  repeat' first
    | with_reducible assumption
    | with_reducible apply State.journalLost_within (hl := (parts_trans (by decide) hl))
    | with_reducible apply State.withSag_within (hl := (parts_trans (by decide) hl))
    | with_reducible apply State.withMet_within (hl := (parts_trans (by decide) hl))
    | with_reducible apply Within.ite
    | split
    | dsimp only
    | with_reducible intro _

theorem State.journal_within {lp : List Part} {root s : State} (h : Within lp root s) (typ detail payload : Nat) (hl : ∀ p ∈ ([.regs
    0x470, .met, .sag] : List Part), p ∈ lp) : Within lp root (State.journal s typ detail payload) := by
  unfold State.journal
  repeat' first
    | with_reducible assumption
    | with_reducible apply State.journalC_within (hl := (parts_trans (by decide) hl))
    | dsimp only
    | with_reducible intro _

theorem State.send_within {lp : List Part} {root s : State} (h : Within lp root s) (u : OutUnit) (hl : ∀ p ∈ ([.outbox] : List
    Part), p ∈ lp) : Within lp root (State.send s u) := by
  unfold State.send
  repeat' first
    | with_reducible assumption
    | with_reducible apply State.withOutbox_within (hl := (parts_trans (by decide) hl))
    | dsimp only
    | with_reducible intro _

theorem State.sendFrame_within {lp : List Part} {root s : State} (h : Within lp root s) (lane : Nat) (h : FrameHeader) (does : Nat)
    (payload : List Nat) (hl : ∀ p ∈ ([.outbox] : List Part), p ∈ lp) : Within lp root (State.sendFrame s lane h does payload) := by
  unfold State.sendFrame
  repeat' first
    | with_reducible assumption
    | with_reducible apply State.send_within (hl := (parts_trans (by decide) hl))
    | dsimp only
    | with_reducible intro _

theorem State.passDown_within {lp : List Part} {root s : State} (h : Within lp root s) (hl : ∀ p ∈ ([.outbox] : List Part), p ∈ lp)
    : Within lp root (State.passDown s) := by
  unfold State.passDown
  repeat' first
    | with_reducible assumption
    | with_reducible apply State.send_within (hl := (parts_trans (by decide) hl))
    | dsimp only
    | with_reducible intro _

theorem State.passUp_within {lp : List Part} {root s : State} (h : Within lp root s) (hl : ∀ p ∈ ([.outbox] : List Part), p ∈ lp) :
    Within lp root (State.passUp s) := by
  unfold State.passUp
  repeat' first
    | with_reducible assumption
    | with_reducible apply State.send_within (hl := (parts_trans (by decide) hl))
    | dsimp only
    | with_reducible intro _

theorem State.passFrom_within {lp : List Part} {root s : State} (h : Within lp root s) (l : Fin 6) (hl : ∀ p ∈ ([.outbox] : List
    Part), p ∈ lp) : Within lp root (State.passFrom s l) := by
  unfold State.passFrom
  repeat' first
    | with_reducible assumption
    | with_reducible apply State.passUp_within (hl := (parts_trans (by decide) hl))
    | with_reducible apply State.passDown_within (hl := (parts_trans (by decide) hl))
    | with_reducible apply Within.ite
    | split
    | dsimp only
    | with_reducible intro _

theorem State.sendPlant_within {lp : List Part} {root s : State} (h : Within lp root s) (k : UnitKind) (content : Nat) (hl : ∀ p ∈
    ([.outbox] : List Part), p ∈ lp) : Within lp root (State.sendPlant s k content) := by
  unfold State.sendPlant
  repeat' first
    | with_reducible assumption
    | with_reducible apply State.send_within (hl := (parts_trans (by decide) hl))
    | with_reducible refine Within.each ?_ fun _ _ _ => ?_
    | dsimp only
    | with_reducible intro _

theorem State.modLater_within {lp : List Part} {root s : State} (h : Within lp root s) (d : Nat) (hl : ∀ p ∈ ([.mod] : List Part), p
    ∈ lp) : Within lp root (State.modLater s d) := by
  unfold State.modLater
  repeat' first
    | with_reducible assumption
    | with_reducible apply State.withMod_within (hl := (parts_trans (by decide) hl))
    | with_reducible apply Within.ite
    | split
    | dsimp only
    | with_reducible intro _

theorem State.onPair_within {lp : List Part} {root s : State} (h : Within lp root s) (p : Fin 9) (f : Pair → Pair) (hl : ∀ p ∈
    ([.mod] : List Part), p ∈ lp) : Within lp root (State.onPair s p f) := by
  unfold State.onPair
  repeat' first
    | with_reducible assumption
    | with_reducible apply State.withMod_within (hl := (parts_trans (by decide) hl))
    | dsimp only
    | with_reducible intro _

theorem State.onTile_within {lp : List Part} {root s : State} (h : Within lp root s) (n : Fin 9) (f : Tile → Tile) (hl : ∀ p ∈
    ([.tiles] : List Part), p ∈ lp) : Within lp root (State.onTile s n f) := by
  unfold State.onTile
  repeat' first
    | with_reducible assumption
    | with_reducible apply State.withTiles_within (hl := (parts_trans (by decide) hl))
    | dsimp only
    | with_reducible intro _

theorem State.onChan_within {lp : List Part} {root s : State} (h : Within lp root s) (n : Fin 9) (c : Fin 2) (f : Chan → Chan) (hl :
    ∀ p ∈ ([.tiles] : List Part), p ∈ lp) : Within lp root (State.onChan s n c f) := by
  unfold State.onChan
  repeat' first
    | with_reducible assumption
    | with_reducible apply State.onTile_within (hl := (parts_trans (by decide) hl))
    | dsimp only
    | with_reducible intro _

theorem State.onWin_within {lp : List Part} {root s : State} (h : Within lp root s) (n : Fin 44) (f : WinUnit → WinUnit) (hl : ∀ p ∈
    ([.wins] : List Part), p ∈ lp) : Within lp root (State.onWin s n f) := by
  unfold State.onWin
  repeat' first
    | with_reducible assumption
    | with_reducible apply State.withWins_within (hl := (parts_trans (by decide) hl))
    | dsimp only
    | with_reducible intro _

theorem State.chanOff_within {lp : List Part} {root s : State} (h : Within lp root s) (n : Fin 9) (c : Fin 2) (hl : ∀ p ∈ ([.regs
    0x440, .tiles] : List Part), p ∈ lp) : Within lp root (State.chanOff s n c) := by
  unfold State.chanOff
  repeat' first
    | with_reducible assumption
    | with_reducible apply State.onChan_within (hl := (parts_trans (by decide) hl))
    | ((with_reducible apply State.put_within 0x440 (hb := (hl _ (by decide)))) <;> first | (rfl; done) | (dsimp only; omega) | (dsimp only [Fld.whole]; omega) | (split <;> first | (rfl; done) | (dsimp only; omega)) | show Within _ _ _)
    | dsimp only
    | with_reducible intro _

theorem State.chanSoftBegin_within {lp : List Part} {root s : State} (h : Within lp root s) (n : Fin 9) (c : Fin 2) (hl : ∀ p ∈
    ([.regs 0x440, .tiles] : List Part), p ∈ lp) : Within lp root (State.chanSoftBegin s n c) := by
  unfold State.chanSoftBegin
  repeat' first
    | with_reducible assumption
    | with_reducible apply State.onChan_within (hl := (parts_trans (by decide) hl))
    | ((with_reducible apply State.put_within 0x440 (hb := (hl _ (by decide)))) <;> first | (rfl; done) | (dsimp only; omega) | (dsimp only [Fld.whole]; omega) | (split <;> first | (rfl; done) | (dsimp only; omega)) | show Within _ _ _)
    | dsimp only
    | with_reducible intro _

theorem State.chanSoftOff_within {lp : List Part} {root s : State} (h : Within lp root s) (n : Fin 9) (c : Fin 2) (hl : ∀ p ∈
    ([.regs 0x440, .tiles] : List Part), p ∈ lp) : Within lp root (State.chanSoftOff s n c) := by
  unfold State.chanSoftOff
  repeat' first
    | with_reducible assumption
    | with_reducible apply State.chanSoftBegin_within (hl := (parts_trans (by decide) hl))
    | with_reducible apply Within.ite
    | split
    | dsimp only
    | with_reducible intro _

theorem State.chanHush_within {lp : List Part} {root s : State} (h : Within lp root s) (n : Fin 9) (c : Fin 2) (hl : ∀ p ∈ ([.tiles]
    : List Part), p ∈ lp) : Within lp root (State.chanHush s n c) := by
  unfold State.chanHush
  repeat' first
    | with_reducible assumption
    | with_reducible apply State.onChan_within (hl := (parts_trans (by decide) hl))
    | dsimp only
    | with_reducible intro _

theorem State.chanTrip_within {lp : List Part} {root s : State} (h : Within lp root s) (n : Fin 9) (c : Fin 2) (hl : ∀ p ∈ ([.regs
    0x440, .tiles] : List Part), p ∈ lp) : Within lp root (State.chanTrip s n c) := by
  unfold State.chanTrip
  repeat' first
    | with_reducible assumption
    | with_reducible apply State.chanSoftOff_within (hl := (parts_trans (by decide) hl))
    | with_reducible apply State.chanOff_within (hl := (parts_trans (by decide) hl))
    | with_reducible apply Within.ite
    | split
    | dsimp only
    | with_reducible intro _

theorem State.gatePair_within {lp : List Part} {root s : State} (h : Within lp root s) (p : Fin 9) (f : Pair → Pair) (hl : ∀ p ∈
    ([.mod] : List Part), p ∈ lp) : Within lp root (State.gatePair s p f) := by
  unfold State.gatePair
  repeat' first
    | with_reducible assumption
    | with_reducible apply State.onPair_within (hl := (parts_trans (by decide) hl))
    | dsimp only
    | with_reducible intro _

theorem State.disarm_within {lp : List Part} {root s : State} (h : Within lp root s) (n : Fin 9) (hl : ∀ p ∈ ([.regs 0x440, .mod,
    .tiles] : List Part), p ∈ lp) : Within lp root (State.disarm s n) := by
  unfold State.disarm
  repeat' first
    | with_reducible assumption
    | with_reducible apply State.gatePair_within (hl := (parts_trans (by decide) hl))
    | with_reducible apply State.chanHush_within (hl := (parts_trans (by decide) hl))
    | with_reducible apply State.chanOff_within (hl := (parts_trans (by decide) hl))
    | ((with_reducible apply State.put_within 0x440 (hb := (hl _ (by decide)))) <;> first | (rfl; done) | (dsimp only; omega) | (dsimp only [Fld.whole]; omega) | (split <;> first | (rfl; done) | (dsimp only; omega)) | show Within _ _ _)
    | with_reducible refine Within.each ?_ fun _ _ _ => ?_
    | with_reducible refine Within.when ?_ fun _ _ => ?_
    | split
    | dsimp only
    | with_reducible intro _

theorem State.onWheel_within {lp : List Part} {root s : State} (h : Within lp root s) (w : Fin 64) (f : Wheel → Wheel) (hl : ∀ p ∈
    ([.wheels] : List Part), p ∈ lp) : Within lp root (State.onWheel s w f) := by
  unfold State.onWheel
  repeat' first
    | with_reducible assumption
    | with_reducible apply State.withWheels_within (hl := (parts_trans (by decide) hl))
    | dsimp only
    | with_reducible intro _

theorem State.onGroup_within {lp : List Part} {root s : State} (h : Within lp root s) (k : Fin 8) (f : Group → Group) (hl : ∀ p ∈
    ([.groups] : List Part), p ∈ lp) : Within lp root (State.onGroup s k f) := by
  unfold State.onGroup
  repeat' first
    | with_reducible assumption
    | with_reducible apply State.withGroups_within (hl := (parts_trans (by decide) hl))
    | dsimp only
    | with_reducible intro _

theorem State.onGsu_within {lp : List Part} {root s : State} (h : Within lp root s) (i : Fin 4) (f : Gsu → Gsu) (hl : ∀ p ∈ ([.gsus]
    : List Part), p ∈ lp) : Within lp root (State.onGsu s i f) := by
  unfold State.onGsu
  repeat' first
    | with_reducible assumption
    | with_reducible apply State.withGsus_within (hl := (parts_trans (by decide) hl))
    | dsimp only
    | with_reducible intro _

theorem State.onAdc_within {lp : List Part} {root s : State} (h : Within lp root s) (n : Fin 18) (f : AdcCore → AdcCore) (hl : ∀ p ∈
    ([.adcs] : List Part), p ∈ lp) : Within lp root (State.onAdc s n f) := by
  unfold State.onAdc
  repeat' first
    | with_reducible assumption
    | with_reducible apply State.withAdcs_within (hl := (parts_trans (by decide) hl))
    | dsimp only
    | with_reducible intro _

theorem State.onPll_within {lp : List Part} {root s : State} (h : Within lp root s) (n : Fin 7) (f : Pll → Pll) (hl : ∀ p ∈ ([.clk]
    : List Part), p ∈ lp) : Within lp root (State.onPll s n f) := by
  unfold State.onPll
  repeat' first
    | with_reducible assumption
    | with_reducible apply State.withClk_within (hl := (parts_trans (by decide) hl))
    | dsimp only
    | with_reducible intro _

end Sys2Proof.Machine
end

