-- ==== Sys2Proof/Laws/WithinStop.lean ====
section
/-!
SUPPORT. The parts of the state that each operation of Machine/Stop.lean may change.
-/

namespace Sys2Proof.Machine

open Sys2Proof

set_option linter.all false

theorem State.cone_within {lp : List Part} {root s : State} (h : Within lp root s) (source detail flags : Nat) (hl : ∀ p ∈ ([.regs
    0x4e0, .con] : List Part), p ∈ lp) : Within lp root (State.cone s source detail flags) := by
  unfold State.cone
  repeat' first
    | with_reducible assumption
    | ((with_reducible apply State.inc_within (bf := 0x4e0) (mf := (hl _ (by decide)))) <;> first | (rfl; done) | (dsimp only; omega) | (dsimp only [Fld.whole]; omega) | (split <;> first | (rfl; done) | (dsimp only; omega)) | show Within _ _ _)
    | ((with_reducible apply State.put_within 0x4e0 (hb := (hl _ (by decide)))) <;> first | (rfl; done) | (dsimp only; omega) | (dsimp only [Fld.whole]; omega) | (split <;> first | (rfl; done) | (dsimp only; omega)) | show Within _ _ _)
    | with_reducible apply State.withCon_within (hl := (parts_trans (by decide) hl))
    | with_reducible refine Within.when ?_ fun _ _ => ?_
    | with_reducible apply Within.ite
    | split
    | dsimp only
    | with_reducible intro _

theorem State.stage1_within {lp : List Part} {root s : State} (h : Within lp root s) (faulted : Bool) (p n : Fin 9) (c : Fin 2) (hl
    : ∀ p ∈ ([.regs 0x440, .tiles] : List Part), p ∈ lp) : Within lp root (State.stage1 s faulted p n c) := by
  unfold State.stage1
  repeat' first
    | with_reducible assumption
    | with_reducible apply State.chanHush_within (hl := (parts_trans (by decide) hl))
    | with_reducible apply State.chanSoftOff_within (hl := (parts_trans (by decide) hl))
    | with_reducible apply State.chanOff_within (hl := (parts_trans (by decide) hl))
    | with_reducible apply State.onChan_within (hl := (parts_trans (by decide) hl))
    | with_reducible apply Within.ite
    | split
    | dsimp only
    | with_reducible intro _

theorem State.snapBank_within {lp : List Part} {root s : State} (h : Within lp root s) (hl : ∀ p ∈ ([.con] : List Part), p ∈ lp) :
    Within lp root (State.snapBank s) := by
  unfold State.snapBank
  repeat' first
    | with_reducible assumption
    | with_reducible apply State.withCon_within (hl := (parts_trans (by decide) hl))
    | with_reducible apply Within.ite
    | split
    | dsimp only
    | with_reducible intro _

theorem State.orderDone_within {lp : List Part} {root s : State} (h : Within lp root s) (hl : ∀ p ∈ ([.regs 0x440, .regs 0x448] :
    List Part), p ∈ lp) : Within lp root (State.orderDone s) := by
  unfold State.orderDone
  repeat' first
    | with_reducible assumption
    | ((with_reducible apply State.put_within 0x448 (hb := (hl _ (by decide)))) <;> first | (rfl; done) | (dsimp only; omega) | (dsimp only [Fld.whole]; omega) | (split <;> first | (rfl; done) | (dsimp only; omega)) | show Within _ _ _)
    | ((with_reducible apply State.put_within 0x440 (hb := (hl _ (by decide)))) <;> first | (rfl; done) | (dsimp only; omega) | (dsimp only [Fld.whole]; omega) | (split <;> first | (rfl; done) | (dsimp only; omega)) | show Within _ _ _)
    | dsimp only
    | with_reducible intro _

theorem State.safeDone_within {lp : List Part} {root s : State} (h : Within lp root s) (hl : ∀ p ∈ ([.regs 0x440, .regs 0x448, .con]
    : List Part), p ∈ lp) : Within lp root (State.safeDone s) := by
  unfold State.safeDone
  repeat' first
    | with_reducible assumption
    | with_reducible apply State.orderDone_within (hl := (parts_trans (by decide) hl))
    | with_reducible apply State.snapBank_within (hl := (parts_trans (by decide) hl))
    | dsimp only
    | with_reducible intro _

theorem State.safeOrder_within {lp : List Part} {root s : State} (h : Within lp root s) (hl : ∀ p ∈ ([.regs 0x440, .regs 0x448,
    .mod, .tiles, .sit] : List Part), p ∈ lp) : Within lp root (State.safeOrder s) := by
  unfold State.safeOrder
  repeat' first
    | with_reducible assumption
    | with_reducible apply State.orderDone_within (hl := (parts_trans (by decide) hl))
    | with_reducible apply State.stage1_within (hl := (parts_trans (by decide) hl))
    | with_reducible apply State.gatePair_within (hl := (parts_trans (by decide) hl))
    | with_reducible apply State.chanHush_within (hl := (parts_trans (by decide) hl))
    | ((with_reducible apply State.put_within 0x448 (hb := (hl _ (by decide)))) <;> first | (rfl; done) | (dsimp only; omega) | (dsimp only [Fld.whole]; omega) | (split <;> first | (rfl; done) | (dsimp only; omega)) | show Within _ _ _)
    | ((with_reducible apply State.put_within 0x440 (hb := (hl _ (by decide)))) <;> first | (rfl; done) | (dsimp only; omega) | (dsimp only [Fld.whole]; omega) | (split <;> first | (rfl; done) | (dsimp only; omega)) | show Within _ _ _)
    | with_reducible apply State.withSit_within (hl := (parts_trans (by decide) hl))
    | with_reducible refine Within.each ?_ fun _ _ _ => ?_
    | with_reducible apply Within.ite
    | split
    | dsimp only
    | with_reducible intro _

theorem State.plantRefresh_within {lp : List Part} {root s : State} (h : Within lp root s) (hl : ∀ p ∈ ([.regs 0x448, .outbox, .sit]
    : List Part), p ∈ lp) : Within lp root (State.plantRefresh s) := by
  unfold State.plantRefresh
  repeat' first
    | with_reducible assumption
    | with_reducible apply State.sendPlant_within (hl := (parts_trans (by decide) hl))
    | ((with_reducible apply State.put_within 0x448 (hb := (hl _ (by decide)))) <;> first | (rfl; done) | (dsimp only; omega) | (dsimp only [Fld.whole]; omega) | (split <;> first | (rfl; done) | (dsimp only; omega)) | show Within _ _ _)
    | with_reducible apply State.withSit_within (hl := (parts_trans (by decide) hl))
    | with_reducible apply Within.ite
    | split
    | dsimp only
    | with_reducible intro _

theorem State.firstLower_within {lp : List Part} {root s : State} (h : Within lp root s) (c : Cause) (detail : Nat) (hl : ∀ p ∈
    ([.regs 0x448, .met, .sag, .con] : List Part), p ∈ lp) : Within lp root (State.firstLower s c detail) := by
  unfold State.firstLower
  repeat' first
    | with_reducible assumption
    | ((with_reducible apply State.put_within 0x448 (hb := (hl _ (by decide)))) <;> first | (rfl; done) | (dsimp only; omega) | (dsimp only [Fld.whole]; omega) | (split <;> first | (rfl; done) | (dsimp only; omega)) | show Within _ _ _)
    | with_reducible apply State.withCon_within (hl := (parts_trans (by decide) hl))
    | with_reducible apply State.withSag_within (hl := (parts_trans (by decide) hl))
    | with_reducible apply State.withMet_within (hl := (parts_trans (by decide) hl))
    | with_reducible apply Within.ite
    | split
    | dsimp only
    | with_reducible intro _

theorem State.raiseStopAlso_within {lp : List Part} {root s : State} (h : Within lp root s) (c : Cause) (detail also : Nat) (hl : ∀
    p ∈ ([.regs 0x440, .regs 0x448, .regs 0x470, .regs 0x4e0, .outbox, .mod, .tiles, .sit, .met, .sag, .con] : List Part), p ∈ lp) :
    Within lp root (State.raiseStopAlso s c detail also) := by
  unfold State.raiseStopAlso
  repeat' first
    | with_reducible assumption
    | with_reducible apply State.firstLower_within (hl := (parts_trans (by decide) hl))
    | with_reducible apply State.plantRefresh_within (hl := (parts_trans (by decide) hl))
    | with_reducible apply State.safeOrder_within (hl := (parts_trans (by decide) hl))
    | with_reducible apply State.cone_within (hl := (parts_trans (by decide) hl))
    | with_reducible apply State.journal_within (hl := (parts_trans (by decide) hl))
    | ((with_reducible apply State.orBits_within (bf := 0x448) (mf := (hl _ (by decide)))) <;> first | (rfl; done) | (dsimp only; omega) | (dsimp only [Fld.whole]; omega) | (split <;> first | (rfl; done) | (dsimp only; omega)) | show Within _ _ _)
    | ((with_reducible apply State.put_within 0x448 (hb := (hl _ (by decide)))) <;> first | (rfl; done) | (dsimp only; omega) | (dsimp only [Fld.whole]; omega) | (split <;> first | (rfl; done) | (dsimp only; omega)) | show Within _ _ _)
    | with_reducible apply State.withSit_within (hl := (parts_trans (by decide) hl))
    | with_reducible refine Within.when ?_ fun _ _ => ?_
    | with_reducible apply Within.ite
    | split
    | dsimp only
    | with_reducible intro _

theorem State.raiseStop_within {lp : List Part} {root s : State} (h : Within lp root s) (c : Cause) (detail : Nat) (hl : ∀ p ∈
    ([.regs 0x440, .regs 0x448, .regs 0x470, .regs 0x4e0, .outbox, .mod, .tiles, .sit, .met, .sag, .con] : List Part), p ∈ lp) :
    Within lp root (State.raiseStop s c detail) := by
  unfold State.raiseStop
  repeat' first
    | with_reducible assumption
    | with_reducible apply State.raiseStopAlso_within (hl := (parts_trans (by decide) hl))
    | dsimp only
    | with_reducible intro _

theorem State.snapFault_within {lp : List Part} {root s : State} (h : Within lp root s) (n : Fin 9) (c : Fin 2) (hl : ∀ p ∈ ([.regs
    0x440, .con] : List Part), p ∈ lp) : Within lp root (State.snapFault s n c) := by
  unfold State.snapFault
  repeat' first
    | with_reducible assumption
    | with_reducible apply State.snapBank_within (hl := (parts_trans (by decide) hl))
    | ((with_reducible apply State.orBits_within (bf := 0x440) (mf := (hl _ (by decide)))) <;> first | (rfl; done) | (dsimp only; omega) | (dsimp only [Fld.whole]; omega) | (split <;> first | (rfl; done) | (dsimp only; omega)) | show Within _ _ _)
    | with_reducible refine Within.when ?_ fun _ _ => ?_
    | dsimp only
    | with_reducible intro _

theorem State.cutPair_within {lp : List Part} {root s : State} (h : Within lp root s) (p : Fin 9) (hl : ∀ p ∈ ([.regs 0x440, .regs
    0x448, .mod, .tiles] : List Part), p ∈ lp) : Within lp root (State.cutPair s p) := by
  unfold State.cutPair
  repeat' first
    | with_reducible assumption
    | with_reducible apply State.gatePair_within (hl := (parts_trans (by decide) hl))
    | with_reducible apply State.chanTrip_within (hl := (parts_trans (by decide) hl))
    | with_reducible apply State.chanHush_within (hl := (parts_trans (by decide) hl))
    | ((with_reducible apply State.putBit_within (bf := 0x448) (mf := (hl _ (by decide)))) <;> first | (rfl; done) | (dsimp only; omega) | (dsimp only [Fld.whole]; omega) | (split <;> first | (rfl; done) | (dsimp only; omega)) | show Within _ _ _)
    | ((with_reducible apply State.put_within 0x448 (hb := (hl _ (by decide)))) <;> first | (rfl; done) | (dsimp only; omega) | (dsimp only [Fld.whole]; omega) | (split <;> first | (rfl; done) | (dsimp only; omega)) | show Within _ _ _)
    | with_reducible refine Within.each ?_ fun _ _ _ => ?_
    | split
    | dsimp only
    | with_reducible intro _

theorem State.cutPairs_within {lp : List Part} {root s : State} (h : Within lp root s) (ps : List (Fin 9)) (hl : ∀ p ∈ ([.regs
    0x440, .regs 0x448, .mod, .tiles] : List Part), p ∈ lp) : Within lp root (State.cutPairs s ps).1 := by
  unfold State.cutPairs
  try dsimp only
  repeat' first
    | with_reducible assumption
    | split
    | with_reducible apply State.cutPair_within (hl := (parts_trans (by decide) hl))
    | with_reducible refine Within.each ?_ fun _ _ _ => ?_
    | with_reducible apply Within.ite
    | dsimp only
    | with_reducible intro _

theorem State.coneIf_within {lp : List Part} {root s : State} (h : Within lp root s) (source detail : Nat) (hl : ∀ p ∈ ([.regs
    0x4e0, .con] : List Part), p ∈ lp) : Within lp root (State.coneIf s source detail) := by
  unfold State.coneIf
  repeat' first
    | with_reducible assumption
    | with_reducible apply State.cone_within (hl := (parts_trans (by decide) hl))
    | with_reducible refine Within.when ?_ fun _ _ => ?_
    | dsimp only
    | with_reducible intro _

end Sys2Proof.Machine
end

