-- ==== Sys2Proof/Laws/WithinCone.lean ====
section
/-!
SUPPORT. The parts of the state that each operation of Machine/Cone.lean may change.
-/

namespace Sys2Proof.Machine

open Sys2Proof

set_option linter.all false

theorem execTrig_within {s out : State} (e : execTrig s = .next out) : Within [.regs 0x4e0, .held, .resp, .con] s out := by
  cases e
  repeat' first
    | with_reducible exact Within.refl _ _
    | with_reducible assumption
    | with_reducible apply State.cone_within (hl := (by decide))
    | with_reducible apply State.access_within (hl := (by decide))
    | dsimp only
    | with_reducible intro _

theorem execConePin_within {s out : State} (e : execConePin s = .next out) : Within [.regs 0x4e0, .con] s out := by
  cases e
  repeat' first
    | with_reducible exact Within.refl _ _
    | with_reducible assumption
    | with_reducible apply State.cone_within (hl := (by decide))
    | with_reducible refine Within.when ?_ fun _ _ => ?_
    | dsimp only
    | with_reducible intro _

theorem State.disarmMatch_within {lp : List Part} {root s : State} (h : Within lp root s) (hl : ∀ p ∈ ([.regs 0x4e0, .con] : List
    Part), p ∈ lp) : Within lp root (State.disarmMatch s) := by
  unfold State.disarmMatch
  repeat' first
    | with_reducible assumption
    | ((with_reducible apply State.put_within 0x4e0 (hb := (hl _ (by decide)))) <;> first | (rfl; done) | (dsimp only; omega) | (dsimp only [Fld.whole]; omega) | (split <;> first | (rfl; done) | (dsimp only; omega)) | show Within _ _ _)
    | with_reducible apply State.withCon_within (hl := (parts_trans (by decide) hl))
    | dsimp only
    | with_reducible intro _

theorem State.armMatch_within {lp : List Part} {root s : State} (h : Within lp root s) (sec ns : Nat) (plant : Bool) (hl : ∀ p ∈
    ([.regs 0x4e0, .con] : List Part), p ∈ lp) : Within lp root (State.armMatch s sec ns plant) := by
  unfold State.armMatch
  repeat' first
    | with_reducible assumption
    | ((with_reducible apply State.put_within 0x4e0 (hb := (hl _ (by decide)))) <;> first | (rfl; done) | (dsimp only; omega) | (dsimp only [Fld.whole]; omega) | (split <;> first | (rfl; done) | (dsimp only; omega)) | show Within _ _ _)
    | with_reducible apply State.withCon_within (hl := (parts_trans (by decide) hl))
    | dsimp only
    | with_reducible intro _

theorem tmatchArmOp_within {lp : List Part} {root s : State} (h : Within lp root s) (hl : ∀ p ∈ ([.regs 0x4e0, .con] : List Part), p
    ∈ lp) : Within lp root (tmatchArmOp s) := by
  unfold tmatchArmOp
  repeat' first
    | with_reducible assumption
    | with_reducible apply State.armMatch_within (hl := (parts_trans (by decide) hl))
    | with_reducible apply State.disarmMatch_within (hl := (parts_trans (by decide) hl))
    | with_reducible apply State.cone_within (hl := (parts_trans (by decide) hl))
    | with_reducible apply Within.ite
    | split
    | dsimp only
    | with_reducible intro _

theorem execTmatchArm_within {s out : State} (e : execTmatchArm s = .next out) : Within [.regs 0x4e0, .held, .resp, .con] s out :=
    by
  cases e
  repeat' first
    | with_reducible exact Within.refl _ _
    | with_reducible assumption
    | with_reducible apply tmatchArmOp_within (hl := (by decide))
    | with_reducible apply State.access_within (hl := (by decide))
    | dsimp only
    | with_reducible intro _

theorem execTimeMatch_within {s out : State} (e : execTimeMatch s = .next out) : Within [.regs 0x4e0, .con] s out := by
  cases e
  repeat' first
    | with_reducible exact Within.refl _ _
    | with_reducible assumption
    | with_reducible apply State.disarmMatch_within (hl := (by decide))
    | with_reducible apply State.cone_within (hl := (by decide))
    | with_reducible apply Within.ite
    | split
    | dsimp only
    | with_reducible intro _

theorem State.sendCone_within {lp : List Part} {root s : State} (h : Within lp root s) (sec ns : Nat) (hl : ∀ p ∈ ([.outbox] : List
    Part), p ∈ lp) : Within lp root (State.sendCone s sec ns) := by
  unfold State.sendCone
  repeat' first
    | with_reducible assumption
    | with_reducible apply State.sendFrame_within (hl := (parts_trans (by decide) hl))
    | with_reducible refine Within.each ?_ fun _ _ _ => ?_
    | dsimp only
    | with_reducible intro _

theorem plantGoOp_within {lp : List Part} {root s : State} (h : Within lp root s) (hl : ∀ p ∈ ([.regs 0x4e0, .outbox, .con] : List
    Part), p ∈ lp) : Within lp root (plantGoOp s) := by
  unfold plantGoOp
  repeat' first
    | with_reducible assumption
    | with_reducible apply State.sendCone_within (hl := (parts_trans (by decide) hl))
    | with_reducible apply State.armMatch_within (hl := (parts_trans (by decide) hl))
    | ((with_reducible apply State.inc_within (bf := 0x4e0) (mf := (hl _ (by decide)))) <;> first | (rfl; done) | (dsimp only; omega) | (dsimp only [Fld.whole]; omega) | (split <;> first | (rfl; done) | (dsimp only; omega)) | show Within _ _ _)
    | with_reducible apply State.withCon_within (hl := (parts_trans (by decide) hl))
    | with_reducible apply Within.ite
    | split
    | dsimp only
    | with_reducible intro _

theorem execPlantGo_within {s out : State} (e : execPlantGo s = .next out) : Within [.regs 0x4e0, .held, .resp, .outbox, .con] s out
    := by
  cases e
  repeat' first
    | with_reducible exact Within.refl _ _
    | with_reducible assumption
    | with_reducible apply plantGoOp_within (hl := (by decide))
    | with_reducible apply State.access_within (hl := (by decide))
    | dsimp only
    | with_reducible intro _

theorem execConeRepeat_within {s out : State} (e : execConeRepeat s = .next out) : Within [.outbox, .con] s out := by
  cases e
  repeat' first
    | with_reducible exact Within.refl _ _
    | with_reducible assumption
    | with_reducible apply State.sendCone_within (hl := (by decide))
    | with_reducible apply State.withCon_within (hl := (by decide))
    | split
    | dsimp only
    | with_reducible intro _

theorem execConeFrame_within {s out : State} (crcOk : Bool) (time : Nat × Nat) (e : execConeFrame crcOk time s = .next out) :
    Within [.regs 0x490, .regs 0x4e0, .outbox, .con] s out := by
  cases e
  repeat' first
    | with_reducible exact Within.refl _ _
    | with_reducible assumption
    | with_reducible apply State.armMatch_within (hl := (by decide))
    | with_reducible apply State.passDown_within (hl := (by decide))
    | ((with_reducible apply State.inc_within (bf := 0x4e0) (mf := (by decide))) <;> first | (rfl; done) | (dsimp only; omega) | (dsimp only [Fld.whole]; omega) | (split <;> first | (rfl; done) | (dsimp only; omega)) | show Within _ _ _)
    | ((with_reducible apply State.inc_within (bf := 0x490) (mf := (by decide))) <;> first | (rfl; done) | (dsimp only; omega) | (dsimp only [Fld.whole]; omega) | (split <;> first | (rfl; done) | (dsimp only; omega)) | show Within _ _ _)
    | with_reducible refine Within.when ?_ fun _ _ => ?_
    | with_reducible apply Within.ite
    | split
    | dsimp only
    | with_reducible intro _

theorem State.releaseBank_within {lp : List Part} {root s : State} (h : Within lp root s) (b : Nat) (held : Fld) {bheld : Nat}
    (hheld : held.addr / 0x100000 = bheld) (mheld : .regs bheld ∈ lp) (hl : ∀ p ∈ ([.regs 0x4e0] : List Part), p ∈ lp) : Within lp
    root (State.releaseBank s b held) := by
  unfold State.releaseBank
  repeat' first
    | with_reducible assumption
    | ((with_reducible apply State.inc_within (bf := 0x4e0) (mf := (hl _ (by decide)))) <;> first | (rfl; done) | (dsimp only; omega) | (dsimp only [Fld.whole]; omega) | (split <;> first | (rfl; done) | (dsimp only; omega)) | show Within _ _ _)
    | with_reducible refine State.put_within _ ?_ hheld mheld
    | with_reducible apply Within.ite
    | split
    | dsimp only
    | with_reducible intro _

theorem execRelease0_within {s out : State} (e : execRelease0 s = .next out) : Within [.regs 0x4e0, .held, .resp] s out := by
  cases e
  repeat' first
    | with_reducible exact Within.refl _ _
    | with_reducible assumption
    | ((with_reducible apply State.releaseBank_within (bheld := 0x4e0) (mheld := (by decide)) (hl := (by decide))) <;> first | (rfl; done) | (dsimp only; omega) | (dsimp only [Fld.whole]; omega) | (split <;> first | (rfl; done) | (dsimp only; omega)) | show Within _ _ _)
    | with_reducible apply State.access_within (hl := (by decide))
    | dsimp only
    | with_reducible intro _

theorem execRelease1_within {s out : State} (e : execRelease1 s = .next out) : Within [.regs 0x4e0, .held, .resp] s out := by
  cases e
  repeat' first
    | with_reducible exact Within.refl _ _
    | with_reducible assumption
    | ((with_reducible apply State.releaseBank_within (bheld := 0x4e0) (mheld := (by decide)) (hl := (by decide))) <;> first | (rfl; done) | (dsimp only; omega) | (dsimp only [Fld.whole]; omega) | (split <;> first | (rfl; done) | (dsimp only; omega)) | show Within _ _ _)
    | with_reducible apply State.access_within (hl := (by decide))
    | dsimp only
    | with_reducible intro _

theorem State.capFill_within {lp : List Part} {root s : State} (h : Within lp root s) (hl : ∀ p ∈ ([.regs 0x4e0, .con] : List Part),
    p ∈ lp) : Within lp root (State.capFill s) := by
  unfold State.capFill
  repeat' first
    | with_reducible assumption
    | ((with_reducible apply State.put_within 0x4e0 (hb := (hl _ (by decide)))) <;> first | (rfl; done) | (dsimp only; omega) | (dsimp only [Fld.whole]; omega) | (split <;> first | (rfl; done) | (dsimp only; omega)) | show Within _ _ _)
    | with_reducible apply State.withCon_within (hl := (parts_trans (by decide) hl))
    | dsimp only
    | with_reducible intro _

theorem capRearmOp_within {lp : List Part} {root s : State} (h : Within lp root s) (hl : ∀ p ∈ ([.regs 0x4e0, .con] : List Part), p
    ∈ lp) : Within lp root (capRearmOp s) := by
  unfold capRearmOp
  repeat' first
    | with_reducible assumption
    | with_reducible apply State.capFill_within (hl := (parts_trans (by decide) hl))
    | with_reducible refine Within.when ?_ fun _ _ => ?_
    | dsimp only
    | with_reducible intro _

theorem execCapRearm_within {s out : State} (e : execCapRearm s = .next out) : Within [.regs 0x4e0, .held, .resp, .con] s out := by
  cases e
  repeat' first
    | with_reducible exact Within.refl _ _
    | with_reducible assumption
    | with_reducible apply capRearmOp_within (hl := (by decide))
    | with_reducible apply State.access_within (hl := (by decide))
    | dsimp only
    | with_reducible intro _

theorem capEnWriteOp_within {lp : List Part} {root s : State} (h : Within lp root s) (v : Word) (hl : ∀ p ∈ ([.regs 0x4e0, .con] :
    List Part), p ∈ lp) : Within lp root (capEnWriteOp v s) := by
  unfold capEnWriteOp
  repeat' first
    | with_reducible assumption
    | with_reducible apply State.capFill_within (hl := (parts_trans (by decide) hl))
    | ((with_reducible apply State.inc_within (bf := 0x4e0) (mf := (hl _ (by decide)))) <;> first | (rfl; done) | (dsimp only; omega) | (dsimp only [Fld.whole]; omega) | (split <;> first | (rfl; done) | (dsimp only; omega)) | show Within _ _ _)
    | ((with_reducible apply State.put_within 0x4e0 (hb := (hl _ (by decide)))) <;> first | (rfl; done) | (dsimp only; omega) | (dsimp only [Fld.whole]; omega) | (split <;> first | (rfl; done) | (dsimp only; omega)) | show Within _ _ _)
    | with_reducible apply Within.ite
    | split
    | dsimp only
    | with_reducible intro _

theorem execCapEnWrite_within {s out : State} (v : Word) (e : execCapEnWrite v s = .next out) : Within [.regs 0x4e0, .held, .resp,
    .con] s out := by
  cases e
  repeat' first
    | with_reducible exact Within.refl _ _
    | with_reducible assumption
    | with_reducible apply capEnWriteOp_within (hl := (by decide))
    | with_reducible apply State.access_within (hl := (by decide))
    | dsimp only
    | with_reducible intro _

theorem State.takeRecord_within {lp : List Part} {root s : State} (h : Within lp root s) (k : Nat) (hl : ∀ p ∈ ([.regs 0x4e0, .con]
    : List Part), p ∈ lp) : Within lp root (State.takeRecord s k) := by
  unfold State.takeRecord
  repeat' first
    | with_reducible assumption
    | ((with_reducible apply State.put_within 0x4e0 (hb := (hl _ (by decide)))) <;> first | (rfl; done) | (dsimp only; omega) | (dsimp only [Fld.whole]; omega) | (split <;> first | (rfl; done) | (dsimp only; omega)) | show Within _ _ _)
    | with_reducible apply State.withCon_within (hl := (parts_trans (by decide) hl))
    | with_reducible refine Within.when ?_ fun _ _ => ?_
    | with_reducible refine Within.foldl ?_ fun _ _ _ => ?_
    | with_reducible apply Within.ite
    | split
    | dsimp only
    | with_reducible intro _

theorem State.captureStart_within {lp : List Part} {root s : State} (h : Within lp root s) (k : Nat) (hl : ∀ p ∈ ([.regs 0x4e0,
    .con] : List Part), p ∈ lp) : Within lp root (State.captureStart s k) := by
  unfold State.captureStart
  repeat' first
    | with_reducible assumption
    | with_reducible apply State.takeRecord_within (hl := (parts_trans (by decide) hl))
    | with_reducible apply State.withCon_within (hl := (parts_trans (by decide) hl))
    | with_reducible apply Within.ite
    | split
    | dsimp only
    | with_reducible intro _

theorem State.captureFreeze_within {lp : List Part} {root s : State} (h : Within lp root s) (hl : ∀ p ∈ ([.regs 0x4e0] : List Part),
    p ∈ lp) : Within lp root (State.captureFreeze s) := by
  unfold State.captureFreeze
  repeat' first
    | with_reducible assumption
    | ((with_reducible apply State.put_within 0x4e0 (hb := (hl _ (by decide)))) <;> first | (rfl; done) | (dsimp only; omega) | (dsimp only [Fld.whole]; omega) | (split <;> first | (rfl; done) | (dsimp only; omega)) | show Within _ _ _)
    | dsimp only
    | with_reducible intro _

theorem execCaptureFrozen_within {s out : State} (e : execCaptureFrozen s = .next out) : Within [.regs 0x4e0] s out := by
  cases e
  repeat' first
    | with_reducible exact Within.refl _ _
    | with_reducible assumption
    | with_reducible apply State.captureFreeze_within (hl := (by decide))
    | with_reducible refine Within.when ?_ fun _ _ => ?_
    | dsimp only
    | with_reducible intro _

end Sys2Proof.Machine
end

