-- ==== Sys2Proof/Laws/WithinGrog.lean ====
section
/-!
SUPPORT. The parts of the state that each operation of Machine/Grog.lean may change.
-/

namespace Sys2Proof.Machine

open Sys2Proof

set_option linter.all false

theorem State.propose_within {lp : List Part} {root s : State} (h : Within lp root s) (mon kind inst sub reason : Nat) (hl : ∀ p ∈
    ([.regs 0x470, .regs 0x4d0, .met, .sag, .grg] : List Part), p ∈ lp) : Within lp root (State.propose s mon kind inst sub reason)
    := by
  unfold State.propose
  repeat' first
    | with_reducible assumption
    | with_reducible apply State.journal_within (hl := (parts_trans (by decide) hl))
    | ((with_reducible apply State.inc_within (bf := 0x4d0) (mf := (hl _ (by decide)))) <;> first | (rfl; done) | (dsimp only; omega) | (dsimp only [Fld.whole]; omega) | (split <;> first | (rfl; done) | (dsimp only; omega)) | show Within _ _ _)
    | ((with_reducible apply State.put_within 0x4d0 (hb := (hl _ (by decide)))) <;> first | (rfl; done) | (dsimp only; omega) | (dsimp only [Fld.whole]; omega) | (split <;> first | (rfl; done) | (dsimp only; omega)) | show Within _ _ _)
    | with_reducible apply State.withGrg_within (hl := (parts_trans (by decide) hl))
    | with_reducible apply Within.ite
    | split
    | dsimp only
    | with_reducible intro _

theorem State.mapRequest_within {lp : List Part} {root s : State} (h : Within lp root s) (kind inst sub : Nat) (hard byFw : Bool)
    (hl : ∀ p ∈ ([.grg] : List Part), p ∈ lp) : Within lp root (State.mapRequest s kind inst sub hard byFw) := by
  unfold State.mapRequest
  repeat' first
    | with_reducible assumption
    | with_reducible apply State.withGrg_within (hl := (parts_trans (by decide) hl))
    | with_reducible apply Within.ite
    | split
    | dsimp only
    | with_reducible intro _

theorem State.grogHard_within {lp : List Part} {root s : State} (h : Within lp root s) (kind inst sub : Nat) (hl : ∀ p ∈ ([.regs
    0x470, .regs 0x4d0, .met, .sag, .grg] : List Part), p ∈ lp) : Within lp root (State.grogHard s kind inst sub) := by
  unfold State.grogHard
  repeat' first
    | with_reducible assumption
    | with_reducible apply State.mapRequest_within (hl := (parts_trans (by decide) hl))
    | with_reducible apply State.propose_within (hl := (parts_trans (by decide) hl))
    | with_reducible apply Within.ite
    | split
    | dsimp only
    | with_reducible intro _

theorem State.sectorFails_within {lp : List Part} {root s : State} (h : Within lp root s) (bad : Option (BitVec 8)) (hl : ∀ p ∈
    ([.regs 0x470, .regs 0x4d0, .met, .sag, .grg] : List Part), p ∈ lp) : Within lp root (State.sectorFails s bad) := by
  unfold State.sectorFails
  repeat' first
    | with_reducible assumption
    | with_reducible apply State.grogHard_within (hl := (parts_trans (by decide) hl))
    | split
    | dsimp only
    | with_reducible intro _

theorem State.grogWorst_within {lp : List Part} {root s : State} (h : Within lp root s) (m : Fin 7) (inst : Nat) (v : Word) (hl : ∀
    p ∈ ([.regs 0x4d0, .grg] : List Part), p ∈ lp) : Within lp root (State.grogWorst s m inst v) := by
  unfold State.grogWorst
  repeat' first
    | with_reducible assumption
    | ((with_reducible apply State.put_within 0x4d0 (hb := (hl _ (by decide)))) <;> first | (rfl; done) | (dsimp only; omega) | (dsimp only [Fld.whole]; omega) | (split <;> first | (rfl; done) | (dsimp only; omega)) | show Within _ _ _)
    | with_reducible apply State.withGrg_within (hl := (parts_trans (by decide) hl))
    | with_reducible apply Within.ite
    | split
    | dsimp only
    | with_reducible intro _

theorem State.grogWarn_within {lp : List Part} {root s : State} (h : Within lp root s) (m : Fin 7) (key kind inst sub : Nat) (v :
    Word) (warn worn : Bool) (hl : ∀ p ∈ ([.regs 0x470, .regs 0x4d0, .met, .sag, .grg] : List Part), p ∈ lp) : Within lp root
    (State.grogWarn s m key kind inst sub v warn worn) := by
  unfold State.grogWarn
  repeat' first
    | with_reducible assumption
    | with_reducible apply State.propose_within (hl := (parts_trans (by decide) hl))
    | with_reducible apply State.journal_within (hl := (parts_trans (by decide) hl))
    | ((with_reducible apply State.put_within 0x4d0 (hb := (hl _ (by decide)))) <;> first | (rfl; done) | (dsimp only; omega) | (dsimp only [Fld.whole]; omega) | (split <;> first | (rfl; done) | (dsimp only; omega)) | show Within _ _ _)
    | with_reducible apply State.withGrg_within (hl := (parts_trans (by decide) hl))
    | with_reducible refine Within.when ?_ fun _ _ => ?_
    | with_reducible apply Within.ite
    | split
    | dsimp only
    | with_reducible intro _

theorem State.grogReport_within {lp : List Part} {root s : State} (h : Within lp root s) (m : Fin 7) (kind inst sub : Nat) (v :
    Word) (warn worn : Bool) (hl : ∀ p ∈ ([.regs 0x470, .regs 0x4d0, .met, .sag, .grg] : List Part), p ∈ lp) : Within lp root
    (State.grogReport s m kind inst sub v warn worn) := by
  unfold State.grogReport
  repeat' first
    | with_reducible assumption
    | with_reducible apply State.grogWarn_within (hl := (parts_trans (by decide) hl))
    | with_reducible apply State.grogWorst_within (hl := (parts_trans (by decide) hl))
    | dsimp only
    | with_reducible intro _

theorem State.grogEye_within {lp : List Part} {root s : State} (h : Within lp root s) (key lane : Nat) (v : Word) (hl : ∀ p ∈
    ([.grg] : List Part), p ∈ lp) : Within lp root (State.grogEye s key lane v) := by
  unfold State.grogEye
  repeat' first
    | with_reducible assumption
    | with_reducible apply State.withGrg_within (hl := (parts_trans (by decide) hl))
    | with_reducible apply Within.ite
    | split
    | dsimp only
    | with_reducible intro _

theorem State.grogErr_within {lp : List Part} {root s : State} (h : Within lp root s) (kind inst sub : Nat) (hl : ∀ p ∈ ([.regs
    0x470, .regs 0x4d0, .met, .sag, .grg] : List Part), p ∈ lp) : Within lp root (State.grogErr s kind inst sub) := by
  unfold State.grogErr
  repeat' first
    | with_reducible assumption
    | with_reducible apply State.grogReport_within (hl := (parts_trans (by decide) hl))
    | with_reducible apply State.withGrg_within (hl := (parts_trans (by decide) hl))
    | with_reducible apply Within.ite
    | split
    | dsimp only
    | with_reducible intro _

theorem State.grogSegment_within {lp : List Part} {root s : State} (h : Within lp root s) (n : Fin 9) (c : Fin 2) (k : Fin 8) (rds
    initial : Nat) (broken : Bool) (hl : ∀ p ∈ ([.regs 0x470, .regs 0x4d0, .met, .sag, .grg] : List Part), p ∈ lp) : Within lp root
    (State.grogSegment s n c k rds initial broken) := by
  unfold State.grogSegment
  repeat' first
    | with_reducible assumption
    | with_reducible apply State.grogReport_within (hl := (parts_trans (by decide) hl))
    | with_reducible apply State.grogHard_within (hl := (parts_trans (by decide) hl))
    | with_reducible apply Within.ite
    | split
    | dsimp only
    | with_reducible intro _

theorem State.grogWinDrift_within {lp : List Part} {root s : State} (h : Within lp root s) (n : Fin 44) (ofs : Int) (pass : Bool)
    (hl : ∀ p ∈ ([.regs 0x470, .regs 0x4d0, .met, .sag, .grg] : List Part), p ∈ lp) : Within lp root (State.grogWinDrift s n ofs
    pass) := by
  unfold State.grogWinDrift
  repeat' first
    | with_reducible assumption
    | with_reducible apply State.grogReport_within (hl := (parts_trans (by decide) hl))
    | dsimp only
    | with_reducible intro _

theorem State.setGx_within {lp : List Part} {root s : State} (h : Within lp root s) (i : Fin 2) (u : GxUse) (hl : ∀ p ∈ ([.gx] :
    List Part), p ∈ lp) : Within lp root (State.setGx s i u) := by
  unfold State.setGx
  repeat' first
    | with_reducible assumption
    | with_reducible apply State.withGx_within (hl := (parts_trans (by decide) hl))
    | dsimp only
    | with_reducible intro _

theorem State.diagBegin_within {lp : List Part} {root s : State} (h : Within lp root s) (core ain : Nat) (hl : ∀ p ∈ ([.regs 0x4d0,
    .gx, .grg] : List Part), p ∈ lp) : Within lp root (State.diagBegin s core ain) := by
  unfold State.diagBegin
  repeat' first
    | with_reducible assumption
    | with_reducible apply State.setGx_within (hl := (parts_trans (by decide) hl))
    | ((with_reducible apply State.put_within 0x4d0 (hb := (hl _ (by decide)))) <;> first | (rfl; done) | (dsimp only; omega) | (dsimp only [Fld.whole]; omega) | (split <;> first | (rfl; done) | (dsimp only; omega)) | show Within _ _ _)
    | with_reducible apply State.withGrg_within (hl := (parts_trans (by decide) hl))
    | split
    | dsimp only
    | with_reducible intro _

theorem State.diagWanted_within {lp : List Part} {root s : State} (h : Within lp root s) (core ain : Nat) (hl : ∀ p ∈ ([.regs 0x4d0,
    .gx, .grg] : List Part), p ∈ lp) : Within lp root (State.diagWanted s core ain) := by
  unfold State.diagWanted
  repeat' first
    | with_reducible assumption
    | with_reducible apply State.diagBegin_within (hl := (parts_trans (by decide) hl))
    | with_reducible apply State.withGrg_within (hl := (parts_trans (by decide) hl))
    | with_reducible apply Within.ite
    | split
    | dsimp only
    | with_reducible intro _

theorem State.diagNext_within {lp : List Part} {root s : State} (h : Within lp root s) (hl : ∀ p ∈ ([.regs 0x4d0, .gx, .grg] : List
    Part), p ∈ lp) : Within lp root (State.diagNext s) := by
  unfold State.diagNext
  repeat' first
    | with_reducible assumption
    | with_reducible apply State.diagBegin_within (hl := (parts_trans (by decide) hl))
    | with_reducible apply State.withGrg_within (hl := (parts_trans (by decide) hl))
    | split
    | dsimp only
    | with_reducible intro _

theorem State.grogFlag_within {lp : List Part} {root s : State} (h : Within lp root s) (core ain : Nat) (hl : ∀ p ∈ ([.regs 0x4d0,
    .gx, .grg] : List Part), p ∈ lp) : Within lp root (State.grogFlag s core ain) := by
  unfold State.grogFlag
  repeat' first
    | with_reducible assumption
    | with_reducible apply State.diagWanted_within (hl := (parts_trans (by decide) hl))
    | with_reducible refine Within.when ?_ fun _ _ => ?_
    | dsimp only
    | with_reducible intro _

theorem State.grogRefuse_within {lp : List Part} {root s : State} (h : Within lp root s) (hl : ∀ p ∈ ([.regs 0x4d0] : List Part), p
    ∈ lp) : Within lp root (State.grogRefuse s) := by
  unfold State.grogRefuse
  repeat' first
    | with_reducible assumption
    | ((with_reducible apply State.inc_within (bf := 0x4d0) (mf := (hl _ (by decide)))) <;> first | (rfl; done) | (dsimp only; omega) | (dsimp only [Fld.whole]; omega) | (split <;> first | (rfl; done) | (dsimp only; omega)) | show Within _ _ _)
    | ((with_reducible apply State.put_within 0x4d0 (hb := (hl _ (by decide)))) <;> first | (rfl; done) | (dsimp only; omega) | (dsimp only [Fld.whole]; omega) | (split <;> first | (rfl; done) | (dsimp only; omega)) | show Within _ _ _)
    | dsimp only
    | with_reducible intro _

theorem State.grogCmd_within {lp : List Part} {root s : State} (h : Within lp root s) (op kind inst sub : Nat) (hl : ∀ p ∈ ([.regs
    0x4d0] : List Part), p ∈ lp) : Within lp root (State.grogCmd s op kind inst sub) := by
  unfold State.grogCmd
  repeat' first
    | with_reducible assumption
    | ((with_reducible apply State.put_within 0x4d0 (hb := (hl _ (by decide)))) <;> first | (rfl; done) | (dsimp only; omega) | (dsimp only [Fld.whole]; omega) | (split <;> first | (rfl; done) | (dsimp only; omega)) | show Within _ _ _)
    | dsimp only
    | with_reducible intro _

theorem State.grogRuns_within {lp : List Part} {root s : State} (h : Within lp root s) (op : Nat) (hl : ∀ p ∈ ([.regs 0x4d0, .grg] :
    List Part), p ∈ lp) : Within lp root (State.grogRuns s op) := by
  unfold State.grogRuns
  repeat' first
    | with_reducible assumption
    | ((with_reducible apply State.put_within 0x4d0 (hb := (hl _ (by decide)))) <;> first | (rfl; done) | (dsimp only; omega) | (dsimp only [Fld.whole]; omega) | (split <;> first | (rfl; done) | (dsimp only; omega)) | show Within _ _ _)
    | with_reducible apply State.withGrg_within (hl := (parts_trans (by decide) hl))
    | dsimp only
    | with_reducible intro _

theorem State.grogEnds_within {lp : List Part} {root s : State} (h : Within lp root s) (hl : ∀ p ∈ ([.regs 0x4d0, .grg] : List
    Part), p ∈ lp) : Within lp root (State.grogEnds s) := by
  unfold State.grogEnds
  repeat' first
    | with_reducible assumption
    | ((with_reducible apply State.put_within 0x4d0 (hb := (hl _ (by decide)))) <;> first | (rfl; done) | (dsimp only; omega) | (dsimp only [Fld.whole]; omega) | (split <;> first | (rfl; done) | (dsimp only; omega)) | show Within _ _ _)
    | with_reducible apply State.withGrg_within (hl := (parts_trans (by decide) hl))
    | dsimp only
    | with_reducible intro _

theorem commitOp_within {lp : List Part} {root s : State} (h : Within lp root s) (p : Fin 8) (hl : ∀ p ∈ ([.regs 0x4d0, .grg] : List
    Part), p ∈ lp) : Within lp root (commitOp p s) := by
  unfold commitOp
  repeat' first
    | with_reducible assumption
    | with_reducible apply State.grogRuns_within (hl := (parts_trans (by decide) hl))
    | with_reducible apply State.grogCmd_within (hl := (parts_trans (by decide) hl))
    | with_reducible apply State.grogRefuse_within (hl := (parts_trans (by decide) hl))
    | with_reducible apply State.mapRequest_within (hl := (parts_trans (by decide) hl))
    | ((with_reducible apply State.put_within 0x4d0 (hb := (hl _ (by decide)))) <;> first | (rfl; done) | (dsimp only; omega) | (dsimp only [Fld.whole]; omega) | (split <;> first | (rfl; done) | (dsimp only; omega)) | show Within _ _ _)
    | with_reducible apply State.withGrg_within (hl := (parts_trans (by decide) hl))
    | with_reducible apply Within.ite
    | split
    | dsimp only
    | with_reducible intro _

theorem execCommit_within {s out : State} (p : Fin 8) (e : execCommit p s = .next out) : Within [.regs 0x4d0, .held, .resp, .grg] s
    out := by
  cases e
  repeat' first
    | with_reducible exact Within.refl _ _
    | with_reducible assumption
    | with_reducible apply commitOp_within (hl := (by decide))
    | with_reducible apply State.access_within (hl := (by decide))
    | dsimp only
    | with_reducible intro _

theorem dismissOp_within {lp : List Part} {root s : State} (h : Within lp root s) (p : Fin 8) (hl : ∀ p ∈ ([.regs 0x4d0, .grg] :
    List Part), p ∈ lp) : Within lp root (dismissOp p s) := by
  unfold dismissOp
  repeat' first
    | with_reducible assumption
    | with_reducible apply State.grogCmd_within (hl := (parts_trans (by decide) hl))
    | with_reducible apply State.grogRefuse_within (hl := (parts_trans (by decide) hl))
    | ((with_reducible apply State.put_within 0x4d0 (hb := (hl _ (by decide)))) <;> first | (rfl; done) | (dsimp only; omega) | (dsimp only [Fld.whole]; omega) | (split <;> first | (rfl; done) | (dsimp only; omega)) | show Within _ _ _)
    | with_reducible apply State.withGrg_within (hl := (parts_trans (by decide) hl))
    | with_reducible apply Within.ite
    | split
    | dsimp only
    | with_reducible intro _

theorem execDismiss_within {s out : State} (p : Fin 8) (e : execDismiss p s = .next out) : Within [.regs 0x4d0, .held, .resp, .grg]
    s out := by
  cases e
  repeat' first
    | with_reducible exact Within.refl _ _
    | with_reducible assumption
    | with_reducible apply dismissOp_within (hl := (by decide))
    | with_reducible apply State.access_within (hl := (by decide))
    | dsimp only
    | with_reducible intro _

theorem retireOp_within {lp : List Part} {root s : State} (h : Within lp root s) (kind : Fin 16) (inst sub : BitVec 8) (hl : ∀ p ∈
    ([.regs 0x4d0, .grg] : List Part), p ∈ lp) : Within lp root (retireOp kind inst sub s) := by
  unfold retireOp
  repeat' first
    | with_reducible assumption
    | with_reducible apply State.grogRuns_within (hl := (parts_trans (by decide) hl))
    | with_reducible apply State.grogCmd_within (hl := (parts_trans (by decide) hl))
    | with_reducible apply State.grogRefuse_within (hl := (parts_trans (by decide) hl))
    | with_reducible apply State.mapRequest_within (hl := (parts_trans (by decide) hl))
    | with_reducible apply Within.ite
    | split
    | dsimp only
    | with_reducible intro _

theorem execRetire_within {s out : State} (kind : Fin 16) (inst sub : BitVec 8) (e : execRetire kind inst sub s = .next out) :
    Within [.regs 0x4d0, .held, .resp, .grg] s out := by
  cases e
  repeat' first
    | with_reducible exact Within.refl _ _
    | with_reducible assumption
    | with_reducible apply retireOp_within (hl := (by decide))
    | with_reducible apply State.access_within (hl := (by decide))
    | dsimp only
    | with_reducible intro _

theorem diagnoseOp_within {lp : List Part} {root s : State} (h : Within lp root s) (n : Fin 16) (hl : ∀ p ∈ ([.regs 0x4d0, .gx,
    .grg] : List Part), p ∈ lp) : Within lp root (diagnoseOp n s) := by
  unfold diagnoseOp
  repeat' first
    | with_reducible assumption
    | with_reducible apply State.grogRuns_within (hl := (parts_trans (by decide) hl))
    | with_reducible apply State.grogCmd_within (hl := (parts_trans (by decide) hl))
    | with_reducible apply State.grogRefuse_within (hl := (parts_trans (by decide) hl))
    | with_reducible apply State.diagWanted_within (hl := (parts_trans (by decide) hl))
    | ((with_reducible apply State.put_within 0x4d0 (hb := (hl _ (by decide)))) <;> first | (rfl; done) | (dsimp only; omega) | (dsimp only [Fld.whole]; omega) | (split <;> first | (rfl; done) | (dsimp only; omega)) | show Within _ _ _)
    | with_reducible apply Within.ite
    | split
    | dsimp only
    | with_reducible intro _

theorem execDiagnose_within {s out : State} (n : Fin 16) (e : execDiagnose n s = .next out) : Within [.regs 0x4d0, .held, .resp,
    .gx, .grg] s out := by
  cases e
  repeat' first
    | with_reducible exact Within.refl _ _
    | with_reducible assumption
    | with_reducible apply diagnoseOp_within (hl := (by decide))
    | with_reducible apply State.access_within (hl := (by decide))
    | dsimp only
    | with_reducible intro _

theorem State.mapEffect_within {lp : List Part} {root s : State} (h : Within lp root s) (e : MapEntry) (hl : ∀ p ∈ ([.adcs] : List
    Part), p ∈ lp) : Within lp root (State.mapEffect s e) := by
  unfold State.mapEffect
  repeat' first
    | with_reducible assumption
    | with_reducible apply State.onAdc_within (hl := (parts_trans (by decide) hl))
    | with_reducible apply Within.ite
    | split
    | dsimp only
    | with_reducible intro _

theorem State.sparesLow_within {lp : List Part} {root s : State} (h : Within lp root s) (kind : Nat) (hl : ∀ p ∈ ([.regs 0x470,
    .regs 0x4d0, .met, .sag] : List Part), p ∈ lp) : Within lp root (State.sparesLow s kind) := by
  unfold State.sparesLow
  repeat' first
    | with_reducible assumption
    | with_reducible apply State.journal_within (hl := (parts_trans (by decide) hl))
    | ((with_reducible apply State.put_within 0x4d0 (hb := (hl _ (by decide)))) <;> first | (rfl; done) | (dsimp only; omega) | (dsimp only [Fld.whole]; omega) | (split <;> first | (rfl; done) | (dsimp only; omega)) | show Within _ _ _)
    | with_reducible apply Within.ite
    | split
    | dsimp only
    | with_reducible intro _

theorem execMapAdd_within {s out : State} (e : execMapAdd s = .next out) : Within [.regs 0x470, .regs 0x4d0, .adcs, .met, .sag,
    .grg] s out := by
  cases e
  repeat' first
    | with_reducible exact Within.refl _ _
    | with_reducible assumption
    | with_reducible apply State.sparesLow_within (hl := (by decide))
    | with_reducible apply State.mapEffect_within (hl := (by decide))
    | with_reducible apply State.grogEnds_within (hl := (by decide))
    | with_reducible apply State.journal_within (hl := (by decide))
    | ((with_reducible apply State.put_within 0x4d0 (hb := (by decide))) <;> first | (rfl; done) | (dsimp only; omega) | (dsimp only [Fld.whole]; omega) | (split <;> first | (rfl; done) | (dsimp only; omega)) | show Within _ _ _)
    | with_reducible apply State.withGrg_within (hl := (by decide))
    | with_reducible refine Within.when ?_ fun _ _ => ?_
    | split
    | dsimp only
    | with_reducible intro _

theorem execDiagTwinPlace_within {s out : State} (e : execDiagTwinPlace s = .next out) : Within [.regs 0x4d0, .grg] s out := by
  cases e
  repeat' first
    | with_reducible exact Within.refl _ _
    | with_reducible assumption
    | with_reducible apply State.grogEnds_within (hl := (by decide))
    | with_reducible apply State.withGrg_within (hl := (by decide))
    | with_reducible refine Within.when ?_ fun _ _ => ?_
    | with_reducible apply Within.ite
    | split
    | dsimp only
    | with_reducible intro _

theorem State.releaseTwin_within {lp : List Part} {root s : State} (h : Within lp root s) (d : Diagnosis) (hl : ∀ p ∈ ([.gx] : List
    Part), p ∈ lp) : Within lp root (State.releaseTwin s d) := by
  unfold State.releaseTwin
  repeat' first
    | with_reducible assumption
    | with_reducible apply State.setGx_within (hl := (parts_trans (by decide) hl))
    | with_reducible refine Within.when ?_ fun _ _ => ?_
    | split
    | dsimp only
    | with_reducible intro _

theorem State.coreVerdict_within {lp : List Part} {root s : State} (h : Within lp root s) (ph : Nat) (hl : ∀ p ∈ ([.regs 0x470,
    .regs 0x4d0, .met, .sag, .grg] : List Part), p ∈ lp) : Within lp root (State.coreVerdict s ph) := by
  unfold State.coreVerdict
  repeat' first
    | with_reducible assumption
    | with_reducible apply State.mapRequest_within (hl := (parts_trans (by decide) hl))
    | with_reducible apply State.propose_within (hl := (parts_trans (by decide) hl))
    | with_reducible apply State.withGrg_within (hl := (parts_trans (by decide) hl))
    | with_reducible apply Within.ite
    | split
    | dsimp only
    | with_reducible intro _

theorem execDiagVerdict_within {s out : State} (mean : Nat) (burst : Bool) (e : execDiagVerdict mean burst s = .next out) : Within
    [.regs 0x470, .regs 0x4d0, .gx, .met, .sag, .grg] s out := by
  cases e
  repeat' first
    | with_reducible exact Within.refl _ _
    | with_reducible assumption
    | with_reducible apply State.coreVerdict_within (hl := (by decide))
    | with_reducible apply State.releaseTwin_within (hl := (by decide))
    | with_reducible apply State.diagNext_within (hl := (by decide))
    | with_reducible apply State.journal_within (hl := (by decide))
    | ((with_reducible apply State.put_within 0x4d0 (hb := (by decide))) <;> first | (rfl; done) | (dsimp only; omega) | (dsimp only [Fld.whole]; omega) | (split <;> first | (rfl; done) | (dsimp only; omega)) | show Within _ _ _)
    | with_reducible apply State.withGrg_within (hl := (by decide))
    | with_reducible refine Within.when ?_ fun _ _ => ?_
    | with_reducible apply Within.ite
    | split
    | dsimp only
    | with_reducible intro _

theorem execDiagRetry_within {s out : State} (e : execDiagRetry s = .next out) : Within [.regs 0x4d0, .gx, .grg] s out := by
  cases e
  repeat' first
    | with_reducible exact Within.refl _ _
    | with_reducible assumption
    | with_reducible apply State.diagBegin_within (hl := (by decide))
    | with_reducible apply Within.ite
    | split
    | dsimp only
    | with_reducible intro _

theorem execWearMonitorSample_within {s out : State} (m : Fin 7) (kind : Fin 10) (inst sub : BitVec 8) (v : Word) (e :
    execWearMonitorSample m kind inst sub v s = .next out) : Within [.regs 0x470, .regs 0x4d0, .met, .sag, .grg] s out := by
  cases e
  repeat' first
    | with_reducible exact Within.refl _ _
    | with_reducible assumption
    | with_reducible apply State.grogEye_within (hl := (by decide))
    | with_reducible apply State.grogReport_within (hl := (by decide))
    | with_reducible apply State.grogWarn_within (hl := (by decide))
    | with_reducible apply Within.ite
    | split
    | dsimp only
    | with_reducible intro _

theorem State.wearRecord_within {lp : List Part} {root s : State} (h : Within lp root s) (hl : ∀ p ∈ ([.regs 0x470, .met, .sag,
    .grg] : List Part), p ∈ lp) : Within lp root (State.wearRecord s) := by
  unfold State.wearRecord
  repeat' first
    | with_reducible assumption
    | with_reducible apply State.journalC_within (hl := (parts_trans (by decide) hl))
    | with_reducible apply State.withGrg_within (hl := (parts_trans (by decide) hl))
    | split
    | dsimp only
    | with_reducible intro _

theorem execWearSample_within {s out : State} (e : execWearSample s = .next out) : Within [.regs 0x470, .met, .sag, .grg] s out :=
    by
  cases e
  repeat' first
    | with_reducible exact Within.refl _ _
    | with_reducible assumption
    | with_reducible apply State.wearRecord_within (hl := (by decide))
    | dsimp only
    | with_reducible intro _

theorem execSramError_within {s out : State} (col : Bool) (bank : Fin 32) (i : BitVec 8) (hard : Bool) (e : execSramError col bank i
    hard s = .next out) : Within [.regs 0x470, .regs 0x4d0, .met, .sag, .grg] s out := by
  cases e
  repeat' first
    | with_reducible exact Within.refl _ _
    | with_reducible assumption
    | with_reducible apply State.grogErr_within (hl := (by decide))
    | with_reducible apply State.grogHard_within (hl := (by decide))
    | with_reducible apply Within.ite
    | split
    | dsimp only
    | with_reducible intro _

end Sys2Proof.Machine
end

