-- ==== Sys2Proof/Laws/WithinAdc.lean ====
section
/-!
SUPPORT. The parts of the state that each operation of Machine/Adc.lean may change.
-/

namespace Sys2Proof.Machine

open Sys2Proof

set_option linter.all false

theorem State.adcBegin_within {lp : List Part} {root s : State} (h : Within lp root s) (n : Fin 18) (now : Nat) (v : Conv) (hl : ∀ p
    ∈ ([.regs 0x460, .adcs] : List Part), p ∈ lp) : Within lp root (State.adcBegin s n now v) := by
  unfold State.adcBegin
  repeat' first
    | with_reducible assumption
    | with_reducible apply State.onAdc_within (hl := (parts_trans (by decide) hl))
    | ((with_reducible apply State.put_within 0x460 (hb := (hl _ (by decide)))) <;> first | (rfl; done) | (dsimp only; omega) | (dsimp only [Fld.whole]; omega) | (split <;> first | (rfl; done) | (dsimp only; omega)) | show Within _ _ _)
    | with_reducible apply Within.ite
    | split
    | dsimp only
    | with_reducible intro _

theorem State.startBit_within {lp : List Part} {root s : State} (h : Within lp root s) (n : Fin 16) (now : Nat) (hl : ∀ p ∈ ([.regs
    0x460, .adcs] : List Part), p ∈ lp) : Within lp root (State.startBit s n now).1 := by
  unfold State.startBit
  try dsimp only
  repeat' first
    | with_reducible assumption
    | split
    | with_reducible apply State.adcBegin_within (hl := (parts_trans (by decide) hl))
    | ((with_reducible apply State.inc_within (bf := 0x460) (mf := (hl _ (by decide)))) <;> first | (rfl; done) | (dsimp only; omega) | (dsimp only [Fld.whole]; omega) | (split <;> first | (rfl; done) | (dsimp only; omega)) | show Within _ _ _)
    | ((with_reducible apply State.put_within 0x460 (hb := (hl _ (by decide)))) <;> first | (rfl; done) | (dsimp only; omega) | (dsimp only [Fld.whole]; omega) | (split <;> first | (rfl; done) | (dsimp only; omega)) | show Within _ _ _)
    | with_reducible refine Within.when ?_ fun _ _ => ?_
    | with_reducible apply Within.ite
    | dsimp only
    | with_reducible intro _

theorem State.urgDrop_within {lp : List Part} {root s : State} (h : Within lp root s) (n : Fin 18) (hl : ∀ p ∈ ([.regs 0x460] : List
    Part), p ∈ lp) : Within lp root (State.urgDrop s n) := by
  unfold State.urgDrop
  repeat' first
    | with_reducible assumption
    | ((with_reducible apply State.inc_within (bf := 0x460) (mf := (hl _ (by decide)))) <;> first | (rfl; done) | (dsimp only; omega) | (dsimp only [Fld.whole]; omega) | (split <;> first | (rfl; done) | (dsimp only; omega)) | show Within _ _ _)
    | ((with_reducible apply State.put_within 0x460 (hb := (hl _ (by decide)))) <;> first | (rfl; done) | (dsimp only; omega) | (dsimp only [Fld.whole]; omega) | (split <;> first | (rfl; done) | (dsimp only; omega)) | show Within _ _ _)
    | dsimp only
    | with_reducible intro _

theorem State.adcNext_within {lp : List Part} {root s : State} (h : Within lp root s) (n : Fin 18) (hl : ∀ p ∈ ([.regs 0x460, .adcs]
    : List Part), p ∈ lp) : Within lp root (State.adcNext s n) := by
  unfold State.adcNext
  repeat' first
    | with_reducible assumption
    | with_reducible apply State.adcBegin_within (hl := (parts_trans (by decide) hl))
    | with_reducible apply State.onAdc_within (hl := (parts_trans (by decide) hl))
    | ((with_reducible apply State.put_within 0x460 (hb := (hl _ (by decide)))) <;> first | (rfl; done) | (dsimp only; omega) | (dsimp only [Fld.whole]; omega) | (split <;> first | (rfl; done) | (dsimp only; omega)) | show Within _ _ _)
    | with_reducible apply Within.ite
    | split
    | dsimp only
    | with_reducible intro _

theorem State.urgent_within {lp : List Part} {root s : State} (h : Within lp root s) (n : Fin 18) (gap : Bool) (hl : ∀ p ∈ ([.regs
    0x460, .adcs] : List Part), p ∈ lp) : Within lp root (State.urgent s n gap) := by
  unfold State.urgent
  repeat' first
    | with_reducible assumption
    | with_reducible apply State.urgDrop_within (hl := (parts_trans (by decide) hl))
    | with_reducible apply State.adcBegin_within (hl := (parts_trans (by decide) hl))
    | ((with_reducible apply State.put_within 0x460 (hb := (hl _ (by decide)))) <;> first | (rfl; done) | (dsimp only; omega) | (dsimp only [Fld.whole]; omega) | (split <;> first | (rfl; done) | (dsimp only; omega)) | show Within _ _ _)
    | with_reducible refine Within.when ?_ fun _ _ => ?_
    | with_reducible apply Within.ite
    | split
    | dsimp only
    | with_reducible intro _

theorem adcStartOp_within {lp : List Part} {root s : State} (h : Within lp root s) (n : Fin 18) (gap : Bool) (hl : ∀ p ∈ ([.regs
    0x460, .adcs] : List Part), p ∈ lp) : Within lp root (adcStartOp n gap s) := by
  unfold adcStartOp
  repeat' first
    | with_reducible assumption
    | with_reducible apply State.urgent_within (hl := (parts_trans (by decide) hl))
    | dsimp only
    | with_reducible intro _

theorem execAdcStart_within {s out : State} (n : Fin 18) (gap : Bool) (e : execAdcStart n gap s = .next out) : Within [.regs 0x460,
    .held, .resp, .adcs] s out := by
  cases e
  repeat' first
    | with_reducible exact Within.refl _ _
    | with_reducible assumption
    | with_reducible apply adcStartOp_within (hl := (by decide))
    | with_reducible apply State.access_within (hl := (by decide))
    | dsimp only
    | with_reducible intro _

theorem State.adcUrgentFrom_within {lp : List Part} {root s : State} (h : Within lp root s) (n : Fin 44) (idle : BitVec 16) (hl : ∀
    p ∈ ([.regs 0x460, .adcs] : List Part), p ∈ lp) : Within lp root (State.adcUrgentFrom s n idle) := by
  unfold State.adcUrgentFrom
  repeat' first
    | with_reducible assumption
    | with_reducible apply State.urgent_within (hl := (parts_trans (by decide) hl))
    | with_reducible refine Within.each ?_ fun _ _ _ => ?_
    | with_reducible refine Within.when ?_ fun _ _ => ?_
    | with_reducible apply Within.ite
    | split
    | dsimp only
    | with_reducible intro _

theorem State.adcResult_within {lp : List Part} {root s : State} (h : Within lp root s) (n : Fin 16) (e : Nat) (urgent : Bool) (raw
    : Nat) (ovf : Bool) (hl : ∀ p ∈ ([.regs 0x460, .slots] : List Part), p ∈ lp) : Within lp root (State.adcResult s n e urgent raw
    ovf) := by
  unfold State.adcResult
  repeat' first
    | with_reducible assumption
    | with_reducible refine State.publish_within ?_ _ _ (parts_trans (by decide) hl)
    | ((with_reducible apply State.inc_within (bf := 0x460) (mf := (hl _ (by decide)))) <;> first | (rfl; done) | (dsimp only; omega) | (dsimp only [Fld.whole]; omega) | (split <;> first | (rfl; done) | (dsimp only; omega)) | show Within _ _ _)
    | ((with_reducible apply State.put_within 0x460 (hb := (hl _ (by decide)))) <;> first | (rfl; done) | (dsimp only; omega) | (dsimp only [Fld.whole]; omega) | (split <;> first | (rfl; done) | (dsimp only; omega)) | show Within _ _ _)
    | with_reducible refine Within.when ?_ fun _ _ => ?_
    | with_reducible apply Within.ite
    | split
    | dsimp only
    | with_reducible intro _

theorem State.startArrived_within {lp : List Part} {root s : State} (h : Within lp root s) (n : Fin 16) (cyc : Nat) (hl : ∀ p ∈
    ([.groups] : List Part), p ∈ lp) : Within lp root (State.startArrived s n cyc) := by
  unfold State.startArrived
  repeat' first
    | with_reducible assumption
    | with_reducible apply State.onGroup_within (hl := (parts_trans (by decide) hl))
    | with_reducible apply Within.ite
    | split
    | dsimp only
    | with_reducible intro _

theorem execConversionDone_within {s out : State} (n : Fin 16) (raw : BitVec 16) (ovf : Bool) (e : execConversionDone n raw ovf s =
    .next out) : Within [.regs 0x460, .slots, .groups, .adcs] s out := by
  cases e
  repeat' first
    | with_reducible exact Within.refl _ _
    | with_reducible assumption
    | with_reducible apply State.startArrived_within (hl := (by decide))
    | with_reducible apply State.adcResult_within (hl := (by decide))
    | with_reducible apply State.adcNext_within (hl := (by decide))
    | with_reducible apply State.onAdc_within (hl := (by decide))
    | with_reducible refine Within.when ?_ fun _ _ => ?_
    | with_reducible apply Within.ite
    | split
    | dsimp only
    | with_reducible intro _

theorem execAdcWatchdog_within {s out : State} (n : Fin 16) (e : execAdcWatchdog n s = .next out) : Within [.regs 0x460, .adcs] s
    out := by
  cases e
  repeat' first
    | with_reducible exact Within.refl _ _
    | with_reducible assumption
    | with_reducible apply State.adcNext_within (hl := (by decide))
    | with_reducible apply State.onAdc_within (hl := (by decide))
    | ((with_reducible apply State.inc_within (bf := 0x460) (mf := (by decide))) <;> first | (rfl; done) | (dsimp only; omega) | (dsimp only [Fld.whole]; omega) | (split <;> first | (rfl; done) | (dsimp only; omega)) | show Within _ _ _)
    | ((with_reducible apply State.put_within 0x460 (hb := (by decide))) <;> first | (rfl; done) | (dsimp only; omega) | (dsimp only [Fld.whole]; omega) | (split <;> first | (rfl; done) | (dsimp only; omega)) | show Within _ _ _)
    | with_reducible apply Within.ite
    | split
    | dsimp only
    | with_reducible intro _

theorem State.calRefuse_within {lp : List Part} {root s : State} (h : Within lp root s) (n : Fin 18) (hl : ∀ p ∈ ([.regs 0x460] :
    List Part), p ∈ lp) : Within lp root (State.calRefuse s n) := by
  unfold State.calRefuse
  repeat' first
    | with_reducible assumption
    | ((with_reducible apply State.put_within 0x460 (hb := (hl _ (by decide)))) <;> first | (rfl; done) | (dsimp only; omega) | (dsimp only [Fld.whole]; omega) | (split <;> first | (rfl; done) | (dsimp only; omega)) | show Within _ _ _)
    | dsimp only
    | with_reducible intro _

theorem State.calRun_within {lp : List Part} {root s : State} (h : Within lp root s) (n : Fin 18) (hl : ∀ p ∈ ([.regs 0x460, .adcs]
    : List Part), p ∈ lp) : Within lp root (State.calRun s n) := by
  unfold State.calRun
  repeat' first
    | with_reducible assumption
    | with_reducible apply State.onAdc_within (hl := (parts_trans (by decide) hl))
    | ((with_reducible apply State.put_within 0x460 (hb := (hl _ (by decide)))) <;> first | (rfl; done) | (dsimp only; omega) | (dsimp only [Fld.whole]; omega) | (split <;> first | (rfl; done) | (dsimp only; omega)) | show Within _ _ _)
    | with_reducible apply Within.ite
    | split
    | dsimp only
    | with_reducible intro _

theorem calOp_within {lp : List Part} {root s : State} (h : Within lp root s) (n : Fin 18) (hl : ∀ p ∈ ([.regs 0x460, .adcs, .gx] :
    List Part), p ∈ lp) : Within lp root (calOp n s) := by
  unfold calOp
  repeat' first
    | with_reducible assumption
    | with_reducible apply State.calRun_within (hl := (parts_trans (by decide) hl))
    | with_reducible apply State.calRefuse_within (hl := (parts_trans (by decide) hl))
    | with_reducible apply State.setGx_within (hl := (parts_trans (by decide) hl))
    | with_reducible apply State.onAdc_within (hl := (parts_trans (by decide) hl))
    | ((with_reducible apply State.put_within 0x460 (hb := (hl _ (by decide)))) <;> first | (rfl; done) | (dsimp only; omega) | (dsimp only [Fld.whole]; omega) | (split <;> first | (rfl; done) | (dsimp only; omega)) | show Within _ _ _)
    | with_reducible apply Within.ite
    | split
    | dsimp only
    | with_reducible intro _

theorem execCal_within {s out : State} (n : Fin 18) (e : execCal n s = .next out) : Within [.regs 0x460, .held, .resp, .adcs, .gx] s
    out := by
  cases e
  repeat' first
    | with_reducible exact Within.refl _ _
    | with_reducible assumption
    | with_reducible apply calOp_within (hl := (by decide))
    | with_reducible apply State.access_within (hl := (by decide))
    | dsimp only
    | with_reducible intro _

theorem State.carry_within {lp : List Part} {root s : State} (h : Within lp root s) (n : Fin 16) (carrier : Fin 4) (free : Bool) (hl
    : ∀ p ∈ ([.regs 0x460, .gx] : List Part), p ∈ lp) : Within lp root (State.carry s n carrier free) := by
  unfold State.carry
  repeat' first
    | with_reducible assumption
    | with_reducible apply State.setGx_within (hl := (parts_trans (by decide) hl))
    | ((with_reducible apply State.put_within 0x460 (hb := (hl _ (by decide)))) <;> first | (rfl; done) | (dsimp only; omega) | (dsimp only [Fld.whole]; omega) | (split <;> first | (rfl; done) | (dsimp only; omega)) | show Within _ _ _)
    | with_reducible refine Within.when ?_ fun _ _ => ?_
    | with_reducible apply Within.ite
    | split
    | dsimp only
    | with_reducible intro _

theorem execCalTakeover_within {s out : State} (n : Fin 16) (e : execCalTakeover n s = .next out) : Within [.regs 0x460, .adcs, .gx]
    s out := by
  cases e
  repeat' first
    | with_reducible exact Within.refl _ _
    | with_reducible assumption
    | with_reducible apply State.carry_within (hl := (by decide))
    | with_reducible apply State.setGx_within (hl := (by decide))
    | with_reducible apply State.onAdc_within (hl := (by decide))
    | with_reducible refine Within.when ?_ fun _ _ => ?_
    | with_reducible apply Within.ite
    | split
    | dsimp only
    | with_reducible intro _

theorem State.putFactors_within {lp : List Part} {root s : State} (h : Within lp root s) (ph : Fin 18) (f : CalFactors) (hl : ∀ p ∈
    ([.regs 0x460] : List Part), p ∈ lp) : Within lp root (State.putFactors s ph f) := by
  unfold State.putFactors
  repeat' first
    | with_reducible assumption
    | ((with_reducible apply State.putI_within (bf := 0x460) (mf := (hl _ (by decide)))) <;> first | (rfl; done) | (dsimp only; omega) | (dsimp only [Fld.whole]; omega) | (split <;> first | (rfl; done) | (dsimp only; omega)) | show Within _ _ _)
    | with_reducible refine Within.each ?_ fun _ _ _ => ?_
    | with_reducible apply Within.ite
    | split
    | dsimp only
    | with_reducible intro _

theorem State.grogAdc_within {lp : List Part} {root s : State} (h : Within lp root s) (ph : Fin 18) (f : CalFactors) (fail : Bool)
    (hl : ∀ p ∈ ([.regs 0x470, .regs 0x4d0, .met, .sag, .grg] : List Part), p ∈ lp) : Within lp root (State.grogAdc s ph f fail) :=
    by
  unfold State.grogAdc
  repeat' first
    | with_reducible assumption
    | with_reducible apply State.grogReport_within (hl := (parts_trans (by decide) hl))
    | dsimp only
    | with_reducible intro _

theorem execCalComplete_within {s out : State} (n : Fin 18) (f : CalFactors) (e : execCalComplete n f s = .next out) : Within [.regs
    0x460, .regs 0x470, .regs 0x4d0, .adcs, .met, .sag, .grg] s out := by
  cases e
  repeat' first
    | with_reducible exact Within.refl _ _
    | with_reducible assumption
    | with_reducible apply State.grogAdc_within (hl := (by decide))
    | with_reducible apply State.putFactors_within (hl := (by decide))
    | with_reducible apply State.adcNext_within (hl := (by decide))
    | with_reducible apply State.onAdc_within (hl := (by decide))
    | ((with_reducible apply State.put_within 0x460 (hb := (by decide))) <;> first | (rfl; done) | (dsimp only; omega) | (dsimp only [Fld.whole]; omega) | (split <;> first | (rfl; done) | (dsimp only; omega)) | show Within _ _ _)
    | with_reducible refine Within.when ?_ fun _ _ => ?_
    | with_reducible apply Within.ite
    | split
    | dsimp only
    | with_reducible intro _

theorem execCalReturn_within {s out : State} (n : Fin 16) (e : execCalReturn n s = .next out) : Within [.regs 0x460, .adcs, .gx] s
    out := by
  cases e
  repeat' first
    | with_reducible exact Within.refl _ _
    | with_reducible assumption
    | with_reducible apply State.carry_within (hl := (by decide))
    | with_reducible apply State.setGx_within (hl := (by decide))
    | with_reducible apply State.onAdc_within (hl := (by decide))
    | ((with_reducible apply State.put_within 0x460 (hb := (by decide))) <;> first | (rfl; done) | (dsimp only; omega) | (dsimp only [Fld.whole]; omega) | (split <;> first | (rfl; done) | (dsimp only; omega)) | show Within _ _ _)
    | with_reducible apply Within.ite
    | split
    | dsimp only
    | with_reducible intro _

theorem calAllOp_within {lp : List Part} {root s : State} (h : Within lp root s) (hl : ∀ p ∈ ([.regs 0x460, .adcs] : List Part), p ∈
    lp) : Within lp root (calAllOp s) := by
  unfold calAllOp
  repeat' first
    | with_reducible assumption
    | with_reducible apply State.calRun_within (hl := (parts_trans (by decide) hl))
    | ((with_reducible apply State.put_within 0x460 (hb := (hl _ (by decide)))) <;> first | (rfl; done) | (dsimp only; omega) | (dsimp only [Fld.whole]; omega) | (split <;> first | (rfl; done) | (dsimp only; omega)) | show Within _ _ _)
    | with_reducible refine Within.each ?_ fun _ _ _ => ?_
    | with_reducible apply Within.ite
    | split
    | dsimp only
    | with_reducible intro _

theorem execCalAll_within {s out : State} (e : execCalAll s = .next out) : Within [.regs 0x460, .held, .resp, .adcs] s out := by
  cases e
  repeat' first
    | with_reducible exact Within.refl _ _
    | with_reducible assumption
    | with_reducible apply calAllOp_within (hl := (by decide))
    | with_reducible apply State.access_within (hl := (by decide))
    | dsimp only
    | with_reducible intro _

theorem State.adcSample_within {lp : List Part} {root s : State} (h : Within lp root s) (k : Fin 8) (hl : ∀ p ∈ ([.adcs] : List
    Part), p ∈ lp) : Within lp root (State.adcSample s k) := by
  unfold State.adcSample
  repeat' first
    | with_reducible assumption
    | with_reducible apply State.onAdc_within (hl := (parts_trans (by decide) hl))
    | with_reducible refine Within.each ?_ fun _ _ _ => ?_
    | with_reducible refine Within.when ?_ fun _ _ => ?_
    | dsimp only
    | with_reducible intro _

end Sys2Proof.Machine
end

