-- ==== Sys2Proof/Laws/WithinSetter.lean ====
section
/-!
SUPPORT. The parts of the state that each operation of Machine/Setter.lean may change.
-/

namespace Sys2Proof.Machine

open Sys2Proof

set_option linter.all false

theorem State.setRefuse_within {lp : List Part} {root s : State} (h : Within lp root s) (n : Fin 9) (hl : ∀ p ∈ ([.regs 0x440] :
    List Part), p ∈ lp) : Within lp root (State.setRefuse s n) := by
  unfold State.setRefuse
  repeat' first
    | with_reducible assumption
    | ((with_reducible apply State.inc_within (bf := 0x440) (mf := (hl _ (by decide)))) <;> first | (rfl; done) | (dsimp only; omega) | (dsimp only [Fld.whole]; omega) | (split <;> first | (rfl; done) | (dsimp only; omega)) | show Within _ _ _)
    | ((with_reducible apply State.put_within 0x440 (hb := (hl _ (by decide)))) <;> first | (rfl; done) | (dsimp only; omega) | (dsimp only [Fld.whole]; omega) | (split <;> first | (rfl; done) | (dsimp only; omega)) | show Within _ _ _)
    | dsimp only
    | with_reducible intro _

theorem State.supRefresh_within {lp : List Part} {root s : State} (h : Within lp root s) (n : Fin 9) (hl : ∀ p ∈ ([.regs 0x440] :
    List Part), p ∈ lp) : Within lp root (State.supRefresh s n) := by
  unfold State.supRefresh
  repeat' first
    | with_reducible assumption
    | ((with_reducible apply State.putB_within (bf := 0x440) (mf := (hl _ (by decide)))) <;> first | (rfl; done) | (dsimp only; omega) | (dsimp only [Fld.whole]; omega) | (split <;> first | (rfl; done) | (dsimp only; omega)) | show Within _ _ _)
    | dsimp only
    | with_reducible intro _

theorem execTrimWrite_within {s out : State} (n : Fin 9) (c : Fin 2) (v : Word) (e : execTrimWrite n c v s = .next out) : Within
    [.regs 0x440, .held, .resp] s out := by
  cases e
  repeat' first
    | with_reducible exact Within.refl _ _
    | with_reducible assumption
    | with_reducible apply State.access_within (hl := (by decide))
    | ((with_reducible apply State.put_within 0x440 (hb := (by decide))) <;> first | (rfl; done) | (dsimp only; omega) | (dsimp only [Fld.whole]; omega) | (split <;> first | (rfl; done) | (dsimp only; omega)) | show Within _ _ _)
    | dsimp only
    | with_reducible intro _

theorem execDelayMeasured_within {s out : State} (n : Fin 9) (c : Fin 2) (ton toff : Nat) (e : execDelayMeasured n c ton toff s =
    .next out) : Within [.regs 0x440] s out := by
  cases e
  repeat' first
    | with_reducible exact Within.refl _ _
    | with_reducible assumption
    | ((with_reducible apply State.put_within 0x440 (hb := (by decide))) <;> first | (rfl; done) | (dsimp only; omega) | (dsimp only [Fld.whole]; omega) | (split <;> first | (rfl; done) | (dsimp only; omega)) | show Within _ _ _)
    | dsimp only
    | with_reducible intro _

theorem State.chanSupOk_within {lp : List Part} {root s : State} (h : Within lp root s) (n : Fin 9) (c : Fin 2) (hl : ∀ p ∈ ([.regs
    0x440, .tiles] : List Part), p ∈ lp) : Within lp root (State.chanSupOk s n c) := by
  unfold State.chanSupOk
  repeat' first
    | with_reducible assumption
    | with_reducible apply State.supRefresh_within (hl := (parts_trans (by decide) hl))
    | with_reducible apply State.onChan_within (hl := (parts_trans (by decide) hl))
    | ((with_reducible apply State.put_within 0x440 (hb := (hl _ (by decide)))) <;> first | (rfl; done) | (dsimp only; omega) | (dsimp only [Fld.whole]; omega) | (split <;> first | (rfl; done) | (dsimp only; omega)) | show Within _ _ _)
    | with_reducible refine Within.when ?_ fun _ _ => ?_
    | dsimp only
    | with_reducible intro _

theorem execSupOk_within {s out : State} (n : Fin 9) (c : Fin 2) (e : execSupOk n c s = .next out) : Within [.regs 0x440, .tiles] s
    out := by
  cases e
  repeat' first
    | with_reducible exact Within.refl _ _
    | with_reducible assumption
    | with_reducible apply State.chanSupOk_within (hl := (by decide))
    | with_reducible apply Within.ite
    | split
    | dsimp only
    | with_reducible intro _

theorem State.diagStop_within {lp : List Part} {root s : State} (h : Within lp root s) (n : Fin 9) (hl : ∀ p ∈ ([.regs 0x440,
    .tiles] : List Part), p ∈ lp) : Within lp root (State.diagStop s n) := by
  unfold State.diagStop
  repeat' first
    | with_reducible assumption
    | with_reducible apply State.onTile_within (hl := (parts_trans (by decide) hl))
    | ((with_reducible apply State.put_within 0x440 (hb := (hl _ (by decide)))) <;> first | (rfl; done) | (dsimp only; omega) | (dsimp only [Fld.whole]; omega) | (split <;> first | (rfl; done) | (dsimp only; omega)) | show Within _ _ _)
    | with_reducible apply Within.ite
    | split
    | dsimp only
    | with_reducible intro _

theorem State.chanUv_within {lp : List Part} {root s : State} (h : Within lp root s) (n : Fin 9) (c : Fin 2) (hl : ∀ p ∈ ([.regs
    0x440, .tiles, .con] : List Part), p ∈ lp) : Within lp root (State.chanUv s n c) := by
  unfold State.chanUv
  repeat' first
    | with_reducible assumption
    | with_reducible apply State.supRefresh_within (hl := (parts_trans (by decide) hl))
    | with_reducible apply State.snapFault_within (hl := (parts_trans (by decide) hl))
    | with_reducible apply State.chanOff_within (hl := (parts_trans (by decide) hl))
    | with_reducible apply State.onChan_within (hl := (parts_trans (by decide) hl))
    | ((with_reducible apply State.put_within 0x440 (hb := (hl _ (by decide)))) <;> first | (rfl; done) | (dsimp only; omega) | (dsimp only [Fld.whole]; omega) | (split <;> first | (rfl; done) | (dsimp only; omega)) | show Within _ _ _)
    | with_reducible refine Within.when ?_ fun _ _ => ?_
    | dsimp only
    | with_reducible intro _

theorem execSupplyUv_within {s out : State} (n : Fin 9) (c : Fin 2) (e : execSupplyUv n c s = .next out) : Within [.regs 0x440,
    .regs 0x448, .regs 0x470, .regs 0x4e0, .outbox, .mod, .tiles, .sit, .met, .sag, .con] s out := by
  cases e
  repeat' first
    | with_reducible exact Within.refl _ _
    | with_reducible assumption
    | with_reducible apply State.chanUv_within (hl := (by decide))
    | with_reducible apply State.diagStop_within (hl := (by decide))
    | with_reducible apply State.raiseStop_within (hl := (by decide))
    | with_reducible refine Within.when ?_ fun _ _ => ?_
    | with_reducible apply Within.ite
    | split
    | dsimp only
    | with_reducible intro _

theorem State.armTile_within {lp : List Part} {root s : State} (h : Within lp root s) (n p : Fin 9) (hl : ∀ p ∈ ([.regs 0x440, .mod,
    .tiles] : List Part), p ∈ lp) : Within lp root (State.armTile s n p) := by
  unfold State.armTile
  repeat' first
    | with_reducible assumption
    | with_reducible apply State.onChan_within (hl := (parts_trans (by decide) hl))
    | with_reducible apply State.onTile_within (hl := (parts_trans (by decide) hl))
    | with_reducible apply State.onPair_within (hl := (parts_trans (by decide) hl))
    | ((with_reducible apply State.put_within 0x440 (hb := (hl _ (by decide)))) <;> first | (rfl; done) | (dsimp only; omega) | (dsimp only [Fld.whole]; omega) | (split <;> first | (rfl; done) | (dsimp only; omega)) | show Within _ _ _)
    | with_reducible refine Within.each ?_ fun _ _ _ => ?_
    | with_reducible apply Within.ite
    | split
    | dsimp only
    | with_reducible intro _

theorem armOp_within {lp : List Part} {root s : State} (h : Within lp root s) (n : Fin 9) (hl : ∀ p ∈ ([.regs 0x440, .mod, .tiles] :
    List Part), p ∈ lp) : Within lp root (armOp n s) := by
  unfold armOp
  repeat' first
    | with_reducible assumption
    | with_reducible apply State.armTile_within (hl := (parts_trans (by decide) hl))
    | with_reducible apply State.setRefuse_within (hl := (parts_trans (by decide) hl))
    | with_reducible apply Within.ite
    | split
    | dsimp only
    | with_reducible intro _

theorem execArm_within {s out : State} (n : Fin 9) (e : execArm n s = .next out) : Within [.regs 0x440, .held, .resp, .mod, .tiles]
    s out := by
  cases e
  repeat' first
    | with_reducible exact Within.refl _ _
    | with_reducible assumption
    | with_reducible apply armOp_within (hl := (by decide))
    | with_reducible apply State.access_within (hl := (by decide))
    | dsimp only
    | with_reducible intro _

theorem disarmOp_within {lp : List Part} {root s : State} (h : Within lp root s) (n : Fin 9) (hl : ∀ p ∈ ([.regs 0x440, .mod,
    .tiles] : List Part), p ∈ lp) : Within lp root (disarmOp n s) := by
  unfold disarmOp
  repeat' first
    | with_reducible assumption
    | with_reducible apply State.setRefuse_within (hl := (parts_trans (by decide) hl))
    | with_reducible apply State.disarm_within (hl := (parts_trans (by decide) hl))
    | with_reducible apply Within.ite
    | split
    | dsimp only
    | with_reducible intro _

theorem execDisarm_within {s out : State} (n : Fin 9) (e : execDisarm n s = .next out) : Within [.regs 0x440, .held, .resp, .mod,
    .tiles] s out := by
  cases e
  repeat' first
    | with_reducible exact Within.refl _ _
    | with_reducible assumption
    | with_reducible apply disarmOp_within (hl := (by decide))
    | with_reducible apply State.access_within (hl := (by decide))
    | dsimp only
    | with_reducible intro _

theorem State.chanOn_within {lp : List Part} {root s : State} (h : Within lp root s) (n : Fin 9) (c : Fin 2) (hl : ∀ p ∈ ([.regs
    0x440, .tiles] : List Part), p ∈ lp) : Within lp root (State.chanOn s n c) := by
  unfold State.chanOn
  repeat' first
    | with_reducible assumption
    | with_reducible apply State.onChan_within (hl := (parts_trans (by decide) hl))
    | ((with_reducible apply State.put_within 0x440 (hb := (hl _ (by decide)))) <;> first | (rfl; done) | (dsimp only; omega) | (dsimp only [Fld.whole]; omega) | (split <;> first | (rfl; done) | (dsimp only; omega)) | show Within _ _ _)
    | dsimp only
    | with_reducible intro _

theorem State.chanReqOn_within {lp : List Part} {root s : State} (h : Within lp root s) (n : Fin 9) (c : Fin 2) (hl : ∀ p ∈ ([.regs
    0x440, .tiles] : List Part), p ∈ lp) : Within lp root (State.chanReqOn s n c) := by
  unfold State.chanReqOn
  repeat' first
    | with_reducible assumption
    | with_reducible apply State.chanOn_within (hl := (parts_trans (by decide) hl))
    | with_reducible apply State.onChan_within (hl := (parts_trans (by decide) hl))
    | ((with_reducible apply State.inc_within (bf := 0x440) (mf := (hl _ (by decide)))) <;> first | (rfl; done) | (dsimp only; omega) | (dsimp only [Fld.whole]; omega) | (split <;> first | (rfl; done) | (dsimp only; omega)) | show Within _ _ _)
    | with_reducible apply Within.ite
    | split
    | dsimp only
    | with_reducible intro _

theorem State.chanReqOff_within {lp : List Part} {root s : State} (h : Within lp root s) (n : Fin 9) (c : Fin 2) (hl : ∀ p ∈ ([.regs
    0x440, .tiles] : List Part), p ∈ lp) : Within lp root (State.chanReqOff s n c) := by
  unfold State.chanReqOff
  repeat' first
    | with_reducible assumption
    | with_reducible apply State.chanOff_within (hl := (parts_trans (by decide) hl))
    | with_reducible apply State.onChan_within (hl := (parts_trans (by decide) hl))
    | with_reducible refine Within.when ?_ fun _ _ => ?_
    | dsimp only
    | with_reducible intro _

theorem State.gateTold_within {lp : List Part} {root s : State} (h : Within lp root s) (n : Fin 9) (c : Fin 2) (high : Bool) (hl : ∀
    p ∈ ([.regs 0x440] : List Part), p ∈ lp) : Within lp root (State.gateTold s n c high) := by
  unfold State.gateTold
  repeat' first
    | with_reducible assumption
    | ((with_reducible apply State.putB_within (bf := 0x440) (mf := (hl _ (by decide)))) <;> first | (rfl; done) | (dsimp only; omega) | (dsimp only [Fld.whole]; omega) | (split <;> first | (rfl; done) | (dsimp only; omega)) | show Within _ _ _)
    | with_reducible refine Within.when ?_ fun _ _ => ?_
    | dsimp only
    | with_reducible intro _

theorem execInterlockRelease_within {s out : State} (n : Fin 9) (c : Fin 2) (e : execInterlockRelease n c s = .next out) : Within
    [.regs 0x440, .tiles] s out := by
  cases e
  repeat' first
    | with_reducible exact Within.refl _ _
    | with_reducible assumption
    | with_reducible apply State.gateTold_within (hl := (by decide))
    | with_reducible apply State.chanOn_within (hl := (by decide))
    | with_reducible apply Within.ite
    | split
    | dsimp only
    | with_reducible intro _

theorem execBootUvEvent_within {s out : State} (n : Fin 9) (e : execBootUvEvent n s = .next out) : Within [.regs 0x440, .regs 0x448,
    .regs 0x470, .regs 0x4e0, .outbox, .mod, .tiles, .sit, .met, .sag, .con] s out := by
  cases e
  repeat' first
    | with_reducible exact Within.refl _ _
    | with_reducible assumption
    | with_reducible apply State.coneIf_within (hl := (by decide))
    | with_reducible apply State.cutPairs_within (hl := (by decide))
    | with_reducible apply State.snapFault_within (hl := (by decide))
    | with_reducible apply State.raiseStopAlso_within (hl := (by decide))
    | with_reducible apply State.chanOff_within (hl := (by decide))
    | with_reducible apply State.onChan_within (hl := (by decide))
    | with_reducible apply State.onTile_within (hl := (by decide))
    | with_reducible apply State.onPair_within (hl := (by decide))
    | ((with_reducible apply State.inc_within (bf := 0x440) (mf := (by decide))) <;> first | (rfl; done) | (dsimp only; omega) | (dsimp only [Fld.whole]; omega) | (split <;> first | (rfl; done) | (dsimp only; omega)) | show Within _ _ _)
    | ((with_reducible apply State.put_within 0x440 (hb := (by decide))) <;> first | (rfl; done) | (dsimp only; omega) | (dsimp only [Fld.whole]; omega) | (split <;> first | (rfl; done) | (dsimp only; omega)) | show Within _ _ _)
    | with_reducible refine Within.each ?_ fun _ _ _ => ?_
    | with_reducible refine Within.when ?_ fun _ _ => ?_
    | with_reducible apply Within.ite
    | split
    | dsimp only
    | with_reducible intro _

theorem execBootUvRecover_within {s out : State} (n : Fin 9) (e : execBootUvRecover n s = .next out) : Within [.regs 0x440, .tiles]
    s out := by
  cases e
  repeat' first
    | with_reducible exact Within.refl _ _
    | with_reducible assumption
    | with_reducible apply State.chanReqOn_within (hl := (by decide))
    | with_reducible apply State.onChan_within (hl := (by decide))
    | with_reducible apply Within.ite
    | split
    | dsimp only
    | with_reducible intro _

theorem execBlankingEnd_within {s out : State} (n : Fin 9) (c : Fin 2) (e : execBlankingEnd n c s = .next out) : Within [.tiles] s
    out := by
  cases e
  repeat' first
    | with_reducible exact Within.refl _ _
    | with_reducible assumption
    | with_reducible apply State.onChan_within (hl := (by decide))
    | dsimp only
    | with_reducible intro _

theorem State.desatOff_within {lp : List Part} {root s : State} (h : Within lp root s) (n : Fin 9) (c : Fin 2) (hl : ∀ p ∈ ([.regs
    0x440, .tiles] : List Part), p ∈ lp) : Within lp root (State.desatOff s n c) := by
  unfold State.desatOff
  repeat' first
    | with_reducible assumption
    | with_reducible apply State.chanSoftOff_within (hl := (parts_trans (by decide) hl))
    | with_reducible apply State.chanSoftBegin_within (hl := (parts_trans (by decide) hl))
    | with_reducible apply State.onChan_within (hl := (parts_trans (by decide) hl))
    | ((with_reducible apply State.put_within 0x440 (hb := (hl _ (by decide)))) <;> first | (rfl; done) | (dsimp only; omega) | (dsimp only [Fld.whole]; omega) | (split <;> first | (rfl; done) | (dsimp only; omega)) | show Within _ _ _)
    | with_reducible refine Within.when ?_ fun _ _ => ?_
    | with_reducible apply Within.ite
    | split
    | dsimp only
    | with_reducible intro _

theorem execDesatDetect_within {s out : State} (n : Fin 9) (c : Fin 2) (e : execDesatDetect n c s = .next out) : Within [.regs
    0x440, .regs 0x448, .regs 0x470, .regs 0x4e0, .outbox, .mod, .tiles, .sit, .met, .sag, .con] s out := by
  cases e
  repeat' first
    | with_reducible exact Within.refl _ _
    | with_reducible assumption
    | with_reducible apply State.desatOff_within (hl := (by decide))
    | with_reducible apply State.snapFault_within (hl := (by decide))
    | with_reducible apply State.raiseStop_within (hl := (by decide))
    | ((with_reducible apply State.put_within 0x440 (hb := (by decide))) <;> first | (rfl; done) | (dsimp only; omega) | (dsimp only [Fld.whole]; omega) | (split <;> first | (rfl; done) | (dsimp only; omega)) | show Within _ _ _)
    | with_reducible apply Within.ite
    | split
    | dsimp only
    | with_reducible intro _

theorem execSoftOffStep2_within {s out : State} (n : Fin 9) (c : Fin 2) (e : execSoftOffStep2 n c s = .next out) : Within [.tiles] s
    out := by
  cases e
  repeat' first
    | with_reducible exact Within.refl _ _
    | with_reducible assumption
    | with_reducible apply State.onChan_within (hl := (by decide))
    | with_reducible refine Within.when ?_ fun _ _ => ?_
    | dsimp only
    | with_reducible intro _

theorem execSoftOffFullSink_within {s out : State} (n : Fin 9) (c : Fin 2) (e : execSoftOffFullSink n c s = .next out) : Within
    [.tiles] s out := by
  cases e
  repeat' first
    | with_reducible exact Within.refl _ _
    | with_reducible assumption
    | with_reducible apply State.onChan_within (hl := (by decide))
    | with_reducible refine Within.when ?_ fun _ _ => ?_
    | dsimp only
    | with_reducible intro _

theorem execSoftTurnOffComplete_within {s out : State} (n : Fin 9) (c : Fin 2) (e : execSoftTurnOffComplete n c s = .next out) :
    Within [.regs 0x440, .tiles] s out := by
  cases e
  repeat' first
    | with_reducible exact Within.refl _ _
    | with_reducible assumption
    | with_reducible apply State.onChan_within (hl := (by decide))
    | ((with_reducible apply State.put_within 0x440 (hb := (by decide))) <;> first | (rfl; done) | (dsimp only; omega) | (dsimp only [Fld.whole]; omega) | (split <;> first | (rfl; done) | (dsimp only; omega)) | show Within _ _ _)
    | with_reducible refine Within.when ?_ fun _ _ => ?_
    | dsimp only
    | with_reducible intro _

theorem State.clearFlag_within {lp : List Part} {root s : State} (h : Within lp root s) (n : Fin 9) (active : Bool) (f : Fld) {bf :
    Nat} (hf : f.addr / 0x100000 = bf) (mf : .regs bf ∈ lp) (hl : ∀ p ∈ ([.regs 0x440] : List Part), p ∈ lp) : Within lp root
    (State.clearFlag s n active f) := by
  unfold State.clearFlag
  repeat' first
    | with_reducible assumption
    | with_reducible apply State.setRefuse_within (hl := (parts_trans (by decide) hl))
    | with_reducible refine State.put_within _ ?_ hf mf
    | with_reducible apply Within.ite
    | split
    | dsimp only
    | with_reducible intro _

theorem desatClearOp_within {lp : List Part} {root s : State} (h : Within lp root s) (n : Fin 9) (c : Fin 2) (hl : ∀ p ∈ ([.regs
    0x440] : List Part), p ∈ lp) : Within lp root (desatClearOp n c s) := by
  unfold desatClearOp
  repeat' first
    | with_reducible assumption
    | ((with_reducible apply State.clearFlag_within (bf := 0x440) (mf := (hl _ (by decide))) (hl := (parts_trans (by decide) hl))) <;> first | (rfl; done) | (dsimp only; omega) | (dsimp only [Fld.whole]; omega) | (split <;> first | (rfl; done) | (dsimp only; omega)) | show Within _ _ _)
    | dsimp only
    | with_reducible intro _

theorem execDesatClear_within {s out : State} (n : Fin 9) (c : Fin 2) (e : execDesatClear n c s = .next out) : Within [.regs 0x440,
    .held, .resp] s out := by
  cases e
  repeat' first
    | with_reducible exact Within.refl _ _
    | with_reducible assumption
    | with_reducible apply desatClearOp_within (hl := (by decide))
    | with_reducible apply State.access_within (hl := (by decide))
    | dsimp only
    | with_reducible intro _

theorem bootStopClearOp_within {lp : List Part} {root s : State} (h : Within lp root s) (n : Fin 9) (hl : ∀ p ∈ ([.regs 0x440] :
    List Part), p ∈ lp) : Within lp root (bootStopClearOp n s) := by
  unfold bootStopClearOp
  repeat' first
    | with_reducible assumption
    | ((with_reducible apply State.clearFlag_within (bf := 0x440) (mf := (hl _ (by decide))) (hl := (parts_trans (by decide) hl))) <;> first | (rfl; done) | (dsimp only; omega) | (dsimp only [Fld.whole]; omega) | (split <;> first | (rfl; done) | (dsimp only; omega)) | show Within _ _ _)
    | dsimp only
    | with_reducible intro _

theorem execBootStopClear_within {s out : State} (n : Fin 9) (e : execBootStopClear n s = .next out) : Within [.regs 0x440, .held,
    .resp] s out := by
  cases e
  repeat' first
    | with_reducible exact Within.refl _ _
    | with_reducible assumption
    | with_reducible apply bootStopClearOp_within (hl := (by decide))
    | with_reducible apply State.access_within (hl := (by decide))
    | dsimp only
    | with_reducible intro _

theorem supplyUvClearOp_within {lp : List Part} {root s : State} (h : Within lp root s) (n : Fin 9) (c : Fin 2) (hl : ∀ p ∈ ([.regs
    0x440] : List Part), p ∈ lp) : Within lp root (supplyUvClearOp n c s) := by
  unfold supplyUvClearOp
  repeat' first
    | with_reducible assumption
    | ((with_reducible apply State.clearFlag_within (bf := 0x440) (mf := (hl _ (by decide))) (hl := (parts_trans (by decide) hl))) <;> first | (rfl; done) | (dsimp only; omega) | (dsimp only [Fld.whole]; omega) | (split <;> first | (rfl; done) | (dsimp only; omega)) | show Within _ _ _)
    | dsimp only
    | with_reducible intro _

theorem execSupplyUvClear_within {s out : State} (n : Fin 9) (c : Fin 2) (e : execSupplyUvClear n c s = .next out) : Within [.regs
    0x440, .held, .resp] s out := by
  cases e
  repeat' first
    | with_reducible exact Within.refl _ _
    | with_reducible assumption
    | with_reducible apply supplyUvClearOp_within (hl := (by decide))
    | with_reducible apply State.access_within (hl := (by decide))
    | dsimp only
    | with_reducible intro _

theorem diagOp_within {lp : List Part} {root s : State} (h : Within lp root s) (n : Fin 9) (hl : ∀ p ∈ ([.regs 0x440, .tiles] : List
    Part), p ∈ lp) : Within lp root (diagOp n s) := by
  unfold diagOp
  repeat' first
    | with_reducible assumption
    | with_reducible apply State.setRefuse_within (hl := (parts_trans (by decide) hl))
    | with_reducible apply State.onTile_within (hl := (parts_trans (by decide) hl))
    | ((with_reducible apply State.put_within 0x440 (hb := (hl _ (by decide)))) <;> first | (rfl; done) | (dsimp only; omega) | (dsimp only [Fld.whole]; omega) | (split <;> first | (rfl; done) | (dsimp only; omega)) | show Within _ _ _)
    | with_reducible apply Within.ite
    | split
    | dsimp only
    | with_reducible intro _

theorem execDiag_within {s out : State} (n : Fin 9) (e : execDiag n s = .next out) : Within [.regs 0x440, .held, .resp, .tiles] s
    out := by
  cases e
  repeat' first
    | with_reducible exact Within.refl _ _
    | with_reducible assumption
    | with_reducible apply diagOp_within (hl := (by decide))
    | with_reducible apply State.access_within (hl := (by decide))
    | dsimp only
    | with_reducible intro _

theorem execDiagAbort_within {s out : State} (n : Fin 9) (e : execDiagAbort n s = .next out) : Within [.regs 0x440, .held, .resp,
    .tiles] s out := by
  cases e
  repeat' first
    | with_reducible exact Within.refl _ _
    | with_reducible assumption
    | with_reducible apply State.diagStop_within (hl := (by decide))
    | with_reducible apply State.access_within (hl := (by decide))
    | dsimp only
    | with_reducible intro _

theorem execDiagTestStep_within {s out : State} (n : Fin 9) (o : DiagObs) (e : execDiagTestStep n o s = .next out) : Within [.regs
    0x440, .tiles] s out := by
  cases e
  repeat' first
    | with_reducible exact Within.refl _ _
    | with_reducible assumption
    | with_reducible apply State.onTile_within (hl := (by decide))
    | ((with_reducible apply State.put_within 0x440 (hb := (by decide))) <;> first | (rfl; done) | (dsimp only; omega) | (dsimp only [Fld.whole]; omega) | (split <;> first | (rfl; done) | (dsimp only; omega)) | show Within _ _ _)
    | with_reducible refine Within.when ?_ fun _ _ => ?_
    | with_reducible apply Within.ite
    | split
    | dsimp only
    | with_reducible intro _

theorem execDiagDone_within {s out : State} (n : Fin 9) (e : execDiagDone n s = .next out) : Within [.regs 0x440, .tiles] s out :=
    by
  cases e
  repeat' first
    | with_reducible exact Within.refl _ _
    | with_reducible assumption
    | with_reducible apply State.onTile_within (hl := (by decide))
    | ((with_reducible apply State.put_within 0x440 (hb := (by decide))) <;> first | (rfl; done) | (dsimp only; omega) | (dsimp only [Fld.whole]; omega) | (split <;> first | (rfl; done) | (dsimp only; omega)) | show Within _ _ _)
    | split
    | dsimp only
    | with_reducible intro _

theorem State.segWorn_within {lp : List Part} {root s : State} (h : Within lp root s) (n : Fin 9) (c : Fin 2) (k : Fin 8) (hl : ∀ p
    ∈ ([.regs 0x440] : List Part), p ∈ lp) : Within lp root (State.segWorn s n c k) := by
  unfold State.segWorn
  repeat' first
    | with_reducible assumption
    | ((with_reducible apply State.putBit_within (bf := 0x440) (mf := (hl _ (by decide)))) <;> first | (rfl; done) | (dsimp only; omega) | (dsimp only [Fld.whole]; omega) | (split <;> first | (rfl; done) | (dsimp only; omega)) | show Within _ _ _)
    | ((with_reducible apply State.put_within 0x440 (hb := (hl _ (by decide)))) <;> first | (rfl; done) | (dsimp only; omega) | (dsimp only [Fld.whole]; omega) | (split <;> first | (rfl; done) | (dsimp only; omega)) | show Within _ _ _)
    | with_reducible apply Within.ite
    | split
    | dsimp only
    | with_reducible intro _

theorem execSegmentMeasure_within {s out : State} (n : Fin 9) (c : Fin 2) (k : Fin 8) (rds : Nat) (broken : Bool) (e :
    execSegmentMeasure n c k rds broken s = .next out) : Within [.regs 0x440, .regs 0x470, .regs 0x4d0, .tiles, .met, .sag, .grg] s
    out := by
  cases e
  repeat' first
    | with_reducible exact Within.refl _ _
    | with_reducible assumption
    | with_reducible apply State.segWorn_within (hl := (by decide))
    | with_reducible apply State.grogSegment_within (hl := (by decide))
    | with_reducible apply State.onChan_within (hl := (by decide))
    | ((with_reducible apply State.putBit_within (bf := 0x440) (mf := (by decide))) <;> first | (rfl; done) | (dsimp only; omega) | (dsimp only [Fld.whole]; omega) | (split <;> first | (rfl; done) | (dsimp only; omega)) | show Within _ _ _)
    | ((with_reducible apply State.put_within 0x440 (hb := (by decide))) <;> first | (rfl; done) | (dsimp only; omega) | (dsimp only [Fld.whole]; omega) | (split <;> first | (rfl; done) | (dsimp only; omega)) | show Within _ _ _)
    | with_reducible refine Within.when ?_ fun _ _ => ?_
    | with_reducible apply Within.ite
    | split
    | dsimp only
    | with_reducible intro _

theorem execTileOverTemp_within {s out : State} (n : Fin 9) (e : execTileOverTemp n s = .next out) : Within [.regs 0x440, .regs
    0x448, .regs 0x470, .regs 0x4e0, .outbox, .mod, .tiles, .sit, .met, .sag, .con] s out := by
  cases e
  repeat' first
    | with_reducible exact Within.refl _ _
    | with_reducible assumption
    | with_reducible apply State.raiseStop_within (hl := (by decide))
    | ((with_reducible apply State.put_within 0x440 (hb := (by decide))) <;> first | (rfl; done) | (dsimp only; omega) | (dsimp only [Fld.whole]; omega) | (split <;> first | (rfl; done) | (dsimp only; omega)) | show Within _ _ _)
    | with_reducible refine Within.when ?_ fun _ _ => ?_
    | dsimp only
    | with_reducible intro _

theorem execTileOtClear_within {s out : State} (n : Fin 9) (e : execTileOtClear n s = .next out) : Within [.regs 0x440] s out := by
  cases e
  repeat' first
    | with_reducible exact Within.refl _ _
    | with_reducible assumption
    | ((with_reducible apply State.put_within 0x440 (hb := (by decide))) <;> first | (rfl; done) | (dsimp only; omega) | (dsimp only [Fld.whole]; omega) | (split <;> first | (rfl; done) | (dsimp only; omega)) | show Within _ _ _)
    | dsimp only
    | with_reducible intro _

theorem State.fallbackStage_within {lp : List Part} {root s : State} (h : Within lp root s) (n : Fin 9) (g : Nat) (hl : ∀ p ∈
    ([.regs 0x440, .tiles] : List Part), p ∈ lp) : Within lp root (State.fallbackStage s n g) := by
  unfold State.fallbackStage
  repeat' first
    | with_reducible assumption
    | with_reducible apply State.chanOff_within (hl := (parts_trans (by decide) hl))
    | with_reducible refine Within.each ?_ fun _ _ _ => ?_
    | with_reducible refine Within.when ?_ fun _ _ => ?_
    | dsimp only
    | with_reducible intro _

theorem State.controlLoss_within {lp : List Part} {root s : State} (h : Within lp root s) (n : Fin 9) (hl : ∀ p ∈ ([.regs 0x440,
    .tiles] : List Part), p ∈ lp) : Within lp root (State.controlLoss s n) := by
  unfold State.controlLoss
  repeat' first
    | with_reducible assumption
    | with_reducible apply State.fallbackStage_within (hl := (parts_trans (by decide) hl))
    | with_reducible apply State.onTile_within (hl := (parts_trans (by decide) hl))
    | dsimp only
    | with_reducible intro _

theorem execTileControlLoss_within {s out : State} (n : Fin 9) (e : execTileControlLoss n s = .next out) : Within [.regs 0x440,
    .tiles] s out := by
  cases e
  repeat' first
    | with_reducible exact Within.refl _ _
    | with_reducible assumption
    | with_reducible apply State.controlLoss_within (hl := (by decide))
    | dsimp only
    | with_reducible intro _

theorem execTileFallbackStage2_within {s out : State} (n : Fin 9) (e : execTileFallbackStage2 n s = .next out) : Within [.regs
    0x440, .tiles] s out := by
  cases e
  repeat' first
    | with_reducible exact Within.refl _ _
    | with_reducible assumption
    | with_reducible apply State.fallbackStage_within (hl := (by decide))
    | with_reducible apply State.onTile_within (hl := (by decide))
    | with_reducible refine Within.when ?_ fun _ _ => ?_
    | dsimp only
    | with_reducible intro _

end Sys2Proof.Machine
end

