-- ==== Sys2Proof/Laws/WithinSwap.lean ====
section
/-!
SUPPORT. The parts of the state that each operation of Machine/Swap.lean may change.
-/

namespace Sys2Proof.Machine

open Sys2Proof

set_option linter.all false

theorem State.setSwap_within {lp : List Part} {root s : State} (h : Within lp root s) (k : Fin 8) (r : Option SwapReq) (hl : ∀ p ∈
    ([.regs 0x41c, .groups] : List Part), p ∈ lp) : Within lp root (State.setSwap s k r) := by
  unfold State.setSwap
  repeat' first
    | with_reducible assumption
    | with_reducible apply State.onGroup_within (hl := (parts_trans (by decide) hl))
    | ((with_reducible apply State.putB_within (bf := 0x41c) (mf := (hl _ (by decide)))) <;> first | (rfl; done) | (dsimp only; omega) | (dsimp only [Fld.whole]; omega) | (split <;> first | (rfl; done) | (dsimp only; omega)) | show Within _ _ _)
    | dsimp only
    | with_reducible intro _

theorem State.takeSwap_within {lp : List Part} {root s : State} (h : Within lp root s) (k : Fin 8) (r : SwapReq) (hl : ∀ p ∈ ([.regs
    0x41c, .groups] : List Part), p ∈ lp) : Within lp root (State.takeSwap s k r) := by
  unfold State.takeSwap
  repeat' first
    | with_reducible assumption
    | with_reducible apply State.setSwap_within (hl := (parts_trans (by decide) hl))
    | with_reducible apply Within.ite
    | split
    | dsimp only
    | with_reducible intro _

theorem State.swapRequest_within {lp : List Part} {root s : State} (h : Within lp root s) (k : Fin 8) (r : SwapReq) (hl : ∀ p ∈
    ([.regs 0x41c, .groups] : List Part), p ∈ lp) : Within lp root (State.swapRequest s k r) := by
  unfold State.swapRequest
  repeat' first
    | with_reducible assumption
    | with_reducible apply State.takeSwap_within (hl := (parts_trans (by decide) hl))
    | ((with_reducible apply State.put_within 0x41c (hb := (hl _ (by decide)))) <;> first | (rfl; done) | (dsimp only; omega) | (dsimp only [Fld.whole]; omega) | (split <;> first | (rfl; done) | (dsimp only; omega)) | show Within _ _ _)
    | with_reducible refine Within.when ?_ fun _ _ => ?_
    | with_reducible apply Within.ite
    | split
    | dsimp only
    | with_reducible intro _

theorem State.bankPut_within {lp : List Part} {root s : State} (h : Within lp root s) (w b i : Nat) (v : Word) (hl : ∀ p ∈ ([.coef]
    : List Part), p ∈ lp) : Within lp root (State.bankPut s w b i v) := by
  unfold State.bankPut
  repeat' first
    | with_reducible assumption
    | with_reducible apply State.withCoef_within (hl := (parts_trans (by decide) hl))
    | dsimp only
    | with_reducible intro _

theorem State.supvStop_within {lp : List Part} {root s : State} (h : Within lp root s) (c : Cause) (code wheel rg index detail :
    Nat) (hl : ∀ p ∈ ([.regs 0x41c, .regs 0x440, .regs 0x448, .regs 0x470, .regs 0x4e0, .outbox, .mod, .tiles, .sit, .met, .sag,
    .con] : List Part), p ∈ lp) : Within lp root (State.supvStop s c code wheel rg index detail) := by
  unfold State.supvStop
  repeat' first
    | with_reducible assumption
    | with_reducible apply State.raiseStop_within (hl := (parts_trans (by decide) hl))
    | ((with_reducible apply State.put_within 0x41c (hb := (hl _ (by decide)))) <;> first | (rfl; done) | (dsimp only; omega) | (dsimp only [Fld.whole]; omega) | (split <;> first | (rfl; done) | (dsimp only; omega)) | show Within _ _ _)
    | with_reducible apply Within.ite
    | split
    | dsimp only
    | with_reducible intro _

end Sys2Proof.Machine
end

