-- ==== Sys2Proof/Laws/WithinGsu.lean ====
section
/-!
SUPPORT. The parts of the state that each operation of Machine/Gsu.lean may change.
-/

namespace Sys2Proof.Machine

open Sys2Proof

set_option linter.all false

theorem State.gsuJump_within {lp : List Part} {root s : State} (h : Within lp root s) (i : Fin 4) (d : Word) (hl : ∀ p ∈ ([.regs
    0x420, .gsus, .isl] : List Part), p ∈ lp) : Within lp root (State.gsuJump s i d) := by
  unfold State.gsuJump
  repeat' first
    | with_reducible assumption
    | with_reducible apply State.onGsu_within (hl := (parts_trans (by decide) hl))
    | ((with_reducible apply State.inc_within (bf := 0x420) (mf := (hl _ (by decide)))) <;> first | (rfl; done) | (dsimp only; omega) | (dsimp only [Fld.whole]; omega) | (split <;> first | (rfl; done) | (dsimp only; omega)) | show Within _ _ _)
    | ((with_reducible apply State.put_within 0x420 (hb := (hl _ (by decide)))) <;> first | (rfl; done) | (dsimp only; omega) | (dsimp only [Fld.whole]; omega) | (split <;> first | (rfl; done) | (dsimp only; omega)) | show Within _ _ _)
    | with_reducible apply State.withIsl_within (hl := (parts_trans (by decide) hl))
    | with_reducible refine Within.when ?_ fun _ _ => ?_
    | dsimp only
    | with_reducible intro _

theorem State.gsuUpdate_within {lp : List Part} {root s : State} (h : Within lp root s) (i : Fin 4) (hl : ∀ p ∈ ([.regs 0x420,
    .gsus, .isl] : List Part), p ∈ lp) : Within lp root (State.gsuUpdate s i) := by
  unfold State.gsuUpdate
  repeat' first
    | with_reducible assumption
    | with_reducible apply State.gsuJump_within (hl := (parts_trans (by decide) hl))
    | with_reducible apply State.onGsu_within (hl := (parts_trans (by decide) hl))
    | ((with_reducible apply State.putB_within (bf := 0x420) (mf := (hl _ (by decide)))) <;> first | (rfl; done) | (dsimp only; omega) | (dsimp only [Fld.whole]; omega) | (split <;> first | (rfl; done) | (dsimp only; omega)) | show Within _ _ _)
    | ((with_reducible apply State.put_within 0x420 (hb := (hl _ (by decide)))) <;> first | (rfl; done) | (dsimp only; omega) | (dsimp only [Fld.whole]; omega) | (split <;> first | (rfl; done) | (dsimp only; omega)) | show Within _ _ _)
    | with_reducible refine Within.when ?_ fun _ _ => ?_
    | with_reducible apply Within.ite
    | split
    | dsimp only
    | with_reducible intro _

theorem State.gsuStart_within {lp : List Part} {root s : State} (h : Within lp root s) (k : Fin 8) (hl : ∀ p ∈ ([.regs 0x420, .gsus,
    .isl] : List Part), p ∈ lp) : Within lp root (State.gsuStart s k) := by
  unfold State.gsuStart
  repeat' first
    | with_reducible assumption
    | with_reducible apply State.gsuUpdate_within (hl := (parts_trans (by decide) hl))
    | with_reducible apply State.onGsu_within (hl := (parts_trans (by decide) hl))
    | with_reducible refine Within.each ?_ fun _ _ _ => ?_
    | with_reducible apply Within.ite
    | split
    | dsimp only
    | with_reducible intro _

theorem execGsuPublish_within {s out : State} (i : Fin 4) (e : execGsuPublish i s = .next out) : Within [.regs 0x41c, .slots, .gsus,
    .isl] s out := by
  cases e
  repeat' first
    | with_reducible exact Within.refl _ _
    | with_reducible assumption
    | with_reducible apply State.onGsu_within (hl := (by decide))
    | with_reducible apply State.publishBy_within (hl := (by decide))
    | with_reducible apply State.withIsl_within (hl := (by decide))
    | with_reducible refine Within.each ?_ fun _ _ _ => ?_
    | with_reducible refine Within.when ?_ fun _ _ => ?_
    | with_reducible apply Within.ite
    | split
    | dsimp only
    | with_reducible intro _

theorem execGsuAnglePublish_within {s out : State} (i : Fin 4) (e : execGsuAnglePublish i s = .next out) : Within [.regs 0x41c,
    .slots] s out := by
  cases e
  repeat' first
    | with_reducible exact Within.refl _ _
    | with_reducible assumption
    | with_reducible apply State.publishBy_within (hl := (by decide))
    | with_reducible apply Within.ite
    | split
    | dsimp only
    | with_reducible intro _

theorem execGsuLock_within {s out : State} (i : Fin 4) (e : execGsuLock i s = .next out) : Within [.regs 0x420] s out := by
  cases e
  repeat' first
    | with_reducible exact Within.refl _ _
    | with_reducible assumption
    | ((with_reducible apply State.put_within 0x420 (hb := (by decide))) <;> first | (rfl; done) | (dsimp only; omega) | (dsimp only [Fld.whole]; omega) | (split <;> first | (rfl; done) | (dsimp only; omega)) | show Within _ _ _)
    | with_reducible refine Within.when ?_ fun _ _ => ?_
    | dsimp only
    | with_reducible intro _

theorem execWrongSeq_within {s out : State} (i : Fin 4) (e : execWrongSeq i s = .next out) : Within [.regs 0x420] s out := by
  cases e
  repeat' first
    | with_reducible exact Within.refl _ _
    | with_reducible assumption
    | ((with_reducible apply State.put_within 0x420 (hb := (by decide))) <;> first | (rfl; done) | (dsimp only; omega) | (dsimp only [Fld.whole]; omega) | (split <;> first | (rfl; done) | (dsimp only; omega)) | show Within _ _ _)
    | with_reducible refine Within.when ?_ fun _ _ => ?_
    | with_reducible apply Within.ite
    | split
    | dsimp only
    | with_reducible intro _

theorem execMissN_within {s out : State} (i : Fin 4) (e : execMissN i s = .next out) : Within [.regs 0x420] s out := by
  cases e
  repeat' first
    | with_reducible exact Within.refl _ _
    | with_reducible assumption
    | ((with_reducible apply State.put_within 0x420 (hb := (by decide))) <;> first | (rfl; done) | (dsimp only; omega) | (dsimp only [Fld.whole]; omega) | (split <;> first | (rfl; done) | (dsimp only; omega)) | show Within _ _ _)
    | with_reducible refine Within.when ?_ fun _ _ => ?_
    | with_reducible apply Within.ite
    | split
    | dsimp only
    | with_reducible intro _

theorem State.gsuAdvance_within {lp : List Part} {root s : State} (h : Within lp root s) (cycles : Nat) (hl : ∀ p ∈ ([.gsus] : List
    Part), p ∈ lp) : Within lp root (State.gsuAdvance s cycles) := by
  unfold State.gsuAdvance
  repeat' first
    | with_reducible assumption
    | with_reducible apply State.onGsu_within (hl := (parts_trans (by decide) hl))
    | with_reducible refine Within.each ?_ fun _ _ _ => ?_
    | with_reducible refine Within.when ?_ fun _ _ => ?_
    | with_reducible apply Within.ite
    | split
    | dsimp only
    | with_reducible intro _

end Sys2Proof.Machine
end

