-- ==== Sys2Proof/Laws/WithinRts.lean ====
section
/-!
SUPPORT. The parts of the state that each operation of Machine/Rts.lean may change.
-/

namespace Sys2Proof.Machine

open Sys2Proof

set_option linter.all false

theorem State.rtsApply_within {lp : List Part} {root s : State} (h : Within lp root s) (hl : ∀ p ∈ ([.regs 0x41c, .regs 0x421, .regs
    0x440, .regs 0x448, .regs 0x470, .regs 0x4e0, .slots, .outbox, .groups, .rts, .isl, .mod, .tiles, .sit, .met, .sag, .con] : List
    Part), p ∈ lp) : Within lp root (State.rtsApply s) := by
  unfold State.rtsApply
  repeat' first
    | with_reducible assumption
    | with_reducible apply State.swapRequest_within (hl := (parts_trans (by decide) hl))
    | with_reducible apply State.raiseStop_within (hl := (parts_trans (by decide) hl))
    | with_reducible apply State.onPair_within (hl := (parts_trans (by decide) hl))
    | with_reducible apply State.publishBy_within (hl := (parts_trans (by decide) hl))
    | ((with_reducible apply State.incWrap_within (bf := 0x421) (mf := (hl _ (by decide)))) <;> first | (rfl; done) | (dsimp only; omega) | (dsimp only [Fld.whole]; omega) | (split <;> first | (rfl; done) | (dsimp only; omega)) | show Within _ _ _)
    | ((with_reducible apply State.putB_within (bf := 0x421) (mf := (hl _ (by decide)))) <;> first | (rfl; done) | (dsimp only; omega) | (dsimp only [Fld.whole]; omega) | (split <;> first | (rfl; done) | (dsimp only; omega)) | show Within _ _ _)
    | ((with_reducible apply State.put_within 0x421 (hb := (hl _ (by decide)))) <;> first | (rfl; done) | (dsimp only; omega) | (dsimp only [Fld.whole]; omega) | (split <;> first | (rfl; done) | (dsimp only; omega)) | show Within _ _ _)
    | with_reducible apply State.withIsl_within (hl := (parts_trans (by decide) hl))
    | with_reducible apply State.withRts_within (hl := (parts_trans (by decide) hl))
    | with_reducible refine Within.each ?_ fun _ _ _ => ?_
    | with_reducible refine Within.when ?_ fun _ _ => ?_
    | with_reducible refine Within.foldl ?_ fun _ _ _ => ?_
    | with_reducible apply Within.ite
    | split
    | dsimp only
    | with_reducible intro _

theorem State.rtsRamp_within {lp : List Part} {root s : State} (h : Within lp root s) (hl : ∀ p ∈ ([.rts] : List Part), p ∈ lp) :
    Within lp root (State.rtsRamp s) := by
  unfold State.rtsRamp
  repeat' first
    | with_reducible assumption
    | with_reducible apply State.withRts_within (hl := (parts_trans (by decide) hl))
    | dsimp only
    | with_reducible intro _

theorem execRtsTick_within {s out : State} (e : execRtsTick s = .next out) : Within [.regs 0x41c, .regs 0x421, .regs 0x440, .regs
    0x448, .regs 0x470, .regs 0x4e0, .slots, .outbox, .groups, .rts, .isl, .mod, .tiles, .sit, .met, .sag, .con] s out := by
  cases e
  repeat' first
    | with_reducible exact Within.refl _ _
    | with_reducible assumption
    | with_reducible apply State.rtsRamp_within (hl := (by decide))
    | with_reducible apply State.rtsApply_within (hl := (by decide))
    | with_reducible apply State.withRts_within (hl := (by decide))
    | with_reducible refine Within.each ?_ fun _ _ _ => ?_
    | with_reducible refine Within.when ?_ fun _ _ => ?_
    | with_reducible apply Within.ite
    | split
    | dsimp only
    | with_reducible intro _

theorem State.rtsTake_within {lp : List Part} {root s : State} (h : Within lp root s) (c : Fin 4) (b : Nat) (hl : ∀ p ∈ ([.rts] :
    List Part), p ∈ lp) : Within lp root (State.rtsTake s c b) := by
  unfold State.rtsTake
  repeat' first
    | with_reducible assumption
    | with_reducible apply State.withRts_within (hl := (parts_trans (by decide) hl))
    | with_reducible apply Within.ite
    | split
    | dsimp only
    | with_reducible intro _

theorem execRtsBandChange_within {s out : State} (c : Fin 4) (e : execRtsBandChange c s = .next out) : Within [.regs 0x41c, .regs
    0x421, .regs 0x440, .regs 0x448, .regs 0x470, .regs 0x4e0, .slots, .outbox, .groups, .rts, .isl, .mod, .tiles, .sit, .met, .sag,
    .con] s out := by
  cases e
  repeat' first
    | with_reducible exact Within.refl _ _
    | with_reducible assumption
    | with_reducible apply State.rtsTake_within (hl := (by decide))
    | with_reducible apply State.rtsApply_within (hl := (by decide))
    | with_reducible apply Within.ite
    | split
    | dsimp only
    | with_reducible intro _

theorem execRtsTimeLimit_within {s out : State} (c : Fin 4) (e : execRtsTimeLimit c s = .next out) : Within [.regs 0x41c, .regs
    0x421, .regs 0x440, .regs 0x448, .regs 0x470, .regs 0x4e0, .slots, .outbox, .groups, .rts, .isl, .mod, .tiles, .sit, .met, .sag,
    .con] s out := by
  cases e
  repeat' first
    | with_reducible exact Within.refl _ _
    | with_reducible assumption
    | with_reducible apply State.rtsApply_within (hl := (by decide))
    | with_reducible apply State.withRts_within (hl := (by decide))
    | with_reducible apply Within.ite
    | split
    | dsimp only
    | with_reducible intro _

theorem clearTripOp_within {lp : List Part} {root s : State} (h : Within lp root s) (hl : ∀ p ∈ ([.regs 0x421, .rts] : List Part), p
    ∈ lp) : Within lp root (clearTripOp s) := by
  unfold clearTripOp
  repeat' first
    | with_reducible assumption
    | ((with_reducible apply State.inc_within (bf := 0x421) (mf := (hl _ (by decide)))) <;> first | (rfl; done) | (dsimp only; omega) | (dsimp only [Fld.whole]; omega) | (split <;> first | (rfl; done) | (dsimp only; omega)) | show Within _ _ _)
    | ((with_reducible apply State.put_within 0x421 (hb := (hl _ (by decide)))) <;> first | (rfl; done) | (dsimp only; omega) | (dsimp only [Fld.whole]; omega) | (split <;> first | (rfl; done) | (dsimp only; omega)) | show Within _ _ _)
    | with_reducible apply State.withRts_within (hl := (parts_trans (by decide) hl))
    | with_reducible apply Within.ite
    | split
    | dsimp only
    | with_reducible intro _

theorem execClearTrip_within {s out : State} (e : execClearTrip s = .next out) : Within [.regs 0x421, .held, .resp, .rts] s out :=
    by
  cases e
  repeat' first
    | with_reducible exact Within.refl _ _
    | with_reducible assumption
    | with_reducible apply clearTripOp_within (hl := (by decide))
    | with_reducible apply State.access_within (hl := (by decide))
    | dsimp only
    | with_reducible intro _

end Sys2Proof.Machine
end

