-- ==== Sys2Proof/Laws/WithinIsl.lean ====
section
/-!
SUPPORT. The parts of the state that each operation of Machine/Isl.lean may change.
-/

namespace Sys2Proof.Machine

open Sys2Proof

set_option linter.all false

theorem State.onIsl_within {lp : List Part} {root s : State} (h : Within lp root s) (f : IslUnit → IslUnit) (hl : ∀ p ∈ ([.isl] :
    List Part), p ∈ lp) : Within lp root (State.onIsl s f) := by
  unfold State.onIsl
  repeat' first
    | with_reducible assumption
    | with_reducible apply State.withIsl_within (hl := (parts_trans (by decide) hl))
    | dsimp only
    | with_reducible intro _

theorem State.islPut_within {lp : List Part} {root s : State} (h : Within lp root s) (j : Nat) (v : Word) (hl : ∀ p ∈ ([.regs 0x41c,
    .slots] : List Part), p ∈ lp) : Within lp root (State.islPut s j v) := by
  unfold State.islPut
  repeat' first
    | with_reducible assumption
    | with_reducible apply State.publishBy_within (hl := (parts_trans (by decide) hl))
    | dsimp only
    | with_reducible intro _

theorem State.islPublish_within {lp : List Part} {root s : State} (h : Within lp root s) (hl : ∀ p ∈ ([.regs 0x41c, .slots] : List
    Part), p ∈ lp) : Within lp root (State.islPublish s) := by
  unfold State.islPublish
  repeat' first
    | with_reducible assumption
    | with_reducible apply State.islPut_within (hl := (parts_trans (by decide) hl))
    | with_reducible refine Within.each ?_ fun _ _ _ => ?_
    | with_reducible apply Within.ite
    | split
    | dsimp only
    | with_reducible intro _

theorem State.islDeclare_within {lp : List Part} {root s : State} (h : Within lp root s) (src : Nat) (hl : ∀ p ∈ ([.regs 0x422,
    .isl] : List Part), p ∈ lp) : Within lp root (State.islDeclare s src) := by
  unfold State.islDeclare
  repeat' first
    | with_reducible assumption
    | with_reducible apply State.onIsl_within (hl := (parts_trans (by decide) hl))
    | ((with_reducible apply State.put_within 0x422 (hb := (hl _ (by decide)))) <;> first | (rfl; done) | (dsimp only; omega) | (dsimp only [Fld.whole]; omega) | (split <;> first | (rfl; done) | (dsimp only; omega)) | show Within _ _ _)
    | with_reducible apply Within.ite
    | split
    | dsimp only
    | with_reducible intro _

theorem State.islCmdRefuse_within {lp : List Part} {root s : State} (h : Within lp root s) (hl : ∀ p ∈ ([.regs 0x422] : List Part),
    p ∈ lp) : Within lp root (State.islCmdRefuse s) := by
  unfold State.islCmdRefuse
  repeat' first
    | with_reducible assumption
    | ((with_reducible apply State.inc_within (bf := 0x422) (mf := (hl _ (by decide)))) <;> first | (rfl; done) | (dsimp only; omega) | (dsimp only [Fld.whole]; omega) | (split <;> first | (rfl; done) | (dsimp only; omega)) | show Within _ _ _)
    | ((with_reducible apply State.put_within 0x422 (hb := (hl _ (by decide)))) <;> first | (rfl; done) | (dsimp only; omega) | (dsimp only [Fld.whole]; omega) | (split <;> first | (rfl; done) | (dsimp only; omega)) | show Within _ _ _)
    | dsimp only
    | with_reducible intro _

theorem State.islTransfer_within {lp : List Part} {root s : State} (h : Within lp root s) (c : Nat) (hl : ∀ p ∈ ([.regs 0x422, .isl]
    : List Part), p ∈ lp) : Within lp root (State.islTransfer s c) := by
  unfold State.islTransfer
  repeat' first
    | with_reducible assumption
    | with_reducible apply State.islCmdRefuse_within (hl := (parts_trans (by decide) hl))
    | with_reducible apply State.onIsl_within (hl := (parts_trans (by decide) hl))
    | ((with_reducible apply State.put_within 0x422 (hb := (hl _ (by decide)))) <;> first | (rfl; done) | (dsimp only; omega) | (dsimp only [Fld.whole]; omega) | (split <;> first | (rfl; done) | (dsimp only; omega)) | show Within _ _ _)
    | with_reducible apply Within.ite
    | split
    | dsimp only
    | with_reducible intro _

theorem State.islLocal_within {lp : List Part} {root s : State} (h : Within lp root s) (hl : ∀ p ∈ ([.regs 0x422, .regs 0x440, .regs
    0x448, .regs 0x470, .regs 0x4e0, .outbox, .isl, .mod, .tiles, .sit, .met, .sag, .con] : List Part), p ∈ lp) : Within lp root
    (State.islLocal s) := by
  unfold State.islLocal
  repeat' first
    | with_reducible assumption
    | with_reducible apply State.islTransfer_within (hl := (parts_trans (by decide) hl))
    | with_reducible apply State.raiseStop_within (hl := (parts_trans (by decide) hl))
    | with_reducible refine Within.when ?_ fun _ _ => ?_
    | split
    | dsimp only
    | with_reducible intro _

theorem State.islManager_within {lp : List Part} {root s : State} (h : Within lp root s) (hl : ∀ p ∈ ([.regs 0x448, .outbox, .sit,
    .wlk] : List Part), p ∈ lp) : Within lp root (State.islManager s) := by
  unfold State.islManager
  repeat' first
    | with_reducible assumption
    | with_reducible apply State.plantRefresh_within (hl := (parts_trans (by decide) hl))
    | with_reducible apply State.withWlk_within (hl := (parts_trans (by decide) hl))
    | with_reducible apply State.withSit_within (hl := (parts_trans (by decide) hl))
    | with_reducible refine Within.when ?_ fun _ _ => ?_
    | split
    | dsimp only
    | with_reducible intro _

theorem State.islAct_within {lp : List Part} {root s : State} (h : Within lp root s) (hl : ∀ p ∈ ([.regs 0x422, .regs 0x440, .regs
    0x448, .regs 0x470, .regs 0x4e0, .outbox, .isl, .mod, .tiles, .sit, .met, .wlk, .sag, .con] : List Part), p ∈ lp) : Within lp
    root (State.islAct s) := by
  unfold State.islAct
  repeat' first
    | with_reducible assumption
    | with_reducible apply State.islManager_within (hl := (parts_trans (by decide) hl))
    | with_reducible apply State.islLocal_within (hl := (parts_trans (by decide) hl))
    | with_reducible apply State.onIsl_within (hl := (parts_trans (by decide) hl))
    | with_reducible apply Within.ite
    | split
    | dsimp only
    | with_reducible intro _

theorem State.islReport_within {lp : List Part} {root s : State} (h : Within lp root s) (hl : ∀ p ∈ ([.regs 0x448, .outbox, .sit,
    .wlk] : List Part), p ∈ lp) : Within lp root (State.islReport s) := by
  unfold State.islReport
  repeat' first
    | with_reducible assumption
    | with_reducible apply State.islManager_within (hl := (parts_trans (by decide) hl))
    | with_reducible apply Within.ite
    | split
    | dsimp only
    | with_reducible intro _

theorem State.harmStep_within {lp : List Part} {root s : State} (h : Within lp root s) (hl : ∀ p ∈ ([.isl] : List Part), p ∈ lp) :
    Within lp root (State.harmStep s) := by
  unfold State.harmStep
  repeat' first
    | with_reducible assumption
    | with_reducible apply State.onIsl_within (hl := (parts_trans (by decide) hl))
    | dsimp only
    | with_reducible intro _

theorem execIslPassiveFire_within {s out : State} (m : Fin 4) (e : execIslPassiveFire m s = .next out) : Within [.regs 0x422, .isl]
    s out := by
  cases e
  repeat' first
    | with_reducible exact Within.refl _ _
    | with_reducible assumption
    | with_reducible apply State.islDeclare_within (hl := (by decide))
    | with_reducible apply State.onIsl_within (hl := (by decide))
    | ((with_reducible apply State.put_within 0x422 (hb := (by decide))) <;> first | (rfl; done) | (dsimp only; omega) | (dsimp only [Fld.whole]; omega) | (split <;> first | (rfl; done) | (dsimp only; omega)) | show Within _ _ _)
    | with_reducible apply Within.ite
    | split
    | dsimp only
    | with_reducible intro _

theorem execIslPulseStart_within {s out : State} (e : execIslPulseStart s = .next out) : Within [.regs 0x41c, .slots, .isl] s out :=
    by
  cases e
  repeat' first
    | with_reducible exact Within.refl _ _
    | with_reducible assumption
    | with_reducible apply State.islPublish_within (hl := (by decide))
    | with_reducible apply State.onIsl_within (hl := (by decide))
    | with_reducible apply Within.ite
    | split
    | dsimp only
    | with_reducible intro _

theorem execIslPulseEnd_within {s out : State} (e : execIslPulseEnd s = .next out) : Within [.regs 0x41c, .regs 0x422, .slots, .isl]
    s out := by
  cases e
  repeat' first
    | with_reducible exact Within.refl _ _
    | with_reducible assumption
    | with_reducible apply State.islDeclare_within (hl := (by decide))
    | with_reducible apply State.islPublish_within (hl := (by decide))
    | with_reducible apply State.onIsl_within (hl := (by decide))
    | ((with_reducible apply State.put_within 0x422 (hb := (by decide))) <;> first | (rfl; done) | (dsimp only; omega) | (dsimp only [Fld.whole]; omega) | (split <;> first | (rfl; done) | (dsimp only; omega)) | show Within _ _ _)
    | with_reducible refine Within.when ?_ fun _ _ => ?_
    | with_reducible apply Within.ite
    | split
    | dsimp only
    | with_reducible intro _

theorem execIslTonePublish_within {s out : State} (e : execIslTonePublish s = .next out) : Within [.regs 0x41c, .slots] s out := by
  cases e
  repeat' first
    | with_reducible exact Within.refl _ _
    | with_reducible assumption
    | with_reducible apply State.islPut_within (hl := (by decide))
    | with_reducible refine Within.each ?_ fun _ _ _ => ?_
    | with_reducible refine Within.when ?_ fun _ _ => ?_
    | with_reducible apply Within.ite
    | split
    | dsimp only
    | with_reducible intro _

theorem execIslAnglePublish_within {s out : State} (e : execIslAnglePublish s = .next out) : Within [.regs 0x41c, .slots] s out :=
    by
  cases e
  repeat' first
    | with_reducible exact Within.refl _ _
    | with_reducible assumption
    | with_reducible apply State.islPut_within (hl := (by decide))
    | with_reducible refine Within.when ?_ fun _ _ => ?_
    | dsimp only
    | with_reducible intro _

theorem State.corrStep_within {lp : List Part} {root s : State} (h : Within lp root s) (hl : ∀ p ∈ ([.isl] : List Part), p ∈ lp) :
    Within lp root (State.corrStep s) := by
  unfold State.corrStep
  repeat' first
    | with_reducible assumption
    | with_reducible apply State.onIsl_within (hl := (parts_trans (by decide) hl))
    | with_reducible refine Within.foldl ?_ fun _ _ _ => ?_
    | dsimp only
    | with_reducible intro _

theorem State.retuneStart_within {lp : List Part} {root s : State} (h : Within lp root s) (fres : Word) (hl : ∀ p ∈ ([.isl] : List
    Part), p ∈ lp) : Within lp root (State.retuneStart s fres) := by
  unfold State.retuneStart
  repeat' first
    | with_reducible assumption
    | with_reducible apply State.onIsl_within (hl := (parts_trans (by decide) hl))
    | with_reducible apply Within.ite
    | split
    | dsimp only
    | with_reducible intro _

theorem execIslEstWindowEnd_within {s out : State} (j : Nat) (e : execIslEstWindowEnd j s = .next out) : Within [.regs 0x41c, .regs
    0x422, .slots, .isl] s out := by
  cases e
  repeat' first
    | with_reducible exact Within.refl _ _
    | with_reducible assumption
    | with_reducible apply State.retuneStart_within (hl := (by decide))
    | with_reducible apply State.islPublish_within (hl := (by decide))
    | with_reducible apply State.onIsl_within (hl := (by decide))
    | ((with_reducible apply State.put_within 0x422 (hb := (by decide))) <;> first | (rfl; done) | (dsimp only; omega) | (dsimp only [Fld.whole]; omega) | (split <;> first | (rfl; done) | (dsimp only; omega)) | show Within _ _ _)
    | with_reducible apply Within.ite
    | split
    | dsimp only
    | with_reducible intro _

theorem State.notchStore_within {lp : List Part} {root s : State} (h : Within lp root s) (ws : List Word) (hl : ∀ p ∈ ([.coef] :
    List Part), p ∈ lp) : Within lp root (State.notchStore s ws) := by
  unfold State.notchStore
  repeat' first
    | with_reducible assumption
    | with_reducible apply State.bankPut_within (hl := (parts_trans (by decide) hl))
    | with_reducible refine Within.each ?_ fun _ _ _ => ?_
    | dsimp only
    | with_reducible intro _

theorem execIslNotchWrite_within {s out : State} (e : execIslNotchWrite s = .next out) : Within [.regs 0x422, .coef, .isl] s out :=
    by
  cases e
  repeat' first
    | with_reducible exact Within.refl _ _
    | with_reducible assumption
    | with_reducible apply State.notchStore_within (hl := (by decide))
    | with_reducible apply State.onIsl_within (hl := (by decide))
    | ((with_reducible apply State.put_within 0x422 (hb := (by decide))) <;> first | (rfl; done) | (dsimp only; omega) | (dsimp only [Fld.whole]; omega) | (split <;> first | (rfl; done) | (dsimp only; omega)) | show Within _ _ _)
    | with_reducible apply Within.ite
    | split
    | dsimp only
    | with_reducible intro _

theorem State.notchSwap_within {lp : List Part} {root s : State} (h : Within lp root s) (k : Fin 8) (full : Bool) (hl : ∀ p ∈
    ([.coef, .isl] : List Part), p ∈ lp) : Within lp root (State.notchSwap s k full) := by
  unfold State.notchSwap
  repeat' first
    | with_reducible assumption
    | with_reducible apply State.onIsl_within (hl := (parts_trans (by decide) hl))
    | with_reducible apply State.bankPut_within (hl := (parts_trans (by decide) hl))
    | with_reducible refine Within.each ?_ fun _ _ _ => ?_
    | with_reducible apply Within.ite
    | split
    | dsimp only
    | with_reducible intro _

theorem execIslNotchMirror_within {s out : State} (e : execIslNotchMirror s = .next out) : Within [.regs 0x422, .coef, .isl] s out
    := by
  cases e
  repeat' first
    | with_reducible exact Within.refl _ _
    | with_reducible assumption
    | with_reducible apply State.notchStore_within (hl := (by decide))
    | with_reducible apply State.onIsl_within (hl := (by decide))
    | ((with_reducible apply State.put_within 0x422 (hb := (by decide))) <;> first | (rfl; done) | (dsimp only; omega) | (dsimp only [Fld.whole]; omega) | (split <;> first | (rfl; done) | (dsimp only; omega)) | show Within _ _ _)
    | with_reducible apply Within.ite
    | split
    | dsimp only
    | with_reducible intro _

theorem State.armList_within {lp : List Part} {root s : State} (h : Within lp root s) (l : Nat) (hl : ∀ p ∈ ([.isl] : List Part), p
    ∈ lp) : Within lp root (State.armList s l) := by
  unfold State.armList
  repeat' first
    | with_reducible assumption
    | with_reducible apply State.onIsl_within (hl := (parts_trans (by decide) hl))
    | dsimp only
    | with_reducible intro _

theorem State.clearDetOp_within {lp : List Part} {root s : State} (h : Within lp root s) (hl : ∀ p ∈ ([.regs 0x422, .isl, .sit] :
    List Part), p ∈ lp) : Within lp root (State.clearDetOp s) := by
  unfold State.clearDetOp
  repeat' first
    | with_reducible assumption
    | with_reducible apply State.onIsl_within (hl := (parts_trans (by decide) hl))
    | ((with_reducible apply State.inc_within (bf := 0x422) (mf := (hl _ (by decide)))) <;> first | (rfl; done) | (dsimp only; omega) | (dsimp only [Fld.whole]; omega) | (split <;> first | (rfl; done) | (dsimp only; omega)) | show Within _ _ _)
    | ((with_reducible apply State.put_within 0x422 (hb := (hl _ (by decide)))) <;> first | (rfl; done) | (dsimp only; omega) | (dsimp only [Fld.whole]; omega) | (split <;> first | (rfl; done) | (dsimp only; omega)) | show Within _ _ _)
    | with_reducible apply State.withSit_within (hl := (parts_trans (by decide) hl))
    | with_reducible apply Within.ite
    | split
    | dsimp only
    | with_reducible intro _

theorem islCmdOp_within {lp : List Part} {root s : State} (h : Within lp root s) (c : Nat) (hl : ∀ p ∈ ([.regs 0x422, .isl, .sit] :
    List Part), p ∈ lp) : Within lp root (islCmdOp c s) := by
  unfold islCmdOp
  repeat' first
    | with_reducible assumption
    | with_reducible apply State.clearDetOp_within (hl := (parts_trans (by decide) hl))
    | with_reducible apply State.armList_within (hl := (parts_trans (by decide) hl))
    | with_reducible apply State.islTransfer_within (hl := (parts_trans (by decide) hl))
    | split
    | dsimp only
    | with_reducible intro _

theorem State.islCmdWrite_within {lp : List Part} {root s : State} (h : Within lp root s) (c : Nat) (hl : ∀ p ∈ ([.regs 0x422,
    .held, .resp, .isl, .sit] : List Part), p ∈ lp) : Within lp root (State.islCmdWrite s c) := by
  unfold State.islCmdWrite
  repeat' first
    | with_reducible assumption
    | with_reducible apply islCmdOp_within (hl := (parts_trans (by decide) hl))
    | with_reducible apply State.access_within (hl := (parts_trans (by decide) hl))
    | dsimp only
    | with_reducible intro _

theorem execToGfm_within {s out : State} (e : execToGfm s = .next out) : Within [.regs 0x422, .held, .resp, .isl, .sit] s out := by
  cases e
  repeat' first
    | with_reducible exact Within.refl _ _
    | with_reducible assumption
    | with_reducible apply State.islCmdWrite_within (hl := (by decide))
    | dsimp only
    | with_reducible intro _

theorem execToGfl_within {s out : State} (e : execToGfl s = .next out) : Within [.regs 0x422, .held, .resp, .isl, .sit] s out := by
  cases e
  repeat' first
    | with_reducible exact Within.refl _ _
    | with_reducible assumption
    | with_reducible apply State.islCmdWrite_within (hl := (by decide))
    | dsimp only
    | with_reducible intro _

theorem execResync_within {s out : State} (e : execResync s = .next out) : Within [.regs 0x422, .held, .resp, .isl, .sit] s out :=
    by
  cases e
  repeat' first
    | with_reducible exact Within.refl _ _
    | with_reducible assumption
    | with_reducible apply State.islCmdWrite_within (hl := (by decide))
    | dsimp only
    | with_reducible intro _

theorem execPresetL2_within {s out : State} (e : execPresetL2 s = .next out) : Within [.regs 0x422, .held, .resp, .isl, .sit] s out
    := by
  cases e
  repeat' first
    | with_reducible exact Within.refl _ _
    | with_reducible assumption
    | with_reducible apply State.islCmdWrite_within (hl := (by decide))
    | dsimp only
    | with_reducible intro _

theorem execPresetL3_within {s out : State} (e : execPresetL3 s = .next out) : Within [.regs 0x422, .held, .resp, .isl, .sit] s out
    := by
  cases e
  repeat' first
    | with_reducible exact Within.refl _ _
    | with_reducible assumption
    | with_reducible apply State.islCmdWrite_within (hl := (by decide))
    | dsimp only
    | with_reducible intro _

theorem execClearDet_within {s out : State} (e : execClearDet s = .next out) : Within [.regs 0x422, .held, .resp, .isl, .sit] s out
    := by
  cases e
  repeat' first
    | with_reducible exact Within.refl _ _
    | with_reducible assumption
    | with_reducible apply State.islCmdWrite_within (hl := (by decide))
    | dsimp only
    | with_reducible intro _

theorem State.gfoStep_within {lp : List Part} {root s : State} (h : Within lp root s) (hl : ∀ p ∈ ([.isl] : List Part), p ∈ lp) :
    Within lp root (State.gfoStep s) := by
  unfold State.gfoStep
  repeat' first
    | with_reducible assumption
    | with_reducible apply State.onIsl_within (hl := (parts_trans (by decide) hl))
    | with_reducible apply Within.ite
    | split
    | dsimp only
    | with_reducible intro _

theorem State.islRamp_within {lp : List Part} {root s : State} (h : Within lp root s) (hl : ∀ p ∈ ([.regs 0x422, .isl] : List Part),
    p ∈ lp) : Within lp root (State.islRamp s) := by
  unfold State.islRamp
  repeat' first
    | with_reducible assumption
    | with_reducible apply State.onIsl_within (hl := (parts_trans (by decide) hl))
    | ((with_reducible apply State.put_within 0x422 (hb := (hl _ (by decide)))) <;> first | (rfl; done) | (dsimp only; omega) | (dsimp only [Fld.whole]; omega) | (split <;> first | (rfl; done) | (dsimp only; omega)) | show Within _ _ _)
    | with_reducible refine Within.when ?_ fun _ _ => ?_
    | with_reducible apply Within.ite
    | split
    | dsimp only
    | with_reducible intro _

theorem execIslTickPublish_within {s out : State} (e : execIslTickPublish s = .next out) : Within [.regs 0x41c, .regs 0x422, .regs
    0x440, .regs 0x448, .regs 0x470, .regs 0x4e0, .slots, .outbox, .isl, .mod, .tiles, .sit, .met, .wlk, .sag, .con] s out := by
  cases e
  repeat' first
    | with_reducible exact Within.refl _ _
    | with_reducible assumption
    | with_reducible apply State.islRamp_within (hl := (by decide))
    | with_reducible apply State.gfoStep_within (hl := (by decide))
    | with_reducible apply State.corrStep_within (hl := (by decide))
    | with_reducible apply State.harmStep_within (hl := (by decide))
    | with_reducible apply State.islAct_within (hl := (by decide))
    | with_reducible apply State.islPublish_within (hl := (by decide))
    | with_reducible apply State.onIsl_within (hl := (by decide))
    | ((with_reducible apply State.putB_within (bf := 0x422) (mf := (by decide))) <;> first | (rfl; done) | (dsimp only; omega) | (dsimp only [Fld.whole]; omega) | (split <;> first | (rfl; done) | (dsimp only; omega)) | show Within _ _ _)
    | ((with_reducible apply State.put_within 0x422 (hb := (by decide))) <;> first | (rfl; done) | (dsimp only; omega) | (dsimp only [Fld.whole]; omega) | (split <;> first | (rfl; done) | (dsimp only; omega)) | show Within _ _ _)
    | with_reducible refine Within.when ?_ fun _ _ => ?_
    | with_reducible apply Within.ite
    | split
    | dsimp only
    | with_reducible intro _

theorem State.islStart_within {lp : List Part} {root s : State} (h : Within lp root s) (k : Fin 8) (hl : ∀ p ∈ ([.isl] : List Part),
    p ∈ lp) : Within lp root (State.islStart s k) := by
  unfold State.islStart
  repeat' first
    | with_reducible assumption
    | with_reducible apply State.onIsl_within (hl := (parts_trans (by decide) hl))
    | with_reducible apply Within.ite
    | split
    | dsimp only
    | with_reducible intro _

theorem State.islAccept_within {lp : List Part} {root s : State} (h : Within lp root s) (gfm : Bool) (dAng : Int) (dMag : Word) (hl
    : ∀ p ∈ ([.regs 0x41c, .regs 0x422, .slots, .groups, .isl] : List Part), p ∈ lp) : Within lp root (State.islAccept s gfm dAng
    dMag) := by
  unfold State.islAccept
  repeat' first
    | with_reducible assumption
    | with_reducible apply State.armList_within (hl := (parts_trans (by decide) hl))
    | with_reducible apply State.islPublish_within (hl := (parts_trans (by decide) hl))
    | with_reducible apply State.onIsl_within (hl := (parts_trans (by decide) hl))
    | with_reducible apply State.swapRequest_within (hl := (parts_trans (by decide) hl))
    | ((with_reducible apply State.incWrap_within (bf := 0x422) (mf := (hl _ (by decide)))) <;> first | (rfl; done) | (dsimp only; omega) | (dsimp only [Fld.whole]; omega) | (split <;> first | (rfl; done) | (dsimp only; omega)) | show Within _ _ _)
    | ((with_reducible apply State.put_within 0x422 (hb := (hl _ (by decide)))) <;> first | (rfl; done) | (dsimp only; omega) | (dsimp only [Fld.whole]; omega) | (split <;> first | (rfl; done) | (dsimp only; omega)) | show Within _ _ _)
    | with_reducible refine Within.each ?_ fun _ _ _ => ?_
    | with_reducible refine Within.when ?_ fun _ _ => ?_
    | with_reducible apply Within.ite
    | split
    | dsimp only
    | with_reducible intro _

theorem execIslTransferDecide_within {s out : State} (e : execIslTransferDecide s = .next out) : Within [.regs 0x41c, .regs 0x422,
    .regs 0x440, .regs 0x448, .regs 0x470, .regs 0x4e0, .slots, .outbox, .groups, .isl, .mod, .tiles, .sit, .met, .sag, .con] s out
    := by
  cases e
  repeat' first
    | with_reducible exact Within.refl _ _
    | with_reducible assumption
    | with_reducible apply State.islAccept_within (hl := (by decide))
    | with_reducible apply State.onIsl_within (hl := (by decide))
    | with_reducible apply State.raiseStop_within (hl := (by decide))
    | ((with_reducible apply State.inc_within (bf := 0x422) (mf := (by decide))) <;> first | (rfl; done) | (dsimp only; omega) | (dsimp only [Fld.whole]; omega) | (split <;> first | (rfl; done) | (dsimp only; omega)) | show Within _ _ _)
    | ((with_reducible apply State.put_within 0x422 (hb := (by decide))) <;> first | (rfl; done) | (dsimp only; omega) | (dsimp only [Fld.whole]; omega) | (split <;> first | (rfl; done) | (dsimp only; omega)) | show Within _ _ _)
    | with_reducible apply Within.ite
    | split
    | dsimp only
    | with_reducible intro _

theorem execIslSyncOk_within {s out : State} (e : execIslSyncOk s = .next out) : Within [.regs 0x422] s out := by
  cases e
  repeat' first
    | with_reducible exact Within.refl _ _
    | with_reducible assumption
    | ((with_reducible apply State.put_within 0x422 (hb := (by decide))) <;> first | (rfl; done) | (dsimp only; omega) | (dsimp only [Fld.whole]; omega) | (split <;> first | (rfl; done) | (dsimp only; omega)) | show Within _ _ _)
    | with_reducible refine Within.when ?_ fun _ _ => ?_
    | dsimp only
    | with_reducible intro _

theorem execIslDeferExpiry_within {s out : State} (e : execIslDeferExpiry s = .next out) : Within [.regs 0x422, .regs 0x440, .regs
    0x448, .regs 0x470, .regs 0x4e0, .outbox, .isl, .mod, .tiles, .sit, .met, .sag, .con] s out := by
  cases e
  repeat' first
    | with_reducible exact Within.refl _ _
    | with_reducible assumption
    | with_reducible apply State.islLocal_within (hl := (by decide))
    | with_reducible apply State.onIsl_within (hl := (by decide))
    | with_reducible apply Within.ite
    | split
    | dsimp only
    | with_reducible intro _

theorem State.islFromManager_within {lp : List Part} {root s : State} (h : Within lp root s) (c : Nat) (hl : ∀ p ∈ ([.regs 0x422,
    .isl] : List Part), p ∈ lp) : Within lp root (State.islFromManager s c) := by
  unfold State.islFromManager
  repeat' first
    | with_reducible assumption
    | with_reducible apply State.islTransfer_within (hl := (parts_trans (by decide) hl))
    | with_reducible apply State.onIsl_within (hl := (parts_trans (by decide) hl))
    | ((with_reducible apply State.put_within 0x422 (hb := (hl _ (by decide)))) <;> first | (rfl; done) | (dsimp only; omega) | (dsimp only [Fld.whole]; omega) | (split <;> first | (rfl; done) | (dsimp only; omega)) | show Within _ _ _)
    | with_reducible refine Within.when ?_ fun _ _ => ?_
    | with_reducible apply Within.ite
    | split
    | dsimp only
    | with_reducible intro _

theorem State.islAdvance_within {lp : List Part} {root s : State} (h : Within lp root s) (cycles : Nat) (hl : ∀ p ∈ ([.isl] : List
    Part), p ∈ lp) : Within lp root (State.islAdvance s cycles) := by
  unfold State.islAdvance
  repeat' first
    | with_reducible assumption
    | with_reducible apply State.onIsl_within (hl := (parts_trans (by decide) hl))
    | with_reducible refine Within.when ?_ fun _ _ => ?_
    | dsimp only
    | with_reducible intro _

end Sys2Proof.Machine
end

