-- ==== Sys2Proof/Laws/WithinDci.lean ====
section
/-!
SUPPORT. The parts of the state that each operation of Machine/Dci.lean may change.
-/

namespace Sys2Proof.Machine

open Sys2Proof

set_option linter.all false

theorem State.onLeg_within {lp : List Part} {root s : State} (h : Within lp root s) (l : Fin 6) (f : DciLeg → DciLeg) (hl : ∀ p ∈
    ([.dci] : List Part), p ∈ lp) : Within lp root (State.onLeg s l f) := by
  unfold State.onLeg
  repeat' first
    | with_reducible assumption
    | with_reducible apply State.withDci_within (hl := (parts_trans (by decide) hl))
    | dsimp only
    | with_reducible intro _

theorem State.setSweep_within {lp : List Part} {root s : State} (h : Within lp root s) (w : Option Sweep) (hl : ∀ p ∈ ([.dci] : List
    Part), p ∈ lp) : Within lp root (State.setSweep s w) := by
  unfold State.setSweep
  repeat' first
    | with_reducible assumption
    | with_reducible apply State.withDci_within (hl := (parts_trans (by decide) hl))
    | dsimp only
    | with_reducible intro _

theorem State.dciStart_within {lp : List Part} {root s : State} (h : Within lp root s) (k : Fin 8) (hl : ∀ p ∈ ([.dci] : List Part),
    p ∈ lp) : Within lp root (State.dciStart s k) := by
  unfold State.dciStart
  repeat' first
    | with_reducible assumption
    | with_reducible apply State.onLeg_within (hl := (parts_trans (by decide) hl))
    | with_reducible apply State.withDci_within (hl := (parts_trans (by decide) hl))
    | with_reducible refine Within.each ?_ fun _ _ _ => ?_
    | with_reducible refine Within.when ?_ fun _ _ => ?_
    | with_reducible apply Within.ite
    | split
    | dsimp only
    | with_reducible intro _

theorem State.sweepRequest_within {lp : List Part} {root s : State} (h : Within lp root s) (l : Fin 6) (hl : ∀ p ∈ ([.regs 0x423] :
    List Part), p ∈ lp) : Within lp root (State.sweepRequest s l) := by
  unfold State.sweepRequest
  repeat' first
    | with_reducible assumption
    | ((with_reducible apply State.inc_within (bf := 0x423) (mf := (hl _ (by decide)))) <;> first | (rfl; done) | (dsimp only; omega) | (dsimp only [Fld.whole]; omega) | (split <;> first | (rfl; done) | (dsimp only; omega)) | show Within _ _ _)
    | ((with_reducible apply State.put_within 0x423 (hb := (hl _ (by decide)))) <;> first | (rfl; done) | (dsimp only; omega) | (dsimp only [Fld.whole]; omega) | (split <;> first | (rfl; done) | (dsimp only; omega)) | show Within _ _ _)
    | with_reducible apply Within.ite
    | split
    | dsimp only
    | with_reducible intro _

theorem dciSweepRequestOp_within {lp : List Part} {root s : State} (h : Within lp root s) (l : Fin 6) (hl : ∀ p ∈ ([.regs 0x423] :
    List Part), p ∈ lp) : Within lp root (dciSweepRequestOp l s) := by
  unfold dciSweepRequestOp
  repeat' first
    | with_reducible assumption
    | with_reducible apply State.sweepRequest_within (hl := (parts_trans (by decide) hl))
    | dsimp only
    | with_reducible intro _

theorem execDciSweepRequest_within {s out : State} (l : Fin 6) (e : execDciSweepRequest l s = .next out) : Within [.regs 0x423,
    .held, .resp] s out := by
  cases e
  repeat' first
    | with_reducible exact Within.refl _ _
    | with_reducible assumption
    | with_reducible apply dciSweepRequestOp_within (hl := (by decide))
    | with_reducible apply State.access_within (hl := (by decide))
    | dsimp only
    | with_reducible intro _

theorem execDciSweepTimer_within {s out : State} (l : Fin 6) (e : execDciSweepTimer l s = .next out) : Within [.regs 0x423] s out :=
    by
  cases e
  repeat' first
    | with_reducible exact Within.refl _ _
    | with_reducible assumption
    | with_reducible apply State.sweepRequest_within (hl := (by decide))
    | with_reducible refine Within.when ?_ fun _ _ => ?_
    | dsimp only
    | with_reducible intro _

theorem State.legBlock_within {lp : List Part} {root s : State} (h : Within lp root s) (l : Fin 6) (b : List (Word × Word)) (hl : ∀
    p ∈ ([.regs 0x423, .dci] : List Part), p ∈ lp) : Within lp root (State.legBlock s l b) := by
  unfold State.legBlock
  repeat' first
    | with_reducible assumption
    | with_reducible apply State.sweepRequest_within (hl := (parts_trans (by decide) hl))
    | with_reducible apply State.onLeg_within (hl := (parts_trans (by decide) hl))
    | ((with_reducible apply State.putB_within (bf := 0x423) (mf := (hl _ (by decide)))) <;> first | (rfl; done) | (dsimp only; omega) | (dsimp only [Fld.whole]; omega) | (split <;> first | (rfl; done) | (dsimp only; omega)) | show Within _ _ _)
    | with_reducible refine Within.when ?_ fun _ _ => ?_
    | with_reducible refine Within.foldl ?_ fun _ _ _ => ?_
    | with_reducible apply Within.ite
    | split
    | dsimp only
    | with_reducible intro _

theorem State.legAverage_within {lp : List Part} {root s : State} (h : Within lp root s) (l : Fin 6) (hl : ∀ p ∈ ([.regs 0x423,
    .dci] : List Part), p ∈ lp) : Within lp root (State.legAverage s l) := by
  unfold State.legAverage
  repeat' first
    | with_reducible assumption
    | with_reducible apply State.legBlock_within (hl := (parts_trans (by decide) hl))
    | with_reducible apply State.onLeg_within (hl := (parts_trans (by decide) hl))
    | with_reducible apply Within.ite
    | split
    | dsimp only
    | with_reducible intro _

theorem State.legWindow_within {lp : List Part} {root s : State} (h : Within lp root s) (l : Fin 6) (hl : ∀ p ∈ ([.dci] : List
    Part), p ∈ lp) : Within lp root (State.legWindow s l) := by
  unfold State.legWindow
  repeat' first
    | with_reducible assumption
    | with_reducible apply State.onLeg_within (hl := (parts_trans (by decide) hl))
    | with_reducible refine Within.when ?_ fun _ _ => ?_
    | with_reducible apply Within.ite
    | split
    | dsimp only
    | with_reducible intro _

theorem State.sweepEnd_within {lp : List Part} {root s : State} (h : Within lp root s) (l : Fin 6) (hl : ∀ p ∈ ([.regs 0x423, .dci]
    : List Part), p ∈ lp) : Within lp root (State.sweepEnd s l) := by
  unfold State.sweepEnd
  repeat' first
    | with_reducible assumption
    | with_reducible apply State.setSweep_within (hl := (parts_trans (by decide) hl))
    | ((with_reducible apply State.put_within 0x423 (hb := (hl _ (by decide)))) <;> first | (rfl; done) | (dsimp only; omega) | (dsimp only [Fld.whole]; omega) | (split <;> first | (rfl; done) | (dsimp only; omega)) | show Within _ _ _)
    | dsimp only
    | with_reducible intro _

theorem State.sweepAborted_within {lp : List Part} {root s : State} (h : Within lp root s) (w : Sweep) (hl : ∀ p ∈ ([.regs 0x423] :
    List Part), p ∈ lp) : Within lp root (State.sweepAborted s w) := by
  unfold State.sweepAborted
  repeat' first
    | with_reducible assumption
    | ((with_reducible apply State.inc_within (bf := 0x423) (mf := (hl _ (by decide)))) <;> first | (rfl; done) | (dsimp only; omega) | (dsimp only [Fld.whole]; omega) | (split <;> first | (rfl; done) | (dsimp only; omega)) | show Within _ _ _)
    | ((with_reducible apply State.put_within 0x423 (hb := (hl _ (by decide)))) <;> first | (rfl; done) | (dsimp only; omega) | (dsimp only [Fld.whole]; omega) | (split <;> first | (rfl; done) | (dsimp only; omega)) | show Within _ _ _)
    | dsimp only
    | with_reducible intro _

theorem State.sweepUpdate_within {lp : List Part} {root s : State} (h : Within lp root s) (hl : ∀ p ∈ ([.regs 0x423, .dci] : List
    Part), p ∈ lp) : Within lp root (State.sweepUpdate s) := by
  unfold State.sweepUpdate
  repeat' first
    | with_reducible assumption
    | with_reducible apply State.sweepAborted_within (hl := (parts_trans (by decide) hl))
    | with_reducible apply State.sweepEnd_within (hl := (parts_trans (by decide) hl))
    | with_reducible apply State.setSweep_within (hl := (parts_trans (by decide) hl))
    | with_reducible apply Within.ite
    | split
    | dsimp only
    | with_reducible intro _

theorem State.dciPut_within {lp : List Part} {root s : State} (h : Within lp root s) (j : Nat) (v : Word) (hl : ∀ p ∈ ([.regs 0x41c,
    .slots] : List Part), p ∈ lp) : Within lp root (State.dciPut s j v) := by
  unfold State.dciPut
  repeat' first
    | with_reducible assumption
    | with_reducible apply State.publishBy_within (hl := (parts_trans (by decide) hl))
    | dsimp only
    | with_reducible intro _

theorem State.legPublish_within {lp : List Part} {root s : State} (h : Within lp root s) (l : Fin 6) (hl : ∀ p ∈ ([.regs 0x41c,
    .slots, .dci] : List Part), p ∈ lp) : Within lp root (State.legPublish s l) := by
  unfold State.legPublish
  repeat' first
    | with_reducible assumption
    | with_reducible apply State.dciPut_within (hl := (parts_trans (by decide) hl))
    | with_reducible apply State.onLeg_within (hl := (parts_trans (by decide) hl))
    | with_reducible refine Within.each ?_ fun _ _ _ => ?_
    | with_reducible apply Within.ite
    | split
    | dsimp only
    | with_reducible intro _

theorem State.dciCommon_within {lp : List Part} {root s : State} (h : Within lp root s) (hl : ∀ p ∈ ([.regs 0x41c, .slots] : List
    Part), p ∈ lp) : Within lp root (State.dciCommon s) := by
  unfold State.dciCommon
  repeat' first
    | with_reducible assumption
    | with_reducible apply State.dciPut_within (hl := (parts_trans (by decide) hl))
    | dsimp only
    | with_reducible intro _

theorem execDciPublish_within {s out : State} (e : execDciPublish s = .next out) : Within [.regs 0x41c, .regs 0x423, .slots, .dci] s
    out := by
  cases e
  repeat' first
    | with_reducible exact Within.refl _ _
    | with_reducible assumption
    | with_reducible apply State.dciCommon_within (hl := (by decide))
    | with_reducible apply State.legPublish_within (hl := (by decide))
    | with_reducible apply State.sweepUpdate_within (hl := (by decide))
    | with_reducible apply State.legWindow_within (hl := (by decide))
    | with_reducible apply State.legAverage_within (hl := (by decide))
    | with_reducible apply State.withDci_within (hl := (by decide))
    | with_reducible refine Within.each ?_ fun _ _ _ => ?_
    | with_reducible apply Within.ite
    | split
    | dsimp only
    | with_reducible intro _

theorem execDciSweepWindowStart_within {s out : State} (e : execDciSweepWindowStart s = .next out) : Within [.regs 0x423, .dci] s
    out := by
  cases e
  repeat' first
    | with_reducible exact Within.refl _ _
    | with_reducible assumption
    | with_reducible apply State.setSweep_within (hl := (by decide))
    | ((with_reducible apply State.put_within 0x423 (hb := (by decide))) <;> first | (rfl; done) | (dsimp only; omega) | (dsimp only [Fld.whole]; omega) | (split <;> first | (rfl; done) | (dsimp only; omega)) | show Within _ _ _)
    | with_reducible apply Within.ite
    | split
    | dsimp only
    | with_reducible intro _

theorem execDciSweepPoint_within {s out : State} (e : execDciSweepPoint s = .next out) : Within [.regs 0x423, .dci] s out := by
  have hp : ∀ w : Sweep, w.point < 256 := fun w => Nat.mod_lt _ (by decide)
  cases e
  split
  · exact Within.refl _ _
  · rename_i w _
    have hw := hp w
    have hl := w.leg.isLt
    have k1 : Within [.regs 0x423, .dci] s ((s.put (DCI_CURVE_V w.leg.val w.point) (fmean ((w.meas.take (s.get DCI_SWP_CFG_DWELL / 2)).map (·.1))).toNat).put
        (DCI_CURVE_I w.leg.val w.point) (fmean ((w.meas.take (s.get DCI_SWP_CFG_DWELL / 2)).map (·.2))).toNat) :=
      State.put_within 0x423 (State.put_within 0x423 (Within.refl _ _) (by dsimp only; omega) (by decide)) (by dsimp only; omega) (by decide)
    repeat' first
      | with_reducible exact Within.refl _ _
      | with_reducible assumption
      | with_reducible apply State.setSweep_within (hl := (by decide))
      | ((with_reducible apply State.put_within 0x423 (hb := (by decide))) <;> first | (rfl; done) | (dsimp only; omega) | (dsimp only [Fld.whole]; omega) | (split <;> first | (rfl; done) | (dsimp only; omega)) | show Within _ _ _)
      | with_reducible apply Within.ite
      | split
      | dsimp only
      | with_reducible intro _

theorem execDciSweepDone_within {s out : State} (e : execDciSweepDone s = .next out) : Within [.regs 0x423, .dci] s out := by
  cases e
  repeat' first
    | with_reducible exact Within.refl _ _
    | with_reducible assumption
    | with_reducible apply State.sweepEnd_within (hl := (by decide))
    | with_reducible apply State.onLeg_within (hl := (by decide))
    | ((with_reducible apply State.incWrap_within (bf := 0x423) (mf := (by decide))) <;> first | (rfl; done) | (dsimp only; omega) | (dsimp only [Fld.whole]; omega) | (split <;> first | (rfl; done) | (dsimp only; omega)) | show Within _ _ _)
    | ((with_reducible apply State.put_within 0x423 (hb := (by decide))) <;> first | (rfl; done) | (dsimp only; omega) | (dsimp only [Fld.whole]; omega) | (split <;> first | (rfl; done) | (dsimp only; omega)) | show Within _ _ _)
    | with_reducible apply Within.ite
    | split
    | dsimp only
    | with_reducible intro _

theorem State.sweepBack_within {lp : List Part} {root s : State} (h : Within lp root s) (w : Sweep) (hl : ∀ p ∈ ([.regs 0x423, .dci]
    : List Part), p ∈ lp) : Within lp root (State.sweepBack s w) := by
  unfold State.sweepBack
  repeat' first
    | with_reducible assumption
    | with_reducible apply State.sweepAborted_within (hl := (parts_trans (by decide) hl))
    | with_reducible apply State.setSweep_within (hl := (parts_trans (by decide) hl))
    | dsimp only
    | with_reducible intro _

theorem execDciSweepAbort_within {s out : State} (e : execDciSweepAbort s = .next out) : Within [.regs 0x423, .dci] s out := by
  cases e
  repeat' first
    | with_reducible exact Within.refl _ _
    | with_reducible assumption
    | with_reducible apply State.sweepBack_within (hl := (by decide))
    | ((with_reducible apply State.put_within 0x423 (hb := (by decide))) <;> first | (rfl; done) | (dsimp only; omega) | (dsimp only [Fld.whole]; omega) | (split <;> first | (rfl; done) | (dsimp only; omega)) | show Within _ _ _)
    | with_reducible apply Within.ite
    | split
    | dsimp only
    | with_reducible intro _

theorem dciAbortOp_within {lp : List Part} {root s : State} (h : Within lp root s) (hl : ∀ p ∈ ([.regs 0x423, .dci] : List Part), p
    ∈ lp) : Within lp root (dciAbortOp s) := by
  unfold dciAbortOp
  repeat' first
    | with_reducible assumption
    | with_reducible apply State.sweepBack_within (hl := (parts_trans (by decide) hl))
    | with_reducible apply Within.ite
    | split
    | dsimp only
    | with_reducible intro _

theorem execDciAbort_within {s out : State} (e : execDciAbort s = .next out) : Within [.regs 0x423, .held, .resp, .dci] s out := by
  cases e
  repeat' first
    | with_reducible exact Within.refl _ _
    | with_reducible assumption
    | with_reducible apply dciAbortOp_within (hl := (by decide))
    | with_reducible apply State.access_within (hl := (by decide))
    | dsimp only
    | with_reducible intro _

theorem execDciReturnDone_within {s out : State} (e : execDciReturnDone s = .next out) : Within [.regs 0x423, .dci] s out := by
  cases e
  repeat' first
    | with_reducible exact Within.refl _ _
    | with_reducible assumption
    | with_reducible apply State.sweepEnd_within (hl := (by decide))
    | with_reducible apply Within.ite
    | split
    | dsimp only
    | with_reducible intro _

theorem execDciOutWin_within {s out : State} (l : Fin 6) (e : execDciOutWin l s = .next out) : Within [.regs 0x423, .regs 0x440,
    .regs 0x448, .regs 0x470, .regs 0x4e0, .outbox, .dci, .mod, .tiles, .sit, .met, .sag, .con] s out := by
  cases e
  repeat' first
    | with_reducible exact Within.refl _ _
    | with_reducible assumption
    | with_reducible apply State.onLeg_within (hl := (by decide))
    | with_reducible apply State.raiseStop_within (hl := (by decide))
    | ((with_reducible apply State.putB_within (bf := 0x423) (mf := (by decide))) <;> first | (rfl; done) | (dsimp only; omega) | (dsimp only [Fld.whole]; omega) | (split <;> first | (rfl; done) | (dsimp only; omega)) | show Within _ _ _)
    | with_reducible refine Within.when ?_ fun _ _ => ?_
    | with_reducible apply Within.ite
    | split
    | dsimp only
    | with_reducible intro _

end Sys2Proof.Machine
end

