-- ==== Sys2Proof/Laws/WithinWheel.lean ====
section
/-!
SUPPORT. The parts of the state that each operation of Machine/Wheel.lean may change.
-/

namespace Sys2Proof.Machine

open Sys2Proof

set_option linter.all false

theorem State.issue_within {lp : List Part} {root s : State} (h : Within lp root s) (w : Fin 64) (p : Fin 16) (cycles : Nat) (f :
    State → State) (hf : ∀ u0, Within lp root u0 → Within lp root (f u0)) (hl : ∀ p ∈ ([.wheels] : List Part), p ∈ lp) : Within lp
    root (State.issue s w p cycles f) := by
  unfold State.issue
  repeat' first
    | with_reducible assumption
    | with_reducible apply hf
    | with_reducible apply State.onWheel_within (hl := (parts_trans (by decide) hl))
    | with_reducible apply Within.ite
    | split
    | dsimp only
    | with_reducible intro _

theorem State.issueVal_within {lp : List Part} {root s : State} (h : Within lp root s) (w : Fin 64) (p : Fin 16) (cycles : Nat) (d :
    Fin 64) (f : Wheel → Word × Nat) (hl : ∀ p ∈ ([.wheels] : List Part), p ∈ lp) : Within lp root (State.issueVal s w p cycles d f)
    := by
  unfold State.issueVal
  repeat' first
    | with_reducible assumption
    | with_reducible apply State.issue_within (hl := (parts_trans (by decide) hl))
    | with_reducible apply State.onWheel_within (hl := (parts_trans (by decide) hl))
    | dsimp only
    | with_reducible intro _

theorem State.issuePred_within {lp : List Part} {root s : State} (h : Within lp root s) (w : Fin 64) (p : Fin 16) (u : Fin 4) (f :
    Wheel → Bool) (hl : ∀ p ∈ ([.wheels] : List Part), p ∈ lp) : Within lp root (State.issuePred s w p u f) := by
  unfold State.issuePred
  repeat' first
    | with_reducible assumption
    | with_reducible apply State.issue_within (hl := (parts_trans (by decide) hl))
    | with_reducible apply State.onWheel_within (hl := (parts_trans (by decide) hl))
    | dsimp only
    | with_reducible intro _

theorem State.issueInteg_within {lp : List Part} {root s : State} (h : Within lp root s) (w : Fin 64) (p : Fin 16) (u : Fin 4) (d :
    Option (Fin 64)) (mask : Nat) (f : Wheel → Word → Integ → Integ × Nat) (hl : ∀ p ∈ ([.wheels] : List Part), p ∈ lp) : Within lp
    root (State.issueInteg s w p u d mask f) := by
  unfold State.issueInteg
  repeat' first
    | with_reducible assumption
    | with_reducible apply State.issue_within (hl := (parts_trans (by decide) hl))
    | with_reducible apply State.onWheel_within (hl := (parts_trans (by decide) hl))
    | split
    | dsimp only
    | with_reducible intro _

end Sys2Proof.Machine
end

