-- ==== Sys2Proof/Laws/WithinWheelIsa.lean ====
section
/-!
SUPPORT. The parts of the state that each operation of Machine/WheelIsa.lean may change.
-/

namespace Sys2Proof.Machine

open Sys2Proof

set_option linter.all false

theorem execNop_within {s out : State} (w : Fin 64) (p : Fin 16) (e : execNop w p s = .next out) : Within [.wheels] s out := by
  cases e
  exact State.issue_within (Within.refl _ _) _ _ _ _ (fun _ k => k) (by decide)

theorem execEndP_within {s out : State} (w : Fin 64) (p : Fin 16) (e : execEndP w p s = .next out) : Within [.wheels] s out := by
  cases e
  repeat' first
    | with_reducible exact Within.refl _ _
    | with_reducible assumption
    | with_reducible apply State.issue_within (hl := (by decide))
    | with_reducible apply State.onWheel_within (hl := (by decide))
    | dsimp only
    | with_reducible intro _

theorem execMov_within {s out : State} (w : Fin 64) (p : Fin 16) (d : Fin 64) (a : Opnd) (e : execMov w p d a s = .next out) :
    Within [.wheels] s out := by
  cases e
  repeat' first
    | with_reducible exact Within.refl _ _
    | with_reducible assumption
    | with_reducible apply State.issueVal_within (hl := (by decide))
    | dsimp only
    | with_reducible intro _

theorem execGetf_within {s out : State} (w : Fin 64) (p : Fin 16) (d : Fin 64) (e : execGetf w p d s = .next out) : Within [.wheels]
    s out := by
  cases e
  repeat' first
    | with_reducible exact Within.refl _ _
    | with_reducible assumption
    | with_reducible apply State.issueVal_within (hl := (by decide))
    | dsimp only
    | with_reducible intro _

theorem execCyc_within {s out : State} (w : Fin 64) (p : Fin 16) (d : Fin 64) (e : execCyc w p d s = .next out) : Within [.wheels] s
    out := by
  cases e
  repeat' first
    | with_reducible exact Within.refl _ _
    | with_reducible assumption
    | with_reducible apply State.issueVal_within (hl := (by decide))
    | dsimp only
    | with_reducible intro _

theorem execPset_within {s out : State} (w : Fin 64) (p : Fin 16) (u : Fin 4) (f : PFun) (a b : Fin 4) (e : execPset w p u f a b s =
    .next out) : Within [.wheels] s out := by
  cases e
  repeat' first
    | with_reducible exact Within.refl _ _
    | with_reducible assumption
    | with_reducible apply State.issuePred_within (hl := (by decide))
    | dsimp only
    | with_reducible intro _

theorem execLds_within {s out : State} (w : Fin 64) (p : Fin 16) (d : Fin 64) (e : Ixd 12) (e : execLds w p d e s = .next out) :
    Within [.wheels] s out := by
  cases e
  repeat' first
    | with_reducible exact Within.refl _ _
    | with_reducible assumption
    | with_reducible apply State.issueVal_within (hl := (by decide))
    | dsimp only
    | with_reducible intro _

theorem execLdf_within {s out : State} (w : Fin 64) (p : Fin 16) (d : Fin 64) (e : Ixd 12) (e : execLdf w p d e s = .next out) :
    Within [.wheels] s out := by
  cases e
  extract_lets +onlyGivenNames -underBinder k done
  split
  · skip
    repeat' first
      | with_reducible exact Within.refl _ _
      | with_reducible assumption
      | with_reducible apply State.issueVal_within (hl := (by decide))
      | with_reducible apply State.onWheel_within (hl := (by decide))
      | with_reducible apply Within.ite
      | split
      | dsimp only
      | with_reducible intro _
  · skip
    refine Within.ite ?_ ?_
    · skip
      repeat' first
        | with_reducible exact Within.refl _ _
        | with_reducible assumption
        | with_reducible apply State.issueVal_within (hl := (by decide))
        | with_reducible apply State.onWheel_within (hl := (by decide))
        | with_reducible apply Within.ite
        | split
        | dsimp only
        | with_reducible intro _
    · skip
      refine Within.ite ?_ ?_
      · skip
        repeat' first
          | with_reducible exact Within.refl _ _
          | with_reducible assumption
          | with_reducible apply State.issueVal_within (hl := (by decide))
          | with_reducible apply State.onWheel_within (hl := (by decide))
          | with_reducible apply Within.ite
          | split
          | dsimp only
          | with_reducible intro _
      · skip
        repeat' first
          | with_reducible exact Within.refl _ _
          | with_reducible assumption
          | with_reducible apply State.issueVal_within (hl := (by decide))
          | with_reducible apply State.onWheel_within (hl := (by decide))
          | with_reducible apply Within.ite
          | split
          | dsimp only
          | with_reducible intro _

theorem execFreshReadReturn_within {s out : State} (w : Fin 64) (c : Nat) (e : execFreshReadReturn w c s = .next out) : Within
    [.wheels] s out := by
  cases e
  repeat' first
    | with_reducible exact Within.refl _ _
    | with_reducible assumption
    | with_reducible apply State.onWheel_within (hl := (by decide))
    | with_reducible refine Within.when ?_ fun _ _ => ?_
    | split
    | dsimp only
    | with_reducible intro _

theorem execFreshReadTimeout_within {s out : State} (w : Fin 64) (e : execFreshReadTimeout w s = .next out) : Within [.regs 0x41c,
    .wheels] s out := by
  cases e
  repeat' first
    | with_reducible exact Within.refl _ _
    | with_reducible assumption
    | with_reducible apply State.onWheel_within (hl := (by decide))
    | ((with_reducible apply State.put_within 0x41c (hb := (by decide))) <;> first | (rfl; done) | (dsimp only; omega) | (dsimp only [Fld.whole]; omega) | (split <;> first | (rfl; done) | (dsimp only; omega)) | show Within _ _ _)
    | with_reducible apply Within.ite
    | split
    | dsimp only
    | with_reducible intro _

theorem execSts_within {s out : State} (w : Fin 64) (p : Fin 16) (a : Fin 64) (e : Ixd 12) (e : execSts w p a e s = .next out) :
    Within [.regs 0x41c, .wheels, .groups] s out := by
  cases e
  repeat' first
    | with_reducible exact Within.refl _ _
    | with_reducible assumption
    | with_reducible apply State.issue_within (hl := (by decide))
    | with_reducible apply State.onGroup_within (hl := (by decide))
    | ((with_reducible apply State.inc_within (bf := 0x41c) (mf := (by decide))) <;> first | (rfl; done) | (dsimp only; omega) | (dsimp only [Fld.whole]; omega) | (split <;> first | (rfl; done) | (dsimp only; omega)) | show Within _ _ _)
    | with_reducible apply Within.ite
    | split
    | dsimp only
    | with_reducible intro _

theorem execLdc_within {s out : State} (w : Fin 64) (p : Fin 16) (d : Fin 64) (e : Ixd 10) (e : execLdc w p d e s = .next out) :
    Within [.wheels] s out := by
  cases e
  repeat' first
    | with_reducible exact Within.refl _ _
    | with_reducible assumption
    | with_reducible apply State.issueVal_within (hl := (by decide))
    | dsimp only
    | with_reducible intro _

theorem State.startCore_within {lp : List Part} {root s : State} (h : Within lp root s) (g : Fin 8) (cyc : Nat) (n : Fin 16) (hl : ∀
    p ∈ ([.regs 0x460, .groups, .adcs] : List Part), p ∈ lp) : Within lp root (State.startCore s g cyc n) := by
  unfold State.startCore
  repeat' first
    | with_reducible assumption
    | with_reducible apply State.startBit_within (hl := (parts_trans (by decide) hl))
    | with_reducible apply State.onGroup_within (hl := (parts_trans (by decide) hl))
    | with_reducible apply Within.ite
    | split
    | dsimp only
    | with_reducible intro _

theorem execAdcs_within {s out : State} (w : Fin 64) (p : Fin 16) (m : BitVec 16) (e : execAdcs w p m s = .next out) : Within [.regs
    0x460, .wheels, .groups, .adcs] s out := by
  cases e
  repeat' first
    | with_reducible exact Within.refl _ _
    | with_reducible assumption
    | with_reducible apply State.startCore_within (hl := (by decide))
    | with_reducible apply State.issue_within (hl := (by decide))
    | with_reducible refine Within.each ?_ fun _ _ _ => ?_
    | dsimp only
    | with_reducible intro _

theorem execPost_within {s out : State} (w : Fin 64) (p : Fin 16) (a : Fin 64) (tag : BitVec 16) (e : execPost w p a tag s = .next
    out) : Within [.regs 0x410, .regs 0x411, .regs 0x412, .regs 0x413, .regs 0x41c, .fab, .wheels] s out := by
  cases e
  repeat' first
    | with_reducible exact Within.refl _ _
    | with_reducible assumption
    | with_reducible apply State.issue_within (hl := (by decide))
    | with_reducible apply State.onWheel_within (hl := (by decide))
    | ((with_reducible apply State.inc_within (bf := 0x41c) (mf := (by decide))) <;> first | (rfl; done) | (dsimp only; omega) | (dsimp only [Fld.whole]; omega) | (split <;> first | (rfl; done) | (dsimp only; omega)) | show Within _ _ _)
    | ((with_reducible apply State.put_within _ (hf := rfl)) <;> first | exact Part.whl (by decide) (by dsimp only; omega) | show Within _ _ _)
    | ((with_reducible apply State.put_within 0x41c (hb := (by decide))) <;> first | (rfl; done) | (dsimp only; omega) | (dsimp only [Fld.whole]; omega) | (split <;> first | (rfl; done) | (dsimp only; omega)) | show Within _ _ _)
    | with_reducible apply State.withFab_within (hl := (by decide))
    | with_reducible refine Within.when ?_ fun _ _ => ?_
    | with_reducible apply Within.ite
    | split
    | dsimp only
    | with_reducible intro _

theorem execLoop_within {s out : State} (w : Fin 64) (p : Fin 16) (a : Option (Fin 64)) (max : BitVec 8) (lend : BitVec 9) (e :
    execLoop w p a max lend s = .next out) : Within [.wheels] s out := by
  cases e
  repeat' first
    | with_reducible exact Within.refl _ _
    | with_reducible assumption
    | with_reducible apply State.onWheel_within (hl := (by decide))
    | with_reducible apply Within.ite
    | split
    | dsimp only
    | with_reducible intro _

theorem execBrf_within {s out : State} (w : Fin 64) (p : Fin 16) (t : BitVec 9) (e : execBrf w p t s = .next out) : Within [.wheels]
    s out := by
  cases e
  repeat' first
    | with_reducible exact Within.refl _ _
    | with_reducible assumption
    | with_reducible apply State.onWheel_within (hl := (by decide))
    | with_reducible apply Within.ite
    | split
    | dsimp only
    | with_reducible intro _

theorem execFadd_within {s out : State} (w : Fin 64) (p : Fin 16) (d a : Fin 64) (b : Opnd) (e : execFadd w p d a b s = .next out) :
    Within [.wheels] s out := by
  cases e
  repeat' first
    | with_reducible exact Within.refl _ _
    | with_reducible assumption
    | with_reducible apply State.issueVal_within (hl := (by decide))
    | dsimp only
    | with_reducible intro _

theorem execFsub_within {s out : State} (w : Fin 64) (p : Fin 16) (d a : Fin 64) (b : Opnd) (e : execFsub w p d a b s = .next out) :
    Within [.wheels] s out := by
  cases e
  repeat' first
    | with_reducible exact Within.refl _ _
    | with_reducible assumption
    | with_reducible apply State.issueVal_within (hl := (by decide))
    | dsimp only
    | with_reducible intro _

theorem execFmul_within {s out : State} (w : Fin 64) (p : Fin 16) (d a : Fin 64) (b : Opnd) (e : execFmul w p d a b s = .next out) :
    Within [.wheels] s out := by
  cases e
  repeat' first
    | with_reducible exact Within.refl _ _
    | with_reducible assumption
    | with_reducible apply State.issueVal_within (hl := (by decide))
    | dsimp only
    | with_reducible intro _

theorem execFma_within {s out : State} (w : Fin 64) (p : Fin 16) (d a b c : Fin 64) (e : execFma w p d a b c s = .next out) : Within
    [.wheels] s out := by
  cases e
  repeat' first
    | with_reducible exact Within.refl _ _
    | with_reducible assumption
    | with_reducible apply State.issueVal_within (hl := (by decide))
    | dsimp only
    | with_reducible intro _

theorem execFms_within {s out : State} (w : Fin 64) (p : Fin 16) (d a b c : Fin 64) (e : execFms w p d a b c s = .next out) : Within
    [.wheels] s out := by
  cases e
  repeat' first
    | with_reducible exact Within.refl _ _
    | with_reducible assumption
    | with_reducible apply State.issueVal_within (hl := (by decide))
    | dsimp only
    | with_reducible intro _

theorem execFmin_within {s out : State} (w : Fin 64) (p : Fin 16) (d a : Fin 64) (b : Opnd) (e : execFmin w p d a b s = .next out) :
    Within [.wheels] s out := by
  cases e
  repeat' first
    | with_reducible exact Within.refl _ _
    | with_reducible assumption
    | with_reducible apply State.issueVal_within (hl := (by decide))
    | dsimp only
    | with_reducible intro _

theorem execFmax_within {s out : State} (w : Fin 64) (p : Fin 16) (d a : Fin 64) (b : Opnd) (e : execFmax w p d a b s = .next out) :
    Within [.wheels] s out := by
  cases e
  repeat' first
    | with_reducible exact Within.refl _ _
    | with_reducible assumption
    | with_reducible apply State.issueVal_within (hl := (by decide))
    | dsimp only
    | with_reducible intro _

theorem execFclamp_within {s out : State} (w : Fin 64) (p : Fin 16) (d a b c : Fin 64) (e : execFclamp w p d a b c s = .next out) :
    Within [.wheels] s out := by
  cases e
  repeat' first
    | with_reducible exact Within.refl _ _
    | with_reducible assumption
    | with_reducible apply State.issueVal_within (hl := (by decide))
    | dsimp only
    | with_reducible intro _

theorem execFabs_within {s out : State} (w : Fin 64) (p : Fin 16) (d a : Fin 64) (e : execFabs w p d a s = .next out) : Within
    [.wheels] s out := by
  cases e
  repeat' first
    | with_reducible exact Within.refl _ _
    | with_reducible assumption
    | with_reducible apply State.issueVal_within (hl := (by decide))
    | dsimp only
    | with_reducible intro _

theorem execFneg_within {s out : State} (w : Fin 64) (p : Fin 16) (d a : Fin 64) (e : execFneg w p d a s = .next out) : Within
    [.wheels] s out := by
  cases e
  repeat' first
    | with_reducible exact Within.refl _ _
    | with_reducible assumption
    | with_reducible apply State.issueVal_within (hl := (by decide))
    | dsimp only
    | with_reducible intro _

theorem execFdiv_within {s out : State} (w : Fin 64) (p : Fin 16) (d a b : Fin 64) (e : execFdiv w p d a b s = .next out) : Within
    [.wheels] s out := by
  cases e
  repeat' first
    | with_reducible exact Within.refl _ _
    | with_reducible assumption
    | with_reducible apply State.issueVal_within (hl := (by decide))
    | dsimp only
    | with_reducible intro _

theorem execFsqrt_within {s out : State} (w : Fin 64) (p : Fin 16) (d a : Fin 64) (e : execFsqrt w p d a s = .next out) : Within
    [.wheels] s out := by
  cases e
  repeat' first
    | with_reducible exact Within.refl _ _
    | with_reducible assumption
    | with_reducible apply State.issueVal_within (hl := (by decide))
    | dsimp only
    | with_reducible intro _

theorem execFcmp_within {s out : State} (w : Fin 64) (p : Fin 16) (u : Fin 4) (q : Cond) (a : Fin 64) (b : Opnd) (e : execFcmp w p u
    q a b s = .next out) : Within [.wheels] s out := by
  cases e
  repeat' first
    | with_reducible exact Within.refl _ _
    | with_reducible assumption
    | with_reducible apply State.issuePred_within (hl := (by decide))
    | dsimp only
    | with_reducible intro _

theorem execF2q_within {s out : State} (w : Fin 64) (p : Fin 16) (d a : Fin 64) (e : execF2q w p d a s = .next out) : Within
    [.wheels] s out := by
  cases e
  repeat' first
    | with_reducible exact Within.refl _ _
    | with_reducible assumption
    | with_reducible apply State.issueVal_within (hl := (by decide))
    | dsimp only
    | with_reducible intro _

theorem execQ2f_within {s out : State} (w : Fin 64) (p : Fin 16) (d a : Fin 64) (e : execQ2f w p d a s = .next out) : Within
    [.wheels] s out := by
  cases e
  repeat' first
    | with_reducible exact Within.refl _ _
    | with_reducible assumption
    | with_reducible apply State.issueVal_within (hl := (by decide))
    | dsimp only
    | with_reducible intro _

theorem execF2i_within {s out : State} (w : Fin 64) (p : Fin 16) (d a : Fin 64) (e : execF2i w p d a s = .next out) : Within
    [.wheels] s out := by
  cases e
  repeat' first
    | with_reducible exact Within.refl _ _
    | with_reducible assumption
    | with_reducible apply State.issueVal_within (hl := (by decide))
    | dsimp only
    | with_reducible intro _

theorem execI2f_within {s out : State} (w : Fin 64) (p : Fin 16) (d a : Fin 64) (e : execI2f w p d a s = .next out) : Within
    [.wheels] s out := by
  cases e
  repeat' first
    | with_reducible exact Within.refl _ _
    | with_reducible assumption
    | with_reducible apply State.issueVal_within (hl := (by decide))
    | dsimp only
    | with_reducible intro _

theorem execF2u_within {s out : State} (w : Fin 64) (p : Fin 16) (d a : Fin 64) (e : execF2u w p d a s = .next out) : Within
    [.wheels] s out := by
  cases e
  repeat' first
    | with_reducible exact Within.refl _ _
    | with_reducible assumption
    | with_reducible apply State.issueVal_within (hl := (by decide))
    | dsimp only
    | with_reducible intro _

theorem execQadd_within {s out : State} (w : Fin 64) (p : Fin 16) (d a : Fin 64) (b : Opnd) (e : execQadd w p d a b s = .next out) :
    Within [.wheels] s out := by
  cases e
  repeat' first
    | with_reducible exact Within.refl _ _
    | with_reducible assumption
    | with_reducible apply State.issueVal_within (hl := (by decide))
    | dsimp only
    | with_reducible intro _

theorem execQsub_within {s out : State} (w : Fin 64) (p : Fin 16) (d a : Fin 64) (b : Opnd) (e : execQsub w p d a b s = .next out) :
    Within [.wheels] s out := by
  cases e
  repeat' first
    | with_reducible exact Within.refl _ _
    | with_reducible assumption
    | with_reducible apply State.issueVal_within (hl := (by decide))
    | dsimp only
    | with_reducible intro _

theorem execQmul_within {s out : State} (w : Fin 64) (p : Fin 16) (d a : Fin 64) (b : Opnd) (e : execQmul w p d a b s = .next out) :
    Within [.wheels] s out := by
  cases e
  repeat' first
    | with_reducible exact Within.refl _ _
    | with_reducible assumption
    | with_reducible apply State.issueVal_within (hl := (by decide))
    | dsimp only
    | with_reducible intro _

theorem execQmac_within {s out : State} (w : Fin 64) (p : Fin 16) (d a b c : Fin 64) (e : execQmac w p d a b c s = .next out) :
    Within [.wheels] s out := by
  cases e
  repeat' first
    | with_reducible exact Within.refl _ _
    | with_reducible assumption
    | with_reducible apply State.issueVal_within (hl := (by decide))
    | dsimp only
    | with_reducible intro _

theorem execQabs_within {s out : State} (w : Fin 64) (p : Fin 16) (d a : Fin 64) (e : execQabs w p d a s = .next out) : Within
    [.wheels] s out := by
  cases e
  repeat' first
    | with_reducible exact Within.refl _ _
    | with_reducible assumption
    | with_reducible apply State.issueVal_within (hl := (by decide))
    | dsimp only
    | with_reducible intro _

theorem execQcmp_within {s out : State} (w : Fin 64) (p : Fin 16) (u : Fin 4) (q : Cond) (a : Fin 64) (b : Opnd) (e : execQcmp w p u
    q a b s = .next out) : Within [.wheels] s out := by
  cases e
  repeat' first
    | with_reducible exact Within.refl _ _
    | with_reducible assumption
    | with_reducible apply State.issuePred_within (hl := (by decide))
    | dsimp only
    | with_reducible intro _

theorem execIadd_within {s out : State} (w : Fin 64) (p : Fin 16) (d a : Fin 64) (b : Opnd) (e : execIadd w p d a b s = .next out) :
    Within [.wheels] s out := by
  cases e
  repeat' first
    | with_reducible exact Within.refl _ _
    | with_reducible assumption
    | with_reducible apply State.issueVal_within (hl := (by decide))
    | dsimp only
    | with_reducible intro _

theorem execIsub_within {s out : State} (w : Fin 64) (p : Fin 16) (d a : Fin 64) (b : Opnd) (e : execIsub w p d a b s = .next out) :
    Within [.wheels] s out := by
  cases e
  repeat' first
    | with_reducible exact Within.refl _ _
    | with_reducible assumption
    | with_reducible apply State.issueVal_within (hl := (by decide))
    | dsimp only
    | with_reducible intro _

theorem execAnd_within {s out : State} (w : Fin 64) (p : Fin 16) (d a : Fin 64) (b : Opnd) (e : execAnd w p d a b s = .next out) :
    Within [.wheels] s out := by
  cases e
  repeat' first
    | with_reducible exact Within.refl _ _
    | with_reducible assumption
    | with_reducible apply State.issueVal_within (hl := (by decide))
    | dsimp only
    | with_reducible intro _

theorem execOr_within {s out : State} (w : Fin 64) (p : Fin 16) (d a : Fin 64) (b : Opnd) (e : execOr w p d a b s = .next out) :
    Within [.wheels] s out := by
  cases e
  repeat' first
    | with_reducible exact Within.refl _ _
    | with_reducible assumption
    | with_reducible apply State.issueVal_within (hl := (by decide))
    | dsimp only
    | with_reducible intro _

theorem execXor_within {s out : State} (w : Fin 64) (p : Fin 16) (d a : Fin 64) (b : Opnd) (e : execXor w p d a b s = .next out) :
    Within [.wheels] s out := by
  cases e
  repeat' first
    | with_reducible exact Within.refl _ _
    | with_reducible assumption
    | with_reducible apply State.issueVal_within (hl := (by decide))
    | dsimp only
    | with_reducible intro _

theorem execShl_within {s out : State} (w : Fin 64) (p : Fin 16) (d a : Fin 64) (b : Opnd) (e : execShl w p d a b s = .next out) :
    Within [.wheels] s out := by
  cases e
  repeat' first
    | with_reducible exact Within.refl _ _
    | with_reducible assumption
    | with_reducible apply State.issueVal_within (hl := (by decide))
    | dsimp only
    | with_reducible intro _

theorem execShr_within {s out : State} (w : Fin 64) (p : Fin 16) (d a : Fin 64) (b : Opnd) (e : execShr w p d a b s = .next out) :
    Within [.wheels] s out := by
  cases e
  repeat' first
    | with_reducible exact Within.refl _ _
    | with_reducible assumption
    | with_reducible apply State.issueVal_within (hl := (by decide))
    | dsimp only
    | with_reducible intro _

theorem execSar_within {s out : State} (w : Fin 64) (p : Fin 16) (d a : Fin 64) (b : Opnd) (e : execSar w p d a b s = .next out) :
    Within [.wheels] s out := by
  cases e
  repeat' first
    | with_reducible exact Within.refl _ _
    | with_reducible assumption
    | with_reducible apply State.issueVal_within (hl := (by decide))
    | dsimp only
    | with_reducible intro _

theorem execIcmp_within {s out : State} (w : Fin 64) (p : Fin 16) (u : Fin 4) (q : Cond) (a : Fin 64) (b : Opnd) (e : execIcmp w p u
    q a b s = .next out) : Within [.wheels] s out := by
  cases e
  repeat' first
    | with_reducible exact Within.refl _ _
    | with_reducible assumption
    | with_reducible apply State.issuePred_within (hl := (by decide))
    | dsimp only
    | with_reducible intro _

theorem execUcmp_within {s out : State} (w : Fin 64) (p : Fin 16) (u : Fin 4) (q : Cond) (a : Fin 64) (b : Opnd) (e : execUcmp w p u
    q a b s = .next out) : Within [.wheels] s out := by
  cases e
  repeat' first
    | with_reducible exact Within.refl _ _
    | with_reducible assumption
    | with_reducible apply State.issuePred_within (hl := (by decide))
    | dsimp only
    | with_reducible intro _

theorem State.issuePair_within {lp : List Part} {root s : State} (h : Within lp root s) (w : Fin 64) (p : Fin 16) (d : Fin 64) (f :
    Wheel → (Word × Word) × Nat) (hl : ∀ p ∈ ([.wheels] : List Part), p ∈ lp) : Within lp root (State.issuePair s w p d f) := by
  unfold State.issuePair
  repeat' first
    | with_reducible assumption
    | with_reducible apply State.issue_within (hl := (parts_trans (by decide) hl))
    | with_reducible apply State.onWheel_within (hl := (parts_trans (by decide) hl))
    | dsimp only
    | with_reducible intro _

theorem execCrot_within {s out : State} (w : Fin 64) (p : Fin 16) (d a b : Fin 64) (e : execCrot w p d a b s = .next out) : Within
    [.wheels] s out := by
  cases e
  repeat' first
    | with_reducible exact Within.refl _ _
    | with_reducible assumption
    | with_reducible apply State.issuePair_within (hl := (by decide))
    | dsimp only
    | with_reducible intro _

theorem execCrotv_within {s out : State} (w : Fin 64) (p : Fin 16) (d a b c : Fin 64) (e : execCrotv w p d a b c s = .next out) :
    Within [.wheels] s out := by
  cases e
  repeat' first
    | with_reducible exact Within.refl _ _
    | with_reducible assumption
    | with_reducible apply State.issuePair_within (hl := (by decide))
    | dsimp only
    | with_reducible intro _

theorem execCvec_within {s out : State} (w : Fin 64) (p : Fin 16) (d a b : Fin 64) (e : execCvec w p d a b s = .next out) : Within
    [.wheels] s out := by
  cases e
  repeat' first
    | with_reducible exact Within.refl _ _
    | with_reducible assumption
    | with_reducible apply State.issuePair_within (hl := (by decide))
    | dsimp only
    | with_reducible intro _

theorem execIacc_within {s out : State} (w : Fin 64) (p : Fin 16) (d : Fin 64) (u : Fin 4) (a b : Fin 64) (e : execIacc w p d u a b
    s = .next out) : Within [.wheels] s out := by
  cases e
  repeat' first
    | with_reducible exact Within.refl _ _
    | with_reducible assumption
    | with_reducible apply State.issueInteg_within (hl := (by decide))
    | dsimp only
    | with_reducible intro _

theorem execIrd_within {s out : State} (w : Fin 64) (p : Fin 16) (d : Fin 64) (u : Fin 4) (e : execIrd w p d u s = .next out) :
    Within [.wheels] s out := by
  cases e
  repeat' first
    | with_reducible exact Within.refl _ _
    | with_reducible assumption
    | with_reducible apply State.issueInteg_within (hl := (by decide))
    | dsimp only
    | with_reducible intro _

theorem execIpre_within {s out : State} (w : Fin 64) (p : Fin 16) (u : Fin 4) (a : Fin 64) (e : execIpre w p u a s = .next out) :
    Within [.wheels] s out := by
  cases e
  repeat' first
    | with_reducible exact Within.refl _ _
    | with_reducible assumption
    | with_reducible apply State.issueInteg_within (hl := (by decide))
    | dsimp only
    | with_reducible intro _

theorem execIlim_within {s out : State} (w : Fin 64) (p : Fin 16) (u : Fin 4) (a b : Fin 64) (e : execIlim w p u a b s = .next out)
    : Within [.wheels] s out := by
  cases e
  repeat' first
    | with_reducible exact Within.refl _ _
    | with_reducible assumption
    | with_reducible apply State.issueInteg_within (hl := (by decide))
    | dsimp only
    | with_reducible intro _

theorem execBq_within {s out : State} (w : Fin 64) (p : Fin 16) (d : Fin 64) (u : Fin 4) (a : Fin 64) (c : BitVec 10) (e : execBq w
    p d u a c s = .next out) : Within [.wheels] s out := by
  cases e
  repeat' first
    | with_reducible exact Within.refl _ _
    | with_reducible assumption
    | with_reducible apply State.issue_within (hl := (by decide))
    | with_reducible apply State.onWheel_within (hl := (by decide))
    | dsimp only
    | with_reducible intro _

theorem execBqclr_within {s out : State} (w : Fin 64) (p : Fin 16) (u : Fin 4) (e : execBqclr w p u s = .next out) : Within
    [.wheels] s out := by
  cases e
  repeat' first
    | with_reducible exact Within.refl _ _
    | with_reducible assumption
    | with_reducible apply State.issue_within (hl := (by decide))
    | with_reducible apply State.onWheel_within (hl := (by decide))
    | dsimp only
    | with_reducible intro _

theorem execRes_within {s out : State} (w : Fin 64) (p : Fin 16) (d : Fin 64) (u : Fin 4) (a b : Fin 64) (e : execRes w p d u a b s
    = .next out) : Within [.wheels] s out := by
  cases e
  repeat' first
    | with_reducible exact Within.refl _ _
    | with_reducible assumption
    | with_reducible apply State.issue_within (hl := (by decide))
    | with_reducible apply State.onWheel_within (hl := (by decide))
    | with_reducible apply Within.ite
    | split
    | dsimp only
    | with_reducible intro _

theorem execResr_within {s out : State} (w : Fin 64) (p : Fin 16) (d : Fin 64) (u : Fin 4) (e : execResr w p d u s = .next out) :
    Within [.wheels] s out := by
  cases e
  repeat' first
    | with_reducible exact Within.refl _ _
    | with_reducible assumption
    | with_reducible apply State.issueVal_within (hl := (by decide))
    | dsimp only
    | with_reducible intro _

end Sys2Proof.Machine
end

