-- ==== Sys2Proof/Laws/WithinFabric.lean ====
section
/-!
SUPPORT. The parts of the state that each operation of Machine/Fabric.lean may change.
-/

namespace Sys2Proof.Machine

open Sys2Proof

set_option linter.all false

theorem State.trigger_within {lp : List Part} {root s : State} (h : Within lp root s) (k : Fin 8) (hl : ∀ p ∈ ([.groups] : List
    Part), p ∈ lp) : Within lp root (State.trigger s k) := by
  unfold State.trigger
  repeat' first
    | with_reducible assumption
    | with_reducible apply State.onGroup_within (hl := (parts_trans (by decide) hl))
    | with_reducible refine Within.when ?_ fun _ _ => ?_
    | dsimp only
    | with_reducible intro _

theorem State.groupEvent_within {lp : List Part} {root s : State} (h : Within lp root s) (k : Fin 8) (hl : ∀ p ∈ ([.groups] : List
    Part), p ∈ lp) : Within lp root (State.groupEvent s k) := by
  unfold State.groupEvent
  repeat' first
    | with_reducible assumption
    | with_reducible apply State.trigger_within (hl := (parts_trans (by decide) hl))
    | with_reducible apply State.onGroup_within (hl := (parts_trans (by decide) hl))
    | with_reducible apply Within.ite
    | split
    | dsimp only
    | with_reducible intro _

theorem State.sourceEvent_within {lp : List Part} {root s : State} (h : Within lp root s) (src inst : Nat) (hl : ∀ p ∈ ([.groups] :
    List Part), p ∈ lp) : Within lp root (State.sourceEvent s src inst) := by
  unfold State.sourceEvent
  repeat' first
    | with_reducible assumption
    | with_reducible apply State.groupEvent_within (hl := (parts_trans (by decide) hl))
    | with_reducible refine Within.each ?_ fun _ _ _ => ?_
    | with_reducible refine Within.when ?_ fun _ _ => ?_
    | dsimp only
    | with_reducible intro _

theorem execTimerTrigger_within {s out : State} (k : Fin 8) (e : execTimerTrigger k s = .next out) : Within [.groups] s out := by
  cases e
  repeat' first
    | with_reducible exact Within.refl _ _
    | with_reducible assumption
    | with_reducible apply State.trigger_within (hl := (by decide))
    | with_reducible refine Within.when ?_ fun _ _ => ?_
    | dsimp only
    | with_reducible intro _

theorem execPtpTrigger_within {s out : State} (k : Fin 8) (e : execPtpTrigger k s = .next out) : Within [.groups] s out := by
  cases e
  repeat' first
    | with_reducible exact Within.refl _ _
    | with_reducible assumption
    | with_reducible apply State.trigger_within (hl := (by decide))
    | with_reducible apply State.onGroup_within (hl := (by decide))
    | with_reducible refine Within.when ?_ fun _ _ => ?_
    | dsimp only
    | with_reducible intro _

theorem State.countMiss_within {lp : List Part} {root s : State} (h : Within lp root s) (k : Fin 8) (trigLoss : Bool) (hl : ∀ p ∈
    ([.regs 0x41c, .regs 0x440, .regs 0x448, .regs 0x470, .regs 0x4e0, .outbox, .groups, .mod, .tiles, .sit, .met, .sag, .con] :
    List Part), p ∈ lp) : Within lp root (State.countMiss s k trigLoss) := by
  unfold State.countMiss
  repeat' first
    | with_reducible assumption
    | with_reducible apply State.supvStop_within (hl := (parts_trans (by decide) hl))
    | with_reducible apply State.onGroup_within (hl := (parts_trans (by decide) hl))
    | with_reducible apply State.journal_within (hl := (parts_trans (by decide) hl))
    | ((with_reducible apply State.inc_within (bf := 0x41c) (mf := (hl _ (by decide)))) <;> first | (rfl; done) | (dsimp only; omega) | (dsimp only [Fld.whole]; omega) | (split <;> first | (rfl; done) | (dsimp only; omega)) | show Within _ _ _)
    | ((with_reducible apply State.put_within 0x41c (hb := (hl _ (by decide)))) <;> first | (rfl; done) | (dsimp only; omega) | (dsimp only [Fld.whole]; omega) | (split <;> first | (rfl; done) | (dsimp only; omega)) | show Within _ _ _)
    | with_reducible apply Within.ite
    | split
    | dsimp only
    | with_reducible intro _

theorem State.missSample_within {lp : List Part} {root s : State} (h : Within lp root s) (k : Fin 8) (hl : ∀ p ∈ ([.regs 0x41c,
    .regs 0x440, .regs 0x448, .regs 0x470, .regs 0x4e0, .outbox, .wheels, .groups, .mod, .tiles, .sit, .met, .sag, .con] : List
    Part), p ∈ lp) : Within lp root (State.missSample s k) := by
  unfold State.missSample
  repeat' first
    | with_reducible assumption
    | with_reducible apply State.countMiss_within (hl := (parts_trans (by decide) hl))
    | with_reducible apply State.onGroup_within (hl := (parts_trans (by decide) hl))
    | with_reducible apply State.onWheel_within (hl := (parts_trans (by decide) hl))
    | ((with_reducible apply State.put_within 0x41c (hb := (hl _ (by decide)))) <;> first | (rfl; done) | (dsimp only; omega) | (dsimp only [Fld.whole]; omega) | (split <;> first | (rfl; done) | (dsimp only; omega)) | show Within _ _ _)
    | with_reducible refine Within.each ?_ fun _ _ _ => ?_
    | dsimp only
    | with_reducible intro _

theorem execDeadlineMiss_within {s out : State} (k : Fin 8) (e : execDeadlineMiss k s = .next out) : Within [.regs 0x41c, .regs
    0x440, .regs 0x448, .regs 0x470, .regs 0x4e0, .outbox, .wheels, .groups, .mod, .tiles, .sit, .met, .sag, .con] s out := by
  cases e
  repeat' first
    | with_reducible exact Within.refl _ _
    | with_reducible assumption
    | with_reducible apply State.missSample_within (hl := (by decide))
    | with_reducible refine Within.when ?_ fun _ _ => ?_
    | dsimp only
    | with_reducible intro _

theorem execTriggerTimeout_within {s out : State} (k : Fin 8) (e : execTriggerTimeout k s = .next out) : Within [.regs 0x41c, .regs
    0x440, .regs 0x448, .regs 0x470, .regs 0x4e0, .outbox, .groups, .mod, .tiles, .sit, .met, .sag, .con] s out := by
  cases e
  repeat' first
    | with_reducible exact Within.refl _ _
    | with_reducible assumption
    | with_reducible apply State.countMiss_within (hl := (by decide))
    | ((with_reducible apply State.put_within 0x41c (hb := (by decide))) <;> first | (rfl; done) | (dsimp only; omega) | (dsimp only [Fld.whole]; omega) | (split <;> first | (rfl; done) | (dsimp only; omega)) | show Within _ _ _)
    | with_reducible apply Within.ite
    | split
    | dsimp only
    | with_reducible intro _

theorem State.onInteg_within {lp : List Part} {root s : State} (h : Within lp root s) (w : Fin 64) (j : Fin 4) (f : Integ → Integ ×
    Nat) (hl : ∀ p ∈ ([.wheels] : List Part), p ∈ lp) : Within lp root (State.onInteg s w j f) := by
  unfold State.onInteg
  repeat' first
    | with_reducible assumption
    | with_reducible apply State.onWheel_within (hl := (parts_trans (by decide) hl))
    | dsimp only
    | with_reducible intro _

theorem State.swapRescale_within {lp : List Part} {root s : State} (h : Within lp root s) (k : Fin 8) (old : Nat) (hl : ∀ p ∈
    ([.wheels] : List Part), p ∈ lp) : Within lp root (State.swapRescale s k old) := by
  unfold State.swapRescale
  repeat' first
    | with_reducible assumption
    | with_reducible apply State.onInteg_within (hl := (parts_trans (by decide) hl))
    | with_reducible refine Within.each ?_ fun _ _ _ => ?_
    | dsimp only
    | with_reducible intro _

theorem State.firmwarePresets_within {lp : List Part} {root s : State} (h : Within lp root s) (w : Fin 64) (hl : ∀ p ∈ ([.wheels] :
    List Part), p ∈ lp) : Within lp root (State.firmwarePresets s w) := by
  unfold State.firmwarePresets
  repeat' first
    | with_reducible assumption
    | with_reducible apply State.onInteg_within (hl := (parts_trans (by decide) hl))
    | with_reducible apply State.onWheel_within (hl := (parts_trans (by decide) hl))
    | with_reducible refine Within.each ?_ fun _ _ _ => ?_
    | dsimp only
    | with_reducible intro _

theorem State.islPresets_within {lp : List Part} {root s : State} (h : Within lp root s) (k : Fin 8) (hl : ∀ p ∈ ([.wheels, .isl] :
    List Part), p ∈ lp) : Within lp root (State.islPresets s k) := by
  unfold State.islPresets
  repeat' first
    | with_reducible assumption
    | with_reducible apply State.onInteg_within (hl := (parts_trans (by decide) hl))
    | with_reducible apply State.onIsl_within (hl := (parts_trans (by decide) hl))
    | with_reducible refine Within.each ?_ fun _ _ _ => ?_
    | dsimp only
    | with_reducible intro _

theorem State.carrySwap_within {lp : List Part} {root s : State} (h : Within lp root s) (k : Fin 8) (hl : ∀ p ∈ ([.regs 0x41c,
    .coef, .wheels, .groups, .isl] : List Part), p ∈ lp) : Within lp root (State.carrySwap s k) := by
  unfold State.carrySwap
  repeat' first
    | with_reducible assumption
    | with_reducible apply State.swapRescale_within (hl := (parts_trans (by decide) hl))
    | with_reducible apply State.notchSwap_within (hl := (parts_trans (by decide) hl))
    | with_reducible apply State.setSwap_within (hl := (parts_trans (by decide) hl))
    | ((with_reducible apply State.put_within 0x41c (hb := (hl _ (by decide)))) <;> first | (rfl; done) | (dsimp only; omega) | (dsimp only [Fld.whole]; omega) | (split <;> first | (rfl; done) | (dsimp only; omega)) | show Within _ _ _)
    | with_reducible apply Within.ite
    | split
    | dsimp only
    | with_reducible intro _

theorem State.memberStart_within {lp : List Part} {root s : State} (h : Within lp root s) (k : Fin 8) (w : Fin 64) (hl : ∀ p ∈
    ([.wheels, .groups] : List Part), p ∈ lp) : Within lp root (State.memberStart s k w) := by
  unfold State.memberStart
  repeat' first
    | with_reducible assumption
    | with_reducible apply State.onGroup_within (hl := (parts_trans (by decide) hl))
    | with_reducible apply State.onWheel_within (hl := (parts_trans (by decide) hl))
    | with_reducible refine Within.when ?_ fun _ _ => ?_
    | dsimp only
    | with_reducible intro _

theorem execSampleStart_within {s out : State} (k : Fin 8) (e : execSampleStart k s = .next out) : Within [.regs 0x41c, .regs 0x420,
    .regs 0x440, .regs 0x448, .regs 0x470, .regs 0x4e0, .coef, .outbox, .wheels, .groups, .gsus, .isl, .dci, .mod, .tiles, .sit,
    .adcs, .met, .sag, .con] s out := by
  cases e
  repeat' first
    | with_reducible exact Within.refl _ _
    | with_reducible assumption
    | with_reducible apply State.memberStart_within (hl := (by decide))
    | with_reducible apply State.carrySwap_within (hl := (by decide))
    | with_reducible apply State.islPresets_within (hl := (by decide))
    | with_reducible apply State.firmwarePresets_within (hl := (by decide))
    | with_reducible apply State.missSample_within (hl := (by decide))
    | with_reducible apply State.sourceEvent_within (hl := (by decide))
    | with_reducible apply State.dciStart_within (hl := (by decide))
    | with_reducible apply State.islStart_within (hl := (by decide))
    | with_reducible apply State.gsuStart_within (hl := (by decide))
    | with_reducible apply State.adcSample_within (hl := (by decide))
    | with_reducible apply State.captureStart_within (hl := (by decide))
    | with_reducible apply State.onGroup_within (hl := (by decide))
    | ((with_reducible apply State.incWrap_within (bf := 0x41c) (mf := (by decide))) <;> first | (rfl; done) | (dsimp only; omega) | (dsimp only [Fld.whole]; omega) | (split <;> first | (rfl; done) | (dsimp only; omega)) | show Within _ _ _)
    | ((with_reducible apply State.put_within 0x41c (hb := (by decide))) <;> first | (rfl; done) | (dsimp only; omega) | (dsimp only [Fld.whole]; omega) | (split <;> first | (rfl; done) | (dsimp only; omega)) | show Within _ _ _)
    | with_reducible refine Within.each ?_ fun _ _ _ => ?_
    | with_reducible refine Within.when ?_ fun _ _ => ?_
    | with_reducible apply Within.ite
    | split
    | dsimp only
    | with_reducible intro _

theorem State.guardStep_within {lp : List Part} {root s : State} (h : Within lp root s) (k : Fin 8) (g : Fin 4) (hl : ∀ p ∈ ([.regs
    0x41c, .groups] : List Part), p ∈ lp) : Within lp root (State.guardStep s k g).1 := by
  unfold State.guardStep
  try dsimp only
  repeat' first
    | with_reducible assumption
    | split
    | with_reducible apply State.onGroup_within (hl := (parts_trans (by decide) hl))
    | ((with_reducible apply State.inc_within (bf := 0x41c) (mf := (hl _ (by decide)))) <;> first | (rfl; done) | (dsimp only; omega) | (dsimp only [Fld.whole]; omega) | (split <;> first | (rfl; done) | (dsimp only; omega)) | show Within _ _ _)
    | ((with_reducible apply State.put_within 0x41c (hb := (hl _ (by decide)))) <;> first | (rfl; done) | (dsimp only; omega) | (dsimp only [Fld.whole]; omega) | (split <;> first | (rfl; done) | (dsimp only; omega)) | show Within _ _ _)
    | with_reducible refine Within.when ?_ fun _ _ => ?_
    | with_reducible apply Within.ite
    | dsimp only
    | with_reducible intro _

theorem State.guards_within {lp : List Part} {root s : State} (h : Within lp root s) (k : Fin 8)
    (hl : ∀ p ∈ ([.regs 0x41c, .groups] : List Part), p ∈ lp) : Within lp root (State.guards s k).1 := by
  unfold State.guards
  split
  · dsimp only
    exact State.onGroup_within h _ _ (parts_trans (by decide) hl)
  have hp : Within lp root (s, ([] : List (Fin 4))).1 := h
  revert hp
  generalize (s, ([] : List (Fin 4))) = p
  intro hp
  generalize four = l
  induction l generalizing p with
  | nil => exact hp
  | cons g l ih => exact ih _ (State.guardStep_within hp k g (parts_trans (by decide) hl))

theorem State.suspect_within {lp : List Part} {root s : State} (h : Within lp root s) (w : Fin 64) (c : Fin 4) (hl : ∀ p ∈ ([.regs
    0x41c, .regs 0x470, .regs 0x4d0, .gx, .met, .sag, .grg] : List Part), p ∈ lp) : Within lp root (State.suspect s w c) := by
  unfold State.suspect
  repeat' first
    | with_reducible assumption
    | with_reducible apply State.grogFlag_within (hl := (parts_trans (by decide) hl))
    | with_reducible apply State.journal_within (hl := (parts_trans (by decide) hl))
    | ((with_reducible apply State.inc_within (bf := 0x41c) (mf := (hl _ (by decide)))) <;> first | (rfl; done) | (dsimp only; omega) | (dsimp only [Fld.whole]; omega) | (split <;> first | (rfl; done) | (dsimp only; omega)) | show Within _ _ _)
    | ((with_reducible apply State.put_within 0x41c (hb := (hl _ (by decide)))) <;> first | (rfl; done) | (dsimp only; omega) | (dsimp only [Fld.whole]; omega) | (split <;> first | (rfl; done) | (dsimp only; omega)) | show Within _ _ _)
    | dsimp only
    | with_reducible intro _

theorem State.plausStop_within {lp : List Part} {root s : State} (h : Within lp root s) (k : Fin 8) (w : Fin 64) (c : Fin 4) (hl : ∀
    p ∈ ([.regs 0x41c, .regs 0x440, .regs 0x448, .regs 0x470, .regs 0x4e0, .outbox, .mod, .tiles, .sit, .met, .sag, .con] : List
    Part), p ∈ lp) : Within lp root (State.plausStop s k w c) := by
  unfold State.plausStop
  repeat' first
    | with_reducible assumption
    | with_reducible apply State.supvStop_within (hl := (parts_trans (by decide) hl))
    | with_reducible apply State.withSit_within (hl := (parts_trans (by decide) hl))
    | dsimp only
    | with_reducible intro _

theorem State.residuals_within {lp : List Part} {root s : State} (h : Within lp root s) (k : Fin 8) (hl : ∀ p ∈ ([.regs 0x41c, .regs
    0x440, .regs 0x448, .regs 0x470, .regs 0x4d0, .regs 0x4e0, .outbox, .mod, .tiles, .sit, .gx, .met, .sag, .grg, .con] : List
    Part), p ∈ lp) : Within lp root (State.residuals s k) := by
  unfold State.residuals
  repeat' first
    | with_reducible assumption
    | with_reducible apply State.plausStop_within (hl := (parts_trans (by decide) hl))
    | with_reducible apply State.suspect_within (hl := (parts_trans (by decide) hl))
    | with_reducible refine Within.each ?_ fun _ _ _ => ?_
    | dsimp only
    | with_reducible intro _

theorem State.commitWheel_within {lp : List Part} {root s : State} (h : Within lp root s) (w : Fin 64) (hl : ∀ p ∈ ([.regs 0x410,
    .regs 0x411, .regs 0x412, .regs 0x413, .wheels] : List Part), p ∈ lp) : Within lp root (State.commitWheel s w) := by
  unfold State.commitWheel
  repeat' first
    | with_reducible assumption
    | with_reducible apply State.onWheel_within (hl := (parts_trans (by decide) hl))
    | ((with_reducible apply State.putB_within (hf := rfl)) <;> first | exact Part.whl (parts_trans (by decide) hl) (by dsimp only; omega) | show Within _ _ _)
    | dsimp only
    | with_reducible intro _

theorem State.endRun_within {lp : List Part} {root s : State} (h : Within lp root s) (k : Fin 8) (hl : ∀ p ∈ ([.regs 0x470, .groups,
    .met, .sag] : List Part), p ∈ lp) : Within lp root (State.endRun s k) := by
  unfold State.endRun
  repeat' first
    | with_reducible assumption
    | with_reducible apply State.onGroup_within (hl := (parts_trans (by decide) hl))
    | with_reducible apply State.journal_within (hl := (parts_trans (by decide) hl))
    | with_reducible refine Within.when ?_ fun _ _ => ?_
    | dsimp only
    | with_reducible intro _

theorem execEndOfSample_within {s out : State} (k : Fin 8) (e : execEndOfSample k s = .next out) : Within [.regs 0x410, .regs 0x411,
    .regs 0x412, .regs 0x413, .regs 0x41c, .regs 0x440, .regs 0x448, .regs 0x470, .regs 0x4d0, .regs 0x4e0, .slots, .outbox,
    .wheels, .groups, .mod, .tiles, .sit, .gx, .met, .sag, .grg, .con] s out := by
  cases e
  repeat' first
    | with_reducible exact Within.refl _ _
    | with_reducible assumption
    | with_reducible apply State.endRun_within (hl := (by decide))
    | with_reducible apply State.commitWheel_within (hl := (by decide))
    | with_reducible apply State.residuals_within (hl := (by decide))
    | with_reducible apply State.guards_within (hl := (by decide))
    | with_reducible apply State.supvStop_within (hl := (by decide))
    | with_reducible apply State.onGroup_within (hl := (by decide))
    | with_reducible refine State.publish_within ?_ _ _ (by decide)
    | ((with_reducible apply State.put_within 0x41c (hb := (by decide))) <;> first | (rfl; done) | (dsimp only; omega) | (dsimp only [Fld.whole]; omega) | (split <;> first | (rfl; done) | (dsimp only; omega)) | show Within _ _ _)
    | with_reducible refine Within.each ?_ fun _ _ _ => ?_
    | with_reducible apply Within.ite
    | split
    | dsimp only
    | with_reducible intro _

theorem execMemoryError_within {s out : State} (w : Fin 64) (e : execMemoryError w s = .next out) : Within [.regs 0x410, .regs
    0x411, .regs 0x412, .regs 0x413, .regs 0x470, .regs 0x4d0, .wheels, .groups, .met, .sag, .grg] s out := by
  cases e
  repeat' first
    | with_reducible exact Within.refl _ _
    | with_reducible assumption
    | with_reducible apply State.grogHard_within (hl := (by decide))
    | with_reducible apply State.onGroup_within (hl := (by decide))
    | with_reducible apply State.onWheel_within (hl := (by decide))
    | with_reducible apply State.journal_within (hl := (by decide))
    | ((with_reducible apply State.put_within _ (hf := rfl)) <;> first | exact Part.whl (by decide) (by dsimp only; omega) | show Within _ _ _)
    | with_reducible apply Within.ite
    | split
    | dsimp only
    | with_reducible intro _

theorem execCorrectedError_within {s out : State} (w : Fin 64) (e : execCorrectedError w s = .next out) : Within [.regs 0x470, .regs
    0x4d0, .met, .sag, .grg] s out := by
  cases e
  repeat' first
    | with_reducible exact Within.refl _ _
    | with_reducible assumption
    | with_reducible apply State.grogErr_within (hl := (by decide))
    | dsimp only
    | with_reducible intro _

theorem slotWriteOp_within {lp : List Part} {root s : State} (h : Within lp root s) (k : BitVec 12) (v : Word) (hl : ∀ p ∈ ([.regs
    0x41c, .slots] : List Part), p ∈ lp) : Within lp root (slotWriteOp k v s) := by
  unfold slotWriteOp
  repeat' first
    | with_reducible assumption
    | with_reducible refine State.publish_within ?_ _ _ (parts_trans (by decide) hl)
    | ((with_reducible apply State.inc_within (bf := 0x41c) (mf := (hl _ (by decide)))) <;> first | (rfl; done) | (dsimp only; omega) | (dsimp only [Fld.whole]; omega) | (split <;> first | (rfl; done) | (dsimp only; omega)) | show Within _ _ _)
    | with_reducible apply Within.ite
    | split
    | dsimp only
    | with_reducible intro _

theorem execSlotWrite_within {s out : State} (k : BitVec 12) (v : Word) (e : execSlotWrite k v s = .next out) : Within [.regs 0x41c,
    .slots, .held, .resp] s out := by
  cases e
  repeat' first
    | with_reducible exact Within.refl _ _
    | with_reducible assumption
    | with_reducible apply slotWriteOp_within (hl := (by decide))
    | with_reducible apply State.access_within (hl := (by decide))
    | dsimp only
    | with_reducible intro _

theorem coefWriteOp_within {lp : List Part} {root s : State} (h : Within lp root s) (w : Fin 64) (b : Fin 2) (i : BitVec 10) (v :
    Word) (hl : ∀ p ∈ ([.regs 0x410, .regs 0x411, .regs 0x412, .regs 0x413, .coef] : List Part), p ∈ lp) : Within lp root
    (coefWriteOp w b i v s) := by
  unfold coefWriteOp
  repeat' first
    | with_reducible assumption
    | with_reducible apply State.bankPut_within (hl := (parts_trans (by decide) hl))
    | ((with_reducible apply State.inc_within (hf := rfl)) <;> first | exact Part.whl (parts_trans (by decide) hl) (by dsimp only; omega) | show Within _ _ _)
    | with_reducible apply Within.ite
    | split
    | dsimp only
    | with_reducible intro _

theorem execCoefBankWrite_within {s out : State} (w : Fin 64) (b : Fin 2) (i : BitVec 10) (v : Word) (e : execCoefBankWrite w b i v
    s = .next out) : Within [.regs 0x410, .regs 0x411, .regs 0x412, .regs 0x413, .coef, .held, .resp] s out := by
  cases e
  repeat' first
    | with_reducible exact Within.refl _ _
    | with_reducible assumption
    | with_reducible apply coefWriteOp_within (hl := (by decide))
    | with_reducible apply State.access_within (hl := (by decide))
    | dsimp only
    | with_reducible intro _

theorem swapRequestOp_within {lp : List Part} {root s : State} (h : Within lp root s) (k : Fin 8) (bank : Fin 2) (atPlant : Bool)
    (hl : ∀ p ∈ ([.regs 0x41c, .groups] : List Part), p ∈ lp) : Within lp root (swapRequestOp k bank atPlant s) := by
  unfold swapRequestOp
  repeat' first
    | with_reducible assumption
    | with_reducible apply State.swapRequest_within (hl := (parts_trans (by decide) hl))
    | ((with_reducible apply State.putB_within (bf := 0x41c) (mf := (hl _ (by decide)))) <;> first | (rfl; done) | (dsimp only; omega) | (dsimp only [Fld.whole]; omega) | (split <;> first | (rfl; done) | (dsimp only; omega)) | show Within _ _ _)
    | ((with_reducible apply State.put_within 0x41c (hb := (hl _ (by decide)))) <;> first | (rfl; done) | (dsimp only; omega) | (dsimp only [Fld.whole]; omega) | (split <;> first | (rfl; done) | (dsimp only; omega)) | show Within _ _ _)
    | dsimp only
    | with_reducible intro _

theorem execSwapRequest_within {s out : State} (k : Fin 8) (bank : Fin 2) (atPlant : Bool) (e : execSwapRequest k bank atPlant s =
    .next out) : Within [.regs 0x41c, .held, .resp, .groups] s out := by
  cases e
  repeat' first
    | with_reducible exact Within.refl _ _
    | with_reducible assumption
    | with_reducible apply swapRequestOp_within (hl := (by decide))
    | with_reducible apply State.access_within (hl := (by decide))
    | dsimp only
    | with_reducible intro _

theorem istateWriteOp_within {lp : List Part} {root s : State} (h : Within lp root s) (w : Fin 64) (j : Fin 4) (v : Word) (hl : ∀ p
    ∈ ([.wheels] : List Part), p ∈ lp) : Within lp root (istateWriteOp w j v s) := by
  unfold istateWriteOp
  repeat' first
    | with_reducible assumption
    | with_reducible apply State.onWheel_within (hl := (parts_trans (by decide) hl))
    | with_reducible refine Within.when ?_ fun _ _ => ?_
    | dsimp only
    | with_reducible intro _

theorem execIstateWrite_within {s out : State} (w : Fin 64) (j : Fin 4) (v : Word) (e : execIstateWrite w j v s = .next out) :
    Within [.held, .resp, .wheels] s out := by
  cases e
  repeat' first
    | with_reducible exact Within.refl _ _
    | with_reducible assumption
    | with_reducible apply istateWriteOp_within (hl := (by decide))
    | with_reducible apply State.access_within (hl := (by decide))
    | dsimp only
    | with_reducible intro _

theorem mboxReadOp_within {lp : List Part} {root s : State} (h : Within lp root s) (hl : ∀ p ∈ ([.fab] : List Part), p ∈ lp) :
    Within lp root (mboxReadOp s).1 := by
  unfold mboxReadOp
  try dsimp only
  repeat' first
    | with_reducible assumption
    | split
    | with_reducible apply State.withFab_within (hl := (parts_trans (by decide) hl))
    | dsimp only
    | with_reducible intro _

theorem execMboxRead_within {s out : State} (e : execMboxRead s = .next out) : Within [.held, .resp, .fab] s out := by
  cases e
  repeat' first
    | with_reducible exact Within.refl _ _
    | with_reducible assumption
    | with_reducible apply mboxReadOp_within (hl := (by decide))
    | with_reducible apply State.accessV_within (hl := (by decide))
    | dsimp only
    | with_reducible intro _

theorem mboxThreshOp_within {lp : List Part} {root s : State} (h : Within lp root s) (v : BitVec 7) (hl : ∀ p ∈ ([.regs 0x41c] :
    List Part), p ∈ lp) : Within lp root (mboxThreshOp v s) := by
  unfold mboxThreshOp
  repeat' first
    | with_reducible assumption
    | ((with_reducible apply State.put_within 0x41c (hb := (hl _ (by decide)))) <;> first | (rfl; done) | (dsimp only; omega) | (dsimp only [Fld.whole]; omega) | (split <;> first | (rfl; done) | (dsimp only; omega)) | show Within _ _ _)
    | with_reducible refine Within.when ?_ fun _ _ => ?_
    | dsimp only
    | with_reducible intro _

theorem execMboxThreshWrite_within {s out : State} (v : BitVec 7) (e : execMboxThreshWrite v s = .next out) : Within [.regs 0x41c,
    .held, .resp] s out := by
  cases e
  repeat' first
    | with_reducible exact Within.refl _ _
    | with_reducible assumption
    | with_reducible apply mboxThreshOp_within (hl := (by decide))
    | with_reducible apply State.access_within (hl := (by decide))
    | dsimp only
    | with_reducible intro _

end Sys2Proof.Machine
end

