-- ==== Sys2Proof/Laws/WithinModulator.lean ====
section
/-!
SUPPORT. The parts of the state that each operation of Machine/Modulator.lean may change.
-/

namespace Sys2Proof.Machine

open Sys2Proof

set_option linter.all false

theorem State.blankFrom_within {lp : List Part} {root s : State} (h : Within lp root s) (p : Fin 9) (a : Bool) (hl : ∀ p ∈ ([.wins]
    : List Part), p ∈ lp) : Within lp root (State.blankFrom s p a) := by
  unfold State.blankFrom
  repeat' first
    | with_reducible assumption
    | with_reducible apply State.onWin_within (hl := (parts_trans (by decide) hl))
    | with_reducible refine Within.each ?_ fun _ _ _ => ?_
    | with_reducible apply Within.ite
    | split
    | dsimp only
    | with_reducible intro _

theorem State.toChannel_within {lp : List Part} {root s : State} (h : Within lp root s) (p n : Fin 9) (c : Fin 2) (on : Bool) (hl :
    ∀ p ∈ ([.regs 0x440, .tiles, .wins] : List Part), p ∈ lp) : Within lp root (State.toChannel s p n c on) := by
  unfold State.toChannel
  repeat' first
    | with_reducible assumption
    | with_reducible apply State.blankFrom_within (hl := (parts_trans (by decide) hl))
    | with_reducible apply State.chanReqOff_within (hl := (parts_trans (by decide) hl))
    | with_reducible apply State.chanReqOn_within (hl := (parts_trans (by decide) hl))
    | with_reducible apply State.onChan_within (hl := (parts_trans (by decide) hl))
    | with_reducible refine Within.when ?_ fun _ _ => ?_
    | with_reducible apply Within.ite
    | split
    | dsimp only
    | with_reducible intro _

theorem State.drive_within {lp : List Part} {root s : State} (h : Within lp root s) (p : Fin 9) (pos : Nat) (hl : ∀ p ∈ ([.regs
    0x440, .mod, .tiles, .wins] : List Part), p ∈ lp) : Within lp root (State.drive s p pos) := by
  unfold State.drive
  repeat' first
    | with_reducible assumption
    | with_reducible apply State.toChannel_within (hl := (parts_trans (by decide) hl))
    | with_reducible apply State.onPair_within (hl := (parts_trans (by decide) hl))
    | with_reducible refine Within.when ?_ fun _ _ => ?_
    | with_reducible apply Within.ite
    | split
    | dsimp only
    | with_reducible intro _

theorem State.gatesTold_within {lp : List Part} {root s : State} (h : Within lp root s) (p : Fin 9) (high : BitVec 2) (hl : ∀ p ∈
    ([.regs 0x440] : List Part), p ∈ lp) : Within lp root (State.gatesTold s p high) := by
  unfold State.gatesTold
  repeat' first
    | with_reducible assumption
    | with_reducible apply State.gateTold_within (hl := (parts_trans (by decide) hl))
    | split
    | dsimp only
    | with_reducible intro _

theorem execEdgeDue_within {s out : State} (p : Fin 9) (a : EdgeAt) (e : execEdgeDue p a s = .next out) : Within [.regs 0x430, .regs
    0x440, .mod, .tiles, .wins] s out := by
  cases e
  repeat' first
    | with_reducible exact Within.refl _ _
    | with_reducible assumption
    | with_reducible apply State.gatesTold_within (hl := (by decide))
    | with_reducible apply State.drive_within (hl := (by decide))
    | with_reducible apply State.onPair_within (hl := (by decide))
    | ((with_reducible apply State.put_within 0x430 (hb := (by decide))) <;> first | (rfl; done) | (dsimp only; omega) | (dsimp only [Fld.whole]; omega) | (split <;> first | (rfl; done) | (dsimp only; omega)) | show Within _ _ _)
    | with_reducible apply Within.ite
    | split
    | dsimp only
    | with_reducible intro _

theorem execCompareArrival_within {s out : State} (x : ArrivalAt) (e : execCompareArrival x s = .next out) : Within [.mod] s out :=
    by
  cases e
  repeat' first
    | with_reducible exact Within.refl _ _
    | with_reducible assumption
    | with_reducible apply State.onPair_within (hl := (by decide))
    | with_reducible apply State.modLater_within (hl := (by decide))
    | with_reducible refine Within.each ?_ fun _ _ _ => ?_
    | with_reducible refine Within.when ?_ fun _ _ => ?_
    | with_reducible apply Within.ite
    | split
    | dsimp only
    | with_reducible intro _

theorem execLoadPoint_within {s out : State} (a : PairAt) (e : execLoadPoint a s = .next out) : Within [.regs 0x430, .groups, .mod]
    s out := by
  cases e
  repeat' first
    | with_reducible exact Within.refl _ _
    | with_reducible assumption
    | with_reducible apply State.sourceEvent_within (hl := (by decide))
    | with_reducible apply State.onPair_within (hl := (by decide))
    | with_reducible apply State.modLater_within (hl := (by decide))
    | ((with_reducible apply State.put_within 0x430 (hb := (by decide))) <;> first | (rfl; done) | (dsimp only; omega) | (dsimp only [Fld.whole]; omega) | (split <;> first | (rfl; done) | (dsimp only; omega)) | show Within _ _ _)
    | with_reducible apply Within.ite
    | split
    | dsimp only
    | with_reducible intro _

theorem State.closePeriod_within {lp : List Part} {root s : State} (h : Within lp root s) (p : Fin 9)
    (hl : ∀ p ∈ ([.regs 0x430, .mod] : List Part), p ∈ lp) : Within lp root (State.closePeriod s p) := by
  unfold State.closePeriod
  refine Within.ite h (State.onPair_within ?_ _ _ (parts_trans (by decide) hl))
  refine State.put_within 0x430 (State.put_within 0x430 h ?_ (hl _ (by decide))) ?_ (hl _ (by decide)) <;> (dsimp only; omega)

theorem State.closeBoot_within {lp : List Part} {root s : State} (h : Within lp root s) (p : Fin 9) (hl : ∀ p ∈ ([.regs 0x440,
    .tiles] : List Part), p ∈ lp) : Within lp root (State.closeBoot s p) := by
  unfold State.closeBoot
  repeat' first
    | with_reducible assumption
    | with_reducible apply State.onTile_within (hl := (parts_trans (by decide) hl))
    | ((with_reducible apply State.put_within 0x440 (hb := (hl _ (by decide)))) <;> first | (rfl; done) | (dsimp only; omega) | (dsimp only [Fld.whole]; omega) | (split <;> first | (rfl; done) | (dsimp only; omega)) | show Within _ _ _)
    | split
    | dsimp only
    | with_reducible intro _

theorem State.tripTest_within {lp : List Part} {root s : State} (h : Within lp root s) (p : Fin 9) (hl : ∀ p ∈ ([.regs 0x440, .regs
    0x448, .regs 0x470, .regs 0x4e0, .outbox, .mod, .tiles, .sit, .met, .sag, .con] : List Part), p ∈ lp) : Within lp root
    (State.tripTest s p) := by
  unfold State.tripTest
  repeat' first
    | with_reducible assumption
    | with_reducible apply State.coneIf_within (hl := (parts_trans (by decide) hl))
    | with_reducible apply State.cutPairs_within (hl := (parts_trans (by decide) hl))
    | with_reducible apply State.raiseStopAlso_within (hl := (parts_trans (by decide) hl))
    | with_reducible apply State.onPair_within (hl := (parts_trans (by decide) hl))
    | ((with_reducible apply State.inc_within (bf := 0x448) (mf := (hl _ (by decide)))) <;> first | (rfl; done) | (dsimp only; omega) | (dsimp only [Fld.whole]; omega) | (split <;> first | (rfl; done) | (dsimp only; omega)) | show Within _ _ _)
    | ((with_reducible apply State.put_within 0x448 (hb := (hl _ (by decide)))) <;> first | (rfl; done) | (dsimp only; omega) | (dsimp only [Fld.whole]; omega) | (split <;> first | (rfl; done) | (dsimp only; omega)) | show Within _ _ _)
    | with_reducible apply Within.ite
    | split
    | dsimp only
    | with_reducible intro _

theorem State.holdTest_within {lp : List Part} {root s : State} (h : Within lp root s) (p : Fin 9) (hl : ∀ p ∈ ([.mod] : List Part),
    p ∈ lp) : Within lp root (State.holdTest s p) := by
  unfold State.holdTest
  repeat' first
    | with_reducible assumption
    | with_reducible apply State.onPair_within (hl := (parts_trans (by decide) hl))
    | split
    | dsimp only
    | with_reducible intro _

theorem State.restartTest_within {lp : List Part} {root s : State} (h : Within lp root s) (p : Fin 9) (hl : ∀ p ∈ ([.regs 0x448,
    .mod] : List Part), p ∈ lp) : Within lp root (State.restartTest s p) := by
  unfold State.restartTest
  repeat' first
    | with_reducible assumption
    | with_reducible apply State.onPair_within (hl := (parts_trans (by decide) hl))
    | ((with_reducible apply State.put_within 0x448 (hb := (hl _ (by decide)))) <;> first | (rfl; done) | (dsimp only; omega) | (dsimp only [Fld.whole]; omega) | (split <;> first | (rfl; done) | (dsimp only; omega)) | show Within _ _ _)
    | with_reducible apply Within.ite
    | split
    | dsimp only
    | with_reducible intro _

theorem State.dropRequests_within {lp : List Part} {root s : State} (h : Within lp root s) (p : Fin 9) (hl : ∀ p ∈ ([.regs 0x440,
    .tiles, .wins] : List Part), p ∈ lp) : Within lp root (State.dropRequests s p) := by
  unfold State.dropRequests
  repeat' first
    | with_reducible assumption
    | with_reducible apply State.toChannel_within (hl := (parts_trans (by decide) hl))
    | with_reducible apply Within.ite
    | split
    | dsimp only
    | with_reducible intro _

theorem execPeriodStart_within {s out : State} (a : PairGates) (e : execPeriodStart a s = .next out) : Within [.regs 0x430, .regs
    0x440, .regs 0x448, .regs 0x470, .regs 0x4e0, .outbox, .mod, .tiles, .wins, .sit, .met, .sag, .con] s out := by
  cases e
  repeat' first
    | with_reducible exact Within.refl _ _
    | with_reducible assumption
    | with_reducible apply State.dropRequests_within (hl := (by decide))
    | with_reducible apply State.restartTest_within (hl := (by decide))
    | with_reducible apply State.holdTest_within (hl := (by decide))
    | with_reducible apply State.tripTest_within (hl := (by decide))
    | with_reducible apply State.closeBoot_within (hl := (by decide))
    | with_reducible apply State.closePeriod_within (hl := (by decide))
    | with_reducible apply State.gatesTold_within (hl := (by decide))
    | with_reducible apply State.drive_within (hl := (by decide))
    | with_reducible apply State.onPair_within (hl := (by decide))
    | ((with_reducible apply State.inc_within (bf := 0x430) (mf := (by decide))) <;> first | (rfl; done) | (dsimp only; omega) | (dsimp only [Fld.whole]; omega) | (split <;> first | (rfl; done) | (dsimp only; omega)) | show Within _ _ _)
    | ((with_reducible apply State.putB_within (bf := 0x430) (mf := (by decide))) <;> first | (rfl; done) | (dsimp only; omega) | (dsimp only [Fld.whole]; omega) | (split <;> first | (rfl; done) | (dsimp only; omega)) | show Within _ _ _)
    | ((with_reducible apply State.put_within 0x430 (hb := (by decide))) <;> first | (rfl; done) | (dsimp only; omega) | (dsimp only [Fld.whole]; omega) | (split <;> first | (rfl; done) | (dsimp only; omega)) | show Within _ _ _)
    | with_reducible refine Within.when ?_ fun _ _ => ?_
    | with_reducible apply Within.ite
    | split
    | dsimp only
    | with_reducible intro _

theorem State.hopTaken_within {lp : List Part} {root s : State} (h : Within lp root s) (hl : ∀ p ∈ ([.regs 0x430, .mod] : List
    Part), p ∈ lp) : Within lp root (State.hopTaken s) := by
  unfold State.hopTaken
  repeat' first
    | with_reducible assumption
    | ((with_reducible apply State.putB_within (bf := 0x430) (mf := (hl _ (by decide)))) <;> first | (rfl; done) | (dsimp only; omega) | (dsimp only [Fld.whole]; omega) | (split <;> first | (rfl; done) | (dsimp only; omega)) | show Within _ _ _)
    | with_reducible apply State.withMod_within (hl := (parts_trans (by decide) hl))
    | dsimp only
    | with_reducible intro _

theorem State.hopApply_within {lp : List Part} {root s : State} (h : Within lp root s) (st : Int) (hl : ∀ p ∈ ([.regs 0x430, .mod,
    .clk] : List Part), p ∈ lp) : Within lp root (State.hopApply s st) := by
  unfold State.hopApply
  repeat' first
    | with_reducible assumption
    | with_reducible apply State.hopTaken_within (hl := (parts_trans (by decide) hl))
    | with_reducible apply State.onPll_within (hl := (parts_trans (by decide) hl))
    | ((with_reducible apply State.putI_within (bf := 0x430) (mf := (hl _ (by decide)))) <;> first | (rfl; done) | (dsimp only; omega) | (dsimp only [Fld.whole]; omega) | (split <;> first | (rfl; done) | (dsimp only; omega)) | show Within _ _ _)
    | ((with_reducible apply State.incWrap_within (bf := 0x430) (mf := (hl _ (by decide)))) <;> first | (rfl; done) | (dsimp only; omega) | (dsimp only [Fld.whole]; omega) | (split <;> first | (rfl; done) | (dsimp only; omega)) | show Within _ _ _)
    | ((with_reducible apply State.put_within 0x430 (hb := (hl _ (by decide)))) <;> first | (rfl; done) | (dsimp only; omega) | (dsimp only [Fld.whole]; omega) | (split <;> first | (rfl; done) | (dsimp only; omega)) | show Within _ _ _)
    | with_reducible apply State.withMod_within (hl := (parts_trans (by decide) hl))
    | with_reducible apply Within.ite
    | split
    | dsimp only
    | with_reducible intro _

theorem State.hopAwait_within {lp : List Part} {root s : State} (h : Within lp root s) (st : Int) (hl : ∀ p ∈ ([.regs 0x430, .mod,
    .clk] : List Part), p ∈ lp) : Within lp root (State.hopAwait s st) := by
  unfold State.hopAwait
  repeat' first
    | with_reducible assumption
    | with_reducible apply State.hopApply_within (hl := (parts_trans (by decide) hl))
    | ((with_reducible apply State.put_within 0x430 (hb := (hl _ (by decide)))) <;> first | (rfl; done) | (dsimp only; omega) | (dsimp only [Fld.whole]; omega) | (split <;> first | (rfl; done) | (dsimp only; omega)) | show Within _ _ _)
    | with_reducible apply State.withMod_within (hl := (parts_trans (by decide) hl))
    | with_reducible apply Within.ite
    | split
    | dsimp only
    | with_reducible intro _

theorem State.hopEval_within {lp : List Part} {root s : State} (h : Within lp root s) (hl : ∀ p ∈ ([.regs 0x430, .mod, .clk] : List
    Part), p ∈ lp) : Within lp root (State.hopEval s) := by
  unfold State.hopEval
  repeat' first
    | with_reducible assumption
    | with_reducible apply State.hopAwait_within (hl := (parts_trans (by decide) hl))
    | with_reducible apply State.hopTaken_within (hl := (parts_trans (by decide) hl))
    | ((with_reducible apply State.putB_within (bf := 0x430) (mf := (hl _ (by decide)))) <;> first | (rfl; done) | (dsimp only; omega) | (dsimp only [Fld.whole]; omega) | (split <;> first | (rfl; done) | (dsimp only; omega)) | show Within _ _ _)
    | ((with_reducible apply State.put_within 0x430 (hb := (hl _ (by decide)))) <;> first | (rfl; done) | (dsimp only; omega) | (dsimp only [Fld.whole]; omega) | (split <;> first | (rfl; done) | (dsimp only; omega)) | show Within _ _ _)
    | with_reducible apply State.withMod_within (hl := (parts_trans (by decide) hl))
    | with_reducible refine Within.when ?_ fun _ _ => ?_
    | with_reducible apply Within.ite
    | split
    | dsimp only
    | with_reducible intro _

theorem execHopEval_within {s out : State} (e : execHopEval s = .next out) : Within [.regs 0x430, .held, .resp, .mod, .clk] s out :=
    by
  cases e
  repeat' first
    | with_reducible exact Within.refl _ _
    | with_reducible assumption
    | with_reducible apply State.hopEval_within (hl := (by decide))
    | with_reducible apply State.access_within (hl := (by decide))
    | dsimp only
    | with_reducible intro _

theorem quietBandOp_within {lp : List Part} {root s : State} (h : Within lp root s) (k : Fin 8) (hi : Bool) (v : Word) (hl : ∀ p ∈
    ([.regs 0x430, .mod, .clk] : List Part), p ∈ lp) : Within lp root (quietBandOp k hi v s) := by
  unfold quietBandOp
  repeat' first
    | with_reducible assumption
    | with_reducible apply State.hopEval_within (hl := (parts_trans (by decide) hl))
    | ((with_reducible apply State.put_within 0x430 (hb := (hl _ (by decide)))) <;> first | (rfl; done) | (dsimp only; omega) | (dsimp only [Fld.whole]; omega) | (split <;> first | (rfl; done) | (dsimp only; omega)) | show Within _ _ _)
    | with_reducible apply Within.ite
    | split
    | dsimp only
    | with_reducible intro _

theorem execQuietBandWrite_within {s out : State} (k : Fin 8) (hi : Bool) (v : Word) (e : execQuietBandWrite k hi v s = .next out) :
    Within [.regs 0x430, .held, .resp, .mod, .clk] s out := by
  cases e
  repeat' first
    | with_reducible exact Within.refl _ _
    | with_reducible assumption
    | with_reducible apply quietBandOp_within (hl := (by decide))
    | with_reducible apply State.access_within (hl := (by decide))
    | dsimp only
    | with_reducible intro _

theorem State.epochPair_within {lp : List Part} {root s : State} (h : Within lp root s) (p : Fin 9) (hl : ∀ p ∈ ([.regs 0x430, .mod]
    : List Part), p ∈ lp) : Within lp root (State.epochPair s p) := by
  unfold State.epochPair
  repeat' first
    | with_reducible assumption
    | with_reducible apply State.onPair_within (hl := (parts_trans (by decide) hl))
    | ((with_reducible apply State.putI_within (bf := 0x430) (mf := (hl _ (by decide)))) <;> first | (rfl; done) | (dsimp only; omega) | (dsimp only [Fld.whole]; omega) | (split <;> first | (rfl; done) | (dsimp only; omega)) | show Within _ _ _)
    | ((with_reducible apply State.putB_within (bf := 0x430) (mf := (hl _ (by decide)))) <;> first | (rfl; done) | (dsimp only; omega) | (dsimp only [Fld.whole]; omega) | (split <;> first | (rfl; done) | (dsimp only; omega)) | show Within _ _ _)
    | ((with_reducible apply State.put_within 0x430 (hb := (hl _ (by decide)))) <;> first | (rfl; done) | (dsimp only; omega) | (dsimp only [Fld.whole]; omega) | (split <;> first | (rfl; done) | (dsimp only; omega)) | show Within _ _ _)
    | with_reducible refine Within.when ?_ fun _ _ => ?_
    | with_reducible apply Within.ite
    | split
    | dsimp only
    | with_reducible intro _

theorem State.epochStamp_within {lp : List Part} {root s : State} (h : Within lp root s) (hl : ∀ p ∈ ([.regs 0x4a0, .free] : List
    Part), p ∈ lp) : Within lp root (State.epochStamp s) := by
  unfold State.epochStamp
  repeat' first
    | with_reducible assumption
    | with_reducible apply State.tookFree_within (hl := (parts_trans (by decide) hl))
    | ((with_reducible apply State.put_within 0x4a0 (hb := (hl _ (by decide)))) <;> first | (rfl; done) | (dsimp only; omega) | (dsimp only [Fld.whole]; omega) | (split <;> first | (rfl; done) | (dsimp only; omega)) | show Within _ _ _)
    | with_reducible apply Within.ite
    | split
    | dsimp only
    | with_reducible intro _

theorem State.sendSync_within {lp : List Part} {root s : State} (h : Within lp root s) (hl : ∀ p ∈ ([.free, .outbox] : List Part), p
    ∈ lp) : Within lp root (State.sendSync s) := by
  unfold State.sendSync
  repeat' first
    | with_reducible assumption
    | with_reducible apply State.sendPlant_within (hl := (parts_trans (by decide) hl))
    | with_reducible apply State.sendFrame_within (hl := (parts_trans (by decide) hl))
    | with_reducible apply State.tookFree_within (hl := (parts_trans (by decide) hl))
    | with_reducible refine Within.each ?_ fun _ _ _ => ?_
    | with_reducible refine Within.when ?_ fun _ _ => ?_
    | dsimp only
    | with_reducible intro _

theorem State.hopEpoch_within {lp : List Part} {root s : State} (h : Within lp root s) (st : Int) (hl : ∀ p ∈ ([.regs 0x430, .mod,
    .clk] : List Part), p ∈ lp) : Within lp root (State.hopEpoch s st) := by
  unfold State.hopEpoch
  repeat' first
    | with_reducible assumption
    | with_reducible apply State.hopEval_within (hl := (parts_trans (by decide) hl))
    | with_reducible apply State.hopApply_within (hl := (parts_trans (by decide) hl))
    | with_reducible apply State.hopTaken_within (hl := (parts_trans (by decide) hl))
    | with_reducible apply Within.ite
    | split
    | dsimp only
    | with_reducible intro _

theorem execEpoch_within {s out : State} (e : execEpoch s = .next out) : Within [.regs 0x430, .regs 0x4a0, .free, .outbox, .mod,
    .clk] s out := by
  cases e
  repeat' first
    | with_reducible exact Within.refl _ _
    | with_reducible assumption
    | with_reducible apply State.hopEpoch_within (hl := (by decide))
    | with_reducible apply State.sendSync_within (hl := (by decide))
    | with_reducible apply State.epochStamp_within (hl := (by decide))
    | with_reducible apply State.epochPair_within (hl := (by decide))
    | with_reducible apply State.withMod_within (hl := (by decide))
    | with_reducible refine Within.each ?_ fun _ _ _ => ?_
    | with_reducible apply Within.ite
    | split
    | dsimp only
    | with_reducible intro _

theorem State.modRefuse_within {lp : List Part} {root s : State} (h : Within lp root s) (p : Fin 9) (hl : ∀ p ∈ ([.regs 0x430] :
    List Part), p ∈ lp) : Within lp root (State.modRefuse s p) := by
  unfold State.modRefuse
  repeat' first
    | with_reducible assumption
    | ((with_reducible apply State.inc_within (bf := 0x430) (mf := (hl _ (by decide)))) <;> first | (rfl; done) | (dsimp only; omega) | (dsimp only [Fld.whole]; omega) | (split <;> first | (rfl; done) | (dsimp only; omega)) | show Within _ _ _)
    | ((with_reducible apply State.put_within 0x430 (hb := (hl _ (by decide)))) <;> first | (rfl; done) | (dsimp only; omega) | (dsimp only [Fld.whole]; omega) | (split <;> first | (rfl; done) | (dsimp only; omega)) | show Within _ _ _)
    | dsimp only
    | with_reducible intro _

theorem periodWriteOp_within {lp : List Part} {root s : State} (h : Within lp root s) (p : Fin 9) (v : Word) (hl : ∀ p ∈ ([.regs
    0x430, .mod, .clk] : List Part), p ∈ lp) : Within lp root (periodWriteOp p v s) := by
  unfold periodWriteOp
  repeat' first
    | with_reducible assumption
    | with_reducible apply State.modRefuse_within (hl := (parts_trans (by decide) hl))
    | with_reducible apply State.hopEval_within (hl := (parts_trans (by decide) hl))
    | with_reducible apply State.onPair_within (hl := (parts_trans (by decide) hl))
    | ((with_reducible apply State.put_within 0x430 (hb := (hl _ (by decide)))) <;> first | (rfl; done) | (dsimp only; omega) | (dsimp only [Fld.whole]; omega) | (split <;> first | (rfl; done) | (dsimp only; omega)) | show Within _ _ _)
    | with_reducible refine Within.when ?_ fun _ _ => ?_
    | with_reducible apply Within.ite
    | split
    | dsimp only
    | with_reducible intro _

theorem execPeriodWrite_within {s out : State} (p : Fin 9) (v : Word) (e : execPeriodWrite p v s = .next out) : Within [.regs 0x430,
    .held, .resp, .mod, .clk] s out := by
  cases e
  repeat' first
    | with_reducible exact Within.refl _ _
    | with_reducible assumption
    | with_reducible apply periodWriteOp_within (hl := (by decide))
    | with_reducible apply State.access_within (hl := (by decide))
    | dsimp only
    | with_reducible intro _

theorem ovrWriteOp_within {lp : List Part} {root s : State} (h : Within lp root s) (p : Fin 9) (v : Word) (hl : ∀ p ∈ ([.regs 0x430,
    .regs 0x440, .mod, .tiles, .wins] : List Part), p ∈ lp) : Within lp root (ovrWriteOp p v s) := by
  unfold ovrWriteOp
  repeat' first
    | with_reducible assumption
    | with_reducible apply State.modRefuse_within (hl := (parts_trans (by decide) hl))
    | with_reducible apply State.drive_within (hl := (parts_trans (by decide) hl))
    | ((with_reducible apply State.put_within 0x430 (hb := (hl _ (by decide)))) <;> first | (rfl; done) | (dsimp only; omega) | (dsimp only [Fld.whole]; omega) | (split <;> first | (rfl; done) | (dsimp only; omega)) | show Within _ _ _)
    | with_reducible apply Within.ite
    | split
    | dsimp only
    | with_reducible intro _

theorem execOvrWrite_within {s out : State} (p : Fin 9) (v : Word) (e : execOvrWrite p v s = .next out) : Within [.regs 0x430, .regs
    0x440, .held, .resp, .mod, .tiles, .wins] s out := by
  cases e
  repeat' first
    | with_reducible exact Within.refl _ _
    | with_reducible assumption
    | with_reducible apply ovrWriteOp_within (hl := (by decide))
    | with_reducible apply State.access_within (hl := (by decide))
    | dsimp only
    | with_reducible intro _

end Sys2Proof.Machine
end

