-- ==== Sys2Proof/Laws/WithinClock.lean ====
section
/-!
SUPPORT. The parts of the state that each operation of Machine/Clock.lean may change.
-/

namespace Sys2Proof.Machine

open Sys2Proof

set_option linter.all false

theorem State.strap_within {lp : List Part} {root s : State} (h : Within lp root s) (sel : Nat) (hl : ∀ p ∈ ([.regs 0x480] : List
    Part), p ∈ lp) : Within lp root (State.strap s sel) := by
  unfold State.strap
  repeat' first
    | with_reducible assumption
    | ((with_reducible apply State.put_within 0x480 (hb := (hl _ (by decide)))) <;> first | (rfl; done) | (dsimp only; omega) | (dsimp only [Fld.whole]; omega) | (split <;> first | (rfl; done) | (dsimp only; omega)) | show Within _ _ _)
    | with_reducible refine Within.each ?_ fun _ _ _ => ?_
    | dsimp only
    | with_reducible intro _

theorem State.clkRefuse_within {lp : List Part} {root s : State} (h : Within lp root s) (hl : ∀ p ∈ ([.regs 0x480] : List Part), p ∈
    lp) : Within lp root (State.clkRefuse s) := by
  unfold State.clkRefuse
  repeat' first
    | with_reducible assumption
    | ((with_reducible apply State.inc_within (bf := 0x480) (mf := (hl _ (by decide)))) <;> first | (rfl; done) | (dsimp only; omega) | (dsimp only [Fld.whole]; omega) | (split <;> first | (rfl; done) | (dsimp only; omega)) | show Within _ _ _)
    | ((with_reducible apply State.put_within 0x480 (hb := (hl _ (by decide)))) <;> first | (rfl; done) | (dsimp only; omega) | (dsimp only [Fld.whole]; omega) | (split <;> first | (rfl; done) | (dsimp only; omega)) | show Within _ _ _)
    | dsimp only
    | with_reducible intro _

theorem State.enterHoldover_within {lp : List Part} {root s : State} (h : Within lp root s) (n : Fin 7) (ref : Bool) (hl : ∀ p ∈
    ([.regs 0x430, .regs 0x480, .clk] : List Part), p ∈ lp) : Within lp root (State.enterHoldover s n ref) := by
  unfold State.enterHoldover
  repeat' first
    | with_reducible assumption
    | with_reducible apply State.onPll_within (hl := (parts_trans (by decide) hl))
    | ((with_reducible apply State.inc_within (bf := 0x480) (mf := (hl _ (by decide)))) <;> first | (rfl; done) | (dsimp only; omega) | (dsimp only [Fld.whole]; omega) | (split <;> first | (rfl; done) | (dsimp only; omega)) | show Within _ _ _)
    | ((with_reducible apply State.put_within 0x480 (hb := (hl _ (by decide)))) <;> first | (rfl; done) | (dsimp only; omega) | (dsimp only [Fld.whole]; omega) | (split <;> first | (rfl; done) | (dsimp only; omega)) | show Within _ _ _)
    | ((with_reducible apply State.put_within 0x430 (hb := (hl _ (by decide)))) <;> first | (rfl; done) | (dsimp only; omega) | (dsimp only [Fld.whole]; omega) | (split <;> first | (rfl; done) | (dsimp only; omega)) | show Within _ _ _)
    | with_reducible refine Within.when ?_ fun _ _ => ?_
    | with_reducible apply Within.ite
    | split
    | dsimp only
    | with_reducible intro _

theorem execRefLost_within {s out : State} (e : execRefLost s = .next out) : Within [.regs 0x430, .regs 0x480, .clk] s out := by
  cases e
  repeat' first
    | with_reducible exact Within.refl _ _
    | with_reducible assumption
    | with_reducible apply State.enterHoldover_within (hl := (by decide))
    | ((with_reducible apply State.put_within 0x480 (hb := (by decide))) <;> first | (rfl; done) | (dsimp only; omega) | (dsimp only [Fld.whole]; omega) | (split <;> first | (rfl; done) | (dsimp only; omega)) | show Within _ _ _)
    | with_reducible refine Within.each ?_ fun _ _ _ => ?_
    | with_reducible refine Within.when ?_ fun _ _ => ?_
    | with_reducible apply Within.ite
    | split
    | dsimp only
    | with_reducible intro _

theorem execRefValid_within {s out : State} (e : execRefValid s = .next out) : Within [.regs 0x480] s out := by
  cases e
  repeat' first
    | with_reducible exact Within.refl _ _
    | with_reducible assumption
    | ((with_reducible apply State.put_within 0x480 (hb := (by decide))) <;> first | (rfl; done) | (dsimp only; omega) | (dsimp only [Fld.whole]; omega) | (split <;> first | (rfl; done) | (dsimp only; omega)) | show Within _ _ _)
    | dsimp only
    | with_reducible intro _

theorem State.pllEnable_within {lp : List Part} {root s : State} (h : Within lp root s) (n : Fin 7) (hl : ∀ p ∈ ([.regs 0x430, .regs
    0x480, .clk] : List Part), p ∈ lp) : Within lp root (State.pllEnable s n) := by
  unfold State.pllEnable
  repeat' first
    | with_reducible assumption
    | with_reducible apply State.enterHoldover_within (hl := (parts_trans (by decide) hl))
    | with_reducible apply State.onPll_within (hl := (parts_trans (by decide) hl))
    | ((with_reducible apply State.put_within 0x480 (hb := (hl _ (by decide)))) <;> first | (rfl; done) | (dsimp only; omega) | (dsimp only [Fld.whole]; omega) | (split <;> first | (rfl; done) | (dsimp only; omega)) | show Within _ _ _)
    | with_reducible refine Within.when ?_ fun _ _ => ?_
    | dsimp only
    | with_reducible intro _

theorem State.pllDisable_within {lp : List Part} {root s : State} (h : Within lp root s) (n : Fin 7) (hl : ∀ p ∈ ([.regs 0x480,
    .regs 0x4a0, .clk] : List Part), p ∈ lp) : Within lp root (State.pllDisable s n) := by
  unfold State.pllDisable
  repeat' first
    | with_reducible assumption
    | with_reducible apply State.onPll_within (hl := (parts_trans (by decide) hl))
    | ((with_reducible apply State.put_within 0x480 (hb := (hl _ (by decide)))) <;> first | (rfl; done) | (dsimp only; omega) | (dsimp only [Fld.whole]; omega) | (split <;> first | (rfl; done) | (dsimp only; omega)) | show Within _ _ _)
    | ((with_reducible apply State.put_within 0x4a0 (hb := (hl _ (by decide)))) <;> first | (rfl; done) | (dsimp only; omega) | (dsimp only [Fld.whole]; omega) | (split <;> first | (rfl; done) | (dsimp only; omega)) | show Within _ _ _)
    | with_reducible refine Within.when ?_ fun _ _ => ?_
    | dsimp only
    | with_reducible intro _

theorem pllEnWriteOp_within {lp : List Part} {root s : State} (h : Within lp root s) (n : Fin 7) (en : Bool) (hl : ∀ p ∈ ([.regs
    0x430, .regs 0x480, .regs 0x4a0, .clk] : List Part), p ∈ lp) : Within lp root (pllEnWriteOp n en s) := by
  unfold pllEnWriteOp
  repeat' first
    | with_reducible assumption
    | with_reducible apply State.pllDisable_within (hl := (parts_trans (by decide) hl))
    | with_reducible apply State.pllEnable_within (hl := (parts_trans (by decide) hl))
    | with_reducible apply State.clkRefuse_within (hl := (parts_trans (by decide) hl))
    | with_reducible apply Within.ite
    | split
    | dsimp only
    | with_reducible intro _

theorem execPllEnWrite_within {s out : State} (n : Fin 7) (en : Bool) (e : execPllEnWrite n en s = .next out) : Within [.regs 0x430,
    .regs 0x480, .regs 0x4a0, .held, .resp, .clk] s out := by
  cases e
  repeat' first
    | with_reducible exact Within.refl _ _
    | with_reducible assumption
    | with_reducible apply pllEnWriteOp_within (hl := (by decide))
    | with_reducible apply State.access_within (hl := (by decide))
    | dsimp only
    | with_reducible intro _

theorem pllConfigWriteOp_within {lp : List Part} {root s : State} (h : Within lp root s) (n : Fin 7) (div : Bool) (v : Word) (hl : ∀
    p ∈ ([.regs 0x480] : List Part), p ∈ lp) : Within lp root (pllConfigWriteOp n div v s) := by
  unfold pllConfigWriteOp
  repeat' first
    | with_reducible assumption
    | with_reducible apply State.clkRefuse_within (hl := (parts_trans (by decide) hl))
    | ((with_reducible apply State.put_within 0x480 (hb := (hl _ (by decide)))) <;> first | (rfl; done) | (dsimp only; omega) | (dsimp only [Fld.whole]; omega) | (split <;> first | (rfl; done) | (dsimp only; omega)) | show Within _ _ _)
    | with_reducible apply Within.ite
    | split
    | dsimp only
    | with_reducible intro _

theorem execPllConfigWrite_within {s out : State} (n : Fin 7) (div : Bool) (v : Word) (e : execPllConfigWrite n div v s = .next out)
    : Within [.regs 0x480, .held, .resp] s out := by
  cases e
  repeat' first
    | with_reducible exact Within.refl _ _
    | with_reducible assumption
    | with_reducible apply pllConfigWriteOp_within (hl := (by decide))
    | with_reducible apply State.access_within (hl := (by decide))
    | dsimp only
    | with_reducible intro _

theorem execPllLock_within {s out : State} (n : Fin 7) (e : execPllLock n s = .next out) : Within [.regs 0x480, .clk] s out := by
  cases e
  repeat' first
    | with_reducible exact Within.refl _ _
    | with_reducible assumption
    | with_reducible apply State.onPll_within (hl := (by decide))
    | ((with_reducible apply State.put_within 0x480 (hb := (by decide))) <;> first | (rfl; done) | (dsimp only; omega) | (dsimp only [Fld.whole]; omega) | (split <;> first | (rfl; done) | (dsimp only; omega)) | show Within _ _ _)
    | with_reducible apply Within.ite
    | split
    | dsimp only
    | with_reducible intro _

theorem execPllLockLoss_within {s out : State} (n : Fin 7) (e : execPllLockLoss n s = .next out) : Within [.regs 0x430, .regs 0x480,
    .clk] s out := by
  cases e
  repeat' first
    | with_reducible exact Within.refl _ _
    | with_reducible assumption
    | with_reducible apply State.enterHoldover_within (hl := (by decide))
    | with_reducible refine Within.when ?_ fun _ _ => ?_
    | dsimp only
    | with_reducible intro _

theorem execHoldoverExit_within {s out : State} (n : Fin 7) (e : execHoldoverExit n s = .next out) : Within [.regs 0x430, .regs
    0x480, .clk] s out := by
  cases e
  repeat' first
    | with_reducible exact Within.refl _ _
    | with_reducible assumption
    | with_reducible apply State.onPll_within (hl := (by decide))
    | ((with_reducible apply State.putB_within (bf := 0x430) (mf := (by decide))) <;> first | (rfl; done) | (dsimp only; omega) | (dsimp only [Fld.whole]; omega) | (split <;> first | (rfl; done) | (dsimp only; omega)) | show Within _ _ _)
    | ((with_reducible apply State.put_within 0x480 (hb := (by decide))) <;> first | (rfl; done) | (dsimp only; omega) | (dsimp only [Fld.whole]; omega) | (split <;> first | (rfl; done) | (dsimp only; omega)) | show Within _ _ _)
    | with_reducible refine Within.when ?_ fun _ _ => ?_
    | with_reducible apply Within.ite
    | split
    | dsimp only
    | with_reducible intro _

theorem execPllRelock_within {s out : State} (n : Fin 7) (e : execPllRelock n s = .next out) : Within [.regs 0x430, .regs 0x480,
    .mod, .clk] s out := by
  cases e
  repeat' first
    | with_reducible exact Within.refl _ _
    | with_reducible assumption
    | with_reducible apply State.hopApply_within (hl := (by decide))
    | with_reducible apply State.onPll_within (hl := (by decide))
    | ((with_reducible apply State.put_within 0x480 (hb := (by decide))) <;> first | (rfl; done) | (dsimp only; omega) | (dsimp only [Fld.whole]; omega) | (split <;> first | (rfl; done) | (dsimp only; omega)) | show Within _ _ _)
    | with_reducible apply Within.ite
    | split
    | dsimp only
    | with_reducible intro _

theorem pllStepOp_within {lp : List Part} {root s : State} (h : Within lp root s) (n : Fin 7) (v : BitVec 4) (hl : ∀ p ∈ ([.regs
    0x480, .clk] : List Part), p ∈ lp) : Within lp root (pllStepOp n v s) := by
  unfold pllStepOp
  repeat' first
    | with_reducible assumption
    | with_reducible apply State.clkRefuse_within (hl := (parts_trans (by decide) hl))
    | with_reducible apply State.onPll_within (hl := (parts_trans (by decide) hl))
    | ((with_reducible apply State.put_within 0x480 (hb := (hl _ (by decide)))) <;> first | (rfl; done) | (dsimp only; omega) | (dsimp only [Fld.whole]; omega) | (split <;> first | (rfl; done) | (dsimp only; omega)) | show Within _ _ _)
    | with_reducible apply Within.ite
    | split
    | dsimp only
    | with_reducible intro _

theorem execPllStep_within {s out : State} (n : Fin 7) (v : BitVec 4) (e : execPllStep n v s = .next out) : Within [.regs 0x480,
    .held, .resp, .clk] s out := by
  cases e
  repeat' first
    | with_reducible exact Within.refl _ _
    | with_reducible assumption
    | with_reducible apply pllStepOp_within (hl := (by decide))
    | with_reducible apply State.access_within (hl := (by decide))
    | dsimp only
    | with_reducible intro _

theorem execPllStepUnit_within {s out : State} (n : Fin 7) (e : execPllStepUnit n s = .next out) : Within [.regs 0x480, .clk] s out
    := by
  cases e
  repeat' first
    | with_reducible exact Within.refl _ _
    | with_reducible assumption
    | with_reducible apply State.onPll_within (hl := (by decide))
    | ((with_reducible apply State.put_within 0x480 (hb := (by decide))) <;> first | (rfl; done) | (dsimp only; omega) | (dsimp only [Fld.whole]; omega) | (split <;> first | (rfl; done) | (dsimp only; omega)) | show Within _ _ _)
    | with_reducible apply Within.ite
    | split
    | dsimp only
    | with_reducible intro _

theorem execPllStepSettled_within {s out : State} (n : Fin 7) (e : execPllStepSettled n s = .next out) : Within [.regs 0x480] s out
    := by
  cases e
  repeat' first
    | with_reducible exact Within.refl _ _
    | with_reducible assumption
    | ((with_reducible apply State.put_within 0x480 (hb := (by decide))) <;> first | (rfl; done) | (dsimp only; omega) | (dsimp only [Fld.whole]; omega) | (split <;> first | (rfl; done) | (dsimp only; omega)) | show Within _ _ _)
    | with_reducible refine Within.when ?_ fun _ _ => ?_
    | dsimp only
    | with_reducible intro _

end Sys2Proof.Machine
end

