-- ==== Sys2Proof/Laws/WithinLanes.lean ====
section
/-!
SUPPORT. The parts of the state that each operation of Machine/Lanes.lean may change.
-/

namespace Sys2Proof.Machine

open Sys2Proof

set_option linter.all false

theorem State.onLane_within {lp : List Part} {root s : State} (h : Within lp root s) (l : Fin 6) (f : LaneUnit → LaneUnit) (hl : ∀ p
    ∈ ([.lanes] : List Part), p ∈ lp) : Within lp root (State.onLane s l f) := by
  unfold State.onLane
  repeat' first
    | with_reducible assumption
    | with_reducible apply State.withLanes_within (hl := (parts_trans (by decide) hl))
    | dsimp only
    | with_reducible intro _

theorem State.laneTiming_within {lp : List Part} {root s : State} (h : Within lp root s) (hl : ∀ p ∈ ([.regs 0x490] : List Part), p
    ∈ lp) : Within lp root (State.laneTiming s) := by
  unfold State.laneTiming
  repeat' first
    | with_reducible assumption
    | ((with_reducible apply State.putB_within (bf := 0x490) (mf := (hl _ (by decide)))) <;> first | (rfl; done) | (dsimp only; omega) | (dsimp only [Fld.whole]; omega) | (split <;> first | (rfl; done) | (dsimp only; omega)) | show Within _ _ _)
    | dsimp only
    | with_reducible intro _

theorem State.laneGo_within {lp : List Part} {root s : State} (h : Within lp root s) (l : Fin 6) (st : Nat) (hl : ∀ p ∈ ([.regs
    0x490, .lanes] : List Part), p ∈ lp) : Within lp root (State.laneGo s l st) := by
  unfold State.laneGo
  repeat' first
    | with_reducible assumption
    | with_reducible apply State.laneTiming_within (hl := (parts_trans (by decide) hl))
    | with_reducible apply State.onLane_within (hl := (parts_trans (by decide) hl))
    | ((with_reducible apply State.put_within 0x490 (hb := (hl _ (by decide)))) <;> first | (rfl; done) | (dsimp only; omega) | (dsimp only [Fld.whole]; omega) | (split <;> first | (rfl; done) | (dsimp only; omega)) | show Within _ _ _)
    | dsimp only
    | with_reducible intro _

theorem State.laneTrain_within {lp : List Part} {root s : State} (h : Within lp root s) (l : Fin 6) (hl : ∀ p ∈ ([.regs 0x490,
    .lanes] : List Part), p ∈ lp) : Within lp root (State.laneTrain s l) := by
  unfold State.laneTrain
  repeat' first
    | with_reducible assumption
    | with_reducible apply State.laneGo_within (hl := (parts_trans (by decide) hl))
    | with_reducible apply State.onLane_within (hl := (parts_trans (by decide) hl))
    | dsimp only
    | with_reducible intro _

theorem State.laneRefuse_within {lp : List Part} {root s : State} (h : Within lp root s) (l : Fin 6) (hl : ∀ p ∈ ([.regs 0x490] :
    List Part), p ∈ lp) : Within lp root (State.laneRefuse s l) := by
  unfold State.laneRefuse
  repeat' first
    | with_reducible assumption
    | ((with_reducible apply State.inc_within (bf := 0x490) (mf := (hl _ (by decide)))) <;> first | (rfl; done) | (dsimp only; omega) | (dsimp only [Fld.whole]; omega) | (split <;> first | (rfl; done) | (dsimp only; omega)) | show Within _ _ _)
    | ((with_reducible apply State.put_within 0x490 (hb := (hl _ (by decide)))) <;> first | (rfl; done) | (dsimp only; omega) | (dsimp only [Fld.whole]; omega) | (split <;> first | (rfl; done) | (dsimp only; omega)) | show Within _ _ _)
    | dsimp only
    | with_reducible intro _

theorem State.askPosition_within {lp : List Part} {root s : State} (h : Within lp root s) (c : Fin 4) (p : Nat) (hl : ∀ p ∈
    ([.outbox] : List Part), p ∈ lp) : Within lp root (State.askPosition s c p) := by
  unfold State.askPosition
  repeat' first
    | with_reducible assumption
    | with_reducible apply State.sendFrame_within (hl := (parts_trans (by decide) hl))
    | dsimp only
    | with_reducible intro _

theorem State.discoverStart_within {lp : List Part} {root s : State} (h : Within lp root s) (c : Fin 4) (hl : ∀ p ∈ ([.regs 0x490,
    .outbox, .wlk] : List Part), p ∈ lp) : Within lp root (State.discoverStart s c) := by
  unfold State.discoverStart
  repeat' first
    | with_reducible assumption
    | with_reducible apply State.askPosition_within (hl := (parts_trans (by decide) hl))
    | ((with_reducible apply State.putBit_within (bf := 0x490) (mf := (hl _ (by decide)))) <;> first | (rfl; done) | (dsimp only; omega) | (dsimp only [Fld.whole]; omega) | (split <;> first | (rfl; done) | (dsimp only; omega)) | show Within _ _ _)
    | with_reducible apply State.withWlk_within (hl := (parts_trans (by decide) hl))
    | dsimp only
    | with_reducible intro _

theorem State.laneAccess_within {lp : List Part} {root s : State} (h : Within lp root s) (l : Fin 6) (f : State → State) (hf : ∀ u0,
    Within lp root u0 → Within lp root (f u0)) (hl : ∀ p ∈ ([.held, .resp] : List Part), p ∈ lp) : Within lp root (State.laneAccess
    s l f) := by
  unfold State.laneAccess
  repeat' first
    | with_reducible assumption
    | with_reducible apply hf
    | with_reducible apply State.access_within (hl := (parts_trans (by decide) hl))
    | dsimp only
    | with_reducible intro _

theorem State.hopMeasure_within {lp : List Part} {root s : State} (h : Within lp root s) (hl : ∀ p ∈ ([.regs 0x490, .free] : List
    Part), p ∈ lp) : Within lp root (State.hopMeasure s) := by
  unfold State.hopMeasure
  repeat' first
    | with_reducible assumption
    | with_reducible apply State.tookFree_within (hl := (parts_trans (by decide) hl))
    | ((with_reducible apply State.put_within 0x490 (hb := (hl _ (by decide)))) <;> first | (rfl; done) | (dsimp only; omega) | (dsimp only [Fld.whole]; omega) | (split <;> first | (rfl; done) | (dsimp only; omega)) | show Within _ _ _)
    | with_reducible apply Within.ite
    | split
    | dsimp only
    | with_reducible intro _

theorem execTrainStart_within {s out : State} (l : Fin 6) (e : execTrainStart l s = .next out) : Within [.regs 0x490, .lanes] s out
    := by
  cases e
  repeat' first
    | with_reducible exact Within.refl _ _
    | with_reducible assumption
    | with_reducible apply State.laneTrain_within (hl := (by decide))
    | with_reducible refine Within.when ?_ fun _ _ => ?_
    | dsimp only
    | with_reducible intro _

theorem execTrainComplete_within {s out : State} (l : Fin 6) (precodeTx : Bool) (pre : Fin 17) (post : Fin 33) (e :
    execTrainComplete l precodeTx pre post s = .next out) : Within [.regs 0x490, .free, .outbox, .lanes, .wlk] s out := by
  cases e
  repeat' first
    | with_reducible exact Within.refl _ _
    | with_reducible assumption
    | with_reducible apply State.hopMeasure_within (hl := (by decide))
    | with_reducible apply State.discoverStart_within (hl := (by decide))
    | with_reducible apply State.laneGo_within (hl := (by decide))
    | with_reducible apply State.onLane_within (hl := (by decide))
    | ((with_reducible apply State.putB_within (bf := 0x490) (mf := (by decide))) <;> first | (rfl; done) | (dsimp only; omega) | (dsimp only [Fld.whole]; omega) | (split <;> first | (rfl; done) | (dsimp only; omega)) | show Within _ _ _)
    | ((with_reducible apply State.put_within 0x490 (hb := (by decide))) <;> first | (rfl; done) | (dsimp only; omega) | (dsimp only [Fld.whole]; omega) | (split <;> first | (rfl; done) | (dsimp only; omega)) | show Within _ _ _)
    | with_reducible refine Within.when ?_ fun _ _ => ?_
    | with_reducible apply Within.ite
    | split
    | dsimp only
    | with_reducible intro _

theorem execTrainAttemptFail_within {s out : State} (l : Fin 6) (e : execTrainAttemptFail l s = .next out) : Within [.regs 0x490,
    .lanes] s out := by
  cases e
  repeat' first
    | with_reducible exact Within.refl _ _
    | with_reducible assumption
    | with_reducible apply State.onLane_within (hl := (by decide))
    | ((with_reducible apply State.put_within 0x490 (hb := (by decide))) <;> first | (rfl; done) | (dsimp only; omega) | (dsimp only [Fld.whole]; omega) | (split <;> first | (rfl; done) | (dsimp only; omega)) | show Within _ _ _)
    | with_reducible apply Within.ite
    | split
    | dsimp only
    | with_reducible intro _

theorem execTrainRetry_within {s out : State} (l : Fin 6) (e : execTrainRetry l s = .next out) : Within [.regs 0x490] s out := by
  cases e
  repeat' first
    | with_reducible exact Within.refl _ _
    | with_reducible assumption
    | ((with_reducible apply State.put_within 0x490 (hb := (by decide))) <;> first | (rfl; done) | (dsimp only; omega) | (dsimp only [Fld.whole]; omega) | (split <;> first | (rfl; done) | (dsimp only; omega)) | show Within _ _ _)
    | with_reducible refine Within.when ?_ fun _ _ => ?_
    | dsimp only
    | with_reducible intro _

theorem State.passReverse_within {lp : List Part} {root s : State} (h : Within lp root s) (hl : ∀ p ∈ ([.outbox] : List Part), p ∈
    lp) : Within lp root (State.passReverse s) := by
  unfold State.passReverse
  repeat' first
    | with_reducible assumption
    | with_reducible apply State.send_within (hl := (parts_trans (by decide) hl))
    | with_reducible apply Within.ite
    | split
    | dsimp only
    | with_reducible intro _

theorem State.reverse_within {lp : List Part} {root s : State} (h : Within lp root s) (hl : ∀ p ∈ ([.regs 0x490, .outbox, .wlk] :
    List Part), p ∈ lp) : Within lp root (State.reverse s) := by
  unfold State.reverse
  repeat' first
    | with_reducible assumption
    | with_reducible apply State.passReverse_within (hl := (parts_trans (by decide) hl))
    | with_reducible apply State.laneTiming_within (hl := (parts_trans (by decide) hl))
    | with_reducible apply State.withWlk_within (hl := (parts_trans (by decide) hl))
    | with_reducible apply Within.ite
    | split
    | dsimp only
    | with_reducible intro _

theorem execLaneDown_within {s out : State} (l : Fin 6) (ring : Bool) (e : execLaneDown l ring s = .next out) : Within [.regs 0x490,
    .outbox, .lanes, .wlk] s out := by
  cases e
  repeat' first
    | with_reducible exact Within.refl _ _
    | with_reducible assumption
    | with_reducible apply State.reverse_within (hl := (by decide))
    | with_reducible apply State.laneGo_within (hl := (by decide))
    | with_reducible apply State.onLane_within (hl := (by decide))
    | ((with_reducible apply State.inc_within (bf := 0x490) (mf := (by decide))) <;> first | (rfl; done) | (dsimp only; omega) | (dsimp only [Fld.whole]; omega) | (split <;> first | (rfl; done) | (dsimp only; omega)) | show Within _ _ _)
    | ((with_reducible apply State.put_within 0x490 (hb := (by decide))) <;> first | (rfl; done) | (dsimp only; omega) | (dsimp only [Fld.whole]; omega) | (split <;> first | (rfl; done) | (dsimp only; omega)) | show Within _ _ _)
    | with_reducible apply State.withWlk_within (hl := (by decide))
    | with_reducible refine Within.when ?_ fun _ _ => ?_
    | with_reducible apply Within.ite
    | split
    | dsimp only
    | with_reducible intro _

theorem execCodewordUncorrectable_within {s out : State} (l : Fin 6) (e : execCodewordUncorrectable l s = .next out) : Within [.regs
    0x490] s out := by
  cases e
  repeat' first
    | with_reducible exact Within.refl _ _
    | with_reducible assumption
    | ((with_reducible apply State.inc_within (bf := 0x490) (mf := (by decide))) <;> first | (rfl; done) | (dsimp only; omega) | (dsimp only [Fld.whole]; omega) | (split <;> first | (rfl; done) | (dsimp only; omega)) | show Within _ _ _)
    | with_reducible refine Within.when ?_ fun _ _ => ?_
    | dsimp only
    | with_reducible intro _

theorem retrainOp_within {lp : List Part} {root s : State} (h : Within lp root s) (l : Fin 6) (hl : ∀ p ∈ ([.regs 0x490, .lanes] :
    List Part), p ∈ lp) : Within lp root (retrainOp l s) := by
  unfold retrainOp
  repeat' first
    | with_reducible assumption
    | with_reducible apply State.laneTrain_within (hl := (parts_trans (by decide) hl))
    | with_reducible refine Within.when ?_ fun _ _ => ?_
    | dsimp only
    | with_reducible intro _

theorem execRetrain_within {s out : State} (l : Fin 6) (e : execRetrain l s = .next out) : Within [.regs 0x490, .held, .resp,
    .lanes] s out := by
  cases e
  repeat' first
    | with_reducible exact Within.refl _ _
    | with_reducible assumption
    | with_reducible apply retrainOp_within (hl := (by decide))
    | with_reducible apply State.laneAccess_within (hl := (by decide))
    | dsimp only
    | with_reducible intro _

theorem State.laneRequest_within {lp : List Part} {root s : State} (h : Within lp root s) (l : Fin 6) (target : Nat) (hl : ∀ p ∈
    ([.lanes] : List Part), p ∈ lp) : Within lp root (State.laneRequest s l target) := by
  unfold State.laneRequest
  repeat' first
    | with_reducible assumption
    | with_reducible apply State.onLane_within (hl := (parts_trans (by decide) hl))
    | with_reducible refine Within.when ?_ fun _ _ => ?_
    | dsimp only
    | with_reducible intro _

theorem State.lanePower_within {lp : List Part} {root s : State} (h : Within lp root s) (l : Fin 6) (target : Nat) (hl : ∀ p ∈
    ([.regs 0x490, .lanes] : List Part), p ∈ lp) : Within lp root (State.lanePower s l target) := by
  unfold State.lanePower
  repeat' first
    | with_reducible assumption
    | with_reducible apply State.laneRequest_within (hl := (parts_trans (by decide) hl))
    | with_reducible apply State.laneRefuse_within (hl := (parts_trans (by decide) hl))
    | with_reducible apply Within.ite
    | split
    | dsimp only
    | with_reducible intro _

theorem execL1_within {s out : State} (l : Fin 6) (e : execL1 l s = .next out) : Within [.regs 0x490, .held, .resp, .lanes] s out :=
    by
  cases e
  repeat' first
    | with_reducible exact Within.refl _ _
    | with_reducible assumption
    | with_reducible apply State.lanePower_within (hl := (by decide))
    | with_reducible apply State.laneAccess_within (hl := (by decide))
    | dsimp only
    | with_reducible intro _

theorem execL2_within {s out : State} (l : Fin 6) (e : execL2 l s = .next out) : Within [.regs 0x490, .held, .resp, .lanes] s out :=
    by
  cases e
  repeat' first
    | with_reducible exact Within.refl _ _
    | with_reducible assumption
    | with_reducible apply State.lanePower_within (hl := (by decide))
    | with_reducible apply State.laneAccess_within (hl := (by decide))
    | dsimp only
    | with_reducible intro _

theorem wakeOp_within {lp : List Part} {root s : State} (h : Within lp root s) (l : Fin 6) (hl : ∀ p ∈ ([.lanes] : List Part), p ∈
    lp) : Within lp root (wakeOp l s) := by
  unfold wakeOp
  repeat' first
    | with_reducible assumption
    | with_reducible apply State.onLane_within (hl := (parts_trans (by decide) hl))
    | with_reducible refine Within.when ?_ fun _ _ => ?_
    | dsimp only
    | with_reducible intro _

theorem execWake_within {s out : State} (l : Fin 6) (e : execWake l s = .next out) : Within [.held, .resp, .lanes] s out := by
  cases e
  repeat' first
    | with_reducible exact Within.refl _ _
    | with_reducible assumption
    | with_reducible apply wakeOp_within (hl := (by decide))
    | with_reducible apply State.laneAccess_within (hl := (by decide))
    | dsimp only
    | with_reducible intro _

theorem execAutoL1Request_within {s out : State} (l : Fin 6) (e : execAutoL1Request l s = .next out) : Within [.lanes] s out := by
  cases e
  repeat' first
    | with_reducible exact Within.refl _ _
    | with_reducible assumption
    | with_reducible apply State.laneRequest_within (hl := (by decide))
    | with_reducible refine Within.when ?_ fun _ _ => ?_
    | dsimp only
    | with_reducible intro _

theorem execPowerStateEnter_within {s out : State} (l : Fin 6) (l2 : Bool) (e : execPowerStateEnter l l2 s = .next out) : Within
    [.regs 0x490, .lanes] s out := by
  cases e
  repeat' first
    | with_reducible exact Within.refl _ _
    | with_reducible assumption
    | with_reducible apply State.laneGo_within (hl := (by decide))
    | with_reducible apply Within.ite
    | split
    | dsimp only
    | with_reducible intro _

theorem execPowerStateLapse_within {s out : State} (l : Fin 6) (e : execPowerStateLapse l s = .next out) : Within [.regs 0x490,
    .lanes] s out := by
  cases e
  repeat' first
    | with_reducible exact Within.refl _ _
    | with_reducible assumption
    | with_reducible apply State.onLane_within (hl := (by decide))
    | ((with_reducible apply State.inc_within (bf := 0x490) (mf := (by decide))) <;> first | (rfl; done) | (dsimp only; omega) | (dsimp only [Fld.whole]; omega) | (split <;> first | (rfl; done) | (dsimp only; omega)) | show Within _ _ _)
    | with_reducible refine Within.when ?_ fun _ _ => ?_
    | dsimp only
    | with_reducible intro _

theorem execPowerStateExit_within {s out : State} (l : Fin 6) (e : execPowerStateExit l s = .next out) : Within [.regs 0x490, .free,
    .lanes] s out := by
  cases e
  repeat' first
    | with_reducible exact Within.refl _ _
    | with_reducible assumption
    | with_reducible apply State.hopMeasure_within (hl := (by decide))
    | with_reducible apply State.laneGo_within (hl := (by decide))
    | with_reducible refine Within.when ?_ fun _ _ => ?_
    | dsimp only
    | with_reducible intro _

theorem execL2ExitRetrain_within {s out : State} (l : Fin 6) (e : execL2ExitRetrain l s = .next out) : Within [.regs 0x490, .lanes]
    s out := by
  cases e
  repeat' first
    | with_reducible exact Within.refl _ _
    | with_reducible assumption
    | with_reducible apply State.laneTrain_within (hl := (by decide))
    | ((with_reducible apply State.inc_within (bf := 0x490) (mf := (by decide))) <;> first | (rfl; done) | (dsimp only; omega) | (dsimp only [Fld.whole]; omega) | (split <;> first | (rfl; done) | (dsimp only; omega)) | show Within _ _ _)
    | with_reducible refine Within.when ?_ fun _ _ => ?_
    | dsimp only
    | with_reducible intro _

theorem testEnterOp_within {lp : List Part} {root s : State} (h : Within lp root s) (l : Fin 6) (hl : ∀ p ∈ ([.regs 0x490, .lanes] :
    List Part), p ∈ lp) : Within lp root (testEnterOp l s) := by
  unfold testEnterOp
  repeat' first
    | with_reducible assumption
    | with_reducible apply State.laneRefuse_within (hl := (parts_trans (by decide) hl))
    | with_reducible apply State.laneGo_within (hl := (parts_trans (by decide) hl))
    | with_reducible apply Within.ite
    | split
    | dsimp only
    | with_reducible intro _

theorem execTestEnter_within {s out : State} (l : Fin 6) (e : execTestEnter l s = .next out) : Within [.regs 0x490, .held, .resp,
    .lanes] s out := by
  cases e
  repeat' first
    | with_reducible exact Within.refl _ _
    | with_reducible assumption
    | with_reducible apply testEnterOp_within (hl := (by decide))
    | with_reducible apply State.laneAccess_within (hl := (by decide))
    | dsimp only
    | with_reducible intro _

theorem testExitOp_within {lp : List Part} {root s : State} (h : Within lp root s) (l : Fin 6) (hl : ∀ p ∈ ([.regs 0x490, .lanes] :
    List Part), p ∈ lp) : Within lp root (testExitOp l s) := by
  unfold testExitOp
  repeat' first
    | with_reducible assumption
    | with_reducible apply State.laneTrain_within (hl := (parts_trans (by decide) hl))
    | with_reducible refine Within.when ?_ fun _ _ => ?_
    | dsimp only
    | with_reducible intro _

theorem execTestExit_within {s out : State} (l : Fin 6) (e : execTestExit l s = .next out) : Within [.regs 0x490, .held, .resp,
    .lanes] s out := by
  cases e
  repeat' first
    | with_reducible exact Within.refl _ _
    | with_reducible assumption
    | with_reducible apply testExitOp_within (hl := (by decide))
    | with_reducible apply State.laneAccess_within (hl := (by decide))
    | dsimp only
    | with_reducible intro _

theorem patCfgWriteOp_within {lp : List Part} {root s : State} (h : Within lp root s) (l : Fin 6) (v : Word) (hl : ∀ p ∈ ([.regs
    0x490, .free, .lanes] : List Part), p ∈ lp) : Within lp root (patCfgWriteOp l v s) := by
  unfold patCfgWriteOp
  repeat' first
    | with_reducible assumption
    | with_reducible apply State.laneRefuse_within (hl := (parts_trans (by decide) hl))
    | with_reducible apply State.onLane_within (hl := (parts_trans (by decide) hl))
    | with_reducible apply State.tookFree_within (hl := (parts_trans (by decide) hl))
    | ((with_reducible apply State.putB_within (bf := 0x490) (mf := (hl _ (by decide)))) <;> first | (rfl; done) | (dsimp only; omega) | (dsimp only [Fld.whole]; omega) | (split <;> first | (rfl; done) | (dsimp only; omega)) | show Within _ _ _)
    | ((with_reducible apply State.put_within 0x490 (hb := (hl _ (by decide)))) <;> first | (rfl; done) | (dsimp only; omega) | (dsimp only [Fld.whole]; omega) | (split <;> first | (rfl; done) | (dsimp only; omega)) | show Within _ _ _)
    | with_reducible refine Within.when ?_ fun _ _ => ?_
    | with_reducible apply Within.ite
    | split
    | dsimp only
    | with_reducible intro _

theorem execPatCfgWrite_within {s out : State} (l : Fin 6) (v : Word) (e : execPatCfgWrite l v s = .next out) : Within [.regs 0x490,
    .held, .resp, .free, .lanes] s out := by
  cases e
  repeat' first
    | with_reducible exact Within.refl _ _
    | with_reducible assumption
    | with_reducible apply patCfgWriteOp_within (hl := (by decide))
    | with_reducible apply State.laneAccess_within (hl := (by decide))
    | dsimp only
    | with_reducible intro _

theorem execPatLock_within {s out : State} (l : Fin 6) (e : execPatLock l s = .next out) : Within [.regs 0x490] s out := by
  cases e
  repeat' first
    | with_reducible exact Within.refl _ _
    | with_reducible assumption
    | ((with_reducible apply State.put_within 0x490 (hb := (by decide))) <;> first | (rfl; done) | (dsimp only; omega) | (dsimp only [Fld.whole]; omega) | (split <;> first | (rfl; done) | (dsimp only; omega)) | show Within _ _ _)
    | with_reducible refine Within.when ?_ fun _ _ => ?_
    | dsimp only
    | with_reducible intro _

theorem execPatLockLost_within {s out : State} (l : Fin 6) (bits : DWord) (errs : Word) (e : execPatLockLost l bits errs s = .next
    out) : Within [.regs 0x490] s out := by
  cases e
  repeat' first
    | with_reducible exact Within.refl _ _
    | with_reducible assumption
    | ((with_reducible apply State.addSat_within (bf := 0x490) (mf := (by decide))) <;> first | (rfl; done) | (dsimp only; omega) | (dsimp only [Fld.whole]; omega) | (split <;> first | (rfl; done) | (dsimp only; omega)) | show Within _ _ _)
    | ((with_reducible apply State.put_within 0x490 (hb := (by decide))) <;> first | (rfl; done) | (dsimp only; omega) | (dsimp only [Fld.whole]; omega) | (split <;> first | (rfl; done) | (dsimp only; omega)) | show Within _ _ _)
    | with_reducible refine Within.when ?_ fun _ _ => ?_
    | dsimp only
    | with_reducible intro _

theorem injectOp_within {lp : List Part} {root s : State} (h : Within lp root s) (l : Fin 6) (hl : ∀ p ∈ ([.regs 0x490, .lanes] :
    List Part), p ∈ lp) : Within lp root (injectOp l s) := by
  unfold injectOp
  repeat' first
    | with_reducible assumption
    | with_reducible apply State.laneRefuse_within (hl := (parts_trans (by decide) hl))
    | with_reducible apply State.onLane_within (hl := (parts_trans (by decide) hl))
    | ((with_reducible apply State.put_within 0x490 (hb := (hl _ (by decide)))) <;> first | (rfl; done) | (dsimp only; omega) | (dsimp only [Fld.whole]; omega) | (split <;> first | (rfl; done) | (dsimp only; omega)) | show Within _ _ _)
    | with_reducible apply Within.ite
    | split
    | dsimp only
    | with_reducible intro _

theorem execInject_within {s out : State} (l : Fin 6) (e : execInject l s = .next out) : Within [.regs 0x490, .held, .resp, .lanes] s out :=
    by
  cases e
  repeat' first
    | with_reducible exact Within.refl _ _
    | with_reducible assumption
    | with_reducible apply injectOp_within (hl := (by decide))
    | with_reducible apply State.laneAccess_within (hl := (by decide))
    | dsimp only
    | with_reducible intro _

theorem loopWriteOp_within {lp : List Part} {root s : State} (h : Within lp root s) (l : Fin 6) (v : BitVec 2) (hl : ∀ p ∈ ([.regs
    0x490] : List Part), p ∈ lp) : Within lp root (loopWriteOp l v s) := by
  unfold loopWriteOp
  repeat' first
    | with_reducible assumption
    | with_reducible apply State.laneRefuse_within (hl := (parts_trans (by decide) hl))
    | ((with_reducible apply State.put_within 0x490 (hb := (hl _ (by decide)))) <;> first | (rfl; done) | (dsimp only; omega) | (dsimp only [Fld.whole]; omega) | (split <;> first | (rfl; done) | (dsimp only; omega)) | show Within _ _ _)
    | with_reducible apply Within.ite
    | split
    | dsimp only
    | with_reducible intro _

theorem execLoopWrite_within {s out : State} (l : Fin 6) (v : BitVec 2) (e : execLoopWrite l v s = .next out) : Within [.regs 0x490,
    .held, .resp] s out := by
  cases e
  repeat' first
    | with_reducible exact Within.refl _ _
    | with_reducible assumption
    | with_reducible apply loopWriteOp_within (hl := (by decide))
    | with_reducible apply State.laneAccess_within (hl := (by decide))
    | dsimp only
    | with_reducible intro _

theorem rlbReqOp_within {lp : List Part} {root s : State} (h : Within lp root s) (l : Fin 6) (req : Bool) (answer : Option Bool) (hl
    : ∀ p ∈ ([.regs 0x490, .outbox, .lanes] : List Part), p ∈ lp) : Within lp root (rlbReqOp l req answer s) := by
  unfold rlbReqOp
  repeat' first
    | with_reducible assumption
    | with_reducible apply State.laneRefuse_within (hl := (parts_trans (by decide) hl))
    | with_reducible apply State.laneTrain_within (hl := (parts_trans (by decide) hl))
    | with_reducible apply State.send_within (hl := (parts_trans (by decide) hl))
    | ((with_reducible apply State.put_within 0x490 (hb := (hl _ (by decide)))) <;> first | (rfl; done) | (dsimp only; omega) | (dsimp only [Fld.whole]; omega) | (split <;> first | (rfl; done) | (dsimp only; omega)) | show Within _ _ _)
    | with_reducible refine Within.when ?_ fun _ _ => ?_
    | with_reducible apply Within.ite
    | split
    | dsimp only
    | with_reducible intro _

theorem execRlbReq_within {s out : State} (l : Fin 6) (req : Bool) (answer : Option Bool) (e : execRlbReq l req answer s = .next
    out) : Within [.regs 0x490, .held, .resp, .outbox, .lanes] s out := by
  cases e
  repeat' first
    | with_reducible exact Within.refl _ _
    | with_reducible assumption
    | with_reducible apply rlbReqOp_within (hl := (by decide))
    | with_reducible apply State.laneAccess_within (hl := (by decide))
    | dsimp only
    | with_reducible intro _

theorem execRlbRequestReceived_within {s out : State} (l : Fin 6) (req : Bool) (e : execRlbRequestReceived l req s = .next out) :
    Within [.regs 0x490, .outbox, .lanes] s out := by
  cases e
  repeat' first
    | with_reducible exact Within.refl _ _
    | with_reducible assumption
    | with_reducible apply State.laneTrain_within (hl := (by decide))
    | with_reducible apply State.send_within (hl := (by decide))
    | ((with_reducible apply State.put_within 0x490 (hb := (by decide))) <;> first | (rfl; done) | (dsimp only; omega) | (dsimp only [Fld.whole]; omega) | (split <;> first | (rfl; done) | (dsimp only; omega)) | show Within _ _ _)
    | with_reducible refine Within.when ?_ fun _ _ => ?_
    | with_reducible apply Within.ite
    | split
    | dsimp only
    | with_reducible intro _

theorem State.fecTick_within {lp : List Part} {root s : State} (h : Within lp root s) (l : Fin 6) (hl : ∀ p ∈ ([.regs 0x490, .free]
    : List Part), p ∈ lp) : Within lp root (State.fecTick s l) := by
  unfold State.fecTick
  repeat' first
    | with_reducible assumption
    | with_reducible apply State.tookFree_within (hl := (parts_trans (by decide) hl))
    | ((with_reducible apply State.addSat_within (bf := 0x490) (mf := (hl _ (by decide)))) <;> first | (rfl; done) | (dsimp only; omega) | (dsimp only [Fld.whole]; omega) | (split <;> first | (rfl; done) | (dsimp only; omega)) | show Within _ _ _)
    | ((with_reducible apply State.inc_within (bf := 0x490) (mf := (hl _ (by decide)))) <;> first | (rfl; done) | (dsimp only; omega) | (dsimp only [Fld.whole]; omega) | (split <;> first | (rfl; done) | (dsimp only; omega)) | show Within _ _ _)
    | with_reducible refine Within.when ?_ fun _ _ => ?_
    | with_reducible apply Within.ite
    | split
    | dsimp only
    | with_reducible intro _

theorem State.patTick_within {lp : List Part} {root s : State} (h : Within lp root s) (l : Fin 6) (hl : ∀ p ∈ ([.regs 0x490, .free,
    .lanes] : List Part), p ∈ lp) : Within lp root (State.patTick s l) := by
  unfold State.patTick
  repeat' first
    | with_reducible assumption
    | with_reducible apply State.onLane_within (hl := (parts_trans (by decide) hl))
    | with_reducible apply State.tookFree_within (hl := (parts_trans (by decide) hl))
    | ((with_reducible apply State.addSat_within (bf := 0x490) (mf := (hl _ (by decide)))) <;> first | (rfl; done) | (dsimp only; omega) | (dsimp only [Fld.whole]; omega) | (split <;> first | (rfl; done) | (dsimp only; omega)) | show Within _ _ _)
    | ((with_reducible apply State.put_within 0x490 (hb := (hl _ (by decide)))) <;> first | (rfl; done) | (dsimp only; omega) | (dsimp only [Fld.whole]; omega) | (split <;> first | (rfl; done) | (dsimp only; omega)) | show Within _ _ _)
    | with_reducible refine Within.when ?_ fun _ _ => ?_
    | with_reducible apply Within.ite
    | split
    | dsimp only
    | with_reducible intro _

theorem State.tickLane_within {lp : List Part} {root s : State} (h : Within lp root s) (l : Fin 6) (hl : ∀ p ∈ ([.regs 0x490, .free,
    .lanes] : List Part), p ∈ lp) : Within lp root (State.tickLane s l) := by
  unfold State.tickLane
  repeat' first
    | with_reducible assumption
    | with_reducible apply State.patTick_within (hl := (parts_trans (by decide) hl))
    | with_reducible apply State.fecTick_within (hl := (parts_trans (by decide) hl))
    | with_reducible apply State.onLane_within (hl := (parts_trans (by decide) hl))
    | with_reducible apply Within.ite
    | split
    | dsimp only
    | with_reducible intro _

theorem execEyeMeasure_within {s out : State} (l : Fin 6) (eye : Fin 3) (h v : BitVec 10) (e : execEyeMeasure l eye h v s = .next
    out) : Within [.regs 0x470, .regs 0x490, .regs 0x4d0, .met, .sag, .grg] s out := by
  cases e
  repeat' first
    | with_reducible exact Within.refl _ _
    | with_reducible assumption
    | with_reducible apply State.grogEye_within (hl := (by decide))
    | with_reducible apply State.grogReport_within (hl := (by decide))
    | ((with_reducible apply State.put_within 0x490 (hb := (by decide))) <;> first | (rfl; done) | (dsimp only; omega) | (dsimp only [Fld.whole]; omega) | (split <;> first | (rfl; done) | (dsimp only; omega)) | show Within _ _ _)
    | with_reducible refine Within.when ?_ fun _ _ => ?_
    | with_reducible apply Within.ite
    | split
    | dsimp only
    | with_reducible intro _

end Sys2Proof.Machine
end

