-- ==== Sys2Proof/Laws/WithinNet.lean ====
section
/-!
SUPPORT. The parts of the state that each operation of Machine/Net.lean may change.
-/

namespace Sys2Proof.Machine

open Sys2Proof

set_option linter.all false

theorem State.onMac_within {lp : List Part} {root s : State} (h : Within lp root s) (m : Fin 2) (f : Mac → Mac) (hl : ∀ p ∈ ([.net]
    : List Part), p ∈ lp) : Within lp root (State.onMac s m f) := by
  unfold State.onMac
  repeat' first
    | with_reducible assumption
    | with_reducible apply State.withNet_within (hl := (parts_trans (by decide) hl))
    | dsimp only
    | with_reducible intro _

theorem State.netAccess_within {lp : List Part} {root s : State} (h : Within lp root s) (f : State → State) (hf : ∀ u0, Within lp
    root u0 → Within lp root (f u0)) (hl : ∀ p ∈ ([.held, .resp] : List Part), p ∈ lp) : Within lp root (State.netAccess s f) := by
  unfold State.netAccess
  repeat' first
    | with_reducible assumption
    | with_reducible apply hf
    | with_reducible apply State.access_within (hl := (parts_trans (by decide) hl))
    | dsimp only
    | with_reducible intro _

theorem State.ptpRefused_within {lp : List Part} {root s : State} (h : Within lp root s) (hl : ∀ p ∈ ([.regs 0x490] : List Part), p
    ∈ lp) : Within lp root (State.ptpRefused s) := by
  unfold State.ptpRefused
  repeat' first
    | with_reducible assumption
    | ((with_reducible apply State.inc_within (bf := 0x490) (mf := (hl _ (by decide)))) <;> first | (rfl; done) | (dsimp only; omega) | (dsimp only [Fld.whole]; omega) | (split <;> first | (rfl; done) | (dsimp only; omega)) | show Within _ _ _)
    | ((with_reducible apply State.put_within 0x490 (hb := (hl _ (by decide)))) <;> first | (rfl; done) | (dsimp only; omega) | (dsimp only [Fld.whole]; omega) | (split <;> first | (rfl; done) | (dsimp only; omega)) | show Within _ _ _)
    | dsimp only
    | with_reducible intro _

theorem State.ptpAdvance_within {lp : List Part} {root s : State} (h : Within lp root s) (n : Nat) (hl : ∀ p ∈ ([.net] : List Part),
    p ∈ lp) : Within lp root (State.ptpAdvance s n) := by
  unfold State.ptpAdvance
  repeat' first
    | with_reducible assumption
    | with_reducible apply State.withNet_within (hl := (parts_trans (by decide) hl))
    | dsimp only
    | with_reducible intro _

theorem State.ptpStep_within {lp : List Part} {root s : State} (h : Within lp root s) (p : Ptp) (hl : ∀ p ∈ ([.regs 0x4a0, .groups,
    .net] : List Part), p ∈ lp) : Within lp root (State.ptpStep s p) := by
  unfold State.ptpStep
  repeat' first
    | with_reducible assumption
    | with_reducible apply State.onGroup_within (hl := (parts_trans (by decide) hl))
    | ((with_reducible apply State.put_within 0x4a0 (hb := (hl _ (by decide)))) <;> first | (rfl; done) | (dsimp only; omega) | (dsimp only [Fld.whole]; omega) | (split <;> first | (rfl; done) | (dsimp only; omega)) | show Within _ _ _)
    | with_reducible apply State.withNet_within (hl := (parts_trans (by decide) hl))
    | with_reducible refine Within.each ?_ fun _ _ _ => ?_
    | with_reducible apply Within.ite
    | split
    | dsimp only
    | with_reducible intro _

theorem State.ptpIncTake_within {lp : List Part} {root s : State} (h : Within lp root s) (n : Nat) (hl : ∀ p ∈ ([.regs 0x4a0, .net]
    : List Part), p ∈ lp) : Within lp root (State.ptpIncTake s n) := by
  unfold State.ptpIncTake
  repeat' first
    | with_reducible assumption
    | ((with_reducible apply State.put_within 0x4a0 (hb := (hl _ (by decide)))) <;> first | (rfl; done) | (dsimp only; omega) | (dsimp only [Fld.whole]; omega) | (split <;> first | (rfl; done) | (dsimp only; omega)) | show Within _ _ _)
    | with_reducible apply State.withNet_within (hl := (parts_trans (by decide) hl))
    | dsimp only
    | with_reducible intro _

theorem ptpIncWriteOp_within {lp : List Part} {root s : State} (h : Within lp root s) (half : Option Bool) (v : DWord) (hl : ∀ p ∈
    ([.regs 0x490, .regs 0x4a0, .net] : List Part), p ∈ lp) : Within lp root (ptpIncWriteOp half v s) := by
  unfold ptpIncWriteOp
  repeat' first
    | with_reducible assumption
    | with_reducible apply State.ptpIncTake_within (hl := (parts_trans (by decide) hl))
    | with_reducible apply State.ptpRefused_within (hl := (parts_trans (by decide) hl))
    | ((with_reducible apply State.inc_within (bf := 0x4a0) (mf := (hl _ (by decide)))) <;> first | (rfl; done) | (dsimp only; omega) | (dsimp only [Fld.whole]; omega) | (split <;> first | (rfl; done) | (dsimp only; omega)) | show Within _ _ _)
    | with_reducible apply State.withNet_within (hl := (parts_trans (by decide) hl))
    | with_reducible apply Within.ite
    | split
    | dsimp only
    | with_reducible intro _

theorem execPtpIncWrite_within {s out : State} (half : Option Bool) (v : DWord) (e : execPtpIncWrite half v s = .next out) : Within
    [.regs 0x490, .regs 0x4a0, .held, .resp, .net] s out := by
  cases e
  repeat' first
    | with_reducible exact Within.refl _ _
    | with_reducible assumption
    | with_reducible apply ptpIncWriteOp_within (hl := (by decide))
    | with_reducible apply State.netAccess_within (hl := (by decide))
    | dsimp only
    | with_reducible intro _

theorem ptpOfsWriteOp_within {lp : List Part} {root s : State} (h : Within lp root s) (v : Word) (hl : ∀ p ∈ ([.regs 0x490, .regs
    0x4a0, .groups, .net] : List Part), p ∈ lp) : Within lp root (ptpOfsWriteOp v s) := by
  unfold ptpOfsWriteOp
  repeat' first
    | with_reducible assumption
    | with_reducible apply State.ptpStep_within (hl := (parts_trans (by decide) hl))
    | with_reducible apply State.ptpRefused_within (hl := (parts_trans (by decide) hl))
    | ((with_reducible apply State.inc_within (bf := 0x4a0) (mf := (hl _ (by decide)))) <;> first | (rfl; done) | (dsimp only; omega) | (dsimp only [Fld.whole]; omega) | (split <;> first | (rfl; done) | (dsimp only; omega)) | show Within _ _ _)
    | with_reducible apply Within.ite
    | split
    | dsimp only
    | with_reducible intro _

theorem execPtpOfsWrite_within {s out : State} (v : Word) (e : execPtpOfsWrite v s = .next out) : Within [.regs 0x490, .regs 0x4a0,
    .held, .resp, .groups, .net] s out := by
  cases e
  repeat' first
    | with_reducible exact Within.refl _ _
    | with_reducible assumption
    | with_reducible apply ptpOfsWriteOp_within (hl := (by decide))
    | with_reducible apply State.netAccess_within (hl := (by decide))
    | dsimp only
    | with_reducible intro _

theorem ptpSetOp_within {lp : List Part} {root s : State} (h : Within lp root s) (hl : ∀ p ∈ ([.regs 0x490, .regs 0x4a0, .groups,
    .net] : List Part), p ∈ lp) : Within lp root (ptpSetOp s) := by
  unfold ptpSetOp
  repeat' first
    | with_reducible assumption
    | with_reducible apply State.ptpStep_within (hl := (parts_trans (by decide) hl))
    | with_reducible apply State.ptpRefused_within (hl := (parts_trans (by decide) hl))
    | with_reducible apply Within.ite
    | split
    | dsimp only
    | with_reducible intro _

theorem execPtpSet_within {s out : State} (e : execPtpSet s = .next out) : Within [.regs 0x490, .regs 0x4a0, .held, .resp, .groups,
    .net] s out := by
  cases e
  repeat' first
    | with_reducible exact Within.refl _ _
    | with_reducible assumption
    | with_reducible apply ptpSetOp_within (hl := (by decide))
    | with_reducible apply State.netAccess_within (hl := (by decide))
    | dsimp only
    | with_reducible intro _

theorem State.ptpSetValid_within {lp : List Part} {root s : State} (h : Within lp root s) (b : Bool) (hl : ∀ p ∈ ([.regs 0x4a0,
    .met] : List Part), p ∈ lp) : Within lp root (State.ptpSetValid s b) := by
  unfold State.ptpSetValid
  repeat' first
    | with_reducible assumption
    | ((with_reducible apply State.putB_within (bf := 0x4a0) (mf := (hl _ (by decide)))) <;> first | (rfl; done) | (dsimp only; omega) | (dsimp only [Fld.whole]; omega) | (split <;> first | (rfl; done) | (dsimp only; omega)) | show Within _ _ _)
    | with_reducible apply State.withMet_within (hl := (parts_trans (by decide) hl))
    | with_reducible refine Within.when ?_ fun _ _ => ?_
    | with_reducible apply Within.ite
    | split
    | dsimp only
    | with_reducible intro _

theorem State.followValid_within {lp : List Part} {root s : State} (h : Within lp root s) (hl : ∀ p ∈ ([.regs 0x4a0, .met] : List
    Part), p ∈ lp) : Within lp root (State.followValid s) := by
  unfold State.followValid
  repeat' first
    | with_reducible assumption
    | with_reducible apply State.ptpSetValid_within (hl := (parts_trans (by decide) hl))
    | with_reducible apply Within.ite
    | split
    | dsimp only
    | with_reducible intro _

theorem execSetValid_within {s out : State} (e : execSetValid s = .next out) : Within [.regs 0x4a0, .held, .resp, .met] s out := by
  cases e
  repeat' first
    | with_reducible exact Within.refl _ _
    | with_reducible assumption
    | with_reducible apply State.ptpSetValid_within (hl := (by decide))
    | with_reducible apply State.netAccess_within (hl := (by decide))
    | with_reducible apply Within.ite
    | split
    | dsimp only
    | with_reducible intro _

theorem execClrValid_within {s out : State} (e : execClrValid s = .next out) : Within [.regs 0x4a0, .held, .resp, .met] s out := by
  cases e
  repeat' first
    | with_reducible exact Within.refl _ _
    | with_reducible assumption
    | with_reducible apply State.ptpSetValid_within (hl := (by decide))
    | with_reducible apply State.netAccess_within (hl := (by decide))
    | with_reducible apply Within.ite
    | split
    | dsimp only
    | with_reducible intro _

theorem ptpNowReadOp_within {lp : List Part} {root s : State} (h : Within lp root s) (hl : ∀ p ∈ ([.regs 0x4a0] : List Part), p ∈
    lp) : Within lp root (ptpNowReadOp s).1 := by
  unfold ptpNowReadOp
  try dsimp only
  repeat' first
    | with_reducible assumption
    | split
    | ((with_reducible apply State.put_within 0x4a0 (hb := (hl _ (by decide)))) <;> first | (rfl; done) | (dsimp only; omega) | (dsimp only [Fld.whole]; omega) | (split <;> first | (rfl; done) | (dsimp only; omega)) | show Within _ _ _)
    | dsimp only
    | with_reducible intro _

theorem execPtpNowRead_within {s out : State} (e : execPtpNowRead s = .next out) : Within [.regs 0x4a0, .held, .resp] s out := by
  cases e
  repeat' first
    | with_reducible exact Within.refl _ _
    | with_reducible assumption
    | with_reducible apply ptpNowReadOp_within (hl := (by decide))
    | with_reducible apply State.accessV_within (hl := (by decide))
    | dsimp only
    | with_reducible intro _

theorem State.macRefuse_within {lp : List Part} {root s : State} (h : Within lp root s) (m : Fin 2) (hl : ∀ p ∈ ([.regs 0x4a0] :
    List Part), p ∈ lp) : Within lp root (State.macRefuse s m) := by
  unfold State.macRefuse
  repeat' first
    | with_reducible assumption
    | ((with_reducible apply State.inc_within (bf := 0x4a0) (mf := (hl _ (by decide)))) <;> first | (rfl; done) | (dsimp only; omega) | (dsimp only [Fld.whole]; omega) | (split <;> first | (rfl; done) | (dsimp only; omega)) | show Within _ _ _)
    | dsimp only
    | with_reducible intro _

theorem macEnWriteOp_within {lp : List Part} {root s : State} (h : Within lp root s) (m : Fin 2) (v : Word) (hl : ∀ p ∈ ([.regs
    0x4a0, .net] : List Part), p ∈ lp) : Within lp root (macEnWriteOp m v s) := by
  unfold macEnWriteOp
  repeat' first
    | with_reducible assumption
    | with_reducible apply State.macRefuse_within (hl := (parts_trans (by decide) hl))
    | with_reducible apply State.onMac_within (hl := (parts_trans (by decide) hl))
    | ((with_reducible apply State.putB_within (bf := 0x4a0) (mf := (hl _ (by decide)))) <;> first | (rfl; done) | (dsimp only; omega) | (dsimp only [Fld.whole]; omega) | (split <;> first | (rfl; done) | (dsimp only; omega)) | show Within _ _ _)
    | ((with_reducible apply State.put_within 0x4a0 (hb := (hl _ (by decide)))) <;> first | (rfl; done) | (dsimp only; omega) | (dsimp only [Fld.whole]; omega) | (split <;> first | (rfl; done) | (dsimp only; omega)) | show Within _ _ _)
    | with_reducible apply Within.ite
    | split
    | dsimp only
    | with_reducible intro _

theorem execMacEnWrite_within {s out : State} (m : Fin 2) (v : Word) (e : execMacEnWrite m v s = .next out) : Within [.regs 0x4a0,
    .held, .resp, .net] s out := by
  cases e
  repeat' first
    | with_reducible exact Within.refl _ _
    | with_reducible assumption
    | with_reducible apply macEnWriteOp_within (hl := (by decide))
    | with_reducible apply State.netAccess_within (hl := (by decide))
    | dsimp only
    | with_reducible intro _

theorem State.sendPause_within {lp : List Part} {root s : State} (h : Within lp root s) (m : Fin 2) (stop : Bool) (hl : ∀ p ∈
    ([.outbox, .net] : List Part), p ∈ lp) : Within lp root (State.sendPause s m stop) := by
  unfold State.sendPause
  repeat' first
    | with_reducible assumption
    | with_reducible apply State.onMac_within (hl := (parts_trans (by decide) hl))
    | with_reducible apply State.send_within (hl := (parts_trans (by decide) hl))
    | with_reducible apply Within.ite
    | split
    | dsimp only
    | with_reducible intro _

theorem kickOp_within {lp : List Part} {root s : State} (h : Within lp root s) (m : Fin 2) (hl : ∀ p ∈ ([.outbox, .net] : List
    Part), p ∈ lp) : Within lp root (kickOp m s) := by
  unfold kickOp
  repeat' first
    | with_reducible assumption
    | with_reducible apply State.sendPause_within (hl := (parts_trans (by decide) hl))
    | with_reducible apply State.onMac_within (hl := (parts_trans (by decide) hl))
    | with_reducible refine Within.when ?_ fun _ _ => ?_
    | dsimp only
    | with_reducible intro _

theorem execKick_within {s out : State} (m : Fin 2) (e : execKick m s = .next out) : Within [.held, .resp, .outbox, .net] s out :=
    by
  cases e
  repeat' first
    | with_reducible exact Within.refl _ _
    | with_reducible assumption
    | with_reducible apply kickOp_within (hl := (by decide))
    | with_reducible apply State.netAccess_within (hl := (by decide))
    | dsimp only
    | with_reducible intro _

theorem execMacLinkChange_within {s out : State} (m : Fin 2) (up : Bool) (rate : BitVec 2) (e : execMacLinkChange m up rate s =
    .next out) : Within [.regs 0x4a0] s out := by
  cases e
  repeat' first
    | with_reducible exact Within.refl _ _
    | with_reducible assumption
    | ((with_reducible apply State.putB_within (bf := 0x4a0) (mf := (by decide))) <;> first | (rfl; done) | (dsimp only; omega) | (dsimp only [Fld.whole]; omega) | (split <;> first | (rfl; done) | (dsimp only; omega)) | show Within _ _ _)
    | ((with_reducible apply State.put_within 0x4a0 (hb := (by decide))) <;> first | (rfl; done) | (dsimp only; omega) | (dsimp only [Fld.whole]; omega) | (split <;> first | (rfl; done) | (dsimp only; omega)) | show Within _ _ _)
    | with_reducible refine Within.when ?_ fun _ _ => ?_
    | dsimp only
    | with_reducible intro _

theorem State.tsPush_within {lp : List Part} {root s : State} (h : Within lp root s) (m : Fin 2) (e : TsEntry) (hl : ∀ p ∈ ([.regs
    0x4a0, .net] : List Part), p ∈ lp) : Within lp root (State.tsPush s m e) := by
  unfold State.tsPush
  repeat' first
    | with_reducible assumption
    | with_reducible apply State.onMac_within (hl := (parts_trans (by decide) hl))
    | ((with_reducible apply State.inc_within (bf := 0x4a0) (mf := (hl _ (by decide)))) <;> first | (rfl; done) | (dsimp only; omega) | (dsimp only [Fld.whole]; omega) | (split <;> first | (rfl; done) | (dsimp only; omega)) | show Within _ _ _)
    | ((with_reducible apply State.put_within 0x4a0 (hb := (hl _ (by decide)))) <;> first | (rfl; done) | (dsimp only; omega) | (dsimp only [Fld.whole]; omega) | (split <;> first | (rfl; done) | (dsimp only; omega)) | show Within _ _ _)
    | with_reducible apply Within.ite
    | split
    | dsimp only
    | with_reducible intro _

theorem State.secTake_within {lp : List Part} {root s : State} (h : Within lp root s) (m : Fin 2) (a : Fin 4) (bypass : Bool) (hl :
    ∀ p ∈ ([.regs 0x4a0, .net] : List Part), p ∈ lp) : Within lp root (State.secTake s m a bypass).1 := by
  unfold State.secTake
  try dsimp only
  repeat' first
    | with_reducible assumption
    | split
    | with_reducible apply State.onMac_within (hl := (parts_trans (by decide) hl))
    | ((with_reducible apply State.inc_within (bf := 0x4a0) (mf := (hl _ (by decide)))) <;> first | (rfl; done) | (dsimp only; omega) | (dsimp only [Fld.whole]; omega) | (split <;> first | (rfl; done) | (dsimp only; omega)) | show Within _ _ _)
    | ((with_reducible apply State.put_within 0x4a0 (hb := (hl _ (by decide)))) <;> first | (rfl; done) | (dsimp only; omega) | (dsimp only [Fld.whole]; omega) | (split <;> first | (rfl; done) | (dsimp only; omega)) | show Within _ _ _)
    | with_reducible refine Within.when ?_ fun _ _ => ?_
    | with_reducible apply Within.ite
    | dsimp only
    | with_reducible intro _

theorem execMacFrameTx_within {s out : State} (m : Fin 2) (a : Fin 4) (e : execMacFrameTx m a s = .next out) : Within [.regs 0x4a0,
    .sram, .outbox, .net] s out := by
  cases e
  repeat' first
    | with_reducible exact Within.refl _ _
    | with_reducible assumption
    | with_reducible apply State.secTake_within (hl := (by decide))
    | with_reducible apply State.tsPush_within (hl := (by decide))
    | with_reducible apply State.onMac_within (hl := (by decide))
    | with_reducible apply State.send_within (hl := (by decide))
    | ((with_reducible apply State.put_within 0x4a0 (hb := (by decide))) <;> first | (rfl; done) | (dsimp only; omega) | (dsimp only [Fld.whole]; omega) | (split <;> first | (rfl; done) | (dsimp only; omega)) | show Within _ _ _)
    | with_reducible apply State.withSram_within (hl := (by decide))
    | with_reducible refine Within.when ?_ fun _ _ => ?_
    | with_reducible apply Within.ite
    | split
    | dsimp only
    | with_reducible intro _

theorem State.secCheck_within {lp : List Part} {root s : State} (h : Within lp root s) (m : Fin 2) (tag : Option SecTag) (icvOk
    : Bool) (bypass : Bool) (hl : ∀ p ∈ ([.net] : List Part), p ∈ lp) : Within lp root (State.secCheck s m tag icvOk bypass).1
    := by
  unfold State.secCheck
  try dsimp only
  repeat' first
    | with_reducible assumption
    | split
    | with_reducible apply State.onMac_within (hl := (parts_trans (by decide) hl))
    | with_reducible apply Within.ite
    | dsimp only
    | with_reducible intro _

theorem State.storeFrame_within {lp : List Part} {root s : State} (h : Within lp root s) (m : Fin 2) (d : Nat) (bytes : List Byte)
    (st : Nat) (hl : ∀ p ∈ ([.regs 0x4a0, .sram, .net] : List Part), p ∈ lp) : Within lp root (State.storeFrame s m d bytes st) :=
    by
  unfold State.storeFrame
  repeat' first
    | with_reducible assumption
    | with_reducible apply State.onMac_within (hl := (parts_trans (by decide) hl))
    | ((with_reducible apply State.put_within 0x4a0 (hb := (hl _ (by decide)))) <;> first | (rfl; done) | (dsimp only; omega) | (dsimp only [Fld.whole]; omega) | (split <;> first | (rfl; done) | (dsimp only; omega)) | show Within _ _ _)
    | with_reducible apply State.withSram_within (hl := (parts_trans (by decide) hl))
    | dsimp only
    | with_reducible intro _

theorem execMacFrameRx_within {s out : State} (m : Fin 2) (bytes : List Byte) (crcOk : Bool) (tag : Option SecTag) (icvOk :
    Bool) (e : execMacFrameRx m bytes crcOk tag icvOk s = .next out) : Within [.regs 0x4a0, .sram, .outbox, .net] s out := by
  cases e
  repeat' first
    | with_reducible exact Within.refl _ _
    | with_reducible assumption
    | with_reducible apply State.storeFrame_within (hl := (by decide))
    | with_reducible apply State.secCheck_within (hl := (by decide))
    | with_reducible apply State.sendPause_within (hl := (by decide))
    | with_reducible apply State.onMac_within (hl := (by decide))
    | ((with_reducible apply State.put_within 0x4a0 (hb := (by decide))) <;> first | (rfl; done) | (dsimp only; omega) | (dsimp only [Fld.whole]; omega) | (split <;> first | (rfl; done) | (dsimp only; omega)) | show Within _ _ _)
    | with_reducible refine Within.when ?_ fun _ _ => ?_
    | with_reducible apply Within.ite
    | split
    | dsimp only
    | with_reducible intro _

theorem State.onUart_within {lp : List Part} {root s : State} (h : Within lp root s) (i : Fin 4) (x : List Word × Nat) (hl : ∀ p ∈
    ([.net] : List Part), p ∈ lp) : Within lp root (State.onUart s i x) := by
  unfold State.onUart
  repeat' first
    | with_reducible assumption
    | with_reducible apply State.withNet_within (hl := (parts_trans (by decide) hl))
    | dsimp only
    | with_reducible intro _

theorem State.tickUart_within {lp : List Part} {root s : State} (h : Within lp root s) (i : Fin 4) (hl : ∀ p ∈ ([.regs 0x4a2,
    .outbox, .net] : List Part), p ∈ lp) : Within lp root (State.tickUart s i) := by
  unfold State.tickUart
  repeat' first
    | with_reducible assumption
    | with_reducible apply State.onUart_within (hl := (parts_trans (by decide) hl))
    | with_reducible apply State.send_within (hl := (parts_trans (by decide) hl))
    | ((with_reducible apply State.put_within 0x4a2 (hb := (hl _ (by decide)))) <;> first | (rfl; done) | (dsimp only; omega) | (dsimp only [Fld.whole]; omega) | (split <;> first | (rfl; done) | (dsimp only; omega)) | show Within _ _ _)
    | with_reducible refine Within.when ?_ fun _ _ => ?_
    | with_reducible apply Within.ite
    | split
    | dsimp only
    | with_reducible intro _

theorem State.tickMacs_within {lp : List Part} {root s : State} (h : Within lp root s) (hl : ∀ p ∈ ([.regs 0x4a1, .net] : List
    Part), p ∈ lp) : Within lp root (State.tickMacs s) := by
  unfold State.tickMacs
  repeat' first
    | with_reducible assumption
    | ((with_reducible apply State.put_within 0x4a1 (hb := (hl _ (by decide)))) <;> first | (rfl; done) | (dsimp only; omega) | (dsimp only [Fld.whole]; omega) | (split <;> first | (rfl; done) | (dsimp only; omega)) | show Within _ _ _)
    | with_reducible apply State.withNet_within (hl := (parts_trans (by decide) hl))
    | with_reducible refine Within.each ?_ fun _ _ _ => ?_
    | with_reducible refine Within.when ?_ fun _ _ => ?_
    | dsimp only
    | with_reducible intro _

theorem State.tickUarts_within {lp : List Part} {root s : State} (h : Within lp root s) (hl : ∀ p ∈ ([.regs 0x4a2, .outbox, .net] :
    List Part), p ∈ lp) : Within lp root (State.tickUarts s) := by
  unfold State.tickUarts
  repeat' first
    | with_reducible assumption
    | with_reducible apply State.tickUart_within (hl := (parts_trans (by decide) hl))
    | with_reducible refine Within.each ?_ fun _ _ _ => ?_
    | with_reducible refine Within.when ?_ fun _ _ => ?_
    | dsimp only
    | with_reducible intro _

theorem State.lqLevel_within {lp : List Part} {root s : State} (h : Within lp root s) (m : Fin 2) (hl : ∀ p ∈ ([.regs 0x4a0] : List
    Part), p ∈ lp) : Within lp root (State.lqLevel s m) := by
  unfold State.lqLevel
  repeat' first
    | with_reducible assumption
    | ((with_reducible apply State.put_within 0x4a0 (hb := (hl _ (by decide)))) <;> first | (rfl; done) | (dsimp only; omega) | (dsimp only [Fld.whole]; omega) | (split <;> first | (rfl; done) | (dsimp only; omega)) | show Within _ _ _)
    | dsimp only
    | with_reducible intro _

theorem lqCommitOp_within {lp : List Part} {root s : State} (h : Within lp root s) (m : Fin 2) (v : Word) (hl : ∀ p ∈ ([.regs 0x4a0,
    .net] : List Part), p ∈ lp) : Within lp root (lqCommitOp m v s) := by
  unfold lqCommitOp
  repeat' first
    | with_reducible assumption
    | with_reducible apply State.lqLevel_within (hl := (parts_trans (by decide) hl))
    | with_reducible apply State.onMac_within (hl := (parts_trans (by decide) hl))
    | ((with_reducible apply State.inc_within (bf := 0x4a0) (mf := (hl _ (by decide)))) <;> first | (rfl; done) | (dsimp only; omega) | (dsimp only [Fld.whole]; omega) | (split <;> first | (rfl; done) | (dsimp only; omega)) | show Within _ _ _)
    | ((with_reducible apply State.put_within 0x4a0 (hb := (hl _ (by decide)))) <;> first | (rfl; done) | (dsimp only; omega) | (dsimp only [Fld.whole]; omega) | (split <;> first | (rfl; done) | (dsimp only; omega)) | show Within _ _ _)
    | with_reducible apply Within.ite
    | split
    | dsimp only
    | with_reducible intro _

theorem execLqCommit_within {s out : State} (m : Fin 2) (v : Word) (e : execLqCommit m v s = .next out) : Within [.regs 0x4a0,
    .held, .resp, .net] s out := by
  cases e
  repeat' first
    | with_reducible exact Within.refl _ _
    | with_reducible assumption
    | with_reducible apply lqCommitOp_within (hl := (by decide))
    | with_reducible apply State.netAccess_within (hl := (by decide))
    | dsimp only
    | with_reducible intro _

theorem flushOp_within {lp : List Part} {root s : State} (h : Within lp root s) (m : Fin 2) (hl : ∀ p ∈ ([.regs 0x4a0, .net] : List
    Part), p ∈ lp) : Within lp root (flushOp m s) := by
  unfold flushOp
  repeat' first
    | with_reducible assumption
    | with_reducible apply State.lqLevel_within (hl := (parts_trans (by decide) hl))
    | with_reducible apply State.onMac_within (hl := (parts_trans (by decide) hl))
    | dsimp only
    | with_reducible intro _

theorem execFlush_within {s out : State} (m : Fin 2) (e : execFlush m s = .next out) : Within [.regs 0x4a0, .held, .resp, .net] s
    out := by
  cases e
  repeat' first
    | with_reducible exact Within.refl _ _
    | with_reducible assumption
    | with_reducible apply flushOp_within (hl := (by decide))
    | with_reducible apply State.netAccess_within (hl := (by decide))
    | dsimp only
    | with_reducible intro _

theorem execLaunchDue_within {s out : State} (m : Fin 2) (a : Fin 4) (e : execLaunchDue m a s = .next out) : Within [.regs 0x4a0,
    .free, .outbox, .net] s out := by
  cases e
  repeat' first
    | with_reducible exact Within.refl _ _
    | with_reducible assumption
    | with_reducible apply State.lqLevel_within (hl := (by decide))
    | with_reducible apply State.secTake_within (hl := (by decide))
    | with_reducible apply State.tsPush_within (hl := (by decide))
    | with_reducible apply State.onMac_within (hl := (by decide))
    | with_reducible apply State.send_within (hl := (by decide))
    | with_reducible apply State.tookFree_within (hl := (by decide))
    | ((with_reducible apply State.inc_within (bf := 0x4a0) (mf := (by decide))) <;> first | (rfl; done) | (dsimp only; omega) | (dsimp only [Fld.whole]; omega) | (split <;> first | (rfl; done) | (dsimp only; omega)) | show Within _ _ _)
    | ((with_reducible apply State.put_within 0x4a0 (hb := (by decide))) <;> first | (rfl; done) | (dsimp only; omega) | (dsimp only [Fld.whole]; omega) | (split <;> first | (rfl; done) | (dsimp only; omega)) | show Within _ _ _)
    | with_reducible refine Within.when ?_ fun _ _ => ?_
    | with_reducible apply Within.ite
    | split
    | dsimp only
    | with_reducible intro _

theorem tsqReadOp_within {lp : List Part} {root s : State} (h : Within lp root s) (m : Fin 2) (half : Option Bool) (hl : ∀ p ∈
    ([.regs 0x4a0, .net] : List Part), p ∈ lp) : Within lp root (tsqReadOp m half s).1 := by
  unfold tsqReadOp
  try dsimp only
  repeat' first
    | with_reducible assumption
    | split
    | with_reducible apply State.onMac_within (hl := (parts_trans (by decide) hl))
    | ((with_reducible apply State.put_within 0x4a0 (hb := (hl _ (by decide)))) <;> first | (rfl; done) | (dsimp only; omega) | (dsimp only [Fld.whole]; omega) | (split <;> first | (rfl; done) | (dsimp only; omega)) | show Within _ _ _)
    | dsimp only
    | with_reducible intro _

theorem execTsqRead_within {s out : State} (m : Fin 2) (half : Option Bool) (e : execTsqRead m half s = .next out) : Within [.regs
    0x4a0, .held, .resp, .net] s out := by
  cases e
  repeat' first
    | with_reducible exact Within.refl _ _
    | with_reducible assumption
    | with_reducible apply tsqReadOp_within (hl := (by decide))
    | with_reducible apply State.accessV_within (hl := (by decide))
    | dsimp only
    | with_reducible intro _

end Sys2Proof.Machine
end

