-- ==== Sys2Proof/Laws/WithinPlant.lean ====
section
/-!
SUPPORT. The parts of the state that each operation of Machine/Plant.lean may change.
-/

namespace Sys2Proof.Machine

open Sys2Proof

set_option linter.all false

theorem State.wlkRefuse_within {lp : List Part} {root s : State} (h : Within lp root s) (hl : ∀ p ∈ ([.regs 0x490] : List Part), p ∈
    lp) : Within lp root (State.wlkRefuse s) := by
  unfold State.wlkRefuse
  repeat' first
    | with_reducible assumption
    | ((with_reducible apply State.inc_within (bf := 0x490) (mf := (hl _ (by decide)))) <;> first | (rfl; done) | (dsimp only; omega) | (dsimp only [Fld.whole]; omega) | (split <;> first | (rfl; done) | (dsimp only; omega)) | show Within _ _ _)
    | ((with_reducible apply State.put_within 0x490 (hb := (hl _ (by decide)))) <;> first | (rfl; done) | (dsimp only; omega) | (dsimp only [Fld.whole]; omega) | (split <;> first | (rfl; done) | (dsimp only; omega)) | show Within _ _ _)
    | dsimp only
    | with_reducible intro _

theorem State.frameDiscard_within {lp : List Part} {root s : State} (h : Within lp root s) (lane : Fin 6) (hl : ∀ p ∈ ([.regs 0x490]
    : List Part), p ∈ lp) : Within lp root (State.frameDiscard s lane) := by
  unfold State.frameDiscard
  repeat' first
    | with_reducible assumption
    | ((with_reducible apply State.inc_within (bf := 0x490) (mf := (hl _ (by decide)))) <;> first | (rfl; done) | (dsimp only; omega) | (dsimp only [Fld.whole]; omega) | (split <;> first | (rfl; done) | (dsimp only; omega)) | show Within _ _ _)
    | dsimp only
    | with_reducible intro _

theorem State.onWlk_within {lp : List Part} {root s : State} (h : Within lp root s) (f : Wlk → Wlk) (hl : ∀ p ∈ ([.wlk] : List
    Part), p ∈ lp) : Within lp root (State.onWlk s f) := by
  unfold State.onWlk
  repeat' first
    | with_reducible assumption
    | with_reducible apply State.withWlk_within (hl := (parts_trans (by decide) hl))
    | dsimp only
    | with_reducible intro _

theorem State.passDiscard_within {lp : List Part} {root s : State} (h : Within lp root s) (hl : ∀ p ∈ ([.regs 0x490, .outbox] : List
    Part), p ∈ lp) : Within lp root (State.passDiscard s) := by
  unfold State.passDiscard
  repeat' first
    | with_reducible assumption
    | with_reducible apply State.frameDiscard_within (hl := (parts_trans (by decide) hl))
    | with_reducible apply State.passDown_within (hl := (parts_trans (by decide) hl))
    | dsimp only
    | with_reducible intro _

theorem execCtrlLaunch_within {s out : State} (e : execCtrlLaunch s = .next out) : Within [.outbox, .mod, .wlk] s out := by
  cases e
  repeat' first
    | with_reducible exact Within.refl _ _
    | with_reducible assumption
    | with_reducible apply State.onWlk_within (hl := (by decide))
    | with_reducible apply State.sendFrame_within (hl := (by decide))
    | with_reducible apply State.withMod_within (hl := (by decide))
    | with_reducible refine Within.each ?_ fun _ _ _ => ?_
    | with_reducible refine Within.when ?_ fun _ _ => ?_
    | with_reducible apply Within.ite
    | split
    | dsimp only
    | with_reducible intro _

theorem execCtrlFrame_within {s out : State} (crcOk : Bool) (f : CtrlFrame) (e : execCtrlFrame crcOk f s = .next out) : Within
    [.regs 0x440, .regs 0x448, .regs 0x470, .regs 0x490, .regs 0x4e0, .outbox, .mod, .tiles, .sit, .met, .wlk, .sag, .con] s out :=
    by
  cases e
  repeat' first
    | with_reducible exact Within.refl _ _
    | with_reducible assumption
    | with_reducible apply State.passDiscard_within (hl := (by decide))
    | with_reducible apply State.onWlk_within (hl := (by decide))
    | with_reducible apply State.raiseStop_within (hl := (by decide))
    | with_reducible apply State.passDown_within (hl := (by decide))
    | ((with_reducible apply State.inc_within (bf := 0x490) (mf := (by decide))) <;> first | (rfl; done) | (dsimp only; omega) | (dsimp only [Fld.whole]; omega) | (split <;> first | (rfl; done) | (dsimp only; omega)) | show Within _ _ _)
    | ((with_reducible apply State.put_within 0x448 (hb := (by decide))) <;> first | (rfl; done) | (dsimp only; omega) | (dsimp only [Fld.whole]; omega) | (split <;> first | (rfl; done) | (dsimp only; omega)) | show Within _ _ _)
    | with_reducible refine Within.when ?_ fun _ _ => ?_
    | with_reducible apply Within.ite
    | split
    | dsimp only
    | with_reducible intro _

theorem State.workerBoundary_within {lp : List Part} {root s : State} (h : Within lp root s) (hl : ∀ p ∈ ([.regs 0x41c, .regs 0x422,
    .regs 0x430, .slots, .outbox, .isl, .mod, .clk, .wlk] : List Part), p ∈ lp) : Within lp root (State.workerBoundary s) := by
  unfold State.workerBoundary
  repeat' first
    | with_reducible assumption
    | with_reducible apply State.onWlk_within (hl := (parts_trans (by decide) hl))
    | with_reducible apply State.hopAwait_within (hl := (parts_trans (by decide) hl))
    | with_reducible apply State.hopTaken_within (hl := (parts_trans (by decide) hl))
    | with_reducible apply State.islFromManager_within (hl := (parts_trans (by decide) hl))
    | with_reducible apply State.sendFrame_within (hl := (parts_trans (by decide) hl))
    | with_reducible apply State.publishBy_within (hl := (parts_trans (by decide) hl))
    | with_reducible refine Within.each ?_ fun _ _ _ => ?_
    | with_reducible apply Within.ite
    | split
    | dsimp only
    | with_reducible intro _

theorem State.managerBoundary_within {lp : List Part} {root s : State} (h : Within lp root s) (hl : ∀ p ∈ ([.regs 0x422, .regs
    0x430, .regs 0x490, .outbox, .isl, .mod, .clk, .wlk] : List Part), p ∈ lp) : Within lp root (State.managerBoundary s) := by
  unfold State.managerBoundary
  repeat' first
    | with_reducible assumption
    | with_reducible apply State.onWlk_within (hl := (parts_trans (by decide) hl))
    | with_reducible apply State.hopAwait_within (hl := (parts_trans (by decide) hl))
    | with_reducible apply State.islFromManager_within (hl := (parts_trans (by decide) hl))
    | with_reducible apply State.send_within (hl := (parts_trans (by decide) hl))
    | ((with_reducible apply State.inc_within (bf := 0x490) (mf := (hl _ (by decide)))) <;> first | (rfl; done) | (dsimp only; omega) | (dsimp only [Fld.whole]; omega) | (split <;> first | (rfl; done) | (dsimp only; omega)) | show Within _ _ _)
    | ((with_reducible apply State.put_within 0x490 (hb := (hl _ (by decide)))) <;> first | (rfl; done) | (dsimp only; omega) | (dsimp only [Fld.whole]; omega) | (split <;> first | (rfl; done) | (dsimp only; omega)) | show Within _ _ _)
    | with_reducible apply State.withMod_within (hl := (parts_trans (by decide) hl))
    | with_reducible refine Within.each ?_ fun _ _ _ => ?_
    | with_reducible apply Within.ite
    | split
    | dsimp only
    | with_reducible intro _

theorem State.ringKeepAlive_within {lp : List Part} {root s : State} (h : Within lp root s) (hl : ∀ p ∈ ([.outbox] : List Part), p ∈
    lp) : Within lp root (State.ringKeepAlive s) := by
  unfold State.ringKeepAlive
  repeat' first
    | with_reducible assumption
    | with_reducible apply State.send_within (hl := (parts_trans (by decide) hl))
    | with_reducible refine Within.each ?_ fun _ _ _ => ?_
    | with_reducible apply Within.ite
    | split
    | dsimp only
    | with_reducible intro _

theorem execPlantPeriodBoundary_within {s out : State} (n : Word) (e : execPlantPeriodBoundary n s = .next out) : Within [.regs
    0x41c, .regs 0x422, .regs 0x430, .regs 0x490, .slots, .outbox, .groups, .isl, .mod, .clk, .wlk] s out := by
  cases e
  repeat' first
    | with_reducible exact Within.refl _ _
    | with_reducible assumption
    | with_reducible apply State.ringKeepAlive_within (hl := (by decide))
    | with_reducible apply State.managerBoundary_within (hl := (by decide))
    | with_reducible apply State.workerBoundary_within (hl := (by decide))
    | with_reducible apply State.onWlk_within (hl := (by decide))
    | with_reducible apply State.sourceEvent_within (hl := (by decide))
    | with_reducible apply State.onIsl_within (hl := (by decide))
    | with_reducible apply State.onGroup_within (hl := (by decide))
    | with_reducible refine Within.each ?_ fun _ _ _ => ?_
    | with_reducible apply Within.ite
    | split
    | dsimp only
    | with_reducible intro _

theorem execLinkLoss_within {s out : State} (e : execLinkLoss s = .next out) : Within [.regs 0x41c, .regs 0x440, .regs 0x448, .regs
    0x470, .regs 0x4e0, .outbox, .mod, .tiles, .sit, .met, .sag, .con] s out := by
  cases e
  repeat' first
    | with_reducible exact Within.refl _ _
    | with_reducible assumption
    | with_reducible apply State.supvStop_within (hl := (by decide))
    | with_reducible refine Within.when ?_ fun _ _ => ?_
    | dsimp only
    | with_reducible intro _

theorem State.setCredits_within {lp : List Part} {root s : State} (h : Within lp root s) (w req bulk : Nat) (hl : ∀ p ∈ ([.wlk] :
    List Part), p ∈ lp) : Within lp root (State.setCredits s w req bulk) := by
  unfold State.setCredits
  repeat' first
    | with_reducible assumption
    | with_reducible apply State.onWlk_within (hl := (parts_trans (by decide) hl))
    | dsimp only
    | with_reducible intro _

theorem State.pumpReq_within {lp : List Part} {root s : State} (h : Within lp root s)
    (hl : ∀ p ∈ ([.outbox, .wlk] : List Part), p ∈ lp) : Within lp root (State.pumpReq s) := by
  have hw : ∀ p ∈ ([.wlk] : List Part), p ∈ lp := parts_trans (by decide) hl
  have ho : ∀ p ∈ ([.outbox] : List Part), p ∈ lp := parts_trans (by decide) hl
  unfold State.pumpReq
  generalize s.wlk.tags = l
  have k : Within lp root (s.onWlk fun x => { x with tags := [] }, ([] : List Nat)).1 := by
    dsimp only
    exact State.onWlk_within h _ hw
  revert k
  generalize (s.onWlk fun x => { x with tags := [] }, ([] : List Nat)) = p
  intro k
  dsimp only
  induction l generalizing p with
  | nil => exact k
  | cons t l ih =>
    refine ih _ ?_
    dsimp only
    split
    · dsimp only
      exact State.onWlk_within k _ hw
    · split
      · dsimp only
        refine State.onWlk_within (Within.each (Within.each k fun _ _ k => ?_) fun _ _ k => ?_) _ hw
        · exact State.setCredits_within k _ _ _ hw
        · exact State.send_within k _ ho
      · dsimp only
        exact State.onWlk_within k _ hw

theorem State.takeBulk_within {lp : List Part} {root s : State} (h : Within lp root s) (ws : List Nat) (hl : ∀ p ∈ ([.wlk] : List
    Part), p ∈ lp) : Within lp root (State.takeBulk s ws) := by
  unfold State.takeBulk
  repeat' first
    | with_reducible assumption
    | with_reducible apply State.setCredits_within (hl := (parts_trans (by decide) hl))
    | with_reducible refine Within.each ?_ fun _ _ _ => ?_
    | dsimp only
    | with_reducible intro _

theorem State.pumpBulk_within {lp : List Part} {root s : State} (h : Within lp root s) (fuel : Nat) (hl : ∀ p ∈ ([.outbox, .wlk] :
    List Part), p ∈ lp) : Within lp root (State.pumpBulk s fuel) := by
  have hw := parts_trans (a := [.wlk]) (by decide) hl
  induction fuel generalizing s with
  | zero => exact h
  | succ n ih =>
    unfold State.pumpBulk
    split
    · exact h
    · refine Within.ite h (Within.ite (State.onWlk_within (Within.each (State.takeBulk_within h _ hw) fun _ _ k => ?_) _ hw)
        (ih (State.onWlk_within (Within.each (State.takeBulk_within h _ hw) fun _ _ k => ?_) _ hw)))
      all_goals exact State.sendFrame_within k _ _ _ _ (parts_trans (by decide) hl)

theorem State.pumpUp_within {lp : List Part} {root s : State} (h : Within lp root s) (fuel : Nat) (hl : ∀ p ∈ ([.outbox, .wlk] :
    List Part), p ∈ lp) : Within lp root (State.pumpUp s fuel) := by
  have hw := parts_trans (a := [.wlk]) (by decide) hl
  have ho := parts_trans (a := [.outbox]) (by decide) hl
  induction fuel generalizing s with
  | zero => exact h
  | succ n ih =>
    unfold State.pumpUp
    refine Within.ite (ih (State.onWlk_within (State.sendFrame_within h _ _ _ _ ho) _ hw)) ?_
    split
    · exact h
    · exact Within.ite (State.onWlk_within h _ hw)
        (Within.ite h (ih (State.onWlk_within (State.sendFrame_within h _ _ _ _ ho) _ hw)))

theorem execFlow_within {s out : State} (l : Fin 6) (w : BitVec 5) (back : BitVec 6 × BitVec 6) (e : execFlow l w back s = .next
    out) : Within [.outbox, .wlk] s out := by
  cases e
  repeat' first
    | with_reducible exact Within.refl _ _
    | with_reducible assumption
    | with_reducible apply State.pumpUp_within (hl := (by decide))
    | with_reducible apply State.pumpBulk_within (hl := (by decide))
    | with_reducible apply State.pumpReq_within (hl := (by decide))
    | with_reducible apply State.setCredits_within (hl := (by decide))
    | with_reducible apply State.onWlk_within (hl := (by decide))
    | with_reducible apply State.passFrom_within (hl := (by decide))
    | with_reducible refine Within.when ?_ fun _ _ => ?_
    | with_reducible apply Within.ite
    | split
    | dsimp only
    | with_reducible intro _

theorem State.freeCredit_within {lp : List Part} {root s : State} (h : Within lp root s) (bulk : Bool) (hl : ∀ p ∈ ([.outbox, .wlk]
    : List Part), p ∈ lp) : Within lp root (State.freeCredit s bulk) := by
  unfold State.freeCredit
  repeat' first
    | with_reducible assumption
    | with_reducible apply State.onWlk_within (hl := (parts_trans (by decide) hl))
    | with_reducible apply State.send_within (hl := (parts_trans (by decide) hl))
    | with_reducible apply Within.ite
    | split
    | dsimp only
    | with_reducible intro _

theorem State.freeUp_within {lp : List Part} {root s : State} (h : Within lp root s) (w : Nat) (hl : ∀ p ∈ ([.outbox, .wlk] : List
    Part), p ∈ lp) : Within lp root (State.freeUp s w) := by
  unfold State.freeUp
  repeat' first
    | with_reducible assumption
    | with_reducible apply State.onWlk_within (hl := (parts_trans (by decide) hl))
    | with_reducible apply State.send_within (hl := (parts_trans (by decide) hl))
    | with_reducible apply Within.ite
    | split
    | dsimp only
    | with_reducible intro _

theorem execReportFrame_within {s out : State} (l : Fin 6) (crcOk : Bool) (w : BitVec 5) (status : BitVec 36) (v : Vector Word 4) (e
    : execReportFrame l crcOk w status v s = .next out) : Within [.regs 0x448, .regs 0x490, .outbox, .sit, .wlk] s out := by
  cases e
  repeat' first
    | with_reducible exact Within.refl _ _
    | with_reducible assumption
    | with_reducible apply State.pumpBulk_within (hl := (by decide))
    | with_reducible apply State.pumpReq_within (hl := (by decide))
    | with_reducible apply State.setCredits_within (hl := (by decide))
    | with_reducible apply State.onWlk_within (hl := (by decide))
    | with_reducible apply State.frameDiscard_within (hl := (by decide))
    | with_reducible apply State.islReport_within (hl := (by decide))
    | with_reducible apply State.plantRefresh_within (hl := (by decide))
    | with_reducible apply State.passFrom_within (hl := (by decide))
    | ((with_reducible apply State.put_within 0x490 (hb := (by decide))) <;> first | (rfl; done) | (dsimp only; omega) | (dsimp only [Fld.whole]; omega) | (split <;> first | (rfl; done) | (dsimp only; omega)) | show Within _ _ _)
    | with_reducible refine Within.each ?_ fun _ _ _ => ?_
    | with_reducible refine Within.when ?_ fun _ _ => ?_
    | with_reducible apply Within.ite
    | split
    | dsimp only
    | with_reducible intro _

theorem execStopUnit_within {s out : State} (e : execStopUnit s = .next out) : Within [.regs 0x440, .regs 0x448, .regs 0x470, .regs
    0x4e0, .outbox, .mod, .tiles, .sit, .met, .sag, .con] s out := by
  cases e
  repeat' first
    | with_reducible exact Within.refl _ _
    | with_reducible assumption
    | with_reducible apply State.raiseStop_within (hl := (by decide))
    | with_reducible apply State.passDown_within (hl := (by decide))
    | ((with_reducible apply State.put_within 0x448 (hb := (by decide))) <;> first | (rfl; done) | (dsimp only; omega) | (dsimp only [Fld.whole]; omega) | (split <;> first | (rfl; done) | (dsimp only; omega)) | show Within _ _ _)
    | with_reducible refine Within.when ?_ fun _ _ => ?_
    | dsimp only
    | with_reducible intro _

theorem execPlantStopRepeat_within {s out : State} (e : execPlantStopRepeat s = .next out) : Within [.outbox] s out := by
  cases e
  repeat' first
    | with_reducible exact Within.refl _ _
    | with_reducible assumption
    | with_reducible apply State.sendPlant_within (hl := (by decide))
    | with_reducible refine Within.when ?_ fun _ _ => ?_
    | dsimp only
    | with_reducible intro _

theorem execDelayReq_within {s out : State} (l : Fin 6) (e : execDelayReq l s = .next out) : Within [.outbox, .lanes] s out := by
  cases e
  repeat' first
    | with_reducible exact Within.refl _ _
    | with_reducible assumption
    | with_reducible apply State.onLane_within (hl := (by decide))
    | with_reducible apply State.send_within (hl := (by decide))
    | with_reducible refine Within.when ?_ fun _ _ => ?_
    | dsimp only
    | with_reducible intro _

theorem execDelayReqReceived_within {s out : State} (l : Fin 6) (e : execDelayReqReceived l s = .next out) : Within [.outbox] s out
    := by
  cases e
  repeat' first
    | with_reducible exact Within.refl _ _
    | with_reducible assumption
    | with_reducible apply State.send_within (hl := (by decide))
    | with_reducible refine Within.when ?_ fun _ _ => ?_
    | dsimp only
    | with_reducible intro _

theorem execDelayRsp_within {s out : State} (l : Fin 6) (t2 t3 : BitVec 24) (e : execDelayRsp l t2 t3 s = .next out) : Within [.regs
    0x490, .lanes] s out := by
  cases e
  repeat' first
    | with_reducible exact Within.refl _ _
    | with_reducible assumption
    | with_reducible apply State.onLane_within (hl := (by decide))
    | ((with_reducible apply State.putB_within (bf := 0x490) (mf := (by decide))) <;> first | (rfl; done) | (dsimp only; omega) | (dsimp only [Fld.whole]; omega) | (split <;> first | (rfl; done) | (dsimp only; omega)) | show Within _ _ _)
    | ((with_reducible apply State.put_within 0x490 (hb := (by decide))) <;> first | (rfl; done) | (dsimp only; omega) | (dsimp only [Fld.whole]; omega) | (split <;> first | (rfl; done) | (dsimp only; omega)) | show Within _ _ _)
    | with_reducible refine Within.when ?_ fun _ _ => ?_
    | with_reducible refine Within.foldl ?_ fun _ _ _ => ?_
    | with_reducible apply Within.ite
    | split
    | dsimp only
    | with_reducible intro _

theorem execSyncUnit_within {s out : State} (offset : BitVec 24) (e : execSyncUnit offset s = .next out) : Within [.regs 0x490,
    .regs 0x4a0, .free, .outbox, .mod, .met, .wlk] s out := by
  cases e
  repeat' first
    | with_reducible exact Within.refl _ _
    | with_reducible assumption
    | with_reducible apply State.onWlk_within (hl := (by decide))
    | with_reducible apply State.followValid_within (hl := (by decide))
    | with_reducible apply State.onPair_within (hl := (by decide))
    | with_reducible apply State.passDown_within (hl := (by decide))
    | with_reducible apply State.tookFree_within (hl := (by decide))
    | ((with_reducible apply State.putB_within (bf := 0x490) (mf := (by decide))) <;> first | (rfl; done) | (dsimp only; omega) | (dsimp only [Fld.whole]; omega) | (split <;> first | (rfl; done) | (dsimp only; omega)) | show Within _ _ _)
    | ((with_reducible apply State.put_within 0x490 (hb := (by decide))) <;> first | (rfl; done) | (dsimp only; omega) | (dsimp only [Fld.whole]; omega) | (split <;> first | (rfl; done) | (dsimp only; omega)) | show Within _ _ _)
    | with_reducible apply State.withMod_within (hl := (by decide))
    | with_reducible refine Within.each ?_ fun _ _ _ => ?_
    | with_reducible refine Within.when ?_ fun _ _ => ?_
    | with_reducible apply Within.ite
    | split
    | dsimp only
    | with_reducible intro _

theorem execTimeFrame_within {s out : State} (crcOk : Bool) (sec : BitVec 48) (ns frac : Word) (valid : Bool) (e : execTimeFrame
    crcOk sec ns frac valid s = .next out) : Within [.regs 0x490, .regs 0x4a0, .free, .outbox, .groups, .met, .wlk, .net] s out :=
    by
  cases e
  repeat' first
    | with_reducible exact Within.refl _ _
    | with_reducible assumption
    | with_reducible apply State.passDiscard_within (hl := (by decide))
    | with_reducible apply State.onWlk_within (hl := (by decide))
    | with_reducible apply State.followValid_within (hl := (by decide))
    | with_reducible apply State.ptpIncTake_within (hl := (by decide))
    | with_reducible apply State.ptpStep_within (hl := (by decide))
    | with_reducible apply State.passDown_within (hl := (by decide))
    | with_reducible apply State.tookFree_within (hl := (by decide))
    | with_reducible apply Within.ite
    | split
    | dsimp only
    | with_reducible intro _

theorem State.unreverse_within {lp : List Part} {root s : State} (h : Within lp root s) (hl : ∀ p ∈ ([.regs 0x490, .outbox, .wlk] :
    List Part), p ∈ lp) : Within lp root (State.unreverse s) := by
  unfold State.unreverse
  repeat' first
    | with_reducible assumption
    | with_reducible apply State.laneTiming_within (hl := (parts_trans (by decide) hl))
    | with_reducible apply State.send_within (hl := (parts_trans (by decide) hl))
    | with_reducible apply State.withWlk_within (hl := (parts_trans (by decide) hl))
    | dsimp only
    | with_reducible intro _

theorem execRingReverse_within {s out : State} (l : Fin 6) (pos : Option (Fin 8)) (e : execRingReverse l pos s = .next out) :
    Within [.regs 0x490, .outbox, .wlk] s out := by
  cases e
  repeat' first
    | with_reducible exact Within.refl _ _
    | with_reducible assumption
    | with_reducible apply State.unreverse_within (hl := (by decide))
    | with_reducible apply State.reverse_within (hl := (by decide))
    | with_reducible apply State.send_within (hl := (by decide))
    | ((with_reducible apply State.putBit_within (bf := 0x490) (mf := (by decide))) <;> first | (rfl; done) | (dsimp only; omega) | (dsimp only [Fld.whole]; omega) | (split <;> first | (rfl; done) | (dsimp only; omega)) | show Within _ _ _)
    | ((with_reducible apply State.put_within 0x490 (hb := (by decide))) <;> first | (rfl; done) | (dsimp only; omega) | (dsimp only [Fld.whole]; omega) | (split <;> first | (rfl; done) | (dsimp only; omega)) | show Within _ _ _)
    | with_reducible refine Within.each ?_ fun _ _ _ => ?_
    | with_reducible refine Within.when ?_ fun _ _ => ?_
    | with_reducible apply Within.ite
    | split
    | dsimp only
    | with_reducible intro _

theorem ringRestoreOp_within {lp : List Part} {root s : State} (h : Within lp root s) (linksUp : Bool) (hl : ∀ p ∈ ([.regs 0x490,
    .wlk] : List Part), p ∈ lp) : Within lp root (ringRestoreOp linksUp s) := by
  unfold ringRestoreOp
  repeat' first
    | with_reducible assumption
    | with_reducible apply State.onWlk_within (hl := (parts_trans (by decide) hl))
    | with_reducible apply State.wlkRefuse_within (hl := (parts_trans (by decide) hl))
    | with_reducible apply Within.ite
    | split
    | dsimp only
    | with_reducible intro _

theorem execRingRestore_within {s out : State} (linksUp : Bool) (e : execRingRestore linksUp s = .next out) : Within [.regs 0x490,
    .held, .resp, .wlk] s out := by
  cases e
  repeat' first
    | with_reducible exact Within.refl _ _
    | with_reducible assumption
    | with_reducible apply ringRestoreOp_within (hl := (by decide))
    | with_reducible apply State.access_within (hl := (by decide))
    | dsimp only
    | with_reducible intro _

theorem State.discoverAll_within {lp : List Part} {root s : State} (h : Within lp root s) (hl : ∀ p ∈ ([.regs 0x490, .outbox, .wlk]
    : List Part), p ∈ lp) : Within lp root (State.discoverAll s) := by
  unfold State.discoverAll
  repeat' first
    | with_reducible assumption
    | with_reducible apply State.discoverStart_within (hl := (parts_trans (by decide) hl))
    | with_reducible refine Within.each ?_ fun _ _ _ => ?_
    | with_reducible refine Within.when ?_ fun _ _ => ?_
    | dsimp only
    | with_reducible intro _

theorem execDiscover_within {s out : State} (e : execDiscover s = .next out) : Within [.regs 0x490, .held, .resp, .outbox, .wlk] s
    out := by
  cases e
  repeat' first
    | with_reducible exact Within.refl _ _
    | with_reducible assumption
    | with_reducible apply State.discoverAll_within (hl := (by decide))
    | with_reducible apply State.access_within (hl := (by decide))
    | dsimp only
    | with_reducible intro _

theorem execPosition_within {s out : State} (f : Framed (Fin 8)) (e : execPosition f s = .next out) : Within [.regs 0x490,
    .outbox, .wlk] s out := by
  cases e
  repeat' first
    | with_reducible exact Within.refl _ _
    | with_reducible assumption
    | with_reducible apply State.passDiscard_within (hl := (by decide))
    | with_reducible apply State.onWlk_within (hl := (by decide))
    | with_reducible apply State.passDown_within (hl := (by decide))
    | with_reducible apply State.sendFrame_within (hl := (by decide))
    | with_reducible apply Within.ite
    | split
    | dsimp only
    | with_reducible intro _

theorem execAnnounce_within {s out : State} (c : Fin 4) (f : Framed Announce) (e : execAnnounce c f s = .next out) : Within
    [.regs 0x490, .outbox, .wlk] s out := by
  cases e
  repeat' first
    | with_reducible exact Within.refl _ _
    | with_reducible assumption
    | with_reducible apply State.onWlk_within (hl := (by decide))
    | with_reducible apply State.frameDiscard_within (hl := (by decide))
    | with_reducible apply State.askPosition_within (hl := (by decide))
    | with_reducible apply State.passUp_within (hl := (by decide))
    | with_reducible refine Within.when ?_ fun _ _ => ?_
    | with_reducible apply Within.ite
    | split
    | dsimp only
    | with_reducible intro _

theorem execPositionTimeout_within {s out : State} (c : Fin 4) (e : execPositionTimeout c s = .next out) : Within [.wlk] s out := by
  cases e
  repeat' first
    | with_reducible exact Within.refl _ _
    | with_reducible assumption
    | with_reducible apply State.onWlk_within (hl := (by decide))
    | dsimp only
    | with_reducible intro _

theorem execNumber_within {s out : State} (f : Framed (Fin 8)) (w : BitVec 5) (e : execNumber f w s = .next out) : Within [.regs
    0x400, .regs 0x490, .outbox] s out := by
  cases e
  repeat' first
    | with_reducible exact Within.refl _ _
    | with_reducible assumption
    | with_reducible apply State.passDiscard_within (hl := (by decide))
    | with_reducible apply State.passDown_within (hl := (by decide))
    | ((with_reducible apply State.put_within 0x400 (hb := (by decide))) <;> first | (rfl; done) | (dsimp only; omega) | (dsimp only [Fld.whole]; omega) | (split <;> first | (rfl; done) | (dsimp only; omega)) | show Within _ _ _)
    | with_reducible refine Within.when ?_ fun _ _ => ?_
    | with_reducible apply Within.ite
    | split
    | dsimp only
    | with_reducible intro _

theorem State.tagCount_within {lp : List Part} {root s : State} (h : Within lp root s) (hl : ∀ p ∈ ([.regs 0x490] : List Part), p ∈
    lp) : Within lp root (State.tagCount s) := by
  unfold State.tagCount
  repeat' first
    | with_reducible assumption
    | ((with_reducible apply State.put_within 0x490 (hb := (hl _ (by decide)))) <;> first | (rfl; done) | (dsimp only; omega) | (dsimp only [Fld.whole]; omega) | (split <;> first | (rfl; done) | (dsimp only; omega)) | show Within _ _ _)
    | dsimp only
    | with_reducible intro _

theorem State.takeTag_within {lp : List Part} {root s : State} (h : Within lp root s) (r : RemTag) (hl : ∀ p ∈ ([.regs 0x490, .resp,
    .outbox, .wlk] : List Part), p ∈ lp) : Within lp root (State.takeTag s r) := by
  unfold State.takeTag
  repeat' first
    | with_reducible assumption
    | with_reducible apply State.tagCount_within (hl := (parts_trans (by decide) hl))
    | with_reducible apply State.pumpReq_within (hl := (parts_trans (by decide) hl))
    | with_reducible apply State.onWlk_within (hl := (parts_trans (by decide) hl))
    | with_reducible apply State.respond_within (hl := (parts_trans (by decide) hl))
    | with_reducible apply Within.ite
    | split
    | dsimp only
    | with_reducible intro _

theorem State.engineWrite_within {lp : List Part} {root s : State} (h : Within lp root s) (w a v : Nat) (hl : ∀ p ∈ ([.regs 0x490,
    .resp, .outbox, .wlk] : List Part), p ∈ lp) : Within lp root (State.engineWrite s w a v) := by
  unfold State.engineWrite
  repeat' first
    | with_reducible assumption
    | with_reducible apply State.takeTag_within (hl := (parts_trans (by decide) hl))
    | dsimp only
    | with_reducible intro _

theorem State.giveNumber_within {lp : List Part} {root s : State} (h : Within lp root s) (e : Nat × Nat × Nat) (hl : ∀ p ∈ ([.regs
    0x490, .resp, .outbox, .wlk] : List Part), p ∈ lp) : Within lp root (State.giveNumber s e) := by
  unfold State.giveNumber
  repeat' first
    | with_reducible assumption
    | with_reducible apply State.engineWrite_within (hl := (parts_trans (by decide) hl))
    | with_reducible apply State.setCredits_within (hl := (parts_trans (by decide) hl))
    | with_reducible apply State.sendFrame_within (hl := (parts_trans (by decide) hl))
    | split
    | dsimp only
    | with_reducible intro _

theorem execDiscoveryDone_within {s out : State} (c : Fin 4) (hops : List (Word × BitVec 16)) (ring : Option Word) (e :
    execDiscoveryDone c hops ring s = .next out) : Within [.regs 0x490, .resp, .outbox, .wlk] s out := by
  cases e
  repeat' first
    | with_reducible exact Within.refl _ _
    | with_reducible assumption
    | with_reducible apply State.giveNumber_within (hl := (by decide))
    | with_reducible apply State.onWlk_within (hl := (by decide))
    | with_reducible apply State.sendFrame_within (hl := (by decide))
    | ((with_reducible apply State.putBit_within (bf := 0x490) (mf := (by decide))) <;> first | (rfl; done) | (dsimp only; omega) | (dsimp only [Fld.whole]; omega) | (split <;> first | (rfl; done) | (dsimp only; omega)) | show Within _ _ _)
    | ((with_reducible apply State.putB_within (bf := 0x490) (mf := (by decide))) <;> first | (rfl; done) | (dsimp only; omega) | (dsimp only [Fld.whole]; omega) | (split <;> first | (rfl; done) | (dsimp only; omega)) | show Within _ _ _)
    | ((with_reducible apply State.put_within 0x490 (hb := (by decide))) <;> first | (rfl; done) | (dsimp only; omega) | (dsimp only [Fld.whole]; omega) | (split <;> first | (rfl; done) | (dsimp only; omega)) | show Within _ _ _)
    | with_reducible refine Within.each ?_ fun _ _ _ => ?_
    | with_reducible refine Within.when ?_ fun _ _ => ?_
    | with_reducible apply Within.ite
    | split
    | dsimp only
    | with_reducible intro _

theorem blkGoOp_within {lp : List Part} {root s : State} (h : Within lp root s) (v : Word) (hl : ∀ p ∈ ([.regs 0x490, .outbox, .wlk]
    : List Part), p ∈ lp) : Within lp root (blkGoOp v s) := by
  unfold blkGoOp
  repeat' first
    | with_reducible assumption
    | with_reducible apply State.pumpBulk_within (hl := (parts_trans (by decide) hl))
    | with_reducible apply State.onWlk_within (hl := (parts_trans (by decide) hl))
    | with_reducible apply State.wlkRefuse_within (hl := (parts_trans (by decide) hl))
    | ((with_reducible apply State.putB_within (bf := 0x490) (mf := (hl _ (by decide)))) <;> first | (rfl; done) | (dsimp only; omega) | (dsimp only [Fld.whole]; omega) | (split <;> first | (rfl; done) | (dsimp only; omega)) | show Within _ _ _)
    | ((with_reducible apply State.put_within 0x490 (hb := (hl _ (by decide)))) <;> first | (rfl; done) | (dsimp only; omega) | (dsimp only [Fld.whole]; omega) | (split <;> first | (rfl; done) | (dsimp only; omega)) | show Within _ _ _)
    | with_reducible apply Within.ite
    | split
    | dsimp only
    | with_reducible intro _

theorem execBlkGo_within {s out : State} (v : Word) (e : execBlkGo v s = .next out) : Within [.regs 0x490, .held, .resp, .outbox,
    .wlk] s out := by
  cases e
  repeat' first
    | with_reducible exact Within.refl _ _
    | with_reducible assumption
    | with_reducible apply blkGoOp_within (hl := (by decide))
    | with_reducible apply State.access_within (hl := (by decide))
    | dsimp only
    | with_reducible intro _

theorem State.sramWords_within {lp : List Part} {root s : State} (h : Within lp root s) (a : Nat) (ws : List DWord) (hl : ∀ p ∈
    ([.sram] : List Part), p ∈ lp) : Within lp root (State.sramWords s a ws) := by
  unfold State.sramWords
  repeat' first
    | with_reducible assumption
    | with_reducible apply State.withSram_within (hl := (parts_trans (by decide) hl))
    | dsimp only
    | with_reducible intro _

theorem State.bulkTake_within {lp : List Part} {root s : State} (h : Within lp root s) (f : BulkFrame) (hl : ∀ p ∈ ([.regs 0x490,
    .sram, .outbox, .wlk] : List Part), p ∈ lp) : Within lp root (State.bulkTake s f) := by
  unfold State.bulkTake
  repeat' first
    | with_reducible assumption
    | with_reducible apply State.sramWords_within (hl := (parts_trans (by decide) hl))
    | with_reducible apply State.freeCredit_within (hl := (parts_trans (by decide) hl))
    | with_reducible apply State.pumpUp_within (hl := (parts_trans (by decide) hl))
    | with_reducible apply State.onWlk_within (hl := (parts_trans (by decide) hl))
    | ((with_reducible apply State.put_within 0x490 (hb := (hl _ (by decide)))) <;> first | (rfl; done) | (dsimp only; omega) | (dsimp only [Fld.whole]; omega) | (split <;> first | (rfl; done) | (dsimp only; omega)) | show Within _ _ _)
    | with_reducible apply Within.ite
    | split
    | dsimp only
    | with_reducible intro _

theorem State.bulkGiven_within {lp : List Part} {root s : State} (h : Within lp root s) (f : BulkFrame) (hl : ∀ p ∈ ([.regs 0x490,
    .sram, .outbox, .wlk] : List Part), p ∈ lp) : Within lp root (State.bulkGiven s f) := by
  unfold State.bulkGiven
  repeat' first
    | with_reducible assumption
    | with_reducible apply State.sramWords_within (hl := (parts_trans (by decide) hl))
    | with_reducible apply State.freeUp_within (hl := (parts_trans (by decide) hl))
    | with_reducible apply State.onWlk_within (hl := (parts_trans (by decide) hl))
    | ((with_reducible apply State.inc_within (bf := 0x490) (mf := (hl _ (by decide)))) <;> first | (rfl; done) | (dsimp only; omega) | (dsimp only [Fld.whole]; omega) | (split <;> first | (rfl; done) | (dsimp only; omega)) | show Within _ _ _)
    | with_reducible apply Within.ite
    | split
    | dsimp only
    | with_reducible intro _

theorem execBulkFrame_within {s out : State} (l : Fin 6) (crcOk : Bool) (f : BulkFrame) (e : execBulkFrame l crcOk f s = .next out)
    : Within [.regs 0x490, .sram, .outbox, .wlk] s out := by
  cases e
  repeat' first
    | with_reducible exact Within.refl _ _
    | with_reducible assumption
    | with_reducible apply State.bulkGiven_within (hl := (by decide))
    | with_reducible apply State.bulkTake_within (hl := (by decide))
    | with_reducible apply State.frameDiscard_within (hl := (by decide))
    | with_reducible apply State.passFrom_within (hl := (by decide))
    | with_reducible refine Within.when ?_ fun _ _ => ?_
    | with_reducible apply Within.ite
    | split
    | dsimp only
    | with_reducible intro _

theorem execBulkDone_within {s out : State} (lost : Bool) (nacks : BitVec 16) (e : execBulkDone lost nacks s = .next out) :
    Within [.regs 0x490, .wlk] s out := by
  cases e
  repeat' first
    | with_reducible exact Within.refl _ _
    | with_reducible assumption
    | ((with_reducible apply State.addSat_within (bf := 0x490) (mf := (by decide))) <;> first | (rfl; done) | (dsimp only; omega) | (dsimp only [Fld.whole]; omega) | (split <;> first | (rfl; done) | (dsimp only; omega)) | show Within _ _ _)
    | with_reducible apply State.onWlk_within (hl := (by decide))
    | ((with_reducible apply State.put_within 0x490 (hb := (by decide))) <;> first | (rfl; done) | (dsimp only; omega) | (dsimp only [Fld.whole]; omega) | (split <;> first | (rfl; done) | (dsimp only; omega)) | show Within _ _ _)
    | with_reducible refine Within.when ?_ fun _ _ => ?_
    | with_reducible apply Within.ite
    | split
    | dsimp only
    | with_reducible intro _

theorem State.remoteAccess_within {lp : List Part} {root s : State} (h : Within lp root s) (f : State → State) (hf : ∀ u0, Within lp
    root u0 → Within lp root (f u0)) (hl : ∀ p ∈ ([.resp] : List Part), p ∈ lp) : Within lp root (State.remoteAccess s f) := by
  unfold State.remoteAccess
  repeat' first
    | with_reducible assumption
    | with_reducible apply hf
    | with_reducible apply State.busError_within (hl := (parts_trans (by decide) hl))
    | with_reducible apply Within.ite
    | split
    | dsimp only
    | with_reducible intro _

theorem State.freeTagOf_within {lp : List Part} {root s : State} (h : Within lp root s) (t : Nat) (hl : ∀ p ∈ ([.regs 0x490, .resp,
    .outbox, .wlk] : List Part), p ∈ lp) : Within lp root (State.freeTagOf s t) := by
  unfold State.freeTagOf
  extract_lets +onlyGivenNames -underBinder s1
  have ks1 : Within lp root s1 := by
    unfold s1
    repeat' first
      | with_reducible assumption
      | with_reducible apply State.takeTag_within (hl := (parts_trans (by decide) hl))
      | with_reducible apply State.tagCount_within (hl := (parts_trans (by decide) hl))
      | with_reducible apply State.onWlk_within (hl := (parts_trans (by decide) hl))
      | split
      | dsimp only
      | with_reducible intro _
  clear_value s1
  split
  · skip
    repeat' first
      | with_reducible assumption
      | with_reducible apply State.takeTag_within (hl := (parts_trans (by decide) hl))
      | with_reducible apply State.tagCount_within (hl := (parts_trans (by decide) hl))
      | with_reducible apply State.onWlk_within (hl := (parts_trans (by decide) hl))
      | split
      | dsimp only
      | with_reducible intro _
  · skip
    repeat' first
      | with_reducible assumption
      | with_reducible apply State.takeTag_within (hl := (parts_trans (by decide) hl))
      | with_reducible apply State.tagCount_within (hl := (parts_trans (by decide) hl))
      | with_reducible apply State.onWlk_within (hl := (parts_trans (by decide) hl))
      | split
      | dsimp only
      | with_reducible intro _

theorem execRemoteAccess_within {s out : State} (write : Bool) (addr : BitVec 40) (size : Fin 9) (v : DWord) (e : execRemoteAccess
    write addr size v s = .next out) : Within [.regs 0x490, .resp, .outbox, .wlk] s out := by
  cases e
  repeat' first
    | with_reducible exact Within.refl _ _
    | with_reducible assumption
    | with_reducible apply State.remoteAccess_within (hl := (by decide))
    | with_reducible apply State.takeTag_within (hl := (by decide))
    | with_reducible apply State.busError_within (hl := (by decide))
    | with_reducible apply Within.ite
    | split
    | dsimp only
    | with_reducible intro _

theorem execRemRsp_within {s out : State} (l : Fin 6) (f : Framed (BitVec 7)) (w : BitVec 5) (a : Bool × DWord) (e : execRemRsp
    l f w a s = .next out) : Within [.regs 0x490, .resp, .outbox, .wlk] s out := by
  cases e
  repeat' first
    | with_reducible exact Within.refl _ _
    | with_reducible assumption
    | with_reducible apply State.freeTagOf_within (hl := (by decide))
    | with_reducible apply State.onWlk_within (hl := (by decide))
    | with_reducible apply State.frameDiscard_within (hl := (by decide))
    | with_reducible apply State.passFrom_within (hl := (by decide))
    | with_reducible apply State.busError_within (hl := (by decide))
    | with_reducible apply State.respond_within (hl := (by decide))
    | ((with_reducible apply State.inc_within (bf := 0x490) (mf := (by decide))) <;> first | (rfl; done) | (dsimp only; omega) | (dsimp only [Fld.whole]; omega) | (split <;> first | (rfl; done) | (dsimp only; omega)) | show Within _ _ _)
    | with_reducible apply Within.ite
    | split
    | dsimp only
    | with_reducible intro _

theorem execRemoteTimeout_within {s out : State} (t : BitVec 7) (e : execRemoteTimeout t s = .next out) : Within [.regs 0x490,
    .resp, .outbox, .wlk] s out := by
  cases e
  repeat' first
    | with_reducible exact Within.refl _ _
    | with_reducible assumption
    | with_reducible apply State.freeTagOf_within (hl := (by decide))
    | ((with_reducible apply State.orBits_within (bf := 0x490) (mf := (by decide))) <;> first | (rfl; done) | (dsimp only; omega) | (dsimp only [Fld.whole]; omega) | (split <;> first | (rfl; done) | (dsimp only; omega)) | show Within _ _ _)
    | ((with_reducible apply State.inc_within (bf := 0x490) (mf := (by decide))) <;> first | (rfl; done) | (dsimp only; omega) | (dsimp only [Fld.whole]; omega) | (split <;> first | (rfl; done) | (dsimp only; omega)) | show Within _ _ _)
    | ((with_reducible apply State.put_within 0x490 (hb := (by decide))) <;> first | (rfl; done) | (dsimp only; omega) | (dsimp only [Fld.whole]; omega) | (split <;> first | (rfl; done) | (dsimp only; omega)) | show Within _ _ _)
    | with_reducible apply State.withResp_within (hl := (by decide))
    | with_reducible refine Within.foldl ?_ fun _ _ _ => ?_
    | with_reducible apply Within.ite
    | split
    | dsimp only
    | with_reducible intro _

theorem execPlantBroadcastWrite_within {s out : State} (g : Option (Fin 16)) (o : BitVec 28) (wide : Bool) (v : DWord) (e :
    execPlantBroadcastWrite g o wide v s = .next out) : Within [.regs 0x400, .regs 0x490, .resp, .outbox, .wlk] s out := by
  cases e
  repeat' first
    | with_reducible exact Within.refl _ _
    | with_reducible assumption
    | with_reducible apply State.remoteAccess_within (hl := (by decide))
    | with_reducible apply State.takeTag_within (hl := (by decide))
    | with_reducible apply State.busError_within (hl := (by decide))
    | with_reducible apply State.respond_within (hl := (by decide))
    | ((with_reducible apply State.put_within 0x400 (hb := (by decide))) <;> first | (rfl; done) | (dsimp only; omega) | (dsimp only [Fld.whole]; omega) | (split <;> first | (rfl; done) | (dsimp only; omega)) | show Within _ _ _)
    | with_reducible apply Within.ite
    | split
    | dsimp only
    | with_reducible intro _

theorem execPlantBroadcastRead_within {s out : State} (e : execPlantBroadcastRead s = .next out) : Within [.regs 0x490, .resp] s out
    := by
  cases e
  repeat' first
    | with_reducible exact Within.refl _ _
    | with_reducible assumption
    | with_reducible apply State.remoteAccess_within (hl := (by decide))
    | with_reducible apply State.wlkRefuse_within (hl := (by decide))
    | with_reducible apply State.busError_within (hl := (by decide))
    | with_reducible refine Within.when ?_ fun _ _ => ?_
    | dsimp only
    | with_reducible intro _

end Sys2Proof.Machine
end

