-- ==== Sys2Proof/Laws/WithinMeter.lean ====
section
/-!
SUPPORT. The parts of the state that each operation of Machine/Meter.lean may change.
-/

namespace Sys2Proof.Machine

open Sys2Proof

set_option linter.all false

theorem State.onGain_within {lp : List Part} {root s : State} (h : Within lp root s) (c : Fin 4) (f : GainPath → GainPath) (hl : ∀ p
    ∈ ([.met] : List Part), p ∈ lp) : Within lp root (State.onGain s c f) := by
  unfold State.onGain
  repeat' first
    | with_reducible assumption
    | with_reducible apply State.withMet_within (hl := (parts_trans (by decide) hl))
    | dsimp only
    | with_reducible intro _

theorem State.gainChange_within {lp : List Part} {root s : State} (h : Within lp root s) (c : Fin 4) (g : Nat)
    (hl : ∀ p ∈ ([.regs 0x470, .met, .sag] : List Part), p ∈ lp) : Within lp root (State.gainChange s c g) := by
  have hg : (gainFld c).addr / 0x100000 = 0x470 := by unfold gainFld; split <;> rfl
  have hb := hl (.regs 0x470) (by decide)
  exact Within.when (State.put_within 0x470 (State.inc_within (State.put_within 0x470 h hg hb) _ rfl hb) rfl hb) fun _ k =>
    State.journal_within k _ _ _ (parts_trans (by decide) hl)

theorem State.gainAtBoundary_within {lp : List Part} {root s : State} (h : Within lp root s) (c : Fin 4) (hl : ∀ p ∈ ([.regs 0x470,
    .met, .sag] : List Part), p ∈ lp) : Within lp root (State.gainAtBoundary s c) := by
  unfold State.gainAtBoundary
  repeat' first
    | with_reducible assumption
    | with_reducible apply State.gainChange_within (hl := (parts_trans (by decide) hl))
    | with_reducible apply State.onGain_within (hl := (parts_trans (by decide) hl))
    | with_reducible apply Within.ite
    | split
    | dsimp only
    | with_reducible intro _

theorem State.gainWatch_within {lp : List Part} {root s : State} (h : Within lp root s) (c : Fin 4) (code : Int) (ovf : Bool) (hl :
    ∀ p ∈ ([.regs 0x470, .met] : List Part), p ∈ lp) : Within lp root (State.gainWatch s c code ovf) := by
  unfold State.gainWatch
  repeat' first
    | with_reducible assumption
    | with_reducible apply State.onGain_within (hl := (parts_trans (by decide) hl))
    | ((with_reducible apply State.inc_within (bf := 0x470) (mf := (hl _ (by decide)))) <;> first | (rfl; done) | (dsimp only; omega) | (dsimp only [Fld.whole]; omega) | (split <;> first | (rfl; done) | (dsimp only; omega)) | show Within _ _ _)
    | with_reducible refine Within.when ?_ fun _ _ => ?_
    | with_reducible apply Within.ite
    | split
    | dsimp only
    | with_reducible intro _

theorem execGainSettled_within {s out : State} (c : Fin 4) (e : execGainSettled c s = .next out) : Within [.met] s out := by
  cases e
  repeat' first
    | with_reducible exact Within.refl _ _
    | with_reducible assumption
    | with_reducible apply State.onGain_within (hl := (by decide))
    | with_reducible refine Within.when ?_ fun _ _ => ?_
    | dsimp only
    | with_reducible intro _

theorem State.pqEvent_within {lp : List Part} {root s : State} (h : Within lp root s) (kind phases ms u : Nat) (hl : ∀ p ∈ ([.regs
    0x470, .met, .sag] : List Part), p ∈ lp) : Within lp root (State.pqEvent s kind phases ms u) := by
  unfold State.pqEvent
  repeat' first
    | with_reducible assumption
    | with_reducible apply State.journal_within (hl := (parts_trans (by decide) hl))
    | ((with_reducible apply State.put_within 0x470 (hb := (hl _ (by decide)))) <;> first | (rfl; done) | (dsimp only; omega) | (dsimp only [Fld.whole]; omega) | (split <;> first | (rfl; done) | (dsimp only; omega)) | show Within _ _ _)
    | dsimp only
    | with_reducible intro _

theorem State.pqStep_within {lp : List Part} {root s : State} (h : Within lp root s) (kind : Fin 3) (now u : Nat) (starts ovf :
    Bool) (hl : ∀ p ∈ ([.regs 0x470, .met, .sag] : List Part), p ∈ lp) : Within lp root (State.pqStep s kind now u starts ovf) := by
  unfold State.pqStep
  repeat' first
    | with_reducible assumption
    | with_reducible apply State.pqEvent_within (hl := (parts_trans (by decide) hl))
    | with_reducible apply State.withMet_within (hl := (parts_trans (by decide) hl))
    | with_reducible apply Within.ite
    | split
    | dsimp only
    | with_reducible intro _

theorem State.rapidStep_within {lp : List Part} {root s : State} (h : Within lp root s) (els : List (Fin 3)) (u : Vector Nat 3)
    (inside : Bool) (least : Nat) (hl : ∀ p ∈ ([.regs 0x470, .met, .sag] : List Part), p ∈ lp) : Within lp root (State.rapidStep s
    els u inside least) := by
  unfold State.rapidStep
  repeat' first
    | with_reducible assumption
    | with_reducible apply State.pqEvent_within (hl := (parts_trans (by decide) hl))
    | with_reducible apply State.withMet_within (hl := (parts_trans (by decide) hl))
    | with_reducible refine Within.foldl ?_ fun _ _ _ => ?_
    | with_reducible apply Within.ite
    | split
    | dsimp only
    | with_reducible intro _

theorem State.pqHalf_within {lp : List Part} {root s : State} (h : Within lp root s) (u : Vector Nat 3) (hl : ∀ p ∈ ([.regs 0x470,
    .met, .sag] : List Part), p ∈ lp) : Within lp root (State.pqHalf s u) := by
  unfold State.pqHalf
  repeat' first
    | with_reducible assumption
    | with_reducible apply State.rapidStep_within (hl := (parts_trans (by decide) hl))
    | with_reducible apply State.pqStep_within (hl := (parts_trans (by decide) hl))
    | with_reducible apply State.withMet_within (hl := (parts_trans (by decide) hl))
    | with_reducible refine Within.foldl ?_ fun _ _ _ => ?_
    | with_reducible apply Within.ite
    | split
    | dsimp only
    | with_reducible intro _

theorem State.takeScale_within {lp : List Part} {root s : State} (h : Within lp root s) (hl : ∀ p ∈ ([.met] : List Part), p ∈ lp) :
    Within lp root (State.takeScale s) := by
  unfold State.takeScale
  repeat' first
    | with_reducible assumption
    | with_reducible apply State.withMet_within (hl := (parts_trans (by decide) hl))
    | with_reducible refine Within.when ?_ fun _ _ => ?_
    | dsimp only
    | with_reducible intro _

theorem State.beginSave_within {lp : List Part} {root s : State} (h : Within lp root s) (r : SaveRun) (hl : ∀ p ∈ ([.regs 0x470,
    .met] : List Part), p ∈ lp) : Within lp root (State.beginSave s r) := by
  unfold State.beginSave
  repeat' first
    | with_reducible assumption
    | ((with_reducible apply State.put_within 0x470 (hb := (hl _ (by decide)))) <;> first | (rfl; done) | (dsimp only; omega) | (dsimp only [Fld.whole]; omega) | (split <;> first | (rfl; done) | (dsimp only; omega)) | show Within _ _ _)
    | with_reducible apply State.withMet_within (hl := (parts_trans (by decide) hl))
    | dsimp only
    | with_reducible intro _

theorem State.takeReset_within {lp : List Part} {root s : State} (h : Within lp root s) (hl : ∀ p ∈ ([.regs 0x470, .met] : List
    Part), p ∈ lp) : Within lp root (State.takeReset s) := by
  unfold State.takeReset
  repeat' first
    | with_reducible assumption
    | with_reducible apply State.beginSave_within (hl := (parts_trans (by decide) hl))
    | with_reducible apply State.withMet_within (hl := (parts_trans (by decide) hl))
    | with_reducible refine Within.when ?_ fun _ _ => ?_
    | dsimp only
    | with_reducible intro _

theorem State.freqSample_within {lp : List Part} {root s : State} (h : Within lp root s) (v : Int) (hl : ∀ p ∈ ([.met] : List Part),
    p ∈ lp) : Within lp root (State.freqSample s v) := by
  unfold State.freqSample
  repeat' first
    | with_reducible assumption
    | with_reducible apply State.withMet_within (hl := (parts_trans (by decide) hl))
    | with_reducible apply Within.ite
    | split
    | dsimp only
    | with_reducible intro _

theorem execMeterSample_within {s out : State} (o : MeterObs) (e : execMeterSample o s = .next out) : Within [.regs 0x470, .free,
    .met, .sag] s out := by
  cases e
  repeat' first
    | with_reducible exact Within.refl _ _
    | with_reducible assumption
    | with_reducible apply State.freqSample_within (hl := (by decide))
    | with_reducible apply State.takeReset_within (hl := (by decide))
    | with_reducible apply State.takeScale_within (hl := (by decide))
    | with_reducible apply State.pqHalf_within (hl := (by decide))
    | with_reducible apply State.gainWatch_within (hl := (by decide))
    | with_reducible apply State.gainAtBoundary_within (hl := (by decide))
    | ((with_reducible apply State.put_within 0x470 (hb := (by decide))) <;> first | (rfl; done) | (dsimp only; omega) | (dsimp only [Fld.whole]; omega) | (split <;> first | (rfl; done) | (dsimp only; omega)) | show Within _ _ _)
    | with_reducible apply State.withMet_within (hl := (by decide))
    | with_reducible apply State.withFree_within (hl := (by decide))
    | with_reducible refine Within.each ?_ fun _ _ _ => ?_
    | with_reducible refine Within.when ?_ fun _ _ => ?_
    | with_reducible refine Within.foldl ?_ fun _ _ _ => ?_
    | with_reducible apply Within.ite
    | split
    | dsimp only
    | with_reducible intro _

theorem State.putOrFree_within {lp : List Part} {root s : State} (h : Within lp root s) (f : Fld) (v : Option Word) {bf : Nat} (hf :
    f.addr / 0x100000 = bf) (mf : .regs bf ∈ lp) (hl : ∀ p ∈ ([.free] : List Part), p ∈ lp) : Within lp root (State.putOrFree s f v)
    := by
  unfold State.putOrFree
  repeat' first
    | with_reducible assumption
    | with_reducible apply State.tookFree_within (hl := (parts_trans (by decide) hl))
    | with_reducible refine State.put_within _ ?_ hf mf
    | split
    | dsimp only
    | with_reducible intro _

theorem State.aggregate_within {lp : List Part} {root s : State} (h : Within lp root s) (i : Fin 4) (m : MetSum) (hl : ∀ p ∈ ([.regs
    0x470, .free, .met] : List Part), p ∈ lp) : Within lp root (State.aggregate s i m) := by
  have hb := hl (.regs 0x470) (by decide)
  refine State.withMet_within ?_ _ (parts_trans (by decide) hl)
  refine State.incWrap_within (State.putB_within (Within.each (Within.each h fun e t k => ?_) fun e _ k => ?_) _ _ ?_ hb) _ ?_ hb
  · exact State.putOrFree_within k _ _ (bf := 0x470) (by dsimp only; omega) hb (parts_trans (by decide) hl)
  · exact State.put_within 0x470 k (by dsimp only; omega) hb
  · dsimp only
    omega
  · dsimp only
    omega

theorem State.gather_within {lp : List Part} {root s : State} (h : Within lp root s) (i : Fin 3) (m : MetSum) (done : Bool) (hl : ∀
    p ∈ ([.regs 0x470, .free, .met] : List Part), p ∈ lp) : Within lp root (State.gather s i m done) := by
  unfold State.gather
  repeat' first
    | with_reducible assumption
    | with_reducible apply State.aggregate_within (hl := (parts_trans (by decide) hl))
    | with_reducible apply State.withMet_within (hl := (parts_trans (by decide) hl))
    | with_reducible refine Within.when ?_ fun _ _ => ?_
    | with_reducible apply Within.ite
    | split
    | dsimp only
    | with_reducible intro _

theorem State.harmonics_within {lp : List Part} {root s : State} (h : Within lp root s) (hl : ∀ p ∈ ([.regs 0x470] : List Part), p ∈
    lp) : Within lp root (State.harmonics s) := by
  have hb := hl (.regs 0x470) (by decide)
  refine State.incWrap_within (Within.each_mem h fun f m t k => ?_) _ rfl hb
  refine State.put_within 0x470 k ?_ hb
  obtain ⟨c, hc, m⟩ := List.mem_flatMap.mp m
  obtain ⟨g, hg, m⟩ := List.mem_flatMap.mp m
  obtain ⟨j, hj, rfl⟩ := List.mem_map.mp m
  have h1 := List.mem_range.mp hc
  have h2 := List.mem_range.mp hg
  have h3 := List.mem_range.mp hj
  have h4 : j < 64 := by split at h3 <;> omega
  dsimp only
  omega

theorem execPqIntervalEnd_within {s out : State} (e : execPqIntervalEnd s = .next out) : Within [.regs 0x470, .free, .met] s out :=
    by
  cases e
  repeat' first
    | with_reducible exact Within.refl _ _
    | with_reducible assumption
    | with_reducible apply State.harmonics_within (hl := (by decide))
    | with_reducible apply State.gather_within (hl := (by decide))
    | with_reducible apply State.aggregate_within (hl := (by decide))
    | with_reducible apply State.withMet_within (hl := (by decide))
    | with_reducible apply State.withFree_within (hl := (by decide))
    | with_reducible apply Within.ite
    | split
    | dsimp only
    | with_reducible intro _

theorem execMeterWrongSeq_within {s out : State} (on : Bool) (e : execMeterWrongSeq on s = .next out) : Within [.regs 0x470, .met,
    .sag] s out := by
  cases e
  repeat' first
    | with_reducible exact Within.refl _ _
    | with_reducible assumption
    | with_reducible apply State.journal_within (hl := (by decide))
    | ((with_reducible apply State.putB_within (bf := 0x470) (mf := (by decide))) <;> first | (rfl; done) | (dsimp only; omega) | (dsimp only [Fld.whole]; omega) | (split <;> first | (rfl; done) | (dsimp only; omega)) | show Within _ _ _)
    | ((with_reducible apply State.put_within 0x470 (hb := (by decide))) <;> first | (rfl; done) | (dsimp only; omega) | (dsimp only [Fld.whole]; omega) | (split <;> first | (rfl; done) | (dsimp only; omega)) | show Within _ _ _)
    | with_reducible refine Within.when ?_ fun _ _ => ?_
    | with_reducible apply Within.ite
    | split
    | dsimp only
    | with_reducible intro _

theorem execMeterMissN_within {s out : State} (on : Bool) (v0 : Nat) (e : execMeterMissN on v0 s = .next out) : Within [.regs 0x470,
    .met, .sag] s out := by
  cases e
  repeat' first
    | with_reducible exact Within.refl _ _
    | with_reducible assumption
    | with_reducible apply State.journal_within (hl := (by decide))
    | ((with_reducible apply State.putB_within (bf := 0x470) (mf := (by decide))) <;> first | (rfl; done) | (dsimp only; omega) | (dsimp only [Fld.whole]; omega) | (split <;> first | (rfl; done) | (dsimp only; omega)) | show Within _ _ _)
    | ((with_reducible apply State.put_within 0x470 (hb := (by decide))) <;> first | (rfl; done) | (dsimp only; omega) | (dsimp only [Fld.whole]; omega) | (split <;> first | (rfl; done) | (dsimp only; omega)) | show Within _ _ _)
    | with_reducible refine Within.when ?_ fun _ _ => ?_
    | with_reducible apply Within.ite
    | split
    | dsimp only
    | with_reducible intro _

theorem execReverseFlow_within {s out : State} (p : Fin 3) (v : Word) (e : execReverseFlow p v s = .next out) : Within [.regs 0x470,
    .met, .sag] s out := by
  cases e
  repeat' first
    | with_reducible exact Within.refl _ _
    | with_reducible assumption
    | with_reducible apply State.journal_within (hl := (by decide))
    | ((with_reducible apply State.putBit_within (bf := 0x470) (mf := (by decide))) <;> first | (rfl; done) | (dsimp only; omega) | (dsimp only [Fld.whole]; omega) | (split <;> first | (rfl; done) | (dsimp only; omega)) | show Within _ _ _)
    | with_reducible apply Within.ite
    | split
    | dsimp only
    | with_reducible intro _

theorem execPeriodicSave_within {s out : State} (e : execPeriodicSave s = .next out) : Within [.regs 0x470, .met] s out := by
  cases e
  repeat' first
    | with_reducible exact Within.refl _ _
    | with_reducible assumption
    | with_reducible apply State.beginSave_within (hl := (by decide))
    | with_reducible apply State.withMet_within (hl := (by decide))
    | with_reducible apply Within.ite
    | split
    | dsimp only
    | with_reducible intro _

theorem State.pfSave_within {lp : List Part} {root s : State} (h : Within lp root s) (hl : ∀ p ∈ ([.regs 0x470, .met] : List Part),
    p ∈ lp) : Within lp root (State.pfSave s) := by
  unfold State.pfSave
  repeat' first
    | with_reducible assumption
    | with_reducible apply State.beginSave_within (hl := (parts_trans (by decide) hl))
    | dsimp only
    | with_reducible intro _

theorem execSaveComplete_within {s out : State} (e : execSaveComplete s = .next out) : Within [.regs 0x470, .regs 0x4d0, .met,
    .sag, .grg, .free] s out := by
  cases e
  repeat' first
    | with_reducible exact Within.refl _ _
    | with_reducible assumption
    | with_reducible apply State.tookFree_within (hl := (by decide))
    | with_reducible apply State.sectorFails_within (hl := (by decide))
    | with_reducible apply State.journal_within (hl := (by decide))
    | ((with_reducible apply State.put_within 0x470 (hb := (by decide))) <;> first | (rfl; done) | (dsimp only; omega) | (dsimp only [Fld.whole]; omega) | (split <;> first | (rfl; done) | (dsimp only; omega)) | show Within _ _ _)
    | with_reducible apply State.withMet_within (hl := (by decide))
    | with_reducible refine Within.when ?_ fun _ _ => ?_
    | with_reducible apply Within.ite
    | split
    | dsimp only
    | with_reducible intro _

theorem State.journalFirst_within {lp : List Part} {root s : State} (h : Within lp root s) (typ detail payload : Nat) (hl : ∀ p ∈
    ([.met] : List Part), p ∈ lp) : Within lp root (State.journalFirst s typ detail payload) := by
  unfold State.journalFirst
  repeat' first
    | with_reducible assumption
    | with_reducible apply State.withMet_within (hl := (parts_trans (by decide) hl))
    | with_reducible apply Within.ite
    | split
    | dsimp only
    | with_reducible intro _

theorem execMeterResume_within {s out : State} (e : execMeterResume s = .next out) : Within [.regs 0x470, .met] s out := by
  cases e
  repeat' first
    | with_reducible exact Within.refl _ _
    | with_reducible assumption
    | with_reducible apply State.journalFirst_within (hl := (by decide))
    | ((with_reducible apply State.put_within 0x470 (hb := (by decide))) <;> first | (rfl; done) | (dsimp only; omega) | (dsimp only [Fld.whole]; omega) | (split <;> first | (rfl; done) | (dsimp only; omega)) | show Within _ _ _)
    | with_reducible apply State.withMet_within (hl := (by decide))
    | with_reducible refine Within.when ?_ fun _ _ => ?_
    | with_reducible apply Within.ite
    | split
    | dsimp only
    | with_reducible intro _

theorem execJournalEntry_within {s out : State} (e : execJournalEntry s = .next out) : Within [.regs 0x470, .met] s out := by
  cases e
  repeat' first
    | with_reducible exact Within.refl _ _
    | with_reducible assumption
    | with_reducible apply State.journalLost_within (hl := (by decide))
    | ((with_reducible apply State.put_within 0x470 (hb := (by decide))) <;> first | (rfl; done) | (dsimp only; omega) | (dsimp only [Fld.whole]; omega) | (split <;> first | (rfl; done) | (dsimp only; omega)) | show Within _ _ _)
    | with_reducible apply State.withMet_within (hl := (by decide))
    | with_reducible apply Within.ite
    | split
    | dsimp only
    | with_reducible intro _

theorem State.drainJournal_within {lp : List Part} {root s : State} (h : Within lp root s) (hl : ∀ p ∈ ([.regs 0x470, .met] : List
    Part), p ∈ lp) : Within lp root (State.drainJournal s) := by
  unfold State.drainJournal
  repeat' first
    | with_reducible assumption
    | ((with_reducible apply State.incWrap_within (bf := 0x470) (mf := (hl _ (by decide)))) <;> first | (rfl; done) | (dsimp only; omega) | (dsimp only [Fld.whole]; omega) | (split <;> first | (rfl; done) | (dsimp only; omega)) | show Within _ _ _)
    | with_reducible apply State.withMet_within (hl := (parts_trans (by decide) hl))
    | with_reducible refine Within.when ?_ fun _ _ => ?_
    | split
    | dsimp only
    | with_reducible intro _

theorem jrnlCommitOp_within {lp : List Part} {root s : State} (h : Within lp root s) (hl : ∀ p ∈ ([.regs 0x470, .met, .sag] : List
    Part), p ∈ lp) : Within lp root (jrnlCommitOp s) := by
  unfold jrnlCommitOp
  repeat' first
    | with_reducible assumption
    | with_reducible apply State.journal_within (hl := (parts_trans (by decide) hl))
    | ((with_reducible apply State.inc_within (bf := 0x470) (mf := (hl _ (by decide)))) <;> first | (rfl; done) | (dsimp only; omega) | (dsimp only [Fld.whole]; omega) | (split <;> first | (rfl; done) | (dsimp only; omega)) | show Within _ _ _)
    | ((with_reducible apply State.put_within 0x470 (hb := (hl _ (by decide)))) <;> first | (rfl; done) | (dsimp only; omega) | (dsimp only [Fld.whole]; omega) | (split <;> first | (rfl; done) | (dsimp only; omega)) | show Within _ _ _)
    | with_reducible apply Within.ite
    | split
    | dsimp only
    | with_reducible intro _

theorem execJrnlCommit_within {s out : State} (e : execJrnlCommit s = .next out) : Within [.regs 0x470, .held, .resp, .met, .sag] s
    out := by
  cases e
  repeat' first
    | with_reducible exact Within.refl _ _
    | with_reducible assumption
    | with_reducible apply jrnlCommitOp_within (hl := (by decide))
    | with_reducible apply State.access_within (hl := (by decide))
    | dsimp only
    | with_reducible intro _

end Sys2Proof.Machine
end

