-- ==== Sys2Proof/Laws/WithinSaggar.lean ====
section
/-!
SUPPORT. The parts of the state that each operation of Machine/Saggar.lean may change.
-/

namespace Sys2Proof.Machine

open Sys2Proof

set_option linter.all false

theorem State.onSag_within {lp : List Part} {root s : State} (h : Within lp root s) (f : SagState → SagState) (hl : ∀ p ∈ ([.sag] :
    List Part), p ∈ lp) : Within lp root (State.onSag s f) := by
  unfold State.onSag
  repeat' first
    | with_reducible assumption
    | with_reducible apply State.withSag_within (hl := (parts_trans (by decide) hl))
    | dsimp only
    | with_reducible intro _

theorem State.discardStaged_within {lp : List Part} {root s : State} (h : Within lp root s) (hl : ∀ p ∈ ([.regs 0x400, .regs 0x401,
    .glz] : List Part), p ∈ lp) : Within lp root (State.discardStaged s) := by
  unfold State.discardStaged
  refine Within.ite ?_ ?_
  · skip
    repeat' first
      | with_reducible assumption
      | ((with_reducible apply State.put_within 0x401 (hb := (hl _ (by decide)))) <;> first | (rfl; done) | (dsimp only; omega) | (dsimp only [Fld.whole]; omega) | (split <;> first | (rfl; done) | (dsimp only; omega)) | show Within _ _ _)
      | ((with_reducible apply State.put_within 0x400 (hb := (hl _ (by decide)))) <;> first | (rfl; done) | (dsimp only; omega) | (dsimp only [Fld.whole]; omega) | (split <;> first | (rfl; done) | (dsimp only; omega)) | show Within _ _ _)
      | with_reducible apply State.withGlz_within (hl := (parts_trans (by decide) hl))
      | with_reducible apply Within.ite
      | split
      | dsimp only
      | with_reducible intro _
  · skip
    repeat' first
      | with_reducible assumption
      | ((with_reducible apply State.put_within 0x401 (hb := (hl _ (by decide)))) <;> first | (rfl; done) | (dsimp only; omega) | (dsimp only [Fld.whole]; omega) | (split <;> first | (rfl; done) | (dsimp only; omega)) | show Within _ _ _)
      | ((with_reducible apply State.put_within 0x400 (hb := (hl _ (by decide)))) <;> first | (rfl; done) | (dsimp only; omega) | (dsimp only [Fld.whole]; omega) | (split <;> first | (rfl; done) | (dsimp only; omega)) | show Within _ _ _)
      | with_reducible apply State.withGlz_within (hl := (parts_trans (by decide) hl))
      | with_reducible apply Within.ite
      | split
      | dsimp only
      | with_reducible intro _

theorem State.orderlyBegin_within {lp : List Part} {root s : State} (h : Within lp root s) (cause : Nat) (hl : ∀ p ∈ ([.regs 0x440,
    .regs 0x448, .regs 0x470, .regs 0x4e0, .outbox, .mod, .tiles, .sit, .met, .sag, .pwr, .con] : List Part), p ∈ lp) : Within lp
    root (State.orderlyBegin s cause) := by
  unfold State.orderlyBegin
  repeat' first
    | with_reducible assumption
    | with_reducible apply State.pfSave_within (hl := (parts_trans (by decide) hl))
    | with_reducible apply State.raiseStop_within (hl := (parts_trans (by decide) hl))
    | with_reducible apply State.withPwr_within (hl := (parts_trans (by decide) hl))
    | with_reducible apply Within.ite
    | split
    | dsimp only
    | with_reducible intro _

theorem State.attestCommit_within {lp : List Part} {root s : State} (h : Within lp root s) (q : Nat) (hl : ∀ p ∈ ([.regs 0x4b0,
    .sag] : List Part), p ∈ lp) : Within lp root (State.attestCommit s q) := by
  unfold State.attestCommit
  repeat' first
    | with_reducible assumption
    | with_reducible apply State.onSag_within (hl := (parts_trans (by decide) hl))
    | ((with_reducible apply State.putB_within (bf := 0x4b0) (mf := (hl _ (by decide)))) <;> first | (rfl; done) | (dsimp only; omega) | (dsimp only [Fld.whole]; omega) | (split <;> first | (rfl; done) | (dsimp only; omega)) | show Within _ _ _)
    | ((with_reducible apply State.put_within 0x4b0 (hb := (hl _ (by decide)))) <;> first | (rfl; done) | (dsimp only; omega) | (dsimp only [Fld.whole]; omega) | (split <;> first | (rfl; done) | (dsimp only; omega)) | show Within _ _ _)
    | with_reducible apply Within.ite
    | split
    | dsimp only
    | with_reducible intro _

theorem State.keepTree_within {lp : List Part} {root s : State} (h : Within lp root s) (t : Nat) (hl : ∀ p ∈ ([.sag] : List Part), p
    ∈ lp) : Within lp root (State.keepTree s t) := by
  unfold State.keepTree
  repeat' first
    | with_reducible assumption
    | with_reducible apply State.onSag_within (hl := (parts_trans (by decide) hl))
    | with_reducible apply Within.ite
    | split
    | dsimp only
    | with_reducible intro _

theorem execTreeBuildDone_within {s out : State} (e : execTreeBuildDone s = .next out) : Within [.regs 0x4b0, .sag] s out := by
  cases e
  repeat' first
    | with_reducible exact Within.refl _ _
    | with_reducible assumption
    | with_reducible apply State.keepTree_within (hl := (by decide))
    | with_reducible apply State.onSag_within (hl := (by decide))
    | ((with_reducible apply State.put_within 0x4b0 (hb := (by decide))) <;> first | (rfl; done) | (dsimp only; omega) | (dsimp only [Fld.whole]; omega) | (split <;> first | (rfl; done) | (dsimp only; omega)) | show Within _ _ _)
    | with_reducible apply Within.ite
    | split
    | dsimp only
    | with_reducible intro _

theorem State.attestWasted_within {lp : List Part} {root s : State} (h : Within lp root s) (hl : ∀ p ∈ ([.regs 0x470, .met, .sag] :
    List Part), p ∈ lp) : Within lp root (State.attestWasted s) := by
  unfold State.attestWasted
  repeat' first
    | with_reducible assumption
    | with_reducible apply State.onSag_within (hl := (parts_trans (by decide) hl))
    | with_reducible apply State.journal_within (hl := (parts_trans (by decide) hl))
    | with_reducible apply Within.ite
    | split
    | dsimp only
    | with_reducible intro _

theorem State.debugClose_within {lp : List Part} {root s : State} (h : Within lp root s) (hl : ∀ p ∈ ([.regs 0x4b0] : List Part), p
    ∈ lp) : Within lp root (State.debugClose s) := by
  unfold State.debugClose
  repeat' first
    | with_reducible assumption
    | ((with_reducible apply State.put_within 0x4b0 (hb := (hl _ (by decide)))) <;> first | (rfl; done) | (dsimp only; omega) | (dsimp only [Fld.whole]; omega) | (split <;> first | (rfl; done) | (dsimp only; omega)) | show Within _ _ _)
    | dsimp only
    | with_reducible intro _

theorem State.zeroise_within {lp : List Part} {root s : State} (h : Within lp root s) (t : Nat) (hl : ∀ p ∈ ([.regs 0x440, .regs
    0x448, .regs 0x470, .regs 0x4b0, .regs 0x4b8, .regs 0x4e0, .outbox, .mod, .tiles, .sit, .met, .sag, .pug, .pwr, .con] : List
    Part), p ∈ lp) : Within lp root (State.zeroise s t) := by
  unfold State.zeroise
  repeat' first
    | with_reducible assumption
    | with_reducible apply State.orderlyBegin_within (hl := (parts_trans (by decide) hl))
    | with_reducible apply State.onSag_within (hl := (parts_trans (by decide) hl))
    | with_reducible apply State.journal_within (hl := (parts_trans (by decide) hl))
    | ((with_reducible apply State.put_within 0x4b0 (hb := (hl _ (by decide)))) <;> first | (rfl; done) | (dsimp only; omega) | (dsimp only [Fld.whole]; omega) | (split <;> first | (rfl; done) | (dsimp only; omega)) | show Within _ _ _)
    | ((with_reducible apply State.put_within 0x4b8 (hb := (hl _ (by decide)))) <;> first | (rfl; done) | (dsimp only; omega) | (dsimp only [Fld.whole]; omega) | (split <;> first | (rfl; done) | (dsimp only; omega)) | show Within _ _ _)
    | with_reducible apply State.withPug_within (hl := (parts_trans (by decide) hl))
    | with_reducible apply Within.ite
    | split
    | dsimp only
    | with_reducible intro _

theorem State.lockSag_within {lp : List Part} {root s : State} (h : Within lp root s) (hl : ∀ p ∈ ([.regs 0x4b0, .sag] : List Part),
    p ∈ lp) : Within lp root (State.lockSag s) := by
  unfold State.lockSag
  repeat' first
    | with_reducible assumption
    | with_reducible apply State.debugClose_within (hl := (parts_trans (by decide) hl))
    | with_reducible apply State.onSag_within (hl := (parts_trans (by decide) hl))
    | ((with_reducible apply State.put_within 0x4b0 (hb := (hl _ (by decide)))) <;> first | (rfl; done) | (dsimp only; omega) | (dsimp only [Fld.whole]; omega) | (split <;> first | (rfl; done) | (dsimp only; omega)) | show Within _ _ _)
    | with_reducible apply Within.ite
    | split
    | dsimp only
    | with_reducible intro _

theorem State.gaspTrigger_within {lp : List Part} {root s : State} (h : Within lp root s) (trigger detail : Nat) (hl : ∀ p ∈ ([.regs
    0x470, .regs 0x4b8, .met, .sag, .pug] : List Part), p ∈ lp) : Within lp root (State.gaspTrigger s trigger detail) := by
  unfold State.gaspTrigger
  repeat' first
    | with_reducible assumption
    | with_reducible apply State.journal_within (hl := (parts_trans (by decide) hl))
    | ((with_reducible apply State.put_within 0x4b8 (hb := (hl _ (by decide)))) <;> first | (rfl; done) | (dsimp only; omega) | (dsimp only [Fld.whole]; omega) | (split <;> first | (rfl; done) | (dsimp only; omega)) | show Within _ _ _)
    | with_reducible apply State.withPug_within (hl := (parts_trans (by decide) hl))
    | with_reducible apply Within.ite
    | split
    | dsimp only
    | with_reducible intro _

theorem State.tamperAct_within {lp : List Part} {root s : State} (h : Within lp root s) (sensor v : Nat) (hl : ∀ p ∈ ([.regs 0x440,
    .regs 0x448, .regs 0x470, .regs 0x4b0, .regs 0x4b8, .regs 0x4e0, .outbox, .mod, .tiles, .sit, .met, .sag, .pug, .pwr, .con] :
    List Part), p ∈ lp) : Within lp root (State.tamperAct s sensor v) := by
  unfold State.tamperAct
  repeat' first
    | with_reducible assumption
    | with_reducible apply State.gaspTrigger_within (hl := (parts_trans (by decide) hl))
    | with_reducible apply State.lockSag_within (hl := (parts_trans (by decide) hl))
    | with_reducible apply State.zeroise_within (hl := (parts_trans (by decide) hl))
    | with_reducible apply State.journal_within (hl := (parts_trans (by decide) hl))
    | ((with_reducible apply State.orBits_within (bf := 0x4b0) (mf := (hl _ (by decide)))) <;> first | (rfl; done) | (dsimp only; omega) | (dsimp only [Fld.whole]; omega) | (split <;> first | (rfl; done) | (dsimp only; omega)) | show Within _ _ _)
    | ((with_reducible apply State.inc_within (bf := 0x4b0) (mf := (hl _ (by decide)))) <;> first | (rfl; done) | (dsimp only; omega) | (dsimp only [Fld.whole]; omega) | (split <;> first | (rfl; done) | (dsimp only; omega)) | show Within _ _ _)
    | ((with_reducible apply State.put_within 0x4b0 (hb := (hl _ (by decide)))) <;> first | (rfl; done) | (dsimp only; omega) | (dsimp only [Fld.whole]; omega) | (split <;> first | (rfl; done) | (dsimp only; omega)) | show Within _ _ _)
    | with_reducible refine Within.when ?_ fun _ _ => ?_
    | split
    | dsimp only
    | with_reducible intro _

theorem State.tamperDue_within {lp : List Part} {root s : State} (h : Within lp root s) (hl : ∀ p ∈ ([.regs 0x440, .regs 0x448,
    .regs 0x470, .regs 0x4b0, .regs 0x4b8, .regs 0x4e0, .outbox, .mod, .tiles, .sit, .met, .sag, .pug, .pwr, .con] : List Part), p ∈
    lp) : Within lp root (State.tamperDue s) := by
  unfold State.tamperDue
  repeat' first
    | with_reducible assumption
    | with_reducible apply State.tamperAct_within (hl := (parts_trans (by decide) hl))
    | with_reducible apply State.withPug_within (hl := (parts_trans (by decide) hl))
    | with_reducible refine Within.each ?_ fun _ _ _ => ?_
    | dsimp only
    | with_reducible intro _

theorem execTamperEvent_within {s out : State} (sensor : Fin 4) (v : Word) (e : execTamperEvent sensor v s = .next out) : Within
    [.regs 0x440, .regs 0x448, .regs 0x470, .regs 0x4b0, .regs 0x4b8, .regs 0x4e0, .outbox, .mod, .tiles, .sit, .met, .sag, .pug,
    .pwr, .con] s out := by
  cases e
  repeat' first
    | with_reducible exact Within.refl _ _
    | with_reducible assumption
    | with_reducible apply State.tamperAct_within (hl := (by decide))
    | with_reducible apply State.withPug_within (hl := (by decide))
    | with_reducible apply Within.ite
    | split
    | dsimp only
    | with_reducible intro _

theorem State.svcFree_within {lp : List Part} {root s : State} (h : Within lp root s) (id len : Nat) (hl : ∀ p ∈ ([.free] : List
    Part), p ∈ lp) : Within lp root (State.svcFree s id len).1 := by
  unfold State.svcFree
  try dsimp only
  repeat' first
    | with_reducible assumption
    | split
    | with_reducible apply State.tookFree_within (hl := (parts_trans (by decide) hl))
    | dsimp only
    | with_reducible intro _

theorem State.svcStart_within {lp : List Part} {root s : State} (h : Within lp root s) (id len : Nat) (f : State → State × SvcRun)
    (hf : ∀ u0, Within lp root u0 → Within lp root (f u0).1) (hl : ∀ p ∈ ([.regs 0x4b0, .sag] : List Part), p ∈ lp) : Within lp root
    (State.svcStart s id len f) := by
  unfold State.svcStart
  repeat' first
    | with_reducible assumption
    | with_reducible apply hf
    | with_reducible apply State.onSag_within (hl := (parts_trans (by decide) hl))
    | ((with_reducible apply State.inc_within (bf := 0x4b0) (mf := (hl _ (by decide)))) <;> first | (rfl; done) | (dsimp only; omega) | (dsimp only [Fld.whole]; omega) | (split <;> first | (rfl; done) | (dsimp only; omega)) | show Within _ _ _)
    | ((with_reducible apply State.put_within 0x4b0 (hb := (hl _ (by decide)))) <;> first | (rfl; done) | (dsimp only; omega) | (dsimp only [Fld.whole]; omega) | (split <;> first | (rfl; done) | (dsimp only; omega)) | show Within _ _ _)
    | with_reducible apply Within.ite
    | split
    | dsimp only
    | with_reducible intro _

theorem State.svcGo_within {lp : List Part} {root s : State} (h : Within lp root s) (id len : Nat) (f : State → State × SvcRun) (hf
    : ∀ u0, Within lp root u0 → Within lp root (f u0).1) (hl : ∀ p ∈ ([.regs 0x4b0, .held, .resp, .sag] : List Part), p ∈ lp) :
    Within lp root (State.svcGo s id len f) := by
  unfold State.svcGo
  repeat' first
    | with_reducible assumption
    | with_reducible apply hf
    | with_reducible apply State.svcStart_within (hl := (parts_trans (by decide) hl))
    | with_reducible apply State.access_within (hl := (parts_trans (by decide) hl))
    | dsimp only
    | with_reducible intro _

theorem State.authorised_within {lp : List Part} {root s : State} (h : Within lp root s) (id : Nat) (sigOk : Nat → Bool) (f : State
    → State × SvcRun) (hf : ∀ u0, Within lp root u0 → Within lp root (f u0).1) (hl : ∀ p ∈ ([.regs 0x470, .met, .sag] : List Part),
    p ∈ lp) : Within lp root (State.authorised s id sigOk f).1 := by
  unfold State.authorised
  try dsimp only
  repeat' first
    | with_reducible assumption
    | split
    | with_reducible apply hf
    | with_reducible apply State.onSag_within (hl := (parts_trans (by decide) hl))
    | with_reducible apply State.journal_within (hl := (parts_trans (by decide) hl))
    | with_reducible apply Within.ite
    | dsimp only
    | with_reducible intro _

theorem execServiceComplete_within {s out : State} (e : execServiceComplete s = .next out) : Within [.regs 0x470, .regs 0x4b0, .met,
    .sag] s out := by
  cases e
  repeat' first
    | with_reducible exact Within.refl _ _
    | with_reducible assumption
    | with_reducible apply State.onSag_within (hl := (by decide))
    | with_reducible apply State.journal_within (hl := (by decide))
    | ((with_reducible apply State.put_within 0x4b0 (hb := (by decide))) <;> first | (rfl; done) | (dsimp only; omega) | (dsimp only [Fld.whole]; omega) | (split <;> first | (rfl; done) | (dsimp only; omega)) | show Within _ _ _)
    | split
    | dsimp only
    | with_reducible intro _

theorem execNonceExpiry_within {s out : State} (e : execNonceExpiry s = .next out) : Within [.sag] s out := by
  cases e
  repeat' first
    | with_reducible exact Within.refl _ _
    | with_reducible assumption
    | with_reducible apply State.onSag_within (hl := (by decide))
    | dsimp only
    | with_reducible intro _

theorem svcGetInfo_within {lp : List Part} {root s : State} (h : Within lp root s) (hl : ∀ p ∈ ([.sag] : List Part), p ∈ lp) :
    Within lp root (svcGetInfo s).1 := by
  unfold svcGetInfo
  try dsimp only
  repeat' first
    | with_reducible assumption
    | split
    | with_reducible apply State.onSag_within (hl := (parts_trans (by decide) hl))
    | dsimp only
    | with_reducible intro _

theorem execGetInfo_within {s out : State} (e : execGetInfo s = .next out) : Within [.regs 0x4b0, .held, .resp, .sag] s out := by
  cases e
  repeat' first
    | with_reducible exact Within.refl _ _
    | with_reducible assumption
    | with_reducible apply svcGetInfo_within (hl := (by decide))
    | with_reducible apply State.svcGo_within (hl := (by decide))
    | dsimp only
    | with_reducible intro _

theorem svcGetNonce_within {lp : List Part} {root s : State} (h : Within lp root s) (hl : ∀ p ∈ ([.free, .sag] : List Part), p ∈ lp)
    : Within lp root (svcGetNonce s).1 := by
  unfold svcGetNonce
  try dsimp only
  repeat' first
    | with_reducible assumption
    | split
    | with_reducible apply State.svcFree_within (hl := (parts_trans (by decide) hl))
    | with_reducible apply State.onSag_within (hl := (parts_trans (by decide) hl))
    | dsimp only
    | with_reducible intro _

theorem execGetNonce_within {s out : State} (e : execGetNonce s = .next out) : Within [.regs 0x4b0, .held, .resp, .free, .sag] s out
    := by
  cases e
  repeat' first
    | with_reducible exact Within.refl _ _
    | with_reducible assumption
    | with_reducible apply svcGetNonce_within (hl := (by decide))
    | with_reducible apply State.svcGo_within (hl := (by decide))
    | dsimp only
    | with_reducible intro _

theorem State.sagError_within {lp : List Part} {root s : State} (h : Within lp root s) (hl : ∀ p ∈ ([.regs 0x4b0, .sag] : List
    Part), p ∈ lp) : Within lp root (State.sagError s) := by
  unfold State.sagError
  repeat' first
    | with_reducible assumption
    | with_reducible apply State.onSag_within (hl := (parts_trans (by decide) hl))
    | ((with_reducible apply State.put_within 0x4b0 (hb := (hl _ (by decide)))) <;> first | (rfl; done) | (dsimp only; omega) | (dsimp only [Fld.whole]; omega) | (split <;> first | (rfl; done) | (dsimp only; omega)) | show Within _ _ _)
    | dsimp only
    | with_reducible intro _

theorem svcAttest_within {lp : List Part} {root s : State} (h : Within lp root s) (nonce : Vector Word 8) (verifies : Bool) (hl : ∀
    p ∈ ([.regs 0x4b0, .sag] : List Part), p ∈ lp) : Within lp root (svcAttest nonce verifies s).1 := by
  unfold svcAttest
  try dsimp only
  repeat' first
    | with_reducible assumption
    | split
    | with_reducible apply State.sagError_within (hl := (parts_trans (by decide) hl))
    | with_reducible apply State.attestCommit_within (hl := (parts_trans (by decide) hl))
    | with_reducible refine Within.foldl ?_ fun _ _ _ => ?_
    | with_reducible apply Within.ite
    | dsimp only
    | with_reducible intro _

theorem execAttest_within {s out : State} (nonce : Vector Word 8) (verifies : Bool) (e : execAttest nonce verifies s = .next out) :
    Within [.regs 0x4b0, .held, .resp, .sag] s out := by
  cases e
  repeat' first
    | with_reducible exact Within.refl _ _
    | with_reducible assumption
    | with_reducible apply svcAttest_within (hl := (by decide))
    | with_reducible apply State.svcGo_within (hl := (by decide))
    | dsimp only
    | with_reducible intro _

theorem svcGetCert_within {lp : List Part} {root s : State} (h : Within lp root s) : Within lp root (svcGetCert s).1 := by
  unfold svcGetCert
  try dsimp only
  repeat' first
    | with_reducible assumption
    | split
    | dsimp only
    | with_reducible intro _

theorem execGetCert_within {s out : State} (e : execGetCert s = .next out) : Within [.regs 0x4b0, .held, .resp, .sag] s out := by
  cases e
  repeat' first
    | with_reducible exact Within.refl _ _
    | with_reducible assumption
    | with_reducible apply svcGetCert_within
    | with_reducible apply State.svcGo_within (hl := (by decide))
    | dsimp only
    | with_reducible intro _

theorem svcEnroll_within {lp : List Part} {root s : State} (h : Within lp root s) (fw glz svc : BitVec 480) (okek : BitVec 256) (sig
    : HssSig) (hl : ∀ p ∈ ([.regs 0x470, .regs 0x4b0, .met, .sag] : List Part), p ∈ lp) : Within lp root (svcEnroll fw glz svc okek
    sig s).1 := by
  unfold svcEnroll
  try dsimp only
  repeat' first
    | with_reducible assumption
    | split
    | with_reducible apply State.authorised_within (hl := (parts_trans (by decide) hl))
    | with_reducible apply State.onSag_within (hl := (parts_trans (by decide) hl))
    | with_reducible apply State.journal_within (hl := (parts_trans (by decide) hl))
    | ((with_reducible apply State.put_within 0x4b0 (hb := (hl _ (by decide)))) <;> first | (rfl; done) | (dsimp only; omega) | (dsimp only [Fld.whole]; omega) | (split <;> first | (rfl; done) | (dsimp only; omega)) | show Within _ _ _)
    | dsimp only
    | with_reducible intro _

theorem execEnroll_within {s out : State} (fw glz svc : BitVec 480) (okek : BitVec 256) (sig : HssSig) (e : execEnroll fw glz svc
    okek sig s = .next out) : Within [.regs 0x470, .regs 0x4b0, .held, .resp, .met, .sag] s out := by
  cases e
  repeat' first
    | with_reducible exact Within.refl _ _
    | with_reducible assumption
    | with_reducible apply svcEnroll_within (hl := (by decide))
    | with_reducible apply State.svcGo_within (hl := (by decide))
    | dsimp only
    | with_reducible intro _

theorem State.dropStaged_within {lp : List Part} {root s : State} (h : Within lp root s) (hl : ∀ p ∈ ([.regs 0x400, .regs 0x401,
    .glz] : List Part), p ∈ lp) : Within lp root (State.dropStaged s) := by
  unfold State.dropStaged
  repeat' first
    | with_reducible assumption
    | with_reducible apply State.discardStaged_within (hl := (parts_trans (by decide) hl))
    | with_reducible refine Within.when ?_ fun _ _ => ?_
    | dsimp only
    | with_reducible intro _

theorem svcRotate_within {lp : List Part} {root s : State} (h : Within lp root s) (k : KeySlot) (v : BitVec 480) (wrap : Wrapped)
    (sig : HssSig) (hl : ∀ p ∈ ([.regs 0x400, .regs 0x401, .regs 0x470, .glz, .met, .sag] : List Part), p ∈ lp) : Within lp root
    (svcRotate k v wrap sig s).1 := by
  unfold svcRotate
  try dsimp only
  repeat' first
    | with_reducible assumption
    | split
    | with_reducible apply State.dropStaged_within (hl := (parts_trans (by decide) hl))
    | with_reducible apply State.authorised_within (hl := (parts_trans (by decide) hl))
    | with_reducible apply State.onSag_within (hl := (parts_trans (by decide) hl))
    | with_reducible apply State.journal_within (hl := (parts_trans (by decide) hl))
    | with_reducible refine Within.when ?_ fun _ _ => ?_
    | with_reducible apply Within.ite
    | dsimp only
    | with_reducible intro _

theorem execRotate_within {s out : State} (k : KeySlot) (v : BitVec 480) (wrap : Wrapped) (sig : HssSig) (e : execRotate k v wrap
    sig s = .next out) : Within [.regs 0x400, .regs 0x401, .regs 0x470, .regs 0x4b0, .held, .resp, .glz, .met, .sag] s out := by
  cases e
  repeat' first
    | with_reducible exact Within.refl _ _
    | with_reducible assumption
    | with_reducible apply svcRotate_within (hl := (by decide))
    | with_reducible apply State.svcGo_within (hl := (by decide))
    | dsimp only
    | with_reducible intro _

theorem svcReleaseOwner_within {lp : List Part} {root s : State} (h : Within lp root s) (sig : HssSig) (hl : ∀ p ∈ ([.regs 0x400,
    .regs 0x401, .regs 0x470, .regs 0x4b0, .glz, .met, .sag] : List Part), p ∈ lp) : Within lp root (svcReleaseOwner sig s).1 := by
  unfold svcReleaseOwner
  try dsimp only
  repeat' first
    | with_reducible assumption
    | split
    | with_reducible apply State.dropStaged_within (hl := (parts_trans (by decide) hl))
    | with_reducible apply State.authorised_within (hl := (parts_trans (by decide) hl))
    | with_reducible apply State.onSag_within (hl := (parts_trans (by decide) hl))
    | with_reducible apply State.journal_within (hl := (parts_trans (by decide) hl))
    | ((with_reducible apply State.put_within 0x4b0 (hb := (hl _ (by decide)))) <;> first | (rfl; done) | (dsimp only; omega) | (dsimp only [Fld.whole]; omega) | (split <;> first | (rfl; done) | (dsimp only; omega)) | show Within _ _ _)
    | dsimp only
    | with_reducible intro _

theorem execReleaseOwner_within {s out : State} (sig : HssSig) (e : execReleaseOwner sig s = .next out) : Within [.regs 0x400, .regs
    0x401, .regs 0x470, .regs 0x4b0, .held, .resp, .glz, .met, .sag] s out := by
  cases e
  repeat' first
    | with_reducible exact Within.refl _ _
    | with_reducible assumption
    | with_reducible apply svcReleaseOwner_within (hl := (by decide))
    | with_reducible apply State.svcGo_within (hl := (by decide))
    | dsimp only
    | with_reducible intro _

theorem svcFwConfirm_within {lp : List Part} {root s : State} (h : Within lp root s) (hl : ∀ p ∈ ([.regs 0x470, .regs 0x4b0, .met,
    .sag] : List Part), p ∈ lp) : Within lp root (svcFwConfirm s).1 := by
  unfold svcFwConfirm
  try dsimp only
  repeat' first
    | with_reducible assumption
    | split
    | with_reducible apply State.journal_within (hl := (parts_trans (by decide) hl))
    | ((with_reducible apply State.put_within 0x4b0 (hb := (hl _ (by decide)))) <;> first | (rfl; done) | (dsimp only; omega) | (dsimp only [Fld.whole]; omega) | (split <;> first | (rfl; done) | (dsimp only; omega)) | show Within _ _ _)
    | dsimp only
    | with_reducible intro _

theorem execFwConfirm_within {s out : State} (e : execFwConfirm s = .next out) : Within [.regs 0x470, .regs 0x4b0, .held, .resp,
    .met, .sag] s out := by
  cases e
  repeat' first
    | with_reducible exact Within.refl _ _
    | with_reducible assumption
    | with_reducible apply svcFwConfirm_within (hl := (by decide))
    | with_reducible apply State.svcGo_within (hl := (by decide))
    | dsimp only
    | with_reducible intro _

theorem svcSetBoot_within {lp : List Part} {root s : State} (h : Within lp root s) (glz : Bool) (slot : Fin 2) (f : FwFile) (hl : ∀
    p ∈ ([.regs 0x470, .glz, .met, .sag] : List Part), p ∈ lp) : Within lp root (svcSetBoot glz slot f s).1 := by
  unfold svcSetBoot
  try dsimp only
  repeat' first
    | with_reducible assumption
    | split
    | with_reducible apply State.onSag_within (hl := (parts_trans (by decide) hl))
    | with_reducible apply State.journal_within (hl := (parts_trans (by decide) hl))
    | with_reducible apply State.withGlz_within (hl := (parts_trans (by decide) hl))
    | with_reducible refine Within.when ?_ fun _ _ => ?_
    | with_reducible apply Within.ite
    | dsimp only
    | with_reducible intro _

theorem execSetBoot_within {s out : State} (glz : Bool) (slot : Fin 2) (img : FwFile) (e : execSetBoot glz slot img s = .next out) :
    Within [.regs 0x470, .regs 0x4b0, .held, .resp, .glz, .met, .sag] s out := by
  cases e
  repeat' first
    | with_reducible exact Within.refl _ _
    | with_reducible assumption
    | with_reducible apply svcSetBoot_within (hl := (by decide))
    | with_reducible apply State.svcGo_within (hl := (by decide))
    | dsimp only
    | with_reducible intro _

theorem svcCounterInc_within {lp : List Part} {root s : State} (h : Within lp root s) (k : Fin 8) (hl : ∀ p ∈ ([.sag] : List Part),
    p ∈ lp) : Within lp root (svcCounterInc k s).1 := by
  unfold svcCounterInc
  try dsimp only
  repeat' first
    | with_reducible assumption
    | split
    | with_reducible apply State.onSag_within (hl := (parts_trans (by decide) hl))
    | dsimp only
    | with_reducible intro _

theorem execCounterInc_within {s out : State} (k : Fin 8) (e : execCounterInc k s = .next out) : Within [.regs 0x4b0, .held, .resp,
    .sag] s out := by
  cases e
  repeat' first
    | with_reducible exact Within.refl _ _
    | with_reducible assumption
    | with_reducible apply svcCounterInc_within (hl := (by decide))
    | with_reducible apply State.svcGo_within (hl := (by decide))
    | dsimp only
    | with_reducible intro _

theorem svcCounterRead_within {lp : List Part} {root s : State} (h : Within lp root s) (k : Fin 8) : Within lp root (svcCounterRead
    k s).1 := by
  unfold svcCounterRead
  try dsimp only
  repeat' first
    | with_reducible assumption
    | split
    | dsimp only
    | with_reducible intro _

theorem execCounterRead_within {s out : State} (k : Fin 8) (e : execCounterRead k s = .next out) : Within [.regs 0x4b0, .held,
    .resp, .sag] s out := by
  cases e
  repeat' first
    | with_reducible exact Within.refl _ _
    | with_reducible assumption
    | with_reducible apply svcCounterRead_within
    | with_reducible apply State.svcGo_within (hl := (by decide))
    | dsimp only
    | with_reducible intro _

theorem svcDebugUnlock_within {lp : List Part} {root s : State} (h : Within lp root s) (two : Bool) (sig : HssSig) (hl : ∀ p ∈
    ([.regs 0x470, .regs 0x4b0, .met, .sag] : List Part), p ∈ lp) : Within lp root (svcDebugUnlock two sig s).1 := by
  unfold svcDebugUnlock
  try dsimp only
  repeat' first
    | with_reducible assumption
    | split
    | with_reducible apply State.authorised_within (hl := (parts_trans (by decide) hl))
    | with_reducible apply State.journal_within (hl := (parts_trans (by decide) hl))
    | ((with_reducible apply State.put_within 0x4b0 (hb := (hl _ (by decide)))) <;> first | (rfl; done) | (dsimp only; omega) | (dsimp only [Fld.whole]; omega) | (split <;> first | (rfl; done) | (dsimp only; omega)) | show Within _ _ _)
    | with_reducible apply Within.ite
    | dsimp only
    | with_reducible intro _

theorem execDebugUnlock_within {s out : State} (two : Bool) (sig : HssSig) (e : execDebugUnlock two sig s = .next out) : Within
    [.regs 0x470, .regs 0x4b0, .held, .resp, .met, .sag] s out := by
  cases e
  repeat' first
    | with_reducible exact Within.refl _ _
    | with_reducible assumption
    | with_reducible apply svcDebugUnlock_within (hl := (by decide))
    | with_reducible apply State.svcGo_within (hl := (by decide))
    | dsimp only
    | with_reducible intro _

theorem svcDebugLock_within {lp : List Part} {root s : State} (h : Within lp root s) (hl : ∀ p ∈ ([.regs 0x4b0] : List Part), p ∈
    lp) : Within lp root (svcDebugLock s).1 := by
  unfold svcDebugLock
  try dsimp only
  repeat' first
    | with_reducible assumption
    | split
    | with_reducible apply State.debugClose_within (hl := (parts_trans (by decide) hl))
    | dsimp only
    | with_reducible intro _

theorem execDebugLock_within {s out : State} (e : execDebugLock s = .next out) : Within [.regs 0x4b0, .held, .resp, .sag] s out :=
    by
  cases e
  repeat' first
    | with_reducible exact Within.refl _ _
    | with_reducible assumption
    | with_reducible apply svcDebugLock_within (hl := (by decide))
    | with_reducible apply State.svcGo_within (hl := (by decide))
    | dsimp only
    | with_reducible intro _

theorem svcTotalsReset_within {lp : List Part} {root s : State} (h : Within lp root s) (sig : HssSig) (hl : ∀ p ∈ ([.regs 0x470,
    .met, .sag] : List Part), p ∈ lp) : Within lp root (svcTotalsReset sig s).1 := by
  unfold svcTotalsReset
  try dsimp only
  repeat' first
    | with_reducible assumption
    | split
    | with_reducible apply State.authorised_within (hl := (parts_trans (by decide) hl))
    | with_reducible apply State.withMet_within (hl := (parts_trans (by decide) hl))
    | dsimp only
    | with_reducible intro _

theorem execTotalsReset_within {s out : State} (sig : HssSig) (e : execTotalsReset sig s = .next out) : Within [.regs 0x470, .regs
    0x4b0, .held, .resp, .met, .sag] s out := by
  cases e
  repeat' first
    | with_reducible exact Within.refl _ _
    | with_reducible assumption
    | with_reducible apply svcTotalsReset_within (hl := (by decide))
    | with_reducible apply State.svcGo_within (hl := (by decide))
    | dsimp only
    | with_reducible intro _

theorem svcTamperCfg_within {lp : List Part} {root s : State} (h : Within lp root s) (temp volt clk : Tamper) (hi : Fin 41) (sig :
    HssSig) (hl : ∀ p ∈ ([.regs 0x470, .met, .sag] : List Part), p ∈ lp) : Within lp root (svcTamperCfg temp volt clk hi sig s).1 :=
    by
  unfold svcTamperCfg
  try dsimp only
  repeat' first
    | with_reducible assumption
    | split
    | with_reducible apply State.authorised_within (hl := (parts_trans (by decide) hl))
    | with_reducible apply State.onSag_within (hl := (parts_trans (by decide) hl))
    | dsimp only
    | with_reducible intro _

theorem execTamperCfg_within {s out : State} (temp volt clk : Tamper) (hi : Fin 41) (sig : HssSig) (e : execTamperCfg temp volt clk
    hi sig s = .next out) : Within [.regs 0x470, .regs 0x4b0, .held, .resp, .met, .sag] s out := by
  cases e
  repeat' first
    | with_reducible exact Within.refl _ _
    | with_reducible assumption
    | with_reducible apply svcTamperCfg_within (hl := (by decide))
    | with_reducible apply State.svcGo_within (hl := (by decide))
    | dsimp only
    | with_reducible intro _

theorem svcZeroise_within {lp : List Part} {root s : State} (h : Within lp root s) (sig : HssSig) (hl : ∀ p ∈ ([.regs 0x440, .regs
    0x448, .regs 0x470, .regs 0x4b0, .regs 0x4b8, .regs 0x4e0, .outbox, .mod, .tiles, .sit, .met, .sag, .pug, .pwr, .con] : List
    Part), p ∈ lp) : Within lp root (svcZeroise sig s).1 := by
  unfold svcZeroise
  try dsimp only
  repeat' first
    | with_reducible assumption
    | split
    | with_reducible apply State.authorised_within (hl := (parts_trans (by decide) hl))
    | with_reducible apply State.zeroise_within (hl := (parts_trans (by decide) hl))
    | dsimp only
    | with_reducible intro _

theorem execZeroise_within {s out : State} (sig : HssSig) (e : execZeroise sig s = .next out) : Within [.regs 0x440, .regs 0x448,
    .regs 0x470, .regs 0x4b0, .regs 0x4b8, .regs 0x4e0, .held, .resp, .outbox, .mod, .tiles, .sit, .met, .sag, .pug, .pwr, .con] s
    out := by
  cases e
  repeat' first
    | with_reducible exact Within.refl _ _
    | with_reducible assumption
    | with_reducible apply svcZeroise_within (hl := (by decide))
    | with_reducible apply State.svcGo_within (hl := (by decide))
    | dsimp only
    | with_reducible intro _

theorem svcCakInstall_within {lp : List Part} {root s : State} (h : Within lp root s) (m : Fin 2) (slot : Fin 4) (ckn : List Byte)
    (wrap : Wrapped) (hl : ∀ p ∈ ([.sag] : List Part), p ∈ lp) : Within lp root (svcCakInstall m slot ckn wrap s).1 := by
  unfold svcCakInstall
  try dsimp only
  repeat' first
    | with_reducible assumption
    | split
    | with_reducible apply State.onSag_within (hl := (parts_trans (by decide) hl))
    | with_reducible apply Within.ite
    | dsimp only
    | with_reducible intro _

theorem execCakInstall_within {s out : State} (m : Fin 2) (slot : Fin 4) (ckn : List Byte) (wrap : Wrapped) (e : execCakInstall m
    slot ckn wrap s = .next out) : Within [.regs 0x4b0, .held, .resp, .sag] s out := by
  cases e
  repeat' first
    | with_reducible exact Within.refl _ _
    | with_reducible assumption
    | with_reducible apply svcCakInstall_within (hl := (by decide))
    | with_reducible apply State.svcGo_within (hl := (by decide))
    | dsimp only
    | with_reducible intro _

theorem State.loadSak_within {lp : List Part} {root s : State} (h : Within lp root s) (m : Fin 2) (a : Fin 36) (v : Nat) (hl : ∀ p ∈
    ([.net, .sag] : List Part), p ∈ lp) : Within lp root (State.loadSak s m a v) := by
  unfold State.loadSak
  repeat' first
    | with_reducible assumption
    | with_reducible apply State.onSag_within (hl := (parts_trans (by decide) hl))
    | with_reducible apply State.onMac_within (hl := (parts_trans (by decide) hl))
    | with_reducible apply Within.ite
    | split
    | dsimp only
    | with_reducible intro _

theorem svcSakGen_within {lp : List Part} {root s : State} (h : Within lp root s) (m : Fin 2) (a : Fin 36) (slot : Fin 4) (hl : ∀ p
    ∈ ([.free, .net, .sag] : List Part), p ∈ lp) : Within lp root (svcSakGen m a slot s).1 := by
  unfold svcSakGen
  try dsimp only
  repeat' first
    | with_reducible assumption
    | split
    | with_reducible apply State.loadSak_within (hl := (parts_trans (by decide) hl))
    | with_reducible apply State.svcFree_within (hl := (parts_trans (by decide) hl))
    | with_reducible apply Within.ite
    | dsimp only
    | with_reducible intro _

theorem execSakGen_within {s out : State} (m : Fin 2) (a : Fin 36) (slot : Fin 4) (e : execSakGen m a slot s = .next out) : Within
    [.regs 0x4b0, .held, .resp, .free, .net, .sag] s out := by
  cases e
  repeat' first
    | with_reducible exact Within.refl _ _
    | with_reducible assumption
    | with_reducible apply svcSakGen_within (hl := (by decide))
    | with_reducible apply State.svcGo_within (hl := (by decide))
    | dsimp only
    | with_reducible intro _

theorem svcSakLoad_within {lp : List Part} {root s : State} (h : Within lp root s) (m : Fin 2) (a : Fin 36) (slot : Fin 4) (wrap :
    Wrapped) (hl : ∀ p ∈ ([.net, .sag] : List Part), p ∈ lp) : Within lp root (svcSakLoad m a slot wrap s).1 := by
  unfold svcSakLoad
  try dsimp only
  repeat' first
    | with_reducible assumption
    | split
    | with_reducible apply State.loadSak_within (hl := (parts_trans (by decide) hl))
    | with_reducible apply Within.ite
    | dsimp only
    | with_reducible intro _

theorem execSakLoad_within {s out : State} (m : Fin 2) (a : Fin 36) (slot : Fin 4) (wrap : Wrapped) (e : execSakLoad m a slot wrap s
    = .next out) : Within [.regs 0x4b0, .held, .resp, .net, .sag] s out := by
  cases e
  repeat' first
    | with_reducible exact Within.refl _ _
    | with_reducible assumption
    | with_reducible apply svcSakLoad_within (hl := (by decide))
    | with_reducible apply State.svcGo_within (hl := (by decide))
    | dsimp only
    | with_reducible intro _

theorem svcMkaIcv_within {lp : List Part} {root s : State} (h : Within lp root s) (m : Fin 2) (slot : Fin 4) (pdu : List Byte) :
    Within lp root (svcMkaIcv m slot pdu s).1 := by
  unfold svcMkaIcv
  try dsimp only
  repeat' first
    | with_reducible assumption
    | split
    | with_reducible refine Within.foldl ?_ fun _ _ _ => ?_
    | dsimp only
    | with_reducible intro _

theorem execMkaIcv_within {s out : State} (cak : Fin 2 × Fin 4) (pdu : List Byte) (e : execMkaIcv cak pdu s = .next out) :
    Within [.regs 0x4b0, .held, .resp, .sag] s out := by
  cases e
  repeat' first
    | with_reducible exact Within.refl _ _
    | with_reducible assumption
    | with_reducible apply svcMkaIcv_within
    | with_reducible apply State.svcGo_within (hl := (by decide))
    | dsimp only
    | with_reducible intro _

theorem svcRandom_within {lp : List Part} {root s : State} (h : Within lp root s) (n : BitVec 14) (hl : ∀ p ∈ ([.free] : List Part),
    p ∈ lp) : Within lp root (svcRandom n s).1 := by
  unfold svcRandom
  try dsimp only
  repeat' first
    | with_reducible assumption
    | split
    | with_reducible apply State.svcFree_within (hl := (parts_trans (by decide) hl))
    | with_reducible apply Within.ite
    | dsimp only
    | with_reducible intro _

theorem execRandom_within {s out : State} (n : BitVec 14) (e : execRandom n s = .next out) : Within [.regs 0x4b0, .held, .resp,
    .free, .sag] s out := by
  cases e
  repeat' first
    | with_reducible exact Within.refl _ _
    | with_reducible assumption
    | with_reducible apply svcRandom_within (hl := (by decide))
    | with_reducible apply State.svcGo_within (hl := (by decide))
    | dsimp only
    | with_reducible intro _

theorem svcBody_within {lp : List Part} {root s : State} (h : Within lp root s) (r : SvcReq) (hl : ∀ p ∈ ([.regs 0x400, .regs 0x401,
    .regs 0x440, .regs 0x448, .regs 0x470, .regs 0x4b0, .regs 0x4b8, .regs 0x4e0, .free, .outbox, .glz, .mod, .tiles, .sit, .met,
    .net, .sag, .pug, .pwr, .con] : List Part), p ∈ lp) : Within lp root (svcBody r s).1 := by
  unfold svcBody
  try dsimp only
  repeat' first
    | with_reducible assumption
    | split
    | with_reducible apply svcRandom_within (hl := (parts_trans (by decide) hl))
    | with_reducible apply svcMkaIcv_within
    | with_reducible apply svcSakLoad_within (hl := (parts_trans (by decide) hl))
    | with_reducible apply svcSakGen_within (hl := (parts_trans (by decide) hl))
    | with_reducible apply svcCakInstall_within (hl := (parts_trans (by decide) hl))
    | with_reducible apply svcZeroise_within (hl := (parts_trans (by decide) hl))
    | with_reducible apply svcTamperCfg_within (hl := (parts_trans (by decide) hl))
    | with_reducible apply svcTotalsReset_within (hl := (parts_trans (by decide) hl))
    | with_reducible apply svcDebugLock_within (hl := (parts_trans (by decide) hl))
    | with_reducible apply svcDebugUnlock_within (hl := (parts_trans (by decide) hl))
    | with_reducible apply svcCounterRead_within
    | with_reducible apply svcCounterInc_within (hl := (parts_trans (by decide) hl))
    | with_reducible apply svcSetBoot_within (hl := (parts_trans (by decide) hl))
    | with_reducible apply svcFwConfirm_within (hl := (parts_trans (by decide) hl))
    | with_reducible apply svcReleaseOwner_within (hl := (parts_trans (by decide) hl))
    | with_reducible apply svcRotate_within (hl := (parts_trans (by decide) hl))
    | with_reducible apply svcEnroll_within (hl := (parts_trans (by decide) hl))
    | with_reducible apply svcGetCert_within
    | with_reducible apply svcAttest_within (hl := (parts_trans (by decide) hl))
    | with_reducible apply svcGetNonce_within (hl := (parts_trans (by decide) hl))
    | with_reducible apply svcGetInfo_within (hl := (parts_trans (by decide) hl))
    | dsimp only
    | with_reducible intro _

theorem svcRequest_within {lp : List Part} {root s : State} (h : Within lp root s) (id len : Nat) (x : BusFacts) (hl : ∀ p ∈ ([.regs
    0x400, .regs 0x401, .regs 0x440, .regs 0x448, .regs 0x470, .regs 0x4b0, .regs 0x4b8, .regs 0x4e0, .free, .outbox, .glz, .mod,
    .tiles, .sit, .met, .net, .sag, .pug, .pwr, .con] : List Part), p ∈ lp) : Within lp root (svcRequest id len x s).1 := by
  unfold svcRequest
  try dsimp only
  repeat' first
    | with_reducible assumption
    | split
    | with_reducible apply svcBody_within (hl := (parts_trans (by decide) hl))
    | dsimp only
    | with_reducible intro _

theorem execSaggarEntryFlush_within {s out : State} (e : execSaggarEntryFlush s = .next out) : Within [.met, .sag] s out := by
  cases e
  repeat' first
    | with_reducible exact Within.refl _ _
    | with_reducible assumption
    | with_reducible apply State.onSag_within (hl := (by decide))
    | with_reducible apply State.withMet_within (hl := (by decide))
    | with_reducible apply Within.ite
    | split
    | dsimp only
    | with_reducible intro _

theorem xspiCmdOp_within {lp : List Part} {root s : State} (h : Within lp root s) (v : Word) (span : Nat) (hl : ∀ p ∈ ([.regs 0x402,
    .regs 0x4b0, .resp, .sag] : List Part), p ∈ lp) : Within lp root (xspiCmdOp v span s) := by
  unfold xspiCmdOp
  repeat' first
    | with_reducible assumption
    | with_reducible apply State.onSag_within (hl := (parts_trans (by decide) hl))
    | with_reducible apply State.busError_within (hl := (parts_trans (by decide) hl))
    | with_reducible apply State.respond_within (hl := (parts_trans (by decide) hl))
    | ((with_reducible apply State.inc_within (bf := 0x4b0) (mf := (hl _ (by decide)))) <;> first | (rfl; done) | (dsimp only; omega) | (dsimp only [Fld.whole]; omega) | (split <;> first | (rfl; done) | (dsimp only; omega)) | show Within _ _ _)
    | ((with_reducible apply State.put_within 0x402 (hb := (hl _ (by decide)))) <;> first | (rfl; done) | (dsimp only; omega) | (dsimp only [Fld.whole]; omega) | (split <;> first | (rfl; done) | (dsimp only; omega)) | show Within _ _ _)
    | with_reducible apply Within.ite
    | split
    | dsimp only
    | with_reducible intro _

theorem execXspiCmd_within {s out : State} (v : Word) (programs : Bool) (span : Nat) (e : execXspiCmd v programs span s = .next
    out) : Within [.regs 0x402, .regs 0x4b0, .resp, .sag] s out := by
  cases e
  repeat' first
    | with_reducible exact Within.refl _ _
    | with_reducible assumption
    | with_reducible apply xspiCmdOp_within (hl := (by decide))
    | with_reducible refine Within.when ?_ fun _ _ => ?_
    | dsimp only
    | with_reducible intro _

theorem execXspiCommandDone_within {s out : State} (err : Bool) (e : execXspiCommandDone err s = .next out) : Within [.regs 0x402,
    .sag] s out := by
  cases e
  repeat' first
    | with_reducible exact Within.refl _ _
    | with_reducible assumption
    | with_reducible apply State.onSag_within (hl := (by decide))
    | ((with_reducible apply State.putB_within (bf := 0x402) (mf := (by decide))) <;> first | (rfl; done) | (dsimp only; omega) | (dsimp only [Fld.whole]; omega) | (split <;> first | (rfl; done) | (dsimp only; omega)) | show Within _ _ _)
    | ((with_reducible apply State.put_within 0x402 (hb := (by decide))) <;> first | (rfl; done) | (dsimp only; omega) | (dsimp only [Fld.whole]; omega) | (split <;> first | (rfl; done) | (dsimp only; omega)) | show Within _ _ _)
    | with_reducible refine Within.when ?_ fun _ _ => ?_
    | with_reducible apply Within.ite
    | split
    | dsimp only
    | with_reducible intro _

end Sys2Proof.Machine
end

