-- ==== Sys2Proof/Laws/WithinPug.lean ====
section
/-!
SUPPORT. The parts of the state that each operation of Machine/Pug.lean may change.
-/

namespace Sys2Proof.Machine

open Sys2Proof

set_option linter.all false

theorem State.onPug_within {lp : List Part} {root s : State} (h : Within lp root s) (f : PugState → PugState) (hl : ∀ p ∈ ([.pug] :
    List Part), p ∈ lp) : Within lp root (State.onPug s f) := by
  unfold State.onPug
  repeat' first
    | with_reducible assumption
    | with_reducible apply State.withPug_within (hl := (parts_trans (by decide) hl))
    | dsimp only
    | with_reducible intro _

theorem State.chargerSet_within {lp : List Part} {root s : State} (h : Within lp root s) (hl : ∀ p ∈ ([.pug] : List Part), p ∈ lp) :
    Within lp root (State.chargerSet s) := by
  unfold State.chargerSet
  repeat' first
    | with_reducible assumption
    | with_reducible apply State.onPug_within (hl := (parts_trans (by decide) hl))
    | dsimp only
    | with_reducible intro _

theorem State.storeTold_within {lp : List Part} {root s : State} (h : Within lp root s) (mv : Nat) (hl : ∀ p ∈ ([.regs 0x4b8, .pug]
    : List Part), p ∈ lp) : Within lp root (State.storeTold s mv) := by
  unfold State.storeTold
  repeat' first
    | with_reducible assumption
    | with_reducible apply State.chargerSet_within (hl := (parts_trans (by decide) hl))
    | ((with_reducible apply State.put_within 0x4b8 (hb := (hl _ (by decide)))) <;> first | (rfl; done) | (dsimp only; omega) | (dsimp only [Fld.whole]; omega) | (split <;> first | (rfl; done) | (dsimp only; omega)) | show Within _ _ _)
    | dsimp only
    | with_reducible intro _

theorem State.supplyLoss_within {lp : List Part} {root s : State} (h : Within lp root s) (hl : ∀ p ∈ ([.regs 0x4b0, .regs 0x4b8, .regs 0x4c0,
    .sag, .pug] : List Part), p ∈ lp) : Within lp root (State.supplyLoss s) := by
  have hb := hl (.regs 0x4b0) (by decide)
  have hp := hl (.regs 0x4b8) (by decide)
  have hc := hl (.regs 0x4c0) (by decide)
  unfold State.supplyLoss
  refine State.put_within 0x4c0 (State.put_within 0x4b0 (State.onSag_within (State.withPug_within (State.withRegs_within h _ 0x4b8 hp
    fun a ha => ?_) _ (parts_trans (by decide) hl)) _ (parts_trans (by decide) hl)) rfl hb) rfl hc
  simp only [List.foldl_cons, List.foldl_nil]
  repeat rw [cellGet_put_ne _ _ _ _ (by rintro rfl; exact ha rfl)]

theorem execPugModeChange_within {s out : State} (active : Bool) (secs : Word) (e : execPugModeChange active secs s = .next out) :
    Within [.regs 0x470, .regs 0x4b8, .met, .sag] s out := by
  cases e
  repeat' first
    | with_reducible exact Within.refl _ _
    | with_reducible assumption
    | with_reducible apply State.journal_within (hl := (by decide))
    | ((with_reducible apply State.put_within 0x4b8 (hb := (by decide))) <;> first | (rfl; done) | (dsimp only; omega) | (dsimp only [Fld.whole]; omega) | (split <;> first | (rfl; done) | (dsimp only; omega)) | show Within _ _ _)
    | with_reducible refine Within.when ?_ fun _ _ => ?_
    | with_reducible apply Within.ite
    | split
    | dsimp only
    | with_reducible intro _

theorem execPugVocMeasure_within {s out : State} (voc store : BitVec 16) (harvest : Bool) (e : execPugVocMeasure voc store harvest s
    = .next out) : Within [.regs 0x440, .regs 0x448, .regs 0x470, .regs 0x4b0, .regs 0x4b8, .regs 0x4e0, .outbox, .mod, .tiles,
    .sit, .met, .sag, .pug, .pwr, .con] s out := by
  cases e
  repeat' first
    | with_reducible exact Within.refl _ _
    | with_reducible assumption
    | with_reducible apply State.storeTold_within (hl := (by decide))
    | with_reducible apply State.onPug_within (hl := (by decide))
    | with_reducible apply State.tamperDue_within (hl := (by decide))
    | ((with_reducible apply State.putB_within (bf := 0x4b8) (mf := (by decide))) <;> first | (rfl; done) | (dsimp only; omega) | (dsimp only [Fld.whole]; omega) | (split <;> first | (rfl; done) | (dsimp only; omega)) | show Within _ _ _)
    | ((with_reducible apply State.put_within 0x4b8 (hb := (by decide))) <;> first | (rfl; done) | (dsimp only; omega) | (dsimp only [Fld.whole]; omega) | (split <;> first | (rfl; done) | (dsimp only; omega)) | show Within _ _ _)
    | with_reducible apply Within.ite
    | split
    | dsimp only
    | with_reducible intro _

theorem execVbatLow_within {s out : State} (mv : BitVec 16) (e : execVbatLow mv s = .next out) : Within [.regs 0x470, .regs 0x4b8,
    .met, .sag, .pug] s out := by
  cases e
  repeat' first
    | with_reducible exact Within.refl _ _
    | with_reducible assumption
    | with_reducible apply State.onPug_within (hl := (by decide))
    | with_reducible apply State.journal_within (hl := (by decide))
    | ((with_reducible apply State.put_within 0x4b8 (hb := (by decide))) <;> first | (rfl; done) | (dsimp only; omega) | (dsimp only [Fld.whole]; omega) | (split <;> first | (rfl; done) | (dsimp only; omega)) | show Within _ _ _)
    | dsimp only
    | with_reducible intro _

theorem pugThrWriteOp_within {lp : List Part} {root s : State} (h : Within lp root s) (v : Word) (hl : ∀ p ∈ ([.regs 0x4b8, .pug] :
    List Part), p ∈ lp) : Within lp root (pugThrWriteOp v s) := by
  unfold pugThrWriteOp
  repeat' first
    | with_reducible assumption
    | with_reducible apply State.chargerSet_within (hl := (parts_trans (by decide) hl))
    | ((with_reducible apply State.inc_within (bf := 0x4b8) (mf := (hl _ (by decide)))) <;> first | (rfl; done) | (dsimp only; omega) | (dsimp only [Fld.whole]; omega) | (split <;> first | (rfl; done) | (dsimp only; omega)) | show Within _ _ _)
    | ((with_reducible apply State.put_within 0x4b8 (hb := (hl _ (by decide)))) <;> first | (rfl; done) | (dsimp only; omega) | (dsimp only [Fld.whole]; omega) | (split <;> first | (rfl; done) | (dsimp only; omega)) | show Within _ _ _)
    | with_reducible apply Within.ite
    | split
    | dsimp only
    | with_reducible intro _

theorem execPugThrWrite_within {s out : State} (v : Word) (e : execPugThrWrite v s = .next out) : Within [.regs 0x4b8, .held, .resp,
    .pug] s out := by
  cases e
  repeat' first
    | with_reducible exact Within.refl _ _
    | with_reducible assumption
    | with_reducible apply pugThrWriteOp_within (hl := (by decide))
    | with_reducible apply State.access_within (hl := (by decide))
    | dsimp only
    | with_reducible intro _

theorem execLastGaspTrigger_within {s out : State} (tamper : Bool) (detail : Word) (e : execLastGaspTrigger tamper detail s = .next
    out) : Within [.regs 0x470, .regs 0x4b8, .met, .sag, .pug] s out := by
  cases e
  repeat' first
    | with_reducible exact Within.refl _ _
    | with_reducible assumption
    | with_reducible apply State.gaspTrigger_within (hl := (by decide))
    | with_reducible refine Within.when ?_ fun _ _ => ?_
    | with_reducible apply Within.ite
    | split
    | dsimp only
    | with_reducible intro _

theorem execHeartbeat_within {s out : State} (store : BitVec 16) (e : execHeartbeat store s = .next out) : Within [.regs 0x470,
    .regs 0x4b8, .met, .sag, .pug] s out := by
  cases e
  repeat' first
    | with_reducible exact Within.refl _ _
    | with_reducible assumption
    | with_reducible apply State.gaspTrigger_within (hl := (by decide))
    | with_reducible apply Within.ite
    | split
    | dsimp only
    | with_reducible intro _

theorem State.gaspAbandon_within {lp : List Part} {root s : State} (h : Within lp root s) (m : GaspMsg) (q : Nat) (hl : ∀ p ∈
    ([.regs 0x470, .regs 0x4b8, .met, .sag, .pug] : List Part), p ∈ lp) : Within lp root (State.gaspAbandon s m q) := by
  unfold State.gaspAbandon
  repeat' first
    | with_reducible assumption
    | with_reducible apply State.onPug_within (hl := (parts_trans (by decide) hl))
    | with_reducible apply State.journal_within (hl := (parts_trans (by decide) hl))
    | ((with_reducible apply State.put_within 0x4b8 (hb := (hl _ (by decide)))) <;> first | (rfl; done) | (dsimp only; omega) | (dsimp only [Fld.whole]; omega) | (split <;> first | (rfl; done) | (dsimp only; omega)) | show Within _ _ _)
    | dsimp only
    | with_reducible intro _

theorem execLastGaspSend_within {s out : State} (e : execLastGaspSend s = .next out) : Within [.regs 0x470, .regs 0x4b0, .regs
    0x4b8, .met, .sag, .pug, .free] s out := by
  cases e
  repeat' first
    | with_reducible exact Within.refl _ _
    | with_reducible assumption
    | with_reducible apply State.tookFree_within (hl := (by decide))
    | with_reducible apply State.gaspAbandon_within (hl := (by decide))
    | with_reducible apply State.onPug_within (hl := (by decide))
    | with_reducible apply State.sagError_within (hl := (by decide))
    | with_reducible apply State.attestCommit_within (hl := (by decide))
    | with_reducible apply State.onSag_within (hl := (by decide))
    | ((with_reducible apply State.put_within 0x4b8 (hb := (by decide))) <;> first | (rfl; done) | (dsimp only; omega) | (dsimp only [Fld.whole]; omega) | (split <;> first | (rfl; done) | (dsimp only; omega)) | show Within _ _ _)
    | with_reducible apply Within.ite
    | split
    | dsimp only
    | with_reducible intro _

theorem execLastGaspWarmupEnd_within {s out : State} (e : execLastGaspWarmupEnd s = .next out) : Within [.outbox, .pug] s out := by
  cases e
  repeat' first
    | with_reducible exact Within.refl _ _
    | with_reducible assumption
    | with_reducible apply State.onPug_within (hl := (by decide))
    | with_reducible apply State.send_within (hl := (by decide))
    | with_reducible apply Within.ite
    | split
    | dsimp only
    | with_reducible intro _

theorem State.openLoad_within {lp : List Part} {root s : State} (h : Within lp root s) (hl : ∀ p ∈ ([.pug] : List Part), p ∈ lp) :
    Within lp root (State.openLoad s) := by
  unfold State.openLoad
  repeat' first
    | with_reducible assumption
    | with_reducible apply State.onPug_within (hl := (parts_trans (by decide) hl))
    | dsimp only
    | with_reducible intro _

theorem execLastGaspSent_within {s out : State} (e : execLastGaspSent s = .next out) : Within [.regs 0x470, .regs 0x4b8, .met, .sag,
    .pug] s out := by
  cases e
  repeat' first
    | with_reducible exact Within.refl _ _
    | with_reducible assumption
    | with_reducible apply State.openLoad_within (hl := (by decide))
    | with_reducible apply State.onPug_within (hl := (by decide))
    | with_reducible apply State.journal_within (hl := (by decide))
    | ((with_reducible apply State.put_within 0x4b8 (hb := (by decide))) <;> first | (rfl; done) | (dsimp only; omega) | (dsimp only [Fld.whole]; omega) | (split <;> first | (rfl; done) | (dsimp only; omega)) | show Within _ _ _)
    | with_reducible apply Within.ite
    | split
    | dsimp only
    | with_reducible intro _

theorem execLastGaspAbort_within {s out : State} (e : execLastGaspAbort s = .next out) : Within [.regs 0x470, .regs 0x4b8, .met,
    .sag, .pug] s out := by
  cases e
  repeat' first
    | with_reducible exact Within.refl _ _
    | with_reducible assumption
    | with_reducible apply State.openLoad_within (hl := (by decide))
    | with_reducible apply State.journal_within (hl := (by decide))
    | ((with_reducible apply State.put_within 0x4b8 (hb := (by decide))) <;> first | (rfl; done) | (dsimp only; omega) | (dsimp only [Fld.whole]; omega) | (split <;> first | (rfl; done) | (dsimp only; omega)) | show Within _ _ _)
    | with_reducible apply Within.ite
    | split
    | dsimp only
    | with_reducible intro _

end Sys2Proof.Machine
end

