-- ==== Sys2Proof/Laws/WithinPower.lean ====
section
/-!
SUPPORT. The parts of the state that each operation of Machine/Power.lean may change.
-/

namespace Sys2Proof.Machine

open Sys2Proof

set_option linter.all false

theorem State.onPwr_within {lp : List Part} {root s : State} (h : Within lp root s) (f : PwrState → PwrState) (hl : ∀ p ∈ ([.pwr] :
    List Part), p ∈ lp) : Within lp root (State.onPwr s f) := by
  unfold State.onPwr
  repeat' first
    | with_reducible assumption
    | with_reducible apply State.withPwr_within (hl := (parts_trans (by decide) hl))
    | dsimp only
    | with_reducible intro _

theorem State.serve_within {lp : List Part} {root s : State} (h : Within lp root s) (g : GlazeImage) (hl : ∀ p ∈ ([.regs 0x440,
    .tiles] : List Part), p ∈ lp) : Within lp root (State.serve s g) := by
  unfold State.serve
  repeat' first
    | with_reducible assumption
    | with_reducible apply State.diagStop_within (hl := (parts_trans (by decide) hl))
    | with_reducible apply State.supRefresh_within (hl := (parts_trans (by decide) hl))
    | with_reducible apply State.onTile_within (hl := (parts_trans (by decide) hl))
    | ((with_reducible apply State.put_within 0x440 (hb := (hl _ (by decide)))) <;> first | (rfl; done) | (dsimp only; omega) | (dsimp only [Fld.whole]; omega) | (split <;> first | (rfl; done) | (dsimp only; omega)) | show Within _ _ _)
    | with_reducible refine Within.each ?_ fun _ _ _ => ?_
    | with_reducible apply Within.ite
    | split
    | dsimp only
    | with_reducible intro _

theorem State.gpStop_within {lp : List Part} {root s : State} (h : Within lp root s) (hl : ∀ p ∈ ([.regs 0x440, .regs 0x4c0, .tiles,
    .pwr] : List Part), p ∈ lp) : Within lp root (State.gpStop s) := by
  unfold State.gpStop
  repeat' first
    | with_reducible assumption
    | with_reducible apply State.serve_within (hl := (parts_trans (by decide) hl))
    | with_reducible apply State.onPwr_within (hl := (parts_trans (by decide) hl))
    | ((with_reducible apply State.put_within 0x4c0 (hb := (hl _ (by decide)))) <;> first | (rfl; done) | (dsimp only; omega) | (dsimp only [Fld.whole]; omega) | (split <;> first | (rfl; done) | (dsimp only; omega)) | show Within _ _ _)
    | dsimp only
    | with_reducible intro _

theorem State.pwrRefuse_within {lp : List Part} {root s : State} (h : Within lp root s) (hl : ∀ p ∈ ([.regs 0x4c0] : List Part), p ∈
    lp) : Within lp root (State.pwrRefuse s) := by
  unfold State.pwrRefuse
  repeat' first
    | with_reducible assumption
    | ((with_reducible apply State.inc_within (bf := 0x4c0) (mf := (hl _ (by decide)))) <;> first | (rfl; done) | (dsimp only; omega) | (dsimp only [Fld.whole]; omega) | (split <;> first | (rfl; done) | (dsimp only; omega)) | show Within _ _ _)
    | dsimp only
    | with_reducible intro _

theorem gpEnOp_within {lp : List Part} {root s : State} (h : Within lp root s) (en : Bool) (hl : ∀ p ∈ ([.regs 0x440, .regs 0x4c0,
    .tiles, .pwr] : List Part), p ∈ lp) : Within lp root (gpEnOp en s) := by
  unfold gpEnOp
  repeat' first
    | with_reducible assumption
    | with_reducible apply State.pwrRefuse_within (hl := (parts_trans (by decide) hl))
    | with_reducible apply State.gpStop_within (hl := (parts_trans (by decide) hl))
    | with_reducible apply State.serve_within (hl := (parts_trans (by decide) hl))
    | with_reducible apply State.onPwr_within (hl := (parts_trans (by decide) hl))
    | ((with_reducible apply State.put_within 0x4c0 (hb := (hl _ (by decide)))) <;> first | (rfl; done) | (dsimp only; omega) | (dsimp only [Fld.whole]; omega) | (split <;> first | (rfl; done) | (dsimp only; omega)) | show Within _ _ _)
    | with_reducible apply Within.ite
    | split
    | dsimp only
    | with_reducible intro _

theorem execGpEnWrite_within {s out : State} (en : Bool) (e : execGpEnWrite en s = .next out) : Within [.regs 0x440, .regs 0x4c0,
    .held, .resp, .tiles, .pwr] s out := by
  cases e
  repeat' first
    | with_reducible exact Within.refl _ _
    | with_reducible assumption
    | with_reducible apply gpEnOp_within (hl := (by decide))
    | with_reducible apply State.access_within (hl := (by decide))
    | dsimp only
    | with_reducible intro _

theorem execResetPin_within {s out : State} (e : execResetPin s = .next out) : Within [.regs 0x440, .regs 0x448, .regs 0x470, .regs
    0x4e0, .outbox, .mod, .tiles, .sit, .met, .sag, .pwr, .con] s out := by
  cases e
  repeat' first
    | with_reducible exact Within.refl _ _
    | with_reducible assumption
    | with_reducible apply State.onPwr_within (hl := (by decide))
    | with_reducible apply State.orderlyBegin_within (hl := (by decide))
    | dsimp only
    | with_reducible intro _

theorem execResetNRelease_within {s out : State} (e : execResetNRelease s = .next out) : Within [.pwr] s out := by
  cases e
  repeat' first
    | with_reducible exact Within.refl _ _
    | with_reducible assumption
    | with_reducible apply State.onPwr_within (hl := (by decide))
    | dsimp only
    | with_reducible intro _

theorem execFirmwareReset_within {s out : State} (e : execFirmwareReset s = .next out) : Within [.regs 0x440, .regs 0x448, .regs
    0x470, .regs 0x4e0, .held, .resp, .outbox, .mod, .tiles, .sit, .met, .sag, .pwr, .con] s out := by
  cases e
  repeat' first
    | with_reducible exact Within.refl _ _
    | with_reducible assumption
    | with_reducible apply State.orderlyBegin_within (hl := (by decide))
    | with_reducible apply State.access_within (hl := (by decide))
    | dsimp only
    | with_reducible intro _

theorem State.saggarStart_within {lp : List Part} {root s : State} (h : Within lp root s) (selfTest : Bool) (hl : ∀ p ∈ ([.regs
    0x430, .regs 0x470, .regs 0x480, .regs 0x4b0, .free, .met, .clk, .sag, .pwr] : List Part), p ∈ lp) : Within lp root
    (State.saggarStart s selfTest) := by
  unfold State.saggarStart
  repeat' first
    | with_reducible assumption
    | with_reducible apply State.onPwr_within (hl := (parts_trans (by decide) hl))
    | with_reducible apply State.sagError_within (hl := (parts_trans (by decide) hl))
    | with_reducible apply State.attestWasted_within (hl := (parts_trans (by decide) hl))
    | with_reducible apply State.onSag_within (hl := (parts_trans (by decide) hl))
    | with_reducible apply State.pllEnable_within (hl := (parts_trans (by decide) hl))
    | with_reducible apply State.journal_within (hl := (parts_trans (by decide) hl))
    | with_reducible apply State.tookFree_within (hl := (parts_trans (by decide) hl))
    | ((with_reducible apply State.putB_within (bf := 0x4b0) (mf := (hl _ (by decide)))) <;> first | (rfl; done) | (dsimp only; omega) | (dsimp only [Fld.whole]; omega) | (split <;> first | (rfl; done) | (dsimp only; omega)) | show Within _ _ _)
    | ((with_reducible apply State.put_within 0x4b0 (hb := (hl _ (by decide)))) <;> first | (rfl; done) | (dsimp only; omega) | (dsimp only [Fld.whole]; omega) | (split <;> first | (rfl; done) | (dsimp only; omega)) | show Within _ _ _)
    | with_reducible apply Within.ite
    | split
    | dsimp only
    | with_reducible intro _

theorem execRailsGood_within {s out : State} (rail : Fin 5) (selfTest : Bool) (e : execRailsGood rail selfTest s = .next out) :
    Within [.regs 0x430, .regs 0x470, .regs 0x480, .regs 0x4b0, .free, .met, .clk, .sag, .pwr] s out := by
  cases e
  repeat' first
    | with_reducible exact Within.refl _ _
    | with_reducible assumption
    | with_reducible apply State.saggarStart_within (hl := (by decide))
    | with_reducible apply State.onPwr_within (hl := (by decide))
    | with_reducible apply Within.ite
    | split
    | dsimp only
    | with_reducible intro _

theorem State.hostStart_within {lp : List Part} {root s : State} (h : Within lp root s) (f : BootFacts) (slot : Nat) (img : FwSlot)
    (hl : ∀ p ∈ ([.regs 0x470, .regs 0x4b0, .sram, .glz, .met, .sag, .pwr] : List Part), p ∈ lp) : Within lp root (State.hostStart s
    f slot img) := by
  unfold State.hostStart
  repeat' first
    | with_reducible assumption
    | with_reducible apply State.onPwr_within (hl := (parts_trans (by decide) hl))
    | with_reducible apply State.onSag_within (hl := (parts_trans (by decide) hl))
    | with_reducible apply State.journal_within (hl := (parts_trans (by decide) hl))
    | ((with_reducible apply State.put_within 0x4b0 (hb := (hl _ (by decide)))) <;> first | (rfl; done) | (dsimp only; omega) | (dsimp only [Fld.whole]; omega) | (split <;> first | (rfl; done) | (dsimp only; omega)) | show Within _ _ _)
    | with_reducible apply State.withGlz_within (hl := (parts_trans (by decide) hl))
    | with_reducible apply State.withSram_within (hl := (parts_trans (by decide) hl))
    | with_reducible apply Within.ite
    | split
    | dsimp only
    | with_reducible intro _

theorem execHostRelease_within {s out : State} (f : BootFacts) (e : execHostRelease f s = .next out) : Within [.regs 0x470, .regs
    0x4b0, .sram, .glz, .met, .sag, .pwr] s out := by
  cases e
  repeat' first
    | with_reducible exact Within.refl _ _
    | with_reducible assumption
    | with_reducible apply State.hostStart_within (hl := (by decide))
    | with_reducible apply State.onSag_within (hl := (by decide))
    | with_reducible apply Within.ite
    | split
    | dsimp only
    | with_reducible intro _

theorem State.vauxLow_within {lp : List Part} {root s : State} (h : Within lp root s) (hl : ∀ p ∈ ([.regs 0x4c0, .pwr] : List Part),
    p ∈ lp) : Within lp root (State.vauxLow s) := by
  unfold State.vauxLow
  repeat' first
    | with_reducible assumption
    | with_reducible apply State.onPwr_within (hl := (parts_trans (by decide) hl))
    | ((with_reducible apply State.put_within 0x4c0 (hb := (hl _ (by decide)))) <;> first | (rfl; done) | (dsimp only; omega) | (dsimp only [Fld.whole]; omega) | (split <;> first | (rfl; done) | (dsimp only; omega)) | show Within _ _ _)
    | dsimp only
    | with_reducible intro _

theorem execVauxHigh_within {s out : State} (outside : Bool) (e : execVauxHigh outside s = .next out) : Within [.regs 0x4c0, .pwr] s
    out := by
  unfold execVauxHigh at e
  repeat' split at e
  all_goals cases e
  all_goals repeat' first
    | with_reducible exact Within.refl _ _
    | with_reducible assumption
    | with_reducible apply State.onPwr_within (hl := (by decide))
    | ((with_reducible apply State.put_within 0x4c0 (hb := (by decide))) <;> first | (rfl; done) | (dsimp only; omega) | (dsimp only [Fld.whole]; omega) | (split <;> first | (rfl; done) | (dsimp only; omega)) | show Within _ _ _)
    | with_reducible apply Within.ite
    | split

theorem execDeratedSet_within {s out : State} (e : execDeratedSet s = .next out) : Within [.regs 0x4c0, .pwr] s out := by
  cases e
  repeat' first
    | with_reducible exact Within.refl _ _
    | with_reducible assumption
    | with_reducible apply State.vauxLow_within (hl := (by decide))
    | ((with_reducible apply State.put_within 0x4c0 (hb := (by decide))) <;> first | (rfl; done) | (dsimp only; omega) | (dsimp only [Fld.whole]; omega) | (split <;> first | (rfl; done) | (dsimp only; omega)) | show Within _ _ _)
    | dsimp only
    | with_reducible intro _

theorem execDeratedClear_within {s out : State} (e : execDeratedClear s = .next out) : Within [.regs 0x4c0] s out := by
  cases e
  repeat' first
    | with_reducible exact Within.refl _ _
    | with_reducible assumption
    | ((with_reducible apply State.put_within 0x4c0 (hb := (by decide))) <;> first | (rfl; done) | (dsimp only; omega) | (dsimp only [Fld.whole]; omega) | (split <;> first | (rfl; done) | (dsimp only; omega)) | show Within _ _ _)
    | dsimp only
    | with_reducible intro _

theorem State.pfRecord_within {lp : List Part} {root s : State} (h : Within lp root s) (hl : ∀ p ∈ ([.regs 0x470, .met, .sag] : List
    Part), p ∈ lp) : Within lp root (State.pfRecord s) := by
  unfold State.pfRecord
  repeat' first
    | with_reducible assumption
    | with_reducible apply State.pfSave_within (hl := (parts_trans (by decide) hl))
    | with_reducible apply State.journal_within (hl := (parts_trans (by decide) hl))
    | with_reducible apply Within.ite
    | split
    | dsimp only
    | with_reducible intro _

theorem execPfWarnFall_within {s out : State} (e : execPfWarnFall s = .next out) : Within [.regs 0x440, .regs 0x448, .regs 0x470,
    .regs 0x4c0, .regs 0x4e0, .outbox, .mod, .tiles, .sit, .met, .sag, .pwr, .con] s out := by
  cases e
  repeat' first
    | with_reducible exact Within.refl _ _
    | with_reducible assumption
    | with_reducible apply State.pfRecord_within (hl := (by decide))
    | with_reducible apply State.vauxLow_within (hl := (by decide))
    | with_reducible apply State.onPwr_within (hl := (by decide))
    | with_reducible apply State.raiseStop_within (hl := (by decide))
    | ((with_reducible apply State.put_within 0x4c0 (hb := (by decide))) <;> first | (rfl; done) | (dsimp only; omega) | (dsimp only [Fld.whole]; omega) | (split <;> first | (rfl; done) | (dsimp only; omega)) | show Within _ _ _)
    | with_reducible apply Within.ite
    | split
    | dsimp only
    | with_reducible intro _

theorem execPfWarnRise_within {s out : State} (e : execPfWarnRise s = .next out) : Within [.regs 0x4c0, .pwr] s out := by
  cases e
  repeat' first
    | with_reducible exact Within.refl _ _
    | with_reducible assumption
    | with_reducible apply State.onPwr_within (hl := (by decide))
    | ((with_reducible apply State.put_within 0x4c0 (hb := (by decide))) <;> first | (rfl; done) | (dsimp only; omega) | (dsimp only [Fld.whole]; omega) | (split <;> first | (rfl; done) | (dsimp only; omega)) | show Within _ _ _)
    | with_reducible apply Within.ite
    | split
    | dsimp only
    | with_reducible intro _

theorem pfWarnOp_within {lp : List Part} {root s : State} (h : Within lp root s) (v : Nat) (hl : ∀ p ∈ ([.regs 0x4c0] : List Part),
    p ∈ lp) : Within lp root (pfWarnOp v s) := by
  unfold pfWarnOp
  repeat' first
    | with_reducible assumption
    | with_reducible apply State.pwrRefuse_within (hl := (parts_trans (by decide) hl))
    | ((with_reducible apply State.put_within 0x4c0 (hb := (hl _ (by decide)))) <;> first | (rfl; done) | (dsimp only; omega) | (dsimp only [Fld.whole]; omega) | (split <;> first | (rfl; done) | (dsimp only; omega)) | show Within _ _ _)
    | with_reducible apply Within.ite
    | split
    | dsimp only
    | with_reducible intro _

theorem execPfWarnWrite_within {s out : State} (v : BitVec 8) (e : execPfWarnWrite v s = .next out) : Within [.regs 0x4c0, .held,
    .resp] s out := by
  cases e
  repeat' first
    | with_reducible exact Within.refl _ _
    | with_reducible assumption
    | with_reducible apply pfWarnOp_within (hl := (by decide))
    | with_reducible apply State.access_within (hl := (by decide))
    | dsimp only
    | with_reducible intro _

theorem standbyOp_within {lp : List Part} {root s : State} (h : Within lp root s) (hl : ∀ p ∈ ([.regs 0x4c0, .pwr] : List Part), p ∈
    lp) : Within lp root (standbyOp s) := by
  unfold standbyOp
  repeat' first
    | with_reducible assumption
    | with_reducible apply State.pwrRefuse_within (hl := (parts_trans (by decide) hl))
    | with_reducible apply State.onPwr_within (hl := (parts_trans (by decide) hl))
    | ((with_reducible apply State.put_within 0x4c0 (hb := (hl _ (by decide)))) <;> first | (rfl; done) | (dsimp only; omega) | (dsimp only [Fld.whole]; omega) | (split <;> first | (rfl; done) | (dsimp only; omega)) | show Within _ _ _)
    | with_reducible apply Within.ite
    | split
    | dsimp only
    | with_reducible intro _

theorem execStandby_within {s out : State} (e : execStandby s = .next out) : Within [.regs 0x4c0, .held, .resp, .pwr] s out := by
  cases e
  repeat' first
    | with_reducible exact Within.refl _ _
    | with_reducible assumption
    | with_reducible apply standbyOp_within (hl := (by decide))
    | with_reducible apply State.access_within (hl := (by decide))
    | dsimp only
    | with_reducible intro _

theorem execStandbyWake_within {s out : State} (e : execStandbyWake s = .next out) : Within [.regs 0x4c0, .pwr] s out := by
  cases e
  repeat' first
    | with_reducible exact Within.refl _ _
    | with_reducible assumption
    | with_reducible apply State.onPwr_within (hl := (by decide))
    | ((with_reducible apply State.put_within 0x4c0 (hb := (by decide))) <;> first | (rfl; done) | (dsimp only; omega) | (dsimp only [Fld.whole]; omega) | (split <;> first | (rfl; done) | (dsimp only; omega)) | show Within _ _ _)
    | with_reducible refine Within.when ?_ fun _ _ => ?_
    | dsimp only
    | with_reducible intro _

theorem wdogCfgOp_within {lp : List Part} {root s : State} (h : Within lp root s) (v : Nat) (hl : ∀ p ∈ ([.regs 0x4c0] : List Part),
    p ∈ lp) : Within lp root (wdogCfgOp v s) := by
  unfold wdogCfgOp
  repeat' first
    | with_reducible assumption
    | ((with_reducible apply State.putB_within (bf := 0x4c0) (mf := (hl _ (by decide)))) <;> first | (rfl; done) | (dsimp only; omega) | (dsimp only [Fld.whole]; omega) | (split <;> first | (rfl; done) | (dsimp only; omega)) | show Within _ _ _)
    | ((with_reducible apply State.put_within 0x4c0 (hb := (hl _ (by decide)))) <;> first | (rfl; done) | (dsimp only; omega) | (dsimp only [Fld.whole]; omega) | (split <;> first | (rfl; done) | (dsimp only; omega)) | show Within _ _ _)
    | with_reducible refine Within.when ?_ fun _ _ => ?_
    | with_reducible apply Within.ite
    | split
    | dsimp only
    | with_reducible intro _

theorem execWdogStart_within {s out : State} (v : Word) (e : execWdogStart v s = .next out) : Within [.regs 0x4c0, .held, .resp] s
    out := by
  cases e
  repeat' first
    | with_reducible exact Within.refl _ _
    | with_reducible assumption
    | with_reducible apply wdogCfgOp_within (hl := (by decide))
    | with_reducible apply State.access_within (hl := (by decide))
    | dsimp only
    | with_reducible intro _

theorem wdogKickOp_within {lp : List Part} {root s : State} (h : Within lp root s) (v : Nat) (hl : ∀ p ∈ ([.regs 0x440, .regs 0x448,
    .regs 0x470, .regs 0x4e0, .outbox, .mod, .tiles, .sit, .met, .sag, .pwr, .con] : List Part), p ∈ lp) : Within lp root
    (wdogKickOp v s) := by
  unfold wdogKickOp
  repeat' first
    | with_reducible assumption
    | with_reducible apply State.onPwr_within (hl := (parts_trans (by decide) hl))
    | with_reducible apply State.orderlyBegin_within (hl := (parts_trans (by decide) hl))
    | with_reducible apply Within.ite
    | split
    | dsimp only
    | with_reducible intro _

theorem execWdogKick_within {s out : State} (v : Word) (e : execWdogKick v s = .next out) : Within [.regs 0x440, .regs 0x448, .regs
    0x470, .regs 0x4e0, .held, .resp, .outbox, .mod, .tiles, .sit, .met, .sag, .pwr, .con] s out := by
  cases e
  repeat' first
    | with_reducible exact Within.refl _ _
    | with_reducible assumption
    | with_reducible apply wdogKickOp_within (hl := (by decide))
    | with_reducible apply State.access_within (hl := (by decide))
    | dsimp only
    | with_reducible intro _

theorem execWdogHalf_within {s out : State} (e : execWdogHalf s = .next out) : Within [.regs 0x4c0] s out := by
  cases e
  repeat' first
    | with_reducible exact Within.refl _ _
    | with_reducible assumption
    | ((with_reducible apply State.put_within 0x4c0 (hb := (by decide))) <;> first | (rfl; done) | (dsimp only; omega) | (dsimp only [Fld.whole]; omega) | (split <;> first | (rfl; done) | (dsimp only; omega)) | show Within _ _ _)
    | with_reducible refine Within.when ?_ fun _ _ => ?_
    | dsimp only
    | with_reducible intro _

theorem execWatchdogExpiry_within {s out : State} (e : execWatchdogExpiry s = .next out) : Within [.regs 0x440, .regs 0x448, .regs
    0x470, .regs 0x4e0, .outbox, .mod, .tiles, .sit, .met, .sag, .pwr, .con] s out := by
  cases e
  repeat' first
    | with_reducible exact Within.refl _ _
    | with_reducible assumption
    | with_reducible apply State.orderlyBegin_within (hl := (by decide))
    | with_reducible refine Within.when ?_ fun _ _ => ?_
    | dsimp only
    | with_reducible intro _

theorem execDieHot_within {s out : State} (e : execDieHot s = .next out) : Within [.regs 0x4c0] s out := by
  cases e
  repeat' first
    | with_reducible exact Within.refl _ _
    | with_reducible assumption
    | ((with_reducible apply State.put_within 0x4c0 (hb := (by decide))) <;> first | (rfl; done) | (dsimp only; omega) | (dsimp only [Fld.whole]; omega) | (split <;> first | (rfl; done) | (dsimp only; omega)) | show Within _ _ _)
    | dsimp only
    | with_reducible intro _

theorem execThermal_within {s out : State} (e : execThermal s = .next out) : Within [.regs 0x440, .regs 0x448, .regs 0x470, .regs
    0x4e0, .outbox, .mod, .tiles, .sit, .met, .sag, .pwr, .con] s out := by
  cases e
  repeat' first
    | with_reducible exact Within.refl _ _
    | with_reducible assumption
    | with_reducible apply State.orderlyBegin_within (hl := (by decide))
    | dsimp only
    | with_reducible intro _

end Sys2Proof.Machine
end

