-- ==== Sys2Proof/Laws/WithinSitter.lean ====
section
/-!
SUPPORT. The parts of the state that each operation of Machine/Sitter.lean may change.
-/

namespace Sys2Proof.Machine

open Sys2Proof

set_option linter.all false

theorem State.tripLine_within {lp : List Part} {root s : State} (h : Within lp root s) (k : Nat) (latches : Bool) (hl : ∀ p ∈
    ([.regs 0x440, .regs 0x448, .regs 0x470, .regs 0x4e0, .outbox, .mod, .tiles, .sit, .met, .sag, .con] : List Part), p ∈ lp) :
    Within lp root (State.tripLine s k latches) := by
  unfold State.tripLine
  repeat' first
    | with_reducible assumption
    | with_reducible apply State.coneIf_within (hl := (parts_trans (by decide) hl))
    | with_reducible apply State.cutPairs_within (hl := (parts_trans (by decide) hl))
    | with_reducible apply State.raiseStopAlso_within (hl := (parts_trans (by decide) hl))
    | with_reducible apply Within.ite
    | split
    | dsimp only
    | with_reducible intro _

theorem State.winChange_within {lp : List Part} {root s : State} (h : Within lp root s) (n : Fin 44) (side : WinSide) (idle : BitVec
    16) (hl : ∀ p ∈ ([.regs 0x450, .regs 0x460, .wins, .adcs, .pwr] : List Part), p ∈ lp) : Within lp root (State.winChange s n side
    idle) := by
  unfold State.winChange
  repeat' first
    | with_reducible assumption
    | with_reducible apply State.adcUrgentFrom_within (hl := (parts_trans (by decide) hl))
    | with_reducible apply State.onWin_within (hl := (parts_trans (by decide) hl))
    | ((with_reducible apply State.putBit_within (bf := 0x450) (mf := (hl _ (by decide)))) <;> first | (rfl; done) | (dsimp only; omega) | (dsimp only [Fld.whole]; omega) | (split <;> first | (rfl; done) | (dsimp only; omega)) | show Within _ _ _)
    | ((with_reducible apply State.incWrap_within (bf := 0x450) (mf := (hl _ (by decide)))) <;> first | (rfl; done) | (dsimp only; omega) | (dsimp only [Fld.whole]; omega) | (split <;> first | (rfl; done) | (dsimp only; omega)) | show Within _ _ _)
    | ((with_reducible apply State.put_within 0x450 (hb := (hl _ (by decide)))) <;> first | (rfl; done) | (dsimp only; omega) | (dsimp only [Fld.whole]; omega) | (split <;> first | (rfl; done) | (dsimp only; omega)) | show Within _ _ _)
    | with_reducible apply State.withPwr_within (hl := (parts_trans (by decide) hl))
    | with_reducible refine Within.when ?_ fun _ _ => ?_
    | with_reducible apply Within.ite
    | split
    | dsimp only
    | with_reducible intro _

theorem State.winSet_within {lp : List Part} {root s : State} (h : Within lp root s) (n : Fin 44) (side : WinSide) (idle : BitVec
    16) (hl : ∀ p ∈ ([.regs 0x440, .regs 0x448, .regs 0x450, .regs 0x460, .regs 0x470, .regs 0x4e0, .outbox, .mod, .tiles, .wins,
    .sit, .adcs, .met, .sag, .pwr, .con] : List Part), p ∈ lp) : Within lp root (State.winSet s n side idle) := by
  unfold State.winSet
  repeat' first
    | with_reducible assumption
    | with_reducible apply State.winChange_within (hl := (parts_trans (by decide) hl))
    | with_reducible apply State.tripLine_within (hl := (parts_trans (by decide) hl))
    | with_reducible apply State.onWin_within (hl := (parts_trans (by decide) hl))
    | ((with_reducible apply State.putB_within (bf := 0x450) (mf := (hl _ (by decide)))) <;> first | (rfl; done) | (dsimp only; omega) | (dsimp only [Fld.whole]; omega) | (split <;> first | (rfl; done) | (dsimp only; omega)) | show Within _ _ _)
    | ((with_reducible apply State.put_within 0x450 (hb := (hl _ (by decide)))) <;> first | (rfl; done) | (dsimp only; omega) | (dsimp only [Fld.whole]; omega) | (split <;> first | (rfl; done) | (dsimp only; omega)) | show Within _ _ _)
    | with_reducible apply Within.ite
    | split
    | dsimp only
    | with_reducible intro _

theorem execWinAssert_within {s out : State} (n : Fin 44) (x : WinSight) (e : execWinAssert n x s = .next out) : Within [.regs
    0x440, .regs 0x448, .regs 0x450, .regs 0x460, .regs 0x470, .regs 0x4e0, .outbox, .mod, .tiles, .wins, .sit, .adcs, .met, .sag,
    .pwr, .con] s out := by
  cases e
  repeat' first
    | with_reducible exact Within.refl _ _
    | with_reducible assumption
    | with_reducible apply State.winSet_within (hl := (by decide))
    | with_reducible apply Within.ite
    | split
    | dsimp only
    | with_reducible intro _

theorem execWinDeassert_within {s out : State} (x : WinSeen) (e : execWinDeassert x s = .next out) : Within [.regs 0x440, .regs
    0x448, .regs 0x450, .regs 0x460, .regs 0x470, .regs 0x4e0, .outbox, .mod, .tiles, .wins, .sit, .adcs, .met, .sag, .pwr, .con] s
    out := by
  cases e
  repeat' first
    | with_reducible exact Within.refl _ _
    | with_reducible assumption
    | with_reducible apply State.winSet_within (hl := (by decide))
    | with_reducible apply Within.ite
    | split
    | dsimp only
    | with_reducible intro _

theorem execWinBlankEnd_within {s out : State} (x : WinIdle) (e : execWinBlankEnd x s = .next out) : Within [.regs 0x440, .regs
    0x448, .regs 0x450, .regs 0x460, .regs 0x470, .regs 0x4e0, .outbox, .mod, .tiles, .wins, .sit, .adcs, .met, .sag, .pwr, .con] s
    out := by
  cases e
  repeat' first
    | with_reducible exact Within.refl _ _
    | with_reducible assumption
    | with_reducible apply State.winSet_within (hl := (by decide))
    | with_reducible apply State.onWin_within (hl := (by decide))
    | split
    | dsimp only
    | with_reducible intro _

theorem winThrOp_within {lp : List Part} {root s : State} (h : Within lp root s) (n : Fin 44) (v : Word) (hl : ∀ p ∈ ([.regs 0x450]
    : List Part), p ∈ lp) : Within lp root (winThrOp n v s) := by
  unfold winThrOp
  repeat' first
    | with_reducible assumption
    | ((with_reducible apply State.inc_within (bf := 0x450) (mf := (hl _ (by decide)))) <;> first | (rfl; done) | (dsimp only; omega) | (dsimp only [Fld.whole]; omega) | (split <;> first | (rfl; done) | (dsimp only; omega)) | show Within _ _ _)
    | ((with_reducible apply State.put_within 0x450 (hb := (hl _ (by decide)))) <;> first | (rfl; done) | (dsimp only; omega) | (dsimp only [Fld.whole]; omega) | (split <;> first | (rfl; done) | (dsimp only; omega)) | show Within _ _ _)
    | with_reducible apply Within.ite
    | split
    | dsimp only
    | with_reducible intro _

theorem execWinThrWrite_within {s out : State} (n : Fin 44) (v : Word) (e : execWinThrWrite n v s = .next out) : Within [.regs
    0x450, .held, .resp] s out := by
  cases e
  repeat' first
    | with_reducible exact Within.refl _ _
    | with_reducible assumption
    | with_reducible apply winThrOp_within (hl := (by decide))
    | with_reducible apply State.access_within (hl := (by decide))
    | dsimp only
    | with_reducible intro _

theorem State.winEnable_within {lp : List Part} {root s : State} (h : Within lp root s) (n : Fin 44) (hl : ∀ p ∈ ([.regs 0x450,
    .wins] : List Part), p ∈ lp) : Within lp root (State.winEnable s n) := by
  unfold State.winEnable
  repeat' first
    | with_reducible assumption
    | with_reducible apply State.onWin_within (hl := (parts_trans (by decide) hl))
    | ((with_reducible apply State.put_within 0x450 (hb := (hl _ (by decide)))) <;> first | (rfl; done) | (dsimp only; omega) | (dsimp only [Fld.whole]; omega) | (split <;> first | (rfl; done) | (dsimp only; omega)) | show Within _ _ _)
    | with_reducible apply Within.ite
    | split
    | dsimp only
    | with_reducible intro _

theorem State.shadowDrop_within {lp : List Part} {root s : State} (h : Within lp root s) (n : Fin 44) (hl : ∀ p ∈ ([.regs 0x450,
    .wins] : List Part), p ∈ lp) : Within lp root (State.shadowDrop s n) := by
  unfold State.shadowDrop
  repeat' first
    | with_reducible assumption
    | with_reducible apply State.onWin_within (hl := (parts_trans (by decide) hl))
    | ((with_reducible apply State.put_within 0x450 (hb := (hl _ (by decide)))) <;> first | (rfl; done) | (dsimp only; omega) | (dsimp only [Fld.whole]; omega) | (split <;> first | (rfl; done) | (dsimp only; omega)) | show Within _ _ _)
    | with_reducible apply Within.ite
    | split
    | dsimp only
    | with_reducible intro _

theorem execWinRelease_within {s out : State} (n : Fin 44) (side : WinSide) (e : execWinRelease n side s = .next out) : Within
    [.regs 0x450, .wins] s out := by
  cases e
  repeat' first
    | with_reducible exact Within.refl _ _
    | with_reducible assumption
    | with_reducible apply State.shadowDrop_within (hl := (by decide))
    | with_reducible apply State.onWin_within (hl := (by decide))
    | ((with_reducible apply State.putB_within (bf := 0x450) (mf := (by decide))) <;> first | (rfl; done) | (dsimp only; omega) | (dsimp only [Fld.whole]; omega) | (split <;> first | (rfl; done) | (dsimp only; omega)) | show Within _ _ _)
    | ((with_reducible apply State.put_within 0x450 (hb := (by decide))) <;> first | (rfl; done) | (dsimp only; omega) | (dsimp only [Fld.whole]; omega) | (split <;> first | (rfl; done) | (dsimp only; omega)) | show Within _ _ _)
    | with_reducible refine Within.when ?_ fun _ _ => ?_
    | with_reducible apply Within.ite
    | split
    | dsimp only
    | with_reducible intro _

theorem execWinStateChange_within {s out : State} (n : Fin 44) (x : WinSight) (e : execWinStateChange n x s = .next out) : Within
    [.regs 0x440, .regs 0x448, .regs 0x450, .regs 0x460, .regs 0x470, .regs 0x4e0, .outbox, .mod, .tiles, .wins, .sit, .adcs, .met,
    .sag, .pwr, .con] s out := by
  cases e
  repeat' first
    | with_reducible exact Within.refl _ _
    | with_reducible assumption
    | with_reducible apply State.winSet_within (hl := (by decide))
    | with_reducible apply Within.ite
    | split
    | dsimp only
    | with_reducible intro _

theorem State.selftestRefuse_within {lp : List Part} {root s : State} (h : Within lp root s) (n : Fin 44) (hl : ∀ p ∈ ([.regs 0x450]
    : List Part), p ∈ lp) : Within lp root (State.selftestRefuse s n) := by
  unfold State.selftestRefuse
  repeat' first
    | with_reducible assumption
    | ((with_reducible apply State.inc_within (bf := 0x450) (mf := (hl _ (by decide)))) <;> first | (rfl; done) | (dsimp only; omega) | (dsimp only [Fld.whole]; omega) | (split <;> first | (rfl; done) | (dsimp only; omega)) | show Within _ _ _)
    | ((with_reducible apply State.put_within 0x450 (hb := (hl _ (by decide)))) <;> first | (rfl; done) | (dsimp only; omega) | (dsimp only [Fld.whole]; omega) | (split <;> first | (rfl; done) | (dsimp only; omega)) | show Within _ _ _)
    | dsimp only
    | with_reducible intro _

theorem selftestOp_within {lp : List Part} {root s : State} (h : Within lp root s) (n : Fin 44) (hl : ∀ p ∈ ([.regs 0x450, .wins] :
    List Part), p ∈ lp) : Within lp root (selftestOp n s) := by
  unfold selftestOp
  repeat' first
    | with_reducible assumption
    | with_reducible apply State.selftestRefuse_within (hl := (parts_trans (by decide) hl))
    | with_reducible apply State.onWin_within (hl := (parts_trans (by decide) hl))
    | ((with_reducible apply State.put_within 0x450 (hb := (hl _ (by decide)))) <;> first | (rfl; done) | (dsimp only; omega) | (dsimp only [Fld.whole]; omega) | (split <;> first | (rfl; done) | (dsimp only; omega)) | show Within _ _ _)
    | with_reducible apply Within.ite
    | split
    | dsimp only
    | with_reducible intro _

theorem execSelftest_within {s out : State} (n : Fin 44) (e : execSelftest n s = .next out) : Within [.regs 0x450, .held, .resp,
    .wins] s out := by
  cases e
  repeat' first
    | with_reducible exact Within.refl _ _
    | with_reducible assumption
    | with_reducible apply selftestOp_within (hl := (by decide))
    | with_reducible apply State.access_within (hl := (by decide))
    | dsimp only
    | with_reducible intro _

theorem execSelftestDone_within {s out : State} (n : Fin 44) (up down : Nat) (e : execSelftestDone n up down s = .next out) : Within
    [.regs 0x450, .regs 0x470, .regs 0x4d0, .wins, .met, .sag, .grg] s out := by
  cases e
  repeat' first
    | with_reducible exact Within.refl _ _
    | with_reducible assumption
    | with_reducible apply State.shadowDrop_within (hl := (by decide))
    | with_reducible apply State.winEnable_within (hl := (by decide))
    | with_reducible apply State.grogWinDrift_within (hl := (by decide))
    | ((with_reducible apply State.putI_within (bf := 0x450) (mf := (by decide))) <;> first | (rfl; done) | (dsimp only; omega) | (dsimp only [Fld.whole]; omega) | (split <;> first | (rfl; done) | (dsimp only; omega)) | show Within _ _ _)
    | ((with_reducible apply State.put_within 0x450 (hb := (by decide))) <;> first | (rfl; done) | (dsimp only; omega) | (dsimp only [Fld.whole]; omega) | (split <;> first | (rfl; done) | (dsimp only; omega)) | show Within _ _ _)
    | with_reducible refine Within.when ?_ fun _ _ => ?_
    | with_reducible apply Within.ite
    | split
    | dsimp only
    | with_reducible intro _

theorem shadowOp_within {lp : List Part} {root s : State} (h : Within lp root s) (n : Fin 44) (hl : ∀ p ∈ ([.regs 0x440, .regs
    0x448, .regs 0x450, .regs 0x470, .regs 0x4e0, .outbox, .mod, .tiles, .wins, .sit, .met, .sag, .con] : List Part), p ∈ lp) :
    Within lp root (shadowOp n s) := by
  have hb := hl (.regs 0x450) (by decide)
  have hw := parts_trans (a := [.wins]) (by decide) hl
  unfold shadowOp
  split
  · rename_i x _
    have h4 : Within lp root ((((s.withRegs (cellPut s.regs (WIN_CFG_EN x).addr (cellGet s.regs (WIN_CFG_EN n).addr))).withRegs
        (cellPut (s.withRegs (cellPut s.regs (WIN_CFG_EN x).addr (cellGet s.regs (WIN_CFG_EN n).addr))).regs
          (WIN_THR_UPPER x).addr (cellGet (s.withRegs (cellPut s.regs (WIN_CFG_EN x).addr (cellGet s.regs (WIN_CFG_EN n).addr))).regs
          (WIN_THR_UPPER n).addr))).onWin n fun w => { w with shadow := some x.val }).onWin x fun w => { w with shadowOf := some n.val }) := by
      refine State.onWin_within (State.onWin_within ?_ _ _ hw) _ _ hw
      refine State.withRegs_within (State.withRegs_within h _ 0x450 hb fun a ha => ?_) _ 0x450 hb fun a ha => ?_
      all_goals exact cellGet_put_ne _ _ _ _ fun e => ha (by rw [← e]; dsimp only; omega)
    have h5 := State.winEnable_within (State.put_within (f := WIN_STATUS_SPARE n) 0x450 h4 (by dsimp only; omega) hb (v := x.val - 40)) x
      (parts_trans (by decide) hl)
    exact Within.ite (State.inc_within h _ (by dsimp only; omega) hb) (Within.ite (State.tripLine_within h5 _ _ (parts_trans (by decide) hl)) h5)
  · exact State.inc_within h _ (by dsimp only; omega) hb

theorem execShadow_within {s out : State} (n : Fin 44) (e : execShadow n s = .next out) : Within [.regs 0x440, .regs 0x448, .regs
    0x450, .regs 0x470, .regs 0x4e0, .held, .resp, .outbox, .mod, .tiles, .wins, .sit, .met, .sag, .con] s out := by
  cases e
  repeat' first
    | with_reducible exact Within.refl _ _
    | with_reducible assumption
    | with_reducible apply shadowOp_within (hl := (by decide))
    | with_reducible apply State.access_within (hl := (by decide))
    | dsimp only
    | with_reducible intro _

theorem execShadowReady_within {s out : State} (n : Fin 44) (e : execShadowReady n s = .next out) : Within [.regs 0x450] s out := by
  cases e
  repeat' first
    | with_reducible exact Within.refl _ _
    | with_reducible assumption
    | ((with_reducible apply State.put_within 0x450 (hb := (by decide))) <;> first | (rfl; done) | (dsimp only; omega) | (dsimp only [Fld.whole]; omega) | (split <;> first | (rfl; done) | (dsimp only; omega)) | show Within _ _ _)
    | with_reducible apply Within.ite
    | split
    | dsimp only
    | with_reducible intro _

theorem pairStatOp_within {lp : List Part} {root s : State} (h : Within lp root s) (mask : BitVec 9) (hl : ∀ p ∈ ([.regs 0x448] :
    List Part), p ∈ lp) : Within lp root (pairStatOp mask s) := by
  unfold pairStatOp
  repeat' first
    | with_reducible assumption
    | ((with_reducible apply State.putBit_within (bf := 0x448) (mf := (hl _ (by decide)))) <;> first | (rfl; done) | (dsimp only; omega) | (dsimp only [Fld.whole]; omega) | (split <;> first | (rfl; done) | (dsimp only; omega)) | show Within _ _ _)
    | ((with_reducible apply State.inc_within (bf := 0x448) (mf := (hl _ (by decide)))) <;> first | (rfl; done) | (dsimp only; omega) | (dsimp only [Fld.whole]; omega) | (split <;> first | (rfl; done) | (dsimp only; omega)) | show Within _ _ _)
    | ((with_reducible apply State.put_within 0x448 (hb := (hl _ (by decide)))) <;> first | (rfl; done) | (dsimp only; omega) | (dsimp only [Fld.whole]; omega) | (split <;> first | (rfl; done) | (dsimp only; omega)) | show Within _ _ _)
    | with_reducible refine Within.each ?_ fun _ _ _ => ?_
    | with_reducible apply Within.ite
    | split
    | dsimp only
    | with_reducible intro _

theorem execPairStatClear_within {s out : State} (mask : BitVec 9) (e : execPairStatClear mask s = .next out) : Within [.regs 0x448,
    .held, .resp] s out := by
  cases e
  repeat' first
    | with_reducible exact Within.refl _ _
    | with_reducible assumption
    | with_reducible apply pairStatOp_within (hl := (by decide))
    | with_reducible apply State.access_within (hl := (by decide))
    | dsimp only
    | with_reducible intro _

theorem execSafeOrderStage2_within {s out : State} (e : execSafeOrderStage2 s = .next out) : Within [.regs 0x440, .regs 0x448, .tiles] s out := by
  cases e
  refine Within.ite (State.put_within 0x448 (Within.each (Within.refl _ _) fun _ _ k => ?_) rfl (by decide)) (Within.refl _ _)
  exact Within.when k fun _ k => State.chanOff_within k _ _ (by decide)

theorem execSafeOrderTileDone_within {s out : State} (n : Fin 9) (e : execSafeOrderTileDone n s = .next out) : Within [.regs 0x440,
    .regs 0x448, .mod, .tiles, .sit, .con] s out := by
  cases e
  repeat' first
    | with_reducible exact Within.refl _ _
    | with_reducible assumption
    | with_reducible apply State.safeDone_within (hl := (by decide))
    | with_reducible apply State.disarm_within (hl := (by decide))
    | with_reducible apply State.withSit_within (hl := (by decide))
    | with_reducible apply Within.ite
    | split
    | dsimp only
    | with_reducible intro _

theorem State.sitRefuse_within {lp : List Part} {root s : State} (h : Within lp root s) (hl : ∀ p ∈ ([.regs 0x448] : List Part), p ∈
    lp) : Within lp root (State.sitRefuse s) := by
  unfold State.sitRefuse
  repeat' first
    | with_reducible assumption
    | ((with_reducible apply State.inc_within (bf := 0x448) (mf := (hl _ (by decide)))) <;> first | (rfl; done) | (dsimp only; omega) | (dsimp only [Fld.whole]; omega) | (split <;> first | (rfl; done) | (dsimp only; omega)) | show Within _ _ _)
    | ((with_reducible apply State.put_within 0x448 (hb := (hl _ (by decide)))) <;> first | (rfl; done) | (dsimp only; omega) | (dsimp only [Fld.whole]; omega) | (split <;> first | (rfl; done) | (dsimp only; omega)) | show Within _ _ _)
    | dsimp only
    | with_reducible intro _

theorem stopOp_within {lp : List Part} {root s : State} (h : Within lp root s) (alsoClear : Bool) (hl : ∀ p ∈ ([.regs 0x440, .regs
    0x448, .regs 0x470, .regs 0x4e0, .outbox, .mod, .tiles, .sit, .met, .sag, .con] : List Part), p ∈ lp) : Within lp root (stopOp
    alsoClear s) := by
  unfold stopOp
  repeat' first
    | with_reducible assumption
    | with_reducible apply State.sitRefuse_within (hl := (parts_trans (by decide) hl))
    | with_reducible apply State.raiseStop_within (hl := (parts_trans (by decide) hl))
    | with_reducible refine Within.when ?_ fun _ _ => ?_
    | dsimp only
    | with_reducible intro _

theorem execStop_within {s out : State} (alsoClear : Bool) (e : execStop alsoClear s = .next out) : Within [.regs 0x440, .regs
    0x448, .regs 0x470, .regs 0x4e0, .held, .resp, .outbox, .mod, .tiles, .sit, .met, .sag, .con] s out := by
  cases e
  repeat' first
    | with_reducible exact Within.refl _ _
    | with_reducible assumption
    | with_reducible apply stopOp_within (hl := (by decide))
    | with_reducible apply State.access_within (hl := (by decide))
    | dsimp only
    | with_reducible intro _

theorem clearStopOp_within {lp : List Part} {root s : State} (h : Within lp root s) (hl : ∀ p ∈ ([.regs 0x448, .sit] : List Part), p
    ∈ lp) : Within lp root (clearStopOp s) := by
  unfold clearStopOp
  repeat' first
    | with_reducible assumption
    | with_reducible apply State.sitRefuse_within (hl := (parts_trans (by decide) hl))
    | ((with_reducible apply State.put_within 0x448 (hb := (hl _ (by decide)))) <;> first | (rfl; done) | (dsimp only; omega) | (dsimp only [Fld.whole]; omega) | (split <;> first | (rfl; done) | (dsimp only; omega)) | show Within _ _ _)
    | with_reducible apply State.withSit_within (hl := (parts_trans (by decide) hl))
    | with_reducible refine Within.when ?_ fun _ _ => ?_
    | with_reducible apply Within.ite
    | split
    | dsimp only
    | with_reducible intro _

theorem execClearStop_within {s out : State} (e : execClearStop s = .next out) : Within [.regs 0x448, .held, .resp, .sit] s out :=
    by
  cases e
  repeat' first
    | with_reducible exact Within.refl _ _
    | with_reducible assumption
    | with_reducible apply clearStopOp_within (hl := (by decide))
    | with_reducible apply State.access_within (hl := (by decide))
    | dsimp only
    | with_reducible intro _

theorem plantStopOp_within {lp : List Part} {root s : State} (h : Within lp root s) (hl : ∀ p ∈ ([.regs 0x448, .outbox, .sit] : List
    Part), p ∈ lp) : Within lp root (plantStopOp s) := by
  unfold plantStopOp
  repeat' first
    | with_reducible assumption
    | with_reducible apply State.plantRefresh_within (hl := (parts_trans (by decide) hl))
    | with_reducible apply State.withSit_within (hl := (parts_trans (by decide) hl))
    | with_reducible apply Within.ite
    | split
    | dsimp only
    | with_reducible intro _

theorem execPlantStop_within {s out : State} (e : execPlantStop s = .next out) : Within [.regs 0x448, .held, .resp, .outbox, .sit] s
    out := by
  cases e
  repeat' first
    | with_reducible exact Within.refl _ _
    | with_reducible assumption
    | with_reducible apply plantStopOp_within (hl := (by decide))
    | with_reducible apply State.access_within (hl := (by decide))
    | dsimp only
    | with_reducible intro _

theorem clearPlantOp_within {lp : List Part} {root s : State} (h : Within lp root s) (hl : ∀ p ∈ ([.regs 0x448, .sit] : List Part),
    p ∈ lp) : Within lp root (clearPlantOp s) := by
  unfold clearPlantOp
  repeat' first
    | with_reducible assumption
    | with_reducible apply State.sitRefuse_within (hl := (parts_trans (by decide) hl))
    | ((with_reducible apply State.put_within 0x448 (hb := (hl _ (by decide)))) <;> first | (rfl; done) | (dsimp only; omega) | (dsimp only [Fld.whole]; omega) | (split <;> first | (rfl; done) | (dsimp only; omega)) | show Within _ _ _)
    | with_reducible apply State.withSit_within (hl := (parts_trans (by decide) hl))
    | with_reducible apply Within.ite
    | split
    | dsimp only
    | with_reducible intro _

theorem execClearPlant_within {s out : State} (e : execClearPlant s = .next out) : Within [.regs 0x448, .held, .resp, .sit] s out :=
    by
  cases e
  repeat' first
    | with_reducible exact Within.refl _ _
    | with_reducible assumption
    | with_reducible apply clearPlantOp_within (hl := (by decide))
    | with_reducible apply State.access_within (hl := (by decide))
    | dsimp only
    | with_reducible intro _

end Sys2Proof.Machine
end

