-- ==== Sys2Proof/Laws/WithinFiring.lean ====
section
/-!
SUPPORT. The parts of the state that each operation of Machine/Firing.lean may change.
-/

namespace Sys2Proof.Machine

open Sys2Proof

set_option linter.all false

theorem State.onGlz_within {lp : List Part} {root s : State} (h : Within lp root s) (f : GlzState → GlzState) (hl : ∀ p ∈ ([.glz] :
    List Part), p ∈ lp) : Within lp root (State.onGlz s f) := by
  unfold State.onGlz
  repeat' first
    | with_reducible assumption
    | with_reducible apply State.withGlz_within (hl := (parts_trans (by decide) hl))
    | dsimp only
    | with_reducible intro _

theorem State.glzRefuse_within {lp : List Part} {root s : State} (h : Within lp root s) (r : Refuse) (hl : ∀ p ∈ ([.regs 0x401] :
    List Part), p ∈ lp) : Within lp root (State.glzRefuse s r) := by
  unfold State.glzRefuse
  repeat' first
    | with_reducible assumption
    | ((with_reducible apply State.put_within 0x401 (hb := (hl _ (by decide)))) <;> first | (rfl; done) | (dsimp only; omega) | (dsimp only [Fld.whole]; omega) | (split <;> first | (rfl; done) | (dsimp only; omega)) | show Within _ _ _)
    | dsimp only
    | with_reducible intro _

theorem State.glzDone_within {lp : List Part} {root s : State} (h : Within lp root s) (hl : ∀ p ∈ ([.regs 0x401] : List Part), p ∈
    lp) : Within lp root (State.glzDone s) := by
  unfold State.glzDone
  repeat' first
    | with_reducible assumption
    | ((with_reducible apply State.put_within 0x401 (hb := (hl _ (by decide)))) <;> first | (rfl; done) | (dsimp only; omega) | (dsimp only [Fld.whole]; omega) | (split <;> first | (rfl; done) | (dsimp only; omega)) | show Within _ _ _)
    | dsimp only
    | with_reducible intro _

theorem loadOp_within {lp : List Part} {root s : State} (h : Within lp root s) (g : GlazeFile) (hl : ∀ p ∈ ([.regs 0x400, .regs
    0x401, .glz] : List Part), p ∈ lp) : Within lp root (loadOp g s) := by
  unfold loadOp
  repeat' first
    | with_reducible assumption
    | with_reducible apply State.glzRefuse_within (hl := (parts_trans (by decide) hl))
    | with_reducible apply State.onGlz_within (hl := (parts_trans (by decide) hl))
    | with_reducible apply State.discardStaged_within (hl := (parts_trans (by decide) hl))
    | ((with_reducible apply State.put_within 0x401 (hb := (hl _ (by decide)))) <;> first | (rfl; done) | (dsimp only; omega) | (dsimp only [Fld.whole]; omega) | (split <;> first | (rfl; done) | (dsimp only; omega)) | show Within _ _ _)
    | with_reducible apply Within.ite
    | split
    | dsimp only
    | with_reducible intro _

theorem execLoad_within {s out : State} (g : GlazeFile) (e : execLoad g s = .next out) : Within [.regs 0x400, .regs 0x401, .held,
    .resp, .glz] s out := by
  cases e
  repeat' first
    | with_reducible exact Within.refl _ _
    | with_reducible assumption
    | with_reducible apply loadOp_within (hl := (by decide))
    | with_reducible apply State.access_within (hl := (by decide))
    | dsimp only
    | with_reducible intro _

theorem State.loadRefused_within {lp : List Part} {root s : State} (h : Within lp root s) (r : Refuse) (hl : ∀ p ∈ ([.regs 0x401,
    .regs 0x440, .regs 0x4c0, .glz, .tiles, .pwr] : List Part), p ∈ lp) : Within lp root (State.loadRefused s r) := by
  unfold State.loadRefused
  repeat' first
    | with_reducible assumption
    | with_reducible apply State.glzRefuse_within (hl := (parts_trans (by decide) hl))
    | with_reducible apply State.onGlz_within (hl := (parts_trans (by decide) hl))
    | with_reducible apply State.gpStop_within (hl := (parts_trans (by decide) hl))
    | ((with_reducible apply State.put_within 0x401 (hb := (hl _ (by decide)))) <;> first | (rfl; done) | (dsimp only; omega) | (dsimp only [Fld.whole]; omega) | (split <;> first | (rfl; done) | (dsimp only; omega)) | show Within _ _ _)
    | with_reducible refine Within.when ?_ fun _ _ => ?_
    | dsimp only
    | with_reducible intro _

theorem State.enableIslands_within {lp : List Part} {root s : State} (h : Within lp root s) (hl : ∀ p ∈ ([.regs 0x430, .regs 0x480,
    .glz, .clk] : List Part), p ∈ lp) : Within lp root (State.enableIslands s) := by
  unfold State.enableIslands
  repeat' first
    | with_reducible assumption
    | with_reducible apply State.onGlz_within (hl := (parts_trans (by decide) hl))
    | with_reducible apply State.pllEnable_within (hl := (parts_trans (by decide) hl))
    | with_reducible refine Within.each ?_ fun _ _ _ => ?_
    | with_reducible refine Within.when ?_ fun _ _ => ?_
    | with_reducible apply Within.ite
    | split
    | dsimp only
    | with_reducible intro _

theorem State.stage_within {lp : List Part} {root s : State} (h : Within lp root s) (g : GlazeImage) (p : State) (hl : ∀ p ∈ ([.regs
    0x400, .regs 0x401, .regs 0x430, .regs 0x440, .regs 0x480, .sram, .free, .glz, .tiles, .clk, .pwr] : List Part), p ∈ lp) :
    Within lp root (State.stage s g p) := by
  unfold State.stage
  repeat' first
    | with_reducible assumption
    | with_reducible apply State.enableIslands_within (hl := (parts_trans (by decide) hl))
    | with_reducible apply State.glzDone_within (hl := (parts_trans (by decide) hl))
    | with_reducible apply State.onGlz_within (hl := (parts_trans (by decide) hl))
    | with_reducible apply State.serve_within (hl := (parts_trans (by decide) hl))
    | with_reducible apply State.onPwr_within (hl := (parts_trans (by decide) hl))
    | with_reducible apply State.tookFree_within (hl := (parts_trans (by decide) hl))
    | ((with_reducible apply State.put_within 0x401 (hb := (hl _ (by decide)))) <;> first | (rfl; done) | (dsimp only; omega) | (dsimp only [Fld.whole]; omega) | (split <;> first | (rfl; done) | (dsimp only; omega)) | show Within _ _ _)
    | ((with_reducible apply State.put_within 0x400 (hb := (hl _ (by decide)))) <;> first | (rfl; done) | (dsimp only; omega) | (dsimp only [Fld.whole]; omega) | (split <;> first | (rfl; done) | (dsimp only; omega)) | show Within _ _ _)
    | with_reducible apply State.withSram_within (hl := (parts_trans (by decide) hl))
    | with_reducible refine Within.when ?_ fun _ _ => ?_
    | with_reducible apply Within.ite
    | split
    | dsimp only
    | with_reducible intro _

theorem execLoadComplete_within {s out : State} (e : execLoadComplete s = .next out) : Within [.regs 0x400, .regs 0x401, .regs
    0x430, .regs 0x440, .regs 0x480, .regs 0x4c0, .sram, .free, .glz, .tiles, .clk, .pwr] s out := by
  cases e
  repeat' first
    | with_reducible exact Within.refl _ _
    | with_reducible assumption
    | with_reducible apply State.stage_within (hl := (by decide))
    | with_reducible apply State.loadRefused_within (hl := (by decide))
    | with_reducible apply State.onGlz_within (hl := (by decide))
    | ((with_reducible apply State.put_within 0x401 (hb := (by decide))) <;> first | (rfl; done) | (dsimp only; omega) | (dsimp only [Fld.whole]; omega) | (split <;> first | (rfl; done) | (dsimp only; omega)) | show Within _ _ _)
    | with_reducible refine Within.when ?_ fun _ _ => ?_
    | split
    | dsimp only
    | with_reducible intro _

theorem execLoaderGateCheckDone_within {s out : State} (e : execLoaderGateCheckDone s = .next out) : Within [.regs 0x440, .glz,
    .tiles] s out := by
  cases e
  repeat' first
    | with_reducible exact Within.refl _ _
    | with_reducible assumption
    | with_reducible apply State.onGlz_within (hl := (by decide))
    | with_reducible apply State.serve_within (hl := (by decide))
    | with_reducible refine Within.when ?_ fun _ _ => ?_
    | with_reducible apply Within.ite
    | split
    | dsimp only
    | with_reducible intro _

theorem abortLoadOp_within {lp : List Part} {root s : State} (h : Within lp root s) (hl : ∀ p ∈ ([.regs 0x401, .regs 0x440, .regs
    0x4c0, .glz, .tiles, .pwr] : List Part), p ∈ lp) : Within lp root (abortLoadOp s) := by
  unfold abortLoadOp
  repeat' first
    | with_reducible assumption
    | with_reducible apply State.loadRefused_within (hl := (parts_trans (by decide) hl))
    | with_reducible refine Within.when ?_ fun _ _ => ?_
    | dsimp only
    | with_reducible intro _

theorem execAbortLoad_within {s out : State} (e : execAbortLoad s = .next out) : Within [.regs 0x401, .regs 0x440, .regs 0x4c0,
    .held, .resp, .glz, .tiles, .pwr] s out := by
  cases e
  repeat' first
    | with_reducible exact Within.refl _ _
    | with_reducible assumption
    | with_reducible apply abortLoadOp_within (hl := (by decide))
    | with_reducible apply State.access_within (hl := (by decide))
    | dsimp only
    | with_reducible intro _

theorem discardOp_within {lp : List Part} {root s : State} (h : Within lp root s) (hl : ∀ p ∈ ([.regs 0x400, .regs 0x401, .glz] :
    List Part), p ∈ lp) : Within lp root (discardOp s) := by
  unfold discardOp
  repeat' first
    | with_reducible assumption
    | with_reducible apply State.discardStaged_within (hl := (parts_trans (by decide) hl))
    | with_reducible refine Within.when ?_ fun _ _ => ?_
    | dsimp only
    | with_reducible intro _

theorem execDiscard_within {s out : State} (e : execDiscard s = .next out) : Within [.regs 0x400, .regs 0x401, .held, .resp, .glz] s
    out := by
  cases e
  repeat' first
    | with_reducible exact Within.refl _ _
    | with_reducible assumption
    | with_reducible apply discardOp_within (hl := (by decide))
    | with_reducible apply State.access_within (hl := (by decide))
    | dsimp only
    | with_reducible intro _

theorem fireOp_within {lp : List Part} {root s : State} (h : Within lp root s) (intact : Bool) (hl : ∀ p ∈ ([.regs 0x401, .regs
    0x440, .regs 0x448, .regs 0x470, .regs 0x4e0, .outbox, .glz, .mod, .tiles, .sit, .met, .sag, .con] : List Part), p ∈ lp) :
    Within lp root (fireOp intact s) := by
  unfold fireOp
  repeat' first
    | with_reducible assumption
    | with_reducible apply State.glzRefuse_within (hl := (parts_trans (by decide) hl))
    | with_reducible apply State.onGlz_within (hl := (parts_trans (by decide) hl))
    | with_reducible apply State.raiseStop_within (hl := (parts_trans (by decide) hl))
    | with_reducible apply State.plantRefresh_within (hl := (parts_trans (by decide) hl))
    | with_reducible apply State.cone_within (hl := (parts_trans (by decide) hl))
    | ((with_reducible apply State.put_within 0x401 (hb := (hl _ (by decide)))) <;> first | (rfl; done) | (dsimp only; omega) | (dsimp only [Fld.whole]; omega) | (split <;> first | (rfl; done) | (dsimp only; omega)) | show Within _ _ _)
    | with_reducible refine Within.when ?_ fun _ _ => ?_
    | with_reducible apply Within.ite
    | split
    | dsimp only
    | with_reducible intro _

theorem execFire_within {s out : State} (intact : Bool) (e : execFire intact s = .next out) : Within [.regs 0x401, .regs 0x440,
    .regs 0x448, .regs 0x470, .regs 0x4e0, .held, .resp, .outbox, .glz, .mod, .tiles, .sit, .met, .sag, .con] s out := by
  cases e
  repeat' first
    | with_reducible exact Within.refl _ _
    | with_reducible assumption
    | with_reducible apply fireOp_within (hl := (by decide))
    | with_reducible apply State.access_within (hl := (by decide))
    | dsimp only
    | with_reducible intro _

end Sys2Proof.Machine
end

