-- ==== Sys2Proof/Laws/WithinAccess.lean ====
section
/-!
SUPPORT. The parts of the state that each operation of Machine/Access.lean may change.
-/

namespace Sys2Proof.Machine

open Sys2Proof

set_option linter.all false

theorem glzCtrlOp_within {lp : List Part} {root s : State} (h : Within lp root s) (v : Word) (x : BusFacts) (hl : ∀ p ∈ ([.regs
    0x400, .regs 0x401, .regs 0x440, .regs 0x448, .regs 0x470, .regs 0x4c0, .regs 0x4e0, .outbox, .glz, .mod, .tiles, .sit, .met,
    .sag, .pwr, .con] : List Part), p ∈ lp) : Within lp root (glzCtrlOp v x s) := by
  unfold glzCtrlOp
  repeat' first
    | with_reducible assumption
    | with_reducible apply fireOp_within (hl := (parts_trans (by decide) hl))
    | with_reducible apply discardOp_within (hl := (parts_trans (by decide) hl))
    | with_reducible apply abortLoadOp_within (hl := (parts_trans (by decide) hl))
    | with_reducible apply loadOp_within (hl := (parts_trans (by decide) hl))
    | ((with_reducible apply State.putB_within (bf := 0x401) (mf := (hl _ (by decide)))) <;> first | (rfl; done) | (dsimp only; omega) | (dsimp only [Fld.whole]; omega) | (split <;> first | (rfl; done) | (dsimp only; omega)) | show Within _ _ _)
    | split
    | dsimp only
    | with_reducible intro _

theorem rgSwapOp_within {lp : List Part} {root s : State} (h : Within lp root s) (k : Fin 8) (v : Word) (hl : ∀ p ∈ ([.regs 0x41c,
    .groups] : List Part), p ∈ lp) : Within lp root (rgSwapOp k v s) := by
  unfold rgSwapOp
  repeat' first
    | with_reducible assumption
    | with_reducible apply swapRequestOp_within (hl := (parts_trans (by decide) hl))
    | ((with_reducible apply State.putB_within (bf := 0x41c) (mf := (hl _ (by decide)))) <;> first | (rfl; done) | (dsimp only; omega) | (dsimp only [Fld.whole]; omega) | (split <;> first | (rfl; done) | (dsimp only; omega)) | show Within _ _ _)
    | ((with_reducible apply State.put_within 0x41c (hb := (hl _ (by decide)))) <;> first | (rfl; done) | (dsimp only; omega) | (dsimp only [Fld.whole]; omega) | (split <;> first | (rfl; done) | (dsimp only; omega)) | show Within _ _ _)
    | with_reducible refine Within.when ?_ fun _ _ => ?_
    | with_reducible apply Within.ite
    | split
    | dsimp only
    | with_reducible intro _

theorem islCtrlOp_within {lp : List Part} {root s : State} (h : Within lp root s) (v : Word) (hl : ∀ p ∈ ([.regs 0x422, .isl, .sit]
    : List Part), p ∈ lp) : Within lp root (islCtrlOp v s) := by
  unfold islCtrlOp
  repeat' first
    | with_reducible assumption
    | with_reducible apply islCmdOp_within (hl := (parts_trans (by decide) hl))
    | ((with_reducible apply State.putB_within (bf := 0x422) (mf := (hl _ (by decide)))) <;> first | (rfl; done) | (dsimp only; omega) | (dsimp only [Fld.whole]; omega) | (split <;> first | (rfl; done) | (dsimp only; omega)) | show Within _ _ _)
    | dsimp only
    | with_reducible intro _

theorem dciCtrlOp_within {lp : List Part} {root s : State} (h : Within lp root s) (v : Word) (hl : ∀ p ∈ ([.regs 0x423, .dci] : List
    Part), p ∈ lp) : Within lp root (dciCtrlOp v s) := by
  unfold dciCtrlOp
  repeat' first
    | with_reducible assumption
    | with_reducible apply dciAbortOp_within (hl := (parts_trans (by decide) hl))
    | with_reducible apply dciSweepRequestOp_within (hl := (parts_trans (by decide) hl))
    | with_reducible refine Within.each ?_ fun _ _ _ => ?_
    | with_reducible refine Within.when ?_ fun _ _ => ?_
    | dsimp only
    | with_reducible intro _

theorem modCtrlOp_within {lp : List Part} {root s : State} (h : Within lp root s) (p : Fin 9) (v : Word) (hl : ∀ p ∈ ([.regs 0x430,
    .regs 0x440, .mod, .tiles, .wins] : List Part), p ∈ lp) : Within lp root (modCtrlOp p v s) := by
  unfold modCtrlOp
  repeat' first
    | with_reducible assumption
    | with_reducible apply State.drive_within (hl := (parts_trans (by decide) hl))
    | ((with_reducible apply State.putB_within (bf := 0x430) (mf := (hl _ (by decide)))) <;> first | (rfl; done) | (dsimp only; omega) | (dsimp only [Fld.whole]; omega) | (split <;> first | (rfl; done) | (dsimp only; omega)) | show Within _ _ _)
    | dsimp only
    | with_reducible intro _

theorem setCtrlOp_within {lp : List Part} {root s : State} (h : Within lp root s) (n : Fin 9) (v : Word) (hl : ∀ p ∈ ([.regs 0x440,
    .mod, .tiles] : List Part), p ∈ lp) : Within lp root (setCtrlOp n v s) := by
  unfold setCtrlOp
  repeat' first
    | with_reducible assumption
    | with_reducible apply diagOp_within (hl := (parts_trans (by decide) hl))
    | with_reducible apply disarmOp_within (hl := (parts_trans (by decide) hl))
    | with_reducible apply armOp_within (hl := (parts_trans (by decide) hl))
    | with_reducible apply State.diagStop_within (hl := (parts_trans (by decide) hl))
    | with_reducible refine Within.when ?_ fun _ _ => ?_
    | dsimp only
    | with_reducible intro _

theorem chStatusOp_within {lp : List Part} {root s : State} (h : Within lp root s) (n : Fin 9) (c : Fin 2) (v : Word) (hl : ∀ p ∈
    ([.regs 0x440] : List Part), p ∈ lp) : Within lp root (chStatusOp n c v s) := by
  unfold chStatusOp
  repeat' first
    | with_reducible assumption
    | with_reducible apply supplyUvClearOp_within (hl := (parts_trans (by decide) hl))
    | with_reducible apply bootStopClearOp_within (hl := (parts_trans (by decide) hl))
    | with_reducible apply desatClearOp_within (hl := (parts_trans (by decide) hl))
    | ((with_reducible apply State.put_within 0x440 (hb := (hl _ (by decide)))) <;> first | (rfl; done) | (dsimp only; omega) | (dsimp only [Fld.whole]; omega) | (split <;> first | (rfl; done) | (dsimp only; omega)) | show Within _ _ _)
    | with_reducible refine Within.when ?_ fun _ _ => ?_
    | dsimp only
    | with_reducible intro _

theorem winCtrlOp_within {lp : List Part} {root s : State} (h : Within lp root s) (n : Fin 44) (v : Word) (late : Bool) (hl : ∀ p ∈
    ([.regs 0x440, .regs 0x448, .regs 0x450, .regs 0x470, .regs 0x4e0, .outbox, .mod, .tiles, .wins, .sit, .met, .sag, .con] : List
    Part), p ∈ lp) : Within lp root (winCtrlOp n v late s) := by
  unfold winCtrlOp
  repeat' first
    | with_reducible assumption
    | with_reducible apply shadowOp_within (hl := (parts_trans (by decide) hl))
    | with_reducible apply selftestOp_within (hl := (parts_trans (by decide) hl))
    | with_reducible apply State.selftestRefuse_within (hl := (parts_trans (by decide) hl))
    | ((with_reducible apply State.putB_within (bf := 0x450) (mf := (hl _ (by decide)))) <;> first | (rfl; done) | (dsimp only; omega) | (dsimp only [Fld.whole]; omega) | (split <;> first | (rfl; done) | (dsimp only; omega)) | show Within _ _ _)
    | with_reducible refine Within.when ?_ fun _ _ => ?_
    | with_reducible apply Within.ite
    | split
    | dsimp only
    | with_reducible intro _

theorem sitCtrlOp_within {lp : List Part} {root s : State} (h : Within lp root s) (v : Word) (hl : ∀ p ∈ ([.regs 0x440, .regs 0x448,
    .regs 0x470, .regs 0x4e0, .outbox, .mod, .tiles, .sit, .met, .sag, .con] : List Part), p ∈ lp) : Within lp root (sitCtrlOp v s)
    := by
  unfold sitCtrlOp
  repeat' first
    | with_reducible assumption
    | with_reducible apply clearPlantOp_within (hl := (parts_trans (by decide) hl))
    | with_reducible apply plantStopOp_within (hl := (parts_trans (by decide) hl))
    | with_reducible apply clearStopOp_within (hl := (parts_trans (by decide) hl))
    | with_reducible apply stopOp_within (hl := (parts_trans (by decide) hl))
    | with_reducible refine Within.when ?_ fun _ _ => ?_
    | with_reducible apply Within.ite
    | split
    | dsimp only
    | with_reducible intro _

theorem adcCtrlOp_within {lp : List Part} {root s : State} (h : Within lp root s) (n : Fin 18) (v : Word) (gap : Bool) (hl : ∀ p ∈
    ([.regs 0x460, .adcs, .gx] : List Part), p ∈ lp) : Within lp root (adcCtrlOp n v gap s) := by
  unfold adcCtrlOp
  repeat' first
    | with_reducible assumption
    | with_reducible apply calOp_within (hl := (parts_trans (by decide) hl))
    | with_reducible apply adcStartOp_within (hl := (parts_trans (by decide) hl))
    | with_reducible refine Within.when ?_ fun _ _ => ?_
    | dsimp only
    | with_reducible intro _

theorem pllCtrlOp_within {lp : List Part} {root s : State} (h : Within lp root s) (n : Fin 7) (v : Word) (hl : ∀ p ∈ ([.regs 0x430,
    .regs 0x480, .regs 0x4a0, .clk] : List Part), p ∈ lp) : Within lp root (pllCtrlOp n v s) := by
  unfold pllCtrlOp
  repeat' first
    | with_reducible assumption
    | with_reducible apply pllStepOp_within (hl := (parts_trans (by decide) hl))
    | with_reducible apply pllConfigWriteOp_within (hl := (parts_trans (by decide) hl))
    | with_reducible apply pllEnWriteOp_within (hl := (parts_trans (by decide) hl))
    | with_reducible apply State.clkRefuse_within (hl := (parts_trans (by decide) hl))
    | with_reducible refine Within.when ?_ fun _ _ => ?_
    | with_reducible apply Within.ite
    | split
    | dsimp only
    | with_reducible intro _

theorem laneCtrlOp_within {lp : List Part} {root s : State} (h : Within lp root s) (l : Fin 6) (v : Word) (x : BusFacts) (hl : ∀ p ∈
    ([.regs 0x490, .outbox, .lanes] : List Part), p ∈ lp) : Within lp root (laneCtrlOp l v x s) := by
  unfold laneCtrlOp
  repeat' first
    | with_reducible assumption
    | with_reducible apply rlbReqOp_within (hl := (parts_trans (by decide) hl))
    | with_reducible apply loopWriteOp_within (hl := (parts_trans (by decide) hl))
    | with_reducible apply testExitOp_within (hl := (parts_trans (by decide) hl))
    | with_reducible apply testEnterOp_within (hl := (parts_trans (by decide) hl))
    | with_reducible apply wakeOp_within (hl := (parts_trans (by decide) hl))
    | with_reducible apply State.lanePower_within (hl := (parts_trans (by decide) hl))
    | with_reducible apply retrainOp_within (hl := (parts_trans (by decide) hl))
    | with_reducible refine Within.when ?_ fun _ _ => ?_
    | split
    | dsimp only
    | with_reducible intro _

theorem patOp_within {lp : List Part} {root s : State} (h : Within lp root s) (l : Fin 6) (v : Word) (hl : ∀ p ∈ ([.regs 0x490,
    .free, .lanes] : List Part), p ∈ lp) : Within lp root (patOp l v s) := by
  unfold patOp
  repeat' first
    | with_reducible assumption
    | with_reducible apply injectOp_within (hl := (parts_trans (by decide) hl))
    | with_reducible apply patCfgWriteOp_within (hl := (parts_trans (by decide) hl))
    | with_reducible refine Within.when ?_ fun _ _ => ?_
    | dsimp only
    | with_reducible intro _

theorem plantCtrlOp_within {lp : List Part} {root s : State} (h : Within lp root s) (v : Word) (x : BusFacts) (hl : ∀ p ∈ ([.regs
    0x490, .outbox, .wlk] : List Part), p ∈ lp) : Within lp root (plantCtrlOp v x s) := by
  unfold plantCtrlOp
  repeat' first
    | with_reducible assumption
    | with_reducible apply State.discoverAll_within (hl := (parts_trans (by decide) hl))
    | with_reducible apply ringRestoreOp_within (hl := (parts_trans (by decide) hl))
    | with_reducible refine Within.when ?_ fun _ _ => ?_
    | dsimp only
    | with_reducible intro _

theorem blkCtrlOp_within {lp : List Part} {root s : State} (h : Within lp root s) (v : Word) (hl : ∀ p ∈ ([.regs 0x490, .outbox,
    .wlk] : List Part), p ∈ lp) : Within lp root (blkCtrlOp v s) := by
  unfold blkCtrlOp
  repeat' first
    | with_reducible assumption
    | with_reducible apply blkGoOp_within (hl := (parts_trans (by decide) hl))
    | ((with_reducible apply State.putB_within (bf := 0x490) (mf := (hl _ (by decide)))) <;> first | (rfl; done) | (dsimp only; omega) | (dsimp only [Fld.whole]; omega) | (split <;> first | (rfl; done) | (dsimp only; omega)) | show Within _ _ _)
    | ((with_reducible apply State.put_within 0x490 (hb := (hl _ (by decide)))) <;> first | (rfl; done) | (dsimp only; omega) | (dsimp only [Fld.whole]; omega) | (split <;> first | (rfl; done) | (dsimp only; omega)) | show Within _ _ _)
    | with_reducible apply Within.ite
    | split
    | dsimp only
    | with_reducible intro _

theorem ptpCtrlOp_within {lp : List Part} {root s : State} (h : Within lp root s) (v : Word) (hl : ∀ p ∈ ([.regs 0x490, .regs 0x4a0,
    .groups, .met, .net] : List Part), p ∈ lp) : Within lp root (ptpCtrlOp v s) := by
  unfold ptpCtrlOp
  repeat' first
    | with_reducible assumption
    | with_reducible apply State.ptpSetValid_within (hl := (parts_trans (by decide) hl))
    | with_reducible apply ptpSetOp_within (hl := (parts_trans (by decide) hl))
    | with_reducible refine Within.when ?_ fun _ _ => ?_
    | dsimp only
    | with_reducible intro _

theorem macCfgOp_within {lp : List Part} {root s : State} (h : Within lp root s) (m : Fin 2) (v : Word) (hl : ∀ p ∈ ([.regs 0x4a0,
    .outbox, .net] : List Part), p ∈ lp) : Within lp root (macCfgOp m v s) := by
  unfold macCfgOp
  repeat' first
    | with_reducible assumption
    | with_reducible apply kickOp_within (hl := (parts_trans (by decide) hl))
    | with_reducible apply macEnWriteOp_within (hl := (parts_trans (by decide) hl))
    | with_reducible refine Within.when ?_ fun _ _ => ?_
    | dsimp only
    | with_reducible intro _

theorem macRingOp_within {lp : List Part} {root s : State} (h : Within lp root s) (m r : Fin 2) (v : Word) (hl : ∀ p ∈ ([.regs
    0x4a0] : List Part), p ∈ lp) : Within lp root (macRingOp m r v s) := by
  unfold macRingOp
  repeat' first
    | with_reducible assumption
    | ((with_reducible apply State.put_within 0x4a0 (hb := (hl _ (by decide)))) <;> first | (rfl; done) | (dsimp only; omega) | (dsimp only [Fld.whole]; omega) | (split <;> first | (rfl; done) | (dsimp only; omega)) | show Within _ _ _)
    | with_reducible apply Within.ite
    | split
    | dsimp only
    | with_reducible intro _

theorem lqCmdOp_within {lp : List Part} {root s : State} (h : Within lp root s) (m : Fin 2) (v : Word) (hl : ∀ p ∈ ([.regs 0x4a0,
    .net] : List Part), p ∈ lp) : Within lp root (lqCmdOp m v s) := by
  unfold lqCmdOp
  repeat' first
    | with_reducible assumption
    | with_reducible apply flushOp_within (hl := (parts_trans (by decide) hl))
    | with_reducible apply lqCommitOp_within (hl := (parts_trans (by decide) hl))
    | with_reducible apply Within.ite
    | split
    | dsimp only
    | with_reducible intro _

theorem pugCfgOp_within {lp : List Part} {root s : State} (h : Within lp root s) (v : Word) (hl : ∀ p ∈ ([.regs 0x4b8, .pug] : List
    Part), p ∈ lp) : Within lp root (pugCfgOp v s) := by
  unfold pugCfgOp
  repeat' first
    | with_reducible assumption
    | with_reducible apply State.chargerSet_within (hl := (parts_trans (by decide) hl))
    | ((with_reducible apply State.inc_within (bf := 0x4b8) (mf := (hl _ (by decide)))) <;> first | (rfl; done) | (dsimp only; omega) | (dsimp only [Fld.whole]; omega) | (split <;> first | (rfl; done) | (dsimp only; omega)) | show Within _ _ _)
    | ((with_reducible apply State.putB_within (bf := 0x4b8) (mf := (hl _ (by decide)))) <;> first | (rfl; done) | (dsimp only; omega) | (dsimp only [Fld.whole]; omega) | (split <;> first | (rfl; done) | (dsimp only; omega)) | show Within _ _ _)
    | ((with_reducible apply State.put_within 0x4b8 (hb := (hl _ (by decide)))) <;> first | (rfl; done) | (dsimp only; omega) | (dsimp only [Fld.whole]; omega) | (split <;> first | (rfl; done) | (dsimp only; omega)) | show Within _ _ _)
    | with_reducible refine Within.when ?_ fun _ _ => ?_
    | with_reducible apply Within.ite
    | split
    | dsimp only
    | with_reducible intro _

theorem pwrCtrlOp_within {lp : List Part} {root s : State} (h : Within lp root s) (v : Word) (hl : ∀ p ∈ ([.regs 0x440, .regs 0x448,
    .regs 0x470, .regs 0x4c0, .regs 0x4e0, .outbox, .mod, .tiles, .sit, .met, .sag, .pwr, .con] : List Part), p ∈ lp) : Within lp
    root (pwrCtrlOp v s) := by
  unfold pwrCtrlOp
  repeat' first
    | with_reducible assumption
    | with_reducible apply standbyOp_within (hl := (parts_trans (by decide) hl))
    | with_reducible apply State.orderlyBegin_within (hl := (parts_trans (by decide) hl))
    | with_reducible refine Within.when ?_ fun _ _ => ?_
    | dsimp only
    | with_reducible intro _

theorem grgCmdOp_within {lp : List Part} {root s : State} (h : Within lp root s) (v : Word) (hl : ∀ p ∈ ([.regs 0x4d0, .gx, .grg] :
    List Part), p ∈ lp) : Within lp root (grgCmdOp v s) := by
  unfold grgCmdOp
  repeat' first
    | with_reducible assumption
    | with_reducible apply diagnoseOp_within (hl := (parts_trans (by decide) hl))
    | with_reducible apply retireOp_within (hl := (parts_trans (by decide) hl))
    | with_reducible apply dismissOp_within (hl := (parts_trans (by decide) hl))
    | with_reducible apply commitOp_within (hl := (parts_trans (by decide) hl))
    | with_reducible apply State.grogCmd_within (hl := (parts_trans (by decide) hl))
    | with_reducible apply State.grogRefuse_within (hl := (parts_trans (by decide) hl))
    | with_reducible apply Within.ite
    | split
    | dsimp only
    | with_reducible intro _

theorem conCtrlOp_within {lp : List Part} {root s : State} (h : Within lp root s) (v : Word) (hl : ∀ p ∈ ([.regs 0x4e0, .outbox,
    .con] : List Part), p ∈ lp) : Within lp root (conCtrlOp v s) := by
  unfold conCtrlOp
  repeat' first
    | with_reducible assumption
    | with_reducible apply capRearmOp_within (hl := (parts_trans (by decide) hl))
    | ((with_reducible apply State.releaseBank_within (bheld := 0x4e0) (mheld := (hl _ (by decide))) (hl := (parts_trans (by decide) hl))) <;> first | (rfl; done) | (dsimp only; omega) | (dsimp only [Fld.whole]; omega) | (split <;> first | (rfl; done) | (dsimp only; omega)) | show Within _ _ _)
    | with_reducible apply plantGoOp_within (hl := (parts_trans (by decide) hl))
    | with_reducible apply tmatchArmOp_within (hl := (parts_trans (by decide) hl))
    | with_reducible apply State.cone_within (hl := (parts_trans (by decide) hl))
    | ((with_reducible apply State.putB_within (bf := 0x4e0) (mf := (hl _ (by decide)))) <;> first | (rfl; done) | (dsimp only; omega) | (dsimp only [Fld.whole]; omega) | (split <;> first | (rfl; done) | (dsimp only; omega)) | show Within _ _ _)
    | with_reducible refine Within.when ?_ fun _ _ => ?_
    | dsimp only
    | with_reducible intro _

theorem sagCmdOp_within {lp : List Part} {root s : State} (h : Within lp root s) (v : Word) (x : BusFacts) (hl : ∀ p ∈ ([.regs
    0x400, .regs 0x401, .regs 0x440, .regs 0x448, .regs 0x470, .regs 0x4b0, .regs 0x4b8, .regs 0x4e0, .free, .outbox, .glz, .mod,
    .tiles, .sit, .met, .net, .sag, .pug, .pwr, .con] : List Part), p ∈ lp) : Within lp root (sagCmdOp v x s) := by
  unfold sagCmdOp
  repeat' first
    | with_reducible assumption
    | with_reducible apply svcRequest_within (hl := (parts_trans (by decide) hl))
    | with_reducible apply State.svcStart_within (hl := (parts_trans (by decide) hl))
    | ((with_reducible apply State.put_within 0x4b0 (hb := (hl _ (by decide)))) <;> first | (rfl; done) | (dsimp only; omega) | (dsimp only [Fld.whole]; omega) | (split <;> first | (rfl; done) | (dsimp only; omega)) | show Within _ _ _)
    | with_reducible apply Within.ite
    | split
    | dsimp only
    | with_reducible intro _

theorem execJtagIdcode_within {s out : State} (e : execJtagIdcode s = .next out) : Within [.resp] s out := by
  cases e
  repeat' first
    | with_reducible exact Within.refl _ _
    | with_reducible assumption
    | with_reducible apply State.respond_within (hl := (by decide))
    | dsimp only
    | with_reducible intro _

theorem execCanFrameReceived_within {s out : State} (i : Fin 2) (b : Fin 64) (id ctl : Word) (data : Vector Word 16)
    (e : execCanFrameReceived i b id ctl data s = .next out) : Within [.regs 0x4a1] s out := by
  have hf : ∀ (l : List Nat) (base : Nat) (v : Nat → DWord) (m : List (Nat × DWord)),
      (∀ j ∈ l, (base + 4 * j) / 0x100000 = 0x4a1) → ∀ a, a / 0x100000 ≠ 0x4a1 →
      cellGet (l.foldl (fun m j => cellPut m (base + 4 * j) (v j)) m) a = cellGet m a := by
    intro l base v
    induction l with
    | nil => exact fun _ _ _ _ => rfl
    | cons c l ih =>
      intro m hc a ha
      rw [List.foldl_cons, ih _ (fun d hd => hc d (List.mem_cons_of_mem _ hd)) a ha]
      exact cellGet_put_ne _ _ _ _ fun e => ha (e ▸ hc c (List.mem_cons_self ..))
  cases e
  refine Within.when (Within.refl _ _) fun u k => State.put_within 0x4a1 ?_ (by dsimp only; omega) (by decide)
  refine State.withRegs_within k _ 0x4a1 (by decide) fun a ha => hf _ _ _ _ (fun j hj => ?_) a ha
  have := List.mem_range.mp hj
  omega

end Sys2Proof.Machine
end

