-- ==== Sys2Proof/Laws/WithinTick.lean ====
section
/-!
SUPPORT. The parts of the state that each operation of Machine/Tick.lean may change.
-/

namespace Sys2Proof.Machine

open Sys2Proof

set_option linter.all false

theorem State.tickHost_within {lp : List Part} {root s : State} (h : Within lp root s) (hl : ∀ p ∈ ([.ports] : List Part), p ∈ lp) :
    Within lp root (State.tickHost s) := by
  unfold State.tickHost
  repeat' first
    | with_reducible assumption
    | with_reducible apply State.withPorts_within (hl := (parts_trans (by decide) hl))
    | with_reducible refine Within.when ?_ fun _ _ => ?_
    | dsimp only
    | with_reducible intro _

theorem State.tickMod_within {lp : List Part} {root s : State} (h : Within lp root s) (hl : ∀ p ∈ ([.regs 0x430, .mod] : List Part),
    p ∈ lp) : Within lp root (State.tickMod s) := by
  unfold State.tickMod
  repeat' first
    | with_reducible assumption
    | ((with_reducible apply State.put_within 0x430 (hb := (hl _ (by decide)))) <;> first | (rfl; done) | (dsimp only; omega) | (dsimp only [Fld.whole]; omega) | (split <;> first | (rfl; done) | (dsimp only; omega)) | show Within _ _ _)
    | with_reducible apply State.withMod_within (hl := (parts_trans (by decide) hl))
    | with_reducible refine Within.each ?_ fun _ _ _ => ?_
    | with_reducible refine Within.when ?_ fun _ _ => ?_
    | with_reducible apply Within.ite
    | split
    | dsimp only
    | with_reducible intro _

theorem State.tickWheel_within {lp : List Part} {root s : State} (h : Within lp root s) (hl : ∀ p ∈ ([.gsus, .isl] : List Part), p ∈
    lp) : Within lp root (State.tickWheel s) := by
  unfold State.tickWheel
  repeat' first
    | with_reducible assumption
    | with_reducible apply State.islAdvance_within (hl := (parts_trans (by decide) hl))
    | with_reducible apply State.gsuAdvance_within (hl := (parts_trans (by decide) hl))
    | with_reducible refine Within.when ?_ fun _ _ => ?_
    | dsimp only
    | with_reducible intro _

theorem State.tickNet_within {lp : List Part} {root s : State} (h : Within lp root s) (hl : ∀ p ∈ ([.regs 0x4a1, .net] : List Part),
    p ∈ lp) : Within lp root (State.tickNet s) := by
  unfold State.tickNet
  repeat' first
    | with_reducible assumption
    | with_reducible apply State.tickMacs_within (hl := (parts_trans (by decide) hl))
    | with_reducible apply State.ptpAdvance_within (hl := (parts_trans (by decide) hl))
    | with_reducible refine Within.when ?_ fun _ _ => ?_
    | dsimp only
    | with_reducible intro _

theorem State.tickAdc_within {lp : List Part} {root s : State} (h : Within lp root s) (hl : ∀ p ∈ ([.regs 0x460] : List Part), p ∈
    lp) : Within lp root (State.tickAdc s) := by
  unfold State.tickAdc
  repeat' first
    | with_reducible assumption
    | ((with_reducible apply State.put_within 0x460 (hb := (hl _ (by decide)))) <;> first | (rfl; done) | (dsimp only; omega) | (dsimp only [Fld.whole]; omega) | (split <;> first | (rfl; done) | (dsimp only; omega)) | show Within _ _ _)
    | with_reducible refine Within.each ?_ fun _ _ _ => ?_
    | with_reducible refine Within.when ?_ fun _ _ => ?_
    | dsimp only
    | with_reducible intro _

theorem State.tickVaux_within {lp : List Part} {root s : State} (h : Within lp root s) (hl : ∀ p ∈ ([.regs 0x4c0, .pwr] : List
    Part), p ∈ lp) : Within lp root (State.tickVaux s) := by
  unfold State.tickVaux
  repeat' first
    | with_reducible assumption
    | ((with_reducible apply State.put_within 0x4c0 (hb := (hl _ (by decide)))) <;> first | (rfl; done) | (dsimp only; omega) | (dsimp only [Fld.whole]; omega) | (split <;> first | (rfl; done) | (dsimp only; omega)) | show Within _ _ _)
    | with_reducible apply State.withPwr_within (hl := (parts_trans (by decide) hl))
    | with_reducible refine Within.when ?_ fun _ _ => ?_
    | dsimp only
    | with_reducible intro _

theorem State.tickTrim_within {lp : List Part} {root s : State} (h : Within lp root s) (hl : ∀ p ∈ ([.tiles] : List Part), p ∈ lp) :
    Within lp root (State.tickTrim s) := by
  unfold State.tickTrim
  repeat' first
    | with_reducible assumption
    | with_reducible apply State.onChan_within (hl := (parts_trans (by decide) hl))
    | with_reducible refine Within.each ?_ fun _ _ _ => ?_
    | dsimp only
    | with_reducible intro _

theorem State.tickRest_within {lp : List Part} {root s : State} (h : Within lp root s) (hl : ∀ p ∈ ([.regs 0x470, .regs 0x490,
    .free, .outbox, .met, .lanes, .pug, .con] : List Part), p ∈ lp) : Within lp root (State.tickRest s) := by
  unfold State.tickRest
  repeat' first
    | with_reducible assumption
    | with_reducible apply State.drainJournal_within (hl := (parts_trans (by decide) hl))
    | with_reducible apply State.tickLane_within (hl := (parts_trans (by decide) hl))
    | with_reducible apply State.withCon_within (hl := (parts_trans (by decide) hl))
    | with_reducible apply State.withPug_within (hl := (parts_trans (by decide) hl))
    | with_reducible apply State.withOutbox_within (hl := (parts_trans (by decide) hl))
    | with_reducible refine Within.each ?_ fun _ _ _ => ?_
    | with_reducible apply Within.ite
    | split
    | dsimp only
    | with_reducible intro _

theorem State.tick_within {lp : List Part} {root s : State} (h : Within lp root s) (hl : ∀ p ∈ ([.regs 0x430, .regs 0x460, .regs
    0x470, .regs 0x490, .regs 0x4a1, .regs 0x4a2, .regs 0x4c0, .free, .outbox, .gsus, .isl, .mod, .tiles, .met, .lanes, .net, .pug,
    .pwr, .con, .ports] : List Part), p ∈ lp) : Within lp root (State.tick s) := by
  unfold State.tick
  repeat' first
    | with_reducible assumption
    | with_reducible apply State.tickRest_within (hl := (parts_trans (by decide) hl))
    | with_reducible apply State.tickTrim_within (hl := (parts_trans (by decide) hl))
    | with_reducible apply State.tickVaux_within (hl := (parts_trans (by decide) hl))
    | with_reducible apply State.tickAdc_within (hl := (parts_trans (by decide) hl))
    | with_reducible apply State.tickNet_within (hl := (parts_trans (by decide) hl))
    | with_reducible apply State.tickWheel_within (hl := (parts_trans (by decide) hl))
    | with_reducible apply State.tickMod_within (hl := (parts_trans (by decide) hl))
    | with_reducible apply State.tickHost_within (hl := (parts_trans (by decide) hl))
    | with_reducible apply State.tickUarts_within (hl := (parts_trans (by decide) hl))
    | dsimp only
    | with_reducible intro _

end Sys2Proof.Machine
end

