-- ==== Sys2Proof/Machine/Fetch.lean ====
section
/-!
DEFINITION. The instruction a Wheel is at: the word of its program store at its program counter, decoded (R45, R74 to R83).
-/

namespace Sys2Proof.Machine

open Sys2Proof

/-- The word at the program counter of Wheel `w` (R45). -/
def State.programWord (s : State) (w : Fin 64) : DWord := cellGet s.prog (512 * w.val + s.wheels[w].pc)

/-- The instruction that Wheel `w` issues next: the one its program holds at its program counter; none while it issues nothing or the word
is no instruction. The sender gives it as a command; the block does not send it to itself. (DESIGN CHOICE, log entry 115.) -/
def State.nextInstr (s : State) (w : Fin 64) : Option Instr :=
  if s.wheels[w].issues then decodeWheel w (s.programWord w) else none

end Sys2Proof.Machine
end

