-- ==== Sys2Proof/Tests/Slice0.lean ====
section
/-!
SUPPORT. Tests. First the checks of `Instr.wf`, each with an ill-formed command that it refuses; then single steps whose results are worked
out by hand from the rules named; then, for every statement with hypotheses, states and operands that meet them, clause by clause.
-/

namespace Sys2Proof.Machine

open Sys2Proof

-- One theorem at a time: each `decide +kernel` waits for the kernel, and each waiting thread takes its own stack.
set_option Elab.async false

/-! ### States to start from -/

/-- A Glaze is in force (phase 0x3) and every island is out of reset. -/
def base : State :=
  ({ State.reset with
     clk := Vector.replicate 7 { everLocked := true }, pwr := { State.reset.pwr with hostUp := true, saggarUp := true } }).put
    SYS_STATE_PHASE 3

/-- `base` with these register fields. -/
def b (l : List (Fld × Nat)) : State := l.foldl (fun s e => s.put e.1 e.2) base

/-- A manager. -/
def mgr (l : List (Fld × Nat)) : State := b ((SYS_ROLE_ROLE, 1) :: l)

/-- A numbered worker. -/
def wkr (l : List (Fld × Nat)) : State := b ((SYS_ROLE_ROLE, 2) :: (SYS_ROLE_WORKER_NO, 1) :: l)

/-- A Wheel of group 0 that runs in a sample. -/
def run0 : Wheel := { live := true, decl := { group := some 0 } }

/-- Wheel 0 is `x`. -/
def wh (x : Wheel) (l : List (Fld × Nat)) : State := { b l with wheels := base.wheels.set 0 x }

/-- Rate group `k` is `g`; Wheel 0 belongs to it and is as `run0`; source `src`. -/
def grp (k : Fin 8) (g : Group) (src : Nat) (l : List (Fld × Nat)) : State :=
  { wh { run0 with decl := { group := some k.val } } ((RGS_RG_CFG_SRC k, src) :: l) with groups := base.groups.set k g }

/-- A sweep of leg 0 that ramps. -/
def sw : Sweep := { leg := 0, win := 0, vs := 0, phold := 0, link := 0, down := false, ref := 0 }

/-- The pair of DC leg 0 of class 0 drives tile 8, which is armed. -/
def armed0 : List (Fld × Nat) := [(MOD_ROUTE_USED 6, 1), (MOD_ROUTE_TILE 6, 8), (SET_STATUS_ARMED 8, 1)]

/-- Pair 0, with a bootstrap, drives tile 8. -/
def route8 : List (Fld × Nat) := [(MOD_ROUTE_USED 0, 1), (MOD_ROUTE_TILE 0, 8), (MOD_REFRESH_BOOT 0, 1)]

/-- Modulator pair `p` is `x`. -/
def pr (p : Fin 9) (x : Pair) (l : List (Fld × Nat)) : State := { b l with mod := { base.mod with pairs := base.mod.pairs.set p x } }

/-- What `State.takes` says, as a Bool. -/
def takesB (s : State) (c : Instr) : Bool :=
  match accessOf c with
  | none => true
  | some (x, h) => s.up .host && s.get PWR_STATUS_STANDBY == 0 && s.up x && (h.isNone || s.phase != 5)

theorem takes_iff (s : State) (c : Instr) : s.takes c ↔ takesB s c = true := by
  unfold takesB State.takes; rcases accessOf c with _ | ⟨x, _ | d⟩ <;> simp [and_assoc]

/-- The state meets the condition. -/
abbrev meets (s : State) (p : State → Prop) : Prop := p s

/-- What `State.lifeAllows` says, as a Bool. -/
def lifeB (s : State) (id : Nat) : Bool :=
  !s.sag.error && ((s.sag.lifecycle == 1 && [0x01, 0x02, 0x03, 0x04, 0x10, 0x30, 0x21].contains id) || (s.sag.lifecycle == 2 && id != 0x10) ||
    (s.sag.lifecycle == 3 && id == 0x01))

theorem life_iff (s : State) (id : Nat) : s.lifeAllows id ↔ lifeB s id = true := by
  simp [State.lifeAllows, lifeB, or_assoc]

/-- What `State.ownerSigns` says, as a Bool. -/
def signsB (s : State) (k : Option (BitVec 480)) (id : Nat) (args : List Byte) (g : HssSig) : Bool :=
  match s.sag.nonce, k with
  | some n, some key => hssOk key (s.authMessage id n args) g
  | _, _ => false

theorem signs_iff (s : State) (k : Option (BitVec 480)) (id : Nat) (args : List Byte) (g : HssSig) :
    s.ownerSigns k id args g ↔ signsB s k id args g = true := by
  unfold State.ownerSigns signsB
  rcases s.sag.nonce with _ | n <;> rcases k with _ | key <;> simp

/-- What `State.authority` says, as a Bool. -/
def authB (s : State) (r : SvcReq) : Bool :=
  match r with
  | .enroll fw glz svc okek g => keyOk fw && keyOk glz && signsB s (some svc) 0x10 (enrollArgs fw glz svc okek) g
  | .rotate k v wrap g => s.rotateOk k v wrap && signsB s s.sag.keySvc 0x11 (byteList 1 (keyNo k) ++ byteList 60 v.toNat) g
  | .release g => signsB s s.sag.keySvc 0x12 [] g
  | .debugUnlock two g => signsB s s.sag.keySvc 0x20 (byteList 1 (if two then 2 else 1)) g
  | .totalsReset g => signsB s s.sag.keySvc 0x22 [] g
  | .tamperCfg temp volt clk hi g => signsB s s.sag.keySvc 0x23 (tamperArgs temp volt clk hi) g
  | .zeroise g => signsB s s.sag.keySvc 0x24 [] g
  | _ => true

theorem auth_iff (s : State) (r : SvcReq) : s.authority r ↔ authB s r = true := by
  cases r <;> simp [State.authority, authB, signs_iff, and_assoc]

/-- What `State.admits` says, as a Bool. -/
def admitsB (s : State) (i : Instr) : Bool :=
  match serviceOf i with
  | none => false
  | some r => takesB s i && s.get SAG_RESULT_BUSY == 0 && (s.get SAG_STATUS_LOCKED == 0 || svcId r == 1) && lifeB s (svcId r) &&
      decide (svcLen r ≤ 8192)

theorem admits_iff (s : State) (i : Instr) : s.admits i ↔ admitsB s i = true := by
  unfold admitsB State.admits
  rcases serviceOf i with _ | r <;> simp [takes_iff, life_iff, and_assoc]

/-- What `State.serves` says, as a Bool. -/
def servesB (s : State) (i : Instr) : Bool := admitsB s i && (serviceOf i).all (authB s)

theorem serves_iff (s : State) (i : Instr) : s.serves i ↔ servesB s i = true := by
  unfold servesB State.serves
  rcases h : serviceOf i with _ | r <;> simp [admits_iff, auth_iff]

/-- Comparator `n` is `x`. -/
def win (n : Fin 44) (x : WinUnit) (l : List (Fld × Nat)) : State := { b l with wins := base.wins.set n x }

/-- A public key of one level, LMS_SHA256_M32_H5 with LMOTS_SHA256_N32_W4 (RFC 8554). -/
def key1 : BitVec 480 := BitVec.ofNat 480 (2 ^ 448 + 5 * 2 ^ 416 + 3 * 2 ^ 384)

/-- The owner's signature under `key1` of a request with nonce 0. -/
def sg (s : State) (id : Nat) (args : List Byte) : HssSig := { key := key1, types := [(5, 3)], covers := s.authMessage id 0 args }

/-- The alias of the WLK lanes. -/
def laneAlias : AliasBlock := ⟨0x49010000, 0x49000000, 0x1000, 6, 6⟩

/-- `base` with PLL6 never locked: lanes 3 to 5 are in reset. -/
def lanesHalf : State := { base with clk := base.clk.set 6 {} }

/-- An image of a standalone block that sets nothing: its ten required sections, empty. -/
def okImage : GlazeImage :=
  { sectionCount := 10, imageLen := 0x400, totalLen := 0x404, sections := requiredSections.map fun t => ⟨t, 1, 0x200, 0, 0⟩ }

/-- What a ROTATE to `key1` signs (R343). -/
def rotArgs (k : KeySlot) : List Byte := byteList 1 (keyNo k) ++ byteList 60 key1.toNat

/-- An owned Saggar with a nonce outstanding, an OKEK and one CAK with its KEK 9 and ICK 10. -/
def own : SagState :=
  { base.sag with lifecycle := 2, nonce := some 0, okek := some 1, keyFw := some key1, keyGlz := some key1, keySvc := some key1,
                  caks := [(1, 3, [5], 7)], derived := [(1, 3, 9, 10)] }

/-- A Glaze whose image sets these fields and has these sections. -/
def gl (f : List FieldSet) (c : List SectionEntry) : Glaze := ⟨{ fields := f, sections := c }, {}, 0, 0⟩

/-- The correlation of one tick at every tone: voltage 1 + j, current 1. -/
def corr1 : Vector ToneSum 4 := Vector.replicate 4 ⟨2 ^ 245, 2 ^ 245, 2 ^ 245, 0⟩

/-- The unit of kind 3 with this index owns these slots. -/
def owned (index : Nat) (l : List Nat) : List (Fld × Nat) := l.flatMap fun k => [(RGS_OWNER_KIND k, 3), (RGS_OWNER_INDEX k, index)]

/-- The SHA-256 of "abc", as FIPS 180-4's example gives it. -/
def shaAbc : Nat := 0xBA7816BF8F01CFEA414140DE5DAE2223B00361A396177A9CB410FF61F20015AD

/-- An image of this magic and version, laid out as R31 and R338 say, whose content is "abc". -/
def imageBytes (magic version : Nat) : List Byte :=
  (leBytes 4 magic ++ leBytes 2 1 ++ leBytes 2 0x80 ++ leBytes 4 0x83 ++ leBytes 4 0x7180 ++ leBytes 4 3 ++ leBytes 4 0 ++
    leBytes 4 version ++ leBytes 4 0 ++ beBytes 32 shaAbc ++ List.replicate 64 0 ++ [0x61, 0x62, 0x63]).map (BitVec.ofNat 8)

/-- A slot with that image, its signature under `key1` and the signature's length. -/
def slotFile (magic version : Nat) : FwFile :=
  let g : HssSig := { key := key1, types := [(5, 3)], covers := { head := imageBytes magic version } }
  { bytes := imageBytes magic version ++ (leBytes 4 (hssLen g)).map (BitVec.ofNat 8), sig := g }

/-- A PAUSE frame of this many quanta, up to its FCS: 802.3x. -/
def pauseFrame (q : Nat) : List Byte :=
  ([0x01, 0x80, 0xC2, 0, 0, 1, 2, 0, 0, 0, 0, 1, 0x88, 0x08, 0, 1] ++ beBytes 2 q ++ List.replicate 46 0).map (BitVec.ofNat 8)

/-- A firmware image of this version. -/
def fwFile (version : Nat) : FwFile := slotFile 0x57464753 version

/-- The result of the Saggar's reading of an image is good. -/
def goodSlot (i : FwSlot) : Bool := i.readOk && i.formatOk && i.signatureOk

/-! ### Ill-formed commands are refused -/

theorem test_wf_access_widths : Instr.wf (.registerWrite 0x40100008 0 4 {}) = true ∧ Instr.wf (.registerWrite 0x40100008 0 3 {}) = false ∧
    Instr.wf (.registerReadClear 0x40100008 0) = false ∧ Instr.wf (.busErrorAccess true 0 0 5) = false := by decide

theorem test_wf_alias_addresses : Instr.wf (.aliasWrite 0x41400000 0 4) = true ∧ Instr.wf (.aliasWrite 0x413FFFFF 0 4) = false ∧
    Instr.wf (.aliasWrite 0x41400000 0 7) = false ∧ Instr.wf (.aliasRead 0x41490000 4) = false ∧ Instr.wf (.aliasRead 0x41400000 6) = false := by
  decide

theorem test_wf_wheel_operands : Instr.wf (.crot 0 0 3 1 2) = false ∧ Instr.wf (.crotv 0 0 5 1 2 3) = false ∧
    Instr.wf (.cvec 0 0 63 1 2) = false ∧ Instr.wf (.cvec 0 0 62 1 2) = true ∧ Instr.wf (.bq 0 0 1 0 2 1020) = false ∧
    Instr.wf (.bq 0 0 1 0 2 1019) = true ∧ Instr.wf (.loop 0 0 none 0 5) = false := by decide

theorem test_wf_measurements : Instr.wf (.selftestDone 0 4096 0) = false ∧ Instr.wf (.selftestDone 0 0 4096) = false ∧
    Instr.wf (.delayMeasured 0 0 4096 0) = false ∧ Instr.wf (.delayMeasured 0 0 0 4096) = false ∧
    Instr.wf (.segmentMeasure 0 0 0 65536 false) = false := by decide

theorem test_wf_times_and_causes : Instr.wf (.coneFrame true (2 ^ 34, 0)) = false ∧ Instr.wf (.coneFrame true (0, 1000000000)) = false ∧
    Instr.wf (.timeFrame true 0 1000000000 0 true) = false ∧ Instr.wf (.resetModule 0) = false ∧ Instr.wf (.rwfWrite 0x40100002 0) = false := by
  decide

/-! ### Single steps -/

/-- The next state's value of `f`, if `exec` of the command answers a next state. -/
def after {α : Type} (c : Instr) (s : State) (f : State → α) : Option α :=
  match exec c s with
  | .next t => some (f t)
  | _ => none

/-- Wheel 0 with X1 and X2, runs `c`; X3 and the flags. -/
def wheelRun (c : Instr) (x1 x2 : Word) : Option (Word × Nat) :=
  after c (wh { run0 with x := [(1, x1), (2, x2)] } []) fun t => (t.wheels[(0 : Fin 64)].xr 3, t.wheels[(0 : Fin 64)].flags)

/-- R83: IADD wraps. -/
theorem test_iadd_wraps : wheelRun (.iadd 0 0 3 1 (.reg 2)) 0xFFFFFFFF 2 = some (1, 0) := by decide +kernel

/-- R83: a shift takes the low five bits of B. -/
theorem test_shl_by_33 : wheelRun (.shl 0 0 3 1 (.reg 2)) 1 33 = some (2, 0) := by decide +kernel

theorem test_sar_keeps_the_sign : wheelRun (.sar 0 0 3 1 (.imm 4)) 0x80000000 0 = some (0xF8000000, 0) := by decide +kernel

/-- R85: QADD saturates and sets QS (bit 4 of R71's list as GETF lays it out). -/
theorem test_qadd_saturates : wheelRun (.qadd 0 0 3 1 (.reg 2)) 0x7FFFFFFF 1 = some (0x7FFFFFFF, flagQS) := by decide +kernel

/-- R85: −1 times −1 in Q31 is just beyond the largest value. -/
theorem test_qmul_of_minus_one : wheelRun (.qmul 0 0 3 1 (.reg 2)) 0x80000000 0x80000000 = some (0x7FFFFFFF, flagQS) := by decide +kernel

/-- R85: QABS of the most negative number saturates. -/
theorem test_qabs_of_the_least : wheelRun (.qabs 0 0 3 1) 0x80000000 0 = some (0x7FFFFFFF, flagQS) := by decide +kernel

/-- R84: 1.5 + 2.25 = 3.75. -/
theorem test_fadd : wheelRun (.fadd 0 0 3 1 (.reg 2)) 0x3FC00000 0x40100000 = some (0x40700000, 0) := by decide +kernel

/-- R84: a subtraction whose result is subnormal gives zero. -/
theorem test_fsub_flushes : (wheelRun (.fsub 0 0 3 1 (.reg 2)) 0x00800001 0x00800000).map (·.1) = some 0 := by decide +kernel

/-- R84: 1 ÷ 0 is an infinity with DZ. -/
theorem test_fdiv_by_zero : wheelRun (.fdiv 0 0 3 1 2) 0xBF800000 0 = some (0xFF800000, flagDZ) := by decide +kernel

/-- R86: F2I of −2.5, to nearest even. -/
theorem test_f2i_rounds_to_even : (wheelRun (.f2i 0 0 3 1) 0xC0200000 0).map (·.1) = some 0xFFFFFFFE := by decide +kernel

/-- R86: F2U of a negative number saturates to 0. -/
theorem test_f2u_of_a_negative : (wheelRun (.f2u 0 0 3 1) 0xC0200000 0).map (·.1) = some 0 := by decide +kernel

/-- R73: with a false predicate nothing is written and one cycle passes. -/
theorem test_false_predicate : after (.mov 0 1 3 (.imm 7)) (wh run0 []) (fun t => (t.wheels[(0 : Fin 64)].xr 3, t.wheels[(0 : Fin 64)].cyc)) =
    some (0, 1) := by decide +kernel

/-- R53: STS stores for the end of the sample; the slot is unchanged until then. -/
theorem test_sts_waits_for_the_end : after (.sts 0 0 1 { base := 9 }) (wh { run0 with x := [(1, 5)] } [(RGS_OWNER_KIND 9, 1)])
    (fun t => (t.slot 9, t.groups[(0 : Fin 8)].stores)) = some (0, [(9, 5)]) := by decide +kernel

/-- R80: LOOP with three trips enters its body with two left. -/
theorem test_loop_enters : after (.loop 0 0 none 3 8) (wh run0 []) (fun t => (t.wheels[(0 : Fin 64)].pc, t.wheels[(0 : Fin 64)].loops)) =
    some (1, [⟨1, 8, 2⟩]) := by decide +kernel

/-- R76: the three worked encodings. -/
theorem test_worked_encodings : decodeWheel 0 0x2A00445400000000 = some (.fdiv 0 0 17 5 16) ∧
    decodeWheel 0 0x820014003F800000 = some (.mov 0 0 5 (.imm 0x3F800000)) ∧
    decodeWheel 0 0x23C0106284000000 = some (.fma 0 12 4 6 10 4) := by decide +kernel

/-- R74: a word with a bit in a field that must be zero spells no instruction. -/
theorem test_nonzero_field : decodeWheel 0 0x2A0C445400000000 = none ∧ decodeWheel 0 0x2A00445400000001 = none := by decide +kernel

/-- R45, R73: the Wheel is at the word that stands at its program counter. -/
theorem test_next_instruction :
    ({ wh { run0 with pc := 3 } [] with prog := [(3, 0x2A00445400000000)] } : State).nextInstr 0 = some (.fdiv 0 0 17 5 16) := by
  decide +kernel

/-- R280: the bits 00 01 11 10 10. -/
theorem test_precoding : grayIndices [false, false, false, true, true, true, true, false, true, false] = [0, 1, 2, 3, 3] ∧
    precode 0 [0, 1, 2, 3, 3] = [0, 1, 1, 2, 1] ∧ unprecode 0 [0, 1, 1, 2, 1] = [0, 1, 2, 3, 3] := by decide

/-- FIPS 180-4's first example. -/
theorem test_sha256 : sha256 [0x61, 0x62, 0x63] = shaAbc := by decide +kernel

/-- R31, R35: the header of an image in system SRAM, at SRC_ADDR. -/
theorem test_load_from_sram :
    let s : State := { b [(GLZ_CTRL_SRC_SEL, 1), (GLZ_SRC_ADDR_ADDR, 1), (GLZ_LEN_LEN, 0x83)] with
      sram := { cells := (imageBytes 0x375A4C47 7).zipIdx.map fun e => (16 + e.2, e.1) } }
    let g := s.imageFrom {}
    g.magic = 0x375A4C47 ∧ g.version = 7 ∧ g.imageLen = 0x83 ∧ g.shaOk = true ∧ g.zeroTail = true ∧ g.readOk = true := by decide +kernel

/-- R11: JTAG IDCODE. -/
theorem test_idcode : after .jtagIdcode State.reset (·.resp.value) = some 0x17180A6B := by decide +kernel

/-- R41: an access of a block that a firing changes waits for its end. -/
theorem test_access_waits : after (.cal 3) (b [(SYS_STATE_PHASE, 5)]) (·.held) = some [.cal 3] := by decide +kernel

/-- R403: an access to an island in reset ends in a bus error. -/
theorem test_bus_error : after (.cal 3) { State.reset with pwr := { State.reset.pwr with hostUp := true } } (·.resp.err) = some true := by
  decide +kernel

/-- R223: STOP latches FIRMWARE as the first cause. -/
theorem test_stop : after (.stop false) base (fun t => (t.get SIT_STATUS_BLOCK_STOP, t.get SIT_FIRST_CODE, t.get SIT_CAUSE_CAUSE)) =
    some (1, 0, 1) := by decide +kernel

/-- R226: CLEAR_STOP while a latched cause is active is refused whole. -/
theorem test_clear_stop_refused : after .clearStop (b [(SIT_CAUSE_CAUSE, 0x8001), (SIT_STATUS_BLOCK_STOP, 1), (PWR_STATUS_PF, 1)])
    (fun t => (t.get SIT_CAUSE_CAUSE, t.get SIT_STATUS_BLOCK_STOP, t.get SIT_REFUSED_COUNT)) = some (0x8001, 1, 1) := by decide +kernel

/-- R368: the power-fail threshold lies between 20 and 144. -/
theorem test_pf_warn : after (.pfWarnWrite 145) base (fun t => t.get PWR_REFUSED_COUNT) = some 1 ∧
    after (.pfWarnWrite 144) base (fun t => t.get PWR_PF_WARN_THR) = some 144 := by decide +kernel

/-- R359: VAUX above its ratings stops the model by name. -/
theorem test_vaux_high : (match exec (.vauxHigh true) State.reset with | .fault f => some f | _ => none) = some .outsideRatings := by
  decide +kernel

/-- R274: PLL_STEP beyond ±4 is refused. -/
theorem test_pll_step : after (.pllStep 0 5) (b [(CLK_PLL_STATUS_ON 0, 1)]) (fun t => t.get CLK_REFUSED_COUNT) = some 1 := by decide +kernel

/-- R330: a frame of less than 60 bytes is refused by the launch queue. -/
theorem test_launch_length : after (.lqCommit 0 0x003B0000) base (fun t => (t.get (MAC_LQ_STATUS_REFUSED 0), t.net.macs[(0 : Fin 2)].lq.length)) =
    some (1, 0) := by decide +kernel

/-- R354: the ZEROISE service ends the ownership and destroys the device secret. -/
theorem test_zeroise : after (.zeroise (sg base 0x24 [])) { base with sag := own } (fun t => (t.sag.lifecycle, t.sag.okek, t.sag.devKey)) =
    some (3, none, false) := by decide +kernel

/-- A command waits behind the one before it: two steps run both, in their order. -/
theorem test_queue_order : (match step { base with pending := [.vauxInvalid, .deratedSet] } with | .next t => t.pending | _ => []) =
    [.deratedSet] := by decide +kernel


/-! ### States and operands that meet the premises of the statements -/

theorem witness_FirmwareAccessNeedsItsIsland :
    (accessOf (.cal 0) = some (.sense, some (.cal 0)) ∧ State.reset.up .host = false) ∧
    (meets (b [(PWR_STATUS_STANDBY, 1)]) fun s => s.up .host = true ∧ s.get PWR_STATUS_STANDBY = 1) ∧
    (meets ({ State.reset with pwr := { State.reset.pwr with hostUp := true } }) fun s => s.up .host = true ∧
      s.get PWR_STATUS_STANDBY = 0 ∧ s.up .sense = false) ∧
    (meets (b [(SYS_STATE_PHASE, 5)]) fun s => s.up .host = true ∧ s.get PWR_STATUS_STANDBY = 0 ∧ s.up .sense = true ∧ s.phase = 5) := by
  refine ⟨?_, ?_, ?_, ?_⟩ <;> decide +kernel

theorem witness_EmptyQueueLetsTimePass :
    (base.pending = []) := by
  decide +kernel

theorem witness_SamplesOfARateGroup :
    (meets (grp 0 { trig := 1 } 1 []) fun s => s.fired = true ∧ s.up .wheel = true ∧ s.enabled 0 = true ∧ s.get (RGS_RG_CFG_SRC 0) = 1 ∧
      s.groups[(0 : Fin 8)].trig ≠ 0) ∧
    (meets ({ grp 7 {} 4 [(CLK_PLL_STATUS_ON 3, 1), (RGS_RG_PERIOD_PERIOD 7, 80)] with net := { base.net with ptp := { ns := 1 } } }) fun s =>
      s.fired = true ∧ s.up .wheel = true ∧ s.enabled 7 = true ∧ s.get (RGS_RG_CFG_SRC 7) = 4 ∧ s.ptpDue 7 = true ∧
      s.groups[(7 : Fin 8)].trig = 0) ∧
    (meets ({ b [(CLK_PLL_STATUS_ON 3, 1), (RGS_RG_CFG_SRC 7, 4), (RGS_RG_PERIOD_PERIOD 7, 80)] with net := { base.net with ptp := { ns := 1 } } }) fun s =>
      s.get (RGS_RG_CFG_SRC 7) = 4 ∧ s.ptpDue 7 = true ∧ ¬(s.enabled 7 = true) ∧ s.get (RGS_RG_CFG_SRC 0) ≠ 4) ∧
    (meets ({ grp 7 {} 4 [(CLK_PLL_STATUS_ON 3, 1), (RGS_RG_PERIOD_PERIOD 7, 80)] with net := { base.net with ptp := {} } }) fun s =>
      s.get (RGS_RG_CFG_SRC 7) = 4 ∧ s.ptpDue 7 = false) ∧
    (meets base fun s => ¬(s.enabled 0 = true) ∧ s.get (RGS_RG_STATUS_RUNNING 0) ≠ 1) ∧
    (meets (grp 0 { trig := 1, swap := some ⟨1, false, false⟩ } 1 [(RGS_RG_STATUS_RUNNING 0, 1)]) fun s => s.fired = true ∧
      s.enabled 0 = true ∧ s.groups[(0 : Fin 8)].trig ≠ 0 ∧ s.get (RGS_RG_CFG_SRC 0) ≠ 3 ∧ s.get (RGS_RG_STATUS_RUNNING 0) = 1 ∧
      (0 : Fin 64) ∈ s.members 0 ∧ (∀ w ∈ s.members 0, s.wheels[w].ended = false)) ∧
    (meets (grp 7 { stores := [(4095, 1)] } 1 [(RGS_RG_STATUS_RUNNING 7, 1), (RGS_RG_STATUS_CONSEC 7, 2), (RGS_SUPV_K_MISS, 3)]) fun s =>
      s.get (RGS_RG_STATUS_RUNNING 7) = 1 ∧ s.get (RGS_RG_STATUS_CONSEC 7) + 1 = s.get RGS_SUPV_K_MISS ∧ s.up .mod = true) ∧
    (meets ({ grp 0 { stores := [(4095, 1)] } 1 [(RGS_RG_STATUS_RUNNING 0, 1)] with wheels := base.wheels.set 0 { run0 with ended := true } }) fun s =>
      s.get (RGS_RG_STATUS_RUNNING 0) = 1 ∧ (∀ w ∈ s.members 0, s.wheels[w].ended = true) ∧ s.groups[(0 : Fin 8)].unguarded = true ∧
      (s.groups[(0 : Fin 8)].stores.all fun e => e.1 < 4096)) := by
  refine ⟨?_, ?_, ?_, ?_, ?_, ?_, ?_, ?_⟩ <;> decide +kernel

theorem witness_FabricAccessesAndMemoryErrors :
    (meets (b [(RGS_OWNER_KIND 4095, 5)]) fun s => s.takes (.slotWrite 4095 1) ∧ s.get (RGS_OWNER_KIND 4095) = 5) ∧
    (meets base fun s => s.takes (.slotWrite 0 1) ∧ s.get (RGS_OWNER_KIND 0) ≠ 5) ∧
    (meets (grp 0 {} 1 []) fun s => s.takes (.coefBankWrite 0 0 1023 1) ∧ s.coefRefused 0 0 1023 = true) ∧
    (meets (grp 0 {} 1 []) fun s => s.takes (.coefBankWrite 0 1 1023 1) ∧ s.coefRefused 0 1 1023 = false) ∧
    (meets base fun s => s.takes (.swapRequest 7 1 true) ∧ s.groups[(7 : Fin 8)].swap = none) ∧
    (meets (grp 0 { swap := some ⟨1, false, true⟩ } 1 []) fun s => s.takes (.swapRequest 0 0 false) ∧
      s.groups[(0 : Fin 8)].swap = some ⟨1, false, true⟩) ∧
    (meets (grp 0 { swap := some ⟨1, true, false⟩ } 1 []) fun s => s.takes (.swapRequest 0 1 false) ∧
      s.groups[(0 : Fin 8)].swap = some ⟨1, true, false⟩) ∧
    (meets base fun s => s.takes (.istateWrite 63 3 1) ∧ s.fired = true) ∧
    (meets (b [(SYS_STATE_PHASE, 1)]) fun s => s.takes (.istateWrite 0 0 1) ∧ s.fired = false) ∧
    (meets base fun s => s.takes .mboxRead ∧ s.takes (.mboxThreshWrite 64)) ∧
    (meets ({ grp 7 {} 1 [(RGS_RG_STATUS_RUNNING 7, 1)] with met := { base.met with entriesOpen := true } }) fun s =>
      s.met.entriesOpen = true ∧ s.crossing < 64 ∧ s.wheels[(0 : Fin 64)].decl.group = some 7 ∧ s.wheels[(0 : Fin 64)].live = true ∧
      s.wheels[(0 : Fin 64)].ended = false ∧ s.get (RGS_RG_STATUS_RUNNING 7) = 1) ∧
    (meets (grp 0 {} 1 []) fun s => s.wheels[(0 : Fin 64)].decl.group = some 0 ∧ s.get (RGS_RG_STATUS_RUNNING 0) = 0 ∧
      s.wheels[(63 : Fin 64)].decl.group = none ∧ s.grg.errs = []) := by
  simp only [meets, takes_iff]
  refine ⟨?_, ?_, ?_, ?_, ?_, ?_, ?_, ?_, ?_, ?_, ?_, ?_⟩ <;> decide +kernel

theorem witness_FalsePredicateOnlyTakesTime :
    (wheelIssue (.fdiv 0 1 2 3 4) = some (0, 1, 8) ∧ wheelIssue (.ldf 0 15 2 { base := 5 }) = some (0, 15, 1)) ∧
    (meets (wh run0 []) fun s => s.wheels[(0 : Fin 64)].issues = true ∧ s.wheels[(0 : Fin 64)].cond 1 = false ∧
      s.wheels[(0 : Fin 64)].cond 15 = false ∧ s.wheels[(63 : Fin 64)].issues = false) := by
  refine ⟨?_, ?_⟩ <;> decide +kernel

theorem witness_IntegerInstructionResults :
    (meets (wh run0 []) fun s => s.wheels[(0 : Fin 64)].runs 0 = true ∧ s.wheels[(0 : Fin 64)].runs 5 = true) := by
  decide +kernel

theorem witness_FloatInstructionResults :
    (meets (wh run0 []) fun s => s.wheels[(0 : Fin 64)].runs 0 = true ∧ s.wheels[(0 : Fin 64)].runs 14 = true) := by
  decide +kernel

theorem witness_FloatFormatRules :
    (F32.of (fsub 0x7F800000 0x7F800000).1 = .nan ∧ (fadd 0x80000000 0).1.toNat / 2 ^ 23 % 256 = 0) ∧
    (F32.of 0x3F800000 = .fin false (2 ^ 149) ∧ F32.of 0x80000000 = .fin true 0 ∧ F32.of 0 = .fin false 0) ∧
    (F32.of 0x7FC00000 = .nan ∧ F32.of 1 ≠ .nan) := by
  refine ⟨?_, ?_, ?_⟩ <;> decide +kernel

theorem witness_CompareInstructionResults :
    (meets (wh { run0 with preds := 15 } []) fun s => s.wheels[(0 : Fin 64)].runs 4 = true) := by
  decide +kernel

theorem witness_MoveAndLoadResults :
    (meets (wh run0 []) fun s => s.wheels[(0 : Fin 64)].runs 0 = true) := by
  decide +kernel

theorem witness_FreshReadResults :
    (meets (wh run0 []) fun s => s.wheels[(0 : Fin 64)].runs 0 = true ∧ s.governing 0 4095 = none) ∧
    (meets (grp 0 { starts := [⟨3, some 4095, 0, true⟩] } 1 [(RGS_OWNER_KIND 4095, 2), (RGS_OWNER_INDEX 4095, 3)]) fun s =>
      s.wheels[(0 : Fin 64)].runs 0 = true ∧ s.governing 0 4095 = some ⟨3, some 4095, 0, true⟩) ∧
    (meets (grp 0 { starts := [⟨3, some 4095, 0, false⟩] } 1 [(RGS_OWNER_KIND 4095, 2), (RGS_OWNER_INDEX 4095, 3)]) fun s =>
      s.wheels[(0 : Fin 64)].runs 0 = true ∧ s.governing 0 4095 = some ⟨3, some 4095, 0, false⟩) ∧
    (meets ({ grp 0 { starts := [⟨3, some 4095, 0, true⟩] } 1 [] with wheels := base.wheels.set 0 { run0 with wait := some ⟨63, 4095, 3, 0⟩ } }) fun s =>
      s.wheels[(0 : Fin 64)].wait = some ⟨63, 4095, 3, 0⟩ ∧ s.waitRec 0 ⟨63, 4095, 3, 0⟩ = some ⟨3, some 4095, 0, true⟩) ∧
    (meets ({ grp 0 { starts := [⟨3, some 4095, 0, false⟩] } 1 [] with wheels := base.wheels.set 0 { run0 with wait := some ⟨63, 4095, 3, 0⟩ } }) fun s =>
      s.wheels[(0 : Fin 64)].wait = some ⟨63, 4095, 3, 0⟩ ∧ s.waitRec 0 ⟨63, 4095, 3, 0⟩ = some ⟨3, some 4095, 0, false⟩) := by
  refine ⟨?_, ?_, ?_, ?_, ?_⟩ <;> decide +kernel

theorem witness_StoreAndControlResults :
    (meets (wh run0 [(RGS_OWNER_KIND 4095, 1), (RGS_OWNER_INDEX 4095, 0)]) fun s => s.wheels[(0 : Fin 64)].runs 0 = true ∧
      s.get (RGS_OWNER_KIND 4095) = 1 ∧ s.get (RGS_OWNER_INDEX 4095) = (s.groupOf 0).val ∧ s.fab.mbox.length < 64) ∧
    (meets (wh run0 [(RGS_OWNER_KIND 4095, 1), (RGS_OWNER_INDEX 4095, 7)]) fun s => s.wheels[(0 : Fin 64)].runs 0 = true ∧
      s.get (RGS_OWNER_INDEX 4095) ≠ (s.groupOf 0).val) ∧
    (meets ({ wh run0 [] with fab := { mbox := List.replicate 64 (0, 0, 0, 0) } }) fun s => s.wheels[(0 : Fin 64)].runs 0 = true ∧
      64 ≤ s.fab.mbox.length) ∧
    (meets (wh run0 [(ADC_GROUP_MODE 15, 1)]) fun s => s.wheels[(0 : Fin 64)].runs 0 = true ∧
      (0x8000 : BitVec 16).toNat.testBit 15 = true ∧ s.adcListens 15 (s.groupOf 0) = true) ∧
    (meets (wh { run0 with x := [(1, 5)] } []) fun s => s.wheels[(0 : Fin 64)].runs 0 = true ∧
      min (3 : BitVec 8).toNat (s.wheels[(0 : Fin 64)].xr 1).toNat ≠ 0 ∧ min (3 : BitVec 8).toNat (s.wheels[(0 : Fin 64)].xr 2).toNat = 0) := by
  refine ⟨?_, ?_, ?_, ?_, ?_⟩ <;> decide +kernel

theorem witness_UnitInstructionResults :
    (meets (wh run0 []) fun s => s.wheels[(0 : Fin 64)].runs 0 = true) := by
  decide +kernel

theorem witness_ConverterConversions :
    (meets (b [(ADC_GROUP_MODE 15, 1)]) fun s => s.takes (.adcStart 15 false) ∧ s.fired = true ∧ s.get (ADC_GROUP_MODE 15) ≠ 0 ∧
      s.get (ADC_STATUS_CAL_STATE 15) ≠ 1 ∧ s.sarBusy 15 (s.sampleNow 15) = false) ∧
    (meets ({ b [(ADC_GROUP_MODE 15, 2), (ADC_STATUS_BUSY 15, 1)] with adcs := base.adcs.set 15 { conv := [⟨7, false, false, none, 0⟩] } }) fun s =>
      s.takes (.adcStart 15 true) ∧ s.takes (.adcStart 15 false) ∧ s.fired = true ∧ s.get (ADC_GROUP_MODE 15) ≠ 0 ∧
      s.get (ADC_STATUS_CAL_STATE 15) ≠ 1 ∧ s.sarBusy 15 (s.sampleNow 15) = true) ∧
    (meets base fun s => s.takes (.adcStart 16 true) ∧ s.takes (.adcStart 0 true) ∧ s.get (ADC_GROUP_MODE 0) = 0) ∧
    (meets ({ base with adcs := base.adcs.set 15 { conv := [⟨7, true, true, none, 0⟩, ⟨0, false, false, none, 0⟩] } }) fun s =>
      s.adcs[core18 15].conv = [⟨7, true, true, none, 0⟩, ⟨0, false, false, none, 0⟩] ∧ s.adcs[core18 0].conv = []) ∧
    (meets ({ grp 0 { starts := [⟨0, some 4095, 7, false⟩] } 1 [] with adcs := base.adcs.set 0 { conv := [⟨0, true, false, some 7, 0⟩] } }) fun s =>
      s.adcs[core18 0].conv = [⟨0, true, false, some 7, 0⟩] ∧ s.get (ADC_GROUP_MODE 0) ≠ 2 ∧ s.get (ADC_STATUS_FALLBACK 0) ≠ 1 ∧
      (⟨0, some 4095, 7, false⟩ : StartRec) ∈ s.groups[Fin.ofNat 8 (s.get (ADC_GROUP_RG 0))].starts) ∧
    (meets ({ b [(ADC_GROUP_MODE 0, 2)] with adcs := base.adcs.set 0 { conv := [⟨0, false, false, none, 0⟩] } }) fun s =>
      s.adcs[core18 0].conv = [⟨0, false, false, none, 0⟩] ∧ s.fired = true ∧ s.get (ADC_GROUP_MODE 0) = 2 ∧ s.get (ADC_STATUS_CAL_STATE 0) ≠ 1) ∧
    (meets ({ b [(ADC_GROUP_MODE 15, 1)] with adcs := base.adcs.set 15 { conv := [⟨7, true, false, some 0, 0⟩] } }) fun s => s.fired = true ∧ s.up .sense = true ∧
      s.get (ADC_GROUP_MODE 15) = 1 ∧ s.get (ADC_STATUS_FALLBACK 15) = 0 ∧ s.adcs[core18 15].conv ≠ [] ∧ s.get (ADC_GROUP_MODE 0) ≠ 1) ∧
    (meets (b [(ADC_GROUP_MODE 15, 1)]) fun s => s.fired = true ∧ s.up .sense = true ∧ s.get (ADC_GROUP_MODE 15) = 1 ∧ s.get (ADC_STATUS_FALLBACK 15) = 0 ∧
      s.adcs[core18 15].conv = [] ∧ s.get (ADC_STATUS_CAL_STATE 15) ≠ 1) ∧
    (meets (b [(ADC_GROUP_MODE 15, 1), (ADC_STATUS_CAL_STATE 15, 1)]) fun s => s.get (ADC_GROUP_MODE 15) = 1 ∧
      s.get (ADC_STATUS_FALLBACK 15) = 0 ∧ s.adcs[core18 15].conv = [] ∧ s.get (ADC_STATUS_CAL_STATE 15) = 1 ∧
      s.adcs[core18 15].calLive = false) := by
  simp only [meets, takes_iff]
  refine ⟨?_, ?_, ?_, ?_, ?_, ?_, ?_, ?_, ?_⟩ <;> decide +kernel

theorem witness_ConverterCalibration :
    (meets (b [(ADC_STATUS_CAL_STATE 15, 1)]) fun s => s.takes (.cal 15) ∧ s.get (ADC_STATUS_CAL_STATE 15) = 1 ∧
      s.adcs[(15 : Fin 18)].calEnded = false ∧ s.adcs[(15 : Fin 18)].taking = none ∧ s.adcs[(15 : Fin 18)].calLive = false) ∧
    (meets base fun s => s.takes (.cal 0) ∧ s.get (ADC_STATUS_CAL_STATE 0) ≠ 1 ∧ s.adcInUse 0 = false ∧ s.takes (.cal 17) ∧
      s.gxFree 1 = true ∧ factorsOk {} = true ∧ factorsOk { ofs := 100000 } = false) ∧
    (meets ({ b [(ADC_GROUP_MODE 15, 2)] with gx := Vector.replicate 2 (.twin 3) }) fun s => s.takes (.cal 15) ∧
      s.get (ADC_STATUS_CAL_STATE 15) ≠ 1 ∧ s.adcInUse 15 = true ∧ s.takeGx = none ∧ s.gxFree 0 = false) ∧
    (meets (b [(ADC_GROUP_MODE 0, 2)]) fun s => s.takes (.cal 0) ∧ s.adcInUse 0 = true ∧ s.takeGx = some 0) ∧
    (meets ({ base with adcs := base.adcs.set 15 { taking := some 1 } }) fun s => s.adcs[core18 15].taking = some (1 : Fin 2).val ∧
      s.adcs[core18 15].calLive = false ∧ s.gx[(1 : Fin 2)] = .free ∧ s.get (ADC_STATUS_CAL_STATE 17) ≠ 1 ∧
      s.adcs[core18 0].taking = none) ∧
    (meets ({ b [(ADC_STATUS_CAL_STATE 17, 1)] with adcs := base.adcs.set 15 { taking := some 1 } }) fun s =>
      s.adcs[core18 15].taking = some (1 : Fin 2).val ∧ s.adcs[core18 15].calLive = false ∧ s.gx[(1 : Fin 2)] = .free ∧
      s.get (ADC_STATUS_CAL_STATE 17) = 1) ∧
    (meets ({ base with adcs := base.adcs.set 15 { taking := some 1 }, gx := Vector.replicate 2 (.cal 3) }) fun s =>
      s.adcs[core18 15].taking = some (1 : Fin 2).val ∧ s.adcs[core18 15].calLive = false ∧ s.gx[(1 : Fin 2)] ≠ .free) ∧
    (meets ({ base with adcs := base.adcs.set 15 { taking := some 1, calLive := true }, gx := Vector.replicate 2 (.cal 15) }) fun s =>
      s.adcs[core18 15].taking = some (1 : Fin 2).val ∧ s.adcs[core18 15].calLive = true) ∧
    (meets ({ b [(ADC_STATUS_CAL_STATE 0, 1)] with adcs := base.adcs.set 0 { calLive := true } }) fun s =>
      s.get (ADC_STATUS_CAL_STATE 0) = 1 ∧ s.adcs[(0 : Fin 18)].calEnded = false ∧ s.adcs[(0 : Fin 18)].taking = none ∧
      s.adcs[(0 : Fin 18)].calLive = true) ∧
    (meets ({ base with adcs := base.adcs.set 15 { calLive := true, calEnded := true } }) fun s => s.adcs[core18 15].calLive = true ∧
      s.adcs[core18 15].calEnded = true ∧ s.adcs[core18 0].calLive = false) ∧
    (meets (b [(SYS_STATE_PHASE, 2)]) fun s => s.takes .calAll ∧ s.phase = 2) ∧
    (meets base fun s => s.takes .calAll ∧ s.phase ≠ 1 ∧ s.phase ≠ 2) := by
  simp only [meets, takes_iff]
  refine ⟨?_, ?_, ?_, ?_, ?_, ?_, ?_, ?_, ?_, ?_, ?_, ?_⟩ <;> decide +kernel

theorem witness_GridSynchronisation :
    (meets ({ base with gsus := base.gsus.set 3 { due := true } }) fun s => s.gsus[(3 : Fin 4)].due = true ∧
      s.gsus[(0 : Fin 4)].due = false) ∧
    (meets (b [(GSU_CFG_EN 3, 1), (GSU_CFG_ANG_EN 3, 1)]) fun s => s.fired = true ∧ s.up .wheel = true ∧ s.get (GSU_CFG_EN 3) = 1 ∧
      s.get (GSU_CFG_ANG_EN 3) = 1 ∧ s.get (GSU_CFG_EN 0) ≠ 1) ∧
    (meets ({ base with gsus := base.gsus.set 0 { errOk := true } }) fun s => s.gsus[(0 : Fin 4)].errOk = true ∧
      s.get (GSU_STATUS_COAST 0) = 0 ∧ s.gsus[(3 : Fin 4)].errOk = false) ∧
    (meets ({ base with gsus := base.gsus.set 0 { out := [0, 0, 0, 0x3F800000] } }) fun s => s.get (GSU_STATUS_WRONG_SEQ 0) = 0 ∧
      flt (gsuOut s.gsus[(0 : Fin 4)] 2) (gsuOut s.gsus[(0 : Fin 4)] 3) = true ∧ fge (gsuOut s.gsus[(0 : Fin 4)] 3) 1 2 = true ∧
      flt (gsuOut s.gsus[(3 : Fin 4)] 2) (gsuOut s.gsus[(3 : Fin 4)] 3) = false) ∧
    (meets ({ b [(GSU_STATUS_WRONG_SEQ 0, 1), (GSU_STATUS_WRONG_SEQ 3, 1)] with gsus := base.gsus.set 0 { out := [0, 0, 0x3F800000, 0] } }) fun s =>
      s.get (GSU_STATUS_WRONG_SEQ 0) = 1 ∧ flt (gsuOut s.gsus[(0 : Fin 4)] 3) (gsuOut s.gsus[(0 : Fin 4)] 2) = true ∧
      s.get (GSU_STATUS_WRONG_SEQ 3) = 1 ∧ flt (gsuOut s.gsus[(3 : Fin 4)] 3) (gsuOut s.gsus[(3 : Fin 4)] 2) = false) ∧
    (meets ({ b [(GSU_STATUS_MISS_N 1, 1), (GSU_THR_MN_THR 0, 10), (GSU_THR_MN_THR 1, 10)] with gsus := Vector.replicate 4 { out := [0, 0, 0x3F800000, 0, 0x3F800000] } }) fun s =>
      s.get (GSU_STATUS_MISS_N 0) = 0 ∧ s.missN 0 = true ∧ s.get (GSU_STATUS_MISS_N 1) = 1 ∧ s.missN 1 = true) ∧
    (meets (b [(GSU_STATUS_MISS_N 1, 1)]) fun s => s.get (GSU_STATUS_MISS_N 0) = 0 ∧ s.missN 0 = false ∧ s.get (GSU_STATUS_MISS_N 1) = 1 ∧
      s.missN 1 = false) := by
  refine ⟨?_, ?_, ?_, ?_, ?_, ?_, ?_⟩ <;> decide +kernel

theorem witness_RideThrough :
    (meets (b [(RTS_CFG_EN, 1)]) fun s => s.fired = true ∧ s.up .wheel = true ∧ s.get RTS_CFG_EN = 1 ∧ s.ceasing s.rtsRegion.1 = false ∧ s.rtsRegion.1 ≠ 4 ∧
      s.rtsMove 3 = s.rts.curves[(3 : Fin 4)].band) ∧
    (meets ({ b [(RTS_CFG_EN, 1)] with rts := { curves := base.rts.curves.set 0 { tripped := true, running := true, band := 1 } } }) fun s =>
      s.rtsRegion.1 = 4) ∧
    (meets ({ b [(RTS_CFG_EN, 1)] with rts := { curves := base.rts.curves.set 3 { entry := List.replicate 16 2 } } }) fun s =>
      s.rtsMove 3 ≠ s.rts.curves[(3 : Fin 4)].band) ∧
    (meets ({ b [(RTS_CFG_EN, 1), (RTS_PT_TIME_TIME 0 0, 5)] with rts := { curves := base.rts.curves.set 0 { running := true, band := 1, excTicks := 100 } } }) fun s =>
      s.rts.curves[(0 : Fin 4)].running = true ∧ s.rts.curves[(0 : Fin 4)].band ≠ 0 ∧ s.rts.curves[(0 : Fin 4)].tripped = false ∧
      s.get (RTS_PT_TIME_TIME 0 0) ≠ 0x3FFFFF ∧ 20 * s.get (RTS_PT_TIME_TIME 0 0) ≤ s.rts.curves[(0 : Fin 4)].excTicks ∧
      (∀ d : Fin 4, s.get (RTS_PT_TIME_REGION d (s.rts.curves[d].band - 1)) ≤ 4) ∧ s.get RTS_STATE_REGION ≠ 4 ∧ s.up .mod = true) ∧
    (meets base fun s => s.get RTS_CFG_EN ≠ 1 ∧ s.rts.curves[(0 : Fin 4)].running = false ∧ s.takes .clearTrip ∧
      (∀ c : Fin 4, s.rtsBand c false = 0)) ∧
    (meets (b [(RTS_NPTS_UV, 1), (RTS_PT_LEVEL_LEVEL 0 0, 0x3F000000)]) fun s => s.takes .clearTrip ∧
      (∃ c : Fin 4, s.rtsBand c false ≠ 0)) := by
  simp only [meets, takes_iff]
  refine ⟨?_, ?_, ?_, ?_, ?_, ?_⟩ <;> decide +kernel

theorem witness_IslandingDetection :
    (meets ({ b [(ISL_CFG_EN, 1), (ISL_PASS_ACTION 2, 1), (ISL_PASS_THR 2, 10), (ISL_PASS_ACTION 0, 0)] with isl := { dHist := [0x3F800000, 0] } }) fun s =>
      s.islOn = true ∧ s.passAbove 2 = true ∧
      s.get (ISL_PASS_ACTION 2) = 1 ∧ s.get (ISL_PASS_ACTION 0) ≠ 1 ∧ s.get (ISL_PASS_ACTION 0) ≠ 2) ∧
    (meets ({ b [(ISL_CFG_EN, 1), (ISL_PASS_ACTION 2, 2)] with isl := { dHist := [0x3F800000, 0] } }) fun s => s.islOn = true ∧
      s.passAbove 2 = true ∧ s.get (ISL_PASS_ACTION 2) = 2 ∧ s.get RTS_STATE_EXC = 0 ∧ s.get ISL_MODE_DET = 0) ∧
    (meets ({ b [(ISL_CFG_EN, 1), (ISL_PASS_ACTION 2, 2), (ISL_MODE_DET, 1)] with isl := { dHist := [0x3F800000, 0] } }) fun s =>
      s.islOn = true ∧ s.passAbove 2 = true ∧ s.get (ISL_PASS_ACTION 2) = 2 ∧ s.get RTS_STATE_EXC = 0 ∧ s.get ISL_MODE_DET = 1) ∧
    (meets (b (owned 2 (List.range 13))) fun s => s.get ISL_OUTSLOT_BASE = 0 ∧ s.owns 2 1 = true ∧ s.owns 2 13 = false) ∧
    (meets (b [(ISL_CFG_EN, 1), (ISL_CFG_ACT_EN, 1)]) fun s => s.islOn = true ∧ s.get ISL_CFG_ACT_EN = 1 ∧ s.actSusp = false ∧
      s.isl.pulse = none) ∧
    (meets ({ b [(ISL_ACT2_DF_THR, 10), (ISL_ACT2_DV_THR, 10)] with isl := { pulse := some ⟨true, 20, 0, 0⟩ } }) fun s =>
      s.isl.pulse = some ⟨true, 20, 0, 0⟩ ∧ s.actSusp = false ∧ s.pulseSig ⟨true, 20, 0, 0⟩ = none) ∧
    (meets ({ b [(ISL_MODE_STATE, 1)] with isl := { pulse := some ⟨true, 20, 0, 0⟩ } }) fun s => s.isl.pulse.isSome = true ∧
      s.actSusp = true) ∧
    (meets ({ b [(ISL_ACT2_DF_THR, 10), (ISL_ACT_CONFIRM, 2)] with isl := { pulse := some ⟨false, 20, 0x3F800000, 0⟩ } }) fun s =>
      s.actSusp = false ∧ s.pulseSig ⟨false, 20, 0x3F800000, 0⟩ = some true ∧ 1 < s.get ISL_ACT_CONFIRM) ∧
    (meets ({ b [(ISL_ACT2_DF_THR, 10), (ISL_ACT_CONFIRM, 2)] with isl := { pulse := some ⟨true, 20, 0x3F800000, 0⟩, count := 1, sig := false } }) fun s =>
      s.pulseSig ⟨true, 20, 0x3F800000, 0⟩ = some false ∧ s.isl.count ≠ 0 ∧ s.isl.sig = false ∧ s.get ISL_ACT_CONFIRM ≤ s.isl.count + 1) ∧
    (meets base fun s => ¬(s.islOn = true) ∧ s.isl.pulse = none ∧ s.isl.retune = none ∧ s.isl.deferCnt = none) ∧
    (meets (b [(ISL_CFG_EN, 1), (ISL_CFG_EST_EN, 1), (ISL_TONE_AMP 3, 1)]) fun s => s.islOn = true ∧ s.estInjects = true ∧
      s.get SIT_STATUS_BLOCK_STOP = 0 ∧ (∃ k : Fin 4, s.get (ISL_TONE_AMP k) ≠ 0)) ∧
    (meets (b [(ISL_CFG_EN, 1)]) fun s => s.islOn = true ∧ s.estInjects = false ∧ s.get ISL_CFG_EST_EN = 0) ∧
    (meets ({ b [(ISL_CFG_EN, 1), (ISL_CFG_EST_EN, 1), (ISL_TONE_AMP 0, 1), (ISL_TONE_FREQ 0, 175), (MET_RATED_I_I, 0x41200000), (ISL_EST_TW, 2)] with isl := { corrN := 1 } }) fun s =>
      s.islOn = true ∧ s.get ISL_CFG_EST_EN = 1 ∧ s.estMine (3 * s.estTw) = true ∧ s.tones = [0] ∧ s.isl.spoilt = false ∧
      s.actSusp = false ∧ s.estPulse (3 * s.estTw) = false ∧
      flt (fmag (s.toneMeas 0).ir (s.toneMeas 0).ii) (fmul 0x3F000000 (s.toneAmp 0)).1 = true) ∧
    (meets ({ b [(ISL_CFG_EN, 1), (ISL_CFG_EST_EN, 1), (ISL_TONE_AMP 0, 1), (ISL_TONE_FREQ 0, 175), (ISL_EST_SPREAD, 50), (ISL_EST_NSLOT, 2), (ISL_EST_MYSLOT, 1)] with isl := { corr := corr1, corrN := 1 } }) fun s =>
      s.islOn = true ∧ s.isl.spoilt = false ∧ s.estMine (1 * s.estTw) = true ∧ s.estMine (2 * s.estTw) = false ∧ s.tones = [0] ∧
      s.actSusp = false ∧ s.estPulse (1 * s.estTw) = false ∧
      flt (fmag (s.toneMeas 0).ir (s.toneMeas 0).ii) (fmul 0x3F000000 (s.toneAmp 0)).1 = false ∧
      F32.of (s.toneZ 0 (s.toneMeas 0)).1 ≠ .nan ∧ F32.of (s.toneZ 0 (s.toneMeas 0)).2 ≠ .nan ∧
      flt 0 (fmean [(s.toneZ 0 (s.toneMeas 0)).1]) = true ∧
      flt (fmul (fratio (s.get ISL_EST_SPREAD : Nat) 100) (fmean [(s.toneZ 0 (s.toneMeas 0)).1])).1
        (fabs (fsub (s.toneZ 0 (s.toneMeas 0)).1 (fmean [(s.toneZ 0 (s.toneMeas 0)).1])).1) = false) ∧
    (meets (b [(ISL_CFG_EN, 1), (ISL_CFG_EST_EN, 1), (ISL_CFG_ACT_EN, 1), (ISL_ACT_WIDTH, 10), (ISL_EST_TW, 2)]) fun s => s.islOn = true ∧
      s.estPulse (0 * s.estTw) = true ∧ s.estInjects = false) ∧
    (meets ({ base with isl := { retune := some ⟨[1, 2, 3, 4, 5], 0, 1⟩ } }) fun s => s.isl.retune = some ⟨[1, 2, 3, 4, 5], 0, 1⟩ ∧
      s.notchFree = true) ∧
    (meets ({ grp 0 { swap := some ⟨1, false, false⟩ } 1 [] with isl := { retune := some ⟨[], 0, 1⟩ } }) fun s =>
      s.isl.retune = some ⟨[], 0, 1⟩ ∧ s.notchFree = false) ∧
    (meets ({ base with isl := { retune := some ⟨[1, 2, 3, 4, 5], 0, 3⟩ } }) fun s => s.isl.retune = some ⟨[1, 2, 3, 4, 5], 0, 3⟩) ∧
    (meets ({ b [(ISL_CFG_EN, 1), (ISL_XFER_DEFER_MAX, 5)] with isl := { deferCnt := some 4 } }) fun s => s.isl.deferCnt = some 4 ∧
      4 < s.get ISL_XFER_DEFER_MAX) ∧
    (meets ({ b [(ISL_CFG_EN, 1), (ISL_XFER_DEFER_MAX, 5), (ISL_CFG_ACTION, 1)] with isl := { deferCnt := some 5 } }) fun s =>
      s.islOn = true ∧ s.isl.deferCnt = some 5 ∧ s.get ISL_XFER_DEFER_MAX ≤ 5 ∧ s.get ISL_CFG_ACTION = 1 ∧ s.up .mod = true) ∧
    (meets ({ b [(ISL_CFG_EN, 1), (ISL_CFG_ACTION, 2), (ISL_CTRL_AUTO, 1), (ISL_XFER_DEFER_MAX, 5)] with isl := { deferCnt := some 5 } }) fun s =>
      s.get ISL_CFG_ACTION = 2 ∧ s.get ISL_CTRL_AUTO = 1 ∧ s.islMode = 0 ∧ s.presetsWait = false) ∧
    (meets ({ b [(ISL_CFG_EN, 1), (ISL_CFG_ACTION, 0), (ISL_XFER_DEFER_MAX, 5)] with isl := { deferCnt := some 5 } }) fun s =>
      s.islOn = true ∧ s.get ISL_CFG_ACTION = 0 ∧ s.get ISL_XFER_DEFER_MAX ≤ 5) := by
  refine ⟨?_, ?_, ?_, ?_, ?_, ?_, ?_, ?_, ?_, ?_, ?_, ?_, ?_, ?_, ?_, ?_, ?_, ?_, ?_, ?_, ?_, ?_⟩ <;> decide +kernel

theorem witness_ModeTransfer :
    (meets (b [(SYS_STATE_PHASE, 1)]) fun s => s.takes .toGfm ∧ s.takes .toGfl ∧ s.takes .resync ∧ s.fired = false) ∧
    (meets ({ base with isl := { armed := [15] } }) fun s => s.takes .resync ∧ s.fired = true ∧ s.presetsWait = true) ∧
    (meets base fun s => s.takes .toGfm ∧ s.takes .toGfl ∧ s.takes .presetL2 ∧ s.takes .presetL3 ∧ s.fired = true ∧
      s.presetsWait = false ∧ s.islMode = 0 ∧ s.isl.cmd = none ∧ s.islOn = false ∧ s.syncConds = false) ∧
    (meets (b [(ISL_MODE_STATE, 1)]) fun s => s.takes .resync ∧ s.presetsWait = false ∧ s.islMode = 1) ∧
    (meets (b [(ISL_MODE_STATE, 2)]) fun s => s.takes .toGfl ∧ s.presetsWait = false ∧ s.islMode = 2) ∧
    (meets (b [(ISL_MODE_STATE, 3), (ISL_CFG_EN, 1)]) fun s => s.takes .toGfm ∧ s.presetsWait = false ∧ s.islMode = 3 ∧ s.islOn = true ∧
      s.syncConds = true) ∧
    (meets (b [(ISL_PASS_ACTION 0, 2), (ISL_PASS_THR 0, 0), (ISL_PASS_ACTION 2, 0)]) fun s => s.takes .clearDet ∧ s.detectAbove = true) ∧
    (meets (b [(ISL_PASS_ACTION 0, 1), (ISL_PASS_ACTION 2, 1)]) fun s => s.takes .clearDet ∧ s.detectAbove = false) ∧
    (meets ({ base with isl := { cmd := some true } }) fun s => s.isl.cmd = some true ∧ s.islOn = false) ∧
    (meets ({ b [(ISL_CFG_EN, 1), (ISL_XFER_ANG_BOUND, 10), (ISL_XFER_MAG_BOUND, 10)] with isl := { cmd := some true, acc := 2 ^ 63 } }) fun s =>
      s.isl.cmd = some true ∧ s.islOn = true ∧ s.get ISL_XFER_ANG_BOUND * 2 ^ 64 < (angDiff (s.gsuAngle s.islGsu) s.isl.acc).natAbs * 360 ∧
      s.up .mod = true) ∧
    (meets ({ b [(ISL_CFG_EN, 1), (ISL_XFER_ANG_BOUND, 10), (ISL_XFER_MAG_BOUND, 10)] with isl := { cmd := some false } }) fun s =>
      s.isl.cmd = some false ∧ s.islOn = true ∧
      ¬(s.get ISL_XFER_ANG_BOUND * 2 ^ 64 < (angDiff s.thetaOut (s.gsuAngle s.islGsu)).natAbs * 360) ∧
      flt (fratio (s.get ISL_XFER_MAG_BOUND : Nat) 100) (fabs (fsub (fadd s.isl.vf s.isl.ofsMag).1 (s.gsuSlot s.islGsu 2)).1) = false) ∧
    (meets ({ b [(ISL_CFG_EN, 1)] with isl := { due := true } }) fun s => s.islOn = true ∧ s.isl.due = true ∧ s.isl.acts = false) ∧
    (meets ({ b [(ISL_CFG_EN, 1), (ISL_MODE_STATE, 1)] with isl := { due := true, pulse := some ⟨true, 20, 0, 0⟩ } }) fun s =>
      s.islOn = true ∧ s.isl.due = true ∧ s.isl.acts = false ∧ s.actSusp = true ∧ s.isl.pulse ≠ none) := by
  simp only [meets, takes_iff]
  refine ⟨?_, ?_, ?_, ?_, ?_, ?_, ?_, ?_, ?_, ?_, ?_, ?_, ?_⟩ <;> decide +kernel

theorem witness_DcInputSweeps :
    (meets base fun s => s.takes (.dciSweepRequest 5) ∧ s.get (DCI_LEG_CFG_MODE 5) ≠ 1 ∧ s.dci.sweep = none ∧ s.takes .dciAbort ∧
      s.dciOn = false ∧ s.dci.due = false ∧ s.sweepMine = true) ∧
    (meets ({ b [(DCI_LEG_CFG_MODE 5, 1)] with dci := { sweep := some { leg := 5, win := 0, vs := 0, phold := 0, link := 0, down := false, ref := 0 } } }) fun s =>
      s.takes (.dciSweepRequest 5) ∧ s.get (DCI_LEG_CFG_MODE 5) = 1 ∧ (s.dci.sweep.all fun w => w.leg = 5)) ∧
    (meets (b [(DCI_CFG_EN, 1), (DCI_LEG_CFG_MODE 0, 1), (DCI_SWP_PAR_VALUE 4, 0x3F800000)]) fun s => s.takes (.dciSweepRequest 0) ∧
      s.get (DCI_LEG_CFG_MODE 0) = 1 ∧ s.dci.sweep = none ∧ s.dciOn = true ∧ flt 0 (s.word (DCI_SWP_PAR_VALUE 4)) = true) ∧
    (meets (b [(DCI_CFG_EN, 1), (DCI_LEG_STATUS_PENDING 0, 1), (MOD_ROUTE_USED 6, 1), (MOD_ROUTE_TILE 6, 8), (SET_STATUS_ARMED 8, 1)]) fun s =>
      s.dciOn = true ∧ s.dci.sweep = none ∧ s.sweepMine = true ∧ s.get (DCI_LEG_STATUS_PENDING 0) = 1 ∧ s.sweepAllowed 0 = true) ∧
    (meets (b [(DCI_CFG_EN, 1), (DCI_LEG_STATUS_PENDING 2, 1), (MOD_ROUTE_USED 8, 1), (MOD_ROUTE_TILE 8, 0), (SET_STATUS_ARMED 0, 1)]) fun s =>
      s.get (DCI_LEG_STATUS_PENDING 2) = 1 ∧ s.sweepAllowed 2 = true ∧ (∀ j : Fin 6, j < 2 → s.get (DCI_LEG_STATUS_PENDING j) = 0)) ∧
    (meets ({ b [(DCI_SWP_CFG_DWELL, 2)] with dci := { sweep := some { sw with ph := .dwell, meas := [(0, 0), (0, 0)] } } }) fun s =>
      s.dci.sweep = some { sw with ph := .dwell, meas := [(0, 0), (0, 0)] } ∧ s.get DCI_SWP_CFG_DWELL ≤ 2 ∧ sw.done < 255) ∧
    (meets ({ b [(DCI_SWP_CFG_DWELL, 2)] with dci := { sweep := some { sw with ph := .dwell, done := 255, meas := [(0, 0), (0, 0)] } } }) fun s =>
      s.dci.sweep = some { sw with ph := .dwell, done := 255, meas := [(0, 0), (0, 0)] } ∧ s.get DCI_SWP_CFG_DWELL ≤ 2) ∧
    (meets ({ base with dci := { sweep := some { sw with ph := .home } } }) fun s => s.dci.sweep = some { sw with ph := .home } ∧
      s.sweepTarget { sw with ph := .home } = sw.ref) ∧
    (meets ({ base with dci := { sweep := some { sw with ph := .back } } }) fun s => s.dci.sweep = some { sw with ph := .back } ∧
      sw.ref = sw.vs ∧ s.takes .dciAbort) ∧
    (meets ({ b armed0 with dci := { sweep := some { sw with link := 0x3F800000 } } }) fun s =>
      s.dci.sweep = some { sw with link := 0x3F800000 } ∧ s.get SIT_STATUS_BLOCK_STOP = 0 ∧ s.legArmed 0 = true ∧
      s.linkDev { sw with link := 0x3F800000 } = true ∧ s.takes .dciAbort) ∧
    (meets ({ b (armed0 ++ [(RTS_STATE_EXC, 1)]) with dci := { sweep := some sw } }) fun s => s.dci.sweep = some sw ∧ sw.ph = .ramp ∧
      s.legArmed 0 = true ∧ s.linkDev sw = false ∧ s.sweepAllowed 0 = false) ∧
    (meets ({ b armed0 with dci := { sweep := some sw } }) fun s => s.dci.sweep = some sw ∧ s.linkDev sw = false ∧
      s.sweepAllowed 0 = true ∧ s.sweepWin = sw.win) ∧
    (meets ({ b (armed0 ++ [(DCI_SWP_CFG_TW, 1)]) with dci := { sweep := some sw }, net := { base.net with ptp := { ns := 100000000 } } }) fun s =>
      s.dci.sweep = some sw ∧ sw.ph ≠ .back ∧ s.get SIT_STATUS_BLOCK_STOP ≠ 1 ∧ s.legArmed 0 = true ∧ s.linkDev sw = false ∧
      s.sweepAllowed 0 = true ∧ s.sweepMine = true ∧ s.sweepWin ≠ sw.win) ∧
    (meets (b [(DCI_SWP_CFG_NSLOT, 1), (DCI_SWP_CFG_MYSLOT, 1), (DCI_SWP_CFG_SLOT_AUTO, 0)]) fun s => s.sweepMine = false) ∧
    (meets (b (owned 3 (List.range 56))) fun s => s.get DCI_OUTSLOT_BASE = 0 ∧ s.owns 3 45 = true ∧ s.owns 3 56 = false) ∧
    (meets ({ b [(DCI_CFG_EN, 1), (DCI_LEG_CFG_MODE 5, 2), (DCI_LEG_CFG_WIN_STOP 5, 1)] with dci := { legs := base.dci.legs.set 5 { outCnt := 10 } } }) fun s =>
      s.dciOn = true ∧ s.get (DCI_LEG_CFG_MODE 5) = 2 ∧ 10 ≤ s.dci.legs[(5 : Fin 6)].outCnt ∧ s.get (DCI_LEG_STATUS_OUT_WIN 5) = 0 ∧
      s.get (DCI_LEG_CFG_WIN_STOP 5) = 1 ∧ s.up .mod = true) ∧
    (meets ({ b [(DCI_CFG_EN, 1), (DCI_LEG_CFG_MODE 0, 2)] with dci := { legs := base.dci.legs.set 0 { outCnt := 10 } } }) fun s =>
      10 ≤ s.dci.legs[(0 : Fin 6)].outCnt ∧ s.get (DCI_LEG_CFG_WIN_STOP 0) = 0) ∧
    (meets ({ b [(DCI_CFG_EN, 1), (DCI_CFG_NAVG, 2), (DCI_LEG_CFG_MODE 0, 1), (DCI_LEG_CFG_MODE 5, 2)] with dci := { due := true, legs := base.dci.legs.set 5 { block := [(0, 0)] } } }) fun s =>
      s.dciOn = true ∧ s.dci.due = true ∧ s.dci.legs[(0 : Fin 6)].block.length + 1 < s.get DCI_CFG_NAVG ∧
      s.get DCI_CFG_NAVG ≤ s.dci.legs[(5 : Fin 6)].block.length + 1 ∧ s.get (DCI_LEG_CFG_MODE 0) = 1 ∧ s.get (DCI_LEG_CFG_MODE 5) = 2) ∧
    after .dciPublish ({ b [(DCI_CFG_EN, 1), (DCI_CFG_NAVG, 1), (DCI_LEG_CFG_MODE 5, 2)] with dci := { due := true } })
      (fun t => t.dci.legs[(5 : Fin 6)].known) = some true := by
  simp only [meets, takes_iff]
  refine ⟨?_, ?_, ?_, ?_, ?_, ?_, ?_, ?_, ?_, ?_, ?_, ?_, ?_, ?_, ?_, ?_, ?_, ?_, ?_⟩ <;> decide +kernel

theorem witness_ModulatorPeriods :
    (meets State.reset fun s => s.up .mod = false) ∧
    (meets (b [(RGS_OWNER_KIND 0, 1)]) fun s => s.up .mod = true ∧ s.get (MOD_LOADPT_CMP_SLOT 8) = 0 ∧ s.get (RGS_OWNER_KIND 0) = 1 ∧
      s.get (RGS_OWNER_INDEX 0) = (0 : Fin 8).val) ∧
    (meets base fun s => s.up .mod = true ∧ s.get (RGS_OWNER_KIND (s.get (MOD_LOADPT_CMP_SLOT 0))) ≠ 1 ∧
      s.mod.pairs[(0 : Fin 9)].len = 0 ∧ s.get (MOD_STATUS_RUN 0) = 0) ∧
    (meets (pr 8 { len := 1000, lp := 3 } [(MOD_LOADPT_NLP 8, 3)]) fun s => s.up .mod = true ∧ s.mod.pairs[(8 : Fin 9)].len ≠ 0 ∧
      s.mod.pairs[(8 : Fin 9)].lp < s.get (MOD_LOADPT_NLP 8) + 1 ∧ s.get (MOD_LOADPT_UPD 8) = 0) ∧
    (meets (pr 8 { len := 1000, arrived := 7, incoming := some (5, 300) } []) fun s => s.mod.pairs[(8 : Fin 9)].len ≠ 0 ∧
      s.mod.pairs[(8 : Fin 9)].lp < s.get (MOD_LOADPT_NLP 8) + 1 ∧ s.mod.pairs[(8 : Fin 9)].incoming = some (5, 300) ∧
      (s.mod.pairs[(8 : Fin 9)].settle (s.mod.cyc + 5)).arrived = 7 ∧ (s.mod.pairs[(8 : Fin 9)].settle (s.mod.cyc + 6)).arrived = 300) ∧
    (meets (pr 0 { len := 1000, lp := 0, arrived := 300, plan := { aTurn := 500 } } [(MOD_LOADPT_UPD 0, 1)]) fun s =>
      s.get (MOD_LOADPT_UPD 0) = 1 ∧ s.mod.pairs[(0 : Fin 9)].arrived ≠ s.get (MOD_CMP_NOW_CMP 0) ∧ (s.midUpdate 0 0 300).isSome = true) ∧
    (meets (pr 8 { len := 1000, plan := { edges := { aOn := some 999, aOff := some 1000 } } } []) fun s => s.up .mod = true ∧ s.edgeAt 8 .aOn = some 999 ∧
      999 < s.mod.pairs[(8 : Fin 9)].len ∧ s.edgeAt 8 .aOff = some 1000 ∧ s.edgeAt 8 .bOn = none) ∧
    (meets (pr 8 { len := 1000, latched := 5 } [(MOD_STATUS_RUN 8, 1)]) fun s => s.get (MOD_STATUS_RUN 8) = 1 ∧
      ((((s.gatesTold 8 0).dropRequests 8).closePeriod 8).closeBoot 8).tripInput 8 = false ∧
      (((((((s.gatesTold 8 0).dropRequests 8).closePeriod 8).closeBoot 8).tripTest 8).holdTest 8).pairGated 8 = true)) ∧
    (meets (pr 8 { len := 1000, latched := 5 } [(MOD_STATUS_RUN 8, 1), (MOD_CTRL_EN 8, 1), (MOD_ROUTE_USED 8, 1), (MOD_ROUTE_TILE 8, 0), (SET_STATUS_ARMED 0, 1)]) fun s =>
      s.get (MOD_STATUS_RUN 8) = 1 ∧ ((((s.gatesTold 8 3).dropRequests 8).closePeriod 8).closeBoot 8).tripInput 8 = false ∧
      (((((((s.gatesTold 8 3).dropRequests 8).closePeriod 8).closeBoot 8).tripTest 8).holdTest 8).pairGated 8 = false)) ∧
    (meets ({ pr 0 { len := 1000 } [(MOD_STATUS_RUN 0, 1), (SIT_ROUTE_PAIRS 31, 1), (WIN_STATUS_FORCED 31, 1), (WIN_CFG_EN 31, 1), (WIN_STATUS_ASSERTED 31, 1)] with wins := base.wins.set 31 { enabled := true } }) fun s =>
      s.get (MOD_STATUS_RUN 0) = 1 ∧ ((((s.gatesTold 0 0).dropRequests 0).closePeriod 0).closeBoot 0).tripInput 0 = true ∧ s.phase ≠ 5) ∧
    (meets (b [(MOD_STATUS_RUN 8, 1), (MOD_FMAX_PMIN 8, 1000)]) fun s => s.takes (.periodWrite 8 256000000) ∧
      s.get (MOD_FMAX_PMIN 8) ≤ 256000000 ∧ s.takes (.periodWrite 8 999) ∧ s.takes (.periodWrite 8 256000001) ∧
      s.bitAt MOD_HOP_CFG_HOP_PAIRS 8 = false) ∧
    (meets base fun s => s.takes (.ovrWrite 8 1) ∧ s.ovrAccepted 8 1 = true ∧ s.takes (.ovrWrite 0 2) ∧ s.ovrAccepted 0 2 = false) := by
  simp only [meets, takes_iff]
  refine ⟨?_, ?_, ?_, ?_, ?_, ?_, ?_, ?_, ?_, ?_, ?_, ?_⟩ <;> decide +kernel

theorem witness_EpochAndCarrierHop :
    (meets (b [(MOD_HOP_CFG_MODE, 1), (MOD_EPOCH_EPOCH, 100), (CLK_PLL_STATUS_ON 3, 1)]) fun s => s.takes .hopEval ∧ s.takes (.quietBandWrite 7 true 1) ∧
      s.get MOD_HOP_CFG_MODE = 1 ∧ s.hopChoice.1 = s.hopStep ∧ s.up .mod = true ∧ s.get MOD_EPOCH_EPOCH ≠ 0 ∧ s.netRuns = true) ∧
    (meets (b [(MOD_HOP_CFG_MODE, 1), (MOD_EPOCH_EPOCH, 100), (MOD_HOP_STATUS_STEP, 1)]) fun s => s.takes .hopEval ∧
      s.hopChoice.1 ≠ s.hopStep ∧ s.get MOD_EPOCH_EPOCH ≠ 0) ∧
    (meets (b [(MOD_HOP_CFG_MODE, 0), (MOD_EPOCH_EPOCH, 100), (MOD_HOP_STATUS_STEP, 1)]) fun s => s.get MOD_HOP_CFG_MODE = 0 ∧
      s.hopStep ≠ 0 ∧ s.get MOD_EPOCH_EPOCH ≠ 0) ∧
    (meets (b [(MOD_HOP_CFG_MODE, 0)]) fun s => s.get MOD_HOP_CFG_MODE = 0 ∧ s.hopStep = 0) ∧
    (meets ({ mgr [(MOD_HOP_CFG_MODE, 2), (MOD_EPOCH_EPOCH, 100), (LANE_ROLE_ROLE 3, 4)] with mod := { base.mod with hopFrame := some 1 }, wlk := { numbered := [(1, 0, 0)] } }) fun s =>
      s.isManager = true ∧ s.hopChoice.1 ≠ s.hopAhead ∧ s.laneTo (1, 0, 0) = 0 ∧ s.get (LANE_ROLE_ROLE 3) = 4 ∧ s.up .mod = true) ∧
    (meets (mgr [(MOD_HOP_CFG_MODE, 2)]) fun s => s.isManager = true ∧ s.hopChoice.1 = s.hopAhead ∧ s.get MOD_EPOCH_EPOCH = 0) ∧
    (meets ({ b [(MOD_EPOCH_EPOCH, 100), (CLK_PLL_STATUS_LOCK 2, 1), (MOD_HOP_CFG_MODE, 0)] with mod := { base.mod with hopDue := some 7 } }) fun s =>
      s.mod.hopDue = some 7 ∧ s.get MOD_HOP_CFG_MODE ≠ 1 ∧ s.hopEligible 7 = true ∧ s.get (CLK_PLL_STATUS_LOCK 2) = 1 ∧
      (7 : Int) ≠ s.hopStep ∧ s.pairAligned 0 = false) ∧
    (meets ({ b [(MOD_EPOCH_EPOCH, 100), (CLK_PLL_STATUS_LOCK 2, 1), (MOD_HOP_CFG_MODE, 1), (MOD_HOP_STATUS_STEP, 1)] with mod := { base.mod with hopDue := some 0 } }) fun s =>
      s.mod.hopDue = some 0 ∧ s.hopEligible 0 = true ∧ s.get (CLK_PLL_STATUS_LOCK 2) = 1 ∧ (0 : Int) ≠ s.hopStep) ∧
    (meets ({ b [(MOD_EPOCH_EPOCH, 100), (MOD_HOP_CFG_MODE, 1), (MOD_ROUTE_USED 0, 1), (MOD_FMAX_PMIN 0, 1000)] with mod := { base.mod with hopDue := some 7 } }) fun s =>
      s.mod.hopDue = some 7 ∧ s.get MOD_HOP_CFG_MODE = 1 ∧ s.hopEligible 7 = false) ∧
    (meets ({ b [(MOD_EPOCH_EPOCH, 100), (MOD_HOP_CFG_MODE, 0), (MOD_HOP_STATUS_STEP, 1), (MOD_ROUTE_USED 0, 1), (MOD_FMAX_PMIN 0, 1000)] with mod := { base.mod with hopDue := some 7 } }) fun s =>
      s.mod.hopDue = some 7 ∧ s.get MOD_HOP_CFG_MODE = 0 ∧ s.hopStep ≠ 0 ∧ s.hopEligible 7 = false) ∧
    (meets (pr 8 { periodNow := 50 } [(MOD_EPOCH_EPOCH, 100), (MOD_CTRL_ALIGN 8, 1), (MOD_STATUS_RUN 8, 1)]) fun s =>
      s.pairAligned 8 = true ∧ s.up .mod = true) := by
  simp only [meets, takes_iff]
  refine ⟨?_, ?_, ?_, ?_, ?_, ?_, ?_, ?_, ?_, ?_, ?_⟩ <;> decide +kernel

theorem witness_ConeTriggersAndMatches :
    (meets base fun s => s.takes .trig ∧ s.get CON_STATUS_HELD0 = 0 ∧ s.takes .release0 ∧ s.takes .release1 ∧ s.get CON_STATUS_HELD1 = 0 ∧
      s.con.matchAt = none ∧ s.con.repeatAt = none ∧ s.isManager = false ∧ s.takes .plantGo) ∧
    (meets (b [(CON_STATUS_HELD0, 1)]) fun s => s.get CON_STATUS_HELD0 ≠ 0 ∧ s.get CON_STATUS_HELD1 = 0 ∧ s.collecting 0 = false) ∧
    (meets (b [(CON_STATUS_HELD0, 1), (CON_STATUS_HELD1, 1), (SIT_STATUS_BLOCK_STOP, 1)]) fun s => s.takes .release0 ∧
      s.get CON_STATUS_HELD0 = 1 ∧ s.get CON_STATUS_HELD1 = 1 ∧ s.collecting 0 = true) ∧
    (meets ({ b [(CON_STATUS_HELD1, 1), (SIT_STATUS_BLOCK_STOP, 1)] with con := { faultBank := 1 } }) fun s => s.takes .release1 ∧
      s.get CON_STATUS_HELD1 = 1 ∧ s.collecting 1 = true) ∧
    (meets (b [(CON_CFG_PIN_EN, 1)]) fun s => s.get CON_CFG_PIN_EN = 1) ∧
    (meets (b [(CON_CFG_PIN_EN, 0)]) fun s => s.get CON_CFG_PIN_EN = 0) ∧
    (meets (b [(CON_TMATCH_SEC, 0), (CON_TMATCH_NS, 1)]) fun s => s.takes .tmatchArm ∧
      s.ptpNs < nsOf (s.get CON_TMATCH_SEC) (s.get CON_TMATCH_NS)) ∧
    (meets base fun s => s.takes .tmatchArm ∧ nsOf (s.get CON_TMATCH_SEC) (s.get CON_TMATCH_NS) ≤ s.ptpNs) ∧
    (meets ({ base with con := { matchAt := some (1, 0), repeatAt := some (1, 0) } }) fun s => s.con.matchAt.isSome = true ∧
      s.con.repeatAt = some (1, 0)) ∧
    (meets (mgr [(CON_TMATCH_NS, 100000)]) fun s => s.takes .plantGo ∧ s.isManager = true ∧
      s.ptpNs + 100000 ≤ nsOf (s.get CON_TMATCH_SEC) (s.get CON_TMATCH_NS)) ∧
    (meets (mgr [(CON_TMATCH_NS, 99999)]) fun s => s.takes .plantGo ∧
      nsOf (s.get CON_TMATCH_SEC) (s.get CON_TMATCH_NS) < s.ptpNs + 100000) ∧
    (meets ({ wkr [] with con := { matchAt := some (1, 0) } }) fun s => s.up .lane = true ∧ s.isWorker = true ∧
      s.get SYS_ROLE_WORKER_NO ≠ 0 ∧ s.con.matchAt = some (1, 0) ∧ s.con.matchPlant = false ∧ s.con.matchAt ≠ some (2, 0) ∧
      s.ptpNs ≤ nsOf 2 0) ∧
    (meets ({ wkr [] with con := { matchAt := some (1, 0), matchPlant := true } }) fun s => s.con.matchAt ≠ some (2, 0) ∧
      s.con.matchPlant = true ∧ s.ptpNs ≤ nsOf 2 0) ∧
    (meets (b [(SYS_ROLE_ROLE, 2)]) fun s => s.up .lane = true ∧ s.isWorker = true ∧ s.get SYS_ROLE_WORKER_NO = 0 ∧ ¬(base.isWorker = true)) ∧
    (meets ({ wkr [] with net := { base.net with ptp := { sec := 1 } } }) fun s => s.con.matchAt = none ∧
      s.con.matchAt ≠ some (0, 999999999) ∧ nsOf 0 999999999 < s.ptpNs ∧ s.ptpNs ≤ nsOf 1 0) := by
  simp only [meets, takes_iff]
  refine ⟨?_, ?_, ?_, ?_, ?_, ?_, ?_, ?_, ?_, ?_, ?_, ?_, ?_, ?_, ?_⟩ <;> decide +kernel

theorem witness_CaptureRunsAndFreezes :
    (meets (b [(CON_CAP_CFG_EN, 0), (RGS_RG_PERIOD_PERIOD 0, 100)]) fun s => s.takes (.capEnWrite 0x00100000) ∧ s.get CON_CAP_CFG_EN = 0 ∧
      (0x00100000 : Word).getLsbD 31 = false ∧ s.takes (.capEnWrite 0x80100000) ∧ (0x80100000 : Word).getLsbD 31 = true ∧
      200 ≤ ((0x80100000 : Word).toNat / 2 ^ 20 % 256 + 1) * s.get (RGS_RG_PERIOD_PERIOD 0) ∧
      ((0x80000000 : Word).toNat / 2 ^ 20 % 256 + 1) * s.get (RGS_RG_PERIOD_PERIOD 0) < 200 ∧ s.takes .capRearm) ∧
    (meets (b [(CON_CAP_CFG_EN, 1), (CON_CAP_STATUS_STATE, 2)]) fun s => s.takes (.capEnWrite 0) ∧ s.takes (.capEnWrite 0x80000000) ∧
      s.takes .capRearm ∧ s.get CON_CAP_CFG_EN = 1 ∧ s.get CON_CAP_STATUS_STATE = 2 ∧ s.con.trigWait = false ∧ s.con.postLeft = 0) ∧
    (meets base fun s => s.get CON_CAP_STATUS_STATE ≠ 2) := by
  simp only [meets, takes_iff]
  refine ⟨?_, ?_, ?_⟩ <;> decide +kernel

theorem witness_PugSupplyEvents :
    (meets (b [(PUG_STATUS_COLD, 1), (PUG_CFG_HARV_EN, 1)]) fun s => s.get PUG_STATUS_COLD = 1 ∧ s.get PUG_CFG_HARV_EN = 1) ∧
    (meets (b [(PUG_STATUS_COLD, 0), (PUG_CFG_HARV_EN, 1)]) fun s => s.get PUG_STATUS_COLD = 0 ∧ s.get PUG_CFG_HARV_EN = 1 ∧
      s.pug.load = false ∧ s.takes (.pugThrWrite 0x643A322C) ∧ s.takes (.pugThrWrite 0x643A322B)) ∧
    (meets (b [(PUG_STATUS_COLD, 0), (PUG_CFG_HARV_EN, 0)]) fun s => s.get PUG_STATUS_COLD = 0 ∧ s.get PUG_CFG_HARV_EN = 0 ∧
      s.pug.load = false) ∧
    (meets ({ base with pug := { base.pug with load := true } }) fun s => s.get PUG_STATUS_COLD = 0 ∧ s.pug.load = true) ∧
    (meets (b [(PWR_STATUS_VAUX_OK, 1), (PUG_STATUS_SOURCE, 2)]) fun s => s.get PWR_STATUS_VAUX_OK = 1 ∧ s.get PUG_STATUS_SOURCE ≠ 0) ∧
    (meets (b [(PWR_STATUS_VAUX_OK, 1), (PUG_STATUS_SOURCE, 0)]) fun s => s.get PUG_STATUS_SOURCE = 0 ∧ s.pug.supplied = true) ∧
    (meets (b [(PWR_STATUS_VAUX_OK, 0), (PUG_STATUS_HARVEST, 1), (PUG_THR_MEAS, 50)]) fun s => ¬(s.get PWR_STATUS_VAUX_OK = 1) ∧
      s.harvestRecent = true ∧ 50 * s.get PUG_THR_MEAS ≤ min (2500 : BitVec 16).toNat 5000) ∧
    (meets ({ b [(PWR_STATUS_VAUX_OK, 0), (PUG_THR_MEAS, 50), (PUG_THR_ABORT, 44)] with pug := { base.pug with order := 2, aonNs := 599999999999, harvestAt := some 0 } }) fun s =>
      s.harvestRecent = true ∧ s.pug.order = 2 ∧ 50 * s.get PUG_THR_ABORT ≤ min (2200 : BitVec 16).toNat 5000 ∧
      ¬(50 * s.get PUG_THR_MEAS ≤ min (2200 : BitVec 16).toNat 5000)) ∧
    (meets ({ b [(PWR_STATUS_VAUX_OK, 0), (PUG_CFG_CELL_EN, 1)] with pug := { base.pug with aonNs := 600000000000, harvestAt := some 0 } }) fun s =>
      s.harvestRecent = false ∧ 2000 ≤ (2000 : BitVec 16).toNat ∧ s.get PUG_CFG_CELL_EN = 1) ∧
    (meets (b [(PWR_STATUS_VAUX_OK, 0), (PUG_CFG_CELL_EN, 0)]) fun s => s.harvestRecent = false ∧ ¬(s.get PUG_CFG_CELL_EN = 1) ∧
      2000 ≤ min (2000 : BitVec 16).toNat 5000 ∧ min (1999 : BitVec 16).toNat 5000 < 2000) := by
  simp only [meets, takes_iff]
  refine ⟨?_, ?_, ?_, ?_, ?_, ?_, ?_, ?_, ?_, ?_⟩ <;> decide +kernel

theorem witness_PugLastGaspMessages :
    (meets (b [(PUG_LG_CFG_ON_TAMPER, 1), (PUG_LG_CFG_ON_PF, 1), (PWR_STATUS_VAUX_OK, 0)]) fun s => s.bit PUG_LG_CFG_ON_TAMPER = true ∧
      s.bit PUG_LG_CFG_ON_PF = true ∧ s.get PWR_STATUS_VAUX_OK = 0 ∧ s.sag.devKey = true ∧ s.pug.msg = none) ∧
    (meets (b [(PWR_STATUS_VAUX_OK, 0), (PUG_LG_CFG_HEARTBEAT, 1)]) fun s => s.get PWR_STATUS_VAUX_OK = 0 ∧
      s.get PUG_LG_CFG_HEARTBEAT ≠ 0 ∧ s.sag.devKey = true ∧ s.pug.msg = none) ∧
    (meets ({ b [(SAG_ATTEST_NEXT_NEXT, 9)] with sag := { base.sag with treeKept := true }, pug := { base.pug with msg := some { trigger := 1, detail := 0, time := 0 } } }) fun s =>
      s.pug.msg = some { trigger := 1, detail := 0, time := 0 } ∧ s.pug.load = false ∧ s.get SAG_ATTEST_NEXT_EXHAUSTED = 0 ∧
      s.sag.treeKept = true ∧ s.sag.devKey = true ∧ s.get SAG_ATTEST_NEXT_NEXT ≠ attestLast) ∧
    (meets ({ base with sag := { base.sag with treeKept := false }, pug := { base.pug with msg := some { trigger := 1, detail := 0, time := 0 } } }) fun s =>
      s.pug.msg = some { trigger := 1, detail := 0, time := 0 } ∧ s.pug.load = false ∧ s.sag.treeKept = false) ∧
    (meets ({ base with pug := { base.pug with msg := some { trigger := 3, detail := 0, time := 0, index := some 9 } } }) fun s =>
      s.pug.msg = some { trigger := 3, detail := 0, time := 0, index := some 9 } ∧ s.pug.load = false) ∧
    (meets ({ base with pug := { base.pug with load := true, msg := some { trigger := 3, detail := 0, time := 0, index := some 9 } } }) fun s =>
      s.pug.load = true ∧ s.pug.warm = false) ∧
    (meets ({ base with pug := { base.pug with load := true, warm := true, msg := some { trigger := 3, detail := 0, time := 0, index := some 9 } } }) fun s =>
      s.pug.load = true ∧ s.pug.warm = true ∧ s.pug.msg = some { trigger := 3, detail := 0, time := 0, index := some 9 }) := by
  refine ⟨?_, ?_, ?_, ?_, ?_, ?_, ?_⟩ <;> decide +kernel

theorem witness_SetterArming :
    (meets base fun s => s.takes (.trimWrite 8 1 0x01FF01FF) ∧ s.tiles[(8 : Fin 9)].powered = false ∧ s.bootPair 8 = false ∧
      s.takes (.arm 8) ∧ s.armRefused 8 = true ∧ s.takes (.disarm 8) ∧ s.pairOf 8 = none ∧ s.get (SET_STATUS_ARMED 8) ≠ 1) ∧
    (meets ({ base with tiles := Vector.replicate 9 { powered := true } }) fun s => s.tiles[(8 : Fin 9)].powered = true ∧
      ¬(s.bootPair 8 = true)) ∧
    (meets ({ b route8 with tiles := Vector.replicate 9 { powered := true } }) fun s => s.tiles[(8 : Fin 9)].powered = true ∧
      s.bootPair 8 = true ∧ s.pairOf 8 = some 0 ∧ s.pairGated 0 = true ∧ s.takes (.disarm 8) ∧ s.armRefused 8 = true) ∧
    (meets (b (route8 ++ [(SET_STATUS_ARMED 8, 1)])) fun s => s.bootPair 8 = true ∧ s.get (SET_STATUS_ARMED 8) = 1 ∧ s.up .mod = true ∧
      s.takes (.desatClear 8 1)) ∧
    (meets (b (route8 ++ [(SET_CH_STATUS_SUP_OK 8 0, 1), (SET_CH_STATUS_SUP_OK 8 1, 1)])) fun s => s.takes (.arm 8) ∧
      s.armRefused 8 = false ∧ s.pairOf 8 = some 0) ∧
    (meets ({ b (route8 ++ [(MOD_CTRL_EN 0, 1)]) with mod := { pairs := Vector.replicate 9 { stopHold := false } } }) fun s =>
      s.takes (.disarm 8) ∧ s.pairOf 8 = some 0 ∧ s.pairGated 0 = false ∧ s.pairForced 0 = false) ∧
    (meets (b [(SET_CH_STATUS_SOFTOFF_BUSY 0 0, 1)]) fun s => s.takes (.desatClear 0 0) ∧ s.get (SET_CH_STATUS_SOFTOFF_BUSY 0 0) = 1) ∧
    (meets base fun s => s.takes (.desatClear 0 1) ∧ s.get (SET_CH_STATUS_SOFTOFF_BUSY 0 1) = 0 ∧ s.takes (.bootStopClear 0) ∧
      (s.chan 0 0).bootLow = false ∧ s.takes (.supplyUvClear 0 1) ∧ (s.chan 0 1).uvNow = false) ∧
    (meets ({ base with tiles := base.tiles.set 8 { ch := Vector.replicate 2 { bootLow := true, uvNow := true } } }) fun s =>
      s.takes (.bootStopClear 8) ∧ (s.chan 8 0).bootLow = true ∧ s.takes (.supplyUvClear 8 1) ∧ (s.chan 8 1).uvNow = true) := by
  simp only [meets, takes_iff]
  refine ⟨?_, ?_, ?_, ?_, ?_, ?_, ?_, ?_, ?_⟩ <;> decide +kernel

theorem witness_SetterProtection :
    (meets ({ b (route8 ++ [(SET_STATUS_ARMED 8, 1)]) with tiles := base.tiles.set 8 { ch := base.tiles[8].ch.set 1 { wait := true, req := true } }, mod := { pairs := Vector.replicate 9 { stopHold := false } } }) fun s =>
      (s.chan 8 1).wait = true ∧ (s.chan 8 1).req = true ∧ s.chanFree 8 1 = true ∧ s.get (SET_STATUS_ARMED 8) = 1 ∧
      s.get (SET_CH_STATUS_ON 8 0) ≠ 1 ∧ (s.chan 8 0).soft = .idle ∧ (s.chan 8 0).req = false ∧ (s.chan 8 1).bootWait = false ∧
      (s.chan 8 1).bootLow = false ∧ s.tileLive 8 = true) ∧
    (meets ({ b (route8 ++ [(SET_STATUS_ARMED 8, 1), (SET_CH_STATUS_CLAMP 8 0, 1)]) with tiles := base.tiles.set 8 { ch := #v[{ soft := .step1 }, { wait := true, req := true }] }, mod := { pairs := Vector.replicate 9 { stopHold := false } } }) fun s =>
      (s.chan 8 1).wait = true ∧ s.chanFree 8 1 = true ∧ (s.chan 8 0).soft ≠ .idle ∧ s.get (SET_CH_STATUS_CLAMP 8 0) = 1 ∧
      s.tileLive 8 = true) ∧
    (meets base fun s => (s.chan 0 0).wait = false ∧ s.get (SET_CH_STATUS_ON 0 0) ≠ 1 ∧ s.bootPair 0 = false ∧ (s.chan 0 0).soft = .idle ∧
      s.tiles[(0 : Fin 9)].fallback ≠ 1 ∧ (s.chan 0 0).req = false) ∧
    (meets ({ b (route8 ++ [(SET_CH_STATUS_ON 8 0, 1)]) with tiles := base.tiles.set 8 { bootHist := [true, true] } }) fun s =>
      s.tiles[(8 : Fin 9)].bootThis = false ∧ s.get (SET_CH_STATUS_ON 8 0) = 1 ∧ s.bootPair 8 = true ∧
      min 3 ((s.tiles[(8 : Fin 9)].bootHist.filter id).length + 1) = 3 ∧ s.pairOf 8 = some 0 ∧ s.up .mod = true) ∧
    (meets (b (route8 ++ [(SET_CH_STATUS_ON 8 0, 1)])) fun s => s.bootPair 8 = true ∧
      min 3 ((s.tiles[(8 : Fin 9)].bootHist.filter id).length + 1) < 3) ∧
    (meets (b route8) fun s => s.bootPair 8 = true ∧ s.get (SET_CH_STATUS_ON 8 0) ≠ 1) ∧
    (meets ({ b (route8 ++ [(SET_STATUS_ARMED 8, 1), (SET_CH_STATUS_CLAMP 8 1, 1)]) with tiles := base.tiles.set 8 { ch := base.tiles[8].ch.set 0 { req := true } }, mod := { pairs := Vector.replicate 9 { stopHold := false } } }) fun s =>
      (s.chan 8 0).req = true ∧ (s.chan 8 0).wait = false ∧ s.get (SET_CH_STATUS_ON 8 0) ≠ 1 ∧ s.chanFree 8 0 = true ∧
      s.gateLow 8 1 = true ∧ (s.chan 8 1).req = false ∧ s.pairOf 8 = some 0 ∧ s.pairGated 0 = false) ∧
    (meets ({ b (route8 ++ [(SET_STATUS_ARMED 8, 1), (SET_CH_STATUS_CLAMP 8 1, 1)]) with tiles := base.tiles.set 8 { ch := Vector.replicate 2 { req := true } }, mod := { pairs := Vector.replicate 9 { stopHold := false } } }) fun s =>
      (s.chan 8 0).req = true ∧ (s.chan 8 0).wait = false ∧ s.get (SET_CH_STATUS_ON 8 0) ≠ 1 ∧ s.chanFree 8 0 = true ∧
      (s.chan 8 1).req = true ∧ s.pairOf 8 = some 0 ∧ s.pairGated 0 = false) ∧
    (meets ({ b [(SIT_STATUS_BLOCK_STOP, 1), (SET_DESAT_THR_B 0, 5), (SET_FAULT_SNAP_COMPLETE, 0)] with tiles := base.tiles.set 0 { ch := base.tiles[0].ch.set 1 { cut := true } } }) fun s =>
      s.desatCut 0 1 = true ∧ s.desatThr 0 1 ≠ 0 ∧ (s.chan 0 1).soft = .idle ∧ s.get SIT_STATUS_BLOCK_STOP = 1 ∧
      s.get SET_FAULT_SNAP_COMPLETE = 0) ∧
    (meets ({ b [(SET_CH_STATUS_ON 0 1, 1), (SET_DESAT_THR_B 0, 5)] with tiles := base.tiles.set 0 { ch := base.tiles[0].ch.set 1 { req := true } } }) fun s =>
      s.get (SET_CH_STATUS_ON 0 1) = 1 ∧ (s.chan 0 1).req = true ∧ (s.chan 0 1).blanking = false ∧ s.desatThr 0 1 ≠ 0 ∧
      (s.chan 0 1).soft = .idle ∧ s.up .mod = true) ∧
    (meets ({ base with tiles := base.tiles.set 8 { fallback := 1, ch := #v[{ soft := .step1 }, { soft := .step2 }] } }) fun s =>
      (s.chan 8 0).soft = .step1 ∧ (s.chan 8 1).soft = .step2 ∧ s.tiles[(8 : Fin 9)].fallback = 1) ∧
    (meets ({ base with tiles := base.tiles.set 8 { ch := Vector.replicate 2 { soft := .fullSink } } }) fun s =>
      (s.chan 8 0).soft = .fullSink) := by
  refine ⟨?_, ?_, ?_, ?_, ?_, ?_, ?_, ?_, ?_, ?_, ?_, ?_⟩ <;> decide +kernel

theorem witness_SetterDiagnostics :
    (meets (b (route8 ++ [(SET_CH_STATUS_SUP_OK 8 0, 1), (SET_CH_STATUS_SUP_OK 8 1, 1)])) fun s => s.takes (.diag 8) ∧
      s.get (SET_STATUS_ARMED 8) = 0 ∧ s.get (SET_CH_STATUS_SUP_OK 8 0) = 1 ∧ s.get (SET_CH_STATUS_SUP_OK 8 1) = 1 ∧ s.fired = true ∧
      s.tileUsed 8 = true ∧ s.tiles[(8 : Fin 9)].diag = none) ∧
    (meets base fun s => s.takes (.diag 0) ∧ s.tileUsed 0 = false ∧ s.takes (.diagAbort 0) ∧ s.tiles[(0 : Fin 9)].diag = none) ∧
    (meets ({ base with tiles := Vector.ofFn fun n => { diag := [some (0, .back), some (1, .d0), some (2, .d0), some (0, .d1), some (1, .d2), some (1, .d3)].getD n.val none } }) fun s =>
      s.takes (.diagAbort 0) ∧ s.tiles[(0 : Fin 9)].diag = some ((0 : Fin 2).val, .back) ∧
      s.tiles[(1 : Fin 9)].diag = some ((1 : Fin 2).val, .d0) ∧ s.tiles[(2 : Fin 9)].diag = some (2, .d0) ∧
      s.tiles[(5 : Fin 9)].diag = some ((1 : Fin 2).val, .d3)) ∧
    (meets base fun s => s.bitAt (SET_SEG_USE_A 8) 6 = true ∧ s.bitAt (SET_SEG_USE_B 8) 7 = false ∧
      3 * s.get (SET_SEG_RDS_INITIAL 8 0 6) < 2 * 65535) ∧
    (meets (b [(SET_SEG_RDS_INITIAL 8 1 0, 10)]) fun s => s.bitAt (SET_SEG_USE_B 8) 0 = true ∧
      2 * 15 ≤ 3 * s.get (SET_SEG_RDS_INITIAL 8 1 0)) := by
  simp only [meets, takes_iff]
  refine ⟨?_, ?_, ?_, ?_, ?_⟩ <;> decide +kernel

theorem witness_GrogCommands :
    (meets ({ base with grg := { props := base.grg.props.set 7 (some ⟨2, 0, 5, 1, 2⟩) } }) fun s => s.takes (.commit 7) ∧
      s.takes (.dismiss 7) ∧ s.grg.props[(7 : Fin 8)] = some ⟨2, 0, 5, 1, 2⟩ ∧ s.get GRG_STATUS_BUSY = 0 ∧ s.mapFull = false ∧
      s.retired 2 5 0 = false ∧ s.grg.props[(0 : Fin 8)] = none) ∧
    (meets ({ base with grg := { props := base.grg.props.set 7 (some ⟨2, 0, 5, 1, 2⟩), map := [⟨2, 0, 5, none, true, false⟩] } }) fun s =>
      s.takes (.commit 7) ∧ s.grg.props[(7 : Fin 8)] = some ⟨2, 0, 5, 1, 2⟩ ∧ s.get GRG_STATUS_BUSY = 0 ∧ s.mapFull = false ∧
      s.retired 2 5 0 = true) ∧
    (meets base fun s => s.takes (.retire 8 0 0) ∧ s.takes (.retire 7 255 255) ∧ s.retired 7 255 (subOf 7 255) = false ∧ s.takes (.retire 6 31 255) ∧
      s.retired 6 31 (subOf 6 255) = false ∧ s.get GRG_STATUS_BUSY = 0 ∧
      s.mapFull = false) ∧
    (meets ({ b [(GRG_STATUS_BUSY, 1)] with grg := { map := List.replicate 256 ⟨0, 0, 0, none, false, false⟩ } }) fun s =>
      s.get GRG_STATUS_BUSY = 1 ∧ s.mapFull = true ∧ s.retired 0 0 0 = true) := by
  simp only [meets, takes_iff]
  refine ⟨?_, ?_, ?_, ?_⟩ <;> decide +kernel

theorem witness_GrogDiagnosis :
    (meets base fun s => s.takes (.diagnose 15) ∧ s.adcInUse 15 = false ∧ s.grg.diag = none) ∧
    (meets (b [(ADC_GROUP_MODE 15, 2)]) fun s => s.takes (.diagnose 15) ∧ s.adcInUse (15 : Fin 16).val = true ∧
      s.get GRG_STATUS_BUSY = 0 ∧ s.mapFull = false ∧ s.grg.diag = none ∧ s.takeGx = some 0) ∧
    (meets ({ b [(ADC_GROUP_MODE 15, 2)] with gx := Vector.replicate 2 (.cal 1) }) fun s => s.adcInUse 15 = true ∧ s.takeGx = none) ∧
    (meets ({ b [(ADC_GROUP_MODE 15, 2)] with grg := { diag := some { core := 0, ain := 0 } } }) fun s => s.takes (.diagnose 15) ∧
      s.adcInUse 15 = true ∧ s.get GRG_STATUS_BUSY = 0 ∧ s.mapFull = false ∧ s.grg.diag = some { core := 0, ain := 0 } ∧
      s.grg.flags.contains ((15 : Fin 16).val, s.get RGS_SUSPECT_AIN) = false) ∧
    (meets ({ b [(ADC_GROUP_MODE 15, 2), (GRG_STATUS_BUSY, 1)] with grg := { map := List.replicate 256 ⟨0, 0, 0, none, false, false⟩ } }) fun s =>
      s.takes (.diagnose 15) ∧ s.adcInUse 15 = true ∧ s.get GRG_STATUS_BUSY = 1 ∧ s.mapFull = true) ∧
    (meets ({ b [(GRG_STATUS_BUSY, 1)] with grg := { diag := some { core := 15, ain := 31, gx := some 1 }, runs := 4 } }) fun s =>
      s.grg.diag = some { core := 15, ain := 31, gx := some (1 : Fin 2).val } ∧ s.grg.runs = 4) ∧
    (meets ({ base with gx := Vector.replicate 2 (.twin 0), grg := { diag := some { core := 0, ain := 0, gx := some 0, placed := true } } }) fun s =>
      s.grg.diag = some { core := 0, ain := 0, gx := some (0 : Fin 2).val, placed := true } ∧ s.gx[(0 : Fin 2)] = .twin 0 ∧
      s.gx[(1 : Fin 2)] ≠ .twin 5 ∧ s.grg.flags = [] ∧ s.retired 1 (s.physAdc 0) 0 = false ∧ (∀ p : Fin 8, s.grg.props[p] = none) ∧
      (∀ e ∈ s.grg.dismissed, e.2 ≠ (1, s.physAdc 0, 0)) ∧ s.get GRG_CFG_LIVE_AUTO = 0) ∧
    (meets ({ b [(GRG_CFG_LIVE_AUTO, 1)] with grg := { diag := some { core := 15, ain := 0, gx := some 1, placed := true }, flags := [(3, 7)] } }) fun s =>
      s.grg.flags = (3, 7) :: [] ∧ s.retired 1 (s.physAdc 15) 0 = false ∧ (∀ p : Fin 8, s.grg.props[p] = none) ∧
      s.get GRG_CFG_LIVE_AUTO = 1 ∧ s.mapFull = false) ∧
    (meets ({ base with grg := { diag := some { core := 0, ain := 0 } } }) fun s => s.grg.diag = some { core := 0, ain := 0 } ∧
      s.takeGx = some 0) := by
  simp only [meets, takes_iff]
  refine ⟨?_, ?_, ?_, ?_, ?_, ?_, ?_, ?_, ?_⟩ <;> decide +kernel

theorem witness_GrogWearAndMap :
    (meets base fun s => s.grg.pend = [] ∧ s.grg.errs = [] ∧ s.mapFull = false ∧ s.get GRG_CFG_AUTO_HARD = 1 ∧
      s.retired 6 31 255 = false ∧ s.retired 5 0 0 = false) ∧
    (meets ({ base with grg := { pend := [⟨2, 0, 5, some 0, false, true⟩] } }) fun s => s.grg.pend = [⟨2, 0, 5, some 0, false, true⟩]) ∧
    (monWarn 0 0x40400000 = true ∧ monWorn 0 0x40400000 = false ∧ monWarn 6 0 = false ∧ monWorn 6 0 = false ∧
      base.grg.warned.contains (0, 9, 255, subOf 9 255) = false ∧ monWarn 4 0x41800000 = false ∧ monWorn 4 0x41800000 = true) ∧
    (meets base fun s => monWorn 6 0x41800000 = true ∧ s.retired 7 255 (subOf 7 255) = false ∧ (∀ e ∈ s.grg.dismissed, e.2 ≠ (7, 255, subOf 7 255)) ∧
      (∀ p : Fin 8, s.grg.props[p] = none) ∧ s.crossing + 8 ≤ 64) := by
  refine ⟨?_, ?_, ?_, ?_⟩ <;> decide +kernel

theorem witness_WindowComparatorOutputs :
    (meets (win 31 { enabled := true } [(WIN_STATUS_FORCED 31, 0)]) fun s => s.wins[(31 : Fin 44)].enabled = true ∧
      s.wins[(31 : Fin 44)].blank = false ∧ s.get (WIN_STATUS_FORCED 31) = 0 ∧ s.wins[(31 : Fin 44)].testing = false ∧
      isPrivUnit 31 = false ∧ s.fired = true ∧ s.lineOf 31 = some 31 ∧ s.up .mod = true ∧ s.get (WIN_CFG_SENSE 31) = 0 ∧
      s.get (WIN_CFG_FILT 31) = 0) ∧
    (meets (win 31 { enabled := true } [(WIN_CFG_SENSE 31, 1), (WIN_CFG_FILT 31, 1), (WIN_CFG_MAJ_M 31, 2), (WIN_CFG_MAJ_N 31, 3)]) fun s =>
      s.get (WIN_CFG_SENSE 31) = 1 ∧ s.get (WIN_CFG_FILT 31) ≠ 0 ∧
      s.get (WIN_CFG_MAJ_M 31) ≤ (List.range (s.get (WIN_CFG_MAJ_N 31))).countP (fun i => (5 : BitVec 15).toNat.testBit i) ∧
      ¬(s.get (WIN_CFG_MAJ_M 31) ≤ (List.range (s.get (WIN_CFG_MAJ_N 31))).countP fun i => (0x7FF9 : BitVec 15).toNat.testBit i)) ∧
    (meets (win 31 { enabled := true } [(WIN_CFG_SENSE 31, 2)]) fun s => s.get (WIN_CFG_SENSE 31) = 2) ∧
    (meets (win 31 { enabled := true } [(WIN_STATUS_FORCED 31, 0), (SIT_ROUTE_CLASS 31, 1), (SIT_ROUTE_PAIRS 31, 0x100)]) fun s =>
      s.get (SIT_ROUTE_CLASS 31) = 1 ∧ (8 : Fin 9) ∈ s.guarded 31) ∧
    (meets (win 32 { enabled := true, capUnread := true } [(WIN_STATUS_STATE 32, 0), (WIN_STATUS_FORCED 32, 0), (WIN_CTRL_IRQ 32, 1), (WIN_CFG_IRQ_WAKE 32, 1)]) fun s =>
      isPrivUnit 32 = true ∧ s.get (WIN_STATUS_STATE 32) ≠ 2 ∧ s.get (WIN_STATUS_STATE 32) ≠ WinSide.above.code ∧
      s.wins[(32 : Fin 44)].capUnread = true ∧ s.get (WIN_CTRL_IRQ 32) = 1 ∧ s.get (WIN_CFG_IRQ_WAKE 32) = 1 ∧
      s.get (WIN_STATUS_FORCED 32) = 0) ∧
    (meets (win 39 { enabled := true } [(WIN_STATUS_STATE 39, 1), (WIN_STATUS_FORCED 39, 0)]) fun s => isPrivUnit 39 = true ∧
      s.get (WIN_STATUS_STATE 39) ≠ 2 ∧ s.get (WIN_STATUS_STATE 39) ≠ 0 ∧ s.wins[(39 : Fin 44)].enabled = true ∧
      s.wins[(39 : Fin 44)].testing = false) ∧
    (meets (win 39 { enabled := true } [(WIN_STATUS_FORCED 39, 0)]) fun s => s.get (WIN_STATUS_STATE 39) = 2 ∧
      s.get (WIN_STATUS_FORCED 39) = 0) ∧
    (meets (win 40 { enabled := true } [(WIN_STATUS_FORCED 40, 0)]) fun s => s.lineOf 40 = none ∧ isPrivUnit 40 = false ∧
      s.wins[(0 : Fin 44)].enabled = false) ∧
    (meets (win 0 { enabled := true, blank := true, blankHeld := some WinSide.below.code } []) fun s =>
      s.wins[(0 : Fin 44)].enabled = true ∧ s.wins[(0 : Fin 44)].blank = true ∧ s.wins[(0 : Fin 44)].blankHeld = some WinSide.below.code) ∧
    (meets (win 43 { enabled := true, blank := true, testing := true } [(WIN_STATUS_FORCED 43, 1)]) fun s =>
      s.wins[(43 : Fin 44)].blankHeld = none ∧ s.get (WIN_STATUS_FORCED 43) = 1 ∧ s.wins[(43 : Fin 44)].testing = true) ∧
    (meets (win 43 { enabled := true, blank := true, blankHeld := some WinSide.inside.code } []) fun s =>
      s.wins[(43 : Fin 44)].blankHeld = some WinSide.inside.code) ∧
    (meets (win 39 {} []) fun s => isPrivUnit 39 = true ∧ s.get (WIN_CFG_FILT 39) = 0 ∧ s.wins[(39 : Fin 44)].enabled = false) ∧
    (meets (win 39 { enabled := true, blank := true } []) fun s => s.wins[(39 : Fin 44)].enabled = true ∧ s.wins[(39 : Fin 44)].blank = true) ∧
    (meets (win 39 { enabled := true } [(WIN_STATUS_FORCED 39, 1), (WIN_CFG_SENSE 39, 2)]) fun s => s.wins[(39 : Fin 44)].enabled = true ∧
      s.wins[(39 : Fin 44)].blank = false ∧ s.get (WIN_STATUS_FORCED 39) = 1 ∧ s.get (WIN_CFG_SENSE 39) = 2) := by
  refine ⟨?_, ?_, ?_, ?_, ?_, ?_, ?_, ?_, ?_, ?_, ?_, ?_, ?_, ?_⟩ <;> decide +kernel

theorem witness_WindowComparatorCare :
    (meets (b [(WIN_THR_LIM_UPPER_MAX 43, 0xFFF)]) fun s => s.takes (.winThrWrite 43 0x0FFF0000) ∧
      0xFFF ≤ s.get (WIN_THR_LIM_UPPER_MAX 43) ∧ s.get (WIN_THR_LIM_LOWER_MIN 43) ≤ 0 ∧ s.wins[(43 : Fin 44)].shadow = none) ∧
    (meets (b [(WIN_THR_LIM_UPPER_MAX 0, 0x100), (WIN_THR_LIM_LOWER_MIN 0, 1)]) fun s => s.takes (.winThrWrite 0 0x01010001) ∧
      ¬((0x01010001 : Word).toNat / 2 ^ 16 % 4096 ≤ s.get (WIN_THR_LIM_UPPER_MAX 0)) ∧
      ¬(s.get (WIN_THR_LIM_LOWER_MIN 0) ≤ (0x01000000 : Word).toNat % 4096)) ∧
    (meets (win 0 { shadow := some 40 } [(WIN_THR_LIM_UPPER_MAX 0, 0xFFF)]) fun s => s.takes (.winThrWrite 0 0) ∧
      s.wins[(0 : Fin 44)].shadow = some (40 : Fin 44).val) ∧
    (meets (win 32 { enabled := true } []) fun s => s.wins[(32 : Fin 44)].enabled = true ∧ isPrivUnit 32 = true ∧
      s.get (WIN_STATUS_TEST_BUSY 32) = 0 ∧ s.get (WIN_STATUS_STATE 32) = 2 ∧ s.wins[(0 : Fin 44)].enabled = false) ∧
    (meets (win 31 { enabled := true } [(WIN_STATUS_FORCED 31, 1)]) fun s => s.wins[(31 : Fin 44)].enabled = true ∧
      isPrivUnit 31 = false ∧ s.get (WIN_STATUS_TEST_BUSY 31) = 0 ∧ s.get (WIN_STATUS_FORCED 31) = 1 ∧ s.sensed 31 .inside = .inside ∧
      s.sensed 31 .above ≠ .inside ∧ s.wins[(31 : Fin 44)].testing = false) ∧
    (meets (win 31 { enabled := true, testing := true, shadow := some 43 } [(WIN_STATUS_FORCED 31, 1)]) fun s =>
      s.get (WIN_STATUS_TEST_BUSY 31) = 0 ∧ s.sensed 31 .inside = .inside ∧ s.wins[(31 : Fin 44)].testing = true ∧
      s.wins[(31 : Fin 44)].shadow = some (43 : Fin 44).val ∧ (43 : Fin 44) ≠ 31) ∧
    (meets (win 32 { shadow := some 40 } [(WIN_STATUS_TEST_BUSY 32, 1), (WIN_STATUS_FORCED 40, 1)]) fun s => isPrivUnit 32 = true ∧
      s.get (WIN_STATUS_TEST_BUSY 32) = 1 ∧ s.wins[(32 : Fin 44)].shadow = some (40 : Fin 44).val ∧ s.wins[(32 : Fin 44)].shadow ≠ some (32 : Fin 44).val) ∧
    (meets (b [(SIT_ROUTE_PAIRS 31, 0x100)]) fun s => s.takes (.shadow 31) ∧ isTripUnit 31 = true ∧ s.fired = true ∧
      (8 : Fin 9) ∈ s.guarded (31 : Fin 44).val ∧ s.wins[(31 : Fin 44)].shadow = none) ∧
    (meets (b [(WIN_STATUS_TEST_BUSY 43, 1)]) fun s => s.takes (.selftest 43) ∧ s.selftestRefused 43 = true ∧
      s.get (WIN_STATUS_TEST_BUSY 43) = 1 ∧ s.get (WIN_STATUS_TEST_BUSY 0) = 0) ∧
    (meets base fun s => s.takes (.selftest 0) ∧ s.selftestRefused 0 = false ∧ s.takes (.shadow 39) ∧ (spares.find? fun x =>
      s.wins[x].shadowOf.isNone && s.grogSpareWin x) = some 40 ∧ s.wins[(39 : Fin 44)].shadow = none ∧ (39 : Fin 44).val < 40 ∧
      s.takes (.shadow 40) ∧ 40 ≤ (40 : Fin 44).val) ∧
    (meets ({ base with wins := Vector.replicate 44 { shadowOf := some 1 } }) fun s => s.takes (.shadow 0) ∧ (spares.find? fun x =>
      s.wins[x].shadowOf.isNone && s.grogSpareWin x) = none) ∧
    (meets (win 0 { shadow := some 40 } [(WIN_STATUS_FORCED 40, 1)]) fun s => s.wins[(0 : Fin 44)].shadow = some 40 ∧
      s.get (WIN_STATUS_FORCED 40) = 1) ∧
    (meets (win 0 { shadow := some 43 } [(WIN_STATUS_FORCED 43, 0)]) fun s => s.wins[(0 : Fin 44)].shadow = some 43 ∧
      s.get (WIN_STATUS_FORCED 43) = 0) := by
  simp only [meets, takes_iff]
  refine ⟨?_, ?_, ?_, ?_, ?_, ?_, ?_, ?_, ?_, ?_, ?_, ?_, ?_⟩ <;> decide +kernel

theorem witness_ClearStopFollowsTheCauses :
    (meets (b [(SIT_CAUSE_CAUSE, 0x8000), (PWR_STATUS_PF, 1)]) fun s => s.takes .clearStop ∧ s.activeCauses ≠ 0 ∧ s.takes (.stop true)) ∧
    (meets (b [(SIT_CAUSE_CAUSE, 1), (SIT_STATUS_BLOCK_STOP, 1)]) fun s => s.takes .clearStop ∧ s.activeCauses = 0 ∧ s.sit.orderTiles = []) ∧
    (meets ({ b [(SIT_CAUSE_CAUSE, 1), (SIT_STATUS_BLOCK_STOP, 1), (SIT_STATUS_STAGE, 1)] with sit := { orderTiles := [8] } }) fun s =>
      s.activeCauses = 0 ∧ s.sit.orderTiles ≠ []) := by
  simp only [meets, takes_iff]
  refine ⟨?_, ?_, ?_⟩ <;> decide +kernel

theorem witness_StopsAndTheSafeOrder :
    (meets (b [(SET_STATUS_ARMED 8, 1)]) fun s => s.takes (.stop true) ∧ s.takes (.stop false) ∧ s.get SIT_STATUS_BLOCK_STOP = 0 ∧
      s.get (SET_STATUS_ARMED 8) = 1) ∧
    (meets ({ b [(SIT_STATUS_STAGE, 1), (SET_CH_STATUS_ON 8 1, 1)] with tiles := base.tiles.set 8 { ch := base.tiles[8].ch.set 1 { stopDue := true } } }) fun s =>
      s.get SIT_STATUS_STAGE = 1 ∧ (s.chan 8 1).stopDue = true ∧ s.get (SET_CH_STATUS_ON 8 1) = 1 ∧ (s.chan 8 0).stopDue = false) ∧
    (meets ({ base with sit := { orderTiles := [0] } }) fun s => (0 : Fin 9).val ∈ s.sit.orderTiles ∧ s.tileOff 0 = true ∧
      s.sit.orderTiles.filter (· != 0) = [] ∧ s.get SIT_STATUS_STAGE ≠ 1) ∧
    (meets ({ base with sit := { orderTiles := [3, 8] } }) fun s => (8 : Fin 9).val ∈ s.sit.orderTiles ∧ s.tileOff 8 = true ∧
      s.sit.orderTiles.filter (· != 8) ≠ [] ∧ (0 : Fin 9).val ∉ s.sit.orderTiles) ∧
    (meets base fun s => s.takes .plantStop ∧ s.takes .clearPlant ∧ s.isManager = false ∧ s.takes (.pairStatClear 0x1FF) ∧
      (∀ p : Fin 9, s.tripInput p = false)) ∧
    (meets ({ mgr [(SIT_STATUS_PLANT_OUT, 1)] with glz := { base.glz with firePlantCause := true } }) fun s => s.takes .clearPlant ∧
      s.isManager = true ∧ s.glz.firePlantCause = true) ∧
    (meets ({ mgr [] with sit := { plantFw := true } }) fun s => s.takes .clearPlant ∧ s.takes .plantStop ∧ s.isManager = true ∧
      (s.withSit { s.sit with plantFw := false }).plantCause = false ∧ s.glz.firePlantCause = false) ∧
    (meets ({ b route8 with tiles := base.tiles.set 8 { bootTrip := true } }) fun s => s.takes (.pairStatClear 1) ∧
      (1 : BitVec 9).toNat.testBit 0 = true ∧ s.tripInput 0 = true) := by
  simp only [meets, takes_iff]
  refine ⟨?_, ?_, ?_, ?_, ?_, ?_, ?_, ?_⟩ <;> decide +kernel

theorem witness_MeterSamplesAndEvents :
    (meets (b [(MET_CFG_EN, 1), (MET_CFG_ARR, 0), (MET_STATUS_WRONG_SEQ, 0)]) fun s => s.up .meter = true ∧ s.get MET_CFG_EN = 1 ∧
      s.met.resetDue = false ∧ s.met.aggCount < 14 ∧ s.get MET_STATUS_WRONG_SEQ ≠ true.toNat ∧ s.get MET_STATUS_MISS_N ≠ true.toNat ∧
      s.get MET_CFG_ARR ≠ 1 ∧ valZero (s.get MET_CFG_ARR) 0 11 3 = true) ∧
    (meets ({ b [(MET_CFG_EN, 1), (MET_CFG_ARR, 1), (MET_STATUS_WRONG_SEQ, 1)] with met := { base.met with resetDue := true, aggCount := 14, aggAt := some (0, 0, 0), gains := base.met.gains.set 3 { settle := 1 } } }) fun s =>
      s.met.resetDue = true ∧ s.pfSaving = false ∧ 14 ≤ s.met.aggCount ∧ s.met.aggAt = some (0, 0, 0) ∧ s.aggStepped = false ∧
      s.aggSeconds / 10 = 0 ∧ s.met.gains[(3 : Fin 4)].settle = 1 ∧
      s.met.gains[(0 : Fin 4)].settle ≠ 1 ∧ s.get MET_STATUS_WRONG_SEQ ≠ false.toNat ∧ s.get MET_CFG_ARR = 1) ∧
    (meets base fun s => s.get MET_CFG_EN ≠ 1) ∧
    (meets ({ b [(MET_CFG_EN, 1)] with met := { base.met with resetDue := true, saving := some ⟨true, [], 0, false⟩, aggAt := some (1, 1, 1), aggBase := some (false, 700) } }) fun s =>
      s.get MET_CFG_EN = 1 ∧ s.met.resetDue = true ∧ s.pfSaving = true ∧ s.met.aggAt ≠ none ∧ s.aggStepped = true) ∧
    (meets ({ b [(MET_CFG_EN, 1), (MET_CFG_ARR, 0)] with met := { base.met with frame := [⟨List.replicate 20 0, List.replicate 4 (0, 0, 0), List.replicate 4 (0, 0, 0)⟩] } }) fun s =>
      s.get MET_CFG_EN = 1 ∧ s.met.aggAt = none ∧ valZero (s.get MET_CFG_ARR) 0 (0 : Fin 18) (0 : Fin 4) = false ∧ (0 : Fin 18) ≠ 11 ∧
      (s.quantity (s.basicSum s.free) (0 : Fin 18) (0 : Fin 4)).isSome = true) ∧
    (meets (b [(MET_CFG_EN, 1), (MET_RATED_V_V, 0x3F800000), (MET_RATED_I_I, 0x3F800000), (MET_THR_RF_MIN, 10)]) fun s =>
      flt 0xBF800000 (fneg s.reverseLimit) = true ∧ s.bitAt MET_STATUS_DIR 2 = false ∧ flt s.reverseLimit 0xBF800000 = false) ∧
    (meets (b [(MET_CFG_EN, 1), (MET_RATED_V_V, 0x3F800000), (MET_RATED_I_I, 0x3F800000), (MET_THR_RF_MIN, 10), (MET_STATUS_DIR, 1)]) fun s =>
      flt s.reverseLimit 0x3F800000 = true ∧ s.bitAt MET_STATUS_DIR 0 = true) := by
  refine ⟨?_, ?_, ?_, ?_, ?_, ?_, ?_⟩ <;> decide +kernel

theorem witness_SavesAndTheJournal :
    (meets ({ base with pug := { aonNs := 1000000000 } }) fun s => s.up .meter = true ∧ s.met.saving = none ∧
      s.met.saved = [] ∧ s.moduleTime / 1000000000 = 1) ∧
    (meets ({ base with pug := { aonNs := 1000000000 }, met := { base.met with saved := [(3, 4), (0, 0)] } }) fun s => s.met.saving = none ∧
      ∀ r ∈ s.met.saved, ¬(r.1 ≤ s.moduleTime / 1000000000 ∧ s.moduleTime / 1000000000 ≤ r.2)) ∧
    (meets ({ base with met := { base.met with saved := [(0, 0)] } }) fun s => (∃ r ∈ s.met.saved, r.1 ≤ s.moduleTime / 1000000000 ∧
      s.moduleTime / 1000000000 ≤ r.2) ∧ s.met.saving = none ∧ latestSave s.met.copies = none ∧ s.met.jq = []) ∧
    (meets ({ base with met := { base.met with saving := some ⟨false, [], 0, false⟩ } }) fun s =>
      s.met.saving = some ⟨false, [], 0, false⟩) ∧
    (meets ({ base with met := { base.met with saving := some ⟨true, [], 0, false⟩ } }) fun s => s.met.saving = some ⟨true, [], 0, false⟩) ∧
    (meets ({ base with met := { base.met with saving := some ⟨false, [], 0, true⟩ } }) fun s => s.met.saving = some ⟨false, [], 0, true⟩) ∧
    (meets ({ base with met := { base.met with saving := some ⟨true, [], 0, true⟩, entriesOpen := true } }) fun s =>
      s.met.saving = some ⟨true, [], 0, true⟩ ∧ s.met.entriesOpen = true ∧ s.crossing ≤ 62) ∧
    (meets ({ b [(GRG_CFG_AUTO_HARD, 1)] with met := { base.met with saving := some ⟨true, [], 0, false⟩ } }) fun s =>
      s.met.saving = some ⟨true, [], 0, false⟩ ∧ s.get GRG_CFG_AUTO_HARD = 1 ∧ s.mapFull = false ∧ s.retired 7 (3 : BitVec 8).toNat 0 = false ∧
      s.retired 7 (255 : BitVec 8).toNat 0 = false) ∧
    (meets ({ base with met := { base.met with copies := ({ seq := 1, crcOk := true, pf := true }, {}) } }) fun s => s.up .meter = true ∧
      latestSave s.met.copies = some { seq := 1, crcOk := true, pf := true }) ∧
    (meets ({ base with met := { base.met with copies := ({ seq := 1, crcOk := true, pf := true }, { seq := 2, crcOk := true }), entriesOpen := true, jq := [⟨0x20, 0, 0, [], 0, false, false⟩, ⟨1, 0, 0, [], 0, false, false⟩, ⟨3, 0, 0, [], 0, false, false⟩] } }) fun s =>
      s.up .meter = true ∧ latestSave s.met.copies = some { seq := 2, crcOk := true } ∧ s.met.entriesOpen = true ∧
      s.met.jq = [⟨0x20, 0, 0, [], 0, false, false⟩] ++ (⟨1, 0, 0, [], 0, false, false⟩ : JRec) :: [⟨3, 0, 0, [], 0, false, false⟩] ∧
      (∀ r ∈ [(⟨3, 0, 0, [], 0, false, false⟩ : JRec)], r.typ ≠ 1)) ∧
    (meets ({ base with met := { base.met with copies := ({ seq := 2, crcOk := true }, {}), entriesOpen := false }, sag := { base.sag with held := [⟨0x20, 0, 0, [], 0, false, false⟩] } }) fun s =>
      s.up .meter = true ∧ latestSave s.met.copies = some { seq := 2, crcOk := true } ∧ s.met.entriesOpen = false ∧ s.sag.held.length < 8 ∧
      ∀ r ∈ s.sag.held, r.typ ≠ 1) ∧
    (meets ({ base with met := { base.met with jq := [⟨4, 0, 0, [], 0, false, false⟩], jbuf := List.replicate 60 (0, 0, 0, 0) } }) fun s =>
      s.met.jq = [⟨4, 0, 0, [], 0, false, false⟩] ∧ 60 < s.met.jbuf.length + 1) ∧
    (meets ({ base with met := { base.met with jq := [⟨3, 0, 0, [], 0, false, false⟩], jbuf := List.replicate 63 (0, 0, 0, 0) } }) fun s =>
      s.met.jq = [⟨3, 0, 0, [], 0, false, false⟩] ∧ s.met.jbuf.length + 1 ≤ 64) ∧
    (meets (b [(MET_JRNL_WR0_TYPE, 0x7F)]) fun s => s.takes .jrnlCommit ∧ s.get MET_JRNL_WR0_TYPE < 0x80) ∧
    (meets (b [(MET_JRNL_WR0_TYPE, 0x80)]) fun s => s.takes .jrnlCommit ∧ 0x80 ≤ s.get MET_JRNL_WR0_TYPE) := by
  simp only [meets, takes_iff]
  refine ⟨?_, ?_, ?_, ?_, ?_, ?_, ?_, ?_, ?_, ?_, ?_, ?_, ?_, ?_, ?_⟩ <;> decide +kernel

theorem witness_ClocksAndPlls :
    (meets (b [(CLK_REF_LOST, 1), (CLK_PLL_STATUS_HOLDOVER 1, 1), (CLK_PLL_STATUS_LOCK 6, 1)]) fun s => s.get CLK_REF_LOST = 1 ∧
      s.get (CLK_PLL_STATUS_HOLDOVER 1) = 1 ∧ s.get (CLK_PLL_STATUS_LOCK 6) = 1 ∧ s.get (CLK_PLL_STATUS_HOLDOVER 6) = 0 ∧
      s.get (CLK_PLL_STATUS_LOCK 0) = 0) ∧
    (meets (b [(CLK_PLL_STATUS_ON 6, 1)]) fun s => s.get CLK_REF_LOST = 0 ∧ s.get (CLK_PLL_STATUS_ON 6) = 1 ∧
      s.get (CLK_PLL_STATUS_HOLDOVER 6) = 0 ∧ s.get (CLK_PLL_STATUS_ON 1) = 0) ∧
    (meets (b [(CLK_PLL_STATUS_ON 6, 1), (CLK_REF_VALID, 0)]) fun s => s.get (CLK_PLL_STATUS_ON 6) = 1 ∧ s.get CLK_REF_VALID ≠ 1) ∧
    (meets (b [(CLK_PLL_CTRL_EN 6, 1)]) fun s => s.takes (.pllEnWrite 6 true) ∧ s.get (CLK_PLL_CTRL_EN 6) = 1 ∧
      s.takes (.pllConfigWrite 6 true 0) ∧ s.pllKept 6 = false ∧ s.takes (.pllEnWrite 6 false)) ∧
    (meets (b [(CLK_PLL_CTRL_EN 3, 0), (CLK_PLL_DIV_M 3, 0)]) fun s => s.takes (.pllEnWrite 3 true) ∧ s.get (CLK_PLL_CTRL_EN 3) = 0 ∧
      s.pllOk 3 = false ∧ s.pllKept 3 = false ∧ s.takes (.pllEnWrite 3 false) ∧ s.takes (.pllConfigWrite 3 false 0x30) ∧
      (0x30 : Word).toNat / 2 ^ 4 % 4 = 3 ∧ s.takes (.pllConfigWrite 3 false 0x20)) ∧
    (meets (b [(CLK_PLL_CTRL_EN 0, 0)]) fun s => s.takes (.pllEnWrite 0 true) ∧ s.get (CLK_PLL_CTRL_EN 0) = 0 ∧ s.pllOk 0 = true ∧
      s.get CLK_REF_LOST = 0 ∧ s.pllKept 0 = true) ∧
    (meets (b [(CLK_PLL_CTRL_EN 0, 0), (CLK_REF_LOST, 1)]) fun s => s.pllOk 0 = true ∧ s.get CLK_REF_LOST = 1 ∧
      s.get (CLK_PLL_STATUS_HOLDOVER 0) = 0) ∧
    (meets (b [(CLK_PLL_STATUS_ON 6, 1), (CLK_PLL_STATUS_HOLDOVER 0, 1), (CLK_REF_VALID, 1)]) fun s => s.get (CLK_PLL_STATUS_ON 6) = 1 ∧
      s.get (CLK_PLL_STATUS_HOLDOVER 6) = 0 ∧ s.get CLK_REF_LOST = 0 ∧ s.get (CLK_PLL_STATUS_HOLDOVER 0) = 1 ∧ s.get CLK_REF_VALID = 1) ∧
    (meets ({ base with clk := Vector.replicate 7 { reacq := true, stepLeft := true, target := 257 } }) fun s =>
      s.clk[(6 : Fin 7)].reacq = true ∧ s.mod.hopWait = false ∧ s.clk[(0 : Fin 7)].stepLeft = true ∧ s.get (CLK_PLL_STATUS_HOLDOVER 0) = 0) ∧
    (meets ({ base with clk := Vector.replicate 7 { reacq := true }, mod := { base.mod with hopWait := true, hopDue := some (-8) } }) fun s =>
      s.clk[(2 : Fin 7)].reacq = true ∧ s.mod.hopWait = true ∧ s.mod.hopDue = some (-8) ∧ (-8 : Int) ≠ s.hopStep) ∧
    (meets (b [(CLK_PLL_STATUS_ON 0, 1)]) fun s => s.takes (.pllStep 0 4) ∧ s.get (CLK_PLL_STATUS_ON 0) = 1 ∧
      s.get (CLK_PLL_STATUS_HOLDOVER 0) = 0 ∧ -4 ≤ (0xC : BitVec 4).toInt ∧ (4 : BitVec 4).toInt ≤ 4 ∧ s.takes (.pllStep 0 0xC) ∧
      s.takes (.pllStep 0 5) ∧ ¬((5 : BitVec 4).toInt ≤ 4) ∧ s.clk[(0 : Fin 7)].stepLeft = false) ∧
    (meets ({ b [(CLK_PLL_STATUS_LOCK 2, 1)] with clk := base.clk.set 2 { stepLeft := true } }) fun s => s.get (CLK_PLL_STATUS_LOCK 2) = 1 ∧
      s.get (CLK_PLL_STATUS_HOLDOVER 2) = 0 ∧ s.clk[(2 : Fin 7)].stepLeft = true) ∧
    (meets ({ b [(CLK_PLL_STATUS_HOLDOVER 2, 1), (CLK_REF_VALID, 1)] with clk := base.clk.set 2 { stepLeft := true } }) fun s =>
      s.get (CLK_PLL_STATUS_HOLDOVER 2) = 1 ∧ s.get CLK_REF_VALID = 1 ∧ s.clk[(2 : Fin 7)].stepLeft = true) := by
  simp only [meets, takes_iff]
  refine ⟨?_, ?_, ?_, ?_, ?_, ?_, ?_, ?_, ?_, ?_, ?_, ?_, ?_⟩ <;> decide +kernel

theorem witness_LaneTrainingAndPowerStates :
    (meets ({ b [(LANE_STATUS_STATE 5, 1)] with clk := base.clk.set 6 {} }) fun s => s.laneState 5 = 1 ∧ s.up (.serial 5) = false ∧
      s.up (.serial 2) = true) ∧
    (meets (b [(LANE_STATUS_STATE 5, 1), (LANE_STATUS_STATE 4, 2)]) fun s => s.laneState 5 = 1 ∧ s.up (.serial 5) = true ∧ s.laneState 4 = 2 ∧ s.up (.serial 4) = true ∧
      s.lanes[(4 : Fin 6)].attempts < 2 ∧ s.lanes[(4 : Fin 6)].fresh = false) ∧
    (meets ({ mgr [(LANE_STATUS_STATE 3, 2), (LANE_ROLE_ROLE 3, 4)] with lanes := Vector.replicate 6 { fresh := true, attempts := 2 } }) fun s =>
      s.laneState 3 = 2 ∧ s.up (.serial 3) = true ∧ (3 : Fin 6).val = (3 : Fin 4).val ∧ s.lanes[(3 : Fin 6)].fresh = true ∧ s.isManager = true ∧
      s.get (LANE_ROLE_ROLE 3) = 4 ∧ 2 ≤ s.lanes[(3 : Fin 6)].attempts) ∧
    (meets (b [(LANE_STATUS_STATE 0, 7), (LANE_ROLE_ROLE 0, 4), (LANE_STATUS_STATE 1, 7), (LANE_ROLE_ROLE 1, 0)]) fun s =>
      s.laneState 0 = 7 ∧ s.up (.serial 0) = true ∧ s.get (LANE_ROLE_ROLE 0) ≠ 0 ∧ s.laneState 1 = 7 ∧ s.get (LANE_ROLE_ROLE 1) = 0) ∧
    (meets ({ b [(LANE_STATUS_STATE 0, 3), (LANE_ROLE_ROLE 0, 4), (LANE_ROLE_GEN 0, 1)] with wlk := { bulk := some {} } }) fun s =>
      s.laneState 0 = 3 ∧ s.laneEth 0 = false ∧ s.get (LANE_ROLE_ROLE 0) = 4 ∧ s.wlk.bulk = some {} ∧ s.get (LANE_ROLE_GEN 0) ≠ 0 ∧
      s.takes (.retrain 0)) ∧
    (meets (b [(LANE_STATUS_STATE 5, 3), (LANE_ROLE_ROLE 5, 5)]) fun s => s.laneState 5 = 3 ∧ s.laneEth 5 = true ∧ s.takes (.retrain 5) ∧
      s.takes (.l1 5)) ∧
    (meets (b [(LANE_STATUS_STATE 5, 3), (LANE_ROLE_AUTO_L1 5, 1)]) fun s => s.takes (.l1 5) ∧ s.takes (.l2 5) ∧
      s.glz.active.isSome = false ∧ s.laneState 5 = 3 ∧ s.lanes[(5 : Fin 6)].req = none ∧ s.laneEth 5 = false ∧
      s.get (LANE_ROLE_AUTO_L1 5) = 1) ∧
    (meets ({ b [(LANE_ROLE_ROLE 0, 4)] with glz := { base.glz with active := some ⟨{}, {}, 0, 0⟩ } }) fun s => s.takes (.l2 0) ∧
      s.glz.active.isSome = true ∧ s.get (LANE_ROLE_ROLE 0) ∈ [1, 2, 4]) ∧
    (meets (b [(LANE_STATUS_STATE 5, 5), (LANE_STATUS_STATE 0, 4), (LANE_STATUS_STATE 1, 3)]) fun s => s.takes (.wake 5) ∧
      s.laneState 5 = 5 ∧ s.takes (.wake 0) ∧ s.laneState 0 = 4 ∧ s.takes (.wake 1) ∧ s.laneState 1 = 3) ∧
    (meets ({ b [(LANE_STATUS_STATE 5, 3)] with lanes := Vector.replicate 6 { req := some 5 } }) fun s => s.laneState 5 = 3 ∧
      s.laneEth 5 = false ∧ s.lanes[(5 : Fin 6)].req = some 5) := by
  simp only [meets, takes_iff]
  refine ⟨?_, ?_, ?_, ?_, ?_, ?_, ?_, ?_, ?_, ?_⟩ <;> decide +kernel

theorem witness_LaneTests :
    (∀ a ∈ [3, 0, 2, 1], a < 4) ∧
    (meets (b [(LANE_ROLE_ROLE 5, 5), (LANE_STATUS_STATE 0, 6), (LANE_ROLE_ROLE 0, 4), (SET_STATUS_ARMED 0, 1)]) fun s =>
      s.takes (.testEnter 5) ∧ s.laneEth 5 = true ∧ s.takes (.testEnter 0) ∧ s.laneEth 0 = false ∧ s.laneTestOk 0 = false ∧
      s.takes (.testExit 0) ∧ s.laneState 0 = 6 ∧ s.takes (.testExit 5) ∧ s.laneState 5 ≠ 6 ∧ s.takes (.rlbReq 0 true none) ∧
      s.takes (.rlbReq 5 false none)) ∧
    (meets base fun s => s.takes (.testEnter 5) ∧ s.laneEth 5 = false ∧ s.laneTestOk 5 = true ∧ s.takes (.patCfgWrite 5 7) ∧
      s.patAllowed 5 7 = false ∧ s.takes (.patCfgWrite 5 0x35) ∧ s.patAllowed 5 5 = true ∧ s.takes (.inject 5) ∧
      s.get (LANE_PAT_CFG_INJECT 5) = 0 ∧ s.takes (.loopWrite 5 3) ∧ s.takes (.rlbReq 5 true none) ∧ s.laneState 5 ≠ 3 ∧ s.laneState 5 ≠ 6 ∧
      s.takes (.rlbReq 5 false none) ∧ s.get (LANE_STATUS_RLB_STATE 5) ≠ 2) ∧
    (meets (b [(LANE_PAT_CFG_CHK_EN 5, 1), (LANE_PAT_CFG_INJECT 5, 1), (LANE_PAT_CFG_LOCK 0, 1)]) fun s =>
      s.get (LANE_PAT_CFG_CHK_EN 5) = 1 ∧ s.get (LANE_PAT_CFG_LOCK 5) = 0 ∧ s.takes (.inject 5) ∧ s.get (LANE_PAT_CFG_INJECT 5) = 1 ∧
      s.get (LANE_PAT_CFG_LOCK 0) = 1) ∧
    (meets (b [(LANE_ROLE_ROLE 5, 5), (LANE_STATUS_STATE 0, 3), (LANE_STATUS_RLB_STATE 1, 2)]) fun s => s.takes (.loopWrite 5 3) ∧
      s.laneEth 5 = true ∧ (3 : BitVec 2) ≠ 0 ∧ s.takes (.rlbReq 0 true (some false)) ∧ s.laneEth 0 = false ∧ s.laneState 0 = 3 ∧
      s.takes (.rlbReq 1 false none) ∧ s.get (LANE_STATUS_RLB_STATE 1) = 2 ∧ s.get (LANE_STATUS_RLB_ACTIVE 0) ≠ 1) ∧
    (meets (b [(LANE_ROLE_ALLOW_RLB 5, 1), (LANE_STATUS_RLB_ACTIVE 5, 1)]) fun s => s.get (LANE_ROLE_ALLOW_RLB 5) = 1 ∧
      s.laneTestOk 5 = true ∧ s.get (LANE_STATUS_RLB_ACTIVE 5) = 1 ∧ s.laneEth 5 = false) ∧
    (meets (b [(LANE_STATUS_STATE 5, 3), (LANE_MARGIN_THR_V_MIN 5, 10), (LANE_MARGIN_THR_H_MIN 5, 10)]) fun s => s.laneState 5 = 3 ∧
      (9 : BitVec 10).toNat < s.get (LANE_MARGIN_THR_V_MIN 5) ∧ ¬((10 : BitVec 10).toNat < s.get (LANE_MARGIN_THR_V_MIN 5)) ∧
      ¬((10 : BitVec 10).toNat < s.get (LANE_MARGIN_THR_H_MIN 5)) ∧ s.laneState 0 ≠ 3) ∧
    (meets (b [(LANE_ROLE_ALLOW_RLB 5, 0)]) fun s => s.laneEth 5 = false ∧ ¬(s.get (LANE_ROLE_ALLOW_RLB 5) = 1)) := by
  simp only [meets, takes_iff]
  refine ⟨?_, ?_, ?_, ?_, ?_, ?_, ?_, ?_⟩ <;> decide +kernel

theorem witness_PlantExchange :
    (meets State.reset fun s => ¬(s.up .lane = true) ∧ ¬(s.isManager = true) ∧ ¬(s.isWorker = true)) ∧
    (meets (wkr []) fun s => s.up .lane = true ∧ s.isWorker = true ∧ s.wlk.frame = none ∧ s.get SYS_ROLE_WORKER_NO ≠ 0 ∧ s.wlk.up = none) ∧
    (meets ({ wkr [] with wlk := { frame := some {}, linkMiss := 3 } }) fun s => s.isWorker = true ∧ s.wlk.frame.isSome = true) ∧
    (meets ({ wkr [(RGS_SUPV_LINKLOSS, 3)] with wlk := { linkMiss := 3 } }) fun s => s.isWorker = true ∧ s.get RGS_SUPV_LINKLOSS ≠ 0 ∧
      s.get RGS_SUPV_LINKLOSS ≤ s.wlk.linkMiss ∧ s.up .mod = true ∧ s.get SIT_STATUS_BLOCK_STOP = 0) ∧
    (meets ({ mgr [(WLK_PLANT_STATUS_RING, 8)] with wlk := { restore := true } }) fun s => s.isManager = true ∧ s.wlk.restore = true ∧
      s.bitAt WLK_PLANT_STATUS_RING (3 : Fin 4) = true) ∧
    (meets (mgr []) fun s => s.up .lane = true ∧ s.isManager = true ∧ s.wlk.numbered = [] ∧ s.wlk.tags = [] ∧ s.wlk.bulk = none) ∧
    (meets ({ mgr [] with wlk := { numbered := [(31, 3, 7)], credits := [(31, 31, 32)] } }) fun s => s.wlk.numbered = [(31, 3, 7)] ∧
      (s.wlk.credits.any (·.1 == (31 : BitVec 5).toNat)) = true ∧ s.wlk.tags = [] ∧ s.wlk.bulk = none ∧ s.laneTo (31, 3, 7) < 6) ∧
    (meets ({ wkr [] with wlk := { period := 6 } }) fun s => (7 : Word).toNat = (s.wlk.period + 1) % 2 ^ 32 ∧
      s.get SYS_ROLE_WORKER_NO ≠ 0 ∧ (s.wlk.period + 2 ^ 32 - (6 : Word).toNat) % 2 ^ 32 < 2 ^ 31 ∧
      ¬((s.wlk.period + 2 ^ 32 - (8 : Word).toNat) % 2 ^ 32 < 2 ^ 31)) ∧
    (meets ({ mgr [] with wlk := { numbered := [(1, 3, 0)], credits := [(1, 0, 0)], tags := [⟨0, none, [1], true, 0, false, 0, false, false⟩] } }) fun s =>
      s.wlk.tags = [⟨0, none, [(1 : BitVec 5).toNat], true, 0, false, 0, false, false⟩] ∧ s.wlk.bulk = none ∧ s.chainOf (1 : BitVec 5).toNat < 6 ∧
      s.is4100 (1 : BitVec 5).toNat = false ∧ 1 ≤ (s.creditsOf (1 : BitVec 5).toNat).1 + (1 : BitVec 6).toNat) ∧
    (meets ({ mgr [(WLK_PRESULT_PART 1, 0x4100)] with wlk := { numbered := [(1, 3, 0)], tags := [⟨0, none, [1], true, 0, false, 0, false, false⟩] } }) fun s =>
      s.wlk.tags = [⟨0, none, [(1 : BitVec 5).toNat], true, 0, false, 0, false, false⟩] ∧ s.wlk.bulk = none ∧ s.chainOf (1 : BitVec 5).toNat < 6 ∧
      s.is4100 (1 : BitVec 5).toNat = true) ∧
    (meets (mgr [(SIT_STATUS_PLANT_OUT, 1)]) fun s => s.up .lane = true ∧ s.isManager = true ∧ s.get SIT_STATUS_PLANT_OUT = 1) ∧
    (meets ({ wkr [] with wlk := { period := 0 } }) fun s => (s.wlk.period + 2 ^ 32 - (0xFFFFFFFF : Word).toNat) % 2 ^ 32 < 2 ^ 31 ∧
      (0 : Fin 6) = s.upLane ∧ s.get SYS_ROLE_WORKER_NO = (1 : BitVec 5).toNat ∧ s.wlk.up = none ∧ s.wlk.nacks = 0 ∧ (5 : Fin 6) ≠ s.upLane) := by
  refine ⟨?_, ?_, ?_, ?_, ?_, ?_, ?_, ?_, ?_, ?_, ?_, ?_⟩ <;> decide +kernel

theorem witness_PlantTimeAndDiscovery :
    (meets (b [(LANE_STATUS_STATE 5, 3), (LANE_ROLE_ROLE 5, 4), (LANE_STATUS_STATE 0, 3), (LANE_ROLE_ROLE 0, 1)]) fun s =>
      s.laneState 5 = 3 ∧ (s.get (LANE_ROLE_ROLE 5) = 2 ∨ s.get (LANE_ROLE_ROLE 5) = 4) ∧ s.laneState 0 = 3 ∧
      ¬(s.get (LANE_ROLE_ROLE 0) = 2 ∨ s.get (LANE_ROLE_ROLE 0) = 4) ∧ s.laneState 1 ≠ 3 ∧ s.lanes[(5 : Fin 6)].delays = []) ∧
    (meets ({ mgr [(MOD_EPOCH_EPOCH, 100000)] with lanes := Vector.replicate 6 { t1 := 0 }, mod := { base.mod with epochCnt := 10000 } }) fun s =>
      s.isManager = true ∧ s.lanes[(0 : Fin 6)].delays = [] ∧
      150000 < s.stepsToPs (s.epochDiff 10000 0 - ((0 : BitVec 24) - 0).toNat) / 2 + s.getI (LANE_ASYM_ASYM 0)) ∧
    (meets (wkr []) fun s => s.up .lane = true ∧ s.isWorker = true ∧ s.get MOD_EPOCH_EPOCH = 0 ∧ s.get WLK_SYNC_CFG_PTP_FOLLOW ≠ 1 ∧
      s.wlk.reversed = false ∧ s.wlk.position = none) ∧
    (meets ({ wkr [(MOD_EPOCH_EPOCH, 100)] with wlk := { lockCnt := 15 } }) fun s => s.get MOD_EPOCH_EPOCH ≠ 0 ∧ 15 ≤ s.wlk.lockCnt ∧
      ((s.mod.epochCnt : Int) - s.psToSteps (s.get WLK_CUM_DELAY_PS) - (0 : BitVec 24).toNat) % 100 = 0 ∧
      ((s.mod.epochCnt : Int) - s.psToSteps (s.get WLK_CUM_DELAY_PS) - (50 : BitVec 24).toNat) % 100 = 50) ∧
    (meets (wkr [(WLK_SYNC_CFG_PTP_FOLLOW, 1), (CLK_PLL_STATUS_ON 3, 1)]) fun s => s.get WLK_SYNC_CFG_PTP_FOLLOW = 1 ∧ s.netRuns = true ∧ s.up .lane = true) ∧
    (meets ({ wkr [] with wlk := { reversed := true, position := some 7 } }) fun s => s.isWorker = true ∧ s.wlk.reversed = true ∧
      s.wlk.position = some (7 : Fin 8).val ∧ ¬(s.wlk.position = none ∨ s.wlk.position = some (0 : Fin 8).val)) ∧
    (meets ({ mgr [(WLK_PLANT_STATUS_RING, 8), (LANE_STATUS_STATE 3, 3)] with glz := { base.glz with active := some ⟨{ ringOf := [(5, 3)] }, {}, 0, 0⟩ }, wlk := { numbered := [(31, 3, 7)] } }) fun s =>
      s.up .lane = true ∧ s.isManager = true ∧ s.ringOf.find? (·.1 == (5 : Fin 6).val) = some ((5 : Fin 6).val, (3 : Fin 4).val) ∧
      s.ringOf.find? (·.1 == (4 : Fin 6).val) = none ∧
      s.takes (.ringRestore true) ∧ s.get WLK_PLANT_STATUS_RING ≠ 0 ∧
      (∀ c : Fin 4, s.bitAt WLK_PLANT_STATUS_RING c = true → s.laneState c = 3) ∧ s.takes (.ringRestore false)) ∧
    (meets (mgr [(LANE_ROLE_ROLE 3, 4)]) fun s => s.takes .discover ∧ s.isManager = true ∧ s.get (LANE_ROLE_ROLE 3) = 4 ∧
      s.get (LANE_ROLE_ROLE 0) ≠ 4 ∧ s.wlk.disc[(3 : Fin 4)].asked = none) ∧
    (meets ({ mgr [(WLK_PLANT_STATUS_DISC_BUSY, 8)] with wlk := { disc := #v[{ asked := some 6 }, { asked := some 7 }, {}, { found := [(0, {})] }] } }) fun s =>
      s.wlk.disc[(0 : Fin 4)].asked = some 6 ∧ s.wlk.disc[(1 : Fin 4)].asked = some 7 ∧ s.bitAt WLK_PLANT_STATUS_DISC_BUSY 3 = true ∧
      s.wlk.disc[(3 : Fin 4)].asked = none ∧ ¬(s.bitAt WLK_PLANT_STATUS_DISC_BUSY 0 = true)) ∧
    (meets ({ mgr [(WLK_PRESULT_REVERSED 5, 1)] with wlk := { numbered := [(5, 2, 0)], disc := #v[{}, {}, { known := [(0, {})], ended := true }, {}] } }) fun s =>
      s.up .lane = true ∧ ¬(s.isWorker = true) ∧ s.wlk.disc[(0 : Fin 4)].asked = none ∧ (5, 2, 0) ∈ s.wlk.numbered ∧
      s.bit (WLK_PRESULT_REVERSED (5 % 32)) = true ∧ (∃ f ∈ s.foundWorkers, (f.1, f.2.1) = (2, 0))) := by
  simp only [meets, takes_iff]
  refine ⟨?_, ?_, ?_, ?_, ?_, ?_, ?_, ?_, ?_, ?_⟩ <;> decide +kernel

theorem witness_RemoteAccessAndBulk :
    (meets State.reset fun s => s.up .host = false) ∧
    (meets (b [(PWR_STATUS_STANDBY, 1)]) fun s => s.up .host = true ∧ s.get PWR_STATUS_STANDBY ≠ 0) ∧
    (meets ({ State.reset with pwr := { State.reset.pwr with hostUp := true } }) fun s => s.up .host = true ∧ s.get PWR_STATUS_STANDBY = 0 ∧
      ¬(s.up .lane = true)) ∧
    (meets ({ mgr [] with wlk := { numbered := [(1, 0, 0)], credits := [(1, 1, 1)] } }) fun s => s.up .host = true ∧ s.get PWR_STATUS_STANDBY = 0 ∧ s.up .lane = true ∧
      s.isManager = true ∧ (0x8010000000 : BitVec 40).toNat % 8 = 0 ∧ 1 ∈ s.wlk.numbered.map (·.1) ∧ s.wlk.tags.length < 128 ∧
      s.wlk.tags = [] ∧ s.is4100 1 = false ∧ 0 < (s.creditsOf 1).1) ∧
    (meets ({ mgr [(WLK_PRESULT_PART 1, 0x4100)] with wlk := { numbered := [(1, 0, 0)] } }) fun s => s.isManager = true ∧ s.is4100 1 = true ∧
      (s.wlk.numbered.map (·.1)) = [1] ∧ ((s.wlk.numbered.map (·.1)).filter fun n => !s.is4100 n) = []) ∧
    (meets ({ mgr [] with wlk := { numbered := [(31, 0, 0)], credits := [(31, 0, 0)] } }) fun s =>
      (0x81FFFFFFF8 : BitVec 40).toNat % 8 = 0 ∧ 0x81FFFFFFF8 < 0x8200000000 ∧ (0x81FFFFFFF8 - 0x8000000000) / 0x10000000 = 31 ∧
      31 ∈ s.wlk.numbered.map (·.1) ∧ s.is4100 31 = false ∧ (s.creditsOf 31).1 = 0 ∧ s.wlk.tags = []) ∧
    (meets ({ mgr [] with wlk := { numbered := [(1, 0, 0)], tags := List.replicate 128 ⟨0, none, [1], true, 0, false, 0, false, false⟩ } }) fun s =>
      128 ≤ s.wlk.tags.length ∧ s.isManager = true) ∧
    (meets (mgr []) fun s => s.wlk.numbered = [] ∧ s.isManager = true ∧ (0xFFFFFFC : BitVec 28).toNat % 4 = 0) ∧
    (meets ({ mgr [(WLK_PENTRY_EN 31, 1), (WLK_PENTRY_GROUPS 31, 0x8000)] with wlk := { numbered := [(31, 0, 0)] } }) fun s =>
      (0xFFFFF8 : BitVec 28).toNat % 8 = 0 ∧ (0xFFFFF8 : BitVec 28).toNat < 0x1000000 ∧ ((s.wlk.numbered.map (·.1)).filter fun n =>
      s.bit (WLK_PENTRY_EN n) && s.bitAt (WLK_PENTRY_GROUPS n) 15) ≠ []) ∧
    (meets ({ mgr [] with wlk := { tags := [⟨127, some none, [1, 31], true, 0, false, 0, true, false⟩], stalled := [⟨0, none, [1], true, 0, false, 0, false, false⟩] } }) fun s =>
      (s.wlk.tags.find? fun x =>
      x.tag == (127 : BitVec 7).toNat && x.sent && x.await.contains (31 : BitVec 5).toNat) = some ⟨127, some none, [1, 31], true, 0, false, 0, true, false⟩ ∧
      ([1, 31].filter (· != (31 : BitVec 5).toNat)) ≠ [] ∧ s.wlk.stalled ≠ [] ∧ (s.wlk.tags.find? fun x =>
      x.tag == (0 : BitVec 7).toNat) = none) ∧
    (meets ({ mgr [] with wlk := { tags := [⟨0, some none, [1], true, 0, false, 0, true, false⟩] } }) fun s => (s.wlk.tags.find? fun x =>
      x.tag == (0 : BitVec 7).toNat && x.sent && x.await.contains (1 : BitVec 5).toNat) = some ⟨0, some none, [1], true, 0, false, 0, true, false⟩ ∧
      ([1].filter (· != (1 : BitVec 5).toNat)) = [] ∧ s.wlk.stalled = []) ∧
    (meets ({ mgr [] with wlk := { tags := [⟨0, none, [1], false, 0, false, 0, true, false⟩], stalled := [⟨0, none, [1], true, 0, false, 0, false, false⟩] } }) fun s =>
      ([1].filter (· != (1 : BitVec 5).toNat)) = [] ∧ s.wlk.stalled = [⟨0, none, [1], true, 0, false, 0, false, false⟩] ∧
      (s.wlk.tags.filter fun x => x.tag != (0 : BitVec 7).toNat).length < 128) ∧
    (meets ({ mgr [] with wlk := { tags := [⟨5, none, [1], false, 0, false, 0, true, false⟩] } }) fun s => (s.wlk.tags.find? fun x =>
      x.tag == (5 : BitVec 7).toNat) = some ⟨5, none, [1], false, 0, false, 0, true, false⟩ ∧ s.wlk.stalled = []) ∧
    (meets (wkr []) fun s => s.isWorker = true ∧ s.get SYS_ROLE_WORKER_NO ≠ 0 ∧ s.up .lane = true ∧ s.wlk.reqs = [] ∧ s.phase ≠ 5) ∧
    (meets (wkr [(SYS_STATE_PHASE, 5)]) fun s => s.wlk.reqs = [] ∧ s.phase = 5 ∧ 0x41000000 ≤ (0x46FFFFFC : Word).toNat ∧
      (0x46FFFFFC : Word).toNat < 0x47000000 ∧ s.up (islandAt (0x46FFFFFC : Word).toNat) = true) ∧
    (meets ({ mgr [] with wlk := { numbered := [(1, 0, 0)], credits := [(1, 0, 0)] } }) fun s => s.takes (.blkGo 0x00080200) ∧
      s.isManager = true ∧ s.get WLK_BLK_CTRL_GO = 0 ∧ (0x00080200 : Word).toNat / 2 ^ 19 = 1 ∧
      (0x00080200 : Word).toNat.testBit 1 = false ∧
      (((s.wlk.numbered.map (·.1)).filter fun n => !s.is4100 n).filter (· == (0x00080200 : Word).toNat / 2 ^ 9 % 32)) = [1] ∧ s.get WLK_BLK_LOCAL_ADDR % 8 = 0 ∧
      s.get WLK_BLK_REMOTE_ADDR % 8 = 0 ∧ (s.creditsOf 1).2 = 0) ∧
    (meets ({ mgr [] with wlk := { numbered := [(31, 0, 0)] } }) fun s => s.takes (.blkGo 0x80023E02) ∧
      (0x80023E02 : Word).toNat / 2 ^ 19 = 4096 ∧ (0x80023E02 : Word).toNat / 2 ^ 16 % 8 = 2 ∧ (0x80023E02 : Word).toNat / 2 ^ 14 % 4 = 0 ∧
      (0x80023E02 : Word).toNat / 2 ^ 9 % 32 = 31 ∧ (0x80023E02 : Word).toNat.testBit 1 = true ∧ s.takes (.blkGo 0) ∧
      (0 : Word).toNat / 2 ^ 19 < 1) ∧
    (meets ({ wkr [(WLK_BULK_WIN_BASE, 1), (WLK_BULK_WIN_SIZE, 1)] with wlk := { upCredits := 0 } }) fun s => s.isWorker = true ∧
      s.up .lane = true ∧ 65536 * s.get WLK_BULK_WIN_BASE ≤ 0x1FF00 ∧
      0x1FF00 + 8 * 32 ≤ 65536 * s.get WLK_BULK_WIN_BASE + 65536 * s.get WLK_BULK_WIN_SIZE ∧
      ¬(0x1FF08 + 8 * 32 ≤ 65536 * s.get WLK_BULK_WIN_BASE + 65536 * s.get WLK_BULK_WIN_SIZE) ∧ s.wlk.upCredits = 0) ∧
    (meets ({ mgr [(WLK_BLK_CTRL_DIR, 1), (WLK_BLK_CTRL_LEN, 1)] with wlk := { bulk := some { sent := 2 } } }) fun s =>
      s.isManager = true ∧ s.get WLK_BLK_CTRL_DIR = 1 ∧ s.wlk.bulk = some { sent := 2 } ∧ 2 * s.get WLK_BLK_CTRL_LEN ≤ 2) ∧
    (meets ({ mgr [(WLK_BLK_CTRL_LEN, 1)] with wlk := { bulk := some { sent := 1 } } }) fun s => s.wlk.bulk = some { sent := 1 } ∧
      1 < 2 * s.get WLK_BLK_CTRL_LEN ∧ s.get WLK_BLK_CTRL_DIR = 0) ∧
    (meets ({ wkr [] with wlk := { upCredits := 1 } }) fun s => s.isWorker = true ∧ 0 < s.wlk.upCredits ∧ s.wlk.bulk = none ∧
      s.up .lane = true) ∧
    (meets ({ mgr [] with wlk := { numbered := [(31, 0, 0)], credits := [(31, 0, 1)] } }) fun s => (s.creditsOf 31).2 ≠ 0 ∧ s.chainOf 31 < 6 ∧
      s.wlk.bulk = none ∧ s.up .lane = true ∧ s.isManager = true) ∧
    (meets (wkr [(SYS_ROLE_WORKER_NO, 0)]) fun s => s.up .lane = true ∧ s.isWorker = true ∧ s.get SYS_ROLE_WORKER_NO = 0 ∧ (1 : Fin 6) ≠ s.upLane ∧
      (0 : Fin 6) = s.upLane ∧ s.wlk.nacks = 0 ∧ 0 < s.wlk.upCredits) ∧
    (meets ({ mgr [] with wlk := { tags := [⟨0, none, [1], true, 0, false, 0, true, true⟩] } }) fun s => ¬(s.isWorker = true) ∧
      (s.wlk.tags.find? fun x => x.tag == (0 : BitVec 7).toNat && x.sent && x.await.contains (1 : BitVec 5).toNat) =
        some ⟨0, none, [1], true, 0, false, 0, true, true⟩) := by
  simp only [meets, takes_iff]
  refine ⟨?_, ?_, ?_, ?_, ?_, ?_, ?_, ?_, ?_, ?_, ?_, ?_, ?_, ?_, ?_, ?_, ?_, ?_, ?_, ?_, ?_, ?_, ?_, ?_⟩ <;> decide +kernel

theorem witness_NetworkAndTime :
    (meets (wkr [(WLK_SYNC_CFG_PTP_FOLLOW, 1)]) fun s => s.takes (.ptpIncWrite none 16320875725) ∧ s.takes (.ptpOfsWrite 0) ∧
      s.takes .ptpSet ∧ s.takes .setValid ∧ s.takes .clrValid ∧ s.isWorker = true ∧ s.get WLK_SYNC_CFG_PTP_FOLLOW = 1) ∧
    (meets ({ b [(CLK_PLL_STATUS_ON 3, 1)] with net := { base.net with setSec := 2 ^ 48 - 1, setNs := 999999999 } }) fun s => s.isWorker = false ∧
      s.net.setNs < 1000000000 ∧ s.net.setSec < 2 ^ 48 ∧ s.takes (.ptpOfsWrite 0x80000000) ∧ s.takes (.ptpOfsWrite 0x7FFFFFFF) ∧
      (0x7FFFFFFF : Word) ≠ 0x80000000 ∧ s.netRuns = true ∧ 0 ≤ (s.net.ptp.sec * 1000000000 + s.net.ptp.ns : Nat) + (0x7FFFFFFF : Word).toInt ∧
      s.takes .ptpNowRead ∧ s.get NET_PTP_STATUS_VALID = 0) ∧
    (meets base fun s => 16320875725 ≤ (16320875725 : DWord).toNat ∧ (18038862643 : DWord).toNat ≤ 18038862643 ∧
      s.takes (.ptpIncWrite (some true) 4) ∧ s.takes (.ptpIncWrite (some false) 4) ∧ s.takes (.ptpIncWrite none 18038862644)) ∧
    (meets (b [(LANE_ROLE_ROLE 5, 5)]) fun s => s.takes (.macEnWrite 1 0x9017B800) ∧ ¬(5 ≤ (0x9017B800 : Word).toNat / 2 ^ 28 % 8) ∧
      1518 ≤ (0x9017B800 : Word).toNat / 2 ^ 10 % 2 ^ 14 ∧ (0x9017B800 : Word).toNat / 2 ^ 10 % 2 ^ 14 ≤ 9216 ∧
      (0x9017B800 : Word).toNat.testBit 31 = true ∧ s.get (LANE_ROLE_ROLE 5) = 5 ∧ s.get (MAC_CFG_EN 1) ≠ 1 ∧
      s.takes (.macEnWrite 0 0x5017B800) ∧ 5 ≤ (0x5017B800 : Word).toNat / 2 ^ 28 % 8 ∧ s.takes (.kick 1)) ∧
    (meets (b [(CLK_PLL_STATUS_ON 3, 1), (MAC_CFG_EN 1, 1)]) fun s => s.netRuns = true ∧ s.get (MAC_CFG_EN 1) = 1 ∧ s.net.macs[(1 : Fin 2)].txStop = false ∧
      (s.sram.read (256 * s.get (MAC_RING_BASE 1 0) + 8) 1).testBit 0 = false ∧ s.get (MAC_CFG_EN 0) ≠ 1 ∧
      s.net.macs[(1 : Fin 2)].lq = []) ∧
    (meets ({ b [(CLK_PLL_STATUS_ON 3, 1), (MAC_CFG_EN 1, 1), (MAC_CFG_MAXLEN 1, 1518), (MAC_RING_BASE 1 0, 1)] with sram := { cells := [(260, 64), (264, 3)] } }) fun s =>
      s.netRuns = true ∧ s.get (MAC_CFG_EN 1) = 1 ∧ (s.sram.read (256 * s.get (MAC_RING_BASE 1 0) + 8) 1).testBit 0 = true ∧
      (s.sram.read (256 * s.get (MAC_RING_BASE 1 0) + 8) 1).testBit 1 = true ∧ ((1 : Fin 2).val, (3 : Fin 4).val) ∉ s.sag.saks ∧
      64 ≤ s.sram.read 260 2 ∧ s.sram.read 260 2 ≤ s.get (MAC_CFG_MAXLEN 1) ∧ s.net.macs[(1 : Fin 2)].paused = 0 ∧
      s.launchNear 1 (s.sram.read 260 2) = false ∧ s.net.macs[(1 : Fin 2)].tsq.length < 16) ∧
    (meets ({ b [(CLK_PLL_STATUS_ON 3, 1), (MAC_CFG_EN 1, 1), (MAC_CFG_MAXLEN 1, 1518), (MAC_RING_BASE 1 0, 1)] with sram := { cells := [(260, 63), (264, 1)] } }) fun s =>
      (s.sram.read 264 1).testBit 0 = true ∧ ¬(64 ≤ s.sram.read 260 2) ∧ s.net.macs[(1 : Fin 2)].paused = 0 ∧
      s.launchNear 1 (s.sram.read 260 2) = false) ∧
    (meets ({ b [(CLK_PLL_STATUS_ON 3, 1), (MAC_CFG_EN 1, 1), (MAC_RING_BASE 1 0, 1)] with sram := { cells := [(264, 1)] }, net := { base.net with macs := base.net.macs.set 1 { paused := 1 } } }) fun s =>
      (s.sram.read 264 1).testBit 0 = true ∧ s.net.macs[(1 : Fin 2)].paused ≠ 0) ∧
    (meets ({ b [(CLK_PLL_STATUS_ON 3, 1), (MAC_CFG_EN 1, 1), (MAC_RING_BASE 1 0, 1)] with sram := { cells := [(260, 64), (264, 1)] }, net := { base.net with macs := base.net.macs.set 1 { lq := [⟨64, 0, 1, 60, true, 5⟩] } } }) fun s =>
      (s.sram.read 264 1).testBit 0 = true ∧ s.launchNear 1 (s.sram.read 260 2) = true) ∧
    (meets ({ b [(CLK_PLL_STATUS_ON 3, 1), (MAC_CFG_EN 1, 1), (MAC_CFG_MAXLEN 1, 1518), (MAC_RING_BASE 1 0, 1)] with sram := { cells := [(260, 64), (264, 3)] }, net := { base.net with macs := base.net.macs.set 1 { tsq := List.replicate 16 ⟨0, 0, 0⟩ } } }) fun s =>
      (s.sram.read 264 1).testBit 1 = true ∧ 16 ≤ s.net.macs[(1 : Fin 2)].tsq.length) ∧
    (meets ({ b [(CLK_PLL_STATUS_ON 3, 1), (MAC_CFG_EN 0, 1), (MAC_CFG_MAXLEN 0, 1518), (MAC_RING_BASE 0 0, 1), (MAC_SEC_CFG_BYPASS_ETYPE 0, 0)] with sram := { cells := [(260, 64), (264, 1)] }, sag := { base.sag with saks := [(0, 0)] } }) fun s =>
      (s.sram.read 264 1).testBit 0 = true ∧ (s.sram.read 264 1).testBit 3 = false ∧ s.get (MAC_SEC_CFG_BYPASS_ETYPE 0) = 0 ∧
      64 ≤ s.sram.read 260 2 ∧ s.sram.read 260 2 ≤ s.get (MAC_CFG_MAXLEN 0) ∧
      ((0 : Fin 2).val, (0 : Fin 4).val) ∈ s.sag.saks ∧ s.net.macs[(0 : Fin 2)].pn[(0 : Fin 4)] ≤ s.pnMax 0) ∧
    (meets ({ b [(CLK_PLL_STATUS_ON 3, 1), (MAC_CFG_EN 0, 1), (MAC_CFG_MAXLEN 0, 1518), (MAC_RING_BASE 0 0, 1)] with sram := { cells := [(260, 64), (264, 1)] }, sag := { base.sag with saks := [(0, 0)] }, net := { base.net with macs := base.net.macs.set 0 { pn := Vector.replicate 4 (2 ^ 64) } } }) fun s =>
      s.pnMax 0 < s.net.macs[(0 : Fin 2)].pn[(0 : Fin 4)] ∧ s.get (MAC_SEC_CFG_BYPASS_ETYPE 0) = 0) ∧
    (meets ({ b [(CLK_PLL_STATUS_ON 3, 1), (MAC_CFG_EN 1, 1), (MAC_STATUS_LINK 1, 1)] with net := { base.net with macs := base.net.macs.set 1 { lq := [⟨64, 0, 99, 60, true, 5⟩] } } }) fun s =>
      s.netRuns = true ∧ s.net.macs[(1 : Fin 2)].lq = [⟨64, 0, 99, 60, true, 5⟩] ∧ s.net.ptp.sec = 0 ∧ s.net.ptp.ns = 0 ∧
      s.net.macs[(1 : Fin 2)].lqLast ≤ 99 ∧ s.get (MAC_STATUS_LINK 1) = 1 ∧ s.net.macs[(1 : Fin 2)].paused = 0 ∧
      ((1 : Fin 2).val, (0 : Fin 4).val) ∉ s.sag.saks) ∧
    (meets ({ b [(CLK_PLL_STATUS_ON 3, 1), (MAC_CFG_EN 1, 1), (MAC_STATUS_LINK 1, 1)] with net := { base.net with macs := base.net.macs.set 1 { lq := [⟨64, 0, 99, 60, true, 5⟩], paused := 1 } } }) fun s =>
      s.get (MAC_STATUS_LINK 1) = 1 ∧ s.net.macs[(1 : Fin 2)].paused ≠ 0) ∧
    (meets ({ b [(CLK_PLL_STATUS_ON 3, 1), (MAC_CFG_EN 1, 1)] with net := { base.net with macs := base.net.macs.set 1 { lq := [⟨64, 0, 100, 60, true, 5⟩], lqLast := 0 } } }) fun s =>
      s.net.ptp.sec = 0 ∧ s.net.ptp.ns = 0 ∧ s.net.macs[(1 : Fin 2)].lqLast ≤ 100 ∧ s.get (MAC_STATUS_LINK 1) = 0) ∧
    (meets ({ b [(CLK_PLL_STATUS_ON 3, 1), (MAC_CFG_EN 1, 1)] with net := { base.net with macs := base.net.macs.set 1 { lq := [⟨64, 0, 100, 60, true, 5⟩], lqLast := 200 } } }) fun s =>
      (100 : Nat) < s.net.macs[(1 : Fin 2)].lqLast ∧ s.get (MAC_STATUS_LINK 1) = 0 ∧ s.netRuns = true) ∧
    (meets ({ b [(CLK_PLL_STATUS_ON 3, 1), (MAC_CFG_EN 0, 1), (MAC_CFG_MAXLEN 0, 1518), (MAC_RING_BASE 0 1, 1)] with sram := { cells := [(261, 8), (262, 1)] } }) fun s =>
      s.netRuns = true ∧ s.get (MAC_CFG_EN 0) = 1 ∧ 64 ≤ (List.replicate 64 (0 : Byte)).length ∧ 64 ≤ s.get (MAC_CFG_MAXLEN 0) ∧
      s.net.macs[(0 : Fin 2)].rxStop = false ∧ (s.sram.read 262 2).testBit 0 = true ∧ s.net.ptp.ns < 2 ^ 32 ∧
      s.sram.read 256 4 + s.sram.read 260 2 ≥ 256 + 16 ∧ s.get (MAC_SEC_CFG_VALIDATE 0) = 0 ∧ s.get (MAC_CFG_PAUSE 0) = 0) ∧
    (meets ({ b [(CLK_PLL_STATUS_ON 3, 1), (MAC_CFG_EN 0, 1), (MAC_CFG_MAXLEN 0, 1518), (MAC_RING_BASE 0 1, 1)] with sram := { cells := [(256, 0), (257, 8), (261, 1), (262, 1)] } }) fun s =>
      256 + 16 ≤ s.sram.read 256 4 ∧ (s.sram.read 262 2).testBit 0 = true) ∧
    (meets (b [(CLK_PLL_STATUS_ON 3, 1), (MAC_CFG_EN 0, 1), (MAC_CFG_MAXLEN 0, 1518), (MAC_CFG_PAUSE 0, 1)]) fun s => (s.sram.read 6 2).testBit 0 = false ∧
      s.net.macs[(0 : Fin 2)].rxPos = 0 ∧ s.get (MAC_RING_BASE 0 1) = 0 ∧ s.get (MAC_CFG_PAUSE 0) = 1 ∧ s.net.macs[(0 : Fin 2)].pauseSent = false ∧
      netAt (pauseFrame 3) 12 2 = 0x8808 ∧ netAt (pauseFrame 3) 14 2 = 1 ∧ 64 ≤ (pauseFrame 3).length) ∧
    (meets ({ b [(CLK_PLL_STATUS_ON 3, 1), (MAC_CFG_EN 1, 1), (MAC_CFG_MAXLEN 1, 1518), (MAC_SEC_CFG_VALIDATE 1, 2)] with sag := { base.sag with saks := [(1, 35)] } }) fun s =>
      s.get (MAC_SEC_CFG_VALIDATE 1) = 2 ∧ ((1 : Fin 2).val, 4 + (Fin.ofNat 32 (4 * (7 : Fin 8).val + (3 : Fin 4).val)).val) ∈ s.sag.saks ∧
      s.net.macs[(1 : Fin 2)].rxPn[(31 : Fin 32)] = 1 ∧ s.get (MAC_SEC_CFG_BYPASS_ETYPE 1) = 0 ∧
      ((1 : Fin 2).val, 4 + (0 : Fin 32).val) ∉ s.sag.saks) ∧
    (meets (b [(CLK_PLL_STATUS_ON 3, 1), (MAC_CFG_EN 1, 1), (MAC_CFG_MAXLEN 1, 1518), (MAC_SEC_CFG_VALIDATE 1, 1)]) fun s =>
      s.get (MAC_SEC_CFG_VALIDATE 1) = 1 ∧ s.sag.saks = []) ∧
    (meets base fun s => s.takes (.lqCommit 1 0x003B0000) ∧ (0x003B0000 : Word).toNat / 2 ^ 16 % 2 ^ 11 < 60 ∧
      s.takes (.lqCommit 1 0x003C0000) ∧ (0x003C0000 : Word).toNat / 2 ^ 16 % 2 ^ 11 = 60 ∧ s.net.macs[(1 : Fin 2)].lq.length < 1024 ∧
      s.takes (.lqCommit 0 0x05F20000) ∧ (0x05F20000 : Word).toNat / 2 ^ 16 % 2 ^ 11 = 1522 ∧ s.takes (.flush 1) ∧
      s.takes (.tsqRead 1 none) ∧ s.net.macs[(1 : Fin 2)].tsq = []) ∧
    (meets ({ base with net := { base.net with macs := base.net.macs.set 1 { lq := List.replicate 1024 ⟨0, 0, 0, 60, false, 0⟩, tsq := [⟨1, 65535, 2⟩] } } }) fun s =>
      s.takes (.lqCommit 1 0x003C0000) ∧ 1024 ≤ s.net.macs[(1 : Fin 2)].lq.length ∧ s.takes (.tsqRead 1 (some false)) ∧
      s.takes (.tsqRead 1 (some true)) ∧ s.net.macs[(1 : Fin 2)].tsq = [⟨1, 65535, 2⟩] ∧ (65535 : Nat) < 2 ^ 16) := by
  simp only [meets, takes_iff]
  refine ⟨?_, ?_, ?_, ?_, ?_, ?_, ?_, ?_, ?_, ?_, ?_, ?_, ?_, ?_, ?_, ?_, ?_, ?_, ?_, ?_, ?_, ?_, ?_⟩ <;> decide +kernel

theorem witness_SaggarMailboxAndEvents :
    (serviceOf (.random 1) = some (.random 1) ∧ serviceOf (.mkaIcv (0, 0) [5]) = some (.mkaIcv 0 0 [5])) ∧
    (meets (b [(SAG_RESULT_BUSY, 1)]) fun s => s.takes (.random 1) ∧ s.get SAG_RESULT_BUSY = 1) ∧
    (meets (b [(SAG_RESULT_BUSY, 0), (SAG_STATUS_LOCKED, 1)]) fun s => s.takes (.random 1) ∧ s.get SAG_RESULT_BUSY = 0 ∧
      s.get SAG_STATUS_LOCKED = 1 ∧ svcId (.random 1) ≠ 1 ∧ s.takes .getInfo ∧ svcId .getInfo = 1) ∧
    (meets ({ base with sag := { base.sag with lifecycle := 3 } }) fun s => s.takes (.random 1) ∧ s.get SAG_RESULT_BUSY = 0 ∧
      s.get SAG_STATUS_LOCKED = 0 ∧ ¬(s.lifeAllows 0x30)) ∧
    (meets ({ base with sag := own }) fun s => s.takes (.mkaIcv (0, 0) (List.replicate 8191 0)) ∧ s.get SAG_RESULT_BUSY = 0 ∧
      s.get SAG_STATUS_LOCKED = 0 ∧ s.lifeAllows 0x2B ∧ 8192 < svcLen (.mkaIcv 0 0 (List.replicate 8191 0))) ∧
    (meets base fun s => s.admits (.enroll key1 key1 key1 4 (sg s 0x10 [])) ∧ svcId (.enroll key1 key1 key1 4 (sg s 0x10 [])) ∈ ownerServices ∧
      s.sag.nonce = none ∧ s.sag.svc = none ∧ s.sag.flashCmd = none) ∧
    (meets ({ base with sag := { base.sag with nonce := some 0 } }) fun s => s.admits (.enroll key1 key1 key1 4 (sg s 0x10 [])) ∧
      ¬(s.authority (.enroll key1 key1 key1 4 (sg s 0x10 []))) ∧ s.sag.nonce.isSome = true) ∧
    (meets ({ base with sag := { base.sag with svc := some { id := 1, code := 0, len := 0 } } }) fun s =>
      s.sag.svc = some { id := 1, code := 0, len := 0 }) ∧
    (meets ({ base with sag := { base.sag with svc := some { id := 3, code := 0, len := 0, sig := some 9 } } }) fun s =>
      s.sag.svc = some { id := 3, code := 0, len := 0, sig := some 9 }) ∧
    (meets base fun s => s.sag.devKey = true ∧ s.sag.treeKept = false ∧ s.up .meter = true ∧ s.met.entriesOpen = false ∧ s.met.gap = none) ∧
    (meets ({ b [(SAG_ATTEST_NEXT_NEXT, 16384)] with sag := { base.sag with treeKept := true } }) fun s => s.sag.devKey = true ∧
      s.sag.treeKept = true ∧ 16384 ≤ s.get SAG_ATTEST_NEXT_NEXT % 32768) ∧
    (meets ({ b [(SAG_ATTEST_NEXT_NEXT, 16383)] with sag := { base.sag with treeKept := true } }) fun s => s.sag.treeKept = true ∧
      ¬(16384 ≤ s.get SAG_ATTEST_NEXT_NEXT % 32768)) ∧
    (meets ({ base with met := { base.met with gap := some ⟨0x01, 2, 0, [], 0, false, false⟩ } }) fun s => s.up .meter = true ∧
      s.met.entriesOpen = false ∧ s.met.gap = some ⟨0x01, 2, 0, [], 0, false, false⟩) ∧
    (meets ({ base with met := { base.met with entriesOpen := true } }) fun s => s.met.entriesOpen = true) ∧
    (meets ({ b [(PWR_STATUS_VAUX_OK, 1)] with sag := { base.sag with tamperResp := (.log, .lock, .zeroise),
                                                                      svc := some { id := 3, code := 0, len := 0 } } }) fun s =>
      s.get PWR_STATUS_VAUX_OK = 1 ∧ s.sag.tamperResp = (.log, .lock, .zeroise) ∧ s.get PUG_LG_CFG_ON_TAMPER ≠ 1 ∧
      s.sag.svc = some { id := 3, code := 0, len := 0 }) ∧
    (meets ({ b [(PUG_THR_MEAS, 60), (PUG_LEVELS_STORE, 3000), (PWR_STATUS_VAUX_OK, 0), (PUG_LG_CFG_ON_TAMPER, 1)] with
              met := { base.met with entriesOpen := true } }) fun s =>
      50 * s.get PUG_THR_MEAS ≤ s.get PUG_LEVELS_STORE ∧ s.get PUG_LG_CFG_ON_TAMPER = 1 ∧ s.sag.devKey = true ∧ s.pug.msg = none ∧
      s.met.entriesOpen = true ∧ s.crossing + 2 ≤ 64) ∧
    (meets ({ b [(PWR_STATUS_VAUX_OK, 1), (PUG_LG_CFG_ON_TAMPER, 1)] with
              met := { base.met with entriesOpen := true }, pug := { base.pug with msg := some { trigger := 0, detail := 0, time := 0 } } }) fun s =>
      s.get PWR_STATUS_VAUX_OK = 1 ∧ s.get PUG_LG_CFG_ON_TAMPER = 1 ∧ s.pug.msg = some { trigger := 0, detail := 0, time := 0 } ∧
      s.met.entriesOpen = true ∧ s.crossing + 2 ≤ 64) ∧
    (meets (b [(PUG_THR_MEAS, 60), (PUG_LEVELS_STORE, 2999), (PWR_STATUS_VAUX_OK, 0), (PUG_STATUS_SOURCE, 2)]) fun s => s.get PWR_STATUS_VAUX_OK = 0 ∧
      ¬(50 * s.get PUG_THR_MEAS ≤ s.get PUG_LEVELS_STORE) ∧ s.get PUG_STATUS_SOURCE = 2 ∧ s.tamperPermitted 0 = true ∧
      s.tamperPermitted 3 = false ∧ s.pug.deferred = []) ∧
    (meets ({ b [(PUG_THR_MEAS, 60), (PUG_LEVELS_STORE, 2999), (PWR_STATUS_VAUX_OK, 0)] with pug := { base.pug with deferred := [(3, 7)] } }) fun s =>
      s.tamperPermitted 3 = false ∧ s.tamperPermitted 0 = false ∧ (∀ e ∈ s.pug.deferred, e.1 ≠ (0 : Fin 4).val) ∧
      (∃ e ∈ s.pug.deferred, e.1 = (3 : Fin 4).val) ∧ (∀ e ∈ s.pug.deferred, s.tamperPermitted e.1 = false)) ∧
    (meets ({ b [(PWR_STATUS_VAUX_OK, 1)] with pug := { base.pug with deferred := [(3, 7)] } }) fun s => s.get PWR_STATUS_VAUX_OK = 1 ∧
      s.pug.deferred = [((3 : Fin 4).val, (7 : Word).toNat)]) ∧
    (meets (b [(PWR_STATUS_STANDBY, 1)]) fun s => ¬(s.up .host = true ∧ s.get PWR_STATUS_STANDBY = 0)) ∧
    (meets (b [(XSPI_ADDR_ADDR, 0x1FFF)]) fun s => s.up .host = true ∧ s.get PWR_STATUS_STANDBY = 0 ∧
      (∃ e ∈ barredRegions s.sag.bootNow, 0 < 1 ∧ s.get XSPI_ADDR_ADDR < e.2 ∧ e.1 < s.get XSPI_ADDR_ADDR + 1)) ∧
    (meets (b [(XSPI_ADDR_ADDR, 0x2000), (XSPI_STATUS_BUSY, 1)]) fun s => s.up .host = true ∧ s.get XSPI_STATUS_BUSY = 1 ∧
      ¬(∃ e ∈ barredRegions s.sag.bootNow, 0 < 0x1000 ∧ s.get XSPI_ADDR_ADDR < e.2 ∧ e.1 < s.get XSPI_ADDR_ADDR + 0x1000)) ∧
    (meets ({ b [(XSPI_ADDR_ADDR, 0x2000)] with sag := { base.sag with flashCmd := some 6 } }) fun s => s.get XSPI_STATUS_BUSY = 0 ∧
      ¬(∃ e ∈ barredRegions s.sag.bootNow, 0 < 0 ∧ s.get XSPI_ADDR_ADDR < e.2 ∧ e.1 < s.get XSPI_ADDR_ADDR + 0) ∧
      s.sag.flashCmd.isSome = true) := by
  simp only [meets, takes_iff, life_iff, admits_iff, auth_iff]
  refine ⟨?_, ?_, ?_, ?_, ?_, ?_, ?_, ?_, ?_, ?_, ?_, ?_, ?_, ?_, ?_, ?_, ?_, ?_, ?_, ?_, ?_, ?_, ?_, ?_⟩ <;> decide +kernel

theorem witness_SaggarServices :
    (meets base fun s => s.serves .getInfo ∧ s.serves .getCert ∧ s.serves .getNonce ∧ s.serves (.attest (Vector.replicate 8 0) true) ∧
      s.get SAG_ATTEST_NEXT_EXHAUSTED ≠ 1 ∧ s.get SAG_STATUS_READY ≠ 1 ∧ s.serves .debugLock ∧ s.serves (.random 4096) ∧
      s.serves (.random 4097) ∧ s.serves (.random 0)) ∧
    (meets (b [(SAG_STATUS_READY, 1), (SAG_ATTEST_NEXT_NEXT, 32766)]) fun s => s.get SAG_STATUS_READY = 1 ∧
      s.get SAG_ATTEST_NEXT_NEXT % 32768 ≠ 32767 ∧ s.serves (.attest (Vector.replicate 8 0) false)) ∧
    (meets (b [(SAG_STATUS_READY, 1), (SAG_ATTEST_NEXT_NEXT, 32767)]) fun s => s.get SAG_ATTEST_NEXT_NEXT % 32768 = 32767 ∧
      s.serves (.attest (Vector.replicate 8 0) true)) ∧
    (meets (b [(SAG_ATTEST_NEXT_EXHAUSTED, 1)]) fun s => s.get SAG_ATTEST_NEXT_EXHAUSTED = 1 ∧
      s.serves (.attest (Vector.replicate 8 0) true)) ∧
    (meets ({ base with sag := { base.sag with nonce := some 0 } }) fun s =>
      s.serves (.enroll key1 key1 key1 4 (sg s 0x10 (enrollArgs key1 key1 key1 4)))) ∧
    (meets ({ b [(SYS_STATE_PHASE, 4), (PWR_STATUS_VAUX_OK, 1)] with sag := own }) fun s =>
      s.serves (.rotate .glz key1 {} (sg s 0x11 (rotArgs .glz))) ∧ s.phase = 4 ∧ s.glz.fireWait = false ∧ s.sag.gens.2.1 < 255 ∧
      s.serves (.releaseOwner (sg s 0x12 [])) ∧ s.serves .fwConfirm ∧ s.sag.fwVersion < 2 ^ 32 ∧
      s.serves (.setBoot true 1 (slotFile 0x375A4C47 5)) ∧ s.get SAG_ROLLBACK_GLZ_VALUE ≤ 5 ∧
      s.serves (.setBoot false 1 { readOk := false }) ∧ s.serves (.counterInc 7) ∧ s.serves (.counterRead 7) ∧ s.sag.gp.length = 8 ∧
      s.serves (.totalsReset (sg s 0x22 [])) ∧ s.serves (.tamperCfg .log .lock .zeroise 40 (sg s 0x23 (tamperArgs .log .lock .zeroise 40))) ∧
      s.serves (.zeroise (sg s 0x24 [])) ∧ s.get PWR_STATUS_VAUX_OK = 1) ∧
    (meets ({ b [(SYS_STATE_PHASE, 4)] with sag := own, glz := { base.glz with fireWait := true } }) fun s => s.glz.fireWait = true ∧
      s.serves (.rotate .glz key1 {} (sg s 0x11 (rotArgs .glz))) ∧ s.serves (.releaseOwner (sg s 0x12 []))) ∧
    (meets ({ b [(SAG_ROLLBACK_FW_VALUE, 1)] with sag := { own with gens := (254, 255, 254, 254) } }) fun s =>
      s.serves (.rotate .fw key1 {} (sg s 0x11 (rotArgs .fw))) ∧ s.serves (.rotate .svc key1 {} (sg s 0x11 (rotArgs .svc))) ∧
      s.serves (.rotate .okek key1 { key := 1 } (sg s 0x11 (rotArgs .okek))) ∧
      s.serves (.rotate .glz key1 {} (sg s 0x11 (rotArgs .glz))) ∧ s.sag.gens = (254, 255, 254, 254) ∧
      s.serves (.setBoot false 0 (fwFile 0)) ∧ 0 < s.get SAG_ROLLBACK_FW_VALUE) ∧
    (goodSlot (readSlot true (some key1) (slotFile 0x375A4C47 5)) = true ∧ (readSlot true (some key1) (slotFile 0x375A4C47 5)).version = 5 ∧
      goodSlot (readSlot false (some key1) (fwFile 0)) = true ∧ (readSlot false (some key1) (fwFile 0)).version = 0 ∧
      goodSlot (readSlot false (some key1) { readOk := false }) = false) ∧
    (meets ({ base with sag := own }) fun s => s.serves (.debugUnlock true (sg s 0x20 [2])) ∧ s.phase ≠ 1 ∧ s.phase ≠ 2 ∧
      s.serves (.debugUnlock false (sg s 0x20 [1])) ∧ s.serves (.cakInstall 1 3 [5] { key := 1, aad := [5] }) ∧ s.sag.okek = some 1 ∧
      s.serves (.cakInstall 1 3 [] {}) ∧ s.serves (.cakInstall 1 3 (List.replicate 33 0) {}) ∧
      s.serves (.cakInstall 1 3 (List.replicate 32 0) { key := 1, aad := [5] }) ∧ s.serves (.cakInstall 1 3 [5] { key := 2, aad := [5] }) ∧
      s.serves (.sakGen 1 35 3) ∧ s.cakOf 1 3 = some (9, 10) ∧ s.serves (.sakGen 0 0 0) ∧ s.cakOf 0 0 = none ∧
      s.serves (.sakLoad 1 35 3 { key := 9 }) ∧ s.serves (.sakLoad 1 35 3 { key := 8 }) ∧ s.serves (.sakLoad 0 0 0 {}) ∧
      s.serves (.mkaIcv (1, 3) []) ∧ s.serves (.mkaIcv (0, 0) [])) ∧
    (meets ({ b [(SYS_STATE_PHASE, 2)] with sag := { own with okek := none } }) fun s => s.serves (.debugUnlock true (sg s 0x20 [2])) ∧
      s.phase = 2 ∧ s.serves (.cakInstall 0 0 [5] { key := 1, aad := [5] }) ∧ s.sag.okek = none) := by
  simp only [meets, serves_iff]
  refine ⟨?_, ?_, ?_, ?_, ?_, ?_, ?_, ?_, ?_, ?_, ?_⟩ <;> decide +kernel

theorem witness_PowerSupplyEvents :
    (meets (b [(PWR_STATUS_VAUX_OK, 0), (PUG_STATUS_SOURCE, 0)]) fun s => ¬(s.get PWR_STATUS_VAUX_OK = 1) ∧ s.get PUG_STATUS_SOURCE = 0 ∧
      s.pug.supplied = true) ∧
    (meets (b [(PWR_STATUS_VAUX_OK, 0), (PUG_STATUS_SOURCE, 2)]) fun s => ¬(s.get PWR_STATUS_VAUX_OK = 1) ∧ s.get PUG_STATUS_SOURCE ≠ 0) ∧
    (meets (b [(PWR_STATUS_VAUX_OK, 1), (PUG_STATUS_HARVEST, 1), (PUG_THR_MEAS, 50), (PUG_LEVELS_STORE, 2500), (PUG_LG_CFG_ON_PF, 1)]) fun s =>
      s.get PWR_STATUS_VAUX_OK = 1 ∧ s.harvestRecent = true ∧ 50 * s.get PUG_THR_MEAS ≤ min (s.get PUG_LEVELS_STORE) 5000 ∧
      s.get PUG_LG_CFG_ON_PF = 1 ∧ s.sag.devKey = true ∧ s.pug.msg = none) ∧
    (meets ({ b [(PWR_STATUS_VAUX_OK, 1), (PUG_CFG_CELL_EN, 1), (PUG_LG_CFG_ON_PF, 0)] with pug := { base.pug with vbat := 2000 } }) fun s =>
      s.get PWR_STATUS_VAUX_OK = 1 ∧ s.harvestRecent = false ∧ 2000 ≤ s.pug.vbat ∧ s.get PUG_CFG_CELL_EN = 1 ∧ s.get PUG_LG_CFG_ON_PF = 0) ∧
    (meets (b [(PWR_STATUS_VAUX_OK, 1), (PUG_CFG_CELL_EN, 0), (PUG_LEVELS_STORE, 2000)]) fun s => s.get PWR_STATUS_VAUX_OK = 1 ∧
      s.harvestRecent = false ∧ ¬(s.get PUG_CFG_CELL_EN = 1) ∧ 2000 ≤ min (s.get PUG_LEVELS_STORE) 5000) ∧
    (meets (b [(PWR_STATUS_VAUX_OK, 1), (PUG_CFG_CELL_EN, 1), (PUG_LEVELS_STORE, 1999)]) fun s => s.get PWR_STATUS_VAUX_OK = 1 ∧
      s.harvestRecent = false ∧ s.pug.vbat < 2000 ∧ min (s.get PUG_LEVELS_STORE) 5000 < 2000) ∧
    (meets (b [(PWR_STATUS_STANDBY, 1), (PWR_INT_HOT, 1), (PWR_INT_EN_EN, 16)]) fun s => s.get PWR_STATUS_STANDBY = 1 ∧
      (∃ k : Fin 64, s.plicAsserted k.val = true)) ∧
    (meets (b [(PWR_STATUS_STANDBY, 1), (PWR_STATUS_PF, 0)]) fun s => s.get PWR_STATUS_STANDBY = 1 ∧
      ¬(s.pwr.wakeDue = true ∨ s.get PWR_STATUS_PF = 1 ∨ ∃ k : Fin 64, s.plicAsserted k.val = true)) ∧
    (meets ({ b [(PWR_STATUS_VAUX_OK, 0)] with pug := { base.pug with msg := some { trigger := 3, detail := 0, time := 0, index := some 9 } },
                                               sag := { base.sag with released := some 9 } }) fun s => ¬(s.get PWR_STATUS_VAUX_OK = 1) ∧
      s.pug.msg.bind (·.index) = some 9 ∧ s.sag.released = some 9) ∧
    (meets (b [(PWR_STATUS_VAUX_OK, 1), (PWR_STATUS_PF, 1)]) fun s => s.get PWR_STATUS_VAUX_OK = 1 ∧ s.get PWR_STATUS_PF = 1 ∧
      s.takes (.gpEnWrite true) ∧ s.glz.active = none ∧ s.glz.staged = none ∧ s.glz.load = none) ∧
    (meets (b [(PWR_STATUS_VAUX_OK, 0), (PWR_STATUS_PF, 0)]) fun s => s.get PWR_STATUS_VAUX_OK = 0 ∧ s.get PWR_STATUS_PF = 0 ∧
      s.up .mod = true ∧ s.up .meter = true ∧ s.met.saving = none ∧ s.takes (.gpEnWrite true)) ∧
    (meets ({ State.reset with met := { base.met with saving := some ⟨true, [], 0, false⟩ } }) fun s => s.up .meter = false ∧
      s.up .mod = false ∧ s.get PWR_STATUS_PF = 0) ∧
    (meets ({ base with met := { base.met with saving := some ⟨true, [], 0, false⟩ } }) fun s => s.up .meter = true ∧
      s.met.saving = some ⟨true, [], 0, false⟩ ∧ s.get PWR_STATUS_PF = 0) ∧
    (meets base fun s => s.takes (.pfWarnWrite 20) ∧ s.takes (.pfWarnWrite 144) ∧ s.takes (.pfWarnWrite 19) ∧ s.takes (.pfWarnWrite 145) ∧
      s.takes (.gpEnWrite false) ∧ (∀ n : Fin 9, s.get (SET_STATUS_ARMED n) = 0) ∧ s.takes .standby ∧ s.glz.load.isSome = false ∧
      s.glz.fireWait = false ∧ s.phase ≠ 5 ∧ s.takes (.wdogStart 0x80000000) ∧ s.takes (.wdogKick 0x5A5A) ∧ s.get PWR_WDOG_CFG_EN ≠ 1) ∧
    (meets ({ b [(PWR_STATUS_VAUX_OK, 1)] with glz := { base.glz with active := some ⟨{}, {}, 0, 0⟩ } }) fun s =>
      s.takes (.gpEnWrite true) ∧ s.get PWR_STATUS_VAUX_OK = 1 ∧ s.glz.active = some ⟨{}, {}, 0, 0⟩) ∧
    (meets ({ b [(PWR_STATUS_VAUX_OK, 1)] with glz := { base.glz with load := some { image := {}, gateChecked := true } } }) fun s =>
      s.takes (.gpEnWrite true) ∧ s.glz.load = some { image := {}, gateChecked := true } ∧ s.glz.active = none ∧ s.glz.staged = none ∧
      s.takes .standby) ∧
    (meets (b [(SET_STATUS_ARMED 8, 1)]) fun s => s.takes (.gpEnWrite false) ∧ (∃ n : Fin 9, s.get (SET_STATUS_ARMED n) = 1)) ∧
    (meets (b [(PWR_WDOG_CFG_EN, 1)]) fun s => s.get PWR_WDOG_CFG_EN = 1 ∧ s.takes (.wdogKick 0x5A5A) ∧ s.pwr.kick = false ∧
      s.takes (.wdogKick 0xA5A5) ∧ s.pwr.orderly = none ∧ s.up .mod = true) ∧
    (meets ({ b [(PWR_WDOG_CFG_EN, 1)] with pwr := { base.pwr with kick := true } }) fun s => s.takes (.wdogKick 0xA5A5) ∧
      s.pwr.kick = true) := by
  simp only [meets, takes_iff]
  refine ⟨?_, ?_, ?_, ?_, ?_, ?_, ?_, ?_, ?_, ?_, ?_, ?_, ?_, ?_, ?_, ?_, ?_, ?_, ?_⟩ <;> decide +kernel

theorem witness_ResetsAndBoot :
    ((1 : Fin 9) ≠ 0 ∧ decide ((1 : Fin 9) = 1) = true ∧ decide ((2 : Fin 9) = 1) = false) ∧
    (goodSlot (readSlot true (some key1) (slotFile 0x375A4C47 0)) = true) ∧
    (meets base fun s => s.pwr.rails = 0 ∧ s.pwr.orderly = none ∧ s.up .mod = true ∧ s.up .meter = true ∧ s.met.saving = none ∧
      s.met.jbuf = [] ∧ s.takes .firmwareReset ∧ s.get PWR_WDOG_CFG_EN = 0 ∧ s.pwr.hostUp = true) ∧
    (meets ({ b [(PWR_WDOG_CFG_EN, 1)] with pwr := { base.pwr with rails := 5, orderly := some 8 } }) fun s => s.pwr.rails ≠ 0 ∧
      s.pwr.orderly.isSome = true ∧ s.get PWR_WDOG_CFG_EN = 1 ∧ s.met.saving = none) ∧
    (meets ({ b [(PWR_STATUS_VAUX_OK, 1)] with pwr := { base.pwr with rails := 3 } }) fun s => s.get PWR_STATUS_VAUX_OK = 1 ∧
      s.pwr.resetPin = false ∧ s.pwr.rails = (3 : Fin 5).val) ∧
    (meets ({ b [(PWR_STATUS_VAUX_OK, 1), (SAG_ATTEST_NEXT_NEXT, 1)] with pwr := { base.pwr with rails := 4 } }) fun s =>
      s.get PWR_STATUS_VAUX_OK = 1 ∧ s.pwr.resetPin = false ∧ s.pwr.rails = (4 : Fin 5).val ∧ s.get SAG_ATTEST_NEXT_EXHAUSTED = 0 ∧
      s.get SAG_ATTEST_NEXT_NEXT = 0 + 1) ∧
    (meets ({ b [(PWR_STATUS_VAUX_OK, 1)] with pwr := { base.pwr with rails := 4 } }) fun s => s.get SAG_ATTEST_NEXT_EXHAUSTED = 0 ∧
      s.get SAG_ATTEST_NEXT_NEXT = 0) ∧
    (meets ({ base with pwr := { base.pwr with hostUp := false }, sag := { own with bootFail := some (1, 0) } }) fun s =>
      s.pwr.hostUp = false ∧ s.pwr.saggarUp = true ∧ s.sag.error = false ∧ s.pwr.resetPin = false ∧ s.clk[(0 : Fin 7)].everLocked = true ∧
      s.sag.lifecycle = 2 ∧ s.get SAG_ROLLBACK_FW_VALUE ≤ 9 ∧ s.sag.bootFail = some (1, 0) ∧ (bootInForce s.sag.bootTable).fwSlot = 0) ∧
    (goodSlot (readSlot false (some key1) (fwFile 9)) = true ∧ (readSlot false (some key1) (fwFile 9)).version = 9 ∧
      (readSlot false (some key1) (fwFile 9)).content[2]? = some 0x63 ∧ (readSlot false (some key1) {}).formatOk = false) := by
  simp only [meets, takes_iff]
  refine ⟨?_, ?_, ?_, ?_, ?_, ?_, ?_, ?_, ?_⟩ <;> decide +kernel

theorem witness_AccessesOfFirmware :
    (meets (b [(PWR_STATUS_STANDBY, 1)]) fun s => ¬(s.up .host = true ∧ s.get PWR_STATUS_STANDBY = 0)) ∧
    (aliasAt (0x49010008 : Word).toNat = some laneAlias ∧ assigned (laneAlias.at (0x49010008 : Word).toNat 0) (4 : Fin 9).val = true ∧
      base.aliasMembers laneAlias (0x49010008 : Word).toNat = [0, 1, 2, 3, 4, 5] ∧
      (∀ m ∈ [0, 1, 2, 3, 4, 5], (base.directValue (laneAlias.at (0x49010008 : Word).toNat m) 4).isSome = true) ∧
      ∃ m ∈ [0, 1, 2, 3, 4, 5], lanesHalf.directValue (laneAlias.at (0x49010008 : Word).toNat m) 4 = none) ∧
    (aliasAt (0x49011000 : Word).toNat = some laneAlias ∧ base.aliasMembers laneAlias (0x49011000 : Word).toNat = [] ∧
      assigned (laneAlias.at (0x49011FFC : Word).toNat 0) (4 : Fin 9).val = false) ∧
    (meets (b [(CLK_PLL_STATUS_ON 3, 1)]) fun s => s.up .net = true ∧ s.get (CLK_PLL_STATUS_ON 3) = 1) ∧
    (meets base fun s => ¬(s.up .net = true ∧ s.get (CLK_PLL_STATUS_ON 3) = 1)) ∧
    (meets State.reset fun s => ¬(s.up .host = true)) ∧
    (meets (b [(SYS_STATE_PHASE, 5)]) fun s => s.up .host = true ∧ s.phase = 5 ∧ s.up (islandAt (0x41000000 : Word).toNat) = true ∧
      s.up (islandAt (0x46FFFFFF : Word).toNat) = true) ∧
    (meets base fun s => s.up .host = true ∧ 0x20000000 ≤ (0x207FFFF8 : Word).toNat ∧
      (0x207FFFF8 : Word).toNat + (8 : Fin 9).val ≤ 0x20800000 ∧ ¬(((0x207FFFF9 : Word).toNat + (8 : Fin 9).val ≤ 0x20800000)) ∧
      s.glz.staged = none ∧ (0x1FFFFFF : Word).toNat < 0x2000000 ∧ 0x70000000 ≤ (0x70000000 : Word).toNat ∧ aliasAt 0x4FFFFFFC = none ∧
      regPart 0x4FFFFFFC 4 = none ∧ isWindow 0x4FFFFFFC = false) ∧
    (meets base fun s => s.phase ≠ 5 ∧ (aliasAt (0x41400000 : Word).toNat).isSome = true ∧
      (aliasAt (0x4148FFFF : Word).toNat).isSome = true ∧ (aliasAt 0x41490000) = none) ∧
    (meets ({ b [(SYS_STATE_PHASE, 4)] with glz := { base.glz with staged := some (gl [⟨WLK_SYNC_CFG_PTP_FOLLOW, 7, 0, 0, 1⟩] []) } }) fun s =>
      s.phase = 4 ∧ s.glz.staged = some (gl [⟨WLK_SYNC_CFG_PTP_FOLLOW, 7, 0, 0, 1⟩] []) ∧
      ((gl [⟨WLK_SYNC_CFG_PTP_FOLLOW, 7, 0, 0, 1⟩] []).image.fields.find? (·.fld == WLK_SYNC_CFG_PTP_FOLLOW)) = some ⟨WLK_SYNC_CFG_PTP_FOLLOW, 7, 0, 0, 1⟩ ∧
      0 ≤ (1 : DWord).toNat % 2 ∧ (1 : DWord).toNat % 2 ≤ 1) ∧
    (meets ({ b [(SYS_STATE_PHASE, 2)] with glz := { base.glz with staged := some (gl [⟨WLK_SYNC_CFG_PTP_FOLLOW, 7, 0, 0, 0⟩] [⟨7, 1, 0, 0, 0⟩]) } }) fun s =>
      s.phase = 2 ∧ (∃ y ∈ [(⟨7, 1, 0, 0, 0⟩ : SectionEntry)], y.typ = 7 ∧ y.flags % 2 = 1) ∧ ¬((1 : DWord).toNat % 2 ≤ 0)) ∧
    (meets (mgr []) fun s => s.isManager = true ∧ s.up .host = true ∧ 0x100000000 ≤ (0x8010000000 : BitVec 40).toNat ∧
      ¬(0x8010000000 ≤ (0x800FFFFFFF : BitVec 40).toNat) ∧ (0xFFFFFFFF : BitVec 40).toNat < 0x100000000) ∧
    (meets ({ State.reset with pwr := { State.reset.pwr with hostUp := true } }) fun s => s.up .net = false ∧ base.up .net = true) := by
  refine ⟨?_, ?_, ?_, ?_, ?_, ?_, ?_, ?_, ?_, ?_, ?_, ?_, ?_⟩ <;> decide +kernel

theorem witness_LoadingAndFiring :
    (meets ({ b [(GLZ_LEN_LEN, 0x1000)] with glz := { base.glz with verified := [0], load := some { image := okImage } } }) fun s =>
      s.glz.load = some { image := okImage } ∧ s.loadCheck okImage (imagePlan okImage) = none) ∧
    (meets (b [(SYS_STATE_PHASE, 5)]) fun s => s.takes (.load {}) ∧ s.phase = 5 ∧ s.takes .discard ∧ s.takes (.fire true) ∧ s.held = [] ∧
      s.wlk.reqs = []) ∧
    (meets (b [(SYS_STATE_PHASE, 1)]) fun s => s.takes (.load {}) ∧ s.glz.load = none ∧ s.glz.fireWait = false ∧ s.phase ≠ 5 ∧
      ¬(s.phase = 2 ∨ s.phase = 4) ∧ s.takes .discard ∧ s.takes .abortLoad ∧ s.glz.staged = none ∧ s.takes (.fire true)) ∧
    (meets (b [(SYS_STATE_PHASE, 4)]) fun s => s.takes (.load {}) ∧ s.phase = 4 ∧ s.takes .discard ∧ s.glz.fireWait = false) ∧
    (meets ({ base with glz := { base.glz with load := some { image := { readOk := false } } } }) fun s => s.takes .abortLoad ∧
      s.glz.load.isSome = true ∧ s.pwr.firstLoad = false ∧
      (s.loadCheck { readOk := false } (imagePlan { readOk := false })) = some ⟨0x10, 0, 0xFFFF⟩) ∧
    (meets ({ base with glz := { base.glz with load := some { image := { format := 2 } } }, pwr := { base.pwr with firstLoad := true } }) fun s =>
      s.takes .abortLoad ∧ s.pwr.firstLoad = true ∧ (s.loadCheck { format := 2 } (imagePlan { format := 2 })) = some ⟨4, 0, 0xFFFF⟩) ∧
    (meets ({ b [(SYS_STATE_PHASE, 4), (PWR_STATUS_DERATED, 0)] with glz := { base.glz with staged := some (gl [] []) } }) fun s =>
      s.takes (.fire true) ∧ s.glz.staged = some (gl [] []) ∧ s.get PWR_STATUS_DERATED ≠ 1 ∧ (gl [] []).mapVersion = s.grg.mapVersion ∧
      (∀ n : Fin 9, s.get (SET_STATUS_ARMED n) ≠ 1) ∧ s.isManager = false ∧ s.takes (.fire false)) ∧
    (meets ({ b [(SYS_STATE_PHASE, 4), (SET_STATUS_ARMED 8, 1)] with glz := { base.glz with staged := some (gl [] []) } }) fun s =>
      s.takes (.fire true) ∧ s.get (SET_STATUS_ARMED 8) = 1 ∧ s.up .mod = true) ∧
    (meets ({ b [(SYS_STATE_PHASE, 4)] with glz := { base.glz with staged := some (gl [] []), fireWait := true } }) fun s =>
      s.glz.staged = some (gl [] []) ∧ s.glz.fireWait = true ∧ s.sit.orderTiles = []) := by
  simp only [meets, takes_iff]
  refine ⟨?_, ?_, ?_, ?_, ?_, ?_, ?_, ?_, ?_⟩ <;> decide +kernel

theorem witness_StepRunsTheFirstCommand : ({ base with pending := [.trig, .dieHot] } : State).pending = .trig :: [.dieHot] := rfl

theorem witness_CommandsLeaveTheQueue : (∃ t, exec .dieHot base = .next t) ∧ ∃ t, step base = .next t := ⟨⟨_, rfl⟩, ⟨_, rfl⟩⟩

theorem witness_StepsKeepMemoriesCanonical : base.canon = true ∧ ∃ t, step base = .next t := ⟨by decide +kernel, ⟨_, rfl⟩⟩

theorem witness_CommandsChangeOnlyTheirParts : footprint .dieHot = some [.regs 0x4c0] ∧ (∃ t, exec .dieHot base = .next t) ∧
    .dieHot ≠ Instr.vauxHigh true ∧ footprint (.registerWrite 0x40100000 0 4 {}) = none :=
  ⟨rfl, ⟨_, rfl⟩, Instr.noConfusion, rfl⟩

theorem witness_WheelInstructionStaysInItsWheel :
    (wheelIssue (.iadd 63 0 3 1 (.imm 1)) = some (63, 0, 1) ∧ ∃ t, exec (.iadd 63 0 3 1 (.imm 1)) base = .next t) ∧
    decodeWheel 63 0x820014003F800000 = some (.mov 63 0 5 (.imm 0x3F800000)) ∧
    ∃ t, exec (.mov 63 0 5 (.imm 0x3F800000)) base = .next t := ⟨⟨rfl, ⟨_, rfl⟩⟩, by decide +kernel, ⟨_, rfl⟩⟩

theorem witness_IntegratorStaysWithinLimits : (wh run0 []).wheels[(0 : Fin 64)].runs 0 = true ∧
    (∃ t, exec (.iacc 0 0 3 3 1 2) (wh run0 []) = .next t) ∧ (∃ t, exec (.ipre 0 0 0 1) (wh run0 []) = .next t) ∧
    ∃ t, exec (.ilim 0 0 0 1 2) (wh run0 []) = .next t := ⟨by decide +kernel, ⟨_, rfl⟩, ⟨_, rfl⟩, ⟨_, rfl⟩⟩

theorem witness_OutputsOfAPairExcludeEachOther : (∀ p : Fin 9, ¬(base.mod.pairs[p].outA = true ∧ base.mod.pairs[p].outB = true)) ∧
    ∃ t, step base = .next t := ⟨by decide +kernel, ⟨_, rfl⟩⟩

end Sys2Proof.Machine
end

section
/-!
PROOFS. What the instructions that write register D from the Wheel's own state leave behind, and with it the integer, logic, shift and Q31
instructions (04_wheel_instruction_set.md R83, R85, R87).
-/

namespace Sys2Proof.Machine

open Sys2Proof

/-! ### The state after an update of one Wheel -/

/-- An update of one Wheel is confined to that Wheel. -/
theorem OnlyWheel.onWheel (s : State) (w : Fin 64) (f : Wheel → Wheel) : OnlyWheel w s (s.onWheel w f) :=
  ⟨fun u hu => s.onWheel_ne w u f hu, (OnlyRegs.onWheel_iff s w f).mpr (OnlyRegs.refl [] s),
    fun _ => rfl, fun _ => rfl, fun _ => rfl, fun _ => rfl, fun _ => rfl⟩

/-! ### An instruction that writes D (R73, R83) -/

/-- Where the Wheel runs under a true predicate, D and the sticky flags are written and the cycles pass, in one update of the Wheel. -/
theorem State.issueVal_runs (s : State) (w : Fin 64) (p : Fin 16) (n : Nat) (d : Fin 64) (f : Wheel → Word × Nat)
    (h : s.wheels[w].runs p = true) :
    s.issueVal w p n d f = s.onWheel w fun x => ((x.setX d (f x).1).setFlags (f x).2).advance n := by
  obtain ⟨hissues, hcond⟩ : s.wheels[w].issues = true ∧ s.wheels[w].cond p = true := by simpa [Wheel.runs] using h
  rw [State.issueVal, State.issue_true s w p n _ hissues hcond, State.onWheel_onWheel]

theorem State.issueVal_writesX (s : State) (w : Fin 64) (p : Fin 16) (n : Nat) (d : Fin 64) (f : Wheel → Word × Nat)
    (h : s.wheels[w].runs p = true) :
    WritesX w d (f s.wheels[w]).1 (f s.wheels[w]).2 s (s.issueVal w p n d f) := by
  rw [s.issueVal_runs w p n d f h]
  simp only [WritesX, State.onWheel_same, Wheel.xr_advance, Wheel.xr_setFlags, Wheel.xr_setX_same, Wheel.flags_advance,
    Wheel.flags_setFlags, Wheel.flags_setX, Wheel.preds_advance, Wheel.preds_setFlags, Wheel.preds_setX, Wheel.work_advance,
    Wheel.work_setFlags, Wheel.work_setX, true_and]
  exact ⟨fun r hr => Wheel.xr_setX_ne _ d r _ hr, OnlyWheel.onWheel s w _⟩

/-- An instruction whose meaning is one `issueVal` writes to D what its function gives on the Wheel as it stood. -/
theorem Completes.of_issueVal {i : Instr} {s : State} {w : Fin 64} {p : Fin 16} {n : Nat} {d : Fin 64} {f : Wheel → Word × Nat}
    {v : Word} {m : Nat} (hexec : exec i s = .next (s.issueVal w p n d f)) (hruns : s.wheels[w].runs p = true)
    (hval : f s.wheels[w] = (v, m)) : Completes i s (WritesX w d v m s) := by
  have hwrites := s.issueVal_writesX w p n d f hruns
  rw [hval] at hwrites
  exact ⟨_, hexec, hwrites⟩

/-! ### Saturation to Q31 (R85) -/

/-- The model's clip to the Q31 range is saturation, and its flag says that the value moved. -/
theorem clipQ_eq_sat31 (i : Int) : clipQ i qMin qMax = (sat31 i, if sat31 i = i then 0 else flagQS) := by
  unfold clipQ qMin qMax sat31
  by_cases hlow : i < -2147483648
  · rw [if_pos hlow, if_neg (by omega), show max (-2147483648) (min 2147483647 i) = -2147483648 by omega]
  · by_cases hhigh : 2147483647 < i
    · rw [if_neg hlow, if_pos hhigh, if_neg (by omega), show max (-2147483648) (min 2147483647 i) = 2147483647 by omega]
    · have hin : max (-2147483648) (min 2147483647 i) = i := by omega
      rw [if_neg hlow, if_neg hhigh, hin, if_pos rfl]

theorem qres_eq (i : Int) : qres i = (BitVec.ofInt 32 (sat31 i), if sat31 i = i then 0 else flagQS) := by
  rw [qres, clipQ_eq_sat31]

/-- A saturated value fits the 32-bit word that holds it. -/
theorem toInt_ofInt_sat31 (i : Int) : (BitVec.ofInt 32 (sat31 i)).toInt = sat31 i :=
  BitVec.toInt_ofInt_eq_self (by decide) (by unfold sat31; omega) (by unfold sat31; omega)

/-- An instruction whose meaning is one `issueVal` of a Q31 result writes that integer saturated, and QS where it moved. -/
theorem Completes.of_issueVal_qres {i : Instr} {s : State} {w : Fin 64} {p : Fin 16} {n : Nat} {d : Fin 64} {f : Wheel → Word × Nat}
    {q : Int} (hexec : exec i s = .next (s.issueVal w p n d f)) (hruns : s.wheels[w].runs p = true)
    (hval : f s.wheels[w] = qres q) : Completes i s (WritesQ w d q s) := by
  obtain ⟨t, ht, hwrites⟩ := Completes.of_issueVal hexec hruns (hval.trans (qres_eq q))
  exact ⟨t, ht, _, toInt_ofInt_sat31 q, hwrites⟩

/-! ### The integer, logic, shift and Q31 instructions -/

/-- Settles O13: each of the instructions is one `issueVal`, and the Q31 ones give a `qres`; both by definition of its meaning. -/
theorem integerInstructionResults : Obligations.IntegerInstructionResults := by
  intro s w p d a c e b hruns A B C E
  exact
    ⟨.of_issueVal rfl hruns rfl, -- IADD
     .of_issueVal rfl hruns rfl, -- ISUB
     .of_issueVal rfl hruns rfl, -- AND
     .of_issueVal rfl hruns rfl, -- OR
     .of_issueVal rfl hruns rfl, -- XOR
     .of_issueVal rfl hruns rfl, -- SHL
     .of_issueVal rfl hruns rfl, -- SHR
     .of_issueVal rfl hruns rfl, -- SAR
     .of_issueVal_qres rfl hruns rfl, -- QADD
     .of_issueVal_qres rfl hruns rfl, -- QSUB
     .of_issueVal_qres rfl hruns rfl, -- QMUL
     .of_issueVal_qres rfl hruns rfl, -- QMAC
     .of_issueVal_qres rfl hruns rfl⟩ -- QABS

end Sys2Proof.Machine
end

section
/-!
PROOFS. What an access of firmware that takes effect leaves behind, lists of register fields as puts build them, what raising a block
stop leaves of the Sitter's registers, and with it CLEAR_STOP (11_sitter_and_window_comparators.md R223 to R226).
-/

namespace Sys2Proof.Machine

open Sys2Proof

/-! ### Accesses that take effect -/

/-- An access that takes effect runs its operation and answers 0. -/
theorem State.access_of_takes {s : State} {i : Instr} {x : Isl} {h : Option Held} (hacc : accessOf i = some (x, h)) (htakes : s.takes i)
    (f : State → State) : s.access x h f = (f s).respond 0 := by
  simp only [State.takes, hacc] at htakes
  obtain ⟨hhost, hawake, hup, hphase⟩ := htakes
  have hruns : s.coresRun = true := by simp [State.coresRun, State.bit, hhost, hawake]
  cases h with
  | none => simp [State.access, hruns, hup]
  | some d => simp [State.access, hruns, hup, hphase rfl]

/-- The island of an access that takes effect is out of reset. -/
theorem State.up_of_takes {s : State} {i : Instr} {x : Isl} {h : Option Held} (hacc : accessOf i = some (x, h)) (htakes : s.takes i) :
    s.up x = true := by
  simp only [State.takes, hacc] at htakes
  exact htakes.2.2.1

/-- A command that is one access completes with what its operation leaves. -/
theorem Completes.of_access {i : Instr} {s : State} {x : Isl} {h : Option Held} {f : State → State} {P : State → Prop}
    (hacc : accessOf i = some (x, h)) (htakes : s.takes i) (hexec : exec i s = .next (s.access x h f)) (hP : P ((f s).respond 0)) :
    Completes i s P :=
  ⟨_, by rw [hexec, State.access_of_takes hacc htakes], hP⟩

/-! ### Fields set one after the other -/

theorem Sets.refl (s : State) : Sets [] s s := ⟨fun _ he => absurd he List.not_mem_nil, OnlyRegs.refl [] s⟩

/-- An update that leaves the registers leaves what the fields hold. -/
theorem Sets.regs {l : List (Fld × Nat)} {s t u : State} (h : Sets l s t) (e : u.regs = t.regs) : Sets l s u := by
  obtain ⟨hvals, honly⟩ := h
  refine ⟨fun x hx => ?_, honly.regs e⟩
  simpa only [State.get, e] using hvals x hx

theorem Fld.apart.symm {f g : Fld} (h : f.apart g) : g.apart f := by
  unfold Fld.apart at *
  omega

/-- A further field joins the list by a put, where it shares no bit with those of the list. -/
theorem Sets.put {l : List (Fld × Nat)} {s t : State} (h : Sets l s t) (f : Fld) (v : Nat) (hf : f.fits) (hv : v < 2 ^ f.width)
    (hl : ∀ e ∈ l, e.1.fits ∧ e.1.apart f) : Sets (l ++ [(f, v)]) s (t.put f v) := by
  obtain ⟨hvals, honly⟩ := h
  refine ⟨fun e he => ?_, (honly.mono fun g hg => ?_).put f v ?_⟩
  · rcases List.mem_append.mp he with hold | hnew
    · obtain ⟨hfits, hapart⟩ := hl e hold
      exact (State.get_put_apart t f e.1 v hfits.2 hapart.symm).trans (hvals e hold)
    · obtain rfl := List.mem_singleton.mp hnew
      exact (State.get_put_same t f v hf).trans (Nat.mod_eq_of_lt hv)
  · exact List.map_append ▸ List.mem_append_left _ hg
  · simp

/-- Puts into fields of which no two share a bit, each value within its field, join those of the list. -/
theorem Sets.puts {l : List (Fld × Nat)} {s t : State} (h : Sets l s t) (m : List (Fld × Nat)) (hfits : ∀ e ∈ m, e.2 < 2 ^ e.1.width)
    (hall : ∀ e ∈ l ++ m, e.1.fits) (hapart : (l ++ m).Pairwise fun d e => d.1.apart e.1) :
    Sets (l ++ m) s (m.foldl (fun u e => u.put e.1 e.2) t) := by
  induction m generalizing l t with
  | nil => exact (List.append_nil l).symm ▸ h
  | cons e m ih =>
    obtain ⟨-, -, hold⟩ := List.pairwise_append.mp hapart
    have hput : Sets (l ++ [e]) s (t.put e.1 e.2) :=
      h.put e.1 e.2 (hall e (List.mem_append_right l (List.mem_cons_self ..))) (hfits e (List.mem_cons_self ..)) fun d hd =>
        ⟨hall d (List.mem_append_left _ hd), hold d hd e (List.mem_cons_self ..)⟩
    rw [List.append_cons] at hall hapart ⊢
    exact ih hput (fun d hd => hfits d (List.mem_cons_of_mem e hd)) hall hapart

/-- A field that shares no bit with those of the list joins it with the value it has. -/
theorem Sets.kept {l : List (Fld × Nat)} {s t : State} (h : Sets l s t) (f : Fld) (hf : f.fits) (hl : ∀ e ∈ l, e.1.apart f) :
    Sets (l ++ [(f, s.get f)]) s t := by
  obtain ⟨hvals, honly⟩ := h
  refine ⟨fun e he => ?_, honly.mono fun g hg => List.map_append ▸ List.mem_append_left _ hg⟩
  rcases List.mem_append.mp he with hold | hnew
  · exact hvals e hold
  · obtain rfl := List.mem_singleton.mp hnew
    exact honly f hf.2 (List.forall_mem_map.mpr hl)

/-- A counter advanced by one. -/
theorem Sets.inc (s : State) (f : Fld) (hfits : f.fits) : Sets [(f, s.counted f)] s (s.inc f) := by
  refine ⟨fun e he => ?_, (OnlyRegs.refl [f] s).inc f (List.mem_singleton_self f)⟩
  obtain rfl := List.mem_singleton.mp he
  exact State.get_inc_same s f hfits

/-! ### Frames from the parts of the state -/

/-- An operation within parts that hold none of the five memories leaves them. -/
theorem Within.sameMemory {l : List Part} {s t : State} (h : Within l s t)
    (hl : ∀ p ∈ ([.sram, .slots, .coef, .prog, .met] : List Part), p ∉ l) : SameMemory s t := by
  have hsram : t.sram = s.sram := h .sram (hl _ (by decide))
  have hslots : t.slots = s.slots := h .slots (hl _ (by decide))
  have hcoef : t.coef = s.coef := h .coef (hl _ (by decide))
  have hprog : t.prog = s.prog := h .prog (hl _ (by decide))
  have hmet : t.met = s.met := h .met (hl _ (by decide))
  simp [SameMemory, State.slot, hsram, hslots, hcoef, hprog, hmet]

/-- Of the registers of the Sitter's block, those that share no bit with a field of `fs` read in `t` as in `s`. -/
def SitOnly (fs : List Fld) (s t : State) : Prop :=
  ∀ g : Fld, g.addr / 0x100000 = 0x448 → g.hi < 64 → (∀ f ∈ fs, f.apart g) → t.get g = s.get g

theorem SitOnly.refl (fs : List Fld) (s : State) : SitOnly fs s s := fun _ _ _ _ => rfl

theorem SitOnly.trans {fs : List Fld} {r s t : State} (h : SitOnly fs r s) (k : SitOnly fs s t) : SitOnly fs r t :=
  fun g ha hg hf => (k g ha hg hf).trans (h g ha hg hf)

theorem OnlyRegs.sitOnly {fs : List Fld} {s t : State} (h : OnlyRegs fs s t) : SitOnly fs s t := fun g _ hg hf => h g hg hf

/-- An operation whose parts do not hold the Sitter's registers leaves them. -/
theorem Within.sitOnly {l : List Part} {s t : State} (h : Within l s t) (hl : Part.regs 0x448 ∉ l) (fs : List Fld) : SitOnly fs s t :=
  fun g ha _ _ => congrArg (fieldGet · g) (h (.regs 0x448) hl g.addr ha)

theorem SitOnly.put {fs : List Fld} {r s : State} (h : SitOnly fs r s) (f : Fld) (v : Nat) (hf : f ∈ fs) : SitOnly fs r (s.put f v) :=
  h.trans ((OnlyRegs.refl fs s).put f v hf).sitOnly

theorem SitOnly.when {fs : List Fld} {r s : State} {b : Bool} {f : State → State} (h : SitOnly fs r s) (hf : ∀ u, SitOnly fs u (f u)) :
    SitOnly fs r (s.when b f) := by
  unfold State.when
  split
  · exact h.trans (hf s)
  · exact h

/-- A put outside the Sitter's block. -/
theorem SitOnly.put_outside {fs : List Fld} {r s : State} (h : SitOnly fs r s) (f : Fld) (v : Nat) (hf : f.addr / 0x100000 ≠ 0x448) :
    SitOnly fs r (s.put f v) :=
  h.trans fun g ha hg _ => State.get_put_apart s f g v hg (.inl fun e => hf (e ▸ ha))

/-! ### What raising a block stop leaves of the Sitter's registers (R223 to R225, R227) -/

/-- The fields of the Sitter that a first cause sets besides CAUSE and BLOCK_STOP. -/
def stopMarks : List Fld :=
  [SIT_FIRST_VALID, SIT_FIRST_DETAIL, SIT_FIRST_CODE, SIT_INT_BLOCK_STOP, SIT_STATUS_SAFE_DONE, SIT_STATUS_STAGE, SIT_STATUS_PLANT_OUT]

/-- The fields of the Sitter that a further cause may change. -/
def laterMarks : List Fld := [SIT_CAUSE_CAUSE, SIT_FIRST_DETAIL, SIT_FIRST_CODE]

theorem State.cone_sitOnly (s : State) (source detail flags : Nat) (fs : List Fld) : SitOnly fs s (s.cone source detail flags) :=
  (State.cone_within (Within.refl [.regs 0x4e0, .con] s) source detail flags fun _ h => h).sitOnly (by decide) fs

theorem State.journal_sitOnly (s : State) (typ detail payload : Nat) (fs : List Fld) : SitOnly fs s (s.journal typ detail payload) :=
  (State.journal_within (Within.refl [.regs 0x470, .met, .sag] s) typ detail payload fun _ h => h).sitOnly (by decide) fs

theorem State.orderDone_sitOnly (s : State) : SitOnly stopMarks s s.orderDone :=
  (((SitOnly.refl stopMarks s).put SIT_STATUS_SAFE_DONE 1 (by decide)).put SIT_STATUS_STAGE 3 (by decide)).put_outside
    SET_FAULT_SNAP_COMPLETE 1 (by decide)

theorem State.safeOrder_sitOnly (s : State) : SitOnly stopMarks s s.safeOrder := by
  unfold State.safeOrder
  extract_lets armed s1 sit s2 s3
  -- The pairs and their channels lie outside the Sitter.
  have hpairs : Within [.regs 0x440, .mod, .tiles] s s1 := by
    refine Within.each (Within.refl _ s) fun p u hu => ?_
    have hgated := State.gatePair_within hu p (fun x => { x with stopHold := true }) (by decide)
    dsimp only
    split
    · split
      · exact Within.each hgated fun c v hv => State.stage1_within hv _ _ _ c (by decide)
      · exact State.chanHush_within (State.chanHush_within hgated _ 0 (by decide)) _ 1 (by decide)
    · exact hgated
  have hunits : SitOnly stopMarks s s2 := hpairs.sitOnly (by decide) stopMarks
  have hcommanded : SitOnly stopMarks s s3 :=
    ((hunits.put SIT_STATUS_STAGE 1 (by decide)).put_outside SET_FAULT_SNAP_CH s.faults (by decide)).put_outside
      SET_FAULT_SNAP_COMPLETE 0 (by decide)
  split
  · exact hcommanded.trans s3.orderDone_sitOnly
  · exact hcommanded

theorem State.plantRefresh_sitOnly (s : State) : SitOnly stopMarks s s.plantRefresh := by
  unfold State.plantRefresh
  extract_lets other
  split
  · exact .refl stopMarks s
  · split
    · refine SitOnly.trans ?_ ((State.sendPlant_within (Within.refl [.outbox] _) .stop 0 (by decide)).sitOnly (by decide) stopMarks)
      exact (SitOnly.refl stopMarks s).put SIT_STATUS_PLANT_OUT 1 (by decide)
    · exact .refl stopMarks s

theorem State.firstLower_sitOnly (s : State) (c : Cause) (detail : Nat) : SitOnly laterMarks s (s.firstLower c detail) := by
  have hfirst : SitOnly laterMarks s ((s.put SIT_FIRST_DETAIL detail).put SIT_FIRST_CODE c.bitNo) :=
    ((SitOnly.refl laterMarks s).put SIT_FIRST_DETAIL detail (by decide)).put SIT_FIRST_CODE c.bitNo (by decide)
  exact hfirst -- the corrected journal record and snapshot header lie outside the registers

/-- A further cause of a latched block stop joins CAUSE and may become FIRST; the Sitter's other registers stay. -/
theorem State.raiseStopAlso_latched {s : State} (c : Cause) (detail also : Nat) (hup : s.up .mod = true)
    (hstop : s.bit SIT_STATUS_BLOCK_STOP = true) : SitOnly laterMarks s (s.raiseStopAlso c detail also) := by
  have hcause : SitOnly laterMarks s (s.orBits SIT_CAUSE_CAUSE (2 ^ c.bitNo)) :=
    ((OnlyRegs.refl laterMarks s).orBits SIT_CAUSE_CAUSE _ (by decide)).sitOnly
  simp only [State.raiseStopAlso, hup, hstop, Bool.not_true, Bool.false_eq_true, if_false, if_true]
  exact (hcause.when fun u => u.firstLower_sitOnly c detail).when fun u => u.cone_sitOnly also 0 0 laterMarks

/-- The first cause latches CAUSE and BLOCK_STOP, and of the Sitter's other registers changes its marks alone. -/
theorem State.raiseStopAlso_first {s : State} (c : Cause) (detail also : Nat) (hup : s.up .mod = true)
    (hstop : s.bit SIT_STATUS_BLOCK_STOP = false) :
    SitOnly stopMarks ((s.orBits SIT_CAUSE_CAUSE (2 ^ c.bitNo)).put SIT_STATUS_BLOCK_STOP 1) (s.raiseStopAlso c detail also) := by
  simp only [State.raiseStopAlso, hup, hstop, Bool.not_true, Bool.false_eq_true, if_false]
  refine SitOnly.trans ?_ (State.plantRefresh_sitOnly _)
  refine SitOnly.trans ?_ (State.journal_sitOnly _ _ _ _ _)
  refine SitOnly.trans ?_ (State.cone_sitOnly _ _ _ _ _)
  refine SitOnly.trans ?_ (State.safeOrder_sitOnly _)
  exact (((((SitOnly.refl stopMarks _).put SIT_FIRST_VALID 1 (by decide)).put SIT_FIRST_DETAIL detail (by decide)).put
    SIT_FIRST_CODE c.bitNo (by decide)).put SIT_INT_BLOCK_STOP 1 (by decide)).put SIT_STATUS_SAFE_DONE 0 (by decide)

/-- Raising a block stop leaves BLOCK_STOP set. -/
theorem State.raiseStop_blockStop {s : State} (c : Cause) (detail : Nat) (hup : s.up .mod = true) :
    (s.raiseStop c detail).get SIT_STATUS_BLOCK_STOP = 1 := by
  have hlt : s.get SIT_STATUS_BLOCK_STOP < 2 := s.get_lt SIT_STATUS_BLOCK_STOP
  cases hstop : s.bit SIT_STATUS_BLOCK_STOP with
  | true =>
    have hone : s.get SIT_STATUS_BLOCK_STOP = 1 := by simp [State.bit] at hstop; omega
    exact (State.raiseStopAlso_latched c detail 0 hup hstop _ (by decide) (by decide) (by unfold Fld.apart; decide)).trans hone
  | false =>
    exact (State.raiseStopAlso_first c detail 0 hup hstop _ (by decide) (by decide) (by unfold Fld.apart; decide)).trans
      (State.get_put_same _ _ _ ⟨by decide, by decide⟩)

/-- Raising a block stop refuses no clear. -/
theorem State.raiseStop_refusedCount {s : State} (c : Cause) (detail : Nat) (hup : s.up .mod = true) :
    (s.raiseStop c detail).get SIT_REFUSED_COUNT = s.get SIT_REFUSED_COUNT := by
  cases hstop : s.bit SIT_STATUS_BLOCK_STOP with
  | true => exact State.raiseStopAlso_latched c detail 0 hup hstop _ (by decide) (by decide) (by unfold Fld.apart; decide)
  | false =>
    have hlatched := ((OnlyRegs.refl [SIT_CAUSE_CAUSE, SIT_STATUS_BLOCK_STOP] s).orBits SIT_CAUSE_CAUSE (2 ^ c.bitNo) (by decide)).put
      SIT_STATUS_BLOCK_STOP 1 (by decide)
    have hmarks := State.raiseStopAlso_first c detail 0 hup hstop SIT_REFUSED_COUNT (by decide) (by decide) (by unfold Fld.apart; decide)
    exact hmarks.trans (hlatched SIT_REFUSED_COUNT (by decide) (by unfold Fld.apart; decide))

/-! ### Refused and granted clears (R226) -/

/-- A refused clear is counted and flagged. -/
theorem State.sitRefuse_sets (s : State) : Sets [(SIT_REFUSED_COUNT, s.counted SIT_REFUSED_COUNT), (SIT_INT_REFUSED, 1)] s s.sitRefuse := by
  have hcount := Sets.inc s SIT_REFUSED_COUNT ⟨by decide, by decide⟩
  exact hcount.put SIT_INT_REFUSED 1 ⟨by decide, by decide⟩ (by decide) (by simp [Fld.fits, Fld.apart])

/-- A refused clear leaves the Sitter's units. -/
theorem State.sitRefuse_sit (s : State) : s.sitRefuse.sit = s.sit :=
  State.sitRefuse_within (Within.refl [.regs 0x448] s) (by decide) .sit (by decide)

theorem clearStopOp_active {s : State} (h : s.activeCauses ≠ 0) : clearStopOp s = s.sitRefuse := by
  simp [clearStopOp, h]

/-- The fields that every granted clear sets to 0. -/
def clearedFields : List (Fld × Nat) :=
  [(SIT_CAUSE_CAUSE, 0), (SIT_FIRST_VALID, 0), (SIT_FIRST_DETAIL, 0), (SIT_FIRST_CODE, 0), (SIT_STATUS_BLOCK_STOP, 0),
    (SIT_STATUS_SAFE_DONE, 0)]

/-- A granted clear sets the fields of the causes and of the stop to 0, STAGE only where no safe order is under way (the
model's reading of R225; R226 does not name STAGE). -/
theorem clearStopOp_idle_sets {s : State} (h : s.activeCauses = 0) :
    Sets (clearedFields ++ [(SIT_STATUS_STAGE, if s.sit.orderTiles = [] then 0 else s.get SIT_STATUS_STAGE)]) s (clearStopOp s) := by
  have hcleared := (Sets.refl s).puts clearedFields (by decide) (by unfold Fld.fits; decide) (by unfold Fld.apart; decide)
  by_cases horder : s.sit.orderTiles = []
  · simp only [clearStopOp, h, horder, State.when, bne_self_eq_false, Bool.false_eq_true, if_false, List.isEmpty_nil, if_true]
    exact (hcleared.put SIT_STATUS_STAGE 0 ⟨by decide, by decide⟩ (by decide) (by unfold Fld.fits Fld.apart; decide)).regs rfl
  · simp only [clearStopOp, h, horder, State.when, bne_self_eq_false, Bool.false_eq_true, if_false, List.isEmpty_iff]
    exact (hcleared.kept SIT_STATUS_STAGE ⟨by decide, by decide⟩ (by unfold Fld.apart; decide)).regs rfl

/-- A CLEAR_STOP that takes effect leaves the memories. -/
theorem clearStopOp_sameMemory (s : State) : SameMemory s ((clearStopOp s).respond 0) :=
  (State.respond_within (lp := [.regs 0x448, .sit, .resp]) (clearStopOp_within (Within.refl _ s) (by decide)) 0 (by decide)).sameMemory
    (by decide)

/-- STOP and CLEAR_STOP in one write raise the stop and count the refused clear. -/
theorem stopOp_both {s : State} (hup : s.up .mod = true) : (stopOp true s).get SIT_STATUS_BLOCK_STOP = 1 ∧
    (stopOp true s).get SIT_REFUSED_COUNT = s.counted SIT_REFUSED_COUNT := by
  obtain ⟨hvals, honly⟩ := (s.raiseStop .firmware 0).sitRefuse_sets
  have hcounted := hvals (SIT_REFUSED_COUNT, _) (List.mem_cons_self ..)
  have hstop := honly SIT_STATUS_BLOCK_STOP (by decide) (by simp [Fld.apart])
  refine ⟨hstop.trans (State.raiseStop_blockStop .firmware 0 hup), hcounted.trans ?_⟩
  simp only [State.counted, State.raiseStop_refusedCount .firmware 0 hup]

/-- Settles O44: a write that takes effect runs `clearStopOp`, whose two outcomes follow `activeCauses`, or `stopOp true`. -/
theorem clearStopFollowsTheCauses : Obligations.ClearStopFollowsTheCauses := by
  intro s
  refine ⟨fun htakes => ⟨fun hactive => .of_access rfl htakes rfl ?_, fun hidle => .of_access rfl htakes rfl ?_⟩,
    fun htakes => .of_access rfl htakes rfl ?_⟩
  · have hmem := clearStopOp_sameMemory s
    rw [clearStopOp_active hactive] at hmem ⊢
    exact ⟨s.sitRefuse_sit, hmem, s.sitRefuse_sets.regs rfl⟩
  · exact ⟨clearStopOp_sameMemory s, (clearStopOp_idle_sets hidle).regs rfl⟩
  · exact stopOp_both (State.up_of_takes rfl htakes)

end Sys2Proof.Machine
end
